-- ==== Sys2Proof/Word.lean ====
section
/-! DEFINITION. The word types: bytes, and the little-endian reading and writing of numbers (R2). -/

namespace Sys2Proof

/-- One byte. -/
abbrev Byte := BitVec 8

/-- A 64-bit register word. -/
abbrev Word64 := BitVec 64

end Sys2Proof
end

