-- ==== Sys2Proof/Syntax.lean ====
section
/-! DEFINITION. The commands of the block, one constructor per row of spec/opcode_table.json, and the operand types they
share. -/

namespace Sys2Proof

/-- Who issued a command packet and how: function 0 is PF 0 and function n is VF n (R454), queue 0 to 7 is the SQ pair,
8 the PQ (R482); CID, PADDOCK and NO_IRQ are those of the packet header (R488). -/
structure Hdr where
  fn : Fin 17
  q : Fin 9
  cid : Nat
  pdk : Nat
  noIrq : Bool
  deriving DecidableEq, Repr

/-- Where an instruction issues: a logical core, one of its twelve streams, and whether it belongs to the armed image (the
head that overlaps) or to the running one (R81, R107). -/
structure At where
  core : Fin 128
  stream : Fin 12
  armed : Bool
  deriving DecidableEq, Repr

/-- An error that a timed shelf read of an operation meets (R54, R55): the read's index among the operation's reads, the
lowest codeword in error, and whether it cannot be corrected. -/
structure ShelfErr where
  read : Nat
  codeword : Nat
  uncorr : Bool
  deriving DecidableEq, Repr

/-- How a read of host memory or of another device ends: the bytes it returned, a host completion error (R471), or
poison. -/
inductive Fetched where
  | ok (bytes : List Byte)
  | hostError
  | poison
  deriving DecidableEq, Repr

/-- Which queue base or size register is written (R487, R508); `k` is the pair. -/
inductive QueueReg where
  | sqBase (k : Fin 8) | cqBase (k : Fin 8) | sqSize (k : Fin 8) | cqSize (k : Fin 8)
  | pqBase | pcqBase | eqBase | eqSize
  deriving DecidableEq, Repr

/-- Who made a host access that failed (R471): a command, a schedule's inbound transfer or its outbound transfer. -/
inductive HostUser where
  | command (fn : Fin 17) (q : Fin 9) (cid : Nat)
  | inbound (core : Fin 128) (stream : Fin 12)
  | outbound (core : Fin 128) (stream : Fin 12)
  deriving DecidableEq, Repr

/-- What a configuration write changes (R455, R608). -/
inductive CfgItem where
  | numVfs | vfEnable | ats | pri | pasid | memSpace | bar0
  deriving DecidableEq, Repr


/-- A message of the pod link (R571): the fields of its routing unit and its payload. -/
structure Msg where
  kind : Nat
  dstDev : Nat
  srcDev : Nat
  dstPdk : Nat
  srcPdk : Nat
  flags : Nat
  place : Nat
  xid : Nat
  k : Nat
  n : Nat
  target : Nat
  aux : Nat
  data : List Byte
  deriving DecidableEq, Repr

/-- An error that a read of HBM or of the far tier meets (R409, R442): the sector of the line, whether it cannot be corrected,
and the syndrome. -/
structure SecErr where
  sector : Nat
  uncorr : Bool
  syndrome : Nat
  deriving DecidableEq, Repr

/-- What a test or a zeroisation finds (R62, R214, R250, R660, R686): a shelf row that fails its march (of a physical core, bank and
row of the bank; rows from 768 on are its spares), a failing column (128 is the checksum column, 129 the spare) or lane (from 128 on
the spares) of a core, a core that fails otherwise, an HBM write that its channel group cannot complete, a channel that fails
training, a command processor that fails its self-test, a flash bank whose image fails its checks, what a far port enumerates
(capacity in 256 MiB, speed, width), that the host drives its reference clock, the SLOT_ID straps, a listed line that post-package repair
cannot mend, how many rows it mended, and the speed and width at which the host link trained. -/
inductive Found where
  | row (core : Fin 144) (bank : Fin 32) (brow : Fin 776)
  | column (core : Fin 144) (col : Fin 130)
  | lane (core : Fin 144) (lane : Fin 132)
  | core (core : Fin 144)
  | write
  | channel (ch : Fin 256)
  | proc (k : Fin 20)
  | bank (k : Fin 2)
  | expander (port : Fin 2) (capacity speed width : Nat)
  | hostRefclk
  | slotId (k : Fin 8)
  | unrepaired (group : Fin 16) (line : Nat)
  | ppr (rows : Nat)
  | hostLink (speed width : Nat)
  deriving DecidableEq, Repr

/-- Where an SPDM request arrives (R603): transport 0 DOE, 1 MCTP over I3C, 2 VL7 of a pod port; and the session's slot, which is
the port on VL7. -/
structure Chan where
  transport : Fin 3
  slot : Fin 18
  deriving DecidableEq, Repr

/-- The commands of the block: one constructor per row of spec/opcode_table.json. The commands of packets stand first, so that
the runtime's limit on constructor numbers does not touch a command that the model itself stores. -/
inductive Instr where
  /-- The PF command assigns a group of FREE paddocks with a role, quotas and far extents, all together or none (R28). BASE0, SIZE0, BASE1, SIZE1 of each member. -/
  | paddockAssign (h : Hdr) (role log2 ctxQuotaM1 pool : Nat) (extents : List (Nat × Nat × Nat × Nat))
  /-- The PF command changes a quiet paddock's role, powering shelf banks up or down and resetting drawer 63 (R24). -/
  | paddockConfig (h : Hdr) (role : Nat)
  /-- The PF command sends every member of a group into HANDOVER, ending in FREE (R29). -/
  | paddockRelease (h : Hdr)
  /-- The command loads an image into a slot after the ordered load checks (R103). SLOT, IMAGE, BYTES; the image bytes read through a tag-1 pointer. -/
  | scheduleLoad (h : Hdr) (slot image bytes : Nat) (data : List Byte)
  /-- The command checks the slot and parameters, and arms the run or queues it behind the armed run (R105). -/
  | scheduleRun (h : Hdr) (slot : Nat) (params : List Nat)
  /-- The command empties an image slot that is neither running nor armed (R503). -/
  | scheduleUnload (h : Hdr) (slot : Nat)
  /-- The command replaces all 128 entries of a rotary table at once (R275). TABLE, SRC; the bytes that the host or another module returned. -/
  | rotaryTableLoad (h : Hdr) (table src : Nat) (data : List Byte)
  /-- The command creates a valid context with its format, directory nodes and a raised generation (R350). The parameters of R503. -/
  | ctxCreate (h : Hdr) (c fmt head kvHeadsM1 depth layersM1 place prio flags tag : Nat)
  /-- The command invalidates a context and sends its tree and pages to limbo by one swap (R350). -/
  | ctxDestroy (h : Hdr) (c : Nat)
  /-- The command sets a context's PRIO, PIN, TAG or LENGTH (R350). The parameters of R503. -/
  | ctxSet (h : Hdr) (c select prio flags length tag : Nat)
  /-- The command writes a context descriptor, as it stands in one clock, to host memory (R350). -/
  | ctxRead (h : Hdr) (c out : Nat)
  /-- The command sets a context's placement epoch (R345). -/
  | ctxPlace (h : Hdr) (c place : Nat)
  /-- Every append row that passed the old PLACE has committed or been deferred, so CTX_PLACE completes (R345). -/
  | ctxPlaceDrained (h : Hdr)
  /-- The command adds HBM pages to the paddock's pool as free pages (R350). -/
  | kvPoolAdd (h : Hdr) (n0 k : Nat)
  /-- The command removes free pages from the pool (R350). -/
  | kvPoolRemove (h : Hdr) (n0 k : Nat)
  /-- The command allocates pages for a token range in a tier, by one root swap (R350). -/
  | kvMap (h : Hdr) (c tier lo hi : Nat)
  /-- The command leaves the token pages wholly within a range unallocated, by one root swap (R350). -/
  | kvUnmap (h : Hdr) (c lo hi : Nat)
  /-- The command starts moving token pages from HBM to far pages, setting MOVING (R341). -/
  | kvDemote (h : Hdr) (c lo hi : Nat)
  /-- The command starts moving token pages from far pages to HBM, setting MOVING (R341). -/
  | kvPromote (h : Hdr) (c lo hi : Nat)
  /-- The command drops the named token pages by one root swap (R344). -/
  | kvDrop (h : Hdr) (c lo hi : Nat)
  /-- The command empties drawer 63 of each core, writing or pushing back each deferred row (R338). -/
  | kvScatter (h : Hdr)
  /-- The command queues a ragged batch of sequences for bucketing and bucket runs (R346). The parameters of R503; what a read of host memory at LIST returns. -/
  | decodeStep (h : Hdr) (list out outBytes nM1 slot pPages pCount pRow : Nat) (params : List Nat) (data : List Byte)
  /-- The command writes a table descriptor and raises its generation, waiting while the next generation is held (R369). SLOT, ROW_SECT_M1, ELEM, HASH, ROWS_LOG2, ROWS, BASE, MULT, TAG (R503). -/
  | tableDefine (h : Hdr) (slot sect elem hash rowsLog2 rows base mult tag : Nat)
  /-- The command waits until no lookup holds a generation, optionally clearing VALID first (R370). SLOT, GEN, FLAGS (R503). -/
  | tableRetire (h : Hdr) (slot gen flags : Nat)
  /-- The command writes a table descriptor to host memory (R378). SLOT, OUT (R503). -/
  | tableRead (h : Hdr) (slot out : Nat)
  /-- The PF command powers named channels of a group down, or up with training and zeroisation (R399). GROUP, STATE, CH_MASK (R503). -/
  | hbmPower (h : Hdr) (group state mask : Nat)
  /-- In-flight writes of the named channels reach zero, so the channels power down (R399). -/
  | hbmPowerDownDrained (h : Hdr)
  /-- The named channels fail to drain within 100 µs, return to powered, and HBM_POWER fails (R399). -/
  | hbmPowerDownTimeout (h : Hdr)
  /-- The PF command sweeps one channel setting and writes error records per point (R403). CHANNEL, KIND, PATTERN, FROM, TO, DWELL, OUT (R503); FROM and TO are 16 bits, signed. -/
  | hbmMargin (h : Hdr) (ch kind pattern lo hi dwell out : Nat)
  /-- The command writes a new key into the empty slot and starts the re-key pass (R428). -/
  | keyRotate (h : Hdr)
  /-- The PF command stores data and check bits as given in one test sector (R431). CHANNEL, TLINE, SECTOR, CHECK, DATA (R503). -/
  | memRawWrite (h : Hdr) (ch tline sector check : Nat) (data : List Byte)
  /-- The PF command reads one test sector and writes its decode record (R431). CHANNEL, TLINE, SECTOR, OUT (R503). -/
  | memRawRead (h : Hdr) (ch tline sector out : Nat)
  /-- The command registers, changes or clears a host window, pinning its translations when PIN is set (R479). FLAGS: bit 0 CLEAR, 1 READ, 2 WRITE, 3 PIN, 4 PASID_EN (R503). -/
  | hostWindowSet (h : Hdr) (window flags pasid base size : Nat)
  /-- The NOP command completes with success (R502). -/
  | nopCommand (h : Hdr)
  /-- The priority command clears the SQ pairs of an ACTIVE paddock and waits for its taken commands (R497). -/
  | quiesce (h : Hdr) (timeoutUs : Nat)
  /-- Every taken command has completed, so the paddock enters QUIESCED and QUIESCE completes (R497). -/
  | quiesceComplete (h : Hdr)
  /-- TIMEOUT_US passes before the taken commands complete, so QUIESCE performs ABORT with SCOPE 1 (R497). -/
  | quiesceTimeout (h : Hdr)
  /-- The priority command aborts the images and, with SCOPE 1, ends waiting commands with COMMAND_ABORTED (R498). -/
  | abort (h : Hdr) (scope : Nat)
  /-- Every command that the ABORT ended has completed, so ABORT completes (R498). -/
  | abortComplete (h : Hdr)
  /-- The command copies bytes between two device pointers in line transactions (R504). -/
  | copy (h : Hdr) (src dst bytes : Nat)
  /-- The command fills a destination with a repeated 8-byte pattern (R504). -/
  | fill (h : Hdr) (dst bytes pattern : Nat)
  /-- The lines of a COPY or FILL have completed, or a line failed, so it completes reporting bytes written (R505). The source bytes that came from the host or from another module; how many lines were issued; the first failing line (its index) and its status, if a line failed. -/
  | copyFillComplete (h : Hdr) (data : List Byte) (issued : Nat) (fail : Option (Nat × Nat))
  /-- The PF command writes a port's slot table, STRICT mode and credit allotments (R554). The 64 owner codes and the 80 CRED bytes of the packet. -/
  | tdmWrite (h : Hdr) (port flags transit : Nat) (slots creds : List Nat)
  /-- PORT_CONTROL action UP starts training of a DOWN or FAILED port (R555). -/
  | portUp (h : Hdr) (port : Nat)
  /-- PORT_CONTROL action DOWN takes a port down with REASON 1 (R555). -/
  | portDownCommand (h : Hdr) (port : Nat)
  /-- PORT_CONTROL action IDLE hands shakes the port into low-power idle (R555). -/
  | portIdle (h : Hdr) (port : Nat)
  /-- PORT_CONTROL action REKEY forces a rekey of an encrypted port (R555). -/
  | portRekey (h : Hdr) (port : Nat)
  /-- PORT_CONTROL action TIME sets a port's or the module's time role (R555). -/
  | portTime (h : Hdr) (port arg : Nat)
  /-- PORT_CONTROL action RETIRE_LANE fails a named physical lane (R555). -/
  | portRetireLane (h : Hdr) (port lane : Nat)
  /-- PORT_CONTROL action ENCRYPT sets ENCRYPT_REQUIRED from the next training (R555). -/
  | portEncrypt (h : Hdr) (port arg : Nat)
  /-- PORT_CONTROL action WAKE ends IDLE on both ends within 2 µs (R555). -/
  | portWake (h : Hdr) (port : Nat)
  /-- The PF command sweeps a receiver setting of one lane and writes error records (R556). -/
  | linkMargin (h : Hdr) (port lane kind dwell lo hi out : Nat)
  /-- The PF command writes one destination entry and reserves its transit credit (R566). DEV, FLAGS, NPATHS, TRANSIT_FLITS; PORT, HOPS and VIA of each path (R589). -/
  | routeWrite (h : Hdr) (dev flags npaths transit : Nat) (paths : List (Nat × Nat × Nat))
  /-- The PF command replaces rank-table entries, and optionally RANK_SELF and SELF_EPOCH, in one clock (R570). FIRST, COUNT, FLAGS, RANK_SELF, SELF_EPOCH; the entries as RTE_RANK_r lays them out (R589). -/
  | rankWrite (h : Hdr) (first count flags self epoch : Nat) (entries : List Nat)
  /-- Transfers and messages under replaced entries have completed, so a DRAIN RANK_WRITE completes (R570). -/
  | rankWriteDrainDone (h : Hdr)
  /-- The PF command sets the mirror peer, designated ports and each paddock's mirror part (R585). PEER_DEV, PORT_MASK, PART, FENCE_MASK (R589). -/
  | mirrorSet (h : Hdr) (peer ports part fence : Nat)
  /-- The VF command enables or disables the page server of a cache-role paddock (R582). EN (R589). -/
  | pageServerSet (h : Hdr) (en : Nat)
  /-- The PF command checks and writes a firmware image to the idle bank, or discards the staged image (R616). What reading the image returns. -/
  | fwStage (h : Hdr) (image bytes flags : Nat) (data : Fetched)
  /-- The PF command ends sessions, switches banks, optionally fuses MIN_SVN and restarts the root of trust (R617). -/
  | fwActivate (h : Hdr) (flags : Nat)
  /-- The PF command writes a fresh debug challenge (R622). -/
  | debugChallenge (h : Hdr) (out : Nat)
  /-- The PF command checks two debug tokens and, on success, destroys keys, resets and opens debug (R624). -/
  | debugResponse (h : Hdr) (scope tokenK tokenO ownerKeys : Nat) (k o keys : Fetched)
  /-- The command writes a counter set, latched in one clock, to host memory (R650). -/
  | counterRead (h : Hdr) (set out : Nat)
  /-- The command triggers a Sward dump of the paddock (R638). -/
  | haltDump (h : Hdr) (out bytes : Nat)
  /-- The command sets, replaces or clears the paddock's dump buffer and AUTO flag (R646). -/
  | dumpConfig (h : Hdr) (flags buf bytes : Nat)
  /-- The PF command starts a test of a core, processor, channel or pod lane not in tenant use (R667). -/
  | selfTest (h : Hdr) (kind unit : Nat)
  /-- A self-test ends, zeroising or clearing the unit and marking failures (R667). What a core's tests find; failing group lines of a channel, or any element when a processor or a lane fails. -/
  | selfTestComplete (h : Hdr) (found : List Found) (failing : List Nat)
  /-- Training and the Mower's zeroisation of a group powered up by HBM_POWER end, and the command completes within 40 ms (R401). -/
  | hbmPowerUpDone (h : Hdr)
  /-- An HBM margin sweep ends, the trained settings are restored and HBM_MARGIN completes with its points and window (R403). Raw bit errors of each point, and whether the channel returned a parity error. -/
  | hbmMarginComplete (h : Hdr) (points : List (Nat × Bool))
  /-- A pod-lane margin sweep ends, the trained settings are restored and LINK_MARGIN completes with its records (R556). Bit errors and loss of lock of each point. -/
  | linkMarginComplete (h : Hdr) (points : List (Nat × Bool))
  /-- The flash write of a staged image ends, so UPDATE_STAGED sets, FW_STAGE completes and FW_STAGED is sent (R616). -/
  | fwStageComplete (h : Hdr)
  /-- The root-of-trust restart through the boot ROM ends, so FW_ACTIVATE completes and FW_ACTIVATED is sent (R617). The flash banks that fail their checks. -/
  | fwActivateRestartDone (h : Hdr) (bad : List (Fin 2))
  /-- A host write to a register field that has no behaviour of its own stores the value as its access type defines (R3). Function, BAR0 offset, width of the access in bits, value. -/
  | registerWrite (fn : Fin 17) (off width : Nat) (data : Word64)
  /-- A register access of wrong width or alignment changes nothing (a read returns all ones) and is counted in the function's error counters (R5). Function, BAR0 offset, width of the access in bits, write or read. -/
  | wrongWidthAccess (fn : Fin 17) (off width : Nat) (write : Bool)
  /-- A read of a reserved BAR0 offset returns 0, and a write to one changes nothing (R459). Function, BAR0 offset, width of the access in bits, write or read. -/
  | reservedOffsetAccess (fn : Fin 17) (off width : Nat) (write : Bool)
  /-- Assertion of PWRGD after a power-down starts the power-on sequence at stage 1 (R686). How long PWRGD was deasserted. -/
  | modulePowerOn (offMs : Nat)
  /-- A power-on stage ends and the next stage starts; at the end of the last stage READY is set (R686). How long the stage took and what it found. -/
  | powerOnStageEnd (ms : Nat) (found : List Found)
  /-- Assertion of PERST_N resets every function and the host link and sends every paddock through HANDOVER to FREE (R680). -/
  | perstNAssert
  /-- Deassertion of PERST_N starts host-link training within 20 ms, once stage 5 of power-on has ended (R687). -/
  | perstNDeassert
  /-- A function-level reset of PF 0 resets every function and every paddock, while the host link stays trained (R683). -/
  | pfFlr
  /-- A function-level reset of a VF starts its paddock's handover, which ends in ASSIGNED (R456). Of the VF of paddock p. -/
  | vfFlr (p : Fin 16)
  /-- A PERST_N or PF FLR reset completes, including every handover and host-link retraining, and READY sets again (R683). At which the host link trained, read after a PERST_N reset. -/
  | resetComplete (speed width : Nat)
  /-- Deassertion of PWRGD gates every core, takes every pod port down, destroys every key and ramps the module down (R690). -/
  | pwrgdDeassert
  /-- The input falls below 44 V while PWRGD is asserted, and the first power-down step runs at once (R691). -/
  | inputUndervoltage
  /-- An input over-voltage or over-current is reported by the input stage as a regulator fault (R704). -/
  | inputFault
  /-- A filtered low on KILL_N kills the module: every active paddock is aborted and quiesced, and every pod port goes down (R619). How long the pin has been low. -/
  | killNAssert (lowNs : Nat)
  /-- Line transactions reach zero, so handover steps 2 to 4 (key destruction, shelf and HBM zeroisation) start (R33). -/
  | handoverDrainDone (p : Fin 16)
  /-- Shelf and HBM zeroisation end, so handover step 5 clears state and substitutes spares and step 6 ends the handover (R33). What the tests and writes of steps 3 and 4 found. -/
  | handoverZeroiseDone (p : Fin 16) (found : List Found)
  /-- A PF write of 1 to HANDOVER_LATE clears it (R37). -/
  | handoverLateClear (p : Fin 16)
  /-- A waiting arrival write commits in an idle tick of its bank, at most four per clock, oldest first (R50). -/
  | arrivalWriteCommit (core : Fin 128) (bank : Fin 32)
  /-- An arrival write that waited 256 issuing ticks is forced into its bank, and a conflict counts an arrival slip (R51). -/
  | arrivalWriteForced (core : Fin 128) (bank : Fin 32)
  /-- A bank's patrol reads its next row in an idle bank tick (R57). The error met: lowest codeword, uncorrectable. -/
  | patrolRead (core : Fin 128) (bank : Fin 32) (err : Option (Nat × Bool))
  /-- A bank with no idle tick for 16,384 ticks gives the patrol the next tick, with a patrol slip on conflict (R57). The error met: lowest codeword, uncorrectable. -/
  | patrolForced (core : Fin 128) (bank : Fin 32) (err : Option (Nat × Bool))
  /-- The patrol writes back a corrected row in an idle tick, unless a newer write to the row has issued (R58). -/
  | patrolWriteBack (core : Fin 128) (bank : Fin 32)
  /-- The in-flight writes of a core's shelf banks reach zero, so the banks power down for the cache role (R63). -/
  | shelfPowerDownDrained (core : Fin 128)
  /-- Shelf in-flight writes are not zero after 100 µs, so the banks stay powered and PADDOCK_CONFIG fails with POWER_DOWN_TIMEOUT (R63). -/
  | shelfPowerDownTimeout (core : Fin 128)
  /-- A PF write of CE_LIMIT stores the value, or 1 when 0 is written (R76). -/
  | ceLimitWrite (core : Fin 128) (v : Nat)
  /-- The NOP instruction issues and does nothing (R84). -/
  | nop (a : At)
  /-- The END instruction ends a stream section, which retires once its operations complete (R84). -/
  | endSection (a : At)
  /-- The LOOP instruction opens a loop, reading its count once, possibly from a run parameter (R85). -/
  | loopOpen (a : At)
  /-- The ENDLOOP instruction closes the innermost loop and starts its next iteration or leaves it (R85). -/
  | loopClose (a : At)
  /-- A WAIT compares a sync cell with its operand, and the core slips when the condition fails (R90). -/
  | waitCell (a : At)
  /-- The pending tick issues in the first clock in which all its waits hold and its engines are free (R90). -/
  | slipEnd (core : Fin 128)
  /-- A failing WAIT or STILE_WAIT reaches its timeout, is recorded in SCH_WTO, and aborts the paddock's schedule (R98). The waiting instruction. -/
  | waitTimeout (a : At)
  /-- An engine-busy or overlap slip waiting on an untimed completion exceeds the default timeout and aborts with SLIP_TIMEOUT (R96). -/
  | slipTimeout (core : Fin 128)
  /-- An armed image's head starts on a core, initialising its cells, stiles and non-kept drawers (R107). -/
  | headStart (core : Fin 128)
  /-- The running image reaches TAIL_START, and a tail that uses undeclared resources aborts with TAIL_DECLARATION (R108). -/
  | tailStart (core : Fin 128)
  /-- A stream retires when its END has issued and every operation it started has completed (R110). -/
  | streamRetire (a : At)
  /-- An image's run command completes once all its streams have retired and its predecessor's run has completed (R110). -/
  | runComplete (p : Fin 16)
  /-- The paddock's line transactions reach zero after an abort, and the stopped images' run commands complete (R99). -/
  | abortDrainDone (p : Fin 16)
  /-- A write of WAIT_DEFAULT_US stores the value, clamped to 1 to 1,000,000 (R113). -/
  | waitDefaultUsWrite (p : Fin 16) (v : Nat)
  /-- A write of 1 to SCH_CSLIP0.VALID clears it and re-arms the contract-slip record (R95). -/
  | schCslip0ValidClear (core : Fin 128)
  /-- A held untimed event is admitted once the paddock's untimed window has room, in the fixed cyclic source order (R124). -/
  | untimedEventAdmit (p : Fin 16)
  /-- A droop detector reads below DROOP_MV, starting or extending the die's alternating stall stretch, which is reported to every paddock (R129). -/
  | droopTrip (die : Fin 2)
  /-- A droop stretch ends HOLD_CLOCKS after the last trip (R129). -/
  | droopStretchEnd (die : Fin 2)
  /-- A write of 1 to BUD_REC0.VALID clears it and re-arms the excess-tick record (R133). -/
  | budRec0ValidClear (p : Fin 16)
  /-- A PF write of DROOP_MV or HOLD_CLOCKS stores the value clamped to its range (R133). -/
  | budDcfgWrite (die : Fin 2) (droopMv holdClocks : Nat)
  /-- A SIGNAL adds to, sets or ORs into a sync cell at the end of its tick (R136). -/
  | signal (a : At)
  /-- A STILE_ARRIVE claims the stile's current phase and arrives at it (R148). -/
  | stileArrive (a : At)
  /-- A STILE_WAIT holds when the stile's SENSE equals the stream's LOCAL sense, and otherwise the core slips (R151). -/
  | stileWait (a : At)
  /-- MATRIX_TILE streams two operands from shelf rows through the array for S ticks (R188). The errors its operand reads meet. -/
  | matrixTile (a : At) (errs : List ShelfErr)
  /-- At tick i + S + 136 a finished tile claims its tray slot or slots, with its row checks complete (R203). Upsets that strike elements of the tile: element 128 m + n, bits turned. -/
  | tileClaim (core : Fin 128) (upsets : List (Nat × Nat))
  /-- An append tile is handed to its outbound mover, paired with that mover's next KV_APPEND transfer, rotated and converted (R206). Elements that an upset strikes and the bits it turns. -/
  | kvAppendHandoff (core : Fin 128) (upsets : List (Nat × Nat))
  /-- A write of CHK_T stores the tolerance exponent clamped to 7 to 18, applying from the next tile (R215). -/
  | chkTWrite (p : Fin 16) (v : Nat)
  /-- ELEM runs an element program over G groups of its sources (R219). The errors its shelf reads meet. -/
  | elem (a : At) (errs : List ShelfErr)
  /-- WS_MODE selects the operand-cache or tile-buffer view of the working store (R221). -/
  | wsMode (a : At)
  /-- An element program writes an output row or a scale row at its published tick (R226). A residue or parity mismatch of the group: kind, lane, instruction. -/
  | elemRowWrite (core : Fin 128) (fault : Option (Nat × Nat × Nat))
  /-- An element program writes its single one-row output after its last group (R227). A residue or parity mismatch of the last group: kind, lane, instruction. -/
  | elemOneRowWrite (core : Fin 128) (fault : Option (Nat × Nat × Nat))
  /-- ATTN_PASS starts an attention pass that holds the matrix engine and reads its descriptor (R280). -/
  | attnPass (a : At)
  /-- The walker fetches a key/value block into a staging slot once the slot is released (R294). -/
  | attnBlockFetch (core : Fin 128)
  /-- Once its query rows return, the pass rotates the queries and narrows them (R295). -/
  | attnQueryPrepare (core : Fin 128)
  /-- The QK tile of a block starts when its key rows have committed and ME is free (R305). Elements that an upset strikes and the bits it turns. -/
  | attnQkTile (core : Fin 128) (upsets : List (Nat × Nat))
  /-- At the QK claim the row-statistics unit updates the running maximum, sum and probabilities (R297). -/
  | attnRowStatistics (core : Fin 128)
  /-- The PV tiles of a block start when P is ready, the value rows have committed and ME is free (R305). As for ATTN_QK_TILE; tile j of the block has elements from 16384 j on. -/
  | attnPvTile (core : Fin 128) (upsets : List (Nat × Nat))
  /-- After the last PV claim, the pass scales outputs, writes output, LSE and status rows, or writes partials (R299). -/
  | attnFinalScaling (core : Fin 128)
  /-- Every write of the pass has committed, so its completion action is applied and ME and AE are freed (R305). -/
  | attnPassComplete (core : Fin 128)
  /-- A write of 1 to ATN_STALE0.VALID clears it and re-arms the stale record (R312). -/
  | atnStale0ValidClear (core : Fin 128)
  /-- The outbound transfer reads the append header and map rows that pair with an append tile (R328). The errors that its row reads meet. -/
  | kvAppend (a : At) (errs : List ShelfErr)
  /-- Every row of the tile has been written, deferred or discarded, so the append transfer is acknowledged and signals (R328). -/
  | kvAppendComplete (core : Fin 128)
  /-- The appends in flight when MOVING was set have committed or been deferred, so the page copy starts (R341). -/
  | pageMoveAppendsDrained (p : Fin 16)
  /-- A page copy between tiers ends and a root swap points the leaves at the copies (R341). -/
  | pageMoveCopyDone (p : Fin 16)
  /-- A limbo entry returns to its free list once MIN_HELD exceeds its tag, releasing any edit that waited for room (R327). -/
  | limboRecycle (p : Fin 16)
  /-- Between commands, with free pool pages below LOW_WM, the command processor demotes or drops victim pages (R343). -/
  | autoDemote (p : Fin 16)
  /-- The sorting assist takes the step in round robin, buckets the entries and writes the summary at OUT (R347). -/
  | sortingAssistTake (p : Fin 16)
  /-- The next non-empty bucket's run of the named slot is armed with its bucket parameters (R349). -/
  | decodeBucketRun (p : Fin 16)
  /-- A write of the demotion watermarks and enables stores them, with HIGH_WM no lower than LOW_WM (R352). The 64-bit value written. -/
  | ctxCfgWrite (p : Fin 16) (v : Nat)
  /-- A write of FAR_KV stores it clamped between the far pages in use and the quota (R352). The 64-bit value written. -/
  | ctxFarcfgWrite (p : Fin 16) (v : Nat)
  /-- A write of 1 to CTX_DEFER0.VALID clears it and re-arms the deferred-row record (R352). -/
  | ctxDefer0ValidClear (p : Fin 16)
  /-- TABLE_LOOKUP latches a table slot, reads its request rows and issues table reads (R361). -/
  | tableLookup (a : At)
  /-- A table row read returns, to be pooled in ID order (R363). -/
  | tableRowReturn (core : Fin 128)
  /-- The last output row commits and the last table read returns, so the completion action is applied (R374). -/
  | tableLookupComplete (core : Fin 128)
  /-- A lookup releases its generation, which lets a waiting TABLE_DEFINE or TABLE_RETIRE proceed (R368). -/
  | tableGenerationRelease (p : Fin 16)
  /-- A write of 1 to TBL_REC0.VALID clears it and re-arms the lookup record (R379). -/
  | tblRec0ValidClear (p : Fin 16)
  /-- A held line-transaction request issues once a transaction is free, visiting sources cyclically (R390). -/
  | lineTransactionIssue (p : Fin 16)
  /-- A line transaction's read data land or its write is acknowledged, and the transaction is released (R389). Place of the transaction among the paddock's issued ones; what the host returned to a read; the errors that a read meets. -/
  | lineTransactionComplete (p : Fin 16) (idx : Nat) (ret : Fetched) (errs : List SecErr)
  /-- A stack reports a parity error and the channel replays the failed command and those after it (R394). The failed command's place among the paddock's issued transactions; whether it was a write-data parity error. -/
  | hbmParityReplay (p : Fin 16) (idx : Nat) (writeData : Bool)
  /-- A channel opens its calibration window at its fixed timebase instant (R396). -/
  | calibrationWindow (ch : Fin 256)
  /-- A channel issues per-bank refresh at its fixed cadence (R380). -/
  | hbmRefresh (ch : Fin 256)
  /-- Stack temperatures are read every 1 ms, and refresh doubles above 85 °C (R380). The eight stacks' temperatures in °C. -/
  | hbmTemperatureRead (temps : List Nat)
  /-- A write of 1 to HBM_ERR0.VALID clears it and re-arms the record (R407). -/
  | hbmErr0ValidClear (p : Fin 16)
  /-- A PF write of CAL_PERIOD_MS stores it clamped, taking effect at the next multiple of the new period (R407). -/
  | calPeriodMsWrite (v : Nat)
  /-- The Mower visits a queued line and corrects or confirms its errors (R413). The errors that the first read of the line finds; the sectors that are uncorrectable in the second read too. -/
  | mowerDemandVisit (g : Fin 16) (errs : List SecErr) (second : List Nat)
  /-- The scrub pass starts the next line on each channel every SCRUB_INTERVAL and writes back corrected lines conditionally (R416). By channel of the group: the errors of the first read; channel and sector of those uncorrectable in the second. -/
  | scrubLine (g : Fin 16) (errs : List (Fin 16 × SecErr)) (second : List (Nat × Nat))
  /-- The Mower copies a marked line to a spare line under lock and switches the patch entry (R422). The sectors of the line that do not decode. -/
  | linePatch (g : Fin 16) (bad : List Nat)
  /-- The Mower re-keys the next line under the new slot and advances the line pointer P (R429). The errors of the line, and the sectors that stay uncorrectable. -/
  | rekeyLine (g : Fin 16) (errs : List SecErr) (second : List Nat)
  /-- P reaches the end of the group, so the active slot switches, the old key is destroyed and KEY_ROTATE completes (R428). -/
  | rekeyComplete (g : Fin 16)
  /-- A write of 1 to MOW_ERR0.VALID clears it and re-arms the record (R434). -/
  | mowErr0ValidClear (p : Fin 16)
  /-- A PF write of SCRUB_INTERVAL or PATCH_CE stores it, effective at the next line (R434). The value of the whole register. -/
  | mowCfgWrite (g : Fin 16) (v : Nat)
  /-- A far request issues in its port's slot under the slot table and the STRICT mode (R444). The slot that passes, and the direction. -/
  | farRequestIssue (port : Fin 2) (slot : Fin 64) (write : Bool)
  /-- The CXL link layer replays after a bit error, adding latency only (R442). -/
  | cxlLinkReplay (port : Fin 2)
  /-- A far port loses its link, fails every access while down, reports, and retrains up to three times (R446). -/
  | farLinkLoss (port : Fin 2)
  /-- A far port's link returns and service resumes (R446). -/
  | farLinkReturn (port : Fin 2)
  /-- A write of 1 to FAR_ERR0.VALID clears it and re-arms the record (R448). -/
  | farErr0ValidClear (p : Fin 16)
  /-- A PF write of a far slot table or STRICT takes effect at the next table cycle (R448). Slot register k, or 8 for STRICT; the value. -/
  | farSlotWrite (port : Fin 2) (k : Fin 9) (v : Nat)
  /-- A write of APPLY registers or clears window 0 from the staged HIF_WIN0 fields, or sets WIN0_ERR (R723). -/
  | win0Apply (fn : Fin 17)
  /-- A write of 1 to WIN0_ERR clears it (R481). -/
  | win0ErrClear (fn : Fin 17)
  /-- An ATS translation completion arrives, and a command whose pages are all present may start (R467). What the completion grants: address space, range and permissions. -/
  | translationCompletion (fn : Fin 17) (pasid : Option Nat) (base size : Nat) (read write : Bool)
  /-- A PRI group response retranslates the pages or fails the command with PAGE_FAULT or PRI_FAILURE (R476). Fault-queue entry in queue order; 0 Success, 1 Invalid Request, 2 Response Failure (R476). -/
  | pageRequestGroupResponse (fn : Fin 17) (entry : Nat) (response : Fin 3)
  /-- An ATS invalidation stops new use of the covered entries and waits for their issued requests (R472). The range that the request covers. -/
  | atsInvalidationRequest (fn : Fin 17) (pasid : Option Nat) (base size : Nat)
  /-- Requests through invalidated entries have completed, so the entries are removed and the Invalidation Completion is sent (R472). The range of the request. -/
  | invalidationComplete (fn : Fin 17) (pasid : Option Nat) (base size : Nat)
  /-- A command waiting for translation beyond XLATE_TIMEOUT_MS completes with TRANSLATION_TIMEOUT (R477). The waiting command. -/
  | translationTimeout (fn : Fin 17) (q : Fin 9) (cid : Nat)
  /-- A failing host completion or timeout poisons reads or abandons writes, and fails the command or schedule (R471). Who made the access, its window, the host address of its first byte. -/
  | hostCompletionError (user : HostUser) (window addr : Nat)
  /-- A BAR0 request to a TDI in RUN without the T bit or outside its stream is answered with Unsupported Request (R457). Whether the request had the T bit and came inside the selective IDE stream. -/
  | tdiBarRequestRefused (fn : Fin 17) (tBit inStream : Bool)
  /-- Unmasking an MSI-X vector sends its pending message (R460). -/
  | msixUnmask (fn : Fin 17) (vector : Nat)
  /-- A write of XLATE_TIMEOUT_MS stores it clamped to 1 to 60,000 (R481). Function whose block is written, value. -/
  | xlateTimeoutMsWrite (fn : Fin 17) (v : Nat)
  /-- A write of 1 to HIF_ERR0.VALID clears it and re-arms the record (R481). Function whose block is written. -/
  | hifErr0ValidClear (fn : Fin 17)
  /-- A write of EN 1 checks and enables an SQ/CQ pair, making an ASSIGNED or QUIESCED paddock ACTIVE (R484). Pair; whether the pages of its tag-1 queues translate. -/
  | sqPairEnable (fn : Fin 17) (k : Fin 8) (translated : Bool)
  /-- A write of EN 0 stops taking packets from the pair, while taken commands still complete (R508). -/
  | sqPairDisable (fn : Fin 17) (k : Fin 8)
  /-- A write of EN to CMQ_PQ_CFG enables or disables the priority queue and its completion queue (R484). Value of EN; whether the pages translate. -/
  | pqEnable (fn : Fin 17) (en translated : Bool)
  /-- A write of EN to CMQ_EQ_CFG enables or disables the event queue (R484). Value of EN; whether the pages translate. -/
  | eqEnable (fn : Fin 17) (en translated : Bool)
  /-- A write that changes a queue base or size resets that queue's head, tail and PHASE (R487). -/
  | queueBaseWrite (fn : Fin 17) (reg : QueueReg) (v : Nat)
  /-- A write of CMQ_SQ_TAIL gives the new tail of a submission queue (R485). -/
  | sqTailDoorbell (fn : Fin 17) (k : Fin 8) (idx : Nat)
  /-- A write of CMQ_CQ_HEAD releases completion-queue records (R485). -/
  | cqHeadDoorbell (fn : Fin 17) (k : Fin 8) (idx : Nat)
  /-- A write of CMQ_PQ_TAIL makes a priority command present, to start within 5 µs (R496). -/
  | pqTailDoorbell (fn : Fin 17) (idx : Nat)
  /-- A write of CMQ_PCQ_HEAD releases priority completion records (R485). -/
  | pcqHeadDoorbell (fn : Fin 17) (idx : Nat)
  /-- A write of CMQ_EQ_HEAD releases event records (R485). -/
  | eqHeadDoorbell (fn : Fin 17) (idx : Nat)
  /-- Every 1 µs the command processor reads the tail word of a tag-0 SQ with TAILWORD set (R485). -/
  | tailwordPoll (fn : Fin 17) (k : Fin 8)
  /-- The command processor takes a whole packet with a reserved CQ entry and runs its ordered checks (R489). What the read of unit 0 and of the later units returned (tag-0 units are read from HBM). -/
  | packetTake (fn : Fin 17) (q : Fin 9) (hdr rest : Fetched)
  /-- Every earlier command of the SQ has completed, so a FENCE command may be taken (R494). -/
  | fenceRelease (fn : Fin 17) (k : Fin 8)
  /-- A training step ends and the next starts, up to ACTIVE with credits initialised (R514). The timebase at which both ends first sent training sequences (read in step 1), and the lanes that failed the step. -/
  | trainingStepEnd (port : Fin 12) (started : Nat) (lanes : List (Fin 9))
  /-- A training misses a deadline or fails, restarts, and after three tries the port enters FAILED (R515). The same start, and whether step 5 failed. -/
  | trainingAbandon (port : Fin 12) (started : Nat) (authFailed : Bool)
  /-- In each flit time the port sends a marker, a replay flit, a data flit chosen by the slot, or a filler (R531). -/
  | flitSend (port : Fin 12)
  /-- A received flit is checked, accepted or NAKed, and its ACK, NAK and credit report are applied (R535). Header, payload after decryption, check field, uncorrectable codewords that end here, whether the flit has a bit in one, symbols corrected by physical lane. -/
  | flitReceive (port : Fin 12) (header : Word64) (payload : List Byte) (check : Word64) (uncorr : Nat) (spoiled : Bool) (corr : List (Fin 9 × Nat))
  /-- No good RPL flit arrives within 4,096 flit times, so the receiver raises NAK_ID again (R535). -/
  | replayWaitTimeout (port : Fin 12)
  /-- A physical lane fails, the spare takes over or the port degrades by a retrain in place (R537). -/
  | laneFail (port : Fin 12) (lane : Fin 9)
  /-- A peer seeing retrain sequences enters RETRAINING and answers with the same lane mask (R539). -/
  | retrainSequenceReceive (port : Fin 12) (mask : Nat)
  /-- Deskew of the new lane set ends, resume markers are sent and both ends replay (R539). COUNT of the peer's resume marker. -/
  | retrainResume (port : Fin 12) (count : Nat)
  /-- A retrain in place misses a time and the port goes DOWN with REASON 2 (R539). Which time was missed: the answer, the resume markers, the return to ACTIVE. -/
  | retrainDeadlineMiss (port : Fin 12) (part : Fin 3)
  /-- The spare lane's PRBS test exceeds its error ratio or loses lock, and the spare fails (R541). Bit errors found on the spare. -/
  | spareLaneTestFail (port : Fin 12) (errors : Nat)
  /-- A CAPS message gives the peer's port, device, lanes and identity digest (R523). -/
  | capsReceive (port : Fin 12) (m : Msg)
  /-- A VL7 SPDM message fragment is delivered to the root of trust for the pod-link session (R543). -/
  | spdmFragmentReceive (port : Fin 12) (m : Msg)
  /-- An IDLE request or acceptance message advances the low-power idle handshake (R555). -/
  | idleMessageReceive (port : Fin 12) (m : Msg)
  /-- Reading the peer's KEY_READY lets the transmitter switch to the new key slot at one flit (R544). -/
  | keyReadyReceive (port : Fin 12) (m : Msg)
  /-- A direction's flit count reaches 2^39 and a rekey starts (R544). -/
  | rekeyDue (port : Fin 12)
  /-- Every 1 µs each end of an ACTIVE port sends a TIME message (R546). -/
  | timeMessageSend (port : Fin 12)
  /-- A follower computes delay and offset from a TIME message and adjusts its timebase rate (R547). The timebase when the message arrived at the pins. -/
  | timeMessageReceive (port : Fin 12) (m : Msg) (tRx : Nat)
  /-- A follower loses both upstream and backup and unlocks, sending TIME_UNLOCKED (R548). -/
  | timeUnlock
  /-- A port goes DOWN, discarding queues and keys, failing lost messages and sending PORT_DOWN, then retrains (R550). REASON codes of the causes that arose in one clock. -/
  | portDown (port : Fin 12) (reasons : List Nat)
  /-- No good flit or training sequence arrives for 10 µs, so the port goes DOWN with REASON 2 (R550). -/
  | peerLostTimeout (port : Fin 12)
  /-- A PF write of ASYM_PS or LANE_FAIL_LOG2 stores it, clamping the latter to 12 to 24 (R559). -/
  | plkCfgWrite (port : Fin 12) (v : Nat)
  /-- FETCH requests lines from a device pointer and lands them as arrival writes (R576). -/
  | fetch (a : At)
  /-- RECV resolves its source ranks and posts a receive on a channel of its core (R578). -/
  | recv (a : At)
  /-- PAGE_FETCH requests one KV token page from a rank's page server (R575). -/
  | pageFetch (a : At)
  /-- The WRITE mover instruction reads rows and sends them as WRITE messages or local writes (R576). The errors that its row reads meet. -/
  | writeMover (a : At) (errs : List ShelfErr)
  /-- PUSH sends each source row to every rank in its mask as PUSH messages (R577). The errors that its row reads meet. -/
  | push (a : At) (errs : List ShelfErr)
  /-- An admitted WRITE message writes its payload to the destination paddock's local space (R576). The port at which the message came, or none for one on the die. -/
  | writeMessageReceive (port : Option (Fin 12)) (m : Msg)
  /-- An admitted PUSH row lands in the oldest matching posted receive, or waits in the early-arrival store (R578). As for WRITE_MESSAGE_RECEIVE. -/
  | pushMessageReceive (port : Option (Fin 12)) (m : Msg)
  /-- An admitted APPEND message is written, deferred or discarded at the destination paddock (R336). As for WRITE_MESSAGE_RECEIVE. -/
  | appendMessageReceive (port : Option (Fin 12)) (m : Msg)
  /-- An admitted READ_REQ reads local lines and sends them back as READ_DATA (R576). As for WRITE_MESSAGE_RECEIVE. -/
  | readReqReceive (port : Option (Fin 12)) (m : Msg)
  /-- A READ_DATA message lands its line as an arrival write of the fetching transfer (R576). As for WRITE_MESSAGE_RECEIVE. -/
  | readDataReceive (port : Option (Fin 12)) (m : Msg)
  /-- The page server latches the root, resolves the page and sends 64 READ_DATA and an ACK (R582). As for WRITE_MESSAGE_RECEIVE. -/
  | pageReqReceive (port : Option (Fin 12)) (m : Msg)
  /-- An ACK is counted against its transfer, which completes when every destination has acknowledged (R573). As for WRITE_MESSAGE_RECEIVE. -/
  | ackReceive (port : Option (Fin 12)) (m : Msg)
  /-- An admitted STOP aborts the receiving paddock's schedule with PEER_ABORT (R584). As for WRITE_MESSAGE_RECEIVE. -/
  | stopReceive (port : Option (Fin 12)) (m : Msg)
  /-- A standby applies a MIRROR write under its own keys and acknowledges it (R586). -/
  | mirrorReceive (port : Fin 12) (m : Msg)
  /-- A standby receives its primary's MIRROR_BEAT (R586). -/
  | mirrorBeatReceive (port : Fin 12) (m : Msg)
  /-- A primary sends MIRROR_BEAT every 100 µs (R586). -/
  | mirrorBeatSend (p : Fin 16)
  /-- A standby loses its ports or beats for 5 ms, applies pending writes and takes the primary's role (R587). -/
  | mirrorFailover (p : Fin 16)
  /-- A primary loses its standby, stops waiting for mirror acknowledgements and optionally fences itself (R588). -/
  | mirrorBroken (p : Fin 16)
  /-- A transit message is forwarded once on VL6 over a HOPS 1 path, or discarded (R564). The port and virtual lane on which the message came. -/
  | transitForward (port : Fin 12) (vl : Fin 8) (m : Msg)
  /-- A pushed row waits in the early-arrival store beyond WAIT_DEFAULT_US and is discarded with NO_RECEIVE (R579). -/
  | earlyArrivalTimeout (core : Fin 128)
  /-- Every source of a receive has delivered and committed its rows, combining them on arrival where set (R579). -/
  | receiveComplete (core : Fin 128)
  /-- A PF write of DEV_ID sets the device number, effective at each port's next training (R592). -/
  | devIdWrite (v : Nat)
  /-- A write of 1 to RTE_ERR0.VALID clears it and re-arms the record (R592). -/
  | rteErr0ValidClear (p : Fin 16)
  /-- The root of trust answers a standard SPDM request on DOE, MCTP or a pod link (R602). -/
  | spdmRequest (c : Chan) (request : List Byte)
  /-- The vendor-defined request returns a signed measurement report of the device or of a TDI (R599). -/
  | getReport (c : Chan) (scope : Nat) (nonce : List Byte)
  /-- The standard request returns indices 1 to 7 as signed SPDM measurement blocks (R601). -/
  | getMeasurements (c : Chan) (nonce : List Byte)
  /-- KEY_EXCHANGE establishes an SPDM session in a free slot, or is refused with Busy (R603). The port is read for VL7 only. -/
  | keyExchange (transport : Fin 3) (port : Fin 12)
  /-- END_SESSION ends an SPDM session (R603). -/
  | endSession (c : Chan)
  /-- A session's heartbeat is missed for three periods and the session ends (R603). -/
  | sessionHeartbeatMissed (c : Chan)
  /-- IDE_KM KEY_PROG writes an unused key set of a stream (R605). Dir 0 receive, 1 transmit. -/
  | keyProg (c : Chan) (index : Fin 18) (sub : Fin 3) (dir set : Fin 2) (key : List Byte)
  /-- IDE_KM K_SET_GO switches a stream to a programmed key set (R605). -/
  | kSetGo (c : Chan) (index : Fin 18) (sub : Fin 3) (dir set : Fin 2)
  /-- IDE_KM K_SET_STOP retires a stream's other key set (R605). -/
  | kSetStop (c : Chan) (index : Fin 18) (sub : Fin 3) (dir set : Fin 2)
  /-- A selective IDE stream fails its integrity check and goes insecure (R605). -/
  | ideIntegrityFail (fn : Fin 17)
  /-- The TDISP request locks a fresh VF's configuration and moves its TDI to CONFIG_LOCKED (R607). The TDI of paddock p. -/
  | lockInterfaceRequest (c : Chan) (p : Fin 16)
  /-- The TDISP request returns the interface report with the paddock's rank records (R609). -/
  | getDeviceInterfaceReport (c : Chan) (p : Fin 16)
  /-- The TDISP request moves a locked TDI to RUN (R610). -/
  | startInterfaceRequest (c : Chan) (p : Fin 16) (nonce : List Byte)
  /-- The TDISP request performs a VF FLR and returns the TDI to CONFIG_UNLOCKED when the handover ends (R612). -/
  | stopInterfaceRequest (c : Chan) (p : Fin 16)
  /-- A host write to a locked VF's BAR, enables or VF count moves its TDI to ERROR (R608). -/
  | tdiConfigWrite (fn : Fin 17) (item : CfgItem) (v : Nat)
  /-- The out-of-band request returns RTP_DEV, every PDK_STATE and the fatal state (R618). -/
  | getHealth (c : Chan)
  /-- The out-of-band request aborts one paddock and optionally quiesces it (R618). -/
  | paddockStop (c : Chan) (p : Fin 16) (scope : Fin 2) (quiesce : Bool)
  /-- The out-of-band request kills the module (R619). -/
  | moduleKill (c : Chan)
  /-- The out-of-band request fuses the owner key digest once (R618). -/
  | ownerProvision (c : Chan) (value : List Byte)
  /-- SETDASA or ENTDAA assigns the module's I3C dynamic address (R710). SETDASA, or ENTDAA. -/
  | i3cDynamicAddress (setdasa : Bool) (addr : Fin 128)
  /-- A write of TAKE latches every counter of the set, the timebase and SCH_TICK in one clock (R635). -/
  | cntSnapTake (fn : Fin 17)
  /-- A core of the dumped paddock is gated within 1 µs, fixing its cut (R640). -/
  | swardCoreGate (core : Fin 128)
  /-- The non-core records are captured after all cores are gated, and the paddock is aborted and quiesced (R643). -/
  | swardCaptureDone (p : Fin 16)
  /-- The dump header write is acknowledged, so the dump and HALT_DUMP complete and SWARD_DONE is sent (R644). Whether every write to the buffer succeeded. -/
  | swardWriteDone (p : Fin 16) (ok : Bool)
  /-- A processor's heartbeat is missed for 300 µs and detected as its fault (R658). A command processor, or 20 for the root of trust. -/
  | heartbeatMissed (proc : Fin 21)
  /-- A parity or clock-accounting fault in a core's control state aborts the schedule and marks the core failed (R660). -/
  | coreControlFault (core : Fin 128)
  /-- A parity fault in a paddock-level unit aborts the paddock with PADDOCK_FAULT (R660). -/
  | paddockUnitFault (p : Fin 16)
  /-- A fatal cause gates every core, downs every port, destroys every key and asserts ALERT_N (R669). The cause 0x0F01 + cause. -/
  | deviceFatal (cause : Fin 8) (unit : Nat)
  /-- A clock monitor detects loss of the reference or of a core, memory or timebase PLL lock (R675). A bit of CLK_STAT.LOCK, or 6 for the reference. -/
  | pllLockLoss (clock : Fin 7)
  /-- A SerDes PLL loses lock and takes its links down (R675). Pod ports 0 to 11, far ports 12 and 13, the host link 14. -/
  | serdesPllLoss (link : Fin 15)
  /-- A module regulator reports a fault (R668). -/
  | regulatorFault (unit : Fin 9)
  /-- A die or stack sensor reading reaches its trip point (R714). Sensors 0 to 2 the dies, 3 + k stack k. -/
  | thermalTrip (sensor : Fin 11) (celsius : Nat)
  /-- A write of CORE_SEL relocks both core PLLs at the new frequency, or is refused and sets REFUSED (R678). -/
  | coreSelWrite (v : Nat)
  /-- The core PLLs have relocked, so RELOCKING clears and core clocks resume (R678). -/
  | corePllRelockDone
  /-- A write of 1 to REFUSED in CLK_CFG clears it (R692). -/
  | refusedClear
  /-- A host configuration write that sets NumVFs or VF Enable, or the ATS, PRI or PASID enables of a function, creates or removes VFs or changes how translation and page requests behave (R455). Function, what is written, value. -/
  | configurationWrite (fn : Fin 17) (item : CfgItem) (v : Nat)
  /-- The host PCIe link goes down or retrains, or changes rate, outside a PERST_N reset, which is counted in HIF_LINK_RETRAIN and reflected in HIF_LINK (R449). The state of the link afterwards, as HIF_LINK encodes it. -/
  | hostLinkRetrain (up : Bool) (speed width : Nat)
  /-- KILL_N returns high, so the filtered KILL_N_LEVEL clears while KILLED stays set (R709). -/
  | killNDeassert
  /-- A far expander raises a general media or DRAM event, which the PF's command processors read and count in FAR_MEDIA_EVT (R435). -/
  | expanderMediaEvent (port : Fin 2)
  /-- A far port whose three retrains within 100 ms all fail stays down until module power-on (R446). -/
  | farRetrainExhausted (port : Fin 2)
  /-- An outstanding debug challenge reaches its EXPIRY 600 s after issue, and RTP_DBG.CHALLENGE clears (R622). -/
  | debugChallengeExpiry
  /-- Every paddock is FREE and the Mower has zeroised every reserved region under the new keys, so the debug ports open (R624). -/
  | debugZeroiseDone
  deriving DecidableEq, Repr

end Sys2Proof
end

