-- ==== Sys2Proof/Decode.lean ====
section
/-! DEFINITION. Decoding of table words: the rows of spec/opcode_table.json give no bits, so no word spells a command. -/

namespace Sys2Proof

/-- The command that a table word of `nbits` bits spells: none, since no row of the table gives an encoding in bits (log
entry 13). -/
def decodeTableWord (_nbits _w : Nat) : Option Instr := none

end Sys2Proof
end

