-- ==== Sys2Proof/Config.lean ====
section
/-! DEFINITION. What an implementation fixes and the spec leaves open: opaque constants with no body. Nothing about their
values can be proved, so a statement that mentions one holds whatever the value is. -/

namespace Sys2Proof.Config

/-- The value, as FP32 bits, that a native special function returns (R719): opcode and input bits. The limits of R253 to
R260 are not built in (log entry 11). -/
opaque sfuNative : Nat → Nat → Nat
/-- The value that the Phor-1 unit returned (R267): opcode and input bits. -/
opaque sfuCompat : Nat → Nat → Nat
/-- Sign and payload of the NaN that a narrow NaN is read as (R222): exponent bits of the format, stored bits (log entry 82). -/
opaque widenNan : Nat → Nat → Nat
/-- Sine (true) or cosine (false) of a 48-bit phase, as FP32 bits (R274): the units' value within 1 ulp. -/
opaque rotaryTrig : Bool → Nat → Nat
/-- Exponential of the row-statistics unit (R297): kind and input bits. -/
opaque rowExp : Nat → Nat → Nat
/-- Whether a tile row whose difference lies at the threshold fails its check (R210), by use. -/
opaque rowCheckEdge : Nat → Bool
/-- Fresh bytes of the random generator: use, index. -/
opaque randomByte : Nat → Nat → BitVec 8
/-- The digest that a cryptographic function of the root of trust answers (R593 to R625): function, message. -/
opaque digest : Nat → List (BitVec 8) → List (BitVec 8)
/-- Whether a signature or a tag verifies: function, message. -/
opaque verifies : Nat → List (BitVec 8) → Bool
/-- A free value where the spec gives an effect and not its value, by use (log entry 4). -/
opaque freeNat : Nat → Nat

/-- A far byte whose sector was not written under the paddock's key (R440): key number and address. -/
opaque farByte : Nat → Nat → BitVec 8

end Sys2Proof.Config
end

