-- ==== Sys2Proof/Machine/Regs.lean ====
section
/-! DEFINITION. Every field of every register map of the spec (the captions and tables of chapters 01 to 23), one
constant a field: its block, offset, place, access type (R3), reset value (R7) and reset level. Made from the spec's
tables by a script; the widths and offsets are the tables' own. A field with reset "X" carries the value that log
entry 3 names. -/

namespace Sys2Proof.Machine

/-- A register block of the manual. Its instances are numbered as the chapter that owns it numbers them: a paddock, a
logical core, a die, a channel group, a channel, a port, a function or nothing. -/
inductive Blk where
  | PDK | DRW | SCHP | SCHC | BUDP | BUDC | BUDD | SYN | MXEP | MXEC | VEC | ATN | CTX | TBLP | TBLC | HBMG | HBMC | HBMD | MOWG | MOWD | FARP | FARO | HIFD | HIFP | CMQP | CMQF | PLKO | PLKD | PLKP | RTED | RTEP | RTPT | RTPD | CNTP | CNTD | SWD | CLK | RST
  deriving DecidableEq, Repr

/-- Access type of a field (R3). RSV fields hold nothing and have no constant. -/
inductive Acc where
  | ro | rw | rw1c | rw1s | wo
  deriving DecidableEq, Repr

/-- Reset value of a field (R7): a number, the instance number ("p"), one more than it ("1 + f"), the slot number
modulo 16, the default slot owner of PLK_TDM, or a value the spec leaves open ("X"), which log entry 3 names. -/
inductive Rst where
  | val (n : Nat) | inst | instPlus1 | idxMod16 | slotDefault | open_ (n : Nat)
  deriving DecidableEq, Repr

/-- Reset level named in the caption of a register map (R7, R680). -/
inductive Lvl where
  | powerOn | perst | pfReset | handover | schedLoad
  deriving DecidableEq, Repr

/-- A field of a register map. Register `k` of an array lies at `off + stride * k`; field `j` of a repeated field lies at
bit `lo + fstride * j`; the field's index is `k * fcount + j`. -/
structure Fld where
  id : Nat
  blk : Blk
  off : Nat
  stride : Nat
  count : Nat
  lo : Nat
  width : Nat
  fstride : Nat
  fcount : Nat
  wide : Bool
  acc : Acc
  rst : Rst
  lvl : Lvl
  deriving DecidableEq, Repr

namespace F

-- PDK_STATE (01_paddocks_and_roles R37)
def PDK_STATE_GROUP_LOG2 : Fld := ⟨0, .PDK, 0x0, 8, 1, 20, 4, 0, 1, false, .ro, (.val 0), .powerOn⟩
def PDK_STATE_GROUP_BASE : Fld := ⟨1, .PDK, 0x0, 8, 1, 16, 4, 0, 1, false, .ro, .inst, .powerOn⟩
def PDK_STATE_DUMPED : Fld := ⟨2, .PDK, 0x0, 8, 1, 10, 1, 0, 1, false, .ro, (.val 0), .powerOn⟩
def PDK_STATE_HANDOVER_LATE : Fld := ⟨3, .PDK, 0x0, 8, 1, 9, 1, 0, 1, false, .rw1c, (.val 0), .powerOn⟩
def PDK_STATE_SPARE_SHORT : Fld := ⟨4, .PDK, 0x0, 8, 1, 8, 1, 0, 1, false, .ro, (.val 0), .powerOn⟩
def PDK_STATE_ROLE : Fld := ⟨5, .PDK, 0x0, 8, 1, 6, 2, 0, 1, false, .ro, (.val 0), .powerOn⟩
def PDK_STATE_STATE : Fld := ⟨6, .PDK, 0x0, 8, 1, 0, 3, 0, 1, false, .ro, (.val 4), .powerOn⟩

-- PDK_QUOTA (01_paddocks_and_roles R37)
def PDK_QUOTA_CTX_QUOTA_M1 : Fld := ⟨7, .PDK, 0x8, 8, 1, 48, 16, 0, 1, true, .ro, (.val 0), .powerOn⟩
def PDK_QUOTA_FAR_PAGES : Fld := ⟨8, .PDK, 0x8, 8, 1, 20, 28, 0, 1, true, .ro, (.val 0), .powerOn⟩
def PDK_QUOTA_HBM_POOL_PAGES : Fld := ⟨9, .PDK, 0x8, 8, 1, 0, 20, 0, 1, true, .ro, (.val 0), .powerOn⟩

-- PDK_CORES (01_paddocks_and_roles R37)
def PDK_CORES_PHYS7 : Fld := ⟨10, .PDK, 0x10, 8, 1, 56, 8, 0, 1, true, .ro, (.open_ 0), .powerOn⟩
def PDK_CORES_PHYS6 : Fld := ⟨11, .PDK, 0x10, 8, 1, 48, 8, 0, 1, true, .ro, (.open_ 0), .powerOn⟩
def PDK_CORES_PHYS5 : Fld := ⟨12, .PDK, 0x10, 8, 1, 40, 8, 0, 1, true, .ro, (.open_ 0), .powerOn⟩
def PDK_CORES_PHYS4 : Fld := ⟨13, .PDK, 0x10, 8, 1, 32, 8, 0, 1, true, .ro, (.open_ 0), .powerOn⟩
def PDK_CORES_PHYS3 : Fld := ⟨14, .PDK, 0x10, 8, 1, 24, 8, 0, 1, true, .ro, (.open_ 0), .powerOn⟩
def PDK_CORES_PHYS2 : Fld := ⟨15, .PDK, 0x10, 8, 1, 16, 8, 0, 1, true, .ro, (.open_ 0), .powerOn⟩
def PDK_CORES_PHYS1 : Fld := ⟨16, .PDK, 0x10, 8, 1, 8, 8, 0, 1, true, .ro, (.open_ 0), .powerOn⟩
def PDK_CORES_PHYS0 : Fld := ⟨17, .PDK, 0x10, 8, 1, 0, 8, 0, 1, true, .ro, (.open_ 0), .powerOn⟩

-- PDK_INFO (01_paddocks_and_roles R37)
def PDK_INFO_LAST_HANDOVER_US : Fld := ⟨18, .PDK, 0x18, 8, 1, 16, 16, 0, 1, false, .ro, (.val 0), .powerOn⟩
def PDK_INFO_CP_ID : Fld := ⟨19, .PDK, 0x18, 8, 1, 0, 5, 0, 1, false, .ro, .inst, .powerOn⟩

-- DRW_CFG_n (02_core_and_shelf_store R76)
def DRW_CFG_EN : Fld := ⟨20, .DRW, 0x0, 8, 64, 32, 1, 0, 1, true, .ro, (.val 0), .handover⟩
def DRW_CFG_KEEP : Fld := ⟨21, .DRW, 0x0, 8, 64, 31, 1, 0, 1, true, .ro, (.val 0), .handover⟩
def DRW_CFG_SIZE : Fld := ⟨22, .DRW, 0x0, 8, 64, 16, 15, 0, 1, true, .ro, (.val 0), .handover⟩
def DRW_CFG_BASE : Fld := ⟨23, .DRW, 0x0, 8, 64, 0, 15, 0, 1, true, .ro, (.val 0), .handover⟩

-- DRW_STATE_n (02_core_and_shelf_store R76)
def DRW_STATE_PEND : Fld := ⟨24, .DRW, 0x200, 8, 64, 45, 15, 0, 1, true, .ro, (.val 0), .handover⟩
def DRW_STATE_FILL : Fld := ⟨25, .DRW, 0x200, 8, 64, 30, 15, 0, 1, true, .ro, (.val 0), .handover⟩
def DRW_STATE_TAIL : Fld := ⟨26, .DRW, 0x200, 8, 64, 15, 15, 0, 1, true, .ro, (.val 0), .handover⟩
def DRW_STATE_HEAD : Fld := ⟨27, .DRW, 0x200, 8, 64, 0, 15, 0, 1, true, .ro, (.val 0), .handover⟩

-- DRW_VIOL0 (02_core_and_shelf_store R76)
def DRW_VIOL0_VALID : Fld := ⟨28, .DRW, 0x400, 8, 1, 63, 1, 0, 1, true, .ro, (.val 0), .schedLoad⟩
def DRW_VIOL0_KIND : Fld := ⟨29, .DRW, 0x400, 8, 1, 60, 3, 0, 1, true, .ro, (.val 0), .schedLoad⟩
def DRW_VIOL0_DRAWER : Fld := ⟨30, .DRW, 0x400, 8, 1, 50, 6, 0, 1, true, .ro, (.val 0), .schedLoad⟩
def DRW_VIOL0_STREAM : Fld := ⟨31, .DRW, 0x400, 8, 1, 44, 4, 0, 1, true, .ro, (.val 0), .schedLoad⟩
def DRW_VIOL0_POSITION : Fld := ⟨32, .DRW, 0x400, 8, 1, 0, 32, 0, 1, true, .ro, (.val 0), .schedLoad⟩

-- DRW_VIOL1 (02_core_and_shelf_store R76)
def DRW_VIOL1_TICK : Fld := ⟨33, .DRW, 0x408, 8, 1, 0, 64, 0, 1, true, .ro, (.val 0), .schedLoad⟩

-- DRW_VIOL2 (02_core_and_shelf_store R76)
def DRW_VIOL2_TIME : Fld := ⟨34, .DRW, 0x410, 8, 1, 0, 64, 0, 1, true, .ro, (.val 0), .schedLoad⟩

-- DRW_SHELF_CE (02_core_and_shelf_store R76)
def DRW_SHELF_CE_OVF : Fld := ⟨35, .DRW, 0x500, 8, 1, 63, 1, 0, 1, true, .ro, (.val 0), .handover⟩
def DRW_SHELF_CE_COUNT : Fld := ⟨36, .DRW, 0x500, 8, 1, 0, 48, 0, 1, true, .ro, (.val 0), .handover⟩

-- DRW_SHELF_UE (02_core_and_shelf_store R76)
def DRW_SHELF_UE_OVF : Fld := ⟨37, .DRW, 0x508, 8, 1, 63, 1, 0, 1, true, .ro, (.val 0), .handover⟩
def DRW_SHELF_UE_COUNT : Fld := ⟨38, .DRW, 0x508, 8, 1, 0, 48, 0, 1, true, .ro, (.val 0), .handover⟩

-- DRW_SHELF_ERR0 (02_core_and_shelf_store R76)
def DRW_SHELF_ERR0_VALID : Fld := ⟨39, .DRW, 0x510, 8, 1, 63, 1, 0, 1, true, .ro, (.val 0), .handover⟩
def DRW_SHELF_ERR0_UNCORR : Fld := ⟨40, .DRW, 0x510, 8, 1, 62, 1, 0, 1, true, .ro, (.val 0), .handover⟩
def DRW_SHELF_ERR0_SOURCE : Fld := ⟨41, .DRW, 0x510, 8, 1, 58, 4, 0, 1, true, .ro, (.val 0), .handover⟩
def DRW_SHELF_ERR0_BANK : Fld := ⟨42, .DRW, 0x510, 8, 1, 53, 5, 0, 1, true, .ro, (.val 0), .handover⟩
def DRW_SHELF_ERR0_BANK_ROW : Fld := ⟨43, .DRW, 0x510, 8, 1, 43, 10, 0, 1, true, .ro, (.val 0), .handover⟩
def DRW_SHELF_ERR0_CODEWORD : Fld := ⟨44, .DRW, 0x510, 8, 1, 39, 4, 0, 1, true, .ro, (.val 0), .handover⟩
def DRW_SHELF_ERR0_ROW : Fld := ⟨45, .DRW, 0x510, 8, 1, 0, 15, 0, 1, true, .ro, (.val 0), .handover⟩

-- DRW_SHELF_ERR1 (02_core_and_shelf_store R76)
def DRW_SHELF_ERR1_TICK : Fld := ⟨46, .DRW, 0x518, 8, 1, 0, 64, 0, 1, true, .ro, (.val 0), .handover⟩

-- DRW_SHELF_ERR2 (02_core_and_shelf_store R76)
def DRW_SHELF_ERR2_TIME : Fld := ⟨47, .DRW, 0x520, 8, 1, 0, 64, 0, 1, true, .ro, (.val 0), .handover⟩

-- DRW_SPARE_LO (02_core_and_shelf_store R76)
def DRW_SPARE_LO_USED : Fld := ⟨48, .DRW, 0x530, 8, 1, 0, 4, 4, 16, true, .ro, (.open_ 0), .powerOn⟩

-- DRW_SPARE_HI (02_core_and_shelf_store R76)
def DRW_SPARE_HI_USED : Fld := ⟨49, .DRW, 0x538, 8, 1, 0, 4, 4, 16, true, .ro, (.open_ 0), .powerOn⟩

-- DRW_REPAIR_PEND (02_core_and_shelf_store R76)
def DRW_REPAIR_PEND_PEND_ROWS : Fld := ⟨50, .DRW, 0x540, 8, 1, 32, 8, 0, 1, true, .ro, (.val 0), .handover⟩
def DRW_REPAIR_PEND_BANK_MASK : Fld := ⟨51, .DRW, 0x540, 8, 1, 0, 32, 0, 1, true, .ro, (.val 0), .handover⟩

-- DRW_PATROL (02_core_and_shelf_store R76)
def DRW_PATROL_PASSES : Fld := ⟨52, .DRW, 0x548, 8, 1, 24, 16, 0, 1, true, .ro, (.val 0), .handover⟩
def DRW_PATROL_LAST_PASS_KTICK : Fld := ⟨53, .DRW, 0x548, 8, 1, 0, 24, 0, 1, true, .ro, (.val 0), .handover⟩

-- DRW_SHELF_CFG (02_core_and_shelf_store R76)
def DRW_SHELF_CFG_PWR : Fld := ⟨54, .DRW, 0x550, 8, 1, 4, 2, 0, 1, true, .ro, (.val 0), .powerOn⟩
def DRW_SHELF_CFG_CE_LIMIT : Fld := ⟨55, .DRW, 0x550, 8, 1, 0, 4, 0, 1, true, .rw, (.val 2), .powerOn⟩

-- DRW_TRAY (02_core_and_shelf_store R76)
def DRW_TRAY_POISON : Fld := ⟨56, .DRW, 0x580, 8, 1, 16, 4, 0, 1, false, .ro, (.val 0), .handover⟩
def DRW_TRAY_PAIR : Fld := ⟨57, .DRW, 0x580, 8, 1, 12, 4, 0, 1, false, .ro, (.val 0), .handover⟩
def DRW_TRAY_READY : Fld := ⟨58, .DRW, 0x580, 8, 1, 8, 4, 0, 1, false, .ro, (.val 0), .handover⟩
def DRW_TRAY_TAIL : Fld := ⟨59, .DRW, 0x580, 8, 1, 6, 2, 0, 1, false, .ro, (.val 0), .handover⟩
def DRW_TRAY_HEAD : Fld := ⟨60, .DRW, 0x580, 8, 1, 4, 2, 0, 1, false, .ro, (.val 0), .handover⟩
def DRW_TRAY_FILL : Fld := ⟨61, .DRW, 0x580, 8, 1, 0, 3, 0, 1, false, .ro, (.val 0), .handover⟩

-- SCH_PCTL (03_schedule_contract R113)
def SCH_PCTL_WAIT_DEFAULT_US : Fld := ⟨62, .SCHP, 0x8000, 8, 1, 0, 20, 0, 1, false, .rw, (.val 100000), .handover⟩

-- SCH_PSTAT (03_schedule_contract R113)
def SCH_PSTAT_LOADED : Fld := ⟨63, .SCHP, 0x8008, 8, 1, 8, 4, 0, 1, false, .ro, (.val 0), .handover⟩
def SCH_PSTAT_ARMED_V : Fld := ⟨64, .SCHP, 0x8008, 8, 1, 7, 1, 0, 1, false, .ro, (.val 0), .handover⟩
def SCH_PSTAT_ARMED : Fld := ⟨65, .SCHP, 0x8008, 8, 1, 5, 2, 0, 1, false, .ro, (.val 0), .handover⟩
def SCH_PSTAT_OVERLAP : Fld := ⟨66, .SCHP, 0x8008, 8, 1, 4, 1, 0, 1, false, .ro, (.val 0), .handover⟩
def SCH_PSTAT_RUN_V : Fld := ⟨67, .SCHP, 0x8008, 8, 1, 3, 1, 0, 1, false, .ro, (.val 0), .handover⟩
def SCH_PSTAT_RUNNING : Fld := ⟨68, .SCHP, 0x8008, 8, 1, 1, 2, 0, 1, false, .ro, (.val 0), .handover⟩

-- SCH_SLOT_k (03_schedule_contract R113)
def SCH_SLOT_CHECK : Fld := ⟨69, .SCHP, 0x8010, 8, 4, 32, 32, 0, 1, true, .ro, (.val 0), .handover⟩
def SCH_SLOT_WORDS : Fld := ⟨70, .SCHP, 0x8010, 8, 4, 0, 17, 0, 1, true, .ro, (.val 0), .handover⟩

-- SCH_TICK (03_schedule_contract R113)
def SCH_TICK_TICK : Fld := ⟨71, .SCHC, 0x0, 8, 1, 0, 64, 0, 1, true, .ro, (.val 0), .handover⟩

-- SCH_HEAD_TICK (03_schedule_contract R113)
def SCH_HEAD_TICK_HEAD_TICK : Fld := ⟨72, .SCHC, 0x8, 8, 1, 0, 64, 0, 1, true, .ro, (.val 0), .handover⟩

-- SCH_RETIRED (03_schedule_contract R113)
def SCH_RETIRED_ARMED_RET : Fld := ⟨73, .SCHC, 0x10, 8, 1, 16, 12, 0, 1, false, .ro, (.val 0), .handover⟩
def SCH_RETIRED_RUN_RET : Fld := ⟨74, .SCHC, 0x10, 8, 1, 0, 12, 0, 1, false, .ro, (.val 0), .handover⟩

-- SCH_SLIP_n (03_schedule_contract R113)
def SCH_SLIP_OVF : Fld := ⟨75, .SCHC, 0x40, 8, 6, 63, 1, 0, 1, true, .ro, (.val 0), .handover⟩
def SCH_SLIP_COUNT : Fld := ⟨76, .SCHC, 0x40, 8, 6, 0, 48, 0, 1, true, .ro, (.val 0), .handover⟩

-- SCH_CSLIP_EVENTS (03_schedule_contract R113)
def SCH_CSLIP_EVENTS_OVF : Fld := ⟨77, .SCHC, 0x70, 8, 1, 63, 1, 0, 1, true, .ro, (.val 0), .handover⟩
def SCH_CSLIP_EVENTS_COUNT : Fld := ⟨78, .SCHC, 0x70, 8, 1, 0, 48, 0, 1, true, .ro, (.val 0), .handover⟩

-- SCH_CSLIP0 (03_schedule_contract R113)
def SCH_CSLIP0_VALID : Fld := ⟨79, .SCHC, 0x80, 8, 1, 63, 1, 0, 1, true, .rw1c, (.val 0), .handover⟩
def SCH_CSLIP0_KIND : Fld := ⟨80, .SCHC, 0x80, 8, 1, 61, 2, 0, 1, true, .ro, (.val 0), .handover⟩
def SCH_CSLIP0_BANK : Fld := ⟨81, .SCHC, 0x80, 8, 1, 56, 5, 0, 1, true, .ro, (.val 0), .handover⟩
def SCH_CSLIP0_STREAM : Fld := ⟨82, .SCHC, 0x80, 8, 1, 52, 4, 0, 1, true, .ro, (.val 0), .handover⟩
def SCH_CSLIP0_SLIP_CLOCKS : Fld := ⟨83, .SCHC, 0x80, 8, 1, 32, 20, 0, 1, true, .ro, (.val 0), .handover⟩
def SCH_CSLIP0_POSITION : Fld := ⟨84, .SCHC, 0x80, 8, 1, 0, 32, 0, 1, true, .ro, (.val 0), .handover⟩

-- SCH_CSLIP1 (03_schedule_contract R113)
def SCH_CSLIP1_TICK : Fld := ⟨85, .SCHC, 0x88, 8, 1, 0, 64, 0, 1, true, .ro, (.val 0), .handover⟩

-- SCH_CSLIP2 (03_schedule_contract R113)
def SCH_CSLIP2_TIME : Fld := ⟨86, .SCHC, 0x90, 8, 1, 0, 64, 0, 1, true, .ro, (.val 0), .handover⟩

-- SCH_WTO0 (03_schedule_contract R113)
def SCH_WTO0_VALID : Fld := ⟨87, .SCHC, 0xA0, 8, 1, 63, 1, 0, 1, true, .ro, (.val 0), .handover⟩
def SCH_WTO0_KIND : Fld := ⟨88, .SCHC, 0xA0, 8, 1, 61, 2, 0, 1, true, .ro, (.val 0), .handover⟩
def SCH_WTO0_CELL : Fld := ⟨89, .SCHC, 0xA0, 8, 1, 53, 8, 0, 1, true, .ro, (.val 0), .handover⟩
def SCH_WTO0_COND : Fld := ⟨90, .SCHC, 0xA0, 8, 1, 51, 2, 0, 1, true, .ro, (.val 0), .handover⟩
def SCH_WTO0_STREAM : Fld := ⟨91, .SCHC, 0xA0, 8, 1, 47, 4, 0, 1, true, .ro, (.val 0), .handover⟩
def SCH_WTO0_POSITION : Fld := ⟨92, .SCHC, 0xA0, 8, 1, 0, 32, 0, 1, true, .ro, (.val 0), .handover⟩

-- SCH_WTO1 (03_schedule_contract R113)
def SCH_WTO1_EXPECTED : Fld := ⟨93, .SCHC, 0xA8, 8, 1, 32, 32, 0, 1, true, .ro, (.val 0), .handover⟩
def SCH_WTO1_FOUND : Fld := ⟨94, .SCHC, 0xA8, 8, 1, 0, 32, 0, 1, true, .ro, (.val 0), .handover⟩

-- SCH_WTO2 (03_schedule_contract R113)
def SCH_WTO2_SIG_STREAM : Fld := ⟨95, .SCHC, 0xB0, 8, 1, 60, 4, 0, 1, true, .ro, (.val 15), .handover⟩
def SCH_WTO2_SIG_POSITION : Fld := ⟨96, .SCHC, 0xB0, 8, 1, 0, 32, 0, 1, true, .ro, (.val 0), .handover⟩

-- SCH_WTO3 (03_schedule_contract R113)
def SCH_WTO3_SIG_TICK : Fld := ⟨97, .SCHC, 0xB8, 8, 1, 0, 64, 0, 1, true, .ro, (.val 0), .handover⟩

-- SCH_WTO4 (03_schedule_contract R113)
def SCH_WTO4_TICK : Fld := ⟨98, .SCHC, 0xC0, 8, 1, 0, 64, 0, 1, true, .ro, (.val 0), .handover⟩

-- SCH_WTO5 (03_schedule_contract R113)
def SCH_WTO5_TIME : Fld := ⟨99, .SCHC, 0xC8, 8, 1, 0, 64, 0, 1, true, .ro, (.val 0), .handover⟩

-- BUD_PCFG (04_current_budget R133)
def BUD_PCFG_UNTIMED_BU : Fld := ⟨100, .BUDP, 0x0, 8, 1, 32, 16, 0, 1, true, .ro, (.val 112), .handover⟩
def BUD_PCFG_TIMED_BU : Fld := ⟨101, .BUDP, 0x0, 8, 1, 16, 16, 0, 1, true, .ro, (.val 768), .handover⟩
def BUD_PCFG_SHARE_BU : Fld := ⟨102, .BUDP, 0x0, 8, 1, 0, 16, 0, 1, true, .ro, (.val 880), .handover⟩

-- BUD_STALL_CLK (04_current_budget R133)
def BUD_STALL_CLK_OVF : Fld := ⟨103, .BUDP, 0x8, 8, 1, 63, 1, 0, 1, true, .ro, (.val 0), .handover⟩
def BUD_STALL_CLK_COUNT : Fld := ⟨104, .BUDP, 0x8, 8, 1, 0, 48, 0, 1, true, .ro, (.val 0), .handover⟩

-- BUD_STALL_EVT (04_current_budget R133)
def BUD_STALL_EVT_OVF : Fld := ⟨105, .BUDP, 0x10, 8, 1, 63, 1, 0, 1, true, .ro, (.val 0), .handover⟩
def BUD_STALL_EVT_COUNT : Fld := ⟨106, .BUDP, 0x10, 8, 1, 0, 48, 0, 1, true, .ro, (.val 0), .handover⟩

-- BUD_DROOP_CLK (04_current_budget R133)
def BUD_DROOP_CLK_OVF : Fld := ⟨107, .BUDP, 0x18, 8, 1, 63, 1, 0, 1, true, .ro, (.val 0), .handover⟩
def BUD_DROOP_CLK_COUNT : Fld := ⟨108, .BUDP, 0x18, 8, 1, 0, 48, 0, 1, true, .ro, (.val 0), .handover⟩

-- BUD_DROOP_EVT (04_current_budget R133)
def BUD_DROOP_EVT_OVF : Fld := ⟨109, .BUDP, 0x20, 8, 1, 63, 1, 0, 1, true, .ro, (.val 0), .handover⟩
def BUD_DROOP_EVT_COUNT : Fld := ⟨110, .BUDP, 0x20, 8, 1, 0, 48, 0, 1, true, .ro, (.val 0), .handover⟩

-- BUD_HOLD_CLK (04_current_budget R133)
def BUD_HOLD_CLK_OVF : Fld := ⟨111, .BUDP, 0x28, 8, 1, 63, 1, 0, 1, true, .ro, (.val 0), .handover⟩
def BUD_HOLD_CLK_COUNT : Fld := ⟨112, .BUDP, 0x28, 8, 1, 0, 48, 0, 1, true, .ro, (.val 0), .handover⟩

-- BUD_REC0 (04_current_budget R133)
def BUD_REC0_VALID : Fld := ⟨113, .BUDP, 0x30, 8, 1, 63, 1, 0, 1, true, .rw1c, (.val 0), .handover⟩
def BUD_REC0_STRETCHED : Fld := ⟨114, .BUDP, 0x30, 8, 1, 62, 1, 0, 1, true, .ro, (.val 0), .handover⟩
def BUD_REC0_CORE : Fld := ⟨115, .BUDP, 0x30, 8, 1, 59, 3, 0, 1, true, .ro, (.val 0), .handover⟩
def BUD_REC0_CHARGE : Fld := ⟨116, .BUDP, 0x30, 8, 1, 32, 16, 0, 1, true, .ro, (.val 0), .handover⟩

-- BUD_REC1 (04_current_budget R133)
def BUD_REC1_TICK : Fld := ⟨117, .BUDP, 0x38, 8, 1, 0, 64, 0, 1, true, .ro, (.val 0), .handover⟩

-- BUD_REC2 (04_current_budget R133)
def BUD_REC2_TIME : Fld := ⟨118, .BUDP, 0x40, 8, 1, 0, 64, 0, 1, true, .ro, (.val 0), .handover⟩

-- BUD_UWIN (04_current_budget R133)
def BUD_UWIN_PEAK : Fld := ⟨119, .BUDP, 0x48, 8, 1, 16, 16, 0, 1, true, .ro, (.val 0), .handover⟩
def BUD_UWIN_CHARGE : Fld := ⟨120, .BUDP, 0x48, 8, 1, 0, 16, 0, 1, true, .ro, (.val 0), .handover⟩

-- BUD_CWIN (04_current_budget R133)
def BUD_CWIN_PEAK : Fld := ⟨121, .BUDC, 0x0, 8, 1, 16, 16, 0, 1, true, .ro, (.val 0), .handover⟩
def BUD_CWIN_CHARGE : Fld := ⟨122, .BUDC, 0x0, 8, 1, 0, 16, 0, 1, true, .ro, (.val 0), .handover⟩

-- BUD_COVER (04_current_budget R133)
def BUD_COVER_OVF : Fld := ⟨123, .BUDC, 0x8, 8, 1, 63, 1, 0, 1, true, .ro, (.val 0), .handover⟩
def BUD_COVER_COUNT : Fld := ⟨124, .BUDC, 0x8, 8, 1, 0, 48, 0, 1, true, .ro, (.val 0), .handover⟩

-- BUD_DCFG (04_current_budget R133)
def BUD_DCFG_HOLD_CLOCKS : Fld := ⟨125, .BUDD, 0x0, 8, 1, 12, 12, 0, 1, false, .rw, (.val 256), .powerOn⟩
def BUD_DCFG_DROOP_MV : Fld := ⟨126, .BUDD, 0x0, 8, 1, 0, 10, 0, 1, false, .rw, (.val 680), .powerOn⟩

-- BUD_DSTAT (04_current_budget R133)
def BUD_DSTAT_DROOP_ACTIVE : Fld := ⟨127, .BUDD, 0x8, 8, 1, 17, 1, 0, 1, false, .ro, (.val 0), .powerOn⟩
def BUD_DSTAT_RSV_CHARGE : Fld := ⟨128, .BUDD, 0x8, 8, 1, 0, 16, 0, 1, false, .ro, (.val 0), .powerOn⟩

-- BUD_DDROOP_EVT (04_current_budget R133)
def BUD_DDROOP_EVT_OVF : Fld := ⟨129, .BUDD, 0x10, 8, 1, 63, 1, 0, 1, true, .ro, (.val 0), .powerOn⟩
def BUD_DDROOP_EVT_COUNT : Fld := ⟨130, .BUDD, 0x10, 8, 1, 0, 48, 0, 1, true, .ro, (.val 0), .powerOn⟩

-- SYN_VAL_n (05_sync_cells_and_stiles R154)
def SYN_VAL_VALUE : Fld := ⟨131, .SYN, 0x0, 4, 256, 0, 32, 0, 1, false, .ro, (.val 0), .handover⟩

-- SYN_LSIG_n (05_sync_cells_and_stiles R154)
def SYN_LSIG_STREAM : Fld := ⟨132, .SYN, 0x400, 8, 256, 60, 4, 0, 1, true, .ro, (.val 15), .handover⟩
def SYN_LSIG_WAITERS : Fld := ⟨133, .SYN, 0x400, 8, 256, 48, 12, 0, 1, true, .ro, (.val 0), .handover⟩
def SYN_LSIG_COMPLETION : Fld := ⟨134, .SYN, 0x400, 8, 256, 47, 1, 0, 1, true, .ro, (.val 0), .handover⟩
def SYN_LSIG_OP : Fld := ⟨135, .SYN, 0x400, 8, 256, 45, 2, 0, 1, true, .ro, (.val 0), .handover⟩
def SYN_LSIG_POSITION : Fld := ⟨136, .SYN, 0x400, 8, 256, 0, 32, 0, 1, true, .ro, (.val 0), .handover⟩

-- SYN_LTICK_n (05_sync_cells_and_stiles R154)
def SYN_LTICK_TICK : Fld := ⟨137, .SYN, 0xC00, 8, 256, 0, 64, 0, 1, true, .ro, (.val 0), .handover⟩

-- SYN_STILE_k (05_sync_cells_and_stiles R154)
def SYN_STILE_SENSE : Fld := ⟨138, .SYN, 0x1800, 8, 8, 63, 1, 0, 1, true, .ro, (.val 0), .handover⟩
def SYN_STILE_LOCAL : Fld := ⟨139, .SYN, 0x1800, 8, 8, 48, 12, 0, 1, true, .ro, (.val 0), .handover⟩
def SYN_STILE_CLAIMED : Fld := ⟨140, .SYN, 0x1800, 8, 8, 36, 12, 0, 1, true, .ro, (.val 0), .handover⟩
def SYN_STILE_ARRIVED : Fld := ⟨141, .SYN, 0x1800, 8, 8, 24, 12, 0, 1, true, .ro, (.val 0), .handover⟩
def SYN_STILE_MASK : Fld := ⟨142, .SYN, 0x1800, 8, 8, 12, 12, 0, 1, true, .ro, (.val 0), .handover⟩
def SYN_STILE_LAST_STREAM : Fld := ⟨143, .SYN, 0x1800, 8, 8, 8, 4, 0, 1, true, .ro, (.val 15), .handover⟩
def SYN_STILE_PHASES : Fld := ⟨144, .SYN, 0x1800, 8, 8, 0, 8, 0, 1, true, .ro, (.val 0), .handover⟩

-- SYN_STILE_POS_k (05_sync_cells_and_stiles R154)
def SYN_STILE_POS_LAST_POSITION : Fld := ⟨145, .SYN, 0x1840, 8, 8, 0, 32, 0, 1, true, .ro, (.val 0), .handover⟩

-- SYN_WAIT_s (05_sync_cells_and_stiles R154)
def SYN_WAIT_VALID : Fld := ⟨146, .SYN, 0x1900, 8, 12, 63, 1, 0, 1, true, .ro, (.val 0), .handover⟩
def SYN_WAIT_KIND : Fld := ⟨147, .SYN, 0x1900, 8, 12, 62, 1, 0, 1, true, .ro, (.val 0), .handover⟩
def SYN_WAIT_COND : Fld := ⟨148, .SYN, 0x1900, 8, 12, 60, 2, 0, 1, true, .ro, (.val 0), .handover⟩
def SYN_WAIT_TARGET : Fld := ⟨149, .SYN, 0x1900, 8, 12, 52, 8, 0, 1, true, .ro, (.val 0), .handover⟩
def SYN_WAIT_CLOCKS : Fld := ⟨150, .SYN, 0x1900, 8, 12, 32, 20, 0, 1, true, .ro, (.val 0), .handover⟩
def SYN_WAIT_OPERAND : Fld := ⟨151, .SYN, 0x1900, 8, 12, 0, 32, 0, 1, true, .ro, (.val 0), .handover⟩

-- SYN_ERR0 (05_sync_cells_and_stiles R154)
def SYN_ERR0_VALID : Fld := ⟨152, .SYN, 0x1A00, 8, 1, 63, 1, 0, 1, true, .ro, (.val 0), .schedLoad⟩
def SYN_ERR0_KIND : Fld := ⟨153, .SYN, 0x1A00, 8, 1, 60, 3, 0, 1, true, .ro, (.val 0), .schedLoad⟩
def SYN_ERR0_STREAM : Fld := ⟨154, .SYN, 0x1A00, 8, 1, 56, 4, 0, 1, true, .ro, (.val 0), .schedLoad⟩
def SYN_ERR0_TARGET : Fld := ⟨155, .SYN, 0x1A00, 8, 1, 48, 8, 0, 1, true, .ro, (.val 0), .schedLoad⟩
def SYN_ERR0_COMPLETION : Fld := ⟨156, .SYN, 0x1A00, 8, 1, 47, 1, 0, 1, true, .ro, (.val 0), .schedLoad⟩
def SYN_ERR0_POSITION : Fld := ⟨157, .SYN, 0x1A00, 8, 1, 0, 32, 0, 1, true, .ro, (.val 0), .schedLoad⟩

-- SYN_ERR1 (05_sync_cells_and_stiles R154)
def SYN_ERR1_TICK : Fld := ⟨158, .SYN, 0x1A08, 8, 1, 0, 64, 0, 1, true, .ro, (.val 0), .schedLoad⟩

-- SYN_ERR2 (05_sync_cells_and_stiles R154)
def SYN_ERR2_TIME : Fld := ⟨159, .SYN, 0x1A10, 8, 1, 0, 64, 0, 1, true, .ro, (.val 0), .schedLoad⟩

-- MXE_PCFG (07_matrix_engine R215)
def MXE_PCFG_CHK_T : Fld := ⟨160, .MXEP, 0x800, 8, 1, 0, 5, 0, 1, false, .rw, (.val 7), .handover⟩

-- MXE_STAT (07_matrix_engine R215)
def MXE_STAT_APP_BUF : Fld := ⟨161, .MXEC, 0x0, 8, 1, 8, 8, 0, 1, false, .ro, (.val 0), .handover⟩
def MXE_STAT_DRAINING : Fld := ⟨162, .MXEC, 0x0, 8, 1, 1, 1, 0, 1, false, .ro, (.val 0), .handover⟩
def MXE_STAT_STREAMING : Fld := ⟨163, .MXEC, 0x0, 8, 1, 0, 1, 0, 1, false, .ro, (.val 0), .handover⟩

-- MXE_COLMAP (07_matrix_engine R215)
def MXE_COLMAP_SPARE_FOR : Fld := ⟨164, .MXEC, 0x8, 8, 1, 0, 8, 0, 1, false, .ro, (.open_ 255), .powerOn⟩

-- MXE_TILES (07_matrix_engine R215)
def MXE_TILES_OVF : Fld := ⟨165, .MXEC, 0x10, 8, 1, 63, 1, 0, 1, true, .ro, (.val 0), .handover⟩
def MXE_TILES_COUNT : Fld := ⟨166, .MXEC, 0x10, 8, 1, 0, 48, 0, 1, true, .ro, (.val 0), .handover⟩

-- MXE_CHK_FAIL (07_matrix_engine R215)
def MXE_CHK_FAIL_OVF : Fld := ⟨167, .MXEC, 0x18, 8, 1, 63, 1, 0, 1, true, .ro, (.val 0), .handover⟩
def MXE_CHK_FAIL_COUNT : Fld := ⟨168, .MXEC, 0x18, 8, 1, 0, 48, 0, 1, true, .ro, (.val 0), .handover⟩

-- MXE_CHK_SKIP (07_matrix_engine R215)
def MXE_CHK_SKIP_OVF : Fld := ⟨169, .MXEC, 0x20, 8, 1, 63, 1, 0, 1, true, .ro, (.val 0), .handover⟩
def MXE_CHK_SKIP_COUNT : Fld := ⟨170, .MXEC, 0x20, 8, 1, 0, 48, 0, 1, true, .ro, (.val 0), .handover⟩

-- MXE_CHK_ERR0 (07_matrix_engine R215)
def MXE_CHK_ERR0_VALID : Fld := ⟨171, .MXEC, 0x40, 8, 1, 63, 1, 0, 1, true, .ro, (.val 0), .schedLoad⟩
def MXE_CHK_ERR0_INTEGER : Fld := ⟨172, .MXEC, 0x40, 8, 1, 62, 1, 0, 1, true, .ro, (.val 0), .schedLoad⟩
def MXE_CHK_ERR0_PAIR : Fld := ⟨173, .MXEC, 0x40, 8, 1, 61, 1, 0, 1, true, .ro, (.val 0), .schedLoad⟩
def MXE_CHK_ERR0_APPEND : Fld := ⟨174, .MXEC, 0x40, 8, 1, 60, 1, 0, 1, true, .ro, (.val 0), .schedLoad⟩
def MXE_CHK_ERR0_ROW : Fld := ⟨175, .MXEC, 0x40, 8, 1, 53, 7, 0, 1, true, .ro, (.val 0), .schedLoad⟩
def MXE_CHK_ERR0_EXCESS_LOG2 : Fld := ⟨176, .MXEC, 0x40, 8, 1, 40, 8, 0, 1, true, .ro, (.val 0), .schedLoad⟩
def MXE_CHK_ERR0_POSITION : Fld := ⟨177, .MXEC, 0x40, 8, 1, 0, 32, 0, 1, true, .ro, (.val 0), .schedLoad⟩

-- MXE_CHK_ERR1 (07_matrix_engine R215)
def MXE_CHK_ERR1_TICK : Fld := ⟨178, .MXEC, 0x48, 8, 1, 0, 64, 0, 1, true, .ro, (.val 0), .schedLoad⟩

-- MXE_CHK_ERR2 (07_matrix_engine R215)
def MXE_CHK_ERR2_TIME : Fld := ⟨179, .MXEC, 0x50, 8, 1, 0, 64, 0, 1, true, .ro, (.val 0), .schedLoad⟩

-- VEC_STAT (08_vector_engine R252)
def VEC_STAT_GROUP : Fld := ⟨180, .VEC, 0x0, 8, 1, 16, 16, 0, 1, false, .ro, (.val 0), .handover⟩
def VEC_STAT_WS_MODE : Fld := ⟨181, .VEC, 0x0, 8, 1, 8, 1, 0, 1, false, .ro, (.val 0), .handover⟩
def VEC_STAT_BUSY : Fld := ⟨182, .VEC, 0x0, 8, 1, 0, 1, 0, 1, false, .ro, (.val 0), .handover⟩

-- VEC_LANEMAP (08_vector_engine R252)
def VEC_LANEMAP_VALID : Fld := ⟨183, .VEC, 0x8, 8, 1, 15, 1, 16, 4, true, .ro, (.open_ 0), .powerOn⟩
def VEC_LANEMAP_LANE : Fld := ⟨184, .VEC, 0x8, 8, 1, 0, 7, 16, 4, true, .ro, (.open_ 0), .powerOn⟩

-- VEC_PROGS (08_vector_engine R252)
def VEC_PROGS_OVF : Fld := ⟨185, .VEC, 0x10, 8, 1, 63, 1, 0, 1, true, .ro, (.val 0), .handover⟩
def VEC_PROGS_COUNT : Fld := ⟨186, .VEC, 0x10, 8, 1, 0, 48, 0, 1, true, .ro, (.val 0), .handover⟩

-- VEC_RES_FAIL (08_vector_engine R252)
def VEC_RES_FAIL_OVF : Fld := ⟨187, .VEC, 0x18, 8, 1, 63, 1, 0, 1, true, .ro, (.val 0), .handover⟩
def VEC_RES_FAIL_COUNT : Fld := ⟨188, .VEC, 0x18, 8, 1, 0, 48, 0, 1, true, .ro, (.val 0), .handover⟩

-- VEC_ADDR_FAIL (08_vector_engine R252)
def VEC_ADDR_FAIL_OVF : Fld := ⟨189, .VEC, 0x20, 8, 1, 63, 1, 0, 1, true, .ro, (.val 0), .handover⟩
def VEC_ADDR_FAIL_COUNT : Fld := ⟨190, .VEC, 0x20, 8, 1, 0, 48, 0, 1, true, .ro, (.val 0), .handover⟩

-- VEC_ERR0 (08_vector_engine R252)
def VEC_ERR0_VALID : Fld := ⟨191, .VEC, 0x40, 8, 1, 63, 1, 0, 1, true, .ro, (.val 0), .schedLoad⟩
def VEC_ERR0_KIND : Fld := ⟨192, .VEC, 0x40, 8, 1, 61, 2, 0, 1, true, .ro, (.val 0), .schedLoad⟩
def VEC_ERR0_LANE : Fld := ⟨193, .VEC, 0x40, 8, 1, 54, 7, 0, 1, true, .ro, (.val 0), .schedLoad⟩
def VEC_ERR0_INSN : Fld := ⟨194, .VEC, 0x40, 8, 1, 48, 6, 0, 1, true, .ro, (.val 0), .schedLoad⟩
def VEC_ERR0_GROUP : Fld := ⟨195, .VEC, 0x40, 8, 1, 32, 16, 0, 1, true, .ro, (.val 0), .schedLoad⟩
def VEC_ERR0_POSITION : Fld := ⟨196, .VEC, 0x40, 8, 1, 0, 32, 0, 1, true, .ro, (.val 0), .schedLoad⟩

-- VEC_ERR1 (08_vector_engine R252)
def VEC_ERR1_ADDRESS : Fld := ⟨197, .VEC, 0x48, 8, 1, 32, 32, 0, 1, true, .ro, (.val 0), .schedLoad⟩

-- VEC_ERR2 (08_vector_engine R252)
def VEC_ERR2_TICK : Fld := ⟨198, .VEC, 0x50, 8, 1, 0, 64, 0, 1, true, .ro, (.val 0), .schedLoad⟩

-- VEC_ERR3 (08_vector_engine R252)
def VEC_ERR3_TIME : Fld := ⟨199, .VEC, 0x58, 8, 1, 0, 64, 0, 1, true, .ro, (.val 0), .schedLoad⟩

-- VEC_WSPOISON (08_vector_engine R252)
def VEC_WSPOISON_LINES : Fld := ⟨200, .VEC, 0x60, 8, 1, 0, 10, 0, 1, true, .ro, (.val 0), .handover⟩

-- ATN_STAT (10_attention_engine R312)
def ATN_STAT_CTX : Fld := ⟨201, .ATN, 0x0, 8, 1, 32, 32, 0, 1, true, .ro, (.val 0), .handover⟩
def ATN_STAT_BLOCK : Fld := ⟨202, .ATN, 0x0, 8, 1, 16, 16, 0, 1, true, .ro, (.val 0), .handover⟩
def ATN_STAT_MODE : Fld := ⟨203, .ATN, 0x0, 8, 1, 6, 2, 0, 1, true, .ro, (.val 0), .handover⟩
def ATN_STAT_BUSY : Fld := ⟨204, .ATN, 0x0, 8, 1, 0, 1, 0, 1, true, .ro, (.val 0), .handover⟩

-- ATN_LATCH (10_attention_engine R312)
def ATN_LATCH_GEN : Fld := ⟨205, .ATN, 0x8, 8, 1, 32, 32, 0, 1, true, .ro, (.val 0), .handover⟩
def ATN_LATCH_LENGTH : Fld := ⟨206, .ATN, 0x8, 8, 1, 0, 32, 0, 1, true, .ro, (.val 0), .handover⟩

-- ATN_EPOCH (10_attention_engine R312)
def ATN_EPOCH_EPOCH : Fld := ⟨207, .ATN, 0x10, 8, 1, 0, 64, 0, 1, true, .ro, (.val 0), .handover⟩

-- ATN_PASSES (10_attention_engine R312)
def ATN_PASSES_OVF : Fld := ⟨208, .ATN, 0x18, 8, 1, 63, 1, 0, 1, true, .ro, (.val 0), .handover⟩
def ATN_PASSES_COUNT : Fld := ⟨209, .ATN, 0x18, 8, 1, 0, 48, 0, 1, true, .ro, (.val 0), .handover⟩

-- ATN_BLOCKS (10_attention_engine R312)
def ATN_BLOCKS_OVF : Fld := ⟨210, .ATN, 0x20, 8, 1, 63, 1, 0, 1, true, .ro, (.val 0), .handover⟩
def ATN_BLOCKS_COUNT : Fld := ⟨211, .ATN, 0x20, 8, 1, 0, 48, 0, 1, true, .ro, (.val 0), .handover⟩

-- ATN_SKIPPED (10_attention_engine R312)
def ATN_SKIPPED_OVF : Fld := ⟨212, .ATN, 0x28, 8, 1, 63, 1, 0, 1, true, .ro, (.val 0), .handover⟩
def ATN_SKIPPED_COUNT : Fld := ⟨213, .ATN, 0x28, 8, 1, 0, 48, 0, 1, true, .ro, (.val 0), .handover⟩

-- ATN_MASKED_ROWS (10_attention_engine R312)
def ATN_MASKED_ROWS_OVF : Fld := ⟨214, .ATN, 0x30, 8, 1, 63, 1, 0, 1, true, .ro, (.val 0), .handover⟩
def ATN_MASKED_ROWS_COUNT : Fld := ⟨215, .ATN, 0x30, 8, 1, 0, 48, 0, 1, true, .ro, (.val 0), .handover⟩

-- ATN_STALE (10_attention_engine R312)
def ATN_STALE_OVF : Fld := ⟨216, .ATN, 0x38, 8, 1, 63, 1, 0, 1, true, .ro, (.val 0), .handover⟩
def ATN_STALE_COUNT : Fld := ⟨217, .ATN, 0x38, 8, 1, 0, 48, 0, 1, true, .ro, (.val 0), .handover⟩

-- ATN_FAR_PAGES (10_attention_engine R312)
def ATN_FAR_PAGES_OVF : Fld := ⟨218, .ATN, 0x40, 8, 1, 63, 1, 0, 1, true, .ro, (.val 0), .handover⟩
def ATN_FAR_PAGES_COUNT : Fld := ⟨219, .ATN, 0x40, 8, 1, 0, 48, 0, 1, true, .ro, (.val 0), .handover⟩

-- ATN_ERR0 (10_attention_engine R312)
def ATN_ERR0_VALID : Fld := ⟨220, .ATN, 0x60, 8, 1, 63, 1, 0, 1, true, .ro, (.val 0), .schedLoad⟩
def ATN_ERR0_KIND : Fld := ⟨221, .ATN, 0x60, 8, 1, 61, 2, 0, 1, true, .ro, (.val 0), .schedLoad⟩
def ATN_ERR0_OFFSET : Fld := ⟨222, .ATN, 0x60, 8, 1, 48, 8, 0, 1, true, .ro, (.val 0), .schedLoad⟩
def ATN_ERR0_POSITION : Fld := ⟨223, .ATN, 0x60, 8, 1, 0, 32, 0, 1, true, .ro, (.val 0), .schedLoad⟩

-- ATN_ERR1 (10_attention_engine R312)
def ATN_ERR1_TOKEN : Fld := ⟨224, .ATN, 0x68, 8, 1, 32, 32, 0, 1, true, .ro, (.val 0), .schedLoad⟩
def ATN_ERR1_CTX : Fld := ⟨225, .ATN, 0x68, 8, 1, 0, 32, 0, 1, true, .ro, (.val 0), .schedLoad⟩

-- ATN_ERR2 (10_attention_engine R312)
def ATN_ERR2_TICK : Fld := ⟨226, .ATN, 0x70, 8, 1, 0, 64, 0, 1, true, .ro, (.val 0), .schedLoad⟩

-- ATN_ERR3 (10_attention_engine R312)
def ATN_ERR3_TIME : Fld := ⟨227, .ATN, 0x78, 8, 1, 0, 64, 0, 1, true, .ro, (.val 0), .schedLoad⟩

-- ATN_STALE0 (10_attention_engine R312)
def ATN_STALE0_VALID : Fld := ⟨228, .ATN, 0x80, 8, 1, 63, 1, 0, 1, true, .rw1c, (.val 0), .handover⟩
def ATN_STALE0_CTX : Fld := ⟨229, .ATN, 0x80, 8, 1, 0, 32, 0, 1, true, .ro, (.val 0), .handover⟩

-- ATN_STALE1 (10_attention_engine R312)
def ATN_STALE1_STALE_HI : Fld := ⟨230, .ATN, 0x88, 8, 1, 32, 32, 0, 1, true, .ro, (.val 0), .handover⟩
def ATN_STALE1_STALE_LO : Fld := ⟨231, .ATN, 0x88, 8, 1, 0, 32, 0, 1, true, .ro, (.val 0), .handover⟩

-- CTX_CFG (11_kv_context_store R352)
def CTX_CFG_DROP_EN : Fld := ⟨232, .CTX, 0x0, 8, 1, 43, 1, 0, 1, true, .rw, (.val 0), .handover⟩
def CTX_CFG_DEMOTE_EN : Fld := ⟨233, .CTX, 0x0, 8, 1, 42, 1, 0, 1, true, .rw, (.val 0), .handover⟩
def CTX_CFG_HIGH_WM : Fld := ⟨234, .CTX, 0x0, 8, 1, 20, 20, 0, 1, true, .rw, (.val 0), .handover⟩
def CTX_CFG_LOW_WM : Fld := ⟨235, .CTX, 0x0, 8, 1, 0, 20, 0, 1, true, .rw, (.val 0), .handover⟩

-- CTX_FARCFG (11_kv_context_store R352)
def CTX_FARCFG_FAR_KV : Fld := ⟨236, .CTX, 0x8, 8, 1, 0, 24, 0, 1, true, .rw, (.val 0), .handover⟩

-- CTX_POOL (11_kv_context_store R352)
def CTX_POOL_TABLE_PAGES : Fld := ⟨237, .CTX, 0x10, 8, 1, 40, 20, 0, 1, true, .ro, (.val 0), .handover⟩
def CTX_POOL_FREE_PAGES : Fld := ⟨238, .CTX, 0x10, 8, 1, 20, 20, 0, 1, true, .ro, (.val 0), .handover⟩
def CTX_POOL_POOL_PAGES : Fld := ⟨239, .CTX, 0x10, 8, 1, 0, 20, 0, 1, true, .ro, (.val 0), .handover⟩

-- CTX_LIMBO (11_kv_context_store R352)
def CTX_LIMBO_FAR_USED : Fld := ⟨240, .CTX, 0x18, 8, 1, 24, 24, 0, 1, true, .ro, (.val 0), .handover⟩
def CTX_LIMBO_ENTRIES : Fld := ⟨241, .CTX, 0x18, 8, 1, 0, 17, 0, 1, true, .ro, (.val 0), .handover⟩

-- CTX_EPOCH (11_kv_context_store R352)
def CTX_EPOCH_EPOCH : Fld := ⟨242, .CTX, 0x20, 8, 1, 0, 64, 0, 1, true, .ro, (.val 1), .handover⟩

-- CTX_MINHELD (11_kv_context_store R352)
def CTX_MINHELD_MIN_HELD : Fld := ⟨243, .CTX, 0x28, 8, 1, 0, 64, 0, 1, true, .ro, (.val 1), .handover⟩

-- CTX_SWAPS (11_kv_context_store R352)
def CTX_SWAPS_OVF : Fld := ⟨244, .CTX, 0x30, 8, 1, 63, 1, 0, 1, true, .ro, (.val 0), .handover⟩
def CTX_SWAPS_COUNT : Fld := ⟨245, .CTX, 0x30, 8, 1, 0, 48, 0, 1, true, .ro, (.val 0), .handover⟩

-- CTX_APP_ROWS (11_kv_context_store R352)
def CTX_APP_ROWS_OVF : Fld := ⟨246, .CTX, 0x38, 8, 1, 63, 1, 0, 1, true, .ro, (.val 0), .handover⟩
def CTX_APP_ROWS_COUNT : Fld := ⟨247, .CTX, 0x38, 8, 1, 0, 48, 0, 1, true, .ro, (.val 0), .handover⟩

-- CTX_APP_DEFER (11_kv_context_store R352)
def CTX_APP_DEFER_OVF : Fld := ⟨248, .CTX, 0x40, 8, 1, 63, 1, 0, 1, true, .ro, (.val 0), .handover⟩
def CTX_APP_DEFER_COUNT : Fld := ⟨249, .CTX, 0x40, 8, 1, 0, 48, 0, 1, true, .ro, (.val 0), .handover⟩

-- CTX_APP_DISCARD (11_kv_context_store R352)
def CTX_APP_DISCARD_OVF : Fld := ⟨250, .CTX, 0x48, 8, 1, 63, 1, 0, 1, true, .ro, (.val 0), .handover⟩
def CTX_APP_DISCARD_COUNT : Fld := ⟨251, .CTX, 0x48, 8, 1, 0, 48, 0, 1, true, .ro, (.val 0), .handover⟩

-- CTX_DEMOTED (11_kv_context_store R352)
def CTX_DEMOTED_OVF : Fld := ⟨252, .CTX, 0x50, 8, 1, 63, 1, 0, 1, true, .ro, (.val 0), .handover⟩
def CTX_DEMOTED_COUNT : Fld := ⟨253, .CTX, 0x50, 8, 1, 0, 48, 0, 1, true, .ro, (.val 0), .handover⟩

-- CTX_DROPPED (11_kv_context_store R352)
def CTX_DROPPED_OVF : Fld := ⟨254, .CTX, 0x58, 8, 1, 63, 1, 0, 1, true, .ro, (.val 0), .handover⟩
def CTX_DROPPED_COUNT : Fld := ⟨255, .CTX, 0x58, 8, 1, 0, 48, 0, 1, true, .ro, (.val 0), .handover⟩

-- CTX_DMISS (11_kv_context_store R352)
def CTX_DMISS_OVF : Fld := ⟨256, .CTX, 0x60, 8, 1, 63, 1, 0, 1, true, .ro, (.val 0), .handover⟩
def CTX_DMISS_COUNT : Fld := ⟨257, .CTX, 0x60, 8, 1, 0, 48, 0, 1, true, .ro, (.val 0), .handover⟩

-- CTX_SCATTERED (11_kv_context_store R352)
def CTX_SCATTERED_OVF : Fld := ⟨258, .CTX, 0x68, 8, 1, 63, 1, 0, 1, true, .ro, (.val 0), .handover⟩
def CTX_SCATTERED_COUNT : Fld := ⟨259, .CTX, 0x68, 8, 1, 0, 48, 0, 1, true, .ro, (.val 0), .handover⟩

-- CTX_DEFER0 (11_kv_context_store R352)
def CTX_DEFER0_VALID : Fld := ⟨260, .CTX, 0x80, 8, 1, 63, 1, 0, 1, true, .rw1c, (.val 0), .handover⟩
def CTX_DEFER0_CTX : Fld := ⟨261, .CTX, 0x80, 8, 1, 32, 16, 0, 1, true, .ro, (.val 0), .handover⟩
def CTX_DEFER0_POS : Fld := ⟨262, .CTX, 0x80, 8, 1, 0, 32, 0, 1, true, .ro, (.val 0), .handover⟩

-- CTX_DEFER1 (11_kv_context_store R352)
def CTX_DEFER1_TIME : Fld := ⟨263, .CTX, 0x88, 8, 1, 0, 64, 0, 1, true, .ro, (.val 0), .handover⟩

-- TBL_VALID_k (12_table_engine R379)
def TBL_VALID_VALID : Fld := ⟨264, .TBLP, 0x0, 8, 4, 0, 64, 0, 1, true, .ro, (.val 0), .handover⟩

-- TBL_LOOKUPS (12_table_engine R379)
def TBL_LOOKUPS_OVF : Fld := ⟨265, .TBLP, 0x20, 8, 1, 63, 1, 0, 1, true, .ro, (.val 0), .handover⟩
def TBL_LOOKUPS_COUNT : Fld := ⟨266, .TBLP, 0x20, 8, 1, 0, 48, 0, 1, true, .ro, (.val 0), .handover⟩

-- TBL_ROWS (12_table_engine R379)
def TBL_ROWS_OVF : Fld := ⟨267, .TBLP, 0x28, 8, 1, 63, 1, 0, 1, true, .ro, (.val 0), .handover⟩
def TBL_ROWS_COUNT : Fld := ⟨268, .TBLP, 0x28, 8, 1, 0, 48, 0, 1, true, .ro, (.val 0), .handover⟩

-- TBL_FAR_ROWS (12_table_engine R379)
def TBL_FAR_ROWS_OVF : Fld := ⟨269, .TBLP, 0x30, 8, 1, 63, 1, 0, 1, true, .ro, (.val 0), .handover⟩
def TBL_FAR_ROWS_COUNT : Fld := ⟨270, .TBLP, 0x30, 8, 1, 0, 48, 0, 1, true, .ro, (.val 0), .handover⟩

-- TBL_CHANGED (12_table_engine R379)
def TBL_CHANGED_OVF : Fld := ⟨271, .TBLP, 0x38, 8, 1, 63, 1, 0, 1, true, .ro, (.val 0), .handover⟩
def TBL_CHANGED_COUNT : Fld := ⟨272, .TBLP, 0x38, 8, 1, 0, 48, 0, 1, true, .ro, (.val 0), .handover⟩

-- TBL_ID_RANGE (12_table_engine R379)
def TBL_ID_RANGE_OVF : Fld := ⟨273, .TBLP, 0x40, 8, 1, 63, 1, 0, 1, true, .ro, (.val 0), .handover⟩
def TBL_ID_RANGE_COUNT : Fld := ⟨274, .TBLP, 0x40, 8, 1, 0, 48, 0, 1, true, .ro, (.val 0), .handover⟩

-- TBL_REC0 (12_table_engine R379)
def TBL_REC0_VALID : Fld := ⟨275, .TBLP, 0x60, 8, 1, 63, 1, 0, 1, true, .rw1c, (.val 0), .handover⟩
def TBL_REC0_KIND : Fld := ⟨276, .TBLP, 0x60, 8, 1, 62, 1, 0, 1, true, .ro, (.val 0), .handover⟩
def TBL_REC0_CORE : Fld := ⟨277, .TBLP, 0x60, 8, 1, 59, 3, 0, 1, true, .ro, (.val 0), .handover⟩
def TBL_REC0_SLOT : Fld := ⟨278, .TBLP, 0x60, 8, 1, 48, 8, 0, 1, true, .ro, (.val 0), .handover⟩
def TBL_REC0_GEN : Fld := ⟨279, .TBLP, 0x60, 8, 1, 40, 8, 0, 1, true, .ro, (.val 0), .handover⟩
def TBL_REC0_POSITION : Fld := ⟨280, .TBLP, 0x60, 8, 1, 0, 32, 0, 1, true, .ro, (.val 0), .handover⟩

-- TBL_REC1 (12_table_engine R379)
def TBL_REC1_TIME : Fld := ⟨281, .TBLP, 0x68, 8, 1, 0, 64, 0, 1, true, .ro, (.val 0), .handover⟩

-- TBL_CSTAT (12_table_engine R379)
def TBL_CSTAT_OUTSTANDING : Fld := ⟨282, .TBLC, 0x0, 8, 1, 0, 4, 0, 1, false, .ro, (.val 0), .handover⟩

-- TBL_ERR0 (12_table_engine R379)
def TBL_ERR0_VALID : Fld := ⟨283, .TBLC, 0x8, 8, 1, 63, 1, 0, 1, true, .ro, (.val 0), .schedLoad⟩
def TBL_ERR0_KIND : Fld := ⟨284, .TBLC, 0x8, 8, 1, 62, 1, 0, 1, true, .ro, (.val 0), .schedLoad⟩
def TBL_ERR0_SLOT : Fld := ⟨285, .TBLC, 0x8, 8, 1, 48, 8, 0, 1, true, .ro, (.val 0), .schedLoad⟩
def TBL_ERR0_BAG : Fld := ⟨286, .TBLC, 0x8, 8, 1, 40, 8, 0, 1, true, .ro, (.val 0), .schedLoad⟩
def TBL_ERR0_POSITION : Fld := ⟨287, .TBLC, 0x8, 8, 1, 0, 32, 0, 1, true, .ro, (.val 0), .schedLoad⟩

-- TBL_ERR1 (12_table_engine R379)
def TBL_ERR1_TICK : Fld := ⟨288, .TBLC, 0x10, 8, 1, 0, 64, 0, 1, true, .ro, (.val 0), .schedLoad⟩

-- TBL_ERR2 (12_table_engine R379)
def TBL_ERR2_TIME : Fld := ⟨289, .TBLC, 0x18, 8, 1, 0, 64, 0, 1, true, .ro, (.val 0), .schedLoad⟩

-- HBM_GSTAT (13_hbm_and_address_map R407)
def HBM_GSTAT_DORMANT : Fld := ⟨290, .HBMG, 0x0, 8, 1, 48, 16, 0, 1, true, .ro, (.val 0), .handover⟩
def HBM_GSTAT_TXN_PEAK : Fld := ⟨291, .HBMG, 0x0, 8, 1, 32, 12, 0, 1, true, .ro, (.val 0), .handover⟩
def HBM_GSTAT_PWR : Fld := ⟨292, .HBMG, 0x0, 8, 1, 16, 2, 0, 1, true, .ro, (.val 0), .handover⟩
def HBM_GSTAT_TXN : Fld := ⟨293, .HBMG, 0x0, 8, 1, 0, 12, 0, 1, true, .ro, (.val 0), .handover⟩

-- HBM_RD_LINES (13_hbm_and_address_map R407)
def HBM_RD_LINES_OVF : Fld := ⟨294, .HBMG, 0x8, 8, 1, 63, 1, 0, 1, true, .ro, (.val 0), .handover⟩
def HBM_RD_LINES_COUNT : Fld := ⟨295, .HBMG, 0x8, 8, 1, 0, 48, 0, 1, true, .ro, (.val 0), .handover⟩

-- HBM_WR_LINES (13_hbm_and_address_map R407)
def HBM_WR_LINES_OVF : Fld := ⟨296, .HBMG, 0x10, 8, 1, 63, 1, 0, 1, true, .ro, (.val 0), .handover⟩
def HBM_WR_LINES_COUNT : Fld := ⟨297, .HBMG, 0x10, 8, 1, 0, 48, 0, 1, true, .ro, (.val 0), .handover⟩

-- HBM_TXN_FULL_CLK (13_hbm_and_address_map R407)
def HBM_TXN_FULL_CLK_OVF : Fld := ⟨298, .HBMG, 0x18, 8, 1, 63, 1, 0, 1, true, .ro, (.val 0), .handover⟩
def HBM_TXN_FULL_CLK_COUNT : Fld := ⟨299, .HBMG, 0x18, 8, 1, 0, 48, 0, 1, true, .ro, (.val 0), .handover⟩

-- HBM_PAR_RETRY (13_hbm_and_address_map R407)
def HBM_PAR_RETRY_OVF : Fld := ⟨300, .HBMG, 0x20, 8, 1, 63, 1, 0, 1, true, .ro, (.val 0), .handover⟩
def HBM_PAR_RETRY_COUNT : Fld := ⟨301, .HBMG, 0x20, 8, 1, 0, 48, 0, 1, true, .ro, (.val 0), .handover⟩

-- HBM_PAR_FAIL (13_hbm_and_address_map R407)
def HBM_PAR_FAIL_OVF : Fld := ⟨302, .HBMG, 0x28, 8, 1, 63, 1, 0, 1, true, .ro, (.val 0), .handover⟩
def HBM_PAR_FAIL_COUNT : Fld := ⟨303, .HBMG, 0x28, 8, 1, 0, 48, 0, 1, true, .ro, (.val 0), .handover⟩

-- HBM_DORMANT (13_hbm_and_address_map R407)
def HBM_DORMANT_OVF : Fld := ⟨304, .HBMG, 0x30, 8, 1, 63, 1, 0, 1, true, .ro, (.val 0), .handover⟩
def HBM_DORMANT_COUNT : Fld := ⟨305, .HBMG, 0x30, 8, 1, 0, 48, 0, 1, true, .ro, (.val 0), .handover⟩

-- HBM_ERR0 (13_hbm_and_address_map R407)
def HBM_ERR0_VALID : Fld := ⟨306, .HBMG, 0x40, 8, 1, 63, 1, 0, 1, true, .rw1c, (.val 0), .handover⟩
def HBM_ERR0_KIND : Fld := ⟨307, .HBMG, 0x40, 8, 1, 60, 3, 0, 1, true, .ro, (.val 0), .handover⟩
def HBM_ERR0_CHANNEL : Fld := ⟨308, .HBMG, 0x40, 8, 1, 56, 4, 0, 1, true, .ro, (.val 0), .handover⟩
def HBM_ERR0_SOURCE : Fld := ⟨309, .HBMG, 0x40, 8, 1, 52, 4, 0, 1, true, .ro, (.val 0), .handover⟩
def HBM_ERR0_CORE : Fld := ⟨310, .HBMG, 0x40, 8, 1, 49, 3, 0, 1, true, .ro, (.val 0), .handover⟩

-- HBM_ERR1 (13_hbm_and_address_map R407)
def HBM_ERR1_DPA : Fld := ⟨311, .HBMG, 0x48, 8, 1, 0, 64, 0, 1, true, .ro, (.val 0), .handover⟩

-- HBM_ERR2 (13_hbm_and_address_map R407)
def HBM_ERR2_TIME : Fld := ⟨312, .HBMG, 0x50, 8, 1, 0, 64, 0, 1, true, .ro, (.val 0), .handover⟩

-- HBM_CH_STAT (13_hbm_and_address_map R407)
def HBM_CH_STAT_REFRESH_X2 : Fld := ⟨313, .HBMC, 0x0, 8, 1, 9, 1, 0, 1, false, .ro, (.val 0), .powerOn⟩
def HBM_CH_STAT_TRAINED : Fld := ⟨314, .HBMC, 0x0, 8, 1, 8, 1, 0, 1, false, .ro, (.val 0), .powerOn⟩
def HBM_CH_STAT_PWR : Fld := ⟨315, .HBMC, 0x0, 8, 1, 0, 2, 0, 1, false, .ro, (.val 3), .powerOn⟩

-- HBM_CH_RETRY (13_hbm_and_address_map R407)
def HBM_CH_RETRY_OVF : Fld := ⟨316, .HBMC, 0x8, 8, 1, 63, 1, 0, 1, true, .ro, (.val 0), .powerOn⟩
def HBM_CH_RETRY_COUNT : Fld := ⟨317, .HBMC, 0x8, 8, 1, 0, 48, 0, 1, true, .ro, (.val 0), .powerOn⟩

-- HBM_CH_FAIL (13_hbm_and_address_map R407)
def HBM_CH_FAIL_OVF : Fld := ⟨318, .HBMC, 0x10, 8, 1, 63, 1, 0, 1, true, .ro, (.val 0), .powerOn⟩
def HBM_CH_FAIL_COUNT : Fld := ⟨319, .HBMC, 0x10, 8, 1, 0, 48, 0, 1, true, .ro, (.val 0), .powerOn⟩

-- HBM_CH_CAL (13_hbm_and_address_map R407)
def HBM_CH_CAL_LAST : Fld := ⟨320, .HBMC, 0x18, 8, 1, 0, 64, 0, 1, true, .ro, (.val 0), .powerOn⟩

-- HBM_DCFG (13_hbm_and_address_map R407)
def HBM_DCFG_CAL_PERIOD_MS : Fld := ⟨321, .HBMD, 0x0, 8, 1, 0, 9, 0, 1, false, .rw, (.val 32), .powerOn⟩

-- HBM_TEMP (13_hbm_and_address_map R407)
def HBM_TEMP_TEMP : Fld := ⟨322, .HBMD, 0x8, 8, 1, 0, 8, 8, 8, true, .ro, (.val 0), .powerOn⟩

-- HBM_TEMP_MAX (13_hbm_and_address_map R407)
def HBM_TEMP_MAX_TEMP : Fld := ⟨323, .HBMD, 0x10, 8, 1, 0, 8, 8, 8, true, .ro, (.val 0), .powerOn⟩

-- MOW_CFG (14_stored_data_integrity R434)
def MOW_CFG_PATCH_CE : Fld := ⟨324, .MOWG, 0x0, 8, 1, 32, 4, 0, 1, true, .rw, (.val 4), .powerOn⟩
def MOW_CFG_SCRUB_INTERVAL : Fld := ⟨325, .MOWG, 0x0, 8, 1, 0, 32, 0, 1, true, .rw, (.val 214577), .powerOn⟩

-- MOW_STAT (14_stored_data_integrity R434)
def MOW_STAT_ACTIVITY : Fld := ⟨326, .MOWG, 0x8, 8, 1, 61, 3, 0, 1, true, .ro, (.val 3), .powerOn⟩
def MOW_STAT_ACTIVE_SLOT : Fld := ⟨327, .MOWG, 0x8, 8, 1, 60, 1, 0, 1, true, .ro, (.val 0), .powerOn⟩
def MOW_STAT_ROTATING : Fld := ⟨328, .MOWG, 0x8, 8, 1, 59, 1, 0, 1, true, .ro, (.val 0), .powerOn⟩
def MOW_STAT_SCRUB_LINE : Fld := ⟨329, .MOWG, 0x8, 8, 1, 26, 22, 0, 1, true, .ro, (.val 0), .powerOn⟩
def MOW_STAT_P : Fld := ⟨330, .MOWG, 0x8, 8, 1, 0, 26, 0, 1, true, .ro, (.val 0), .powerOn⟩

-- MOW_KEYID (14_stored_data_integrity R434)
def MOW_KEYID_KEYID1 : Fld := ⟨331, .MOWG, 0x10, 8, 1, 32, 32, 0, 1, true, .ro, (.val 0), .powerOn⟩
def MOW_KEYID_KEYID0 : Fld := ⟨332, .MOWG, 0x10, 8, 1, 0, 32, 0, 1, true, .ro, (.val 0), .powerOn⟩

-- MOW_PASS (14_stored_data_integrity R434)
def MOW_PASS_PASSES : Fld := ⟨333, .MOWG, 0x18, 8, 1, 32, 32, 0, 1, true, .ro, (.val 0), .handover⟩
def MOW_PASS_LAST_PASS_MS : Fld := ⟨334, .MOWG, 0x18, 8, 1, 0, 32, 0, 1, true, .ro, (.val 0), .handover⟩

-- MOW_CE_USE (14_stored_data_integrity R434)
def MOW_CE_USE_OVF : Fld := ⟨335, .MOWG, 0x20, 8, 1, 63, 1, 0, 1, true, .ro, (.val 0), .handover⟩
def MOW_CE_USE_COUNT : Fld := ⟨336, .MOWG, 0x20, 8, 1, 0, 48, 0, 1, true, .ro, (.val 0), .handover⟩

-- MOW_CE_SCRUB (14_stored_data_integrity R434)
def MOW_CE_SCRUB_OVF : Fld := ⟨337, .MOWG, 0x28, 8, 1, 63, 1, 0, 1, true, .ro, (.val 0), .handover⟩
def MOW_CE_SCRUB_COUNT : Fld := ⟨338, .MOWG, 0x28, 8, 1, 0, 48, 0, 1, true, .ro, (.val 0), .handover⟩

-- MOW_UE (14_stored_data_integrity R434)
def MOW_UE_OVF : Fld := ⟨339, .MOWG, 0x30, 8, 1, 63, 1, 0, 1, true, .ro, (.val 0), .handover⟩
def MOW_UE_COUNT : Fld := ⟨340, .MOWG, 0x30, 8, 1, 0, 48, 0, 1, true, .ro, (.val 0), .handover⟩

-- MOW_POISON_READ (14_stored_data_integrity R434)
def MOW_POISON_READ_OVF : Fld := ⟨341, .MOWG, 0x38, 8, 1, 63, 1, 0, 1, true, .ro, (.val 0), .handover⟩
def MOW_POISON_READ_COUNT : Fld := ⟨342, .MOWG, 0x38, 8, 1, 0, 48, 0, 1, true, .ro, (.val 0), .handover⟩

-- MOW_PATCHED (14_stored_data_integrity R434)
def MOW_PATCHED_OVF : Fld := ⟨343, .MOWG, 0x40, 8, 1, 63, 1, 0, 1, true, .ro, (.val 0), .handover⟩
def MOW_PATCHED_COUNT : Fld := ⟨344, .MOWG, 0x40, 8, 1, 0, 48, 0, 1, true, .ro, (.val 0), .handover⟩

-- MOW_LINES (14_stored_data_integrity R434)
def MOW_LINES_OVF : Fld := ⟨345, .MOWG, 0x48, 8, 1, 63, 1, 0, 1, true, .ro, (.val 0), .handover⟩
def MOW_LINES_COUNT : Fld := ⟨346, .MOWG, 0x48, 8, 1, 0, 48, 0, 1, true, .ro, (.val 0), .handover⟩

-- MOW_ROTATIONS (14_stored_data_integrity R434)
def MOW_ROTATIONS_OVF : Fld := ⟨347, .MOWG, 0x50, 8, 1, 63, 1, 0, 1, true, .ro, (.val 0), .handover⟩
def MOW_ROTATIONS_COUNT : Fld := ⟨348, .MOWG, 0x50, 8, 1, 0, 48, 0, 1, true, .ro, (.val 0), .handover⟩

-- MOW_ERR0 (14_stored_data_integrity R434)
def MOW_ERR0_VALID : Fld := ⟨349, .MOWG, 0x60, 8, 1, 63, 1, 0, 1, true, .rw1c, (.val 0), .handover⟩
def MOW_ERR0_KIND : Fld := ⟨350, .MOWG, 0x60, 8, 1, 60, 3, 0, 1, true, .ro, (.val 0), .handover⟩
def MOW_ERR0_CHANNEL : Fld := ⟨351, .MOWG, 0x60, 8, 1, 56, 4, 0, 1, true, .ro, (.val 0), .handover⟩
def MOW_ERR0_SOURCE : Fld := ⟨352, .MOWG, 0x60, 8, 1, 52, 4, 0, 1, true, .ro, (.val 0), .handover⟩
def MOW_ERR0_CORE : Fld := ⟨353, .MOWG, 0x60, 8, 1, 49, 3, 0, 1, true, .ro, (.val 0), .handover⟩
def MOW_ERR0_SYNDROME : Fld := ⟨354, .MOWG, 0x60, 8, 1, 0, 32, 0, 1, true, .ro, (.val 0), .handover⟩

-- MOW_ERR1 (14_stored_data_integrity R434)
def MOW_ERR1_DPA : Fld := ⟨355, .MOWG, 0x68, 8, 1, 0, 64, 0, 1, true, .ro, (.val 0), .handover⟩

-- MOW_ERR2 (14_stored_data_integrity R434)
def MOW_ERR2_TIME : Fld := ⟨356, .MOWG, 0x70, 8, 1, 0, 64, 0, 1, true, .ro, (.val 0), .handover⟩

-- MOW_PATCH_n_k (14_stored_data_integrity R434)
def MOW_PATCH_VALID : Fld := ⟨357, .MOWD, 0x100, 8, 4096, 63, 1, 0, 1, true, .ro, (.open_ 0), .powerOn⟩
def MOW_PATCH_SPARE_FAILED : Fld := ⟨358, .MOWD, 0x100, 8, 4096, 62, 1, 0, 1, true, .ro, (.open_ 0), .powerOn⟩
def MOW_PATCH_CE : Fld := ⟨359, .MOWD, 0x100, 8, 4096, 54, 4, 0, 1, true, .ro, (.open_ 0), .powerOn⟩
def MOW_PATCH_LINE : Fld := ⟨360, .MOWD, 0x100, 8, 4096, 0, 22, 0, 1, true, .ro, (.open_ 0), .powerOn⟩

-- MOW_PPR (14_stored_data_integrity R434)
def MOW_PPR_APPLIED : Fld := ⟨361, .MOWD, 0x0, 8, 1, 16, 16, 0, 1, false, .ro, (.val 0), .powerOn⟩
def MOW_PPR_LISTED : Fld := ⟨362, .MOWD, 0x0, 8, 1, 0, 16, 0, 1, false, .ro, (.val 0), .powerOn⟩

-- FAR_PEXT (15_far_tier R448)
def FAR_PEXT_SIZE1 : Fld := ⟨363, .FARP, 0x0, 8, 1, 48, 14, 0, 1, true, .ro, (.val 0), .handover⟩
def FAR_PEXT_BASE1 : Fld := ⟨364, .FARP, 0x0, 8, 1, 32, 13, 0, 1, true, .ro, (.val 0), .handover⟩
def FAR_PEXT_SIZE0 : Fld := ⟨365, .FARP, 0x0, 8, 1, 16, 14, 0, 1, true, .ro, (.val 0), .handover⟩
def FAR_PEXT_BASE0 : Fld := ⟨366, .FARP, 0x0, 8, 1, 0, 13, 0, 1, true, .ro, (.val 0), .handover⟩

-- FAR_RD_LINES (15_far_tier R448)
def FAR_RD_LINES_OVF : Fld := ⟨367, .FARP, 0x8, 8, 1, 63, 1, 0, 1, true, .ro, (.val 0), .handover⟩
def FAR_RD_LINES_COUNT : Fld := ⟨368, .FARP, 0x8, 8, 1, 0, 48, 0, 1, true, .ro, (.val 0), .handover⟩

-- FAR_WR_LINES (15_far_tier R448)
def FAR_WR_LINES_OVF : Fld := ⟨369, .FARP, 0x10, 8, 1, 63, 1, 0, 1, true, .ro, (.val 0), .handover⟩
def FAR_WR_LINES_COUNT : Fld := ⟨370, .FARP, 0x10, 8, 1, 0, 48, 0, 1, true, .ro, (.val 0), .handover⟩

-- FAR_POISON (15_far_tier R448)
def FAR_POISON_OVF : Fld := ⟨371, .FARP, 0x18, 8, 1, 63, 1, 0, 1, true, .ro, (.val 0), .handover⟩
def FAR_POISON_COUNT : Fld := ⟨372, .FARP, 0x18, 8, 1, 0, 48, 0, 1, true, .ro, (.val 0), .handover⟩

-- FAR_DOWN_ERR (15_far_tier R448)
def FAR_DOWN_ERR_OVF : Fld := ⟨373, .FARP, 0x20, 8, 1, 63, 1, 0, 1, true, .ro, (.val 0), .handover⟩
def FAR_DOWN_ERR_COUNT : Fld := ⟨374, .FARP, 0x20, 8, 1, 0, 48, 0, 1, true, .ro, (.val 0), .handover⟩

-- FAR_HOLD_CLK (15_far_tier R448)
def FAR_HOLD_CLK_OVF : Fld := ⟨375, .FARP, 0x28, 8, 1, 63, 1, 0, 1, true, .ro, (.val 0), .handover⟩
def FAR_HOLD_CLK_COUNT : Fld := ⟨376, .FARP, 0x28, 8, 1, 0, 48, 0, 1, true, .ro, (.val 0), .handover⟩

-- FAR_ERR0 (15_far_tier R448)
def FAR_ERR0_VALID : Fld := ⟨377, .FARP, 0x40, 8, 1, 63, 1, 0, 1, true, .rw1c, (.val 0), .handover⟩
def FAR_ERR0_KIND : Fld := ⟨378, .FARP, 0x40, 8, 1, 61, 2, 0, 1, true, .ro, (.val 0), .handover⟩
def FAR_ERR0_PORT : Fld := ⟨379, .FARP, 0x40, 8, 1, 60, 1, 0, 1, true, .ro, (.val 0), .handover⟩
def FAR_ERR0_SOURCE : Fld := ⟨380, .FARP, 0x40, 8, 1, 56, 4, 0, 1, true, .ro, (.val 0), .handover⟩
def FAR_ERR0_CORE : Fld := ⟨381, .FARP, 0x40, 8, 1, 53, 3, 0, 1, true, .ro, (.val 0), .handover⟩

-- FAR_ERR1 (15_far_tier R448)
def FAR_ERR1_OFFSET : Fld := ⟨382, .FARP, 0x48, 8, 1, 0, 64, 0, 1, true, .ro, (.val 0), .handover⟩

-- FAR_ERR2 (15_far_tier R448)
def FAR_ERR2_TIME : Fld := ⟨383, .FARP, 0x50, 8, 1, 0, 64, 0, 1, true, .ro, (.val 0), .handover⟩

-- FAR_PSTATUS (15_far_tier R448)
def FAR_PSTATUS_STATE : Fld := ⟨384, .FARO, 0x0, 8, 1, 30, 2, 0, 1, false, .ro, (.val 0), .powerOn⟩
def FAR_PSTATUS_SPEED : Fld := ⟨385, .FARO, 0x0, 8, 1, 28, 2, 0, 1, false, .ro, (.val 0), .powerOn⟩
def FAR_PSTATUS_WIDTH : Fld := ⟨386, .FARO, 0x0, 8, 1, 26, 2, 0, 1, false, .ro, (.val 0), .powerOn⟩
def FAR_PSTATUS_STRICT : Fld := ⟨387, .FARO, 0x0, 8, 1, 25, 1, 0, 1, false, .rw, (.val 0), .powerOn⟩
def FAR_PSTATUS_CAPACITY : Fld := ⟨388, .FARO, 0x0, 8, 1, 0, 14, 0, 1, false, .ro, (.val 0), .powerOn⟩

-- FAR_SLOT_k (15_far_tier R448)
def FAR_SLOT_OWNED : Fld := ⟨389, .FARO, 0x10, 8, 8, 7, 1, 8, 8, true, .rw, (.val 1), .powerOn⟩
def FAR_SLOT_PADDOCK : Fld := ⟨390, .FARO, 0x10, 8, 8, 0, 4, 8, 8, true, .rw, .idxMod16, .powerOn⟩

-- FAR_RETRY (15_far_tier R448)
def FAR_RETRY_OVF : Fld := ⟨391, .FARO, 0x60, 8, 1, 63, 1, 0, 1, true, .ro, (.val 0), .powerOn⟩
def FAR_RETRY_COUNT : Fld := ⟨392, .FARO, 0x60, 8, 1, 0, 48, 0, 1, true, .ro, (.val 0), .powerOn⟩

-- FAR_MEDIA_EVT (15_far_tier R448)
def FAR_MEDIA_EVT_OVF : Fld := ⟨393, .FARO, 0x68, 8, 1, 63, 1, 0, 1, true, .ro, (.val 0), .powerOn⟩
def FAR_MEDIA_EVT_COUNT : Fld := ⟨394, .FARO, 0x68, 8, 1, 0, 48, 0, 1, true, .ro, (.val 0), .powerOn⟩

-- FAR_DOWN_EVT (15_far_tier R448)
def FAR_DOWN_EVT_OVF : Fld := ⟨395, .FARO, 0x70, 8, 1, 63, 1, 0, 1, true, .ro, (.val 0), .powerOn⟩
def FAR_DOWN_EVT_COUNT : Fld := ⟨396, .FARO, 0x70, 8, 1, 0, 48, 0, 1, true, .ro, (.val 0), .powerOn⟩

-- HIF_LINK (16_host_interface_and_translation R481)
def HIF_LINK_WIDTH : Fld := ⟨397, .HIFD, 0x0, 8, 1, 16, 5, 0, 1, false, .ro, (.val 0), .perst⟩
def HIF_LINK_SPEED : Fld := ⟨398, .HIFD, 0x0, 8, 1, 8, 4, 0, 1, false, .ro, (.val 0), .perst⟩
def HIF_LINK_LINK_IDE : Fld := ⟨399, .HIFD, 0x0, 8, 1, 1, 1, 0, 1, false, .ro, (.val 0), .perst⟩
def HIF_LINK_FLIT : Fld := ⟨400, .HIFD, 0x0, 8, 1, 0, 1, 0, 1, false, .ro, (.val 0), .perst⟩

-- HIF_LINK_CE (16_host_interface_and_translation R481)
def HIF_LINK_CE_OVF : Fld := ⟨401, .HIFD, 0x8, 8, 1, 63, 1, 0, 1, true, .ro, (.val 0), .powerOn⟩
def HIF_LINK_CE_COUNT : Fld := ⟨402, .HIFD, 0x8, 8, 1, 0, 48, 0, 1, true, .ro, (.val 0), .powerOn⟩

-- HIF_LINK_RETRAIN (16_host_interface_and_translation R481)
def HIF_LINK_RETRAIN_OVF : Fld := ⟨403, .HIFD, 0x10, 8, 1, 63, 1, 0, 1, true, .ro, (.val 0), .powerOn⟩
def HIF_LINK_RETRAIN_COUNT : Fld := ⟨404, .HIFD, 0x10, 8, 1, 0, 48, 0, 1, true, .ro, (.val 0), .powerOn⟩

-- HIF_FATAL (22_reliability_and_spares R673)
def HIF_FATAL_FATAL : Fld := ⟨405, .HIFD, 0x800, 8, 1, 63, 1, 0, 1, true, .ro, (.val 0), .pfReset⟩
def HIF_FATAL_ENTRIES : Fld := ⟨406, .HIFD, 0x800, 8, 1, 32, 16, 0, 1, true, .ro, (.val 0), .powerOn⟩
def HIF_FATAL_LAST_CAUSE : Fld := ⟨407, .HIFD, 0x800, 8, 1, 16, 16, 0, 1, true, .ro, (.val 0), .powerOn⟩
def HIF_FATAL_UNIT : Fld := ⟨408, .HIFD, 0x800, 8, 1, 0, 16, 0, 1, true, .ro, (.val 0), .powerOn⟩

-- HIF_FATAL_TIME (22_reliability_and_spares R673)
def HIF_FATAL_TIME_TIME : Fld := ⟨409, .HIFD, 0x808, 8, 1, 0, 64, 0, 1, true, .ro, (.val 0), .powerOn⟩

-- HIF_SPARES (22_reliability_and_spares R673)
def HIF_SPARES_RETIRED : Fld := ⟨410, .HIFD, 0x810, 8, 1, 32, 16, 0, 1, true, .ro, (.open_ 0), .powerOn⟩
def HIF_SPARES_CORES_D1 : Fld := ⟨411, .HIFD, 0x810, 8, 1, 12, 4, 0, 1, true, .ro, (.open_ 0), .powerOn⟩
def HIF_SPARES_CORES_D0 : Fld := ⟨412, .HIFD, 0x810, 8, 1, 8, 4, 0, 1, true, .ro, (.open_ 0), .powerOn⟩
def HIF_SPARES_CPS : Fld := ⟨413, .HIFD, 0x810, 8, 1, 0, 2, 0, 1, true, .ro, (.open_ 0), .powerOn⟩

-- HIF_CFG (16_host_interface_and_translation R481)
def HIF_CFG_XLATE_TIMEOUT_MS : Fld := ⟨414, .HIFP, 0x0, 8, 1, 0, 16, 0, 1, false, .rw, (.val 2000), .handover⟩

-- HIF_XSTAT (16_host_interface_and_translation R481)
def HIF_XSTAT_WINDOWS : Fld := ⟨415, .HIFP, 0x8, 8, 1, 32, 11, 0, 1, true, .ro, (.val 0), .handover⟩
def HIF_XSTAT_PINNED : Fld := ⟨416, .HIFP, 0x8, 8, 1, 16, 12, 0, 1, true, .ro, (.val 0), .handover⟩
def HIF_XSTAT_HELD : Fld := ⟨417, .HIFP, 0x8, 8, 1, 0, 13, 0, 1, true, .ro, (.val 0), .handover⟩

-- HIF_FQ (16_host_interface_and_translation R481)
def HIF_FQ_PRG_OUT : Fld := ⟨418, .HIFP, 0x10, 8, 1, 32, 16, 0, 1, true, .ro, (.val 0), .handover⟩
def HIF_FQ_PARKED : Fld := ⟨419, .HIFP, 0x10, 8, 1, 16, 16, 0, 1, true, .ro, (.val 0), .handover⟩
def HIF_FQ_FQ_USED : Fld := ⟨420, .HIFP, 0x10, 8, 1, 0, 11, 0, 1, true, .ro, (.val 0), .handover⟩

-- HIF_ATS_REQ (16_host_interface_and_translation R481)
def HIF_ATS_REQ_OVF : Fld := ⟨421, .HIFP, 0x18, 8, 1, 63, 1, 0, 1, true, .ro, (.val 0), .handover⟩
def HIF_ATS_REQ_COUNT : Fld := ⟨422, .HIFP, 0x18, 8, 1, 0, 48, 0, 1, true, .ro, (.val 0), .handover⟩

-- HIF_ATS_INVAL (16_host_interface_and_translation R481)
def HIF_ATS_INVAL_OVF : Fld := ⟨423, .HIFP, 0x20, 8, 1, 63, 1, 0, 1, true, .ro, (.val 0), .handover⟩
def HIF_ATS_INVAL_COUNT : Fld := ⟨424, .HIFP, 0x20, 8, 1, 0, 48, 0, 1, true, .ro, (.val 0), .handover⟩

-- HIF_PRG (16_host_interface_and_translation R481)
def HIF_PRG_OVF : Fld := ⟨425, .HIFP, 0x28, 8, 1, 63, 1, 0, 1, true, .ro, (.val 0), .handover⟩
def HIF_PRG_COUNT : Fld := ⟨426, .HIFP, 0x28, 8, 1, 0, 48, 0, 1, true, .ro, (.val 0), .handover⟩

-- HIF_FAULT_PARK (16_host_interface_and_translation R481)
def HIF_FAULT_PARK_OVF : Fld := ⟨427, .HIFP, 0x30, 8, 1, 63, 1, 0, 1, true, .ro, (.val 0), .handover⟩
def HIF_FAULT_PARK_COUNT : Fld := ⟨428, .HIFP, 0x30, 8, 1, 0, 48, 0, 1, true, .ro, (.val 0), .handover⟩

-- HIF_XLATE_WAIT (16_host_interface_and_translation R481)
def HIF_XLATE_WAIT_OVF : Fld := ⟨429, .HIFP, 0x38, 8, 1, 63, 1, 0, 1, true, .ro, (.val 0), .handover⟩
def HIF_XLATE_WAIT_COUNT : Fld := ⟨430, .HIFP, 0x38, 8, 1, 0, 48, 0, 1, true, .ro, (.val 0), .handover⟩

-- HIF_HOST_RD_LINES (16_host_interface_and_translation R481)
def HIF_HOST_RD_LINES_OVF : Fld := ⟨431, .HIFP, 0x40, 8, 1, 63, 1, 0, 1, true, .ro, (.val 0), .handover⟩
def HIF_HOST_RD_LINES_COUNT : Fld := ⟨432, .HIFP, 0x40, 8, 1, 0, 48, 0, 1, true, .ro, (.val 0), .handover⟩

-- HIF_HOST_WR_LINES (16_host_interface_and_translation R481)
def HIF_HOST_WR_LINES_OVF : Fld := ⟨433, .HIFP, 0x48, 8, 1, 63, 1, 0, 1, true, .ro, (.val 0), .handover⟩
def HIF_HOST_WR_LINES_COUNT : Fld := ⟨434, .HIFP, 0x48, 8, 1, 0, 48, 0, 1, true, .ro, (.val 0), .handover⟩

-- HIF_HOST_ERR (16_host_interface_and_translation R481)
def HIF_HOST_ERR_OVF : Fld := ⟨435, .HIFP, 0x50, 8, 1, 63, 1, 0, 1, true, .ro, (.val 0), .handover⟩
def HIF_HOST_ERR_COUNT : Fld := ⟨436, .HIFP, 0x50, 8, 1, 0, 48, 0, 1, true, .ro, (.val 0), .handover⟩

-- HIF_ERR0 (16_host_interface_and_translation R481)
def HIF_ERR0_VALID : Fld := ⟨437, .HIFP, 0x60, 8, 1, 63, 1, 0, 1, true, .rw1c, (.val 0), .handover⟩
def HIF_ERR0_KIND : Fld := ⟨438, .HIFP, 0x60, 8, 1, 60, 3, 0, 1, true, .ro, (.val 0), .handover⟩
def HIF_ERR0_WINDOW : Fld := ⟨439, .HIFP, 0x60, 8, 1, 50, 10, 0, 1, true, .ro, (.val 0), .handover⟩
def HIF_ERR0_STATUS : Fld := ⟨440, .HIFP, 0x60, 8, 1, 0, 16, 0, 1, true, .ro, (.val 0), .handover⟩

-- HIF_ERR1 (16_host_interface_and_translation R481)
def HIF_ERR1_IOVA : Fld := ⟨441, .HIFP, 0x68, 8, 1, 0, 64, 0, 1, true, .ro, (.val 0), .handover⟩

-- HIF_ERR2 (16_host_interface_and_translation R481)
def HIF_ERR2_TIME : Fld := ⟨442, .HIFP, 0x70, 8, 1, 0, 64, 0, 1, true, .ro, (.val 0), .handover⟩

-- HIF_WIN0_BASE (16_host_interface_and_translation R481)
def HIF_WIN0_BASE_BASE : Fld := ⟨443, .HIFP, 0x80, 8, 1, 0, 64, 0, 1, true, .rw, (.val 0), .handover⟩

-- HIF_WIN0_SIZE (16_host_interface_and_translation R481)
def HIF_WIN0_SIZE_SIZE : Fld := ⟨444, .HIFP, 0x88, 8, 1, 0, 64, 0, 1, true, .rw, (.val 0), .handover⟩

-- HIF_WIN0_CTL (16_host_interface_and_translation R481)
def HIF_WIN0_CTL_WIN0_ERR : Fld := ⟨445, .HIFP, 0x90, 8, 1, 31, 1, 0, 1, false, .rw1c, (.val 0), .handover⟩
def HIF_WIN0_CTL_WIN0_VALID : Fld := ⟨446, .HIFP, 0x90, 8, 1, 30, 1, 0, 1, false, .ro, (.val 0), .handover⟩
def HIF_WIN0_CTL_WIN0_PIN : Fld := ⟨447, .HIFP, 0x90, 8, 1, 29, 1, 0, 1, false, .ro, (.val 0), .handover⟩
def HIF_WIN0_CTL_VALID : Fld := ⟨448, .HIFP, 0x90, 8, 1, 27, 1, 0, 1, false, .rw, (.val 0), .handover⟩
def HIF_WIN0_CTL_READ : Fld := ⟨449, .HIFP, 0x90, 8, 1, 26, 1, 0, 1, false, .rw, (.val 0), .handover⟩
def HIF_WIN0_CTL_WRITE : Fld := ⟨450, .HIFP, 0x90, 8, 1, 25, 1, 0, 1, false, .rw, (.val 0), .handover⟩
def HIF_WIN0_CTL_PASID_EN : Fld := ⟨451, .HIFP, 0x90, 8, 1, 24, 1, 0, 1, false, .rw, (.val 0), .handover⟩
def HIF_WIN0_CTL_APPLY : Fld := ⟨452, .HIFP, 0x90, 8, 1, 20, 1, 0, 1, false, .wo, (.val 0), .handover⟩
def HIF_WIN0_CTL_PASID : Fld := ⟨453, .HIFP, 0x90, 8, 1, 0, 20, 0, 1, false, .rw, (.val 0), .handover⟩

-- CMQ_SQ_BASE (17_command_packets R508)
def CMQ_SQ_BASE_POINTER : Fld := ⟨454, .CMQP, 0x0, 64, 8, 0, 64, 0, 1, true, .rw, (.val 0), .handover⟩

-- CMQ_CQ_BASE (17_command_packets R508)
def CMQ_CQ_BASE_POINTER : Fld := ⟨455, .CMQP, 0x8, 64, 8, 0, 64, 0, 1, true, .rw, (.val 0), .handover⟩

-- CMQ_TAILWORD (17_command_packets R508)
def CMQ_TAILWORD_POINTER : Fld := ⟨456, .CMQP, 0x38, 64, 8, 0, 64, 0, 1, true, .rw, (.val 0), .handover⟩

-- CMQ_CFG (17_command_packets R508)
def CMQ_CFG_EN : Fld := ⟨457, .CMQP, 0x10, 64, 8, 63, 1, 0, 1, true, .rw, (.val 0), .handover⟩
def CMQ_CFG_IDLE : Fld := ⟨458, .CMQP, 0x10, 64, 8, 62, 1, 0, 1, true, .ro, (.val 1), .handover⟩
def CMQ_CFG_ERR : Fld := ⟨459, .CMQP, 0x10, 64, 8, 59, 3, 0, 1, true, .ro, (.val 0), .handover⟩
def CMQ_CFG_VECTOR : Fld := ⟨460, .CMQP, 0x10, 64, 8, 48, 6, 0, 1, true, .rw, (.val 0), .handover⟩
def CMQ_CFG_TAILWORD : Fld := ⟨461, .CMQP, 0x10, 64, 8, 44, 1, 0, 1, true, .rw, (.val 0), .handover⟩
def CMQ_CFG_SQ_SIZE_M1 : Fld := ⟨462, .CMQP, 0x10, 64, 8, 16, 12, 0, 1, true, .rw, (.val 1), .handover⟩
def CMQ_CFG_CQ_SIZE_M1 : Fld := ⟨463, .CMQP, 0x10, 64, 8, 0, 12, 0, 1, true, .rw, (.val 1), .handover⟩

-- CMQ_SQ_TAIL (17_command_packets R508)
def CMQ_SQ_TAIL_INDEX : Fld := ⟨464, .CMQP, 0x18, 64, 8, 0, 12, 0, 1, false, .rw, (.val 0), .handover⟩

-- CMQ_CQ_HEAD (17_command_packets R508)
def CMQ_CQ_HEAD_INDEX : Fld := ⟨465, .CMQP, 0x20, 64, 8, 0, 12, 0, 1, false, .rw, (.val 0), .handover⟩

-- CMQ_SQ_HEAD (17_command_packets R508)
def CMQ_SQ_HEAD_PHASE : Fld := ⟨466, .CMQP, 0x28, 64, 8, 28, 1, 0, 1, false, .ro, (.val 0), .handover⟩
def CMQ_SQ_HEAD_OUTSTANDING : Fld := ⟨467, .CMQP, 0x28, 64, 8, 16, 12, 0, 1, false, .ro, (.val 0), .handover⟩
def CMQ_SQ_HEAD_INDEX : Fld := ⟨468, .CMQP, 0x28, 64, 8, 0, 12, 0, 1, false, .ro, (.val 0), .handover⟩

-- CMQ_CQ_TAIL (17_command_packets R508)
def CMQ_CQ_TAIL_PHASE : Fld := ⟨469, .CMQP, 0x30, 64, 8, 28, 1, 0, 1, false, .ro, (.val 1), .handover⟩
def CMQ_CQ_TAIL_OUTSTANDING : Fld := ⟨470, .CMQP, 0x30, 64, 8, 16, 12, 0, 1, false, .ro, (.val 0), .handover⟩
def CMQ_CQ_TAIL_INDEX : Fld := ⟨471, .CMQP, 0x30, 64, 8, 0, 12, 0, 1, false, .ro, (.val 0), .handover⟩

-- CMQ_PQ_BASE (17_command_packets R508)
def CMQ_PQ_BASE_POINTER : Fld := ⟨472, .CMQF, 0x200, 8, 1, 0, 64, 0, 1, true, .rw, (.val 0), .handover⟩

-- CMQ_PCQ_BASE (17_command_packets R508)
def CMQ_PCQ_BASE_POINTER : Fld := ⟨473, .CMQF, 0x208, 8, 1, 0, 64, 0, 1, true, .rw, (.val 0), .handover⟩

-- CMQ_EQ_BASE (17_command_packets R508)
def CMQ_EQ_BASE_POINTER : Fld := ⟨474, .CMQF, 0x240, 8, 1, 0, 64, 0, 1, true, .rw, (.val 0), .handover⟩

-- CMQ_PQ_CFG (17_command_packets R508)
def CMQ_PQ_CFG_EN : Fld := ⟨475, .CMQF, 0x210, 8, 1, 63, 1, 0, 1, true, .rw, (.val 0), .handover⟩
def CMQ_PQ_CFG_ERR : Fld := ⟨476, .CMQF, 0x210, 8, 1, 59, 3, 0, 1, true, .ro, (.val 0), .handover⟩
def CMQ_PQ_CFG_VECTOR : Fld := ⟨477, .CMQF, 0x210, 8, 1, 48, 6, 0, 1, true, .rw, (.val 0), .handover⟩
def CMQ_PQ_CFG_SIZE_M1 : Fld := ⟨478, .CMQF, 0x210, 8, 1, 0, 12, 0, 1, true, .rw, (.val 7), .handover⟩

-- CMQ_EQ_CFG (17_command_packets R508)
def CMQ_EQ_CFG_EN : Fld := ⟨479, .CMQF, 0x248, 8, 1, 63, 1, 0, 1, true, .rw, (.val 0), .handover⟩
def CMQ_EQ_CFG_ERR : Fld := ⟨480, .CMQF, 0x248, 8, 1, 59, 3, 0, 1, true, .ro, (.val 0), .handover⟩
def CMQ_EQ_CFG_VECTOR : Fld := ⟨481, .CMQF, 0x248, 8, 1, 48, 6, 0, 1, true, .rw, (.val 0), .handover⟩
def CMQ_EQ_CFG_SIZE_M1 : Fld := ⟨482, .CMQF, 0x248, 8, 1, 0, 12, 0, 1, true, .rw, (.val 7), .handover⟩

-- CMQ_PQ_TAIL (17_command_packets R508)
def CMQ_PQ_TAIL_INDEX : Fld := ⟨483, .CMQF, 0x218, 8, 1, 0, 12, 0, 1, false, .rw, (.val 0), .handover⟩

-- CMQ_PCQ_HEAD (17_command_packets R508)
def CMQ_PCQ_HEAD_INDEX : Fld := ⟨484, .CMQF, 0x220, 8, 1, 0, 12, 0, 1, false, .rw, (.val 0), .handover⟩

-- CMQ_EQ_HEAD (17_command_packets R508)
def CMQ_EQ_HEAD_INDEX : Fld := ⟨485, .CMQF, 0x250, 8, 1, 0, 12, 0, 1, false, .rw, (.val 0), .handover⟩

-- CMQ_PQ_HEAD (17_command_packets R508)
def CMQ_PQ_HEAD_PHASE : Fld := ⟨486, .CMQF, 0x228, 8, 1, 28, 1, 0, 1, false, .ro, (.val 0), .handover⟩
def CMQ_PQ_HEAD_INDEX : Fld := ⟨487, .CMQF, 0x228, 8, 1, 0, 12, 0, 1, false, .ro, (.val 0), .handover⟩

-- CMQ_PCQ_TAIL (17_command_packets R508)
def CMQ_PCQ_TAIL_PHASE : Fld := ⟨488, .CMQF, 0x230, 8, 1, 28, 1, 0, 1, false, .ro, (.val 1), .handover⟩
def CMQ_PCQ_TAIL_INDEX : Fld := ⟨489, .CMQF, 0x230, 8, 1, 0, 12, 0, 1, false, .ro, (.val 0), .handover⟩

-- CMQ_EQ_TAIL (17_command_packets R508)
def CMQ_EQ_TAIL_PHASE : Fld := ⟨490, .CMQF, 0x258, 8, 1, 28, 1, 0, 1, false, .ro, (.val 1), .handover⟩
def CMQ_EQ_TAIL_INDEX : Fld := ⟨491, .CMQF, 0x258, 8, 1, 0, 12, 0, 1, false, .ro, (.val 0), .handover⟩

-- CMQ_EQ_LOST (17_command_packets R508)
def CMQ_EQ_LOST_OVF : Fld := ⟨492, .CMQF, 0x260, 8, 1, 63, 1, 0, 1, true, .ro, (.val 0), .handover⟩
def CMQ_EQ_LOST_COUNT : Fld := ⟨493, .CMQF, 0x260, 8, 1, 0, 48, 0, 1, true, .ro, (.val 0), .handover⟩

-- CMQ_DONE (17_command_packets R508)
def CMQ_DONE_OVF : Fld := ⟨494, .CMQF, 0x280, 8, 1, 63, 1, 0, 1, true, .ro, (.val 0), .handover⟩
def CMQ_DONE_COUNT : Fld := ⟨495, .CMQF, 0x280, 8, 1, 0, 48, 0, 1, true, .ro, (.val 0), .handover⟩

-- CMQ_FAILED (17_command_packets R508)
def CMQ_FAILED_OVF : Fld := ⟨496, .CMQF, 0x288, 8, 1, 63, 1, 0, 1, true, .ro, (.val 0), .handover⟩
def CMQ_FAILED_COUNT : Fld := ⟨497, .CMQF, 0x288, 8, 1, 0, 48, 0, 1, true, .ro, (.val 0), .handover⟩

-- PLK_STATE (18_pod_link R559)
def PLK_STATE_PEER_DEV : Fld := ⟨498, .PLKO, 0x0, 8, 1, 58, 6, 0, 1, true, .ro, (.val 0), .powerOn⟩
def PLK_STATE_PEER_PORT : Fld := ⟨499, .PLKO, 0x0, 8, 1, 54, 4, 0, 1, true, .ro, (.val 0), .powerOn⟩
def PLK_STATE_PEER_VALID : Fld := ⟨500, .PLKO, 0x0, 8, 1, 53, 1, 0, 1, true, .ro, (.val 0), .powerOn⟩
def PLK_STATE_LANE_MASK : Fld := ⟨501, .PLKO, 0x0, 8, 1, 44, 9, 0, 1, true, .ro, (.val 0), .powerOn⟩
def PLK_STATE_LANES : Fld := ⟨502, .PLKO, 0x0, 8, 1, 40, 4, 0, 1, true, .ro, (.val 0), .powerOn⟩
def PLK_STATE_SPARE_USED : Fld := ⟨503, .PLKO, 0x0, 8, 1, 39, 1, 0, 1, true, .ro, (.val 0), .powerOn⟩
def PLK_STATE_ENCRYPTED : Fld := ⟨504, .PLKO, 0x0, 8, 1, 38, 1, 0, 1, true, .ro, (.val 0), .powerOn⟩
def PLK_STATE_KEY_TX : Fld := ⟨505, .PLKO, 0x0, 8, 1, 37, 1, 0, 1, true, .ro, (.val 0), .powerOn⟩
def PLK_STATE_KEY_RX : Fld := ⟨506, .PLKO, 0x0, 8, 1, 36, 1, 0, 1, true, .ro, (.val 0), .powerOn⟩
def PLK_STATE_TIME_ROLE : Fld := ⟨507, .PLKO, 0x0, 8, 1, 34, 2, 0, 1, true, .ro, (.val 0), .powerOn⟩
def PLK_STATE_REASON : Fld := ⟨508, .PLKO, 0x0, 8, 1, 30, 4, 0, 1, true, .ro, (.val 0), .powerOn⟩
def PLK_STATE_STATE : Fld := ⟨509, .PLKO, 0x0, 8, 1, 0, 3, 0, 1, true, .ro, (.val 0), .powerOn⟩

-- PLK_CFG (18_pod_link R559)
def PLK_CFG_ASYM_PS : Fld := ⟨510, .PLKO, 0x8, 8, 1, 16, 16, 0, 1, false, .rw, (.val 0), .powerOn⟩
def PLK_CFG_ENCRYPT_REQUIRED : Fld := ⟨511, .PLKO, 0x8, 8, 1, 9, 1, 0, 1, false, .ro, (.val 1), .powerOn⟩
def PLK_CFG_STRICT : Fld := ⟨512, .PLKO, 0x8, 8, 1, 8, 1, 0, 1, false, .ro, (.val 0), .powerOn⟩
def PLK_CFG_LANE_FAIL_LOG2 : Fld := ⟨513, .PLKO, 0x8, 8, 1, 0, 5, 0, 1, false, .rw, (.val 18), .powerOn⟩

-- PLK_TDM_k (18_pod_link R559)
def PLK_TDM_SLOT : Fld := ⟨514, .PLKO, 0x40, 8, 8, 0, 8, 8, 8, true, .ro, .slotDefault, .powerOn⟩

-- PLK_CRED_k (18_pod_link R559)
def PLK_CRED_CRED : Fld := ⟨515, .PLKO, 0x80, 8, 10, 0, 8, 8, 8, true, .ro, (.val 0), .powerOn⟩

-- PLK_TRANSIT (18_pod_link R559)
def PLK_TRANSIT_TRANSIT : Fld := ⟨516, .PLKO, 0xD0, 8, 1, 0, 12, 0, 1, false, .ro, (.val 0), .powerOn⟩

-- PLK_DELAY (18_pod_link R559)
def PLK_DELAY_DELAY_PS : Fld := ⟨517, .PLKO, 0xD8, 8, 1, 0, 32, 0, 1, false, .ro, (.val 0), .powerOn⟩

-- PLK_KEY (18_pod_link R559)
def PLK_KEY_REKEYS : Fld := ⟨518, .PLKO, 0xE0, 8, 1, 32, 32, 0, 1, true, .ro, (.val 0), .powerOn⟩
def PLK_KEY_TX_MFLITS : Fld := ⟨519, .PLKO, 0xE0, 8, 1, 0, 32, 0, 1, true, .ro, (.val 0), .powerOn⟩

-- PLK_TX_FLITS (18_pod_link R559)
def PLK_TX_FLITS_OVF : Fld := ⟨520, .PLKO, 0x100, 8, 1, 63, 1, 0, 1, true, .ro, (.val 0), .powerOn⟩
def PLK_TX_FLITS_COUNT : Fld := ⟨521, .PLKO, 0x100, 8, 1, 0, 48, 0, 1, true, .ro, (.val 0), .powerOn⟩

-- PLK_RX_FLITS (18_pod_link R559)
def PLK_RX_FLITS_OVF : Fld := ⟨522, .PLKO, 0x108, 8, 1, 63, 1, 0, 1, true, .ro, (.val 0), .powerOn⟩
def PLK_RX_FLITS_COUNT : Fld := ⟨523, .PLKO, 0x108, 8, 1, 0, 48, 0, 1, true, .ro, (.val 0), .powerOn⟩

-- PLK_FILL (18_pod_link R559)
def PLK_FILL_OVF : Fld := ⟨524, .PLKO, 0x110, 8, 1, 63, 1, 0, 1, true, .ro, (.val 0), .powerOn⟩
def PLK_FILL_COUNT : Fld := ⟨525, .PLKO, 0x110, 8, 1, 0, 48, 0, 1, true, .ro, (.val 0), .powerOn⟩

-- PLK_REPLAY (18_pod_link R559)
def PLK_REPLAY_OVF : Fld := ⟨526, .PLKO, 0x118, 8, 1, 63, 1, 0, 1, true, .ro, (.val 0), .powerOn⟩
def PLK_REPLAY_COUNT : Fld := ⟨527, .PLKO, 0x118, 8, 1, 0, 48, 0, 1, true, .ro, (.val 0), .powerOn⟩

-- PLK_REPLAY_FLITS (18_pod_link R559)
def PLK_REPLAY_FLITS_OVF : Fld := ⟨528, .PLKO, 0x120, 8, 1, 63, 1, 0, 1, true, .ro, (.val 0), .powerOn⟩
def PLK_REPLAY_FLITS_COUNT : Fld := ⟨529, .PLKO, 0x120, 8, 1, 0, 48, 0, 1, true, .ro, (.val 0), .powerOn⟩

-- PLK_CHECK_FAIL (18_pod_link R559)
def PLK_CHECK_FAIL_OVF : Fld := ⟨530, .PLKO, 0x128, 8, 1, 63, 1, 0, 1, true, .ro, (.val 0), .powerOn⟩
def PLK_CHECK_FAIL_COUNT : Fld := ⟨531, .PLKO, 0x128, 8, 1, 0, 48, 0, 1, true, .ro, (.val 0), .powerOn⟩

-- PLK_FEC_CORR (18_pod_link R559)
def PLK_FEC_CORR_OVF : Fld := ⟨532, .PLKO, 0x130, 8, 1, 63, 1, 0, 1, true, .ro, (.val 0), .powerOn⟩
def PLK_FEC_CORR_COUNT : Fld := ⟨533, .PLKO, 0x130, 8, 1, 0, 48, 0, 1, true, .ro, (.val 0), .powerOn⟩

-- PLK_FEC_UNCORR (18_pod_link R559)
def PLK_FEC_UNCORR_OVF : Fld := ⟨534, .PLKO, 0x138, 8, 1, 63, 1, 0, 1, true, .ro, (.val 0), .powerOn⟩
def PLK_FEC_UNCORR_COUNT : Fld := ⟨535, .PLKO, 0x138, 8, 1, 0, 48, 0, 1, true, .ro, (.val 0), .powerOn⟩

-- PLK_AUTH_FAIL (18_pod_link R559)
def PLK_AUTH_FAIL_OVF : Fld := ⟨536, .PLKO, 0x140, 8, 1, 63, 1, 0, 1, true, .ro, (.val 0), .powerOn⟩
def PLK_AUTH_FAIL_COUNT : Fld := ⟨537, .PLKO, 0x140, 8, 1, 0, 48, 0, 1, true, .ro, (.val 0), .powerOn⟩

-- PLK_CRED_VIOL (18_pod_link R559)
def PLK_CRED_VIOL_OVF : Fld := ⟨538, .PLKO, 0x148, 8, 1, 63, 1, 0, 1, true, .ro, (.val 0), .powerOn⟩
def PLK_CRED_VIOL_COUNT : Fld := ⟨539, .PLKO, 0x148, 8, 1, 0, 48, 0, 1, true, .ro, (.val 0), .powerOn⟩

-- PLK_DEGRADE (18_pod_link R559)
def PLK_DEGRADE_OVF : Fld := ⟨540, .PLKO, 0x150, 8, 1, 63, 1, 0, 1, true, .ro, (.val 0), .powerOn⟩
def PLK_DEGRADE_COUNT : Fld := ⟨541, .PLKO, 0x150, 8, 1, 0, 48, 0, 1, true, .ro, (.val 0), .powerOn⟩

-- PLK_DOWN (18_pod_link R559)
def PLK_DOWN_OVF : Fld := ⟨542, .PLKO, 0x158, 8, 1, 63, 1, 0, 1, true, .ro, (.val 0), .powerOn⟩
def PLK_DOWN_COUNT : Fld := ⟨543, .PLKO, 0x158, 8, 1, 0, 48, 0, 1, true, .ro, (.val 0), .powerOn⟩

-- PLK_LANE_n (18_pod_link R559)
def PLK_LANE_FAILED : Fld := ⟨544, .PLKO, 0x200, 16, 9, 31, 1, 0, 1, false, .ro, (.val 0), .powerOn⟩
def PLK_LANE_SPARE : Fld := ⟨545, .PLKO, 0x200, 16, 9, 30, 1, 0, 1, false, .ro, (.val 0), .powerOn⟩
def PLK_LANE_LOCK : Fld := ⟨546, .PLKO, 0x200, 16, 9, 29, 1, 0, 1, false, .ro, (.val 0), .powerOn⟩
def PLK_LANE_LOGICAL : Fld := ⟨547, .PLKO, 0x200, 16, 9, 25, 4, 0, 1, false, .ro, (.val 15), .powerOn⟩

-- PLK_LANE_ERR_n (18_pod_link R559)
def PLK_LANE_ERR_OVF : Fld := ⟨548, .PLKO, 0x208, 16, 9, 63, 1, 0, 1, true, .ro, (.val 0), .powerOn⟩
def PLK_LANE_ERR_COUNT : Fld := ⟨549, .PLKO, 0x208, 16, 9, 0, 48, 0, 1, true, .ro, (.val 0), .powerOn⟩

-- PLK_TIME (18_pod_link R559)
def PLK_TIME_LOCKED : Fld := ⟨550, .PLKD, 0x0, 8, 1, 63, 1, 0, 1, true, .ro, (.val 0), .powerOn⟩
def PLK_TIME_MASTER : Fld := ⟨551, .PLKD, 0x0, 8, 1, 62, 1, 0, 1, true, .ro, (.val 0), .powerOn⟩
def PLK_TIME_UPSTREAM : Fld := ⟨552, .PLKD, 0x0, 8, 1, 58, 4, 0, 1, true, .ro, (.val 15), .powerOn⟩
def PLK_TIME_BACKUP : Fld := ⟨553, .PLKD, 0x0, 8, 1, 54, 4, 0, 1, true, .ro, (.val 15), .powerOn⟩
def PLK_TIME_HOPS : Fld := ⟨554, .PLKD, 0x0, 8, 1, 50, 4, 0, 1, true, .ro, (.val 15), .powerOn⟩
def PLK_TIME_OFFSET_PS : Fld := ⟨555, .PLKD, 0x0, 8, 1, 0, 32, 0, 1, true, .ro, (.val 0), .powerOn⟩

-- PLK_TIME_EVT (18_pod_link R559)
def PLK_TIME_EVT_OVF : Fld := ⟨556, .PLKD, 0x8, 8, 1, 63, 1, 0, 1, true, .ro, (.val 0), .powerOn⟩
def PLK_TIME_EVT_COUNT : Fld := ⟨557, .PLKD, 0x8, 8, 1, 0, 48, 0, 1, true, .ro, (.val 0), .powerOn⟩

-- PLK_PVIEW0 (18_pod_link R559)
def PLK_PVIEW0_UP : Fld := ⟨558, .PLKP, 0x0, 8, 1, 7, 1, 8, 8, true, .ro, (.val 0), .handover⟩
def PLK_PVIEW0_SLOTS : Fld := ⟨559, .PLKP, 0x0, 8, 1, 0, 7, 8, 8, true, .ro, (.val 0), .handover⟩

-- PLK_PVIEW1 (18_pod_link R559)
def PLK_PVIEW1_UP : Fld := ⟨560, .PLKP, 0x8, 8, 1, 7, 1, 8, 8, true, .ro, (.val 0), .handover⟩
def PLK_PVIEW1_SLOTS : Fld := ⟨561, .PLKP, 0x8, 8, 1, 0, 7, 8, 8, true, .ro, (.val 0), .handover⟩

-- PLK_PLANES (18_pod_link R559)
def PLK_PLANES_LANES : Fld := ⟨562, .PLKP, 0x10, 8, 1, 0, 4, 4, 12, true, .ro, (.val 0), .handover⟩

-- PLK_P_TX_FLITS (18_pod_link R559)
def PLK_P_TX_FLITS_OVF : Fld := ⟨563, .PLKP, 0x18, 8, 1, 63, 1, 0, 1, true, .ro, (.val 0), .handover⟩
def PLK_P_TX_FLITS_COUNT : Fld := ⟨564, .PLKP, 0x18, 8, 1, 0, 48, 0, 1, true, .ro, (.val 0), .handover⟩

-- PLK_P_RX_FLITS (18_pod_link R559)
def PLK_P_RX_FLITS_OVF : Fld := ⟨565, .PLKP, 0x20, 8, 1, 63, 1, 0, 1, true, .ro, (.val 0), .handover⟩
def PLK_P_RX_FLITS_COUNT : Fld := ⟨566, .PLKP, 0x20, 8, 1, 0, 48, 0, 1, true, .ro, (.val 0), .handover⟩

-- PLK_P_DISCARD (18_pod_link R559)
def PLK_P_DISCARD_OVF : Fld := ⟨567, .PLKP, 0x28, 8, 1, 63, 1, 0, 1, true, .ro, (.val 0), .handover⟩
def PLK_P_DISCARD_COUNT : Fld := ⟨568, .PLKP, 0x28, 8, 1, 0, 48, 0, 1, true, .ro, (.val 0), .handover⟩

-- RTE_DCFG (19_pods_routes_and_collectives R592)
def RTE_DCFG_DEV_VALID : Fld := ⟨569, .RTED, 0x0, 8, 1, 7, 1, 0, 1, false, .ro, (.val 0), .powerOn⟩
def RTE_DCFG_DEV_ID : Fld := ⟨570, .RTED, 0x0, 8, 1, 0, 6, 0, 1, false, .rw, (.val 0), .powerOn⟩

-- RTE_DEST_d (19_pods_routes_and_collectives R592)
def RTE_DEST_VALID : Fld := ⟨571, .RTED, 0x100, 8, 64, 63, 1, 0, 1, true, .ro, (.val 0), .powerOn⟩
def RTE_DEST_FORWARD : Fld := ⟨572, .RTED, 0x100, 8, 64, 62, 1, 0, 1, true, .ro, (.val 0), .powerOn⟩
def RTE_DEST_NPATHS_M1 : Fld := ⟨573, .RTED, 0x100, 8, 64, 60, 2, 0, 1, true, .ro, (.val 0), .powerOn⟩
def RTE_DEST_TRANSIT_FLITS : Fld := ⟨574, .RTED, 0x100, 8, 64, 48, 12, 0, 1, true, .ro, (.val 0), .powerOn⟩
def RTE_DEST_PATH : Fld := ⟨575, .RTED, 0x100, 8, 64, 0, 11, 11, 4, true, .ro, (.val 0), .powerOn⟩

-- RTE_TRES_k (19_pods_routes_and_collectives R592)
def RTE_TRES_RES : Fld := ⟨576, .RTED, 0x300, 8, 3, 0, 16, 16, 4, true, .ro, (.val 0), .powerOn⟩

-- RTE_TRANSIT_FWD (19_pods_routes_and_collectives R592)
def RTE_TRANSIT_FWD_OVF : Fld := ⟨577, .RTED, 0x320, 8, 1, 63, 1, 0, 1, true, .ro, (.val 0), .powerOn⟩
def RTE_TRANSIT_FWD_COUNT : Fld := ⟨578, .RTED, 0x320, 8, 1, 0, 48, 0, 1, true, .ro, (.val 0), .powerOn⟩

-- RTE_TRANSIT_DROP (19_pods_routes_and_collectives R592)
def RTE_TRANSIT_DROP_OVF : Fld := ⟨579, .RTED, 0x328, 8, 1, 63, 1, 0, 1, true, .ro, (.val 0), .powerOn⟩
def RTE_TRANSIT_DROP_COUNT : Fld := ⟨580, .RTED, 0x328, 8, 1, 0, 48, 0, 1, true, .ro, (.val 0), .powerOn⟩

-- RTE_PCFG (19_pods_routes_and_collectives R592)
def RTE_PCFG_PART : Fld := ⟨581, .RTEP, 0x0, 8, 1, 42, 2, 0, 1, true, .ro, (.val 0), .handover⟩
def RTE_PCFG_FENCE_ON_BREAK : Fld := ⟨582, .RTEP, 0x0, 8, 1, 41, 1, 0, 1, true, .ro, (.val 0), .handover⟩
def RTE_PCFG_PSERVER_EN : Fld := ⟨583, .RTEP, 0x0, 8, 1, 40, 1, 0, 1, true, .ro, (.val 0), .handover⟩
def RTE_PCFG_PEER_DEV : Fld := ⟨584, .RTEP, 0x0, 8, 1, 34, 6, 0, 1, true, .ro, (.val 0), .handover⟩
def RTE_PCFG_ABORT_FANOUT : Fld := ⟨585, .RTEP, 0x0, 8, 1, 33, 1, 0, 1, true, .rw, (.val 0), .handover⟩
def RTE_PCFG_SELF_EPOCH : Fld := ⟨586, .RTEP, 0x0, 8, 1, 16, 16, 0, 1, true, .ro, (.val 0), .handover⟩
def RTE_PCFG_RANK_SELF : Fld := ⟨587, .RTEP, 0x0, 8, 1, 0, 6, 0, 1, true, .ro, (.val 0), .handover⟩

-- RTE_RANK_r (19_pods_routes_and_collectives R592)
def RTE_RANK_VALID : Fld := ⟨588, .RTEP, 0x200, 8, 64, 63, 1, 0, 1, true, .ro, (.val 0), .handover⟩
def RTE_RANK_DEV : Fld := ⟨589, .RTEP, 0x200, 8, 64, 56, 6, 0, 1, true, .ro, (.val 0), .handover⟩
def RTE_RANK_PADDOCK : Fld := ⟨590, .RTEP, 0x200, 8, 64, 48, 4, 0, 1, true, .ro, (.val 0), .handover⟩
def RTE_RANK_EPOCH : Fld := ⟨591, .RTEP, 0x200, 8, 64, 32, 16, 0, 1, true, .ro, (.val 0), .handover⟩

-- RTE_P_EPOCH_DISC (19_pods_routes_and_collectives R592)
def RTE_P_EPOCH_DISC_OVF : Fld := ⟨592, .RTEP, 0x40, 8, 1, 63, 1, 0, 1, true, .ro, (.val 0), .handover⟩
def RTE_P_EPOCH_DISC_COUNT : Fld := ⟨593, .RTEP, 0x40, 8, 1, 0, 48, 0, 1, true, .ro, (.val 0), .handover⟩

-- RTE_P_ADMIT_DROP (19_pods_routes_and_collectives R592)
def RTE_P_ADMIT_DROP_OVF : Fld := ⟨594, .RTEP, 0x48, 8, 1, 63, 1, 0, 1, true, .ro, (.val 0), .handover⟩
def RTE_P_ADMIT_DROP_COUNT : Fld := ⟨595, .RTEP, 0x48, 8, 1, 0, 48, 0, 1, true, .ro, (.val 0), .handover⟩

-- RTE_P_EARLY_DROP (19_pods_routes_and_collectives R592)
def RTE_P_EARLY_DROP_OVF : Fld := ⟨596, .RTEP, 0x50, 8, 1, 63, 1, 0, 1, true, .ro, (.val 0), .handover⟩
def RTE_P_EARLY_DROP_COUNT : Fld := ⟨597, .RTEP, 0x50, 8, 1, 0, 48, 0, 1, true, .ro, (.val 0), .handover⟩

-- RTE_P_STOP_RX (19_pods_routes_and_collectives R592)
def RTE_P_STOP_RX_OVF : Fld := ⟨598, .RTEP, 0x58, 8, 1, 63, 1, 0, 1, true, .ro, (.val 0), .handover⟩
def RTE_P_STOP_RX_COUNT : Fld := ⟨599, .RTEP, 0x58, 8, 1, 0, 48, 0, 1, true, .ro, (.val 0), .handover⟩

-- RTE_P_PAGES_SERVED (19_pods_routes_and_collectives R592)
def RTE_P_PAGES_SERVED_OVF : Fld := ⟨600, .RTEP, 0x60, 8, 1, 63, 1, 0, 1, true, .ro, (.val 0), .handover⟩
def RTE_P_PAGES_SERVED_COUNT : Fld := ⟨601, .RTEP, 0x60, 8, 1, 0, 48, 0, 1, true, .ro, (.val 0), .handover⟩

-- RTE_P_MIRROR_TX (19_pods_routes_and_collectives R592)
def RTE_P_MIRROR_TX_OVF : Fld := ⟨602, .RTEP, 0x68, 8, 1, 63, 1, 0, 1, true, .ro, (.val 0), .handover⟩
def RTE_P_MIRROR_TX_COUNT : Fld := ⟨603, .RTEP, 0x68, 8, 1, 0, 48, 0, 1, true, .ro, (.val 0), .handover⟩

-- RTE_ERR0 (19_pods_routes_and_collectives R592)
def RTE_ERR0_VALID : Fld := ⟨604, .RTEP, 0x80, 8, 1, 63, 1, 0, 1, true, .rw1c, (.val 0), .handover⟩
def RTE_ERR0_SRC_DEV : Fld := ⟨605, .RTEP, 0x80, 8, 1, 50, 6, 0, 1, true, .ro, (.val 0), .handover⟩
def RTE_ERR0_SRC_PDK : Fld := ⟨606, .RTEP, 0x80, 8, 1, 46, 4, 0, 1, true, .ro, (.val 0), .handover⟩
def RTE_ERR0_PLACE : Fld := ⟨607, .RTEP, 0x80, 8, 1, 16, 16, 0, 1, true, .ro, (.val 0), .handover⟩
def RTE_ERR0_STATUS : Fld := ⟨608, .RTEP, 0x80, 8, 1, 0, 16, 0, 1, true, .ro, (.val 0), .handover⟩

-- RTE_ERR1 (19_pods_routes_and_collectives R592)
def RTE_ERR1_TIME : Fld := ⟨609, .RTEP, 0x88, 8, 1, 0, 64, 0, 1, true, .ro, (.val 0), .handover⟩

-- RTP_TDI_STATE (20_trust_and_tenancy R629)
def RTP_TDI_STATE_CFG_GEN : Fld := ⟨610, .RTPT, 0x0, 8, 1, 32, 32, 0, 1, true, .ro, (.val 0), .pfReset⟩
def RTP_TDI_STATE_SESSION : Fld := ⟨611, .RTPT, 0x0, 8, 1, 16, 8, 0, 1, true, .ro, (.val 255), .pfReset⟩
def RTP_TDI_STATE_NOT_READY : Fld := ⟨612, .RTPT, 0x0, 8, 1, 4, 1, 0, 1, true, .ro, (.val 0), .pfReset⟩
def RTP_TDI_STATE_STATE : Fld := ⟨613, .RTPT, 0x0, 8, 1, 0, 3, 0, 1, true, .ro, (.val 0), .pfReset⟩

-- RTP_TDI_IDE (20_trust_and_tenancy R629)
def RTP_TDI_IDE_TX_SECURE : Fld := ⟨614, .RTPT, 0x8, 8, 1, 15, 1, 0, 1, false, .ro, (.val 0), .pfReset⟩
def RTP_TDI_IDE_RX_SECURE : Fld := ⟨615, .RTPT, 0x8, 8, 1, 14, 1, 0, 1, false, .ro, (.val 0), .pfReset⟩
def RTP_TDI_IDE_KEYSET_TX : Fld := ⟨616, .RTPT, 0x8, 8, 1, 13, 1, 0, 1, false, .ro, (.val 0), .pfReset⟩
def RTP_TDI_IDE_KEYSET_RX : Fld := ⟨617, .RTPT, 0x8, 8, 1, 12, 1, 0, 1, false, .ro, (.val 0), .pfReset⟩
def RTP_TDI_IDE_PORT_INDEX : Fld := ⟨618, .RTPT, 0x8, 8, 1, 0, 8, 0, 1, false, .ro, .instPlus1, .pfReset⟩

-- RTP_TDI_CAUSE (20_trust_and_tenancy R629)
def RTP_TDI_CAUSE_CAUSE : Fld := ⟨619, .RTPT, 0x10, 8, 1, 0, 4, 0, 1, false, .ro, (.val 0), .pfReset⟩

-- RTP_TDI_ERRORS (20_trust_and_tenancy R629)
def RTP_TDI_ERRORS_OVF : Fld := ⟨620, .RTPT, 0x18, 8, 1, 63, 1, 0, 1, true, .ro, (.val 0), .pfReset⟩
def RTP_TDI_ERRORS_COUNT : Fld := ⟨621, .RTPT, 0x18, 8, 1, 0, 48, 0, 1, true, .ro, (.val 0), .pfReset⟩

-- RTP_TDI_NOTREADY (20_trust_and_tenancy R629)
def RTP_TDI_NOTREADY_OVF : Fld := ⟨622, .RTPT, 0x20, 8, 1, 63, 1, 0, 1, true, .ro, (.val 0), .pfReset⟩
def RTP_TDI_NOTREADY_COUNT : Fld := ⟨623, .RTPT, 0x20, 8, 1, 0, 48, 0, 1, true, .ro, (.val 0), .pfReset⟩

-- RTP_IDE_FAIL (20_trust_and_tenancy R629)
def RTP_IDE_FAIL_OVF : Fld := ⟨624, .RTPT, 0x28, 8, 1, 63, 1, 0, 1, true, .ro, (.val 0), .pfReset⟩
def RTP_IDE_FAIL_COUNT : Fld := ⟨625, .RTPT, 0x28, 8, 1, 0, 48, 0, 1, true, .ro, (.val 0), .pfReset⟩

-- RTP_DEV (20_trust_and_tenancy R629)
def RTP_DEV_SESSIONS : Fld := ⟨626, .RTPD, 0x0, 8, 1, 8, 8, 0, 1, false, .ro, (.val 0), .powerOn⟩
def RTP_DEV_KILLED : Fld := ⟨627, .RTPD, 0x0, 8, 1, 7, 1, 0, 1, false, .ro, (.val 0), .powerOn⟩
def RTP_DEV_LIFECYCLE : Fld := ⟨628, .RTPD, 0x0, 8, 1, 5, 2, 0, 1, false, .ro, (.val 1), .powerOn⟩
def RTP_DEV_DEBUG_OPEN : Fld := ⟨629, .RTPD, 0x0, 8, 1, 4, 1, 0, 1, false, .ro, (.val 0), .powerOn⟩
def RTP_DEV_OWNER_SET : Fld := ⟨630, .RTPD, 0x0, 8, 1, 3, 1, 0, 1, false, .ro, (.open_ 0), .powerOn⟩
def RTP_DEV_UPDATE_STAGED : Fld := ⟨631, .RTPD, 0x0, 8, 1, 2, 1, 0, 1, false, .ro, (.open_ 0), .powerOn⟩
def RTP_DEV_RUN_BANK : Fld := ⟨632, .RTPD, 0x0, 8, 1, 1, 1, 0, 1, false, .ro, (.open_ 0), .powerOn⟩
def RTP_DEV_FALLBACK : Fld := ⟨633, .RTPD, 0x0, 8, 1, 0, 1, 0, 1, false, .ro, (.val 0), .powerOn⟩

-- RTP_SVN (20_trust_and_tenancy R629)
def RTP_SVN_STAGED_SVN : Fld := ⟨634, .RTPD, 0x8, 8, 1, 32, 32, 0, 1, true, .ro, (.open_ 0), .powerOn⟩
def RTP_SVN_RUN_SVN : Fld := ⟨635, .RTPD, 0x8, 8, 1, 0, 32, 0, 1, true, .ro, (.open_ 0), .powerOn⟩

-- RTP_MIN_SVN (20_trust_and_tenancy R629)
def RTP_MIN_SVN_COMMITS_LEFT : Fld := ⟨636, .RTPD, 0x10, 8, 1, 32, 8, 0, 1, true, .ro, (.open_ 0), .powerOn⟩
def RTP_MIN_SVN_MIN_SVN : Fld := ⟨637, .RTPD, 0x10, 8, 1, 0, 32, 0, 1, true, .ro, (.open_ 0), .powerOn⟩

-- RTP_DBG (20_trust_and_tenancy R629)
def RTP_DBG_DEBUG_EPOCH : Fld := ⟨638, .RTPD, 0x18, 8, 1, 32, 32, 0, 1, true, .ro, (.open_ 0), .powerOn⟩
def RTP_DBG_LAST_STATUS : Fld := ⟨639, .RTPD, 0x18, 8, 1, 16, 16, 0, 1, true, .ro, (.val 0), .powerOn⟩
def RTP_DBG_SCOPE : Fld := ⟨640, .RTPD, 0x18, 8, 1, 8, 3, 0, 1, true, .ro, (.val 0), .powerOn⟩
def RTP_DBG_CHALLENGE : Fld := ⟨641, .RTPD, 0x18, 8, 1, 0, 1, 0, 1, true, .ro, (.val 0), .powerOn⟩

-- RTP_SESS_EST (20_trust_and_tenancy R629)
def RTP_SESS_EST_OVF : Fld := ⟨642, .RTPD, 0x20, 8, 1, 63, 1, 0, 1, true, .ro, (.val 0), .powerOn⟩
def RTP_SESS_EST_COUNT : Fld := ⟨643, .RTPD, 0x20, 8, 1, 0, 48, 0, 1, true, .ro, (.val 0), .powerOn⟩

-- RTP_SESS_END (20_trust_and_tenancy R629)
def RTP_SESS_END_OVF : Fld := ⟨644, .RTPD, 0x28, 8, 1, 63, 1, 0, 1, true, .ro, (.val 0), .powerOn⟩
def RTP_SESS_END_COUNT : Fld := ⟨645, .RTPD, 0x28, 8, 1, 0, 48, 0, 1, true, .ro, (.val 0), .powerOn⟩

-- RTP_SESS_REFUSED (20_trust_and_tenancy R629)
def RTP_SESS_REFUSED_OVF : Fld := ⟨646, .RTPD, 0x30, 8, 1, 63, 1, 0, 1, true, .ro, (.val 0), .powerOn⟩
def RTP_SESS_REFUSED_COUNT : Fld := ⟨647, .RTPD, 0x30, 8, 1, 0, 48, 0, 1, true, .ro, (.val 0), .powerOn⟩

-- RTP_REPORTS (20_trust_and_tenancy R629)
def RTP_REPORTS_OVF : Fld := ⟨648, .RTPD, 0x38, 8, 1, 63, 1, 0, 1, true, .ro, (.val 0), .powerOn⟩
def RTP_REPORTS_COUNT : Fld := ⟨649, .RTPD, 0x38, 8, 1, 0, 48, 0, 1, true, .ro, (.val 0), .powerOn⟩

-- CNT_SNAP_CTL (21_counters_and_hang_dumps R653)
def CNT_SNAP_CTL_VALID : Fld := ⟨650, .CNTP, 0x8, 8, 1, 1, 1, 0, 1, false, .ro, (.val 0), .handover⟩
def CNT_SNAP_CTL_TAKE : Fld := ⟨651, .CNTP, 0x8, 8, 1, 0, 1, 0, 1, false, .wo, (.val 0), .handover⟩

-- CNT_SNAP_TIME (21_counters_and_hang_dumps R653)
def CNT_SNAP_TIME_TIME : Fld := ⟨652, .CNTP, 0x10, 8, 1, 0, 64, 0, 1, true, .ro, (.val 0), .handover⟩

-- CNT_SNAP_TICK (21_counters_and_hang_dumps R653)
def CNT_SNAP_TICK_TICK : Fld := ⟨653, .CNTP, 0x18, 8, 1, 0, 64, 0, 1, true, .ro, (.val 0), .handover⟩

-- CNT_P_k (21_counters_and_hang_dumps R653)
def CNT_P_OVF : Fld := ⟨654, .CNTP, 0x100, 8, 32, 63, 1, 0, 1, true, .ro, (.val 0), .handover⟩
def CNT_P_COUNT : Fld := ⟨655, .CNTP, 0x100, 8, 32, 0, 48, 0, 1, true, .ro, (.val 0), .handover⟩

-- CNT_SNAP_k (21_counters_and_hang_dumps R653)
def CNT_SNAP_OVF : Fld := ⟨656, .CNTP, 0x200, 8, 32, 63, 1, 0, 1, true, .ro, (.val 0), .handover⟩
def CNT_SNAP_COUNT : Fld := ⟨657, .CNTP, 0x200, 8, 32, 0, 48, 0, 1, true, .ro, (.val 0), .handover⟩

-- CNT_TIMEBASE (21_counters_and_hang_dumps R653)
def CNT_TIMEBASE_TIME : Fld := ⟨658, .CNTD, 0x0, 8, 1, 0, 64, 0, 1, true, .ro, (.val 0), .powerOn⟩

-- CNT_DSNAP_CTL (21_counters_and_hang_dumps R653)
def CNT_DSNAP_CTL_VALID : Fld := ⟨659, .CNTD, 0x8, 8, 1, 1, 1, 0, 1, false, .ro, (.val 0), .powerOn⟩
def CNT_DSNAP_CTL_TAKE : Fld := ⟨660, .CNTD, 0x8, 8, 1, 0, 1, 0, 1, false, .wo, (.val 0), .powerOn⟩

-- CNT_DSNAP_TIME (21_counters_and_hang_dumps R653)
def CNT_DSNAP_TIME_TIME : Fld := ⟨661, .CNTD, 0x10, 8, 1, 0, 64, 0, 1, true, .ro, (.val 0), .powerOn⟩

-- CNT_DSNAP_TICK (21_counters_and_hang_dumps R653)
def CNT_DSNAP_TICK_TICK : Fld := ⟨662, .CNTD, 0x18, 8, 1, 0, 64, 0, 1, true, .ro, (.val 0), .powerOn⟩

-- CNT_D_k (21_counters_and_hang_dumps R653)
def CNT_D_OVF : Fld := ⟨663, .CNTD, 0x100, 8, 8, 63, 1, 0, 1, true, .ro, (.val 0), .powerOn⟩
def CNT_D_COUNT : Fld := ⟨664, .CNTD, 0x100, 8, 8, 0, 48, 0, 1, true, .ro, (.val 0), .powerOn⟩

-- CNT_DSNAP_k (21_counters_and_hang_dumps R653)
def CNT_DSNAP_OVF : Fld := ⟨665, .CNTD, 0x200, 8, 8, 63, 1, 0, 1, true, .ro, (.val 0), .powerOn⟩
def CNT_DSNAP_COUNT : Fld := ⟨666, .CNTD, 0x200, 8, 8, 0, 48, 0, 1, true, .ro, (.val 0), .powerOn⟩

-- SWD_CFG (21_counters_and_hang_dumps R654)
def SWD_CFG_BY_PF : Fld := ⟨667, .SWD, 0x0, 8, 1, 2, 1, 0, 1, false, .ro, (.val 0), .handover⟩
def SWD_CFG_AUTO : Fld := ⟨668, .SWD, 0x0, 8, 1, 1, 1, 0, 1, false, .ro, (.val 0), .handover⟩
def SWD_CFG_VALID : Fld := ⟨669, .SWD, 0x0, 8, 1, 0, 1, 0, 1, false, .ro, (.val 0), .handover⟩

-- SWD_BUF (21_counters_and_hang_dumps R654)
def SWD_BUF_POINTER : Fld := ⟨670, .SWD, 0x8, 8, 1, 0, 64, 0, 1, true, .ro, (.val 0), .handover⟩

-- SWD_BYTES (21_counters_and_hang_dumps R654)
def SWD_BYTES_BYTES : Fld := ⟨671, .SWD, 0x10, 8, 1, 0, 32, 0, 1, false, .ro, (.val 0), .handover⟩

-- SWD_STAT (21_counters_and_hang_dumps R654)
def SWD_STAT_TOTAL_BYTES : Fld := ⟨672, .SWD, 0x18, 8, 1, 32, 32, 0, 1, true, .ro, (.val 0), .handover⟩
def SWD_STAT_CAUSE : Fld := ⟨673, .SWD, 0x18, 8, 1, 16, 8, 0, 1, true, .ro, (.val 255), .handover⟩
def SWD_STAT_STATE : Fld := ⟨674, .SWD, 0x18, 8, 1, 0, 3, 0, 1, true, .ro, (.val 0), .handover⟩

-- SWD_TIME (21_counters_and_hang_dumps R654)
def SWD_TIME_TRIGGER_TIME : Fld := ⟨675, .SWD, 0x20, 8, 1, 0, 64, 0, 1, true, .ro, (.val 0), .handover⟩

-- CLK_CFG (23_clocks_reset_and_power_up R692)
def CLK_CFG_REFUSED : Fld := ⟨676, .CLK, 0x0, 8, 1, 2, 1, 0, 1, false, .rw1c, (.val 0), .powerOn⟩
def CLK_CFG_CORE_SEL : Fld := ⟨677, .CLK, 0x0, 8, 1, 0, 2, 0, 1, false, .rw, (.val 0), .powerOn⟩

-- CLK_STAT (23_clocks_reset_and_power_up R692)
def CLK_STAT_CORE_MHZ : Fld := ⟨678, .CLK, 0x8, 8, 1, 21, 11, 0, 1, false, .ro, (.val 1900), .powerOn⟩
def CLK_STAT_RELOCKING : Fld := ⟨679, .CLK, 0x8, 8, 1, 16, 1, 0, 1, false, .ro, (.val 0), .powerOn⟩
def CLK_STAT_HOST_REFCLK : Fld := ⟨680, .CLK, 0x8, 8, 1, 8, 1, 0, 1, false, .ro, (.val 0), .powerOn⟩
def CLK_STAT_LOCK : Fld := ⟨681, .CLK, 0x8, 8, 1, 0, 8, 0, 1, false, .ro, (.val 0), .powerOn⟩

-- CLK_RELOCK (23_clocks_reset_and_power_up R692)
def CLK_RELOCK_OVF : Fld := ⟨682, .CLK, 0x10, 8, 1, 63, 1, 0, 1, true, .ro, (.val 0), .powerOn⟩
def CLK_RELOCK_COUNT : Fld := ⟨683, .CLK, 0x10, 8, 1, 0, 48, 0, 1, true, .ro, (.val 0), .powerOn⟩

-- RST_STATUS (23_clocks_reset_and_power_up R693)
def RST_STATUS_READY : Fld := ⟨684, .RST, 0x0, 8, 1, 31, 1, 0, 1, false, .ro, (.val 0), .powerOn⟩
def RST_STATUS_STAGE : Fld := ⟨685, .RST, 0x0, 8, 1, 24, 4, 0, 1, false, .ro, (.val 1), .powerOn⟩
def RST_STATUS_LAST : Fld := ⟨686, .RST, 0x0, 8, 1, 20, 4, 0, 1, false, .ro, (.val 0), .powerOn⟩
def RST_STATUS_IN_RESET : Fld := ⟨687, .RST, 0x0, 8, 1, 16, 1, 0, 1, false, .ro, (.val 1), .powerOn⟩
def RST_STATUS_EARLY_PERST : Fld := ⟨688, .RST, 0x0, 8, 1, 1, 1, 0, 1, false, .ro, (.val 0), .powerOn⟩
def RST_STATUS_KILL_N_LEVEL : Fld := ⟨689, .RST, 0x0, 8, 1, 0, 1, 0, 1, false, .ro, (.val 0), .powerOn⟩

-- RST_LAST_TIME (23_clocks_reset_and_power_up R693)
def RST_LAST_TIME_TIME : Fld := ⟨690, .RST, 0x8, 8, 1, 0, 64, 0, 1, true, .ro, (.val 0), .powerOn⟩

-- RST_POWERON (23_clocks_reset_and_power_up R693)
def RST_POWERON_READY_MS : Fld := ⟨691, .RST, 0x10, 8, 1, 16, 16, 0, 1, false, .ro, (.val 0), .powerOn⟩
def RST_POWERON_LAST_RESET_MS : Fld := ⟨692, .RST, 0x10, 8, 1, 0, 16, 0, 1, false, .ro, (.val 0), .powerOn⟩

-- RST_PERST (23_clocks_reset_and_power_up R693)
def RST_PERST_OVF : Fld := ⟨693, .RST, 0x18, 8, 1, 63, 1, 0, 1, true, .ro, (.val 0), .powerOn⟩
def RST_PERST_COUNT : Fld := ⟨694, .RST, 0x18, 8, 1, 0, 48, 0, 1, true, .ro, (.val 0), .powerOn⟩

-- RST_PFFLR (23_clocks_reset_and_power_up R693)
def RST_PFFLR_OVF : Fld := ⟨695, .RST, 0x20, 8, 1, 63, 1, 0, 1, true, .ro, (.val 0), .powerOn⟩
def RST_PFFLR_COUNT : Fld := ⟨696, .RST, 0x20, 8, 1, 0, 48, 0, 1, true, .ro, (.val 0), .powerOn⟩

-- RST_VFFLR (23_clocks_reset_and_power_up R693)
def RST_VFFLR_OVF : Fld := ⟨697, .RST, 0x28, 8, 1, 63, 1, 0, 1, true, .ro, (.val 0), .powerOn⟩
def RST_VFFLR_COUNT : Fld := ⟨698, .RST, 0x28, 8, 1, 0, 48, 0, 1, true, .ro, (.val 0), .powerOn⟩

-- RST_CORE (23_clocks_reset_and_power_up R693)
def RST_CORE_OVF : Fld := ⟨699, .RST, 0x30, 8, 1, 63, 1, 0, 1, true, .ro, (.val 0), .powerOn⟩
def RST_CORE_COUNT : Fld := ⟨700, .RST, 0x30, 8, 1, 0, 48, 0, 1, true, .ro, (.val 0), .powerOn⟩

end F

/-- The fields of the PDK block. -/
def fldsPDK : List Fld :=   [F.PDK_STATE_GROUP_LOG2, F.PDK_STATE_GROUP_BASE, F.PDK_STATE_DUMPED, F.PDK_STATE_HANDOVER_LATE, F.PDK_STATE_SPARE_SHORT, F.PDK_STATE_ROLE, F.PDK_STATE_STATE, F.PDK_QUOTA_CTX_QUOTA_M1, F.PDK_QUOTA_FAR_PAGES, F.PDK_QUOTA_HBM_POOL_PAGES, F.PDK_CORES_PHYS7, F.PDK_CORES_PHYS6, F.PDK_CORES_PHYS5, F.PDK_CORES_PHYS4, F.PDK_CORES_PHYS3, F.PDK_CORES_PHYS2, F.PDK_CORES_PHYS1, F.PDK_CORES_PHYS0, F.PDK_INFO_LAST_HANDOVER_US, F.PDK_INFO_CP_ID]

/-- The fields of the DRW block. -/
def fldsDRW : List Fld :=   [F.DRW_CFG_EN, F.DRW_CFG_KEEP, F.DRW_CFG_SIZE, F.DRW_CFG_BASE, F.DRW_STATE_PEND, F.DRW_STATE_FILL, F.DRW_STATE_TAIL, F.DRW_STATE_HEAD, F.DRW_VIOL0_VALID, F.DRW_VIOL0_KIND, F.DRW_VIOL0_DRAWER, F.DRW_VIOL0_STREAM, F.DRW_VIOL0_POSITION, F.DRW_VIOL1_TICK, F.DRW_VIOL2_TIME, F.DRW_SHELF_CE_OVF, F.DRW_SHELF_CE_COUNT, F.DRW_SHELF_UE_OVF, F.DRW_SHELF_UE_COUNT, F.DRW_SHELF_ERR0_VALID, F.DRW_SHELF_ERR0_UNCORR, F.DRW_SHELF_ERR0_SOURCE, F.DRW_SHELF_ERR0_BANK, F.DRW_SHELF_ERR0_BANK_ROW, F.DRW_SHELF_ERR0_CODEWORD, F.DRW_SHELF_ERR0_ROW, F.DRW_SHELF_ERR1_TICK, F.DRW_SHELF_ERR2_TIME, F.DRW_SPARE_LO_USED, F.DRW_SPARE_HI_USED, F.DRW_REPAIR_PEND_PEND_ROWS, F.DRW_REPAIR_PEND_BANK_MASK, F.DRW_PATROL_PASSES, F.DRW_PATROL_LAST_PASS_KTICK, F.DRW_SHELF_CFG_PWR, F.DRW_SHELF_CFG_CE_LIMIT, F.DRW_TRAY_POISON, F.DRW_TRAY_PAIR, F.DRW_TRAY_READY, F.DRW_TRAY_TAIL, F.DRW_TRAY_HEAD, F.DRW_TRAY_FILL]

/-- The fields of the SCHP block. -/
def fldsSCHP : List Fld :=   [F.SCH_PCTL_WAIT_DEFAULT_US, F.SCH_PSTAT_LOADED, F.SCH_PSTAT_ARMED_V, F.SCH_PSTAT_ARMED, F.SCH_PSTAT_OVERLAP, F.SCH_PSTAT_RUN_V, F.SCH_PSTAT_RUNNING, F.SCH_SLOT_CHECK, F.SCH_SLOT_WORDS]

/-- The fields of the SCHC block. -/
def fldsSCHC : List Fld :=   [F.SCH_TICK_TICK, F.SCH_HEAD_TICK_HEAD_TICK, F.SCH_RETIRED_ARMED_RET, F.SCH_RETIRED_RUN_RET, F.SCH_SLIP_OVF, F.SCH_SLIP_COUNT, F.SCH_CSLIP_EVENTS_OVF, F.SCH_CSLIP_EVENTS_COUNT, F.SCH_CSLIP0_VALID, F.SCH_CSLIP0_KIND, F.SCH_CSLIP0_BANK, F.SCH_CSLIP0_STREAM, F.SCH_CSLIP0_SLIP_CLOCKS, F.SCH_CSLIP0_POSITION, F.SCH_CSLIP1_TICK, F.SCH_CSLIP2_TIME, F.SCH_WTO0_VALID, F.SCH_WTO0_KIND, F.SCH_WTO0_CELL, F.SCH_WTO0_COND, F.SCH_WTO0_STREAM, F.SCH_WTO0_POSITION, F.SCH_WTO1_EXPECTED, F.SCH_WTO1_FOUND, F.SCH_WTO2_SIG_STREAM, F.SCH_WTO2_SIG_POSITION, F.SCH_WTO3_SIG_TICK, F.SCH_WTO4_TICK, F.SCH_WTO5_TIME]

/-- The fields of the BUDP block. -/
def fldsBUDP : List Fld :=   [F.BUD_PCFG_UNTIMED_BU, F.BUD_PCFG_TIMED_BU, F.BUD_PCFG_SHARE_BU, F.BUD_STALL_CLK_OVF, F.BUD_STALL_CLK_COUNT, F.BUD_STALL_EVT_OVF, F.BUD_STALL_EVT_COUNT, F.BUD_DROOP_CLK_OVF, F.BUD_DROOP_CLK_COUNT, F.BUD_DROOP_EVT_OVF, F.BUD_DROOP_EVT_COUNT, F.BUD_HOLD_CLK_OVF, F.BUD_HOLD_CLK_COUNT, F.BUD_REC0_VALID, F.BUD_REC0_STRETCHED, F.BUD_REC0_CORE, F.BUD_REC0_CHARGE, F.BUD_REC1_TICK, F.BUD_REC2_TIME, F.BUD_UWIN_PEAK, F.BUD_UWIN_CHARGE]

/-- The fields of the BUDC block. -/
def fldsBUDC : List Fld :=   [F.BUD_CWIN_PEAK, F.BUD_CWIN_CHARGE, F.BUD_COVER_OVF, F.BUD_COVER_COUNT]

/-- The fields of the BUDD block. -/
def fldsBUDD : List Fld :=   [F.BUD_DCFG_HOLD_CLOCKS, F.BUD_DCFG_DROOP_MV, F.BUD_DSTAT_DROOP_ACTIVE, F.BUD_DSTAT_RSV_CHARGE, F.BUD_DDROOP_EVT_OVF, F.BUD_DDROOP_EVT_COUNT]

/-- The fields of the SYN block. -/
def fldsSYN : List Fld :=   [F.SYN_VAL_VALUE, F.SYN_LSIG_STREAM, F.SYN_LSIG_WAITERS, F.SYN_LSIG_COMPLETION, F.SYN_LSIG_OP, F.SYN_LSIG_POSITION, F.SYN_LTICK_TICK, F.SYN_STILE_SENSE, F.SYN_STILE_LOCAL, F.SYN_STILE_CLAIMED, F.SYN_STILE_ARRIVED, F.SYN_STILE_MASK, F.SYN_STILE_LAST_STREAM, F.SYN_STILE_PHASES, F.SYN_STILE_POS_LAST_POSITION, F.SYN_WAIT_VALID, F.SYN_WAIT_KIND, F.SYN_WAIT_COND, F.SYN_WAIT_TARGET, F.SYN_WAIT_CLOCKS, F.SYN_WAIT_OPERAND, F.SYN_ERR0_VALID, F.SYN_ERR0_KIND, F.SYN_ERR0_STREAM, F.SYN_ERR0_TARGET, F.SYN_ERR0_COMPLETION, F.SYN_ERR0_POSITION, F.SYN_ERR1_TICK, F.SYN_ERR2_TIME]

/-- The fields of the MXEP block. -/
def fldsMXEP : List Fld :=   [F.MXE_PCFG_CHK_T]

/-- The fields of the MXEC block. -/
def fldsMXEC : List Fld :=   [F.MXE_STAT_APP_BUF, F.MXE_STAT_DRAINING, F.MXE_STAT_STREAMING, F.MXE_COLMAP_SPARE_FOR, F.MXE_TILES_OVF, F.MXE_TILES_COUNT, F.MXE_CHK_FAIL_OVF, F.MXE_CHK_FAIL_COUNT, F.MXE_CHK_SKIP_OVF, F.MXE_CHK_SKIP_COUNT, F.MXE_CHK_ERR0_VALID, F.MXE_CHK_ERR0_INTEGER, F.MXE_CHK_ERR0_PAIR, F.MXE_CHK_ERR0_APPEND, F.MXE_CHK_ERR0_ROW, F.MXE_CHK_ERR0_EXCESS_LOG2, F.MXE_CHK_ERR0_POSITION, F.MXE_CHK_ERR1_TICK, F.MXE_CHK_ERR2_TIME]

/-- The fields of the VEC block. -/
def fldsVEC : List Fld :=   [F.VEC_STAT_GROUP, F.VEC_STAT_WS_MODE, F.VEC_STAT_BUSY, F.VEC_LANEMAP_VALID, F.VEC_LANEMAP_LANE, F.VEC_PROGS_OVF, F.VEC_PROGS_COUNT, F.VEC_RES_FAIL_OVF, F.VEC_RES_FAIL_COUNT, F.VEC_ADDR_FAIL_OVF, F.VEC_ADDR_FAIL_COUNT, F.VEC_ERR0_VALID, F.VEC_ERR0_KIND, F.VEC_ERR0_LANE, F.VEC_ERR0_INSN, F.VEC_ERR0_GROUP, F.VEC_ERR0_POSITION, F.VEC_ERR1_ADDRESS, F.VEC_ERR2_TICK, F.VEC_ERR3_TIME, F.VEC_WSPOISON_LINES]

/-- The fields of the ATN block. -/
def fldsATN : List Fld :=   [F.ATN_STAT_CTX, F.ATN_STAT_BLOCK, F.ATN_STAT_MODE, F.ATN_STAT_BUSY, F.ATN_LATCH_GEN, F.ATN_LATCH_LENGTH, F.ATN_EPOCH_EPOCH, F.ATN_PASSES_OVF, F.ATN_PASSES_COUNT, F.ATN_BLOCKS_OVF, F.ATN_BLOCKS_COUNT, F.ATN_SKIPPED_OVF, F.ATN_SKIPPED_COUNT, F.ATN_MASKED_ROWS_OVF, F.ATN_MASKED_ROWS_COUNT, F.ATN_STALE_OVF, F.ATN_STALE_COUNT, F.ATN_FAR_PAGES_OVF, F.ATN_FAR_PAGES_COUNT, F.ATN_ERR0_VALID, F.ATN_ERR0_KIND, F.ATN_ERR0_OFFSET, F.ATN_ERR0_POSITION, F.ATN_ERR1_TOKEN, F.ATN_ERR1_CTX, F.ATN_ERR2_TICK, F.ATN_ERR3_TIME, F.ATN_STALE0_VALID, F.ATN_STALE0_CTX, F.ATN_STALE1_STALE_HI, F.ATN_STALE1_STALE_LO]

/-- The fields of the CTX block. -/
def fldsCTX : List Fld :=   [F.CTX_CFG_DROP_EN, F.CTX_CFG_DEMOTE_EN, F.CTX_CFG_HIGH_WM, F.CTX_CFG_LOW_WM, F.CTX_FARCFG_FAR_KV, F.CTX_POOL_TABLE_PAGES, F.CTX_POOL_FREE_PAGES, F.CTX_POOL_POOL_PAGES, F.CTX_LIMBO_FAR_USED, F.CTX_LIMBO_ENTRIES, F.CTX_EPOCH_EPOCH, F.CTX_MINHELD_MIN_HELD, F.CTX_SWAPS_OVF, F.CTX_SWAPS_COUNT, F.CTX_APP_ROWS_OVF, F.CTX_APP_ROWS_COUNT, F.CTX_APP_DEFER_OVF, F.CTX_APP_DEFER_COUNT, F.CTX_APP_DISCARD_OVF, F.CTX_APP_DISCARD_COUNT, F.CTX_DEMOTED_OVF, F.CTX_DEMOTED_COUNT, F.CTX_DROPPED_OVF, F.CTX_DROPPED_COUNT, F.CTX_DMISS_OVF, F.CTX_DMISS_COUNT, F.CTX_SCATTERED_OVF, F.CTX_SCATTERED_COUNT, F.CTX_DEFER0_VALID, F.CTX_DEFER0_CTX, F.CTX_DEFER0_POS, F.CTX_DEFER1_TIME]

/-- The fields of the TBLP block. -/
def fldsTBLP : List Fld :=   [F.TBL_VALID_VALID, F.TBL_LOOKUPS_OVF, F.TBL_LOOKUPS_COUNT, F.TBL_ROWS_OVF, F.TBL_ROWS_COUNT, F.TBL_FAR_ROWS_OVF, F.TBL_FAR_ROWS_COUNT, F.TBL_CHANGED_OVF, F.TBL_CHANGED_COUNT, F.TBL_ID_RANGE_OVF, F.TBL_ID_RANGE_COUNT, F.TBL_REC0_VALID, F.TBL_REC0_KIND, F.TBL_REC0_CORE, F.TBL_REC0_SLOT, F.TBL_REC0_GEN, F.TBL_REC0_POSITION, F.TBL_REC1_TIME]

/-- The fields of the TBLC block. -/
def fldsTBLC : List Fld :=   [F.TBL_CSTAT_OUTSTANDING, F.TBL_ERR0_VALID, F.TBL_ERR0_KIND, F.TBL_ERR0_SLOT, F.TBL_ERR0_BAG, F.TBL_ERR0_POSITION, F.TBL_ERR1_TICK, F.TBL_ERR2_TIME]

/-- The fields of the HBMG block. -/
def fldsHBMG : List Fld :=   [F.HBM_GSTAT_DORMANT, F.HBM_GSTAT_TXN_PEAK, F.HBM_GSTAT_PWR, F.HBM_GSTAT_TXN, F.HBM_RD_LINES_OVF, F.HBM_RD_LINES_COUNT, F.HBM_WR_LINES_OVF, F.HBM_WR_LINES_COUNT, F.HBM_TXN_FULL_CLK_OVF, F.HBM_TXN_FULL_CLK_COUNT, F.HBM_PAR_RETRY_OVF, F.HBM_PAR_RETRY_COUNT, F.HBM_PAR_FAIL_OVF, F.HBM_PAR_FAIL_COUNT, F.HBM_DORMANT_OVF, F.HBM_DORMANT_COUNT, F.HBM_ERR0_VALID, F.HBM_ERR0_KIND, F.HBM_ERR0_CHANNEL, F.HBM_ERR0_SOURCE, F.HBM_ERR0_CORE, F.HBM_ERR1_DPA, F.HBM_ERR2_TIME]

/-- The fields of the HBMC block. -/
def fldsHBMC : List Fld :=   [F.HBM_CH_STAT_REFRESH_X2, F.HBM_CH_STAT_TRAINED, F.HBM_CH_STAT_PWR, F.HBM_CH_RETRY_OVF, F.HBM_CH_RETRY_COUNT, F.HBM_CH_FAIL_OVF, F.HBM_CH_FAIL_COUNT, F.HBM_CH_CAL_LAST]

/-- The fields of the HBMD block. -/
def fldsHBMD : List Fld :=   [F.HBM_DCFG_CAL_PERIOD_MS, F.HBM_TEMP_TEMP, F.HBM_TEMP_MAX_TEMP]

/-- The fields of the MOWG block. -/
def fldsMOWG : List Fld :=   [F.MOW_CFG_PATCH_CE, F.MOW_CFG_SCRUB_INTERVAL, F.MOW_STAT_ACTIVITY, F.MOW_STAT_ACTIVE_SLOT, F.MOW_STAT_ROTATING, F.MOW_STAT_SCRUB_LINE, F.MOW_STAT_P, F.MOW_KEYID_KEYID1, F.MOW_KEYID_KEYID0, F.MOW_PASS_PASSES, F.MOW_PASS_LAST_PASS_MS, F.MOW_CE_USE_OVF, F.MOW_CE_USE_COUNT, F.MOW_CE_SCRUB_OVF, F.MOW_CE_SCRUB_COUNT, F.MOW_UE_OVF, F.MOW_UE_COUNT, F.MOW_POISON_READ_OVF, F.MOW_POISON_READ_COUNT, F.MOW_PATCHED_OVF, F.MOW_PATCHED_COUNT, F.MOW_LINES_OVF, F.MOW_LINES_COUNT, F.MOW_ROTATIONS_OVF, F.MOW_ROTATIONS_COUNT, F.MOW_ERR0_VALID, F.MOW_ERR0_KIND, F.MOW_ERR0_CHANNEL, F.MOW_ERR0_SOURCE, F.MOW_ERR0_CORE, F.MOW_ERR0_SYNDROME, F.MOW_ERR1_DPA, F.MOW_ERR2_TIME]

/-- The fields of the MOWD block. -/
def fldsMOWD : List Fld :=   [F.MOW_PATCH_VALID, F.MOW_PATCH_SPARE_FAILED, F.MOW_PATCH_CE, F.MOW_PATCH_LINE, F.MOW_PPR_APPLIED, F.MOW_PPR_LISTED]

/-- The fields of the FARP block. -/
def fldsFARP : List Fld :=   [F.FAR_PEXT_SIZE1, F.FAR_PEXT_BASE1, F.FAR_PEXT_SIZE0, F.FAR_PEXT_BASE0, F.FAR_RD_LINES_OVF, F.FAR_RD_LINES_COUNT, F.FAR_WR_LINES_OVF, F.FAR_WR_LINES_COUNT, F.FAR_POISON_OVF, F.FAR_POISON_COUNT, F.FAR_DOWN_ERR_OVF, F.FAR_DOWN_ERR_COUNT, F.FAR_HOLD_CLK_OVF, F.FAR_HOLD_CLK_COUNT, F.FAR_ERR0_VALID, F.FAR_ERR0_KIND, F.FAR_ERR0_PORT, F.FAR_ERR0_SOURCE, F.FAR_ERR0_CORE, F.FAR_ERR1_OFFSET, F.FAR_ERR2_TIME]

/-- The fields of the FARO block. -/
def fldsFARO : List Fld :=   [F.FAR_PSTATUS_STATE, F.FAR_PSTATUS_SPEED, F.FAR_PSTATUS_WIDTH, F.FAR_PSTATUS_STRICT, F.FAR_PSTATUS_CAPACITY, F.FAR_SLOT_OWNED, F.FAR_SLOT_PADDOCK, F.FAR_RETRY_OVF, F.FAR_RETRY_COUNT, F.FAR_MEDIA_EVT_OVF, F.FAR_MEDIA_EVT_COUNT, F.FAR_DOWN_EVT_OVF, F.FAR_DOWN_EVT_COUNT]

/-- The fields of the HIFD block. -/
def fldsHIFD : List Fld :=   [F.HIF_LINK_WIDTH, F.HIF_LINK_SPEED, F.HIF_LINK_LINK_IDE, F.HIF_LINK_FLIT, F.HIF_LINK_CE_OVF, F.HIF_LINK_CE_COUNT, F.HIF_LINK_RETRAIN_OVF, F.HIF_LINK_RETRAIN_COUNT, F.HIF_FATAL_FATAL, F.HIF_FATAL_ENTRIES, F.HIF_FATAL_LAST_CAUSE, F.HIF_FATAL_UNIT, F.HIF_FATAL_TIME_TIME, F.HIF_SPARES_RETIRED, F.HIF_SPARES_CORES_D1, F.HIF_SPARES_CORES_D0, F.HIF_SPARES_CPS]

/-- The fields of the HIFP block. -/
def fldsHIFP : List Fld :=   [F.HIF_CFG_XLATE_TIMEOUT_MS, F.HIF_XSTAT_WINDOWS, F.HIF_XSTAT_PINNED, F.HIF_XSTAT_HELD, F.HIF_FQ_PRG_OUT, F.HIF_FQ_PARKED, F.HIF_FQ_FQ_USED, F.HIF_ATS_REQ_OVF, F.HIF_ATS_REQ_COUNT, F.HIF_ATS_INVAL_OVF, F.HIF_ATS_INVAL_COUNT, F.HIF_PRG_OVF, F.HIF_PRG_COUNT, F.HIF_FAULT_PARK_OVF, F.HIF_FAULT_PARK_COUNT, F.HIF_XLATE_WAIT_OVF, F.HIF_XLATE_WAIT_COUNT, F.HIF_HOST_RD_LINES_OVF, F.HIF_HOST_RD_LINES_COUNT, F.HIF_HOST_WR_LINES_OVF, F.HIF_HOST_WR_LINES_COUNT, F.HIF_HOST_ERR_OVF, F.HIF_HOST_ERR_COUNT, F.HIF_ERR0_VALID, F.HIF_ERR0_KIND, F.HIF_ERR0_WINDOW, F.HIF_ERR0_STATUS, F.HIF_ERR1_IOVA, F.HIF_ERR2_TIME, F.HIF_WIN0_BASE_BASE, F.HIF_WIN0_SIZE_SIZE, F.HIF_WIN0_CTL_WIN0_ERR, F.HIF_WIN0_CTL_WIN0_VALID, F.HIF_WIN0_CTL_WIN0_PIN, F.HIF_WIN0_CTL_VALID, F.HIF_WIN0_CTL_READ, F.HIF_WIN0_CTL_WRITE, F.HIF_WIN0_CTL_PASID_EN, F.HIF_WIN0_CTL_APPLY, F.HIF_WIN0_CTL_PASID]

/-- The fields of the CMQP block. -/
def fldsCMQP : List Fld :=   [F.CMQ_SQ_BASE_POINTER, F.CMQ_CQ_BASE_POINTER, F.CMQ_TAILWORD_POINTER, F.CMQ_CFG_EN, F.CMQ_CFG_IDLE, F.CMQ_CFG_ERR, F.CMQ_CFG_VECTOR, F.CMQ_CFG_TAILWORD, F.CMQ_CFG_SQ_SIZE_M1, F.CMQ_CFG_CQ_SIZE_M1, F.CMQ_SQ_TAIL_INDEX, F.CMQ_CQ_HEAD_INDEX, F.CMQ_SQ_HEAD_PHASE, F.CMQ_SQ_HEAD_OUTSTANDING, F.CMQ_SQ_HEAD_INDEX, F.CMQ_CQ_TAIL_PHASE, F.CMQ_CQ_TAIL_OUTSTANDING, F.CMQ_CQ_TAIL_INDEX]

/-- The fields of the CMQF block. -/
def fldsCMQF : List Fld :=   [F.CMQ_PQ_BASE_POINTER, F.CMQ_PCQ_BASE_POINTER, F.CMQ_EQ_BASE_POINTER, F.CMQ_PQ_CFG_EN, F.CMQ_PQ_CFG_ERR, F.CMQ_PQ_CFG_VECTOR, F.CMQ_PQ_CFG_SIZE_M1, F.CMQ_EQ_CFG_EN, F.CMQ_EQ_CFG_ERR, F.CMQ_EQ_CFG_VECTOR, F.CMQ_EQ_CFG_SIZE_M1, F.CMQ_PQ_TAIL_INDEX, F.CMQ_PCQ_HEAD_INDEX, F.CMQ_EQ_HEAD_INDEX, F.CMQ_PQ_HEAD_PHASE, F.CMQ_PQ_HEAD_INDEX, F.CMQ_PCQ_TAIL_PHASE, F.CMQ_PCQ_TAIL_INDEX, F.CMQ_EQ_TAIL_PHASE, F.CMQ_EQ_TAIL_INDEX, F.CMQ_EQ_LOST_OVF, F.CMQ_EQ_LOST_COUNT, F.CMQ_DONE_OVF, F.CMQ_DONE_COUNT, F.CMQ_FAILED_OVF, F.CMQ_FAILED_COUNT]

/-- The fields of the PLKO block. -/
def fldsPLKO : List Fld :=   [F.PLK_STATE_PEER_DEV, F.PLK_STATE_PEER_PORT, F.PLK_STATE_PEER_VALID, F.PLK_STATE_LANE_MASK, F.PLK_STATE_LANES, F.PLK_STATE_SPARE_USED, F.PLK_STATE_ENCRYPTED, F.PLK_STATE_KEY_TX, F.PLK_STATE_KEY_RX, F.PLK_STATE_TIME_ROLE, F.PLK_STATE_REASON, F.PLK_STATE_STATE, F.PLK_CFG_ASYM_PS, F.PLK_CFG_ENCRYPT_REQUIRED, F.PLK_CFG_STRICT, F.PLK_CFG_LANE_FAIL_LOG2, F.PLK_TDM_SLOT, F.PLK_CRED_CRED, F.PLK_TRANSIT_TRANSIT, F.PLK_DELAY_DELAY_PS, F.PLK_KEY_REKEYS, F.PLK_KEY_TX_MFLITS, F.PLK_TX_FLITS_OVF, F.PLK_TX_FLITS_COUNT, F.PLK_RX_FLITS_OVF, F.PLK_RX_FLITS_COUNT, F.PLK_FILL_OVF, F.PLK_FILL_COUNT, F.PLK_REPLAY_OVF, F.PLK_REPLAY_COUNT, F.PLK_REPLAY_FLITS_OVF, F.PLK_REPLAY_FLITS_COUNT, F.PLK_CHECK_FAIL_OVF, F.PLK_CHECK_FAIL_COUNT, F.PLK_FEC_CORR_OVF, F.PLK_FEC_CORR_COUNT, F.PLK_FEC_UNCORR_OVF, F.PLK_FEC_UNCORR_COUNT, F.PLK_AUTH_FAIL_OVF, F.PLK_AUTH_FAIL_COUNT, F.PLK_CRED_VIOL_OVF, F.PLK_CRED_VIOL_COUNT, F.PLK_DEGRADE_OVF, F.PLK_DEGRADE_COUNT, F.PLK_DOWN_OVF, F.PLK_DOWN_COUNT, F.PLK_LANE_FAILED, F.PLK_LANE_SPARE, F.PLK_LANE_LOCK, F.PLK_LANE_LOGICAL, F.PLK_LANE_ERR_OVF, F.PLK_LANE_ERR_COUNT]

/-- The fields of the PLKD block. -/
def fldsPLKD : List Fld :=   [F.PLK_TIME_LOCKED, F.PLK_TIME_MASTER, F.PLK_TIME_UPSTREAM, F.PLK_TIME_BACKUP, F.PLK_TIME_HOPS, F.PLK_TIME_OFFSET_PS, F.PLK_TIME_EVT_OVF, F.PLK_TIME_EVT_COUNT]

/-- The fields of the PLKP block. -/
def fldsPLKP : List Fld :=   [F.PLK_PVIEW0_UP, F.PLK_PVIEW0_SLOTS, F.PLK_PVIEW1_UP, F.PLK_PVIEW1_SLOTS, F.PLK_PLANES_LANES, F.PLK_P_TX_FLITS_OVF, F.PLK_P_TX_FLITS_COUNT, F.PLK_P_RX_FLITS_OVF, F.PLK_P_RX_FLITS_COUNT, F.PLK_P_DISCARD_OVF, F.PLK_P_DISCARD_COUNT]

/-- The fields of the RTED block. -/
def fldsRTED : List Fld :=   [F.RTE_DCFG_DEV_VALID, F.RTE_DCFG_DEV_ID, F.RTE_DEST_VALID, F.RTE_DEST_FORWARD, F.RTE_DEST_NPATHS_M1, F.RTE_DEST_TRANSIT_FLITS, F.RTE_DEST_PATH, F.RTE_TRES_RES, F.RTE_TRANSIT_FWD_OVF, F.RTE_TRANSIT_FWD_COUNT, F.RTE_TRANSIT_DROP_OVF, F.RTE_TRANSIT_DROP_COUNT]

/-- The fields of the RTEP block. -/
def fldsRTEP : List Fld :=   [F.RTE_PCFG_PART, F.RTE_PCFG_FENCE_ON_BREAK, F.RTE_PCFG_PSERVER_EN, F.RTE_PCFG_PEER_DEV, F.RTE_PCFG_ABORT_FANOUT, F.RTE_PCFG_SELF_EPOCH, F.RTE_PCFG_RANK_SELF, F.RTE_RANK_VALID, F.RTE_RANK_DEV, F.RTE_RANK_PADDOCK, F.RTE_RANK_EPOCH, F.RTE_P_EPOCH_DISC_OVF, F.RTE_P_EPOCH_DISC_COUNT, F.RTE_P_ADMIT_DROP_OVF, F.RTE_P_ADMIT_DROP_COUNT, F.RTE_P_EARLY_DROP_OVF, F.RTE_P_EARLY_DROP_COUNT, F.RTE_P_STOP_RX_OVF, F.RTE_P_STOP_RX_COUNT, F.RTE_P_PAGES_SERVED_OVF, F.RTE_P_PAGES_SERVED_COUNT, F.RTE_P_MIRROR_TX_OVF, F.RTE_P_MIRROR_TX_COUNT, F.RTE_ERR0_VALID, F.RTE_ERR0_SRC_DEV, F.RTE_ERR0_SRC_PDK, F.RTE_ERR0_PLACE, F.RTE_ERR0_STATUS, F.RTE_ERR1_TIME]

/-- The fields of the RTPT block. -/
def fldsRTPT : List Fld :=   [F.RTP_TDI_STATE_CFG_GEN, F.RTP_TDI_STATE_SESSION, F.RTP_TDI_STATE_NOT_READY, F.RTP_TDI_STATE_STATE, F.RTP_TDI_IDE_TX_SECURE, F.RTP_TDI_IDE_RX_SECURE, F.RTP_TDI_IDE_KEYSET_TX, F.RTP_TDI_IDE_KEYSET_RX, F.RTP_TDI_IDE_PORT_INDEX, F.RTP_TDI_CAUSE_CAUSE, F.RTP_TDI_ERRORS_OVF, F.RTP_TDI_ERRORS_COUNT, F.RTP_TDI_NOTREADY_OVF, F.RTP_TDI_NOTREADY_COUNT, F.RTP_IDE_FAIL_OVF, F.RTP_IDE_FAIL_COUNT]

/-- The fields of the RTPD block. -/
def fldsRTPD : List Fld :=   [F.RTP_DEV_SESSIONS, F.RTP_DEV_KILLED, F.RTP_DEV_LIFECYCLE, F.RTP_DEV_DEBUG_OPEN, F.RTP_DEV_OWNER_SET, F.RTP_DEV_UPDATE_STAGED, F.RTP_DEV_RUN_BANK, F.RTP_DEV_FALLBACK, F.RTP_SVN_STAGED_SVN, F.RTP_SVN_RUN_SVN, F.RTP_MIN_SVN_COMMITS_LEFT, F.RTP_MIN_SVN_MIN_SVN, F.RTP_DBG_DEBUG_EPOCH, F.RTP_DBG_LAST_STATUS, F.RTP_DBG_SCOPE, F.RTP_DBG_CHALLENGE, F.RTP_SESS_EST_OVF, F.RTP_SESS_EST_COUNT, F.RTP_SESS_END_OVF, F.RTP_SESS_END_COUNT, F.RTP_SESS_REFUSED_OVF, F.RTP_SESS_REFUSED_COUNT, F.RTP_REPORTS_OVF, F.RTP_REPORTS_COUNT]

/-- The fields of the CNTP block. -/
def fldsCNTP : List Fld :=   [F.CNT_SNAP_CTL_VALID, F.CNT_SNAP_CTL_TAKE, F.CNT_SNAP_TIME_TIME, F.CNT_SNAP_TICK_TICK, F.CNT_P_OVF, F.CNT_P_COUNT, F.CNT_SNAP_OVF, F.CNT_SNAP_COUNT]

/-- The fields of the CNTD block. -/
def fldsCNTD : List Fld :=   [F.CNT_TIMEBASE_TIME, F.CNT_DSNAP_CTL_VALID, F.CNT_DSNAP_CTL_TAKE, F.CNT_DSNAP_TIME_TIME, F.CNT_DSNAP_TICK_TICK, F.CNT_D_OVF, F.CNT_D_COUNT, F.CNT_DSNAP_OVF, F.CNT_DSNAP_COUNT]

/-- The fields of the SWD block. -/
def fldsSWD : List Fld :=   [F.SWD_CFG_BY_PF, F.SWD_CFG_AUTO, F.SWD_CFG_VALID, F.SWD_BUF_POINTER, F.SWD_BYTES_BYTES, F.SWD_STAT_TOTAL_BYTES, F.SWD_STAT_CAUSE, F.SWD_STAT_STATE, F.SWD_TIME_TRIGGER_TIME]

/-- The fields of the CLK block. -/
def fldsCLK : List Fld :=   [F.CLK_CFG_REFUSED, F.CLK_CFG_CORE_SEL, F.CLK_STAT_CORE_MHZ, F.CLK_STAT_RELOCKING, F.CLK_STAT_HOST_REFCLK, F.CLK_STAT_LOCK, F.CLK_RELOCK_OVF, F.CLK_RELOCK_COUNT]

/-- The fields of the RST block. -/
def fldsRST : List Fld :=   [F.RST_STATUS_READY, F.RST_STATUS_STAGE, F.RST_STATUS_LAST, F.RST_STATUS_IN_RESET, F.RST_STATUS_EARLY_PERST, F.RST_STATUS_KILL_N_LEVEL, F.RST_LAST_TIME_TIME, F.RST_POWERON_READY_MS, F.RST_POWERON_LAST_RESET_MS, F.RST_PERST_OVF, F.RST_PERST_COUNT, F.RST_PFFLR_OVF, F.RST_PFFLR_COUNT, F.RST_VFFLR_OVF, F.RST_VFFLR_COUNT, F.RST_CORE_OVF, F.RST_CORE_COUNT]

/-- The fields of one block. -/
def fldsOf : Blk → List Fld
  | .PDK => fldsPDK
  | .DRW => fldsDRW
  | .SCHP => fldsSCHP
  | .SCHC => fldsSCHC
  | .BUDP => fldsBUDP
  | .BUDC => fldsBUDC
  | .BUDD => fldsBUDD
  | .SYN => fldsSYN
  | .MXEP => fldsMXEP
  | .MXEC => fldsMXEC
  | .VEC => fldsVEC
  | .ATN => fldsATN
  | .CTX => fldsCTX
  | .TBLP => fldsTBLP
  | .TBLC => fldsTBLC
  | .HBMG => fldsHBMG
  | .HBMC => fldsHBMC
  | .HBMD => fldsHBMD
  | .MOWG => fldsMOWG
  | .MOWD => fldsMOWD
  | .FARP => fldsFARP
  | .FARO => fldsFARO
  | .HIFD => fldsHIFD
  | .HIFP => fldsHIFP
  | .CMQP => fldsCMQP
  | .CMQF => fldsCMQF
  | .PLKO => fldsPLKO
  | .PLKD => fldsPLKD
  | .PLKP => fldsPLKP
  | .RTED => fldsRTED
  | .RTEP => fldsRTEP
  | .RTPT => fldsRTPT
  | .RTPD => fldsRTPD
  | .CNTP => fldsCNTP
  | .CNTD => fldsCNTD
  | .SWD => fldsSWD
  | .CLK => fldsCLK
  | .RST => fldsRST

/-- Every field, in the order of its number. -/
def allFlds : List Fld :=
  fldsPDK ++
  fldsDRW ++
  fldsSCHP ++
  fldsSCHC ++
  fldsBUDP ++
  fldsBUDC ++
  fldsBUDD ++
  fldsSYN ++
  fldsMXEP ++
  fldsMXEC ++
  fldsVEC ++
  fldsATN ++
  fldsCTX ++
  fldsTBLP ++
  fldsTBLC ++
  fldsHBMG ++
  fldsHBMC ++
  fldsHBMD ++
  fldsMOWG ++
  fldsMOWD ++
  fldsFARP ++
  fldsFARO ++
  fldsHIFD ++
  fldsHIFP ++
  fldsCMQP ++
  fldsCMQF ++
  fldsPLKO ++
  fldsPLKD ++
  fldsPLKP ++
  fldsRTED ++
  fldsRTEP ++
  fldsRTPT ++
  fldsRTPD ++
  fldsCNTP ++
  fldsCNTD ++
  fldsSWD ++
  fldsCLK ++
  fldsRST

end Sys2Proof.Machine
end

