-- ==== Sys2Proof/Machine/Tbl.lean ====
section
/-! DEFINITION. Sparse data by key in one canonical form: a list of key and value pairs, keys strictly rising, no entry
equal to what an unlisted key reads as. Tables are keyed by short lists of numbers (a field and its instance, a core and
a cell, …), memories by byte addresses. -/

namespace Sys2Proof.Machine

/-- Key of a table: the numbers that name the thing, in a fixed order. -/
abbrev Key := List Nat

/-- Lexicographic order of keys. -/
def keyLt : Key → Key → Bool
  | [], [] => false
  | [], _ :: _ => true
  | _ :: _, [] => false
  | a :: as, b :: bs => a < b || (a == b && keyLt as bs)

/-- A table from keys to values; what an unlisted key reads as is given at each reading. -/
abbrev Tbl (α : Type) := List (Key × α)

/-- What key `k` holds: the listed value, or `d` when it is not listed. -/
def tget {α : Type} (d : α) : Tbl α → Key → α
  | [], _ => d
  | (k', v) :: t, k => if k' = k then v else tget d t k

/-- Insertion at the place of the key in the rising order; an equal key is replaced. -/
def tput {α : Type} (k : Key) (v : α) : Tbl α → Tbl α
  | [] => [(k, v)]
  | (k', v') :: t =>
    if k' = k then (k, v) :: t
    else if keyLt k k' then (k, v) :: (k', v') :: t
    else (k', v') :: tput k v t

/-- The table without key `k`. -/
def tdel {α : Type} (k : Key) (t : Tbl α) : Tbl α := t.filter (fun e => ¬ e.1 = k)

/-- Writing `v` at `k`: writing what an unlisted key reads as removes the entry. -/
def tset {α : Type} [DecidableEq α] (d : α) (t : Tbl α) (k : Key) (v : α) : Tbl α :=
  if v = d then tdel k t else tput k v t

/-- The table without the keys of which `p` holds: they read as unlisted. -/
def tclear {α : Type} (p : Key → Bool) (t : Tbl α) : Tbl α := t.filter (fun e => ! p e.1)

/-- Canonical form of a table: keys strictly rising, no entry equal to its default. -/
def twf {α : Type} [DecidableEq α] (d : Key → α) : Tbl α → Bool
  | [] => true
  | [e] => ! decide (e.2 = d e.1)
  | e :: e' :: t => ! decide (e.2 = d e.1) && keyLt e.1 e'.1 && twf d (e' :: t)

/-- A byte memory: address and byte pairs, addresses strictly rising, no entry that reads as an unlisted address. -/
abbrev Mem := List Host.Cell

/-- What a byte of memory that nothing has written reads as (DESIGN CHOICE where the spec gives none: log entry 6). -/
def memDefault : Byte := 0

/-- The byte at address `a`. -/
def mget : Mem → Nat → Byte
  | [], _ => memDefault
  | (a', b) :: m, a => if a' = a then b else mget m a

/-- Insertion of a byte at its place in the rising order. -/
def mput (a : Nat) (b : Byte) : Mem → Mem
  | [] => [(a, b)]
  | (a', b') :: m =>
    if a' = a then (a, b) :: m
    else if a < a' then (a, b) :: (a', b') :: m
    else (a', b') :: mput a b m

/-- Writing byte `b` at `a`. -/
def mset (m : Mem) (a : Nat) (b : Byte) : Mem :=
  if b = memDefault then m.filter (fun e => ¬ e.1 = a) else mput a b m

/-- Writing the bytes `bs` from address `a` on. -/
def mwrite (m : Mem) (a : Nat) : List Byte → Mem
  | [] => m
  | b :: bs => mwrite (mset m a b) (a + 1) bs

/-- The `n` bytes from address `a` on. -/
def mread (m : Mem) (a : Nat) : Nat → List Byte
  | 0 => []
  | n + 1 => mget m a :: mread m (a + 1) n

/-- Zeroising the `n` bytes from address `a` on. -/
def mzero (m : Mem) (a n : Nat) : Mem := m.filter (fun e => ! (decide (a ≤ e.1) && decide (e.1 < a + n)))

/-- Canonical form of a memory: addresses strictly rising, no entry equal to what an unlisted address reads as. -/
def Memory.wf : Mem → Bool
  | [] => true
  | [e] => ! decide (e.2 = memDefault)
  | e :: e' :: m => ! decide (e.2 = memDefault) && decide (e.1 < e'.1) && Memory.wf (e' :: m)

/-- The number that a list of bytes spells, least significant byte first (R2). -/
def leNat : List Byte → Nat
  | [] => 0
  | b :: bs => b.toNat + 256 * leNat bs

/-- The `n` bytes that spell a number, least significant byte first (R2). -/
def leBytes (v : Nat) : Nat → List Byte
  | 0 => []
  | n + 1 => BitVec.ofNat 8 v :: leBytes (v / 256) n

/-- Field of `n` bytes at offset `o` of a structure in memory; bytes past its end read as 0. -/
def fieldAt (bs : List Byte) (o n : Nat) : Nat := leNat ((bs.drop o).take n)

/-- Bits `lo` to `lo + w - 1` of a number. -/
def bitsAt (v lo w : Nat) : Nat := v / 2 ^ lo % 2 ^ w

/-- The number `v` with bits `lo` to `lo + w - 1` replaced by the low `w` bits of `x`. -/
def setBitsAt (v lo w x : Nat) : Nat :=
  v - bitsAt v lo w * 2 ^ lo + x % 2 ^ w * 2 ^ lo

/-- One bit as a number. -/
def b2n (b : Bool) : Nat := if b then 1 else 0

/-- Two's complement reading of the low `w` bits. -/
def signedAt (v w : Nat) : Int :=
  let x := v % 2 ^ w
  if x < 2 ^ (w - 1) then (x : Int) else (x : Int) - 2 ^ w

/-- Two's complement bits of an integer in `w` bits. -/
def unsignedOf (x : Int) (w : Nat) : Nat := (x % (2 ^ w : Int)).toNat

/-- Whether bit `n` of a mask is 1. -/
def hasBit (m n : Nat) : Bool := m / 2 ^ n % 2 == 1

/-- A mask with bit `n` set. -/
def setBit (m n : Nat) : Nat := if hasBit m n then m else m + 2 ^ n

/-- A mask with bit `n` cleared. -/
def clrBit (m n : Nat) : Nat := if hasBit m n then m - 2 ^ n else m

/-- How many of the low `w` bits of a mask are 1. -/
def popBits (m : Nat) : Nat → Nat
  | 0 => 0
  | w + 1 => m % 2 + popBits (m / 2) w

/-- Element `i` of a list of numbers, 0 past its end. -/
def nth (l : List Nat) (i : Nat) : Nat := (l[i]?).getD 0

end Sys2Proof.Machine
end

