-- ==== Sys2Proof/Machine/State.lean ====
section
/-! DEFINITION. The state of the block as plain data, the reasons a step may stop, and the state at reset. The fields of
every register map are in `State.regs` (their places and reset values stand in Machine/Regs.lean); the other parts hold
the state that no register map shows. -/

namespace Sys2Proof.Machine

/-- What stops the machine. The spec describes an effect for everything it calls an error (a status, an abort, a record,
the fatal state), so no command faults and there is no reason to name. -/
inductive Fault where
  deriving DecidableEq, Repr

/-- Why a command is turned away. `notModelled` is raised by the dispatch alone, for a row that has no meaning yet; it is
safe: a refused command changes nothing. -/
inductive Refusal where
  | notModelled (mnemonic : String)
  deriving DecidableEq, Repr

/-- Something the device sends: to the host, to its pins, to a peer or out of band. -/
inductive Out where
  /-- A completion record of function `fn`, queue `q`, written at a device pointer (R490). -/
  | completion (fn q ptr : Nat) (record : List Byte)
  /-- An event record of function `fn` (R500). -/
  | event (fn ptr : Nat) (record : List Byte)
  /-- An MSI-X message (R460). -/
  | msix (fn vector : Nat)
  /-- Data written to host memory through a function, at a tag-1 pointer. -/
  | hostWrite (fn ptr : Nat) (data : List Byte)
  /-- A read request to host memory: pointer and bytes. -/
  | hostRead (fn ptr bytes : Nat)
  /-- An ATS Translation Request (R467): address space and page. -/
  | translationRequest (fn : Nat) (pasid : Option Nat) (page : Nat)
  /-- A page request group (R474). -/
  | pageRequest (fn : Nat) (pasid : Option Nat) (pages : List Nat)
  /-- An Invalidation Completion (R472). -/
  | invalidationCompletion (fn base size : Nat)
  /-- An answer of Unsupported Request to a BAR0 request (R457, R611). -/
  | unsupportedRequest (fn : Nat)
  /-- The value a BAR0 read returns. -/
  | readData (fn : Nat) (value : Nat)
  /-- A level driven on a pin. -/
  | pin (name : String) (level : Bool)
  /-- An AER report of a function. -/
  | aer (fn : Nat) (fatal : Bool)
  /-- A message whose last flit a pod port has sent (R522, R571). -/
  | message (port : Nat) (m : Msg)
  /-- A flit, marker or training item sent on a pod port: port, kind, fields. -/
  | link (port : Nat) (kind : String) (fields : List Nat)
  /-- An answer of the root of trust on a transport: name of the answer, numbers, bytes (R593 to R625). -/
  | reply (transport : Nat) (name : String) (fields : List Nat) (data : List Byte)
  /-- A request on a far port or to its expander: port, offset, write, data (R438). -/
  | far (port offset : Nat) (write : Bool) (data : List Byte)
  deriving DecidableEq, Repr

/-! ### Schedules -/

/-- A drawer entry of an image (R102). -/
structure DrawerDef where
  drawer : Nat
  keep : Bool
  size : Nat
  base : Nat
  deriving DecidableEq, Repr

/-- A core section of an image: its drawers and the words of its twelve streams (R101). -/
structure CoreSec where
  drawers : List DrawerDef
  streams : List (List Nat)
  deriving DecidableEq, Repr

/-- A loaded image (R100): masks are numbers whose bit n stands for thing n; `sections` holds eight entries. -/
structure Image where
  noOverlap : Bool
  bytes : Nat
  coreMask : Nat
  roleMask : Nat
  stiles : Nat
  tailStiles : Nat
  tailStart : Nat
  headStreams : Nat
  tailStreams : Nat
  paramUsed : Nat
  check : Nat
  tailDrawers : Nat
  paramMax : List Nat
  cells : Nat
  tailCells : Nat
  cellInit : List (Nat × Nat)
  sections : List CoreSec
  deriving DecidableEq, Repr

/-- What a run or a decode step has met so far, for its completion record (R490, R507): the warnings, the numeric block of
R183, NUM_SATURATED and the stale range of R309. -/
structure Tally where
  warnings : List Nat
  sat : Nat
  flush : Nat
  nan : Nat
  inf : Nat
  numSat : Nat
  staleCtx : Nat
  staleLo : Nat
  staleHi : Nat
  deriving DecidableEq, Repr

/-- A run of an image (R105): the command that asked for it, slot and parameters; `bucket` is the bucket of a decode step,
none for SCHEDULE_RUN. `side` is 0 or 1, and differs between the running and the armed run: it tells their streams and
operations apart. -/
structure Run where
  h : Hdr
  side : Nat
  slot : Nat
  params : List Nat
  bucket : Option Nat
  tally : Tally
  deriving DecidableEq, Repr

/-- A DECODE_STEP (R346 to R349): its command, slot, template parameters and parameter slots, whether the sorting assist has
taken it, the buckets still to be armed (bucket, COUNT, ROW), its runs that have not completed, what its runs met so far,
buckets run, and the status and bucket of the first failing run. -/
structure Step where
  h : Hdr
  slot : Nat
  params : List Nat
  pPages : Nat
  pCount : Nat
  pRow : Nat
  list : Nat
  out : Nat
  entries : Nat
  sorted : Bool
  buckets : List (Nat × Nat × Nat)
  running : Nat
  tally : Tally
  bucketsRun : Nat
  failBucket : Nat
  status : Nat
  deriving DecidableEq, Repr

/-- The runs of a paddock (R105): the running one, the armed one with its permission to overlap (R106), those that wait,
and the cause of an abort in progress (R99). `stopArmed` is false when the armed image had already retired on every core
and is not stopped. -/
structure PdkRun where
  running : Option Run
  armed : Option Run
  overlap : Bool
  waiting : List Run
  cause : Option Nat
  stopArmed : Bool
  deriving DecidableEq, Repr

/-- An open loop (R85): index of the first body word, iterations, iteration in progress. -/
structure Loop where
  start : Nat
  count : Nat
  iter : Nat
  deriving DecidableEq, Repr

/-- Where a stream of an image stands: index of its next word, open loops (innermost first), image tick of its last
issue (none before the first), whether END has issued, and how many operations it started have not completed. -/
structure Stream where
  idx : Nat
  loops : List Loop
  last : Option Nat
  ended : Bool
  outst : Nat
  deriving DecidableEq, Repr

/-- A slip in progress on a core (R90 to R96): cause code of R94, side, stream and position of the instruction that could
not issue, core clocks so far and timebase of its first clock. -/
structure Slip where
  cause : Nat
  side : Nat
  stream : Nat
  position : Nat
  clocks : Nat
  since : Nat
  deriving DecidableEq, Repr

/-- A signal or stile operation of the pending tick, which takes effect at its end (R139 phase 3): kind 0 a signal, 1 a
STILE_ARRIVE, 2 the claim of an untimed operation. -/
structure EndSig where
  kind : Nat
  side : Nat
  stream : Nat
  position : Nat
  target : Nat
  op : Nat
  value : Nat
  deriving DecidableEq, Repr

/-- Where a timed access goes: a shelf row, the head or tail of a drawer, a row of the tray slot `ahead` places behind the
head, or row or column `k` of tile buffer `b`. -/
inductive Place where
  | row (r : Nat)
  | drawer (d : Nat)
  | tray (ahead r : Nat)
  | ws (col : Bool) (b k : Nat)
  deriving DecidableEq, Repr

/-- A timed read that an operation makes in an operation tick, what it is for, and the error it meets (lowest codeword,
uncorrectable). -/
structure TRead where
  tick : Nat
  tag : Nat
  place : Place
  err : Option (Nat × Bool)
  deriving DecidableEq, Repr

/-- Data that a read returned. -/
structure Got where
  tag : Nat
  bytes : List Byte
  poison : Bool
  deriving DecidableEq, Repr

/-- A write that has issued and commits at the end of operation tick `due` (R47, R244): row (of the shelf store, or 128 b + m of
tile buffer b of the working store), data, poison, the drawer whose slot it fills and the operation that made it. -/
structure Commit where
  due : Nat
  row : Nat
  bytes : List Byte
  poison : Bool
  drawer : Option Nat
  op : Nat
  ws : Bool
  deriving DecidableEq, Repr

/-- The weight of an activity over a range of operation ticks of a core (R117); `upto` is the first tick without it. -/
structure Act where
  op : Nat
  start : Nat
  upto : Nat
  weight : Nat
  deriving DecidableEq, Repr

/-- A matrix tile between its issue and its claim (R188 to R206): its word, issue and claim ticks, the tolerance exponent of its
issue (R215), reads to come and data read. -/
structure Tile where
  word : Nat
  issue : Nat
  claim : Nat
  chkT : Nat
  reads : List TRead
  got : List Got
  deriving DecidableEq, Repr

/-- An append tile that has been handed to its mover (R204, R206): FP32 bits of element (m, n) at 128 m + n, poison, side and
position of its instruction. -/
structure AppTile where
  values : List Nat
  poison : Bool
  side : Nat
  position : Nat
  deriving DecidableEq, Repr

/-- A lane of the vector engine while a program runs (R217): its 32 registers, mask bits m0 to m3, whether the last
instruction to write OUT_REG was arithmetic and the category of its result (R720: 0 none, 2 flushed, 3 NaN, 4 infinity), and whether an instruction of the group saturated. -/
structure Lane where
  regs : List Nat
  masks : Nat
  arith : Bool
  cat : Nat
  satd : Bool
  deriving DecidableEq, Repr

/-- What a group of an element program produced (R226, R241): output bytes and, for a pair, its lo bytes; the categories of
its outputs by lane (numbers of `Lane`, and 1 saturated); the four scale bytes; poison. -/
structure GroupOut where
  hi : List Byte
  lo : List Byte
  cats : List Nat
  scales : List Nat
  poison : Bool
  deriving DecidableEq, Repr

/-- An element program in flight (R219): its words, issue tick, group cost, groups, reads to come and data read, lanes,
the carry of each XSCAN, what its groups produced, rows (hi and lo counted apart) and scale rows written so far, poison. -/
structure Elem where
  word : Nat
  cfg : Nat
  body : List Nat
  issue : Nat
  cost : Nat
  groups : Nat
  reads : List TRead
  got : List Got
  lanes : List Lane
  carries : List (Nat × Nat)
  outs : List GroupOut
  rows : Nat
  sclRows : Nat
  poison : Bool
  deriving DecidableEq, Repr

/-- A row that a receive has taken (R578): rank of its sender, its index, its bytes, and what its acknowledgement needs (device,
paddock, transfer number); whether that has been sent. -/
structure RecvRow where
  rank : Nat
  k : Nat
  bytes : List Byte
  dev : Nat
  pdk : Nat
  xid : Nat
  acked : Bool
  deriving DecidableEq, Repr

/-- A posted receive (R578): channel, rank mask, combine, mode, rows, destination rows, the transfers it has taken (rank, transfer
number), the rows that have arrived, and the destination rows that have reached the landing buffer and that have committed. -/
structure Recv where
  channel : Nat
  mask : Nat
  red : Nat
  mode : Nat
  n : Nat
  rows : List Nat
  xids : List (Nat × Nat)
  got : List RecvRow
  landed : Nat
  committed : Nat
  deriving DecidableEq, Repr

/-- Where a message goes (R561, R568): rank, device and paddock, and the port of the transfer's path; none for the paddock's
own device. -/
structure Dest where
  rank : Nat
  dev : Nat
  pdk : Nat
  port : Option Nat
  deriving DecidableEq, Repr

/-- A FETCH or PAGE_FETCH (R575, R576): pointer, destination rows, parts of rows that have landed (row index, offset in the
row, bytes, poison), rows committed, for a page its entry (R575) and whether its ACK has come, and where remote reads go. -/
structure Fetch where
  ptr : Nat
  rows : List Nat
  parts : List (Nat × Nat × List Byte × Bool)
  committed : Nat
  page : Option Nat
  acked : Bool
  dest : Option Dest
  deriving DecidableEq, Repr

/-- A WRITE or PUSH (R576, R577): its word, issue tick, pointer entry, reads to come and data read, its destinations, and
acknowledgements still to come. -/
structure Outb where
  word : Nat
  issue : Nat
  ptr : Nat
  reads : List TRead
  got : List Got
  dests : List Dest
  acks : Nat
  deriving DecidableEq, Repr

/-- A table lookup (R361 to R375): its word, slot, latched descriptor, request rows, output rows, the request rows read so far
with their poison, contributing IDs (bag, index, table row), parts of table rows that have arrived (bag, index, offset, bytes,
poison), table rows that have returned, whether CHANGED or a skipped ID is set, and output rows committed. -/
structure Lookup where
  word : Nat
  slot : Nat
  desc : List Byte
  request : List Nat
  rows : List Nat
  req : List (List Byte × Bool)
  ids : List (Nat × Nat × Nat)
  parts : List (Nat × Nat × Nat × List Byte × Bool)
  got : List (Nat × Nat × List Byte × Bool)
  changed : Bool
  skipped : Bool
  committed : Nat
  deriving DecidableEq, Repr

/-- An append transfer (R328): reads to come and data read of its map rows, whether a tile has gone with it (R206), and rows of
that tile that are still to be acknowledged. -/
structure Append where
  reads : List TRead
  got : List Got
  sent : Bool
  left : Nat
  deriving DecidableEq, Repr

/-- A block of a pass from the request of its rows on (R294, R296, R297, R305): block index, staging slot, staging rows still
to commit (keys, values), the pass clocks at which its QK tile claims and its P is ready, its scores, the narrowed P (mode 2:
p), mode 2's second operand (dP, then ds), and alpha of each row. -/
structure PassBlk where
  k : Nat
  slot : Nat
  keys : Nat
  vals : Nat
  qkAt : Option Nat
  pAt : Option Nat
  raw : List Nat
  pn : List Nat
  dp : List Nat
  alpha : List Nat
  deriving DecidableEq, Repr

/-- An attention pass (R279 to R310): the row of its descriptor and, once read, its bytes; pass clocks so far; what it latched
(descriptor of the context, epoch held); the clock at which its queries are ready, and those queries as FP32 bits; block
indices still to be requested and blocks in hand, oldest first; blocks done and skipped; the clock from which ME is free for
its next tile, and those from which staging slots are free; the running m, l and o (mode 2: dQ) as FP32 bits; what it met
(far, poison, the first dropped range); the clock of the last claim and of the end of the final scaling; rows still to be
written and rows written that have not committed; lines to memory that are not acknowledged; whether a tile failed its check. -/
structure Pass where
  row : Nat
  desc : List Byte
  clk : Nat
  meFrom : Nat
  ctx : List Byte
  epoch : Nat
  ready : Option Nat
  q : List Nat
  todo : List Nat
  blks : List PassBlk
  done : Nat
  skipped : Nat
  masked : Nat
  meFree : Nat
  slots : List (Nat × Nat)
  fetched : Nat
  m : List Nat
  l : List Nat
  o : List Nat
  farSeen : Bool
  poison : Bool
  stale : Option (Nat × Nat)
  lastClaim : Nat
  scaled : Option Nat
  outs : List (Nat × List Byte)
  landing : Nat
  lines : Nat
  deriving DecidableEq, Repr

/-- What an operation is. -/
inductive OpKind where
  | tile (t : Tile)
  | elem (e : Elem)
  | recv (r : Recv)
  | fetch (f : Fetch)
  | outb (o : Outb)
  | lookup (l : Lookup)
  | append (a : Append)
  | pass (x : Pass)
  deriving DecidableEq, Repr

/-- An operation that a stream started and that has not completed: issuing core, side, stream and position (R81), its
completion action (R142), the drawer its rows go to, and the SCH_TICK of its issue. -/
structure Op where
  id : Nat
  core : Nat
  side : Nat
  stream : Nat
  position : Nat
  done : Nat
  drawer : Option Nat
  kind : OpKind
  tick : Nat
  deriving DecidableEq, Repr

/-- A row that waits in a landing buffer for an idle tick of its bank (R50): its operation, row, data, the drawer slot it
fills, and the issuing ticks it has waited. -/
structure Arrival where
  op : Nat
  core : Nat
  stream : Nat
  row : Nat
  bytes : List Byte
  poison : Bool
  drawer : Option Nat
  waited : Nat
  deriving DecidableEq, Repr

/-- The schedule state: images by paddock and slot, runs by paddock, streams by core, side and stream, head ticks by core
and side, cores whose image is past TAIL_START, engine occupancy (the operation tick at which an engine is free) by core
and stream, slips by core, first failing clock of each waiting stream, whether the pending tick has begun to issue, how
far operation ticks run ahead of SCH_TICK (R721), slip clocks still owed to a bank conflict with their cause, signals of
the pending tick, shelf writes in flight, weights, operations
in flight, the next operation's number, arrivals by age, gated cores, the SCH_TICK of the last arriver of each stile by core (R147), append buffers by core and outbound mover,
decode steps in the order taken. -/
structure Sched where
  images : Tbl (Option Image)
  runs : Tbl PdkRun
  streams : Tbl Stream
  heads : Tbl (Option Nat)
  tails : Tbl Bool
  busy : Tbl Nat
  slips : Tbl (Option Slip)
  waits : Tbl (Option Nat)
  opened : Tbl Bool
  shift : Tbl Nat
  owed : Tbl (Nat × Nat)
  ends : Tbl (List EndSig)
  commits : Tbl (List Commit)
  acts : Tbl (List Act)
  ops : List Op
  nextOp : Nat
  arrivals : List Arrival
  gated : Tbl Bool
  arriveAt : Tbl Nat
  appBufs : Tbl (List AppTile)
  steps : List Step
  deriving DecidableEq, Repr

/-! ### Line transactions and messages -/

/-- What a line transaction is for: part of row `k` of a FETCH at an offset, row `k` of a WRITE or PUSH, the head of a
READ_REQ that fetches lines, row `k` of table bag entry (operation, bag, index in the bag, row index), a read of a pass
(operation, what), row `k` of an append tile, a line of job `j` of the page server, or a message that asks for nothing more. -/
inductive LineUse where
  | fetch (op k off : Nat)
  | outb (op k : Nat)
  | table (op bag idx row : Nat)
  | pass (op what : Nat)
  | append (id k : Nat)
  | serve (job k : Nat)
  | msg
  deriving DecidableEq, Repr

/-- A line transaction or a request for one (R389, R390): paddock, source in the order of R124, whether it writes, its
pointer and length, the data of a write and their poison, a message to send, what it is for, whether its charge has been
admitted, whether it has issued, far requests sent (R444), failed tries (R395), the status of an access that is not
performed (R400, R446), and whether the link has acknowledged its message (R573). -/
structure Line where
  id : Nat
  pdk : Nat
  src : Nat
  write : Bool
  ptr : Nat
  len : Nat
  data : List Byte
  poison : Bool
  msg : Option (Option Nat × Msg)
  use : LineUse
  admitted : Bool
  issued : Bool
  sent : Nat
  tries : Nat
  dead : Nat
  acked : Bool
  deriving DecidableEq, Repr

/-- A pushed row in the early-arrival store (R579): rank of its sender, its message, and the timebase of its arrival. -/
structure Early where
  rank : Nat
  msg : Msg
  since : Nat
  deriving DecidableEq, Repr

/-- A message that waits for a port or is in flits on it (R523, R531): port, owner code, VL, flits left, and the line transaction
that it belongs to. -/
structure TxMsg where
  port : Nat
  owner : Nat
  vl : Nat
  msg : Msg
  left : Nat
  line : Option Nat
  deriving DecidableEq, Repr

/-- A remote read or page request that a paddock answers (R576, R582): number, paddock, the request, the epoch that it holds (0 for
none), rows that have not been sent, the status of its ACK, and T_p. -/
structure PageJob where
  id : Nat
  pdk : Nat
  msg : Msg
  epoch : Nat
  left : Nat
  status : Nat
  tokens : Nat
  deriving DecidableEq, Repr

/-- A data flit in a port's retry buffer (R534): sequence number, VL, owner, valid payload, how often it has been sent, its message,
and the line transaction whose last flit it is. -/
structure Retained where
  seq : Nat
  vl : Nat
  owner : Nat
  bytes : List Byte
  sends : Nat
  msg : Msg
  line : Option Nat
  deriving DecidableEq, Repr

/-- A pod port beside its registers (chapter 18). Training: step (0 none), its start, trainings abandoned, whether the last one
failed in step 5. Transmitter: next slot, table and STRICT that wait for slot 0, next VL of each paddock, next paddock offered,
next pool reported, next SEQ, retry buffer, the sequence numbers that a replay has still to send and whether its first flit is
to come, NAK_ID last acted on, last ACK received, flit times so far, a resume marker to send. Receiver: next SEQ expected, NAK,
NAK_ID and flit times since it rose, partial messages and bytes of held flits by VL and owner, messages delivered and not yet
consumed (VL, owner, message). Credits by pool: own cumulative count, returns withheld, the peer's count last reported, flits
sent. Times of credit violations and of authentication failures; time of the last good flit or training sequence; lane changes;
transmit and receive flit counts under the keys; whether a rekey runs and the slot the peer is ready for; the IDLE handshake
(0 none, 1 asked); TIME messages sent, T_TX of the last received and its arrival, good exchanges in a row; the peer's identity
digest and whether it requires encryption; whether its last TIME message showed LOCKED; the SPDM message in assembly. -/
structure Port where
  step : Nat
  since : Nat
  tries : Nat
  authTry : Bool
  slot : Nat
  newSlots : Option (List Nat × Nat)
  vlNext : Tbl Nat
  offer : Nat
  poolNext : Nat
  seqNext : Nat
  retry : List Retained
  replay : List Nat
  replayFirst : Bool
  nakSeen : Nat
  ackGot : Nat
  flits : Nat
  resume : Bool
  seqWant : Nat
  nak : Bool
  nakId : Nat
  nakWait : Nat
  partials : Tbl (List Byte)
  heldBytes : Tbl (List Nat)
  inbox : List (Nat × Nat × Msg)
  rxCount : Tbl Nat
  withheld : Tbl Nat
  txCount : Tbl Nat
  txSent : Tbl Nat
  violations : List Nat
  authFails : List Nat
  goodAt : Nat
  mapEpoch : Nat
  txFlits : Nat
  rxFlits : Nat
  rekeying : Bool
  peerReady : Option Nat
  idle : Nat
  timeSeq : Nat
  echo : Nat × Nat
  goodTimes : Nat
  digest : List Byte
  peerEncrypt : Bool
  peerLocked : Bool
  spdm : List Byte
  deriving DecidableEq, Repr

/-- Transactions and messages: requests and transactions in the order in which they arose, the next number, the source that issued
last plus one by paddock, messages in flight on the die, messages at ports, early-arrival stores by core, page-server jobs and
their next number, mirror messages not yet acknowledged (paddock, number), mirror messages sent by paddock, the timebase of
the last beat received by paddock, the designated ports of the mirror pair, the pod ports, the correction of the timebase that is
still to be made in ns (R547), and whether its first step has been used. -/
structure Net where
  lines : List Line
  nextLine : Nat
  lastSrc : Tbl Nat
  die : List Msg
  tx : List TxMsg
  early : Tbl (List Early)
  jobs : List PageJob
  nextJob : Nat
  mirror : List (Nat × Nat)
  mirrorSent : Tbl Nat
  beatAt : Tbl Nat
  mirrorPorts : Nat
  ports : Tbl Port
  slew : Int
  stepped : Bool
  deriving DecidableEq, Repr

/-! ### The context store (chapter 11) -/

/-- A limbo entry (R327): paddock, kind (0 HBM page, 1 far page, 2 table node), page number or node pointer, tag. -/
structure Limbo where
  pdk : Nat
  kind : Nat
  id : Nat
  tag : Nat
  deriving DecidableEq, Repr

/-- To whom the end of an append row is told (R328, R336): a transfer of this device, or the sender of a message. -/
inductive AppBack where
  | op (id : Nat)
  | msg (m : Msg)
  deriving DecidableEq, Repr

/-- An append row that has resolved its pages and has not committed (R326, R332): number, paddock, context, epoch held, lines
that are not done, mirror messages that are not acknowledged (R586). -/
structure AppRow where
  id : Nat
  pdk : Nat
  ctx : Nat
  epoch : Nat
  lines : Nat
  mirrors : List Nat
  back : AppBack
  deriving DecidableEq, Repr

/-- A page move (R341): its command (none for an automatic one), paddock, context, direction, token pages still to move (the head
is in progress), the pages of that one (directory entry, source, target), the append rows that were in flight when MOVING was
set, whether the copy has started, and pages moved so far. -/
structure Move where
  h : Option Hdr
  pdk : Nat
  ctx : Nat
  toFar : Bool
  todo : List Nat
  pages : List (Nat × Nat × Nat)
  waits : List Nat
  copying : Bool
  moved : Nat
  deriving DecidableEq, Repr

/-- The context store beside what HBM holds of it: limbo, oldest first; live nodes by paddock and table page; the tags of the
descriptor cache by paddock and set (context plus one: R316); append rows in flight and their next number; page moves in
progress; edits that wait, by paddock, oldest first (R324, R327); paddocks in automatic demotion (R343); completions that wait
for mirror acknowledgements (command, status, RESULT: R586); CTX_PLACE commands that wait with the rows they wait for; the paddock after the one that
the sorting assist served last (R18). -/
structure Kv where
  limbo : List Limbo
  nodes : Tbl Nat
  cache : Tbl Nat
  rows : List AppRow
  nextRow : Nat
  moves : List Move
  edits : Tbl (List (Hdr × Instr))
  demoting : Tbl Bool
  held : List (Hdr × Nat × Nat)
  places : List (Hdr × List Nat)
  assist : Nat
  deriving DecidableEq, Repr

/-! ### Memory systems -/

/-- Error handling of HBM and the far tier: demand queues of the Mowers by group (line, whether to confirm: R413), correctable
errors of a line by group and line (R420), marked lines, copies in progress to a spare by group (line, spare), the repair list in
flash (group, line), raw test sectors (R431) by channel, test line and sector, the calibration period that was in force and
the timebase until which it is (R407), the start of the scrub or re-key pass by group, the line of the pass by group, groups
that are being zeroised, the far key by paddock and the far key under which a far sector was written (R439, R440), the far slot
tables in force by port and slot and STRICT by port (R448), the retrains of a far port in progress (number, start), the paddock
that a port's idle slots served last plus one by port and direction (R444), and keys issued by paddock (R427). -/
structure MemSys where
  demand : Tbl (List (Nat × Bool))
  ces : Tbl Nat
  marked : Tbl Bool
  repair : List (Nat × Nat)
  raw : Tbl (Option (List Byte × Nat))
  calOld : Nat
  calUntil : Nat
  passStart : Tbl Nat
  zero : Tbl Bool
  farKey : Tbl Nat
  farSeal : Tbl Nat
  farSlots : Tbl (Option (List Nat × Bool))
  farTries : Tbl Nat
  farSince : Tbl Nat
  farLast : Tbl Nat
  keyIds : Tbl Nat
  deriving DecidableEq, Repr

/-- A self-test that runs (R667): its command, KIND, UNIT and start. -/
structure Test where
  h : Hdr
  kind : Nat
  unit : Nat
  since : Nat
  deriving DecidableEq, Repr

/-- Reliability state: self-tests in progress, times of the interface failures of the last second by channel (R661), physical
cores and processors that are marked failed (R660, R662), and the physical processor that serves each paddock plus one where it
is not its own (R662), handovers since power-on by paddock (R598), and by physical core the column that its spare column stands in
for plus one (R214) and the lanes that its spare lanes stand in for (R250). -/
structure Rel where
  tests : List Test
  fails : Tbl (List Nat)
  badCores : Tbl Bool
  badProcs : Tbl Bool
  procs : Tbl Nat
  handovers : Tbl Nat
  cols : Tbl Nat
  lanes : Tbl (List Nat)
  deriving DecidableEq, Repr

/-! ### The current budget -/

/-- An untimed event that is held or has been admitted (R124): its source in the order of R124 (0 to 95 streams, 96 to 103
patrols, 104 the Mower, 105 the page server, 106 the command processor), its charge, and what names it. -/
structure Held where
  src : Nat
  weight : Nat
  tag : List Nat
  deriving DecidableEq, Repr

/-- The budget (chapter 04): core clocks since power-on, untimed charges of the last clocks by paddock (newest first), events
held and admitted by paddock (oldest first), the source visited last plus one, droop stretches by die (clock of the first
and of the last trip), paddocks whose last clock was a governor stall, and the charges of the last ticks and clocks of a
core: [0, c] the ticks (newest first, each 2 × charge + 1 when a governor stall came since the tick before), [1, c] the
clocks. -/
structure Bud where
  clock : Nat
  uwin : Tbl (List Nat)
  held : Tbl (List Held)
  admitted : Tbl (List Held)
  last : Tbl Nat
  droop : Tbl (Option (Nat × Nat))
  stalled : Tbl Bool
  charges : Tbl (List Nat)
  deriving DecidableEq, Repr

/-! ### Shelf stores -/

/-- The patrol of a bank (R57): next row, full passes, core clock at the start of the pass, length of the last pass, a
corrected row waiting to be written back, and the ticks in a row in which the bank had no idle tick. -/
structure Patrol where
  next : Nat
  passes : Nat
  started : Nat
  last : Nat
  fix : Option (Nat × List Byte)
  idle : Nat
  deriving DecidableEq, Repr

/-- Shelf state that no register shows: drawer slots by core, drawer and slot (0 free, 1 claimed, 2 valid), correctable
errors by core and bank row (the tracker of R59), marked rows by core, bank and bank row, patrols by core and bank, the
tray slots' bytes (core × 0x40000 + slot × 0x10000), the operation tick from which a tray slot is readable (R72), core
clocks by core, the banks that untimed accesses have used in this clock, how many of them were arrivals, and by physical
core, bank and spare the bank row that the spare stands in for, plus one (R60). -/
structure Shelf where
  slots : Tbl Nat
  tracker : Tbl Nat
  marked : Tbl Bool
  patrols : Tbl Patrol
  tray : Mem
  trayAt : Tbl Nat
  used : Tbl (List Nat)
  landed : Tbl Nat
  spares : Tbl Nat
  deriving DecidableEq, Repr

/-! ### Memories -/

/-- The memories: HBM by DPA, the far tier by port and offset, shelf stores by core, row and byte, working stores by core
and byte; and which sectors, rows and lines hold poison. -/
structure Mems where
  hbm : Mem
  far : Mem
  shelf : Mem
  ws : Mem
  hbmPoison : Tbl Bool
  farPoison : Tbl Bool
  shelfPoison : Tbl Bool
  wsPoison : Tbl Bool
  deriving DecidableEq, Repr

/-! ### Host interface and commands -/

/-- A host window (R463). -/
structure Window where
  valid : Bool
  read : Bool
  write : Bool
  pin : Bool
  pasidEn : Bool
  pasid : Nat
  base : Nat
  size : Nat
  deriving DecidableEq, Repr

/-- A translation entry (R466): function, address space (the PASID, or none), range, permissions, whether a pinned window
owns it, and whether an invalidation has stopped it (R472). -/
structure Xent where
  fn : Nat
  pasid : Option Nat
  base : Nat
  size : Nat
  read : Bool
  write : Bool
  stopped : Bool
  deriving DecidableEq, Repr

/-- A host page that a command needs (R467): address space, page address, and whether it is written. -/
structure Page where
  pasid : Option Nat
  addr : Nat
  write : Bool
  deriving DecidableEq, Repr

/-- How far a taken command is (R467, R474, R475, R493): waiting in its executor, waiting for translation, in the fault
queue, in fault wait, or executing. -/
inductive Phase where
  | waiting | translating | faultQueue | faultWait | executing
  deriving DecidableEq, Repr

/-- A command that has been taken and has not completed. `cmd` is the command as its packet spells it; `prog` holds the
numbers that a long command keeps between its steps. -/
structure Taken where
  h : Hdr
  op : Nat
  cmd : Option Instr
  phase : Phase
  since : Nat
  pages : List Page
  prog : List Nat
  deriving DecidableEq, Repr

/-- PCIe configuration state of a function (R449, R455): ATS, PRI and PASID enables, Memory Space Enable, BAR0 address,
and whether a Response Failure has stopped PRI (R476). -/
structure FnCfg where
  ats : Bool
  pri : Bool
  pasid : Bool
  memSpace : Bool
  bar0 : Nat
  priStopped : Bool
  deriving DecidableEq, Repr

/-- The host side: windows by function and number, translation entries, configuration by function, NumVFs and VF Enable,
MSI-X mask and pending bits and table words by function and vector, the enables that PF 0 wrote before READY (R687), the
high half that a low-half read latched by function (R6), functions whose next event record carries LOST (R500), VFs of
which a queue has been enabled since the last handover (R607), and SQs held by a FENCE (R494). -/
structure HostIf where
  windows : Tbl Window
  xents : List Xent
  cfg : Tbl FnCfg
  numVfs : Nat
  vfEnable : Bool
  masked : Tbl Bool
  msgPending : Tbl Bool
  msixTable : Tbl Nat
  held : List Nat
  readLatch : Tbl Nat
  lostEvent : Tbl Bool
  freshEnable : Tbl Bool
  fenced : Tbl Bool
  deriving DecidableEq, Repr

/-! ### The root of trust (chapter 20) -/

/-- A flash bank's firmware image (R615): SVN, the digests of its components 2 to 5, and the digest of the image. -/
structure FwBank where
  svn : Nat
  digests : List (List Byte)
  digest : List Byte
  deriving DecidableEq, Repr

/-- An SPDM session (R603, R604): the function that it is bound to (0 for PF 0). -/
structure Sess where
  bound : Option Nat
  deriving DecidableEq, Repr

/-- The root of trust: sessions by transport (0 DOE, 1 MCTP, 2 pod link) and slot; programmed IDE key sets by port index,
sub-stream, direction (0 receive, 1 transmit) and set, and the set in use plus one by port index, sub-stream and direction; the
nonce of the lock response by VF; VFs whose STOP_INTERFACE_REQUEST waits for its handover. Flash: banks, the bank marked active,
whether the other one holds a staged image. Fuses: MIN_SVN, raises left, DEBUG_EPOCH, LIFECYCLE, digest of the owner key,
serial. Boot: recovery (R595), the digests at measurement indices 1 to 5. Debug: challenge outstanding (nonce, expiry), the scope
that waits for zeroisation (R624). The owner key digest that index 6 shows is the one of the last boot (R598). -/
structure Trust where
  sessions : Tbl (Option Sess)
  ideKeys : Tbl (Option (List Byte))
  ideSet : Tbl Nat
  nonces : Tbl (List Byte)
  stopping : Tbl Bool
  banks : Tbl FwBank
  active : Nat
  staged : Bool
  minSvn : Nat
  commitsLeft : Nat
  debugEpoch : Nat
  lifecycle : Nat
  owner : Option (List Byte)
  serial : List Byte
  recovery : Bool
  measured : List (List Byte)
  challenge : Option (List Byte × Nat)
  opening : Option Nat
  ownerMeas : Option (List Byte)
  deriving DecidableEq, Repr

/-! ### Paddocks -/

/-- A handover in progress (R33): whether it ends in FREE (else ASSIGNED), its step, the timebase at its start, whether a
VF FLR asked for it and a resource failure seen so far. -/
structure Hand where
  toFree : Bool
  step : Nat
  start : Nat
  flr : Bool
  failed : Bool
  short : Bool
  deriving DecidableEq, Repr

/-- The pins and clocks outside the registers (R674 to R690, R707): PWRGD, PERST_N and KILL_N levels, ALERT_N, the core
clock's phase inside a nanosecond in units of 1 / CORE_MHZ µs, the dynamic I3C address (R710), whether the host drives its
reference clock, the SLOT_ID straps, the milliseconds since PWRGD that the stages of power-on have taken (R686), and the timebase
from which the reset in progress is timed (R683). -/
structure Pins where
  pwrgd : Bool
  perstN : Bool
  killN : Bool
  alertN : Bool
  phase : Nat
  i3cAddr : Option Nat
  hostRefclk : Bool
  slotId : Nat
  upMs : Nat
  resetSince : Nat
  deriving DecidableEq, Repr

/-! ### Sward dumps -/

/-- The dump configuration of a paddock (R646). -/
structure DumpCfg where
  ptr : Nat
  bytes : Nat
  auto : Bool
  byPf : Bool
  deriving DecidableEq, Repr

/-- The cut of a core (R641): core offset, SCH_TICK, timebase, and its five records without the numbers of R648. -/
structure Cut where
  core : Nat
  tick : Nat
  time : Nat
  records : List (Nat × List Byte)
  deriving DecidableEq, Repr

/-- A Sward dump (R638 to R645): the HALT_DUMP that asked for it, the buffer and whose it is, the cause and what the header
records of the trigger, the cuts taken, and the bytes of the dump once captured. -/
structure Dump where
  h : Option Hdr
  byPf : Bool
  ptr : Nat
  bytes : Nat
  cause : Nat
  time : Nat
  pstat : Nat
  core : Nat
  stream : Nat
  position : Nat
  expected : Nat
  found : Nat
  cuts : List Cut
  captured : Bool
  image : List Byte
  deriving DecidableEq, Repr

/-- The state of the block: the queue of waiting commands, the register fields, memories, schedules, line transactions and
messages, memory systems, reliability, the root of trust, budget, shelf stores, taken commands, host interface, handovers, dumps, masked faults by class and unit (first of the second, number: R671),
rotary table entries by paddock, table and pair (R273), table descriptors by paddock and slot (R353; all zeros when
absent), pins, what has been sent, and the counter of free values (the model's own). -/
structure State where
  pending : List Instr
  regs : Tbl Nat
  mem : Mems
  sched : Sched
  net : Net
  kv : Kv
  msys : MemSys
  rel : Rel
  trust : Trust
  bud : Bud
  shelf : Shelf
  taken : List Taken
  host : HostIf
  hand : Tbl (Option Hand)
  dumpCfgs : Tbl (Option DumpCfg)
  dumps : Tbl (Option Dump)
  logged : Tbl (Nat × Nat)
  rotary : Tbl Nat
  tables : Tbl (List Byte)
  pins : Pins
  out : List Out
  free : Nat
  deriving DecidableEq, Repr

/-- The state at reset: module power-on with PWRGD just asserted (R681, R686). Every register field reads its reset value
(R7), no memory byte is listed, every queue is empty, and every paddock is in the handover that power-on starts (R37). -/
def State.reset : State where
  pending := []
  regs := []
  mem := ⟨[], [], [], [], [], [], [], []⟩
  sched := ⟨[], [], [], [], [], [], [], [], [], [], [], [], [], [], [], 0, [], [], [], [], []⟩
  net := ⟨[], 0, [], [], [], [], [], 0, [], [], [], 0, [], 0, false⟩
  kv := ⟨[], [], [], [], 0, [], [], [], [], [], 0⟩
  msys := ⟨[], [], [], [], [], 32, 0, [], [], [], [], [], [], [], [], []⟩
  rel := ⟨[], [], [], [], [], [], [], []⟩
  trust := ⟨[], [], [], [], [], [], 0, false, 0, 64, 0, 1, none, List.replicate 16 0, false, [], none, none, none⟩
  bud := ⟨0, [], [], [], [], [], [], []⟩
  shelf := ⟨[], [], [], [], [], [], [], [], []⟩
  taken := []
  host := ⟨[], [], [], 0, false, [], [], [], [], [], [], [], []⟩
  hand := (List.range 16).map (fun p => ([p], some ⟨true, 1, 0, false, false, false⟩))
  dumpCfgs := []
  dumps := []
  logged := []
  rotary := []
  tables := []
  pins := ⟨true, false, true, true, 0, none, false, 0, 0, 0⟩
  out := []
  free := 0

end Sys2Proof.Machine
end

