-- ==== Sys2Proof/Machine/Ops.lean ====
section
/-! DEFINITION. The named operations over registers and memory that every meaning uses: reading and writing register fields,
counters, outputs, completion and event records, and the abort of a paddock's schedules. -/

namespace Sys2Proof.Machine

/-- Reset value of index `j` of field `f` in block instance `i` (R7). -/
def fldReset (f : Fld) (i j : Nat) : Nat :=
  match f.rst with
  | .val n => n
  | .inst => i
  | .instPlus1 => i + 1
  | .idxMod16 => j % 16
  | .slotDefault => if j = 0 ∨ j = 32 then 0x10 else 0x1F
  | .open_ n => n

/-- The value that index `j` of field `f` holds in block instance `i`. -/
def State.rd (s : State) (f : Fld) (i : Nat) (j : Nat := 0) : Nat :=
  tget (fldReset f i j) s.regs [f.id, i, j]

/-- The state with the low bits of `v` stored in index `j` of field `f`, block instance `i`. -/
def State.wr (s : State) (f : Fld) (i : Nat) (v : Nat) (j : Nat := 0) : State :=
  { s with regs := tset (fldReset f i j) s.regs [f.id, i, j] (v % 2 ^ f.width) }

/-- The state with every register field back at its reset value of which `p` holds (field, instance, index). -/
def State.resetFlds (s : State) (p : Fld → Nat → Nat → Bool) : State :=
  { s with regs := tclear (fun k => match k with
      | [id, i, j] => (allFlds[id]?).any (fun f => p f i j)
      | _ => false) s.regs }

/-- Largest COUNT of a 48-bit counter (R630). -/
def maxCount : Nat := 0xFFFFFFFFFFFF

/-- The OVF field that stands in front of a COUNT field of the same register. -/
def ovfOf (f : Fld) : Fld := { f with id := f.id - 1, lo := 63, width := 1 }

/-- Adding `n` to the counter whose COUNT field is `f`: it sticks at its maximum and sets OVF (R630). -/
def State.bump (s : State) (f : Fld) (i : Nat) (j : Nat := 0) (n : Nat := 1) : State :=
  let c := s.rd f i j + n
  if maxCount < c then (s.wr f i maxCount j).wr (ovfOf f) i 1 j else s.wr f i c j

/-- Adding `n` to a field that saturates at its largest value. -/
def State.satAdd (s : State) (f : Fld) (i : Nat) (n : Nat := 1) (j : Nat := 0) : State :=
  s.wr f i (min (s.rd f i j + n) (2 ^ f.width - 1)) j

/-- The timebase (R636). -/
def State.now (s : State) : Nat := s.rd F.CNT_TIMEBASE_TIME 0

/-- A number of steps over 0, 1, …, n − 1 in turn. -/
def loopN (n : Nat) (f : Nat → State → State) (s : State) : State :=
  (List.range n).foldl (fun t i => f i t) s

/-- A free value: the next of the opaque sequence; the state's own counter advances (log entry 4). -/
def State.tick (s : State) : State := { s with free := s.free + 1 }

/-- Sends `o`. -/
def State.emit (s : State) (o : Out) : State := { s with out := s.out ++ [o] }

/-! ### Paddocks and functions -/

/-- Life-cycle codes of a paddock (R26). -/
def pdkFree : Nat := 0
def pdkAssigned : Nat := 1
def pdkActive : Nat := 2
def pdkQuiesced : Nat := 3
def pdkHandover : Nat := 4
def pdkOffline : Nat := 5

/-- State of paddock `p` (R26). -/
def State.pdkState (s : State) (p : Nat) : Nat := s.rd F.PDK_STATE_STATE p

/-- Role of paddock `p`: 0 prompt, 1 generate, 2 cache (R20). -/
def State.role (s : State) (p : Nat) : Nat := s.rd F.PDK_STATE_ROLE p

/-- The VF that serves paddock `p`, and the paddock that a VF serves (R454). -/
def vfOf (p : Nat) : Nat := p + 1
def pdkOf (fn : Nat) : Nat := fn - 1

/-- A bit of CLK_STAT.LOCK (R675). -/
def State.setLock (s : State) (bit : Nat) (on : Bool) : State :=
  let m := s.rd F.CLK_STAT_LOCK 0
  s.wr F.CLK_STAT_LOCK 0 (if on then setBit m bit else clrBit m bit)

/-- The paddock a command acts on: its VF's own, or the one PF 0 names in PADDOCK (R488). -/
def paddockOf (h : Hdr) : Nat := if h.fn.val = 0 then h.pdk % 16 else pdkOf h.fn.val

/-- Paddock and core offset of a logical core (R11). -/
def corePdk (c : Nat) : Nat := c / 8
def coreOff (c : Nat) : Nat := c % 8

/-- Die of a logical core and of a paddock: paddocks 0 to 7 lie on C-die 0 (R11). -/
def pdkDie (p : Nat) : Nat := p / 8

/-- Physical core that logical core `c` maps to (PDK_CORES). -/
def physFld (i : Nat) : Fld :=
  (([F.PDK_CORES_PHYS0, F.PDK_CORES_PHYS1, F.PDK_CORES_PHYS2, F.PDK_CORES_PHYS3, F.PDK_CORES_PHYS4,
     F.PDK_CORES_PHYS5, F.PDK_CORES_PHYS6, F.PDK_CORES_PHYS7] : List Fld)[i]?).getD F.PDK_CORES_PHYS0
def State.phys (s : State) (c : Nat) : Nat := s.rd (physFld (coreOff c)) (corePdk c)

/-- Whether nothing may be written to the queues of function `fn`: the module has no power (R690), a PERST_N or PF FLR reset is in
progress (R683), or its paddock is in HANDOVER (R32). -/
def State.quiet (s : State) (fn : Nat) : Bool :=
  !s.pins.pwrgd || (s.rd F.RST_STATUS_IN_RESET 0 = 1 && s.rd F.RST_STATUS_LAST 0 != 0) ||
  (fn != 0 && s.pdkState (pdkOf fn) = pdkHandover)

/-- Whether BAR0 of function `fn` answers reads with all ones and discards writes: its paddock is FREE or in HANDOVER
(R26, R32). -/
def State.barClosed (s : State) (fn : Nat) : Bool :=
  fn != 0 && (s.pdkState (pdkOf fn) = pdkFree || s.pdkState (pdkOf fn) = pdkHandover)

/-! ### Interrupts, completions, events -/

/-- Sends an MSI-X message, or sets the pending bit of a masked vector (R460). A vector is masked after reset, as PCIe
defines it (PRESUMED: log entry 7). -/
def State.msix (s : State) (fn vec : Nat) : State :=
  if tget true s.host.masked [fn, vec] then
    { s with host := { s.host with msgPending := tset false s.host.msgPending [fn, vec] true } }
  else s.emit (.msix fn vec)

/-- Warnings are the codes 0x0100 to 0x01FF; every other non-zero code is an error (R506). -/
def isError (status : Nat) : Bool := status != 0 && !(0x100 ≤ status && status ≤ 0x1FF)

/-- The taken command of a header. -/
def Taken.is (t : Taken) (h : Hdr) : Bool := t.h.fn == h.fn && t.h.q == h.q && t.h.cid == h.cid
def State.findTaken (s : State) (h : Hdr) : Option Taken := s.taken.find? (fun t => t.is h)

/-- The list without its first element of which `p` holds. -/
def removeFirst {α : Type} (p : α → Bool) : List α → List α
  | [] => []
  | x :: xs => if p x then xs else x :: removeFirst p xs

/-- A command stops being outstanding: OUTSTANDING and IDLE of its pair follow (R508). -/
def State.dropTaken (s : State) (h : Hdr) : State :=
  match s.findTaken h with
  | none => s
  | some _ =>
    let s := { s with taken := removeFirst (fun t => t.is h) s.taken }
    if h.q.val = 8 then s
    else
      let n := s.rd F.CMQ_SQ_HEAD_OUTSTANDING h.fn.val h.q.val - 1
      let s := s.wr F.CMQ_SQ_HEAD_OUTSTANDING h.fn.val n h.q.val
      if n = 0 ∧ s.rd F.CMQ_CFG_EN h.fn.val h.q.val = 0 then s.wr F.CMQ_CFG_IDLE h.fn.val 1 h.q.val else s

/-- A completion queue: base, tail, PHASE of the next record, entries and MSI-X vector of queue `q` of function `fn`. -/
def State.cqBase (s : State) (fn q : Nat) : Nat :=
  if q = 8 then s.rd F.CMQ_PCQ_BASE_POINTER fn else s.rd F.CMQ_CQ_BASE_POINTER fn q
def State.cqTail (s : State) (fn q : Nat) : Nat :=
  if q = 8 then s.rd F.CMQ_PCQ_TAIL_INDEX fn else s.rd F.CMQ_CQ_TAIL_INDEX fn q
def State.cqPhase (s : State) (fn q : Nat) : Nat :=
  if q = 8 then s.rd F.CMQ_PCQ_TAIL_PHASE fn else s.rd F.CMQ_CQ_TAIL_PHASE fn q
def State.cqEntries (s : State) (fn q : Nat) : Nat :=
  if q = 8 then 8 else s.rd F.CMQ_CFG_CQ_SIZE_M1 fn q + 1
def State.cqVector (s : State) (fn q : Nat) : Nat :=
  if q = 8 then s.rd F.CMQ_PQ_CFG_VECTOR fn else s.rd F.CMQ_CFG_VECTOR fn q

/-- The 32 bytes of a completion record (R490): RESULT is 96 bits with NUM_SATURATED in its low four, NUMERIC 128. -/
def completionRecord (phase cid status result num : Nat) : List Byte :=
  leBytes (cid % 4096 + 0x8000 * phase) 2 ++ leBytes status 2 ++ leBytes result 12 ++ leBytes num 16

/-- Moves the tail of a completion queue on; PHASE inverts when it wraps to entry 0 (R487). -/
def State.advanceCq (s : State) (fn q : Nat) : State :=
  let t := (s.cqTail fn q + 1) % s.cqEntries fn q
  let ph := if t = 0 then 1 - s.cqPhase fn q else s.cqPhase fn q
  if q = 8 then (s.wr F.CMQ_PCQ_TAIL_INDEX fn t).wr F.CMQ_PCQ_TAIL_PHASE fn ph
  else (s.wr F.CMQ_CQ_TAIL_INDEX fn t q).wr F.CMQ_CQ_TAIL_PHASE fn ph q

/-- RESULT as the record carries it: an error other than 0x0607 carries zeros above NUM_SATURATED, unless the command's
layout keeps it (R491). -/
def resultOf (status result : Nat) (keep : Bool) : Nat :=
  if isError status && status != 0x607 && !keep then result % 16 else result

/-- Completes the command of header `h`: it stops being outstanding, its record is written at the tail of its queue's CQ
with the PHASE of R487, the counters count it, and the vector is sent unless NO_IRQ (R487, R490). Nothing is written
while the function's queues are quiet (R32, R683). -/
def State.complete (s : State) (h : Hdr) (status : Nat) (result : Nat := 0) (num : Nat := 0)
    (keep : Bool := false) : State :=
  let s := s.dropTaken h
  if s.quiet h.fn.val then s
  else
    let fn := h.fn.val
    let q := h.q.val
    let rec_ := completionRecord (s.cqPhase fn q) h.cid status (resultOf status result keep) num
    let s := s.emit (.completion fn q (s.cqBase fn q + 32 * s.cqTail fn q) rec_)
    let s := s.advanceCq fn q
    let s := s.bump F.CMQ_DONE_COUNT fn
    let s := if isError status then s.bump F.CMQ_FAILED_COUNT fn else s
    if h.noIrq then s else s.msix fn (s.cqVector fn q)

/-- The detail word of an event record: byte `o` (0x10 to 0x1F) holds the low bytes of `v`. -/
def detailAt (o v : Nat) : Nat := v * 2 ^ (8 * (o - 0x10))

/-- The 32 bytes of an event record (R500). -/
def eventRecord (phase lost code status time detail : Nat) : List Byte :=
  leBytes (code % 256 + 0x4000 * lost + 0x8000 * phase) 2 ++ leBytes status 2 ++ leBytes 0 4 ++ leBytes time 8 ++
    leBytes detail 16

/-- Entries of the EQ of a function, and how many records it holds unreleased (R485). -/
def State.eqEntries (s : State) (fn : Nat) : Nat := s.rd F.CMQ_EQ_CFG_SIZE_M1 fn + 1
def State.eqHeld (s : State) (fn : Nat) : Nat :=
  (s.rd F.CMQ_EQ_TAIL_INDEX fn + s.eqEntries fn - s.rd F.CMQ_EQ_HEAD_INDEX fn) % s.eqEntries fn

/-- Sends event `code` to function `fn`: a record at the tail of its EQ and the EQ's vector; dropped and counted in
CMQ_EQ_LOST when the EQ is full or not enabled, and the next record then has LOST set (R500). In a PF record byte 0x1F
holds the paddock, or 0xFF for none. -/
def State.event (s : State) (fn code status detail : Nat) (pdk : Nat := 0xFF) : State :=
  if s.quiet fn then s
  else if s.rd F.CMQ_EQ_CFG_EN fn = 0 ∨ s.eqHeld fn + 1 ≥ s.eqEntries fn then
    let s := s.bump F.CMQ_EQ_LOST_COUNT fn
    { s with host := { s.host with lostEvent := tset false s.host.lostEvent [fn] true } }
  else
    let lost := b2n (tget false s.host.lostEvent [fn])
    let d := if fn = 0 then detail % 2 ^ 120 + pdk % 256 * 2 ^ 120 else detail
    let t := s.rd F.CMQ_EQ_TAIL_INDEX fn
    let ph := s.rd F.CMQ_EQ_TAIL_PHASE fn
    let s := s.emit (.event fn (s.rd F.CMQ_EQ_BASE_POINTER fn + 32 * t) (eventRecord ph lost code status s.now d))
    let s := { s with host := { s.host with lostEvent := tset false s.host.lostEvent [fn] false } }
    let t' := (t + 1) % s.eqEntries fn
    let s := s.wr F.CMQ_EQ_TAIL_INDEX fn t'
    let s := if t' = 0 then s.wr F.CMQ_EQ_TAIL_PHASE fn (1 - ph) else s
    s.msix fn (s.rd F.CMQ_EQ_CFG_VECTOR fn)

/-- An event to the VF of paddock `p` and to PF 0. -/
def State.eventBoth (s : State) (p code status detail : Nat) : State :=
  (s.event (vfOf p) code status detail).event 0 code status detail p

/-- The device error log (R671): a DEVICE_ERROR event to PF 0. Masked faults of one class and unit beyond 16 in one second are
not logged, and the next record carries LOST; the second runs from the first of them (log entry 15). -/
def State.deviceError (s : State) (cls : Nat) (masked : Bool) (unit addr status pdk : Nat) : State :=
  let (t0, n) := tget (0, 0) s.logged [cls, unit]
  let fresh := decide (t0 + 1000000000 ≤ s.now) || n = 0
  let n' := if fresh then 1 else n + 1
  if masked ∧ 16 < n' then
    let s : State := { s with logged := tset (0, 0) s.logged [cls, unit] (t0, n') }
    { s with host := { s.host with lostEvent := tset false s.host.lostEvent [0] true } }
  else
    let s : State := if masked then { s with logged := tset (0, 0) s.logged [cls, unit] (if fresh then s.now else t0, n') } else s
    s.event 0 0x60 status (detailAt 0x10 cls + detailAt 0x11 (b2n masked) + detailAt 0x12 (unit % 65536) +
      detailAt 0x14 (addr % 2 ^ 64)) pdk

/-! ### Taken commands -/

/-- The command of header `h` counts as taken and executing: an entry that PACKET_TAKE made is updated, otherwise one is
made (R493). -/
def State.start (s : State) (h : Hdr) (op : Nat) (cmd : Option Instr) (prog : List Nat := []) : State :=
  match s.findTaken h with
  | some _ =>
    { s with taken := s.taken.map (fun t =>
        if t.is h then { t with cmd := cmd, phase := .executing, prog := prog } else t) }
  | none =>
    let s := { s with taken := s.taken ++ [⟨h, op, cmd, .executing, s.now, [], prog⟩] }
    if h.q.val = 8 then s
    else
      let s := s.wr F.CMQ_SQ_HEAD_OUTSTANDING h.fn.val (s.rd F.CMQ_SQ_HEAD_OUTSTANDING h.fn.val h.q.val + 1) h.q.val
      s.wr F.CMQ_CFG_IDLE h.fn.val 0 h.q.val

/-- Numbers that a taken command keeps between its steps. -/
def State.progOf (s : State) (h : Hdr) : List Nat := ((s.findTaken h).map (fun t => t.prog)).getD []
def State.setProg (s : State) (h : Hdr) (prog : List Nat) : State :=
  { s with taken := s.taken.map (fun t => if t.is h then { t with prog := prog } else t) }

/-! ### Messages (R561 to R573) -/

/-- The module's device number (R560). -/
def State.devId (s : State) : Nat := s.rd F.RTE_DCFG_DEV_ID 0

/-- Virtual lane of a message kind (R523, R572). -/
def msgVl (kind : Nat) : Nat :=
  if 1 ≤ kind ∧ kind ≤ 3 then 2 else if kind = 4 ∨ kind = 5 then 3 else if kind = 6 then 4 else if kind = 7 then 5
  else if kind = 8 ∨ kind = 9 then 1 else if kind = 0x10 then 0 else 7

/-- Length of a message in units of 32 bytes (the data of a VL7 message run from its byte 2), and the data flits that carry it alone, 240 bytes each (R518, R571). -/
def msgUnits (m : Msg) : Nat := if m.kind < 0x40 then 1 + (m.data.length + 31) / 32 else (m.data.length + 33) / 32
def msgFlits (m : Msg) : Nat := (32 * msgUnits m + 239) / 240

/-- Whether a pod port is ACTIVE (R512). -/
def State.portActive (s : State) (port : Nat) : Bool := s.rd F.PLK_STATE_STATE port = 3

/-- Port of path `k` to device `d`, and whether it has two hops, when the path is usable (R561). -/
def State.pathPort (s : State) (d k : Nat) : Option (Nat × Bool) :=
  let w := s.rd F.RTE_DEST_PATH 0 (4 * d + k)
  let port := bitsAt w 7 4
  let two := hasBit w 6
  if port < 12 ∧ s.portActive port = true ∧ s.rd F.PLK_STATE_PEER_VALID port = 1 ∧
      s.rd F.PLK_STATE_PEER_DEV port = (if two then bitsAt w 0 6 else d) then some (port, two)
  else none

/-- The usable paths to device `d` in ascending order (R561). -/
def State.usablePaths (s : State) (d : Nat) : List (Nat × Bool) :=
  if s.rd F.RTE_DEST_VALID 0 d = 1 then (List.range (s.rd F.RTE_DEST_NPATHS_M1 0 d + 1)).filterMap (s.pathPort d) else []

/-- The path of a transfer to device `d`: none for the own device, else a port; or the status of R562, R563. -/
def State.choosePath (s : State) (d flow : Nat) (direct : Bool) : Except Nat (Option Nat) :=
  if d = s.devId then .ok none
  else
    let l := s.usablePaths d
    match l[flow % l.length]? with
    | none => .error 0x821
    | some (port, two) => if two && direct then .error 0x822 else .ok (some port)

/-- A message of paddock `p` to a destination; it carries the paddock's SELF_EPOCH (R567, R571). -/
def State.mkMsg (s : State) (p kind dev pdk xid k n target aux : Nat) (data : List Byte) : Msg :=
  ⟨kind, dev, s.devId, pdk, p, 0, s.rd F.RTE_PCFG_SELF_EPOCH p, xid, k, n, target, aux, data⟩

/-- The link has acknowledged the message of a line transaction (R573). -/
def State.ackLine (s : State) (id : Nat) : State :=
  { s with net := { s.net with lines := s.net.lines.map (fun l => if l.id = id then { l with acked := true } else l) } }

/-- A message is handed to a port, or delivered on the die (R568); `owner` is the owner code of its flits. -/
def State.post (s : State) (port : Option Nat) (owner vl : Nat) (line : Option Nat) (m : Msg) : State :=
  match port with
  | some q => { s with net := { s.net with tx := s.net.tx ++ [⟨q, owner, vl, m, msgFlits m, line⟩] } }
  | none =>
    let s : State := { s with net := { s.net with die := s.net.die ++ [m] } }
    match line with
    | some id => s.ackLine id
    | none => s

/-- Sends a message that is no transfer's (an ACK, a STOP, a beat): nothing is sent where no path is usable. -/
def State.sendMsg (s : State) (m : Msg) : State :=
  let vl := msgVl m.kind
  match s.choosePath m.dstDev 0 (vl = 0 || vl = 1 || vl = 3) with
  | .ok port => s.post port (if vl = 0 then 16 else m.srcPdk) vl none m
  | .error _ => s

/-! ### Runs and aborts -/

/-- A tally of nothing. -/
def tally0 : Tally := ⟨[], 0, 0, 0, 0, 0, 0, 0, 0⟩
def pdkRun0 : PdkRun := ⟨none, none, false, [], none, true⟩
def stream0 : Stream := ⟨0, [], none, false, 0⟩

def State.runsOf (s : State) (p : Nat) : PdkRun := tget pdkRun0 s.sched.runs [p]
def State.setRuns (s : State) (p : Nat) (r : PdkRun) : State :=
  { s with sched := { s.sched with runs := tset pdkRun0 s.sched.runs [p] r } }
def State.imageOf (s : State) (p slot : Nat) : Option Image := tget none s.sched.images [p, slot]
def State.streamOf (s : State) (c side st : Nat) : Stream := tget stream0 s.sched.streams [c, side, st]
def State.setStream (s : State) (c side st : Nat) (x : Stream) : State :=
  { s with sched := { s.sched with streams := tset stream0 s.sched.streams [c, side, st] x } }
def State.headOf (s : State) (c side : Nat) : Option Nat := tget none s.sched.heads [c, side]

/-- SCH_PSTAT follows the paddock's runs (R113). -/
def State.syncPstat (s : State) (p : Nat) : State :=
  let r := s.runsOf p
  let s := s.wr F.SCH_PSTAT_RUN_V p (b2n r.running.isSome)
  let s := s.wr F.SCH_PSTAT_RUNNING p ((r.running.map (fun x => x.slot)).getD 0)
  let s := s.wr F.SCH_PSTAT_ARMED_V p (b2n r.armed.isSome)
  let s := s.wr F.SCH_PSTAT_ARMED p ((r.armed.map (fun x => x.slot)).getD 0)
  s.wr F.SCH_PSTAT_OVERLAP p (b2n (r.armed.isSome && r.overlap))

/-- Whether every stream of the image in `slot` has retired on core `c`; `fld` is RUN_RET or ARMED_RET. -/
def allStreams : Nat := 0xFFF
def State.retiredOn (s : State) (fld : Fld) (c : Nat) : Bool := s.rd fld c = allStreams

/-- Whether every stream of an image has retired on every core of its CORE_MASK. -/
def State.retiredAll (s : State) (fld : Fld) (p : Nat) (mask : Nat) : Bool :=
  (List.range 8).all (fun i => !(hasBit mask i) || s.retiredOn fld (8 * p + i))

def State.maskOf (s : State) (p : Nat) (r : Option Run) : Nat :=
  ((r.bind (fun x => s.imageOf p x.slot)).map (fun im => im.coreMask)).getD 0

/-- Whether an operation is timed: its results land at published ticks (R87). -/
def Op.timed (o : Op) : Bool :=
  match o.kind with
  | .tile _ => true
  | .elem _ => true
  | _ => false

/-- An outbound transfer with rows still to be read: an abort discards it (R99). -/
def Op.unread (o : Op) : Bool :=
  match o.kind with
  | .outb x => x.reads != []
  | .append x => !x.sent
  | _ => false

/-- Epochs that a paddock's readers hold (R326): passes, append rows, page-server reads. -/
def State.epochsHeld (s : State) (p : Nat) : List Nat :=
  s.sched.ops.filterMap (fun o => match o.kind with
    | .pass x => if o.core / 8 = p ∧ x.epoch ≠ 0 then some x.epoch else none
    | _ => none) ++
  s.kv.rows.filterMap (fun r => if r.pdk = p then some r.epoch else none) ++
  s.net.jobs.filterMap (fun j => if j.pdk = p ∧ j.epoch ≠ 0 then some j.epoch else none)

/-- MIN_HELD: the lowest epoch held, or the pass epoch (R326). -/
def State.syncHeld (s : State) (p : Nat) : State :=
  s.wr F.CTX_MINHELD_MIN_HELD p ((s.epochsHeld p).foldl min (s.rd F.CTX_EPOCH_EPOCH p))

/-- Timed results of a paddock's cores that have not committed are discarded, and its engines stop (R99). -/
def State.discardTimed (s : State) (p : Nat) : State :=
  let mine (c : Nat) : Bool := c / 8 == p
  let gone := s.sched.ops.filter (fun o => mine o.core && (o.timed || o.unread))
  let s := gone.foldl (fun s o =>
    let x := s.streamOf o.core o.side o.stream
    s.setStream o.core o.side o.stream { x with outst := x.outst - 1 }) s
  let keyed (k : Key) : Bool := k.head?.any mine
  { s with sched := { s.sched with
      ops := s.sched.ops.filter (fun o => !(mine o.core && (o.timed || o.unread)))
      commits := tclear keyed s.sched.commits
      acts := tclear keyed s.sched.acts
      ends := tclear keyed s.sched.ends
      busy := tclear keyed s.sched.busy
      slips := tclear keyed s.sched.slips
      owed := tclear keyed s.sched.owed } }

/-- The abort of R99: every core of the paddock stops issuing, the running and armed images stop and keep their slots; the
first cause recorded is the one that the run command carries. With ABORT_FANOUT, a STOP message goes to every other VALID
rank (R584), unless `fanout` says that none is sent. The run commands complete at ABORT_DRAIN_DONE. -/
def State.abortWith (s : State) (p cause : Nat) (fanout : Bool) : State :=
  let r := s.runsOf p
  if r.cause.isSome ∨ (r.running.isNone ∧ r.armed.isNone) then s
  else
    let keepArmed := r.armed.isSome && s.retiredAll F.SCH_RETIRED_ARMED_RET p (s.maskOf p r.armed)
    let s := (s.setRuns p { r with cause := some cause, stopArmed := !keepArmed }).discardTimed p
    if fanout ∧ s.rd F.RTE_PCFG_ABORT_FANOUT p = 1 then
      loopN 64 (fun k s =>
        if s.rd F.RTE_RANK_VALID p k = 1 ∧ k ≠ s.rd F.RTE_PCFG_RANK_SELF p then
          s.sendMsg (s.mkMsg p 0x10 (s.rd F.RTE_RANK_DEV p k) (s.rd F.RTE_RANK_PADDOCK p k) 0 0 0 0 0 [])
        else s) s
    else s

def State.abort (s : State) (p cause : Nat) : State := s.abortWith p cause true

/-- Adds a warning to the running image's tally (R507). -/
def State.warnRun (s : State) (p w : Nat) : State :=
  let r := s.runsOf p
  match r.running with
  | none => s
  | some x =>
    if x.tally.warnings.contains w then s
    else s.setRuns p { r with running := some { x with tally := { x.tally with warnings := w :: x.tally.warnings } } }

/-- The first warning in the order of R507, or 0. -/
def firstWarning (ws : List Nat) : Nat :=
  (([0x160, 0x161, 0x162, 0x170, 0x171, 0x172, 0x173, 0x180, 0x181] : List Nat).find? (fun w => ws.contains w)).getD 0

/-! ### Memories -/

/-- First HBM byte of paddock `p`: DPA = p × 0x6_0000_0000 + local address (R383). -/
def dpaOf (p a : Nat) : Nat := p * 0x600000000 + a

/-- Address of byte 0 of a shelf row and of the working store of a core. -/
def shelfAddr (c row : Nat) : Nat := c * 0x1000000 + row * 512
def wsAddr (c o : Nat) : Nat := c * 0x40000 + o

def State.setMem (s : State) (m : Mems) : State := { s with mem := m }

/-- The 512 bytes of a shelf row (R43) and writing them. -/
def State.rowOf (s : State) (c row : Nat) : List Byte := mread s.mem.shelf (shelfAddr c row) 512
def State.setRow (s : State) (c row : Nat) (bs : List Byte) (poison : Bool) : State :=
  { s with mem := { s.mem with
      shelf := mwrite s.mem.shelf (shelfAddr c row) (bs.take 512)
      shelfPoison := tset false s.mem.shelfPoison [c, row] poison } }
def State.rowPoison (s : State) (c row : Nat) : Bool := tget false s.mem.shelfPoison [c, row]

/-- Bytes of a paddock's local memory (tag 0), and writing them; written sectors lose their poison. -/
def State.hbmRead (s : State) (p a n : Nat) : List Byte := mread s.mem.hbm (dpaOf p a) n
def clearPoison (sector : Nat) (base n : Nat) (t : Tbl Bool) : Tbl Bool :=
  tclear (fun k => match k with
    | [x] => decide (base / sector ≤ x) && decide (x * sector < base + n)
    | _ => false) t
def State.hbmWrite (s : State) (p a : Nat) (bs : List Byte) : State :=
  { s with mem := { s.mem with
      hbm := mwrite s.mem.hbm (dpaOf p a) bs
      hbmPoison := clearPoison 64 (dpaOf p a) bs.length s.mem.hbmPoison } }

end Sys2Proof.Machine
end

