-- ==== Sys2Proof/Machine/Operands.lean ====
section
/-! DEFINITION. The operand forms: device pointers of the four tags and their checks (R461, R462, R464, R438), what an access
through a pointer reads and writes, and the translation that gates a command's host pages (R467). -/

namespace Sys2Proof.Machine

/-- Tag, window, host offset, rank and address of a device pointer (R461). -/
def ptrTag (v : Nat) : Nat := bitsAt v 62 2
def ptrWindow (v : Nat) : Nat := bitsAt v 52 10
def ptrHostOff (v : Nat) : Nat := bitsAt v 0 52
def ptrFarOff (v : Nat) : Nat := bitsAt v 0 62
def ptrRank (v : Nat) : Nat := bitsAt v 56 6
def ptrAddr (v : Nat) : Nat := bitsAt v 0 48

/-- First byte past the tenant range of local memory (R382, R462). -/
def localEnd : Nat := 0x5F0000000

def window0 : Window := ⟨false, false, false, false, false, 0, 0, 0⟩
def State.windowOf (s : State) (fn w : Nat) : Window := tget window0 s.host.windows [fn, w]
def State.cfgOf (s : State) (fn : Nat) : FnCfg := tget ⟨false, false, false, false, 0, false⟩ s.host.cfg [fn]

/-- Address space of a window: its PASID, or none (R463). -/
def Window.space (w : Window) : Option Nat := if w.pasidEn then some w.pasid else none

/-- Units of far memory (R437), and the far space of paddock `p`: port and port address of far offset `o` (R438). -/
def farUnit : Nat := 0x10000000
def State.farMap (s : State) (p o : Nat) : Option (Nat × Nat) :=
  let s0 := s.rd F.FAR_PEXT_SIZE0 p * farUnit
  let s1 := s.rd F.FAR_PEXT_SIZE1 p * farUnit
  if o < s0 then some (0, s.rd F.FAR_PEXT_BASE0 p * farUnit + o)
  else if o < s0 + s1 then some (1, s.rd F.FAR_PEXT_BASE1 p * farUnit + (o - s0))
  else none

/-- Key of a byte of the far tier: port and port address. -/
def farAddr (port fpa : Nat) : Nat := port * 0x100000000000 + fpa

/-- What R462 and R464 say of a pointer of function `fn`, paddock `p`, for an access of `n` bytes: 0 when it passes, else the status.
Reserved bits come before ranges (R462); a host access is refused in the order of R464. -/
def State.ptrStatus (s : State) (fn p ptr n : Nat) (write : Bool) : Nat :=
  match ptrTag ptr with
  | 0 => if bitsAt ptr 48 14 ≠ 0 then 0x401 else if localEnd < ptrAddr ptr + n then 0x400 else 0
  | 1 =>
    let w := s.windowOf fn (ptrWindow ptr)
    if w.valid = false then 0x402
    else if w.size < ptrHostOff ptr + n then 0x403
    else if (write = true ∧ w.write = false) ∨ (write = false ∧ w.read = false) then 0x404
    else 0
  | 2 =>
    match s.farMap p (ptrFarOff ptr), s.farMap p (ptrFarOff ptr + n - 1) with
    | some _, some _ => 0
    | _, _ => 0x460
  | _ => if bitsAt ptr 48 8 ≠ 0 then 0x401 else 0

/-- The whole-sector rule: a write of any kind (R412), and a host transfer in either direction (R453). A window's base is
4 KiB-aligned (R463), so the pointer's offset aligns the host address. -/
def wholeStatus (ptr n : Nat) (write : Bool) : Nat :=
  if (write = true ∨ ptrTag ptr = 1) ∧ (ptr % 64 ≠ 0 ∨ n % 64 ≠ 0) then 0x290 else 0

/-- The check of a pointer of a command: the pointer, then the whole-sector rule (R489, log entry 85). -/
def State.checkPtr (s : State) (fn p ptr n : Nat) (write : Bool) : Nat :=
  let st := s.ptrStatus fn p ptr n write
  if st = 0 then wholeStatus ptr n write else st

/-- The check of a schedule's pointer: its host access also needs a pinned window (R469). -/
def State.checkRunPtr (s : State) (p ptr n : Nat) (write : Bool) : Nat :=
  let st := s.ptrStatus (vfOf p) p ptr n write
  if st ≠ 0 then st
  else if ptrTag ptr = 1 ∧ (s.windowOf (vfOf p) (ptrWindow ptr)).pin = false then 0x406
  else wholeStatus ptr n write

/-- The first status of a list that is not 0. -/
def firstStatus (l : List Nat) : Nat := (l.find? (fun x => x ≠ 0)).getD 0

/-- A status when a condition holds, else 0. -/
def failIf (c : Bool) (status : Nat) : Nat := if c then status else 0

/-- Global channel that holds a byte of HBM (R384). -/
def channelOf (dpa : Nat) : Nat :=
  let g := dpa / 0x600000000
  let o := dpa % 0x600000000
  let c := Nat.xor (Nat.xor (o / 2 ^ 11) (o / 2 ^ 15)) (o / 2 ^ 19) % 16
  16 * g + c

/-- Offset inside its channel of a byte of HBM (R384). -/
def channelOffset (dpa : Nat) : Nat :=
  let o := dpa % 0x600000000
  o / 2 ^ 15 * 2 ^ 11 + o % 2 ^ 11

/-- Status of an access to the channel or port behind a pointer: 0x0312 when the HBM channel is not powered (R400), 0x0810
when the far port is not up (R446), else 0. -/
def State.resourceStatus (s : State) (p ptr : Nat) : Nat :=
  match ptrTag ptr with
  | 0 => if s.rd F.HBM_CH_STAT_PWR (channelOf (dpaOf p (ptrAddr ptr))) = 1 ∨
            s.rd F.HBM_CH_STAT_PWR (channelOf (dpaOf p (ptrAddr ptr))) = 2 then 0x312 else 0
  | 2 => match s.farMap p (ptrFarOff ptr) with
    | some (port, _) => if s.rd F.FAR_PSTATUS_STATE port = 1 then 0 else 0x810
    | none => 0x460
  | _ => 0

/-- Lines of 512 bytes that `n` bytes at `a` touch (R389). -/
def linesOf (a n : Nat) : Nat := if n = 0 then 0 else (a % 512 + n + 511) / 512

/-- The bytes of far memory that paddock `p` reads: a sector that was not written under its present key reads as the decryption of
old ciphertext (R439, R440). -/
def State.farRead (s : State) (p a n : Nat) : List Byte :=
  let key := 16 * tget 0 s.msys.farKey [p] + p
  (List.range n).map (fun i =>
    if tget 0 s.msys.farSeal [(a + i) / 64] = key + 1 then mget s.mem.far (a + i) else Config.farByte key (a + i))
/-- A write of whole far sectors under the paddock's key. -/
def State.farWrite (s : State) (p a : Nat) (bs : List Byte) : State :=
  let key := 16 * tget 0 s.msys.farKey [p] + p
  { s with
    mem := { s.mem with far := mwrite s.mem.far a bs, farPoison := clearPoison 64 a bs.length s.mem.farPoison }
    msys := { s.msys with farSeal :=
      (List.range ((bs.length + 63) / 64)).foldl (fun t k => tset 0 t [a / 64 + k] (key + 1)) s.msys.farSeal } }

/-- Reading `n` bytes through a pointer: local and far memory from the state; what the host or another module returns is
the operand `env` of the command that reads. -/
def State.ptrRead (s : State) (p ptr n : Nat) (env : List Byte) : List Byte :=
  match ptrTag ptr with
  | 0 => s.hbmRead p (ptrAddr ptr) n
  | 2 => match s.farMap p (ptrFarOff ptr) with
    | some (port, fpa) => s.farRead p (farAddr port fpa) n
    | none => []
  | _ => env.take n

/-- Whether a sector of 64 bytes that the access reads holds poison (R414, R442). -/
def State.ptrPoison (s : State) (p ptr n : Nat) : Bool :=
  match ptrTag ptr with
  | 0 => (s.mem.hbmPoison).any (fun e => match e.1 with
    | [x] => decide (dpaOf p (ptrAddr ptr) / 64 ≤ x) && decide (x * 64 < dpaOf p (ptrAddr ptr) + n) && e.2
    | _ => false)
  | 2 => match s.farMap p (ptrFarOff ptr) with
    | some (port, fpa) => (s.mem.farPoison).any (fun e => match e.1 with
      | [x] => decide (farAddr port fpa / 64 ≤ x) && decide (x * 64 < farAddr port fpa + n) && e.2
      | _ => false)
    | none => false
  | _ => false

/-- Row bytes, rows and BASE of a table descriptor (R354). -/
def tdRowBytes (d : List Byte) : Nat := 64 * (fieldAt d 2 1 + 1)
def tdRows (d : List Byte) : Nat := fieldAt d 8 8
def tdBase (d : List Byte) : Nat := fieldAt d 0x10 8

/-- Whether a lookup still reads its request or its table (R368). -/
def Lookup.reading (l : Lookup) : Bool := decide (l.req.length < l.request.length) || decide (l.got.length < l.ids.length)

/-- A data write of the paddock is watched by its lookups in flight (R372). -/
def State.noteWrite (s : State) (p ptr n : Nat) : State :=
  { s with sched := { s.sched with ops := s.sched.ops.map (fun o =>
      match o.kind with
      | .lookup l =>
        if o.core / 8 = p ∧ l.reading = true ∧ tdBase l.desc < ptr + n ∧ ptr < tdBase l.desc + tdRows l.desc * tdRowBytes l.desc then
          { o with kind := .lookup { l with changed := true } }
        else o
      | _ => o) } }

/-- XID of the messages of commands: no operation has it (DESIGN CHOICE: log entry 16). -/
def commandXid : Nat := 0xFFFFFFFF

/-- Writing bytes through a pointer: local and far sectors are stored, host data and remote data are sent (R452, R576). -/
def State.ptrWrite (s : State) (fn p ptr : Nat) (bs : List Byte) : State :=
  match ptrTag ptr with
  | 0 => ((s.noteWrite p ptr bs.length).hbmWrite p (ptrAddr ptr) bs).bump F.HBM_WR_LINES_COUNT p 0 (linesOf (ptrAddr ptr) bs.length)
  | 1 => (s.emit (.hostWrite fn ptr bs)).bump F.HIF_HOST_WR_LINES_COUNT fn 0 (linesOf ptr bs.length)
  | 2 => match s.farMap p (ptrFarOff ptr) with
    | some (port, fpa) =>
      let s := (s.noteWrite p ptr bs.length).farWrite p (farAddr port fpa) bs
      (s.emit (.far port fpa true bs)).bump F.FAR_WR_LINES_COUNT p 0 (linesOf fpa bs.length)
    | none => s
  | _ =>
    let r := ptrRank ptr
    loopN ((bs.length + 511) / 512) (fun k s =>
      s.sendMsg (s.mkMsg p 1 (s.rd F.RTE_RANK_DEV p r) (s.rd F.RTE_RANK_PADDOCK p r) commandXid k ((bs.length - 1) / 512)
        (ptrAddr ptr + 512 * k) 0 ((bs.drop (512 * k)).take 512))) s

/-- Marks the sectors of local memory from `a` on, `n` bytes, as poisoned (R56, R505). -/
def State.hbmPoisonAt (s : State) (p a n : Nat) : State :=
  { s with mem := { s.mem with hbmPoison :=
      (List.range ((n + 63) / 64)).foldl (fun t k => tset false t [(dpaOf p a) / 64 + k] true) s.mem.hbmPoison } }

/-- Counts the lines that a read through a pointer moves. -/
def State.countRead (s : State) (fn p ptr n : Nat) : State :=
  match ptrTag ptr with
  | 0 => s.bump F.HBM_RD_LINES_COUNT p 0 (linesOf (ptrAddr ptr) n)
  | 1 => s.bump F.HIF_HOST_RD_LINES_COUNT fn 0 (linesOf ptr n)
  | 2 => s.bump F.FAR_RD_LINES_COUNT p 0 (linesOf ptr n)
  | _ => s

/-! ### Translation -/

/-- The entry of a function that covers an address with the permission needed. -/
def Xent.covers (x : Xent) (fn : Nat) (space : Option Nat) (a : Nat) : Bool :=
  x.fn == fn && x.pasid == space && decide (x.base ≤ a) && decide (a < x.base + x.size) && !x.stopped
def Xent.grants (x : Xent) (write : Bool) : Bool := if write then x.write else x.read
def State.xentFor (s : State) (fn : Nat) (space : Option Nat) (a : Nat) (write : Bool) : Option Xent :=
  s.host.xents.find? (fun x => x.covers fn space a && x.grants write)

/-- The pages that the host range from `a` to `e` needs, one per translation entry: an entry present covers all of its
range, an absent one is a page of 4 KiB (R467). At most `fuel` of them. -/
def State.pagesOf (s : State) (fn : Nat) (space : Option Nat) (write : Bool) : Nat → Nat → Nat → List Page
  | 0, _, _ => []
  | fuel + 1, a, e =>
    if e ≤ a then []
    else
      let next := match s.xentFor fn space a write with
        | some x => x.base + x.size
        | none => (a / 4096 + 1) * 4096
      ⟨space, a / 4096 * 4096, write⟩ :: s.pagesOf fn space write fuel (max next (a + 1)) e

/-- A host range of a command: pointer, bytes, whether it is written. -/
structure HostRange where
  ptr : Nat
  bytes : Nat
  write : Bool
  deriving DecidableEq, Repr

/-- Pages of a command's host ranges, at most 1,025 per range. -/
def State.needPages (s : State) (fn : Nat) (rs : List HostRange) : List Page :=
  rs.flatMap (fun r =>
    if ptrTag r.ptr = 1 then
      let w := s.windowOf fn (ptrWindow r.ptr)
      let a := w.base + ptrHostOff r.ptr
      s.pagesOf fn w.space r.write 1025 a (a + r.bytes)
    else [])

/-- The pages that are not present with the permission they need. -/
def State.missing (s : State) (fn : Nat) (ps : List Page) : List Page :=
  ps.filter (fun g => (s.xentFor fn g.pasid g.addr g.write).isNone)

/-- Requests the translation of pages; each Translation Request counts (R467). -/
def State.askPages (s : State) (fn : Nat) (ps : List Page) : State :=
  ps.foldl (fun s g => (s.emit (.translationRequest fn g.pasid g.addr)).bump F.HIF_ATS_REQ_COUNT fn) s

/-- Entries that taken commands of a function hold, entries that pinned windows own, and windows that are VALID: the
fields of HIF_XSTAT follow (R466, R469). -/
def Window.ownsEnt (w : Window) (x : Xent) : Bool :=
  w.valid && w.pin && x.pasid == w.space && decide (w.base < x.base + x.size) && decide (x.base < w.base + w.size)
def State.pinnedEnt (s : State) (x : Xent) : Bool :=
  s.host.windows.any (fun e => e.1.head? == some x.fn && e.2.ownsEnt x)
/-- A dump configuration of PF 0 holds the entries of its buffer (R646). -/
def State.dumpHolds (s : State) (x : Xent) : Bool :=
  s.dumpCfgs.any (fun e => e.2.any (fun g =>
    let w := s.windowOf 0 (ptrWindow g.ptr)
    let a := w.base + ptrHostOff g.ptr
    g.byPf && x.fn == 0 && x.pasid == w.space && decide (x.base < a + g.bytes) && decide (a < x.base + x.size)))
def State.heldEnt (s : State) (x : Xent) : Bool :=
  s.taken.any (fun t => t.h.fn.val == x.fn && t.pages.any (fun g => x.covers x.fn g.pasid g.addr)) || s.dumpHolds x
def State.pinnedCount (s : State) (fn : Nat) : Nat :=
  if fn = 0 then 0 else (s.host.xents.filter (fun x => x.fn == fn && s.pinnedEnt x)).length
def State.syncXstat (s : State) (fn : Nat) : State :=
  let s := s.wr F.HIF_XSTAT_WINDOWS fn (s.host.windows.filter (fun e => e.1.head? == some fn && e.2.valid)).length
  let s := s.wr F.HIF_XSTAT_PINNED fn (s.pinnedCount fn)
  s.wr F.HIF_XSTAT_HELD fn (s.host.xents.filter (fun x => x.fn == fn && s.heldEnt x)).length

/-- A command waits for translation: its pages are asked for and it blocks its own SQ (R467, R492). -/
def State.park (s : State) (h : Hdr) (op : Nat) (cmd : Instr) (ps : List Page) : State :=
  let s := s.start h op (some cmd) (s.progOf h)
  let s : State := { s with taken := s.taken.map (fun t =>
    if t.is h then { t with phase := .translating, pages := ps } else t) }
  s.askPages h.fn.val (s.missing h.fn.val ps)

/-- The start of a command that touches host pages (R467): refused with 0x0405 when it needs more than 1,024 entries; while
ATS is enabled and a page is not present it waits and nothing of it happens; otherwise it holds its entries and goes on
with `go`. -/
def State.gate (s : State) (h : Hdr) (op : Nat) (cmd : Instr) (rs : List HostRange) (go : State → State) : State :=
  let fn := h.fn.val
  let ps := s.needPages fn rs
  if (s.cfgOf fn).ats = false ∨ ps = [] then go (s.start h op (some cmd))
  else if 1024 < ps.length then s.complete h 0x405
  else if s.missing fn ps ≠ [] then s.park h op cmd ps
  else
    let s := s.start h op (some cmd)
    let s : State := { s with taken := s.taken.map (fun t => if t.is h then { t with pages := ps } else t) }
    go s

/-- Whether a Sward dump has frozen a paddock: from its trigger until its last record is captured (R640). -/
def State.frozen (s : State) (p : Nat) : Bool := (tget none s.dumps [p]).any (fun d => !d.captured)

/-! ### The opcode table -/

/-- A row of the opcode table (R502): opcode, units, whether a VF and whether PF 0 may issue it, the roles in which a VF may
(bit r for role r), whether PF 0 names a paddock, and the executor. -/
structure OpRow where
  op : Nat
  minUnits : Nat
  maxUnits : Nat
  vf : Bool
  pf : Bool
  roles : Nat
  named : Bool
  deriving DecidableEq, Repr

/-- The opcodes of R502; a command marked "owner" there takes its units from its owning chapter. -/
def opTable : List OpRow := [
  ⟨0x00, 1, 1, true, true, 7, false⟩, ⟨0x01, 1, 1, true, true, 7, false⟩, ⟨0x02, 1, 1, true, true, 7, true⟩,
  ⟨0x03, 1, 1, true, true, 7, true⟩, ⟨0x04, 2, 3, false, true, 7, true⟩, ⟨0x05, 1, 1, false, true, 7, true⟩,
  ⟨0x06, 1, 1, false, true, 7, true⟩,
  ⟨0x10, 1, 1, true, false, 3, false⟩, ⟨0x11, 2, 2, true, false, 3, false⟩, ⟨0x12, 1, 1, true, false, 3, false⟩,
  ⟨0x20, 1, 1, true, false, 7, false⟩, ⟨0x21, 1, 1, true, false, 7, false⟩,
  ⟨0x30, 1, 1, true, false, 7, false⟩, ⟨0x31, 1, 1, true, false, 7, false⟩, ⟨0x32, 1, 1, true, false, 7, false⟩,
  ⟨0x33, 1, 1, true, false, 7, false⟩, ⟨0x34, 1, 1, true, false, 7, false⟩, ⟨0x35, 1, 1, true, false, 7, false⟩,
  ⟨0x36, 1, 1, true, false, 7, false⟩, ⟨0x37, 1, 1, true, false, 7, false⟩, ⟨0x38, 1, 1, true, false, 7, false⟩,
  ⟨0x39, 1, 1, true, false, 7, false⟩, ⟨0x3A, 1, 1, true, false, 7, false⟩, ⟨0x3B, 1, 1, true, false, 7, false⟩,
  ⟨0x3C, 1, 1, true, false, 7, false⟩] ++ [
  ⟨0x3D, 2, 2, true, false, 2, false⟩, ⟨0x3E, 1, 1, true, false, 7, false⟩, ⟨0x3F, 1, 1, true, false, 4, false⟩,
  ⟨0x40, 1, 1, true, false, 3, false⟩, ⟨0x41, 1, 1, true, false, 3, false⟩, ⟨0x42, 1, 1, true, false, 3, false⟩,
  ⟨0x50, 1, 1, true, true, 7, true⟩, ⟨0x51, 1, 1, true, true, 7, true⟩, ⟨0x52, 1, 1, true, true, 7, true⟩,
  ⟨0x60, 1, 1, false, true, 7, false⟩, ⟨0x61, 1, 8, false, true, 7, true⟩, ⟨0x62, 4, 4, false, true, 7, false⟩,
  ⟨0x63, 1, 1, false, true, 7, false⟩, ⟨0x64, 1, 1, false, true, 7, false⟩,
  ⟨0x70, 1, 1, true, true, 7, true⟩, ⟨0x71, 1, 1, false, true, 7, false⟩, ⟨0x72, 1, 1, false, true, 7, false⟩,
  ⟨0x73, 1, 1, false, true, 7, false⟩, ⟨0x74, 1, 1, false, true, 7, false⟩,
  ⟨0x80, 1, 1, false, true, 7, false⟩, ⟨0x81, 2, 2, false, true, 7, false⟩, ⟨0x82, 1, 1, false, true, 7, false⟩,
  ⟨0x90, 1, 1, false, true, 7, false⟩, ⟨0x91, 1, 1, false, true, 7, false⟩, ⟨0x92, 1, 1, false, true, 7, false⟩]

def opRow (op : Nat) : Option OpRow := opTable.find? (fun r => r.op == op)

/-- Opcodes that more than one file names (R502). -/
def opQuiesce : Nat := 0x02
def opAbort : Nat := 0x03
def opRun : Nat := 0x11
def opCopy : Nat := 0x20
def opFill : Nat := 0x21
def opStep : Nat := 0x3D

/-- Checks 3 to 7 of R489 on a command of opcode `op`: its queue, its caller, CID, PADDOCK and the role; then a mirror standby's
refusal of groups 1, 3 and 4 (R585). -/
def State.callStatus (s : State) (h : Hdr) (op : Nat) : Nat :=
  match opRow op with
  | none => 0x200
  | some r =>
    let pf := h.fn.val = 0
    firstStatus [failIf ((op == opQuiesce || op == opAbort) != (h.q.val == 8)) 0x204,
      failIf (if pf then !r.pf else !r.vf) 0x700,
      failIf (decide (4095 ≤ h.cid)) 0x201,
      failIf (if pf && r.named then decide (15 < h.pdk) else h.pdk != 0) 0x206,
      failIf (!pf && !hasBit r.roles (s.role (pdkOf h.fn.val))) 0x300,
      failIf (!pf && (op / 16 == 1 || op / 16 == 3 || op / 16 == 4) && s.rd F.RTE_PCFG_PART (pdkOf h.fn.val) = 2) 0x3A1]

/-- Whether a fatal cause leaves the commands of function `fn` without a completion (R669). -/
def State.fatalSilent (s : State) (fn : Nat) : Bool :=
  let c := s.rd F.HIF_FATAL_LAST_CAUSE 0
  let u := s.rd F.HIF_FATAL_UNIT 0
  (c == 0xF01 && (u == 4 || u == 6 || u == 8)) || (c == 0xF02 && (u == 4 || u == 5 || u == 8 || u == 0x100)) ||
    (c == 0xF03 && u == 2) || (c == 0xF06 && fn == 0) || c == 0xF08

/-- Whether a command may not even be looked at: its function's queues are quiet (R32, R683), the module has no power, the fatal
cause has stopped its command path (R669), or its paddock is frozen (R640). -/
def State.deaf (s : State) (h : Hdr) : Bool :=
  s.quiet h.fn.val || !s.pins.pwrgd || (s.rd F.HIF_FATAL_FATAL 0 == 1 && s.fatalSilent h.fn.val) ||
    (h.fn.val != 0 && s.frozen (pdkOf h.fn.val))

/-- The frame of every command's meaning: in the fatal state it completes with 0x0F00 (R669), in recovery with 0x072A unless it
stages or activates firmware (R595); a status that checks 3 to 8 of R489 give completes it at once, and nothing else happens;
otherwise it goes on. -/
def State.checked (s : State) (h : Hdr) (op status : Nat) (go : State → State) : State :=
  if s.deaf h then s
  else if s.rd F.HIF_FATAL_FATAL 0 = 1 then s.complete h 0xF00
  else if s.trust.recovery = true ∧ op ≠ 0x71 ∧ op ≠ 0x72 then s.complete h 0x72A
  else
    let st := firstStatus [s.callStatus h op, status]
    if st ≠ 0 then s.complete h st else go s

/-- Whether a command of executor P has to wait: another one executes, or the core PLLs relock (R493, R678). -/
def orderOps : List Nat := [0x04, 0x05, 0x06, 0x80]
def State.orderBusy (s : State) (h : Hdr) : Bool :=
  s.rd F.CLK_STAT_RELOCKING 0 == 1 || s.taken.any (fun t => !t.is h && t.phase == .executing && orderOps.contains t.op)

end Sys2Proof.Machine
end

