-- ==== Sys2Proof/Machine/Stop.lean ====
section
/-! DEFINITION. Stopping a paddock: ABORT with SCOPE 1 and QUIESCE as operations that several commands share (R497, R498),
a TDI's entry into ERROR (R611), and SPDM sessions (R603). -/

namespace Sys2Proof.Machine

/-- The taken commands of a paddock: those taken from the SQs of its VF (R498). -/
def Taken.ofPdk (t : Taken) (p : Nat) : Bool := t.h.fn.val == vfOf p && t.h.q.val != 8
def State.takenOf (s : State) (p : Nat) : List Taken := s.taken.filter (fun t => t.ofPdk p)

/-- Whether a taken command is executing, for SCOPE 1: a run that is not yet armed is not (R498). -/
def Taken.running (t : Taken) : Bool := t.phase == .executing

/-- ABORT with SCOPE 1 (R498): the images are aborted, every taken command of the paddock that is not executing completes
with 0x0380, an executing COPY or FILL issues no further line, and a DECODE_STEP runs no further bucket. Answers the state
and the number of commands ended with 0x0380, runs not counted. -/
def State.abortScope1 (s : State) (p : Nat) (cause : Nat := 0x607) (fanout : Bool := true) : State × Nat :=
  let s := s.abortWith p cause fanout
  let ended := (s.takenOf p).filter (fun t => !t.running)
  let s := ended.foldl (fun s t => s.complete t.h 0x380) s
  let r := s.runsOf p
  let s := s.setRuns p { r with waiting := [] }
  let s : State := { s with taken := s.taken.map (fun t =>
    if t.ofPdk p && (t.op == opCopy || t.op == opFill || t.op == opStep) then { t with prog := 1 :: t.prog.drop 1 } else t) }
  (s, ended.length)

/-- Clearing EN of every SQ pair of a VF (R497 step 1); IDLE follows. -/
def State.clearPairs (s : State) (fn : Nat) : State :=
  loopN 8 (fun k s =>
    let s := s.wr F.CMQ_CFG_EN fn 0 k
    if s.rd F.CMQ_SQ_HEAD_OUTSTANDING fn k = 0 then s.wr F.CMQ_CFG_IDLE fn 1 k else s) s

/-- The header under which the device itself quiesces paddock `p`: its CID is none that a host may use (R488), and no
completion is written for it (log entry 10). -/
def ownHdr (p : Nat) : Hdr := ⟨0, 8, 4096, p, true⟩

/-- QUIESCE as if issued on the paddock's PQ (R497): the pairs are disabled; the paddock enters QUIESCED at
QUIESCE_COMPLETE, or at once when no taken command is left. -/
def State.quiesce (s : State) (p : Nat) : State :=
  if s.pdkState p ≠ pdkActive then s
  else
    let s := s.clearPairs (vfOf p)
    if s.takenOf p = [] then s.wr F.PDK_STATE_STATE p pdkQuiesced
    else s.start (ownHdr p) opQuiesce none [0, 0]

/-- A TDI enters ERROR (R611): from CONFIG_LOCKED or RUN only; the cause is recorded and counted, an ACTIVE paddock is
aborted with SCOPE 1 and quiesced, and TDI_ERROR goes to the VF and to PF 0. -/
def State.tdiError (s : State) (n cause : Nat) : State :=
  let st := s.rd F.RTP_TDI_STATE_STATE n
  if st = 1 ∨ st = 2 then
    let s := s.wr F.RTP_TDI_STATE_STATE n 3
    let s := s.wr F.RTP_TDI_CAUSE_CAUSE n cause
    let s := s.bump F.RTP_TDI_ERRORS_COUNT n
    let p := pdkOf n
    let s := if s.pdkState p = pdkActive then ((s.abortScope1 p).1).quiesce p else s
    s.eventBoth p 0x50 0 (detailAt 0x10 cause)
  else s

/-- A fabric command that changes what a locked paddock may reach: CFG_GEN rises and the VF is told (R614). -/
def State.tdiConfigChanged (s : State) (p : Nat) : State :=
  let n := vfOf p
  let st := s.rd F.RTP_TDI_STATE_STATE n
  if st = 1 ∨ st = 2 then
    let g := s.rd F.RTP_TDI_STATE_CFG_GEN n + 1
    let s := s.wr F.RTP_TDI_STATE_CFG_GEN n g
    s.event n 0x51 0 (detailAt 0x10 (g % 2 ^ 32))
  else s

/-- Whether a paddock's TDI is CONFIG_LOCKED or RUN (R614). -/
def State.tdiLocked (s : State) (p : Nat) : Bool :=
  s.rd F.RTP_TDI_STATE_STATE (vfOf p) = 1 || s.rd F.RTP_TDI_STATE_STATE (vfOf p) = 2

/-! ### SPDM sessions (R603, R604) -/

/-- A session by transport (0 DOE, 1 MCTP, 2 pod link) and slot, and storing it. -/
def State.sessionOf (s : State) (tr slot : Nat) : Option Sess := tget none s.trust.sessions [tr, slot]
def State.setSession (s : State) (tr slot : Nat) (x : Option Sess) : State :=
  { s with trust := { s.trust with sessions := tset none s.trust.sessions [tr, slot] x } }

/-- RTP_DEV.SESSIONS follows the sessions that are established. -/
def State.syncSessions (s : State) : State :=
  s.wr F.RTP_DEV_SESSIONS 0 ((s.trust.sessions.filter (fun e => e.2.isSome)).length)

/-- A session is established in a slot. -/
def State.openSession (s : State) (tr slot : Nat) : State :=
  ((s.setSession tr slot (some ⟨none⟩)).bump F.RTP_SESS_EST_COUNT 0).syncSessions

/-- A session ends; the TDI of the VF that it is bound to goes to ERROR (R611). -/
def State.closeSession (s : State) (tr slot : Nat) : State :=
  match s.sessionOf tr slot with
  | none => s
  | some x =>
    let s := ((s.setSession tr slot none).bump F.RTP_SESS_END_COUNT 0).syncSessions
    match x.bound with
    | some n => if n = 0 then s else (s.wr F.RTP_TDI_STATE_SESSION n 0xFF).tdiError n 1
    | none => s

/-- Every session ends, on every transport. -/
def State.endSessions (s : State) : State :=
  s.trust.sessions.foldl (fun s e => match e.1 with
    | [tr, slot] => s.closeSession tr slot
    | _ => s) s

end Sys2Proof.Machine
end

