-- ==== Sys2Proof/Machine/Flags.lean ====
section
/-! DEFINITION. The flag computations: the numeric counters of an output (R182, R183), counters that saturate and set a flag
bit, and the sums of the paddock set (R630, R631, R632). -/

namespace Sys2Proof.Machine

/-- Category of an arithmetic output (R182): saturated, flushed to zero, NaN, infinity, or none of them. -/
inductive NumCat where
  | plain | sat | flush | nan | inf
  deriving DecidableEq, Repr

/-- Adds one to a 32-bit numeric counter; at its maximum it stays and the flag bit is set (R183). -/
def Tally.count (t : Tally) (c : NumCat) : Tally :=
  let m := 0xFFFFFFFF
  match c with
  | .plain => t
  | .sat => if t.sat = m then { t with numSat := setBit t.numSat 0 } else { t with sat := t.sat + 1 }
  | .flush => if t.flush = m then { t with numSat := setBit t.numSat 1 } else { t with flush := t.flush + 1 }
  | .nan => if t.nan = m then { t with numSat := setBit t.numSat 2 } else { t with nan := t.nan + 1 }
  | .inf => if t.inf = m then { t with numSat := setBit t.numSat 3 } else { t with inf := t.inf + 1 }

/-- A dropped range of a context that a pass or a page met: warning 0x0170, with the first such range (R309). -/
def Tally.addStale (t : Tally) (ctx lo hi : Nat) : Tally :=
  if t.warnings.contains 0x170 then t
  else { t with warnings := 0x170 :: t.warnings, staleCtx := ctx, staleLo := lo, staleHi := hi }

/-- The NUMERIC field of a completion record (R490). -/
def Tally.numeric (t : Tally) : Nat :=
  t.sat + t.flush * 2 ^ 32 + t.nan * 2 ^ 64 + t.inf * 2 ^ 96

/-- Number of a category in the paddock set (R632). -/
def NumCat.idx : NumCat → Nat
  | .plain => 0 | .sat => 0 | .flush => 1 | .nan => 2 | .inf => 3

/-- The run to which an output of side `side` belongs gets the count: the run of the image whose instruction issued the
operation (R184). -/
def PdkRun.tallyIn (r : PdkRun) (side : Nat) (f : Tally → Tally) : PdkRun :=
  match r.running with
  | some x =>
    if x.side = side then { r with running := some { x with tally := f x.tally } }
    else match r.armed with
      | some y => if y.side = side then { r with armed := some { y with tally := f y.tally } } else r
      | none => r
  | none => r

/-- Counts an output of paddock `p`, side `side`, in the run's tally and in the paddock's live counters (R182, R184,
R632). -/
def State.countOutput (s : State) (p side : Nat) (c : NumCat) : State :=
  match c with
  | .plain => s
  | _ =>
    let s := s.setRuns p ((s.runsOf p).tallyIn side (fun t => t.count c))
    s.bump F.CNT_P_COUNT p c.idx

/-- Counts the categories of a list of outputs. -/
def State.countOutputs (s : State) (p side : Nat) (cs : List NumCat) : State :=
  cs.foldl (fun s c => s.countOutput p side c) s

/-- A 48-bit sum that saturates (R631): the addends' counts and whether any has OVF set. -/
def sumCounter (xs : List (Nat × Nat)) : Nat × Nat :=
  let n := xs.foldl (fun a x => a + x.1) 0
  let o := xs.any (fun x => x.2 = 1)
  (min n maxCount, b2n (o || decide (maxCount < n)))

/-- A counter register as a 64-bit word (R630). -/
def counterWord (c : Nat × Nat) : Nat := c.1 + c.2 * 2 ^ 63

/-- COUNT and OVF of a counter. -/
def State.ctr (s : State) (f : Fld) (i : Nat) (j : Nat := 0) : Nat × Nat := (s.rd f i j, s.rd (ovfOf f) i j)

/-- The sum of a per-core counter over the eight cores of paddock `p`. -/
def State.coreSum (s : State) (f : Fld) (p : Nat) (j : Nat := 0) : Nat × Nat :=
  sumCounter ((List.range 8).map (fun i => s.ctr f (8 * p + i) j))

/-- Counter `k` of the paddock set of paddock `p` as it stands (R632). -/
def State.pdkCounter (s : State) (p k : Nat) : Nat × Nat :=
  if k ≤ 5 ∨ k = 31 then s.ctr F.CNT_P_COUNT p k
  else if k ≤ 11 then s.coreSum F.SCH_SLIP_COUNT p (k - 6)
  else match k with
    | 12 => s.coreSum F.SCH_CSLIP_EVENTS_COUNT p
    | 13 => s.ctr F.BUD_STALL_CLK_COUNT p
    | 14 => s.ctr F.BUD_DROOP_CLK_COUNT p
    | 15 => s.ctr F.BUD_HOLD_CLK_COUNT p
    | 16 => s.coreSum F.BUD_COVER_COUNT p
    | 17 => s.coreSum F.MXE_TILES_COUNT p
    | 18 => s.coreSum F.MXE_CHK_FAIL_COUNT p
    | 19 => s.coreSum F.VEC_PROGS_COUNT p
    | 20 => s.coreSum F.ATN_PASSES_COUNT p
    | 21 => s.coreSum F.ATN_STALE_COUNT p
    | 22 => s.ctr F.TBL_LOOKUPS_COUNT p
    | 23 => s.ctr F.HBM_RD_LINES_COUNT p
    | 24 => s.ctr F.HBM_WR_LINES_COUNT p
    | 25 => s.ctr F.HBM_TXN_FULL_CLK_COUNT p
    | 26 => s.ctr F.MOW_CE_USE_COUNT p
    | 27 => s.ctr F.MOW_UE_COUNT p
    | 28 => s.ctr F.HIF_HOST_RD_LINES_COUNT (vfOf p)
    | 29 => s.ctr F.HIF_HOST_WR_LINES_COUNT (vfOf p)
    | _ => s.ctr F.PLK_P_TX_FLITS_COUNT p

/-- Counter `k` of the device set as it stands (R633). -/
def State.devCounter (s : State) (k : Nat) : Nat × Nat :=
  match k with
  | 5 => s.ctr F.BUD_DDROOP_EVT_COUNT 0
  | 6 => s.ctr F.BUD_DDROOP_EVT_COUNT 1
  | 7 => s.ctr F.RTE_TRANSIT_FWD_COUNT 0
  | _ => s.ctr F.CNT_D_COUNT 0 k

end Sys2Proof.Machine
end

