-- ==== Sys2Proof/Machine/Shelf.lean ====
section
/-! DEFINITION. Operations on a core's parts: shelf rows, errors and poison (R41 to R59), drawers (R65 to R70), violations
(R74), sync cells and stiles (R134 to R152), and the completion of a stream's operation (R110, R143). -/

namespace Sys2Proof.Machine

/-! ### Ticks -/

/-- Core tick, and the tick of the operations in flight: it runs ahead by the slip clocks of R721. -/
def State.tickOf (s : State) (c : Nat) : Nat := s.rd F.SCH_TICK_TICK c
def State.opTick (s : State) (c : Nat) : Nat := s.tickOf c + tget 0 s.sched.shift [c]

/-- A schedule position (R81). -/
def positionOf (stream slot idx : Nat) : Nat := stream * 2 ^ 28 + slot * 2 ^ 26 + idx

/-! ### Rows, banks and errors -/

/-- Bank and row within the bank of a shelf row (R44). -/
def bankOf (r : Nat) : Nat := Nat.xor (Nat.xor (r % 32) (r / 32 % 32)) (r / 1024 % 32)
def bankRowOf (r : Nat) : Nat := r / 32

/-- Rows of a shelf store, and the first row of drawer 63 in a role (R21, R41). -/
def shelfRows : Nat := 24576
def firstRow63 (role : Nat) : Nat := if role = 0 then 23552 else if role = 1 then 24320 else shelfRows

/-- Whether a row may be accessed other than through drawer 63 (R22, R43). -/
def State.rowOk (s : State) (c r : Nat) : Bool := decide (r < firstRow63 (s.role (corePdk c)))

/-- A shelf error is recorded; a correctable one never overwrites an uncorrectable one (R54, R55). `source` is a stream, or
12 for the patrol; a spare row has logical row 0. The device error log takes it (R671). -/
def State.shelfErr (s : State) (c source bank brow codeword row : Nat) (uncorr : Bool) : State :=
  let s := s.deviceError 0 (!uncorr) (s.phys c) row (if uncorr then 0x510 else 0) (corePdk c)
  if s.rd F.DRW_SHELF_ERR0_VALID c = 1 ∧ s.rd F.DRW_SHELF_ERR0_UNCORR c = 1 ∧ uncorr = false then s
  else
    let s := (s.wr F.DRW_SHELF_ERR0_VALID c 1).wr F.DRW_SHELF_ERR0_UNCORR c (b2n uncorr)
    let s := (s.wr F.DRW_SHELF_ERR0_SOURCE c source).wr F.DRW_SHELF_ERR0_BANK c bank
    let s := (s.wr F.DRW_SHELF_ERR0_BANK_ROW c brow).wr F.DRW_SHELF_ERR0_CODEWORD c codeword
    let s := s.wr F.DRW_SHELF_ERR0_ROW c row
    (s.wr F.DRW_SHELF_ERR1_TICK c (s.tickOf c)).wr F.DRW_SHELF_ERR2_TIME c s.now

/-- Marks a row for repair (R59); DRW_REPAIR_PEND follows. -/
def State.markRow (s : State) (c bank brow : Nat) : State :=
  if tget false s.shelf.marked [c, bank, brow] then s
  else
    let s : State := { s with shelf := { s.shelf with marked := tset false s.shelf.marked [c, bank, brow] true } }
    let s := s.satAdd F.DRW_REPAIR_PEND_PEND_ROWS c
    s.wr F.DRW_REPAIR_PEND_BANK_MASK c (setBit (s.rd F.DRW_REPAIR_PEND_BANK_MASK c) bank)

/-- A corrected read counts towards CE_LIMIT in the tracker of 64 rows; a row with no entry in a full tracker is marked at
once (R59). -/
def State.trackRow (s : State) (c bank brow : Nat) : State :=
  let n := tget 0 s.shelf.tracker [c, bank, brow]
  let held := (s.shelf.tracker.filter (fun e => e.1.head? == some c)).length
  if n = 0 ∧ 64 ≤ held then s.markRow c bank brow
  else
    let s : State := { s with shelf := { s.shelf with tracker := tset 0 s.shelf.tracker [c, bank, brow] (n + 1) } }
    if s.rd F.DRW_SHELF_CFG_CE_LIMIT c ≤ n + 1 then s.markRow c bank brow else s

/-- What a read does about an error in the row it reads (R54, R55). -/
def State.shelfReadErr (s : State) (c source row : Nat) : Option (Nat × Bool) → State
  | none => s
  | some (codeword, false) =>
    let s := (s.bump F.DRW_SHELF_CE_COUNT c).trackRow c (bankOf row) (bankRowOf row)
    s.shelfErr c source (bankOf row) (bankRowOf row) codeword row false
  | some (codeword, true) =>
    let s : State := { s with mem := { s.mem with shelfPoison := tset false s.mem.shelfPoison [c, row] true } }
    let s := (s.bump F.DRW_SHELF_UE_COUNT c).markRow c (bankOf row) (bankRowOf row)
    let s := s.shelfErr c source (bankOf row) (bankRowOf row) codeword row true
    s.event (vfOf (corePdk c)) 0x02 0x510 (detailAt 0x10 (coreOff c) + detailAt 0x12 row)

/-- A read of a row by a stream: the row as it stands, with its poison flag (R47, R48, R55). -/
def State.shelfRead (s : State) (c source row : Nat) (err : Option (Nat × Bool)) : State × (List Byte × Bool) :=
  let s := s.shelfReadErr c source row err
  (s, (s.rowOf c row, s.rowPoison c row))

/-! ### Violations -/

/-- A drawer, tray or row violation (R74): the first since the schedule was loaded is recorded, the running schedule is
aborted. Kinds 0 to 4: drawer overflow, drawer underflow, tray overflow, tray underflow, row out of range. -/
def State.violation (s : State) (c kind drawer stream position : Nat) : State :=
  let s :=
    if s.rd F.DRW_VIOL0_VALID c = 1 then s
    else
      let s := (s.wr F.DRW_VIOL0_VALID c 1).wr F.DRW_VIOL0_KIND c kind
      let s := (s.wr F.DRW_VIOL0_DRAWER c drawer).wr F.DRW_VIOL0_STREAM c stream
      let s := s.wr F.DRW_VIOL0_POSITION c position
      (s.wr F.DRW_VIOL1_TICK c (s.tickOf c)).wr F.DRW_VIOL2_TIME c s.now
  s.abort (corePdk c) (0x620 + kind)

/-! ### Drawers -/

/-- State of slot `k` of a drawer: 0 free, 1 claimed, 2 valid. -/
def State.slotOf (s : State) (c d k : Nat) : Nat := tget 0 s.shelf.slots [c, d, k]
def State.setSlot (s : State) (c d k v : Nat) : State :=
  { s with shelf := { s.shelf with slots := tset 0 s.shelf.slots [c, d, k] v } }

def State.drwSize (s : State) (c d : Nat) : Nat := s.rd F.DRW_CFG_SIZE c d
def State.drwBase (s : State) (c d : Nat) : Nat := s.rd F.DRW_CFG_BASE c d

/-- Row of the drawer's next claim and of its next pop (R66). -/
def State.tailRow (s : State) (c d : Nat) : Nat := s.drwBase c d + s.rd F.DRW_STATE_TAIL c d
def State.headRow (s : State) (c d : Nat) : Nat := s.drwBase c d + s.rd F.DRW_STATE_HEAD c d

/-- A claim of the slot at TAIL (R67), or none when it overflows (R68). Answers the row claimed. -/
def State.claimSlot (s : State) (c d : Nat) : Option (State × Nat) :=
  let n := s.drwSize c d
  let t := s.rd F.DRW_STATE_TAIL c d
  if n = 0 ∨ s.slotOf c d t ≠ 0 then none
  else
    let r := s.tailRow c d
    let s := (s.setSlot c d t 1).wr F.DRW_STATE_TAIL c ((t + 1) % n) d
    some (s.wr F.DRW_STATE_PEND c (s.rd F.DRW_STATE_PEND c d + 1) d, r)

/-- Claims of `n` slots, all or none. -/
def State.claimSlots (s : State) (c d : Nat) : Nat → Option (State × List Nat)
  | 0 => some (s, [])
  | n + 1 =>
    match s.claimSlot c d with
    | none => none
    | some (s, r) => (s.claimSlots c d n).map (fun x => (x.1, r :: x.2))

/-- The commit of the slot that holds row `r` (R67). -/
def State.commitSlot (s : State) (c d r : Nat) : State :=
  let s := s.setSlot c d (r - s.drwBase c d) 2
  let s := s.wr F.DRW_STATE_PEND c (s.rd F.DRW_STATE_PEND c d - 1) d
  s.wr F.DRW_STATE_FILL c (s.rd F.DRW_STATE_FILL c d + 1) d

/-- A pop of the slot at HEAD (R67), or none when it underflows (R68). Answers the row popped. -/
def State.popSlot (s : State) (c d : Nat) : Option (State × Nat) :=
  let n := s.drwSize c d
  let h := s.rd F.DRW_STATE_HEAD c d
  if n = 0 ∨ s.slotOf c d h ≠ 2 then none
  else
    let r := s.headRow c d
    let s := (s.setSlot c d h 0).wr F.DRW_STATE_HEAD c ((h + 1) % n) d
    some (s.wr F.DRW_STATE_FILL c (s.rd F.DRW_STATE_FILL c d - 1) d, r)

/-- An empty drawer (R69). -/
def State.resetDrawer (s : State) (c d : Nat) : State :=
  let s : State := { s with shelf := { s.shelf with
    slots := tclear (fun k => k.take 2 == [c, d]) s.shelf.slots } }
  let s := (s.wr F.DRW_STATE_HEAD c 0 d).wr F.DRW_STATE_TAIL c 0 d
  (s.wr F.DRW_STATE_FILL c 0 d).wr F.DRW_STATE_PEND c 0 d

/-- Source and destination fields of R189: a drawer, or the first of a run of rows. -/
inductive RowField where
  | run (first : Nat)
  | drw (d : Nat)
  deriving DecidableEq, Repr
def rowField (v : Nat) : RowField := if bitsAt v 15 1 = 1 then .drw (bitsAt v 0 6) else .run (bitsAt v 0 15)
def RowField.drawer : RowField → Option Nat
  | .drw d => some d
  | .run _ => none
/-- The place of read `k` of a source. -/
def RowField.place (f : RowField) (k : Nat) : Place :=
  match f with
  | .drw d => .drawer d
  | .run r => .row (r + k)

/-- Destination rows of `n` rows: the rows of the run, or the slots that the drawer claims; none on an overflow or a row out
of range (kind of R74). -/
def State.claimRows (s : State) (c : Nat) (f : RowField) (n : Nat) : Except Nat (State × List Nat) :=
  match f with
  | .drw d => match s.claimSlots c d n with
    | some x => .ok x
    | none => .error 0
  | .run r => if s.rowOk c (r + n - 1) then .ok (s, (List.range n).map (fun k => r + k)) else .error 4

/-! ### Sync cells -/

/-- A cell's error or a stile's misuse (R152): the first since schedule load is recorded; a running schedule is aborted. -/
def State.synError (s : State) (c kind stream target position : Nat) (completion : Bool) : State :=
  let s :=
    if s.rd F.SYN_ERR0_VALID c = 1 then s
    else
      let s := (s.wr F.SYN_ERR0_VALID c 1).wr F.SYN_ERR0_KIND c kind
      let s := (s.wr F.SYN_ERR0_STREAM c stream).wr F.SYN_ERR0_TARGET c target
      let s := (s.wr F.SYN_ERR0_COMPLETION c (b2n completion)).wr F.SYN_ERR0_POSITION c position
      (s.wr F.SYN_ERR1_TICK c (s.tickOf c)).wr F.SYN_ERR2_TIME c s.now
  s.abort (corePdk c) (if kind = 0 then 0x630 else 0x631)

/-- The new value of a cell under a signal, or none when an ADD overflows (R136, R137). -/
def signalValue (op v x : Nat) : Option Nat :=
  if op = 0 then (if 0xFFFFFFFF < v + x then none else some (v + x))
  else if op = 1 then some x
  else some (Nat.lor v x)

/-- A signal to cell `n` and its last-signaller record (R136, R140). -/
def State.signalCell (s : State) (c n op x stream position : Nat) (completion : Bool) : State :=
  match signalValue op (s.rd F.SYN_VAL_VALUE c n) x with
  | none => s.synError c 0 stream n position completion
  | some v =>
    let s := (s.wr F.SYN_VAL_VALUE c v n).wr F.SYN_LSIG_STREAM c stream n
    let s := (s.wr F.SYN_LSIG_COMPLETION c (b2n completion) n).wr F.SYN_LSIG_OP c op n
    (s.wr F.SYN_LSIG_POSITION c position n).wr F.SYN_LTICK_TICK c (s.tickOf c) n

/-- A cell as head start and handover leave it (R134). -/
def State.clearCell (s : State) (c n v : Nat) : State :=
  let s := (s.wr F.SYN_VAL_VALUE c v n).wr F.SYN_LSIG_STREAM c 0xF n
  let s := (s.wr F.SYN_LSIG_COMPLETION c 0 n).wr F.SYN_LSIG_OP c 0 n
  (s.wr F.SYN_LSIG_POSITION c 0 n).wr F.SYN_LTICK_TICK c 0 n

/-- WAIT conditions (R138). -/
def condHolds (cond v x : Nat) : Bool :=
  if cond = 0 then decide (x ≤ v) else if cond = 1 then v == x else Nat.land v x == x

/-! ### Stiles -/

/-- A claim of stile `k` by a stream (R149). -/
def State.stileClaim (s : State) (c k stream mask position : Nat) (completion : Bool) : State :=
  let claimed := s.rd F.SYN_STILE_CLAIMED c k
  if hasBit claimed stream then s.synError c 1 stream k position completion
  else if mask = 0 ∨ hasBit mask stream = false ∨ (claimed ≠ 0 ∧ mask ≠ s.rd F.SYN_STILE_MASK c k) then
    s.synError c 2 stream k position completion
  else
    let s := if claimed = 0 then s.wr F.SYN_STILE_MASK c mask k else s
    let s := s.wr F.SYN_STILE_CLAIMED c (setBit claimed stream) k
    s.wr F.SYN_STILE_LOCAL c (Nat.xor (s.rd F.SYN_STILE_LOCAL c k) (2 ^ stream)) k

/-- An arrival at stile `k`, and the phase's completion by the last participant (R150). -/
def State.stileArrive (s : State) (c k stream position : Nat) (completion : Bool) : State :=
  if hasBit (s.rd F.SYN_STILE_CLAIMED c k) stream = false then s.synError c 3 stream k position completion
  else
    let a := setBit (s.rd F.SYN_STILE_ARRIVED c k) stream
    let s := (s.wr F.SYN_STILE_LAST_STREAM c stream k).wr F.SYN_STILE_POS_LAST_POSITION c position k
    let s : State := { s with sched := { s.sched with arriveAt := tset 0 s.sched.arriveAt [c, k] (s.tickOf c) } }
    if a = s.rd F.SYN_STILE_MASK c k then
      let s := s.wr F.SYN_STILE_SENSE c (1 - s.rd F.SYN_STILE_SENSE c k) k
      let s := (s.wr F.SYN_STILE_MASK c 0 k).wr F.SYN_STILE_CLAIMED c 0 k
      (s.wr F.SYN_STILE_ARRIVED c 0 k).wr F.SYN_STILE_PHASES c (s.rd F.SYN_STILE_PHASES c k + 1) k
    else s.wr F.SYN_STILE_ARRIVED c a k

/-- A stile as head start and handover leave it (R147). -/
def State.clearStile (s : State) (c k : Nat) : State :=
  let s := (s.wr F.SYN_STILE_SENSE c 0 k).wr F.SYN_STILE_LOCAL c 0 k
  let s := (s.wr F.SYN_STILE_CLAIMED c 0 k).wr F.SYN_STILE_ARRIVED c 0 k
  let s := (s.wr F.SYN_STILE_MASK c 0 k).wr F.SYN_STILE_LAST_STREAM c 0xF k
  let s : State := { s with sched := { s.sched with arriveAt := tset 0 s.sched.arriveAt [c, k] 0 } }
  (s.wr F.SYN_STILE_PHASES c 0 k).wr F.SYN_STILE_POS_LAST_POSITION c 0 k

/-! ### Completion actions and operations -/

/-- Fields of a completion action (R142). -/
def doneAction (a : Nat) : Nat := bitsAt a 22 2
def doneAmount (a : Nat) : Nat := bitsAt a 8 14
def doneCell (a : Nat) : Nat := bitsAt a 0 8
def doneMask (a : Nat) : Nat := bitsAt a 8 12
def doneStile (a : Nat) : Nat := bitsAt a 0 3

/-- A completion action takes place (R143, R148). -/
def State.doneSignal (s : State) (o : Op) : State :=
  if doneAction o.done = 1 then s.signalCell o.core (doneCell o.done) 0 (doneAmount o.done) o.stream o.position true
  else if doneAction o.done = 2 then s.stileArrive o.core (doneStile o.done) o.stream o.position true
  else s

def State.findOp (s : State) (id : Nat) : Option Op := s.sched.ops.find? (fun o => o.id == id)
def State.setOp (s : State) (id : Nat) (k : OpKind) : State :=
  { s with sched := { s.sched with ops := s.sched.ops.map (fun o => if o.id = id then { o with kind := k } else o) } }

/-- A new operation of a stream: it becomes outstanding (R110). -/
def State.addOp (s : State) (core side stream position done : Nat) (drawer : Option Nat) (k : OpKind) : State :=
  let x := s.streamOf core side stream
  let s := s.setStream core side stream { x with outst := x.outst + 1 }
  { s with sched := { s.sched with
      ops := s.sched.ops ++ [⟨s.sched.nextOp, core, side, stream, position, done, drawer, k, s.rd F.SCH_TICK_TICK core⟩]
      nextOp := s.sched.nextOp + 1 } }

/-- An operation ends: it is no longer outstanding, and its weights stop. -/
def State.dropOp (s : State) (o : Op) : State :=
  let x := s.streamOf o.core o.side o.stream
  let s := s.setStream o.core o.side o.stream { x with outst := x.outst - 1 }
  { s with sched := { s.sched with ops := removeFirst (fun y => y.id == o.id) s.sched.ops } }

/-- An operation completes: its completion action is applied after its last effect (R143). -/
def State.completeOp (s : State) (o : Op) : State := (s.dropOp o).doneSignal o

/-- Weights of an activity over operation ticks (R117). -/
def State.addAct (s : State) (c op start upto weight : Nat) : State :=
  { s with sched := { s.sched with
      acts := tset [] s.sched.acts [c] (tget [] s.sched.acts [c] ++ [⟨op, start, upto, weight⟩]) } }
def State.endActs (s : State) (c op : Nat) : State :=
  { s with sched := { s.sched with
      acts := tset [] s.sched.acts [c] ((tget [] s.sched.acts [c]).filter (fun a => a.op != op)) } }

/-- A shelf write issues in this tick and commits at the end of the third tick after it (R47, R67). -/
def State.issueWrite (s : State) (c row : Nat) (bytes : List Byte) (poison : Bool) (drawer : Option Nat) (op : Nat) :
    State :=
  { s with sched := { s.sched with
      commits := tset [] s.sched.commits [c]
        (tget [] s.sched.commits [c] ++ [⟨s.opTick c + 3, row, bytes, poison, drawer, op, false⟩]) } }

/-- A row is written whole: the bytes that the data do not fill are zeros (R42). -/
def padRow (bs : List Byte) : List Byte := (bs ++ List.replicate 512 0).take 512

def patrol0 : Patrol := ⟨0, 0, 0, 0, none, 0⟩
def State.patrolOf (s : State) (c b : Nat) : Patrol := tget patrol0 s.shelf.patrols [c, b]
def State.setPatrol (s : State) (c b : Nat) (x : Patrol) : State :=
  { s with shelf := { s.shelf with patrols := tset patrol0 s.shelf.patrols [c, b] x } }

/-- A write to a row cancels the patrol's write-back of it (R58). -/
def State.cancelFix (s : State) (c row : Nat) : State :=
  let x := s.patrolOf c (bankOf row)
  match x.fix with
  | some (br, _) => if br = bankRowOf row then s.setPatrol c (bankOf row) { x with fix := none } else s
  | none => s

/-- A committed write: the row, its poison bit, and the drawer slot it fills (R56, R67). -/
def State.commitRow (s : State) (c row : Nat) (bytes : List Byte) (poison : Bool) (drawer : Option Nat) : State :=
  let s := (s.setRow c row (padRow bytes) poison).cancelFix c row
  match drawer with
  | some d => s.commitSlot c d row
  | none => s

end Sys2Proof.Machine
end

