-- ==== Sys2Proof/Machine/Words.lean ====
section
/-! DEFINITION. Stream instruction words (R82 to R88): fields, operand layouts, what a word names (cells, stiles, drawers,
rows), its timing, and whether its encoding is one that the loader accepts. -/

namespace Sys2Proof.Machine

/-! ### Words -/

/-- DELTA, opcode and operands of a word (R82). -/
def wDelta (w : Nat) : Nat := bitsAt w 108 20
def wOp (w : Nat) : Nat := bitsAt w 96 8
def wReserved (w : Nat) : Nat := bitsAt w 104 4
def wOperands (w : Nat) : Nat := bitsAt w 0 96

/-- Control opcodes (R84), and the operations of the other classes. -/
def opcNop : Nat := 0x00
def opcEnd : Nat := 0x01
def opcLoop : Nat := 0x02
def opcEndloop : Nat := 0x03
def opcWait : Nat := 0x04
def opcSignal : Nat := 0x05
def opcArrive : Nat := 0x06
def opcStileWait : Nat := 0x07
def opcTile : Nat := 0x10
def opcElem : Nat := 0x20
def opcWsMode : Nat := 0x21
def opcPass : Nat := 0x30
def opcLookup : Nat := 0x40
def opcFetch : Nat := 0x50
def opcRecv : Nat := 0x51
def opcPageFetch : Nat := 0x52
def opcWrite : Nat := 0x60
def opcPush : Nat := 0x61
def opcAppend : Nat := 0x6F

/-- Stream numbers (R39). -/
def stME : Nat := 0
def stVE : Nat := 1
def stAE : Nat := 2
def stTE : Nat := 3

/-- LOOP and ENDLOOP do not issue (R79). -/
def issues (w : Nat) : Bool := wOp w != opcLoop && wOp w != opcEndloop

/-- Cell or stile, condition, timeout and operand fields of WAIT, SIGNAL and the stile operations. -/
def fCell (w : Nat) : Nat := bitsAt w 88 8
def fCond (w : Nat) : Nat := bitsAt w 86 2
def fToDefault (w : Nat) : Nat := bitsAt w 85 1
def fTimeout (w : Nat) : Nat := bitsAt w 48 30
def fVstep (w : Nat) : Nat := bitsAt w 32 16
def fValue (w : Nat) : Nat := bitsAt w 0 32
def fStile (w : Nat) : Nat := bitsAt w 88 3
def fMask (w : Nat) : Nat := bitsAt w 76 12

/-- Operand of a WAIT or SIGNAL in iteration `j` (R86, R136). -/
def operandAt (w j : Nat) : Nat := (fValue w + j * fVstep w) % 2 ^ 32

/-! ### Formats of the matrix engine (R190, R191) -/

def mxFmtBits (f : Nat) : Nat :=
  if f = 6 ∨ f = 9 then 4 else if f = 4 ∨ f = 5 then 6 else if 10 ≤ f then 16 else 8
def mxScaled (f : Nat) : Bool := decide (2 ≤ f) && decide (f ≤ 7)
/-- Rate class of a pair of formats: 4, 8, 16, or 48 for pair mode; 0 when the pair is not legal. -/
def rateClass (a b : Nat) : Nat :=
  if a ≤ 1 ∧ b ≤ 1 then 8
  else if a = 6 ∧ b = 6 then 4
  else if 2 ≤ a ∧ a ≤ 6 ∧ 2 ≤ b ∧ b ≤ 6 then 8
  else if a = 7 ∧ b = 7 then 8
  else if a = 9 ∧ b = 9 then 4
  else if (a = 8 ∧ (b = 8 ∨ b = 9)) ∨ (a = 9 ∧ b = 8) then 8
  else if (a = 10 ∧ b = 10) ∨ (a = 11 ∧ b = 11) then 16
  else if a = 12 ∧ b = 12 then 48
  else 0
/-- MATRIX_TILE fields (R188). -/
def tSrcA (w : Nat) : Nat := bitsAt w 80 16
def tSrcB (w : Nat) : Nat := bitsAt w 64 16
def tBias (w : Nat) : Nat := bitsAt w 48 16
def tK (w : Nat) : Nat := 32 * (bitsAt w 37 11 + 1)
def tFmtA (w : Nat) : Nat := bitsAt w 33 4
def tFmtB (w : Nat) : Nat := bitsAt w 29 4
def tInit (w : Nat) : Nat := bitsAt w 28 1
def tOut (w : Nat) : Nat := bitsAt w 26 2
def tMover (w : Nat) : Nat := bitsAt w 24 2
def tClass (w : Nat) : Nat := rateClass (tFmtA w) (tFmtB w)
def tInt (w : Nat) : Bool := tFmtA w = 8 || tFmtA w = 9
def tPair (w : Nat) : Bool := tFmtA w = 12
/-- Streaming time (R87), element rows (R193), spans (R194) and rows of an operand in stream order (R195, R197). -/
def tStream (w : Nat) : Nat :=
  if tClass w = 4 then tK w / 2 else if tClass w = 16 then 2 * tK w else if tClass w = 48 then 6 * tK w else tK w
def elemRows (f k : Nat) : Nat := k * mxFmtBits f / 32
def spansOf (k : Nat) : Nat := (k + 127) / 128
def operandRows (f k : Nat) : Nat := if f = 12 then k else elemRows f k + (if mxScaled f then spansOf k else 0)
def tWeight (w : Nat) : Nat := if tClass w = 4 then 80 else if tClass w = 8 then 72 else 70

/-! ### Element programs -/

/-- ELEM fields (R219) and configuration fields. -/
def eSrcA (w : Nat) : Nat := bitsAt w 80 16
def eSrcB (w : Nat) : Nat := bitsAt w 64 16
def eDst (w : Nat) : Nat := bitsAt w 48 16
def eScl (w : Nat) : Nat := bitsAt w 32 16
def eG (w : Nat) : Nat := bitsAt w 16 16 + 1
def eN (w : Nat) : Nat := bitsAt w 10 6 + 1
def eOut (w : Nat) : Nat := bitsAt w 5 5
def cFmtA (c : Nat) : Nat := bitsAt c 124 4
def cFmtB (c : Nat) : Nat := bitsAt c 120 4
def cFmtD (c : Nat) : Nat := bitsAt c 116 4
def cKindA (c : Nat) : Nat := bitsAt c 114 2
def cKindB (c : Nat) : Nat := bitsAt c 112 2
def cKindD (c : Nat) : Nat := bitsAt c 110 2
def cFixedB (c : Nat) : Bool := hasBit c 109
def cRtz (c : Nat) : Bool := hasBit c 108
def cIeee (c : Nat) : Bool := hasBit c 107
def cMxGap (c : Nat) : Bool := hasBit c 106
def cScaleOut (c : Nat) : Bool := hasBit c 105
def cSclGap (c : Nat) : Bool := hasBit c 104
def cMsk (c : Nat) : Nat := bitsAt c 102 2
def cLanes (c : Nat) : Nat := bitsAt c 95 7 + 1
def cGFromParam (c : Nat) : Bool := hasBit c 94
def cGParam (c : Nat) : Nat := bitsAt c 90 4

/-- Extension words of an ELEM word (R219). -/
def elemExt (w : Nat) : Nat := 1 + (eN w + 1) / 2

/-- Bytes per group of a format of R222; a pair counts its hi array. -/
def vFmtBytes (f : Nat) : Nat :=
  if f = 0 ∨ f = 8 ∨ f = 13 then 512 else if f = 1 ∨ f = 2 ∨ f = 14 then 256
  else if f = 5 ∨ f = 6 then 96 else if f = 7 ∨ f = 10 then 64 else 128
def vPair (f : Nat) : Bool := f = 13 || f = 14

/-- Fields of an element instruction (R231). -/
def iOp (x : Nat) : Nat := bitsAt x 56 8
def iRd (x : Nat) : Nat := bitsAt x 51 5
def iRa (x : Nat) : Nat := bitsAt x 46 5
def iRb (x : Nat) : Nat := bitsAt x 41 5
def iRc (x : Nat) : Nat := bitsAt x 36 5
def iMk (x : Nat) : Nat := bitsAt x 34 2
def iG0 (x : Nat) : Bool := hasBit x 33
def iImm (x : Nat) : Nat := bitsAt x 0 32

/-- Instruction `n` of a program whose body words are given (R219). -/
def elemInsn (body : List Nat) (n : Nat) : Nat := bitsAt (nth body (n / 2)) (64 * (n % 2)) 64

/-- A row of R232: opcode, cost, which of RD, RA, RB, RC, MK an operation uses, and how many low IMM bits. -/
structure InsnRow where
  op : Nat
  cost : Nat
  rd : Bool
  ra : Bool
  rb : Bool
  rc : Bool
  useMk : Bool
  imm : Nat
  deriving DecidableEq, Repr
def insnTable : List InsnRow := [
  ⟨0x01, 1, true, true, true, false, false, 0⟩, ⟨0x02, 1, true, true, true, false, false, 0⟩,
  ⟨0x03, 1, true, true, true, false, false, 0⟩, ⟨0x04, 1, true, true, true, true, false, 0⟩,
  ⟨0x05, 1, true, true, true, false, false, 0⟩, ⟨0x06, 1, true, true, true, false, false, 0⟩,
  ⟨0x07, 1, true, true, false, false, false, 0⟩, ⟨0x08, 1, true, true, false, false, false, 0⟩,
  ⟨0x09, 1, true, true, true, false, false, 0⟩, ⟨0x0A, 1, false, true, true, false, true, 3⟩,
  ⟨0x10, 1, true, true, true, false, false, 0⟩, ⟨0x11, 1, true, true, true, false, false, 0⟩,
  ⟨0x12, 1, true, true, true, false, false, 0⟩, ⟨0x13, 1, true, true, true, false, false, 0⟩,
  ⟨0x14, 1, true, true, true, false, false, 0⟩, ⟨0x15, 1, false, true, true, false, true, 3⟩,
  ⟨0x16, 1, true, true, true, false, false, 0⟩, ⟨0x17, 1, true, true, true, false, false, 0⟩,
  ⟨0x18, 1, true, true, true, false, false, 0⟩, ⟨0x19, 1, true, true, true, false, false, 6⟩,
  ⟨0x1A, 1, true, true, true, false, false, 6⟩, ⟨0x1B, 1, true, true, true, false, false, 6⟩,
  ⟨0x20, 1, true, true, false, false, false, 0⟩, ⟨0x21, 1, true, false, false, false, false, 32⟩,
  ⟨0x22, 1, true, true, true, false, true, 0⟩, ⟨0x23, 1, true, false, false, false, false, 0⟩,
  ⟨0x24, 1, true, false, false, false, false, 0⟩, ⟨0x28, 1, true, true, false, false, false, 7⟩,
  ⟨0x29, 1, true, true, false, false, false, 0⟩, ⟨0x2A, 1, true, true, false, false, false, 5⟩,
  ⟨0x30, 1, true, true, false, false, false, 2⟩, ⟨0x31, 1, true, true, false, false, true, 5⟩,
  ⟨0x32, 1, true, true, false, false, false, 7⟩, ⟨0x33, 1, true, true, false, false, false, 0⟩,
  ⟨0x34, 1, true, true, false, false, false, 0⟩, ⟨0x38, 1, true, true, true, false, false, 0⟩,
  ⟨0x39, 1, true, true, true, false, false, 0⟩, ⟨0x3A, 1, true, true, true, false, false, 0⟩,
  ⟨0x40, 4, true, true, false, false, false, 6⟩, ⟨0x41, 4, true, true, false, false, false, 6⟩,
  ⟨0x42, 4, true, true, false, false, false, 6⟩, ⟨0x43, 4, true, true, false, false, false, 6⟩,
  ⟨0x44, 4, true, true, false, false, false, 6⟩, ⟨0x45, 4, true, true, false, false, false, 6⟩,
  ⟨0x48, 8, true, true, false, false, false, 6⟩, ⟨0x49, 8, true, true, false, false, false, 6⟩,
  ⟨0x50, 1, true, true, false, false, false, 32⟩, ⟨0x51, 1, false, true, true, false, false, 32⟩]
def insnRow (op : Nat) : Option InsnRow := insnTable.find? (fun r => r.op == op)

/-- A special function (R253). -/
def isSfu (op : Nat) : Bool := decide (0x40 ≤ op) && decide (op ≤ 0x49)
/-- Cost of an instruction (R88, R232). -/
def insnCost (x : Nat) : Nat :=
  match insnRow (iOp x) with
  | some r => if isSfu (iOp x) ∧ hasBit (iImm x) 0 then 2 * r.cost else r.cost
  | none => 0
/-- Group cost C (R88). -/
def groupCost (w : Nat) (body : List Nat) : Nat :=
  (List.range (eN w)).foldl (fun c n => c + insnCost (elemInsn body n)) 0
def hasSfu (w : Nat) (body : List Nat) : Bool := (List.range (eN w)).any (fun n => isSfu (iOp (elemInsn body n)))

/-- Whether an element instruction is one that the loader accepts (R231, R232, R246, R264). -/
def insnOk (x : Nat) : Bool :=
  match insnRow (iOp x) with
  | none => false
  | some r =>
    let op := iOp x
    let imm := iImm x
    (r.rd || iRd x = 0) && (r.ra || iRa x = 0) && (r.rb || iRb x = 0) && (r.rc || iRc x = 0) && (r.useMk || iMk x = 0) &&
    decide (imm < 2 ^ r.imm) && !hasBit x 32 &&
    (!(op = 0x0A || op = 0x15) || (decide (imm ≤ 5) && iMk x != 0)) &&
    (!(op = 0x19 || op = 0x1A || op = 0x1B) || (if hasBit imm 5 then iRb x = 0 else imm % 32 = 0)) &&
    (!(op = 0x28) || (decide (imm % 16 ≤ 11) &&
      !(hasBit imm 6 && ((decide (1 ≤ imm % 16) && decide (imm % 16 ≤ 7)) || imm % 16 = 11)))) &&
    (!(op = 0x2A) || ((decide (3 ≤ imm % 16) && decide (imm % 16 ≤ 7)) || imm % 16 = 11)) &&
    (!(op = 0x31) || hasBit imm 4 || iMk x = 0) &&
    (!(op = 0x29) || iRd x % 2 = 0) &&
    (!(op = 0x33 || op = 0x34) || (iRd x % 2 = 0 && decide (iRd x ≤ 22))) &&
    (!(op = 0x38) || (iRd x % 2 = 0 && iRa x % 2 = 0 && iRb x % 2 = 0)) &&
    (!(op = 0x39 || op = 0x3A) || (iRd x % 2 = 0 && iRa x % 2 = 0)) &&
    (!isSfu op || (decide (bitsAt imm 1 5 ≤ 23) && (!hasBit imm 0 || bitsAt imm 1 5 = 0)))

/-- A source field of R189. -/
def srcOk (v : Nat) : Bool := !hasBit v 15 || bitsAt v 6 9 = 0

/-! ### What a word names -/

/-- What a word names, and whether its encoding is legal (R82 to R84, R103 check 3, R144): cells, stiles, drawers, and runs of
static rows (first row, number). -/
structure WInfo where
  ok : Bool
  cells : List Nat
  stiles : List Nat
  drawers : List Nat
  rows : List (Nat × Nat)
  deriving DecidableEq, Repr

def winfo0 (ok : Bool) : WInfo := ⟨ok, [], [], [], []⟩
def WInfo.src (i : WInfo) (v n : Nat) : WInfo :=
  match rowField v with
  | .drw d => { i with ok := i.ok && srcOk v, drawers := d :: i.drawers }
  | .run r => { i with rows := (r, n) :: i.rows }
/-- A completion action (R142). -/
def WInfo.done (i : WInfo) (a : Nat) : WInfo :=
  if doneAction a = 0 then { i with ok := i.ok && a = 0 }
  else if doneAction a = 1 then { i with ok := i.ok && doneAmount a != 0, cells := doneCell a :: i.cells }
  else if doneAction a = 2 then
    { i with ok := i.ok && bitsAt a 20 2 = 0 && bitsAt a 3 5 = 0, stiles := doneStile a :: i.stiles }
  else { i with ok := false }

def timeoutOk (w : Nat) : Bool :=
  hasBit w 85 || (decide (1000 ≤ fTimeout w) && decide (fTimeout w ≤ 1000000000))

def controlInfo (w : Nat) : WInfo :=
  let x := wOperands w
  match wOp w with
  | 0x00 => winfo0 (x = 0)
  | 0x01 => winfo0 (x = 0)
  | 0x02 => winfo0 (bitsAt w 25 71 = 0 && wDelta w = 0 && (!hasBit w 24 || bitsAt w 4 20 = 0))
  | 0x03 => winfo0 (x = 0 && wDelta w = 0)
  | 0x04 => { winfo0 (fCond w != 3 && bitsAt w 78 7 = 0 && timeoutOk w) with cells := [fCell w] }
  | 0x05 => { winfo0 (fCond w != 3 && bitsAt w 48 38 = 0) with cells := [fCell w] }
  | 0x06 => { winfo0 (bitsAt w 91 5 = 0 && bitsAt w 0 76 = 0) with stiles := [fStile w] }
  | 0x07 => { winfo0 (bitsAt w 91 5 = 0 && bitsAt w 86 2 = 0 && bitsAt w 78 7 = 0 && bitsAt w 0 48 = 0 && timeoutOk w)
      with stiles := [fStile w] }
  | _ => winfo0 false

/-- MATRIX_TILE (R188, R189, R191). -/
def tileInfo (w : Nat) : WInfo :=
  let i := winfo0 (tClass w != 0 && bitsAt w 0 24 = 0 && decide (tOut w ≤ 1) && (tOut w = 1 || tMover w = 0) &&
    !(tOut w = 1 && (tInt w || tPair w)) && (tInit w = 1 || tBias w = 0))
  let i := (i.src (tSrcA w) (operandRows (tFmtA w) (tK w))).src (tSrcB w) (operandRows (tFmtB w) (tK w))
  if tInit w = 1 then i.src (tBias w) 1 else i

/-- Element rows of a span in an output of format `f` (R194, R241), and the row of output row `k` when gaps are left for the
scale rows (R242). -/
def spanRows (f : Nat) : Nat := if f = 7 then 16 else if f = 5 ∨ f = 6 then 24 else 32
def mxGapRow (f k : Nat) : Nat := k + k / spanRows f + (if k % spanRows f = 0 then 0 else 1)

/-- ELEM with its configuration word, its body and the view of the working store (R223 to R227, R246); `pused` and `pmax` are
PARAM_USED and PARAM_MAX of the image. -/
def elemInfo (w c : Nat) (body : List Nat) (mode pused : Nat) (pmax : List Nat) : WInfo :=
  let n := eN w
  let insns := (List.range n).map (elemInsn body)
  let cost := groupCost w body
  let g := eG w
  let fp := cGFromParam c
  let b := vFmtBytes
  let ka := cKindA c
  let kb := cKindB c
  let kd := cKindD c
  let reads (k f : Nat) : Nat := if k = 1 then (if vPair f then 2 else 1) else 0
  let srcFmt (k f v : Nat) : Bool :=
    f != 15 &&
    (if k = 0 then v = 0 else if k = 1 then !(vPair f && hasBit v 15)
     else if k = 2 then (f = 0 || f = 8 || f = 13) && v = 0
     else (f = 0 || f = 8) && bitsAt v 2 13 = 0 && mode = 1)
  let dst := eDst w
  let qscl := insns.filter (fun x => iOp x = 0x2A)
  let ok :=
    bitsAt w 0 5 = 0 && bitsAt c 0 90 = 0 && (n % 2 = 0 || bitsAt (nth body (n / 2)) 64 64 = 0) && insns.all insnOk &&
    srcFmt ka (cFmtA c) (eSrcA w) && srcFmt kb (cFmtB c) (eSrcB w) && cFmtD c != 15 &&
    (kd != 0 || dst = 0) && (kd != 2 || ((cFmtD c = 0 || cFmtD c = 8) && bitsAt dst 2 14 = 0 && mode = 1)) &&
    (!(vPair (cFmtD c) && (kd = 1 || kd = 3)) || (!hasBit dst 15 && decide (2 ≤ cost))) &&
    (!vPair (cFmtD c) || eOut w % 2 = 0) &&
    (!cFixedB c || (kb = 1 && !vPair (cFmtB c))) &&
    decide (reads ka (cFmtA c) + reads kb (cFmtB c) ≤ 2) &&
    (!(ka = 2 && kb = 2) || (if fp then decide (nth pmax (cGParam c) ≤ 128) else decide (g ≤ 128))) &&
    (if cScaleOut c then kd != 1 && kd != 3 && qscl.length = 1 && !(qscl.any iG0) else eScl w = 0) &&
    (!cMxGap c || (kd = 1 && !hasBit dst 15 && ((decide (3 ≤ cFmtD c) && decide (cFmtD c ≤ 7)) || cFmtD c = 11))) &&
    (!(cFmtD c = 5 || cFmtD c = 6) || (!fp && g % 16 = 0)) &&
    (!(insns.any (fun x => iOp x = 0x50 || iOp x = 0x51)) || mode = 0) &&
    (!fp || (g = 1 && hasBit pused (cGParam c) && decide (nth pmax (cGParam c) ≤ 65536)))
  let rowsOf (f : Nat) : Nat := if fp then 1 else (g * b f + 511) / 512 * (if vPair f then 2 else 1)
  let dstRows : Nat := if cMxGap c then mxGapRow (cFmtD c) (rowsOf (cFmtD c) - 1) + 1 else rowsOf (cFmtD c)
  let sclRows : Nat :=
    if fp then 1
    else if cSclGap c then ((g + 127) / 128 - 1) * (spanRows (iImm (nth qscl 0) % 16) + 1) + 1
    else (g + 127) / 128
  let i := winfo0 ok
  let i := if ka = 1 then i.src (eSrcA w) (rowsOf (cFmtA c)) else i
  let i := if kb = 1 then i.src (eSrcB w) (if cFixedB c then 1 else rowsOf (cFmtB c)) else i
  let i := if kd = 1 then i.src dst dstRows else if kd = 3 then i.src dst (if vPair (cFmtD c) then 2 else 1) else i
  if cScaleOut c then i.src (eScl w) sclRows else i

def wsModeInfo (w : Nat) : WInfo := winfo0 (bitsAt w 1 95 = 0)

/-- ATTN_PASS (R279). -/
def passInfo (w : Nat) : WInfo := ((winfo0 (bitsAt w 0 56 = 0)).src (bitsAt w 80 16) 1).done (bitsAt w 56 24)

/-- TABLE_LOOKUP (R357, R358, R360). -/
def lSlot (w : Nat) : Nat := bitsAt w 88 8
def lReq (w : Nat) : Nat := bitsAt w 72 16
def lDst (w : Nat) : Nat := bitsAt w 56 16
def lBags (w : Nat) : Nat := bitsAt w 49 7 + 1
def lPool (w : Nat) : Nat := bitsAt w 46 3
def lOfmt (w : Nat) : Nat := bitsAt w 44 2
def lReqRows (w : Nat) : Nat := 1 + lBags w * (if lPool w = 4 then 2 else 1)
def lookupInfo (w : Nat) : WInfo :=
  let i := winfo0 (decide (lPool w ≤ 4) && bitsAt w 24 20 = 0 && !(lPool w = 0 && lBags w != 1) &&
    !(lOfmt w = 3 && lPool w != 0))
  ((i.src (lReq w) (lReqRows w)).src (lDst w) (if lPool w = 0 then 64 else lBags w)).done (bitsAt w 0 24)

/-- Mover fields (R574). -/
def mRows (w : Nat) : Nat := bitsAt w 80 16
def mN (w : Nat) : Nat := bitsAt w 68 12 + 1
def mPtrRow (w : Nat) : Nat := bitsAt w 53 15
def mPtrIdx (w : Nat) : Nat := bitsAt w 47 6
def mA (w : Nat) : Nat := bitsAt w 43 4
def mB (w : Nat) : Nat := bitsAt w 40 3
def mStep (w : Nat) : Nat := bitsAt w 26 14
def mMode (w : Nat) : Nat := bitsAt w 24 2
def mDone (w : Nat) : Nat := bitsAt w 0 24
def moverInfo (w : Nat) : WInfo :=
  let op := wOp w
  let ok :=
    if op = opcFetch ∨ op = opcWrite then mA w = 0 && mMode w = 0
    else if op = opcRecv then mStep w = 0 && decide (mB w ≤ 5) && mMode w != 3 && !(mB w = 0 && mMode w != 0) &&
      !(mB w = 4 && mN w != 2) && !(mB w = 5 && mN w != 5)
    else if op = opcPageFetch then mN w = 64 && mA w = 0 && mStep w = 0 && mMode w = 0
    else if op = opcPush then mStep w = 0 && mMode w = 0
    else false
  let i := (winfo0 ok).src (mRows w) (mN w)
  ({ i with rows := (mPtrRow w, 1) :: i.rows }).done (mDone w)
/-- KV_APPEND (R328). -/
def appendInfo (w : Nat) : WInfo := ((winfo0 (bitsAt w 0 56 = 0)).src (bitsAt w 80 16) 3).done (bitsAt w 56 24)

/-- The stream on which a class may stand (R83). -/
def classOn (op stream : Nat) : Bool :=
  match op / 16 with
  | 0 => true
  | 1 => stream = 0
  | 2 => stream = 1
  | 3 => stream = 2
  | 4 => stream = 3
  | 5 => decide (4 ≤ stream) && decide (stream ≤ 7)
  | 6 => decide (8 ≤ stream) && decide (stream ≤ 11)
  | _ => false

/-- What the word at the head of `ws` names; ELEM takes its extension words from `ws`. -/
def wordInfo (ws : List Nat) (stream mode pused : Nat) (pmax : List Nat) : WInfo :=
  let w := nth ws 0
  let op := wOp w
  let i :=
    if op < 8 then controlInfo w
    else if op = opcTile then tileInfo w
    else if op = opcElem then elemInfo w (nth ws 1) ((ws.drop 2).take (elemExt w - 1)) mode pused pmax
    else if op = opcWsMode then wsModeInfo w
    else if op = opcPass then passInfo w
    else if op = opcLookup then lookupInfo w
    else if op = opcAppend then appendInfo w
    else if op / 16 = 5 ∨ op / 16 = 6 then moverInfo w
    else winfo0 false
  { i with ok := i.ok && wReserved w = 0 && classOn op stream }

/-- Words that an instruction takes in its section (R219). -/
def wordLen (w : Nat) : Nat := if wOp w = opcElem then 1 + elemExt w else 1

end Sys2Proof.Machine
end

