-- ==== Sys2Proof/Machine/Issue.lean ====
section
/-! DEFINITION. Issue of stream instructions (R77 to R97, R107 to R109): which instructions are due in the pending tick, what
keeps the tick from issuing, slips and their records, and the frame that every instruction's meaning runs in. -/

namespace Sys2Proof.Machine

/-! ### Cores and runs -/

/-- Whether a core is clocked: its paddock belongs to a tenant, the role runs schedules, the core is not gated (R21, R640),
the module is powered, the PLLs run (R678), and the device is neither killed (R619) nor in the fatal state (R669); a physical core
that is marked failed runs nothing (R660). -/
def State.coreLive (s : State) (c : Nat) : Bool :=
  let p := corePdk c
  let st := s.pdkState p
  (st = pdkAssigned || st = pdkActive || st = pdkQuiesced) && s.role p != 2 && !(tget false s.sched.gated [c]) &&
    s.rd F.CLK_STAT_RELOCKING 0 = 0 && s.rd F.HIF_FATAL_FATAL 0 = 0 && s.pins.pwrgd && s.rd F.RTP_DEV_KILLED 0 = 0 &&
    !(tget false s.rel.badCores [s.phys c])

/-- The run of a side: the running or the armed one. -/
def PdkRun.bySide (r : PdkRun) (side : Nat) : Option Run :=
  match r.running with
  | some x => if x.side = side then some x else r.armed.bind (fun y => if y.side = side then some y else none)
  | none => none
def State.sideOf (s : State) (p : Nat) (armed : Bool) : Option Run :=
  if armed then (s.runsOf p).armed else (s.runsOf p).running
def State.isRunning (s : State) (p side : Nat) : Bool := (s.runsOf p).running.any (fun r => r.side == side)

/-- The section of a core in the image of a run, and the words of one of its streams. -/
def State.sectionOf (s : State) (c : Nat) (r : Run) : Option CoreSec :=
  (s.imageOf (corePdk c) r.slot).bind (fun im => if hasBit im.coreMask (coreOff c) then im.sections[coreOff c]? else none)
def State.wordsOf (s : State) (c : Nat) (r : Run) (st : Nat) : List Nat :=
  ((s.sectionOf c r).bind (fun x => x.streams[st]?)).getD []

/-- The word at which a stream stands, with those that follow it; none when its section has ended. -/
def State.wordAt (s : State) (c : Nat) (r : Run) (st : Nat) : Option (List Nat) :=
  let x := s.streamOf c r.side st
  let ws := (s.wordsOf c r st).drop x.idx
  if x.ended ∨ ws = [] then none else some ws

/-- Iteration of the innermost open loop (R85). -/
def Stream.iter (x : Stream) : Nat := (x.loops.head?.map (fun l => l.iter)).getD 0

/-- SCH_TICK at which the next word of a stream is due (R79, R80). -/
def State.dueTick (s : State) (c : Nat) (r : Run) (st w : Nat) : Option Nat :=
  (s.headOf c r.side).map (fun h => h + (s.streamOf c r.side st).last.getD 0 + wDelta w)

/-- The runs whose head has started on a core. -/
def State.runsOn (s : State) (c : Nat) : List Run :=
  let r := s.runsOf (corePdk c)
  (r.running.toList ++ r.armed.toList).filter (fun x => (s.headOf c x.side).isSome)

/-- An instruction of the pending tick: run, stream and words. -/
structure Due where
  run : Run
  stream : Nat
  ws : List Nat
  deriving DecidableEq, Repr

def Due.word (d : Due) : Nat := nth d.ws 0

/-- Streams that stand at a word, with it. -/
def State.standing (s : State) (c : Nat) : List Due :=
  (s.runsOn c).flatMap (fun r => (List.range 12).filterMap (fun st => (s.wordAt c r st).map (fun ws => ⟨r, st, ws⟩)))

/-- The instructions that the pending tick is to issue, and whether a LOOP or ENDLOOP stands before one (R79). -/
def State.dueList (s : State) (c : Nat) : List Due :=
  (s.standing c).filter (fun d => issues d.word && s.dueTick c d.run d.stream d.word == some (s.tickOf c))
def State.unresolved (s : State) (c : Nat) : Bool := (s.standing c).any (fun d => !issues d.word)

/-! ### What keeps a tick from issuing -/

/-- Whether the wait of a word holds (R138, R151). -/
def State.waitHolds (s : State) (c st w j : Nat) : Bool :=
  if wOp w = opcWait then condHolds (fCond w) (s.rd F.SYN_VAL_VALUE c (fCell w)) (operandAt w j)
  else if wOp w = opcStileWait then
    s.rd F.SYN_STILE_SENSE c (fStile w) = b2n (hasBit (s.rd F.SYN_STILE_LOCAL c (fStile w)) st)
  else true

/-- R109: whether the running image still holds the stream that an instruction of the armed image needs. -/
def State.overlapHeld (s : State) (c : Nat) (d : Due) : Bool :=
  match (s.runsOf (corePdk c)).running with
  | none => false
  | some r =>
    if r.side = d.run.side ∨ (s.sectionOf c r).isNone then false
    else
      let ret := s.rd F.SCH_RETIRED_RUN_RET c
      if d.stream < 3 then !(hasBit ret 0 && hasBit ret 1 && hasBit ret 2) else !(hasBit ret d.stream)

/-- Operations that a stream of a core has outstanding, both images counted (R87). -/
def State.outstanding (s : State) (c st : Nat) : Nat := (s.streamOf c 0 st).outst + (s.streamOf c 1 st).outst

/-- Append tiles that hold a buffer of mover `m` (R204). -/
def Op.isAppendTile (o : Op) (c m : Nat) : Bool :=
  o.core == c && (match o.kind with
    | .tile t => tOut t.word == 1 && tMover t.word == m
    | _ => false)
def State.appBufOf (s : State) (c m : Nat) : List AppTile := tget [] s.sched.appBufs [c, m]
def State.appHeld (s : State) (c m : Nat) : Nat :=
  (s.sched.ops.filter (fun o => o.isAppendTile c m)).length + (s.appBufOf c m).length

/-- Rows of the reorder store that receives of MODE 2 hold on a core (R580), and the rows a RECV needs there. -/
def Op.reorderRows (o : Op) (c : Nat) : Nat :=
  if o.core = c then (match o.kind with
    | .recv r => if r.mode = 2 then r.n * (popBits r.mask 64) else 0
    | _ => 0) else 0
def State.reorderUsed (s : State) (c : Nat) : Nat := s.sched.ops.foldl (fun n o => n + o.reorderRows c) 0
/-- The pointer entry of a mover instruction (R574). -/
def State.ptrEntry (s : State) (c w : Nat) : Nat := fieldAt (s.rowOf c (mPtrRow w)) (8 * mPtrIdx w) 8

/-- R89: whether the engine of an instruction is not free. -/
def State.engineBusy (s : State) (c : Nat) (d : Due) : Bool :=
  let w := d.word
  let op := wOp w
  let busy := decide (s.opTick c < tget 0 s.sched.busy [c, d.stream])
  if op < 8 then false
  else if op = opcTile then
    busy || decide (0 < s.outstanding c stAE) || (tOut w = 1 && decide (2 ≤ s.appHeld c (tMover w)))
  else if op = opcPass then decide (0 < s.outstanding c stAE)
  else if op = opcLookup then decide (8 ≤ s.outstanding c stTE)
  else if op / 16 = 5 then
    decide (32 ≤ s.outstanding c d.stream) ||
    (op = opcRecv && mMode w = 2 &&
      (let need := mN w * popBits (s.ptrEntry c w) 64
       decide (need ≤ 512) && decide (512 < s.reorderUsed c + need)))
  else if op / 16 = 6 then busy || decide (32 ≤ s.outstanding c d.stream)
  else busy

/-- The cause, in the order of R94, that keeps an instruction from issuing: 3 wait, 4 overlap, 5 engine busy; 0 none. -/
def State.causeOf (s : State) (c : Nat) (d : Due) : Nat :=
  let j := (s.streamOf c d.run.side d.stream).iter
  if s.waitHolds c d.stream d.word j = false then 3
  else if s.overlapHeld c d then 4
  else if s.engineBusy c d then 5
  else 0

/-- The position of the instruction at which a stream stands. -/
def State.posAt (s : State) (c : Nat) (r : Run) (st : Nat) : Nat := positionOf st r.slot (s.streamOf c r.side st).idx

/-- What keeps the pending tick of a core from issuing: the first cause in order, its lowest stream, position (R90, R94). A
tick that has begun to issue is kept by nothing. -/
def State.blockOf (s : State) (c : Nat) : Option (Nat × Due) :=
  if tget false s.sched.opened [c] then none
  else
    let l := (s.dueList c).map (fun d => (s.causeOf c d, d))
    [3, 4, 5].findSome? (fun k =>
      (List.range 12).findSome? (fun st => l.find? (fun x => x.1 == k && x.2.stream == st)))

/-! ### Slips -/

/-- A warning on every run whose head has started on a core (R95, R122, R130). -/
def Run.warn (w : Nat) (r : Run) : Run :=
  if r.tally.warnings.contains w then r else { r with tally := { r.tally with warnings := w :: r.tally.warnings } }
def State.warnOn (s : State) (c w : Nat) : State :=
  let p := corePdk c
  let r := s.runsOf p
  let f (x : Run) : Run := if (s.headOf c x.side).isSome then x.warn w else x
  s.setRuns p { r with running := r.running.map f, armed := r.armed.map f }
def State.warnSide (s : State) (p side w : Nat) : State :=
  let r := s.runsOf p
  let f (x : Run) : Run := if x.side = side then x.warn w else x
  s.setRuns p { r with running := r.running.map f, armed := r.armed.map f }

/-- A contract slip begins (R95): it is counted, the first since the record was re-armed is recorded, and the runs carry the
warning. Kinds: 1 overlap, 2 engine busy, 3 bank conflict. -/
def State.contractSlip (s : State) (c kind bank stream position clocks : Nat) : State :=
  let s := (s.bump F.SCH_CSLIP_EVENTS_COUNT c).warnOn c 0x160
  if s.rd F.SCH_CSLIP0_VALID c = 1 then s
  else
    let s := (s.wr F.SCH_CSLIP0_VALID c 1).wr F.SCH_CSLIP0_KIND c kind
    let s := (s.wr F.SCH_CSLIP0_BANK c bank).wr F.SCH_CSLIP0_STREAM c stream
    let s := (s.wr F.SCH_CSLIP0_SLIP_CLOCKS c (min clocks 0xFFFFF)).wr F.SCH_CSLIP0_POSITION c position
    (s.wr F.SCH_CSLIP1_TICK c (s.tickOf c)).wr F.SCH_CSLIP2_TIME c s.now

def State.slipOf (s : State) (c : Nat) : Option Slip := tget none s.sched.slips [c]
def State.setSlip (s : State) (c : Nat) (x : Option Slip) : State :=
  { s with sched := { s.sched with slips := tset none s.sched.slips [c] x } }

/-- A stream stops waiting (R141). -/
def State.clearWait (s : State) (c st : Nat) : State :=
  let s : State := { s with sched := { s.sched with waits := tset none s.sched.waits [c, st] none } }
  let t := s.rd F.SYN_WAIT_TARGET c st
  let s := if s.rd F.SYN_WAIT_VALID c st = 1 ∧ s.rd F.SYN_WAIT_KIND c st = 0 then
      s.wr F.SYN_LSIG_WAITERS c (clrBit (s.rd F.SYN_LSIG_WAITERS c t) st) t
    else s
  let s := (s.wr F.SYN_WAIT_VALID c 0 st).wr F.SYN_WAIT_KIND c 0 st
  let s := (s.wr F.SYN_WAIT_COND c 0 st).wr F.SYN_WAIT_TARGET c 0 st
  (s.wr F.SYN_WAIT_CLOCKS c 0 st).wr F.SYN_WAIT_OPERAND c 0 st

/-- A stream's wait fails: the waiter set and SYN_WAIT show it from the first failing clock on (R141). -/
def State.markWait (s : State) (c : Nat) (d : Due) : State :=
  let st := d.stream
  if (tget none s.sched.waits [c, st]).isSome then s
  else
    let w := d.word
    let j := (s.streamOf c d.run.side st).iter
    let s : State := { s with sched := { s.sched with waits := tset none s.sched.waits [c, st] (some s.now) } }
    let s := (s.wr F.SYN_WAIT_VALID c 1 st).wr F.SYN_WAIT_CLOCKS c 0 st
    if wOp w = opcWait then
      let s := (s.wr F.SYN_WAIT_KIND c 0 st).wr F.SYN_WAIT_COND c (fCond w) st
      let s := (s.wr F.SYN_WAIT_TARGET c (fCell w) st).wr F.SYN_WAIT_OPERAND c (operandAt w j) st
      s.wr F.SYN_LSIG_WAITERS c (setBit (s.rd F.SYN_LSIG_WAITERS c (fCell w)) st) (fCell w)
    else
      let s := (s.wr F.SYN_WAIT_KIND c 1 st).wr F.SYN_WAIT_COND c 0 st
      (s.wr F.SYN_WAIT_TARGET c (fStile w) st).wr F.SYN_WAIT_OPERAND c
        (b2n (hasBit (s.rd F.SYN_STILE_LOCAL c (fStile w)) st)) st

/-- Every failing wait of the pending tick is marked, and no other stream waits. -/
def State.markWaits (s : State) (c : Nat) : State :=
  let l := (s.dueList c).filter (fun d => s.causeOf c d == 3)
  let s := loopN 12 (fun st s =>
    if (tget none s.sched.waits [c, st]).isSome && !(l.any (fun d => d.stream == st)) then s.clearWait c st else s) s
  l.foldl (fun s d => s.markWait c d) s

/-- The slip of a core follows what keeps its pending tick (R90, R94, R95). -/
def State.slipNow (s : State) (c : Nat) : State :=
  match s.blockOf c with
  | none => s
  | some (k, d) =>
    let pos := s.posAt c d.run d.stream
    let s := s.markWaits c
    match s.slipOf c with
    | some x => if x.cause = k then s else
        let s := s.setSlip c (some { x with cause := k, side := d.run.side, stream := d.stream, position := pos })
        if k = 3 then s else s.contractSlip c (k - 3) 0 d.stream pos 0
    | none =>
      let s := s.setSlip c (some ⟨k, d.run.side, d.stream, pos, 0, s.now⟩)
      if k = 3 then s else s.contractSlip c (k - 3) 0 d.stream pos 0

/-- A slip ends: the recorded contract slip takes its length (R90, R95). -/
def State.slipDone (s : State) (c : Nat) : State :=
  match s.slipOf c with
  | none => s
  | some x =>
    let s := loopN 12 (fun st s => if (tget none s.sched.waits [c, st]).isSome then s.clearWait c st else s) s
    let s := if s.rd F.SCH_CSLIP0_VALID c = 1 ∧ s.rd F.SCH_CSLIP2_TIME c = x.since ∧ x.cause ≠ 3 then
        s.wr F.SCH_CSLIP0_SLIP_CLOCKS c (min x.clocks 0xFFFFF)
      else s
    s.setSlip c none

/-! ### The frame of an instruction -/

/-- Where an instruction issues, for its meaning: core, paddock, run, stream, position, the words from its own on, and the
iteration of the innermost loop. -/
structure Ctx where
  c : Nat
  p : Nat
  run : Run
  st : Nat
  pos : Nat
  ws : List Nat
  j : Nat
  deriving DecidableEq, Repr

def Ctx.w (x : Ctx) : Nat := nth x.ws 0
def Ctx.side (x : Ctx) : Nat := x.run.side

/-- The view of the working store that a VE section selects (R221). -/
def viewOf (ws : List Nat) : Nat := ((ws.find? issues).map (fun w => if wOp w = opcWsMode then bitsAt w 0 1 else 0)).getD 0

/-- R108: from TAIL_START on, an instruction of the running image names only what the tail declares. -/
def State.tailBreach (s : State) (x : Ctx) : Bool :=
  s.isRunning x.p x.side &&
  (match s.imageOf x.p x.run.slot with
   | none => false
   | some im =>
     decide ((s.headOf x.c x.side).getD 0 + im.tailStart ≤ s.tickOf x.c) && (
     let i := wordInfo x.ws x.st (viewOf (s.wordsOf x.c x.run stVE)) im.paramUsed im.paramMax
     !(hasBit im.tailStreams x.st) || i.cells.any (fun n => !hasBit im.tailCells n) ||
       i.stiles.any (fun n => !hasBit im.tailStiles n) || i.drawers.any (fun n => !hasBit im.tailDrawers n)))

/-- The stream goes past the word it stands at, which issued in this tick. -/
def State.advance (s : State) (x : Ctx) : State :=
  let y := s.streamOf x.c x.side x.st
  let tick := s.tickOf x.c - (s.headOf x.c x.side).getD 0
  let s := s.setStream x.c x.side x.st { y with idx := y.idx + wordLen x.w, last := some tick }
  { s with sched := { s.sched with opened := tset false s.sched.opened [x.c] true } }

/-- Issue of an instruction with opcode `op` at `a` (R79, R90, R108, R109): it takes place only where the stream stands at a
word of that opcode that is due in the pending tick of a clocked core whose schedule is not aborting; a tick that something
keeps from issuing makes the core slip instead; a breach of the tail declaration aborts. -/
def State.issueAs (s : State) (op : Nat) (a : At) (eff : Ctx → State → State) : State :=
  let c := a.core.val
  let p := corePdk c
  match s.sideOf p a.armed with
  | none => s
  | some r =>
    match s.wordAt c r a.stream.val with
    | none => s
    | some ws =>
      if s.coreLive c = false ∨ (s.runsOf p).cause.isSome ∨ wOp (nth ws 0) ≠ op ∨
          s.dueTick c r a.stream.val (nth ws 0) ≠ some (s.tickOf c) ∨ s.unresolved c = true then s
      else if (s.blockOf c).isSome then s.slipNow c
      else
        let s := s.slipDone c
        let x : Ctx := ⟨c, p, r, a.stream.val, s.posAt c r a.stream.val, ws, (s.streamOf c r.side a.stream.val).iter⟩
        if s.tailBreach x then s.abort p 0x608
        else eff x (s.advance x)

end Sys2Proof.Machine
end

