-- ==== Sys2Proof/Machine/Dump.lean ====
section
/-! DEFINITION. Sward dumps: the trigger (R638, R639) that commands and timeouts share. -/

namespace Sys2Proof.Machine

def State.dumpOf (s : State) (p : Nat) : Option Dump := tget none s.dumps [p]
def State.setDump (s : State) (p : Nat) (d : Dump) : State := { s with dumps := tset none s.dumps [p] (some d) }
def State.dumpCfgOf (s : State) (p : Nat) : Option DumpCfg := tget none s.dumpCfgs [p]

/-- SCH_PSTAT as a word (R113). -/
def State.pstatWord (s : State) (p : Nat) : Nat :=
  s.rd F.SCH_PSTAT_LOADED p * 256 + s.rd F.SCH_PSTAT_ARMED_V p * 128 + s.rd F.SCH_PSTAT_ARMED p * 32 +
    s.rd F.SCH_PSTAT_OVERLAP p * 16 + s.rd F.SCH_PSTAT_RUN_V p * 8 + s.rd F.SCH_PSTAT_RUNNING p * 2

/-- Why a trigger is not accepted, in the order of R638; 0 when it is. -/
def State.dumpStatus (s : State) (p : Nat) (buffer : Bool) : Nat :=
  if ¬ (s.pdkState p = pdkActive ∨ s.pdkState p = pdkQuiesced) then 0x301
  else if s.rd F.PDK_STATE_DUMPED p = 1 then 0x680
  else if buffer = false then 0x681
  else 0

/-- An accepted trigger: DUMPED is set and the paddock is frozen (R639, R640); the registers of R654 follow. -/
def State.dumpTrigger (s : State) (p : Nat) (d : Dump) : State :=
  let s := (s.wr F.PDK_STATE_DUMPED p 1).setDump p d
  let s := (s.wr F.SWD_STAT_STATE p 1).wr F.SWD_STAT_CAUSE p d.cause
  s.wr F.SWD_TIME_TRIGGER_TIME p s.now

/-- The automatic trigger of a timeout (R638): none when AUTO is not set or the conditions fail. -/
def State.autoDump (s : State) (c cause stream position expected found : Nat) : Option State :=
  let p := corePdk c
  match s.dumpCfgOf p with
  | some g =>
    if g.auto = true ∧ s.dumpStatus p true = 0 then
      some (s.dumpTrigger p ⟨none, g.byPf, g.ptr, g.bytes, cause, s.now, s.pstatWord p, coreOff c, stream, position,
        expected, found, [], false, []⟩)
    else none
  | none => none

end Sys2Proof.Machine
end

