-- ==== Sys2Proof/Machine/Image.lean ====
section
/-! DEFINITION. Schedule images: their layout and the checks of a load (R100 to R103, R144). -/

namespace Sys2Proof.Machine

/-! ### CRC-32 (R100) -/

def crcStep : Nat → Nat → Nat
  | 0, c => c
  | n + 1, c => crcStep n (if c % 2 = 1 then Nat.xor (c / 2) 0xEDB88320 else c / 2)
def crc32 (bs : List Byte) : Nat :=
  Nat.xor (bs.foldl (fun c b => crcStep 8 (Nat.xor c b.toNat)) 0xFFFFFFFF) 0xFFFFFFFF

/-! ### Layout -/

/-- Words of a stream section. -/
def imgWords (b : List Byte) (off n : Nat) : List Nat := (List.range n).map (fun k => fieldAt b (off + 16 * k) 16)

/-- Offset of a core section, and its drawer table and stream entries (R100, R101). -/
def imgCore (b : List Byte) (i : Nat) : Nat := fieldAt b (0xB0 + 4 * i) 4
def imgDrawerOff (b : List Byte) (i : Nat) : Nat := fieldAt b (imgCore b i) 4
def imgDrawers (b : List Byte) (i : Nat) : Nat := fieldAt b (imgCore b i + 4) 1
def imgStreamOff (b : List Byte) (i st : Nat) : Nat := fieldAt b (imgCore b i + 8 + 8 * st) 4
def imgStreamLen (b : List Byte) (i st : Nat) : Nat := fieldAt b (imgCore b i + 12 + 8 * st) 4
def imgMask (b : List Byte) : Nat := fieldAt b 0x0C 1
def imgEntry (b : List Byte) (i k : Nat) : Nat := fieldAt b (imgDrawerOff b i + 8 * k) 8
def imgCellEntry (b : List Byte) (k : Nat) : Nat := fieldAt b (fieldAt b 0x1C 4 + 8 * k) 8
def imgCells (b : List Byte) : Nat := fieldAt b 0x1A 2

/-- A table of `n` entries of `size` bytes at `off`: aligned and inside the image; offset 0 when empty and `zero`. -/
def tableOk (total off n size : Nat) (zero : Bool) : Bool :=
  if n = 0 then !zero || off = 0 else off % 16 = 0 && decide (off + size * n ≤ total)

/-- Load check 1 (R103). -/
def headerOk (b : List Byte) : Bool :=
  let n := b.length
  fieldAt b 0 4 = 0x4E495453 && fieldAt b 5 1 = 1 && fieldAt b 8 4 = n && n % 16 = 0 && decide (256 ≤ n) &&
    decide (n ≤ 16777216) && imgMask b != 0 &&
    crc32 (b.take 0x20 ++ [0, 0, 0, 0] ++ b.drop 0x24) = fieldAt b 0x20 4 &&
    decide (imgCells b ≤ 256) && tableOk n (fieldAt b 0x1C 4) (imgCells b) 8 false &&
    (List.range 8).all (fun i =>
      if hasBit (imgMask b) i then
        imgCore b i % 16 = 0 && decide (imgCore b i + 104 ≤ n) && decide (imgDrawers b i ≤ 63) &&
          tableOk n (imgDrawerOff b i) (imgDrawers b i) 8 false &&
          (List.range 12).all (fun st => tableOk n (imgStreamOff b i st) (imgStreamLen b i st) 16 true)
      else imgCore b i = 0)

/-- Bits of `a` outside `m`, masks of `w` bits. -/
def within (a m : Nat) : Bool := Nat.land a m == a

/-- Encoding of a section's words (R82 to R85, R103 check 3): the words still to check, whether no word has issued yet, and the
loops open. -/
def sectionOk (stream mode pused : Nat) (pmax : List Nat) : Nat → List Nat → Bool → Nat → Bool
  | 0, _, _, _ => false
  | _ + 1, [], _, _ => false
  | fuel + 1, w :: ws, first, depth =>
    let op := wOp w
    (wordInfo (w :: ws) stream mode pused pmax).ok && decide (wordLen w ≤ ws.length + 1) &&
    (if op = opcLoop then decide (depth < 4) && sectionOk stream mode pused pmax fuel ws first (depth + 1)
     else if op = opcEndloop then decide (0 < depth) && sectionOk stream mode pused pmax fuel ws first (depth - 1)
     else
       (first || wDelta w != 0) && ((op == opcWsMode) == (stream == 1 && first)) &&
       (if op = opcEnd then ws = [] && depth = 0
        else sectionOk stream mode pused pmax fuel (ws.drop (wordLen w - 1)) false depth))

/-- What the words of a section name. -/
def sectionInfos (stream mode pused : Nat) (pmax : List Nat) : Nat → List Nat → List WInfo
  | 0, _ => []
  | _ + 1, [] => []
  | fuel + 1, w :: ws =>
    wordInfo (w :: ws) stream mode pused pmax ::
      sectionInfos stream mode pused pmax fuel (ws.drop (wordLen w - 1))

/-- The image that the bytes spell. -/
def imageOfBytes (b : List Byte) : Image where
  noOverlap := hasBit (fieldAt b 6 2) 0
  bytes := b.length
  coreMask := imgMask b
  roleMask := fieldAt b 0x0D 1
  stiles := fieldAt b 0x0E 1
  tailStiles := fieldAt b 0x0F 1
  tailStart := fieldAt b 0x10 4
  headStreams := fieldAt b 0x14 2
  tailStreams := fieldAt b 0x16 2
  paramUsed := fieldAt b 0x18 2
  check := fieldAt b 0x20 4
  tailDrawers := fieldAt b 0x28 8
  paramMax := (List.range 16).map (fun k => fieldAt b (0x30 + 4 * k) 4)
  cells := fieldAt b 0x70 32
  tailCells := fieldAt b 0x90 32
  cellInit := (List.range (imgCells b)).map (fun k => (imgCellEntry b k % 256, imgCellEntry b k / 2 ^ 32))
  sections := (List.range 8).map (fun i =>
    if hasBit (imgMask b) i then
      ⟨(List.range (imgDrawers b i)).map (fun k =>
          let e := imgEntry b i k
          ⟨bitsAt e 32 6, hasBit e 31, bitsAt e 16 15, bitsAt e 0 15⟩),
        (List.range 12).map (fun st => imgWords b (imgStreamOff b i st) (imgStreamLen b i st))⟩
    else ⟨[], []⟩)

def Image.words (im : Image) (i : Nat) : Nat :=
  ((im.sections[i]?).map (fun x => x.streams.foldl (fun n l => n + l.length) 0)).getD 0

/-- The infos of every word of core `i`, by stream. -/
def Image.infos (im : Image) (i : Nat) : List WInfo :=
  match im.sections[i]? with
  | none => []
  | some x =>
    let mode := viewOf ((x.streams[1]?).getD [])
    (List.range 12).flatMap (fun st =>
      let ws := (x.streams[st]?).getD []
      sectionInfos st mode im.paramUsed im.paramMax ws.length ws)

def bytesZero (b : List Byte) (o n : Nat) : Bool := ((b.drop o).take n).all (fun x => x == 0)

/-- Load check 3. -/
def encodingOk (b : List Byte) (im : Image) : Bool :=
  fieldAt b 6 2 / 2 = 0 && im.roleMask / 4 = 0 && im.headStreams / 2 ^ 12 = 0 && im.tailStreams / 2 ^ 12 = 0 &&
    bytesZero b 0x24 4 && bytesZero b 0xD0 48 && within im.tailStiles im.stiles && within im.tailCells im.cells &&
    (List.range (imgCells b)).all (fun k => bitsAt (imgCellEntry b k) 8 24 = 0) &&
    (List.range 8).all (fun i =>
      if hasBit im.coreMask i then
        bytesZero b (imgCore b i + 5) 3 &&
        (List.range (imgDrawers b i)).all (fun k =>
          bitsAt (imgEntry b i k) 38 26 = 0 && bitsAt (imgEntry b i k) 15 1 = 0) &&
        (match im.sections[i]? with
         | none => false
         | some x =>
           let mode := viewOf ((x.streams[1]?).getD [])
           (List.range 12).all (fun st =>
             let ws := (x.streams[st]?).getD []
             ws = [] || sectionOk st mode im.paramUsed im.paramMax (ws.length + 1) ws true 0)) &&
        (im.infos i).all (fun w => w.cells.all (hasBit im.cells) && w.stiles.all (hasBit im.stiles))
      else true)

/-- Load check 4. -/
def Image.cellsOk (im : Image) : Bool :=
  im.cellInit.all (fun e => hasBit im.cells e.1) && decide ((im.cellInit.map (fun e => e.1)).Nodup)

/-- Load check 5 (R65, R22): `top` is the first row of the role's drawer 63. -/
def drawersOk (top : Nat) (ds : List DrawerDef) : Bool :=
  ds.all (fun d => d.drawer != 63 && decide (1 ≤ d.size) && decide (d.size ≤ shelfRows) && decide (d.base + d.size ≤ top)) &&
    decide ((ds.map (fun d => d.drawer)).Nodup) &&
    decide (ds.Pairwise (fun x y => y.base + y.size ≤ x.base ∨ x.base + x.size ≤ y.base))

/-- Load check 6 (R43, R22). -/
def Image.rowsOk (im : Image) (top i : Nat) : Bool :=
  (im.infos i).all (fun w => w.rows.all (fun r => r.2 = 0 || decide (r.1 + r.2 ≤ top)))

/-- The checks of R103 after the slot test: the image, or the status of the first that fails; `used i` is the number of
words that the other slots hold on core `i`. -/
def loadImage (b : List Byte) (role : Nat) (used : Nat → Nat) : Except Nat Image :=
  if headerOk b = false then .error 0x210
  else
    let im := imageOfBytes b
    let top := firstRow63 role
    if hasBit im.roleMask role = false then .error 0x603
    else if encodingOk b im = false then .error 0x211
    else if im.cellsOk = false then .error 0x60B
    else if (im.sections.all (fun x => drawersOk top x.drawers)) = false then .error 0x601
    else if ((List.range 8).all (im.rowsOk top)) = false then .error 0x602
    else if (List.range 8).any (fun i => hasBit im.coreMask i && decide (65536 < used i + im.words i)) then .error 0x320
    else .ok im

end Sys2Proof.Machine
end

