-- ==== Sys2Proof/Machine/Schedule.lean ====
section
/-! DEFINITION. The schedule contract (chapter 03): control instructions, waits and slips, timeouts, loading and running
images, head and tail starts, retirement, completion of runs and of an abort. -/

namespace Sys2Proof.Machine

/-! ### Control instructions -/

/-- NOP issues and does nothing (R84). -/
def execNop (a : At) (s : State) : Host.Outcome State Fault Refusal := .next (s.issueAs opcNop a (fun _ s => s))

/-- END ends the section; the stream retires once its operations have completed (R110). -/
def execEndSection (a : At) (s : State) : Host.Outcome State Fault Refusal :=
  .next (s.issueAs opcEnd a (fun x s =>
    let y := s.streamOf x.c x.side x.st
    s.setStream x.c x.side x.st { y with ended := true }))

/-- The word of a stream that does not issue, where the stream stands at it on a clocked core whose schedule is not aborting
(R79, R85). -/
def State.atWord (s : State) (a : At) (op : Nat) (eff : Run → List Nat → State → State) : State :=
  let c := a.core.val
  let p := corePdk c
  match s.sideOf p a.armed with
  | none => s
  | some r =>
    match s.wordAt c r a.stream.val with
    | none => s
    | some ws =>
      if s.coreLive c = false ∨ (s.runsOf p).cause.isSome ∨ wOp (nth ws 0) ≠ op ∨ (s.headOf c r.side).isNone then s
      else eff r ws s

/-- Words after the ENDLOOP that closes the loop whose body starts at the head of the list. -/
def skipBody : Nat → Nat → List Nat → Nat
  | 0, _, _ => 0
  | _ + 1, _, [] => 0
  | fuel + 1, depth, w :: ws =>
    if wOp w = opcEndloop then (if depth = 0 then 1 else 1 + skipBody fuel (depth - 1) ws)
    else if wOp w = opcLoop then 1 + skipBody fuel (depth + 1) ws
    else wordLen w + skipBody fuel depth (ws.drop (wordLen w - 1))

/-- LOOP reads its count once; a count of 0 skips the body (R85). -/
def execLoopOpen (a : At) (s : State) : Host.Outcome State Fault Refusal :=
  .next (s.atWord a opcLoop (fun r ws s =>
    let w := nth ws 0
    let n := if hasBit w 24 then nth r.params (bitsAt w 0 4) else bitsAt w 0 24
    let y := s.streamOf a.core.val r.side a.stream.val
    s.setStream a.core.val r.side a.stream.val
      (if n = 0 then { y with idx := y.idx + 1 + skipBody ws.length 0 (ws.drop 1) }
       else { y with idx := y.idx + 1, loops := ⟨y.idx + 1, n, 0⟩ :: y.loops })))

/-- ENDLOOP starts the next iteration of the innermost loop or leaves it (R85). -/
def execLoopClose (a : At) (s : State) : Host.Outcome State Fault Refusal :=
  .next (s.atWord a opcEndloop (fun r _ s =>
    let y := s.streamOf a.core.val r.side a.stream.val
    s.setStream a.core.val r.side a.stream.val
      (match y.loops with
       | [] => y
       | l :: ls =>
         if l.iter + 1 < l.count then { y with idx := l.start, loops := { l with iter := l.iter + 1 } :: ls }
         else { y with idx := y.idx + 1, loops := ls })))

/-- WAIT issues when its condition holds; otherwise the core slips (R86, R90). -/
def execWaitCell (a : At) (s : State) : Host.Outcome State Fault Refusal := .next (s.issueAs opcWait a (fun _ s => s))

/-- STILE_WAIT issues when SENSE equals LOCAL; otherwise the core slips (R151). -/
def execStileWait (a : At) (s : State) : Host.Outcome State Fault Refusal := .next (s.issueAs opcStileWait a (fun _ s => s))

/-- The end of a slip (R90): every wait of the pending tick holds and its engines and streams are free, so the tick issues:
from here on nothing keeps its instructions. -/
def execSlipEnd (core : Fin 128) (s : State) : Host.Outcome State Fault Refusal :=
  let c := core.val
  if s.coreLive c = true ∧ (s.slipOf c).isSome ∧ (s.blockOf c).isNone ∧ s.unresolved c = false then
    let s := s.slipDone c
    .next { s with sched := { s.sched with opened := tset false s.sched.opened [c] true } }
  else .next s

/-! ### Timeouts -/

/-- Timeout of a waiting word in ns (R86). -/
def State.waitNs (s : State) (p w : Nat) : Nat :=
  if fToDefault w = 1 then 1000 * s.rd F.SCH_PCTL_WAIT_DEFAULT_US p else fTimeout w

/-- The record of a timeout (R96, R98). -/
def State.recordWto (s : State) (c kind cell cond stream position expected found : Nat) : State :=
  let s := (s.wr F.SCH_WTO0_VALID c 1).wr F.SCH_WTO0_KIND c kind
  let s := (s.wr F.SCH_WTO0_CELL c cell).wr F.SCH_WTO0_COND c cond
  let s := (s.wr F.SCH_WTO0_STREAM c stream).wr F.SCH_WTO0_POSITION c position
  let s := (s.wr F.SCH_WTO1_EXPECTED c expected).wr F.SCH_WTO1_FOUND c found
  let s := if kind = 0 then
      let s := (s.wr F.SCH_WTO2_SIG_STREAM c (s.rd F.SYN_LSIG_STREAM c cell)).wr F.SCH_WTO2_SIG_POSITION c
        (s.rd F.SYN_LSIG_POSITION c cell)
      s.wr F.SCH_WTO3_SIG_TICK c (s.rd F.SYN_LTICK_TICK c cell)
    else if kind = 1 then
      let s := (s.wr F.SCH_WTO2_SIG_STREAM c (s.rd F.SYN_STILE_LAST_STREAM c cell)).wr F.SCH_WTO2_SIG_POSITION c
        (s.rd F.SYN_STILE_POS_LAST_POSITION c cell)
      s.wr F.SCH_WTO3_SIG_TICK c (tget 0 s.sched.arriveAt [c, cell])
    else ((s.wr F.SCH_WTO2_SIG_STREAM c 0xF).wr F.SCH_WTO2_SIG_POSITION c 0).wr F.SCH_WTO3_SIG_TICK c 0
  (s.wr F.SCH_WTO4_TICK c (s.tickOf c)).wr F.SCH_WTO5_TIME c s.now

/-- A recorded timeout takes a dump first when dump-on-timeout is enabled (R98, R638); otherwise the abort starts. -/
def State.timeoutAbort (s : State) (c dumpCause status stream position expected found : Nat) : State :=
  match s.autoDump c dumpCause stream position expected found with
  | some s => s
  | none => if s.frozen (corePdk c) then s else s.abort (corePdk c) status

/-- Streams of a core whose wait fails and has reached its timeout (R97). -/
def State.expired (s : State) (c : Nat) : List Due :=
  (s.dueList c).filter (fun d =>
    s.waitHolds c d.stream d.word (s.streamOf c d.run.side d.stream).iter == false &&
    (tget none s.sched.waits [c, d.stream]).any (fun t => decide (t + s.waitNs (corePdk c) d.word ≤ s.now)))

/-- A failing WAIT or STILE_WAIT reaches its timeout (R97, R98): the one on the lowest stream is recorded. -/
def execWaitTimeout (a : At) (s : State) : Host.Outcome State Fault Refusal :=
  let c := a.core.val
  let p := corePdk c
  let l := s.expired c
  if s.coreLive c = false ∨ (s.runsOf p).cause.isSome ∨ (s.slipOf c).isNone ∨ l.any (fun d => decide (d.stream < a.stream.val)) then
    .next s
  else
    match l.find? (fun d => d.stream == a.stream.val && s.isRunning p d.run.side == !a.armed) with
    | none => .next s
    | some d =>
      let w := d.word
      let st := d.stream
      let pos := s.posAt c d.run st
      if wOp w = opcWait then
        let x := operandAt w (s.streamOf c d.run.side st).iter
        let v := s.rd F.SYN_VAL_VALUE c (fCell w)
        .next ((s.recordWto c 0 (fCell w) (fCond w) st pos x v).timeoutAbort c 2 0x600 st pos x v)
      else
        let k := fStile w
        let x := b2n (hasBit (s.rd F.SYN_STILE_LOCAL c k) st) + s.rd F.SYN_STILE_MASK c k * 2 ^ 16
        let v := s.rd F.SYN_STILE_SENSE c k + s.rd F.SYN_STILE_ARRIVED c k * 2 ^ 16
        .next ((s.recordWto c 1 (fStile w) 0 st pos x v).timeoutAbort c 3 0x600 st pos x v)

/-- Whether the slip of a core waits on an operation that is not timed (R96). -/
def State.slipUntimed (s : State) (c : Nat) (x : Slip) : Bool :=
  if x.cause = 4 then
    match (s.runsOf (corePdk c)).running with
    | none => false
    | some r => s.sched.ops.any (fun o => o.core == c && o.side == r.side && !o.timed)
  else if x.cause = 5 then
    (if x.stream = stME then decide (0 < s.outstanding c stAE) ||
        s.sched.ops.any (fun o => o.isAppendTile c 0 || o.isAppendTile c 1 || o.isAppendTile c 2 || o.isAppendTile c 3)
     else x.stream != stVE && decide (0 < s.outstanding c x.stream))
  else false

/-- An ENGINE_BUSY or OVERLAP slip that waits on an untimed completion reaches the default timeout (R96). -/
def execSlipTimeout (core : Fin 128) (s : State) : Host.Outcome State Fault Refusal :=
  let c := core.val
  let p := corePdk c
  match s.slipOf c with
  | none => .next s
  | some x =>
    if s.coreLive c = true ∧ (s.runsOf p).cause.isNone ∧ s.slipUntimed c x = true ∧
        x.since + 1000 * s.rd F.SCH_PCTL_WAIT_DEFAULT_US p ≤ s.now then
      .next ((s.recordWto c 2 0 0 x.stream x.position 0 0).timeoutAbort c 4 0x606 x.stream x.position 0 0)
    else .next s

/-! ### Loading -/

/-- Whether a slot's image is running or armed (R104). -/
def State.slotBusy (s : State) (p slot : Nat) : Bool :=
  let r := s.runsOf p
  r.running.any (fun x => x.slot == slot) || r.armed.any (fun x => x.slot == slot)

/-- A slot's contents and what SCH_PSTAT and SCH_SLOT show of it (R113). -/
def State.setSlotImage (s : State) (p slot : Nat) (im : Option Image) : State :=
  let s : State := { s with sched := { s.sched with images := tset none s.sched.images [p, slot] im } }
  let l := s.rd F.SCH_PSTAT_LOADED p
  let s := s.wr F.SCH_PSTAT_LOADED p (if im.isSome then setBit l slot else clrBit l slot)
  let words := match im with
    | some im => (List.range 8).foldl (fun m i => max m (im.words i)) 0
    | none => 0
  (s.wr F.SCH_SLOT_CHECK p ((im.map (fun x => x.check)).getD 0) slot).wr F.SCH_SLOT_WORDS p words slot

/-- Words that the slots of a paddock other than `slot` hold on core `i` (R104). -/
def State.usedWords (s : State) (p slot i : Nat) : Nat :=
  (List.range 4).foldl (fun n k => if k = slot then n else n + ((s.imageOf p k).map (fun im => im.words i)).getD 0) 0

/-- Opcode of SCHEDULE_LOAD. -/
def opLoad : Nat := 0x10

/-- What keeps a read of a command's source from giving good bytes (R400, R414, R446). -/
def State.sourceStatus (s : State) (p ptr n : Nat) : Nat :=
  firstStatus [s.resourceStatus p ptr, failIf (s.ptrPoison p ptr n) 0x531]

/-- The load checks and what a load leaves (R103, R104, R722). -/
def State.loadInto (s : State) (h : Hdr) (slot : Nat) (b : List Byte) : State :=
  let p := paddockOf h
  match loadImage b (s.role p) (s.usedWords p slot) with
  | .error st => (s.setSlotImage p slot none).complete h st
  | .ok im =>
    let s := s.setSlotImage p slot (some im)
    let s := s.resetFlds (fun f i _ => decide (f.lvl = .schedLoad) && i / 8 == p && hasBit im.coreMask (i % 8))
    s.complete h 0 (im.check * 2 ^ 64)

/-- SCHEDULE_LOAD (R103): the slot is tested first. -/
def execScheduleLoad (h : Hdr) (slot image bytes : Nat) (data : List Byte) (s : State) : Host.Outcome State Fault Refusal :=
  let p := paddockOf h
  .next (s.checked h opLoad (firstStatus [failIf (decide (3 < slot)) 0x201, failIf (s.slotBusy p slot) 0x605,
      failIf (decide (2 ≤ ptrTag image)) 0x401, s.checkPtr h.fn.val p image bytes false]) (fun s =>
    s.gate h opLoad (.scheduleLoad h slot image bytes data) [⟨image, bytes, false⟩] (fun s =>
      let st := s.sourceStatus p image bytes
      if st ≠ 0 then s.complete h st
      else
        let s := s.countRead h.fn.val p image bytes
        let b := s.ptrRead p image bytes data
        if b.length ≠ bytes then (s.setSlotImage p slot none).complete h 0x210 else s.loadInto h slot b)))

/-- SCHEDULE_UNLOAD (R503). -/
def execScheduleUnload (h : Hdr) (slot : Nat) (s : State) : Host.Outcome State Fault Refusal :=
  let p := paddockOf h
  .next (s.checked h 0x12 (firstStatus [failIf (decide (3 < slot)) 0x201, failIf (s.slotBusy p slot) 0x605,
      failIf ((s.imageOf p slot).isNone) 0x60A]) (fun s => (s.setSlotImage p slot none).complete h 0))

/-! ### Running -/

/-- A run's command goes on to execute: it has been armed (R493, R498). -/
def State.runArmed (s : State) (x : Run) : State :=
  { s with taken := s.taken.map (fun t => if t.is x.h then { t with phase := .executing } else t) }

/-- The warnings, counts and stale range of two tallies together (R183, R349): the first stale range stands. -/
def Tally.merge (a b : Tally) : Tally :=
  let m := 0xFFFFFFFF
  let carry (x y k f : Nat) : Nat := if m < x + y then setBit f k else f
  ⟨b.warnings ++ a.warnings, min m (a.sat + b.sat), min m (a.flush + b.flush), min m (a.nan + b.nan), min m (a.inf + b.inf),
    carry a.inf b.inf 3 (carry a.nan b.nan 2 (carry a.flush b.flush 1 (carry a.sat b.sat 0 (Nat.lor a.numSat b.numSat)))),
    if a.warnings.contains 0x170 then a.staleCtx else b.staleCtx,
    if a.warnings.contains 0x170 then a.staleLo else b.staleLo,
    if a.warnings.contains 0x170 then a.staleHi else b.staleHi⟩

/-- RESULT of a run (R503): the stale range with status 0x0170. -/
def Tally.staleResult (t : Tally) (status : Nat) : Nat :=
  if status = 0x170 then t.staleCtx % 2 ^ 16 * 2 ^ 16 + t.staleLo % 2 ^ 32 * 2 ^ 32 + t.staleHi % 2 ^ 32 * 2 ^ 64 else 0

def State.findStep (s : State) (h : Hdr) : Option Step := s.sched.steps.find? (fun x => x.h == h)
def State.setStep (s : State) (y : Step) : State :=
  { s with sched := { s.sched with steps := s.sched.steps.map (fun x => if x.h = y.h then y else x) } }
def State.dropStep (s : State) (h : Hdr) : State :=
  { s with sched := { s.sched with steps := s.sched.steps.filter (fun x => x.h != h) } }

/-- DECODE_STEP completes when its last run has (R349, R503). -/
def State.endStep (s : State) (y : Step) : State :=
  let status := if y.status ≠ 0 then y.status else firstWarning y.tally.warnings
  let hi := if isError status then y.failBucket % 2 ^ 16 * 2 ^ 16 else y.tally.staleResult status
  (s.dropStep y.h).complete y.h status (y.tally.numSat + y.bucketsRun % 32 * 16 + hi) y.tally.numeric true
/-- The bucket of the mark that holds a step's place among the waiting runs: its runs are armed there, and no other run comes between
them (R349). It is no bucket. -/
def stepMark : Nat := 32
def Run.isMark (x : Run) (h : Hdr) : Bool := x.bucket == some stepMark && x.h == h
/-- A step with no bucket left gives up its place. -/
def State.unmark (s : State) (h : Hdr) : State :=
  let p := paddockOf h
  let r := s.runsOf p
  s.setRuns p { r with waiting := r.waiting.filter (fun x => !x.isMark h) }
def State.stepMaybeEnd (s : State) (y : Step) : State :=
  let s := if y.buckets = [] ∧ y.sorted = true then s.unmark y.h else s
  if y.buckets = [] ∧ y.running = 0 ∧ y.sorted = true then s.endStep y else s.setStep y

/-- A run ends with a status: its SCHEDULE_RUN completes, or its step takes the result (R110, R349). A failing or aborted run
of a step is its last. -/
def State.endRun (s : State) (x : Run) (status : Nat) : State :=
  match x.bucket with
  | none =>
    if (s.findTaken x.h).isNone then s
    else s.complete x.h status (x.tally.numSat + x.tally.staleResult status) x.tally.numeric
  | some b =>
    match s.findStep x.h with
    | none => s
    | some y =>
      let first := isError status && y.status = 0
      s.stepMaybeEnd { y with
        running := y.running - 1
        tally := y.tally.merge x.tally
        bucketsRun := y.bucketsRun + 1
        status := if first then status else y.status
        failBucket := if first then b else y.failBucket
        buckets := if isError status then [] else y.buckets }

/-- Drawers that image `a` keeps on core `i`, as far as its own table says: declared with KEEP and the same BASE and SIZE as
in `d` (R69). -/
def Image.defs (im : Image) (i : Nat) : List DrawerDef := ((im.sections[i]?).map (fun x => x.drawers)).getD []
def Image.keeps (im : Image) (i : Nat) (d : DrawerDef) : Bool :=
  (im.defs i).any (fun e => e.drawer == d.drawer && e.keep && e.base == d.base && e.size == d.size)

/-- R106, first test: on some core with a section in both, A resets or redefines a drawer of R's tail. -/
def chainDrawer (r a : Image) : Bool :=
  (List.range 8).any (fun i => hasBit r.coreMask i && hasBit a.coreMask i &&
    (r.defs i).any (fun d => hasBit r.tailDrawers d.drawer && !a.keeps i d))

/-- Expansion of a stream mask (R106). -/
def expandStreams (m : Nat) : Nat := if m % 8 ≠ 0 then Nat.lor m 7 else m
/-- R106, second test: overlap is permitted. -/
def overlapOk (r a : Image) : Bool :=
  !a.noOverlap && Nat.land a.cells r.tailCells == 0 && Nat.land a.stiles r.tailStiles == 0 &&
    Nat.land (expandStreams a.headStreams) (expandStreams r.tailStreams) == 0

/-- The retirement bits of every core of a paddock cleared. -/
def State.clearRet (s : State) (p : Nat) (f : Fld) : State := loopN 8 (fun i s => s.wr f (8 * p + i) 0) s

/-- The parameter check of R105. -/
def Image.paramsOk (im : Image) (ps : List Nat) : Bool :=
  (List.range 16).all (fun k => !hasBit im.paramUsed k || decide (nth ps k ≤ nth im.paramMax k))
def State.runStatus (s : State) (p slot : Nat) (ps : List Nat) : Nat :=
  match s.imageOf p slot with
  | none => 0x60A
  | some im => failIf (!im.paramsOk ps) 0x609

/-- Arming a run (R105, R106): its slot and parameters are tested again, since its slot may have changed while it waited; it becomes
the armed run, or fails the chain test and ends with 0x0604; with no image running it is the running one at once (log entry 12). -/
def State.armRun (s : State) (p : Nat) (x : Run) : State :=
  let r := s.runsOf p
  match r.running, (if s.runStatus p x.slot x.params = 0 then s.imageOf p x.slot else none) with
  | _, none => s.endRun x (s.runStatus p x.slot x.params)
  | none, some _ =>
    let s := s.setRuns p { r with running := some { x with side := 0 }, armed := none, overlap := false }
    ((s.clearRet p F.SCH_RETIRED_RUN_RET).runArmed x).syncPstat p
  | some y, some a =>
    match s.imageOf p y.slot with
    | none => s
    | some ri =>
      if chainDrawer ri a then s.endRun x 0x604
      else
        let s := s.setRuns p { r with armed := some { x with side := 1 - y.side }, overlap := overlapOk ri a }
        ((s.clearRet p F.SCH_RETIRED_ARMED_RET).runArmed x).syncPstat p

/-- The waiting runs are armed in order while there is room (R105, R110). -/
def State.armWaiting (s : State) (p : Nat) : Nat → State
  | 0 => s
  | n + 1 =>
    let r := s.runsOf p
    match r.waiting with
    | [] => s
    | x :: xs =>
      if r.armed.isSome ∨ r.cause.isSome ∨ x.bucket = some stepMark then s
      else ((s.setRuns p { r with waiting := xs }).armRun p x).armWaiting p n

/-- A run that passed its checks is armed or waits behind the armed run (R105). -/
def State.submitRun (s : State) (p : Nat) (x : Run) : State :=
  let r := s.runsOf p
  let s := s.setRuns p { r with waiting := r.waiting ++ [x] }
  s.armWaiting p (r.waiting.length + 1)

/-- SCHEDULE_RUN (R105): the run waits in the command processor until it is armed. -/
def execScheduleRun (h : Hdr) (slot : Nat) (params : List Nat) (s : State) : Host.Outcome State Fault Refusal :=
  let p := paddockOf h
  let ps := (List.range 16).map (fun k => nth params k % 2 ^ 32)
  .next (s.checked h opRun (firstStatus [failIf (decide (3 < slot)) 0x201, s.runStatus p slot ps]) (fun s =>
    let s := s.start h opRun (some (.scheduleRun h slot params))
    let s : State := { s with taken := s.taken.map (fun t => if t.is h then { t with phase := .waiting } else t) }
    s.submitRun p ⟨h, 0, slot, ps, none, tally0⟩))

/-! ### Head, tail, retirement -/

/-- The image of a run on a core, when the core has a section in it. -/
def State.imageOn (s : State) (c : Nat) (r : Run) : Option Image :=
  (s.imageOf (corePdk c) r.slot).bind (fun im => if hasBit im.coreMask (coreOff c) then some im else none)

/-- The run whose head may start on a core in this tick (R107). -/
def State.headDue (s : State) (c : Nat) : Option Run :=
  let r := s.runsOf (corePdk c)
  match r.running with
  | none => none
  | some x =>
    if (s.imageOn c x).isSome ∧ (s.headOf c x.side).isNone then some x
    else
      match r.armed with
      | none => none
      | some y =>
        if (s.imageOn c y).isNone ∨ (s.headOf c y.side).isSome then none
        else match s.imageOn c x with
          | none => some y
          | some im =>
            if s.retiredOn F.SCH_RETIRED_RUN_RET c = true ∨
                (r.overlap = true ∧ (s.headOf c x.side).getD 0 + im.tailStart ≤ s.tickOf c) then some y
            else none

/-- Drawers at a head start (R69): a drawer keeps its state only when the image keeps it and its BASE and SIZE stand. -/
def State.headDrawers (s : State) (c : Nat) (im : Image) : State :=
  loopN 63 (fun d s =>
    match (im.defs (coreOff c)).find? (fun e => e.drawer == d) with
    | some e =>
      if e.keep ∧ s.drwBase c d = e.base ∧ s.drwSize c d = e.size then s.wr F.DRW_CFG_KEEP c 1 d
      else
        let s := (s.resetDrawer c d).wr F.DRW_CFG_EN c 1 d
        let s := s.wr F.DRW_CFG_KEEP c (b2n e.keep) d
        (s.wr F.DRW_CFG_SIZE c e.size d).wr F.DRW_CFG_BASE c e.base d
    | none =>
      let s := (s.resetDrawer c d).wr F.DRW_CFG_EN c 0 d
      let s := s.wr F.DRW_CFG_KEEP c 0 d
      (s.wr F.DRW_CFG_SIZE c 0 d).wr F.DRW_CFG_BASE c 0 d) s

/-- Cells and stiles at a head start (R107, R134, R147). -/
def State.headCells (s : State) (c : Nat) (im : Image) : State :=
  let s := loopN 256 (fun n s =>
    if hasBit im.cells n then s.clearCell c n (((im.cellInit.find? (fun e => e.1 == n)).map (fun e => e.2)).getD 0) else s) s
  loopN 8 (fun k s => if hasBit im.stiles k then s.clearStile c k else s) s

/-- Sets the retirement bit of a stream (R110). -/
def State.setRet (s : State) (c side st : Nat) : State :=
  let f := if s.isRunning (corePdk c) side then F.SCH_RETIRED_RUN_RET else F.SCH_RETIRED_ARMED_RET
  s.wr f c (setBit (s.rd f c) st)
def State.hasRet (s : State) (c side st : Nat) : Bool :=
  hasBit (s.rd (if s.isRunning (corePdk c) side then F.SCH_RETIRED_RUN_RET else F.SCH_RETIRED_ARMED_RET) c) st

/-- HEAD_START (R107): image tick 0 of the core; an empty section has retired at once (R110). On a core that is marked failed the image
aborts (R660). -/
def execHeadStart (core : Fin 128) (s : State) : Host.Outcome State Fault Refusal :=
  let c := core.val
  match s.headDue c with
  | none => .next s
  | some r =>
    match s.imageOn c r with
    | none => .next s
    | some im =>
      if (s.runsOf (corePdk c)).cause.isSome then .next s
      else if tget false s.rel.badCores [s.phys c] then .next (s.abort (corePdk c) 0x541)
      else if s.coreLive c = false then .next s
      else
        let s : State := { s with sched := { s.sched with heads := tset none s.sched.heads [c, r.side] (some (s.tickOf c)) } }
        let s := if s.isRunning (corePdk c) r.side then s.wr F.SCH_HEAD_TICK_HEAD_TICK c (s.tickOf c) else s
        let s := (s.headCells c im).headDrawers c im
        let s := if s.rd F.BUD_DSTAT_DROOP_ACTIVE (pdkDie (corePdk c)) = 1 then s.warnSide (corePdk c) r.side 0x162 else s
        .next (loopN 12 (fun st s =>
          let s := s.setStream c r.side st stream0
          if s.wordsOf c r st = [] then s.setRet c r.side st else s) s)

/-- TAIL_START (R108): every outstanding operation of the running image on the core must be declared. -/
def execTailStart (core : Fin 128) (s : State) : Host.Outcome State Fault Refusal :=
  let c := core.val
  let p := corePdk c
  match (s.runsOf p).running with
  | none => .next s
  | some r =>
    match s.imageOn c r, s.headOf c r.side with
    | some im, some hd =>
      if tget false s.sched.tails [c] = true ∨ s.tickOf c < hd + im.tailStart ∨ (s.runsOf p).cause.isSome then .next s
      else
        let s : State := { s with sched := { s.sched with tails := tset false s.sched.tails [c] true } }
        let bad := s.sched.ops.any (fun o => o.core == c && o.side == r.side &&
          (!hasBit im.tailStreams o.stream || (doneAction o.done == 1 && !hasBit im.tailCells (doneCell o.done)) ||
            o.drawer.any (fun d => !hasBit im.tailDrawers d)))
        .next (if bad then s.abort p 0x608 else s)
    | _, _ => .next s

/-- STREAM_RETIRE (R110): END has issued and every operation of the stream has completed. -/
def execStreamRetire (a : At) (s : State) : Host.Outcome State Fault Refusal :=
  let c := a.core.val
  match s.sideOf (corePdk c) a.armed with
  | none => .next s
  | some r =>
    let y := s.streamOf c r.side a.stream.val
    if (s.headOf c r.side).isSome ∧ y.ended = true ∧ y.outst = 0 then .next (s.setRet c r.side a.stream.val) else .next s

/-- A run leaves the paddock: its streams, heads, tail marks and operations go; a pass gives up its epoch (R110, R307). -/
def State.forgetSide (s : State) (p side : Nat) : State :=
  let mine (o : Op) : Bool := corePdk o.core == p && o.side == side
  let s := s.sched.ops.foldl (fun s o => match o.kind with
    | .pass _ => if mine o then (s.wr F.ATN_STAT_BUSY o.core 0).wr F.ATN_EPOCH_EPOCH o.core 0 else s
    | _ => s) s
  let s : State := { s with sched := { s.sched with
      heads := tclear (fun k => match k with | [c, x] => c / 8 == p && x == side | _ => false) s.sched.heads
      streams := tclear (fun k => match k with | [c, x, _] => c / 8 == p && x == side | _ => false) s.sched.streams
      tails := tclear (fun k => k.head?.any (fun c => c / 8 == p)) s.sched.tails
      ops := s.sched.ops.filter (fun o => !mine o)
      appBufs := s.sched.appBufs.filterMap (fun e =>
        if e.1.head?.any (fun c => c / 8 == p) then
          (match e.2.filter (fun t => t.side != side) with
           | [] => none
           | l => some (e.1, l))
        else some e) } }
  s.syncHeld p

/-- The armed run becomes the running one; RUN_RET and SCH_HEAD_TICK follow it (R110, R113). -/
def State.promote (s : State) (p : Nat) : State :=
  let r := s.runsOf p
  let s := s.setRuns p { r with running := r.armed, armed := none, overlap := false }
  let s := loopN 8 (fun i s =>
    let c := 8 * p + i
    let s := (s.wr F.SCH_RETIRED_RUN_RET c (s.rd F.SCH_RETIRED_ARMED_RET c)).wr F.SCH_RETIRED_ARMED_RET c 0
    match r.armed.bind (fun x => s.headOf c x.side) with
    | some t => s.wr F.SCH_HEAD_TICK_HEAD_TICK c t
    | none => s) s
  s.syncPstat p

/-- RUN_COMPLETE (R110): every stream of every core in CORE_MASK has retired. The armed run becomes the running one, and the
next waiting run is tested. -/
def execRunComplete (p : Fin 16) (s : State) : Host.Outcome State Fault Refusal :=
  let r := s.runsOf p.val
  match r.running with
  | none => .next s
  | some x =>
    if r.cause.isSome ∨ s.retiredAll F.SCH_RETIRED_RUN_RET p.val (s.maskOf p.val (some x)) = false then .next s
    else
      let s := (s.forgetSide p.val x.side).promote p.val
      let s := s.endRun x (firstWarning x.tally.warnings)
      .next ((s.armWaiting p.val (s.runsOf p.val).waiting.length).syncPstat p.val)

/-- ABORT_DRAIN_DONE (R99): the paddock's line transactions have reached zero, so the run command of each stopped image
completes: the running one's with the cause, the armed one's with 0x0607. An armed image that had retired on every core
goes on to complete by itself. -/
def execAbortDrainDone (p : Fin 16) (s : State) : Host.Outcome State Fault Refusal :=
  let r := s.runsOf p.val
  match r.cause with
  | none => .next s
  | some cause =>
    if s.rd F.HBM_GSTAT_TXN p.val ≠ 0 ∨ s.net.lines.any (fun l => l.pdk == p.val && decide (l.src < 96)) = true then .next s
    else
      let s := match r.running with
        | some x => (s.forgetSide p.val x.side)
        | none => s
      let s := match r.armed, r.stopArmed with
        | some y, true => s.forgetSide p.val y.side
        | _, _ => s
      let r1 : PdkRun := { r with
        running := none
        armed := if r.stopArmed then none else r.armed
        overlap := false
        cause := none
        stopArmed := true }
      let s := (s.setRuns p.val r1).promote p.val
      let s := match r.running with
        | some x => s.endRun x cause
        | none => s
      let s := match r.armed, r.stopArmed with
        | some y, true => s.endRun y 0x607
        | _, _ => s
      .next ((s.armWaiting p.val (s.runsOf p.val).waiting.length).syncPstat p.val)

/-! ### Registers -/

/-- WAIT_DEFAULT_US stores 1 to 1,000,000 (R113). -/
def execWaitDefaultUsWrite (p : Fin 16) (v : Nat) (s : State) : Host.Outcome State Fault Refusal :=
  .next (s.wr F.SCH_PCTL_WAIT_DEFAULT_US p.val (min (max (v % 2 ^ 20) 1) 1000000))

/-- A write of 1 to SCH_CSLIP0.VALID re-arms the record (R95). -/
def execSchCslip0ValidClear (core : Fin 128) (s : State) : Host.Outcome State Fault Refusal :=
  .next (s.wr F.SCH_CSLIP0_VALID core.val 0)

end Sys2Proof.Machine
end

