-- ==== Sys2Proof/Machine/Budget.lean ====
section
/-! DEFINITION. The current budget (chapter 04): admission of untimed events, droop stretches, and the budget's registers. -/

namespace Sys2Proof.Machine

/-! ### Droop -/

/-- The droop stretch of a die (R129): clock of its first trip and of its last, while it lasts. -/
def State.stretch (s : State) (d : Nat) : Option (Nat × Nat) :=
  match tget none s.bud.droop [d] with
  | some (c, l) => if s.bud.clock ≤ l + s.rd F.BUD_DCFG_HOLD_CLOCKS d then some (c, l) else none
  | none => none

/-- Whether the present clock is a droop stall clock of a die (R129). -/
def State.droopStall (s : State) (d : Nat) : Bool :=
  (s.stretch d).any (fun x => decide (x.1 + 2 ≤ s.bud.clock) && (s.bud.clock - x.1) % 2 == 0)

def State.setDroop (s : State) (d : Nat) (x : Option (Nat × Nat)) : State :=
  let s : State := { s with bud := { s.bud with droop := tset none s.bud.droop [d] x } }
  s.wr F.BUD_DSTAT_DROOP_ACTIVE d (b2n x.isSome)

/-- DROOP_TRIP (R129, R130): a trip during a stretch extends it; otherwise a stretch begins, is counted for every paddock of
the die alike and reported to the VF of every assigned paddock and to PF 0, and the runs of the die carry its warning. -/
def execDroopTrip (die : Fin 2) (s : State) : Host.Outcome State Fault Refusal :=
  let d := die.val
  match s.stretch d with
  | some (c, _) => .next (s.setDroop d (some (c, s.bud.clock)))
  | none =>
    let s := (s.setDroop d (some (s.bud.clock, s.bud.clock))).bump F.BUD_DDROOP_EVT_COUNT d
    let s := loopN 8 (fun i s =>
      let p := 8 * d + i
      let s := s.bump F.BUD_DROOP_EVT_COUNT p
      let s := loopN 8 (fun j s => s.warnOn (8 * p + j) 0x162) s
      if s.pdkState p = pdkFree ∨ s.pdkState p = pdkOffline then s else s.event (vfOf p) 0x01 0x162 0) s
    .next (s.event 0 0x01 0x162 (detailAt 0x10 d))

/-- DROOP_STRETCH_END (R129): HOLD_CLOCKS after the last trip. -/
def execDroopStretchEnd (die : Fin 2) (s : State) : Host.Outcome State Fault Refusal :=
  if (tget none s.bud.droop [die.val]).isSome ∧ (s.stretch die.val).isNone then .next (s.setDroop die.val none) else .next s

/-! ### Untimed work -/

/-- Sources of untimed events that are no stream (R124). -/
def srcPatrol (i : Nat) : Nat := 96 + i
def srcMower : Nat := 104
def srcServer : Nat := 105
def srcCp : Nat := 106
def sources : Nat := 107
/-- The source of a stream of a logical core. -/
def srcStream (c st : Nat) : Nat := 12 * coreOff c + st

/-- Untimed charge of the window that ends with the present clock, and what the window may hold (R116, R124). -/
def State.uwin (s : State) (p : Nat) : Nat := (tget [] s.bud.uwin [p]).foldl (fun a b => a + b) 0
def State.ucap (s : State) (p : Nat) : Nat := 64 * s.rd F.BUD_PCFG_UNTIMED_BU p
def State.ufits (s : State) (p w : Nat) : Bool :=
  decide (s.uwin p + w ≤ s.ucap p) && !s.droopStall (pdkDie p)

/-- Charges an untimed event in the present clock; BUD_UWIN follows (R123). -/
def State.ucharge (s : State) (p w : Nat) : State :=
  let l := tget [] s.bud.uwin [p]
  let l := match l with
    | [] => [w]
    | x :: xs => (x + w) :: xs
  let s : State := { s with bud := { s.bud with uwin := tset [] s.bud.uwin [p] l } }
  let n := s.uwin p
  (s.wr F.BUD_UWIN_CHARGE p n).wr F.BUD_UWIN_PEAK p (max n (s.rd F.BUD_UWIN_PEAK p))

def State.heldOf (s : State) (p : Nat) : List Held := tget [] s.bud.held [p]
def State.setHeld (s : State) (p : Nat) (l : List Held) : State :=
  { s with bud := { s.bud with held := tset [] s.bud.held [p] l } }
def State.admittedOf (s : State) (p : Nat) : List Held := tget [] s.bud.admitted [p]
def State.setAdmitted (s : State) (p : Nat) (l : List Held) : State :=
  { s with bud := { s.bud with admitted := tset [] s.bud.admitted [p] l } }

/-- An untimed event of paddock `p` (R124): admitted at once when nothing is held and it fits; one already admitted goes on;
otherwise it is held, and nothing of it happens until UNTIMED_EVENT_ADMIT. -/
def State.untimed (s : State) (p src w : Nat) (tag : List Nat) (go : State → State) : State :=
  let e : Held := ⟨src, w, tag⟩
  if (s.admittedOf p).contains e then go (s.setAdmitted p (removeFirst (· == e) (s.admittedOf p)))
  else if (s.heldOf p).contains e then s
  else if s.heldOf p = [] ∧ s.ufits p w = true then
    go ({ s.ucharge p w with bud := { (s.ucharge p w).bud with last := tset 0 s.bud.last [p] (src + 1) } })
  else s.setHeld p (s.heldOf p ++ [e])

/-- The next held event of the cyclic order: the oldest of the first source with one waiting, starting after the last
admitted (R124). -/
def State.nextHeld (s : State) (p : Nat) : Option Held :=
  let l := s.heldOf p
  let from_ := tget 0 s.bud.last [p]
  (List.range sources).findSome? (fun k => l.find? (fun e => e.src == (from_ + k) % sources))

/-- UNTIMED_EVENT_ADMIT (R124): the next held event is admitted when it fits. -/
def execUntimedEventAdmit (p : Fin 16) (s : State) : Host.Outcome State Fault Refusal :=
  match s.nextHeld p.val with
  | none => .next s
  | some e =>
    if s.ufits p.val e.weight = false then .next s
    else
      let s := (s.setHeld p.val (removeFirst (· == e) (s.heldOf p.val))).ucharge p.val e.weight
      let s : State := { s with bud := { s.bud with last := tset 0 s.bud.last [p.val] (e.src + 1) } }
      .next (s.setAdmitted p.val (s.admittedOf p.val ++ [e]))

/-! ### The infrastructure reserve (R125, R126) -/

/-- Windows of the reserve's limiters, beside those of the paddocks: the Mower of a group, transit forwarding of a die. -/
def rsvMower (g : Nat) : Nat := 16 + g
def rsvTransit (d : Nat) : Nat := 32 + d
/-- What a limiter admits in 64 clocks: 12 BU per group, 64 BU per die. -/
def rsvCap (k : Nat) : Nat := if k < 32 then 768 else 4096

/-- Work of the reserve: it takes place when its limiter admits it in the present clock. -/
def State.reserve (s : State) (k w : Nat) (go : State → State) : State :=
  if rsvCap k < s.uwin k + w then s
  else
    let l := match tget [] s.bud.uwin [k] with
      | [] => [w]
      | x :: xs => (x + w) :: xs
    go { s with bud := { s.bud with uwin := tset [] s.bud.uwin [k] l } }

/-- The windows of the limiters slide by a clock. -/
def State.slideReserve (s : State) : State :=
  loopN 18 (fun j s =>
    let l := tget [] s.bud.uwin [16 + j]
    if l = [] then s
    else
      let l := if l.all (fun x => x == 0) then [] else (0 :: l).take 64
      { s with bud := { s.bud with uwin := tset [] s.bud.uwin [16 + j] l } }) s

/-! ### Registers -/

/-- A write of 1 to BUD_REC0.VALID re-arms the excess-tick record (R133). -/
def execBudRec0ValidClear (p : Fin 16) (s : State) : Host.Outcome State Fault Refusal := .next (s.wr F.BUD_REC0_VALID p.val 0)

/-- A PF write of BUD_DCFG (R133): HOLD_CLOCKS at least 64, DROOP_MV 600 to 710. -/
def execBudDcfgWrite (die : Fin 2) (droopMv holdClocks : Nat) (s : State) : Host.Outcome State Fault Refusal :=
  let s := s.wr F.BUD_DCFG_HOLD_CLOCKS die.val (max (holdClocks % 4096) 64)
  .next (s.wr F.BUD_DCFG_DROOP_MV die.val (min (max (droopMv % 1024) 600) 710))

end Sys2Proof.Machine
end

