-- ==== Sys2Proof/Machine/Store.lean ====
section
/-! DEFINITION. Stored data (chapters 13 to 15): the sector code, errors that reads meet, dormant channels and far links that are
down, and the Mower's bookkeeping of lines. -/

namespace Sys2Proof.Machine

/-! ### The sector code (R408, R409) -/

/-- Multiplication by α in GF(2^16), and by a power of it. -/
def gfAlpha (a : Nat) : Nat := if 32768 ≤ a then Nat.xor (2 * a) 0x1100B else 2 * a
def gfShift (a : Nat) : Nat → Nat
  | 0 => a
  | n + 1 => gfShift (gfAlpha a) n

/-- The 34 symbols of a stored sector: C0, C1, d_0 to d_31. -/
def sectorSymbols (data : List Byte) (check : Nat) : List Nat :=
  [check % 65536, check / 65536 % 65536] ++ (List.range 32).map (fun i => fieldAt data (2 * i) 2)

/-- Syndromes S0 and S1 of a stored sector. -/
def syndromes (data : List Byte) (check : Nat) : Nat × Nat :=
  let l := sectorSymbols data check
  (l.foldl Nat.xor 0, (List.range 34).foldl (fun x j => Nat.xor x (gfShift (nth l j) j)) 0)

/-- Outcome of a read and position (R409): 0 clean, 1 corrected, 2 uncorrectable, 3 poison. -/
def sectorOutcome (data : List Byte) (check : Nat) : Nat × Nat :=
  let (s0, s1) := syndromes data check
  if s0 = 0 ∧ s1 = 0 then (0, 0)
  else if data.all (fun b => b == 0) && check == 0x5EA55EA5 then (3, 0)
  else if s0 ≠ 0 ∧ s1 ≠ 0 then
    match (List.range 34).find? (fun j => gfShift s0 j == s1) with
    | some j => (1, j)
    | none => (2, 0)
  else (2, 0)

/-- Data as the decoder returns them: symbol `j` corrected by S0 for outcome 1. -/
def sectorDecoded (data : List Byte) (check : Nat) : List Byte :=
  let (o, j) := sectorOutcome data check
  if o = 1 ∧ 2 ≤ j then
    data.take (2 * (j - 2)) ++ leBytes (Nat.xor (fieldAt data (2 * (j - 2)) 2) (syndromes data check).1) 2 ++
      data.drop (2 * (j - 1))
  else data

/-! ### Places in a group -/

/-- Lines of a channel (R417) and of a group; group of a DPA and line of a group. -/
def channelLines : Nat := 3145728
def groupLines : Nat := 50331648
def groupBytes : Nat := 0x600000000
def groupOf (dpa : Nat) : Nat := dpa / groupBytes
def lineOf (dpa : Nat) : Nat := dpa % groupBytes / 512

/-- DPA of channel line `n` of channel `c` of group `g`: the inverse of the hash of R384. -/
def dpaOfChannelLine (g c n : Nat) : Nat :=
  let b := n / 4
  let gran := Nat.xor (Nat.xor c (b % 16)) (b / 16 % 16)
  g * groupBytes + b * 2 ^ 15 + gran * 2 ^ 11 + n % 4 * 512
/-- Channel line of a DPA. -/
def channelLineOf (dpa : Nat) : Nat := channelOffset dpa / 512

/-- SOURCE and CORE of an error record for a source of line transactions (R407). -/
def srcCode (src : Nat) : Nat × Nat :=
  if src < 96 then (src % 12, src / 12) else if src = srcServer then (13, 0) else if src = srcCp then (12, 0)
  else if src = srcMower then (14, 0) else (15, 0)

/-! ### Records -/

/-- MOW_ERR0 to MOW_ERR2 take an event when they are armed (R414, R419, R423). -/
def State.mowErr (s : State) (g kind src syndrome dpa : Nat) : State :=
  if s.rd F.MOW_ERR0_VALID g = 1 then s
  else
    let s := (s.wr F.MOW_ERR0_VALID g 1).wr F.MOW_ERR0_KIND g kind
    let s := (s.wr F.MOW_ERR0_CHANNEL g (channelOf dpa % 16)).wr F.MOW_ERR0_SOURCE g (srcCode src).1
    let s := (s.wr F.MOW_ERR0_CORE g (srcCode src).2).wr F.MOW_ERR0_SYNDROME g syndrome
    (s.wr F.MOW_ERR1_DPA g dpa).wr F.MOW_ERR2_TIME g s.now

/-- HBM_ERR0 to HBM_ERR2 (R395, R400). -/
def State.hbmErr (s : State) (g kind src dpa : Nat) : State :=
  if s.rd F.HBM_ERR0_VALID g = 1 then s
  else
    let s := (s.wr F.HBM_ERR0_VALID g 1).wr F.HBM_ERR0_KIND g kind
    let s := (s.wr F.HBM_ERR0_CHANNEL g (channelOf dpa % 16)).wr F.HBM_ERR0_SOURCE g (srcCode src).1
    let s := s.wr F.HBM_ERR0_CORE g (srcCode src).2
    (s.wr F.HBM_ERR1_DPA g dpa).wr F.HBM_ERR2_TIME g s.now

/-- FAR_ERR0 to FAR_ERR2 (R442, R446). -/
def State.farErr (s : State) (p kind port src off : Nat) : State :=
  if s.rd F.FAR_ERR0_VALID p = 1 then s
  else
    let s := (s.wr F.FAR_ERR0_VALID p 1).wr F.FAR_ERR0_KIND p kind
    let s := (s.wr F.FAR_ERR0_PORT p port).wr F.FAR_ERR0_SOURCE p (srcCode src).1
    let s := s.wr F.FAR_ERR0_CORE p (srcCode src).2
    (s.wr F.FAR_ERR1_OFFSET p off).wr F.FAR_ERR2_TIME p s.now

/-- MEM_UE (R501). -/
def State.memUe (s : State) (g kind dpa : Nat) : State :=
  s.eventBoth g 0x03 0x531 (detailAt 0x10 (dpa % 2 ^ 64) + detailAt 0x18 kind)

/-! ### Lines that have met errors -/

/-- A line is marked for a spare (R420). -/
def State.markLine (s : State) (g l : Nat) : State :=
  { s with msys := { s.msys with marked := tset false s.msys.marked [g, l] true } }

/-- A correctable error of a line is counted; at PATCH_CE, or when the tracker of 64 lines is full, it is marked (R420). -/
def State.countCe (s : State) (g l : Nat) : State :=
  let n := tget 0 s.msys.ces [g, l]
  if n = 0 ∧ 64 ≤ (s.msys.ces.filter (fun e => e.1.head? == some g)).length then s.markLine g l
  else
    let s : State := { s with msys := { s.msys with ces := tset 0 s.msys.ces [g, l] (n + 1) } }
    if s.rd F.MOW_CFG_PATCH_CE g ≤ n + 1 then s.markLine g l else s

/-- A line joins the demand queue of 64 entries, when it is not full (R413). -/
def State.demand (s : State) (g l : Nat) (confirm : Bool) : State :=
  let q := tget [] s.msys.demand [g]
  if 64 ≤ q.length ∨ q.contains (l, confirm) = true then s
  else { s with msys := { s.msys with demand := tset [] s.msys.demand [g] (q ++ [(l, confirm)]) } }

/-- A read by an agent finds an error in a sector of the line at `dpa` (R413, R414). -/
def State.useErr (s : State) (src dpa : Nat) (e : SecErr) : State :=
  let g := groupOf dpa
  let a := dpa / 512 * 512 + 64 * (e.sector % 8)
  if e.uncorr then
    let s := (s.bump F.MOW_UE_COUNT g).mowErr g 0 src e.syndrome a
    ((s.demand g (lineOf dpa) true).memUe g 0 a).deviceError 1 false (channelOf dpa) a 0x531 g
  else
    let s := (s.bump F.MOW_CE_USE_COUNT g).countCe g (lineOf dpa)
    (s.demand g (lineOf dpa) false).deviceError 1 true (channelOf dpa) a 0 g

/-- A read of a sector that holds the poison pattern (R414): it is counted and recorded, and not queued. -/
def State.usePoison (s : State) (src dpa : Nat) : State :=
  let g := groupOf dpa
  (((s.bump F.MOW_POISON_READ_COUNT g).mowErr g 2 src 0 dpa).memUe g 2 dpa).deviceError 1 false (channelOf dpa) dpa 0x531 g

/-- A read returns a poisoned far sector (R442). -/
def State.useFarPoison (s : State) (p port src off : Nat) : State :=
  let s := (s.bump F.FAR_POISON_COUNT p).farErr p 0 port src off
  (s.eventBoth p 0x03 0x531 (detailAt 0x10 (off % 2 ^ 64))).deviceError 2 false port off 0x531 p

/-- A sector becomes the poison pattern (R411). -/
def State.poisonSector (s : State) (dpa : Nat) : State :=
  { s with mem := { s.mem with hbmPoison := tset false s.mem.hbmPoison [dpa / 64] true } }

/-! ### Channels -/

/-- Whether a channel performs no access: it is powering down or dormant (R400). -/
def State.channelDead (s : State) (ch : Nat) : Bool :=
  s.rd F.HBM_CH_STAT_PWR ch = 1 || s.rd F.HBM_CH_STAT_PWR ch = 2

/-- HBM_GSTAT's DORMANT and PWR follow the channels of a group (R407). -/
def State.syncGroup (s : State) (g : Nat) : State :=
  let l := (List.range 16).map (fun c => s.rd F.HBM_CH_STAT_PWR (16 * g + c))
  let s := s.wr F.HBM_GSTAT_PWR g (l.foldl max 0)
  s.wr F.HBM_GSTAT_DORMANT g ((List.range 16).foldl (fun m c => if nth l c = 2 then m + 2 ^ c else m) 0)

/-- An access that a dormant channel does not perform (R400). -/
def State.dormantAccess (s : State) (src dpa : Nat) (write : Bool) : State :=
  let g := groupOf dpa
  ((s.bump F.HBM_DORMANT_COUNT g).hbmErr g (if write then 3 else 2) src dpa).deviceError 8 false (channelOf dpa) dpa 0x312 g

/-- Zeroisation of a range of a group (R425): it reads as plaintext zeros, and poison goes. -/
def State.zeroHbm (s : State) (dpa n : Nat) : State :=
  { s with mem := { s.mem with hbm := mzero s.mem.hbm dpa n, hbmPoison := clearPoison 64 dpa n s.mem.hbmPoison } }

/-! ### Tenant use (R665) -/

/-- Whether the resources of paddock `p` are in tenant use. -/
def State.tenantUse (s : State) (p : Nat) : Bool := s.pdkState p != pdkFree && s.pdkState p != pdkOffline

end Sys2Proof.Machine
end

