-- ==== Sys2Proof/Machine/Hbm.lean ====
section
/-! DEFINITION. HBM (chapter 13): interface parity, calibration, refresh, channel power and margining. The line transactions
themselves stand in Machine/Lines.lean. -/

namespace Sys2Proof.Machine

def opHbmPower : Nat := 0x80
def opHbmMargin : Nat := 0x90

/-! ### Interface parity (R394, R395) -/

/-- The issued transactions of a paddock, oldest first. -/
def State.issuedLines (s : State) (p : Nat) : List Line := s.net.lines.filter (fun l => l.pdk == p && l.issued)
def State.setLine (s : State) (x : Line) : State :=
  { s with net := { s.net with lines := s.net.lines.map (fun l => if l.id = x.id then x else l) } }

/-- The failures of a channel under R395 within 1 s retire its group (R661). -/
def State.channelFailed (s : State) (ch : Nat) : State :=
  let g := ch / 16
  if hasBit (s.rd F.HIF_SPARES_RETIRED 0) g then s
  else
    let s := s.wr F.HIF_SPARES_RETIRED 0 (setBit (s.rd F.HIF_SPARES_RETIRED 0) g)
    let s := s.deviceError 1 false ch 0 0x391 g
    let d := detailAt 0x10 g + detailAt 0x12 ch
    if s.pdkState g = pdkFree then
      (s.wr F.PDK_STATE_STATE g pdkOffline).event 0 0x63 0x391 d g |>.event 0 0x08 0 0 g
    else if s.pdkState g = pdkOffline then s.event 0 0x63 0x391 d g
    else s.eventBoth g 0x63 0x391 d

/-- A failure under R395 is remembered for one second; the sixteenth retires the group (R661). -/
def State.countFailure (s : State) (ch : Nat) : State :=
  let l := (s.now :: tget [] s.rel.fails [ch]).filter (fun t => decide (s.now < t + 1000000000))
  let s : State := { s with rel := { s.rel with fails := tset [] s.rel.fails [ch] (l.take 16) } }
  if 16 ≤ l.length then s.channelFailed ch else s

/-- HBM_PARITY_REPLAY (R394, R395): the stack reports a parity error for the command of an issued transaction. Up to four
replays are counted; a fifth failing try returns a read poisoned or writes poisoned sectors, and fails its operation. -/
def execHbmParityReplay (p : Fin 16) (idx : Nat) (writeData : Bool) (s : State) : Host.Outcome State Fault Refusal :=
  match (s.issuedLines p.val)[idx]? with
  | none => .next s
  | some l =>
    if ptrTag l.ptr ≠ 0 ∨ l.msg.isSome ∨ l.dead ≠ 0 ∨ (writeData = true ∧ l.write = false) then .next s
    else
      let dpa := dpaOf p.val (ptrAddr l.ptr)
      let ch := channelOf dpa
      if l.tries < 4 then
        let s := (s.setLine { l with tries := l.tries + 1 }).bump F.HBM_PAR_RETRY_COUNT p.val
        .next ((s.bump F.HBM_CH_RETRY_COUNT ch).deviceError 1 true ch dpa 0 p.val)
      else
        let s := (s.setLine { l with dead := 0x530 }).bump F.HBM_PAR_FAIL_COUNT p.val
        let s := (s.bump F.HBM_CH_FAIL_COUNT ch).hbmErr p.val (if writeData then 1 else 0) l.src dpa
        let s := s.eventBoth p.val 0x04 0x530 (detailAt 0x10 (dpa % 2 ^ 64))
        let s := (s.deviceError 1 false ch dpa 0x530 p.val).countFailure ch
        .next (if l.src < 96 then s.abort p.val 0x530 else s)

/-! ### Calibration, refresh, temperature -/

/-- The calibration period in force, in ms (R407), and in ns. -/
def State.calMs (s : State) : Nat := if s.now < s.msys.calUntil then s.msys.calOld else s.rd F.HBM_DCFG_CAL_PERIOD_MS 0
def State.calNs (s : State) : Nat := s.calMs * 1000000

/-- CALIBRATION_WINDOW (R396): at its fixed instant a channel that holds data opens its window. -/
def execCalibrationWindow (ch : Fin 256) (s : State) : Host.Outcome State Fault Refusal :=
  if s.rd F.HBM_CH_STAT_PWR ch.val ≠ 2 ∧ s.now % s.calNs = ch.val * s.calNs / 256 then
    .next (s.wr F.HBM_CH_CAL_LAST ch.val s.now)
  else .next s

/-- HBM_REFRESH (R380, R396, R397): refresh changes no data, charges nothing and no register counts it. -/
def execHbmRefresh (_ch : Fin 256) (s : State) : Host.Outcome State Fault Refusal := .next s

/-- HBM_TEMPERATURE_READ (R380, R407): the last and highest temperature of each stack, and doubled refresh above 85 °C. -/
def execHbmTemperatureRead (temps : List Nat) (s : State) : Host.Outcome State Fault Refusal :=
  .next (loopN 8 (fun k s =>
    let t := nth temps k % 256
    let s := (s.wr F.HBM_TEMP_TEMP 0 t k).wr F.HBM_TEMP_MAX_TEMP 0 (max t (s.rd F.HBM_TEMP_MAX_TEMP 0 k)) k
    loopN 32 (fun c s => s.wr F.HBM_CH_STAT_REFRESH_X2 (32 * k + c) (b2n (decide (85 < t)))) s) s)

/-- A PF write of CAL_PERIOD_MS: 8 to 256, in force from the next timebase multiple of the new period (R407). -/
def execCalPeriodMsWrite (v : Nat) (s : State) : Host.Outcome State Fault Refusal :=
  let x := min (max (v % 512) 8) 256
  let old := s.calMs
  let s := s.wr F.HBM_DCFG_CAL_PERIOD_MS 0 x
  .next { s with msys := { s.msys with calOld := old, calUntil := (s.now / (x * 1000000) + 1) * (x * 1000000) } }

/-- A write of 1 to HBM_ERR0.VALID re-arms the record (R407). -/
def execHbmErr0ValidClear (p : Fin 16) (s : State) : Host.Outcome State Fault Refusal := .next (s.wr F.HBM_ERR0_VALID p.val 0)

/-- The command of a header that is taken and executing. -/
def State.runningCmd (s : State) (h : Hdr) : Option Instr :=
  (s.findTaken h).bind (fun t => if t.phase = .executing then t.cmd else none)

/-! ### Channel power (R398 to R402) -/

/-- Whether a self-test runs on a resource (R666). -/
def State.underTest (s : State) (kind unit : Nat) : Bool := s.rel.tests.any (fun t => t.kind == kind && t.unit == unit)

/-- Microseconds since a time. -/
def State.usSince (s : State) (t : Nat) : Nat := (s.now - t) / 1000

/-- Channels of a mask that are in state `st`, and setting the state of those channels. -/
def State.channelsIn (s : State) (g mask st : Nat) : List Nat :=
  (List.range 16).filter (fun c => hasBit mask c && s.rd F.HBM_CH_STAT_PWR (16 * g + c) = st)
def State.setChannels (s : State) (g : Nat) (cs : List Nat) (st : Nat) : State :=
  (cs.foldl (fun s c => s.wr F.HBM_CH_STAT_PWR (16 * g + c) st) s).syncGroup g

/-- HBM_POWER (R399, R401, R405): down stops new accesses to the named channels and waits for their writes; up trains them and
has the group zeroised. It waits while a named channel is under test (R666). Its prog: start, changed channels, whether up. -/
def execHbmPower (h : Hdr) (group state mask : Nat) (s : State) : Host.Outcome State Fault Refusal :=
  if s.callStatus h opHbmPower = 0 ∧ (s.orderBusy h = true ∨ (List.range 16).any (fun c => hasBit mask c && s.underTest 2 (16 * group + c)) = true) then .next s
  else
    .next (s.checked h opHbmPower
      (firstStatus [failIf (decide (15 < group) || mask == 0 || decide (65535 < mask) || !(state == 0 || state == 2)) 0x280,
        failIf (state == 2 && s.tenantUse group) 0x390]) (fun s =>
      let cs := s.channelsIn group mask (if state = 2 then 0 else 2)
      let m := cs.foldl (fun m c => m + 2 ^ c) 0
      let s := s.start h opHbmPower (some (.hbmPower h group state mask)) [s.now, m, b2n (state == 0), group]
      if cs = [] then s.complete h 0 else s.setChannels group cs (if state = 2 then 1 else 3)))

/-- Writes in flight to a channel mask of a group. -/
def State.writesTo (s : State) (g mask : Nat) : Bool :=
  s.net.lines.any (fun l => l.pdk == g && l.write && l.issued && ptrTag l.ptr == 0 && l.msg.isNone &&
    hasBit mask (channelOf (dpaOf g (ptrAddr l.ptr)) % 16))

/-- RESULT of HBM_POWER (R503). -/
def State.powerDone (s : State) (h : Hdr) (status : Nat) : State :=
  let g := s.progOf h
  s.complete h status (popBits (nth g 1) 16 * 2 ^ 16 + s.usSince (nth g 0) % 2 ^ 32 * 2 ^ 64)

/-- The prog of a taken HBM_POWER in the given direction. -/
def State.powerProg (s : State) (h : Hdr) (up : Bool) : Option (List Nat) :=
  (s.findTaken h).bind (fun t => if t.op = opHbmPower ∧ nth t.prog 2 = b2n up ∧ t.prog.length = 4 then some t.prog else none)

/-- HBM_POWER_DOWN_DRAINED (R399). -/
def execHbmPowerDownDrained (h : Hdr) (s : State) : Host.Outcome State Fault Refusal :=
  match s.powerProg h false with
  | none => .next s
  | some g =>
    if s.writesTo (nth g 3) (nth g 1) then .next s
    else .next ((s.setChannels (nth g 3) (s.channelsIn (nth g 3) (nth g 1) 1) 2).powerDone h 0)

/-- HBM_POWER_DOWN_TIMEOUT (R399): not drained in 100 µs; every named channel returns to powered. -/
def execHbmPowerDownTimeout (h : Hdr) (s : State) : Host.Outcome State Fault Refusal :=
  match s.powerProg h false with
  | none => .next s
  | some g =>
    if s.now < nth g 0 + 100000 then .next s
    else .next ((s.setChannels (nth g 3) (s.channelsIn (nth g 3) (nth g 1) 1) 0).complete h 0x313)

/-- HBM_POWER_UP_DONE (R401): the channels are trained and the whole group reads zeros. -/
def execHbmPowerUpDone (h : Hdr) (s : State) : Host.Outcome State Fault Refusal :=
  match s.powerProg h true with
  | none => .next s
  | some g =>
    let cs := s.channelsIn (nth g 3) (nth g 1) 3
    let s := cs.foldl (fun s c => s.wr F.HBM_CH_STAT_TRAINED (16 * nth g 3 + c) 1) s
    .next (((s.setChannels (nth g 3) cs 0).zeroHbm (nth g 3 * groupBytes) groupBytes).powerDone h 0)

/-! ### Margining (R403, R404) -/

/-- The range of a setting. -/
def marginRange (kind : Nat) : Nat := if kind = 2 ∨ kind = 3 then 24 else 32

/-- HBM_MARGIN (R403, R405). -/
def execHbmMargin (h : Hdr) (ch kind pattern lo hi dwell out : Nat) (s : State) : Host.Outcome State Fault Refusal :=
  let a := signedAt lo 16
  let b := signedAt hi 16
  let r : Int := marginRange kind
  let n := (b - a + 1).toNat
  .next (s.checked h opHbmMargin
    (firstStatus [failIf (decide (255 < ch) || decide (4 < kind) || decide (2 < pattern) || decide (b < a) || decide (a < -r) ||
        decide (r < b) || dwell == 0 || decide (65536 < dwell) || out % 16 != 0) 0x280,
      failIf (ptrTag out != 1) 0x401,
      failIf (s.tenantUse (ch / 16)) 0x390, failIf (s.rd F.HBM_CH_STAT_PWR ch != 0) 0x312,
      s.ptrStatus h.fn.val 0 out (16 * n) true]) (fun s =>
      s.gate h opHbmMargin (.hbmMargin h ch kind pattern lo hi dwell out) [⟨out, 16 * n, true⟩] (fun s => s)))

/-- HBM_MARGIN_COMPLETE (R403): one record a point, and the first and last offset without an error. -/
def execHbmMarginComplete (h : Hdr) (points : List (Nat × Bool)) (s : State) : Host.Outcome State Fault Refusal :=
  match s.runningCmd h with
  | some (.hbmMargin _ _ _ _ lo hi dwell out) =>
    let a := signedAt lo 16
    let n := (signedAt hi 16 - a + 1).toNat
    let pt (k : Nat) : Nat × Bool := (points[k]?).getD (0, false)
    let rec_ (k : Nat) : List Byte :=
      leBytes (unsignedOf (a + k) 16) 2 ++ leBytes 0 2 ++ leBytes dwell 4 ++ leBytes (min (pt k).1 0xFFFFFFFF) 4 ++
        leBytes (b2n (pt k).2) 4
    let good := (List.range n).filter (fun k => (pt k).1 == 0)
    let off (k : Option Nat) : Nat := (k.map (fun k => unsignedOf (a + k) 16)).getD 0x8000
    let s := s.ptrWrite h.fn.val 0 out ((List.range n).flatMap rec_)
    .next (s.complete h 0 (n * 2 ^ 16 + off good.head? * 2 ^ 32 + off good.getLast? * 2 ^ 48))
  | _ => .next s

end Sys2Proof.Machine
end

