-- ==== Sys2Proof/Machine/Far.lean ====
section
/-! DEFINITION. The far tier (chapter 15): slots, link loss and return, and its registers. -/

namespace Sys2Proof.Machine

/-- Port and port address of a transaction to far memory. -/
def State.farLine (s : State) (l : Line) : Option (Nat × Nat) :=
  if ptrTag l.ptr = 2 ∧ l.msg.isNone then s.farMap l.pdk (ptrFarOff l.ptr) else none

/-- A transaction that has requests to send on a port, and whether an earlier one still works on one of its sectors (R441,
R444). -/
def Line.farLeft (l : Line) : Bool := l.issued && l.dead == 0 && decide (64 * l.sent < l.len)
def State.farBlocked (s : State) (l : Line) (a : Nat) : Bool :=
  s.net.lines.any (fun x => x.id < l.id && x.issued && decide (0 < x.sent) &&
    (s.farLine x).any (fun y => (s.farLine l).any (fun z => z.1 == y.1) && decide (y.2 ≤ a) && decide (a < y.2 + x.len)))

/-- The oldest transaction of a paddock that may issue a request on a port in a direction. -/
def State.farCandidate (s : State) (port p : Nat) (write : Bool) : Option Line :=
  s.net.lines.find? (fun l => l.pdk == p && l.write == write && l.farLeft &&
    (s.farLine l).any (fun y => y.1 == port && !s.farBlocked l (y.2 + 64 * l.sent)))

/-- Owners of the slots of a port (16 for none) and STRICT, as the registers hold them, and as they are in force. -/
def State.farTable (s : State) (port : Nat) : List Nat × Bool :=
  ((List.range 64).map (fun k =>
    if s.rd F.FAR_SLOT_OWNED port k = 1 then s.rd F.FAR_SLOT_PADDOCK port k else 16), s.rd F.FAR_PSTATUS_STRICT port = 1)
def State.farInForce (s : State) (port : Nat) : List Nat × Bool := (tget none s.msys.farSlots [port]).getD (s.farTable port)

/-- A far request goes out. -/
def State.farSend (s : State) (port : Nat) (l : Line) : State :=
  let a := ((s.farLine l).map (fun y => y.2)).getD 0 + 64 * l.sent
  (s.setLine { l with sent := l.sent + 1 }).emit (.far port a l.write ((l.data.drop (64 * l.sent)).take 64))

/-- FAR_REQUEST_ISSUE (R444): a slot passes in a direction. A new table cycle takes the registers' table into force (R448). -/
def execFarRequestIssue (port : Fin 2) (slot : Fin 64) (write : Bool) (s : State) : Host.Outcome State Fault Refusal :=
  let s : State := if slot.val = 0 then
      { s with msys := { s.msys with farSlots := tset none s.msys.farSlots [port.val] (some (s.farTable port.val)) } }
    else s
  if s.rd F.FAR_PSTATUS_STATE port.val ≠ 1 then .next s
  else
    let (owners, strict) := s.farInForce port.val
    let owner := nth owners slot.val
    match s.farCandidate port.val owner write with
    | some l => .next (s.farSend port.val l)
    | none =>
      if strict then .next s
      else
        let key := [port.val, b2n write]
        let from_ := tget 0 s.msys.farLast key
        match (List.range 16).findSome? (fun k => (s.farCandidate port.val ((from_ + k) % 16) write)) with
        | none => .next s
        | some l =>
          let s : State := { s with msys := { s.msys with farLast := tset 0 s.msys.farLast key (l.pdk + 1) } }
          .next (s.farSend port.val l)

/-- CXL_LINK_REPLAY (R442). -/
def execCxlLinkReplay (port : Fin 2) (s : State) : Host.Outcome State Fault Refusal :=
  .next ((s.bump F.FAR_RETRY_COUNT port.val).deviceError 2 true port.val 0 0 0xFF)

/-- An access that fails because the port is down (R446): it is counted and recorded; a schedule's operation fails. -/
def State.farDown (s : State) (l : Line) : State :=
  match s.farLine l with
  | none => s
  | some (port, _) =>
    let s := (s.setLine { l with dead := 0x810 }).bump F.FAR_DOWN_ERR_COUNT l.pdk
    let s := s.farErr l.pdk 1 port l.src (ptrFarOff l.ptr)
    if l.src < 96 then s.abort l.pdk 0x810 else s

/-- Whether a paddock has an extent on a port. -/
def State.hasExtent (s : State) (p port : Nat) : Bool :=
  s.pdkState p != pdkFree && s.rd (if port = 0 then F.FAR_PEXT_SIZE0 else F.FAR_PEXT_SIZE1) p != 0

/-- The link of a far port goes down (R446): every access in flight on it fails, the loss is reported, and the link retrains. -/
def State.farLoss (s : State) (port : Nat) : State :=
  if s.rd F.FAR_PSTATUS_STATE port ≠ 1 then s
  else
    let s := (s.wr F.FAR_PSTATUS_STATE port 2).bump F.FAR_DOWN_EVT_COUNT port
    let s : State := { s with msys := { s.msys with farSince := tset 0 s.msys.farSince [port] s.now } }
    let hit := s.net.lines.filter (fun l => l.issued && l.dead == 0 && (s.farLine l).any (fun y => y.1 == port))
    let s := hit.foldl (fun s l => s.farDown l) s
    let d := detailAt 0x10 port
    let s := loopN 16 (fun p s => if s.hasExtent p port then s.event (vfOf p) 0x05 0x810 d else s) s
    s.event 0 0x05 0x810 d

/-- FAR_LINK_LOSS (R446). -/
def execFarLinkLoss (port : Fin 2) (s : State) : Host.Outcome State Fault Refusal := .next (s.farLoss port.val)

/-- FAR_LINK_RETURN (R446): service resumes with the expander's contents intact. -/
def execFarLinkReturn (port : Fin 2) (s : State) : Host.Outcome State Fault Refusal :=
  if s.rd F.FAR_PSTATUS_STATE port.val = 2 then .next ((s.wr F.FAR_PSTATUS_STATE port.val 1).setLock 7 true) else .next s

/-- FAR_RETRAIN_EXHAUSTED (R446): the port stays down until module power-on. -/
def execFarRetrainExhausted (port : Fin 2) (s : State) : Host.Outcome State Fault Refusal :=
  if s.rd F.FAR_PSTATUS_STATE port.val = 2 then
    let s := (s.wr F.FAR_PSTATUS_STATE port.val 3).wr F.FAR_PSTATUS_SPEED port.val 0
    .next (s.wr F.FAR_PSTATUS_WIDTH port.val 0)
  else .next s

/-- EXPANDER_MEDIA_EVENT (R435, R448). -/
def execExpanderMediaEvent (port : Fin 2) (s : State) : Host.Outcome State Fault Refusal :=
  .next (s.bump F.FAR_MEDIA_EVT_COUNT port.val)

/-- A write of 1 to FAR_ERR0.VALID re-arms the record (R448). -/
def execFarErr0ValidClear (p : Fin 16) (s : State) : Host.Outcome State Fault Refusal := .next (s.wr F.FAR_ERR0_VALID p.val 0)

/-- A PF write of a slot register or of STRICT (R448): the table in force stays until its next cycle. -/
def execFarSlotWrite (port : Fin 2) (k : Fin 9) (v : Nat) (s : State) : Host.Outcome State Fault Refusal :=
  let s : State := { s with msys := { s.msys with
    farSlots := tset none s.msys.farSlots [port.val] (some (s.farInForce port.val)) } }
  if k.val = 8 then .next (s.wr F.FAR_PSTATUS_STRICT port.val v)
  else
    .next (loopN 8 (fun j s =>
      let s := s.wr F.FAR_SLOT_OWNED port.val (bitsAt v (8 * j + 7) 1) (8 * k.val + j)
      s.wr F.FAR_SLOT_PADDOCK port.val (bitsAt v (8 * j) 4) (8 * k.val + j)) s)

end Sys2Proof.Machine
end

