-- ==== Sys2Proof/Machine/Lines.lean ====
section
/-! DEFINITION. Line transactions (R389, R390): requests, their admission and issue. What a transaction's end means to the work that
asked for it stands in Machine/LineDone.lean. -/

namespace Sys2Proof.Machine

/-- Charge of a line (R123): HBM, or far, pod-link and host lines. -/
def lineWeight (ptr : Nat) (msg : Bool) : Nat := if ptrTag ptr = 0 ∧ msg = false then 40 else 16

/-- The tag under which a line's charge is held or admitted (R124). -/
def lineTag (id : Nat) : List Nat := [3, id]

/-- A request for a line transaction arises (R390): its charge is admitted now or held. -/
def State.addLine (s : State) (x : Line) : State :=
  let id := s.net.nextLine
  let x : Line := { x with id := id }
  let s : State := { s with net := { s.net with nextLine := id + 1, lines := s.net.lines ++ [x] } }
  s.untimed x.pdk x.src (lineWeight x.ptr x.msg.isSome) (lineTag id) (fun s => s.setLine { x with admitted := true })

/-- A read request, a write request, and a request to send a message. -/
def readLine (p src ptr len : Nat) (use : LineUse) : Line := ⟨0, p, src, false, ptr, len, [], false, none, use, false, false, 0, 0, 0, false⟩
def storeLine (p src ptr : Nat) (data : List Byte) (poison : Bool) (use : LineUse) : Line :=
  ⟨0, p, src, true, ptr, data.length, data, poison, none, use, false, false, 0, 0, 0, false⟩
def msgLine (p src : Nat) (port : Option Nat) (m : Msg) (use : LineUse) : Line :=
  ⟨0, p, src, true, 3 * 2 ^ 62, m.data.length, [], false, some (port, m), use, false, false, 0, 0, 0, false⟩

/-- Whether a request's charge has been admitted. -/
def State.lineAdmitted (s : State) (l : Line) : Bool :=
  l.admitted || (s.admittedOf l.pdk).any (fun e => e.tag == lineTag l.id)

/-- The pieces of `n` bytes at address `a` that lie in one aligned 512-byte line each: offset and length. -/
def linePieces (a n : Nat) : List (Nat × Nat) :=
  (List.range (linesOf a n)).map (fun k => (lineStart a k, min n (lineStart a (k + 1)) - lineStart a k))
where
  /-- Offset of the first byte in line `k`. -/
  lineStart (a k : Nat) : Nat := if k = 0 then 0 else 512 * k - a % 512

/-- Most line transactions of a paddock (R389). -/
def lineCap : Nat := 2048

/-- The next request to issue (R390): the oldest admitted one of the first source with one, cyclically after the last source
that issued. -/
def State.nextRequest (s : State) (p : Nat) : Option Line :=
  let l := s.net.lines.filter (fun l => l.pdk == p && !l.issued)
  let from_ := tget 0 s.net.lastSrc [p]
  (List.range sources).findSome? (fun k =>
    (l.find? (fun x => x.src == (from_ + k) % sources)).bind (fun x => if s.lineAdmitted x then some x else none))

/-- Whether a request is held in the present clock: admitted, with every transaction in use (R390). -/
def State.lineHeld (s : State) (p : Nat) : Bool :=
  decide (lineCap ≤ s.rd F.HBM_GSTAT_TXN p) && s.net.lines.any (fun l => l.pdk == p && !l.issued && s.lineAdmitted l)

/-- What the issue of a transaction does: a message is handed to its port, a host access is sent, an access to a dormant channel
or a down port is not performed (R400, R446). -/
def State.issueEffect (s : State) (l : Line) : State :=
  match l.msg with
  | some (port, m) => s.post port l.pdk (msgVl m.kind) (some l.id) { m with place := s.rd F.RTE_PCFG_SELF_EPOCH l.pdk }
  | none =>
    match ptrTag l.ptr with
    | 0 =>
      let dpa := dpaOf l.pdk (ptrAddr l.ptr)
      if s.channelDead (channelOf dpa) then
        let s := (s.setLine { l with dead := 0x312 }).dormantAccess l.src dpa l.write
        if l.src < 96 then s.abort l.pdk 0x312 else s
      else s
    | 1 => if l.write then s.emit (.hostWrite (vfOf l.pdk) l.ptr l.data) else s.emit (.hostRead (vfOf l.pdk) l.ptr l.len)
    | 2 =>
      match s.farLine l with
      | some (port, _) => if s.rd F.FAR_PSTATUS_STATE port = 1 then s else s.farDown l
      | none => s
    | _ => s

/-- LINE_TRANSACTION_ISSUE (R390). -/
def execLineTransactionIssue (p : Fin 16) (s : State) : Host.Outcome State Fault Refusal :=
  let n := s.rd F.HBM_GSTAT_TXN p.val
  match s.nextRequest p.val with
  | none => .next s
  | some l =>
    if lineCap ≤ n then .next s
    else
      let s := s.setAdmitted p.val ((s.admittedOf p.val).filter (fun e => e.tag != lineTag l.id))
      let l : Line := { l with issued := true, admitted := true }
      let s := (s.setLine l).wr F.HBM_GSTAT_TXN p.val (n + 1)
      let s := s.wr F.HBM_GSTAT_TXN_PEAK p.val (max (n + 1) (s.rd F.HBM_GSTAT_TXN_PEAK p.val))
      let s : State := { s with net := { s.net with lastSrc := tset 0 s.net.lastSrc [p.val] (l.src + 1) } }
      .next (s.issueEffect l)

/-! ### The end of a transaction -/

/-- Whether an issued transaction can end: a message's link acknowledgement has come, a far line's requests have all been sent, a
remote read ends with its message. -/
def Line.canEnd (l : Line) : Bool :=
  l.issued && (match l.msg with
    | some _ => l.write && l.acked
    | none => l.dead != 0 || (match ptrTag l.ptr with
      | 2 => decide (l.len ≤ 64 * l.sent)
      | 3 => false
      | _ => true))

/-- The transaction is released. -/
def State.dropLine (s : State) (l : Line) : State :=
  let s : State := { s with net := { s.net with lines := removeFirst (fun x => x.id == l.id) s.net.lines } }
  if l.issued then s.wr F.HBM_GSTAT_TXN l.pdk (s.rd F.HBM_GSTAT_TXN l.pdk - 1) else s

/-- Poisoned sectors that a read of HBM or far memory meets, in the order of their addresses. -/
def State.poisonIn (t : Tbl Bool) (a n : Nat) : List Nat :=
  (List.range ((a % 64 + n + 63) / 64)).filterMap (fun k => if tget false t [a / 64 + k] then some (64 * (a / 64 + k)) else none)

/-- The data of a read that ends, whether they are poisoned, and what its errors do (R413, R414, R442, R471). -/
def State.lineRead (s : State) (l : Line) (ret : Fetched) (errs : List SecErr) : State × (List Byte × Bool) :=
  let zeros := List.replicate l.len (0 : Byte)
  if l.dead ≠ 0 then (s, (zeros, true))
  else
    match ptrTag l.ptr with
    | 0 =>
      let dpa := dpaOf l.pdk (ptrAddr l.ptr)
      let pat := State.poisonIn s.mem.hbmPoison dpa l.len
      let mine := errs.filter (fun e => decide (dpa % 512 / 64 ≤ e.sector) && decide (64 * e.sector < dpa % 512 + l.len) &&
        !pat.contains (dpa / 512 * 512 + 64 * e.sector))
      let s := pat.foldl (fun s a => s.usePoison l.src a) s
      let s := mine.foldl (fun s e => s.useErr l.src dpa e) s
      let bs := s.hbmRead l.pdk (ptrAddr l.ptr) l.len
      (s.bump F.HBM_RD_LINES_COUNT l.pdk, (bs, pat != [] || mine.any (fun e => e.uncorr)))
    | 1 =>
      let s := s.bump F.HIF_HOST_RD_LINES_COUNT (vfOf l.pdk)
      (match ret with
        | .ok bs => (s, ((bs ++ zeros).take l.len, false))
        | _ => (s, (zeros, true)))
    | 2 =>
      match s.farLine l with
      | none => (s, (zeros, true))
      | some (port, fpa) =>
        let pat := State.poisonIn s.mem.farPoison (farAddr port fpa) l.len
        let bad := errs.filter (fun e => e.uncorr)
        let s := loopN (pat.length + bad.length) (fun _ s => s.useFarPoison l.pdk port l.src (ptrFarOff l.ptr)) s
        (s.bump F.FAR_RD_LINES_COUNT l.pdk, (s.farRead l.pdk (farAddr port fpa) l.len, pat != [] || bad != []))
    | _ => (s, (zeros, true))

/-- The effect of a write that ends: dropped, written as poison (R395), or written (R388). -/
def State.lineWrite (s : State) (l : Line) : State :=
  match ptrTag l.ptr with
  | 0 =>
    if l.dead = 0x312 then s
    else
      let s := (s.noteWrite l.pdk l.ptr l.len).bump F.HBM_WR_LINES_COUNT l.pdk
      if l.dead ≠ 0 ∨ l.poison = true then s.hbmPoisonAt l.pdk (ptrAddr l.ptr) l.len else s.hbmWrite l.pdk (ptrAddr l.ptr) l.data
  | 1 => s.bump F.HIF_HOST_WR_LINES_COUNT (vfOf l.pdk)
  | 2 =>
    match l.dead, s.farLine l with
    | 0, some (port, fpa) =>
      ((s.noteWrite l.pdk l.ptr l.len).farWrite l.pdk (farAddr port fpa) l.data).bump F.FAR_WR_LINES_COUNT l.pdk
    | _, _ => s
  | _ => s

end Sys2Proof.Machine
end

