-- ==== Sys2Proof/Machine/Ports.lean ====
section
/-! DEFINITION. What the receivers of messages need of a pod port: its state beside the registers, credit pools, and the return of
credits when a message is consumed (R527, R528). -/

namespace Sys2Proof.Machine

/-- A port as a full training leaves it, and as it is before the first. Sequence numbers start at 0 (DESIGN CHOICE: log entry 30). -/
def port0 : Port where
  step := 0
  since := 0
  tries := 0
  authTry := false
  slot := 0
  newSlots := none
  vlNext := []
  offer := 0
  poolNext := 0
  seqNext := 0
  retry := []
  replay := []
  replayFirst := false
  nakSeen := 0
  ackGot := 4095
  flits := 0
  resume := false
  seqWant := 0
  nak := false
  nakId := 0
  nakWait := 0
  partials := []
  heldBytes := []
  inbox := []
  rxCount := []
  withheld := []
  txCount := []
  txSent := []
  violations := []
  authFails := []
  goodAt := 0
  mapEpoch := 0
  txFlits := 0
  rxFlits := 0
  rekeying := false
  peerReady := none
  idle := 0
  timeSeq := 0
  echo := (0, 0)
  goodTimes := 0
  digest := []
  peerEncrypt := false
  peerLocked := false
  spdm := []

def State.portOf (s : State) (q : Nat) : Port := tget port0 s.net.ports [q]
def State.setPort (s : State) (q : Nat) (x : Port) : State :=
  { s with net := { s.net with ports := tset port0 s.net.ports [q] x } }

/-- Credit pool of a flit (R527). -/
def poolOf (vl owner : Nat) : Nat :=
  if vl = 0 then 0 else if vl = 6 then 1 else if vl = 7 then 2 else 3 + 16 * (vl - 1) + owner % 16

/-- Number of pools that exist (R527). -/
def poolCount : Nat := 83

/-- Allotment of a pool of a port (R524, R527). -/
def State.allotment (s : State) (q pool : Nat) : Nat :=
  if pool = 0 ∨ pool = 2 then 32
  else if pool = 1 then s.rd F.PLK_TRANSIT_TRANSIT q
  else if pool < poolCount then 8 * s.rd F.PLK_CRED_CRED q (5 * ((pool - 3) % 16) + (pool - 3) / 16)
  else 0

/-- A credit of a pool returns: the count rises, unless a lowered allotment withholds the return (R528). -/
def State.returnCredit (s : State) (q pool : Nat) : State :=
  let x := s.portOf q
  let w := tget 0 x.withheld [pool]
  if 0 < w then s.setPort q { x with withheld := tset 0 x.withheld [pool] (w - 1) }
  else s.setPort q { x with rxCount := tset 0 x.rxCount [pool] ((tget 0 x.rxCount [pool] + 1) % 4096) }

/-- Bytes taken off the flits that hold them, oldest first: what is left, and how many flits hold nothing more. -/
def eatBytes : Nat → List Nat → List Nat × Nat
  | _, [] => ([], 0)
  | n, b :: bs =>
    if b ≤ n then
      let r := eatBytes (n - b) bs
      (r.1, r.2 + 1)
    else ((b - n) :: bs, 0)

/-- `n` bytes of a stream have been handed to their consumer: the flits that hold no other byte return their credits (R527). -/
def State.handOver (s : State) (q vl owner n : Nat) : State :=
  let x := s.portOf q
  let r := eatBytes n (tget [] x.heldBytes [vl, owner])
  let s := s.setPort q { x with heldBytes := tset [] x.heldBytes [vl, owner] r.1 }
  loopN r.2 (fun _ s => s.returnCredit q (poolOf vl owner)) s

/-- A message goes to its consumer: when it is in the port's inbox it leaves it and its bytes are handed over; a message that is
not there is one whose flits were not given as commands (log entry 31). -/
def State.consume (s : State) (q : Nat) (m : Msg) : State :=
  let x := s.portOf q
  match x.inbox.find? (fun e => e.2.2 == m) with
  | none => s
  | some e =>
    (s.setPort q { x with inbox := removeFirst (· == e) x.inbox }).handOver q e.1 e.2.1 (32 * msgUnits m)

end Sys2Proof.Machine
end

