-- ==== Sys2Proof/Machine/Cells.lean ====
section
/-! DEFINITION. SIGNAL, STILE_ARRIVE and the claims of untimed operations, and their effect at the end of the tick (R136, R139,
R148). STILE_WAIT stands in Machine/Schedule.lean. -/

namespace Sys2Proof.Machine

/-- Queues what takes effect at the end of the pending tick (R139). -/
def State.atEnd (s : State) (c : Nat) (e : EndSig) : State :=
  { s with sched := { s.sched with ends := tset [] s.sched.ends [c] (tget [] s.sched.ends [c] ++ [e]) } }

/-- SIGNAL (R136). -/
def execSignal (a : At) (s : State) : Host.Outcome State Fault Refusal :=
  .next (s.issueAs opcSignal a (fun x s =>
    s.atEnd x.c ⟨0, x.side, x.st, x.pos, fCell x.w, fCond x.w, operandAt x.w x.j⟩))

/-- STILE_ARRIVE (R148). -/
def execStileArrive (a : At) (s : State) : Host.Outcome State Fault Refusal :=
  .next (s.issueAs opcArrive a (fun x s => s.atEnd x.c ⟨1, x.side, x.st, x.pos, fStile x.w, 0, fMask x.w⟩))

/-- The claim of an untimed operation with completion ACTION 2, in its issue tick (R148). -/
def State.claimDone (s : State) (x : Ctx) (done : Nat) : State :=
  if doneAction done = 2 then s.atEnd x.c ⟨2, x.side, x.st, x.pos, doneStile done, 0, doneMask done⟩ else s

/-- One signal of phase 3 (R139). -/
def State.applyEnd (s : State) (c : Nat) (e : EndSig) : State :=
  if e.kind = 0 then s.signalCell c e.target e.op e.value e.stream e.position false
  else
    let err := s.rd F.SYN_ERR0_VALID c
    let claimed := s.rd F.SYN_STILE_CLAIMED c e.target
    let t := s.stileClaim c e.target e.stream e.value e.position false
    if e.kind = 2 then t
    else if t.rd F.SYN_STILE_CLAIMED c e.target = claimed ∧ (err = 1 ∨ t.rd F.SYN_ERR0_VALID c = 1) then t
    else t.stileArrive c e.target e.stream e.position false

/-- Whether applying a signal overflows its cell (R137). -/
def State.endOverflows (s : State) (c : Nat) (e : EndSig) : Bool :=
  e.kind == 0 && (signalValue e.op (s.rd F.SYN_VAL_VALUE c e.target) e.value).isNone

/-- Signals in ascending stream order; an overflow stops the phase's remaining signals to the same cell (R139). -/
def State.applyEnds (s : State) (c : Nat) : List EndSig → List Nat → State
  | [], _ => s
  | e :: es, stopped =>
    if e.kind = 0 ∧ stopped.contains e.target = true then s.applyEnds c es stopped
    else (s.applyEnd c e).applyEnds c es (if s.endOverflows c e then e.target :: stopped else stopped)

/-- Phase 3 of R139 for a core whose tick has issued. -/
def State.phase3 (s : State) (c : Nat) : State :=
  let l := tget [] s.sched.ends [c]
  let s : State := { s with sched := { s.sched with ends := tset [] s.sched.ends [c] [] } }
  s.applyEnds c ((List.range 12).flatMap (fun st => l.filter (fun e => e.stream == st))) []

end Sys2Proof.Machine
end

