-- ==== Sys2Proof/Machine/Rows.lean ====
section
/-! DEFINITION. Untimed accesses to shelf rows: arrival writes and the patrol (R50 to R58, R64). -/

namespace Sys2Proof.Machine

/-- Row of a timed access, where it names one (the tray and the working store have no banks). -/
def State.placeRow (s : State) (c : Nat) : Place → Option Nat
  | .row r => some r
  | .drawer d => if s.drwSize c d = 0 then none else some (s.headRow c d)
  | .tray _ _ => none
  | .ws _ _ _ => none

/-- Reads that an operation makes in its core's present operation tick. -/
def OpKind.treads : OpKind → List TRead
  | .tile t => t.reads
  | .elem e => e.reads
  | .outb o => o.reads
  | .append a => a.reads
  | _ => []
def State.dueReads (s : State) (c : Nat) : List (Op × TRead) :=
  s.sched.ops.flatMap (fun o =>
    if o.core = c then (o.kind.treads.filter (fun r => r.tick == s.opTick c)).map (fun r => (o, r)) else [])

/-- Timed accesses of a core's present operation tick: stream and bank (R45). -/
def State.timedAccesses (s : State) (c : Nat) : List (Nat × Nat) :=
  (s.dueReads c).filterMap (fun x => (s.placeRow c x.2.place).map (fun r => (x.1.stream, bankOf r))) ++
    ((tget [] s.sched.commits [c]).filter (fun w => w.due == s.opTick c + 3 && !w.ws)).map (fun w =>
      (((s.findOp w.op).map (fun o => o.stream)).getD 1, bankOf w.row))
def State.timedIn (s : State) (c b : Nat) : Bool := (s.timedAccesses c).any (fun a => a.2 == b)

/-- Banks that untimed accesses have used in the present clock. -/
def State.usedBanks (s : State) (c : Nat) : List Nat := tget [] s.shelf.used [c]
def State.useBank (s : State) (c b : Nat) : State :=
  { s with shelf := { s.shelf with used := tset [] s.shelf.used [c] (b :: s.usedBanks c) } }
def State.idleBank (s : State) (c b : Nat) : Bool := !s.timedIn c b && !(s.usedBanks c).contains b

/-- Whether a core is gated, or its banks are not powered. -/
def State.shelfUp (s : State) (c : Nat) : Bool := s.rd F.DRW_SHELF_CFG_PWR c = 0

/-! ### Arrivals -/

/-- The number under which a deferred append row arrives: no operation has it. Such a row claims the slot at the tail of drawer 63 as
it lands (R334). -/
def deferOp : Nat := 0xFFFFFFFE
/-- The oldest arrival of each bank of a core, oldest first (R50). -/
def State.arrivalsOf (s : State) (c : Nat) : List Arrival :=
  (s.sched.arrivals.filter (fun a => a.core == c)).map (fun a => if a.op = deferOp then { a with row := s.tailRow c 63 } else a)
def bankHeads : List Nat → List Arrival → List Arrival
  | _, [] => []
  | seen, a :: l => if seen.contains (bankOf a.row) then bankHeads seen l else a :: bankHeads (bankOf a.row :: seen) l
def State.arrivalHeads (s : State) (c : Nat) : List Arrival := bankHeads [] (s.arrivalsOf c)

def State.landedNow (s : State) (c : Nat) : Nat := tget 0 s.shelf.landed [c]

/-- The ACK of a received message (R573): its status, TARGET's high half and AUX. -/
def State.ackFor (s : State) (p dev pdk xid k status high aux : Nat) : State :=
  s.sendMsg (s.mkMsg p 7 dev pdk xid k 0 (status % 65536 + high * 2 ^ 32) aux [])

/-- A row of a receive has committed: the messages that it came from are acknowledged (R573, R579). -/
def State.recvLanded (s : State) (o : Op) (r : Recv) (row : Nat) : State :=
  let k := r.rows.findIdx (fun x => x == row)
  let mine := r.got.filter (fun g => g.k == k && !g.acked)
  let s := mine.foldl (fun s g => s.ackFor (corePdk o.core) g.dev g.pdk g.xid k 0 0 1) s
  s.setOp o.id (.recv { r with
    got := r.got.map (fun g => if g.k = k then { g with acked := true } else g)
    committed := r.committed + 1 })

/-- A row of a pass has committed: a staging row of one of its blocks (R294), or a row that it wrote. -/
def Pass.landed (x : Pass) (row : Nat) : Pass :=
  let stage := fieldAt x.desc 0x38 2
  let half := 2 ^ fieldAt x.desc 3 1 * (if fieldAt x.desc 2 1 = 2 then 2 else 1) / 4
  let depth := fieldAt x.desc 0x0F 1
  if stage ≤ row ∧ row < stage + depth * 2 * half ∧ 0 < depth then
    let slot := (row - stage) / (2 * half)
    let key := decide ((row - stage) % (2 * half) < half)
    { x with blks := x.blks.map (fun b =>
        if b.slot = slot ∧ b.qkAt.isNone ∧ key = true then { b with keys := b.keys - 1 }
        else if b.slot = slot ∧ key = false then { b with vals := b.vals - 1 } else b) }
  else { x with landing := x.landing - 1 }

/-- What a committed row means to the transfer that asked for it: a FETCH or PAGE_FETCH completes with its last row and, for a
page, its ACK (R143, R575, R576); a receive, a lookup and a pass complete by commands of their own. -/
def State.rowLanded (s : State) (id row : Nat) : State :=
  match s.findOp id with
  | none => s
  | some o =>
    match o.kind with
    | .fetch f =>
      let f := { f with committed := f.committed + 1 }
      if f.committed = f.rows.length ∧ (f.page.isNone ∨ f.acked = true) then s.completeOp { o with kind := .fetch f }
      else s.setOp id (.fetch f)
    | .recv r => s.recvLanded o r row
    | .lookup l => s.setOp id (.lookup { l with committed := l.committed + 1 })
    | .pass x => s.setOp id (.pass (x.landed row))
    | _ => s

/-- A deferred row lands in drawer 63 and is recorded (R334); a drawer that has no free slot overflows (R335). -/
def State.landDeferred (s : State) (a : Arrival) : State :=
  let p := corePdk a.core
  match s.claimSlot a.core 63 with
  | none => s.violation a.core 0 63 a.stream 0
  | some (s, r) =>
    let s := s.commitRow a.core r a.bytes a.poison (some 63)
    if s.rd F.CTX_DEFER0_VALID p = 1 then s
    else
      let s := (s.wr F.CTX_DEFER0_VALID p 1).wr F.CTX_DEFER0_CTX p (fieldAt a.bytes 0 2)
      (s.wr F.CTX_DEFER0_POS p (fieldAt a.bytes 8 4)).wr F.CTX_DEFER1_TIME p s.now

/-- The arrival's write: dropped and logged when the banks are dormant (R64), else committed (R50, R52). -/
def State.landArrival (s : State) (a : Arrival) : State :=
  let c := a.core
  let queued : Arrival := if a.op = deferOp then { a with row := 0 } else a
  let s : State := { s with sched := { s.sched with arrivals := removeFirst (· == queued) s.sched.arrivals } }
  let s := s.useBank c (bankOf a.row)
  let s : State := { s with shelf := { s.shelf with landed := tset 0 s.shelf.landed [c] (s.landedNow c + 1) } }
  if a.op = deferOp then s.landDeferred a
  else if s.shelfUp c then (s.commitRow c a.row a.bytes a.poison a.drawer).rowLanded a.op a.row
  else
    let s := s.deviceError 8 false (s.phys c) a.row 0 (corePdk c)
    (s.rowLanded a.op a.row).abort (corePdk c) 0x312

/-- An arrival write is an untimed event of its stream (R123, R124). -/
def State.arrivalGo (s : State) (a : Arrival) : State :=
  s.untimed (corePdk a.core) (srcStream a.core a.stream) 1 [0, a.core, a.op, a.row] (fun s => s.landArrival a)

/-- ARRIVAL_WRITE_COMMIT (R50): the oldest arrival of a bank that is idle in the present clock commits, when it is one of the
four oldest of such banks. -/
def execArrivalWriteCommit (core : Fin 128) (bank : Fin 32) (s : State) : Host.Outcome State Fault Refusal :=
  let c := core.val
  let l := (s.arrivalHeads c).filter (fun a => s.idleBank c (bankOf a.row))
  match l.findIdx? (fun a => bankOf a.row == bank.val) with
  | none => .next s
  | some k =>
    match l[k]? with
    | none => .next s
    | some a =>
      if tget false s.sched.gated [c] = true ∨ 4 ≤ s.landedNow c + k then .next s else .next (s.arrivalGo a)

/-- ARRIVAL_WRITE_FORCED (R51): an arrival that waited 256 issuing ticks is served even in a busy bank; with a conflict the core
slips one clock for the arrival, unless it slips already (R92). -/
def execArrivalWriteForced (core : Fin 128) (bank : Fin 32) (s : State) : Host.Outcome State Fault Refusal :=
  let c := core.val
  match (s.arrivalHeads c).find? (fun a => bankOf a.row == bank.val && decide (256 ≤ a.waited)) with
  | none => .next s
  | some a =>
    if tget false s.sched.gated [c] = true ∨ 4 ≤ s.landedNow c ∨ (s.usedBanks c).contains bank.val = true then .next s
    else
      let s := if s.timedIn c bank.val ∧ (tget (0, 0) s.sched.owed [c]).1 = 0 ∧ (s.slipOf c).isNone then
          { s with sched := { s.sched with owed := tset (0, 0) s.sched.owed [c] (1, 7) } }
        else s
      .next (s.arrivalGo a)

/-! ### The patrol -/

/-- Logical row of a bank row below 768 (R44), and of a spare row in use; 0 for one not in use. -/
def logicalRow (b br : Nat) : Nat := br * 32 + Nat.xor (Nat.xor b (br % 32)) (br / 32 % 32)
def State.patrolRow (s : State) (c b br : Nat) : Option Nat :=
  if br < 768 then some (logicalRow b br)
  else
    let x := tget 0 s.shelf.spares [s.phys c, b, br - 768]
    if x = 0 then none else some (logicalRow b (x - 1))

/-- Fewest passes of the banks, and longest last pass in units of 1,024 clocks (DRW_PATROL). -/
def State.syncPatrol (s : State) (c : Nat) : State :=
  let l := (List.range 32).map (fun b => s.patrolOf c b)
  let n := l.foldl (fun m x => min m x.passes) 0xFFFF
  let k := l.foldl (fun m x => max m x.last) 0
  (s.wr F.DRW_PATROL_PASSES c n).wr F.DRW_PATROL_LAST_PASS_KTICK c (min (k / 1024) 0xFFFFFF)

/-- The patrol of a bank goes to its next row; after row 775 a pass ends (R57). -/
def State.patrolStep (s : State) (c b : Nat) : State :=
  let x := s.patrolOf c b
  let now := s.bud.clock
  if x.next = 775 then
    (s.setPatrol c b { x with next := 0, passes := x.passes + 1, last := now - x.started, started := now }).syncPatrol c
  else s.setPatrol c b { x with next := x.next + 1 }

/-- A patrol read of the bank's next row (R54, R55, R57): a poisoned row is passed over; a corrected row waits to be written
back. -/
def State.patrolRead (s : State) (c b : Nat) (err : Option (Nat × Bool)) : State :=
  let x := s.patrolOf c b
  let br := x.next
  let row := s.patrolRow c b br
  let s := (s.useBank c b).patrolStep c b
  match err with
  | none => s
  | some (codeword, uncorr) =>
    if row.any (fun r => s.rowPoison c r) then s
    else if uncorr then
      let s := match row with
        | some r => { s with mem := { s.mem with shelfPoison := tset false s.mem.shelfPoison [c, r] true } }
        | none => s
      let s := (s.bump F.DRW_SHELF_UE_COUNT c).markRow c b br
      let s := s.shelfErr c 12 b br codeword (row.getD 0) true
      s.event (vfOf (corePdk c)) 0x02 0x510 (detailAt 0x10 (coreOff c) + detailAt 0x12 (row.getD 0))
    else
      let s := (s.bump F.DRW_SHELF_CE_COUNT c).trackRow c b br
      let s := s.shelfErr c 12 b br codeword (row.getD 0) false
      s.setPatrol c b { s.patrolOf c b with fix := some (br, (row.map (fun r => s.rowOf c r)).getD []) }

/-- The patrol runs on a powered shelf of a core that is not gated. -/
def State.patrolOn (s : State) (c : Nat) : Bool := s.shelfUp c && !(tget false s.sched.gated [c])

/-- PATROL_READ (R57) in an idle bank tick: arrival writes and the write-back go first (R50). -/
def execPatrolRead (core : Fin 128) (bank : Fin 32) (err : Option (Nat × Bool)) (s : State) :
    Host.Outcome State Fault Refusal :=
  let c := core.val
  let b := bank.val
  if s.patrolOn c = true ∧ s.idleBank c b = true ∧ (s.patrolOf c b).fix = none ∧
      (s.arrivalHeads c).any (fun a => bankOf a.row == b) = false then
    .next (s.untimed (corePdk c) (srcPatrol (coreOff c)) 1 [1, c, b] (fun s => s.patrolRead c b err))
  else .next s

/-- PATROL_FORCED (R57): no idle tick for 16,384 ticks; a conflict makes the core slip one clock for the patrol. -/
def execPatrolForced (core : Fin 128) (bank : Fin 32) (err : Option (Nat × Bool)) (s : State) :
    Host.Outcome State Fault Refusal :=
  let c := core.val
  let b := bank.val
  if s.patrolOn c = true ∧ 16384 ≤ (s.patrolOf c b).idle ∧ (s.usedBanks c).contains b = false then
    let s := if s.timedIn c b ∧ (tget (0, 0) s.sched.owed [c]).1 = 0 ∧ (s.slipOf c).isNone then
        { s with sched := { s.sched with owed := tset (0, 0) s.sched.owed [c] (1, 8) } }
      else s
    let s := s.setPatrol c b { s.patrolOf c b with idle := 0 }
    .next (s.untimed (corePdk c) (srcPatrol (coreOff c)) 1 [1, c, b] (fun s => s.patrolRead c b err))
  else .next s

/-- PATROL_WRITE_BACK (R58): the row that the patrol corrected is written back in an idle tick of its bank; a newer write has
cancelled it. The correction leaves the row's data as they read, so only the pending write-back changes. -/
def execPatrolWriteBack (core : Fin 128) (bank : Fin 32) (s : State) : Host.Outcome State Fault Refusal :=
  let c := core.val
  let b := bank.val
  if s.patrolOn c = true ∧ s.idleBank c b = true ∧ ((s.patrolOf c b).fix).isSome = true ∧
      (s.arrivalHeads c).any (fun a => bankOf a.row == b) = false then
    .next (s.untimed (corePdk c) (srcPatrol (coreOff c)) 1 [2, c, b] (fun s =>
      (s.setPatrol c b { s.patrolOf c b with fix := none }).useBank c b))
  else .next s

/-- A PF write of CE_LIMIT; 0 stores 1 (R76). -/
def execCeLimitWrite (core : Fin 128) (v : Nat) (s : State) : Host.Outcome State Fault Refusal :=
  .next (s.wr F.DRW_SHELF_CFG_CE_LIMIT core.val (max (v % 16) 1))

end Sys2Proof.Machine
end

