-- ==== Sys2Proof/Machine/Num.lean ====
section
/-! DEFINITION. Number formats and numeric behaviour (chapter 06): exact values, the formats, rounding, overflow and the
category of an output, pairs, the statistics merge, and MX scaling. -/

namespace Sys2Proof.Machine

/-- An exact floating value: NaN, an infinity (negative?), or m × 2^e. -/
inductive Fp where
  | nan
  | inf (neg : Bool)
  | fin (m : Int) (e : Int)
  deriving DecidableEq, Repr

/-- A floating format (R156): bits of exponent and mantissa, bias, and its special encodings: 0 infinity and NaN as IEEE,
1 as E4M3, 2 none. -/
structure FFmt where
  eb : Nat
  mb : Nat
  bias : Nat
  kind : Nat
  deriving DecidableEq, Repr

def fp32 : FFmt := ⟨8, 23, 127, 0⟩
def bf16 : FFmt := ⟨8, 7, 127, 0⟩
def fp16 : FFmt := ⟨5, 10, 15, 0⟩
def e5m2 : FFmt := ⟨5, 2, 15, 0⟩
def e4m3 : FFmt := ⟨4, 3, 7, 1⟩
def e3m2 : FFmt := ⟨3, 2, 3, 2⟩
def e2m3 : FFmt := ⟨2, 3, 1, 2⟩
def e2m1 : FFmt := ⟨2, 1, 1, 2⟩

def FFmt.bits (f : FFmt) : Nat := 1 + f.eb + f.mb

/-- Largest exponent, and largest finite magnitude as a multiple of 2^(emax − mb) (R156). -/
def FFmt.emax (f : FFmt) : Int := if f.kind = 0 then (2 ^ f.eb : Nat) - 2 - f.bias else (2 ^ f.eb : Nat) - 1 - f.bias
def FFmt.maxMant (f : FFmt) : Nat := if f.kind = 1 then 2 ^ (f.mb + 1) - 2 else 2 ^ (f.mb + 1) - 1
def FFmt.emin (f : FFmt) : Int := 1 - f.bias

/-- m × 2^k for a natural k, and m / 2^k rounded to an integer: to nearest even, or toward zero (R161, R162). -/
def shl (m : Int) (k : Nat) : Int := m * (2 ^ k : Nat)
def roundShift (rtz : Bool) (m : Int) (k : Nat) : Int :=
  let a := m.natAbs
  let q := a / 2 ^ k
  let r := a % 2 ^ k
  let up := !rtz && (decide (2 ^ k < 2 * r) || (2 * r == 2 ^ k && q % 2 == 1))
  let n : Nat := if up then q + 1 else q
  if m < 0 then -(n : Int) else n
/-- m × 2^e as a multiple of 2^q, rounded. -/
def atExp (rtz : Bool) (m e q : Int) : Int :=
  if q ≤ e then shl m (e - q).toNat else roundShift rtz m (q - e).toNat

/-- The exact value of an encoding (R156). -/
def FFmt.decode (f : FFmt) (b : Nat) : Fp :=
  let neg := bitsAt b (f.eb + f.mb) 1 = 1
  let x := bitsAt b f.mb f.eb
  let m := bitsAt b 0 f.mb
  if f.kind = 0 ∧ x = 2 ^ f.eb - 1 then (if m = 0 then .inf neg else .nan)
  else if f.kind = 1 ∧ x = 2 ^ f.eb - 1 ∧ m = 2 ^ f.mb - 1 then .nan
  else
    let v : Int := if x = 0 then m else (m + 2 ^ f.mb : Nat)
    let e : Int := (if x = 0 then 1 else (x : Int)) - f.bias - f.mb
    .fin (if neg then -v else v) e

/-- Canonical NaN, infinity and largest finite encodings. -/
def FFmt.nanBits (f : FFmt) : Nat :=
  if f.kind = 1 then 2 ^ (f.eb + f.mb) - 1 else (2 ^ f.eb - 1) * 2 ^ f.mb + 2 ^ (f.mb - 1)
def FFmt.infBits (f : FFmt) (neg : Bool) : Nat := b2n neg * 2 ^ (f.eb + f.mb) + (2 ^ f.eb - 1) * 2 ^ f.mb
def FFmt.maxBits (f : FFmt) (neg : Bool) : Nat :=
  b2n neg * 2 ^ (f.eb + f.mb) + ((f.emax + f.bias).toNat) * 2 ^ f.mb + (f.maxMant - 2 ^ f.mb)

/-- Encoding of n × 2^q with n at most mb + 1 bits wide and q at least emin − mb; zero is +0 (R164). -/
def FFmt.encode (f : FFmt) (n q : Int) : Nat :=
  let a := n.natAbs
  if a = 0 then 0
  else
    let (a, q) := if a = 2 ^ (f.mb + 1) then (2 ^ f.mb, q + 1) else (a, q)
    let s := b2n (decide (n < 0)) * 2 ^ (f.eb + f.mb)
    if a < 2 ^ f.mb then s + a
    else s + ((q + f.mb + f.bias).toNat) * 2 ^ f.mb + (a - 2 ^ f.mb)

/-- Writing a value to a floating format (R169, R170, R182): bits and category. `ieee` selects the IEEE overflow rows. -/
def FFmt.write (f : FFmt) (rtz ieee : Bool) (v : Fp) : Nat × NumCat :=
  match v with
  | .nan => (if f.kind = 2 then 0 else f.nanBits, .nan)
  | .inf neg =>
    if f.kind = 0 ∧ ieee then (f.infBits neg, .inf)
    else if f.kind = 1 ∧ ieee then (f.nanBits, .nan)
    else (f.maxBits neg, .sat)
  | .fin m e =>
    if m = 0 then (0, .plain)
    else
      let top : Int := (Nat.log2 m.natAbs : Nat) + e
      let q := max top f.emin - f.mb
      let n := atExp rtz m e q
      let neg := decide (m < 0)
      if q + f.mb > f.emax ∨ (q + f.mb = f.emax ∧ f.maxMant < n.natAbs) then
        (if f.kind = 0 ∧ ieee ∧ rtz = false then (f.infBits neg, .inf)
         else if f.kind = 1 ∧ ieee then (f.nanBits, .nan)
         else (f.maxBits neg, .sat))
      else if n = 0 then (0, .flush)
      else (f.encode n q, .plain)

/-- Writing a value to an integer format of `w` bits with lower limit `lo` (R158, R170): the value and the category. -/
def intWrite (rtz : Bool) (lo hi : Int) (v : Fp) : Int × NumCat :=
  match v with
  | .nan => (0, .nan)
  | .inf neg => (if neg then lo else hi, .sat)
  | .fin m e =>
    let n := atExp rtz m e 0
    if n < lo then (lo, .sat) else if hi < n then (hi, .sat) else (n, .plain)
def clampInt (lo hi x : Int) : Int × Bool := if x < lo then (lo, true) else if hi < x then (hi, true) else (x, false)
def int32Lo : Int := -(2 ^ 31)
def int32Hi : Int := 2 ^ 31 - 1

/-! ### Arithmetic -/

def Fp.neg : Fp → Fp
  | .nan => .nan
  | .inf s => .inf (!s)
  | .fin m e => .fin (-m) e
def Fp.isNeg : Fp → Bool
  | .inf s => s
  | .fin m _ => decide (m < 0)
  | .nan => false
def Fp.abs (v : Fp) : Fp := if v.isNeg then v.neg else v

/-- Exact sum and product; invalid operations give NaN (R167). -/
def Fp.add : Fp → Fp → Fp
  | .nan, _ => .nan
  | _, .nan => .nan
  | .inf a, .inf b => if a = b then .inf a else .nan
  | .inf a, _ => .inf a
  | _, .inf b => .inf b
  | .fin m e, .fin n f =>
    let q := min e f
    .fin (shl m (e - q).toNat + shl n (f - q).toNat) q
def Fp.mul : Fp → Fp → Fp
  | .nan, _ => .nan
  | _, .nan => .nan
  | .inf a, .inf b => .inf (a != b)
  | .inf a, .fin m _ => if m = 0 then .nan else .inf (a != decide (m < 0))
  | .fin m _, .inf b => if m = 0 then .nan else .inf (b != decide (m < 0))
  | .fin m e, .fin n f => .fin (m * n) (e + f)

/-- Rounding to FP32 under RNE and the IEEE rows, as a value and as bits with the category (R161, R170). -/
def toF32 (v : Fp) : Nat × NumCat := fp32.write false true v
def rne32 (v : Fp) : Fp := fp32.decode (toF32 v).1
def f32 (b : Nat) : Fp := fp32.decode b

/-- Order of values (R174): NaN is unordered. -/
def Fp.lt : Fp → Fp → Bool
  | .nan, _ => false
  | _, .nan => false
  | .inf a, .inf b => a && !b
  | .inf a, .fin _ _ => a
  | .fin _ _, .inf b => !b
  | .fin m e, .fin n f =>
    let q := min e f
    decide (shl m (e - q).toNat < shl n (f - q).toNat)
def Fp.isNan : Fp → Bool
  | .nan => true
  | _ => false
def Fp.isFin : Fp → Bool
  | .fin _ _ => true
  | _ => false
def Fp.isZero : Fp → Bool
  | .fin m _ => decide (m = 0)
  | _ => false
def Fp.eq (a b : Fp) : Bool := !a.isNan && !b.isNan && !a.lt b && !b.lt a
def Fp.cmp (cond : Nat) (a b : Fp) : Bool :=
  match cond with
  | 0 => a.eq b
  | 1 => !a.eq b
  | 2 => a.lt b
  | 3 => a.lt b || a.eq b
  | 4 => b.lt a
  | _ => b.lt a || a.eq b

/-- Maximum and minimum (R175). -/
def Fp.max (a b : Fp) : Fp := if a.isNan ∨ b.isNan then .nan else if a.lt b then b else a
def Fp.min (a b : Fp) : Fp := if a.isNan ∨ b.isNan then .nan else if b.lt a then b else a

/-- A quotient correctly rounded to FP32: enough quotient bits, with the remainder as a sticky bit. -/
def divNat (m : Int) (e : Int) (n : Nat) : Fp :=
  let k : Nat := 64 + Nat.log2 n
  let a := m.natAbs * 2 ^ k
  let q := 2 * (a / n) + (if a % n = 0 then 0 else 1)
  .fin (if m < 0 then -(q : Int) else q) (e - k - 1)
def Fp.divNat (v : Fp) (n : Nat) : Fp :=
  match v with
  | .fin m e => if n = 0 then .nan else Machine.divNat m e n
  | x => x

/-- Quotient of two values (R167). -/
def Fp.div (a b : Fp) : Fp :=
  match a, b with
  | .nan, _ => .nan
  | _, .nan => .nan
  | .inf _, .inf _ => .nan
  | .inf s, .fin n _ => .inf (s != decide (n < 0))
  | .fin _ _, .inf _ => .fin 0 0
  | .fin m e, .fin n f =>
    if n = 0 then (if m = 0 then .nan else .inf (decide (m < 0)))
    else
      match Machine.divNat (if n < 0 then -m else m) e n.natAbs with
      | .fin q g => .fin q (g - f)
      | x => x

/-- A value times 2^k. -/
def Fp.scale (v : Fp) (k : Int) : Fp :=
  match v with
  | .fin m e => .fin m (e + k)
  | x => x

/-- An integer as a value. -/
def Fp.ofInt (x : Int) : Fp := .fin x 0

/-! ### Pairs (R178 to R181, R236) -/

/-- A pair of FP32 values. -/
structure Pair where
  hi : Fp
  lo : Fp
  deriving DecidableEq, Repr

def pairZero : Pair := ⟨.fin 0 0, .fin 0 0⟩

/-- Special values of a pair (R180), else the pair given. -/
def pairSpecial (hi : Fp) (p : Pair) : Pair :=
  match hi with
  | .nan => ⟨.nan, .nan⟩
  | .inf s => ⟨.inf s, .fin 0 0⟩
  | .fin _ _ => p
/-- Normal form (R178). -/
def pnorm (h l : Fp) : Pair :=
  let s := rne32 (h.add l)
  pairSpecial s ⟨s, (h.add l).add s.neg⟩
/-- TwoSum accumulation of a term (R179, R180). -/
def twoSum (p : Pair) (t : Fp) : Pair :=
  let s := rne32 (p.hi.add t)
  pairSpecial s ⟨s, if p.lo.isFin then rne32 (p.lo.add ((p.hi.add t).add s.neg)) else p.lo⟩
/-- PADD (R236); a NaN in either part makes the sum NaN (R167). -/
def padd (a b : Pair) : Pair :=
  let s := if a.lo.isNan ∨ b.lo.isNan then .nan else rne32 (a.hi.add b.hi)
  match s with
  | .fin _ _ =>
    let e := (a.hi.add b.hi).add s.neg
    pnorm s (rne32 (e.add (rne32 (a.lo.add b.lo))))
  | x => pairSpecial x pairZero
/-- PMUL (R236). -/
def pmul (a : Pair) (b : Fp) : Pair :=
  let p := if a.lo.isNan then .nan else rne32 (a.hi.mul b)
  match p with
  | .fin _ _ =>
    let e := rne32 ((a.hi.mul b).add p.neg)
    pnorm p (rne32 (e.add (rne32 (a.lo.mul b))))
  | x => pairSpecial x pairZero
def pneg (a : Pair) : Pair := ⟨a.hi.neg, a.lo.neg⟩

/-- The statistics accumulator (R237): mean, M2 and count. -/
structure Welf where
  mean : Pair
  m2 : Pair
  count : Int
  deriving DecidableEq, Repr
def welf0 : Welf := ⟨pairZero, pairZero, 0⟩
/-- The merge of R237 and R277. -/
def wmerge (a b : Welf) : Welf :=
  if a.count = 0 then b
  else if b.count = 0 then a
  else
    let n := (clampInt int32Lo int32Hi (a.count + b.count)).1
    let fa := rne32 (Fp.ofInt a.count)
    let w := rne32 ((rne32 (Fp.ofInt b.count)).div (rne32 (Fp.ofInt n)))
    let d := padd b.mean (pneg a.mean)
    let q := rne32 (fa.mul w)
    ⟨padd a.mean (pmul d w), padd (padd a.m2 b.m2) (pmul (pmul d d.hi) q), n⟩

/-! ### MX scaling (R171 to R173, R240) -/

/-- Exponent of the largest finite value of an element format (R171), codes of R222: 3 E4M3, 4 E5M2, 5 E3M2, 6 E2M3,
7 E2M1, 11 MXINT8. -/
def mxEmax (code : Nat) : Int :=
  if code = 3 then 8 else if code = 4 then 15 else if code = 5 then 4 else if code = 11 then 0 else 2
/-- Largest value as mantissa and exponent (R156, R158). -/
def mxMax (code : Nat) : Int × Int :=
  if code = 3 then (7, 6) else if code = 4 then (7, 13) else if code = 5 then (7, 2) else if code = 6 then (15, -1)
  else if code = 7 then (3, 1) else (127, -6)

/-- Least integer t with a ≤ max × 2^t, for scale mode 1 (R171): a = m × 2^e. -/
def ceilLogRatio (m : Nat) (e : Int) (code : Nat) : Int :=
  let (n, f) := mxMax code
  let t : Int := (Nat.log2 m : Nat) + e - ((Nat.log2 n.natAbs : Nat) + f)
  -- a / max lies in (2^(t-1), 2^(t+1)); compare a with max × 2^(t-1), 2^t
  let le (k : Int) : Bool := !(Fp.lt (.fin n (f + k)) (.fin m e))
  if le (t - 1) then t - 1 else if le t then t else t + 1

/-- The scale exponent E of a block from its finite values (R171). -/
def mxExp (code mode : Nat) (vs : List Fp) : Int :=
  let amax := vs.foldl (fun (a : Fp) v => if v.isFin ∧ a.lt v.abs then v.abs else a) (.fin 0 0)
  match amax with
  | .fin m e =>
    if m = 0 then -127
    else
      let x : Int := if mode = 0 then (Nat.log2 m.natAbs : Nat) + e - mxEmax code else ceilLogRatio m.natAbs e code
      min (max x (-127)) 127
  | _ => -127

end Sys2Proof.Machine
end

