-- ==== Sys2Proof/Machine/Sfu.lean ====
section
/-! DEFINITION. The special functions (chapter 09): special inputs, exact points, symmetries, the small and large ends of TANH
and LOGI, and the flush. Any other native value, and every value of compatibility mode, is an opaque constant of Config
(R719, R267: log entry 11). -/

namespace Sys2Proof.Machine

/-- Opcodes of R253. -/
def sfSin : Nat := 0x40
def sfCos : Nat := 0x41
def sfExp2 : Nat := 0x42
def sfLog2 : Nat := 0x43
def sfRcp : Nat := 0x44
def sfRsq : Nat := 0x45
def sfTanh : Nat := 0x48
def sfLogi : Nat := 0x49

/-- Canonical FP32 bits: the canonical NaN, and +0 for a zero (R164, R166). -/
def canon32 (b : Nat) : Nat :=
  let b := b % 2 ^ 32
  if (f32 b).isNan then fp32.nanBits else if b = 2 ^ 31 then 0 else b

/-- The quadrant q of an argument of q / 4 turns, mod 4; none when 4 x is no integer (R257). -/
def quarterTurns (v : Fp) : Option Nat :=
  match v with
  | .fin m e =>
    if e + 2 < 0 ∧ m.natAbs % 2 ^ (-(e + 2)).toNat ≠ 0 then none
    else some ((atExp true m (e + 2) 0) % 4).toNat
  | _ => none

/-- The k of a value ±2^k. -/
def powerOfTwo (v : Fp) : Option Int :=
  match v with
  | .fin m e => if m ≠ 0 ∧ m.natAbs = 2 ^ Nat.log2 m.natAbs then some ((Nat.log2 m.natAbs : Nat) + e) else none
  | _ => none
/-- The integer that a value is. -/
def asInteger (v : Fp) : Option Int :=
  match v with
  | .fin m e => if e < 0 ∧ m.natAbs % 2 ^ (-e).toNat ≠ 0 then none else some (atExp true m e 0)
  | _ => none

/-- Least FP32 values whose exact tanh and logistic round to 1 (R261, R262). DEDUCED: 1 - tanh a ≤ 2^-25 from
a = ln(2^26 - 1) / 2 on, 1 - logistic x ≤ 2^-25 from x = ln(2^25 - 1) on. -/
def tanhOne : Fp := .fin 9448628 (-20)
def logiOne : Fp := .fin 9085219 (-19)

/-- The result that the spec states for an input (R256, R257, R261, R262), none where it states only limits. -/
def sfuStated (op b : Nat) : Option Fp :=
  let v := f32 b
  let neg := hasBit b 31
  let one (s : Bool) : Fp := .fin (if s then -1 else 1) 0
  let zero : Fp := .fin 0 0
  if v.isNan then some .nan
  else if op = sfSin ∨ op = sfCos then
    if v.isFin = false then some .nan
    else (quarterTurns v).map (fun q =>
      let q := if op = sfCos then (q + 1) % 4 else q
      if q = 1 then one false else if q = 3 then one true else zero)
  else if op = sfExp2 then
    match v with
    | .inf s => some (if s then zero else .inf false)
    | _ =>
      if v.cmp 5 (.fin 128 0) then some (.inf false)
      else (asInteger v).bind (fun k => if -149 ≤ k then some (.fin 1 k) else none)
  else if op = sfLog2 then
    if v.isZero then some (.inf true) else if neg then some .nan
    else match v with
      | .inf _ => some (.inf false)
      | _ => (powerOfTwo v).map (fun k => .fin k 0)
  else if op = sfRcp then
    if v.isZero then some (.inf neg)
    else match v with
      | .inf _ => some zero
      | _ =>
        if v.abs.lt (.fin 1 (-128)) then some (.inf neg)
        else (powerOfTwo v).bind (fun k => if k = -128 then none else some (.fin (if neg then -1 else 1) (-k)))
  else if op = sfRsq then
    if v.isZero then some (.inf neg) else if neg then some .nan
    else match v with
      | .inf _ => some zero
      | _ => (powerOfTwo v).bind (fun k => if k % 2 = 0 then some (.fin 1 (-(k / 2))) else none)
  else if op = sfTanh then
    match v with
    | .inf s => some (one s)
    | _ => if v.abs.lt (.fin 1 (-12)) then some v else if v.abs.cmp 5 tanhOne then some (one neg) else none
  else if op = sfLogi then
    match v with
    | .inf s => some (if s then zero else one false)
    | _ => if v.isZero then some (.fin 1 (-1)) else if v.cmp 5 logiOne then some (one false) else none
  else none

/-- The result of a native function before the flush, and whether its exact value is zero (R256, R257, R719). EXP2 of -150 and
below rounds to +0. -/
def sfuNativeBits (op b : Nat) : Nat × Bool :=
  match sfuStated op b with
  | some r => ((toF32 r).1, r.isZero)
  | none =>
    if op = sfExp2 ∧ (f32 b).cmp 3 (.fin (-150) 0) then (0, false)
    else if op = sfCos then (canon32 (Config.sfuNative op (b % 2 ^ 31)), false)
    else if op = sfSin ∨ op = sfTanh then
      let r := canon32 (Config.sfuNative op (b % 2 ^ 31))
      (if hasBit b 31 ∧ r ≠ 0 then canon32 (Nat.xor r (2 ^ 31)) else r, false)
    else (canon32 (Config.sfuNative op b), false)

/-- Whether the exact value of a function is zero in compatibility mode, where SIN and COS take radians (R267). -/
def compatZero (op b : Nat) : Bool :=
  if op = sfSin then (f32 b).isZero else if op = sfCos then false else (sfuStated op b).any Fp.isZero

/-- The result of a special-function instruction (R264 to R270): bits, category, and whether the flush of R265 acted. -/
def sfuResult (op imm b : Nat) : Nat × NumCat × Bool :=
  let compat := hasBit imm 0
  let (r, zero) := if compat then (canon32 (Config.sfuCompat op b), compatZero op b) else sfuNativeBits op b
  let v := f32 r
  let ft := bitsAt imm 1 5
  if v.isNan then (r, .nan, false)
  else if v.isFin = false then (r, .inf, false)
  else if v.isZero then (0, if zero then .plain else .flush, false)
  else if v.abs.lt (.fin 1 (-126 - (ft : Int))) then (0, .flush, true)
  else (r, .plain, false)

end Sys2Proof.Machine
end

