-- ==== Sys2Proof/Machine/Lanes.lean ====
section
/-! DEFINITION. The lanes of the vector engine (R216, R217, R229 to R245): input views, masks, element instructions and what a
group of an element program produces. -/

namespace Sys2Proof.Machine

/-! ### Elements and formats (R222) -/

/-- Floating format of a code of R222. -/
def vFloat (f : Nat) : Option FFmt :=
  if f = 1 ∨ f = 14 then some bf16 else if f = 2 then some fp16 else if f = 3 then some e4m3 else if f = 4 then some e5m2
  else if f = 5 then some e3m2 else if f = 6 then some e2m3 else if f = 7 then some e2m1 else none

/-- Bits of an element, and element `l` of a group's bytes (R155). -/
def vElemBits (f : Nat) : Nat := vFmtBytes f / 16
def groupElem (f : Nat) (bs : List Byte) (l : Nat) : Nat :=
  let pos := l * vElemBits f
  bitsAt (fieldAt bs (pos / 8) 4) (pos % 8) (vElemBits f)

/-- A narrow value widened to FP32, exactly: the sign of a zero is kept. Which NaN a NaN becomes is a free value: no rule gives
its sign and payload, which bitwise operations show (log entry 82). -/
def widen (f : FFmt) (b : Nat) : Nat :=
  let v := f.decode b
  if v.isNan then
    let x := Config.widenNan f.eb b
    x % 2 * 2 ^ 31 + 0x7F800001 + x / 2 % (2 ^ 23 - 1)
  else if v.isZero then bitsAt b (f.eb + f.mb) 1 * 2 ^ 31 else (toF32 v).1

/-- What an element puts into a register (R222). -/
def viewBits (f b : Nat) : Nat :=
  match vFloat f with
  | some x => widen x b
  | none =>
    if f = 9 then unsignedOf (signedAt b 8) 32
    else if f = 10 then unsignedOf (signedAt b 4) 32
    else if f = 11 then (toF32 (.fin (signedAt b 8) (-6))).1
    else b

/-- Numbers of the categories that a lane keeps. -/
def NumCat.num : NumCat → Nat
  | .plain => 0 | .sat => 1 | .flush => 2 | .nan => 3 | .inf => 4
def numCat (n : Nat) : NumCat :=
  if n = 1 then .sat else if n = 2 then .flush else if n = 3 then .nan else if n = 4 then .inf else .plain

/-! ### Lanes -/

def lane0 : Lane := ⟨List.replicate 32 0, 0, false, 0, false⟩
def laneAt (ls : List Lane) (l : Nat) : Lane := (ls[l]?).getD lane0
def Lane.reg (x : Lane) (r : Nat) : Nat := nth x.regs r
def Lane.fp (x : Lane) (r : Nat) : Fp := f32 (x.reg r)
def Lane.int (x : Lane) (r : Nat) : Int := signedAt (x.reg r) 32
def Lane.pair (x : Lane) (r : Nat) : Pair := ⟨x.fp r, x.fp (r + 1)⟩
/-- Whether mask bit m0 is set. -/
def Lane.on (x : Lane) : Bool := hasBit x.masks 0

/-- Writes a register; a write of OUT_REG records whether it is arithmetic and its category (R720). -/
def Lane.put (out : Nat) (rd v : Nat) (arith : Bool) (cat : NumCat) (x : Lane) : Lane :=
  let x := { x with regs := x.regs.set rd (v % 2 ^ 32) }
  if rd = out then { x with arith := arith, cat := cat.num } else x
def Lane.copy (out rd v : Nat) (x : Lane) : Lane := x.put out rd v false .plain
/-- Writes an exact floating result, rounded (R233). -/
def Lane.putF (out rd : Nat) (v : Fp) (x : Lane) : Lane := let r := toF32 v; x.put out rd r.1 true r.2
/-- Writes an integer that saturates at the INT32 range (R233). -/
def Lane.putI (out rd : Nat) (v : Int) (x : Lane) : Lane :=
  let r := clampInt int32Lo int32Hi v
  let x := x.put out rd (unsignedOf r.1 32) true .plain
  if r.2 then { x with satd := true } else x
/-- Writes a pair; a zero hi part is a flush when `exact` says that the exact result is not zero. -/
def Lane.putP (out rd : Nat) (p : Pair) (exact : Fp) (x : Lane) : Lane :=
  let h := toF32 p.hi
  let cat := if p.hi.isZero && exact.isFin && !exact.isZero then .flush else h.2
  (x.put out rd h.1 true cat).putF out (rd + 1) p.lo

/-- A statistics accumulator in registers rd to rd + 4 (R237). -/
def Lane.welf (x : Lane) (rd : Nat) : Welf := ⟨x.pair rd, x.pair (rd + 2), x.int (rd + 4)⟩
def Lane.putW (out rd : Nat) (w : Welf) (x : Lane) : Lane :=
  ((x.putP out rd w.mean .nan).putP out (rd + 2) w.m2 .nan).put out (rd + 4) (unsignedOf w.count 32) true .plain
def oneWelf (v : Fp) : Welf := ⟨⟨v, .fin 0 0⟩, pairZero, 1⟩
def welfSat (a b : Welf) : Bool := decide (int32Hi < a.count + b.count) || decide (a.count + b.count < int32Lo)

/-- Comparison of signed integers by condition (R232). -/
def icmp (cond : Nat) (a b : Int) : Bool := Fp.cmp cond (.fin a 0) (.fin b 0)

/-- A converted register value (R239): bits and category. -/
def cvt (imm b : Nat) : Nat × NumCat :=
  let t := imm % 16
  let rtz := hasBit imm 4
  let ieee := hasBit imm 5
  let lim : Int × Int := if t = 9 then (-128, 127) else if t = 10 then (-8, 7) else (int32Lo, int32Hi)
  if hasBit imm 6 then
    let v := signedAt b 32
    if t = 0 then ((fp32.write rtz ieee (.fin v 0)).1, .plain) else (unsignedOf (clampInt lim.1 lim.2 v).1 32, .plain)
  else if 8 ≤ t ∧ t ≤ 10 then (unsignedOf (intWrite rtz lim.1 lim.2 (f32 b)).1 32, .plain)
  else if t = 11 then ((toF32 (.fin (intWrite rtz (-127) 127 ((f32 b).scale 6)).1 (-6))).1, .plain)
  else
    let f := (vFloat t).getD fp32
    let r := f.write rtz ieee (f32 b)
    let v := toF32 (f.decode r.1)
    (v.1, if v.2 = .plain ∧ r.2 = .flush then .flush else v.2)

/-- The BF16 split of an FP32 value (R181). -/
def splitBf16 (v : Fp) : Pair :=
  match v with
  | .nan => ⟨.nan, .nan⟩
  | .inf s => ⟨.inf s, .fin 0 0⟩
  | x =>
    let hi := bf16.decode (bf16.write false false x).1
    ⟨hi, bf16.decode (bf16.write false false (x.add hi.neg)).1⟩

/-- An instruction that concerns its lane alone (R232), on an unmasked lane: group `j`, lane `l`. -/
def laneInsn (x out j l : Nat) (n : Lane) : Lane :=
  let op := iOp x
  let rd := iRd x
  let a := n.reg (iRa x)
  let b := n.reg (iRb x)
  let fa := f32 a
  let fb := f32 b
  let ia := signedAt a 32
  let ib := signedAt b 32
  let imm := iImm x
  let count := if hasBit imm 5 then imm % 32 else b % 32
  if op = 0x01 then n.putF out rd (fa.add fb)
  else if op = 0x02 then n.putF out rd (fa.add fb.neg)
  else if op = 0x03 then n.putF out rd (fa.mul fb)
  else if op = 0x04 then n.putF out rd ((fa.mul fb).add (n.fp (iRc x)))
  else if op = 0x05 then n.putF out rd (fa.max fb)
  else if op = 0x06 then n.putF out rd (fa.min fb)
  else if op = 0x07 then n.putF out rd fa.abs
  else if op = 0x08 then n.putF out rd fa.neg
  else if op = 0x09 then n.putF out rd (fa.scale (min (max ib (-400)) 400))
  else if op = 0x0A then
    { n with masks := if fa.cmp (imm % 8) fb then setBit n.masks (iMk x) else clrBit n.masks (iMk x) }
  else if op = 0x10 then n.putI out rd (ia + ib)
  else if op = 0x11 then n.putI out rd (ia - ib)
  else if op = 0x12 then n.putI out rd (ia * ib)
  else if op = 0x13 then n.putI out rd (max ia ib)
  else if op = 0x14 then n.putI out rd (min ia ib)
  else if op = 0x15 then
    { n with masks := if icmp (imm % 8) ia ib then setBit n.masks (iMk x) else clrBit n.masks (iMk x) }
  else if op = 0x16 then n.copy out rd (Nat.land a b)
  else if op = 0x17 then n.copy out rd (Nat.lor a b)
  else if op = 0x18 then n.copy out rd (Nat.xor a b)
  else if op = 0x19 then n.copy out rd (a * 2 ^ count)
  else if op = 0x1A then n.copy out rd (a / 2 ^ count)
  else if op = 0x1B then n.copy out rd (unsignedOf (ia / (2 ^ count : Nat)) 32)
  else if op = 0x20 then n.copy out rd a
  else if op = 0x21 then n.copy out rd imm
  else if op = 0x22 then n.copy out rd (if hasBit n.masks (iMk x) then a else b)
  else if op = 0x23 then n.put out rd l true .plain
  else if op = 0x24 then n.put out rd j true .plain
  else if op = 0x28 then let r := cvt imm a; n.put out rd r.1 true r.2
  else if op = 0x29 then n.putP out rd (splitBf16 fa) fa
  else if op = 0x34 then
    let w := n.welf rd
    let n := n.putW out rd (wmerge w (oneWelf fa))
    if welfSat w (oneWelf fa) then { n with satd := true } else n
  else if op = 0x38 then n.putP out rd (padd (n.pair (iRa x)) (n.pair (iRb x))) .nan
  else if op = 0x39 then n.putP out rd (padd (n.pair (iRa x)) ⟨fb, .fin 0 0⟩) .nan
  else if op = 0x3A then
    let p := n.pair (iRa x)
    n.putP out rd (pmul p fb) ((p.hi.add p.lo).mul fb)
  else if isSfu op then let r := sfuResult op imm a; n.put out rd r.1 true r.2.1
  else n

/-! ### A group in progress -/

/-- What a group works on: its lanes, the working store's bytes and poison, the carries of XSCAN, the four scale bytes, poison,
special-function flushes, lane-address faults and the first of them (lane, instruction, address). -/
structure Grp where
  lanes : List Lane
  ws : Mem
  wsPoison : Tbl Bool
  carries : List (Nat × Nat)
  scales : List Nat
  poison : Bool
  flushes : Nat
  faults : Nat
  fault : Option (Nat × Nat × Nat)
  deriving DecidableEq, Repr

/-- Changes every unmasked lane. -/
def Grp.each (g : Grp) (f : Nat → Lane → Lane) : Grp :=
  { g with lanes := (List.range 128).map (fun l => let n := laneAt g.lanes l; if n.on then f l n else n) }

/-- Combines neighbours of a list: one level of the tree of R234. -/
def treeLevel {α : Type} (f : α → α → α) : List α → List α
  | a :: b :: l => f a b :: treeLevel f l
  | l => l
def tree {α : Type} (f : α → α → α) (d : α) : Nat → List α → α
  | 0, l => l.head?.getD d
  | n + 1, l => tree f d n (treeLevel f l)

/-- The reductions of R234 on values with a mark of saturation. -/
def redOp (op : Nat) (a b : Fp × Bool) : Fp × Bool :=
  if op = 3 then
    match a.1, b.1 with
    | .fin m _, .fin n _ => let r := clampInt int32Lo int32Hi (m + n); (.fin r.1 0, a.2 || b.2 || r.2)
    | _, _ => (.fin 0 0, false)
  else if op = 0 then (rne32 (a.1.add b.1), false)
  else if op = 1 then (a.1.max b.1, false)
  else (a.1.min b.1, false)
def redId (op : Nat) : Fp × Bool := (if op = 1 then .inf true else if op = 2 then .inf false else .fin 0 0, false)
def redIn (op b : Nat) : Fp × Bool := (if op = 3 then .fin (signedAt b 32) 0 else f32 b, false)
/-- Writes the result of a reduction or scan. -/
def Lane.putRed (out rd op : Nat) (r : Fp × Bool) (x : Lane) : Lane :=
  if op = 3 then
    let x := x.put out rd (unsignedOf (match r.1 with | .fin m _ => m | _ => 0) 32) true .plain
    if r.2 then { x with satd := true } else x
  else x.putF out rd r.1
/-- Bits of such a result. -/
def redBits (op : Nat) (r : Fp × Bool) : Nat :=
  if op = 3 then unsignedOf (match r.1 with | .fin m _ => m | _ => 0) 32 else (toF32 r.1).1

/-- One step of the scan: every lane l ≥ d takes x(l − d) + x(l) (R235). -/
def scanStep (op d : Nat) (xs : List (Bool × (Fp × Bool))) : List (Bool × (Fp × Bool)) :=
  (List.range xs.length).map (fun l =>
    let b := (xs[l]?).getD (false, redId op)
    if l < d then b
    else
      let a := (xs[l - d]?).getD (false, redId op)
      (a.1 || b.1, if b.1 then b.2 else redOp op a.2 b.2))

/-- XSCAN (R235); `k` is the instruction's index, `j` its group. -/
def Grp.xscan (g : Grp) (x out j k : Nat) : Grp :=
  let imm := iImm x
  let op := imm % 4
  let fl (n : Lane) : Bool := hasBit imm 4 && n.on && hasBit n.masks (iMk x)
  let start := g.lanes.map (fun n => (fl n, if n.on then redIn op (n.reg (iRa x)) else redId op))
  let incl := [1, 2, 4, 8, 16, 32, 64].foldl (fun xs d => scanStep op d xs) start
  let at_ (l : Nat) : Bool × (Fp × Bool) := (incl[l]?).getD (false, redId op)
  let c := if j = 0 then redId op else ((g.carries.find? (fun e => e.1 == k)).map (fun e => redIn op e.2)).getD (redId op)
  let carry := hasBit imm 3
  let res (l : Nat) (v : Fp × Bool) : Fp × Bool := if carry && !(at_ l).1 then redOp op c v else v
  let out_ (l : Nat) : Fp × Bool :=
    res l (if hasBit imm 2 then
      (if l = 0 || ((start[l]?).map (fun e => e.1)).getD false then redId op else (at_ (l - 1)).2)
    else (at_ l).2)
  let g := g.each (fun l n => n.putRed out (iRd x) op (out_ l))
  if carry then
    { g with carries := (k, redBits op (res 127 (at_ 127).2)) :: g.carries.filter (fun e => e.1 != k) }
  else g

/-- The scale byte of a block's exponent, 0xFF for a block with a NaN (R160, R240). -/
def scaleByte : Option Int → Nat
  | none => 255
  | some k => (k + 127).toNat

/-- QSCL (R240): the scale byte and the lanes of each block. -/
def Grp.qscl (g : Grp) (x out : Nat) : Grp :=
  let imm := iImm x
  let vals (b : Nat) : List Fp :=
    ((g.lanes.drop (32 * b)).take 32).filterMap (fun n => if n.on then some (n.fp (iRa x)) else none)
  let exps : List (Option Int) := (List.range 4).map (fun b =>
    if (vals b).any Fp.isNan then none else some (mxExp (imm % 16) (bitsAt imm 4 1) (vals b)))
  let g := { g with scales := exps.map scaleByte }
  g.each (fun l n => match (exps[l / 32]?).getD none with
    | none => n.putF out (iRd x) (.fin 0 0)
    | some k => n.putF out (iRd x) ((n.fp (iRa x)).scale (-k)))

/-- LDC and STC of one lane (R245, R247): `c` is the core, `k` the instruction's index. -/
def Grp.access (g : Grp) (x out c k l : Nat) : Grp :=
  let n := laneAt g.lanes l
  let a := unsignedOf (n.int (iRa x) + signedAt (iImm x) 32) 32
  if n.on = false then g
  else if a % 4 ≠ 0 ∨ 2044 < a then
    { g with faults := g.faults + 1, fault := g.fault.orElse (fun _ => some (l, k, a)) }
  else
    let o := 2048 * l + a
    let line := [c, o / 512]
    if iOp x = 0x50 then
      let v := leNat (mread g.ws (wsAddr c o) 4)
      { g with
        lanes := g.lanes.set l (n.copy out (iRd x) v)
        poison := g.poison || tget false g.wsPoison line }
    else
      { g with
        ws := mwrite g.ws (wsAddr c o) (leBytes (n.reg (iRb x)) 4)
        wsPoison := if g.poison then tset false g.wsPoison line true else g.wsPoison }

/-- One element instruction on a group (R232): `k` is its index in the program. -/
def Grp.insn (g : Grp) (c x out j k : Nat) : Grp :=
  let op := iOp x
  if iG0 x = true ∧ j ≠ 0 then g
  else if op = 0x2A then g.qscl x out
  else if op = 0x30 then
    let o := iImm x % 4
    let r := tree (redOp o) (redId o) 7 (g.lanes.map (fun n => if n.on then redIn o (n.reg (iRa x)) else redId o))
    g.each (fun _ n => n.putRed out (iRd x) o r)
  else if op = 0x31 then g.xscan x out j k
  else if op = 0x32 then
    let v := (laneAt g.lanes (iImm x % 128)).reg (iRa x)
    g.each (fun _ n => n.copy out (iRd x) v)
  else if op = 0x33 then
    match g.lanes.find? Lane.on with
    | none => g
    | some low =>
      let r := tree wmerge welf0 7 (g.lanes.map (fun n => if n.on then oneWelf (n.fp (iRa x)) else welf0))
      let w := low.welf (iRd x)
      g.each (fun _ n =>
        let n := n.putW out (iRd x) (wmerge w r)
        if welfSat w r then { n with satd := true } else n)
  else if op = 0x50 ∨ op = 0x51 then (List.range 128).foldl (fun g l => g.access x out c k l) g
  else
    let fl := if isSfu op then (g.lanes.filter (fun n => n.on && (sfuResult op (iImm x) (n.reg (iRa x))).2.2)).length else 0
    { g.each (laneInsn x out j) with flushes := g.flushes + fl }

/-! ### Outputs (R222, R226, R228, R720) -/

/-- What a lane writes from OUT_REG in format `f`: hi and lo bits and the category. -/
def Lane.output (x : Lane) (f out : Nat) (rtz ieee : Bool) : Nat × Nat × NumCat :=
  if x.on = false then (0, 0, .plain)
  else
    let b := x.reg out
    let sat (r : Nat × Nat × NumCat) : Nat × Nat × NumCat :=
      if x.satd && r.2.2 != .nan && r.2.2 != .inf then (r.1, r.2.1, .sat) else r
    if f = 12 then (b % 256, 0, .plain)
    else sat (
      if f = 0 ∨ f = 8 then
        let cat := if x.arith then numCat x.cat else .plain
        (b, 0, if f = 8 ∧ cat = .flush then .plain else cat)
      else if f = 9 ∨ f = 10 then
        let r := if f = 9 then clampInt (-128) 127 (signedAt b 32) else clampInt (-8) 7 (signedAt b 32)
        (unsignedOf r.1 (vElemBits f), 0, if r.2 then .sat else .plain)
      else if f = 11 then
        let r := intWrite rtz (-127) 127 ((f32 b).scale 6)
        (unsignedOf r.1 8, 0, r.2)
      else if f = 13 then
        let p := pnorm (f32 b) (x.fp (out + 1))
        let h := toF32 p.hi
        (h.1, (toF32 p.lo).1, h.2)
      else
        match vFloat f with
        | none => (0, 0, .plain)
        | some w =>
          let h := w.write rtz ieee (f32 b)
          (h.1, if f = 14 then (w.write rtz ieee (x.fp (out + 1))).1 else 0, h.2))

/-- Elements of `w` bits packed in lane order (R155). -/
def packElems (w : Nat) (l : List Nat) : List Byte := leBytes (l.foldr (fun v acc => v % 2 ^ w + 2 ^ w * acc) 0) (16 * w)

/-- The outputs of all lanes. -/
def groupOutput (cfg out : Nat) (lanes : List Lane) (scales : List Nat) (poison : Bool) : GroupOut :=
  let f := cFmtD cfg
  let l := lanes.map (fun n => n.output f out (cRtz cfg) (cIeee cfg))
  ⟨packElems (vElemBits f) (l.map (fun r => r.1)), if vPair f then packElems (vElemBits f) (l.map (fun r => r.2.1)) else [],
    l.map (fun r => r.2.2.num), scales, poison⟩

/-! ### Inputs -/

/-- Tags of an element program's reads: 8 q + k, with k 0 for source A, 2 for source B, one more for a lo row; q is the row of a
shelf source and the group of a tray or tile-buffer row. -/
def Elem.bytesOf (e : Elem) (k q0 n : Nat) : List Byte :=
  (List.range n).flatMap (fun i => ((e.got.find? (fun g => g.tag == 8 * (q0 + i) + k)).map (fun g => g.bytes)).getD [])

/-- Bytes that a source presents to group `j` (R223, R224). -/
def Elem.source (e : Elem) (k kind f j : Nat) (fixed : Bool) : List Byte :=
  let b := vFmtBytes f
  if kind = 0 then []
  else if kind = 1 then
    let j := if fixed then 0 else j
    let q := j * b / 512
    ((e.bytesOf k q ((j * b + b - 1) / 512 + 1 - q)).drop (j * b - 512 * q)).take b
  else e.bytesOf k j 1

/-- The input views and m0 of a lane (R217, R229): stored bits of its elements of A, A lo, B, B lo. -/
def Elem.load (e : Elem) (j l : Nat) (src : List (List Byte)) (x : Lane) : Lane :=
  let c := e.cfg
  let bits (i f : Nat) : Nat := groupElem f ((src[i]?).getD []) l
  let fa := cFmtA c
  let fb := cFmtB c
  let b := bits 2 fb
  let blo := if vPair fb then bits 3 fb else 0
  let m0 :=
    match cMsk c with
    | 0 => true
    | 1 => decide (l < cLanes c)
    | 2 => decide (j + 1 < e.groups) || decide (l < cLanes c)
    | _ => b != 0 || blo != 0
  let out := eOut e.word
  let x := ((x.copy out 28 (if cKindA c = 0 then 0 else viewBits fa (bits 0 fa))).copy out 29
    (if cKindA c != 0 && vPair fa then viewBits fa (bits 1 fa) else 0)).copy out 30
    (if cKindB c = 0 then 0 else viewBits fb b)
  let x := x.copy out 31 (if cKindB c != 0 && vPair fb then viewBits fb blo else 0)
  { x with masks := if m0 then setBit x.masks 0 else clrBit x.masks 0, satd := false }

/-- Group `j` of a program whose rows have been read (R216): the program with the group's outcome, and the group. -/
def Elem.run (e : Elem) (c j : Nat) (ws : Mem) (wsPoison : Tbl Bool) : Elem × Grp :=
  let cfg := e.cfg
  let src := [e.source 0 (cKindA cfg) (cFmtA cfg) j false,
    if vPair (cFmtA cfg) then e.source 1 (cKindA cfg) (cFmtA cfg) j false else [],
    e.source 2 (cKindB cfg) (cFmtB cfg) j (cFixedB cfg),
    if vPair (cFmtB cfg) then e.source 3 (cKindB cfg) (cFmtB cfg) j (cFixedB cfg) else []]
  let lanes := (List.range 128).map (fun l => e.load j l src (laneAt e.lanes l))
  let g0 : Grp := ⟨lanes, ws, wsPoison, e.carries, [], e.poison || e.got.any (fun x => x.poison), 0, 0, none⟩
  let g := (List.range (eN e.word)).foldl (fun g k => g.insn c (elemInsn e.body k) (eOut e.word) j k) g0
  ({ e with
      lanes := g.lanes
      carries := g.carries
      poison := g.poison
      got := e.got.filter (fun x => (cFixedB cfg && decide (2 ≤ x.tag % 8)) ||
        decide ((j + 1) * vFmtBytes (if x.tag % 8 < 2 then cFmtA cfg else cFmtB cfg) ≤ 512 * (x.tag / 8) + 511))
      outs := e.outs ++ [groupOutput cfg (eOut e.word) g.lanes g.scales g.poison] }, g)

end Sys2Proof.Machine
end

