-- ==== Sys2Proof/Machine/Matrix.lean ====
section
/-! DEFINITION. The matrix engine (chapter 07): read placement, accumulation, row checks and the tray claim. -/

namespace Sys2Proof.Machine

/-! ### Read placement (R192 to R198) -/

/-- Twice the k-steps that the array takes per tick (R198). -/
def tRate2 (w : Nat) : Nat := if tClass w = 4 then 4 else if tClass w = 8 then 2 else 1
/-- Rows of a span of an operand of format `f` (R194). -/
def mxSpanRows (f : Nat) : Nat := mxFmtBits f * 4
/-- Place of element row `q` and of scale row `z` in an operand's stream order (R195). -/
def elemPos (f q : Nat) : Nat :=
  if mxScaled f then q + q / mxSpanRows f + (if q % mxSpanRows f = 0 then 0 else 1) else q
def scalePos (f z : Nat) : Nat := z * mxSpanRows f + z + 1

/-- Tags of a tile's reads: element rows of operand `x` (0 A, 1 B) in pass `p`, scale rows, the bias row. -/
def tagElem (x p q : Nat) : Nat := 4 * x + p + 16 * q
def tagScale (x z : Nat) : Nat := 4 * x + 3 + 16 * z
def tagBias : Nat := 8

/-- In pair mode, whether operand `x` gives its lo array in pass `p` (R197). -/
def passLo (x p : Nat) : Bool := if x = 0 then p = 0 else p = 1

/-- Reads of operand `x`: offset from the issue tick, tag, place (R198). -/
def operandReads (w x : Nat) : List (Nat × Nat × Place) :=
  let f := if x = 0 then tFmtA w else tFmtB w
  let src := rowField (if x = 0 then tSrcA w else tSrcB w)
  let k := tK w
  let rows := elemRows (if f = 12 then 10 else f) k
  let off (q : Nat) : Nat := 64 * q / (mxFmtBits f * tRate2 w)
  if f = 12 then
    (List.range 3).flatMap (fun p => (List.range rows).map (fun q =>
      (2 * k * p + off q, tagElem x p q, match src with
        | .run r => Place.row (r + (if passLo x p then rows else 0) + q)
        | .drw d => .drawer d)))
  else
    (List.range rows).map (fun q => (off q, tagElem x 0 q, src.place (elemPos f q))) ++
      (if mxScaled f then (List.range (spansOf k)).map (fun z =>
        (1 + z * (if tClass w = 4 then 64 else 128), tagScale x z, src.place (scalePos f z))) else [])

/-- All reads of a tile, in the order of their ticks, A before B before the bias. -/
def tileReads (w : Nat) : List (Nat × Nat × Place) :=
  operandReads w 0 ++ operandReads w 1 ++
    (if tInit w = 1 then [(2, tagBias, (rowField (tBias w)).place 0)] else [])

/-- The error that read `k` of an operation meets. -/
def errOf (errs : List ShelfErr) (k : Nat) : Option (Nat × Bool) :=
  (errs.find? (fun e => e.read == k)).map (fun e => (e.codeword % 16, e.uncorr))

/-- The reads of an operation issued in operation tick `i`, with the errors they meet. -/
def placeReads (i : Nat) (l : List (Nat × Nat × Place)) (errs : List ShelfErr) : List TRead :=
  (List.range l.length).filterMap (fun k => (l[k]?).map (fun x => ⟨i + x.1, x.2.1, x.2.2, errOf errs k⟩))

/-- MXE_STAT follows the tiles of a core. -/
def State.syncMxe (s : State) (c : Nat) : State :=
  let n := s.opTick c
  let tiles := s.sched.ops.filterMap (fun o => match o.kind with
    | .tile t => if o.core = c then some t else none
    | _ => none)
  let s := s.wr F.MXE_STAT_STREAMING c (b2n (decide (n < tget 0 s.sched.busy [c, stME]) || decide (0 < s.outstanding c stAE)))
  let s := s.wr F.MXE_STAT_DRAINING c (b2n (tiles.any (fun t => decide (t.issue + tStream t.word ≤ n))))
  s.wr F.MXE_STAT_APP_BUF c ((List.range 4).foldl (fun v m => v + s.appHeld c m * 4 ^ m) 0)

/-- MATRIX_TILE (R188, R198, R203): the engine is occupied for S ticks, and the tile claims at i + S + 136. -/
def execMatrixTile (a : At) (errs : List ShelfErr) (s : State) : Host.Outcome State Fault Refusal :=
  .next (s.issueAs opcTile a (fun x s =>
    let w := x.w
    let i := s.opTick x.c
    let n := tStream w
    let id := s.sched.nextOp
    let s := s.addOp x.c x.side x.st x.pos 0 none
      (.tile ⟨w, i, i + n + 136, s.rd F.MXE_PCFG_CHK_T x.p, placeReads i (tileReads w) errs, []⟩)
    let s : State := { s with sched := { s.sched with busy := tset 0 s.sched.busy [x.c, stME] (i + n) } }
    ((s.addAct x.c id i (i + n) (tWeight w)).addAct x.c id (i + n) (i + n + 136) 8).syncMxe x.c))

/-! ### Operands -/

/-- Rows that a tile has read, joined in order: the element stream of an operand in a pass (R192). -/
def Tile.row (t : Tile) (tag : Nat) : List Byte := ((t.got.find? (fun g => g.tag == tag)).map (fun g => g.bytes)).getD []
def Tile.stream (t : Tile) (x p : Nat) : List Byte :=
  let f := if x = 0 then tFmtA t.word else tFmtB t.word
  (List.range (elemRows (if f = 12 then 10 else f) (tK t.word))).flatMap (fun q => t.row (tagElem x p q))

/-- Value of an element by format code (R190). -/
def mxValue (f b : Nat) : Fp :=
  if f = 0 ∨ f = 2 then e4m3.decode b
  else if f = 1 ∨ f = 3 then e5m2.decode b
  else if f = 4 then e3m2.decode b
  else if f = 5 then e2m3.decode b
  else if f = 6 then e2m1.decode b
  else if f = 7 then .fin (signedAt b 8) (-6)
  else if f = 8 then .fin (signedAt b 8) 0
  else if f = 9 then .fin (signedAt b 4) 0
  else if f = 11 then fp16.decode b
  else bf16.decode b

/-- Element (line m, step u) of an operand stream (R155, R192). -/
def streamElem (f : Nat) (bs : List Byte) (m u : Nat) : Fp :=
  let pos := (u * 128 + m) * mxFmtBits f
  mxValue f (bitsAt (fieldAt bs (pos / 8) 3) (pos % 8) (mxFmtBits f))

/-- Scale of element (m, u): 2^(scale − 127), NaN for 0xFF (R157, R194). -/
def Tile.scale (t : Tile) (x m u : Nat) : Fp :=
  let f := if x = 0 then tFmtA t.word else tFmtB t.word
  if mxScaled f then
    let b := fieldAt (t.row (tagScale x (u / 128))) (128 * (u % 128 / 32) + m) 1
    if b = 255 then .nan else .fin 1 ((b : Int) - 127)
  else .fin 1 0

/-- The elements of an operand line with their scales, pass by pass: a list over k of each pass. -/
def Tile.line (t : Tile) (x p m : Nat) : List Fp :=
  let f := if x = 0 then tFmtA t.word else tFmtB t.word
  let bs := t.stream x p
  (List.range (tK t.word)).map (fun u => (streamElem f bs m u).mul (t.scale x m u))

/-- Initial value of column `n` (R196, R200). -/
def Tile.init (t : Tile) (n : Nat) : Fp :=
  if tInit t.word = 1 then
    let b := fieldAt (t.row tagBias) (4 * n) 4
    if tInt t.word then .fin (signedAt b 32) 0 else f32 b
  else .fin 0 0

/-! ### Accumulation (R176, R177, R201) -/

/-- What an accumulator wrote: hi and lo bits, category, whether it clamped, and the exact value written. -/
structure Elt where
  hi : Nat
  lo : Nat
  cat : NumCat
  clamped : Bool
  value : Fp
  deriving DecidableEq, Repr

/-- One-product and two-product FP32 steps: the accumulator and the exact sum of the last step. -/
def accOne (init : Fp) (ps : List Fp) : Fp × Fp :=
  ps.foldl (fun a p => let x := a.1.add p; (rne32 x, x)) (init, init)
def accTwo : Fp × Fp → List Fp → Fp × Fp
  | a, p :: q :: ps => let x := (a.1.add p).add q; accTwo (rne32 x, x) ps
  | a, [p] => let x := a.1.add p; (rne32 x, x)
  | a, [] => a
/-- INT32 steps with their clamp. -/
def accInt (init : Int) (ps : List Int) : Int × Bool :=
  ps.foldl (fun a p => let (v, c) := clampInt int32Lo int32Hi (a.1 + p); (v, a.2 || c)) (init, false)
def Fp.toInt : Fp → Int
  | .fin m e => atExp true m e 0
  | _ => 0

/-- Products of a row of A and a column of B in order of k, all passes (R200, R201). -/
def products : List (List Fp) → List (List Fp) → List Fp
  | a :: as, b :: bs => (a.zip b).map (fun x => x.1.mul x.2) ++ products as bs
  | _, _ => []

def Tile.element (t : Tile) (init : Fp) (ps : List Fp) : Elt :=
  if tInt t.word then
    let (v, c) := accInt init.toInt (ps.map Fp.toInt)
    ⟨unsignedOf v 32, 0, if c then .sat else .plain, c, .fin v 0⟩
  else if tPair t.word then
    let p := ps.foldl twoSum ⟨init, .fin 0 0⟩
    let q := pnorm p.hi p.lo
    let h := toF32 (if p.hi.isFin then p.hi.add p.lo else p.hi)
    ⟨h.1, (toF32 q.lo).1, h.2, false, if q.hi.isFin then q.hi.add q.lo else q.hi⟩
  else
    let r := if tFmtA t.word = 6 ∧ tFmtB t.word = 6 then accTwo (init, init) ps else accOne init ps
    let h := toF32 r.2
    ⟨h.1, 0, h.2, false, f32 h.1⟩

/-- Passes of a tile. -/
def tPasses (w : Nat) : List Nat := if tPair w then [0, 1, 2] else [0]

/-! ### Row checks (R208 to R213) -/

/-- The outcome of a row's check: compared and passed, failed with the exact |s − r| and B, or not compared. -/
inductive RowCheck where
  | pass
  | fail (diff bound : Fp)
  | skip
  deriving DecidableEq, Repr

/-- An upset turns bits of an element written: the value that the row then holds. -/
def Elt.upset (int pair : Bool) (e : Elt) (bits : Nat) : Elt :=
  let hi := Nat.xor e.hi (bits % 2 ^ 32)
  let v := if int then .fin (signedAt hi 32) 0 else if pair then (f32 hi).add (f32 e.lo) else f32 hi
  { e with hi := hi, value := v }

/-- The check of a row: its elements as written, initial values, row of A (passes in turn) and columns of B. -/
def rowCheck (t : Tile) (edge : Bool) (outs : List Elt) (inits : List Fp) (as : List (List Fp)) (bs : List (List (List Fp))) :
    RowCheck :=
  let fins := as.all (fun l => l.all Fp.isFin) && bs.all (fun p => p.all (fun l => l.all Fp.isFin)) && inits.all Fp.isFin &&
    outs.all (fun e => e.value.isFin)
  if fins = false ∨ outs.any (fun e => e.clamped) = true then .skip
  else
    let sum (l : List Fp) : Fp := l.foldl Fp.add (.fin 0 0)
    let s := sum (outs.map (fun e => e.value))
    let ps := bs.map (fun cols => products as cols)
    let r := (sum inits).add (sum (ps.map sum))
    let d := (s.add r.neg).abs
    if tInt t.word then (if d.isZero then .pass else .fail d (.fin 0 0))
    else
      let b := (sum (inits.map Fp.abs)).add (sum (ps.map (fun l => sum (l.map Fp.abs))))
      let lim := b.scale (-(t.chkT : Int))
      let near := !(b.scale (-40)).lt ((d.add lim.neg).abs)
      if near ∧ b.isZero = false then (if edge then .fail d b else .pass)
      else if lim.lt d then .fail d b else .pass

/-- floor(log2(d / b)) as a signed 8-bit value (MXE_CHK_ERR0). -/
def excessLog2 (d b : Fp) : Nat :=
  match d, b with
  | .fin m e, .fin n f =>
    if m = 0 ∨ n = 0 then 0
    else
      let k : Int := (Nat.log2 m.natAbs : Nat) + e - ((Nat.log2 n.natAbs : Nat) + f)
      let k := if Fp.lt (.fin m.natAbs e) (.fin n.natAbs (f + k)) then k - 1 else k
      unsignedOf (min (max k (-128)) 127) 8
  | _, _ => 0

/-- A computed tile: its elements by row and the checks of its rows. -/
structure TileOut where
  rows : List (List Elt)
  checks : List RowCheck
  deriving DecidableEq, Repr

def Tile.poisoned (t : Tile) : Bool := t.got.any (fun g => g.poison)

/-- The tile's result with the upsets that strike it (element 128 m + n, bits turned); `seed` numbers the free outcome of a
row at the threshold. -/
def Tile.compute (t : Tile) (upsets : List (Nat × Nat)) (seed : Nat) : TileOut :=
  let inits := (List.range 128).map t.init
  let cols := (List.range 128).map (fun n => (tPasses t.word).map (fun p => t.line 1 p n))
  let rowsA := (List.range 128).map (fun m => (tPasses t.word).map (fun p => t.line 0 p m))
  let rows := (List.range 128).map (fun m =>
    let as := (rowsA[m]?).getD []
    (List.range 128).map (fun n =>
      let e := t.element ((inits[n]?).getD (.fin 0 0)) (products as ((cols[n]?).getD []))
      match upsets.find? (fun u => u.1 == 128 * m + n) with
      | some u => e.upset (tInt t.word) (tPair t.word) u.2
      | none => e))
  ⟨rows, (List.range 128).map (fun m =>
    if t.poisoned then .skip
    else rowCheck t (Config.rowCheckEdge (seed + m)) ((rows[m]?).getD []) inits ((rowsA[m]?).getD []) cols)⟩

def RowCheck.failed : RowCheck → Bool
  | .fail _ _ => true
  | _ => false

/-- What the checks leave in counters, record and schedule (R211, R213); `append` for OUT 1. -/
def State.tileChecks (s : State) (o : Op) (t : Tile) (r : TileOut) : State :=
  let c := o.core
  let fails := (List.range 128).filter (fun m => ((r.checks[m]?).map RowCheck.failed).getD false)
  let s := s.bump F.MXE_CHK_SKIP_COUNT c 0 (r.checks.filter (fun x => x == .skip)).length
  match fails with
  | [] => s
  | m :: _ =>
    let s := s.bump F.MXE_CHK_FAIL_COUNT c 0 fails.length
    let s :=
      if s.rd F.MXE_CHK_ERR0_VALID c = 1 then s
      else
        let ex := match r.checks[m]? with
          | some (.fail d b) => if tInt t.word then 0 else excessLog2 d b
          | _ => 0
        let s := (s.wr F.MXE_CHK_ERR0_VALID c 1).wr F.MXE_CHK_ERR0_INTEGER c (b2n (tInt t.word))
        let s := (s.wr F.MXE_CHK_ERR0_PAIR c (b2n (tPair t.word))).wr F.MXE_CHK_ERR0_APPEND c (b2n (tOut t.word = 1))
        let s := (s.wr F.MXE_CHK_ERR0_ROW c m).wr F.MXE_CHK_ERR0_EXCESS_LOG2 c ex
        let s := s.wr F.MXE_CHK_ERR0_POSITION c o.position
        (s.wr F.MXE_CHK_ERR1_TICK c (s.tickOf c)).wr F.MXE_CHK_ERR2_TIME c s.now
    (s.deviceError 4 false (s.phys c) 0 0x520 (corePdk c)).abort (corePdk c) 0x520

/-! ### The tray (R71 to R73) -/

def trayAddr (c k : Nat) : Nat := c * 0x40000 + k * 0x10000

/-- Whether `n` slots from the tail on are free in this operation tick. -/
def State.trayFree (s : State) (c n : Nat) : Bool :=
  decide (s.rd F.DRW_TRAY_FILL c + n ≤ 4) &&
    (List.range n).all (fun k => decide (tget 0 s.shelf.trayAt [c, (s.rd F.DRW_TRAY_TAIL c + k) % 4] ≤ s.opTick c))

/-- A claimed slot: its bytes, flags, and the tick from which it is readable. -/
def State.trayPut (s : State) (c : Nat) (bs : List Byte) (poison pair : Bool) : State :=
  let k := s.rd F.DRW_TRAY_TAIL c
  let s : State := { s with shelf := { s.shelf with
    tray := mwrite s.shelf.tray (trayAddr c k) bs
    trayAt := tset 0 s.shelf.trayAt [c, k] (s.opTick c + 8) } }
  let put (f : Fld) (b : Bool) (s : State) : State := s.wr f c (if b then setBit (s.rd f c) k else clrBit (s.rd f c) k)
  let s := put F.DRW_TRAY_READY false (put F.DRW_TRAY_PAIR pair (put F.DRW_TRAY_POISON poison s))
  (s.wr F.DRW_TRAY_TAIL c ((k + 1) % 4)).wr F.DRW_TRAY_FILL c (s.rd F.DRW_TRAY_FILL c + 1)

/-- Bytes of a tray slot: element (m, n) at 4 × (128 m + n) (R203). -/
def slotBytes (rows : List (List Elt)) (f : Elt → Nat) : List Byte := rows.flatMap (fun l => l.flatMap (fun e => leBytes (f e) 4))

/-- The tile of a core that claims in its present operation tick. -/
def State.claimDue (s : State) (c : Nat) : Option (Op × Tile) :=
  s.sched.ops.findSome? (fun o => match o.kind with
    | .tile t => if o.core = c ∧ tOut t.word = 0 ∧ t.claim ≤ s.opTick c then some (o, t) else none
    | _ => none)

/-- TILE_CLAIM (R203, R213): the finished tile claims its slot or slots, hi first, with its row checks complete. -/
def execTileClaim (core : Fin 128) (upsets : List (Nat × Nat)) (s : State) : Host.Outcome State Fault Refusal :=
  let c := core.val
  match s.claimDue c with
  | none => .next s
  | some (o, t) =>
    let pair := tPair t.word
    if s.coreLive c = false then .next s
    else if s.trayFree c (if pair then 2 else 1) = false then .next (s.violation c 2 0 o.stream o.position)
    else
      let r := t.compute upsets s.free
      let s : State := { s with free := s.free + 128 }
      let bad := t.poisoned || r.checks.any RowCheck.failed
      let s := s.trayPut c (slotBytes r.rows (fun e => e.hi)) bad pair
      let s := if pair then s.trayPut c (slotBytes r.rows (fun e => e.lo)) bad pair else s
      let s := s.bump F.MXE_TILES_COUNT c
      let s := if bad then s
        else s.countOutputs (corePdk c) o.side (r.rows.flatMap (fun l => l.map (fun e => e.cat)))
      .next (((s.completeOp o).tileChecks o t r).syncMxe c)

/-- CHK_T stores 7 to 18 (R215). -/
def execChkTWrite (p : Fin 16) (v : Nat) (s : State) : Host.Outcome State Fault Refusal :=
  .next (s.wr F.MXE_PCFG_CHK_T p.val (min (max (v % 32) 7) 18))

end Sys2Proof.Machine
end

