-- ==== Sys2Proof/Machine/HostIf.lean ====
section
/-! DEFINITION. The host windows, translation, page faults, invalidation, MSI-X and configuration commands (chapter 16). -/

namespace Sys2Proof.Machine

/-- Whether any SQ pair, the PQ or the EQ of a function is enabled (R723). -/
def State.anyQueueOn (s : State) (fn : Nat) : Bool :=
  (List.range 8).any (fun k => s.rd F.CMQ_CFG_EN fn k = 1) || s.rd F.CMQ_PQ_CFG_EN fn = 1 || s.rd F.CMQ_EQ_CFG_EN fn = 1

/-- Writing one window; WIN0_VALID and WIN0_PIN show window 0 (R463, R723). -/
def State.setWindow (s : State) (fn w : Nat) (x : Window) : State :=
  let s : State := { s with host := { s.host with windows := tset window0 s.host.windows [fn, w] x } }
  let s := if w = 0 then
      (s.wr F.HIF_WIN0_CTL_WIN0_VALID fn (b2n x.valid)).wr F.HIF_WIN0_CTL_WIN0_PIN fn (b2n x.pin)
    else s
  s.syncXstat fn

/-- The fields of a window that HOST_WINDOW_SET and APPLY accept (R463, R479): a base of 4 KiB alignment, a size of 4 KiB to
2^52, a PASID of 20 bits, none without PASID_EN. -/
def windowFieldsOk (pasidEn : Bool) (pasid base size : Nat) : Bool :=
  base % 4096 = 0 && size % 4096 = 0 && 4096 ≤ size && size ≤ 2 ^ 52 && base < 2 ^ 64 && base + size ≤ 2 ^ 64 &&
    pasid < 2 ^ 20 && (pasidEn || pasid = 0)

/-- Whether a paddock has an image running or armed (R465). -/
def State.runOrArmed (s : State) (p : Nat) : Bool := (s.runsOf p).running.isSome || (s.runsOf p).armed.isSome

/-- R465: a window with PIN set may not change while the paddock has an image running or armed. -/
def State.windowBusy (s : State) (fn w : Nat) : Bool :=
  fn != 0 && (s.windowOf fn w).valid && (s.windowOf fn w).pin && s.runOrArmed (pdkOf fn)

/-- The window that the flags of HOST_WINDOW_SET describe (R503). -/
def windowOfFlags (flags pasid base size : Nat) : Window :=
  ⟨true, hasBit flags 1, hasBit flags 2, hasBit flags 3, hasBit flags 4, pasid, base, size⟩

/-- Pages of 4 KiB, or present entries, that pinning a window needs, at most 3,073 (R469). -/
def State.pinPages (s : State) (fn : Nat) (w : Window) : List Page :=
  s.pagesOf fn w.space w.write 3073 w.base (w.base + w.size)

/-- Check 8 of HOST_WINDOW_SET (R479, R480, R465, R469): 0 or the status. -/
def State.windowSetStatus (s : State) (fn window flags pasid base size : Nat) : Nat :=
  if 1023 < window ∨ 31 < flags then 0x2A0
  else if hasBit flags 0 then
    (if flags ≠ 1 ∨ pasid ≠ 0 ∨ base ≠ 0 ∨ size ≠ 0 then 0x2A0
     else failIf (s.windowBusy fn window) 0x370)
  else if windowFieldsOk (hasBit flags 4) pasid base size = false ∨ (fn = 0 ∧ hasBit flags 3) then 0x2A0
  else if s.windowBusy fn window then 0x370
  else if hasBit flags 3 ∧ (s.cfgOf fn).ats = true ∧
      3072 < (s.host.xents.filter (fun x => x.fn == fn && s.pinnedEnt x &&
        !(s.windowOf fn window).ownsEnt x)).length + (s.pinPages fn (windowOfFlags flags pasid base size)).length then 0x371
  else 0

/-- HOST_WINDOW_SET (R463, R465, R469, R479): registers, changes or clears one window; with PIN set and ATS enabled it
completes when every page of the window is present. -/
def execHostWindowSet (h : Hdr) (window flags pasid base size : Nat) (s : State) : Host.Outcome State Fault Refusal :=
  let fn := h.fn.val
  .next (s.checked h 0x01 (s.windowSetStatus fn window flags pasid base size) (fun s =>
    let cmd : Instr := .hostWindowSet h window flags pasid base size
    if hasBit flags 0 then
      let s := (s.start h 0x01 (some cmd)).setWindow fn window window0
      s.complete h 0 (s.pinnedCount fn * 2 ^ 16)
    else
      let w := windowOfFlags flags pasid base size
      let ps := if w.pin ∧ (s.cfgOf fn).ats = true then s.pinPages fn w else []
      if s.missing fn ps ≠ [] then s.park h 0x01 cmd ps
      else
        let s := (s.start h 0x01 (some cmd)).setWindow fn window w
        s.complete h 0 (s.pinnedCount fn * 2 ^ 16)))

/-- APPLY of window 0 from the staged fields (R723). -/
def execWin0Apply (fn : Fin 17) (s : State) : Host.Outcome State Fault Refusal :=
  let f := fn.val
  let err := s.wr F.HIF_WIN0_CTL_WIN0_ERR f 1
  if s.anyQueueOn f then .next err
  else if s.rd F.HIF_WIN0_CTL_VALID f = 0 then
    .next (if s.windowBusy f 0 then err else s.setWindow f 0 window0)
  else
    let en := s.rd F.HIF_WIN0_CTL_PASID_EN f = 1
    let pasid := s.rd F.HIF_WIN0_CTL_PASID f
    let base := s.rd F.HIF_WIN0_BASE_BASE f
    let size := s.rd F.HIF_WIN0_SIZE_SIZE f
    if windowFieldsOk en pasid base size = false ∨ s.windowBusy f 0 = true then .next err
    else .next (s.setWindow f 0 ⟨true, s.rd F.HIF_WIN0_CTL_READ f = 1, s.rd F.HIF_WIN0_CTL_WRITE f = 1, false, en,
      pasid, base, size⟩)

/-- A write of 1 to WIN0_ERR clears it (R3, R481). -/
def execWin0ErrClear (fn : Fin 17) (s : State) : Host.Outcome State Fault Refusal :=
  .next (s.wr F.HIF_WIN0_CTL_WIN0_ERR fn.val 0)

/-! ### Translation and page faults -/

/-- Entries of a function's store (R466) and of its fault queue (R474). -/
def storeSize (fn : Nat) : Nat := if fn = 0 then 1024 else 4096
def fqSize (fn : Nat) : Nat := if fn = 0 then 64 else 1024

/-- Changes the phase of one taken command. -/
def State.setPhase (s : State) (h : Hdr) (ph : Phase) : State :=
  { s with taken := s.taken.map (fun t => if t.is h then { t with phase := ph } else t) }

/-- How many taken commands of a function are in a phase; HIF_FQ follows (R474, R475). -/
def State.phaseCount (s : State) (fn : Nat) (ph : Phase) : Nat :=
  (s.taken.filter (fun t => t.h.fn.val == fn && t.phase == ph)).length
def State.syncFq (s : State) (fn : Nat) : State :=
  let s := s.wr F.HIF_FQ_FQ_USED fn (s.phaseCount fn .faultQueue)
  let s := s.wr F.HIF_FQ_PARKED fn (min (s.phaseCount fn .faultWait) 0xFFFF)
  s.wr F.HIF_FQ_PRG_OUT fn (s.phaseCount fn .faultQueue)

/-- Sends a page request group of up to 64 of a command's pages that are not present (R474); the command keeps the number of its
groups. -/
def State.sendGroup (s : State) (t : Taken) : State :=
  let fn := t.h.fn.val
  if (s.cfgOf fn).priStopped then s
  else
    let ms := (s.missing fn t.pages).take 64
    let s := s.setProg t.h [nth t.prog 0 + 1]
    (s.emit (.pageRequest fn (ms.head?.bind (fun g => g.pasid)) (ms.map (fun g => g.addr)))).bump F.HIF_PRG_COUNT fn

/-- A command whose page faults takes a fault-queue entry and sends its group, or parks in fault wait (R474, R475). -/
def State.faultCmd (s : State) (t : Taken) : State :=
  let fn := t.h.fn.val
  if s.phaseCount fn .faultQueue < fqSize fn then
    ((s.setPhase t.h .faultQueue).sendGroup t).syncFq fn
  else ((s.setPhase t.h .faultWait).bump F.HIF_FAULT_PARK_COUNT fn).syncFq fn

/-- A freed entry goes to the command that parked first (R475). -/
def State.unpark (s : State) (fn : Nat) : State :=
  if s.phaseCount fn .faultQueue < fqSize fn then
    match s.taken.find? (fun t => t.h.fn.val == fn && t.phase == .faultWait) with
    | some t => ((s.setPhase t.h .faultQueue).sendGroup t).syncFq fn
    | none => s.syncFq fn
  else s.syncFq fn

/-- Records an event in HIF_ERR0 to HIF_ERR2 when no event is recorded (R471, R481). -/
def State.hifErr (s : State) (fn kind window status iova : Nat) : State :=
  if s.rd F.HIF_ERR0_VALID fn = 1 then s
  else
    let s := (s.wr F.HIF_ERR0_VALID fn 1).wr F.HIF_ERR0_KIND fn kind
    let s := (s.wr F.HIF_ERR0_WINDOW fn window).wr F.HIF_ERR0_STATUS fn status
    (s.wr F.HIF_ERR1_IOVA fn iova).wr F.HIF_ERR2_TIME fn s.now

/-- Makes room for one entry: the oldest entry that no command holds and no pinned window owns may go (R468). Answers
none when no entry is replaceable. -/
def State.makeRoom (s : State) (fn : Nat) : Option State :=
  if (s.host.xents.filter (fun x => x.fn == fn)).length < storeSize fn then some s
  else match s.host.xents.find? (fun x => x.fn == fn && !(s.heldEnt x) && !(s.pinnedEnt x)) with
    | some x => some { s with host := { s.host with xents := removeFirst (fun y => y == x) s.host.xents } }
    | none => none

/-- Commands of a function that wait for translation and now have every page become ready to start (R467). -/
def State.readyCmds (s : State) (fn : Nat) : State :=
  { s with taken := s.taken.map (fun t =>
      if t.h.fn.val = fn ∧ t.phase = .translating ∧ s.missing fn t.pages = [] then { t with phase := .waiting } else t) }

/-- An ATS Translation Completion (R466, R467, R468, R474): the entry is stored; a waiting command that needs the page with a
permission it does not grant faults; one whose pages are all present may start. Ignored during the paddock's handover
(R32). -/
def execTranslationCompletion (fn : Fin 17) (pasid : Option Nat) (base size : Nat) (read write : Bool) (s : State) :
    Host.Outcome State Fault Refusal :=
  let f := fn.val
  if f ≠ 0 ∧ s.pdkState (pdkOf f) = pdkHandover then .next s
  else
    let x : Xent := ⟨f, pasid, base, size, read, write, false⟩
    let s? := if read ∨ write then
        (s.makeRoom f).map (fun s => { s with host := { s.host with xents := s.host.xents ++ [x] } })
      else some s
    match s? with
    | none => .next (s.bump F.HIF_XLATE_WAIT_COUNT f)
    | some s =>
      let bad := s.taken.filter (fun t => t.h.fn.val == f && t.phase == .translating &&
        t.pages.any (fun g => x.covers f g.pasid g.addr && !(x.grants g.write) && (s.xentFor f g.pasid g.addr g.write).isNone))
      let s := bad.foldl (fun s t => s.faultCmd t) s
      .next ((s.readyCmds f).syncXstat f)

/-- A Page Request Group Response for the command in entry `entry` of the fault queue (R476). -/
def execPageRequestGroupResponse (fn : Fin 17) (entry : Nat) (response : Fin 3) (s : State) :
    Host.Outcome State Fault Refusal :=
  let f := fn.val
  if f ≠ 0 ∧ s.pdkState (pdkOf f) = pdkHandover then .next s
  else
    match (s.taken.filter (fun t => t.h.fn.val == f && t.phase == .faultQueue))[entry]? with
    | none => .next s
    | some t =>
      let iova := ((s.missing f t.pages).head?.map (fun g => g.addr)).getD 0
      match response.val with
      | 0 =>
        let s := s.setPhase t.h .translating
        .next ((s.askPages f (s.missing f t.pages)).unpark f)
      | 1 =>
        let s := s.hifErr f 0 0 0x410 iova
        .next (((s.complete t.h 0x410).unpark f).syncXstat f)
      | _ =>
        let s := s.hifErr f 1 0 0x411 iova
        let all := s.taken.filter (fun u => u.h.fn.val == f && (u.phase == .faultQueue || u.phase == .faultWait))
        let s := all.foldl (fun s u => s.complete u.h 0x411) s
        let c := s.cfgOf f
        let s : State := { s with host := { s.host with
          cfg := tset ⟨false, false, false, false, 0, false⟩ s.host.cfg [f] { c with priStopped := true } } }
        .next ((s.syncFq f).syncXstat f)

/-- Whether an invalidation of a range covers an entry (R472). -/
def Xent.inRange (x : Xent) (fn : Nat) (pasid : Option Nat) (base size : Nat) : Bool :=
  x.fn == fn && x.pasid == pasid && decide (x.base < base + size) && decide (base < x.base + x.size)

/-- An ATS Invalidation Request (R472 steps 1 and 2, R473): no new use of the covered entries; commands that wait for a
covered page ask again; a pinned window's pages are translated again at once. -/
def execAtsInvalidationRequest (fn : Fin 17) (pasid : Option Nat) (base size : Nat) (s : State) :
    Host.Outcome State Fault Refusal :=
  let f := fn.val
  let hit := s.host.xents.filter (fun x => x.inRange f pasid base size)
  let repin := (hit.filter (fun x => s.pinnedEnt x)).map (fun x => (⟨x.pasid, x.base, x.write⟩ : Page))
  let again := (s.taken.filter (fun t => t.h.fn.val == f && t.phase == .translating)).flatMap (fun t =>
    t.pages.filter (fun g => g.pasid == pasid && decide (base ≤ g.addr) && decide (g.addr < base + size)))
  let s : State := { s with host := { s.host with
    xents := s.host.xents.map (fun x => if x.inRange f pasid base size then { x with stopped := true } else x) } }
  let s := s.askPages f (again ++ repin)
  .next (repin.foldl (fun s _ => s.bump F.HIF_XLATE_WAIT_COUNT f) s)

/-- The invalidation ends (R472 steps 3 and 4): the entries go, the Invalidation Completion is sent, and a command that has
not finished and lost an entry it holds waits for the page again. -/
def execInvalidationComplete (fn : Fin 17) (pasid : Option Nat) (base size : Nat) (s : State) :
    Host.Outcome State Fault Refusal :=
  let f := fn.val
  let gone := s.host.xents.filter (fun x => x.stopped && x.inRange f pasid base size)
  let s : State := { s with host := { s.host with
    xents := s.host.xents.filter (fun x => !(x.stopped && x.inRange f pasid base size)) } }
  let s := s.bump F.HIF_ATS_INVAL_COUNT f 0 gone.length
  let s := s.emit (.invalidationCompletion f base size)
  let waits := s.taken.filter (fun t => t.h.fn.val == f && t.phase == .waiting && s.missing f t.pages != [])
  let s := waits.foldl (fun s t => (s.setPhase t.h .translating).askPages f (s.missing f t.pages)) s
  .next (s.syncXstat f)

/-- A command that has waited for translation longer than XLATE_TIMEOUT_MS completes with 0x0412 and frees its entry
(R477); before that nothing changes. -/
def execTranslationTimeout (fn : Fin 17) (q : Fin 9) (cid : Nat) (s : State) : Host.Outcome State Fault Refusal :=
  let f := fn.val
  match s.taken.find? (fun t => t.h.fn == fn && t.h.q == q && t.h.cid == cid) with
  | none => .next s
  | some t =>
    if (t.phase = .translating ∨ t.phase = .faultQueue ∨ t.phase = .faultWait) ∧
        s.rd F.HIF_CFG_XLATE_TIMEOUT_MS f * 1000000 < s.now - t.since then
      let s := s.hifErr f 2 0 0x412 (((s.missing f t.pages).head?.map (fun g => g.addr)).getD 0)
      .next (((s.complete t.h 0x412).unpark f).syncXstat f)
    else .next s

/-- A failing host completion or timeout (R471): recorded, counted and reported through AER; a command that issued it
completes with 0x0414 (a COPY or FILL stops under R505 instead, a HALT_DUMP under R645), an outbound transfer's lost write aborts the schedule, an
inbound transfer goes on with poisoned rows. HIF_ERR0.STATUS is the status given, so 0 for an inbound transfer. -/
def execHostCompletionError (user : HostUser) (window addr : Nat) (s : State) : Host.Outcome State Fault Refusal :=
  let fn := match user with
    | .command f _ _ => f.val
    | .inbound c _ => vfOf (corePdk c.val)
    | .outbound c _ => vfOf (corePdk c.val)
  let st := match user with
    | .inbound _ _ => 0
    | _ => 0x414
  let s := ((s.hifErr fn 3 window st addr).bump F.HIF_HOST_ERR_COUNT fn).emit (.aer fn false)
  match user with
  | .command f q cid =>
    match s.taken.find? (fun t => t.h.fn == f && t.h.q == q && t.h.cid == cid) with
    | some t => .next (if t.op = opCopy ∨ t.op = opFill ∨ t.op = 0x51 then s else s.complete t.h 0x414)
    | none => .next s
  | .inbound _ _ => .next s
  | .outbound c _ => .next (s.abort (corePdk c.val) 0x414)

/-- A BAR0 request to a VF whose TDI is in RUN without the T bit or outside its selective stream is answered with
Unsupported Request and changes nothing (R457). -/
def execTdiBarRequestRefused (fn : Fin 17) (tBit inStream : Bool) (s : State) : Host.Outcome State Fault Refusal :=
  if fn.val ≠ 0 ∧ s.rd F.RTP_TDI_STATE_STATE fn.val = 2 ∧ ¬ (tBit ∧ inStream) then
    .next (s.emit (.unsupportedRequest fn.val))
  else .next s

/-- Unmasking a vector sends its pending message (R460). -/
def execMsixUnmask (fn : Fin 17) (vector : Nat) (s : State) : Host.Outcome State Fault Refusal :=
  let f := fn.val
  let was := tget false s.host.msgPending [f, vector]
  let s : State := { s with host := { s.host with
    masked := tset true s.host.masked [f, vector] false
    msgPending := tset false s.host.msgPending [f, vector] false } }
  .next (if was then s.emit (.msix f vector) else s)

/-- XLATE_TIMEOUT_MS: a write of 0 stores 1, one above 60,000 stores 60,000 (R481). -/
def execXlateTimeoutMsWrite (fn : Fin 17) (v : Nat) (s : State) : Host.Outcome State Fault Refusal :=
  .next (s.wr F.HIF_CFG_XLATE_TIMEOUT_MS fn.val (min (max v 1) 60000))

/-- A write of 1 to HIF_ERR0.VALID clears it and re-arms the record (R481). -/
def execHifErr0ValidClear (fn : Fin 17) (s : State) : Host.Outcome State Fault Refusal :=
  .next (s.wr F.HIF_ERR0_VALID fn.val 0)

/-- Storing one item of a function's configuration. -/
def State.setCfg (s : State) (fn : Nat) (c : FnCfg) : State :=
  { s with host := { s.host with cfg := tset ⟨false, false, false, false, 0, false⟩ s.host.cfg [fn] c } }

/-- The VFs that exist: n ≤ NumVFs and VF Enable is 1 (R455). -/
def State.vfExists (s : State) (n : Nat) : Bool := s.host.vfEnable && decide (n ≤ s.host.numVfs)

/-- What a host configuration write changes (R455, R476): NumVFs 0 to 16 and VF Enable, the ATS, PRI and PASID enables, Memory Space
Enable and BAR0 of a function. -/
def State.configItem (s : State) (f : Nat) (item : CfgItem) (v : Nat) : State :=
  let c := s.cfgOf f
  let on := v % 2 = 1
  match item with
  | .numVfs => if 16 < v then s else { s with host := { s.host with numVfs := v } }
  | .vfEnable => { s with host := { s.host with vfEnable := on } }
  | .ats => s.setCfg f { c with ats := on }
  | .pri => s.setCfg f { c with pri := on, priStopped := c.priStopped && !(on && !c.pri) }
  | .pasid => s.setCfg f { c with pasid := on }
  | .memSpace => s.setCfg f { c with memSpace := on }
  | .bar0 => s.setCfg f { c with bar0 := v }

/-- A host configuration write (R455), with the TDIs that R608 sends to ERROR for it: the VF's own, or every VF that goes. -/
def State.configWrite (s : State) (f : Nat) (item : CfgItem) (v : Nat) : State :=
  let t := s.configItem f item v
  match item with
  | .numVfs | .vfEnable => loopN 16 (fun i t => if s.vfExists (i + 1) ∧ ¬ t.vfExists (i + 1) then t.tdiError (i + 1) 3 else t) t
  | _ => t.tdiError f 3

/-- CONFIGURATION_WRITE (R455, R608). -/
def execConfigurationWrite (fn : Fin 17) (item : CfgItem) (v : Nat) (s : State) : Host.Outcome State Fault Refusal :=
  .next (s.configWrite fn.val item v)

/-- The host link as it stands after training, or down (R449): HIF_LINK. Flit mode holds at 64 and 128 GT/s. -/
def State.hostLink (s : State) (speed width : Nat) : State :=
  let s := (s.wr F.HIF_LINK_SPEED 0 speed).wr F.HIF_LINK_WIDTH 0 width
  let s := s.wr F.HIF_LINK_FLIT 0 (b2n (decide (6 ≤ speed)))
  if speed = 0 then s.wr F.HIF_LINK_LINK_IDE 0 0 else s.setLock 6 true

/-- The host link goes down, retrains or changes rate outside a PERST_N reset (R449): counted in HIF_LINK_RETRAIN. -/
def execHostLinkRetrain (up : Bool) (speed width : Nat) (s : State) : Host.Outcome State Fault Refusal :=
  let s := s.bump F.HIF_LINK_RETRAIN_COUNT 0
  .next (if up then s.hostLink speed width else s.hostLink 0 0)

end Sys2Proof.Machine
end

