-- ==== Sys2Proof/Machine/Queues.lean ====
section
/-! DEFINITION. The queues of command packets: enabling, doorbells, taking and checking a packet, stopping a paddock, copies
and fills (chapter 17). -/

namespace Sys2Proof.Machine

/-! ### Enabling -/

/-- ERR codes of CMQ_CFG (R484, R508). -/
def errBase : Nat := 1
def errTranslation : Nat := 2
def errTdi : Nat := 3
def errState : Nat := 4
def errDoorbell : Nat := 5

/-- A queue base at enable (R482, R484): 4 KiB-aligned, tag 1 inside a window with the permission needed, or tag 0 for the SQ
of a VF. -/
def State.baseOk (s : State) (fn ptr bytes : Nat) (write sq : Bool) : Bool :=
  ptr % 4096 = 0 &&
  (match ptrTag ptr with
   | 0 => sq && fn != 0 && s.ptrStatus fn (pdkOf fn) ptr bytes write = 0
   | 1 => s.ptrStatus fn (pdkOf fn) ptr bytes write = 0
   | _ => false)

/-- Paddock and TDI checks of an enable (R484, R606), with KILLED (R619): 0 or the ERR code. -/
def State.enableErr (s : State) (fn : Nat) (basesOk translated : Bool) : Nat :=
  let p := pdkOf fn
  let st := s.pdkState p
  let tdi := s.rd F.RTP_TDI_STATE_STATE fn
  if s.rd F.RTP_DEV_KILLED 0 = 1 then errState
  else if basesOk = false then errBase
  else if translated = false then errTranslation
  else if fn ≠ 0 ∧ ¬ (st = pdkAssigned ∨ st = pdkActive ∨ (st = pdkQuiesced ∧ s.rd F.PDK_STATE_DUMPED p = 0)) then errState
  else if fn ≠ 0 ∧ (tdi = 1 ∨ tdi = 3) then errTdi
  else 0

/-- A queue of function `fn` has been enabled since its last handover (R607). -/
def State.markEnabled (s : State) (fn : Nat) : State :=
  { s with host := { s.host with freshEnable := tset false s.host.freshEnable [fn] true } }

/-- An SQ enable makes an ASSIGNED or QUIESCED paddock ACTIVE (R27, R484). -/
def State.activate (s : State) (fn : Nat) : State :=
  let st := s.pdkState (pdkOf fn)
  if fn ≠ 0 ∧ (st = pdkAssigned ∨ st = pdkQuiesced) then s.wr F.PDK_STATE_STATE (pdkOf fn) pdkActive else s

/-- Enabling pair `k` (R484). -/
def State.enablePair (s : State) (fn k : Nat) (translated : Bool) : State :=
  let sq := s.rd F.CMQ_SQ_BASE_POINTER fn k
  let cq := s.rd F.CMQ_CQ_BASE_POINTER fn k
  let ok := s.baseOk fn sq (64 * (s.rd F.CMQ_CFG_SQ_SIZE_M1 fn k + 1)) false true &&
    (ptrTag cq = 1 && s.baseOk fn cq (32 * (s.rd F.CMQ_CFG_CQ_SIZE_M1 fn k + 1)) true false)
  match s.enableErr fn ok translated with
  | 0 =>
    let s := (s.wr F.CMQ_CFG_EN fn 1 k).wr F.CMQ_CFG_ERR fn 0 k
    ((s.wr F.CMQ_CFG_IDLE fn 0 k).markEnabled fn).activate fn
  | e => (s.wr F.CMQ_CFG_EN fn 0 k).wr F.CMQ_CFG_ERR fn e k

/-- Enabling the PQ with the PCQ, and the EQ (R484): the paddock's state does not change. -/
def State.enablePq (s : State) (fn : Nat) (translated : Bool) : State :=
  let pq := s.rd F.CMQ_PQ_BASE_POINTER fn
  let pcq := s.rd F.CMQ_PCQ_BASE_POINTER fn
  let ok := ptrTag pq = 1 && ptrTag pcq = 1 && s.baseOk fn pq 512 false false && s.baseOk fn pcq 256 true false
  match s.enableErr fn ok translated with
  | 0 => ((s.wr F.CMQ_PQ_CFG_EN fn 1).wr F.CMQ_PQ_CFG_ERR fn 0).markEnabled fn
  | e => (s.wr F.CMQ_PQ_CFG_EN fn 0).wr F.CMQ_PQ_CFG_ERR fn e
def State.enableEq (s : State) (fn : Nat) (translated : Bool) : State :=
  let eq := s.rd F.CMQ_EQ_BASE_POINTER fn
  let ok := ptrTag eq = 1 && s.baseOk fn eq (32 * s.eqEntries fn) true false
  match s.enableErr fn ok translated with
  | 0 => ((s.wr F.CMQ_EQ_CFG_EN fn 1).wr F.CMQ_EQ_CFG_ERR fn 0).markEnabled fn
  | e => (s.wr F.CMQ_EQ_CFG_EN fn 0).wr F.CMQ_EQ_CFG_ERR fn e

/-- Before READY a write of EN 1 by PF 0 is held and applied when READY sets (R687); a later write of EN 0 cancels it. -/
def State.holdEnable (s : State) (fn code : Nat) : Bool := fn = 0 && s.rd F.RST_STATUS_READY 0 = 0 && code < 10
def State.hold (s : State) (code : Nat) : State :=
  { s with host := { s.host with held := s.host.held.filter (· != code) ++ [code] } }
def State.unhold (s : State) (code : Nat) : State :=
  { s with host := { s.host with held := s.host.held.filter (· != code) } }

/-- The held enables take effect, with the checks of R484 made then (R687). -/
def State.applyHeld (s : State) : State :=
  let l := s.host.held
  let s : State := { s with host := { s.host with held := [] } }
  l.foldl (fun s c =>
    if c < 8 then s.enablePair 0 c true else if c = 8 then s.enablePq 0 true else s.enableEq 0 true) s

def execSqPairEnable (fn : Fin 17) (k : Fin 8) (translated : Bool) (s : State) : Host.Outcome State Fault Refusal :=
  if s.barClosed fn.val then .next s
  else if s.holdEnable fn.val k.val then .next (s.hold k.val)
  else .next (s.enablePair fn.val k.val translated)

/-- EN 0: no further packet is taken, commands already taken still complete (R508). -/
def execSqPairDisable (fn : Fin 17) (k : Fin 8) (s : State) : Host.Outcome State Fault Refusal :=
  if s.barClosed fn.val then .next s
  else
    let s := if fn.val = 0 then s.unhold k.val else s
    let s := s.wr F.CMQ_CFG_EN fn.val 0 k.val
    .next (if s.rd F.CMQ_SQ_HEAD_OUTSTANDING fn.val k.val = 0 then s.wr F.CMQ_CFG_IDLE fn.val 1 k.val else s)

def execPqEnable (fn : Fin 17) (en translated : Bool) (s : State) : Host.Outcome State Fault Refusal :=
  if s.barClosed fn.val then .next s
  else if en then
    (if s.holdEnable fn.val 8 then .next (s.hold 8) else .next (s.enablePq fn.val translated))
  else .next ((if fn.val = 0 then s.unhold 8 else s).wr F.CMQ_PQ_CFG_EN fn.val 0)

def execEqEnable (fn : Fin 17) (en translated : Bool) (s : State) : Host.Outcome State Fault Refusal :=
  if s.barClosed fn.val then .next s
  else if en then
    (if s.holdEnable fn.val 9 then .next (s.hold 9) else .next (s.enableEq fn.val translated))
  else .next ((if fn.val = 0 then s.unhold 9 else s).wr F.CMQ_EQ_CFG_EN fn.val 0)

/-! ### Bases, sizes and doorbells -/

/-- Reset of an SQ, a CQ, the PQ, the PCQ and the EQ (R487). -/
def State.resetSq (s : State) (fn k : Nat) : State := (s.wr F.CMQ_SQ_HEAD_INDEX fn 0 k).wr F.CMQ_SQ_TAIL_INDEX fn 0 k
def State.resetCq (s : State) (fn k : Nat) : State :=
  ((s.wr F.CMQ_CQ_HEAD_INDEX fn 0 k).wr F.CMQ_CQ_TAIL_INDEX fn 0 k).wr F.CMQ_CQ_TAIL_PHASE fn 1 k
def State.resetPq (s : State) (fn : Nat) : State := (s.wr F.CMQ_PQ_HEAD_INDEX fn 0).wr F.CMQ_PQ_TAIL_INDEX fn 0
def State.resetPcq (s : State) (fn : Nat) : State :=
  ((s.wr F.CMQ_PCQ_HEAD_INDEX fn 0).wr F.CMQ_PCQ_TAIL_INDEX fn 0).wr F.CMQ_PCQ_TAIL_PHASE fn 1
def State.resetEq (s : State) (fn : Nat) : State :=
  ((s.wr F.CMQ_EQ_HEAD_INDEX fn 0).wr F.CMQ_EQ_TAIL_INDEX fn 0).wr F.CMQ_EQ_TAIL_PHASE fn 1

/-- A base or size field written: a write that changes it resets its queue; a size of 0 stores 1 (R487, R508). -/
def State.setQueueFld (s : State) (f : Fld) (i j v : Nat) (reset : State → State) : State :=
  if s.rd f i j = v % 2 ^ f.width then s else reset (s.wr f i v j)
def sizeField (v : Nat) : Nat := if v % 4096 = 0 then 1 else v % 4096

/-- A write of a queue base or size; ignored while the queue's EN is 1 (R508). -/
def execQueueBaseWrite (fn : Fin 17) (reg : QueueReg) (v : Nat) (s : State) : Host.Outcome State Fault Refusal :=
  let f := fn.val
  let on (k : Fin 8) : Bool := s.rd F.CMQ_CFG_EN f k.val = 1
  if s.barClosed f then .next s
  else match reg with
  | .sqBase k => .next (if on k then s else s.setQueueFld F.CMQ_SQ_BASE_POINTER f k.val v (fun s => s.resetSq f k.val))
  | .cqBase k => .next (if on k then s else s.setQueueFld F.CMQ_CQ_BASE_POINTER f k.val v (fun s => s.resetCq f k.val))
  | .sqSize k =>
    .next (if on k then s else s.setQueueFld F.CMQ_CFG_SQ_SIZE_M1 f k.val (sizeField v) (fun s => s.resetSq f k.val))
  | .cqSize k =>
    .next (if on k then s else s.setQueueFld F.CMQ_CFG_CQ_SIZE_M1 f k.val (sizeField v) (fun s => s.resetCq f k.val))
  | .pqBase =>
    .next (if s.rd F.CMQ_PQ_CFG_EN f = 1 then s else s.setQueueFld F.CMQ_PQ_BASE_POINTER f 0 v (fun s => s.resetPq f))
  | .pcqBase =>
    .next (if s.rd F.CMQ_PQ_CFG_EN f = 1 then s else s.setQueueFld F.CMQ_PCQ_BASE_POINTER f 0 v (fun s => s.resetPcq f))
  | .eqBase =>
    .next (if s.rd F.CMQ_EQ_CFG_EN f = 1 then s else s.setQueueFld F.CMQ_EQ_BASE_POINTER f 0 v (fun s => s.resetEq f))
  | .eqSize =>
    .next (if s.rd F.CMQ_EQ_CFG_EN f = 1 then s
      else s.setQueueFld F.CMQ_EQ_CFG_SIZE_M1 f 0 (sizeField v) (fun s => s.resetEq f))

/-- Doorbell of pair `k` (R485): an index at or above the size changes nothing and sets ERR to 5; a tag-0 SQ with TAILWORD
set ignores it. -/
def execSqTailDoorbell (fn : Fin 17) (k : Fin 8) (idx : Nat) (s : State) : Host.Outcome State Fault Refusal :=
  let f := fn.val
  if s.barClosed f then .next s
  else if s.rd F.CMQ_CFG_TAILWORD f k.val = 1 ∧ ptrTag (s.rd F.CMQ_SQ_BASE_POINTER f k.val) = 0 then .next s
  else if s.rd F.CMQ_CFG_SQ_SIZE_M1 f k.val < idx then .next (s.wr F.CMQ_CFG_ERR f errDoorbell k.val)
  else .next (s.wr F.CMQ_SQ_TAIL_INDEX f idx k.val)

/-- Records written to a ring of `n` entries and not yet released, and how many a new head would release (R485). -/
def ringHeld (head tail n : Nat) : Nat := (tail + n - head) % n
def headOk (head tail new n : Nat) : Bool := decide (new < n) && decide (ringHeld head new n ≤ ringHeld head tail n)

def execCqHeadDoorbell (fn : Fin 17) (k : Fin 8) (idx : Nat) (s : State) : Host.Outcome State Fault Refusal :=
  let f := fn.val
  if s.barClosed f then .next s
  else if headOk (s.rd F.CMQ_CQ_HEAD_INDEX f k.val) (s.cqTail f k.val) idx (s.cqEntries f k.val) then
    .next (s.wr F.CMQ_CQ_HEAD_INDEX f idx k.val)
  else .next (s.wr F.CMQ_CFG_ERR f errDoorbell k.val)

def execPqTailDoorbell (fn : Fin 17) (idx : Nat) (s : State) : Host.Outcome State Fault Refusal :=
  let f := fn.val
  if s.barClosed f then .next s
  else if 8 ≤ idx then .next (s.wr F.CMQ_PQ_CFG_ERR f errDoorbell)
  else .next (s.wr F.CMQ_PQ_TAIL_INDEX f idx)

def execPcqHeadDoorbell (fn : Fin 17) (idx : Nat) (s : State) : Host.Outcome State Fault Refusal :=
  let f := fn.val
  if s.barClosed f then .next s
  else if headOk (s.rd F.CMQ_PCQ_HEAD_INDEX f) (s.cqTail f 8) idx 8 then .next (s.wr F.CMQ_PCQ_HEAD_INDEX f idx)
  else .next (s.wr F.CMQ_PQ_CFG_ERR f errDoorbell)

def execEqHeadDoorbell (fn : Fin 17) (idx : Nat) (s : State) : Host.Outcome State Fault Refusal :=
  let f := fn.val
  if s.barClosed f then .next s
  else if headOk (s.rd F.CMQ_EQ_HEAD_INDEX f) (s.rd F.CMQ_EQ_TAIL_INDEX f) idx (s.eqEntries f) then
    .next (s.wr F.CMQ_EQ_HEAD_INDEX f idx)
  else .next (s.wr F.CMQ_EQ_CFG_ERR f errDoorbell)

/-- The read of the tail word of an enabled tag-0 SQ with TAILWORD set (R485): bits [11:0] give the tail, subject to the
doorbell's range check; the read is an HBM line. -/
def execTailwordPoll (fn : Fin 17) (k : Fin 8) (s : State) : Host.Outcome State Fault Refusal :=
  let f := fn.val
  let ptr := s.rd F.CMQ_TAILWORD_POINTER f k.val
  if s.rd F.CMQ_CFG_EN f k.val = 1 ∧ s.rd F.CMQ_CFG_TAILWORD f k.val = 1 ∧
      ptrTag (s.rd F.CMQ_SQ_BASE_POINTER f k.val) = 0 ∧ f ≠ 0 then
    let p := pdkOf f
    let v := leNat (s.hbmRead p (ptrAddr ptr) 8) % 4096
    let s := s.bump F.HBM_RD_LINES_COUNT p
    if s.rd F.CMQ_CFG_SQ_SIZE_M1 f k.val < v then .next (s.wr F.CMQ_CFG_ERR f errDoorbell k.val)
    else .next (s.wr F.CMQ_SQ_TAIL_INDEX f v k.val)
  else .next s

/-! ### Taking packets -/

/-- Head, tail, entries and enable of a submission queue (R482); queue 8 is the PQ. -/
def State.sqHead (s : State) (fn q : Nat) : Nat :=
  if q = 8 then s.rd F.CMQ_PQ_HEAD_INDEX fn else s.rd F.CMQ_SQ_HEAD_INDEX fn q
def State.sqTail (s : State) (fn q : Nat) : Nat :=
  if q = 8 then s.rd F.CMQ_PQ_TAIL_INDEX fn else s.rd F.CMQ_SQ_TAIL_INDEX fn q
def State.sqEntries (s : State) (fn q : Nat) : Nat := if q = 8 then 8 else s.rd F.CMQ_CFG_SQ_SIZE_M1 fn q + 1
def State.sqOn (s : State) (fn q : Nat) : Bool :=
  if q = 8 then s.rd F.CMQ_PQ_CFG_EN fn = 1 else s.rd F.CMQ_CFG_EN fn q = 1
def State.sqPtr (s : State) (fn q : Nat) : Nat :=
  if q = 8 then s.rd F.CMQ_PQ_BASE_POINTER fn else s.rd F.CMQ_SQ_BASE_POINTER fn q
def State.setSqHead (s : State) (fn q v : Nat) : State :=
  if q = 8 then s.wr F.CMQ_PQ_HEAD_INDEX fn v else s.wr F.CMQ_SQ_HEAD_INDEX fn v q
def State.cqHead (s : State) (fn q : Nat) : Nat :=
  if q = 8 then s.rd F.CMQ_PCQ_HEAD_INDEX fn else s.rd F.CMQ_CQ_HEAD_INDEX fn q

/-- Taken commands of one queue, and the free entries of its CQ that no taken command has reserved (R486). -/
def State.takenIn (s : State) (fn q : Nat) : List Taken :=
  s.taken.filter (fun t => t.h.fn.val == fn && t.h.q.val == q && t.h.cid != 4096)
def State.cqRoom (s : State) (fn q : Nat) : Bool :=
  let n := s.cqEntries fn q
  decide (ringHeld (s.cqHead fn q) (s.cqTail fn q) n + (s.takenIn fn q).length + 1 < n)

/-- Whether a queue is blocked (R492, R494): a command of it waits for translation or sits in the fault queue or in fault
wait, or a FENCE holds it. PQ commands run one at a time (R496). -/
def State.sqBlocked (s : State) (fn q : Nat) : Bool :=
  (s.takenIn fn q).any (fun t => t.phase == .translating || t.phase == .faultQueue || t.phase == .faultWait) ||
  tget false s.host.fenced [fn, q] || (q = 8 && !(s.takenIn fn q).isEmpty)

/-- The 64 bytes of the unit at index `i`: a tag-0 SQ lies in the paddock's memory, the host's answer is the operand. -/
def State.unitRead (s : State) (fn q i : Nat) (env : Fetched) : Fetched :=
  let ptr := s.sqPtr fn q
  if ptrTag ptr = 0 ∧ fn ≠ 0 then
    let p := pdkOf fn
    if s.ptrPoison p (ptr + 64 * i) 64 then .poison else .ok (s.hbmRead p (ptrAddr ptr + 64 * i) 64)
  else env

/-- Checks 2 to 7 of R489 on a packet header: 0 or the first failing status. Recovery turns everything but FW_STAGE and
FW_ACTIVATE away (R595). -/
def State.headerStatus (s : State) (fn q : Nat) (b : List Byte) : Nat :=
  let op := fieldAt b 0 1
  let units := fieldAt b 1 1 % 8 + 1
  let cid := fieldAt b 2 2
  let pdk := fieldAt b 4 1
  match opRow op with
  | none => 0x200
  | some r =>
    if (op = opQuiesce ∨ op = opAbort) ≠ (q = 8) then 0x204
    else if (fn = 0 ∧ r.pf = false) ∨ (fn ≠ 0 ∧ r.vf = false) then 0x700
    else if units < r.minUnits ∨ r.maxUnits < units ∨ 4095 ≤ cid ∨ fieldAt b 5 3 ≠ 0 ∨ fieldAt b 1 1 / 32 ≠ 0 then 0x201
    else if 15 < pdk ∨ (pdk ≠ 0 ∧ ¬ (fn = 0 ∧ r.named = true)) then 0x206
    else if fn ≠ 0 ∧ hasBit r.roles (s.role (pdkOf fn)) = false then 0x300
    else 0

/-- The header of a packet as the rest of the model names it. -/
def hdrOf (fn : Fin 17) (q : Fin 9) (b : List Byte) : Hdr :=
  ⟨fn, q, fieldAt b 2 2 % 4096, fieldAt b 4 1, hasBit (fieldAt b 1 1) 4⟩

/-- The release of a FENCE once every command taken earlier from the SQ has completed (R494). -/
def execFenceRelease (fn : Fin 17) (k : Fin 8) (s : State) : Host.Outcome State Fault Refusal :=
  if s.takenIn fn.val k.val = [] then
    .next { s with host := { s.host with fenced := tset false s.host.fenced [fn.val, k.val] false } }
  else .next s

/-! ### NOP, QUIESCE, ABORT -/

def execNopCommand (h : Hdr) (s : State) : Host.Outcome State Fault Refusal := .next (s.checked h 0x00 0 (fun s => s.complete h 0))

/-- R496: a paddock that is FREE, in HANDOVER or OFFLINE has nothing to stop. -/
def State.stoppable (s : State) (p : Nat) : Bool :=
  !(s.pdkState p = pdkFree || s.pdkState p = pdkHandover || s.pdkState p = pdkOffline)

/-- QUIESCE (R497): step 1 in an ACTIVE paddock, with the deadline of step 2; success at once in a QUIESCED or ASSIGNED
one. -/
def execQuiesce (h : Hdr) (timeoutUs : Nat) (s : State) : Host.Outcome State Fault Refusal :=
  let p := (paddockOf h)
  .next (s.checked h opQuiesce (firstStatus [failIf (decide (1000000 < timeoutUs)) 0x201, failIf (!s.stoppable p) 0x301]) (fun s =>
    if s.pdkState p = pdkActive then
      let us := if timeoutUs = 0 then 100000 else timeoutUs
      (s.clearPairs (vfOf p)).start h opQuiesce (some (.quiesce h timeoutUs)) [s.now + 1000 * us, 0]
    else s.complete h 0))

/-- Whether the command of header `h` is executing under opcode `op`. -/
def State.executing (s : State) (h : Hdr) (op : Nat) : Bool :=
  (s.findTaken h).any (fun t => t.op == op && t.phase == .executing)

/-- Step 3 of QUIESCE (R497), and its success when a Sward dump has quiesced the paddock (R499). -/
def execQuiesceComplete (h : Hdr) (s : State) : Host.Outcome State Fault Refusal :=
  let p := (paddockOf h)
  if s.executing h opQuiesce = true ∧ (s.takenOf p = [] ∨ s.pdkState p = pdkQuiesced) then
    let n := nth (s.progOf h) 1
    let s := if s.pdkState p = pdkActive then s.wr F.PDK_STATE_STATE p pdkQuiesced else s
    if h.cid = 4096 then .next (s.dropTaken h) else .next (s.complete h 0 (n * 16))
  else .next s

/-- The end of TIMEOUT_US (R497): QUIESCE performs ABORT with SCOPE 1 and waits on. -/
def execQuiesceTimeout (h : Hdr) (s : State) : Host.Outcome State Fault Refusal :=
  let p := (paddockOf h)
  if s.executing h opQuiesce = true ∧ h.cid ≠ 4096 ∧ nth (s.progOf h) 2 = 0 ∧ nth (s.progOf h) 0 ≤ s.now ∧
      s.takenOf p ≠ [] then
    let d := nth (s.progOf h) 0
    let (s, n) := s.abortScope1 p
    .next (s.setProg h [d, n, 1])
  else .next s

/-- ABORT (R498): SCOPE 0 aborts the images, SCOPE 1 also ends the waiting commands. -/
def execAbort (h : Hdr) (scope : Nat) (s : State) : Host.Outcome State Fault Refusal :=
  let p := (paddockOf h)
  .next (s.checked h opAbort (firstStatus [failIf (decide (1 < scope)) 0x201, failIf (!s.stoppable p) 0x301]) (fun s =>
    if scope = 0 then (s.abort p 0x607).start h opAbort (some (.abort h scope)) [0, 0]
    else
      let (s, n) := s.abortScope1 p
      s.start h opAbort (some (.abort h scope)) [1, n]))

/-- Whether everything an abort of the paddock ended has completed: no abort is draining, and no stopped COPY, FILL or
DECODE_STEP is left (R498). -/
def State.abortEnded (s : State) (p : Nat) : Bool :=
  (s.runsOf p).cause.isNone &&
  !(s.takenOf p).any (fun t => (t.op == opCopy || t.op == opFill || t.op == opStep) && nth t.prog 0 == 1)

def execAbortComplete (h : Hdr) (s : State) : Host.Outcome State Fault Refusal :=
  if s.executing h opAbort = true ∧ s.abortEnded (paddockOf h) = true then
    .next (s.complete h 0 (nth (s.progOf h) 1 * 16))
  else .next s

/-! ### COPY and FILL -/

/-- Whether two ranges of `n` bytes overlap in one space that R504 compares. -/
def rangesOverlap (a b n : Nat) : Bool :=
  ptrTag a == ptrTag b && ptrTag a != 3 && (ptrTag a != 1 || ptrWindow a == ptrWindow b) &&
    (let x := if ptrTag a = 0 then ptrAddr a else if ptrTag a = 1 then ptrHostOff a else ptrFarOff a
     let y := if ptrTag a = 0 then ptrAddr b else if ptrTag a = 1 then ptrHostOff b else ptrFarOff b
     decide (x < y + n) && decide (y < x + n))

def moveBytesOk (n : Nat) : Bool := n % 64 = 0 && 64 ≤ n && n ≤ 2 ^ 40

/-- A tag-3 pointer names a VALID rank (R504). -/
def State.rankStatus (s : State) (p ptr : Nat) : Nat :=
  failIf (ptrTag ptr = 3 && s.rd F.RTE_RANK_VALID p (ptrRank ptr) = 0) 0x825

/-- Check 8 of COPY and of FILL (R504). -/
def State.copyStatus (s : State) (h : Hdr) (src dst bytes : Nat) : Nat :=
  let fn := h.fn.val
  let p := (paddockOf h)
  firstStatus [failIf (!moveBytesOk bytes) 0x205, failIf (rangesOverlap src dst bytes) 0x203,
    failIf (src % 64 ≠ 0 && ptrTag src ≠ 1) 0x205,
    s.checkPtr fn p src bytes false, s.checkPtr fn p dst bytes true, s.rankStatus p src, s.rankStatus p dst]
def State.fillStatus (s : State) (h : Hdr) (dst bytes : Nat) : Nat :=
  firstStatus [failIf (!moveBytesOk bytes) 0x205, failIf (ptrTag dst = 3) 0x401,
    s.checkPtr h.fn.val (paddockOf h) dst bytes true]

def execCopy (h : Hdr) (src dst bytes : Nat) (s : State) : Host.Outcome State Fault Refusal :=
  .next (s.checked h opCopy (s.copyStatus h src dst bytes) (fun s =>
    s.gate h opCopy (.copy h src dst bytes) [⟨src, bytes, false⟩, ⟨dst, bytes, true⟩] (fun s => s.setProg h [0])))

def execFill (h : Hdr) (dst bytes pattern : Nat) (s : State) : Host.Outcome State Fault Refusal :=
  .next (s.checked h opFill (s.fillStatus h dst bytes) (fun s =>
    s.gate h opFill (.fill h dst bytes pattern) [⟨dst, bytes, true⟩] (fun s => s.setProg h [0])))

/-- Line `k` of a transfer of `n` bytes whose first byte has address `a`: offset of its first byte in the transfer, and its
bytes (R389, R504). -/
def lineOff (a k : Nat) : Nat := if k = 0 then 0 else 512 * k - a % 512
def lineLen (a n k : Nat) : Nat := min n (lineOff a (k + 1)) - lineOff a k

/-- Status of line `k` of a transfer from `src` (none for FILL) to `dst`: the failures of R505 that the state shows. -/
def State.lineStatus (s : State) (p : Nat) (src : Option Nat) (dst n k : Nat) : Nat :=
  let a := src.getD dst
  let o := lineOff a k
  let m := lineLen a n k
  firstStatus [(src.map (fun x => s.resourceStatus p (x + o))).getD 0,
    failIf ((src.map (fun x => s.ptrPoison p (x + o) m)).getD false) 0x531,
    (src.map (fun x => s.rankStatus p x)).getD 0, s.resourceStatus p (dst + o), s.rankStatus p dst]

/-- Writing line `k`: its bytes, and poison for the sectors whose source sector is poison (R505). -/
def State.writeLine (s : State) (h : Hdr) (src : Option Nat) (dst n k : Nat) (data : List Byte) : State :=
  let p := (paddockOf h)
  let a := src.getD dst
  let o := lineOff a k
  let m := lineLen a n k
  let s := s.ptrWrite h.fn.val p (dst + o) ((data.drop o).take m)
  match src with
  | none => s
  | some x =>
    if ptrTag dst = 0 then
      loopN ((m + 63) / 64) (fun j s =>
        if s.ptrPoison p (x + o + 64 * j) 64 then s.hbmPoisonAt p (ptrAddr dst + o + 64 * j) 64 else s) s
    else s

/-- The bytes a COPY or FILL moves, its source, destination and length. -/
def moveOf : Instr → Option (Option Nat × Nat × Nat × Nat)
  | .copy _ src dst bytes => some (some src, dst, bytes, 0)
  | .fill _ dst bytes pattern => some (none, dst, bytes, pattern)
  | _ => none

/-- `n` bytes of a pattern of 8 bytes, repeated. -/
def patternBytes (pattern n : Nat) : List Byte :=
  (List.range n).map (fun i => BitVec.ofNat 8 (pattern / 2 ^ (8 * (i % 8))))

/-- The end of a COPY or FILL (R505): `issued` lines were issued; the first line that failed is given by `fail` or found in
the state. Every issued line but a failing one is written (a poisoned line is written as poison); RESULT reports the bytes
below the first failing line, and 0x0380 is the status when ABORT stopped it. -/
def execCopyFillComplete (h : Hdr) (data : List Byte) (issued : Nat) (fail : Option (Nat × Nat)) (s : State) :
    Host.Outcome State Fault Refusal :=
  match (s.findTaken h).bind (fun t => if t.phase = .executing then t.cmd.bind moveOf else none) with
  | none => .next s
  | some (src, dst, n, pattern) =>
    let p := (paddockOf h)
    let a := src.getD dst
    let lines := linesOf a n
    let st (k : Nat) : Nat := match fail with
      | some (j, e) => if k = j then e else s.lineStatus p src dst n k
      | none => s.lineStatus p src dst n k
    let first := (List.range (min issued lines)).find? (fun k => st k ≠ 0)
    let stopped := nth (s.progOf h) 0 = 1
    if first = none ∧ issued < lines ∧ ¬ stopped then .next s
    else
      let bytes := match src with
        | some x => s.ptrRead p x n data
        | none => patternBytes pattern n
      let s := loopN (min issued lines) (fun k s =>
        if st k = 0 ∨ st k = 0x531 then s.writeLine h src dst n k bytes else s) s
      let s := match src with
        | some x => s.countRead h.fn.val p x (min n (lineOff a (min issued lines)))
        | none => s
      let done := match first with
        | some k => lineOff a k
        | none => min n (lineOff a (min issued lines))
      let status := if stopped then 0x380 else (first.map st).getD 0
      .next (s.complete h status (done * 2 ^ 16) 0 true)

end Sys2Proof.Machine
end

