-- ==== Sys2Proof/Machine/Vector.lean ====
section
/-! DEFINITION. The vector engine: ELEM and WS_MODE, element rows read and written, faults, and ROTARY_TABLE_LOAD (chapters
08 and 09). Groups run as core ticks pass (Machine/Clock.lean). -/

namespace Sys2Proof.Machine

/-! ### Reads (R224, R225) -/

/-- Reads of a source for group `j`: offset, tag, place. `ahead` is the tray slot, counted from the head. -/
def sourceReads (kind f field k j total cost ahead : Nat) (fixed : Bool) : List (Nat × Nat × Place) :=
  let b := vFmtBytes f
  let at_ := cost * j
  let pair := vPair f
  if kind = 1 then
    if fixed then (if j = 0 then [(0, k, (rowField field).place 0)] else [])
    else
      let q0 := (j * b + 511) / 512
      let r := (total * b + 511) / 512
      (List.range ((j * b + b - 1) / 512 + 1 - q0)).flatMap (fun i =>
        (at_, 8 * (q0 + i) + k, (rowField field).place (q0 + i)) ::
          (if pair then [(at_, 8 * (q0 + i) + k + 1, (rowField field).place (q0 + i + r))] else []))
  else if kind = 2 then
    (at_, 8 * j + k, Place.tray ahead (j % 128)) ::
      (if pair then [(at_, 8 * j + k + 1, Place.tray (ahead + 1) (j % 128))] else [])
  else if kind = 3 then [(at_, 8 * j + k, Place.ws (hasBit field 15) ((field + j / 128) % 4) (j % 128))]
  else []

/-- All reads of a program of `g` groups, in the order of their ticks, A before B. -/
def elemReads (w cfg g cost : Nat) : List (Nat × Nat × Place) :=
  let trayA := cKindA cfg = 2
  let aheadB := if trayA then (if vPair (cFmtA cfg) then 2 else 1) else 0
  (List.range g).flatMap (fun j =>
    sourceReads (cKindA cfg) (cFmtA cfg) (eSrcA w) 0 j g cost 0 false ++
      sourceReads (cKindB cfg) (cFmtB cfg) (eSrcB w) 2 j g cost aheadB (cFixedB cfg))

/-- VEC_STAT follows the engine of a core. -/
def State.syncVec (s : State) (c : Nat) : State :=
  let n := s.opTick c
  let busy := decide (n < tget 0 s.sched.busy [c, stVE])
  let j := (s.sched.ops.findSome? (fun o => match o.kind with
    | .elem e => if o.core = c ∧ e.issue ≤ n ∧ n < e.issue + e.cost * e.groups then some ((n - e.issue) / e.cost) else none
    | _ => none)).getD 0
  (s.wr F.VEC_STAT_BUSY c (b2n busy)).wr F.VEC_STAT_GROUP c (if busy then j else 0)

/-- Groups of an ELEM word: its own number, or a run parameter (R219, R220). -/
def elemGroups (w cfg : Nat) (params : List Nat) : Nat := if cGFromParam cfg then nth params (cGParam cfg) else eG w

/-- ELEM (R219, R220): the engine is occupied for C × G ticks; a program without groups completes in its issue tick. -/
def execElem (a : At) (errs : List ShelfErr) (s : State) : Host.Outcome State Fault Refusal :=
  .next (s.issueAs opcElem a (fun x s =>
    let w := x.w
    let cfg := nth x.ws 1
    let body := (x.ws.drop 2).take (elemExt w - 1)
    let i := s.opTick x.c
    let g := elemGroups w cfg x.run.params
    let cost := groupCost w body
    let id := s.sched.nextOp
    if g = 0 then
      let s : State := { s with sched := { s.sched with busy := tset 0 s.sched.busy [x.c, stVE] (i + 1) } }
      s.bump F.VEC_PROGS_COUNT x.c
    else
      let s := s.addOp x.c x.side x.st x.pos 0 none
        (.elem ⟨w, cfg, body, i, cost, g, placeReads i (elemReads w cfg g cost) errs, [], List.replicate 128 lane0, [], [], 0, 0,
          false⟩)
      let s : State := { s with sched := { s.sched with busy := tset 0 s.sched.busy [x.c, stVE] (i + cost * g) } }
      (s.addAct x.c id i (i + cost * g) (if hasSfu w body then 22 else 14)).syncVec x.c))

/-- WS_MODE (R221): the view holds from its issue tick; the engine is occupied for that tick, at weight 0. -/
def execWsMode (a : At) (s : State) : Host.Outcome State Fault Refusal :=
  .next (s.issueAs opcWsMode a (fun x s =>
    let s : State := { s with sched := { s.sched with busy := tset 0 s.sched.busy [x.c, stVE] (s.opTick x.c + 1) } }
    s.wr F.VEC_STAT_WS_MODE x.c (bitsAt x.w 0 1)))

/-! ### Faults (R248, R249) -/

/-- A vector fault: kinds 0 residue, 1 cross-lane parity, 2 lane address. The first since schedule load is recorded; the
schedule aborts. -/
def State.vecFault (s : State) (o : Op) (kind lane insn group address n : Nat) : State :=
  let c := o.core
  let s := if kind = 2 then s.bump F.VEC_ADDR_FAIL_COUNT c 0 n else s.bump F.VEC_RES_FAIL_COUNT c 0 n
  let s :=
    if s.rd F.VEC_ERR0_VALID c = 1 then s
    else
      let s := (s.wr F.VEC_ERR0_VALID c 1).wr F.VEC_ERR0_KIND c kind
      let s := (s.wr F.VEC_ERR0_LANE c (if kind = 1 then 0 else lane)).wr F.VEC_ERR0_INSN c insn
      let s := (s.wr F.VEC_ERR0_GROUP c group).wr F.VEC_ERR0_POSITION c o.position
      let s := s.wr F.VEC_ERR1_ADDRESS c (if kind = 2 then address else 0)
      (s.wr F.VEC_ERR2_TICK c (s.tickOf c)).wr F.VEC_ERR3_TIME c s.now
  let s := if kind = 2 then s else s.deviceError 4 false (s.phys c) 0 0x521 (corePdk c)
  s.abort (corePdk c) (if kind = 2 then 0x640 else 0x521)

/-! ### Groups -/

/-- VEC_WSPOISON of a core. -/
def State.syncWsPoison (s : State) (c : Nat) : State :=
  s.wr F.VEC_WSPOISON_LINES c (s.mem.wsPoison.filter (fun e => e.1.head? == some c)).length

/-- The group of a program that is due in the present operation tick of its core runs, its rows having been read. -/
def State.elemGroup (s : State) (o : Op) (e : Elem) : State :=
  let c := o.core
  let j := e.outs.length
  if j < e.groups ∧ e.issue + e.cost * j = s.opTick c then
    let (e, g) := e.run c j s.mem.ws s.mem.wsPoison
    let s : State := { s with mem := { s.mem with ws := g.ws, wsPoison := g.wsPoison } }
    let s := ((s.setOp o.id (.elem e)).syncWsPoison c).bump F.CNT_P_COUNT (corePdk c) 4 g.flushes
    match g.fault with
    | none => s
    | some (l, k, a) => s.vecFault o 2 l k j a g.faults
  else s

/-! ### Output rows (R226, R227, R241, R242) -/

/-- Output rows of a program with D_KIND 1 (of one array), tile-buffer rows, and scale rows. -/
def Elem.outRows (e : Elem) : Nat :=
  if cKindD e.cfg = 1 then (e.groups * vFmtBytes (cFmtD e.cfg) + 511) / 512 else if cKindD e.cfg = 2 then e.groups else 0
def Elem.allRows (e : Elem) : Nat :=
  if cKindD e.cfg = 3 then (if vPair (cFmtD e.cfg) then 2 else 1)
  else if cKindD e.cfg = 1 ∧ vPair (cFmtD e.cfg) then 2 * e.outRows else e.outRows
def Elem.allScl (e : Elem) : Nat := if cScaleOut e.cfg then (e.groups + 127) / 128 else 0

/-- Row and array (1 the lo array) of the next output row, and the group that fills it. -/
def Elem.nextRow (e : Elem) : Nat × Nat :=
  if cKindD e.cfg = 1 ∧ vPair (cFmtD e.cfg) then (e.rows / 2, e.rows % 2) else (e.rows, 0)
def Elem.fills (e : Elem) (r : Nat) : Nat :=
  if cKindD e.cfg = 2 then r
  else min ((512 * (r + 1) - 1) / vFmtBytes (cFmtD e.cfg)) (e.groups - 1)

/-- Ticks in which the next output row, scale row and one-row output are written. -/
def Elem.rowTick (e : Elem) : Option Nat :=
  if cKindD e.cfg = 3 ∨ e.allRows ≤ e.rows then none
  else some (e.issue + e.cost * e.fills e.nextRow.1 + e.cost + 17 + e.nextRow.2)
def Elem.sclTick (e : Elem) : Option Nat :=
  if e.allScl ≤ e.sclRows then none
  else some (e.issue + e.cost * (min (128 * e.sclRows + 127) (e.groups - 1)) + e.cost + 18)
def Elem.oneTick (e : Elem) : Option Nat :=
  if cKindD e.cfg = 3 ∧ e.rows < e.allRows then some (e.issue + e.cost * e.groups + 24 + e.rows) else none

/-- Whether a row is due in operation tick `t`. -/
def dueAt (t : Nat) (x : Option Nat) : Bool := x.any (fun n => decide (n ≤ t))

/-- Bytes of row `r` of an output array. -/
def Elem.rowBytes (e : Elem) (lo : Bool) (r : Nat) : List Byte :=
  let b := vFmtBytes (cFmtD e.cfg)
  let q := 512 * r / b
  let n := e.fills r + 1 - q
  let all := ((e.outs.drop q).take n).flatMap (fun o => if lo then o.lo else o.hi)
  (all.drop (512 * r - q * b)).take 512
/-- Categories of the elements whose last byte lies in row `r`. -/
def Elem.rowCats (e : Elem) (r : Nat) : List NumCat :=
  let w := vElemBits (cFmtD e.cfg)
  let b := vFmtBytes (cFmtD e.cfg)
  let q := 512 * r / b
  (List.range (e.fills r + 1 - q)).flatMap (fun i =>
    let cats := ((e.outs[q + i]?).map (fun o => o.cats)).getD []
    (List.range 128).filterMap (fun l =>
      if (((q + i) * 128 + l + 1) * w - 1) / 4096 = r then (cats[l]?).map numCat else none))
def Elem.poisonAt (e : Elem) (j : Nat) : Bool := ((e.outs[j]?).map (fun o => o.poison)).getD false

/-- A shelf row of a destination: claimed at once when it names a drawer; the kind of R74 on a violation. -/
def State.destRow (s : State) (c : Nat) (f : RowField) (k : Nat) : Except Nat (State × Nat) :=
  match f with
  | .drw d => match s.claimSlot c d with
    | some x => .ok x
    | none => .error 0
  | .run r => if s.rowOk c (r + k) then .ok (s, r + k) else .error 4

/-- Writes a row of a program's output: its write issues in this tick. -/
def State.elemWrite (s : State) (o : Op) (field k : Nat) (bytes : List Byte) (poison : Bool) (e : Elem) (cats : List NumCat) :
    State :=
  let c := o.core
  let f := rowField field
  match s.destRow c f k with
  | .error kind => s.violation c kind (f.drawer.getD 0) stVE o.position
  | .ok (s, row) =>
    let s := (s.setOp o.id (.elem e)).issueWrite c row (padRow bytes) poison f.drawer o.id
    if poison then s else s.countOutputs (corePdk c) o.side cats

/-- Scale row `z`: byte 128 b + m of group 128 z + m (R241). -/
def Elem.sclBytes (e : Elem) (z : Nat) : List Byte :=
  (List.range 512).map (fun i =>
    BitVec.ofNat 8 (((e.outs[128 * z + i % 128]?).map (fun o => nth o.scales (i / 128))).getD 0))
def Elem.sclPlace (e : Elem) (z : Nat) : Nat :=
  let f := (List.range (eN e.word)).findSome? (fun n =>
    let x := elemInsn e.body n
    if iOp x = 0x2A then some (iImm x % 16) else none)
  if cSclGap e.cfg then z * (spanRows (f.getD 3) + 1) else z

/-- The element program of a core of which a row is due in its present operation tick. -/
def State.elemDue (s : State) (c : Nat) (due : Elem → Option Nat) : Option (Op × Elem) :=
  s.sched.ops.findSome? (fun o => match o.kind with
    | .elem e => if o.core = c ∧ dueAt (s.opTick c) (due e) then some (o, e) else none
    | _ => none)

/-- The outputs of a group are discarded and the schedule aborts when the fault of R248 struck it: kind (0 residue, 1 parity),
lane, instruction. -/
def State.vecStrike (s : State) (o : Op) (group : Nat) (f : Nat × Nat × Nat) : State :=
  s.vecFault o (f.1 % 2) (f.2.1 % 128) (f.2.2 % 64) group 0 1

/-- Writes the next output row of a program. -/
def State.elemRow (s : State) (o : Op) (e : Elem) : State :=
  let c := o.core
  let (r, lo) := e.nextRow
  let e' := { e with rows := e.rows + 1 }
  let poison := e.poisonAt (e.fills r)
  let cats := if lo = 1 then [] else e.rowCats r
  if cKindD e.cfg = 2 then
    let s := s.setOp o.id (.elem e')
    let place := 128 * ((eDst e.word + r / 128) % 4) + r % 128
    let s : State := { s with sched := { s.sched with
      commits := tset [] s.sched.commits [c] (tget [] s.sched.commits [c] ++
        [⟨s.opTick c + 3, place, ((e.outs[r]?).map (fun o => o.hi)).getD [], poison, none, o.id, true⟩]) } }
    if poison then s else s.countOutputs (corePdk c) o.side (((e.outs[r]?).map (fun o => o.cats.map numCat)).getD [])
  else
    let k := if cMxGap e.cfg then mxGapRow (cFmtD e.cfg) r else r
    s.elemWrite o (eDst e.word) (k + lo * e.outRows) (e.rowBytes (lo == 1) r) poison e' cats

/-- Writes the next scale row of a program: each block with scale byte 0xFF counts 32 NAN outputs. -/
def State.elemScl (s : State) (o : Op) (e : Elem) : State :=
  let z := e.sclRows
  let g := (e.outs.drop (128 * z)).take 128
  let nans := (g.flatMap (fun o => o.scales.filter (fun x => x == 255))).length
  s.elemWrite o (eScl e.word) (e.sclPlace z) (e.sclBytes z) (e.poisonAt (min (128 * z + 127) (e.groups - 1)))
    { e with sclRows := z + 1 } (List.replicate (32 * nans) .nan)

/-- ELEM_ROW_WRITE (R226, R241): the due output row of a core's element program, else its due scale row; `fault` is a residue or
parity mismatch of the group that fills the row (R248). -/
def execElemRowWrite (core : Fin 128) (fault : Option (Nat × Nat × Nat)) (s : State) : Host.Outcome State Fault Refusal :=
  let c := core.val
  if s.coreLive c = false then .next s
  else
    match s.elemDue c Elem.rowTick with
    | some (o, e) =>
      match fault with
      | some f => .next (s.vecStrike o (e.fills e.nextRow.1) f)
      | none => .next (s.elemRow o e)
    | none =>
      match s.elemDue c Elem.sclTick with
      | some (o, e) =>
        (match fault with
        | some f => .next (s.vecStrike o (min (128 * e.sclRows + 127) (e.groups - 1)) f)
        | none => .next (s.elemScl o e))
      | none => .next s

/-- ELEM_ONE_ROW_WRITE (R227): the one-row output, for a pair its hi row and in the next tick its lo row. -/
def execElemOneRowWrite (core : Fin 128) (fault : Option (Nat × Nat × Nat)) (s : State) : Host.Outcome State Fault Refusal :=
  let c := core.val
  if s.coreLive c = false then .next s
  else
    match s.elemDue c Elem.oneTick with
    | none => .next s
    | some (o, e) =>
      match fault with
      | some f => .next (s.vecStrike o (e.groups - 1) f)
      | none =>
        let last := e.outs[e.groups - 1]?
        let bytes := (last.map (fun x => if e.rows = 1 then x.lo else x.hi)).getD []
        let cats := if e.rows = 1 then [] else (last.map (fun x => x.cats.map numCat)).getD []
        .next (s.elemWrite o (eDst e.word) e.rows bytes (e.poisonAt (e.groups - 1)) { e with rows := e.rows + 1 } cats)

/-- Whether a row of an element program is still to be written in the present operation tick of a core. -/
def State.rowsDue (s : State) (c : Nat) : Bool :=
  (s.elemDue c Elem.rowTick).isSome || (s.elemDue c Elem.sclTick).isSome || (s.elemDue c Elem.oneTick).isSome

/-- Whether a program has run its groups, written its rows, committed them, and ended its occupancy (R110). -/
def State.elemEnded (s : State) (o : Op) (e : Elem) : Bool :=
  e.outs.length == e.groups && e.rows == e.allRows && e.sclRows == e.allScl &&
    !((tget [] s.sched.commits [o.core]).any (fun w => w.op == o.id)) &&
    decide (e.issue + e.cost * e.groups ≤ s.opTick o.core + 1)

/-! ### Rotary tables (R273, R275) -/

/-- Opcode of ROTARY_TABLE_LOAD. -/
def opRotary : Nat := 0x3E

/-- Whether a paddock runs or has armed an image, or has an attention pass in flight. -/
def State.scheduleBusy (s : State) (p : Nat) : Bool :=
  (s.runsOf p).running.isSome || (s.runsOf p).armed.isSome ||
    (List.range 8).any (fun i => decide (0 < s.outstanding (8 * p + i) stAE))

/-- The phase step W_i of pair `i` of a rotary table. -/
def State.rotaryStep (s : State) (p t i : Nat) : Nat := tget 0 s.rotary [p, t, i]

/-- Replaces the 128 entries of a table. -/
def State.setRotary (s : State) (p t : Nat) (b : List Byte) : State :=
  { s with rotary := (List.range 128).foldl (fun r i => tset 0 r [p, t, i] (fieldAt b (8 * i) 6)) s.rotary }

/-- ROTARY_TABLE_LOAD (R275): all entries at once, or none. `data` is what a host or remote source returned. -/
def execRotaryTableLoad (h : Hdr) (table src : Nat) (data : List Byte) (s : State) : Host.Outcome State Fault Refusal :=
  let p := paddockOf h
  .next (s.checked h opRotary (firstStatus [failIf (decide (3 < table)) 0x201, failIf (ptrTag src = 3) 0x401,
      s.checkPtr h.fn.val p src 1024 false, failIf (s.scheduleBusy p) 0x330]) (fun s =>
    s.gate h opRotary (.rotaryTableLoad h table src data) [⟨src, 1024, false⟩] (fun s =>
      let st := s.sourceStatus p src 1024
      if st ≠ 0 then s.complete h st
      else
        let s := s.countRead h.fn.val p src 1024
        let b := s.ptrRead p src 1024 data
        if (List.range 128).any (fun i => fieldAt b (8 * i + 6) 2 != 0) then s.complete h 0x230
        else (s.setRotary p table b).complete h 0)))

end Sys2Proof.Machine
end

