-- ==== Sys2Proof/Machine/Movers.lean ====
section
/-! DEFINITION. Mover instructions and the messages they send and receive (chapter 19): FETCH, RECV, PAGE_FETCH, WRITE, PUSH,
admission, matching, reduce-on-arrival. -/

namespace Sys2Proof.Machine

/-! ### Pointer entries (R574) -/

/-- The pointer entry of a mover with the loop's advance: none when its row is poisoned, in which case the run aborts. -/
def State.moverPtr (s : State) (x : Ctx) : Option Nat :=
  if s.rowPoison x.c (mPtrRow x.w) then none else some ((s.ptrEntry x.c x.w + x.j * mStep x.w * 512) % 2 ^ 64)

/-- Where the messages of a transfer to a rank go (R562, R563, R568), or the status with which the run aborts. -/
def State.rankDest (s : State) (p r flow : Nat) (direct : Bool) : Except Nat Dest :=
  if s.rd F.RTE_RANK_VALID p r = 0 then .error 0x825
  else
    match s.choosePath (s.rd F.RTE_RANK_DEV p r) flow direct with
    | .error st => .error st
    | .ok port => .ok ⟨r, s.rd F.RTE_RANK_DEV p r, s.rd F.RTE_RANK_PADDOCK p r, port⟩

/-- The destinations of a transfer to several ranks. -/
def State.rankDests (s : State) (p flow : Nat) (direct : Bool) : List Nat → Except Nat (List Dest)
  | [] => .ok []
  | r :: rs =>
    match s.rankDest p r flow direct, s.rankDests p flow direct rs with
    | .ok d, .ok ds => .ok (d :: ds)
    | .error e, _ => .error e
    | _, .error e => .error e

/-- Ranks of a mask, ascending. -/
def ranksOf (m : Nat) : List Nat := (List.range 64).filter (fun r => hasBit m r)

/-! ### Inbound transfers -/

/-- FETCH (R576): its requests arise at issue, and each line lands as arrival writes. A tag-3 pointer is read by READ_REQ messages
of one line each (DESIGN CHOICE: log entry 17). -/
def execFetch (a : At) (s : State) : Host.Outcome State Fault Refusal :=
  .next (s.issueAs opcFetch a (fun x s =>
    let w := x.w
    let n := mN w
    match s.moverPtr x with
    | none => s.abort x.p 0x510
    | some ptr =>
      let st := s.checkRunPtr x.p ptr (512 * n) false
      if st ≠ 0 then s.abort x.p st
      else
        match (if ptrTag ptr = 3 then (s.rankDest x.p (ptrRank ptr) (mB w) true).map some else .ok none) with
        | .error st => s.abort x.p st
        | .ok dest =>
          match s.claimRows x.c (rowField (mRows w)) n with
          | .error k => s.violation x.c k ((rowField (mRows w)).drawer.getD 0) x.st x.pos
          | .ok (s, rows) =>
            let id := s.sched.nextOp
            let s := s.addOp x.c x.side x.st x.pos (mDone w) (rowField (mRows w)).drawer (.fetch ⟨ptr, rows, [], 0, none, false, dest⟩)
            let src := srcStream x.c x.st
            let ps := linePieces (ptrAddr ptr) (512 * n)
            loopN ps.length (fun k s =>
              let (off, len) := (ps[k]?).getD (0, 0)
              let use := LineUse.fetch id (off / 512) (off % 512)
              match dest with
              | none => s.addLine (readLine x.p src (ptr + off) len use)
              | some d =>
                let m := s.mkMsg x.p 4 d.dev d.pdk id k 0 (ptrAddr ptr + off) id []
                s.addLine { msgLine x.p src d.port m use with write := false, len := len }) s))

/-- PAGE_FETCH (R575): one request to the page server of a rank. -/
def execPageFetch (a : At) (s : State) : Host.Outcome State Fault Refusal :=
  .next (s.issueAs opcPageFetch a (fun x s =>
    let w := x.w
    match s.moverPtr { x with j := 0 } with
    | none => s.abort x.p 0x510
    | some e =>
      match s.rankDest x.p (bitsAt e 58 6) (mB w) true with
      | .error st => s.abort x.p st
      | .ok d =>
        match s.claimRows x.c (rowField (mRows w)) 64 with
        | .error k => s.violation x.c k ((rowField (mRows w)).drawer.getD 0) x.st x.pos
        | .ok (s, rows) =>
          let id := s.sched.nextOp
          let s := s.addOp x.c x.side x.st x.pos (mDone w) (rowField (mRows w)).drawer
            (.fetch ⟨3 * 2 ^ 62, rows, [], 0, some e, false, some d⟩)
          let m := s.mkMsg x.p 5 d.dev d.pdk id 0 63 e id []
          s.addLine { msgLine x.p (srcStream x.c x.st) d.port m (.fetch id 0 0) with write := false }))

/-- Bytes arrive for a FETCH at position `pos` of its transfer; rows that are whole reach the landing buffer (R40, R576). -/
def State.fetchPart (s : State) (id pos : Nat) (bytes : List Byte) (poison : Bool) : State :=
  match s.findOp id with
  | none => s
  | some o =>
    match o.kind with
    | .fetch f =>
      let k := pos / 512
      let off := pos % 512
      let here := bytes.take (512 - off)
      let rest := bytes.drop (512 - off)
      let parts := f.parts ++ [(k, off, here, poison)] ++ (if rest = [] then [] else [(k + 1, 0, rest, poison)])
      let whole (k : Nat) : Bool := ((parts.filter (fun x => x.1 == k)).foldl (fun n x => n + x.2.2.1.length) 0) == 512
      let full := ([k, k + 1]).filter whole
      let row (k : Nat) : List Byte := (List.range 512).flatMap (fun j =>
        (parts.filter (fun x => x.1 == k && x.2.1 == j)).flatMap (fun x => x.2.2.1))
      let s := s.setOp id (.fetch { f with parts := parts.filter (fun x => !full.contains x.1) })
      full.foldl (fun s k => { s with sched := { s.sched with arrivals := s.sched.arrivals ++
        [⟨id, o.core, o.stream, nth f.rows k, row k, parts.any (fun x => x.1 == k && x.2.2.2), o.drawer, 0⟩] } }) s
    | _ => s

/-! ### Outbound transfers -/

/-- An outbound transfer issues: it occupies its stream for its rows' ticks, and reads row k in tick i + k (R87). -/
def State.startOut (s : State) (x : Ctx) (ptr n acks : Nat) (dests : List Dest) (errs : List ShelfErr) : State :=
  let i := s.opTick x.c
  let f := rowField (mRows x.w)
  let reads := placeReads i ((List.range n).map (fun k => (k, k, f.place k))) errs
  let s := s.addOp x.c x.side x.st x.pos (mDone x.w) none (.outb ⟨x.w, i, ptr, reads, [], dests, acks⟩)
  { s with sched := { s.sched with busy := tset 0 s.sched.busy [x.c, x.st] (i + n) } }

/-- Pieces of row `k` of a local WRITE: the parts of the row in one line each. -/
def rowPieces (ptr k : Nat) : List (Nat × Nat) := linePieces (ptrAddr ptr + 512 * k) 512

/-- WRITE (R576). -/
def execWriteMover (a : At) (errs : List ShelfErr) (s : State) : Host.Outcome State Fault Refusal :=
  .next (s.issueAs opcWrite a (fun x s =>
    let w := x.w
    let n := mN w
    match s.moverPtr x with
    | none => s.abort x.p 0x510
    | some ptr =>
      let st := s.checkRunPtr x.p ptr (512 * n) true
      if st ≠ 0 then s.abort x.p st
      else if ptrTag ptr = 3 then
        match s.rankDest x.p (ptrRank ptr) (mB w) false with
        | .error st => s.abort x.p st
        | .ok d => s.startOut x ptr n n [d] errs
      else s.startOut x ptr n ((List.range n).foldl (fun a k => a + (rowPieces ptr k).length) 0) [] errs))

/-- PUSH (R577). -/
def execPush (a : At) (errs : List ShelfErr) (s : State) : Host.Outcome State Fault Refusal :=
  .next (s.issueAs opcPush a (fun x s =>
    match s.moverPtr { x with j := 0 } with
    | none => s.abort x.p 0x510
    | some mask =>
      match s.rankDests x.p 0 false (ranksOf mask) with
      | .error st => s.abort x.p st
      | .ok ds => s.startOut x mask (mN x.w) (mN x.w * ds.length) ds errs))

/-- The rows of an outbound transfer have all been read (R56, R573, R576, R577): a poisoned row stops it and the run; otherwise its
lines and messages arise. A PUSH to nobody completes. -/
def State.sendRows (s : State) (o : Op) (x : Outb) : State :=
  let p := corePdk o.core
  let src := srcStream o.core o.stream
  let w := x.word
  let n := mN w
  let row (k : Nat) : List Byte := ((x.got.find? (fun g => g.tag == k)).map (fun g => g.bytes)).getD []
  if x.got.any (fun g => g.poison) then (s.dropOp o).abort p 0x510
  else
    let s := s.setOp o.id (.outb { x with got := [] })
    if wOp w = opcPush then
      if x.dests = [] then s.completeOp o
      else
        loopN n (fun k s => x.dests.foldl (fun s d =>
          let m := s.mkMsg p 2 d.dev d.pdk o.id k (n - 1) (mB w + 16 * mA w) 0 (row k)
          s.addLine (msgLine p src d.port m .msg)) s) s
    else
      loopN n (fun k s =>
        match x.dests with
        | d :: _ =>
          let m := s.mkMsg p 1 d.dev d.pdk o.id k (n - 1) (ptrAddr x.ptr + 512 * k) 0 (row k)
          s.addLine (msgLine p src d.port m .msg)
        | [] => (rowPieces x.ptr k).foldl (fun s y =>
            s.addLine (storeLine p src (x.ptr + 512 * k + y.1) (((row k).drop y.1).take y.2) false (.outb o.id k))) s) s

/-- Outbound transfers of a core whose last row has been read go out. -/
def State.pumpOut (s : State) (c : Nat) : State :=
  s.sched.ops.foldl (fun s o => match o.kind with
    | .outb x => if o.core = c ∧ x.reads = [] ∧ x.got ≠ [] then s.sendRows o x else s
    | _ => s) s

/-- An acknowledgement of an outbound transfer (R573): the last one completes it; an error aborts the sender's run. -/
def State.outAck (s : State) (id status : Nat) : State :=
  match s.findOp id with
  | none => s
  | some o =>
    match o.kind with
    | .outb x =>
      let x := { x with acks := x.acks - 1 }
      let s := if isError status then s.abort (corePdk o.core) status else s
      if x.acks = 0 then
        (if (s.findOp id).isSome then (if isError status then s.dropOp o else s.completeOp o) else s)
      else s.setOp id (.outb x)
    | _ => s

/-! ### Messages received (R569) -/

/-- A message of kind `kind` for this module: taken from the die, or come at an ACTIVE port. -/
def State.takeMsg (s : State) (port : Option (Fin 12)) (m : Msg) (kind : Nat) : Option State :=
  if m.kind ≠ kind ∨ m.dstDev ≠ s.devId ∨ 15 < m.dstPdk then none
  else
    match port with
    | some q => if s.portActive q.val then some (s.consume q.val m) else none
    | none =>
      if s.net.die.contains m then some { s with net := { s.net with die := removeFirst (· == m) s.net.die } } else none

/-- The rank of the sender, or the status with which a message is discarded (R32, R569). -/
def State.admitRank (s : State) (m : Msg) : Except Nat Nat :=
  let p := m.dstPdk
  if s.pdkState p = pdkHandover then .error 0x82B
  else
    match (List.range 64).find? (fun r => s.rd F.RTE_RANK_VALID p r = 1 && s.rd F.RTE_RANK_DEV p r = m.srcDev &&
        s.rd F.RTE_RANK_PADDOCK p r = m.srcPdk) with
    | none => .error 0x823
    | some r => if s.rd F.RTE_RANK_EPOCH p r = m.place then .ok r else .error 0x824

/-- A discard is recorded in RTE_ERR0 and RTE_ERR1 (R592). -/
def State.rteErr (s : State) (m : Msg) (status : Nat) : State :=
  let p := m.dstPdk
  if s.rd F.RTE_ERR0_VALID p = 1 then s
  else
    let s := (s.wr F.RTE_ERR0_VALID p 1).wr F.RTE_ERR0_SRC_DEV p m.srcDev
    let s := (s.wr F.RTE_ERR0_SRC_PDK p m.srcPdk).wr F.RTE_ERR0_PLACE p m.place
    (s.wr F.RTE_ERR0_STATUS p status).wr F.RTE_ERR1_TIME p s.now

/-- The ACK of a message, to its sender; responses are not acknowledged. -/
def State.ackMsg (s : State) (m : Msg) (status : Nat) (high aux : Nat := 0) : State :=
  if m.kind = 6 ∨ m.kind = 7 ∨ m.kind = 9 ∨ m.kind = 0x10 then s
  else s.ackFor m.dstPdk m.srcDev m.srcPdk (if m.kind = 4 ∨ m.kind = 5 then m.aux else m.xid) m.k status high aux

/-- A message is discarded (R32, R569, R579): counted, recorded and acknowledged. -/
def State.discardMsg (s : State) (m : Msg) (status : Nat) : State :=
  let p := m.dstPdk
  let s :=
    if status = 0x82B then s.bump F.CNT_D_COUNT 0 0
    else if status = 0x823 then s.bump F.RTE_P_ADMIT_DROP_COUNT p
    else if status = 0x824 then s.bump F.RTE_P_EPOCH_DISC_COUNT p
    else if status = 0x826 then s.bump F.RTE_P_EARLY_DROP_COUNT p
    else s
  let s := if status = 0x823 ∨ status = 0x824 ∨ status = 0x826 then s.rteErr m status else s
  s.ackMsg m status

/-- Whether a Sward dump of the message's paddock has been captured: a request is discarded then (R643). -/
def State.dumped (s : State) (m : Msg) : Bool :=
  !([6, 7, 9, 0x10] : List Nat).contains m.kind && (tget none s.dumps [m.dstPdk]).any (fun d => d.captured)

/-- The frame of a received message: an admitted one takes its effect once the line has been charged to the receiving paddock
(R123, R569); any other is discarded. -/
def State.receiveMsg (s : State) (port : Option (Fin 12)) (m : Msg) (kind : Nat) (go : Nat → State → State) :
    Host.Outcome State Fault Refusal :=
  match s.takeMsg port m kind with
  | none => .next s
  | some t =>
    match t.admitRank m with
    | .error st => .next (t.discardMsg m st)
    | .ok r =>
      if t.dumped m = true then .next (t.discardMsg m 0x826) else .next (go r (t.ucharge m.dstPdk 16))

/-- WRITE_MESSAGE_RECEIVE (R572, R576). -/
def execWriteMessageReceive (port : Option (Fin 12)) (m : Msg) (s : State) : Host.Outcome State Fault Refusal :=
  s.receiveMsg port m 1 (fun _ s =>
    let p := m.dstPdk
    let st := firstStatus [failIf (m.target % 64 != 0 || m.data.length % 64 != 0) 0x290,
      failIf (decide (localEnd < m.target + m.data.length)) 0x400, s.resourceStatus p (ptrAddr m.target)]
    if st ≠ 0 then s.ackMsg m st
    else ((s.ucharge p 40).ptrWrite (vfOf p) p (ptrAddr m.target) m.data).ackMsg m 0 0 1)

/-! ### Reduce on arrival (R580, R581) -/

def rowWords (r : List Byte) : List Nat := (List.range 128).map (fun e => fieldAt r (4 * e) 4)
def wordsRow (l : List Nat) : List Byte := l.flatMap (fun v => leBytes v 4)
/-- Category of a value that an operation wrote. -/
def valueCat (v : Fp) : NumCat := if v.isNan then .nan else if v.isFin then .plain else .inf

/-- Combination of one row (RED 1 to 3): bytes and categories. -/
def combineRow (red : Nat) (a b : List Byte) : List Byte × List NumCat :=
  let es := (List.range 128).map (fun e =>
    let x := nth (rowWords a) e
    let y := nth (rowWords b) e
    if red = 1 then toF32 ((f32 x).add (f32 y))
    else if red = 2 then toF32 (Fp.max (f32 x) (f32 y))
    else
      let r := clampInt int32Lo int32Hi (signedAt x 32 + signedAt y 32)
      (unsignedOf r.1 32, if r.2 then NumCat.sat else .plain))
  (wordsRow (es.map (fun x => x.1)), es.map (fun x => x.2))

/-- A pair and a Welford record at lane `l` of a record's rows (R276). -/
def recPair (rows : List (List Byte)) (k l : Nat) : Pair :=
  ⟨f32 (fieldAt ((rows[k]?).getD []) (4 * l) 4), f32 (fieldAt ((rows[k + 1]?).getD []) (4 * l) 4)⟩
def recWelf (rows : List (List Byte)) (l : Nat) : Welf :=
  ⟨recPair rows 0 l, recPair rows 2 l, signedAt (fieldAt ((rows[4]?).getD []) (4 * l) 4) 32⟩

/-- Combination of the N rows of a transfer: rows and categories (R581). -/
def combineRows (red : Nat) (a b : List (List Byte)) : List (List Byte) × List NumCat :=
  if red = 4 then
    let ps := (List.range 128).map (fun l => padd (recPair a 0 l) (recPair b 0 l))
    ([wordsRow (ps.map (fun p => (toF32 p.hi).1)), wordsRow (ps.map (fun p => (toF32 p.lo).1))],
      ps.flatMap (fun p => [valueCat p.hi, valueCat p.lo]))
  else if red = 5 then
    let ws := (List.range 128).map (fun l => wmerge (recWelf a l) (recWelf b l))
    let sat := (List.range 128).map (fun l => welfSat (recWelf a l) (recWelf b l))
    let hi (f : Welf → Fp) : List Byte := wordsRow (ws.map (fun w => (toF32 (f w)).1))
    ([hi (fun w => w.mean.hi), hi (fun w => w.mean.lo), hi (fun w => w.m2.hi), hi (fun w => w.m2.lo),
        wordsRow (ws.map (fun w => unsignedOf w.count 32))],
      ws.flatMap (fun w => [valueCat w.mean.hi, valueCat w.mean.lo, valueCat w.m2.hi, valueCat w.m2.lo]) ++
        sat.map (fun x => if x then NumCat.sat else .plain))
  else
    let rs := (List.range a.length).map (fun k => combineRow red ((a[k]?).getD []) ((b[k]?).getD []))
    (rs.map (fun x => x.1), rs.flatMap (fun x => x.2))

/-- The identity of a combination: N rows (R581). -/
def identityRows (red n : Nat) : List (List Byte) :=
  List.replicate n (wordsRow (List.replicate 128 (if red = 2 then fp32.infBits true else 0)))

/-- The rows of a transfer of a rank, in order. -/
def Recv.rowsFrom (r : Recv) (rank : Nat) : List (List Byte) :=
  (List.range r.n).map (fun k => ((r.got.find? (fun g => g.rank == rank && g.k == k)).map (fun g => g.bytes)).getD [])
/-- Whether a rank has delivered all its rows. -/
def Recv.has (r : Recv) (rank : Nat) : Bool := (r.got.filter (fun g => g.rank == rank)).length == r.n

/-- Rows of a receive reach the landing buffer from row `k` on. -/
def State.landRecv (s : State) (o : Op) (r : Recv) (k : Nat) (rows : List (List Byte)) (cats : List NumCat) : State :=
  let s := s.countOutputs (corePdk o.core) o.side cats
  let s := loopN rows.length (fun j s =>
    { s with sched := { s.sched with arrivals := s.sched.arrivals ++
      [⟨o.id, o.core, o.stream, nth r.rows (k + j), (rows[j]?).getD [], false, o.drawer, 0⟩] } }) s
  match s.findOp o.id with
  | some y => (match y.kind with
    | .recv q => s.setOp o.id (.recv { q with landed := q.landed + rows.length })
    | _ => s)
  | none => s

/-- A row has joined a receive: what it lands (R580). -/
def State.recvRow (s : State) (o : Op) (r : Recv) (k : Nat) (bytes : List Byte) : State :=
  let existing (k : Nat) : List Byte := s.rowOf o.core (nth r.rows k)
  if r.mode = 0 then s.landRecv o r k [bytes] []
  else if r.mode = 1 ∧ r.red ≤ 3 then
    let x := combineRow r.red (existing k) bytes
    s.landRecv o r k [x.1] x.2
  else if (ranksOf r.mask).all r.has then
    let start := if r.mode = 1 then (List.range r.n).map existing else identityRows r.red r.n
    let x := (ranksOf r.mask).foldl (fun (acc : List (List Byte) × List NumCat) rank =>
      combineRows r.red acc.1 (r.rowsFrom rank)) (start, [])
    s.landRecv o r 0 x.1 x.2
  else s

/-! ### Matching (R578, R579) -/

/-- The receive on a core and channel that a row of a transfer from a rank matches: one that has taken that transfer, or the
oldest whose mask holds the rank and that has taken none from it. -/
def State.matchRecv (s : State) (c channel rank xid : Nat) : Option (Op × Recv) :=
  let l := s.sched.ops.filterMap (fun o => match o.kind with
    | .recv r => if o.core = c ∧ r.channel = channel ∧ hasBit r.mask rank = true then some (o, r) else none
    | _ => none)
  (l.find? (fun x => x.2.xids.contains (rank, xid))).or (l.find? (fun x => !(x.2.xids.any (fun y => y.1 == rank))))

/-- A pushed row is offered to the receives of its core; answers none when none matches. -/
def State.offerPush (s : State) (rank : Nat) (m : Msg) : Option State :=
  let c := 8 * m.dstPdk + bitsAt m.target 0 3
  match s.matchRecv c (bitsAt m.target 4 4) rank m.xid with
  | none => none
  | some (o, r) =>
    if m.n + 1 ≠ r.n then some (s.ackMsg m 0x829)
    else
      let r := { r with
        xids := if r.xids.contains (rank, m.xid) then r.xids else r.xids ++ [(rank, m.xid)]
        got := r.got ++ [⟨rank, m.k, padRow m.data, m.srcDev, m.srcPdk, m.xid, false⟩] }
      some ((s.setOp o.id (.recv r)).recvRow o r m.k (padRow m.data))

def State.earlyOf (s : State) (c : Nat) : List Early := tget [] s.net.early [c]
def State.setEarly (s : State) (c : Nat) (l : List Early) : State :=
  { s with net := { s.net with early := tset [] s.net.early [c] l } }

/-- PUSH_MESSAGE_RECEIVE (R578, R579): the row lands in a matching receive, waits in the early-arrival store of 256 rows, or is
discarded. -/
def execPushMessageReceive (port : Option (Fin 12)) (m : Msg) (s : State) : Host.Outcome State Fault Refusal :=
  s.receiveMsg port m 2 (fun rank s =>
    match s.offerPush rank m with
    | some t => t
    | none =>
      let c := 8 * m.dstPdk + bitsAt m.target 0 3
      let l := s.earlyOf c
      if 256 ≤ l.length then s.discardMsg m 0x826 else s.setEarly c (l ++ [⟨rank, m, s.now⟩]))

/-- Rows of the early-arrival store of a core that now match land, oldest first (R579). -/
def State.matchEarly (s : State) (c : Nat) : State :=
  (s.earlyOf c).foldl (fun s e =>
    match s.offerPush e.rank e.msg with
    | some t => t.setEarly c (removeFirst (· == e) (t.earlyOf c))
    | none => s) s

/-- RECV (R578 to R580): a source that is not VALID or a mask that breaks the counts aborts the run; otherwise the receive is
posted, and early arrivals that match it land. -/
def execRecv (a : At) (s : State) : Host.Outcome State Fault Refusal :=
  .next (s.issueAs opcRecv a (fun x s =>
    let w := x.w
    let n := mN w
    match s.moverPtr { x with j := 0 } with
    | none => s.abort x.p 0x510
    | some mask =>
      let k := popBits mask 64
      if (ranksOf mask).any (fun r => s.rd F.RTE_RANK_VALID x.p r == 0) then s.abort x.p 0x825
      else if k = 0 ∨ (mMode w ≠ 2 ∧ k ≠ 1) ∨ (mMode w = 2 ∧ 512 < n * k) then s.abort x.p 0x3A2
      else
        match s.claimRows x.c (rowField (mRows w)) n with
        | .error e => s.violation x.c e ((rowField (mRows w)).drawer.getD 0) x.st x.pos
        | .ok (s, rows) =>
          let s := s.addOp x.c x.side x.st x.pos (mDone w) (rowField (mRows w)).drawer
            (.recv ⟨mA w, mask, mB w, mMode w, n, rows, [], [], 0, 0⟩)
          s.matchEarly x.c))

/-- EARLY_ARRIVAL_TIMEOUT (R579): the oldest row of a core's store has waited longer than WAIT_DEFAULT_US. -/
def execEarlyArrivalTimeout (core : Fin 128) (s : State) : Host.Outcome State Fault Refusal :=
  let c := core.val
  match s.earlyOf c with
  | [] => .next s
  | e :: l =>
    if s.now ≤ e.since + 1000 * s.rd F.SCH_PCTL_WAIT_DEFAULT_US (corePdk c) then .next s
    else .next ((s.setEarly c l).discardMsg e.msg 0x826)

/-- RECEIVE_COMPLETE (R579): the core's oldest receive of which every row has committed. -/
def execReceiveComplete (core : Fin 128) (s : State) : Host.Outcome State Fault Refusal :=
  let next := s.sched.ops.find? (fun o => o.core == core.val && (match o.kind with
    | .recv r => decide (r.n ≤ r.committed)
    | _ => false))
  match next with
  | some o => .next (s.completeOp o)
  | none => .next s

/-! ### READ_DATA -/

/-- READ_DATA_RECEIVE (R576): a line of a remote FETCH or PAGE_FETCH lands; its transaction is released. FLAGS bit 0 carries the
poison of the line (DESIGN CHOICE: log entry 17). -/
def execReadDataReceive (port : Option (Fin 12)) (m : Msg) (s : State) : Host.Outcome State Fault Refusal :=
  s.receiveMsg port m 6 (fun _ s =>
    match s.findOp m.xid with
    | none => s
    | some o =>
      if corePdk o.core ≠ m.dstPdk then s
      else
        match o.kind with
        | .fetch f =>
          if f.page.isSome then s.fetchPart o.id (512 * m.k) (padRow m.data) (hasBit m.flags 0)
          else
            let ps := linePieces (ptrAddr f.ptr) (512 * f.rows.length)
            let (off, len) := (ps[m.k]?).getD (0, 0)
            let s := match s.net.lines.find? (fun l => l.use == .fetch o.id (off / 512) (off % 512)) with
              | some l => s.dropLine l
              | none => s
            s.fetchPart o.id off (m.data.take len) (hasBit m.flags 0)
        | _ => s)

/-- An ACK for a FETCH or PAGE_FETCH (R573, R583): an error aborts the run; 0x0170 is a warning that names the range of tokens. -/
def State.fetchAck (s : State) (id status tokens : Nat) : State :=
  match s.findOp id with
  | none => s
  | some o =>
    match o.kind with
    | .fetch f =>
      let p := corePdk o.core
      let s := match s.net.lines.find? (fun l => l.use == .fetch id 0 0 && l.msg.isSome) with
        | some l => if f.page.isSome then s.dropLine l else s
        | none => s
      if isError status then s.abort p status
      else
        let s := match f.page with
          | some e =>
            if status = 0x170 then
              let i := bitsAt e 0 22
              s.setRuns p ((s.runsOf p).tallyIn o.side (fun t => t.addStale (bitsAt e 42 16) (i * tokens) ((i + 1) * tokens)))
            else s
          | none => s
        let f := { f with acked := true }
        if f.page.isSome ∧ f.committed = f.rows.length then s.completeOp { o with kind := .fetch f } else s.setOp id (.fetch f)
    | _ => s

/-- STOP_RECEIVE (R584): it causes no further STOP. -/
def execStopReceive (port : Option (Fin 12)) (m : Msg) (s : State) : Host.Outcome State Fault Refusal :=
  s.receiveMsg port m 0x10 (fun _ s => (s.bump F.RTE_P_STOP_RX_COUNT m.dstPdk).abortWith m.dstPdk 0x827 false)

end Sys2Proof.Machine
end

