-- ==== Sys2Proof/Machine/Routes.lean ====
section
/-! DEFINITION. Routes, transit, rank tables and mirror pairs (R561 to R570, R585 to R592). -/

namespace Sys2Proof.Machine

def opRouteWrite : Nat := 0x60
def opRankWrite : Nat := 0x61
def opMirrorSet : Nat := 0x64
def opPageServerSet : Nat := 0x3F

/-! ### Destinations (R561, R566) -/

/-- A path as RTE_DEST holds it. -/
def pathWord (x : Nat × Nat × Nat) : Nat := x.1 % 16 * 128 + b2n (x.2.1 == 2) * 64 + x.2.2 % 64

/-- Paths of entry `d` that reserve transit credit on port `q`, times its TRANSIT_FLITS. -/
def State.destReserves (s : State) (d q : Nat) : Nat :=
  if s.rd F.RTE_DEST_VALID 0 d = 1 ∧ s.rd F.RTE_DEST_FORWARD 0 d = 1 then
    let n := ((List.range (s.rd F.RTE_DEST_NPATHS_M1 0 d + 1)).filter (fun k =>
      let w := s.rd F.RTE_DEST_PATH 0 (4 * d + k)
      bitsAt w 7 4 == q && !hasBit w 6)).length
    n * s.rd F.RTE_DEST_TRANSIT_FLITS 0 d
  else 0
def State.portReserves (s : State) (q : Nat) : Nat := (List.range 64).foldl (fun n d => n + s.destReserves d q) 0

/-- Entry `d` of the destination table is replaced in one clock, and RTE_TRES follows. -/
def State.putDest (s : State) (d flags npaths transit : Nat) (paths : List (Nat × Nat × Nat)) : State :=
  let s := (s.wr F.RTE_DEST_VALID 0 (flags % 2) d).wr F.RTE_DEST_FORWARD 0 (flags / 2 % 2) d
  let s := (s.wr F.RTE_DEST_NPATHS_M1 0 (npaths - 1) d).wr F.RTE_DEST_TRANSIT_FLITS 0 transit d
  let s := loopN 4 (fun k s => s.wr F.RTE_DEST_PATH 0 ((paths[k]?).elim 0 pathWord) (4 * d + k)) s
  loopN 12 (fun q s => s.wr F.RTE_TRES_RES 0 (s.portReserves q) q) s

/-- ROUTE_WRITE (R561, R566, R589). -/
def execRouteWrite (h : Hdr) (dev flags npaths transit : Nat) (paths : List (Nat × Nat × Nat)) (s : State) :
    Host.Outcome State Fault Refusal :=
  let bad := decide (63 < dev) || dev == s.devId || decide (3 < flags) || npaths == 0 || decide (4 < npaths) ||
    paths.length != npaths || decide (4095 < transit) ||
    paths.any (fun x => decide (11 < x.1) || !(x.2.1 == 1 || x.2.1 == 2) || decide (63 < x.2.2)) ||
    (hasBit flags 1 && paths.any (fun x => x.2.1 != 1))
  let t := s.putDest dev flags npaths transit paths
  let tooMany := (List.range 12).any (fun q => decide (t.rd F.PLK_TRANSIT_TRANSIT q < t.portReserves q) && t.portReserves q != 0)
  .next (s.checked h opRouteWrite (firstStatus [failIf bad 0x2C0, failIf tooMany 0x820]) (fun s =>
    ((s.start h opRouteWrite (some (.routeWrite h dev flags npaths transit paths))).putDest dev flags npaths transit paths).complete h 0))

/-! ### Ranks (R567, R570) -/

/-- Whether two paddocks are of one group (R14, R16). -/
def State.sameGroup (s : State) (p q : Nat) : Bool :=
  s.rd F.PDK_STATE_GROUP_BASE p == s.rd F.PDK_STATE_GROUP_BASE q && s.pdkState p != pdkFree && s.pdkState q != pdkFree

/-- Fields of an entry as RTE_RANK_r lays it out. -/
def rankValid (e : Nat) : Bool := hasBit e 63
def rankDev (e : Nat) : Nat := bitsAt e 56 6
def rankPdk (e : Nat) : Nat := bitsAt e 48 4
def rankEntryOk (e : Nat) : Bool := !hasBit e 62 && bitsAt e 52 4 == 0 && bitsAt e 0 32 == 0

/-- Ranks that a transfer resolved. -/
def OpKind.ranks : OpKind → List Nat
  | .fetch f => f.dest.toList.map (fun d => d.rank)
  | .outb o => o.dests.map (fun d => d.rank)
  | .recv r => ranksOf r.mask
  | _ => []

/-- Transfers of paddock `p` older than operation `next` that resolved a rank of the run. -/
def State.rankUsers (s : State) (p next first count : Nat) : Nat :=
  (s.sched.ops.filter (fun o => corePdk o.core == p && decide (o.id < next) &&
    o.kind.ranks.any (fun r => decide (first ≤ r) && decide (r < first + count)))).length

/-- RANK_WRITE (R567, R570, R589): the entries, and RANK_SELF and SELF_EPOCH when asked, change in one clock. -/
def execRankWrite (h : Hdr) (first count flags self epoch : Nat) (entries : List Nat) (s : State) : Host.Outcome State Fault Refusal :=
  let p := h.pdk % 16
  let bad := decide (63 < first) || decide (56 < count) || decide (64 < first + count) || decide (3 < flags) || decide (63 < self) ||
    decide (65535 < epoch) || entries.length != count || entries.any (fun e => !rankEntryOk e)
  let outside := entries.any (fun e => rankValid e && rankDev e == s.devId && !s.sameGroup p (rankPdk e))
  .next (s.checked h opRankWrite (firstStatus [failIf bad 0x2C0, failIf outside 0x3A0]) (fun s =>
    let users := s.rankUsers p s.sched.nextOp first count
    let s := s.start h opRankWrite (some (.rankWrite h first count flags self epoch entries)) [p, first, count, s.sched.nextOp, users]
    let s := loopN count (fun k s =>
      let e := nth entries k
      let r := first + k
      let s := (s.wr F.RTE_RANK_VALID p (bitsAt e 63 1) r).wr F.RTE_RANK_DEV p (rankDev e) r
      (s.wr F.RTE_RANK_PADDOCK p (rankPdk e) r).wr F.RTE_RANK_EPOCH p (bitsAt e 32 16) r) s
    let s := if hasBit flags 1 then (s.wr F.RTE_PCFG_RANK_SELF p self).wr F.RTE_PCFG_SELF_EPOCH p epoch else s
    let s := s.tdiConfigChanged p
    if hasBit flags 0 then s else s.complete h 0))

/-- RANK_WRITE_DRAIN_DONE (R570): every transfer that resolved a replaced entry has completed, and every message admitted under one
has been delivered. -/
def execRankWriteDrainDone (h : Hdr) (s : State) : Host.Outcome State Fault Refusal :=
  match s.runningCmd h with
  | some (.rankWrite _ _ _ _ _ _ _) =>
    let g := s.progOf h
    let p := nth g 0
    let hit (r : Nat) : Bool := decide (nth g 1 ≤ r) && decide (r < nth g 1 + nth g 2)
    let early := (List.range 8).any (fun i => (s.earlyOf (8 * p + i)).any (fun e => hit e.rank))
    if 0 < s.rankUsers p (nth g 3) (nth g 1) (nth g 2) ∨ early = true then .next s
    else .next (s.complete h 0 (nth g 4 % 2 ^ 16 * 2 ^ 16))
  | _ => .next s

/-- A PF write of DEV_ID (R592). -/
def execDevIdWrite (v : Nat) (s : State) : Host.Outcome State Fault Refusal :=
  .next ((s.wr F.RTE_DCFG_DEV_ID 0 v).wr F.RTE_DCFG_DEV_VALID 0 1)

/-- A write of 1 to RTE_ERR0.VALID re-arms the record (R592). -/
def execRteErr0ValidClear (p : Fin 16) (s : State) : Host.Outcome State Fault Refusal := .next (s.wr F.RTE_ERR0_VALID p.val 0)

/-- PAGE_SERVER_SET (R582, R589). -/
def execPageServerSet (h : Hdr) (en : Nat) (s : State) : Host.Outcome State Fault Refusal :=
  .next (s.checked h opPageServerSet (failIf (decide (1 < en)) 0x2C0) (fun s =>
    ((s.start h opPageServerSet (some (.pageServerSet h en))).wr F.RTE_PCFG_PSERVER_EN (paddockOf h) en).complete h 0))

/-! ### Transit (R564, R565) -/

/-- The usable HOPS 1 path of entry `d`. -/
def State.onehop (s : State) (d : Nat) : Option Nat := ((s.usablePaths d).find? (fun x => !x.2)).map (fun x => x.1)

/-- TRANSIT_FORWARD (R564): a message for another module goes on once, on VL6, as the die's reserve admits it
(R125), or is discarded. -/
def execTransitForward (port : Fin 12) (vl : Fin 8) (m : Msg) (s : State) : Host.Outcome State Fault Refusal :=
  if m.dstDev = s.devId ∨ s.portActive port.val = false ∨ vl.val = 0 ∨ vl.val = 7 then .next s
  else
    let go : Option Nat := if vl.val ≤ 5 ∧ s.rd F.RTE_DEST_FORWARD 0 m.dstDev = 1 then s.onehop m.dstDev else none
    match go with
    | some q => .next (s.reserve (rsvTransit (q / 6)) 16 (fun s =>
        ((s.consume port.val m).post (some q) 16 6 none m).bump F.RTE_TRANSIT_FWD_COUNT 0))
    | none =>
      let s := (s.consume port.val m).bump F.RTE_TRANSIT_DROP_COUNT 0
      match s.onehop m.srcDev with
      | some q => .next (s.post (some q) 16 5 none ⟨7, m.srcDev, s.devId, m.srcPdk, m.dstPdk, 0, m.place, m.xid, m.k, 0, 0x821, 0, []⟩)
      | none => .next s

/-! ### Mirror pairs (R585 to R588) -/

/-- The designated port that mirror traffic uses: the lowest one that is ACTIVE. -/
def State.mirrorPort (s : State) : Option Nat :=
  (List.range 12).find? (fun q => hasBit s.net.mirrorPorts q && s.portActive q)

/-- Number under which mirror messages are acknowledged (DESIGN CHOICE: log entry 16). -/
def mirrorXid (n : Nat) : Nat := 0x40000000 + n % 0x40000000

/-- A primary sends a whole-sector write to its standby (R586). -/
def State.mirrorWrite (s : State) (p : Nat) (far : Bool) (off : Nat) (bytes : List Byte) : State :=
  if s.rd F.RTE_PCFG_PART p ≠ 1 then s
  else
    match s.mirrorPort with
    | none => s
    | some q =>
      let n := tget 0 s.net.mirrorSent [p] + 1
      let m := { s.mkMsg p 8 (s.rd F.RTE_PCFG_PEER_DEV p) p (mirrorXid n) 0 0 off 0 bytes with flags := b2n far }
      let s := s.bump F.RTE_P_MIRROR_TX_COUNT p
      let s : State := { s with net := { s.net with
        mirrorSent := tset 0 s.net.mirrorSent [p] n
        mirror := s.net.mirror ++ [(p, mirrorXid n)] } }
      s.addLine (msgLine p srcCp (some q) m .msg)

/-- Whether a primary still waits for its standby (R586). -/
def State.mirrorWaits (s : State) (p : Nat) : Bool := s.net.mirror.any (fun x => x.1 == p)

/-- MIRROR_SET (R585, R589). The peer's own quotas are not visible here; the fabric manager issues it on both modules. -/
def execMirrorSet (h : Hdr) (peer ports part fence : Nat) (s : State) : Host.Outcome State Fault Refusal :=
  let partOf (p : Nat) : Nat := bitsAt part (2 * p) 2
  let named := (List.range 16).filter (fun p => partOf p != 0)
  let bad := decide (63 < peer) || peer == s.devId || decide (2 ^ 12 ≤ ports) || decide (2 ^ 32 ≤ part) || decide (2 ^ 16 ≤ fence) ||
    named.any (fun p => partOf p == 3)
  let pathOk (q : Nat) : Bool := (s.usablePaths peer).any (fun x => x.1 == q && !x.2)
  let breaks := named != [] && (ports == 0 || (List.range 12).any (fun q => hasBit ports q && !pathOk q) ||
    named.any (fun p => s.pdkState p == pdkFree || s.pdkState p == pdkHandover || s.pdkState p == pdkOffline))
  .next (s.checked h opMirrorSet
    (firstStatus [failIf bad 0x2C0, failIf (named.any (fun p => s.tdiLocked p)) 0x720, failIf breaks 0x3A1]) (fun s =>
    let s := s.start h opMirrorSet (some (.mirrorSet h peer ports part fence))
    let s : State := { s with net := { s.net with mirrorPorts := ports } }
    let s := loopN 16 (fun p s =>
      let s := (s.wr F.RTE_PCFG_PART p (partOf p)).wr F.RTE_PCFG_FENCE_ON_BREAK p (bitsAt fence p 1)
      let s := if partOf p = 0 then s else s.wr F.RTE_PCFG_PEER_DEV p peer
      { s with net := { s.net with beatAt := tset 0 s.net.beatAt [p] s.now } }) s
    s.complete h 0))

/-- MIRROR_RECEIVE (R586): a standby applies the write under its own keys and acknowledges it. -/
def execMirrorReceive (port : Fin 12) (m : Msg) (s : State) : Host.Outcome State Fault Refusal :=
  match s.takeMsg (some port) m 8 with
  | none => .next s
  | some s =>
    let p := m.dstPdk
    if s.pdkState p = pdkHandover then .next (s.discardMsg m 0x82B)
    else if s.rd F.RTE_PCFG_PART p ≠ 2 ∨ s.rd F.RTE_PCFG_PEER_DEV p ≠ m.srcDev ∨ m.srcPdk ≠ p then .next (s.discardMsg m 0x823)
    else
      let s := s.ucharge p 16
      let s :=
        if hasBit m.flags 0 then
          (match s.farMap p m.target with
            | some (port, fpa) => s.farWrite p (farAddr port fpa) m.data
            | none => s)
        else s.hbmWrite p m.target m.data
      .next (s.ackMsg m 0)

/-- MIRROR_BEAT_RECEIVE (R586). -/
def execMirrorBeatReceive (port : Fin 12) (m : Msg) (s : State) : Host.Outcome State Fault Refusal :=
  match s.takeMsg (some port) m 9 with
  | none => .next s
  | some s =>
    if s.rd F.RTE_PCFG_PART m.dstPdk = 2 ∧ s.rd F.RTE_PCFG_PEER_DEV m.dstPdk = m.srcDev then
      .next { s with net := { s.net with beatAt := tset 0 s.net.beatAt [m.dstPdk] s.now } }
    else .next s

/-- MIRROR_BEAT_SEND (R586). -/
def execMirrorBeatSend (p : Fin 16) (s : State) : Host.Outcome State Fault Refusal :=
  if s.rd F.RTE_PCFG_PART p.val ≠ 1 then .next s
  else
    match s.mirrorPort with
    | none => .next s
    | some q =>
      .next (s.post (some q) p.val 1 none (s.mkMsg p.val 9 (s.rd F.RTE_PCFG_PEER_DEV p.val) p.val 0 0 0 0
        (tget 0 s.net.mirrorSent [p.val]) []))

/-- MIRROR_FAILOVER (R587): every designated port is lost, or no beat has come for 5 ms. -/
def execMirrorFailover (p : Fin 16) (s : State) : Host.Outcome State Fault Refusal :=
  if s.rd F.RTE_PCFG_PART p.val = 2 ∧ (s.mirrorPort.isNone ∨ tget 0 s.net.beatAt [p.val] + 5000000 ≤ s.now) then
    .next ((s.wr F.RTE_PCFG_PART p.val 0).eventBoth p.val 0x48 0 (detailAt 0x10 (s.rd F.RTE_PCFG_PEER_DEV p.val)))
  else .next s

end Sys2Proof.Machine
end

