-- ==== Sys2Proof/Machine/Kv.lean ====
section
/-! DEFINITION. The context store (chapter 11): descriptors, pages, page tables, edits and root swaps, limbo, page moves and the
commands of group 0x3 on them. -/

namespace Sys2Proof.Machine

/-! ### Descriptors (R313 to R317) -/

/-- Place of descriptor `c` in the slice, and the private lists of the store behind it (R385; their layout is the model's: log
entry 20). -/
def descAddr (c : Nat) : Nat := 0x5F0000000 + 64 * c
def listBase : Nat := 0x5F0400000
def farListBase : Nat := 0x5F0500000

def State.desc (s : State) (p c : Nat) : List Byte := s.hbmRead p (descAddr c) 64
def dValid (d : List Byte) : Bool := hasBit (fieldAt d 0 1) 0
def dPin (d : List Byte) : Bool := hasBit (fieldAt d 0 1) 1
def dPrio (d : List Byte) : Nat := fieldAt d 1 1 % 16
def dGen (d : List Byte) : Nat := fieldAt d 2 2
def dFmt (d : List Byte) : Nat := fieldAt d 4 1
def dHead (d : List Byte) : Nat := fieldAt d 5 1
def dHeads (d : List Byte) : Nat := fieldAt d 6 1 + 1
def dDepth (d : List Byte) : Nat := fieldAt d 7 1
def dLayers (d : List Byte) : Nat := fieldAt d 8 2 + 1
def dPlace (d : List Byte) : Nat := fieldAt d 0x0A 2
def dLength (d : List Byte) : Nat := fieldAt d 0x0C 4
def dRoot (d : List Byte) : Nat := fieldAt d 0x10 4
def dLastUse (d : List Byte) : Nat := fieldAt d 0x14 4
def dDefer (d : List Byte) : Nat := fieldAt d 0x2C 4

/-- The bytes with `n` bytes at offset `o` replaced by a number. -/
def setField (d : List Byte) (o n v : Nat) : List Byte := d.take o ++ leBytes v n ++ d.drop (o + n)
/-- The bytes with a number added to a field of them (subtracted where `up` is false). -/
def addField (d : List Byte) (o n x : Nat) (up : Bool := true) : List Byte :=
  setField d o n (if up then fieldAt d o n + x else fieldAt d o n - x)

/-- Bytes of an element of a page format, tokens of a page, and capacity of a context (R315). -/
def kvBytes (fmt : Nat) : Nat := if fmt = 2 then 2 else 1
def pageTokens (fmt head : Nat) : Nat := 16384 / (2 ^ head * kvBytes fmt)
def dTokens (d : List Byte) : Nat := pageTokens (dFmt d) (dHead d)
def dCapacity (d : List Byte) : Nat := dTokens d * 64 ^ dDepth d
/-- Layers times heads, and the directory nodes that hold them (R322). -/
def dLH (d : List Byte) : Nat := dLayers d * dHeads d
def dirNodes (lh : Nat) : Nat := (lh + 63) / 64

/-- A write of the store's own data: whole sectors, which a primary's standby is sent (R323, R586). -/
def State.kvPut (s : State) (p off : Nat) (bytes : List Byte) : State :=
  let s := s.hbmWrite p off bytes
  let a := off / 64 * 64
  s.mirrorWrite p false a (s.hbmRead p a ((off + bytes.length + 63) / 64 * 64 - a))

/-- All fields of a descriptor change in one clock (R317). -/
def State.setDesc (s : State) (p c : Nat) (d : List Byte) : State := s.kvPut p (descAddr c) (d.take 64)

/-- A use of a descriptor through way p of the cache: a miss is counted and charged as a context-walk line (R316). -/
def State.useDesc (s : State) (p c : Nat) : State :=
  if tget 0 s.kv.cache [p, c % 1024] = c + 1 then s
  else
    let s : State := { s with kv := { s.kv with cache := tset 0 s.kv.cache [p, c % 1024] (c + 1) } }
    (s.bump F.CTX_DMISS_COUNT p).ucharge p 40

/-- Whether a context index lies in the quota (R313). -/
def State.inQuota (s : State) (p c : Nat) : Bool := decide (c ≤ s.rd F.PDK_QUOTA_CTX_QUOTA_M1 p)

/-- A reader latches a context (R314, R326): LAST_USE follows. -/
def State.latchUse (s : State) (p c : Nat) : State :=
  s.setDesc p c (setField (s.desc p c) 0x14 4 (bitsAt s.now 20 32))

/-! ### Pages (R318, R319) -/

/-- HBM pages of the tenant range. -/
def poolLimit : Nat := 778240
def farId : Nat := 0x100000

/-- Use of an HBM page: 0 not in the pool, 1 free, 2 data, 3 table, 4 limbo; of a far page: 0 free, 1 data, 2 limbo. -/
def State.pageUse (s : State) (p n : Nat) : Nat := (mget s.mem.hbm (dpaOf p (listBase + n))).toNat
def State.farUse (s : State) (p m : Nat) : Nat := bitsAt (mget s.mem.hbm (dpaOf p (farListBase + m / 4))).toNat (2 * (m % 4)) 2

/-- A count that follows a use: one less when the page leaves it, one more when it enters it. -/
def State.follow (s : State) (f : Fld) (p : Nat) (was is : Bool) : State :=
  if was ∧ is = false then s.wr f p (s.rd f p - 1) else if was = false ∧ is then s.wr f p (s.rd f p + 1) else s

def State.setPageUse (s : State) (p n v : Nat) : State :=
  let o := s.pageUse p n
  let s := s.kvPut p (listBase + n) [BitVec.ofNat 8 v]
  let s := s.follow F.CTX_POOL_FREE_PAGES p (o == 1) (v == 1)
  let s := s.follow F.CTX_POOL_TABLE_PAGES p (o == 3) (v == 3)
  s.follow F.CTX_POOL_POOL_PAGES p (o != 0) (v != 0)
def State.setFarUse (s : State) (p m v : Nat) : State :=
  let o := s.farUse p m
  let b := (mget s.mem.hbm (dpaOf p (farListBase + m / 4))).toNat
  let s := s.kvPut p (farListBase + m / 4) [BitVec.ofNat 8 (setBitsAt b (2 * (m % 4)) 2 v)]
  s.follow F.CTX_LIMBO_FAR_USED p (o != 0) (v != 0)
/-- A page by its ID. -/
def State.setUse (s : State) (p id v : Nat) : State :=
  if id < farId then s.setPageUse p id v else s.setFarUse p (id - farId) (if v = 1 then 0 else if v = 2 then 1 else 2)

/-- Whether a page ID is legal (R318). -/
def State.legalPage (s : State) (p id : Nat) : Bool :=
  if id < farId then decide (id < poolLimit) && s.pageUse p id != 0 else decide (id - farId < s.rd F.CTX_FARCFG_FAR_KV p)

/-- Bytes of the private lists that are not 0, as (offset, byte). -/
def State.listBytes (s : State) (p base n : Nat) : List (Nat × Nat) :=
  s.mem.hbm.filterMap (fun e =>
    let a := dpaOf p base
    if a ≤ e.1 ∧ e.1 < a + n then some (e.1 - a, e.2.toNat) else none)

/-- Free HBM pages of the pool; far pages in use; free far pages below FAR_KV. -/
def State.freePages (s : State) (p : Nat) : List Nat :=
  (s.listBytes p listBase poolLimit).filterMap (fun e => if e.2 = 1 then some e.1 else none)
def State.farUsed (s : State) (p : Nat) : List Nat :=
  (s.listBytes p farListBase 0x3C0000).flatMap (fun e =>
    (List.range 4).filterMap (fun k => if bitsAt e.2 (2 * k) 2 = 0 then none else some (4 * e.1 + k)))
def State.freeFar (s : State) (p : Nat) : List Nat :=
  (List.range (s.rd F.CTX_FARCFG_FAR_KV p)).filter (fun m => s.farUse p m == 0)

/-- `n` pages of a free list. The spec does not say which free page an edit takes: the choice is a free value (log entry 21). -/
def pickPages : Nat → Nat → List Nat → List Nat
  | 0, _, _ => []
  | _ + 1, _, [] => []
  | _ + 1, _, [x] => [x]
  | n + 1, seed, l =>
    let x := nth l (Config.freeNat seed % l.length)
    x :: pickPages n (seed + 1) (l.erase x)

/-- Pages taken for a use: their IDs, and the state in which they are no longer free. -/
def State.takePages (s : State) (p n use : Nat) (far : Bool) : State × List Nat :=
  let ids := if far then (pickPages n s.free (s.freeFar p)).map (fun m => farId + m) else pickPages n s.free (s.freePages p)
  let s : State := { s with free := s.free + n }
  (ids.foldl (fun s id => s.setUse p id use) s, ids)

/-- The device pointer of a page. -/
def pagePtr (id : Nat) : Nat := if id < farId then id * 0x8000 else 2 * 2 ^ 62 + (id - farId) * 0x8000

/-! ### Page tables (R320 to R323) -/

def nodeAddr (np : Nat) : Nat := np / 64 * 0x8000 + 512 * (np % 64)
def State.entry (s : State) (p np i : Nat) : Nat := leNat (s.hbmRead p (nodeAddr np + 8 * i) 8)
def eValid (e : Nat) : Bool := hasBit e 63
def eDropped (e : Nat) : Bool := hasBit e 62
def eMoving (e : Nat) : Bool := hasBit e 61
/-- A valid entry that names a node or a page. -/
def validEntry (target : Nat) : Nat := 2 ^ 63 + target
def droppedEntry : Nat := 2 ^ 62

/-- The node that an entry names, when it is valid and its page is legal (R319, R321). -/
def State.nodeOf (s : State) (p e : Nat) : Option Nat :=
  if eValid e ∧ bitsAt e 26 6 = 0 ∧ s.legalPage p (bitsAt e 6 20) = true then some (bitsAt e 0 26) else none

/-- A leaf entry as a walk sees it: one that names an illegal page is not valid (R319). -/
def State.leafSeen (s : State) (p e : Nat) : Nat :=
  if eValid e ∧ (bitsAt e 24 8 ≠ 0 ∨ s.legalPage p (bitsAt e 0 24) = false) then e - 2 ^ 63 else e

/-- The address of leaf entry `i` below a node at level L, when every node on the path exists. -/
def State.walk (s : State) (p : Nat) : Nat → Nat → Nat → Option Nat
  | 0, np, i => some (nodeAddr np + 8 * (i % 64))
  | l + 1, np, i =>
    match s.nodeOf p (s.entry p np (i / 64 ^ (l + 1) % 64)) with
    | some q => s.walk p l q i
    | none => none

/-- Top node of directory entry `e` of a descriptor, and the address of its leaf entry for token page `i` (R322). -/
def State.topNode (s : State) (p : Nat) (d : List Byte) (e : Nat) : Option Nat :=
  s.nodeOf p (s.entry p (dRoot d + e / 64) (e % 64))
def State.leafAddr (s : State) (p : Nat) (d : List Byte) (e i : Nat) : Option Nat :=
  (s.topNode p d e).bind (fun np => s.walk p (dDepth d - 1) np i)
/-- The leaf entry of token page `i` for directory entry `e`; 0 when it is not allocated. -/
def State.leaf (s : State) (p : Nat) (d : List Byte) (e i : Nat) : Nat :=
  match s.leafAddr p d e i with
  | some a => s.leafSeen p (leNat (s.hbmRead p a 8))
  | none => 0

/-- Page that a leaf entry names; whether it is resident, or a far page at rest (R322). -/
def ePage (e : Nat) : Nat := bitsAt e 0 24
def eResident (e : Nat) : Bool := eValid e && !eMoving e && decide (ePage e < farId)
def eFar (e : Nat) : Bool := eValid e && !eMoving e && decide (farId ≤ ePage e)

/-- Whether a leaf property holds for token page `i` in all layers and heads. -/
def State.allLeaves (s : State) (p : Nat) (d : List Byte) (i : Nat) (f : Nat → Bool) : Bool :=
  (List.range (dLH d)).all (fun e => f (s.leaf p d e i))

/-- Nodes and pages below a node at level L. -/
def State.subtree (s : State) (p : Nat) : Nat → Nat → List Nat × List Nat
  | 0, np => ([np], (List.range 64).filterMap (fun x =>
      let e := s.leafSeen p (s.entry p np x)
      if eValid e then some (ePage e) else none))
  | l + 1, np =>
    (List.range 64).foldl (fun acc x =>
      match s.nodeOf p (s.entry p np x) with
      | some q => let r := s.subtree p l q; (acc.1 ++ r.1, acc.2 ++ r.2)
      | none => acc) ([np], [])

/-- Every node (the directory's first) and every page of a context. -/
def State.treeOf (s : State) (p : Nat) (d : List Byte) : List Nat × List Nat :=
  (List.range (dLH d)).foldl (fun acc e =>
    match s.topNode p d e with
    | some np => let r := s.subtree p (dDepth d - 1) np; (acc.1 ++ r.1, acc.2 ++ r.2)
    | none => acc) ((List.range (dirNodes (dLH d))).map (fun j => dRoot d + j), [])

/-- Whether a context's descriptor or one of its nodes lies in a poisoned sector (R414). -/
def State.kvPoisoned (s : State) (p c : Nat) : Bool :=
  s.ptrPoison p (descAddr c) 64 || (dValid (s.desc p c) && (s.treeOf p (s.desc p c)).1.any (fun np => s.ptrPoison p (nodeAddr np) 512))

/-! ### Limbo (R327) -/

/-- CTX_LIMBO.ENTRIES. -/
def State.limboOf (s : State) (p : Nat) : List Limbo := s.kv.limbo.filter (fun x => x.pdk == p)
def limboCap : Nat := 65536
def State.addLimbo (s : State) (x : Limbo) : State :=
  let s : State := { s with kv := { s.kv with limbo := s.kv.limbo ++ [x] } }
  s.wr F.CTX_LIMBO_ENTRIES x.pdk (s.limboOf x.pdk).length

/-- A page goes to limbo. -/
def State.limboPage (s : State) (p id tag : Nat) : State := (s.setUse p id 4).addLimbo ⟨p, if id < farId then 0 else 1, id, tag⟩
/-- A node goes to limbo, and with the last live node of its table page that page. -/
def State.limboNode (s : State) (p np tag : Nat) : State :=
  let n := tget 0 s.kv.nodes [p, np / 64] - 1
  let s : State := { s with kv := { s.kv with nodes := tset 0 s.kv.nodes [p, np / 64] n } }
  let s := s.addLimbo ⟨p, 2, np, tag⟩
  if n = 0 then s.limboPage p (np / 64) tag else s

/-- MIN_HELD (R326). -/
def State.minHeld (s : State) (p : Nat) : Nat := s.rd F.CTX_MINHELD_MIN_HELD p

/-! ### Edits and root swaps (R324, R325) -/

/-- The root swap: ROOT, the pass epoch and SWAP_EPOCH change in one clock; what is no longer reachable goes to limbo with the
epoch that the swap replaced. -/
def State.rootSwap (s : State) (p c : Nat) (d : List Byte) (root : Nat) (oldNodes oldPages : List Nat) : State :=
  let e := s.rd F.CTX_EPOCH_EPOCH p
  let s := s.wr F.CTX_EPOCH_EPOCH p (e + 1)
  let s := s.setDesc p c (setField (setField d 0x10 4 root) 0x20 8 (e + 1))
  let s := oldNodes.foldl (fun s np => s.limboNode p np e) s
  let s := oldPages.foldl (fun s id => s.limboPage p id e) s
  (s.bump F.CTX_SWAPS_COUNT p).syncHeld p

/-- A node written whole, in a table page. -/
def State.putNode (s : State) (p np : Nat) (es : List Nat) : State :=
  let s : State := { s with kv := { s.kv with nodes := tset 0 s.kv.nodes [p, np / 64] (tget 0 s.kv.nodes [p, np / 64] + 1) } }
  s.kvPut p (nodeAddr np) ((List.range 64).flatMap (fun x => leBytes (nth es x) 8))

/-- Where new nodes stand (DESIGN CHOICE: log entry 20): in fresh table pages, in order, 64 a page; the directory's nodes follow in
one page. Index of the first of `dn` directory nodes after `n` others, and the pages that all need. -/
def dirSlot (n dn : Nat) : Nat := if n % 64 + dn ≤ 64 then n else (n / 64 + 1) * 64
def pagesFor (n dn : Nat) : Nat := (dirSlot n dn + dn + 63) / 64
/-- Node pointer of new node `k` in the pages taken for an edit. -/
def slotIn (pages : List Nat) (k : Nat) : Nat := nth pages (k / 64) * 64 + k % 64

/-- New nodes for the changed leaf entries below a node at level L (R325): `ch` gives token pages and their new entries; answers
the nodes made so far, the nodes they replace, and the pointer of the new top. -/
def State.rebuild (s : State) (p : Nat) (ptr : Nat → Nat) :
    Nat → Option Nat → Nat → List (Nat × Nat) → List (List Nat) → List (List Nat) × List Nat × Nat
  | 0, np, base, ch, acc =>
    let es := (List.range 64).map (fun x =>
      match ch.find? (fun c => c.1 == base * 64 + x) with
      | some c => c.2
      | none => (np.map (fun q => s.entry p q x)).getD 0)
    (acc ++ [es], np.toList, ptr acc.length)
  | l + 1, np, base, ch, acc =>
    let r := (List.range 64).foldl (fun (r : List (List Nat) × List Nat × List Nat) x =>
      let mine := ch.filter (fun c => c.1 / 64 ^ (l + 1) == base * 64 + x)
      let e := (np.map (fun q => s.entry p q x)).getD 0
      if mine = [] then (r.1, r.2.1, r.2.2 ++ [e])
      else
        let y := s.rebuild p ptr l (s.nodeOf p e) (base * 64 + x) mine r.1
        (y.1, r.2.1 ++ y.2.1, r.2.2 ++ [validEntry y.2.2])) (acc, [], [])
    (r.1 ++ [r.2.2], np.toList ++ r.2.1, ptr r.1.length)

/-- The new tree of a context with changed leaf entries (directory entry, token page, new entry): nodes, directory entries, and
the nodes that they replace, the old directory among them. -/
def State.newTree (s : State) (p : Nat) (d : List Byte) (ptr : Nat → Nat) (ch : List (Nat × Nat × Nat)) :
    List (List Nat) × List Nat × List Nat :=
  (List.range (dLH d)).foldl (fun (r : List (List Nat) × List Nat × List Nat) e =>
    let mine := (ch.filter (fun c => c.1 == e)).map (fun c => c.2)
    let old := s.entry p (dRoot d + e / 64) (e % 64)
    if mine = [] then (r.1, r.2.1 ++ [old], r.2.2)
    else
      let y := s.rebuild p ptr (dDepth d - 1) (s.nodeOf p old) 0 mine r.1
      (y.1, r.2.1 ++ [validEntry y.2.2], r.2.2 ++ y.2.1))
    ([], [], (List.range (dirNodes (dLH d))).map (fun j => dRoot d + j))

/-- Table pages that changing these leaf entries takes. -/
def State.tableNeed (s : State) (p : Nat) (d : List Byte) (ch : List (Nat × Nat × Nat)) : Nat :=
  pagesFor (s.newTree p d id ch).1.length (dirNodes (dLH d))

/-- New nodes and a directory are written into fresh pages; answers the new ROOT. -/
def State.putTree (s : State) (p : Nat) (pages : List Nat) (nodes : List (List Nat)) (dir : List Nat) (dn : Nat) : State × Nat :=
  let k := dirSlot nodes.length dn
  let s := loopN nodes.length (fun j s => s.putNode p (slotIn pages j) ((nodes[j]?).getD [])) s
  let s := loopN dn (fun j s => s.putNode p (slotIn pages (k + j)) ((dir.drop (64 * j)).take 64)) s
  (s, slotIn pages k)

/-- One root swap to a tree with changed leaf entries; `d` is the descriptor with its other changes (R325). -/
def State.changeLeaves (s : State) (p c : Nat) (d : List Byte) (ch : List (Nat × Nat × Nat)) (oldPages : List Nat) : State :=
  let (s, pages) := s.takePages p (s.tableNeed p d ch) 3 false
  let t := s.newTree p d (slotIn pages) ch
  let (s, root) := s.putTree p pages t.1 t.2.1 (dirNodes (dLH d))
  s.rootSwap p c d root t.2.2 oldPages

/-! ### The edit executor (R324, R327, R493) -/

/-- A completion that waits, on a primary, for its mirror acknowledgements (R586). -/
def State.kvDone (s : State) (h : Hdr) (status : Nat) (result : Nat := 0) : State :=
  if s.mirrorWaits (paddockOf h) then { s with kv := { s.kv with held := s.kv.held ++ [(h, status, result)] } }
  else s.complete h status result
/-- Completions whose mirror acknowledgements have all come. -/
def State.flushHeld (s : State) (p : Nat) : State :=
  if s.mirrorWaits p then s
  else
    let mine := s.kv.held.filter (fun x => paddockOf x.1 == p)
    let s : State := { s with kv := { s.kv with held := s.kv.held.filter (fun x => paddockOf x.1 != p) } }
    mine.foldl (fun s x => s.complete x.1 x.2.1 x.2.2) s

def State.moveOf (s : State) (p : Nat) : Option Move := s.kv.moves.find? (fun m => m.pdk == p)
def State.setMove (s : State) (m : Move) : State :=
  { s with kv := { s.kv with moves := s.kv.moves.map (fun x => if x.pdk = m.pdk then m else x) } }
def State.editsOf (s : State) (p : Nat) : List (Hdr × Instr) := tget [] s.kv.edits [p]
def State.setEdits (s : State) (p : Nat) (l : List (Hdr × Instr)) : State :=
  { s with kv := { s.kv with edits := tset [] s.kv.edits [p] l } }
/-- An edit whose limbo entries do not fit waits (R327). -/
def State.fitsLimbo (p : Nat) (t : State) : Option State := if limboCap < (t.limboOf p).length then none else some t

/-- The frame of an edit on a valid context: poison, then validity (R350, R414). -/
def State.onContext (s : State) (h : Hdr) (c : Nat) (go : List Byte → State) : State :=
  let p := paddockOf h
  let s := s.useDesc p c
  if s.kvPoisoned p c then s.kvDone h 0x531
  else if dValid (s.desc p c) = false then s.kvDone h 0x343
  else go (s.desc p c)

/-- Token pages that a token range touches, and those that lie wholly within it. -/
def pagesTouched (t lo hi : Nat) : List Nat := (List.range ((hi + t - 1) / t)).filter (fun i => decide (lo < (i + 1) * t))
def pagesWithin (t lo hi : Nat) : List Nat := (List.range (hi / t)).filter (fun i => decide (lo ≤ i * t))
/-- A token range of a context is in range (R350). -/
def rangeBad (d : List Byte) (lo hi : Nat) : Bool := decide (hi ≤ lo) || decide (dCapacity d < hi)

/-- CTX_CREATE (R350). -/
def State.doCreate (s : State) (h : Hdr) (c fmt head kvHeadsM1 depth layersM1 place prio flags tag : Nat) : State :=
  let p := paddockOf h
  let s := s.useDesc p c
  let d := s.desc p c
  if s.kvPoisoned p c then s.kvDone h 0x531
  else
    let dn := dirNodes ((layersM1 + 1) * (kvHeadsM1 + 1))
    let need := pagesFor 0 dn
    if s.rd F.CTX_POOL_FREE_PAGES p < need then s.kvDone h 0x341
    else
      let old := if dValid d then s.treeOf p d else ([], [])
      let gen := (dGen d + 1) % 65536
      let n := [BitVec.ofNat 8 (1 + 2 * (flags % 2)), BitVec.ofNat 8 prio] ++ leBytes gen 2 ++
        [BitVec.ofNat 8 fmt, BitVec.ofNat 8 head, BitVec.ofNat 8 kvHeadsM1, BitVec.ofNat 8 depth] ++ leBytes layersM1 2 ++
        leBytes place 2 ++ leBytes 0 4 ++ leBytes 0 4 ++ (d.drop 0x14).take 4 ++ leBytes 0 8 ++ (d.drop 0x20).take 8 ++
        (if dDefer d = 0 then leBytes 0xFFFFFFFF 4 else (d.drop 0x28).take 4) ++ (d.drop 0x2C).take 4 ++ leBytes tag 8 ++ leBytes 0 8
      let (s, pages) := s.takePages p need 3 false
      let (s, root) := s.putTree p pages [] (List.replicate (64 * dn) 0) dn
      (s.rootSwap p c n root old.1 old.2).kvDone h 0 (gen * 2 ^ 16)

/-- CTX_DESTROY (R350). -/
def State.doDestroy (s : State) (h : Hdr) (c : Nat) : State :=
  let p := paddockOf h
  s.onContext h c (fun d =>
    let s := s.useDesc p c
    let old := s.treeOf p d
    let gen := (dGen d + 1) % 65536
    let n := setField (setField d 0 1 (fieldAt d 0 1 - 1)) 2 2 gen
    let n := setField (setField n 0x18 4 0) 0x1C 4 0
    (s.rootSwap p c n 0 old.1 old.2).kvDone h 0 (gen * 2 ^ 16))

/-- CTX_SET (R350). -/
def State.doSet (s : State) (h : Hdr) (c select prio flags length tag : Nat) : State :=
  let p := paddockOf h
  s.onContext h c (fun d =>
    let s := s.useDesc p c
    if hasBit select 3 ∧ dCapacity d < length then s.kvDone h 0x240
    else
      let d := if hasBit select 0 then setField d 1 1 prio else d
      let d := if hasBit select 1 then setField d 0 1 (1 + 2 * (flags % 2)) else d
      let d := if hasBit select 2 then setField d 0x30 8 tag else d
      let d := if hasBit select 3 then setField d 0x0C 4 length else d
      (s.setDesc p c d).kvDone h 0)

/-- KV_POOL_ADD and KV_POOL_REMOVE (R319, R350). -/
def State.doPoolAdd (s : State) (h : Hdr) (n0 k : Nat) : State :=
  let p := paddockOf h
  if poolLimit < n0 + k ∨ s.rd F.PDK_QUOTA_HBM_POOL_PAGES p < s.rd F.CTX_POOL_POOL_PAGES p + k ∨
      (List.range k).any (fun j => s.pageUse p (n0 + j) != 0) = true then s.kvDone h 0x344
  else (loopN k (fun j s => s.setPageUse p (n0 + j) 1) s).kvDone h 0
def State.doPoolRemove (s : State) (h : Hdr) (n0 k : Nat) : State :=
  let p := paddockOf h
  if poolLimit < n0 + k ∨ (List.range k).any (fun j => s.pageUse p (n0 + j) != 1) = true then s.kvDone h 0x345
  else (loopN k (fun j s => s.setPageUse p (n0 + j) 0) s).kvDone h 0

/-- Pairs of a directory entry and a token page of which a leaf property holds. -/
def State.leavesIn (s : State) (p : Nat) (d : List Byte) (is : List Nat) (f : Nat → Bool) : List (Nat × Nat) :=
  (List.range (dLH d)).flatMap (fun e => is.filterMap (fun i => if f (s.leaf p d e i) then some (e, i) else none))

/-- KV_MAP (R350): by one swap, or not at all. -/
def State.doMap (s : State) (h : Hdr) (c tier lo hi : Nat) : State :=
  let p := paddockOf h
  s.onContext h c (fun d =>
    let s := s.useDesc p c
    if rangeBad d lo hi then s.kvDone h 0x240
    else
      let want := s.leavesIn p d (pagesTouched (dTokens d) lo hi) (fun e => !eValid e)
      let n := want.length
      let need := s.tableNeed p d (want.map (fun w => (w.1, w.2, 0)))
      let free := s.rd F.CTX_POOL_FREE_PAGES p
      if n = 0 then s.kvDone h 0
      else if tier = 1 ∧ (s.freeFar p).length < n then s.kvDone h 0x342
      else if free < need + (if tier = 0 then n else 0) then s.kvDone h 0x341
      else
        let (s, ids) := s.takePages p n 2 (tier == 1)
        let ch := (want.zip ids).map (fun x => (x.1.1, x.1.2, validEntry x.2))
        (s.changeLeaves p c (addField d (if tier = 0 then 0x18 else 0x1C) 4 n) ch []).kvDone h 0 (n * 2 ^ 32))

/-- Leaf entries change to one value and their pages go to limbo; answers the state and the number of pages. -/
def State.releaseLeaves (s : State) (p c : Nat) (d : List Byte) (ls : List (Nat × Nat)) (e : Nat) : State × Nat :=
  let pages := ls.filterMap (fun x =>
    let y := s.leaf p d x.1 x.2
    if eValid y then some (ePage y) else none)
  let far := (pages.filter (fun id => decide (farId ≤ id))).length
  let d := addField (addField d 0x18 4 (pages.length - far) false) 0x1C 4 far false
  (s.changeLeaves p c d (ls.map (fun x => (x.1, x.2, e))) pages, pages.length)

/-- KV_UNMAP (R350). -/
def State.doUnmap (s : State) (h : Hdr) (c lo hi : Nat) : State :=
  let p := paddockOf h
  s.onContext h c (fun d =>
    let s := s.useDesc p c
    if rangeBad d lo hi then s.kvDone h 0x240
    else
      let ls := s.leavesIn p d (pagesWithin (dTokens d) lo hi) (fun e => eValid e || eDropped e)
      if ls = [] then s.kvDone h 0
      else if s.rd F.CTX_POOL_FREE_PAGES p < s.tableNeed p d (ls.map (fun x => (x.1, x.2, 0))) then s.kvDone h 0x341
      else (s.releaseLeaves p c d ls 0).1.kvDone h 0)

/-- Dropping token pages of a context (R344): answers the pages dropped, none when no table page is free. -/
def State.dropPages (s : State) (p c : Nat) (is : List Nat) : Option (State × Nat) :=
  let d := s.desc p c
  let ls := s.leavesIn p d is eValid
  if ls = [] then some (s, 0)
  else if s.rd F.CTX_POOL_FREE_PAGES p < s.tableNeed p d (ls.map (fun x => (x.1, x.2, 0))) then none
  else
    let r := s.releaseLeaves p c d ls droppedEntry
    some (r.1.bump F.CTX_DROPPED_COUNT p 0 r.2, r.2)

/-- KV_DROP (R344). -/
def State.doDrop (s : State) (h : Hdr) (c lo hi : Nat) : State :=
  let p := paddockOf h
  s.onContext h c (fun d =>
    let s := s.useDesc p c
    if rangeBad d lo hi then s.kvDone h 0x240
    else
      match s.dropPages p c (pagesWithin (dTokens d) lo hi) with
      | none => s.kvDone h 0x341
      | some (s, n) => s.kvDone h 0 (n * 2 ^ 32))

/-! ### Page moves (R341, R342) -/

/-- The bit MOVING of a token page's leaf entries, in place (R323). -/
def State.markMoving (s : State) (p : Nat) (d : List Byte) (i : Nat) (on : Bool) : State :=
  loopN (dLH d) (fun e s =>
    match s.leafAddr p d e i with
    | none => s
    | some a =>
      let x := leNat (s.hbmRead p a 8)
      if eValid x then s.kvPut p a (leBytes (if on then setBit x 61 else clrBit x 61) 8) else s) s

/-- Steps 1 and 2 for the move's next token page: target pages are allocated and MOVING is set. -/
def State.beginPage (s : State) (m : Move) : State :=
  let p := m.pdk
  let d := s.desc p m.ctx
  match m.todo with
  | [] => s
  | i :: _ =>
    let (s, ids) := s.takePages p (dLH d) 2 m.toFar
    let s := s.markMoving p d i true
    let rows := (s.kv.rows.filter (fun r => r.pdk == p)).map (fun r => r.id)
    s.setMove { m with
      pages := (List.range (dLH d)).map (fun e => (e, ePage (s.leaf p d e i), nth ids e))
      waits := rows
      copying := false }

/-- A move of token pages begins. -/
def State.beginMove (s : State) (h : Option Hdr) (p c : Nat) (toFar : Bool) (is : List Nat) : State :=
  let m : Move := ⟨h, p, c, toFar, is, [], [], false, 0⟩
  State.beginPage { s with kv := { s.kv with moves := s.kv.moves ++ [m] } } m

/-- Token pages of a context that a move in a direction takes. -/
def State.movable (s : State) (p : Nat) (d : List Byte) (toFar : Bool) (is : List Nat) : List Nat :=
  is.filter (fun i => s.allLeaves p d i (if toFar then eResident else eFar))
/-- The status that keeps these token pages from moving, for lack of pages, else 0. -/
def State.moveLack (s : State) (p : Nat) (d : List Byte) (toFar : Bool) (is : List Nat) : Nat :=
  let tables := is.foldl (fun n i => n + s.tableNeed p d ((List.range (dLH d)).map (fun e => (e, i, 0)))) 0
  let n := is.length * dLH d
  let free := s.rd F.CTX_POOL_FREE_PAGES p
  firstStatus [failIf (toFar && decide ((s.freeFar p).length < n)) 0x342,
    failIf (decide (free < tables + (if toFar then 0 else n))) 0x341]

/-- KV_DEMOTE and KV_PROMOTE (R341). -/
def State.doMove (s : State) (h : Hdr) (c lo hi : Nat) (toFar : Bool) : State :=
  let p := paddockOf h
  s.onContext h c (fun d =>
    let s := s.useDesc p c
    if rangeBad d lo hi then s.kvDone h 0x240
    else
      let is := s.movable p d toFar (pagesWithin (dTokens d) lo hi)
      let st := s.moveLack p d toFar is
      if st ≠ 0 then s.kvDone h st
      else if is = [] then s.kvDone h 0
      else s.beginMove (some h) p c toFar is)

end Sys2Proof.Machine
end

