-- ==== Sys2Proof/Machine/Append.lean ====
section
/-! DEFINITION. The append path (chapter 11): append transfers and their rows at the destination, deferred rows, the scatter step;
rotary codes (R272 to R274). -/

namespace Sys2Proof.Machine

/-! ### Rotary codes -/

/-- Fields of a rotary control field (R272). -/
def rotEn (r : Nat) : Bool := hasBit r 31
def rotSplit (r : Nat) : Bool := bitsAt r 29 2 = 1
def rotTable (r : Nat) : Nat := bitsAt r 27 2
def rotPairs (r : Nat) : Nat := bitsAt r 20 7 + 1
/-- Whether a control field breaks R272 for a head size. -/
def rotBad (r d : Nat) : Bool :=
  decide (2 ^ 32 ≤ r) || (!rotEn r && r != 0) || (rotEn r && (decide (2 ≤ bitsAt r 29 2) || bitsAt r 0 20 != 0 || decide (d < 2 * rotPairs r)))

/-- Sine and cosine of a 48-bit phase: exact at quarter turns, else a value of the units (R257, R274). -/
def rotTrig (sin : Bool) (phase : Nat) : Fp :=
  if phase % 2 ^ 46 = 0 then
    let q := (phase / 2 ^ 46 + (if sin then 0 else 1)) % 4
    .fin (if q = 1 then 1 else if q = 3 then -1 else 0) 0
  else f32 (canon32 (Config.rotaryTrig sin phase))

/-- Element `j` of a head vector after rotation at `pos` (R272, R274): `x j` are its elements before. -/
def State.rotated (s : State) (p r pos : Nat) (x : Nat → Nat) (j : Nat) : Nat :=
  let n := rotPairs r
  if rotEn r = false ∨ 2 * n ≤ j then x j
  else
    let i := if rotSplit r then j % n else j / 2
    let low := if rotSplit r then decide (j < n) else j % 2 = 0
    let a := f32 (x (if rotSplit r then i else 2 * i))
    let b := f32 (x (if rotSplit r then i + n else 2 * i + 1))
    let phase := pos * tget 0 s.rotary [p, rotTable r, i] % 2 ^ 48
    let c := rotTrig false phase
    let t := rotTrig true phase
    if low then (toF32 ((a.mul c).add (b.mul t).neg)).1 else (toF32 ((a.mul t).add (b.mul c))).1

/-! ### The transfer (R328 to R331) -/

/-- Fields of the append header (R329). -/
def hLayer (h : List Byte) : Nat := fieldAt h 0 2
def hHead0 (h : List Byte) : Nat := fieldAt h 2 1
def hFlags (h : List Byte) : Nat := fieldAt h 3 1
def hValue (h : List Byte) : Bool := hasBit (hFlags h) 0
def hHalf (h : List Byte) : Nat := bitsAt (hFlags h) 1 1
def hLenOp (h : List Byte) : Nat := bitsAt (hFlags h) 2 2
def hRot (h : List Byte) : Nat := fieldAt h 4 4
def hFmt (h : List Byte) : Nat := fieldAt h 8 1
def hHead (h : List Byte) : Nat := fieldAt h 9 1
def hRank (h : List Byte) : Nat := fieldAt h 0x0A 1
def hPlace (h : List Byte) : Nat := fieldAt h 0x0C 2

/-- Whether an append header breaks R329. A RANK that names neither a rank nor this paddock is such a breach (DEDUCED: log entry
22). -/
def headerBad (h : List Byte) : Bool :=
  (List.range 0x1F0).any (fun j => fieldAt h (0x10 + j) 1 != 0) || bitsAt (hFlags h) 4 4 != 0 || fieldAt h 0x0B 1 != 0 ||
    fieldAt h 0x0E 2 != 0 || decide (2 < hFmt h) || decide (hHead h < 6) || decide (8 < hHead h) ||
    (hHalf h = 1 && hHead h != 8) || hLenOp h = 3 || rotBad (hRot h) (2 ^ hHead h) ||
    (rotEn (hRot h) && (hValue h || (rotSplit (hRot h) && hHead h = 8))) || (decide (63 < hRank h) && hRank h != 0xFF)

/-- KV_APPEND (R328): the mover reads three map rows, one a tick. -/
def execKvAppend (a : At) (errs : List ShelfErr) (s : State) : Host.Outcome State Fault Refusal :=
  .next (s.issueAs opcAppend a (fun x s =>
    let i := s.opTick x.c
    let f := rowField (bitsAt x.w 80 16)
    let reads := placeReads i ((List.range 3).map (fun k => (k, k, f.place k))) errs
    let s := s.addOp x.c x.side x.st x.pos (bitsAt x.w 56 24) none (.append ⟨reads, [], false, 0⟩)
    { s with sched := { s.sched with busy := tset 0 s.sched.busy [x.c, x.st] (i + 3) } }))

/-- An append tile whose hand-over is due (R204, R206). -/
def State.handoffDue (s : State) (c : Nat) : Option (Op × Tile) :=
  s.sched.ops.findSome? (fun o => match o.kind with
    | .tile t => if o.core = c ∧ tOut t.word = 1 ∧ t.claim + 8 ≤ s.opTick c then some (o, t) else none
    | _ => none)

def State.setAppBuf (s : State) (c m : Nat) (l : List AppTile) : State :=
  { s with sched := { s.sched with appBufs := tset [] s.sched.appBufs [c, m] l } }

/-- KV_APPEND_HANDOFF (R204, R206, R213): the tile goes to its mover's append buffer; one that fails a row check is discarded. -/
def execKvAppendHandoff (core : Fin 128) (upsets : List (Nat × Nat)) (s : State) : Host.Outcome State Fault Refusal :=
  let c := core.val
  match s.handoffDue c with
  | none => .next s
  | some (o, t) =>
    if s.coreLive c = false then .next s
    else
      let r := t.compute upsets s.free
      let s : State := { s with free := s.free + 128 }
      let s := s.bump F.MXE_TILES_COUNT c
      let m := tMover t.word
      let s := if r.checks.any RowCheck.failed then s.dropOp o
        else (s.setAppBuf c m (s.appBufOf c m ++ [⟨r.rows.flatMap (fun l => l.map (fun e => e.hi)), t.poisoned, o.side, o.position⟩])).completeOp o
      .next ((s.tileChecks o t r).syncMxe c)

/-- Tile row `m` rotated and converted to the page format (R206, R331): bytes and categories. -/
def State.appendBytes (s : State) (p : Nat) (h : List Byte) (pos : Nat) (row : List Nat) : List Byte × List NumCat :=
  let d := 2 ^ hHead h
  let fmt := if hFmt h = 0 then e4m3 else if hFmt h = 1 then e5m2 else bf16
  let base (n : Nat) : Nat := if d = 256 then 0 else n / d * d
  let off := if d = 256 then 128 * hHalf h else 0
  let es := (List.range 128).map (fun n =>
    let b := base n
    let v := s.rotated p (hRot h) pos (fun j => nth row (b + j - off)) (n - b + off)
    fmt.write false false (f32 v))
  (es.flatMap (fun e => leBytes e.1 (kvBytes (hFmt h))), es.map (fun e => e.2))

/-! ### Rows at the destination (R332 to R335) -/

/-- Heads that a row of this header holds (R331), and where in a page head `k` of the row goes: offset, bytes. -/
def hHeads (h : List Byte) : Nat := if hHead h = 8 then 1 else 128 / 2 ^ hHead h
def hVecBytes (h : List Byte) : Nat := min 128 (2 ^ hHead h) * kvBytes (hFmt h)
def hOffset (h : List Byte) (pos : Nat) : Nat :=
  let t := pageTokens (hFmt h) (hHead h)
  (if hValue h then 16384 else 0) + pos % t * (2 ^ hHead h * kvBytes (hFmt h)) + hHalf h * 128 * kvBytes (hFmt h)

/-- Orders 1 to 3 of R332: whether the row is discarded. -/
def State.rowDiscarded (s : State) (p : Nat) (h : List Byte) (c gen pos : Nat) : Bool :=
  let d := s.desc p c
  !s.inQuota p c || !dValid d || gen != dGen d || hPlace h != dPlace d || hFmt h != dFmt d || hHead h != dHead d ||
    decide (dLayers d ≤ hLayer h) || decide (dHeads d < hHead0 h + hHeads h) || decide (dCapacity d ≤ pos)

/-- The leaf entry of each head of a row. -/
def State.rowLeaves (s : State) (p : Nat) (h : List Byte) (c pos : Nat) : List Nat :=
  let d := s.desc p c
  (List.range (hHeads h)).map (fun k => s.leaf p d (hLayer h * dHeads d + hHead0 h + k) (pos / dTokens d))

/-- LEN_OP of a written row (R333). -/
def State.applyLen (s : State) (p : Nat) (h : List Byte) (c pos : Nat) : State :=
  let d := s.desc p c
  if hLenOp h = 1 then s.setDesc p c (setField d 0x0C 4 (max (dLength d) (pos + 1)))
  else if hLenOp h = 2 then s.setDesc p c (setField d 0x0C 4 (pos + 1))
  else s

/-- The overflow row of a deferred row (R334). -/
def deferRow (h : List Byte) (c gen pos : Nat) (bytes : List Byte) : List Byte :=
  padRow (leBytes c 2 ++ leBytes gen 2 ++ leBytes (hPlace h) 2 ++ leBytes (hLayer h) 2 ++ leBytes pos 4 ++
    leBytes (hHead0 h) 1 ++ leBytes (hFlags h) 1 ++ leBytes (hHead h) 1 ++ leBytes (hFmt h) 1 ++ List.replicate 48 0 ++ bytes)

/-- Free slots of drawer 63 of a core, deferred rows on their way counted out. -/
def State.deferRoom (s : State) (c : Nat) : Nat :=
  s.drwSize c 63 - (s.rd F.DRW_STATE_FILL c 63 + s.rd F.DRW_STATE_PEND c 63 +
    (s.sched.arrivals.filter (fun a => a.core == c && a.op == deferOp)).length)

/-- A used row of an append at its destination (R332 to R335); `src` is the source of its memory lines, `stream` the mover that
receives it. Answers 0 written (its commit is still to come), 1 deferred, 2 discarded, 3 lost to an overflow of drawer 63. -/
def State.appendRow (s : State) (p : Nat) (h : List Byte) (c gen pos : Nat) (bytes : List Byte) (back : AppBack)
    (src stream : Nat) : State × Nat :=
  let s := if s.inQuota p c then s.useDesc p c else s
  if s.rowDiscarded p h c gen pos then (s.bump F.CTX_APP_DISCARD_COUNT p, 2)
  else
    let d := s.desc p c
    let es := s.rowLeaves p h c pos
    if 0 < dDefer d ∨ es.all eResident = false then
      let home := 8 * p + c % 8
      if s.role p = 2 then (s.bump F.CTX_APP_DISCARD_COUNT p, 2)
      else if s.deferRoom home = 0 then (s.violation home 0 63 stream 0, 3)
      else
        let d := setField (addField d 0x2C 4 1) 0x28 4 (min pos (fieldAt d 0x28 4))
        let s := ((s.setDesc p c d).bump F.CTX_APP_DEFER_COUNT p).bump F.CTX_APP_ROWS_COUNT p
        ({ s with sched := { s.sched with arrivals := s.sched.arrivals ++
          [⟨deferOp, home, stream, 0, deferRow h c gen pos bytes, false, some 63, 0⟩] } }, 1)
    else
      let s := (s.latchUse p c).bump F.CTX_APP_ROWS_COUNT p
      let id := s.kv.nextRow
      let row : AppRow := ⟨id, p, c, s.rd F.CTX_EPOCH_EPOCH p, es.length, [], back⟩
      let s : State := { s with kv := { s.kv with nextRow := id + 1, rows := s.kv.rows ++ [row] } }
      let s := loopN es.length (fun k s =>
        s.addLine (storeLine p src (pagePtr (ePage (nth es k)) + hOffset h pos) ((bytes.drop (k * hVecBytes h)).take (hVecBytes h))
          false (.append id k))) s
      ((s.applyLen p h c pos).syncHeld p, 0)

/-- The warnings of R337. -/
def appendWarning (outcome : Nat) : Nat := if outcome = 1 then 0x171 else if outcome = 2 then 0x172 else 0

/-- A row of an append transfer of this device has ended, as its acknowledgement says (R328, R336, R337, R573). -/
def State.appendAck (s : State) (id status : Nat) : State :=
  match s.findOp id with
  | none => s
  | some o =>
    match o.kind with
    | .append a =>
      let s := if status = 0 then s else if isError status then s.abort (corePdk o.core) status
        else s.warnSide (corePdk o.core) o.side status
      if (s.findOp id).isSome then s.setOp id (.append { a with left := a.left - 1 }) else s
    | _ => s

/-- The end of an append row is told to whoever sent it. -/
def State.rowBack (s : State) (p : Nat) (back : AppBack) (status : Nat) : State :=
  match back with
  | .op id => s.appendAck id status
  | .msg m => if p = m.dstPdk then s.ackMsg m status 0 1 else s

/-- A row of which every line is done and every mirror message acknowledged has committed: it releases its epoch (R332, R586). -/
def State.finishRow (s : State) (id : Nat) : State :=
  match s.kv.rows.find? (fun r => r.id == id) with
  | none => s
  | some r =>
    if 0 < r.lines ∨ r.mirrors ≠ [] then s
    else
      let s : State := { s with kv := { s.kv with rows := s.kv.rows.filter (fun x => x.id != id) } }
      (s.syncHeld r.pdk).rowBack r.pdk r.back 0

/-- A line of an append row is done; a primary mirrors the sectors it wrote (R586). -/
def State.rowLineDone (s : State) (id : Nat) (l : Line) : State :=
  let p := l.pdk
  let n := tget 0 s.net.mirrorSent [p]
  let far := ptrTag l.ptr = 2
  let s := if l.dead = 0 then s.mirrorWrite p far (if far then ptrFarOff l.ptr else ptrAddr l.ptr) l.data else s
  let sent := tget 0 s.net.mirrorSent [p]
  let more := if n < sent then [mirrorXid sent] else []
  let s : State := { s with kv := { s.kv with rows := s.kv.rows.map (fun r =>
    if r.id = id then { r with lines := r.lines - 1, mirrors := r.mirrors ++ more } else r) } }
  s.finishRow id

/-- A mirror message is acknowledged, or none is waited for any longer: rows and completions that waited go on (R586, R588). -/
def State.mirrorAcked (s : State) (p xid : Nat) : State :=
  let s : State := { s with
    net := { s.net with mirror := removeFirst (· == (p, xid)) s.net.mirror }
    kv := { s.kv with rows := s.kv.rows.map (fun r => if r.pdk = p then { r with mirrors := r.mirrors.filter (· != xid) } else r) } }
  let s := s.kv.rows.foldl (fun s r => s.finishRow r.id) s
  s.flushHeld p

/-- MIRROR_BROKEN (R588): the primary stops waiting for acknowledgements, and fences itself when it is told to. -/
def execMirrorBroken (p : Fin 16) (s : State) : Host.Outcome State Fault Refusal :=
  if s.rd F.RTE_PCFG_PART p.val = 1 ∧ (s.mirrorPort.isNone ∨ s.mirrorWaits p.val = true) then
    let s := if s.rd F.RTE_PCFG_FENCE_ON_BREAK p.val = 1 then ((s.abortScope1 p.val).1).quiesce p.val else s
    let s := (s.net.mirror.filter (fun x => x.1 == p.val)).foldl (fun s x => s.mirrorAcked x.1 x.2) s
    .next ((s.wr F.RTE_PCFG_PART p.val 0).eventBoth p.val 0x49 0 (detailAt 0x10 (s.rd F.RTE_PCFG_PEER_DEV p.val)))
  else .next s

/-! ### Sending a tile (R206, R332, R336) -/

/-- Map entry of tile row `m` (R330). -/
def mapEntry (got : List Got) (m : Nat) : Nat :=
  fieldAt (((got.find? (fun g => g.tag == 1 + m / 64)).map (fun g => g.bytes)).getD []) (8 * (m % 64)) 8
def mapCtx (e : Nat) : Nat := bitsAt e 48 16
def mapGen (e : Nat) : Nat := bitsAt e 32 16
def mapPos (e : Nat) : Nat := bitsAt e 0 32

/-- The header row of an append transfer. -/
def Append.header (a : Append) : List Byte := ((a.got.find? (fun g => g.tag == 0)).map (fun g => g.bytes)).getD []

/-- The tile of a transfer goes out, row by row in ascending order. -/
def State.sendTile (s : State) (o : Op) (a : Append) (t : AppTile) : State :=
  let p := corePdk o.core
  let src := srcStream o.core o.stream
  let h := a.header
  let used := (List.range 128).filter (fun m => mapPos (mapEntry a.got m) != 0xFFFFFFFF)
  let s := s.setAppBuf o.core (o.stream - 8) (removeFirst (· == t) (s.appBufOf o.core (o.stream - 8)))
  if t.poison ∨ a.got.any (fun g => g.poison) = true then (s.dropOp o).abort p 0x510
  else
    let dest : Except Nat (Option Dest) := if hRank h = 0xFF then .ok none else (s.rankDest p (hRank h) 0 false).map some
    match dest with
    | .error st => s.abort p st
    | .ok dest =>
      let s := s.setOp o.id (.append { a with sent := true, left := used.length })
      let s := used.foldl (fun s m =>
        let e := mapEntry a.got m
        let (bytes, cats) := s.appendBytes p h (mapPos e) ((t.values.drop (128 * m)).take 128)
        let s := s.countOutputs p o.side cats
        match dest with
        | none =>
          let r := s.appendRow p h (mapCtx e) (mapGen e) (mapPos e) bytes (.op o.id) src o.stream
          if r.2 = 0 then r.1 else r.1.appendAck o.id (appendWarning r.2)
        | some d =>
          let msg := s.mkMsg p 3 d.dev d.pdk o.id m (used.length - 1) e (fieldAt h 0 8)
            ((h.drop 8).take 8 ++ List.replicate 24 0 ++ bytes)
          s.addLine (msgLine p src d.port msg .msg)) s
      s.syncMxe o.core

/-- Append transfers of a core whose map rows have been read: a bad header aborts (R329); the oldest transfer of a mover goes with
the oldest tile of its image in the mover's buffers (R206). -/
def State.pumpAppend (s : State) (c : Nat) : State :=
  let s := s.sched.ops.foldl (fun s o => match o.kind with
    | .append a => if o.core = c ∧ a.reads = [] ∧ a.sent = false ∧ a.got.any (fun g => g.poison) = false ∧ headerBad a.header = true then
        s.abort (corePdk c) 0x660 else s
    | _ => s) s
  loopN 4 (fun m s => [0, 1].foldl (fun s side =>
    let waiting := s.sched.ops.findSome? (fun o => match o.kind with
      | .append a => if o.core = c ∧ o.stream = 8 + m ∧ o.side = side ∧ a.sent = false then some (o, a) else none
      | _ => none)
    match waiting, (s.appBufOf c m).find? (fun t => t.side == side) with
    | some (o, a), some t => if a.reads = [] ∧ a.got ≠ [] then s.sendTile o a t else s
    | _, _ => s) s) s

/-- KV_APPEND_COMPLETE (R328): a transfer of which every row has been written, deferred or discarded signals. -/
def execKvAppendComplete (core : Fin 128) (s : State) : Host.Outcome State Fault Refusal :=
  let due := s.sched.ops.find? (fun o => o.core == core.val && (match o.kind with
    | .append a => a.sent && a.left == 0
    | _ => false))
  match due with
  | some o => .next (s.completeOp o)
  | none => .next s

/-- APPEND_MESSAGE_RECEIVE (R336): the row is written, deferred or discarded at the destination paddock. The mover whose number a
drawer overflow records is the first inbound one (DESIGN CHOICE: log entry 22). -/
def execAppendMessageReceive (port : Option (Fin 12)) (m : Msg) (s : State) : Host.Outcome State Fault Refusal :=
  s.receiveMsg port m 3 (fun _ s =>
    let h := leBytes m.aux 8 ++ m.data.take 8
    let e := m.target
    let r := s.appendRow m.dstPdk h (mapCtx e) (mapGen e) (mapPos e) (m.data.drop 32) (.msg m) srcServer 4
    if r.2 = 0 then r.1 else r.1.ackMsg m (if r.2 = 3 then 0x620 else appendWarning r.2) 0 1)

/-! ### The scatter step (R338 to R340) -/

/-- What KV_SCATTER has done so far: rows written, discarded, pushed back, and the first row pushed back (context, position). -/
structure Scatter where
  written : Nat
  discarded : Nat
  left : Nat
  first : Option (Nat × Nat)
  blocked : List Nat
  deriving DecidableEq, Repr

/-- The header that an overflow row keeps (R334): its row was rotated and converted before. -/
def deferHeader (r : List Byte) : List Byte :=
  leBytes (fieldAt r 6 2) 2 ++ leBytes (fieldAt r 0x0C 1) 1 ++ leBytes (fieldAt r 0x0D 1) 1 ++ leBytes 0 4 ++
    leBytes (fieldAt r 0x0F 1) 1 ++ leBytes (fieldAt r 0x0E 1) 1 ++ leBytes 0xFF 1 ++ leBytes 0 1 ++ leBytes (fieldAt r 4 2) 2

/-- DEFER_COUNT of a context falls by one. -/
def State.undefer (s : State) (p c : Nat) : State :=
  if s.inQuota p c then s.setDesc p c (addField (s.desc p c) 0x2C 4 1 false) else s

/-- One row of a core's drawer 63: written through the current root, discarded (a poisoned row too, since poison never leaves
the core: R56, log entry 22), or pushed back. A write of the scatter is on memory
in the clock of its row (timing left out: log entry 8). -/
def State.scatterRow (s : State) (p core : Nat) (z : Scatter) : State × Scatter :=
  match s.popSlot core 63 with
  | none => (s, z)
  | some (t, r) =>
    let row := t.rowOf core r
    let h := deferHeader row
    let c := fieldAt row 0 2
    let gen := fieldAt row 2 2
    let pos := fieldAt row 8 4
    let t := if t.inQuota p c then t.useDesc p c else t
    if t.rowDiscarded p h c gen pos ∨ s.rowPoison core r then
      ((t.undefer p c).bump F.CTX_APP_DISCARD_COUNT p, { z with discarded := z.discarded + 1 })
    else
      let es := t.rowLeaves p h c pos
      let blocked := z.blocked.contains c || es.any (fun e => !eValid e || eMoving e)
      if blocked then
        let t := match t.claimSlot core 63 with
          | some (t, q) => t.commitRow core q row (s.rowPoison core r) (some 63)
          | none => t
        (t, { z with
          left := z.left + 1
          first := z.first.or (some (c, pos))
          blocked := if z.blocked.contains c then z.blocked else c :: z.blocked })
      else
        let t := t.latchUse p c
        let t := loopN es.length (fun k t =>
          let ptr := pagePtr (ePage (nth es k)) + hOffset h pos
          let bytes := ((row.drop 0x40).drop (k * hVecBytes h)).take (hVecBytes h)
          let t := t.ptrWrite (vfOf p) p ptr bytes
          let far := ptrTag ptr = 2
          t.mirrorWrite p far (if far then ptrFarOff ptr else ptrAddr ptr) bytes) t
        let t := (t.applyLen p h c pos).undefer p c
        (t.bump F.CTX_SCATTERED_COUNT p, { z with written := z.written + 1 })

/-- Rows that still wait in drawer 63 of a paddock's cores, as (context, position). -/
def State.deferredRows (s : State) (p : Nat) : List (Nat × Nat) :=
  (List.range 8).flatMap (fun i =>
    let c := 8 * p + i
    (List.range (s.rd F.DRW_STATE_FILL c 63)).map (fun k =>
      let n := s.drwSize c 63
      let row := s.rowOf c (s.drwBase c 63 + (s.rd F.DRW_STATE_HEAD c 63 + k) % n)
      (fieldAt row 0 2, fieldAt row 8 4)))

/-- DEFER_LO of every context with deferred rows is recomputed; it is all ones where none are left (R314, R338). -/
def State.syncDeferLo (s : State) (p : Nat) (touched : List Nat) : State :=
  let rows := s.deferredRows p
  touched.foldl (fun s c =>
    if s.inQuota p c = false then s
    else
      let lo := (rows.filter (fun r => r.1 == c)).foldl (fun m r => min m r.2) 0xFFFFFFFF
      let d := s.desc p c
      s.setDesc p c (setField d 0x28 4 (if dDefer d = 0 then 0xFFFFFFFF else lo))) s

/-- KV_SCATTER (R338, R339): drawer 63 of each core in turn, the rows present when the step reaches it. -/
def State.scatter (s : State) (p : Nat) : State × Scatter :=
  let touched := ((s.deferredRows p).map (fun r => r.1)).eraseDups
  let r := (List.range 8).foldl (fun (a : State × Scatter) i =>
    let c := 8 * p + i
    (List.range (a.1.rd F.DRW_STATE_FILL c 63)).foldl (fun (a : State × Scatter) _ => a.1.scatterRow p c a.2)
      (a.1, { a.2 with blocked := [] })) (s, ⟨0, 0, 0, none, []⟩)
  (r.1.syncDeferLo p touched, r.2)

/-- A role change discards the rows of drawer 63 of a paddock's cores (R340). -/
def State.discardDeferred (s : State) (p : Nat) : State :=
  let rows := s.deferredRows p
  let s := s.bump F.CTX_APP_DISCARD_COUNT p 0 rows.length
  let s := loopN 8 (fun i s => s.resetDrawer (8 * p + i) 63) s
  let cs := (List.range (s.rd F.PDK_QUOTA_CTX_QUOTA_M1 p + 1)).filter (fun c => decide (0 < dDefer (s.desc p c)))
  cs.foldl (fun s c => s.setDesc p c (setField (setField (s.desc p c) 0x2C 4 0) 0x28 4 0xFFFFFFFF)) s

end Sys2Proof.Machine
end

