-- ==== Sys2Proof/Machine/Tables.lean ====
section
/-! DEFINITION. The table engine (chapter 12): lookups, pooling, generations, and the commands of the descriptor store. -/

namespace Sys2Proof.Machine

def opTableDefine : Nat := 0x40
def opTableRetire : Nat := 0x41
def opTableRead : Nat := 0x42

/-! ### Descriptors (R354 to R356) -/

def State.tableOf (s : State) (p slot : Nat) : List Byte := tget [] s.tables [p, slot]
def State.setTable (s : State) (p slot : Nat) (d : List Byte) : State :=
  let s : State := { s with tables := tset [] s.tables [p, slot] d }
  let m := s.rd F.TBL_VALID_VALID p (slot / 64)
  s.wr F.TBL_VALID_VALID p (if fieldAt d 0 1 % 2 = 1 then setBit m (slot % 64) else clrBit m (slot % 64)) (slot / 64)

def tdValid (d : List Byte) : Bool := fieldAt d 0 1 % 2 = 1
def tdGen (d : List Byte) : Nat := fieldAt d 1 1
def tdElem (d : List Byte) : Nat := fieldAt d 3 1
/-- Element size, and elements of a row. -/
def tdElemBytes (d : List Byte) : Nat := if tdElem d = 0 then 4 else if tdElem d ≤ 2 then 2 else 1
def tdElems (d : List Byte) : Nat := tdRowBytes d / tdElemBytes d

/-- The table row of an ID, or none when HASH 0 maps it out of range (R356). -/
def tdIndex (d : List Byte) (id : Nat) : Option Nat :=
  match fieldAt d 4 1 with
  | 0 => if id < tdRows d then some id else none
  | 1 => some (id % tdRows d)
  | _ => some (id * fieldAt d 0x18 8 % 2 ^ 64 / 2 ^ (64 - fieldAt d 5 1))

/-- Whether the lookups of a paddock hold a generation of a slot (R368), and how many do. -/
def State.genHolders (s : State) (p slot gen : Nat) : Nat :=
  (s.sched.ops.filter (fun o => match o.kind with
    | .lookup l => corePdk o.core == p && l.slot == slot && tdGen l.desc == gen && l.reading
    | _ => false)).length

/-! ### The lookup (R357 to R363) -/

/-- Output rows of a bag or of a gathered ID (R359). -/
def outBytes (w : Nat) (d : List Byte) : Nat :=
  let s := tdElemBytes d
  tdElems d * (match lOfmt w with | 0 => 4 | 1 => 2 | 2 => 2 | _ => s)
def outRows (w : Nat) (d : List Byte) : Nat := (outBytes w d + 511) / 512
def lookupOut (w : Nat) (d : List Byte) : Nat := outRows w d * (if lPool w = 0 then 64 else lBags w)

/-- An abort of R377 is recorded in TBL_ERR0 to TBL_ERR2. -/
def State.tblErr (s : State) (c kind slot bag pos status : Nat) : State :=
  let s :=
    if s.rd F.TBL_ERR0_VALID c = 1 then s
    else
      let s := (s.wr F.TBL_ERR0_VALID c 1).wr F.TBL_ERR0_KIND c kind
      let s := (s.wr F.TBL_ERR0_SLOT c slot).wr F.TBL_ERR0_BAG c bag
      let s := s.wr F.TBL_ERR0_POSITION c pos
      (s.wr F.TBL_ERR1_TICK c (s.tickOf c)).wr F.TBL_ERR2_TIME c s.now
  s.abort (corePdk c) status

/-- Pops of `n` slots of a drawer, or none when one underflows. -/
def State.popSlots (s : State) (c d : Nat) : Nat → Option (State × List Nat)
  | 0 => some (s, [])
  | n + 1 =>
    match s.popSlot c d with
    | none => none
    | some (s, r) => (s.popSlots c d n).map (fun x => (x.1, r :: x.2))

/-- Source rows: those of a run, or those that a drawer gives up; on an error its kind of R74. -/
def State.takeRows (s : State) (c : Nat) (f : RowField) (n : Nat) : Except Nat (State × List Nat) :=
  match f with
  | .drw d => match s.popSlots c d n with
    | some x => .ok x
    | none => .error 1
  | .run r => if s.rowOk c (r + n - 1) then .ok (s, (List.range n).map (fun k => r + k)) else .error 4

/-- TBL_CSTAT follows the lookups of a core. -/
def State.syncTbl (s : State) (c : Nat) : State := s.wr F.TBL_CSTAT_OUTSTANDING c (s.outstanding c stTE)

/-- TABLE_LOOKUP (R361): the descriptor is latched, request slots popped and output slots claimed in the issue tick. -/
def execTableLookup (a : At) (s : State) : Host.Outcome State Fault Refusal :=
  .next (s.issueAs opcLookup a (fun x s =>
    let w := x.w
    let d := s.tableOf x.p (lSlot w)
    let drw (f : RowField) : Nat := f.drawer.getD 0
    if tdValid d = false then s.tblErr x.c 0 (lSlot w) 0 x.pos 0x670
    else
      match s.takeRows x.c (rowField (lReq w)) (lReqRows w) with
      | .error k => s.violation x.c k (drw (rowField (lReq w))) x.st x.pos
      | .ok (s, req) =>
        match s.claimRows x.c (rowField (lDst w)) (lookupOut w d) with
        | .error k => s.violation x.c k (drw (rowField (lDst w))) x.st x.pos
        | .ok (s, rows) =>
          let id := s.sched.nextOp
          let s := s.addOp x.c x.side x.st x.pos (bitsAt w 0 24) (rowField (lDst w)).drawer
            (.lookup ⟨w, lSlot w, d, req, rows, [], [], [], [], false, false, 0⟩)
          (s.addAct x.c id (s.opTick x.c) (s.opTick x.c + 1) 4).syncTbl x.c))

/-! ### The request (R358) -/

def Lookup.reqRow (l : Lookup) (k : Nat) : List Byte × Bool := (l.req[k]?).getD ([], false)
def Lookup.perBag (l : Lookup) : Nat := if lPool l.word = 4 then 2 else 1
def Lookup.bagLen (l : Lookup) (b : Nat) : Nat := fieldAt (l.reqRow 0).1 b 1
def Lookup.idOf (l : Lookup) (b k : Nat) : Nat := fieldAt (l.reqRow (1 + b * l.perBag)).1 (8 * k) 8
def Lookup.weight (l : Lookup) (b k : Nat) : Nat := fieldAt (l.reqRow (2 + b * l.perBag)).1 (4 * k) 4
/-- Whether the request rows that a bag depends on were poisoned (R56). -/
def Lookup.reqPoison (l : Lookup) (b : Nat) : Bool :=
  (l.reqRow 0).2 || (l.reqRow (1 + b * l.perBag)).2 || (l.perBag = 2 && (l.reqRow (2 + b * l.perBag)).2)

/-- First byte of request row 0 that breaks R377. -/
def Lookup.badByte (l : Lookup) : Option Nat :=
  (List.range 512).find? (fun j => if j < lBags l.word then decide (64 < l.bagLen j) else fieldAt (l.reqRow 0).1 j 1 != 0)

/-- Rows of a lookup's output reach the landing buffer (R40); `k` is the first row's place in the output. -/
def State.landRows (s : State) (o : Op) (rows : List Nat) (bytes : List Byte) (poison : Bool) : State :=
  loopN rows.length (fun k s =>
    { s with sched := { s.sched with arrivals := s.sched.arrivals ++
      [⟨o.id, o.core, o.stream, nth rows k, (bytes.drop (512 * k)).take 512, poison, o.drawer, 0⟩] } }) s

/-- Output rows of slot `k` (a bag, or an ID of a gather). -/
def Lookup.slotRows (l : Lookup) (k : Nat) : List Nat :=
  (l.rows.drop (k * outRows l.word l.desc)).take (outRows l.word l.desc)

/-! ### Pooling (R364 to R366) -/

/-- Value of element `e` of a table row (R162, R364). -/
def tdValue (d row : List Byte) (e : Nat) : Fp :=
  let b := fieldAt row (e * tdElemBytes d) (tdElemBytes d)
  match tdElem d with
  | 0 => f32 b
  | 1 => bf16.decode b
  | 2 => fp16.decode b
  | 3 => e4m3.decode b
  | 4 => e5m2.decode b
  | _ => .fin (signedAt b 8) 0

/-- A pooled element over its contributing values with their weights: FP32 bits and category. -/
def poolOne (pool : Nat) (xs : List (Fp × Fp)) : Nat × NumCat :=
  let step (acc : Nat × NumCat) (x : Fp × Fp) : Nat × NumCat :=
    if pool = 3 then toF32 (Fp.max (f32 acc.1) x.1)
    else if pool = 4 then toF32 ((x.2.mul x.1).add (f32 acc.1))
    else toF32 ((f32 acc.1).add x.1)
  let start : Nat × NumCat := if pool = 3 then (fp32.infBits true, .inf) else (0, .plain)
  let r := xs.foldl step start
  if pool = 2 then toF32 ((f32 r.1).divNat xs.length) else r

/-- An element in the output format, with its category (R170, R364). -/
def outElem (w : Nat) (v : Nat × NumCat) : List Byte × NumCat :=
  match lOfmt w with
  | 1 => let r := bf16.write false false (f32 v.1); (leBytes r.1 2, r.2)
  | 2 => let r := fp16.write false false (f32 v.1); (leBytes r.1 2, r.2)
  | _ => (leBytes v.1 4, v.2)

/-- Rows of a bag that have returned, in ID order. -/
def Lookup.bagRows (l : Lookup) (b : Nat) : List (Nat × List Byte × Bool) :=
  (l.ids.filter (fun i => i.1 == b)).filterMap (fun i =>
    (l.got.find? (fun g => g.1 == b && g.2.1 == i.2.1)).map (fun g => (i.2.1, g.2.2.1, g.2.2.2)))

/-- Output of bag `b`: bytes, categories, poison. -/
def Lookup.bagOut (l : Lookup) (b : Nat) : List Byte × List NumCat × Bool :=
  let rows := l.bagRows b
  if rows = [] then ([], [], l.reqPoison b)
  else
    let es := (List.range (tdElems l.desc)).map (fun e =>
      outElem l.word (poolOne (lPool l.word) (rows.map (fun r => (tdValue l.desc r.2.1 e, f32 (l.weight b r.1))))))
    (es.flatMap (fun x => x.1), es.map (fun x => x.2), l.reqPoison b || rows.any (fun r => r.2.2))

/-- Output of a gathered row (R365). -/
def Lookup.gatherOut (l : Lookup) (row : List Byte) : List Byte × List NumCat :=
  if lOfmt l.word = 3 then (row, [])
  else
    let es := (List.range (tdElems l.desc)).map (fun e => outElem l.word (toF32 (tdValue l.desc row e)))
    (es.flatMap (fun x => x.1), es.map (fun x => x.2))

/-- Slots whose output is known once the request has been read: bags, or gather places, with no contributing ID. -/
def Lookup.emptySlots (l : Lookup) : List Nat :=
  if lPool l.word = 0 then (List.range 64).filter (fun k => !(l.ids.any (fun i => i.2.1 == k)))
  else (List.range (lBags l.word)).filter (fun b => !(l.ids.any (fun i => i.1 == b)))

/-- The request has been read: its table reads arise (R363), skipped IDs are counted (R367), and slots that depend on no row
land. -/
def State.lookupAsk (s : State) (o : Op) (l : Lookup) : State :=
  let p := corePdk o.core
  match l.badByte with
  | some j => s.tblErr o.core 1 l.slot j o.position 0x671
  | none =>
    let all := (List.range (lBags l.word)).flatMap (fun b => (List.range (l.bagLen b)).map (fun k => (b, k)))
    let ids := all.filterMap (fun x => (tdIndex l.desc (l.idOf x.1 x.2)).map (fun r => (x.1, x.2, r)))
    let skipped := all.length - ids.length
    let l := { l with ids := ids, skipped := decide (0 < skipped) }
    let s := (s.setOp o.id (.lookup l)).bump F.TBL_ID_RANGE_COUNT p 0 skipped
    let rb := tdRowBytes l.desc
    let s := ids.foldl (fun s i =>
      let ptr := tdBase l.desc + i.2.2 * rb
      let s := s.bump F.TBL_ROWS_COUNT p
      let s := if ptrTag ptr = 2 then s.bump F.TBL_FAR_ROWS_COUNT p else s
      (linePieces (ptrAddr ptr) rb).foldl (fun s x =>
        s.addLine (readLine p (srcStream o.core o.stream) (ptr + x.1) x.2 (.table o.id i.1 i.2.1 x.1))) s) s
    l.emptySlots.foldl (fun s k => s.landRows o (l.slotRows k) [] (l.reqPoison (if lPool l.word = 0 then 0 else k))) s

/-- A lookup read (R361): the next request row of the core's oldest lookup that has one left; one in a clock. -/
def State.lookupRead (s : State) (c : Nat) : State :=
  let next := s.sched.ops.findSome? (fun o => match o.kind with
    | .lookup l => if o.core = c ∧ l.req.length < l.request.length then some (o, l) else none
    | _ => none)
  match next with
  | none => s
  | some (o, l) =>
    if (s.runsOf (corePdk c)).cause.isSome then s
    else
      s.untimed (corePdk c) (srcStream c o.stream) 1 [5, o.id, l.req.length] (fun s =>
        let r := nth l.request l.req.length
        let (s, d) := s.shelfRead c o.stream r none
        let l := { l with req := l.req ++ [d] }
        let s := s.setOp o.id (.lookup l)
        if l.req.length = l.request.length then s.lookupAsk o l else s)

/-- Part of a table row has arrived. -/
def State.tablePart (s : State) (op bag idx off : Nat) (bytes : List Byte) (poison : Bool) : State :=
  match s.findOp op with
  | some o => (match o.kind with
    | .lookup l => s.setOp op (.lookup { l with parts := l.parts ++ [(bag, idx, off, bytes, poison)] })
    | _ => s)
  | none => s

/-! ### Rows that return (R363, R367) -/

/-- A table row all of whose parts have arrived. -/
def Lookup.arrived (l : Lookup) : Option (Nat × Nat × List Byte × Bool) :=
  l.ids.findSome? (fun i =>
    let ps := l.parts.filter (fun x => x.1 == i.1 && x.2.1 == i.2.1)
    let n := ps.foldl (fun n x => n + x.2.2.2.1.length) 0
    if ps ≠ [] ∧ n = tdRowBytes l.desc then
      let offs := (List.range (n / 64)).flatMap (fun j => (ps.filter (fun x => x.2.2.1 == 64 * j)))
      some (i.1, i.2.1, offs.flatMap (fun x => x.2.2.2.1), ps.any (fun x => x.2.2.2.2))
    else none)

/-- TABLE_ROW_RETURN (R363): a row of the core's oldest lookup that has one arrived; a bag whose last row returns is pooled, in ID
order. An aborted schedule's lookup uses nothing more (R375). -/
def execTableRowReturn (core : Fin 128) (s : State) : Host.Outcome State Fault Refusal :=
  let c := core.val
  let next := s.sched.ops.findSome? (fun o => match o.kind with
    | .lookup l => if o.core = c then l.arrived.map (fun r => (o, l, r)) else none
    | _ => none)
  match next with
  | none => .next s
  | some (o, l, (b, k, row, poison)) =>
    let l := { l with
      got := l.got ++ [(b, k, row, poison)]
      parts := l.parts.filter (fun x => !(x.1 == b && x.2.1 == k)) }
    let s := s.setOp o.id (.lookup l)
    let p := corePdk c
    if (s.runsOf p).cause.isSome then .next s
    else if lPool l.word = 0 then
      let (bytes, cats) := l.gatherOut row
      .next ((s.countOutputs p o.side cats).landRows o (l.slotRows k) bytes (poison || l.reqPoison 0))
    else if (l.ids.filter (fun i => i.1 == b)).length = (l.bagRows b).length then
      let (bytes, cats, bad) := l.bagOut b
      .next ((s.countOutputs p o.side cats).landRows o (l.slotRows b) bytes bad)
    else .next s

/-! ### Commands (R369, R370, R378) -/

/-- TABLE_DEFINE in one clock of the store. -/
def tableBytes (gen sect elem hash rowsLog2 rows base mult tag : Nat) : List Byte :=
  leBytes 1 1 ++ leBytes gen 1 ++ leBytes sect 1 ++ leBytes elem 1 ++ leBytes hash 1 ++ leBytes rowsLog2 1 ++ leBytes 0 2 ++
    leBytes rows 8 ++ leBytes base 8 ++ leBytes mult 8 ++ leBytes tag 8 ++ leBytes 0 24

/-- The oldest table command of a paddock that executes goes on when nothing it waits for is held; answers none when it
waits. -/
def State.tableStep (s : State) (p : Nat) : Option State :=
  match s.taken.find? (fun t => t.ofPdk p && t.phase == .executing && (t.op == opTableDefine || t.op == opTableRetire)) with
  | none => none
  | some t =>
    match t.cmd with
    | some (.tableDefine h slot sect elem hash rowsLog2 rows base mult tag) =>
      let gen := (tdGen (s.tableOf p slot) + 1) % 256
      if s.genHolders p slot gen ≠ 0 then none
      else some ((s.setTable p slot (tableBytes gen sect elem hash rowsLog2 rows base mult tag)).complete h 0 (gen * 2 ^ 4))
    | some (.tableRetire h slot gen flags) =>
      let d := s.tableOf p slot
      if hasBit flags 0 ∧ nth t.prog 1 = 0 then
        if tdValid d = false ∨ tdGen d ≠ gen then some (s.complete h 0x350)
        else
          let s := s.setTable p slot (leBytes 0 1 ++ d.drop 1)
          some (s.setProg h [s.genHolders p slot gen, 1])
      else if t.prog.length < 2 then some (s.setProg h [s.genHolders p slot gen, 1])
      else if s.genHolders p slot gen ≠ 0 then none
      else some (s.complete h 0 (gen * 2 ^ 4 + nth t.prog 0 * 2 ^ 16))
    | _ => none

/-- Table commands execute one at a time, in the order taken (R378). -/
def State.tablePump (s : State) (p : Nat) : Nat → State
  | 0 => s
  | n + 1 => match s.tableStep p with
    | none => s
    | some t => t.tablePump p n

/-- Steps that finish every waiting table command. -/
def State.tableGo (s : State) (p : Nat) : State := s.tablePump p (3 * s.taken.length + 1)

/-- Checks of TABLE_DEFINE (R354, R355, R377). -/
def State.tableStatus (s : State) (h : Hdr) (sect elem hash rowsLog2 rows base mult : Nat) : Nat :=
  let p := paddockOf h
  let n := rows * (64 * (sect + 1))
  let two := hash == 2
  let bad := decide (63 < sect) || decide (5 < elem) || decide (2 < hash) || rows == 0 || decide (2 ^ 40 < rows) ||
    (if two then rowsLog2 == 0 || decide (40 < rowsLog2) || rows != 2 ^ rowsLog2 || mult % 2 == 0 else rowsLog2 != 0 || mult != 0) ||
    base % 64 != 0
  let far := ptrFarOff base
  let range :=
    if ptrTag base = 0 then decide (localEnd < ptrAddr base + n)
    else decide (far < s.rd F.CTX_FARCFG_FAR_KV p * 0x8000) || decide (s.rd F.PDK_QUOTA_FAR_PAGES p * 0x8000 < far + n)
  firstStatus [failIf bad 0x250, failIf (!(ptrTag base == 0 || ptrTag base == 2) || (ptrTag base == 0 && bitsAt base 48 14 != 0)) 0x401, failIf range 0x251]

/-- TABLE_DEFINE (R369). -/
def execTableDefine (h : Hdr) (slot sect elem hash rowsLog2 rows base mult tag : Nat) (s : State) :
    Host.Outcome State Fault Refusal :=
  .next (s.checked h opTableDefine
    (firstStatus [failIf (decide (255 < slot)) 0x250, s.tableStatus h sect elem hash rowsLog2 rows base mult]) (fun s =>
    (s.start h opTableDefine (some (.tableDefine h slot sect elem hash rowsLog2 rows base mult tag))).tableGo (paddockOf h)))

/-- TABLE_RETIRE (R370). -/
def execTableRetire (h : Hdr) (slot gen flags : Nat) (s : State) : Host.Outcome State Fault Refusal :=
  .next (s.checked h opTableRetire (failIf (decide (255 < slot) || decide (255 < gen) || decide (1 < flags)) 0x201) (fun s =>
    (s.start h opTableRetire (some (.tableRetire h slot gen flags))).tableGo (paddockOf h)))

/-- TABLE_READ (R378): the descriptor as it stands in one clock. -/
def execTableRead (h : Hdr) (slot out : Nat) (s : State) : Host.Outcome State Fault Refusal :=
  let p := paddockOf h
  .next (s.checked h opTableRead
    (firstStatus [failIf (decide (255 < slot)) 0x201, s.checkPtr h.fn.val p out 64 true,
      s.resourceStatus p out]) (fun s =>
    s.gate h opTableRead (.tableRead h slot out) [⟨out, 64, true⟩] (fun s =>
      (s.ptrWrite h.fn.val p out ((s.tableOf p slot ++ List.replicate 64 0).take 64)).complete h 0)))

/-! ### The end of a lookup (R368, R373, R374) -/

/-- A lookup that has read and committed everything. -/
def Lookup.ended (l : Lookup) : Bool := !l.reading && l.committed == l.rows.length

/-- TBL_REC0 takes a lookup with CHANGED or a skipped ID (R373). -/
def State.tblRec (s : State) (o : Op) (l : Lookup) (kind : Nat) : State :=
  let p := corePdk o.core
  if s.rd F.TBL_REC0_VALID p = 1 then s
  else
    let s := (s.wr F.TBL_REC0_VALID p 1).wr F.TBL_REC0_KIND p kind
    let s := (s.wr F.TBL_REC0_CORE p (coreOff o.core)).wr F.TBL_REC0_SLOT p l.slot
    let s := (s.wr F.TBL_REC0_GEN p (tdGen l.desc)).wr F.TBL_REC0_POSITION p o.position
    s.wr F.TBL_REC1_TIME p s.now

/-- TABLE_LOOKUP_COMPLETE (R373, R374): the core's oldest lookup that has ended. -/
def execTableLookupComplete (core : Fin 128) (s : State) : Host.Outcome State Fault Refusal :=
  let c := core.val
  let p := corePdk c
  let next := s.sched.ops.findSome? (fun o => match o.kind with
    | .lookup l => if o.core = c ∧ l.ended = true then some (o, l) else none
    | _ => none)
  match next with
  | none => .next s
  | some (o, l) =>
    let s := s.bump F.TBL_LOOKUPS_COUNT p
    let s := if l.changed then
        ((s.bump F.TBL_CHANGED_COUNT p).tblRec o l 0).warnSide p o.side 0x180
      else s
    let s := if l.skipped then (s.tblRec o l 1).warnSide p o.side 0x181 else s
    let s := if (s.runsOf p).cause.isSome then s.dropOp o else s.completeOp o
    .next (s.syncTbl c)

/-- TABLE_GENERATION_RELEASE (R368): table commands that waited for a generation go on. -/
def execTableGenerationRelease (p : Fin 16) (s : State) : Host.Outcome State Fault Refusal := .next (s.tableGo p.val)

/-- A write of 1 to TBL_REC0.VALID re-arms the record (R379). -/
def execTblRec0ValidClear (p : Fin 16) (s : State) : Host.Outcome State Fault Refusal := .next (s.wr F.TBL_REC0_VALID p.val 0)

end Sys2Proof.Machine
end

