-- ==== Sys2Proof/Machine/Attention.lean ====
section
/-! DEFINITION. The attention engine (chapter 10): the pass descriptor and its checks, the page walk, the score, statistics and value
tiles, partials, gradients, and the end of a pass. A pass's stages are events; each has the condition of R305 as its guard. -/

namespace Sys2Proof.Machine

/-! ### Descriptor fields (R284 to R286) -/

def aMode (d : List Byte) : Nat := fieldAt d 0 1
def aFlag (d : List Byte) (k : Nat) : Bool := hasBit (fieldAt d 1 1) k
def aCausal (d : List Byte) : Bool := aFlag d 0
def aTree (d : List Byte) : Bool := aFlag d 1
def aLseOut (d : List Byte) : Bool := aFlag d 2
def aShelf (d : List Byte) : Bool := aFlag d 3
def aFmt (d : List Byte) : Nat := fieldAt d 2 1
def aHead (d : List Byte) : Nat := 2 ^ fieldAt d 3 1
def aNq (d : List Byte) : Nat := fieldAt d 5 1 + 1
def aNr (d : List Byte) : Nat := (fieldAt d 4 1 + 1) * aNq d
def aPBf (d : List Byte) : Bool := fieldAt d 6 1 = 1 || aFmt d = 2
def aCtx (d : List Byte) : Nat := fieldAt d 8 4
def aStages (d : List Byte) : Nat := fieldAt d 0x0F 1
def aLo (d : List Byte) : Nat := fieldAt d 0x10 4
def aHi (d : List Byte) : Nat := fieldAt d 0x14 4
def aRow (d : List Byte) (o : Nat) : Nat := fieldAt d o 2
def aParts (d : List Byte) : Nat := fieldAt d 0x4C 1
/-- Bytes of a token's key, staging rows of half a block, and rows of the query tile and of its outputs. -/
def aTokBytes (d : List Byte) : Nat := aHead d * kvBytes (aFmt d)
def aHalf (d : List Byte) : Nat := aTokBytes d / 4
def aQRows (d : List Byte) : Nat := (aNr d * aHead d + 255) / 256
def aORows (d : List Byte) (w : Nat) : Nat := (aNr d * aHead d * w + 511) / 512
def aOutWidth (d : List Byte) : Nat := if aMode d = 2 ∨ fieldAt d 7 1 = 0 then 4 else 2

/-- Row ranges that a mode uses, as (offset of the field, first row, rows), in the order of their offsets (R284 to R302). -/
def aRanges (d : List Byte) : List (Nat × Nat × Nat) :=
  let m := aMode d
  (if m = 3 then [] else [(0x30, aRow d 0x30, aQRows d)]) ++
  [(0x32, aRow d 0x32, if m = 1 then aORows d 4 + 2 else aORows d (aOutWidth d))] ++
  (if m = 2 ∨ ((m = 0 ∨ m = 3) ∧ aLseOut d = true) then [(0x34, aRow d 0x34, 1)] else []) ++
  [(0x36, aRow d 0x36, 1)] ++
  (if m = 3 then [(0x3A, aRow d 0x3A, aParts d * (aORows d 4 + 2))]
   else if aShelf d then [(0x3A, aRow d 0x3A, 2 * ((aHi d - aLo d) * aTokBytes d / 512))]
   else [(0x38, aRow d 0x38, aStages d * 2 * aHalf d)]) ++
  (if m = 2 then [(0x3C, aRow d 0x3C, aQRows d), (0x3E, aRow d 0x3E, 1)] else [])

/-- Whether a range reaches past the rows of the role, or overlaps one with a lower offset. -/
def rangeFails (limit : Nat) (rs : List (Nat × Nat × Nat)) (o : Nat) : Bool :=
  rs.any (fun r => r.1 == o && (decide (limit < r.2.1 + r.2.2) ||
    rs.any (fun q => decide (q.1 < o) && decide (q.2.1 < r.2.1 + r.2.2) && decide (r.2.1 < q.2.1 + q.2.2))))

/-- The descriptor check (R287, R302): the offset of the first failing field. `limit` is the first row past those of the role. -/
def passBad (limit : Nat) (d : List Byte) : Option Nat :=
  let m := aMode d
  let f (o n : Nat) : Nat := fieldAt d o n
  let three := m == 3
  let zero (o n : Nat) : Nat × Bool := (o, f o n != 0)
  let rowBad (o : Nat) (used : Bool) : Nat × Bool :=
    (o, if used then hasBit (aRow d o) 15 || rangeFails limit (aRanges d) o else aRow d o != 0)
  let shelf := aShelf d
  let checks : List (Nat × Bool) :=
    [(0x00, decide (3 < m)),
     (0x01, bitsAt (f 1 1) 4 4 != 0 || (three && (aCausal d || aTree d || shelf)) || (m == 1 && aLseOut d) ||
        (!three && aTree d && decide (8 < aNq d))),
     (0x02, if three then f 2 1 != 0 else decide (2 < f 2 1)),
     (0x03, decide (f 3 1 < 6) || decide (8 < f 3 1)),
     (0x04, decide (15 < f 4 1) || decide (128 < aNr d)),
     (0x05, decide (127 < f 5 1)),
     (0x06, if three then f 6 1 != 0 else decide (1 < f 6 1)),
     (0x07, decide (1 < f 7 1) || (m == 1 && f 7 1 != 0)),
     (0x08, (three || shelf) && f 8 4 != 0),
     (0x0C, three && f 0x0C 2 != 0),
     (0x0E, three && f 0x0E 1 != 0),
     (0x0F, if three || shelf then f 0x0F 1 != 0 else decide (f 0x0F 1 < 2) || decide (8 < f 0x0F 1)),
     (0x10, if three then f 0x10 4 != 0 else f 0x10 4 % 128 != 0),
     (0x14, if three then f 0x14 4 != 0
        else shelf && (f 0x14 4 == 0xFFFFFFFF || (aHi d - aLo d) * aTokBytes d % 512 != 0)),
     (0x18, three && f 0x18 4 != 0),
     (0x1C, three && f 0x1C 4 != 0),
     (0x20, three && f 0x20 8 != 0),
     (0x28, three && f 0x28 4 != 0),
     (0x2C, if three then f 0x2C 4 != 0 else rotBad (f 0x2C 4) (aHead d)),
     rowBad 0x30 (!three), rowBad 0x32 true, rowBad 0x34 (m == 2 || ((m == 0 || three) && aLseOut d)), rowBad 0x36 true,
     rowBad 0x38 (!three && !shelf), rowBad 0x3A (three || shelf), rowBad 0x3C (m == 2), rowBad 0x3E (m == 2),
     (0x40, if three then f 0x40 8 != 0 else m == 2 && (ptrTag (f 0x40 8) != 0 || f 0x40 8 % 512 != 0)),
     (0x48, three && f 0x48 4 != 0),
     (0x4C, three && (decide (f 0x4C 1 < 2) || decide (16 < f 0x4C 1))),
     zero 0x4D 3] ++ (List.range 0x1B0).map (fun k => zero (0x50 + k) 1)
  (checks.find? (fun c => c.2)).map (fun c => c.1)

/-! ### The pass of a core -/

/-- A core's pass, while its schedule is not aborting (R307). -/
def State.passOn (s : State) (c : Nat) : Option (Op × Pass) :=
  if (s.runsOf (corePdk c)).cause.isSome then none
  else s.sched.ops.findSome? (fun o => match o.kind with
    | .pass x => if o.core = c then some (o, x) else none
    | _ => none)
def State.setPass (s : State) (o : Op) (x : Pass) : State := s.setOp o.id (.pass x)

/-- Whether a pass uses ME: from its issue tick, or from the end of the tile that occupied it (R280). -/
def State.passHolds (s : State) (o : Op) (x : Pass) : Bool := decide (x.meFrom ≤ s.opTick o.core)
/-- The charge of a pass in a clock in which it advances (R281). -/
def State.passWeight (s : State) (c : Nat) : Nat :=
  match s.passOn c with
  | some (o, x) => if s.passHolds o x then 76 else 0
  | none => 0

/-- An abort of R311 is recorded in ATN_ERR0 to ATN_ERR3. -/
def State.atnErr (s : State) (o : Op) (kind offset token ctx status : Nat) : State :=
  let c := o.core
  let s :=
    if s.rd F.ATN_ERR0_VALID c = 1 then s
    else
      let s := (s.wr F.ATN_ERR0_VALID c 1).wr F.ATN_ERR0_KIND c kind
      let s := (s.wr F.ATN_ERR0_OFFSET c offset).wr F.ATN_ERR0_POSITION c o.position
      let s := (s.wr F.ATN_ERR1_TOKEN c token).wr F.ATN_ERR1_CTX c ctx
      (s.wr F.ATN_ERR2_TICK c (s.tickOf c)).wr F.ATN_ERR3_TIME c s.now
  s.abort (corePdk c) status

def pass0 (row meFrom : Nat) : Pass :=
  ⟨row, [], 0, meFrom, [], 0, none, [], [], [], 0, 0, 0, 0, [], 0, [], [], [], false, false, none, 0, none, [], 0, 0⟩

/-- ATTN_PASS (R279, R280): the pass starts and holds ME; its descriptor row is popped, or named, in the issue tick. -/
def execAttnPass (a : At) (s : State) : Host.Outcome State Fault Refusal :=
  .next (s.issueAs opcPass a (fun x s =>
    match s.takeRows x.c (rowField (bitsAt x.w 80 16)) 1 with
    | .error k => s.violation x.c k ((rowField (bitsAt x.w 80 16)).drawer.getD 0) x.st x.pos
    | .ok (s, rows) =>
      let free := max (s.opTick x.c) (tget 0 s.sched.busy [x.c, stME])
      let s := s.addOp x.c x.side x.st x.pos (bitsAt x.w 56 24) none (.pass (pass0 (nth rows 0) free))
      let s := (s.wr F.ATN_STAT_BUSY x.c 1).wr F.ATN_STAT_BLOCK x.c 0
      ((s.wr F.ATN_STAT_CTX x.c 0).wr F.ATN_STAT_MODE x.c 0).syncMxe x.c))

/-- Rows that a pass reads: their bytes in order, and whether one is poisoned; each is charged to the untimed part (R282). -/
def State.passRows (s : State) (c : Nat) (rows : List Nat) : List Byte × Bool :=
  (rows.flatMap (fun r => s.rowOf c r), rows.any (fun r => s.rowPoison c r))
def rowRun (first n : Nat) : List Nat := (List.range n).map (fun k => first + k)

/-- Key tokens of a pass end at TOK_HI or at the latched length (R289). -/
def Pass.hi (x : Pass) : Nat := if aHi x.desc = 0xFFFFFFFF then dLength x.ctx else aHi x.desc
def Pass.blocks (x : Pass) : Nat := (x.hi - aLo x.desc + 127) / 128

/-- The masks of R289 without dropped ranges. -/
def Pass.isMasked (x : Pass) (t kpos : Nat) : Bool :=
  let d := x.desc
  let q0 := fieldAt d 0x18 4
  let qpos := q0 + t
  let w := fieldAt d 0x1C 4
  !(decide (aLo d ≤ kpos) && decide (kpos < x.hi) && (!aCausal d || decide (kpos ≤ qpos)) &&
    (w = 0 || decide ((qpos : Int) - w < (kpos : Int))) &&
    (!aTree d || decide (kpos < q0) || decide (q0 + aNq d ≤ kpos) || hasBit (fieldAt d 0x20 8) (8 * t + (kpos - q0))))

/-- The leaf entry of a token through the latched root (R290). -/
def State.passLeaf (s : State) (p : Nat) (x : Pass) (tok : Nat) : Nat :=
  s.leaf p x.ctx (fieldAt x.desc 0x0C 2 * dHeads x.ctx + fieldAt x.desc 0x0E 1) (tok / dTokens x.ctx)
/-- Whether a token lies in a dropped range, and whether the pass reads it (R292, R293). A token that the pass does not read enters
the tiles as zeros (DESIGN CHOICE: log entry 24). -/
def State.tokDropped (s : State) (p : Nat) (x : Pass) (tok : Nat) : Bool :=
  !aShelf x.desc && eDropped (s.passLeaf p x tok) && !eValid (s.passLeaf p x tok)
def State.tokRead (s : State) (p : Nat) (x : Pass) (tok : Nat) : Bool :=
  decide (tok < x.hi) && (aShelf x.desc || eValid (s.passLeaf p x tok))

/-- Whether a key is visible to query index `t` (R289). -/
def State.visible (s : State) (p : Nat) (x : Pass) (t kpos : Nat) : Bool := !x.isMasked t kpos && !s.tokDropped p x kpos
/-- First token of block `k`; whether no key of it is visible to any row: then it is skipped. -/
def Pass.tok0 (x : Pass) (k : Nat) : Nat := aLo x.desc + 128 * k
def Pass.maskedBlock (x : Pass) (k : Nat) : Bool :=
  (List.range 128).all (fun j => (List.range (aNq x.desc)).all (fun t => x.isMasked t (x.tok0 k + j)))
def State.skipBlock (s : State) (p : Nat) (x : Pass) (k : Nat) : Bool :=
  (List.range 128).all (fun j => (List.range (aNq x.desc)).all (fun t => !s.visible p x t (x.tok0 k + j)))

def newBlk (k slot keys vals : Nat) : PassBlk := ⟨k, slot, keys, vals, none, none, [], [], [], []⟩

/-- The descriptor has been read (R287, R290, R291): it is checked, the context is latched, and with KV_SHELF every block that is
not skipped is at hand. -/
def State.passStart (s : State) (o : Op) (x : Pass) : State :=
  let c := o.core
  let p := corePdk c
  let d := (s.rowOf c x.row)
  let s := s.ucharge p 1
  match passBad (firstRow63 (s.role p)) d with
  | some off => s.atnErr o 0 off 0 (aCtx d) 0x650
  | none =>
    let x := { x with desc := d, poison := s.rowPoison c x.row }
    let s := (s.wr F.ATN_STAT_CTX c (aCtx d)).wr F.ATN_STAT_MODE c (aMode d)
    let ninf := fp32.infBits true
    let rows (v : Nat) : List Nat := List.replicate 128 v
    let x := { x with m := rows ninf, l := rows 0, o := List.replicate (128 * aHead d) 0 }
    if aMode d = 3 then s.setPass o x
    else if aShelf d then
      let ks := (List.range x.blocks).filter (fun k => !x.maskedBlock k)
      let s := s.bump F.ATN_SKIPPED_COUNT c 0 (x.blocks - ks.length)
      s.setPass o { x with blks := ks.map (fun k => newBlk k 0 0 0), skipped := x.blocks - ks.length }
    else
      let cx := s.desc p (aCtx d)
      if s.inQuota p (aCtx d) = false ∨ dValid cx = false ∨ dLayers cx ≤ fieldAt d 0x0C 2 ∨ dHeads cx ≤ fieldAt d 0x0E 1 ∨
          dFmt cx ≠ aFmt d ∨ 2 ^ dHead cx ≠ aHead d then s.atnErr o 1 0 0 (aCtx d) 0x651
      else
        let e := s.rd F.CTX_EPOCH_EPOCH p
        let s := (s.useDesc p (aCtx d)).latchUse p (aCtx d)
        let s := (s.wr F.ATN_LATCH_GEN c (dGen cx)).wr F.ATN_LATCH_LENGTH c (dLength cx)
        let s := s.wr F.ATN_EPOCH_EPOCH c e
        let x := { x with ctx := cx, epoch := e, poison := x.poison || s.kvPoisoned p (aCtx d) }
        (s.setPass o { x with todo := List.range x.blocks }).syncHeld p

/-! ### Fetching blocks (R292 to R294) -/

/-- First token of staging row `j` of block `k`'s keys or values. -/
def Pass.rowTok (x : Pass) (k j : Nat) : Nat := x.tok0 k + j * 512 / aTokBytes x.desc

/-- ATTN_BLOCK_FETCH (R294): blocks with no visible key are skipped; the next one is requested once its staging slot is free. A token
below the latched length whose entry is neither valid nor dropped aborts (R291); a dropped range is noted (R309); far pages are
counted once, with the first block that reads them. -/
def execAttnBlockFetch (core : Fin 128) (s : State) : Host.Outcome State Fault Refusal :=
  let c := core.val
  let p := corePdk c
  match s.passOn c with
  | none => .next s
  | some (o, x) =>
    let gone := x.todo.takeWhile x.maskedBlock
    let x := { x with todo := x.todo.drop gone.length, skipped := x.skipped + gone.length }
    let s := (s.bump F.ATN_SKIPPED_COUNT c 0 gone.length).setPass o x
    match x.todo with
    | [] => .next s
    | k :: rest =>
      let d := x.desc
      let slot := x.fetched % aStages d
      if x.blks.any (fun b => b.slot == slot) ∨ x.slots.any (fun y => y.1 == slot && decide (x.clk < y.2)) then .next s
      else
        let toks := (List.range 128).map (fun j => x.tok0 k + j)
        let mine := toks.filter (fun t => decide (t < x.hi))
        let bad := mine.find? (fun t => decide (t < dLength x.ctx) && !eValid (s.passLeaf p x t) && !s.tokDropped p x t)
        match bad with
        | some t => .next (s.atnErr o 2 0 t (aCtx d) 0x652)
        | none =>
          let t := dTokens x.ctx
          let x := match mine.find? (fun t => s.tokDropped p x t) with
            | some y => if x.stale.isSome then x else { x with stale := some (y / t * t, (y / t + 1) * t) }
            | none => x
          let x := { x with todo := rest }
          if s.skipBlock p x k then
            .next ((s.bump F.ATN_SKIPPED_COUNT c).setPass o { x with skipped := x.skipped + 1 })
          else
            let pages := (mine.filter (fun y => s.tokRead p x y && decide (farId ≤ ePage (s.passLeaf p x y)) &&
              (y % t == 0 || (x.fetched == 0 && y == x.tok0 k)))).length
            let s := s.bump F.ATN_FAR_PAGES_COUNT c 0 pages
            let far := mine.any (fun y => s.tokRead p x y && decide (farId ≤ ePage (s.passLeaf p x y)))
            let half := aHalf d
            let js := (List.range half).filter (fun j => s.tokRead p x (x.rowTok k j))
            let base := aRow d 0x38 + slot * 2 * half
            let b := newBlk k slot js.length js.length
            let s := s.setPass o { x with blks := x.blks ++ [b], fetched := x.fetched + 1, farSeen := x.farSeen || far }
            .next ([false, true].foldl (fun s vals => js.foldl (fun s j =>
              let y := x.rowTok k j
              let page := ePage (s.passLeaf p x y)
              let off := (if vals then 16384 else 0) + y % t * aTokBytes d
              s.addLine (readLine p (srcStream c stAE) (pagePtr page + off) 512
                (.pass o.id (base + (if vals then half else 0) + j)))) s) s)

/-- A fetched line of a pass has come: its row reaches the landing buffer. -/
def State.passLine (s : State) (id row : Nat) (bytes : List Byte) (poison : Bool) : State :=
  match s.findOp id with
  | none => s
  | some o =>
    match o.kind with
    | .pass x =>
      let s := s.setPass o { x with poison := x.poison || poison }
      { s with sched := { s.sched with arrivals := s.sched.arrivals ++ [⟨id, o.core, stAE, row, bytes, poison, none, 0⟩] } }
    | _ => s

/-- A line that a pass writes has been acknowledged (R304). -/
def State.passAck (s : State) (id : Nat) : State :=
  match s.findOp id with
  | none => s
  | some o =>
    match o.kind with
    | .pass x => s.setPass o { x with lines := x.lines - 1 }
    | _ => s

/-! ### Queries (R285, R295) -/

/-- An element as FP32 bits narrowed to E4M3 or BF16, RNE and SAT. -/
def narrow (f : FFmt) (v : Fp) : Nat := (toF32 (f.decode (f.write false false v).1)).1
/-- Element (r, c) of a BF16 stream of rows (R285). -/
def bfAt (bs : List Byte) (d r c : Nat) : Nat := fieldAt bs (2 * (d * r + c)) 2 * 2 ^ 16

/-- ATTN_QUERY_PREPARE (R295, R305): the queries are rotated at their positions and narrowed. -/
def execAttnQueryPrepare (core : Fin 128) (s : State) : Host.Outcome State Fault Refusal :=
  let c := core.val
  let p := corePdk c
  match s.passOn c with
  | none => .next s
  | some (o, x) =>
    let d := x.desc
    if d = [] ∨ aMode d = 3 ∨ x.ready.isSome ∨ x.clk < 12 + (aQRows d + 1) / 2 then .next s
    else
      let (bs, bad) := s.passRows c (rowRun (aRow d 0x30) (aQRows d))
      let f := if aFmt d = 2 ∨ aMode d = 2 then bf16 else e4m3
      let n := aHead d
      let q := (List.range (aNr d)).flatMap (fun r =>
        let pos := (fieldAt d 0x18 4 + r % aNq d) % 2 ^ 32
        (List.range n).map (fun j => narrow f (f32 (s.rotated p (fieldAt d 0x2C 4) pos (fun j => bfAt bs n r j) j))))
      .next ((s.ucharge p (aQRows d)).setPass o
        { x with q := q, poison := x.poison || bad, ready := some (x.clk + aNr d + 16) })

/-! ### Tiles of a pass (R296, R305, R306) -/

/-- The word of a tile of reduction depth `k` and formats `a`, `b`. -/
def passWord (a b k : Nat) : Nat := a * 2 ^ 33 + b * 2 ^ 29 + (k / 32 - 1) * 2 ^ 37

/-- A tile that a pass runs: rows of A, columns of B, upsets; its 128 × 128 elements by row as FP32 bits. Its rows are checked under
R208 to R212; a failure aborts (R213). -/
def State.passTile (s : State) (o : Op) (w : Nat) (as bs : List (List Fp)) (upsets : List (Nat × Nat)) (poison : Bool) :
    State × List (List Nat) :=
  let t : Tile := ⟨w, 0, 0, s.rd F.MXE_PCFG_CHK_T (corePdk o.core), [], []⟩
  let rows := (List.range 128).map (fun m =>
    (List.range 128).map (fun n =>
      let e := t.element (.fin 0 0) (((as[m]?).getD []).zip ((bs[n]?).getD []) |>.map (fun x => x.1.mul x.2))
      match upsets.find? (fun u => u.1 == 128 * m + n) with
      | some u => e.upset false false u.2
      | none => e))
  let checks := (List.range 128).map (fun m =>
    if poison then RowCheck.skip
    else rowCheck t (Config.rowCheckEdge (s.free + m)) ((rows[m]?).getD []) (List.replicate 128 (.fin 0 0)) [(as[m]?).getD []]
      (bs.map (fun b => [b])))
  let s : State := { s with free := s.free + 128 }
  (s.tileChecks o t ⟨rows, checks⟩, rows.map (fun l => l.map (fun e => e.hi)))

/-- Format codes of a pass's score and value tiles (R296, R303). -/
def aQkWord (d : List Byte) : Nat :=
  if aMode d = 2 ∨ aFmt d = 2 then passWord 10 10 (aHead d) else passWord 0 (aFmt d) (aHead d)
def aPvWord (d : List Byte) : Nat :=
  if aMode d = 2 ∨ aPBf d then passWord 10 10 128 else passWord 0 (aFmt d) 128
/-- Tiles that cover the columns of a head. -/
def aTiles (d : List Byte) : Nat := (aHead d + 127) / 128

/-- Keys or values of a block: 128 tokens of d elements, zeros where the token is not read; with the poison of the rows read. -/
def State.kvBlock (s : State) (c : Nat) (x : Pass) (b : PassBlk) (vals : Bool) : List (List Fp) × Bool :=
  let d := x.desc
  let p := corePdk c
  let t := aTokBytes d
  let n := kvBytes (aFmt d)
  let total := (aHi d - aLo d) * t / 512
  let first := if aShelf d then aRow d 0x3A + 128 * b.k * t / 512 + (if vals then total else 0)
    else aRow d 0x38 + b.slot * 2 * aHalf d + (if vals then aHalf d else 0)
  let dec (v : Nat) : Fp := if aFmt d = 0 then e4m3.decode v else if aFmt d = 1 then e5m2.decode v else bf16.decode v
  let js := (List.range (aHalf d)).filter (fun j => s.tokRead p x (x.rowTok b.k j))
  let rows (j : Nat) : List Byte := s.rowOf c (first + j)
  ((List.range 128).map (fun u =>
    if s.tokRead p x (x.tok0 b.k + u) then
      let r := rows (u * t / 512)
      (List.range (aHead d)).map (fun e => dec (fieldAt r (u * t % 512 + n * e) n))
    else List.replicate (aHead d) (.fin 0 0)), js.any (fun j => s.rowPoison c (first + j)))

/-- Columns of a list of rows. -/
def columns (rows : List (List Fp)) (n : Nat) : List (List Fp) :=
  (List.range n).map (fun c => rows.map (fun r => (r[c]?).getD (.fin 0 0)))
/-- Rows of `n` values from a flat list of FP32 bits. -/
def rowsOfBits (l : List Nat) (k n : Nat) : List (List Fp) :=
  (List.range k).map (fun r => (List.range n).map (fun c => f32 (nth l (n * r + c))))

/-- Whether the next QK tile may issue (R305): queries prepared, key rows committed, ME free, and no more than one block ahead of the
value tiles (none in a backward pass, which runs its five tiles block by block). -/
def Pass.qkNext (x : Pass) : Option PassBlk :=
  let ahead := (x.blks.filter (fun b => b.qkAt.isSome)).length
  match x.blks.find? (fun b => b.qkAt.isNone), x.ready with
  | some b, some t =>
    if t ≤ x.clk ∧ x.meFree ≤ x.clk ∧ b.keys = 0 ∧ (aMode x.desc = 2 → b.vals = 0) ∧
        ahead < (if aMode x.desc = 2 then 1 else 2) then some b else none
  | _, _ => none

def Pass.setBlk (x : Pass) (b : PassBlk) : Pass := { x with blks := x.blks.map (fun y => if y.k = b.k then b else y) }

/-- ATTN_QK_TILE (R296, R303, R305): the score tile of the next block, and in a backward pass the tile of dP after it. -/
def execAttnQkTile (core : Fin 128) (upsets : List (Nat × Nat)) (s : State) : Host.Outcome State Fault Refusal :=
  let c := core.val
  match s.passOn c with
  | none => .next s
  | some (o, x) =>
    match x.qkNext with
    | none => .next s
    | some b =>
      if s.passHolds o x = false then .next s
      else
        let d := x.desc
        let w := aQkWord d
        let n := aHead d
        let (keys, bad) := s.kvBlock c x b false
        let (s, raw) := s.passTile o w (rowsOfBits x.q 128 n) keys upsets (x.poison || bad)
        let back := aMode d = 2
        let (vals, bad2) := if back then s.kvBlock c x b true else ([], false)
        let dO := s.passRows c (rowRun (aRow d 0x3C) (aQRows d))
        let dRows := (List.range 128).map (fun r =>
          (List.range n).map (fun j => if r < aNr d then f32 (bfAt dO.1 n r j) else .fin 0 0))
        let (s, dp) := if back then
            s.passTile o w dRows vals (upsets.filterMap (fun u => if 16384 ≤ u.1 then some (u.1 - 16384, u.2) else none)) (x.poison || bad2)
          else (s, [])
        let steps := if back then 2 * tStream w else tStream w
        let x := { x with
          poison := x.poison || bad || bad2 || (back && dO.2)
          meFree := x.clk + steps
          lastClaim := x.clk + steps + 136 }
        .next (s.setPass o (x.setBlk { b with
          qkAt := some (x.clk + steps + 136), raw := raw.flatMap id, dp := dp.flatMap id }))

/-! ### Row statistics (R297, R298, R303) -/

/-- exp2 of the row-statistics unit: the native EXP2 at FT 0, and the native RCP and LOG2 (R253, R297, R299). -/
def unitOf (op : Nat) (v : Fp) : Fp := f32 (sfuResult op 0 (toF32 v).1).1

/-- What R297 makes of one row of a block: m, l, alpha and the narrowed P, from m, l and the visible logits by key. -/
def rowStats (f : FFmt) (m l : Fp) (logits : List (Option Fp)) : Fp × Fp × Fp × List Nat :=
  let ninf : Fp := .inf true
  let mb := logits.foldl (fun a s => match s with | some v => Fp.max a v | none => a) ninf
  let mNew := Fp.max m mb
  let dead := mNew == ninf
  let alpha := if dead then .fin 1 0 else unitOf sfExp2 (rne32 (m.add mNew.neg))
  let pn := logits.map (fun s => match s with
    | some v => if dead then 0 else narrow f (unitOf sfExp2 (rne32 (v.add mNew.neg)))
    | none => 0)
  let sum := tree (fun a b => rne32 (a.add b)) (.fin 0 0) 7 (pn.map f32)
  (mNew, rne32 ((alpha.mul l).add sum), alpha, pn)

/-- The logits of row `r` of a block that are visible to it (R289, R296). -/
def State.logits (s : State) (c : Nat) (x : Pass) (b : PassBlk) (r : Nat) : List (Option Fp) :=
  let scale := f32 (fieldAt x.desc 0x28 4)
  (List.range 128).map (fun j =>
    if s.visible (corePdk c) x (r % aNq x.desc) (x.tok0 b.k + j) then some (rne32 (scale.mul (f32 (nth b.raw (128 * r + j))))) else none)

/-- ATTN_ROW_STATISTICS (R297, R303, R305): at the QK claim of the oldest block whose P is not computed. -/
def execAttnRowStatistics (core : Fin 128) (s : State) : Host.Outcome State Fault Refusal :=
  let c := core.val
  match s.passOn c with
  | none => .next s
  | some (o, x) =>
    match x.blks.find? (fun b => b.pAt.isNone && b.qkAt.any (fun t => decide (t ≤ x.clk))) with
    | none => .next s
    | some b =>
      let d := x.desc
      let rows := List.range 128
      let s := s.wr F.ATN_STAT_BLOCK c (min b.k 0xFFFF)
      let done := some (x.clk + aNr d + 14)
      if aMode d = 2 then
        let lse := s.passRows c [aRow d 0x34]
        let dr := s.passRows c [aRow d 0x3E]
        let res : List (List Nat × List Nat × Bool) := rows.map (fun r =>
          let l := f32 (fieldAt lse.1 (4 * r) 4)
          let lg := if r < aNr d then s.logits c x b r else []
          let p := (List.range 128).map (fun j => match (lg[j]?).getD none with
            | some v => if l == .inf true then (.fin 0 0 : Fp) else unitOf sfExp2 (rne32 (v.add l.neg))
            | none => .fin 0 0)
          let ds := (List.range 128).map (fun j =>
            let q := (p[j]?).getD (.fin 0 0)
            if r < aNr d then rne32 (q.mul (rne32 ((f32 (nth b.dp (128 * r + j))).add (f32 (fieldAt dr.1 (4 * r) 4)).neg))) else .fin 0 0)
          (p.map (narrow bf16), ds.map (narrow bf16), lg.any Option.isSome))
        let l := rows.map (fun r => if ((res[r]?).map (fun y => y.2.2)).getD false then 0x3F800000 else nth x.l r)
        let pn := res.flatMap (fun y => y.1)
        let dp := res.flatMap (fun y => y.2.1)
        .next (s.setPass o (({ x with l := l, poison := x.poison || lse.2 || dr.2 }).setBlk { b with
          pAt := done
          pn := pn
          dp := dp }))
      else
        let f := if aPBf d then bf16 else e4m3
        let res : List (Fp × Fp × Fp × List Nat) := rows.map (fun r =>
          if r < aNr d then rowStats f (f32 (nth x.m r)) (f32 (nth x.l r)) (s.logits c x b r)
          else (f32 (nth x.m r), f32 (nth x.l r), .fin 1 0, List.replicate 128 0))
        let pn := res.flatMap (fun y => y.2.2.2)
        let alpha := res.map (fun y => (toF32 y.2.2.1).1)
        let ms := res.map (fun y => (toF32 y.1).1)
        let ls := res.map (fun y => (toF32 y.2.1).1)
        .next (s.setPass o (({ x with m := ms, l := ls }).setBlk { b with
          pAt := done
          pn := pn
          alpha := alpha }))

/-! ### Value tiles (R296, R297, R303, R304) -/

/-- The block whose value tiles are next (R305): P ready, value rows committed, ME free, and the QK tile of the next block issued
where there is a next one. -/
def Pass.pvNext (x : Pass) : Option PassBlk :=
  match x.blks with
  | [] => none
  | b :: rest =>
    let follows := aMode x.desc = 2 || rest.any (fun y => y.qkAt.isSome) || (rest == [] && x.todo == [])
    if b.pAt.any (fun t => decide (t ≤ x.clk)) ∧ b.vals = 0 ∧ x.meFree ≤ x.clk ∧ follows = true then some b else none

/-- Several tiles over the columns of `bs`, 128 at a time: the first `n` elements of each row. -/
def State.passTiles (s : State) (o : Op) (w : Nat) (as bs : List (List Fp)) (n base : Nat) (upsets : List (Nat × Nat)) (poison : Bool) :
    State × List (List Nat) :=
  (List.range ((n + 127) / 128)).foldl (fun (r : State × List (List Nat)) j =>
    let ups := upsets.filterMap (fun u => if u.1 / 16384 = base + j then some (u.1 % 16384, u.2) else none)
    let t := r.1.passTile o w as ((bs.drop (128 * j)).take 128) ups poison
    (t.1, (List.range 128).map (fun m => ((r.2[m]?).getD [] ++ (t.2[m]?).getD []).take n))) (s, List.replicate 128 [])

/-- The lines of a block's gradients (R304): dK, then dV, of 128 tokens each. -/
def State.gradLines (s : State) (o : Op) (x : Pass) (k : Nat) (bytes : List Byte) : State :=
  let p := corePdk o.core
  let ptr := fieldAt x.desc 0x40 8 + k * 1024 * aHead x.desc
  let n := bytes.length / 512
  let st := s.checkRunPtr p ptr bytes.length true
  if st ≠ 0 then s.abort p st
  else
    let s := s.setPass o { x with lines := x.lines + n }
    loopN n (fun j s => s.addLine (storeLine p (srcStream o.core stAE) (ptr + 512 * j) ((bytes.drop (512 * j)).take 512) x.poison
      (.pass o.id 0))) s

/-- The rows of a list of lists of bits, transposed, as values. -/
def transposed (l : List Nat) : List (List Fp) := columns (rowsOfBits l 128 128) 128

/-- ATTN_PV_TILE (R297, R303, R304, R305): the value tiles of the oldest block; in a backward pass its dV, dK and dQ tiles. The
block's slot is released in the tick after the last value row has been read. -/
def execAttnPvTile (core : Fin 128) (upsets : List (Nat × Nat)) (s : State) : Host.Outcome State Fault Refusal :=
  let c := core.val
  match s.passOn c with
  | none => .next s
  | some (o, x) =>
    match x.pvNext with
    | none => .next s
    | some b =>
      let d := x.desc
      let n := aHead d
      let w := aPvWord d
      let tiles := if aMode d = 2 then 3 * aTiles d else aTiles d
      let lastRead := (tiles - 1) * tStream w + ((operandReads w 1).foldl (fun m r => max m r.1) 0) + 1
      let s := s.bump F.ATN_BLOCKS_COUNT c
      let x := { x with
        blks := x.blks.drop 1
        done := x.done + 1
        slots := (b.slot, x.clk + lastRead) :: x.slots.filter (fun y => y.1 != b.slot)
        meFree := x.clk + tiles * tStream w
        lastClaim := x.clk + tiles * tStream w + 136 }
      if aMode d = 2 then
        let (keys, bad) := s.kvBlock c x b false
        let dO := s.passRows c (rowRun (aRow d 0x3C) (aQRows d))
        let rows (f : Nat → Nat → Nat) : List (List Fp) := (List.range 128).map (fun r =>
          (List.range n).map (fun j => if r < aNr d then f32 (f r j) else .fin 0 0))
        let g := f32 (fieldAt d 0x48 4)
        let poison := x.poison || bad
        let (s, dv) := s.passTiles o w (transposed b.pn) (columns (rows (bfAt dO.1 n)) n) n 0 upsets poison
        let (s, dk) := s.passTiles o w (transposed b.dp) (columns (rows (fun r j => nth x.q (n * r + j))) n) n (aTiles d) upsets poison
        let (s, dq) := s.passTiles o w (rowsOfBits b.dp 128 128) (columns keys n) n (2 * aTiles d) upsets poison
        let seen (u : Nat) : Bool := (List.range (aNq d)).any (fun t => s.visible (corePdk c) x t (x.tok0 b.k + u))
        let at_ (m : List (List Nat)) (u j : Nat) : Nat := if seen u then nth ((m[u]?).getD []) j else 0
        let idx := (List.range 128).flatMap (fun u => (List.range n).map (fun j => (u, j)))
        let dkv := idx.map (fun y => toF32 (g.mul (f32 (at_ dk y.1 y.2)))) ++ idx.map (fun y => toF32 (f32 (at_ dv y.1 y.2)))
        let o' := idx.map (fun y => (toF32 ((f32 (nth x.o (n * y.1 + y.2))).add (f32 (nth ((dq[y.1]?).getD []) y.2)))).1)
        let x := { x with o := o', poison := poison }
        let s := if poison then s else s.countOutputs (corePdk c) o.side (dkv.map (fun y => y.2))
        .next ((s.setPass o x).gradLines o x b.k (dkv.flatMap (fun y => leBytes y.1 4)))
      else
        let (vals, bad) := s.kvBlock c x b true
        let poison := x.poison || bad
        let (s, pv) := s.passTiles o w (rowsOfBits b.pn 128 128) (columns vals n) n 0 upsets poison
        let o' := (List.range 128).flatMap (fun r => (List.range n).map (fun j =>
          if r < aNr d then
            (toF32 (((f32 (nth b.alpha r)).mul (f32 (nth x.o (n * r + j)))).add (f32 (nth ((pv[r]?).getD []) j)))).1
          else 0))
        .next (s.setPass o { x with o := o', poison := poison })

/-! ### The end of a pass (R299 to R302, R308 to R310) -/

/-- Mode 3: m, l and o of row `r` from the records (R302). -/
def combineParts (parts : List (Fp × Fp × List Fp)) (n : Nat) : Fp × Fp × List Fp :=
  let ninf : Fp := .inf true
  let mm := parts.foldl (fun a y => Fp.max a y.1) ninf
  if mm == ninf then (ninf, .fin 0 0, List.replicate n (.fin 0 0))
  else
    let w (y : Fp × Fp × List Fp) : Fp := if y.1 == ninf then .fin 0 0 else unitOf sfExp2 (rne32 (y.1.add mm.neg))
    (mm, parts.foldl (fun l y => rne32 (((w y).mul y.2.1).add l)) (.fin 0 0),
      (List.range n).map (fun c => parts.foldl (fun o y => rne32 (((w y).mul ((y.2.2[c]?).getD (.fin 0 0))).add o)) (.fin 0 0)))

/-- The records of a mode-3 pass: for each row its m, l and o, with the poison of the rows read. -/
def State.readParts (s : State) (c : Nat) (d : List Byte) : (List (List (Fp × Fp × List Fp))) × Bool :=
  let rows := aORows d 4
  let n := aHead d
  let recs := (List.range (aParts d)).map (fun q => s.passRows c (rowRun (aRow d 0x3A + q * (rows + 2)) (rows + 2)))
  ((List.range (aNr d)).map (fun r => recs.map (fun y =>
    let v (o : Nat) : Fp := f32 (fieldAt y.1 o 4)
    (v (512 * rows + 4 * r), v (512 * rows + 512 + 4 * r), (List.range n).map (fun j => v (4 * (n * r + j)))))), recs.any (fun y => y.2))

/-- An output element of a value in FP32 or BF16 (R299, R310): bytes and category. -/
def attnElem (width : Nat) (v : Fp) : List Byte × NumCat :=
  let a := toF32 v
  if width = 4 then (leBytes a.1 4, a.2)
  else
    let b := bf16.write false false (f32 a.1)
    (leBytes b.1 2, if b.1 % 2 ^ 15 = 0 ∧ v.isZero = false ∧ v.isFin = true then .flush else b.2)

/-- Rows of 512 bytes of a stream, the last zero-filled. -/
def streamRows (first : Nat) (bs : List Byte) : List (Nat × List Byte) :=
  (List.range ((bs.length + 511) / 512)).map (fun k => (first + k, padRow ((bs.drop (512 * k)).take 512)))

/-- The status row (R308). -/
def Pass.statusRow (x : Pass) (masked : Nat) : List Byte :=
  let st := x.stale.getD (0, 0)
  padRow (leBytes (if x.stale.isSome then 0x170 else 0) 2 ++ leBytes (b2n x.stale.isSome + 2 * b2n x.farSeen + 4 * b2n x.poison) 2 ++
    leBytes masked 4 ++ leBytes (aCtx x.desc) 4 ++ leBytes (dLength x.ctx) 4 ++ leBytes st.1 4 ++ leBytes st.2 4 ++
    leBytes (dGen x.ctx) 4 ++ leBytes x.done 4 ++ leBytes x.epoch 8 ++ leBytes x.skipped 4 ++ leBytes 0 4)

/-- ATTN_FINAL_SCALING (R299, R301 to R305): after the last claim, outputs, LSE or partials, and the status row are formed. -/
def execAttnFinalScaling (core : Fin 128) (s : State) : Host.Outcome State Fault Refusal :=
  let c := core.val
  match s.passOn c with
  | none => .next s
  | some (o, x) =>
    let d := x.desc
    let m := aMode d
    let n := aHead d
    let nr := aNr d
    let waits := d = [] || x.scaled.isSome || x.todo != [] || x.blks != [] || decide (x.clk < x.lastClaim) ||
      (if m = 3 then decide (x.clk < 12 + (aParts d * (aORows d 4 + 2) + 1) / 2) else !(x.ready.any (fun t => decide (t ≤ x.clk))))
    if waits then .next s
    else
      let parts := if m = 3 then s.readParts c d else ([], false)
      let rows : List (Fp × Fp × List Fp) := (List.range nr).map (fun r =>
        if m = 3 then combineParts ((parts.1[r]?).getD []) n
        else (f32 (nth x.m r), f32 (nth x.l r), (List.range n).map (fun j => f32 (nth x.o (n * r + j)))))
      let x := { x with poison := x.poison || parts.2 }
      let masked := (rows.filter (fun y => y.2.1.isZero)).length
      let elems : List (List Byte × NumCat) :=
        if m = 1 then rows.flatMap (fun y => y.2.2.map (attnElem 4))
        else if m = 2 then rows.flatMap (fun y => y.2.2.map (fun v => attnElem 4 ((f32 (fieldAt d 0x48 4)).mul v)))
        else rows.flatMap (fun y =>
          let k := unitOf sfRcp y.2.1
          y.2.2.map (fun v => if y.2.1.isZero then (List.replicate (aOutWidth d) 0, NumCat.plain)
            else if aOutWidth d = 4 then attnElem 4 (v.mul k) else attnElem 2 (v.mul k)))
      let tail (f : Fp × Fp × List Fp → Fp) : List (List Byte × NumCat) := rows.map (fun y => attnElem 4 (f y))
      let lse := tail (fun y => if y.2.1.isZero then .inf true else rne32 (y.1.add (unitOf sfLog2 y.2.1)))
      let bytes (l : List (List Byte × NumCat)) : List Byte := l.flatMap (fun e => e.1)
      let body := streamRows (aRow d 0x32) (bytes elems)
      let extra : List (List (List Byte × NumCat) × Nat) :=
        if m = 1 then [(tail (fun y => y.1), aRow d 0x32 + aORows d 4), (tail (fun y => y.2.1), aRow d 0x32 + aORows d 4 + 1)]
        else if m ≠ 2 ∧ aLseOut d = true then [(lse, aRow d 0x34)] else []
      let cats := (elems ++ extra.flatMap (fun e => e.1)).map (fun e => e.2)
      let s := s.bump F.ATN_MASKED_ROWS_COUNT c 0 masked
      let s := if x.poison then s else s.countOutputs (corePdk c) o.side cats
      let outs := body ++ extra.map (fun e => (e.2, padRow (bytes e.1))) ++ [(aRow d 0x36, x.statusRow masked)]
      let ends := if m = 0 ∨ m = 3 then x.clk + nr + 14 else x.clk
      .next (s.setPass o { x with masked := masked, scaled := some ends, outs := outs })

/-- ATTN_PASS_COMPLETE (R280, R305, R309): every write has committed, so the completion action is applied, the epoch is released and
ME and AE are free; a stale pass is counted, recorded and named in its run's completion. -/
def execAttnPassComplete (core : Fin 128) (s : State) : Host.Outcome State Fault Refusal :=
  let c := core.val
  match s.passOn c with
  | none => .next s
  | some (o, x) =>
    if x.scaled.isNone ∨ x.outs ≠ [] ∨ 0 < x.landing ∨ 0 < x.lines then .next s
    else
      let p := corePdk c
      let s := match x.stale with
        | none => s
        | some (lo, hi) =>
          let s := s.bump F.ATN_STALE_COUNT c
          let s := s.setRuns p ((s.runsOf p).tallyIn o.side (fun t => t.addStale (aCtx x.desc) lo hi))
          if s.rd F.ATN_STALE0_VALID c = 1 then s
          else
            let s := (s.wr F.ATN_STALE0_VALID c 1).wr F.ATN_STALE0_CTX c (aCtx x.desc)
            (s.wr F.ATN_STALE1_STALE_LO c lo).wr F.ATN_STALE1_STALE_HI c hi
      let s := (s.wr F.ATN_STAT_BUSY c 0).wr F.ATN_EPOCH_EPOCH c 0
      .next (((s.bump F.ATN_PASSES_COUNT c).completeOp o).syncHeld p |>.syncMxe c)

/-- A write of 1 to ATN_STALE0.VALID re-arms the record (R312). -/
def execAtnStale0ValidClear (core : Fin 128) (s : State) : Host.Outcome State Fault Refusal :=
  .next (s.wr F.ATN_STALE0_VALID core.val 0)

/-! ### The clock of a pass (R281) -/

/-- A clock in which the core's pass advances: in the sixth its descriptor returns (R47); from the end of its final scaling on it
writes one row a clock, the status row once the others have committed. -/
def State.passClock (s : State) (c : Nat) : State :=
  match s.passOn c with
  | none => s
  | some (o, x) =>
    let x := { x with clk := x.clk + 1 }
    if x.clk = 6 then s.passStart o x
    else
      match x.outs, x.scaled with
      | y :: rest, some t =>
        if t ≤ x.clk ∧ (rest ≠ [] ∨ x.landing = 0) then
          let s := s.setPass o { x with outs := rest, landing := x.landing + 1 }
          { s with sched := { s.sched with arrivals := s.sched.arrivals ++ [⟨o.id, c, stAE, y.1, y.2, x.poison, none, 0⟩] } }
        else s.setPass o x
      | _, _ => s.setPass o x

end Sys2Proof.Machine
end

