-- ==== Sys2Proof/Machine/LineDone.lean ====
section
/-! DEFINITION. What the end of a line transaction means to the work that asked for it (R389), acknowledgements (R573), remote reads
(R576) and the page server (R582, R583). -/

namespace Sys2Proof.Machine

/-! ### The page server and remote reads -/

/-- Most requests that a page server serves at once (R582). -/
def serverJobs : Nat := 64

def State.setJob (s : State) (j : PageJob) : State :=
  { s with net := { s.net with jobs := s.net.jobs.map (fun x => if x.id = j.id then j else x) } }

/-- A job whose rows have all been sent ends: a page is acknowledged with T_p, and its epoch is released (R326, R582). -/
def State.jobRow (s : State) (id : Nat) : State :=
  match s.net.jobs.find? (fun j => j.id == id) with
  | none => s
  | some j =>
    if 1 < j.left then s.setJob { j with left := j.left - 1 }
    else
      let s : State := { s with net := { s.net with jobs := s.net.jobs.filter (fun x => x.id != id) } }
      (if j.msg.kind = 5 then s.ackMsg j.msg j.status j.tokens 64 else s).syncHeld j.pdk

/-- Line `k` of a job goes to its requester as READ_DATA (R572); FLAGS bit 0 carries poison (DESIGN CHOICE: log entry 17). With no
usable path nothing is sent. -/
def State.sendRead (s : State) (id k : Nat) (bytes : List Byte) (poison : Bool) : State :=
  match s.net.jobs.find? (fun j => j.id == id) with
  | none => s
  | some j =>
    match s.choosePath j.msg.srcDev 0 true with
    | .error _ => s.jobRow id
    | .ok port =>
      let m := { s.mkMsg j.pdk 6 j.msg.srcDev j.msg.srcPdk j.msg.aux k (if j.msg.kind = 5 then 63 else j.msg.n) 0 0 (padRow bytes) with
        flags := b2n poison }
      s.addLine (msgLine j.pdk srcServer port m (.serve id k))

/-- A job begins. -/
def State.addJob (s : State) (m : Msg) (epoch left status tokens : Nat) : State :=
  let s : State := { s with net := { s.net with
    nextJob := s.net.nextJob + 1
    jobs := s.net.jobs ++ [⟨s.net.nextJob, m.dstPdk, m, epoch, left, status, tokens⟩] } }
  s.syncHeld m.dstPdk

/-- Address and length of line `j` of a READ_REQ. -/
def reqPiece (a j : Nat) : Nat × Nat :=
  let x := if j = 0 then a else (a / 512 + j) * 512
  (x, 512 - x % 512)

/-- READ_REQ_RECEIVE (R382, R576): the lines are read through the paddock's own line transactions and sent back. -/
def execReadReqReceive (port : Option (Fin 12)) (m : Msg) (s : State) : Host.Outcome State Fault Refusal :=
  s.receiveMsg port m 4 (fun _ s =>
    let p := m.dstPdk
    let a := ptrAddr m.target
    let last := reqPiece a m.n
    let st := firstStatus [failIf (decide (localEnd < last.1 + last.2) || decide (2 ^ 48 ≤ m.target)) 0x400, s.resourceStatus p a]
    if st ≠ 0 then s.ackMsg m st
    else
      let id := s.net.nextJob
      let s := s.addJob m 0 (m.n + 1) 0 0
      loopN (m.n + 1) (fun j s =>
        let x := reqPiece a j
        s.addLine (readLine p srcServer x.1 x.2 (.serve id (m.k + j)))) s)

/-- PAGE_REQ_RECEIVE (R582, R583): the server latches epoch and root, resolves the page and reads its 64 rows. The request waits
while 64 are served. -/
def execPageReqReceive (port : Option (Fin 12)) (m : Msg) (s : State) : Host.Outcome State Fault Refusal :=
  let p := m.dstPdk
  if serverJobs ≤ (s.net.jobs.filter (fun j => j.pdk == p && j.msg.kind == 5)).length then .next s
  else
    s.receiveMsg port m 5 (fun _ s =>
      if s.rd F.RTE_PCFG_PSERVER_EN p = 0 ∨ s.role p ≠ 2 then s.ackMsg m 0x82A
      else
        let c := bitsAt m.target 42 16
        let s := if s.inQuota p c then (s.useDesc p c).latchUse p c else s
        let d := s.desc p c
        let layer := bitsAt m.target 30 12
        let head := bitsAt m.target 22 8
        let e := s.leaf p d (layer * dHeads d + head) (bitsAt m.target 0 22)
        let known := s.inQuota p c && dValid d && decide (layer < dLayers d) && decide (head < dHeads d)
        if known = false ∨ (eValid e = false ∧ eDropped e = false) then s.ackMsg m 0x828
        else
          let id := s.net.nextJob
          let s := s.addJob m (s.rd F.CTX_EPOCH_EPOCH p) 64 (if eValid e then 0 else 0x170) (dTokens d)
          if eValid e then
            loopN 64 (fun k s => s.addLine (readLine p srcServer (pagePtr (ePage e) + 512 * k) 512 (.serve id k))) s
          else loopN 64 (fun k s => s.sendRead id k (List.replicate 512 0) false) s)

/-! ### Acknowledgements (R573) -/

/-- Whether a transfer number is a mirror message's (log entry 16). -/
def isMirrorXid (x : Nat) : Bool := decide (0x40000000 ≤ x) && decide (x < 0x80000000)

/-- ACK_RECEIVE (R573, R583, R586): the acknowledgement of a transfer, of a mirror message or of a command's message. -/
def execAckReceive (port : Option (Fin 12)) (m : Msg) (s : State) : Host.Outcome State Fault Refusal :=
  let status := bitsAt m.target 0 16
  if isMirrorXid m.xid then
    match s.takeMsg port m 7 with
    | none => .next s
    | some s =>
      let p := m.dstPdk
      if s.rd F.RTE_PCFG_PEER_DEV p = m.srcDev ∧ isError status = false then .next (s.mirrorAcked p m.xid) else .next s
  else
    s.receiveMsg port m 7 (fun _ s =>
      match s.findOp m.xid with
      | none => s
      | some o =>
        if corePdk o.core ≠ m.dstPdk then s
        else
          match o.kind with
          | .outb _ => s.outAck o.id status
          | .fetch _ => s.fetchAck o.id status (bitsAt m.target 32 32)
          | .append _ => s.appendAck o.id status
          | _ => s)

/-! ### LINE_TRANSACTION_COMPLETE -/

/-- What the end of a read means: its data go where the request asked for them. -/
def State.readDone (s : State) (l : Line) (bytes : List Byte) (poison : Bool) : State :=
  match l.use with
  | .fetch id k off => s.fetchPart id (512 * k + off) bytes poison
  | .table id bag idx off => s.tablePart id bag idx off bytes poison
  | .pass id row => s.passLine id row bytes poison
  | .serve id k => s.sendRead id k bytes poison
  | _ => s

/-- What the end of a write or of a message means. -/
def State.writeDone (s : State) (l : Line) : State :=
  match l.use with
  | .outb id _ => s.outAck id l.dead
  | .append id _ => s.rowLineDone id l
  | .pass id _ => s.passAck id
  | .serve id _ => s.jobRow id
  | _ => s

/-- LINE_TRANSACTION_COMPLETE (R389, R390): read data land or a write is done, and the transaction is released. -/
def execLineTransactionComplete (p : Fin 16) (idx : Nat) (ret : Fetched) (errs : List SecErr) (s : State) :
    Host.Outcome State Fault Refusal :=
  match (s.issuedLines p.val)[idx]? with
  | none => .next s
  | some l =>
    if l.canEnd = false then .next s
    else if l.msg.isSome then .next ((s.dropLine l).writeDone l)
    else if l.write then .next (((s.lineWrite l).dropLine l).writeDone l)
    else
      let (s, d) := s.lineRead l ret errs
      .next ((s.dropLine l).readDone l d.1 d.2)

end Sys2Proof.Machine
end

