-- ==== Sys2Proof/Machine/Clock.lean ====
section
/-! DEFINITION. A core clock (log entry 2): ticks, slips and stalls of the cores (R80, R91, R94, R721), the timed accesses of a tick
(R45, R47), the governor and droop stretches (R117 to R122, R129), and the counters that count clocks. A clock passes only
when no event of the present clock is still to come as a command. -/

namespace Sys2Proof.Machine

/-! ### What the present clock still waits for -/

/-- Whether a stream of a core is to retire: its END has issued, its operations have completed (R110). -/
def State.retireDue (s : State) (c : Nat) : Bool :=
  (s.runsOn c).any (fun r => (List.range 12).any (fun st =>
    let y := s.streamOf c r.side st
    y.ended && y.outst == 0 && !s.hasRet c r.side st))

/-- Whether the tail check of a core is to be made (R108). -/
def State.tailDue (s : State) (c : Nat) : Bool :=
  (s.runsOf (corePdk c)).running.any (fun r =>
    match s.imageOn c r, s.headOf c r.side with
    | some im, some hd => !(tget false s.sched.tails [c]) && decide (hd + im.tailStart ≤ s.tickOf c)
    | _, _ => false)

/-- Whether nothing that falls into the present clock of a core is left. -/
def State.coreSettled (s : State) (c : Nat) : Bool :=
  !s.coreLive c || (s.runsOf (corePdk c)).cause.isSome ||
    ((s.dueList c == [] || (s.blockOf c).isSome) && !s.unresolved c && (s.headDue c).isNone && !s.retireDue c && !s.tailDue c &&
      !s.rowsDue c && (s.claimDue c).isNone && (s.handoffDue c).isNone)

/-- Logical cores of the paddocks that a tenant's run may use: all others stand still. -/
def State.liveCores (s : State) : List Nat :=
  ((List.range 16).filter (fun p => s.coreLive (8 * p) || (List.range 8).any (fun i => s.coreLive (8 * p + i)))).flatMap (fun p =>
    (List.range 8).map (fun i => 8 * p + i))

/-! ### Timed reads and commits -/

/-- A slot of the tray may be read in this operation tick (R72, R73). -/
def State.traySlot (s : State) (c ahead : Nat) : Option Nat :=
  let k := (s.rd F.DRW_TRAY_HEAD c + ahead) % 4
  if ahead < s.rd F.DRW_TRAY_FILL c ∧ tget 0 s.shelf.trayAt [c, k] ≤ s.opTick c then some k else none

/-- Data of an operation's read arrive. -/
def OpKind.receive (k : OpKind) (r : TRead) (bytes : List Byte) (poison : Bool) : OpKind :=
  let rest (l : List TRead) : List TRead := removeFirst (· == r) l
  match k with
  | .tile t => .tile { t with reads := rest t.reads, got := t.got ++ [⟨r.tag, bytes, poison⟩] }
  | .elem e => .elem { e with reads := rest e.reads, got := e.got ++ [⟨r.tag, bytes, poison⟩] }
  | .outb o => .outb { o with reads := rest o.reads, got := o.got ++ [⟨r.tag, bytes, poison⟩] }
  | .append a => .append { a with reads := rest a.reads, got := a.got ++ [⟨r.tag, bytes, poison⟩] }
  | x => x
def State.receive (s : State) (id : Nat) (r : TRead) (bytes : List Byte) (poison : Bool) : State :=
  match s.findOp id with
  | some o => s.setOp id (o.kind.receive r bytes poison)
  | none => s

/-- A column of a tile buffer (R243). -/
def State.wsColumn (s : State) (c b k : Nat) : List Byte :=
  (List.range 128).flatMap (fun m => mread s.mem.ws (wsAddr c (65536 * b + 512 * m + 4 * k)) 4)

/-- One timed read (R47, R67, R72, R244), with the violations of R74. -/
def State.readOne (s : State) (o : Op) (r : TRead) : State :=
  let c := o.core
  if (s.findOp o.id).isNone then s
  else
    match r.place with
    | .row x =>
      if s.rowOk c x = false then s.violation c 4 0 o.stream o.position
      else let (s, d) := s.shelfRead c o.stream x r.err; s.receive o.id r d.1 d.2
    | .drawer d =>
      match s.popSlot c d with
      | none => s.violation c 1 d o.stream o.position
      | some (s, x) => let (s, y) := s.shelfRead c o.stream x r.err; s.receive o.id r y.1 y.2
    | .tray ahead k =>
      match s.traySlot c ahead with
      | none => s.violation c 3 0 o.stream o.position
      | some n => s.receive o.id r (mread s.shelf.tray (trayAddr c n + 512 * k) 512) (hasBit (s.rd F.DRW_TRAY_POISON c) n)
    | .ws col b k =>
      if col then
        s.receive o.id r (s.wsColumn c b k) ((List.range 128).any (fun m => tget false s.mem.wsPoison [c, 128 * b + m]))
      else
        s.receive o.id r (mread s.mem.ws (wsAddr c (65536 * b + 512 * k)) 512) (tget false s.mem.wsPoison [c, 128 * b + k])

/-- A pop of the head slot of the tray: it can be claimed again in the next tick (R72). -/
def State.trayPop (s : State) (c : Nat) : State :=
  let k := s.rd F.DRW_TRAY_HEAD c
  let s : State := { s with shelf := { s.shelf with trayAt := tset 0 s.shelf.trayAt [c, k] (s.opTick c + 1) } }
  let s := (s.wr F.DRW_TRAY_READY c (clrBit (s.rd F.DRW_TRAY_READY c) k)).wr F.DRW_TRAY_HEAD c ((k + 1) % 4)
  s.wr F.DRW_TRAY_FILL c (s.rd F.DRW_TRAY_FILL c - 1)

/-- Whether a read takes the last row of a tray slot (R225). -/
def TRead.lastTray (r : TRead) : Bool :=
  match r.place with
  | .tray _ k => k == 127
  | _ => false

/-- A write commits: a shelf row, or a row of a tile buffer with its poison bit (R47, R244, R247). -/
def State.commitOne (s : State) (c : Nat) (w : Commit) : State :=
  if w.ws then
    { s with mem := { s.mem with
        ws := mwrite s.mem.ws (wsAddr c (512 * w.row)) w.bytes
        wsPoison := tset false s.mem.wsPoison [c, w.row] w.poison } }
  else s.commitRow c w.row w.bytes w.poison w.drawer

/-- Element programs that have ended complete (R110). -/
def State.endElems (s : State) (c : Nat) : State :=
  s.sched.ops.foldl (fun s o => match o.kind with
    | .elem e => if o.core = c ∧ s.elemEnded o e then (s.completeOp o).bump F.VEC_PROGS_COUNT c else s
    | _ => s) s

/-- READY of the tray slots (R72): readable from the next operation tick on. -/
def State.syncTray (s : State) (c : Nat) : State :=
  let h := s.rd F.DRW_TRAY_HEAD c
  loopN (s.rd F.DRW_TRAY_FILL c) (fun i s =>
    let k := (h + i) % 4
    if tget 0 s.shelf.trayAt [c, k] ≤ s.opTick c then s.wr F.DRW_TRAY_READY c (setBit (s.rd F.DRW_TRAY_READY c) k) else s) s

/-- The timed operations of a core go through one step (R87, R721): reads, pops, groups, commits, completions. -/
def State.opStep (s : State) (c : Nat) : State :=
  let rs := s.dueReads c
  let s := rs.foldl (fun s x => s.readOne x.1 x.2) s
  let s := loopN (rs.filter (fun x => x.2.lastTray)).length (fun _ s => s.trayPop c) s
  let s := (s.sched.ops.filter (fun o => o.core == c)).foldl (fun s o => match o.kind with
    | .elem e => s.elemGroup o e
    | _ => s) s
  let due := (tget [] s.sched.commits [c]).filter (fun w => decide (w.due ≤ s.opTick c))
  let s : State := { s with sched := { s.sched with
    commits := tset [] s.sched.commits [c] ((tget [] s.sched.commits [c]).filter (fun w => decide (s.opTick c < w.due))) } }
  let s := due.foldl (fun s w => s.commitOne c w) s
  let s := (s.endElems c).syncWsPoison c
  { s with sched := { s.sched with
      acts := tset [] s.sched.acts [c] ((tget [] s.sched.acts [c]).filter (fun a => decide (s.opTick c + 1 < a.upto))) } }

/-! ### Charges (R117, R118) -/

/-- Charge of the core's present tick; a pass that uses ME adds its own (R281). -/
def State.tickCharge (s : State) (c : Nat) : Nat :=
  6 + s.passWeight c + (s.timedAccesses c).length +
    (tget [] s.sched.acts [c]).foldl (fun n a => if a.start ≤ s.opTick c ∧ s.opTick c < a.upto then n + a.weight else n) 0

/-- What the present clock is for a core: 0 it does not run, 1 its tick advances, 2 a slip clock, 3 a slip clock in which its
operations advance (R721); with the cause of R94. -/
def State.clockKind (s : State) (c : Nat) : Nat × Nat :=
  if s.coreLive c = false then (0, 0)
  else
    match s.blockOf c with
    | some (k, _) => (if k = 3 then 2 else 3, k)
    | none =>
      let o := tget (0, 0) s.sched.owed [c]
      if 0 < o.1 then (2, o.2) else (1, 0)
def State.clockCharge (s : State) (c : Nat) : Nat :=
  match (s.clockKind c).1 with
  | 0 => 0
  | 1 => s.tickCharge c
  | 2 => 2 + s.passWeight c
  | _ => s.tickCharge c - 4

def State.chargesOf (s : State) (k c : Nat) : List Nat := tget [] s.bud.charges [k, c]
def State.setCharges (s : State) (k c : Nat) (l : List Nat) : State :=
  { s with bud := { s.bud with charges := tset [] s.bud.charges [k, c] l } }

/-- A list without its trailing zeros. -/
def trimZeros (l : List Nat) : List Nat := (l.reverse.dropWhile (fun x => x == 0)).reverse

/-- The clock's charge joins the last 63 of a core. -/
def State.chargeClock (s : State) (c w : Nat) : State := s.setCharges 1 c (trimZeros ((w :: s.chargesOf 1 c).take 63))

/-- Sum of the governor (R120): charges of the last 63 clocks and of this one. -/
def State.prospect (s : State) (p : Nat) : Nat :=
  (List.range 8).foldl (fun n i =>
    n + (s.chargesOf 1 (8 * p + i)).foldl (fun a b => a + b) 0 + s.clockCharge (8 * p + i)) 0
def governorLimit : Nat := 49152
def coreLimit : Nat := 6144

/-- The charge of a tick: BUD_CWIN, and an excess tick (R122). Each entry is twice the charge, plus 1 when a governor stall came
since the tick before. -/
def State.chargeTick (s : State) (c w : Nat) : State :=
  let p := corePdk c
  let stall := nth (s.chargesOf 2 c) 0
  let l := ((2 * w + stall) :: s.chargesOf 0 c).take 64
  let s := (s.setCharges 0 c l).setCharges 2 c []
  let sum := l.foldl (fun a b => a + b / 2) 0
  let s := (s.wr F.BUD_CWIN_CHARGE c sum).wr F.BUD_CWIN_PEAK c (max sum (s.rd F.BUD_CWIN_PEAK c))
  if sum ≤ coreLimit then s
  else
    let s := (s.bump F.BUD_COVER_COUNT c).warnOn c 0x161
    if s.rd F.BUD_REC0_VALID p = 1 then s
    else
      let s := (s.wr F.BUD_REC0_VALID p 1).wr F.BUD_REC0_CORE p (coreOff c)
      let s := s.wr F.BUD_REC0_STRETCHED p (b2n ((l.take (min (l.length) 63)).any (fun x => x % 2 == 1)))
      let s := (s.wr F.BUD_REC0_CHARGE p sum).wr F.BUD_REC1_TICK p (s.tickOf c)
      s.wr F.BUD_REC2_TIME p s.now

/-! ### Bank conflicts (R45) -/

/-- Accesses of a bank in the present tick: timed ones, and an untimed one that was forced into it. -/
def State.bankLoad (s : State) (acc : List (Nat × Nat)) (c b : Nat) : Nat :=
  let n := (acc.filter (fun a => a.2 == b)).length
  if 0 < n ∧ (s.usedBanks c).contains b then n + 1 else n

/-- The slip that the conflicts of an issued tick owe (R45). -/
def State.conflicts (s : State) (c : Nat) (acc : List (Nat × Nat)) : State :=
  let load (b : Nat) : Nat := s.bankLoad acc c b
  let timed (b : Nat) : List (Nat × Nat) := acc.filter (fun a => a.2 == b)
  let worst := (List.range 32).foldl (fun m b => max m (load b)) 0
  if worst < 2 then s
  else
    let multi := (List.range 32).filter (fun b => decide (2 ≤ (timed b).length))
    let most := multi.foldl (fun m b => max m (load b)) 0
    match multi.find? (fun b => load b == most) with
    | none =>
      { s with sched := { s.sched with owed := tset (0, 0) s.sched.owed [c] (worst - 1, max (tget (0, 0) s.sched.owed [c]).2 7) } }
    | some b =>
      let st := (timed b).foldl (fun m a => min m a.1) 15
      let op := (s.dueReads c).find? (fun x => x.1.stream == st)
      let s := s.contractSlip c 3 b st ((op.map (fun x => x.1.position)).getD 0) (worst - 1)
      { s with sched := { s.sched with owed := tset (0, 0) s.sched.owed [c] (worst - 1, 6) } }

/-! ### A clock of a core -/

/-- Ticks in a row in which a bank had no idle tick (R57). -/
def State.countIdle (s : State) (c : Nat) (acc : List (Nat × Nat)) : State :=
  loopN 32 (fun b s =>
    let x := s.patrolOf c b
    let n := if acc.any (fun a => a.2 == b) then x.idle + 1 else 0
    if n = x.idle then s else s.setPatrol c b { x with idle := n }) s

/-- The tick of a core advances. -/
def State.advanceTick (s : State) (c : Nat) : State :=
  let w := s.tickCharge c
  let acc := s.timedAccesses c
  let s := ((s.slipDone c).chargeClock c w).chargeTick c w
  let s := (s.conflicts c acc).countIdle c acc
  let s := (s.phase3 c).opStep c
  let s : State := { s with sched := { s.sched with
    opened := tset false s.sched.opened [c] false
    arrivals := s.sched.arrivals.map (fun a => if a.core = c then { a with waited := a.waited + 1 } else a) } }
  ((s.wr F.SCH_TICK_TICK c (s.tickOf c + 1)).syncTray c |>.syncMxe c).syncVec c

/-- A slip clock of a core with its cause: it is counted, waiting streams count it, and with cause 4 or 5 the operations in
flight advance (R721). -/
def State.slipClock (s : State) (c kind cause : Nat) : State :=
  let s := s.chargeClock c (s.clockCharge c)
  let s := s.slipNow c
  let s := s.bump F.SCH_SLIP_COUNT c (cause - 3)
  let s := match s.slipOf c with
    | some x => s.setSlip c (some { x with clocks := x.clocks + 1 })
    | none => s
  let s := loopN 12 (fun st s =>
    if (tget none s.sched.waits [c, st]).isSome then s.satAdd F.SYN_WAIT_CLOCKS c 1 st else s) s
  if kind = 3 then
    let acc := s.timedAccesses c
    let s := (s.conflicts c acc).opStep c
    let s : State := { s with sched := { s.sched with shift := tset 0 s.sched.shift [c] (tget 0 s.sched.shift [c] + 1) } }
    ((s.syncTray c).syncMxe c).syncVec c
  else s

/-- The clocks that a bank conflict owes go by, in whatever the clock is. -/
def State.payOwed (s : State) (c : Nat) : State :=
  let o := tget (0, 0) s.sched.owed [c]
  if o.1 = 0 then s
  else { s with sched := { s.sched with owed := tset (0, 0) s.sched.owed [c] (if o.1 = 1 then (0, 0) else (o.1 - 1, o.2)) } }

/-- Untimed work of a core that goes on in ticks and slips alike (R92, R206, R281, R361): its pass, a request row of a lookup, and
transfers whose rows have been read. -/
def State.untimedWork (s : State) (c : Nat) : State := (((s.passClock c).lookupRead c).pumpOut c).pumpAppend c

/-- A clock of a core that nothing stalls. -/
def State.coreClock (s : State) (c : Nat) : State :=
  match s.clockKind c with
  | (0, _) => s
  | (1, _) => (s.advanceTick c).untimedWork c
  | (k, cause) => ((s.payOwed c).slipClock c k cause).untimedWork c

/-- A stall clock of a paddock (R118, R121, R129). -/
def State.stallClock (s : State) (p : Nat) : State :=
  loopN 8 (fun i s => if s.coreLive (8 * p + i) then (s.payOwed (8 * p + i)).chargeClock (8 * p + i) 2 else s) s

/-! ### A clock of a paddock and of the device -/

/-- The untimed window slides; a clock with an event held is counted (R123, R124). -/
def State.untimedClock (s : State) (p : Nat) : State :=
  let s := if s.heldOf p = [] then s else s.bump F.BUD_HOLD_CLK_COUNT p
  let l := tget [] s.bud.uwin [p]
  if l = [] then s
  else
    let l := if l.all (fun x => x == 0) then [] else (0 :: l).take 64
    let s : State := { s with bud := { s.bud with uwin := tset [] s.bud.uwin [p] l } }
    s.wr F.BUD_UWIN_CHARGE p (s.uwin p)

/-- Whether a paddock has a far request that waits for a slot (R444). -/
def State.farWaits (s : State) (p : Nat) : Bool := s.net.lines.any (fun l => l.pdk == p && l.farLeft && (s.farLine l).isSome)

/-- A clock of a paddock: a droop stall, a governor stall (R120), or a clock of each core. -/
def State.pdkClock (s : State) (p : Nat) : State :=
  let live := (List.range 8).any (fun i => s.coreLive (8 * p + i))
  let s := if (s.runsOf p).running.isSome then s.bump F.CNT_P_COUNT p 5 else s
  let s := if s.lineHeld p then s.bump F.HBM_TXN_FULL_CLK_COUNT p else s
  let s := if s.farWaits p then s.bump F.FAR_HOLD_CLK_COUNT p else s
  let s :=
    if s.droopStall (pdkDie p) then
      let s : State := { s with bud := { s.bud with stalled := tset false s.bud.stalled [p] false } }
      (s.bump F.BUD_DROOP_CLK_COUNT p).stallClock p
    else if live ∧ governorLimit < s.prospect p then
      let s := s.bump F.BUD_STALL_CLK_COUNT p
      let s := if tget false s.bud.stalled [p] then s else s.bump F.BUD_STALL_EVT_COUNT p
      let s : State := { s with bud := { s.bud with stalled := tset false s.bud.stalled [p] true } }
      (loopN 8 (fun i s => s.setCharges 2 (8 * p + i) [1]) s).stallClock p
    else
      let s : State := { s with bud := { s.bud with stalled := tset false s.bud.stalled [p] false } }
      if live then loopN 8 (fun i s => s.coreClock (8 * p + i)) s else s
  s.untimedClock p

/-- Whether the core clocks run: power, both core PLLs locked (R674, R678). -/
def State.coreClockOn (s : State) : Bool :=
  s.pins.pwrgd && hasBit (s.rd F.CLK_STAT_LOCK 0) 0 && hasBit (s.rd F.CLK_STAT_LOCK 0) 1 && s.rd F.CLK_STAT_RELOCKING 0 == 0

/-- The count that the rate adjustment adds to or withholds from a clock in which the timebase advances by `n`: one in 10,000 (R547,
R677), in the clock that begins such a stretch, or the one after it when the timebase does not advance in that one. -/
def State.slewNow (s : State) (mhz n : Nat) : Int :=
  let k := s.bud.clock % (10 * mhz)
  if 1 ≤ n ∧ (k = 0 ∨ (k = 1 ∧ 1000 ≤ s.pins.phase)) then (if 0 < s.net.slew then 1 else if s.net.slew < 0 then -1 else 0) else 0

/-- The timebase of one core clock, in nanoseconds and a rest (R636, R677), while its PLL is locked. -/
def State.timeClock (s : State) : State :=
  if s.pins.pwrgd = false ∨ hasBit (s.rd F.CLK_STAT_LOCK 0) 5 = false then s
  else
    let mhz := s.rd F.CLK_STAT_CORE_MHZ 0
    let x := s.pins.phase + 1000
    let d := s.slewNow mhz (x / mhz)
    let s := s.wr F.CNT_TIMEBASE_TIME 0 (((s.now + x / mhz : Nat) : Int) + d).toNat
    { s with pins := { s.pins with phase := x % mhz }, net := { s.net with slew := s.net.slew - d } }

/-- Whether every event of the present clock has been given as a command. -/
def State.settled (s : State) : Bool := s.liveCores.all (fun c => s.coreSettled c)

/-- A core clock, when the present one is settled. Where the core clocks stand still, only the timebase advances. -/
def State.clock (s : State) : State :=
  if s.settled = false then s
  else if s.coreClockOn = false then s.timeClock
  else
    let s := (loopN 16 (fun p s => s.pdkClock p) s).slideReserve
    let s : State := { s with shelf := { s.shelf with used := [], landed := [] } }
    let s := s.timeClock
    { s with bud := { s.bud with clock := s.bud.clock + 1 } }

end Sys2Proof.Machine
end

