-- ==== Sys2Proof/Machine/BarMap.lean ====
section
/-! DEFINITION. Where each register block lies in the BAR0 of PF 0 and of a VF (R459 and the placement text of each chapter),
host reads and writes of registers (R3, R5, R6), and the three register commands of the table. -/

namespace Sys2Proof.Machine

/-- A run of register blocks in a BAR: kind, first offset, two nested counts with their strides, length of one block, and
the instance number of the first. -/
structure BarWin where
  blk : Blk
  base : Nat
  n1 : Nat
  s1 : Nat
  n2 : Nat
  s2 : Nat
  len : Nat
  inst0 : Nat
  deriving DecidableEq, Repr

/-- The blocks of PF 0's BAR0 (R459 and each chapter's placement). -/
def pfWins : List BarWin := [
  ⟨.HIFD, 0x000000, 1, 0, 1, 0, 0x100, 0⟩, ⟨.HIFP, 0x000100, 1, 0, 1, 0, 0x100, 0⟩,
  ⟨.HIFD, 0x000000, 1, 0, 1, 0, 0x1000, 0⟩, ⟨.HIFP, 0x001000, 16, 0x100, 1, 0, 0x100, 1⟩,
  ⟨.PDK, 0x010000, 16, 0x100, 1, 0, 0x100, 0⟩, ⟨.CLK, 0x011000, 1, 0, 1, 0, 0x1000, 0⟩,
  ⟨.RST, 0x012000, 1, 0, 1, 0, 0x1000, 0⟩, ⟨.RTPD, 0x013000, 1, 0, 1, 0, 0x800, 0⟩,
  ⟨.RTPT, 0x013800, 16, 0x80, 1, 0, 0x80, 1⟩,
  ⟨.CMQP, 0x018000, 17, 0x400, 1, 0, 0x200, 0⟩, ⟨.CMQF, 0x018000, 17, 0x400, 1, 0, 0x400, 0⟩,
  ⟨.BUDP, 0x020000, 16, 0x1000, 1, 0, 0x100, 0⟩, ⟨.BUDC, 0x020100, 16, 0x1000, 8, 0x40, 0x40, 0⟩,
  ⟨.BUDD, 0x030000, 2, 0x100, 1, 0, 0x100, 0⟩,
  ⟨.HBMG, 0x040000, 16, 0x1000, 1, 0, 0x1000, 0⟩, ⟨.HBMC, 0x050000, 256, 0x40, 1, 0, 0x40, 0⟩,
  ⟨.HBMD, 0x060000, 1, 0, 1, 0, 0x20000, 0⟩,
  ⟨.MOWG, 0x080000, 16, 0x1000, 1, 0, 0x1000, 0⟩, ⟨.MOWD, 0x090000, 1, 0, 1, 0, 0x10000, 0⟩,
  ⟨.MXEC, 0x0A0000, 16, 0x1000, 8, 0x100, 0x100, 0⟩, ⟨.MXEP, 0x0A0000, 16, 0x1000, 1, 0, 0x1000, 0⟩,
  ⟨.VEC, 0x0B0000, 16, 0x1000, 8, 0x100, 0x100, 0⟩, ⟨.ATN, 0x0C0000, 16, 0x1000, 8, 0x100, 0x100, 0⟩,
  ⟨.TBLP, 0x0D0000, 16, 0x1000, 1, 0, 0x100, 0⟩, ⟨.TBLC, 0x0D0100, 16, 0x1000, 8, 0x40, 0x40, 0⟩,
  ⟨.CTX, 0x0E0000, 16, 0x100, 1, 0, 0x100, 0⟩, ⟨.FARP, 0x0E1000, 16, 0x100, 1, 0, 0x100, 0⟩,
  ⟨.FARO, 0x0E3000, 2, 0x100, 1, 0, 0x100, 0⟩, ⟨.SWD, 0x0E8000, 16, 0x100, 1, 0, 0x100, 0⟩,
  ⟨.CNTD, 0x0F0000, 1, 0, 1, 0, 0x1000, 0⟩, ⟨.CNTP, 0x0F1000, 16, 0x400, 1, 0, 0x400, 0⟩,
  ⟨.DRW, 0x100000, 16, 0x8000, 8, 0x1000, 0x1000, 0⟩,
  ⟨.PLKO, 0x180000, 12, 0x4000, 1, 0, 0x4000, 0⟩, ⟨.PLKD, 0x1B0000, 1, 0, 1, 0, 0x1000, 0⟩,
  ⟨.PLKP, 0x1B1000, 16, 0x100, 1, 0, 0x100, 0⟩,
  ⟨.RTEP, 0x1C0000, 16, 0x1000, 1, 0, 0x1000, 0⟩, ⟨.RTED, 0x1F0000, 1, 0, 1, 0, 0x10000, 0⟩,
  ⟨.SCHC, 0x200000, 16, 0x10000, 8, 0x1000, 0x1000, 0⟩, ⟨.SCHP, 0x200000, 16, 0x10000, 1, 0, 0x10000, 0⟩,
  ⟨.SYN, 0x300000, 16, 0x10000, 8, 0x2000, 0x2000, 0⟩]

/-- The blocks of the BAR0 of VF `fn`, which serves paddock `fn − 1`. -/
def vfWins (fn : Nat) : List BarWin :=
  let p := pdkOf fn
  [⟨.HIFP, 0x00000, 1, 0, 1, 0, 0x1000, fn⟩, ⟨.PDK, 0x01000, 1, 0, 1, 0, 0x1000, p⟩,
   ⟨.CMQP, 0x04000, 1, 0, 1, 0, 0x200, fn⟩, ⟨.CMQF, 0x04000, 1, 0, 1, 0, 0x400, fn⟩,
   ⟨.BUDP, 0x08000, 1, 0, 1, 0, 0x100, p⟩, ⟨.BUDC, 0x08100, 1, 0, 8, 0x40, 0x40, 8 * p⟩,
   ⟨.MXEC, 0x09000, 1, 0, 8, 0x100, 0x100, 8 * p⟩, ⟨.MXEP, 0x09000, 1, 0, 1, 0, 0x1000, p⟩,
   ⟨.VEC, 0x0A000, 1, 0, 8, 0x100, 0x100, 8 * p⟩, ⟨.ATN, 0x0B000, 1, 0, 8, 0x100, 0x100, 8 * p⟩,
   ⟨.CTX, 0x0C000, 1, 0, 1, 0, 0x1000, p⟩, ⟨.TBLP, 0x0D000, 1, 0, 1, 0, 0x100, p⟩,
   ⟨.TBLC, 0x0D100, 1, 0, 8, 0x40, 0x40, 8 * p⟩, ⟨.HBMG, 0x0E000, 1, 0, 1, 0, 0x1000, p⟩,
   ⟨.MOWG, 0x0F000, 1, 0, 1, 0, 0x1000, p⟩, ⟨.FARP, 0x10000, 1, 0, 1, 0, 0x1000, p⟩,
   ⟨.RTEP, 0x11000, 1, 0, 1, 0, 0x1000, p⟩, ⟨.PLKP, 0x12000, 1, 0, 1, 0, 0x1000, p⟩,
   ⟨.RTPT, 0x13000, 1, 0, 1, 0, 0x1000, fn⟩, ⟨.CNTP, 0x14000, 1, 0, 1, 0, 0x4000, p⟩,
   ⟨.DRW, 0x18000, 1, 0, 8, 0x1000, 0x1000, 8 * p⟩, ⟨.SCHC, 0x20000, 1, 0, 8, 0x1000, 0x1000, 8 * p⟩,
   ⟨.SCHP, 0x20000, 1, 0, 1, 0, 0x10000, p⟩, ⟨.SYN, 0x30000, 1, 0, 8, 0x2000, 0x2000, 8 * p⟩,
   ⟨.SWD, 0x40000, 1, 0, 1, 0, 0x1000, p⟩]

def winsOf (fn : Nat) : List BarWin := if fn = 0 then pfWins else vfWins fn

/-- The window's block instance and the offset inside it that BAR0 offset `off` reaches. -/
def BarWin.locate (w : BarWin) (off : Nat) : Option (Nat × Nat) :=
  if off < w.base then none
  else
    let r := off - w.base
    let i1 := if w.s1 = 0 then 0 else r / w.s1
    let r1 := if w.s1 = 0 then r else r % w.s1
    let i2 := if w.s2 = 0 then 0 else r1 / w.s2
    let r2 := if w.s2 = 0 then r1 else r1 % w.s2
    if i1 < w.n1 ∧ i2 < w.n2 ∧ r2 < w.len then some (w.inst0 + i1 * w.n2 + i2, r2) else none

/-- Width in bytes of the register a field belongs to (R5). -/
def Fld.bytes (f : Fld) : Nat := if f.wide then 8 else 4

/-- Which register of the field's array holds the byte at offset `r` of its block, and at which byte of it. -/
def Fld.at (f : Fld) (r : Nat) : Option (Nat × Nat) :=
  if r < f.off then none
  else
    let k := (r - f.off) / f.stride
    let o := (r - f.off) % f.stride
    if k < f.count ∧ o < f.bytes then some (k, o) else none

/-- A register reached by a BAR0 offset: block, instance, array index and byte inside the register. CNT_TIMEBASE is
reached from every CNT_ block (R653). -/
structure RegAt where
  blk : Blk
  inst : Nat
  k : Nat
  byte : Nat
  bytes : Nat
  deriving DecidableEq, Repr

def findReg (fn off : Nat) : Option RegAt :=
  (winsOf fn).findSome? (fun w =>
    (w.locate off).bind (fun ir =>
      let flds := if w.blk = .CNTP then fldsCNTP ++ [F.CNT_TIMEBASE_TIME] else fldsOf w.blk
      flds.findSome? (fun f => (f.at ir.2).map (fun ko =>
        if f.id = F.CNT_TIMEBASE_TIME.id then ⟨.CNTD, 0, 0, ko.2, f.bytes⟩
        else ⟨w.blk, ir.1, ko.1, ko.2, f.bytes⟩))))

/-- Whether the register at which an access of `width` bits arrives accepts it (R5). -/
def RegAt.accepts (r : RegAt) (width : Nat) : Bool :=
  (width = 32 && r.byte % 4 = 0) || (width = 64 && r.bytes = 8 && r.byte = 0)

/-- The fields of the register reached, with the index of each in its field. -/
def RegAt.fields (r : RegAt) (off : Nat) : List (Fld × Nat × Nat) :=
  (fldsOf r.blk).flatMap (fun f =>
    match f.at off with
    | none => []
    | some (k, _) =>
      (List.range f.fcount).map (fun j => (f, k * f.fcount + j, f.lo + f.fstride * j)))

/-- Offset inside its block that BAR0 offset `off` reaches. -/
def blockOff (fn off : Nat) : Nat :=
  (((winsOf fn).findSome? (fun w => (w.locate off).bind (fun ir =>
    if (fldsOf w.blk).any (fun f => (f.at ir.2).isSome) then some ir.2 else none)))).getD off

/-- Reserve charge of a die in the present window (R125, R126): the fixed holders, the lanes by state, and what the limiters admitted;
nothing while the core clock stands still. -/
def State.reserveCharge (s : State) (d : Nat) : Nat :=
  let lanes := (List.range 6).foldl (fun n k =>
    let q := 6 * d + k
    let st := s.rd F.PLK_STATE_STATE q
    n + (if st = 5 then 1 else if st = 0 ∨ st = 6 then 0 else 4) * s.rd F.PLK_STATE_LANES q) 0
  let used (k : Nat) : Nat := (tget [] s.bud.uwin [k]).foldl (fun a b => a + b) 0
  if hasBit (s.rd F.CLK_STAT_LOCK 0) d = false then 0
  else 64 * (232 + lanes) + (List.range 8).foldl (fun n k => n + used (16 + 8 * d + k)) (used (32 + d))

/-- Registers that snapshots of a paddock's own function hold (R635). -/
def snapIds : List Nat := [F.CNT_SNAP_CTL_VALID.id, F.CNT_SNAP_TIME_TIME.id, F.CNT_SNAP_TICK_TICK.id, F.CNT_SNAP_OVF.id, F.CNT_SNAP_COUNT.id]

/-- Value of a field as function `fn` reads it: the live counters of R632 and R633, the reserve charge, and 0 where PF 0 reads a paddock's
snapshot. -/
def State.fieldRead (s : State) (fn : Nat) (f : Fld) (i j : Nat) : Nat :=
  if f.id = F.CNT_P_COUNT.id then (s.pdkCounter i j).1
  else if f.id = F.CNT_P_OVF.id then (s.pdkCounter i j).2
  else if f.id = F.CNT_D_COUNT.id then (s.devCounter j).1
  else if f.id = F.CNT_D_OVF.id then (s.devCounter j).2
  else if f.id = F.BUD_DSTAT_RSV_CHARGE.id then s.reserveCharge i
  else if fn = 0 ∧ snapIds.contains f.id = true then 0
  else s.rd f i j

/-- Value of a register as a read returns it: its fields in their places; a WO field reads 0 (R3). -/
def State.regValue (s : State) (fn off : Nat) : Nat :=
  match findReg fn off with
  | none => 0
  | some r =>
    (r.fields (blockOff fn off)).foldl (fun v x =>
      if x.1.acc = .wo then v else v + s.fieldRead fn x.1 r.inst x.2.1 * 2 ^ x.2.2) 0

/-- Paddock of a block instance that PF 0 may not read while the paddock's TDI is CONFIG_LOCKED or RUN (R614). -/
def guardedPdk (b : Blk) (i : Nat) : Option Nat :=
  if b = .SCHP ∨ b = .MXEP ∨ b = .CTX ∨ b = .TBLP then some i
  else if b = .SCHC ∨ b = .SYN ∨ b = .DRW ∨ b = .MXEC ∨ b = .VEC ∨ b = .ATN ∨ b = .TBLC then some (i / 8)
  else none
def State.guarded (s : State) (r : RegAt) : Bool :=
  (guardedPdk r.blk r.inst).any (fun p => s.rd F.RTP_TDI_STATE_STATE (vfOf p) = 1 || s.rd F.RTP_TDI_STATE_STATE (vfOf p) = 2)

/-- Value that a host read of `width` bits at BAR0 offset `off` returns: 0 at a reserved offset (R459), all ones for a
wrong width or alignment (R5) or a closed BAR0 (R26, R32), 0 where a locked paddock is guarded (R614), the latched high half after a read of the low half (R6). -/
def State.hostRead (s : State) (fn off width : Nat) : Nat × State :=
  let ones := 2 ^ width - 1
  match findReg fn off with
  | none => (if s.barClosed fn then ones else 0, s)
  | some r =>
    if s.barClosed fn ∧ ¬ (r.blk = .PDK ∧ s.pdkState (pdkOf fn) = pdkHandover ∧ blockOff fn off < 4) then (ones, s)
    else if r.accepts width = false then (ones, s)
    else if fn = 0 ∧ s.guarded r = true then (0, s)
    else
      let v := s.regValue fn off
      if width = 64 then (v, s)
      else if r.byte = 0 then
        (v % 2 ^ 32, { s with host := { s.host with readLatch := tset 0 s.host.readLatch [fn, off] (v / 2 ^ 32 + 1) } })
      else
        match tget 0 s.host.readLatch [fn, off - 4] with
        | 0 => (v / 2 ^ 32, s)
        | l + 1 => (l, { s with host := { s.host with readLatch := tset 0 s.host.readLatch [fn, off - 4] 0 } })

/-- Counting an access that breaks R5 in the function's error counter: REG_ERR of its paddock set, or of the device set
(R632, R633). -/
def State.countRegErr (s : State) (fn : Nat) : State :=
  if fn = 0 then s.bump F.CNT_D_COUNT 0 1 else s.bump F.CNT_P_COUNT (pdkOf fn) 31

/-- The fields that a host write stores into and that have no behaviour of their own: every RW field that no other command
of the table writes. -/
def plainFields : List Fld := [
  F.HIF_WIN0_BASE_BASE, F.HIF_WIN0_SIZE_SIZE, F.HIF_WIN0_CTL_VALID, F.HIF_WIN0_CTL_READ, F.HIF_WIN0_CTL_WRITE,
  F.HIF_WIN0_CTL_PASID_EN, F.HIF_WIN0_CTL_PASID, F.RTE_PCFG_ABORT_FANOUT, F.CMQ_TAILWORD_POINTER,
  F.CMQ_CFG_VECTOR, F.CMQ_CFG_TAILWORD, F.CMQ_PQ_CFG_VECTOR, F.CMQ_EQ_CFG_VECTOR]

/-- Whether a write of function `fn` may store into field `f` of instance `i`, index `j`: queue fields only by the function
that owns the block and only while EN is 0 (R508), HIF_WIN0_ fields only by their owner (R481). -/
def State.mayStore (s : State) (fn : Nat) (f : Fld) (i j : Nat) : Bool :=
  plainFields.contains f &&
  (if f.blk = .CMQP then i = fn && s.rd F.CMQ_CFG_EN i j = 0
   else if f.id = F.CMQ_PQ_CFG_VECTOR.id then i = fn && s.rd F.CMQ_PQ_CFG_EN i = 0
   else if f.id = F.CMQ_EQ_CFG_VECTOR.id then i = fn && s.rd F.CMQ_EQ_CFG_EN i = 0
   else if f.blk = .HIFP then i = fn
   else true)

/-- Value that a VECTOR field stores: a VF has 8 vectors, PF 0 has 64 (R460). -/
def vectorMask (fn : Nat) (f : Fld) (v : Nat) : Nat :=
  if f.id = F.CMQ_CFG_VECTOR.id ∨ f.id = F.CMQ_PQ_CFG_VECTOR.id ∨ f.id = F.CMQ_EQ_CFG_VECTOR.id then
    (if fn = 0 then v % 64 else v % 8)
  else v

/-- First byte of the MSI-X table in BAR0, and vectors, of a function (R459, R460). -/
def msixBase (fn : Nat) : Nat := if fn = 0 then 0x014000 else 0x02000
def msixCount (fn : Nat) : Nat := if fn = 0 then 64 else 8

/-- A write of a double word of the MSI-X table: vector control is word 3 of each entry of 4, and its bit 0 masks the
vector, as PCIe lays the table out (PRESUMED: log entry 7). -/
def State.msixWrite (s : State) (fn off : Nat) (v : Nat) : State :=
  let w := (off - msixBase fn) / 4
  let h := { s.host with msixTable := tset 0 s.host.msixTable [fn, w] (v % 2 ^ 32) }
  let h := if w % 4 = 3 then { h with masked := tset true h.masked [fn, w / 4] (v % 2 = 1) } else h
  { s with host := h }

/-- A host write to registers (R3 to R6): the value is stored in every RW field without behaviour of its own that the
access reaches. A VF's write to a closed BAR0 is discarded. Writes before READY take effect at once (R687). -/
def execRegisterWrite (fn : Fin 17) (off width : Nat) (data : Word64) (s : State) : Host.Outcome State Fault Refusal :=
  let f := fn.val
  if s.barClosed f then .next s
  else if msixBase f ≤ off ∧ off < msixBase f + 16 * msixCount f ∧ width = 32 ∧ off % 4 = 0 then
    .next (s.msixWrite f off data.toNat)
  else
    match findReg f off with
    | none => .next s
    | some r =>
      if r.accepts width = false then .next (s.countRegErr f)
      else
        let lo := if r.byte = 0 then 0 else 32
        let hi := if width = 64 then 64 else lo + 32
        .next ((r.fields (blockOff f off)).foldl (fun s x =>
          if lo ≤ x.2.2 ∧ x.2.2 < hi ∧ s.mayStore f x.1 r.inst x.2.1 = true then
            s.wr x.1 r.inst (vectorMask f x.1 (bitsAt data.toNat (x.2.2 - lo) x.1.width)) x.2.1
          else s) s)

/-- An access of wrong width or alignment (R5): a write changes nothing, a read returns all ones, and the function's error
counter counts it; an access that the register accepts, or that reaches no register, is not one and changes nothing. -/
def execWrongWidthAccess (fn : Fin 17) (off width : Nat) (write : Bool) (s : State) :
    Host.Outcome State Fault Refusal :=
  match findReg fn.val off with
  | none => .next s
  | some r =>
    if r.accepts width then .next s
    else
      let s := s.countRegErr fn.val
      .next (if write then s else s.emit (.readData fn.val (2 ^ width - 1)))

/-- An access to a reserved offset (R459): a write changes nothing, a read returns 0. -/
def execReservedOffsetAccess (fn : Fin 17) (off width : Nat) (write : Bool) (s : State) :
    Host.Outcome State Fault Refusal :=
  match findReg fn.val off with
  | some _ => .next s
  | none => .next (if write ∨ width = 0 then s else s.emit (.readData fn.val 0))

end Sys2Proof.Machine
end

