-- ==== Sys2Proof/Machine/Edits.lean ====
section
/-! DEFINITION. The commands of group 0x3 on contexts and pages as their executor takes them (R324, R350, R493), page moves, limbo,
automatic demotion, and the CTX_ registers that software writes. -/

namespace Sys2Proof.Machine

/-- What an edit does, where its executor reaches it. -/
def State.doEdit (s : State) (i : Instr) : State :=
  match i with
  | .ctxCreate h c fmt head hk depth layers place prio flags tag => s.doCreate h c fmt head hk depth layers place prio flags tag
  | .ctxDestroy h c => s.doDestroy h c
  | .ctxSet h c select prio flags length tag => s.doSet h c select prio flags length tag
  | .ctxPlace h c place =>
    s.onContext h c (fun d =>
      let p := paddockOf h
      let s := (s.useDesc p c).setDesc p c (setField d 0x0A 2 place)
      let rows := (s.kv.rows.filter (fun r => r.pdk == p && r.ctx == c)).map (fun r => r.id)
      { s with kv := { s.kv with places := s.kv.places ++ [(h, rows)] } })
  | .kvPoolAdd h n0 k => s.doPoolAdd h n0 k
  | .kvPoolRemove h n0 k => s.doPoolRemove h n0 k
  | .kvMap h c tier lo hi => s.doMap h c tier lo hi
  | .kvUnmap h c lo hi => s.doUnmap h c lo hi
  | .kvDemote h c lo hi => s.doMove h c lo hi true
  | .kvPromote h c lo hi => s.doMove h c lo hi false
  | .kvDrop h c lo hi => s.doDrop h c lo hi
  | .kvScatter h =>
    let p := paddockOf h
    if s.role p = 2 then s.kvDone h 0
    else
      let (s, z) := s.scatter p
      let f := z.first.getD (0, 0)
      s.kvDone h (if z.left = 0 then 0 else 0x173)
        (z.written % 2 ^ 14 * 2 ^ 4 + z.discarded % 2 ^ 14 * 2 ^ 18 + z.left % 2 ^ 14 * 2 ^ 32 + f.1 * 2 ^ 48 + f.2 * 2 ^ 64)
  | _ => s

/-- Edits run in order, one at a time; one whose limbo entries do not fit, and those behind a page move, wait (R324, R327). A command
that has been ended meanwhile (R498) is passed over. -/
def State.pumpEdits (s : State) (p : Nat) : State :=
  loopN (s.editsOf p).length (fun _ s =>
    match s.editsOf p with
    | [] => s
    | (h, i) :: l =>
      if (s.moveOf p).isSome then s
      else if (s.findTaken h).isNone then s.setEdits p l
      else
        match State.fitsLimbo p ((s.setPhase h .executing).doEdit i) with
        | some t => t.setEdits p l
        | none => s) s

/-- The frame of a command of the edit executor: checked, then queued behind the edits that wait. -/
def State.edit (s : State) (h : Hdr) (op status : Nat) (i : Instr) : State :=
  s.checked h op status (fun s =>
    let p := paddockOf h
    let s := (s.start h op (some i)).setPhase h .waiting
    (s.setEdits p (s.editsOf p ++ [(h, i)])).pumpEdits p)

/-- The status of a context index outside the quota. -/
def State.quotaStatus (s : State) (h : Hdr) (c : Nat) : Nat := failIf (!s.inQuota (paddockOf h) c) 0x340

/-- CTX_CREATE (R350). -/
def execCtxCreate (h : Hdr) (c fmt head kvHeadsM1 depth layersM1 place prio flags tag : Nat) (s : State) :
    Host.Outcome State Fault Refusal :=
  let bad := decide (2 < fmt) || decide (head < 6) || decide (8 < head) || depth = 0 || decide (4 < depth) || decide (15 < prio) ||
    decide (1 < flags) || decide (4096 < (layersM1 + 1) * (kvHeadsM1 + 1))
  .next (s.edit h 0x30 (firstStatus [s.quotaStatus h c, failIf bad 0x240])
    (.ctxCreate h c fmt head kvHeadsM1 depth layersM1 place prio flags tag))

/-- CTX_DESTROY (R350). -/
def execCtxDestroy (h : Hdr) (c : Nat) (s : State) : Host.Outcome State Fault Refusal :=
  .next (s.edit h 0x31 (s.quotaStatus h c) (.ctxDestroy h c))

/-- CTX_SET (R350). -/
def execCtxSet (h : Hdr) (c select prio flags length tag : Nat) (s : State) : Host.Outcome State Fault Refusal :=
  let bad := decide (15 < select) || decide (15 < prio) || decide (1 < flags)
  .next (s.edit h 0x32 (firstStatus [s.quotaStatus h c, failIf bad 0x240]) (.ctxSet h c select prio flags length tag))

/-- CTX_READ (R350): the descriptor as it stands in one clock. -/
def execCtxRead (h : Hdr) (c out : Nat) (s : State) : Host.Outcome State Fault Refusal :=
  let p := paddockOf h
  .next (s.checked h 0x33 (firstStatus [s.quotaStatus h c, failIf (ptrTag out = 3) 0x401,
      s.checkPtr h.fn.val p out 64 true]) (fun s =>
    s.gate h 0x33 (.ctxRead h c out) [⟨out, 64, true⟩] (fun s =>
      let s := s.useDesc p c
      let st := s.resourceStatus p out
      if st ≠ 0 then s.complete h st
      else if s.ptrPoison p (descAddr c) 64 then s.complete h 0x531
      else (s.ptrWrite h.fn.val p out (s.desc p c)).complete h 0)))

/-- CTX_PLACE (R345): the change is made; the command completes at CTX_PLACE_DRAINED. -/
def execCtxPlace (h : Hdr) (c place : Nat) (s : State) : Host.Outcome State Fault Refusal :=
  .next (s.edit h 0x34 (s.quotaStatus h c) (.ctxPlace h c place))

/-- CTX_PLACE_DRAINED (R345). -/
def execCtxPlaceDrained (h : Hdr) (s : State) : Host.Outcome State Fault Refusal :=
  match s.kv.places.find? (fun x => x.1 == h) with
  | none => .next s
  | some (_, rows) =>
    if s.kv.rows.any (fun r => rows.contains r.id) then .next s
    else .next (({ s with kv := { s.kv with places := s.kv.places.filter (fun x => x.1 != h) } } : State).kvDone h 0)

/-- KV_POOL_ADD and KV_POOL_REMOVE (R350). -/
def execKvPoolAdd (h : Hdr) (n0 k : Nat) (s : State) : Host.Outcome State Fault Refusal :=
  .next (s.edit h 0x35 (failIf (k == 0) 0x240) (.kvPoolAdd h n0 k))
def execKvPoolRemove (h : Hdr) (n0 k : Nat) (s : State) : Host.Outcome State Fault Refusal :=
  .next (s.edit h 0x36 (failIf (k == 0) 0x240) (.kvPoolRemove h n0 k))

/-- KV_MAP (R350). -/
def execKvMap (h : Hdr) (c tier lo hi : Nat) (s : State) : Host.Outcome State Fault Refusal :=
  .next (s.edit h 0x37 (firstStatus [s.quotaStatus h c, failIf (decide (1 < tier)) 0x240]) (.kvMap h c tier lo hi))
/-- KV_UNMAP (R350). -/
def execKvUnmap (h : Hdr) (c lo hi : Nat) (s : State) : Host.Outcome State Fault Refusal :=
  .next (s.edit h 0x38 (s.quotaStatus h c) (.kvUnmap h c lo hi))
/-- KV_DEMOTE (R341). -/
def execKvDemote (h : Hdr) (c lo hi : Nat) (s : State) : Host.Outcome State Fault Refusal :=
  .next (s.edit h 0x39 (s.quotaStatus h c) (.kvDemote h c lo hi))
/-- KV_PROMOTE (R341). -/
def execKvPromote (h : Hdr) (c lo hi : Nat) (s : State) : Host.Outcome State Fault Refusal :=
  .next (s.edit h 0x3A (s.quotaStatus h c) (.kvPromote h c lo hi))
/-- KV_DROP (R344). -/
def execKvDrop (h : Hdr) (c lo hi : Nat) (s : State) : Host.Outcome State Fault Refusal :=
  .next (s.edit h 0x3B (s.quotaStatus h c) (.kvDrop h c lo hi))
/-- KV_SCATTER (R338). -/
def execKvScatter (h : Hdr) (s : State) : Host.Outcome State Fault Refusal := .next (s.edit h 0x3C 0 (.kvScatter h))

/-! ### Page moves (R341) -/

/-- PAGE_MOVE_APPENDS_DRAINED (R341 step 3): the rows that were in flight when MOVING was set have ended, so the copy starts. -/
def execPageMoveAppendsDrained (p : Fin 16) (s : State) : Host.Outcome State Fault Refusal :=
  match s.moveOf p.val with
  | none => .next s
  | some m =>
    if m.copying ∨ s.kv.rows.any (fun r => m.waits.contains r.id) = true then .next s
    else .next (s.setMove { m with copying := true })

/-- What keeps the copy of a page from succeeding (R400, R446). -/
def State.moveStatus (s : State) (p : Nat) (m : Move) : Nat :=
  firstStatus (m.pages.flatMap (fun x => [s.resourceStatus p (pagePtr x.2.1), s.resourceStatus p (pagePtr x.2.2)]))

/-- The copy of a page: 32 KiB and their poison, watched by lookups (R372) and mirrored (R586). -/
def State.copyPage (s : State) (p src dst : Nat) : State :=
  let a := pagePtr src
  let b := pagePtr dst
  let far := ptrTag b = 2
  let bytes := s.ptrRead p a 0x8000 []
  let bad := (List.range 512).filter (fun k => s.ptrPoison p (a + 64 * k) 64)
  let s := (s.countRead (vfOf p) p a 0x8000).ptrWrite (vfOf p) p b bytes
  let s := bad.foldl (fun s k =>
    if far then
      (match s.farMap p (ptrFarOff b) with
       | some (port, fpa) => { s with mem := { s.mem with farPoison := tset false s.mem.farPoison [(farAddr port fpa) / 64 + k] true } }
       | none => s)
    else s.hbmPoisonAt p (ptrAddr b + 64 * k) 64) s
  loopN 64 (fun k s => s.mirrorWrite p far ((if far then ptrFarOff b else ptrAddr b) + 512 * k) ((bytes.drop (512 * k)).take 512)) s

/-- The end of a move: its command completes, and the edits behind it go on. -/
def State.endMove (s : State) (m : Move) (status : Nat) : State :=
  let s : State := { s with kv := { s.kv with moves := s.kv.moves.filter (fun x => x.pdk != m.pdk) } }
  let s := match m.h with
    | some h => s.kvDone h status (m.moved * 2 ^ 32)
    | none => s
  s.pumpEdits m.pdk

/-- The root swap of a move's token page (R341 step 5). -/
def State.swapMoved (s : State) (m : Move) (i : Nat) : State :=
  let p := m.pdk
  let d := s.desc p m.ctx
  let n := m.pages.length
  let d := addField (addField d 0x18 4 n (!m.toFar)) 0x1C 4 n m.toFar
  let s := s.changeLeaves p m.ctx d (m.pages.map (fun x => (x.1, i, validEntry x.2.2))) (m.pages.map (fun x => x.2.1))
  if m.toFar then s.bump F.CTX_DEMOTED_COUNT p 0 n else s

/-- PAGE_MOVE_COPY_DONE (R341, R446): one root swap points the leaves at the copies and the next token page begins; a copy that
fails leaves the source in place. -/
def execPageMoveCopyDone (p : Fin 16) (s : State) : Host.Outcome State Fault Refusal :=
  match s.moveOf p.val with
  | none => .next s
  | some m =>
    if m.copying = false then .next s
    else
      match m.todo with
      | [] => .next (s.endMove m 0)
      | i :: rest =>
        let st := s.moveStatus p.val m
        if st ≠ 0 then
          let s := s.markMoving p.val (s.desc p.val m.ctx) i false
          let s := m.pages.foldl (fun s x => s.setUse p.val x.2.2 1) s
          .next (s.endMove m st)
        else
          let t := (m.pages.foldl (fun s x => s.copyPage p.val x.2.1 x.2.2) s).swapMoved m i
          match State.fitsLimbo p.val t with
          | none => .next s
          | some t =>
            let m := { m with todo := rest, moved := m.moved + m.pages.length, pages := [], waits := [] }
            .next (if rest = [] then t.endMove m 0 else (t.setMove m).beginPage m)

/-! ### Limbo and automatic demotion -/

/-- LIMBO_RECYCLE (R327): entries whose tag MIN_HELD exceeds return to their free lists, and an edit that waited for room goes on. -/
def execLimboRecycle (p : Fin 16) (s : State) : Host.Outcome State Fault Refusal :=
  let s := s.syncHeld p.val
  let back := (s.limboOf p.val).filter (fun x => decide (x.tag < s.minHeld p.val))
  let s := back.foldl (fun s x => if x.kind = 2 then s else s.setUse p.val x.id 1) s
  let s : State := { s with kv := { s.kv with limbo := s.kv.limbo.filter (fun x => !back.contains x) } }
  .next ((s.wr F.CTX_LIMBO_ENTRIES p.val (s.limboOf p.val).length).pumpEdits p.val)

/-- The victim of automatic demotion (R343): context and token page. -/
def State.victim (s : State) (p : Nat) : Option (Nat × Nat) :=
  let cs := (List.range (s.rd F.PDK_QUOTA_CTX_QUOTA_M1 p + 1)).filterMap (fun c =>
    let d := s.desc p c
    if dValid d = false ∨ dPin d = true ∨ dLength d = 0 then none
    else ((List.range ((dLength d - 1) / dTokens d)).find? (fun i => s.allLeaves p d i eResident)).map (fun i =>
      ((dPrio d * 2 ^ 32 + dLastUse d) * 2 ^ 16 + c, c, i)))
  let best := cs.foldl (fun m x => match m with
    | none => some x
    | some y => if x.1 < y.1 then some x else m) (none : Option (Nat × Nat × Nat))
  best.map (fun x => x.2)

/-- AUTO_DEMOTE (R343): between commands, from LOW_WM down until HIGH_WM is reached, the next victim is demoted, or dropped where no
far page is free. -/
def execAutoDemote (p : Fin 16) (s : State) : Host.Outcome State Fault Refusal :=
  let q := p.val
  let free := s.rd F.CTX_POOL_FREE_PAGES q
  let limbo := ((s.limboOf q).filter (fun x => x.kind == 0)).length
  let on := tget false s.kv.demoting [q] || decide (free < s.rd F.CTX_CFG_LOW_WM q)
  let set (b : Bool) (s : State) : State := { s with kv := { s.kv with demoting := tset false s.kv.demoting [q] b } }
  if s.rd F.CTX_CFG_DEMOTE_EN q = 0 ∨ on = false ∨ (s.moveOf q).isSome ∨ s.editsOf q ≠ [] ∨ s.frozen q = true then .next s
  else if s.rd F.CTX_CFG_HIGH_WM q ≤ free + limbo then .next (set false s)
  else
    match s.victim q with
    | none => .next (set false s)
    | some (c, i) =>
      let d := s.desc q c
      let st := s.moveLack q d true [i]
      if st = 0 then .next ((set true s).beginMove none q c true [i])
      else if st = 0x342 ∧ s.rd F.CTX_CFG_DROP_EN q = 1 then
        (match s.dropPages q c [i] with
         | none => .next (set false s)
         | some (t, _) => match State.fitsLimbo q t with
           | none => .next s
           | some t => .next (set true t))
      else .next (set false s)

/-! ### Registers (R352) -/

/-- A write of CTX_CFG. -/
def execCtxCfgWrite (p : Fin 16) (v : Nat) (s : State) : Host.Outcome State Fault Refusal :=
  let low := bitsAt v 0 20
  let s := (s.wr F.CTX_CFG_LOW_WM p.val low).wr F.CTX_CFG_HIGH_WM p.val (max low (bitsAt v 20 20))
  .next ((s.wr F.CTX_CFG_DEMOTE_EN p.val (bitsAt v 42 1)).wr F.CTX_CFG_DROP_EN p.val (bitsAt v 43 1))

/-- A write of CTX_FARCFG: FAR_KV lies between the far pages in use and the quota. -/
def execCtxFarcfgWrite (p : Fin 16) (v : Nat) (s : State) : Host.Outcome State Fault Refusal :=
  let top := min (s.rd F.PDK_QUOTA_FAR_PAGES p.val) 15728640
  let low := (s.farUsed p.val).foldl (fun m x => max m (x + 1)) 0
  .next (s.wr F.CTX_FARCFG_FAR_KV p.val (max (min (bitsAt v 0 24) top) low))

/-- A write of 1 to CTX_DEFER0.VALID re-arms the record. -/
def execCtxDefer0ValidClear (p : Fin 16) (s : State) : Host.Outcome State Fault Refusal := .next (s.wr F.CTX_DEFER0_VALID p.val 0)

end Sys2Proof.Machine
end

