-- ==== Sys2Proof/Machine/Link.lean ====
section
/-! DEFINITION. The pod link (chapter 18): training, flits, credits, retry, lanes, keys, the timebase, and its commands. -/

namespace Sys2Proof.Machine

def opTdmWrite : Nat := 0x62
def opPortControl : Nat := 0x63
def opLinkMargin : Nat := 0x92

/-! ### Port state and views -/

/-- Port states (R512). -/
def portDown : Nat := 0
def portTraining : Nat := 1
def portSecuring : Nat := 2
def portActiveCode : Nat := 3
def portRetraining : Nat := 4
def portIdleCode : Nat := 5
def portFailed : Nat := 6

def State.portState (s : State) (q : Nat) : Nat := s.rd F.PLK_STATE_STATE q
def State.slotOwner (s : State) (q k : Nat) : Nat := s.rd F.PLK_TDM_SLOT q k

/-- Slots of a port that paddock `p` owns. -/
def State.slotsOf (s : State) (q p : Nat) : Nat := ((List.range 64).filter (fun k => s.slotOwner q k == p)).length

/-- The paddocks' views of a port follow its state (R559). -/
def State.syncViews (s : State) (q : Nat) : State :=
  loopN 16 (fun p s =>
    let s := s.wr (if q < 8 then F.PLK_PVIEW0_UP else F.PLK_PVIEW1_UP) p (b2n (s.portActive q)) (q % 8)
    let s := s.wr (if q < 8 then F.PLK_PVIEW0_SLOTS else F.PLK_PVIEW1_SLOTS) p (s.slotsOf q p) (q % 8)
    s.wr F.PLK_PLANES_LANES p (s.rd F.PLK_STATE_LANES q) q) s

def State.setPortState (s : State) (q st : Nat) : State := (s.wr F.PLK_STATE_STATE q st).syncViews q

/-- RESULT of PORT_CONTROL (R553). -/
def State.portResult (s : State) (q t0 : Nat) : Nat :=
  s.portState q * 2 ^ 16 + s.rd F.PLK_STATE_LANES q * 2 ^ 20 + s.usSince t0 % 2 ^ 32 * 2 ^ 32

/-- The PORT_CONTROL action of a command, with its port. -/
def portAction : Instr → Option (Nat × Nat)
  | .portUp _ q => some (0, q)
  | .portDownCommand _ q => some (1, q)
  | .portIdle _ q => some (2, q)
  | .portRekey _ q => some (3, q)
  | .portRetireLane _ q _ => some (5, q)
  | .tdmWrite _ q _ _ _ _ => some (8, q)
  | _ => none

/-- Commands that execute an action on a port (8 for TDM_WRITE). -/
def State.portCmds (s : State) (q action : Nat) : List Taken :=
  s.taken.filter (fun t => t.phase == .executing && t.cmd.bind portAction == some (action, q))

/-- Every command that waits for an action on a port completes. -/
def State.portDone (s : State) (q action status : Nat) : State :=
  (s.portCmds q action).foldl (fun s t =>
    s.complete t.h status (if action = 8 then 0 else s.portResult q (nth t.prog 0))) s

/-! ### Lanes (R509, R537, R538) -/

def noLane : Nat := 15
def State.logicalOf (s : State) (q i : Nat) : Nat := s.rd F.PLK_LANE_LOGICAL q i
def State.laneFailed (s : State) (q i : Nat) : Bool := s.rd F.PLK_LANE_FAILED q i = 1
def State.activeLanes (s : State) (q : Nat) : List Nat := (List.range 9).filter (fun i => s.logicalOf q i != noLane)
def State.spareOf (s : State) (q : Nat) : Option Nat :=
  (List.range 9).find? (fun i => s.rd F.PLK_LANE_SPARE q i = 1 && !s.laneFailed q i)

/-- LANES, LANE_MASK and SPARE_USED follow the lanes. -/
def State.syncLanes (s : State) (q : Nat) : State :=
  let l := s.activeLanes q
  let s := (s.wr F.PLK_STATE_LANES q l.length).wr F.PLK_STATE_LANE_MASK q (l.foldl (fun m i => m + 2 ^ i) 0)
  (s.wr F.PLK_STATE_SPARE_USED q (b2n (l != [] && (s.spareOf q).isNone))).syncViews q

/-- Lane `i` fails (R538): a healthy spare takes its logical lane, else the remaining active lanes are numbered again. -/
def State.laneOff (s : State) (q i : Nat) : State :=
  let was := s.logicalOf q i
  let s := (s.wr F.PLK_LANE_FAILED q 1 i).wr F.PLK_LANE_LOCK q 0 i
  let s := (s.wr F.PLK_LANE_SPARE q 0 i).wr F.PLK_LANE_LOGICAL q noLane i
  let s :=
    if was = noLane then s
    else
      match s.spareOf q with
      | some k => (s.wr F.PLK_LANE_SPARE q 0 k).wr F.PLK_LANE_LOGICAL q was k
      | none => ((s.activeLanes q).zipIdx).foldl (fun s e => s.wr F.PLK_LANE_LOGICAL q e.2 e.1) s
  s.syncLanes q

/-- The lanes of a full training, with all lanes healthy (R509). -/
def State.lanesFull (s : State) (q : Nat) : State :=
  (loopN 9 (fun i s =>
    let s := (s.wr F.PLK_LANE_FAILED q 0 i).wr F.PLK_LANE_LOCK q 1 i
    (s.wr F.PLK_LANE_SPARE q (b2n (i == 8)) i).wr F.PLK_LANE_LOGICAL q (if i = 8 then noLane else i) i) s).syncLanes q

/-- All lanes off (R512); `keep` keeps the record of failed lanes. -/
def State.lanesOff (s : State) (q : Nat) (keep : Bool) : State :=
  (loopN 9 (fun i s =>
    let s := if keep then s else s.wr F.PLK_LANE_FAILED q 0 i
    let s := (s.wr F.PLK_LANE_LOCK q 0 i).wr F.PLK_LANE_SPARE q 0 i
    s.wr F.PLK_LANE_LOGICAL q noLane i) s).syncLanes q

/-! ### Training (R514, R515) -/

/-- A training starts: nothing of an earlier one is left but the slot table's place and the failures counted so far. -/
def State.startTraining (s : State) (q tries : Nat) : State :=
  let x := s.portOf q
  let s := s.setPort q { port0 with
    step := 1, since := s.now, tries := tries, slot := x.slot, newSlots := x.newSlots, inbox := x.inbox, goodAt := s.now,
    timeSeq := x.timeSeq }
  let s : State := { s with net := { s.net with tx := s.net.tx.filter (fun t => t.port != q || t.vl != 7) } }
  let s := (s.wr F.PLK_STATE_PEER_VALID q 0).wr F.PLK_STATE_ENCRYPTED q 0
  let s := (s.wr F.PLK_STATE_KEY_TX q 0).wr F.PLK_STATE_KEY_RX q 0
  let s := (s.wr F.PLK_KEY_REKEYS q 0).wr F.PLK_KEY_TX_MFLITS q 0
  ((s.lanesOff q false).setPortState q portTraining).emit (.link q "training" [0x1FF])

/-- LINK_AUTH_FAIL (R558). -/
def State.linkAuthFail (s : State) (q : Nat) : State := s.event 0 0x44 0x804 (detailAt 0x10 q)

/-! ### Going down (R550 to R552) -/

/-- A message of this module has been lost with its port: its transaction is released and its operation fails with 0x0800. -/
def State.lostMsg (s : State) (m : Msg) (line : Option Nat) : State :=
  let s := match line.bind (fun id => s.net.lines.find? (fun l => l.id == id)) with
    | some l =>
      let s := s.dropLine l
      (match l.use with
        | .serve id _ => s.jobRow id
        | _ => s)
    | none => s
  let id := if m.kind = 4 ∨ m.kind = 5 then m.aux else m.xid
  if m.kind = 0 ∨ 5 < m.kind then s
  else
    match s.findOp id with
    | none => s
    | some o =>
      if corePdk o.core ≠ m.srcPdk then s
      else
        match o.kind with
        | .outb _ => s.outAck id 0x800
        | .fetch _ => s.fetchAck id 0x800 0
        | .append _ => s.appendAck id 0x800
        | _ => s

/-- Messages that a port has taken and that its peer has not acknowledged whole, each once with its transaction: those that
wait or are partly sent, and those of the retry buffer. -/
def State.unacked (s : State) (q : Nat) : List (Msg × Option Nat) :=
  let w := (s.net.tx.filter (fun t => t.port == q)).map (fun t => (t.msg, t.line))
  w ++ (((s.portOf q).retry.map (fun r => (r.msg, r.line))).filter (fun e => !w.contains e)).eraseDups

/-- Flits and messages of the paddocks that a port discards are counted (R533, R550). -/
def State.countDiscards (s : State) (q : Nat) : State :=
  let s := (s.net.tx.filter (fun t => t.port == q && decide (t.owner < 16))).foldl (fun s t => s.bump F.PLK_P_DISCARD_COUNT t.owner) s
  ((s.portOf q).retry.filter (fun r => decide (1 ≤ r.vl) && decide (r.vl ≤ 5))).foldl (fun s r =>
    s.bump F.PLK_P_DISCARD_COUNT r.owner) s

/-- The slot table and STRICT that waited for slot 0 take effect, and their TDM_WRITE completes (R554). -/
def State.applyTable (s : State) (q : Nat) : State :=
  match (s.portOf q).newSlots with
  | none => s
  | some (l, strict) =>
    let s := s.setPort q { s.portOf q with newSlots := none }
    let s := loopN 64 (fun k s => s.wr F.PLK_TDM_SLOT q (nth l k) k) s
    ((s.wr F.PLK_CFG_STRICT q strict).syncViews q).portDone q 8 0

/-- A port goes DOWN with a REASON (R550, R551); for any other than 1 it trains again at once (R552). -/
def State.goDown (s : State) (q reason : Nat) : State :=
  if s.portState q = portDown ∨ s.portState q = portFailed then s
  else
    let lost := s.unacked q
    let s := s.countDiscards q
    let x := s.portOf q
    let s := (s.wr F.PLK_STATE_REASON q reason).bump F.PLK_DOWN_COUNT q
    let s : State := { s with net := { s.net with tx := s.net.tx.filter (fun t => t.port != q) } }
    let s := s.setPort q { port0 with slot := x.slot, newSlots := x.newSlots, inbox := x.inbox, timeSeq := x.timeSeq }
    let s := (s.wr F.PLK_STATE_ENCRYPTED q 0).wr F.PLK_STATE_PEER_VALID q 0
    let s := ((s.lanesOff q true).setPortState q portDown).applyTable q
    let s := lost.foldl (fun s e => s.lostMsg e.1 e.2) s
    let d := detailAt 0x10 q + detailAt 0x11 reason
    let s := loopN 16 (fun p s => if s.slotsOf q p = 0 then s else s.event (vfOf p) 0x40 0x800 d) s
    let s := s.event 0 0x40 0x800 d
    let s := if reason = 4 then s.linkAuthFail q else s
    let s := [0, 2, 3, 5].foldl (fun s a => if a = 0 ∧ reason ≠ 1 then s else s.portDone q a 0x800) s
    if reason = 1 then s else s.startTraining q 0

/-! ### Entering ACTIVE -/

/-- Credits and sequence numbers start (R528, R552). -/
def State.initCredits (s : State) (q : Nat) : State :=
  let x := s.portOf q
  s.setPort q { x with
    rxCount := (List.range poolCount).foldl (fun t k => tset 0 t [k] (s.allotment q k)) []
    withheld := [], txCount := [], txSent := [] }

/-- PORT_UP to PF 0 after an entry into ACTIVE (R552, R558). -/
def State.portUpEvent (s : State) (q : Nat) : State :=
  s.event 0 0x41 0 (detailAt 0x10 q + detailAt 0x11 (s.rd F.PLK_STATE_LANES q) + detailAt 0x12 (s.rd F.PLK_STATE_PEER_DEV q) +
    detailAt 0x13 (s.rd F.PLK_STATE_PEER_PORT q))

/-- Step 6 (R514): the port is ACTIVE. -/
def State.portGoesActive (s : State) (q : Nat) : State :=
  let s := s.setPort q { s.portOf q with step := 0, tries := 0, goodAt := s.now }
  (((((s.setLock 7 true).initCredits q).setPortState q portActiveCode).portUpEvent q).portDone q 0 0)

/-! ### Flits (R518 to R521) -/

/-- One bit and one byte of CRC-64 (R521). -/
def crc64Bit (c : Nat) : Nat := if hasBit c 63 then Nat.xor (c * 2 % 2 ^ 64) 0x42F0E1EBA9EA3693 else c * 2
def crc64Bits : Nat → Nat → Nat
  | 0, c => c
  | n + 1, c => crc64Bits n (crc64Bit c)
def crc64 (bs : List Byte) : Nat :=
  bs.foldl (fun c b => crc64Bits 8 (Nat.xor c (b.toNat * 2 ^ 56))) (2 ^ 64 - 1)

/-- A flit header (R519). -/
def flitHeader (kind vl owner len seq ack nak nakId rpl key pool count : Nat) : Nat :=
  kind * 2 ^ 62 + vl * 2 ^ 59 + owner * 2 ^ 55 + len * 2 ^ 51 + seq * 2 ^ 39 + ack * 2 ^ 27 + nak * 2 ^ 26 + nakId * 2 ^ 24 +
    rpl * 2 ^ 23 + key * 2 ^ 22 + pool * 2 ^ 15 + count * 2 ^ 3

/-- Payload bytes of a flit, padded with zeros. -/
def flitPad (bs : List Byte) : List Byte := (bs ++ List.replicate 240 0).take 240

/-- What the tag of an encrypted flit covers: port, direction, slot, count, header and payload (R542). -/
def tagInput (q dir key count hdr : Nat) (payload : List Byte) : List Byte :=
  leBytes q 1 ++ leBytes dir 1 ++ leBytes key 1 ++ leBytes count 8 ++ leBytes hdr 8 ++ payload

/-- Use numbers of the cryptographic constants of the port keys: ciphertext, tag made, tag checked. -/
def useCipher : Nat := 40
def useTag : Nat := 41

/-- Bytes on the wire of a filler or data flit: payload and check field. With encryption they are ciphertext and tag, and the
transmit count rises (R521, R542). -/
def State.sealFlit (s : State) (q hdr : Nat) (payload : List Byte) : State × (List Byte × Nat) :=
  let body := flitPad payload
  if s.rd F.PLK_STATE_ENCRYPTED q = 0 then (s, (body, crc64 (leBytes hdr 8 ++ body)))
  else
    let x := s.portOf q
    let t := tagInput q 1 (s.rd F.PLK_STATE_KEY_TX q) x.txFlits hdr body
    let s := s.setPort q { x with txFlits := x.txFlits + 1 }
    (s.wr F.PLK_KEY_TX_MFLITS q ((x.txFlits + 1) / 2 ^ 20), ((Config.digest useCipher t).take 240, leNat ((Config.digest useTag t).take 8)))

/-- The pool that a header reports: the pools with an allotment in round robin (R528). -/
def State.nextPool (s : State) (q : Nat) : State × (Nat × Nat) :=
  let x := s.portOf q
  let k := ((List.range poolCount).map (fun i => (x.poolNext + i) % poolCount)).find? (fun k => s.allotment q k != 0)
  let k := k.getD 0
  (s.setPort q { x with poolNext := (k + 1) % poolCount }, (k, tget 0 x.rxCount [k]))

/-- A filler or data flit goes out with the acknowledgement, NAK, key and credit fields of the moment. -/
def State.sendFlit (s : State) (q kind vl owner : Nat) (payload : List Byte) (seq rpl : Nat) : State :=
  let (s, r) := s.nextPool q
  let x := s.portOf q
  let hdr := flitHeader kind vl owner (payload.length / 16) seq ((x.seqWant + 4095) % 4096) (b2n x.nak) x.nakId rpl
    (s.rd F.PLK_STATE_KEY_TX q) r.1 r.2
  let (s, w) := s.sealFlit q hdr payload
  s.emit (.link q "flit" [hdr, leNat w.1, w.2])

/-- A marker (R520): never encrypted, always with a CRC check. -/
def State.sendMarker (s : State) (q mark : Nat) : State :=
  let x := s.portOf q
  let body := flitPad (leBytes mark 1 ++ leBytes (s.rd F.PLK_STATE_LANE_MASK q) 2 ++ leBytes (x.mapEpoch % 256) 1 ++
    List.replicate 4 0 ++ leBytes x.txFlits 8)
  s.emit (.link q "flit" [2 ^ 63, leNat body, crc64 (leBytes (2 ^ 63) 8 ++ body)])

/-! ### Messages as bytes (R523, R571) -/

def padTo (n : Nat) (bs : List Byte) : List Byte := (bs ++ List.replicate n 0).take n

def encodeMsg (m : Msg) : List Byte :=
  let n := 32 * msgUnits m
  if 0x40 ≤ m.kind then padTo n (leBytes m.kind 1 ++ leBytes (msgUnits m) 1 ++ m.data)
  else
    padTo n (leBytes m.kind 1 ++ leBytes (msgUnits m) 1 ++ leBytes m.dstDev 1 ++ leBytes m.srcDev 1 ++
      leBytes (m.dstPdk % 16 + 16 * (m.srcPdk % 16)) 1 ++ leBytes m.flags 1 ++ leBytes m.place 2 ++ leBytes m.xid 4 ++
      leBytes m.k 2 ++ leBytes m.n 2 ++ leBytes m.target 8 ++ leBytes m.aux 8 ++ m.data)

def decodeMsg (b : List Byte) : Msg :=
  let kind := fieldAt b 0 1
  if 0x40 ≤ kind then ⟨kind, 0, 0, 0, 0, 0, 0, 0, 0, 0, 0, 0, b.drop 2⟩
  else ⟨kind, fieldAt b 2 1, fieldAt b 3 1, fieldAt b 4 1 % 16, fieldAt b 4 1 / 16, fieldAt b 5 1, fieldAt b 6 2, fieldAt b 8 4,
    fieldAt b 0x0C 2, fieldAt b 0x0E 2, fieldAt b 0x10 8, fieldAt b 0x18 8, b.drop 32⟩

/-- A message of VL7 with the given bytes from byte 2 on, 30 of them or more. -/
def vl7 (kind : Nat) (data : List Byte) : Msg :=
  ⟨kind, 0, 0, 0, 0, 0, 0, 0, 0, 0, 0, 0, if data.length < 30 then padTo 30 data else data⟩

/-- Kinds that a receiver reassembles (R523, R572). -/
def kindOk (k : Nat) : Bool := (decide (1 ≤ k) && decide (k ≤ 9)) || k == 0x10 || (decide (0x40 ≤ k) && decide (k ≤ 0x44))

/-! ### FLIT_SEND (R531, R534, R536) -/

/-- Whether flits flow on a port: from step 4 of a training on, in SECURING and in ACTIVE. -/
def State.flitsOn (s : State) (q : Nat) : Bool :=
  s.portState q == portActiveCode || s.portState q == portSecuring ||
    (s.portState q == portTraining && decide (4 ≤ (s.portOf q).step))

/-- Flits of a retry buffer. -/
def retryCap : Nat := 2048

/-- Credit of a pool at the sender (R528). -/
def Port.credit (x : Port) (pool : Nat) : Nat := (tget 0 x.txCount [pool] + 4096 - tget 0 x.txSent [pool] % 4096) % 4096

/-- The head message of a stream of a port: a partly sent one, else for VL7 a TIME message first, else the oldest. -/
def State.streamHead (s : State) (q vl owner : Nat) : Option TxMsg :=
  let l := s.net.tx.filter (fun t => t.port == q && t.vl == vl && (t.owner == owner || 16 ≤ owner))
  match l.find? (fun t => t.left != msgFlits t.msg) with
  | some t => some t
  | none =>
    match (if vl = 7 then l.find? (fun t => t.msg.kind == 0x42) else none) with
    | some t => some t
    | none => l.head?

/-- The message whose next flit a stream can send: it has credit, the retry buffer has room, and before ACTIVE only VL7 is
carried (R514, R528, R534, R543). -/
def State.streamReady (s : State) (q vl owner : Nat) : Option TxMsg :=
  let x := s.portOf q
  if x.credit (poolOf vl (owner % 16)) = 0 ∨ retryCap ≤ x.retry.length ∨ (vl ≠ 7 ∧ s.portState q ≠ portActiveCode) then none
  else s.streamHead q vl owner

/-- The paddock's choice among its VLs, in round robin (R531). -/
def State.paddockReady (s : State) (q p : Nat) : Option TxMsg :=
  let v0 := tget 0 (s.portOf q).vlNext [p]
  (List.range 5).findSome? (fun i => s.streamReady q ((v0 + i) % 5 + 1) p)

/-- The fabric's choice: VL0, then VL7, then VL6 (R531). -/
def State.fabricReady (s : State) (q : Nat) : Option TxMsg := [0, 7, 6].findSome? (fun v => s.streamReady q v 16)

/-- The data flit of a slot, and whether the slot was offered beyond its owner to a paddock (R531). -/
def State.pickFlit (s : State) (q slot : Nat) : Option (TxMsg × Bool) :=
  let owner := s.slotOwner q slot
  let own := if owner < 16 then s.paddockReady q owner else if owner = 16 then s.fabricReady q else none
  match own with
  | some t => some (t, false)
  | none =>
    if s.rd F.PLK_CFG_STRICT q = 1 then none
    else
      let o := (s.portOf q).offer
      match (List.range 16).findSome? (fun i => s.paddockReady q ((o + i) % 16)) with
      | some t => some (t, true)
      | none => (s.fabricReady q).map (fun t => (t, false))

/-- Replacing or removing the first message equal to `t` in the transmit queues. -/
def putTx (t : TxMsg) (new : Option TxMsg) : List TxMsg → List TxMsg
  | [] => []
  | y :: ys => if y = t then new.toList ++ ys else y :: putTx t new ys

/-- The next data flit of a message goes out (R522, R534); with its last flit the message has been sent. After a NAK with nothing
to replay it carries RPL (DEDUCED: log entry 32). -/
def State.sendData (s : State) (q : Nat) (t : TxMsg) (offered : Bool) : State :=
  let i := msgFlits t.msg - t.left
  let owner := if 1 ≤ t.vl ∧ t.vl ≤ 5 then t.owner % 16 else 0
  let bytes := ((encodeMsg t.msg).drop (240 * i)).take 240
  let x := s.portOf q
  let pool := poolOf t.vl owner
  let seq := x.seqNext
  let last := t.left ≤ 1
  let rpl := b2n x.replayFirst
  let s := s.setPort q { x with
    seqNext := (seq + 1) % 4096
    replayFirst := false
    txSent := tset 0 x.txSent [pool] (tget 0 x.txSent [pool] + 1)
    vlNext := if 1 ≤ t.vl ∧ t.vl ≤ 5 then tset 0 x.vlNext [owner] (t.vl % 5) else x.vlNext
    offer := if offered then (owner + 1) % 16 else x.offer
    retry := x.retry ++ [⟨seq, t.vl, owner, bytes, 1, t.msg, if last then t.line else none⟩] }
  let s : State := { s with net := { s.net with
    tx := putTx t (if last then none else some { t with left := t.left - 1 }) s.net.tx } }
  let s := s.bump F.PLK_TX_FLITS_COUNT q
  let s := if 1 ≤ t.vl ∧ t.vl ≤ 5 then s.bump F.PLK_P_TX_FLITS_COUNT owner else s
  let s := s.sendFlit q 1 t.vl owner bytes seq rpl
  if last then
    let s := s.emit (.message q t.msg)
    -- an IDLE acceptance that has been sent takes this end to idle (R555)
    if t.msg.kind = 0x43 ∧ hasBit (fieldAt t.msg.data 0 1) 1 = true then
      (s.setPort q { s.portOf q with idle := 0 }).setPortState q portIdleCode
    else s
  else s

/-- The next flit of a replay goes out (R536). The eighth sending of a SEQ takes the port down. -/
def State.sendReplay (s : State) (q seq : Nat) (rest : List Nat) : State :=
  let x := s.portOf q
  match x.retry.find? (fun r => r.seq == seq) with
  | none => s.setPort q { x with replay := rest }
  | some r =>
    let s := s.setPort q { x with
      replay := rest
      replayFirst := false
      retry := x.retry.map (fun y => if y.seq = seq then { y with sends := y.sends + 1 } else y) }
    let s := (s.bump F.PLK_REPLAY_FLITS_COUNT q).sendFlit q 1 r.vl r.owner r.bytes seq (b2n x.replayFirst)
    if 8 ≤ r.sends + 1 then s.goDown q 3 else s

/-- Flit count at which a direction sends only fillers (R544). -/
def keyLimit : Nat := 2 ^ 40

/-- FLIT_SEND (R530, R531): one flit time. -/
def execFlitSend (port : Fin 12) (s : State) : Host.Outcome State Fault Refusal :=
  let q := port.val
  if s.flitsOn q = false then .next s
  else
    let slot := (s.portOf q).slot
    let s := if slot = 0 then s.applyTable q else s
    let x := s.portOf q
    let s := s.setPort q { x with slot := (slot + 1) % 64, flits := x.flits + 1 }
    if x.resume then .next ((s.setPort q { s.portOf q with resume := false }).sendMarker q 1)
    else if x.flits % 16384 = 0 then .next (s.sendMarker q 0)
    else
      match x.replay with
      | r :: rest => .next (s.sendReplay q r rest)
      | [] =>
        let full := s.rd F.PLK_STATE_ENCRYPTED q = 1 ∧ keyLimit ≤ x.txFlits
        match (if full then none else s.pickFlit q slot) with
        | some (t, offered) => .next (s.sendData q t offered)
        | none => .next ((s.bump F.PLK_FILL_COUNT q).sendFlit q 0 0 0 [] ((x.seqNext + 4095) % 4096) 0)

/-! ### FLIT_RECEIVE (R516, R517, R529, R535, R545) -/

/-- Times of the last millisecond, with the present one. -/
def State.within1ms (s : State) (l : List Nat) : List Nat := s.now :: l.filter (fun t => decide (s.now < t + 1000000))

/-- NAK rises, or rises again (R535). -/
def State.raiseNak (s : State) (q : Nat) : State :=
  let x := s.portOf q
  s.setPort q { x with nak := true, nakId := (x.nakId + 1) % 4, nakWait := 0 }

/-- A flit fails its check (R535, R545). -/
def State.flitFails (s : State) (q : Nat) (tagged rpl : Bool) : State :=
  let s := s.bump F.PLK_CHECK_FAIL_COUNT q
  let s := if (s.portOf q).nak ∧ rpl = false then s else s.raiseNak q
  if tagged then
    let s := s.bump F.PLK_AUTH_FAIL_COUNT q
    let x := s.portOf q
    let l := s.within1ms x.authFails
    let s := s.setPort q { x with authFails := l }
    if 16 ≤ l.length then s.goDown q 4 else s
  else s

/-- A credit violation (R529): the flit is discarded; a credit that it counted against returns. -/
def State.credViolation (s : State) (q : Nat) (pool : Option Nat) : State :=
  let s := match pool with
    | some k => s.returnCredit q k
    | none => s
  let s := s.bump F.PLK_CRED_VIOL_COUNT q
  let x := s.portOf q
  let l := s.within1ms x.violations
  let s := s.setPort q { x with violations := l }
  if 16 ≤ l.length then s.goDown q 3 else s

/-- Whole messages at the front of a stream, the rest, and whether it is legal (R522, R523); each round takes one message. -/
def splitMsgs : Nat → List Byte → List Msg × List Byte × Bool
  | 0, b => ([], b, true)
  | n + 1, b =>
    if b.length < 2 then ([], b, true)
    else
      let u := fieldAt b 1 1
      if kindOk (fieldAt b 0 1) = false ∨ u = 0 ∨ 17 < u then ([], b, false)
      else if b.length < 32 * u then ([], b, true)
      else
        let r := splitMsgs n (b.drop (32 * u))
        (decodeMsg (b.take (32 * u)) :: r.1, r.2)

/-- A data flit that is accepted in order: its bytes join their stream, and the messages that they complete are delivered. -/
def State.acceptFlit (s : State) (q vl owner : Nat) (bytes : List Byte) : State :=
  let pool := poolOf vl owner
  let s := s.bump F.PLK_RX_FLITS_COUNT q
  let s := if 1 ≤ vl ∧ vl ≤ 5 then s.bump F.PLK_P_RX_FLITS_COUNT owner else s
  let x := s.portOf q
  let own := if 1 ≤ vl ∧ vl ≤ 5 then owner else 0
  if s.allotment q pool + tget 0 x.withheld [pool] ≤ (tget [] x.heldBytes [vl, own]).length then s.credViolation q none
  else
    let r := splitMsgs 9 (tget [] x.partials [vl, own] ++ bytes)
    if r.2.2 = false then s.credViolation q (some pool)
    else if bytes = [] then s.returnCredit q pool
    else
      s.setPort q { x with
        partials := tset [] x.partials [vl, own] r.2.1
        heldBytes := tset [] x.heldBytes [vl, own] (tget [] x.heldBytes [vl, own] ++ [bytes.length])
        inbox := x.inbox ++ r.1.map (fun m => (vl, own, m)) }

/-- The retained flits after the one that carries `ack`, and those that it covers. -/
def ackSplit (ack : Nat) (l : List Retained) : List Retained × List Retained :=
  if l.any (fun r => r.seq == ack) then
    let k := (l.takeWhile (fun r => r.seq != ack)).length + 1
    (l.drop k, l.take k)
  else (l, [])

/-- The ACK, NAK and credit report of a header that passed its check (R528, R534, R536). -/
def State.applyHeader (s : State) (q hdr : Nat) : State :=
  let ack := bitsAt hdr 27 12
  let pool := bitsAt hdr 15 7
  let x := s.portOf q
  let r := ackSplit ack x.retry
  let s := s.setPort q { x with
    retry := r.1
    ackGot := ack
    txCount := if pool < poolCount then tset 0 x.txCount [pool] (bitsAt hdr 3 12) else x.txCount }
  let s := r.2.foldl (fun s y => match y.line with
    | some id => s.ackLine id
    | none => s) s
  let x := s.portOf q
  if hasBit hdr 26 = true ∧ bitsAt hdr 24 2 ≠ x.nakSeen then
    (s.setPort q { x with nakSeen := bitsAt hdr 24 2, replay := x.retry.map (fun y => y.seq), replayFirst := true }).bump
      F.PLK_REPLAY_COUNT q
  else s

/-- The first flit under a new key switches the receiver (R544); a rekey ends when both directions have switched. -/
def State.receiveKey (s : State) (q key : Nat) : State :=
  if s.rd F.PLK_STATE_ENCRYPTED q = 0 then s
  else
    let x := s.portOf q
    if s.rd F.PLK_STATE_KEY_RX q = key then s.setPort q { x with rxFlits := x.rxFlits + 1 }
    else
      let s := (s.setPort q { x with rxFlits := 1 }).wr F.PLK_STATE_KEY_RX q key
      if s.rd F.PLK_STATE_KEY_TX q = key then
        (s.setPort q { s.portOf q with rekeying := false, peerReady := none }).portDone q 3 0
      else s

/-- A flit that passed its check. -/
def State.flitPasses (s : State) (q hdr : Nat) (payload : List Byte) : State :=
  let kind := bitsAt hdr 62 2
  let s := s.setPort q { s.portOf q with goodAt := s.now }
  if kind = 2 then
    (if fieldAt payload 0 1 = 1 then s.setPort q { s.portOf q with rxFlits := fieldAt payload 8 8 } else s)
  else if kind = 3 then s
  else
    let s := (s.receiveKey q (bitsAt hdr 22 1)).applyHeader q hdr
    if kind = 0 then s
    else
      let x := s.portOf q
      let seq := bitsAt hdr 39 12
      if seq = x.seqWant ∧ (x.nak = false ∨ hasBit hdr 23 = true) then
        let s := s.setPort q { x with nak := false, seqWant := (seq + 1) % 4096 }
        s.acceptFlit q (bitsAt hdr 59 3) (bitsAt hdr 55 4) (payload.take (16 * bitsAt hdr 51 4))
      else if x.nak then s
      else s.raiseNak q

/-- Whether a flit passes its check (R521, R542): the CRC, or with encryption the tag under the receiver's count. -/
def State.checkPasses (s : State) (q hdr : Nat) (payload : List Byte) (check : Nat) : Bool :=
  if bitsAt hdr 62 2 = 2 ∨ s.rd F.PLK_STATE_ENCRYPTED q = 0 then check == crc64 (leBytes hdr 8 ++ flitPad payload)
  else Config.verifies useTag (tagInput q 0 (bitsAt hdr 22 1)
    (if bitsAt hdr 22 1 = s.rd F.PLK_STATE_KEY_RX q then (s.portOf q).rxFlits else 0) hdr (flitPad payload) ++ leBytes check 8)

/-- FLIT_RECEIVE (R535): `payload` is the plaintext, `uncorr` the uncorrectable codewords that end with this flit, `spoiled` whether
it has a bit in one, `corr` the symbols corrected by physical lane (R517). -/
def execFlitReceive (port : Fin 12) (header : Word64) (payload : List Byte) (check : Word64) (uncorr : Nat) (spoiled : Bool)
    (corr : List (Fin 9 × Nat)) (s : State) : Host.Outcome State Fault Refusal :=
  let q := port.val
  -- a flit that comes on an idle port is the end of IDLE at the peer (R555)
  let s := if s.portState q = portIdleCode then (s.setPortState q portActiveCode).portUpEvent q else s
  if s.flitsOn q = false then .next s
  else
    let s := corr.foldl (fun s e => (s.bump F.PLK_LANE_ERR_COUNT q e.1.val e.2).bump F.PLK_FEC_CORR_COUNT q 0 e.2) s
    let s := if uncorr = 0 then s else s.bump F.PLK_FEC_UNCORR_COUNT q 0 uncorr
    let x := s.portOf q
    let s := if x.nak then s.setPort q { x with nakWait := x.nakWait + 1 } else s
    let hdr := header.toNat
    let enc := s.rd F.PLK_STATE_ENCRYPTED q = 1 ∧ bitsAt hdr 62 2 ≠ 2
    if spoiled = false ∧ s.checkPasses q hdr payload check.toNat = true then .next (s.flitPasses q hdr payload)
    else
      let s := if enc then s.setPort q { s.portOf q with rxFlits := (s.portOf q).rxFlits + 1 } else s
      .next (s.flitFails q (decide enc && !spoiled) (hasBit hdr 23))

/-- REPLAY_WAIT_TIMEOUT (R535 step 3). -/
def execReplayWaitTimeout (port : Fin 12) (s : State) : Host.Outcome State Fault Refusal :=
  let x := s.portOf port.val
  .next (if x.nak = true ∧ 4096 ≤ x.nakWait then s.raiseNak port.val else s)

/-! ### Lane failure and retraining (R537 to R541) -/

/-- LANE_DEGRADED (R558). -/
def State.laneEvent (s : State) (q i : Nat) : State :=
  s.event 0 0x42 0 (detailAt 0x10 q + detailAt 0x11 i + detailAt 0x12 (s.rd F.PLK_STATE_LANES q))

/-- A lane change of a port that is ACTIVE or already retraining (R539). -/
def State.beginRetrain (s : State) (q : Nat) : State :=
  let s := s.setPort q { s.portOf q with since := s.now, goodAt := s.now }
  let s := s.bump F.PLK_DEGRADE_COUNT q
  (s.setPortState q portRetraining).emit (.link q "retrain" [s.rd F.PLK_STATE_LANE_MASK q])

/-- A physical lane fails (R537, R538): in training only before its step 3 by the step's end. -/
def State.failLane (s : State) (q i : Nat) : State :=
  let st := s.portState q
  if s.laneFailed q i = true ∨ st = portDown ∨ st = portFailed ∨ (st = portTraining ∧ (s.portOf q).step < 4) then s
  else
    let active := s.logicalOf q i != noLane
    let s := s.laneOff q i
    let s := s.laneEvent q i
    if s.rd F.PLK_STATE_LANES q = 0 then s.goDown q 5
    else if active ∧ (st = portActiveCode ∨ st = portRetraining) then s.beginRetrain q
    else s

def execLaneFail (port : Fin 12) (lane : Fin 9) (s : State) : Host.Outcome State Fault Refusal := .next (s.failLane port.val lane.val)

/-- SPARE_LANE_TEST_FAIL (R541): the bit errors found are counted and the spare fails. -/
def execSpareLaneTestFail (port : Fin 12) (errors : Nat) (s : State) : Host.Outcome State Fault Refusal :=
  match s.spareOf port.val with
  | some k =>
    .next (if s.portState port.val = portActiveCode then
      (if errors = 0 then s else s.bump F.PLK_LANE_ERR_COUNT port.val k errors).failLane port.val k else s)
  | none => .next s

/-- RETRAIN_SEQUENCE_RECEIVE (R539): this end takes the peer's lane mask, or has its own confirmed. -/
def execRetrainSequenceReceive (port : Fin 12) (mask : Nat) (s : State) : Host.Outcome State Fault Refusal :=
  let q := port.val
  if s.portState q = portActiveCode ∨ s.portState q = portRetraining then
    let s := s.setPort q { s.portOf q with goodAt := s.now }
    let gone := (s.activeLanes q).filter (fun i => !hasBit mask i)
    if gone = [] then .next s
    else
      let s := gone.foldl (fun s i => (s.laneOff q i).laneEvent q i) s
      .next (if s.rd F.PLK_STATE_LANES q = 0 then s.goDown q 5 else s.beginRetrain q)
  else .next s

/-- RETRAIN_RESUME (R539): both ends are ACTIVE; the peer's marker gives its count, every retained flit is replayed, and the
receiver expects the RPL flit. -/
def execRetrainResume (port : Fin 12) (count : Nat) (s : State) : Host.Outcome State Fault Refusal :=
  let q := port.val
  let x := s.portOf q
  if s.portState q = portRetraining ∧ s.now ≤ x.since + 2000 then
    let s := s.setPort q { x with
      resume := true
      mapEpoch := (x.mapEpoch + 1) % 256
      rxFlits := if s.rd F.PLK_STATE_ENCRYPTED q = 1 then count else x.rxFlits
      replay := x.retry.map (fun y => y.seq)
      replayFirst := true
      nak := true
      nakWait := 0
      goodAt := s.now }
    let s := s.bump F.PLK_REPLAY_COUNT q
    .next (((s.setPortState q portActiveCode).portUpEvent q).portDone q 5 0)
  else .next s

/-- RETRAIN_DEADLINE_MISS (R539): the answer, the resume markers or the return to ACTIVE came too late. -/
def execRetrainDeadlineMiss (port : Fin 12) (part : Fin 3) (s : State) : Host.Outcome State Fault Refusal :=
  let limit := nth [200, 1500, 2000] part.val
  .next (if s.portState port.val = portRetraining ∧ (s.portOf port.val).since + limit < s.now then s.goDown port.val 2 else s)

/-- PEER_LOST_TIMEOUT (R550): no good flit and no training sequence for 10 µs. -/
def execPeerLostTimeout (port : Fin 12) (s : State) : Host.Outcome State Fault Refusal :=
  let st := s.portState port.val
  .next (if (st = portSecuring ∨ st = portActiveCode ∨ st = portRetraining) ∧ (s.portOf port.val).goodAt + 10000 ≤ s.now then
    s.goDown port.val 2 else s)

/-- PORT_DOWN (R550, R551): the causes of one clock take the port down once, with the lowest REASON. -/
def execPortDown (port : Fin 12) (reasons : List Nat) (s : State) : Host.Outcome State Fault Refusal :=
  match [2, 3, 4, 5].find? (fun r => reasons.contains r) with
  | some r => .next (s.goDown port.val r)
  | none => .next s

/-! ### Training -/

/-- Time after the start of a training, in ns, by which a step ends (R514). -/
def stepDeadline (step : Nat) : Nat := nth [0, 100000, 20000000, 21000000, 22000000, 80000000] step

/-- An abandoned training (R515): a new one starts, or the port is FAILED after the third. -/
def State.abandonTraining (s : State) (q : Nat) (auth : Bool) : State :=
  let x := s.portOf q
  if x.tries + 1 < 3 then s.startTraining q (x.tries + 1)
  else
    let s := s.setPort q { port0 with slot := x.slot, newSlots := x.newSlots, inbox := x.inbox, timeSeq := x.timeSeq }
    let s := s.wr F.PLK_STATE_REASON q (if auth then 4 else 6)
    let s := (s.lanesOff q true).setPortState q portFailed
    let s := if auth then s.linkAuthFail q else s
    s.portDone q 0 (if auth then 0x804 else 0x800)

/-- Device identity digest that CAPS carries (R523). -/
def State.identityDigest (s : State) : List Byte := (Config.digest 1 s.trust.serial).take 24

/-- CAPS (R523). -/
def State.sendCaps (s : State) (q : Nat) : State :=
  let healthy := ((List.range 9).filter (fun i => !s.laneFailed q i)).length
  let dev := if s.rd F.RTE_DCFG_DEV_VALID 0 = 1 then s.devId else 0xFF
  s.post (some q) 16 7 none (vl7 0x40 (leBytes q 1 ++ leBytes dev 1 ++ leBytes healthy 1 ++
    leBytes (s.rd F.PLK_CFG_ENCRYPT_REQUIRED q) 1 ++ leBytes 1 1 ++ leBytes 0 1 ++ s.identityDigest))

/-- TRAINING_STEP_END (R514): `started` is the first clock in which both ends sent training sequences, `lanes` the lanes that failed
the step. A step that ends late, or with no healthy lane, ends nothing. -/
def execTrainingStepEnd (port : Fin 12) (started : Nat) (lanes : List (Fin 9)) (s : State) : Host.Outcome State Fault Refusal :=
  let q := port.val
  let x := s.portOf q
  let since := if x.step = 1 then max started x.since else x.since
  if (s.portState q ≠ portTraining ∧ s.portState q ≠ portSecuring) ∨ x.step = 0 ∨ since + stepDeadline x.step < s.now ∨ s.now < since then .next s
  else
    let s := if x.step ≤ 2 then lanes.foldl (fun s i => s.wr F.PLK_LANE_FAILED q 1 i.val) s else s
    if (List.range 9).all (fun i => s.laneFailed q i) then .next (s.abandonTraining q false)
    else
      let goTo (n : Nat) (s : State) : State := s.setPort q { s.portOf q with step := n, since := since }
      match x.step with
      | 1 => .next (goTo 2 s)
      | 2 => .next (goTo 3 s)
      | 3 =>
        let bad := (List.range 9).filter (fun i => s.laneFailed q i)
        let s := bad.foldl (fun s i => s.laneOff q i) (s.lanesFull q)
        .next (((goTo 4 s).initCredits q).sendCaps q)
      | 4 =>
        if s.rd F.PLK_STATE_PEER_VALID q = 0 then .next s
        else if s.rd F.PLK_CFG_ENCRYPT_REQUIRED q = 1 ∨ x.peerEncrypt = true then .next ((goTo 5 s).setPortState q portSecuring)
        else .next (s.portGoesActive q)
      | _ =>
        let s := (s.closeSession 2 q).openSession 2 q
        let s := s.wr F.PLK_STATE_ENCRYPTED q 1
        let s := s.setPort q { s.portOf q with txFlits := 0, rxFlits := 0 }
        .next (s.portGoesActive q)

/-- TRAINING_ABANDON (R515): a missed deadline, no healthy lane, or a failed step 5. -/
def execTrainingAbandon (port : Fin 12) (started : Nat) (authFailed : Bool) (s : State) : Host.Outcome State Fault Refusal :=
  let q := port.val
  let x := s.portOf q
  let since := if x.step = 1 then max started x.since else x.since
  if (s.portState q ≠ portTraining ∧ s.portState q ≠ portSecuring) ∨ x.step = 0 then .next s
  else if x.step = 5 ∧ authFailed = true then .next (s.abandonTraining q true)
  else if since + stepDeadline x.step < s.now ∨ (List.range 9).all (fun i => s.laneFailed q i) then .next (s.abandonTraining q false)
  else .next s

/-! ### VL7 messages -/

/-- A VL7 message of kind `kind` is consumed at a port on which flits flow. -/
def State.takeVl7 (s : State) (q : Nat) (m : Msg) (kind : Nat) : Option State :=
  if m.kind = kind ∧ s.flitsOn q = true then some (s.consume q m) else none

/-- CAPS_RECEIVE (R523): the peer's port, device and identity. -/
def execCapsReceive (port : Fin 12) (m : Msg) (s : State) : Host.Outcome State Fault Refusal :=
  let q := port.val
  match s.takeVl7 q m 0x40 with
  | none => .next s
  | some s =>
    let s := (s.wr F.PLK_STATE_PEER_PORT q (fieldAt m.data 0 1)).wr F.PLK_STATE_PEER_DEV q (fieldAt m.data 1 1)
    let s := s.setPort q { s.portOf q with peerEncrypt := hasBit (fieldAt m.data 3 1) 0, digest := (m.data.drop 6).take 24 }
    .next (s.wr F.PLK_STATE_PEER_VALID q 1)

/-- SPDM_FRAGMENT_RECEIVE (R523, R543): the fragments of one SPDM message, from FIRST on. -/
def execSpdmFragmentReceive (port : Fin 12) (m : Msg) (s : State) : Host.Outcome State Fault Refusal :=
  let q := port.val
  match s.takeVl7 q m 0x41 with
  | none => .next s
  | some s =>
    let x := s.portOf q
    let part := (m.data.drop 6).take (fieldAt m.data 2 2)
    .next (s.setPort q { x with spdm := if hasBit (fieldAt m.data 0 1) 0 then part else x.spdm ++ part })

/-- IDLE_MESSAGE_RECEIVE (R555): a request is accepted, an acceptance takes this end to idle. -/
def execIdleMessageReceive (port : Fin 12) (m : Msg) (s : State) : Host.Outcome State Fault Refusal :=
  let q := port.val
  match s.takeVl7 q m 0x43 with
  | none => .next s
  | some s =>
    let b := fieldAt m.data 0 1
    if s.portState q ≠ portActiveCode then .next s
    else if hasBit b 0 then .next (s.post (some q) 16 7 none (vl7 0x43 (leBytes 2 1)))
    else if hasBit b 1 = true ∧ (s.portOf q).idle = 1 then
      .next (((s.setPort q { s.portOf q with idle := 0 }).setPortState q portIdleCode).portDone q 2 0)
    else .next s

/-- KEY_READY of a port: the slot that is not in use, and the number of the rekey (R544). -/
def State.sendKeyReady (s : State) (q : Nat) : State :=
  s.post (some q) 16 7 none (vl7 0x44 (leBytes (1 - s.rd F.PLK_STATE_KEY_TX q) 1 ++ leBytes 0 1 ++
    leBytes (s.rd F.PLK_KEY_REKEYS q + 1) 4))

/-- A rekey starts: new keys stand in the idle slots and KEY_READY goes out (R544). -/
def State.startRekey (s : State) (q : Nat) : State :=
  if (s.portOf q).rekeying then s
  else (s.sendKeyReady q).setPort q { s.portOf q with rekeying := true }

/-- KEY_READY_RECEIVE (R544): this end joins the rekey and its transmitter switches. -/
def execKeyReadyReceive (port : Fin 12) (m : Msg) (s : State) : Host.Outcome State Fault Refusal :=
  let q := port.val
  match s.takeVl7 q m 0x44 with
  | none => .next s
  | some s =>
    if s.rd F.PLK_STATE_ENCRYPTED q = 0 then .next s
    else
      let s := s.startRekey q
      let slot := fieldAt m.data 0 1 % 2
      if slot = s.rd F.PLK_STATE_KEY_TX q then .next s
      else
        let s := (s.wr F.PLK_STATE_KEY_TX q slot).wr F.PLK_KEY_REKEYS q (s.rd F.PLK_KEY_REKEYS q + 1)
        let s := (s.setPort q { s.portOf q with txFlits := 0, peerReady := some slot }).wr F.PLK_KEY_TX_MFLITS q 0
        .next (if s.rd F.PLK_STATE_KEY_RX q = slot then
          (s.setPort q { s.portOf q with rekeying := false, peerReady := none }).portDone q 3 0 else s)

/-- REKEY_DUE (R544): a direction's count has reached 2^39. -/
def execRekeyDue (port : Fin 12) (s : State) : Host.Outcome State Fault Refusal :=
  let q := port.val
  let x := s.portOf q
  .next (if s.portActive q = true ∧ s.rd F.PLK_STATE_ENCRYPTED q = 1 ∧ (2 ^ 39 ≤ x.txFlits ∨ 2 ^ 39 ≤ x.rxFlits) then
    s.startRekey q else s)

/-! ### Timebase (R546 to R548) -/

/-- TIME_MESSAGE_SEND (R546). -/
def execTimeMessageSend (port : Fin 12) (s : State) : Host.Outcome State Fault Refusal :=
  let q := port.val
  if s.portActive q = false then .next s
  else
    let x := s.portOf q
    let locked := s.rd F.PLK_TIME_LOCKED 0
    let hops := if locked = 1 then s.rd F.PLK_TIME_HOPS 0 else 0xFF
    let m := vl7 0x42 (leBytes (locked + 2 * s.rd F.PLK_TIME_MASTER 0) 1 ++ leBytes hops 1 ++ leBytes x.timeSeq 4 ++
      leBytes s.now 8 ++ leBytes x.echo.1 8 ++ leBytes x.echo.2 8)
    .next ((s.post (some q) 16 7 none m).setPort q { x with timeSeq := (x.timeSeq + 1) % 2 ^ 32 })

/-- Whether a port can be followed: it is ACTIVE and its peer is locked. -/
def State.followable (s : State) (q : Nat) : Bool := s.portActive q && (s.portOf q).peerLocked

/-- The port that a follower follows: its upstream, or its backup while the upstream is lost (R548). -/
def State.followed (s : State) : Option Nat :=
  let u := s.rd F.PLK_TIME_UPSTREAM 0
  let b := s.rd F.PLK_TIME_BACKUP 0
  if s.rd F.PLK_TIME_MASTER 0 = 1 then none
  else if u < 12 ∧ (s.followable u = true ∨ s.followable b = false) then some u
  else if b < 12 then some b
  else none

/-- TIME_MESSAGE_RECEIVE (R547, R548): `tRx` is the timebase when the message arrived at the pins. Delay and offset are taken in ps. -/
def execTimeMessageReceive (port : Fin 12) (m : Msg) (tRx : Nat) (s : State) : Host.Outcome State Fault Refusal :=
  let q := port.val
  match s.takeVl7 q m 0x42 with
  | none => .next s
  | some s =>
    let locked := hasBit (fieldAt m.data 0 1) 0
    let hops := fieldAt m.data 1 1
    let tTx : Int := fieldAt m.data 6 8
    let echo : Int := fieldAt m.data 14 8
    let tPeer : Int := fieldAt m.data 22 8
    let first := fieldAt m.data 14 8 == 0
    let s := s.setPort q { s.portOf q with echo := (fieldAt m.data 6 8, tRx), peerLocked := locked }
    if s.followed ≠ some q ∨ first = true then .next s
    else
      let delay : Int := (((tRx : Int) - echo) - (tTx - tPeer)) * 1000 / 2
      let offset : Int := ((tRx : Int) - tTx) * 1000 - delay - signedAt (s.rd F.PLK_CFG_ASYM_PS q) 16
      let s := (s.wr F.PLK_DELAY_DELAY_PS q (unsignedOf delay 32)).wr F.PLK_TIME_OFFSET_PS 0 (unsignedOf offset 32)
      let steps := s.net.stepped = false ∧ offset < -1000000
      let ns : Int := offset / 1000
      let s : State :=
        if steps then (s.wr F.CNT_TIMEBASE_TIME 0 (s.now + (-ns).toNat))
        else { s with net := { s.net with slew := -ns } }
      let s : State := if steps then { s with net := { s.net with stepped := true } } else s
      let x := s.portOf q
      let good := locked = true ∧ -2000 < offset ∧ offset < 2000
      let n := if good then x.goodTimes + 1 else 0
      let s := s.setPort q { x with goodTimes := min n 64 }
      if 64 ≤ n then
        let s : State := { s with net := { s.net with stepped := true } }
        .next ((s.wr F.PLK_TIME_LOCKED 0 1).wr F.PLK_TIME_HOPS 0 (hops + 1))
      else .next s

/-- TIME_UNLOCK (R548): neither the upstream port nor the backup is available. -/
def execTimeUnlock (s : State) : Host.Outcome State Fault Refusal :=
  let ok (f : Fld) : Bool := decide (s.rd f 0 < 12) && s.followable (s.rd f 0)
  if s.rd F.PLK_TIME_MASTER 0 = 1 ∨ s.rd F.PLK_TIME_LOCKED 0 = 0 ∨ ok F.PLK_TIME_UPSTREAM = true ∨ ok F.PLK_TIME_BACKUP = true then .next s
  else
    let s := ((s.wr F.PLK_TIME_LOCKED 0 0).wr F.PLK_TIME_HOPS 0 15).bump F.PLK_TIME_EVT_COUNT 0
    let s := loopN 16 (fun p s => if s.pdkState p = pdkFree then s else s.event (vfOf p) 0x43 0 0) s
    .next (s.event 0 0x43 0 0)

/-! ### Commands (R553 to R556) -/

/-- TDM_WRITE (R554): STRICT and the slots wait for slot 0 while the table moves, the allotments change at once. -/
def execTdmWrite (h : Hdr) (port flags transit : Nat) (slots creds : List Nat) (s : State) : Host.Outcome State Fault Refusal :=
  let withSlots := hasBit flags 1
  let withCreds := hasBit flags 2
  let newSlots := if withSlots then slots else (List.range 64).map (fun k => s.slotOwner port k)
  let newCreds := if withCreds then creds else (List.range 80).map (fun k => s.rd F.PLK_CRED_CRED port k)
  let sum := 64 + transit + 8 * newCreds.foldl (· + ·) 0
  let strict := b2n (hasBit flags 0)
  .next (s.checked h opTdmWrite
    (firstStatus [failIf (decide (11 < port) || decide (7 < flags) || decide (4032 < transit) || (withSlots && slots.length != 64) ||
        (withCreds && creds.length != 80) || creds.any (fun c => decide (255 < c))) 0x803,
      failIf (newSlots.any (fun o => !(decide (o ≤ 16) || o == 31)) || decide ((newSlots.filter (· == 16)).length < 2) ||
        decide (4096 < sum)) 0x802,
      failIf (decide (transit < s.portReserves port)) 0x820]) (fun s =>
    let old (k : Nat) : Nat := s.allotment port k
    let changed (p : Nat) : Bool :=
      (List.range 64).any (fun k => (s.slotOwner port k == p) != (nth newSlots k == p)) ||
      (List.range 5).any (fun v => s.rd F.PLK_CRED_CRED port (5 * p + v) != nth newCreds (5 * p + v)) ||
      (s.rd F.PLK_CFG_STRICT port != strict && (s.slotsOf port p != 0 || newSlots.contains p))
    let told := (List.range 16).filter changed
    let s := s.start h opTdmWrite (some (.tdmWrite h port flags transit slots creds)) [s.now]
    let olds := (List.range poolCount).map old
    let s := loopN 80 (fun k s => s.wr F.PLK_CRED_CRED port (nth newCreds k) k) s
    let s := s.wr F.PLK_TRANSIT_TRANSIT port transit
    let s := loopN poolCount (fun k s =>
      let a := nth olds k
      let b := s.allotment port k
      let x := s.portOf port
      if a < b then s.setPort port { x with rxCount := tset 0 x.rxCount [k] ((tget 0 x.rxCount [k] + b - a) % 4096) }
      else if b < a then s.setPort port { x with withheld := tset 0 x.withheld [k] (tget 0 x.withheld [k] + a - b) }
      else s) s
    let s := s.setPort port { s.portOf port with newSlots := some (newSlots, strict) }
    let s := if s.flitsOn port then s else s.applyTable port
    told.foldl (fun s p => s.tdiConfigChanged p) s))

/-- The frame of PORT_CONTROL (R555): field and state checks, then the action. -/
def State.portControl (s : State) (h : Hdr) (port : Nat) (bad : Bool) (wrong : Bool) (cmd : Instr) (go : State → State) :
    Host.Outcome State Fault Refusal :=
  .next (s.checked h opPortControl (firstStatus [failIf (decide (11 < port) || bad) 0x803, failIf wrong 0x801]) (fun s =>
    go (s.start h opPortControl (some cmd) [s.now])))

/-- The action is in place. -/
def State.portEnd (s : State) (h : Hdr) (q : Nat) : State := s.complete h 0 (s.portResult q (nth (s.progOf h) 0))

/-- PORT_UP: training; refused while the module is killed (R619); it completes at ACTIVE or FAILED. -/
def execPortUp (h : Hdr) (port : Nat) (s : State) : Host.Outcome State Fault Refusal :=
  let st := s.portState port
  s.portControl h port false ((st != portDown && st != portFailed) || s.rd F.RTP_DEV_KILLED 0 == 1) (.portUp h port) (fun s => s.startTraining port 0)

/-- PORT_DOWN_COMMAND: REASON 1. A FAILED port records nothing (R551). -/
def execPortDownCommand (h : Hdr) (port : Nat) (s : State) : Host.Outcome State Fault Refusal :=
  s.portControl h port false (s.portState port == portDown) (.portDownCommand h port) (fun s => (s.goDown port 1).portEnd h port)

/-- PORT_IDLE: the request goes out; it completes when the peer has accepted. -/
def execPortIdle (h : Hdr) (port : Nat) (s : State) : Host.Outcome State Fault Refusal :=
  s.portControl h port false (s.portState port != portActiveCode || (List.range 64).any (fun k => decide (s.slotOwner port k < 16)))
    (.portIdle h port) (fun s =>
      (s.post (some port) 16 7 none (vl7 0x43 (leBytes 1 1))).setPort port { s.portOf port with idle := 1 })

/-- PORT_REKEY: it completes when both directions have switched. -/
def execPortRekey (h : Hdr) (port : Nat) (s : State) : Host.Outcome State Fault Refusal :=
  s.portControl h port false (s.portState port != portActiveCode || s.rd F.PLK_STATE_ENCRYPTED port == 0) (.portRekey h port)
    (fun s => s.startRekey port)

/-- The module follows no port: it is not locked. -/
def State.timeFree (s : State) : State := (s.wr F.PLK_TIME_LOCKED 0 0).wr F.PLK_TIME_HOPS 0 15

/-- A port's time role (R555): one port is upstream and one is backup at most. -/
def State.setTimeRole (s : State) (q role : Nat) : State :=
  let off (f : Fld) (s : State) : State := if s.rd f 0 = q then s.wr f 0 15 else s
  let s := off F.PLK_TIME_UPSTREAM (off F.PLK_TIME_BACKUP s)
  let take (f : Fld) (s : State) : State :=
    (if s.rd f 0 < 12 then s.wr F.PLK_STATE_TIME_ROLE (s.rd f 0) 0 else s).wr f 0 q
  let s := if role = 1 then take F.PLK_TIME_UPSTREAM s else if role = 2 then take F.PLK_TIME_BACKUP s else s
  (s.wr F.PLK_STATE_TIME_ROLE q role).setPort q { s.portOf q with goodTimes := 0 }

/-- PORT_TIME (R546, R555): a port's role, or with port 0xFF the module's. A master is locked at 0 hops. -/
def execPortTime (h : Hdr) (port arg : Nat) (s : State) : Host.Outcome State Fault Refusal :=
  let ok := (port == 0xFF && (arg == 0 || arg == 3)) || (decide (port < 12) && decide (arg < 3))
  .next (s.checked h opPortControl (failIf (!ok) 0x803) (fun s =>
    let s := s.start h opPortControl (some (.portTime h port arg)) [s.now]
    if port = 0xFF then
      let s :=
        if arg = 3 then ((s.wr F.PLK_TIME_MASTER 0 1).wr F.PLK_TIME_LOCKED 0 1).wr F.PLK_TIME_HOPS 0 0
        else if s.rd F.PLK_TIME_MASTER 0 = 1 then s.timeFree.wr F.PLK_TIME_MASTER 0 0
        else s
      s.complete h 0 (s.usSince (nth (s.progOf h) 0) % 2 ^ 32 * 2 ^ 32)
    else (s.setTimeRole port arg).portEnd h port))

/-- PORT_RETIRE_LANE: a retrain in place ends before it completes. -/
def execPortRetireLane (h : Hdr) (port lane : Nat) (s : State) : Host.Outcome State Fault Refusal :=
  s.portControl h port (decide (8 < lane)) (s.portState port != portActiveCode) (.portRetireLane h port lane) (fun s =>
    let s := s.failLane port lane
    if s.portState port = portActiveCode then s.portEnd h port else s)

/-- PORT_ENCRYPT: ENCRYPT_REQUIRED from the next training on. -/
def execPortEncrypt (h : Hdr) (port arg : Nat) (s : State) : Host.Outcome State Fault Refusal :=
  s.portControl h port (decide (1 < arg)) false (.portEncrypt h port arg) (fun s =>
    (s.wr F.PLK_CFG_ENCRYPT_REQUIRED port arg).portEnd h port)

/-- PORT_WAKE: both ends are ACTIVE again. -/
def execPortWake (h : Hdr) (port : Nat) (s : State) : Host.Outcome State Fault Refusal :=
  s.portControl h port false (s.portState port != portIdleCode) (.portWake h port) (fun s =>
    (((s.setPort port { s.portOf port with goodAt := s.now }).setPortState port portActiveCode).portUpEvent port).portEnd h port)

/-- Range of a setting of LINK_MARGIN (R556). -/
def linkMarginRange (kind : Nat) : Int := if kind = 0 then 32 else 30

/-- LINK_MARGIN (R553, R556). -/
def execLinkMargin (h : Hdr) (port lane kind dwell lo hi out : Nat) (s : State) : Host.Outcome State Fault Refusal :=
  let a := signedAt lo 16
  let b := signedAt hi 16
  let r := linkMarginRange kind
  let n := (b - a + 1).toNat
  let usable := (s.portState port == portActiveCode && s.spareOf port == some lane) ||
    (s.portState port == portIdleCode && !s.laneFailed port lane)
  .next (s.checked h opLinkMargin
    (firstStatus [failIf (decide (11 < port) || decide (8 < lane) || decide (1 < kind) || decide (dwell < 20) || decide (40 < dwell) ||
        decide (b < a) || decide (a < -r) || decide (r < b) || out % 16 != 0) 0x803,
      failIf (ptrTag out != 1) 0x401, failIf (!usable) 0x390, s.ptrStatus h.fn.val 0 out (16 * n) true]) (fun s =>
      s.gate h opLinkMargin (.linkMargin h port lane kind dwell lo hi out) [⟨out, 16 * n, true⟩] (fun s => s)))

/-- LINK_MARGIN_COMPLETE (R556): one record a point. -/
def execLinkMarginComplete (h : Hdr) (points : List (Nat × Bool)) (s : State) : Host.Outcome State Fault Refusal :=
  match s.runningCmd h with
  | some (.linkMargin _ _ _ _ dwell lo hi out) =>
    let a := signedAt lo 16
    let n := (signedAt hi 16 - a + 1).toNat
    let pt (k : Nat) : Nat × Bool := (points[k]?).getD (0, false)
    let rec_ (k : Nat) : List Byte :=
      leBytes (unsignedOf (a + k) 16) 2 ++ leBytes 0 2 ++ leBytes (2 ^ (dwell - 20)) 4 ++ leBytes (min (pt k).1 0xFFFFFFFF) 4 ++
        leBytes (b2n (pt k).2) 4
    let good := (List.range n).filter (fun k => (pt k).1 == 0)
    let off (k : Option Nat) : Nat := (k.map (fun k => unsignedOf (a + k) 16)).getD 0x8000
    let s := s.ptrWrite h.fn.val 0 out ((List.range n).flatMap rec_)
    .next (s.complete h 0 (n * 2 ^ 16 + off good.head? * 2 ^ 32 + off good.getLast? * 2 ^ 48))
  | _ => .next s

/-- PLK_CFG_WRITE (R559): LANE_FAIL_LOG2 stores the nearer limit of 12 to 24. -/
def execPlkCfgWrite (port : Fin 12) (v : Nat) (s : State) : Host.Outcome State Fault Refusal :=
  .next ((s.wr F.PLK_CFG_ASYM_PS port.val (bitsAt v 16 16)).wr F.PLK_CFG_LANE_FAIL_LOG2 port.val (max 12 (min 24 (bitsAt v 0 5))))

/-! ### Handover (R533) -/

/-- Step 1: the queued flits and messages of a paddock go, on every port. Flits that have been sent stay. -/
def State.linkDiscard (s : State) (p : Nat) : State :=
  let mine (t : TxMsg) : Bool := t.owner == p
  let s := (s.net.tx.filter mine).foldl (fun s _ => s.bump F.PLK_P_DISCARD_COUNT p) s
  { s with net := { s.net with tx := s.net.tx.filter (fun t => !mine t) } }

/-- Step 5: the paddock owns no slot and has no allotment on any port. -/
def State.linkRelease (s : State) (p : Nat) : State :=
  loopN 12 (fun q s =>
    let s := loopN 64 (fun k s => if s.slotOwner q k = p then s.wr F.PLK_TDM_SLOT q 31 k else s) s
    let x := s.portOf q
    let s := s.setPort q { x with newSlots := x.newSlots.map (fun e => (e.1.map (fun o => if o = p then 31 else o), e.2)) }
    let s := loopN 5 (fun v s =>
      let k := poolOf (v + 1) p
      let a := s.allotment q k
      let s := s.wr F.PLK_CRED_CRED q 0 (5 * p + v)
      let x := s.portOf q
      if a = 0 then s else s.setPort q { x with withheld := tset 0 x.withheld [k] (tget 0 x.withheld [k] + a) }) s
    s.syncViews q) s

end Sys2Proof.Machine
end

