-- ==== Sys2Proof/Machine/Mower.lean ====
section
/-! DEFINITION. The Mower (R415 to R425), key rotation (R426 to R430) and the raw test mode (R431). -/

namespace Sys2Proof.Machine

def opKeyRotate : Nat := 0x70
def opMemRawWrite : Nat := 0x81
def opMemRawRead : Nat := 0x82

/-- Codes of ACTIVITY (R434). -/
def mowIdle : Nat := 0
def mowScrub : Nat := 1
def mowRekey : Nat := 2
def mowZeroise : Nat := 3
def mowCopy : Nat := 4
def State.mowActivity (s : State) (g a : Nat) : State := s.wr F.MOW_STAT_ACTIVITY g a

/-- Kinds of work that are pending and go first (R415): zeroising, a copy to a spare, a demand visit, a re-key pass. -/
def State.mowZeroing (s : State) (g : Nat) : Bool := tget false s.msys.zero [g]
def State.mowCopying (s : State) (g : Nat) : Bool := s.msys.marked.any (fun e => e.1.head? == some g)
def State.mowDemanded (s : State) (g : Nat) : Bool := tget [] s.msys.demand [g] != []
def State.mowRotating (s : State) (g : Nat) : Bool := s.rd F.MOW_STAT_ROTATING g = 1

/-- A Mower line is admitted from the die's reserve in the prompt and generate roles, from the paddock's untimed part in the cache role
(R418, R127), and from the paddock's own share, which nothing else uses, in a handover (R34). -/
def State.mowLine (s : State) (g weight : Nat) (tag : List Nat) (go : State → State) : State :=
  if s.role g = 2 ∧ s.tenantUse g = true then s.untimed g srcMower weight (4 :: tag) go
  else if s.pdkState g = pdkHandover then go s
  else s.reserve (rsvMower g) weight go

/-- What the Mower does about an error of a line (R416, R419): `still` when its second read is uncorrectable too. -/
def State.mowErrors (s : State) (line : Nat) (errs : List SecErr) (still : Nat → Bool) : State :=
  let g := groupOf line
  errs.foldl (fun s e =>
    let a := line / 512 * 512 + 64 * (e.sector % 8)
    if e.uncorr && still e.sector then
      let s := ((s.poisonSector a).bump F.MOW_UE_COUNT g).mowErr g 1 srcMower e.syndrome a
      ((s.memUe g 1 a).markLine g (lineOf line)).deviceError 1 false (channelOf line) a 0x531 g
    else if e.uncorr then s
    else ((s.bump F.MOW_CE_SCRUB_COUNT g).countCe g (lineOf line)).deviceError 1 true (channelOf line) a 0 g) s

/-- MOWER_DEMAND_VISIT (R413, R419, R421): the oldest line of the demand queue. -/
def execMowerDemandVisit (g : Fin 16) (errs : List SecErr) (second : List Nat) (s : State) : Host.Outcome State Fault Refusal :=
  match tget [] s.msys.demand [g.val] with
  | [] => .next s
  | (l, _) :: rest =>
    if s.mowZeroing g.val = true ∨ s.mowCopying g.val = true then .next s
    else
      .next (s.mowLine g.val 40 [0, g.val, l] (fun s =>
        let s : State := { s with msys := { s.msys with demand := tset [] s.msys.demand [g.val] rest } }
        (s.mowActivity g.val mowScrub).mowErrors (g.val * groupBytes + 512 * l) errs (fun k => second.contains k)))

/-- A full pass ends: it is counted with its duration in ms (R434). -/
def State.passDone (s : State) (g : Nat) : State :=
  let s := s.satAdd F.MOW_PASS_PASSES g
  let s := s.wr F.MOW_PASS_LAST_PASS_MS g (min ((s.now - tget 0 s.msys.passStart [g]) / 1000000) 0xFFFFFFFF)
  { s with msys := { s.msys with passStart := tset 0 s.msys.passStart [g] s.now } }

/-- SCRUB_LINE (R416): the next line of each of the group's sixteen channels. -/
def execScrubLine (g : Fin 16) (errs : List (Fin 16 × SecErr)) (second : List (Nat × Nat)) (s : State) :
    Host.Outcome State Fault Refusal :=
  if s.rd F.MOW_CFG_SCRUB_INTERVAL g.val = 0 ∨ s.mowZeroing g.val = true ∨ s.mowCopying g.val = true ∨ s.mowDemanded g.val = true ∨
      s.mowRotating g.val = true then .next s
  else
    let n := s.rd F.MOW_STAT_SCRUB_LINE g.val
    .next (s.mowLine g.val 640 [1, g.val, n] (fun s =>
      let s := s.mowActivity g.val mowScrub
      let s := loopN 16 (fun c s =>
        let line := dpaOfChannelLine g.val c n
        s.mowErrors line ((errs.filter (fun e => e.1.val == c)).map (fun e => e.2)) (fun k => second.contains (c, k))) s
      let s := s.bump F.MOW_LINES_COUNT g.val 0 16
      if n + 1 = channelLines then (s.wr F.MOW_STAT_SCRUB_LINE g.val 0).passDone g.val
      else s.wr F.MOW_STAT_SCRUB_LINE g.val (n + 1)))

/-! ### Patches (R420 to R423) -/

/-- Entry `k` of channel `ch`'s patch table: its index, whether it is free, and whether it stands in for a channel line. -/
def patchIdx (ch k : Nat) : Nat := 16 * ch + k
def State.patchFree (s : State) (ch k : Nat) : Bool :=
  s.rd F.MOW_PATCH_VALID 0 (patchIdx ch k) = 0 && s.rd F.MOW_PATCH_SPARE_FAILED 0 (patchIdx ch k) = 0
def State.patchOf (s : State) (ch line : Nat) : Option Nat :=
  (List.range 16).find? (fun k => s.rd F.MOW_PATCH_VALID 0 (patchIdx ch k) = 1 && s.rd F.MOW_PATCH_LINE 0 (patchIdx ch k) = line)

/-- The line joins the repair list in the module's flash (R422). -/
def State.addRepair (s : State) (g l : Nat) : State :=
  if s.msys.repair.contains (g, l) then s
  else
    let s : State := { s with msys := { s.msys with repair := s.msys.repair ++ [(g, l)] } }
    s.satAdd F.MOW_PPR_LISTED 0

/-- LINE_PATCH (R422, R423): the Mower copies the group's first marked line to a free spare; sectors that do not decode become
poison. A spare that failed goes out of use. With no free entry the line stays in service and its channel fails (R661). -/
def execLinePatch (g : Fin 16) (bad : List Nat) (s : State) : Host.Outcome State Fault Refusal :=
  match (s.msys.marked.find? (fun e => e.1.head? == some g.val)).bind (fun e => e.1[1]?) with
  | none => .next s
  | some l =>
    if s.mowZeroing g.val = true then .next s
    else
      let dpa := g.val * groupBytes + 512 * l
      let ch := channelOf dpa
      let cl := channelLineOf dpa
      let s := s.mowActivity g.val mowCopy
      .next (s.mowLine g.val 80 [2, g.val, l] (fun s =>
        let s : State := { s with msys := { s.msys with
          marked := tset false s.msys.marked [g.val, l] false
          ces := tset 0 s.msys.ces [g.val, l] 0 } }
        let old := s.patchOf ch cl
        match (List.range 16).find? (fun k => s.patchFree ch k) with
        | none =>
          let s := (s.mowErr g.val 3 srcMower 0 dpa).event 0 0x07 0 (detailAt 0x10 ch + detailAt 0x14 l) g.val
          (s.addRepair g.val l).channelFailed ch
        | some k =>
          let s := match old with
            | some j =>
              let s := s.wr F.MOW_PATCH_VALID 0 0 (patchIdx ch j)
              (s.wr F.MOW_PATCH_SPARE_FAILED 0 1 (patchIdx ch j)).mowErr g.val 4 srcMower 0 dpa
            | none => s
          let s := bad.foldl (fun s b => s.poisonSector (dpa + 64 * (b % 8))) s
          let s := (s.wr F.MOW_PATCH_VALID 0 1 (patchIdx ch k)).wr F.MOW_PATCH_LINE 0 cl (patchIdx ch k)
          ((s.wr F.MOW_PATCH_CE 0 0 (patchIdx ch k)).bump F.MOW_PATCHED_COUNT g.val).addRepair g.val l))

/-! ### Key rotation (R426 to R430) -/

/-- The KEYID field of a slot. -/
def keyIdFld (slot : Nat) : Fld := if slot = 0 then F.MOW_KEYID_KEYID0 else F.MOW_KEYID_KEYID1

/-- A fresh key in a slot of group `g` (R427). -/
def State.newKey (s : State) (g slot : Nat) : State :=
  let n := tget 0 s.msys.keyIds [g] + 1
  let s : State := { s with msys := { s.msys with keyIds := tset 0 s.msys.keyIds [g] n } }
  s.wr (keyIdFld slot) g n

/-- KEY_ROTATE (R428 step 1, R430, R432). -/
def execKeyRotate (h : Hdr) (s : State) : Host.Outcome State Fault Refusal :=
  let p := paddockOf h
  let st := s.pdkState p
  .next (s.checked h opKeyRotate
    (firstStatus [failIf (h.fn.val == 0 && s.tdiLocked p) 0x720, failIf (st = pdkFree || st = pdkHandover || st = pdkOffline) 0x711, failIf (s.mowRotating p) 0x710]) (fun s =>
    let s := s.start h opKeyRotate (some (.keyRotate h)) [s.now, p]
    let s := s.newKey p (1 - s.rd F.MOW_STAT_ACTIVE_SLOT p)
    let s : State := { s with msys := { s.msys with passStart := tset 0 s.msys.passStart [p] s.now } }
    ((s.wr F.MOW_STAT_ROTATING p 1).wr F.MOW_STAT_P p 0).mowActivity p mowRekey))

/-- REKEY_LINE (R428 step 2, R429): the line at P is under the new key afterwards. -/
def execRekeyLine (g : Fin 16) (errs : List SecErr) (second : List Nat) (s : State) : Host.Outcome State Fault Refusal :=
  let l := s.rd F.MOW_STAT_P g.val
  if s.mowRotating g.val = false ∨ groupLines ≤ l ∨ s.mowZeroing g.val = true ∨ s.mowCopying g.val = true ∨
      s.mowDemanded g.val = true then .next s
  else
    .next (s.mowLine g.val 80 [3, g.val, l] (fun s =>
      let s := (s.mowActivity g.val mowRekey).mowErrors (g.val * groupBytes + 512 * l) errs (fun k => second.contains k)
      (s.bump F.MOW_LINES_COUNT g.val).wr F.MOW_STAT_P g.val (l + 1)))

/-- REKEY_COMPLETE (R428 steps 3 and 4): the active slot changes, the old key is destroyed, the scrub pass restarts. -/
def execRekeyComplete (g : Fin 16) (s : State) : Host.Outcome State Fault Refusal :=
  if s.mowRotating g.val = false ∨ s.rd F.MOW_STAT_P g.val ≠ groupLines then .next s
  else
    let old := s.rd F.MOW_STAT_ACTIVE_SLOT g.val
    let id := s.rd (keyIdFld (1 - old)) g.val
    let s := (s.wr F.MOW_STAT_ACTIVE_SLOT g.val (1 - old)).wr (keyIdFld old) g.val 0
    let s := ((s.wr F.MOW_STAT_ROTATING g.val 0).wr F.MOW_STAT_P g.val 0).bump F.MOW_ROTATIONS_COUNT g.val
    let s := ((s.passDone g.val).wr F.MOW_STAT_SCRUB_LINE g.val 0).mowActivity g.val mowScrub
    match s.taken.find? (fun t => t.op == opKeyRotate && nth t.prog 1 == g.val) with
    | some t => .next (s.complete t.h 0 (id * 2 ^ 16 + s.usSince (nth t.prog 0) % 2 ^ 32 * 2 ^ 64))
    | none => .next s

/-! ### Raw test mode (R431) -/

def rawStatus (s : State) (ch tline sector : Nat) : Nat :=
  firstStatus [failIf (decide (255 < ch) || decide (63 < tline) || decide (7 < sector)) 0x291,
    failIf (s.tenantUse (ch / 16)) 0x390, failIf (s.rd F.HBM_CH_STAT_PWR ch != 0) 0x312]

/-- MEM_RAW_WRITE (R431): data and check bits are stored as given. -/
def execMemRawWrite (h : Hdr) (ch tline sector check : Nat) (data : List Byte) (s : State) : Host.Outcome State Fault Refusal :=
  .next (s.checked h opMemRawWrite (rawStatus s ch tline sector) (fun s =>
    let bs := (data ++ List.replicate 64 0).take 64
    let s : State := { s with msys := { s.msys with
      raw := tset none s.msys.raw [ch, tline, sector] (some (bs, check % 2 ^ 32)) } }
    (s.start h opMemRawWrite (some (.memRawWrite h ch tline sector check data))).complete h 0))

/-- A stored test sector; the bits of one that nothing has written by MEM_RAW_WRITE are free values: ciphertext (R426). -/
def State.rawSector (s : State) (ch tline sector : Nat) : List Byte × Nat :=
  (tget none s.msys.raw [ch, tline, sector]).getD
    (leBytes (Config.freeNat (2 * s.free)) 64, Config.freeNat (2 * s.free + 1) % 2 ^ 32)

/-- The record of MEM_RAW_READ. -/
def rawRecord (data : List Byte) (check : Nat) : List Byte :=
  let (s0, s1) := syndromes data check
  let (o, j) := sectorOutcome data check
  data ++ leBytes check 4 ++ leBytes (s0 + 65536 * s1) 4 ++ leBytes o 1 ++ leBytes j 1 ++ leBytes 0 6 ++ sectorDecoded data check

/-- MEM_RAW_READ (R431): the record goes to host memory; nothing is counted. -/
def execMemRawRead (h : Hdr) (ch tline sector out : Nat) (s : State) : Host.Outcome State Fault Refusal :=
  .next (s.checked h opMemRawRead
    (firstStatus [rawStatus s ch tline sector, failIf (out % 16 != 0) 0x291, failIf (ptrTag out != 1) 0x401,
      s.ptrStatus h.fn.val 0 out 144 true]) (fun s =>
    s.gate h opMemRawRead (.memRawRead h ch tline sector out) [⟨out, 144, true⟩] (fun s =>
      let x := s.rawSector ch tline sector
      let o := sectorOutcome x.1 x.2
      ((s.tick).ptrWrite h.fn.val 0 out (rawRecord x.1 x.2)).complete h 0 (o.1 * 2 ^ 16 + o.2 * 2 ^ 24))))

/-! ### Registers -/

/-- A write of 1 to MOW_ERR0.VALID re-arms the record (R434). -/
def execMowErr0ValidClear (p : Fin 16) (s : State) : Host.Outcome State Fault Refusal := .next (s.wr F.MOW_ERR0_VALID p.val 0)

/-- A PF write of MOW_CFG; PATCH_CE 0 stores 1 (R434). -/
def execMowCfgWrite (g : Fin 16) (v : Nat) (s : State) : Host.Outcome State Fault Refusal :=
  .next ((s.wr F.MOW_CFG_SCRUB_INTERVAL g.val v).wr F.MOW_CFG_PATCH_CE g.val (max (bitsAt v 32 4) 1))

end Sys2Proof.Machine
end

