-- ==== Sys2Proof/Machine/Handover.lean ====
section
/-! DEFINITION. Paddocks: assignment, roles, release and handover (chapter 01), with the substitution of spares (R60 to R64, R214, R250,
R663, R664) and the power of the shelf banks. -/

namespace Sys2Proof.Machine

def opPaddockAssign : Nat := 0x04
def opPaddockConfig : Nat := 0x05
def opPaddockRelease : Nat := 0x06

/-! ### Entering HANDOVER (R31, R32, step 1 of R33) -/

def State.handOf (s : State) (p : Nat) : Option Hand := tget none s.hand [p]
def State.setHand (s : State) (p : Nat) (x : Option Hand) : State := { s with hand := tset none s.hand [p] x }

/-- Whether a core number belongs to paddock `p`. -/
def coreOf (p c : Nat) : Bool := c / 8 == p
def keyOf (p : Nat) (k : Key) : Bool := k.head? == some p
def coreKey (p : Nat) (k : Key) : Bool := k.head?.any (coreOf p)

/-- The schedules, streams, operations and landing buffers of a paddock's cores end (R33, R682). -/
def State.stopCores (s : State) (p : Nat) : State :=
  let x := s.sched
  { s with sched := { x with
      images := tclear (keyOf p) x.images
      runs := tclear (keyOf p) x.runs
      streams := tclear (coreKey p) x.streams
      heads := tclear (coreKey p) x.heads
      tails := tclear (coreKey p) x.tails
      busy := tclear (coreKey p) x.busy
      slips := tclear (coreKey p) x.slips
      waits := tclear (coreKey p) x.waits
      opened := tclear (coreKey p) x.opened
      shift := tclear (coreKey p) x.shift
      owed := tclear (coreKey p) x.owed
      ends := tclear (coreKey p) x.ends
      commits := tclear (coreKey p) x.commits
      acts := tclear (coreKey p) x.acts
      ops := x.ops.filter (fun o => !coreOf p o.core)
      arrivals := x.arrivals.filter (fun a => !coreOf p a.core)
      arriveAt := tclear (coreKey p) x.arriveAt
      appBufs := tclear (coreKey p) x.appBufs
      steps := x.steps.filter (fun y => y.h.fn.val != vfOf p) } }

/-- The walks, moves, page-server requests and requests for lines of a paddock end; transactions that have issued drain. -/
def State.stopWalks (s : State) (p : Nat) : State :=
  let k := s.kv
  { s with
    kv := { k with
      rows := k.rows.filter (fun r => r.pdk != p)
      moves := k.moves.filter (fun m => m.pdk != p)
      edits := tclear (keyOf p) k.edits
      demoting := tclear (keyOf p) k.demoting
      held := k.held.filter (fun x => x.1.fn.val != vfOf p)
      places := k.places.filter (fun x => x.1.fn.val != vfOf p) }
    net := { s.net with
      lines := s.net.lines.filter (fun l => l.pdk != p || l.issued)
      jobs := s.net.jobs.filter (fun j => j.pdk != p)
      mirror := s.net.mirror.filter (fun x => x.1 != p) }
    bud := { s.bud with
      held := tclear (keyOf p) s.bud.held
      admitted := tclear (keyOf p) s.bud.admitted } }

/-- Commands that name a paddock which enters HANDOVER (R32, R496, R645): its VF's own end without a record, as does a HALT_DUMP; a
stop command of PF 0 and a role change complete with 0x0301, a key rotation with 0x0711. -/
def State.endCommands (s : State) (p : Nat) : State :=
  let named := s.taken.filter (fun t => t.h.fn.val == vfOf p || (t.h.fn.val == 0 && t.h.pdk == p))
  named.foldl (fun s t =>
    if t.h.fn.val ≠ 0 ∨ t.h.cid = 4096 ∨ t.op = 0x51 then s.dropTaken t.h
    else if t.op = opQuiesce ∨ t.op = opAbort ∨ t.op = opPaddockConfig then s.complete t.h 0x301
    else if t.op = opKeyRotate then s.complete t.h 0x711
    else s) s

/-- A paddock enters HANDOVER (R27, R31): one that is in HANDOVER already starts nothing new, but a release makes it end in FREE; a FREE
or OFFLINE one starts only when a device reset forces it. -/
def State.startHandover (s : State) (p : Nat) (toFree flr force : Bool) : State :=
  let st := s.pdkState p
  if st = pdkHandover then
    let s := s.wr F.RTP_TDI_STATE_NOT_READY (vfOf p) 1
    match s.handOf p with
    | some x => s.setHand p (some { x with toFree := x.toFree || toFree })
    | none => s.setHand p (some ⟨toFree, 1, s.now, flr, false, false⟩)
  else if (st = pdkFree ∨ st = pdkOffline) ∧ force = false then s
  else
    let s := (s.wr F.PDK_STATE_STATE p pdkHandover).setHand p (some ⟨toFree, 1, s.now, flr, false, false⟩)
    let s := (s.wr F.RTP_TDI_STATE_NOT_READY (vfOf p) 1).tdiError (vfOf p) 2
    let s := (((s.endCommands p).stopCores p).stopWalks p).linkDiscard p
    let s := ((s.wr F.MOW_STAT_ROTATING p 0).wr F.MOW_STAT_P p 0).mowActivity p mowIdle
    { s with
      msys := { s.msys with demand := tclear (keyOf p) s.msys.demand }
      dumps := tset none s.dumps [p] none }

/-! ### Steps 1 to 3 -/

/-- Whether a handover may run: the device is not in the fatal state, and power-on has reached stage 10 (R684, R686). -/
def State.handoverRuns (s : State) : Bool :=
  s.rd F.HIF_FATAL_FATAL 0 = 0 && s.pins.pwrgd && (s.rd F.RST_STATUS_STAGE 0 = 0 || s.rd F.RST_STATUS_STAGE 0 = 10)

/-- Both memory key slots and the far key are destroyed (R33, R439, R669). -/
def State.destroyKeys (s : State) (p : Nat) : State :=
  let s := (s.wr F.MOW_KEYID_KEYID0 p 0).wr F.MOW_KEYID_KEYID1 p 0
  { s with msys := { s.msys with farKey := tset 0 s.msys.farKey [p] (tget 0 s.msys.farKey [p] + 1) } }

/-- HANDOVER_DRAIN_DONE (R33, R402, R682): what is left of the paddock's transactions is discarded, step 2 gives fresh keys, and steps
3 and 4 start on reset cores and powered channels. -/
def execHandoverDrainDone (p : Fin 16) (s : State) : Host.Outcome State Fault Refusal :=
  match s.handOf p.val with
  | none => .next s
  | some x =>
    if s.pdkState p.val ≠ pdkHandover ∨ x.step ≠ 1 ∨ s.handoverRuns = false then .next s
    else
      let s : State := { s with net := { s.net with lines := s.net.lines.filter (fun l => l.pdk != p.val) } }
      let s := ((s.destroyKeys p.val).newKey p.val 0).wr F.MOW_STAT_ACTIVE_SLOT p.val 0
      let cs := (List.range 16).filter (fun c => s.rd F.HBM_CH_STAT_PWR (16 * p.val + c) != 0)
      let s := cs.foldl (fun s c => s.wr F.HBM_CH_STAT_TRAINED (16 * p.val + c) 1) s
      let s := (s.setChannels p.val cs 0).bump F.RST_CORE_COUNT 0 0 8
      let s := s.mowActivity p.val mowZeroise
      let s : State := { s with msys := { s.msys with zero := tset false s.msys.zero [p.val] true } }
      .next (s.setHand p.val (some { x with step := 3 }))

/-! ### Step 3: tests and repairs -/

/-- A physical core is marked failed (R61, R660). -/
def State.markCore (s : State) (c : Nat) : State := { s with rel := { s.rel with badCores := tset false s.rel.badCores [c] true } }

/-- Value of a spare row that has failed itself; a spare in use holds the bank row that it stands in for plus one (R60). -/
def spareBad : Nat := 10000
def State.spareAt (s : State) (c b k : Nat) : Nat := tget 0 s.shelf.spares [c, b, k]
def State.setSpare (s : State) (c b k v : Nat) : State :=
  { s with shelf := { s.shelf with spares := tset 0 s.shelf.spares [c, b, k] v } }

/-- A bank row gets the next spare of its bank; a ninth one marks the core failed (R60, R61). -/
def State.useSpare (s : State) (c b br : Nat) : State :=
  match (List.range 8).find? (fun k => s.spareAt c b k == 0) with
  | some k => s.setSpare c b k (br + 1)
  | none => s.markCore c

/-- The spare that stands in for a bank row. -/
def State.spareOfRow (s : State) (c b br : Nat) : Option Nat := (List.range 8).find? (fun k => s.spareAt c b k == br + 1)

/-- The repair of one bank row of a physical core: of a row of the bank, or of a spare (R60, R62). -/
def State.repairRow (s : State) (c b br : Nat) : State :=
  if br < 768 then
    match s.spareOfRow c b br with
    | some k => (s.setSpare c b k spareBad).useSpare c b br
    | none => s.useSpare c b br
  else
    let v := s.spareAt c b (br - 768)
    let s := s.setSpare c b (br - 768) spareBad
    if v = 0 ∨ v = spareBad then s else s.useSpare c b (v - 1)

/-- The array test (R214): one failing column goes to the spare column; a second one, or one with the spare in use or failing, marks
the core failed. -/
def State.repairColumns (s : State) (c : Nat) (cols : List Nat) : State :=
  let mapped := tget 0 s.rel.cols [c]
  let bad := cols.eraseDups.filter (fun x => x + 1 != mapped)
  match bad with
  | [] => s
  | [x] =>
    if mapped = 0 then { s with rel := { s.rel with cols := tset 0 s.rel.cols [c] (x + 1) } } else s.markCore c
  | _ => s.markCore c

/-- Value of a spare lane that has failed; a spare in use holds its lane plus one (R250). -/
def laneBad : Nat := 200
def State.lanesOf (s : State) (c : Nat) : List Nat := ((tget [] s.rel.lanes [c]) ++ List.replicate 4 0).take 4
def State.setLanes (s : State) (c : Nat) (l : List Nat) : State :=
  { s with rel := { s.rel with lanes := tset [] s.rel.lanes [c] l } }

/-- A lane in service gets the next spare lane; a fifth one marks the core failed (R250). -/
def State.useLane (s : State) (c lane : Nat) : State :=
  let l := s.lanesOf c
  match (List.range 4).find? (fun k => nth l k == 0) with
  | some k => s.setLanes c (l.set k (lane + 1))
  | none => s.markCore c

/-- The lane test (R250), in ascending lane order; lane 128 + k is spare k. -/
def State.repairLanes (s : State) (c : Nat) (bad : List Nat) : State :=
  let spares := (List.range 4).filter (fun k => bad.contains (128 + k))
  let s := spares.foldl (fun s k =>
    let l := s.lanesOf c
    let v := nth l k
    let s := s.setLanes c (l.set k laneBad)
    if v = 0 ∨ v = laneBad then s else s.useLane c (v - 1)) s
  (List.range 128).foldl (fun s x =>
    if bad.contains x && !(s.lanesOf c).contains (x + 1) then s.useLane c x else s) s

def Found.coreOf : Found → Option Nat
  | .row c _ _ => some c.val
  | .column c _ => some c.val
  | .lane c _ => some c.val
  | .core c => some c.val
  | _ => none

/-- The tests of R62, R214 and R250 on a physical core: repairs, or the mark of a failed core. -/
def State.testCore (s : State) (c : Nat) (found : List Found) : State :=
  let mine := found.filter (fun f => Found.coreOf f == some c)
  let s := mine.foldl (fun s f => match f with
    | .row _ b br => s.repairRow c b.val br.val
    | .core _ => s.markCore c
    | _ => s) s
  let s := s.repairColumns c (mine.filterMap (fun f => match f with
    | .column _ x => some x.val
    | _ => none))
  s.repairLanes c (mine.filterMap (fun f => match f with
    | .lane _ x => some x.val
    | _ => none))

/-- The registers of a logical core show the maps of its physical core (R60, R214, R250). -/
def State.showMaps (s : State) (c : Nat) : State :=
  let ph := s.phys c
  let used (b : Nat) : Nat := ((List.range 8).filter (fun k => decide (0 < s.spareAt ph b k) && decide (s.spareAt ph b k ≤ 768))).length
  let s := loopN 16 (fun b s => (s.wr F.DRW_SPARE_LO_USED c (used b) b).wr F.DRW_SPARE_HI_USED c (used (16 + b)) b) s
  let m := tget 0 s.rel.cols [ph]
  let s := s.wr F.MXE_COLMAP_SPARE_FOR c (if m = 0 ∨ m = 130 then 0xFF else m - 1)
  loopN 4 (fun k s =>
    let v := nth (s.lanesOf ph) k
    let on := decide (0 < v) && decide (v ≤ 128)
    (s.wr F.VEC_LANEMAP_VALID c (b2n on) k).wr F.VEC_LANEMAP_LANE c (if on then v - 1 else 0) k) s

/-- Zeros in a core's shelf and working stores, and no poison (R62, R250). -/
def State.zeroCore (s : State) (c : Nat) : State :=
  { s with mem := { s.mem with
      shelf := mzero s.mem.shelf (shelfAddr c 0) 0x1000000
      ws := mzero s.mem.ws (wsAddr c 0) 0x40000
      shelfPoison := tclear (keyOf c) s.mem.shelfPoison
      wsPoison := tclear (keyOf c) s.mem.wsPoison } }

/-- Step 3 on the paddock's eight cores: pending repairs, tests, repairs, zeros. -/
def State.stepThree (s : State) (p : Nat) (found : List Found) : State :=
  let pend := (s.shelf.marked.filter (fun e => e.2)).filterMap (fun e => match e.1 with
    | [c, b, br] => if coreOf p c then some (c, b, br) else none
    | _ => none)
  let s := pend.foldl (fun s x => s.repairRow (s.phys x.1) x.2.1 x.2.2) s
  loopN 8 (fun i s => (s.testCore (s.phys (8 * p + i)) found).zeroCore (8 * p + i)) s

/-! ### Step 5: clearing -/

/-- Whether an instance of a register block belongs to paddock `p`. -/
def Fld.ofPdk (f : Fld) (i p : Nat) : Bool :=
  match f.blk with
  | .PDK | .SCHP | .BUDP | .MXEP | .CTX | .TBLP | .HBMG | .MOWG | .FARP | .PLKP | .RTEP | .CNTP | .SWD => i == p
  | .DRW | .SCHC | .BUDC | .SYN | .MXEC | .VEC | .ATN | .TBLC => coreOf p i
  | .CMQP | .CMQF | .HIFP => i == vfOf p
  | _ => false

/-- Fields that a function's own block holds and its reset clears. -/
def Fld.atHandover (f : Fld) : Bool := f.lvl == .handover || f.lvl == .schedLoad

/-- The host side of a function: windows, translation store, MSI-X state, latches (R33, R463, R681). -/
def State.clearFn (s : State) (fn : Nat) : State :=
  let x := s.host
  { s with host := { x with
      windows := tclear (keyOf fn) x.windows
      xents := x.xents.filter (fun e => e.fn != fn)
      masked := tclear (keyOf fn) x.masked
      msgPending := tclear (keyOf fn) x.msgPending
      msixTable := tclear (keyOf fn) x.msixTable
      readLatch := tclear (keyOf fn) x.readLatch
      lostEvent := tclear (keyOf fn) x.lostEvent
      freshEnable := tclear (keyOf fn) x.freshEnable
      fenced := tclear (keyOf fn) x.fenced } }

/-- Step 5 (R33): what the paddock and its function hold goes. A VF FLR keeps the far extents, which change only at assignment (R30,
R437). -/
def State.stepFive (s : State) (p : Nat) (toFree : Bool) : State :=
  let s := s.resetFlds (fun f i _ => f.atHandover && f.ofPdk i p && (toFree || f.blk != .FARP || f.off != 0))
  let s := (s.clearFn (vfOf p)).linkRelease p
  let sh := s.shelf
  let s : State := { s with
    shelf := { sh with
      slots := tclear (coreKey p) sh.slots
      tracker := tclear (coreKey p) sh.tracker
      marked := tclear (coreKey p) sh.marked
      patrols := tclear (coreKey p) sh.patrols
      tray := mzero sh.tray (8 * p * 0x40000) (8 * 0x40000)
      trayAt := tclear (coreKey p) sh.trayAt
      used := tclear (coreKey p) sh.used
      landed := tclear (coreKey p) sh.landed }
    bud := { s.bud with
      uwin := tclear (keyOf p) s.bud.uwin
      last := tclear (keyOf p) s.bud.last
      stalled := tclear (keyOf p) s.bud.stalled
      charges := tclear (fun k => (k[1]?).any (coreOf p)) s.bud.charges }
    net := { s.net with
      early := tclear (coreKey p) s.net.early
      lastSrc := tclear (keyOf p) s.net.lastSrc
      mirrorSent := tclear (keyOf p) s.net.mirrorSent
      beatAt := tclear (keyOf p) s.net.beatAt }
    kv := { s.kv with
      limbo := s.kv.limbo.filter (fun x => x.pdk != p)
      nodes := tclear (keyOf p) s.kv.nodes
      cache := tclear (keyOf p) s.kv.cache }
    sched := { s.sched with gated := tclear (coreKey p) s.sched.gated }
    dumpCfgs := tset none s.dumpCfgs [p] none
    dumps := tset none s.dumps [p] none
    rotary := tclear (keyOf p) s.rotary
    tables := tclear (keyOf p) s.tables }
  let s := (s.zeroHbm (dpaOf p localEnd) 0xC00000).syncGroup p
  (s.wr F.PDK_STATE_DUMPED p 0).wr F.PDK_STATE_SPARE_SHORT p 0

/-! ### Step 5: spares (R663, R664) -/

/-- Physical cores that the paddocks' logical cores map to. -/
def State.mappedCores (s : State) : List Nat := (List.range 128).map (fun c => s.phys c)

/-- Healthy physical cores of a die that no paddock maps, in ascending order, and those of them that no test holds. -/
def State.freeCores (s : State) (die : Nat) : List Nat :=
  let used := s.mappedCores
  ((List.range 72).map (fun k => 72 * die + k)).filter (fun c => !used.contains c && !(tget false s.rel.badCores [c]))

/-- The command processor that serves a paddock, and the healthy spare ones. -/
def State.procOf (s : State) (p : Nat) : Nat :=
  let x := tget 0 s.rel.procs [p]
  if x = 0 then p else x - 1
def State.freeProcs (s : State) : List Nat :=
  ([16, 17] : List Nat).filter (fun k => !(tget false s.rel.badProcs [k]) && !(List.range 16).any (fun p => s.procOf p == k))

/-- HIF_SPARES follows (R664). -/
def State.syncSpares (s : State) : State :=
  let s := s.wr F.HIF_SPARES_CORES_D0 0 (min 8 (s.freeCores 0).length)
  let s := s.wr F.HIF_SPARES_CORES_D1 0 (min 8 (s.freeCores 1).length)
  s.wr F.HIF_SPARES_CPS 0 (s.freeProcs).length

def State.spareEvent (s : State) (p kind old new : Nat) : State :=
  s.event 0 0x61 0 (detailAt 0x10 kind + detailAt 0x12 old + detailAt 0x14 new) p

/-- A failed core of the paddock is replaced (R664): answers the state and whether none was left. -/
def State.replaceCore (s : State) (c : Nat) : State × Bool :=
  let old := s.phys c
  if tget false s.rel.badCores [old] then
    match (s.freeCores (pdkDie (corePdk c))).find? (fun k => !(s.underTest 0 k)) with
    | some k =>
      let s := (s.wr (physFld (coreOff c)) (corePdk c) k).bump F.RST_CORE_COUNT 0
      (s.spareEvent (corePdk c) 0 old k, false)
    | none => (s, true)
  else (s, false)

/-- A failed command processor is replaced (R662, R664). -/
def State.replaceProc (s : State) (p : Nat) : State × Bool :=
  let old := s.procOf p
  if tget false s.rel.badProcs [old] then
    match (s.freeProcs).find? (fun k => !(s.underTest 1 k)) with
    | some k =>
      let s : State := { s with rel := { s.rel with procs := tset 0 s.rel.procs [p] (k + 1) } }
      (s.spareEvent p 1 old k, false)
    | none => (s, true)
  else (s, false)

/-- The spares of step 5, with PDK_CORES, PDK_INFO and the maps of the cores: answers the state and whether a spare is missing. -/
def State.substitute (s : State) (p : Nat) : State × Bool :=
  let r := (List.range 8).foldl (fun (r : State × Bool) i =>
    let x := r.1.replaceCore (8 * p + i)
    (x.1, r.2 || x.2)) (s, false)
  let x := r.1.replaceProc p
  let s := (x.1.wr F.PDK_INFO_CP_ID p (x.1.procOf p)).syncSpares
  (loopN 8 (fun i s => s.showMaps (8 * p + i)) s, r.2 || x.2)

/-! ### Step 6 -/

/-- Drawer 63 (R21) and the banks' power as the role has them; the cache role powers the
banks down (R25, R63, R65). -/
def State.setDrawer63 (s : State) (p role : Nat) : State :=
  loopN 8 (fun i s =>
    let c := 8 * p + i
    let s := s.resetDrawer c 63
    if role = 2 then
      let s := (s.wr F.DRW_CFG_EN c 0 63).wr F.DRW_CFG_KEEP c 0 63
      ((s.wr F.DRW_CFG_SIZE c 0 63).wr F.DRW_CFG_BASE c 0 63).wr F.DRW_SHELF_CFG_PWR c 2
    else
      let s := (s.wr F.DRW_CFG_EN c 1 63).wr F.DRW_CFG_KEEP c 1 63
      let s := s.wr F.DRW_CFG_SIZE c (24576 - firstRow63 role) 63
      (s.wr F.DRW_CFG_BASE c (firstRow63 role) 63).wr F.DRW_SHELF_CFG_PWR c 0) s

/-- A paddock of no group, role 0 and no quota (R26). -/
def State.leaveGroup (s : State) (p : Nat) : State :=
  let s := (s.wr F.PDK_STATE_GROUP_BASE p p).wr F.PDK_STATE_GROUP_LOG2 p 0
  let s := (s.wr F.PDK_STATE_ROLE p 0).wr F.PDK_QUOTA_CTX_QUOTA_M1 p 0
  let s := (s.wr F.PDK_QUOTA_FAR_PAGES p 0).wr F.PDK_QUOTA_HBM_POOL_PAGES p 0
  loopN 8 (fun i s => s.wr F.DRW_SHELF_CFG_PWR (8 * p + i) 0) s

/-- Members of the group of base `b` and size 2^k. -/
def members (b k : Nat) : List Nat := (List.range (2 ^ k)).map (fun i => b + i)

/-- A PADDOCK_RELEASE completes when no member is left in HANDOVER, with the members that ended OFFLINE (R503). -/
def State.endReleases (s : State) : State :=
  let done := s.taken.filter (fun t => t.op == opPaddockRelease &&
    (members (nth t.prog 0) (nth t.prog 1)).all (fun p => s.pdkState p != pdkHandover))
  done.foldl (fun s t =>
    let b := nth t.prog 0
    let off := (List.range (2 ^ nth t.prog 1)).foldl (fun m k => if s.pdkState (b + k) = pdkOffline then m + 2 ^ k else m) 0
    s.complete t.h 0 (off * 2 ^ 16)) s

/-- The TDI of a paddock whose handover a STOP_INTERFACE_REQUEST asked for is CONFIG_UNLOCKED, and the request is answered (R612). -/
def State.endStop (s : State) (p : Nat) : State :=
  let n := vfOf p
  let s := s.wr F.RTP_TDI_STATE_NOT_READY n 0
  if tget false s.trust.stopping [n] then
    let s : State := { s with trust := { s.trust with stopping := tset false s.trust.stopping [n] false } }
    (s.wr F.RTP_TDI_STATE_STATE n 0).emit (.reply 0 "STOP_INTERFACE_RESPONSE" [n] [])
  else s

/-- Step 6 (R33, R35, R36): the duration, a late end, and FREE, ASSIGNED or OFFLINE. -/
def State.stepSix (s : State) (p : Nat) (x : Hand) (short : Bool) : State :=
  let ns := s.now - x.start
  let late := decide (30000000 < ns)
  let s := s.wr F.PDK_INFO_LAST_HANDOVER_US p (min (ns / 1000) 0xFFFF)
  let s := (s.bump F.CNT_D_COUNT 0 3).setHand p none
  let s : State := { s with rel := { s.rel with handovers := tset 0 s.rel.handovers [p] (tget 0 s.rel.handovers [p] + 1) } }
  let s := s.wr F.PDK_STATE_HANDOVER_LATE p (b2n late)
  let s := if late then (s.bump F.CNT_D_COUNT 0 4).event 0 0x06 0 (detailAt 0x10 (ns / 1000 % 2 ^ 32)) p else s
  let s := s.mowActivity p mowScrub
  let s : State := { s with msys := { s.msys with zero := tset false s.msys.zero [p] false } }
  let off := x.failed || short || hasBit (s.rd F.HIF_SPARES_RETIRED 0) p
  let s := if x.toFree then s.leaveGroup p else s
  let s :=
    if off then
      let s := (s.wr F.PDK_STATE_STATE p pdkOffline).wr F.PDK_STATE_SPARE_SHORT p (b2n short)
      s.event 0 0x08 0 (detailAt 0x10 (b2n short)) p
    else if x.toFree then s.wr F.PDK_STATE_STATE p pdkFree
    else (s.setDrawer63 p (s.role p)).wr F.PDK_STATE_STATE p pdkAssigned
  (s.endStop p).endReleases

/-- HANDOVER_ZEROISE_DONE (R33): steps 3 and 4 end, steps 5 and 6 follow. -/
def execHandoverZeroiseDone (p : Fin 16) (found : List Found) (s : State) : Host.Outcome State Fault Refusal :=
  match s.handOf p.val with
  | none => .next s
  | some x =>
    if s.pdkState p.val ≠ pdkHandover ∨ x.step ≠ 3 ∨ s.handoverRuns = false then .next s
    else
      let s := (s.stepThree p.val found).zeroHbm (dpaOf p.val 0) localEnd
      let (s, short) := (s.stepFive p.val x.toFree).substitute p.val
      .next (s.stepSix p.val { x with failed := x.failed || found.contains .write } short)

/-- A PF write of 1 to HANDOVER_LATE (R37). -/
def execHandoverLateClear (p : Fin 16) (s : State) : Host.Outcome State Fault Refusal := .next (s.wr F.PDK_STATE_HANDOVER_LATE p.val 0)

/-! ### Commands of the physical function (R28, R437, R503) -/

/-- Whether a test holds a resource of a paddock (R666): a core, a channel, its processor, or a lane of a port on which it owns a slot. -/
def State.testHolds (s : State) (p : Nat) : Bool :=
  s.rel.tests.any (fun t =>
    (t.kind == 0 && (List.range 8).any (fun i => s.phys (8 * p + i) == t.unit)) || (t.kind == 1 && s.procOf p == t.unit) ||
      (t.kind == 2 && t.unit / 16 == p) || (t.kind == 3 && s.slotsOf (t.unit / 16) p != 0))

/-- Bounds of an extent on a port: whether it reaches beyond the capacity, and whether two extents overlap. -/
def rangesMeet (a n b m : Nat) : Bool := n != 0 && m != 0 && decide (a < b + m) && decide (b < a + n)
def extBase (e : Nat × Nat × Nat × Nat) (port : Nat) : Nat := if port = 0 then e.1 else e.2.2.1
def extSize (e : Nat × Nat × Nat × Nat) (port : Nat) : Nat := if port = 0 then e.2.1 else e.2.2.2
def State.extOf (s : State) (p : Nat) : Nat × Nat × Nat × Nat :=
  (s.rd F.FAR_PEXT_BASE0 p, s.rd F.FAR_PEXT_SIZE0 p, s.rd F.FAR_PEXT_BASE1 p, s.rd F.FAR_PEXT_SIZE1 p)

/-- Whether the extents of an assignment of the members from `b` on break R437. -/
def State.extentsBad (s : State) (ext : List (Nat × Nat × Nat × Nat)) : Bool :=
  let others := ((List.range 16).filter (fun p => s.pdkState p != pdkFree)).map (fun p => s.extOf p)
  [0, 1].any (fun port =>
    (List.range ext.length).any (fun k =>
      let e := (ext[k]?).getD (0, 0, 0, 0)
      decide (0 < extSize e port) && decide (s.rd F.FAR_PSTATUS_CAPACITY port < extBase e port + extSize e port) ||
        (others ++ ext.drop (k + 1)).any (fun o => rangesMeet (extBase e port) (extSize e port) (extBase o port) (extSize o port))))

/-- The paddock of a header, and its group fields. -/
def State.assignStatus (s : State) (h : Hdr) (role log2 ctxQuotaM1 pool : Nat) (ext : List (Nat × Nat × Nat × Nat)) : Nat :=
  let ms := members h.pdk (min log2 4)
  firstStatus [failIf (decide (4 < log2) || h.pdk % 2 ^ log2 != 0) 0x202,
    failIf (decide (2 < role) || decide (65535 < ctxQuotaM1) || decide (778240 < pool) || (ext.drop (2 ^ log2)).any (fun e => e != (0, 0, 0, 0))) 0x201,
    failIf (ms.any (fun p => hasBit (s.rd F.HIF_SPARES_RETIRED 0) p)) 0x391,
    failIf (ms.any (fun p => s.pdkState p != pdkFree)) 0x301,
    failIf (ms.any (fun p => (List.range 16).any (fun c => s.rd F.HBM_CH_STAT_PWR (16 * p + c) != 0))) 0x312,
    failIf (s.extentsBad (ext.take (2 ^ log2))) 0x360]

/-- A member is assigned (R27, R28, R437). -/
def State.assignOne (s : State) (p base log2 role ctxQuotaM1 pool : Nat) (e : Nat × Nat × Nat × Nat) : State :=
  let s := (s.wr F.PDK_STATE_STATE p pdkAssigned).wr F.PDK_STATE_ROLE p role
  let s := (s.wr F.PDK_STATE_GROUP_BASE p base).wr F.PDK_STATE_GROUP_LOG2 p log2
  let s := (s.wr F.PDK_QUOTA_CTX_QUOTA_M1 p ctxQuotaM1).wr F.PDK_QUOTA_HBM_POOL_PAGES p pool
  let s := s.wr F.PDK_QUOTA_FAR_PAGES p ((e.2.1 + e.2.2.2) * 8192)
  let s := (s.wr F.FAR_PEXT_BASE0 p e.1).wr F.FAR_PEXT_SIZE0 p e.2.1
  let s := (s.wr F.FAR_PEXT_BASE1 p e.2.2.1).wr F.FAR_PEXT_SIZE1 p e.2.2.2
  s.setDrawer63 p role

/-- PADDOCK_ASSIGN (R14, R27, R28, R437): all members or none. It waits for the executor and for tests (R493, R666). -/
def execPaddockAssign (h : Hdr) (role log2 ctxQuotaM1 pool : Nat) (extents : List (Nat × Nat × Nat × Nat)) (s : State) :
    Host.Outcome State Fault Refusal :=
  if s.callStatus h opPaddockAssign = 0 ∧ (s.orderBusy h = true ∨ (members h.pdk (min log2 4)).any (fun p => s.testHolds p) = true) then .next s
  else
    .next (s.checked h opPaddockAssign (s.assignStatus h role log2 ctxQuotaM1 pool extents) (fun s =>
      let s := s.start h opPaddockAssign (some (.paddockAssign h role log2 ctxQuotaM1 pool extents))
      let s := loopN (2 ^ log2) (fun k s =>
        s.assignOne (h.pdk + k) h.pdk log2 role ctxQuotaM1 pool ((extents[k]?).getD (0, 0, 0, 0))) s
      s.complete h 0))

/-- PADDOCK_RELEASE (R27, R29): every member that a tenant holds enters HANDOVER, to end in FREE. -/
def execPaddockRelease (h : Hdr) (s : State) : Host.Outcome State Fault Refusal :=
  let b := h.pdk
  let k := s.rd F.PDK_STATE_GROUP_LOG2 b
  let ms := members b k
  let idle (p : Nat) : Bool := s.pdkState p == pdkFree || s.pdkState p == pdkOffline
  if s.callStatus h opPaddockRelease = 0 ∧ (s.orderBusy h = true ∨ ms.any (fun p => s.testHolds p) = true) then .next s
  else
    .next (s.checked h opPaddockRelease
      (firstStatus [failIf (s.rd F.PDK_STATE_GROUP_BASE b != b) 0x202, failIf (ms.all idle) 0x301]) (fun s =>
      let s := s.start h opPaddockRelease (some (.paddockRelease h)) [b, k]
      let s := ms.foldl (fun s p => if s.pdkState p = pdkOffline then s.leaveGroup p else s.startHandover p true false false) s
      s.endReleases))

/-- Whether a paddock has no schedule loaded, no pass, no lookup and no page-server request (R24). -/
def State.roleQuiet (s : State) (p : Nat) : Bool :=
  (List.range 4).all (fun k => (s.imageOf p k).isNone) && !(s.net.jobs.any (fun j => j.pdk == p)) &&
    !(s.sched.ops.any (fun o => coreOf p o.core && (match o.kind with
      | .pass _ => true
      | .lookup _ => true
      | _ => false)))

/-- The rows that a change between the prompt and generate roles moves into or out of drawer 63 (R25). -/
def State.zeroMoved (s : State) (p : Nat) : State :=
  loopN 8 (fun i s =>
    let c := 8 * p + i
    { s with mem := { s.mem with
        shelf := mzero s.mem.shelf (shelfAddr c 23552) (768 * 512)
        shelfPoison := tclear (fun k => match k with
          | [x, r] => x == c && decide (23552 ≤ r) && decide (r < 24320)
          | _ => false) s.mem.shelfPoison } }) s

/-- The role changes (R25, R65): deferred rows are discarded; a paddock that leaves the cache role has zeroised banks. -/
def State.changeRole (s : State) (p old role : Nat) : State :=
  let s := s.discardDeferred p
  let s := if old = 2 ∧ role ≠ 2 then loopN 8 (fun i s => s.zeroCore (8 * p + i)) s
    else if old ≠ role ∧ old ≠ 2 ∧ role ≠ 2 then s.zeroMoved p else s
  (s.wr F.PDK_STATE_ROLE p role).setDrawer63 p role

/-- PADDOCK_CONFIG (R24, R25, R63, R614): into the cache role, the banks drain first. -/
def execPaddockConfig (h : Hdr) (role : Nat) (s : State) : Host.Outcome State Fault Refusal :=
  let p := h.pdk % 16
  let st := s.pdkState p
  if s.callStatus h opPaddockConfig = 0 ∧ s.orderBusy h = true then .next s
  else
    .next (s.checked h opPaddockConfig
      (firstStatus [failIf (decide (2 < role)) 0x201, failIf (s.tdiLocked p) 0x720,
        failIf (st != pdkAssigned && st != pdkQuiesced) 0x301, failIf (!s.roleQuiet p) 0x302]) (fun s =>
      let s := s.start h opPaddockConfig (some (.paddockConfig h role)) [s.now]
      let old := s.role p
      if old = role then s.complete h 0
      else
        if role = 2 then loopN 8 (fun i s => s.wr F.DRW_SHELF_CFG_PWR (8 * p + i) 1) s
        else (s.changeRole p old role).complete h 0))

/-- The PADDOCK_CONFIG that powers a paddock's banks down. -/
def State.roleCmd (s : State) (p : Nat) : Option Taken :=
  s.taken.find? (fun t => t.op == opPaddockConfig && t.h.pdk == p && t.phase == .executing)

/-- Writes in flight to a core's shelf: commits and arrivals (R63). -/
def State.shelfWrites (s : State) (c : Nat) : Bool :=
  tget [] s.sched.commits [c] != [] || s.sched.arrivals.any (fun a => a.core == c)

/-- SHELF_POWER_DOWN_DRAINED (R63): with the last core's banks the role changes, and their contents are lost: a bank that powers up
again is zeroised (R25). -/
def execShelfPowerDownDrained (core : Fin 128) (s : State) : Host.Outcome State Fault Refusal :=
  let c := core.val
  let p := corePdk c
  if s.rd F.DRW_SHELF_CFG_PWR c ≠ 1 ∨ s.shelfWrites c = true then .next s
  else
    let s := s.wr F.DRW_SHELF_CFG_PWR c 2
    if (List.range 8).all (fun i => s.rd F.DRW_SHELF_CFG_PWR (8 * p + i) = 2) then
      match s.roleCmd p with
      | some t => .next ((s.changeRole p (s.role p) 2).complete t.h 0)
      | none => .next s
    else .next s

/-- SHELF_POWER_DOWN_TIMEOUT (R63): after 100 µs every bank of the paddock is powered again and the role stays. -/
def execShelfPowerDownTimeout (core : Fin 128) (s : State) : Host.Outcome State Fault Refusal :=
  let c := core.val
  let p := corePdk c
  match s.roleCmd p with
  | none => .next s
  | some t =>
    if s.rd F.DRW_SHELF_CFG_PWR c ≠ 1 ∨ s.now ≤ nth t.prog 0 + 100000 then .next s
    else .next ((loopN 8 (fun i s => s.wr F.DRW_SHELF_CFG_PWR (8 * p + i) 0) s).complete t.h 0x313)

end Sys2Proof.Machine
end

