-- ==== Sys2Proof/Machine/Power.lean ====
section
/-! DEFINITION. The fatal state (R668 to R670), the kill (R619), clocks, reset levels, power-on and power-down (chapter 23), and the pins
of the module (chapter 24). -/

namespace Sys2Proof.Machine

/-! ### The fatal state (R668 to R670) -/

/-- Logical core 8p + i on the core of that place of its die (DESIGN CHOICE: log entry 33). -/
def State.defaultCores (s : State) : State := loopN 128 (fun c s => s.wr (physFld (coreOff c)) (corePdk c) (72 * (c / 64) + c % 64)) s

/-- Every command that is outstanding ends: with 0x0F00, or without a completion where R669 says so. -/
def State.endAll (s : State) : State :=
  let s := s.taken.foldl (fun s t =>
    if t.h.cid = 4096 ∨ s.fatalSilent t.h.fn.val = true then s.dropTaken t.h else s.complete t.h 0xF00) s
  { s with
    sched := { s.sched with runs := [], steps := [] }
    kv := { s.kv with edits := [], held := [], places := [], moves := [] }
    rel := { s.rel with tests := [] } }

/-- Every pod port goes DOWN with REASON 1 and every memory, far and pod-port key is destroyed (R669, R690). -/
def State.cutLinks (s : State) : State :=
  loopN 16 (fun p s => s.destroyKeys p) (loopN 12 (fun q s => s.goDown q 1) s)

/-- The device enters the fatal state (R668, R669); in it, a further cause is no entry. It ends a power-on (R688). -/
def State.enterFatal (s : State) (cause unit : Nat) : State :=
  if s.rd F.HIF_FATAL_FATAL 0 = 1 ∨ s.pins.pwrgd = false then s
  else
    let s := (s.wr F.HIF_FATAL_FATAL 0 1).satAdd F.HIF_FATAL_ENTRIES 0
    let s := (s.wr F.HIF_FATAL_LAST_CAUSE 0 cause).wr F.HIF_FATAL_UNIT 0 unit
    let s := (s.wr F.HIF_FATAL_TIME_TIME 0 s.now).endAll.cutLinks
    let st := s.rd F.RST_STATUS_STAGE 0
    let s := if 0 < st ∧ st < 8 then s.defaultCores else s
    let s := s.wr F.RST_STATUS_STAGE 0 0
    let s : State := { s with pins := { s.pins with alertN := false } }
    (s.emit (.pin "ALERT_N" false)).emit (.aer 0 true)

/-- DEVICE_FATAL (R668): a cause that one of the device's monitors reports. -/
def execDeviceFatal (cause : Fin 8) (unit : Nat) (s : State) : Host.Outcome State Fault Refusal :=
  .next (s.enterFatal (0xF01 + cause.val) unit)

/-- PLL_LOCK_LOSS (R675): the loss of the reference or of a core, memory, S-die or timebase PLL. UNIT is the bit of CLK_STAT.LOCK, 8 for
the reference (DESIGN CHOICE: log entry 34). A PLL that is not locked loses nothing. -/
def execPllLockLoss (clock : Fin 7) (s : State) : Host.Outcome State Fault Refusal :=
  if clock.val = 6 then .next ((s.wr F.CLK_STAT_LOCK 0 0).enterFatal 0xF01 8)
  else if hasBit (s.rd F.CLK_STAT_LOCK 0) clock.val then .next ((s.setLock clock.val false).enterFatal 0xF01 clock.val)
  else .next s

/-- SERDES_PLL_LOSS (R675): the link goes down as its chapter states; it is not fatal. -/
def execSerdesPllLoss (link : Fin 15) (s : State) : Host.Outcome State Fault Refusal :=
  if link.val = 14 then .next ((s.setLock 6 false).hostLink 0 0)
  else if link.val < 12 then .next ((s.setLock 7 false).goDown link.val 2)
  else .next ((s.setLock 7 false).farLoss (link.val - 12))

/-- REGULATOR_FAULT (R668, R705) and INPUT_FAULT (R704). -/
def execRegulatorFault (unit : Fin 9) (s : State) : Host.Outcome State Fault Refusal := .next (s.enterFatal 0xF02 unit.val)
def execInputFault (s : State) : Host.Outcome State Fault Refusal := .next (s.enterFatal 0xF02 0x100)

/-- THERMAL_TRIP (R714): a reading at the trip point of its sensor. -/
def execThermalTrip (sensor : Fin 11) (celsius : Nat) (s : State) : Host.Outcome State Fault Refusal :=
  let k := sensor.val
  if celsius < (if k < 3 then 110 else 100) then .next s
  else .next (s.enterFatal 0xF03 (if k < 3 then k else 0x10 + (k - 3)))

/-! ### The kill (R619, R709) -/

/-- The kill: every ACTIVE paddock is stopped, every port goes DOWN, KILLED sets. -/
def State.kill (s : State) : State :=
  let s := loopN 16 (fun p s => if s.pdkState p = pdkActive then ((s.abortScope1 p).1).quiesce p else s) s
  (loopN 12 (fun q s => s.goDown q 1) s).wr F.RTP_DEV_KILLED 0 1

/-- KILL_N as a level when a reset ends (R684). -/
def State.sampleKill (s : State) : State := if s.pins.killN then s else s.kill

/-- KILL_N_ASSERT (R707, R709): ignored without power and before the end of stage 2; a low of 200 ns to 1 µs may or may not register. A
kill waits for a reset in progress (R684). -/
def execKillNAssert (lowNs : Nat) (s : State) : Host.Outcome State Fault Refusal :=
  let st := s.rd F.RST_STATUS_STAGE 0
  if s.pins.pwrgd = false ∨ st = 1 ∨ st = 2 ∨ s.pins.killN = false ∨ lowNs < 200 then .next s
  else
    let hit := decide (1000 ≤ lowNs) || Config.freeNat s.free % 2 == 1
    let s := if lowNs < 1000 then s.tick else s
    if hit then
      let s : State := { s with pins := { s.pins with killN := false } }
      let s := s.wr F.RST_STATUS_KILL_N_LEVEL 0 1
      .next (if s.rd F.RST_STATUS_IN_RESET 0 = 1 then s else s.kill)
    else .next s

/-- KILL_N_DEASSERT: the level clears and KILLED stays (R619). -/
def execKillNDeassert (s : State) : Host.Outcome State Fault Refusal :=
  let s : State := { s with pins := { s.pins with killN := true } }
  .next (s.wr F.RST_STATUS_KILL_N_LEVEL 0 0)

/-! ### PERST_N and FLR (R680 to R684) -/

/-- What PERST_N and a PF FLR do alike: every command ends without a completion, PF 0 and every configuration space are reset, sessions
end, the fatal state and the kill clear, and every paddock goes through HANDOVER to FREE. -/
def State.resetFunctions (s : State) (perst : Bool) : State :=
  let wasFatal := s.rd F.HIF_FATAL_FATAL 0 = 1
  let s := s.taken.foldl (fun s t => s.dropTaken t.h) s
  let s := s.resetFlds (fun f i _ => f.lvl == .pfReset || (perst && f.lvl == .perst) ||
    (f.atHandover && i == 0 && (f.blk == .CMQP || f.blk == .CMQF || f.blk == .HIFP)))
  let s := (s.wr F.RTP_DEV_KILLED 0 0).endSessions.clearFn 0
  let s : State := { s with
    host := { s.host with cfg := [], numVfs := 0, vfEnable := false, held := [], xents := [] }
    trust := { s.trust with ideKeys := [], ideSet := [], nonces := [], stopping := [] }
    rel := { s.rel with tests := [] } }
  let s := if s.pins.alertN then s else ({ s with pins := { s.pins with alertN := true } } : State).emit (.pin "ALERT_N" true)
  loopN 16 (fun p s =>
    let s := s.startHandover p true false true
    if wasFatal then s.setHand p (some ⟨true, 1, s.now, false, false, false⟩) else s) s

/-- A reset of level 1 (PERST_N) or 2 (PF FLR). During a power-on only the functions are reset and power-on continues (R684; DESIGN
CHOICE for the PF FLR: log entry 35). -/
def State.deviceReset (s : State) (lvl : Nat) : State :=
  if 0 < s.rd F.RST_STATUS_STAGE 0 then (if lvl = 2 then s.resetFunctions false else s)
  else
    let s := (s.wr F.RST_STATUS_IN_RESET 0 1).wr F.RST_STATUS_LAST 0 lvl
    let s := (s.wr F.RST_STATUS_READY 0 0).wr F.RST_LAST_TIME_TIME 0 s.now
    let s := s.resetFunctions (lvl == 1)
    { s with pins := { s.pins with resetSince := s.now } }

/-- PERST_N_ASSERT (R680). -/
def execPerstNAssert (s : State) : Host.Outcome State Fault Refusal :=
  if s.pins.perstN = false ∨ s.pins.pwrgd = false then .next s
  else
    let s : State := { s with pins := { s.pins with perstN := false } }
    let s := if s.rd F.RST_STATUS_STAGE 0 = 0 then s.bump F.RST_PERST_COUNT 0 else s
    .next (s.deviceReset 1)

/-- PERST_N_DEASSERT (R683, R685, R687): the time of a reset runs from here; one before the end of stage 5 is early. -/
def execPerstNDeassert (s : State) : Host.Outcome State Fault Refusal :=
  if s.pins.perstN = true ∨ s.pins.pwrgd = false then .next s
  else
    let st := s.rd F.RST_STATUS_STAGE 0
    let s : State := { s with pins := { s.pins with perstN := true, resetSince := s.now } }
    .next (if 1 ≤ st ∧ st ≤ 5 then s.wr F.RST_STATUS_EARLY_PERST 0 1 else s)

/-- PF_FLR (R680, R683). -/
def execPfFlr (s : State) : Host.Outcome State Fault Refusal :=
  if s.pins.pwrgd = false then .next s else .next ((s.bump F.RST_PFFLR_COUNT 0).deviceReset 2)

/-- The function-level reset of the VF of paddock `p` (R27, R31, R456): its configuration is reset and its paddock handed over. -/
def State.vfFlr (s : State) (p : Nat) : State :=
  let c := s.cfgOf (vfOf p)
  let s := (s.bump F.RST_VFFLR_COUNT 0).setCfg (vfOf p) ⟨false, false, false, false, c.bar0, false⟩
  s.startHandover p false true false

/-- VF_FLR: of a VF that exists. -/
def execVfFlr (p : Fin 16) (s : State) : Host.Outcome State Fault Refusal :=
  if s.pins.pwrgd = false ∨ s.vfExists (vfOf p.val) = false then .next s else .next (s.vfFlr p.val)

/-- What every end of a reset does: READY, KILL_N as a level, and the enables that PF 0 wrote before (R684, R687). -/
def State.becomeReady (s : State) : State :=
  ((s.wr F.RST_STATUS_READY 0 1).wr F.RST_STATUS_IN_RESET 0 0).sampleKill.applyHeld

/-- Whether no paddock is in HANDOVER. -/
def State.noHandover (s : State) : Bool := (List.range 16).all (fun p => s.pdkState p != pdkHandover)

/-- RESET_COMPLETE (R683): a PERST_N reset also waits for the deassertion and the host link. -/
def execResetComplete (speed width : Nat) (s : State) : Host.Outcome State Fault Refusal :=
  let lvl := s.rd F.RST_STATUS_LAST 0
  if s.rd F.RST_STATUS_IN_RESET 0 = 0 ∨ lvl = 0 ∨ s.rd F.RST_STATUS_STAGE 0 ≠ 0 ∨ s.noHandover = false ∨
      s.rd F.HIF_FATAL_FATAL 0 = 1 ∨ s.pins.pwrgd = false ∨ (lvl = 1 ∧ s.pins.perstN = false) then .next s
  else
    let s := if lvl = 1 then s.hostLink speed width else s
    let s := s.wr F.RST_POWERON_LAST_RESET_MS 0 (min ((s.now - s.pins.resetSince) / 1000000) 0xFFFF)
    .next s.becomeReady

/-! ### Power-on (R685 to R688) -/

/-- What the boot ROM finds in the flash (R595): the bank that runs, whether it is the one not marked active; none in recovery. -/
def State.bootBank (s : State) (bad : List Nat) : Option (Nat × Bool) :=
  let ok (b : Nat) : Bool := !bad.contains b && decide (s.trust.minSvn ≤ (tget ⟨0, [], []⟩ s.trust.banks [b]).svn)
  let a := s.trust.active
  if ok a then some (a, false) else if ok (1 - a) then some (1 - a, true) else none

/-- The boot of the root of trust (R595, R596, R598): RTP_DEV, RTP_SVN, RTP_MIN_SVN, RTP_DBG and the measurements. A staged image that
boots as the fallback is staged no longer (log entry 37). -/
def State.boot (s : State) (bad : List Nat) : State :=
  let t := s.trust
  let b := s.bootBank bad
  let run := tget (⟨0, [], []⟩ : FwBank) t.banks [(b.map (fun x => x.1)).getD t.active]
  let s : State := { s with trust := { t with
    recovery := b.isNone
    staged := t.staged && !(b.any (fun x => x.2))
    ownerMeas := t.owner
    measured := if b.isNone then [] else Config.digest 2 [] :: run.digests } }
  let t := s.trust
  let s := (s.wr F.RTP_DEV_RUN_BANK 0 ((b.map (fun x => x.1)).getD t.active)).wr F.RTP_DEV_FALLBACK 0 (b2n (b.any (fun x => x.2)))
  let s := (s.wr F.RTP_DEV_OWNER_SET 0 (b2n t.owner.isSome)).wr F.RTP_DEV_UPDATE_STAGED 0 (b2n t.staged)
  let s := (s.wr F.RTP_DEV_LIFECYCLE 0 t.lifecycle).wr F.RTP_SVN_RUN_SVN 0 (if b.isNone then 0 else run.svn)
  let s := s.wr F.RTP_SVN_STAGED_SVN 0 (if t.staged then (tget (⟨0, [], []⟩ : FwBank) t.banks [1 - t.active]).svn else 0)
  let s := (s.wr F.RTP_MIN_SVN_COMMITS_LEFT 0 t.commitsLeft).wr F.RTP_MIN_SVN_MIN_SVN 0 t.minSvn
  s.wr F.RTP_DBG_DEBUG_EPOCH 0 t.debugEpoch

def Found.bankOf : Found → Option Nat
  | .bank k => some k.val
  | _ => none
def Found.channelOf : Found → Option Nat
  | .channel k => some k.val
  | _ => none
def Found.procOf : Found → Option Nat
  | .proc k => some k.val
  | _ => none
def Found.pprOf : Found → Option Nat
  | .ppr k => some k
  | _ => none
def Found.lineOf : Found → Option (Nat × Nat)
  | .unrepaired g l => some (g.val, l)
  | _ => none
def Found.expanderOf (port : Nat) : Found → Option (Nat × Nat × Nat)
  | .expander p c v w => if p.val = port then some (c, v, w) else none
  | _ => none
def Found.linkOf : Found → Option (Nat × Nat)
  | .hostLink v w => some (v, w)
  | _ => none
def Found.slotOf : Found → Option Nat
  | .slotId k => some k.val
  | _ => none

/-- A line that stays on the repair list stands in a patch entry of its channel (R424). -/
def State.patchLine (s : State) (g l : Nat) : State :=
  let dpa := g * groupBytes + 512 * l
  let ch := channelOf dpa
  match (List.range 16).find? (fun k => s.patchFree ch k) with
  | some k => (s.wr F.MOW_PATCH_VALID 0 1 (patchIdx ch k)).wr F.MOW_PATCH_LINE 0 (channelLineOf dpa) (patchIdx ch k)
  | none => s

/-- Stage 6 (R424, R661, R686): training, post-package repair and patch tables. -/
def State.stageSix (s : State) (found : List Found) : State :=
  let bad := found.filterMap Found.channelOf
  let s := loopN 256 (fun ch s =>
    (s.wr F.HBM_CH_STAT_PWR ch 0).wr F.HBM_CH_STAT_TRAINED ch (b2n (!bad.contains ch))) s
  let s := loopN 16 (fun g s => s.syncGroup g) s
  let left := s.msys.repair.filter (fun x => (found.filterMap Found.lineOf).contains x)
  let rows := s.msys.repair.length - left.length
  let s : State := { s with msys := { s.msys with repair := left } }
  let s := (s.wr F.MOW_PPR_APPLIED 0 (((found.filterMap Found.pprOf).head?).getD rows)).wr F.MOW_PPR_LISTED 0 (min left.length 0xFFFF)
  let s := left.foldl (fun s x => s.patchLine x.1 x.2) s
  bad.foldl (fun s ch => s.channelFailed ch) s

/-- Stage 7 (R62, R214, R250, R682, R686): every physical core is reset and tested, every command processor tests itself. -/
def State.stageSeven (s : State) (found : List Found) : State :=
  let s := loopN 144 (fun c s => s.testCore c found) (s.bump F.RST_CORE_COUNT 0 0 144)
  let bad := found.filterMap Found.procOf
  let s : State := { s with rel := { s.rel with badProcs := bad.foldl (fun t k => tset false t [k] true) s.rel.badProcs } }
  let s := s.defaultCores.syncSpares
  if bad.contains 18 && bad.contains 19 then s.enterFatal 0xF06 18 else s

/-- Stage 8 (R435, R436): a port without a fitting expander stays down. -/
def State.stageEight (s : State) (found : List Found) : State :=
  loopN 2 (fun port s =>
    match found.findSome? (Found.expanderOf port) with
    | some (c, v, w) =>
      if 1 ≤ c ∧ c ≤ 8192 ∧ (v = 1 ∨ v = 2) ∧ (w = 1 ∨ w = 2) then
        let s := (s.wr F.FAR_PSTATUS_STATE port 1).wr F.FAR_PSTATUS_CAPACITY port c
        (s.wr F.FAR_PSTATUS_SPEED port v).wr F.FAR_PSTATUS_WIDTH port w
      else s.wr F.FAR_PSTATUS_STATE port 3
    | none => s.wr F.FAR_PSTATUS_STATE port 3) s

/-- Stage 9 (R686): zeros under the first keys; the handovers of stage 10 start (R33). -/
def State.stageNine (s : State) : State :=
  let s : State := { s with mem := { s.mem with hbm := [], hbmPoison := [] } }
  loopN 16 (fun p s => (s.newKey p 0).setHand p (some ⟨true, 1, s.now, false, false, false⟩)) s

/-- The end of power-on (R686): READY. -/
def State.powerOnDone (s : State) : State :=
  let s := (s.wr F.RST_STATUS_STAGE 0 0).wr F.RST_POWERON_READY_MS 0 (min s.pins.upMs 0xFFFF)
  s.syncSpares.becomeReady

/-- POWER_ON_STAGE_END (R686): the running stage ends; stage 10 only when every handover has. -/
def execPowerOnStageEnd (ms : Nat) (found : List Found) (s : State) : Host.Outcome State Fault Refusal :=
  let st := s.rd F.RST_STATUS_STAGE 0
  if st = 0 ∨ s.pins.pwrgd = false ∨ s.rd F.HIF_FATAL_FATAL 0 = 1 ∨ (st = 10 ∧ s.noHandover = false) then .next s
  else
    let s : State := { s with pins := { s.pins with upMs := s.pins.upMs + ms } }
    let goTo (s : State) : State := if s.rd F.HIF_FATAL_FATAL 0 = 1 then s else s.wr F.RST_STATUS_STAGE 0 (st + 1)
    match st with
    | 2 =>
      let on := found.contains .hostRefclk
      let s : State := { s with pins := { s.pins with hostRefclk := on } }
      .next (goTo ((s.wr F.CLK_STAT_LOCK 0 0xFF).wr F.CLK_STAT_HOST_REFCLK 0 (b2n on)))
    | 3 =>
      let s : State := { s with pins := { s.pins with slotId := ((found.filterMap Found.slotOf).head?).getD 7 } }
      .next (goTo (s.boot (found.filterMap Found.bankOf)))
    | 6 => .next (goTo (s.stageSix found))
    | 7 => .next (goTo (s.stageSeven found))
    | 8 => .next (goTo (s.stageEight found))
    | 9 => .next (goTo s.stageNine)
    | 10 => .next (if s.pins.perstN then goTo s else s.powerOnDone)
    | 11 =>
      let l := ((found.filterMap Found.linkOf).head?).getD (0, 0)
      .next ((s.hostLink l.1 l.2).powerOnDone)
    | _ => .next (goTo s)

/-- MODULE_POWER_ON (R680, R681, R690): PWRGD asserts, after 100 ms or more without it. Fuses, flash and what waits for the device are
kept; the fresh far keys are none that were before. -/
def execModulePowerOn (offMs : Nat) (s : State) : Host.Outcome State Fault Refusal :=
  if s.pins.pwrgd = true ∨ offMs < 100 then .next s
  else
    let r := State.reset
    let t := s.trust
    let far := (List.range 16).foldl (fun f p => tset 0 f [p] (tget 0 s.msys.farKey [p] + 1)) []
    .next { r with
      pending := s.pending
      out := s.out
      free := s.free
      msys := { r.msys with repair := s.msys.repair, farKey := far }
      trust := { r.trust with
        banks := t.banks
        active := t.active
        staged := t.staged
        minSvn := t.minSvn
        commitsLeft := t.commitsLeft
        debugEpoch := t.debugEpoch
        lifecycle := t.lifecycle
        owner := t.owner
        serial := t.serial }
      pins := { r.pins with perstN := s.pins.perstN, killN := s.pins.killN } }

/-! ### Power-down (R690, R691) -/

/-- The first step of a power-down: cores gated, ports down, keys destroyed, host and far links idle. -/
def State.powerStep (s : State) : State :=
  let s := s.cutLinks
  let s := (loopN 2 (fun port s => s.farLoss port) s).hostLink 0 0
  { s with sched := { s.sched with
      gated := (List.range 128).foldl (fun t c => tset false t [c] true) s.sched.gated } }

/-- PWRGD_DEASSERT (R690). Nothing is written from then on; a flash write in progress is abandoned (R691). -/
def execPwrgdDeassert (s : State) : Host.Outcome State Fault Refusal :=
  if s.pins.pwrgd = false then .next s
  else
    let s : State := { s with pins := { s.pins with pwrgd := false } }
    let s := s.taken.foldl (fun s t => s.dropTaken t.h) s
    .next s.powerStep

/-- INPUT_UNDERVOLTAGE (R691, R704): below 44 V with PWRGD asserted. -/
def execInputUndervoltage (s : State) : Host.Outcome State Fault Refusal :=
  if s.pins.pwrgd = false then .next s else .next s.powerStep

/-! ### The core clock (R678) -/

/-- CORE_SEL_WRITE: applied while every paddock is FREE or OFFLINE and no test runs; a change relocks both core PLLs. -/
def execCoreSelWrite (v : Nat) (s : State) : Host.Outcome State Fault Refusal :=
  let idle := (List.range 16).all (fun p => s.pdkState p == pdkFree || s.pdkState p == pdkOffline)
  if idle = false ∨ s.rel.tests ≠ [] then .next (s.wr F.CLK_CFG_REFUSED 0 1)
  else if v % 4 = s.rd F.CLK_CFG_CORE_SEL 0 then .next s
  else
    let s := (s.wr F.CLK_CFG_CORE_SEL 0 v).wr F.CLK_STAT_RELOCKING 0 1
    .next (((s.setLock 0 false).setLock 1 false).bump F.CLK_RELOCK_COUNT 0)

/-- CORE_PLL_RELOCK_DONE. -/
def execCorePllRelockDone (s : State) : Host.Outcome State Fault Refusal :=
  if s.rd F.CLK_STAT_RELOCKING 0 = 0 then .next s
  else
    let s := (s.wr F.CLK_STAT_RELOCKING 0 0).wr F.CLK_STAT_CORE_MHZ 0 (nth [1900, 1800, 1700, 1600] (s.rd F.CLK_CFG_CORE_SEL 0))
    .next ((s.setLock 0 true).setLock 1 true)

/-- A PF write of 1 to REFUSED (R692). -/
def execRefusedClear (s : State) : Host.Outcome State Fault Refusal := .next (s.wr F.CLK_CFG_REFUSED 0 0)

/-! ### I3C (R710) -/

/-- I3C_DYNAMIC_ADDRESS: no address is acknowledged before the end of stage 4; a target that has a dynamic address takes no other one
by SETDASA or ENTDAA (PRESUMED: log entry 36). -/
def execI3cDynamicAddress (_setdasa : Bool) (addr : Fin 128) (s : State) : Host.Outcome State Fault Refusal :=
  let st := s.rd F.RST_STATUS_STAGE 0
  if s.pins.pwrgd = false ∨ (1 ≤ st ∧ st ≤ 4) ∨ s.pins.i3cAddr.isSome = true then .next s
  else .next { s with pins := { s.pins with i3cAddr := some addr.val } }

end Sys2Proof.Machine
end

