-- ==== Sys2Proof/Machine/Trust.lean ====
section
/-! DEFINITION. The root of trust and tenant admission (chapter 20): SPDM sessions, measurement reports, IDE keys, TDISP, firmware, the
out-of-band requests and field debug. -/

namespace Sys2Proof.Machine

/-! ### Bytes, digests and random values -/

/-- Exactly `n` bytes: cut, or filled with zeros. -/
def fitBytes (n : Nat) (l : List Byte) : List Byte := (l ++ List.replicate n 0).take n

/-- Uses of the opaque cryptographic functions: SHA-384, the two Alias signatures, an SPDM answer, the signature of measurement blocks,
the firmware signatures, and the four signatures of debug tokens. -/
def useSha : Nat := 0
def useEcdsa : Nat := 50
def useMlDsa : Nat := 51
def useAnswer : Nat := 52
def useBlocks : Nat := 53
def useFirmware : Nat := 54
def useToken : Nat := 55

/-- SHA-384 of a list of bytes: 48 bytes. -/
def sha384 (l : List Byte) : List Byte := fitBytes 48 (Config.digest useSha l)

/-- `n` bytes of the random-bit generator (R593). -/
def State.random (s : State) (n : Nat) : List Byte × State := ((List.range n).map (Config.randomByte s.free), s.tick)

/-- A register as a number: its fields in their places. -/
def State.wordOf (s : State) (fs : List Fld) (i : Nat) (j : Nat := 0) : Nat :=
  (fs.map (fun f => s.rd f i j * 2 ^ f.lo)).sum

/-! ### When the root of trust answers -/

/-- Whether an opcode's command is executing. -/
def State.inCourse (s : State) (op : Nat) : Bool := s.taken.any (fun t => t.op == op && t.phase == .executing)
def opFwStage : Nat := 0x71
def opFwActivate : Nat := 0x72
def opDebugChallenge : Nat := 0x73
def opDebugResponse : Nat := 0x74

/-- Whether the root of trust serves a request on a transport: it has power and has booted, no FW_ACTIVATE restarts it (R617), it is not
in recovery (R595), the fatal state has not stopped it (R669), and PF 0 is not in reset for DOE (log entry 38). -/
def State.rotUp (s : State) (tr : Nat) : Bool :=
  let st := s.rd F.RST_STATUS_STAGE 0
  s.pins.pwrgd && (st == 0 || decide (4 < st) || s.rd F.HIF_FATAL_FATAL 0 == 1) && !s.inCourse opFwActivate && !s.trust.recovery &&
    !(s.rd F.HIF_FATAL_FATAL 0 == 1 && (s.rd F.HIF_FATAL_LAST_CAUSE 0 == 0xF05 || s.fatalSilent 1)) && (tr != 0 || !s.quiet 0)

/-- An answer on a transport. -/
def State.answer (s : State) (c : Chan) (name : String) (fields : List Nat) (data : List Byte) : State :=
  s.emit (.reply c.transport.val name fields data)

/-- A refusal with SPDM ERROR InvalidRequest, counted (R600, R604). -/
def State.refuse (s : State) (c : Chan) : State := (s.answer c "ERROR InvalidRequest" [] []).bump F.RTP_SESS_REFUSED_COUNT 0

/-- What a session is bound to, and whether the channel has one. -/
def State.boundOf (s : State) (c : Chan) : Option Nat := (s.sessionOf c.transport.val c.slot.val).bind (fun x => x.bound)
def State.established (s : State) (c : Chan) : Bool := (s.sessionOf c.transport.val c.slot.val).isSome

/-- The binding of a DOE session to function `n` (R604): none where it is refused. -/
def State.bindTo (s : State) (c : Chan) (n : Nat) : Option State :=
  if c.transport.val ≠ 0 then none
  else match s.boundOf c with
    | some m => if m = n then some s else none
    | none =>
      if n ≠ 0 ∧ s.trust.sessions.any (fun e => e.2.any (fun x => x.bound == some n)) = true then none
      else
        let s := s.setSession 0 c.slot.val (some ⟨some n⟩)
        some (if n = 0 then s else s.wr F.RTP_TDI_STATE_SESSION n c.slot.val)

/-- The frame of a request inside a session: nothing is answered while the root of trust is down; a channel without a session is
answered with an error (PRESUMED: SPDM; log entry 39). -/
def State.inSession (s : State) (c : Chan) (go : State → State) : State :=
  if s.rotUp c.transport.val = false then s
  else if s.established c = false then s.answer c "ERROR InvalidSession" [] []
  else go s

/-- A request that binds its session to function `n`. -/
def State.bound (s : State) (c : Chan) (n : Nat) (go : State → State) : State :=
  s.inSession c (fun s => match s.bindTo c n with
    | some t => go t
    | none => s.refuse c)

/-- Whether requests at TDI level for VF `n` are answered not-ready (R32, R613). -/
def State.notReady (s : State) (n : Nat) : Bool := s.pdkState (pdkOf n) = pdkHandover
def State.answerNotReady (s : State) (c : Chan) (n : Nat) : State :=
  (s.answer c "ERROR ResponseNotReady" [32] []).bump F.RTP_TDI_NOTREADY_COUNT n

/-- The frame of a TDISP request for VF `n` (R604, R613). -/
def State.tdisp (s : State) (c : Chan) (n : Nat) (go : State → State) : State :=
  s.inSession c (fun s =>
    if c.transport.val ≠ 0 then s.refuse c
    else if s.notReady n then s.answerNotReady c n
    else match s.bindTo c n with
      | some t => go t
      | none => s.refuse c)

/-! ### SPDM (R602, R603) -/

/-- Codes of the SPDM requests that belong to an option the table of R602 does not name (PRESUMED: the codes of SPDM 1.3; log entry 39):
PSK_EXCHANGE, PSK_FINISH, GET_CSR, SET_CERTIFICATE, GET_KEY_PAIR_INFO, SET_KEY_PAIR_INFO. -/
def spdmUnsupported : List Nat := [0xE6, 0xE7, 0xED, 0xEE, 0xFC, 0xFD]

/-- SPDM_REQUEST (R602): a version that is neither 1.2 nor 1.3 (GET_VERSION carries 1.0) and an option of no entry in the table are
refused; what a standard answer holds beside the values of this chapter is SPDM's own. -/
def execSpdmRequest (c : Chan) (request : List Byte) (s : State) : Host.Outcome State Fault Refusal :=
  let version := fieldAt request 0 1
  let code := fieldAt request 1 1
  if s.rotUp c.transport.val = false then .next s
  else if code ≠ 0x84 ∧ version ≠ 0x12 ∧ version ≠ 0x13 then .next (s.answer c "ERROR VersionMismatch" [] [])
  else if spdmUnsupported.contains code then .next (s.answer c "ERROR UnsupportedRequest" [code] [])
  else .next ((s.answer c "SPDM_RESPONSE" [code] (Config.digest useAnswer (leBytes s.free 8 ++ request))).tick)

/-- Session slots of a transport (R603). -/
def sessionSlots (tr : Nat) : Nat := if tr = 0 then 18 else if tr = 1 then 2 else 12

/-- KEY_EXCHANGE (R603): the first free slot of the transport, or of its port; Busy when there is none. -/
def execKeyExchange (transport : Fin 3) (port : Fin 12) (s : State) : Host.Outcome State Fault Refusal :=
  let tr := transport.val
  if s.rotUp tr = false ∨ (tr = 2 ∧ s.flitsOn port.val = false) then .next s
  else
    let slots := if tr = 2 then [port.val] else List.range (sessionSlots tr)
    match slots.find? (fun k => (s.sessionOf tr k).isNone) with
    | some k => .next ((s.openSession tr k).emit (.reply tr "KEY_EXCHANGE_RSP" [k] []))
    | none => .next (s.emit (.reply tr "ERROR Busy" [] []))

/-- END_SESSION (R603, R611). -/
def execEndSession (c : Chan) (s : State) : Host.Outcome State Fault Refusal :=
  .next (s.inSession c (fun s => (s.closeSession c.transport.val c.slot.val).answer c "END_SESSION_ACK" [] []))

/-- SESSION_HEARTBEAT_MISSED (R603). -/
def execSessionHeartbeatMissed (c : Chan) (s : State) : Host.Outcome State Fault Refusal :=
  .next (s.closeSession c.transport.val c.slot.val)

/-! ### Measurements (R598 to R601) -/

/-- Index 6 (R598). -/
def State.securityState (s : State) : List Byte :=
  leBytes s.trust.lifecycle 1 ++ leBytes (s.rd F.RTP_DEV_DEBUG_OPEN 0) 1 ++ leBytes (s.rd F.RTP_DBG_SCOPE 0) 1 ++ leBytes 0 1 ++
    leBytes s.trust.minSvn 4 ++ leBytes s.trust.debugEpoch 4 ++ leBytes 0 4 ++ fitBytes 48 (s.trust.ownerMeas.getD [])

/-- Index 7 (R598). -/
def State.hardwareState (s : State) : List Byte :=
  leBytes 0xB0 1 ++ leBytes (s.wordOf [F.RTE_DCFG_DEV_VALID, F.RTE_DCFG_DEV_ID] 0) 1 ++
    leBytes (s.rd F.HIF_SPARES_CORES_D0 0 + s.rd F.HIF_SPARES_CORES_D1 0) 1 ++ leBytes 0 1 ++
    leBytes (s.rd F.FAR_PSTATUS_CAPACITY 0) 2 ++ leBytes (s.rd F.FAR_PSTATUS_CAPACITY 1) 2 ++ leBytes 0 8

def State.quotaWord (s : State) (p : Nat) : Nat :=
  s.wordOf [F.PDK_QUOTA_CTX_QUOTA_M1, F.PDK_QUOTA_FAR_PAGES, F.PDK_QUOTA_HBM_POOL_PAGES] p
def State.pextWord (s : State) (p : Nat) : Nat :=
  s.wordOf [F.FAR_PEXT_SIZE1, F.FAR_PEXT_BASE1, F.FAR_PEXT_SIZE0, F.FAR_PEXT_BASE0] p
def State.keyIdWord (s : State) (p : Nat) : Nat := s.wordOf [F.MOW_KEYID_KEYID1, F.MOW_KEYID_KEYID0] p
def State.coresWord (s : State) (p : Nat) : Nat :=
  s.wordOf [F.PDK_CORES_PHYS0, F.PDK_CORES_PHYS1, F.PDK_CORES_PHYS2, F.PDK_CORES_PHYS3, F.PDK_CORES_PHYS4, F.PDK_CORES_PHYS5,
    F.PDK_CORES_PHYS6, F.PDK_CORES_PHYS7] p
def State.rankWord (s : State) (p r : Nat) : Nat :=
  s.wordOf [F.RTE_RANK_VALID, F.RTE_RANK_DEV, F.RTE_RANK_PADDOCK, F.RTE_RANK_EPOCH] p r

/-- A mask of the numbers below `n` of which `f` holds. -/
def bitMask (n : Nat) (f : Nat → Bool) : Nat := ((List.range n).map (fun k => b2n (f k) * 2 ^ k)).sum

/-- Index 16 + p (R598). -/
def State.paddockEntry (s : State) (p : Nat) : List Byte :=
  leBytes (s.pdkState p) 1 ++ leBytes (s.role p) 1 ++ leBytes (s.rd F.PDK_STATE_GROUP_BASE p) 1 ++
    leBytes (s.rd F.PDK_STATE_GROUP_LOG2 p) 1 ++ leBytes (s.rd F.RTP_TDI_STATE_STATE (vfOf p)) 1 ++
    leBytes (bitMask 2 (fun k => s.rd F.FAR_PSTATUS_STRICT k == 1)) 1 ++
    leBytes (bitMask 12 (fun q => s.rd F.PLK_CFG_STRICT q == 1 && s.slotsOf q p != 0)) 2 ++
    leBytes (tget 0 s.rel.handovers [p]) 4 ++ leBytes (s.rd F.RTP_TDI_STATE_CFG_GEN (vfOf p)) 4 ++
    leBytes (s.quotaWord p) 8 ++ leBytes (s.pextWord p) 8 ++ leBytes (s.keyIdWord p) 8 ++ leBytes (s.coresWord p) 8 ++
    (List.range 12).flatMap (fun q => leBytes (s.slotsOf q p) 1) ++ leBytes 0 4 ++
    sha384 ((List.range 64).flatMap (fun r => leBytes (s.rankWord p r) 8)) ++ leBytes 0 16

/-- Indices 1 to 7: index, whether raw, and value. -/
def State.deviceEntries (s : State) : List (Nat × Bool × List Byte) :=
  (List.range 5).map (fun k => (k + 1, false, fitBytes 48 ((s.trust.measured[k]?).getD []))) ++
    [(6, true, s.securityState), (7, true, s.hardwareState)]

/-- An entry of a report (R599). -/
def reportEntry (e : Nat × Bool × List Byte) : List Byte :=
  leBytes e.1 1 ++ leBytes (b2n e.2.1) 1 ++ leBytes e.2.2.length 2 ++ e.2.2

/-- The bank that does not run, and the image staged in it (R616). -/
def State.spareFlash (s : State) : Nat := 1 - s.rd F.RTP_DEV_RUN_BANK 0
def State.bankOf (s : State) (b : Nat) : FwBank := tget ⟨0, [], []⟩ s.trust.banks [b]

/-- What both Alias keys sign with: they depend on the measured layers (R596). -/
def State.signKey (s : State) : List Byte := s.securityState ++ fitBytes 48 ((s.trust.measured[1]?).getD [])

/-- The signature block of R599: ECDSA P-384, ML-DSA-87 and a byte 0. -/
def State.signature (s : State) (body : List Byte) : List Byte :=
  fitBytes 96 (Config.digest useEcdsa (s.signKey ++ body)) ++ fitBytes 4627 (Config.digest useMlDsa (s.signKey ++ body)) ++ leBytes 0 1

/-- A measurement report (R599, R600) of a scope and of the entries given. -/
def State.report (s : State) (scope : Nat) (tdi : Bool) (nonce : List Byte) (es : List (Nat × Bool × List Byte)) : List Byte :=
  let entries := es.flatMap reportEntry
  let staged := s.rd F.RTP_DEV_UPDATE_STAGED 0
  let flags := staged + 2 * s.rd F.RTP_DEV_DEBUG_OPEN 0 + 4 * b2n tdi + 8 * s.rd F.RTP_DEV_FALLBACK 0
  let body := leBytes 0x524D444B 4 ++ leBytes 0x0100 2 ++ leBytes flags 2 ++ leBytes (128 + entries.length + 4724) 4 ++
    leBytes es.length 2 ++ leBytes scope 1 ++ leBytes 0 1 ++ fitBytes 32 nonce ++ fitBytes 16 s.trust.serial ++ leBytes s.now 8 ++
    leBytes (s.rd F.RTP_SVN_RUN_SVN 0) 4 ++ leBytes (s.rd F.RTP_SVN_STAGED_SVN 0) 4 ++
    fitBytes 48 (if staged = 1 then (s.bankOf s.spareFlash).digest else []) ++ entries
  body ++ s.signature body

/-- A signed report counts and is sent. -/
def State.sendReport (s : State) (c : Chan) (scope : Nat) (tdi : Bool) (nonce : List Byte) (es : List (Nat × Bool × List Byte)) : State :=
  (s.answer c "REPORT" [scope] (s.report scope tdi nonce es)).bump F.RTP_REPORTS_COUNT 0

/-- GET_REPORT (R599, R600, R604): of the device, or of the TDI of VF `scope`. -/
def execGetReport (c : Chan) (scope : Nat) (nonce : List Byte) (s : State) : Host.Outcome State Fault Refusal :=
  .next (s.inSession c (fun s =>
    if scope = 0xFF then
      match s.boundOf c with
      | some (_ + 1) => s.refuse c
      | b =>
        let all := decide (b = some 0) || decide (c.transport.val = 1)
        s.sendReport c 0xFF false nonce (s.deviceEntries ++
          (if all then (List.range 16).map (fun p => (16 + p, true, s.paddockEntry p)) else []))
    else if 1 ≤ scope ∧ scope ≤ 16 then
      let send (s : State) : State :=
        s.sendReport c scope true nonce (s.deviceEntries ++ [(15 + scope, true, s.paddockEntry (pdkOf scope))])
      if s.notReady scope then s.answerNotReady c scope
      else if c.transport.val ≠ 0 then send s
      else match s.bindTo c scope with
        | some t => send t
        | none => s.refuse c
    else s.refuse c))

/-- A measurement block of SPDM (PRESUMED: DMTF's layout; log entry 39). -/
def spdmBlock (e : Nat × Bool × List Byte) : List Byte :=
  leBytes e.1 1 ++ leBytes 1 1 ++ leBytes (e.2.2.length + 3) 2 ++ leBytes (if e.2.1 then 0x80 else 0) 1 ++ leBytes e.2.2.length 2 ++ e.2.2

/-- GET_MEASUREMENTS (R601): indices 1 to 7, signed with the slot 0 Alias key. -/
def execGetMeasurements (c : Chan) (nonce : List Byte) (s : State) : Host.Outcome State Fault Refusal :=
  if s.rotUp c.transport.val = false then .next s
  else
    let blocks := s.deviceEntries.flatMap spdmBlock
    .next (s.answer c "MEASUREMENTS" [7] (blocks ++ fitBytes 96 (Config.digest useBlocks (s.signKey ++ fitBytes 32 nonce ++ blocks))))

/-! ### IDE keys (R605) -/

def ideKey (index sub dir set : Nat) : Key := [index, sub, dir, set]
/-- The key set in use of a sub-stream plus one; 0 when none is. -/
def State.ideUse (s : State) (index sub dir : Nat) : Nat := tget 0 s.trust.ideSet [index, sub, dir]
/-- A stream is secure in a direction when each of its three sub-streams uses a key set (DEDUCED: log entry 40). -/
def State.ideSecure (s : State) (index dir : Nat) : Bool := (List.range 3).all (fun sub => s.ideUse index sub dir != 0)

/-- The registers that show a stream: RTP_TDI_IDE of a VF, and HIF_LINK for the link stream. -/
def State.showIde (s : State) (index : Nat) : State :=
  if index = 0 then s.wr F.HIF_LINK_LINK_IDE 0 (b2n (s.ideSecure 0 0 && s.ideSecure 0 1))
  else if index = 1 then s
  else
    let n := index - 1
    let s := (s.wr F.RTP_TDI_IDE_RX_SECURE n (b2n (s.ideSecure index 0))).wr F.RTP_TDI_IDE_TX_SECURE n (b2n (s.ideSecure index 1))
    (s.wr F.RTP_TDI_IDE_KEYSET_RX n (s.ideUse index 0 0 - 1)).wr F.RTP_TDI_IDE_KEYSET_TX n (s.ideUse index 0 1 - 1)

/-- The function that an IDE_KM port index binds to (R604). -/
def ideFn (index : Nat) : Nat := index - 1

/-- KEY_PROG: writes a key set that is not in use. -/
def execKeyProg (c : Chan) (index : Fin 18) (sub : Fin 3) (dir set : Fin 2) (key : List Byte) (s : State) :
    Host.Outcome State Fault Refusal :=
  .next (s.bound c (ideFn index.val) (fun s =>
    if s.ideUse index.val sub.val dir.val = set.val + 1 then s.answer c "KP_ACK" [index.val, 4] []
    else
      let s : State := { s with trust := { s.trust with
        ideKeys := tset none s.trust.ideKeys (ideKey index.val sub.val dir.val set.val) (some key) } }
      s.answer c "KP_ACK" [index.val, 0] []))

/-- K_SET_GO: the stream uses the set from now on; a set that holds no key is refused. -/
def execKSetGo (c : Chan) (index : Fin 18) (sub : Fin 3) (dir set : Fin 2) (s : State) : Host.Outcome State Fault Refusal :=
  .next (s.bound c (ideFn index.val) (fun s =>
    if (tget none s.trust.ideKeys (ideKey index.val sub.val dir.val set.val)).isNone then s.answer c "K_GOSTOP_ACK" [index.val, 4] []
    else
      let s : State := { s with trust := { s.trust with
        ideSet := tset 0 s.trust.ideSet [index.val, sub.val, dir.val] (set.val + 1) } }
      (s.showIde index.val).answer c "K_GOSTOP_ACK" [index.val, 0] []))

/-- K_SET_STOP: retires the set that is not in use; the set in use is refused (DESIGN CHOICE: log entry 40). -/
def execKSetStop (c : Chan) (index : Fin 18) (sub : Fin 3) (dir set : Fin 2) (s : State) : Host.Outcome State Fault Refusal :=
  .next (s.bound c (ideFn index.val) (fun s =>
    if s.ideUse index.val sub.val dir.val = set.val + 1 then s.answer c "K_GOSTOP_ACK" [index.val, 4] []
    else
      let s : State := { s with trust := { s.trust with
        ideKeys := tset none s.trust.ideKeys (ideKey index.val sub.val dir.val set.val) none } }
      s.answer c "K_GOSTOP_ACK" [index.val, 0] []))

/-- IDE_INTEGRITY_FAIL (R605, R611): a selective stream that is secure goes insecure and loses its keys (PRESUMED: PCIe IDE; log
entry 40). -/
def execIdeIntegrityFail (fn : Fin 17) (s : State) : Host.Outcome State Fault Refusal :=
  let index := fn.val + 1
  if s.ideSecure index 0 = false ∧ s.ideSecure index 1 = false then .next s
  else
    let mine (k : Key) : Bool := k.head? == some index
    let s : State := { s with trust := { s.trust with
      ideKeys := tclear mine s.trust.ideKeys
      ideSet := tclear mine s.trust.ideSet } }
    let s := s.showIde index
    .next (if fn.val = 0 then s else (s.bump F.RTP_IDE_FAIL_COUNT fn.val).tdiError fn.val 5)

/-! ### TDISP (R606 to R614) -/

def tdiUnlocked : Nat := 0
def tdiConfigLocked : Nat := 1
def tdiRun : Nat := 2
def tdiInError : Nat := 3
def State.tdiState (s : State) (n : Nat) : Nat := s.rd F.RTP_TDI_STATE_STATE n

/-- Conditions 2 to 6 of R607; the session of condition 1 is the frame's. -/
def State.lockable (s : State) (n : Nat) : Bool :=
  let index := n + 1
  s.tdiState n == tdiUnlocked && s.pdkState (pdkOf n) == pdkAssigned && !(tget false s.host.freshEnable [n]) &&
    s.rd F.RTP_DEV_DEBUG_OPEN 0 == 0 && s.ideSecure index 0 && s.ideSecure index 1 && (s.cfgOf n).memSpace && (s.cfgOf n).bar0 != 0

/-- A dump configuration goes, and SWD_CFG, SWD_BUF and SWD_BYTES show it (R647, R654). -/
def State.clearDumpCfg (s : State) (p : Nat) : State :=
  let s : State := { s with dumpCfgs := tset none s.dumpCfgs [p] none }
  let s := ((s.wr F.SWD_CFG_VALID p 0).wr F.SWD_CFG_AUTO p 0).wr F.SWD_CFG_BY_PF p 0
  (s.wr F.SWD_BUF_POINTER p 0).wr F.SWD_BYTES_BYTES p 0

/-- LOCK_INTERFACE_REQUEST (R607, R608, R614, R647): the answer carries the nonce of START. -/
def execLockInterfaceRequest (c : Chan) (p : Fin 16) (s : State) : Host.Outcome State Fault Refusal :=
  let n := vfOf p.val
  .next (s.tdisp c n (fun s =>
    if s.lockable n = false then s.answer c "TDISP_ERROR" [n] []
    else
      let s := (s.wr F.RTP_TDI_STATE_STATE n tdiConfigLocked).wr F.RTP_TDI_STATE_CFG_GEN n 0
      let s := if (tget none s.dumpCfgs [p.val]).any (fun g => g.byPf) then s.clearDumpCfg p.val else s
      let (nonce, s) := s.random 32
      let s : State := { s with trust := { s.trust with nonces := tset [] s.trust.nonces [n] nonce } }
      s.answer c "LOCK_INTERFACE_RESPONSE" [n] nonce))

/-- The identity of device `d` as R609 reports it. -/
def State.deviceDigest (s : State) (d : Nat) : List Byte :=
  if s.rd F.RTE_DCFG_DEV_VALID 0 = 1 ∧ d = s.devId then fitBytes 24 s.identityDigest
  else match (List.range 12).find? (fun q => s.portActive q && s.rd F.PLK_STATE_PEER_VALID q == 1 && s.rd F.PLK_STATE_PEER_DEV q == d) with
    | some q => fitBytes 24 (s.portOf q).digest
    | none => leBytes 0 24

/-- Record r of the interface report (R609). -/
def State.rankRecord (s : State) (p r : Nat) : List Byte :=
  let d := s.rd F.RTE_RANK_DEV p r
  leBytes (s.rd F.RTE_RANK_VALID p r) 1 ++ leBytes d 1 ++ leBytes (s.rd F.RTE_RANK_PADDOCK p r) 1 ++ leBytes 0 1 ++
    leBytes (s.rd F.RTE_RANK_EPOCH p r) 2 ++ leBytes 0 2 ++ (if s.rd F.RTE_RANK_VALID p r = 1 then s.deviceDigest d else leBytes 0 24)

/-- GET_DEVICE_INTERFACE_REPORT (R609): one MMIO range of 512 KiB, and the rank records. TDISP gives a report in CONFIG_LOCKED and RUN
(PRESUMED: log entry 41). -/
def execGetDeviceInterfaceReport (c : Chan) (p : Fin 16) (s : State) : Host.Outcome State Fault Refusal :=
  let n := vfOf p.val
  .next (s.tdisp c n (fun s =>
    if s.tdiLocked p.val = false then s.answer c "TDISP_ERROR" [n] []
    else s.answer c "DEVICE_INTERFACE_REPORT" [n, 1, (s.cfgOf n).bar0, 0x80000] ((List.range 64).flatMap (fun r => s.rankRecord p.val r))))

/-- START_INTERFACE_REQUEST (R610): the nonce of the lock response moves the TDI to RUN, and serves once (PRESUMED: TDISP; log
entry 41). -/
def execStartInterfaceRequest (c : Chan) (p : Fin 16) (nonce : List Byte) (s : State) : Host.Outcome State Fault Refusal :=
  let n := vfOf p.val
  .next (s.tdisp c n (fun s =>
    if s.tdiState n ≠ tdiConfigLocked ∨ tget [] s.trust.nonces [n] ≠ nonce ∨ nonce = [] then s.answer c "TDISP_ERROR" [n] []
    else
      let s : State := { s with trust := { s.trust with nonces := tset [] s.trust.nonces [n] [] } }
      (s.wr F.RTP_TDI_STATE_STATE n tdiRun).answer c "START_INTERFACE_RESPONSE" [n] []))

/-- STOP_INTERFACE_REQUEST (R612): a VF FLR; the answer comes when the handover ends, at once where none starts. -/
def execStopInterfaceRequest (c : Chan) (p : Fin 16) (s : State) : Host.Outcome State Fault Refusal :=
  let n := vfOf p.val
  .next (s.tdisp c n (fun s =>
    if s.tdiState n = tdiUnlocked then s.answer c "TDISP_ERROR" [n] []
    else
      let s := s.vfFlr p.val
      let s : State := { s with trust := { s.trust with stopping := tset false s.trust.stopping [n] true } }
      if s.notReady n then s else s.endStop p.val))

/-- TDI_CONFIG_WRITE (R608). -/
def execTdiConfigWrite (fn : Fin 17) (item : CfgItem) (v : Nat) (s : State) : Host.Outcome State Fault Refusal :=
  .next (s.configWrite fn.val item v)

/-! ### Firmware (R615 to R617) -/

/-- A component entry of an image: index, offset, bytes, and its reserved fields. -/
def fwComp (b : List Byte) (k : Nat) : Nat × Nat × Nat × Nat :=
  let o := 0x20 + 16 * k
  (fieldAt b o 1, fieldAt b (o + 4) 4, fieldAt b (o + 8) 4, fieldAt b (o + 1) 3 + fieldAt b (o + 12) 4)
def fwData (b : List Byte) (k : Nat) : List Byte := (b.drop (fwComp b k).2.1).take (fwComp b k).2.2.1

/-- The layout of R615. -/
def fwLayoutOk (b : List Byte) (bytes : Nat) : Bool :=
  let ks := List.range 4
  b.length == bytes && bytes % 64 == 0 && decide (bytes ≤ 0x2000000) && decide (0x100 + 4724 ≤ bytes) && fieldAt b 0 4 == 0x5746444B &&
    fieldAt b 4 2 == 0x0100 && fieldAt b 6 2 == 4 && fieldAt b 8 4 == bytes && fieldAt b 0x18 8 == 0 && fieldAt b 0x60 160 == 0 &&
    fieldAt b (bytes - 1) 1 == 0 && [2, 3, 4, 5].all (fun x => ks.any (fun k => (fwComp b k).1 == x)) &&
    ks.all (fun k =>
      let e := fwComp b k
      e.2.2.2 == 0 && e.2.1 % 64 == 0 && decide (0x100 ≤ e.2.1) && decide (e.2.1 + e.2.2.1 ≤ bytes - 4724) &&
        ks.all (fun j => j == k || !rangesMeet e.2.1 e.2.2.1 (fwComp b j).2.1 (fwComp b j).2.2.1))

/-- A read of host memory by a command of PF 0 that fails (R471): recorded, and the command completes with 0x0414. -/
def State.hostFailed (s : State) (h : Hdr) (ptr : Nat) : State :=
  let fn := h.fn.val
  let w := s.windowOf fn (ptrWindow ptr)
  let s := ((s.hifErr fn 3 (ptrWindow ptr) 0x414 (w.base + ptrHostOff ptr)).bump F.HIF_HOST_ERR_COUNT fn).emit (.aer fn false)
  s.complete h 0x414

/-- Whether a command of group 7 waits for the root of trust: an FW_ACTIVATE restarts it (R594, R617). -/
def State.rotBusy (s : State) (h : Hdr) (op : Nat) : Bool :=
  s.callStatus h op == 0 && s.taken.any (fun t => !t.is h && t.op == opFwActivate && t.phase == .executing)

/-- Checks of FW_STAGE before the image is read (R489, R616, R626). -/
def State.fwStageStatus (s : State) (h : Hdr) (image bytes flags : Nat) : Nat :=
  let discard := hasBit flags 0
  firstStatus [failIf (decide (1 < flags) || (discard && (image != 0 || bytes != 0))) 0x2D0,
    failIf (!discard && ptrTag image != 1) 0x401,
    failIf (!discard && (image % 64 != 0 || bytes % 64 != 0 || decide (0x2000000 < bytes) || bytes == 0)) 0x2D0,
    (if discard then 0 else s.checkPtr h.fn.val 0 image bytes false),
    failIf (s.taken.any (fun t => !t.is h && t.op == opFwStage && t.phase == .executing)) 0x729]

/-- The staged image goes (R616). -/
def State.unstage (s : State) : State :=
  let s : State := { s with trust := { s.trust with staged := false } }
  (s.wr F.RTP_DEV_UPDATE_STAGED 0 0).wr F.RTP_SVN_STAGED_SVN 0 0

/-- FW_STAGE (R616): an image that passes is written to the bank that does not run; the command keeps its SVN and digests until the
flash write ends. The image staged before is lost when the write starts (R691; log entry 37). -/
def execFwStage (h : Hdr) (image bytes flags : Nat) (data : Fetched) (s : State) : Host.Outcome State Fault Refusal :=
  let cmd : Instr := .fwStage h image bytes flags data
  if s.rotBusy h opFwStage then .next s
  else
    .next (s.checked h opFwStage (s.fwStageStatus h image bytes flags) (fun s =>
      if hasBit flags 0 then ((s.start h opFwStage (some cmd)).unstage).complete h 0
      else s.gate h opFwStage cmd [⟨image, bytes, false⟩] (fun s =>
        let s := s.countRead h.fn.val 0 image bytes
        match data with
        | .hostError => s.hostFailed h image
        | .poison => s.hostFailed h image
        | .ok b =>
          let svn := fieldAt b 0xC 4
          let st := firstStatus [failIf (!fwLayoutOk b bytes) 0x2D0, failIf (!Config.verifies useFirmware b) 0x721,
            failIf (decide (svn < s.trust.minSvn)) 0x722]
          if st ≠ 0 then s.complete h st
          else
            let part (x : Nat) : Nat :=
              leNat (sha384 (((List.range 4).find? (fun k => (fwComp b k).1 == x)).elim [] (fun k => fwData b k)))
            (s.unstage).setProg h [svn, leNat (sha384 b), part 2, part 3, part 4, part 5])))

/-- FW_STAGE_COMPLETE (R616): the image is staged. -/
def execFwStageComplete (h : Hdr) (s : State) : Host.Outcome State Fault Refusal :=
  if s.executing h opFwStage = false ∨ (s.progOf h).length ≠ 6 then .next s
  else
    let g := s.progOf h
    let digest (k : Nat) : List Byte := leBytes (nth g k) 48
    let bank : FwBank := ⟨nth g 0, [digest 2, digest 3, digest 4, digest 5], digest 1⟩
    let s : State := { s with trust := { s.trust with
      banks := tset ⟨0, [], []⟩ s.trust.banks [s.spareFlash] bank
      staged := true } }
    let s := (s.wr F.RTP_DEV_UPDATE_STAGED 0 1).wr F.RTP_SVN_STAGED_SVN 0 bank.svn
    .next ((s.complete h 0 (bank.svn * 2 ^ 16)).event 0 0x52 0 (detailAt 0x10 (bank.svn % 2 ^ 32)))

/-- Conditions of R617. -/
def State.fwActivateStatus (s : State) (flags : Nat) : Nat :=
  firstStatus [failIf (decide (1 < flags)) 0x201, failIf (!s.trust.staged) 0x723,
    failIf ((List.range 16).any (fun p => s.tdiState (vfOf p) == tdiRun)) 0x724,
    failIf ((List.range 16).any (fun p => s.pdkState p == pdkActive || s.pdkState p == pdkHandover)) 0x725,
    failIf (hasBit flags 0 && s.trust.commitsLeft == 0) 0x722]

/-- FW_ACTIVATE (R617), steps 1 to 3; the restart ends at FW_ACTIVATE_RESTART_DONE. Fusing the value that MIN_SVN holds is no raise. -/
def execFwActivate (h : Hdr) (flags : Nat) (s : State) : Host.Outcome State Fault Refusal :=
  if s.rotBusy h opFwActivate then .next s
  else
    .next (s.checked h opFwActivate (s.fwActivateStatus flags) (fun s =>
      let s := s.start h opFwActivate (some (.fwActivate h flags)) [s.now]
      let s := loopN 16 (fun p s => if s.tdiState (vfOf p) = tdiConfigLocked then s.tdiError (vfOf p) 4 else s) s
      let s := s.endSessions
      let b := s.spareFlash
      let svn := (s.bankOf b).svn
      let raise := hasBit flags 0 && decide (s.trust.minSvn < svn)
      { s with trust := { s.trust with
        active := b
        staged := false
        minSvn := if raise then svn else s.trust.minSvn
        commitsLeft := if raise then s.trust.commitsLeft - 1 else s.trust.commitsLeft } }))

/-- FW_ACTIVATE_RESTART_DONE (R595, R596, R617). -/
def execFwActivateRestartDone (h : Hdr) (bad : List (Fin 2)) (s : State) : Host.Outcome State Fault Refusal :=
  if s.executing h opFwActivate = false then .next s
  else
    let ms := (s.now - nth (s.progOf h) 0) / 1000000
    let s := s.boot (bad.map (fun k => k.val))
    let svn := s.rd F.RTP_SVN_RUN_SVN 0
    let d := detailAt 0x10 svn
    let s := (s.complete h 0 (svn * 2 ^ 16 + ms % 2 ^ 32 * 2 ^ 64)).event 0 0x53 0 d
    .next (loopN 16 (fun p s =>
      if s.pdkState p = pdkAssigned ∨ s.pdkState p = pdkActive ∨ s.pdkState p = pdkQuiesced then s.event (vfOf p) 0x53 0 d else s) s)

/-! ### Out of band (R618, R619) -/

/-- The frame of a vendor-defined MCTP request: it needs an established out-of-band session. -/
def State.outOfBand (s : State) (c : Chan) (go : State → State) : State :=
  s.inSession c (fun s => if c.transport.val = 1 then go s else s.answer c "ERROR UnsupportedRequest" [] [])

def State.devWord (s : State) : Nat :=
  s.wordOf [F.RTP_DEV_SESSIONS, F.RTP_DEV_KILLED, F.RTP_DEV_LIFECYCLE, F.RTP_DEV_DEBUG_OPEN, F.RTP_DEV_OWNER_SET, F.RTP_DEV_UPDATE_STAGED,
    F.RTP_DEV_RUN_BANK, F.RTP_DEV_FALLBACK] 0
def State.pdkWord (s : State) (p : Nat) : Nat :=
  s.wordOf [F.PDK_STATE_GROUP_LOG2, F.PDK_STATE_GROUP_BASE, F.PDK_STATE_DUMPED, F.PDK_STATE_HANDOVER_LATE, F.PDK_STATE_SPARE_SHORT,
    F.PDK_STATE_ROLE, F.PDK_STATE_STATE] p

/-- GET_HEALTH: RTP_DEV, every PDK_STATE, and the fatal state (FATAL, LAST_CAUSE, UNIT, time). -/
def execGetHealth (c : Chan) (s : State) : Host.Outcome State Fault Refusal :=
  .next (s.outOfBand c (fun s =>
    s.answer c "HEALTH" ([s.devWord] ++ (List.range 16).map (fun p => s.pdkWord p) ++
      [s.rd F.HIF_FATAL_FATAL 0, s.rd F.HIF_FATAL_LAST_CAUSE 0, s.rd F.HIF_FATAL_UNIT 0, s.rd F.HIF_FATAL_TIME_TIME 0]) []))

/-- PADDOCK_STOP: ABORT and then QUIESCE as if issued on PF 0's PQ (R496 to R498). -/
def execPaddockStop (c : Chan) (p : Fin 16) (scope : Fin 2) (quiesce : Bool) (s : State) : Host.Outcome State Fault Refusal :=
  .next (s.outOfBand c (fun s =>
    if s.stoppable p.val = false then s.answer c "PADDOCK_STOP" [0x301] []
    else
      let s := if scope.val = 0 then s.abort p.val 0x607 else (s.abortScope1 p.val).1
      let s := if quiesce then s.quiesce p.val else s
      s.answer c "PADDOCK_STOP" [0] []))

/-- MODULE_KILL (R619). -/
def execModuleKill (c : Chan) (s : State) : Host.Outcome State Fault Refusal :=
  .next (s.outOfBand c (fun s => s.kill.answer c "MODULE_KILL" [0] []))

/-- OWNER_PROVISION: fuses the digest once. -/
def execOwnerProvision (c : Chan) (value : List Byte) (s : State) : Host.Outcome State Fault Refusal :=
  .next (s.outOfBand c (fun s =>
    if s.trust.owner.isSome ∨ value.length ≠ 48 then s.answer c "OWNER_PROVISION" [1] []
    else
      let s : State := { s with trust := { s.trust with owner := some value } }
      (s.wr F.RTP_DEV_OWNER_SET 0 1).answer c "OWNER_PROVISION" [0] []))

/-! ### Field debug (R621 to R625) -/

/-- The challenge (R622). -/
def State.challengeBytes (s : State) (nonce : List Byte) (expiry : Nat) : List Byte :=
  nonce ++ fitBytes 16 s.trust.serial ++ leBytes s.trust.debugEpoch 4 ++ leBytes (s.rd F.RTP_SVN_RUN_SVN 0) 4 ++ leBytes expiry 8

/-- DEBUG_CHALLENGE (R622): a new challenge replaces the one before. -/
def execDebugChallenge (h : Hdr) (out : Nat) (s : State) : Host.Outcome State Fault Refusal :=
  if s.rotBusy h opDebugChallenge then .next s
  else
    .next (s.checked h opDebugChallenge
      (firstStatus [failIf (ptrTag out != 1) 0x401, failIf (out % 64 != 0) 0x201, s.checkPtr h.fn.val 0 out 64 true]) (fun s =>
      s.gate h opDebugChallenge (.debugChallenge h out) [⟨out, 64, true⟩] (fun s =>
        let (nonce, s) := s.random 32
        let expiry := s.now + 600000000000
        let s : State := { s with trust := { s.trust with challenge := some (nonce, expiry) } }
        ((s.wr F.RTP_DBG_CHALLENGE 0 1).ptrWrite h.fn.val 0 out (s.challengeBytes nonce expiry)).complete h 0)))

/-- The challenge is no longer outstanding. -/
def State.dropChallenge (s : State) : State :=
  ({ s with trust := { s.trust with challenge := none } } : State).wr F.RTP_DBG_CHALLENGE 0 0

/-- DEBUG_CHALLENGE_EXPIRY (R622). -/
def execDebugChallengeExpiry (s : State) : Host.Outcome State Fault Refusal :=
  match s.trust.challenge with
  | some (_, e) => .next (if e ≤ s.now then s.dropChallenge else s)
  | none => .next s

/-- The layout of a debug token of a kind (R623), and of the owner key block. -/
def tokenOk (b : List Byte) (kind : Nat) : Bool :=
  b.length == 4800 && fieldAt b 0 4 == 0x4B544244 && fieldAt b 4 1 == kind && decide (fieldAt b 5 1 < 8) && fieldAt b 6 2 == 0 &&
    fieldAt b 0x3C 4 == 0 && fieldAt b 0x12B3 13 == 0
def ownerKeysOk (b : List Byte) : Bool := b.length == 2689 && fieldAt b 0 1 == 4

/-- Check 4 of R624 on one token: what it names, and both its signatures; `keys` are the owner's public keys, none for Kindaoft's. -/
def State.tokenFits (s : State) (b nonce keys : List Byte) (scope : Nat) : Bool :=
  fieldAt b 5 1 == scope && decide ((b.drop 8).take 32 = nonce) && decide ((b.drop 0x28).take 16 = fitBytes 16 s.trust.serial) &&
    fieldAt b 0x38 4 == s.trust.debugEpoch && Config.verifies useToken (keys ++ sha384 (b.take 0x40) ++ (b.drop 0x40).take 96) &&
    Config.verifies (useToken + 1) (keys ++ b.take 0x40 ++ (b.drop 0xA0).take 4627)

/-- The checks of R624 on tokens and keys that were read. -/
def State.debugStatus (s : State) (scope : Nat) (k o keys : List Byte) : Nat :=
  let nonce := (s.trust.challenge.map (fun x => x.1)).getD []
  firstStatus [failIf (decide (7 < scope) || !tokenOk k 0 || !tokenOk o 1 || !ownerKeysOk keys) 0x2D1,
    failIf (!s.trust.challenge.any (fun x => decide (s.now < x.2))) 0x726,
    failIf s.trust.owner.isNone 0x728,
    failIf (!(s.tokenFits k nonce [] scope && s.tokenFits o nonce keys scope && decide (some (sha384 keys) = s.trust.owner))) 0x727]

/-- The failure of a DEBUG_RESPONSE consumes the challenge and is recorded. -/
def State.debugFailed (s : State) (status : Nat) : State := s.dropChallenge.wr F.RTP_DBG_LAST_STATUS 0 status

/-- The success of a DEBUG_RESPONSE (R624): no record is written. -/
def State.openDebug (s : State) (scope : Nat) : State :=
  let e := s.trust.debugEpoch + 1
  let s := s.dropChallenge
  let s : State := { s with trust := { s.trust with debugEpoch := e, opening := some scope } }
  let s := (s.wr F.RTP_DBG_DEBUG_EPOCH 0 e).wr F.RTP_DBG_SCOPE 0 scope
  ((s.wr F.RTP_DEV_DEBUG_OPEN 0 1).cutLinks).deviceReset 2

/-- DEBUG_RESPONSE (R623, R624). -/
def execDebugResponse (h : Hdr) (scope tokenK tokenO ownerKeys : Nat) (k o keys : Fetched) (s : State) :
    Host.Outcome State Fault Refusal :=
  let fn := h.fn.val
  let ptrs := [tokenK, tokenO, ownerKeys]
  if s.rotBusy h opDebugResponse then .next s
  else
    .next (s.checked h opDebugResponse
      (firstStatus [failIf (ptrs.any (fun x => ptrTag x != 1)) 0x401, failIf (ptrs.any (fun x => x % 64 != 0)) 0x2D1,
        s.checkPtr fn 0 tokenK 4800 false, s.checkPtr fn 0 tokenO 4800 false, s.ptrStatus fn 0 ownerKeys 2689 false]) (fun s =>
      s.gate h opDebugResponse (.debugResponse h scope tokenK tokenO ownerKeys k o keys)
        [⟨tokenK, 4800, false⟩, ⟨tokenO, 4800, false⟩, ⟨ownerKeys, 2689, false⟩] (fun s =>
        match k, o, keys with
        | .ok k, .ok o, .ok keys =>
          let st := s.debugStatus scope k o keys
          if st ≠ 0 then (s.debugFailed st).complete h st else s.openDebug scope
        | .ok _, .ok _, _ => (s.debugFailed 0x414).hostFailed h ownerKeys
        | .ok _, _, _ => (s.debugFailed 0x414).hostFailed h tokenO
        | _, _, _ => (s.debugFailed 0x414).hostFailed h tokenK)))

/-- DEBUG_ZEROISE_DONE (R624): every paddock is FREE, the reserved regions hold zeros, and the debug ports open. -/
def execDebugZeroiseDone (s : State) : Host.Outcome State Fault Refusal :=
  if s.trust.opening.isNone ∨ (List.range 16).any (fun p => s.pdkState p != pdkFree) = true then .next s
  else
    let s := loopN 16 (fun p s => s.zeroHbm (dpaOf p localEnd) (0x600000000 - localEnd)) s
    .next { s with trust := { s.trust with opening := none } }

end Sys2Proof.Machine
end

