-- ==== Sys2Proof/Machine/Sward.lean ====
section
/-! DEFINITION. Counters and Sward dumps (chapter 21): snapshots, COUNTER_READ, the freeze of a paddock, the records of a dump, and the
dump configuration. -/

namespace Sys2Proof.Machine

def opCounterRead : Nat := 0x50
def opHaltDump : Nat := 0x51
def opDumpConfig : Nat := 0x52

/-- A register of a block as a number: the fields at its offset in their places. -/
def State.regWord (s : State) (b : Blk) (off i : Nat) (k : Nat := 0) : Nat :=
  (((fldsOf b).filter (fun f => f.off == off && f.acc != .wo)).map (fun f =>
    ((List.range f.fcount).map (fun j => s.rd f i (k * f.fcount + j) * 2 ^ (f.lo + f.fstride * j))).sum)).sum

/-! ### Counters (R634, R635, R650) -/

/-- CNT_SNAP_TAKE (R635): a write of 1 to TAKE in the function's own block. -/
def execCntSnapTake (fn : Fin 17) (s : State) : Host.Outcome State Fault Refusal :=
  let f := fn.val
  if f = 0 then
    let s := loopN 8 (fun k s =>
      (s.wr F.CNT_DSNAP_COUNT 0 (s.devCounter k).1 k).wr F.CNT_DSNAP_OVF 0 (s.devCounter k).2 k) s
    .next (((s.wr F.CNT_DSNAP_TIME_TIME 0 s.now).wr F.CNT_DSNAP_TICK_TICK 0 0).wr F.CNT_DSNAP_CTL_VALID 0 1)
  else if s.barClosed f then .next s
  else
    let p := pdkOf f
    let s := loopN 32 (fun k s =>
      (s.wr F.CNT_SNAP_COUNT p (s.pdkCounter p k).1 k).wr F.CNT_SNAP_OVF p (s.pdkCounter p k).2 k) s
    .next (((s.wr F.CNT_SNAP_TIME_TIME p s.now).wr F.CNT_SNAP_TICK_TICK p (s.tickOf (8 * p))).wr F.CNT_SNAP_CTL_VALID p 1)

/-- The output of COUNTER_READ (R650). -/
def State.counterBytes (s : State) (p set : Nat) : List Byte :=
  let cs := if set = 0 then (List.range 32).map (s.pdkCounter p) else (List.range 8).map s.devCounter
  let head := leBytes s.now 8 ++ leBytes (if set = 0 then s.tickOf (8 * p) else 0) 8 ++ leBytes set 1 ++
    leBytes (if set = 0 then p else 0) 1 ++ leBytes cs.length 2 ++ leBytes 0 12
  fitBytes (if set = 0 then 320 else 128) (head ++ cs.flatMap (fun c => leBytes (counterWord c) 8))

/-- COUNTER_READ. -/
def execCounterRead (h : Hdr) (set out : Nat) (s : State) : Host.Outcome State Fault Refusal :=
  let fn := h.fn.val
  let p := paddockOf h
  let n := if set = 0 then 320 else 128
  .next (s.checked h opCounterRead
    (firstStatus [failIf (decide (1 < set) || (set == 1 && fn != 0)) 0x2B0, failIf (ptrTag out != 1) 0x401, failIf (out % 64 != 0) 0x2B0,
      s.checkPtr fn p out n true, failIf (fn == 0 && set == 0 && s.tdiLocked p) 0x720]) (fun s =>
    s.gate h opCounterRead (.counterRead h set out) [⟨out, n, true⟩] (fun s =>
      (s.ptrWrite fn p out (s.counterBytes p set)).complete h 0 ((if set = 0 then 32 else 8) * 2 ^ 16))))

/-! ### The buffer (R646) -/

/-- Smallest dump buffer. -/
def dumpMin : Nat := 100288

/-- Whether a buffer of function `fn` meets R646. -/
def State.bufferOk (s : State) (fn ptr bytes : Nat) : Bool :=
  let w := s.windowOf fn (ptrWindow ptr)
  ptrTag ptr == 1 && decide (dumpMin ≤ bytes) && ptr % 64 == 0 && w.valid && w.write && decide (ptrHostOff ptr + bytes ≤ w.size) &&
    (fn == 0 || w.pin)

/-- Storing a dump configuration, which SWD_CFG, SWD_BUF and SWD_BYTES show (R654). -/
def State.setDumpCfg (s : State) (p : Nat) (g : DumpCfg) : State :=
  let s : State := { s with dumpCfgs := tset none s.dumpCfgs [p] (some g) }
  let s := ((s.wr F.SWD_CFG_VALID p 1).wr F.SWD_CFG_AUTO p (b2n g.auto)).wr F.SWD_CFG_BY_PF p (b2n g.byPf)
  (s.wr F.SWD_BUF_POINTER p g.ptr).wr F.SWD_BYTES_BYTES p g.bytes

/-- DUMP_CONFIG (R646, R650); a buffer of PF 0 is translated page by page. -/
def execDumpConfig (h : Hdr) (flags buf bytes : Nat) (s : State) : Host.Outcome State Fault Refusal :=
  let fn := h.fn.val
  let p := paddockOf h
  let clear := hasBit flags 1
  let cmd : Instr := .dumpConfig h flags buf bytes
  .next (s.checked h opDumpConfig
    (firstStatus [failIf (decide (3 < flags) || (clear && (buf != 0 || bytes != 0))) 0x2B0,
      failIf (fn == 0 && s.tdiLocked p) 0x720, failIf (!clear && !s.bufferOk fn buf bytes) 0x2B1]) (fun s =>
    if clear then ((s.start h opDumpConfig (some cmd)).clearDumpCfg p).complete h 0
    else s.gate h opDumpConfig cmd (if fn = 0 then [⟨buf, bytes, true⟩] else []) (fun s =>
      (s.setDumpCfg p ⟨buf, bytes, hasBit flags 0, fn == 0⟩).complete h 0)))

/-! ### Triggers (R638, R639) -/

/-- HALT_DUMP: of the VF into the configured buffer, of PF 0 into its own. -/
def execHaltDump (h : Hdr) (out bytes : Nat) (s : State) : Host.Outcome State Fault Refusal :=
  let fn := h.fn.val
  let p := paddockOf h
  let g := s.dumpCfgOf p
  let ranges : List HostRange := if fn = 0 then [⟨out, bytes, true⟩] else []
  .next (s.checked h opHaltDump
    (firstStatus [failIf (fn != 0 && (out != 0 || bytes != 0)) 0x2B0, failIf (fn == 0 && s.tdiLocked p) 0x720,
      s.dumpStatus p (fn == 0 || g.isSome), failIf (fn == 0 && !s.bufferOk 0 out bytes) 0x2B1]) (fun s =>
    s.gate h opHaltDump (.haltDump h out bytes) ranges (fun s =>
      let (byPf, ptr, n) := if fn = 0 then (true, out, bytes) else (g.any (fun x => x.byPf), (g.map (fun x => x.ptr)).getD 0, (g.map (fun x => x.bytes)).getD 0)
      s.dumpTrigger p ⟨some h, byPf, ptr, n, if fn = 0 then 1 else 0, s.now, s.pstatWord p, 0xFF, 0, 0, 0, 0, [], false, []⟩)))

/-! ### Records of a core (R641, R649) -/

/-- Numbers in fields of `n` bytes each. -/
def numBytes (n : Nat) (l : List Nat) : List Byte := l.flatMap (fun v => leBytes v n)

/-- The run and words of a stream that has a next instruction: the running image's before the armed one's. -/
def State.nextOf (s : State) (c st : Nat) : Option (Run × List Nat) :=
  (s.runsOn c).findSome? (fun r => (s.wordAt c r st).map (fun ws => (r, ws)))

/-- Cause of R94 for the present clock of a core, 0 for a tick. -/
def State.cutCause (s : State) (c : Nat) : Nat :=
  let p := corePdk c
  if s.droopStall (pdkDie p) then 1 else if tget false s.bud.stalled [p] then 2 else (s.clockKind c).2

/-- FLAGS of the CORE record. -/
def State.coreFlags (s : State) (c : Nat) : Nat :=
  let r := s.runsOf (corePdk c)
  let inMask := r.running.any (fun x => (s.imageOn c x).isSome)
  let headed := r.armed.any (fun x => (s.headOf c x.side).isSome)
  b2n (s.blockOf c).isSome + 2 * s.cutCause c + 16 * b2n inMask + 32 * b2n headed

def State.corePos (s : State) (c st : Nat) : Nat :=
  ((s.nextOf c st).map (fun x => s.posAt c x.1 st)).getD 0xFFFFFFFF
def State.coreLoop (s : State) (c st : Nat) : Nat := ((s.nextOf c st).map (fun x => (s.streamOf c x.1.side st).iter)).getD 0
def State.coreNext (s : State) (c st : Nat) : Nat :=
  ((s.nextOf c st).bind (fun x => (s.dueTick c x.1 st (nth x.2 0)).map (fun t => t - s.tickOf c))).getD 0

/-- CORE. -/
def State.coreRecord (s : State) (c : Nat) : List Byte :=
  let ss := List.range 12
  fitBytes 224 (leBytes (s.regWord .SCHC 0x8 c) 8 ++ leBytes (s.regWord .SCHC 0x10 c) 4 ++ leBytes (s.coreFlags c) 4 ++
    numBytes 4 (ss.map (s.corePos c)) ++ numBytes 4 (ss.map (s.coreLoop c)) ++ numBytes 4 (ss.map (s.coreNext c)) ++
    leBytes (s.regWord .MXEC 0 c) 4 ++ leBytes (s.regWord .VEC 0 c) 4 ++ leBytes (s.regWord .ATN 0 c) 8 ++
    leBytes (s.regWord .ATN 0x10 c) 8 ++ leBytes (s.regWord .TBLC 0 c) 4 ++ leBytes (s.regWord .DRW 0x580 c) 4 ++
    leBytes (s.regWord .BUDC 0 c) 8 ++ leBytes (s.regWord .SCHC 0x80 c) 8 ++ leBytes (s.regWord .SCHC 0xA0 c) 8)

/-- SYNC. -/
def State.syncRecord (s : State) (c : Nat) : List Byte :=
  (List.range 8).flatMap (fun k => leBytes (s.regWord .SYN 0x1800 c k) 8 ++ leBytes (s.regWord .SYN 0x1840 c k) 4 ++ leBytes 0 4) ++
    (List.range 12).flatMap (fun k => leBytes (s.regWord .SYN 0x1900 c k) 8)

/-- CELLS. -/
def State.cellsRecord (s : State) (c : Nat) : List Byte :=
  (List.range 256).flatMap (fun n => leBytes (s.regWord .SYN 0x400 c n) 8 ++ leBytes (s.regWord .SYN 0xC00 c n) 8 ++
    leBytes (s.regWord .SYN 0 c n) 4 ++ leBytes 0 4)

/-- DRAWERS. -/
def State.drawersRecord (s : State) (c : Nat) : List Byte :=
  (List.range 64).flatMap (fun n => leBytes (s.regWord .DRW 0 c n) 8 ++ leBytes (s.regWord .DRW 0x200 c n) 8)

/-- Line transactions that a stream's operations hold (R389). -/
def State.linesHeld (s : State) (c st : Nat) : Nat :=
  (s.net.lines.filter (fun l => l.pdk == corePdk c && l.src == srcStream c st && l.issued)).length

/-- Rows or lines of an operation landed or acknowledged, and its size. -/
def Op.progress (o : Op) : Nat × Nat :=
  match o.kind with
  | .recv r => (r.committed, r.n)
  | .fetch f => (f.committed, f.rows.length)
  | .append a => (if a.sent then 128 - a.left else 0, 128)
  | .outb x =>
    let n := mN x.word
    let all := if wOp x.word = opcPush then n * x.dests.length
      else if x.dests = [] then (List.range n).foldl (fun a k => a + (rowPieces x.ptr k).length) 0 else n
    (all - x.acks, all)
  | _ => (0, 1)

/-- The entry of the mover of stream 4 + k. -/
def State.moverEntry (s : State) (c k : Nat) : List Byte :=
  let st := 4 + k
  let ops := s.sched.ops.filter (fun o => o.core == c && o.stream == st)
  let recvs := (ops.filter (fun o => match o.kind with
    | .recv _ => true
    | _ => false)).length
  let g := (ops.head?.map Op.progress).getD (0, 1)
  leBytes (s.outstanding c st) 1 ++ leBytes (if 4 ≤ k then s.appHeld c (k - 4) else 0) 1 ++ leBytes (if k < 4 then recvs else 0) 2 ++
    leBytes ((ops.head?.map (fun o => o.position)).getD 0xFFFFFFFF) 4 ++ leBytes (s.linesHeld c st) 4 ++
    leBytes ((ops.head?.map (fun o => o.id)).getD 0) 4 ++ leBytes g.1 2 ++ leBytes (g.2 - 1) 2 ++ leBytes 0 4 ++
    leBytes ((ops.head?.map (fun o => o.tick)).getD 0) 8

/-- MOVERS. -/
def State.moversRecord (s : State) (c : Nat) : List Byte :=
  leBytes (tget [] s.net.early [c]).length 2 ++ leBytes (s.reorderUsed c) 2 ++
    leBytes (s.sched.arrivals.filter (fun a => a.core == c)).length 4 ++ leBytes (s.linesHeld c stTE) 4 ++ leBytes (s.linesHeld c stAE) 4 ++
    leBytes 0 16 ++ (List.range 8).flatMap (s.moverEntry c)

/-- The cut of a core in its gating clock (R641). The first one also keeps the governor's charge for the BUDGET record. -/
def State.cutOf (s : State) (c : Nat) (first : Bool) : Cut :=
  ⟨coreOff c, s.tickOf c, s.now, [(0x10, s.coreRecord c), (0x11, s.syncRecord c), (0x12, s.cellsRecord c), (0x13, s.drawersRecord c),
    (0x14, s.moversRecord c)] ++ (if first then [(0x40, leBytes (s.prospect (corePdk c)) 4)] else [])⟩

/-- SWARD_CORE_GATE (R640): a core of a frozen paddock does nothing from its gating clock on. -/
def execSwardCoreGate (core : Fin 128) (s : State) : Host.Outcome State Fault Refusal :=
  let c := core.val
  let p := corePdk c
  match s.dumpOf p with
  | none => .next s
  | some d =>
    if d.captured = true ∨ d.cuts.any (fun x => x.core == coreOff c) = true then .next s
    else
      let s := s.setDump p { d with cuts := d.cuts ++ [s.cutOf c (d.cuts == [])] }
      .next { s with sched := { s.sched with gated := tset false s.sched.gated [c] true } }

/-! ### Records of no core (R642, R649) -/

/-- BUDGET. -/
def State.budgetRecord (s : State) (p prospect : Nat) : List Byte :=
  leBytes (s.regWord .BUDP 0 p) 8 ++ leBytes (s.regWord .BUDP 0x48 p) 8 ++ leBytes (s.regWord .BUDP 0x30 p) 8 ++ leBytes prospect 4 ++
    leBytes (s.rd F.BUD_DSTAT_DROOP_ACTIVE (pdkDie p)) 1 ++ leBytes (b2n (s.heldOf p != [])) 1 ++ leBytes 0 2 ++
    leBytes (s.regWord .BUDP 0x8 p) 8 ++ leBytes (s.regWord .BUDP 0x28 p) 8 ++ leBytes (s.regWord .BUDP 0x18 p) 8 ++
    leBytes (s.regWord .BUDP 0x20 p) 8

/-- A pool of a port. -/
def State.poolEntry (s : State) (q pool : Nat) : List Byte :=
  let x := s.portOf q
  let held := x.heldBytes.foldl (fun n e => match e.1 with
    | [vl, owner] => if poolOf vl owner = pool then n + e.2.length else n
    | _ => n) 0
  let queued := s.net.tx.foldl (fun n t => if t.port = q ∧ poolOf t.vl (t.owner % 16) = pool then n + t.left else n) 0
  let kept := (x.retry.filter (fun r => poolOf r.vl (r.owner % 16) == pool)).length
  leBytes (s.allotment q pool) 2 ++ leBytes held 2 ++ leBytes (x.credit pool) 2 ++ leBytes queued 2 ++ leBytes kept 2 ++ leBytes 0 6

/-- PORT: a VF-destined dump carries only the paddock's own pools. -/
def State.portRecord (s : State) (p q : Nat) (fabric : Bool) : List Byte :=
  let x := s.portOf q
  leBytes (s.regWord .PLKO 0 q) 8 ++ leBytes (s.slotsOf q p) 1 ++ leBytes (s.rd F.PLK_CFG_STRICT q) 1 ++ leBytes 0 6 ++
    [1, 2, 3, 4, 5].flatMap (fun v => s.poolEntry q (poolOf v p)) ++
    (if fabric then s.poolEntry q 0 ++ s.poolEntry q 1 ++ s.poolEntry q 2 ++ leBytes x.retry.length 2 ++ leBytes x.seqNext 2 ++
        leBytes x.ackGot 2 ++ leBytes (b2n x.nak) 1 ++ leBytes (b2n (x.replay != [])) 1
      else leBytes 0 56) ++ leBytes 0 8

/-- The ports of a dump. -/
def State.dumpPorts (s : State) (p : Nat) (fabric : Bool) : List Nat :=
  (List.range 12).filter (fun q => fabric || s.slotsOf q p != 0 || [1, 2, 3, 4, 5].any (fun v => s.allotment q (poolOf v p) != 0))

/-- Executor of an opcode: 0 S, 1 E, 2 T, 4 Q, 5 C (R493, R502). -/
def executorOf (op : Nat) : Nat :=
  if op = opQuiesce ∨ op = opAbort then 4
  else if op / 16 = 1 ∨ op = opStep ∨ op = 0x3E then 0
  else if 0x30 ≤ op ∧ op ≤ 0x3C ∧ op ≠ 0x33 then 1
  else if op / 16 = 4 then 2
  else 5

def State.ageUs (s : State) (t : Taken) : Nat := (s.now - t.since) / 1000

/-- Entry k of QUEUES: SQ pair k, the PQ and PCQ for 8, the EQ for 9. -/
def State.queueEntry (s : State) (fn k : Nat) : List Byte :=
  let cfg := if k = 9 then s.regWord .CMQF 0x248 fn else if k = 8 then s.regWord .CMQF 0x210 fn else s.regWord .CMQP 0x10 fn k
  let (a, b, c, d) := if k = 9 then (0, 0, s.rd F.CMQ_EQ_HEAD_INDEX fn, s.rd F.CMQ_EQ_TAIL_INDEX fn)
    else (s.sqHead fn k, s.sqTail fn k, s.cqHead fn k, s.cqTail fn k)
  let ts := if k = 9 then [] else s.takenIn fn k
  let phase := if k = 9 then s.rd F.CMQ_EQ_TAIL_PHASE fn else s.cqPhase fn k
  let blocker := ts.find? (fun t => t.phase == .translating || t.phase == .faultQueue || t.phase == .faultWait)
  leBytes cfg 8 ++ numBytes 2 [a, b, c, d] ++ leBytes ts.length 2 ++ leBytes phase 1 ++ leBytes (b2n (decide (k < 9) && s.sqBlocked fn k)) 1 ++
    leBytes ((blocker.map (fun t => t.h.cid)).getD 0) 2 ++ leBytes 0 2 ++ leBytes ((ts.head?.map (fun t => t.h.cid)).getD 0) 2 ++
    leBytes ((ts.head?.map (fun t => t.op)).getD 0) 1 ++ leBytes ((ts.head?.map (fun t => executorOf t.op)).getD 0xFF) 1 ++
    leBytes ((ts.head?.map s.ageUs).getD 0) 4

/-- The command that an executor works on: the oldest one taken that is not done with (R493). -/
def State.executorEntry (s : State) (fn x : Nat) : List Byte :=
  match s.taken.find? (fun t => t.h.fn.val == fn && executorOf t.op == x && !(t.op == opRun && t.phase == .executing)) with
  | some t => leBytes t.h.cid 2 ++ leBytes t.op 1 ++ leBytes t.h.q.val 1 ++ leBytes (s.ageUs t) 4
  | none => leBytes 0 3 ++ leBytes 0xFF 1 ++ leBytes 0 4

/-- QUEUES. -/
def State.queuesRecord (s : State) (fn : Nat) : List Byte :=
  (List.range 10).flatMap (s.queueEntry fn) ++ [0, 1, 2, 4].flatMap (s.executorEntry fn)

/-- An entry of FAULTS: a command in the fault queue, whose group is outstanding. -/
def State.faultEntry (s : State) (fn : Nat) (t : Taken) : List Byte :=
  let ms := s.missing fn t.pages
  let a := (ms.head?.map (fun g => g.addr)).getD 0
  let sp := ms.head?.bind (fun g => g.pasid)
  let w := ((List.range 1024).find? (fun w =>
    let x := s.windowOf fn w
    x.valid && x.space == sp && decide (x.base ≤ a) && decide (a < x.base + x.size))).getD 0
  leBytes t.h.q.val 1 ++ leBytes 1 1 ++ leBytes ms.length 2 ++ leBytes w 2 ++ leBytes t.h.cid 2 ++ leBytes a 8 ++ leBytes (sp.getD 0) 4 ++
    leBytes (nth t.prog 0) 2 ++ leBytes 0 2 ++ leBytes t.since 8

/-- FAULTS. -/
def State.faultsRecord (s : State) (fn : Nat) : List Byte :=
  let ts := s.taken.filter (fun t => t.h.fn.val == fn && t.phase == .faultQueue)
  leBytes ts.length 2 ++ leBytes (s.rd F.HIF_FQ_PARKED fn) 2 ++ leBytes (s.rd F.HIF_FQ_PRG_OUT fn) 2 ++ leBytes 0 26 ++
    ts.flatMap (s.faultEntry fn)

/-! ### The dump (R643 to R645, R648, R649) -/

/-- A record before its number: type, unit, tick, time, bytes after its header. -/
structure Rec where
  type : Nat
  unit : Nat
  tick : Nat
  time : Nat
  body : List Byte
  deriving DecidableEq, Repr

/-- A record with the header of R648. -/
def Rec.bytes (r : Rec) (seq : Nat) : List Byte :=
  leBytes r.type 2 ++ leBytes r.unit 2 ++ leBytes (32 + r.body.length) 4 ++ leBytes r.tick 8 ++ leBytes r.time 8 ++ leBytes seq 4 ++
    leBytes 0 4 ++ r.body

/-- The records of a dump but its header, in order. -/
def State.dumpRecords (s : State) (p : Nat) (d : Dump) : List Rec :=
  let fn := vfOf p
  let cutAt (i : Nat) : Option Cut := d.cuts.find? (fun c => c.core == i)
  let tick := ((cutAt 0).map (fun c => c.tick)).getD 0
  let prospect := ((d.cuts.flatMap (fun c => c.records)).find? (fun r => r.1 == 0x40)).elim 0 (fun r => leNat r.2)
  let cores := (List.range 8).flatMap (fun i => match cutAt i with
    | some c => (c.records.filter (fun r => r.1 != 0x40)).map (fun r => (⟨r.1, i, c.tick, c.time, r.2⟩ : Rec))
    | none => [])
  cores ++ [⟨0x40, 0, tick, s.now, s.budgetRecord p prospect⟩] ++
    (s.dumpPorts p d.byPf).map (fun q => ⟨0x20, q, tick, s.now, s.portRecord p q d.byPf⟩) ++
    [⟨0x30, 0, tick, s.now, s.queuesRecord fn⟩, ⟨0x31, 0, tick, s.now, s.faultsRecord fn⟩, ⟨0xFF, 0, tick, s.now, []⟩]

/-- DUMP_HEADER after its record header. -/
def State.dumpHeader (s : State) (p : Nat) (d : Dump) (rs : List Rec) (total : Nat) : List Byte :=
  let times := rs.map (fun r => r.time)
  fitBytes 96 (leBytes 0x4457534B 4 ++ leBytes 0x0100 2 ++ leBytes d.cause 1 ++ leBytes (b2n d.byPf) 1 ++ leBytes p 1 ++ leBytes (s.role p) 1 ++
    leBytes (s.rd F.PDK_STATE_GROUP_BASE p) 1 ++ leBytes (s.rd F.PDK_STATE_GROUP_LOG2 p) 1 ++ leBytes (rs.length + 1) 4 ++ leBytes total 4 ++
    leBytes d.pstat 4 ++ leBytes d.time 8 ++ leBytes (times.foldl min (times.headD 0)) 8 ++ leBytes (times.foldl max 0) 8 ++
    leBytes (s.regWord .PDK 0x10 p) 8 ++ leBytes d.core 1 ++ leBytes d.stream 1 ++ leBytes 0 2 ++ leBytes d.position 4 ++
    leBytes d.expected 4 ++ leBytes d.found 4 ++ leBytes (s.rd F.RTP_SVN_RUN_SVN 0) 4)

/-- The bytes of a dump, its number of records, and the least and greatest TIME of the records but the header. -/
def State.dumpImage (s : State) (p : Nat) (d : Dump) : List Byte :=
  let rs := s.dumpRecords p d
  let tail := (List.range rs.length).flatMap (fun k => (rs[k]?).elim [] (fun r => r.bytes (k + 1)))
  let tick := (rs.head?.map (fun r => r.tick)).getD 0
  let head : Rec := ⟨1, 0, tick, s.now, s.dumpHeader p d rs (128 + tail.length)⟩
  head.bytes 0 ++ tail

/-- Posted receives and landing buffers of a captured paddock go (R643). -/
def State.cancelReceives (s : State) (p : Nat) : State :=
  let gone := s.sched.ops.filter (fun o => corePdk o.core == p && (match o.kind with
    | .recv _ => true
    | _ => false))
  let s := gone.foldl (fun s o => s.dropOp o) s
  { s with
    sched := { s.sched with arrivals := s.sched.arrivals.filter (fun a => corePdk a.core != p) }
    net := { s.net with early := tclear (coreKey p) s.net.early } }

/-- SWARD_CAPTURE_DONE (R642, R643): the records are taken, the schedules aborted and the paddock quiesced. -/
def execSwardCaptureDone (p : Fin 16) (s : State) : Host.Outcome State Fault Refusal :=
  match s.dumpOf p.val with
  | none => .next s
  | some d =>
    if d.captured = true ∨ d.cuts.length < 8 then .next s
    else
      let image := s.dumpImage p.val d
      let s := (s.setDump p.val { d with captured := true, image := image }).wr F.SWD_STAT_STATE p.val 2
      let s := s.wr F.SWD_STAT_TOTAL_BYTES p.val image.length
      let cause := if d.cause = 4 then 0x606 else if d.cause = 2 ∨ d.cause = 3 then 0x600 else 0x607
      let s := ((s.abortScope1 p.val cause false).1).cancelReceives p.val
      .next ((s.clearPairs (vfOf p.val)).wr F.PDK_STATE_STATE p.val pdkQuiesced)

/-- SWARD_WRITE_DONE (R644, R645): the records are written, the header last; a failed write leaves the buffer without one. -/
def execSwardWriteDone (p : Fin 16) (ok : Bool) (s : State) : Host.Outcome State Fault Refusal :=
  match s.dumpOf p.val with
  | none => .next s
  | some d =>
    if d.captured = false ∨ s.rd F.SWD_STAT_STATE p.val ≠ 2 then .next s
    else
      let fn := if d.byPf then 0 else vfOf p.val
      let s := if ok then (s.ptrWrite fn p.val (d.ptr + 128) (d.image.drop 128)).ptrWrite fn p.val d.ptr (d.image.take 128) else s
      let s := (s.wr F.SWD_STAT_STATE p.val (if ok then 3 else 4)).bump F.CNT_D_COUNT 0 2
      let total := d.image.length
      let records := fieldAt d.image 0x2C 4
      let span := fieldAt d.image 0x48 8 - fieldAt d.image 0x40 8
      let st := if ok then 0 else 0x682
      let s := match d.h with
        | some h => s.complete h st (total % 2 ^ 32 * 2 ^ 16 + records % 2 ^ 16 * 2 ^ 48 + span % 2 ^ 32 * 2 ^ 64)
        | none => s
      let s := s.setDump p.val { d with h := none }
      .next (s.eventBoth p.val 0x58 st (detailAt 0x10 d.cause + detailAt 0x14 (total % 2 ^ 32) + detailAt 0x18 (records % 2 ^ 16)))

end Sys2Proof.Machine
end

