-- ==== Sys2Proof/Machine/Faults.lean ====
section
/-! DEFINITION. Detected faults of cores, paddock-level units and processors, and self-tests (chapter 22). The masks and spares stand
with their units: Shelf.lean, Mower.lean, Link.lean, Handover.lean. -/

namespace Sys2Proof.Machine

/-! ### Faults (R660, R662) -/

/-- CORE_CONTROL_FAULT (R660): the physical core is marked failed and the paddock's schedule aborts with 0x0541. -/
def execCoreControlFault (core : Fin 128) (s : State) : Host.Outcome State Fault Refusal :=
  if s.pins.pwrgd = false then .next s
  else
    let p := corePdk core.val
    let ph := s.phys core.val
    .next (((s.markCore ph).abort p 0x541).deviceError 5 false ph 0 0x541 p)

/-- PADDOCK_UNIT_FAULT (R660): the abort is followed by ABORT with SCOPE 1. -/
def execPaddockUnitFault (p : Fin 16) (s : State) : Host.Outcome State Fault Refusal :=
  if s.pins.pwrgd = false then .next s
  else .next ((s.abortScope1 p.val 0x542).1.deviceError 6 false p.val 0 0x542 p.val)

/-- A processor is marked failed (R662). -/
def State.markProc (s : State) (k : Nat) : State :=
  { s with rel := { s.rel with badProcs := tset false s.rel.badProcs [k] true } }

/-- Every taken command of a paddock completes with a status; what long commands had waiting goes with them, and its page moves end
without a command (R662). -/
def State.endTaken (s : State) (p status : Nat) : State :=
  let fn := vfOf p
  let s := (s.takenOf p).foldl (fun s t => s.complete t.h status) s
  { s with
    sched := { s.sched with steps := s.sched.steps.filter (fun y => y.h.fn.val != fn) }
    kv := { s.kv with
      edits := tclear (fun k => k.head? == some p) s.kv.edits
      held := s.kv.held.filter (fun x => x.1.fn.val != fn)
      places := s.kv.places.filter (fun x => x.1.fn.val != fn)
      moves := s.kv.moves.map (fun m => if m.pdk = p then { m with h := none } else m) } }

/-- Every queue of a VF is disabled (R662 step 2). -/
def State.clearQueues (s : State) (fn : Nat) : State :=
  ((s.clearPairs fn).wr F.CMQ_PQ_CFG_EN fn 0).wr F.CMQ_EQ_CFG_EN fn 0

/-- The stop path of a paddock whose command processor has failed (R662), in its order: commands end, the images abort and the
paddock is quiesced; every queue of the VF is disabled; CP_FAILED is sent, which the VF's disabled EQ drops and counts (R500;
DEDUCED: log entry 42). -/
def State.procStop (s : State) (p k : Nat) : State :=
  let s := (((s.endTaken p 0x540).abortScope1 p 0x540).1).quiesce p
  let s := (s.clearQueues (vfOf p)).eventBoth p 0x62 0x540 (detailAt 0x10 k)
  s.deviceError 7 false k 0 0x540 p

/-- HEARTBEAT_MISSED (R658, R662): a paddock's processor, a spare, one of the processors 18 and 19, or the root of trust (20). -/
def execHeartbeatMissed (proc : Fin 21) (s : State) : Host.Outcome State Fault Refusal :=
  let k := proc.val
  if s.pins.pwrgd = false then .next s
  else if k = 20 then .next (s.enterFatal 0xF05 20)
  else if tget false s.rel.badProcs [k] then .next s
  else
    let s := (s.markProc k).syncSpares
    if k = 18 ∨ k = 19 then
      let s := s.deviceError 7 false k 0 0x540 0xFF
      .next (if tget false s.rel.badProcs [37 - k] then s.enterFatal 0xF06 k else s)
    else
      match (List.range 16).find? (fun p => s.procOf p == k) with
      | some p => .next (s.procStop p k)
      | none => .next (s.deviceError 7 false k 0 0x540 0xFF)

/-! ### Self-tests (R665 to R667) -/

def opSelfTest : Nat := 0x91

/-- Logical core that a physical core serves. -/
def State.logOf (s : State) (ph : Nat) : Option Nat := (List.range 128).find? (fun c => s.phys c == ph)

/-- Whether the unit of a self-test is in tenant use (R665), or is a lane of a port that is neither DOWN nor IDLE. -/
def State.testBusy (s : State) (kind unit : Nat) : Bool :=
  if kind = 0 then (s.logOf unit).any (fun c => s.tenantUse (corePdk c))
  else if kind = 1 then (List.range 16).any (fun p => s.procOf p == unit && s.tenantUse p)
  else if kind = 2 then s.tenantUse (unit / 16)
  else
    let q := unit / 16
    (List.range 16).any (fun p => decide (0 < s.slotsOf q p) && s.tenantUse p) ||
      !(s.portState q == portDown || s.portState q == portIdleCode)

/-- Whether a UNIT exists for a KIND (R667). -/
def testUnitOk (kind unit : Nat) : Bool :=
  if kind = 0 then unit < 144
  else if kind = 1 then unit < 18
  else if kind = 2 then unit < 256
  else decide (kind = 3) && decide (unit / 16 < 12) && decide (unit % 16 < 9)

/-- SELF_TEST (R667): the test runs until SELF_TEST_COMPLETE. -/
def execSelfTest (h : Hdr) (kind unit : Nat) (s : State) : Host.Outcome State Fault Refusal :=
  .next (s.checked h opSelfTest
    (firstStatus [failIf (!testUnitOk kind unit) 0x2E0, failIf (s.testBusy kind unit) 0x390]) (fun s =>
    let s := s.start h opSelfTest (some (.selfTest h kind unit))
    { s with rel := { s.rel with tests := s.rel.tests ++ [⟨h, kind, unit, s.now⟩] } }))

/-- The channel of an HBM byte of which only one channel is zeroised: its bytes, poison and test lines go (R425, R667). -/
def State.zeroChannel (s : State) (ch : Nat) : State :=
  { s with
    mem := { s.mem with
      hbm := s.mem.hbm.filter (fun e => channelOf e.1 != ch)
      hbmPoison := tclear (fun k => match k with
        | [x] => channelOf (64 * x) == ch
        | _ => false) s.mem.hbmPoison }
    msys := { s.msys with raw := tclear (fun k => k.head? == some ch) s.msys.raw } }

/-- What a test leaves behind, by KIND (R667). -/
def State.testEnds (s : State) (kind unit : Nat) (found : List Found) (failing : List Nat) : State :=
  if kind = 0 then
    let s := s.testCore unit found
    let s := match s.logOf unit with
      | some c => (s.zeroCore c).showMaps c
      | none => s
    s.syncSpares
  else if kind = 1 then (if failing = [] then s else s.markProc unit).syncSpares
  else if kind = 2 then failing.foldl (fun s l => s.addRepair (unit / 16) l) (s.zeroChannel unit)
  else if failing = [] then s
  else if s.portState (unit / 16) = portIdleCode then s.failLane (unit / 16) (unit % 16)
  else s.wr F.PLK_LANE_FAILED (unit / 16) 1 (unit % 16)

/-- Failing rows, columns, lanes or lines of a test, and whether it failed (R667). -/
def testCount (kind unit : Nat) (found : List Found) (failing : List Nat) : Nat × Bool :=
  if kind = 0 then
    let mine := found.filter (fun f => Found.coreOf f == some unit)
    ((mine.filter (fun f => match f with
      | .core _ => false
      | _ => true)).length, mine != [])
  else if kind = 1 then (0, failing != [])
  else (failing.length, failing != [])

/-- SELF_TEST_COMPLETE (R667): RESULT gives OUTCOME, the failing elements and the duration. -/
def execSelfTestComplete (h : Hdr) (found : List Found) (failing : List Nat) (s : State) : Host.Outcome State Fault Refusal :=
  match s.rel.tests.find? (fun t => t.h.fn == h.fn && t.h.q == h.q && t.h.cid == h.cid) with
  | none => .next s
  | some t =>
    let s : State := { s with rel := { s.rel with tests := removeFirst (· == t) s.rel.tests } }
    let s := s.testEnds t.kind t.unit found failing
    let r := testCount t.kind t.unit found failing
    .next (s.complete t.h 0 (b2n r.2 * 2 ^ 16 + min r.1 0xFFFF * 2 ^ 32 + s.usSince t.since % 2 ^ 32 * 2 ^ 64))

end Sys2Proof.Machine
end

