-- ==== Sys2Proof/Machine/Packets.lean ====
section
/-! DEFINITION. Taking a command packet: its layouts (R503 and the owning chapters), the ordered checks 1 to 7, the bytes that no
layout names, and the entry of the taken command (R483, R486, R488, R489). -/

namespace Sys2Proof.Machine

/-- Bytes of a packet that its command's layout names beyond the header: offset and size of each field. -/
def packetFields (op : Nat) (b : List Byte) : List (Nat × Nat) :=
  if op = 0x00 ∨ op = 0x06 ∨ op = 0x3C ∨ op = 0x70 then []
  else if op = 0x01 then [(0x08, 2), (0x0A, 1), (0x0C, 4), (0x10, 8), (0x18, 8)]
  else if op = 0x02 ∨ op = 0x31 then [(0x08, 4)]
  else if op = 0x03 ∨ op = 0x05 ∨ op = 0x12 ∨ op = 0x3F ∨ op = 0x72 then [(0x08, 1)]
  else if op = 0x04 then [(0x08, 2), (0x0C, 2), (0x10, 4), (0x40, 8 * 2 ^ min (fieldAt b 9 1) 4)]
  else if op = 0x10 then [(0x08, 1), (0x10, 8), (0x18, 4)]
  else if op = 0x11 then [(0x08, 1), (0x40, 64)]
  else if op = 0x20 ∨ op = 0x21 then [(0x08, 24)]
  else if op = 0x30 then [(0x08, 14), (0x18, 8)]
  else if op = 0x32 then [(0x08, 7), (0x10, 4), (0x18, 8)]
  else if op = 0x33 then [(0x08, 4), (0x10, 8)]
  else if op = 0x34 then [(0x08, 6)]
  else if op = 0x35 ∨ op = 0x36 then [(0x08, 8)]
  else if op = 0x37 then [(0x08, 5), (0x10, 8)]
  else if op = 0x38 ∨ op = 0x39 ∨ op = 0x3A ∨ op = 0x3B then [(0x08, 4), (0x10, 8)]
  else if op = 0x3D then [(0x08, 27), (0x40, 64)]
  else if op = 0x3E ∨ op = 0x42 ∨ op = 0x50 then [(0x08, 1), (0x10, 8)]
  else if op = 0x40 then [(0x08, 5), (0x10, 32)]
  else if op = 0x41 then [(0x08, 3)]
  else if op = 0x51 then [(0x10, 12)]
  else if op = 0x52 then [(0x08, 1), (0x10, 12)]
  else if op = 0x60 then (0x08, 3) :: (0x0C, 2) :: (List.range (min (fieldAt b 0xA 1) 4)).map (fun k => (0x10 + 4 * k, 3))
  else if op = 0x61 then [(0x08, 6), (0x40, 8 * min (fieldAt b 9 1) 56)]
  else if op = 0x62 then [(0x08, 4), (0x40, 64 + 80)]
  else if op = 0x63 then [(0x08, 4)]
  else if op = 0x64 then [(0x08, 1), (0x0A, 8)]
  else if op = 0x71 then [(0x08, 13)]
  else if op = 0x73 then [(0x10, 8)]
  else if op = 0x74 then [(0x08, 1), (0x10, 24)]
  else if op = 0x80 then [(0x08, 4)]
  else if op = 0x91 then [(0x08, 1), (0x0A, 2)]
  else if op = 0x81 then [(0x08, 3), (0x0C, 4), (0x40, 64)]
  else if op = 0x82 then [(0x08, 3), (0x10, 8)]
  else if op = 0x90 then [(0x08, 3), (0x0C, 8), (0x18, 8)]
  else [(0x08, 16)]

/-- Format status of a command for a byte that its layout does not name (R489). FW_ACTIVATE, DEBUG_CHALLENGE and ROTARY_TABLE_LOAD, whose
chapters assign none, give 0x0201. -/
def formatStatus (op : Nat) : Nat :=
  if op = 0x01 then 0x2A0
  else if op = 0x20 ∨ op = 0x21 then 0x205
  else if 0x30 ≤ op ∧ op ≤ 0x3D then 0x240
  else if 0x40 ≤ op ∧ op ≤ 0x42 then 0x250
  else if 0x50 ≤ op ∧ op ≤ 0x52 then 0x2B0
  else if op = 0x3F ∨ op = 0x60 ∨ op = 0x61 ∨ op = 0x64 then 0x2C0
  else if op = 0x62 ∨ op = 0x63 ∨ op = 0x92 then 0x803
  else if op = 0x71 then 0x2D0
  else if op = 0x74 then 0x2D1
  else if op = 0x80 ∨ op = 0x90 then 0x280
  else if op = 0x81 ∨ op = 0x82 then 0x291
  else if op = 0x91 then 0x2E0
  else 0x201

/-- Whether a byte beyond the header that no field names is not 0. -/
def strayByte (op : Nat) (b : List Byte) : Bool :=
  let fs := packetFields op b
  (List.range b.length).any (fun i => decide (8 ≤ i) && fieldAt b i 1 != 0 && !fs.any (fun f => decide (f.1 ≤ i) && decide (i < f.1 + f.2)))

/-- The parameter words of a run (R503). -/
def packetParams (b : List Byte) : List Nat := (List.range 16).map (fun k => fieldAt b (0x40 + 4 * k) 4)

/-- The command of group 1 to 4 that a packet spells (R503). -/
def tenantInstr (h : Hdr) (op : Nat) (b : List Byte) : Option Instr :=
  let f := fieldAt b
  if op = 0x10 then some (.scheduleLoad h (f 8 1) (f 0x10 8) (f 0x18 4) [])
  else if op = 0x11 then some (.scheduleRun h (f 8 1) (packetParams b))
  else if op = 0x12 then some (.scheduleUnload h (f 8 1))
  else if op = 0x20 then some (.copy h (f 8 8) (f 0x10 8) (f 0x18 8))
  else if op = 0x21 then some (.fill h (f 8 8) (f 0x10 8) (f 0x18 8))
  else if op = 0x30 then some (.ctxCreate h (f 8 4) (f 0xC 1) (f 0xD 1) (f 0xE 1) (f 0xF 1) (f 0x10 2) (f 0x12 2) (f 0x14 1) (f 0x15 1)
    (f 0x18 8))
  else if op = 0x31 then some (.ctxDestroy h (f 8 4))
  else if op = 0x32 then some (.ctxSet h (f 8 4) (f 0xC 1) (f 0xD 1) (f 0xE 1) (f 0x10 4) (f 0x18 8))
  else if op = 0x33 then some (.ctxRead h (f 8 4) (f 0x10 8))
  else if op = 0x34 then some (.ctxPlace h (f 8 4) (f 0xC 2))
  else if op = 0x35 then some (.kvPoolAdd h (f 8 4) (f 0xC 4))
  else if op = 0x36 then some (.kvPoolRemove h (f 8 4) (f 0xC 4))
  else if op = 0x37 then some (.kvMap h (f 8 4) (f 0xC 1) (f 0x10 4) (f 0x14 4))
  else if op = 0x38 then some (.kvUnmap h (f 8 4) (f 0x10 4) (f 0x14 4))
  else if op = 0x39 then some (.kvDemote h (f 8 4) (f 0x10 4) (f 0x14 4))
  else if op = 0x3A then some (.kvPromote h (f 8 4) (f 0x10 4) (f 0x14 4))
  else if op = 0x3B then some (.kvDrop h (f 8 4) (f 0x10 4) (f 0x14 4))
  else if op = 0x3C then some (.kvScatter h)
  else if op = 0x3D then some (.decodeStep h (f 8 8) (f 0x10 8) (f 0x18 4) (f 0x1C 2) (f 0x1E 1) (f 0x20 1) (f 0x21 1) (f 0x22 1)
    (packetParams b) [])
  else if op = 0x3E then some (.rotaryTableLoad h (f 8 1) (f 0x10 8) [])
  else if op = 0x3F then some (.pageServerSet h (f 8 1))
  else if op = 0x40 then some (.tableDefine h (f 8 1) (f 9 1) (f 0xA 1) (f 0xB 1) (f 0xC 1) (f 0x10 8) (f 0x18 8) (f 0x20 8) (f 0x28 8))
  else if op = 0x41 then some (.tableRetire h (f 8 1) (f 9 1) (f 0xA 1))
  else if op = 0x42 then some (.tableRead h (f 8 1) (f 0x10 8))
  else none

/-- The PORT_CONTROL action that a packet spells (R555); none for an ACTION above 7. -/
def portInstr (h : Hdr) (b : List Byte) : Option Instr :=
  let q := fieldAt b 8 1
  let arg := fieldAt b 0xA 1
  match fieldAt b 9 1 with
  | 0 => some (.portUp h q)
  | 1 => some (.portDownCommand h q)
  | 2 => some (.portIdle h q)
  | 3 => some (.portRekey h q)
  | 4 => some (.portTime h q arg)
  | 5 => some (.portRetireLane h q (fieldAt b 0xB 1))
  | 6 => some (.portEncrypt h q arg)
  | 7 => some (.portWake h q)
  | _ => none

/-- The command of the other groups that a packet spells (R503, R553, R589, R626, R650, R667). -/
def deviceInstr (h : Hdr) (op : Nat) (b : List Byte) : Option Instr :=
  let f := fieldAt b
  if op = 0x00 then some (.nopCommand h)
  else if op = 0x01 then some (.hostWindowSet h (f 8 2) (f 0xA 1) (f 0xC 4) (f 0x10 8) (f 0x18 8))
  else if op = 0x02 then some (.quiesce h (f 8 4))
  else if op = 0x03 then some (.abort h (f 8 1))
  else if op = 0x04 then some (.paddockAssign h (f 8 1) (f 9 1) (f 0xC 2) (f 0x10 4) ((List.range (2 ^ min (f 9 1) 4)).map (fun k =>
    (f (0x40 + 8 * k) 2, f (0x42 + 8 * k) 2, f (0x44 + 8 * k) 2, f (0x46 + 8 * k) 2))))
  else if op = 0x05 then some (.paddockConfig h (f 8 1))
  else if op = 0x06 then some (.paddockRelease h)
  else if op = 0x50 then some (.counterRead h (f 8 1) (f 0x10 8))
  else if op = 0x51 then some (.haltDump h (f 0x10 8) (f 0x18 4))
  else if op = 0x52 then some (.dumpConfig h (f 8 1) (f 0x10 8) (f 0x18 4))
  else if op = 0x60 then some (.routeWrite h (f 8 1) (f 9 1) (f 0xA 1) (f 0xC 2) ((List.range (min (f 0xA 1) 4)).map (fun k =>
    (f (0x10 + 4 * k) 1, f (0x11 + 4 * k) 1, f (0x12 + 4 * k) 1))))
  else if op = 0x61 then some (.rankWrite h (f 8 1) (f 9 1) (f 0xA 1) (f 0xB 1) (f 0xC 2) ((List.range (min (f 9 1) 56)).map (fun k =>
    f (0x40 + 8 * k) 8)))
  else if op = 0x62 then some (.tdmWrite h (f 8 1) (f 9 1) (f 0xA 2) ((List.range 64).map (fun k => f (0x40 + k) 1))
    ((List.range 80).map (fun k => f (0x80 + k) 1)))
  else if op = 0x63 then portInstr h b
  else if op = 0x64 then some (.mirrorSet h (f 8 1) (f 0xA 2) (f 0xC 4) (f 0x10 2))
  else if op = 0x70 then some (.keyRotate h)
  else if op = 0x71 then some (.fwStage h (f 8 8) (f 0x10 4) (f 0x14 1) (.ok []))
  else if op = 0x72 then some (.fwActivate h (f 8 1))
  else if op = 0x73 then some (.debugChallenge h (f 0x10 8))
  else if op = 0x74 then some (.debugResponse h (f 8 1) (f 0x10 8) (f 0x18 8) (f 0x20 8) (.ok []) (.ok []) (.ok []))
  else if op = 0x80 then some (.hbmPower h (f 8 1) (f 9 1) (f 0xA 2))
  else if op = 0x81 then some (.memRawWrite h (f 8 1) (f 9 1) (f 0xA 1) (f 0xC 4) ((b.drop 0x40).take 64))
  else if op = 0x82 then some (.memRawRead h (f 8 1) (f 9 1) (f 0xA 1) (f 0x10 8))
  else if op = 0x90 then some (.hbmMargin h (f 8 1) (f 9 1) (f 0xA 1) (f 0xC 2) (f 0xE 2) (f 0x10 4) (f 0x18 8))
  else if op = 0x91 then some (.selfTest h (f 8 1) (f 0xA 2))
  else if op = 0x92 then some (.linkMargin h (f 8 1) (f 9 1) (f 0xA 1) (f 0xB 1) (f 0xC 2) (f 0xE 2) (f 0x10 8))
  else none

/-- The command that a packet of opcode `op` spells. -/
def packetInstr (h : Hdr) (op : Nat) (b : List Byte) : Option Instr :=
  match tenantInstr h op b with
  | some i => some i
  | none => deviceInstr h op b

/-- Units that a command of variable length needs (R502, R589): PADDOCK_ASSIGN by its group, RANK_WRITE by its COUNT. -/
def unitsMatch (op units : Nat) (b : List Byte) : Bool :=
  if op = 0x04 then units == (if fieldAt b 9 1 = 4 then 3 else 2)
  else if op = 0x61 then decide (56 < fieldAt b 9 1) || units == 1 + (fieldAt b 9 1 + 7) / 8
  else true

/-- Checks 2 to 8 that the packet alone decides: the header, the units of a command of variable length (check 5), a mirror standby
(R585), a stray byte, an unknown ACTION. -/
def State.packetStatus (s : State) (h : Hdr) (op units : Nat) (b : List Byte) : Nat :=
  let st := s.headerStatus h.fn.val h.q.val b
  if (st = 0 ∨ st = 0x206 ∨ st = 0x300) ∧ unitsMatch op units b = false then 0x201
  else firstStatus [st, s.callStatus h op, failIf (strayByte op b) (formatStatus op), failIf (packetInstr h op b).isNone 0x803]

/-- The completion of a packet that is no taken command yet: no other command stops being outstanding. -/
def State.refusePacket (s : State) (h : Hdr) (status : Nat) : State :=
  let l := s.taken
  { ({ s with taken := [] } : State).complete h status with taken := l }

/-- The packet's command is taken and waits in its executor (R493). -/
def State.takePacket (s : State) (h : Hdr) (op : Nat) (cmd : Option Instr) : State :=
  let s := s.start h op cmd
  { s with taken := s.taken.map (fun t => if t.is h then { t with phase := .waiting } else t) }

/-- The units of a packet at index `i`, one after the other: a tag-0 SQ lies in the paddock's memory. -/
def State.unitsRead (s : State) (fn q i n : Nat) (env : Fetched) : Fetched :=
  if ptrTag (s.sqPtr fn q) = 0 ∧ fn ≠ 0 then
    (List.range n).foldl (fun r k => match r, s.unitRead fn q ((i + k) % s.sqEntries fn q) env with
      | .ok x, .ok y => .ok (x ++ y)
      | .ok _, e => e
      | e, _ => e) (.ok [])
  else env

/-- Fetching from a tag-0 SQ reads lines of HBM. -/
def State.countUnits (s : State) (fn q i n : Nat) : State :=
  if ptrTag (s.sqPtr fn q) = 0 ∧ fn ≠ 0 then
    s.bump F.HBM_RD_LINES_COUNT (pdkOf fn) 0 (linesOf (ptrAddr (s.sqPtr fn q) + 64 * i) (64 * n))
  else s

/-- A host read of a packet failed (R471): recorded, counted and reported through AER. -/
def State.fetchFailed (s : State) (fn q i : Nat) : State :=
  let ptr := s.sqPtr fn q
  let w := s.windowOf fn (ptrWindow ptr)
  ((s.hifErr fn 3 (ptrWindow ptr) 0x414 (w.base + ptrHostOff ptr + 64 * i)).bump F.HIF_HOST_ERR_COUNT fn).emit (.aer fn false)

/-- A packet whose units all lie before the tail: the head moves past it, and check 1 and the checks of `packetStatus` complete it or its
command is taken (R489). In the fatal state and in recovery the command's meaning would turn it away: it is turned away here (R595,
R669). -/
def State.takeUnits (s : State) (fn : Fin 17) (q : Fin 9) (units : Nat) (b0 : List Byte) (rest : Fetched) : State :=
  let f := fn.val
  let k := q.val
  let i := s.sqHead f k
  let h := hdrOf fn q b0
  let op := fieldAt b0 0 1
  let r := s.unitsRead f k (i + 1) (units - 1) rest
  let s := (s.countUnits f k i units).setSqHead f k ((i + units) % s.sqEntries f k)
  if s.rd F.HIF_FATAL_FATAL 0 = 1 then s.refusePacket h 0xF00
  else
    match (if units = 1 then Fetched.ok [] else r) with
    | .hostError => (s.fetchFailed f k ((i + 1) % s.sqEntries f k)).refusePacket h 0x414
    | .poison => s.refusePacket h 0x532
    | .ok y =>
      let b := b0 ++ fitBytes (64 * (units - 1)) y
      let st := s.packetStatus h op units b
      if s.trust.recovery = true ∧ op ≠ 0x71 ∧ op ≠ 0x72 then s.refusePacket h 0x72A
      else if st ≠ 0 then s.refusePacket h st
      else s.takePacket h op (packetInstr h op b)

/-- The header of a packet could not be read (R489): one entry is consumed, and the completion carries CID 4,095. -/
def State.badHeader (s : State) (fn : Fin 17) (q : Fin 9) (status : Nat) : State :=
  let f := fn.val
  let k := q.val
  let i := s.sqHead f k
  let s := (s.countUnits f k i 1).setSqHead f k ((i + 1) % s.sqEntries f k)
  (if status = 0x414 then s.fetchFailed f k i else s).refusePacket ⟨fn, q, 4095, 0, false⟩ status

/-- PACKET_TAKE (R483, R486, R489, R492, R494): the packet at the head of an enabled queue that holds one whole, has a free entry of
its CQ and is not blocked. A packet with FENCE waits until every earlier command of its queue has completed. -/
def execPacketTake (fn : Fin 17) (q : Fin 9) (hdr rest : Fetched) (s : State) : Host.Outcome State Fault Refusal :=
  let f := fn.val
  let k := q.val
  let n := s.sqEntries f k
  let present := ringHeld (s.sqHead f k) (s.sqTail f k) n
  if s.sqOn f k = false ∨ present = 0 ∨ s.cqRoom f k = false ∨ s.sqBlocked f k = true ∨ s.deaf ⟨fn, q, 0, 0, false⟩ = true then .next s
  else
    match s.unitRead f k (s.sqHead f k) hdr with
    | .hostError => .next (s.badHeader fn q 0x414)
    | .poison => .next (s.badHeader fn q 0x532)
    | .ok x =>
      let b := fitBytes 64 x
      let flags := fieldAt b 1 1
      let units := flags % 8 + 1
      if present < units then .next s
      else if hasBit flags 3 ∧ s.takenIn f k ≠ [] then
        .next { s with host := { s.host with fenced := tset false s.host.fenced [f, k] true } }
      else .next (s.takeUnits fn q units b rest)

end Sys2Proof.Machine
end

