-- ==== Sys2Proof/Machine/Steps.lean ====
section
/-! DEFINITION. Decode steps (R346 to R349): the command, the sorting assist, and the runs of the buckets. -/

namespace Sys2Proof.Machine

/-- DECODE_STEP (R346): the step takes its place among the paddock's runs and waits for the sorting assist. -/
def execDecodeStep (h : Hdr) (list out outBytes nM1 slot pPages pCount pRow : Nat) (params : List Nat) (data : List Byte)
    (s : State) : Host.Outcome State Fault Refusal :=
  let p := paddockOf h
  let n := nM1 + 1
  let bad := decide (4096 < n) || decide (3 < slot) || decide (15 < pPages) || decide (15 < pCount) || decide (15 < pRow) ||
    pPages == pCount || pPages == pRow || pCount == pRow || out % 512 != 0 || ptrTag out != 0 ||
    decide (outBytes < 512 * (26 + (n + 31) / 32))
  .next (s.checked h opStep (firstStatus [failIf bad 0x240, failIf (ptrTag list = 3) 0x401,
      s.ptrStatus h.fn.val p list (8 * n) false, s.ptrStatus h.fn.val p out outBytes true, wholeStatus list 64 false]) (fun s =>
    let ps := (List.range 16).map (fun k => nth params k % 2 ^ 32)
    let cmd := Instr.decodeStep h list out outBytes nM1 slot pPages pCount pRow params data
    s.gate h opStep cmd [⟨list, 8 * n, false⟩] (fun s =>
      let s := s.setPhase h .waiting
      let s : State := { s with sched := { s.sched with steps := s.sched.steps ++
        [⟨h, slot, ps, pPages, pCount, pRow, list, out, n, false, [], 0, tally0, 0, 0, 0⟩] } }
      let r := s.runsOf p
      s.setRuns p { r with waiting := r.waiting ++ [⟨h, 0, slot, ps, some stepMark, tally0⟩] })))

/-- The step of a paddock whose turn it is: its mark heads the waiting runs. -/
def State.stepDue (s : State) (p : Nat) : Option Step :=
  match (s.runsOf p).waiting with
  | x :: _ => if x.bucket = some stepMark then s.findStep x.h else none
  | [] => none
/-- A step that waits for the assist. -/
def State.assistDue (s : State) (p : Nat) : Option Step := (s.stepDue p).bind (fun y => if y.sorted then none else some y)

/-- Fields of a list entry (R346). -/
def stepUser (e : Nat) : Nat := bitsAt e 48 16
def stepSpec (e : Nat) : Nat := bitsAt e 24 4
def stepCtx (e : Nat) : Nat := bitsAt e 0 16

/-- Bucket of a page count: 0 up to one page, else ceil(log2 pages) (R347). -/
def bucketOf (pages : Nat) : Nat := if pages ≤ 1 then 0 else Nat.log2 (pages - 1) + 1

/-- The entries of bucket `b` as the assist writes them (R348): the input entry, LENGTH as read and the index in LIST. -/
def bucketRow (es : List (Nat × Nat × Nat)) (b : Nat) : List (List Byte) :=
  ((List.range es.length).zip es).filterMap (fun x =>
    if x.2.2.2 = b then some (leBytes x.2.1 8 ++ leBytes x.2.2.1 4 ++ leBytes x.1 2 ++ leBytes 0 2) else none)

/-- SORTING_ASSIST_TAKE (R347, R348): the assist takes the step of the next paddock in round robin (R18), reads the lengths and
writes the summary and the lists at OUT, or rejects the whole step. The row of an empty bucket is where its list would start
(DEDUCED: log entry 23). -/
def execSortingAssistTake (p : Fin 16) (s : State) : Host.Outcome State Fault Refusal :=
  let q := p.val
  let turn := (List.range 16).find? (fun k => (s.assistDue ((s.kv.assist + k) % 16)).isSome)
  match s.assistDue q, turn.map (fun k => (s.kv.assist + k) % 16) with
  | some y, some t =>
    if t ≠ q ∨ s.frozen q = true then .next s
    else
      let s : State := { s with kv := { s.kv with assist := (q + 1) % 16 } }
      match s.findTaken y.h with
      | none => .next ((s.unmark y.h).dropStep y.h)
      | some tk =>
        let data := match tk.cmd with
          | some (.decodeStep _ _ _ _ _ _ _ _ _ _ data) => data
          | _ => []
        let s := s.setPhase y.h .executing
        let fail (st : Nat) (s : State) : State := s.stepMaybeEnd { y with sorted := true, buckets := [], status := st }
        let st := firstStatus [s.sourceStatus q y.list (8 * y.entries), s.resourceStatus q y.out]
        if st ≠ 0 then .next (fail st s)
        else
          let s := s.countRead (vfOf q) q y.list (8 * y.entries)
          let b := s.ptrRead q y.list (8 * y.entries) data
          let es := (List.range y.entries).map (fun k => fieldAt b (8 * k) 8)
          let bad (e : Nat) : Bool := bitsAt e 16 8 != 0 || bitsAt e 28 20 != 0 || decide (8 < stepSpec e) ||
            !s.inQuota q (stepCtx e) || !dValid (s.desc q (stepCtx e))
          let s := es.foldl (fun s e => if s.inQuota q (stepCtx e) then s.useDesc q (stepCtx e) else s) s
          if es.any bad then .next (fail 0x241 s)
          else
            let xs := es.map (fun e =>
              let d := s.desc q (stepCtx e)
              (e, dLength d, bucketOf ((dLength d + stepSpec e + dTokens d - 1) / dTokens d)))
            let lists := (List.range 32).map (bucketRow xs)
            let rowsOf (l : List (List Byte)) : Nat := (l.length + 31) / 32
            let start (k : Nat) : Nat := 1 + ((lists.take k).foldl (fun n l => n + rowsOf l) 0)
            let summary := (List.range 32).flatMap (fun k =>
              if 24 < k ∧ (lists[k]?).getD [] = [] then List.replicate 16 (0 : Byte)
              else leBytes ((lists[k]?).getD []).length 4 ++ leBytes (start k) 4 ++ leBytes (2 ^ k) 4 ++ leBytes 0 4)
            let body := lists.flatMap (fun l => (l.flatMap id) ++ List.replicate (512 * rowsOf l - 16 * l.length) (0 : Byte))
            let s := s.ptrWrite (vfOf q) q y.out (summary ++ body)
            let buckets := (List.range 32).filterMap (fun k =>
              let l := (lists[k]?).getD []
              if l = [] then none else some (k, l.length, start k))
            .next (s.setStep { y with sorted := true, buckets := buckets })
  | _, _ => .next s

/-- The status of a step that was stopped with none of its runs under way (R498). -/
def stoppedStatus (y : Step) : Nat := if y.status = 0 ∧ y.running = 0 then 0x380 else y.status

/-- DECODE_BUCKET_RUN (R349): the run of the next bucket is armed, with PAGES, COUNT and ROW in the parameters named for them. A step
that ABORT has stopped runs no further bucket (R498). -/
def execDecodeBucketRun (p : Fin 16) (s : State) : Host.Outcome State Fault Refusal :=
  let q := p.val
  let stopped := s.sched.steps.find? (fun y => paddockOf y.h == q && y.sorted && nth (s.progOf y.h) 0 == 1 && y.running == 0)
  match stopped with
  | some y => .next (s.stepMaybeEnd { y with buckets := [], status := stoppedStatus y })
  | none =>
    match s.stepDue q with
    | none => .next s
    | some y =>
      let r := s.runsOf q
      match y.sorted, y.buckets with
      | true, (b, count, row) :: rest =>
        if r.armed.isSome ∨ r.cause.isSome ∨ s.frozen q = true then .next s
        else
          let ps := (((y.params.set y.pPages (2 ^ b)).set y.pCount count).set y.pRow row)
          let y := { y with buckets := rest, running := y.running + 1 }
          let s := s.setStep y
          let s := if rest = [] then s.unmark y.h else s
          let run : Run := ⟨y.h, 0, y.slot, ps, some b, tally0⟩
          let st := s.runStatus q y.slot ps
          let s := if st ≠ 0 then s.endRun run st else s.armRun q run
          .next ((s.armWaiting q (s.runsOf q).waiting.length).syncPstat q)
      | _, _ => .next s

end Sys2Proof.Machine
end

