-- ==== Sys2Proof/Machine/Dispatch.lean ====
section
/-! DEFINITION. The commands' dispatch: one arm per constructor of Instr, each one direct call of its meaning. -/

namespace Sys2Proof.Machine

def exec (i : Instr) (s : State) : Host.Outcome State Fault Refusal :=
  match i with
  | .paddockAssign h role log2 ctxQuotaM1 pool extents => Sys2Proof.Machine.execPaddockAssign h role log2 ctxQuotaM1 pool extents s
  | .paddockConfig h role => Sys2Proof.Machine.execPaddockConfig h role s
  | .paddockRelease h => Sys2Proof.Machine.execPaddockRelease h s
  | .scheduleLoad h slot image bytes data => Sys2Proof.Machine.execScheduleLoad h slot image bytes data s
  | .scheduleRun h slot params => Sys2Proof.Machine.execScheduleRun h slot params s
  | .scheduleUnload h slot => Sys2Proof.Machine.execScheduleUnload h slot s
  | .rotaryTableLoad h table src data => Sys2Proof.Machine.execRotaryTableLoad h table src data s
  | .ctxCreate h c fmt head kvHeadsM1 depth layersM1 place prio flags tag => Sys2Proof.Machine.execCtxCreate h c fmt head kvHeadsM1 depth layersM1 place prio flags tag s
  | .ctxDestroy h c => Sys2Proof.Machine.execCtxDestroy h c s
  | .ctxSet h c select prio flags length tag => Sys2Proof.Machine.execCtxSet h c select prio flags length tag s
  | .ctxRead h c out => Sys2Proof.Machine.execCtxRead h c out s
  | .ctxPlace h c place => Sys2Proof.Machine.execCtxPlace h c place s
  | .ctxPlaceDrained h => Sys2Proof.Machine.execCtxPlaceDrained h s
  | .kvPoolAdd h n0 k => Sys2Proof.Machine.execKvPoolAdd h n0 k s
  | .kvPoolRemove h n0 k => Sys2Proof.Machine.execKvPoolRemove h n0 k s
  | .kvMap h c tier lo hi => Sys2Proof.Machine.execKvMap h c tier lo hi s
  | .kvUnmap h c lo hi => Sys2Proof.Machine.execKvUnmap h c lo hi s
  | .kvDemote h c lo hi => Sys2Proof.Machine.execKvDemote h c lo hi s
  | .kvPromote h c lo hi => Sys2Proof.Machine.execKvPromote h c lo hi s
  | .kvDrop h c lo hi => Sys2Proof.Machine.execKvDrop h c lo hi s
  | .kvScatter h => Sys2Proof.Machine.execKvScatter h s
  | .decodeStep h list out outBytes nM1 slot pPages pCount pRow params data => Sys2Proof.Machine.execDecodeStep h list out outBytes nM1 slot pPages pCount pRow params data s
  | .tableDefine h slot sect elem hash rowsLog2 rows base mult tag => Sys2Proof.Machine.execTableDefine h slot sect elem hash rowsLog2 rows base mult tag s
  | .tableRetire h slot gen flags => Sys2Proof.Machine.execTableRetire h slot gen flags s
  | .tableRead h slot out => Sys2Proof.Machine.execTableRead h slot out s
  | .hbmPower h group state mask => Sys2Proof.Machine.execHbmPower h group state mask s
  | .hbmPowerDownDrained h => Sys2Proof.Machine.execHbmPowerDownDrained h s
  | .hbmPowerDownTimeout h => Sys2Proof.Machine.execHbmPowerDownTimeout h s
  | .hbmMargin h ch kind pattern lo hi dwell out => Sys2Proof.Machine.execHbmMargin h ch kind pattern lo hi dwell out s
  | .keyRotate h => Sys2Proof.Machine.execKeyRotate h s
  | .memRawWrite h ch tline sector check data => Sys2Proof.Machine.execMemRawWrite h ch tline sector check data s
  | .memRawRead h ch tline sector out => Sys2Proof.Machine.execMemRawRead h ch tline sector out s
  | .hostWindowSet h window flags pasid base size => Sys2Proof.Machine.execHostWindowSet h window flags pasid base size s
  | .nopCommand h => Sys2Proof.Machine.execNopCommand h s
  | .quiesce h timeoutUs => Sys2Proof.Machine.execQuiesce h timeoutUs s
  | .quiesceComplete h => Sys2Proof.Machine.execQuiesceComplete h s
  | .quiesceTimeout h => Sys2Proof.Machine.execQuiesceTimeout h s
  | .abort h scope => Sys2Proof.Machine.execAbort h scope s
  | .abortComplete h => Sys2Proof.Machine.execAbortComplete h s
  | .copy h src dst bytes => Sys2Proof.Machine.execCopy h src dst bytes s
  | .fill h dst bytes pattern => Sys2Proof.Machine.execFill h dst bytes pattern s
  | .copyFillComplete h data issued fail => Sys2Proof.Machine.execCopyFillComplete h data issued fail s
  | .tdmWrite h port flags transit slots creds => Sys2Proof.Machine.execTdmWrite h port flags transit slots creds s
  | .portUp h port => Sys2Proof.Machine.execPortUp h port s
  | .portDownCommand h port => Sys2Proof.Machine.execPortDownCommand h port s
  | .portIdle h port => Sys2Proof.Machine.execPortIdle h port s
  | .portRekey h port => Sys2Proof.Machine.execPortRekey h port s
  | .portTime h port arg => Sys2Proof.Machine.execPortTime h port arg s
  | .portRetireLane h port lane => Sys2Proof.Machine.execPortRetireLane h port lane s
  | .portEncrypt h port arg => Sys2Proof.Machine.execPortEncrypt h port arg s
  | .portWake h port => Sys2Proof.Machine.execPortWake h port s
  | .linkMargin h port lane kind dwell lo hi out => Sys2Proof.Machine.execLinkMargin h port lane kind dwell lo hi out s
  | .routeWrite h dev flags npaths transit paths => Sys2Proof.Machine.execRouteWrite h dev flags npaths transit paths s
  | .rankWrite h first count flags self epoch entries => Sys2Proof.Machine.execRankWrite h first count flags self epoch entries s
  | .rankWriteDrainDone h => Sys2Proof.Machine.execRankWriteDrainDone h s
  | .mirrorSet h peer ports part fence => Sys2Proof.Machine.execMirrorSet h peer ports part fence s
  | .pageServerSet h en => Sys2Proof.Machine.execPageServerSet h en s
  | .fwStage h image bytes flags data => Sys2Proof.Machine.execFwStage h image bytes flags data s
  | .fwActivate h flags => Sys2Proof.Machine.execFwActivate h flags s
  | .debugChallenge h out => Sys2Proof.Machine.execDebugChallenge h out s
  | .debugResponse h scope tokenK tokenO ownerKeys k o keys => Sys2Proof.Machine.execDebugResponse h scope tokenK tokenO ownerKeys k o keys s
  | .counterRead h set out => Sys2Proof.Machine.execCounterRead h set out s
  | .haltDump h out bytes => Sys2Proof.Machine.execHaltDump h out bytes s
  | .dumpConfig h flags buf bytes => Sys2Proof.Machine.execDumpConfig h flags buf bytes s
  | .selfTest h kind unit => Sys2Proof.Machine.execSelfTest h kind unit s
  | .selfTestComplete h found failing => Sys2Proof.Machine.execSelfTestComplete h found failing s
  | .hbmPowerUpDone h => Sys2Proof.Machine.execHbmPowerUpDone h s
  | .hbmMarginComplete h points => Sys2Proof.Machine.execHbmMarginComplete h points s
  | .linkMarginComplete h points => Sys2Proof.Machine.execLinkMarginComplete h points s
  | .fwStageComplete h => Sys2Proof.Machine.execFwStageComplete h s
  | .fwActivateRestartDone h bad => Sys2Proof.Machine.execFwActivateRestartDone h bad s
  | .registerWrite fn off width data => Sys2Proof.Machine.execRegisterWrite fn off width data s
  | .wrongWidthAccess fn off width write => Sys2Proof.Machine.execWrongWidthAccess fn off width write s
  | .reservedOffsetAccess fn off width write => Sys2Proof.Machine.execReservedOffsetAccess fn off width write s
  | .modulePowerOn offMs => Sys2Proof.Machine.execModulePowerOn offMs s
  | .powerOnStageEnd ms found => Sys2Proof.Machine.execPowerOnStageEnd ms found s
  | .perstNAssert => Sys2Proof.Machine.execPerstNAssert s
  | .perstNDeassert => Sys2Proof.Machine.execPerstNDeassert s
  | .pfFlr => Sys2Proof.Machine.execPfFlr s
  | .vfFlr p => Sys2Proof.Machine.execVfFlr p s
  | .resetComplete speed width => Sys2Proof.Machine.execResetComplete speed width s
  | .pwrgdDeassert => Sys2Proof.Machine.execPwrgdDeassert s
  | .inputUndervoltage => Sys2Proof.Machine.execInputUndervoltage s
  | .inputFault => Sys2Proof.Machine.execInputFault s
  | .killNAssert lowNs => Sys2Proof.Machine.execKillNAssert lowNs s
  | .handoverDrainDone p => Sys2Proof.Machine.execHandoverDrainDone p s
  | .handoverZeroiseDone p found => Sys2Proof.Machine.execHandoverZeroiseDone p found s
  | .handoverLateClear p => Sys2Proof.Machine.execHandoverLateClear p s
  | .arrivalWriteCommit core bank => Sys2Proof.Machine.execArrivalWriteCommit core bank s
  | .arrivalWriteForced core bank => Sys2Proof.Machine.execArrivalWriteForced core bank s
  | .patrolRead core bank err => Sys2Proof.Machine.execPatrolRead core bank err s
  | .patrolForced core bank err => Sys2Proof.Machine.execPatrolForced core bank err s
  | .patrolWriteBack core bank => Sys2Proof.Machine.execPatrolWriteBack core bank s
  | .shelfPowerDownDrained core => Sys2Proof.Machine.execShelfPowerDownDrained core s
  | .shelfPowerDownTimeout core => Sys2Proof.Machine.execShelfPowerDownTimeout core s
  | .ceLimitWrite core v => Sys2Proof.Machine.execCeLimitWrite core v s
  | .nop a => Sys2Proof.Machine.execNop a s
  | .endSection a => Sys2Proof.Machine.execEndSection a s
  | .loopOpen a => Sys2Proof.Machine.execLoopOpen a s
  | .loopClose a => Sys2Proof.Machine.execLoopClose a s
  | .waitCell a => Sys2Proof.Machine.execWaitCell a s
  | .slipEnd core => Sys2Proof.Machine.execSlipEnd core s
  | .waitTimeout a => Sys2Proof.Machine.execWaitTimeout a s
  | .slipTimeout core => Sys2Proof.Machine.execSlipTimeout core s
  | .headStart core => Sys2Proof.Machine.execHeadStart core s
  | .tailStart core => Sys2Proof.Machine.execTailStart core s
  | .streamRetire a => Sys2Proof.Machine.execStreamRetire a s
  | .runComplete p => Sys2Proof.Machine.execRunComplete p s
  | .abortDrainDone p => Sys2Proof.Machine.execAbortDrainDone p s
  | .waitDefaultUsWrite p v => Sys2Proof.Machine.execWaitDefaultUsWrite p v s
  | .schCslip0ValidClear core => Sys2Proof.Machine.execSchCslip0ValidClear core s
  | .untimedEventAdmit p => Sys2Proof.Machine.execUntimedEventAdmit p s
  | .droopTrip die => Sys2Proof.Machine.execDroopTrip die s
  | .droopStretchEnd die => Sys2Proof.Machine.execDroopStretchEnd die s
  | .budRec0ValidClear p => Sys2Proof.Machine.execBudRec0ValidClear p s
  | .budDcfgWrite die droopMv holdClocks => Sys2Proof.Machine.execBudDcfgWrite die droopMv holdClocks s
  | .signal a => Sys2Proof.Machine.execSignal a s
  | .stileArrive a => Sys2Proof.Machine.execStileArrive a s
  | .stileWait a => Sys2Proof.Machine.execStileWait a s
  | .matrixTile a errs => Sys2Proof.Machine.execMatrixTile a errs s
  | .tileClaim core upsets => Sys2Proof.Machine.execTileClaim core upsets s
  | .kvAppendHandoff core upsets => Sys2Proof.Machine.execKvAppendHandoff core upsets s
  | .chkTWrite p v => Sys2Proof.Machine.execChkTWrite p v s
  | .elem a errs => Sys2Proof.Machine.execElem a errs s
  | .wsMode a => Sys2Proof.Machine.execWsMode a s
  | .elemRowWrite core fault => Sys2Proof.Machine.execElemRowWrite core fault s
  | .elemOneRowWrite core fault => Sys2Proof.Machine.execElemOneRowWrite core fault s
  | .attnPass a => Sys2Proof.Machine.execAttnPass a s
  | .attnBlockFetch core => Sys2Proof.Machine.execAttnBlockFetch core s
  | .attnQueryPrepare core => Sys2Proof.Machine.execAttnQueryPrepare core s
  | .attnQkTile core upsets => Sys2Proof.Machine.execAttnQkTile core upsets s
  | .attnRowStatistics core => Sys2Proof.Machine.execAttnRowStatistics core s
  | .attnPvTile core upsets => Sys2Proof.Machine.execAttnPvTile core upsets s
  | .attnFinalScaling core => Sys2Proof.Machine.execAttnFinalScaling core s
  | .attnPassComplete core => Sys2Proof.Machine.execAttnPassComplete core s
  | .atnStale0ValidClear core => Sys2Proof.Machine.execAtnStale0ValidClear core s
  | .kvAppend a errs => Sys2Proof.Machine.execKvAppend a errs s
  | .kvAppendComplete core => Sys2Proof.Machine.execKvAppendComplete core s
  | .pageMoveAppendsDrained p => Sys2Proof.Machine.execPageMoveAppendsDrained p s
  | .pageMoveCopyDone p => Sys2Proof.Machine.execPageMoveCopyDone p s
  | .limboRecycle p => Sys2Proof.Machine.execLimboRecycle p s
  | .autoDemote p => Sys2Proof.Machine.execAutoDemote p s
  | .sortingAssistTake p => Sys2Proof.Machine.execSortingAssistTake p s
  | .decodeBucketRun p => Sys2Proof.Machine.execDecodeBucketRun p s
  | .ctxCfgWrite p v => Sys2Proof.Machine.execCtxCfgWrite p v s
  | .ctxFarcfgWrite p v => Sys2Proof.Machine.execCtxFarcfgWrite p v s
  | .ctxDefer0ValidClear p => Sys2Proof.Machine.execCtxDefer0ValidClear p s
  | .tableLookup a => Sys2Proof.Machine.execTableLookup a s
  | .tableRowReturn core => Sys2Proof.Machine.execTableRowReturn core s
  | .tableLookupComplete core => Sys2Proof.Machine.execTableLookupComplete core s
  | .tableGenerationRelease p => Sys2Proof.Machine.execTableGenerationRelease p s
  | .tblRec0ValidClear p => Sys2Proof.Machine.execTblRec0ValidClear p s
  | .lineTransactionIssue p => Sys2Proof.Machine.execLineTransactionIssue p s
  | .lineTransactionComplete p idx ret errs => Sys2Proof.Machine.execLineTransactionComplete p idx ret errs s
  | .hbmParityReplay p idx writeData => Sys2Proof.Machine.execHbmParityReplay p idx writeData s
  | .calibrationWindow ch => Sys2Proof.Machine.execCalibrationWindow ch s
  | .hbmRefresh ch => Sys2Proof.Machine.execHbmRefresh ch s
  | .hbmTemperatureRead temps => Sys2Proof.Machine.execHbmTemperatureRead temps s
  | .hbmErr0ValidClear p => Sys2Proof.Machine.execHbmErr0ValidClear p s
  | .calPeriodMsWrite v => Sys2Proof.Machine.execCalPeriodMsWrite v s
  | .mowerDemandVisit g errs second => Sys2Proof.Machine.execMowerDemandVisit g errs second s
  | .scrubLine g errs second => Sys2Proof.Machine.execScrubLine g errs second s
  | .linePatch g bad => Sys2Proof.Machine.execLinePatch g bad s
  | .rekeyLine g errs second => Sys2Proof.Machine.execRekeyLine g errs second s
  | .rekeyComplete g => Sys2Proof.Machine.execRekeyComplete g s
  | .mowErr0ValidClear p => Sys2Proof.Machine.execMowErr0ValidClear p s
  | .mowCfgWrite g v => Sys2Proof.Machine.execMowCfgWrite g v s
  | .farRequestIssue port slot write => Sys2Proof.Machine.execFarRequestIssue port slot write s
  | .cxlLinkReplay port => Sys2Proof.Machine.execCxlLinkReplay port s
  | .farLinkLoss port => Sys2Proof.Machine.execFarLinkLoss port s
  | .farLinkReturn port => Sys2Proof.Machine.execFarLinkReturn port s
  | .farErr0ValidClear p => Sys2Proof.Machine.execFarErr0ValidClear p s
  | .farSlotWrite port k v => Sys2Proof.Machine.execFarSlotWrite port k v s
  | .win0Apply fn => Sys2Proof.Machine.execWin0Apply fn s
  | .win0ErrClear fn => Sys2Proof.Machine.execWin0ErrClear fn s
  | .translationCompletion fn pasid base size read write => Sys2Proof.Machine.execTranslationCompletion fn pasid base size read write s
  | .pageRequestGroupResponse fn entry response => Sys2Proof.Machine.execPageRequestGroupResponse fn entry response s
  | .atsInvalidationRequest fn pasid base size => Sys2Proof.Machine.execAtsInvalidationRequest fn pasid base size s
  | .invalidationComplete fn pasid base size => Sys2Proof.Machine.execInvalidationComplete fn pasid base size s
  | .translationTimeout fn q cid => Sys2Proof.Machine.execTranslationTimeout fn q cid s
  | .hostCompletionError user window addr => Sys2Proof.Machine.execHostCompletionError user window addr s
  | .tdiBarRequestRefused fn tBit inStream => Sys2Proof.Machine.execTdiBarRequestRefused fn tBit inStream s
  | .msixUnmask fn vector => Sys2Proof.Machine.execMsixUnmask fn vector s
  | .xlateTimeoutMsWrite fn v => Sys2Proof.Machine.execXlateTimeoutMsWrite fn v s
  | .hifErr0ValidClear fn => Sys2Proof.Machine.execHifErr0ValidClear fn s
  | .sqPairEnable fn k translated => Sys2Proof.Machine.execSqPairEnable fn k translated s
  | .sqPairDisable fn k => Sys2Proof.Machine.execSqPairDisable fn k s
  | .pqEnable fn en translated => Sys2Proof.Machine.execPqEnable fn en translated s
  | .eqEnable fn en translated => Sys2Proof.Machine.execEqEnable fn en translated s
  | .queueBaseWrite fn reg v => Sys2Proof.Machine.execQueueBaseWrite fn reg v s
  | .sqTailDoorbell fn k idx => Sys2Proof.Machine.execSqTailDoorbell fn k idx s
  | .cqHeadDoorbell fn k idx => Sys2Proof.Machine.execCqHeadDoorbell fn k idx s
  | .pqTailDoorbell fn idx => Sys2Proof.Machine.execPqTailDoorbell fn idx s
  | .pcqHeadDoorbell fn idx => Sys2Proof.Machine.execPcqHeadDoorbell fn idx s
  | .eqHeadDoorbell fn idx => Sys2Proof.Machine.execEqHeadDoorbell fn idx s
  | .tailwordPoll fn k => Sys2Proof.Machine.execTailwordPoll fn k s
  | .packetTake fn q hdr rest => Sys2Proof.Machine.execPacketTake fn q hdr rest s
  | .fenceRelease fn k => Sys2Proof.Machine.execFenceRelease fn k s
  | .trainingStepEnd port started lanes => Sys2Proof.Machine.execTrainingStepEnd port started lanes s
  | .trainingAbandon port started authFailed => Sys2Proof.Machine.execTrainingAbandon port started authFailed s
  | .flitSend port => Sys2Proof.Machine.execFlitSend port s
  | .flitReceive port header payload check uncorr spoiled corr => Sys2Proof.Machine.execFlitReceive port header payload check uncorr spoiled corr s
  | .replayWaitTimeout port => Sys2Proof.Machine.execReplayWaitTimeout port s
  | .laneFail port lane => Sys2Proof.Machine.execLaneFail port lane s
  | .retrainSequenceReceive port mask => Sys2Proof.Machine.execRetrainSequenceReceive port mask s
  | .retrainResume port count => Sys2Proof.Machine.execRetrainResume port count s
  | .retrainDeadlineMiss port part => Sys2Proof.Machine.execRetrainDeadlineMiss port part s
  | .spareLaneTestFail port errors => Sys2Proof.Machine.execSpareLaneTestFail port errors s
  | .capsReceive port m => Sys2Proof.Machine.execCapsReceive port m s
  | .spdmFragmentReceive port m => Sys2Proof.Machine.execSpdmFragmentReceive port m s
  | .idleMessageReceive port m => Sys2Proof.Machine.execIdleMessageReceive port m s
  | .keyReadyReceive port m => Sys2Proof.Machine.execKeyReadyReceive port m s
  | .rekeyDue port => Sys2Proof.Machine.execRekeyDue port s
  | .timeMessageSend port => Sys2Proof.Machine.execTimeMessageSend port s
  | .timeMessageReceive port m tRx => Sys2Proof.Machine.execTimeMessageReceive port m tRx s
  | .timeUnlock => Sys2Proof.Machine.execTimeUnlock s
  | .portDown port reasons => Sys2Proof.Machine.execPortDown port reasons s
  | .peerLostTimeout port => Sys2Proof.Machine.execPeerLostTimeout port s
  | .plkCfgWrite port v => Sys2Proof.Machine.execPlkCfgWrite port v s
  | .fetch a => Sys2Proof.Machine.execFetch a s
  | .recv a => Sys2Proof.Machine.execRecv a s
  | .pageFetch a => Sys2Proof.Machine.execPageFetch a s
  | .writeMover a errs => Sys2Proof.Machine.execWriteMover a errs s
  | .push a errs => Sys2Proof.Machine.execPush a errs s
  | .writeMessageReceive port m => Sys2Proof.Machine.execWriteMessageReceive port m s
  | .pushMessageReceive port m => Sys2Proof.Machine.execPushMessageReceive port m s
  | .appendMessageReceive port m => Sys2Proof.Machine.execAppendMessageReceive port m s
  | .readReqReceive port m => Sys2Proof.Machine.execReadReqReceive port m s
  | .readDataReceive port m => Sys2Proof.Machine.execReadDataReceive port m s
  | .pageReqReceive port m => Sys2Proof.Machine.execPageReqReceive port m s
  | .ackReceive port m => Sys2Proof.Machine.execAckReceive port m s
  | .stopReceive port m => Sys2Proof.Machine.execStopReceive port m s
  | .mirrorReceive port m => Sys2Proof.Machine.execMirrorReceive port m s
  | .mirrorBeatReceive port m => Sys2Proof.Machine.execMirrorBeatReceive port m s
  | .mirrorBeatSend p => Sys2Proof.Machine.execMirrorBeatSend p s
  | .mirrorFailover p => Sys2Proof.Machine.execMirrorFailover p s
  | .mirrorBroken p => Sys2Proof.Machine.execMirrorBroken p s
  | .transitForward port vl m => Sys2Proof.Machine.execTransitForward port vl m s
  | .earlyArrivalTimeout core => Sys2Proof.Machine.execEarlyArrivalTimeout core s
  | .receiveComplete core => Sys2Proof.Machine.execReceiveComplete core s
  | .devIdWrite v => Sys2Proof.Machine.execDevIdWrite v s
  | .rteErr0ValidClear p => Sys2Proof.Machine.execRteErr0ValidClear p s
  | .spdmRequest c request => Sys2Proof.Machine.execSpdmRequest c request s
  | .getReport c scope nonce => Sys2Proof.Machine.execGetReport c scope nonce s
  | .getMeasurements c nonce => Sys2Proof.Machine.execGetMeasurements c nonce s
  | .keyExchange transport port => Sys2Proof.Machine.execKeyExchange transport port s
  | .endSession c => Sys2Proof.Machine.execEndSession c s
  | .sessionHeartbeatMissed c => Sys2Proof.Machine.execSessionHeartbeatMissed c s
  | .keyProg c index sub dir set key => Sys2Proof.Machine.execKeyProg c index sub dir set key s
  | .kSetGo c index sub dir set => Sys2Proof.Machine.execKSetGo c index sub dir set s
  | .kSetStop c index sub dir set => Sys2Proof.Machine.execKSetStop c index sub dir set s
  | .ideIntegrityFail fn => Sys2Proof.Machine.execIdeIntegrityFail fn s
  | .lockInterfaceRequest c p => Sys2Proof.Machine.execLockInterfaceRequest c p s
  | .getDeviceInterfaceReport c p => Sys2Proof.Machine.execGetDeviceInterfaceReport c p s
  | .startInterfaceRequest c p nonce => Sys2Proof.Machine.execStartInterfaceRequest c p nonce s
  | .stopInterfaceRequest c p => Sys2Proof.Machine.execStopInterfaceRequest c p s
  | .tdiConfigWrite fn item v => Sys2Proof.Machine.execTdiConfigWrite fn item v s
  | .getHealth c => Sys2Proof.Machine.execGetHealth c s
  | .paddockStop c p scope quiesce => Sys2Proof.Machine.execPaddockStop c p scope quiesce s
  | .moduleKill c => Sys2Proof.Machine.execModuleKill c s
  | .ownerProvision c value => Sys2Proof.Machine.execOwnerProvision c value s
  | .i3cDynamicAddress setdasa addr => Sys2Proof.Machine.execI3cDynamicAddress setdasa addr s
  | .cntSnapTake fn => Sys2Proof.Machine.execCntSnapTake fn s
  | .swardCoreGate core => Sys2Proof.Machine.execSwardCoreGate core s
  | .swardCaptureDone p => Sys2Proof.Machine.execSwardCaptureDone p s
  | .swardWriteDone p ok => Sys2Proof.Machine.execSwardWriteDone p ok s
  | .heartbeatMissed proc => Sys2Proof.Machine.execHeartbeatMissed proc s
  | .coreControlFault core => Sys2Proof.Machine.execCoreControlFault core s
  | .paddockUnitFault p => Sys2Proof.Machine.execPaddockUnitFault p s
  | .deviceFatal cause unit => Sys2Proof.Machine.execDeviceFatal cause unit s
  | .pllLockLoss clock => Sys2Proof.Machine.execPllLockLoss clock s
  | .serdesPllLoss link => Sys2Proof.Machine.execSerdesPllLoss link s
  | .regulatorFault unit => Sys2Proof.Machine.execRegulatorFault unit s
  | .thermalTrip sensor celsius => Sys2Proof.Machine.execThermalTrip sensor celsius s
  | .coreSelWrite v => Sys2Proof.Machine.execCoreSelWrite v s
  | .corePllRelockDone => Sys2Proof.Machine.execCorePllRelockDone s
  | .refusedClear => Sys2Proof.Machine.execRefusedClear s
  | .configurationWrite fn item v => Sys2Proof.Machine.execConfigurationWrite fn item v s
  | .hostLinkRetrain up speed width => Sys2Proof.Machine.execHostLinkRetrain up speed width s
  | .killNDeassert => Sys2Proof.Machine.execKillNDeassert s
  | .expanderMediaEvent port => Sys2Proof.Machine.execExpanderMediaEvent port s
  | .farRetrainExhausted port => Sys2Proof.Machine.execFarRetrainExhausted port s
  | .debugChallengeExpiry => Sys2Proof.Machine.execDebugChallengeExpiry s
  | .debugZeroiseDone => Sys2Proof.Machine.execDebugZeroiseDone s

end Sys2Proof.Machine
end

