-- ==== Sys2Proof/Machine/Step.lean ====
section
/-! DEFINITION. One step of the block: the command at the front of the queue, or a core clock when none waits. -/

namespace Sys2Proof.Machine

/-- The state without the command at the front of its queue. -/
def State.setPending (s : State) (l : List Instr) : State := { s with pending := l }

/-- A step takes the command at the front of the queue and runs it on the state with the queue's rest; on an empty queue one
core clock passes (log entry 2). -/
def step (s : State) : Host.Outcome State Fault Refusal :=
  match s.pending with
  | i :: rest => exec i (s.setPending rest)
  | [] => .next s.clock

/-- The state with the command that a table word spells put at the front of the queue; unchanged where it spells none. -/
def State.withFetchWord (s : State) (nbits w : Nat) : State :=
  match decodeTableWord nbits w with
  | some i => s.setPending (i :: s.pending)
  | none => s

end Sys2Proof.Machine
end

