-- ==== Sys2Proof/Safety.lean ====
section
/-! DEFINITION. What the statements call a sound state: memories, poison marks and registers in their one canonical form; and what a
step never undoes. -/

namespace Sys2Proof

/-- Keys of a table, strictly rising: each thing has one home. -/
def Machine.tsorted {α : Type} : Machine.Tbl α → Bool
  | [] => true
  | [_] => true
  | e :: e' :: t => Machine.keyLt e.1 e'.1 && Machine.tsorted (e' :: t)

/-- The memories in canonical form: bytes of HBM, of the far tier, of the shelf and working stores, and the marks of poison. -/
def Machine.Mems.wf (m : Machine.Mems) : Bool :=
  Machine.Memory.wf m.hbm && Machine.Memory.wf m.far && Machine.Memory.wf m.shelf && Machine.Memory.wf m.ws &&
    Machine.twf (fun _ => false) m.hbmPoison && Machine.twf (fun _ => false) m.farPoison &&
    Machine.twf (fun _ => false) m.shelfPoison && Machine.twf (fun _ => false) m.wsPoison

/-- A state in canonical form: its memories, the trays' bytes, and one value for each register field. -/
def Machine.State.wf (s : Machine.State) : Bool :=
  Machine.Mems.wf s.mem && Machine.Memory.wf s.shelf.tray && Machine.tsorted s.regs

/-- What a command never undoes: the queue behind it, what has been sent, the free values taken, and the canonical form. -/
structure Machine.Keeps (s t : Machine.State) : Prop where
  pending : t.pending = s.pending
  sent : s.out <+: t.out
  free : s.free ≤ t.free
  wf : s.wf = true → t.wf = true

/-! ### Words of the statements -/

/-- Nothing but registers differs, and of those no field but the ones of `fs`. -/
def Machine.OnlyRegs (s t : Machine.State) (fs : List Machine.Fld) : Prop :=
  t = { s with regs := t.regs } ∧ ∀ (g : Machine.Fld) (i j : Nat), (∀ f ∈ fs, g.id ≠ f.id) → t.rd g i j = s.rd g i j

/-- Nothing but registers differs, and of those nothing but the given places (field, instance, index). -/
def Machine.OnlyKeys (s t : Machine.State) (ks : List (Machine.Fld × Nat × Nat)) : Prop :=
  t = { s with regs := t.regs } ∧
    ∀ (g : Machine.Fld) (i j : Nat), (∀ k ∈ ks, ¬ (g.id = k.1.id ∧ i = k.2.1 ∧ j = k.2.2)) → t.rd g i j = s.rd g i j

/-- Index `j` of field `f` in instance `i` reads `v` afterwards, and nothing else differs. -/
def Machine.Sets (s t : Machine.State) (f : Machine.Fld) (i j v : Nat) : Prop :=
  t.rd f i j = v ∧ t = { s with regs := t.regs } ∧
    ∀ (g : Machine.Fld) (i' j' : Nat), ¬ (g.id = f.id ∧ i' = i ∧ j' = j) → t.rd g i' j' = s.rd g i' j'

/-- A packet command passes every check of R489 and goes on: its queue is heard, the module is neither in the fatal state nor in
recovery, its caller may issue it, and the command's own checks give status 0. -/
def Machine.State.goes (s : Machine.State) (h : Hdr) (op status : Nat) : Prop :=
  s.deaf h = false ∧ s.rd Machine.F.HIF_FATAL_FATAL 0 = 0 ∧ (s.trust.recovery = false ∨ op = 0x71 ∨ op = 0x72) ∧
    s.callStatus h op = 0 ∧ status = 0

/-- No host page of the ranges has to be translated first (R467, R470). -/
def Machine.State.untranslated (s : Machine.State) (h : Hdr) (rs : List Machine.HostRange) : Prop :=
  (s.cfgOf h.fn.val).ats = false ∨ s.needPages h.fn.val rs = []

/-- The pages of the ranges are all present (R467). -/
def Machine.State.translated (s : Machine.State) (h : Hdr) (rs : List Machine.HostRange) : Prop :=
  (s.cfgOf h.fn.val).ats = true ∧ s.needPages h.fn.val rs ≠ [] ∧ (s.needPages h.fn.val rs).length ≤ 1024 ∧
    s.missing h.fn.val (s.needPages h.fn.val rs) = []

/-- The command has started; with translation, it holds its pages (R467). -/
def Machine.State.begun (s : Machine.State) (h : Hdr) (op : Nat) (cmd : Instr) (rs : List Machine.HostRange) : Machine.State :=
  let ps := s.needPages h.fn.val rs
  if (s.cfgOf h.fn.val).ats = false ∨ ps = [] then s.start h op (some cmd)
  else { s.start h op (some cmd) with
    taken := (s.start h op (some cmd)).taken.map (fun t => if t.is h then { t with pages := ps } else t) }

/-- The instruction that an issue finds: its core, paddock, run, stream, position, words and iteration (R79, R86). -/
def Machine.State.ctxOf (s : Machine.State) (a : At) (r : Machine.Run) (ws : List Nat) : Machine.Ctx :=
  let c := a.core.val
  let t := s.slipDone c
  ⟨c, Machine.corePdk c, r, a.stream.val, t.posAt c r a.stream.val, ws, (t.streamOf c r.side a.stream.val).iter⟩

/-- The instruction of `a` is due on a live core and nothing holds its tick: words `ws` of opcode `op`, run `r`. -/
def Machine.State.issues (s : Machine.State) (op : Nat) (a : At) (r : Machine.Run) (ws : List Nat) : Prop :=
  let c := a.core.val
  s.sideOf (Machine.corePdk c) a.armed = some r ∧ s.wordAt c r a.stream.val = some ws ∧ s.coreLive c = true ∧
    (s.runsOf (Machine.corePdk c)).cause = none ∧ Machine.wOp (Machine.nth ws 0) = op ∧
    s.dueTick c r a.stream.val (Machine.nth ws 0) = some (s.tickOf c) ∧ s.unresolved c = false ∧ s.blockOf c = none ∧
    (s.slipDone c).tailBreach (s.ctxOf a r ws) = false

/-- The state with the instruction issued: the pending slip of its core is over and its stream has moved on. -/
def Machine.State.issued (s : Machine.State) (a : At) (r : Machine.Run) (ws : List Nat) : Machine.State :=
  (s.slipDone a.core.val).advance (s.ctxOf a r ws)

/-- A message of the kind is taken from its port or die queue and admitted (R567, R574). -/
def Machine.State.admits (s : Machine.State) (port : Option (Fin 12)) (m : Msg) (kind rank : Nat) (t : Machine.State) : Prop :=
  s.takeMsg port m kind = some t ∧ t.admitRank m = .ok rank ∧ t.dumped m = false

/-- A PORT_CONTROL command passes its checks (R553): its port exists, its argument is not `bad`, and the port's state is not `wrong`. -/
def Machine.State.portGoes (s : Machine.State) (h : Hdr) (port : Nat) (bad wrong : Bool) : Prop :=
  s.goes h Machine.opPortControl
    (Machine.firstStatus [Machine.failIf (decide (11 < port) || bad) 0x803, Machine.failIf wrong 0x801])

/-- The state in which a PORT_CONTROL command has started. -/
def Machine.State.portStart (s : Machine.State) (h : Hdr) (cmd : Instr) : Machine.State :=
  s.start h Machine.opPortControl (some cmd) [s.now]

/-- An edit of group 0x3 that nothing stands in front of, as its executor takes it up (R324, R493). -/
def Machine.State.editing (s : Machine.State) (h : Hdr) (op : Nat) (cmd : Instr) : Machine.State :=
  (((s.start h op (some cmd)).setPhase h .waiting).setEdits (Machine.paddockOf h) [(h, cmd)]).setPhase h .executing

/-- The edit command `cmd` passes its checks, nothing stands in front of it, and its effect `t` leaves limbo within its size (R327). -/
def Machine.State.edits (s : Machine.State) (h : Hdr) (op status : Nat) (cmd : Instr) (t : Machine.State) : Prop :=
  s.goes h op status ∧ s.editsOf (Machine.paddockOf h) = [] ∧ s.moveOf (Machine.paddockOf h) = none ∧
    Machine.State.fitsLimbo (Machine.paddockOf h) ((s.editing h op cmd).doEdit cmd) = some t

/-- A request comes over an established session of a running root of trust (R602, R603). -/
def Machine.State.heard (s : Machine.State) (c : Chan) : Prop := s.rotUp c.transport.val = true ∧ s.established c = true

/-- A step that answers a next state. -/
def Answers (o : Host.Outcome Machine.State Machine.Fault Machine.Refusal) : Prop := ∃ t, o = .next t

end Sys2Proof
end

