-- ==== Sys2Proof/Certificates/Slice0/Obligations.lean ====
section
/-! DEFINITION. The statements for the provers. -/

open Sys2Proof Sys2Proof.Machine

/-- A step runs the command at the front of the queue, and an idle step is one core clock. Rests on 17_command_packets.md. -/
def Obligations.StepRunsFront : Prop :=
  (∀ (s : State) (i : Instr) (rest : List Instr), s.pending = i :: rest → step s = exec i (s.setPending rest)) ∧
  (∀ s : State, s.pending = [] → step s = .next s.clock)

/-- Every command answers a next state, and none undoes what was sent, the queue, or the form of the state. Rests on 17_command_packets.md, 21_counters_and_hang_dumps.md. -/
def Obligations.EveryCommandAnswers : Prop :=
  ∀ (i : Instr) (s : State), ∃ t, exec i s = .next t ∧ Keeps s t

/-- Every step keeps memories and registers in canonical form, takes one command, and never unsends. Rests on 02_core_and_shelf_store.md, 13_hbm_and_address_map.md, 17_command_packets.md. -/
def Obligations.StepKeepsForm : Prop :=
  ∀ s : State, s.wf = true → ∃ t, step s = .next t ∧ t.wf = true ∧ s.out <+: t.out ∧ s.free ≤ t.free ∧ t.pending = s.pending.tail

/-- What reset leaves. Rests on 01_paddocks_and_roles.md R37, 23_clocks_reset_and_power_up.md R686, 13_hbm_and_address_map.md. -/
def Obligations.ResetState : Prop :=
  State.reset.wf = true ∧ State.reset.pending = [] ∧ State.reset.out = [] ∧ State.reset.mem = ⟨[], [], [], [], [], [], [], []⟩ ∧
  (∀ p : Fin 16, State.reset.pdkState p.val = pdkHandover ∧ State.reset.role p.val = 0 ∧ State.reset.rd F.PDK_STATE_GROUP_BASE p.val = p.val) ∧
  State.reset.rd F.RST_STATUS_STAGE 0 = 1 ∧ State.reset.rd F.RST_STATUS_READY 0 = 0 ∧ State.reset.now = 0

/-- Clearing a record's VALID, WIN0_ERR, HANDOVER_LATE or REFUSED writes that bit and nothing else. Rests on 03_schedule_contract.md R113, 04_current_budget.md R133, 10_attention_engine.md R312, 11_kv_context_store.md R352, 12_table_engine.md R379, 13_hbm_and_address_map.md R407, 14_stored_data_integrity.md R434, 15_far_tier.md, 16_host_interface_and_translation.md R481, 19_pods_routes_and_collectives.md R592, 01_paddocks_and_roles.md R37, 23_clocks_reset_and_power_up.md R692. -/
def Obligations.RecordsRearm : Prop :=
  ∀ s : State,
  (∀ core : Fin 128, ∃ t, exec (.schCslip0ValidClear core) s = .next t ∧ Sets s t F.SCH_CSLIP0_VALID core.val 0 0) ∧
  (∀ core : Fin 128, ∃ t, exec (.atnStale0ValidClear core) s = .next t ∧ Sets s t F.ATN_STALE0_VALID core.val 0 0) ∧
  (∀ p : Fin 16, ∃ t, exec (.budRec0ValidClear p) s = .next t ∧ Sets s t F.BUD_REC0_VALID p.val 0 0) ∧
  (∀ p : Fin 16, ∃ t, exec (.ctxDefer0ValidClear p) s = .next t ∧ Sets s t F.CTX_DEFER0_VALID p.val 0 0) ∧
  (∀ p : Fin 16, ∃ t, exec (.tblRec0ValidClear p) s = .next t ∧ Sets s t F.TBL_REC0_VALID p.val 0 0) ∧
  (∀ p : Fin 16, ∃ t, exec (.hbmErr0ValidClear p) s = .next t ∧ Sets s t F.HBM_ERR0_VALID p.val 0 0) ∧
  (∀ p : Fin 16, ∃ t, exec (.mowErr0ValidClear p) s = .next t ∧ Sets s t F.MOW_ERR0_VALID p.val 0 0) ∧
  (∀ p : Fin 16, ∃ t, exec (.farErr0ValidClear p) s = .next t ∧ Sets s t F.FAR_ERR0_VALID p.val 0 0) ∧
  (∀ p : Fin 16, ∃ t, exec (.rteErr0ValidClear p) s = .next t ∧ Sets s t F.RTE_ERR0_VALID p.val 0 0) ∧
  (∀ p : Fin 16, ∃ t, exec (.handoverLateClear p) s = .next t ∧ Sets s t F.PDK_STATE_HANDOVER_LATE p.val 0 0) ∧
  (∀ fn : Fin 17, ∃ t, exec (.hifErr0ValidClear fn) s = .next t ∧ Sets s t F.HIF_ERR0_VALID fn.val 0 0) ∧
  (∀ fn : Fin 17, ∃ t, exec (.win0ErrClear fn) s = .next t ∧ Sets s t F.HIF_WIN0_CTL_WIN0_ERR fn.val 0 0) ∧
  (∃ t, exec .refusedClear s = .next t ∧ Sets s t F.CLK_CFG_REFUSED 0 0 0)

/-- Threshold and configuration writes store the value clamped to its range. Rests on 02_core_and_shelf_store.md R76, 03_schedule_contract.md R113, 04_current_budget.md R133, 07_matrix_engine.md R215, 16_host_interface_and_translation.md R481, 18_pod_link.md R559, 14_stored_data_integrity.md R434, 11_kv_context_store.md R352, 19_pods_routes_and_collectives.md R592. -/
def Obligations.ClampedWrites : Prop :=
  ∀ s : State,
  (∀ (core : Fin 128) (v : Nat), v < 16 → ∃ t, exec (.ceLimitWrite core v) s = .next t ∧ Sets s t F.DRW_SHELF_CFG_CE_LIMIT core.val 0 (max v 1)) ∧
  (∀ (p : Fin 16) (v : Nat), v < 2 ^ 20 → ∃ t, exec (.waitDefaultUsWrite p v) s = .next t ∧
    Sets s t F.SCH_PCTL_WAIT_DEFAULT_US p.val 0 (min (max v 1) 1000000)) ∧
  (∀ (p : Fin 16) (v : Nat), v < 32 → ∃ t, exec (.chkTWrite p v) s = .next t ∧ Sets s t F.MXE_PCFG_CHK_T p.val 0 (min (max v 7) 18)) ∧
  (∀ (fn : Fin 17) (v : Nat), ∃ t, exec (.xlateTimeoutMsWrite fn v) s = .next t ∧
    Sets s t F.HIF_CFG_XLATE_TIMEOUT_MS fn.val 0 (min (max v 1) 60000)) ∧
  (∀ (die : Fin 2) (mv hold : Nat), mv < 1024 → hold < 4096 → ∃ t, exec (.budDcfgWrite die mv hold) s = .next t ∧
    t.rd F.BUD_DCFG_DROOP_MV die.val = min (max mv 600) 710 ∧ t.rd F.BUD_DCFG_HOLD_CLOCKS die.val = max hold 64 ∧
    OnlyKeys s t [(F.BUD_DCFG_DROOP_MV, die.val, 0), (F.BUD_DCFG_HOLD_CLOCKS, die.val, 0)]) ∧
  (∀ (g : Fin 16) (v : Nat), ∃ t, exec (.mowCfgWrite g v) s = .next t ∧
    t.rd F.MOW_CFG_SCRUB_INTERVAL g.val = v % 2 ^ 32 ∧ t.rd F.MOW_CFG_PATCH_CE g.val = max (bitsAt v 32 4) 1 ∧
    OnlyKeys s t [(F.MOW_CFG_SCRUB_INTERVAL, g.val, 0), (F.MOW_CFG_PATCH_CE, g.val, 0)]) ∧
  (∀ (port : Fin 12) (v : Nat), ∃ t, exec (.plkCfgWrite port v) s = .next t ∧
    t.rd F.PLK_CFG_ASYM_PS port.val = bitsAt v 16 16 ∧ t.rd F.PLK_CFG_LANE_FAIL_LOG2 port.val = max 12 (min 24 (bitsAt v 0 5)) ∧
    OnlyKeys s t [(F.PLK_CFG_ASYM_PS, port.val, 0), (F.PLK_CFG_LANE_FAIL_LOG2, port.val, 0)]) ∧
  (∀ (p : Fin 16) (v : Nat), ∃ t, exec (.ctxCfgWrite p v) s = .next t ∧
    t.rd F.CTX_CFG_LOW_WM p.val = bitsAt v 0 20 ∧ t.rd F.CTX_CFG_HIGH_WM p.val = max (bitsAt v 0 20) (bitsAt v 20 20) ∧
    t.rd F.CTX_CFG_DEMOTE_EN p.val = bitsAt v 42 1 ∧ t.rd F.CTX_CFG_DROP_EN p.val = bitsAt v 43 1 ∧
    OnlyKeys s t [(F.CTX_CFG_LOW_WM, p.val, 0), (F.CTX_CFG_HIGH_WM, p.val, 0), (F.CTX_CFG_DEMOTE_EN, p.val, 0), (F.CTX_CFG_DROP_EN, p.val, 0)]) ∧
  (∀ (p : Fin 16) (v : Nat), ∃ t, exec (.ctxFarcfgWrite p v) s = .next t ∧
    t.rd F.CTX_FARCFG_FAR_KV p.val = max (min (bitsAt v 0 24) (min (s.rd F.PDK_QUOTA_FAR_PAGES p.val) 15728640))
      ((s.farUsed p.val).foldl (fun m x => max m (x + 1)) 0) % 2 ^ 24 ∧ OnlyKeys s t [(F.CTX_FARCFG_FAR_KV, p.val, 0)]) ∧
  (∀ v : Nat, v < 64 → ∃ t, exec (.devIdWrite v) s = .next t ∧ t.rd F.RTE_DCFG_DEV_ID 0 = v ∧ t.rd F.RTE_DCFG_DEV_VALID 0 = 1 ∧
    OnlyKeys s t [(F.RTE_DCFG_DEV_ID, 0, 0), (F.RTE_DCFG_DEV_VALID, 0, 0)])

/-- CAL_PERIOD_MS and the far slot table keep the old setting until the new one is in force. Rests on 13_hbm_and_address_map.md R407, 15_far_tier.md. -/
def Obligations.ScheduledWrites : Prop :=
  ∀ s : State,
  (∀ v : Nat, v < 512 → ∃ t, exec (.calPeriodMsWrite v) s = .next t ∧ t.rd F.HBM_DCFG_CAL_PERIOD_MS 0 = min (max v 8) 256 ∧
    t.msys.calOld = s.calMs ∧ t.msys.calUntil = (s.now / (min (max v 8) 256 * 1000000) + 1) * (min (max v 8) 256 * 1000000) ∧
    t.mem = s.mem ∧ ∀ (g : Fld) (i j : Nat), g.id ≠ F.HBM_DCFG_CAL_PERIOD_MS.id → t.rd g i j = s.rd g i j) ∧
  (∀ (port : Fin 2) (k : Fin 8) (v : Nat), ∃ t, exec (.farSlotWrite port k.castSucc v) s = .next t ∧
    (∀ j : Fin 8, t.rd F.FAR_SLOT_OWNED port.val (8 * k.val + j.val) = bitsAt v (8 * j.val + 7) 1 ∧
      t.rd F.FAR_SLOT_PADDOCK port.val (8 * k.val + j.val) = bitsAt v (8 * j.val) 4) ∧
    t.farInForce port.val = s.farInForce port.val ∧ t.mem = s.mem ∧
    ∀ (g : Fld) (i j : Nat), g.id ≠ F.FAR_SLOT_OWNED.id → g.id ≠ F.FAR_SLOT_PADDOCK.id → t.rd g i j = s.rd g i j) ∧
  (∀ (port : Fin 2) (v : Nat), ∃ t, exec (.farSlotWrite port 8 v) s = .next t ∧ t.rd F.FAR_PSTATUS_STRICT port.val = v % 2 ∧
    t.farInForce port.val = s.farInForce port.val ∧ t.mem = s.mem ∧
    ∀ (g : Fld) (i j : Nat), g.id ≠ F.FAR_PSTATUS_STRICT.id → t.rd g i j = s.rd g i j)

/-- What a register access through BAR0 does. Rests on 00_scope.md, 16_host_interface_and_translation.md R459. -/
def Obligations.BarAccess : Prop :=
  ∀ (s : State) (fn : Fin 17) (off width : Nat),
  (∀ (data : Word64) (r : RegAt), s.barClosed fn.val = false → ¬ (msixBase fn.val ≤ off ∧ off < msixBase fn.val + 16 * msixCount fn.val) →
    findReg fn.val off = some r → r.accepts width = true → ∃ t, exec (.registerWrite fn off width data) s = .next t ∧
      t = (r.fields (blockOff fn.val off)).foldl (fun s x =>
        if (if r.byte = 0 then 0 else 32) ≤ x.2.2 ∧ x.2.2 < (if width = 64 then 64 else (if r.byte = 0 then 0 else 32) + 32) ∧
            s.mayStore fn.val x.1 r.inst x.2.1 = true then
          s.wr x.1 r.inst (vectorMask fn.val x.1 (bitsAt data.toNat (x.2.2 - (if r.byte = 0 then 0 else 32)) x.1.width)) x.2.1
        else s) s ∧ OnlyRegs s t plainFields) ∧
  (∀ (data : Word64) (r : RegAt), s.barClosed fn.val = false → ¬ (msixBase fn.val ≤ off ∧ off < msixBase fn.val + 16 * msixCount fn.val) →
    findReg fn.val off = some r → r.accepts width = false → exec (.registerWrite fn off width data) s = .next (s.countRegErr fn.val)) ∧
  (∀ data : Word64, s.barClosed fn.val = true → exec (.registerWrite fn off width data) s = .next s) ∧
  (∀ (r : RegAt) (write : Bool), findReg fn.val off = some r → r.accepts width = false →
    exec (.wrongWidthAccess fn off width write) s =
      .next (if write then s.countRegErr fn.val else (s.countRegErr fn.val).emit (.readData fn.val (2 ^ width - 1)))) ∧
  (∀ write : Bool, findReg fn.val off = none → 0 < width → exec (.reservedOffsetAccess fn off width write) s =
      .next (if write then s else s.emit (.readData fn.val 0))) ∧
  (findReg fn.val off = none → s.barClosed fn.val = false → s.hostRead fn.val off width = (0, s)) ∧
  (∀ v : Nat, ∃ t, exec (.msixUnmask fn v) s = .next t ∧ t.regs = s.regs ∧ t.mem = s.mem ∧
    tget true t.host.masked [fn.val, v] = false ∧ tget false t.host.msgPending [fn.val, v] = false ∧
    t.out = s.out ++ (if tget false s.host.msgPending [fn.val, v] then [.msix fn.val v] else [])) ∧
  (∀ tBit inStream : Bool, fn.val ≠ 0 → s.rd F.RTP_TDI_STATE_STATE fn.val = 2 → ¬ (tBit = true ∧ inStream = true) →
    exec (.tdiBarRequestRefused fn tBit inStream) s = .next (s.emit (.unsupportedRequest fn.val)))

/-- Enabling and disabling queues. Rests on 17_command_packets.md R484, 17_command_packets.md R508, 23_clocks_reset_and_power_up.md R687. -/
def Obligations.QueueEnables : Prop :=
  ∀ (s : State) (fn : Fin 17) (k : Fin 8) (tr : Bool),
  (s.barClosed fn.val = false → s.holdEnable fn.val k.val = false → ∃ t, exec (.sqPairEnable fn k tr) s = .next t ∧ t = s.enablePair fn.val k.val tr ∧
    t.mem = s.mem ∧ t.out = s.out ∧
    (∀ e, s.enableErr fn.val
        (s.baseOk fn.val (s.rd F.CMQ_SQ_BASE_POINTER fn.val k.val) (64 * (s.rd F.CMQ_CFG_SQ_SIZE_M1 fn.val k.val + 1)) false true &&
          (ptrTag (s.rd F.CMQ_CQ_BASE_POINTER fn.val k.val) = 1 &&
            s.baseOk fn.val (s.rd F.CMQ_CQ_BASE_POINTER fn.val k.val) (32 * (s.rd F.CMQ_CFG_CQ_SIZE_M1 fn.val k.val + 1)) true false)) tr = e →
      t.rd F.CMQ_CFG_ERR fn.val k.val = e % 8 ∧ t.rd F.CMQ_CFG_EN fn.val k.val = (if e = 0 then 1 else 0) ∧
      (e ≠ 0 → OnlyKeys s t [(F.CMQ_CFG_EN, fn.val, k.val), (F.CMQ_CFG_ERR, fn.val, k.val)]) ∧
      (e = 0 → t.rd F.CMQ_CFG_IDLE fn.val k.val = 0 ∧
        (fn.val ≠ 0 → (s.pdkState (pdkOf fn.val) = pdkAssigned ∨ s.pdkState (pdkOf fn.val) = pdkQuiesced) →
          t.pdkState (pdkOf fn.val) = pdkActive)))) ∧
  (s.barClosed fn.val = false → s.holdEnable fn.val 8 = false → exec (.pqEnable fn true tr) s = .next (s.enablePq fn.val tr)) ∧
  (s.barClosed fn.val = false → s.holdEnable fn.val 9 = false → exec (.eqEnable fn true tr) s = .next (s.enableEq fn.val tr)) ∧
  (s.barClosed fn.val = false → fn.val ≠ 0 → exec (.pqEnable fn false tr) s = .next (s.wr F.CMQ_PQ_CFG_EN fn.val 0)) ∧
  (s.barClosed fn.val = false → fn.val ≠ 0 → exec (.eqEnable fn false tr) s = .next (s.wr F.CMQ_EQ_CFG_EN fn.val 0)) ∧
  (s.holdEnable 0 k.val = true → exec (.sqPairEnable 0 k tr) s = .next (s.hold k.val)) ∧
  (s.barClosed fn.val = false → ∃ t, exec (.sqPairDisable fn k) s = .next t ∧ t.rd F.CMQ_CFG_EN fn.val k.val = 0 ∧ t.mem = s.mem ∧
    (s.rd F.CMQ_SQ_HEAD_OUTSTANDING fn.val k.val = 0 → t.rd F.CMQ_CFG_IDLE fn.val k.val = 1) ∧
    ∀ (g : Fld) (i j : Nat), g.id ≠ F.CMQ_CFG_EN.id → g.id ≠ F.CMQ_CFG_IDLE.id → t.rd g i j = s.rd g i j) ∧
  (s.barClosed fn.val = true → exec (.sqPairEnable fn k tr) s = .next s ∧ exec (.sqPairDisable fn k) s = .next s ∧
    exec (.pqEnable fn true tr) s = .next s ∧ exec (.eqEnable fn true tr) s = .next s)

/-- A write that changes a queue base or size resets that queue, and is ignored while the queue is enabled. Rests on 17_command_packets.md R487, 17_command_packets.md R508. -/
def Obligations.QueueBases : Prop :=
  ∀ (s : State) (fn : Fin 17) (v : Nat), s.barClosed fn.val = false →
  (∀ k : Fin 8, s.rd F.CMQ_CFG_EN fn.val k.val ≠ 1 →
    (s.rd F.CMQ_SQ_BASE_POINTER fn.val k.val ≠ v % 2 ^ 64 → ∃ t, exec (.queueBaseWrite fn (.sqBase k) v) s = .next t ∧
      t.rd F.CMQ_SQ_BASE_POINTER fn.val k.val = v % 2 ^ 64 ∧ t.rd F.CMQ_SQ_HEAD_INDEX fn.val k.val = 0 ∧ t.rd F.CMQ_SQ_TAIL_INDEX fn.val k.val = 0 ∧
      OnlyKeys s t [(F.CMQ_SQ_BASE_POINTER, fn.val, k.val), (F.CMQ_SQ_HEAD_INDEX, fn.val, k.val), (F.CMQ_SQ_TAIL_INDEX, fn.val, k.val)]) ∧
    (s.rd F.CMQ_CQ_BASE_POINTER fn.val k.val ≠ v % 2 ^ 64 → ∃ t, exec (.queueBaseWrite fn (.cqBase k) v) s = .next t ∧
      t.rd F.CMQ_CQ_BASE_POINTER fn.val k.val = v % 2 ^ 64 ∧ t.rd F.CMQ_CQ_HEAD_INDEX fn.val k.val = 0 ∧ t.cqTail fn.val k.val = 0 ∧
      t.cqPhase fn.val k.val = 1 ∧
      OnlyKeys s t [(F.CMQ_CQ_BASE_POINTER, fn.val, k.val), (F.CMQ_CQ_HEAD_INDEX, fn.val, k.val), (F.CMQ_CQ_TAIL_INDEX, fn.val, k.val), (F.CMQ_CQ_TAIL_PHASE, fn.val, k.val)]) ∧
    (s.rd F.CMQ_CFG_SQ_SIZE_M1 fn.val k.val ≠ sizeField v → ∃ t, exec (.queueBaseWrite fn (.sqSize k) v) s = .next t ∧
      t.rd F.CMQ_CFG_SQ_SIZE_M1 fn.val k.val = sizeField v ∧ t.rd F.CMQ_SQ_HEAD_INDEX fn.val k.val = 0 ∧ t.rd F.CMQ_SQ_TAIL_INDEX fn.val k.val = 0 ∧
      OnlyKeys s t [(F.CMQ_CFG_SQ_SIZE_M1, fn.val, k.val), (F.CMQ_SQ_HEAD_INDEX, fn.val, k.val), (F.CMQ_SQ_TAIL_INDEX, fn.val, k.val)]) ∧
    (s.rd F.CMQ_CFG_CQ_SIZE_M1 fn.val k.val ≠ sizeField v → ∃ t, exec (.queueBaseWrite fn (.cqSize k) v) s = .next t ∧
      t.cqEntries fn.val k.val = sizeField v + 1 ∧ t.rd F.CMQ_CQ_HEAD_INDEX fn.val k.val = 0 ∧ t.cqTail fn.val k.val = 0 ∧ t.cqPhase fn.val k.val = 1 ∧
      OnlyKeys s t [(F.CMQ_CFG_CQ_SIZE_M1, fn.val, k.val), (F.CMQ_CQ_HEAD_INDEX, fn.val, k.val), (F.CMQ_CQ_TAIL_INDEX, fn.val, k.val), (F.CMQ_CQ_TAIL_PHASE, fn.val, k.val)])) ∧
  (∀ k : Fin 8, s.rd F.CMQ_CFG_EN fn.val k.val = 1 → ∀ reg ∈ [QueueReg.sqBase k, .cqBase k, .sqSize k, .cqSize k],
    exec (.queueBaseWrite fn reg v) s = .next s) ∧
  (s.rd F.CMQ_PQ_CFG_EN fn.val ≠ 1 → s.rd F.CMQ_PQ_BASE_POINTER fn.val ≠ v % 2 ^ 64 → ∃ t, exec (.queueBaseWrite fn .pqBase v) s = .next t ∧
    t.rd F.CMQ_PQ_BASE_POINTER fn.val = v % 2 ^ 64 ∧ t.rd F.CMQ_PQ_HEAD_INDEX fn.val = 0 ∧ t.rd F.CMQ_PQ_TAIL_INDEX fn.val = 0 ∧
    OnlyKeys s t [(F.CMQ_PQ_BASE_POINTER, fn.val, 0), (F.CMQ_PQ_HEAD_INDEX, fn.val, 0), (F.CMQ_PQ_TAIL_INDEX, fn.val, 0)]) ∧
  (s.rd F.CMQ_EQ_CFG_EN fn.val ≠ 1 → s.rd F.CMQ_EQ_BASE_POINTER fn.val ≠ v % 2 ^ 64 → ∃ t, exec (.queueBaseWrite fn .eqBase v) s = .next t ∧
    t.rd F.CMQ_EQ_BASE_POINTER fn.val = v % 2 ^ 64 ∧ t.rd F.CMQ_EQ_HEAD_INDEX fn.val = 0 ∧ t.rd F.CMQ_EQ_TAIL_INDEX fn.val = 0 ∧
    t.rd F.CMQ_EQ_TAIL_PHASE fn.val = 1 ∧
    OnlyKeys s t [(F.CMQ_EQ_BASE_POINTER, fn.val, 0), (F.CMQ_EQ_HEAD_INDEX, fn.val, 0), (F.CMQ_EQ_TAIL_INDEX, fn.val, 0), (F.CMQ_EQ_TAIL_PHASE, fn.val, 0)])

/-- Doorbells move one index, and a value out of range changes nothing but ERR. Rests on 17_command_packets.md R485, 17_command_packets.md R496. -/
def Obligations.Doorbells : Prop :=
  ∀ (s : State) (fn : Fin 17) (k : Fin 8) (idx : Nat), s.barClosed fn.val = false →
  (¬ (s.rd F.CMQ_CFG_TAILWORD fn.val k.val = 1 ∧ ptrTag (s.rd F.CMQ_SQ_BASE_POINTER fn.val k.val) = 0) →
    idx ≤ s.rd F.CMQ_CFG_SQ_SIZE_M1 fn.val k.val → idx < 4096 →
    ∃ t, exec (.sqTailDoorbell fn k idx) s = .next t ∧ Sets s t F.CMQ_SQ_TAIL_INDEX fn.val k.val idx) ∧
  (¬ (s.rd F.CMQ_CFG_TAILWORD fn.val k.val = 1 ∧ ptrTag (s.rd F.CMQ_SQ_BASE_POINTER fn.val k.val) = 0) →
    s.rd F.CMQ_CFG_SQ_SIZE_M1 fn.val k.val < idx →
    ∃ t, exec (.sqTailDoorbell fn k idx) s = .next t ∧ Sets s t F.CMQ_CFG_ERR fn.val k.val 5) ∧
  (s.rd F.CMQ_CFG_TAILWORD fn.val k.val = 1 → ptrTag (s.rd F.CMQ_SQ_BASE_POINTER fn.val k.val) = 0 →
    exec (.sqTailDoorbell fn k idx) s = .next s) ∧
  (headOk (s.rd F.CMQ_CQ_HEAD_INDEX fn.val k.val) (s.cqTail fn.val k.val) idx (s.cqEntries fn.val k.val) = true → idx < 4096 →
    ∃ t, exec (.cqHeadDoorbell fn k idx) s = .next t ∧ Sets s t F.CMQ_CQ_HEAD_INDEX fn.val k.val idx) ∧
  (headOk (s.rd F.CMQ_CQ_HEAD_INDEX fn.val k.val) (s.cqTail fn.val k.val) idx (s.cqEntries fn.val k.val) = false →
    ∃ t, exec (.cqHeadDoorbell fn k idx) s = .next t ∧ Sets s t F.CMQ_CFG_ERR fn.val k.val 5) ∧
  (idx < 8 → ∃ t, exec (.pqTailDoorbell fn idx) s = .next t ∧ Sets s t F.CMQ_PQ_TAIL_INDEX fn.val 0 idx) ∧
  (8 ≤ idx → ∃ t, exec (.pqTailDoorbell fn idx) s = .next t ∧ Sets s t F.CMQ_PQ_CFG_ERR fn.val 0 5) ∧
  (headOk (s.rd F.CMQ_PCQ_HEAD_INDEX fn.val) (s.cqTail fn.val 8) idx 8 = true →
    ∃ t, exec (.pcqHeadDoorbell fn idx) s = .next t ∧ Sets s t F.CMQ_PCQ_HEAD_INDEX fn.val 0 idx) ∧
  (headOk (s.rd F.CMQ_PCQ_HEAD_INDEX fn.val) (s.cqTail fn.val 8) idx 8 = false →
    ∃ t, exec (.pcqHeadDoorbell fn idx) s = .next t ∧ Sets s t F.CMQ_PQ_CFG_ERR fn.val 0 5) ∧
  (headOk (s.rd F.CMQ_EQ_HEAD_INDEX fn.val) (s.rd F.CMQ_EQ_TAIL_INDEX fn.val) idx (s.eqEntries fn.val) = true → idx < 4096 →
    ∃ t, exec (.eqHeadDoorbell fn idx) s = .next t ∧ Sets s t F.CMQ_EQ_HEAD_INDEX fn.val 0 idx) ∧
  (headOk (s.rd F.CMQ_EQ_HEAD_INDEX fn.val) (s.rd F.CMQ_EQ_TAIL_INDEX fn.val) idx (s.eqEntries fn.val) = false →
    ∃ t, exec (.eqHeadDoorbell fn idx) s = .next t ∧ Sets s t F.CMQ_EQ_CFG_ERR fn.val 0 5) ∧
  (∀ v : Nat, s.rd F.CMQ_CFG_EN fn.val k.val = 1 → s.rd F.CMQ_CFG_TAILWORD fn.val k.val = 1 →
    ptrTag (s.rd F.CMQ_SQ_BASE_POINTER fn.val k.val) = 0 → fn.val ≠ 0 →
    v = leNat (s.hbmRead (pdkOf fn.val) (ptrAddr (s.rd F.CMQ_TAILWORD_POINTER fn.val k.val)) 8) % 4096 →
    ∃ t, exec (.tailwordPoll fn k) s = .next t ∧ t.mem = s.mem ∧
      (v ≤ s.rd F.CMQ_CFG_SQ_SIZE_M1 fn.val k.val → t.rd F.CMQ_SQ_TAIL_INDEX fn.val k.val = v) ∧
      (s.rd F.CMQ_CFG_SQ_SIZE_M1 fn.val k.val < v → t.rd F.CMQ_CFG_ERR fn.val k.val = 5))

/-- An error status other than 0x0607 leaves RESULT zero above NUM_SATURATED. Formalises R491. -/
def Obligations.CompletionRecord : Prop :=
  ∀ (s : State) (h : Hdr) (status result num : Nat) (keep : Bool), s.quiet h.fn.val = false →
  ∃ (u : State) (l : List Out), u = s.dropTaken h ∧
  (s.complete h status result num keep).out = s.out ++ [.completion h.fn.val h.q.val (u.cqBase h.fn.val h.q.val + 32 * u.cqTail h.fn.val h.q.val)
    (leBytes (h.cid % 4096 + 0x8000 * u.cqPhase h.fn.val h.q.val) 2 ++ leBytes status 2 ++
      leBytes (if isError status = true ∧ status ≠ 0x607 ∧ keep = false then result % 16 else result) 12 ++ leBytes num 16)] ++ l ∧
  (l = [] ∨ ∃ v, l = [.msix h.fn.val v]) ∧ (h.noIrq = true → l = []) ∧
  (s.complete h status result num keep).mem = s.mem ∧ (s.complete h status result num keep).sched = s.sched ∧
  (s.complete h status result num keep).kv = s.kv ∧ (s.complete h status result num keep).net = s.net

/-- An event goes to the function's EQ, or is dropped and counted. Rests on 17_command_packets.md R500. -/
def Obligations.EventRecords : Prop :=
  ∀ (s : State) (fn code status detail pdk : Nat),
  (s.quiet fn = true → s.event fn code status detail pdk = s) ∧
  (s.quiet fn = false → s.rd F.CMQ_EQ_CFG_EN fn = 0 ∨ s.eqHeld fn + 1 ≥ s.eqEntries fn →
    (s.event fn code status detail pdk).out = s.out ∧
    (s.event fn code status detail pdk).rd F.CMQ_EQ_LOST_COUNT fn = min (s.rd F.CMQ_EQ_LOST_COUNT fn + 1) maxCount ∧
    tget false (s.event fn code status detail pdk).host.lostEvent [fn] = true) ∧
  (s.quiet fn = false → ¬ (s.rd F.CMQ_EQ_CFG_EN fn = 0 ∨ s.eqHeld fn + 1 ≥ s.eqEntries fn) →
    (∃ l, (s.event fn code status detail pdk).out = s.out ++ [.event fn (s.rd F.CMQ_EQ_BASE_POINTER fn + 32 * s.rd F.CMQ_EQ_TAIL_INDEX fn)
      (eventRecord (s.rd F.CMQ_EQ_TAIL_PHASE fn) (b2n (tget false s.host.lostEvent [fn])) code status s.now
        (if fn = 0 then detail % 2 ^ 120 + pdk % 256 * 2 ^ 120 else detail))] ++ l) ∧
    (s.event fn code status detail pdk).rd F.CMQ_EQ_TAIL_INDEX fn = (s.rd F.CMQ_EQ_TAIL_INDEX fn + 1) % s.eqEntries fn % 4096 ∧
    tget false (s.event fn code status detail pdk).host.lostEvent [fn] = false) ∧
  (s.event fn code status detail pdk).mem = s.mem ∧ (s.event fn code status detail pdk).taken = s.taken ∧
  (s.event fn code status detail pdk).sched = s.sched ∧ (s.event fn code status detail pdk).kv = s.kv

/-- A packet with FENCE waits until every command taken earlier from its SQ has completed. Formalises R494. -/
def Obligations.PacketTake : Prop :=
  ∀ (s : State) (fn : Fin 17) (q : Fin 9) (hdr rest : Fetched),
  (s.sqOn fn.val q.val = false ∨ s.sqHead fn.val q.val = s.sqTail fn.val q.val ∧ s.sqHead fn.val q.val < s.sqEntries fn.val q.val ∨
      s.cqRoom fn.val q.val = false ∨ s.sqBlocked fn.val q.val = true → exec (.packetTake fn q hdr rest) s = .next s) ∧
  (tget false s.host.fenced [fn.val, q.val] = true → exec (.packetTake fn q hdr rest) s = .next s) ∧
  (s.sqOn fn.val q.val = true → ringHeld (s.sqHead fn.val q.val) (s.sqTail fn.val q.val) (s.sqEntries fn.val q.val) ≠ 0 →
    s.cqRoom fn.val q.val = true → s.sqBlocked fn.val q.val = false → s.deaf ⟨fn, q, 0, 0, false⟩ = false →
    (s.unitRead fn.val q.val (s.sqHead fn.val q.val) hdr = .hostError → exec (.packetTake fn q hdr rest) s = .next (s.badHeader fn q 0x414)) ∧
    (s.unitRead fn.val q.val (s.sqHead fn.val q.val) hdr = .poison → exec (.packetTake fn q hdr rest) s = .next (s.badHeader fn q 0x532)) ∧
    (∀ x, s.unitRead fn.val q.val (s.sqHead fn.val q.val) hdr = .ok x →
      fieldAt (fitBytes 64 x) 1 1 % 8 + 1 ≤ ringHeld (s.sqHead fn.val q.val) (s.sqTail fn.val q.val) (s.sqEntries fn.val q.val) →
      (hasBit (fieldAt (fitBytes 64 x) 1 1) 3 = true → s.takenIn fn.val q.val ≠ [] → ∃ t, exec (.packetTake fn q hdr rest) s = .next t ∧
        tget false t.host.fenced [fn.val, q.val] = true ∧ t.taken = s.taken ∧ t.regs = s.regs ∧ t.mem = s.mem ∧ t.out = s.out) ∧
      (hasBit (fieldAt (fitBytes 64 x) 1 1) 3 = false ∨ s.takenIn fn.val q.val = [] →
        exec (.packetTake fn q hdr rest) s = .next (s.takeUnits fn q (fieldAt (fitBytes 64 x) 1 1 % 8 + 1) (fitBytes 64 x) rest)))) ∧
  (∀ k : Fin 8, s.takenIn fn.val k.val ≠ [] → exec (.fenceRelease fn k) s = .next s) ∧
  (∀ k : Fin 8, s.takenIn fn.val k.val = [] → ∃ t, exec (.fenceRelease fn k) s = .next t ∧
    tget false t.host.fenced [fn.val, k.val] = false ∧ t.regs = s.regs ∧ t.mem = s.mem ∧ t.taken = s.taken)

/-- NOP, QUIESCE and ABORT. Rests on 17_command_packets.md R489, 17_command_packets.md R496, 17_command_packets.md R497, 17_command_packets.md R498, 17_command_packets.md R499. -/
def Obligations.StoppingAPaddock : Prop :=
  ∀ (s : State) (h : Hdr),
  (s.goes h 0 0 → exec (.nopCommand h) s = .next (s.complete h 0)) ∧
  (s.deaf h = false → s.rd F.HIF_FATAL_FATAL 0 = 0 → s.trust.recovery = false → s.callStatus h 0 ≠ 0 →
    exec (.nopCommand h) s = .next (s.complete h (s.callStatus h 0))) ∧
  (∀ us : Nat, us ≤ 1000000 → s.goes h opQuiesce 0 → s.stoppable (paddockOf h) = true →
    (s.pdkState (paddockOf h) = pdkActive → exec (.quiesce h us) s =
      .next ((s.clearPairs (vfOf (paddockOf h))).start h opQuiesce (some (.quiesce h us)) [s.now + 1000 * (if us = 0 then 100000 else us), 0])) ∧
    (s.pdkState (paddockOf h) ≠ pdkActive → exec (.quiesce h us) s = .next (s.complete h 0))) ∧
  (s.executing h opQuiesce = true → s.takenOf (paddockOf h) = [] ∨ s.pdkState (paddockOf h) = pdkQuiesced → h.cid ≠ 4096 →
    exec (.quiesceComplete h) s =
      .next ((if s.pdkState (paddockOf h) = pdkActive then s.wr F.PDK_STATE_STATE (paddockOf h) pdkQuiesced else s).complete h 0
        (nth (s.progOf h) 1 * 16))) ∧
  (s.executing h opQuiesce = true → h.cid ≠ 4096 → nth (s.progOf h) 2 = 0 → nth (s.progOf h) 0 ≤ s.now → s.takenOf (paddockOf h) ≠ [] →
    exec (.quiesceTimeout h) s =
      .next ((s.abortScope1 (paddockOf h)).1.setProg h [nth (s.progOf h) 0, (s.abortScope1 (paddockOf h)).2, 1])) ∧
  (s.goes h opAbort 0 → s.stoppable (paddockOf h) = true →
    exec (.abort h 0) s = .next ((s.abort (paddockOf h) 0x607).start h opAbort (some (.abort h 0)) [0, 0]) ∧
    exec (.abort h 1) s = .next ((s.abortScope1 (paddockOf h)).1.start h opAbort (some (.abort h 1)) [1, (s.abortScope1 (paddockOf h)).2])) ∧
  (s.executing h opAbort = true → s.abortEnded (paddockOf h) = true →
    exec (.abortComplete h) s = .next (s.complete h 0 (nth (s.progOf h) 1 * 16)))

/-- COPY and FILL start when their checks pass, and report the bytes written. Rests on 17_command_packets.md R504, 17_command_packets.md R505. -/
def Obligations.CopyAndFill : Prop :=
  ∀ (s : State) (h : Hdr) (src dst n : Nat),
  (s.goes h opCopy (s.copyStatus h src dst n) →
    s.untranslated h [⟨src, n, false⟩, ⟨dst, n, true⟩] ∨ s.translated h [⟨src, n, false⟩, ⟨dst, n, true⟩] →
    exec (.copy h src dst n) s =
      .next ((s.begun h opCopy (.copy h src dst n) [⟨src, n, false⟩, ⟨dst, n, true⟩]).setProg h [0])) ∧
  (∀ pattern, s.goes h opFill (s.fillStatus h dst n) → s.untranslated h [⟨dst, n, true⟩] ∨ s.translated h [⟨dst, n, true⟩] →
    exec (.fill h dst n pattern) s = .next ((s.begun h opFill (.fill h dst n pattern) [⟨dst, n, true⟩]).setProg h [0])) ∧
  (∀ (data : List Byte) (issued pattern : Nat) (src? : Option Nat), ((s.findTaken h).bind (fun t => if t.phase = .executing then t.cmd.bind moveOf else none)) = some (src?, dst, n, pattern) →
    (∀ k < min issued (linesOf (src?.getD dst) n), s.lineStatus (paddockOf h) src? dst n k = 0) →
    (issued < linesOf (src?.getD dst) n → nth (s.progOf h) 0 ≠ 1 → exec (.copyFillComplete h data issued none) s = .next s) ∧
    (linesOf (src?.getD dst) n ≤ issued ∨ nth (s.progOf h) 0 = 1 → ∃ u : State, exec (.copyFillComplete h data issued none) s =
      .next (u.complete h (if nth (s.progOf h) 0 = 1 then 0x380 else 0) (min n (lineOff (src?.getD dst) (min issued (linesOf (src?.getD dst) n))) * 2 ^ 16) 0 true)))

/-- Host windows are set, changed and cleared. Rests on 16_host_interface_and_translation.md R463, 16_host_interface_and_translation.md R465, 16_host_interface_and_translation.md R723. -/
def Obligations.HostWindows : Prop :=
  ∀ s : State,
  (∀ (h : Hdr) (window flags pasid base size : Nat), s.goes h 0x01 (s.windowSetStatus h.fn.val window flags pasid base size) →
    (hasBit flags 0 = true → ∃ t, exec (.hostWindowSet h window flags pasid base size) s = .next t ∧
      t.windowOf h.fn.val window = window0 ∧ t.mem = s.mem ∧
      ∀ f w, (f ≠ h.fn.val ∨ w ≠ window) → t.windowOf f w = s.windowOf f w) ∧
    (hasBit flags 0 = false →
      s.missing h.fn.val (if (windowOfFlags flags pasid base size).pin ∧ (s.cfgOf h.fn.val).ats = true then
        s.pinPages h.fn.val (windowOfFlags flags pasid base size) else []) = [] →
      ∃ t, exec (.hostWindowSet h window flags pasid base size) s = .next t ∧
        t.windowOf h.fn.val window = windowOfFlags flags pasid base size ∧ t.mem = s.mem ∧
        ∀ f w, (f ≠ h.fn.val ∨ w ≠ window) → t.windowOf f w = s.windowOf f w)) ∧
  (∀ fn : Fin 17,
    (s.anyQueueOn fn.val = true → ∃ t, exec (.win0Apply fn) s = .next t ∧ Sets s t F.HIF_WIN0_CTL_WIN0_ERR fn.val 0 1) ∧
    (s.anyQueueOn fn.val = false → s.windowBusy fn.val 0 = false → s.rd F.HIF_WIN0_CTL_VALID fn.val = 0 →
      ∃ t, exec (.win0Apply fn) s = .next t ∧ t.windowOf fn.val 0 = window0 ∧ t.mem = s.mem ∧
        ∀ f w, (f ≠ fn.val ∨ w ≠ 0) → t.windowOf f w = s.windowOf f w) ∧
    (s.anyQueueOn fn.val = false → s.windowBusy fn.val 0 = false → s.rd F.HIF_WIN0_CTL_VALID fn.val = 1 →
      windowFieldsOk (s.rd F.HIF_WIN0_CTL_PASID_EN fn.val = 1) (s.rd F.HIF_WIN0_CTL_PASID fn.val)
        (s.rd F.HIF_WIN0_BASE_BASE fn.val) (s.rd F.HIF_WIN0_SIZE_SIZE fn.val) = true →
      ∃ t, exec (.win0Apply fn) s = .next t ∧ t.mem = s.mem ∧
        t.windowOf fn.val 0 = ⟨true, s.rd F.HIF_WIN0_CTL_READ fn.val = 1, s.rd F.HIF_WIN0_CTL_WRITE fn.val = 1, false,
          s.rd F.HIF_WIN0_CTL_PASID_EN fn.val = 1, s.rd F.HIF_WIN0_CTL_PASID fn.val, s.rd F.HIF_WIN0_BASE_BASE fn.val,
          s.rd F.HIF_WIN0_SIZE_SIZE fn.val⟩ ∧
        ∀ f w, (f ≠ fn.val ∨ w ≠ 0) → t.windowOf f w = s.windowOf f w))

/-- Translations arrive, fail and go. Rests on 16_host_interface_and_translation.md R467, 16_host_interface_and_translation.md R468, 16_host_interface_and_translation.md R470, 16_host_interface_and_translation.md R471, 16_host_interface_and_translation.md R472. -/
def Obligations.Translations : Prop :=
  ∀ (s : State) (fn : Fin 17), ¬ (fn.val ≠ 0 ∧ s.pdkState (pdkOf fn.val) = pdkHandover) →
  (∀ (pasid : Option Nat) (base size : Nat) (read write : Bool), (read || write) = true →
    (∀ u, s.makeRoom fn.val = some u → ∃ t, exec (.translationCompletion fn pasid base size read write) s = .next t ∧
      t.host.xents = u.host.xents ++ [⟨fn.val, pasid, base, size, read, write, false⟩]) ∧
    (s.makeRoom fn.val = none → exec (.translationCompletion fn pasid base size read write) s =
      .next (s.bump F.HIF_XLATE_WAIT_COUNT fn.val))) ∧
  (∀ (entry : Nat) (t : Taken), (s.taken.filter (fun t => t.h.fn.val == fn.val && t.phase == .faultQueue))[entry]? = some t →
    exec (.pageRequestGroupResponse fn entry 0) s =
      .next (((s.setPhase t.h .translating).askPages fn.val ((s.setPhase t.h .translating).missing fn.val t.pages)).unpark fn.val) ∧
    exec (.pageRequestGroupResponse fn entry 1) s =
      .next ((((s.hifErr fn.val 0 0 0x410 (((s.missing fn.val t.pages).head?.map (fun g => g.addr)).getD 0)).complete t.h 0x410).unpark fn.val).syncXstat fn.val) ∧
    ∃ u, exec (.pageRequestGroupResponse fn entry 2) s = .next u ∧ (u.cfgOf fn.val).priStopped = true ∧ u.mem = s.mem) ∧
  (∀ (pasid : Option Nat) (base size : Nat), ∃ t, exec (.atsInvalidationRequest fn pasid base size) s = .next t ∧
    t.host.xents = s.host.xents.map (fun x => if x.inRange fn.val pasid base size then { x with stopped := true } else x) ∧ t.mem = s.mem) ∧
  (∀ (pasid : Option Nat) (base size : Nat), ∃ t l, exec (.invalidationComplete fn pasid base size) s = .next t ∧
    t.host.xents = s.host.xents.filter (fun x => !(x.stopped && x.inRange fn.val pasid base size)) ∧
    t.out = s.out ++ .invalidationCompletion fn.val base size :: l ∧ t.mem = s.mem) ∧
  (∀ (q : Fin 9) (cid : Nat) (t : Taken), s.taken.find? (fun t => t.h.fn == fn && t.h.q == q && t.h.cid == cid) = some t →
    (t.phase = .translating ∨ t.phase = .faultQueue ∨ t.phase = .faultWait) →
    s.rd F.HIF_CFG_XLATE_TIMEOUT_MS fn.val * 1000000 < s.now - t.since →
    exec (.translationTimeout fn q cid) s =
      .next ((((s.hifErr fn.val 2 0 0x412 (((s.missing fn.val t.pages).head?.map (fun g => g.addr)).getD 0)).complete t.h 0x412).unpark fn.val).syncXstat fn.val)) ∧
  (∀ (q : Fin 9) (cid : Nat) (t : Taken), s.taken.find? (fun t => t.h.fn == fn && t.h.q == q && t.h.cid == cid) = some t →
    s.now - t.since ≤ s.rd F.HIF_CFG_XLATE_TIMEOUT_MS fn.val * 1000000 → exec (.translationTimeout fn q cid) s = .next s)

/-- Host errors, configuration writes and the host link. Rests on 16_host_interface_and_translation.md R449, 16_host_interface_and_translation.md R455, 16_host_interface_and_translation.md R478, 20_trust_and_tenancy.md R608. -/
def Obligations.HostLinkAndConfiguration : Prop :=
  ∀ s : State,
  (∀ (window addr : Nat) (f : Fin 17) (q : Fin 9) (cid : Nat) (t : Taken),
    s.taken.find? (fun t => t.h.fn == f && t.h.q == q && t.h.cid == cid) = some t → t.op ≠ opCopy → t.op ≠ opFill → t.op ≠ 0x51 →
    exec (.hostCompletionError (.command f q cid) window addr) s =
      .next ((((s.hifErr f.val 3 window 0x414 addr).bump F.HIF_HOST_ERR_COUNT f.val).emit (.aer f.val false)).complete t.h 0x414)) ∧
  (∀ (window addr : Nat) (c : Fin 128) (cid : Fin 12), ∃ t, exec (.hostCompletionError (.inbound c cid) window addr) s = .next t ∧
    t.rd F.HIF_HOST_ERR_COUNT (vfOf (corePdk c.val)) = min (s.rd F.HIF_HOST_ERR_COUNT (vfOf (corePdk c.val)) + 1) maxCount ∧
    t.mem = s.mem ∧ t.sched = s.sched ∧ .aer (vfOf (corePdk c.val)) false ∈ t.out) ∧
  (∀ (window addr : Nat) (c : Fin 128) (cid : Fin 12), exec (.hostCompletionError (.outbound c cid) window addr) s =
    .next ((((s.hifErr (vfOf (corePdk c.val)) 3 window 0x414 addr).bump F.HIF_HOST_ERR_COUNT (vfOf (corePdk c.val))).emit
      (.aer (vfOf (corePdk c.val)) false)).abort (corePdk c.val) 0x414)) ∧
  (∀ (fn : Fin 17) (item : CfgItem) (v : Nat), item ≠ .numVfs → item ≠ .vfEnable →
    exec (.configurationWrite fn item v) s = .next ((s.configItem fn.val item v).tdiError fn.val 3)) ∧
  (∀ (fn : Fin 17) (item : CfgItem) (v : Nat), item ≠ .numVfs → item ≠ .vfEnable →
    exec (.tdiConfigWrite fn item v) s = .next ((s.configItem fn.val item v).tdiError fn.val 3)) ∧
  (∀ (v : Nat), (∀ i < 16, s.vfExists (i + 1) = true → (s.configItem 0 .vfEnable v).vfExists (i + 1) = true) →
    exec (.configurationWrite 0 .vfEnable v) s = .next (s.configItem 0 .vfEnable v)) ∧
  (∀ (speed width : Nat), 0 < speed → speed < 8 → width < 32 → ∃ t, exec (.hostLinkRetrain true speed width) s = .next t ∧
    t.rd F.HIF_LINK_SPEED 0 = speed ∧ t.rd F.HIF_LINK_WIDTH 0 = width ∧ t.rd F.HIF_LINK_FLIT 0 = (if 6 ≤ speed then 1 else 0) ∧
    t.rd F.HIF_LINK_RETRAIN_COUNT 0 = min (s.rd F.HIF_LINK_RETRAIN_COUNT 0 + 1) maxCount ∧ t.mem = s.mem) ∧
  (∀ (speed width : Nat), ∃ t, exec (.hostLinkRetrain false speed width) s = .next t ∧
    t.rd F.HIF_LINK_SPEED 0 = 0 ∧ t.rd F.HIF_LINK_WIDTH 0 = 0 ∧ t.rd F.HIF_LINK_LINK_IDE 0 = 0 ∧ t.mem = s.mem)

/-- NOP, END, WAIT, SIGNAL, the stile words and loops. Rests on 03_schedule_contract.md R79, 03_schedule_contract.md R85, 03_schedule_contract.md R86, 03_schedule_contract.md R88, 05_sync_cells_and_stiles.md R136, 05_sync_cells_and_stiles.md R138, 05_sync_cells_and_stiles.md R148. -/
def Obligations.ControlWords : Prop :=
  ∀ (s : State) (a : At) (r : Run) (ws : List Nat),
  (∀ op, s.issues op a r ws →
    ((s.issued a r ws).streamOf a.core.val r.side a.stream.val).idx = (s.streamOf a.core.val r.side a.stream.val).idx + wordLen (nth ws 0) ∧
    ((s.issued a r ws).streamOf a.core.val r.side a.stream.val).loops = (s.streamOf a.core.val r.side a.stream.val).loops ∧
    (s.issued a r ws).mem = s.mem ∧ (s.issued a r ws).taken = s.taken ∧ (s.issued a r ws).kv = s.kv ∧ (s.issued a r ws).out = s.out ∧
    (s.slipOf a.core.val = none → (s.issued a r ws).regs = s.regs)) ∧
  (s.issues opcNop a r ws → exec (.nop a) s = .next (s.issued a r ws)) ∧
  (s.issues opcWait a r ws → exec (.waitCell a) s = .next (s.issued a r ws)) ∧
  (s.issues opcStileWait a r ws → exec (.stileWait a) s = .next (s.issued a r ws)) ∧
  (s.issues opcEnd a r ws → ∃ t, exec (.endSection a) s = .next t ∧ t.regs = (s.issued a r ws).regs ∧ t.mem = s.mem ∧
    t.streamOf a.core.val r.side a.stream.val = { (s.issued a r ws).streamOf a.core.val r.side a.stream.val with ended := true }) ∧
  (s.issues opcSignal a r ws → ∃ t, exec (.signal a) s = .next t ∧ t.regs = (s.issued a r ws).regs ∧ t.mem = s.mem ∧
    tget [] t.sched.ends [a.core.val] = tget [] s.sched.ends [a.core.val] ++
      [⟨0, r.side, a.stream.val, (s.ctxOf a r ws).pos, fCell (nth ws 0), fCond (nth ws 0),
        operandAt (nth ws 0) (s.streamOf a.core.val r.side a.stream.val).iter⟩]) ∧
  (s.issues opcArrive a r ws → ∃ t, exec (.stileArrive a) s = .next t ∧ t.regs = (s.issued a r ws).regs ∧ t.mem = s.mem ∧
    tget [] t.sched.ends [a.core.val] = tget [] s.sched.ends [a.core.val] ++
      [⟨1, r.side, a.stream.val, (s.ctxOf a r ws).pos, fStile (nth ws 0), 0, fMask (nth ws 0)⟩]) ∧
  (s.sideOf (corePdk a.core.val) a.armed = some r → s.wordAt a.core.val r a.stream.val = some ws → s.coreLive a.core.val = true →
    (s.runsOf (corePdk a.core.val)).cause = none → s.headOf a.core.val r.side ≠ none →
    (wOp (nth ws 0) = opcLoop → ∃ t, exec (.loopOpen a) s = .next t ∧ t.regs = s.regs ∧ t.mem = s.mem ∧
      ∀ n, (if hasBit (nth ws 0) 24 then nth r.params (bitsAt (nth ws 0) 0 4) else bitsAt (nth ws 0) 0 24) = n →
      ∀ y, s.streamOf a.core.val r.side a.stream.val = y →
        (n = 0 → t.streamOf a.core.val r.side a.stream.val = { y with idx := y.idx + 1 + skipBody ws.length 0 (ws.drop 1) }) ∧
        (n ≠ 0 → t.streamOf a.core.val r.side a.stream.val = { y with idx := y.idx + 1, loops := ⟨y.idx + 1, n, 0⟩ :: y.loops })) ∧
    (wOp (nth ws 0) = opcEndloop → ∃ t, exec (.loopClose a) s = .next t ∧ t.regs = s.regs ∧ t.mem = s.mem ∧
      ∀ y l ls, s.streamOf a.core.val r.side a.stream.val = y → y.loops = l :: ls →
        (l.iter + 1 < l.count → t.streamOf a.core.val r.side a.stream.val =
          { y with idx := l.start, loops := { l with iter := l.iter + 1 } :: ls }) ∧
        (l.count ≤ l.iter + 1 → t.streamOf a.core.val r.side a.stream.val = { y with idx := y.idx + 1, loops := ls })))

/-- A slip ends once nothing holds its tick, and a wait that lasts too long aborts. Rests on 03_schedule_contract.md R90, 03_schedule_contract.md R94, 03_schedule_contract.md R97, 03_schedule_contract.md R98, 03_schedule_contract.md R99. -/
def Obligations.SlipsAndTimeouts : Prop :=
  ∀ s : State,
  (∀ c : Fin 128, s.coreLive c.val = true → s.slipOf c.val ≠ none → s.blockOf c.val = none → s.unresolved c.val = false →
    ∃ t, exec (.slipEnd c) s = .next t ∧ t.slipOf c.val = none ∧ tget false t.sched.opened [c.val] = true ∧ t.mem = s.mem ∧
      t.out = s.out ∧ ∀ st : Fin 12, tget none t.sched.waits [c.val, st.val] = none) ∧
  (∀ c : Fin 128, s.slipOf c.val = none → exec (.slipEnd c) s = .next s) ∧
  (∀ (a : At) (d : Due), s.coreLive a.core.val = true → (s.runsOf (corePdk a.core.val)).cause = none → s.slipOf a.core.val ≠ none →
    (s.expired a.core.val).any (fun d => decide (d.stream < a.stream.val)) = false →
    (s.expired a.core.val).find? (fun d => d.stream == a.stream.val && s.isRunning (corePdk a.core.val) d.run.side == !a.armed) = some d →
    (wOp d.word = opcWait → exec (.waitTimeout a) s =
      .next ((s.recordWto a.core.val 0 (fCell d.word) (fCond d.word) d.stream (s.posAt a.core.val d.run d.stream)
          (operandAt d.word (s.streamOf a.core.val d.run.side d.stream).iter) (s.rd F.SYN_VAL_VALUE a.core.val (fCell d.word))).timeoutAbort
        a.core.val 2 0x600 d.stream (s.posAt a.core.val d.run d.stream)
          (operandAt d.word (s.streamOf a.core.val d.run.side d.stream).iter) (s.rd F.SYN_VAL_VALUE a.core.val (fCell d.word)))) ∧
    (wOp d.word ≠ opcWait → ∃ x v, exec (.waitTimeout a) s =
      .next ((s.recordWto a.core.val 1 (fStile d.word) 0 d.stream (s.posAt a.core.val d.run d.stream) x v).timeoutAbort
        a.core.val 3 0x600 d.stream (s.posAt a.core.val d.run d.stream) x v))) ∧
  (∀ a : At, s.expired a.core.val = [] → exec (.waitTimeout a) s = .next s) ∧
  (∀ (c : Fin 128) (x : Slip), s.slipOf c.val = some x → s.coreLive c.val = true → (s.runsOf (corePdk c.val)).cause = none →
    s.slipUntimed c.val x = true →
    (x.since + 1000 * s.rd F.SCH_PCTL_WAIT_DEFAULT_US (corePdk c.val) ≤ s.now → exec (.slipTimeout c) s =
      .next ((s.recordWto c.val 2 0 0 x.stream x.position 0 0).timeoutAbort c.val 4 0x606 x.stream x.position 0 0)) ∧
    (s.now < x.since + 1000 * s.rd F.SCH_PCTL_WAIT_DEFAULT_US (corePdk c.val) → exec (.slipTimeout c) s = .next s))

/-- Images are loaded, unloaded and run. Rests on 03_schedule_contract.md R100, 03_schedule_contract.md R101, 03_schedule_contract.md R103, 03_schedule_contract.md R104. -/
def Obligations.ScheduleImages : Prop :=
  ∀ (s : State) (h : Hdr) (slot : Nat),
  (∀ (image bytes : Nat) (data : List Byte), s.goes h opLoad (firstStatus [failIf (decide (3 < slot)) 0x201, failIf (s.slotBusy (paddockOf h) slot) 0x605,
      failIf (decide (2 ≤ ptrTag image)) 0x401, s.checkPtr h.fn.val (paddockOf h) image bytes false]) →
    s.untranslated h [⟨image, bytes, false⟩] ∨ s.translated h [⟨image, bytes, false⟩] →
    ∀ u, s.begun h opLoad (.scheduleLoad h slot image bytes data) [⟨image, bytes, false⟩] = u →
    (u.sourceStatus (paddockOf h) image bytes ≠ 0 → exec (.scheduleLoad h slot image bytes data) s =
      .next (u.complete h (u.sourceStatus (paddockOf h) image bytes))) ∧
    (u.sourceStatus (paddockOf h) image bytes = 0 → exec (.scheduleLoad h slot image bytes data) s =
      .next (let t := u.countRead h.fn.val (paddockOf h) image bytes
        let b := t.ptrRead (paddockOf h) image bytes data
        if b.length ≠ bytes then (t.setSlotImage (paddockOf h) slot none).complete h 0x210 else t.loadInto h slot b))) ∧
  (s.goes h 0x12 (firstStatus [failIf (decide (3 < slot)) 0x201, failIf (s.slotBusy (paddockOf h) slot) 0x605,
      failIf ((s.imageOf (paddockOf h) slot).isNone) 0x60A]) →
    ∃ t, exec (.scheduleUnload h slot) s = .next t ∧ t = (s.setSlotImage (paddockOf h) slot none).complete h 0 ∧
      t.imageOf (paddockOf h) slot = none ∧ t.mem = s.mem ∧ ∀ p k, (p ≠ paddockOf h ∨ k ≠ slot) → t.imageOf p k = s.imageOf p k) ∧
  (∀ params : List Nat, ∀ ps, (List.range 16).map (fun k => nth params k % 2 ^ 32) = ps →
    s.goes h opRun (firstStatus [failIf (decide (3 < slot)) 0x201, s.runStatus (paddockOf h) slot ps]) →
    ∃ u : State, u = { s.start h opRun (some (.scheduleRun h slot params)) with
        taken := (s.start h opRun (some (.scheduleRun h slot params))).taken.map (fun t : Taken => if t.is h then { t with phase := .waiting } else t) } ∧
      exec (.scheduleRun h slot params) s = .next (u.submitRun (paddockOf h) ⟨h, 0, slot, ps, none, tally0⟩) ∧ u.mem = s.mem) ∧
  (s.deaf h = false → s.trust.recovery = true → s.rd F.HIF_FATAL_FATAL 0 = 0 →
    exec (.scheduleUnload h slot) s = .next (s.complete h 0x72A) ∧
      ∀ params, exec (.scheduleRun h slot params) s = .next (s.complete h 0x72A))

/-- Heads start, tails start, streams retire, runs complete and aborts end. Rests on 03_schedule_contract.md R80, 03_schedule_contract.md R105, 03_schedule_contract.md R108, 03_schedule_contract.md R110, 22_reliability_and_spares.md R663. -/
def Obligations.RunsStartAndEnd : Prop :=
  ∀ s : State,
  (∀ (c : Fin 128) (r : Run) (im : Image), s.headDue c.val = some r → s.imageOn c.val r = some im → (s.runsOf (corePdk c.val)).cause = none →
    (tget false s.rel.badCores [s.phys c.val] = true → exec (.headStart c) s = .next (s.abort (corePdk c.val) 0x541)) ∧
    (tget false s.rel.badCores [s.phys c.val] = false → s.coreLive c.val = true → ∃ t, exec (.headStart c) s = .next t ∧
      t.headOf c.val r.side = some (s.tickOf c.val) ∧ t.mem = s.mem)) ∧
  (∀ c : Fin 128, s.headDue c.val = none → exec (.headStart c) s = .next s) ∧
  (∀ (c : Fin 128) (r : Run) (im : Image) (hd : Nat), (s.runsOf (corePdk c.val)).running = some r → s.imageOn c.val r = some im →
    s.headOf c.val r.side = some hd → tget false s.sched.tails [c.val] = false → hd + im.tailStart ≤ s.tickOf c.val →
    (s.runsOf (corePdk c.val)).cause = none →
    (s.sched.ops.any (fun o => o.core == c.val && o.side == r.side &&
        (!hasBit im.tailStreams o.stream || (doneAction o.done == 1 && !hasBit im.tailCells (doneCell o.done)) ||
          o.drawer.any (fun d => !hasBit im.tailDrawers d))) = false →
      ∃ t, exec (.tailStart c) s = .next t ∧ tget false t.sched.tails [c.val] = true ∧ t.mem = s.mem ∧ t.regs = s.regs) ∧
    (s.sched.ops.any (fun o => o.core == c.val && o.side == r.side &&
        (!hasBit im.tailStreams o.stream || (doneAction o.done == 1 && !hasBit im.tailCells (doneCell o.done)) ||
          o.drawer.any (fun d => !hasBit im.tailDrawers d))) = true →
      exec (.tailStart c) s = .next (State.abort { s with sched := { s.sched with tails := tset false s.sched.tails [c.val] true } } (corePdk c.val) 0x608))) ∧
  (∀ (a : At) (r : Run), s.sideOf (corePdk a.core.val) a.armed = some r → s.headOf a.core.val r.side ≠ none →
    (s.streamOf a.core.val r.side a.stream.val).ended = true →
    ((s.streamOf a.core.val r.side a.stream.val).outst = 0 → exec (.streamRetire a) s = .next (s.setRet a.core.val r.side a.stream.val)) ∧
    ((s.streamOf a.core.val r.side a.stream.val).outst ≠ 0 → exec (.streamRetire a) s = .next s)) ∧
  (∀ (p : Fin 16) (x : Run), (s.runsOf p.val).running = some x → (s.runsOf p.val).cause = none →
    (s.retiredAll F.SCH_RETIRED_RUN_RET p.val (s.maskOf p.val (some x)) = true → ∃ u, u = ((s.forgetSide p.val x.side).promote p.val).endRun x (firstWarning x.tally.warnings) ∧
      exec (.runComplete p) s = .next ((u.armWaiting p.val (u.runsOf p.val).waiting.length).syncPstat p.val)) ∧
    (s.retiredAll F.SCH_RETIRED_RUN_RET p.val (s.maskOf p.val (some x)) = false → exec (.runComplete p) s = .next s)) ∧
  (∀ (p : Fin 16) (cause : Nat), (s.runsOf p.val).cause = some cause →
    (s.rd F.HBM_GSTAT_TXN p.val ≠ 0 → exec (.abortDrainDone p) s = .next s) ∧
    (s.rd F.HBM_GSTAT_TXN p.val = 0 → s.net.lines.any (fun l => l.pdk == p.val && decide (l.src < 96)) = false →
      (s.runsOf p.val).armed = none → (s.runsOf p.val).waiting = [] →
      ∃ t, exec (.abortDrainDone p) s = .next t ∧ (t.runsOf p.val).cause = none ∧ (t.runsOf p.val).running = none))

/-- Untimed events and droop. Rests on 04_current_budget.md R120, 04_current_budget.md R125, 04_current_budget.md R129, 04_current_budget.md R130, 04_current_budget.md R131. -/
def Obligations.CurrentBudget : Prop :=
  ∀ s : State,
  (∀ (p : Fin 16) (e : Held), s.nextHeld p.val = some e →
    (s.ufits p.val e.weight = true → ∃ t, exec (.untimedEventAdmit p) s = .next t ∧ e ∈ t.admittedOf p.val ∧
      t.heldOf p.val = removeFirst (· == e) (s.heldOf p.val) ∧ t.mem = s.mem ∧ t.out = s.out) ∧
    (s.ufits p.val e.weight = false → exec (.untimedEventAdmit p) s = .next s)) ∧
  (∀ p : Fin 16, s.nextHeld p.val = none → exec (.untimedEventAdmit p) s = .next s) ∧
  (∀ (d : Fin 2) (c : Nat) (x : Nat), s.stretch d.val = some (c, x) →
    exec (.droopTrip d) s = .next (s.setDroop d.val (some (c, s.bud.clock)))) ∧
  (∀ d : Fin 2, s.stretch d.val = none → ∃ t, exec (.droopTrip d) s = .next t ∧ t.stretch d.val ≠ none ∧ t.mem = s.mem ∧
    t.rd F.BUD_DDROOP_EVT_COUNT d.val = min (s.rd F.BUD_DDROOP_EVT_COUNT d.val + 1) maxCount) ∧
  (∀ d : Fin 2, tget none s.bud.droop [d.val] ≠ none → s.stretch d.val = none →
    ∃ t, exec (.droopStretchEnd d) s = .next t ∧ tget none t.bud.droop [d.val] = none ∧ t.mem = s.mem)

/-- Arrival writes and the patrol reach shelf rows as untimed events. Rests on 02_core_and_shelf_store.md R50, 02_core_and_shelf_store.md R51, 02_core_and_shelf_store.md R57, 02_core_and_shelf_store.md R58, 04_current_budget.md R124. -/
def Obligations.ShelfRowAccesses : Prop :=
  ∀ (s : State) (core : Fin 128) (bank : Fin 32),
  (∀ (k : Nat) (a : Arrival), ((s.arrivalHeads core.val).filter (fun a => s.idleBank core.val (bankOf a.row))).findIdx? (fun a => bankOf a.row == bank.val) = some k →
    ((s.arrivalHeads core.val).filter (fun a => s.idleBank core.val (bankOf a.row)))[k]? = some a → tget false s.sched.gated [core.val] = false →
    s.landedNow core.val + k < 4 →
    (s.admittedOf (corePdk a.core)).contains ⟨srcStream a.core a.stream, 1, [0, a.core, a.op, a.row]⟩ = true →
    exec (.arrivalWriteCommit core bank) s = .next ((s.setAdmitted (corePdk a.core)
      (removeFirst (· == ⟨srcStream a.core a.stream, 1, [0, a.core, a.op, a.row]⟩) (s.admittedOf (corePdk a.core)))).landArrival a)) ∧
  (∀ a : Arrival, (s.arrivalHeads core.val).find? (fun a => bankOf a.row == bank.val && decide (256 ≤ a.waited)) = some a →
    tget false s.sched.gated [core.val] = false → s.landedNow core.val < 4 → (s.usedBanks core.val).contains bank.val = false →
    s.timedIn core.val bank.val = false →
    (s.admittedOf (corePdk a.core)).contains ⟨srcStream a.core a.stream, 1, [0, a.core, a.op, a.row]⟩ = true →
    exec (.arrivalWriteForced core bank) s = .next ((s.setAdmitted (corePdk a.core)
      (removeFirst (· == ⟨srcStream a.core a.stream, 1, [0, a.core, a.op, a.row]⟩) (s.admittedOf (corePdk a.core)))).landArrival a)) ∧
  (s.patrolOn core.val = true → (s.arrivalHeads core.val).any (fun a => bankOf a.row == bank.val) = false → s.idleBank core.val bank.val = true →
    (∀ err, (s.patrolOf core.val bank.val).fix = none →
      (s.admittedOf (corePdk core.val)).contains ⟨srcPatrol (coreOff core.val), 1, [1, core.val, bank.val]⟩ = true →
      ∃ t, exec (.patrolRead core bank err) s = .next t ∧
        (err = none → t.mem = s.mem ∧ (t.patrolOf core.val bank.val).fix = none ∧
          t.rd F.DRW_SHELF_UE_COUNT core.val = s.rd F.DRW_SHELF_UE_COUNT core.val ∧ t.rd F.DRW_SHELF_CE_COUNT core.val = s.rd F.DRW_SHELF_CE_COUNT core.val) ∧
        (∀ cw row, err = some (cw, true) → s.patrolRow core.val bank.val (s.patrolOf core.val bank.val).next = some row → s.rowPoison core.val row = false →
          t.rowPoison core.val row = true ∧ t.mem.shelf = s.mem.shelf ∧
          t.rd F.DRW_SHELF_UE_COUNT core.val = min (s.rd F.DRW_SHELF_UE_COUNT core.val + 1) maxCount) ∧
        (∀ cw row, err = some (cw, false) → s.patrolRow core.val bank.val (s.patrolOf core.val bank.val).next = some row → s.rowPoison core.val row = false →
          t.mem = s.mem ∧ (t.patrolOf core.val bank.val).fix ≠ none)) ∧
    ((s.patrolOf core.val bank.val).fix ≠ none →
      (s.admittedOf (corePdk core.val)).contains ⟨srcPatrol (coreOff core.val), 1, [2, core.val, bank.val]⟩ = true →
      ∃ t, exec (.patrolWriteBack core bank) s = .next t ∧ (t.patrolOf core.val bank.val).fix = none ∧ t.mem = s.mem ∧ t.regs = s.regs)) ∧
  (∀ err, s.patrolOn core.val = true → 16384 ≤ (s.patrolOf core.val bank.val).idle → (s.usedBanks core.val).contains bank.val = false →
    s.timedIn core.val bank.val = false →
    exec (.patrolForced core bank err) s = .next ((s.setPatrol core.val bank.val { s.patrolOf core.val bank.val with idle := 0 }).untimed (corePdk core.val)
      (srcPatrol (coreOff core.val)) 1 [1, core.val, bank.val] (fun s => s.patrolRead core.val bank.val err))) ∧
  (tget false s.sched.gated [core.val] = true → ∀ err, exec (.patrolRead core bank err) s = .next s ∧ exec (.patrolForced core bank err) s = .next s ∧
    exec (.patrolWriteBack core bank) s = .next s)

/-- A tile occupies the engine for its stream, and claims its tray slots when it ends. Rests on 07_matrix_engine.md R188, 07_matrix_engine.md R198, 07_matrix_engine.md R203, 07_matrix_engine.md R206, 07_matrix_engine.md R213. -/
def Obligations.MatrixTiles : Prop :=
  ∀ s : State,
  (∀ (a : At) (errs : List ShelfErr) (r : Run) (ws : List Nat), s.issues opcTile a r ws → ∃ t, exec (.matrixTile a errs) s = .next t ∧
    tget 0 t.sched.busy [a.core.val, stME] = (s.issued a r ws).opTick a.core.val + tStream (nth ws 0) ∧ t.mem = s.mem ∧
    t.sched.nextOp = s.sched.nextOp + 1 ∧
    t.sched.ops = s.sched.ops ++ [⟨s.sched.nextOp, a.core.val, r.side, a.stream.val, (s.ctxOf a r ws).pos, 0, none,
      .tile ⟨nth ws 0, (s.issued a r ws).opTick a.core.val, (s.issued a r ws).opTick a.core.val + tStream (nth ws 0) + 136,
        (s.issued a r ws).rd F.MXE_PCFG_CHK_T (corePdk a.core.val), placeReads ((s.issued a r ws).opTick a.core.val) (tileReads (nth ws 0)) errs, []⟩,
      (s.issued a r ws).rd F.SCH_TICK_TICK a.core.val⟩]) ∧
  (∀ (core : Fin 128) (upsets : List (Nat × Nat)) (o : Op) (t : Tile), s.claimDue core.val = some (o, t) → s.coreLive core.val = true →
    ∀ n, n = (if tPair t.word then 2 else 1) →
    (s.trayFree core.val n = false → exec (.tileClaim core upsets) s = .next (s.violation core.val 2 0 o.stream o.position)) ∧
    (s.trayFree core.val n = true → ∃ u, exec (.tileClaim core upsets) s = .next u ∧ u.mem = s.mem ∧ s.free + 128 ≤ u.free ∧
      u.rd F.DRW_TRAY_TAIL core.val = (s.rd F.DRW_TRAY_TAIL core.val + n) % 4 ∧
      u.rd F.DRW_TRAY_FILL core.val = (s.rd F.DRW_TRAY_FILL core.val + n) % 8 ∧
      u.rd F.MXE_TILES_COUNT core.val = min (s.rd F.MXE_TILES_COUNT core.val + 1) maxCount)) ∧
  (∀ (core : Fin 128) (upsets : List (Nat × Nat)), s.claimDue core.val = none → exec (.tileClaim core upsets) s = .next s)

/-- Element programs, their rows, WS_MODE and rotary tables. Rests on 08_vector_engine.md R219, 08_vector_engine.md R220, 08_vector_engine.md R221, 08_vector_engine.md R226, 08_vector_engine.md R227, 08_vector_engine.md R241, 08_vector_engine.md R248, 09_special_functions.md R275. -/
def Obligations.VectorPrograms : Prop :=
  ∀ s : State,
  (∀ (a : At) (errs : List ShelfErr) (r : Run) (ws : List Nat), s.issues opcElem a r ws → ∀ g, elemGroups (nth ws 0) (nth ws 1) r.params = g →
    (g = 0 → ∃ t, exec (.elem a errs) s = .next t ∧ t.mem = s.mem ∧ t.sched.ops = s.sched.ops ∧
      tget 0 t.sched.busy [a.core.val, stVE] = (s.issued a r ws).opTick a.core.val + 1 ∧
      t.rd F.VEC_PROGS_COUNT a.core.val = min (s.rd F.VEC_PROGS_COUNT a.core.val + 1) maxCount) ∧
    (g ≠ 0 → ∃ t, exec (.elem a errs) s = .next t ∧ t.mem = s.mem ∧ t.sched.nextOp = s.sched.nextOp + 1 ∧
      tget 0 t.sched.busy [a.core.val, stVE] = (s.issued a r ws).opTick a.core.val +
        groupCost (nth ws 0) ((ws.drop 2).take (elemExt (nth ws 0) - 1)) * g)) ∧
  (∀ (a : At) (r : Run) (ws : List Nat), s.issues opcWsMode a r ws → ∃ t, exec (.wsMode a) s = .next t ∧ t.mem = s.mem ∧
    t.rd F.VEC_STAT_WS_MODE a.core.val = bitsAt (nth ws 0) 0 1 ∧
    ∀ (g : Fld) (i j : Nat), g.id ≠ F.VEC_STAT_WS_MODE.id → t.rd g i j = (s.issued a r ws).rd g i j) ∧
  (∀ core : Fin 128, s.coreLive core.val = true →
    (∀ o e, s.elemDue core.val Elem.rowTick = some (o, e) → exec (.elemRowWrite core none) s = .next (s.elemRow o e) ∧
      ∀ f, exec (.elemRowWrite core (some f)) s = .next (s.vecStrike o (e.fills e.nextRow.1) f)) ∧
    (∀ o e, s.elemDue core.val Elem.rowTick = none → s.elemDue core.val Elem.sclTick = some (o, e) →
      exec (.elemRowWrite core none) s = .next (s.elemScl o e)) ∧
    (∀ o e, s.elemDue core.val Elem.oneTick = some (o, e) → e.rows ≠ 1 → ∃ bytes cats,
      exec (.elemOneRowWrite core none) s = .next (s.elemWrite o (eDst e.word) e.rows bytes (e.poisonAt (e.groups - 1)) { e with rows := e.rows + 1 } cats) ∧
      ∀ x, e.outs[e.groups - 1]? = some x → bytes = x.hi) ∧
    (∀ o e x, s.elemDue core.val Elem.oneTick = some (o, e) → e.rows = 1 → e.outs[e.groups - 1]? = some x →
      exec (.elemOneRowWrite core none) s = .next (s.elemWrite o (eDst e.word) 1 x.lo (e.poisonAt (e.groups - 1)) { e with rows := 2 } [])) ∧
    (s.elemDue core.val Elem.rowTick = none → s.elemDue core.val Elem.sclTick = none → ∀ f, exec (.elemRowWrite core f) s = .next s) ∧
    (s.elemDue core.val Elem.oneTick = none → ∀ f, exec (.elemOneRowWrite core f) s = .next s)) ∧
  (∀ (h : Hdr) (table src : Nat) (data : List Byte), s.goes h opRotary (firstStatus [failIf (decide (3 < table)) 0x201, failIf (ptrTag src = 3) 0x401,
      s.checkPtr h.fn.val (paddockOf h) src 1024 false, failIf (s.scheduleBusy (paddockOf h)) 0x330]) →
    s.untranslated h [⟨src, 1024, false⟩] ∨ s.translated h [⟨src, 1024, false⟩] →
    ∀ u, s.begun h opRotary (.rotaryTableLoad h table src data) [⟨src, 1024, false⟩] = u →
    (u.sourceStatus (paddockOf h) src 1024 ≠ 0 → exec (.rotaryTableLoad h table src data) s = .next (u.complete h (u.sourceStatus (paddockOf h) src 1024))) ∧
    (u.sourceStatus (paddockOf h) src 1024 = 0 →
      ∀ b, (u.countRead h.fn.val (paddockOf h) src 1024).ptrRead (paddockOf h) src 1024 data = b → ∃ t, exec (.rotaryTableLoad h table src data) s = .next t ∧
        t.mem = s.mem ∧
        ((∃ i < 128, fieldAt b (8 * i + 6) 2 ≠ 0) → t.rotary = s.rotary) ∧
        ((∀ i < 128, fieldAt b (8 * i + 6) 2 = 0) → ∀ i < 128, tget 0 t.rotary [paddockOf h, table, i] = fieldAt b (8 * i) 6)))

/-- A pass begins, fetches blocks, scores, reduces, accumulates, scales and completes. Rests on 10_attention_engine.md R280, 10_attention_engine.md R290, 10_attention_engine.md R293, 10_attention_engine.md R296, 10_attention_engine.md R299, 10_attention_engine.md R303, 10_attention_engine.md R305, 10_attention_engine.md R306, 10_attention_engine.md R309, 10_attention_engine.md R312. -/
def Obligations.AttentionPasses : Prop :=
  ∀ s : State,
  (∀ (a : At) (r : Run) (ws : List Nat), s.issues opcPass a r ws →
    (∀ k, (s.issued a r ws).takeRows a.core.val (rowField (bitsAt (nth ws 0) 80 16)) 1 = .error k → exec (.attnPass a) s =
      .next ((s.issued a r ws).violation a.core.val k ((rowField (bitsAt (nth ws 0) 80 16)).drawer.getD 0) a.stream.val (s.ctxOf a r ws).pos)) ∧
    (∀ u rows, (s.issued a r ws).takeRows a.core.val (rowField (bitsAt (nth ws 0) 80 16)) 1 = .ok (u, rows) → ∃ t, exec (.attnPass a) s = .next t ∧
      t.rd F.ATN_STAT_BUSY a.core.val = 1 ∧ t.mem = u.mem ∧ ∃ o ∈ t.sched.ops, o.core = a.core.val ∧
        o.kind = .pass (pass0 (nth rows 0) (max (u.opTick a.core.val) (tget 0 u.sched.busy [a.core.val, stME]))))) ∧
  (∀ (core : Fin 128) (o : Op) (x : Pass), s.passOn core.val = some (o, x) →
    (∀ k rest, x.todo = k :: rest → x.maskedBlock k = false →
      x.blks.any (fun b => b.slot == x.fetched % aStages x.desc) = false →
      x.slots.any (fun y => y.1 == x.fetched % aStages x.desc && decide (x.clk < y.2)) = false →
      (∀ j < 128, x.tok0 k + j < x.hi → x.tok0 k + j < dLength x.ctx → eValid (s.passLeaf (corePdk core.val) x (x.tok0 k + j)) = true) →
      s.skipBlock (corePdk core.val) x k = false → (∀ j < 128, s.tokDropped (corePdk core.val) x (x.tok0 k + j) = false) →
      ∃ (t : State) (x' : Pass), exec (.attnBlockFetch core) s = .next t ∧ t.sched = (s.setPass o x').sched ∧ t.mem = s.mem ∧
        x'.todo = rest ∧ x'.fetched = x.fetched + 1 ∧ x'.skipped = x.skipped ∧ x'.blks.length = x.blks.length + 1) ∧
    (x.desc ≠ [] → aMode x.desc ≠ 3 → x.ready = none → 12 + (aQRows x.desc + 1) / 2 ≤ x.clk → ∃ x' : Pass,
      exec (.attnQueryPrepare core) s = .next ((s.ucharge (corePdk core.val) (aQRows x.desc)).setPass o x') ∧
      x'.ready = some (x.clk + aNr x.desc + 16) ∧ x'.blks = x.blks ∧ x'.todo = x.todo ∧ x'.q.length = aNr x.desc * aHead x.desc) ∧
    (∀ (b : PassBlk) (upsets : List (Nat × Nat)), x.qkNext = some b → s.passHolds o x = true → ∃ (u : State) (x' : Pass),
      exec (.attnQkTile core upsets) s = .next (u.setPass o x') ∧ u.mem = s.mem ∧
      x'.meFree = x.clk + (if aMode x.desc = 2 then 2 else 1) * tStream (aQkWord x.desc) ∧ x'.lastClaim = x'.meFree + 136 ∧ x'.todo = x.todo) ∧
    (∀ b : PassBlk, x.blks.find? (fun b => b.pAt.isNone && b.qkAt.any (fun t => decide (t ≤ x.clk))) = some b → ∃ x' : Pass,
      exec (.attnRowStatistics core) s = .next ((s.wr F.ATN_STAT_BLOCK core.val (min b.k 0xFFFF)).setPass o x') ∧
      ∃ b' ∈ x'.blks, b'.k = b.k ∧ b'.pAt = some (x.clk + aNr x.desc + 14)) ∧
    (∀ (b : PassBlk) (upsets : List (Nat × Nat)), x.pvNext = some b → aMode x.desc ≠ 2 → ∃ (u : State) (x' : Pass),
      exec (.attnPvTile core upsets) s = .next (u.setPass o x') ∧ u.mem = s.mem ∧ x'.blks = x.blks.drop 1 ∧ x'.done = x.done + 1 ∧
      u.rd F.ATN_BLOCKS_COUNT core.val = min (s.rd F.ATN_BLOCKS_COUNT core.val + 1) maxCount) ∧
    (∀ (b : PassBlk) (upsets : List (Nat × Nat)), x.pvNext = some b → aMode x.desc = 2 → ∃ t, exec (.attnPvTile core upsets) s = .next t ∧
      t.mem = s.mem ∧ t.rd F.ATN_BLOCKS_COUNT core.val = min (s.rd F.ATN_BLOCKS_COUNT core.val + 1) maxCount) ∧
    (x.desc ≠ [] → x.scaled = none → x.todo = [] → x.blks = [] → x.lastClaim ≤ x.clk → aMode x.desc ≠ 3 → x.ready.any (fun t => decide (t ≤ x.clk)) = true →
      ∃ (u : State) (x' : Pass), exec (.attnFinalScaling core) s = .next (u.setPass o x') ∧ u.mem = s.mem ∧
        x'.scaled = some (if aMode x.desc = 0 then x.clk + aNr x.desc + 14 else x.clk) ∧ x'.outs ≠ []) ∧
    (x.scaled ≠ none → x.outs = [] → x.landing = 0 → x.lines = 0 → ∃ t, exec (.attnPassComplete core) s = .next t ∧
      t.rd F.ATN_STAT_BUSY core.val = 0 ∧ t.rd F.ATN_EPOCH_EPOCH core.val = 0 ∧ t.mem = s.mem ∧
      t.rd F.ATN_PASSES_COUNT core.val = min (s.rd F.ATN_PASSES_COUNT core.val + 1) maxCount)) ∧
  (∀ core : Fin 128, s.passOn core.val = none → exec (.attnBlockFetch core) s = .next s ∧ exec (.attnQueryPrepare core) s = .next s ∧
    exec (.attnRowStatistics core) s = .next s ∧ exec (.attnFinalScaling core) s = .next s ∧ exec (.attnPassComplete core) s = .next s ∧
    ∀ u, exec (.attnQkTile core u) s = .next s ∧ exec (.attnPvTile core u) s = .next s)

/-- Appends: the instruction, the hand-over of the tile, its end, and a row from elsewhere. Rests on 07_matrix_engine.md R204, 07_matrix_engine.md R206, 11_kv_context_store.md R328, 11_kv_context_store.md R332, 11_kv_context_store.md R334, 11_kv_context_store.md R335. -/
def Obligations.KvAppends : Prop :=
  ∀ s : State,
  (∀ (a : At) (errs : List ShelfErr) (r : Run) (ws : List Nat), s.issues opcAppend a r ws → ∃ t, exec (.kvAppend a errs) s = .next t ∧ t.mem = s.mem ∧
    tget 0 t.sched.busy [a.core.val, a.stream.val] = (s.issued a r ws).opTick a.core.val + 3 ∧ t.sched.nextOp = s.sched.nextOp + 1 ∧
    ∃ o ∈ t.sched.ops, o.id = s.sched.nextOp ∧ o.core = a.core.val ∧ o.stream = a.stream.val ∧ o.done = bitsAt (nth ws 0) 56 24 ∧
      ∃ reads, o.kind = .append ⟨reads, [], false, 0⟩) ∧
  (∀ (core : Fin 128) (upsets : List (Nat × Nat)) (o : Op) (t : Tile), s.handoffDue core.val = some (o, t) → s.coreLive core.val = true →
    ∃ u, exec (.kvAppendHandoff core upsets) s = .next u ∧ u.mem = s.mem ∧ s.free + 128 ≤ u.free ∧
      u.rd F.MXE_TILES_COUNT core.val = min (s.rd F.MXE_TILES_COUNT core.val + 1) maxCount ∧
      ((t.compute upsets s.free).checks.any RowCheck.failed = false → o.done = 0 →
        (u.appBufOf core.val (tMover t.word)).length = (s.appBufOf core.val (tMover t.word)).length + 1)) ∧
  (∀ (core : Fin 128) (o : Op), s.sched.ops.find? (fun o => o.core == core.val && (match o.kind with
      | .append a => a.sent && a.left == 0
      | _ => false)) = some o → exec (.kvAppendComplete core) s = .next (s.completeOp o)) ∧
  (∀ (port : Option (Fin 12)) (m : Msg) (rank : Nat) (t : State), s.admits port m 3 rank t →
    ∀ u r, (t.ucharge m.dstPdk 16).appendRow m.dstPdk (leBytes m.aux 8 ++ m.data.take 8) (mapCtx m.target) (mapGen m.target) (mapPos m.target)
      (m.data.drop 32) (.msg m) srcServer 4 = (u, r) →
    (r = 0 → exec (.appendMessageReceive port m) s = .next u) ∧
    (r = 3 → exec (.appendMessageReceive port m) s = .next (u.ackMsg m 0x620 0 1)) ∧
    (r ≠ 0 → r ≠ 3 → exec (.appendMessageReceive port m) s = .next (u.ackMsg m (appendWarning r) 0 1)))

/-- The commands on contexts and pages run one at a time, and what each answers. Rests on 11_kv_context_store.md R324, 11_kv_context_store.md R327, 11_kv_context_store.md R338, 11_kv_context_store.md R341, 11_kv_context_store.md R344, 11_kv_context_store.md R345, 11_kv_context_store.md R350, 17_command_packets.md R493. -/
def Obligations.ContextEdits : Prop :=
  ∀ (s : State) (h : Hdr) (c : Nat),
  (∀ (fmt head kvHeadsM1 depth layersM1 place prio flags tag : Nat) (t : State),
    s.edits h 0x30 (firstStatus [s.quotaStatus h c, failIf (decide (2 < fmt) || decide (head < 6) || decide (8 < head) || decide (depth = 0) ||
      decide (4 < depth) || decide (15 < prio) || decide (1 < flags) || decide (4096 < (layersM1 + 1) * (kvHeadsM1 + 1))) 0x240])
      (.ctxCreate h c fmt head kvHeadsM1 depth layersM1 place prio flags tag) t →
    exec (.ctxCreate h c fmt head kvHeadsM1 depth layersM1 place prio flags tag) s = .next (t.setEdits (paddockOf h) [])) ∧
  (∀ t, s.edits h 0x31 (s.quotaStatus h c) (.ctxDestroy h c) t → exec (.ctxDestroy h c) s = .next (t.setEdits (paddockOf h) [])) ∧
  (∀ (select prio flags length tag : Nat) (t : State),
    s.edits h 0x32 (firstStatus [s.quotaStatus h c, failIf (decide (15 < select) || decide (15 < prio) || decide (1 < flags)) 0x240])
      (.ctxSet h c select prio flags length tag) t →
    exec (.ctxSet h c select prio flags length tag) s = .next (t.setEdits (paddockOf h) [])) ∧
  (∀ (place : Nat) (t : State), s.edits h 0x34 (s.quotaStatus h c) (.ctxPlace h c place) t →
    exec (.ctxPlace h c place) s = .next (t.setEdits (paddockOf h) [])) ∧
  (∀ (n0 k : Nat) (t : State), s.edits h 0x35 (failIf (k == 0) 0x240) (.kvPoolAdd h n0 k) t → exec (.kvPoolAdd h n0 k) s = .next (t.setEdits (paddockOf h) [])) ∧
  (∀ (n0 k : Nat) (t : State), s.edits h 0x36 (failIf (k == 0) 0x240) (.kvPoolRemove h n0 k) t → exec (.kvPoolRemove h n0 k) s = .next (t.setEdits (paddockOf h) [])) ∧
  (∀ (tier lo hi : Nat) (t : State), s.edits h 0x37 (firstStatus [s.quotaStatus h c, failIf (decide (1 < tier)) 0x240]) (.kvMap h c tier lo hi) t →
    exec (.kvMap h c tier lo hi) s = .next (t.setEdits (paddockOf h) [])) ∧
  (∀ (lo hi : Nat) (t : State),
    (s.edits h 0x38 (s.quotaStatus h c) (.kvUnmap h c lo hi) t → exec (.kvUnmap h c lo hi) s = .next (t.setEdits (paddockOf h) [])) ∧
    (s.edits h 0x39 (s.quotaStatus h c) (.kvDemote h c lo hi) t → exec (.kvDemote h c lo hi) s = .next (t.setEdits (paddockOf h) [])) ∧
    (s.edits h 0x3A (s.quotaStatus h c) (.kvPromote h c lo hi) t → exec (.kvPromote h c lo hi) s = .next (t.setEdits (paddockOf h) [])) ∧
    (s.edits h 0x3B (s.quotaStatus h c) (.kvDrop h c lo hi) t → exec (.kvDrop h c lo hi) s = .next (t.setEdits (paddockOf h) []))) ∧
  (∀ t, s.edits h 0x3C 0 (.kvScatter h) t → exec (.kvScatter h) s = .next (t.setEdits (paddockOf h) [])) ∧
  (∀ lo hi : Nat, ∀ cmd ∈ [Instr.ctxDestroy h c, .ctxPlace h c lo, .kvUnmap h c lo hi, .kvDemote h c lo hi, .kvPromote h c lo hi, .kvDrop h c lo hi, .kvMap h c 0 lo hi],
    ((s.useDesc (paddockOf h) c).kvPoisoned (paddockOf h) c = true → s.doEdit cmd = (s.useDesc (paddockOf h) c).kvDone h 0x531) ∧
    ((s.useDesc (paddockOf h) c).kvPoisoned (paddockOf h) c = false → dValid ((s.useDesc (paddockOf h) c).desc (paddockOf h) c) = false →
      s.doEdit cmd = (s.useDesc (paddockOf h) c).kvDone h 0x343)) ∧
  (∀ lo hi : Nat, (s.useDesc (paddockOf h) c).kvPoisoned (paddockOf h) c = false → dValid ((s.useDesc (paddockOf h) c).desc (paddockOf h) c) = true →
    (hi ≤ lo ∨ dCapacity ((s.useDesc (paddockOf h) c).desc (paddockOf h) c) < hi) →
    ∀ cmd ∈ [Instr.kvUnmap h c lo hi, .kvDemote h c lo hi, .kvPromote h c lo hi, .kvDrop h c lo hi, .kvMap h c 1 lo hi],
      ∃ u, s.doEdit cmd = State.kvDone u h 0x240 ∧ u.mem = s.mem) ∧
  (∀ n0 k : Nat, poolLimit < n0 + k → s.doEdit (.kvPoolAdd h n0 k) = s.kvDone h 0x344 ∧ s.doEdit (.kvPoolRemove h n0 k) = s.kvDone h 0x345) ∧
  (∀ out : Nat, s.goes h 0x33 (firstStatus [s.quotaStatus h c, failIf (ptrTag out = 3) 0x401,
      s.checkPtr h.fn.val (paddockOf h) out 64 true]) → s.untranslated h [⟨out, 64, true⟩] ∨ s.translated h [⟨out, 64, true⟩] →
    ∀ u, ((s.begun h 0x33 (.ctxRead h c out) [⟨out, 64, true⟩]).useDesc (paddockOf h) c) = u →
    (u.resourceStatus (paddockOf h) out ≠ 0 → exec (.ctxRead h c out) s = .next (u.complete h (u.resourceStatus (paddockOf h) out))) ∧
    (u.resourceStatus (paddockOf h) out = 0 → u.ptrPoison (paddockOf h) (descAddr c) 64 = true → exec (.ctxRead h c out) s = .next (u.complete h 0x531)) ∧
    (u.resourceStatus (paddockOf h) out = 0 → u.ptrPoison (paddockOf h) (descAddr c) 64 = false →
      exec (.ctxRead h c out) s = .next ((u.ptrWrite h.fn.val (paddockOf h) out (u.desc (paddockOf h) c)).complete h 0))) ∧
  (∀ (x : Hdr) (rows : List Nat), s.kv.places.find? (fun x => x.1 == h) = some (x, rows) → s.kv.rows.any (fun r => rows.contains r.id) = false →
    exec (.ctxPlaceDrained h) s = .next (State.kvDone { s with kv := { s.kv with places := s.kv.places.filter (fun x => x.1 != h) } } h 0))

/-- A page move waits for rows, copies, swaps and ends; limbo gives back what no pass holds. Rests on 11_kv_context_store.md R327, 11_kv_context_store.md R341, 11_kv_context_store.md R342, 11_kv_context_store.md R343, 15_far_tier.md R446. -/
def Obligations.PageMoves : Prop :=
  ∀ (s : State) (p : Fin 16),
  (s.moveOf p.val = none → exec (.pageMoveAppendsDrained p) s = .next s ∧ exec (.pageMoveCopyDone p) s = .next s) ∧
  (∀ m : Move, s.moveOf p.val = some m →
    (m.copying = false → s.kv.rows.any (fun r => m.waits.contains r.id) = false → exec (.pageMoveAppendsDrained p) s = .next (s.setMove { m with copying := true })) ∧
    (s.kv.rows.any (fun r => m.waits.contains r.id) = true → exec (.pageMoveAppendsDrained p) s = .next s) ∧
    (m.copying = false → exec (.pageMoveCopyDone p) s = .next s) ∧
    (∀ (i : Nat) (rest : List Nat), m.copying = true → m.todo = i :: rest →
      (s.moveStatus p.val m ≠ 0 → exec (.pageMoveCopyDone p) s =
        .next ((m.pages.foldl (fun s x => s.setUse p.val x.2.2 1) (s.markMoving p.val (s.desc p.val m.ctx) i false)).endMove m (s.moveStatus p.val m))) ∧
      (∀ t, s.moveStatus p.val m = 0 → State.fitsLimbo p.val ((m.pages.foldl (fun s x => s.copyPage p.val x.2.1 x.2.2) s).swapMoved m i) = some t →
        ∀ m', m' = { m with todo := rest, moved := m.moved + m.pages.length, pages := [], waits := [] } →
        (rest = [] → exec (.pageMoveCopyDone p) s = .next (t.endMove m' 0)) ∧
        (rest ≠ [] → exec (.pageMoveCopyDone p) s = .next ((t.setMove m').beginPage m'))))) ∧
  (s.editsOf p.val = [] → ∃ t, exec (.limboRecycle p) s = .next t ∧ t.mem.far = s.mem.far ∧ t.mem.shelf = s.mem.shelf ∧ t.mem.ws = s.mem.ws ∧
    (∀ x ∈ t.kv.limbo, x.pdk = p.val → (s.syncHeld p.val).minHeld p.val ≤ x.tag) ∧
    (∀ x ∈ s.kv.limbo, x.pdk ≠ p.val → x ∈ t.kv.limbo)) ∧
  (s.rd F.CTX_CFG_DEMOTE_EN p.val = 0 → exec (.autoDemote p) s = .next s) ∧
  (∀ c i, s.rd F.CTX_CFG_DEMOTE_EN p.val = 1 → s.rd F.CTX_POOL_FREE_PAGES p.val < s.rd F.CTX_CFG_LOW_WM p.val → s.moveOf p.val = none → s.editsOf p.val = [] →
    s.frozen p.val = false →
    (s.rd F.CTX_CFG_HIGH_WM p.val ≤ s.rd F.CTX_POOL_FREE_PAGES p.val + ((s.limboOf p.val).filter (fun x => x.kind == 0)).length →
      ∃ t, exec (.autoDemote p) s = .next t ∧ tget false t.kv.demoting [p.val] = false ∧ t.mem = s.mem ∧ t.regs = s.regs) ∧
    (s.rd F.CTX_POOL_FREE_PAGES p.val + ((s.limboOf p.val).filter (fun x => x.kind == 0)).length < s.rd F.CTX_CFG_HIGH_WM p.val →
      s.victim p.val = some (c, i) → s.moveLack p.val (s.desc p.val c) true [i] = 0 →
      exec (.autoDemote p) s = .next (State.beginMove { s with kv := { s.kv with demoting := tset false s.kv.demoting [p.val] true } } none p.val c true [i])))

/-- A decode step waits for the sorting assist, is sorted, and runs its buckets. Rests on 11_kv_context_store.md R346, 11_kv_context_store.md R347, 11_kv_context_store.md R348, 11_kv_context_store.md R349, 01_paddocks_and_roles.md R18. -/
def Obligations.DecodeSteps : Prop :=
  ∀ s : State,
  (∀ (h : Hdr) (list out outBytes nM1 slot pPages pCount pRow : Nat) (params : List Nat) (data : List Byte),
    nM1 < 4096 → slot ≤ 3 → pPages ≤ 15 → pCount ≤ 15 → pRow ≤ 15 → pPages ≠ pCount → pPages ≠ pRow → pCount ≠ pRow →
    out % 512 = 0 → ptrTag out = 0 → 512 * (26 + (nM1 + 1 + 31) / 32) ≤ outBytes → ptrTag list ≠ 3 →
    s.goes h opStep (firstStatus [s.ptrStatus h.fn.val (paddockOf h) list (8 * (nM1 + 1)) false, s.ptrStatus h.fn.val (paddockOf h) out outBytes true,
      wholeStatus list 64 false]) →
    s.untranslated h [⟨list, 8 * (nM1 + 1), false⟩] ∨ s.translated h [⟨list, 8 * (nM1 + 1), false⟩] →
    ∀ ps, (List.range 16).map (fun k => nth params k % 2 ^ 32) = ps →
    ∃ t, exec (.decodeStep h list out outBytes nM1 slot pPages pCount pRow params data) s = .next t ∧ t.mem = s.mem ∧ t.out = s.out ∧
      t.sched.steps = s.sched.steps ++ [⟨h, slot, ps, pPages, pCount, pRow, list, out, nM1 + 1, false, [], 0, tally0, 0, 0, 0⟩] ∧
      (t.runsOf (paddockOf h)).waiting = (s.runsOf (paddockOf h)).waiting ++ [⟨h, 0, slot, ps, some stepMark, tally0⟩]) ∧
  (∀ (p : Fin 16) (y : Step) (k : Nat), s.assistDue p.val = some y → s.frozen p.val = false →
    (List.range 16).find? (fun k => (s.assistDue ((s.kv.assist + k) % 16)).isSome) = some k →
    ((s.kv.assist + k) % 16 = p.val → ∃ t, exec (.sortingAssistTake p) s = .next t ∧ t.kv.assist = (p.val + 1) % 16 ∧
      ∀ y' ∈ t.sched.steps, y'.h = y.h → y'.sorted = true) ∧
    ((s.kv.assist + k) % 16 ≠ p.val → exec (.sortingAssistTake p) s = .next s)) ∧
  (∀ p : Fin 16, s.assistDue p.val = none → exec (.sortingAssistTake p) s = .next s) ∧
  (∀ (p : Fin 16) (y : Step) (b count row : Nat) (rest : List (Nat × Nat × Nat)),
    s.sched.steps.find? (fun y => paddockOf y.h == p.val && y.sorted && nth (s.progOf y.h) 0 == 1 && y.running == 0) = none →
    s.stepDue p.val = some y → y.sorted = true → y.buckets = (b, count, row) :: rest → (s.runsOf p.val).armed = none → (s.runsOf p.val).cause = none →
    s.frozen p.val = false →
    ∀ u x, u = (if rest = [] then (s.setStep { y with buckets := rest, running := y.running + 1 }).unmark y.h
        else s.setStep { y with buckets := rest, running := y.running + 1 }) →
      x = ⟨y.h, 0, y.slot, ((y.params.set y.pPages (2 ^ b)).set y.pCount count).set y.pRow row, some b, tally0⟩ →
    ∃ v, v = (if u.runStatus p.val y.slot x.params ≠ 0 then u.endRun x (u.runStatus p.val y.slot x.params) else u.armRun p.val x) ∧
      exec (.decodeBucketRun p) s = .next ((v.armWaiting p.val (v.runsOf p.val).waiting.length).syncPstat p.val)) ∧
  (∀ p : Fin 16, s.sched.steps = [] → s.stepDue p.val = none → exec (.decodeBucketRun p) s = .next s)

/-- Tables are defined, retired, read and looked up. Rests on 12_table_engine.md R355, 12_table_engine.md R361, 12_table_engine.md R363, 12_table_engine.md R368, 12_table_engine.md R369, 12_table_engine.md R370, 12_table_engine.md R374, 12_table_engine.md R378. -/
def Obligations.Tables : Prop :=
  ∀ s : State,
  (∀ (h : Hdr) (slot sect elem hash rowsLog2 rows base mult tag : Nat),
    s.goes h opTableDefine (firstStatus [failIf (decide (255 < slot)) 0x250, s.tableStatus h sect elem hash rowsLog2 rows base mult]) →
    s.findTaken h = none → h.q.val ≠ 8 → h.fn.val = vfOf (paddockOf h) →
    (∀ t ∈ s.taken, t.ofPdk (paddockOf h) = true → t.op ≠ opTableDefine ∧ t.op ≠ opTableRetire) →
    ∀ gen, gen = (tdGen (s.tableOf (paddockOf h) slot) + 1) % 256 → s.genHolders (paddockOf h) slot gen = 0 →
    ∃ t, exec (.tableDefine h slot sect elem hash rowsLog2 rows base mult tag) s = .next t ∧
      t = ((s.start h opTableDefine (some (.tableDefine h slot sect elem hash rowsLog2 rows base mult tag))).setTable (paddockOf h) slot
        (tableBytes gen sect elem hash rowsLog2 rows base mult tag)).complete h 0 (gen * 2 ^ 4) ∧
      t.tableOf (paddockOf h) slot = tableBytes gen sect elem hash rowsLog2 rows base mult tag ∧ t.mem = s.mem ∧
      ∀ p k, (p ≠ paddockOf h ∨ k ≠ slot) → t.tableOf p k = s.tableOf p k) ∧
  (∀ (h : Hdr) (slot gen : Nat), s.goes h opTableRetire (failIf (decide (255 < slot) || decide (255 < gen) || decide (1 < 1)) 0x201) →
    s.findTaken h = none → h.q.val ≠ 8 → h.fn.val = vfOf (paddockOf h) →
    (∀ t ∈ s.taken, t.ofPdk (paddockOf h) = true → t.op ≠ opTableDefine ∧ t.op ≠ opTableRetire) →
    tdValid (s.tableOf (paddockOf h) slot) = true → tdGen (s.tableOf (paddockOf h) slot) = gen → s.genHolders (paddockOf h) slot gen = 0 →
    ∃ t, exec (.tableRetire h slot gen 1) s = .next t ∧ tdValid (t.tableOf (paddockOf h) slot) = false ∧
      t.tableOf (paddockOf h) slot = 0 :: (s.tableOf (paddockOf h) slot).drop 1 ∧ t.mem = s.mem ∧ t.findTaken h = none ∧
      ∀ p k, (p ≠ paddockOf h ∨ k ≠ slot) → t.tableOf p k = s.tableOf p k) ∧
  (∀ (p : Fin 16), (s.tableStep p.val = none → exec (.tableGenerationRelease p) s = .next s) ∧
    ∀ t, s.tableStep p.val = some t → exec (.tableGenerationRelease p) s = .next (t.tablePump p.val (3 * s.taken.length))) ∧
  (∀ (h : Hdr) (slot out : Nat), s.goes h opTableRead (firstStatus [failIf (decide (255 < slot)) 0x201,
      s.checkPtr h.fn.val (paddockOf h) out 64 true, s.resourceStatus (paddockOf h) out]) →
    s.untranslated h [⟨out, 64, true⟩] ∨ s.translated h [⟨out, 64, true⟩] →
    ∀ u, s.begun h opTableRead (.tableRead h slot out) [⟨out, 64, true⟩] = u →
    exec (.tableRead h slot out) s =
      .next ((u.ptrWrite h.fn.val (paddockOf h) out ((u.tableOf (paddockOf h) slot ++ List.replicate 64 0).take 64)).complete h 0)) ∧
  (∀ (a : At) (r : Run) (ws : List Nat), s.issues opcLookup a r ws → ∀ u, s.issued a r ws = u →
    (tdValid (u.tableOf (corePdk a.core.val) (lSlot (nth ws 0))) = false → exec (.tableLookup a) s =
      .next (u.tblErr a.core.val 0 (lSlot (nth ws 0)) 0 (s.ctxOf a r ws).pos 0x670)) ∧
    (∀ v req w rows, tdValid (u.tableOf (corePdk a.core.val) (lSlot (nth ws 0))) = true →
      u.takeRows a.core.val (rowField (lReq (nth ws 0))) (lReqRows (nth ws 0)) = .ok (v, req) →
      v.claimRows a.core.val (rowField (lDst (nth ws 0))) (lookupOut (nth ws 0) (u.tableOf (corePdk a.core.val) (lSlot (nth ws 0)))) = .ok (w, rows) →
      ∃ t, exec (.tableLookup a) s = .next t ∧ t.mem = w.mem ∧ t.sched.nextOp = w.sched.nextOp + 1 ∧
        ∃ o ∈ t.sched.ops, o.core = a.core.val ∧ o.kind = .lookup ⟨nth ws 0, lSlot (nth ws 0), u.tableOf (corePdk a.core.val) (lSlot (nth ws 0)),
          req, rows, [], [], [], [], false, false, 0⟩)) ∧
  (∀ (core : Fin 128) (o : Op) (l : Lookup) (b k : Nat) (row : List Byte) (poison : Bool), s.sched.ops.findSome? (fun o => match o.kind with
      | .lookup l => if o.core = core.val then l.arrived.map (fun r => (o, l, r)) else none
      | _ => none) = some (o, l, (b, k, row, poison)) →
    ∃ l', l' = { l with got := l.got ++ [(b, k, row, poison)], parts := l.parts.filter (fun x => !(x.1 == b && x.2.1 == k)) } ∧
    ((s.runsOf (corePdk core.val)).cause ≠ none → exec (.tableRowReturn core) s = .next (s.setOp o.id (.lookup l'))) ∧
    ((s.runsOf (corePdk core.val)).cause = none → lPool l.word = 0 → exec (.tableRowReturn core) s =
      .next (((s.setOp o.id (.lookup l')).countOutputs (corePdk core.val) o.side (l'.gatherOut row).2).landRows o (l'.slotRows k) (l'.gatherOut row).1
        (poison || l'.reqPoison 0))) ∧
    ((s.runsOf (corePdk core.val)).cause = none → lPool l.word ≠ 0 → (l'.ids.filter (fun i => i.1 == b)).length = (l'.bagRows b).length →
      exec (.tableRowReturn core) s = .next (((s.setOp o.id (.lookup l')).countOutputs (corePdk core.val) o.side (l'.bagOut b).2.1).landRows o
        (l'.slotRows b) (l'.bagOut b).1 (l'.bagOut b).2.2))) ∧
  (∀ (core : Fin 128) (o : Op) (l : Lookup), s.sched.ops.findSome? (fun o => match o.kind with
      | .lookup l => if o.core = core.val ∧ l.ended = true then some (o, l) else none
      | _ => none) = some (o, l) → ∃ t, exec (.tableLookupComplete core) s = .next t ∧ t.mem = s.mem ∧ t.tables = s.tables ∧
    t.rd F.TBL_LOOKUPS_COUNT (corePdk core.val) = min (s.rd F.TBL_LOOKUPS_COUNT (corePdk core.val) + 1) maxCount)

/-- Line transactions issue while one of 2,048 is free, and a write that ends changes its bytes and no others. Rests on 13_hbm_and_address_map.md R387, 13_hbm_and_address_map.md R389, 13_hbm_and_address_map.md R390, 13_hbm_and_address_map.md R413. -/
def Obligations.LineTransactions : Prop :=
  ∀ (s : State) (p : Fin 16),
  (s.nextRequest p.val = none → exec (.lineTransactionIssue p) s = .next s) ∧
  (∀ l : Line, s.nextRequest p.val = some l → l.pdk = p.val →
    (lineCap ≤ s.rd F.HBM_GSTAT_TXN p.val → exec (.lineTransactionIssue p) s = .next s) ∧
    (s.rd F.HBM_GSTAT_TXN p.val < lineCap → l.msg = none → ptrTag l.ptr = 1 → ∃ t, exec (.lineTransactionIssue p) s = .next t ∧
      t.rd F.HBM_GSTAT_TXN p.val = s.rd F.HBM_GSTAT_TXN p.val + 1 ∧ t.mem = s.mem ∧
      t.out = s.out ++ [if l.write = true then .hostWrite (vfOf p.val) l.ptr l.data else .hostRead (vfOf p.val) l.ptr l.len]) ∧
    (s.rd F.HBM_GSTAT_TXN p.val < lineCap → l.msg = none → ptrTag l.ptr = 0 → s.channelDead (channelOf (dpaOf p.val (ptrAddr l.ptr))) = false →
      ∃ t, exec (.lineTransactionIssue p) s = .next t ∧ t.rd F.HBM_GSTAT_TXN p.val = s.rd F.HBM_GSTAT_TXN p.val + 1 ∧ t.mem = s.mem ∧ t.out = s.out ∧
        tget 0 t.net.lastSrc [p.val] = l.src + 1)) ∧
  (∀ (idx : Nat) (ret : Fetched) (errs : List SecErr) (l : Line), (s.issuedLines p.val)[idx]? = some l →
    (l.canEnd = false → exec (.lineTransactionComplete p idx ret errs) s = .next s) ∧
    (l.canEnd = true → l.msg ≠ none → exec (.lineTransactionComplete p idx ret errs) s = .next ((s.dropLine l).writeDone l)) ∧
    (l.canEnd = true → l.msg = none → l.write = false →
      exec (.lineTransactionComplete p idx ret errs) s = .next (((s.lineRead l ret errs).1.dropLine l).readDone l (s.lineRead l ret errs).2.1 (s.lineRead l ret errs).2.2)) ∧
    (∀ id acks, l.canEnd = true → l.msg = none → l.write = true → l.use = .outb id acks → l.dead = 0 → l.poison = false → ptrTag l.ptr = 0 →
      ∃ t, exec (.lineTransactionComplete p idx ret errs) s = .next t ∧
        (∀ k < l.data.length, mget t.mem.hbm (dpaOf l.pdk (ptrAddr l.ptr) + k) = (l.data[k]?).getD 0) ∧
        (∀ a, (a < dpaOf l.pdk (ptrAddr l.ptr) ∨ dpaOf l.pdk (ptrAddr l.ptr) + l.data.length ≤ a) → mget t.mem.hbm a = mget s.mem.hbm a) ∧
        t.mem.far = s.mem.far ∧ t.mem.shelf = s.mem.shelf ∧ t.mem.ws = s.mem.ws))

/-- Parity replays, calibration windows, refresh and temperatures. Rests on 13_hbm_and_address_map.md R394, 13_hbm_and_address_map.md R395, 13_hbm_and_address_map.md R396, 13_hbm_and_address_map.md R397, 13_hbm_and_address_map.md R404. -/
def Obligations.HbmChannels : Prop :=
  ∀ s : State,
  (∀ (p : Fin 16) (idx : Nat) (wd : Bool) (l : Line), (s.issuedLines p.val)[idx]? = some l → ptrTag l.ptr = 0 → l.msg = none → l.dead = 0 →
    (wd = true → l.write = true) →
    (l.tries < 4 → ∃ t, exec (.hbmParityReplay p idx wd) s = .next t ∧ t.mem = s.mem ∧ t.sched = s.sched ∧
      t.net = (s.setLine { l with tries := l.tries + 1 }).net ∧
      t.rd F.HBM_PAR_RETRY_COUNT p.val = min (s.rd F.HBM_PAR_RETRY_COUNT p.val + 1) maxCount) ∧
    (4 ≤ l.tries → ∃ t, exec (.hbmParityReplay p idx wd) s = .next t ∧ t.mem = s.mem ∧
      t.rd F.HBM_PAR_FAIL_COUNT p.val = min (s.rd F.HBM_PAR_FAIL_COUNT p.val + 1) maxCount)) ∧
  (∀ ch : Fin 256, (s.rd F.HBM_CH_STAT_PWR ch.val ≠ 2 → s.now % s.calNs = ch.val * s.calNs / 256 →
      ∃ t, exec (.calibrationWindow ch) s = .next t ∧ Sets s t F.HBM_CH_CAL_LAST ch.val 0 (s.now % 2 ^ 64)) ∧
    (s.now % s.calNs ≠ ch.val * s.calNs / 256 → exec (.calibrationWindow ch) s = .next s) ∧
    exec (.hbmRefresh ch) s = .next s) ∧
  (∀ temps : List Nat, ∃ t, exec (.hbmTemperatureRead temps) s = .next t ∧ t.mem = s.mem ∧ t.out = s.out ∧
    ∀ k < 8, t.rd F.HBM_TEMP_TEMP 0 k = nth temps k % 256 ∧
      t.rd F.HBM_TEMP_MAX_TEMP 0 k = max (nth temps k % 256) (s.rd F.HBM_TEMP_MAX_TEMP 0 k) % 256 ∧
      ∀ c < 32, t.rd F.HBM_CH_STAT_REFRESH_X2 (32 * k + c) = if 85 < nth temps k % 256 then 1 else 0)

/-- Channels are powered down and up, and margins measured. Rests on 13_hbm_and_address_map.md R399, 13_hbm_and_address_map.md R401, 13_hbm_and_address_map.md R405, 13_hbm_and_address_map.md R406. -/
def Obligations.HbmPowerAndMargin : Prop :=
  ∀ (s : State) (h : Hdr),
  (∀ group state mask : Nat, s.orderBusy h = false → (List.range 16).any (fun c => hasBit mask c && s.underTest 2 (16 * group + c)) = false →
    s.goes h opHbmPower (firstStatus [failIf (decide (15 < group) || mask == 0 || decide (65535 < mask) || !(state == 0 || state == 2)) 0x280,
        failIf (state == 2 && s.tenantUse group) 0x390]) →
    ∀ cs, cs = s.channelsIn group mask (if state = 2 then 0 else 2) →
    (cs = [] → exec (.hbmPower h group state mask) s =
      .next ((s.start h opHbmPower (some (.hbmPower h group state mask)) [s.now, 0, b2n (state == 0), group]).complete h 0)) ∧
    (cs ≠ [] → exec (.hbmPower h group state mask) s = .next ((s.start h opHbmPower (some (.hbmPower h group state mask))
      [s.now, cs.foldl (fun m c => m + 2 ^ c) 0, b2n (state == 0), group]).setChannels group cs (if state = 2 then 1 else 3)))) ∧
  (∀ group state mask : Nat, s.callStatus h opHbmPower = 0 → s.orderBusy h = true → exec (.hbmPower h group state mask) s = .next s) ∧
  (∀ g, s.powerProg h false = some g →
    (s.writesTo (nth g 3) (nth g 1) = false → exec (.hbmPowerDownDrained h) s =
      .next ((s.setChannels (nth g 3) (s.channelsIn (nth g 3) (nth g 1) 1) 2).powerDone h 0)) ∧
    (s.writesTo (nth g 3) (nth g 1) = true → exec (.hbmPowerDownDrained h) s = .next s) ∧
    (nth g 0 + 100000 ≤ s.now → exec (.hbmPowerDownTimeout h) s =
      .next ((s.setChannels (nth g 3) (s.channelsIn (nth g 3) (nth g 1) 1) 0).complete h 0x313)) ∧
    (s.now < nth g 0 + 100000 → exec (.hbmPowerDownTimeout h) s = .next s)) ∧
  (∀ g, s.powerProg h true = some g → ∃ t, exec (.hbmPowerUpDone h) s = .next t ∧
    (∀ a, nth g 3 * groupBytes ≤ a → a < nth g 3 * groupBytes + groupBytes → mget t.mem.hbm a = memDefault) ∧
    (∀ a, (a < nth g 3 * groupBytes ∨ nth g 3 * groupBytes + groupBytes ≤ a) → mget t.mem.hbm a = mget s.mem.hbm a) ∧
    t.mem.far = s.mem.far ∧ t.mem.shelf = s.mem.shelf) ∧
  (∀ ch kind pattern lo hi dwell out : Nat, s.goes h opHbmMargin
      (firstStatus [failIf (decide (255 < ch) || decide (4 < kind) || decide (2 < pattern) || decide (signedAt hi 16 < signedAt lo 16) ||
          decide (signedAt lo 16 < -(marginRange kind : Int)) || decide ((marginRange kind : Int) < signedAt hi 16) || dwell == 0 ||
          decide (65536 < dwell) || out % 16 != 0) 0x280,
        failIf (ptrTag out != 1) 0x401, failIf (s.tenantUse (ch / 16)) 0x390, failIf (s.rd F.HBM_CH_STAT_PWR ch != 0) 0x312,
        s.ptrStatus h.fn.val 0 out (16 * (signedAt hi 16 - signedAt lo 16 + 1).toNat) true]) →
    s.untranslated h [⟨out, 16 * (signedAt hi 16 - signedAt lo 16 + 1).toNat, true⟩] ∨
      s.translated h [⟨out, 16 * (signedAt hi 16 - signedAt lo 16 + 1).toNat, true⟩] →
    exec (.hbmMargin h ch kind pattern lo hi dwell out) s = .next (s.begun h opHbmMargin (.hbmMargin h ch kind pattern lo hi dwell out)
      [⟨out, 16 * (signedAt hi 16 - signedAt lo 16 + 1).toNat, true⟩])) ∧
  (∀ (h' : Hdr) (ch kind pattern lo hi dwell out : Nat) (points : List (Nat × Bool)), s.runningCmd h = some (.hbmMargin h' ch kind pattern lo hi dwell out) →
    ∃ (u : State) (bs : List Byte) (r : Nat), exec (.hbmMarginComplete h points) s = .next (u.complete h 0 r) ∧ u = s.ptrWrite h.fn.val 0 out bs ∧
      bs.length = 16 * (signedAt hi 16 - signedAt lo 16 + 1).toNat)

/-- The Mower visits, scrubs, patches and re-keys lines, and raw sectors are written and read. Rests on 14_stored_data_integrity.md R415, 14_stored_data_integrity.md R416, 14_stored_data_integrity.md R421, 14_stored_data_integrity.md R422, 14_stored_data_integrity.md R423, 14_stored_data_integrity.md R427, 14_stored_data_integrity.md R428, 14_stored_data_integrity.md R431. -/
def Obligations.TheMower : Prop :=
  ∀ s : State,
  (∀ (g : Fin 16) (errs : List SecErr) (second : List Nat) (l : Nat) (x : Bool) (rest : List (Nat × Bool)), tget [] s.msys.demand [g.val] = (l, x) :: rest →
    s.mowZeroing g.val = false → s.mowCopying g.val = false → ∀ u, (∀ go, s.mowLine g.val 40 [0, g.val, l] go = go u) →
    ∃ t, exec (.mowerDemandVisit g errs second) s = .next t ∧ t.mem.hbm = u.mem.hbm ∧ tget [] t.msys.demand [g.val] = rest ∧
      t.rd F.MOW_STAT_ACTIVITY g.val = mowScrub) ∧
  (∀ (g : Fin 16) (errs : List (Fin 16 × SecErr)) (second : List (Nat × Nat)), s.rd F.MOW_CFG_SCRUB_INTERVAL g.val ≠ 0 → s.mowZeroing g.val = false →
    s.mowCopying g.val = false → s.mowDemanded g.val = false → s.mowRotating g.val = false →
    ∀ u n, n = s.rd F.MOW_STAT_SCRUB_LINE g.val → (∀ go, s.mowLine g.val 640 [1, g.val, n] go = go u) →
    ∃ t, exec (.scrubLine g errs second) s = .next t ∧ t.mem.hbm = u.mem.hbm ∧ (errs = [] → t.mem = u.mem) ∧
      t.rd F.MOW_LINES_COUNT g.val = min (u.rd F.MOW_LINES_COUNT g.val + 16) maxCount ∧
      (n + 1 = channelLines → t.rd F.MOW_STAT_SCRUB_LINE g.val = 0) ∧ (n + 1 < channelLines → t.rd F.MOW_STAT_SCRUB_LINE g.val = n + 1)) ∧
  (∀ (g : Fin 16) (bad : List Nat) (l k : Nat), (s.msys.marked.find? (fun e => e.1.head? == some g.val)).bind (fun e => e.1[1]?) = some l →
    s.mowZeroing g.val = false → ∀ u, (∀ go, (s.mowActivity g.val mowCopy).mowLine g.val 80 [2, g.val, l] go = go u) →
    (List.range 16).find? (fun k => u.patchFree (channelOf (g.val * groupBytes + 512 * l)) k) = some k →
    ∃ t, exec (.linePatch g bad) s = .next t ∧ t.mem.hbm = u.mem.hbm ∧ tget false t.msys.marked [g.val, l] = false ∧
      t.rd F.MOW_PATCH_VALID 0 (patchIdx (channelOf (g.val * groupBytes + 512 * l)) k) = 1 ∧
      t.rd F.MOW_PATCHED_COUNT g.val = min (u.rd F.MOW_PATCHED_COUNT g.val + 1) maxCount) ∧
  (∀ (g : Fin 16) (errs : List SecErr) (second : List Nat) (l : Nat), l = s.rd F.MOW_STAT_P g.val → s.mowRotating g.val = true → l < groupLines →
    s.mowZeroing g.val = false → s.mowCopying g.val = false → s.mowDemanded g.val = false → ∀ u, (∀ go, s.mowLine g.val 80 [3, g.val, l] go = go u) →
    ∃ t, exec (.rekeyLine g errs second) s = .next t ∧ t.mem.hbm = u.mem.hbm ∧ t.rd F.MOW_STAT_P g.val = l + 1 ∧
      t.rd F.MOW_LINES_COUNT g.val = min (u.rd F.MOW_LINES_COUNT g.val + 1) maxCount) ∧
  (∀ h : Hdr, s.goes h opKeyRotate (firstStatus [failIf (h.fn.val == 0 && s.tdiLocked (paddockOf h)) 0x720,
      failIf (s.pdkState (paddockOf h) = pdkFree || s.pdkState (paddockOf h) = pdkHandover || s.pdkState (paddockOf h) = pdkOffline) 0x711,
      failIf (s.mowRotating (paddockOf h)) 0x710]) → ∃ t, exec (.keyRotate h) s = .next t ∧ t.mem = s.mem ∧
    t.rd F.MOW_STAT_ROTATING (paddockOf h) = 1 ∧ t.rd F.MOW_STAT_P (paddockOf h) = 0 ∧ t.rd F.MOW_STAT_ACTIVITY (paddockOf h) = mowRekey ∧
    tget 0 t.msys.keyIds [paddockOf h] = tget 0 s.msys.keyIds [paddockOf h] + 1) ∧
  (∀ g : Fin 16, s.mowRotating g.val = true → s.rd F.MOW_STAT_P g.val = groupLines → s.rd F.MOW_STAT_ACTIVE_SLOT g.val < 2 →
    ∃ t, exec (.rekeyComplete g) s = .next t ∧ t.mem = s.mem ∧ t.rd F.MOW_STAT_ACTIVE_SLOT g.val = 1 - s.rd F.MOW_STAT_ACTIVE_SLOT g.val ∧
      t.rd (keyIdFld (s.rd F.MOW_STAT_ACTIVE_SLOT g.val)) g.val = 0 ∧ t.rd F.MOW_STAT_ROTATING g.val = 0 ∧
      t.rd F.MOW_ROTATIONS_COUNT g.val = min (s.rd F.MOW_ROTATIONS_COUNT g.val + 1) maxCount) ∧
  (∀ g : Fin 16, s.rd F.MOW_STAT_P g.val ≠ groupLines → exec (.rekeyComplete g) s = .next s) ∧
  (∀ (h : Hdr) (ch tline sector check : Nat) (data : List Byte), s.goes h opMemRawWrite (rawStatus s ch tline sector) →
    ∃ t, exec (.memRawWrite h ch tline sector check data) s = .next t ∧ t.mem = s.mem ∧
      t.rawSector ch tline sector = ((data ++ List.replicate 64 0).take 64, check % 2 ^ 32)) ∧
  (∀ (h : Hdr) (ch tline sector out : Nat), s.goes h opMemRawRead (firstStatus [rawStatus s ch tline sector, failIf (out % 16 != 0) 0x291,
      failIf (ptrTag out != 1) 0x401, s.ptrStatus h.fn.val 0 out 144 true]) →
    s.untranslated h [⟨out, 144, true⟩] ∨ s.translated h [⟨out, 144, true⟩] →
    ∀ x, s.rawSector ch tline sector = x → exec (.memRawRead h ch tline sector out) s =
      .next ((((s.begun h opMemRawRead (.memRawRead h ch tline sector out) [⟨out, 144, true⟩]).tick).ptrWrite h.fn.val 0 out (rawRecord x.1 x.2)).complete h 0
        ((sectorOutcome x.1 x.2).1 * 2 ^ 16 + (sectorOutcome x.1 x.2).2 * 2 ^ 24)))

/-- Far requests go out by slots, and a far link is lost, returns or is given up. Rests on 15_far_tier.md R441, 15_far_tier.md R443, 15_far_tier.md R444, 15_far_tier.md R446, 15_far_tier.md R448. -/
def Obligations.FarPorts : Prop :=
  ∀ (s : State) (port : Fin 2),
  (∀ (slot : Fin 64) (write : Bool) (l : Line), slot.val ≠ 0 → s.rd F.FAR_PSTATUS_STATE port.val = 1 →
    (s.farCandidate port.val (nth (s.farInForce port.val).1 slot.val) write = some l →
      ∃ t, exec (.farRequestIssue port slot write) s = .next t ∧ t = s.farSend port.val l ∧ t.mem = s.mem ∧ t.regs = s.regs) ∧
    (s.farCandidate port.val (nth (s.farInForce port.val).1 slot.val) write = none → (s.farInForce port.val).2 = true →
      exec (.farRequestIssue port slot write) s = .next s) ∧
    (s.farCandidate port.val (nth (s.farInForce port.val).1 slot.val) write = none → (s.farInForce port.val).2 = false →
      (List.range 16).findSome? (fun k => s.farCandidate port.val ((tget 0 s.msys.farLast [port.val, b2n write] + k) % 16) write) = some l →
      ∃ t, exec (.farRequestIssue port slot write) s = .next t ∧ t.net = (s.farSend port.val l).net ∧ t.out = (s.farSend port.val l).out ∧
        tget 0 t.msys.farLast [port.val, b2n write] = l.pdk + 1 ∧ t.mem = s.mem)) ∧
  (∀ write : Bool, s.rd F.FAR_PSTATUS_STATE port.val ≠ 1 → ∃ t, exec (.farRequestIssue port 0 write) s = .next t ∧
    t.farInForce port.val = s.farTable port.val ∧ t.mem = s.mem ∧ t.regs = s.regs ∧ t.net = s.net) ∧
  (∃ t, exec (.cxlLinkReplay port) s = .next t ∧ t.rd F.FAR_RETRY_COUNT port.val = min (s.rd F.FAR_RETRY_COUNT port.val + 1) maxCount ∧ t.mem = s.mem) ∧
  (s.rd F.FAR_PSTATUS_STATE port.val ≠ 1 → exec (.farLinkLoss port) s = .next s) ∧
  (s.rd F.FAR_PSTATUS_STATE port.val = 1 → ∃ t, exec (.farLinkLoss port) s = .next t ∧ t.rd F.FAR_PSTATUS_STATE port.val = 2 ∧
    t.rd F.FAR_DOWN_EVT_COUNT port.val = min (s.rd F.FAR_DOWN_EVT_COUNT port.val + 1) maxCount ∧ tget 0 t.msys.farSince [port.val] = s.now) ∧
  (s.rd F.FAR_PSTATUS_STATE port.val = 2 →
    (∃ t, exec (.farLinkReturn port) s = .next t ∧ t.rd F.FAR_PSTATUS_STATE port.val = 1 ∧ hasBit (t.rd F.CLK_STAT_LOCK 0) 7 = true ∧ t.mem = s.mem) ∧
    (∃ t, exec (.farRetrainExhausted port) s = .next t ∧ t.rd F.FAR_PSTATUS_STATE port.val = 3 ∧ t.rd F.FAR_PSTATUS_SPEED port.val = 0 ∧
      t.rd F.FAR_PSTATUS_WIDTH port.val = 0 ∧ OnlyRegs s t [F.FAR_PSTATUS_STATE, F.FAR_PSTATUS_SPEED, F.FAR_PSTATUS_WIDTH])) ∧
  (s.rd F.FAR_PSTATUS_STATE port.val ≠ 2 → exec (.farLinkReturn port) s = .next s ∧ exec (.farRetrainExhausted port) s = .next s) ∧
  (∃ t, exec (.expanderMediaEvent port) s = .next t ∧ t.rd F.FAR_MEDIA_EVT_COUNT port.val = min (s.rd F.FAR_MEDIA_EVT_COUNT port.val + 1) maxCount ∧
    OnlyRegs s t [F.FAR_MEDIA_EVT_COUNT, ovfOf F.FAR_MEDIA_EVT_COUNT])

/-- A flit time sends one flit of the port's slot, and a flit received passes its check or raises a NAK. Rests on 18_pod_link.md R520, 18_pod_link.md R530, 18_pod_link.md R531, 18_pod_link.md R535, 18_pod_link.md R545. -/
def Obligations.LinkFlits : Prop :=
  ∀ (s : State) (port : Fin 12),
  (s.flitsOn port.val = false → exec (.flitSend port) s = .next s) ∧
  (s.flitsOn port.val = true → (s.portOf port.val).slot < 64 → ∃ t, exec (.flitSend port) s = .next t ∧
    (t.portOf port.val).slot = ((s.portOf port.val).slot + 1) % 64) ∧
  (∀ x, s.portOf port.val = x → s.flitsOn port.val = true → x.slot ≠ 0 → x.resume = false → x.flits % 16384 ≠ 0 → x.replay = [] →
    ∀ u, u = s.setPort port.val { x with slot := (x.slot + 1) % 64, flits := x.flits + 1 } →
    ((u.rd F.PLK_STATE_ENCRYPTED port.val = 1 ∧ keyLimit ≤ x.txFlits) ∨ u.pickFlit port.val x.slot = none) →
    ∃ t, exec (.flitSend port) s = .next t ∧ t.mem = s.mem ∧ t.rd F.PLK_FILL_COUNT port.val = min (s.rd F.PLK_FILL_COUNT port.val + 1) maxCount ∧
      ∃ w, t.out = s.out ++ [.link port.val "flit" w]) ∧
  (∀ (header check : Word64) (payload : List Byte) (uncorr : Nat) (spoiled : Bool) (corr : List (Fin 9 × Nat)),
    s.portState port.val ≠ portIdleCode →
    (s.flitsOn port.val = false → exec (.flitReceive port header payload check uncorr spoiled corr) s = .next s) ∧
    (s.flitsOn port.val = true → (s.portOf port.val).nak = false → uncorr = 0 → corr = [] →
      (spoiled = false → s.checkPasses port.val header.toNat payload check.toNat = true →
        exec (.flitReceive port header payload check uncorr spoiled corr) s = .next (s.flitPasses port.val header.toNat payload)) ∧
      (spoiled = true ∨ s.checkPasses port.val header.toNat payload check.toNat = false → s.rd F.PLK_STATE_ENCRYPTED port.val = 0 →
        ∃ t, exec (.flitReceive port header payload check uncorr spoiled corr) s = .next t ∧ t.mem = s.mem ∧ t.out = s.out ∧
          (t.portOf port.val).nak = true ∧ (t.portOf port.val).nakId = ((s.portOf port.val).nakId + 1) % 4 ∧
          t.rd F.PLK_CHECK_FAIL_COUNT port.val = min (s.rd F.PLK_CHECK_FAIL_COUNT port.val + 1) maxCount))) ∧
  ((s.portOf port.val).nak = true → 4096 ≤ (s.portOf port.val).nakWait → ∃ t, exec (.replayWaitTimeout port) s = .next t ∧ t.mem = s.mem ∧ t.regs = s.regs ∧
    (t.portOf port.val).nakWait = 0 ∧ (t.portOf port.val).nakId = ((s.portOf port.val).nakId + 1) % 4 ∧
    ∀ q, q ≠ port.val → t.portOf q = s.portOf q) ∧
  (((s.portOf port.val).nak = false ∨ (s.portOf port.val).nakWait < 4096) → exec (.replayWaitTimeout port) s = .next s)

/-- Lanes fail, ports retrain, and a port that goes down trains again. Rests on 18_pod_link.md R537, 18_pod_link.md R538, 18_pod_link.md R539, 18_pod_link.md R541, 18_pod_link.md R550, 18_pod_link.md R551, 18_pod_link.md R552. -/
def Obligations.LinkLanesAndDown : Prop :=
  ∀ (s : State) (port : Fin 12),
  (∀ lane : Fin 9, (s.laneFailed port.val lane.val = true ∨ s.portState port.val = portDown ∨ s.portState port.val = portFailed →
      exec (.laneFail port lane) s = .next s) ∧
    (s.laneFailed port.val lane.val = false → s.portState port.val = portSecuring → s.logicalOf port.val lane.val = noLane → s.activeLanes port.val ≠ [] →
      ∃ t, exec (.laneFail port lane) s = .next t ∧ t = (s.laneOff port.val lane.val).laneEvent port.val lane.val ∧
        t.laneFailed port.val lane.val = true ∧ t.logicalOf port.val lane.val = noLane ∧ t.mem = s.mem) ∧
    (s.laneFailed port.val lane.val = false → s.portState port.val = portActiveCode → s.logicalOf port.val lane.val < noLane → s.spareOf port.val = some 8 →
      lane.val ≠ 8 → s.logicalOf port.val 8 = noLane → ∃ t, exec (.laneFail port lane) s = .next t ∧ t.portState port.val = portRetraining ∧
        t.laneFailed port.val lane.val = true ∧ t.logicalOf port.val 8 = s.logicalOf port.val lane.val ∧
        t.rd F.PLK_DEGRADE_COUNT port.val = min (s.rd F.PLK_DEGRADE_COUNT port.val + 1) maxCount)) ∧
  (∀ (errors k : Nat), s.spareOf port.val = some k → (s.portState port.val = portActiveCode →
      exec (.spareLaneTestFail port errors) s = .next ((if errors = 0 then s else s.bump F.PLK_LANE_ERR_COUNT port.val k errors).failLane port.val k)) ∧
    (s.portState port.val ≠ portActiveCode → exec (.spareLaneTestFail port errors) s = .next s)) ∧
  (∀ mask : Nat, (s.portState port.val = portActiveCode ∨ s.portState port.val = portRetraining →
      (∀ i ∈ s.activeLanes port.val, hasBit mask i = true) →
      exec (.retrainSequenceReceive port mask) s = .next (s.setPort port.val { s.portOf port.val with goodAt := s.now })) ∧
    (s.portState port.val ≠ portActiveCode → s.portState port.val ≠ portRetraining → exec (.retrainSequenceReceive port mask) s = .next s)) ∧
  (∀ count : Nat, s.portState port.val = portRetraining → s.now ≤ (s.portOf port.val).since + 2000 → ∃ t, exec (.retrainResume port count) s = .next t ∧
    t.portState port.val = portActiveCode ∧ (t.portOf port.val).replay = (s.portOf port.val).retry.map (fun y => y.seq) ∧
    (t.portOf port.val).resume = true ∧ t.mem = s.mem) ∧
  (∀ part : Fin 3, (s.portState port.val = portRetraining → (s.portOf port.val).since + nth [200, 1500, 2000] part.val < s.now →
      exec (.retrainDeadlineMiss port part) s = .next (s.goDown port.val 2)) ∧
    (s.now ≤ (s.portOf port.val).since + nth [200, 1500, 2000] part.val → exec (.retrainDeadlineMiss port part) s = .next s)) ∧
  ((s.portState port.val = portSecuring ∨ s.portState port.val = portActiveCode ∨ s.portState port.val = portRetraining) →
    ((s.portOf port.val).goodAt + 10000 ≤ s.now → exec (.peerLostTimeout port) s = .next (s.goDown port.val 2)) ∧
    (s.now < (s.portOf port.val).goodAt + 10000 → exec (.peerLostTimeout port) s = .next s)) ∧
  (∀ (reasons : List Nat) (r : Nat), [2, 3, 4, 5].find? (fun r => reasons.contains r) = some r → s.portState port.val ≠ portDown → s.portState port.val ≠ portFailed →
    ∃ t, exec (.portDown port reasons) s = .next t ∧ t.portState port.val = portTraining ∧ t.rd F.PLK_STATE_REASON port.val = r ∧
      t.rd F.PLK_DOWN_COUNT port.val = min (s.rd F.PLK_DOWN_COUNT port.val + 1) maxCount ∧ (t.portOf port.val).step = 1)

/-- Training goes through its steps in time, and is abandoned and begun again, three times at most. Rests on 18_pod_link.md R512, 18_pod_link.md R514, 18_pod_link.md R515, 18_pod_link.md R523. -/
def Obligations.LinkTraining : Prop :=
  ∀ (s : State) (port : Fin 12),
  (∀ (started : Nat) (lanes : List (Fin 9)) (x : Port) (since : Nat) (v : State), s.portOf port.val = x →
    (s.portState port.val = portTraining ∨ s.portState port.val = portSecuring) → x.step ≠ 0 →
    since = (if x.step = 1 then max started x.since else x.since) → since ≤ s.now → s.now ≤ since + stepDeadline x.step →
    v = (if x.step ≤ 2 then lanes.foldl (fun s i => s.wr F.PLK_LANE_FAILED port.val 1 i.val) s else s) →
    ((∀ i < 9, v.laneFailed port.val i = true) → exec (.trainingStepEnd port started lanes) s = .next (v.abandonTraining port.val false)) ∧
    ((∃ i < 9, v.laneFailed port.val i = false) →
      (x.step ≤ 2 → ∃ t, exec (.trainingStepEnd port started lanes) s = .next t ∧ (t.portOf port.val).step = x.step + 1 ∧ (t.portOf port.val).since = since ∧
        t.regs = v.regs ∧ t.mem = s.mem) ∧
      (x.step = 3 → ∃ t, exec (.trainingStepEnd port started lanes) s = .next t ∧ (t.portOf port.val).step = 4 ∧ t.mem = s.mem) ∧
      (x.step = 4 → s.rd F.PLK_STATE_PEER_VALID port.val = 1 →
        (s.rd F.PLK_CFG_ENCRYPT_REQUIRED port.val = 1 ∨ x.peerEncrypt = true → ∃ t, exec (.trainingStepEnd port started lanes) s = .next t ∧
          t.portState port.val = portSecuring ∧ (t.portOf port.val).step = 5) ∧
        (s.rd F.PLK_CFG_ENCRYPT_REQUIRED port.val ≠ 1 → x.peerEncrypt = false → ∃ t, exec (.trainingStepEnd port started lanes) s = .next t ∧
          t.portState port.val = portActiveCode ∧ (t.portOf port.val).step = 0)) ∧
      (x.step = 5 → ∃ t, exec (.trainingStepEnd port started lanes) s = .next t ∧ t.portState port.val = portActiveCode ∧
        t.rd F.PLK_STATE_ENCRYPTED port.val = 1))) ∧
  (∀ (started : Nat) (authFailed : Bool) (x : Port), s.portOf port.val = x → (s.portState port.val = portTraining ∨ s.portState port.val = portSecuring) → 1 < x.step →
    x.since + stepDeadline x.step < s.now → (x.step = 5 → authFailed = false) →
    (x.tries < 2 → ∃ t, exec (.trainingAbandon port started authFailed) s = .next t ∧ t.portState port.val = portTraining ∧ (t.portOf port.val).tries = x.tries + 1) ∧
    (2 ≤ x.tries → ∃ t, exec (.trainingAbandon port started authFailed) s = .next t ∧ t.portState port.val = portFailed ∧ t.rd F.PLK_STATE_REASON port.val = 6)) ∧
  (∀ (started : Nat) (x : Port), s.portOf port.val = x → (s.portState port.val = portTraining ∨ s.portState port.val = portSecuring) → x.step = 5 → 2 ≤ x.tries →
    ∃ t, exec (.trainingAbandon port started true) s = .next t ∧ t.portState port.val = portFailed ∧ t.rd F.PLK_STATE_REASON port.val = 4) ∧
  (∀ (m : Msg) (u : State), s.takeVl7 port.val m 0x40 = some u → ∃ t, exec (.capsReceive port m) s = .next t ∧ t.rd F.PLK_STATE_PEER_VALID port.val = 1 ∧
    (t.portOf port.val).digest = (m.data.drop 6).take 24 ∧ (t.portOf port.val).peerEncrypt = hasBit (fieldAt m.data 3 1) 0 ∧ t.mem = u.mem) ∧
  (∀ (m : Msg) (u : State), s.takeVl7 port.val m 0x41 = some u → ∃ t, exec (.spdmFragmentReceive port m) s = .next t ∧ t.regs = u.regs ∧ t.mem = u.mem ∧
    (t.portOf port.val).spdm = (if hasBit (fieldAt m.data 0 1) 0 then [] else (u.portOf port.val).spdm) ++ (m.data.drop 6).take (fieldAt m.data 2 2))

/-- Idle, rekeying and the timebase's messages. Rests on 18_pod_link.md R543, 18_pod_link.md R544, 18_pod_link.md R546, 18_pod_link.md R547, 18_pod_link.md R548, 18_pod_link.md R549, 18_pod_link.md R555. -/
def Obligations.LinkKeysAndTime : Prop :=
  ∀ (s : State) (port : Fin 12),
  (∀ (m : Msg) (u : State), s.takeVl7 port.val m 0x43 = some u →
    (u.portState port.val ≠ portActiveCode → exec (.idleMessageReceive port m) s = .next u) ∧
    (u.portState port.val = portActiveCode → hasBit (fieldAt m.data 0 1) 0 = true →
      exec (.idleMessageReceive port m) s = .next (u.post (some port.val) 16 7 none (vl7 0x43 (leBytes 2 1)))) ∧
    (u.portState port.val = portActiveCode → hasBit (fieldAt m.data 0 1) 0 = false → hasBit (fieldAt m.data 0 1) 1 = true → (u.portOf port.val).idle = 1 →
      ∃ t, exec (.idleMessageReceive port m) s = .next t ∧ t.portState port.val = portIdleCode ∧ (t.portOf port.val).idle = 0)) ∧
  (∀ (m : Msg) (u : State), s.takeVl7 port.val m 0x44 = some u →
    (u.rd F.PLK_STATE_ENCRYPTED port.val = 0 → exec (.keyReadyReceive port m) s = .next u) ∧
    (u.rd F.PLK_STATE_ENCRYPTED port.val = 1 → fieldAt m.data 0 1 % 2 ≠ u.rd F.PLK_STATE_KEY_TX port.val → ∃ t, exec (.keyReadyReceive port m) s = .next t ∧
      t.rd F.PLK_STATE_KEY_TX port.val = fieldAt m.data 0 1 % 2 ∧ (t.portOf port.val).txFlits = 0 ∧ t.rd F.PLK_KEY_TX_MFLITS port.val = 0)) ∧
  (s.portActive port.val = true → s.rd F.PLK_STATE_ENCRYPTED port.val = 1 → (2 ^ 39 ≤ (s.portOf port.val).txFlits ∨ 2 ^ 39 ≤ (s.portOf port.val).rxFlits) →
    (∃ t, exec (.rekeyDue port) s = .next t ∧ (t.portOf port.val).rekeying = true ∧ t.regs = s.regs ∧ t.mem = s.mem)) ∧
  ((s.portOf port.val).txFlits < 2 ^ 39 → (s.portOf port.val).rxFlits < 2 ^ 39 → exec (.rekeyDue port) s = .next s) ∧
  (s.portActive port.val = false → exec (.timeMessageSend port) s = .next s) ∧
  (s.portActive port.val = true → ∃ t, exec (.timeMessageSend port) s = .next t ∧ t.regs = s.regs ∧ t.mem = s.mem ∧
    (t.portOf port.val).timeSeq = ((s.portOf port.val).timeSeq + 1) % 2 ^ 32) ∧
  (∀ (m : Msg) (tRx : Nat) (u : State), s.takeVl7 port.val m 0x42 = some u →
    ((u.setPort port.val { u.portOf port.val with echo := (fieldAt m.data 6 8, tRx), peerLocked := hasBit (fieldAt m.data 0 1) 0 }).followed ≠ some port.val ∨
      fieldAt m.data 14 8 = 0 → exec (.timeMessageReceive port m tRx) s =
        .next (u.setPort port.val { u.portOf port.val with echo := (fieldAt m.data 6 8, tRx), peerLocked := hasBit (fieldAt m.data 0 1) 0 })) ∧
    ((u.setPort port.val { u.portOf port.val with echo := (fieldAt m.data 6 8, tRx), peerLocked := hasBit (fieldAt m.data 0 1) 0 }).followed = some port.val →
      fieldAt m.data 14 8 ≠ 0 →
      ∀ delay offset : Int, delay = (((tRx : Int) - fieldAt m.data 14 8) - ((fieldAt m.data 6 8 : Int) - fieldAt m.data 22 8)) * 1000 / 2 →
        offset = ((tRx : Int) - fieldAt m.data 6 8) * 1000 - delay - signedAt (u.rd F.PLK_CFG_ASYM_PS port.val) 16 →
      ∃ t, exec (.timeMessageReceive port m tRx) s = .next t ∧ t.rd F.PLK_DELAY_DELAY_PS port.val = unsignedOf delay 32 ∧
        t.rd F.PLK_TIME_OFFSET_PS 0 = unsignedOf offset 32 ∧ (t.portOf port.val).echo = (fieldAt m.data 6 8, tRx) ∧ t.mem = u.mem ∧
        ((2000 ≤ offset ∨ offset ≤ -2000) → (t.portOf port.val).goodTimes = 0))) ∧
  (s.rd F.PLK_TIME_MASTER 0 = 1 ∨ s.rd F.PLK_TIME_LOCKED 0 = 0 → exec .timeUnlock s = .next s) ∧
  (s.rd F.PLK_TIME_MASTER 0 = 0 → s.rd F.PLK_TIME_LOCKED 0 = 1 → 12 ≤ s.rd F.PLK_TIME_UPSTREAM 0 → 12 ≤ s.rd F.PLK_TIME_BACKUP 0 →
    ∃ t, exec .timeUnlock s = .next t ∧ t.rd F.PLK_TIME_LOCKED 0 = 0 ∧ t.rd F.PLK_TIME_HOPS 0 = 15 ∧ t.mem = s.mem ∧
      t.rd F.PLK_TIME_EVT_COUNT 0 = min (s.rd F.PLK_TIME_EVT_COUNT 0 + 1) maxCount)

/-- Commands to ports: up, down, idle, rekey, time, lanes, encryption, wake, slots and margins. Rests on 18_pod_link.md R553, 18_pod_link.md R554, 18_pod_link.md R555, 18_pod_link.md R557, 20_trust_and_tenancy.md R619. -/
def Obligations.PortControl : Prop :=
  ∀ (s : State) (h : Hdr) (port : Nat),
  (s.portGoes h port false ((s.portState port != portDown && s.portState port != portFailed) || s.rd F.RTP_DEV_KILLED 0 == 1) →
    ∃ t, exec (.portUp h port) s = .next t ∧ t = (s.portStart h (.portUp h port)).startTraining port 0 ∧ t.portState port = portTraining ∧
      (t.portOf port).step = 1 ∧ t.mem = s.mem) ∧
  (s.portGoes h port false (s.portState port == portDown) → exec (.portDownCommand h port) s =
    .next (((s.portStart h (.portDownCommand h port)).goDown port 1).portEnd h port)) ∧
  (s.portGoes h port false (s.portState port != portActiveCode || (List.range 64).any (fun k => decide (s.slotOwner port k < 16))) →
    ∃ t, exec (.portIdle h port) s = .next t ∧ (t.portOf port).idle = 1 ∧ t.mem = s.mem) ∧
  (s.portGoes h port false (s.portState port != portActiveCode || s.rd F.PLK_STATE_ENCRYPTED port == 0) →
    ∃ t, exec (.portRekey h port) s = .next t ∧ (t.portOf port).rekeying = true ∧ t.mem = s.mem) ∧
  (∀ lane : Nat, s.portGoes h port (decide (8 < lane)) (s.portState port != portActiveCode) → ∀ u, u = (s.portStart h (.portRetireLane h port lane)).failLane port lane →
    exec (.portRetireLane h port lane) s = .next (if u.portState port = portActiveCode then u.portEnd h port else u)) ∧
  (∀ arg : Nat, s.portGoes h port (decide (1 < arg)) false → ∃ t, exec (.portEncrypt h port arg) s = .next t ∧
    t.rd F.PLK_CFG_ENCRYPT_REQUIRED port = arg ∧ t.mem = s.mem) ∧
  (s.portGoes h port false (s.portState port != portIdleCode) → ∃ t, exec (.portWake h port) s = .next t ∧ t.portState port = portActiveCode ∧ t.mem = s.mem) ∧
  (s.goes h opPortControl 0 →
    (∃ t, exec (.portTime h 0xFF 3) s = .next t ∧ t.rd F.PLK_TIME_MASTER 0 = 1 ∧ t.rd F.PLK_TIME_LOCKED 0 = 1 ∧ t.rd F.PLK_TIME_HOPS 0 = 0 ∧ t.mem = s.mem) ∧
    (s.rd F.PLK_TIME_MASTER 0 = 1 → ∃ t, exec (.portTime h 0xFF 0) s = .next t ∧ t.rd F.PLK_TIME_MASTER 0 = 0 ∧ t.rd F.PLK_TIME_LOCKED 0 = 0) ∧
    (∀ arg : Nat, port < 12 → arg < 3 → exec (.portTime h port arg) s = .next (((s.portStart h (.portTime h port arg)).setTimeRole port arg).portEnd h port))) ∧
  (∀ (flags transit : Nat) (slots creds : List Nat), hasBit flags 1 = true → hasBit flags 2 = true → flags ≤ 7 → port ≤ 11 → transit ≤ 4032 →
    slots.length = 64 → creds.length = 80 → (∀ c ∈ creds, c ≤ 255) → (∀ o ∈ slots, o ≤ 16 ∨ o = 31) → 2 ≤ (slots.filter (· == 16)).length →
    64 + transit + 8 * creds.foldl (· + ·) 0 ≤ 4096 → s.portReserves port ≤ transit → s.goes h opTdmWrite 0 →
    ∃ t, exec (.tdmWrite h port flags transit slots creds) s = .next t ∧ (∀ k < 80, t.rd F.PLK_CRED_CRED port k = nth creds k) ∧
      t.rd F.PLK_TRANSIT_TRANSIT port = transit ∧
      (s.flitsOn port = true → (∀ k, t.slotOwner port k = s.slotOwner port k) ∧ (t.portOf port).newSlots = some (slots, b2n (hasBit flags 0))) ∧
      (s.flitsOn port = false → ∀ k < 64, t.slotOwner port k = nth slots k)) ∧
  (∀ lane kind dwell lo hi out : Nat, s.goes h opLinkMargin
      (firstStatus [failIf (decide (11 < port) || decide (8 < lane) || decide (1 < kind) || decide (dwell < 20) || decide (40 < dwell) ||
          decide (signedAt hi 16 < signedAt lo 16) || decide (signedAt lo 16 < -linkMarginRange kind) || decide (linkMarginRange kind < signedAt hi 16) || out % 16 != 0) 0x803,
        failIf (ptrTag out != 1) 0x401,
        failIf (!((s.portState port == portActiveCode && s.spareOf port == some lane) || (s.portState port == portIdleCode && !s.laneFailed port lane))) 0x390,
        s.ptrStatus h.fn.val 0 out (16 * (signedAt hi 16 - signedAt lo 16 + 1).toNat) true]) →
    s.untranslated h [⟨out, 16 * (signedAt hi 16 - signedAt lo 16 + 1).toNat, true⟩] ∨
      s.translated h [⟨out, 16 * (signedAt hi 16 - signedAt lo 16 + 1).toNat, true⟩] →
    exec (.linkMargin h port lane kind dwell lo hi out) s = .next (s.begun h opLinkMargin (.linkMargin h port lane kind dwell lo hi out)
      [⟨out, 16 * (signedAt hi 16 - signedAt lo 16 + 1).toNat, true⟩])) ∧
  (∀ (h' : Hdr) (lane kind dwell lo hi out : Nat) (points : List (Nat × Bool)), s.runningCmd h = some (.linkMargin h' port lane kind dwell lo hi out) →
    ∃ (bs : List Byte) (r : Nat), exec (.linkMarginComplete h points) s = .next ((s.ptrWrite h.fn.val 0 out bs).complete h 0 r) ∧
      bs.length = 16 * (signedAt hi 16 - signedAt lo 16 + 1).toNat)

/-- FETCH, PAGE_FETCH, RECV, WRITE and PUSH issue their transfers, or abort the run. Rests on 19_pods_routes_and_collectives.md R562, 19_pods_routes_and_collectives.md R568, 19_pods_routes_and_collectives.md R574, 19_pods_routes_and_collectives.md R575, 19_pods_routes_and_collectives.md R576, 19_pods_routes_and_collectives.md R577, 19_pods_routes_and_collectives.md R578, 19_pods_routes_and_collectives.md R580. -/
def Obligations.MoverInstructions : Prop :=
  ∀ (s : State) (a : At) (r : Run) (ws : List Nat) (u : State) (x : Ctx) (n : Nat), s.issued a r ws = u → s.ctxOf a r ws = x → mN (nth ws 0) = n →
  (∀ errs : List ShelfErr, u.rowPoison x.c (mPtrRow (nth ws 0)) = true →
    (s.issues opcFetch a r ws → exec (.fetch a) s = .next (u.abort x.p 0x510)) ∧ (s.issues opcPageFetch a r ws → exec (.pageFetch a) s = .next (u.abort x.p 0x510)) ∧
    (s.issues opcRecv a r ws → exec (.recv a) s = .next (u.abort x.p 0x510)) ∧ (s.issues opcPush a r ws → exec (.push a errs) s = .next (u.abort x.p 0x510)) ∧
    (s.issues opcWrite a r ws → exec (.writeMover a errs) s = .next (u.abort x.p 0x510))) ∧
  (∀ ptr, s.issues opcFetch a r ws → u.moverPtr x = some ptr →
    (u.checkRunPtr x.p ptr (512 * n) false ≠ 0 → exec (.fetch a) s = .next (u.abort x.p (u.checkRunPtr x.p ptr (512 * n) false))) ∧
    (∀ (dest : Option Dest) (v : State) (rows : List Nat), u.checkRunPtr x.p ptr (512 * n) false = 0 →
      ((ptrTag ptr ≠ 3 ∧ dest = none) ∨ (ptrTag ptr = 3 ∧ ∃ d, dest = some d ∧ u.rankDest x.p (ptrRank ptr) (mB x.w) true = .ok d)) →
      u.claimRows x.c (rowField (mRows x.w)) n = .ok (v, rows) → ∃ t, exec (.fetch a) s = .next t ∧ t.mem = v.mem ∧
        t.sched = (v.addOp x.c x.side x.st x.pos (mDone x.w) (rowField (mRows x.w)).drawer (.fetch ⟨ptr, rows, [], 0, none, false, dest⟩)).sched ∧
        t.net.nextLine = v.net.nextLine + (linePieces (ptrAddr ptr) (512 * n)).length) ∧
    (∀ st, u.checkRunPtr x.p ptr (512 * n) false = 0 → ptrTag ptr = 3 → u.rankDest x.p (ptrRank ptr) (mB x.w) true = .error st →
      exec (.fetch a) s = .next (u.abort x.p st))) ∧
  (∀ e, s.issues opcPageFetch a r ws → u.moverPtr { x with j := 0 } = some e →
    (∀ st, u.rankDest x.p (bitsAt e 58 6) (mB x.w) true = .error st → exec (.pageFetch a) s = .next (u.abort x.p st)) ∧
    (∀ (d : Dest) (v : State) (rows : List Nat), u.rankDest x.p (bitsAt e 58 6) (mB x.w) true = .ok d → u.claimRows x.c (rowField (mRows x.w)) 64 = .ok (v, rows) →
      ∃ t, exec (.pageFetch a) s = .next t ∧ t.mem = v.mem ∧
        t.sched = (v.addOp x.c x.side x.st x.pos (mDone x.w) (rowField (mRows x.w)).drawer (.fetch ⟨3 * 2 ^ 62, rows, [], 0, some e, false, some d⟩)).sched ∧
        t.net.nextLine = v.net.nextLine + 1)) ∧
  (∀ (errs : List ShelfErr) (ptr : Nat), s.issues opcWrite a r ws → u.moverPtr x = some ptr →
    (u.checkRunPtr x.p ptr (512 * n) true ≠ 0 → exec (.writeMover a errs) s = .next (u.abort x.p (u.checkRunPtr x.p ptr (512 * n) true))) ∧
    (u.checkRunPtr x.p ptr (512 * n) true = 0 →
      (ptrTag ptr ≠ 3 → exec (.writeMover a errs) s =
        .next (u.startOut x ptr n ((List.range n).foldl (fun a k => a + (rowPieces ptr k).length) 0) [] errs)) ∧
      (∀ d, ptrTag ptr = 3 → u.rankDest x.p (ptrRank ptr) (mB x.w) false = .ok d → exec (.writeMover a errs) s = .next (u.startOut x ptr n n [d] errs)))) ∧
  (∀ (errs : List ShelfErr) (mask : Nat), s.issues opcPush a r ws → u.moverPtr { x with j := 0 } = some mask →
    (∀ ds, u.rankDests x.p 0 false (ranksOf mask) = .ok ds → exec (.push a errs) s = .next (u.startOut x mask n (n * ds.length) ds errs)) ∧
    (∀ st, u.rankDests x.p 0 false (ranksOf mask) = .error st → exec (.push a errs) s = .next (u.abort x.p st))) ∧
  (∀ (ptr acks : Nat) (dests : List Dest) (errs : List ShelfErr), (u.startOut x ptr n acks dests errs).mem = u.mem ∧ (u.startOut x ptr n acks dests errs).regs = u.regs ∧
    tget 0 (u.startOut x ptr n acks dests errs).sched.busy [x.c, x.st] = u.opTick x.c + n) ∧
  (∀ mask, s.issues opcRecv a r ws → u.moverPtr { x with j := 0 } = some mask →
    ((ranksOf mask).any (fun r => u.rd F.RTE_RANK_VALID x.p r == 0) = true → exec (.recv a) s = .next (u.abort x.p 0x825)) ∧
    ((ranksOf mask).any (fun r => u.rd F.RTE_RANK_VALID x.p r == 0) = false →
      (popBits mask 64 = 0 ∨ (mMode x.w ≠ 2 ∧ popBits mask 64 ≠ 1) ∨ (mMode x.w = 2 ∧ 512 < n * popBits mask 64) →
        exec (.recv a) s = .next (u.abort x.p 0x3A2)) ∧
      (¬ (popBits mask 64 = 0 ∨ (mMode x.w ≠ 2 ∧ popBits mask 64 ≠ 1) ∨ (mMode x.w = 2 ∧ 512 < n * popBits mask 64)) →
        ∀ (v : State) (rows : List Nat), u.claimRows x.c (rowField (mRows x.w)) n = .ok (v, rows) →
        exec (.recv a) s = .next ((v.addOp x.c x.side x.st x.pos (mDone x.w) (rowField (mRows x.w)).drawer
          (.recv ⟨mA x.w, mask, mB x.w, mMode x.w, n, rows, [], [], 0, 0⟩)).matchEarly x.c))))

/-- Messages of paddocks are admitted and take their effect, or are discarded; transit messages are forwarded. Rests on 19_pods_routes_and_collectives.md R564, 19_pods_routes_and_collectives.md R565, 19_pods_routes_and_collectives.md R569, 19_pods_routes_and_collectives.md R573, 19_pods_routes_and_collectives.md R576, 19_pods_routes_and_collectives.md R578, 19_pods_routes_and_collectives.md R579, 19_pods_routes_and_collectives.md R582, 19_pods_routes_and_collectives.md R583, 19_pods_routes_and_collectives.md R584. -/
def Obligations.PaddockMessages : Prop :=
  ∀ (s : State) (port : Option (Fin 12)) (m : Msg),
  (∀ cmd k, (cmd, k) ∈ [(Instr.writeMessageReceive port m, 1), (.pushMessageReceive port m, 2), (.readReqReceive port m, 4), (.readDataReceive port m, 6),
      (.stopReceive port m, 0x10)] → (s.takeMsg port m k = none → exec cmd s = .next s) ∧
    ∀ t st, s.takeMsg port m k = some t → t.admitRank m = .error st → exec cmd s = .next (t.discardMsg m st)) ∧
  (∀ rank t v, t.ucharge m.dstPdk 16 = v → s.admits port m 1 rank t → ∀ st, st = firstStatus [failIf (m.target % 64 != 0 || m.data.length % 64 != 0) 0x290,
      failIf (decide (localEnd < m.target + m.data.length)) 0x400, v.resourceStatus m.dstPdk (ptrAddr m.target)] →
    (st ≠ 0 → exec (.writeMessageReceive port m) s = .next (v.ackMsg m st)) ∧
    (st = 0 → exec (.writeMessageReceive port m) s =
      .next (((v.ucharge m.dstPdk 40).ptrWrite (vfOf m.dstPdk) m.dstPdk (ptrAddr m.target) m.data).ackMsg m 0 0 1))) ∧
  (∀ rank t v, t.ucharge m.dstPdk 16 = v → s.admits port m 2 rank t → ∀ c, 8 * m.dstPdk + bitsAt m.target 0 3 = c →
    (∀ u, v.offerPush rank m = some u → exec (.pushMessageReceive port m) s = .next u) ∧
    (v.offerPush rank m = none → (v.earlyOf c).length < 256 → exec (.pushMessageReceive port m) s = .next (v.setEarly c (v.earlyOf c ++ [⟨rank, m, v.now⟩]))) ∧
    (v.offerPush rank m = none → 256 ≤ (v.earlyOf c).length → exec (.pushMessageReceive port m) s = .next (v.discardMsg m 0x826))) ∧
  (∀ rank t v, t.ucharge m.dstPdk 16 = v → s.admits port m 4 rank t → ∀ st, st = firstStatus [failIf (decide (localEnd < (reqPiece (ptrAddr m.target) m.n).1 +
      (reqPiece (ptrAddr m.target) m.n).2) || decide (2 ^ 48 ≤ m.target)) 0x400, v.resourceStatus m.dstPdk (ptrAddr m.target)] →
    (st ≠ 0 → exec (.readReqReceive port m) s = .next (v.ackMsg m st)) ∧
    (st = 0 → ∃ u, exec (.readReqReceive port m) s = .next u ∧ u.mem = v.mem ∧ u.net.nextJob = v.net.nextJob + 1 ∧ u.net.nextLine = v.net.nextLine + (m.n + 1))) ∧
  (∀ rank t v, t.ucharge m.dstPdk 16 = v → s.admits port m 6 rank t →
    (v.findOp m.xid = none → exec (.readDataReceive port m) s = .next v) ∧
    (∀ o f, v.findOp m.xid = some o → corePdk o.core = m.dstPdk → o.kind = .fetch f →
      (f.page.isSome = true → exec (.readDataReceive port m) s = .next (v.fetchPart o.id (512 * m.k) (padRow m.data) (hasBit m.flags 0))) ∧
      (f.page.isSome = false → ∀ off len, (linePieces (ptrAddr f.ptr) (512 * f.rows.length))[m.k]? = some (off, len) →
        ∀ l, v.net.lines.find? (fun l => l.use == .fetch o.id (off / 512) (off % 512)) = some l →
        exec (.readDataReceive port m) s = .next ((v.dropLine l).fetchPart o.id off (m.data.take len) (hasBit m.flags 0))))) ∧
  (64 ≤ (s.net.jobs.filter (fun j => j.pdk == m.dstPdk && j.msg.kind == 5)).length → exec (.pageReqReceive port m) s = .next s) ∧
  (∀ rank t v, t.ucharge m.dstPdk 16 = v → s.admits port m 5 rank t → (s.net.jobs.filter (fun j => j.pdk == m.dstPdk && j.msg.kind == 5)).length < 64 →
    (v.rd F.RTE_PCFG_PSERVER_EN m.dstPdk = 0 ∨ v.role m.dstPdk ≠ 2 → exec (.pageReqReceive port m) s = .next (v.ackMsg m 0x82A)) ∧
    (v.rd F.RTE_PCFG_PSERVER_EN m.dstPdk ≠ 0 → v.role m.dstPdk = 2 → ∀ c w d e, bitsAt m.target 42 16 = c →
      w = (if v.inQuota m.dstPdk c then (v.useDesc m.dstPdk c).latchUse m.dstPdk c else v) → d = w.desc m.dstPdk c →
      e = w.leaf m.dstPdk d (bitsAt m.target 30 12 * dHeads d + bitsAt m.target 22 8) (bitsAt m.target 0 22) →
      (w.inQuota m.dstPdk c = false ∨ dValid d = false ∨ dLayers d ≤ bitsAt m.target 30 12 ∨ dHeads d ≤ bitsAt m.target 22 8 ∨
        (eValid e = false ∧ eDropped e = false) → exec (.pageReqReceive port m) s = .next (w.ackMsg m 0x828)) ∧
      (w.inQuota m.dstPdk c = true → dValid d = true → bitsAt m.target 30 12 < dLayers d → bitsAt m.target 22 8 < dHeads d → eValid e = true →
        ∃ u, exec (.pageReqReceive port m) s = .next u ∧ u.mem = w.mem ∧ u.net.nextJob = w.net.nextJob + 1 ∧ u.net.nextLine = w.net.nextLine + 64))) ∧
  (∀ rank t v, t.ucharge m.dstPdk 16 = v → isMirrorXid m.xid = false → s.admits port m 7 rank t →
    (v.findOp m.xid = none → exec (.ackReceive port m) s = .next v) ∧
    (∀ o, v.findOp m.xid = some o → corePdk o.core = m.dstPdk →
      (∀ f, o.kind = .outb f → exec (.ackReceive port m) s = .next (v.outAck o.id (bitsAt m.target 0 16))) ∧
      (∀ f, o.kind = .fetch f → exec (.ackReceive port m) s = .next (v.fetchAck o.id (bitsAt m.target 0 16) (bitsAt m.target 32 32))) ∧
      (∀ f, o.kind = .append f → exec (.ackReceive port m) s = .next (v.appendAck o.id (bitsAt m.target 0 16))))) ∧
  (∀ t, isMirrorXid m.xid = true → s.takeMsg port m 7 = some t → t.rd F.RTE_PCFG_PEER_DEV m.dstPdk = m.srcDev → isError (bitsAt m.target 0 16) = false →
    exec (.ackReceive port m) s = .next (t.mirrorAcked m.dstPdk m.xid)) ∧
  (∀ rank t v, t.ucharge m.dstPdk 16 = v → s.admits port m 0x10 rank t →
    exec (.stopReceive port m) s = .next ((v.bump F.RTE_P_STOP_RX_COUNT m.dstPdk).abortWith m.dstPdk 0x827 false)) ∧
  (∀ c : Fin 128, (s.earlyOf c.val = [] → exec (.earlyArrivalTimeout c) s = .next s) ∧
    ∀ e l, s.earlyOf c.val = e :: l →
      (s.now ≤ e.since + 1000 * s.rd F.SCH_PCTL_WAIT_DEFAULT_US (corePdk c.val) → exec (.earlyArrivalTimeout c) s = .next s) ∧
      (e.since + 1000 * s.rd F.SCH_PCTL_WAIT_DEFAULT_US (corePdk c.val) < s.now → exec (.earlyArrivalTimeout c) s = .next ((s.setEarly c.val l).discardMsg e.msg 0x826))) ∧
  (∀ (c : Fin 128) (x : Option Op), s.sched.ops.find? (fun o => o.core == c.val && (match o.kind with
      | .recv r => decide (r.n ≤ r.committed)
      | _ => false)) = x → exec (.receiveComplete c) s = .next (x.elim s s.completeOp)) ∧
  (∀ (q : Fin 12) (vl : Fin 8), (m.dstDev = s.devId ∨ s.portActive q.val = false ∨ vl.val = 0 ∨ vl.val = 7 → exec (.transitForward q vl m) s = .next s) ∧
    (m.dstDev ≠ s.devId → s.portActive q.val = true →
      (∀ z, 1 ≤ vl.val → vl.val ≤ 5 → s.rd F.RTE_DEST_FORWARD 0 m.dstDev = 1 → s.onehop m.dstDev = some z →
        (4096 < s.uwin (rsvTransit (z / 6)) + 16 → exec (.transitForward q vl m) s = .next s) ∧
        (s.uwin (rsvTransit (z / 6)) + 16 ≤ 4096 → ∃ t, exec (.transitForward q vl m) s = .next t ∧ t.mem = s.mem ∧
          t.net.tx = s.net.tx ++ [⟨z, 16, 6, m, msgFlits m, none⟩] ∧ t.rd F.RTE_TRANSIT_FWD_COUNT 0 = min (s.rd F.RTE_TRANSIT_FWD_COUNT 0 + 1) maxCount)) ∧
      (vl.val = 6 ∨ (1 ≤ vl.val ∧ vl.val ≤ 5 ∧ s.onehop m.dstDev = none) → ∃ t, exec (.transitForward q vl m) s = .next t ∧ t.mem = s.mem ∧
        t.rd F.RTE_TRANSIT_DROP_COUNT 0 = min (s.rd F.RTE_TRANSIT_DROP_COUNT 0 + 1) maxCount)))

/-- Routes and ranks are replaced in one clock, and a drain waits for the transfers that resolved the old ranks. Rests on 19_pods_routes_and_collectives.md R561, 19_pods_routes_and_collectives.md R566, 19_pods_routes_and_collectives.md R567, 19_pods_routes_and_collectives.md R570, 19_pods_routes_and_collectives.md R582, 19_pods_routes_and_collectives.md R589. -/
def Obligations.RoutesAndRanks : Prop :=
  ∀ (s : State) (h : Hdr),
  (∀ (dev flags npaths transit : Nat) (paths : List (Nat × Nat × Nat)), dev ≤ 63 → dev ≠ s.devId → flags ≤ 3 → 1 ≤ npaths → npaths ≤ 4 → paths.length = npaths → transit ≤ 4095 →
    (∀ x ∈ paths, x.1 ≤ 11 ∧ (x.2.1 = 1 ∨ x.2.1 = 2) ∧ x.2.2 ≤ 63 ∧ (hasBit flags 1 = true → x.2.1 = 1)) →
    ((∀ q < 12, (s.putDest dev flags npaths transit paths).portReserves q ≤ s.rd F.PLK_TRANSIT_TRANSIT q ∨ (s.putDest dev flags npaths transit paths).portReserves q = 0) →
      s.goes h opRouteWrite 0 → ∃ t, exec (.routeWrite h dev flags npaths transit paths) s = .next t ∧
        t = ((s.start h opRouteWrite (some (.routeWrite h dev flags npaths transit paths))).putDest dev flags npaths transit paths).complete h 0 ∧
        t.rd F.RTE_DEST_VALID 0 dev = flags % 2 ∧ t.rd F.RTE_DEST_FORWARD 0 dev = flags / 2 ∧ t.rd F.RTE_DEST_NPATHS_M1 0 dev = npaths - 1 ∧
        t.rd F.RTE_DEST_TRANSIT_FLITS 0 dev = transit ∧ t.sched = s.sched) ∧
    (∀ q < 12, s.rd F.PLK_TRANSIT_TRANSIT q < (s.putDest dev flags npaths transit paths).portReserves q → s.deaf h = false → s.rd F.HIF_FATAL_FATAL 0 = 0 →
      s.trust.recovery = false → s.callStatus h opRouteWrite = 0 → exec (.routeWrite h dev flags npaths transit paths) s = .next (s.complete h 0x820))) ∧
  (∀ (first count flags self epoch : Nat) (entries : List Nat), first ≤ 63 → count ≤ 56 → first + count ≤ 64 → flags ≤ 3 → self ≤ 63 → epoch ≤ 65535 →
    entries.length = count → (∀ e ∈ entries, rankEntryOk e = true) →
    ((∃ e ∈ entries, rankValid e = true ∧ rankDev e = s.devId ∧ s.sameGroup (h.pdk % 16) (rankPdk e) = false) → s.deaf h = false → s.rd F.HIF_FATAL_FATAL 0 = 0 →
      s.trust.recovery = false → s.callStatus h opRankWrite = 0 → exec (.rankWrite h first count flags self epoch entries) s = .next (s.complete h 0x3A0)) ∧
    ((∀ e ∈ entries, rankValid e = true → rankDev e = s.devId → s.sameGroup (h.pdk % 16) (rankPdk e) = true) → s.goes h opRankWrite 0 →
      ∃ u : State, exec (.rankWrite h first count flags self epoch entries) s = .next (if hasBit flags 0 then u else u.complete h 0) ∧
        (∀ k < count, u.rd F.RTE_RANK_VALID (h.pdk % 16) (first + k) = bitsAt (nth entries k) 63 1 ∧
          u.rd F.RTE_RANK_DEV (h.pdk % 16) (first + k) = rankDev (nth entries k) ∧
          u.rd F.RTE_RANK_PADDOCK (h.pdk % 16) (first + k) = rankPdk (nth entries k) ∧
          u.rd F.RTE_RANK_EPOCH (h.pdk % 16) (first + k) = bitsAt (nth entries k) 32 16) ∧
        (∀ k, (k < first ∨ first + count ≤ k) → u.rd F.RTE_RANK_VALID (h.pdk % 16) k = s.rd F.RTE_RANK_VALID (h.pdk % 16) k ∧
          u.rd F.RTE_RANK_DEV (h.pdk % 16) k = s.rd F.RTE_RANK_DEV (h.pdk % 16) k) ∧
        (hasBit flags 1 = true → u.rd F.RTE_PCFG_RANK_SELF (h.pdk % 16) = self ∧ u.rd F.RTE_PCFG_SELF_EPOCH (h.pdk % 16) = epoch) ∧
        u.mem = s.mem ∧ u.sched = s.sched)) ∧
  (∀ (h' : Hdr) (first count flags self epoch : Nat) (entries : List Nat) (p f n next users : Nat),
    s.runningCmd h = some (.rankWrite h' first count flags self epoch entries) → s.progOf h = [p, f, n, next, users] →
    (0 < s.rankUsers p next f n → exec (.rankWriteDrainDone h) s = .next s) ∧
    (s.rankUsers p next f n = 0 → (∀ i < 8, ∀ e ∈ s.earlyOf (8 * p + i), e.rank < f ∨ f + n ≤ e.rank) →
      exec (.rankWriteDrainDone h) s = .next (s.complete h 0 (users % 2 ^ 16 * 2 ^ 16)))) ∧
  (∀ en : Nat, s.goes h opPageServerSet (failIf (decide (1 < en)) 0x2C0) → ∃ t, exec (.pageServerSet h en) s = .next t ∧
    t = ((s.start h opPageServerSet (some (.pageServerSet h en))).wr F.RTE_PCFG_PSERVER_EN (paddockOf h) en).complete h 0 ∧
    t.rd F.RTE_PCFG_PSERVER_EN (paddockOf h) = en)

/-- Mirror pairs are set, carry writes and beats, fail over and break. Rests on 19_pods_routes_and_collectives.md R585, 19_pods_routes_and_collectives.md R586, 19_pods_routes_and_collectives.md R587, 19_pods_routes_and_collectives.md R588, 19_pods_routes_and_collectives.md R589. -/
def Obligations.MirrorPairs : Prop :=
  ∀ s : State,
  (∀ (h : Hdr) (peer ports part fence : Nat), peer ≤ 63 → peer ≠ s.devId → ports < 2 ^ 12 → part < 2 ^ 32 → fence < 2 ^ 16 → (∀ p < 16, bitsAt part (2 * p) 2 ≠ 3) →
    (∀ p < 16, bitsAt part (2 * p) 2 ≠ 0 → s.tdiLocked p = false ∧ s.pdkState p ≠ pdkFree ∧ s.pdkState p ≠ pdkHandover ∧ s.pdkState p ≠ pdkOffline) →
    ((∀ p < 16, bitsAt part (2 * p) 2 = 0) ∨ (ports ≠ 0 ∧ ∀ q < 12, hasBit ports q = true → (s.usablePaths peer).any (fun x => x.1 == q && !x.2) = true)) →
    s.goes h opMirrorSet 0 → ∃ u : State, exec (.mirrorSet h peer ports part fence) s = .next (u.complete h 0) ∧ u.mem = s.mem ∧ u.sched = s.sched ∧
      u.net.mirrorPorts = ports ∧ ∀ p < 16, u.rd F.RTE_PCFG_PART p = bitsAt part (2 * p) 2 ∧ u.rd F.RTE_PCFG_FENCE_ON_BREAK p = bitsAt fence p 1 ∧
        (bitsAt part (2 * p) 2 ≠ 0 → u.rd F.RTE_PCFG_PEER_DEV p = peer) ∧ (bitsAt part (2 * p) 2 = 0 → u.rd F.RTE_PCFG_PEER_DEV p = s.rd F.RTE_PCFG_PEER_DEV p)) ∧
  (∀ (port : Fin 12) (m : Msg),
    (s.takeMsg (some port) m 8 = none → exec (.mirrorReceive port m) s = .next s) ∧
    (∀ t, s.takeMsg (some port) m 8 = some t →
      (t.pdkState m.dstPdk = pdkHandover → exec (.mirrorReceive port m) s = .next (t.discardMsg m 0x82B)) ∧
      (t.pdkState m.dstPdk ≠ pdkHandover → (t.rd F.RTE_PCFG_PART m.dstPdk ≠ 2 ∨ t.rd F.RTE_PCFG_PEER_DEV m.dstPdk ≠ m.srcDev ∨ m.srcPdk ≠ m.dstPdk) →
        exec (.mirrorReceive port m) s = .next (t.discardMsg m 0x823)) ∧
      (t.pdkState m.dstPdk ≠ pdkHandover → t.rd F.RTE_PCFG_PART m.dstPdk = 2 → t.rd F.RTE_PCFG_PEER_DEV m.dstPdk = m.srcDev → m.srcPdk = m.dstPdk →
        (hasBit m.flags 0 = false → exec (.mirrorReceive port m) s = .next (((t.ucharge m.dstPdk 16).hbmWrite m.dstPdk m.target m.data).ackMsg m 0)) ∧
        (∀ q fpa, hasBit m.flags 0 = true → (t.ucharge m.dstPdk 16).farMap m.dstPdk m.target = some (q, fpa) →
          exec (.mirrorReceive port m) s = .next (((t.ucharge m.dstPdk 16).farWrite m.dstPdk (farAddr q fpa) m.data).ackMsg m 0)))) ∧
    (∀ t, s.takeMsg (some port) m 9 = some t → t.rd F.RTE_PCFG_PART m.dstPdk = 2 → t.rd F.RTE_PCFG_PEER_DEV m.dstPdk = m.srcDev →
      ∃ u, exec (.mirrorBeatReceive port m) s = .next u ∧ tget 0 u.net.beatAt [m.dstPdk] = t.now ∧ u.mem = t.mem ∧ u.regs = t.regs) ∧
    (∀ t, s.takeMsg (some port) m 9 = some t → t.rd F.RTE_PCFG_PART m.dstPdk ≠ 2 → exec (.mirrorBeatReceive port m) s = .next t)) ∧
  (∀ p : Fin 16, (s.rd F.RTE_PCFG_PART p.val ≠ 1 → exec (.mirrorBeatSend p) s = .next s ∧ exec (.mirrorBroken p) s = .next s) ∧
    (s.rd F.RTE_PCFG_PART p.val ≠ 2 → exec (.mirrorFailover p) s = .next s) ∧
    (∀ q, s.rd F.RTE_PCFG_PART p.val = 1 → s.mirrorPort = some q → ∃ (t : State) (m : Msg), exec (.mirrorBeatSend p) s = .next t ∧
      t.net.tx = s.net.tx ++ [⟨q, p.val, 1, m, msgFlits m, none⟩] ∧ m.kind = 9 ∧ m.dstDev = s.rd F.RTE_PCFG_PEER_DEV p.val ∧ m.dstPdk = p.val ∧
      m.aux = tget 0 s.net.mirrorSent [p.val] ∧ t.mem = s.mem ∧ t.regs = s.regs) ∧
    (s.rd F.RTE_PCFG_PART p.val = 2 → (s.mirrorPort = none ∨ tget 0 s.net.beatAt [p.val] + 5000000 ≤ s.now) → ∃ t, exec (.mirrorFailover p) s = .next t ∧
      t = (s.wr F.RTE_PCFG_PART p.val 0).eventBoth p.val 0x48 0 (detailAt 0x10 (s.rd F.RTE_PCFG_PEER_DEV p.val)) ∧ t.rd F.RTE_PCFG_PART p.val = 0 ∧ t.mem = s.mem) ∧
    (s.mirrorPort ≠ none → s.now < tget 0 s.net.beatAt [p.val] + 5000000 → exec (.mirrorFailover p) s = .next s) ∧
    (s.rd F.RTE_PCFG_PART p.val = 1 → (s.mirrorPort = none ∨ s.mirrorWaits p.val = true) →
      ∀ u, u = (if s.rd F.RTE_PCFG_FENCE_ON_BREAK p.val = 1 then ((s.abortScope1 p.val).1).quiesce p.val else s) → ∃ v, exec (.mirrorBroken p) s =
        .next ((v.wr F.RTE_PCFG_PART p.val 0).eventBoth p.val 0x49 0 (detailAt 0x10 (v.rd F.RTE_PCFG_PEER_DEV p.val))) ∧
        v = (u.net.mirror.filter (fun x => x.1 == p.val)).foldl (fun s x => s.mirrorAcked x.1 x.2) u))

/-- SPDM requests are answered, sessions open and close, and reports are sent and counted. Rests on 20_trust_and_tenancy.md R598, 20_trust_and_tenancy.md R599, 20_trust_and_tenancy.md R600, 20_trust_and_tenancy.md R601, 20_trust_and_tenancy.md R602, 20_trust_and_tenancy.md R603, 20_trust_and_tenancy.md R604. -/
def Obligations.SessionsAndReports : Prop :=
  ∀ (s : State) (c : Chan),
  (s.rotUp c.transport.val = false → (∀ r, exec (.spdmRequest c r) s = .next s) ∧ (∀ n, exec (.getMeasurements c n) s = .next s) ∧
    (∀ sc n, exec (.getReport c sc n) s = .next s) ∧ exec (.endSession c) s = .next s) ∧
  (s.rotUp c.transport.val = true →
    (∀ r, fieldAt r 1 1 ≠ 0x84 → fieldAt r 0 1 ≠ 0x12 → fieldAt r 0 1 ≠ 0x13 → exec (.spdmRequest c r) s = .next (s.answer c "ERROR VersionMismatch" [] [])) ∧
    (∀ r, (fieldAt r 1 1 = 0x84 ∨ fieldAt r 0 1 = 0x12 ∨ fieldAt r 0 1 = 0x13) →
      (fieldAt r 1 1 ∈ spdmUnsupported → exec (.spdmRequest c r) s = .next (s.answer c "ERROR UnsupportedRequest" [fieldAt r 1 1] [])) ∧
      (fieldAt r 1 1 ∉ spdmUnsupported → ∃ (t : State) (bs : List Byte), exec (.spdmRequest c r) s = .next t ∧
        t.out = s.out ++ [.reply c.transport.val "SPDM_RESPONSE" [fieldAt r 1 1] bs] ∧ t.free = s.free + 1 ∧ t.regs = s.regs ∧ t.mem = s.mem)) ∧
    (∀ nonce, ∃ (t : State) (sig : List Byte), exec (.getMeasurements c nonce) s = .next t ∧ sig.length = 96 ∧ t.regs = s.regs ∧ t.mem = s.mem ∧
      t.out = s.out ++ [.reply c.transport.val "MEASUREMENTS" [7] (s.deviceEntries.flatMap spdmBlock ++ sig)])) ∧
  (s.established c = false → exec (.sessionHeartbeatMissed c) s = .next s) ∧
  (s.established c = true → ∃ t, exec (.sessionHeartbeatMissed c) s = .next t ∧ t = s.closeSession c.transport.val c.slot.val ∧
    (s.boundOf c = none → t.established c = false ∧ t.rd F.RTP_SESS_END_COUNT 0 = min (s.rd F.RTP_SESS_END_COUNT 0 + 1) maxCount ∧ t.mem = s.mem)) ∧
  (∀ (tr : Fin 3) (port : Fin 12), tr.val ≠ 2 → s.rotUp tr.val = true →
    (∀ k, (List.range (if tr.val = 0 then 18 else 2)).find? (fun k => (s.sessionOf tr.val k).isNone) = some k → ∃ t, exec (.keyExchange tr port) s = .next t ∧
      t.sessionOf tr.val k = some ⟨none⟩ ∧ t.rd F.RTP_SESS_EST_COUNT 0 = min (s.rd F.RTP_SESS_EST_COUNT 0 + 1) maxCount ∧
      t.out = s.out ++ [.reply tr.val "KEY_EXCHANGE_RSP" [k] []] ∧ t.mem = s.mem) ∧
    ((∀ k < (if tr.val = 0 then 18 else 2), s.sessionOf tr.val k ≠ none) → exec (.keyExchange tr port) s = .next (s.emit (.reply tr.val "ERROR Busy" [] [])))) ∧
  (s.heard c →
    exec (.endSession c) s = .next ((s.closeSession c.transport.val c.slot.val).answer c "END_SESSION_ACK" [] []) ∧
    (∀ nonce, (∀ n, s.boundOf c = some (n + 1) → exec (.getReport c 0xFF nonce) s = .next (s.refuse c)) ∧
      ((s.boundOf c = some 0 ∨ (s.boundOf c = none ∧ c.transport.val = 1)) → exec (.getReport c 0xFF nonce) s =
        .next (s.sendReport c 0xFF false nonce (s.deviceEntries ++ (List.range 16).map (fun p => (16 + p, true, s.paddockEntry p))))) ∧
      (s.boundOf c = none → c.transport.val ≠ 1 → exec (.getReport c 0xFF nonce) s = .next (s.sendReport c 0xFF false nonce s.deviceEntries))) ∧
    (∀ scope nonce, scope ≠ 0xFF → (scope = 0 ∨ 16 < scope) → exec (.getReport c scope nonce) s = .next (s.refuse c)) ∧
    (∀ scope nonce, 1 ≤ scope → scope ≤ 16 → (s.notReady scope = true → exec (.getReport c scope nonce) s = .next (s.answerNotReady c scope)) ∧
      (s.notReady scope = false → ∀ t, ((c.transport.val ≠ 0 ∧ t = s) ∨ (c.transport.val = 0 ∧ s.bindTo c scope = some t)) →
        exec (.getReport c scope nonce) s = .next (t.sendReport c scope true nonce (t.deviceEntries ++ [(15 + scope, true, t.paddockEntry (pdkOf scope))]))) ∧
      (s.notReady scope = false → c.transport.val = 0 → s.bindTo c scope = none → exec (.getReport c scope nonce) s = .next (s.refuse c)))) ∧
  (∀ (scope : Nat) (tdi : Bool) (nonce : List Byte) (es : List (Nat × Bool × List Byte)),
    (s.sendReport c scope tdi nonce es).rd F.RTP_REPORTS_COUNT 0 = min (s.rd F.RTP_REPORTS_COUNT 0 + 1) maxCount ∧ (s.sendReport c scope tdi nonce es).mem = s.mem)

/-- Key sets are programmed, used and retired over the session of their function, and an integrity failure takes a stream's keys. Rests on 20_trust_and_tenancy.md R604, 20_trust_and_tenancy.md R605, 20_trust_and_tenancy.md R611. -/
def Obligations.IdeKeys : Prop :=
  ∀ (s : State) (c : Chan) (index : Fin 18) (sub : Fin 3) (dir set : Fin 2),
  (s.heard c → s.bindTo c (ideFn index.val) = none → (∀ key, exec (.keyProg c index sub dir set key) s = .next (s.refuse c)) ∧
    exec (.kSetGo c index sub dir set) s = .next (s.refuse c) ∧ exec (.kSetStop c index sub dir set) s = .next (s.refuse c)) ∧
  (∀ t, s.heard c → s.bindTo c (ideFn index.val) = some t →
    (t.ideUse index.val sub.val dir.val = set.val + 1 → (∀ key, exec (.keyProg c index sub dir set key) s = .next (t.answer c "KP_ACK" [index.val, 4] [])) ∧
      exec (.kSetStop c index sub dir set) s = .next (t.answer c "K_GOSTOP_ACK" [index.val, 4] [])) ∧
    (t.ideUse index.val sub.val dir.val ≠ set.val + 1 → (∀ key, ∃ u, exec (.keyProg c index sub dir set key) s = .next u ∧
        tget none u.trust.ideKeys (ideKey index.val sub.val dir.val set.val) = some key ∧
        (∀ k, k ≠ ideKey index.val sub.val dir.val set.val → tget none u.trust.ideKeys k = tget none t.trust.ideKeys k) ∧
        u.regs = t.regs ∧ u.mem = t.mem ∧ u.trust.ideSet = t.trust.ideSet ∧ u.out = t.out ++ [.reply c.transport.val "KP_ACK" [index.val, 0] []]) ∧
      ∃ u, exec (.kSetStop c index sub dir set) s = .next u ∧ tget none u.trust.ideKeys (ideKey index.val sub.val dir.val set.val) = none ∧
        u.regs = t.regs ∧ u.mem = t.mem ∧ u.trust.ideSet = t.trust.ideSet ∧ u.out = t.out ++ [.reply c.transport.val "K_GOSTOP_ACK" [index.val, 0] []]) ∧
    (tget none t.trust.ideKeys (ideKey index.val sub.val dir.val set.val) = none →
      exec (.kSetGo c index sub dir set) s = .next (t.answer c "K_GOSTOP_ACK" [index.val, 4] [])) ∧
    (tget none t.trust.ideKeys (ideKey index.val sub.val dir.val set.val) ≠ none → ∃ u, exec (.kSetGo c index sub dir set) s = .next u ∧
      u.ideUse index.val sub.val dir.val = set.val + 1 ∧ u.trust.ideKeys = t.trust.ideKeys ∧ u.mem = t.mem ∧
      u.out = t.out ++ [.reply c.transport.val "K_GOSTOP_ACK" [index.val, 0] []])) ∧
  (∀ fn : Fin 17, (s.ideSecure (fn.val + 1) 0 = false → s.ideSecure (fn.val + 1) 1 = false → exec (.ideIntegrityFail fn) s = .next s) ∧
    ((s.ideSecure (fn.val + 1) 0 = true ∨ s.ideSecure (fn.val + 1) 1 = true) → ∃ t, exec (.ideIntegrityFail fn) s = .next t ∧
      (∀ d, t.ideSecure (fn.val + 1) d = false) ∧
      (fn.val ≠ 0 → t.rd F.RTP_IDE_FAIL_COUNT fn.val = min (s.rd F.RTP_IDE_FAIL_COUNT fn.val + 1) maxCount ∧
        ((s.tdiState fn.val = 1 ∨ s.tdiState fn.val = 2) → t.tdiState fn.val = 3 ∧ t.rd F.RTP_TDI_CAUSE_CAUSE fn.val = 5) ∧
        (s.tdiState fn.val ≠ 1 → s.tdiState fn.val ≠ 2 → t.mem = s.mem ∧ t.out = s.out ∧ t.tdiState fn.val = s.tdiState fn.val))))

/-- A tenant's interface is locked, reported, started and stopped. Rests on 20_trust_and_tenancy.md R606, 20_trust_and_tenancy.md R607, 20_trust_and_tenancy.md R609, 20_trust_and_tenancy.md R610, 20_trust_and_tenancy.md R612, 20_trust_and_tenancy.md R613. -/
def Obligations.TenantInterfaces : Prop :=
  ∀ (s : State) (c : Chan) (p : Fin 16) (n : Nat), n = vfOf p.val → s.heard c →
  (c.transport.val ≠ 0 → ∀ cmd ∈ [Instr.lockInterfaceRequest c p, .getDeviceInterfaceReport c p, .startInterfaceRequest c p [], .stopInterfaceRequest c p],
    exec cmd s = .next (s.refuse c)) ∧
  (c.transport.val = 0 → s.notReady n = true → ∀ cmd ∈ [Instr.lockInterfaceRequest c p, .getDeviceInterfaceReport c p, .startInterfaceRequest c p [],
    .stopInterfaceRequest c p], exec cmd s = .next (s.answerNotReady c n)) ∧
  (∀ t, c.transport.val = 0 → s.notReady n = false → s.bindTo c n = some t →
    (t.lockable n = false → exec (.lockInterfaceRequest c p) s = .next (t.answer c "TDISP_ERROR" [n] [])) ∧
    (t.lockable n = true → ∃ (u : State) (nonce : List Byte), exec (.lockInterfaceRequest c p) s = .next u ∧ u.tdiState n = 1 ∧ u.rd F.RTP_TDI_STATE_CFG_GEN n = 0 ∧
      nonce.length = 32 ∧ tget [] u.trust.nonces [n] = nonce ∧ u.free = t.free + 1 ∧ u.mem = t.mem ∧
      u.out = t.out ++ [.reply c.transport.val "LOCK_INTERFACE_RESPONSE" [n] nonce]) ∧
    (t.tdiLocked p.val = false → exec (.getDeviceInterfaceReport c p) s = .next (t.answer c "TDISP_ERROR" [n] [])) ∧
    (t.tdiLocked p.val = true → exec (.getDeviceInterfaceReport c p) s =
      .next (t.answer c "DEVICE_INTERFACE_REPORT" [n, 1, (t.cfgOf n).bar0, 0x80000] ((List.range 64).flatMap (fun r => t.rankRecord p.val r)))) ∧
    (∀ nonce, (t.tdiState n ≠ 1 ∨ tget [] t.trust.nonces [n] ≠ nonce ∨ nonce = []) →
      exec (.startInterfaceRequest c p nonce) s = .next (t.answer c "TDISP_ERROR" [n] [])) ∧
    (∀ nonce, t.tdiState n = 1 → tget [] t.trust.nonces [n] = nonce → nonce ≠ [] → ∃ u, exec (.startInterfaceRequest c p nonce) s = .next u ∧
      u.tdiState n = 2 ∧ tget [] u.trust.nonces [n] = [] ∧ u.mem = t.mem ∧ u.out = t.out ++ [.reply c.transport.val "START_INTERFACE_RESPONSE" [n] []] ∧
      ∀ (g : Fld) (i j : Nat), g.id ≠ F.RTP_TDI_STATE_STATE.id → u.rd g i j = t.rd g i j) ∧
    (t.tdiState n = 0 → exec (.stopInterfaceRequest c p) s = .next (t.answer c "TDISP_ERROR" [n] [])) ∧
    (∀ u : State, t.tdiState n ≠ 0 → u = { t.vfFlr p.val with trust := { (t.vfFlr p.val).trust with stopping := tset false (t.vfFlr p.val).trust.stopping [n] true } } →
      (u.notReady n = true → exec (.stopInterfaceRequest c p) s = .next u) ∧ (u.notReady n = false → exec (.stopInterfaceRequest c p) s = .next (u.endStop p.val)))) ∧
  (c.transport.val = 0 → s.notReady n = false → s.bindTo c n = none → exec (.lockInterfaceRequest c p) s = .next (s.refuse c))

/-- Images are staged, discarded and activated. Rests on 20_trust_and_tenancy.md R595, 20_trust_and_tenancy.md R615, 20_trust_and_tenancy.md R616, 20_trust_and_tenancy.md R617. -/
def Obligations.Firmware : Prop :=
  ∀ (s : State) (h : Hdr),
  (∀ (image bytes flags : Nat) (data : Fetched), s.rotBusy h opFwStage = false → s.goes h opFwStage (s.fwStageStatus h image bytes flags) →
    (hasBit flags 0 = true → exec (.fwStage h image bytes flags data) s =
      .next (((s.start h opFwStage (some (.fwStage h image bytes flags data))).unstage).complete h 0)) ∧
    (hasBit flags 0 = false → s.untranslated h [⟨image, bytes, false⟩] ∨ s.translated h [⟨image, bytes, false⟩] →
      ∀ u, (s.begun h opFwStage (.fwStage h image bytes flags data) [⟨image, bytes, false⟩]).countRead h.fn.val 0 image bytes = u →
      (data = .hostError ∨ data = .poison → exec (.fwStage h image bytes flags data) s = .next (u.hostFailed h image)) ∧
      (∀ b, data = .ok b →
        (fwLayoutOk b bytes = false → exec (.fwStage h image bytes flags data) s = .next (u.complete h 0x2D0)) ∧
        (fwLayoutOk b bytes = true → Config.verifies useFirmware b = false → exec (.fwStage h image bytes flags data) s = .next (u.complete h 0x721)) ∧
        (fwLayoutOk b bytes = true → Config.verifies useFirmware b = true → fieldAt b 0xC 4 < u.trust.minSvn →
          exec (.fwStage h image bytes flags data) s = .next (u.complete h 0x722)) ∧
        (fwLayoutOk b bytes = true → Config.verifies useFirmware b = true → u.trust.minSvn ≤ fieldAt b 0xC 4 →
          ∃ prog, exec (.fwStage h image bytes flags data) s = .next ((u.unstage).setProg h prog) ∧ prog.length = 6 ∧ nth prog 0 = fieldAt b 0xC 4 ∧
            nth prog 1 = leNat (sha384 b))))) ∧
  (s.unstage.trust.staged = false ∧ s.unstage.rd F.RTP_DEV_UPDATE_STAGED 0 = 0 ∧ s.unstage.rd F.RTP_SVN_STAGED_SVN 0 = 0 ∧ s.unstage.mem = s.mem) ∧
  ((s.executing h opFwStage = false ∨ (s.progOf h).length ≠ 6) → exec (.fwStageComplete h) s = .next s) ∧
  (s.executing h opFwStage = true → (s.progOf h).length = 6 → ∃ t, exec (.fwStageComplete h) s = .next t ∧ t.trust.staged = true ∧
    (t.bankOf s.spareFlash).svn = nth (s.progOf h) 0 ∧ t.rd F.RTP_DEV_UPDATE_STAGED 0 = 1 ∧ t.rd F.RTP_SVN_STAGED_SVN 0 = nth (s.progOf h) 0 % 2 ^ 32 ∧
    t.trust.active = s.trust.active ∧ t.mem = s.mem) ∧
  (∀ flags : Nat, s.rotBusy h opFwActivate = false → s.goes h opFwActivate (s.fwActivateStatus flags) → ∃ t, exec (.fwActivate h flags) s = .next t ∧
    t.trust.active = s.spareFlash ∧ t.trust.staged = false ∧
    (hasBit flags 0 = false → t.trust.minSvn = s.trust.minSvn ∧ t.trust.commitsLeft = s.trust.commitsLeft) ∧
    (hasBit flags 0 = true → s.trust.minSvn < (s.bankOf s.spareFlash).svn → t.trust.minSvn = (s.bankOf s.spareFlash).svn ∧
      t.trust.commitsLeft = s.trust.commitsLeft - 1)) ∧
  (∀ bad : List (Fin 2), (s.executing h opFwActivate = false → exec (.fwActivateRestartDone h bad) s = .next s) ∧
    (s.executing h opFwActivate = true → ∀ u, u = s.boot (bad.map (fun k => k.val)) → ∃ t, exec (.fwActivateRestartDone h bad) s = .next t ∧
      t.trust = u.trust ∧ t.rd F.RTP_SVN_RUN_SVN 0 = u.rd F.RTP_SVN_RUN_SVN 0 ∧ t.rd F.RTP_DEV_RUN_BANK 0 = u.rd F.RTP_DEV_RUN_BANK 0 ∧
      t.rd F.RTP_DEV_FALLBACK 0 = u.rd F.RTP_DEV_FALLBACK 0 ∧ t.mem = s.mem))

/-- A debug challenge is issued, expires, is answered once, and debug opens on a zeroised device. Rests on 20_trust_and_tenancy.md R622, 20_trust_and_tenancy.md R623, 20_trust_and_tenancy.md R624, 20_trust_and_tenancy.md R625. -/
def Obligations.FieldDebug : Prop :=
  ∀ (s : State) (h : Hdr),
  (∀ out : Nat, s.rotBusy h opDebugChallenge = false →
    s.goes h opDebugChallenge (firstStatus [failIf (ptrTag out != 1) 0x401, failIf (out % 64 != 0) 0x201, s.checkPtr h.fn.val 0 out 64 true]) →
    s.untranslated h [⟨out, 64, true⟩] ∨ s.translated h [⟨out, 64, true⟩] → ∃ (t : State) (nonce : List Byte), exec (.debugChallenge h out) s = .next t ∧
    nonce.length = 32 ∧ t.trust.challenge = some (nonce, s.now + 600000000000) ∧ t.rd F.RTP_DBG_CHALLENGE 0 = 1 ∧ t.free = s.free + 1 ∧ t.mem = s.mem) ∧
  (s.trust.challenge = none → exec .debugChallengeExpiry s = .next s) ∧
  (∀ nonce e, s.trust.challenge = some (nonce, e) → (s.now < e → exec .debugChallengeExpiry s = .next s) ∧
    (e ≤ s.now → ∃ t, exec .debugChallengeExpiry s = .next t ∧ t.trust.challenge = none ∧ t.rd F.RTP_DBG_CHALLENGE 0 = 0 ∧ OnlyRegs { s with trust := t.trust } t [F.RTP_DBG_CHALLENGE])) ∧
  (∀ (scope tokenK tokenO ownerKeys : Nat) (k o keys : Fetched), s.rotBusy h opDebugResponse = false →
    s.goes h opDebugResponse (firstStatus [failIf ([tokenK, tokenO, ownerKeys].any (fun x => ptrTag x != 1)) 0x401,
      failIf ([tokenK, tokenO, ownerKeys].any (fun x => x % 64 != 0)) 0x2D1, s.checkPtr h.fn.val 0 tokenK 4800 false,
      s.checkPtr h.fn.val 0 tokenO 4800 false, s.ptrStatus h.fn.val 0 ownerKeys 2689 false]) →
    s.untranslated h [⟨tokenK, 4800, false⟩, ⟨tokenO, 4800, false⟩, ⟨ownerKeys, 2689, false⟩] ∨
      s.translated h [⟨tokenK, 4800, false⟩, ⟨tokenO, 4800, false⟩, ⟨ownerKeys, 2689, false⟩] →
    ∀ u, s.begun h opDebugResponse (.debugResponse h scope tokenK tokenO ownerKeys k o keys)
      [⟨tokenK, 4800, false⟩, ⟨tokenO, 4800, false⟩, ⟨ownerKeys, 2689, false⟩] = u →
    (∀ a b d, k = .ok a → o = .ok b → keys = .ok d →
      (u.debugStatus scope a b d ≠ 0 → exec (.debugResponse h scope tokenK tokenO ownerKeys k o keys) s =
        .next ((u.debugFailed (u.debugStatus scope a b d)).complete h (u.debugStatus scope a b d))) ∧
      (u.debugStatus scope a b d = 0 → ∃ t, exec (.debugResponse h scope tokenK tokenO ownerKeys k o keys) s = .next t ∧ t = u.openDebug scope ∧
        t.trust.debugEpoch = s.trust.debugEpoch + 1 ∧ t.trust.opening = some scope ∧ t.trust.challenge = none)) ∧
    (k = .hostError → exec (.debugResponse h scope tokenK tokenO ownerKeys k o keys) s = .next ((u.debugFailed 0x414).hostFailed h tokenK)) ∧
    (∀ a, k = .ok a → o = .hostError → exec (.debugResponse h scope tokenK tokenO ownerKeys k o keys) s = .next ((u.debugFailed 0x414).hostFailed h tokenO)) ∧
    (∀ a b, k = .ok a → o = .ok b → keys = .hostError →
      exec (.debugResponse h scope tokenK tokenO ownerKeys k o keys) s = .next ((u.debugFailed 0x414).hostFailed h ownerKeys))) ∧
  ((s.trust.opening = none ∨ ∃ p < 16, s.pdkState p ≠ pdkFree) → exec .debugZeroiseDone s = .next s) ∧
  (∀ scope, s.trust.opening = some scope → (∀ p < 16, s.pdkState p = pdkFree) → ∃ t, exec .debugZeroiseDone s = .next t ∧ t.trust.opening = none ∧
    t.regs = s.regs ∧ (∀ p < 16, ∀ a, dpaOf p localEnd ≤ a → a < dpaOf p localEnd + (0x600000000 - localEnd) → mget t.mem.hbm a = memDefault))

/-- Out-of-band requests report health, stop paddocks, kill the module and provision the owner. Rests on 20_trust_and_tenancy.md R604, 20_trust_and_tenancy.md R618, 20_trust_and_tenancy.md R619, 24_module_hardware.md R710. -/
def Obligations.OutOfBand : Prop :=
  ∀ (s : State) (c : Chan),
  (s.heard c → c.transport.val ≠ 1 → exec (.getHealth c) s = .next (s.answer c "ERROR UnsupportedRequest" [] []) ∧
    exec (.moduleKill c) s = .next (s.answer c "ERROR UnsupportedRequest" [] [])) ∧
  (s.heard c → c.transport.val = 1 →
    exec (.getHealth c) s = .next (s.answer c "HEALTH" ([s.devWord] ++ (List.range 16).map (fun p => s.pdkWord p) ++
      [s.rd F.HIF_FATAL_FATAL 0, s.rd F.HIF_FATAL_LAST_CAUSE 0, s.rd F.HIF_FATAL_UNIT 0, s.rd F.HIF_FATAL_TIME_TIME 0]) []) ∧
    (∀ (p : Fin 16) (scope : Fin 2) (q : Bool),
      (s.stoppable p.val = false → exec (.paddockStop c p scope q) s = .next (s.answer c "PADDOCK_STOP" [0x301] [])) ∧
      (s.stoppable p.val = true → ∀ u, u = (if scope.val = 0 then s.abort p.val 0x607 else (s.abortScope1 p.val).1) →
        exec (.paddockStop c p scope q) s = .next ((if q then u.quiesce p.val else u).answer c "PADDOCK_STOP" [0] []))) ∧
    (∃ t, exec (.moduleKill c) s = .next t ∧ t = s.kill.answer c "MODULE_KILL" [0] [] ∧ t.rd F.RTP_DEV_KILLED 0 = 1) ∧
    (∀ value : List Byte, (s.trust.owner = none → value.length = 48 → ∃ t, exec (.ownerProvision c value) s = .next t ∧ t.trust.owner = some value ∧
        t.rd F.RTP_DEV_OWNER_SET 0 = 1 ∧ t.mem = s.mem ∧ t.out = s.out ++ [.reply c.transport.val "OWNER_PROVISION" [0] []]) ∧
      ((s.trust.owner ≠ none ∨ value.length ≠ 48) → exec (.ownerProvision c value) s = .next (s.answer c "OWNER_PROVISION" [1] [])))) ∧
  (∀ (x : Bool) (addr : Fin 128), ((s.pins.pwrgd = false ∨ (1 ≤ s.rd F.RST_STATUS_STAGE 0 ∧ s.rd F.RST_STATUS_STAGE 0 ≤ 4) ∨ s.pins.i3cAddr ≠ none) →
      exec (.i3cDynamicAddress x addr) s = .next s) ∧
    (s.pins.pwrgd = true → (s.rd F.RST_STATUS_STAGE 0 = 0 ∨ 4 < s.rd F.RST_STATUS_STAGE 0) → s.pins.i3cAddr = none →
      ∃ t, exec (.i3cDynamicAddress x addr) s = .next t ∧ t = { s with pins := { s.pins with i3cAddr := some addr.val } }))

/-- Counters are snapshot and read, dumps configured, triggered, gated, captured and written. Rests on 21_counters_and_hang_dumps.md R634, 21_counters_and_hang_dumps.md R635, 21_counters_and_hang_dumps.md R638, 21_counters_and_hang_dumps.md R640, 21_counters_and_hang_dumps.md R642, 21_counters_and_hang_dumps.md R643, 21_counters_and_hang_dumps.md R644, 21_counters_and_hang_dumps.md R645, 21_counters_and_hang_dumps.md R646, 21_counters_and_hang_dumps.md R650. -/
def Obligations.SwardAndCounters : Prop :=
  ∀ s : State,
  (∀ fn : Fin 17, fn.val ≠ 0 → s.barClosed fn.val = true → exec (.cntSnapTake fn) s = .next s) ∧
  (∀ fn : Fin 17, fn.val ≠ 0 → s.barClosed fn.val = false → ∃ t, exec (.cntSnapTake fn) s = .next t ∧ t.rd F.CNT_SNAP_CTL_VALID (pdkOf fn.val) = 1 ∧
    t.rd F.CNT_SNAP_TIME_TIME (pdkOf fn.val) = s.now % 2 ^ 64 ∧ OnlyRegs s t [F.CNT_SNAP_CTL_VALID, F.CNT_SNAP_TIME_TIME, F.CNT_SNAP_TICK_TICK, F.CNT_SNAP_COUNT, F.CNT_SNAP_OVF] ∧
    ∀ k < 32, t.rd F.CNT_SNAP_COUNT (pdkOf fn.val) k = (s.pdkCounter (pdkOf fn.val) k).1 % 2 ^ 48 ∧
      t.rd F.CNT_SNAP_OVF (pdkOf fn.val) k = (s.pdkCounter (pdkOf fn.val) k).2 % 2) ∧
  (∀ fn : Fin 17, fn.val = 0 → ∃ t, exec (.cntSnapTake fn) s = .next t ∧ t.rd F.CNT_DSNAP_CTL_VALID 0 = 1 ∧ t.rd F.CNT_DSNAP_TIME_TIME 0 = s.now % 2 ^ 64 ∧
    OnlyRegs s t [F.CNT_DSNAP_CTL_VALID, F.CNT_DSNAP_TIME_TIME, F.CNT_DSNAP_TICK_TICK, F.CNT_DSNAP_COUNT, F.CNT_DSNAP_OVF] ∧
    ∀ k < 8, t.rd F.CNT_DSNAP_COUNT 0 k = (s.devCounter k).1 % 2 ^ 48 ∧ t.rd F.CNT_DSNAP_OVF 0 k = (s.devCounter k).2 % 2) ∧
  (∀ (h : Hdr) (set out n : Nat), n = (if set = 0 then 320 else 128) → s.goes h opCounterRead
      (firstStatus [failIf (decide (1 < set) || (set == 1 && h.fn.val != 0)) 0x2B0, failIf (ptrTag out != 1) 0x401, failIf (out % 64 != 0) 0x2B0,
        s.checkPtr h.fn.val (paddockOf h) out n true, failIf (h.fn.val == 0 && set == 0 && s.tdiLocked (paddockOf h)) 0x720]) →
    s.untranslated h [⟨out, n, true⟩] ∨ s.translated h [⟨out, n, true⟩] → ∀ u, s.begun h opCounterRead (.counterRead h set out) [⟨out, n, true⟩] = u →
    exec (.counterRead h set out) s = .next ((u.ptrWrite h.fn.val (paddockOf h) out (u.counterBytes (paddockOf h) set)).complete h 0
      ((if set = 0 then 32 else 8) * 2 ^ 16)) ∧ (u.counterBytes (paddockOf h) set).length = n) ∧
  (∀ (h : Hdr) (flags buf bytes : Nat) (rs : List HostRange), rs = (if h.fn.val = 0 then [⟨buf, bytes, true⟩] else []) → s.goes h opDumpConfig
      (firstStatus [failIf (decide (3 < flags) || (hasBit flags 1 && (buf != 0 || bytes != 0))) 0x2B0, failIf (h.fn.val == 0 && s.tdiLocked (paddockOf h)) 0x720,
        failIf (!hasBit flags 1 && !s.bufferOk h.fn.val buf bytes) 0x2B1]) →
    (hasBit flags 1 = true → exec (.dumpConfig h flags buf bytes) s =
      .next (((s.start h opDumpConfig (some (.dumpConfig h flags buf bytes))).clearDumpCfg (paddockOf h)).complete h 0)) ∧
    (hasBit flags 1 = false → s.untranslated h rs ∨ s.translated h rs → exec (.dumpConfig h flags buf bytes) s =
      .next (((s.begun h opDumpConfig (.dumpConfig h flags buf bytes) rs).setDumpCfg (paddockOf h) ⟨buf, bytes, hasBit flags 0, h.fn.val == 0⟩).complete h 0))) ∧
  (∀ (p : Nat) (g : DumpCfg), (s.setDumpCfg p g).dumpCfgOf p = some g ∧ (s.clearDumpCfg p).dumpCfgOf p = none ∧ (s.setDumpCfg p g).rd F.SWD_CFG_VALID p = 1 ∧
    (s.clearDumpCfg p).rd F.SWD_CFG_VALID p = 0) ∧
  (∀ (h : Hdr) (out bytes : Nat) (rs : List HostRange), rs = (if h.fn.val = 0 then [⟨out, bytes, true⟩] else []) → s.goes h opHaltDump
      (firstStatus [failIf (h.fn.val != 0 && (out != 0 || bytes != 0)) 0x2B0, failIf (h.fn.val == 0 && s.tdiLocked (paddockOf h)) 0x720,
        s.dumpStatus (paddockOf h) (h.fn.val == 0 || (s.dumpCfgOf (paddockOf h)).isSome), failIf (h.fn.val == 0 && !s.bufferOk 0 out bytes) 0x2B1]) →
    s.untranslated h rs ∨ s.translated h rs → ∃ (t : State) (d : Dump), exec (.haltDump h out bytes) s = .next t ∧
      t = (s.begun h opHaltDump (.haltDump h out bytes) rs).dumpTrigger (paddockOf h) d ∧ d.h = some h ∧ d.captured = false ∧ d.cuts = [] ∧
      (h.fn.val = 0 → d.byPf = true ∧ d.ptr = out ∧ d.bytes = bytes ∧ d.cause = 1) ∧
      (h.fn.val ≠ 0 → d.cause = 0 ∧ ∀ g, s.dumpCfgOf (paddockOf h) = some g → d.byPf = g.byPf ∧ d.ptr = g.ptr ∧ d.bytes = g.bytes) ∧
      t.rd F.PDK_STATE_DUMPED (paddockOf h) = 1 ∧ t.rd F.SWD_STAT_STATE (paddockOf h) = 1 ∧ t.dumpOf (paddockOf h) = some d ∧ t.mem = s.mem) ∧
  (∀ c : Fin 128, (s.dumpOf (corePdk c.val) = none → exec (.swardCoreGate c) s = .next s) ∧
    ∀ d, s.dumpOf (corePdk c.val) = some d → (d.captured = true ∨ d.cuts.any (fun x => x.core == coreOff c.val) = true → exec (.swardCoreGate c) s = .next s) ∧
      (d.captured = false → d.cuts.any (fun x => x.core == coreOff c.val) = false → ∃ t, exec (.swardCoreGate c) s = .next t ∧ t.mem = s.mem ∧ t.regs = s.regs ∧
        t.dumpOf (corePdk c.val) = some { d with cuts := d.cuts ++ [s.cutOf c.val (d.cuts == [])] } ∧ tget false t.sched.gated [c.val] = true)) ∧
  (∀ p : Fin 16, (s.dumpOf p.val = none → exec (.swardCaptureDone p) s = .next s ∧ ∀ ok, exec (.swardWriteDone p ok) s = .next s) ∧
    ∀ d, s.dumpOf p.val = some d →
      (d.cuts.length < 8 → exec (.swardCaptureDone p) s = .next s) ∧
      (d.captured = false → 8 ≤ d.cuts.length → ∃ t, exec (.swardCaptureDone p) s = .next t ∧ t.pdkState p.val = pdkQuiesced ∧
        t.rd F.SWD_STAT_STATE p.val = 2 ∧ t.rd F.SWD_STAT_TOTAL_BYTES p.val = (s.dumpImage p.val d).length % 2 ^ 32 ∧
        t.dumpOf p.val = some { d with captured := true, image := s.dumpImage p.val d } ∧ ∀ k < 8, t.rd F.CMQ_CFG_EN (vfOf p.val) k = 0) ∧
      (∀ ok, d.captured = true → s.rd F.SWD_STAT_STATE p.val = 2 → ∃ t, exec (.swardWriteDone p ok) s = .next t ∧
        t.rd F.SWD_STAT_STATE p.val = (if ok then 3 else 4) ∧ t.rd F.CNT_D_COUNT 0 2 = min (s.rd F.CNT_D_COUNT 0 2 + 1) maxCount ∧
        t.dumpOf p.val = some { d with h := none }) ∧
      (∀ ok, d.captured = false → exec (.swardWriteDone p ok) s = .next s))

/-- Faults of cores, units and processors mark what failed and stop the paddock, and self-tests run and end. Rests on 22_reliability_and_spares.md R658, 22_reliability_and_spares.md R660, 22_reliability_and_spares.md R662, 22_reliability_and_spares.md R665, 22_reliability_and_spares.md R667. -/
def Obligations.DetectedFaults : Prop :=
  ∀ s : State,
  (s.pins.pwrgd = false → (∀ c, exec (.coreControlFault c) s = .next s) ∧ (∀ p, exec (.paddockUnitFault p) s = .next s) ∧ ∀ k, exec (.heartbeatMissed k) s = .next s) ∧
  (∀ c : Fin 128, s.pins.pwrgd = true → ∃ t, exec (.coreControlFault c) s = .next t ∧ t.rel.badCores = tset false s.rel.badCores [s.phys c.val] true ∧
    t = ((s.markCore (s.phys c.val)).abort (corePdk c.val) 0x541).deviceError 5 false (s.phys c.val) 0 0x541 (corePdk c.val)) ∧
  (∀ p : Fin 16, s.pins.pwrgd = true → exec (.paddockUnitFault p) s = .next ((s.abortScope1 p.val 0x542).1.deviceError 6 false p.val 0 0x542 p.val)) ∧
  (∀ k : Fin 21, s.pins.pwrgd = true →
    (k.val = 20 → exec (.heartbeatMissed k) s = .next (s.enterFatal 0xF05 20)) ∧
    (k.val ≠ 20 → tget false s.rel.badProcs [k.val] = true → exec (.heartbeatMissed k) s = .next s) ∧
    (k.val < 18 → tget false s.rel.badProcs [k.val] = false → ∀ u, u = (s.markProc k.val).syncSpares → ∀ x, (List.range 16).find? (fun p => u.procOf p == k.val) = x →
      exec (.heartbeatMissed k) s = .next (x.elim (u.deviceError 7 false k.val 0 0x540 0xFF) (fun p => u.procStop p k.val))) ∧
    ((k.val = 18 ∨ k.val = 19) → tget false s.rel.badProcs [k.val] = false → ∃ t, exec (.heartbeatMissed k) s = .next t ∧
      ∀ u, u = ((s.markProc k.val).syncSpares).deviceError 7 false k.val 0 0x540 0xFF →
        (tget false s.rel.badProcs [37 - k.val] = true → t = u.enterFatal 0xF06 k.val) ∧ (tget false s.rel.badProcs [37 - k.val] = false → t = u))) ∧
  (∀ (h : Hdr) (kind unit : Nat), s.goes h opSelfTest (firstStatus [failIf (!testUnitOk kind unit) 0x2E0, failIf (s.testBusy kind unit) 0x390]) →
    ∃ t, exec (.selfTest h kind unit) s = .next t ∧ t.rel.tests = s.rel.tests ++ [⟨h, kind, unit, s.now⟩] ∧ t.mem = s.mem ∧ t.sched = s.sched ∧ t.out = s.out) ∧
  (∀ (h : Hdr) (found : List Found) (failing : List Nat) (x : Option Test), s.rel.tests.find? (fun t => t.h.fn == h.fn && t.h.q == h.q && t.h.cid == h.cid) = x →
    (x = none → exec (.selfTestComplete h found failing) s = .next s) ∧
    (∀ y, x = some y → ∀ u r, u = ({ s with rel := { s.rel with tests := removeFirst (· == y) s.rel.tests } } : State).testEnds y.kind y.unit found failing →
      r = testCount y.kind y.unit found failing → exec (.selfTestComplete h found failing) s =
        .next (u.complete y.h 0 (b2n r.2 * 2 ^ 16 + min r.1 0xFFFF * 2 ^ 32 + u.usSince y.since % 2 ^ 32 * 2 ^ 64))))

/-- Fatal causes bring the device into the fatal state, once. Rests on 22_reliability_and_spares.md R668, 22_reliability_and_spares.md R669, 23_clocks_reset_and_power_up.md R675, 24_module_hardware.md R704, 24_module_hardware.md R714. -/
def Obligations.FatalCauses : Prop :=
  ∀ s : State,
  (∀ cause unit, (s.rd F.HIF_FATAL_FATAL 0 = 1 ∨ s.pins.pwrgd = false) → s.enterFatal cause unit = s) ∧
  (∀ cause unit t, s.rd F.HIF_FATAL_FATAL 0 = 0 → s.pins.pwrgd = true → s.enterFatal cause unit = t → t.rd F.HIF_FATAL_FATAL 0 = 1 ∧
    t.rd F.HIF_FATAL_LAST_CAUSE 0 = cause % 2 ^ 16 ∧ t.rd F.HIF_FATAL_UNIT 0 = unit % 2 ^ 16 ∧ t.rd F.HIF_FATAL_TIME_TIME 0 = s.now % 2 ^ 64 ∧
    t.rd F.RST_STATUS_STAGE 0 = 0 ∧ t.pins.alertN = false ∧ t.pins.pwrgd = true ∧ t.rel.tests = []) ∧
  (∀ (cause : Fin 8) (unit : Nat), exec (.deviceFatal cause unit) s = .next (s.enterFatal (0xF01 + cause.val) unit)) ∧
  (∀ clock : Fin 7, (clock.val = 6 → exec (.pllLockLoss clock) s = .next ((s.wr F.CLK_STAT_LOCK 0 0).enterFatal 0xF01 8)) ∧
    (clock.val ≠ 6 → hasBit (s.rd F.CLK_STAT_LOCK 0) clock.val = false → exec (.pllLockLoss clock) s = .next s) ∧
    (clock.val ≠ 6 → hasBit (s.rd F.CLK_STAT_LOCK 0) clock.val = true →
      exec (.pllLockLoss clock) s = .next ((s.setLock clock.val false).enterFatal 0xF01 clock.val))) ∧
  (∀ link : Fin 15, (link.val < 12 → exec (.serdesPllLoss link) s = .next ((s.setLock 7 false).goDown link.val 2)) ∧
    (12 ≤ link.val → link.val < 14 → exec (.serdesPllLoss link) s = .next ((s.setLock 7 false).farLoss (link.val - 12))) ∧
    (link.val = 14 → ∃ t, exec (.serdesPllLoss link) s = .next t ∧ t.rd F.HIF_LINK_SPEED 0 = 0 ∧ t.rd F.HIF_LINK_WIDTH 0 = 0 ∧
      hasBit (t.rd F.CLK_STAT_LOCK 0) 6 = false ∧ t.mem = s.mem)) ∧
  (∀ unit : Fin 9, exec (.regulatorFault unit) s = .next (s.enterFatal 0xF02 unit.val)) ∧
  exec .inputFault s = .next (s.enterFatal 0xF02 0x100) ∧
  (∀ (sensor : Fin 11) (celsius : Nat),
    (sensor.val < 3 → (celsius < 110 → exec (.thermalTrip sensor celsius) s = .next s) ∧
      (110 ≤ celsius → exec (.thermalTrip sensor celsius) s = .next (s.enterFatal 0xF03 sensor.val))) ∧
    (3 ≤ sensor.val → (celsius < 100 → exec (.thermalTrip sensor celsius) s = .next s) ∧
      (100 ≤ celsius → exec (.thermalTrip sensor celsius) s = .next (s.enterFatal 0xF03 (sensor.val + 13)))))

/-- Power-on runs its stages, resets their functions, and power-down cuts everything. Rests on 23_clocks_reset_and_power_up.md R680, 23_clocks_reset_and_power_up.md R681, 23_clocks_reset_and_power_up.md R682, 23_clocks_reset_and_power_up.md R683, 23_clocks_reset_and_power_up.md R684, 23_clocks_reset_and_power_up.md R685, 23_clocks_reset_and_power_up.md R686, 23_clocks_reset_and_power_up.md R687, 23_clocks_reset_and_power_up.md R690, 23_clocks_reset_and_power_up.md R691. -/
def Obligations.PowerAndResets : Prop :=
  ∀ s : State,
  (∀ ms, (s.pins.pwrgd = true ∨ ms < 100) → exec (.modulePowerOn ms) s = .next s) ∧
  (∀ ms, s.pins.pwrgd = false → 100 ≤ ms → ∃ t, exec (.modulePowerOn ms) s = .next t ∧ t.regs = State.reset.regs ∧ t.mem = State.reset.mem ∧ t.sched = State.reset.sched ∧
    t.kv = State.reset.kv ∧ t.taken = [] ∧ t.pins.pwrgd = true ∧ t.rd F.RST_STATUS_STAGE 0 = 1 ∧ t.trust.banks = s.trust.banks ∧ t.trust.minSvn = s.trust.minSvn ∧
    t.trust.debugEpoch = s.trust.debugEpoch ∧ t.trust.owner = s.trust.owner ∧ t.msys.repair = s.msys.repair ∧ t.out = s.out ∧ t.pending = s.pending) ∧
  (∀ (ms : Nat) (found : List Found) (st : Nat), s.rd F.RST_STATUS_STAGE 0 = st →
    ((st = 0 ∨ s.pins.pwrgd = false ∨ s.rd F.HIF_FATAL_FATAL 0 = 1 ∨ (st = 10 ∧ s.noHandover = false)) → exec (.powerOnStageEnd ms found) s = .next s) ∧
    (s.pins.pwrgd = true → s.rd F.HIF_FATAL_FATAL 0 = 0 → ∀ u : State, u = { s with pins := { s.pins with upMs := s.pins.upMs + ms } } →
      ((st = 1 ∨ st = 4 ∨ st = 5) → ∃ t, exec (.powerOnStageEnd ms found) s = .next t ∧ Sets u t F.RST_STATUS_STAGE 0 0 (st + 1)) ∧
      (st = 2 → ∃ t, exec (.powerOnStageEnd ms found) s = .next t ∧ t.rd F.RST_STATUS_STAGE 0 = 3 ∧ t.rd F.CLK_STAT_LOCK 0 = 0xFF ∧ t.mem = s.mem) ∧
      (st = 3 → ∃ v t : State, exec (.powerOnStageEnd ms found) s = .next t ∧ Sets (v.boot (found.filterMap Found.bankOf)) t F.RST_STATUS_STAGE 0 0 4 ∧ v.mem = s.mem ∧ v.regs = s.regs) ∧
      (st = 6 → (u.stageSix found).rd F.HIF_FATAL_FATAL 0 = 0 → exec (.powerOnStageEnd ms found) s = .next ((u.stageSix found).wr F.RST_STATUS_STAGE 0 7)) ∧
      (st = 7 → (u.stageSeven found).rd F.HIF_FATAL_FATAL 0 = 0 → exec (.powerOnStageEnd ms found) s = .next ((u.stageSeven found).wr F.RST_STATUS_STAGE 0 8)) ∧
      (st = 8 → ∃ t, exec (.powerOnStageEnd ms found) s = .next t ∧ t.rd F.RST_STATUS_STAGE 0 = 9 ∧ t.mem = s.mem) ∧
      (st = 9 → ∃ t, exec (.powerOnStageEnd ms found) s = .next t ∧ t.rd F.RST_STATUS_STAGE 0 = 10 ∧ t.mem.hbm = [] ∧ ∀ p < 16, t.handOf p ≠ none) ∧
      (st = 10 → s.noHandover = true → s.pins.perstN = true → ∃ t, exec (.powerOnStageEnd ms found) s = .next t ∧ Sets u t F.RST_STATUS_STAGE 0 0 11) ∧
      (st = 10 → s.noHandover = true → s.pins.perstN = false → ∃ t, exec (.powerOnStageEnd ms found) s = .next t ∧ t = u.powerOnDone) ∧
      (st = 11 → ∃ t v : State, exec (.powerOnStageEnd ms found) s = .next t ∧ t = v.powerOnDone ∧ v.mem = s.mem))) ∧
  (s.pins.killN = true → s.host.held = [] → s.powerOnDone.rd F.RST_STATUS_READY 0 = 1 ∧ s.powerOnDone.rd F.RST_STATUS_STAGE 0 = 0 ∧
    s.powerOnDone.rd F.RST_STATUS_IN_RESET 0 = 0 ∧ s.powerOnDone.mem = s.mem) ∧
  ((s.pins.perstN = false ∨ s.pins.pwrgd = false) → exec .perstNAssert s = .next s) ∧
  (s.pins.perstN = true → s.pins.pwrgd = true →
    (s.rd F.RST_STATUS_STAGE 0 = 0 → ∃ t, exec .perstNAssert s = .next t ∧ t.pins.perstN = false ∧ t.rd F.RST_STATUS_IN_RESET 0 = 1 ∧ t.rd F.RST_STATUS_READY 0 = 0 ∧
      t.rd F.RST_STATUS_LAST 0 = 1 ∧ t.rd F.RST_PERST_COUNT 0 = min (s.rd F.RST_PERST_COUNT 0 + 1) maxCount ∧ (∀ p < 16, t.pdkState p = pdkHandover) ∧ t.rel.tests = []) ∧
    (s.rd F.RST_STATUS_STAGE 0 ≠ 0 → ∃ t, exec .perstNAssert s = .next t ∧ t = { s with pins := { s.pins with perstN := false } })) ∧
  ((s.pins.perstN = true ∨ s.pins.pwrgd = false) → exec .perstNDeassert s = .next s) ∧
  (s.pins.perstN = false → s.pins.pwrgd = true → ∃ t, exec .perstNDeassert s = .next t ∧ t.pins.perstN = true ∧ t.pins.resetSince = s.now ∧ t.mem = s.mem ∧
    (1 ≤ s.rd F.RST_STATUS_STAGE 0 → s.rd F.RST_STATUS_STAGE 0 ≤ 5 → t.rd F.RST_STATUS_EARLY_PERST 0 = 1) ∧
    ((s.rd F.RST_STATUS_STAGE 0 = 0 ∨ 5 < s.rd F.RST_STATUS_STAGE 0) → t.regs = s.regs)) ∧
  (s.pins.pwrgd = false → exec .pfFlr s = .next s) ∧
  (s.pins.pwrgd = true → s.rd F.RST_STATUS_STAGE 0 = 0 → ∃ t, exec .pfFlr s = .next t ∧ t.rd F.RST_STATUS_IN_RESET 0 = 1 ∧ t.rd F.RST_STATUS_READY 0 = 0 ∧
    t.rd F.RST_STATUS_LAST 0 = 2 ∧ t.rd F.RST_PFFLR_COUNT 0 = min (s.rd F.RST_PFFLR_COUNT 0 + 1) maxCount ∧ ∀ p < 16, t.pdkState p = pdkHandover) ∧
  (∀ p : Fin 16, ((s.pins.pwrgd = false ∨ s.vfExists (vfOf p.val) = false) → exec (.vfFlr p) s = .next s) ∧
    (s.pins.pwrgd = true → s.vfExists (vfOf p.val) = true → ∃ t, exec (.vfFlr p) s = .next t ∧ t = s.vfFlr p.val ∧
      t.rd F.RST_VFFLR_COUNT 0 = min (s.rd F.RST_VFFLR_COUNT 0 + 1) maxCount ∧
      ((s.pdkState p.val = pdkAssigned ∨ s.pdkState p.val = pdkActive ∨ s.pdkState p.val = pdkQuiesced) → t.pdkState p.val = pdkHandover))) ∧
  (∀ speed width, ((s.rd F.RST_STATUS_IN_RESET 0 = 0 ∨ s.noHandover = false ∨ (s.rd F.RST_STATUS_LAST 0 = 1 ∧ s.pins.perstN = false)) →
      exec (.resetComplete speed width) s = .next s) ∧
    (s.rd F.RST_STATUS_IN_RESET 0 ≠ 0 → (s.rd F.RST_STATUS_LAST 0 = 2 ∨ (s.rd F.RST_STATUS_LAST 0 = 1 ∧ s.pins.perstN = true)) → s.rd F.RST_STATUS_STAGE 0 = 0 →
      s.noHandover = true → s.rd F.HIF_FATAL_FATAL 0 = 0 → s.pins.pwrgd = true → s.pins.killN = true → s.host.held = [] →
      ∃ t, exec (.resetComplete speed width) s = .next t ∧ t.rd F.RST_STATUS_READY 0 = 1 ∧ t.rd F.RST_STATUS_IN_RESET 0 = 0 ∧ t.mem = s.mem ∧
        (s.rd F.RST_STATUS_LAST 0 = 1 → t.rd F.HIF_LINK_WIDTH 0 = width % 2 ^ 5))) ∧
  (s.pins.pwrgd = false → exec .pwrgdDeassert s = .next s ∧ exec .inputUndervoltage s = .next s) ∧
  (s.pins.pwrgd = true → (∃ t, exec .pwrgdDeassert s = .next t ∧ t.pins.pwrgd = false ∧ t.rd F.HIF_LINK_SPEED 0 = 0 ∧ ∀ c < 128, tget false t.sched.gated [c] = true) ∧
    ∃ t, exec .inputUndervoltage s = .next t ∧ t = s.powerStep ∧ t.rd F.HIF_LINK_SPEED 0 = 0 ∧ ∀ c < 128, tget false t.sched.gated [c] = true)

/-- KILL_N kills the module, and the core clock changes only without tenants. Rests on 20_trust_and_tenancy.md R619, 23_clocks_reset_and_power_up.md R678, 24_module_hardware.md R709. -/
def Obligations.KillAndCoreClock : Prop :=
  ∀ s : State,
  (∀ ns, (s.pins.pwrgd = false ∨ s.rd F.RST_STATUS_STAGE 0 = 1 ∨ s.rd F.RST_STATUS_STAGE 0 = 2 ∨ s.pins.killN = false ∨ ns < 200) → exec (.killNAssert ns) s = .next s) ∧
  (∀ ns, s.pins.pwrgd = true → s.rd F.RST_STATUS_STAGE 0 ≠ 1 → s.rd F.RST_STATUS_STAGE 0 ≠ 2 → s.pins.killN = true → 1000 ≤ ns →
    ∀ u, u = ({ s with pins := { s.pins with killN := false } } : State).wr F.RST_STATUS_KILL_N_LEVEL 0 1 →
    u.rd F.RST_STATUS_KILL_N_LEVEL 0 = 1 ∧ (s.rd F.RST_STATUS_IN_RESET 0 = 1 → exec (.killNAssert ns) s = .next u) ∧
    (s.rd F.RST_STATUS_IN_RESET 0 = 0 → ∃ t, exec (.killNAssert ns) s = .next t ∧ t = u.kill ∧ t.rd F.RTP_DEV_KILLED 0 = 1)) ∧
  (∃ t, exec .killNDeassert s = .next t ∧ t.pins.killN = true ∧ t.rd F.RST_STATUS_KILL_N_LEVEL 0 = 0 ∧ t.rd F.RTP_DEV_KILLED 0 = s.rd F.RTP_DEV_KILLED 0 ∧
    t.mem = s.mem ∧ t.out = s.out) ∧
  (∀ v, ((∃ p < 16, s.pdkState p ≠ pdkFree ∧ s.pdkState p ≠ pdkOffline) ∨ s.rel.tests ≠ []) →
    ∃ t, exec (.coreSelWrite v) s = .next t ∧ Sets s t F.CLK_CFG_REFUSED 0 0 1) ∧
  (∀ v, (∀ p < 16, s.pdkState p = pdkFree ∨ s.pdkState p = pdkOffline) → s.rel.tests = [] →
    (v % 4 = s.rd F.CLK_CFG_CORE_SEL 0 → exec (.coreSelWrite v) s = .next s) ∧
    (v % 4 ≠ s.rd F.CLK_CFG_CORE_SEL 0 → ∃ t, exec (.coreSelWrite v) s = .next t ∧ t.rd F.CLK_CFG_CORE_SEL 0 = v % 4 ∧ t.rd F.CLK_STAT_RELOCKING 0 = 1 ∧
      hasBit (t.rd F.CLK_STAT_LOCK 0) 0 = false ∧ hasBit (t.rd F.CLK_STAT_LOCK 0) 1 = false ∧
      t.rd F.CLK_RELOCK_COUNT 0 = min (s.rd F.CLK_RELOCK_COUNT 0 + 1) maxCount ∧
      OnlyRegs s t [F.CLK_CFG_CORE_SEL, F.CLK_STAT_RELOCKING, F.CLK_STAT_LOCK, F.CLK_RELOCK_COUNT, ovfOf F.CLK_RELOCK_COUNT])) ∧
  (s.rd F.CLK_STAT_RELOCKING 0 = 0 → exec .corePllRelockDone s = .next s) ∧
  (s.rd F.CLK_STAT_RELOCKING 0 ≠ 0 → ∃ t, exec .corePllRelockDone s = .next t ∧ t.rd F.CLK_STAT_RELOCKING 0 = 0 ∧
    t.rd F.CLK_STAT_CORE_MHZ 0 = nth [1900, 1800, 1700, 1600] (s.rd F.CLK_CFG_CORE_SEL 0) ∧ hasBit (t.rd F.CLK_STAT_LOCK 0) 0 = true ∧
    hasBit (t.rd F.CLK_STAT_LOCK 0) 1 = true ∧ OnlyRegs s t [F.CLK_STAT_RELOCKING, F.CLK_STAT_CORE_MHZ, F.CLK_STAT_LOCK])

/-- Paddocks are assigned, change role, are released and handed over. Rests on 01_paddocks_and_roles.md R14, 01_paddocks_and_roles.md R24, 01_paddocks_and_roles.md R25, 01_paddocks_and_roles.md R27, 01_paddocks_and_roles.md R31, 01_paddocks_and_roles.md R33, 02_core_and_shelf_store.md R63. -/
def Obligations.Paddocks : Prop :=
  ∀ (s : State) (h : Hdr),
  (∀ (role log2 ctxQuotaM1 pool : Nat) (ext : List (Nat × Nat × Nat × Nat)), s.callStatus h opPaddockAssign = 0 → s.orderBusy h = true →
    exec (.paddockAssign h role log2 ctxQuotaM1 pool ext) s = .next s ∧ (s.callStatus h opPaddockRelease = 0 → exec (.paddockRelease h) s = .next s)) ∧
  (∀ (role log2 ctxQuotaM1 pool : Nat) (ext : List (Nat × Nat × Nat × Nat)), s.orderBusy h = false → log2 ≤ 4 → role ≤ 2 → ctxQuotaM1 < 2 ^ 16 → pool ≤ 778240 →
    (∀ p ∈ members h.pdk log2, s.testHolds p = false) → h.pdk + 2 ^ log2 ≤ 16 → s.goes h opPaddockAssign (s.assignStatus h role log2 ctxQuotaM1 pool ext) →
    ∃ t, exec (.paddockAssign h role log2 ctxQuotaM1 pool ext) s = .next t ∧ t.mem = s.mem ∧ (∀ p ∈ members h.pdk log2, t.pdkState p = pdkAssigned ∧ t.role p = role ∧
      t.rd F.PDK_STATE_GROUP_BASE p = h.pdk ∧ t.rd F.PDK_STATE_GROUP_LOG2 p = log2 ∧ t.rd F.PDK_QUOTA_CTX_QUOTA_M1 p = ctxQuotaM1 ∧
      t.rd F.PDK_QUOTA_HBM_POOL_PAGES p = pool) ∧ ∀ p, p ∉ members h.pdk log2 → t.pdkState p = s.pdkState p ∧ t.role p = s.role p) ∧
  (∀ ms, ms = members h.pdk (s.rd F.PDK_STATE_GROUP_LOG2 h.pdk) → s.orderBusy h = false → (∀ p ∈ ms, s.testHolds p = false) →
    s.goes h opPaddockRelease (firstStatus [failIf (s.rd F.PDK_STATE_GROUP_BASE h.pdk != h.pdk) 0x202,
      failIf (ms.all (fun p => s.pdkState p == pdkFree || s.pdkState p == pdkOffline)) 0x301]) →
    ∃ t, exec (.paddockRelease h) s = .next t ∧
      ∀ p ∈ ms, (s.pdkState p ≠ pdkFree → s.pdkState p ≠ pdkOffline → t.pdkState p = pdkHandover) ∧ (s.pdkState p = pdkOffline → t.pdkState p = pdkOffline)) ∧
  (∀ role p, p = h.pdk % 16 → s.orderBusy h = false → s.goes h opPaddockConfig (firstStatus [failIf (decide (2 < role)) 0x201, failIf (s.tdiLocked p) 0x720,
      failIf (s.pdkState p != pdkAssigned && s.pdkState p != pdkQuiesced) 0x301, failIf (!s.roleQuiet p) 0x302]) →
    ∀ u, s.start h opPaddockConfig (some (.paddockConfig h role)) [s.now] = u →
    (s.role p = role → exec (.paddockConfig h role) s = .next (u.complete h 0)) ∧
    (s.role p ≠ role → role ≠ 2 → exec (.paddockConfig h role) s = .next ((u.changeRole p (s.role p) role).complete h 0)) ∧
    (s.role p ≠ role → role = 2 → ∃ t, exec (.paddockConfig h role) s = .next t ∧ OnlyRegs u t [F.DRW_SHELF_CFG_PWR] ∧
      ∀ i < 8, t.rd F.DRW_SHELF_CFG_PWR (8 * p + i) = 1)) ∧
  (∀ (p old role : Nat), role ≤ 2 → (s.changeRole p old role).role p = role) ∧
  (∀ c : Fin 128, ((s.rd F.DRW_SHELF_CFG_PWR c.val ≠ 1 ∨ s.shelfWrites c.val = true) → exec (.shelfPowerDownDrained c) s = .next s) ∧
    (s.rd F.DRW_SHELF_CFG_PWR c.val = 1 → s.shelfWrites c.val = false →
      ((∃ i < 8, (s.wr F.DRW_SHELF_CFG_PWR c.val 2).rd F.DRW_SHELF_CFG_PWR (8 * corePdk c.val + i) ≠ 2) →
        exec (.shelfPowerDownDrained c) s = .next (s.wr F.DRW_SHELF_CFG_PWR c.val 2)) ∧
      (∀ t, (∀ i < 8, (s.wr F.DRW_SHELF_CFG_PWR c.val 2).rd F.DRW_SHELF_CFG_PWR (8 * corePdk c.val + i) = 2) → s.roleCmd (corePdk c.val) = some t →
        exec (.shelfPowerDownDrained c) s =
          .next (((s.wr F.DRW_SHELF_CFG_PWR c.val 2).changeRole (corePdk c.val) (s.role (corePdk c.val)) 2).complete t.h 0))) ∧
    (s.roleCmd (corePdk c.val) = none → exec (.shelfPowerDownTimeout c) s = .next s) ∧
    (∀ t, s.roleCmd (corePdk c.val) = some t →
      ((s.rd F.DRW_SHELF_CFG_PWR c.val ≠ 1 ∨ s.now ≤ nth t.prog 0 + 100000) → exec (.shelfPowerDownTimeout c) s = .next s) ∧
      (s.rd F.DRW_SHELF_CFG_PWR c.val = 1 → nth t.prog 0 + 100000 < s.now → ∃ u : State, exec (.shelfPowerDownTimeout c) s = .next (u.complete t.h 0x313) ∧
        OnlyRegs s u [F.DRW_SHELF_CFG_PWR] ∧ ∀ i < 8, u.rd F.DRW_SHELF_CFG_PWR (8 * corePdk c.val + i) = 0))) ∧
  (∀ p : Fin 16, (s.handOf p.val = none → exec (.handoverDrainDone p) s = .next s ∧ ∀ found, exec (.handoverZeroiseDone p found) s = .next s) ∧
    ∀ x, s.handOf p.val = some x →
      ((s.pdkState p.val ≠ pdkHandover ∨ s.handoverRuns = false) → exec (.handoverDrainDone p) s = .next s ∧ ∀ found, exec (.handoverZeroiseDone p found) s = .next s) ∧
      (s.pdkState p.val = pdkHandover → x.step = 1 → s.handoverRuns = true → ∃ t, exec (.handoverDrainDone p) s = .next t ∧ t.handOf p.val = some { x with step := 3 } ∧
        t.mem = s.mem ∧ (∀ l ∈ t.net.lines, l.pdk ≠ p.val) ∧ t.rd F.RST_CORE_COUNT 0 = min (s.rd F.RST_CORE_COUNT 0 + 8) maxCount ∧
        t.rd F.MOW_STAT_ACTIVE_SLOT p.val = 0) ∧
      (∀ found, s.pdkState p.val = pdkHandover → x.step = 3 → s.handoverRuns = true → ∃ t, exec (.handoverZeroiseDone p found) s = .next t ∧ t.handOf p.val = none ∧
        (∀ a, dpaOf p.val 0 ≤ a → a < dpaOf p.val 0 + localEnd → mget t.mem.hbm a = memDefault) ∧
        (t.pdkState p.val = pdkOffline ∨ (x.toFree = true ∧ t.pdkState p.val = pdkFree) ∨ (x.toFree = false ∧ t.pdkState p.val = pdkAssigned)))) 

/-- An ADD that would exceed 32 bits is not applied, is recorded and aborts. Formalises R137. -/
def Obligations.CellOverflow : Prop :=
  ∀ (s : State) (c n op x stream position : Nat) (completion : Bool) (v : Nat) (t : State), s.rd F.SYN_VAL_VALUE c n = v →
  s.signalCell c n op x stream position completion = t →
  (op = 0 → 0xFFFFFFFF < v + x → t.rd F.SYN_VAL_VALUE c n = v ∧ ∃ u, t = u.abort (corePdk c) 0x630 ∧
    OnlyRegs s u [F.SYN_ERR0_VALID, F.SYN_ERR0_KIND, F.SYN_ERR0_STREAM, F.SYN_ERR0_TARGET, F.SYN_ERR0_COMPLETION, F.SYN_ERR0_POSITION, F.SYN_ERR1_TICK, F.SYN_ERR2_TIME] ∧
    (s.rd F.SYN_ERR0_VALID c = 1 → u = s) ∧
    (s.rd F.SYN_ERR0_VALID c ≠ 1 → stream < 16 → n < 256 → position < 2 ^ 24 → u.rd F.SYN_ERR0_VALID c = 1 ∧ u.rd F.SYN_ERR0_KIND c = 0 ∧
      u.rd F.SYN_ERR0_STREAM c = stream ∧ u.rd F.SYN_ERR0_TARGET c = n ∧ u.rd F.SYN_ERR0_POSITION c = position)) ∧
  (v < 2 ^ 32 → x < 2 ^ 32 →
    (op = 0 → v + x ≤ 0xFFFFFFFF → t.rd F.SYN_VAL_VALUE c n = v + x) ∧ (op = 1 → t.rd F.SYN_VAL_VALUE c n = x) ∧
    (op ≠ 0 → op ≠ 1 → t.rd F.SYN_VAL_VALUE c n = Nat.lor v x ∧ Nat.lor v x ≤ 0xFFFFFFFF))
end

