-- ==== Sys2Proof/Laws/Canonical.lean ====
section
/-! SUPPORT. Laws of the canonical forms: reading after writing, and that every operation on tables and memories keeps the form. -/

namespace Sys2Proof.Machine

variable {α : Type}

theorem keyLt_trans {a b c : Key} (h1 : keyLt a b = true) (h2 : keyLt b c = true) : keyLt a c = true := by
  induction a generalizing b c with
  | nil => cases c with
    | nil => cases b <;> simp [keyLt] at *
    | cons => rfl
  | cons x xs ih =>
    cases b with
    | nil => simp [keyLt] at h1
    | cons y ys =>
      cases c with
      | nil => simp [keyLt] at h2
      | cons z zs =>
        simp only [keyLt, Bool.or_eq_true, decide_eq_true_eq, Bool.and_eq_true, beq_iff_eq] at *
        rcases h1 with h1 | ⟨rfl, h1⟩ <;> rcases h2 with h2 | ⟨rfl, h2⟩
        · left; omega
        · left; omega
        · left; omega
        · right; exact ⟨rfl, ih h1 h2⟩

theorem keyLt_of_ne {a b : Key} (h : ¬ b = a) (h2 : keyLt a b = false) : keyLt b a = true := by
  induction a generalizing b with
  | nil => cases b <;> simp [keyLt] at *
  | cons x xs ih =>
    cases b with
    | nil => rfl
    | cons y ys =>
      simp only [keyLt, Bool.or_eq_true, decide_eq_true_eq, Bool.and_eq_true, beq_iff_eq, Bool.or_eq_false_iff, decide_eq_false_iff_not,
        Bool.and_eq_false_iff] at *
      by_cases hxy : x = y
      · subst hxy
        right
        refine ⟨rfl, ih (fun e => h (by rw [e])) ?_⟩
        rcases h2.2 with h3 | h3
        · simp at h3
        · exact h3
      · left; omega

/-- The keys of a table, each above `k`. -/
theorem tsorted_cons {e : Key × α} {t : Tbl α} : tsorted (e :: t) = true ↔ (∀ x ∈ t, keyLt e.1 x.1 = true) ∧ tsorted t = true := by
  induction t generalizing e with
  | nil => simp [tsorted]
  | cons y ys ih =>
    simp only [tsorted, Bool.and_eq_true, List.mem_cons, forall_eq_or_imp]
    constructor
    · rintro ⟨h1, h2⟩
      exact ⟨⟨h1, fun x hx => keyLt_trans h1 ((ih.1 h2).1 x hx)⟩, h2⟩
    · rintro ⟨⟨h1, _⟩, h2⟩
      exact ⟨h1, h2⟩

theorem tsorted_filter {t : Tbl α} (p : Key × α → Bool) (h : tsorted t = true) : tsorted (t.filter p) = true := by
  induction t with
  | nil => rfl
  | cons e t ih =>
    rw [tsorted_cons] at h
    rw [List.filter_cons]
    split
    · rw [tsorted_cons]
      exact ⟨fun x hx => h.1 x (List.mem_filter.1 hx).1, ih h.2⟩
    · exact ih h.2

theorem mem_tput {k : Key} {v : α} {t : Tbl α} {x : Key × α} (h : x ∈ tput k v t) : x = (k, v) ∨ x ∈ t := by
  induction t with
  | nil => simpa [tput] using h
  | cons e t ih =>
    obtain ⟨k', v'⟩ := e
    simp only [tput] at h
    split at h
    · rcases List.mem_cons.1 h with h | h
      · exact .inl h
      · exact .inr (List.mem_cons_of_mem _ h)
    · split at h
      · exact List.mem_cons.1 h
      · rcases List.mem_cons.1 h with h | h
        · exact .inr (h ▸ List.mem_cons_self ..)
        · rcases ih h with h | h
          · exact .inl h
          · exact .inr (List.mem_cons_of_mem _ h)

theorem tsorted_tput {k : Key} {v : α} {t : Tbl α} (h : tsorted t = true) : tsorted (tput k v t) = true := by
  induction t with
  | nil => rfl
  | cons e t ih =>
    obtain ⟨k', v'⟩ := e
    have h' := tsorted_cons.1 h
    simp only [tput]
    split
    · rename_i hk
      subst hk
      exact tsorted_cons.2 h'
    · split
      · rename_i hlt
        exact tsorted_cons.2 ⟨fun x hx => (List.mem_cons.1 hx).elim (fun e => e ▸ hlt) (fun hx => keyLt_trans hlt (h'.1 x hx)), h⟩
      · rename_i hne hlt
        refine tsorted_cons.2 ⟨fun x hx => ?_, ih h'.2⟩
        rcases mem_tput hx with rfl | hx
        · exact keyLt_of_ne hne (by simpa using hlt)
        · exact h'.1 x hx

theorem tsorted_tset [DecidableEq α] {d : α} {k : Key} {v : α} {t : Tbl α} (h : tsorted t = true) : tsorted (tset d t k v) = true := by
  unfold tset tdel
  split
  · exact tsorted_filter _ h
  · exact tsorted_tput h

theorem twf_iff [DecidableEq α] {d : Key → α} {t : Tbl α} : twf d t = true ↔ tsorted t = true ∧ ∀ e ∈ t, e.2 ≠ d e.1 := by
  induction t with
  | nil => simp [twf, tsorted]
  | cons e t ih =>
    cases t with
    | nil => simp [twf, tsorted]
    | cons y ys =>
      simp only [twf, Bool.and_eq_true, ih, tsorted, List.mem_cons, forall_eq_or_imp, Bool.not_eq_true', decide_eq_false_iff_not]
      constructor
      · rintro ⟨⟨a, b⟩, c, e, f⟩
        exact ⟨⟨b, c⟩, a, e, f⟩
      · rintro ⟨⟨b, c⟩, a, e, f⟩
        exact ⟨⟨a, b⟩, c, e, f⟩

theorem twf_filter [DecidableEq α] {d : Key → α} {t : Tbl α} (p : Key × α → Bool) (h : twf d t = true) : twf d (t.filter p) = true := by
  rw [twf_iff] at *
  exact ⟨tsorted_filter p h.1, fun e he => h.2 e (List.mem_filter.1 he).1⟩

theorem twf_tset [DecidableEq α] {d : α} {k : Key} {v : α} {t : Tbl α} (h : twf (fun _ => d) t = true) : twf (fun _ => d) (tset d t k v) = true := by
  unfold tset tdel
  split
  · exact twf_filter _ h
  · rename_i hv
    rw [twf_iff] at *
    refine ⟨tsorted_tput h.1, fun e he => ?_⟩
    rcases mem_tput he with rfl | he
    · exact hv
    · exact h.2 e he

theorem twf_tclear [DecidableEq α] {d : Key → α} {t : Tbl α} (p : Key → Bool) (h : twf d t = true) : twf d (tclear p t) = true := twf_filter _ h

/-! ### Memories -/

/-- Addresses strictly rising from `a` on. -/
theorem memory_wf_cons {e : Host.Cell} {m : Mem} :
    Memory.wf (e :: m) = true ↔ e.2 ≠ memDefault ∧ (∀ x ∈ m, e.1 < x.1) ∧ Memory.wf m = true := by
  induction m generalizing e with
  | nil => simp [Memory.wf]
  | cons y ys ih =>
    simp only [Memory.wf, Bool.and_eq_true, List.mem_cons, forall_eq_or_imp, decide_eq_true_eq, Bool.not_eq_true', decide_eq_false_iff_not]
    constructor
    · rintro ⟨⟨h1, h2⟩, h3⟩
      exact ⟨h1, ⟨h2, fun x hx => Nat.lt_trans h2 ((ih.1 h3).2.1 x hx)⟩, h3⟩
    · rintro ⟨h1, ⟨h2, _⟩, h3⟩
      exact ⟨⟨h1, h2⟩, h3⟩

theorem memory_wf_filter {m : Mem} (p : Host.Cell → Bool) (h : Memory.wf m = true) : Memory.wf (m.filter p) = true := by
  induction m with
  | nil => rfl
  | cons e m ih =>
    rw [memory_wf_cons] at h
    rw [List.filter_cons]
    split
    · rw [memory_wf_cons]
      exact ⟨h.1, fun x hx => h.2.1 x (List.mem_filter.1 hx).1, ih h.2.2⟩
    · exact ih h.2.2

theorem mem_mput {a : Nat} {b : Byte} {m : Mem} {x : Host.Cell} (h : x ∈ mput a b m) : x = (a, b) ∨ x ∈ m := by
  induction m with
  | nil => simpa [mput] using h
  | cons e m ih =>
    obtain ⟨a', b'⟩ := e
    simp only [mput] at h
    split at h
    · rcases List.mem_cons.1 h with h | h
      · exact .inl h
      · exact .inr (List.mem_cons_of_mem _ h)
    · split at h
      · exact List.mem_cons.1 h
      · rcases List.mem_cons.1 h with h | h
        · exact .inr (h ▸ List.mem_cons_self ..)
        · rcases ih h with h | h
          · exact .inl h
          · exact .inr (List.mem_cons_of_mem _ h)

theorem memory_wf_mput {a : Nat} {b : Byte} {m : Mem} (hb : b ≠ memDefault) (h : Memory.wf m = true) : Memory.wf (mput a b m) = true := by
  induction m with
  | nil => simp [mput, Memory.wf, hb]
  | cons e m ih =>
    obtain ⟨a', b'⟩ := e
    have h' := memory_wf_cons.1 h
    simp only [mput]
    split
    · rename_i hk
      subst hk
      exact memory_wf_cons.2 ⟨hb, h'.2⟩
    · split
      · rename_i hlt
        exact memory_wf_cons.2 ⟨hb, fun x hx => (List.mem_cons.1 hx).elim (fun e => e ▸ hlt) (fun hx => Nat.lt_trans hlt (h'.2.1 x hx)), h⟩
      · rename_i hne hlt
        refine memory_wf_cons.2 ⟨h'.1, fun x hx => ?_, ih h'.2.2⟩
        rcases mem_mput hx with rfl | hx
        · show a' < a
          omega
        · exact h'.2.1 x hx

theorem memory_wf_mset {m : Mem} {a : Nat} {b : Byte} (h : Memory.wf m = true) : Memory.wf (mset m a b) = true := by
  unfold mset
  split
  · exact memory_wf_filter _ h
  · rename_i hb
    exact memory_wf_mput hb h

theorem memory_wf_mwrite {m : Mem} {a : Nat} {bs : List Byte} (h : Memory.wf m = true) : Memory.wf (mwrite m a bs) = true := by
  induction bs generalizing m a with
  | nil => exact h
  | cons b bs ih => exact ih (memory_wf_mset h)

theorem memory_wf_mzero {m : Mem} {a n : Nat} (h : Memory.wf m = true) : Memory.wf (mzero m a n) = true := memory_wf_filter _ h

/-! ### Reading after writing -/

theorem tget_tput_self {d : α} {k : Key} {v : α} {t : Tbl α} : tget d (tput k v t) k = v := by
  induction t with
  | nil => simp [tput, tget]
  | cons e t ih =>
    obtain ⟨k', v'⟩ := e
    simp only [tput]
    split
    · simp [tget]
    · split
      · simp [tget]
      · rename_i hne _
        simp [tget, hne, ih]

theorem tget_tput_ne {d : α} {k k2 : Key} {v : α} {t : Tbl α} (h : k ≠ k2) : tget d (tput k v t) k2 = tget d t k2 := by
  induction t with
  | nil => simp [tput, tget, h]
  | cons e t ih =>
    obtain ⟨k', v'⟩ := e
    simp only [tput]
    split
    · rename_i hk
      subst hk
      simp [tget, h]
    · split
      · simp [tget, h]
      · simp [tget, ih]

theorem tget_filter_key {d : α} {k : Key} {p : Key → Bool} {t : Tbl α} :
    tget d (t.filter (fun e => p e.1)) k = if p k then tget d t k else d := by
  induction t with
  | nil => simp [tget]
  | cons e t ih =>
    obtain ⟨k', v'⟩ := e
    rw [List.filter_cons]
    by_cases hk : k' = k
    · subst hk
      by_cases hp : p k' = true
      · simp [hp, tget]
      · simp [hp, ih]
    · by_cases hp : p k' = true
      · simp [hp, tget, hk, ih]
      · simp [hp, tget, hk, ih]

theorem tget_tset_self [DecidableEq α] {d : α} {k : Key} {v : α} {t : Tbl α} : tget d (tset d t k v) k = v := by
  unfold tset tdel
  split
  · rename_i h
    have := @tget_filter_key α d k (fun x => ¬ x = k) t
    simp only [decide_not] at *
    rw [this]
    simp [h]
  · exact tget_tput_self

theorem tget_tset_ne [DecidableEq α] {d d2 : α} {k k2 : Key} {v : α} {t : Tbl α} (h : k2 ≠ k) : tget d2 (tset d t k v) k2 = tget d2 t k2 := by
  unfold tset tdel
  split
  · have := @tget_filter_key α d2 k2 (fun x => ¬ x = k) t
    simp only [decide_not] at *
    rw [this]
    simp [h]
  · exact tget_tput_ne (Ne.symm h)

theorem tget_tclear {d : α} {k : Key} {p : Key → Bool} {t : Tbl α} : tget d (tclear p t) k = if p k then d else tget d t k := by
  unfold tclear
  have := @tget_filter_key α d k (fun x => ! p x) t
  rw [this]
  cases p k <;> simp

theorem mget_mput_self {a : Nat} {b : Byte} {m : Mem} : mget (mput a b m) a = b := by
  induction m with
  | nil => simp [mput, mget]
  | cons e m ih =>
    obtain ⟨a', b'⟩ := e
    simp only [mput]
    split
    · simp [mget]
    · split
      · simp [mget]
      · rename_i hne _
        simp [mget, hne, ih]

theorem mget_mput_ne {a a2 : Nat} {b : Byte} {m : Mem} (h : a ≠ a2) : mget (mput a b m) a2 = mget m a2 := by
  induction m with
  | nil => simp [mput, mget, h]
  | cons e m ih =>
    obtain ⟨a', b'⟩ := e
    simp only [mput]
    split
    · rename_i hk
      subst hk
      simp [mget, h]
    · split
      · simp [mget, h]
      · simp [mget, ih]

theorem mget_filter_addr {a : Nat} {p : Nat → Bool} {m : Mem} :
    mget (m.filter (fun e => p e.1)) a = if p a then mget m a else memDefault := by
  induction m with
  | nil => simp [mget]
  | cons e m ih =>
    obtain ⟨a', b'⟩ := e
    rw [List.filter_cons]
    by_cases hk : a' = a
    · subst hk
      by_cases hp : p a' = true
      · simp [hp, mget]
      · simp [hp, ih]
    · by_cases hp : p a' = true
      · simp [hp, mget, hk, ih]
      · simp [hp, mget, hk, ih]

/-- Reading a byte after writing one. -/
theorem mget_mset {m : Mem} {a a2 : Nat} {b : Byte} : mget (mset m a b) a2 = if a2 = a then b else mget m a2 := by
  unfold mset
  split
  · rename_i hb
    have := @mget_filter_addr a2 (fun x => ¬ x = a) m
    simp only [decide_not] at *
    rw [this]
    by_cases h : a2 = a <;> simp [h, hb]
  · by_cases h : a2 = a
    · subst h
      simp [mget_mput_self]
    · simp [h, mget_mput_ne (Ne.symm h)]

/-- Reading a byte after writing several. -/
theorem mget_mwrite {m : Mem} {a x : Nat} {bs : List Byte} :
    mget (mwrite m a bs) x = if a ≤ x ∧ x < a + bs.length then (bs[x - a]?).getD memDefault else mget m x := by
  induction bs generalizing m a with
  | nil =>
    have : ¬ (a ≤ x ∧ x < a + ([] : List Byte).length) := by simp only [List.length_nil]; omega
    rw [if_neg this]
    rfl
  | cons b bs ih =>
    simp only [mwrite, ih, mget_mset, List.length_cons]
    by_cases h1 : a + 1 ≤ x ∧ x < a + 1 + bs.length
    · have h2 : a ≤ x ∧ x < a + (bs.length + 1) := by omega
      have h3 : x - a = (x - (a + 1)) + 1 := by omega
      rw [if_pos h1, if_pos h2, h3, List.getElem?_cons_succ]
    · rw [if_neg h1]
      by_cases h2 : x = a
      · subst h2
        have h3 : x ≤ x ∧ x < x + (bs.length + 1) := by omega
        rw [if_pos rfl, if_pos h3]
        simp
      · have h3 : ¬ (a ≤ x ∧ x < a + (bs.length + 1)) := by omega
        rw [if_neg h2, if_neg h3]

/-- Reading a byte after zeroising a range. -/
theorem mget_mzero {m : Mem} {a n x : Nat} : mget (mzero m a n) x = if a ≤ x ∧ x < a + n then memDefault else mget m x := by
  unfold mzero
  have := @mget_filter_addr x (fun y => ! (decide (a ≤ y) && decide (y < a + n))) m
  rw [this]
  by_cases h : a ≤ x ∧ x < a + n
  · simp [h]
  · rw [if_neg h, if_pos]
    simp only [Bool.not_eq_true', Bool.and_eq_false_iff, decide_eq_false_iff_not]
    omega

end Sys2Proof.Machine
end

