-- ==== Sys2Proof/Laws/State.lean ====
section
/-! SUPPORT. What each small update leaves alone: one lemma a field and an update, and what a register reads after one. -/

set_option linter.all false

namespace Sys2Proof.Machine

/-! ### Registers -/

theorem ite_both {α : Type} {c : Prop} [Decidable c] {a b x : α} (ha : a = x) (hb : b = x) : (if c then a else b) = x := by
  split <;> assumption

theorem State.rd_wr_self {s : State} {f : Fld} {i v j : Nat} : (s.wr f i v j).rd f i j = v % 2 ^ f.width := by
  unfold State.rd State.wr
  exact tget_tset_self

theorem State.rd_wr_ne {s : State} {f g : Fld} {i v j i' j' : Nat} (h : ¬ ([g.id, i', j'] : Key) = [f.id, i, j]) :
    (s.wr f i v j).rd g i' j' = s.rd g i' j' := by
  unfold State.rd State.wr
  exact tget_tset_ne h

/-- A read after a write of another field. -/
theorem State.rd_wr_fld {s : State} {f g : Fld} {i v j i' j' : Nat} (h : g.id ≠ f.id) : (s.wr f i v j).rd g i' j' = s.rd g i' j' :=
  State.rd_wr_ne (fun e => h (List.cons.inj e).1)

/-- A read after a write of the same field in another instance. -/
theorem State.rd_wr_inst {s : State} {f : Fld} {i v j i' j' : Nat} (h : i' ≠ i) : (s.wr f i v j).rd f i' j' = s.rd f i' j' :=
  State.rd_wr_ne (fun e => h (List.cons.inj (List.cons.inj e).2).1)

/-- A read after a write of the same field in another place. -/
theorem State.rd_wr_idx {s : State} {f : Fld} {i v j i' j' : Nat} (h : j' ≠ j) : (s.wr f i v j).rd f i' j' = s.rd f i' j' :=
  State.rd_wr_ne (fun e => h (List.cons.inj (List.cons.inj (List.cons.inj e).2).2).1)

/-- A counter adds up until it sticks at its maximum (R630). -/
theorem State.rd_bump_self {s : State} {f : Fld} {i j n : Nat} (hw : f.width = 48) (hid : 0 < f.id) :
    (s.bump f i j n).rd f i j = min (s.rd f i j + n) maxCount := by
  unfold State.bump
  dsimp only
  have h48 : (2 : Nat) ^ f.width = maxCount + 1 := by rw [hw]; rfl
  split
  · rename_i h
    rw [State.rd_wr_ne (by simp only [ovfOf, List.cons.injEq]; omega), State.rd_wr_self, h48]
    unfold maxCount at *
    omega
  · rename_i h
    rw [State.rd_wr_self, h48]
    unfold maxCount at *
    omega

theorem State.rd_bump_fld {s : State} {f g : Fld} {i j n i' j' : Nat} (h : g.id ≠ f.id) (h2 : g.id ≠ f.id - 1) :
    (s.bump f i j n).rd g i' j' = s.rd g i' j' := by
  unfold State.bump
  dsimp only
  split
  · rw [State.rd_wr_fld (by simpa [ovfOf] using h2), State.rd_wr_fld h]
  · rw [State.rd_wr_fld h]

/-! ### wr -/

@[simp] theorem State.wr_pending (s : State) (f : Fld) (i v j : Nat) : (s.wr f i v j).pending = s.pending := rfl
@[simp] theorem State.wr_mem (s : State) (f : Fld) (i v j : Nat) : (s.wr f i v j).mem = s.mem := rfl
@[simp] theorem State.wr_sched (s : State) (f : Fld) (i v j : Nat) : (s.wr f i v j).sched = s.sched := rfl
@[simp] theorem State.wr_net (s : State) (f : Fld) (i v j : Nat) : (s.wr f i v j).net = s.net := rfl
@[simp] theorem State.wr_kv (s : State) (f : Fld) (i v j : Nat) : (s.wr f i v j).kv = s.kv := rfl
@[simp] theorem State.wr_msys (s : State) (f : Fld) (i v j : Nat) : (s.wr f i v j).msys = s.msys := rfl
@[simp] theorem State.wr_rel (s : State) (f : Fld) (i v j : Nat) : (s.wr f i v j).rel = s.rel := rfl
@[simp] theorem State.wr_trust (s : State) (f : Fld) (i v j : Nat) : (s.wr f i v j).trust = s.trust := rfl
@[simp] theorem State.wr_bud (s : State) (f : Fld) (i v j : Nat) : (s.wr f i v j).bud = s.bud := rfl
@[simp] theorem State.wr_shelf (s : State) (f : Fld) (i v j : Nat) : (s.wr f i v j).shelf = s.shelf := rfl
@[simp] theorem State.wr_taken (s : State) (f : Fld) (i v j : Nat) : (s.wr f i v j).taken = s.taken := rfl
@[simp] theorem State.wr_host (s : State) (f : Fld) (i v j : Nat) : (s.wr f i v j).host = s.host := rfl
@[simp] theorem State.wr_hand (s : State) (f : Fld) (i v j : Nat) : (s.wr f i v j).hand = s.hand := rfl
@[simp] theorem State.wr_dumpCfgs (s : State) (f : Fld) (i v j : Nat) : (s.wr f i v j).dumpCfgs = s.dumpCfgs := rfl
@[simp] theorem State.wr_dumps (s : State) (f : Fld) (i v j : Nat) : (s.wr f i v j).dumps = s.dumps := rfl
@[simp] theorem State.wr_logged (s : State) (f : Fld) (i v j : Nat) : (s.wr f i v j).logged = s.logged := rfl
@[simp] theorem State.wr_rotary (s : State) (f : Fld) (i v j : Nat) : (s.wr f i v j).rotary = s.rotary := rfl
@[simp] theorem State.wr_tables (s : State) (f : Fld) (i v j : Nat) : (s.wr f i v j).tables = s.tables := rfl
@[simp] theorem State.wr_pins (s : State) (f : Fld) (i v j : Nat) : (s.wr f i v j).pins = s.pins := rfl
@[simp] theorem State.wr_out (s : State) (f : Fld) (i v j : Nat) : (s.wr f i v j).out = s.out := rfl
@[simp] theorem State.wr_free (s : State) (f : Fld) (i v j : Nat) : (s.wr f i v j).free = s.free := rfl

/-! ### resetFlds -/

@[simp] theorem State.resetFlds_pending (s : State) (p : Fld → Nat → Nat → Bool) : (s.resetFlds p).pending = s.pending := rfl
@[simp] theorem State.resetFlds_mem (s : State) (p : Fld → Nat → Nat → Bool) : (s.resetFlds p).mem = s.mem := rfl
@[simp] theorem State.resetFlds_sched (s : State) (p : Fld → Nat → Nat → Bool) : (s.resetFlds p).sched = s.sched := rfl
@[simp] theorem State.resetFlds_net (s : State) (p : Fld → Nat → Nat → Bool) : (s.resetFlds p).net = s.net := rfl
@[simp] theorem State.resetFlds_kv (s : State) (p : Fld → Nat → Nat → Bool) : (s.resetFlds p).kv = s.kv := rfl
@[simp] theorem State.resetFlds_msys (s : State) (p : Fld → Nat → Nat → Bool) : (s.resetFlds p).msys = s.msys := rfl
@[simp] theorem State.resetFlds_rel (s : State) (p : Fld → Nat → Nat → Bool) : (s.resetFlds p).rel = s.rel := rfl
@[simp] theorem State.resetFlds_trust (s : State) (p : Fld → Nat → Nat → Bool) : (s.resetFlds p).trust = s.trust := rfl
@[simp] theorem State.resetFlds_bud (s : State) (p : Fld → Nat → Nat → Bool) : (s.resetFlds p).bud = s.bud := rfl
@[simp] theorem State.resetFlds_shelf (s : State) (p : Fld → Nat → Nat → Bool) : (s.resetFlds p).shelf = s.shelf := rfl
@[simp] theorem State.resetFlds_taken (s : State) (p : Fld → Nat → Nat → Bool) : (s.resetFlds p).taken = s.taken := rfl
@[simp] theorem State.resetFlds_host (s : State) (p : Fld → Nat → Nat → Bool) : (s.resetFlds p).host = s.host := rfl
@[simp] theorem State.resetFlds_hand (s : State) (p : Fld → Nat → Nat → Bool) : (s.resetFlds p).hand = s.hand := rfl
@[simp] theorem State.resetFlds_dumpCfgs (s : State) (p : Fld → Nat → Nat → Bool) : (s.resetFlds p).dumpCfgs = s.dumpCfgs := rfl
@[simp] theorem State.resetFlds_dumps (s : State) (p : Fld → Nat → Nat → Bool) : (s.resetFlds p).dumps = s.dumps := rfl
@[simp] theorem State.resetFlds_logged (s : State) (p : Fld → Nat → Nat → Bool) : (s.resetFlds p).logged = s.logged := rfl
@[simp] theorem State.resetFlds_rotary (s : State) (p : Fld → Nat → Nat → Bool) : (s.resetFlds p).rotary = s.rotary := rfl
@[simp] theorem State.resetFlds_tables (s : State) (p : Fld → Nat → Nat → Bool) : (s.resetFlds p).tables = s.tables := rfl
@[simp] theorem State.resetFlds_pins (s : State) (p : Fld → Nat → Nat → Bool) : (s.resetFlds p).pins = s.pins := rfl
@[simp] theorem State.resetFlds_out (s : State) (p : Fld → Nat → Nat → Bool) : (s.resetFlds p).out = s.out := rfl
@[simp] theorem State.resetFlds_free (s : State) (p : Fld → Nat → Nat → Bool) : (s.resetFlds p).free = s.free := rfl

/-! ### tick -/

@[simp] theorem State.tick_pending (s : State) : (s.tick).pending = s.pending := rfl
@[simp] theorem State.tick_regs (s : State) : (s.tick).regs = s.regs := rfl
@[simp] theorem State.tick_mem (s : State) : (s.tick).mem = s.mem := rfl
@[simp] theorem State.tick_sched (s : State) : (s.tick).sched = s.sched := rfl
@[simp] theorem State.tick_net (s : State) : (s.tick).net = s.net := rfl
@[simp] theorem State.tick_kv (s : State) : (s.tick).kv = s.kv := rfl
@[simp] theorem State.tick_msys (s : State) : (s.tick).msys = s.msys := rfl
@[simp] theorem State.tick_rel (s : State) : (s.tick).rel = s.rel := rfl
@[simp] theorem State.tick_trust (s : State) : (s.tick).trust = s.trust := rfl
@[simp] theorem State.tick_bud (s : State) : (s.tick).bud = s.bud := rfl
@[simp] theorem State.tick_shelf (s : State) : (s.tick).shelf = s.shelf := rfl
@[simp] theorem State.tick_taken (s : State) : (s.tick).taken = s.taken := rfl
@[simp] theorem State.tick_host (s : State) : (s.tick).host = s.host := rfl
@[simp] theorem State.tick_hand (s : State) : (s.tick).hand = s.hand := rfl
@[simp] theorem State.tick_dumpCfgs (s : State) : (s.tick).dumpCfgs = s.dumpCfgs := rfl
@[simp] theorem State.tick_dumps (s : State) : (s.tick).dumps = s.dumps := rfl
@[simp] theorem State.tick_logged (s : State) : (s.tick).logged = s.logged := rfl
@[simp] theorem State.tick_rotary (s : State) : (s.tick).rotary = s.rotary := rfl
@[simp] theorem State.tick_tables (s : State) : (s.tick).tables = s.tables := rfl
@[simp] theorem State.tick_pins (s : State) : (s.tick).pins = s.pins := rfl
@[simp] theorem State.tick_out (s : State) : (s.tick).out = s.out := rfl
@[simp] theorem State.rd_tick (s : State) (g : Fld) (i' j' : Nat) : (s.tick).rd g i' j' = s.rd g i' j' := rfl

/-! ### emit -/

@[simp] theorem State.emit_pending (s : State) (x : Out) : (s.emit x).pending = s.pending := rfl
@[simp] theorem State.emit_regs (s : State) (x : Out) : (s.emit x).regs = s.regs := rfl
@[simp] theorem State.emit_mem (s : State) (x : Out) : (s.emit x).mem = s.mem := rfl
@[simp] theorem State.emit_sched (s : State) (x : Out) : (s.emit x).sched = s.sched := rfl
@[simp] theorem State.emit_net (s : State) (x : Out) : (s.emit x).net = s.net := rfl
@[simp] theorem State.emit_kv (s : State) (x : Out) : (s.emit x).kv = s.kv := rfl
@[simp] theorem State.emit_msys (s : State) (x : Out) : (s.emit x).msys = s.msys := rfl
@[simp] theorem State.emit_rel (s : State) (x : Out) : (s.emit x).rel = s.rel := rfl
@[simp] theorem State.emit_trust (s : State) (x : Out) : (s.emit x).trust = s.trust := rfl
@[simp] theorem State.emit_bud (s : State) (x : Out) : (s.emit x).bud = s.bud := rfl
@[simp] theorem State.emit_shelf (s : State) (x : Out) : (s.emit x).shelf = s.shelf := rfl
@[simp] theorem State.emit_taken (s : State) (x : Out) : (s.emit x).taken = s.taken := rfl
@[simp] theorem State.emit_host (s : State) (x : Out) : (s.emit x).host = s.host := rfl
@[simp] theorem State.emit_hand (s : State) (x : Out) : (s.emit x).hand = s.hand := rfl
@[simp] theorem State.emit_dumpCfgs (s : State) (x : Out) : (s.emit x).dumpCfgs = s.dumpCfgs := rfl
@[simp] theorem State.emit_dumps (s : State) (x : Out) : (s.emit x).dumps = s.dumps := rfl
@[simp] theorem State.emit_logged (s : State) (x : Out) : (s.emit x).logged = s.logged := rfl
@[simp] theorem State.emit_rotary (s : State) (x : Out) : (s.emit x).rotary = s.rotary := rfl
@[simp] theorem State.emit_tables (s : State) (x : Out) : (s.emit x).tables = s.tables := rfl
@[simp] theorem State.emit_pins (s : State) (x : Out) : (s.emit x).pins = s.pins := rfl
@[simp] theorem State.emit_free (s : State) (x : Out) : (s.emit x).free = s.free := rfl
@[simp] theorem State.rd_emit (s : State) (x : Out) (g : Fld) (i' j' : Nat) : (s.emit x).rd g i' j' = s.rd g i' j' := rfl

/-! ### setMem -/

@[simp] theorem State.setMem_pending (s : State) (m : Mems) : (s.setMem m).pending = s.pending := rfl
@[simp] theorem State.setMem_regs (s : State) (m : Mems) : (s.setMem m).regs = s.regs := rfl
@[simp] theorem State.setMem_sched (s : State) (m : Mems) : (s.setMem m).sched = s.sched := rfl
@[simp] theorem State.setMem_net (s : State) (m : Mems) : (s.setMem m).net = s.net := rfl
@[simp] theorem State.setMem_kv (s : State) (m : Mems) : (s.setMem m).kv = s.kv := rfl
@[simp] theorem State.setMem_msys (s : State) (m : Mems) : (s.setMem m).msys = s.msys := rfl
@[simp] theorem State.setMem_rel (s : State) (m : Mems) : (s.setMem m).rel = s.rel := rfl
@[simp] theorem State.setMem_trust (s : State) (m : Mems) : (s.setMem m).trust = s.trust := rfl
@[simp] theorem State.setMem_bud (s : State) (m : Mems) : (s.setMem m).bud = s.bud := rfl
@[simp] theorem State.setMem_shelf (s : State) (m : Mems) : (s.setMem m).shelf = s.shelf := rfl
@[simp] theorem State.setMem_taken (s : State) (m : Mems) : (s.setMem m).taken = s.taken := rfl
@[simp] theorem State.setMem_host (s : State) (m : Mems) : (s.setMem m).host = s.host := rfl
@[simp] theorem State.setMem_hand (s : State) (m : Mems) : (s.setMem m).hand = s.hand := rfl
@[simp] theorem State.setMem_dumpCfgs (s : State) (m : Mems) : (s.setMem m).dumpCfgs = s.dumpCfgs := rfl
@[simp] theorem State.setMem_dumps (s : State) (m : Mems) : (s.setMem m).dumps = s.dumps := rfl
@[simp] theorem State.setMem_logged (s : State) (m : Mems) : (s.setMem m).logged = s.logged := rfl
@[simp] theorem State.setMem_rotary (s : State) (m : Mems) : (s.setMem m).rotary = s.rotary := rfl
@[simp] theorem State.setMem_tables (s : State) (m : Mems) : (s.setMem m).tables = s.tables := rfl
@[simp] theorem State.setMem_pins (s : State) (m : Mems) : (s.setMem m).pins = s.pins := rfl
@[simp] theorem State.setMem_out (s : State) (m : Mems) : (s.setMem m).out = s.out := rfl
@[simp] theorem State.setMem_free (s : State) (m : Mems) : (s.setMem m).free = s.free := rfl
@[simp] theorem State.rd_setMem (s : State) (m : Mems) (g : Fld) (i' j' : Nat) : (s.setMem m).rd g i' j' = s.rd g i' j' := rfl

/-! ### setRow -/

@[simp] theorem State.setRow_pending (s : State) (c r : Nat) (bs : List Byte) (p : Bool) : (s.setRow c r bs p).pending = s.pending := rfl
@[simp] theorem State.setRow_regs (s : State) (c r : Nat) (bs : List Byte) (p : Bool) : (s.setRow c r bs p).regs = s.regs := rfl
@[simp] theorem State.setRow_sched (s : State) (c r : Nat) (bs : List Byte) (p : Bool) : (s.setRow c r bs p).sched = s.sched := rfl
@[simp] theorem State.setRow_net (s : State) (c r : Nat) (bs : List Byte) (p : Bool) : (s.setRow c r bs p).net = s.net := rfl
@[simp] theorem State.setRow_kv (s : State) (c r : Nat) (bs : List Byte) (p : Bool) : (s.setRow c r bs p).kv = s.kv := rfl
@[simp] theorem State.setRow_msys (s : State) (c r : Nat) (bs : List Byte) (p : Bool) : (s.setRow c r bs p).msys = s.msys := rfl
@[simp] theorem State.setRow_rel (s : State) (c r : Nat) (bs : List Byte) (p : Bool) : (s.setRow c r bs p).rel = s.rel := rfl
@[simp] theorem State.setRow_trust (s : State) (c r : Nat) (bs : List Byte) (p : Bool) : (s.setRow c r bs p).trust = s.trust := rfl
@[simp] theorem State.setRow_bud (s : State) (c r : Nat) (bs : List Byte) (p : Bool) : (s.setRow c r bs p).bud = s.bud := rfl
@[simp] theorem State.setRow_shelf (s : State) (c r : Nat) (bs : List Byte) (p : Bool) : (s.setRow c r bs p).shelf = s.shelf := rfl
@[simp] theorem State.setRow_taken (s : State) (c r : Nat) (bs : List Byte) (p : Bool) : (s.setRow c r bs p).taken = s.taken := rfl
@[simp] theorem State.setRow_host (s : State) (c r : Nat) (bs : List Byte) (p : Bool) : (s.setRow c r bs p).host = s.host := rfl
@[simp] theorem State.setRow_hand (s : State) (c r : Nat) (bs : List Byte) (p : Bool) : (s.setRow c r bs p).hand = s.hand := rfl
@[simp] theorem State.setRow_dumpCfgs (s : State) (c r : Nat) (bs : List Byte) (p : Bool) : (s.setRow c r bs p).dumpCfgs = s.dumpCfgs := rfl
@[simp] theorem State.setRow_dumps (s : State) (c r : Nat) (bs : List Byte) (p : Bool) : (s.setRow c r bs p).dumps = s.dumps := rfl
@[simp] theorem State.setRow_logged (s : State) (c r : Nat) (bs : List Byte) (p : Bool) : (s.setRow c r bs p).logged = s.logged := rfl
@[simp] theorem State.setRow_rotary (s : State) (c r : Nat) (bs : List Byte) (p : Bool) : (s.setRow c r bs p).rotary = s.rotary := rfl
@[simp] theorem State.setRow_tables (s : State) (c r : Nat) (bs : List Byte) (p : Bool) : (s.setRow c r bs p).tables = s.tables := rfl
@[simp] theorem State.setRow_pins (s : State) (c r : Nat) (bs : List Byte) (p : Bool) : (s.setRow c r bs p).pins = s.pins := rfl
@[simp] theorem State.setRow_out (s : State) (c r : Nat) (bs : List Byte) (p : Bool) : (s.setRow c r bs p).out = s.out := rfl
@[simp] theorem State.setRow_free (s : State) (c r : Nat) (bs : List Byte) (p : Bool) : (s.setRow c r bs p).free = s.free := rfl
@[simp] theorem State.rd_setRow (s : State) (c r : Nat) (bs : List Byte) (p : Bool) (g : Fld) (i' j' : Nat) : (s.setRow c r bs p).rd g i' j' = s.rd g i' j' := rfl

/-! ### hbmWrite -/

@[simp] theorem State.hbmWrite_pending (s : State) (p a : Nat) (bs : List Byte) : (s.hbmWrite p a bs).pending = s.pending := rfl
@[simp] theorem State.hbmWrite_regs (s : State) (p a : Nat) (bs : List Byte) : (s.hbmWrite p a bs).regs = s.regs := rfl
@[simp] theorem State.hbmWrite_sched (s : State) (p a : Nat) (bs : List Byte) : (s.hbmWrite p a bs).sched = s.sched := rfl
@[simp] theorem State.hbmWrite_net (s : State) (p a : Nat) (bs : List Byte) : (s.hbmWrite p a bs).net = s.net := rfl
@[simp] theorem State.hbmWrite_kv (s : State) (p a : Nat) (bs : List Byte) : (s.hbmWrite p a bs).kv = s.kv := rfl
@[simp] theorem State.hbmWrite_msys (s : State) (p a : Nat) (bs : List Byte) : (s.hbmWrite p a bs).msys = s.msys := rfl
@[simp] theorem State.hbmWrite_rel (s : State) (p a : Nat) (bs : List Byte) : (s.hbmWrite p a bs).rel = s.rel := rfl
@[simp] theorem State.hbmWrite_trust (s : State) (p a : Nat) (bs : List Byte) : (s.hbmWrite p a bs).trust = s.trust := rfl
@[simp] theorem State.hbmWrite_bud (s : State) (p a : Nat) (bs : List Byte) : (s.hbmWrite p a bs).bud = s.bud := rfl
@[simp] theorem State.hbmWrite_shelf (s : State) (p a : Nat) (bs : List Byte) : (s.hbmWrite p a bs).shelf = s.shelf := rfl
@[simp] theorem State.hbmWrite_taken (s : State) (p a : Nat) (bs : List Byte) : (s.hbmWrite p a bs).taken = s.taken := rfl
@[simp] theorem State.hbmWrite_host (s : State) (p a : Nat) (bs : List Byte) : (s.hbmWrite p a bs).host = s.host := rfl
@[simp] theorem State.hbmWrite_hand (s : State) (p a : Nat) (bs : List Byte) : (s.hbmWrite p a bs).hand = s.hand := rfl
@[simp] theorem State.hbmWrite_dumpCfgs (s : State) (p a : Nat) (bs : List Byte) : (s.hbmWrite p a bs).dumpCfgs = s.dumpCfgs := rfl
@[simp] theorem State.hbmWrite_dumps (s : State) (p a : Nat) (bs : List Byte) : (s.hbmWrite p a bs).dumps = s.dumps := rfl
@[simp] theorem State.hbmWrite_logged (s : State) (p a : Nat) (bs : List Byte) : (s.hbmWrite p a bs).logged = s.logged := rfl
@[simp] theorem State.hbmWrite_rotary (s : State) (p a : Nat) (bs : List Byte) : (s.hbmWrite p a bs).rotary = s.rotary := rfl
@[simp] theorem State.hbmWrite_tables (s : State) (p a : Nat) (bs : List Byte) : (s.hbmWrite p a bs).tables = s.tables := rfl
@[simp] theorem State.hbmWrite_pins (s : State) (p a : Nat) (bs : List Byte) : (s.hbmWrite p a bs).pins = s.pins := rfl
@[simp] theorem State.hbmWrite_out (s : State) (p a : Nat) (bs : List Byte) : (s.hbmWrite p a bs).out = s.out := rfl
@[simp] theorem State.hbmWrite_free (s : State) (p a : Nat) (bs : List Byte) : (s.hbmWrite p a bs).free = s.free := rfl
@[simp] theorem State.rd_hbmWrite (s : State) (p a : Nat) (bs : List Byte) (g : Fld) (i' j' : Nat) : (s.hbmWrite p a bs).rd g i' j' = s.rd g i' j' := rfl

/-! ### setRuns -/

@[simp] theorem State.setRuns_pending (s : State) (p : Nat) (r : PdkRun) : (s.setRuns p r).pending = s.pending := rfl
@[simp] theorem State.setRuns_regs (s : State) (p : Nat) (r : PdkRun) : (s.setRuns p r).regs = s.regs := rfl
@[simp] theorem State.setRuns_mem (s : State) (p : Nat) (r : PdkRun) : (s.setRuns p r).mem = s.mem := rfl
@[simp] theorem State.setRuns_net (s : State) (p : Nat) (r : PdkRun) : (s.setRuns p r).net = s.net := rfl
@[simp] theorem State.setRuns_kv (s : State) (p : Nat) (r : PdkRun) : (s.setRuns p r).kv = s.kv := rfl
@[simp] theorem State.setRuns_msys (s : State) (p : Nat) (r : PdkRun) : (s.setRuns p r).msys = s.msys := rfl
@[simp] theorem State.setRuns_rel (s : State) (p : Nat) (r : PdkRun) : (s.setRuns p r).rel = s.rel := rfl
@[simp] theorem State.setRuns_trust (s : State) (p : Nat) (r : PdkRun) : (s.setRuns p r).trust = s.trust := rfl
@[simp] theorem State.setRuns_bud (s : State) (p : Nat) (r : PdkRun) : (s.setRuns p r).bud = s.bud := rfl
@[simp] theorem State.setRuns_shelf (s : State) (p : Nat) (r : PdkRun) : (s.setRuns p r).shelf = s.shelf := rfl
@[simp] theorem State.setRuns_taken (s : State) (p : Nat) (r : PdkRun) : (s.setRuns p r).taken = s.taken := rfl
@[simp] theorem State.setRuns_host (s : State) (p : Nat) (r : PdkRun) : (s.setRuns p r).host = s.host := rfl
@[simp] theorem State.setRuns_hand (s : State) (p : Nat) (r : PdkRun) : (s.setRuns p r).hand = s.hand := rfl
@[simp] theorem State.setRuns_dumpCfgs (s : State) (p : Nat) (r : PdkRun) : (s.setRuns p r).dumpCfgs = s.dumpCfgs := rfl
@[simp] theorem State.setRuns_dumps (s : State) (p : Nat) (r : PdkRun) : (s.setRuns p r).dumps = s.dumps := rfl
@[simp] theorem State.setRuns_logged (s : State) (p : Nat) (r : PdkRun) : (s.setRuns p r).logged = s.logged := rfl
@[simp] theorem State.setRuns_rotary (s : State) (p : Nat) (r : PdkRun) : (s.setRuns p r).rotary = s.rotary := rfl
@[simp] theorem State.setRuns_tables (s : State) (p : Nat) (r : PdkRun) : (s.setRuns p r).tables = s.tables := rfl
@[simp] theorem State.setRuns_pins (s : State) (p : Nat) (r : PdkRun) : (s.setRuns p r).pins = s.pins := rfl
@[simp] theorem State.setRuns_out (s : State) (p : Nat) (r : PdkRun) : (s.setRuns p r).out = s.out := rfl
@[simp] theorem State.setRuns_free (s : State) (p : Nat) (r : PdkRun) : (s.setRuns p r).free = s.free := rfl
@[simp] theorem State.rd_setRuns (s : State) (p : Nat) (r : PdkRun) (g : Fld) (i' j' : Nat) : (s.setRuns p r).rd g i' j' = s.rd g i' j' := rfl

/-! ### setStream -/

@[simp] theorem State.setStream_pending (s : State) (c side st : Nat) (x : Stream) : (s.setStream c side st x).pending = s.pending := rfl
@[simp] theorem State.setStream_regs (s : State) (c side st : Nat) (x : Stream) : (s.setStream c side st x).regs = s.regs := rfl
@[simp] theorem State.setStream_mem (s : State) (c side st : Nat) (x : Stream) : (s.setStream c side st x).mem = s.mem := rfl
@[simp] theorem State.setStream_net (s : State) (c side st : Nat) (x : Stream) : (s.setStream c side st x).net = s.net := rfl
@[simp] theorem State.setStream_kv (s : State) (c side st : Nat) (x : Stream) : (s.setStream c side st x).kv = s.kv := rfl
@[simp] theorem State.setStream_msys (s : State) (c side st : Nat) (x : Stream) : (s.setStream c side st x).msys = s.msys := rfl
@[simp] theorem State.setStream_rel (s : State) (c side st : Nat) (x : Stream) : (s.setStream c side st x).rel = s.rel := rfl
@[simp] theorem State.setStream_trust (s : State) (c side st : Nat) (x : Stream) : (s.setStream c side st x).trust = s.trust := rfl
@[simp] theorem State.setStream_bud (s : State) (c side st : Nat) (x : Stream) : (s.setStream c side st x).bud = s.bud := rfl
@[simp] theorem State.setStream_shelf (s : State) (c side st : Nat) (x : Stream) : (s.setStream c side st x).shelf = s.shelf := rfl
@[simp] theorem State.setStream_taken (s : State) (c side st : Nat) (x : Stream) : (s.setStream c side st x).taken = s.taken := rfl
@[simp] theorem State.setStream_host (s : State) (c side st : Nat) (x : Stream) : (s.setStream c side st x).host = s.host := rfl
@[simp] theorem State.setStream_hand (s : State) (c side st : Nat) (x : Stream) : (s.setStream c side st x).hand = s.hand := rfl
@[simp] theorem State.setStream_dumpCfgs (s : State) (c side st : Nat) (x : Stream) : (s.setStream c side st x).dumpCfgs = s.dumpCfgs := rfl
@[simp] theorem State.setStream_dumps (s : State) (c side st : Nat) (x : Stream) : (s.setStream c side st x).dumps = s.dumps := rfl
@[simp] theorem State.setStream_logged (s : State) (c side st : Nat) (x : Stream) : (s.setStream c side st x).logged = s.logged := rfl
@[simp] theorem State.setStream_rotary (s : State) (c side st : Nat) (x : Stream) : (s.setStream c side st x).rotary = s.rotary := rfl
@[simp] theorem State.setStream_tables (s : State) (c side st : Nat) (x : Stream) : (s.setStream c side st x).tables = s.tables := rfl
@[simp] theorem State.setStream_pins (s : State) (c side st : Nat) (x : Stream) : (s.setStream c side st x).pins = s.pins := rfl
@[simp] theorem State.setStream_out (s : State) (c side st : Nat) (x : Stream) : (s.setStream c side st x).out = s.out := rfl
@[simp] theorem State.setStream_free (s : State) (c side st : Nat) (x : Stream) : (s.setStream c side st x).free = s.free := rfl
@[simp] theorem State.rd_setStream (s : State) (c side st : Nat) (x : Stream) (g : Fld) (i' j' : Nat) : (s.setStream c side st x).rd g i' j' = s.rd g i' j' := rfl

/-! ### setProg -/

@[simp] theorem State.setProg_pending (s : State) (h : Hdr) (l : List Nat) : (s.setProg h l).pending = s.pending := rfl
@[simp] theorem State.setProg_regs (s : State) (h : Hdr) (l : List Nat) : (s.setProg h l).regs = s.regs := rfl
@[simp] theorem State.setProg_mem (s : State) (h : Hdr) (l : List Nat) : (s.setProg h l).mem = s.mem := rfl
@[simp] theorem State.setProg_sched (s : State) (h : Hdr) (l : List Nat) : (s.setProg h l).sched = s.sched := rfl
@[simp] theorem State.setProg_net (s : State) (h : Hdr) (l : List Nat) : (s.setProg h l).net = s.net := rfl
@[simp] theorem State.setProg_kv (s : State) (h : Hdr) (l : List Nat) : (s.setProg h l).kv = s.kv := rfl
@[simp] theorem State.setProg_msys (s : State) (h : Hdr) (l : List Nat) : (s.setProg h l).msys = s.msys := rfl
@[simp] theorem State.setProg_rel (s : State) (h : Hdr) (l : List Nat) : (s.setProg h l).rel = s.rel := rfl
@[simp] theorem State.setProg_trust (s : State) (h : Hdr) (l : List Nat) : (s.setProg h l).trust = s.trust := rfl
@[simp] theorem State.setProg_bud (s : State) (h : Hdr) (l : List Nat) : (s.setProg h l).bud = s.bud := rfl
@[simp] theorem State.setProg_shelf (s : State) (h : Hdr) (l : List Nat) : (s.setProg h l).shelf = s.shelf := rfl
@[simp] theorem State.setProg_host (s : State) (h : Hdr) (l : List Nat) : (s.setProg h l).host = s.host := rfl
@[simp] theorem State.setProg_hand (s : State) (h : Hdr) (l : List Nat) : (s.setProg h l).hand = s.hand := rfl
@[simp] theorem State.setProg_dumpCfgs (s : State) (h : Hdr) (l : List Nat) : (s.setProg h l).dumpCfgs = s.dumpCfgs := rfl
@[simp] theorem State.setProg_dumps (s : State) (h : Hdr) (l : List Nat) : (s.setProg h l).dumps = s.dumps := rfl
@[simp] theorem State.setProg_logged (s : State) (h : Hdr) (l : List Nat) : (s.setProg h l).logged = s.logged := rfl
@[simp] theorem State.setProg_rotary (s : State) (h : Hdr) (l : List Nat) : (s.setProg h l).rotary = s.rotary := rfl
@[simp] theorem State.setProg_tables (s : State) (h : Hdr) (l : List Nat) : (s.setProg h l).tables = s.tables := rfl
@[simp] theorem State.setProg_pins (s : State) (h : Hdr) (l : List Nat) : (s.setProg h l).pins = s.pins := rfl
@[simp] theorem State.setProg_out (s : State) (h : Hdr) (l : List Nat) : (s.setProg h l).out = s.out := rfl
@[simp] theorem State.setProg_free (s : State) (h : Hdr) (l : List Nat) : (s.setProg h l).free = s.free := rfl
@[simp] theorem State.rd_setProg (s : State) (h : Hdr) (l : List Nat) (g : Fld) (i' j' : Nat) : (s.setProg h l).rd g i' j' = s.rd g i' j' := rfl

/-! ### bump -/

@[simp] theorem State.bump_pending (s : State) (f : Fld) (i j n : Nat) : (s.bump f i j n).pending = s.pending := by simp only [State.bump, apply_ite State.pending, State.wr_pending, ite_self]
@[simp] theorem State.bump_mem (s : State) (f : Fld) (i j n : Nat) : (s.bump f i j n).mem = s.mem := by simp only [State.bump, apply_ite State.mem, State.wr_mem, ite_self]
@[simp] theorem State.bump_sched (s : State) (f : Fld) (i j n : Nat) : (s.bump f i j n).sched = s.sched := by simp only [State.bump, apply_ite State.sched, State.wr_sched, ite_self]
@[simp] theorem State.bump_net (s : State) (f : Fld) (i j n : Nat) : (s.bump f i j n).net = s.net := by simp only [State.bump, apply_ite State.net, State.wr_net, ite_self]
@[simp] theorem State.bump_kv (s : State) (f : Fld) (i j n : Nat) : (s.bump f i j n).kv = s.kv := by simp only [State.bump, apply_ite State.kv, State.wr_kv, ite_self]
@[simp] theorem State.bump_msys (s : State) (f : Fld) (i j n : Nat) : (s.bump f i j n).msys = s.msys := by simp only [State.bump, apply_ite State.msys, State.wr_msys, ite_self]
@[simp] theorem State.bump_rel (s : State) (f : Fld) (i j n : Nat) : (s.bump f i j n).rel = s.rel := by simp only [State.bump, apply_ite State.rel, State.wr_rel, ite_self]
@[simp] theorem State.bump_trust (s : State) (f : Fld) (i j n : Nat) : (s.bump f i j n).trust = s.trust := by simp only [State.bump, apply_ite State.trust, State.wr_trust, ite_self]
@[simp] theorem State.bump_bud (s : State) (f : Fld) (i j n : Nat) : (s.bump f i j n).bud = s.bud := by simp only [State.bump, apply_ite State.bud, State.wr_bud, ite_self]
@[simp] theorem State.bump_shelf (s : State) (f : Fld) (i j n : Nat) : (s.bump f i j n).shelf = s.shelf := by simp only [State.bump, apply_ite State.shelf, State.wr_shelf, ite_self]
@[simp] theorem State.bump_taken (s : State) (f : Fld) (i j n : Nat) : (s.bump f i j n).taken = s.taken := by simp only [State.bump, apply_ite State.taken, State.wr_taken, ite_self]
@[simp] theorem State.bump_host (s : State) (f : Fld) (i j n : Nat) : (s.bump f i j n).host = s.host := by simp only [State.bump, apply_ite State.host, State.wr_host, ite_self]
@[simp] theorem State.bump_hand (s : State) (f : Fld) (i j n : Nat) : (s.bump f i j n).hand = s.hand := by simp only [State.bump, apply_ite State.hand, State.wr_hand, ite_self]
@[simp] theorem State.bump_dumpCfgs (s : State) (f : Fld) (i j n : Nat) : (s.bump f i j n).dumpCfgs = s.dumpCfgs := by simp only [State.bump, apply_ite State.dumpCfgs, State.wr_dumpCfgs, ite_self]
@[simp] theorem State.bump_dumps (s : State) (f : Fld) (i j n : Nat) : (s.bump f i j n).dumps = s.dumps := by simp only [State.bump, apply_ite State.dumps, State.wr_dumps, ite_self]
@[simp] theorem State.bump_logged (s : State) (f : Fld) (i j n : Nat) : (s.bump f i j n).logged = s.logged := by simp only [State.bump, apply_ite State.logged, State.wr_logged, ite_self]
@[simp] theorem State.bump_rotary (s : State) (f : Fld) (i j n : Nat) : (s.bump f i j n).rotary = s.rotary := by simp only [State.bump, apply_ite State.rotary, State.wr_rotary, ite_self]
@[simp] theorem State.bump_tables (s : State) (f : Fld) (i j n : Nat) : (s.bump f i j n).tables = s.tables := by simp only [State.bump, apply_ite State.tables, State.wr_tables, ite_self]
@[simp] theorem State.bump_pins (s : State) (f : Fld) (i j n : Nat) : (s.bump f i j n).pins = s.pins := by simp only [State.bump, apply_ite State.pins, State.wr_pins, ite_self]
@[simp] theorem State.bump_out (s : State) (f : Fld) (i j n : Nat) : (s.bump f i j n).out = s.out := by simp only [State.bump, apply_ite State.out, State.wr_out, ite_self]
@[simp] theorem State.bump_free (s : State) (f : Fld) (i j n : Nat) : (s.bump f i j n).free = s.free := by simp only [State.bump, apply_ite State.free, State.wr_free, ite_self]

/-! ### satAdd -/

@[simp] theorem State.satAdd_pending (s : State) (f : Fld) (i n j : Nat) : (s.satAdd f i n j).pending = s.pending := rfl
@[simp] theorem State.satAdd_mem (s : State) (f : Fld) (i n j : Nat) : (s.satAdd f i n j).mem = s.mem := rfl
@[simp] theorem State.satAdd_sched (s : State) (f : Fld) (i n j : Nat) : (s.satAdd f i n j).sched = s.sched := rfl
@[simp] theorem State.satAdd_net (s : State) (f : Fld) (i n j : Nat) : (s.satAdd f i n j).net = s.net := rfl
@[simp] theorem State.satAdd_kv (s : State) (f : Fld) (i n j : Nat) : (s.satAdd f i n j).kv = s.kv := rfl
@[simp] theorem State.satAdd_msys (s : State) (f : Fld) (i n j : Nat) : (s.satAdd f i n j).msys = s.msys := rfl
@[simp] theorem State.satAdd_rel (s : State) (f : Fld) (i n j : Nat) : (s.satAdd f i n j).rel = s.rel := rfl
@[simp] theorem State.satAdd_trust (s : State) (f : Fld) (i n j : Nat) : (s.satAdd f i n j).trust = s.trust := rfl
@[simp] theorem State.satAdd_bud (s : State) (f : Fld) (i n j : Nat) : (s.satAdd f i n j).bud = s.bud := rfl
@[simp] theorem State.satAdd_shelf (s : State) (f : Fld) (i n j : Nat) : (s.satAdd f i n j).shelf = s.shelf := rfl
@[simp] theorem State.satAdd_taken (s : State) (f : Fld) (i n j : Nat) : (s.satAdd f i n j).taken = s.taken := rfl
@[simp] theorem State.satAdd_host (s : State) (f : Fld) (i n j : Nat) : (s.satAdd f i n j).host = s.host := rfl
@[simp] theorem State.satAdd_hand (s : State) (f : Fld) (i n j : Nat) : (s.satAdd f i n j).hand = s.hand := rfl
@[simp] theorem State.satAdd_dumpCfgs (s : State) (f : Fld) (i n j : Nat) : (s.satAdd f i n j).dumpCfgs = s.dumpCfgs := rfl
@[simp] theorem State.satAdd_dumps (s : State) (f : Fld) (i n j : Nat) : (s.satAdd f i n j).dumps = s.dumps := rfl
@[simp] theorem State.satAdd_logged (s : State) (f : Fld) (i n j : Nat) : (s.satAdd f i n j).logged = s.logged := rfl
@[simp] theorem State.satAdd_rotary (s : State) (f : Fld) (i n j : Nat) : (s.satAdd f i n j).rotary = s.rotary := rfl
@[simp] theorem State.satAdd_tables (s : State) (f : Fld) (i n j : Nat) : (s.satAdd f i n j).tables = s.tables := rfl
@[simp] theorem State.satAdd_pins (s : State) (f : Fld) (i n j : Nat) : (s.satAdd f i n j).pins = s.pins := rfl
@[simp] theorem State.satAdd_out (s : State) (f : Fld) (i n j : Nat) : (s.satAdd f i n j).out = s.out := rfl
@[simp] theorem State.satAdd_free (s : State) (f : Fld) (i n j : Nat) : (s.satAdd f i n j).free = s.free := rfl

/-! ### dropTaken -/

@[simp] theorem State.dropTaken_pending (s : State) (h : Hdr) : (s.dropTaken h).pending = s.pending := by unfold State.dropTaken; split <;> simp only [apply_ite State.pending, State.wr_pending, ite_self]
@[simp] theorem State.dropTaken_mem (s : State) (h : Hdr) : (s.dropTaken h).mem = s.mem := by unfold State.dropTaken; split <;> simp only [apply_ite State.mem, State.wr_mem, ite_self]
@[simp] theorem State.dropTaken_sched (s : State) (h : Hdr) : (s.dropTaken h).sched = s.sched := by unfold State.dropTaken; split <;> simp only [apply_ite State.sched, State.wr_sched, ite_self]
@[simp] theorem State.dropTaken_net (s : State) (h : Hdr) : (s.dropTaken h).net = s.net := by unfold State.dropTaken; split <;> simp only [apply_ite State.net, State.wr_net, ite_self]
@[simp] theorem State.dropTaken_kv (s : State) (h : Hdr) : (s.dropTaken h).kv = s.kv := by unfold State.dropTaken; split <;> simp only [apply_ite State.kv, State.wr_kv, ite_self]
@[simp] theorem State.dropTaken_msys (s : State) (h : Hdr) : (s.dropTaken h).msys = s.msys := by unfold State.dropTaken; split <;> simp only [apply_ite State.msys, State.wr_msys, ite_self]
@[simp] theorem State.dropTaken_rel (s : State) (h : Hdr) : (s.dropTaken h).rel = s.rel := by unfold State.dropTaken; split <;> simp only [apply_ite State.rel, State.wr_rel, ite_self]
@[simp] theorem State.dropTaken_trust (s : State) (h : Hdr) : (s.dropTaken h).trust = s.trust := by unfold State.dropTaken; split <;> simp only [apply_ite State.trust, State.wr_trust, ite_self]
@[simp] theorem State.dropTaken_bud (s : State) (h : Hdr) : (s.dropTaken h).bud = s.bud := by unfold State.dropTaken; split <;> simp only [apply_ite State.bud, State.wr_bud, ite_self]
@[simp] theorem State.dropTaken_shelf (s : State) (h : Hdr) : (s.dropTaken h).shelf = s.shelf := by unfold State.dropTaken; split <;> simp only [apply_ite State.shelf, State.wr_shelf, ite_self]
@[simp] theorem State.dropTaken_host (s : State) (h : Hdr) : (s.dropTaken h).host = s.host := by unfold State.dropTaken; split <;> simp only [apply_ite State.host, State.wr_host, ite_self]
@[simp] theorem State.dropTaken_hand (s : State) (h : Hdr) : (s.dropTaken h).hand = s.hand := by unfold State.dropTaken; split <;> simp only [apply_ite State.hand, State.wr_hand, ite_self]
@[simp] theorem State.dropTaken_dumpCfgs (s : State) (h : Hdr) : (s.dropTaken h).dumpCfgs = s.dumpCfgs := by unfold State.dropTaken; split <;> simp only [apply_ite State.dumpCfgs, State.wr_dumpCfgs, ite_self]
@[simp] theorem State.dropTaken_dumps (s : State) (h : Hdr) : (s.dropTaken h).dumps = s.dumps := by unfold State.dropTaken; split <;> simp only [apply_ite State.dumps, State.wr_dumps, ite_self]
@[simp] theorem State.dropTaken_logged (s : State) (h : Hdr) : (s.dropTaken h).logged = s.logged := by unfold State.dropTaken; split <;> simp only [apply_ite State.logged, State.wr_logged, ite_self]
@[simp] theorem State.dropTaken_rotary (s : State) (h : Hdr) : (s.dropTaken h).rotary = s.rotary := by unfold State.dropTaken; split <;> simp only [apply_ite State.rotary, State.wr_rotary, ite_self]
@[simp] theorem State.dropTaken_tables (s : State) (h : Hdr) : (s.dropTaken h).tables = s.tables := by unfold State.dropTaken; split <;> simp only [apply_ite State.tables, State.wr_tables, ite_self]
@[simp] theorem State.dropTaken_pins (s : State) (h : Hdr) : (s.dropTaken h).pins = s.pins := by unfold State.dropTaken; split <;> simp only [apply_ite State.pins, State.wr_pins, ite_self]
@[simp] theorem State.dropTaken_out (s : State) (h : Hdr) : (s.dropTaken h).out = s.out := by unfold State.dropTaken; split <;> simp only [apply_ite State.out, State.wr_out, ite_self]
@[simp] theorem State.dropTaken_free (s : State) (h : Hdr) : (s.dropTaken h).free = s.free := by unfold State.dropTaken; split <;> simp only [apply_ite State.free, State.wr_free, ite_self]

/-! ### msix -/

@[simp] theorem State.msix_pending (s : State) (fn v : Nat) : (s.msix fn v).pending = s.pending := by simp only [State.msix, apply_ite State.pending, State.emit_pending, ite_self]
@[simp] theorem State.msix_regs (s : State) (fn v : Nat) : (s.msix fn v).regs = s.regs := by simp only [State.msix, apply_ite State.regs, State.emit_regs, ite_self]
@[simp] theorem State.msix_mem (s : State) (fn v : Nat) : (s.msix fn v).mem = s.mem := by simp only [State.msix, apply_ite State.mem, State.emit_mem, ite_self]
@[simp] theorem State.msix_sched (s : State) (fn v : Nat) : (s.msix fn v).sched = s.sched := by simp only [State.msix, apply_ite State.sched, State.emit_sched, ite_self]
@[simp] theorem State.msix_net (s : State) (fn v : Nat) : (s.msix fn v).net = s.net := by simp only [State.msix, apply_ite State.net, State.emit_net, ite_self]
@[simp] theorem State.msix_kv (s : State) (fn v : Nat) : (s.msix fn v).kv = s.kv := by simp only [State.msix, apply_ite State.kv, State.emit_kv, ite_self]
@[simp] theorem State.msix_msys (s : State) (fn v : Nat) : (s.msix fn v).msys = s.msys := by simp only [State.msix, apply_ite State.msys, State.emit_msys, ite_self]
@[simp] theorem State.msix_rel (s : State) (fn v : Nat) : (s.msix fn v).rel = s.rel := by simp only [State.msix, apply_ite State.rel, State.emit_rel, ite_self]
@[simp] theorem State.msix_trust (s : State) (fn v : Nat) : (s.msix fn v).trust = s.trust := by simp only [State.msix, apply_ite State.trust, State.emit_trust, ite_self]
@[simp] theorem State.msix_bud (s : State) (fn v : Nat) : (s.msix fn v).bud = s.bud := by simp only [State.msix, apply_ite State.bud, State.emit_bud, ite_self]
@[simp] theorem State.msix_shelf (s : State) (fn v : Nat) : (s.msix fn v).shelf = s.shelf := by simp only [State.msix, apply_ite State.shelf, State.emit_shelf, ite_self]
@[simp] theorem State.msix_taken (s : State) (fn v : Nat) : (s.msix fn v).taken = s.taken := by simp only [State.msix, apply_ite State.taken, State.emit_taken, ite_self]
@[simp] theorem State.msix_hand (s : State) (fn v : Nat) : (s.msix fn v).hand = s.hand := by simp only [State.msix, apply_ite State.hand, State.emit_hand, ite_self]
@[simp] theorem State.msix_dumpCfgs (s : State) (fn v : Nat) : (s.msix fn v).dumpCfgs = s.dumpCfgs := by simp only [State.msix, apply_ite State.dumpCfgs, State.emit_dumpCfgs, ite_self]
@[simp] theorem State.msix_dumps (s : State) (fn v : Nat) : (s.msix fn v).dumps = s.dumps := by simp only [State.msix, apply_ite State.dumps, State.emit_dumps, ite_self]
@[simp] theorem State.msix_logged (s : State) (fn v : Nat) : (s.msix fn v).logged = s.logged := by simp only [State.msix, apply_ite State.logged, State.emit_logged, ite_self]
@[simp] theorem State.msix_rotary (s : State) (fn v : Nat) : (s.msix fn v).rotary = s.rotary := by simp only [State.msix, apply_ite State.rotary, State.emit_rotary, ite_self]
@[simp] theorem State.msix_tables (s : State) (fn v : Nat) : (s.msix fn v).tables = s.tables := by simp only [State.msix, apply_ite State.tables, State.emit_tables, ite_self]
@[simp] theorem State.msix_pins (s : State) (fn v : Nat) : (s.msix fn v).pins = s.pins := by simp only [State.msix, apply_ite State.pins, State.emit_pins, ite_self]
@[simp] theorem State.msix_free (s : State) (fn v : Nat) : (s.msix fn v).free = s.free := by simp only [State.msix, apply_ite State.free, State.emit_free, ite_self]
@[simp] theorem State.rd_msix (s : State) (fn v : Nat) (g : Fld) (i' j' : Nat) : (s.msix fn v).rd g i' j' = s.rd g i' j' := by simp only [State.rd, State.msix_regs]

/-! ### start -/

@[simp] theorem State.start_pending (s : State) (h : Hdr) (op : Nat) (c : Option Instr) (l : List Nat) : (s.start h op c l).pending = s.pending := by unfold State.start; split <;> simp only [apply_ite State.pending, State.wr_pending, ite_self]
@[simp] theorem State.start_mem (s : State) (h : Hdr) (op : Nat) (c : Option Instr) (l : List Nat) : (s.start h op c l).mem = s.mem := by unfold State.start; split <;> simp only [apply_ite State.mem, State.wr_mem, ite_self]
@[simp] theorem State.start_sched (s : State) (h : Hdr) (op : Nat) (c : Option Instr) (l : List Nat) : (s.start h op c l).sched = s.sched := by unfold State.start; split <;> simp only [apply_ite State.sched, State.wr_sched, ite_self]
@[simp] theorem State.start_net (s : State) (h : Hdr) (op : Nat) (c : Option Instr) (l : List Nat) : (s.start h op c l).net = s.net := by unfold State.start; split <;> simp only [apply_ite State.net, State.wr_net, ite_self]
@[simp] theorem State.start_kv (s : State) (h : Hdr) (op : Nat) (c : Option Instr) (l : List Nat) : (s.start h op c l).kv = s.kv := by unfold State.start; split <;> simp only [apply_ite State.kv, State.wr_kv, ite_self]
@[simp] theorem State.start_msys (s : State) (h : Hdr) (op : Nat) (c : Option Instr) (l : List Nat) : (s.start h op c l).msys = s.msys := by unfold State.start; split <;> simp only [apply_ite State.msys, State.wr_msys, ite_self]
@[simp] theorem State.start_rel (s : State) (h : Hdr) (op : Nat) (c : Option Instr) (l : List Nat) : (s.start h op c l).rel = s.rel := by unfold State.start; split <;> simp only [apply_ite State.rel, State.wr_rel, ite_self]
@[simp] theorem State.start_trust (s : State) (h : Hdr) (op : Nat) (c : Option Instr) (l : List Nat) : (s.start h op c l).trust = s.trust := by unfold State.start; split <;> simp only [apply_ite State.trust, State.wr_trust, ite_self]
@[simp] theorem State.start_bud (s : State) (h : Hdr) (op : Nat) (c : Option Instr) (l : List Nat) : (s.start h op c l).bud = s.bud := by unfold State.start; split <;> simp only [apply_ite State.bud, State.wr_bud, ite_self]
@[simp] theorem State.start_shelf (s : State) (h : Hdr) (op : Nat) (c : Option Instr) (l : List Nat) : (s.start h op c l).shelf = s.shelf := by unfold State.start; split <;> simp only [apply_ite State.shelf, State.wr_shelf, ite_self]
@[simp] theorem State.start_host (s : State) (h : Hdr) (op : Nat) (c : Option Instr) (l : List Nat) : (s.start h op c l).host = s.host := by unfold State.start; split <;> simp only [apply_ite State.host, State.wr_host, ite_self]
@[simp] theorem State.start_hand (s : State) (h : Hdr) (op : Nat) (c : Option Instr) (l : List Nat) : (s.start h op c l).hand = s.hand := by unfold State.start; split <;> simp only [apply_ite State.hand, State.wr_hand, ite_self]
@[simp] theorem State.start_dumpCfgs (s : State) (h : Hdr) (op : Nat) (c : Option Instr) (l : List Nat) : (s.start h op c l).dumpCfgs = s.dumpCfgs := by unfold State.start; split <;> simp only [apply_ite State.dumpCfgs, State.wr_dumpCfgs, ite_self]
@[simp] theorem State.start_dumps (s : State) (h : Hdr) (op : Nat) (c : Option Instr) (l : List Nat) : (s.start h op c l).dumps = s.dumps := by unfold State.start; split <;> simp only [apply_ite State.dumps, State.wr_dumps, ite_self]
@[simp] theorem State.start_logged (s : State) (h : Hdr) (op : Nat) (c : Option Instr) (l : List Nat) : (s.start h op c l).logged = s.logged := by unfold State.start; split <;> simp only [apply_ite State.logged, State.wr_logged, ite_self]
@[simp] theorem State.start_rotary (s : State) (h : Hdr) (op : Nat) (c : Option Instr) (l : List Nat) : (s.start h op c l).rotary = s.rotary := by unfold State.start; split <;> simp only [apply_ite State.rotary, State.wr_rotary, ite_self]
@[simp] theorem State.start_tables (s : State) (h : Hdr) (op : Nat) (c : Option Instr) (l : List Nat) : (s.start h op c l).tables = s.tables := by unfold State.start; split <;> simp only [apply_ite State.tables, State.wr_tables, ite_self]
@[simp] theorem State.start_pins (s : State) (h : Hdr) (op : Nat) (c : Option Instr) (l : List Nat) : (s.start h op c l).pins = s.pins := by unfold State.start; split <;> simp only [apply_ite State.pins, State.wr_pins, ite_self]
@[simp] theorem State.start_out (s : State) (h : Hdr) (op : Nat) (c : Option Instr) (l : List Nat) : (s.start h op c l).out = s.out := by unfold State.start; split <;> simp only [apply_ite State.out, State.wr_out, ite_self]
@[simp] theorem State.start_free (s : State) (h : Hdr) (op : Nat) (c : Option Instr) (l : List Nat) : (s.start h op c l).free = s.free := by unfold State.start; split <;> simp only [apply_ite State.free, State.wr_free, ite_self]

/-! ### advanceCq -/

@[simp] theorem State.advanceCq_pending (s : State) (fn q : Nat) : (s.advanceCq fn q).pending = s.pending := by simp only [State.advanceCq, apply_ite State.pending, State.wr_pending, ite_self]
@[simp] theorem State.advanceCq_mem (s : State) (fn q : Nat) : (s.advanceCq fn q).mem = s.mem := by simp only [State.advanceCq, apply_ite State.mem, State.wr_mem, ite_self]
@[simp] theorem State.advanceCq_sched (s : State) (fn q : Nat) : (s.advanceCq fn q).sched = s.sched := by simp only [State.advanceCq, apply_ite State.sched, State.wr_sched, ite_self]
@[simp] theorem State.advanceCq_net (s : State) (fn q : Nat) : (s.advanceCq fn q).net = s.net := by simp only [State.advanceCq, apply_ite State.net, State.wr_net, ite_self]
@[simp] theorem State.advanceCq_kv (s : State) (fn q : Nat) : (s.advanceCq fn q).kv = s.kv := by simp only [State.advanceCq, apply_ite State.kv, State.wr_kv, ite_self]
@[simp] theorem State.advanceCq_msys (s : State) (fn q : Nat) : (s.advanceCq fn q).msys = s.msys := by simp only [State.advanceCq, apply_ite State.msys, State.wr_msys, ite_self]
@[simp] theorem State.advanceCq_rel (s : State) (fn q : Nat) : (s.advanceCq fn q).rel = s.rel := by simp only [State.advanceCq, apply_ite State.rel, State.wr_rel, ite_self]
@[simp] theorem State.advanceCq_trust (s : State) (fn q : Nat) : (s.advanceCq fn q).trust = s.trust := by simp only [State.advanceCq, apply_ite State.trust, State.wr_trust, ite_self]
@[simp] theorem State.advanceCq_bud (s : State) (fn q : Nat) : (s.advanceCq fn q).bud = s.bud := by simp only [State.advanceCq, apply_ite State.bud, State.wr_bud, ite_self]
@[simp] theorem State.advanceCq_shelf (s : State) (fn q : Nat) : (s.advanceCq fn q).shelf = s.shelf := by simp only [State.advanceCq, apply_ite State.shelf, State.wr_shelf, ite_self]
@[simp] theorem State.advanceCq_taken (s : State) (fn q : Nat) : (s.advanceCq fn q).taken = s.taken := by simp only [State.advanceCq, apply_ite State.taken, State.wr_taken, ite_self]
@[simp] theorem State.advanceCq_host (s : State) (fn q : Nat) : (s.advanceCq fn q).host = s.host := by simp only [State.advanceCq, apply_ite State.host, State.wr_host, ite_self]
@[simp] theorem State.advanceCq_hand (s : State) (fn q : Nat) : (s.advanceCq fn q).hand = s.hand := by simp only [State.advanceCq, apply_ite State.hand, State.wr_hand, ite_self]
@[simp] theorem State.advanceCq_dumpCfgs (s : State) (fn q : Nat) : (s.advanceCq fn q).dumpCfgs = s.dumpCfgs := by simp only [State.advanceCq, apply_ite State.dumpCfgs, State.wr_dumpCfgs, ite_self]
@[simp] theorem State.advanceCq_dumps (s : State) (fn q : Nat) : (s.advanceCq fn q).dumps = s.dumps := by simp only [State.advanceCq, apply_ite State.dumps, State.wr_dumps, ite_self]
@[simp] theorem State.advanceCq_logged (s : State) (fn q : Nat) : (s.advanceCq fn q).logged = s.logged := by simp only [State.advanceCq, apply_ite State.logged, State.wr_logged, ite_self]
@[simp] theorem State.advanceCq_rotary (s : State) (fn q : Nat) : (s.advanceCq fn q).rotary = s.rotary := by simp only [State.advanceCq, apply_ite State.rotary, State.wr_rotary, ite_self]
@[simp] theorem State.advanceCq_tables (s : State) (fn q : Nat) : (s.advanceCq fn q).tables = s.tables := by simp only [State.advanceCq, apply_ite State.tables, State.wr_tables, ite_self]
@[simp] theorem State.advanceCq_pins (s : State) (fn q : Nat) : (s.advanceCq fn q).pins = s.pins := by simp only [State.advanceCq, apply_ite State.pins, State.wr_pins, ite_self]
@[simp] theorem State.advanceCq_out (s : State) (fn q : Nat) : (s.advanceCq fn q).out = s.out := by simp only [State.advanceCq, apply_ite State.out, State.wr_out, ite_self]
@[simp] theorem State.advanceCq_free (s : State) (fn q : Nat) : (s.advanceCq fn q).free = s.free := by simp only [State.advanceCq, apply_ite State.free, State.wr_free, ite_self]

/-! ### complete -/

@[simp] theorem State.complete_pending (s : State) (h : Hdr) (st r n : Nat) (k : Bool) : (s.complete h st r n k).pending = s.pending := by simp only [State.complete, apply_ite State.pending, State.msix_pending, State.bump_pending, State.advanceCq_pending, State.emit_pending, State.dropTaken_pending, ite_self]
@[simp] theorem State.complete_mem (s : State) (h : Hdr) (st r n : Nat) (k : Bool) : (s.complete h st r n k).mem = s.mem := by simp only [State.complete, apply_ite State.mem, State.msix_mem, State.bump_mem, State.advanceCq_mem, State.emit_mem, State.dropTaken_mem, ite_self]
@[simp] theorem State.complete_sched (s : State) (h : Hdr) (st r n : Nat) (k : Bool) : (s.complete h st r n k).sched = s.sched := by simp only [State.complete, apply_ite State.sched, State.msix_sched, State.bump_sched, State.advanceCq_sched, State.emit_sched, State.dropTaken_sched, ite_self]
@[simp] theorem State.complete_net (s : State) (h : Hdr) (st r n : Nat) (k : Bool) : (s.complete h st r n k).net = s.net := by simp only [State.complete, apply_ite State.net, State.msix_net, State.bump_net, State.advanceCq_net, State.emit_net, State.dropTaken_net, ite_self]
@[simp] theorem State.complete_kv (s : State) (h : Hdr) (st r n : Nat) (k : Bool) : (s.complete h st r n k).kv = s.kv := by simp only [State.complete, apply_ite State.kv, State.msix_kv, State.bump_kv, State.advanceCq_kv, State.emit_kv, State.dropTaken_kv, ite_self]
@[simp] theorem State.complete_msys (s : State) (h : Hdr) (st r n : Nat) (k : Bool) : (s.complete h st r n k).msys = s.msys := by simp only [State.complete, apply_ite State.msys, State.msix_msys, State.bump_msys, State.advanceCq_msys, State.emit_msys, State.dropTaken_msys, ite_self]
@[simp] theorem State.complete_rel (s : State) (h : Hdr) (st r n : Nat) (k : Bool) : (s.complete h st r n k).rel = s.rel := by simp only [State.complete, apply_ite State.rel, State.msix_rel, State.bump_rel, State.advanceCq_rel, State.emit_rel, State.dropTaken_rel, ite_self]
@[simp] theorem State.complete_trust (s : State) (h : Hdr) (st r n : Nat) (k : Bool) : (s.complete h st r n k).trust = s.trust := by simp only [State.complete, apply_ite State.trust, State.msix_trust, State.bump_trust, State.advanceCq_trust, State.emit_trust, State.dropTaken_trust, ite_self]
@[simp] theorem State.complete_bud (s : State) (h : Hdr) (st r n : Nat) (k : Bool) : (s.complete h st r n k).bud = s.bud := by simp only [State.complete, apply_ite State.bud, State.msix_bud, State.bump_bud, State.advanceCq_bud, State.emit_bud, State.dropTaken_bud, ite_self]
@[simp] theorem State.complete_shelf (s : State) (h : Hdr) (st r n : Nat) (k : Bool) : (s.complete h st r n k).shelf = s.shelf := by simp only [State.complete, apply_ite State.shelf, State.msix_shelf, State.bump_shelf, State.advanceCq_shelf, State.emit_shelf, State.dropTaken_shelf, ite_self]
@[simp] theorem State.complete_hand (s : State) (h : Hdr) (st r n : Nat) (k : Bool) : (s.complete h st r n k).hand = s.hand := by simp only [State.complete, apply_ite State.hand, State.msix_hand, State.bump_hand, State.advanceCq_hand, State.emit_hand, State.dropTaken_hand, ite_self]
@[simp] theorem State.complete_dumpCfgs (s : State) (h : Hdr) (st r n : Nat) (k : Bool) : (s.complete h st r n k).dumpCfgs = s.dumpCfgs := by simp only [State.complete, apply_ite State.dumpCfgs, State.msix_dumpCfgs, State.bump_dumpCfgs, State.advanceCq_dumpCfgs, State.emit_dumpCfgs, State.dropTaken_dumpCfgs, ite_self]
@[simp] theorem State.complete_dumps (s : State) (h : Hdr) (st r n : Nat) (k : Bool) : (s.complete h st r n k).dumps = s.dumps := by simp only [State.complete, apply_ite State.dumps, State.msix_dumps, State.bump_dumps, State.advanceCq_dumps, State.emit_dumps, State.dropTaken_dumps, ite_self]
@[simp] theorem State.complete_logged (s : State) (h : Hdr) (st r n : Nat) (k : Bool) : (s.complete h st r n k).logged = s.logged := by simp only [State.complete, apply_ite State.logged, State.msix_logged, State.bump_logged, State.advanceCq_logged, State.emit_logged, State.dropTaken_logged, ite_self]
@[simp] theorem State.complete_rotary (s : State) (h : Hdr) (st r n : Nat) (k : Bool) : (s.complete h st r n k).rotary = s.rotary := by simp only [State.complete, apply_ite State.rotary, State.msix_rotary, State.bump_rotary, State.advanceCq_rotary, State.emit_rotary, State.dropTaken_rotary, ite_self]
@[simp] theorem State.complete_tables (s : State) (h : Hdr) (st r n : Nat) (k : Bool) : (s.complete h st r n k).tables = s.tables := by simp only [State.complete, apply_ite State.tables, State.msix_tables, State.bump_tables, State.advanceCq_tables, State.emit_tables, State.dropTaken_tables, ite_self]
@[simp] theorem State.complete_pins (s : State) (h : Hdr) (st r n : Nat) (k : Bool) : (s.complete h st r n k).pins = s.pins := by simp only [State.complete, apply_ite State.pins, State.msix_pins, State.bump_pins, State.advanceCq_pins, State.emit_pins, State.dropTaken_pins, ite_self]
@[simp] theorem State.complete_free (s : State) (h : Hdr) (st r n : Nat) (k : Bool) : (s.complete h st r n k).free = s.free := by simp only [State.complete, apply_ite State.free, State.msix_free, State.bump_free, State.advanceCq_free, State.emit_free, State.dropTaken_free, ite_self]

/-! ### event -/

@[simp] theorem State.event_pending (s : State) (fn c st d p : Nat) : (s.event fn c st d p).pending = s.pending := by (unfold State.event; dsimp only; split; { rfl }; split; { simp only [State.bump_pending] }; { rw [State.msix_pending, apply_ite State.pending]; exact ite_both rfl rfl })
@[simp] theorem State.event_mem (s : State) (fn c st d p : Nat) : (s.event fn c st d p).mem = s.mem := by (unfold State.event; dsimp only; split; { rfl }; split; { simp only [State.bump_mem] }; { rw [State.msix_mem, apply_ite State.mem]; exact ite_both rfl rfl })
@[simp] theorem State.event_sched (s : State) (fn c st d p : Nat) : (s.event fn c st d p).sched = s.sched := by (unfold State.event; dsimp only; split; { rfl }; split; { simp only [State.bump_sched] }; { rw [State.msix_sched, apply_ite State.sched]; exact ite_both rfl rfl })
@[simp] theorem State.event_net (s : State) (fn c st d p : Nat) : (s.event fn c st d p).net = s.net := by (unfold State.event; dsimp only; split; { rfl }; split; { simp only [State.bump_net] }; { rw [State.msix_net, apply_ite State.net]; exact ite_both rfl rfl })
@[simp] theorem State.event_kv (s : State) (fn c st d p : Nat) : (s.event fn c st d p).kv = s.kv := by (unfold State.event; dsimp only; split; { rfl }; split; { simp only [State.bump_kv] }; { rw [State.msix_kv, apply_ite State.kv]; exact ite_both rfl rfl })
@[simp] theorem State.event_msys (s : State) (fn c st d p : Nat) : (s.event fn c st d p).msys = s.msys := by (unfold State.event; dsimp only; split; { rfl }; split; { simp only [State.bump_msys] }; { rw [State.msix_msys, apply_ite State.msys]; exact ite_both rfl rfl })
@[simp] theorem State.event_rel (s : State) (fn c st d p : Nat) : (s.event fn c st d p).rel = s.rel := by (unfold State.event; dsimp only; split; { rfl }; split; { simp only [State.bump_rel] }; { rw [State.msix_rel, apply_ite State.rel]; exact ite_both rfl rfl })
@[simp] theorem State.event_trust (s : State) (fn c st d p : Nat) : (s.event fn c st d p).trust = s.trust := by (unfold State.event; dsimp only; split; { rfl }; split; { simp only [State.bump_trust] }; { rw [State.msix_trust, apply_ite State.trust]; exact ite_both rfl rfl })
@[simp] theorem State.event_bud (s : State) (fn c st d p : Nat) : (s.event fn c st d p).bud = s.bud := by (unfold State.event; dsimp only; split; { rfl }; split; { simp only [State.bump_bud] }; { rw [State.msix_bud, apply_ite State.bud]; exact ite_both rfl rfl })
@[simp] theorem State.event_shelf (s : State) (fn c st d p : Nat) : (s.event fn c st d p).shelf = s.shelf := by (unfold State.event; dsimp only; split; { rfl }; split; { simp only [State.bump_shelf] }; { rw [State.msix_shelf, apply_ite State.shelf]; exact ite_both rfl rfl })
@[simp] theorem State.event_taken (s : State) (fn c st d p : Nat) : (s.event fn c st d p).taken = s.taken := by (unfold State.event; dsimp only; split; { rfl }; split; { simp only [State.bump_taken] }; { rw [State.msix_taken, apply_ite State.taken]; exact ite_both rfl rfl })
@[simp] theorem State.event_hand (s : State) (fn c st d p : Nat) : (s.event fn c st d p).hand = s.hand := by (unfold State.event; dsimp only; split; { rfl }; split; { simp only [State.bump_hand] }; { rw [State.msix_hand, apply_ite State.hand]; exact ite_both rfl rfl })
@[simp] theorem State.event_dumpCfgs (s : State) (fn c st d p : Nat) : (s.event fn c st d p).dumpCfgs = s.dumpCfgs := by (unfold State.event; dsimp only; split; { rfl }; split; { simp only [State.bump_dumpCfgs] }; { rw [State.msix_dumpCfgs, apply_ite State.dumpCfgs]; exact ite_both rfl rfl })
@[simp] theorem State.event_dumps (s : State) (fn c st d p : Nat) : (s.event fn c st d p).dumps = s.dumps := by (unfold State.event; dsimp only; split; { rfl }; split; { simp only [State.bump_dumps] }; { rw [State.msix_dumps, apply_ite State.dumps]; exact ite_both rfl rfl })
@[simp] theorem State.event_logged (s : State) (fn c st d p : Nat) : (s.event fn c st d p).logged = s.logged := by (unfold State.event; dsimp only; split; { rfl }; split; { simp only [State.bump_logged] }; { rw [State.msix_logged, apply_ite State.logged]; exact ite_both rfl rfl })
@[simp] theorem State.event_rotary (s : State) (fn c st d p : Nat) : (s.event fn c st d p).rotary = s.rotary := by (unfold State.event; dsimp only; split; { rfl }; split; { simp only [State.bump_rotary] }; { rw [State.msix_rotary, apply_ite State.rotary]; exact ite_both rfl rfl })
@[simp] theorem State.event_tables (s : State) (fn c st d p : Nat) : (s.event fn c st d p).tables = s.tables := by (unfold State.event; dsimp only; split; { rfl }; split; { simp only [State.bump_tables] }; { rw [State.msix_tables, apply_ite State.tables]; exact ite_both rfl rfl })
@[simp] theorem State.event_pins (s : State) (fn c st d p : Nat) : (s.event fn c st d p).pins = s.pins := by (unfold State.event; dsimp only; split; { rfl }; split; { simp only [State.bump_pins] }; { rw [State.msix_pins, apply_ite State.pins]; exact ite_both rfl rfl })
@[simp] theorem State.event_free (s : State) (fn c st d p : Nat) : (s.event fn c st d p).free = s.free := by (unfold State.event; dsimp only; split; { rfl }; split; { simp only [State.bump_free] }; { rw [State.msix_free, apply_ite State.free]; exact ite_both rfl rfl })

/-! ### eventBoth -/

@[simp] theorem State.eventBoth_pending (s : State) (p c st d : Nat) : (s.eventBoth p c st d).pending = s.pending := by simp only [State.eventBoth, State.event_pending]
@[simp] theorem State.eventBoth_mem (s : State) (p c st d : Nat) : (s.eventBoth p c st d).mem = s.mem := by simp only [State.eventBoth, State.event_mem]
@[simp] theorem State.eventBoth_sched (s : State) (p c st d : Nat) : (s.eventBoth p c st d).sched = s.sched := by simp only [State.eventBoth, State.event_sched]
@[simp] theorem State.eventBoth_net (s : State) (p c st d : Nat) : (s.eventBoth p c st d).net = s.net := by simp only [State.eventBoth, State.event_net]
@[simp] theorem State.eventBoth_kv (s : State) (p c st d : Nat) : (s.eventBoth p c st d).kv = s.kv := by simp only [State.eventBoth, State.event_kv]
@[simp] theorem State.eventBoth_msys (s : State) (p c st d : Nat) : (s.eventBoth p c st d).msys = s.msys := by simp only [State.eventBoth, State.event_msys]
@[simp] theorem State.eventBoth_rel (s : State) (p c st d : Nat) : (s.eventBoth p c st d).rel = s.rel := by simp only [State.eventBoth, State.event_rel]
@[simp] theorem State.eventBoth_trust (s : State) (p c st d : Nat) : (s.eventBoth p c st d).trust = s.trust := by simp only [State.eventBoth, State.event_trust]
@[simp] theorem State.eventBoth_bud (s : State) (p c st d : Nat) : (s.eventBoth p c st d).bud = s.bud := by simp only [State.eventBoth, State.event_bud]
@[simp] theorem State.eventBoth_shelf (s : State) (p c st d : Nat) : (s.eventBoth p c st d).shelf = s.shelf := by simp only [State.eventBoth, State.event_shelf]
@[simp] theorem State.eventBoth_taken (s : State) (p c st d : Nat) : (s.eventBoth p c st d).taken = s.taken := by simp only [State.eventBoth, State.event_taken]
@[simp] theorem State.eventBoth_hand (s : State) (p c st d : Nat) : (s.eventBoth p c st d).hand = s.hand := by simp only [State.eventBoth, State.event_hand]
@[simp] theorem State.eventBoth_dumpCfgs (s : State) (p c st d : Nat) : (s.eventBoth p c st d).dumpCfgs = s.dumpCfgs := by simp only [State.eventBoth, State.event_dumpCfgs]
@[simp] theorem State.eventBoth_dumps (s : State) (p c st d : Nat) : (s.eventBoth p c st d).dumps = s.dumps := by simp only [State.eventBoth, State.event_dumps]
@[simp] theorem State.eventBoth_logged (s : State) (p c st d : Nat) : (s.eventBoth p c st d).logged = s.logged := by simp only [State.eventBoth, State.event_logged]
@[simp] theorem State.eventBoth_rotary (s : State) (p c st d : Nat) : (s.eventBoth p c st d).rotary = s.rotary := by simp only [State.eventBoth, State.event_rotary]
@[simp] theorem State.eventBoth_tables (s : State) (p c st d : Nat) : (s.eventBoth p c st d).tables = s.tables := by simp only [State.eventBoth, State.event_tables]
@[simp] theorem State.eventBoth_pins (s : State) (p c st d : Nat) : (s.eventBoth p c st d).pins = s.pins := by simp only [State.eventBoth, State.event_pins]
@[simp] theorem State.eventBoth_free (s : State) (p c st d : Nat) : (s.eventBoth p c st d).free = s.free := by simp only [State.eventBoth, State.event_free]

/-! ### deviceError -/

@[simp] theorem State.deviceError_pending (s : State) (cl : Nat) (m : Bool) (u a st p : Nat) : (s.deviceError cl m u a st p).pending = s.pending := by simp only [State.deviceError, apply_ite State.pending, State.event_pending, ite_self]
@[simp] theorem State.deviceError_mem (s : State) (cl : Nat) (m : Bool) (u a st p : Nat) : (s.deviceError cl m u a st p).mem = s.mem := by simp only [State.deviceError, apply_ite State.mem, State.event_mem, ite_self]
@[simp] theorem State.deviceError_sched (s : State) (cl : Nat) (m : Bool) (u a st p : Nat) : (s.deviceError cl m u a st p).sched = s.sched := by simp only [State.deviceError, apply_ite State.sched, State.event_sched, ite_self]
@[simp] theorem State.deviceError_net (s : State) (cl : Nat) (m : Bool) (u a st p : Nat) : (s.deviceError cl m u a st p).net = s.net := by simp only [State.deviceError, apply_ite State.net, State.event_net, ite_self]
@[simp] theorem State.deviceError_kv (s : State) (cl : Nat) (m : Bool) (u a st p : Nat) : (s.deviceError cl m u a st p).kv = s.kv := by simp only [State.deviceError, apply_ite State.kv, State.event_kv, ite_self]
@[simp] theorem State.deviceError_msys (s : State) (cl : Nat) (m : Bool) (u a st p : Nat) : (s.deviceError cl m u a st p).msys = s.msys := by simp only [State.deviceError, apply_ite State.msys, State.event_msys, ite_self]
@[simp] theorem State.deviceError_rel (s : State) (cl : Nat) (m : Bool) (u a st p : Nat) : (s.deviceError cl m u a st p).rel = s.rel := by simp only [State.deviceError, apply_ite State.rel, State.event_rel, ite_self]
@[simp] theorem State.deviceError_trust (s : State) (cl : Nat) (m : Bool) (u a st p : Nat) : (s.deviceError cl m u a st p).trust = s.trust := by simp only [State.deviceError, apply_ite State.trust, State.event_trust, ite_self]
@[simp] theorem State.deviceError_bud (s : State) (cl : Nat) (m : Bool) (u a st p : Nat) : (s.deviceError cl m u a st p).bud = s.bud := by simp only [State.deviceError, apply_ite State.bud, State.event_bud, ite_self]
@[simp] theorem State.deviceError_shelf (s : State) (cl : Nat) (m : Bool) (u a st p : Nat) : (s.deviceError cl m u a st p).shelf = s.shelf := by simp only [State.deviceError, apply_ite State.shelf, State.event_shelf, ite_self]
@[simp] theorem State.deviceError_taken (s : State) (cl : Nat) (m : Bool) (u a st p : Nat) : (s.deviceError cl m u a st p).taken = s.taken := by simp only [State.deviceError, apply_ite State.taken, State.event_taken, ite_self]
@[simp] theorem State.deviceError_hand (s : State) (cl : Nat) (m : Bool) (u a st p : Nat) : (s.deviceError cl m u a st p).hand = s.hand := by simp only [State.deviceError, apply_ite State.hand, State.event_hand, ite_self]
@[simp] theorem State.deviceError_dumpCfgs (s : State) (cl : Nat) (m : Bool) (u a st p : Nat) : (s.deviceError cl m u a st p).dumpCfgs = s.dumpCfgs := by simp only [State.deviceError, apply_ite State.dumpCfgs, State.event_dumpCfgs, ite_self]
@[simp] theorem State.deviceError_dumps (s : State) (cl : Nat) (m : Bool) (u a st p : Nat) : (s.deviceError cl m u a st p).dumps = s.dumps := by simp only [State.deviceError, apply_ite State.dumps, State.event_dumps, ite_self]
@[simp] theorem State.deviceError_rotary (s : State) (cl : Nat) (m : Bool) (u a st p : Nat) : (s.deviceError cl m u a st p).rotary = s.rotary := by simp only [State.deviceError, apply_ite State.rotary, State.event_rotary, ite_self]
@[simp] theorem State.deviceError_tables (s : State) (cl : Nat) (m : Bool) (u a st p : Nat) : (s.deviceError cl m u a st p).tables = s.tables := by simp only [State.deviceError, apply_ite State.tables, State.event_tables, ite_self]
@[simp] theorem State.deviceError_pins (s : State) (cl : Nat) (m : Bool) (u a st p : Nat) : (s.deviceError cl m u a st p).pins = s.pins := by simp only [State.deviceError, apply_ite State.pins, State.event_pins, ite_self]
@[simp] theorem State.deviceError_free (s : State) (cl : Nat) (m : Bool) (u a st p : Nat) : (s.deviceError cl m u a st p).free = s.free := by simp only [State.deviceError, apply_ite State.free, State.event_free, ite_self]

end Sys2Proof.Machine
end

