-- ==== Sys2Proof/Laws/Frames.lean ====
section
/-! SUPPORT. What the shared frames of the commands answer: a checked packet command, one that touches host pages, an instruction that
issues, a message that is taken, a request of a session; and the shape of a change of registers. -/

namespace Sys2Proof.Machine

theorem sets_wr {s : State} {f : Fld} {i v j w : Nat} (h : v % 2 ^ f.width = w) : Sets s (s.wr f i v j) f i j w := by
  refine ⟨h ▸ State.rd_wr_self, rfl, fun g i' j' hne => State.rd_wr_ne (fun e => hne ?_)⟩
  simpa using e

theorem onlyRegs_refl {s : State} {fs : List Fld} : OnlyRegs s s fs := ⟨rfl, fun _ _ _ _ => rfl⟩

theorem onlyRegs_wr {s t : State} {fs : List Fld} {f : Fld} {i v j : Nat} (h : OnlyRegs s t fs) (hf : f ∈ fs) :
    OnlyRegs s (t.wr f i v j) fs := by
  refine ⟨?_, fun g i' j' hg => (State.rd_wr_fld (hg f hf)).trans (h.2 g i' j' hg)⟩
  conv_lhs => rw [h.1]
  rfl

theorem onlyKeys_refl {s : State} {ks : List (Fld × Nat × Nat)} : OnlyKeys s s ks := ⟨rfl, fun _ _ _ _ => rfl⟩

theorem onlyKeys_wr {s t : State} {ks : List (Fld × Nat × Nat)} {f : Fld} {i v j : Nat} (h : OnlyKeys s t ks) (hf : (f, i, j) ∈ ks) :
    OnlyKeys s (t.wr f i v j) ks := by
  refine ⟨?_, fun g i' j' hg => (State.rd_wr_ne (fun e => hg _ hf ?_)).trans (h.2 g i' j' hg)⟩
  · conv_lhs => rw [h.1]
    rfl
  · simpa using e

theorem onlyRegs_ite {s a b : State} {fs : List Fld} {c : Prop} [Decidable c] (ha : OnlyRegs s a fs) (hb : OnlyRegs s b fs) :
    OnlyRegs s (if c then a else b) fs := by
  split <;> assumption

theorem onlyRegs_foldl {α : Type} {s t : State} {fs : List Fld} {l : List α} {f : State → α → State} (h : OnlyRegs s t fs)
    (hf : ∀ u x, OnlyRegs s u fs → OnlyRegs s (f u x) fs) : OnlyRegs s (l.foldl f t) fs := by
  induction l generalizing t with
  | nil => exact h
  | cons x l ih => exact ih (hf t x h)

theorem onlyRegs_loopN {s t : State} {fs : List Fld} {n : Nat} {f : Nat → State → State} (h : OnlyRegs s t fs)
    (hf : ∀ i u, OnlyRegs s u fs → OnlyRegs s (f i u) fs) : OnlyRegs s (loopN n f t) fs :=
  onlyRegs_foldl h (fun u i hu => hf i u hu)

/-- A command that passes its checks goes on. -/
theorem State.checked_goes {s : State} {h : Hdr} {op status : Nat} {go : State → State} (hg : s.goes h op status) :
    s.checked h op status go = go s := by
  obtain ⟨h1, h2, h3, h4, h5⟩ := hg
  have h6 : ¬ (s.trust.recovery = true ∧ op ≠ 0x71 ∧ op ≠ 0x72) := by
    rintro ⟨a, b, c⟩
    rcases h3 with h3 | h3 | h3
    · rw [a] at h3; exact Bool.noConfusion h3
    · exact b h3
    · exact c h3
  have h7 : firstStatus [s.callStatus h op, status] = 0 := by rw [h4, h5]; rfl
  unfold State.checked
  simp [h1, h2, h6, h7]

/-- A command whose checks give an error completes with it, and nothing else happens (R489). -/
theorem State.checked_stops {s : State} {h : Hdr} {op status : Nat} {go : State → State} (h1 : s.deaf h = false)
    (h2 : s.rd F.HIF_FATAL_FATAL 0 = 0) (h3 : s.trust.recovery = false) (h4 : firstStatus [s.callStatus h op, status] ≠ 0) :
    s.checked h op status go = s.complete h (firstStatus [s.callStatus h op, status]) := by
  unfold State.checked
  simp [h1, h2, h3, h4]

theorem State.gate_begun {s : State} {h : Hdr} {op : Nat} {cmd : Instr} {rs : List HostRange} {go : State → State}
    (hr : s.untranslated h rs ∨ s.translated h rs) : s.gate h op cmd rs go = go (s.begun h op cmd rs) := by
  unfold State.gate State.begun
  rcases hr with hr | ⟨h1, h2, h3, h4⟩
  · simp only [State.untranslated] at hr
    simp [hr]
  · have : ¬ 1024 < (s.needPages h.fn.val rs).length := by omega
    simp [h1, h2, this, h4]

/-- An instruction that issues has its effect on the state in which it has issued. -/
theorem State.issueAs_issues {s : State} {op : Nat} {a : At} {r : Run} {ws : List Nat} {eff : Ctx → State → State}
    (h : s.issues op a r ws) : s.issueAs op a eff = eff (s.ctxOf a r ws) (s.issued a r ws) := by
  obtain ⟨h1, h2, h3, h4, h5, h6, h7, h8, h9⟩ := h
  unfold State.issueAs
  simp only [State.ctxOf, State.issued] at *
  simp [h1, h2, h3, h4, h5, h6, h7, h8, h9]

theorem State.receiveMsg_admits {s t : State} {port : Option (Fin 12)} {m : Msg} {kind rank : Nat} {go : Nat → State → State}
    (h : s.admits port m kind rank t) : s.receiveMsg port m kind go = .next (go rank (t.ucharge m.dstPdk 16)) := by
  obtain ⟨h1, h2, h3⟩ := h
  unfold State.receiveMsg
  simp [h1, h2, h3]

theorem State.inSession_heard {s : State} {c : Chan} {go : State → State} (h : s.heard c) : s.inSession c go = go s := by
  unfold State.inSession
  simp [h.1, h.2]

theorem State.outOfBand_heard {s : State} {c : Chan} {go : State → State} (h : s.heard c) (ht : c.transport.val = 1) :
    s.outOfBand c go = go s := by
  unfold State.outOfBand
  rw [State.inSession_heard h]
  simp [ht]

theorem State.bound_heard {s t : State} {c : Chan} {n : Nat} {go : State → State} (h : s.heard c) (hb : s.bindTo c n = some t) :
    s.bound c n go = go t := by
  unfold State.bound
  rw [State.inSession_heard h]
  simp [hb]

end Sys2Proof.Machine
end

