-- ==== Sys2Proof/Laws/KeepsBase.lean ====
section
/-! SUPPORT. What a command never undoes (Keeps of Safety.lean): the closure laws that every operation's lemma uses. -/

namespace Sys2Proof.Machine

theorem Keeps.refl (s : State) : Keeps s s := ⟨rfl, List.prefix_refl _, Nat.le_refl _, id⟩

/-- An outcome is a next state that keeps what `Keeps` says. -/
def KeepsOut (s0 : State) (o : Host.Outcome State Fault Refusal) : Prop := ∃ t, o = .next t ∧ Keeps s0 t

theorem keepsOut_next {s0 t : State} (h : Keeps s0 t) : KeepsOut s0 (.next t) := ⟨t, rfl, h⟩

theorem keepsOut_ite {s0 : State} {c : Prop} [Decidable c] {a b : Host.Outcome State Fault Refusal} (ha : KeepsOut s0 a) (hb : KeepsOut s0 b) :
    KeepsOut s0 (if c then a else b) := by
  split <;> assumption

theorem keeps_ite {s0 a b : State} {c : Prop} [Decidable c] (ha : Keeps s0 a) (hb : Keeps s0 b) : Keeps s0 (if c then a else b) := by
  split <;> assumption

theorem keeps_fst {α : Type} {s0 a : State} {b : α} (h : Keeps s0 a) : Keeps s0 (a, b).1 := h

theorem keeps_snd {α : Type} {s0 a : State} {b : α} (h : Keeps s0 a) : Keeps s0 (b, a).2 := h

theorem keepsP_ite {α : Type} {s0 : State} {c : Prop} [Decidable c] {a b : State × α} (ha : Keeps s0 a.1) (hb : Keeps s0 b.1) :
    Keeps s0 (if c then a else b).1 := by
  split <;> assumption

theorem keepsQ_ite {α : Type} {s0 : State} {c : Prop} [Decidable c] {a b : α × State} (ha : Keeps s0 a.2) (hb : Keeps s0 b.2) :
    Keeps s0 (if c then a else b).2 := by
  split <;> assumption

/-- What an operation that may answer nothing answers. -/
def KeepsO (s0 : State) (o : Option State) : Prop := ∀ t, o = some t → Keeps s0 t
def KeepsOP {α : Type} (s0 : State) (o : Option (State × α)) : Prop := ∀ t y, o = some (t, y) → Keeps s0 t
def KeepsE {α : Type} (s0 : State) (o : Except Nat (State × α)) : Prop := ∀ t y, o = .ok (t, y) → Keeps s0 t

theorem keepsO_none {s0 : State} : KeepsO s0 none := fun _ h => nomatch h
theorem keepsO_some {s0 t : State} (h : Keeps s0 t) : KeepsO s0 (some t) := fun _ e => by cases e; exact h
theorem keepsO_ite {s0 : State} {c : Prop} [Decidable c] {a b : Option State} (ha : KeepsO s0 a) (hb : KeepsO s0 b) :
    KeepsO s0 (if c then a else b) := by
  split <;> assumption
theorem keepsOP_none {α : Type} {s0 : State} : KeepsOP (α := α) s0 none := fun _ _ h => nomatch h
theorem keepsOP_some {α : Type} {s0 : State} {x : State × α} (h : Keeps s0 x.1) : KeepsOP s0 (some x) := fun _ _ e => by cases e; exact h
theorem keepsOP_ite {α : Type} {s0 : State} {c : Prop} [Decidable c] {a b : Option (State × α)} (ha : KeepsOP s0 a) (hb : KeepsOP s0 b) :
    KeepsOP s0 (if c then a else b) := by
  split <;> assumption
theorem keepsOP_map {α β : Type} {s0 : State} {o : Option (State × α)} {f : State × α → State × β} (h : KeepsOP s0 o)
    (hf : ∀ x, Keeps s0 x.1 → Keeps s0 (f x).1) : KeepsOP s0 (o.map f) := by
  cases o with
  | none => exact keepsOP_none
  | some x => exact keepsOP_some (hf x (h x.1 x.2 rfl))
theorem keepsE_error {α : Type} {s0 : State} {e : Nat} : KeepsE (α := α) s0 (.error e) := fun _ _ h => nomatch h
theorem keepsE_ok {α : Type} {s0 : State} {x : State × α} (h : Keeps s0 x.1) : KeepsE s0 (.ok x) := fun _ _ e => by cases e; exact h
theorem keepsE_ite {α : Type} {s0 : State} {c : Prop} [Decidable c] {a b : Except Nat (State × α)} (ha : KeepsE s0 a) (hb : KeepsE s0 b) :
    KeepsE s0 (if c then a else b) := by
  split <;> assumption

theorem keeps_foldl_fst {α β : Type} {s0 : State} {r : State × β} {f : State × β → α → State × β} {l : List α} (h : Keeps s0 r.1)
    (hf : ∀ t x, Keeps s0 t.1 → Keeps s0 (f t x).1) : Keeps s0 (l.foldl f r).1 := by
  induction l generalizing r with
  | nil => exact h
  | cons x l ih => exact ih (hf r x h)

theorem keeps_cut {p g : Prop} (a : p) (b : p → g) : g := b a

theorem keeps_foldl {α : Type} {s0 s : State} {f : State → α → State} {l : List α} (h : Keeps s0 s)
    (hf : ∀ t x, Keeps s0 t → Keeps s0 (f t x)) : Keeps s0 (l.foldl f s) := by
  induction l generalizing s with
  | nil => exact h
  | cons x l ih => exact ih (hf s x h)

theorem keeps_mk1 {s0 s : State} {a4 a5 a6 a7 a8 a9 a10 a12 a13 a14 a15 a16 a17 a18 a19 a20} :
    Keeps s0 (State.mk s.pending s.regs s.mem a4 a5 a6 a7 a8 a9 a10 s.shelf a12 a13 a14 a15 a16 a17 a18 a19 a20 s.out s.free) ↔
      Keeps s0 s :=
  ⟨fun h => ⟨h.1, h.2, h.3, h.4⟩, fun h => ⟨h.1, h.2, h.3, h.4⟩⟩

theorem keeps_mk2 {s0 s : State} {a4 a5 a6 a7 a8 a9 a10 a12 a13 a14 a15 a16 a17 a18 a19 a20 b1 b2 b3 b4 b6 b7 b8 b9} :
    Keeps s0 (State.mk s.pending s.regs s.mem a4 a5 a6 a7 a8 a9 a10 (Shelf.mk b1 b2 b3 b4 s.shelf.tray b6 b7 b8 b9) a12 a13 a14 a15
      a16 a17 a18 a19 a20 s.out s.free) ↔ Keeps s0 s :=
  ⟨fun h => ⟨h.1, h.2, h.3, h.4⟩, fun h => ⟨h.1, h.2, h.3, h.4⟩⟩

/-- A change of the memories that keeps their form. -/
theorem keeps_mem {s0 s : State} {m : Mems} (h : Keeps s0 s) (hm : s.mem.wf = true → m.wf = true) : Keeps s0 { s with mem := m } := by
  refine ⟨h.1, h.2, h.3, fun w => ?_⟩
  have := h.wf w
  simp only [State.wf, Bool.and_eq_true] at *
  exact ⟨⟨hm this.1.1, this.1.2⟩, this.2⟩

/-- More free values have been taken. -/
theorem keeps_free {s0 s : State} {n : Nat} (h : Keeps s0 s) : Keeps s0 { s with free := s.free + n } :=
  ⟨h.1, h.2, Nat.le_trans h.3 (Nat.le_add_right _ _), h.4⟩

/-- The parts of the canonical form of the memories. -/
theorem mems_wf_iff {m : Mems} : m.wf = true ↔
    Memory.wf m.hbm = true ∧ Memory.wf m.far = true ∧ Memory.wf m.shelf = true ∧ Memory.wf m.ws = true ∧
      twf (fun _ => false) m.hbmPoison = true ∧ twf (fun _ => false) m.farPoison = true ∧
      twf (fun _ => false) m.shelfPoison = true ∧ twf (fun _ => false) m.wsPoison = true := by
  simp only [Mems.wf, Bool.and_eq_true, and_assoc]

/-- Marks set one after the other keep the form. -/
theorem twf_foldl {α β : Type} [DecidableEq α] {d : α} {l : List β} {key : β → Key} {val : β → α} {t : Tbl α} (h : twf (fun _ => d) t = true) :
    twf (fun _ => d) (l.foldl (fun t k => tset d t (key k) (val k)) t) = true := by
  induction l generalizing t with
  | nil => exact h
  | cons x l ih => exact ih (twf_tset h)

/-- Poison marks of shelf rows, of far sectors and of HBM sectors, set one at a time. -/
theorem keeps_shelfPoison {s0 s : State} (h : Keeps s0 s) (k : Key) (v : Bool) :
    Keeps s0 { s with mem := { s.mem with shelfPoison := tset false s.mem.shelfPoison k v } } := by
  refine keeps_mem h (fun w => ?_)
  rw [mems_wf_iff] at *
  dsimp only
  exact ⟨w.1, w.2.1, w.2.2.1, w.2.2.2.1, w.2.2.2.2.1, w.2.2.2.2.2.1, twf_tset w.2.2.2.2.2.2.1, w.2.2.2.2.2.2.2⟩

theorem keeps_farPoison {s0 s : State} (h : Keeps s0 s) (k : Key) (v : Bool) :
    Keeps s0 { s with mem := { s.mem with farPoison := tset false s.mem.farPoison k v } } := by
  refine keeps_mem h (fun w => ?_)
  rw [mems_wf_iff] at *
  dsimp only
  exact ⟨w.1, w.2.1, w.2.2.1, w.2.2.2.1, w.2.2.2.2.1, twf_tset w.2.2.2.2.2.1, w.2.2.2.2.2.2⟩

theorem keeps_hbmPoison {s0 s : State} (h : Keeps s0 s) (k : Key) (v : Bool) :
    Keeps s0 { s with mem := { s.mem with hbmPoison := tset false s.mem.hbmPoison k v } } := by
  refine keeps_mem h (fun w => ?_)
  rw [mems_wf_iff] at *
  dsimp only
  exact ⟨w.1, w.2.1, w.2.2.1, w.2.2.2.1, twf_tset w.2.2.2.2.1, w.2.2.2.2.2⟩

/-- A change of the shelf's state that keeps the form of the trays' bytes. -/
theorem keeps_shelf {s0 s : State} {x : Shelf} (h : Keeps s0 s) (hx : Memory.wf s.shelf.tray = true → Memory.wf x.tray = true) :
    Keeps s0 { s with shelf := x } := by
  refine ⟨h.1, h.2, h.3, fun w => ?_⟩
  have := h.wf w
  simp only [State.wf, Bool.and_eq_true] at *
  exact ⟨⟨this.1.1, hx this.1.2⟩, this.2⟩

end Sys2Proof.Machine
end

