-- ==== Sys2Proof/Laws/KeepsOps.lean ====
section
/-! SUPPORT. What the operations of Machine/Ops.lean never undo (Keeps of Safety.lean): one lemma per operation. -/

set_option linter.all false

namespace Sys2Proof.Machine

theorem State.wr_keeps {s0 s : State} (h_ : Keeps s0 s) (f : Fld) (i v j : Nat) : Keeps s0 (s.wr f i v j) := by
  refine ⟨h_.pending, h_.sent, h_.free, fun w => ?_⟩
  have := h_.wf w
  simp only [State.wf, State.wr, Bool.and_eq_true] at *
  exact ⟨this.1, tsorted_tset this.2⟩

theorem State.resetFlds_keeps {s0 s : State} (h_ : Keeps s0 s) (p : Fld → Nat → Nat → Bool) : Keeps s0 (s.resetFlds p) := by
  refine ⟨h_.pending, h_.sent, h_.free, fun w => ?_⟩
  have := h_.wf w
  simp only [State.wf, State.resetFlds, Bool.and_eq_true] at *
  exact ⟨this.1, tsorted_filter _ this.2⟩

theorem State.bump_keeps {s0 s : State} (h_ : Keeps s0 s) (f : Fld) (i : Nat) (j : Nat) (n : Nat) :
    Keeps s0 (State.bump s f i j n) := by
  unfold State.bump
  repeat' first
    | with_reducible assumption
    | (extract_lets +onlyGivenNames x; refine keeps_cut (p := Keeps s0 x) ?_ (fun hx => ?_) <;> [subst x; clear_value x])
    | (extract_lets +onlyGivenNames x; refine keeps_cut (p := Keeps s0 x.1) ?_ (fun hx => ?_) <;> [subst x; clear_value x])
    | extract_lets +onlyGivenNames x
    | with_reducible apply State.wr_keeps
    | with_reducible apply keeps_ite

theorem State.satAdd_keeps {s0 s : State} (h_ : Keeps s0 s) (f : Fld) (i : Nat) (n : Nat) (j : Nat) :
    Keeps s0 (State.satAdd s f i n j) := by
  unfold State.satAdd
  repeat' first
    | with_reducible assumption
    | with_reducible apply State.wr_keeps

theorem loopN_keeps {s0 s : State} (h_ : Keeps s0 s) (n : Nat) (f : Nat → State → State) (hf : ∀ i t, Keeps s0 t → Keeps s0 (f i t)) :
    Keeps s0 (loopN n f s) := keeps_foldl h_ (fun t i ht => hf i t ht)

theorem State.tick_keeps {s0 s : State} (h_ : Keeps s0 s) : Keeps s0 s.tick := keeps_free h_

theorem State.emit_keeps {s0 s : State} (h_ : Keeps s0 s) (o : Out) : Keeps s0 (s.emit o) :=
  ⟨h_.pending, h_.sent.trans (List.prefix_append _ _), h_.free, h_.wf⟩

theorem State.setLock_keeps {s0 s : State} (h_ : Keeps s0 s) (bit : Nat) (on : Bool) :
    Keeps s0 (State.setLock s bit on) := by
  unfold State.setLock
  repeat' first
    | with_reducible assumption
    | (extract_lets +onlyGivenNames x; refine keeps_cut (p := Keeps s0 x) ?_ (fun hx => ?_) <;> [subst x; clear_value x])
    | (extract_lets +onlyGivenNames x; refine keeps_cut (p := Keeps s0 x.1) ?_ (fun hx => ?_) <;> [subst x; clear_value x])
    | extract_lets +onlyGivenNames x
    | with_reducible apply State.wr_keeps
    | with_reducible apply keeps_ite

theorem State.msix_keeps {s0 s : State} (h_ : Keeps s0 s) (fn : Nat) (vec : Nat) :
    Keeps s0 (State.msix s fn vec) := by
  unfold State.msix
  repeat' first
    | with_reducible assumption
    | with_reducible apply State.emit_keeps
    | with_reducible apply keeps_ite
    | simp -zeta only [keeps_mk1, keeps_mk2]

theorem State.dropTaken_keeps {s0 s : State} (h_ : Keeps s0 s) (h : Hdr) :
    Keeps s0 (State.dropTaken s h) := by
  unfold State.dropTaken
  repeat' first
    | with_reducible assumption
    | (extract_lets +onlyGivenNames x; refine keeps_cut (p := Keeps s0 x) ?_ (fun hx => ?_) <;> [subst x; clear_value x])
    | (extract_lets +onlyGivenNames x; refine keeps_cut (p := Keeps s0 x.1) ?_ (fun hx => ?_) <;> [subst x; clear_value x])
    | extract_lets +onlyGivenNames x
    | with_reducible apply State.wr_keeps
    | with_reducible apply keeps_ite
    | simp -zeta only [keeps_mk1, keeps_mk2]
    | split
    | (intro i; intros; try beta_reduce)

theorem State.advanceCq_keeps {s0 s : State} (h_ : Keeps s0 s) (fn : Nat) (q : Nat) :
    Keeps s0 (State.advanceCq s fn q) := by
  unfold State.advanceCq
  repeat' first
    | with_reducible assumption
    | (extract_lets +onlyGivenNames x; refine keeps_cut (p := Keeps s0 x) ?_ (fun hx => ?_) <;> [subst x; clear_value x])
    | (extract_lets +onlyGivenNames x; refine keeps_cut (p := Keeps s0 x.1) ?_ (fun hx => ?_) <;> [subst x; clear_value x])
    | extract_lets +onlyGivenNames x
    | with_reducible apply State.wr_keeps
    | with_reducible apply keeps_ite

theorem State.complete_keeps {s0 s : State} (h_ : Keeps s0 s) (h : Hdr) (status : Nat) (result : Nat) (num : Nat) (keep : Bool) :
    Keeps s0 (State.complete s h status result num keep) := by
  unfold State.complete
  repeat' first
    | with_reducible assumption
    | (extract_lets +onlyGivenNames x; refine keeps_cut (p := Keeps s0 x) ?_ (fun hx => ?_) <;> [subst x; clear_value x])
    | (extract_lets +onlyGivenNames x; refine keeps_cut (p := Keeps s0 x.1) ?_ (fun hx => ?_) <;> [subst x; clear_value x])
    | extract_lets +onlyGivenNames x
    | with_reducible apply State.bump_keeps
    | with_reducible apply State.emit_keeps
    | with_reducible apply State.msix_keeps
    | with_reducible apply State.dropTaken_keeps
    | with_reducible apply State.advanceCq_keeps
    | with_reducible apply keeps_ite

theorem State.event_keeps {s0 s : State} (h_ : Keeps s0 s) (fn : Nat) (code : Nat) (status : Nat) (detail : Nat) (pdk : Nat) :
    Keeps s0 (State.event s fn code status detail pdk) := by
  unfold State.event
  repeat' first
    | with_reducible assumption
    | (extract_lets +onlyGivenNames x; refine keeps_cut (p := Keeps s0 x) ?_ (fun hx => ?_) <;> [subst x; clear_value x])
    | (extract_lets +onlyGivenNames x; refine keeps_cut (p := Keeps s0 x.1) ?_ (fun hx => ?_) <;> [subst x; clear_value x])
    | extract_lets +onlyGivenNames x
    | with_reducible apply State.wr_keeps
    | with_reducible apply State.bump_keeps
    | with_reducible apply State.emit_keeps
    | with_reducible apply State.msix_keeps
    | with_reducible apply keeps_ite
    | simp -zeta only [keeps_mk1, keeps_mk2]

theorem State.eventBoth_keeps {s0 s : State} (h_ : Keeps s0 s) (p : Nat) (code : Nat) (status : Nat) (detail : Nat) :
    Keeps s0 (State.eventBoth s p code status detail) := by
  unfold State.eventBoth
  repeat' first
    | with_reducible assumption
    | with_reducible apply State.event_keeps

theorem State.deviceError_keeps {s0 s : State} (h_ : Keeps s0 s) (cls : Nat) (masked : Bool) (unit : Nat) (addr : Nat) (status : Nat) (pdk : Nat) :
    Keeps s0 (State.deviceError s cls masked unit addr status pdk) := by
  unfold State.deviceError
  repeat' first
    | with_reducible assumption
    | (extract_lets +onlyGivenNames x; refine keeps_cut (p := Keeps s0 x) ?_ (fun hx => ?_) <;> [subst x; clear_value x])
    | (extract_lets +onlyGivenNames x; refine keeps_cut (p := Keeps s0 x.1) ?_ (fun hx => ?_) <;> [subst x; clear_value x])
    | extract_lets +onlyGivenNames x
    | with_reducible apply State.event_keeps
    | with_reducible apply keeps_ite
    | simp -zeta only [keeps_mk1, keeps_mk2]
    | split

theorem State.start_keeps {s0 s : State} (h_ : Keeps s0 s) (h : Hdr) (op : Nat) (cmd : Option Instr) (prog : List Nat) :
    Keeps s0 (State.start s h op cmd prog) := by
  unfold State.start
  repeat' first
    | with_reducible assumption
    | (extract_lets +onlyGivenNames x; refine keeps_cut (p := Keeps s0 x) ?_ (fun hx => ?_) <;> [subst x; clear_value x])
    | (extract_lets +onlyGivenNames x; refine keeps_cut (p := Keeps s0 x.1) ?_ (fun hx => ?_) <;> [subst x; clear_value x])
    | extract_lets +onlyGivenNames x
    | with_reducible apply State.wr_keeps
    | with_reducible apply keeps_ite
    | simp -zeta only [keeps_mk1, keeps_mk2]
    | split
    | (intro i; intros; try beta_reduce)

theorem State.setProg_keeps {s0 s : State} (h_ : Keeps s0 s) (h : Hdr) (prog : List Nat) :
    Keeps s0 (State.setProg s h prog) := by
  unfold State.setProg
  repeat' first
    | with_reducible assumption
    | with_reducible apply keeps_ite
    | simp -zeta only [keeps_mk1, keeps_mk2]
    | (intro i; intros; try beta_reduce)

theorem State.ackLine_keeps {s0 s : State} (h_ : Keeps s0 s) (id : Nat) :
    Keeps s0 (State.ackLine s id) := by
  unfold State.ackLine
  repeat' first
    | with_reducible assumption
    | with_reducible apply keeps_ite
    | simp -zeta only [keeps_mk1, keeps_mk2]
    | (intro i; intros; try beta_reduce)

theorem State.post_keeps {s0 s : State} (h_ : Keeps s0 s) (port : Option Nat) (owner : Nat) (vl : Nat) (line : Option Nat) (m : Msg) :
    Keeps s0 (State.post s port owner vl line m) := by
  unfold State.post
  repeat' first
    | with_reducible assumption
    | (extract_lets +onlyGivenNames x; refine keeps_cut (p := Keeps s0 x) ?_ (fun hx => ?_) <;> [subst x; clear_value x])
    | (extract_lets +onlyGivenNames x; refine keeps_cut (p := Keeps s0 x.1) ?_ (fun hx => ?_) <;> [subst x; clear_value x])
    | extract_lets +onlyGivenNames x
    | with_reducible apply State.ackLine_keeps
    | simp -zeta only [keeps_mk1, keeps_mk2]
    | split

theorem State.sendMsg_keeps {s0 s : State} (h_ : Keeps s0 s) (m : Msg) :
    Keeps s0 (State.sendMsg s m) := by
  unfold State.sendMsg
  repeat' first
    | with_reducible assumption
    | (extract_lets +onlyGivenNames x; refine keeps_cut (p := Keeps s0 x) ?_ (fun hx => ?_) <;> [subst x; clear_value x])
    | (extract_lets +onlyGivenNames x; refine keeps_cut (p := Keeps s0 x.1) ?_ (fun hx => ?_) <;> [subst x; clear_value x])
    | extract_lets +onlyGivenNames x
    | with_reducible apply State.post_keeps
    | with_reducible apply keeps_ite
    | split

theorem State.setRuns_keeps {s0 s : State} (h_ : Keeps s0 s) (p : Nat) (r : PdkRun) :
    Keeps s0 (State.setRuns s p r) := by
  unfold State.setRuns
  repeat' first
    | with_reducible assumption
    | simp -zeta only [keeps_mk1, keeps_mk2]

theorem State.setStream_keeps {s0 s : State} (h_ : Keeps s0 s) (c : Nat) (side : Nat) (st : Nat) (x : Stream) :
    Keeps s0 (State.setStream s c side st x) := by
  unfold State.setStream
  repeat' first
    | with_reducible assumption
    | simp -zeta only [keeps_mk1, keeps_mk2]

theorem State.syncPstat_keeps {s0 s : State} (h_ : Keeps s0 s) (p : Nat) :
    Keeps s0 (State.syncPstat s p) := by
  unfold State.syncPstat
  repeat' first
    | with_reducible assumption
    | (extract_lets +onlyGivenNames x; refine keeps_cut (p := Keeps s0 x) ?_ (fun hx => ?_) <;> [subst x; clear_value x])
    | (extract_lets +onlyGivenNames x; refine keeps_cut (p := Keeps s0 x.1) ?_ (fun hx => ?_) <;> [subst x; clear_value x])
    | extract_lets +onlyGivenNames x
    | with_reducible apply State.wr_keeps
    | (intro i; intros; try beta_reduce)

theorem State.syncHeld_keeps {s0 s : State} (h_ : Keeps s0 s) (p : Nat) :
    Keeps s0 (State.syncHeld s p) := by
  unfold State.syncHeld
  repeat' first
    | with_reducible assumption
    | with_reducible apply State.wr_keeps
    | with_reducible apply keeps_foldl
    | with_reducible apply keeps_foldl_fst

theorem State.discardTimed_keeps {s0 s : State} (h_ : Keeps s0 s) (p : Nat) :
    Keeps s0 (State.discardTimed s p) := by
  unfold State.discardTimed
  repeat' first
    | with_reducible assumption
    | (extract_lets +onlyGivenNames x; refine keeps_cut (p := Keeps s0 x) ?_ (fun hx => ?_) <;> [subst x; clear_value x])
    | (extract_lets +onlyGivenNames x; refine keeps_cut (p := Keeps s0 x.1) ?_ (fun hx => ?_) <;> [subst x; clear_value x])
    | extract_lets +onlyGivenNames x
    | with_reducible apply State.setStream_keeps
    | with_reducible apply keeps_foldl
    | with_reducible apply keeps_foldl_fst
    | simp -zeta only [keeps_mk1, keeps_mk2]
    | (intro i; intros; try beta_reduce)

theorem State.abortWith_keeps {s0 s : State} (h_ : Keeps s0 s) (p : Nat) (cause : Nat) (fanout : Bool) :
    Keeps s0 (State.abortWith s p cause fanout) := by
  unfold State.abortWith
  repeat' first
    | with_reducible assumption
    | (extract_lets +onlyGivenNames x; refine keeps_cut (p := Keeps s0 x) ?_ (fun hx => ?_) <;> [subst x; clear_value x])
    | (extract_lets +onlyGivenNames x; refine keeps_cut (p := Keeps s0 x.1) ?_ (fun hx => ?_) <;> [subst x; clear_value x])
    | extract_lets +onlyGivenNames x
    | with_reducible apply loopN_keeps
    | with_reducible apply State.sendMsg_keeps
    | with_reducible apply State.setRuns_keeps
    | with_reducible apply State.discardTimed_keeps
    | with_reducible apply keeps_ite
    | simp -zeta only [keeps_mk1, keeps_mk2]
    | (intro i; intros; try beta_reduce)

theorem State.abort_keeps {s0 s : State} (h_ : Keeps s0 s) (p : Nat) (cause : Nat) :
    Keeps s0 (State.abort s p cause) := by
  unfold State.abort
  repeat' first
    | with_reducible assumption
    | with_reducible apply State.abortWith_keeps

theorem State.warnRun_keeps {s0 s : State} (h_ : Keeps s0 s) (p : Nat) (w : Nat) :
    Keeps s0 (State.warnRun s p w) := by
  unfold State.warnRun
  repeat' first
    | with_reducible assumption
    | (extract_lets +onlyGivenNames x; refine keeps_cut (p := Keeps s0 x) ?_ (fun hx => ?_) <;> [subst x; clear_value x])
    | (extract_lets +onlyGivenNames x; refine keeps_cut (p := Keeps s0 x.1) ?_ (fun hx => ?_) <;> [subst x; clear_value x])
    | extract_lets +onlyGivenNames x
    | with_reducible apply State.setRuns_keeps
    | with_reducible apply keeps_ite
    | simp -zeta only [keeps_mk1, keeps_mk2]
    | split

theorem State.setMem_keeps {s0 s : State} (h_ : Keeps s0 s) (m : Mems) (hm : s.mem.wf = true → m.wf = true) : Keeps s0 (s.setMem m) :=
  keeps_mem h_ hm

theorem State.setRow_keeps {s0 s : State} (h_ : Keeps s0 s) (c row : Nat) (bs : List Byte) (poison : Bool) :
    Keeps s0 (s.setRow c row bs poison) := by
  refine keeps_mem h_ (fun w => ?_)
  rw [mems_wf_iff] at *
  exact ⟨w.1, w.2.1, memory_wf_mwrite w.2.2.1, w.2.2.2.1, w.2.2.2.2.1, w.2.2.2.2.2.1, twf_tset w.2.2.2.2.2.2.1, w.2.2.2.2.2.2.2⟩

theorem twf_clearPoison {sector base n : Nat} {t : Tbl Bool} (h : twf (fun _ => false) t = true) :
    twf (fun _ => false) (clearPoison sector base n t) = true := twf_filter _ h

theorem State.hbmWrite_keeps {s0 s : State} (h_ : Keeps s0 s) (p a : Nat) (bs : List Byte) : Keeps s0 (s.hbmWrite p a bs) := by
  refine keeps_mem h_ (fun w => ?_)
  rw [mems_wf_iff] at *
  exact ⟨memory_wf_mwrite w.1, w.2.1, w.2.2.1, w.2.2.2.1, twf_clearPoison w.2.2.2.2.1, w.2.2.2.2.2⟩

end Sys2Proof.Machine
end

