-- ==== Sys2Proof/Laws/KeepsOperands.lean ====
section
/-! SUPPORT. What the operations of Machine/Operands.lean never undo (Keeps of Safety.lean): one lemma per operation. -/

set_option linter.all false

namespace Sys2Proof.Machine

theorem State.farWrite_keeps {s0 s : State} (h_ : Keeps s0 s) (p a : Nat) (bs : List Byte) : Keeps s0 (s.farWrite p a bs) := by
  have k : Keeps s0 { s with mem := { s.mem with
      far := mwrite s.mem.far a bs, farPoison := clearPoison 64 a bs.length s.mem.farPoison } } := by
    refine keeps_mem h_ (fun w => ?_)
    rw [mems_wf_iff] at *
    exact ⟨w.1, memory_wf_mwrite w.2.1, w.2.2.1, w.2.2.2.1, w.2.2.2.2.1, twf_clearPoison w.2.2.2.2.2.1, w.2.2.2.2.2.2⟩
  exact ⟨k.1, k.2, k.3, k.4⟩

theorem State.noteWrite_keeps {s0 s : State} (h_ : Keeps s0 s) (p : Nat) (ptr : Nat) (n : Nat) :
    Keeps s0 (State.noteWrite s p ptr n) := by
  unfold State.noteWrite
  repeat' first
    | with_reducible assumption
    | with_reducible apply keeps_ite
    | simp -zeta only [keeps_mk1, keeps_mk2]
    | split
    | (intro i; intros; try beta_reduce)

theorem State.ptrWrite_keeps {s0 s : State} (h_ : Keeps s0 s) (fn : Nat) (p : Nat) (ptr : Nat) (bs : List Byte) :
    Keeps s0 (State.ptrWrite s fn p ptr bs) := by
  unfold State.ptrWrite
  repeat' first
    | with_reducible assumption
    | (extract_lets +onlyGivenNames x; refine keeps_cut (p := Keeps s0 x) ?_ (fun hx => ?_) <;> [subst x; clear_value x])
    | (extract_lets +onlyGivenNames x; refine keeps_cut (p := Keeps s0 x.1) ?_ (fun hx => ?_) <;> [subst x; clear_value x])
    | extract_lets +onlyGivenNames x
    | with_reducible apply State.bump_keeps
    | with_reducible apply loopN_keeps
    | with_reducible apply State.emit_keeps
    | with_reducible apply State.sendMsg_keeps
    | with_reducible apply State.hbmWrite_keeps
    | with_reducible apply State.farWrite_keeps
    | with_reducible apply State.noteWrite_keeps
    | split
    | (intro i; intros; try beta_reduce)

theorem State.hbmPoisonAt_keeps {s0 s : State} (h_ : Keeps s0 s) (p a n : Nat) : Keeps s0 (s.hbmPoisonAt p a n) := by
  refine keeps_mem h_ (fun w => ?_)
  rw [mems_wf_iff] at *
  exact ⟨w.1, w.2.1, w.2.2.1, w.2.2.2.1, twf_foldl w.2.2.2.2.1, w.2.2.2.2.2⟩

theorem State.countRead_keeps {s0 s : State} (h_ : Keeps s0 s) (fn : Nat) (p : Nat) (ptr : Nat) (n : Nat) :
    Keeps s0 (State.countRead s fn p ptr n) := by
  unfold State.countRead
  repeat' first
    | with_reducible assumption
    | with_reducible apply State.bump_keeps
    | split

theorem State.askPages_keeps {s0 s : State} (h_ : Keeps s0 s) (fn : Nat) (ps : List Page) :
    Keeps s0 (State.askPages s fn ps) := by
  unfold State.askPages
  repeat' first
    | with_reducible assumption
    | with_reducible apply State.bump_keeps
    | with_reducible apply State.emit_keeps
    | with_reducible apply keeps_foldl
    | with_reducible apply keeps_foldl_fst
    | (intro i; intros; try beta_reduce)

theorem State.syncXstat_keeps {s0 s : State} (h_ : Keeps s0 s) (fn : Nat) :
    Keeps s0 (State.syncXstat s fn) := by
  unfold State.syncXstat
  repeat' first
    | with_reducible assumption
    | (extract_lets +onlyGivenNames x; refine keeps_cut (p := Keeps s0 x) ?_ (fun hx => ?_) <;> [subst x; clear_value x])
    | (extract_lets +onlyGivenNames x; refine keeps_cut (p := Keeps s0 x.1) ?_ (fun hx => ?_) <;> [subst x; clear_value x])
    | extract_lets +onlyGivenNames x
    | with_reducible apply State.wr_keeps
    | (intro i; intros; try beta_reduce)

theorem State.park_keeps {s0 s : State} (h_ : Keeps s0 s) (h : Hdr) (op : Nat) (cmd : Instr) (ps : List Page) :
    Keeps s0 (State.park s h op cmd ps) := by
  unfold State.park
  repeat' first
    | with_reducible assumption
    | (extract_lets +onlyGivenNames x; refine keeps_cut (p := Keeps s0 x) ?_ (fun hx => ?_) <;> [subst x; clear_value x])
    | (extract_lets +onlyGivenNames x; refine keeps_cut (p := Keeps s0 x.1) ?_ (fun hx => ?_) <;> [subst x; clear_value x])
    | extract_lets +onlyGivenNames x
    | with_reducible apply State.start_keeps
    | with_reducible apply State.askPages_keeps
    | with_reducible apply keeps_ite
    | simp -zeta only [keeps_mk1, keeps_mk2]
    | (intro i; intros; try beta_reduce)

theorem State.gate_keeps {s0 s : State} (h_ : Keeps s0 s) (h : Hdr) (op : Nat) (cmd : Instr) (rs : List HostRange) (go : State → State) (hgo : ∀ t, Keeps s0 t → Keeps s0 (go t)) :
    Keeps s0 (State.gate s h op cmd rs go) := by
  unfold State.gate
  repeat' first
    | with_reducible assumption
    | (extract_lets +onlyGivenNames x; refine keeps_cut (p := Keeps s0 x) ?_ (fun hx => ?_) <;> [subst x; clear_value x])
    | (extract_lets +onlyGivenNames x; refine keeps_cut (p := Keeps s0 x.1) ?_ (fun hx => ?_) <;> [subst x; clear_value x])
    | extract_lets +onlyGivenNames x
    | with_reducible apply State.complete_keeps
    | with_reducible apply State.start_keeps
    | with_reducible apply State.park_keeps
    | with_reducible apply keeps_ite
    | simp -zeta only [keeps_mk1, keeps_mk2]
    | (intro i; intros; try beta_reduce)
    | apply_assumption

theorem State.checked_keeps {s0 s : State} (h_ : Keeps s0 s) (h : Hdr) (op : Nat) (status : Nat) (go : State → State) (hgo : ∀ t, Keeps s0 t → Keeps s0 (go t)) :
    Keeps s0 (State.checked s h op status go) := by
  unfold State.checked
  repeat' first
    | with_reducible assumption
    | (extract_lets +onlyGivenNames x; refine keeps_cut (p := Keeps s0 x) ?_ (fun hx => ?_) <;> [subst x; clear_value x])
    | (extract_lets +onlyGivenNames x; refine keeps_cut (p := Keeps s0 x.1) ?_ (fun hx => ?_) <;> [subst x; clear_value x])
    | extract_lets +onlyGivenNames x
    | with_reducible apply State.complete_keeps
    | with_reducible apply keeps_ite
    | (intro i; intros; try beta_reduce)
    | apply_assumption

end Sys2Proof.Machine
end

