-- ==== Sys2Proof/Laws/KeepsFlags.lean ====
section
/-! SUPPORT. What the operations of Machine/Flags.lean never undo (Keeps of Safety.lean): one lemma per operation. -/

set_option linter.all false

namespace Sys2Proof.Machine

theorem State.countOutput_keeps {s0 s : State} (h_ : Keeps s0 s) (p : Nat) (side : Nat) (c : NumCat) :
    Keeps s0 (State.countOutput s p side c) := by
  unfold State.countOutput
  repeat' first
    | with_reducible assumption
    | (extract_lets +onlyGivenNames x; refine keeps_cut (p := Keeps s0 x) ?_ (fun hx => ?_) <;> [subst x; clear_value x])
    | (extract_lets +onlyGivenNames x; refine keeps_cut (p := Keeps s0 x.1) ?_ (fun hx => ?_) <;> [subst x; clear_value x])
    | extract_lets +onlyGivenNames x
    | with_reducible apply State.bump_keeps
    | with_reducible apply State.setRuns_keeps
    | split
    | (intro i; intros; try beta_reduce)

theorem State.countOutputs_keeps {s0 s : State} (h_ : Keeps s0 s) (p : Nat) (side : Nat) (cs : List NumCat) :
    Keeps s0 (State.countOutputs s p side cs) := by
  unfold State.countOutputs
  repeat' first
    | with_reducible assumption
    | with_reducible apply State.countOutput_keeps
    | with_reducible apply keeps_foldl
    | with_reducible apply keeps_foldl_fst
    | (intro i; intros; try beta_reduce)

end Sys2Proof.Machine
end

