-- ==== Sys2Proof/Laws/KeepsShelf.lean ====
section
/-! SUPPORT. What the operations of Machine/Shelf.lean never undo (Keeps of Safety.lean): one lemma per operation. -/

set_option linter.all false

namespace Sys2Proof.Machine

theorem State.shelfErr_keeps {s0 s : State} (h_ : Keeps s0 s) (c : Nat) (source : Nat) (bank : Nat) (brow : Nat) (codeword : Nat) (row : Nat) (uncorr : Bool) :
    Keeps s0 (State.shelfErr s c source bank brow codeword row uncorr) := by
  unfold State.shelfErr
  repeat' first
    | with_reducible assumption
    | (extract_lets +onlyGivenNames x; refine keeps_cut (p := Keeps s0 x) ?_ (fun hx => ?_) <;> [subst x; clear_value x])
    | (extract_lets +onlyGivenNames x; refine keeps_cut (p := Keeps s0 x.1) ?_ (fun hx => ?_) <;> [subst x; clear_value x])
    | extract_lets +onlyGivenNames x
    | with_reducible apply State.wr_keeps
    | with_reducible apply State.deviceError_keeps
    | with_reducible apply keeps_ite

theorem State.markRow_keeps {s0 s : State} (h_ : Keeps s0 s) (c : Nat) (bank : Nat) (brow : Nat) :
    Keeps s0 (State.markRow s c bank brow) := by
  unfold State.markRow
  repeat' first
    | with_reducible assumption
    | (extract_lets +onlyGivenNames x; refine keeps_cut (p := Keeps s0 x) ?_ (fun hx => ?_) <;> [subst x; clear_value x])
    | (extract_lets +onlyGivenNames x; refine keeps_cut (p := Keeps s0 x.1) ?_ (fun hx => ?_) <;> [subst x; clear_value x])
    | extract_lets +onlyGivenNames x
    | with_reducible apply State.wr_keeps
    | with_reducible apply State.satAdd_keeps
    | with_reducible apply keeps_ite
    | simp -zeta only [keeps_mk1, keeps_mk2]
    | simp only [keeps_mk1, keeps_mk2]
    | simp (zetaDelta := true) only [keeps_mk1, keeps_mk2]

theorem State.trackRow_keeps {s0 s : State} (h_ : Keeps s0 s) (c : Nat) (bank : Nat) (brow : Nat) :
    Keeps s0 (State.trackRow s c bank brow) := by
  unfold State.trackRow
  repeat' first
    | with_reducible assumption
    | (extract_lets +onlyGivenNames x; refine keeps_cut (p := Keeps s0 x) ?_ (fun hx => ?_) <;> [subst x; clear_value x])
    | (extract_lets +onlyGivenNames x; refine keeps_cut (p := Keeps s0 x.1) ?_ (fun hx => ?_) <;> [subst x; clear_value x])
    | extract_lets +onlyGivenNames x
    | with_reducible apply State.markRow_keeps
    | with_reducible apply keeps_ite
    | simp -zeta only [keeps_mk1, keeps_mk2]
    | (intro i; intros; try beta_reduce)
    | simp only [keeps_mk1, keeps_mk2]
    | simp (zetaDelta := true) only [keeps_mk1, keeps_mk2]

theorem State.shelfReadErr_keeps {s0 s : State} (h_ : Keeps s0 s) (c source row : Nat) (e : Option (Nat × Bool)) :
    Keeps s0 (s.shelfReadErr c source row e) := by
  unfold State.shelfReadErr
  split
  · exact h_
  · exact State.shelfErr_keeps (State.trackRow_keeps (State.bump_keeps h_ ..) ..) ..
  · have k := keeps_shelfPoison h_ [c, row] true
    exact State.event_keeps (State.shelfErr_keeps (State.markRow_keeps (State.bump_keeps k ..) ..) ..) ..

theorem State.shelfRead_keeps {s0 s : State} (h_ : Keeps s0 s) (c : Nat) (source : Nat) (row : Nat) (err : Option (Nat × Bool)) :
    Keeps s0 (State.shelfRead s c source row err).1 := by
  unfold State.shelfRead
  repeat' first
    | with_reducible assumption
    | (extract_lets +onlyGivenNames x; refine keeps_cut (p := Keeps s0 x) ?_ (fun hx => ?_) <;> [subst x; clear_value x])
    | (extract_lets +onlyGivenNames x; refine keeps_cut (p := Keeps s0 x.1) ?_ (fun hx => ?_) <;> [subst x; clear_value x])
    | extract_lets +onlyGivenNames x
    | with_reducible apply State.shelfReadErr_keeps
    | with_reducible apply keeps_fst
theorem State.shelfRead_keeps' {s0 s t' : State} {y} {c : Nat} {source : Nat} {row : Nat} {err : Option (Nat × Bool)} (e_ : State.shelfRead s c source row err = (t', y)) (h_ : Keeps s0 s) : Keeps s0 t' := by
  have := State.shelfRead_keeps h_ c source row err
  rw [e_] at this
  exact this

theorem State.violation_keeps {s0 s : State} (h_ : Keeps s0 s) (c : Nat) (kind : Nat) (drawer : Nat) (stream : Nat) (position : Nat) :
    Keeps s0 (State.violation s c kind drawer stream position) := by
  unfold State.violation
  repeat' first
    | with_reducible assumption
    | (extract_lets +onlyGivenNames x; refine keeps_cut (p := Keeps s0 x) ?_ (fun hx => ?_) <;> [subst x; clear_value x])
    | (extract_lets +onlyGivenNames x; refine keeps_cut (p := Keeps s0 x.1) ?_ (fun hx => ?_) <;> [subst x; clear_value x])
    | extract_lets +onlyGivenNames x
    | with_reducible apply State.wr_keeps
    | with_reducible apply State.abort_keeps
    | with_reducible apply keeps_ite

theorem State.setSlot_keeps {s0 s : State} (h_ : Keeps s0 s) (c : Nat) (d : Nat) (k : Nat) (v : Nat) :
    Keeps s0 (State.setSlot s c d k v) := by
  unfold State.setSlot
  repeat' first
    | with_reducible assumption
    | simp -zeta only [keeps_mk1, keeps_mk2]
    | simp only [keeps_mk1, keeps_mk2]
    | simp (zetaDelta := true) only [keeps_mk1, keeps_mk2]

theorem State.claimSlot_keeps {s0 s : State} (h_ : Keeps s0 s) (c : Nat) (d : Nat) :
    KeepsOP s0 (State.claimSlot s c d) := by
  unfold State.claimSlot
  repeat' first
    | with_reducible assumption
    | (extract_lets +onlyGivenNames x; refine keeps_cut (p := Keeps s0 x) ?_ (fun hx => ?_) <;> [subst x; clear_value x])
    | (extract_lets +onlyGivenNames x; refine keeps_cut (p := Keeps s0 x.1) ?_ (fun hx => ?_) <;> [subst x; clear_value x])
    | extract_lets +onlyGivenNames x
    | with_reducible apply State.wr_keeps
    | with_reducible apply State.setSlot_keeps
    | with_reducible apply keepsOP_ite
    | with_reducible apply keeps_ite
    | with_reducible apply keepsOP_none
    | with_reducible apply keepsOP_some
theorem State.claimSlot_keeps' {s0 s t' : State} {y} {c : Nat} {d : Nat} (e_ : State.claimSlot s c d = some (t', y)) (h_ : Keeps s0 s) : Keeps s0 t' := State.claimSlot_keeps h_ c d t' _ e_

theorem State.claimSlots_keeps {s0 : State} (c d n : Nat) : ∀ {s : State}, Keeps s0 s → KeepsOP s0 (s.claimSlots c d n) := by
  induction n with
  | zero => exact fun h => keepsOP_some h
  | succ n ih =>
    intro s h
    unfold State.claimSlots
    split
    · exact keepsOP_none
    · rename_i e
      exact keepsOP_map (ih (State.claimSlot_keeps' e h)) (fun _ hx => hx)
theorem State.claimSlots_keeps' {s0 s t : State} {y} {c d n : Nat} (e_ : s.claimSlots c d n = some (t, y)) (h_ : Keeps s0 s) : Keeps s0 t :=
  State.claimSlots_keeps c d n h_ t y e_

theorem State.commitSlot_keeps {s0 s : State} (h_ : Keeps s0 s) (c : Nat) (d : Nat) (r : Nat) :
    Keeps s0 (State.commitSlot s c d r) := by
  unfold State.commitSlot
  repeat' first
    | with_reducible assumption
    | (extract_lets +onlyGivenNames x; refine keeps_cut (p := Keeps s0 x) ?_ (fun hx => ?_) <;> [subst x; clear_value x])
    | (extract_lets +onlyGivenNames x; refine keeps_cut (p := Keeps s0 x.1) ?_ (fun hx => ?_) <;> [subst x; clear_value x])
    | extract_lets +onlyGivenNames x
    | with_reducible apply State.wr_keeps
    | with_reducible apply State.setSlot_keeps

theorem State.popSlot_keeps {s0 s : State} (h_ : Keeps s0 s) (c : Nat) (d : Nat) :
    KeepsOP s0 (State.popSlot s c d) := by
  unfold State.popSlot
  repeat' first
    | with_reducible assumption
    | (extract_lets +onlyGivenNames x; refine keeps_cut (p := Keeps s0 x) ?_ (fun hx => ?_) <;> [subst x; clear_value x])
    | (extract_lets +onlyGivenNames x; refine keeps_cut (p := Keeps s0 x.1) ?_ (fun hx => ?_) <;> [subst x; clear_value x])
    | extract_lets +onlyGivenNames x
    | with_reducible apply State.wr_keeps
    | with_reducible apply State.setSlot_keeps
    | with_reducible apply keepsOP_ite
    | with_reducible apply keeps_ite
    | with_reducible apply keepsOP_none
    | with_reducible apply keepsOP_some
theorem State.popSlot_keeps' {s0 s t' : State} {y} {c : Nat} {d : Nat} (e_ : State.popSlot s c d = some (t', y)) (h_ : Keeps s0 s) : Keeps s0 t' := State.popSlot_keeps h_ c d t' _ e_

theorem State.resetDrawer_keeps {s0 s : State} (h_ : Keeps s0 s) (c : Nat) (d : Nat) :
    Keeps s0 (State.resetDrawer s c d) := by
  unfold State.resetDrawer
  repeat' first
    | with_reducible assumption
    | (extract_lets +onlyGivenNames x; refine keeps_cut (p := Keeps s0 x) ?_ (fun hx => ?_) <;> [subst x; clear_value x])
    | (extract_lets +onlyGivenNames x; refine keeps_cut (p := Keeps s0 x.1) ?_ (fun hx => ?_) <;> [subst x; clear_value x])
    | extract_lets +onlyGivenNames x
    | with_reducible apply State.wr_keeps
    | simp -zeta only [keeps_mk1, keeps_mk2]
    | (intro i; intros; try beta_reduce)
    | simp only [keeps_mk1, keeps_mk2]
    | simp (zetaDelta := true) only [keeps_mk1, keeps_mk2]

theorem State.claimRows_keeps {s0 s : State} (h_ : Keeps s0 s) (c : Nat) (f : RowField) (n : Nat) : KeepsE s0 (s.claimRows c f n) := by
  unfold State.claimRows
  split
  · split
    · rename_i x e
      exact keepsE_ok (State.claimSlots_keeps' (y := x.2) (e.trans rfl) h_)
    · exact keepsE_error
  · exact keepsE_ite (keepsE_ok h_) keepsE_error
theorem State.claimRows_keeps' {s0 s t : State} {y} {c : Nat} {f : RowField} {n : Nat} (e_ : s.claimRows c f n = .ok (t, y)) (h_ : Keeps s0 s) :
    Keeps s0 t := State.claimRows_keeps h_ c f n t y e_

theorem State.synError_keeps {s0 s : State} (h_ : Keeps s0 s) (c : Nat) (kind : Nat) (stream : Nat) (target : Nat) (position : Nat) (completion : Bool) :
    Keeps s0 (State.synError s c kind stream target position completion) := by
  unfold State.synError
  repeat' first
    | with_reducible assumption
    | (extract_lets +onlyGivenNames x; refine keeps_cut (p := Keeps s0 x) ?_ (fun hx => ?_) <;> [subst x; clear_value x])
    | (extract_lets +onlyGivenNames x; refine keeps_cut (p := Keeps s0 x.1) ?_ (fun hx => ?_) <;> [subst x; clear_value x])
    | extract_lets +onlyGivenNames x
    | with_reducible apply State.wr_keeps
    | with_reducible apply State.abort_keeps
    | with_reducible apply keeps_ite

theorem State.signalCell_keeps {s0 s : State} (h_ : Keeps s0 s) (c : Nat) (n : Nat) (op : Nat) (x : Nat) (stream : Nat) (position : Nat) (completion : Bool) :
    Keeps s0 (State.signalCell s c n op x stream position completion) := by
  unfold State.signalCell
  repeat' first
    | with_reducible assumption
    | (extract_lets +onlyGivenNames x; refine keeps_cut (p := Keeps s0 x) ?_ (fun hx => ?_) <;> [subst x; clear_value x])
    | (extract_lets +onlyGivenNames x; refine keeps_cut (p := Keeps s0 x.1) ?_ (fun hx => ?_) <;> [subst x; clear_value x])
    | extract_lets +onlyGivenNames x
    | with_reducible apply State.wr_keeps
    | with_reducible apply State.synError_keeps
    | split

theorem State.clearCell_keeps {s0 s : State} (h_ : Keeps s0 s) (c : Nat) (n : Nat) (v : Nat) :
    Keeps s0 (State.clearCell s c n v) := by
  unfold State.clearCell
  repeat' first
    | with_reducible assumption
    | (extract_lets +onlyGivenNames x; refine keeps_cut (p := Keeps s0 x) ?_ (fun hx => ?_) <;> [subst x; clear_value x])
    | (extract_lets +onlyGivenNames x; refine keeps_cut (p := Keeps s0 x.1) ?_ (fun hx => ?_) <;> [subst x; clear_value x])
    | extract_lets +onlyGivenNames x
    | with_reducible apply State.wr_keeps

theorem State.stileClaim_keeps {s0 s : State} (h_ : Keeps s0 s) (c : Nat) (k : Nat) (stream : Nat) (mask : Nat) (position : Nat) (completion : Bool) :
    Keeps s0 (State.stileClaim s c k stream mask position completion) := by
  unfold State.stileClaim
  repeat' first
    | with_reducible assumption
    | (extract_lets +onlyGivenNames x; refine keeps_cut (p := Keeps s0 x) ?_ (fun hx => ?_) <;> [subst x; clear_value x])
    | (extract_lets +onlyGivenNames x; refine keeps_cut (p := Keeps s0 x.1) ?_ (fun hx => ?_) <;> [subst x; clear_value x])
    | extract_lets +onlyGivenNames x
    | with_reducible apply State.wr_keeps
    | with_reducible apply State.synError_keeps
    | with_reducible apply keeps_ite

theorem State.stileArrive_keeps {s0 s : State} (h_ : Keeps s0 s) (c : Nat) (k : Nat) (stream : Nat) (position : Nat) (completion : Bool) :
    Keeps s0 (State.stileArrive s c k stream position completion) := by
  unfold State.stileArrive
  repeat' first
    | with_reducible assumption
    | (extract_lets +onlyGivenNames x; refine keeps_cut (p := Keeps s0 x) ?_ (fun hx => ?_) <;> [subst x; clear_value x])
    | (extract_lets +onlyGivenNames x; refine keeps_cut (p := Keeps s0 x.1) ?_ (fun hx => ?_) <;> [subst x; clear_value x])
    | extract_lets +onlyGivenNames x
    | with_reducible apply State.wr_keeps
    | with_reducible apply State.synError_keeps
    | with_reducible apply keeps_ite
    | simp -zeta only [keeps_mk1, keeps_mk2]

theorem State.clearStile_keeps {s0 s : State} (h_ : Keeps s0 s) (c : Nat) (k : Nat) :
    Keeps s0 (State.clearStile s c k) := by
  unfold State.clearStile
  repeat' first
    | with_reducible assumption
    | (extract_lets +onlyGivenNames x; refine keeps_cut (p := Keeps s0 x) ?_ (fun hx => ?_) <;> [subst x; clear_value x])
    | (extract_lets +onlyGivenNames x; refine keeps_cut (p := Keeps s0 x.1) ?_ (fun hx => ?_) <;> [subst x; clear_value x])
    | extract_lets +onlyGivenNames x
    | with_reducible apply State.wr_keeps
    | simp -zeta only [keeps_mk1, keeps_mk2]

theorem State.doneSignal_keeps {s0 s : State} (h_ : Keeps s0 s) (o : Op) :
    Keeps s0 (State.doneSignal s o) := by
  unfold State.doneSignal
  repeat' first
    | with_reducible assumption
    | with_reducible apply State.signalCell_keeps
    | with_reducible apply State.stileArrive_keeps
    | with_reducible apply keeps_ite

theorem State.setOp_keeps {s0 s : State} (h_ : Keeps s0 s) (id : Nat) (k : OpKind) :
    Keeps s0 (State.setOp s id k) := by
  unfold State.setOp
  repeat' first
    | with_reducible assumption
    | with_reducible apply keeps_ite
    | simp -zeta only [keeps_mk1, keeps_mk2]
    | (intro i; intros; try beta_reduce)

theorem State.addOp_keeps {s0 s : State} (h_ : Keeps s0 s) (core : Nat) (side : Nat) (stream : Nat) (position : Nat) (done : Nat) (drawer : Option Nat) (k : OpKind) :
    Keeps s0 (State.addOp s core side stream position done drawer k) := by
  unfold State.addOp
  repeat' first
    | with_reducible assumption
    | (extract_lets +onlyGivenNames x; refine keeps_cut (p := Keeps s0 x) ?_ (fun hx => ?_) <;> [subst x; clear_value x])
    | (extract_lets +onlyGivenNames x; refine keeps_cut (p := Keeps s0 x.1) ?_ (fun hx => ?_) <;> [subst x; clear_value x])
    | extract_lets +onlyGivenNames x
    | with_reducible apply State.setStream_keeps
    | simp -zeta only [keeps_mk1, keeps_mk2]

theorem State.dropOp_keeps {s0 s : State} (h_ : Keeps s0 s) (o : Op) :
    Keeps s0 (State.dropOp s o) := by
  unfold State.dropOp
  repeat' first
    | with_reducible assumption
    | (extract_lets +onlyGivenNames x; refine keeps_cut (p := Keeps s0 x) ?_ (fun hx => ?_) <;> [subst x; clear_value x])
    | (extract_lets +onlyGivenNames x; refine keeps_cut (p := Keeps s0 x.1) ?_ (fun hx => ?_) <;> [subst x; clear_value x])
    | extract_lets +onlyGivenNames x
    | with_reducible apply State.setStream_keeps
    | simp -zeta only [keeps_mk1, keeps_mk2]
    | (intro i; intros; try beta_reduce)

theorem State.completeOp_keeps {s0 s : State} (h_ : Keeps s0 s) (o : Op) :
    Keeps s0 (State.completeOp s o) := by
  unfold State.completeOp
  repeat' first
    | with_reducible assumption
    | with_reducible apply State.doneSignal_keeps
    | with_reducible apply State.dropOp_keeps

theorem State.addAct_keeps {s0 s : State} (h_ : Keeps s0 s) (c : Nat) (op : Nat) (start : Nat) (upto : Nat) (weight : Nat) :
    Keeps s0 (State.addAct s c op start upto weight) := by
  unfold State.addAct
  repeat' first
    | with_reducible assumption
    | with_reducible apply State.start_keeps
    | simp -zeta only [keeps_mk1, keeps_mk2]

theorem State.endActs_keeps {s0 s : State} (h_ : Keeps s0 s) (c : Nat) (op : Nat) :
    Keeps s0 (State.endActs s c op) := by
  unfold State.endActs
  repeat' first
    | with_reducible assumption
    | simp -zeta only [keeps_mk1, keeps_mk2]
    | (intro i; intros; try beta_reduce)

theorem State.issueWrite_keeps {s0 s : State} (h_ : Keeps s0 s) (c : Nat) (row : Nat) (bytes : List Byte) (poison : Bool) (drawer : Option Nat) (op : Nat) :
    Keeps s0 (State.issueWrite s c row bytes poison drawer op) := by
  unfold State.issueWrite
  repeat' first
    | with_reducible assumption
    | simp -zeta only [keeps_mk1, keeps_mk2]

theorem State.setPatrol_keeps {s0 s : State} (h_ : Keeps s0 s) (c : Nat) (b : Nat) (x : Patrol) :
    Keeps s0 (State.setPatrol s c b x) := by
  unfold State.setPatrol
  repeat' first
    | with_reducible assumption
    | simp -zeta only [keeps_mk1, keeps_mk2]
    | simp only [keeps_mk1, keeps_mk2]
    | simp (zetaDelta := true) only [keeps_mk1, keeps_mk2]

theorem State.cancelFix_keeps {s0 s : State} (h_ : Keeps s0 s) (c : Nat) (row : Nat) :
    Keeps s0 (State.cancelFix s c row) := by
  unfold State.cancelFix
  repeat' first
    | with_reducible assumption
    | (extract_lets +onlyGivenNames x; refine keeps_cut (p := Keeps s0 x) ?_ (fun hx => ?_) <;> [subst x; clear_value x])
    | (extract_lets +onlyGivenNames x; refine keeps_cut (p := Keeps s0 x.1) ?_ (fun hx => ?_) <;> [subst x; clear_value x])
    | extract_lets +onlyGivenNames x
    | with_reducible apply State.setPatrol_keeps
    | with_reducible apply keeps_ite
    | simp -zeta only [keeps_mk1, keeps_mk2]
    | split

theorem State.commitRow_keeps {s0 s : State} (h_ : Keeps s0 s) (c : Nat) (row : Nat) (bytes : List Byte) (poison : Bool) (drawer : Option Nat) :
    Keeps s0 (State.commitRow s c row bytes poison drawer) := by
  unfold State.commitRow
  repeat' first
    | with_reducible assumption
    | (extract_lets +onlyGivenNames x; refine keeps_cut (p := Keeps s0 x) ?_ (fun hx => ?_) <;> [subst x; clear_value x])
    | (extract_lets +onlyGivenNames x; refine keeps_cut (p := Keeps s0 x.1) ?_ (fun hx => ?_) <;> [subst x; clear_value x])
    | extract_lets +onlyGivenNames x
    | with_reducible apply State.setRow_keeps
    | with_reducible apply State.commitSlot_keeps
    | with_reducible apply State.cancelFix_keeps
    | split

end Sys2Proof.Machine
end

