-- ==== Sys2Proof/Laws/KeepsBarMap.lean ====
section
/-! SUPPORT. What the operations of Machine/BarMap.lean never undo (Keeps of Safety.lean): one lemma per operation. -/

set_option linter.all false

namespace Sys2Proof.Machine

theorem State.hostRead_keeps {s0 s : State} (h_ : Keeps s0 s) (fn off width : Nat) : Keeps s0 (s.hostRead fn off width).2 := by
  unfold State.hostRead
  extract_lets ones
  split
  · exact h_
  · refine keepsQ_ite h_ (keepsQ_ite h_ (keepsQ_ite h_ ?_))
    refine keepsQ_ite h_ (keepsQ_ite (keeps_mk1.2 h_) ?_)
    split
    · exact h_
    · exact keeps_mk1.2 h_
theorem State.hostRead_keeps' {s0 s t' : State} {y} {fn off width : Nat} (e_ : s.hostRead fn off width = (y, t')) (h_ : Keeps s0 s) :
    Keeps s0 t' := by
  have := State.hostRead_keeps h_ fn off width
  rw [e_] at this
  exact this

theorem State.countRegErr_keeps {s0 s : State} (h_ : Keeps s0 s) (fn : Nat) :
    Keeps s0 (State.countRegErr s fn) := by
  unfold State.countRegErr
  repeat' first
    | with_reducible assumption
    | with_reducible apply State.bump_keeps
    | with_reducible apply keeps_ite

theorem State.msixWrite_keeps {s0 s : State} (h_ : Keeps s0 s) (fn : Nat) (off : Nat) (v : Nat) :
    Keeps s0 (State.msixWrite s fn off v) := by
  unfold State.msixWrite
  repeat' first
    | with_reducible assumption
    | (extract_lets +onlyGivenNames x; refine keeps_cut (p := Keeps s0 x) ?_ (fun hx => ?_) <;> [subst x; clear_value x])
    | (extract_lets +onlyGivenNames x; refine keeps_cut (p := Keeps s0 x.1) ?_ (fun hx => ?_) <;> [subst x; clear_value x])
    | extract_lets +onlyGivenNames x
    | with_reducible apply keeps_ite
    | simp -zeta only [keeps_mk1, keeps_mk2]

theorem execRegisterWrite_keeps {s0 s : State} (h_ : Keeps s0 s) (fn : Fin 17) (off : Nat) (width : Nat) (data : Word64) :
    KeepsOut s0 (execRegisterWrite fn off width data s) := by
  unfold execRegisterWrite
  repeat' first
    | with_reducible assumption
    | (extract_lets +onlyGivenNames x; refine keeps_cut (p := Keeps s0 x) ?_ (fun hx => ?_) <;> [subst x; clear_value x])
    | (extract_lets +onlyGivenNames x; refine keeps_cut (p := Keeps s0 x.1) ?_ (fun hx => ?_) <;> [subst x; clear_value x])
    | extract_lets +onlyGivenNames x
    | with_reducible apply State.wr_keeps
    | with_reducible apply State.countRegErr_keeps
    | with_reducible apply State.msixWrite_keeps
    | with_reducible apply keeps_foldl
    | with_reducible apply keeps_foldl_fst
    | with_reducible apply keepsOut_ite
    | with_reducible apply keeps_ite
    | with_reducible apply keepsOut_next
    | split
    | (intro i; intros; try beta_reduce)

theorem execWrongWidthAccess_keeps {s0 s : State} (h_ : Keeps s0 s) (fn : Fin 17) (off : Nat) (width : Nat) (write : Bool) :
    KeepsOut s0 (execWrongWidthAccess fn off width write s) := by
  unfold execWrongWidthAccess
  repeat' first
    | with_reducible assumption
    | (extract_lets +onlyGivenNames x; refine keeps_cut (p := Keeps s0 x) ?_ (fun hx => ?_) <;> [subst x; clear_value x])
    | (extract_lets +onlyGivenNames x; refine keeps_cut (p := Keeps s0 x.1) ?_ (fun hx => ?_) <;> [subst x; clear_value x])
    | extract_lets +onlyGivenNames x
    | with_reducible apply State.emit_keeps
    | with_reducible apply State.countRegErr_keeps
    | with_reducible apply keepsOut_ite
    | with_reducible apply keeps_ite
    | with_reducible apply keepsOut_next
    | split

theorem execReservedOffsetAccess_keeps {s0 s : State} (h_ : Keeps s0 s) (fn : Fin 17) (off : Nat) (width : Nat) (write : Bool) :
    KeepsOut s0 (execReservedOffsetAccess fn off width write s) := by
  unfold execReservedOffsetAccess
  repeat' first
    | with_reducible assumption
    | with_reducible apply State.emit_keeps
    | with_reducible apply keepsOut_ite
    | with_reducible apply keeps_ite
    | with_reducible apply keepsOut_next
    | split

end Sys2Proof.Machine
end

