-- ==== Sys2Proof/Laws/KeepsPorts.lean ====
section
/-! SUPPORT. What the operations of Machine/Ports.lean never undo (Keeps of Safety.lean): one lemma per operation. -/

set_option linter.all false

namespace Sys2Proof.Machine

theorem State.setPort_keeps {s0 s : State} (h_ : Keeps s0 s) (q : Nat) (x : Port) :
    Keeps s0 (State.setPort s q x) := by
  unfold State.setPort
  repeat' first
    | with_reducible assumption
    | simp -zeta only [keeps_mk1, keeps_mk2]

theorem State.returnCredit_keeps {s0 s : State} (h_ : Keeps s0 s) (q : Nat) (pool : Nat) :
    Keeps s0 (State.returnCredit s q pool) := by
  unfold State.returnCredit
  repeat' first
    | with_reducible assumption
    | (extract_lets +onlyGivenNames x; refine keeps_cut (p := Keeps s0 x) ?_ (fun hx => ?_) <;> [subst x; clear_value x])
    | (extract_lets +onlyGivenNames x; refine keeps_cut (p := Keeps s0 x.1) ?_ (fun hx => ?_) <;> [subst x; clear_value x])
    | extract_lets +onlyGivenNames x
    | with_reducible apply State.setPort_keeps
    | with_reducible apply keeps_ite
    | simp -zeta only [keeps_mk1, keeps_mk2]

theorem State.handOver_keeps {s0 s : State} (h_ : Keeps s0 s) (q : Nat) (vl : Nat) (owner : Nat) (n : Nat) :
    Keeps s0 (State.handOver s q vl owner n) := by
  unfold State.handOver
  repeat' first
    | with_reducible assumption
    | (extract_lets +onlyGivenNames x; refine keeps_cut (p := Keeps s0 x) ?_ (fun hx => ?_) <;> [subst x; clear_value x])
    | (extract_lets +onlyGivenNames x; refine keeps_cut (p := Keeps s0 x.1) ?_ (fun hx => ?_) <;> [subst x; clear_value x])
    | extract_lets +onlyGivenNames x
    | with_reducible apply loopN_keeps
    | with_reducible apply State.setPort_keeps
    | with_reducible apply State.returnCredit_keeps
    | simp -zeta only [keeps_mk1, keeps_mk2]
    | (intro i; intros; try beta_reduce)

theorem State.consume_keeps {s0 s : State} (h_ : Keeps s0 s) (q : Nat) (m : Msg) :
    Keeps s0 (State.consume s q m) := by
  unfold State.consume
  repeat' first
    | with_reducible assumption
    | (extract_lets +onlyGivenNames x; refine keeps_cut (p := Keeps s0 x) ?_ (fun hx => ?_) <;> [subst x; clear_value x])
    | (extract_lets +onlyGivenNames x; refine keeps_cut (p := Keeps s0 x.1) ?_ (fun hx => ?_) <;> [subst x; clear_value x])
    | extract_lets +onlyGivenNames x
    | with_reducible apply State.setPort_keeps
    | with_reducible apply State.handOver_keeps
    | simp -zeta only [keeps_mk1, keeps_mk2]
    | split
    | (intro i; intros; try beta_reduce)

end Sys2Proof.Machine
end

