-- ==== Sys2Proof/Laws/KeepsStop.lean ====
section
/-! SUPPORT. What the operations of Machine/Stop.lean never undo (Keeps of Safety.lean): one lemma per operation. -/

set_option linter.all false

namespace Sys2Proof.Machine

theorem State.abortScope1_keeps {s0 s : State} (h_ : Keeps s0 s) (p : Nat) (cause : Nat) (fanout : Bool) :
    Keeps s0 (s.abortScope1 p cause fanout).1 := by
  unfold State.abortScope1
  extract_lets t ended t2 r t3 t4
  have k : Keeps s0 t := State.abortWith_keeps h_ ..
  have k2 : Keeps s0 t2 := keeps_foldl k (fun _ _ hx => State.complete_keeps hx ..)
  have k3 : Keeps s0 t3 := State.setRuns_keeps k2 ..
  exact ⟨k3.1, k3.2, k3.3, k3.4⟩
theorem State.abortScope1_keeps' {s0 s t' : State} {y} {p cause : Nat} {fanout : Bool} (e_ : s.abortScope1 p cause fanout = (t', y))
    (h_ : Keeps s0 s) : Keeps s0 t' := by
  have := State.abortScope1_keeps h_ p cause fanout
  rw [e_] at this
  exact this

theorem State.clearPairs_keeps {s0 s : State} (h_ : Keeps s0 s) (fn : Nat) :
    Keeps s0 (State.clearPairs s fn) := by
  unfold State.clearPairs
  repeat' first
    | with_reducible assumption
    | (extract_lets +onlyGivenNames x; refine keeps_cut (p := Keeps s0 x) ?_ (fun hx => ?_) <;> [subst x; clear_value x])
    | (extract_lets +onlyGivenNames x; refine keeps_cut (p := Keeps s0 x.1) ?_ (fun hx => ?_) <;> [subst x; clear_value x])
    | extract_lets +onlyGivenNames x
    | with_reducible apply State.wr_keeps
    | with_reducible apply loopN_keeps
    | with_reducible apply keeps_ite
    | (intro i; intros; try beta_reduce)

theorem State.quiesce_keeps {s0 s : State} (h_ : Keeps s0 s) (p : Nat) :
    Keeps s0 (State.quiesce s p) := by
  unfold State.quiesce
  repeat' first
    | with_reducible assumption
    | (extract_lets +onlyGivenNames x; refine keeps_cut (p := Keeps s0 x) ?_ (fun hx => ?_) <;> [subst x; clear_value x])
    | (extract_lets +onlyGivenNames x; refine keeps_cut (p := Keeps s0 x.1) ?_ (fun hx => ?_) <;> [subst x; clear_value x])
    | extract_lets +onlyGivenNames x
    | with_reducible apply State.wr_keeps
    | with_reducible apply State.start_keeps
    | with_reducible apply State.clearPairs_keeps
    | with_reducible apply keeps_ite

theorem State.tdiError_keeps {s0 s : State} (h_ : Keeps s0 s) (n : Nat) (cause : Nat) :
    Keeps s0 (State.tdiError s n cause) := by
  unfold State.tdiError
  repeat' first
    | with_reducible assumption
    | (extract_lets +onlyGivenNames x; refine keeps_cut (p := Keeps s0 x) ?_ (fun hx => ?_) <;> [subst x; clear_value x])
    | (extract_lets +onlyGivenNames x; refine keeps_cut (p := Keeps s0 x.1) ?_ (fun hx => ?_) <;> [subst x; clear_value x])
    | extract_lets +onlyGivenNames x
    | with_reducible apply State.wr_keeps
    | with_reducible apply State.bump_keeps
    | with_reducible apply State.eventBoth_keeps
    | with_reducible apply State.abortScope1_keeps
    | with_reducible apply State.quiesce_keeps
    | with_reducible apply keeps_ite
    | refine State.abortScope1_keeps' (by with_reducible assumption) ?_

theorem State.tdiConfigChanged_keeps {s0 s : State} (h_ : Keeps s0 s) (p : Nat) :
    Keeps s0 (State.tdiConfigChanged s p) := by
  unfold State.tdiConfigChanged
  repeat' first
    | with_reducible assumption
    | (extract_lets +onlyGivenNames x; refine keeps_cut (p := Keeps s0 x) ?_ (fun hx => ?_) <;> [subst x; clear_value x])
    | (extract_lets +onlyGivenNames x; refine keeps_cut (p := Keeps s0 x.1) ?_ (fun hx => ?_) <;> [subst x; clear_value x])
    | extract_lets +onlyGivenNames x
    | with_reducible apply State.wr_keeps
    | with_reducible apply State.event_keeps
    | with_reducible apply keeps_ite

theorem State.setSession_keeps {s0 s : State} (h_ : Keeps s0 s) (tr : Nat) (slot : Nat) (x : Option Sess) :
    Keeps s0 (State.setSession s tr slot x) := by
  unfold State.setSession
  repeat' first
    | with_reducible assumption
    | simp -zeta only [keeps_mk1, keeps_mk2]

theorem State.syncSessions_keeps {s0 s : State} (h_ : Keeps s0 s) :
    Keeps s0 (State.syncSessions s) := by
  unfold State.syncSessions
  repeat' first
    | with_reducible assumption
    | with_reducible apply State.wr_keeps
    | (intro i; intros; try beta_reduce)

theorem State.openSession_keeps {s0 s : State} (h_ : Keeps s0 s) (tr : Nat) (slot : Nat) :
    Keeps s0 (State.openSession s tr slot) := by
  unfold State.openSession
  repeat' first
    | with_reducible assumption
    | with_reducible apply State.bump_keeps
    | with_reducible apply State.setSession_keeps
    | with_reducible apply State.syncSessions_keeps

theorem State.closeSession_keeps {s0 s : State} (h_ : Keeps s0 s) (tr : Nat) (slot : Nat) :
    Keeps s0 (State.closeSession s tr slot) := by
  unfold State.closeSession
  repeat' first
    | with_reducible assumption
    | (extract_lets +onlyGivenNames x; refine keeps_cut (p := Keeps s0 x) ?_ (fun hx => ?_) <;> [subst x; clear_value x])
    | (extract_lets +onlyGivenNames x; refine keeps_cut (p := Keeps s0 x.1) ?_ (fun hx => ?_) <;> [subst x; clear_value x])
    | extract_lets +onlyGivenNames x
    | with_reducible apply State.wr_keeps
    | with_reducible apply State.bump_keeps
    | with_reducible apply State.tdiError_keeps
    | with_reducible apply State.setSession_keeps
    | with_reducible apply State.syncSessions_keeps
    | with_reducible apply keeps_ite
    | split

theorem State.endSessions_keeps {s0 s : State} (h_ : Keeps s0 s) :
    Keeps s0 (State.endSessions s) := by
  unfold State.endSessions
  repeat' first
    | with_reducible assumption
    | with_reducible apply State.closeSession_keeps
    | with_reducible apply keeps_foldl
    | with_reducible apply keeps_foldl_fst
    | split
    | (intro i; intros; try beta_reduce)

end Sys2Proof.Machine
end

