-- ==== Sys2Proof/Laws/KeepsHostIf.lean ====
section
/-! SUPPORT. What the operations of Machine/HostIf.lean never undo (Keeps of Safety.lean): one lemma per operation. -/

set_option linter.all false

namespace Sys2Proof.Machine

theorem State.setWindow_keeps {s0 s : State} (h_ : Keeps s0 s) (fn : Nat) (w : Nat) (x : Window) :
    Keeps s0 (State.setWindow s fn w x) := by
  unfold State.setWindow
  repeat' first
    | with_reducible assumption
    | (extract_lets +onlyGivenNames x; refine keeps_cut (p := Keeps s0 x) ?_ (fun hx => ?_) <;> [subst x; clear_value x])
    | (extract_lets +onlyGivenNames x; refine keeps_cut (p := Keeps s0 x.1) ?_ (fun hx => ?_) <;> [subst x; clear_value x])
    | extract_lets +onlyGivenNames x
    | with_reducible apply State.wr_keeps
    | with_reducible apply State.syncXstat_keeps
    | with_reducible apply keeps_ite
    | simp -zeta only [keeps_mk1, keeps_mk2]

theorem execHostWindowSet_keeps {s0 s : State} (h_ : Keeps s0 s) (h : Hdr) (window : Nat) (flags : Nat) (pasid : Nat) (base : Nat) (size : Nat) :
    KeepsOut s0 (execHostWindowSet h window flags pasid base size s) := by
  unfold execHostWindowSet
  repeat' first
    | with_reducible assumption
    | (extract_lets +onlyGivenNames x; refine keeps_cut (p := Keeps s0 x) ?_ (fun hx => ?_) <;> [subst x; clear_value x])
    | (extract_lets +onlyGivenNames x; refine keeps_cut (p := Keeps s0 x.1) ?_ (fun hx => ?_) <;> [subst x; clear_value x])
    | extract_lets +onlyGivenNames x
    | with_reducible apply State.complete_keeps
    | with_reducible apply State.start_keeps
    | with_reducible apply State.park_keeps
    | with_reducible apply State.checked_keeps
    | with_reducible apply State.setWindow_keeps
    | with_reducible apply keepsOut_ite
    | with_reducible apply keeps_ite
    | with_reducible apply keepsOut_next
    | (intro i; intros; try beta_reduce)

theorem execWin0Apply_keeps {s0 s : State} (h_ : Keeps s0 s) (fn : Fin 17) :
    KeepsOut s0 (execWin0Apply fn s) := by
  unfold execWin0Apply
  repeat' first
    | with_reducible assumption
    | (extract_lets +onlyGivenNames x; refine keeps_cut (p := Keeps s0 x) ?_ (fun hx => ?_) <;> [subst x; clear_value x])
    | (extract_lets +onlyGivenNames x; refine keeps_cut (p := Keeps s0 x.1) ?_ (fun hx => ?_) <;> [subst x; clear_value x])
    | extract_lets +onlyGivenNames x
    | with_reducible apply State.wr_keeps
    | with_reducible apply State.setWindow_keeps
    | with_reducible apply keepsOut_ite
    | with_reducible apply keeps_ite
    | with_reducible apply keepsOut_next

theorem execWin0ErrClear_keeps {s0 s : State} (h_ : Keeps s0 s) (fn : Fin 17) :
    KeepsOut s0 (execWin0ErrClear fn s) := by
  unfold execWin0ErrClear
  repeat' first
    | with_reducible assumption
    | with_reducible apply State.wr_keeps
    | with_reducible apply keepsOut_next

theorem State.setPhase_keeps {s0 s : State} (h_ : Keeps s0 s) (h : Hdr) (ph : Phase) :
    Keeps s0 (State.setPhase s h ph) := by
  unfold State.setPhase
  repeat' first
    | with_reducible assumption
    | with_reducible apply keeps_ite
    | simp -zeta only [keeps_mk1, keeps_mk2]
    | (intro i; intros; try beta_reduce)

theorem State.syncFq_keeps {s0 s : State} (h_ : Keeps s0 s) (fn : Nat) :
    Keeps s0 (State.syncFq s fn) := by
  unfold State.syncFq
  repeat' first
    | with_reducible assumption
    | (extract_lets +onlyGivenNames x; refine keeps_cut (p := Keeps s0 x) ?_ (fun hx => ?_) <;> [subst x; clear_value x])
    | (extract_lets +onlyGivenNames x; refine keeps_cut (p := Keeps s0 x.1) ?_ (fun hx => ?_) <;> [subst x; clear_value x])
    | extract_lets +onlyGivenNames x
    | with_reducible apply State.wr_keeps

theorem State.sendGroup_keeps {s0 s : State} (h_ : Keeps s0 s) (t : Taken) :
    Keeps s0 (State.sendGroup s t) := by
  unfold State.sendGroup
  repeat' first
    | with_reducible assumption
    | (extract_lets +onlyGivenNames x; refine keeps_cut (p := Keeps s0 x) ?_ (fun hx => ?_) <;> [subst x; clear_value x])
    | (extract_lets +onlyGivenNames x; refine keeps_cut (p := Keeps s0 x.1) ?_ (fun hx => ?_) <;> [subst x; clear_value x])
    | extract_lets +onlyGivenNames x
    | with_reducible apply State.bump_keeps
    | with_reducible apply State.emit_keeps
    | with_reducible apply State.setProg_keeps
    | with_reducible apply keeps_ite
    | (intro i; intros; try beta_reduce)

theorem State.faultCmd_keeps {s0 s : State} (h_ : Keeps s0 s) (t : Taken) :
    Keeps s0 (State.faultCmd s t) := by
  unfold State.faultCmd
  repeat' first
    | with_reducible assumption
    | (extract_lets +onlyGivenNames x; refine keeps_cut (p := Keeps s0 x) ?_ (fun hx => ?_) <;> [subst x; clear_value x])
    | (extract_lets +onlyGivenNames x; refine keeps_cut (p := Keeps s0 x.1) ?_ (fun hx => ?_) <;> [subst x; clear_value x])
    | extract_lets +onlyGivenNames x
    | with_reducible apply State.bump_keeps
    | with_reducible apply State.setPhase_keeps
    | with_reducible apply State.syncFq_keeps
    | with_reducible apply State.sendGroup_keeps
    | with_reducible apply keeps_ite

theorem State.unpark_keeps {s0 s : State} (h_ : Keeps s0 s) (fn : Nat) :
    Keeps s0 (State.unpark s fn) := by
  unfold State.unpark
  repeat' first
    | with_reducible assumption
    | with_reducible apply State.setPhase_keeps
    | with_reducible apply State.syncFq_keeps
    | with_reducible apply State.sendGroup_keeps
    | with_reducible apply keeps_ite
    | split
    | (intro i; intros; try beta_reduce)

theorem State.hifErr_keeps {s0 s : State} (h_ : Keeps s0 s) (fn : Nat) (kind : Nat) (window : Nat) (status : Nat) (iova : Nat) :
    Keeps s0 (State.hifErr s fn kind window status iova) := by
  unfold State.hifErr
  repeat' first
    | with_reducible assumption
    | (extract_lets +onlyGivenNames x; refine keeps_cut (p := Keeps s0 x) ?_ (fun hx => ?_) <;> [subst x; clear_value x])
    | (extract_lets +onlyGivenNames x; refine keeps_cut (p := Keeps s0 x.1) ?_ (fun hx => ?_) <;> [subst x; clear_value x])
    | extract_lets +onlyGivenNames x
    | with_reducible apply State.wr_keeps
    | with_reducible apply keeps_ite

theorem State.makeRoom_keeps {s0 s : State} (h_ : Keeps s0 s) (fn : Nat) :
    KeepsO s0 (State.makeRoom s fn) := by
  unfold State.makeRoom
  repeat' first
    | with_reducible assumption
    | with_reducible apply keepsO_ite
    | with_reducible apply keeps_ite
    | with_reducible apply keepsO_none
    | with_reducible apply keepsO_some
    | simp -zeta only [keeps_mk1, keeps_mk2]
    | split
    | (intro i; intros; try beta_reduce)
theorem State.makeRoom_keeps' {s0 s t' : State} {fn : Nat} (e_ : State.makeRoom s fn = some t') (h_ : Keeps s0 s) : Keeps s0 t' := State.makeRoom_keeps h_ fn t' e_

theorem State.readyCmds_keeps {s0 s : State} (h_ : Keeps s0 s) (fn : Nat) :
    Keeps s0 (State.readyCmds s fn) := by
  unfold State.readyCmds
  repeat' first
    | with_reducible assumption
    | with_reducible apply keeps_ite
    | simp -zeta only [keeps_mk1, keeps_mk2]
    | (intro i; intros; try beta_reduce)

theorem execTranslationCompletion_keeps {s0 s : State} (h_ : Keeps s0 s) (fn : Fin 17) (pasid : Option Nat) (base : Nat) (size : Nat)
    (read : Bool) (write : Bool) : KeepsOut s0 (execTranslationCompletion fn pasid base size read write s) := by
  unfold execTranslationCompletion
  extract_lets f x o
  refine keepsOut_ite (keepsOut_next h_) ?_
  have k : KeepsO s0 o := by
    refine keepsO_ite ?_ (keepsO_some h_)
    intro t e
    obtain ⟨u, eu, e⟩ := Option.map_eq_some_iff.1 e
    have ku := State.makeRoom_keeps h_ f u eu
    rw [← e]
    exact ⟨ku.1, ku.2, ku.3, ku.4⟩
  clear_value o
  cases o with
  | none => exact keepsOut_next (State.bump_keeps h_ ..)
  | some t =>
    exact keepsOut_next (State.syncXstat_keeps (State.readyCmds_keeps (keeps_foldl (k t rfl) (fun _ _ hx => State.faultCmd_keeps hx ..)) ..) ..)

theorem execPageRequestGroupResponse_keeps {s0 s : State} (h_ : Keeps s0 s) (fn : Fin 17) (entry : Nat) (response : Fin 3) :
    KeepsOut s0 (execPageRequestGroupResponse fn entry response s) := by
  unfold execPageRequestGroupResponse
  repeat' first
    | with_reducible assumption
    | (extract_lets +onlyGivenNames x; refine keeps_cut (p := Keeps s0 x) ?_ (fun hx => ?_) <;> [subst x; clear_value x])
    | (extract_lets +onlyGivenNames x; refine keeps_cut (p := Keeps s0 x.1) ?_ (fun hx => ?_) <;> [subst x; clear_value x])
    | extract_lets +onlyGivenNames x
    | with_reducible apply State.complete_keeps
    | with_reducible apply State.askPages_keeps
    | with_reducible apply State.syncXstat_keeps
    | with_reducible apply State.setPhase_keeps
    | with_reducible apply State.syncFq_keeps
    | with_reducible apply State.unpark_keeps
    | with_reducible apply State.hifErr_keeps
    | with_reducible apply keeps_foldl
    | with_reducible apply keeps_foldl_fst
    | with_reducible apply keepsOut_ite
    | with_reducible apply keeps_ite
    | with_reducible apply keepsOut_next
    | simp -zeta only [keeps_mk1, keeps_mk2]
    | split
    | (intro i; intros; try beta_reduce)

theorem execAtsInvalidationRequest_keeps {s0 s : State} (h_ : Keeps s0 s) (fn : Fin 17) (pasid : Option Nat) (base : Nat) (size : Nat) :
    KeepsOut s0 (execAtsInvalidationRequest fn pasid base size s) := by
  unfold execAtsInvalidationRequest
  repeat' first
    | with_reducible assumption
    | (extract_lets +onlyGivenNames x; refine keeps_cut (p := Keeps s0 x) ?_ (fun hx => ?_) <;> [subst x; clear_value x])
    | (extract_lets +onlyGivenNames x; refine keeps_cut (p := Keeps s0 x.1) ?_ (fun hx => ?_) <;> [subst x; clear_value x])
    | extract_lets +onlyGivenNames x
    | with_reducible apply State.bump_keeps
    | with_reducible apply State.askPages_keeps
    | with_reducible apply keeps_foldl
    | with_reducible apply keeps_foldl_fst
    | with_reducible apply keepsOut_ite
    | with_reducible apply keeps_ite
    | with_reducible apply keepsOut_next
    | simp -zeta only [keeps_mk1, keeps_mk2]
    | (intro i; intros; try beta_reduce)

theorem execInvalidationComplete_keeps {s0 s : State} (h_ : Keeps s0 s) (fn : Fin 17) (pasid : Option Nat) (base : Nat) (size : Nat) :
    KeepsOut s0 (execInvalidationComplete fn pasid base size s) := by
  unfold execInvalidationComplete
  repeat' first
    | with_reducible assumption
    | (extract_lets +onlyGivenNames x; refine keeps_cut (p := Keeps s0 x) ?_ (fun hx => ?_) <;> [subst x; clear_value x])
    | (extract_lets +onlyGivenNames x; refine keeps_cut (p := Keeps s0 x.1) ?_ (fun hx => ?_) <;> [subst x; clear_value x])
    | extract_lets +onlyGivenNames x
    | with_reducible apply State.bump_keeps
    | with_reducible apply State.emit_keeps
    | with_reducible apply State.askPages_keeps
    | with_reducible apply State.syncXstat_keeps
    | with_reducible apply State.setPhase_keeps
    | with_reducible apply keeps_foldl
    | with_reducible apply keeps_foldl_fst
    | with_reducible apply keepsOut_next
    | simp -zeta only [keeps_mk1, keeps_mk2]
    | (intro i; intros; try beta_reduce)

theorem execTranslationTimeout_keeps {s0 s : State} (h_ : Keeps s0 s) (fn : Fin 17) (q : Fin 9) (cid : Nat) :
    KeepsOut s0 (execTranslationTimeout fn q cid s) := by
  unfold execTranslationTimeout
  repeat' first
    | with_reducible assumption
    | (extract_lets +onlyGivenNames x; refine keeps_cut (p := Keeps s0 x) ?_ (fun hx => ?_) <;> [subst x; clear_value x])
    | (extract_lets +onlyGivenNames x; refine keeps_cut (p := Keeps s0 x.1) ?_ (fun hx => ?_) <;> [subst x; clear_value x])
    | extract_lets +onlyGivenNames x
    | with_reducible apply State.complete_keeps
    | with_reducible apply State.syncXstat_keeps
    | with_reducible apply State.unpark_keeps
    | with_reducible apply State.hifErr_keeps
    | with_reducible apply keepsOut_ite
    | with_reducible apply keeps_ite
    | with_reducible apply keepsOut_next
    | split
    | (intro i; intros; try beta_reduce)

theorem execHostCompletionError_keeps {s0 s : State} (h_ : Keeps s0 s) (user : HostUser) (window : Nat) (addr : Nat) :
    KeepsOut s0 (execHostCompletionError user window addr s) := by
  unfold execHostCompletionError
  repeat' first
    | with_reducible assumption
    | (extract_lets +onlyGivenNames x; refine keeps_cut (p := Keeps s0 x) ?_ (fun hx => ?_) <;> [subst x; clear_value x])
    | (extract_lets +onlyGivenNames x; refine keeps_cut (p := Keeps s0 x.1) ?_ (fun hx => ?_) <;> [subst x; clear_value x])
    | extract_lets +onlyGivenNames x
    | with_reducible apply State.bump_keeps
    | with_reducible apply State.emit_keeps
    | with_reducible apply State.complete_keeps
    | with_reducible apply State.abort_keeps
    | with_reducible apply State.hifErr_keeps
    | with_reducible apply keepsOut_ite
    | with_reducible apply keeps_ite
    | with_reducible apply keepsOut_next
    | split
    | (intro i; intros; try beta_reduce)

theorem execTdiBarRequestRefused_keeps {s0 s : State} (h_ : Keeps s0 s) (fn : Fin 17) (tBit : Bool) (inStream : Bool) :
    KeepsOut s0 (execTdiBarRequestRefused fn tBit inStream s) := by
  unfold execTdiBarRequestRefused
  repeat' first
    | with_reducible assumption
    | with_reducible apply State.emit_keeps
    | with_reducible apply keepsOut_ite
    | with_reducible apply keeps_ite
    | with_reducible apply keepsOut_next

theorem execMsixUnmask_keeps {s0 s : State} (h_ : Keeps s0 s) (fn : Fin 17) (vector : Nat) :
    KeepsOut s0 (execMsixUnmask fn vector s) := by
  unfold execMsixUnmask
  repeat' first
    | with_reducible assumption
    | (extract_lets +onlyGivenNames x; refine keeps_cut (p := Keeps s0 x) ?_ (fun hx => ?_) <;> [subst x; clear_value x])
    | (extract_lets +onlyGivenNames x; refine keeps_cut (p := Keeps s0 x.1) ?_ (fun hx => ?_) <;> [subst x; clear_value x])
    | extract_lets +onlyGivenNames x
    | with_reducible apply State.emit_keeps
    | with_reducible apply State.msix_keeps
    | with_reducible apply keepsOut_ite
    | with_reducible apply keeps_ite
    | with_reducible apply keepsOut_next
    | simp -zeta only [keeps_mk1, keeps_mk2]

theorem execXlateTimeoutMsWrite_keeps {s0 s : State} (h_ : Keeps s0 s) (fn : Fin 17) (v : Nat) :
    KeepsOut s0 (execXlateTimeoutMsWrite fn v s) := by
  unfold execXlateTimeoutMsWrite
  repeat' first
    | with_reducible assumption
    | with_reducible apply State.wr_keeps
    | with_reducible apply keepsOut_next

theorem execHifErr0ValidClear_keeps {s0 s : State} (h_ : Keeps s0 s) (fn : Fin 17) :
    KeepsOut s0 (execHifErr0ValidClear fn s) := by
  unfold execHifErr0ValidClear
  repeat' first
    | with_reducible assumption
    | with_reducible apply State.wr_keeps
    | with_reducible apply keepsOut_next

theorem State.setCfg_keeps {s0 s : State} (h_ : Keeps s0 s) (fn : Nat) (c : FnCfg) :
    Keeps s0 (State.setCfg s fn c) := by
  unfold State.setCfg
  repeat' first
    | with_reducible assumption
    | simp -zeta only [keeps_mk1, keeps_mk2]

theorem State.configItem_keeps {s0 s : State} (h_ : Keeps s0 s) (f : Nat) (item : CfgItem) (v : Nat) :
    Keeps s0 (State.configItem s f item v) := by
  unfold State.configItem
  repeat' first
    | with_reducible assumption
    | (extract_lets +onlyGivenNames x; refine keeps_cut (p := Keeps s0 x) ?_ (fun hx => ?_) <;> [subst x; clear_value x])
    | (extract_lets +onlyGivenNames x; refine keeps_cut (p := Keeps s0 x.1) ?_ (fun hx => ?_) <;> [subst x; clear_value x])
    | extract_lets +onlyGivenNames x
    | with_reducible apply State.setCfg_keeps
    | with_reducible apply keeps_ite
    | simp -zeta only [keeps_mk1, keeps_mk2]
    | split

theorem State.configWrite_keeps {s0 s : State} (h_ : Keeps s0 s) (f : Nat) (item : CfgItem) (v : Nat) :
    Keeps s0 (State.configWrite s f item v) := by
  unfold State.configWrite
  repeat' first
    | with_reducible assumption
    | (extract_lets +onlyGivenNames x; refine keeps_cut (p := Keeps s0 x) ?_ (fun hx => ?_) <;> [subst x; clear_value x])
    | (extract_lets +onlyGivenNames x; refine keeps_cut (p := Keeps s0 x.1) ?_ (fun hx => ?_) <;> [subst x; clear_value x])
    | extract_lets +onlyGivenNames x
    | with_reducible apply loopN_keeps
    | with_reducible apply State.tdiError_keeps
    | with_reducible apply State.configItem_keeps
    | with_reducible apply keeps_ite
    | split
    | (intro i; intros; try beta_reduce)

theorem execConfigurationWrite_keeps {s0 s : State} (h_ : Keeps s0 s) (fn : Fin 17) (item : CfgItem) (v : Nat) :
    KeepsOut s0 (execConfigurationWrite fn item v s) := by
  unfold execConfigurationWrite
  repeat' first
    | with_reducible assumption
    | with_reducible apply State.configWrite_keeps
    | with_reducible apply keepsOut_next

theorem State.hostLink_keeps {s0 s : State} (h_ : Keeps s0 s) (speed : Nat) (width : Nat) :
    Keeps s0 (State.hostLink s speed width) := by
  unfold State.hostLink
  repeat' first
    | with_reducible assumption
    | (extract_lets +onlyGivenNames x; refine keeps_cut (p := Keeps s0 x) ?_ (fun hx => ?_) <;> [subst x; clear_value x])
    | (extract_lets +onlyGivenNames x; refine keeps_cut (p := Keeps s0 x.1) ?_ (fun hx => ?_) <;> [subst x; clear_value x])
    | extract_lets +onlyGivenNames x
    | with_reducible apply State.wr_keeps
    | with_reducible apply State.setLock_keeps
    | with_reducible apply keeps_ite

theorem execHostLinkRetrain_keeps {s0 s : State} (h_ : Keeps s0 s) (up : Bool) (speed : Nat) (width : Nat) :
    KeepsOut s0 (execHostLinkRetrain up speed width s) := by
  unfold execHostLinkRetrain
  repeat' first
    | with_reducible assumption
    | (extract_lets +onlyGivenNames x; refine keeps_cut (p := Keeps s0 x) ?_ (fun hx => ?_) <;> [subst x; clear_value x])
    | (extract_lets +onlyGivenNames x; refine keeps_cut (p := Keeps s0 x.1) ?_ (fun hx => ?_) <;> [subst x; clear_value x])
    | extract_lets +onlyGivenNames x
    | with_reducible apply State.bump_keeps
    | with_reducible apply State.hostLink_keeps
    | with_reducible apply keepsOut_ite
    | with_reducible apply keeps_ite
    | with_reducible apply keepsOut_next

end Sys2Proof.Machine
end

