-- ==== Sys2Proof/Laws/KeepsQueues.lean ====
section
/-! SUPPORT. What the operations of Machine/Queues.lean never undo (Keeps of Safety.lean): one lemma per operation. -/

set_option linter.all false

namespace Sys2Proof.Machine

theorem State.markEnabled_keeps {s0 s : State} (h_ : Keeps s0 s) (fn : Nat) :
    Keeps s0 (State.markEnabled s fn) := by
  unfold State.markEnabled
  repeat' first
    | with_reducible assumption
    | simp -zeta only [keeps_mk1, keeps_mk2]

theorem State.activate_keeps {s0 s : State} (h_ : Keeps s0 s) (fn : Nat) :
    Keeps s0 (State.activate s fn) := by
  unfold State.activate
  repeat' first
    | with_reducible assumption
    | (extract_lets +onlyGivenNames x; refine keeps_cut (p := Keeps s0 x) ?_ (fun hx => ?_) <;> [subst x; clear_value x])
    | (extract_lets +onlyGivenNames x; refine keeps_cut (p := Keeps s0 x.1) ?_ (fun hx => ?_) <;> [subst x; clear_value x])
    | extract_lets +onlyGivenNames x
    | with_reducible apply State.wr_keeps
    | with_reducible apply keeps_ite

theorem State.enablePair_keeps {s0 s : State} (h_ : Keeps s0 s) (fn : Nat) (k : Nat) (translated : Bool) :
    Keeps s0 (State.enablePair s fn k translated) := by
  unfold State.enablePair
  repeat' first
    | with_reducible assumption
    | (extract_lets +onlyGivenNames x; refine keeps_cut (p := Keeps s0 x) ?_ (fun hx => ?_) <;> [subst x; clear_value x])
    | (extract_lets +onlyGivenNames x; refine keeps_cut (p := Keeps s0 x.1) ?_ (fun hx => ?_) <;> [subst x; clear_value x])
    | extract_lets +onlyGivenNames x
    | with_reducible apply State.wr_keeps
    | with_reducible apply State.markEnabled_keeps
    | with_reducible apply State.activate_keeps
    | split

theorem State.enablePq_keeps {s0 s : State} (h_ : Keeps s0 s) (fn : Nat) (translated : Bool) :
    Keeps s0 (State.enablePq s fn translated) := by
  unfold State.enablePq
  repeat' first
    | with_reducible assumption
    | (extract_lets +onlyGivenNames x; refine keeps_cut (p := Keeps s0 x) ?_ (fun hx => ?_) <;> [subst x; clear_value x])
    | (extract_lets +onlyGivenNames x; refine keeps_cut (p := Keeps s0 x.1) ?_ (fun hx => ?_) <;> [subst x; clear_value x])
    | extract_lets +onlyGivenNames x
    | with_reducible apply State.wr_keeps
    | with_reducible apply State.markEnabled_keeps
    | split

theorem State.enableEq_keeps {s0 s : State} (h_ : Keeps s0 s) (fn : Nat) (translated : Bool) :
    Keeps s0 (State.enableEq s fn translated) := by
  unfold State.enableEq
  repeat' first
    | with_reducible assumption
    | (extract_lets +onlyGivenNames x; refine keeps_cut (p := Keeps s0 x) ?_ (fun hx => ?_) <;> [subst x; clear_value x])
    | (extract_lets +onlyGivenNames x; refine keeps_cut (p := Keeps s0 x.1) ?_ (fun hx => ?_) <;> [subst x; clear_value x])
    | extract_lets +onlyGivenNames x
    | with_reducible apply State.wr_keeps
    | with_reducible apply State.markEnabled_keeps
    | split

theorem State.hold_keeps {s0 s : State} (h_ : Keeps s0 s) (code : Nat) :
    Keeps s0 (State.hold s code) := by
  unfold State.hold
  repeat' first
    | with_reducible assumption
    | simp -zeta only [keeps_mk1, keeps_mk2]

theorem State.unhold_keeps {s0 s : State} (h_ : Keeps s0 s) (code : Nat) :
    Keeps s0 (State.unhold s code) := by
  unfold State.unhold
  repeat' first
    | with_reducible assumption
    | simp -zeta only [keeps_mk1, keeps_mk2]

theorem State.applyHeld_keeps {s0 s : State} (h_ : Keeps s0 s) :
    Keeps s0 (State.applyHeld s) := by
  unfold State.applyHeld
  repeat' first
    | with_reducible assumption
    | (extract_lets +onlyGivenNames x; refine keeps_cut (p := Keeps s0 x) ?_ (fun hx => ?_) <;> [subst x; clear_value x])
    | (extract_lets +onlyGivenNames x; refine keeps_cut (p := Keeps s0 x.1) ?_ (fun hx => ?_) <;> [subst x; clear_value x])
    | extract_lets +onlyGivenNames x
    | with_reducible apply State.enablePair_keeps
    | with_reducible apply State.enablePq_keeps
    | with_reducible apply State.enableEq_keeps
    | with_reducible apply keeps_foldl
    | with_reducible apply keeps_foldl_fst
    | with_reducible apply keeps_ite
    | simp -zeta only [keeps_mk1, keeps_mk2]
    | (intro i; intros; try beta_reduce)

theorem execSqPairEnable_keeps {s0 s : State} (h_ : Keeps s0 s) (fn : Fin 17) (k : Fin 8) (translated : Bool) :
    KeepsOut s0 (execSqPairEnable fn k translated s) := by
  unfold execSqPairEnable
  repeat' first
    | with_reducible assumption
    | with_reducible apply State.enablePair_keeps
    | with_reducible apply State.hold_keeps
    | with_reducible apply keepsOut_ite
    | with_reducible apply keeps_ite
    | with_reducible apply keepsOut_next

theorem execSqPairDisable_keeps {s0 s : State} (h_ : Keeps s0 s) (fn : Fin 17) (k : Fin 8) :
    KeepsOut s0 (execSqPairDisable fn k s) := by
  unfold execSqPairDisable
  repeat' first
    | with_reducible assumption
    | (extract_lets +onlyGivenNames x; refine keeps_cut (p := Keeps s0 x) ?_ (fun hx => ?_) <;> [subst x; clear_value x])
    | (extract_lets +onlyGivenNames x; refine keeps_cut (p := Keeps s0 x.1) ?_ (fun hx => ?_) <;> [subst x; clear_value x])
    | extract_lets +onlyGivenNames x
    | with_reducible apply State.wr_keeps
    | with_reducible apply State.unhold_keeps
    | with_reducible apply keepsOut_ite
    | with_reducible apply keeps_ite
    | with_reducible apply keepsOut_next

theorem execPqEnable_keeps {s0 s : State} (h_ : Keeps s0 s) (fn : Fin 17) (en : Bool) (translated : Bool) :
    KeepsOut s0 (execPqEnable fn en translated s) := by
  unfold execPqEnable
  repeat' first
    | with_reducible assumption
    | with_reducible apply State.wr_keeps
    | with_reducible apply State.enablePq_keeps
    | with_reducible apply State.hold_keeps
    | with_reducible apply State.unhold_keeps
    | with_reducible apply keepsOut_ite
    | with_reducible apply keeps_ite
    | with_reducible apply keepsOut_next

theorem execEqEnable_keeps {s0 s : State} (h_ : Keeps s0 s) (fn : Fin 17) (en : Bool) (translated : Bool) :
    KeepsOut s0 (execEqEnable fn en translated s) := by
  unfold execEqEnable
  repeat' first
    | with_reducible assumption
    | with_reducible apply State.wr_keeps
    | with_reducible apply State.enableEq_keeps
    | with_reducible apply State.hold_keeps
    | with_reducible apply State.unhold_keeps
    | with_reducible apply keepsOut_ite
    | with_reducible apply keeps_ite
    | with_reducible apply keepsOut_next

theorem State.resetSq_keeps {s0 s : State} (h_ : Keeps s0 s) (fn : Nat) (k : Nat) :
    Keeps s0 (State.resetSq s fn k) := by
  unfold State.resetSq
  repeat' first
    | with_reducible assumption
    | with_reducible apply State.wr_keeps

theorem State.resetCq_keeps {s0 s : State} (h_ : Keeps s0 s) (fn : Nat) (k : Nat) :
    Keeps s0 (State.resetCq s fn k) := by
  unfold State.resetCq
  repeat' first
    | with_reducible assumption
    | with_reducible apply State.wr_keeps

theorem State.resetPq_keeps {s0 s : State} (h_ : Keeps s0 s) (fn : Nat) :
    Keeps s0 (State.resetPq s fn) := by
  unfold State.resetPq
  repeat' first
    | with_reducible assumption
    | with_reducible apply State.wr_keeps

theorem State.resetPcq_keeps {s0 s : State} (h_ : Keeps s0 s) (fn : Nat) :
    Keeps s0 (State.resetPcq s fn) := by
  unfold State.resetPcq
  repeat' first
    | with_reducible assumption
    | with_reducible apply State.wr_keeps

theorem State.resetEq_keeps {s0 s : State} (h_ : Keeps s0 s) (fn : Nat) :
    Keeps s0 (State.resetEq s fn) := by
  unfold State.resetEq
  repeat' first
    | with_reducible assumption
    | with_reducible apply State.wr_keeps

theorem State.setQueueFld_keeps {s0 s : State} (h_ : Keeps s0 s) (f : Fld) (i : Nat) (j : Nat) (v : Nat) (reset : State → State) (hreset : ∀ t, Keeps s0 t → Keeps s0 (reset t)) :
    Keeps s0 (State.setQueueFld s f i j v reset) := by
  unfold State.setQueueFld
  repeat' first
    | with_reducible assumption
    | with_reducible apply State.wr_keeps
    | with_reducible apply keeps_ite
    | (intro i; intros; try beta_reduce)
    | apply_assumption

theorem execQueueBaseWrite_keeps {s0 s : State} (h_ : Keeps s0 s) (fn : Fin 17) (reg : QueueReg) (v : Nat) :
    KeepsOut s0 (execQueueBaseWrite fn reg v s) := by
  unfold execQueueBaseWrite
  repeat' first
    | with_reducible assumption
    | (extract_lets +onlyGivenNames x; refine keeps_cut (p := Keeps s0 x) ?_ (fun hx => ?_) <;> [subst x; clear_value x])
    | (extract_lets +onlyGivenNames x; refine keeps_cut (p := Keeps s0 x.1) ?_ (fun hx => ?_) <;> [subst x; clear_value x])
    | extract_lets +onlyGivenNames x
    | with_reducible apply State.resetSq_keeps
    | with_reducible apply State.resetCq_keeps
    | with_reducible apply State.resetPq_keeps
    | with_reducible apply State.resetPcq_keeps
    | with_reducible apply State.resetEq_keeps
    | with_reducible apply State.setQueueFld_keeps
    | with_reducible apply keepsOut_ite
    | with_reducible apply keeps_ite
    | with_reducible apply keepsOut_next
    | split
    | (intro i; intros; try beta_reduce)

theorem execSqTailDoorbell_keeps {s0 s : State} (h_ : Keeps s0 s) (fn : Fin 17) (k : Fin 8) (idx : Nat) :
    KeepsOut s0 (execSqTailDoorbell fn k idx s) := by
  unfold execSqTailDoorbell
  repeat' first
    | with_reducible assumption
    | (extract_lets +onlyGivenNames x; refine keeps_cut (p := Keeps s0 x) ?_ (fun hx => ?_) <;> [subst x; clear_value x])
    | (extract_lets +onlyGivenNames x; refine keeps_cut (p := Keeps s0 x.1) ?_ (fun hx => ?_) <;> [subst x; clear_value x])
    | extract_lets +onlyGivenNames x
    | with_reducible apply State.wr_keeps
    | with_reducible apply keepsOut_ite
    | with_reducible apply keeps_ite
    | with_reducible apply keepsOut_next

theorem execCqHeadDoorbell_keeps {s0 s : State} (h_ : Keeps s0 s) (fn : Fin 17) (k : Fin 8) (idx : Nat) :
    KeepsOut s0 (execCqHeadDoorbell fn k idx s) := by
  unfold execCqHeadDoorbell
  repeat' first
    | with_reducible assumption
    | (extract_lets +onlyGivenNames x; refine keeps_cut (p := Keeps s0 x) ?_ (fun hx => ?_) <;> [subst x; clear_value x])
    | (extract_lets +onlyGivenNames x; refine keeps_cut (p := Keeps s0 x.1) ?_ (fun hx => ?_) <;> [subst x; clear_value x])
    | extract_lets +onlyGivenNames x
    | with_reducible apply State.wr_keeps
    | with_reducible apply keepsOut_ite
    | with_reducible apply keeps_ite
    | with_reducible apply keepsOut_next

theorem execPqTailDoorbell_keeps {s0 s : State} (h_ : Keeps s0 s) (fn : Fin 17) (idx : Nat) :
    KeepsOut s0 (execPqTailDoorbell fn idx s) := by
  unfold execPqTailDoorbell
  repeat' first
    | with_reducible assumption
    | (extract_lets +onlyGivenNames x; refine keeps_cut (p := Keeps s0 x) ?_ (fun hx => ?_) <;> [subst x; clear_value x])
    | (extract_lets +onlyGivenNames x; refine keeps_cut (p := Keeps s0 x.1) ?_ (fun hx => ?_) <;> [subst x; clear_value x])
    | extract_lets +onlyGivenNames x
    | with_reducible apply State.wr_keeps
    | with_reducible apply keepsOut_ite
    | with_reducible apply keeps_ite
    | with_reducible apply keepsOut_next

theorem execPcqHeadDoorbell_keeps {s0 s : State} (h_ : Keeps s0 s) (fn : Fin 17) (idx : Nat) :
    KeepsOut s0 (execPcqHeadDoorbell fn idx s) := by
  unfold execPcqHeadDoorbell
  repeat' first
    | with_reducible assumption
    | (extract_lets +onlyGivenNames x; refine keeps_cut (p := Keeps s0 x) ?_ (fun hx => ?_) <;> [subst x; clear_value x])
    | (extract_lets +onlyGivenNames x; refine keeps_cut (p := Keeps s0 x.1) ?_ (fun hx => ?_) <;> [subst x; clear_value x])
    | extract_lets +onlyGivenNames x
    | with_reducible apply State.wr_keeps
    | with_reducible apply keepsOut_ite
    | with_reducible apply keeps_ite
    | with_reducible apply keepsOut_next

theorem execEqHeadDoorbell_keeps {s0 s : State} (h_ : Keeps s0 s) (fn : Fin 17) (idx : Nat) :
    KeepsOut s0 (execEqHeadDoorbell fn idx s) := by
  unfold execEqHeadDoorbell
  repeat' first
    | with_reducible assumption
    | (extract_lets +onlyGivenNames x; refine keeps_cut (p := Keeps s0 x) ?_ (fun hx => ?_) <;> [subst x; clear_value x])
    | (extract_lets +onlyGivenNames x; refine keeps_cut (p := Keeps s0 x.1) ?_ (fun hx => ?_) <;> [subst x; clear_value x])
    | extract_lets +onlyGivenNames x
    | with_reducible apply State.wr_keeps
    | with_reducible apply keepsOut_ite
    | with_reducible apply keeps_ite
    | with_reducible apply keepsOut_next

theorem execTailwordPoll_keeps {s0 s : State} (h_ : Keeps s0 s) (fn : Fin 17) (k : Fin 8) :
    KeepsOut s0 (execTailwordPoll fn k s) := by
  unfold execTailwordPoll
  repeat' first
    | with_reducible assumption
    | (extract_lets +onlyGivenNames x; refine keeps_cut (p := Keeps s0 x) ?_ (fun hx => ?_) <;> [subst x; clear_value x])
    | (extract_lets +onlyGivenNames x; refine keeps_cut (p := Keeps s0 x.1) ?_ (fun hx => ?_) <;> [subst x; clear_value x])
    | extract_lets +onlyGivenNames x
    | with_reducible apply State.wr_keeps
    | with_reducible apply State.bump_keeps
    | with_reducible apply keepsOut_ite
    | with_reducible apply keeps_ite
    | with_reducible apply keepsOut_next

theorem State.setSqHead_keeps {s0 s : State} (h_ : Keeps s0 s) (fn : Nat) (q : Nat) (v : Nat) :
    Keeps s0 (State.setSqHead s fn q v) := by
  unfold State.setSqHead
  repeat' first
    | with_reducible assumption
    | with_reducible apply State.wr_keeps
    | with_reducible apply keeps_ite

theorem execFenceRelease_keeps {s0 s : State} (h_ : Keeps s0 s) (fn : Fin 17) (k : Fin 8) :
    KeepsOut s0 (execFenceRelease fn k s) := by
  unfold execFenceRelease
  repeat' first
    | with_reducible assumption
    | with_reducible apply keepsOut_ite
    | with_reducible apply keeps_ite
    | with_reducible apply keepsOut_next
    | simp -zeta only [keeps_mk1, keeps_mk2]

theorem execNopCommand_keeps {s0 s : State} (h_ : Keeps s0 s) (h : Hdr) :
    KeepsOut s0 (execNopCommand h s) := by
  unfold execNopCommand
  repeat' first
    | with_reducible assumption
    | with_reducible apply State.complete_keeps
    | with_reducible apply State.checked_keeps
    | with_reducible apply keepsOut_next
    | (intro i; intros; try beta_reduce)

theorem execQuiesce_keeps {s0 s : State} (h_ : Keeps s0 s) (h : Hdr) (timeoutUs : Nat) :
    KeepsOut s0 (execQuiesce h timeoutUs s) := by
  unfold execQuiesce
  repeat' first
    | with_reducible assumption
    | (extract_lets +onlyGivenNames x; refine keeps_cut (p := Keeps s0 x) ?_ (fun hx => ?_) <;> [subst x; clear_value x])
    | (extract_lets +onlyGivenNames x; refine keeps_cut (p := Keeps s0 x.1) ?_ (fun hx => ?_) <;> [subst x; clear_value x])
    | extract_lets +onlyGivenNames x
    | with_reducible apply State.complete_keeps
    | with_reducible apply State.start_keeps
    | with_reducible apply State.checked_keeps
    | with_reducible apply State.clearPairs_keeps
    | with_reducible apply State.quiesce_keeps
    | with_reducible apply keepsOut_ite
    | with_reducible apply keeps_ite
    | with_reducible apply keepsOut_next
    | (intro i; intros; try beta_reduce)

theorem execQuiesceComplete_keeps {s0 s : State} (h_ : Keeps s0 s) (h : Hdr) :
    KeepsOut s0 (execQuiesceComplete h s) := by
  unfold execQuiesceComplete
  repeat' first
    | with_reducible assumption
    | (extract_lets +onlyGivenNames x; refine keeps_cut (p := Keeps s0 x) ?_ (fun hx => ?_) <;> [subst x; clear_value x])
    | (extract_lets +onlyGivenNames x; refine keeps_cut (p := Keeps s0 x.1) ?_ (fun hx => ?_) <;> [subst x; clear_value x])
    | extract_lets +onlyGivenNames x
    | with_reducible apply State.wr_keeps
    | with_reducible apply State.dropTaken_keeps
    | with_reducible apply State.complete_keeps
    | with_reducible apply keepsOut_ite
    | with_reducible apply keeps_ite
    | with_reducible apply keepsOut_next

theorem execQuiesceTimeout_keeps {s0 s : State} (h_ : Keeps s0 s) (h : Hdr) :
    KeepsOut s0 (execQuiesceTimeout h s) := by
  unfold execQuiesceTimeout
  repeat' first
    | with_reducible assumption
    | (extract_lets +onlyGivenNames x; refine keeps_cut (p := Keeps s0 x) ?_ (fun hx => ?_) <;> [subst x; clear_value x])
    | (extract_lets +onlyGivenNames x; refine keeps_cut (p := Keeps s0 x.1) ?_ (fun hx => ?_) <;> [subst x; clear_value x])
    | extract_lets +onlyGivenNames x
    | with_reducible apply State.setProg_keeps
    | with_reducible apply State.abortScope1_keeps
    | with_reducible apply keepsOut_ite
    | with_reducible apply keeps_ite
    | with_reducible apply keepsOut_next
    | split
    | refine State.abortScope1_keeps' (by with_reducible assumption) ?_

theorem execAbort_keeps {s0 s : State} (h_ : Keeps s0 s) (h : Hdr) (scope : Nat) :
    KeepsOut s0 (execAbort h scope s) := by
  unfold execAbort
  repeat' first
    | with_reducible assumption
    | (extract_lets +onlyGivenNames x; refine keeps_cut (p := Keeps s0 x) ?_ (fun hx => ?_) <;> [subst x; clear_value x])
    | (extract_lets +onlyGivenNames x; refine keeps_cut (p := Keeps s0 x.1) ?_ (fun hx => ?_) <;> [subst x; clear_value x])
    | extract_lets +onlyGivenNames x
    | with_reducible apply State.start_keeps
    | with_reducible apply State.abort_keeps
    | with_reducible apply State.checked_keeps
    | with_reducible apply State.abortScope1_keeps
    | with_reducible apply keepsOut_ite
    | with_reducible apply keeps_ite
    | with_reducible apply keepsOut_next
    | split
    | (intro i; intros; try beta_reduce)
    | refine State.abortScope1_keeps' (by with_reducible assumption) ?_

theorem execAbortComplete_keeps {s0 s : State} (h_ : Keeps s0 s) (h : Hdr) :
    KeepsOut s0 (execAbortComplete h s) := by
  unfold execAbortComplete
  repeat' first
    | with_reducible assumption
    | with_reducible apply State.complete_keeps
    | with_reducible apply keepsOut_ite
    | with_reducible apply keeps_ite
    | with_reducible apply keepsOut_next

theorem execCopy_keeps {s0 s : State} (h_ : Keeps s0 s) (h : Hdr) (src : Nat) (dst : Nat) (bytes : Nat) :
    KeepsOut s0 (execCopy h src dst bytes s) := by
  unfold execCopy
  repeat' first
    | with_reducible assumption
    | with_reducible apply State.setProg_keeps
    | with_reducible apply State.gate_keeps
    | with_reducible apply State.checked_keeps
    | with_reducible apply keepsOut_next
    | (intro i; intros; try beta_reduce)

theorem execFill_keeps {s0 s : State} (h_ : Keeps s0 s) (h : Hdr) (dst : Nat) (bytes : Nat) (pattern : Nat) :
    KeepsOut s0 (execFill h dst bytes pattern s) := by
  unfold execFill
  repeat' first
    | with_reducible assumption
    | with_reducible apply State.setProg_keeps
    | with_reducible apply State.gate_keeps
    | with_reducible apply State.checked_keeps
    | with_reducible apply keepsOut_next
    | (intro i; intros; try beta_reduce)

theorem State.writeLine_keeps {s0 s : State} (h_ : Keeps s0 s) (h : Hdr) (src : Option Nat) (dst : Nat) (n : Nat) (k : Nat) (data : List Byte) :
    Keeps s0 (State.writeLine s h src dst n k data) := by
  unfold State.writeLine
  repeat' first
    | with_reducible assumption
    | (extract_lets +onlyGivenNames x; refine keeps_cut (p := Keeps s0 x) ?_ (fun hx => ?_) <;> [subst x; clear_value x])
    | (extract_lets +onlyGivenNames x; refine keeps_cut (p := Keeps s0 x.1) ?_ (fun hx => ?_) <;> [subst x; clear_value x])
    | extract_lets +onlyGivenNames x
    | with_reducible apply loopN_keeps
    | with_reducible apply State.ptrWrite_keeps
    | with_reducible apply State.hbmPoisonAt_keeps
    | with_reducible apply keeps_ite
    | split
    | (intro i; intros; try beta_reduce)

theorem execCopyFillComplete_keeps {s0 s : State} (h_ : Keeps s0 s) (h : Hdr) (data : List Byte) (issued : Nat) (fail : Option (Nat × Nat)) :
    KeepsOut s0 (execCopyFillComplete h data issued fail s) := by
  unfold execCopyFillComplete
  repeat' first
    | with_reducible assumption
    | (extract_lets +onlyGivenNames x; refine keeps_cut (p := Keeps s0 x) ?_ (fun hx => ?_) <;> [subst x; clear_value x])
    | (extract_lets +onlyGivenNames x; refine keeps_cut (p := Keeps s0 x.1) ?_ (fun hx => ?_) <;> [subst x; clear_value x])
    | extract_lets +onlyGivenNames x
    | with_reducible apply loopN_keeps
    | with_reducible apply State.complete_keeps
    | with_reducible apply State.countRead_keeps
    | with_reducible apply State.writeLine_keeps
    | with_reducible apply keepsOut_ite
    | with_reducible apply keeps_ite
    | with_reducible apply keepsOut_next
    | split
    | (intro i; intros; try beta_reduce)

end Sys2Proof.Machine
end

