-- ==== Sys2Proof/Laws/KeepsIssue.lean ====
section
/-! SUPPORT. What the operations of Machine/Issue.lean never undo (Keeps of Safety.lean): one lemma per operation. -/

set_option linter.all false

namespace Sys2Proof.Machine

theorem State.warnOn_keeps {s0 s : State} (h_ : Keeps s0 s) (c : Nat) (w : Nat) :
    Keeps s0 (State.warnOn s c w) := by
  unfold State.warnOn
  repeat' first
    | with_reducible assumption
    | (extract_lets +onlyGivenNames x; refine keeps_cut (p := Keeps s0 x) ?_ (fun hx => ?_) <;> [subst x; clear_value x])
    | (extract_lets +onlyGivenNames x; refine keeps_cut (p := Keeps s0 x.1) ?_ (fun hx => ?_) <;> [subst x; clear_value x])
    | extract_lets +onlyGivenNames x
    | with_reducible apply State.setRuns_keeps
    | with_reducible apply keeps_ite
    | simp -zeta only [keeps_mk1, keeps_mk2]

theorem State.warnSide_keeps {s0 s : State} (h_ : Keeps s0 s) (p : Nat) (side : Nat) (w : Nat) :
    Keeps s0 (State.warnSide s p side w) := by
  unfold State.warnSide
  repeat' first
    | with_reducible assumption
    | (extract_lets +onlyGivenNames x; refine keeps_cut (p := Keeps s0 x) ?_ (fun hx => ?_) <;> [subst x; clear_value x])
    | (extract_lets +onlyGivenNames x; refine keeps_cut (p := Keeps s0 x.1) ?_ (fun hx => ?_) <;> [subst x; clear_value x])
    | extract_lets +onlyGivenNames x
    | with_reducible apply State.setRuns_keeps
    | with_reducible apply keeps_ite
    | simp -zeta only [keeps_mk1, keeps_mk2]

theorem State.contractSlip_keeps {s0 s : State} (h_ : Keeps s0 s) (c : Nat) (kind : Nat) (bank : Nat) (stream : Nat) (position : Nat) (clocks : Nat) :
    Keeps s0 (State.contractSlip s c kind bank stream position clocks) := by
  unfold State.contractSlip
  repeat' first
    | with_reducible assumption
    | (extract_lets +onlyGivenNames x; refine keeps_cut (p := Keeps s0 x) ?_ (fun hx => ?_) <;> [subst x; clear_value x])
    | (extract_lets +onlyGivenNames x; refine keeps_cut (p := Keeps s0 x.1) ?_ (fun hx => ?_) <;> [subst x; clear_value x])
    | extract_lets +onlyGivenNames x
    | with_reducible apply State.wr_keeps
    | with_reducible apply State.bump_keeps
    | with_reducible apply State.warnOn_keeps
    | with_reducible apply keeps_ite

theorem State.setSlip_keeps {s0 s : State} (h_ : Keeps s0 s) (c : Nat) (x : Option Slip) :
    Keeps s0 (State.setSlip s c x) := by
  unfold State.setSlip
  repeat' first
    | with_reducible assumption
    | simp -zeta only [keeps_mk1, keeps_mk2]

theorem State.clearWait_keeps {s0 s : State} (h_ : Keeps s0 s) (c : Nat) (st : Nat) :
    Keeps s0 (State.clearWait s c st) := by
  unfold State.clearWait
  repeat' first
    | with_reducible assumption
    | (extract_lets +onlyGivenNames x; refine keeps_cut (p := Keeps s0 x) ?_ (fun hx => ?_) <;> [subst x; clear_value x])
    | (extract_lets +onlyGivenNames x; refine keeps_cut (p := Keeps s0 x.1) ?_ (fun hx => ?_) <;> [subst x; clear_value x])
    | extract_lets +onlyGivenNames x
    | with_reducible apply State.wr_keeps
    | with_reducible apply keeps_ite
    | simp -zeta only [keeps_mk1, keeps_mk2]

theorem State.markWait_keeps {s0 s : State} (h_ : Keeps s0 s) (c : Nat) (d : Due) :
    Keeps s0 (State.markWait s c d) := by
  unfold State.markWait
  repeat' first
    | with_reducible assumption
    | (extract_lets +onlyGivenNames x; refine keeps_cut (p := Keeps s0 x) ?_ (fun hx => ?_) <;> [subst x; clear_value x])
    | (extract_lets +onlyGivenNames x; refine keeps_cut (p := Keeps s0 x.1) ?_ (fun hx => ?_) <;> [subst x; clear_value x])
    | extract_lets +onlyGivenNames x
    | with_reducible apply State.wr_keeps
    | with_reducible apply keeps_ite
    | simp -zeta only [keeps_mk1, keeps_mk2]

theorem State.markWaits_keeps {s0 s : State} (h_ : Keeps s0 s) (c : Nat) :
    Keeps s0 (State.markWaits s c) := by
  unfold State.markWaits
  repeat' first
    | with_reducible assumption
    | (extract_lets +onlyGivenNames x; refine keeps_cut (p := Keeps s0 x) ?_ (fun hx => ?_) <;> [subst x; clear_value x])
    | (extract_lets +onlyGivenNames x; refine keeps_cut (p := Keeps s0 x.1) ?_ (fun hx => ?_) <;> [subst x; clear_value x])
    | extract_lets +onlyGivenNames x
    | with_reducible apply loopN_keeps
    | with_reducible apply State.clearWait_keeps
    | with_reducible apply State.markWait_keeps
    | with_reducible apply keeps_foldl
    | with_reducible apply keeps_foldl_fst
    | with_reducible apply keeps_ite
    | (intro i; intros; try beta_reduce)

theorem State.slipNow_keeps {s0 s : State} (h_ : Keeps s0 s) (c : Nat) :
    Keeps s0 (State.slipNow s c) := by
  unfold State.slipNow
  repeat' first
    | with_reducible assumption
    | (extract_lets +onlyGivenNames x; refine keeps_cut (p := Keeps s0 x) ?_ (fun hx => ?_) <;> [subst x; clear_value x])
    | (extract_lets +onlyGivenNames x; refine keeps_cut (p := Keeps s0 x.1) ?_ (fun hx => ?_) <;> [subst x; clear_value x])
    | extract_lets +onlyGivenNames x
    | with_reducible apply State.contractSlip_keeps
    | with_reducible apply State.setSlip_keeps
    | with_reducible apply State.markWaits_keeps
    | with_reducible apply keeps_ite
    | simp -zeta only [keeps_mk1, keeps_mk2]
    | split

theorem State.slipDone_keeps {s0 s : State} (h_ : Keeps s0 s) (c : Nat) :
    Keeps s0 (State.slipDone s c) := by
  unfold State.slipDone
  repeat' first
    | with_reducible assumption
    | (extract_lets +onlyGivenNames x; refine keeps_cut (p := Keeps s0 x) ?_ (fun hx => ?_) <;> [subst x; clear_value x])
    | (extract_lets +onlyGivenNames x; refine keeps_cut (p := Keeps s0 x.1) ?_ (fun hx => ?_) <;> [subst x; clear_value x])
    | extract_lets +onlyGivenNames x
    | with_reducible apply State.wr_keeps
    | with_reducible apply loopN_keeps
    | with_reducible apply State.setSlip_keeps
    | with_reducible apply State.clearWait_keeps
    | with_reducible apply keeps_ite
    | split
    | (intro i; intros; try beta_reduce)

theorem State.advance_keeps {s0 s : State} (h_ : Keeps s0 s) (x : Ctx) :
    Keeps s0 (State.advance s x) := by
  unfold State.advance
  repeat' first
    | with_reducible assumption
    | (extract_lets +onlyGivenNames x; refine keeps_cut (p := Keeps s0 x) ?_ (fun hx => ?_) <;> [subst x; clear_value x])
    | (extract_lets +onlyGivenNames x; refine keeps_cut (p := Keeps s0 x.1) ?_ (fun hx => ?_) <;> [subst x; clear_value x])
    | extract_lets +onlyGivenNames x
    | with_reducible apply State.tick_keeps
    | with_reducible apply State.setStream_keeps
    | simp -zeta only [keeps_mk1, keeps_mk2]

theorem State.issueAs_keeps {s0 s : State} (h_ : Keeps s0 s) (op : Nat) (a : At) (eff : Ctx → State → State) (heff : ∀ i t, Keeps s0 t → Keeps s0 (eff i t)) :
    Keeps s0 (State.issueAs s op a eff) := by
  unfold State.issueAs
  repeat' first
    | with_reducible assumption
    | (extract_lets +onlyGivenNames x; refine keeps_cut (p := Keeps s0 x) ?_ (fun hx => ?_) <;> [subst x; clear_value x])
    | (extract_lets +onlyGivenNames x; refine keeps_cut (p := Keeps s0 x.1) ?_ (fun hx => ?_) <;> [subst x; clear_value x])
    | extract_lets +onlyGivenNames x
    | with_reducible apply State.abort_keeps
    | with_reducible apply State.slipNow_keeps
    | with_reducible apply State.slipDone_keeps
    | with_reducible apply State.advance_keeps
    | with_reducible apply keeps_ite
    | split
    | (intro i; intros; try beta_reduce)
    | apply_assumption

end Sys2Proof.Machine
end

