-- ==== Sys2Proof/Laws/KeepsDump.lean ====
section
/-! SUPPORT. What the operations of Machine/Dump.lean never undo (Keeps of Safety.lean): one lemma per operation. -/

set_option linter.all false

namespace Sys2Proof.Machine

theorem State.setDump_keeps {s0 s : State} (h_ : Keeps s0 s) (p : Nat) (d : Dump) :
    Keeps s0 (State.setDump s p d) := by
  unfold State.setDump
  repeat' first
    | with_reducible assumption
    | simp -zeta only [keeps_mk1, keeps_mk2]

theorem State.dumpTrigger_keeps {s0 s : State} (h_ : Keeps s0 s) (p : Nat) (d : Dump) :
    Keeps s0 (State.dumpTrigger s p d) := by
  unfold State.dumpTrigger
  repeat' first
    | with_reducible assumption
    | (extract_lets +onlyGivenNames x; refine keeps_cut (p := Keeps s0 x) ?_ (fun hx => ?_) <;> [subst x; clear_value x])
    | (extract_lets +onlyGivenNames x; refine keeps_cut (p := Keeps s0 x.1) ?_ (fun hx => ?_) <;> [subst x; clear_value x])
    | extract_lets +onlyGivenNames x
    | with_reducible apply State.wr_keeps
    | with_reducible apply State.setDump_keeps

theorem State.autoDump_keeps {s0 s : State} (h_ : Keeps s0 s) (c : Nat) (cause : Nat) (stream : Nat) (position : Nat) (expected : Nat) (found : Nat) :
    KeepsO s0 (State.autoDump s c cause stream position expected found) := by
  unfold State.autoDump
  repeat' first
    | with_reducible assumption
    | (extract_lets +onlyGivenNames x; refine keeps_cut (p := Keeps s0 x) ?_ (fun hx => ?_) <;> [subst x; clear_value x])
    | (extract_lets +onlyGivenNames x; refine keeps_cut (p := Keeps s0 x.1) ?_ (fun hx => ?_) <;> [subst x; clear_value x])
    | extract_lets +onlyGivenNames x
    | with_reducible apply State.dumpTrigger_keeps
    | with_reducible apply keepsO_ite
    | with_reducible apply keeps_ite
    | with_reducible apply keepsO_none
    | with_reducible apply keepsO_some
    | split
theorem State.autoDump_keeps' {s0 s t' : State} {c : Nat} {cause : Nat} {stream : Nat} {position : Nat} {expected : Nat} {found : Nat} (e_ : State.autoDump s c cause stream position expected found = some t') (h_ : Keeps s0 s) : Keeps s0 t' := State.autoDump_keeps h_ c cause stream position expected found t' e_

end Sys2Proof.Machine
end

