-- ==== Sys2Proof/Laws/KeepsSchedule.lean ====
section
/-! SUPPORT. What the operations of Machine/Schedule.lean never undo (Keeps of Safety.lean): one lemma per operation. -/

set_option linter.all false

namespace Sys2Proof.Machine

theorem execNop_keeps {s0 s : State} (h_ : Keeps s0 s) (a : At) :
    KeepsOut s0 (execNop a s) := by
  unfold execNop
  repeat' first
    | with_reducible assumption
    | with_reducible apply State.issueAs_keeps
    | with_reducible apply keepsOut_next
    | (intro i; intros; try beta_reduce)

theorem execEndSection_keeps {s0 s : State} (h_ : Keeps s0 s) (a : At) :
    KeepsOut s0 (execEndSection a s) := by
  unfold execEndSection
  repeat' first
    | with_reducible assumption
    | (extract_lets +onlyGivenNames x; refine keeps_cut (p := Keeps s0 x) ?_ (fun hx => ?_) <;> [subst x; clear_value x])
    | (extract_lets +onlyGivenNames x; refine keeps_cut (p := Keeps s0 x.1) ?_ (fun hx => ?_) <;> [subst x; clear_value x])
    | extract_lets +onlyGivenNames x
    | with_reducible apply State.setStream_keeps
    | with_reducible apply State.issueAs_keeps
    | with_reducible apply keepsOut_next
    | simp -zeta only [keeps_mk1, keeps_mk2]
    | (intro i; intros; try beta_reduce)

theorem State.atWord_keeps {s0 s : State} (h_ : Keeps s0 s) (a : At) (op : Nat) (eff : Run → List Nat → State → State) (heff : ∀ r l t, Keeps s0 t → Keeps s0 (eff r l t)) :
    Keeps s0 (State.atWord s a op eff) := by
  unfold State.atWord
  repeat' first
    | with_reducible assumption
    | (extract_lets +onlyGivenNames x; refine keeps_cut (p := Keeps s0 x) ?_ (fun hx => ?_) <;> [subst x; clear_value x])
    | (extract_lets +onlyGivenNames x; refine keeps_cut (p := Keeps s0 x.1) ?_ (fun hx => ?_) <;> [subst x; clear_value x])
    | extract_lets +onlyGivenNames x
    | with_reducible apply keeps_ite
    | split
    | (intro i; intros; try beta_reduce)
    | apply_assumption

theorem execLoopOpen_keeps {s0 s : State} (h_ : Keeps s0 s) (a : At) :
    KeepsOut s0 (execLoopOpen a s) := by
  unfold execLoopOpen
  repeat' first
    | with_reducible assumption
    | (extract_lets +onlyGivenNames x; refine keeps_cut (p := Keeps s0 x) ?_ (fun hx => ?_) <;> [subst x; clear_value x])
    | (extract_lets +onlyGivenNames x; refine keeps_cut (p := Keeps s0 x.1) ?_ (fun hx => ?_) <;> [subst x; clear_value x])
    | extract_lets +onlyGivenNames x
    | with_reducible apply State.setStream_keeps
    | with_reducible apply State.atWord_keeps
    | with_reducible apply keepsOut_ite
    | with_reducible apply keeps_ite
    | with_reducible apply keepsOut_next
    | simp -zeta only [keeps_mk1, keeps_mk2]
    | (intro i; intros; try beta_reduce)

theorem execLoopClose_keeps {s0 s : State} (h_ : Keeps s0 s) (a : At) :
    KeepsOut s0 (execLoopClose a s) := by
  unfold execLoopClose
  repeat' first
    | with_reducible assumption
    | (extract_lets +onlyGivenNames x; refine keeps_cut (p := Keeps s0 x) ?_ (fun hx => ?_) <;> [subst x; clear_value x])
    | (extract_lets +onlyGivenNames x; refine keeps_cut (p := Keeps s0 x.1) ?_ (fun hx => ?_) <;> [subst x; clear_value x])
    | extract_lets +onlyGivenNames x
    | with_reducible apply State.start_keeps
    | with_reducible apply State.setStream_keeps
    | with_reducible apply State.atWord_keeps
    | with_reducible apply keepsOut_ite
    | with_reducible apply keeps_ite
    | with_reducible apply keepsOut_next
    | simp -zeta only [keeps_mk1, keeps_mk2]
    | split
    | (intro i; intros; try beta_reduce)

theorem execWaitCell_keeps {s0 s : State} (h_ : Keeps s0 s) (a : At) :
    KeepsOut s0 (execWaitCell a s) := by
  unfold execWaitCell
  repeat' first
    | with_reducible assumption
    | with_reducible apply State.issueAs_keeps
    | with_reducible apply keepsOut_next
    | (intro i; intros; try beta_reduce)

theorem execStileWait_keeps {s0 s : State} (h_ : Keeps s0 s) (a : At) :
    KeepsOut s0 (execStileWait a s) := by
  unfold execStileWait
  repeat' first
    | with_reducible assumption
    | with_reducible apply State.issueAs_keeps
    | with_reducible apply keepsOut_next
    | (intro i; intros; try beta_reduce)

theorem execSlipEnd_keeps {s0 s : State} (h_ : Keeps s0 s) (core : Fin 128) :
    KeepsOut s0 (execSlipEnd core s) := by
  unfold execSlipEnd
  repeat' first
    | with_reducible assumption
    | (extract_lets +onlyGivenNames x; refine keeps_cut (p := Keeps s0 x) ?_ (fun hx => ?_) <;> [subst x; clear_value x])
    | (extract_lets +onlyGivenNames x; refine keeps_cut (p := Keeps s0 x.1) ?_ (fun hx => ?_) <;> [subst x; clear_value x])
    | extract_lets +onlyGivenNames x
    | with_reducible apply State.slipDone_keeps
    | with_reducible apply keepsOut_ite
    | with_reducible apply keeps_ite
    | with_reducible apply keepsOut_next
    | simp -zeta only [keeps_mk1, keeps_mk2]

theorem State.recordWto_keeps {s0 s : State} (h_ : Keeps s0 s) (c : Nat) (kind : Nat) (cell : Nat) (cond : Nat) (stream : Nat) (position : Nat) (expected : Nat) (found : Nat) :
    Keeps s0 (State.recordWto s c kind cell cond stream position expected found) := by
  unfold State.recordWto
  repeat' first
    | with_reducible assumption
    | (extract_lets +onlyGivenNames x; refine keeps_cut (p := Keeps s0 x) ?_ (fun hx => ?_) <;> [subst x; clear_value x])
    | (extract_lets +onlyGivenNames x; refine keeps_cut (p := Keeps s0 x.1) ?_ (fun hx => ?_) <;> [subst x; clear_value x])
    | extract_lets +onlyGivenNames x
    | with_reducible apply State.wr_keeps
    | with_reducible apply keeps_ite

theorem State.timeoutAbort_keeps {s0 s : State} (h_ : Keeps s0 s) (c : Nat) (dumpCause : Nat) (status : Nat) (stream : Nat) (position : Nat) (expected : Nat) (found : Nat) :
    Keeps s0 (State.timeoutAbort s c dumpCause status stream position expected found) := by
  unfold State.timeoutAbort
  repeat' first
    | with_reducible assumption
    | with_reducible apply State.abort_keeps
    | with_reducible apply keeps_ite
    | split
    | refine State.autoDump_keeps' (by with_reducible assumption) ?_

theorem execWaitTimeout_keeps {s0 s : State} (h_ : Keeps s0 s) (a : At) :
    KeepsOut s0 (execWaitTimeout a s) := by
  unfold execWaitTimeout
  repeat' first
    | with_reducible assumption
    | (extract_lets +onlyGivenNames x; refine keeps_cut (p := Keeps s0 x) ?_ (fun hx => ?_) <;> [subst x; clear_value x])
    | (extract_lets +onlyGivenNames x; refine keeps_cut (p := Keeps s0 x.1) ?_ (fun hx => ?_) <;> [subst x; clear_value x])
    | extract_lets +onlyGivenNames x
    | with_reducible apply State.recordWto_keeps
    | with_reducible apply State.timeoutAbort_keeps
    | with_reducible apply keepsOut_ite
    | with_reducible apply keeps_ite
    | with_reducible apply keepsOut_next
    | split
    | (intro i; intros; try beta_reduce)

theorem execSlipTimeout_keeps {s0 s : State} (h_ : Keeps s0 s) (core : Fin 128) :
    KeepsOut s0 (execSlipTimeout core s) := by
  unfold execSlipTimeout
  repeat' first
    | with_reducible assumption
    | (extract_lets +onlyGivenNames x; refine keeps_cut (p := Keeps s0 x) ?_ (fun hx => ?_) <;> [subst x; clear_value x])
    | (extract_lets +onlyGivenNames x; refine keeps_cut (p := Keeps s0 x.1) ?_ (fun hx => ?_) <;> [subst x; clear_value x])
    | extract_lets +onlyGivenNames x
    | with_reducible apply State.recordWto_keeps
    | with_reducible apply State.timeoutAbort_keeps
    | with_reducible apply keepsOut_ite
    | with_reducible apply keeps_ite
    | with_reducible apply keepsOut_next
    | split

theorem State.setSlotImage_keeps {s0 s : State} (h_ : Keeps s0 s) (p : Nat) (slot : Nat) (im : Option Image) :
    Keeps s0 (State.setSlotImage s p slot im) := by
  unfold State.setSlotImage
  repeat' first
    | with_reducible assumption
    | (extract_lets +onlyGivenNames x; refine keeps_cut (p := Keeps s0 x) ?_ (fun hx => ?_) <;> [subst x; clear_value x])
    | (extract_lets +onlyGivenNames x; refine keeps_cut (p := Keeps s0 x.1) ?_ (fun hx => ?_) <;> [subst x; clear_value x])
    | extract_lets +onlyGivenNames x
    | with_reducible apply State.wr_keeps
    | with_reducible apply keeps_foldl
    | with_reducible apply keeps_foldl_fst
    | with_reducible apply keeps_ite
    | simp -zeta only [keeps_mk1, keeps_mk2]
    | split
    | (intro i; intros; try beta_reduce)

theorem State.loadInto_keeps {s0 s : State} (h_ : Keeps s0 s) (h : Hdr) (slot : Nat) (b : List Byte) :
    Keeps s0 (State.loadInto s h slot b) := by
  unfold State.loadInto
  repeat' first
    | with_reducible assumption
    | (extract_lets +onlyGivenNames x; refine keeps_cut (p := Keeps s0 x) ?_ (fun hx => ?_) <;> [subst x; clear_value x])
    | (extract_lets +onlyGivenNames x; refine keeps_cut (p := Keeps s0 x.1) ?_ (fun hx => ?_) <;> [subst x; clear_value x])
    | extract_lets +onlyGivenNames x
    | with_reducible apply State.resetFlds_keeps
    | with_reducible apply State.complete_keeps
    | with_reducible apply State.setSlotImage_keeps
    | split
    | (intro i; intros; try beta_reduce)

theorem execScheduleLoad_keeps {s0 s : State} (h_ : Keeps s0 s) (h : Hdr) (slot : Nat) (image : Nat) (bytes : Nat) (data : List Byte) :
    KeepsOut s0 (execScheduleLoad h slot image bytes data s) := by
  unfold execScheduleLoad
  repeat' first
    | with_reducible assumption
    | (extract_lets +onlyGivenNames x; refine keeps_cut (p := Keeps s0 x) ?_ (fun hx => ?_) <;> [subst x; clear_value x])
    | (extract_lets +onlyGivenNames x; refine keeps_cut (p := Keeps s0 x.1) ?_ (fun hx => ?_) <;> [subst x; clear_value x])
    | extract_lets +onlyGivenNames x
    | with_reducible apply State.complete_keeps
    | with_reducible apply State.countRead_keeps
    | with_reducible apply State.gate_keeps
    | with_reducible apply State.checked_keeps
    | with_reducible apply State.setSlotImage_keeps
    | with_reducible apply State.loadInto_keeps
    | with_reducible apply keepsOut_ite
    | with_reducible apply keeps_ite
    | with_reducible apply keepsOut_next
    | (intro i; intros; try beta_reduce)

theorem execScheduleUnload_keeps {s0 s : State} (h_ : Keeps s0 s) (h : Hdr) (slot : Nat) :
    KeepsOut s0 (execScheduleUnload h slot s) := by
  unfold execScheduleUnload
  repeat' first
    | with_reducible assumption
    | (extract_lets +onlyGivenNames x; refine keeps_cut (p := Keeps s0 x) ?_ (fun hx => ?_) <;> [subst x; clear_value x])
    | (extract_lets +onlyGivenNames x; refine keeps_cut (p := Keeps s0 x.1) ?_ (fun hx => ?_) <;> [subst x; clear_value x])
    | extract_lets +onlyGivenNames x
    | with_reducible apply State.complete_keeps
    | with_reducible apply State.checked_keeps
    | with_reducible apply State.setSlotImage_keeps
    | with_reducible apply keepsOut_next
    | (intro i; intros; try beta_reduce)

theorem State.runArmed_keeps {s0 s : State} (h_ : Keeps s0 s) (x : Run) :
    Keeps s0 (State.runArmed s x) := by
  unfold State.runArmed
  repeat' first
    | with_reducible assumption
    | with_reducible apply keeps_ite
    | simp -zeta only [keeps_mk1, keeps_mk2]
    | (intro i; intros; try beta_reduce)

theorem State.setStep_keeps {s0 s : State} (h_ : Keeps s0 s) (y : Step) :
    Keeps s0 (State.setStep s y) := by
  unfold State.setStep
  repeat' first
    | with_reducible assumption
    | with_reducible apply keeps_ite
    | simp -zeta only [keeps_mk1, keeps_mk2]
    | (intro i; intros; try beta_reduce)

theorem State.dropStep_keeps {s0 s : State} (h_ : Keeps s0 s) (h : Hdr) :
    Keeps s0 (State.dropStep s h) := by
  unfold State.dropStep
  repeat' first
    | with_reducible assumption
    | simp -zeta only [keeps_mk1, keeps_mk2]
    | (intro i; intros; try beta_reduce)

theorem State.endStep_keeps {s0 s : State} (h_ : Keeps s0 s) (y : Step) :
    Keeps s0 (State.endStep s y) := by
  unfold State.endStep
  repeat' first
    | with_reducible assumption
    | (extract_lets +onlyGivenNames x; refine keeps_cut (p := Keeps s0 x) ?_ (fun hx => ?_) <;> [subst x; clear_value x])
    | (extract_lets +onlyGivenNames x; refine keeps_cut (p := Keeps s0 x.1) ?_ (fun hx => ?_) <;> [subst x; clear_value x])
    | extract_lets +onlyGivenNames x
    | with_reducible apply State.complete_keeps
    | with_reducible apply State.dropStep_keeps
    | with_reducible apply keeps_ite

theorem State.unmark_keeps {s0 s : State} (h_ : Keeps s0 s) (h : Hdr) :
    Keeps s0 (State.unmark s h) := by
  unfold State.unmark
  repeat' first
    | with_reducible assumption
    | (extract_lets +onlyGivenNames x; refine keeps_cut (p := Keeps s0 x) ?_ (fun hx => ?_) <;> [subst x; clear_value x])
    | (extract_lets +onlyGivenNames x; refine keeps_cut (p := Keeps s0 x.1) ?_ (fun hx => ?_) <;> [subst x; clear_value x])
    | extract_lets +onlyGivenNames x
    | with_reducible apply State.setRuns_keeps
    | simp -zeta only [keeps_mk1, keeps_mk2]
    | (intro i; intros; try beta_reduce)

theorem State.stepMaybeEnd_keeps {s0 s : State} (h_ : Keeps s0 s) (y : Step) :
    Keeps s0 (State.stepMaybeEnd s y) := by
  unfold State.stepMaybeEnd
  repeat' first
    | with_reducible assumption
    | (extract_lets +onlyGivenNames x; refine keeps_cut (p := Keeps s0 x) ?_ (fun hx => ?_) <;> [subst x; clear_value x])
    | (extract_lets +onlyGivenNames x; refine keeps_cut (p := Keeps s0 x.1) ?_ (fun hx => ?_) <;> [subst x; clear_value x])
    | extract_lets +onlyGivenNames x
    | with_reducible apply State.setStep_keeps
    | with_reducible apply State.endStep_keeps
    | with_reducible apply State.unmark_keeps
    | with_reducible apply keeps_ite

theorem State.endRun_keeps {s0 s : State} (h_ : Keeps s0 s) (x : Run) (status : Nat) :
    Keeps s0 (State.endRun s x status) := by
  unfold State.endRun
  repeat' first
    | with_reducible assumption
    | (extract_lets +onlyGivenNames x; refine keeps_cut (p := Keeps s0 x) ?_ (fun hx => ?_) <;> [subst x; clear_value x])
    | (extract_lets +onlyGivenNames x; refine keeps_cut (p := Keeps s0 x.1) ?_ (fun hx => ?_) <;> [subst x; clear_value x])
    | extract_lets +onlyGivenNames x
    | with_reducible apply State.complete_keeps
    | with_reducible apply State.stepMaybeEnd_keeps
    | with_reducible apply keeps_ite
    | simp -zeta only [keeps_mk1, keeps_mk2]
    | split

theorem State.clearRet_keeps {s0 s : State} (h_ : Keeps s0 s) (p : Nat) (f : Fld) :
    Keeps s0 (State.clearRet s p f) := by
  unfold State.clearRet
  repeat' first
    | with_reducible assumption
    | with_reducible apply State.wr_keeps
    | with_reducible apply loopN_keeps
    | (intro i; intros; try beta_reduce)

theorem State.armRun_keeps {s0 s : State} (h_ : Keeps s0 s) (p : Nat) (x : Run) :
    Keeps s0 (State.armRun s p x) := by
  unfold State.armRun
  repeat' first
    | with_reducible assumption
    | (extract_lets +onlyGivenNames x; refine keeps_cut (p := Keeps s0 x) ?_ (fun hx => ?_) <;> [subst x; clear_value x])
    | (extract_lets +onlyGivenNames x; refine keeps_cut (p := Keeps s0 x.1) ?_ (fun hx => ?_) <;> [subst x; clear_value x])
    | extract_lets +onlyGivenNames x
    | with_reducible apply State.setRuns_keeps
    | with_reducible apply State.syncPstat_keeps
    | with_reducible apply State.runArmed_keeps
    | with_reducible apply State.endRun_keeps
    | with_reducible apply State.clearRet_keeps
    | with_reducible apply keeps_ite
    | simp -zeta only [keeps_mk1, keeps_mk2]
    | split

theorem State.armWaiting_keeps {s0 : State} (p n : Nat) : ∀ {s : State}, Keeps s0 s → Keeps s0 (s.armWaiting p n) := by
  induction n with
  | zero => exact fun h => h
  | succ n ih =>
    intro s h
    unfold State.armWaiting
    extract_lets
    split
    · exact h
    · split
      · exact h
      · exact ih (State.armRun_keeps (State.setRuns_keeps h ..) ..)

theorem State.submitRun_keeps {s0 s : State} (h_ : Keeps s0 s) (p : Nat) (x : Run) :
    Keeps s0 (State.submitRun s p x) := by
  unfold State.submitRun
  repeat' first
    | with_reducible assumption
    | (extract_lets +onlyGivenNames x; refine keeps_cut (p := Keeps s0 x) ?_ (fun hx => ?_) <;> [subst x; clear_value x])
    | (extract_lets +onlyGivenNames x; refine keeps_cut (p := Keeps s0 x.1) ?_ (fun hx => ?_) <;> [subst x; clear_value x])
    | extract_lets +onlyGivenNames x
    | with_reducible apply State.setRuns_keeps
    | with_reducible apply State.armWaiting_keeps
    | simp -zeta only [keeps_mk1, keeps_mk2]

theorem execScheduleRun_keeps {s0 s : State} (h_ : Keeps s0 s) (h : Hdr) (slot : Nat) (params : List Nat) :
    KeepsOut s0 (execScheduleRun h slot params s) := by
  unfold execScheduleRun
  repeat' first
    | with_reducible assumption
    | (extract_lets +onlyGivenNames x; refine keeps_cut (p := Keeps s0 x) ?_ (fun hx => ?_) <;> [subst x; clear_value x])
    | (extract_lets +onlyGivenNames x; refine keeps_cut (p := Keeps s0 x.1) ?_ (fun hx => ?_) <;> [subst x; clear_value x])
    | extract_lets +onlyGivenNames x
    | with_reducible apply State.start_keeps
    | with_reducible apply State.checked_keeps
    | with_reducible apply State.submitRun_keeps
    | with_reducible apply keepsOut_ite
    | with_reducible apply keeps_ite
    | with_reducible apply keepsOut_next
    | simp -zeta only [keeps_mk1, keeps_mk2]
    | (intro i; intros; try beta_reduce)

theorem State.headDrawers_keeps {s0 s : State} (h_ : Keeps s0 s) (c : Nat) (im : Image) :
    Keeps s0 (State.headDrawers s c im) := by
  unfold State.headDrawers
  repeat' first
    | with_reducible assumption
    | (extract_lets +onlyGivenNames x; refine keeps_cut (p := Keeps s0 x) ?_ (fun hx => ?_) <;> [subst x; clear_value x])
    | (extract_lets +onlyGivenNames x; refine keeps_cut (p := Keeps s0 x.1) ?_ (fun hx => ?_) <;> [subst x; clear_value x])
    | extract_lets +onlyGivenNames x
    | with_reducible apply State.wr_keeps
    | with_reducible apply loopN_keeps
    | with_reducible apply State.resetDrawer_keeps
    | with_reducible apply keeps_ite
    | split
    | (intro i; intros; try beta_reduce)

theorem State.headCells_keeps {s0 s : State} (h_ : Keeps s0 s) (c : Nat) (im : Image) :
    Keeps s0 (State.headCells s c im) := by
  unfold State.headCells
  repeat' first
    | with_reducible assumption
    | (extract_lets +onlyGivenNames x; refine keeps_cut (p := Keeps s0 x) ?_ (fun hx => ?_) <;> [subst x; clear_value x])
    | (extract_lets +onlyGivenNames x; refine keeps_cut (p := Keeps s0 x.1) ?_ (fun hx => ?_) <;> [subst x; clear_value x])
    | extract_lets +onlyGivenNames x
    | with_reducible apply loopN_keeps
    | with_reducible apply State.clearCell_keeps
    | with_reducible apply State.clearStile_keeps
    | with_reducible apply keeps_ite
    | (intro i; intros; try beta_reduce)

theorem State.setRet_keeps {s0 s : State} (h_ : Keeps s0 s) (c : Nat) (side : Nat) (st : Nat) :
    Keeps s0 (State.setRet s c side st) := by
  unfold State.setRet
  repeat' first
    | with_reducible assumption
    | (extract_lets +onlyGivenNames x; refine keeps_cut (p := Keeps s0 x) ?_ (fun hx => ?_) <;> [subst x; clear_value x])
    | (extract_lets +onlyGivenNames x; refine keeps_cut (p := Keeps s0 x.1) ?_ (fun hx => ?_) <;> [subst x; clear_value x])
    | extract_lets +onlyGivenNames x
    | with_reducible apply State.wr_keeps
    | with_reducible apply keeps_ite

theorem execHeadStart_keeps {s0 s : State} (h_ : Keeps s0 s) (core : Fin 128) :
    KeepsOut s0 (execHeadStart core s) := by
  unfold execHeadStart
  repeat' first
    | with_reducible assumption
    | (extract_lets +onlyGivenNames x; refine keeps_cut (p := Keeps s0 x) ?_ (fun hx => ?_) <;> [subst x; clear_value x])
    | (extract_lets +onlyGivenNames x; refine keeps_cut (p := Keeps s0 x.1) ?_ (fun hx => ?_) <;> [subst x; clear_value x])
    | extract_lets +onlyGivenNames x
    | with_reducible apply State.wr_keeps
    | with_reducible apply loopN_keeps
    | with_reducible apply State.setStream_keeps
    | with_reducible apply State.abort_keeps
    | with_reducible apply State.warnSide_keeps
    | with_reducible apply State.headDrawers_keeps
    | with_reducible apply State.headCells_keeps
    | with_reducible apply State.setRet_keeps
    | with_reducible apply keepsOut_ite
    | with_reducible apply keeps_ite
    | with_reducible apply keepsOut_next
    | simp -zeta only [keeps_mk1, keeps_mk2]
    | split
    | (intro i; intros; try beta_reduce)

theorem execTailStart_keeps {s0 s : State} (h_ : Keeps s0 s) (core : Fin 128) :
    KeepsOut s0 (execTailStart core s) := by
  unfold execTailStart
  repeat' first
    | with_reducible assumption
    | (extract_lets +onlyGivenNames x; refine keeps_cut (p := Keeps s0 x) ?_ (fun hx => ?_) <;> [subst x; clear_value x])
    | (extract_lets +onlyGivenNames x; refine keeps_cut (p := Keeps s0 x.1) ?_ (fun hx => ?_) <;> [subst x; clear_value x])
    | extract_lets +onlyGivenNames x
    | with_reducible apply State.abort_keeps
    | with_reducible apply keepsOut_ite
    | with_reducible apply keeps_ite
    | with_reducible apply keepsOut_next
    | simp -zeta only [keeps_mk1, keeps_mk2]
    | split
    | (intro i; intros; try beta_reduce)

theorem execStreamRetire_keeps {s0 s : State} (h_ : Keeps s0 s) (a : At) :
    KeepsOut s0 (execStreamRetire a s) := by
  unfold execStreamRetire
  repeat' first
    | with_reducible assumption
    | (extract_lets +onlyGivenNames x; refine keeps_cut (p := Keeps s0 x) ?_ (fun hx => ?_) <;> [subst x; clear_value x])
    | (extract_lets +onlyGivenNames x; refine keeps_cut (p := Keeps s0 x.1) ?_ (fun hx => ?_) <;> [subst x; clear_value x])
    | extract_lets +onlyGivenNames x
    | with_reducible apply State.setRet_keeps
    | with_reducible apply keepsOut_ite
    | with_reducible apply keeps_ite
    | with_reducible apply keepsOut_next
    | split

theorem State.forgetSide_keeps {s0 s : State} (h_ : Keeps s0 s) (p : Nat) (side : Nat) :
    Keeps s0 (State.forgetSide s p side) := by
  unfold State.forgetSide
  repeat' first
    | with_reducible assumption
    | (extract_lets +onlyGivenNames x; refine keeps_cut (p := Keeps s0 x) ?_ (fun hx => ?_) <;> [subst x; clear_value x])
    | (extract_lets +onlyGivenNames x; refine keeps_cut (p := Keeps s0 x.1) ?_ (fun hx => ?_) <;> [subst x; clear_value x])
    | extract_lets +onlyGivenNames x
    | with_reducible apply State.wr_keeps
    | with_reducible apply State.syncHeld_keeps
    | with_reducible apply keeps_foldl
    | with_reducible apply keeps_foldl_fst
    | with_reducible apply keeps_ite
    | simp -zeta only [keeps_mk1, keeps_mk2]
    | split
    | (intro i; intros; try beta_reduce)

theorem State.promote_keeps {s0 s : State} (h_ : Keeps s0 s) (p : Nat) :
    Keeps s0 (State.promote s p) := by
  unfold State.promote
  repeat' first
    | with_reducible assumption
    | (extract_lets +onlyGivenNames x; refine keeps_cut (p := Keeps s0 x) ?_ (fun hx => ?_) <;> [subst x; clear_value x])
    | (extract_lets +onlyGivenNames x; refine keeps_cut (p := Keeps s0 x.1) ?_ (fun hx => ?_) <;> [subst x; clear_value x])
    | extract_lets +onlyGivenNames x
    | with_reducible apply State.wr_keeps
    | with_reducible apply loopN_keeps
    | with_reducible apply State.setRuns_keeps
    | with_reducible apply State.syncPstat_keeps
    | simp -zeta only [keeps_mk1, keeps_mk2]
    | split
    | (intro i; intros; try beta_reduce)

theorem execRunComplete_keeps {s0 s : State} (h_ : Keeps s0 s) (p : Fin 16) :
    KeepsOut s0 (execRunComplete p s) := by
  unfold execRunComplete
  repeat' first
    | with_reducible assumption
    | (extract_lets +onlyGivenNames x; refine keeps_cut (p := Keeps s0 x) ?_ (fun hx => ?_) <;> [subst x; clear_value x])
    | (extract_lets +onlyGivenNames x; refine keeps_cut (p := Keeps s0 x.1) ?_ (fun hx => ?_) <;> [subst x; clear_value x])
    | extract_lets +onlyGivenNames x
    | with_reducible apply State.syncPstat_keeps
    | with_reducible apply State.endRun_keeps
    | with_reducible apply State.armWaiting_keeps
    | with_reducible apply State.forgetSide_keeps
    | with_reducible apply State.promote_keeps
    | with_reducible apply keepsOut_ite
    | with_reducible apply keeps_ite
    | with_reducible apply keepsOut_next
    | split

theorem execAbortDrainDone_keeps {s0 s : State} (h_ : Keeps s0 s) (p : Fin 16) :
    KeepsOut s0 (execAbortDrainDone p s) := by
  unfold execAbortDrainDone
  repeat' first
    | with_reducible assumption
    | (extract_lets +onlyGivenNames x; refine keeps_cut (p := Keeps s0 x) ?_ (fun hx => ?_) <;> [subst x; clear_value x])
    | (extract_lets +onlyGivenNames x; refine keeps_cut (p := Keeps s0 x.1) ?_ (fun hx => ?_) <;> [subst x; clear_value x])
    | extract_lets +onlyGivenNames x
    | with_reducible apply State.setRuns_keeps
    | with_reducible apply State.syncPstat_keeps
    | with_reducible apply State.endRun_keeps
    | with_reducible apply State.armWaiting_keeps
    | with_reducible apply State.forgetSide_keeps
    | with_reducible apply State.promote_keeps
    | with_reducible apply keepsOut_ite
    | with_reducible apply keeps_ite
    | with_reducible apply keepsOut_next
    | simp -zeta only [keeps_mk1, keeps_mk2]
    | split
    | (intro i; intros; try beta_reduce)

theorem execWaitDefaultUsWrite_keeps {s0 s : State} (h_ : Keeps s0 s) (p : Fin 16) (v : Nat) :
    KeepsOut s0 (execWaitDefaultUsWrite p v s) := by
  unfold execWaitDefaultUsWrite
  repeat' first
    | with_reducible assumption
    | with_reducible apply State.wr_keeps
    | with_reducible apply keepsOut_next

theorem execSchCslip0ValidClear_keeps {s0 s : State} (h_ : Keeps s0 s) (core : Fin 128) :
    KeepsOut s0 (execSchCslip0ValidClear core s) := by
  unfold execSchCslip0ValidClear
  repeat' first
    | with_reducible assumption
    | with_reducible apply State.wr_keeps
    | with_reducible apply keepsOut_next

end Sys2Proof.Machine
end

