-- ==== Sys2Proof/Laws/KeepsBudget.lean ====
section
/-! SUPPORT. What the operations of Machine/Budget.lean never undo (Keeps of Safety.lean): one lemma per operation. -/

set_option linter.all false

namespace Sys2Proof.Machine

theorem State.setDroop_keeps {s0 s : State} (h_ : Keeps s0 s) (d : Nat) (x : Option (Nat × Nat)) :
    Keeps s0 (State.setDroop s d x) := by
  unfold State.setDroop
  repeat' first
    | with_reducible assumption
    | (extract_lets +onlyGivenNames x; refine keeps_cut (p := Keeps s0 x) ?_ (fun hx => ?_) <;> [subst x; clear_value x])
    | (extract_lets +onlyGivenNames x; refine keeps_cut (p := Keeps s0 x.1) ?_ (fun hx => ?_) <;> [subst x; clear_value x])
    | extract_lets +onlyGivenNames x
    | with_reducible apply State.wr_keeps
    | simp -zeta only [keeps_mk1, keeps_mk2]

theorem execDroopTrip_keeps {s0 s : State} (h_ : Keeps s0 s) (die : Fin 2) :
    KeepsOut s0 (execDroopTrip die s) := by
  unfold execDroopTrip
  repeat' first
    | with_reducible assumption
    | (extract_lets +onlyGivenNames x; refine keeps_cut (p := Keeps s0 x) ?_ (fun hx => ?_) <;> [subst x; clear_value x])
    | (extract_lets +onlyGivenNames x; refine keeps_cut (p := Keeps s0 x.1) ?_ (fun hx => ?_) <;> [subst x; clear_value x])
    | extract_lets +onlyGivenNames x
    | with_reducible apply State.bump_keeps
    | with_reducible apply loopN_keeps
    | with_reducible apply State.event_keeps
    | with_reducible apply State.warnOn_keeps
    | with_reducible apply State.setDroop_keeps
    | with_reducible apply keepsOut_ite
    | with_reducible apply keeps_ite
    | with_reducible apply keepsOut_next
    | split
    | (intro i; intros; try beta_reduce)

theorem execDroopStretchEnd_keeps {s0 s : State} (h_ : Keeps s0 s) (die : Fin 2) :
    KeepsOut s0 (execDroopStretchEnd die s) := by
  unfold execDroopStretchEnd
  repeat' first
    | with_reducible assumption
    | with_reducible apply State.setDroop_keeps
    | with_reducible apply keepsOut_ite
    | with_reducible apply keeps_ite
    | with_reducible apply keepsOut_next

theorem State.ucharge_keeps {s0 s : State} (h_ : Keeps s0 s) (p : Nat) (w : Nat) :
    Keeps s0 (State.ucharge s p w) := by
  unfold State.ucharge
  repeat' first
    | with_reducible assumption
    | (extract_lets +onlyGivenNames x; refine keeps_cut (p := Keeps s0 x) ?_ (fun hx => ?_) <;> [subst x; clear_value x])
    | (extract_lets +onlyGivenNames x; refine keeps_cut (p := Keeps s0 x.1) ?_ (fun hx => ?_) <;> [subst x; clear_value x])
    | extract_lets +onlyGivenNames x
    | with_reducible apply State.wr_keeps
    | simp -zeta only [keeps_mk1, keeps_mk2]
    | split

theorem State.setHeld_keeps {s0 s : State} (h_ : Keeps s0 s) (p : Nat) (l : List Held) :
    Keeps s0 (State.setHeld s p l) := by
  unfold State.setHeld
  repeat' first
    | with_reducible assumption
    | simp -zeta only [keeps_mk1, keeps_mk2]

theorem State.setAdmitted_keeps {s0 s : State} (h_ : Keeps s0 s) (p : Nat) (l : List Held) :
    Keeps s0 (State.setAdmitted s p l) := by
  unfold State.setAdmitted
  repeat' first
    | with_reducible assumption
    | simp -zeta only [keeps_mk1, keeps_mk2]

theorem State.untimed_keeps {s0 s : State} (h_ : Keeps s0 s) (p : Nat) (src : Nat) (w : Nat) (tag : List Nat) (go : State → State) (hgo : ∀ t, Keeps s0 t → Keeps s0 (go t)) :
    Keeps s0 (State.untimed s p src w tag go) := by
  unfold State.untimed
  repeat' first
    | with_reducible assumption
    | (extract_lets +onlyGivenNames x; refine keeps_cut (p := Keeps s0 x) ?_ (fun hx => ?_) <;> [subst x; clear_value x])
    | (extract_lets +onlyGivenNames x; refine keeps_cut (p := Keeps s0 x.1) ?_ (fun hx => ?_) <;> [subst x; clear_value x])
    | extract_lets +onlyGivenNames x
    | with_reducible apply State.ucharge_keeps
    | with_reducible apply State.setHeld_keeps
    | with_reducible apply State.setAdmitted_keeps
    | with_reducible apply keeps_ite
    | simp -zeta only [keeps_mk1, keeps_mk2]
    | (intro i; intros; try beta_reduce)
    | apply_assumption

theorem execUntimedEventAdmit_keeps {s0 s : State} (h_ : Keeps s0 s) (p : Fin 16) :
    KeepsOut s0 (execUntimedEventAdmit p s) := by
  unfold execUntimedEventAdmit
  repeat' first
    | with_reducible assumption
    | (extract_lets +onlyGivenNames x; refine keeps_cut (p := Keeps s0 x) ?_ (fun hx => ?_) <;> [subst x; clear_value x])
    | (extract_lets +onlyGivenNames x; refine keeps_cut (p := Keeps s0 x.1) ?_ (fun hx => ?_) <;> [subst x; clear_value x])
    | extract_lets +onlyGivenNames x
    | with_reducible apply State.ucharge_keeps
    | with_reducible apply State.setHeld_keeps
    | with_reducible apply State.setAdmitted_keeps
    | with_reducible apply keepsOut_ite
    | with_reducible apply keeps_ite
    | with_reducible apply keepsOut_next
    | simp -zeta only [keeps_mk1, keeps_mk2]
    | split

theorem State.reserve_keeps {s0 s : State} (h_ : Keeps s0 s) (k : Nat) (w : Nat) (go : State → State) (hgo : ∀ t, Keeps s0 t → Keeps s0 (go t)) :
    Keeps s0 (State.reserve s k w go) := by
  unfold State.reserve
  repeat' first
    | with_reducible assumption
    | (extract_lets +onlyGivenNames x; refine keeps_cut (p := Keeps s0 x) ?_ (fun hx => ?_) <;> [subst x; clear_value x])
    | (extract_lets +onlyGivenNames x; refine keeps_cut (p := Keeps s0 x.1) ?_ (fun hx => ?_) <;> [subst x; clear_value x])
    | extract_lets +onlyGivenNames x
    | with_reducible apply keeps_ite
    | simp -zeta only [keeps_mk1, keeps_mk2]
    | split
    | (intro i; intros; try beta_reduce)
    | apply_assumption

theorem State.slideReserve_keeps {s0 s : State} (h_ : Keeps s0 s) :
    Keeps s0 (State.slideReserve s) := by
  unfold State.slideReserve
  repeat' first
    | with_reducible assumption
    | (extract_lets +onlyGivenNames x; refine keeps_cut (p := Keeps s0 x) ?_ (fun hx => ?_) <;> [subst x; clear_value x])
    | (extract_lets +onlyGivenNames x; refine keeps_cut (p := Keeps s0 x.1) ?_ (fun hx => ?_) <;> [subst x; clear_value x])
    | extract_lets +onlyGivenNames x
    | with_reducible apply loopN_keeps
    | with_reducible apply keeps_ite
    | simp -zeta only [keeps_mk1, keeps_mk2]
    | (intro i; intros; try beta_reduce)

theorem execBudRec0ValidClear_keeps {s0 s : State} (h_ : Keeps s0 s) (p : Fin 16) :
    KeepsOut s0 (execBudRec0ValidClear p s) := by
  unfold execBudRec0ValidClear
  repeat' first
    | with_reducible assumption
    | with_reducible apply State.wr_keeps
    | with_reducible apply keepsOut_next

theorem execBudDcfgWrite_keeps {s0 s : State} (h_ : Keeps s0 s) (die : Fin 2) (droopMv : Nat) (holdClocks : Nat) :
    KeepsOut s0 (execBudDcfgWrite die droopMv holdClocks s) := by
  unfold execBudDcfgWrite
  repeat' first
    | with_reducible assumption
    | (extract_lets +onlyGivenNames x; refine keeps_cut (p := Keeps s0 x) ?_ (fun hx => ?_) <;> [subst x; clear_value x])
    | (extract_lets +onlyGivenNames x; refine keeps_cut (p := Keeps s0 x.1) ?_ (fun hx => ?_) <;> [subst x; clear_value x])
    | extract_lets +onlyGivenNames x
    | with_reducible apply State.wr_keeps
    | with_reducible apply keepsOut_next

end Sys2Proof.Machine
end

