-- ==== Sys2Proof/Laws/KeepsCells.lean ====
section
/-! SUPPORT. What the operations of Machine/Cells.lean never undo (Keeps of Safety.lean): one lemma per operation. -/

set_option linter.all false

namespace Sys2Proof.Machine

theorem State.atEnd_keeps {s0 s : State} (h_ : Keeps s0 s) (c : Nat) (e : EndSig) :
    Keeps s0 (State.atEnd s c e) := by
  unfold State.atEnd
  repeat' first
    | with_reducible assumption
    | simp -zeta only [keeps_mk1, keeps_mk2]

theorem execSignal_keeps {s0 s : State} (h_ : Keeps s0 s) (a : At) :
    KeepsOut s0 (execSignal a s) := by
  unfold execSignal
  repeat' first
    | with_reducible assumption
    | with_reducible apply State.issueAs_keeps
    | with_reducible apply State.atEnd_keeps
    | with_reducible apply keepsOut_next
    | (intro i; intros; try beta_reduce)

theorem execStileArrive_keeps {s0 s : State} (h_ : Keeps s0 s) (a : At) :
    KeepsOut s0 (execStileArrive a s) := by
  unfold execStileArrive
  repeat' first
    | with_reducible assumption
    | with_reducible apply State.issueAs_keeps
    | with_reducible apply State.atEnd_keeps
    | with_reducible apply keepsOut_next
    | (intro i; intros; try beta_reduce)

theorem State.claimDone_keeps {s0 s : State} (h_ : Keeps s0 s) (x : Ctx) (done : Nat) :
    Keeps s0 (State.claimDone s x done) := by
  unfold State.claimDone
  repeat' first
    | with_reducible assumption
    | with_reducible apply State.atEnd_keeps
    | with_reducible apply keeps_ite

theorem State.applyEnd_keeps {s0 s : State} (h_ : Keeps s0 s) (c : Nat) (e : EndSig) :
    Keeps s0 (State.applyEnd s c e) := by
  unfold State.applyEnd
  repeat' first
    | with_reducible assumption
    | (extract_lets +onlyGivenNames x; refine keeps_cut (p := Keeps s0 x) ?_ (fun hx => ?_) <;> [subst x; clear_value x])
    | (extract_lets +onlyGivenNames x; refine keeps_cut (p := Keeps s0 x.1) ?_ (fun hx => ?_) <;> [subst x; clear_value x])
    | extract_lets +onlyGivenNames x
    | with_reducible apply State.signalCell_keeps
    | with_reducible apply State.stileClaim_keeps
    | with_reducible apply State.stileArrive_keeps
    | with_reducible apply keeps_ite

theorem State.applyEnds_keeps {s0 : State} (c : Nat) (es : List EndSig) : ∀ {s : State} (l : List Nat), Keeps s0 s → Keeps s0 (s.applyEnds c es l) := by
  induction es with
  | nil => exact fun _ h => h
  | cons e es ih =>
    intro s l h
    unfold State.applyEnds
    split
    · exact ih _ h
    · exact ih _ (State.applyEnd_keeps h ..)

theorem State.phase3_keeps {s0 s : State} (h_ : Keeps s0 s) (c : Nat) :
    Keeps s0 (State.phase3 s c) := by
  unfold State.phase3
  repeat' first
    | with_reducible assumption
    | (extract_lets +onlyGivenNames x; refine keeps_cut (p := Keeps s0 x) ?_ (fun hx => ?_) <;> [subst x; clear_value x])
    | (extract_lets +onlyGivenNames x; refine keeps_cut (p := Keeps s0 x.1) ?_ (fun hx => ?_) <;> [subst x; clear_value x])
    | extract_lets +onlyGivenNames x
    | with_reducible apply State.applyEnds_keeps
    | simp -zeta only [keeps_mk1, keeps_mk2]
    | (intro i; intros; try beta_reduce)

end Sys2Proof.Machine
end

