-- ==== Sys2Proof/Laws/KeepsRows.lean ====
section
/-! SUPPORT. What the operations of Machine/Rows.lean never undo (Keeps of Safety.lean): one lemma per operation. -/

set_option linter.all false

namespace Sys2Proof.Machine

theorem State.useBank_keeps {s0 s : State} (h_ : Keeps s0 s) (c : Nat) (b : Nat) :
    Keeps s0 (State.useBank s c b) := by
  unfold State.useBank
  repeat' first
    | with_reducible assumption
    | simp -zeta only [keeps_mk1, keeps_mk2]
    | simp only [keeps_mk1, keeps_mk2]
    | simp (zetaDelta := true) only [keeps_mk1, keeps_mk2]

theorem State.ackFor_keeps {s0 s : State} (h_ : Keeps s0 s) (p : Nat) (dev : Nat) (pdk : Nat) (xid : Nat) (k : Nat) (status : Nat) (high : Nat) (aux : Nat) :
    Keeps s0 (State.ackFor s p dev pdk xid k status high aux) := by
  unfold State.ackFor
  repeat' first
    | with_reducible assumption
    | with_reducible apply State.sendMsg_keeps

theorem State.recvLanded_keeps {s0 s : State} (h_ : Keeps s0 s) (o : Op) (r : Recv) (row : Nat) :
    Keeps s0 (State.recvLanded s o r row) := by
  unfold State.recvLanded
  repeat' first
    | with_reducible assumption
    | (extract_lets +onlyGivenNames x; refine keeps_cut (p := Keeps s0 x) ?_ (fun hx => ?_) <;> [subst x; clear_value x])
    | (extract_lets +onlyGivenNames x; refine keeps_cut (p := Keeps s0 x.1) ?_ (fun hx => ?_) <;> [subst x; clear_value x])
    | extract_lets +onlyGivenNames x
    | with_reducible apply State.setOp_keeps
    | with_reducible apply State.ackFor_keeps
    | with_reducible apply keeps_foldl
    | with_reducible apply keeps_foldl_fst
    | with_reducible apply keeps_ite
    | simp -zeta only [keeps_mk1, keeps_mk2]
    | (intro i; intros; try beta_reduce)

theorem State.rowLanded_keeps {s0 s : State} (h_ : Keeps s0 s) (id : Nat) (row : Nat) :
    Keeps s0 (State.rowLanded s id row) := by
  unfold State.rowLanded
  repeat' first
    | with_reducible assumption
    | (extract_lets +onlyGivenNames x; refine keeps_cut (p := Keeps s0 x) ?_ (fun hx => ?_) <;> [subst x; clear_value x])
    | (extract_lets +onlyGivenNames x; refine keeps_cut (p := Keeps s0 x.1) ?_ (fun hx => ?_) <;> [subst x; clear_value x])
    | extract_lets +onlyGivenNames x
    | with_reducible apply State.setOp_keeps
    | with_reducible apply State.completeOp_keeps
    | with_reducible apply State.recvLanded_keeps
    | with_reducible apply keeps_ite
    | simp -zeta only [keeps_mk1, keeps_mk2]
    | split

theorem State.landDeferred_keeps {s0 s : State} (h_ : Keeps s0 s) (a : Arrival) :
    Keeps s0 (State.landDeferred s a) := by
  unfold State.landDeferred
  repeat' first
    | with_reducible assumption
    | (extract_lets +onlyGivenNames x; refine keeps_cut (p := Keeps s0 x) ?_ (fun hx => ?_) <;> [subst x; clear_value x])
    | (extract_lets +onlyGivenNames x; refine keeps_cut (p := Keeps s0 x.1) ?_ (fun hx => ?_) <;> [subst x; clear_value x])
    | extract_lets +onlyGivenNames x
    | with_reducible apply State.wr_keeps
    | with_reducible apply State.violation_keeps
    | with_reducible apply State.commitRow_keeps
    | with_reducible apply keeps_ite
    | split
    | refine State.claimSlot_keeps' (by with_reducible assumption) ?_

theorem State.landArrival_keeps {s0 s : State} (h_ : Keeps s0 s) (a : Arrival) :
    Keeps s0 (State.landArrival s a) := by
  unfold State.landArrival
  repeat' first
    | with_reducible assumption
    | (extract_lets +onlyGivenNames x; refine keeps_cut (p := Keeps s0 x) ?_ (fun hx => ?_) <;> [subst x; clear_value x])
    | (extract_lets +onlyGivenNames x; refine keeps_cut (p := Keeps s0 x.1) ?_ (fun hx => ?_) <;> [subst x; clear_value x])
    | extract_lets +onlyGivenNames x
    | with_reducible apply State.deviceError_keeps
    | with_reducible apply State.abort_keeps
    | with_reducible apply State.commitRow_keeps
    | with_reducible apply State.useBank_keeps
    | with_reducible apply State.rowLanded_keeps
    | with_reducible apply State.landDeferred_keeps
    | with_reducible apply keeps_ite
    | simp -zeta only [keeps_mk1, keeps_mk2]
    | simp only [keeps_mk1, keeps_mk2]
    | simp (zetaDelta := true) only [keeps_mk1, keeps_mk2]

theorem State.arrivalGo_keeps {s0 s : State} (h_ : Keeps s0 s) (a : Arrival) :
    Keeps s0 (State.arrivalGo s a) := by
  unfold State.arrivalGo
  repeat' first
    | with_reducible assumption
    | with_reducible apply State.untimed_keeps
    | with_reducible apply State.landArrival_keeps
    | (intro i; intros; try beta_reduce)

theorem execArrivalWriteCommit_keeps {s0 s : State} (h_ : Keeps s0 s) (core : Fin 128) (bank : Fin 32) :
    KeepsOut s0 (execArrivalWriteCommit core bank s) := by
  unfold execArrivalWriteCommit
  repeat' first
    | with_reducible assumption
    | (extract_lets +onlyGivenNames x; refine keeps_cut (p := Keeps s0 x) ?_ (fun hx => ?_) <;> [subst x; clear_value x])
    | (extract_lets +onlyGivenNames x; refine keeps_cut (p := Keeps s0 x.1) ?_ (fun hx => ?_) <;> [subst x; clear_value x])
    | extract_lets +onlyGivenNames x
    | with_reducible apply State.arrivalGo_keeps
    | with_reducible apply keepsOut_ite
    | with_reducible apply keeps_ite
    | with_reducible apply keepsOut_next
    | split
    | (intro i; intros; try beta_reduce)

theorem execArrivalWriteForced_keeps {s0 s : State} (h_ : Keeps s0 s) (core : Fin 128) (bank : Fin 32) :
    KeepsOut s0 (execArrivalWriteForced core bank s) := by
  unfold execArrivalWriteForced
  repeat' first
    | with_reducible assumption
    | (extract_lets +onlyGivenNames x; refine keeps_cut (p := Keeps s0 x) ?_ (fun hx => ?_) <;> [subst x; clear_value x])
    | (extract_lets +onlyGivenNames x; refine keeps_cut (p := Keeps s0 x.1) ?_ (fun hx => ?_) <;> [subst x; clear_value x])
    | extract_lets +onlyGivenNames x
    | with_reducible apply State.arrivalGo_keeps
    | with_reducible apply keepsOut_ite
    | with_reducible apply keeps_ite
    | with_reducible apply keepsOut_next
    | simp -zeta only [keeps_mk1, keeps_mk2]
    | split
    | (intro i; intros; try beta_reduce)

theorem State.syncPatrol_keeps {s0 s : State} (h_ : Keeps s0 s) (c : Nat) :
    Keeps s0 (State.syncPatrol s c) := by
  unfold State.syncPatrol
  repeat' first
    | with_reducible assumption
    | (extract_lets +onlyGivenNames x; refine keeps_cut (p := Keeps s0 x) ?_ (fun hx => ?_) <;> [subst x; clear_value x])
    | (extract_lets +onlyGivenNames x; refine keeps_cut (p := Keeps s0 x.1) ?_ (fun hx => ?_) <;> [subst x; clear_value x])
    | extract_lets +onlyGivenNames x
    | with_reducible apply State.wr_keeps
    | with_reducible apply keeps_foldl
    | with_reducible apply keeps_foldl_fst
    | (intro i; intros; try beta_reduce)

theorem State.patrolStep_keeps {s0 s : State} (h_ : Keeps s0 s) (c : Nat) (b : Nat) :
    Keeps s0 (State.patrolStep s c b) := by
  unfold State.patrolStep
  repeat' first
    | with_reducible assumption
    | (extract_lets +onlyGivenNames x; refine keeps_cut (p := Keeps s0 x) ?_ (fun hx => ?_) <;> [subst x; clear_value x])
    | (extract_lets +onlyGivenNames x; refine keeps_cut (p := Keeps s0 x.1) ?_ (fun hx => ?_) <;> [subst x; clear_value x])
    | extract_lets +onlyGivenNames x
    | with_reducible apply State.setPatrol_keeps
    | with_reducible apply State.syncPatrol_keeps
    | with_reducible apply keeps_ite
    | simp -zeta only [keeps_mk1, keeps_mk2]

theorem State.patrolRead_keeps {s0 s : State} (h_ : Keeps s0 s) (c b : Nat) (err : Option (Nat × Bool)) :
    Keeps s0 (s.patrolRead c b err) := by
  unfold State.patrolRead
  extract_lets x br row t
  have k : Keeps s0 t := State.patrolStep_keeps (State.useBank_keeps h_ ..) ..
  clear_value t row br
  cases err with
  | none => exact k
  | some e =>
    refine keeps_ite k (keeps_ite ?_ ?_)
    · refine State.event_keeps (State.shelfErr_keeps (State.markRow_keeps (State.bump_keeps ?_ ..) ..) ..) ..
      cases row with
      | none => exact k
      | some r => exact keeps_shelfPoison k ..
    · exact State.setPatrol_keeps (State.shelfErr_keeps (State.trackRow_keeps (State.bump_keeps k ..) ..) ..) ..

theorem execPatrolRead_keeps {s0 s : State} (h_ : Keeps s0 s) (core : Fin 128) (bank : Fin 32) (err : Option (Nat × Bool)) :
    KeepsOut s0 (execPatrolRead core bank err s) := by
  unfold execPatrolRead
  repeat' first
    | with_reducible assumption
    | (extract_lets +onlyGivenNames x; refine keeps_cut (p := Keeps s0 x) ?_ (fun hx => ?_) <;> [subst x; clear_value x])
    | (extract_lets +onlyGivenNames x; refine keeps_cut (p := Keeps s0 x.1) ?_ (fun hx => ?_) <;> [subst x; clear_value x])
    | extract_lets +onlyGivenNames x
    | with_reducible apply State.untimed_keeps
    | with_reducible apply State.patrolRead_keeps
    | with_reducible apply keepsOut_ite
    | with_reducible apply keeps_ite
    | with_reducible apply keepsOut_next
    | (intro i; intros; try beta_reduce)

theorem execPatrolForced_keeps {s0 s : State} (h_ : Keeps s0 s) (core : Fin 128) (bank : Fin 32) (err : Option (Nat × Bool)) :
    KeepsOut s0 (execPatrolForced core bank err s) := by
  unfold execPatrolForced
  repeat' first
    | with_reducible assumption
    | (extract_lets +onlyGivenNames x; refine keeps_cut (p := Keeps s0 x) ?_ (fun hx => ?_) <;> [subst x; clear_value x])
    | (extract_lets +onlyGivenNames x; refine keeps_cut (p := Keeps s0 x.1) ?_ (fun hx => ?_) <;> [subst x; clear_value x])
    | extract_lets +onlyGivenNames x
    | with_reducible apply State.setPatrol_keeps
    | with_reducible apply State.untimed_keeps
    | with_reducible apply State.patrolRead_keeps
    | with_reducible apply keepsOut_ite
    | with_reducible apply keeps_ite
    | with_reducible apply keepsOut_next
    | simp -zeta only [keeps_mk1, keeps_mk2]
    | (intro i; intros; try beta_reduce)

theorem execPatrolWriteBack_keeps {s0 s : State} (h_ : Keeps s0 s) (core : Fin 128) (bank : Fin 32) :
    KeepsOut s0 (execPatrolWriteBack core bank s) := by
  unfold execPatrolWriteBack
  repeat' first
    | with_reducible assumption
    | (extract_lets +onlyGivenNames x; refine keeps_cut (p := Keeps s0 x) ?_ (fun hx => ?_) <;> [subst x; clear_value x])
    | (extract_lets +onlyGivenNames x; refine keeps_cut (p := Keeps s0 x.1) ?_ (fun hx => ?_) <;> [subst x; clear_value x])
    | extract_lets +onlyGivenNames x
    | with_reducible apply State.setPatrol_keeps
    | with_reducible apply State.untimed_keeps
    | with_reducible apply State.useBank_keeps
    | with_reducible apply keepsOut_ite
    | with_reducible apply keeps_ite
    | with_reducible apply keepsOut_next
    | simp -zeta only [keeps_mk1, keeps_mk2]
    | (intro i; intros; try beta_reduce)

theorem execCeLimitWrite_keeps {s0 s : State} (h_ : Keeps s0 s) (core : Fin 128) (v : Nat) :
    KeepsOut s0 (execCeLimitWrite core v s) := by
  unfold execCeLimitWrite
  repeat' first
    | with_reducible assumption
    | with_reducible apply State.wr_keeps
    | with_reducible apply keepsOut_next

end Sys2Proof.Machine
end

