-- ==== Sys2Proof/Laws/KeepsMatrix.lean ====
section
/-! SUPPORT. What the operations of Machine/Matrix.lean never undo (Keeps of Safety.lean): one lemma per operation. -/

set_option linter.all false

namespace Sys2Proof.Machine

theorem State.syncMxe_keeps {s0 s : State} (h_ : Keeps s0 s) (c : Nat) :
    Keeps s0 (State.syncMxe s c) := by
  unfold State.syncMxe
  repeat' first
    | with_reducible assumption
    | (extract_lets +onlyGivenNames x; refine keeps_cut (p := Keeps s0 x) ?_ (fun hx => ?_) <;> [subst x; clear_value x])
    | (extract_lets +onlyGivenNames x; refine keeps_cut (p := Keeps s0 x.1) ?_ (fun hx => ?_) <;> [subst x; clear_value x])
    | extract_lets +onlyGivenNames x
    | with_reducible apply State.wr_keeps
    | with_reducible apply keeps_foldl
    | with_reducible apply keeps_foldl_fst
    | with_reducible apply keeps_ite
    | split
    | (intro i; intros; try beta_reduce)

theorem execMatrixTile_keeps {s0 s : State} (h_ : Keeps s0 s) (a : At) (errs : List ShelfErr) :
    KeepsOut s0 (execMatrixTile a errs s) := by
  unfold execMatrixTile
  repeat' first
    | with_reducible assumption
    | (extract_lets +onlyGivenNames x; refine keeps_cut (p := Keeps s0 x) ?_ (fun hx => ?_) <;> [subst x; clear_value x])
    | (extract_lets +onlyGivenNames x; refine keeps_cut (p := Keeps s0 x.1) ?_ (fun hx => ?_) <;> [subst x; clear_value x])
    | extract_lets +onlyGivenNames x
    | with_reducible apply State.addOp_keeps
    | with_reducible apply State.addAct_keeps
    | with_reducible apply State.issueAs_keeps
    | with_reducible apply State.syncMxe_keeps
    | with_reducible apply keepsOut_next
    | simp -zeta only [keeps_mk1, keeps_mk2]
    | (intro i; intros; try beta_reduce)

theorem State.tileChecks_keeps {s0 s : State} (h_ : Keeps s0 s) (o : Op) (t : Tile) (r : TileOut) :
    Keeps s0 (State.tileChecks s o t r) := by
  unfold State.tileChecks
  repeat' first
    | with_reducible assumption
    | (extract_lets +onlyGivenNames x; refine keeps_cut (p := Keeps s0 x) ?_ (fun hx => ?_) <;> [subst x; clear_value x])
    | (extract_lets +onlyGivenNames x; refine keeps_cut (p := Keeps s0 x.1) ?_ (fun hx => ?_) <;> [subst x; clear_value x])
    | (extract_lets +onlyGivenNames x; clear_value x)
    | with_reducible apply State.wr_keeps
    | with_reducible apply State.bump_keeps
    | with_reducible apply State.deviceError_keeps
    | with_reducible apply State.abort_keeps
    | with_reducible apply keeps_ite
    | split
    | (intro i; intros; try beta_reduce)

theorem State.trayPut_keeps {s0 s : State} (h_ : Keeps s0 s) (c : Nat) (bs : List Byte) (poison pair : Bool) :
    Keeps s0 (s.trayPut c bs poison pair) := by
  unfold State.trayPut
  extract_lets k sh t put t2
  have k1 : Keeps s0 t := keeps_shelf h_ (fun w => memory_wf_mwrite w)
  have k2 : Keeps s0 t2 := State.wr_keeps (State.wr_keeps (State.wr_keeps k1 ..) ..) ..
  exact State.wr_keeps (State.wr_keeps k2 ..) ..

theorem execTileClaim_keeps {s0 s : State} (h_ : Keeps s0 s) (core : Fin 128) (upsets : List (Nat × Nat)) :
    KeepsOut s0 (execTileClaim core upsets s) := by
  unfold execTileClaim
  repeat' first
    | with_reducible assumption
    | (extract_lets +onlyGivenNames x; refine keeps_cut (p := Keeps s0 x) ?_ (fun hx => ?_) <;> [subst x; clear_value x])
    | (extract_lets +onlyGivenNames x; refine keeps_cut (p := Keeps s0 x.1) ?_ (fun hx => ?_) <;> [subst x; clear_value x])
    | (extract_lets +onlyGivenNames x; clear_value x)
    | with_reducible apply State.bump_keeps
    | with_reducible apply State.countOutputs_keeps
    | with_reducible apply State.violation_keeps
    | with_reducible apply State.completeOp_keeps
    | with_reducible apply State.syncMxe_keeps
    | with_reducible apply State.tileChecks_keeps
    | with_reducible apply State.trayPut_keeps
    | with_reducible apply keepsOut_ite
    | with_reducible apply keeps_ite
    | with_reducible apply keepsOut_next
    | simp -zeta only [keeps_mk1, keeps_mk2]
    | with_reducible apply keeps_free
    | split
    | (intro i; intros; try beta_reduce)

theorem execChkTWrite_keeps {s0 s : State} (h_ : Keeps s0 s) (p : Fin 16) (v : Nat) :
    KeepsOut s0 (execChkTWrite p v s) := by
  unfold execChkTWrite
  repeat' first
    | with_reducible assumption
    | with_reducible apply State.wr_keeps
    | with_reducible apply keepsOut_next

end Sys2Proof.Machine
end

