-- ==== Sys2Proof/Laws/KeepsVector.lean ====
section
/-! SUPPORT. What the operations of Machine/Vector.lean never undo (Keeps of Safety.lean): one lemma per operation. -/

set_option linter.all false

namespace Sys2Proof.Machine

theorem State.syncVec_keeps {s0 s : State} (h_ : Keeps s0 s) (c : Nat) :
    Keeps s0 (State.syncVec s c) := by
  unfold State.syncVec
  repeat' first
    | with_reducible assumption
    | (extract_lets +onlyGivenNames x; refine keeps_cut (p := Keeps s0 x) ?_ (fun hx => ?_) <;> [subst x; clear_value x])
    | (extract_lets +onlyGivenNames x; refine keeps_cut (p := Keeps s0 x.1) ?_ (fun hx => ?_) <;> [subst x; clear_value x])
    | extract_lets +onlyGivenNames x
    | with_reducible apply State.wr_keeps
    | with_reducible apply keeps_ite
    | split
    | (intro i; intros; try beta_reduce)

theorem execElem_keeps {s0 s : State} (h_ : Keeps s0 s) (a : At) (errs : List ShelfErr) :
    KeepsOut s0 (execElem a errs s) := by
  unfold execElem
  repeat' first
    | with_reducible assumption
    | (extract_lets +onlyGivenNames x; refine keeps_cut (p := Keeps s0 x) ?_ (fun hx => ?_) <;> [subst x; clear_value x])
    | (extract_lets +onlyGivenNames x; refine keeps_cut (p := Keeps s0 x.1) ?_ (fun hx => ?_) <;> [subst x; clear_value x])
    | extract_lets +onlyGivenNames x
    | with_reducible apply State.bump_keeps
    | with_reducible apply State.addOp_keeps
    | with_reducible apply State.addAct_keeps
    | with_reducible apply State.issueAs_keeps
    | with_reducible apply State.syncVec_keeps
    | with_reducible apply keepsOut_ite
    | with_reducible apply keeps_ite
    | with_reducible apply keepsOut_next
    | simp -zeta only [keeps_mk1, keeps_mk2]
    | (intro i; intros; try beta_reduce)

theorem execWsMode_keeps {s0 s : State} (h_ : Keeps s0 s) (a : At) :
    KeepsOut s0 (execWsMode a s) := by
  unfold execWsMode
  repeat' first
    | with_reducible assumption
    | (extract_lets +onlyGivenNames x; refine keeps_cut (p := Keeps s0 x) ?_ (fun hx => ?_) <;> [subst x; clear_value x])
    | (extract_lets +onlyGivenNames x; refine keeps_cut (p := Keeps s0 x.1) ?_ (fun hx => ?_) <;> [subst x; clear_value x])
    | extract_lets +onlyGivenNames x
    | with_reducible apply State.wr_keeps
    | with_reducible apply State.issueAs_keeps
    | with_reducible apply keepsOut_next
    | simp -zeta only [keeps_mk1, keeps_mk2]
    | (intro i; intros; try beta_reduce)

theorem State.vecFault_keeps {s0 s : State} (h_ : Keeps s0 s) (o : Op) (kind : Nat) (lane : Nat) (insn : Nat) (group : Nat) (address : Nat) (n : Nat) :
    Keeps s0 (State.vecFault s o kind lane insn group address n) := by
  unfold State.vecFault
  repeat' first
    | with_reducible assumption
    | (extract_lets +onlyGivenNames x; refine keeps_cut (p := Keeps s0 x) ?_ (fun hx => ?_) <;> [subst x; clear_value x])
    | (extract_lets +onlyGivenNames x; refine keeps_cut (p := Keeps s0 x.1) ?_ (fun hx => ?_) <;> [subst x; clear_value x])
    | extract_lets +onlyGivenNames x
    | with_reducible apply State.wr_keeps
    | with_reducible apply State.bump_keeps
    | with_reducible apply State.deviceError_keeps
    | with_reducible apply State.abort_keeps
    | with_reducible apply keeps_ite

theorem State.syncWsPoison_keeps {s0 s : State} (h_ : Keeps s0 s) (c : Nat) :
    Keeps s0 (State.syncWsPoison s c) := by
  unfold State.syncWsPoison
  repeat' first
    | with_reducible assumption
    | with_reducible apply State.wr_keeps
    | (intro i; intros; try beta_reduce)

/-- A group's working store stays in canonical form. -/
def Grp.Wf (g : Grp) : Prop := Memory.wf g.ws = true ∧ twf (fun _ => false) g.wsPoison = true

theorem Grp.wf_access {g : Grp} (x out c k l : Nat) (h : g.Wf) : (g.access x out c k l).Wf := by
  unfold Grp.access
  extract_lets
  split
  · exact h
  · split
    · exact h
    · split
      · exact h
      · refine ⟨memory_wf_mwrite h.1, ?_⟩
        dsimp only
        split
        · exact twf_tset h.2
        · exact h.2

theorem Grp.wf_each {g : Grp} (f : Nat → Lane → Lane) (h : g.Wf) : (g.each f).Wf := h

theorem Grp.wf_xscan {g : Grp} (x out j k : Nat) (h : g.Wf) : (g.xscan x out j k).Wf := by
  unfold Grp.xscan
  extract_lets
  split
  · exact h
  · exact h

theorem Grp.wf_qscl {g : Grp} (x out : Nat) (h : g.Wf) : (g.qscl x out).Wf := h

theorem grp_ite {c : Prop} [Decidable c] {a b : Grp} (ha : a.Wf) (hb : b.Wf) : (if c then a else b).Wf := by
  split <;> assumption

theorem Grp.wf_insn {g : Grp} (c x out j k : Nat) (h : g.Wf) : (g.insn c x out j k).Wf := by
  unfold Grp.insn
  refine grp_ite h ?_
  extract_lets op o r v fl
  refine grp_ite (Grp.wf_qscl _ _ h) (grp_ite (Grp.wf_each _ h) (grp_ite (Grp.wf_xscan _ _ _ _ h) (grp_ite (Grp.wf_each _ h)
    (grp_ite ?_ (grp_ite ?_ ?_)))))
  · split
    · exact h
    · exact Grp.wf_each _ h
  · generalize List.range 128 = l
    clear_value o r v fl op
    clear o r v fl op
    induction l generalizing g with
    | nil => exact h
    | cons a l ih => exact ih (Grp.wf_access _ _ _ _ _ h)
  · exact h

theorem Elem.wf_run {ws : Mem} {wsPoison : Tbl Bool} (e : Elem) (c j : Nat) (h : Memory.wf ws = true)
    (h2 : twf (fun _ => false) wsPoison = true) : (e.run c j ws wsPoison).2.Wf := by
  unfold Elem.run
  extract_lets cfg src lanes g0 g
  have h0 : g0.Wf := ⟨h, h2⟩
  clear_value g0
  have : g.Wf := by
    subst g
    generalize List.range _ = l
    induction l generalizing g0 with
    | nil => exact h0
    | cons a l ih => exact ih (g0 := g0.insn ..) (Grp.wf_insn _ _ _ _ _ h0)
  exact this

theorem State.elemGroup_keeps {s0 s : State} (h_ : Keeps s0 s) (o : Op) (e : Elem) : Keeps s0 (s.elemGroup o e) := by
  unfold State.elemGroup
  extract_lets c j
  refine keeps_ite ?_ h_
  have wf := fun (w : s.mem.wf = true) => Elem.wf_run e c j (mems_wf_iff.1 w).2.2.2.1 (mems_wf_iff.1 w).2.2.2.2.2.2.2
  generalize e.run c j s.mem.ws s.mem.wsPoison = r at wf
  obtain ⟨e2, g⟩ := r
  dsimp only at wf ⊢
  have k : Keeps s0 { s with mem := { s.mem with ws := g.ws, wsPoison := g.wsPoison } } := by
    refine keeps_mem h_ (fun w => ?_)
    have q := wf w
    rw [mems_wf_iff] at *
    exact ⟨w.1, w.2.1, w.2.2.1, q.1, w.2.2.2.2.1, w.2.2.2.2.2.1, w.2.2.2.2.2.2.1, q.2⟩
  have k2 := State.bump_keeps (State.syncWsPoison_keeps (State.setOp_keeps k o.id (.elem e2)) c) F.CNT_P_COUNT (corePdk c) 4 g.flushes
  split
  · exact k2
  · exact State.vecFault_keeps k2 ..

theorem State.destRow_keeps {s0 s : State} (h_ : Keeps s0 s) (c : Nat) (f : RowField) (k : Nat) :
    KeepsE s0 (State.destRow s c f k) := by
  unfold State.destRow
  repeat' first
    | with_reducible assumption
    | with_reducible apply keepsE_ite
    | with_reducible apply keeps_ite
    | with_reducible apply keepsE_error
    | with_reducible apply keepsE_ok
    | split
    | refine State.claimSlot_keeps' (by with_reducible assumption) ?_
theorem State.destRow_keeps' {s0 s t' : State} {y} {c : Nat} {f : RowField} {k : Nat} (e_ : State.destRow s c f k = .ok (t', y)) (h_ : Keeps s0 s) : Keeps s0 t' := State.destRow_keeps h_ c f k t' _ e_

theorem State.elemWrite_keeps {s0 s : State} (h_ : Keeps s0 s) (o : Op) (field : Nat) (k : Nat) (bytes : List Byte) (poison : Bool) (e : Elem) (cats : List NumCat) :
    Keeps s0 (State.elemWrite s o field k bytes poison e cats) := by
  unfold State.elemWrite
  repeat' first
    | with_reducible assumption
    | (extract_lets +onlyGivenNames x; refine keeps_cut (p := Keeps s0 x) ?_ (fun hx => ?_) <;> [subst x; clear_value x])
    | (extract_lets +onlyGivenNames x; refine keeps_cut (p := Keeps s0 x.1) ?_ (fun hx => ?_) <;> [subst x; clear_value x])
    | extract_lets +onlyGivenNames x
    | with_reducible apply State.countOutputs_keeps
    | with_reducible apply State.violation_keeps
    | with_reducible apply State.setOp_keeps
    | with_reducible apply State.issueWrite_keeps
    | with_reducible apply keeps_ite
    | split
    | refine State.destRow_keeps' (by with_reducible assumption) ?_

theorem State.vecStrike_keeps {s0 s : State} (h_ : Keeps s0 s) (o : Op) (group : Nat) (f : Nat × Nat × Nat) :
    Keeps s0 (State.vecStrike s o group f) := by
  unfold State.vecStrike
  repeat' first
    | with_reducible assumption
    | with_reducible apply State.vecFault_keeps

theorem State.elemRow_keeps {s0 s : State} (h_ : Keeps s0 s) (o : Op) (e : Elem) :
    Keeps s0 (State.elemRow s o e) := by
  unfold State.elemRow
  repeat' first
    | with_reducible assumption
    | (extract_lets +onlyGivenNames x; refine keeps_cut (p := Keeps s0 x) ?_ (fun hx => ?_) <;> [subst x; clear_value x])
    | (extract_lets +onlyGivenNames x; refine keeps_cut (p := Keeps s0 x.1) ?_ (fun hx => ?_) <;> [subst x; clear_value x])
    | extract_lets +onlyGivenNames x
    | with_reducible apply State.countOutputs_keeps
    | with_reducible apply State.setOp_keeps
    | with_reducible apply State.elemWrite_keeps
    | with_reducible apply keeps_ite
    | simp -zeta only [keeps_mk1, keeps_mk2]
    | split
    | (intro i; intros; try beta_reduce)

theorem State.elemScl_keeps {s0 s : State} (h_ : Keeps s0 s) (o : Op) (e : Elem) :
    Keeps s0 (State.elemScl s o e) := by
  unfold State.elemScl
  repeat' first
    | with_reducible assumption
    | (extract_lets +onlyGivenNames x; refine keeps_cut (p := Keeps s0 x) ?_ (fun hx => ?_) <;> [subst x; clear_value x])
    | (extract_lets +onlyGivenNames x; refine keeps_cut (p := Keeps s0 x.1) ?_ (fun hx => ?_) <;> [subst x; clear_value x])
    | extract_lets +onlyGivenNames x
    | with_reducible apply State.elemWrite_keeps
    | simp -zeta only [keeps_mk1, keeps_mk2]
    | (intro i; intros; try beta_reduce)

theorem execElemRowWrite_keeps {s0 s : State} (h_ : Keeps s0 s) (core : Fin 128) (fault : Option (Nat × Nat × Nat)) :
    KeepsOut s0 (execElemRowWrite core fault s) := by
  unfold execElemRowWrite
  repeat' first
    | with_reducible assumption
    | (extract_lets +onlyGivenNames x; refine keeps_cut (p := Keeps s0 x) ?_ (fun hx => ?_) <;> [subst x; clear_value x])
    | (extract_lets +onlyGivenNames x; refine keeps_cut (p := Keeps s0 x.1) ?_ (fun hx => ?_) <;> [subst x; clear_value x])
    | extract_lets +onlyGivenNames x
    | with_reducible apply State.vecStrike_keeps
    | with_reducible apply State.elemRow_keeps
    | with_reducible apply State.elemScl_keeps
    | with_reducible apply keepsOut_ite
    | with_reducible apply keeps_ite
    | with_reducible apply keepsOut_next
    | split

theorem execElemOneRowWrite_keeps {s0 s : State} (h_ : Keeps s0 s) (core : Fin 128) (fault : Option (Nat × Nat × Nat)) :
    KeepsOut s0 (execElemOneRowWrite core fault s) := by
  unfold execElemOneRowWrite
  repeat' first
    | with_reducible assumption
    | (extract_lets +onlyGivenNames x; refine keeps_cut (p := Keeps s0 x) ?_ (fun hx => ?_) <;> [subst x; clear_value x])
    | (extract_lets +onlyGivenNames x; refine keeps_cut (p := Keeps s0 x.1) ?_ (fun hx => ?_) <;> [subst x; clear_value x])
    | extract_lets +onlyGivenNames x
    | with_reducible apply State.elemWrite_keeps
    | with_reducible apply State.vecStrike_keeps
    | with_reducible apply keepsOut_ite
    | with_reducible apply keeps_ite
    | with_reducible apply keepsOut_next
    | simp -zeta only [keeps_mk1, keeps_mk2]
    | split
    | (intro i; intros; try beta_reduce)

theorem State.setRotary_keeps {s0 s : State} (h_ : Keeps s0 s) (p : Nat) (t : Nat) (b : List Byte) :
    Keeps s0 (State.setRotary s p t b) := by
  unfold State.setRotary
  repeat' first
    | with_reducible assumption
    | with_reducible apply keeps_foldl
    | with_reducible apply keeps_foldl_fst
    | simp -zeta only [keeps_mk1, keeps_mk2]
    | (intro i; intros; try beta_reduce)

theorem execRotaryTableLoad_keeps {s0 s : State} (h_ : Keeps s0 s) (h : Hdr) (table : Nat) (src : Nat) (data : List Byte) :
    KeepsOut s0 (execRotaryTableLoad h table src data s) := by
  unfold execRotaryTableLoad
  repeat' first
    | with_reducible assumption
    | (extract_lets +onlyGivenNames x; refine keeps_cut (p := Keeps s0 x) ?_ (fun hx => ?_) <;> [subst x; clear_value x])
    | (extract_lets +onlyGivenNames x; refine keeps_cut (p := Keeps s0 x.1) ?_ (fun hx => ?_) <;> [subst x; clear_value x])
    | extract_lets +onlyGivenNames x
    | with_reducible apply State.complete_keeps
    | with_reducible apply State.countRead_keeps
    | with_reducible apply State.gate_keeps
    | with_reducible apply State.checked_keeps
    | with_reducible apply State.setRotary_keeps
    | with_reducible apply keepsOut_ite
    | with_reducible apply keeps_ite
    | with_reducible apply keepsOut_next
    | (intro i; intros; try beta_reduce)

end Sys2Proof.Machine
end

