-- ==== Sys2Proof/Laws/KeepsStore.lean ====
section
/-! SUPPORT. What the operations of Machine/Store.lean never undo (Keeps of Safety.lean): one lemma per operation. -/

set_option linter.all false

namespace Sys2Proof.Machine

theorem State.mowErr_keeps {s0 s : State} (h_ : Keeps s0 s) (g : Nat) (kind : Nat) (src : Nat) (syndrome : Nat) (dpa : Nat) :
    Keeps s0 (State.mowErr s g kind src syndrome dpa) := by
  unfold State.mowErr
  repeat' first
    | with_reducible assumption
    | (extract_lets +onlyGivenNames x; refine keeps_cut (p := Keeps s0 x) ?_ (fun hx => ?_) <;> [subst x; clear_value x])
    | (extract_lets +onlyGivenNames x; refine keeps_cut (p := Keeps s0 x.1) ?_ (fun hx => ?_) <;> [subst x; clear_value x])
    | extract_lets +onlyGivenNames x
    | with_reducible apply State.wr_keeps
    | with_reducible apply keeps_ite

theorem State.hbmErr_keeps {s0 s : State} (h_ : Keeps s0 s) (g : Nat) (kind : Nat) (src : Nat) (dpa : Nat) :
    Keeps s0 (State.hbmErr s g kind src dpa) := by
  unfold State.hbmErr
  repeat' first
    | with_reducible assumption
    | (extract_lets +onlyGivenNames x; refine keeps_cut (p := Keeps s0 x) ?_ (fun hx => ?_) <;> [subst x; clear_value x])
    | (extract_lets +onlyGivenNames x; refine keeps_cut (p := Keeps s0 x.1) ?_ (fun hx => ?_) <;> [subst x; clear_value x])
    | extract_lets +onlyGivenNames x
    | with_reducible apply State.wr_keeps
    | with_reducible apply keeps_ite

theorem State.farErr_keeps {s0 s : State} (h_ : Keeps s0 s) (p : Nat) (kind : Nat) (port : Nat) (src : Nat) (off : Nat) :
    Keeps s0 (State.farErr s p kind port src off) := by
  unfold State.farErr
  repeat' first
    | with_reducible assumption
    | (extract_lets +onlyGivenNames x; refine keeps_cut (p := Keeps s0 x) ?_ (fun hx => ?_) <;> [subst x; clear_value x])
    | (extract_lets +onlyGivenNames x; refine keeps_cut (p := Keeps s0 x.1) ?_ (fun hx => ?_) <;> [subst x; clear_value x])
    | extract_lets +onlyGivenNames x
    | with_reducible apply State.wr_keeps
    | with_reducible apply keeps_ite

theorem State.memUe_keeps {s0 s : State} (h_ : Keeps s0 s) (g : Nat) (kind : Nat) (dpa : Nat) :
    Keeps s0 (State.memUe s g kind dpa) := by
  unfold State.memUe
  repeat' first
    | with_reducible assumption
    | with_reducible apply State.eventBoth_keeps

theorem State.markLine_keeps {s0 s : State} (h_ : Keeps s0 s) (g : Nat) (l : Nat) :
    Keeps s0 (State.markLine s g l) := by
  unfold State.markLine
  repeat' first
    | with_reducible assumption
    | simp -zeta only [keeps_mk1, keeps_mk2]

theorem State.countCe_keeps {s0 s : State} (h_ : Keeps s0 s) (g : Nat) (l : Nat) :
    Keeps s0 (State.countCe s g l) := by
  unfold State.countCe
  repeat' first
    | with_reducible assumption
    | (extract_lets +onlyGivenNames x; refine keeps_cut (p := Keeps s0 x) ?_ (fun hx => ?_) <;> [subst x; clear_value x])
    | (extract_lets +onlyGivenNames x; refine keeps_cut (p := Keeps s0 x.1) ?_ (fun hx => ?_) <;> [subst x; clear_value x])
    | extract_lets +onlyGivenNames x
    | with_reducible apply State.markLine_keeps
    | with_reducible apply keeps_ite
    | simp -zeta only [keeps_mk1, keeps_mk2]
    | (intro i; intros; try beta_reduce)

theorem State.demand_keeps {s0 s : State} (h_ : Keeps s0 s) (g : Nat) (l : Nat) (confirm : Bool) :
    Keeps s0 (State.demand s g l confirm) := by
  unfold State.demand
  repeat' first
    | with_reducible assumption
    | (extract_lets +onlyGivenNames x; refine keeps_cut (p := Keeps s0 x) ?_ (fun hx => ?_) <;> [subst x; clear_value x])
    | (extract_lets +onlyGivenNames x; refine keeps_cut (p := Keeps s0 x.1) ?_ (fun hx => ?_) <;> [subst x; clear_value x])
    | extract_lets +onlyGivenNames x
    | with_reducible apply keeps_ite
    | simp -zeta only [keeps_mk1, keeps_mk2]

theorem State.useErr_keeps {s0 s : State} (h_ : Keeps s0 s) (src : Nat) (dpa : Nat) (e : SecErr) :
    Keeps s0 (State.useErr s src dpa e) := by
  unfold State.useErr
  repeat' first
    | with_reducible assumption
    | (extract_lets +onlyGivenNames x; refine keeps_cut (p := Keeps s0 x) ?_ (fun hx => ?_) <;> [subst x; clear_value x])
    | (extract_lets +onlyGivenNames x; refine keeps_cut (p := Keeps s0 x.1) ?_ (fun hx => ?_) <;> [subst x; clear_value x])
    | extract_lets +onlyGivenNames x
    | with_reducible apply State.bump_keeps
    | with_reducible apply State.deviceError_keeps
    | with_reducible apply State.mowErr_keeps
    | with_reducible apply State.memUe_keeps
    | with_reducible apply State.countCe_keeps
    | with_reducible apply State.demand_keeps
    | with_reducible apply keeps_ite

theorem State.usePoison_keeps {s0 s : State} (h_ : Keeps s0 s) (src : Nat) (dpa : Nat) :
    Keeps s0 (State.usePoison s src dpa) := by
  unfold State.usePoison
  repeat' first
    | with_reducible assumption
    | (extract_lets +onlyGivenNames x; refine keeps_cut (p := Keeps s0 x) ?_ (fun hx => ?_) <;> [subst x; clear_value x])
    | (extract_lets +onlyGivenNames x; refine keeps_cut (p := Keeps s0 x.1) ?_ (fun hx => ?_) <;> [subst x; clear_value x])
    | extract_lets +onlyGivenNames x
    | with_reducible apply State.bump_keeps
    | with_reducible apply State.deviceError_keeps
    | with_reducible apply State.mowErr_keeps
    | with_reducible apply State.memUe_keeps

theorem State.useFarPoison_keeps {s0 s : State} (h_ : Keeps s0 s) (p : Nat) (port : Nat) (src : Nat) (off : Nat) :
    Keeps s0 (State.useFarPoison s p port src off) := by
  unfold State.useFarPoison
  repeat' first
    | with_reducible assumption
    | (extract_lets +onlyGivenNames x; refine keeps_cut (p := Keeps s0 x) ?_ (fun hx => ?_) <;> [subst x; clear_value x])
    | (extract_lets +onlyGivenNames x; refine keeps_cut (p := Keeps s0 x.1) ?_ (fun hx => ?_) <;> [subst x; clear_value x])
    | extract_lets +onlyGivenNames x
    | with_reducible apply State.bump_keeps
    | with_reducible apply State.eventBoth_keeps
    | with_reducible apply State.deviceError_keeps
    | with_reducible apply State.farErr_keeps

theorem State.poisonSector_keeps {s0 s : State} (h_ : Keeps s0 s) (dpa : Nat) : Keeps s0 (s.poisonSector dpa) := keeps_hbmPoison h_ ..

theorem State.syncGroup_keeps {s0 s : State} (h_ : Keeps s0 s) (g : Nat) :
    Keeps s0 (State.syncGroup s g) := by
  unfold State.syncGroup
  repeat' first
    | with_reducible assumption
    | (extract_lets +onlyGivenNames x; refine keeps_cut (p := Keeps s0 x) ?_ (fun hx => ?_) <;> [subst x; clear_value x])
    | (extract_lets +onlyGivenNames x; refine keeps_cut (p := Keeps s0 x.1) ?_ (fun hx => ?_) <;> [subst x; clear_value x])
    | extract_lets +onlyGivenNames x
    | with_reducible apply State.wr_keeps
    | with_reducible apply keeps_foldl
    | with_reducible apply keeps_foldl_fst
    | with_reducible apply keeps_ite
    | (intro i; intros; try beta_reduce)

theorem State.dormantAccess_keeps {s0 s : State} (h_ : Keeps s0 s) (src : Nat) (dpa : Nat) (write : Bool) :
    Keeps s0 (State.dormantAccess s src dpa write) := by
  unfold State.dormantAccess
  repeat' first
    | with_reducible assumption
    | (extract_lets +onlyGivenNames x; refine keeps_cut (p := Keeps s0 x) ?_ (fun hx => ?_) <;> [subst x; clear_value x])
    | (extract_lets +onlyGivenNames x; refine keeps_cut (p := Keeps s0 x.1) ?_ (fun hx => ?_) <;> [subst x; clear_value x])
    | extract_lets +onlyGivenNames x
    | with_reducible apply State.bump_keeps
    | with_reducible apply State.deviceError_keeps
    | with_reducible apply State.hbmErr_keeps
    | with_reducible apply keeps_ite

theorem State.zeroHbm_keeps {s0 s : State} (h_ : Keeps s0 s) (dpa n : Nat) : Keeps s0 (s.zeroHbm dpa n) := by
  refine keeps_mem h_ (fun w => ?_)
  rw [mems_wf_iff] at *
  exact ⟨memory_wf_mzero w.1, w.2.1, w.2.2.1, w.2.2.2.1, twf_clearPoison w.2.2.2.2.1, w.2.2.2.2.2⟩

end Sys2Proof.Machine
end

