-- ==== Sys2Proof/Laws/KeepsHbm.lean ====
section
/-! SUPPORT. What the operations of Machine/Hbm.lean never undo (Keeps of Safety.lean): one lemma per operation. -/

set_option linter.all false

namespace Sys2Proof.Machine

theorem State.setLine_keeps {s0 s : State} (h_ : Keeps s0 s) (x : Line) :
    Keeps s0 (State.setLine s x) := by
  unfold State.setLine
  repeat' first
    | with_reducible assumption
    | with_reducible apply keeps_ite
    | simp -zeta only [keeps_mk1, keeps_mk2]
    | (intro i; intros; try beta_reduce)

theorem State.channelFailed_keeps {s0 s : State} (h_ : Keeps s0 s) (ch : Nat) :
    Keeps s0 (State.channelFailed s ch) := by
  unfold State.channelFailed
  repeat' first
    | with_reducible assumption
    | (extract_lets +onlyGivenNames x; refine keeps_cut (p := Keeps s0 x) ?_ (fun hx => ?_) <;> [subst x; clear_value x])
    | (extract_lets +onlyGivenNames x; refine keeps_cut (p := Keeps s0 x.1) ?_ (fun hx => ?_) <;> [subst x; clear_value x])
    | extract_lets +onlyGivenNames x
    | with_reducible apply State.wr_keeps
    | with_reducible apply State.event_keeps
    | with_reducible apply State.eventBoth_keeps
    | with_reducible apply State.deviceError_keeps
    | with_reducible apply keeps_ite

theorem State.countFailure_keeps {s0 s : State} (h_ : Keeps s0 s) (ch : Nat) :
    Keeps s0 (State.countFailure s ch) := by
  unfold State.countFailure
  repeat' first
    | with_reducible assumption
    | (extract_lets +onlyGivenNames x; refine keeps_cut (p := Keeps s0 x) ?_ (fun hx => ?_) <;> [subst x; clear_value x])
    | (extract_lets +onlyGivenNames x; refine keeps_cut (p := Keeps s0 x.1) ?_ (fun hx => ?_) <;> [subst x; clear_value x])
    | extract_lets +onlyGivenNames x
    | with_reducible apply State.channelFailed_keeps
    | with_reducible apply keeps_ite
    | simp -zeta only [keeps_mk1, keeps_mk2]
    | (intro i; intros; try beta_reduce)

theorem execHbmParityReplay_keeps {s0 s : State} (h_ : Keeps s0 s) (p : Fin 16) (idx : Nat) (writeData : Bool) :
    KeepsOut s0 (execHbmParityReplay p idx writeData s) := by
  unfold execHbmParityReplay
  repeat' first
    | with_reducible assumption
    | (extract_lets +onlyGivenNames x; refine keeps_cut (p := Keeps s0 x) ?_ (fun hx => ?_) <;> [subst x; clear_value x])
    | (extract_lets +onlyGivenNames x; refine keeps_cut (p := Keeps s0 x.1) ?_ (fun hx => ?_) <;> [subst x; clear_value x])
    | extract_lets +onlyGivenNames x
    | with_reducible apply State.bump_keeps
    | with_reducible apply State.eventBoth_keeps
    | with_reducible apply State.deviceError_keeps
    | with_reducible apply State.abort_keeps
    | with_reducible apply State.hbmErr_keeps
    | with_reducible apply State.setLine_keeps
    | with_reducible apply State.countFailure_keeps
    | with_reducible apply keepsOut_ite
    | with_reducible apply keeps_ite
    | with_reducible apply keepsOut_next
    | simp -zeta only [keeps_mk1, keeps_mk2]
    | split

theorem execCalibrationWindow_keeps {s0 s : State} (h_ : Keeps s0 s) (ch : Fin 256) :
    KeepsOut s0 (execCalibrationWindow ch s) := by
  unfold execCalibrationWindow
  repeat' first
    | with_reducible assumption
    | with_reducible apply State.wr_keeps
    | with_reducible apply keepsOut_ite
    | with_reducible apply keeps_ite
    | with_reducible apply keepsOut_next

theorem execHbmRefresh_keeps {s0 s : State} (h_ : Keeps s0 s) (_ch : Fin 256) :
    KeepsOut s0 (execHbmRefresh _ch s) := by
  unfold execHbmRefresh
  repeat' first
    | with_reducible assumption
    | with_reducible apply keepsOut_next

theorem execHbmTemperatureRead_keeps {s0 s : State} (h_ : Keeps s0 s) (temps : List Nat) :
    KeepsOut s0 (execHbmTemperatureRead temps s) := by
  unfold execHbmTemperatureRead
  repeat' first
    | with_reducible assumption
    | (extract_lets +onlyGivenNames x; refine keeps_cut (p := Keeps s0 x) ?_ (fun hx => ?_) <;> [subst x; clear_value x])
    | (extract_lets +onlyGivenNames x; refine keeps_cut (p := Keeps s0 x.1) ?_ (fun hx => ?_) <;> [subst x; clear_value x])
    | extract_lets +onlyGivenNames x
    | with_reducible apply State.wr_keeps
    | with_reducible apply loopN_keeps
    | with_reducible apply keepsOut_next
    | (intro i; intros; try beta_reduce)

theorem execCalPeriodMsWrite_keeps {s0 s : State} (h_ : Keeps s0 s) (v : Nat) :
    KeepsOut s0 (execCalPeriodMsWrite v s) := by
  unfold execCalPeriodMsWrite
  repeat' first
    | with_reducible assumption
    | (extract_lets +onlyGivenNames x; refine keeps_cut (p := Keeps s0 x) ?_ (fun hx => ?_) <;> [subst x; clear_value x])
    | (extract_lets +onlyGivenNames x; refine keeps_cut (p := Keeps s0 x.1) ?_ (fun hx => ?_) <;> [subst x; clear_value x])
    | extract_lets +onlyGivenNames x
    | with_reducible apply State.wr_keeps
    | with_reducible apply keepsOut_next
    | simp -zeta only [keeps_mk1, keeps_mk2]

theorem execHbmErr0ValidClear_keeps {s0 s : State} (h_ : Keeps s0 s) (p : Fin 16) :
    KeepsOut s0 (execHbmErr0ValidClear p s) := by
  unfold execHbmErr0ValidClear
  repeat' first
    | with_reducible assumption
    | with_reducible apply State.wr_keeps
    | with_reducible apply keepsOut_next

theorem State.setChannels_keeps {s0 s : State} (h_ : Keeps s0 s) (g : Nat) (cs : List Nat) (st : Nat) :
    Keeps s0 (State.setChannels s g cs st) := by
  unfold State.setChannels
  repeat' first
    | with_reducible assumption
    | with_reducible apply State.wr_keeps
    | with_reducible apply State.syncGroup_keeps
    | with_reducible apply keeps_foldl
    | with_reducible apply keeps_foldl_fst
    | (intro i; intros; try beta_reduce)

theorem execHbmPower_keeps {s0 s : State} (h_ : Keeps s0 s) (h : Hdr) (group : Nat) (state : Nat) (mask : Nat) :
    KeepsOut s0 (execHbmPower h group state mask s) := by
  unfold execHbmPower
  repeat' first
    | with_reducible assumption
    | (extract_lets +onlyGivenNames x; refine keeps_cut (p := Keeps s0 x) ?_ (fun hx => ?_) <;> [subst x; clear_value x])
    | (extract_lets +onlyGivenNames x; refine keeps_cut (p := Keeps s0 x.1) ?_ (fun hx => ?_) <;> [subst x; clear_value x])
    | extract_lets +onlyGivenNames x
    | with_reducible apply State.complete_keeps
    | with_reducible apply State.start_keeps
    | with_reducible apply State.checked_keeps
    | with_reducible apply State.setChannels_keeps
    | with_reducible apply keeps_foldl
    | with_reducible apply keeps_foldl_fst
    | with_reducible apply keepsOut_ite
    | with_reducible apply keeps_ite
    | with_reducible apply keepsOut_next
    | (intro i; intros; try beta_reduce)

theorem State.powerDone_keeps {s0 s : State} (h_ : Keeps s0 s) (h : Hdr) (status : Nat) :
    Keeps s0 (State.powerDone s h status) := by
  unfold State.powerDone
  repeat' first
    | with_reducible assumption
    | (extract_lets +onlyGivenNames x; refine keeps_cut (p := Keeps s0 x) ?_ (fun hx => ?_) <;> [subst x; clear_value x])
    | (extract_lets +onlyGivenNames x; refine keeps_cut (p := Keeps s0 x.1) ?_ (fun hx => ?_) <;> [subst x; clear_value x])
    | extract_lets +onlyGivenNames x
    | with_reducible apply State.complete_keeps

theorem execHbmPowerDownDrained_keeps {s0 s : State} (h_ : Keeps s0 s) (h : Hdr) :
    KeepsOut s0 (execHbmPowerDownDrained h s) := by
  unfold execHbmPowerDownDrained
  repeat' first
    | with_reducible assumption
    | with_reducible apply State.setChannels_keeps
    | with_reducible apply State.powerDone_keeps
    | with_reducible apply keepsOut_ite
    | with_reducible apply keeps_ite
    | with_reducible apply keepsOut_next
    | split

theorem execHbmPowerDownTimeout_keeps {s0 s : State} (h_ : Keeps s0 s) (h : Hdr) :
    KeepsOut s0 (execHbmPowerDownTimeout h s) := by
  unfold execHbmPowerDownTimeout
  repeat' first
    | with_reducible assumption
    | with_reducible apply State.complete_keeps
    | with_reducible apply State.setChannels_keeps
    | with_reducible apply keepsOut_ite
    | with_reducible apply keeps_ite
    | with_reducible apply keepsOut_next
    | split

theorem execHbmPowerUpDone_keeps {s0 s : State} (h_ : Keeps s0 s) (h : Hdr) :
    KeepsOut s0 (execHbmPowerUpDone h s) := by
  unfold execHbmPowerUpDone
  repeat' first
    | with_reducible assumption
    | (extract_lets +onlyGivenNames x; refine keeps_cut (p := Keeps s0 x) ?_ (fun hx => ?_) <;> [subst x; clear_value x])
    | (extract_lets +onlyGivenNames x; refine keeps_cut (p := Keeps s0 x.1) ?_ (fun hx => ?_) <;> [subst x; clear_value x])
    | extract_lets +onlyGivenNames x
    | with_reducible apply State.wr_keeps
    | with_reducible apply State.zeroHbm_keeps
    | with_reducible apply State.setChannels_keeps
    | with_reducible apply State.powerDone_keeps
    | with_reducible apply keeps_foldl
    | with_reducible apply keeps_foldl_fst
    | with_reducible apply keepsOut_next
    | split
    | (intro i; intros; try beta_reduce)

theorem execHbmMargin_keeps {s0 s : State} (h_ : Keeps s0 s) (h : Hdr) (ch : Nat) (kind : Nat) (pattern : Nat) (lo : Nat) (hi : Nat) (dwell : Nat) (out : Nat) :
    KeepsOut s0 (execHbmMargin h ch kind pattern lo hi dwell out s) := by
  unfold execHbmMargin
  repeat' first
    | with_reducible assumption
    | (extract_lets +onlyGivenNames x; refine keeps_cut (p := Keeps s0 x) ?_ (fun hx => ?_) <;> [subst x; clear_value x])
    | (extract_lets +onlyGivenNames x; refine keeps_cut (p := Keeps s0 x.1) ?_ (fun hx => ?_) <;> [subst x; clear_value x])
    | extract_lets +onlyGivenNames x
    | with_reducible apply State.gate_keeps
    | with_reducible apply State.checked_keeps
    | with_reducible apply keepsOut_next
    | (intro i; intros; try beta_reduce)

theorem execHbmMarginComplete_keeps {s0 s : State} (h_ : Keeps s0 s) (h : Hdr) (points : List (Nat × Bool)) :
    KeepsOut s0 (execHbmMarginComplete h points s) := by
  unfold execHbmMarginComplete
  repeat' first
    | with_reducible assumption
    | (extract_lets +onlyGivenNames x; refine keeps_cut (p := Keeps s0 x) ?_ (fun hx => ?_) <;> [subst x; clear_value x])
    | (extract_lets +onlyGivenNames x; refine keeps_cut (p := Keeps s0 x.1) ?_ (fun hx => ?_) <;> [subst x; clear_value x])
    | extract_lets +onlyGivenNames x
    | with_reducible apply State.complete_keeps
    | with_reducible apply State.ptrWrite_keeps
    | with_reducible apply keepsOut_next
    | split
    | (intro i; intros; try beta_reduce)

end Sys2Proof.Machine
end

