-- ==== Sys2Proof/Laws/KeepsMower.lean ====
section
/-! SUPPORT. What the operations of Machine/Mower.lean never undo (Keeps of Safety.lean): one lemma per operation. -/

set_option linter.all false

namespace Sys2Proof.Machine

theorem State.mowActivity_keeps {s0 s : State} (h_ : Keeps s0 s) (g : Nat) (a : Nat) :
    Keeps s0 (State.mowActivity s g a) := by
  unfold State.mowActivity
  repeat' first
    | with_reducible assumption
    | with_reducible apply State.wr_keeps

theorem State.mowLine_keeps {s0 s : State} (h_ : Keeps s0 s) (g : Nat) (weight : Nat) (tag : List Nat) (go : State → State) (hgo : ∀ t, Keeps s0 t → Keeps s0 (go t)) :
    Keeps s0 (State.mowLine s g weight tag go) := by
  unfold State.mowLine
  repeat' first
    | with_reducible assumption
    | with_reducible apply State.untimed_keeps
    | with_reducible apply State.reserve_keeps
    | with_reducible apply keeps_ite
    | (intro i; intros; try beta_reduce)
    | apply_assumption

theorem State.mowErrors_keeps {s0 s : State} (h_ : Keeps s0 s) (line : Nat) (errs : List SecErr) (still : Nat → Bool) :
    Keeps s0 (State.mowErrors s line errs still) := by
  unfold State.mowErrors
  repeat' first
    | with_reducible assumption
    | (extract_lets +onlyGivenNames x; refine keeps_cut (p := Keeps s0 x) ?_ (fun hx => ?_) <;> [subst x; clear_value x])
    | (extract_lets +onlyGivenNames x; refine keeps_cut (p := Keeps s0 x.1) ?_ (fun hx => ?_) <;> [subst x; clear_value x])
    | extract_lets +onlyGivenNames x
    | with_reducible apply State.bump_keeps
    | with_reducible apply State.deviceError_keeps
    | with_reducible apply State.mowErr_keeps
    | with_reducible apply State.memUe_keeps
    | with_reducible apply State.markLine_keeps
    | with_reducible apply State.countCe_keeps
    | with_reducible apply State.poisonSector_keeps
    | with_reducible apply keeps_foldl
    | with_reducible apply keeps_foldl_fst
    | with_reducible apply keeps_ite
    | (intro i; intros; try beta_reduce)

theorem execMowerDemandVisit_keeps {s0 s : State} (h_ : Keeps s0 s) (g : Fin 16) (errs : List SecErr) (second : List Nat) :
    KeepsOut s0 (execMowerDemandVisit g errs second s) := by
  unfold execMowerDemandVisit
  repeat' first
    | with_reducible assumption
    | (extract_lets +onlyGivenNames x; refine keeps_cut (p := Keeps s0 x) ?_ (fun hx => ?_) <;> [subst x; clear_value x])
    | (extract_lets +onlyGivenNames x; refine keeps_cut (p := Keeps s0 x.1) ?_ (fun hx => ?_) <;> [subst x; clear_value x])
    | extract_lets +onlyGivenNames x
    | with_reducible apply State.demand_keeps
    | with_reducible apply State.mowActivity_keeps
    | with_reducible apply State.mowLine_keeps
    | with_reducible apply State.mowErrors_keeps
    | with_reducible apply keepsOut_ite
    | with_reducible apply keeps_ite
    | with_reducible apply keepsOut_next
    | simp -zeta only [keeps_mk1, keeps_mk2]
    | split
    | (intro i; intros; try beta_reduce)

theorem State.passDone_keeps {s0 s : State} (h_ : Keeps s0 s) (g : Nat) :
    Keeps s0 (State.passDone s g) := by
  unfold State.passDone
  repeat' first
    | with_reducible assumption
    | (extract_lets +onlyGivenNames x; refine keeps_cut (p := Keeps s0 x) ?_ (fun hx => ?_) <;> [subst x; clear_value x])
    | (extract_lets +onlyGivenNames x; refine keeps_cut (p := Keeps s0 x.1) ?_ (fun hx => ?_) <;> [subst x; clear_value x])
    | extract_lets +onlyGivenNames x
    | with_reducible apply State.wr_keeps
    | with_reducible apply State.satAdd_keeps
    | simp -zeta only [keeps_mk1, keeps_mk2]

theorem execScrubLine_keeps {s0 s : State} (h_ : Keeps s0 s) (g : Fin 16) (errs : List (Fin 16 × SecErr)) (second : List (Nat × Nat)) :
    KeepsOut s0 (execScrubLine g errs second s) := by
  unfold execScrubLine
  repeat' first
    | with_reducible assumption
    | (extract_lets +onlyGivenNames x; refine keeps_cut (p := Keeps s0 x) ?_ (fun hx => ?_) <;> [subst x; clear_value x])
    | (extract_lets +onlyGivenNames x; refine keeps_cut (p := Keeps s0 x.1) ?_ (fun hx => ?_) <;> [subst x; clear_value x])
    | extract_lets +onlyGivenNames x
    | with_reducible apply State.wr_keeps
    | with_reducible apply State.bump_keeps
    | with_reducible apply loopN_keeps
    | with_reducible apply State.mowActivity_keeps
    | with_reducible apply State.mowLine_keeps
    | with_reducible apply State.mowErrors_keeps
    | with_reducible apply State.passDone_keeps
    | with_reducible apply keepsOut_ite
    | with_reducible apply keeps_ite
    | with_reducible apply keepsOut_next
    | (intro i; intros; try beta_reduce)

theorem State.addRepair_keeps {s0 s : State} (h_ : Keeps s0 s) (g : Nat) (l : Nat) :
    Keeps s0 (State.addRepair s g l) := by
  unfold State.addRepair
  repeat' first
    | with_reducible assumption
    | (extract_lets +onlyGivenNames x; refine keeps_cut (p := Keeps s0 x) ?_ (fun hx => ?_) <;> [subst x; clear_value x])
    | (extract_lets +onlyGivenNames x; refine keeps_cut (p := Keeps s0 x.1) ?_ (fun hx => ?_) <;> [subst x; clear_value x])
    | extract_lets +onlyGivenNames x
    | with_reducible apply State.satAdd_keeps
    | with_reducible apply keeps_ite
    | simp -zeta only [keeps_mk1, keeps_mk2]

theorem execLinePatch_keeps {s0 s : State} (h_ : Keeps s0 s) (g : Fin 16) (bad : List Nat) :
    KeepsOut s0 (execLinePatch g bad s) := by
  unfold execLinePatch
  repeat' first
    | with_reducible assumption
    | (extract_lets +onlyGivenNames x; refine keeps_cut (p := Keeps s0 x) ?_ (fun hx => ?_) <;> [subst x; clear_value x])
    | (extract_lets +onlyGivenNames x; refine keeps_cut (p := Keeps s0 x.1) ?_ (fun hx => ?_) <;> [subst x; clear_value x])
    | (extract_lets +onlyGivenNames x; clear_value x)
    | with_reducible apply State.wr_keeps
    | with_reducible apply State.bump_keeps
    | with_reducible apply State.event_keeps
    | with_reducible apply State.mowErr_keeps
    | with_reducible apply State.poisonSector_keeps
    | with_reducible apply State.channelFailed_keeps
    | with_reducible apply State.mowActivity_keeps
    | with_reducible apply State.mowLine_keeps
    | with_reducible apply State.addRepair_keeps
    | with_reducible apply keeps_foldl
    | with_reducible apply keeps_foldl_fst
    | with_reducible apply keepsOut_ite
    | with_reducible apply keeps_ite
    | with_reducible apply keepsOut_next
    | simp -zeta only [keeps_mk1, keeps_mk2]
    | split
    | (intro i; intros; try beta_reduce)

theorem State.newKey_keeps {s0 s : State} (h_ : Keeps s0 s) (g : Nat) (slot : Nat) :
    Keeps s0 (State.newKey s g slot) := by
  unfold State.newKey
  repeat' first
    | with_reducible assumption
    | (extract_lets +onlyGivenNames x; refine keeps_cut (p := Keeps s0 x) ?_ (fun hx => ?_) <;> [subst x; clear_value x])
    | (extract_lets +onlyGivenNames x; refine keeps_cut (p := Keeps s0 x.1) ?_ (fun hx => ?_) <;> [subst x; clear_value x])
    | extract_lets +onlyGivenNames x
    | with_reducible apply State.wr_keeps
    | simp -zeta only [keeps_mk1, keeps_mk2]

theorem execKeyRotate_keeps {s0 s : State} (h_ : Keeps s0 s) (h : Hdr) :
    KeepsOut s0 (execKeyRotate h s) := by
  unfold execKeyRotate
  repeat' first
    | with_reducible assumption
    | (extract_lets +onlyGivenNames x; refine keeps_cut (p := Keeps s0 x) ?_ (fun hx => ?_) <;> [subst x; clear_value x])
    | (extract_lets +onlyGivenNames x; refine keeps_cut (p := Keeps s0 x.1) ?_ (fun hx => ?_) <;> [subst x; clear_value x])
    | extract_lets +onlyGivenNames x
    | with_reducible apply State.wr_keeps
    | with_reducible apply State.start_keeps
    | with_reducible apply State.checked_keeps
    | with_reducible apply State.mowActivity_keeps
    | with_reducible apply State.newKey_keeps
    | with_reducible apply keepsOut_next
    | simp -zeta only [keeps_mk1, keeps_mk2]
    | (intro i; intros; try beta_reduce)

theorem execRekeyLine_keeps {s0 s : State} (h_ : Keeps s0 s) (g : Fin 16) (errs : List SecErr) (second : List Nat) :
    KeepsOut s0 (execRekeyLine g errs second s) := by
  unfold execRekeyLine
  repeat' first
    | with_reducible assumption
    | (extract_lets +onlyGivenNames x; refine keeps_cut (p := Keeps s0 x) ?_ (fun hx => ?_) <;> [subst x; clear_value x])
    | (extract_lets +onlyGivenNames x; refine keeps_cut (p := Keeps s0 x.1) ?_ (fun hx => ?_) <;> [subst x; clear_value x])
    | extract_lets +onlyGivenNames x
    | with_reducible apply State.wr_keeps
    | with_reducible apply State.bump_keeps
    | with_reducible apply State.mowActivity_keeps
    | with_reducible apply State.mowLine_keeps
    | with_reducible apply State.mowErrors_keeps
    | with_reducible apply keepsOut_ite
    | with_reducible apply keeps_ite
    | with_reducible apply keepsOut_next
    | (intro i; intros; try beta_reduce)

theorem execRekeyComplete_keeps {s0 s : State} (h_ : Keeps s0 s) (g : Fin 16) :
    KeepsOut s0 (execRekeyComplete g s) := by
  unfold execRekeyComplete
  repeat' first
    | with_reducible assumption
    | (extract_lets +onlyGivenNames x; refine keeps_cut (p := Keeps s0 x) ?_ (fun hx => ?_) <;> [subst x; clear_value x])
    | (extract_lets +onlyGivenNames x; refine keeps_cut (p := Keeps s0 x.1) ?_ (fun hx => ?_) <;> [subst x; clear_value x])
    | extract_lets +onlyGivenNames x
    | with_reducible apply State.wr_keeps
    | with_reducible apply State.bump_keeps
    | with_reducible apply State.complete_keeps
    | with_reducible apply State.mowActivity_keeps
    | with_reducible apply State.passDone_keeps
    | with_reducible apply keepsOut_ite
    | with_reducible apply keeps_ite
    | with_reducible apply keepsOut_next
    | split
    | (intro i; intros; try beta_reduce)

theorem execMemRawWrite_keeps {s0 s : State} (h_ : Keeps s0 s) (h : Hdr) (ch : Nat) (tline : Nat) (sector : Nat) (check : Nat) (data : List Byte) :
    KeepsOut s0 (execMemRawWrite h ch tline sector check data s) := by
  unfold execMemRawWrite
  repeat' first
    | with_reducible assumption
    | (extract_lets +onlyGivenNames x; refine keeps_cut (p := Keeps s0 x) ?_ (fun hx => ?_) <;> [subst x; clear_value x])
    | (extract_lets +onlyGivenNames x; refine keeps_cut (p := Keeps s0 x.1) ?_ (fun hx => ?_) <;> [subst x; clear_value x])
    | extract_lets +onlyGivenNames x
    | with_reducible apply State.complete_keeps
    | with_reducible apply State.start_keeps
    | with_reducible apply State.checked_keeps
    | with_reducible apply keepsOut_next
    | simp -zeta only [keeps_mk1, keeps_mk2]
    | (intro i; intros; try beta_reduce)

theorem execMemRawRead_keeps {s0 s : State} (h_ : Keeps s0 s) (h : Hdr) (ch : Nat) (tline : Nat) (sector : Nat) (out : Nat) :
    KeepsOut s0 (execMemRawRead h ch tline sector out s) := by
  unfold execMemRawRead
  repeat' first
    | with_reducible assumption
    | (extract_lets +onlyGivenNames x; refine keeps_cut (p := Keeps s0 x) ?_ (fun hx => ?_) <;> [subst x; clear_value x])
    | (extract_lets +onlyGivenNames x; refine keeps_cut (p := Keeps s0 x.1) ?_ (fun hx => ?_) <;> [subst x; clear_value x])
    | extract_lets +onlyGivenNames x
    | with_reducible apply State.tick_keeps
    | with_reducible apply State.complete_keeps
    | with_reducible apply State.ptrWrite_keeps
    | with_reducible apply State.gate_keeps
    | with_reducible apply State.checked_keeps
    | with_reducible apply keepsOut_next
    | (intro i; intros; try beta_reduce)

theorem execMowErr0ValidClear_keeps {s0 s : State} (h_ : Keeps s0 s) (p : Fin 16) :
    KeepsOut s0 (execMowErr0ValidClear p s) := by
  unfold execMowErr0ValidClear
  repeat' first
    | with_reducible assumption
    | with_reducible apply State.wr_keeps
    | with_reducible apply keepsOut_next

theorem execMowCfgWrite_keeps {s0 s : State} (h_ : Keeps s0 s) (g : Fin 16) (v : Nat) :
    KeepsOut s0 (execMowCfgWrite g v s) := by
  unfold execMowCfgWrite
  repeat' first
    | with_reducible assumption
    | with_reducible apply State.wr_keeps
    | with_reducible apply keepsOut_next

end Sys2Proof.Machine
end

