-- ==== Sys2Proof/Laws/KeepsFar.lean ====
section
/-! SUPPORT. What the operations of Machine/Far.lean never undo (Keeps of Safety.lean): one lemma per operation. -/

set_option linter.all false

namespace Sys2Proof.Machine

theorem State.farSend_keeps {s0 s : State} (h_ : Keeps s0 s) (port : Nat) (l : Line) :
    Keeps s0 (State.farSend s port l) := by
  unfold State.farSend
  repeat' first
    | with_reducible assumption
    | (extract_lets +onlyGivenNames x; refine keeps_cut (p := Keeps s0 x) ?_ (fun hx => ?_) <;> [subst x; clear_value x])
    | (extract_lets +onlyGivenNames x; refine keeps_cut (p := Keeps s0 x.1) ?_ (fun hx => ?_) <;> [subst x; clear_value x])
    | extract_lets +onlyGivenNames x
    | with_reducible apply State.emit_keeps
    | with_reducible apply State.setLine_keeps
    | simp -zeta only [keeps_mk1, keeps_mk2]
    | (intro i; intros; try beta_reduce)

theorem execFarRequestIssue_keeps {s0 s : State} (h_ : Keeps s0 s) (port : Fin 2) (slot : Fin 64) (write : Bool) :
    KeepsOut s0 (execFarRequestIssue port slot write s) := by
  unfold execFarRequestIssue
  repeat' first
    | with_reducible assumption
    | (extract_lets +onlyGivenNames x; refine keeps_cut (p := Keeps s0 x) ?_ (fun hx => ?_) <;> [subst x; clear_value x])
    | (extract_lets +onlyGivenNames x; refine keeps_cut (p := Keeps s0 x.1) ?_ (fun hx => ?_) <;> [subst x; clear_value x])
    | extract_lets +onlyGivenNames x
    | with_reducible apply State.farSend_keeps
    | with_reducible apply keepsOut_ite
    | with_reducible apply keeps_ite
    | with_reducible apply keepsOut_next
    | simp -zeta only [keeps_mk1, keeps_mk2]
    | split
    | (intro i; intros; try beta_reduce)

theorem execCxlLinkReplay_keeps {s0 s : State} (h_ : Keeps s0 s) (port : Fin 2) :
    KeepsOut s0 (execCxlLinkReplay port s) := by
  unfold execCxlLinkReplay
  repeat' first
    | with_reducible assumption
    | with_reducible apply State.bump_keeps
    | with_reducible apply State.deviceError_keeps
    | with_reducible apply keepsOut_next

theorem State.farDown_keeps {s0 s : State} (h_ : Keeps s0 s) (l : Line) :
    Keeps s0 (State.farDown s l) := by
  unfold State.farDown
  repeat' first
    | with_reducible assumption
    | (extract_lets +onlyGivenNames x; refine keeps_cut (p := Keeps s0 x) ?_ (fun hx => ?_) <;> [subst x; clear_value x])
    | (extract_lets +onlyGivenNames x; refine keeps_cut (p := Keeps s0 x.1) ?_ (fun hx => ?_) <;> [subst x; clear_value x])
    | extract_lets +onlyGivenNames x
    | with_reducible apply State.bump_keeps
    | with_reducible apply State.abort_keeps
    | with_reducible apply State.farErr_keeps
    | with_reducible apply State.setLine_keeps
    | with_reducible apply keeps_ite
    | simp -zeta only [keeps_mk1, keeps_mk2]
    | split

theorem State.farLoss_keeps {s0 s : State} (h_ : Keeps s0 s) (port : Nat) :
    Keeps s0 (State.farLoss s port) := by
  unfold State.farLoss
  repeat' first
    | with_reducible assumption
    | (extract_lets +onlyGivenNames x; refine keeps_cut (p := Keeps s0 x) ?_ (fun hx => ?_) <;> [subst x; clear_value x])
    | (extract_lets +onlyGivenNames x; refine keeps_cut (p := Keeps s0 x.1) ?_ (fun hx => ?_) <;> [subst x; clear_value x])
    | extract_lets +onlyGivenNames x
    | with_reducible apply State.wr_keeps
    | with_reducible apply State.bump_keeps
    | with_reducible apply loopN_keeps
    | with_reducible apply State.event_keeps
    | with_reducible apply State.farDown_keeps
    | with_reducible apply keeps_foldl
    | with_reducible apply keeps_foldl_fst
    | with_reducible apply keeps_ite
    | simp -zeta only [keeps_mk1, keeps_mk2]
    | (intro i; intros; try beta_reduce)

theorem execFarLinkLoss_keeps {s0 s : State} (h_ : Keeps s0 s) (port : Fin 2) :
    KeepsOut s0 (execFarLinkLoss port s) := by
  unfold execFarLinkLoss
  repeat' first
    | with_reducible assumption
    | with_reducible apply State.farLoss_keeps
    | with_reducible apply keepsOut_next

theorem execFarLinkReturn_keeps {s0 s : State} (h_ : Keeps s0 s) (port : Fin 2) :
    KeepsOut s0 (execFarLinkReturn port s) := by
  unfold execFarLinkReturn
  repeat' first
    | with_reducible assumption
    | with_reducible apply State.wr_keeps
    | with_reducible apply State.setLock_keeps
    | with_reducible apply keepsOut_ite
    | with_reducible apply keeps_ite
    | with_reducible apply keepsOut_next

theorem execFarRetrainExhausted_keeps {s0 s : State} (h_ : Keeps s0 s) (port : Fin 2) :
    KeepsOut s0 (execFarRetrainExhausted port s) := by
  unfold execFarRetrainExhausted
  repeat' first
    | with_reducible assumption
    | (extract_lets +onlyGivenNames x; refine keeps_cut (p := Keeps s0 x) ?_ (fun hx => ?_) <;> [subst x; clear_value x])
    | (extract_lets +onlyGivenNames x; refine keeps_cut (p := Keeps s0 x.1) ?_ (fun hx => ?_) <;> [subst x; clear_value x])
    | extract_lets +onlyGivenNames x
    | with_reducible apply State.wr_keeps
    | with_reducible apply keepsOut_ite
    | with_reducible apply keeps_ite
    | with_reducible apply keepsOut_next

theorem execExpanderMediaEvent_keeps {s0 s : State} (h_ : Keeps s0 s) (port : Fin 2) :
    KeepsOut s0 (execExpanderMediaEvent port s) := by
  unfold execExpanderMediaEvent
  repeat' first
    | with_reducible assumption
    | with_reducible apply State.bump_keeps
    | with_reducible apply keepsOut_next

theorem execFarErr0ValidClear_keeps {s0 s : State} (h_ : Keeps s0 s) (p : Fin 16) :
    KeepsOut s0 (execFarErr0ValidClear p s) := by
  unfold execFarErr0ValidClear
  repeat' first
    | with_reducible assumption
    | with_reducible apply State.wr_keeps
    | with_reducible apply keepsOut_next

theorem execFarSlotWrite_keeps {s0 s : State} (h_ : Keeps s0 s) (port : Fin 2) (k : Fin 9) (v : Nat) :
    KeepsOut s0 (execFarSlotWrite port k v s) := by
  unfold execFarSlotWrite
  repeat' first
    | with_reducible assumption
    | (extract_lets +onlyGivenNames x; refine keeps_cut (p := Keeps s0 x) ?_ (fun hx => ?_) <;> [subst x; clear_value x])
    | (extract_lets +onlyGivenNames x; refine keeps_cut (p := Keeps s0 x.1) ?_ (fun hx => ?_) <;> [subst x; clear_value x])
    | extract_lets +onlyGivenNames x
    | with_reducible apply State.wr_keeps
    | with_reducible apply loopN_keeps
    | with_reducible apply keepsOut_ite
    | with_reducible apply keeps_ite
    | with_reducible apply keepsOut_next
    | simp -zeta only [keeps_mk1, keeps_mk2]
    | (intro i; intros; try beta_reduce)

end Sys2Proof.Machine
end

