-- ==== Sys2Proof/Laws/KeepsLines.lean ====
section
/-! SUPPORT. What the operations of Machine/Lines.lean never undo (Keeps of Safety.lean): one lemma per operation. -/

set_option linter.all false

namespace Sys2Proof.Machine

theorem State.addLine_keeps {s0 s : State} (h_ : Keeps s0 s) (x : Line) :
    Keeps s0 (State.addLine s x) := by
  unfold State.addLine
  repeat' first
    | with_reducible assumption
    | (extract_lets +onlyGivenNames x; refine keeps_cut (p := Keeps s0 x) ?_ (fun hx => ?_) <;> [subst x; clear_value x])
    | (extract_lets +onlyGivenNames x; refine keeps_cut (p := Keeps s0 x.1) ?_ (fun hx => ?_) <;> [subst x; clear_value x])
    | extract_lets +onlyGivenNames x
    | with_reducible apply State.untimed_keeps
    | with_reducible apply State.setLine_keeps
    | simp -zeta only [keeps_mk1, keeps_mk2]
    | (intro i; intros; try beta_reduce)

theorem State.issueEffect_keeps {s0 s : State} (h_ : Keeps s0 s) (l : Line) :
    Keeps s0 (State.issueEffect s l) := by
  unfold State.issueEffect
  repeat' first
    | with_reducible assumption
    | (extract_lets +onlyGivenNames x; refine keeps_cut (p := Keeps s0 x) ?_ (fun hx => ?_) <;> [subst x; clear_value x])
    | (extract_lets +onlyGivenNames x; refine keeps_cut (p := Keeps s0 x.1) ?_ (fun hx => ?_) <;> [subst x; clear_value x])
    | (extract_lets +onlyGivenNames x; refine keeps_cut (p := Keeps s0 x.2) ?_ (fun hx => ?_) <;> [subst x; clear_value x])
    | extract_lets +onlyGivenNames x
    | with_reducible apply State.emit_keeps
    | with_reducible apply State.post_keeps
    | with_reducible apply State.abort_keeps
    | with_reducible apply State.hostRead_keeps
    | with_reducible apply State.dormantAccess_keeps
    | with_reducible apply State.setLine_keeps
    | with_reducible apply State.farDown_keeps
    | with_reducible apply keeps_ite
    | simp -zeta only [keeps_mk1, keeps_mk2]
    | split
    | refine State.hostRead_keeps' (by with_reducible assumption) ?_

theorem execLineTransactionIssue_keeps {s0 s : State} (h_ : Keeps s0 s) (p : Fin 16) :
    KeepsOut s0 (execLineTransactionIssue p s) := by
  unfold execLineTransactionIssue
  repeat' first
    | with_reducible assumption
    | (extract_lets +onlyGivenNames x; refine keeps_cut (p := Keeps s0 x) ?_ (fun hx => ?_) <;> [subst x; clear_value x])
    | (extract_lets +onlyGivenNames x; refine keeps_cut (p := Keeps s0 x.1) ?_ (fun hx => ?_) <;> [subst x; clear_value x])
    | extract_lets +onlyGivenNames x
    | with_reducible apply State.wr_keeps
    | with_reducible apply State.setAdmitted_keeps
    | with_reducible apply State.setLine_keeps
    | with_reducible apply State.issueEffect_keeps
    | with_reducible apply keepsOut_ite
    | with_reducible apply keeps_ite
    | with_reducible apply keepsOut_next
    | simp -zeta only [keeps_mk1, keeps_mk2]
    | split
    | (intro i; intros; try beta_reduce)

theorem State.dropLine_keeps {s0 s : State} (h_ : Keeps s0 s) (l : Line) :
    Keeps s0 (State.dropLine s l) := by
  unfold State.dropLine
  repeat' first
    | with_reducible assumption
    | (extract_lets +onlyGivenNames x; refine keeps_cut (p := Keeps s0 x) ?_ (fun hx => ?_) <;> [subst x; clear_value x])
    | (extract_lets +onlyGivenNames x; refine keeps_cut (p := Keeps s0 x.1) ?_ (fun hx => ?_) <;> [subst x; clear_value x])
    | extract_lets +onlyGivenNames x
    | with_reducible apply State.wr_keeps
    | with_reducible apply keeps_ite
    | simp -zeta only [keeps_mk1, keeps_mk2]
    | (intro i; intros; try beta_reduce)

theorem State.lineRead_keeps {s0 s : State} (h_ : Keeps s0 s) (l : Line) (ret : Fetched) (errs : List SecErr) :
    Keeps s0 (s.lineRead l ret errs).1 := by
  unfold State.lineRead
  extract_lets zeros
  refine keepsP_ite h_ ?_
  split
  · exact State.bump_keeps (keeps_foldl (keeps_foldl h_ (fun _ _ hx => State.usePoison_keeps hx ..)) (fun _ _ hx => State.useErr_keeps hx ..)) ..
  · split
    · exact State.bump_keeps h_ ..
    · exact State.bump_keeps h_ ..
  · split
    · exact h_
    · exact State.bump_keeps (loopN_keeps h_ _ _ (fun _ _ hx => State.useFarPoison_keeps hx ..)) ..
  · exact h_
theorem State.lineRead_keeps' {s0 s t' : State} {y} {l : Line} {ret : Fetched} {errs : List SecErr} (e_ : s.lineRead l ret errs = (t', y))
    (h_ : Keeps s0 s) : Keeps s0 t' := by
  have := State.lineRead_keeps h_ l ret errs
  rw [e_] at this
  exact this

theorem State.lineWrite_keeps {s0 s : State} (h_ : Keeps s0 s) (l : Line) :
    Keeps s0 (State.lineWrite s l) := by
  unfold State.lineWrite
  repeat' first
    | with_reducible assumption
    | (extract_lets +onlyGivenNames x; refine keeps_cut (p := Keeps s0 x) ?_ (fun hx => ?_) <;> [subst x; clear_value x])
    | (extract_lets +onlyGivenNames x; refine keeps_cut (p := Keeps s0 x.1) ?_ (fun hx => ?_) <;> [subst x; clear_value x])
    | extract_lets +onlyGivenNames x
    | with_reducible apply State.bump_keeps
    | with_reducible apply State.hbmWrite_keeps
    | with_reducible apply State.farWrite_keeps
    | with_reducible apply State.noteWrite_keeps
    | with_reducible apply State.hbmPoisonAt_keeps
    | with_reducible apply keeps_ite
    | split

end Sys2Proof.Machine
end

