-- ==== Sys2Proof/Laws/KeepsTables.lean ====
section
/-! SUPPORT. What the operations of Machine/Tables.lean never undo (Keeps of Safety.lean): one lemma per operation. -/

set_option linter.all false

namespace Sys2Proof.Machine

theorem State.setTable_keeps {s0 s : State} (h_ : Keeps s0 s) (p : Nat) (slot : Nat) (d : List Byte) :
    Keeps s0 (State.setTable s p slot d) := by
  unfold State.setTable
  repeat' first
    | with_reducible assumption
    | (extract_lets +onlyGivenNames x; refine keeps_cut (p := Keeps s0 x) ?_ (fun hx => ?_) <;> [subst x; clear_value x])
    | (extract_lets +onlyGivenNames x; refine keeps_cut (p := Keeps s0 x.1) ?_ (fun hx => ?_) <;> [subst x; clear_value x])
    | extract_lets +onlyGivenNames x
    | with_reducible apply State.wr_keeps
    | with_reducible apply keeps_ite
    | simp -zeta only [keeps_mk1, keeps_mk2]

theorem State.tblErr_keeps {s0 s : State} (h_ : Keeps s0 s) (c : Nat) (kind : Nat) (slot : Nat) (bag : Nat) (pos : Nat) (status : Nat) :
    Keeps s0 (State.tblErr s c kind slot bag pos status) := by
  unfold State.tblErr
  repeat' first
    | with_reducible assumption
    | (extract_lets +onlyGivenNames x; refine keeps_cut (p := Keeps s0 x) ?_ (fun hx => ?_) <;> [subst x; clear_value x])
    | (extract_lets +onlyGivenNames x; refine keeps_cut (p := Keeps s0 x.1) ?_ (fun hx => ?_) <;> [subst x; clear_value x])
    | extract_lets +onlyGivenNames x
    | with_reducible apply State.wr_keeps
    | with_reducible apply State.abort_keeps
    | with_reducible apply keeps_ite

theorem State.popSlots_keeps {s0 : State} (c d n : Nat) : ∀ {s : State}, Keeps s0 s → KeepsOP s0 (s.popSlots c d n) := by
  induction n with
  | zero => exact fun h => keepsOP_some h
  | succ n ih =>
    intro s h
    unfold State.popSlots
    split
    · exact keepsOP_none
    · rename_i e
      exact keepsOP_map (ih (State.popSlot_keeps' e h)) (fun _ hx => hx)
theorem State.popSlots_keeps' {s0 s t : State} {y} {c d n : Nat} (e_ : s.popSlots c d n = some (t, y)) (h_ : Keeps s0 s) : Keeps s0 t :=
  State.popSlots_keeps c d n h_ t y e_

theorem State.takeRows_keeps {s0 s : State} (h_ : Keeps s0 s) (c : Nat) (f : RowField) (n : Nat) : KeepsE s0 (s.takeRows c f n) := by
  unfold State.takeRows
  split
  · split
    · rename_i x e
      exact keepsE_ok (State.popSlots_keeps' (y := x.2) (e.trans rfl) h_)
    · exact keepsE_error
  · exact keepsE_ite (keepsE_ok h_) keepsE_error
theorem State.takeRows_keeps' {s0 s t : State} {y} {c : Nat} {f : RowField} {n : Nat} (e_ : s.takeRows c f n = .ok (t, y)) (h_ : Keeps s0 s) :
    Keeps s0 t := State.takeRows_keeps h_ c f n t y e_

theorem State.syncTbl_keeps {s0 s : State} (h_ : Keeps s0 s) (c : Nat) :
    Keeps s0 (State.syncTbl s c) := by
  unfold State.syncTbl
  repeat' first
    | with_reducible assumption
    | with_reducible apply State.wr_keeps

theorem execTableLookup_keeps {s0 s : State} (h_ : Keeps s0 s) (a : At) :
    KeepsOut s0 (execTableLookup a s) := by
  unfold execTableLookup
  repeat' first
    | with_reducible assumption
    | (extract_lets +onlyGivenNames x; refine keeps_cut (p := Keeps s0 x) ?_ (fun hx => ?_) <;> [subst x; clear_value x])
    | (extract_lets +onlyGivenNames x; refine keeps_cut (p := Keeps s0 x.1) ?_ (fun hx => ?_) <;> [subst x; clear_value x])
    | extract_lets +onlyGivenNames x
    | with_reducible apply State.violation_keeps
    | with_reducible apply State.addOp_keeps
    | with_reducible apply State.addAct_keeps
    | with_reducible apply State.issueAs_keeps
    | with_reducible apply State.tblErr_keeps
    | with_reducible apply State.syncTbl_keeps
    | with_reducible apply keepsOut_ite
    | with_reducible apply keeps_ite
    | with_reducible apply keepsOut_next
    | split
    | (intro i; intros; try beta_reduce)
    | refine State.claimRows_keeps' (by with_reducible assumption) ?_
    | refine State.takeRows_keeps' (by with_reducible assumption) ?_

theorem State.landRows_keeps {s0 s : State} (h_ : Keeps s0 s) (o : Op) (rows : List Nat) (bytes : List Byte) (poison : Bool) :
    Keeps s0 (State.landRows s o rows bytes poison) := by
  unfold State.landRows
  repeat' first
    | with_reducible assumption
    | with_reducible apply loopN_keeps
    | simp -zeta only [keeps_mk1, keeps_mk2]
    | (intro i; intros; try beta_reduce)

theorem State.lookupAsk_keeps {s0 s : State} (h_ : Keeps s0 s) (o : Op) (l : Lookup) :
    Keeps s0 (State.lookupAsk s o l) := by
  unfold State.lookupAsk
  repeat' first
    | with_reducible assumption
    | (extract_lets +onlyGivenNames x; refine keeps_cut (p := Keeps s0 x) ?_ (fun hx => ?_) <;> [subst x; clear_value x])
    | (extract_lets +onlyGivenNames x; refine keeps_cut (p := Keeps s0 x.1) ?_ (fun hx => ?_) <;> [subst x; clear_value x])
    | extract_lets +onlyGivenNames x
    | with_reducible apply State.bump_keeps
    | with_reducible apply State.setOp_keeps
    | with_reducible apply State.addLine_keeps
    | with_reducible apply State.tblErr_keeps
    | with_reducible apply State.landRows_keeps
    | with_reducible apply keeps_foldl
    | with_reducible apply keeps_foldl_fst
    | with_reducible apply keeps_ite
    | simp -zeta only [keeps_mk1, keeps_mk2]
    | split
    | (intro i; intros; try beta_reduce)

theorem State.lookupRead_keeps {s0 s : State} (h_ : Keeps s0 s) (c : Nat) :
    Keeps s0 (State.lookupRead s c) := by
  unfold State.lookupRead
  repeat' first
    | with_reducible assumption
    | (extract_lets +onlyGivenNames x; refine keeps_cut (p := Keeps s0 x) ?_ (fun hx => ?_) <;> [subst x; clear_value x])
    | (extract_lets +onlyGivenNames x; refine keeps_cut (p := Keeps s0 x.1) ?_ (fun hx => ?_) <;> [subst x; clear_value x])
    | (extract_lets +onlyGivenNames x; clear_value x)
    | with_reducible apply State.shelfRead_keeps
    | with_reducible apply State.setOp_keeps
    | with_reducible apply State.untimed_keeps
    | with_reducible apply State.lookupAsk_keeps
    | with_reducible apply keeps_ite
    | simp -zeta only [keeps_mk1, keeps_mk2]
    | split
    | (intro i; intros; try beta_reduce)
    | refine State.shelfRead_keeps' (by with_reducible assumption) ?_

theorem State.tablePart_keeps {s0 s : State} (h_ : Keeps s0 s) (op : Nat) (bag : Nat) (idx : Nat) (off : Nat) (bytes : List Byte) (poison : Bool) :
    Keeps s0 (State.tablePart s op bag idx off bytes poison) := by
  unfold State.tablePart
  repeat' first
    | with_reducible assumption
    | with_reducible apply State.setOp_keeps
    | simp -zeta only [keeps_mk1, keeps_mk2]
    | split

theorem execTableRowReturn_keeps {s0 s : State} (h_ : Keeps s0 s) (core : Fin 128) :
    KeepsOut s0 (execTableRowReturn core s) := by
  unfold execTableRowReturn
  repeat' first
    | with_reducible assumption
    | (extract_lets +onlyGivenNames x; refine keeps_cut (p := Keeps s0 x) ?_ (fun hx => ?_) <;> [subst x; clear_value x])
    | (extract_lets +onlyGivenNames x; refine keeps_cut (p := Keeps s0 x.1) ?_ (fun hx => ?_) <;> [subst x; clear_value x])
    | (extract_lets +onlyGivenNames x; clear_value x)
    | with_reducible apply State.countOutputs_keeps
    | with_reducible apply State.setOp_keeps
    | with_reducible apply State.landRows_keeps
    | with_reducible apply keepsOut_ite
    | with_reducible apply keeps_ite
    | with_reducible apply keepsOut_next
    | simp -zeta only [keeps_mk1, keeps_mk2]
    | split
    | (intro i; intros; try beta_reduce)

theorem State.tableStep_keeps {s0 s : State} (h_ : Keeps s0 s) (p : Nat) :
    KeepsO s0 (State.tableStep s p) := by
  unfold State.tableStep
  repeat' first
    | with_reducible assumption
    | (extract_lets +onlyGivenNames x; refine keeps_cut (p := Keeps s0 x) ?_ (fun hx => ?_) <;> [subst x; clear_value x])
    | (extract_lets +onlyGivenNames x; refine keeps_cut (p := Keeps s0 x.1) ?_ (fun hx => ?_) <;> [subst x; clear_value x])
    | extract_lets +onlyGivenNames x
    | with_reducible apply State.complete_keeps
    | with_reducible apply State.setProg_keeps
    | with_reducible apply State.setTable_keeps
    | with_reducible apply keepsO_ite
    | with_reducible apply keeps_ite
    | with_reducible apply keepsO_none
    | with_reducible apply keepsO_some
    | split
    | (intro i; intros; try beta_reduce)
theorem State.tableStep_keeps' {s0 s t' : State} {p : Nat} (e_ : State.tableStep s p = some t') (h_ : Keeps s0 s) : Keeps s0 t' := State.tableStep_keeps h_ p t' e_

theorem State.tablePump_keeps {s0 : State} (p n : Nat) : ∀ {s : State}, Keeps s0 s → Keeps s0 (s.tablePump p n) := by
  induction n with
  | zero => exact fun h => h
  | succ n ih =>
    intro s h
    unfold State.tablePump
    split
    · exact h
    · rename_i e
      exact ih (State.tableStep_keeps' e h)

theorem State.tableGo_keeps {s0 s : State} (h_ : Keeps s0 s) (p : Nat) :
    Keeps s0 (State.tableGo s p) := by
  unfold State.tableGo
  repeat' first
    | with_reducible assumption
    | with_reducible apply State.tablePump_keeps

theorem execTableDefine_keeps {s0 s : State} (h_ : Keeps s0 s) (h : Hdr) (slot : Nat) (sect : Nat) (elem : Nat) (hash : Nat) (rowsLog2 : Nat) (rows : Nat) (base : Nat) (mult : Nat) (tag : Nat) :
    KeepsOut s0 (execTableDefine h slot sect elem hash rowsLog2 rows base mult tag s) := by
  unfold execTableDefine
  repeat' first
    | with_reducible assumption
    | with_reducible apply State.start_keeps
    | with_reducible apply State.checked_keeps
    | with_reducible apply State.tableGo_keeps
    | with_reducible apply keepsOut_next
    | (intro i; intros; try beta_reduce)

theorem execTableRetire_keeps {s0 s : State} (h_ : Keeps s0 s) (h : Hdr) (slot : Nat) (gen : Nat) (flags : Nat) :
    KeepsOut s0 (execTableRetire h slot gen flags s) := by
  unfold execTableRetire
  repeat' first
    | with_reducible assumption
    | with_reducible apply State.start_keeps
    | with_reducible apply State.checked_keeps
    | with_reducible apply State.tableGo_keeps
    | with_reducible apply keepsOut_next
    | (intro i; intros; try beta_reduce)

theorem execTableRead_keeps {s0 s : State} (h_ : Keeps s0 s) (h : Hdr) (slot : Nat) (out : Nat) :
    KeepsOut s0 (execTableRead h slot out s) := by
  unfold execTableRead
  repeat' first
    | with_reducible assumption
    | (extract_lets +onlyGivenNames x; refine keeps_cut (p := Keeps s0 x) ?_ (fun hx => ?_) <;> [subst x; clear_value x])
    | (extract_lets +onlyGivenNames x; refine keeps_cut (p := Keeps s0 x.1) ?_ (fun hx => ?_) <;> [subst x; clear_value x])
    | extract_lets +onlyGivenNames x
    | with_reducible apply State.complete_keeps
    | with_reducible apply State.ptrWrite_keeps
    | with_reducible apply State.gate_keeps
    | with_reducible apply State.checked_keeps
    | with_reducible apply keepsOut_next
    | (intro i; intros; try beta_reduce)

theorem State.tblRec_keeps {s0 s : State} (h_ : Keeps s0 s) (o : Op) (l : Lookup) (kind : Nat) :
    Keeps s0 (State.tblRec s o l kind) := by
  unfold State.tblRec
  repeat' first
    | with_reducible assumption
    | (extract_lets +onlyGivenNames x; refine keeps_cut (p := Keeps s0 x) ?_ (fun hx => ?_) <;> [subst x; clear_value x])
    | (extract_lets +onlyGivenNames x; refine keeps_cut (p := Keeps s0 x.1) ?_ (fun hx => ?_) <;> [subst x; clear_value x])
    | extract_lets +onlyGivenNames x
    | with_reducible apply State.wr_keeps
    | with_reducible apply keeps_ite

theorem execTableLookupComplete_keeps {s0 s : State} (h_ : Keeps s0 s) (core : Fin 128) :
    KeepsOut s0 (execTableLookupComplete core s) := by
  unfold execTableLookupComplete
  repeat' first
    | with_reducible assumption
    | (extract_lets +onlyGivenNames x; refine keeps_cut (p := Keeps s0 x) ?_ (fun hx => ?_) <;> [subst x; clear_value x])
    | (extract_lets +onlyGivenNames x; refine keeps_cut (p := Keeps s0 x.1) ?_ (fun hx => ?_) <;> [subst x; clear_value x])
    | (extract_lets +onlyGivenNames x; clear_value x)
    | with_reducible apply State.bump_keeps
    | with_reducible apply State.dropOp_keeps
    | with_reducible apply State.completeOp_keeps
    | with_reducible apply State.warnSide_keeps
    | with_reducible apply State.syncTbl_keeps
    | with_reducible apply State.tblRec_keeps
    | with_reducible apply keepsOut_ite
    | with_reducible apply keeps_ite
    | with_reducible apply keepsOut_next
    | split
    | (intro i; intros; try beta_reduce)

theorem execTableGenerationRelease_keeps {s0 s : State} (h_ : Keeps s0 s) (p : Fin 16) :
    KeepsOut s0 (execTableGenerationRelease p s) := by
  unfold execTableGenerationRelease
  repeat' first
    | with_reducible assumption
    | with_reducible apply State.tableGo_keeps
    | with_reducible apply keepsOut_next

theorem execTblRec0ValidClear_keeps {s0 s : State} (h_ : Keeps s0 s) (p : Fin 16) :
    KeepsOut s0 (execTblRec0ValidClear p s) := by
  unfold execTblRec0ValidClear
  repeat' first
    | with_reducible assumption
    | with_reducible apply State.wr_keeps
    | with_reducible apply keepsOut_next

end Sys2Proof.Machine
end

