-- ==== Sys2Proof/Laws/KeepsMovers.lean ====
section
/-! SUPPORT. What the operations of Machine/Movers.lean never undo (Keeps of Safety.lean): one lemma per operation. -/

set_option linter.all false

namespace Sys2Proof.Machine

theorem execFetch_keeps {s0 s : State} (h_ : Keeps s0 s) (a : At) :
    KeepsOut s0 (execFetch a s) := by
  unfold execFetch
  repeat' first
    | with_reducible assumption
    | (extract_lets +onlyGivenNames x; refine keeps_cut (p := Keeps s0 x) ?_ (fun hx => ?_) <;> [subst x; clear_value x])
    | (extract_lets +onlyGivenNames x; refine keeps_cut (p := Keeps s0 x.1) ?_ (fun hx => ?_) <;> [subst x; clear_value x])
    | extract_lets +onlyGivenNames x
    | with_reducible apply loopN_keeps
    | with_reducible apply State.abort_keeps
    | with_reducible apply State.violation_keeps
    | with_reducible apply State.addOp_keeps
    | with_reducible apply State.issueAs_keeps
    | with_reducible apply State.addLine_keeps
    | with_reducible apply keepsOut_ite
    | with_reducible apply keeps_ite
    | with_reducible apply keepsOut_next
    | simp -zeta only [keeps_mk1, keeps_mk2]
    | split
    | (intro i; intros; try beta_reduce)
    | refine State.claimRows_keeps' (by with_reducible assumption) ?_

theorem execPageFetch_keeps {s0 s : State} (h_ : Keeps s0 s) (a : At) :
    KeepsOut s0 (execPageFetch a s) := by
  unfold execPageFetch
  repeat' first
    | with_reducible assumption
    | (extract_lets +onlyGivenNames x; refine keeps_cut (p := Keeps s0 x) ?_ (fun hx => ?_) <;> [subst x; clear_value x])
    | (extract_lets +onlyGivenNames x; refine keeps_cut (p := Keeps s0 x.1) ?_ (fun hx => ?_) <;> [subst x; clear_value x])
    | extract_lets +onlyGivenNames x
    | with_reducible apply State.abort_keeps
    | with_reducible apply State.violation_keeps
    | with_reducible apply State.addOp_keeps
    | with_reducible apply State.issueAs_keeps
    | with_reducible apply State.addLine_keeps
    | with_reducible apply keepsOut_next
    | simp -zeta only [keeps_mk1, keeps_mk2]
    | split
    | (intro i; intros; try beta_reduce)
    | refine State.claimRows_keeps' (by with_reducible assumption) ?_

theorem State.fetchPart_keeps {s0 s : State} (h_ : Keeps s0 s) (id : Nat) (pos : Nat) (bytes : List Byte) (poison : Bool) :
    Keeps s0 (State.fetchPart s id pos bytes poison) := by
  unfold State.fetchPart
  repeat' first
    | with_reducible assumption
    | (extract_lets +onlyGivenNames x; refine keeps_cut (p := Keeps s0 x) ?_ (fun hx => ?_) <;> [subst x; clear_value x])
    | (extract_lets +onlyGivenNames x; refine keeps_cut (p := Keeps s0 x.1) ?_ (fun hx => ?_) <;> [subst x; clear_value x])
    | extract_lets +onlyGivenNames x
    | with_reducible apply State.setOp_keeps
    | with_reducible apply keeps_foldl
    | with_reducible apply keeps_foldl_fst
    | with_reducible apply keeps_ite
    | simp -zeta only [keeps_mk1, keeps_mk2]
    | split
    | (intro i; intros; try beta_reduce)

theorem State.startOut_keeps {s0 s : State} (h_ : Keeps s0 s) (x : Ctx) (ptr : Nat) (n : Nat) (acks : Nat) (dests : List Dest) (errs : List ShelfErr) :
    Keeps s0 (State.startOut s x ptr n acks dests errs) := by
  unfold State.startOut
  repeat' first
    | with_reducible assumption
    | (extract_lets +onlyGivenNames x; refine keeps_cut (p := Keeps s0 x) ?_ (fun hx => ?_) <;> [subst x; clear_value x])
    | (extract_lets +onlyGivenNames x; refine keeps_cut (p := Keeps s0 x.1) ?_ (fun hx => ?_) <;> [subst x; clear_value x])
    | extract_lets +onlyGivenNames x
    | with_reducible apply State.addOp_keeps
    | simp -zeta only [keeps_mk1, keeps_mk2]
    | (intro i; intros; try beta_reduce)

theorem execWriteMover_keeps {s0 s : State} (h_ : Keeps s0 s) (a : At) (errs : List ShelfErr) :
    KeepsOut s0 (execWriteMover a errs s) := by
  unfold execWriteMover
  repeat' first
    | with_reducible assumption
    | (extract_lets +onlyGivenNames x; refine keeps_cut (p := Keeps s0 x) ?_ (fun hx => ?_) <;> [subst x; clear_value x])
    | (extract_lets +onlyGivenNames x; refine keeps_cut (p := Keeps s0 x.1) ?_ (fun hx => ?_) <;> [subst x; clear_value x])
    | extract_lets +onlyGivenNames x
    | with_reducible apply State.abort_keeps
    | with_reducible apply State.issueAs_keeps
    | with_reducible apply State.startOut_keeps
    | with_reducible apply keeps_foldl
    | with_reducible apply keeps_foldl_fst
    | with_reducible apply keepsOut_ite
    | with_reducible apply keeps_ite
    | with_reducible apply keepsOut_next
    | split
    | (intro i; intros; try beta_reduce)

theorem execPush_keeps {s0 s : State} (h_ : Keeps s0 s) (a : At) (errs : List ShelfErr) :
    KeepsOut s0 (execPush a errs s) := by
  unfold execPush
  repeat' first
    | with_reducible assumption
    | with_reducible apply State.abort_keeps
    | with_reducible apply State.issueAs_keeps
    | with_reducible apply State.startOut_keeps
    | with_reducible apply keepsOut_next
    | simp -zeta only [keeps_mk1, keeps_mk2]
    | split
    | (intro i; intros; try beta_reduce)

theorem State.sendRows_keeps {s0 s : State} (h_ : Keeps s0 s) (o : Op) (x : Outb) :
    Keeps s0 (State.sendRows s o x) := by
  unfold State.sendRows
  repeat' first
    | with_reducible assumption
    | (extract_lets +onlyGivenNames x; refine keeps_cut (p := Keeps s0 x) ?_ (fun hx => ?_) <;> [subst x; clear_value x])
    | (extract_lets +onlyGivenNames x; refine keeps_cut (p := Keeps s0 x.1) ?_ (fun hx => ?_) <;> [subst x; clear_value x])
    | extract_lets +onlyGivenNames x
    | with_reducible apply loopN_keeps
    | with_reducible apply State.abort_keeps
    | with_reducible apply State.setOp_keeps
    | with_reducible apply State.dropOp_keeps
    | with_reducible apply State.completeOp_keeps
    | with_reducible apply State.addLine_keeps
    | with_reducible apply keeps_foldl
    | with_reducible apply keeps_foldl_fst
    | with_reducible apply keeps_ite
    | simp -zeta only [keeps_mk1, keeps_mk2]
    | split
    | (intro i; intros; try beta_reduce)

theorem State.pumpOut_keeps {s0 s : State} (h_ : Keeps s0 s) (c : Nat) :
    Keeps s0 (State.pumpOut s c) := by
  unfold State.pumpOut
  repeat' first
    | with_reducible assumption
    | with_reducible apply State.sendRows_keeps
    | with_reducible apply keeps_foldl
    | with_reducible apply keeps_foldl_fst
    | with_reducible apply keeps_ite
    | split
    | (intro i; intros; try beta_reduce)

theorem State.outAck_keeps {s0 s : State} (h_ : Keeps s0 s) (id : Nat) (status : Nat) :
    Keeps s0 (State.outAck s id status) := by
  unfold State.outAck
  repeat' first
    | with_reducible assumption
    | (extract_lets +onlyGivenNames x; refine keeps_cut (p := Keeps s0 x) ?_ (fun hx => ?_) <;> [subst x; clear_value x])
    | (extract_lets +onlyGivenNames x; refine keeps_cut (p := Keeps s0 x.1) ?_ (fun hx => ?_) <;> [subst x; clear_value x])
    | extract_lets +onlyGivenNames x
    | with_reducible apply State.abort_keeps
    | with_reducible apply State.setOp_keeps
    | with_reducible apply State.dropOp_keeps
    | with_reducible apply State.completeOp_keeps
    | with_reducible apply keeps_ite
    | simp -zeta only [keeps_mk1, keeps_mk2]
    | split

theorem State.takeMsg_keeps {s0 s : State} (h_ : Keeps s0 s) (port : Option (Fin 12)) (m : Msg) (kind : Nat) :
    KeepsO s0 (State.takeMsg s port m kind) := by
  unfold State.takeMsg
  repeat' first
    | with_reducible assumption
    | with_reducible apply State.consume_keeps
    | with_reducible apply keepsO_ite
    | with_reducible apply keeps_ite
    | with_reducible apply keepsO_none
    | with_reducible apply keepsO_some
    | simp -zeta only [keeps_mk1, keeps_mk2]
    | split
theorem State.takeMsg_keeps' {s0 s t' : State} {port : Option (Fin 12)} {m : Msg} {kind : Nat} (e_ : State.takeMsg s port m kind = some t') (h_ : Keeps s0 s) : Keeps s0 t' := State.takeMsg_keeps h_ port m kind t' e_

theorem State.rteErr_keeps {s0 s : State} (h_ : Keeps s0 s) (m : Msg) (status : Nat) :
    Keeps s0 (State.rteErr s m status) := by
  unfold State.rteErr
  repeat' first
    | with_reducible assumption
    | (extract_lets +onlyGivenNames x; refine keeps_cut (p := Keeps s0 x) ?_ (fun hx => ?_) <;> [subst x; clear_value x])
    | (extract_lets +onlyGivenNames x; refine keeps_cut (p := Keeps s0 x.1) ?_ (fun hx => ?_) <;> [subst x; clear_value x])
    | extract_lets +onlyGivenNames x
    | with_reducible apply State.wr_keeps
    | with_reducible apply keeps_ite

theorem State.ackMsg_keeps {s0 s : State} (h_ : Keeps s0 s) (m : Msg) (status : Nat) (high : Nat) (aux : Nat) :
    Keeps s0 (State.ackMsg s m status high aux) := by
  unfold State.ackMsg
  repeat' first
    | with_reducible assumption
    | with_reducible apply State.ackFor_keeps
    | with_reducible apply keeps_ite

theorem State.discardMsg_keeps {s0 s : State} (h_ : Keeps s0 s) (m : Msg) (status : Nat) :
    Keeps s0 (State.discardMsg s m status) := by
  unfold State.discardMsg
  repeat' first
    | with_reducible assumption
    | (extract_lets +onlyGivenNames x; refine keeps_cut (p := Keeps s0 x) ?_ (fun hx => ?_) <;> [subst x; clear_value x])
    | (extract_lets +onlyGivenNames x; refine keeps_cut (p := Keeps s0 x.1) ?_ (fun hx => ?_) <;> [subst x; clear_value x])
    | extract_lets +onlyGivenNames x
    | with_reducible apply State.bump_keeps
    | with_reducible apply State.rteErr_keeps
    | with_reducible apply State.ackMsg_keeps
    | with_reducible apply keeps_ite

theorem State.receiveMsg_keeps {s0 s : State} (h_ : Keeps s0 s) (port : Option (Fin 12)) (m : Msg) (kind : Nat) (go : Nat → State → State) (hgo : ∀ i t, Keeps s0 t → Keeps s0 (go i t)) :
    KeepsOut s0 (State.receiveMsg s port m kind go) := by
  unfold State.receiveMsg
  repeat' first
    | with_reducible assumption
    | with_reducible apply State.ucharge_keeps
    | with_reducible apply State.discardMsg_keeps
    | with_reducible apply keepsOut_ite
    | with_reducible apply keeps_ite
    | with_reducible apply keepsOut_next
    | split
    | (intro i; intros; try beta_reduce)
    | apply_assumption
    | refine State.takeMsg_keeps' (by with_reducible assumption) ?_

theorem execWriteMessageReceive_keeps {s0 s : State} (h_ : Keeps s0 s) (port : Option (Fin 12)) (m : Msg) :
    KeepsOut s0 (execWriteMessageReceive port m s) := by
  unfold execWriteMessageReceive
  repeat' first
    | with_reducible assumption
    | (extract_lets +onlyGivenNames x; refine keeps_cut (p := Keeps s0 x) ?_ (fun hx => ?_) <;> [subst x; clear_value x])
    | (extract_lets +onlyGivenNames x; refine keeps_cut (p := Keeps s0 x.1) ?_ (fun hx => ?_) <;> [subst x; clear_value x])
    | extract_lets +onlyGivenNames x
    | with_reducible apply State.ptrWrite_keeps
    | with_reducible apply State.ucharge_keeps
    | with_reducible apply State.ackMsg_keeps
    | with_reducible apply State.receiveMsg_keeps
    | with_reducible apply keepsOut_ite
    | with_reducible apply keeps_ite
    | with_reducible apply keepsOut_next
    | (intro i; intros; try beta_reduce)

theorem State.landRecv_keeps {s0 s : State} (h_ : Keeps s0 s) (o : Op) (r : Recv) (k : Nat) (rows : List (List Byte)) (cats : List NumCat) :
    Keeps s0 (State.landRecv s o r k rows cats) := by
  unfold State.landRecv
  repeat' first
    | with_reducible assumption
    | (extract_lets +onlyGivenNames x; refine keeps_cut (p := Keeps s0 x) ?_ (fun hx => ?_) <;> [subst x; clear_value x])
    | (extract_lets +onlyGivenNames x; refine keeps_cut (p := Keeps s0 x.1) ?_ (fun hx => ?_) <;> [subst x; clear_value x])
    | extract_lets +onlyGivenNames x
    | with_reducible apply loopN_keeps
    | with_reducible apply State.countOutputs_keeps
    | with_reducible apply State.setOp_keeps
    | simp -zeta only [keeps_mk1, keeps_mk2]
    | split
    | (intro i; intros; try beta_reduce)

theorem State.recvRow_keeps {s0 s : State} (h_ : Keeps s0 s) (o : Op) (r : Recv) (k : Nat) (bytes : List Byte) :
    Keeps s0 (State.recvRow s o r k bytes) := by
  unfold State.recvRow
  repeat' first
    | with_reducible assumption
    | (extract_lets +onlyGivenNames x; refine keeps_cut (p := Keeps s0 x) ?_ (fun hx => ?_) <;> [subst x; clear_value x])
    | (extract_lets +onlyGivenNames x; refine keeps_cut (p := Keeps s0 x.1) ?_ (fun hx => ?_) <;> [subst x; clear_value x])
    | extract_lets +onlyGivenNames x
    | with_reducible apply State.start_keeps
    | with_reducible apply State.landRecv_keeps
    | with_reducible apply keeps_foldl
    | with_reducible apply keeps_foldl_fst
    | with_reducible apply keeps_ite
    | (intro i; intros; try beta_reduce)

theorem State.offerPush_keeps {s0 s : State} (h_ : Keeps s0 s) (rank : Nat) (m : Msg) :
    KeepsO s0 (State.offerPush s rank m) := by
  unfold State.offerPush
  repeat' first
    | with_reducible assumption
    | (extract_lets +onlyGivenNames x; refine keeps_cut (p := Keeps s0 x) ?_ (fun hx => ?_) <;> [subst x; clear_value x])
    | (extract_lets +onlyGivenNames x; refine keeps_cut (p := Keeps s0 x.1) ?_ (fun hx => ?_) <;> [subst x; clear_value x])
    | extract_lets +onlyGivenNames x
    | with_reducible apply State.setOp_keeps
    | with_reducible apply State.ackMsg_keeps
    | with_reducible apply State.recvRow_keeps
    | with_reducible apply keepsO_ite
    | with_reducible apply keeps_ite
    | with_reducible apply keepsO_none
    | with_reducible apply keepsO_some
    | simp -zeta only [keeps_mk1, keeps_mk2]
    | split
theorem State.offerPush_keeps' {s0 s t' : State} {rank : Nat} {m : Msg} (e_ : State.offerPush s rank m = some t') (h_ : Keeps s0 s) : Keeps s0 t' := State.offerPush_keeps h_ rank m t' e_

theorem State.setEarly_keeps {s0 s : State} (h_ : Keeps s0 s) (c : Nat) (l : List Early) :
    Keeps s0 (State.setEarly s c l) := by
  unfold State.setEarly
  repeat' first
    | with_reducible assumption
    | simp -zeta only [keeps_mk1, keeps_mk2]

theorem execPushMessageReceive_keeps {s0 s : State} (h_ : Keeps s0 s) (port : Option (Fin 12)) (m : Msg) :
    KeepsOut s0 (execPushMessageReceive port m s) := by
  unfold execPushMessageReceive
  repeat' first
    | with_reducible assumption
    | (extract_lets +onlyGivenNames x; refine keeps_cut (p := Keeps s0 x) ?_ (fun hx => ?_) <;> [subst x; clear_value x])
    | (extract_lets +onlyGivenNames x; refine keeps_cut (p := Keeps s0 x.1) ?_ (fun hx => ?_) <;> [subst x; clear_value x])
    | extract_lets +onlyGivenNames x
    | with_reducible apply State.discardMsg_keeps
    | with_reducible apply State.receiveMsg_keeps
    | with_reducible apply State.setEarly_keeps
    | with_reducible apply keepsOut_ite
    | with_reducible apply keeps_ite
    | with_reducible apply keepsOut_next
    | split
    | (intro i; intros; try beta_reduce)
    | refine State.offerPush_keeps' (by with_reducible assumption) ?_

theorem State.matchEarly_keeps {s0 s : State} (h_ : Keeps s0 s) (c : Nat) :
    Keeps s0 (State.matchEarly s c) := by
  unfold State.matchEarly
  repeat' first
    | with_reducible assumption
    | with_reducible apply State.setEarly_keeps
    | with_reducible apply keeps_foldl
    | with_reducible apply keeps_foldl_fst
    | split
    | (intro i; intros; try beta_reduce)
    | refine State.offerPush_keeps' (by with_reducible assumption) ?_

theorem execRecv_keeps {s0 s : State} (h_ : Keeps s0 s) (a : At) :
    KeepsOut s0 (execRecv a s) := by
  unfold execRecv
  repeat' first
    | with_reducible assumption
    | (extract_lets +onlyGivenNames x; refine keeps_cut (p := Keeps s0 x) ?_ (fun hx => ?_) <;> [subst x; clear_value x])
    | (extract_lets +onlyGivenNames x; refine keeps_cut (p := Keeps s0 x.1) ?_ (fun hx => ?_) <;> [subst x; clear_value x])
    | extract_lets +onlyGivenNames x
    | with_reducible apply State.abort_keeps
    | with_reducible apply State.violation_keeps
    | with_reducible apply State.addOp_keeps
    | with_reducible apply State.issueAs_keeps
    | with_reducible apply State.matchEarly_keeps
    | with_reducible apply keepsOut_ite
    | with_reducible apply keeps_ite
    | with_reducible apply keepsOut_next
    | simp -zeta only [keeps_mk1, keeps_mk2]
    | split
    | (intro i; intros; try beta_reduce)
    | refine State.claimRows_keeps' (by with_reducible assumption) ?_

theorem execEarlyArrivalTimeout_keeps {s0 s : State} (h_ : Keeps s0 s) (core : Fin 128) :
    KeepsOut s0 (execEarlyArrivalTimeout core s) := by
  unfold execEarlyArrivalTimeout
  repeat' first
    | with_reducible assumption
    | (extract_lets +onlyGivenNames x; refine keeps_cut (p := Keeps s0 x) ?_ (fun hx => ?_) <;> [subst x; clear_value x])
    | (extract_lets +onlyGivenNames x; refine keeps_cut (p := Keeps s0 x.1) ?_ (fun hx => ?_) <;> [subst x; clear_value x])
    | extract_lets +onlyGivenNames x
    | with_reducible apply State.discardMsg_keeps
    | with_reducible apply State.setEarly_keeps
    | with_reducible apply keepsOut_ite
    | with_reducible apply keeps_ite
    | with_reducible apply keepsOut_next
    | split

theorem execReceiveComplete_keeps {s0 s : State} (h_ : Keeps s0 s) (core : Fin 128) :
    KeepsOut s0 (execReceiveComplete core s) := by
  unfold execReceiveComplete
  repeat' first
    | with_reducible assumption
    | (extract_lets +onlyGivenNames x; refine keeps_cut (p := Keeps s0 x) ?_ (fun hx => ?_) <;> [subst x; clear_value x])
    | (extract_lets +onlyGivenNames x; refine keeps_cut (p := Keeps s0 x.1) ?_ (fun hx => ?_) <;> [subst x; clear_value x])
    | (extract_lets +onlyGivenNames x; clear_value x)
    | with_reducible apply State.completeOp_keeps
    | with_reducible apply keepsOut_next
    | split
    | (intro i; intros; try beta_reduce)

theorem execReadDataReceive_keeps {s0 s : State} (h_ : Keeps s0 s) (port : Option (Fin 12)) (m : Msg) :
    KeepsOut s0 (execReadDataReceive port m s) := by
  unfold execReadDataReceive
  repeat' first
    | with_reducible assumption
    | (extract_lets +onlyGivenNames x; refine keeps_cut (p := Keeps s0 x) ?_ (fun hx => ?_) <;> [subst x; clear_value x])
    | (extract_lets +onlyGivenNames x; refine keeps_cut (p := Keeps s0 x.1) ?_ (fun hx => ?_) <;> [subst x; clear_value x])
    | extract_lets +onlyGivenNames x
    | with_reducible apply State.dropLine_keeps
    | with_reducible apply State.fetchPart_keeps
    | with_reducible apply State.receiveMsg_keeps
    | with_reducible apply keepsOut_ite
    | with_reducible apply keeps_ite
    | with_reducible apply keepsOut_next
    | split
    | (intro i; intros; try beta_reduce)

theorem State.fetchAck_keeps {s0 s : State} (h_ : Keeps s0 s) (id : Nat) (status : Nat) (tokens : Nat) :
    Keeps s0 (State.fetchAck s id status tokens) := by
  unfold State.fetchAck
  repeat' first
    | with_reducible assumption
    | (extract_lets +onlyGivenNames x; refine keeps_cut (p := Keeps s0 x) ?_ (fun hx => ?_) <;> [subst x; clear_value x])
    | (extract_lets +onlyGivenNames x; refine keeps_cut (p := Keeps s0 x.1) ?_ (fun hx => ?_) <;> [subst x; clear_value x])
    | extract_lets +onlyGivenNames x
    | with_reducible apply State.setRuns_keeps
    | with_reducible apply State.abort_keeps
    | with_reducible apply State.setOp_keeps
    | with_reducible apply State.completeOp_keeps
    | with_reducible apply State.dropLine_keeps
    | with_reducible apply keeps_ite
    | simp -zeta only [keeps_mk1, keeps_mk2]
    | split
    | (intro i; intros; try beta_reduce)

theorem execStopReceive_keeps {s0 s : State} (h_ : Keeps s0 s) (port : Option (Fin 12)) (m : Msg) :
    KeepsOut s0 (execStopReceive port m s) := by
  unfold execStopReceive
  repeat' first
    | with_reducible assumption
    | with_reducible apply State.bump_keeps
    | with_reducible apply State.abortWith_keeps
    | with_reducible apply State.receiveMsg_keeps
    | with_reducible apply keepsOut_next
    | (intro i; intros; try beta_reduce)

end Sys2Proof.Machine
end

