-- ==== Sys2Proof/Laws/KeepsRoutes.lean ====
section
/-! SUPPORT. What the operations of Machine/Routes.lean never undo (Keeps of Safety.lean): one lemma per operation. -/

set_option linter.all false

namespace Sys2Proof.Machine

theorem State.putDest_keeps {s0 s : State} (h_ : Keeps s0 s) (d : Nat) (flags : Nat) (npaths : Nat) (transit : Nat) (paths : List (Nat × Nat × Nat)) :
    Keeps s0 (State.putDest s d flags npaths transit paths) := by
  unfold State.putDest
  repeat' first
    | with_reducible assumption
    | (extract_lets +onlyGivenNames x; refine keeps_cut (p := Keeps s0 x) ?_ (fun hx => ?_) <;> [subst x; clear_value x])
    | (extract_lets +onlyGivenNames x; refine keeps_cut (p := Keeps s0 x.1) ?_ (fun hx => ?_) <;> [subst x; clear_value x])
    | extract_lets +onlyGivenNames x
    | with_reducible apply State.wr_keeps
    | with_reducible apply loopN_keeps
    | (intro i; intros; try beta_reduce)

theorem execRouteWrite_keeps {s0 s : State} (h_ : Keeps s0 s) (h : Hdr) (dev : Nat) (flags : Nat) (npaths : Nat) (transit : Nat) (paths : List (Nat × Nat × Nat)) :
    KeepsOut s0 (execRouteWrite h dev flags npaths transit paths s) := by
  unfold execRouteWrite
  repeat' first
    | with_reducible assumption
    | (extract_lets +onlyGivenNames x; refine keeps_cut (p := Keeps s0 x) ?_ (fun hx => ?_) <;> [subst x; clear_value x])
    | (extract_lets +onlyGivenNames x; refine keeps_cut (p := Keeps s0 x.1) ?_ (fun hx => ?_) <;> [subst x; clear_value x])
    | extract_lets +onlyGivenNames x
    | with_reducible apply State.complete_keeps
    | with_reducible apply State.start_keeps
    | with_reducible apply State.checked_keeps
    | with_reducible apply State.putDest_keeps
    | with_reducible apply keepsOut_next
    | (intro i; intros; try beta_reduce)

theorem execRankWrite_keeps {s0 s : State} (h_ : Keeps s0 s) (h : Hdr) (first : Nat) (count : Nat) (flags : Nat) (self : Nat) (epoch : Nat) (entries : List Nat) :
    KeepsOut s0 (execRankWrite h first count flags self epoch entries s) := by
  unfold execRankWrite
  repeat' first
    | with_reducible assumption
    | (extract_lets +onlyGivenNames x; refine keeps_cut (p := Keeps s0 x) ?_ (fun hx => ?_) <;> [subst x; clear_value x])
    | (extract_lets +onlyGivenNames x; refine keeps_cut (p := Keeps s0 x.1) ?_ (fun hx => ?_) <;> [subst x; clear_value x])
    | extract_lets +onlyGivenNames x
    | with_reducible apply State.wr_keeps
    | with_reducible apply loopN_keeps
    | with_reducible apply State.complete_keeps
    | with_reducible apply State.start_keeps
    | with_reducible apply State.checked_keeps
    | with_reducible apply State.tdiConfigChanged_keeps
    | with_reducible apply keepsOut_ite
    | with_reducible apply keeps_ite
    | with_reducible apply keepsOut_next
    | (intro i; intros; try beta_reduce)

theorem execRankWriteDrainDone_keeps {s0 s : State} (h_ : Keeps s0 s) (h : Hdr) :
    KeepsOut s0 (execRankWriteDrainDone h s) := by
  unfold execRankWriteDrainDone
  repeat' first
    | with_reducible assumption
    | (extract_lets +onlyGivenNames x; refine keeps_cut (p := Keeps s0 x) ?_ (fun hx => ?_) <;> [subst x; clear_value x])
    | (extract_lets +onlyGivenNames x; refine keeps_cut (p := Keeps s0 x.1) ?_ (fun hx => ?_) <;> [subst x; clear_value x])
    | extract_lets +onlyGivenNames x
    | with_reducible apply State.complete_keeps
    | with_reducible apply keepsOut_ite
    | with_reducible apply keeps_ite
    | with_reducible apply keepsOut_next
    | split
    | (intro i; intros; try beta_reduce)

theorem execDevIdWrite_keeps {s0 s : State} (h_ : Keeps s0 s) (v : Nat) :
    KeepsOut s0 (execDevIdWrite v s) := by
  unfold execDevIdWrite
  repeat' first
    | with_reducible assumption
    | with_reducible apply State.wr_keeps
    | with_reducible apply keepsOut_next

theorem execRteErr0ValidClear_keeps {s0 s : State} (h_ : Keeps s0 s) (p : Fin 16) :
    KeepsOut s0 (execRteErr0ValidClear p s) := by
  unfold execRteErr0ValidClear
  repeat' first
    | with_reducible assumption
    | with_reducible apply State.wr_keeps
    | with_reducible apply keepsOut_next

theorem execPageServerSet_keeps {s0 s : State} (h_ : Keeps s0 s) (h : Hdr) (en : Nat) :
    KeepsOut s0 (execPageServerSet h en s) := by
  unfold execPageServerSet
  repeat' first
    | with_reducible assumption
    | with_reducible apply State.wr_keeps
    | with_reducible apply State.complete_keeps
    | with_reducible apply State.start_keeps
    | with_reducible apply State.checked_keeps
    | with_reducible apply keepsOut_next
    | (intro i; intros; try beta_reduce)

theorem execTransitForward_keeps {s0 s : State} (h_ : Keeps s0 s) (port : Fin 12) (vl : Fin 8) (m : Msg) :
    KeepsOut s0 (execTransitForward port vl m s) := by
  unfold execTransitForward
  repeat' first
    | with_reducible assumption
    | (extract_lets +onlyGivenNames x; refine keeps_cut (p := Keeps s0 x) ?_ (fun hx => ?_) <;> [subst x; clear_value x])
    | (extract_lets +onlyGivenNames x; refine keeps_cut (p := Keeps s0 x.1) ?_ (fun hx => ?_) <;> [subst x; clear_value x])
    | (extract_lets +onlyGivenNames x; clear_value x)
    | with_reducible apply State.bump_keeps
    | with_reducible apply State.post_keeps
    | with_reducible apply State.consume_keeps
    | with_reducible apply State.reserve_keeps
    | with_reducible apply keepsOut_ite
    | with_reducible apply keeps_ite
    | with_reducible apply keepsOut_next
    | split
    | (intro i; intros; try beta_reduce)

theorem State.mirrorWrite_keeps {s0 s : State} (h_ : Keeps s0 s) (p : Nat) (far : Bool) (off : Nat) (bytes : List Byte) :
    Keeps s0 (State.mirrorWrite s p far off bytes) := by
  unfold State.mirrorWrite
  repeat' first
    | with_reducible assumption
    | (extract_lets +onlyGivenNames x; refine keeps_cut (p := Keeps s0 x) ?_ (fun hx => ?_) <;> [subst x; clear_value x])
    | (extract_lets +onlyGivenNames x; refine keeps_cut (p := Keeps s0 x.1) ?_ (fun hx => ?_) <;> [subst x; clear_value x])
    | extract_lets +onlyGivenNames x
    | with_reducible apply State.bump_keeps
    | with_reducible apply State.addLine_keeps
    | with_reducible apply keeps_ite
    | simp -zeta only [keeps_mk1, keeps_mk2]
    | split

theorem execMirrorSet_keeps {s0 s : State} (h_ : Keeps s0 s) (h : Hdr) (peer : Nat) (ports : Nat) (part : Nat) (fence : Nat) :
    KeepsOut s0 (execMirrorSet h peer ports part fence s) := by
  unfold execMirrorSet
  repeat' first
    | with_reducible assumption
    | (extract_lets +onlyGivenNames x; refine keeps_cut (p := Keeps s0 x) ?_ (fun hx => ?_) <;> [subst x; clear_value x])
    | (extract_lets +onlyGivenNames x; refine keeps_cut (p := Keeps s0 x.1) ?_ (fun hx => ?_) <;> [subst x; clear_value x])
    | extract_lets +onlyGivenNames x
    | with_reducible apply State.wr_keeps
    | with_reducible apply loopN_keeps
    | with_reducible apply State.complete_keeps
    | with_reducible apply State.start_keeps
    | with_reducible apply State.checked_keeps
    | with_reducible apply keepsOut_ite
    | with_reducible apply keeps_ite
    | with_reducible apply keepsOut_next
    | simp -zeta only [keeps_mk1, keeps_mk2]
    | (intro i; intros; try beta_reduce)

theorem execMirrorReceive_keeps {s0 s : State} (h_ : Keeps s0 s) (port : Fin 12) (m : Msg) :
    KeepsOut s0 (execMirrorReceive port m s) := by
  unfold execMirrorReceive
  repeat' first
    | with_reducible assumption
    | (extract_lets +onlyGivenNames x; refine keeps_cut (p := Keeps s0 x) ?_ (fun hx => ?_) <;> [subst x; clear_value x])
    | (extract_lets +onlyGivenNames x; refine keeps_cut (p := Keeps s0 x.1) ?_ (fun hx => ?_) <;> [subst x; clear_value x])
    | extract_lets +onlyGivenNames x
    | with_reducible apply State.hbmWrite_keeps
    | with_reducible apply State.farWrite_keeps
    | with_reducible apply State.ucharge_keeps
    | with_reducible apply State.ackMsg_keeps
    | with_reducible apply State.discardMsg_keeps
    | with_reducible apply keepsOut_ite
    | with_reducible apply keeps_ite
    | with_reducible apply keepsOut_next
    | split
    | refine State.takeMsg_keeps' (by with_reducible assumption) ?_

theorem execMirrorBeatReceive_keeps {s0 s : State} (h_ : Keeps s0 s) (port : Fin 12) (m : Msg) :
    KeepsOut s0 (execMirrorBeatReceive port m s) := by
  unfold execMirrorBeatReceive
  repeat' first
    | with_reducible assumption
    | with_reducible apply keepsOut_ite
    | with_reducible apply keeps_ite
    | with_reducible apply keepsOut_next
    | simp -zeta only [keeps_mk1, keeps_mk2]
    | split
    | refine State.takeMsg_keeps' (by with_reducible assumption) ?_

theorem execMirrorBeatSend_keeps {s0 s : State} (h_ : Keeps s0 s) (p : Fin 16) :
    KeepsOut s0 (execMirrorBeatSend p s) := by
  unfold execMirrorBeatSend
  repeat' first
    | with_reducible assumption
    | with_reducible apply State.post_keeps
    | with_reducible apply keepsOut_ite
    | with_reducible apply keeps_ite
    | with_reducible apply keepsOut_next
    | split

theorem execMirrorFailover_keeps {s0 s : State} (h_ : Keeps s0 s) (p : Fin 16) :
    KeepsOut s0 (execMirrorFailover p s) := by
  unfold execMirrorFailover
  repeat' first
    | with_reducible assumption
    | with_reducible apply State.wr_keeps
    | with_reducible apply State.eventBoth_keeps
    | with_reducible apply keepsOut_ite
    | with_reducible apply keeps_ite
    | with_reducible apply keepsOut_next

end Sys2Proof.Machine
end

