-- ==== Sys2Proof/Laws/KeepsKv.lean ====
section
/-! SUPPORT. What the operations of Machine/Kv.lean never undo (Keeps of Safety.lean): one lemma per operation. -/

set_option linter.all false

namespace Sys2Proof.Machine

theorem State.kvPut_keeps {s0 s : State} (h_ : Keeps s0 s) (p : Nat) (off : Nat) (bytes : List Byte) :
    Keeps s0 (State.kvPut s p off bytes) := by
  unfold State.kvPut
  repeat' first
    | with_reducible assumption
    | (extract_lets +onlyGivenNames x; refine keeps_cut (p := Keeps s0 x) ?_ (fun hx => ?_) <;> [subst x; clear_value x])
    | (extract_lets +onlyGivenNames x; refine keeps_cut (p := Keeps s0 x.1) ?_ (fun hx => ?_) <;> [subst x; clear_value x])
    | extract_lets +onlyGivenNames x
    | with_reducible apply State.hbmWrite_keeps
    | with_reducible apply State.mirrorWrite_keeps

theorem State.setDesc_keeps {s0 s : State} (h_ : Keeps s0 s) (p : Nat) (c : Nat) (d : List Byte) :
    Keeps s0 (State.setDesc s p c d) := by
  unfold State.setDesc
  repeat' first
    | with_reducible assumption
    | with_reducible apply State.kvPut_keeps

theorem State.useDesc_keeps {s0 s : State} (h_ : Keeps s0 s) (p : Nat) (c : Nat) :
    Keeps s0 (State.useDesc s p c) := by
  unfold State.useDesc
  repeat' first
    | with_reducible assumption
    | (extract_lets +onlyGivenNames x; refine keeps_cut (p := Keeps s0 x) ?_ (fun hx => ?_) <;> [subst x; clear_value x])
    | (extract_lets +onlyGivenNames x; refine keeps_cut (p := Keeps s0 x.1) ?_ (fun hx => ?_) <;> [subst x; clear_value x])
    | extract_lets +onlyGivenNames x
    | with_reducible apply State.bump_keeps
    | with_reducible apply State.ucharge_keeps
    | with_reducible apply keeps_ite
    | simp -zeta only [keeps_mk1, keeps_mk2]

theorem State.latchUse_keeps {s0 s : State} (h_ : Keeps s0 s) (p : Nat) (c : Nat) :
    Keeps s0 (State.latchUse s p c) := by
  unfold State.latchUse
  repeat' first
    | with_reducible assumption
    | with_reducible apply State.setDesc_keeps

theorem State.follow_keeps {s0 s : State} (h_ : Keeps s0 s) (f : Fld) (p : Nat) (was : Bool) (is : Bool) :
    Keeps s0 (State.follow s f p was is) := by
  unfold State.follow
  repeat' first
    | with_reducible assumption
    | with_reducible apply State.wr_keeps
    | with_reducible apply keeps_ite

theorem State.setPageUse_keeps {s0 s : State} (h_ : Keeps s0 s) (p : Nat) (n : Nat) (v : Nat) :
    Keeps s0 (State.setPageUse s p n v) := by
  unfold State.setPageUse
  repeat' first
    | with_reducible assumption
    | (extract_lets +onlyGivenNames x; refine keeps_cut (p := Keeps s0 x) ?_ (fun hx => ?_) <;> [subst x; clear_value x])
    | (extract_lets +onlyGivenNames x; refine keeps_cut (p := Keeps s0 x.1) ?_ (fun hx => ?_) <;> [subst x; clear_value x])
    | extract_lets +onlyGivenNames x
    | with_reducible apply State.kvPut_keeps
    | with_reducible apply State.follow_keeps

theorem State.setFarUse_keeps {s0 s : State} (h_ : Keeps s0 s) (p : Nat) (m : Nat) (v : Nat) :
    Keeps s0 (State.setFarUse s p m v) := by
  unfold State.setFarUse
  repeat' first
    | with_reducible assumption
    | (extract_lets +onlyGivenNames x; refine keeps_cut (p := Keeps s0 x) ?_ (fun hx => ?_) <;> [subst x; clear_value x])
    | (extract_lets +onlyGivenNames x; refine keeps_cut (p := Keeps s0 x.1) ?_ (fun hx => ?_) <;> [subst x; clear_value x])
    | extract_lets +onlyGivenNames x
    | with_reducible apply State.kvPut_keeps
    | with_reducible apply State.follow_keeps

theorem State.setUse_keeps {s0 s : State} (h_ : Keeps s0 s) (p : Nat) (id : Nat) (v : Nat) :
    Keeps s0 (State.setUse s p id v) := by
  unfold State.setUse
  repeat' first
    | with_reducible assumption
    | with_reducible apply State.setPageUse_keeps
    | with_reducible apply State.setFarUse_keeps
    | with_reducible apply keeps_ite

theorem State.takePages_keeps {s0 s : State} (h_ : Keeps s0 s) (p n use : Nat) (far : Bool) : Keeps s0 (s.takePages p n use far).1 := by
  unfold State.takePages
  extract_lets ids t
  have k : Keeps s0 t := keeps_free h_
  exact keeps_foldl k (fun _ _ hx => State.setUse_keeps hx ..)
theorem State.takePages_keeps' {s0 s t' : State} {y} {p n use : Nat} {far : Bool} (e_ : s.takePages p n use far = (t', y)) (h_ : Keeps s0 s) :
    Keeps s0 t' := by
  have := State.takePages_keeps h_ p n use far
  rw [e_] at this
  exact this

theorem State.addLimbo_keeps {s0 s : State} (h_ : Keeps s0 s) (x : Limbo) :
    Keeps s0 (State.addLimbo s x) := by
  unfold State.addLimbo
  repeat' first
    | with_reducible assumption
    | (extract_lets +onlyGivenNames x; refine keeps_cut (p := Keeps s0 x) ?_ (fun hx => ?_) <;> [subst x; clear_value x])
    | (extract_lets +onlyGivenNames x; refine keeps_cut (p := Keeps s0 x.1) ?_ (fun hx => ?_) <;> [subst x; clear_value x])
    | extract_lets +onlyGivenNames x
    | with_reducible apply State.wr_keeps
    | simp -zeta only [keeps_mk1, keeps_mk2]

theorem State.limboPage_keeps {s0 s : State} (h_ : Keeps s0 s) (p : Nat) (id : Nat) (tag : Nat) :
    Keeps s0 (State.limboPage s p id tag) := by
  unfold State.limboPage
  repeat' first
    | with_reducible assumption
    | with_reducible apply State.setUse_keeps
    | with_reducible apply State.addLimbo_keeps
    | with_reducible apply keeps_ite

theorem State.limboNode_keeps {s0 s : State} (h_ : Keeps s0 s) (p : Nat) (np : Nat) (tag : Nat) :
    Keeps s0 (State.limboNode s p np tag) := by
  unfold State.limboNode
  repeat' first
    | with_reducible assumption
    | (extract_lets +onlyGivenNames x; refine keeps_cut (p := Keeps s0 x) ?_ (fun hx => ?_) <;> [subst x; clear_value x])
    | (extract_lets +onlyGivenNames x; refine keeps_cut (p := Keeps s0 x.1) ?_ (fun hx => ?_) <;> [subst x; clear_value x])
    | extract_lets +onlyGivenNames x
    | with_reducible apply State.addLimbo_keeps
    | with_reducible apply State.limboPage_keeps
    | with_reducible apply keeps_ite
    | simp -zeta only [keeps_mk1, keeps_mk2]

theorem State.rootSwap_keeps {s0 s : State} (h_ : Keeps s0 s) (p : Nat) (c : Nat) (d : List Byte) (root : Nat) (oldNodes : List Nat) (oldPages : List Nat) :
    Keeps s0 (State.rootSwap s p c d root oldNodes oldPages) := by
  unfold State.rootSwap
  repeat' first
    | with_reducible assumption
    | (extract_lets +onlyGivenNames x; refine keeps_cut (p := Keeps s0 x) ?_ (fun hx => ?_) <;> [subst x; clear_value x])
    | (extract_lets +onlyGivenNames x; refine keeps_cut (p := Keeps s0 x.1) ?_ (fun hx => ?_) <;> [subst x; clear_value x])
    | extract_lets +onlyGivenNames x
    | with_reducible apply State.wr_keeps
    | with_reducible apply State.bump_keeps
    | with_reducible apply State.syncHeld_keeps
    | with_reducible apply State.setDesc_keeps
    | with_reducible apply State.limboPage_keeps
    | with_reducible apply State.limboNode_keeps
    | with_reducible apply keeps_foldl
    | with_reducible apply keeps_foldl_fst
    | (intro i; intros; try beta_reduce)

theorem State.putNode_keeps {s0 s : State} (h_ : Keeps s0 s) (p : Nat) (np : Nat) (es : List Nat) :
    Keeps s0 (State.putNode s p np es) := by
  unfold State.putNode
  repeat' first
    | with_reducible assumption
    | (extract_lets +onlyGivenNames x; refine keeps_cut (p := Keeps s0 x) ?_ (fun hx => ?_) <;> [subst x; clear_value x])
    | (extract_lets +onlyGivenNames x; refine keeps_cut (p := Keeps s0 x.1) ?_ (fun hx => ?_) <;> [subst x; clear_value x])
    | extract_lets +onlyGivenNames x
    | with_reducible apply State.kvPut_keeps
    | simp -zeta only [keeps_mk1, keeps_mk2]
    | (intro i; intros; try beta_reduce)

theorem State.putTree_keeps {s0 s : State} (h_ : Keeps s0 s) (p : Nat) (pages : List Nat) (nodes : List (List Nat)) (dir : List Nat) (dn : Nat) :
    Keeps s0 (State.putTree s p pages nodes dir dn).1 := by
  unfold State.putTree
  repeat' first
    | with_reducible assumption
    | (extract_lets +onlyGivenNames x; refine keeps_cut (p := Keeps s0 x) ?_ (fun hx => ?_) <;> [subst x; clear_value x])
    | (extract_lets +onlyGivenNames x; refine keeps_cut (p := Keeps s0 x.1) ?_ (fun hx => ?_) <;> [subst x; clear_value x])
    | extract_lets +onlyGivenNames x
    | with_reducible apply loopN_keeps
    | with_reducible apply State.putNode_keeps
    | with_reducible apply keeps_fst
    | (intro i; intros; try beta_reduce)
theorem State.putTree_keeps' {s0 s t' : State} {y} {p : Nat} {pages : List Nat} {nodes : List (List Nat)} {dir : List Nat} {dn : Nat} (e_ : State.putTree s p pages nodes dir dn = (t', y)) (h_ : Keeps s0 s) : Keeps s0 t' := by
  have := State.putTree_keeps h_ p pages nodes dir dn
  rw [e_] at this
  exact this

theorem State.changeLeaves_keeps {s0 s : State} (h_ : Keeps s0 s) (p : Nat) (c : Nat) (d : List Byte) (ch : List (Nat × Nat × Nat)) (oldPages : List Nat) :
    Keeps s0 (State.changeLeaves s p c d ch oldPages) := by
  unfold State.changeLeaves
  repeat' first
    | with_reducible assumption
    | (extract_lets +onlyGivenNames x; refine keeps_cut (p := Keeps s0 x) ?_ (fun hx => ?_) <;> [subst x; clear_value x])
    | (extract_lets +onlyGivenNames x; refine keeps_cut (p := Keeps s0 x.1) ?_ (fun hx => ?_) <;> [subst x; clear_value x])
    | extract_lets +onlyGivenNames x
    | with_reducible apply State.takePages_keeps
    | with_reducible apply State.rootSwap_keeps
    | with_reducible apply State.putTree_keeps
    | split
    | refine State.takePages_keeps' (by with_reducible assumption) ?_
    | refine State.putTree_keeps' (by with_reducible assumption) ?_

theorem State.kvDone_keeps {s0 s : State} (h_ : Keeps s0 s) (h : Hdr) (status : Nat) (result : Nat) :
    Keeps s0 (State.kvDone s h status result) := by
  unfold State.kvDone
  repeat' first
    | with_reducible assumption
    | with_reducible apply State.complete_keeps
    | with_reducible apply keeps_ite
    | simp -zeta only [keeps_mk1, keeps_mk2]

theorem State.flushHeld_keeps {s0 s : State} (h_ : Keeps s0 s) (p : Nat) :
    Keeps s0 (State.flushHeld s p) := by
  unfold State.flushHeld
  repeat' first
    | with_reducible assumption
    | (extract_lets +onlyGivenNames x; refine keeps_cut (p := Keeps s0 x) ?_ (fun hx => ?_) <;> [subst x; clear_value x])
    | (extract_lets +onlyGivenNames x; refine keeps_cut (p := Keeps s0 x.1) ?_ (fun hx => ?_) <;> [subst x; clear_value x])
    | extract_lets +onlyGivenNames x
    | with_reducible apply State.complete_keeps
    | with_reducible apply keeps_foldl
    | with_reducible apply keeps_foldl_fst
    | with_reducible apply keeps_ite
    | simp -zeta only [keeps_mk1, keeps_mk2]
    | (intro i; intros; try beta_reduce)

theorem State.setMove_keeps {s0 s : State} (h_ : Keeps s0 s) (m : Move) :
    Keeps s0 (State.setMove s m) := by
  unfold State.setMove
  repeat' first
    | with_reducible assumption
    | with_reducible apply keeps_ite
    | simp -zeta only [keeps_mk1, keeps_mk2]
    | (intro i; intros; try beta_reduce)

theorem State.setEdits_keeps {s0 s : State} (h_ : Keeps s0 s) (p : Nat) (l : List (Hdr × Instr)) :
    Keeps s0 (State.setEdits s p l) := by
  unfold State.setEdits
  repeat' first
    | with_reducible assumption
    | simp -zeta only [keeps_mk1, keeps_mk2]

theorem State.fitsLimbo_keeps {s0 t : State} (h_ : Keeps s0 t) (p : Nat) :
    KeepsO s0 (State.fitsLimbo p t) := by
  unfold State.fitsLimbo
  repeat' first
    | with_reducible assumption
    | with_reducible apply keepsO_ite
    | with_reducible apply keeps_ite
    | with_reducible apply keepsO_none
    | with_reducible apply keepsO_some
theorem State.fitsLimbo_keeps' {s0 t t' : State} {p : Nat} (e_ : State.fitsLimbo p t = some t') (h_ : Keeps s0 t) : Keeps s0 t' := State.fitsLimbo_keeps h_ p t' e_

theorem State.onContext_keeps {s0 s : State} (h_ : Keeps s0 s) (h : Hdr) (c : Nat) (go : List Byte → State) (hgo : ∀ d, Keeps s0 (go d)) :
    Keeps s0 (s.onContext h c go) := by
  have k := State.useDesc_keeps h_ (paddockOf h) c
  exact keeps_ite (State.kvDone_keeps k ..) (keeps_ite (State.kvDone_keeps k ..) (hgo _))

theorem State.doCreate_keeps {s0 s : State} (h_ : Keeps s0 s) (h : Hdr) (c : Nat) (fmt : Nat) (head : Nat) (kvHeadsM1 : Nat) (depth : Nat) (layersM1 : Nat) (place : Nat) (prio : Nat) (flags : Nat) (tag : Nat) :
    Keeps s0 (State.doCreate s h c fmt head kvHeadsM1 depth layersM1 place prio flags tag) := by
  unfold State.doCreate
  repeat' first
    | with_reducible assumption
    | (extract_lets +onlyGivenNames x; refine keeps_cut (p := Keeps s0 x) ?_ (fun hx => ?_) <;> [subst x; clear_value x])
    | (extract_lets +onlyGivenNames x; refine keeps_cut (p := Keeps s0 x.1) ?_ (fun hx => ?_) <;> [subst x; clear_value x])
    | extract_lets +onlyGivenNames x
    | with_reducible apply State.useDesc_keeps
    | with_reducible apply State.takePages_keeps
    | with_reducible apply State.rootSwap_keeps
    | with_reducible apply State.putTree_keeps
    | with_reducible apply State.kvDone_keeps
    | with_reducible apply keeps_ite
    | split
    | refine State.takePages_keeps' (by with_reducible assumption) ?_
    | refine State.putTree_keeps' (by with_reducible assumption) ?_

theorem State.doDestroy_keeps {s0 s : State} (h_ : Keeps s0 s) (h : Hdr) (c : Nat) :
    Keeps s0 (State.doDestroy s h c) := by
  unfold State.doDestroy
  repeat' first
    | with_reducible assumption
    | (extract_lets +onlyGivenNames x; refine keeps_cut (p := Keeps s0 x) ?_ (fun hx => ?_) <;> [subst x; clear_value x])
    | (extract_lets +onlyGivenNames x; refine keeps_cut (p := Keeps s0 x.1) ?_ (fun hx => ?_) <;> [subst x; clear_value x])
    | extract_lets +onlyGivenNames x
    | with_reducible apply State.useDesc_keeps
    | with_reducible apply State.rootSwap_keeps
    | with_reducible apply State.kvDone_keeps
    | with_reducible apply State.onContext_keeps
    | (intro i; intros; try beta_reduce)

theorem State.doSet_keeps {s0 s : State} (h_ : Keeps s0 s) (h : Hdr) (c : Nat) (select : Nat) (prio : Nat) (flags : Nat) (length : Nat) (tag : Nat) :
    Keeps s0 (State.doSet s h c select prio flags length tag) := by
  unfold State.doSet
  repeat' first
    | with_reducible assumption
    | (extract_lets +onlyGivenNames x; refine keeps_cut (p := Keeps s0 x) ?_ (fun hx => ?_) <;> [subst x; clear_value x])
    | (extract_lets +onlyGivenNames x; refine keeps_cut (p := Keeps s0 x.1) ?_ (fun hx => ?_) <;> [subst x; clear_value x])
    | extract_lets +onlyGivenNames x
    | with_reducible apply State.setDesc_keeps
    | with_reducible apply State.useDesc_keeps
    | with_reducible apply State.kvDone_keeps
    | with_reducible apply State.onContext_keeps
    | with_reducible apply keeps_ite
    | (intro i; intros; try beta_reduce)

theorem State.doPoolAdd_keeps {s0 s : State} (h_ : Keeps s0 s) (h : Hdr) (n0 : Nat) (k : Nat) :
    Keeps s0 (State.doPoolAdd s h n0 k) := by
  unfold State.doPoolAdd
  repeat' first
    | with_reducible assumption
    | (extract_lets +onlyGivenNames x; refine keeps_cut (p := Keeps s0 x) ?_ (fun hx => ?_) <;> [subst x; clear_value x])
    | (extract_lets +onlyGivenNames x; refine keeps_cut (p := Keeps s0 x.1) ?_ (fun hx => ?_) <;> [subst x; clear_value x])
    | extract_lets +onlyGivenNames x
    | with_reducible apply loopN_keeps
    | with_reducible apply State.setPageUse_keeps
    | with_reducible apply State.kvDone_keeps
    | with_reducible apply keeps_ite
    | (intro i; intros; try beta_reduce)

theorem State.doPoolRemove_keeps {s0 s : State} (h_ : Keeps s0 s) (h : Hdr) (n0 : Nat) (k : Nat) :
    Keeps s0 (State.doPoolRemove s h n0 k) := by
  unfold State.doPoolRemove
  repeat' first
    | with_reducible assumption
    | (extract_lets +onlyGivenNames x; refine keeps_cut (p := Keeps s0 x) ?_ (fun hx => ?_) <;> [subst x; clear_value x])
    | (extract_lets +onlyGivenNames x; refine keeps_cut (p := Keeps s0 x.1) ?_ (fun hx => ?_) <;> [subst x; clear_value x])
    | extract_lets +onlyGivenNames x
    | with_reducible apply loopN_keeps
    | with_reducible apply State.setPageUse_keeps
    | with_reducible apply State.kvDone_keeps
    | with_reducible apply keeps_ite
    | (intro i; intros; try beta_reduce)

theorem State.doMap_keeps {s0 s : State} (h_ : Keeps s0 s) (h : Hdr) (c : Nat) (tier : Nat) (lo : Nat) (hi : Nat) :
    Keeps s0 (State.doMap s h c tier lo hi) := by
  unfold State.doMap
  repeat' first
    | with_reducible assumption
    | (extract_lets +onlyGivenNames x; refine keeps_cut (p := Keeps s0 x) ?_ (fun hx => ?_) <;> [subst x; clear_value x])
    | (extract_lets +onlyGivenNames x; refine keeps_cut (p := Keeps s0 x.1) ?_ (fun hx => ?_) <;> [subst x; clear_value x])
    | extract_lets +onlyGivenNames x
    | with_reducible apply State.useDesc_keeps
    | with_reducible apply State.takePages_keeps
    | with_reducible apply State.changeLeaves_keeps
    | with_reducible apply State.kvDone_keeps
    | with_reducible apply State.onContext_keeps
    | with_reducible apply keeps_ite
    | with_reducible apply keeps_free
    | split
    | (intro i; intros; try beta_reduce)
    | refine State.takePages_keeps' (by with_reducible assumption) ?_

theorem State.releaseLeaves_keeps {s0 s : State} (h_ : Keeps s0 s) (p : Nat) (c : Nat) (d : List Byte) (ls : List (Nat × Nat)) (e : Nat) :
    Keeps s0 (State.releaseLeaves s p c d ls e).1 := by
  unfold State.releaseLeaves
  repeat' first
    | with_reducible assumption
    | (extract_lets +onlyGivenNames x; refine keeps_cut (p := Keeps s0 x) ?_ (fun hx => ?_) <;> [subst x; clear_value x])
    | (extract_lets +onlyGivenNames x; refine keeps_cut (p := Keeps s0 x.1) ?_ (fun hx => ?_) <;> [subst x; clear_value x])
    | extract_lets +onlyGivenNames x
    | with_reducible apply State.changeLeaves_keeps
    | with_reducible apply keepsP_ite
    | with_reducible apply keeps_ite
    | with_reducible apply keeps_fst
    | (intro i; intros; try beta_reduce)
theorem State.releaseLeaves_keeps' {s0 s t' : State} {y} {p : Nat} {c : Nat} {d : List Byte} {ls : List (Nat × Nat)} {e : Nat} (e_ : State.releaseLeaves s p c d ls e = (t', y)) (h_ : Keeps s0 s) : Keeps s0 t' := by
  have := State.releaseLeaves_keeps h_ p c d ls e
  rw [e_] at this
  exact this

theorem State.doUnmap_keeps {s0 s : State} (h_ : Keeps s0 s) (h : Hdr) (c : Nat) (lo : Nat) (hi : Nat) :
    Keeps s0 (State.doUnmap s h c lo hi) := by
  unfold State.doUnmap
  repeat' first
    | with_reducible assumption
    | (extract_lets +onlyGivenNames x; refine keeps_cut (p := Keeps s0 x) ?_ (fun hx => ?_) <;> [subst x; clear_value x])
    | (extract_lets +onlyGivenNames x; refine keeps_cut (p := Keeps s0 x.1) ?_ (fun hx => ?_) <;> [subst x; clear_value x])
    | extract_lets +onlyGivenNames x
    | with_reducible apply State.useDesc_keeps
    | with_reducible apply State.kvDone_keeps
    | with_reducible apply State.onContext_keeps
    | with_reducible apply State.releaseLeaves_keeps
    | with_reducible apply keeps_ite
    | (intro i; intros; try beta_reduce)
    | refine State.releaseLeaves_keeps' (by with_reducible assumption) ?_

theorem State.dropPages_keeps {s0 s : State} (h_ : Keeps s0 s) (p : Nat) (c : Nat) (is : List Nat) :
    KeepsOP s0 (State.dropPages s p c is) := by
  unfold State.dropPages
  repeat' first
    | with_reducible assumption
    | (extract_lets +onlyGivenNames x; refine keeps_cut (p := Keeps s0 x) ?_ (fun hx => ?_) <;> [subst x; clear_value x])
    | (extract_lets +onlyGivenNames x; refine keeps_cut (p := Keeps s0 x.1) ?_ (fun hx => ?_) <;> [subst x; clear_value x])
    | extract_lets +onlyGivenNames x
    | with_reducible apply State.bump_keeps
    | with_reducible apply State.releaseLeaves_keeps
    | with_reducible apply keepsOP_ite
    | with_reducible apply keeps_ite
    | with_reducible apply keepsOP_none
    | with_reducible apply keepsOP_some
    | (intro i; intros; try beta_reduce)
    | refine State.releaseLeaves_keeps' (by with_reducible assumption) ?_
theorem State.dropPages_keeps' {s0 s t' : State} {y} {p : Nat} {c : Nat} {is : List Nat} (e_ : State.dropPages s p c is = some (t', y)) (h_ : Keeps s0 s) : Keeps s0 t' := State.dropPages_keeps h_ p c is t' _ e_

theorem State.doDrop_keeps {s0 s : State} (h_ : Keeps s0 s) (h : Hdr) (c : Nat) (lo : Nat) (hi : Nat) :
    Keeps s0 (State.doDrop s h c lo hi) := by
  unfold State.doDrop
  repeat' first
    | with_reducible assumption
    | (extract_lets +onlyGivenNames x; refine keeps_cut (p := Keeps s0 x) ?_ (fun hx => ?_) <;> [subst x; clear_value x])
    | (extract_lets +onlyGivenNames x; refine keeps_cut (p := Keeps s0 x.1) ?_ (fun hx => ?_) <;> [subst x; clear_value x])
    | extract_lets +onlyGivenNames x
    | with_reducible apply State.useDesc_keeps
    | with_reducible apply State.kvDone_keeps
    | with_reducible apply State.onContext_keeps
    | with_reducible apply keeps_ite
    | split
    | (intro i; intros; try beta_reduce)
    | refine State.dropPages_keeps' (by with_reducible assumption) ?_

theorem State.markMoving_keeps {s0 s : State} (h_ : Keeps s0 s) (p : Nat) (d : List Byte) (i : Nat) (on : Bool) :
    Keeps s0 (State.markMoving s p d i on) := by
  unfold State.markMoving
  repeat' first
    | with_reducible assumption
    | (extract_lets +onlyGivenNames x; refine keeps_cut (p := Keeps s0 x) ?_ (fun hx => ?_) <;> [subst x; clear_value x])
    | (extract_lets +onlyGivenNames x; refine keeps_cut (p := Keeps s0 x.1) ?_ (fun hx => ?_) <;> [subst x; clear_value x])
    | extract_lets +onlyGivenNames x
    | with_reducible apply loopN_keeps
    | with_reducible apply State.kvPut_keeps
    | with_reducible apply keeps_ite
    | split
    | (intro i; intros; try beta_reduce)

theorem State.beginPage_keeps {s0 s : State} (h_ : Keeps s0 s) (m : Move) :
    Keeps s0 (State.beginPage s m) := by
  unfold State.beginPage
  repeat' first
    | with_reducible assumption
    | (extract_lets +onlyGivenNames x; refine keeps_cut (p := Keeps s0 x) ?_ (fun hx => ?_) <;> [subst x; clear_value x])
    | (extract_lets +onlyGivenNames x; refine keeps_cut (p := Keeps s0 x.1) ?_ (fun hx => ?_) <;> [subst x; clear_value x])
    | extract_lets +onlyGivenNames x
    | with_reducible apply State.takePages_keeps
    | with_reducible apply State.setMove_keeps
    | with_reducible apply State.markMoving_keeps
    | simp -zeta only [keeps_mk1, keeps_mk2]
    | split
    | (intro i; intros; try beta_reduce)
    | refine State.takePages_keeps' (by with_reducible assumption) ?_

theorem State.beginMove_keeps {s0 s : State} (h_ : Keeps s0 s) (h : Option Hdr) (p : Nat) (c : Nat) (toFar : Bool) (is : List Nat) :
    Keeps s0 (State.beginMove s h p c toFar is) := by
  unfold State.beginMove
  repeat' first
    | with_reducible assumption
    | (extract_lets +onlyGivenNames x; refine keeps_cut (p := Keeps s0 x) ?_ (fun hx => ?_) <;> [subst x; clear_value x])
    | (extract_lets +onlyGivenNames x; refine keeps_cut (p := Keeps s0 x.1) ?_ (fun hx => ?_) <;> [subst x; clear_value x])
    | extract_lets +onlyGivenNames x
    | with_reducible apply State.beginPage_keeps
    | simp -zeta only [keeps_mk1, keeps_mk2]

theorem State.doMove_keeps {s0 s : State} (h_ : Keeps s0 s) (h : Hdr) (c : Nat) (lo : Nat) (hi : Nat) (toFar : Bool) :
    Keeps s0 (State.doMove s h c lo hi toFar) := by
  unfold State.doMove
  repeat' first
    | with_reducible assumption
    | (extract_lets +onlyGivenNames x; refine keeps_cut (p := Keeps s0 x) ?_ (fun hx => ?_) <;> [subst x; clear_value x])
    | (extract_lets +onlyGivenNames x; refine keeps_cut (p := Keeps s0 x.1) ?_ (fun hx => ?_) <;> [subst x; clear_value x])
    | extract_lets +onlyGivenNames x
    | with_reducible apply State.useDesc_keeps
    | with_reducible apply State.kvDone_keeps
    | with_reducible apply State.onContext_keeps
    | with_reducible apply State.beginMove_keeps
    | with_reducible apply keeps_ite
    | (intro i; intros; try beta_reduce)

end Sys2Proof.Machine
end

