-- ==== Sys2Proof/Laws/KeepsAppend.lean ====
section
/-! SUPPORT. What the operations of Machine/Append.lean never undo (Keeps of Safety.lean): one lemma per operation. -/

set_option linter.all false

namespace Sys2Proof.Machine

theorem execKvAppend_keeps {s0 s : State} (h_ : Keeps s0 s) (a : At) (errs : List ShelfErr) :
    KeepsOut s0 (execKvAppend a errs s) := by
  unfold execKvAppend
  repeat' first
    | with_reducible assumption
    | (extract_lets +onlyGivenNames x; refine keeps_cut (p := Keeps s0 x) ?_ (fun hx => ?_) <;> [subst x; clear_value x])
    | (extract_lets +onlyGivenNames x; refine keeps_cut (p := Keeps s0 x.1) ?_ (fun hx => ?_) <;> [subst x; clear_value x])
    | extract_lets +onlyGivenNames x
    | with_reducible apply State.addOp_keeps
    | with_reducible apply State.issueAs_keeps
    | with_reducible apply keepsOut_next
    | simp -zeta only [keeps_mk1, keeps_mk2]
    | (intro i; intros; try beta_reduce)

theorem State.setAppBuf_keeps {s0 s : State} (h_ : Keeps s0 s) (c : Nat) (m : Nat) (l : List AppTile) :
    Keeps s0 (State.setAppBuf s c m l) := by
  unfold State.setAppBuf
  repeat' first
    | with_reducible assumption
    | simp -zeta only [keeps_mk1, keeps_mk2]

theorem execKvAppendHandoff_keeps {s0 s : State} (h_ : Keeps s0 s) (core : Fin 128) (upsets : List (Nat × Nat)) :
    KeepsOut s0 (execKvAppendHandoff core upsets s) := by
  unfold execKvAppendHandoff
  repeat' first
    | with_reducible assumption
    | (extract_lets +onlyGivenNames x; refine keeps_cut (p := Keeps s0 x) ?_ (fun hx => ?_) <;> [subst x; clear_value x])
    | (extract_lets +onlyGivenNames x; refine keeps_cut (p := Keeps s0 x.1) ?_ (fun hx => ?_) <;> [subst x; clear_value x])
    | (extract_lets +onlyGivenNames x; clear_value x)
    | with_reducible apply State.bump_keeps
    | with_reducible apply State.dropOp_keeps
    | with_reducible apply State.completeOp_keeps
    | with_reducible apply State.syncMxe_keeps
    | with_reducible apply State.tileChecks_keeps
    | with_reducible apply State.setAppBuf_keeps
    | with_reducible apply keepsOut_ite
    | with_reducible apply keeps_ite
    | with_reducible apply keepsOut_next
    | simp -zeta only [keeps_mk1, keeps_mk2]
    | with_reducible apply keeps_free
    | split
    | (intro i; intros; try beta_reduce)

theorem State.applyLen_keeps {s0 s : State} (h_ : Keeps s0 s) (p : Nat) (h : List Byte) (c : Nat) (pos : Nat) :
    Keeps s0 (State.applyLen s p h c pos) := by
  unfold State.applyLen
  repeat' first
    | with_reducible assumption
    | (extract_lets +onlyGivenNames x; refine keeps_cut (p := Keeps s0 x) ?_ (fun hx => ?_) <;> [subst x; clear_value x])
    | (extract_lets +onlyGivenNames x; refine keeps_cut (p := Keeps s0 x.1) ?_ (fun hx => ?_) <;> [subst x; clear_value x])
    | extract_lets +onlyGivenNames x
    | with_reducible apply State.setDesc_keeps
    | with_reducible apply keeps_ite

theorem State.appendRow_keeps {s0 s : State} (h_ : Keeps s0 s) (p : Nat) (h : List Byte) (c gen pos : Nat) (bytes : List Byte)
    (back : AppBack) (src stream : Nat) : Keeps s0 (s.appendRow p h c gen pos bytes back src stream).1 := by
  unfold State.appendRow
  extract_lets t d es home d2 t4 src1 t2 id row src0 t3 t5
  have k : Keeps s0 t := keeps_ite (State.useDesc_keeps h_ ..) h_
  have k2 : Keeps s0 t2 := State.bump_keeps (State.latchUse_keeps k ..) ..
  have k3 : Keeps s0 t3 := keeps_mk1.2 k2
  have k4 : Keeps s0 t4 := State.bump_keeps (State.bump_keeps (State.setDesc_keeps k ..) ..) ..
  have k5 : Keeps s0 t5 := loopN_keeps k3 _ _ (fun _ _ hx => State.addLine_keeps hx ..)
  clear_value t5 t4 src1
  refine keepsP_ite (State.bump_keeps k ..) (keepsP_ite ?_ (State.syncHeld_keeps (State.applyLen_keeps k5 ..) ..))
  exact keepsP_ite (State.bump_keeps k ..) (keepsP_ite (State.violation_keeps k ..) (keeps_mk1.2 k4))
theorem State.appendRow_keeps' {s0 s t' : State} {y} {p : Nat} {h : List Byte} {c gen pos : Nat} {bytes : List Byte} {back : AppBack}
    {src stream : Nat} (e_ : s.appendRow p h c gen pos bytes back src stream = (t', y)) (h_ : Keeps s0 s) : Keeps s0 t' := by
  have := State.appendRow_keeps h_ p h c gen pos bytes back src stream
  rw [e_] at this
  exact this

theorem State.appendAck_keeps {s0 s : State} (h_ : Keeps s0 s) (id : Nat) (status : Nat) :
    Keeps s0 (State.appendAck s id status) := by
  unfold State.appendAck
  repeat' first
    | with_reducible assumption
    | (extract_lets +onlyGivenNames x; refine keeps_cut (p := Keeps s0 x) ?_ (fun hx => ?_) <;> [subst x; clear_value x])
    | (extract_lets +onlyGivenNames x; refine keeps_cut (p := Keeps s0 x.1) ?_ (fun hx => ?_) <;> [subst x; clear_value x])
    | extract_lets +onlyGivenNames x
    | with_reducible apply State.abort_keeps
    | with_reducible apply State.setOp_keeps
    | with_reducible apply State.warnSide_keeps
    | with_reducible apply keeps_ite
    | simp -zeta only [keeps_mk1, keeps_mk2]
    | split

theorem State.rowBack_keeps {s0 s : State} (h_ : Keeps s0 s) (p : Nat) (back : AppBack) (status : Nat) :
    Keeps s0 (State.rowBack s p back status) := by
  unfold State.rowBack
  repeat' first
    | with_reducible assumption
    | with_reducible apply State.ackMsg_keeps
    | with_reducible apply State.appendAck_keeps
    | with_reducible apply keeps_ite
    | split

theorem State.finishRow_keeps {s0 s : State} (h_ : Keeps s0 s) (id : Nat) :
    Keeps s0 (State.finishRow s id) := by
  unfold State.finishRow
  repeat' first
    | with_reducible assumption
    | (extract_lets +onlyGivenNames x; refine keeps_cut (p := Keeps s0 x) ?_ (fun hx => ?_) <;> [subst x; clear_value x])
    | (extract_lets +onlyGivenNames x; refine keeps_cut (p := Keeps s0 x.1) ?_ (fun hx => ?_) <;> [subst x; clear_value x])
    | extract_lets +onlyGivenNames x
    | with_reducible apply State.syncHeld_keeps
    | with_reducible apply State.rowBack_keeps
    | with_reducible apply keeps_ite
    | simp -zeta only [keeps_mk1, keeps_mk2]
    | split
    | (intro i; intros; try beta_reduce)

theorem State.rowLineDone_keeps {s0 s : State} (h_ : Keeps s0 s) (id : Nat) (l : Line) :
    Keeps s0 (State.rowLineDone s id l) := by
  unfold State.rowLineDone
  repeat' first
    | with_reducible assumption
    | (extract_lets +onlyGivenNames x; refine keeps_cut (p := Keeps s0 x) ?_ (fun hx => ?_) <;> [subst x; clear_value x])
    | (extract_lets +onlyGivenNames x; refine keeps_cut (p := Keeps s0 x.1) ?_ (fun hx => ?_) <;> [subst x; clear_value x])
    | extract_lets +onlyGivenNames x
    | with_reducible apply State.mirrorWrite_keeps
    | with_reducible apply State.finishRow_keeps
    | with_reducible apply keeps_ite
    | simp -zeta only [keeps_mk1, keeps_mk2]
    | (intro i; intros; try beta_reduce)

theorem State.mirrorAcked_keeps {s0 s : State} (h_ : Keeps s0 s) (p : Nat) (xid : Nat) :
    Keeps s0 (State.mirrorAcked s p xid) := by
  unfold State.mirrorAcked
  repeat' first
    | with_reducible assumption
    | (extract_lets +onlyGivenNames x; refine keeps_cut (p := Keeps s0 x) ?_ (fun hx => ?_) <;> [subst x; clear_value x])
    | (extract_lets +onlyGivenNames x; refine keeps_cut (p := Keeps s0 x.1) ?_ (fun hx => ?_) <;> [subst x; clear_value x])
    | extract_lets +onlyGivenNames x
    | with_reducible apply State.flushHeld_keeps
    | with_reducible apply State.finishRow_keeps
    | with_reducible apply keeps_foldl
    | with_reducible apply keeps_foldl_fst
    | with_reducible apply keeps_ite
    | simp -zeta only [keeps_mk1, keeps_mk2]
    | (intro i; intros; try beta_reduce)

theorem execMirrorBroken_keeps {s0 s : State} (h_ : Keeps s0 s) (p : Fin 16) :
    KeepsOut s0 (execMirrorBroken p s) := by
  unfold execMirrorBroken
  repeat' first
    | with_reducible assumption
    | (extract_lets +onlyGivenNames x; refine keeps_cut (p := Keeps s0 x) ?_ (fun hx => ?_) <;> [subst x; clear_value x])
    | (extract_lets +onlyGivenNames x; refine keeps_cut (p := Keeps s0 x.1) ?_ (fun hx => ?_) <;> [subst x; clear_value x])
    | extract_lets +onlyGivenNames x
    | with_reducible apply State.wr_keeps
    | with_reducible apply State.eventBoth_keeps
    | with_reducible apply State.abortScope1_keeps
    | with_reducible apply State.quiesce_keeps
    | with_reducible apply State.mirrorAcked_keeps
    | with_reducible apply keeps_foldl
    | with_reducible apply keeps_foldl_fst
    | with_reducible apply keepsOut_ite
    | with_reducible apply keeps_ite
    | with_reducible apply keepsOut_next
    | (intro i; intros; try beta_reduce)
    | refine State.abortScope1_keeps' (by with_reducible assumption) ?_

theorem State.sendTile_keeps {s0 s : State} (h_ : Keeps s0 s) (o : Op) (a : Append) (t : AppTile) :
    Keeps s0 (State.sendTile s o a t) := by
  unfold State.sendTile
  repeat' first
    | with_reducible assumption
    | (extract_lets +onlyGivenNames x; refine keeps_cut (p := Keeps s0 x) ?_ (fun hx => ?_) <;> [subst x; clear_value x])
    | (extract_lets +onlyGivenNames x; refine keeps_cut (p := Keeps s0 x.1) ?_ (fun hx => ?_) <;> [subst x; clear_value x])
    | (extract_lets +onlyGivenNames x; clear_value x)
    | with_reducible apply State.abort_keeps
    | with_reducible apply State.countOutputs_keeps
    | with_reducible apply State.setOp_keeps
    | with_reducible apply State.dropOp_keeps
    | with_reducible apply State.syncMxe_keeps
    | with_reducible apply State.addLine_keeps
    | with_reducible apply State.setAppBuf_keeps
    | with_reducible apply State.appendRow_keeps
    | with_reducible apply State.appendAck_keeps
    | with_reducible apply keeps_foldl
    | with_reducible apply keeps_foldl_fst
    | with_reducible apply keeps_ite
    | simp -zeta only [keeps_mk1, keeps_mk2]
    | split
    | (intro i; intros; try beta_reduce)
    | refine State.appendRow_keeps' (by with_reducible assumption) ?_

theorem State.pumpAppend_keeps {s0 s : State} (h_ : Keeps s0 s) (c : Nat) :
    Keeps s0 (State.pumpAppend s c) := by
  unfold State.pumpAppend
  repeat' first
    | with_reducible assumption
    | (extract_lets +onlyGivenNames x; refine keeps_cut (p := Keeps s0 x) ?_ (fun hx => ?_) <;> [subst x; clear_value x])
    | (extract_lets +onlyGivenNames x; refine keeps_cut (p := Keeps s0 x.1) ?_ (fun hx => ?_) <;> [subst x; clear_value x])
    | extract_lets +onlyGivenNames x
    | with_reducible apply loopN_keeps
    | with_reducible apply State.abort_keeps
    | with_reducible apply State.sendTile_keeps
    | with_reducible apply keeps_foldl
    | with_reducible apply keeps_foldl_fst
    | with_reducible apply keeps_ite
    | split
    | (intro i; intros; try beta_reduce)

theorem execKvAppendComplete_keeps {s0 s : State} (h_ : Keeps s0 s) (core : Fin 128) :
    KeepsOut s0 (execKvAppendComplete core s) := by
  unfold execKvAppendComplete
  repeat' first
    | with_reducible assumption
    | (extract_lets +onlyGivenNames x; refine keeps_cut (p := Keeps s0 x) ?_ (fun hx => ?_) <;> [subst x; clear_value x])
    | (extract_lets +onlyGivenNames x; refine keeps_cut (p := Keeps s0 x.1) ?_ (fun hx => ?_) <;> [subst x; clear_value x])
    | (extract_lets +onlyGivenNames x; clear_value x)
    | with_reducible apply State.completeOp_keeps
    | with_reducible apply keepsOut_next
    | split
    | (intro i; intros; try beta_reduce)

theorem execAppendMessageReceive_keeps {s0 s : State} (h_ : Keeps s0 s) (port : Option (Fin 12)) (m : Msg) :
    KeepsOut s0 (execAppendMessageReceive port m s) := by
  unfold execAppendMessageReceive
  repeat' first
    | with_reducible assumption
    | (extract_lets +onlyGivenNames x; refine keeps_cut (p := Keeps s0 x) ?_ (fun hx => ?_) <;> [subst x; clear_value x])
    | (extract_lets +onlyGivenNames x; refine keeps_cut (p := Keeps s0 x.1) ?_ (fun hx => ?_) <;> [subst x; clear_value x])
    | extract_lets +onlyGivenNames x
    | with_reducible apply State.ackMsg_keeps
    | with_reducible apply State.receiveMsg_keeps
    | with_reducible apply State.appendRow_keeps
    | with_reducible apply keepsOut_ite
    | with_reducible apply keeps_ite
    | with_reducible apply keepsOut_next
    | (intro i; intros; try beta_reduce)
    | refine State.appendRow_keeps' (by with_reducible assumption) ?_

theorem State.undefer_keeps {s0 s : State} (h_ : Keeps s0 s) (p : Nat) (c : Nat) :
    Keeps s0 (State.undefer s p c) := by
  unfold State.undefer
  repeat' first
    | with_reducible assumption
    | with_reducible apply State.setDesc_keeps
    | with_reducible apply keeps_ite

theorem State.scatterRow_keeps {s0 s : State} (h_ : Keeps s0 s) (p core : Nat) (z : Scatter) : Keeps s0 (s.scatterRow p core z).1 := by
  unfold State.scatterRow
  split
  · exact h_
  · rename_i t r e
    have k := State.popSlot_keeps' e h_
    extract_lets row h c gen pos t2
    have k2 : Keeps s0 t2 := keeps_ite (State.useDesc_keeps k ..) k
    clear_value t2
    refine keepsP_ite (State.bump_keeps (State.undefer_keeps k2 ..) ..) ?_
    extract_lets es blocked
    refine keepsP_ite ?_ ?_
    · show Keeps s0 (match t2.claimSlot core 63 with | some (t, q) => _ | none => _)
      split
      · rename_i e
        exact State.commitRow_keeps (State.claimSlot_keeps' e k2) ..
      · exact k2
    · refine State.bump_keeps (State.undefer_keeps (State.applyLen_keeps (loopN_keeps (State.latchUse_keeps k2 ..) _ _ ?_) ..) ..) ..
      exact fun _ _ hx => State.mirrorWrite_keeps (State.ptrWrite_keeps hx ..) ..
theorem State.scatterRow_keeps' {s0 s t' : State} {y} {p core : Nat} {z : Scatter} (e_ : s.scatterRow p core z = (t', y))
    (h_ : Keeps s0 s) : Keeps s0 t' := by
  have := State.scatterRow_keeps h_ p core z
  rw [e_] at this
  exact this

theorem State.syncDeferLo_keeps {s0 s : State} (h_ : Keeps s0 s) (p : Nat) (touched : List Nat) :
    Keeps s0 (State.syncDeferLo s p touched) := by
  unfold State.syncDeferLo
  repeat' first
    | with_reducible assumption
    | (extract_lets +onlyGivenNames x; refine keeps_cut (p := Keeps s0 x) ?_ (fun hx => ?_) <;> [subst x; clear_value x])
    | (extract_lets +onlyGivenNames x; refine keeps_cut (p := Keeps s0 x.1) ?_ (fun hx => ?_) <;> [subst x; clear_value x])
    | extract_lets +onlyGivenNames x
    | with_reducible apply State.setDesc_keeps
    | with_reducible apply keeps_foldl
    | with_reducible apply keeps_foldl_fst
    | with_reducible apply keeps_ite
    | (intro i; intros; try beta_reduce)

theorem State.scatter_keeps {s0 s : State} (h_ : Keeps s0 s) (p : Nat) :
    Keeps s0 (State.scatter s p).1 := by
  unfold State.scatter
  repeat' first
    | with_reducible assumption
    | (extract_lets +onlyGivenNames x; refine keeps_cut (p := Keeps s0 x) ?_ (fun hx => ?_) <;> [subst x; clear_value x])
    | (extract_lets +onlyGivenNames x; refine keeps_cut (p := Keeps s0 x.1) ?_ (fun hx => ?_) <;> [subst x; clear_value x])
    | extract_lets +onlyGivenNames x
    | with_reducible apply State.scatterRow_keeps
    | with_reducible apply State.syncDeferLo_keeps
    | with_reducible apply keeps_foldl
    | with_reducible apply keeps_foldl_fst
    | with_reducible apply keeps_fst
    | simp -zeta only [keeps_mk1, keeps_mk2]
    | (intro i; intros; try beta_reduce)
    | refine State.scatterRow_keeps' (by with_reducible assumption) ?_
theorem State.scatter_keeps' {s0 s t' : State} {y} {p : Nat} (e_ : State.scatter s p = (t', y)) (h_ : Keeps s0 s) : Keeps s0 t' := by
  have := State.scatter_keeps h_ p
  rw [e_] at this
  exact this

theorem State.discardDeferred_keeps {s0 s : State} (h_ : Keeps s0 s) (p : Nat) :
    Keeps s0 (State.discardDeferred s p) := by
  unfold State.discardDeferred
  repeat' first
    | with_reducible assumption
    | (extract_lets +onlyGivenNames x; refine keeps_cut (p := Keeps s0 x) ?_ (fun hx => ?_) <;> [subst x; clear_value x])
    | (extract_lets +onlyGivenNames x; refine keeps_cut (p := Keeps s0 x.1) ?_ (fun hx => ?_) <;> [subst x; clear_value x])
    | extract_lets +onlyGivenNames x
    | with_reducible apply State.bump_keeps
    | with_reducible apply loopN_keeps
    | with_reducible apply State.resetDrawer_keeps
    | with_reducible apply State.setDesc_keeps
    | with_reducible apply keeps_foldl
    | with_reducible apply keeps_foldl_fst
    | (intro i; intros; try beta_reduce)

end Sys2Proof.Machine
end

