-- ==== Sys2Proof/Laws/KeepsEdits.lean ====
section
/-! SUPPORT. What the operations of Machine/Edits.lean never undo (Keeps of Safety.lean): one lemma per operation. -/

set_option linter.all false

namespace Sys2Proof.Machine

theorem State.doEdit_keeps {s0 s : State} (h_ : Keeps s0 s) (i : Instr) :
    Keeps s0 (State.doEdit s i) := by
  unfold State.doEdit
  repeat' first
    | with_reducible assumption
    | (extract_lets +onlyGivenNames x; refine keeps_cut (p := Keeps s0 x) ?_ (fun hx => ?_) <;> [subst x; clear_value x])
    | (extract_lets +onlyGivenNames x; refine keeps_cut (p := Keeps s0 x.1) ?_ (fun hx => ?_) <;> [subst x; clear_value x])
    | extract_lets +onlyGivenNames x
    | with_reducible apply State.setDesc_keeps
    | with_reducible apply State.useDesc_keeps
    | with_reducible apply State.kvDone_keeps
    | with_reducible apply State.onContext_keeps
    | with_reducible apply State.doCreate_keeps
    | with_reducible apply State.doDestroy_keeps
    | with_reducible apply State.doSet_keeps
    | with_reducible apply State.doPoolAdd_keeps
    | with_reducible apply State.doPoolRemove_keeps
    | with_reducible apply State.doMap_keeps
    | with_reducible apply State.doUnmap_keeps
    | with_reducible apply State.doDrop_keeps
    | with_reducible apply State.doMove_keeps
    | with_reducible apply State.scatter_keeps
    | with_reducible apply keeps_ite
    | simp -zeta only [keeps_mk1, keeps_mk2]
    | split
    | (intro i; intros; try beta_reduce)
    | refine State.scatter_keeps' (by with_reducible assumption) ?_

theorem State.pumpEdits_keeps {s0 s : State} (h_ : Keeps s0 s) (p : Nat) :
    Keeps s0 (State.pumpEdits s p) := by
  unfold State.pumpEdits
  repeat' first
    | with_reducible assumption
    | with_reducible apply loopN_keeps
    | with_reducible apply State.setPhase_keeps
    | with_reducible apply State.setEdits_keeps
    | with_reducible apply State.doEdit_keeps
    | with_reducible apply keeps_ite
    | split
    | (intro i; intros; try beta_reduce)
    | refine State.fitsLimbo_keeps' (by with_reducible assumption) ?_

theorem State.edit_keeps {s0 s : State} (h_ : Keeps s0 s) (h : Hdr) (op : Nat) (status : Nat) (i : Instr) :
    Keeps s0 (State.edit s h op status i) := by
  unfold State.edit
  repeat' first
    | with_reducible assumption
    | (extract_lets +onlyGivenNames x; refine keeps_cut (p := Keeps s0 x) ?_ (fun hx => ?_) <;> [subst x; clear_value x])
    | (extract_lets +onlyGivenNames x; refine keeps_cut (p := Keeps s0 x.1) ?_ (fun hx => ?_) <;> [subst x; clear_value x])
    | extract_lets +onlyGivenNames x
    | with_reducible apply State.start_keeps
    | with_reducible apply State.checked_keeps
    | with_reducible apply State.setPhase_keeps
    | with_reducible apply State.setEdits_keeps
    | with_reducible apply State.pumpEdits_keeps
    | (intro i; intros; try beta_reduce)

theorem execCtxCreate_keeps {s0 s : State} (h_ : Keeps s0 s) (h : Hdr) (c : Nat) (fmt : Nat) (head : Nat) (kvHeadsM1 : Nat) (depth : Nat) (layersM1 : Nat) (place : Nat) (prio : Nat) (flags : Nat) (tag : Nat) :
    KeepsOut s0 (execCtxCreate h c fmt head kvHeadsM1 depth layersM1 place prio flags tag s) := by
  unfold execCtxCreate
  repeat' first
    | with_reducible assumption
    | (extract_lets +onlyGivenNames x; refine keeps_cut (p := Keeps s0 x) ?_ (fun hx => ?_) <;> [subst x; clear_value x])
    | (extract_lets +onlyGivenNames x; refine keeps_cut (p := Keeps s0 x.1) ?_ (fun hx => ?_) <;> [subst x; clear_value x])
    | extract_lets +onlyGivenNames x
    | with_reducible apply State.edit_keeps
    | with_reducible apply keepsOut_next

theorem execCtxDestroy_keeps {s0 s : State} (h_ : Keeps s0 s) (h : Hdr) (c : Nat) :
    KeepsOut s0 (execCtxDestroy h c s) := by
  unfold execCtxDestroy
  repeat' first
    | with_reducible assumption
    | with_reducible apply State.edit_keeps
    | with_reducible apply keepsOut_next

theorem execCtxSet_keeps {s0 s : State} (h_ : Keeps s0 s) (h : Hdr) (c : Nat) (select : Nat) (prio : Nat) (flags : Nat) (length : Nat) (tag : Nat) :
    KeepsOut s0 (execCtxSet h c select prio flags length tag s) := by
  unfold execCtxSet
  repeat' first
    | with_reducible assumption
    | (extract_lets +onlyGivenNames x; refine keeps_cut (p := Keeps s0 x) ?_ (fun hx => ?_) <;> [subst x; clear_value x])
    | (extract_lets +onlyGivenNames x; refine keeps_cut (p := Keeps s0 x.1) ?_ (fun hx => ?_) <;> [subst x; clear_value x])
    | extract_lets +onlyGivenNames x
    | with_reducible apply State.edit_keeps
    | with_reducible apply keepsOut_next

theorem execCtxRead_keeps {s0 s : State} (h_ : Keeps s0 s) (h : Hdr) (c : Nat) (out : Nat) :
    KeepsOut s0 (execCtxRead h c out s) := by
  unfold execCtxRead
  repeat' first
    | with_reducible assumption
    | (extract_lets +onlyGivenNames x; refine keeps_cut (p := Keeps s0 x) ?_ (fun hx => ?_) <;> [subst x; clear_value x])
    | (extract_lets +onlyGivenNames x; refine keeps_cut (p := Keeps s0 x.1) ?_ (fun hx => ?_) <;> [subst x; clear_value x])
    | extract_lets +onlyGivenNames x
    | with_reducible apply State.complete_keeps
    | with_reducible apply State.ptrWrite_keeps
    | with_reducible apply State.gate_keeps
    | with_reducible apply State.checked_keeps
    | with_reducible apply State.useDesc_keeps
    | with_reducible apply keepsOut_ite
    | with_reducible apply keeps_ite
    | with_reducible apply keepsOut_next
    | (intro i; intros; try beta_reduce)

theorem execCtxPlace_keeps {s0 s : State} (h_ : Keeps s0 s) (h : Hdr) (c : Nat) (place : Nat) :
    KeepsOut s0 (execCtxPlace h c place s) := by
  unfold execCtxPlace
  repeat' first
    | with_reducible assumption
    | with_reducible apply State.edit_keeps
    | with_reducible apply keepsOut_next

theorem execCtxPlaceDrained_keeps {s0 s : State} (h_ : Keeps s0 s) (h : Hdr) :
    KeepsOut s0 (execCtxPlaceDrained h s) := by
  unfold execCtxPlaceDrained
  repeat' first
    | with_reducible assumption
    | with_reducible apply State.kvDone_keeps
    | with_reducible apply keepsOut_ite
    | with_reducible apply keeps_ite
    | with_reducible apply keepsOut_next
    | simp -zeta only [keeps_mk1, keeps_mk2]
    | split
    | (intro i; intros; try beta_reduce)

theorem execKvPoolAdd_keeps {s0 s : State} (h_ : Keeps s0 s) (h : Hdr) (n0 : Nat) (k : Nat) :
    KeepsOut s0 (execKvPoolAdd h n0 k s) := by
  unfold execKvPoolAdd
  repeat' first
    | with_reducible assumption
    | with_reducible apply State.edit_keeps
    | with_reducible apply keepsOut_next

theorem execKvPoolRemove_keeps {s0 s : State} (h_ : Keeps s0 s) (h : Hdr) (n0 : Nat) (k : Nat) :
    KeepsOut s0 (execKvPoolRemove h n0 k s) := by
  unfold execKvPoolRemove
  repeat' first
    | with_reducible assumption
    | with_reducible apply State.edit_keeps
    | with_reducible apply keepsOut_next

theorem execKvMap_keeps {s0 s : State} (h_ : Keeps s0 s) (h : Hdr) (c : Nat) (tier : Nat) (lo : Nat) (hi : Nat) :
    KeepsOut s0 (execKvMap h c tier lo hi s) := by
  unfold execKvMap
  repeat' first
    | with_reducible assumption
    | with_reducible apply State.edit_keeps
    | with_reducible apply keepsOut_next

theorem execKvUnmap_keeps {s0 s : State} (h_ : Keeps s0 s) (h : Hdr) (c : Nat) (lo : Nat) (hi : Nat) :
    KeepsOut s0 (execKvUnmap h c lo hi s) := by
  unfold execKvUnmap
  repeat' first
    | with_reducible assumption
    | with_reducible apply State.edit_keeps
    | with_reducible apply keepsOut_next

theorem execKvDemote_keeps {s0 s : State} (h_ : Keeps s0 s) (h : Hdr) (c : Nat) (lo : Nat) (hi : Nat) :
    KeepsOut s0 (execKvDemote h c lo hi s) := by
  unfold execKvDemote
  repeat' first
    | with_reducible assumption
    | with_reducible apply State.edit_keeps
    | with_reducible apply keepsOut_next

theorem execKvPromote_keeps {s0 s : State} (h_ : Keeps s0 s) (h : Hdr) (c : Nat) (lo : Nat) (hi : Nat) :
    KeepsOut s0 (execKvPromote h c lo hi s) := by
  unfold execKvPromote
  repeat' first
    | with_reducible assumption
    | with_reducible apply State.edit_keeps
    | with_reducible apply keepsOut_next

theorem execKvDrop_keeps {s0 s : State} (h_ : Keeps s0 s) (h : Hdr) (c : Nat) (lo : Nat) (hi : Nat) :
    KeepsOut s0 (execKvDrop h c lo hi s) := by
  unfold execKvDrop
  repeat' first
    | with_reducible assumption
    | with_reducible apply State.edit_keeps
    | with_reducible apply keepsOut_next

theorem execKvScatter_keeps {s0 s : State} (h_ : Keeps s0 s) (h : Hdr) :
    KeepsOut s0 (execKvScatter h s) := by
  unfold execKvScatter
  repeat' first
    | with_reducible assumption
    | with_reducible apply State.edit_keeps
    | with_reducible apply keepsOut_next

theorem execPageMoveAppendsDrained_keeps {s0 s : State} (h_ : Keeps s0 s) (p : Fin 16) :
    KeepsOut s0 (execPageMoveAppendsDrained p s) := by
  unfold execPageMoveAppendsDrained
  repeat' first
    | with_reducible assumption
    | with_reducible apply State.setMove_keeps
    | with_reducible apply keepsOut_ite
    | with_reducible apply keeps_ite
    | with_reducible apply keepsOut_next
    | simp -zeta only [keeps_mk1, keeps_mk2]
    | split
    | (intro i; intros; try beta_reduce)

theorem State.copyPage_keeps {s0 s : State} (h_ : Keeps s0 s) (p src dst : Nat) : Keeps s0 (s.copyPage p src dst) := by
  unfold State.copyPage
  extract_lets a b far bytes bad t t2
  have k : Keeps s0 t := State.ptrWrite_keeps (State.countRead_keeps h_ ..) ..
  clear_value t
  have k2 : Keeps s0 t2 := by
    refine keeps_foldl k (fun u x ku => keeps_ite ?_ (State.hbmPoisonAt_keeps ku ..))
    split
    · exact keeps_farPoison ku ..
    · exact ku
  exact loopN_keeps k2 64 _ (fun i u ku => State.mirrorWrite_keeps ku ..)

theorem State.endMove_keeps {s0 s : State} (h_ : Keeps s0 s) (m : Move) (status : Nat) :
    Keeps s0 (State.endMove s m status) := by
  unfold State.endMove
  repeat' first
    | with_reducible assumption
    | (extract_lets +onlyGivenNames x; refine keeps_cut (p := Keeps s0 x) ?_ (fun hx => ?_) <;> [subst x; clear_value x])
    | (extract_lets +onlyGivenNames x; refine keeps_cut (p := Keeps s0 x.1) ?_ (fun hx => ?_) <;> [subst x; clear_value x])
    | extract_lets +onlyGivenNames x
    | with_reducible apply State.kvDone_keeps
    | with_reducible apply State.pumpEdits_keeps
    | simp -zeta only [keeps_mk1, keeps_mk2]
    | split
    | (intro i; intros; try beta_reduce)

theorem State.swapMoved_keeps {s0 s : State} (h_ : Keeps s0 s) (m : Move) (i : Nat) :
    Keeps s0 (State.swapMoved s m i) := by
  unfold State.swapMoved
  repeat' first
    | with_reducible assumption
    | (extract_lets +onlyGivenNames x; refine keeps_cut (p := Keeps s0 x) ?_ (fun hx => ?_) <;> [subst x; clear_value x])
    | (extract_lets +onlyGivenNames x; refine keeps_cut (p := Keeps s0 x.1) ?_ (fun hx => ?_) <;> [subst x; clear_value x])
    | extract_lets +onlyGivenNames x
    | with_reducible apply State.bump_keeps
    | with_reducible apply State.changeLeaves_keeps
    | with_reducible apply keeps_ite
    | (intro i; intros; try beta_reduce)

theorem execPageMoveCopyDone_keeps {s0 s : State} (h_ : Keeps s0 s) (p : Fin 16) :
    KeepsOut s0 (execPageMoveCopyDone p s) := by
  unfold execPageMoveCopyDone
  repeat' first
    | with_reducible assumption
    | (extract_lets +onlyGivenNames x; refine keeps_cut (p := Keeps s0 x) ?_ (fun hx => ?_) <;> [subst x; clear_value x])
    | (extract_lets +onlyGivenNames x; refine keeps_cut (p := Keeps s0 x.1) ?_ (fun hx => ?_) <;> [subst x; clear_value x])
    | (extract_lets +onlyGivenNames x; clear_value x)
    | with_reducible apply State.setUse_keeps
    | with_reducible apply State.setMove_keeps
    | with_reducible apply State.markMoving_keeps
    | with_reducible apply State.beginPage_keeps
    | with_reducible apply State.copyPage_keeps
    | with_reducible apply State.endMove_keeps
    | with_reducible apply State.swapMoved_keeps
    | with_reducible apply keeps_foldl
    | with_reducible apply keeps_foldl_fst
    | with_reducible apply keepsOut_ite
    | with_reducible apply keeps_ite
    | with_reducible apply keepsOut_next
    | simp -zeta only [keeps_mk1, keeps_mk2]
    | split
    | (intro i; intros; try beta_reduce)
    | refine State.fitsLimbo_keeps' (by with_reducible assumption) ?_

theorem execLimboRecycle_keeps {s0 s : State} (h_ : Keeps s0 s) (p : Fin 16) :
    KeepsOut s0 (execLimboRecycle p s) := by
  unfold execLimboRecycle
  repeat' first
    | with_reducible assumption
    | (extract_lets +onlyGivenNames x; refine keeps_cut (p := Keeps s0 x) ?_ (fun hx => ?_) <;> [subst x; clear_value x])
    | (extract_lets +onlyGivenNames x; refine keeps_cut (p := Keeps s0 x.1) ?_ (fun hx => ?_) <;> [subst x; clear_value x])
    | extract_lets +onlyGivenNames x
    | with_reducible apply State.wr_keeps
    | with_reducible apply State.syncHeld_keeps
    | with_reducible apply State.setUse_keeps
    | with_reducible apply State.pumpEdits_keeps
    | with_reducible apply keeps_foldl
    | with_reducible apply keeps_foldl_fst
    | with_reducible apply keepsOut_ite
    | with_reducible apply keeps_ite
    | with_reducible apply keepsOut_next
    | simp -zeta only [keeps_mk1, keeps_mk2]
    | (intro i; intros; try beta_reduce)

theorem execAutoDemote_keeps {s0 s : State} (h_ : Keeps s0 s) (p : Fin 16) :
    KeepsOut s0 (execAutoDemote p s) := by
  unfold execAutoDemote
  repeat' first
    | with_reducible assumption
    | (extract_lets +onlyGivenNames x; refine keeps_cut (p := Keeps s0 x) ?_ (fun hx => ?_) <;> [subst x; clear_value x])
    | (extract_lets +onlyGivenNames x; refine keeps_cut (p := ∀ t, Keeps s0 t → Keeps s0 (x t)) ?_ (fun hx => ?_) <;> [subst x; clear_value x])
    | (extract_lets +onlyGivenNames x; refine keeps_cut (p := ∀ a t, Keeps s0 t → Keeps s0 (x a t)) ?_ (fun hx => ?_) <;> [subst x; clear_value x])
    | (extract_lets +onlyGivenNames x; refine keeps_cut (p := ∀ a b t, Keeps s0 t → Keeps s0 (x a b t)) ?_ (fun hx => ?_) <;> [subst x; clear_value x])
    | (extract_lets +onlyGivenNames x; refine keeps_cut (p := Keeps s0 x.1) ?_ (fun hx => ?_) <;> [subst x; clear_value x])
    | (extract_lets +onlyGivenNames x; clear_value x)
    | with_reducible apply State.beginMove_keeps
    | with_reducible apply keepsOut_ite
    | with_reducible apply keeps_ite
    | with_reducible apply keepsOut_next
    | simp -zeta only [keeps_mk1, keeps_mk2]
    | with_reducible apply keeps_free
    | split
    | (intro i; intros; try beta_reduce)
    | apply_assumption
    | (intro i; intros; try beta_reduce)
    | refine State.fitsLimbo_keeps' (by with_reducible assumption) ?_
    | refine State.dropPages_keeps' (by with_reducible assumption) ?_

theorem execCtxCfgWrite_keeps {s0 s : State} (h_ : Keeps s0 s) (p : Fin 16) (v : Nat) :
    KeepsOut s0 (execCtxCfgWrite p v s) := by
  unfold execCtxCfgWrite
  repeat' first
    | with_reducible assumption
    | (extract_lets +onlyGivenNames x; refine keeps_cut (p := Keeps s0 x) ?_ (fun hx => ?_) <;> [subst x; clear_value x])
    | (extract_lets +onlyGivenNames x; refine keeps_cut (p := Keeps s0 x.1) ?_ (fun hx => ?_) <;> [subst x; clear_value x])
    | extract_lets +onlyGivenNames x
    | with_reducible apply State.wr_keeps
    | with_reducible apply keepsOut_next

theorem execCtxFarcfgWrite_keeps {s0 s : State} (h_ : Keeps s0 s) (p : Fin 16) (v : Nat) :
    KeepsOut s0 (execCtxFarcfgWrite p v s) := by
  unfold execCtxFarcfgWrite
  repeat' first
    | with_reducible assumption
    | (extract_lets +onlyGivenNames x; refine keeps_cut (p := Keeps s0 x) ?_ (fun hx => ?_) <;> [subst x; clear_value x])
    | (extract_lets +onlyGivenNames x; refine keeps_cut (p := Keeps s0 x.1) ?_ (fun hx => ?_) <;> [subst x; clear_value x])
    | extract_lets +onlyGivenNames x
    | with_reducible apply State.wr_keeps
    | with_reducible apply keeps_foldl
    | with_reducible apply keeps_foldl_fst
    | with_reducible apply keepsOut_next
    | (intro i; intros; try beta_reduce)

theorem execCtxDefer0ValidClear_keeps {s0 s : State} (h_ : Keeps s0 s) (p : Fin 16) :
    KeepsOut s0 (execCtxDefer0ValidClear p s) := by
  unfold execCtxDefer0ValidClear
  repeat' first
    | with_reducible assumption
    | with_reducible apply State.wr_keeps
    | with_reducible apply keepsOut_next

end Sys2Proof.Machine
end

