-- ==== Sys2Proof/Laws/KeepsSteps.lean ====
section
/-! SUPPORT. What the operations of Machine/Steps.lean never undo (Keeps of Safety.lean): one lemma per operation. -/

set_option linter.all false

namespace Sys2Proof.Machine

theorem execDecodeStep_keeps {s0 s : State} (h_ : Keeps s0 s) (h : Hdr) (list : Nat) (out : Nat) (outBytes : Nat) (nM1 : Nat) (slot : Nat) (pPages : Nat) (pCount : Nat) (pRow : Nat) (params : List Nat) (data : List Byte) :
    KeepsOut s0 (execDecodeStep h list out outBytes nM1 slot pPages pCount pRow params data s) := by
  unfold execDecodeStep
  repeat' first
    | with_reducible assumption
    | (extract_lets +onlyGivenNames x; refine keeps_cut (p := Keeps s0 x) ?_ (fun hx => ?_) <;> [subst x; clear_value x])
    | (extract_lets +onlyGivenNames x; refine keeps_cut (p := Keeps s0 x.1) ?_ (fun hx => ?_) <;> [subst x; clear_value x])
    | extract_lets +onlyGivenNames x
    | with_reducible apply State.setRuns_keeps
    | with_reducible apply State.gate_keeps
    | with_reducible apply State.checked_keeps
    | with_reducible apply State.setPhase_keeps
    | with_reducible apply keepsOut_next
    | simp -zeta only [keeps_mk1, keeps_mk2]
    | (intro i; intros; try beta_reduce)

theorem execSortingAssistTake_keeps {s0 s : State} (h_ : Keeps s0 s) (p : Fin 16) :
    KeepsOut s0 (execSortingAssistTake p s) := by
  unfold execSortingAssistTake
  repeat' first
    | with_reducible assumption
    | (extract_lets +onlyGivenNames x; refine keeps_cut (p := Keeps s0 x) ?_ (fun hx => ?_) <;> [subst x; clear_value x])
    | (extract_lets +onlyGivenNames x; refine keeps_cut (p := ∀ t, Keeps s0 t → Keeps s0 (x t)) ?_ (fun hx => ?_) <;> [subst x; clear_value x])
    | (extract_lets +onlyGivenNames x; refine keeps_cut (p := ∀ a t, Keeps s0 t → Keeps s0 (x a t)) ?_ (fun hx => ?_) <;> [subst x; clear_value x])
    | (extract_lets +onlyGivenNames x; refine keeps_cut (p := ∀ a b t, Keeps s0 t → Keeps s0 (x a b t)) ?_ (fun hx => ?_) <;> [subst x; clear_value x])
    | (extract_lets +onlyGivenNames x; refine keeps_cut (p := Keeps s0 x.1) ?_ (fun hx => ?_) <;> [subst x; clear_value x])
    | extract_lets +onlyGivenNames x
    | with_reducible apply State.start_keeps
    | with_reducible apply State.ptrWrite_keeps
    | with_reducible apply State.countRead_keeps
    | with_reducible apply State.setPhase_keeps
    | with_reducible apply State.setStep_keeps
    | with_reducible apply State.dropStep_keeps
    | with_reducible apply State.unmark_keeps
    | with_reducible apply State.stepMaybeEnd_keeps
    | with_reducible apply State.useDesc_keeps
    | with_reducible apply keeps_foldl
    | with_reducible apply keeps_foldl_fst
    | with_reducible apply keepsOut_ite
    | with_reducible apply keeps_ite
    | with_reducible apply keepsOut_next
    | simp -zeta only [keeps_mk1, keeps_mk2]
    | split
    | (intro i; intros; try beta_reduce)
    | apply_assumption
    | (intro i; intros; try beta_reduce)

theorem execDecodeBucketRun_keeps {s0 s : State} (h_ : Keeps s0 s) (p : Fin 16) :
    KeepsOut s0 (execDecodeBucketRun p s) := by
  unfold execDecodeBucketRun
  repeat' first
    | with_reducible assumption
    | (extract_lets +onlyGivenNames x; refine keeps_cut (p := Keeps s0 x) ?_ (fun hx => ?_) <;> [subst x; clear_value x])
    | (extract_lets +onlyGivenNames x; refine keeps_cut (p := Keeps s0 x.1) ?_ (fun hx => ?_) <;> [subst x; clear_value x])
    | (extract_lets +onlyGivenNames x; clear_value x)
    | with_reducible apply State.syncPstat_keeps
    | with_reducible apply State.setStep_keeps
    | with_reducible apply State.unmark_keeps
    | with_reducible apply State.stepMaybeEnd_keeps
    | with_reducible apply State.endRun_keeps
    | with_reducible apply State.armRun_keeps
    | with_reducible apply State.armWaiting_keeps
    | with_reducible apply keepsOut_ite
    | with_reducible apply keeps_ite
    | with_reducible apply keepsOut_next
    | simp -zeta only [keeps_mk1, keeps_mk2]
    | split
    | (intro i; intros; try beta_reduce)

end Sys2Proof.Machine
end

