-- ==== Sys2Proof/Laws/KeepsAttention.lean ====
section
/-! SUPPORT. What the operations of Machine/Attention.lean never undo (Keeps of Safety.lean): one lemma per operation. -/

set_option linter.all false

namespace Sys2Proof.Machine

theorem State.setPass_keeps {s0 s : State} (h_ : Keeps s0 s) (o : Op) (x : Pass) :
    Keeps s0 (State.setPass s o x) := by
  unfold State.setPass
  repeat' first
    | with_reducible assumption
    | with_reducible apply State.setOp_keeps

theorem State.atnErr_keeps {s0 s : State} (h_ : Keeps s0 s) (o : Op) (kind : Nat) (offset : Nat) (token : Nat) (ctx : Nat) (status : Nat) :
    Keeps s0 (State.atnErr s o kind offset token ctx status) := by
  unfold State.atnErr
  repeat' first
    | with_reducible assumption
    | (extract_lets +onlyGivenNames x; refine keeps_cut (p := Keeps s0 x) ?_ (fun hx => ?_) <;> [subst x; clear_value x])
    | (extract_lets +onlyGivenNames x; refine keeps_cut (p := Keeps s0 x.1) ?_ (fun hx => ?_) <;> [subst x; clear_value x])
    | extract_lets +onlyGivenNames x
    | with_reducible apply State.wr_keeps
    | with_reducible apply State.abort_keeps
    | with_reducible apply keeps_ite

theorem execAttnPass_keeps {s0 s : State} (h_ : Keeps s0 s) (a : At) :
    KeepsOut s0 (execAttnPass a s) := by
  unfold execAttnPass
  repeat' first
    | with_reducible assumption
    | (extract_lets +onlyGivenNames x; refine keeps_cut (p := Keeps s0 x) ?_ (fun hx => ?_) <;> [subst x; clear_value x])
    | (extract_lets +onlyGivenNames x; refine keeps_cut (p := Keeps s0 x.1) ?_ (fun hx => ?_) <;> [subst x; clear_value x])
    | extract_lets +onlyGivenNames x
    | with_reducible apply State.wr_keeps
    | with_reducible apply State.violation_keeps
    | with_reducible apply State.addOp_keeps
    | with_reducible apply State.issueAs_keeps
    | with_reducible apply State.syncMxe_keeps
    | with_reducible apply keepsOut_next
    | with_reducible apply keeps_free
    | split
    | (intro i; intros; try beta_reduce)
    | refine State.takeRows_keeps' (by with_reducible assumption) ?_

theorem State.passStart_keeps {s0 s : State} (h_ : Keeps s0 s) (o : Op) (x : Pass) :
    Keeps s0 (State.passStart s o x) := by
  unfold State.passStart
  repeat' first
    | with_reducible assumption
    | (extract_lets +onlyGivenNames x; refine keeps_cut (p := Keeps s0 x) ?_ (fun hx => ?_) <;> [subst x; clear_value x])
    | (extract_lets +onlyGivenNames x; refine keeps_cut (p := Keeps s0 x.1) ?_ (fun hx => ?_) <;> [subst x; clear_value x])
    | extract_lets +onlyGivenNames x
    | with_reducible apply State.wr_keeps
    | with_reducible apply State.bump_keeps
    | with_reducible apply State.syncHeld_keeps
    | with_reducible apply State.ucharge_keeps
    | with_reducible apply State.useDesc_keeps
    | with_reducible apply State.latchUse_keeps
    | with_reducible apply State.setPass_keeps
    | with_reducible apply State.atnErr_keeps
    | with_reducible apply keeps_ite
    | simp -zeta only [keeps_mk1, keeps_mk2]
    | split
    | (intro i; intros; try beta_reduce)

theorem execAttnBlockFetch_keeps {s0 s : State} (h_ : Keeps s0 s) (core : Fin 128) :
    KeepsOut s0 (execAttnBlockFetch core s) := by
  unfold execAttnBlockFetch
  repeat' first
    | with_reducible assumption
    | (extract_lets +onlyGivenNames x; refine keeps_cut (p := Keeps s0 x) ?_ (fun hx => ?_) <;> [subst x; clear_value x])
    | (extract_lets +onlyGivenNames x; refine keeps_cut (p := Keeps s0 x.1) ?_ (fun hx => ?_) <;> [subst x; clear_value x])
    | (extract_lets +onlyGivenNames x; clear_value x)
    | with_reducible apply State.bump_keeps
    | with_reducible apply State.addLine_keeps
    | with_reducible apply State.setPass_keeps
    | with_reducible apply State.atnErr_keeps
    | with_reducible apply keeps_foldl
    | with_reducible apply keeps_foldl_fst
    | with_reducible apply keepsOut_ite
    | with_reducible apply keeps_ite
    | with_reducible apply keepsOut_next
    | simp -zeta only [keeps_mk1, keeps_mk2]
    | split
    | (intro i; intros; try beta_reduce)

theorem State.passLine_keeps {s0 s : State} (h_ : Keeps s0 s) (id : Nat) (row : Nat) (bytes : List Byte) (poison : Bool) :
    Keeps s0 (State.passLine s id row bytes poison) := by
  unfold State.passLine
  repeat' first
    | with_reducible assumption
    | (extract_lets +onlyGivenNames x; refine keeps_cut (p := Keeps s0 x) ?_ (fun hx => ?_) <;> [subst x; clear_value x])
    | (extract_lets +onlyGivenNames x; refine keeps_cut (p := Keeps s0 x.1) ?_ (fun hx => ?_) <;> [subst x; clear_value x])
    | extract_lets +onlyGivenNames x
    | with_reducible apply State.setPass_keeps
    | simp -zeta only [keeps_mk1, keeps_mk2]
    | split

theorem State.passAck_keeps {s0 s : State} (h_ : Keeps s0 s) (id : Nat) :
    Keeps s0 (State.passAck s id) := by
  unfold State.passAck
  repeat' first
    | with_reducible assumption
    | with_reducible apply State.setPass_keeps
    | simp -zeta only [keeps_mk1, keeps_mk2]
    | split

theorem execAttnQueryPrepare_keeps {s0 s : State} (h_ : Keeps s0 s) (core : Fin 128) :
    KeepsOut s0 (execAttnQueryPrepare core s) := by
  unfold execAttnQueryPrepare
  repeat' first
    | with_reducible assumption
    | (extract_lets +onlyGivenNames x; refine keeps_cut (p := Keeps s0 x) ?_ (fun hx => ?_) <;> [subst x; clear_value x])
    | (extract_lets +onlyGivenNames x; refine keeps_cut (p := Keeps s0 x.1) ?_ (fun hx => ?_) <;> [subst x; clear_value x])
    | extract_lets +onlyGivenNames x
    | with_reducible apply State.ucharge_keeps
    | with_reducible apply State.setPass_keeps
    | with_reducible apply keepsOut_ite
    | with_reducible apply keeps_ite
    | with_reducible apply keepsOut_next
    | simp -zeta only [keeps_mk1, keeps_mk2]
    | split
    | (intro i; intros; try beta_reduce)

theorem State.passTile_keeps {s0 s : State} (h_ : Keeps s0 s) (o : Op) (w : Nat) (as bs : List (List Fp)) (upsets : List (Nat × Nat))
    (poison : Bool) : Keeps s0 (s.passTile o w as bs upsets poison).1 := by
  unfold State.passTile
  extract_lets t rows checks u
  have k : Keeps s0 u := keeps_free h_
  exact State.tileChecks_keeps k ..
theorem State.passTile_keeps' {s0 s t' : State} {y} {o : Op} {w : Nat} {as bs : List (List Fp)} {upsets : List (Nat × Nat)}
    {poison : Bool} (e_ : s.passTile o w as bs upsets poison = (t', y)) (h_ : Keeps s0 s) : Keeps s0 t' := by
  have := State.passTile_keeps h_ o w as bs upsets poison
  rw [e_] at this
  exact this

theorem execAttnQkTile_keeps {s0 s : State} (h_ : Keeps s0 s) (core : Fin 128) (upsets : List (Nat × Nat)) :
    KeepsOut s0 (execAttnQkTile core upsets s) := by
  unfold execAttnQkTile
  repeat' first
    | with_reducible assumption
    | (extract_lets +onlyGivenNames x; refine keeps_cut (p := Keeps s0 x) ?_ (fun hx => ?_) <;> [subst x; clear_value x])
    | (extract_lets +onlyGivenNames x; refine keeps_cut (p := Keeps s0 x.1) ?_ (fun hx => ?_) <;> [subst x; clear_value x])
    | extract_lets +onlyGivenNames x
    | with_reducible apply State.setPass_keeps
    | with_reducible apply State.passTile_keeps
    | with_reducible apply keepsOut_ite
    | with_reducible apply keeps_ite
    | with_reducible apply keepsOut_next
    | simp -zeta only [keeps_mk1, keeps_mk2]
    | split
    | (intro i; intros; try beta_reduce)
    | refine State.passTile_keeps' (by with_reducible assumption) ?_

theorem execAttnRowStatistics_keeps {s0 s : State} (h_ : Keeps s0 s) (core : Fin 128) :
    KeepsOut s0 (execAttnRowStatistics core s) := by
  unfold execAttnRowStatistics
  repeat' first
    | with_reducible assumption
    | (extract_lets +onlyGivenNames x; refine keeps_cut (p := Keeps s0 x) ?_ (fun hx => ?_) <;> [subst x; clear_value x])
    | (extract_lets +onlyGivenNames x; refine keeps_cut (p := Keeps s0 x.1) ?_ (fun hx => ?_) <;> [subst x; clear_value x])
    | extract_lets +onlyGivenNames x
    | with_reducible apply State.wr_keeps
    | with_reducible apply State.setPass_keeps
    | with_reducible apply keepsOut_ite
    | with_reducible apply keeps_ite
    | with_reducible apply keepsOut_next
    | simp -zeta only [keeps_mk1, keeps_mk2]
    | split
    | (intro i; intros; try beta_reduce)

theorem State.passTiles_keeps {s0 s : State} (h_ : Keeps s0 s) (o : Op) (w : Nat) (as : List (List Fp)) (bs : List (List Fp)) (n : Nat) (base : Nat) (upsets : List (Nat × Nat)) (poison : Bool) :
    Keeps s0 (State.passTiles s o w as bs n base upsets poison).1 := by
  unfold State.passTiles
  repeat' first
    | with_reducible assumption
    | (extract_lets +onlyGivenNames x; refine keeps_cut (p := Keeps s0 x) ?_ (fun hx => ?_) <;> [subst x; clear_value x])
    | (extract_lets +onlyGivenNames x; refine keeps_cut (p := Keeps s0 x.1) ?_ (fun hx => ?_) <;> [subst x; clear_value x])
    | extract_lets +onlyGivenNames x
    | with_reducible apply State.passTile_keeps
    | with_reducible apply keeps_foldl
    | with_reducible apply keeps_foldl_fst
    | with_reducible apply keepsP_ite
    | with_reducible apply keeps_ite
    | with_reducible apply keeps_fst
    | (intro i; intros; try beta_reduce)
    | refine State.passTile_keeps' (by with_reducible assumption) ?_
theorem State.passTiles_keeps' {s0 s t' : State} {y} {o : Op} {w : Nat} {as : List (List Fp)} {bs : List (List Fp)} {n : Nat} {base : Nat} {upsets : List (Nat × Nat)} {poison : Bool} (e_ : State.passTiles s o w as bs n base upsets poison = (t', y)) (h_ : Keeps s0 s) : Keeps s0 t' := by
  have := State.passTiles_keeps h_ o w as bs n base upsets poison
  rw [e_] at this
  exact this

theorem State.gradLines_keeps {s0 s : State} (h_ : Keeps s0 s) (o : Op) (x : Pass) (k : Nat) (bytes : List Byte) :
    Keeps s0 (State.gradLines s o x k bytes) := by
  unfold State.gradLines
  repeat' first
    | with_reducible assumption
    | (extract_lets +onlyGivenNames x; refine keeps_cut (p := Keeps s0 x) ?_ (fun hx => ?_) <;> [subst x; clear_value x])
    | (extract_lets +onlyGivenNames x; refine keeps_cut (p := Keeps s0 x.1) ?_ (fun hx => ?_) <;> [subst x; clear_value x])
    | extract_lets +onlyGivenNames x
    | with_reducible apply loopN_keeps
    | with_reducible apply State.abort_keeps
    | with_reducible apply State.addLine_keeps
    | with_reducible apply State.setPass_keeps
    | with_reducible apply keeps_ite
    | simp -zeta only [keeps_mk1, keeps_mk2]
    | (intro i; intros; try beta_reduce)

theorem execAttnPvTile_keeps {s0 s : State} (h_ : Keeps s0 s) (core : Fin 128) (upsets : List (Nat × Nat)) :
    KeepsOut s0 (execAttnPvTile core upsets s) := by
  unfold execAttnPvTile
  repeat' first
    | with_reducible assumption
    | (extract_lets +onlyGivenNames x; refine keeps_cut (p := Keeps s0 x) ?_ (fun hx => ?_) <;> [subst x; clear_value x])
    | (extract_lets +onlyGivenNames x; refine keeps_cut (p := Keeps s0 x.1) ?_ (fun hx => ?_) <;> [subst x; clear_value x])
    | extract_lets +onlyGivenNames x
    | with_reducible apply State.bump_keeps
    | with_reducible apply State.countOutputs_keeps
    | with_reducible apply State.setPass_keeps
    | with_reducible apply State.passTiles_keeps
    | with_reducible apply State.gradLines_keeps
    | with_reducible apply keeps_foldl
    | with_reducible apply keeps_foldl_fst
    | with_reducible apply keepsOut_ite
    | with_reducible apply keeps_ite
    | with_reducible apply keepsOut_next
    | simp -zeta only [keeps_mk1, keeps_mk2]
    | split
    | (intro i; intros; try beta_reduce)
    | refine State.passTiles_keeps' (by with_reducible assumption) ?_

theorem execAttnFinalScaling_keeps {s0 s : State} (h_ : Keeps s0 s) (core : Fin 128) :
    KeepsOut s0 (execAttnFinalScaling core s) := by
  unfold execAttnFinalScaling
  repeat' first
    | with_reducible assumption
    | (extract_lets +onlyGivenNames x; refine keeps_cut (p := Keeps s0 x) ?_ (fun hx => ?_) <;> [subst x; clear_value x])
    | (extract_lets +onlyGivenNames x; refine keeps_cut (p := Keeps s0 x.1) ?_ (fun hx => ?_) <;> [subst x; clear_value x])
    | extract_lets +onlyGivenNames x
    | with_reducible apply State.bump_keeps
    | with_reducible apply State.countOutputs_keeps
    | with_reducible apply State.setPass_keeps
    | with_reducible apply keepsOut_ite
    | with_reducible apply keeps_ite
    | with_reducible apply keepsOut_next
    | simp -zeta only [keeps_mk1, keeps_mk2]
    | split
    | (intro i; intros; try beta_reduce)

theorem execAttnPassComplete_keeps {s0 s : State} (h_ : Keeps s0 s) (core : Fin 128) :
    KeepsOut s0 (execAttnPassComplete core s) := by
  unfold execAttnPassComplete
  repeat' first
    | with_reducible assumption
    | (extract_lets +onlyGivenNames x; refine keeps_cut (p := Keeps s0 x) ?_ (fun hx => ?_) <;> [subst x; clear_value x])
    | (extract_lets +onlyGivenNames x; refine keeps_cut (p := Keeps s0 x.1) ?_ (fun hx => ?_) <;> [subst x; clear_value x])
    | extract_lets +onlyGivenNames x
    | with_reducible apply State.wr_keeps
    | with_reducible apply State.bump_keeps
    | with_reducible apply State.setRuns_keeps
    | with_reducible apply State.syncHeld_keeps
    | with_reducible apply State.completeOp_keeps
    | with_reducible apply State.syncMxe_keeps
    | with_reducible apply keepsOut_ite
    | with_reducible apply keeps_ite
    | with_reducible apply keepsOut_next
    | split
    | (intro i; intros; try beta_reduce)

theorem execAtnStale0ValidClear_keeps {s0 s : State} (h_ : Keeps s0 s) (core : Fin 128) :
    KeepsOut s0 (execAtnStale0ValidClear core s) := by
  unfold execAtnStale0ValidClear
  repeat' first
    | with_reducible assumption
    | with_reducible apply State.wr_keeps
    | with_reducible apply keepsOut_next

theorem State.passClock_keeps {s0 s : State} (h_ : Keeps s0 s) (c : Nat) :
    Keeps s0 (State.passClock s c) := by
  unfold State.passClock
  repeat' first
    | with_reducible assumption
    | (extract_lets +onlyGivenNames x; refine keeps_cut (p := Keeps s0 x) ?_ (fun hx => ?_) <;> [subst x; clear_value x])
    | (extract_lets +onlyGivenNames x; refine keeps_cut (p := Keeps s0 x.1) ?_ (fun hx => ?_) <;> [subst x; clear_value x])
    | extract_lets +onlyGivenNames x
    | with_reducible apply State.setPass_keeps
    | with_reducible apply State.passStart_keeps
    | with_reducible apply keeps_ite
    | simp -zeta only [keeps_mk1, keeps_mk2]
    | split

end Sys2Proof.Machine
end

