-- ==== Sys2Proof/Laws/KeepsLineDone.lean ====
section
/-! SUPPORT. What the operations of Machine/LineDone.lean never undo (Keeps of Safety.lean): one lemma per operation. -/

set_option linter.all false

namespace Sys2Proof.Machine

theorem State.setJob_keeps {s0 s : State} (h_ : Keeps s0 s) (j : PageJob) :
    Keeps s0 (State.setJob s j) := by
  unfold State.setJob
  repeat' first
    | with_reducible assumption
    | with_reducible apply keeps_ite
    | simp -zeta only [keeps_mk1, keeps_mk2]
    | (intro i; intros; try beta_reduce)

theorem State.jobRow_keeps {s0 s : State} (h_ : Keeps s0 s) (id : Nat) :
    Keeps s0 (State.jobRow s id) := by
  unfold State.jobRow
  repeat' first
    | with_reducible assumption
    | (extract_lets +onlyGivenNames x; refine keeps_cut (p := Keeps s0 x) ?_ (fun hx => ?_) <;> [subst x; clear_value x])
    | (extract_lets +onlyGivenNames x; refine keeps_cut (p := Keeps s0 x.1) ?_ (fun hx => ?_) <;> [subst x; clear_value x])
    | extract_lets +onlyGivenNames x
    | with_reducible apply State.syncHeld_keeps
    | with_reducible apply State.ackMsg_keeps
    | with_reducible apply State.setJob_keeps
    | with_reducible apply keeps_ite
    | simp -zeta only [keeps_mk1, keeps_mk2]
    | split
    | (intro i; intros; try beta_reduce)

theorem State.sendRead_keeps {s0 s : State} (h_ : Keeps s0 s) (id : Nat) (k : Nat) (bytes : List Byte) (poison : Bool) :
    Keeps s0 (State.sendRead s id k bytes poison) := by
  unfold State.sendRead
  repeat' first
    | with_reducible assumption
    | (extract_lets +onlyGivenNames x; refine keeps_cut (p := Keeps s0 x) ?_ (fun hx => ?_) <;> [subst x; clear_value x])
    | (extract_lets +onlyGivenNames x; refine keeps_cut (p := Keeps s0 x.1) ?_ (fun hx => ?_) <;> [subst x; clear_value x])
    | extract_lets +onlyGivenNames x
    | with_reducible apply State.addLine_keeps
    | with_reducible apply State.jobRow_keeps
    | with_reducible apply keeps_ite
    | simp -zeta only [keeps_mk1, keeps_mk2]
    | split
    | (intro i; intros; try beta_reduce)

theorem State.addJob_keeps {s0 s : State} (h_ : Keeps s0 s) (m : Msg) (epoch : Nat) (left : Nat) (status : Nat) (tokens : Nat) :
    Keeps s0 (State.addJob s m epoch left status tokens) := by
  unfold State.addJob
  repeat' first
    | with_reducible assumption
    | (extract_lets +onlyGivenNames x; refine keeps_cut (p := Keeps s0 x) ?_ (fun hx => ?_) <;> [subst x; clear_value x])
    | (extract_lets +onlyGivenNames x; refine keeps_cut (p := Keeps s0 x.1) ?_ (fun hx => ?_) <;> [subst x; clear_value x])
    | extract_lets +onlyGivenNames x
    | with_reducible apply State.syncHeld_keeps
    | simp -zeta only [keeps_mk1, keeps_mk2]

theorem execReadReqReceive_keeps {s0 s : State} (h_ : Keeps s0 s) (port : Option (Fin 12)) (m : Msg) :
    KeepsOut s0 (execReadReqReceive port m s) := by
  unfold execReadReqReceive
  repeat' first
    | with_reducible assumption
    | (extract_lets +onlyGivenNames x; refine keeps_cut (p := Keeps s0 x) ?_ (fun hx => ?_) <;> [subst x; clear_value x])
    | (extract_lets +onlyGivenNames x; refine keeps_cut (p := Keeps s0 x.1) ?_ (fun hx => ?_) <;> [subst x; clear_value x])
    | extract_lets +onlyGivenNames x
    | with_reducible apply loopN_keeps
    | with_reducible apply State.addLine_keeps
    | with_reducible apply State.ackMsg_keeps
    | with_reducible apply State.receiveMsg_keeps
    | with_reducible apply State.addJob_keeps
    | with_reducible apply keepsOut_ite
    | with_reducible apply keeps_ite
    | with_reducible apply keepsOut_next
    | (intro i; intros; try beta_reduce)

theorem execPageReqReceive_keeps {s0 s : State} (h_ : Keeps s0 s) (port : Option (Fin 12)) (m : Msg) :
    KeepsOut s0 (execPageReqReceive port m s) := by
  unfold execPageReqReceive
  repeat' first
    | with_reducible assumption
    | (extract_lets +onlyGivenNames x; refine keeps_cut (p := Keeps s0 x) ?_ (fun hx => ?_) <;> [subst x; clear_value x])
    | (extract_lets +onlyGivenNames x; refine keeps_cut (p := Keeps s0 x.1) ?_ (fun hx => ?_) <;> [subst x; clear_value x])
    | extract_lets +onlyGivenNames x
    | with_reducible apply loopN_keeps
    | with_reducible apply State.addLine_keeps
    | with_reducible apply State.ackMsg_keeps
    | with_reducible apply State.receiveMsg_keeps
    | with_reducible apply State.useDesc_keeps
    | with_reducible apply State.latchUse_keeps
    | with_reducible apply State.sendRead_keeps
    | with_reducible apply State.addJob_keeps
    | with_reducible apply keepsOut_ite
    | with_reducible apply keeps_ite
    | with_reducible apply keepsOut_next
    | (intro i; intros; try beta_reduce)

theorem execAckReceive_keeps {s0 s : State} (h_ : Keeps s0 s) (port : Option (Fin 12)) (m : Msg) :
    KeepsOut s0 (execAckReceive port m s) := by
  unfold execAckReceive
  repeat' first
    | with_reducible assumption
    | (extract_lets +onlyGivenNames x; refine keeps_cut (p := Keeps s0 x) ?_ (fun hx => ?_) <;> [subst x; clear_value x])
    | (extract_lets +onlyGivenNames x; refine keeps_cut (p := Keeps s0 x.1) ?_ (fun hx => ?_) <;> [subst x; clear_value x])
    | extract_lets +onlyGivenNames x
    | with_reducible apply State.outAck_keeps
    | with_reducible apply State.receiveMsg_keeps
    | with_reducible apply State.fetchAck_keeps
    | with_reducible apply State.appendAck_keeps
    | with_reducible apply State.mirrorAcked_keeps
    | with_reducible apply keepsOut_ite
    | with_reducible apply keeps_ite
    | with_reducible apply keepsOut_next
    | split
    | (intro i; intros; try beta_reduce)
    | refine State.takeMsg_keeps' (by with_reducible assumption) ?_

theorem State.readDone_keeps {s0 s : State} (h_ : Keeps s0 s) (l : Line) (bytes : List Byte) (poison : Bool) :
    Keeps s0 (State.readDone s l bytes poison) := by
  unfold State.readDone
  repeat' first
    | with_reducible assumption
    | with_reducible apply State.tablePart_keeps
    | with_reducible apply State.fetchPart_keeps
    | with_reducible apply State.passLine_keeps
    | with_reducible apply State.sendRead_keeps
    | split

theorem State.writeDone_keeps {s0 s : State} (h_ : Keeps s0 s) (l : Line) :
    Keeps s0 (State.writeDone s l) := by
  unfold State.writeDone
  repeat' first
    | with_reducible assumption
    | with_reducible apply State.outAck_keeps
    | with_reducible apply State.rowLineDone_keeps
    | with_reducible apply State.passAck_keeps
    | with_reducible apply State.jobRow_keeps
    | split

theorem execLineTransactionComplete_keeps {s0 s : State} (h_ : Keeps s0 s) (p : Fin 16) (idx : Nat) (ret : Fetched) (errs : List SecErr) :
    KeepsOut s0 (execLineTransactionComplete p idx ret errs s) := by
  unfold execLineTransactionComplete
  repeat' first
    | with_reducible assumption
    | (extract_lets +onlyGivenNames x; refine keeps_cut (p := Keeps s0 x) ?_ (fun hx => ?_) <;> [subst x; clear_value x])
    | (extract_lets +onlyGivenNames x; refine keeps_cut (p := Keeps s0 x.1) ?_ (fun hx => ?_) <;> [subst x; clear_value x])
    | extract_lets +onlyGivenNames x
    | with_reducible apply State.dropLine_keeps
    | with_reducible apply State.lineRead_keeps
    | with_reducible apply State.lineWrite_keeps
    | with_reducible apply State.readDone_keeps
    | with_reducible apply State.writeDone_keeps
    | with_reducible apply keepsOut_ite
    | with_reducible apply keeps_ite
    | with_reducible apply keepsOut_next
    | split
    | refine State.lineRead_keeps' (by with_reducible assumption) ?_

end Sys2Proof.Machine
end

