-- ==== Sys2Proof/Laws/KeepsLink.lean ====
section
/-! SUPPORT. What the operations of Machine/Link.lean never undo (Keeps of Safety.lean): one lemma per operation. -/

set_option linter.all false

namespace Sys2Proof.Machine

theorem State.syncViews_keeps {s0 s : State} (h_ : Keeps s0 s) (q : Nat) :
    Keeps s0 (State.syncViews s q) := by
  unfold State.syncViews
  repeat' first
    | with_reducible assumption
    | (extract_lets +onlyGivenNames x; refine keeps_cut (p := Keeps s0 x) ?_ (fun hx => ?_) <;> [subst x; clear_value x])
    | (extract_lets +onlyGivenNames x; refine keeps_cut (p := Keeps s0 x.1) ?_ (fun hx => ?_) <;> [subst x; clear_value x])
    | extract_lets +onlyGivenNames x
    | with_reducible apply State.wr_keeps
    | with_reducible apply loopN_keeps
    | with_reducible apply keeps_ite
    | (intro i; intros; try beta_reduce)

theorem State.setPortState_keeps {s0 s : State} (h_ : Keeps s0 s) (q : Nat) (st : Nat) :
    Keeps s0 (State.setPortState s q st) := by
  unfold State.setPortState
  repeat' first
    | with_reducible assumption
    | with_reducible apply State.wr_keeps
    | with_reducible apply State.syncViews_keeps

theorem State.portDone_keeps {s0 s : State} (h_ : Keeps s0 s) (q : Nat) (action : Nat) (status : Nat) :
    Keeps s0 (State.portDone s q action status) := by
  unfold State.portDone
  repeat' first
    | with_reducible assumption
    | with_reducible apply State.complete_keeps
    | with_reducible apply keeps_foldl
    | with_reducible apply keeps_foldl_fst
    | with_reducible apply keeps_ite
    | (intro i; intros; try beta_reduce)

theorem State.syncLanes_keeps {s0 s : State} (h_ : Keeps s0 s) (q : Nat) :
    Keeps s0 (State.syncLanes s q) := by
  unfold State.syncLanes
  repeat' first
    | with_reducible assumption
    | (extract_lets +onlyGivenNames x; refine keeps_cut (p := Keeps s0 x) ?_ (fun hx => ?_) <;> [subst x; clear_value x])
    | (extract_lets +onlyGivenNames x; refine keeps_cut (p := Keeps s0 x.1) ?_ (fun hx => ?_) <;> [subst x; clear_value x])
    | extract_lets +onlyGivenNames x
    | with_reducible apply State.wr_keeps
    | with_reducible apply State.syncViews_keeps
    | with_reducible apply keeps_foldl
    | with_reducible apply keeps_foldl_fst
    | (intro i; intros; try beta_reduce)

theorem State.laneOff_keeps {s0 s : State} (h_ : Keeps s0 s) (q : Nat) (i : Nat) :
    Keeps s0 (State.laneOff s q i) := by
  unfold State.laneOff
  repeat' first
    | with_reducible assumption
    | (extract_lets +onlyGivenNames x; refine keeps_cut (p := Keeps s0 x) ?_ (fun hx => ?_) <;> [subst x; clear_value x])
    | (extract_lets +onlyGivenNames x; refine keeps_cut (p := Keeps s0 x.1) ?_ (fun hx => ?_) <;> [subst x; clear_value x])
    | extract_lets +onlyGivenNames x
    | with_reducible apply State.wr_keeps
    | with_reducible apply State.syncLanes_keeps
    | with_reducible apply keeps_foldl
    | with_reducible apply keeps_foldl_fst
    | with_reducible apply keeps_ite
    | split
    | (intro i; intros; try beta_reduce)

theorem State.lanesFull_keeps {s0 s : State} (h_ : Keeps s0 s) (q : Nat) :
    Keeps s0 (State.lanesFull s q) := by
  unfold State.lanesFull
  repeat' first
    | with_reducible assumption
    | (extract_lets +onlyGivenNames x; refine keeps_cut (p := Keeps s0 x) ?_ (fun hx => ?_) <;> [subst x; clear_value x])
    | (extract_lets +onlyGivenNames x; refine keeps_cut (p := Keeps s0 x.1) ?_ (fun hx => ?_) <;> [subst x; clear_value x])
    | extract_lets +onlyGivenNames x
    | with_reducible apply State.wr_keeps
    | with_reducible apply loopN_keeps
    | with_reducible apply State.syncLanes_keeps
    | with_reducible apply keeps_ite
    | (intro i; intros; try beta_reduce)

theorem State.lanesOff_keeps {s0 s : State} (h_ : Keeps s0 s) (q : Nat) (keep : Bool) :
    Keeps s0 (State.lanesOff s q keep) := by
  unfold State.lanesOff
  repeat' first
    | with_reducible assumption
    | (extract_lets +onlyGivenNames x; refine keeps_cut (p := Keeps s0 x) ?_ (fun hx => ?_) <;> [subst x; clear_value x])
    | (extract_lets +onlyGivenNames x; refine keeps_cut (p := Keeps s0 x.1) ?_ (fun hx => ?_) <;> [subst x; clear_value x])
    | extract_lets +onlyGivenNames x
    | with_reducible apply State.wr_keeps
    | with_reducible apply loopN_keeps
    | with_reducible apply State.syncLanes_keeps
    | with_reducible apply keeps_ite
    | (intro i; intros; try beta_reduce)

theorem State.startTraining_keeps {s0 s : State} (h_ : Keeps s0 s) (q : Nat) (tries : Nat) :
    Keeps s0 (State.startTraining s q tries) := by
  unfold State.startTraining
  repeat' first
    | with_reducible assumption
    | (extract_lets +onlyGivenNames x; refine keeps_cut (p := Keeps s0 x) ?_ (fun hx => ?_) <;> [subst x; clear_value x])
    | (extract_lets +onlyGivenNames x; refine keeps_cut (p := Keeps s0 x.1) ?_ (fun hx => ?_) <;> [subst x; clear_value x])
    | extract_lets +onlyGivenNames x
    | with_reducible apply State.wr_keeps
    | with_reducible apply State.emit_keeps
    | with_reducible apply State.setPort_keeps
    | with_reducible apply State.setPortState_keeps
    | with_reducible apply State.lanesOff_keeps
    | simp -zeta only [keeps_mk1, keeps_mk2]
    | (intro i; intros; try beta_reduce)

theorem State.linkAuthFail_keeps {s0 s : State} (h_ : Keeps s0 s) (q : Nat) :
    Keeps s0 (State.linkAuthFail s q) := by
  unfold State.linkAuthFail
  repeat' first
    | with_reducible assumption
    | with_reducible apply State.event_keeps

theorem State.lostMsg_keeps {s0 s : State} (h_ : Keeps s0 s) (m : Msg) (line : Option Nat) :
    Keeps s0 (State.lostMsg s m line) := by
  unfold State.lostMsg
  repeat' first
    | with_reducible assumption
    | (extract_lets +onlyGivenNames x; refine keeps_cut (p := Keeps s0 x) ?_ (fun hx => ?_) <;> [subst x; clear_value x])
    | (extract_lets +onlyGivenNames x; refine keeps_cut (p := Keeps s0 x.1) ?_ (fun hx => ?_) <;> [subst x; clear_value x])
    | extract_lets +onlyGivenNames x
    | with_reducible apply State.dropLine_keeps
    | with_reducible apply State.outAck_keeps
    | with_reducible apply State.fetchAck_keeps
    | with_reducible apply State.appendAck_keeps
    | with_reducible apply State.jobRow_keeps
    | with_reducible apply keeps_ite
    | split
    | (intro i; intros; try beta_reduce)

theorem State.countDiscards_keeps {s0 s : State} (h_ : Keeps s0 s) (q : Nat) :
    Keeps s0 (State.countDiscards s q) := by
  unfold State.countDiscards
  repeat' first
    | with_reducible assumption
    | (extract_lets +onlyGivenNames x; refine keeps_cut (p := Keeps s0 x) ?_ (fun hx => ?_) <;> [subst x; clear_value x])
    | (extract_lets +onlyGivenNames x; refine keeps_cut (p := Keeps s0 x.1) ?_ (fun hx => ?_) <;> [subst x; clear_value x])
    | extract_lets +onlyGivenNames x
    | with_reducible apply State.bump_keeps
    | with_reducible apply keeps_foldl
    | with_reducible apply keeps_foldl_fst
    | (intro i; intros; try beta_reduce)

theorem State.applyTable_keeps {s0 s : State} (h_ : Keeps s0 s) (q : Nat) :
    Keeps s0 (State.applyTable s q) := by
  unfold State.applyTable
  repeat' first
    | with_reducible assumption
    | (extract_lets +onlyGivenNames x; refine keeps_cut (p := Keeps s0 x) ?_ (fun hx => ?_) <;> [subst x; clear_value x])
    | (extract_lets +onlyGivenNames x; refine keeps_cut (p := Keeps s0 x.1) ?_ (fun hx => ?_) <;> [subst x; clear_value x])
    | extract_lets +onlyGivenNames x
    | with_reducible apply State.wr_keeps
    | with_reducible apply loopN_keeps
    | with_reducible apply State.setPort_keeps
    | with_reducible apply State.syncViews_keeps
    | with_reducible apply State.portDone_keeps
    | simp -zeta only [keeps_mk1, keeps_mk2]
    | split
    | (intro i; intros; try beta_reduce)

theorem State.goDown_keeps {s0 s : State} (h_ : Keeps s0 s) (q : Nat) (reason : Nat) :
    Keeps s0 (State.goDown s q reason) := by
  unfold State.goDown
  repeat' first
    | with_reducible assumption
    | (extract_lets +onlyGivenNames x; refine keeps_cut (p := Keeps s0 x) ?_ (fun hx => ?_) <;> [subst x; clear_value x])
    | (extract_lets +onlyGivenNames x; refine keeps_cut (p := Keeps s0 x.1) ?_ (fun hx => ?_) <;> [subst x; clear_value x])
    | extract_lets +onlyGivenNames x
    | with_reducible apply State.wr_keeps
    | with_reducible apply State.bump_keeps
    | with_reducible apply loopN_keeps
    | with_reducible apply State.event_keeps
    | with_reducible apply State.setPort_keeps
    | with_reducible apply State.setPortState_keeps
    | with_reducible apply State.portDone_keeps
    | with_reducible apply State.lanesOff_keeps
    | with_reducible apply State.startTraining_keeps
    | with_reducible apply State.linkAuthFail_keeps
    | with_reducible apply State.lostMsg_keeps
    | with_reducible apply State.countDiscards_keeps
    | with_reducible apply State.applyTable_keeps
    | with_reducible apply keeps_foldl
    | with_reducible apply keeps_foldl_fst
    | with_reducible apply keeps_ite
    | simp -zeta only [keeps_mk1, keeps_mk2]
    | (intro i; intros; try beta_reduce)

theorem State.initCredits_keeps {s0 s : State} (h_ : Keeps s0 s) (q : Nat) :
    Keeps s0 (State.initCredits s q) := by
  unfold State.initCredits
  repeat' first
    | with_reducible assumption
    | (extract_lets +onlyGivenNames x; refine keeps_cut (p := Keeps s0 x) ?_ (fun hx => ?_) <;> [subst x; clear_value x])
    | (extract_lets +onlyGivenNames x; refine keeps_cut (p := Keeps s0 x.1) ?_ (fun hx => ?_) <;> [subst x; clear_value x])
    | extract_lets +onlyGivenNames x
    | with_reducible apply State.setPort_keeps
    | with_reducible apply keeps_foldl
    | with_reducible apply keeps_foldl_fst
    | simp -zeta only [keeps_mk1, keeps_mk2]
    | (intro i; intros; try beta_reduce)

theorem State.portUpEvent_keeps {s0 s : State} (h_ : Keeps s0 s) (q : Nat) :
    Keeps s0 (State.portUpEvent s q) := by
  unfold State.portUpEvent
  repeat' first
    | with_reducible assumption
    | with_reducible apply State.event_keeps

theorem State.portGoesActive_keeps {s0 s : State} (h_ : Keeps s0 s) (q : Nat) :
    Keeps s0 (State.portGoesActive s q) := by
  unfold State.portGoesActive
  repeat' first
    | with_reducible assumption
    | (extract_lets +onlyGivenNames x; refine keeps_cut (p := Keeps s0 x) ?_ (fun hx => ?_) <;> [subst x; clear_value x])
    | (extract_lets +onlyGivenNames x; refine keeps_cut (p := Keeps s0 x.1) ?_ (fun hx => ?_) <;> [subst x; clear_value x])
    | extract_lets +onlyGivenNames x
    | with_reducible apply State.setLock_keeps
    | with_reducible apply State.setPort_keeps
    | with_reducible apply State.setPortState_keeps
    | with_reducible apply State.portDone_keeps
    | with_reducible apply State.initCredits_keeps
    | with_reducible apply State.portUpEvent_keeps
    | simp -zeta only [keeps_mk1, keeps_mk2]

theorem State.sealFlit_keeps {s0 s : State} (h_ : Keeps s0 s) (q : Nat) (hdr : Nat) (payload : List Byte) :
    Keeps s0 (State.sealFlit s q hdr payload).1 := by
  unfold State.sealFlit
  repeat' first
    | with_reducible assumption
    | (extract_lets +onlyGivenNames x; refine keeps_cut (p := Keeps s0 x) ?_ (fun hx => ?_) <;> [subst x; clear_value x])
    | (extract_lets +onlyGivenNames x; refine keeps_cut (p := Keeps s0 x.1) ?_ (fun hx => ?_) <;> [subst x; clear_value x])
    | extract_lets +onlyGivenNames x
    | with_reducible apply State.wr_keeps
    | with_reducible apply State.setPort_keeps
    | with_reducible apply keepsP_ite
    | with_reducible apply keeps_ite
    | with_reducible apply keeps_fst
    | simp -zeta only [keeps_mk1, keeps_mk2]
theorem State.sealFlit_keeps' {s0 s t' : State} {y} {q : Nat} {hdr : Nat} {payload : List Byte} (e_ : State.sealFlit s q hdr payload = (t', y)) (h_ : Keeps s0 s) : Keeps s0 t' := by
  have := State.sealFlit_keeps h_ q hdr payload
  rw [e_] at this
  exact this

theorem State.nextPool_keeps {s0 s : State} (h_ : Keeps s0 s) (q : Nat) :
    Keeps s0 (State.nextPool s q).1 := by
  unfold State.nextPool
  repeat' first
    | with_reducible assumption
    | (extract_lets +onlyGivenNames x; refine keeps_cut (p := Keeps s0 x) ?_ (fun hx => ?_) <;> [subst x; clear_value x])
    | (extract_lets +onlyGivenNames x; refine keeps_cut (p := Keeps s0 x.1) ?_ (fun hx => ?_) <;> [subst x; clear_value x])
    | extract_lets +onlyGivenNames x
    | with_reducible apply State.setPort_keeps
    | with_reducible apply keeps_fst
    | simp -zeta only [keeps_mk1, keeps_mk2]
    | (intro i; intros; try beta_reduce)
theorem State.nextPool_keeps' {s0 s t' : State} {y} {q : Nat} (e_ : State.nextPool s q = (t', y)) (h_ : Keeps s0 s) : Keeps s0 t' := by
  have := State.nextPool_keeps h_ q
  rw [e_] at this
  exact this

theorem State.sendFlit_keeps {s0 s : State} (h_ : Keeps s0 s) (q : Nat) (kind : Nat) (vl : Nat) (owner : Nat) (payload : List Byte) (seq : Nat) (rpl : Nat) :
    Keeps s0 (State.sendFlit s q kind vl owner payload seq rpl) := by
  unfold State.sendFlit
  repeat' first
    | with_reducible assumption
    | (extract_lets +onlyGivenNames x; refine keeps_cut (p := Keeps s0 x) ?_ (fun hx => ?_) <;> [subst x; clear_value x])
    | (extract_lets +onlyGivenNames x; refine keeps_cut (p := Keeps s0 x.1) ?_ (fun hx => ?_) <;> [subst x; clear_value x])
    | extract_lets +onlyGivenNames x
    | with_reducible apply State.emit_keeps
    | with_reducible apply State.sealFlit_keeps
    | with_reducible apply State.nextPool_keeps
    | split
    | refine State.sealFlit_keeps' (by with_reducible assumption) ?_
    | refine State.nextPool_keeps' (by with_reducible assumption) ?_

theorem State.sendMarker_keeps {s0 s : State} (h_ : Keeps s0 s) (q : Nat) (mark : Nat) :
    Keeps s0 (State.sendMarker s q mark) := by
  unfold State.sendMarker
  repeat' first
    | with_reducible assumption
    | (extract_lets +onlyGivenNames x; refine keeps_cut (p := Keeps s0 x) ?_ (fun hx => ?_) <;> [subst x; clear_value x])
    | (extract_lets +onlyGivenNames x; refine keeps_cut (p := Keeps s0 x.1) ?_ (fun hx => ?_) <;> [subst x; clear_value x])
    | extract_lets +onlyGivenNames x
    | with_reducible apply State.emit_keeps

theorem State.sendData_keeps {s0 s : State} (h_ : Keeps s0 s) (q : Nat) (t : TxMsg) (offered : Bool) :
    Keeps s0 (State.sendData s q t offered) := by
  unfold State.sendData
  repeat' first
    | with_reducible assumption
    | (extract_lets +onlyGivenNames x; refine keeps_cut (p := Keeps s0 x) ?_ (fun hx => ?_) <;> [subst x; clear_value x])
    | (extract_lets +onlyGivenNames x; refine keeps_cut (p := Keeps s0 x.1) ?_ (fun hx => ?_) <;> [subst x; clear_value x])
    | extract_lets +onlyGivenNames x
    | with_reducible apply State.bump_keeps
    | with_reducible apply State.emit_keeps
    | with_reducible apply State.setPort_keeps
    | with_reducible apply State.setPortState_keeps
    | with_reducible apply State.sendFlit_keeps
    | with_reducible apply keeps_ite
    | simp -zeta only [keeps_mk1, keeps_mk2]

theorem State.sendReplay_keeps {s0 s : State} (h_ : Keeps s0 s) (q : Nat) (seq : Nat) (rest : List Nat) :
    Keeps s0 (State.sendReplay s q seq rest) := by
  unfold State.sendReplay
  repeat' first
    | with_reducible assumption
    | (extract_lets +onlyGivenNames x; refine keeps_cut (p := Keeps s0 x) ?_ (fun hx => ?_) <;> [subst x; clear_value x])
    | (extract_lets +onlyGivenNames x; refine keeps_cut (p := Keeps s0 x.1) ?_ (fun hx => ?_) <;> [subst x; clear_value x])
    | extract_lets +onlyGivenNames x
    | with_reducible apply State.bump_keeps
    | with_reducible apply State.setPort_keeps
    | with_reducible apply State.goDown_keeps
    | with_reducible apply State.sendFlit_keeps
    | with_reducible apply keeps_ite
    | simp -zeta only [keeps_mk1, keeps_mk2]
    | split
    | (intro i; intros; try beta_reduce)

theorem execFlitSend_keeps {s0 s : State} (h_ : Keeps s0 s) (port : Fin 12) :
    KeepsOut s0 (execFlitSend port s) := by
  unfold execFlitSend
  repeat' first
    | with_reducible assumption
    | (extract_lets +onlyGivenNames x; refine keeps_cut (p := Keeps s0 x) ?_ (fun hx => ?_) <;> [subst x; clear_value x])
    | (extract_lets +onlyGivenNames x; refine keeps_cut (p := Keeps s0 x.1) ?_ (fun hx => ?_) <;> [subst x; clear_value x])
    | extract_lets +onlyGivenNames x
    | with_reducible apply State.bump_keeps
    | with_reducible apply State.setPort_keeps
    | with_reducible apply State.applyTable_keeps
    | with_reducible apply State.sendFlit_keeps
    | with_reducible apply State.sendMarker_keeps
    | with_reducible apply State.sendData_keeps
    | with_reducible apply State.sendReplay_keeps
    | with_reducible apply keepsOut_ite
    | with_reducible apply keeps_ite
    | with_reducible apply keepsOut_next
    | simp -zeta only [keeps_mk1, keeps_mk2]
    | split

theorem State.raiseNak_keeps {s0 s : State} (h_ : Keeps s0 s) (q : Nat) :
    Keeps s0 (State.raiseNak s q) := by
  unfold State.raiseNak
  repeat' first
    | with_reducible assumption
    | (extract_lets +onlyGivenNames x; refine keeps_cut (p := Keeps s0 x) ?_ (fun hx => ?_) <;> [subst x; clear_value x])
    | (extract_lets +onlyGivenNames x; refine keeps_cut (p := Keeps s0 x.1) ?_ (fun hx => ?_) <;> [subst x; clear_value x])
    | extract_lets +onlyGivenNames x
    | with_reducible apply State.setPort_keeps
    | simp -zeta only [keeps_mk1, keeps_mk2]

theorem State.flitFails_keeps {s0 s : State} (h_ : Keeps s0 s) (q : Nat) (tagged : Bool) (rpl : Bool) :
    Keeps s0 (State.flitFails s q tagged rpl) := by
  unfold State.flitFails
  repeat' first
    | with_reducible assumption
    | (extract_lets +onlyGivenNames x; refine keeps_cut (p := Keeps s0 x) ?_ (fun hx => ?_) <;> [subst x; clear_value x])
    | (extract_lets +onlyGivenNames x; refine keeps_cut (p := Keeps s0 x.1) ?_ (fun hx => ?_) <;> [subst x; clear_value x])
    | extract_lets +onlyGivenNames x
    | with_reducible apply State.bump_keeps
    | with_reducible apply State.setPort_keeps
    | with_reducible apply State.goDown_keeps
    | with_reducible apply State.raiseNak_keeps
    | with_reducible apply keeps_ite
    | simp -zeta only [keeps_mk1, keeps_mk2]

theorem State.credViolation_keeps {s0 s : State} (h_ : Keeps s0 s) (q : Nat) (pool : Option Nat) :
    Keeps s0 (State.credViolation s q pool) := by
  unfold State.credViolation
  repeat' first
    | with_reducible assumption
    | (extract_lets +onlyGivenNames x; refine keeps_cut (p := Keeps s0 x) ?_ (fun hx => ?_) <;> [subst x; clear_value x])
    | (extract_lets +onlyGivenNames x; refine keeps_cut (p := Keeps s0 x.1) ?_ (fun hx => ?_) <;> [subst x; clear_value x])
    | (extract_lets +onlyGivenNames x; clear_value x)
    | with_reducible apply State.bump_keeps
    | with_reducible apply State.setPort_keeps
    | with_reducible apply State.returnCredit_keeps
    | with_reducible apply State.goDown_keeps
    | with_reducible apply keeps_ite
    | simp -zeta only [keeps_mk1, keeps_mk2]
    | split

theorem State.acceptFlit_keeps {s0 s : State} (h_ : Keeps s0 s) (q : Nat) (vl : Nat) (owner : Nat) (bytes : List Byte) :
    Keeps s0 (State.acceptFlit s q vl owner bytes) := by
  unfold State.acceptFlit
  repeat' first
    | with_reducible assumption
    | (extract_lets +onlyGivenNames x; refine keeps_cut (p := Keeps s0 x) ?_ (fun hx => ?_) <;> [subst x; clear_value x])
    | (extract_lets +onlyGivenNames x; refine keeps_cut (p := Keeps s0 x.1) ?_ (fun hx => ?_) <;> [subst x; clear_value x])
    | extract_lets +onlyGivenNames x
    | with_reducible apply State.bump_keeps
    | with_reducible apply State.setPort_keeps
    | with_reducible apply State.returnCredit_keeps
    | with_reducible apply State.credViolation_keeps
    | with_reducible apply keeps_ite
    | simp -zeta only [keeps_mk1, keeps_mk2]
    | (intro i; intros; try beta_reduce)

theorem State.applyHeader_keeps {s0 s : State} (h_ : Keeps s0 s) (q : Nat) (hdr : Nat) :
    Keeps s0 (State.applyHeader s q hdr) := by
  unfold State.applyHeader
  repeat' first
    | with_reducible assumption
    | (extract_lets +onlyGivenNames x; refine keeps_cut (p := Keeps s0 x) ?_ (fun hx => ?_) <;> [subst x; clear_value x])
    | (extract_lets +onlyGivenNames x; refine keeps_cut (p := Keeps s0 x.1) ?_ (fun hx => ?_) <;> [subst x; clear_value x])
    | extract_lets +onlyGivenNames x
    | with_reducible apply State.bump_keeps
    | with_reducible apply State.ackLine_keeps
    | with_reducible apply State.setPort_keeps
    | with_reducible apply keeps_foldl
    | with_reducible apply keeps_foldl_fst
    | with_reducible apply keeps_ite
    | simp -zeta only [keeps_mk1, keeps_mk2]
    | split
    | (intro i; intros; try beta_reduce)

theorem State.receiveKey_keeps {s0 s : State} (h_ : Keeps s0 s) (q : Nat) (key : Nat) :
    Keeps s0 (State.receiveKey s q key) := by
  unfold State.receiveKey
  repeat' first
    | with_reducible assumption
    | (extract_lets +onlyGivenNames x; refine keeps_cut (p := Keeps s0 x) ?_ (fun hx => ?_) <;> [subst x; clear_value x])
    | (extract_lets +onlyGivenNames x; refine keeps_cut (p := Keeps s0 x.1) ?_ (fun hx => ?_) <;> [subst x; clear_value x])
    | extract_lets +onlyGivenNames x
    | with_reducible apply State.wr_keeps
    | with_reducible apply State.setPort_keeps
    | with_reducible apply State.portDone_keeps
    | with_reducible apply keeps_ite
    | simp -zeta only [keeps_mk1, keeps_mk2]

theorem State.flitPasses_keeps {s0 s : State} (h_ : Keeps s0 s) (q : Nat) (hdr : Nat) (payload : List Byte) :
    Keeps s0 (State.flitPasses s q hdr payload) := by
  unfold State.flitPasses
  repeat' first
    | with_reducible assumption
    | (extract_lets +onlyGivenNames x; refine keeps_cut (p := Keeps s0 x) ?_ (fun hx => ?_) <;> [subst x; clear_value x])
    | (extract_lets +onlyGivenNames x; refine keeps_cut (p := Keeps s0 x.1) ?_ (fun hx => ?_) <;> [subst x; clear_value x])
    | extract_lets +onlyGivenNames x
    | with_reducible apply State.setPort_keeps
    | with_reducible apply State.raiseNak_keeps
    | with_reducible apply State.acceptFlit_keeps
    | with_reducible apply State.applyHeader_keeps
    | with_reducible apply State.receiveKey_keeps
    | with_reducible apply keeps_ite
    | simp -zeta only [keeps_mk1, keeps_mk2]

theorem execFlitReceive_keeps {s0 s : State} (h_ : Keeps s0 s) (port : Fin 12) (header : Word64) (payload : List Byte) (check : Word64) (uncorr : Nat) (spoiled : Bool) (corr : List (Fin 9 × Nat)) :
    KeepsOut s0 (execFlitReceive port header payload check uncorr spoiled corr s) := by
  unfold execFlitReceive
  repeat' first
    | with_reducible assumption
    | (extract_lets +onlyGivenNames x; refine keeps_cut (p := Keeps s0 x) ?_ (fun hx => ?_) <;> [subst x; clear_value x])
    | (extract_lets +onlyGivenNames x; refine keeps_cut (p := Keeps s0 x.1) ?_ (fun hx => ?_) <;> [subst x; clear_value x])
    | extract_lets +onlyGivenNames x
    | with_reducible apply State.bump_keeps
    | with_reducible apply State.setPort_keeps
    | with_reducible apply State.setPortState_keeps
    | with_reducible apply State.portUpEvent_keeps
    | with_reducible apply State.flitFails_keeps
    | with_reducible apply State.flitPasses_keeps
    | with_reducible apply keeps_foldl
    | with_reducible apply keeps_foldl_fst
    | with_reducible apply keepsOut_ite
    | with_reducible apply keeps_ite
    | with_reducible apply keepsOut_next
    | simp -zeta only [keeps_mk1, keeps_mk2]
    | (intro i; intros; try beta_reduce)

theorem execReplayWaitTimeout_keeps {s0 s : State} (h_ : Keeps s0 s) (port : Fin 12) :
    KeepsOut s0 (execReplayWaitTimeout port s) := by
  unfold execReplayWaitTimeout
  repeat' first
    | with_reducible assumption
    | (extract_lets +onlyGivenNames x; refine keeps_cut (p := Keeps s0 x) ?_ (fun hx => ?_) <;> [subst x; clear_value x])
    | (extract_lets +onlyGivenNames x; refine keeps_cut (p := Keeps s0 x.1) ?_ (fun hx => ?_) <;> [subst x; clear_value x])
    | extract_lets +onlyGivenNames x
    | with_reducible apply State.raiseNak_keeps
    | with_reducible apply keepsOut_ite
    | with_reducible apply keeps_ite
    | with_reducible apply keepsOut_next

theorem State.laneEvent_keeps {s0 s : State} (h_ : Keeps s0 s) (q : Nat) (i : Nat) :
    Keeps s0 (State.laneEvent s q i) := by
  unfold State.laneEvent
  repeat' first
    | with_reducible assumption
    | with_reducible apply State.event_keeps

theorem State.beginRetrain_keeps {s0 s : State} (h_ : Keeps s0 s) (q : Nat) :
    Keeps s0 (State.beginRetrain s q) := by
  unfold State.beginRetrain
  repeat' first
    | with_reducible assumption
    | (extract_lets +onlyGivenNames x; refine keeps_cut (p := Keeps s0 x) ?_ (fun hx => ?_) <;> [subst x; clear_value x])
    | (extract_lets +onlyGivenNames x; refine keeps_cut (p := Keeps s0 x.1) ?_ (fun hx => ?_) <;> [subst x; clear_value x])
    | extract_lets +onlyGivenNames x
    | with_reducible apply State.bump_keeps
    | with_reducible apply State.emit_keeps
    | with_reducible apply State.setPort_keeps
    | with_reducible apply State.setPortState_keeps
    | simp -zeta only [keeps_mk1, keeps_mk2]

theorem State.failLane_keeps {s0 s : State} (h_ : Keeps s0 s) (q : Nat) (i : Nat) :
    Keeps s0 (State.failLane s q i) := by
  unfold State.failLane
  repeat' first
    | with_reducible assumption
    | (extract_lets +onlyGivenNames x; refine keeps_cut (p := Keeps s0 x) ?_ (fun hx => ?_) <;> [subst x; clear_value x])
    | (extract_lets +onlyGivenNames x; refine keeps_cut (p := Keeps s0 x.1) ?_ (fun hx => ?_) <;> [subst x; clear_value x])
    | extract_lets +onlyGivenNames x
    | with_reducible apply State.laneOff_keeps
    | with_reducible apply State.goDown_keeps
    | with_reducible apply State.laneEvent_keeps
    | with_reducible apply State.beginRetrain_keeps
    | with_reducible apply keeps_ite

theorem execLaneFail_keeps {s0 s : State} (h_ : Keeps s0 s) (port : Fin 12) (lane : Fin 9) :
    KeepsOut s0 (execLaneFail port lane s) := by
  unfold execLaneFail
  repeat' first
    | with_reducible assumption
    | with_reducible apply State.failLane_keeps
    | with_reducible apply keepsOut_next

theorem execSpareLaneTestFail_keeps {s0 s : State} (h_ : Keeps s0 s) (port : Fin 12) (errors : Nat) :
    KeepsOut s0 (execSpareLaneTestFail port errors s) := by
  unfold execSpareLaneTestFail
  repeat' first
    | with_reducible assumption
    | with_reducible apply State.bump_keeps
    | with_reducible apply State.failLane_keeps
    | with_reducible apply keepsOut_ite
    | with_reducible apply keeps_ite
    | with_reducible apply keepsOut_next
    | split

theorem execRetrainSequenceReceive_keeps {s0 s : State} (h_ : Keeps s0 s) (port : Fin 12) (mask : Nat) :
    KeepsOut s0 (execRetrainSequenceReceive port mask s) := by
  unfold execRetrainSequenceReceive
  repeat' first
    | with_reducible assumption
    | (extract_lets +onlyGivenNames x; refine keeps_cut (p := Keeps s0 x) ?_ (fun hx => ?_) <;> [subst x; clear_value x])
    | (extract_lets +onlyGivenNames x; refine keeps_cut (p := Keeps s0 x.1) ?_ (fun hx => ?_) <;> [subst x; clear_value x])
    | extract_lets +onlyGivenNames x
    | with_reducible apply State.setPort_keeps
    | with_reducible apply State.laneOff_keeps
    | with_reducible apply State.goDown_keeps
    | with_reducible apply State.laneEvent_keeps
    | with_reducible apply State.beginRetrain_keeps
    | with_reducible apply keeps_foldl
    | with_reducible apply keeps_foldl_fst
    | with_reducible apply keepsOut_ite
    | with_reducible apply keeps_ite
    | with_reducible apply keepsOut_next
    | simp -zeta only [keeps_mk1, keeps_mk2]
    | (intro i; intros; try beta_reduce)

theorem execRetrainResume_keeps {s0 s : State} (h_ : Keeps s0 s) (port : Fin 12) (count : Nat) :
    KeepsOut s0 (execRetrainResume port count s) := by
  unfold execRetrainResume
  repeat' first
    | with_reducible assumption
    | (extract_lets +onlyGivenNames x; refine keeps_cut (p := Keeps s0 x) ?_ (fun hx => ?_) <;> [subst x; clear_value x])
    | (extract_lets +onlyGivenNames x; refine keeps_cut (p := Keeps s0 x.1) ?_ (fun hx => ?_) <;> [subst x; clear_value x])
    | extract_lets +onlyGivenNames x
    | with_reducible apply State.bump_keeps
    | with_reducible apply State.setPort_keeps
    | with_reducible apply State.setPortState_keeps
    | with_reducible apply State.portDone_keeps
    | with_reducible apply State.portUpEvent_keeps
    | with_reducible apply keepsOut_ite
    | with_reducible apply keeps_ite
    | with_reducible apply keepsOut_next
    | simp -zeta only [keeps_mk1, keeps_mk2]
    | (intro i; intros; try beta_reduce)

theorem execRetrainDeadlineMiss_keeps {s0 s : State} (h_ : Keeps s0 s) (port : Fin 12) (part : Fin 3) :
    KeepsOut s0 (execRetrainDeadlineMiss port part s) := by
  unfold execRetrainDeadlineMiss
  repeat' first
    | with_reducible assumption
    | (extract_lets +onlyGivenNames x; refine keeps_cut (p := Keeps s0 x) ?_ (fun hx => ?_) <;> [subst x; clear_value x])
    | (extract_lets +onlyGivenNames x; refine keeps_cut (p := Keeps s0 x.1) ?_ (fun hx => ?_) <;> [subst x; clear_value x])
    | extract_lets +onlyGivenNames x
    | with_reducible apply State.goDown_keeps
    | with_reducible apply keepsOut_ite
    | with_reducible apply keeps_ite
    | with_reducible apply keepsOut_next

theorem execPeerLostTimeout_keeps {s0 s : State} (h_ : Keeps s0 s) (port : Fin 12) :
    KeepsOut s0 (execPeerLostTimeout port s) := by
  unfold execPeerLostTimeout
  repeat' first
    | with_reducible assumption
    | (extract_lets +onlyGivenNames x; refine keeps_cut (p := Keeps s0 x) ?_ (fun hx => ?_) <;> [subst x; clear_value x])
    | (extract_lets +onlyGivenNames x; refine keeps_cut (p := Keeps s0 x.1) ?_ (fun hx => ?_) <;> [subst x; clear_value x])
    | extract_lets +onlyGivenNames x
    | with_reducible apply State.goDown_keeps
    | with_reducible apply keepsOut_ite
    | with_reducible apply keeps_ite
    | with_reducible apply keepsOut_next

theorem execPortDown_keeps {s0 s : State} (h_ : Keeps s0 s) (port : Fin 12) (reasons : List Nat) :
    KeepsOut s0 (execPortDown port reasons s) := by
  unfold execPortDown
  repeat' first
    | with_reducible assumption
    | with_reducible apply State.goDown_keeps
    | with_reducible apply keepsOut_next
    | split
    | (intro i; intros; try beta_reduce)

theorem State.abandonTraining_keeps {s0 s : State} (h_ : Keeps s0 s) (q : Nat) (auth : Bool) :
    Keeps s0 (State.abandonTraining s q auth) := by
  unfold State.abandonTraining
  repeat' first
    | with_reducible assumption
    | (extract_lets +onlyGivenNames x; refine keeps_cut (p := Keeps s0 x) ?_ (fun hx => ?_) <;> [subst x; clear_value x])
    | (extract_lets +onlyGivenNames x; refine keeps_cut (p := Keeps s0 x.1) ?_ (fun hx => ?_) <;> [subst x; clear_value x])
    | extract_lets +onlyGivenNames x
    | with_reducible apply State.wr_keeps
    | with_reducible apply State.setPort_keeps
    | with_reducible apply State.setPortState_keeps
    | with_reducible apply State.portDone_keeps
    | with_reducible apply State.lanesOff_keeps
    | with_reducible apply State.startTraining_keeps
    | with_reducible apply State.linkAuthFail_keeps
    | with_reducible apply keeps_ite
    | simp -zeta only [keeps_mk1, keeps_mk2]

theorem State.sendCaps_keeps {s0 s : State} (h_ : Keeps s0 s) (q : Nat) :
    Keeps s0 (State.sendCaps s q) := by
  unfold State.sendCaps
  repeat' first
    | with_reducible assumption
    | (extract_lets +onlyGivenNames x; refine keeps_cut (p := Keeps s0 x) ?_ (fun hx => ?_) <;> [subst x; clear_value x])
    | (extract_lets +onlyGivenNames x; refine keeps_cut (p := Keeps s0 x.1) ?_ (fun hx => ?_) <;> [subst x; clear_value x])
    | extract_lets +onlyGivenNames x
    | with_reducible apply State.post_keeps
    | with_reducible apply keeps_ite
    | (intro i; intros; try beta_reduce)

theorem execTrainingStepEnd_keeps {s0 s : State} (h_ : Keeps s0 s) (port : Fin 12) (started : Nat) (lanes : List (Fin 9)) :
    KeepsOut s0 (execTrainingStepEnd port started lanes s) := by
  unfold execTrainingStepEnd
  repeat' first
    | with_reducible assumption
    | (extract_lets +onlyGivenNames x; refine keeps_cut (p := Keeps s0 x) ?_ (fun hx => ?_) <;> [subst x; clear_value x])
    | (extract_lets +onlyGivenNames x; refine keeps_cut (p := ∀ t, Keeps s0 t → Keeps s0 (x t)) ?_ (fun hx => ?_) <;> [subst x; clear_value x])
    | (extract_lets +onlyGivenNames x; refine keeps_cut (p := ∀ a t, Keeps s0 t → Keeps s0 (x a t)) ?_ (fun hx => ?_) <;> [subst x; clear_value x])
    | (extract_lets +onlyGivenNames x; refine keeps_cut (p := ∀ a b t, Keeps s0 t → Keeps s0 (x a b t)) ?_ (fun hx => ?_) <;> [subst x; clear_value x])
    | (extract_lets +onlyGivenNames x; refine keeps_cut (p := Keeps s0 x.1) ?_ (fun hx => ?_) <;> [subst x; clear_value x])
    | extract_lets +onlyGivenNames x
    | with_reducible apply State.wr_keeps
    | with_reducible apply State.setPort_keeps
    | with_reducible apply State.openSession_keeps
    | with_reducible apply State.closeSession_keeps
    | with_reducible apply State.setPortState_keeps
    | with_reducible apply State.laneOff_keeps
    | with_reducible apply State.lanesFull_keeps
    | with_reducible apply State.initCredits_keeps
    | with_reducible apply State.portGoesActive_keeps
    | with_reducible apply State.abandonTraining_keeps
    | with_reducible apply State.sendCaps_keeps
    | with_reducible apply keeps_foldl
    | with_reducible apply keeps_foldl_fst
    | with_reducible apply keepsOut_ite
    | with_reducible apply keeps_ite
    | with_reducible apply keepsOut_next
    | simp -zeta only [keeps_mk1, keeps_mk2]
    | split
    | (intro i; intros; try beta_reduce)
    | apply_assumption
    | (intro i; intros; try beta_reduce)

theorem execTrainingAbandon_keeps {s0 s : State} (h_ : Keeps s0 s) (port : Fin 12) (started : Nat) (authFailed : Bool) :
    KeepsOut s0 (execTrainingAbandon port started authFailed s) := by
  unfold execTrainingAbandon
  repeat' first
    | with_reducible assumption
    | (extract_lets +onlyGivenNames x; refine keeps_cut (p := Keeps s0 x) ?_ (fun hx => ?_) <;> [subst x; clear_value x])
    | (extract_lets +onlyGivenNames x; refine keeps_cut (p := Keeps s0 x.1) ?_ (fun hx => ?_) <;> [subst x; clear_value x])
    | extract_lets +onlyGivenNames x
    | with_reducible apply State.abandonTraining_keeps
    | with_reducible apply keepsOut_ite
    | with_reducible apply keeps_ite
    | with_reducible apply keepsOut_next
    | (intro i; intros; try beta_reduce)

theorem State.takeVl7_keeps {s0 s : State} (h_ : Keeps s0 s) (q : Nat) (m : Msg) (kind : Nat) :
    KeepsO s0 (State.takeVl7 s q m kind) := by
  unfold State.takeVl7
  repeat' first
    | with_reducible assumption
    | with_reducible apply State.consume_keeps
    | with_reducible apply keepsO_ite
    | with_reducible apply keeps_ite
    | with_reducible apply keepsO_none
    | with_reducible apply keepsO_some
theorem State.takeVl7_keeps' {s0 s t' : State} {q : Nat} {m : Msg} {kind : Nat} (e_ : State.takeVl7 s q m kind = some t') (h_ : Keeps s0 s) : Keeps s0 t' := State.takeVl7_keeps h_ q m kind t' e_

theorem execCapsReceive_keeps {s0 s : State} (h_ : Keeps s0 s) (port : Fin 12) (m : Msg) :
    KeepsOut s0 (execCapsReceive port m s) := by
  unfold execCapsReceive
  repeat' first
    | with_reducible assumption
    | (extract_lets +onlyGivenNames x; refine keeps_cut (p := Keeps s0 x) ?_ (fun hx => ?_) <;> [subst x; clear_value x])
    | (extract_lets +onlyGivenNames x; refine keeps_cut (p := Keeps s0 x.1) ?_ (fun hx => ?_) <;> [subst x; clear_value x])
    | extract_lets +onlyGivenNames x
    | with_reducible apply State.wr_keeps
    | with_reducible apply State.setPort_keeps
    | with_reducible apply keepsOut_next
    | simp -zeta only [keeps_mk1, keeps_mk2]
    | split
    | refine State.takeVl7_keeps' (by with_reducible assumption) ?_

theorem execSpdmFragmentReceive_keeps {s0 s : State} (h_ : Keeps s0 s) (port : Fin 12) (m : Msg) :
    KeepsOut s0 (execSpdmFragmentReceive port m s) := by
  unfold execSpdmFragmentReceive
  repeat' first
    | with_reducible assumption
    | (extract_lets +onlyGivenNames x; refine keeps_cut (p := Keeps s0 x) ?_ (fun hx => ?_) <;> [subst x; clear_value x])
    | (extract_lets +onlyGivenNames x; refine keeps_cut (p := Keeps s0 x.1) ?_ (fun hx => ?_) <;> [subst x; clear_value x])
    | extract_lets +onlyGivenNames x
    | with_reducible apply State.setPort_keeps
    | with_reducible apply keepsOut_ite
    | with_reducible apply keeps_ite
    | with_reducible apply keepsOut_next
    | simp -zeta only [keeps_mk1, keeps_mk2]
    | split
    | refine State.takeVl7_keeps' (by with_reducible assumption) ?_

theorem execIdleMessageReceive_keeps {s0 s : State} (h_ : Keeps s0 s) (port : Fin 12) (m : Msg) :
    KeepsOut s0 (execIdleMessageReceive port m s) := by
  unfold execIdleMessageReceive
  repeat' first
    | with_reducible assumption
    | (extract_lets +onlyGivenNames x; refine keeps_cut (p := Keeps s0 x) ?_ (fun hx => ?_) <;> [subst x; clear_value x])
    | (extract_lets +onlyGivenNames x; refine keeps_cut (p := Keeps s0 x.1) ?_ (fun hx => ?_) <;> [subst x; clear_value x])
    | extract_lets +onlyGivenNames x
    | with_reducible apply State.post_keeps
    | with_reducible apply State.setPort_keeps
    | with_reducible apply State.setPortState_keeps
    | with_reducible apply State.portDone_keeps
    | with_reducible apply keepsOut_ite
    | with_reducible apply keeps_ite
    | with_reducible apply keepsOut_next
    | simp -zeta only [keeps_mk1, keeps_mk2]
    | split
    | refine State.takeVl7_keeps' (by with_reducible assumption) ?_

theorem State.sendKeyReady_keeps {s0 s : State} (h_ : Keeps s0 s) (q : Nat) :
    Keeps s0 (State.sendKeyReady s q) := by
  unfold State.sendKeyReady
  repeat' first
    | with_reducible assumption
    | with_reducible apply State.post_keeps

theorem State.startRekey_keeps {s0 s : State} (h_ : Keeps s0 s) (q : Nat) :
    Keeps s0 (State.startRekey s q) := by
  unfold State.startRekey
  repeat' first
    | with_reducible assumption
    | with_reducible apply State.setPort_keeps
    | with_reducible apply State.sendKeyReady_keeps
    | with_reducible apply keeps_ite
    | simp -zeta only [keeps_mk1, keeps_mk2]

theorem execKeyReadyReceive_keeps {s0 s : State} (h_ : Keeps s0 s) (port : Fin 12) (m : Msg) :
    KeepsOut s0 (execKeyReadyReceive port m s) := by
  unfold execKeyReadyReceive
  repeat' first
    | with_reducible assumption
    | (extract_lets +onlyGivenNames x; refine keeps_cut (p := Keeps s0 x) ?_ (fun hx => ?_) <;> [subst x; clear_value x])
    | (extract_lets +onlyGivenNames x; refine keeps_cut (p := Keeps s0 x.1) ?_ (fun hx => ?_) <;> [subst x; clear_value x])
    | extract_lets +onlyGivenNames x
    | with_reducible apply State.wr_keeps
    | with_reducible apply State.setPort_keeps
    | with_reducible apply State.portDone_keeps
    | with_reducible apply State.startRekey_keeps
    | with_reducible apply keepsOut_ite
    | with_reducible apply keeps_ite
    | with_reducible apply keepsOut_next
    | simp -zeta only [keeps_mk1, keeps_mk2]
    | split
    | refine State.takeVl7_keeps' (by with_reducible assumption) ?_

theorem execRekeyDue_keeps {s0 s : State} (h_ : Keeps s0 s) (port : Fin 12) :
    KeepsOut s0 (execRekeyDue port s) := by
  unfold execRekeyDue
  repeat' first
    | with_reducible assumption
    | (extract_lets +onlyGivenNames x; refine keeps_cut (p := Keeps s0 x) ?_ (fun hx => ?_) <;> [subst x; clear_value x])
    | (extract_lets +onlyGivenNames x; refine keeps_cut (p := Keeps s0 x.1) ?_ (fun hx => ?_) <;> [subst x; clear_value x])
    | extract_lets +onlyGivenNames x
    | with_reducible apply State.startRekey_keeps
    | with_reducible apply keepsOut_ite
    | with_reducible apply keeps_ite
    | with_reducible apply keepsOut_next

theorem execTimeMessageSend_keeps {s0 s : State} (h_ : Keeps s0 s) (port : Fin 12) :
    KeepsOut s0 (execTimeMessageSend port s) := by
  unfold execTimeMessageSend
  repeat' first
    | with_reducible assumption
    | (extract_lets +onlyGivenNames x; refine keeps_cut (p := Keeps s0 x) ?_ (fun hx => ?_) <;> [subst x; clear_value x])
    | (extract_lets +onlyGivenNames x; refine keeps_cut (p := Keeps s0 x.1) ?_ (fun hx => ?_) <;> [subst x; clear_value x])
    | extract_lets +onlyGivenNames x
    | with_reducible apply State.post_keeps
    | with_reducible apply State.setPort_keeps
    | with_reducible apply keepsOut_ite
    | with_reducible apply keeps_ite
    | with_reducible apply keepsOut_next
    | simp -zeta only [keeps_mk1, keeps_mk2]

theorem execTimeMessageReceive_keeps {s0 s : State} (h_ : Keeps s0 s) (port : Fin 12) (m : Msg) (tRx : Nat) :
    KeepsOut s0 (execTimeMessageReceive port m tRx s) := by
  unfold execTimeMessageReceive
  repeat' first
    | with_reducible assumption
    | (extract_lets +onlyGivenNames x; refine keeps_cut (p := Keeps s0 x) ?_ (fun hx => ?_) <;> [subst x; clear_value x])
    | (extract_lets +onlyGivenNames x; refine keeps_cut (p := Keeps s0 x.1) ?_ (fun hx => ?_) <;> [subst x; clear_value x])
    | extract_lets +onlyGivenNames x
    | with_reducible apply State.wr_keeps
    | with_reducible apply State.setPort_keeps
    | with_reducible apply keepsOut_ite
    | with_reducible apply keeps_ite
    | with_reducible apply keepsOut_next
    | simp -zeta only [keeps_mk1, keeps_mk2]
    | split
    | refine State.takeVl7_keeps' (by with_reducible assumption) ?_

theorem execTimeUnlock_keeps {s0 s : State} (h_ : Keeps s0 s) :
    KeepsOut s0 (execTimeUnlock s) := by
  unfold execTimeUnlock
  repeat' first
    | with_reducible assumption
    | (extract_lets +onlyGivenNames x; refine keeps_cut (p := Keeps s0 x) ?_ (fun hx => ?_) <;> [subst x; clear_value x])
    | (extract_lets +onlyGivenNames x; refine keeps_cut (p := Keeps s0 x.1) ?_ (fun hx => ?_) <;> [subst x; clear_value x])
    | extract_lets +onlyGivenNames x
    | with_reducible apply State.wr_keeps
    | with_reducible apply State.bump_keeps
    | with_reducible apply loopN_keeps
    | with_reducible apply State.event_keeps
    | with_reducible apply keepsOut_ite
    | with_reducible apply keeps_ite
    | with_reducible apply keepsOut_next
    | (intro i; intros; try beta_reduce)

theorem execTdmWrite_keeps {s0 s : State} (h_ : Keeps s0 s) (h : Hdr) (port : Nat) (flags : Nat) (transit : Nat) (slots : List Nat) (creds : List Nat) :
    KeepsOut s0 (execTdmWrite h port flags transit slots creds s) := by
  unfold execTdmWrite
  repeat' first
    | with_reducible assumption
    | (extract_lets +onlyGivenNames x; refine keeps_cut (p := Keeps s0 x) ?_ (fun hx => ?_) <;> [subst x; clear_value x])
    | (extract_lets +onlyGivenNames x; refine keeps_cut (p := Keeps s0 x.1) ?_ (fun hx => ?_) <;> [subst x; clear_value x])
    | extract_lets +onlyGivenNames x
    | with_reducible apply State.wr_keeps
    | with_reducible apply loopN_keeps
    | with_reducible apply State.start_keeps
    | with_reducible apply State.checked_keeps
    | with_reducible apply State.setPort_keeps
    | with_reducible apply State.tdiConfigChanged_keeps
    | with_reducible apply State.applyTable_keeps
    | with_reducible apply keeps_foldl
    | with_reducible apply keeps_foldl_fst
    | with_reducible apply keepsOut_ite
    | with_reducible apply keeps_ite
    | with_reducible apply keepsOut_next
    | simp -zeta only [keeps_mk1, keeps_mk2]
    | (intro i; intros; try beta_reduce)

theorem State.portControl_keeps {s0 s : State} (h_ : Keeps s0 s) (h : Hdr) (port : Nat) (bad : Bool) (wrong : Bool) (cmd : Instr) (go : State → State) (hgo : ∀ t, Keeps s0 t → Keeps s0 (go t)) :
    KeepsOut s0 (State.portControl s h port bad wrong cmd go) := by
  unfold State.portControl
  repeat' first
    | with_reducible assumption
    | with_reducible apply State.start_keeps
    | with_reducible apply State.checked_keeps
    | with_reducible apply keepsOut_next
    | (intro i; intros; try beta_reduce)
    | apply_assumption

theorem State.portEnd_keeps {s0 s : State} (h_ : Keeps s0 s) (h : Hdr) (q : Nat) :
    Keeps s0 (State.portEnd s h q) := by
  unfold State.portEnd
  repeat' first
    | with_reducible assumption
    | with_reducible apply State.complete_keeps

theorem execPortUp_keeps {s0 s : State} (h_ : Keeps s0 s) (h : Hdr) (port : Nat) :
    KeepsOut s0 (execPortUp h port s) := by
  unfold execPortUp
  repeat' first
    | with_reducible assumption
    | (extract_lets +onlyGivenNames x; refine keeps_cut (p := Keeps s0 x) ?_ (fun hx => ?_) <;> [subst x; clear_value x])
    | (extract_lets +onlyGivenNames x; refine keeps_cut (p := Keeps s0 x.1) ?_ (fun hx => ?_) <;> [subst x; clear_value x])
    | extract_lets +onlyGivenNames x
    | with_reducible apply State.startTraining_keeps
    | with_reducible apply State.portControl_keeps
    | with_reducible apply keepsOut_next
    | (intro i; intros; try beta_reduce)

theorem execPortDownCommand_keeps {s0 s : State} (h_ : Keeps s0 s) (h : Hdr) (port : Nat) :
    KeepsOut s0 (execPortDownCommand h port s) := by
  unfold execPortDownCommand
  repeat' first
    | with_reducible assumption
    | with_reducible apply State.goDown_keeps
    | with_reducible apply State.portControl_keeps
    | with_reducible apply State.portEnd_keeps
    | with_reducible apply keepsOut_next
    | (intro i; intros; try beta_reduce)

theorem execPortIdle_keeps {s0 s : State} (h_ : Keeps s0 s) (h : Hdr) (port : Nat) :
    KeepsOut s0 (execPortIdle h port s) := by
  unfold execPortIdle
  repeat' first
    | with_reducible assumption
    | with_reducible apply State.post_keeps
    | with_reducible apply State.setPort_keeps
    | with_reducible apply State.portControl_keeps
    | with_reducible apply keepsOut_next
    | simp -zeta only [keeps_mk1, keeps_mk2]
    | (intro i; intros; try beta_reduce)

theorem execPortRekey_keeps {s0 s : State} (h_ : Keeps s0 s) (h : Hdr) (port : Nat) :
    KeepsOut s0 (execPortRekey h port s) := by
  unfold execPortRekey
  repeat' first
    | with_reducible assumption
    | with_reducible apply State.startRekey_keeps
    | with_reducible apply State.portControl_keeps
    | with_reducible apply keepsOut_next
    | (intro i; intros; try beta_reduce)

theorem State.timeFree_keeps {s0 s : State} (h_ : Keeps s0 s) :
    Keeps s0 (State.timeFree s) := by
  unfold State.timeFree
  repeat' first
    | with_reducible assumption
    | with_reducible apply State.wr_keeps

theorem State.setTimeRole_keeps {s0 s : State} (h_ : Keeps s0 s) (q : Nat) (role : Nat) :
    Keeps s0 (State.setTimeRole s q role) := by
  unfold State.setTimeRole
  repeat' first
    | with_reducible assumption
    | (extract_lets +onlyGivenNames x; refine keeps_cut (p := Keeps s0 x) ?_ (fun hx => ?_) <;> [subst x; clear_value x])
    | (extract_lets +onlyGivenNames x; refine keeps_cut (p := ∀ t, Keeps s0 t → Keeps s0 (x t)) ?_ (fun hx => ?_) <;> [subst x; clear_value x])
    | (extract_lets +onlyGivenNames x; refine keeps_cut (p := ∀ a t, Keeps s0 t → Keeps s0 (x a t)) ?_ (fun hx => ?_) <;> [subst x; clear_value x])
    | (extract_lets +onlyGivenNames x; refine keeps_cut (p := ∀ a b t, Keeps s0 t → Keeps s0 (x a b t)) ?_ (fun hx => ?_) <;> [subst x; clear_value x])
    | (extract_lets +onlyGivenNames x; refine keeps_cut (p := Keeps s0 x.1) ?_ (fun hx => ?_) <;> [subst x; clear_value x])
    | (extract_lets +onlyGivenNames x; clear_value x)
    | with_reducible apply State.wr_keeps
    | with_reducible apply State.setPort_keeps
    | with_reducible apply keeps_ite
    | simp -zeta only [keeps_mk1, keeps_mk2]
    | apply_assumption
    | (intro i; intros; try beta_reduce)

theorem execPortTime_keeps {s0 s : State} (h_ : Keeps s0 s) (h : Hdr) (port : Nat) (arg : Nat) :
    KeepsOut s0 (execPortTime h port arg s) := by
  unfold execPortTime
  repeat' first
    | with_reducible assumption
    | (extract_lets +onlyGivenNames x; refine keeps_cut (p := Keeps s0 x) ?_ (fun hx => ?_) <;> [subst x; clear_value x])
    | (extract_lets +onlyGivenNames x; refine keeps_cut (p := Keeps s0 x.1) ?_ (fun hx => ?_) <;> [subst x; clear_value x])
    | extract_lets +onlyGivenNames x
    | with_reducible apply State.wr_keeps
    | with_reducible apply State.complete_keeps
    | with_reducible apply State.start_keeps
    | with_reducible apply State.checked_keeps
    | with_reducible apply State.portEnd_keeps
    | with_reducible apply State.timeFree_keeps
    | with_reducible apply State.setTimeRole_keeps
    | with_reducible apply keepsOut_ite
    | with_reducible apply keeps_ite
    | with_reducible apply keepsOut_next
    | (intro i; intros; try beta_reduce)

theorem execPortRetireLane_keeps {s0 s : State} (h_ : Keeps s0 s) (h : Hdr) (port : Nat) (lane : Nat) :
    KeepsOut s0 (execPortRetireLane h port lane s) := by
  unfold execPortRetireLane
  repeat' first
    | with_reducible assumption
    | (extract_lets +onlyGivenNames x; refine keeps_cut (p := Keeps s0 x) ?_ (fun hx => ?_) <;> [subst x; clear_value x])
    | (extract_lets +onlyGivenNames x; refine keeps_cut (p := Keeps s0 x.1) ?_ (fun hx => ?_) <;> [subst x; clear_value x])
    | extract_lets +onlyGivenNames x
    | with_reducible apply State.failLane_keeps
    | with_reducible apply State.portControl_keeps
    | with_reducible apply State.portEnd_keeps
    | with_reducible apply keepsOut_ite
    | with_reducible apply keeps_ite
    | with_reducible apply keepsOut_next
    | (intro i; intros; try beta_reduce)

theorem execPortEncrypt_keeps {s0 s : State} (h_ : Keeps s0 s) (h : Hdr) (port : Nat) (arg : Nat) :
    KeepsOut s0 (execPortEncrypt h port arg s) := by
  unfold execPortEncrypt
  repeat' first
    | with_reducible assumption
    | with_reducible apply State.wr_keeps
    | with_reducible apply State.portControl_keeps
    | with_reducible apply State.portEnd_keeps
    | with_reducible apply keepsOut_next
    | (intro i; intros; try beta_reduce)

theorem execPortWake_keeps {s0 s : State} (h_ : Keeps s0 s) (h : Hdr) (port : Nat) :
    KeepsOut s0 (execPortWake h port s) := by
  unfold execPortWake
  repeat' first
    | with_reducible assumption
    | with_reducible apply State.setPort_keeps
    | with_reducible apply State.setPortState_keeps
    | with_reducible apply State.portUpEvent_keeps
    | with_reducible apply State.portControl_keeps
    | with_reducible apply State.portEnd_keeps
    | with_reducible apply keepsOut_next
    | simp -zeta only [keeps_mk1, keeps_mk2]
    | (intro i; intros; try beta_reduce)

theorem execLinkMargin_keeps {s0 s : State} (h_ : Keeps s0 s) (h : Hdr) (port : Nat) (lane : Nat) (kind : Nat) (dwell : Nat) (lo : Nat) (hi : Nat) (out : Nat) :
    KeepsOut s0 (execLinkMargin h port lane kind dwell lo hi out s) := by
  unfold execLinkMargin
  repeat' first
    | with_reducible assumption
    | (extract_lets +onlyGivenNames x; refine keeps_cut (p := Keeps s0 x) ?_ (fun hx => ?_) <;> [subst x; clear_value x])
    | (extract_lets +onlyGivenNames x; refine keeps_cut (p := Keeps s0 x.1) ?_ (fun hx => ?_) <;> [subst x; clear_value x])
    | extract_lets +onlyGivenNames x
    | with_reducible apply State.gate_keeps
    | with_reducible apply State.checked_keeps
    | with_reducible apply keepsOut_next
    | (intro i; intros; try beta_reduce)

theorem execLinkMarginComplete_keeps {s0 s : State} (h_ : Keeps s0 s) (h : Hdr) (points : List (Nat × Bool)) :
    KeepsOut s0 (execLinkMarginComplete h points s) := by
  unfold execLinkMarginComplete
  repeat' first
    | with_reducible assumption
    | (extract_lets +onlyGivenNames x; refine keeps_cut (p := Keeps s0 x) ?_ (fun hx => ?_) <;> [subst x; clear_value x])
    | (extract_lets +onlyGivenNames x; refine keeps_cut (p := Keeps s0 x.1) ?_ (fun hx => ?_) <;> [subst x; clear_value x])
    | extract_lets +onlyGivenNames x
    | with_reducible apply State.complete_keeps
    | with_reducible apply State.ptrWrite_keeps
    | with_reducible apply keepsOut_next
    | split
    | (intro i; intros; try beta_reduce)

theorem execPlkCfgWrite_keeps {s0 s : State} (h_ : Keeps s0 s) (port : Fin 12) (v : Nat) :
    KeepsOut s0 (execPlkCfgWrite port v s) := by
  unfold execPlkCfgWrite
  repeat' first
    | with_reducible assumption
    | with_reducible apply State.wr_keeps
    | with_reducible apply keepsOut_next

theorem State.linkDiscard_keeps {s0 s : State} (h_ : Keeps s0 s) (p : Nat) :
    Keeps s0 (State.linkDiscard s p) := by
  unfold State.linkDiscard
  repeat' first
    | with_reducible assumption
    | (extract_lets +onlyGivenNames x; refine keeps_cut (p := Keeps s0 x) ?_ (fun hx => ?_) <;> [subst x; clear_value x])
    | (extract_lets +onlyGivenNames x; refine keeps_cut (p := Keeps s0 x.1) ?_ (fun hx => ?_) <;> [subst x; clear_value x])
    | extract_lets +onlyGivenNames x
    | with_reducible apply State.bump_keeps
    | with_reducible apply keeps_foldl
    | with_reducible apply keeps_foldl_fst
    | simp -zeta only [keeps_mk1, keeps_mk2]
    | (intro i; intros; try beta_reduce)

theorem State.linkRelease_keeps {s0 s : State} (h_ : Keeps s0 s) (p : Nat) :
    Keeps s0 (State.linkRelease s p) := by
  unfold State.linkRelease
  repeat' first
    | with_reducible assumption
    | (extract_lets +onlyGivenNames x; refine keeps_cut (p := Keeps s0 x) ?_ (fun hx => ?_) <;> [subst x; clear_value x])
    | (extract_lets +onlyGivenNames x; refine keeps_cut (p := Keeps s0 x.1) ?_ (fun hx => ?_) <;> [subst x; clear_value x])
    | extract_lets +onlyGivenNames x
    | with_reducible apply State.wr_keeps
    | with_reducible apply loopN_keeps
    | with_reducible apply State.setPort_keeps
    | with_reducible apply State.syncViews_keeps
    | with_reducible apply keeps_ite
    | simp -zeta only [keeps_mk1, keeps_mk2]
    | (intro i; intros; try beta_reduce)

end Sys2Proof.Machine
end

