-- ==== Sys2Proof/Laws/KeepsHandover.lean ====
section
/-! SUPPORT. What the operations of Machine/Handover.lean never undo (Keeps of Safety.lean): one lemma per operation. -/

set_option linter.all false

namespace Sys2Proof.Machine

theorem State.setHand_keeps {s0 s : State} (h_ : Keeps s0 s) (p : Nat) (x : Option Hand) :
    Keeps s0 (State.setHand s p x) := by
  unfold State.setHand
  repeat' first
    | with_reducible assumption
    | simp -zeta only [keeps_mk1, keeps_mk2]

theorem State.stopCores_keeps {s0 s : State} (h_ : Keeps s0 s) (p : Nat) :
    Keeps s0 (State.stopCores s p) := by
  unfold State.stopCores
  repeat' first
    | with_reducible assumption
    | (extract_lets +onlyGivenNames x; refine keeps_cut (p := Keeps s0 x) ?_ (fun hx => ?_) <;> [subst x; clear_value x])
    | (extract_lets +onlyGivenNames x; refine keeps_cut (p := Keeps s0 x.1) ?_ (fun hx => ?_) <;> [subst x; clear_value x])
    | extract_lets +onlyGivenNames x
    | simp -zeta only [keeps_mk1, keeps_mk2]
    | (intro i; intros; try beta_reduce)

theorem State.stopWalks_keeps {s0 s : State} (h_ : Keeps s0 s) (p : Nat) :
    Keeps s0 (State.stopWalks s p) := by
  unfold State.stopWalks
  repeat' first
    | with_reducible assumption
    | (extract_lets +onlyGivenNames x; refine keeps_cut (p := Keeps s0 x) ?_ (fun hx => ?_) <;> [subst x; clear_value x])
    | (extract_lets +onlyGivenNames x; refine keeps_cut (p := Keeps s0 x.1) ?_ (fun hx => ?_) <;> [subst x; clear_value x])
    | extract_lets +onlyGivenNames x
    | simp -zeta only [keeps_mk1, keeps_mk2]
    | (intro i; intros; try beta_reduce)

theorem State.endCommands_keeps {s0 s : State} (h_ : Keeps s0 s) (p : Nat) :
    Keeps s0 (State.endCommands s p) := by
  unfold State.endCommands
  repeat' first
    | with_reducible assumption
    | (extract_lets +onlyGivenNames x; refine keeps_cut (p := Keeps s0 x) ?_ (fun hx => ?_) <;> [subst x; clear_value x])
    | (extract_lets +onlyGivenNames x; refine keeps_cut (p := Keeps s0 x.1) ?_ (fun hx => ?_) <;> [subst x; clear_value x])
    | extract_lets +onlyGivenNames x
    | with_reducible apply State.dropTaken_keeps
    | with_reducible apply State.complete_keeps
    | with_reducible apply keeps_foldl
    | with_reducible apply keeps_foldl_fst
    | with_reducible apply keeps_ite
    | (intro i; intros; try beta_reduce)

theorem State.startHandover_keeps {s0 s : State} (h_ : Keeps s0 s) (p : Nat) (toFree : Bool) (flr : Bool) (force : Bool) :
    Keeps s0 (State.startHandover s p toFree flr force) := by
  unfold State.startHandover
  repeat' first
    | with_reducible assumption
    | (extract_lets +onlyGivenNames x; refine keeps_cut (p := Keeps s0 x) ?_ (fun hx => ?_) <;> [subst x; clear_value x])
    | (extract_lets +onlyGivenNames x; refine keeps_cut (p := Keeps s0 x.1) ?_ (fun hx => ?_) <;> [subst x; clear_value x])
    | extract_lets +onlyGivenNames x
    | with_reducible apply State.wr_keeps
    | with_reducible apply State.tdiError_keeps
    | with_reducible apply State.demand_keeps
    | with_reducible apply State.mowActivity_keeps
    | with_reducible apply State.linkDiscard_keeps
    | with_reducible apply State.setHand_keeps
    | with_reducible apply State.stopCores_keeps
    | with_reducible apply State.stopWalks_keeps
    | with_reducible apply State.endCommands_keeps
    | with_reducible apply keeps_ite
    | simp -zeta only [keeps_mk1, keeps_mk2]
    | split

theorem State.destroyKeys_keeps {s0 s : State} (h_ : Keeps s0 s) (p : Nat) :
    Keeps s0 (State.destroyKeys s p) := by
  unfold State.destroyKeys
  repeat' first
    | with_reducible assumption
    | (extract_lets +onlyGivenNames x; refine keeps_cut (p := Keeps s0 x) ?_ (fun hx => ?_) <;> [subst x; clear_value x])
    | (extract_lets +onlyGivenNames x; refine keeps_cut (p := Keeps s0 x.1) ?_ (fun hx => ?_) <;> [subst x; clear_value x])
    | extract_lets +onlyGivenNames x
    | with_reducible apply State.wr_keeps
    | simp -zeta only [keeps_mk1, keeps_mk2]

theorem execHandoverDrainDone_keeps {s0 s : State} (h_ : Keeps s0 s) (p : Fin 16) :
    KeepsOut s0 (execHandoverDrainDone p s) := by
  unfold execHandoverDrainDone
  repeat' first
    | with_reducible assumption
    | (extract_lets +onlyGivenNames x; refine keeps_cut (p := Keeps s0 x) ?_ (fun hx => ?_) <;> [subst x; clear_value x])
    | (extract_lets +onlyGivenNames x; refine keeps_cut (p := Keeps s0 x.1) ?_ (fun hx => ?_) <;> [subst x; clear_value x])
    | extract_lets +onlyGivenNames x
    | with_reducible apply State.wr_keeps
    | with_reducible apply State.bump_keeps
    | with_reducible apply State.setChannels_keeps
    | with_reducible apply State.mowActivity_keeps
    | with_reducible apply State.newKey_keeps
    | with_reducible apply State.setHand_keeps
    | with_reducible apply State.destroyKeys_keeps
    | with_reducible apply keeps_foldl
    | with_reducible apply keeps_foldl_fst
    | with_reducible apply keepsOut_ite
    | with_reducible apply keeps_ite
    | with_reducible apply keepsOut_next
    | simp -zeta only [keeps_mk1, keeps_mk2]
    | split
    | (intro i; intros; try beta_reduce)

theorem State.markCore_keeps {s0 s : State} (h_ : Keeps s0 s) (c : Nat) :
    Keeps s0 (State.markCore s c) := by
  unfold State.markCore
  repeat' first
    | with_reducible assumption
    | simp -zeta only [keeps_mk1, keeps_mk2]

theorem State.setSpare_keeps {s0 s : State} (h_ : Keeps s0 s) (c : Nat) (b : Nat) (k : Nat) (v : Nat) :
    Keeps s0 (State.setSpare s c b k v) := by
  unfold State.setSpare
  repeat' first
    | with_reducible assumption
    | simp -zeta only [keeps_mk1, keeps_mk2]
    | simp only [keeps_mk1, keeps_mk2]
    | simp (zetaDelta := true) only [keeps_mk1, keeps_mk2]

theorem State.useSpare_keeps {s0 s : State} (h_ : Keeps s0 s) (c : Nat) (b : Nat) (br : Nat) :
    Keeps s0 (State.useSpare s c b br) := by
  unfold State.useSpare
  repeat' first
    | with_reducible assumption
    | with_reducible apply State.markCore_keeps
    | with_reducible apply State.setSpare_keeps
    | split
    | (intro i; intros; try beta_reduce)

theorem State.repairRow_keeps {s0 s : State} (h_ : Keeps s0 s) (c : Nat) (b : Nat) (br : Nat) :
    Keeps s0 (State.repairRow s c b br) := by
  unfold State.repairRow
  repeat' first
    | with_reducible assumption
    | (extract_lets +onlyGivenNames x; refine keeps_cut (p := Keeps s0 x) ?_ (fun hx => ?_) <;> [subst x; clear_value x])
    | (extract_lets +onlyGivenNames x; refine keeps_cut (p := Keeps s0 x.1) ?_ (fun hx => ?_) <;> [subst x; clear_value x])
    | extract_lets +onlyGivenNames x
    | with_reducible apply State.setSpare_keeps
    | with_reducible apply State.useSpare_keeps
    | with_reducible apply keeps_ite
    | split

theorem State.repairColumns_keeps {s0 s : State} (h_ : Keeps s0 s) (c : Nat) (cols : List Nat) :
    Keeps s0 (State.repairColumns s c cols) := by
  unfold State.repairColumns
  repeat' first
    | with_reducible assumption
    | (extract_lets +onlyGivenNames x; refine keeps_cut (p := Keeps s0 x) ?_ (fun hx => ?_) <;> [subst x; clear_value x])
    | (extract_lets +onlyGivenNames x; refine keeps_cut (p := Keeps s0 x.1) ?_ (fun hx => ?_) <;> [subst x; clear_value x])
    | (extract_lets +onlyGivenNames x; clear_value x)
    | with_reducible apply State.markCore_keeps
    | with_reducible apply keeps_ite
    | simp -zeta only [keeps_mk1, keeps_mk2]
    | split
    | (intro i; intros; try beta_reduce)

theorem State.setLanes_keeps {s0 s : State} (h_ : Keeps s0 s) (c : Nat) (l : List Nat) :
    Keeps s0 (State.setLanes s c l) := by
  unfold State.setLanes
  repeat' first
    | with_reducible assumption
    | simp -zeta only [keeps_mk1, keeps_mk2]

theorem State.useLane_keeps {s0 s : State} (h_ : Keeps s0 s) (c : Nat) (lane : Nat) :
    Keeps s0 (State.useLane s c lane) := by
  unfold State.useLane
  repeat' first
    | with_reducible assumption
    | (extract_lets +onlyGivenNames x; refine keeps_cut (p := Keeps s0 x) ?_ (fun hx => ?_) <;> [subst x; clear_value x])
    | (extract_lets +onlyGivenNames x; refine keeps_cut (p := Keeps s0 x.1) ?_ (fun hx => ?_) <;> [subst x; clear_value x])
    | extract_lets +onlyGivenNames x
    | with_reducible apply State.markCore_keeps
    | with_reducible apply State.setLanes_keeps
    | split
    | (intro i; intros; try beta_reduce)

theorem State.repairLanes_keeps {s0 s : State} (h_ : Keeps s0 s) (c : Nat) (bad : List Nat) :
    Keeps s0 (State.repairLanes s c bad) := by
  unfold State.repairLanes
  repeat' first
    | with_reducible assumption
    | (extract_lets +onlyGivenNames x; refine keeps_cut (p := Keeps s0 x) ?_ (fun hx => ?_) <;> [subst x; clear_value x])
    | (extract_lets +onlyGivenNames x; refine keeps_cut (p := Keeps s0 x.1) ?_ (fun hx => ?_) <;> [subst x; clear_value x])
    | extract_lets +onlyGivenNames x
    | with_reducible apply State.setLanes_keeps
    | with_reducible apply State.useLane_keeps
    | with_reducible apply keeps_foldl
    | with_reducible apply keeps_foldl_fst
    | with_reducible apply keeps_ite
    | (intro i; intros; try beta_reduce)

theorem State.testCore_keeps {s0 s : State} (h_ : Keeps s0 s) (c : Nat) (found : List Found) :
    Keeps s0 (State.testCore s c found) := by
  unfold State.testCore
  repeat' first
    | with_reducible assumption
    | (extract_lets +onlyGivenNames x; refine keeps_cut (p := Keeps s0 x) ?_ (fun hx => ?_) <;> [subst x; clear_value x])
    | (extract_lets +onlyGivenNames x; refine keeps_cut (p := Keeps s0 x.1) ?_ (fun hx => ?_) <;> [subst x; clear_value x])
    | extract_lets +onlyGivenNames x
    | with_reducible apply State.markCore_keeps
    | with_reducible apply State.repairRow_keeps
    | with_reducible apply State.repairColumns_keeps
    | with_reducible apply State.repairLanes_keeps
    | with_reducible apply keeps_foldl
    | with_reducible apply keeps_foldl_fst
    | split
    | (intro i; intros; try beta_reduce)

theorem State.showMaps_keeps {s0 s : State} (h_ : Keeps s0 s) (c : Nat) :
    Keeps s0 (State.showMaps s c) := by
  unfold State.showMaps
  repeat' first
    | with_reducible assumption
    | (extract_lets +onlyGivenNames x; refine keeps_cut (p := Keeps s0 x) ?_ (fun hx => ?_) <;> [subst x; clear_value x])
    | (extract_lets +onlyGivenNames x; refine keeps_cut (p := Keeps s0 x.1) ?_ (fun hx => ?_) <;> [subst x; clear_value x])
    | extract_lets +onlyGivenNames x
    | with_reducible apply State.wr_keeps
    | with_reducible apply loopN_keeps
    | with_reducible apply keeps_ite
    | (intro i; intros; try beta_reduce)

theorem State.zeroCore_keeps {s0 s : State} (h_ : Keeps s0 s) (c : Nat) : Keeps s0 (s.zeroCore c) := by
  refine keeps_mem h_ (fun w => ?_)
  rw [mems_wf_iff] at *
  exact ⟨w.1, w.2.1, memory_wf_mzero w.2.2.1, memory_wf_mzero w.2.2.2.1, w.2.2.2.2.1, w.2.2.2.2.2.1, twf_tclear _ w.2.2.2.2.2.2.1,
    twf_tclear _ w.2.2.2.2.2.2.2⟩

theorem State.stepThree_keeps {s0 s : State} (h_ : Keeps s0 s) (p : Nat) (found : List Found) :
    Keeps s0 (State.stepThree s p found) := by
  unfold State.stepThree
  repeat' first
    | with_reducible assumption
    | (extract_lets +onlyGivenNames x; refine keeps_cut (p := Keeps s0 x) ?_ (fun hx => ?_) <;> [subst x; clear_value x])
    | (extract_lets +onlyGivenNames x; refine keeps_cut (p := Keeps s0 x.1) ?_ (fun hx => ?_) <;> [subst x; clear_value x])
    | extract_lets +onlyGivenNames x
    | with_reducible apply loopN_keeps
    | with_reducible apply State.repairRow_keeps
    | with_reducible apply State.testCore_keeps
    | with_reducible apply State.zeroCore_keeps
    | with_reducible apply keeps_foldl
    | with_reducible apply keeps_foldl_fst
    | with_reducible apply keeps_ite
    | split
    | (intro i; intros; try beta_reduce)

theorem State.clearFn_keeps {s0 s : State} (h_ : Keeps s0 s) (fn : Nat) :
    Keeps s0 (State.clearFn s fn) := by
  unfold State.clearFn
  repeat' first
    | with_reducible assumption
    | (extract_lets +onlyGivenNames x; refine keeps_cut (p := Keeps s0 x) ?_ (fun hx => ?_) <;> [subst x; clear_value x])
    | (extract_lets +onlyGivenNames x; refine keeps_cut (p := Keeps s0 x.1) ?_ (fun hx => ?_) <;> [subst x; clear_value x])
    | extract_lets +onlyGivenNames x
    | simp -zeta only [keeps_mk1, keeps_mk2]
    | (intro i; intros; try beta_reduce)

theorem State.stepFive_keeps {s0 s : State} (h_ : Keeps s0 s) (p : Nat) (toFree : Bool) : Keeps s0 (s.stepFive p toFree) := by
  unfold State.stepFive
  extract_lets t t2 sh a1 a2 a3 a4 t3 t4
  have k2 : Keeps s0 t2 := State.linkRelease_keeps (State.clearFn_keeps (State.resetFlds_keeps h_ _) ..) ..
  clear_value t2
  have k3 : Keeps s0 t3 := by
    have k : Keeps s0 { t2 with shelf := { t2.shelf with tray := mzero t2.shelf.tray (8 * p * 0x40000) (8 * 0x40000) } } :=
      keeps_shelf k2 (fun w => memory_wf_mzero w)
    exact ⟨k.1, k.2, k.3, k.4⟩
  clear_value t3
  exact State.wr_keeps (State.wr_keeps (State.syncGroup_keeps (State.zeroHbm_keeps k3 ..) ..) ..) ..

theorem State.syncSpares_keeps {s0 s : State} (h_ : Keeps s0 s) :
    Keeps s0 (State.syncSpares s) := by
  unfold State.syncSpares
  repeat' first
    | with_reducible assumption
    | (extract_lets +onlyGivenNames x; refine keeps_cut (p := Keeps s0 x) ?_ (fun hx => ?_) <;> [subst x; clear_value x])
    | (extract_lets +onlyGivenNames x; refine keeps_cut (p := Keeps s0 x.1) ?_ (fun hx => ?_) <;> [subst x; clear_value x])
    | extract_lets +onlyGivenNames x
    | with_reducible apply State.wr_keeps

theorem State.spareEvent_keeps {s0 s : State} (h_ : Keeps s0 s) (p : Nat) (kind : Nat) (old : Nat) (new : Nat) :
    Keeps s0 (State.spareEvent s p kind old new) := by
  unfold State.spareEvent
  repeat' first
    | with_reducible assumption
    | with_reducible apply State.event_keeps

theorem State.replaceCore_keeps {s0 s : State} (h_ : Keeps s0 s) (c : Nat) : Keeps s0 (s.replaceCore c).1 := by
  unfold State.replaceCore
  refine keepsP_ite ?_ h_
  split
  · exact State.spareEvent_keeps (State.bump_keeps (State.wr_keeps h_ ..) ..) ..
  · exact h_
theorem State.replaceCore_keeps' {s0 s t' : State} {y} {c : Nat} (e_ : s.replaceCore c = (t', y)) (h_ : Keeps s0 s) : Keeps s0 t' := by
  have := State.replaceCore_keeps h_ c
  rw [e_] at this
  exact this

theorem State.replaceProc_keeps {s0 s : State} (h_ : Keeps s0 s) (p : Nat) : Keeps s0 (s.replaceProc p).1 := by
  unfold State.replaceProc
  refine keepsP_ite ?_ h_
  split
  · exact State.spareEvent_keeps (keeps_mk1.2 h_) ..
  · exact h_
theorem State.replaceProc_keeps' {s0 s t' : State} {y} {p : Nat} (e_ : s.replaceProc p = (t', y)) (h_ : Keeps s0 s) : Keeps s0 t' := by
  have := State.replaceProc_keeps h_ p
  rw [e_] at this
  exact this

theorem State.substitute_keeps {s0 s : State} (h_ : Keeps s0 s) (p : Nat) :
    Keeps s0 (State.substitute s p).1 := by
  unfold State.substitute
  repeat' first
    | with_reducible assumption
    | (extract_lets +onlyGivenNames x; refine keeps_cut (p := Keeps s0 x) ?_ (fun hx => ?_) <;> [subst x; clear_value x])
    | (extract_lets +onlyGivenNames x; refine keeps_cut (p := Keeps s0 x.1) ?_ (fun hx => ?_) <;> [subst x; clear_value x])
    | extract_lets +onlyGivenNames x
    | with_reducible apply State.wr_keeps
    | with_reducible apply loopN_keeps
    | with_reducible apply State.showMaps_keeps
    | with_reducible apply State.syncSpares_keeps
    | with_reducible apply State.replaceCore_keeps
    | with_reducible apply State.replaceProc_keeps
    | with_reducible apply keeps_foldl
    | with_reducible apply keeps_foldl_fst
    | with_reducible apply keeps_fst
    | (intro i; intros; try beta_reduce)
    | refine State.replaceCore_keeps' (by with_reducible assumption) ?_
    | refine State.replaceProc_keeps' (by with_reducible assumption) ?_
theorem State.substitute_keeps' {s0 s t' : State} {y} {p : Nat} (e_ : State.substitute s p = (t', y)) (h_ : Keeps s0 s) : Keeps s0 t' := by
  have := State.substitute_keeps h_ p
  rw [e_] at this
  exact this

theorem State.setDrawer63_keeps {s0 s : State} (h_ : Keeps s0 s) (p : Nat) (role : Nat) :
    Keeps s0 (State.setDrawer63 s p role) := by
  unfold State.setDrawer63
  repeat' first
    | with_reducible assumption
    | (extract_lets +onlyGivenNames x; refine keeps_cut (p := Keeps s0 x) ?_ (fun hx => ?_) <;> [subst x; clear_value x])
    | (extract_lets +onlyGivenNames x; refine keeps_cut (p := Keeps s0 x.1) ?_ (fun hx => ?_) <;> [subst x; clear_value x])
    | extract_lets +onlyGivenNames x
    | with_reducible apply State.wr_keeps
    | with_reducible apply loopN_keeps
    | with_reducible apply State.resetDrawer_keeps
    | with_reducible apply keeps_ite
    | (intro i; intros; try beta_reduce)

theorem State.leaveGroup_keeps {s0 s : State} (h_ : Keeps s0 s) (p : Nat) :
    Keeps s0 (State.leaveGroup s p) := by
  unfold State.leaveGroup
  repeat' first
    | with_reducible assumption
    | (extract_lets +onlyGivenNames x; refine keeps_cut (p := Keeps s0 x) ?_ (fun hx => ?_) <;> [subst x; clear_value x])
    | (extract_lets +onlyGivenNames x; refine keeps_cut (p := Keeps s0 x.1) ?_ (fun hx => ?_) <;> [subst x; clear_value x])
    | extract_lets +onlyGivenNames x
    | with_reducible apply State.wr_keeps
    | with_reducible apply loopN_keeps
    | (intro i; intros; try beta_reduce)

theorem State.endReleases_keeps {s0 s : State} (h_ : Keeps s0 s) :
    Keeps s0 (State.endReleases s) := by
  unfold State.endReleases
  repeat' first
    | with_reducible assumption
    | (extract_lets +onlyGivenNames x; refine keeps_cut (p := Keeps s0 x) ?_ (fun hx => ?_) <;> [subst x; clear_value x])
    | (extract_lets +onlyGivenNames x; refine keeps_cut (p := Keeps s0 x.1) ?_ (fun hx => ?_) <;> [subst x; clear_value x])
    | extract_lets +onlyGivenNames x
    | with_reducible apply State.complete_keeps
    | with_reducible apply keeps_foldl
    | with_reducible apply keeps_foldl_fst
    | with_reducible apply keeps_ite
    | (intro i; intros; try beta_reduce)

theorem State.endStop_keeps {s0 s : State} (h_ : Keeps s0 s) (p : Nat) :
    Keeps s0 (State.endStop s p) := by
  unfold State.endStop
  repeat' first
    | with_reducible assumption
    | (extract_lets +onlyGivenNames x; refine keeps_cut (p := Keeps s0 x) ?_ (fun hx => ?_) <;> [subst x; clear_value x])
    | (extract_lets +onlyGivenNames x; refine keeps_cut (p := Keeps s0 x.1) ?_ (fun hx => ?_) <;> [subst x; clear_value x])
    | extract_lets +onlyGivenNames x
    | with_reducible apply State.wr_keeps
    | with_reducible apply State.emit_keeps
    | with_reducible apply keeps_ite
    | simp -zeta only [keeps_mk1, keeps_mk2]

theorem State.stepSix_keeps {s0 s : State} (h_ : Keeps s0 s) (p : Nat) (x : Hand) (short : Bool) :
    Keeps s0 (State.stepSix s p x short) := by
  unfold State.stepSix
  repeat' first
    | with_reducible assumption
    | (extract_lets +onlyGivenNames x; refine keeps_cut (p := Keeps s0 x) ?_ (fun hx => ?_) <;> [subst x; clear_value x])
    | (extract_lets +onlyGivenNames x; refine keeps_cut (p := Keeps s0 x.1) ?_ (fun hx => ?_) <;> [subst x; clear_value x])
    | extract_lets +onlyGivenNames x
    | with_reducible apply State.wr_keeps
    | with_reducible apply State.bump_keeps
    | with_reducible apply State.event_keeps
    | with_reducible apply State.start_keeps
    | with_reducible apply State.mowActivity_keeps
    | with_reducible apply State.setHand_keeps
    | with_reducible apply State.setDrawer63_keeps
    | with_reducible apply State.leaveGroup_keeps
    | with_reducible apply State.endReleases_keeps
    | with_reducible apply State.endStop_keeps
    | with_reducible apply keeps_ite
    | simp -zeta only [keeps_mk1, keeps_mk2]

theorem execHandoverZeroiseDone_keeps {s0 s : State} (h_ : Keeps s0 s) (p : Fin 16) (found : List Found) :
    KeepsOut s0 (execHandoverZeroiseDone p found s) := by
  unfold execHandoverZeroiseDone
  repeat' first
    | with_reducible assumption
    | (extract_lets +onlyGivenNames x; refine keeps_cut (p := Keeps s0 x) ?_ (fun hx => ?_) <;> [subst x; clear_value x])
    | (extract_lets +onlyGivenNames x; refine keeps_cut (p := Keeps s0 x.1) ?_ (fun hx => ?_) <;> [subst x; clear_value x])
    | extract_lets +onlyGivenNames x
    | with_reducible apply State.zeroHbm_keeps
    | with_reducible apply State.stepThree_keeps
    | with_reducible apply State.stepFive_keeps
    | with_reducible apply State.substitute_keeps
    | with_reducible apply State.stepSix_keeps
    | with_reducible apply keepsOut_ite
    | with_reducible apply keeps_ite
    | with_reducible apply keepsOut_next
    | simp -zeta only [keeps_mk1, keeps_mk2]
    | split
    | refine State.substitute_keeps' (by with_reducible assumption) ?_

theorem execHandoverLateClear_keeps {s0 s : State} (h_ : Keeps s0 s) (p : Fin 16) :
    KeepsOut s0 (execHandoverLateClear p s) := by
  unfold execHandoverLateClear
  repeat' first
    | with_reducible assumption
    | with_reducible apply State.wr_keeps
    | with_reducible apply keepsOut_next

theorem State.assignOne_keeps {s0 s : State} (h_ : Keeps s0 s) (p : Nat) (base : Nat) (log2 : Nat) (role : Nat) (ctxQuotaM1 : Nat) (pool : Nat) (e : Nat × Nat × Nat × Nat) :
    Keeps s0 (State.assignOne s p base log2 role ctxQuotaM1 pool e) := by
  unfold State.assignOne
  repeat' first
    | with_reducible assumption
    | (extract_lets +onlyGivenNames x; refine keeps_cut (p := Keeps s0 x) ?_ (fun hx => ?_) <;> [subst x; clear_value x])
    | (extract_lets +onlyGivenNames x; refine keeps_cut (p := Keeps s0 x.1) ?_ (fun hx => ?_) <;> [subst x; clear_value x])
    | extract_lets +onlyGivenNames x
    | with_reducible apply State.wr_keeps
    | with_reducible apply State.setDrawer63_keeps

theorem execPaddockAssign_keeps {s0 s : State} (h_ : Keeps s0 s) (h : Hdr) (role : Nat) (log2 : Nat) (ctxQuotaM1 : Nat) (pool : Nat) (extents : List (Nat × Nat × Nat × Nat)) :
    KeepsOut s0 (execPaddockAssign h role log2 ctxQuotaM1 pool extents s) := by
  unfold execPaddockAssign
  repeat' first
    | with_reducible assumption
    | (extract_lets +onlyGivenNames x; refine keeps_cut (p := Keeps s0 x) ?_ (fun hx => ?_) <;> [subst x; clear_value x])
    | (extract_lets +onlyGivenNames x; refine keeps_cut (p := Keeps s0 x.1) ?_ (fun hx => ?_) <;> [subst x; clear_value x])
    | extract_lets +onlyGivenNames x
    | with_reducible apply loopN_keeps
    | with_reducible apply State.complete_keeps
    | with_reducible apply State.start_keeps
    | with_reducible apply State.checked_keeps
    | with_reducible apply State.assignOne_keeps
    | with_reducible apply keepsOut_ite
    | with_reducible apply keeps_ite
    | with_reducible apply keepsOut_next
    | (intro i; intros; try beta_reduce)

theorem execPaddockRelease_keeps {s0 s : State} (h_ : Keeps s0 s) (h : Hdr) :
    KeepsOut s0 (execPaddockRelease h s) := by
  unfold execPaddockRelease
  repeat' first
    | with_reducible assumption
    | (extract_lets +onlyGivenNames x; refine keeps_cut (p := Keeps s0 x) ?_ (fun hx => ?_) <;> [subst x; clear_value x])
    | (extract_lets +onlyGivenNames x; refine keeps_cut (p := Keeps s0 x.1) ?_ (fun hx => ?_) <;> [subst x; clear_value x])
    | extract_lets +onlyGivenNames x
    | with_reducible apply State.start_keeps
    | with_reducible apply State.checked_keeps
    | with_reducible apply State.startHandover_keeps
    | with_reducible apply State.leaveGroup_keeps
    | with_reducible apply State.endReleases_keeps
    | with_reducible apply keeps_foldl
    | with_reducible apply keeps_foldl_fst
    | with_reducible apply keepsOut_ite
    | with_reducible apply keeps_ite
    | with_reducible apply keepsOut_next
    | (intro i; intros; try beta_reduce)

theorem State.zeroMoved_keeps {s0 s : State} (h_ : Keeps s0 s) (p : Nat) : Keeps s0 (s.zeroMoved p) := by
  refine loopN_keeps h_ 8 _ (fun i t k => ?_)
  refine keeps_mem k (fun w => ?_)
  rw [mems_wf_iff] at *
  dsimp only
  exact ⟨w.1, w.2.1, memory_wf_mzero w.2.2.1, w.2.2.2.1, w.2.2.2.2.1, w.2.2.2.2.2.1, twf_tclear _ w.2.2.2.2.2.2.1, w.2.2.2.2.2.2.2⟩

theorem State.changeRole_keeps {s0 s : State} (h_ : Keeps s0 s) (p : Nat) (old : Nat) (role : Nat) :
    Keeps s0 (State.changeRole s p old role) := by
  unfold State.changeRole
  repeat' first
    | with_reducible assumption
    | (extract_lets +onlyGivenNames x; refine keeps_cut (p := Keeps s0 x) ?_ (fun hx => ?_) <;> [subst x; clear_value x])
    | (extract_lets +onlyGivenNames x; refine keeps_cut (p := Keeps s0 x.1) ?_ (fun hx => ?_) <;> [subst x; clear_value x])
    | extract_lets +onlyGivenNames x
    | with_reducible apply State.wr_keeps
    | with_reducible apply loopN_keeps
    | with_reducible apply State.discardDeferred_keeps
    | with_reducible apply State.zeroCore_keeps
    | with_reducible apply State.setDrawer63_keeps
    | with_reducible apply State.zeroMoved_keeps
    | with_reducible apply keeps_ite
    | (intro i; intros; try beta_reduce)

theorem execPaddockConfig_keeps {s0 s : State} (h_ : Keeps s0 s) (h : Hdr) (role : Nat) :
    KeepsOut s0 (execPaddockConfig h role s) := by
  unfold execPaddockConfig
  repeat' first
    | with_reducible assumption
    | (extract_lets +onlyGivenNames x; refine keeps_cut (p := Keeps s0 x) ?_ (fun hx => ?_) <;> [subst x; clear_value x])
    | (extract_lets +onlyGivenNames x; refine keeps_cut (p := Keeps s0 x.1) ?_ (fun hx => ?_) <;> [subst x; clear_value x])
    | extract_lets +onlyGivenNames x
    | with_reducible apply State.wr_keeps
    | with_reducible apply loopN_keeps
    | with_reducible apply State.complete_keeps
    | with_reducible apply State.start_keeps
    | with_reducible apply State.checked_keeps
    | with_reducible apply State.changeRole_keeps
    | with_reducible apply keepsOut_ite
    | with_reducible apply keeps_ite
    | with_reducible apply keepsOut_next
    | (intro i; intros; try beta_reduce)

theorem execShelfPowerDownDrained_keeps {s0 s : State} (h_ : Keeps s0 s) (core : Fin 128) :
    KeepsOut s0 (execShelfPowerDownDrained core s) := by
  unfold execShelfPowerDownDrained
  repeat' first
    | with_reducible assumption
    | (extract_lets +onlyGivenNames x; refine keeps_cut (p := Keeps s0 x) ?_ (fun hx => ?_) <;> [subst x; clear_value x])
    | (extract_lets +onlyGivenNames x; refine keeps_cut (p := Keeps s0 x.1) ?_ (fun hx => ?_) <;> [subst x; clear_value x])
    | extract_lets +onlyGivenNames x
    | with_reducible apply State.wr_keeps
    | with_reducible apply State.complete_keeps
    | with_reducible apply State.changeRole_keeps
    | with_reducible apply keepsOut_ite
    | with_reducible apply keeps_ite
    | with_reducible apply keepsOut_next
    | split
    | (intro i; intros; try beta_reduce)

theorem execShelfPowerDownTimeout_keeps {s0 s : State} (h_ : Keeps s0 s) (core : Fin 128) :
    KeepsOut s0 (execShelfPowerDownTimeout core s) := by
  unfold execShelfPowerDownTimeout
  repeat' first
    | with_reducible assumption
    | (extract_lets +onlyGivenNames x; refine keeps_cut (p := Keeps s0 x) ?_ (fun hx => ?_) <;> [subst x; clear_value x])
    | (extract_lets +onlyGivenNames x; refine keeps_cut (p := Keeps s0 x.1) ?_ (fun hx => ?_) <;> [subst x; clear_value x])
    | extract_lets +onlyGivenNames x
    | with_reducible apply State.wr_keeps
    | with_reducible apply loopN_keeps
    | with_reducible apply State.complete_keeps
    | with_reducible apply keepsOut_ite
    | with_reducible apply keeps_ite
    | with_reducible apply keepsOut_next
    | split
    | (intro i; intros; try beta_reduce)

end Sys2Proof.Machine
end

