-- ==== Sys2Proof/Laws/KeepsPower.lean ====
section
/-! SUPPORT. What the operations of Machine/Power.lean never undo (Keeps of Safety.lean): one lemma per operation. -/

set_option linter.all false

namespace Sys2Proof.Machine

theorem State.defaultCores_keeps {s0 s : State} (h_ : Keeps s0 s) :
    Keeps s0 (State.defaultCores s) := by
  unfold State.defaultCores
  repeat' first
    | with_reducible assumption
    | with_reducible apply State.wr_keeps
    | with_reducible apply loopN_keeps
    | (intro i; intros; try beta_reduce)

theorem State.endAll_keeps {s0 s : State} (h_ : Keeps s0 s) :
    Keeps s0 (State.endAll s) := by
  unfold State.endAll
  repeat' first
    | with_reducible assumption
    | (extract_lets +onlyGivenNames x; refine keeps_cut (p := Keeps s0 x) ?_ (fun hx => ?_) <;> [subst x; clear_value x])
    | (extract_lets +onlyGivenNames x; refine keeps_cut (p := Keeps s0 x.1) ?_ (fun hx => ?_) <;> [subst x; clear_value x])
    | extract_lets +onlyGivenNames x
    | with_reducible apply State.dropTaken_keeps
    | with_reducible apply State.complete_keeps
    | with_reducible apply keeps_foldl
    | with_reducible apply keeps_foldl_fst
    | with_reducible apply keeps_ite
    | simp -zeta only [keeps_mk1, keeps_mk2]
    | (intro i; intros; try beta_reduce)

theorem State.cutLinks_keeps {s0 s : State} (h_ : Keeps s0 s) :
    Keeps s0 (State.cutLinks s) := by
  unfold State.cutLinks
  repeat' first
    | with_reducible assumption
    | with_reducible apply loopN_keeps
    | with_reducible apply State.goDown_keeps
    | with_reducible apply State.destroyKeys_keeps
    | (intro i; intros; try beta_reduce)

theorem State.enterFatal_keeps {s0 s : State} (h_ : Keeps s0 s) (cause : Nat) (unit : Nat) :
    Keeps s0 (State.enterFatal s cause unit) := by
  unfold State.enterFatal
  repeat' first
    | with_reducible assumption
    | (extract_lets +onlyGivenNames x; refine keeps_cut (p := Keeps s0 x) ?_ (fun hx => ?_) <;> [subst x; clear_value x])
    | (extract_lets +onlyGivenNames x; refine keeps_cut (p := Keeps s0 x.1) ?_ (fun hx => ?_) <;> [subst x; clear_value x])
    | extract_lets +onlyGivenNames x
    | with_reducible apply State.wr_keeps
    | with_reducible apply State.satAdd_keeps
    | with_reducible apply State.emit_keeps
    | with_reducible apply State.defaultCores_keeps
    | with_reducible apply State.endAll_keeps
    | with_reducible apply State.cutLinks_keeps
    | with_reducible apply keeps_ite
    | simp -zeta only [keeps_mk1, keeps_mk2]

theorem execDeviceFatal_keeps {s0 s : State} (h_ : Keeps s0 s) (cause : Fin 8) (unit : Nat) :
    KeepsOut s0 (execDeviceFatal cause unit s) := by
  unfold execDeviceFatal
  repeat' first
    | with_reducible assumption
    | with_reducible apply State.enterFatal_keeps
    | with_reducible apply keepsOut_next

theorem execPllLockLoss_keeps {s0 s : State} (h_ : Keeps s0 s) (clock : Fin 7) :
    KeepsOut s0 (execPllLockLoss clock s) := by
  unfold execPllLockLoss
  repeat' first
    | with_reducible assumption
    | with_reducible apply State.wr_keeps
    | with_reducible apply State.setLock_keeps
    | with_reducible apply State.enterFatal_keeps
    | with_reducible apply keepsOut_ite
    | with_reducible apply keeps_ite
    | with_reducible apply keepsOut_next

theorem execSerdesPllLoss_keeps {s0 s : State} (h_ : Keeps s0 s) (link : Fin 15) :
    KeepsOut s0 (execSerdesPllLoss link s) := by
  unfold execSerdesPllLoss
  repeat' first
    | with_reducible assumption
    | with_reducible apply State.setLock_keeps
    | with_reducible apply State.hostLink_keeps
    | with_reducible apply State.farLoss_keeps
    | with_reducible apply State.goDown_keeps
    | with_reducible apply keepsOut_ite
    | with_reducible apply keeps_ite
    | with_reducible apply keepsOut_next

theorem execRegulatorFault_keeps {s0 s : State} (h_ : Keeps s0 s) (unit : Fin 9) :
    KeepsOut s0 (execRegulatorFault unit s) := by
  unfold execRegulatorFault
  repeat' first
    | with_reducible assumption
    | with_reducible apply State.enterFatal_keeps
    | with_reducible apply keepsOut_next

theorem execInputFault_keeps {s0 s : State} (h_ : Keeps s0 s) :
    KeepsOut s0 (execInputFault s) := by
  unfold execInputFault
  repeat' first
    | with_reducible assumption
    | with_reducible apply State.enterFatal_keeps
    | with_reducible apply keepsOut_next

theorem execThermalTrip_keeps {s0 s : State} (h_ : Keeps s0 s) (sensor : Fin 11) (celsius : Nat) :
    KeepsOut s0 (execThermalTrip sensor celsius s) := by
  unfold execThermalTrip
  repeat' first
    | with_reducible assumption
    | (extract_lets +onlyGivenNames x; refine keeps_cut (p := Keeps s0 x) ?_ (fun hx => ?_) <;> [subst x; clear_value x])
    | (extract_lets +onlyGivenNames x; refine keeps_cut (p := Keeps s0 x.1) ?_ (fun hx => ?_) <;> [subst x; clear_value x])
    | extract_lets +onlyGivenNames x
    | with_reducible apply State.enterFatal_keeps
    | with_reducible apply keepsOut_ite
    | with_reducible apply keeps_ite
    | with_reducible apply keepsOut_next

theorem State.kill_keeps {s0 s : State} (h_ : Keeps s0 s) :
    Keeps s0 (State.kill s) := by
  unfold State.kill
  repeat' first
    | with_reducible assumption
    | (extract_lets +onlyGivenNames x; refine keeps_cut (p := Keeps s0 x) ?_ (fun hx => ?_) <;> [subst x; clear_value x])
    | (extract_lets +onlyGivenNames x; refine keeps_cut (p := Keeps s0 x.1) ?_ (fun hx => ?_) <;> [subst x; clear_value x])
    | extract_lets +onlyGivenNames x
    | with_reducible apply State.wr_keeps
    | with_reducible apply loopN_keeps
    | with_reducible apply State.abortScope1_keeps
    | with_reducible apply State.quiesce_keeps
    | with_reducible apply State.goDown_keeps
    | with_reducible apply keeps_ite
    | (intro i; intros; try beta_reduce)
    | refine State.abortScope1_keeps' (by with_reducible assumption) ?_

theorem State.sampleKill_keeps {s0 s : State} (h_ : Keeps s0 s) :
    Keeps s0 (State.sampleKill s) := by
  unfold State.sampleKill
  repeat' first
    | with_reducible assumption
    | with_reducible apply State.kill_keeps
    | with_reducible apply keeps_ite

theorem execKillNAssert_keeps {s0 s : State} (h_ : Keeps s0 s) (lowNs : Nat) :
    KeepsOut s0 (execKillNAssert lowNs s) := by
  unfold execKillNAssert
  repeat' first
    | with_reducible assumption
    | (extract_lets +onlyGivenNames x; refine keeps_cut (p := Keeps s0 x) ?_ (fun hx => ?_) <;> [subst x; clear_value x])
    | (extract_lets +onlyGivenNames x; refine keeps_cut (p := Keeps s0 x.1) ?_ (fun hx => ?_) <;> [subst x; clear_value x])
    | extract_lets +onlyGivenNames x
    | with_reducible apply State.wr_keeps
    | with_reducible apply State.tick_keeps
    | with_reducible apply State.kill_keeps
    | with_reducible apply keepsOut_ite
    | with_reducible apply keeps_ite
    | with_reducible apply keepsOut_next
    | simp -zeta only [keeps_mk1, keeps_mk2]

theorem execKillNDeassert_keeps {s0 s : State} (h_ : Keeps s0 s) :
    KeepsOut s0 (execKillNDeassert s) := by
  unfold execKillNDeassert
  repeat' first
    | with_reducible assumption
    | (extract_lets +onlyGivenNames x; refine keeps_cut (p := Keeps s0 x) ?_ (fun hx => ?_) <;> [subst x; clear_value x])
    | (extract_lets +onlyGivenNames x; refine keeps_cut (p := Keeps s0 x.1) ?_ (fun hx => ?_) <;> [subst x; clear_value x])
    | extract_lets +onlyGivenNames x
    | with_reducible apply State.wr_keeps
    | with_reducible apply keepsOut_next
    | simp -zeta only [keeps_mk1, keeps_mk2]

theorem State.resetFunctions_keeps {s0 s : State} (h_ : Keeps s0 s) (perst : Bool) :
    Keeps s0 (State.resetFunctions s perst) := by
  unfold State.resetFunctions
  repeat' first
    | with_reducible assumption
    | (extract_lets +onlyGivenNames x; refine keeps_cut (p := Keeps s0 x) ?_ (fun hx => ?_) <;> [subst x; clear_value x])
    | (extract_lets +onlyGivenNames x; refine keeps_cut (p := Keeps s0 x.1) ?_ (fun hx => ?_) <;> [subst x; clear_value x])
    | extract_lets +onlyGivenNames x
    | with_reducible apply State.wr_keeps
    | with_reducible apply State.resetFlds_keeps
    | with_reducible apply loopN_keeps
    | with_reducible apply State.emit_keeps
    | with_reducible apply State.dropTaken_keeps
    | with_reducible apply State.endSessions_keeps
    | with_reducible apply State.setHand_keeps
    | with_reducible apply State.startHandover_keeps
    | with_reducible apply State.clearFn_keeps
    | with_reducible apply keeps_foldl
    | with_reducible apply keeps_foldl_fst
    | with_reducible apply keeps_ite
    | simp -zeta only [keeps_mk1, keeps_mk2]
    | (intro i; intros; try beta_reduce)

theorem State.deviceReset_keeps {s0 s : State} (h_ : Keeps s0 s) (lvl : Nat) :
    Keeps s0 (State.deviceReset s lvl) := by
  unfold State.deviceReset
  repeat' first
    | with_reducible assumption
    | (extract_lets +onlyGivenNames x; refine keeps_cut (p := Keeps s0 x) ?_ (fun hx => ?_) <;> [subst x; clear_value x])
    | (extract_lets +onlyGivenNames x; refine keeps_cut (p := Keeps s0 x.1) ?_ (fun hx => ?_) <;> [subst x; clear_value x])
    | extract_lets +onlyGivenNames x
    | with_reducible apply State.wr_keeps
    | with_reducible apply State.resetFunctions_keeps
    | with_reducible apply keeps_ite
    | simp -zeta only [keeps_mk1, keeps_mk2]

theorem execPerstNAssert_keeps {s0 s : State} (h_ : Keeps s0 s) :
    KeepsOut s0 (execPerstNAssert s) := by
  unfold execPerstNAssert
  repeat' first
    | with_reducible assumption
    | (extract_lets +onlyGivenNames x; refine keeps_cut (p := Keeps s0 x) ?_ (fun hx => ?_) <;> [subst x; clear_value x])
    | (extract_lets +onlyGivenNames x; refine keeps_cut (p := Keeps s0 x.1) ?_ (fun hx => ?_) <;> [subst x; clear_value x])
    | extract_lets +onlyGivenNames x
    | with_reducible apply State.bump_keeps
    | with_reducible apply State.deviceReset_keeps
    | with_reducible apply keepsOut_ite
    | with_reducible apply keeps_ite
    | with_reducible apply keepsOut_next
    | simp -zeta only [keeps_mk1, keeps_mk2]

theorem execPerstNDeassert_keeps {s0 s : State} (h_ : Keeps s0 s) :
    KeepsOut s0 (execPerstNDeassert s) := by
  unfold execPerstNDeassert
  repeat' first
    | with_reducible assumption
    | (extract_lets +onlyGivenNames x; refine keeps_cut (p := Keeps s0 x) ?_ (fun hx => ?_) <;> [subst x; clear_value x])
    | (extract_lets +onlyGivenNames x; refine keeps_cut (p := Keeps s0 x.1) ?_ (fun hx => ?_) <;> [subst x; clear_value x])
    | extract_lets +onlyGivenNames x
    | with_reducible apply State.wr_keeps
    | with_reducible apply keepsOut_ite
    | with_reducible apply keeps_ite
    | with_reducible apply keepsOut_next
    | simp -zeta only [keeps_mk1, keeps_mk2]

theorem execPfFlr_keeps {s0 s : State} (h_ : Keeps s0 s) :
    KeepsOut s0 (execPfFlr s) := by
  unfold execPfFlr
  repeat' first
    | with_reducible assumption
    | with_reducible apply State.bump_keeps
    | with_reducible apply State.deviceReset_keeps
    | with_reducible apply keepsOut_ite
    | with_reducible apply keeps_ite
    | with_reducible apply keepsOut_next

theorem State.vfFlr_keeps {s0 s : State} (h_ : Keeps s0 s) (p : Nat) :
    Keeps s0 (State.vfFlr s p) := by
  unfold State.vfFlr
  repeat' first
    | with_reducible assumption
    | (extract_lets +onlyGivenNames x; refine keeps_cut (p := Keeps s0 x) ?_ (fun hx => ?_) <;> [subst x; clear_value x])
    | (extract_lets +onlyGivenNames x; refine keeps_cut (p := Keeps s0 x.1) ?_ (fun hx => ?_) <;> [subst x; clear_value x])
    | extract_lets +onlyGivenNames x
    | with_reducible apply State.bump_keeps
    | with_reducible apply State.setCfg_keeps
    | with_reducible apply State.startHandover_keeps

theorem execVfFlr_keeps {s0 s : State} (h_ : Keeps s0 s) (p : Fin 16) :
    KeepsOut s0 (execVfFlr p s) := by
  unfold execVfFlr
  repeat' first
    | with_reducible assumption
    | with_reducible apply State.vfFlr_keeps
    | with_reducible apply keepsOut_ite
    | with_reducible apply keeps_ite
    | with_reducible apply keepsOut_next

theorem State.becomeReady_keeps {s0 s : State} (h_ : Keeps s0 s) :
    Keeps s0 (State.becomeReady s) := by
  unfold State.becomeReady
  repeat' first
    | with_reducible assumption
    | with_reducible apply State.wr_keeps
    | with_reducible apply State.applyHeld_keeps
    | with_reducible apply State.sampleKill_keeps

theorem execResetComplete_keeps {s0 s : State} (h_ : Keeps s0 s) (speed : Nat) (width : Nat) :
    KeepsOut s0 (execResetComplete speed width s) := by
  unfold execResetComplete
  repeat' first
    | with_reducible assumption
    | (extract_lets +onlyGivenNames x; refine keeps_cut (p := Keeps s0 x) ?_ (fun hx => ?_) <;> [subst x; clear_value x])
    | (extract_lets +onlyGivenNames x; refine keeps_cut (p := Keeps s0 x.1) ?_ (fun hx => ?_) <;> [subst x; clear_value x])
    | extract_lets +onlyGivenNames x
    | with_reducible apply State.wr_keeps
    | with_reducible apply State.hostLink_keeps
    | with_reducible apply State.becomeReady_keeps
    | with_reducible apply keepsOut_ite
    | with_reducible apply keeps_ite
    | with_reducible apply keepsOut_next

theorem State.boot_keeps {s0 s : State} (h_ : Keeps s0 s) (bad : List Nat) :
    Keeps s0 (State.boot s bad) := by
  unfold State.boot
  repeat' first
    | with_reducible assumption
    | (extract_lets +onlyGivenNames x; refine keeps_cut (p := Keeps s0 x) ?_ (fun hx => ?_) <;> [subst x; clear_value x])
    | (extract_lets +onlyGivenNames x; refine keeps_cut (p := Keeps s0 x.1) ?_ (fun hx => ?_) <;> [subst x; clear_value x])
    | extract_lets +onlyGivenNames x
    | with_reducible apply State.wr_keeps
    | with_reducible apply keeps_ite
    | simp -zeta only [keeps_mk1, keeps_mk2]
    | (intro i; intros; try beta_reduce)

theorem State.patchLine_keeps {s0 s : State} (h_ : Keeps s0 s) (g : Nat) (l : Nat) :
    Keeps s0 (State.patchLine s g l) := by
  unfold State.patchLine
  repeat' first
    | with_reducible assumption
    | (extract_lets +onlyGivenNames x; refine keeps_cut (p := Keeps s0 x) ?_ (fun hx => ?_) <;> [subst x; clear_value x])
    | (extract_lets +onlyGivenNames x; refine keeps_cut (p := Keeps s0 x.1) ?_ (fun hx => ?_) <;> [subst x; clear_value x])
    | extract_lets +onlyGivenNames x
    | with_reducible apply State.wr_keeps
    | split
    | (intro i; intros; try beta_reduce)

theorem State.stageSix_keeps {s0 s : State} (h_ : Keeps s0 s) (found : List Found) :
    Keeps s0 (State.stageSix s found) := by
  unfold State.stageSix
  repeat' first
    | with_reducible assumption
    | (extract_lets +onlyGivenNames x; refine keeps_cut (p := Keeps s0 x) ?_ (fun hx => ?_) <;> [subst x; clear_value x])
    | (extract_lets +onlyGivenNames x; refine keeps_cut (p := Keeps s0 x.1) ?_ (fun hx => ?_) <;> [subst x; clear_value x])
    | extract_lets +onlyGivenNames x
    | with_reducible apply State.wr_keeps
    | with_reducible apply loopN_keeps
    | with_reducible apply State.syncGroup_keeps
    | with_reducible apply State.channelFailed_keeps
    | with_reducible apply State.patchLine_keeps
    | with_reducible apply keeps_foldl
    | with_reducible apply keeps_foldl_fst
    | simp -zeta only [keeps_mk1, keeps_mk2]
    | (intro i; intros; try beta_reduce)

theorem State.stageSeven_keeps {s0 s : State} (h_ : Keeps s0 s) (found : List Found) :
    Keeps s0 (State.stageSeven s found) := by
  unfold State.stageSeven
  repeat' first
    | with_reducible assumption
    | (extract_lets +onlyGivenNames x; refine keeps_cut (p := Keeps s0 x) ?_ (fun hx => ?_) <;> [subst x; clear_value x])
    | (extract_lets +onlyGivenNames x; refine keeps_cut (p := Keeps s0 x.1) ?_ (fun hx => ?_) <;> [subst x; clear_value x])
    | extract_lets +onlyGivenNames x
    | with_reducible apply State.bump_keeps
    | with_reducible apply loopN_keeps
    | with_reducible apply State.testCore_keeps
    | with_reducible apply State.syncSpares_keeps
    | with_reducible apply State.defaultCores_keeps
    | with_reducible apply State.enterFatal_keeps
    | with_reducible apply keeps_foldl
    | with_reducible apply keeps_foldl_fst
    | with_reducible apply keeps_ite
    | simp -zeta only [keeps_mk1, keeps_mk2]
    | (intro i; intros; try beta_reduce)

theorem State.stageEight_keeps {s0 s : State} (h_ : Keeps s0 s) (found : List Found) :
    Keeps s0 (State.stageEight s found) := by
  unfold State.stageEight
  repeat' first
    | with_reducible assumption
    | (extract_lets +onlyGivenNames x; refine keeps_cut (p := Keeps s0 x) ?_ (fun hx => ?_) <;> [subst x; clear_value x])
    | (extract_lets +onlyGivenNames x; refine keeps_cut (p := Keeps s0 x.1) ?_ (fun hx => ?_) <;> [subst x; clear_value x])
    | extract_lets +onlyGivenNames x
    | with_reducible apply State.wr_keeps
    | with_reducible apply loopN_keeps
    | with_reducible apply keeps_ite
    | split
    | (intro i; intros; try beta_reduce)

theorem State.stageNine_keeps {s0 s : State} (h_ : Keeps s0 s) : Keeps s0 s.stageNine := by
  unfold State.stageNine
  refine loopN_keeps ?_ 16 _ (fun p t k => State.setHand_keeps (State.newKey_keeps k ..) ..)
  refine keeps_mem h_ (fun w => ?_)
  rw [mems_wf_iff] at *
  exact ⟨rfl, w.2.1, w.2.2.1, w.2.2.2.1, rfl, w.2.2.2.2.2⟩

theorem State.powerOnDone_keeps {s0 s : State} (h_ : Keeps s0 s) :
    Keeps s0 (State.powerOnDone s) := by
  unfold State.powerOnDone
  repeat' first
    | with_reducible assumption
    | (extract_lets +onlyGivenNames x; refine keeps_cut (p := Keeps s0 x) ?_ (fun hx => ?_) <;> [subst x; clear_value x])
    | (extract_lets +onlyGivenNames x; refine keeps_cut (p := Keeps s0 x.1) ?_ (fun hx => ?_) <;> [subst x; clear_value x])
    | extract_lets +onlyGivenNames x
    | with_reducible apply State.wr_keeps
    | with_reducible apply State.syncSpares_keeps
    | with_reducible apply State.becomeReady_keeps

theorem execPowerOnStageEnd_keeps {s0 s : State} (h_ : Keeps s0 s) (ms : Nat) (found : List Found) :
    KeepsOut s0 (execPowerOnStageEnd ms found s) := by
  unfold execPowerOnStageEnd
  repeat' first
    | with_reducible assumption
    | (extract_lets +onlyGivenNames x; refine keeps_cut (p := Keeps s0 x) ?_ (fun hx => ?_) <;> [subst x; clear_value x])
    | (extract_lets +onlyGivenNames x; refine keeps_cut (p := ∀ t, Keeps s0 t → Keeps s0 (x t)) ?_ (fun hx => ?_) <;> [subst x; clear_value x])
    | (extract_lets +onlyGivenNames x; refine keeps_cut (p := ∀ a t, Keeps s0 t → Keeps s0 (x a t)) ?_ (fun hx => ?_) <;> [subst x; clear_value x])
    | (extract_lets +onlyGivenNames x; refine keeps_cut (p := ∀ a b t, Keeps s0 t → Keeps s0 (x a b t)) ?_ (fun hx => ?_) <;> [subst x; clear_value x])
    | (extract_lets +onlyGivenNames x; refine keeps_cut (p := Keeps s0 x.1) ?_ (fun hx => ?_) <;> [subst x; clear_value x])
    | (extract_lets +onlyGivenNames x; clear_value x)
    | with_reducible apply State.wr_keeps
    | with_reducible apply State.hostLink_keeps
    | with_reducible apply State.boot_keeps
    | with_reducible apply State.stageSix_keeps
    | with_reducible apply State.stageSeven_keeps
    | with_reducible apply State.stageEight_keeps
    | with_reducible apply State.stageNine_keeps
    | with_reducible apply State.powerOnDone_keeps
    | with_reducible apply keepsOut_ite
    | with_reducible apply keeps_ite
    | with_reducible apply keepsOut_next
    | simp -zeta only [keeps_mk1, keeps_mk2]
    | split
    | apply_assumption
    | (intro i; intros; try beta_reduce)

theorem State.wf_reset : State.reset.wf = true := by decide
theorem execModulePowerOn_keeps {s0 s : State} (h_ : Keeps s0 s) (offMs : Nat) : KeepsOut s0 (execModulePowerOn offMs s) := by
  unfold execModulePowerOn
  refine keepsOut_ite (keepsOut_next h_) (keepsOut_next ⟨h_.1, h_.2, h_.3, fun _ => ?_⟩)
  exact State.wf_reset

theorem State.powerStep_keeps {s0 s : State} (h_ : Keeps s0 s) :
    Keeps s0 (State.powerStep s) := by
  unfold State.powerStep
  repeat' first
    | with_reducible assumption
    | (extract_lets +onlyGivenNames x; refine keeps_cut (p := Keeps s0 x) ?_ (fun hx => ?_) <;> [subst x; clear_value x])
    | (extract_lets +onlyGivenNames x; refine keeps_cut (p := Keeps s0 x.1) ?_ (fun hx => ?_) <;> [subst x; clear_value x])
    | extract_lets +onlyGivenNames x
    | with_reducible apply loopN_keeps
    | with_reducible apply State.hostLink_keeps
    | with_reducible apply State.farLoss_keeps
    | with_reducible apply State.cutLinks_keeps
    | with_reducible apply keeps_foldl
    | with_reducible apply keeps_foldl_fst
    | simp -zeta only [keeps_mk1, keeps_mk2]
    | (intro i; intros; try beta_reduce)

theorem execPwrgdDeassert_keeps {s0 s : State} (h_ : Keeps s0 s) :
    KeepsOut s0 (execPwrgdDeassert s) := by
  unfold execPwrgdDeassert
  repeat' first
    | with_reducible assumption
    | (extract_lets +onlyGivenNames x; refine keeps_cut (p := Keeps s0 x) ?_ (fun hx => ?_) <;> [subst x; clear_value x])
    | (extract_lets +onlyGivenNames x; refine keeps_cut (p := Keeps s0 x.1) ?_ (fun hx => ?_) <;> [subst x; clear_value x])
    | extract_lets +onlyGivenNames x
    | with_reducible apply State.dropTaken_keeps
    | with_reducible apply State.powerStep_keeps
    | with_reducible apply keeps_foldl
    | with_reducible apply keeps_foldl_fst
    | with_reducible apply keepsOut_ite
    | with_reducible apply keeps_ite
    | with_reducible apply keepsOut_next
    | simp -zeta only [keeps_mk1, keeps_mk2]
    | (intro i; intros; try beta_reduce)

theorem execInputUndervoltage_keeps {s0 s : State} (h_ : Keeps s0 s) :
    KeepsOut s0 (execInputUndervoltage s) := by
  unfold execInputUndervoltage
  repeat' first
    | with_reducible assumption
    | with_reducible apply State.powerStep_keeps
    | with_reducible apply keepsOut_ite
    | with_reducible apply keeps_ite
    | with_reducible apply keepsOut_next

theorem execCoreSelWrite_keeps {s0 s : State} (h_ : Keeps s0 s) (v : Nat) :
    KeepsOut s0 (execCoreSelWrite v s) := by
  unfold execCoreSelWrite
  repeat' first
    | with_reducible assumption
    | (extract_lets +onlyGivenNames x; refine keeps_cut (p := Keeps s0 x) ?_ (fun hx => ?_) <;> [subst x; clear_value x])
    | (extract_lets +onlyGivenNames x; refine keeps_cut (p := Keeps s0 x.1) ?_ (fun hx => ?_) <;> [subst x; clear_value x])
    | extract_lets +onlyGivenNames x
    | with_reducible apply State.wr_keeps
    | with_reducible apply State.bump_keeps
    | with_reducible apply State.setLock_keeps
    | with_reducible apply keepsOut_ite
    | with_reducible apply keeps_ite
    | with_reducible apply keepsOut_next
    | (intro i; intros; try beta_reduce)

theorem execCorePllRelockDone_keeps {s0 s : State} (h_ : Keeps s0 s) :
    KeepsOut s0 (execCorePllRelockDone s) := by
  unfold execCorePllRelockDone
  repeat' first
    | with_reducible assumption
    | (extract_lets +onlyGivenNames x; refine keeps_cut (p := Keeps s0 x) ?_ (fun hx => ?_) <;> [subst x; clear_value x])
    | (extract_lets +onlyGivenNames x; refine keeps_cut (p := Keeps s0 x.1) ?_ (fun hx => ?_) <;> [subst x; clear_value x])
    | extract_lets +onlyGivenNames x
    | with_reducible apply State.wr_keeps
    | with_reducible apply State.setLock_keeps
    | with_reducible apply keepsOut_ite
    | with_reducible apply keeps_ite
    | with_reducible apply keepsOut_next

theorem execRefusedClear_keeps {s0 s : State} (h_ : Keeps s0 s) :
    KeepsOut s0 (execRefusedClear s) := by
  unfold execRefusedClear
  repeat' first
    | with_reducible assumption
    | with_reducible apply State.wr_keeps
    | with_reducible apply keepsOut_next

theorem execI3cDynamicAddress_keeps {s0 s : State} (h_ : Keeps s0 s) (_setdasa : Bool) (addr : Fin 128) :
    KeepsOut s0 (execI3cDynamicAddress _setdasa addr s) := by
  unfold execI3cDynamicAddress
  repeat' first
    | with_reducible assumption
    | (extract_lets +onlyGivenNames x; refine keeps_cut (p := Keeps s0 x) ?_ (fun hx => ?_) <;> [subst x; clear_value x])
    | (extract_lets +onlyGivenNames x; refine keeps_cut (p := Keeps s0 x.1) ?_ (fun hx => ?_) <;> [subst x; clear_value x])
    | extract_lets +onlyGivenNames x
    | with_reducible apply keepsOut_ite
    | with_reducible apply keeps_ite
    | with_reducible apply keepsOut_next
    | simp -zeta only [keeps_mk1, keeps_mk2]

end Sys2Proof.Machine
end

