-- ==== Sys2Proof/Laws/KeepsTrust.lean ====
section
/-! SUPPORT. What the operations of Machine/Trust.lean never undo (Keeps of Safety.lean): one lemma per operation. -/

set_option linter.all false

namespace Sys2Proof.Machine

theorem State.random_keeps {s0 s : State} (h_ : Keeps s0 s) (n : Nat) :
    Keeps s0 (State.random s n).2 := by
  unfold State.random
  repeat' first
    | with_reducible assumption
    | with_reducible apply State.tick_keeps
    | with_reducible apply keeps_snd
theorem State.random_keeps' {s0 s t' : State} {y} {n : Nat} (e_ : State.random s n = (y, t')) (h_ : Keeps s0 s) : Keeps s0 t' := by
  have := State.random_keeps h_ n
  rw [e_] at this
  exact this

theorem State.answer_keeps {s0 s : State} (h_ : Keeps s0 s) (c : Chan) (name : String) (fields : List Nat) (data : List Byte) :
    Keeps s0 (State.answer s c name fields data) := by
  unfold State.answer
  repeat' first
    | with_reducible assumption
    | with_reducible apply State.emit_keeps

theorem State.refuse_keeps {s0 s : State} (h_ : Keeps s0 s) (c : Chan) :
    Keeps s0 (State.refuse s c) := by
  unfold State.refuse
  repeat' first
    | with_reducible assumption
    | with_reducible apply State.bump_keeps
    | with_reducible apply State.answer_keeps

theorem State.bindTo_keeps {s0 s : State} (h_ : Keeps s0 s) (c : Chan) (n : Nat) :
    KeepsO s0 (State.bindTo s c n) := by
  unfold State.bindTo
  repeat' first
    | with_reducible assumption
    | (extract_lets +onlyGivenNames x; refine keeps_cut (p := Keeps s0 x) ?_ (fun hx => ?_) <;> [subst x; clear_value x])
    | (extract_lets +onlyGivenNames x; refine keeps_cut (p := Keeps s0 x.1) ?_ (fun hx => ?_) <;> [subst x; clear_value x])
    | extract_lets +onlyGivenNames x
    | with_reducible apply State.wr_keeps
    | with_reducible apply State.setSession_keeps
    | with_reducible apply keepsO_ite
    | with_reducible apply keeps_ite
    | with_reducible apply keepsO_none
    | with_reducible apply keepsO_some
    | split
    | (intro i; intros; try beta_reduce)
theorem State.bindTo_keeps' {s0 s t' : State} {c : Chan} {n : Nat} (e_ : State.bindTo s c n = some t') (h_ : Keeps s0 s) : Keeps s0 t' := State.bindTo_keeps h_ c n t' e_

theorem State.inSession_keeps {s0 s : State} (h_ : Keeps s0 s) (c : Chan) (go : State → State) (hgo : ∀ t, Keeps s0 t → Keeps s0 (go t)) :
    Keeps s0 (State.inSession s c go) := by
  unfold State.inSession
  repeat' first
    | with_reducible assumption
    | with_reducible apply State.answer_keeps
    | with_reducible apply keeps_ite
    | (intro i; intros; try beta_reduce)
    | apply_assumption

theorem State.bound_keeps {s0 s : State} (h_ : Keeps s0 s) (c : Chan) (n : Nat) (go : State → State) (hgo : ∀ t, Keeps s0 t → Keeps s0 (go t)) :
    Keeps s0 (State.bound s c n go) := by
  unfold State.bound
  repeat' first
    | with_reducible assumption
    | with_reducible apply State.refuse_keeps
    | with_reducible apply State.inSession_keeps
    | split
    | (intro i; intros; try beta_reduce)
    | apply_assumption
    | refine State.bindTo_keeps' (by with_reducible assumption) ?_

theorem State.answerNotReady_keeps {s0 s : State} (h_ : Keeps s0 s) (c : Chan) (n : Nat) :
    Keeps s0 (State.answerNotReady s c n) := by
  unfold State.answerNotReady
  repeat' first
    | with_reducible assumption
    | with_reducible apply State.bump_keeps
    | with_reducible apply State.answer_keeps

theorem State.tdisp_keeps {s0 s : State} (h_ : Keeps s0 s) (c : Chan) (n : Nat) (go : State → State)
    (hgo : ∀ t, Keeps s0 t → Keeps s0 (go t)) : Keeps s0 (s.tdisp c n go) := by
  unfold State.tdisp
  refine State.inSession_keeps h_ _ _ (fun t k => ?_)
  refine keeps_ite (State.refuse_keeps k ..) (keeps_ite (State.answerNotReady_keeps k ..) ?_)
  split
  · rename_i e
    exact hgo _ (State.bindTo_keeps' e k)
  · exact State.refuse_keeps k ..

theorem execSpdmRequest_keeps {s0 s : State} (h_ : Keeps s0 s) (c : Chan) (request : List Byte) :
    KeepsOut s0 (execSpdmRequest c request s) := by
  unfold execSpdmRequest
  repeat' first
    | with_reducible assumption
    | (extract_lets +onlyGivenNames x; refine keeps_cut (p := Keeps s0 x) ?_ (fun hx => ?_) <;> [subst x; clear_value x])
    | (extract_lets +onlyGivenNames x; refine keeps_cut (p := Keeps s0 x.1) ?_ (fun hx => ?_) <;> [subst x; clear_value x])
    | extract_lets +onlyGivenNames x
    | with_reducible apply State.tick_keeps
    | with_reducible apply State.answer_keeps
    | with_reducible apply keepsOut_ite
    | with_reducible apply keeps_ite
    | with_reducible apply keepsOut_next
    | split

theorem execKeyExchange_keeps {s0 s : State} (h_ : Keeps s0 s) (transport : Fin 3) (port : Fin 12) :
    KeepsOut s0 (execKeyExchange transport port s) := by
  unfold execKeyExchange
  repeat' first
    | with_reducible assumption
    | (extract_lets +onlyGivenNames x; refine keeps_cut (p := Keeps s0 x) ?_ (fun hx => ?_) <;> [subst x; clear_value x])
    | (extract_lets +onlyGivenNames x; refine keeps_cut (p := Keeps s0 x.1) ?_ (fun hx => ?_) <;> [subst x; clear_value x])
    | extract_lets +onlyGivenNames x
    | with_reducible apply State.emit_keeps
    | with_reducible apply State.openSession_keeps
    | with_reducible apply keepsOut_ite
    | with_reducible apply keeps_ite
    | with_reducible apply keepsOut_next
    | split
    | (intro i; intros; try beta_reduce)

theorem execEndSession_keeps {s0 s : State} (h_ : Keeps s0 s) (c : Chan) :
    KeepsOut s0 (execEndSession c s) := by
  unfold execEndSession
  repeat' first
    | with_reducible assumption
    | with_reducible apply State.closeSession_keeps
    | with_reducible apply State.answer_keeps
    | with_reducible apply State.inSession_keeps
    | with_reducible apply keepsOut_next
    | (intro i; intros; try beta_reduce)

theorem execSessionHeartbeatMissed_keeps {s0 s : State} (h_ : Keeps s0 s) (c : Chan) :
    KeepsOut s0 (execSessionHeartbeatMissed c s) := by
  unfold execSessionHeartbeatMissed
  repeat' first
    | with_reducible assumption
    | with_reducible apply State.closeSession_keeps
    | with_reducible apply keepsOut_next

theorem State.sendReport_keeps {s0 s : State} (h_ : Keeps s0 s) (c : Chan) (scope : Nat) (tdi : Bool) (nonce : List Byte) (es : List (Nat × Bool × List Byte)) :
    Keeps s0 (State.sendReport s c scope tdi nonce es) := by
  unfold State.sendReport
  repeat' first
    | with_reducible assumption
    | with_reducible apply State.bump_keeps
    | with_reducible apply State.answer_keeps

theorem execGetReport_keeps {s0 s : State} (h_ : Keeps s0 s) (c : Chan) (scope : Nat) (nonce : List Byte) :
    KeepsOut s0 (execGetReport c scope nonce s) := by
  unfold execGetReport
  refine keepsOut_next (State.inSession_keeps h_ _ _ (fun t k => ?_))
  refine keeps_ite ?_ (keeps_ite ?_ (State.refuse_keeps k ..))
  · generalize t.boundOf c = b
    split
    · exact State.refuse_keeps k ..
    · exact State.sendReport_keeps k ..
  · refine keeps_ite (State.answerNotReady_keeps k ..) (keeps_ite (State.sendReport_keeps k ..) ?_)
    split
    · rename_i e
      exact State.sendReport_keeps (State.bindTo_keeps' e k) ..
    · exact State.refuse_keeps k ..

theorem execGetMeasurements_keeps {s0 s : State} (h_ : Keeps s0 s) (c : Chan) (nonce : List Byte) :
    KeepsOut s0 (execGetMeasurements c nonce s) := by
  unfold execGetMeasurements
  repeat' first
    | with_reducible assumption
    | (extract_lets +onlyGivenNames x; refine keeps_cut (p := Keeps s0 x) ?_ (fun hx => ?_) <;> [subst x; clear_value x])
    | (extract_lets +onlyGivenNames x; refine keeps_cut (p := Keeps s0 x.1) ?_ (fun hx => ?_) <;> [subst x; clear_value x])
    | extract_lets +onlyGivenNames x
    | with_reducible apply State.answer_keeps
    | with_reducible apply keepsOut_ite
    | with_reducible apply keeps_ite
    | with_reducible apply keepsOut_next

theorem State.showIde_keeps {s0 s : State} (h_ : Keeps s0 s) (index : Nat) :
    Keeps s0 (State.showIde s index) := by
  unfold State.showIde
  repeat' first
    | with_reducible assumption
    | (extract_lets +onlyGivenNames x; refine keeps_cut (p := Keeps s0 x) ?_ (fun hx => ?_) <;> [subst x; clear_value x])
    | (extract_lets +onlyGivenNames x; refine keeps_cut (p := Keeps s0 x.1) ?_ (fun hx => ?_) <;> [subst x; clear_value x])
    | extract_lets +onlyGivenNames x
    | with_reducible apply State.wr_keeps
    | with_reducible apply keeps_ite

theorem execKeyProg_keeps {s0 s : State} (h_ : Keeps s0 s) (c : Chan) (index : Fin 18) (sub : Fin 3) (dir : Fin 2) (set : Fin 2) (key : List Byte) :
    KeepsOut s0 (execKeyProg c index sub dir set key s) := by
  unfold execKeyProg
  repeat' first
    | with_reducible assumption
    | (extract_lets +onlyGivenNames x; refine keeps_cut (p := Keeps s0 x) ?_ (fun hx => ?_) <;> [subst x; clear_value x])
    | (extract_lets +onlyGivenNames x; refine keeps_cut (p := Keeps s0 x.1) ?_ (fun hx => ?_) <;> [subst x; clear_value x])
    | extract_lets +onlyGivenNames x
    | with_reducible apply State.answer_keeps
    | with_reducible apply State.bound_keeps
    | with_reducible apply keepsOut_ite
    | with_reducible apply keeps_ite
    | with_reducible apply keepsOut_next
    | simp -zeta only [keeps_mk1, keeps_mk2]
    | (intro i; intros; try beta_reduce)

theorem execKSetGo_keeps {s0 s : State} (h_ : Keeps s0 s) (c : Chan) (index : Fin 18) (sub : Fin 3) (dir : Fin 2) (set : Fin 2) :
    KeepsOut s0 (execKSetGo c index sub dir set s) := by
  unfold execKSetGo
  repeat' first
    | with_reducible assumption
    | (extract_lets +onlyGivenNames x; refine keeps_cut (p := Keeps s0 x) ?_ (fun hx => ?_) <;> [subst x; clear_value x])
    | (extract_lets +onlyGivenNames x; refine keeps_cut (p := Keeps s0 x.1) ?_ (fun hx => ?_) <;> [subst x; clear_value x])
    | extract_lets +onlyGivenNames x
    | with_reducible apply State.answer_keeps
    | with_reducible apply State.bound_keeps
    | with_reducible apply State.showIde_keeps
    | with_reducible apply keepsOut_ite
    | with_reducible apply keeps_ite
    | with_reducible apply keepsOut_next
    | simp -zeta only [keeps_mk1, keeps_mk2]
    | (intro i; intros; try beta_reduce)

theorem execKSetStop_keeps {s0 s : State} (h_ : Keeps s0 s) (c : Chan) (index : Fin 18) (sub : Fin 3) (dir : Fin 2) (set : Fin 2) :
    KeepsOut s0 (execKSetStop c index sub dir set s) := by
  unfold execKSetStop
  repeat' first
    | with_reducible assumption
    | (extract_lets +onlyGivenNames x; refine keeps_cut (p := Keeps s0 x) ?_ (fun hx => ?_) <;> [subst x; clear_value x])
    | (extract_lets +onlyGivenNames x; refine keeps_cut (p := Keeps s0 x.1) ?_ (fun hx => ?_) <;> [subst x; clear_value x])
    | extract_lets +onlyGivenNames x
    | with_reducible apply State.answer_keeps
    | with_reducible apply State.bound_keeps
    | with_reducible apply keepsOut_ite
    | with_reducible apply keeps_ite
    | with_reducible apply keepsOut_next
    | simp -zeta only [keeps_mk1, keeps_mk2]
    | (intro i; intros; try beta_reduce)

theorem execIdeIntegrityFail_keeps {s0 s : State} (h_ : Keeps s0 s) (fn : Fin 17) :
    KeepsOut s0 (execIdeIntegrityFail fn s) := by
  unfold execIdeIntegrityFail
  repeat' first
    | with_reducible assumption
    | (extract_lets +onlyGivenNames x; refine keeps_cut (p := Keeps s0 x) ?_ (fun hx => ?_) <;> [subst x; clear_value x])
    | (extract_lets +onlyGivenNames x; refine keeps_cut (p := Keeps s0 x.1) ?_ (fun hx => ?_) <;> [subst x; clear_value x])
    | extract_lets +onlyGivenNames x
    | with_reducible apply State.bump_keeps
    | with_reducible apply State.tdiError_keeps
    | with_reducible apply State.showIde_keeps
    | with_reducible apply keepsOut_ite
    | with_reducible apply keeps_ite
    | with_reducible apply keepsOut_next
    | simp -zeta only [keeps_mk1, keeps_mk2]

theorem State.clearDumpCfg_keeps {s0 s : State} (h_ : Keeps s0 s) (p : Nat) :
    Keeps s0 (State.clearDumpCfg s p) := by
  unfold State.clearDumpCfg
  repeat' first
    | with_reducible assumption
    | (extract_lets +onlyGivenNames x; refine keeps_cut (p := Keeps s0 x) ?_ (fun hx => ?_) <;> [subst x; clear_value x])
    | (extract_lets +onlyGivenNames x; refine keeps_cut (p := Keeps s0 x.1) ?_ (fun hx => ?_) <;> [subst x; clear_value x])
    | extract_lets +onlyGivenNames x
    | with_reducible apply State.wr_keeps
    | simp -zeta only [keeps_mk1, keeps_mk2]

theorem execLockInterfaceRequest_keeps {s0 s : State} (h_ : Keeps s0 s) (c : Chan) (p : Fin 16) :
    KeepsOut s0 (execLockInterfaceRequest c p s) := by
  unfold execLockInterfaceRequest
  repeat' first
    | with_reducible assumption
    | (extract_lets +onlyGivenNames x; refine keeps_cut (p := Keeps s0 x) ?_ (fun hx => ?_) <;> [subst x; clear_value x])
    | (extract_lets +onlyGivenNames x; refine keeps_cut (p := Keeps s0 x.1) ?_ (fun hx => ?_) <;> [subst x; clear_value x])
    | (extract_lets +onlyGivenNames x; refine keeps_cut (p := Keeps s0 x.2) ?_ (fun hx => ?_) <;> [subst x; clear_value x])
    | (extract_lets +onlyGivenNames x; clear_value x)
    | with_reducible apply State.wr_keeps
    | with_reducible apply State.random_keeps
    | with_reducible apply State.answer_keeps
    | with_reducible apply State.tdisp_keeps
    | with_reducible apply State.clearDumpCfg_keeps
    | with_reducible apply keepsOut_ite
    | with_reducible apply keeps_ite
    | with_reducible apply keepsOut_next
    | simp -zeta only [keeps_mk1, keeps_mk2]
    | split
    | (intro i; intros; try beta_reduce)
    | refine State.random_keeps' (by with_reducible assumption) ?_

theorem execGetDeviceInterfaceReport_keeps {s0 s : State} (h_ : Keeps s0 s) (c : Chan) (p : Fin 16) :
    KeepsOut s0 (execGetDeviceInterfaceReport c p s) := by
  unfold execGetDeviceInterfaceReport
  repeat' first
    | with_reducible assumption
    | (extract_lets +onlyGivenNames x; refine keeps_cut (p := Keeps s0 x) ?_ (fun hx => ?_) <;> [subst x; clear_value x])
    | (extract_lets +onlyGivenNames x; refine keeps_cut (p := Keeps s0 x.1) ?_ (fun hx => ?_) <;> [subst x; clear_value x])
    | (extract_lets +onlyGivenNames x; clear_value x)
    | with_reducible apply State.answer_keeps
    | with_reducible apply State.tdisp_keeps
    | with_reducible apply keepsOut_ite
    | with_reducible apply keeps_ite
    | with_reducible apply keepsOut_next
    | (intro i; intros; try beta_reduce)

theorem execStartInterfaceRequest_keeps {s0 s : State} (h_ : Keeps s0 s) (c : Chan) (p : Fin 16) (nonce : List Byte) :
    KeepsOut s0 (execStartInterfaceRequest c p nonce s) := by
  unfold execStartInterfaceRequest
  repeat' first
    | with_reducible assumption
    | (extract_lets +onlyGivenNames x; refine keeps_cut (p := Keeps s0 x) ?_ (fun hx => ?_) <;> [subst x; clear_value x])
    | (extract_lets +onlyGivenNames x; refine keeps_cut (p := Keeps s0 x.1) ?_ (fun hx => ?_) <;> [subst x; clear_value x])
    | (extract_lets +onlyGivenNames x; clear_value x)
    | with_reducible apply State.wr_keeps
    | with_reducible apply State.answer_keeps
    | with_reducible apply State.tdisp_keeps
    | with_reducible apply keepsOut_ite
    | with_reducible apply keeps_ite
    | with_reducible apply keepsOut_next
    | simp -zeta only [keeps_mk1, keeps_mk2]
    | (intro i; intros; try beta_reduce)

theorem execStopInterfaceRequest_keeps {s0 s : State} (h_ : Keeps s0 s) (c : Chan) (p : Fin 16) :
    KeepsOut s0 (execStopInterfaceRequest c p s) := by
  unfold execStopInterfaceRequest
  repeat' first
    | with_reducible assumption
    | (extract_lets +onlyGivenNames x; refine keeps_cut (p := Keeps s0 x) ?_ (fun hx => ?_) <;> [subst x; clear_value x])
    | (extract_lets +onlyGivenNames x; refine keeps_cut (p := Keeps s0 x.1) ?_ (fun hx => ?_) <;> [subst x; clear_value x])
    | (extract_lets +onlyGivenNames x; clear_value x)
    | with_reducible apply State.endStop_keeps
    | with_reducible apply State.vfFlr_keeps
    | with_reducible apply State.answer_keeps
    | with_reducible apply State.tdisp_keeps
    | with_reducible apply keepsOut_ite
    | with_reducible apply keeps_ite
    | with_reducible apply keepsOut_next
    | simp -zeta only [keeps_mk1, keeps_mk2]
    | (intro i; intros; try beta_reduce)

theorem execTdiConfigWrite_keeps {s0 s : State} (h_ : Keeps s0 s) (fn : Fin 17) (item : CfgItem) (v : Nat) :
    KeepsOut s0 (execTdiConfigWrite fn item v s) := by
  unfold execTdiConfigWrite
  repeat' first
    | with_reducible assumption
    | with_reducible apply State.configWrite_keeps
    | with_reducible apply keepsOut_next

theorem State.hostFailed_keeps {s0 s : State} (h_ : Keeps s0 s) (h : Hdr) (ptr : Nat) :
    Keeps s0 (State.hostFailed s h ptr) := by
  unfold State.hostFailed
  repeat' first
    | with_reducible assumption
    | (extract_lets +onlyGivenNames x; refine keeps_cut (p := Keeps s0 x) ?_ (fun hx => ?_) <;> [subst x; clear_value x])
    | (extract_lets +onlyGivenNames x; refine keeps_cut (p := Keeps s0 x.1) ?_ (fun hx => ?_) <;> [subst x; clear_value x])
    | extract_lets +onlyGivenNames x
    | with_reducible apply State.bump_keeps
    | with_reducible apply State.emit_keeps
    | with_reducible apply State.complete_keeps
    | with_reducible apply State.hifErr_keeps

theorem State.unstage_keeps {s0 s : State} (h_ : Keeps s0 s) :
    Keeps s0 (State.unstage s) := by
  unfold State.unstage
  repeat' first
    | with_reducible assumption
    | (extract_lets +onlyGivenNames x; refine keeps_cut (p := Keeps s0 x) ?_ (fun hx => ?_) <;> [subst x; clear_value x])
    | (extract_lets +onlyGivenNames x; refine keeps_cut (p := Keeps s0 x.1) ?_ (fun hx => ?_) <;> [subst x; clear_value x])
    | extract_lets +onlyGivenNames x
    | with_reducible apply State.wr_keeps
    | simp -zeta only [keeps_mk1, keeps_mk2]

theorem execFwStage_keeps {s0 s : State} (h_ : Keeps s0 s) (h : Hdr) (image : Nat) (bytes : Nat) (flags : Nat) (data : Fetched) :
    KeepsOut s0 (execFwStage h image bytes flags data s) := by
  unfold execFwStage
  repeat' first
    | with_reducible assumption
    | (extract_lets +onlyGivenNames x; refine keeps_cut (p := Keeps s0 x) ?_ (fun hx => ?_) <;> [subst x; clear_value x])
    | (extract_lets +onlyGivenNames x; refine keeps_cut (p := Keeps s0 x.1) ?_ (fun hx => ?_) <;> [subst x; clear_value x])
    | extract_lets +onlyGivenNames x
    | with_reducible apply State.complete_keeps
    | with_reducible apply State.start_keeps
    | with_reducible apply State.setProg_keeps
    | with_reducible apply State.countRead_keeps
    | with_reducible apply State.gate_keeps
    | with_reducible apply State.checked_keeps
    | with_reducible apply State.hostFailed_keeps
    | with_reducible apply State.unstage_keeps
    | with_reducible apply keepsOut_ite
    | with_reducible apply keeps_ite
    | with_reducible apply keepsOut_next
    | split
    | (intro i; intros; try beta_reduce)

theorem execFwStageComplete_keeps {s0 s : State} (h_ : Keeps s0 s) (h : Hdr) :
    KeepsOut s0 (execFwStageComplete h s) := by
  unfold execFwStageComplete
  repeat' first
    | with_reducible assumption
    | (extract_lets +onlyGivenNames x; refine keeps_cut (p := Keeps s0 x) ?_ (fun hx => ?_) <;> [subst x; clear_value x])
    | (extract_lets +onlyGivenNames x; refine keeps_cut (p := Keeps s0 x.1) ?_ (fun hx => ?_) <;> [subst x; clear_value x])
    | extract_lets +onlyGivenNames x
    | with_reducible apply State.wr_keeps
    | with_reducible apply State.complete_keeps
    | with_reducible apply State.event_keeps
    | with_reducible apply keepsOut_ite
    | with_reducible apply keeps_ite
    | with_reducible apply keepsOut_next
    | simp -zeta only [keeps_mk1, keeps_mk2]

theorem execFwActivate_keeps {s0 s : State} (h_ : Keeps s0 s) (h : Hdr) (flags : Nat) :
    KeepsOut s0 (execFwActivate h flags s) := by
  unfold execFwActivate
  repeat' first
    | with_reducible assumption
    | (extract_lets +onlyGivenNames x; refine keeps_cut (p := Keeps s0 x) ?_ (fun hx => ?_) <;> [subst x; clear_value x])
    | (extract_lets +onlyGivenNames x; refine keeps_cut (p := Keeps s0 x.1) ?_ (fun hx => ?_) <;> [subst x; clear_value x])
    | extract_lets +onlyGivenNames x
    | with_reducible apply loopN_keeps
    | with_reducible apply State.start_keeps
    | with_reducible apply State.checked_keeps
    | with_reducible apply State.tdiError_keeps
    | with_reducible apply State.endSessions_keeps
    | with_reducible apply keepsOut_ite
    | with_reducible apply keeps_ite
    | with_reducible apply keepsOut_next
    | simp -zeta only [keeps_mk1, keeps_mk2]
    | (intro i; intros; try beta_reduce)

theorem execFwActivateRestartDone_keeps {s0 s : State} (h_ : Keeps s0 s) (h : Hdr) (bad : List (Fin 2)) :
    KeepsOut s0 (execFwActivateRestartDone h bad s) := by
  unfold execFwActivateRestartDone
  repeat' first
    | with_reducible assumption
    | (extract_lets +onlyGivenNames x; refine keeps_cut (p := Keeps s0 x) ?_ (fun hx => ?_) <;> [subst x; clear_value x])
    | (extract_lets +onlyGivenNames x; refine keeps_cut (p := Keeps s0 x.1) ?_ (fun hx => ?_) <;> [subst x; clear_value x])
    | extract_lets +onlyGivenNames x
    | with_reducible apply loopN_keeps
    | with_reducible apply State.complete_keeps
    | with_reducible apply State.event_keeps
    | with_reducible apply State.boot_keeps
    | with_reducible apply keepsOut_ite
    | with_reducible apply keeps_ite
    | with_reducible apply keepsOut_next
    | (intro i; intros; try beta_reduce)

theorem State.outOfBand_keeps {s0 s : State} (h_ : Keeps s0 s) (c : Chan) (go : State → State) (hgo : ∀ t, Keeps s0 t → Keeps s0 (go t)) :
    Keeps s0 (State.outOfBand s c go) := by
  unfold State.outOfBand
  repeat' first
    | with_reducible assumption
    | with_reducible apply State.answer_keeps
    | with_reducible apply State.inSession_keeps
    | with_reducible apply keeps_ite
    | (intro i; intros; try beta_reduce)
    | apply_assumption

theorem execGetHealth_keeps {s0 s : State} (h_ : Keeps s0 s) (c : Chan) :
    KeepsOut s0 (execGetHealth c s) := by
  unfold execGetHealth
  repeat' first
    | with_reducible assumption
    | with_reducible apply State.answer_keeps
    | with_reducible apply State.outOfBand_keeps
    | with_reducible apply keepsOut_next
    | (intro i; intros; try beta_reduce)

theorem execPaddockStop_keeps {s0 s : State} (h_ : Keeps s0 s) (c : Chan) (p : Fin 16) (scope : Fin 2) (quiesce : Bool) :
    KeepsOut s0 (execPaddockStop c p scope quiesce s) := by
  unfold execPaddockStop
  repeat' first
    | with_reducible assumption
    | (extract_lets +onlyGivenNames x; refine keeps_cut (p := Keeps s0 x) ?_ (fun hx => ?_) <;> [subst x; clear_value x])
    | (extract_lets +onlyGivenNames x; refine keeps_cut (p := Keeps s0 x.1) ?_ (fun hx => ?_) <;> [subst x; clear_value x])
    | extract_lets +onlyGivenNames x
    | with_reducible apply State.abort_keeps
    | with_reducible apply State.abortScope1_keeps
    | with_reducible apply State.quiesce_keeps
    | with_reducible apply State.answer_keeps
    | with_reducible apply State.outOfBand_keeps
    | with_reducible apply keepsOut_ite
    | with_reducible apply keeps_ite
    | with_reducible apply keepsOut_next
    | (intro i; intros; try beta_reduce)
    | refine State.abortScope1_keeps' (by with_reducible assumption) ?_

theorem execModuleKill_keeps {s0 s : State} (h_ : Keeps s0 s) (c : Chan) :
    KeepsOut s0 (execModuleKill c s) := by
  unfold execModuleKill
  repeat' first
    | with_reducible assumption
    | with_reducible apply State.kill_keeps
    | with_reducible apply State.answer_keeps
    | with_reducible apply State.outOfBand_keeps
    | with_reducible apply keepsOut_next
    | (intro i; intros; try beta_reduce)

theorem execOwnerProvision_keeps {s0 s : State} (h_ : Keeps s0 s) (c : Chan) (value : List Byte) :
    KeepsOut s0 (execOwnerProvision c value s) := by
  unfold execOwnerProvision
  repeat' first
    | with_reducible assumption
    | (extract_lets +onlyGivenNames x; refine keeps_cut (p := Keeps s0 x) ?_ (fun hx => ?_) <;> [subst x; clear_value x])
    | (extract_lets +onlyGivenNames x; refine keeps_cut (p := Keeps s0 x.1) ?_ (fun hx => ?_) <;> [subst x; clear_value x])
    | extract_lets +onlyGivenNames x
    | with_reducible apply State.wr_keeps
    | with_reducible apply State.answer_keeps
    | with_reducible apply State.outOfBand_keeps
    | with_reducible apply keepsOut_ite
    | with_reducible apply keeps_ite
    | with_reducible apply keepsOut_next
    | simp -zeta only [keeps_mk1, keeps_mk2]
    | (intro i; intros; try beta_reduce)

theorem execDebugChallenge_keeps {s0 s : State} (h_ : Keeps s0 s) (h : Hdr) (out : Nat) :
    KeepsOut s0 (execDebugChallenge h out s) := by
  unfold execDebugChallenge
  repeat' first
    | with_reducible assumption
    | (extract_lets +onlyGivenNames x; refine keeps_cut (p := Keeps s0 x) ?_ (fun hx => ?_) <;> [subst x; clear_value x])
    | (extract_lets +onlyGivenNames x; refine keeps_cut (p := Keeps s0 x.1) ?_ (fun hx => ?_) <;> [subst x; clear_value x])
    | (extract_lets +onlyGivenNames x; refine keeps_cut (p := Keeps s0 x.2) ?_ (fun hx => ?_) <;> [subst x; clear_value x])
    | extract_lets +onlyGivenNames x
    | with_reducible apply State.wr_keeps
    | with_reducible apply State.complete_keeps
    | with_reducible apply State.ptrWrite_keeps
    | with_reducible apply State.gate_keeps
    | with_reducible apply State.checked_keeps
    | with_reducible apply State.random_keeps
    | with_reducible apply keepsOut_ite
    | with_reducible apply keeps_ite
    | with_reducible apply keepsOut_next
    | simp -zeta only [keeps_mk1, keeps_mk2]
    | split
    | (intro i; intros; try beta_reduce)
    | refine State.random_keeps' (by with_reducible assumption) ?_

theorem State.dropChallenge_keeps {s0 s : State} (h_ : Keeps s0 s) :
    Keeps s0 (State.dropChallenge s) := by
  unfold State.dropChallenge
  repeat' first
    | with_reducible assumption
    | with_reducible apply State.wr_keeps
    | simp -zeta only [keeps_mk1, keeps_mk2]

theorem execDebugChallengeExpiry_keeps {s0 s : State} (h_ : Keeps s0 s) :
    KeepsOut s0 (execDebugChallengeExpiry s) := by
  unfold execDebugChallengeExpiry
  repeat' first
    | with_reducible assumption
    | with_reducible apply State.dropChallenge_keeps
    | with_reducible apply keepsOut_ite
    | with_reducible apply keeps_ite
    | with_reducible apply keepsOut_next
    | split

theorem State.debugFailed_keeps {s0 s : State} (h_ : Keeps s0 s) (status : Nat) :
    Keeps s0 (State.debugFailed s status) := by
  unfold State.debugFailed
  repeat' first
    | with_reducible assumption
    | with_reducible apply State.wr_keeps
    | with_reducible apply State.dropChallenge_keeps

theorem State.openDebug_keeps {s0 s : State} (h_ : Keeps s0 s) (scope : Nat) :
    Keeps s0 (State.openDebug s scope) := by
  unfold State.openDebug
  repeat' first
    | with_reducible assumption
    | (extract_lets +onlyGivenNames x; refine keeps_cut (p := Keeps s0 x) ?_ (fun hx => ?_) <;> [subst x; clear_value x])
    | (extract_lets +onlyGivenNames x; refine keeps_cut (p := Keeps s0 x.1) ?_ (fun hx => ?_) <;> [subst x; clear_value x])
    | extract_lets +onlyGivenNames x
    | with_reducible apply State.wr_keeps
    | with_reducible apply State.cutLinks_keeps
    | with_reducible apply State.deviceReset_keeps
    | with_reducible apply State.dropChallenge_keeps
    | simp -zeta only [keeps_mk1, keeps_mk2]

theorem execDebugResponse_keeps {s0 s : State} (h_ : Keeps s0 s) (h : Hdr) (scope : Nat) (tokenK : Nat) (tokenO : Nat) (ownerKeys : Nat) (k : Fetched) (o : Fetched) (keys : Fetched) :
    KeepsOut s0 (execDebugResponse h scope tokenK tokenO ownerKeys k o keys s) := by
  unfold execDebugResponse
  repeat' first
    | with_reducible assumption
    | (extract_lets +onlyGivenNames x; refine keeps_cut (p := Keeps s0 x) ?_ (fun hx => ?_) <;> [subst x; clear_value x])
    | (extract_lets +onlyGivenNames x; refine keeps_cut (p := Keeps s0 x.1) ?_ (fun hx => ?_) <;> [subst x; clear_value x])
    | extract_lets +onlyGivenNames x
    | with_reducible apply State.complete_keeps
    | with_reducible apply State.gate_keeps
    | with_reducible apply State.checked_keeps
    | with_reducible apply State.hostFailed_keeps
    | with_reducible apply State.debugFailed_keeps
    | with_reducible apply State.openDebug_keeps
    | with_reducible apply keepsOut_ite
    | with_reducible apply keeps_ite
    | with_reducible apply keepsOut_next
    | split
    | (intro i; intros; try beta_reduce)

theorem execDebugZeroiseDone_keeps {s0 s : State} (h_ : Keeps s0 s) :
    KeepsOut s0 (execDebugZeroiseDone s) := by
  unfold execDebugZeroiseDone
  repeat' first
    | with_reducible assumption
    | (extract_lets +onlyGivenNames x; refine keeps_cut (p := Keeps s0 x) ?_ (fun hx => ?_) <;> [subst x; clear_value x])
    | (extract_lets +onlyGivenNames x; refine keeps_cut (p := Keeps s0 x.1) ?_ (fun hx => ?_) <;> [subst x; clear_value x])
    | extract_lets +onlyGivenNames x
    | with_reducible apply loopN_keeps
    | with_reducible apply State.zeroHbm_keeps
    | with_reducible apply keepsOut_ite
    | with_reducible apply keeps_ite
    | with_reducible apply keepsOut_next
    | simp -zeta only [keeps_mk1, keeps_mk2]
    | (intro i; intros; try beta_reduce)

end Sys2Proof.Machine
end

