-- ==== Sys2Proof/Laws/KeepsClock.lean ====
section
/-! SUPPORT. What the operations of Machine/Clock.lean never undo (Keeps of Safety.lean): one lemma per operation. -/

set_option linter.all false

namespace Sys2Proof.Machine

theorem State.receive_keeps {s0 s : State} (h_ : Keeps s0 s) (id : Nat) (r : TRead) (bytes : List Byte) (poison : Bool) :
    Keeps s0 (State.receive s id r bytes poison) := by
  unfold State.receive
  repeat' first
    | with_reducible assumption
    | with_reducible apply State.setOp_keeps
    | split

theorem State.readOne_keeps {s0 s : State} (h_ : Keeps s0 s) (o : Op) (r : TRead) :
    Keeps s0 (State.readOne s o r) := by
  unfold State.readOne
  repeat' first
    | with_reducible assumption
    | (extract_lets +onlyGivenNames x; refine keeps_cut (p := Keeps s0 x) ?_ (fun hx => ?_) <;> [subst x; clear_value x])
    | (extract_lets +onlyGivenNames x; refine keeps_cut (p := Keeps s0 x.1) ?_ (fun hx => ?_) <;> [subst x; clear_value x])
    | extract_lets +onlyGivenNames x
    | with_reducible apply State.shelfRead_keeps
    | with_reducible apply State.violation_keeps
    | with_reducible apply State.receive_keeps
    | with_reducible apply keeps_ite
    | split
    | (intro i; intros; try beta_reduce)
    | refine State.shelfRead_keeps' (by with_reducible assumption) ?_
    | refine State.popSlot_keeps' (by with_reducible assumption) ?_

theorem State.trayPop_keeps {s0 s : State} (h_ : Keeps s0 s) (c : Nat) :
    Keeps s0 (State.trayPop s c) := by
  unfold State.trayPop
  repeat' first
    | with_reducible assumption
    | (extract_lets +onlyGivenNames x; refine keeps_cut (p := Keeps s0 x) ?_ (fun hx => ?_) <;> [subst x; clear_value x])
    | (extract_lets +onlyGivenNames x; refine keeps_cut (p := Keeps s0 x.1) ?_ (fun hx => ?_) <;> [subst x; clear_value x])
    | extract_lets +onlyGivenNames x
    | with_reducible apply State.wr_keeps
    | simp -zeta only [keeps_mk1, keeps_mk2]
    | simp only [keeps_mk1, keeps_mk2]
    | simp (zetaDelta := true) only [keeps_mk1, keeps_mk2]

theorem State.commitOne_keeps {s0 s : State} (h_ : Keeps s0 s) (c : Nat) (w : Commit) : Keeps s0 (s.commitOne c w) := by
  unfold State.commitOne
  refine keeps_ite ?_ (State.commitRow_keeps h_ ..)
  refine keeps_mem h_ (fun w => ?_)
  rw [mems_wf_iff] at *
  exact ⟨w.1, w.2.1, w.2.2.1, memory_wf_mwrite w.2.2.2.1, w.2.2.2.2.1, w.2.2.2.2.2.1, w.2.2.2.2.2.2.1, twf_tset w.2.2.2.2.2.2.2⟩

theorem State.endElems_keeps {s0 s : State} (h_ : Keeps s0 s) (c : Nat) :
    Keeps s0 (State.endElems s c) := by
  unfold State.endElems
  repeat' first
    | with_reducible assumption
    | with_reducible apply State.bump_keeps
    | with_reducible apply State.completeOp_keeps
    | with_reducible apply keeps_foldl
    | with_reducible apply keeps_foldl_fst
    | with_reducible apply keeps_ite
    | split
    | (intro i; intros; try beta_reduce)

theorem State.syncTray_keeps {s0 s : State} (h_ : Keeps s0 s) (c : Nat) :
    Keeps s0 (State.syncTray s c) := by
  unfold State.syncTray
  repeat' first
    | with_reducible assumption
    | (extract_lets +onlyGivenNames x; refine keeps_cut (p := Keeps s0 x) ?_ (fun hx => ?_) <;> [subst x; clear_value x])
    | (extract_lets +onlyGivenNames x; refine keeps_cut (p := Keeps s0 x.1) ?_ (fun hx => ?_) <;> [subst x; clear_value x])
    | extract_lets +onlyGivenNames x
    | with_reducible apply State.wr_keeps
    | with_reducible apply loopN_keeps
    | with_reducible apply keeps_ite
    | (intro i; intros; try beta_reduce)

theorem State.opStep_keeps {s0 s : State} (h_ : Keeps s0 s) (c : Nat) :
    Keeps s0 (State.opStep s c) := by
  unfold State.opStep
  repeat' first
    | with_reducible assumption
    | (extract_lets +onlyGivenNames x; refine keeps_cut (p := Keeps s0 x) ?_ (fun hx => ?_) <;> [subst x; clear_value x])
    | (extract_lets +onlyGivenNames x; refine keeps_cut (p := Keeps s0 x.1) ?_ (fun hx => ?_) <;> [subst x; clear_value x])
    | extract_lets +onlyGivenNames x
    | with_reducible apply loopN_keeps
    | with_reducible apply State.syncWsPoison_keeps
    | with_reducible apply State.elemGroup_keeps
    | with_reducible apply State.readOne_keeps
    | with_reducible apply State.trayPop_keeps
    | with_reducible apply State.commitOne_keeps
    | with_reducible apply State.endElems_keeps
    | with_reducible apply keeps_foldl
    | with_reducible apply keeps_foldl_fst
    | simp -zeta only [keeps_mk1, keeps_mk2]
    | split
    | (intro i; intros; try beta_reduce)

theorem State.setCharges_keeps {s0 s : State} (h_ : Keeps s0 s) (k : Nat) (c : Nat) (l : List Nat) :
    Keeps s0 (State.setCharges s k c l) := by
  unfold State.setCharges
  repeat' first
    | with_reducible assumption
    | simp -zeta only [keeps_mk1, keeps_mk2]

theorem State.chargeClock_keeps {s0 s : State} (h_ : Keeps s0 s) (c : Nat) (w : Nat) :
    Keeps s0 (State.chargeClock s c w) := by
  unfold State.chargeClock
  repeat' first
    | with_reducible assumption
    | with_reducible apply State.setCharges_keeps

theorem State.chargeTick_keeps {s0 s : State} (h_ : Keeps s0 s) (c : Nat) (w : Nat) :
    Keeps s0 (State.chargeTick s c w) := by
  unfold State.chargeTick
  repeat' first
    | with_reducible assumption
    | (extract_lets +onlyGivenNames x; refine keeps_cut (p := Keeps s0 x) ?_ (fun hx => ?_) <;> [subst x; clear_value x])
    | (extract_lets +onlyGivenNames x; refine keeps_cut (p := Keeps s0 x.1) ?_ (fun hx => ?_) <;> [subst x; clear_value x])
    | extract_lets +onlyGivenNames x
    | with_reducible apply State.wr_keeps
    | with_reducible apply State.bump_keeps
    | with_reducible apply State.warnOn_keeps
    | with_reducible apply State.setCharges_keeps
    | with_reducible apply keeps_foldl
    | with_reducible apply keeps_foldl_fst
    | with_reducible apply keeps_ite
    | (intro i; intros; try beta_reduce)

theorem State.conflicts_keeps {s0 s : State} (h_ : Keeps s0 s) (c : Nat) (acc : List (Nat × Nat)) :
    Keeps s0 (State.conflicts s c acc) := by
  unfold State.conflicts
  repeat' first
    | with_reducible assumption
    | (extract_lets +onlyGivenNames x; refine keeps_cut (p := Keeps s0 x) ?_ (fun hx => ?_) <;> [subst x; clear_value x])
    | (extract_lets +onlyGivenNames x; refine keeps_cut (p := Keeps s0 x.1) ?_ (fun hx => ?_) <;> [subst x; clear_value x])
    | extract_lets +onlyGivenNames x
    | with_reducible apply State.contractSlip_keeps
    | with_reducible apply keeps_foldl
    | with_reducible apply keeps_foldl_fst
    | with_reducible apply keeps_ite
    | simp -zeta only [keeps_mk1, keeps_mk2]
    | split
    | (intro i; intros; try beta_reduce)

theorem State.countIdle_keeps {s0 s : State} (h_ : Keeps s0 s) (c : Nat) (acc : List (Nat × Nat)) :
    Keeps s0 (State.countIdle s c acc) := by
  unfold State.countIdle
  repeat' first
    | with_reducible assumption
    | (extract_lets +onlyGivenNames x; refine keeps_cut (p := Keeps s0 x) ?_ (fun hx => ?_) <;> [subst x; clear_value x])
    | (extract_lets +onlyGivenNames x; refine keeps_cut (p := Keeps s0 x.1) ?_ (fun hx => ?_) <;> [subst x; clear_value x])
    | extract_lets +onlyGivenNames x
    | with_reducible apply loopN_keeps
    | with_reducible apply State.setPatrol_keeps
    | with_reducible apply keeps_ite
    | simp -zeta only [keeps_mk1, keeps_mk2]
    | (intro i; intros; try beta_reduce)

theorem State.advanceTick_keeps {s0 s : State} (h_ : Keeps s0 s) (c : Nat) :
    Keeps s0 (State.advanceTick s c) := by
  unfold State.advanceTick
  repeat' first
    | with_reducible assumption
    | (extract_lets +onlyGivenNames x; refine keeps_cut (p := Keeps s0 x) ?_ (fun hx => ?_) <;> [subst x; clear_value x])
    | (extract_lets +onlyGivenNames x; refine keeps_cut (p := Keeps s0 x.1) ?_ (fun hx => ?_) <;> [subst x; clear_value x])
    | extract_lets +onlyGivenNames x
    | with_reducible apply State.wr_keeps
    | with_reducible apply State.slipDone_keeps
    | with_reducible apply State.phase3_keeps
    | with_reducible apply State.syncMxe_keeps
    | with_reducible apply State.syncVec_keeps
    | with_reducible apply State.syncTray_keeps
    | with_reducible apply State.opStep_keeps
    | with_reducible apply State.chargeClock_keeps
    | with_reducible apply State.chargeTick_keeps
    | with_reducible apply State.conflicts_keeps
    | with_reducible apply State.countIdle_keeps
    | with_reducible apply keeps_ite
    | simp -zeta only [keeps_mk1, keeps_mk2]
    | (intro i; intros; try beta_reduce)

theorem State.slipClock_keeps {s0 s : State} (h_ : Keeps s0 s) (c : Nat) (kind : Nat) (cause : Nat) :
    Keeps s0 (State.slipClock s c kind cause) := by
  unfold State.slipClock
  repeat' first
    | with_reducible assumption
    | (extract_lets +onlyGivenNames x; refine keeps_cut (p := Keeps s0 x) ?_ (fun hx => ?_) <;> [subst x; clear_value x])
    | (extract_lets +onlyGivenNames x; refine keeps_cut (p := Keeps s0 x.1) ?_ (fun hx => ?_) <;> [subst x; clear_value x])
    | extract_lets +onlyGivenNames x
    | with_reducible apply State.bump_keeps
    | with_reducible apply State.satAdd_keeps
    | with_reducible apply loopN_keeps
    | with_reducible apply State.setSlip_keeps
    | with_reducible apply State.slipNow_keeps
    | with_reducible apply State.syncMxe_keeps
    | with_reducible apply State.syncVec_keeps
    | with_reducible apply State.syncTray_keeps
    | with_reducible apply State.opStep_keeps
    | with_reducible apply State.chargeClock_keeps
    | with_reducible apply State.conflicts_keeps
    | with_reducible apply keeps_ite
    | simp -zeta only [keeps_mk1, keeps_mk2]
    | split
    | (intro i; intros; try beta_reduce)

theorem State.payOwed_keeps {s0 s : State} (h_ : Keeps s0 s) (c : Nat) :
    Keeps s0 (State.payOwed s c) := by
  unfold State.payOwed
  repeat' first
    | with_reducible assumption
    | (extract_lets +onlyGivenNames x; refine keeps_cut (p := Keeps s0 x) ?_ (fun hx => ?_) <;> [subst x; clear_value x])
    | (extract_lets +onlyGivenNames x; refine keeps_cut (p := Keeps s0 x.1) ?_ (fun hx => ?_) <;> [subst x; clear_value x])
    | extract_lets +onlyGivenNames x
    | with_reducible apply keeps_ite
    | simp -zeta only [keeps_mk1, keeps_mk2]

theorem State.untimedWork_keeps {s0 s : State} (h_ : Keeps s0 s) (c : Nat) :
    Keeps s0 (State.untimedWork s c) := by
  unfold State.untimedWork
  repeat' first
    | with_reducible assumption
    | with_reducible apply State.lookupRead_keeps
    | with_reducible apply State.pumpOut_keeps
    | with_reducible apply State.pumpAppend_keeps
    | with_reducible apply State.passClock_keeps

theorem State.coreClock_keeps {s0 s : State} (h_ : Keeps s0 s) (c : Nat) :
    Keeps s0 (State.coreClock s c) := by
  unfold State.coreClock
  repeat' first
    | with_reducible assumption
    | with_reducible apply State.advanceTick_keeps
    | with_reducible apply State.slipClock_keeps
    | with_reducible apply State.payOwed_keeps
    | with_reducible apply State.untimedWork_keeps
    | split

theorem State.stallClock_keeps {s0 s : State} (h_ : Keeps s0 s) (p : Nat) :
    Keeps s0 (State.stallClock s p) := by
  unfold State.stallClock
  repeat' first
    | with_reducible assumption
    | with_reducible apply loopN_keeps
    | with_reducible apply State.chargeClock_keeps
    | with_reducible apply State.payOwed_keeps
    | with_reducible apply keeps_ite
    | (intro i; intros; try beta_reduce)

theorem State.untimedClock_keeps {s0 s : State} (h_ : Keeps s0 s) (p : Nat) :
    Keeps s0 (State.untimedClock s p) := by
  unfold State.untimedClock
  repeat' first
    | with_reducible assumption
    | (extract_lets +onlyGivenNames x; refine keeps_cut (p := Keeps s0 x) ?_ (fun hx => ?_) <;> [subst x; clear_value x])
    | (extract_lets +onlyGivenNames x; refine keeps_cut (p := Keeps s0 x.1) ?_ (fun hx => ?_) <;> [subst x; clear_value x])
    | extract_lets +onlyGivenNames x
    | with_reducible apply State.wr_keeps
    | with_reducible apply State.bump_keeps
    | with_reducible apply keeps_ite
    | simp -zeta only [keeps_mk1, keeps_mk2]
    | (intro i; intros; try beta_reduce)

theorem State.pdkClock_keeps {s0 s : State} (h_ : Keeps s0 s) (p : Nat) :
    Keeps s0 (State.pdkClock s p) := by
  unfold State.pdkClock
  repeat' first
    | with_reducible assumption
    | (extract_lets +onlyGivenNames x; refine keeps_cut (p := Keeps s0 x) ?_ (fun hx => ?_) <;> [subst x; clear_value x])
    | (extract_lets +onlyGivenNames x; refine keeps_cut (p := Keeps s0 x.1) ?_ (fun hx => ?_) <;> [subst x; clear_value x])
    | extract_lets +onlyGivenNames x
    | with_reducible apply State.bump_keeps
    | with_reducible apply loopN_keeps
    | with_reducible apply State.setCharges_keeps
    | with_reducible apply State.coreClock_keeps
    | with_reducible apply State.stallClock_keeps
    | with_reducible apply State.untimedClock_keeps
    | with_reducible apply keeps_ite
    | simp -zeta only [keeps_mk1, keeps_mk2]
    | (intro i; intros; try beta_reduce)

theorem State.timeClock_keeps {s0 s : State} (h_ : Keeps s0 s) :
    Keeps s0 (State.timeClock s) := by
  unfold State.timeClock
  repeat' first
    | with_reducible assumption
    | (extract_lets +onlyGivenNames x; refine keeps_cut (p := Keeps s0 x) ?_ (fun hx => ?_) <;> [subst x; clear_value x])
    | (extract_lets +onlyGivenNames x; refine keeps_cut (p := Keeps s0 x.1) ?_ (fun hx => ?_) <;> [subst x; clear_value x])
    | extract_lets +onlyGivenNames x
    | with_reducible apply State.wr_keeps
    | with_reducible apply keeps_ite
    | simp -zeta only [keeps_mk1, keeps_mk2]

theorem State.clock_keeps {s0 s : State} (h_ : Keeps s0 s) :
    Keeps s0 (State.clock s) := by
  unfold State.clock
  repeat' first
    | with_reducible assumption
    | (extract_lets +onlyGivenNames x; refine keeps_cut (p := Keeps s0 x) ?_ (fun hx => ?_) <;> [subst x; clear_value x])
    | (extract_lets +onlyGivenNames x; refine keeps_cut (p := Keeps s0 x.1) ?_ (fun hx => ?_) <;> [subst x; clear_value x])
    | extract_lets +onlyGivenNames x
    | with_reducible apply loopN_keeps
    | with_reducible apply State.slideReserve_keeps
    | with_reducible apply State.pdkClock_keeps
    | with_reducible apply State.timeClock_keeps
    | with_reducible apply keeps_ite
    | simp -zeta only [keeps_mk1, keeps_mk2]
    | (intro i; intros; try beta_reduce)
    | simp only [keeps_mk1, keeps_mk2]
    | simp (zetaDelta := true) only [keeps_mk1, keeps_mk2]

end Sys2Proof.Machine
end

