-- ==== Sys2Proof/Laws/KeepsFaults.lean ====
section
/-! SUPPORT. What the operations of Machine/Faults.lean never undo (Keeps of Safety.lean): one lemma per operation. -/

set_option linter.all false

namespace Sys2Proof.Machine

theorem execCoreControlFault_keeps {s0 s : State} (h_ : Keeps s0 s) (core : Fin 128) :
    KeepsOut s0 (execCoreControlFault core s) := by
  unfold execCoreControlFault
  repeat' first
    | with_reducible assumption
    | (extract_lets +onlyGivenNames x; refine keeps_cut (p := Keeps s0 x) ?_ (fun hx => ?_) <;> [subst x; clear_value x])
    | (extract_lets +onlyGivenNames x; refine keeps_cut (p := Keeps s0 x.1) ?_ (fun hx => ?_) <;> [subst x; clear_value x])
    | extract_lets +onlyGivenNames x
    | with_reducible apply State.deviceError_keeps
    | with_reducible apply State.abort_keeps
    | with_reducible apply State.markCore_keeps
    | with_reducible apply keepsOut_ite
    | with_reducible apply keeps_ite
    | with_reducible apply keepsOut_next

theorem execPaddockUnitFault_keeps {s0 s : State} (h_ : Keeps s0 s) (p : Fin 16) :
    KeepsOut s0 (execPaddockUnitFault p s) := by
  unfold execPaddockUnitFault
  repeat' first
    | with_reducible assumption
    | with_reducible apply State.deviceError_keeps
    | with_reducible apply State.abortScope1_keeps
    | with_reducible apply keepsOut_ite
    | with_reducible apply keeps_ite
    | with_reducible apply keepsOut_next
    | refine State.abortScope1_keeps' (by with_reducible assumption) ?_

theorem State.markProc_keeps {s0 s : State} (h_ : Keeps s0 s) (k : Nat) :
    Keeps s0 (State.markProc s k) := by
  unfold State.markProc
  repeat' first
    | with_reducible assumption
    | simp -zeta only [keeps_mk1, keeps_mk2]

theorem State.endTaken_keeps {s0 s : State} (h_ : Keeps s0 s) (p : Nat) (status : Nat) :
    Keeps s0 (State.endTaken s p status) := by
  unfold State.endTaken
  repeat' first
    | with_reducible assumption
    | (extract_lets +onlyGivenNames x; refine keeps_cut (p := Keeps s0 x) ?_ (fun hx => ?_) <;> [subst x; clear_value x])
    | (extract_lets +onlyGivenNames x; refine keeps_cut (p := Keeps s0 x.1) ?_ (fun hx => ?_) <;> [subst x; clear_value x])
    | extract_lets +onlyGivenNames x
    | with_reducible apply State.complete_keeps
    | with_reducible apply keeps_foldl
    | with_reducible apply keeps_foldl_fst
    | with_reducible apply keeps_ite
    | simp -zeta only [keeps_mk1, keeps_mk2]
    | (intro i; intros; try beta_reduce)

theorem State.clearQueues_keeps {s0 s : State} (h_ : Keeps s0 s) (fn : Nat) :
    Keeps s0 (State.clearQueues s fn) := by
  unfold State.clearQueues
  repeat' first
    | with_reducible assumption
    | with_reducible apply State.wr_keeps
    | with_reducible apply State.clearPairs_keeps

theorem State.procStop_keeps {s0 s : State} (h_ : Keeps s0 s) (p : Nat) (k : Nat) :
    Keeps s0 (State.procStop s p k) := by
  unfold State.procStop
  repeat' first
    | with_reducible assumption
    | (extract_lets +onlyGivenNames x; refine keeps_cut (p := Keeps s0 x) ?_ (fun hx => ?_) <;> [subst x; clear_value x])
    | (extract_lets +onlyGivenNames x; refine keeps_cut (p := Keeps s0 x.1) ?_ (fun hx => ?_) <;> [subst x; clear_value x])
    | extract_lets +onlyGivenNames x
    | with_reducible apply State.eventBoth_keeps
    | with_reducible apply State.deviceError_keeps
    | with_reducible apply State.abortScope1_keeps
    | with_reducible apply State.quiesce_keeps
    | with_reducible apply State.endTaken_keeps
    | with_reducible apply State.clearQueues_keeps
    | refine State.abortScope1_keeps' (by with_reducible assumption) ?_

theorem execHeartbeatMissed_keeps {s0 s : State} (h_ : Keeps s0 s) (proc : Fin 21) :
    KeepsOut s0 (execHeartbeatMissed proc s) := by
  unfold execHeartbeatMissed
  repeat' first
    | with_reducible assumption
    | (extract_lets +onlyGivenNames x; refine keeps_cut (p := Keeps s0 x) ?_ (fun hx => ?_) <;> [subst x; clear_value x])
    | (extract_lets +onlyGivenNames x; refine keeps_cut (p := Keeps s0 x.1) ?_ (fun hx => ?_) <;> [subst x; clear_value x])
    | extract_lets +onlyGivenNames x
    | with_reducible apply State.deviceError_keeps
    | with_reducible apply State.syncSpares_keeps
    | with_reducible apply State.enterFatal_keeps
    | with_reducible apply State.markProc_keeps
    | with_reducible apply State.procStop_keeps
    | with_reducible apply keepsOut_ite
    | with_reducible apply keeps_ite
    | with_reducible apply keepsOut_next
    | split
    | (intro i; intros; try beta_reduce)

theorem execSelfTest_keeps {s0 s : State} (h_ : Keeps s0 s) (h : Hdr) (kind : Nat) (unit : Nat) :
    KeepsOut s0 (execSelfTest h kind unit s) := by
  unfold execSelfTest
  repeat' first
    | with_reducible assumption
    | (extract_lets +onlyGivenNames x; refine keeps_cut (p := Keeps s0 x) ?_ (fun hx => ?_) <;> [subst x; clear_value x])
    | (extract_lets +onlyGivenNames x; refine keeps_cut (p := Keeps s0 x.1) ?_ (fun hx => ?_) <;> [subst x; clear_value x])
    | extract_lets +onlyGivenNames x
    | with_reducible apply State.start_keeps
    | with_reducible apply State.checked_keeps
    | with_reducible apply keepsOut_next
    | simp -zeta only [keeps_mk1, keeps_mk2]
    | (intro i; intros; try beta_reduce)

theorem State.zeroChannel_keeps {s0 s : State} (h_ : Keeps s0 s) (ch : Nat) : Keeps s0 (s.zeroChannel ch) := by
  have k : Keeps s0 { s with mem := { s.mem with
      hbm := s.mem.hbm.filter (fun e => channelOf e.1 != ch)
      hbmPoison := tclear (fun k => match k with
        | [x] => channelOf (64 * x) == ch
        | _ => false) s.mem.hbmPoison } } := by
    refine keeps_mem h_ (fun w => ?_)
    rw [mems_wf_iff] at *
    dsimp only
    exact ⟨memory_wf_filter _ w.1, w.2.1, w.2.2.1, w.2.2.2.1, twf_tclear _ w.2.2.2.2.1, w.2.2.2.2.2⟩
  exact ⟨k.1, k.2, k.3, k.4⟩

theorem State.testEnds_keeps {s0 s : State} (h_ : Keeps s0 s) (kind : Nat) (unit : Nat) (found : List Found) (failing : List Nat) :
    Keeps s0 (State.testEnds s kind unit found failing) := by
  unfold State.testEnds
  repeat' first
    | with_reducible assumption
    | (extract_lets +onlyGivenNames x; refine keeps_cut (p := Keeps s0 x) ?_ (fun hx => ?_) <;> [subst x; clear_value x])
    | (extract_lets +onlyGivenNames x; refine keeps_cut (p := Keeps s0 x.1) ?_ (fun hx => ?_) <;> [subst x; clear_value x])
    | extract_lets +onlyGivenNames x
    | with_reducible apply State.wr_keeps
    | with_reducible apply State.addRepair_keeps
    | with_reducible apply State.failLane_keeps
    | with_reducible apply State.testCore_keeps
    | with_reducible apply State.showMaps_keeps
    | with_reducible apply State.zeroCore_keeps
    | with_reducible apply State.syncSpares_keeps
    | with_reducible apply State.markProc_keeps
    | with_reducible apply State.zeroChannel_keeps
    | with_reducible apply keeps_foldl
    | with_reducible apply keeps_foldl_fst
    | with_reducible apply keeps_ite
    | split
    | (intro i; intros; try beta_reduce)

theorem execSelfTestComplete_keeps {s0 s : State} (h_ : Keeps s0 s) (h : Hdr) (found : List Found) (failing : List Nat) :
    KeepsOut s0 (execSelfTestComplete h found failing s) := by
  unfold execSelfTestComplete
  repeat' first
    | with_reducible assumption
    | (extract_lets +onlyGivenNames x; refine keeps_cut (p := Keeps s0 x) ?_ (fun hx => ?_) <;> [subst x; clear_value x])
    | (extract_lets +onlyGivenNames x; refine keeps_cut (p := Keeps s0 x.1) ?_ (fun hx => ?_) <;> [subst x; clear_value x])
    | extract_lets +onlyGivenNames x
    | with_reducible apply State.complete_keeps
    | with_reducible apply State.testEnds_keeps
    | with_reducible apply keepsOut_next
    | simp -zeta only [keeps_mk1, keeps_mk2]
    | split
    | (intro i; intros; try beta_reduce)

end Sys2Proof.Machine
end

