-- ==== Sys2Proof/Laws/KeepsPackets.lean ====
section
/-! SUPPORT. What the operations of Machine/Packets.lean never undo (Keeps of Safety.lean): one lemma per operation. -/

set_option linter.all false

namespace Sys2Proof.Machine

theorem State.refusePacket_keeps {s0 s : State} (h_ : Keeps s0 s) (h : Hdr) (status : Nat) :
    Keeps s0 (State.refusePacket s h status) := by
  unfold State.refusePacket
  repeat' first
    | with_reducible assumption
    | (extract_lets +onlyGivenNames x; refine keeps_cut (p := Keeps s0 x) ?_ (fun hx => ?_) <;> [subst x; clear_value x])
    | (extract_lets +onlyGivenNames x; refine keeps_cut (p := Keeps s0 x.1) ?_ (fun hx => ?_) <;> [subst x; clear_value x])
    | extract_lets +onlyGivenNames x
    | with_reducible apply State.complete_keeps
    | simp -zeta only [keeps_mk1, keeps_mk2]

theorem State.takePacket_keeps {s0 s : State} (h_ : Keeps s0 s) (h : Hdr) (op : Nat) (cmd : Option Instr) :
    Keeps s0 (State.takePacket s h op cmd) := by
  unfold State.takePacket
  repeat' first
    | with_reducible assumption
    | (extract_lets +onlyGivenNames x; refine keeps_cut (p := Keeps s0 x) ?_ (fun hx => ?_) <;> [subst x; clear_value x])
    | (extract_lets +onlyGivenNames x; refine keeps_cut (p := Keeps s0 x.1) ?_ (fun hx => ?_) <;> [subst x; clear_value x])
    | extract_lets +onlyGivenNames x
    | with_reducible apply State.start_keeps
    | with_reducible apply keeps_ite
    | simp -zeta only [keeps_mk1, keeps_mk2]
    | (intro i; intros; try beta_reduce)

theorem State.countUnits_keeps {s0 s : State} (h_ : Keeps s0 s) (fn : Nat) (q : Nat) (i : Nat) (n : Nat) :
    Keeps s0 (State.countUnits s fn q i n) := by
  unfold State.countUnits
  repeat' first
    | with_reducible assumption
    | with_reducible apply State.bump_keeps
    | with_reducible apply keeps_ite

theorem State.fetchFailed_keeps {s0 s : State} (h_ : Keeps s0 s) (fn : Nat) (q : Nat) (i : Nat) :
    Keeps s0 (State.fetchFailed s fn q i) := by
  unfold State.fetchFailed
  repeat' first
    | with_reducible assumption
    | (extract_lets +onlyGivenNames x; refine keeps_cut (p := Keeps s0 x) ?_ (fun hx => ?_) <;> [subst x; clear_value x])
    | (extract_lets +onlyGivenNames x; refine keeps_cut (p := Keeps s0 x.1) ?_ (fun hx => ?_) <;> [subst x; clear_value x])
    | extract_lets +onlyGivenNames x
    | with_reducible apply State.bump_keeps
    | with_reducible apply State.emit_keeps
    | with_reducible apply State.hifErr_keeps

theorem State.takeUnits_keeps {s0 s : State} (h_ : Keeps s0 s) (fn : Fin 17) (q : Fin 9) (units : Nat) (b0 : List Byte) (rest : Fetched) :
    Keeps s0 (State.takeUnits s fn q units b0 rest) := by
  unfold State.takeUnits
  repeat' first
    | with_reducible assumption
    | (extract_lets +onlyGivenNames x; refine keeps_cut (p := Keeps s0 x) ?_ (fun hx => ?_) <;> [subst x; clear_value x])
    | (extract_lets +onlyGivenNames x; refine keeps_cut (p := Keeps s0 x.1) ?_ (fun hx => ?_) <;> [subst x; clear_value x])
    | extract_lets +onlyGivenNames x
    | with_reducible apply State.setSqHead_keeps
    | with_reducible apply State.refusePacket_keeps
    | with_reducible apply State.takePacket_keeps
    | with_reducible apply State.countUnits_keeps
    | with_reducible apply State.fetchFailed_keeps
    | with_reducible apply keeps_ite
    | split

theorem State.badHeader_keeps {s0 s : State} (h_ : Keeps s0 s) (fn : Fin 17) (q : Fin 9) (status : Nat) :
    Keeps s0 (State.badHeader s fn q status) := by
  unfold State.badHeader
  repeat' first
    | with_reducible assumption
    | (extract_lets +onlyGivenNames x; refine keeps_cut (p := Keeps s0 x) ?_ (fun hx => ?_) <;> [subst x; clear_value x])
    | (extract_lets +onlyGivenNames x; refine keeps_cut (p := Keeps s0 x.1) ?_ (fun hx => ?_) <;> [subst x; clear_value x])
    | extract_lets +onlyGivenNames x
    | with_reducible apply State.setSqHead_keeps
    | with_reducible apply State.refusePacket_keeps
    | with_reducible apply State.countUnits_keeps
    | with_reducible apply State.fetchFailed_keeps
    | with_reducible apply keeps_ite

theorem execPacketTake_keeps {s0 s : State} (h_ : Keeps s0 s) (fn : Fin 17) (q : Fin 9) (hdr : Fetched) (rest : Fetched) :
    KeepsOut s0 (execPacketTake fn q hdr rest s) := by
  unfold execPacketTake
  repeat' first
    | with_reducible assumption
    | (extract_lets +onlyGivenNames x; refine keeps_cut (p := Keeps s0 x) ?_ (fun hx => ?_) <;> [subst x; clear_value x])
    | (extract_lets +onlyGivenNames x; refine keeps_cut (p := Keeps s0 x.1) ?_ (fun hx => ?_) <;> [subst x; clear_value x])
    | extract_lets +onlyGivenNames x
    | with_reducible apply State.takeUnits_keeps
    | with_reducible apply State.badHeader_keeps
    | with_reducible apply keepsOut_ite
    | with_reducible apply keeps_ite
    | with_reducible apply keepsOut_next
    | simp -zeta only [keeps_mk1, keeps_mk2]
    | split

end Sys2Proof.Machine
end

