-- ==== Sys2Proof/WellFormed.lean ====
section
/-! DEFINITION. Which commands are well formed: every operand lies in the field of the packet, message or register that carries it.
The meanings do not rely on it: `exec` answers on every command. -/

namespace Sys2Proof

/-- A value that a field of `n` bits holds. -/
def fits (n v : Nat) : Bool := decide (v < 2 ^ n)

/-- Values that fields of `n` bits hold. -/
def allFit (n : Nat) (l : List Nat) : Bool := l.all (fits n)

/-- Exactly `k` fields of `n` bits. -/
def wordsOf (k n : Nat) (l : List Nat) : Bool := decide (l.length = k) && allFit n l

/-- A header whose CID has 12 bits and whose PADDOCK has 8 (R488). -/
def Hdr.wf (h : Hdr) : Bool := fits 12 h.cid && fits 8 h.pdk

/-- An error of a shelf read: a row has 16 codewords (R53). -/
def ShelfErr.wf (e : ShelfErr) : Bool := fits 4 e.codeword

/-- An error of a line: a line has 8 sectors, and the syndrome has 32 bits (R408, R409). -/
def SecErr.wf (e : SecErr) : Bool := fits 3 e.sector && fits 32 e.syndrome

/-- A message whose routing unit holds its fields (R571) and whose payload is whole units of 32 bytes. -/
def Msg.wf (m : Msg) : Bool :=
  fits 8 m.kind && fits 8 m.dstDev && fits 8 m.srcDev && fits 4 m.dstPdk && fits 4 m.srcPdk && fits 8 m.flags && fits 16 m.place &&
  fits 32 m.xid && fits 16 m.k && decide (m.n ≤ 65536) && fits 64 m.target && fits 64 m.aux && decide (m.data.length % 32 = 0)

/-- A PASID has 20 bits. -/
def pasidWf (p : Option Nat) : Bool := p.all (fits 20)

/-- BASE0, SIZE0, BASE1 and SIZE1 of a member have 16 bits each (R28). -/
def extentsWf (l : List (Nat × Nat × Nat × Nat)) : Bool := l.all (fun e => fits 16 e.1 && fits 16 e.2.1 && fits 16 e.2.2.1 && fits 16 e.2.2.2)

/-- PORT, HOPS and VIA of a path have 8 bits each (R589). -/
def pathsWf (l : List (Nat × Nat × Nat)) : Bool := l.all (fun e => fits 8 e.1 && fits 8 e.2.1 && fits 8 e.2.2)

/-- The error of a patrol read names one of the row's 16 codewords (R53). -/
def foundWf (e : Option (Nat × Bool)) : Bool := e.all (fun x => fits 4 x.1)

/-- An upset turns bits of a 32-bit element. -/
def upsetsWf (l : List (Nat × Nat)) : Bool := l.all (fun u => fits 32 u.2)

/-- A fault of a group: its kind, one of 128 lanes (R216), and the instruction. -/
def faultWf (e : Option (Nat × Nat × Nat)) : Bool := e.all (fun x => fits 7 x.2.1)

/-- Channel of the group and sector. -/
def chanSectorsWf (l : List (Nat × Nat)) : Bool := l.all (fun x => fits 4 x.1 && fits 3 x.2)

/-- Errors by channel of the group. -/
def scrubErrsWf (l : List (Fin 16 × SecErr)) : Bool := l.all (fun x => x.2.wf)

/-- Whether every operand of a command lies in its field. -/
def Instr.wf : Instr → Bool
  | .paddockAssign h role log2 ctxQuotaM1 pool extents =>
    h.wf && fits 8 role && fits 8 log2 && fits 16 ctxQuotaM1 && fits 32 pool && extentsWf extents
  | .paddockConfig h role => h.wf && fits 8 role
  | .paddockRelease h => h.wf
  | .scheduleLoad h slot image bytes _ => h.wf && fits 8 slot && fits 64 image && fits 32 bytes
  | .scheduleRun h slot params => h.wf && fits 8 slot && wordsOf 16 32 params
  | .scheduleUnload h slot => h.wf && fits 8 slot
  | .rotaryTableLoad h table src _ => h.wf && fits 8 table && fits 64 src
  | .ctxCreate h c fmt head kvHeadsM1 depth layersM1 place prio flags tag =>
    h.wf && fits 32 c && fits 8 fmt && fits 8 head && fits 8 kvHeadsM1 && fits 16 depth && fits 16 layersM1 && fits 8 place && fits 8 prio && fits 8 flags && fits 64 tag
  | .ctxDestroy h c => h.wf && fits 32 c
  | .ctxSet h c select prio flags length tag => h.wf && fits 32 c && fits 8 select && fits 8 prio && fits 8 flags && fits 32 length && fits 64 tag
  | .ctxRead h c out => h.wf && fits 32 c && fits 64 out
  | .ctxPlace h c place => h.wf && fits 32 c && fits 16 place
  | .ctxPlaceDrained h => h.wf
  | .kvPoolAdd h n0 k => h.wf && fits 32 n0 && fits 32 k
  | .kvPoolRemove h n0 k => h.wf && fits 32 n0 && fits 32 k
  | .kvMap h c tier lo hi => h.wf && fits 32 c && fits 8 tier && fits 32 lo && fits 32 hi
  | .kvUnmap h c lo hi => h.wf && fits 32 c && fits 32 lo && fits 32 hi
  | .kvDemote h c lo hi => h.wf && fits 32 c && fits 32 lo && fits 32 hi
  | .kvPromote h c lo hi => h.wf && fits 32 c && fits 32 lo && fits 32 hi
  | .kvDrop h c lo hi => h.wf && fits 32 c && fits 32 lo && fits 32 hi
  | .kvScatter h => h.wf
  | .decodeStep h list out outBytes nM1 slot pPages pCount pRow params _ =>
    h.wf && fits 64 list && fits 64 out && fits 32 outBytes && fits 16 nM1 && fits 8 slot && fits 8 pPages && fits 8 pCount && fits 8 pRow && wordsOf 16 32 params
  | .tableDefine h slot sect elemFmt hash rowsLog2 rows base mult tag =>
    h.wf && fits 8 slot && fits 8 sect && fits 8 elemFmt && fits 8 hash && fits 8 rowsLog2 && fits 64 rows && fits 64 base && fits 64 mult && fits 64 tag
  | .tableRetire h slot gen flags => h.wf && fits 8 slot && fits 8 gen && fits 8 flags
  | .tableRead h slot out => h.wf && fits 8 slot && fits 64 out
  | .hbmPower h group state mask => h.wf && fits 8 group && fits 8 state && fits 16 mask
  | .hbmPowerDownDrained h => h.wf
  | .hbmPowerDownTimeout h => h.wf
  | .hbmMargin h ch kind pattern lo hi dwell out =>
    h.wf && fits 8 ch && fits 8 kind && fits 8 pattern && fits 16 lo && fits 16 hi && fits 32 dwell && fits 64 out
  | .keyRotate h => h.wf
  | .memRawWrite h ch tline sector check data => h.wf && fits 8 ch && fits 8 tline && fits 8 sector && fits 32 check && decide (data.length = 64)
  | .memRawRead h ch tline sector out => h.wf && fits 8 ch && fits 8 tline && fits 8 sector && fits 64 out
  | .hostWindowSet h window flags pasid base size => h.wf && fits 16 window && fits 8 flags && fits 32 pasid && fits 64 base && fits 64 size
  | .nopCommand h => h.wf
  | .quiesce h timeoutUs => h.wf && fits 32 timeoutUs
  | .quiesceComplete h => h.wf
  | .quiesceTimeout h => h.wf
  | .abort h scope => h.wf && fits 8 scope
  | .abortComplete h => h.wf
  | .copy h src dst bytes => h.wf && fits 64 src && fits 64 dst && fits 64 bytes
  | .fill h dst bytes pattern => h.wf && fits 64 dst && fits 64 bytes && fits 64 pattern
  | .copyFillComplete h _ _ _ => h.wf
  | .tdmWrite h port flags transit slots creds => h.wf && fits 8 port && fits 8 flags && fits 16 transit && wordsOf 64 8 slots && wordsOf 80 8 creds
  | .portUp h port => h.wf && fits 8 port
  | .portDownCommand h port => h.wf && fits 8 port
  | .portIdle h port => h.wf && fits 8 port
  | .portRekey h port => h.wf && fits 8 port
  | .portTime h port arg => h.wf && fits 8 port && fits 8 arg
  | .portRetireLane h port lane => h.wf && fits 8 port && fits 8 lane
  | .portEncrypt h port arg => h.wf && fits 8 port && fits 8 arg
  | .portWake h port => h.wf && fits 8 port
  | .linkMargin h port lane kind dwell lo hi out =>
    h.wf && fits 8 port && fits 8 lane && fits 8 kind && fits 8 dwell && fits 16 lo && fits 16 hi && fits 64 out
  | .routeWrite h dev flags npaths transit paths => h.wf && fits 8 dev && fits 8 flags && fits 8 npaths && fits 16 transit && pathsWf paths
  | .rankWrite h first count flags self epoch entries =>
    h.wf && fits 8 first && fits 8 count && fits 8 flags && fits 8 self && fits 16 epoch && allFit 64 entries
  | .rankWriteDrainDone h => h.wf
  | .mirrorSet h peer ports part fence => h.wf && fits 8 peer && fits 16 ports && fits 32 part && fits 16 fence
  | .pageServerSet h en => h.wf && fits 8 en
  | .fwStage h image bytes flags _ => h.wf && fits 64 image && fits 32 bytes && fits 8 flags
  | .fwActivate h flags => h.wf && fits 8 flags
  | .debugChallenge h out => h.wf && fits 64 out
  | .debugResponse h scope tokenK tokenO ownerKeys _ _ _ => h.wf && fits 8 scope && fits 64 tokenK && fits 64 tokenO && fits 64 ownerKeys
  | .counterRead h set out => h.wf && fits 8 set && fits 64 out
  | .haltDump h out bytes => h.wf && fits 64 out && fits 32 bytes
  | .dumpConfig h flags buf bytes => h.wf && fits 8 flags && fits 64 buf && fits 32 bytes
  | .selfTest h kind unit => h.wf && fits 8 kind && fits 16 unit
  | .selfTestComplete h _ _ => h.wf
  | .hbmPowerUpDone h => h.wf
  | .hbmMarginComplete h _ => h.wf
  | .linkMarginComplete h _ => h.wf
  | .fwStageComplete h => h.wf
  | .fwActivateRestartDone h _ => h.wf
  | .registerWrite _ off width _ => fits 64 off && fits 16 width
  | .wrongWidthAccess _ off width _ => fits 64 off && fits 16 width
  | .reservedOffsetAccess _ off width _ => fits 64 off && fits 16 width
  | .modulePowerOn _ => true
  | .powerOnStageEnd _ _ => true
  | .perstNAssert => true
  | .perstNDeassert => true
  | .pfFlr => true
  | .vfFlr _ => true
  | .resetComplete speed width => fits 4 speed && fits 6 width
  | .pwrgdDeassert => true
  | .inputUndervoltage => true
  | .inputFault => true
  | .killNAssert _ => true
  | .handoverDrainDone _ => true
  | .handoverZeroiseDone _ _ => true
  | .handoverLateClear _ => true
  | .arrivalWriteCommit _ _ => true
  | .arrivalWriteForced _ _ => true
  | .patrolRead _ _ err => foundWf err
  | .patrolForced _ _ err => foundWf err
  | .patrolWriteBack _ _ => true
  | .shelfPowerDownDrained _ => true
  | .shelfPowerDownTimeout _ => true
  | .ceLimitWrite _ v => fits 4 v
  | .nop _ => true
  | .endSection _ => true
  | .loopOpen _ => true
  | .loopClose _ => true
  | .waitCell _ => true
  | .slipEnd _ => true
  | .waitTimeout _ => true
  | .slipTimeout _ => true
  | .headStart _ => true
  | .tailStart _ => true
  | .streamRetire _ => true
  | .runComplete _ => true
  | .abortDrainDone _ => true
  | .waitDefaultUsWrite _ v => fits 20 v
  | .schCslip0ValidClear _ => true
  | .untimedEventAdmit _ => true
  | .droopTrip _ => true
  | .droopStretchEnd _ => true
  | .budRec0ValidClear _ => true
  | .budDcfgWrite _ droopMv holdClocks => fits 10 droopMv && fits 12 holdClocks
  | .signal _ => true
  | .stileArrive _ => true
  | .stileWait _ => true
  | .matrixTile _ errs => errs.all ShelfErr.wf
  | .tileClaim _ upsets => upsetsWf upsets
  | .kvAppendHandoff _ upsets => upsetsWf upsets
  | .chkTWrite _ v => fits 5 v
  | .elem _ errs => errs.all ShelfErr.wf
  | .wsMode _ => true
  | .elemRowWrite _ fault => faultWf fault
  | .elemOneRowWrite _ fault => faultWf fault
  | .attnPass _ => true
  | .attnBlockFetch _ => true
  | .attnQueryPrepare _ => true
  | .attnQkTile _ upsets => upsetsWf upsets
  | .attnRowStatistics _ => true
  | .attnPvTile _ upsets => upsetsWf upsets
  | .attnFinalScaling _ => true
  | .attnPassComplete _ => true
  | .atnStale0ValidClear _ => true
  | .kvAppend _ errs => errs.all ShelfErr.wf
  | .kvAppendComplete _ => true
  | .pageMoveAppendsDrained _ => true
  | .pageMoveCopyDone _ => true
  | .limboRecycle _ => true
  | .autoDemote _ => true
  | .sortingAssistTake _ => true
  | .decodeBucketRun _ => true
  | .ctxCfgWrite _ v => fits 64 v
  | .ctxFarcfgWrite _ v => fits 64 v
  | .ctxDefer0ValidClear _ => true
  | .tableLookup _ => true
  | .tableRowReturn _ => true
  | .tableLookupComplete _ => true
  | .tableGenerationRelease _ => true
  | .tblRec0ValidClear _ => true
  | .lineTransactionIssue _ => true
  | .lineTransactionComplete _ _ _ errs => errs.all SecErr.wf
  | .hbmParityReplay _ _ _ => true
  | .calibrationWindow _ => true
  | .hbmRefresh _ => true
  | .hbmTemperatureRead temps => wordsOf 8 8 temps
  | .hbmErr0ValidClear _ => true
  | .calPeriodMsWrite v => fits 64 v
  | .mowerDemandVisit _ errs second => errs.all SecErr.wf && allFit 3 second
  | .scrubLine _ errs second => scrubErrsWf errs && chanSectorsWf second
  | .linePatch _ bad => allFit 3 bad
  | .rekeyLine _ errs second => errs.all SecErr.wf && allFit 3 second
  | .rekeyComplete _ => true
  | .mowErr0ValidClear _ => true
  | .mowCfgWrite _ v => fits 64 v
  | .farRequestIssue _ _ _ => true
  | .cxlLinkReplay _ => true
  | .farLinkLoss _ => true
  | .farLinkReturn _ => true
  | .farErr0ValidClear _ => true
  | .farSlotWrite _ _ v => fits 64 v
  | .win0Apply _ => true
  | .win0ErrClear _ => true
  | .translationCompletion _ pasid base size _ _ => pasidWf pasid && fits 64 base && fits 64 size
  | .pageRequestGroupResponse _ _ _ => true
  | .atsInvalidationRequest _ pasid base size => pasidWf pasid && fits 64 base && fits 64 size
  | .invalidationComplete _ pasid base size => pasidWf pasid && fits 64 base && fits 64 size
  | .translationTimeout _ _ cid => fits 12 cid
  | .hostCompletionError _ window addr => fits 12 window && fits 64 addr
  | .tdiBarRequestRefused _ _ _ => true
  | .msixUnmask _ _ => true
  | .xlateTimeoutMsWrite _ v => fits 64 v
  | .hifErr0ValidClear _ => true
  | .sqPairEnable _ _ _ => true
  | .sqPairDisable _ _ => true
  | .pqEnable _ _ _ => true
  | .eqEnable _ _ _ => true
  | .queueBaseWrite _ _ v => fits 64 v
  | .sqTailDoorbell _ _ idx => fits 16 idx
  | .cqHeadDoorbell _ _ idx => fits 16 idx
  | .pqTailDoorbell _ idx => fits 16 idx
  | .pcqHeadDoorbell _ idx => fits 16 idx
  | .eqHeadDoorbell _ idx => fits 16 idx
  | .tailwordPoll _ _ => true
  | .packetTake _ _ _ _ => true
  | .fenceRelease _ _ => true
  | .trainingStepEnd _ _ _ => true
  | .trainingAbandon _ _ _ => true
  | .flitSend _ => true
  | .flitReceive _ _ _ _ _ _ _ => true
  | .replayWaitTimeout _ => true
  | .laneFail _ _ => true
  | .retrainSequenceReceive _ mask => fits 9 mask
  | .retrainResume _ _ => true
  | .retrainDeadlineMiss _ _ => true
  | .spareLaneTestFail _ _ => true
  | .capsReceive _ m => m.wf
  | .spdmFragmentReceive _ m => m.wf
  | .idleMessageReceive _ m => m.wf
  | .keyReadyReceive _ m => m.wf
  | .rekeyDue _ => true
  | .timeMessageSend _ => true
  | .timeMessageReceive _ m _ => m.wf
  | .timeUnlock => true
  | .portDown _ reasons => allFit 4 reasons
  | .peerLostTimeout _ => true
  | .plkCfgWrite _ v => fits 32 v
  | .fetch _ => true
  | .recv _ => true
  | .pageFetch _ => true
  | .writeMover _ errs => errs.all ShelfErr.wf
  | .push _ errs => errs.all ShelfErr.wf
  | .writeMessageReceive _ m => m.wf
  | .pushMessageReceive _ m => m.wf
  | .appendMessageReceive _ m => m.wf
  | .readReqReceive _ m => m.wf
  | .readDataReceive _ m => m.wf
  | .pageReqReceive _ m => m.wf
  | .ackReceive _ m => m.wf
  | .stopReceive _ m => m.wf
  | .mirrorReceive _ m => m.wf
  | .mirrorBeatReceive _ m => m.wf
  | .mirrorBeatSend _ => true
  | .mirrorFailover _ => true
  | .mirrorBroken _ => true
  | .transitForward _ _ m => m.wf
  | .earlyArrivalTimeout _ => true
  | .receiveComplete _ => true
  | .devIdWrite v => fits 8 v
  | .rteErr0ValidClear _ => true
  | .spdmRequest _ _ => true
  | .getReport _ scope nonce => fits 8 scope && decide (nonce.length = 32)
  | .getMeasurements _ nonce => decide (nonce.length = 32)
  | .keyExchange _ _ => true
  | .endSession _ => true
  | .sessionHeartbeatMissed _ => true
  | .keyProg _ _ _ _ _ key => decide (key.length = 32)
  | .kSetGo _ _ _ _ _ => true
  | .kSetStop _ _ _ _ _ => true
  | .ideIntegrityFail _ => true
  | .lockInterfaceRequest _ _ => true
  | .getDeviceInterfaceReport _ _ => true
  | .startInterfaceRequest _ _ nonce => decide (nonce.length = 32)
  | .stopInterfaceRequest _ _ => true
  | .tdiConfigWrite _ _ v => fits 64 v
  | .getHealth _ => true
  | .paddockStop _ _ _ _ => true
  | .moduleKill _ => true
  | .ownerProvision _ value => decide (value.length = 48)
  | .i3cDynamicAddress _ _ => true
  | .cntSnapTake _ => true
  | .swardCoreGate _ => true
  | .swardCaptureDone _ => true
  | .swardWriteDone _ _ => true
  | .heartbeatMissed _ => true
  | .coreControlFault _ => true
  | .paddockUnitFault _ => true
  | .deviceFatal _ _ => true
  | .pllLockLoss _ => true
  | .serdesPllLoss _ => true
  | .regulatorFault _ => true
  | .thermalTrip _ _ => true
  | .coreSelWrite v => fits 64 v
  | .corePllRelockDone => true
  | .refusedClear => true
  | .configurationWrite _ _ v => fits 64 v
  | .hostLinkRetrain _ speed width => fits 4 speed && fits 6 width
  | .killNDeassert => true
  | .expanderMediaEvent _ => true
  | .farRetrainExhausted _ => true
  | .debugChallengeExpiry => true
  | .debugZeroiseDone => true

end Sys2Proof
end

