-- ==== Sys2Proof/Tests/Slice0.lean ====
section
/-! SUPPORT. Tests: for every obligation with hypotheses, concrete states and operands that meet them (`witness_<obligation>`), at the
boundary values of its clauses; the terms that the well-formedness checks refuse and admit; worked examples of the spec. -/

namespace Sys2Proof

/-- A command taken and in execution. -/
def Machine.State.does (s : Machine.State) (h : Hdr) (op : Nat) (cmd : Instr) (prog : List Nat) : Machine.State := s.start h op (some cmd) prog

namespace Tests

open Machine

set_option Elab.async false

/-- A header of the PF, SQ 0. -/
def pf : Hdr := ⟨0, 0, 1, 0, false⟩
/-- A header of VF 1 (paddock 0), SQ 0. -/
def vf : Hdr := ⟨1, 0, 1, 0, false⟩
/-- A header of VF 1, PQ. -/
def vfP : Hdr := ⟨1, 8, 1, 0, false⟩

/-- After power-on: READY, paddock 0 ACTIVE, 1 QUIESCED, 2 ASSIGNED, 3 HANDOVER, the others FREE. -/
def demo : State :=
  let s := { State.reset with hand := [] }
  let s := (s.wr F.RST_STATUS_STAGE 0 0).wr F.RST_STATUS_READY 0 1
  let s := s.wr F.RST_STATUS_IN_RESET 0 0
  (List.range 16).foldl (fun s p => s.wr F.PDK_STATE_STATE p (nth [2, 3, 1, 4] p)) s

/-- A pointer to offset 0 of host window 1. -/
def hostPtr : Nat := 2 ^ 62 + 2 ^ 52

/-- `demo` with host windows 1 of PF and VF 1: 16 MiB, read and write. -/
def demoW : State := (demo.setWindow 0 1 ⟨true, true, true, false, false, 0, 0, 0x1000000⟩).setWindow 1 1 ⟨true, true, true, false, false, 0, 0, 0x1000000⟩

/-- VF 1's pair 0 is on, its SQ in HBM of paddock 0 with one packet present. -/
def demoQ : State :=
  let s := ((demo.wr F.CMQ_CFG_EN 1 1 0).wr F.CMQ_CFG_SQ_SIZE_M1 1 7 0).wr F.CMQ_CFG_CQ_SIZE_M1 1 7 0
  (s.wr F.CMQ_SQ_TAIL_INDEX 1 1 0).wr F.CMQ_EQ_CFG_EN 1 1

theorem witness_StepRunsFront : ({ demo with pending := [.nopCommand vf] } : State).pending = [.nopCommand vf] ∧ demo.pending = [] := by decide +kernel
theorem witness_StepKeepsForm : demo.wf = true := by decide +kernel
theorem witness_ScheduledWrites : 511 < 512 := by decide
theorem witness_ClampedWrites : 15 < 16 ∧ 0xFFFFF < 2 ^ 20 ∧ 31 < 32 ∧ 1023 < 1024 ∧ 4095 < 4096 ∧ 63 < 64 := by decide

/-- A register of 64 bits, one of 32 bits, a reserved offset, a closed BAR, and a locked interface refusing. -/
theorem witness_BarAccess : demo.barClosed 1 = false ∧ ¬ (msixBase 1 ≤ 64 ∧ 64 < msixBase 1 + 16 * msixCount 1) ∧
    (findReg 1 64).any (fun r => r.accepts 64 && !r.accepts 8) = true ∧ findReg 1 192 = none ∧ demo.barClosed 4 = true ∧
    (demo.wr F.RTP_TDI_STATE_STATE 1 2).rd F.RTP_TDI_STATE_STATE 1 = 2 := by decide +kernel

theorem witness_QueueEnables : demo.barClosed 3 = false ∧ demo.holdEnable 3 7 = false ∧ demo.holdEnable 3 8 = false ∧ demo.holdEnable 3 9 = false ∧
    demo.pdkState (pdkOf 3) = pdkAssigned ∧ demo.pdkState (pdkOf 2) = pdkQuiesced ∧ State.reset.holdEnable 0 7 = true ∧ demo.barClosed 4 = true ∧
    demo.rd F.CMQ_SQ_HEAD_OUTSTANDING 3 7 = 0 ∧
    (∃ tr, demoW.enableErr 1 (demoW.baseOk 1 0 64 false true && (ptrTag hostPtr = 1 && demoW.baseOk 1 hostPtr 64 true false)) tr = 0) ∧
    (∃ tr, demo.enableErr 1 false tr ≠ 0) := by
  refine ⟨?_, ?_, ?_, ?_, ?_, ?_, ?_, ?_, ?_, ⟨true, ?_⟩, ⟨false, ?_⟩⟩ <;> decide +kernel

theorem witness_QueueBases : demo.barClosed 1 = false ∧ demo.rd F.CMQ_CFG_EN 1 7 ≠ 1 ∧ demo.rd F.CMQ_SQ_BASE_POINTER 1 7 ≠ 64 % 2 ^ 64 ∧
    demo.rd F.CMQ_CQ_BASE_POINTER 1 7 ≠ 64 % 2 ^ 64 ∧ demo.rd F.CMQ_CFG_SQ_SIZE_M1 1 7 ≠ sizeField 64 ∧ demo.rd F.CMQ_CFG_CQ_SIZE_M1 1 7 ≠ sizeField 64 ∧
    demoQ.rd F.CMQ_CFG_EN 1 0 = 1 ∧ demo.rd F.CMQ_PQ_CFG_EN 1 ≠ 1 ∧ demo.rd F.CMQ_PQ_BASE_POINTER 1 ≠ 64 % 2 ^ 64 ∧
    demo.rd F.CMQ_EQ_CFG_EN 1 ≠ 1 ∧ demo.rd F.CMQ_EQ_BASE_POINTER 1 ≠ 64 % 2 ^ 64 := by decide +kernel

theorem witness_Doorbells : demoQ.barClosed 1 = false ∧ ¬ (demoQ.rd F.CMQ_CFG_TAILWORD 1 0 = 1 ∧ ptrTag (demoQ.rd F.CMQ_SQ_BASE_POINTER 1 0) = 0) ∧
    7 ≤ demoQ.rd F.CMQ_CFG_SQ_SIZE_M1 1 0 ∧ demoQ.rd F.CMQ_CFG_SQ_SIZE_M1 1 0 < 8 ∧
    headOk (demoQ.rd F.CMQ_CQ_HEAD_INDEX 1 0) (demoQ.cqTail 1 0) 0 (demoQ.cqEntries 1 0) = true ∧
    headOk (demoQ.rd F.CMQ_CQ_HEAD_INDEX 1 0) (demoQ.cqTail 1 0) 1 (demoQ.cqEntries 1 0) = false ∧
    headOk (demoQ.rd F.CMQ_PCQ_HEAD_INDEX 1) (demoQ.cqTail 1 8) 0 8 = true ∧ headOk (demoQ.rd F.CMQ_PCQ_HEAD_INDEX 1) (demoQ.cqTail 1 8) 8 8 = false ∧
    headOk (demoQ.rd F.CMQ_EQ_HEAD_INDEX 1) (demoQ.rd F.CMQ_EQ_TAIL_INDEX 1) 0 (demoQ.eqEntries 1) = true ∧
    headOk (demoQ.rd F.CMQ_EQ_HEAD_INDEX 1) (demoQ.rd F.CMQ_EQ_TAIL_INDEX 1) 4096 (demoQ.eqEntries 1) = false := by decide +kernel

theorem witness_Doorbells_tailword : ∀ s, s = demoQ.wr F.CMQ_CFG_TAILWORD 1 1 0 →
    s.rd F.CMQ_CFG_EN 1 0 = 1 ∧ s.rd F.CMQ_CFG_TAILWORD 1 0 = 1 ∧ ptrTag (s.rd F.CMQ_SQ_BASE_POINTER 1 0) = 0 ∧
    leNat (s.hbmRead (pdkOf 1) (ptrAddr (s.rd F.CMQ_TAILWORD_POINTER 1 0)) 8) % 4096 ≤ s.rd F.CMQ_CFG_SQ_SIZE_M1 1 0 := by
  intro s h; subst h; decide +kernel

theorem witness_CompletionRecord : demo.quiet 1 = false := by decide +kernel
theorem witness_EventRecords : demo.quiet 4 = true ∧ demo.quiet 1 = false ∧ demo.rd F.CMQ_EQ_CFG_EN 1 = 0 ∧
    ¬ ((demoQ.wr F.CMQ_EQ_CFG_SIZE_M1 1 7).rd F.CMQ_EQ_CFG_EN 1 = 0 ∨
      (demoQ.wr F.CMQ_EQ_CFG_SIZE_M1 1 7).eqHeld 1 + 1 ≥ (demoQ.wr F.CMQ_EQ_CFG_SIZE_M1 1 7).eqEntries 1) := by decide +kernel

/-- A packet that may be taken; one with FENCE behind a taken command; a header that cannot be read. -/
theorem witness_PacketTake : demo.sqOn 1 0 = false ∧ demoQ.sqOn 1 0 = true ∧ ringHeld (demoQ.sqHead 1 0) (demoQ.sqTail 1 0) (demoQ.sqEntries 1 0) ≠ 0 ∧
    demoQ.cqRoom 1 0 = true ∧ demoQ.sqBlocked 1 0 = false ∧ demoQ.deaf ⟨1, 0, 0, 0, false⟩ = false ∧
    demoQ.unitRead 1 0 (demoQ.sqHead 1 0) .hostError = .ok (List.replicate 64 0) ∧ demoQ.takenIn 1 0 = [] := by decide +kernel

/-- The SQ of `demoQ` in host memory. -/
def demoQH : State := (demoQ.wr F.CMQ_SQ_BASE_POINTER 1 hostPtr 0).does vf 0 (.nopCommand vf) []
theorem witness_PacketTake_host : demoQH.sqOn 1 0 = true ∧ ringHeld (demoQH.sqHead 1 0) (demoQH.sqTail 1 0) (demoQH.sqEntries 1 0) ≠ 0 ∧
    demoQH.cqRoom 1 0 = true ∧ demoQH.sqBlocked 1 0 = false ∧ demoQH.deaf ⟨1, 0, 0, 0, false⟩ = false ∧
    demoQH.unitRead 1 0 (demoQH.sqHead 1 0) .hostError = .hostError ∧ demoQH.unitRead 1 0 (demoQH.sqHead 1 0) .poison = .poison ∧
    demoQH.unitRead 1 0 (demoQH.sqHead 1 0) (.ok [0, 8]) = .ok [0, 8] ∧ hasBit (fieldAt (fitBytes 64 [0, 8]) 1 1) 3 = true ∧
    demoQH.takenIn 1 0 ≠ [] := by decide +kernel

theorem witness_StoppingAPaddock : demo.goes vf 0 0 ∧ demo.goes vfP opQuiesce 0 ∧ demo.goes vfP opAbort 0 := by
  unfold State.goes; decide +kernel
theorem witness_StoppingAPaddock_states : demo.stoppable 0 = true ∧ demo.pdkState 0 = pdkActive ∧ demo.stoppable 1 = true ∧ demo.pdkState 1 ≠ pdkActive ∧
    (demo.deaf pf = false ∧ demo.callStatus { pf with pdk := 7 } 0 ≠ 0) ∧
    (demo.does vfP opQuiesce (.quiesce vfP 1) [0, 0]).executing vfP opQuiesce = true ∧ (demo.does vfP opQuiesce (.quiesce vfP 1) [0, 0]).takenOf 0 = [] ∧
    ((demo.does vfP opQuiesce (.quiesce vfP 1) [0, 0]).does vf opCopy (.copy vf 0 64 64) []).takenOf 0 ≠ [] ∧
    nth ((demo.does vfP opQuiesce (.quiesce vfP 1) [0, 0]).progOf vfP) 0 ≤ demo.now ∧
    (demo.does vfP opAbort (.abort vfP 0) [0, 0]).executing vfP opAbort = true ∧ (demo.does vfP opAbort (.abort vfP 0) [0, 0]).abortEnded 0 = true := by
  decide +kernel

theorem witness_CopyAndFill : demo.goes vf opCopy (demo.copyStatus vf 0 512 64) ∧ demo.untranslated vf [⟨0, 64, false⟩, ⟨512, 64, true⟩] ∧
    demo.goes vf opFill (demo.fillStatus vf 0 64) ∧ demo.untranslated vf [⟨0, 64, true⟩] := by
  unfold State.goes State.untranslated; decide +kernel

/-- `demoW` with ATS, and a translation of the whole window. -/
def demoT : State :=
  let s := demoW.setCfg 1 ⟨true, true, false, true, 0, false⟩
  { s with host := { s.host with xents := [⟨1, none, 0, 0x1000000, true, true, false⟩] } }
theorem witness_CopyAndFill_translated : demoT.goes vf opCopy (demoT.copyStatus vf hostPtr 0 4096) ∧
    demoT.translated vf [⟨hostPtr, 4096, false⟩, ⟨0, 4096, true⟩] ∧ demoT.goes vf opFill (demoT.fillStatus vf hostPtr 4096) ∧
    demoT.translated vf [⟨hostPtr, 4096, true⟩] := by
  unfold State.goes State.translated; decide +kernel

theorem witness_CopyAndFill_ends : ∀ s, s = demo.does vf opCopy (.copy vf 0 512 64) [0] →
    ((s.findTaken vf).bind (fun t => if t.phase = .executing then t.cmd.bind moveOf else none)) = some (some 0, 512, 64, 0) ∧
    s.lineStatus 0 (some 0) 512 64 0 = 0 ∧ linesOf 0 64 ≤ 1 ∧ 0 < linesOf 0 64 := by
  intro s h; subst h; decide +kernel

theorem witness_HostWindows : demo.goes pf 0x01 (demo.windowSetStatus 0 1023 6 0 0 4096) ∧ hasBit 6 0 = false ∧ demo.goes vf 0x01 (demo.windowSetStatus 1 0 1 0 0 0) ∧
    demo.missing 0 [] = [] := by
  unfold State.goes; decide +kernel
theorem witness_HostWindows_win0 : demoQ.anyQueueOn 1 = true ∧ demo.anyQueueOn 1 = false ∧ demo.windowBusy 1 0 = false ∧ demo.rd F.HIF_WIN0_CTL_VALID 1 = 0 ∧
    ((demo.wr F.HIF_WIN0_CTL_VALID 1 1).wr F.HIF_WIN0_SIZE_SIZE 1 4096).rd F.HIF_WIN0_CTL_VALID 1 = 1 ∧
    windowFieldsOk false 0 (demo.rd F.HIF_WIN0_BASE_BASE 1) (((demo.wr F.HIF_WIN0_CTL_VALID 1 1).wr F.HIF_WIN0_SIZE_SIZE 1 4096).rd F.HIF_WIN0_SIZE_SIZE 1) = true := by
  decide +kernel

/-- A command of VF 1 in the fault queue. -/
def demoF : State := { demoT with taken := [⟨vf, opCopy, some (.copy vf hostPtr 0 4096), .faultQueue, 0, [⟨none, 0, false⟩], []⟩] }
theorem witness_Translations : ¬ ((1 : Fin 17).val ≠ 0 ∧ demoF.pdkState (pdkOf 1) = pdkHandover) ∧ (demoF.makeRoom 1).isSome = true ∧
    ((demoF.taken.filter (fun t => t.h.fn.val == 1 && t.phase == .faultQueue))[0]?).isSome = true ∧
    (demoF.taken.find? (fun t => t.h.fn == 1 && t.h.q == 0 && t.h.cid == 1)).any (fun t => t.phase == .faultQueue &&
      decide (demoF.rd F.HIF_CFG_XLATE_TIMEOUT_MS 1 * 1000000 < 10 ^ 12 - t.since) &&
      decide (demoF.now - t.since ≤ demoF.rd F.HIF_CFG_XLATE_TIMEOUT_MS 1 * 1000000)) = true := by decide +kernel

theorem witness_HostLinkAndConfiguration : ∀ s, s = demo.does vf 0x33 (.ctxRead vf 0 hostPtr) [] →
    (s.taken.find? (fun t => t.h.fn == 1 && t.h.q == 0 && t.h.cid == 1)).any (fun t => t.op != opCopy && t.op != opFill && t.op != 0x51) = true ∧
    (∀ i < 16, s.vfExists (i + 1) = true → (s.configItem 0 .vfEnable 1).vfExists (i + 1) = true) ∧ 7 < 8 ∧ 31 < 32 := by
  intro s h; subst h; decide +kernel
/-- An image whose core 0 has words `ws` in stream `st`, with every cell, stile, drawer and stream declared. -/
def imageWith (st : Nat) (ws : List Nat) : Image :=
  ⟨false, 64, 1, 7, 0xFF, 0xFF, 1000, 0xFFF, 0xFFF, 0xFFFF, 0, 2 ^ 64 - 1, List.replicate 16 0, 2 ^ 256 - 1, 2 ^ 256 - 1, [],
    [⟨[], List.replicate st [] ++ [ws]⟩]⟩
def run0 : Run := ⟨vf, 0, 0, List.replicate 16 0, none, tally0⟩
/-- Paddock 0 runs that image, its head has started on core 0. -/
def running (st : Nat) (ws : List Nat) : State :=
  let d := { demo.sched with images := [([0, 0], some (imageWith st ws))], runs := [([0], ⟨some run0, none, false, [], none, true⟩)] }
  { demo with sched := { d with heads := [([0, 0], some 0)] } }
/-- A word of opcode `op` with operands `x`, due in the first tick. -/
def word (op x : Nat) : Nat := op * 2 ^ 96 + x
def here (st : Fin 12) : At := ⟨0, st, false⟩
def SlipOn (s : State) : State := s.setSlip 0 (some ⟨3, 0, 4, 0, 5, 0⟩)
def late (s : State) : State := s.wr F.CNT_TIMEBASE_TIME 0 (10 ^ 13)

theorem witness_ControlWords :
    (running 4 [word opcNop 0]).issues opcNop (here 4) run0 [word opcNop 0] ∧
    (running 4 [word opcWait (2 * 2 ^ 86)]).issues opcWait (here 4) run0 [word opcWait (2 * 2 ^ 86)] ∧
    (running 4 [word opcStileWait 0]).issues opcStileWait (here 4) run0 [word opcStileWait 0] ∧
    (running 11 [word opcEnd 0]).issues opcEnd (here 11) run0 [word opcEnd 0] ∧
    (running 4 [word opcSignal 1]).issues opcSignal (here 4) run0 [word opcSignal 1] ∧
    (running 4 [word opcArrive 0]).issues opcArrive (here 4) run0 [word opcArrive 0] ∧ (running 4 [word opcNop 0]).slipOf 0 = none := by
  refine ⟨?_, ?_, ?_, ?_, ?_, ?_, by decide +kernel⟩ <;> (unfold State.issues; dsimp only; decide +kernel)

/-- LOOP with count 0 and with count 2; ENDLOOP inside a loop that goes on, and of its last iteration. -/
theorem witness_ControlWords_loops : ∀ s : State, s = running 4 [word opcLoop 2, word opcEndloop 0] →
    s.sideOf 0 false = some run0 ∧ s.wordAt 0 run0 4 = some [word opcLoop 2, word opcEndloop 0] ∧ s.coreLive 0 = true ∧ (s.runsOf 0).cause = none ∧
    s.headOf 0 0 ≠ none ∧ wOp (word opcLoop 2) = opcLoop ∧ wOp (word opcEndloop 0) = opcEndloop ∧ hasBit (word opcLoop 2) 24 = false ∧
    bitsAt (word opcLoop 2) 0 24 ≠ 0 ∧ bitsAt (word opcLoop 0) 0 24 = 0 ∧
    (s.setStream 0 0 4 ⟨1, [⟨1, 2, 0⟩], none, false, 0⟩).wordAt 0 run0 4 = some [word opcEndloop 0] ∧ 0 + 1 < 2 ∧ 2 ≤ 1 + 1 := by
  intro s h; subst h; decide +kernel

/-- A core that slips on a WAIT that fails; one whose wait has lasted too long; one whose slip began at time 0. -/
def waiting : State := SlipOn (running 4 [word opcWait (1 + 2 ^ 85)])
def waited : State := late { waiting with sched := { waiting.sched with waits := [([0, 4], some 0)] } }
theorem witness_SlipsAndTimeouts : (SlipOn demo).coreLive 0 = true ∧ (SlipOn demo).slipOf 0 ≠ none ∧ (SlipOn demo).blockOf 0 = none ∧
    (SlipOn demo).unresolved 0 = false ∧ demo.slipOf 127 = none ∧ waited.coreLive 0 = true ∧ (waited.runsOf 0).cause = none ∧ waited.slipOf 0 ≠ none ∧
    (waited.expired 0).any (fun d => decide (d.stream < 4)) = false ∧
    ((waited.expired 0).find? (fun d => d.stream == 4 && waited.isRunning 0 d.run.side == true)).any (fun d => wOp d.word == opcWait) = true ∧
    demo.expired 0 = [] := by decide +kernel
def stileWaited : State :=
  let s := (SlipOn (running 4 [word opcStileWait (2 ^ 85)])).wr F.SYN_STILE_SENSE 0 1 0
  late { s with sched := { s.sched with waits := [([0, 4], some 0)] } }
theorem witness_SlipsAndTimeouts_stile : stileWaited.coreLive 0 = true ∧ stileWaited.slipOf 0 ≠ none ∧
    ((stileWaited.expired 0).find? (fun d => d.stream == 4 && stileWaited.isRunning 0 d.run.side == true)).any (fun d => wOp d.word != opcWait) = true := by
  decide +kernel
/-- A FETCH waits for an engine that an untimed operation keeps busy. -/
def busySlip : State := ((running 4 []).setSlip 0 (some ⟨5, 0, 4, 0, 5, 0⟩)).setStream 0 0 4 ⟨0, [], none, false, 32⟩
theorem witness_SlipsAndTimeouts_slip : busySlip.slipOf 0 = some ⟨5, 0, 4, 0, 5, 0⟩ ∧ busySlip.coreLive 0 = true ∧ (busySlip.runsOf 0).cause = none ∧
    busySlip.slipUntimed 0 ⟨5, 0, 4, 0, 5, 0⟩ = true ∧ busySlip.now < 0 + 1000 * busySlip.rd F.SCH_PCTL_WAIT_DEFAULT_US 0 ∧
    0 + 1000 * (late busySlip).rd F.SCH_PCTL_WAIT_DEFAULT_US 0 ≤ (late busySlip).now ∧ (late busySlip).slipUntimed 0 ⟨5, 0, 4, 0, 5, 0⟩ = true := by
  decide +kernel

theorem witness_ScheduleImages : demo.goes vf opLoad (firstStatus [failIf (decide (3 < 3)) 0x201, failIf (demo.slotBusy 0 3) 0x605,
      failIf (decide (2 ≤ ptrTag 0)) 0x401, demo.checkPtr 1 0 0 4096 false]) ∧ demo.untranslated vf [⟨0, 4096, false⟩] ∧
    demo.goes vf opRun (firstStatus [failIf (decide (3 < 0)) 0x201, (running 4 []).runStatus 0 0 (List.replicate 16 0)]) ∧
    (demo.setSlotImage 0 3 (some (imageWith 0 []))).goes vf 0x12 (firstStatus [failIf (decide (3 < 3)) 0x201, failIf (demo.slotBusy 0 3) 0x605,
      failIf ((demo.setSlotImage 0 3 (some (imageWith 0 []))).imageOf 0 3).isNone 0x60A]) ∧
    (demo.begun vf opLoad (.scheduleLoad vf 3 0 4096 []) [⟨0, 4096, false⟩]).sourceStatus 0 0 4096 = 0 ∧
    ({ demo with trust := { demo.trust with recovery := true } } : State).deaf vf = false := by
  unfold State.goes State.untranslated; decide +kernel
theorem witness_ScheduleImages_poison : ∀ s : State, s = { demo with mem := { demo.mem with hbmPoison := [([0], true)] } } →
    (s.begun vf opLoad (.scheduleLoad vf 3 0 4096 []) [⟨0, 4096, false⟩]).sourceStatus 0 0 4096 ≠ 0 := by
  intro s h; subst h; decide +kernel

/-- The head of core 0 is due; its tail is due; a stream has ended; the run has retired; an abort has drained. -/
def unstarted : State := { (running 0 []) with sched := { (running 0 []).sched with heads := [] } }
def tailing : State := (running 0 []).wr F.SCH_TICK_TICK 0 1000
def retired : State := (running 0 []).wr F.SCH_RETIRED_RUN_RET 0 0xFFF
def aborting : State := { demo with sched := { demo.sched with runs := [([0], ⟨some run0, none, false, [], some 0x607, true⟩)] } }
theorem witness_RunsStartAndEnd : unstarted.headDue 0 = some run0 ∧ unstarted.imageOn 0 run0 = some (imageWith 0 []) ∧ (unstarted.runsOf 0).cause = none ∧
    tget false unstarted.rel.badCores [unstarted.phys 0] = false ∧ unstarted.coreLive 0 = true ∧
    tget false (tset false unstarted.rel.badCores [unstarted.phys 0] true) [unstarted.phys 0] = true ∧ demo.headDue 127 = none ∧
    (tailing.runsOf 0).running = some run0 ∧ tailing.imageOn 0 run0 = some (imageWith 0 []) ∧ tailing.headOf 0 0 = some 0 ∧
    tget false tailing.sched.tails [0] = false ∧ 0 + (imageWith 0 []).tailStart ≤ tailing.tickOf 0 ∧ (tailing.runsOf 0).cause = none ∧
    tailing.sideOf 0 false = some run0 ∧ (tailing.setStream 0 0 4 ⟨0, [], none, true, 0⟩).headOf 0 0 ≠ none ∧
    ((tailing.setStream 0 0 4 ⟨0, [], none, true, 0⟩).streamOf 0 0 4).ended = true ∧
    ((tailing.setStream 0 0 4 ⟨0, [], none, true, 1⟩).streamOf 0 0 4).outst ≠ 0 ∧
    retired.retiredAll F.SCH_RETIRED_RUN_RET 0 (retired.maskOf 0 (some run0)) = true ∧
    (running 0 []).retiredAll F.SCH_RETIRED_RUN_RET 0 ((running 0 []).maskOf 0 (some run0)) = false ∧
    (aborting.runsOf 0).cause = some 0x607 ∧ aborting.rd F.HBM_GSTAT_TXN 0 = 0 ∧ (aborting.wr F.HBM_GSTAT_TXN 0 2048).rd F.HBM_GSTAT_TXN 0 ≠ 0 ∧
    aborting.net.lines.any (fun l => l.pdk == 0 && decide (l.src < 96)) = false ∧ (aborting.runsOf 0).armed = none ∧ (aborting.runsOf 0).waiting = [] := by
  decide +kernel
/-- An operation of the running image holds a drawer that the tail does not declare. -/
theorem witness_RunsStartAndEnd_breach :
    ([⟨0, 0, 0, 4, 0, 0, some 63, .append ⟨[], [], true, 0⟩, 0⟩] : List Op).any (fun o => o.core == 0 && o.side == 0 &&
      (!hasBit 0xFFF o.stream || (doneAction o.done == 1 && !hasBit 0 (doneCell o.done)) || o.drawer.any (fun d => !hasBit 1 d))) = true := by decide +kernel

def held1 : Held := ⟨0, 1, [0, 0, 0, 0]⟩
theorem witness_CurrentBudget : (demo.setHeld 0 [held1]).nextHeld 0 = some held1 ∧ ((demo.wr F.BUD_PCFG_UNTIMED_BU 0 1).setHeld 0 [held1]).ufits 0 1 = true ∧
    ((demo.wr F.BUD_PCFG_UNTIMED_BU 0 0).setHeld 0 [held1]).ufits 0 1 = false ∧ demo.nextHeld 0 = none ∧ demo.stretch 1 = none ∧
    (demo.setDroop 1 (some (0, 0))).stretch 1 = some (0, 0) ∧
    tget none ({ demo.setDroop 1 (some (0, 0)) with bud := { (demo.setDroop 1 (some (0, 0))).bud with clock := 5000 } } : State).bud.droop [1] ≠ none ∧
    ({ demo.setDroop 1 (some (0, 0)) with bud := { (demo.setDroop 1 (some (0, 0))).bud with clock := 5000 } } : State).stretch 1 = none := by decide +kernel

/-- Arrival writes of row 5 wait on core 0, one of them 256 clocks, admitted. -/
def arr (w : Nat) : Arrival := ⟨0, 0, 4, 5, List.replicate 512 7, false, none, w⟩
def arriving (w : Nat) : State :=
  let s := { demo with sched := { demo.sched with arrivals := [arr w] } }
  s.setAdmitted 0 [⟨srcStream 0 4, 1, [0, 0, 0, 5]⟩]
theorem witness_ShelfRowAccesses :
    (((arriving 0).arrivalHeads 0).filter (fun a => (arriving 0).idleBank 0 (bankOf a.row))).findIdx? (fun a => bankOf a.row == 5) = some 0 ∧
    (((arriving 0).arrivalHeads 0).filter (fun a => (arriving 0).idleBank 0 (bankOf a.row)))[0]? = some (arr 0) ∧
    tget false (arriving 0).sched.gated [0] = false ∧ (arriving 0).landedNow 0 + 0 < 4 ∧
    ((arriving 0).admittedOf 0).contains ⟨srcStream 0 4, 1, [0, 0, 0, 5]⟩ = true ∧
    ((arriving 256).arrivalHeads 0).find? (fun a => bankOf a.row == 5 && decide (256 ≤ a.waited)) = some (arr 256) ∧
    ((arriving 256).usedBanks 0).contains 5 = false ∧ (arriving 256).timedIn 0 5 = false := by decide +kernel
/-- The patrol of core 0, bank 31: its read is admitted; a write-back stands; the bank has been busy for 16,384 ticks; a gated core. -/
theorem witness_ShelfRowAccesses_patrol : demo.patrolOn 0 = true ∧ (demo.arrivalHeads 0).any (fun a => bankOf a.row == 31) = false ∧ demo.idleBank 0 31 = true ∧
    (demo.patrolOf 0 31).fix = none ∧ ((demo.setAdmitted 0 [⟨srcPatrol 0, 1, [1, 0, 31]⟩]).admittedOf 0).contains ⟨srcPatrol 0, 1, [1, 0, 31]⟩ = true ∧
    (demo.patrolRow 0 31 (demo.patrolOf 0 31).next).any (fun r => !demo.rowPoison 0 r) = true ∧
    ((demo.setPatrol 0 31 ⟨767, 0, 0, 0, some (31, []), 0⟩).patrolOf 0 31).fix ≠ none ∧
    16384 ≤ ((demo.setPatrol 0 31 ⟨767, 0, 0, 0, none, 16384⟩).patrolOf 0 31).idle ∧ (demo.usedBanks 0).contains 31 = false ∧ demo.timedIn 0 31 = false ∧
    tget false ({ demo with sched := { demo.sched with gated := [([0], true)] } } : State).sched.gated [0] = true := by decide +kernel

def tileWord : Nat := word opcTile 0
def tiling (out : Nat) : State := { demo with sched := { demo.sched with ops := [⟨0, 0, 0, 0, 0, 0, none, .tile ⟨word opcTile (out * 2 ^ 26), 0, 0, 7, [], []⟩, 0⟩] } }
theorem witness_MatrixTiles : (running 0 [tileWord]).issues opcTile (here 0) run0 [tileWord] := by unfold State.issues; dsimp only; decide +kernel
theorem witness_MatrixTiles_claim : ((tiling 0).claimDue 0).any (fun x => !(tPair x.2.word)) = true ∧ (tiling 0).coreLive 0 = true ∧ (tiling 0).trayFree 0 1 = true ∧
    ((tiling 0).wr F.DRW_TRAY_FILL 0 4).trayFree 0 1 = false ∧ demo.claimDue 127 = none := by decide +kernel

theorem witness_VectorPrograms : (running 1 [word opcElem 0, 0]).issues opcElem (here 1) run0 [word opcElem 0, 0] ∧
    (running 1 [word opcWsMode 1]).issues opcWsMode (here 1) run0 [word opcWsMode 1] ∧
    elemGroups (word opcElem 0) 0 (List.replicate 16 0) ≠ 0 ∧ elemGroups (word opcElem 0) (2 ^ 94) (List.replicate 16 0) = 0 := by
  unfold State.issues; dsimp only; decide +kernel
/-- Element programs of one group whose row, scale row or one-row output is due. -/
def elems (cfg rows : Nat) : State := { demo with sched := { demo.sched with ops := [⟨0, 0, 0, 1, 0, 0, none, .elem ⟨word opcElem 0, cfg, [], 0, 1, 1, [], [], [], [],
    [⟨List.replicate 512 1, List.replicate 512 2, [], [], false⟩], rows, 0, false⟩, 0⟩], shift := [([0], 100)] } }
theorem witness_VectorPrograms_rows : demo.coreLive 0 = true ∧ ((elems (2 ^ 110) 0).elemDue 0 Elem.rowTick).isSome = true ∧
    ((elems (2 ^ 105) 9).elemDue 0 Elem.rowTick).isNone = true ∧ ((elems (2 ^ 105) 9).elemDue 0 Elem.sclTick).isSome = true ∧
    ((elems (3 * 2 ^ 110) 0).elemDue 0 Elem.oneTick).any (fun x => x.2.rows != 1 && (x.2.outs[x.2.groups - 1]?).isSome) = true ∧
    ((elems (3 * 2 ^ 110 + 13 * 2 ^ 116) 1).elemDue 0 Elem.oneTick).any (fun x => x.2.rows == 1 && (x.2.outs[x.2.groups - 1]?).isSome) = true ∧
    (demo.elemDue 0 Elem.rowTick).isNone = true ∧ (demo.elemDue 0 Elem.sclTick).isNone = true ∧ (demo.elemDue 0 Elem.oneTick).isNone = true := by decide +kernel
theorem witness_VectorPrograms_rotary : demo.goes vf opRotary (firstStatus [failIf (decide (3 < 3)) 0x201, failIf (ptrTag 0 = 3) 0x401,
      demo.checkPtr 1 0 0 1024 false, failIf (demo.scheduleBusy 0) 0x330]) ∧ demo.untranslated vf [⟨0, 1024, false⟩] ∧
    (demo.begun vf opRotary (.rotaryTableLoad vf 3 0 []) [⟨0, 1024, false⟩]).sourceStatus 0 0 1024 = 0 ∧
    (∀ i < 128, fieldAt (List.replicate 1024 0) (8 * i + 6) 2 = 0) ∧ (∃ i < 128, fieldAt (List.replicate 1024 255) (8 * i + 6) 2 ≠ 0) := by
  unfold State.goes State.untranslated; decide +kernel

/-- A pass of core 0 in one block of 128 tokens, with what it has done so far. -/
def passDesc : List Byte := List.replicate 15 0 ++ [2] ++ leBytes 0 4 ++ leBytes 128 4 ++ List.replicate 8 0 ++ List.replicate 0x60 0
def passAt (x : Pass) : State := { demo with sched := { demo.sched with ops := [⟨0, 0, 0, 2, 0, 0, none, .pass x, 0⟩] } }
def pass1 : Pass := { pass0 0 0 with desc := passDesc, ctx := List.replicate 64 0, clk := 100, todo := [0] }
theorem witness_AttentionPasses : (running 2 [word opcPass (5 * 2 ^ 80)]).issues opcPass (here 2) run0 [word opcPass (5 * 2 ^ 80)] ∧
    (running 2 [word opcPass (0x8000 * 2 ^ 80)]).issues opcPass (here 2) run0 [word opcPass (0x8000 * 2 ^ 80)] := by unfold State.issues; dsimp only; decide +kernel
theorem witness_AttentionPasses_rows :
    (match (running 2 [word opcPass 0]).takeRows 0 (rowField (bitsAt (word opcPass (0x8000 * 2 ^ 80)) 80 16)) 1 with | .error k => k == 1 | .ok _ => false) = true ∧
    (match (running 2 [word opcPass 0]).takeRows 0 (rowField (bitsAt (word opcPass (5 * 2 ^ 80)) 80 16)) 1 with | .error _ => false | .ok x => x.2 == [5]) = true := by
  decide +kernel
theorem witness_AttentionPasses_fetch : ((passAt pass1).passOn 0).any (fun y => y.2 == pass1) = true ∧ pass1.todo = 0 :: [] ∧ pass1.maskedBlock 0 = false ∧
    pass1.blks.any (fun b => b.slot == pass1.fetched % aStages pass1.desc) = false ∧
    (∀ j < 128, pass1.tok0 0 + j < pass1.hi → pass1.tok0 0 + j < dLength pass1.ctx → eValid ((passAt pass1).passLeaf 0 pass1 (pass1.tok0 0 + j)) = true) ∧
    (passAt pass1).skipBlock 0 pass1 0 = false ∧ (∀ j < 128, (passAt pass1).tokDropped 0 pass1 (pass1.tok0 0 + j) = false) ∧
    pass1.desc ≠ [] ∧ aMode pass1.desc ≠ 3 ∧ pass1.ready = none ∧ 12 + (aQRows pass1.desc + 1) / 2 ≤ pass1.clk := by decide +kernel
def blk1 : PassBlk := newBlk 0 0 0 0
def pass2 : Pass := { pass1 with ready := some 100, todo := [], blks := [blk1] }
def pass3 : Pass := { pass2 with blks := [{ blk1 with qkAt := some 100 }] }
def pass4 : Pass := { pass3 with blks := [{ blk1 with qkAt := some 50, pAt := some 100 }] }
def pass5 : Pass := { pass2 with blks := [], lastClaim := 100 }
theorem witness_AttentionPasses_tiles : pass2.qkNext = some blk1 ∧ ((passAt pass2).passOn 0).any (fun y => (passAt pass2).passHolds y.1 y.2) = true ∧
    pass3.blks.find? (fun b => b.pAt.isNone && b.qkAt.any (fun t => decide (t ≤ pass3.clk))) = some { blk1 with qkAt := some 100 } ∧
    pass4.pvNext.isSome = true ∧ aMode pass4.desc ≠ 2 ∧ ({ pass4 with desc := 2 :: passDesc.drop 1 } : Pass).pvNext.isSome = true ∧
    aMode (2 :: passDesc.drop 1) = 2 := by decide +kernel
theorem witness_AttentionPasses_ends : pass5.desc ≠ [] ∧ pass5.scaled = none ∧ pass5.todo = [] ∧ pass5.blks = [] ∧ pass5.lastClaim ≤ pass5.clk ∧
    aMode pass5.desc ≠ 3 ∧ pass5.ready.any (fun t => decide (t ≤ pass5.clk)) = true ∧ ({ pass5 with scaled := some 0 } : Pass).scaled ≠ none ∧
    pass5.outs = [] ∧ pass5.landing = 0 ∧ pass5.lines = 0 ∧ (demo.passOn 127).isNone = true := by decide +kernel

def appends : State := { demo with sched := { demo.sched with ops := [⟨0, 0, 0, 8, 0, 0, none, .append ⟨[], [], true, 0⟩, 0⟩] } }
theorem witness_KvAppends : (running 8 [word opcAppend 0]).issues opcAppend (here 8) run0 [word opcAppend 0] := by unfold State.issues; dsimp only; decide +kernel
theorem witness_KvAppends_ends : (({ tiling 1 with sched := { (tiling 1).sched with shift := [([0], 8)] } } : State).handoffDue 0).isSome = true ∧
    (appends.sched.ops.find? (fun o => o.core == 0 && (match o.kind with
      | .append a => a.sent && a.left == 0
      | _ => false))).isSome = true := by decide +kernel
/-- Context 0 of paddock 0 is valid, of depth 1, one layer and one head; page 5 of the pool is free. -/
def demoC : State := { demo with mem := { demo.mem with hbm := [(0x5F0000000, 1), (0x5F0000007, 1), (0x5F0000011, 1), (0x5F0400004, 2), (0x5F0400005, 1)] } }
theorem demoC_wf : demoC.wf = true := by decide +kernel

/-- Each edit passes its checks in `demoC`, where nothing stands in front of it, and its effect fits limbo. -/
theorem witness_ContextEdits : demoC.editsOf 0 = [] ∧ demoC.moveOf 0 = none ∧
    demoC.goes vf 0x30 (firstStatus [demoC.quotaStatus vf 0, failIf (decide (2 < 2) || decide (6 < 6) || decide (8 < 6) || decide (1 = 0) ||
      decide (4 < 1) || decide (15 < 15) || decide (1 < 1) || decide (4096 < (0 + 1) * (0 + 1))) 0x240]) ∧
    demoC.goes vf 0x31 (demoC.quotaStatus vf 0) ∧ demoC.goes vf 0x32 (firstStatus [demoC.quotaStatus vf 0, failIf (decide (15 < 15) || decide (15 < 15) || decide (1 < 1)) 0x240]) ∧
    demoC.goes vf 0x34 (demoC.quotaStatus vf 0) ∧ demoC.goes vf 0x35 (failIf (1 == 0) 0x240) ∧ demoC.goes vf 0x36 (failIf (1 == 0) 0x240) ∧
    demoC.goes vf 0x37 (firstStatus [demoC.quotaStatus vf 0, failIf (decide (1 < 1)) 0x240]) ∧ demoC.goes vf 0x38 (demoC.quotaStatus vf 0) ∧
    demoC.goes vf 0x39 (demoC.quotaStatus vf 0) ∧ demoC.goes vf 0x3A (demoC.quotaStatus vf 0) ∧ demoC.goes vf 0x3B (demoC.quotaStatus vf 0) ∧ demoC.goes vf 0x3C 0 := by
  refine ⟨?_, ?_, ?_, ?_, ?_, ?_, ?_, ?_, ?_, ?_, ?_, ?_, ?_, ?_⟩ <;> (try unfold State.goes) <;> decide +kernel
def fits1 (op : Nat) (cmd : Instr) : Bool := (State.fitsLimbo 0 ((demoC.editing vf op cmd).doEdit cmd)).isSome
theorem witness_ContextEdits_limbo : fits1 0x30 (.ctxCreate vf 1 2 6 0 1 0 0 15 1 7) = true ∧ fits1 0x31 (.ctxDestroy vf 0) = true ∧
    fits1 0x32 (.ctxSet vf 0 15 15 1 0 7) = true ∧ fits1 0x34 (.ctxPlace vf 0 65535) = true ∧ fits1 0x35 (.kvPoolAdd vf 9 1) = true ∧
    fits1 0x36 (.kvPoolRemove vf 5 1) = true ∧ fits1 0x37 (.kvMap vf 0 0 0 1) = true ∧ fits1 0x38 (.kvUnmap vf 0 0 1) = true ∧
    fits1 0x39 (.kvDemote vf 0 0 1) = true ∧ fits1 0x3A (.kvPromote vf 0 0 1) = true ∧ fits1 0x3B (.kvDrop vf 0 0 1) = true ∧
    fits1 0x3C (.kvScatter vf) = true := by decide +kernel
/-- A context of poisoned memory, one that is not valid, and ranges that are empty or end past the capacity. -/
theorem witness_ContextEdits_errors :
    (({ demo with mem := { demo.mem with hbmPoison := [([0x5F0000000 / 64], true)] } } : State).useDesc 0 0).kvPoisoned 0 0 = true ∧
    (demo.useDesc 0 0).kvPoisoned 0 0 = false ∧ dValid ((demo.useDesc 0 0).desc 0 0) = false ∧ (demoC.useDesc 0 0).kvPoisoned 0 0 = false ∧
    dValid ((demoC.useDesc 0 0).desc 0 0) = true ∧ dCapacity ((demoC.useDesc 0 0).desc 0 0) < 2 ^ 31 ∧ 1 ≤ 1 ∧ poolLimit < poolLimit + 1 := by decide +kernel
theorem witness_ContextEdits_read : demoC.goes vf 0x33 (firstStatus [demoC.quotaStatus vf 0, failIf (ptrTag 64 = 3) 0x401,
      demoC.checkPtr 1 0 64 64 true]) ∧ demoC.untranslated vf [⟨64, 64, true⟩] ∧
    ((demoC.begun vf 0x33 (.ctxRead vf 0 64) [⟨64, 64, true⟩]).useDesc 0 0).resourceStatus 0 64 = 0 ∧
    ((demoC.begun vf 0x33 (.ctxRead vf 0 64) [⟨64, 64, true⟩]).useDesc 0 0).ptrPoison 0 (descAddr 0) 64 = false ∧
    (({ demoC with mem := { demoC.mem with hbmPoison := [([0x5F0000000 / 64], true)] } } : State).ptrPoison 0 (descAddr 0) 64 = true) ∧
    (demoC.wr F.HBM_CH_STAT_PWR 0 2).resourceStatus 0 64 ≠ 0 := by unfold State.goes State.untranslated; decide +kernel
theorem witness_ContextEdits_drained : ({ demo with kv := { demo.kv with places := [(vf, [3])] } } : State).kv.places.find? (fun x => x.1 == vf) = some (vf, [3]) ∧
    demo.kv.rows.any (fun r => [3].contains r.id) = false := by decide +kernel

/-- Paddock 0 moves token page 0 of context 0 from page 5 to far page 0. -/
def move1 (waits : List Nat) (copying : Bool) : Move := ⟨some vf, 0, 0, true, [0], [(0, 5, farId)], waits, copying, 0⟩
def moving (waits : List Nat) (copying : Bool) : State :=
  let s := (demoC.wr F.FAR_PSTATUS_STATE 0 1).wr F.FAR_PEXT_SIZE0 0 1
  { s with kv := { s.kv with moves := [move1 waits copying], rows := [⟨3, 0, 0, 0, 1, [], .msg ⟨0, 0, 0, 0, 0, 0, 0, 0, 0, 0, 0, 0, []⟩⟩] } }
theorem witness_PageMoves : demo.moveOf 15 = none ∧ (moving [] false).moveOf 0 = some (move1 [] false) ∧
    (moving [] false).kv.rows.any (fun r => (move1 [] false).waits.contains r.id) = false ∧
    (moving [3] false).kv.rows.any (fun r => (move1 [3] false).waits.contains r.id) = true ∧ (moving [] true).moveStatus 0 (move1 [] true) = 0 ∧
    ((moving [] true).wr F.FAR_PSTATUS_STATE 0 2).moveStatus 0 (move1 [] true) ≠ 0 ∧ demo.editsOf 15 = [] ∧ demo.rd F.CTX_CFG_DEMOTE_EN 0 = 0 := by decide +kernel
theorem witness_PageMoves_copied : (State.fitsLimbo 0 (((move1 [] true).pages.foldl (fun s x => s.copyPage 0 x.2.1 x.2.2) (moving [] true)).swapMoved (move1 [] true) 0)).isSome = true := by
  decide +kernel
def scarce (high : Nat) : State := ((demoC.wr F.CTX_CFG_DEMOTE_EN 0 1).wr F.CTX_CFG_LOW_WM 0 2).wr F.CTX_CFG_HIGH_WM 0 high
theorem witness_PageMoves_demote : (scarce 0).rd F.CTX_CFG_DEMOTE_EN 0 = 1 ∧ (scarce 0).rd F.CTX_POOL_FREE_PAGES 0 < (scarce 0).rd F.CTX_CFG_LOW_WM 0 ∧
    (scarce 0).moveOf 0 = none ∧ (scarce 0).editsOf 0 = [] ∧ (scarce 0).frozen 0 = false ∧
    (scarce 0).rd F.CTX_CFG_HIGH_WM 0 ≤ (scarce 0).rd F.CTX_POOL_FREE_PAGES 0 + (((scarce 0).limboOf 0).filter (fun x => x.kind == 0)).length ∧
    (scarce 9).rd F.CTX_POOL_FREE_PAGES 0 + (((scarce 9).limboOf 0).filter (fun x => x.kind == 0)).length < (scarce 9).rd F.CTX_CFG_HIGH_WM 0 := by decide +kernel

/-- A decode step of 1 sequence at the limits of its fields; one that waits for the assist; one that is sorted. -/
def step1 (sorted : Bool) : Step := ⟨vf, 0, List.replicate 16 0, 0, 1, 2, 0, 512, 1, sorted, [(0, 1, 0)], 0, tally0, 0, 0, 0⟩
def stepping (sorted : Bool) : State :=
  { demo with sched := { demo.sched with runs := [([0], ⟨none, none, false, [⟨vf, 0, 0, List.replicate 16 0, some stepMark, tally0⟩], none, true⟩)], steps := [step1 sorted] } }
theorem witness_DecodeSteps : 4095 < 4096 ∧ 3 ≤ 3 ∧ 15 ≤ 15 ∧ 512 % 512 = 0 ∧ ptrTag 512 = 0 ∧ 512 * (26 + (4095 + 1 + 31) / 32) ≤ 2 ^ 20 ∧ ptrTag 0 ≠ 3 ∧
    (demo.wr F.PDK_STATE_ROLE 0 1).goes vf opStep (firstStatus [demo.ptrStatus 1 0 0 (8 * (4095 + 1)) false, demo.ptrStatus 1 0 (2 ^ 20) (2 ^ 20) true, wholeStatus 0 64 false]) ∧
    demo.untranslated vf [⟨0, 8 * (4095 + 1), false⟩] := by unfold State.goes State.untranslated; decide +kernel
theorem witness_DecodeSteps_assist : (stepping false).assistDue 0 = some (step1 false) ∧ (stepping false).frozen 0 = false ∧
    (List.range 16).find? (fun k => ((stepping false).assistDue (((stepping false).kv.assist + k) % 16)).isSome) = some 0 ∧ demo.assistDue 15 = none ∧
    ((stepping true).sched.steps.find? (fun y => paddockOf y.h == 0 && y.sorted && nth ((stepping true).progOf y.h) 0 == 1 && y.running == 0)).isNone = true ∧
    (stepping true).stepDue 0 = some (step1 true) ∧ ((stepping true).runsOf 0).armed = none ∧ ((stepping true).runsOf 0).cause = none ∧
    demo.sched.steps = [] ∧ demo.stepDue 15 = none := by decide +kernel

/-- Tables: one defined in slot 255, retired; a lookup that gathers. -/
def demoT1 : State := demo.setTable 0 255 (tableBytes 4 0 0 0 0 1 0 0 0)
theorem witness_Tables : demo.goes vf opTableDefine (firstStatus [failIf (decide (255 < 255)) 0x250, demo.tableStatus vf 63 5 0 0 1 0 0]) ∧
    demo.findTaken vf = none ∧ vf.q.val ≠ 8 ∧ vf.fn.val = vfOf (paddockOf vf) ∧ demo.taken = [] ∧ demo.genHolders 0 255 1 = 0 ∧
    demoT1.goes vf opTableRetire (failIf (decide (255 < 255) || decide (255 < 4) || decide (1 < 1)) 0x201) ∧ tdValid (demoT1.tableOf 0 255) = true ∧
    tdGen (demoT1.tableOf 0 255) = 4 ∧ demoT1.genHolders 0 255 4 = 0 := by unfold State.goes; decide +kernel
theorem witness_Tables_read : demo.goes vf opTableRead (firstStatus [failIf (decide (255 < 255)) 0x201,
      demo.checkPtr 1 0 64 64 true, demo.resourceStatus 0 64]) ∧ demo.untranslated vf [⟨64, 64, true⟩] ∧ (demo.tableStep 15).isNone = true ∧
    ((demo.does vf opTableDefine (.tableDefine vf 255 0 0 0 0 1 0 0 0) []).tableStep 0).isSome = true := by unfold State.goes State.untranslated; decide +kernel
theorem witness_Tables_issue : (running 3 [word opcLookup 0]).issues opcLookup (here 3) run0 [word opcLookup 0] := by unfold State.issues; dsimp only; decide +kernel
theorem witness_Tables_lookup : ∀ u : State, u = (running 3 [word opcLookup 0]).issued (here 3) run0 [word opcLookup 0] →
    tdValid (u.tableOf 0 (lSlot (word opcLookup 0))) = false ∧
    tdValid ((u.setTable 0 0 (tableBytes 4 0 0 0 0 1 0 0 0)).tableOf 0 (lSlot (word opcLookup 0))) = true ∧
    (match u.takeRows 0 (rowField (lReq (word opcLookup 0))) (lReqRows (word opcLookup 0)) with
      | .error _ => false
      | .ok x => (match x.1.claimRows 0 (rowField (lDst (word opcLookup 0))) (lookupOut (word opcLookup 0) (tableBytes 4 0 0 0 0 1 0 0 0)) with
        | .error _ => false
        | .ok _ => true)) = true := by intro u h; subst h; decide +kernel

/-- Lines of paddock 0: an HBM read that waits, a host write that waits, a write and a read that have issued. -/
def line1 (write issued : Bool) (ptr : Nat) : Line := ⟨0, 0, 5, write, ptr, 64, List.replicate 64 9, false, none, if write then .outb 0 1 else .fetch 0 0 0, true, issued, 0, 0, 0, false⟩
def lined (l : Line) : State := { demo with net := { demo.net with lines := [l] } }
theorem witness_LineTransactions : demo.nextRequest 15 = none ∧ (lined (line1 false false 0)).nextRequest 0 = some (line1 false false 0) ∧
    (lined (line1 true false hostPtr)).nextRequest 0 = some (line1 true false hostPtr) ∧ ptrTag hostPtr = 1 ∧ ptrTag 0 = 0 ∧
    lineCap ≤ (demo.wr F.HBM_GSTAT_TXN 0 lineCap).rd F.HBM_GSTAT_TXN 0 ∧ (lined (line1 false false 0)).rd F.HBM_GSTAT_TXN 0 < lineCap ∧
    (lined (line1 false false 0)).channelDead (channelOf (dpaOf 0 0)) = false ∧
    ((lined (line1 true true 0)).issuedLines 0)[0]? = some (line1 true true 0) ∧ (line1 true true 0).canEnd = true ∧ (line1 false true 0).canEnd = true ∧
    ({ line1 true true 0 with ptr := 2 * 2 ^ 62 } : Line).canEnd = false := by decide +kernel

theorem witness_HbmChannels : ((lined (line1 true true 0)).issuedLines 0)[0]? = some (line1 true true 0) ∧ ptrTag (line1 true true 0).ptr = 0 ∧ (line1 true true 0).msg = none ∧
    (line1 true true 0).dead = 0 ∧ (line1 true true 0).tries < 4 ∧ 4 ≤ ({ line1 true true 0 with tries := 4 } : Line).tries ∧ demo.rd F.HBM_CH_STAT_PWR 255 ≠ 2 ∧
    demo.now % demo.calNs = 0 * demo.calNs / 256 ∧ demo.now % demo.calNs ≠ 255 * demo.calNs / 256 := by decide +kernel

/-- HBM_POWER of group 15: channels to power down, none to power up; one draining and one that trains. -/
def hbmUp : State := demoW.wr F.HBM_CH_STAT_PWR 255 0
def powering (down : Nat) : State := demo.does pf opHbmPower (.hbmPower pf 15 2 1) [0, 1, down, 15]
theorem witness_HbmPowerAndMargin : demo.orderBusy pf = false ∧ (List.range 16).any (fun c => hasBit 65535 c && demo.underTest 2 (16 * 15 + c)) = false ∧
    demo.goes pf opHbmPower (firstStatus [failIf (decide (15 < 15) || 65535 == 0 || decide (65535 < 65535) || !(2 == 0 || 2 == 2)) 0x280,
      failIf (2 == 2 && demo.tenantUse 15) 0x390]) ∧ hbmUp.channelsIn 15 65535 0 ≠ [] ∧ hbmUp.channelsIn 15 65535 2 = [] ∧
    demo.callStatus pf opHbmPower = 0 ∧ (demo.wr F.CLK_STAT_RELOCKING 0 1).orderBusy pf = true ∧ (powering 0).powerProg pf false = some [0, 1, 0, 15] ∧
    (powering 1).powerProg pf true = some [0, 1, 1, 15] ∧ (powering 0).writesTo 15 1 = false ∧ (powering 0).now < nth [0, 1, 0, 15] 0 + 100000 ∧
    nth [0, 1, 0, 15] 0 + 100000 ≤ (late (powering 0)).now := by unfold State.goes; decide +kernel
theorem witness_HbmPowerAndMargin_margin : hbmUp.goes pf opHbmMargin (firstStatus [failIf (decide (255 < 255) || decide (4 < 4) || decide (2 < 2) || decide (signedAt 0 16 < signedAt 0 16) ||
        decide (signedAt 0 16 < -(marginRange 4 : Int)) || decide ((marginRange 4 : Int) < signedAt 0 16) || 1 == 0 || decide (65536 < 1) || hostPtr % 16 != 0) 0x280,
      failIf (ptrTag hostPtr != 1) 0x401, failIf (hbmUp.tenantUse (255 / 16)) 0x390, failIf (hbmUp.rd F.HBM_CH_STAT_PWR 255 != 0) 0x312,
      hbmUp.ptrStatus 0 0 hostPtr (16 * (signedAt 0 16 - signedAt 0 16 + 1).toNat) true]) ∧
    hbmUp.untranslated pf [⟨hostPtr, 16 * (signedAt 0 16 - signedAt 0 16 + 1).toNat, true⟩] ∧
    (hbmUp.does pf opHbmMargin (.hbmMargin pf 255 4 2 0 0 1 hostPtr) []).runningCmd pf = some (.hbmMargin pf 255 4 2 0 0 1 hostPtr) := by
  unfold State.goes State.untranslated; decide +kernel

/-- The group of paddock 3, in HANDOVER: a queued line, a marked line, a rotation under way and at its end. -/
def mowing : State := { demo with msys := { demo.msys with demand := [([3], [(7, false)])] } }
def patching : State := { demo with msys := { demo.msys with marked := [([3, 7], true)] } }
def rotating (p : Nat) : State := (demo.wr F.MOW_STAT_ROTATING 3 1).wr F.MOW_STAT_P 3 p
theorem mowLine_handover (s : State) (w : Nat) (tag : List Nat) (h : ¬ (s.role 3 = 2 ∧ s.tenantUse 3 = true)) (h2 : s.pdkState 3 = pdkHandover) :
    ∃ u : State, ∀ go, s.mowLine 3 w tag go = go u :=
  ⟨s, fun go => by unfold State.mowLine; rw [if_neg h, if_pos h2]⟩
theorem witness_TheMower : tget [] mowing.msys.demand [3] = (7, false) :: [] ∧ mowing.mowZeroing 3 = false ∧ mowing.mowCopying 3 = false ∧
    (demo.wr F.MOW_CFG_SCRUB_INTERVAL 3 1).rd F.MOW_CFG_SCRUB_INTERVAL 3 ≠ 0 ∧ demo.mowZeroing 3 = false ∧ demo.mowCopying 3 = false ∧
    demo.mowDemanded 3 = false ∧ demo.mowRotating 3 = false ∧
    (patching.msys.marked.find? (fun e => e.1.head? == some 3)).bind (fun e => e.1[1]?) = some 7 ∧ patching.mowZeroing 3 = false ∧
    (List.range 16).find? (fun k => patching.patchFree (channelOf (3 * groupBytes + 512 * 7)) k) = some 0 ∧ (rotating 0).mowRotating 3 = true ∧
    (rotating 0).rd F.MOW_STAT_P 3 < groupLines ∧ (rotating groupLines).rd F.MOW_STAT_P 3 = groupLines ∧ (rotating groupLines).rd F.MOW_STAT_ACTIVE_SLOT 3 < 2 := by
  decide +kernel
theorem witness_TheMower_line : (∃ u : State, ∀ go, mowing.mowLine 3 40 [0, 3, 7] go = go u) ∧
    (∃ u : State, ∀ go, (demo.wr F.MOW_CFG_SCRUB_INTERVAL 3 1).mowLine 3 640 [1, 3, 0] go = go u) ∧
    (∃ u : State, ∀ go, (patching.mowActivity 3 mowCopy).mowLine 3 80 [2, 3, 7] go = go u) ∧
    (∃ u : State, ∀ go, (rotating 0).mowLine 3 80 [3, 3, 0] go = go u) :=
  ⟨mowLine_handover _ _ _ (by decide +kernel) (by decide +kernel), mowLine_handover _ _ _ (by decide +kernel) (by decide +kernel),
    mowLine_handover _ _ _ (by decide +kernel) (by decide +kernel), mowLine_handover _ _ _ (by decide +kernel) (by decide +kernel)⟩
theorem witness_TheMower_commands : demo.goes vf opKeyRotate (firstStatus [failIf (vf.fn.val == 0 && demo.tdiLocked 0) 0x720,
      failIf (demo.pdkState 0 = pdkFree || demo.pdkState 0 = pdkHandover || demo.pdkState 0 = pdkOffline) 0x711, failIf (demo.mowRotating 0) 0x710]) ∧
    hbmUp.goes pf opMemRawWrite (rawStatus hbmUp 255 63 7) ∧
    hbmUp.goes pf opMemRawRead (firstStatus [rawStatus hbmUp 255 63 7, failIf (hostPtr % 16 != 0) 0x291, failIf (ptrTag hostPtr != 1) 0x401,
      hbmUp.ptrStatus 0 0 hostPtr 144 true]) ∧ hbmUp.untranslated pf [⟨hostPtr, 144, true⟩] := by unfold State.goes State.untranslated; decide +kernel

/-- Far port 0 is up; paddock 0, whose slots are 0, 16, 32 and 48, waits to write. -/
def farUp : State := (demo.wr F.FAR_PSTATUS_STATE 0 1).wr F.FAR_PEXT_SIZE0 0 1
def farLine : State := { farUp with net := { farUp.net with lines := [{ line1 true true (2 * 2 ^ 62) with len := 64 }] } }
theorem witness_FarPorts : farLine.rd F.FAR_PSTATUS_STATE 0 = 1 ∧ (farLine.farCandidate 0 (nth (farLine.farInForce 0).1 48) true).isSome = true ∧
    (farLine.farCandidate 0 (nth (farLine.farInForce 0).1 63) true).isNone = true ∧ (farLine.farInForce 0).2 = false ∧
    ((farLine.wr F.FAR_PSTATUS_STRICT 0 1).farInForce 0).2 = true ∧
    ((List.range 16).findSome? (fun k => farLine.farCandidate 0 ((tget 0 farLine.msys.farLast [0, b2n true] + k) % 16) true)).isSome = true ∧
    demo.rd F.FAR_PSTATUS_STATE 1 ≠ 1 ∧ (demo.wr F.FAR_PSTATUS_STATE 1 2).rd F.FAR_PSTATUS_STATE 1 = 2 := by decide +kernel
/-- Pod port 0 in a state, its other side as given. -/
def port (st : Nat) (x : Port) : State := (demo.wr F.PLK_STATE_STATE 0 st).setPort 0 x
def active : State := port 3 port0
theorem witness_LinkFlits : demo.flitsOn 11 = false ∧ active.flitsOn 0 = true ∧ (active.portOf 0).slot < 64 ∧
    (∀ x, x = { port0 with slot := 63, flits := 1 } → (port 3 x).flitsOn 0 = true ∧ x.slot ≠ 0 ∧ x.resume = false ∧ x.flits % 16384 ≠ 0 ∧ x.replay = [] ∧
      ((port 3 x).setPort 0 { x with slot := (x.slot + 1) % 64, flits := x.flits + 1 }).pickFlit 0 x.slot = none) ∧
    active.portState 0 ≠ portIdleCode ∧ (active.portOf 0).nak = false ∧
    active.rd F.PLK_STATE_ENCRYPTED 0 = 0 ∧
    ((port 3 { port0 with nak := true, nakWait := 4096 }).portOf 0).nak = true ∧ 4096 ≤ ((port 3 { port0 with nak := true, nakWait := 4096 }).portOf 0).nakWait := by
  refine ⟨by decide +kernel, by decide +kernel, by decide +kernel, ?_, by decide +kernel⟩
  intro x h; subst h; decide +kernel

/-- The CRC of `n` more zero bytes (R521), taken 31 at a time. -/
def crcOf (n c : Nat) : Nat := (List.replicate n (0 : Byte)).foldl (fun c b => crc64Bits 8 (Nat.xor c (b.toNat * 2 ^ 56))) c
theorem crcOf_add (n m c : Nat) : crcOf (n + m) c = crcOf m (crcOf n c) := by unfold crcOf; rw [List.replicate_add, List.foldl_append]
theorem crcOf_0 : crcOf 31 18446744073709551615 = 15879310073284827200 := by decide +kernel
theorem crcOf_1 : crcOf 31 15879310073284827200 = 14586728332071357 := by decide +kernel
theorem crcOf_2 : crcOf 31 14586728332071357 = 15338492763406043521 := by decide +kernel
theorem crcOf_3 : crcOf 31 15338492763406043521 = 7456572121818650051 := by decide +kernel
theorem crcOf_4 : crcOf 31 7456572121818650051 = 17890675410050617274 := by decide +kernel
theorem crcOf_5 : crcOf 31 17890675410050617274 = 13241838303391363258 := by decide +kernel
theorem crcOf_6 : crcOf 31 13241838303391363258 = 10157181346633911210 := by decide +kernel
theorem crcOf_7 : crcOf 31 10157181346633911210 = 3088559427994792658 := by decide +kernel
theorem crc_idle : crc64 (leBytes 0 8 ++ flitPad []) = 3088559427994792658 := by
  have h : crc64 (leBytes 0 8 ++ flitPad []) = crcOf (31 + (31 + (31 + (31 + (31 + (31 + (31 + 31))))))) 18446744073709551615 := by
    have e : leBytes 0 8 ++ flitPad [] = List.replicate (31 + (31 + (31 + (31 + (31 + (31 + (31 + 31))))))) 0 := by decide +kernel
    rw [e]
    unfold crc64 crcOf
    norm_num
  rw [h, crcOf_add, crcOf_0, crcOf_add, crcOf_1, crcOf_add, crcOf_2, crcOf_add, crcOf_3, crcOf_add, crcOf_4, crcOf_add, crcOf_5, crcOf_add, crcOf_6, crcOf_7]
theorem witness_LinkFlits_check : active.checkPasses 0 0 [] (3088559427994792658 : Word64).toNat = true := by
  unfold State.checkPasses
  rw [if_pos (by decide +kernel)]
  have h : (3088559427994792658 : Word64).toNat = 3088559427994792658 := by decide +kernel
  rw [h, crc_idle]
  decide

/-- A port of nine good lanes, lane 8 the spare. -/
def laned (st : Nat) : State := (List.range 9).foldl (fun s i => (s.wr F.PLK_LANE_LOGICAL 0 (if i = 8 then 15 else i) i).wr F.PLK_LANE_SPARE 0 (b2n (i == 8)) i) (port st { port0 with since := 0 })
theorem witness_LinkLanesAndDown : ((laned 3).wr F.PLK_LANE_FAILED 0 1 0).laneFailed 0 0 = true ∧ (laned 3).laneFailed 0 0 = false ∧ (laned 2).portState 0 = portSecuring ∧
    (laned 2).logicalOf 0 8 = noLane ∧ (laned 2).activeLanes 0 ≠ [] ∧ (laned 3).portState 0 = portActiveCode ∧ (laned 3).logicalOf 0 7 < noLane ∧
    (laned 3).spareOf 0 = some 8 ∧ (laned 3).logicalOf 0 8 = noLane ∧ (∀ i ∈ (laned 3).activeLanes 0, hasBit 0x1FF i = true) ∧
    demo.portState 11 ≠ portActiveCode ∧ demo.portState 11 ≠ portRetraining ∧ (laned 4).portState 0 = portRetraining ∧
    (laned 4).now ≤ ((laned 4).portOf 0).since + 2000 ∧ ((laned 4).portOf 0).since + nth [200, 1500, 2000] 2 < (late (laned 4)).now ∧
    ((laned 3).portOf 0).goodAt + 10000 ≤ (late (laned 3)).now ∧ (laned 3).now < ((laned 3).portOf 0).goodAt + 10000 ∧
    [2, 3, 4, 5].find? (fun r => [5, 4].contains r) = some 4 ∧ (laned 3).portState 0 ≠ portDown ∧ (laned 3).portState 0 ≠ portFailed := by decide +kernel

/-- Training in each of its steps, in time, with good lanes; late; with two tries behind it. -/
def training (step : Nat) : State := port (if step = 5 then 2 else 1) { port0 with step := step, tries := 1 }
theorem witness_LinkTraining : (∀ step ∈ [1, 2, 3, 4, 5], ((training step).portState 0 = portTraining ∨ (training step).portState 0 = portSecuring) ∧
      ((training step).portOf 0).step ≠ 0 ∧ 0 ≤ (training step).now ∧ (training step).now ≤ 0 + stepDeadline ((training step).portOf 0).step ∧
      (∃ i < 9, (training step).laneFailed 0 i = false) ∧ ((training step).portOf 0).since + stepDeadline step < (late (training step)).now ∧
      ((training step).portOf 0).tries < 2) ∧
    (∀ i < 9, ((List.range 9).foldl (fun s i => s.wr F.PLK_LANE_FAILED 0 1 i) (training 1)).laneFailed 0 i = true) ∧
    ((training 4).wr F.PLK_STATE_PEER_VALID 0 1).rd F.PLK_STATE_PEER_VALID 0 = 1 ∧
    (((training 4).wr F.PLK_STATE_PEER_VALID 0 1).wr F.PLK_CFG_ENCRYPT_REQUIRED 0 1).rd F.PLK_CFG_ENCRYPT_REQUIRED 0 = 1 ∧
    ((training 4).wr F.PLK_CFG_ENCRYPT_REQUIRED 0 0).rd F.PLK_CFG_ENCRYPT_REQUIRED 0 ≠ 1 ∧ ((training 4).portOf 0).peerEncrypt = false ∧ 2 ≤ ({ port0 with tries := 2 } : Port).tries := by decide +kernel
def msg (kind : Nat) (data : List Byte) : Msg := ⟨kind, 0, 1, 0, 0, 0, 0, 0, 0, 0, 0, 0, data⟩
theorem witness_LinkTraining_messages : (active.takeVl7 0 (msg 0x40 []) 0x40).isSome = true ∧ (active.takeVl7 0 (msg 0x41 []) 0x41).isSome = true := by decide +kernel

theorem witness_LinkKeysAndTime : (∀ k ∈ [0x42, 0x43, 0x44], (active.takeVl7 0 (msg k [1]) k).isSome = true) ∧
    ((active.takeVl7 0 (msg 0x43 [1]) 0x43).any (fun u => u.portState 0 == portActiveCode)) = true ∧
    (((training 5).takeVl7 0 (msg 0x43 [1]) 0x43).any (fun u => u.portState 0 != portActiveCode)) = true ∧ hasBit (fieldAt ([1] : List Byte) 0 1) 0 = true ∧
    hasBit (fieldAt ([2] : List Byte) 0 1) 0 = false ∧ hasBit (fieldAt ([2] : List Byte) 0 1) 1 = true ∧
    (((port 3 { port0 with idle := 1 }).takeVl7 0 (msg 0x43 [2]) 0x43).any (fun u => (u.portOf 0).idle == 1)) = true ∧
    ((active.takeVl7 0 (msg 0x44 [1]) 0x44).any (fun u => u.rd F.PLK_STATE_ENCRYPTED 0 == 0)) = true ∧
    (((active.wr F.PLK_STATE_ENCRYPTED 0 1).takeVl7 0 (msg 0x44 [1]) 0x44).any (fun u => u.rd F.PLK_STATE_ENCRYPTED 0 == 1 &&
      fieldAt ([1] : List Byte) 0 1 % 2 != u.rd F.PLK_STATE_KEY_TX 0)) = true ∧ active.portActive 0 = true ∧ demo.portActive 11 = false ∧
    (active.wr F.PLK_STATE_ENCRYPTED 0 1).rd F.PLK_STATE_ENCRYPTED 0 = 1 ∧ 2 ^ 39 ≤ ({ port0 with txFlits := 2 ^ 39 } : Port).txFlits ∧
    (active.portOf 0).txFlits < 2 ^ 39 ∧ (active.portOf 0).rxFlits < 2 ^ 39 := by decide +kernel
/-- The module follows the timebase of port 0, or nothing. -/
def follows : State := (active.wr F.PLK_TIME_UPSTREAM 0 0).wr F.PLK_TIME_BACKUP 0 15
theorem witness_LinkKeysAndTime_time : (follows.setPort 0 { port0 with peerLocked := true }).followed = some 0 ∧ ((follows.wr F.PLK_TIME_MASTER 0 1).setPort 0 port0).followed ≠ some 0 ∧
    fieldAt (List.replicate 30 (1 : Byte)) 14 8 ≠ 0 ∧ fieldAt (List.replicate 30 (0 : Byte)) 14 8 = 0 ∧
    (demo.wr F.PLK_TIME_MASTER 0 1).rd F.PLK_TIME_MASTER 0 = 1 ∧
    (∀ s : State, s = (((demo.wr F.PLK_TIME_MASTER 0 0).wr F.PLK_TIME_LOCKED 0 1).wr F.PLK_TIME_UPSTREAM 0 15).wr F.PLK_TIME_BACKUP 0 15 →
      s.rd F.PLK_TIME_MASTER 0 = 0 ∧ s.rd F.PLK_TIME_LOCKED 0 = 1 ∧ 12 ≤ s.rd F.PLK_TIME_UPSTREAM 0 ∧ 12 ≤ s.rd F.PLK_TIME_BACKUP 0) := by
  refine ⟨by decide +kernel, by decide +kernel, by decide +kernel, by decide +kernel, by decide +kernel, ?_⟩
  intro s h; subst h; decide +kernel

theorem witness_PortControl : demo.portGoes pf 11 false ((demo.portState 11 != portDown && demo.portState 11 != portFailed) || demo.rd F.RTP_DEV_KILLED 0 == 1) ∧
    active.portGoes pf 0 false (active.portState 0 == portDown) ∧
    ((List.range 64).foldl (fun s k => s.wr F.PLK_TDM_SLOT 0 31 k) active).portGoes pf 0 false (active.portState 0 != portActiveCode ||
      (List.range 64).any (fun k => decide (((List.range 64).foldl (fun s k => s.wr F.PLK_TDM_SLOT 0 31 k) active).slotOwner 0 k < 16))) ∧
    (active.wr F.PLK_STATE_ENCRYPTED 0 1).portGoes pf 0 false (active.portState 0 != portActiveCode || (active.wr F.PLK_STATE_ENCRYPTED 0 1).rd F.PLK_STATE_ENCRYPTED 0 == 0) ∧
    active.portGoes pf 0 (decide (8 < 8)) (active.portState 0 != portActiveCode) ∧ demo.portGoes pf 11 (decide (1 < 1)) false ∧
    (port 5 port0).portGoes pf 0 false ((port 5 port0).portState 0 != portIdleCode) ∧ demo.goes pf opPortControl 0 := by
  refine ⟨?_, ?_, ?_, ?_, ?_, ?_, ?_, ?_⟩ <;> (try unfold State.portGoes) <;> unfold State.goes <;> decide +kernel
theorem witness_PortControl_slots : hasBit 7 1 = true ∧ hasBit 7 2 = true ∧ 7 ≤ 7 ∧ 11 ≤ 11 ∧ 3000 ≤ 4032 ∧ (16 :: 16 :: List.replicate 62 31).length = 64 ∧
    (List.replicate 80 1).length = 80 ∧ (∀ c ∈ List.replicate 80 1, c ≤ 255) ∧ (∀ o ∈ 16 :: 16 :: List.replicate 62 31, o ≤ 16 ∨ o = 31) ∧
    2 ≤ ((16 :: 16 :: List.replicate 62 31).filter (· == 16)).length ∧ 64 + 3000 + 8 * (List.replicate 80 1).foldl (· + ·) 0 ≤ 4096 ∧
    demo.portReserves 11 ≤ 3000 ∧ demo.flitsOn 11 = false ∧ active.flitsOn 0 = true := by decide +kernel
theorem witness_PortControl_goes : demo.goes pf opTdmWrite 0 := by unfold State.goes; decide +kernel
/-- Port 0 ACTIVE with its spare, in host window 1. -/
def margined : State := (laned 3).setWindow 0 1 ⟨true, true, true, false, false, 0, 0, 0x1000000⟩
theorem witness_PortControl_margin : margined.goes pf opLinkMargin
      (firstStatus [failIf (decide (11 < 0) || decide (8 < 8) || decide (1 < 1) || decide (40 < 20) || decide (40 < 40) ||
          decide (signedAt 0 16 < signedAt 0 16) || decide (signedAt 0 16 < -linkMarginRange 1) || decide (linkMarginRange 1 < signedAt 0 16) || hostPtr % 16 != 0) 0x803,
        failIf (ptrTag hostPtr != 1) 0x401,
        failIf (!((margined.portState 0 == portActiveCode && margined.spareOf 0 == some 8) || (margined.portState 0 == portIdleCode && !margined.laneFailed 0 8))) 0x390,
        margined.ptrStatus 0 0 hostPtr (16 * (signedAt 0 16 - signedAt 0 16 + 1).toNat) true]) ∧
    margined.untranslated pf [⟨hostPtr, 16 * (signedAt 0 16 - signedAt 0 16 + 1).toNat, true⟩] ∧
    (margined.does pf opLinkMargin (.linkMargin pf 0 8 1 40 0 0 hostPtr) []).runningCmd pf = some (.linkMargin pf 0 8 1 40 0 0 hostPtr) := by
  unfold State.goes State.untranslated; decide +kernel

/-- Core 0 issues a mover instruction; row 9 holds its pointer; rank 0 of paddock 0 is the paddock itself; host window 1 is pinned. -/
def mover (op : Nat) (st : Fin 12) (ptr : Nat) (poison : Bool) : State :=
  let s := running st.val [word op (9 * 2 ^ 53)]
  let s := ((s.wr F.RTE_RANK_VALID 0 1 0).wr F.RTE_RANK_DEV 0 0 0).setWindow 1 1 ⟨true, true, true, true, false, 0, 0, 0x1000000⟩
  s.setRow 0 9 (leBytes ptr 8) poison
def mword (op : Nat) : List Nat := [word op (9 * 2 ^ 53)]
def moved (op : Nat) (st : Fin 12) (ptr : Nat) (poison : Bool) : State := (mover op st ptr poison).issued (here st) run0 (mword op)
def mctx (op : Nat) (st : Fin 12) (ptr : Nat) : Ctx := (mover op st ptr false).ctxOf (here st) run0 (mword op)
def isOk {α β : Type} (x : Except α β) : Bool := match x with | .ok _ => true | .error _ => false
theorem witness_MoverInstructions :
    (∀ b, b = false ∨ b = true → (mover opcFetch 4 0 b).issues opcFetch (here 4) run0 (mword opcFetch) ∧
      (mover opcPageFetch 4 0 b).issues opcPageFetch (here 4) run0 (mword opcPageFetch) ∧ (mover opcRecv 4 1 b).issues opcRecv (here 4) run0 (mword opcRecv) ∧
      (mover opcPush 8 1 b).issues opcPush (here 8) run0 (mword opcPush) ∧ (mover opcWrite 8 0 b).issues opcWrite (here 8) run0 (mword opcWrite)) := by
  intro b h
  refine ⟨?_, ?_, ?_, ?_, ?_⟩ <;> (unfold State.issues; dsimp only; rcases h with h | h <;> subst h <;> decide +kernel)
theorem witness_MoverInstructions_poison : (moved opcFetch 4 0 true).rowPoison 0 (mPtrRow (nth (mword opcFetch) 0)) = true := by decide +kernel
/-- FETCH with a pointer to local memory, past its end, and to rank 0; WRITE likewise and with a misaligned pointer. -/
theorem witness_MoverInstructions_pointers :
    (moved opcFetch 4 0 false).moverPtr (mctx opcFetch 4 0) = some 0 ∧ (moved opcFetch 4 0 false).checkRunPtr 0 0 512 false = 0 ∧ ptrTag 0 ≠ 3 ∧
    isOk ((moved opcFetch 4 0 false).claimRows 0 (rowField (mRows (nth (mword opcFetch) 0))) 1) = true ∧
    (moved opcFetch 4 localEnd false).moverPtr (mctx opcFetch 4 localEnd) = some localEnd ∧ (moved opcFetch 4 localEnd false).checkRunPtr 0 localEnd 512 false ≠ 0 ∧
    (moved opcFetch 4 (3 * 2 ^ 62) false).moverPtr (mctx opcFetch 4 (3 * 2 ^ 62)) = some (3 * 2 ^ 62) ∧
    (moved opcFetch 4 (3 * 2 ^ 62) false).checkRunPtr 0 (3 * 2 ^ 62) 512 false = 0 ∧ ptrTag (3 * 2 ^ 62) = 3 ∧
    isOk ((moved opcFetch 4 (3 * 2 ^ 62) false).rankDest 0 (ptrRank (3 * 2 ^ 62)) 0 true) = true ∧
    ptrTag (3 * 2 ^ 62 + 2 ^ 56) = 3 ∧ isOk ((moved opcFetch 4 (3 * 2 ^ 62 + 2 ^ 56) false).rankDest 0 (ptrRank (3 * 2 ^ 62 + 2 ^ 56)) 0 true) = false ∧
    (moved opcWrite 8 7 false).moverPtr (mctx opcWrite 8 7) = some 7 ∧ (moved opcWrite 8 7 false).checkRunPtr 0 7 512 true ≠ 0 ∧ (moved opcWrite 8 64 false).moverPtr (mctx opcWrite 8 64) = some 64 ∧
    (moved opcWrite 8 64 false).checkRunPtr 0 64 512 true = 0 ∧
    isOk ((moved opcWrite 8 (3 * 2 ^ 62) false).rankDest 0 (ptrRank (3 * 2 ^ 62)) 0 false) = true := by decide +kernel
theorem witness_MoverInstructions_ranks :
    (moved opcPageFetch 4 0 false).moverPtr { mctx opcPageFetch 4 0 with j := 0 } = some 0 ∧ isOk ((moved opcPageFetch 4 0 false).rankDest 0 (bitsAt 0 58 6) 0 true) = true ∧
    isOk ((moved opcPageFetch 4 (2 ^ 58) false).rankDest 0 (bitsAt (2 ^ 58) 58 6) 0 true) = false ∧
    isOk ((moved opcPageFetch 4 0 false).claimRows 0 (rowField (mRows (nth (mword opcPageFetch) 0))) 64) = true ∧
    (moved opcPush 8 1 false).moverPtr { mctx opcPush 8 1 with j := 0 } = some 1 ∧ isOk ((moved opcPush 8 1 false).rankDests 0 0 false (ranksOf 1)) = true ∧
    isOk ((moved opcPush 8 2 false).rankDests 0 0 false (ranksOf 2)) = false ∧ (moved opcRecv 4 1 false).moverPtr { mctx opcRecv 4 1 with j := 0 } = some 1 ∧
    (ranksOf 2).any (fun r => (moved opcRecv 4 2 false).rd F.RTE_RANK_VALID 0 r == 0) = true ∧
    (ranksOf 1).any (fun r => (moved opcRecv 4 1 false).rd F.RTE_RANK_VALID 0 r == 0) = false ∧
    (ranksOf 0).any (fun r => (moved opcRecv 4 0 false).rd F.RTE_RANK_VALID 0 r == 0) = false ∧ popBits 0 64 = 0 ∧
    ¬ (popBits 1 64 = 0 ∨ (mMode (nth (mword opcRecv) 0) ≠ 2 ∧ popBits 1 64 ≠ 1) ∨ (mMode (nth (mword opcRecv) 0) = 2 ∧ 512 < 1 * popBits 1 64)) ∧
    isOk ((moved opcRecv 4 1 false).claimRows 0 (rowField (mRows (nth (mword opcRecv) 0))) 1) = true := by decide +kernel

/-- A message of paddock 2 to paddock 0 on this die, whose rank 0 it is; in `stray` no rank is. -/
def dmsg (kind target xid : Nat) (data : List Byte) : Msg := ⟨kind, 0, 0, 0, 2, 0, 0, xid, 0, 0, target, 0, data⟩
def ranked (m : Msg) : State :=
  let s := ((demo.wr F.RTE_RANK_VALID 0 1 0).wr F.RTE_RANK_DEV 0 0 0).wr F.RTE_RANK_PADDOCK 0 2 0
  { s with net := { s.net with die := [m] } }
def stray (m : Msg) : State := { demo with net := { demo.net with die := [m] } }
/-- Taken and admitted as of rank 0. -/
def admitted (s : State) (m : Msg) (kind : Nat) : Bool :=
  (s.takeMsg none m kind).any (fun t => (match t.admitRank m with | .ok r => r == 0 | .error _ => false) && !t.dumped m)
theorem admits_of {s : State} {m : Msg} {kind : Nat} (h : admitted s m kind = true) : ∃ t, s.admits none m kind 0 t := by
  unfold admitted at h
  cases ht : s.takeMsg none m kind with
  | none => simp [ht] at h
  | some t =>
    simp only [ht, Option.any_some, Bool.and_eq_true, Bool.not_eq_true'] at h
    refine ⟨t, ht, ?_, h.2⟩
    cases hr : t.admitRank m with
    | error e => simp [hr] at h
    | ok r => simp [hr] at h; simp [h.1]
theorem witness_PaddockMessages : (∃ t, (ranked (dmsg 1 64 0 (List.replicate 64 0))).admits none (dmsg 1 64 0 (List.replicate 64 0)) 1 0 t) ∧
    (∃ t, (ranked (dmsg 2 0 0 [])).admits none (dmsg 2 0 0 []) 2 0 t) ∧ (∃ t, (ranked (dmsg 3 0 0 [])).admits none (dmsg 3 0 0 []) 3 0 t) ∧
    (∃ t, (ranked (dmsg 4 0 0 [])).admits none (dmsg 4 0 0 []) 4 0 t) ∧ (∃ t, (ranked (dmsg 5 0 0 [])).admits none (dmsg 5 0 0 []) 5 0 t) ∧
    (∃ t, (ranked (dmsg 6 0 0 [])).admits none (dmsg 6 0 0 []) 6 0 t) ∧ (∃ t, (ranked (dmsg 7 0 0 [])).admits none (dmsg 7 0 0 []) 7 0 t) ∧
    (∃ t, (ranked (dmsg 0x10 0 0 [])).admits none (dmsg 0x10 0 0 []) 0x10 0 t) := by
  refine ⟨admits_of ?_, admits_of ?_, admits_of ?_, admits_of ?_, admits_of ?_, admits_of ?_, admits_of ?_, admits_of ?_⟩ <;> decide +kernel
theorem witness_PaddockMessages_discard : demo.takeMsg none (dmsg 1 0 0 []) 1 = none ∧
    (∀ k ∈ [1, 2, 4, 6, 0x10], ((stray (dmsg k 0 0 [])).takeMsg none (dmsg k 0 0 []) k).any (fun t => !isOk (t.admitRank (dmsg k 0 0 []))) = true) := by decide +kernel
/-- What the admitted message meets: addresses good and bad, a receive or none, a full early store, a fetch, a page server, an outbound
transfer, a STOP. -/
def opOf (k : OpKind) (s : State) : State := { s with sched := { s.sched with ops := [⟨0, 0, 0, 4, 0, 0, none, k, 0⟩] } }
def fetch1 (page : Option Nat) : Fetch := ⟨3 * 2 ^ 62, [0], [], 0, page, false, some ⟨0, 0, 2, none⟩⟩
theorem witness_PaddockMessages_effects :
    firstStatus [failIf (64 % 64 != 0 || 64 % 64 != 0) 0x290, failIf (decide (localEnd < 64 + 64)) 0x400, (demo.ucharge 0 16).resourceStatus 0 (ptrAddr 64)] = 0 ∧
    firstStatus [failIf (1 % 64 != 0 || 64 % 64 != 0) 0x290] ≠ 0 ∧ (ranked (dmsg 2 0 0 [])).offerPush 0 (dmsg 2 0 0 []) = none ∧
    (opOf (.recv ⟨0, 1, 0, 0, 1, [0], [], [], 0, 0⟩) (ranked (dmsg 2 0 0 []))).offerPush 0 (dmsg 2 0 0 []) ≠ none ∧ (demo.earlyOf 0).length < 256 ∧
    256 ≤ ((demo.setEarly 0 (List.replicate 256 ⟨0, dmsg 2 0 0 [], 0⟩)).earlyOf 0).length ∧ demo.findOp 0 = none ∧
    ((opOf (.fetch (fetch1 (some 0))) demo).findOp 0).any (fun o => corePdk o.core == 0) = true ∧ (fetch1 none).page.isSome = false ∧
    (linePieces (ptrAddr (fetch1 none).ptr) 512)[0]? = some (0, 512) ∧
    ([{ line1 false true (3 * 2 ^ 62) with use := .fetch 0 (0 / 512) (0 % 512) }].find? (fun l => l.use == .fetch 0 (0 / 512) (0 % 512))).isSome = true ∧
    64 ≤ (List.replicate 64 (⟨0, 0, dmsg 5 0 0 [], 0, 0, 0, 0⟩ : PageJob)).length ∧ demo.net.jobs = [] ∧ demo.rd F.RTE_PCFG_PSERVER_EN 0 = 0 ∧
    isMirrorXid 0 = false ∧ isMirrorXid 0x40000000 = true ∧ (demo.rd F.RTE_PCFG_PEER_DEV 0 = 0) ∧ isError 0 = false ∧ demo.earlyOf 127 = [] ∧
    demo.now ≤ 0 + 1000 * demo.rd F.SCH_PCTL_WAIT_DEFAULT_US 0 ∧ 0 + 1000 * (late demo).rd F.SCH_PCTL_WAIT_DEFAULT_US 0 < (late demo).now := by decide +kernel
/-- Paddock 0 is in the cache role with its page server on; context 0 is valid and its token page 0 lies in page 6. -/
def server : State :=
  let s := (demoC.wr F.RTE_PCFG_PSERVER_EN 0 1).wr F.PDK_STATE_ROLE 0 2
  { s with mem := { s.mem with hbm := mwrite (mwrite (mwrite s.mem.hbm (4 * 64 * 512) (leBytes (2 ^ 63 + 4 * 64 + 1) 8)) (4 * 64 * 512 + 512) (leBytes (2 ^ 63 + 5) 8)) 0x5F0000010 (leBytes (4 * 64) 4) } }
theorem witness_PaddockMessages_server : server.rd F.RTE_PCFG_PSERVER_EN 0 ≠ 0 ∧ server.role 0 = 2 ∧ server.inQuota 0 0 = true ∧ dValid (server.desc 0 0) = true ∧
    0 < dLayers (server.desc 0 0) ∧ 0 < dHeads (server.desc 0 0) ∧ eValid (server.leaf 0 (server.desc 0 0) (0 * dHeads (server.desc 0 0) + 0) 0) = true ∧
    dLayers (server.desc 0 0) ≤ 4095 := by decide +kernel
/-- Transit: another device reached over a one-hop path of port 1; no path; the forwarding queue is full. -/
def transit : State :=
  let s := ((active.wr F.RTE_DEST_VALID 0 1 9).wr F.RTE_DEST_FORWARD 0 1 9).wr F.PLK_STATE_STATE 1 3
  ((s.wr F.RTE_DEST_PATH 0 128 36).wr F.PLK_STATE_PEER_VALID 1 1).wr F.PLK_STATE_PEER_DEV 1 9
theorem witness_PaddockMessages_transit : (9 : Nat) ≠ transit.devId ∧ transit.portActive 0 = true ∧ transit.rd F.RTE_DEST_FORWARD 0 9 = 1 ∧ (transit.onehop 9).isSome = true ∧
    transit.uwin (rsvTransit ((transit.onehop 9).getD 0 / 6)) + 16 ≤ 4096 ∧ active.onehop 9 = none ∧ active.portActive 0 = true ∧ demo.portActive 11 = false := by decide +kernel

/-- A header of the PF that names paddock `p`. -/
def pfAt (p : Nat) : Hdr := ⟨0, 0, 1, p, false⟩
theorem witness_RoutesAndRanks : demo.goes pf opRankWrite 0 ∧ ∀ en, en = 0 ∨ en = 1 → (demo.wr F.PDK_STATE_ROLE 0 2).goes vf opPageServerSet (failIf (decide (1 < en)) 0x2C0) := by
  refine ⟨by unfold State.goes; decide +kernel, fun en h => ?_⟩
  unfold State.goes; rcases h with h | h <;> subst h <;> decide +kernel
/-- Port 11 reserves as many transit flits as a route may ask of it. -/
def roomy : State := [0, 1, 2, 11].foldl (fun s q => s.wr F.PLK_TRANSIT_TRANSIT q 4095) demo
theorem witness_RoutesAndRanks_table : 63 ≠ demo.devId ∧ (∀ x ∈ [(11, 1, 63), (0, 1, 0), (1, 1, 1), (2, 1, 2)], x.1 ≤ 11 ∧ (x.2.1 = 1 ∨ x.2.1 = 2) ∧ x.2.2 ≤ 63 ∧
      (hasBit 3 1 = true → x.2.1 = 1)) ∧
    roomy.goes pf opRouteWrite 0 ∧ (∀ q < 12, (roomy.putDest 63 3 4 4095 [(11, 1, 63), (0, 1, 0), (1, 1, 1), (2, 1, 2)]).portReserves q ≤ roomy.rd F.PLK_TRANSIT_TRANSIT q ∨
      (roomy.putDest 63 3 4 4095 [(11, 1, 63), (0, 1, 0), (1, 1, 1), (2, 1, 2)]).portReserves q = 0) ∧
    demo.rd F.PLK_TRANSIT_TRANSIT 11 < (demo.putDest 9 3 1 4095 [(11, 1, 8)]).portReserves 11 ∧
    demo.callStatus pf opRouteWrite = 0 := by unfold State.goes; decide +kernel
/-- A rank of this device in a group with paddock 2, which is ASSIGNED with group base 2, and one outside it. -/
def rankE (p : Nat) : Nat := 2 ^ 63 + p * 2 ^ 48
theorem witness_RoutesAndRanks_ranks : rankEntryOk (rankE 2) = true ∧ rankValid (rankE 2) = true ∧ rankDev (rankE 2) = demo.devId ∧ demo.sameGroup 2 (rankPdk (rankE 2)) = true ∧
    demo.sameGroup 2 (rankPdk (rankE 5)) = false ∧ demo.goes (pfAt 2) opRankWrite 0 ∧ demo.callStatus (pfAt 2) opRankWrite = 0 ∧ demo.deaf (pfAt 2) = false ∧
    63 + 1 ≤ 64 ∧ 8 + 56 ≤ 64 ∧ (List.replicate 56 (rankE 2)).length = 56 := by unfold State.goes; decide +kernel
def draining (ops : List Op) : State :=
  { demo.does (pfAt 2) opRankWrite (.rankWrite (pfAt 2) 0 1 1 0 0 [rankE 2]) [2, 0, 1, 1000, 1] with sched := { demo.sched with ops := ops } }
theorem witness_RoutesAndRanks_drain : (draining []).runningCmd (pfAt 2) = some (.rankWrite (pfAt 2) 0 1 1 0 0 [rankE 2]) ∧ (draining []).progOf (pfAt 2) = [2, 0, 1, 1000, 1] ∧
    (draining []).rankUsers 2 1000 0 1 = 0 ∧ (∀ i < 8, ∀ e ∈ (draining []).earlyOf (8 * 2 + i), e.rank < 0 ∨ 0 + 1 ≤ e.rank) ∧
    0 < (draining [⟨0, 16, 0, 4, 0, 0, none, .recv ⟨0, 1, 0, 0, 1, [0], [], [], 0, 0⟩, 0⟩]).rankUsers 2 1000 0 1 := by decide +kernel

/-- Device 9 is one hop away over port 1, which carries mirror traffic; VF 1's paddock is primary of it. -/
def paired (part : Nat) (at_ now : Nat) : State :=
  let s := ((active.wr F.RTE_DEST_VALID 0 1 9).wr F.RTE_DEST_FORWARD 0 1 9).wr F.PLK_STATE_STATE 1 3
  let s := ((s.wr F.RTE_DEST_PATH 0 128 36).wr F.PLK_STATE_PEER_VALID 1 1).wr F.PLK_STATE_PEER_DEV 1 9
  let s := ((s.wr F.RTE_PCFG_PART 0 part).wr F.RTE_PCFG_PEER_DEV 0 9).wr F.CNT_TIMEBASE_TIME 0 now
  { s with net := { s.net with mirrorPorts := 2, beatAt := [([0], at_)] } }
theorem witness_MirrorPairs : demo.goes pf opMirrorSet 0 ∧ (∀ p < 16, bitsAt 0 (2 * p) 2 ≠ 3) ∧ (∀ p < 16, bitsAt 0 (2 * p) 2 = 0) ∧ 63 ≠ demo.devId ∧
    (paired 0 0 0).goes pf opMirrorSet 0 ∧ (2 : Nat) ≠ 0 ∧ (∀ q < 12, hasBit 2 q = true → ((paired 0 0 0).usablePaths 9).any (fun x => x.1 == q && !x.2) = true) ∧
    (∀ p < 16, bitsAt 1 (2 * p) 2 ≠ 3) ∧ (∀ p < 16, bitsAt 1 (2 * p) 2 ≠ 0 → (paired 0 0 0).tdiLocked p = false ∧ (paired 0 0 0).pdkState p ≠ pdkFree ∧
      (paired 0 0 0).pdkState p ≠ pdkHandover ∧ (paired 0 0 0).pdkState p ≠ pdkOffline) := by unfold State.goes; decide +kernel
def mmsg (kind src flags : Nat) : Msg := ⟨kind, 0, 9, 0, src, flags, 0, 0, 0, 0, 64, 0, List.replicate 64 0⟩
def standby : State := ((paired 2 0 0).wr F.FAR_PSTATUS_STATE 0 1).wr F.FAR_PEXT_SIZE0 0 1
theorem witness_MirrorPairs_receive : demo.takeMsg (some 1) (mmsg 8 0 0) 8 = none ∧ (∀ f ∈ [0, 1], (standby.takeMsg (some 1) (mmsg 8 0 f) 8).any (fun t =>
      t.pdkState 0 != pdkHandover && t.rd F.RTE_PCFG_PART 0 == 2 && t.rd F.RTE_PCFG_PEER_DEV 0 == 9 && hasBit f 0 == (f == 1) &&
      ((t.ucharge 0 16).farMap 0 64).isSome) = true) ∧
    ((paired 1 0 0).takeMsg (some 1) (mmsg 8 0 0) 8).any (fun t => t.pdkState 0 != pdkHandover && t.rd F.RTE_PCFG_PART 0 != 2) = true ∧
    (((paired 2 0 0).wr F.PDK_STATE_STATE 0 pdkHandover).takeMsg (some 1) (mmsg 8 0 0) 8).any (fun t => t.pdkState 0 == pdkHandover) = true ∧
    ((paired 2 0 0).takeMsg (some 1) (mmsg 9 0 0) 9).any (fun t => t.rd F.RTE_PCFG_PART 0 == 2 && t.rd F.RTE_PCFG_PEER_DEV 0 == 9) = true ∧
    ((paired 0 0 0).takeMsg (some 1) (mmsg 9 0 0) 9).any (fun t => t.rd F.RTE_PCFG_PART 0 != 2) = true := by decide +kernel
theorem witness_MirrorPairs_beats : (paired 1 0 0).rd F.RTE_PCFG_PART 0 = 1 ∧ (paired 1 0 0).mirrorPort = some 1 ∧ (paired 2 0 0).rd F.RTE_PCFG_PART 0 = 2 ∧
    tget 0 (paired 2 0 5000000).net.beatAt [0] + 5000000 ≤ (paired 2 0 5000000).now ∧ (paired 2 0 4999999).now < tget 0 (paired 2 0 4999999).net.beatAt [0] + 5000000 ∧
    (demo.wr F.RTE_PCFG_PART 0 2).mirrorPort = none ∧ (demo.wr F.RTE_PCFG_PART 0 1).mirrorPort = none ∧ demo.rd F.RTE_PCFG_PART 0 ≠ 1 ∧ demo.rd F.RTE_PCFG_PART 0 ≠ 2 := by
  decide +kernel

/-- The root of trust runs, and slot 1 of each transport has a session, bound to `b`. -/
def chan (tr : Fin 3) : Chan := ⟨tr, 1⟩
def session (b : Option Nat) : State := (([0, 1, 2] : List Nat).foldl (fun s tr => s.setSession tr 1 (some ⟨b⟩)) demo)
theorem witness_SessionsAndReports : (∀ tr : Fin 3, (session none).rotUp tr.val = true ∧ (session none).established (chan tr) = true ∧ demo.established (chan tr) = false ∧
      (session none).boundOf (chan tr) = none) ∧ (session (some 0)).boundOf (chan 0) = some 0 ∧ (session (some 16)).boundOf (chan 0) = some (15 + 1) ∧
    ({ demo with pins := { demo.pins with pwrgd := false } } : State).rotUp 1 = false ∧
    (List.range 18).find? (fun k => (demo.sessionOf 0 k).isNone) = some 0 ∧
    (∀ k < 2, ((session none).setSession 1 0 (some ⟨none⟩)).sessionOf 1 k ≠ none) := by decide +kernel
theorem witness_SessionsAndReports_requests : fieldAt [0x11, 0x81] 1 1 ≠ 0x84 ∧ fieldAt [0x11, 0x81] 0 1 ≠ 0x12 ∧ fieldAt [0x11, 0x81] 0 1 ≠ 0x13 ∧ fieldAt [0x10, 0x84] 1 1 = 0x84 ∧
    fieldAt [0x12, 0xE6] 1 1 ∈ spdmUnsupported ∧ fieldAt [0x10, 0x84] 1 1 ∉ spdmUnsupported ∧ (session none).notReady 4 = true ∧ (session none).notReady 1 = false ∧
    (session none).notReady 16 = false ∧ ((session none).bindTo (chan 0) 1).isSome = true ∧ ((session (some 2)).bindTo (chan 0) 1).isNone = true ∧
    (0 = 0 ∨ 16 < 0) ∧ (17 = 0 ∨ 16 < 17) := by decide +kernel

/-- Key sets of VF 1's stream (index 2): set 0 is in use in sub-stream 0 of both directions, or in all. -/
def keyed (subs : List Nat) : State :=
  { session (some 1) with trust := { (session (some 1)).trust with ideKeys := [([2, 0, 0, 0], some [1])], ideSet := subs.flatMap (fun k => [([2, k, 0], 1), ([2, k, 1], 1)]) } }
theorem witness_IdeKeys : ((session none).setSession 0 1 (some ⟨some 5⟩)).bindTo (chan 0) (ideFn 2) = none ∧ ((keyed [0]).bindTo (chan 0) (ideFn 2)).any (fun t =>
      t.ideUse 2 0 0 == 0 + 1 && t.ideUse 2 0 1 != 1 + 1 && t.tdiState 1 == 0 && tget none t.trust.ideKeys (ideKey 2 0 0 0) != none &&
      tget none t.trust.ideKeys (ideKey 2 0 0 1) == none) = true ∧ (keyed [0]).rotUp 0 = true ∧ (keyed [0]).established (chan 0) = true ∧
    (keyed [0]).ideSecure 2 0 = false ∧ (keyed [0]).ideSecure 2 1 = false ∧ (keyed [0, 1, 2]).ideSecure 2 0 = true ∧ (keyed [0, 1, 2]).tdiState 1 = 0 ∧
    ((keyed [0, 1, 2]).wr F.RTP_TDI_STATE_STATE 1 2).ideSecure 2 1 = true ∧ ((keyed [0, 1, 2]).wr F.RTP_TDI_STATE_STATE 1 2).tdiState 1 = 2 := by decide +kernel

/-- VF 3 of the ASSIGNED paddock 2, with its stream secure and its memory space open: it can be locked; then it is in TDI state `n`. -/
def tenant (n : Nat) : State :=
  let s := ({ session (some 3) with trust := { (session (some 3)).trust with
    ideSet := [0, 1, 2].flatMap (fun k => [([4, k, 0], 1), ([4, k, 1], 1)]), nonces := [([3], [7])] } } : State)
  (s.setCfg 3 ⟨false, false, false, true, 0x80000, false⟩).wr F.RTP_TDI_STATE_STATE 3 n
theorem witness_TenantInterfaces : (∀ n < 4, (tenant n).rotUp 0 = true ∧ (tenant n).established (chan 0) = true ∧ (tenant n).notReady 3 = false ∧
      ((tenant n).bindTo (chan 0) 3).any (fun t => t.tdiState 3 == n && t.lockable 3 == (n == 0) && t.tdiLocked 2 == (n == 1 || n == 2) &&
        tget [] t.trust.nonces [3] == [7]) = true) ∧ [7] ≠ ([] : List Byte) ∧ (session none).rotUp 1 = true ∧ (session none).established (chan 1) = true ∧
    (session none).notReady 4 = true ∧ ((session (some 2)).bindTo (chan 0) 1).isNone = true ∧ (session (some 2)).notReady 1 = false := by decide +kernel
theorem witness_TenantInterfaces_stop : vfOf 2 = 3 ∧ ({ (tenant 2).vfFlr 2 with trust := { ((tenant 2).vfFlr 2).trust with stopping := tset false ((tenant 2).vfFlr 2).trust.stopping [3] true } } : State).notReady 3 = true ∧
    (({ ((tenant 2).wr F.PDK_STATE_STATE 2 0).vfFlr 2 with trust := { (((tenant 2).wr F.PDK_STATE_STATE 2 0).vfFlr 2).trust with stopping := tset false (((tenant 2).wr F.PDK_STATE_STATE 2 0).vfFlr 2).trust.stopping [3] true } } : State).notReady 3 = false) ∧
    ((tenant 2).wr F.PDK_STATE_STATE 2 0).notReady 3 = false := by decide +kernel

/-- Four components of 64 bytes that start one after another at 0x100, and zeros in place of the signatures. -/
def fwImage : List Byte :=
  leBytes 0x5746444B 4 ++ leBytes 0x0100 2 ++ leBytes 4 2 ++ leBytes 5248 4 ++ leBytes 9 4 ++ leBytes 0 16 ++
    (List.range 4).flatMap (fun k => leBytes (k + 2) 4 ++ leBytes (0x100 + 64 * k) 4 ++ leBytes 64 4 ++ leBytes 0 4) ++ List.replicate (5248 - 0x60) 0
theorem witness_Firmware : demo.goes pf opFwStage (demo.fwStageStatus pf 0 0 1) ∧ hasBit 1 0 = true ∧ demo.rotBusy pf opFwStage = false ∧ hasBit 0 0 = false ∧
    (∀ n ∈ [64, 5248, 0x1000000], demoW.goes pf opFwStage (demoW.fwStageStatus pf hostPtr n 0) ∧ demoW.untranslated pf [⟨hostPtr, n, false⟩]) ∧
    demoW.rotBusy pf opFwStage = false ∧ fwLayoutOk [] 5248 = false := by unfold State.goes State.untranslated; decide +kernel
/-- The image passes but for its signatures: `Config.verifies` decides between the next clauses; MIN_SVN below and above its SVN of 9. -/
theorem witness_Firmware_image : fwLayoutOk fwImage 5248 = true ∧ fieldAt fwImage 0xC 4 = 9 ∧ (9 < 10 ∧ 9 ≤ 9) := by decide +kernel
theorem witness_Firmware_svn (b : Bool) : ({ demoW with trust := { demoW.trust with minSvn := 10 } } : State).trust.minSvn = 10 ∧ demoW.trust.minSvn ≤ 9 ∧
    (Config.verifies useFirmware fwImage = b → Config.verifies useFirmware fwImage = true ∨ Config.verifies useFirmware fwImage = false) := by
  refine ⟨by decide +kernel, by decide +kernel, fun h => ?_⟩
  cases b <;> simp [h]
def writing : State := demo.does pf opFwStage (.fwStage pf 0 0 0 .poison) [9, 1, 2, 3, 4, 5]
/-- No paddock is ACTIVE or in HANDOVER, and an image of SVN 9 is staged. -/
def staged : State :=
  let s := (demo.wr F.PDK_STATE_STATE 0 3).wr F.PDK_STATE_STATE 3 0
  { s with trust := { s.trust with staged := true, banks := [([s.spareFlash], ⟨9, [], []⟩)] } }
theorem witness_Firmware_ends : demo.executing pf opFwStage = false ∧ writing.executing pf opFwStage = true ∧ (writing.progOf pf).length = 6 ∧
    staged.goes pf opFwActivate (staged.fwActivateStatus 0) ∧ staged.goes pf opFwActivate (staged.fwActivateStatus 1) ∧ staged.rotBusy pf opFwActivate = false ∧
    staged.trust.minSvn < (staged.bankOf staged.spareFlash).svn ∧ (demo.does pf opFwActivate (.fwActivate pf 0) [0]).executing pf opFwActivate = true := by
  unfold State.goes; decide +kernel

def challenged : State := { demoW with trust := { demoW.trust with challenge := some (List.replicate 32 1, 5) } }
theorem witness_FieldDebug : demoW.rotBusy pf opDebugChallenge = false ∧ demoW.goes pf opDebugChallenge (firstStatus [failIf (ptrTag hostPtr != 1) 0x401, failIf (hostPtr % 64 != 0) 0x201,
      demoW.checkPtr 0 0 hostPtr 64 true]) ∧ demoW.untranslated pf [⟨hostPtr, 64, true⟩] ∧ demoW.trust.challenge = none ∧
    challenged.trust.challenge = some (List.replicate 32 1, 5) ∧ challenged.now < 5 ∧ 5 ≤ (challenged.wr F.CNT_TIMEBASE_TIME 0 5).now ∧ demo.trust.opening = none ∧
    ({ demo with trust := { demo.trust with opening := some 0 } } : State).pdkState 0 ≠ pdkFree := by unfold State.goes State.untranslated; decide +kernel
theorem witness_FieldDebug_response : challenged.rotBusy pf opDebugResponse = false ∧ challenged.goes pf opDebugResponse (firstStatus [
      failIf ([hostPtr, hostPtr + 4800, hostPtr + 9600].any (fun x => ptrTag x != 1)) 0x401, failIf ([hostPtr, hostPtr + 4800, hostPtr + 9600].any (fun x => x % 64 != 0)) 0x2D1,
      challenged.checkPtr 0 0 hostPtr 4800 false, challenged.checkPtr 0 0 (hostPtr + 4800) 4800 false, challenged.ptrStatus 0 0 (hostPtr + 9600) 2689 false]) ∧
    challenged.untranslated pf [⟨hostPtr, 4800, false⟩, ⟨hostPtr + 4800, 4800, false⟩, ⟨hostPtr + 9600, 2689, false⟩] ∧
    challenged.debugStatus 0 [] [] [] ≠ 0 := by unfold State.goes State.untranslated; decide +kernel
def keysBytes : List Byte := 4 :: List.replicate 2688 0
def tokenBytes (kind : Nat) : List Byte :=
  leBytes 0x4B544244 4 ++ leBytes kind 1 ++ leBytes 7 1 ++ leBytes 0 2 ++ List.replicate 32 1 ++ fitBytes 16 demoW.trust.serial ++ leBytes demoW.trust.debugEpoch 4 ++
    List.replicate (4800 - 0x3C) 0
theorem token_fits (kind : Nat) (h : kind = 0 ∨ kind = 1) : tokenOk (tokenBytes kind) kind = true ∧ (fieldAt (tokenBytes kind) 5 1 == 7) = true ∧
    (((tokenBytes kind).drop 8).take 32 = List.replicate 32 1) ∧ (((tokenBytes kind).drop 0x28).take 16 = fitBytes 16 demoW.trust.serial) ∧
    (fieldAt (tokenBytes kind) 0x38 4 == demoW.trust.debugEpoch) = true := by
  rcases h with h | h <;> subst h <;> decide +kernel
theorem keys_fit : ownerKeysOk keysBytes = true := by decide +kernel
/-- Tokens and keys whose signatures verify and whose owner is the module's pass every check. -/
def owned : State := { challenged with trust := { challenged.trust with owner := some (sha384 keysBytes) } }
theorem owned_parts : owned.trust.challenge = some (List.replicate 32 1, 5) ∧ owned.now < 5 ∧ owned.trust.serial = demoW.trust.serial ∧
    owned.trust.debugEpoch = demoW.trust.debugEpoch ∧ owned.trust.owner = some (sha384 keysBytes) := ⟨rfl, by decide +kernel, rfl, rfl, rfl⟩
theorem witness_FieldDebug_opens (hv : ∀ u b, Config.verifies u b = true) : owned.debugStatus 7 (tokenBytes 0) (tokenBytes 1) keysBytes = 0 := by
  obtain ⟨a0, a1, a2, a3, a4⟩ := token_fits 0 (.inl rfl)
  obtain ⟨b0, b1, b2, b3, b4⟩ := token_fits 1 (.inr rfl)
  obtain ⟨c0, c1, c2, c3, c4⟩ := owned_parts
  have hc : decide (owned.now < 5) = true := decide_eq_true c1
  simp [State.debugStatus, State.tokenFits, c0, hc, c2, c3, c4, a0, a1, a2, a3, a4, b0, b1, b2, b3, b4, keys_fit, hv, firstStatus, failIf]
/-- Every paddock is FREE. -/
def free16 : State := (List.range 16).foldl (fun s p => s.wr F.PDK_STATE_STATE p 0) demo
theorem witness_FieldDebug_zeroised : ({ free16 with trust := { free16.trust with opening := some 7 } } : State).trust.opening = some 7 ∧
    ∀ p < 16, ({ free16 with trust := { free16.trust with opening := some 7 } } : State).pdkState p = pdkFree := by decide +kernel

theorem witness_OutOfBand : (∀ tr : Fin 3, (session none).rotUp tr.val = true ∧ (session none).established (chan tr) = true) ∧ (session none).stoppable 15 = false ∧
    (session none).stoppable 0 = true ∧ (session none).trust.owner = none ∧ (List.replicate 48 (0 : Byte)).length = 48 ∧
    ({ session none with trust := { (session none).trust with owner := some [] } } : State).trust.owner ≠ none ∧ ([] : List Byte).length ≠ 48 ∧
    demo.pins.pwrgd = true ∧ demo.rd F.RST_STATUS_STAGE 0 = 0 ∧ (∀ n ∈ [1, 4], (demo.wr F.RST_STATUS_STAGE 0 n).rd F.RST_STATUS_STAGE 0 = n) ∧
    demo.pins.i3cAddr = none ∧ 4 < (demo.wr F.RST_STATUS_STAGE 0 5).rd F.RST_STATUS_STAGE 0 := by decide +kernel

/-- VF 1's window 1 is pinned. -/
def demoP : State := demo.setWindow 1 1 ⟨true, true, true, true, false, 0, 0, 0x1000000⟩
theorem witness_SwardAndCounters : demo.barClosed 1 = false ∧ demo.barClosed 16 = true ∧
    (∀ set ∈ [0, 1], demoW.goes pf opCounterRead (firstStatus [failIf (decide (1 < set) || (set == 1 && pf.fn.val != 0)) 0x2B0, failIf (ptrTag hostPtr != 1) 0x401,
      failIf (hostPtr % 64 != 0) 0x2B0, demoW.checkPtr pf.fn.val (paddockOf pf) hostPtr (if set = 0 then 320 else 128) true,
      failIf (pf.fn.val == 0 && set == 0 && demoW.tdiLocked (paddockOf pf)) 0x720]) ∧ demoW.untranslated pf [⟨hostPtr, if set = 0 then 320 else 128, true⟩]) ∧
    demo.goes vf opDumpConfig (firstStatus [failIf (decide (3 < 2) || (hasBit 2 1 && (0 != 0 || 0 != 0))) 0x2B0, failIf (vf.fn.val == 0 && demo.tdiLocked (paddockOf vf)) 0x720,
      failIf (!hasBit 2 1 && !demo.bufferOk vf.fn.val 0 0) 0x2B1]) ∧ hasBit 2 1 = true ∧ hasBit 1 1 = false ∧
    demoP.goes vf opDumpConfig (firstStatus [failIf (decide (3 < 1) || (hasBit 1 1 && (hostPtr != 0 || dumpMin != 0))) 0x2B0, failIf (vf.fn.val == 0 && demoP.tdiLocked (paddockOf vf)) 0x720,
      failIf (!hasBit 1 1 && !demoP.bufferOk vf.fn.val hostPtr dumpMin) 0x2B1]) ∧ demoP.untranslated vf [] := by unfold State.goes State.untranslated; decide +kernel
theorem witness_SwardAndCounters_halt : demoW.goes pf opHaltDump (firstStatus [failIf (pf.fn.val != 0 && (hostPtr != 0 || dumpMin != 0)) 0x2B0,
      failIf (pf.fn.val == 0 && demoW.tdiLocked (paddockOf pf)) 0x720, demoW.dumpStatus (paddockOf pf) (pf.fn.val == 0 || (demoW.dumpCfgOf (paddockOf pf)).isSome),
      failIf (pf.fn.val == 0 && !demoW.bufferOk 0 hostPtr dumpMin) 0x2B1]) ∧ demoW.untranslated pf [⟨hostPtr, dumpMin, true⟩] ∧
    ∀ s, s = demoP.setDumpCfg 0 ⟨hostPtr, dumpMin, true, false⟩ → s.goes vf opHaltDump (firstStatus [failIf (vf.fn.val != 0 && (0 != 0 || 0 != 0)) 0x2B0,
      failIf (vf.fn.val == 0 && s.tdiLocked (paddockOf vf)) 0x720, s.dumpStatus (paddockOf vf) (vf.fn.val == 0 || (s.dumpCfgOf (paddockOf vf)).isSome),
      failIf (vf.fn.val == 0 && !s.bufferOk 0 0 0) 0x2B1]) ∧ s.untranslated vf [] ∧ s.dumpCfgOf (paddockOf vf) = some ⟨hostPtr, dumpMin, true, false⟩ := by
  unfold State.goes State.untranslated
  refine ⟨by decide +kernel, by decide +kernel, ?_⟩
  intro s h; subst h; decide +kernel
def dump1 (captured : Bool) (n : Nat) : Dump := ⟨some vf, false, hostPtr, dumpMin, 0, 0, 0, 0, 0, 0, 0, 0, (List.range n).map (fun k => ⟨k, 0, 0, []⟩), captured, []⟩
def dumping (captured : Bool) (n : Nat) : State := (demoP.setDump 0 (dump1 captured n)).wr F.SWD_STAT_STATE 0 (if captured then 2 else 1)
theorem witness_SwardAndCounters_dump : demo.dumpOf 15 = none ∧ (dumping false 7).dumpOf 0 = some (dump1 false 7) ∧ (dump1 false 7).captured = false ∧
    (dump1 false 7).cuts.any (fun x => x.core == coreOff 7) = false ∧ (dump1 false 7).cuts.any (fun x => x.core == coreOff 6) = true ∧ (dump1 false 7).cuts.length < 8 ∧
    8 ≤ (dump1 false 8).cuts.length ∧ (dump1 true 8).captured = true ∧ (dumping true 8).rd F.SWD_STAT_STATE 0 = 2 ∧ corePdk 7 = 0 := by decide +kernel

theorem witness_DetectedFaults : demo.pins.pwrgd = true ∧ ({ demo with pins := { demo.pins with pwrgd := false } } : State).pins.pwrgd = false ∧
    tget false demo.rel.badProcs [17] = false ∧ tget false demo.rel.badProcs [19] = false ∧ tget false (demo.markProc 18).rel.badProcs [37 - 19] = true ∧
    (List.range 16).find? (fun p => ((demo.markProc 17).syncSpares).procOf p == 17) = none ∧
    (List.range 16).find? (fun p => ((demo.markProc 0).syncSpares).procOf p == 0) ≠ none ∧
    (∀ x ∈ [(0, 143), (1, 17), (2, 255), (3, 16 * 11 + 8)], demo.goes pf opSelfTest (firstStatus [failIf (!testUnitOk x.1 x.2) 0x2E0, failIf (demo.testBusy x.1 x.2) 0x390])) ∧
    demo.rel.tests.find? (fun t => t.h.fn == pf.fn && t.h.q == pf.q && t.h.cid == pf.cid) = none ∧
    ({ demo with rel := { demo.rel with tests := [⟨pf, 2, 255, 0⟩] } } : State).rel.tests.find? (fun t => t.h.fn == pf.fn && t.h.q == pf.q && t.h.cid == pf.cid) =
      some ⟨pf, 2, 255, 0⟩ := by unfold State.goes; decide +kernel

theorem witness_FatalCauses : demo.rd F.HIF_FATAL_FATAL 0 = 0 ∧ demo.pins.pwrgd = true ∧ (demo.wr F.HIF_FATAL_FATAL 0 1).rd F.HIF_FATAL_FATAL 0 = 1 ∧
    hasBit ((demo.wr F.CLK_STAT_LOCK 0 0xFF).rd F.CLK_STAT_LOCK 0) 5 = true ∧ hasBit ((demo.wr F.CLK_STAT_LOCK 0 0).rd F.CLK_STAT_LOCK 0) 5 = false ∧
    109 < 110 ∧ 110 ≤ 110 ∧ 99 < 100 ∧ 100 ≤ 100 ∧ 11 < 12 ∧ 13 < 14 := by decide +kernel

def stage (n : Nat) : State := demo.wr F.RST_STATUS_STAGE 0 n
def unpowered : State := { demo with pins := { demo.pins with pwrgd := false } }
/-- No paddock is in HANDOVER, and the host has deasserted PERST_N. -/
def calm (s : State) : State := { s.wr F.PDK_STATE_STATE 3 0 with pins := { s.pins with perstN := true } }
set_option maxRecDepth 100000 in
/-- Stages 6 and 7 that find nothing leave the fatal state as it was. -/
theorem stageSix_calm (s : State) : (s.stageSix []).rd F.HIF_FATAL_FATAL 0 = s.rd F.HIF_FATAL_FATAL 0 := by
  obtain ⟨u, hu⟩ : ∃ u, u = loopN 16 (fun g s => s.syncGroup g) (loopN 256 (fun ch s =>
      (s.wr F.HBM_CH_STAT_PWR ch 0).wr F.HBM_CH_STAT_TRAINED ch (b2n (!([] : List Nat).contains ch))) s) := ⟨_, rfl⟩
  have h0 : OnlyRegs s u [F.HBM_CH_STAT_PWR, F.HBM_CH_STAT_TRAINED, F.HBM_GSTAT_PWR, F.HBM_GSTAT_DORMANT] := by
    rw [hu]
    refine onlyRegs_loopN (onlyRegs_loopN onlyRegs_refl fun c u hu => onlyRegs_wr (onlyRegs_wr hu (by simp)) (by simp)) fun g u hu => ?_
    unfold State.syncGroup
    exact onlyRegs_wr (onlyRegs_wr hu (by simp)) (by simp)
  have e : ∀ left : List (Nat × Nat), left = u.msys.repair.filter (fun x => (([] : List Found).filterMap Found.lineOf).contains x) →
      s.stageSix [] = left.foldl (fun s x => s.patchLine x.1 x.2) ((({ u with msys := { u.msys with repair := left } } : State).wr
        F.MOW_PPR_APPLIED 0 (u.msys.repair.length - left.length)).wr F.MOW_PPR_LISTED 0 (min left.length 0xFFFF)) := by
    intro left h; subst h; subst hu; rfl
  refine (congrArg (fun t => t.rd F.HIF_FATAL_FATAL 0) (e [] (List.filter_eq_nil_iff.mpr fun _ _ => by simp).symm)).trans ?_
  refine (State.rd_wr_fld (by decide)).trans ((State.rd_wr_fld (by decide)).trans ?_)
  exact h0.2 F.HIF_FATAL_FATAL 0 0 (by decide)
theorem testCore_calm (s : State) (c : Nat) : s.testCore c [] = s := by
  simp [State.testCore, State.repairColumns, State.repairLanes, List.foldl_fixed]
theorem stageSeven_calm (s : State) : (s.stageSeven []).rd F.HIF_FATAL_FATAL 0 = s.rd F.HIF_FATAL_FATAL 0 := by
  have hl : ∀ (l : List Nat) (u : State), l.foldl (fun t i => t.testCore i []) u = u := by
    intro l; induction l with
    | nil => intro u; rfl
    | cons x l ih => intro u; rw [List.foldl_cons, testCore_calm, ih]
  unfold State.stageSeven loopN
  simp only [hl]
  simp only [List.filterMap_nil, List.contains_nil, Bool.false_and, Bool.false_eq_true, if_false, List.foldl_nil]
  unfold State.syncSpares State.defaultCores loopN
  rw [State.rd_wr_fld (by decide), State.rd_wr_fld (by decide), State.rd_wr_fld (by decide)]
  have hd : ∀ (l : List Nat) (u : State), (l.foldl (fun t c => t.wr (physFld (coreOff c)) (corePdk c) (72 * (c / 64) + c % 64)) u).rd F.HIF_FATAL_FATAL 0 =
      u.rd F.HIF_FATAL_FATAL 0 := by
    intro l; induction l with
    | nil => intro u; rfl
    | cons x l ih =>
      intro u; rw [List.foldl_cons, ih]
      refine State.rd_wr_fld ?_
      have : ∀ k < 8, F.HIF_FATAL_FATAL.id ≠ (physFld k).id := by decide
      exact this _ (Nat.mod_lt _ (by decide))
  rw [hd]
  exact State.rd_bump_fld (by decide) (by decide)
theorem witness_PowerAndResets : unpowered.pins.pwrgd = false ∧ 99 < 100 ∧ (∀ n < 12, (stage n).rd F.RST_STATUS_STAGE 0 = n ∧ (stage n).pins.pwrgd = true ∧
      (stage n).rd F.HIF_FATAL_FATAL 0 = 0) ∧ (stage 10).noHandover = false ∧ (calm (stage 10)).noHandover = true ∧ (calm (stage 10)).pins.perstN = true ∧
    ((stage 10).wr F.PDK_STATE_STATE 3 0).noHandover = true ∧ ((stage 10).wr F.PDK_STATE_STATE 3 0).pins.perstN = false ∧
    demo.pins.killN = true ∧ demo.host.held = [] := by decide +kernel
theorem witness_PowerAndResets_stages : (({ stage 6 with pins := { (stage 6).pins with upMs := (stage 6).pins.upMs + 1 } } : State).stageSix []).rd F.HIF_FATAL_FATAL 0 = 0 ∧
    (({ stage 7 with pins := { (stage 7).pins with upMs := (stage 7).pins.upMs + 1 } } : State).stageSeven []).rd F.HIF_FATAL_FATAL 0 = 0 := by
  rw [stageSix_calm, stageSeven_calm]; decide +kernel
theorem witness_PowerAndResets_resets : (calm demo).pins.perstN = true ∧ (calm demo).rd F.RST_STATUS_STAGE 0 = 0 ∧ (stage 5).pins.perstN = false ∧
    1 ≤ (stage 5).rd F.RST_STATUS_STAGE 0 ∧ demo.vfExists 16 = false ∧ ({ demo with host := { demo.host with vfEnable := true, numVfs := 16 } } : State).vfExists (vfOf 15) = true ∧
    (demo.pdkState 0 = pdkActive ∧ demo.pdkState 1 = pdkQuiesced ∧ demo.pdkState 2 = pdkAssigned) ∧ demo.rd F.RST_STATUS_IN_RESET 0 = 0 := by decide +kernel
def resetting (lvl : Nat) : State := calm ((demo.wr F.RST_STATUS_IN_RESET 0 1).wr F.RST_STATUS_LAST 0 lvl)
theorem witness_PowerAndResets_complete : ∀ lvl ∈ [1, 2], (resetting lvl).rd F.RST_STATUS_IN_RESET 0 ≠ 0 ∧ (resetting lvl).rd F.RST_STATUS_LAST 0 = lvl ∧
    (resetting lvl).pins.perstN = true ∧ (resetting lvl).rd F.RST_STATUS_STAGE 0 = 0 ∧ (resetting lvl).noHandover = true ∧ (resetting lvl).rd F.HIF_FATAL_FATAL 0 = 0 ∧
    (resetting lvl).pins.pwrgd = true ∧ (resetting lvl).pins.killN = true ∧ (resetting lvl).host.held = [] := by decide +kernel

theorem witness_KillAndCoreClock : demo.pins.pwrgd = true ∧ demo.rd F.RST_STATUS_STAGE 0 ≠ 1 ∧ demo.rd F.RST_STATUS_STAGE 0 ≠ 2 ∧ demo.pins.killN = true ∧
    demo.rd F.RST_STATUS_IN_RESET 0 = 0 ∧ (demo.wr F.RST_STATUS_IN_RESET 0 1).rd F.RST_STATUS_IN_RESET 0 = 1 ∧ 199 < 200 ∧ demo.pdkState 0 ≠ pdkFree ∧ demo.pdkState 0 ≠ pdkOffline ∧
    (∀ p < 16, free16.pdkState p = pdkFree) ∧ free16.rel.tests = [] ∧ 0 % 4 = free16.rd F.CLK_CFG_CORE_SEL 0 ∧ 3 % 4 ≠ free16.rd F.CLK_CFG_CORE_SEL 0 ∧
    demo.rd F.CLK_STAT_RELOCKING 0 = 0 ∧ (demo.wr F.CLK_STAT_RELOCKING 0 1).rd F.CLK_STAT_RELOCKING 0 ≠ 0 := by decide +kernel

/-- The channels of paddock 15 have power. -/
def powered : State := { demo with regs := (List.range 16).map (fun c => ([F.HBM_CH_STAT_PWR.id, 240 + c, 0], 0)) ++ demo.regs }
theorem witness_Paddocks : powered.orderBusy (pfAt 15) = false ∧ (∀ p ∈ members 15 0, powered.testHolds p = false) ∧
    powered.goes (pfAt 15) opPaddockAssign (powered.assignStatus (pfAt 15) 2 0 65535 778240 [(0, 0, 0, 0)]) ∧ 15 + 2 ^ 0 ≤ 16 ∧ 0 + 2 ^ 4 ≤ 16 ∧
    (demo.does (pfAt 1) opPaddockConfig (.paddockConfig (pfAt 1) 1) [0]).orderBusy ⟨0, 0, 2, 2, false⟩ = true ∧
    (demo.does (pfAt 1) opPaddockConfig (.paddockConfig (pfAt 1) 1) [0]).callStatus ⟨0, 0, 2, 2, false⟩ opPaddockRelease = 0 := by
  unfold State.goes
  refine ⟨?_, ?_, ?_, ?_, ?_⟩ <;> decide +kernel
theorem witness_Paddocks_release : demo.orderBusy (pfAt 2) = false ∧ (∀ p ∈ members 2 (demo.rd F.PDK_STATE_GROUP_LOG2 2), demo.testHolds p = false ∧ demo.pdkState p = pdkAssigned) ∧
    demo.goes (pfAt 2) opPaddockRelease (firstStatus [failIf (demo.rd F.PDK_STATE_GROUP_BASE 2 != 2) 0x202,
      failIf ((members 2 (demo.rd F.PDK_STATE_GROUP_LOG2 2)).all (fun p => demo.pdkState p == pdkFree || demo.pdkState p == pdkOffline)) 0x301]) ∧
    (∀ role < 3, demo.goes (pfAt 2) opPaddockConfig (firstStatus [failIf (decide (2 < role)) 0x201, failIf (demo.tdiLocked 2) 0x720,
      failIf (demo.pdkState 2 != pdkAssigned && demo.pdkState 2 != pdkQuiesced) 0x301, failIf (!demo.roleQuiet 2) 0x302])) ∧ demo.role 2 = 0 := by
  unfold State.goes; decide +kernel
/-- Paddock 2 changes to the cache role; all its cores but 16 are powered down. -/
def sinking (late : Bool) : State :=
  let s := demo.does (pfAt 2) opPaddockConfig (.paddockConfig (pfAt 2) 2) [0]
  let s := [17, 18, 19, 20, 21, 22, 23].foldl (fun s c => s.wr F.DRW_SHELF_CFG_PWR c 2) (s.wr F.DRW_SHELF_CFG_PWR 16 1)
  s.wr F.CNT_TIMEBASE_TIME 0 (if late then 100001 else 100000)
theorem witness_Paddocks_shelves : demo.rd F.DRW_SHELF_CFG_PWR 127 ≠ 1 ∧ (sinking false).rd F.DRW_SHELF_CFG_PWR 16 = 1 ∧ (sinking false).shelfWrites 16 = false ∧
    (∀ i < 8, ((sinking false).wr F.DRW_SHELF_CFG_PWR 16 2).rd F.DRW_SHELF_CFG_PWR (8 * corePdk 16 + i) = 2) ∧ ((sinking false).roleCmd (corePdk 16)).isSome = true ∧
    (((sinking false).wr F.DRW_SHELF_CFG_PWR 17 1).wr F.DRW_SHELF_CFG_PWR 16 2).rd F.DRW_SHELF_CFG_PWR (8 * corePdk 16 + 1) ≠ 2 ∧ demo.roleCmd 15 = none ∧
    ((sinking false).roleCmd 2).any (fun t => nth t.prog 0 == 0) = true ∧ (sinking false).now ≤ 0 + 100000 ∧ 0 + 100000 < (sinking true).now := by decide +kernel
def handing (n : Nat) (toFree : Bool) : State := demo.setHand 3 (some ⟨toFree, n, 0, false, false, false⟩)
theorem witness_Paddocks_handover : demo.handOf 15 = none ∧ demo.handoverRuns = true ∧ demo.pdkState 3 = pdkHandover ∧
    (∀ n ∈ [1, 3], (handing n true).handOf 3 = some ⟨true, n, 0, false, false, false⟩ ∧ (handing n true).pdkState 3 = pdkHandover ∧ (handing n true).handoverRuns = true) ∧
    ((handing 1 true).wr F.HIF_FATAL_FATAL 0 1).handoverRuns = false := by decide +kernel

theorem witness_CellOverflow : (demo.wr F.SYN_VAL_VALUE 127 0xFFFFFFFF 255).rd F.SYN_VAL_VALUE 127 255 = 0xFFFFFFFF ∧ 0xFFFFFFFF < 0xFFFFFFFF + 1 ∧ 0xFFFFFFFE + 1 ≤ 0xFFFFFFFF ∧
    demo.rd F.SYN_ERR0_VALID 127 ≠ 1 ∧ (demo.wr F.SYN_ERR0_VALID 127 1).rd F.SYN_ERR0_VALID 127 = 1 ∧ 15 < 16 ∧ 255 < 256 ∧ 2 ^ 24 - 1 < 2 ^ 24 ∧
    0xFFFFFFFF < 2 ^ 32 := by decide +kernel

/-! ### Ill-formed terms -/

/-- A message that is well formed, and one that is not; a header whose CID has 13 bits. -/
def msg0 : Msg := ⟨0, 0, 0, 0, 0, 0, 0, 0, 0, 0, 0, 0, []⟩
def badM : Msg := ⟨256, 0, 0, 0, 0, 0, 0, 0, 0, 0, 0, 0, []⟩
def badH : Hdr := ⟨0, 0, 4096, 0, false⟩
/-- Each of these breaks one check of its command. -/
theorem test_wellFormed_refuses_1 : ([
    .paddockAssign badH 0 0 0 0 [], .paddockAssign pf (2 ^ 8) 0 0 0 [], .paddockAssign pf 0 (2 ^ 8) 0 0 [], .paddockAssign pf 0 0 (2 ^ 16) 0 [],
    .paddockAssign pf 0 0 0 (2 ^ 32) [], .paddockAssign pf 0 0 0 0 [(0, 0, 0, 2 ^ 16)], .paddockConfig badH 0, .paddockConfig pf (2 ^ 8), .paddockRelease badH,
    .scheduleLoad badH 0 0 0 [], .scheduleLoad pf (2 ^ 8) 0 0 [], .scheduleLoad pf 0 (2 ^ 64) 0 [], .scheduleLoad pf 0 0 (2 ^ 32) [],
    .scheduleRun badH 0 (List.replicate 16 0), .scheduleRun pf (2 ^ 8) (List.replicate 16 0), .scheduleRun pf 0 [], .scheduleRun pf 0 (List.replicate 16 (2 ^ 32)),
    .scheduleUnload badH 0, .scheduleUnload pf (2 ^ 8), .rotaryTableLoad badH 0 0 [], .rotaryTableLoad pf (2 ^ 8) 0 [], .rotaryTableLoad pf 0 (2 ^ 64) [],
    .ctxCreate badH 0 0 0 0 0 0 0 0 0 0, .ctxCreate pf (2 ^ 32) 0 0 0 0 0 0 0 0 0, .ctxCreate pf 0 (2 ^ 8) 0 0 0 0 0 0 0 0, .ctxCreate pf 0 0 (2 ^ 8) 0 0 0 0 0 0 0,
    .ctxCreate pf 0 0 0 (2 ^ 8) 0 0 0 0 0 0, .ctxCreate pf 0 0 0 0 (2 ^ 16) 0 0 0 0 0, .ctxCreate pf 0 0 0 0 0 (2 ^ 16) 0 0 0 0, .ctxCreate pf 0 0 0 0 0 0 (2 ^ 8) 0 0 0,
    .ctxCreate pf 0 0 0 0 0 0 0 (2 ^ 8) 0 0, .ctxCreate pf 0 0 0 0 0 0 0 0 (2 ^ 8) 0, .ctxCreate pf 0 0 0 0 0 0 0 0 0 (2 ^ 64), .ctxDestroy badH 0,
    .ctxDestroy pf (2 ^ 32), .ctxSet badH 0 0 0 0 0 0, .ctxSet pf (2 ^ 32) 0 0 0 0 0, .ctxSet pf 0 (2 ^ 8) 0 0 0 0, .ctxSet pf 0 0 (2 ^ 8) 0 0 0,
    .ctxSet pf 0 0 0 (2 ^ 8) 0 0, .ctxSet pf 0 0 0 0 (2 ^ 32) 0, .ctxSet pf 0 0 0 0 0 (2 ^ 64), .ctxRead badH 0 0, .ctxRead pf (2 ^ 32) 0, .ctxRead pf 0 (2 ^ 64),
    .ctxPlace badH 0 0, .ctxPlace pf (2 ^ 32) 0, .ctxPlace pf 0 (2 ^ 16), .ctxPlaceDrained badH, .kvPoolAdd badH 0 0, .kvPoolAdd pf (2 ^ 32) 0, .kvPoolAdd pf 0 (2 ^ 32),
    .kvPoolRemove badH 0 0, .kvPoolRemove pf (2 ^ 32) 0, .kvPoolRemove pf 0 (2 ^ 32), .kvMap badH 0 0 0 0, .kvMap pf (2 ^ 32) 0 0 0, .kvMap pf 0 (2 ^ 8) 0 0,
    .kvMap pf 0 0 (2 ^ 32) 0, .kvMap pf 0 0 0 (2 ^ 32), .kvUnmap badH 0 0 0, .kvUnmap pf (2 ^ 32) 0 0, .kvUnmap pf 0 (2 ^ 32) 0, .kvUnmap pf 0 0 (2 ^ 32),
    .kvDemote badH 0 0 0, .kvDemote pf (2 ^ 32) 0 0, .kvDemote pf 0 (2 ^ 32) 0, .kvDemote pf 0 0 (2 ^ 32), .kvPromote badH 0 0 0, .kvPromote pf (2 ^ 32) 0 0,
    .kvPromote pf 0 (2 ^ 32) 0, .kvPromote pf 0 0 (2 ^ 32), .kvDrop badH 0 0 0, .kvDrop pf (2 ^ 32) 0 0, .kvDrop pf 0 (2 ^ 32) 0, .kvDrop pf 0 0 (2 ^ 32),
    .kvScatter badH, .decodeStep badH 0 0 0 0 0 0 0 0 (List.replicate 16 0) [], .decodeStep pf (2 ^ 64) 0 0 0 0 0 0 0 (List.replicate 16 0) [],
    .decodeStep pf 0 (2 ^ 64) 0 0 0 0 0 0 (List.replicate 16 0) [], .decodeStep pf 0 0 (2 ^ 32) 0 0 0 0 0 (List.replicate 16 0) [],
    .decodeStep pf 0 0 0 (2 ^ 16) 0 0 0 0 (List.replicate 16 0) [], .decodeStep pf 0 0 0 0 (2 ^ 8) 0 0 0 (List.replicate 16 0) [],
    .decodeStep pf 0 0 0 0 0 (2 ^ 8) 0 0 (List.replicate 16 0) [], .decodeStep pf 0 0 0 0 0 0 (2 ^ 8) 0 (List.replicate 16 0) [],
    .decodeStep pf 0 0 0 0 0 0 0 (2 ^ 8) (List.replicate 16 0) [], .decodeStep pf 0 0 0 0 0 0 0 0 [] [], .decodeStep pf 0 0 0 0 0 0 0 0 (List.replicate 16 (2 ^ 32)) []] : List Instr).all (fun i => !i.wf) = true := by decide +kernel
theorem test_wellFormed_admits_1 : ([
    .paddockAssign pf 0 0 0 0 [], .paddockConfig pf 0, .paddockRelease pf, .scheduleLoad pf 0 0 0 [], .scheduleRun pf 0 (List.replicate 16 0), .scheduleUnload pf 0,
    .rotaryTableLoad pf 0 0 [], .ctxCreate pf 0 0 0 0 0 0 0 0 0 0, .ctxDestroy pf 0, .ctxSet pf 0 0 0 0 0 0, .ctxRead pf 0 0, .ctxPlace pf 0 0, .ctxPlaceDrained pf,
    .kvPoolAdd pf 0 0, .kvPoolRemove pf 0 0, .kvMap pf 0 0 0 0, .kvUnmap pf 0 0 0, .kvDemote pf 0 0 0, .kvPromote pf 0 0 0, .kvDrop pf 0 0 0, .kvScatter pf,
    .decodeStep pf 0 0 0 0 0 0 0 0 (List.replicate 16 0) []] : List Instr).all Instr.wf = true := by decide +kernel
/-- Each of these breaks one check of its command. -/
theorem test_wellFormed_refuses_2 : ([
    .tableDefine badH 0 0 0 0 0 0 0 0 0, .tableDefine pf (2 ^ 8) 0 0 0 0 0 0 0 0, .tableDefine pf 0 (2 ^ 8) 0 0 0 0 0 0 0, .tableDefine pf 0 0 (2 ^ 8) 0 0 0 0 0 0,
    .tableDefine pf 0 0 0 (2 ^ 8) 0 0 0 0 0, .tableDefine pf 0 0 0 0 (2 ^ 8) 0 0 0 0, .tableDefine pf 0 0 0 0 0 (2 ^ 64) 0 0 0, .tableDefine pf 0 0 0 0 0 0 (2 ^ 64) 0 0,
    .tableDefine pf 0 0 0 0 0 0 0 (2 ^ 64) 0, .tableDefine pf 0 0 0 0 0 0 0 0 (2 ^ 64), .tableRetire badH 0 0 0, .tableRetire pf (2 ^ 8) 0 0, .tableRetire pf 0 (2 ^ 8) 0,
    .tableRetire pf 0 0 (2 ^ 8), .tableRead badH 0 0, .tableRead pf (2 ^ 8) 0, .tableRead pf 0 (2 ^ 64), .hbmPower badH 0 0 0, .hbmPower pf (2 ^ 8) 0 0,
    .hbmPower pf 0 (2 ^ 8) 0, .hbmPower pf 0 0 (2 ^ 16), .hbmPowerDownDrained badH, .hbmPowerDownTimeout badH, .hbmMargin badH 0 0 0 0 0 0 0,
    .hbmMargin pf (2 ^ 8) 0 0 0 0 0 0, .hbmMargin pf 0 (2 ^ 8) 0 0 0 0 0, .hbmMargin pf 0 0 (2 ^ 8) 0 0 0 0, .hbmMargin pf 0 0 0 (2 ^ 16) 0 0 0,
    .hbmMargin pf 0 0 0 0 (2 ^ 16) 0 0, .hbmMargin pf 0 0 0 0 0 (2 ^ 32) 0, .hbmMargin pf 0 0 0 0 0 0 (2 ^ 64), .keyRotate badH,
    .memRawWrite badH 0 0 0 0 (List.replicate 64 0), .memRawWrite pf (2 ^ 8) 0 0 0 (List.replicate 64 0), .memRawWrite pf 0 (2 ^ 8) 0 0 (List.replicate 64 0),
    .memRawWrite pf 0 0 (2 ^ 8) 0 (List.replicate 64 0), .memRawWrite pf 0 0 0 (2 ^ 32) (List.replicate 64 0), .memRawWrite pf 0 0 0 0 [], .memRawRead badH 0 0 0 0,
    .memRawRead pf (2 ^ 8) 0 0 0, .memRawRead pf 0 (2 ^ 8) 0 0, .memRawRead pf 0 0 (2 ^ 8) 0, .memRawRead pf 0 0 0 (2 ^ 64), .hostWindowSet badH 0 0 0 0 0,
    .hostWindowSet pf (2 ^ 16) 0 0 0 0, .hostWindowSet pf 0 (2 ^ 8) 0 0 0, .hostWindowSet pf 0 0 (2 ^ 32) 0 0, .hostWindowSet pf 0 0 0 (2 ^ 64) 0,
    .hostWindowSet pf 0 0 0 0 (2 ^ 64), .nopCommand badH, .quiesce badH 0, .quiesce pf (2 ^ 32), .quiesceComplete badH, .quiesceTimeout badH, .abort badH 0,
    .abort pf (2 ^ 8), .abortComplete badH, .copy badH 0 0 0, .copy pf (2 ^ 64) 0 0, .copy pf 0 (2 ^ 64) 0, .copy pf 0 0 (2 ^ 64), .fill badH 0 0 0,
    .fill pf (2 ^ 64) 0 0, .fill pf 0 (2 ^ 64) 0, .fill pf 0 0 (2 ^ 64), .copyFillComplete badH [] 0 none,
    .tdmWrite badH 0 0 0 (List.replicate 64 0) (List.replicate 80 0), .tdmWrite pf (2 ^ 8) 0 0 (List.replicate 64 0) (List.replicate 80 0),
    .tdmWrite pf 0 (2 ^ 8) 0 (List.replicate 64 0) (List.replicate 80 0), .tdmWrite pf 0 0 (2 ^ 16) (List.replicate 64 0) (List.replicate 80 0),
    .tdmWrite pf 0 0 0 [] (List.replicate 80 0), .tdmWrite pf 0 0 0 (List.replicate 64 (2 ^ 8)) (List.replicate 80 0), .tdmWrite pf 0 0 0 (List.replicate 64 0) [],
    .tdmWrite pf 0 0 0 (List.replicate 64 0) (List.replicate 80 (2 ^ 8)), .portUp badH 0, .portUp pf (2 ^ 8)] : List Instr).all (fun i => !i.wf) = true := by decide +kernel
theorem test_wellFormed_admits_2 : ([
    .tableDefine pf 0 0 0 0 0 0 0 0 0, .tableRetire pf 0 0 0, .tableRead pf 0 0, .hbmPower pf 0 0 0, .hbmPowerDownDrained pf, .hbmPowerDownTimeout pf,
    .hbmMargin pf 0 0 0 0 0 0 0, .keyRotate pf, .memRawWrite pf 0 0 0 0 (List.replicate 64 0), .memRawRead pf 0 0 0 0, .hostWindowSet pf 0 0 0 0 0, .nopCommand pf,
    .quiesce pf 0, .quiesceComplete pf, .quiesceTimeout pf, .abort pf 0, .abortComplete pf, .copy pf 0 0 0, .fill pf 0 0 0, .copyFillComplete pf [] 0 none,
    .tdmWrite pf 0 0 0 (List.replicate 64 0) (List.replicate 80 0), .portUp pf 0] : List Instr).all Instr.wf = true := by decide +kernel
/-- Each of these breaks one check of its command. -/
theorem test_wellFormed_refuses_3 : ([
    .portDownCommand badH 0, .portDownCommand pf (2 ^ 8), .portIdle badH 0, .portIdle pf (2 ^ 8), .portRekey badH 0, .portRekey pf (2 ^ 8), .portTime badH 0 0,
    .portTime pf (2 ^ 8) 0, .portTime pf 0 (2 ^ 8), .portRetireLane badH 0 0, .portRetireLane pf (2 ^ 8) 0, .portRetireLane pf 0 (2 ^ 8), .portEncrypt badH 0 0,
    .portEncrypt pf (2 ^ 8) 0, .portEncrypt pf 0 (2 ^ 8), .portWake badH 0, .portWake pf (2 ^ 8), .linkMargin badH 0 0 0 0 0 0 0, .linkMargin pf (2 ^ 8) 0 0 0 0 0 0,
    .linkMargin pf 0 (2 ^ 8) 0 0 0 0 0, .linkMargin pf 0 0 (2 ^ 8) 0 0 0 0, .linkMargin pf 0 0 0 (2 ^ 8) 0 0 0, .linkMargin pf 0 0 0 0 (2 ^ 16) 0 0,
    .linkMargin pf 0 0 0 0 0 (2 ^ 16) 0, .linkMargin pf 0 0 0 0 0 0 (2 ^ 64), .routeWrite badH 0 0 0 0 [], .routeWrite pf (2 ^ 8) 0 0 0 [],
    .routeWrite pf 0 (2 ^ 8) 0 0 [], .routeWrite pf 0 0 (2 ^ 8) 0 [], .routeWrite pf 0 0 0 (2 ^ 16) [], .routeWrite pf 0 0 0 0 [(0, 0, 256)],
    .rankWrite badH 0 0 0 0 0 [], .rankWrite pf (2 ^ 8) 0 0 0 0 [], .rankWrite pf 0 (2 ^ 8) 0 0 0 [], .rankWrite pf 0 0 (2 ^ 8) 0 0 [], .rankWrite pf 0 0 0 (2 ^ 8) 0 [],
    .rankWrite pf 0 0 0 0 (2 ^ 16) [], .rankWrite pf 0 0 0 0 0 [2 ^ 64], .rankWriteDrainDone badH, .mirrorSet badH 0 0 0 0, .mirrorSet pf (2 ^ 8) 0 0 0,
    .mirrorSet pf 0 (2 ^ 16) 0 0, .mirrorSet pf 0 0 (2 ^ 32) 0, .mirrorSet pf 0 0 0 (2 ^ 16), .pageServerSet badH 0, .pageServerSet pf (2 ^ 8),
    .fwStage badH 0 0 0 .poison, .fwStage pf (2 ^ 64) 0 0 .poison, .fwStage pf 0 (2 ^ 32) 0 .poison, .fwStage pf 0 0 (2 ^ 8) .poison, .fwActivate badH 0,
    .fwActivate pf (2 ^ 8), .debugChallenge badH 0, .debugChallenge pf (2 ^ 64), .debugResponse badH 0 0 0 0 .poison .poison .poison,
    .debugResponse pf (2 ^ 8) 0 0 0 .poison .poison .poison, .debugResponse pf 0 (2 ^ 64) 0 0 .poison .poison .poison,
    .debugResponse pf 0 0 (2 ^ 64) 0 .poison .poison .poison, .debugResponse pf 0 0 0 (2 ^ 64) .poison .poison .poison, .counterRead badH 0 0, .counterRead pf (2 ^ 8) 0,
    .counterRead pf 0 (2 ^ 64), .haltDump badH 0 0, .haltDump pf (2 ^ 64) 0, .haltDump pf 0 (2 ^ 32), .dumpConfig badH 0 0 0, .dumpConfig pf (2 ^ 8) 0 0,
    .dumpConfig pf 0 (2 ^ 64) 0, .dumpConfig pf 0 0 (2 ^ 32), .selfTest badH 0 0, .selfTest pf (2 ^ 8) 0, .selfTest pf 0 (2 ^ 16), .selfTestComplete badH [] []] : List Instr).all (fun i => !i.wf) = true := by decide +kernel
theorem test_wellFormed_admits_3 : ([
    .portDownCommand pf 0, .portIdle pf 0, .portRekey pf 0, .portTime pf 0 0, .portRetireLane pf 0 0, .portEncrypt pf 0 0, .portWake pf 0, .linkMargin pf 0 0 0 0 0 0 0,
    .routeWrite pf 0 0 0 0 [], .rankWrite pf 0 0 0 0 0 [], .rankWriteDrainDone pf, .mirrorSet pf 0 0 0 0, .pageServerSet pf 0, .fwStage pf 0 0 0 .poison,
    .fwActivate pf 0, .debugChallenge pf 0, .debugResponse pf 0 0 0 0 .poison .poison .poison, .counterRead pf 0 0, .haltDump pf 0 0, .dumpConfig pf 0 0 0,
    .selfTest pf 0 0, .selfTestComplete pf [] []] : List Instr).all Instr.wf = true := by decide +kernel
/-- Each of these breaks one check of its command. -/
theorem test_wellFormed_refuses_4 : ([
    .hbmPowerUpDone badH, .hbmMarginComplete badH [], .linkMarginComplete badH [], .fwStageComplete badH, .fwActivateRestartDone badH [], .registerWrite 0 (2 ^ 64) 0 0,
    .registerWrite 0 0 (2 ^ 16) 0, .wrongWidthAccess 0 (2 ^ 64) 0 false, .wrongWidthAccess 0 0 (2 ^ 16) false, .reservedOffsetAccess 0 (2 ^ 64) 0 false,
    .reservedOffsetAccess 0 0 (2 ^ 16) false, .resetComplete (2 ^ 4) 0, .resetComplete 0 (2 ^ 6), .patrolRead 0 0 (some (16, false)),
    .patrolForced 0 0 (some (16, false)), .ceLimitWrite 0 (2 ^ 4), .waitDefaultUsWrite 0 (2 ^ 20), .budDcfgWrite 0 (2 ^ 10) 0, .budDcfgWrite 0 0 (2 ^ 12),
    .matrixTile ⟨0, 0, false⟩ [⟨0, 16, false⟩], .tileClaim 0 [(0, 2 ^ 32)], .kvAppendHandoff 0 [(0, 2 ^ 32)], .chkTWrite 0 (2 ^ 5), .elem ⟨0, 0, false⟩ [⟨0, 16, false⟩],
    .elemRowWrite 0 (some (0, 128, 0)), .elemOneRowWrite 0 (some (0, 128, 0)), .attnQkTile 0 [(0, 2 ^ 32)]] : List Instr).all (fun i => !i.wf) = true := by decide +kernel
theorem test_wellFormed_admits_4 : ([
    .hbmPowerUpDone pf, .hbmMarginComplete pf [], .linkMarginComplete pf [], .fwStageComplete pf, .fwActivateRestartDone pf [], .registerWrite 0 0 0 0,
    .wrongWidthAccess 0 0 0 false, .reservedOffsetAccess 0 0 0 false, .resetComplete 0 0, .patrolRead 0 0 none, .patrolForced 0 0 none, .ceLimitWrite 0 0,
    .waitDefaultUsWrite 0 0, .budDcfgWrite 0 0 0, .matrixTile ⟨0, 0, false⟩ [], .tileClaim 0 [], .kvAppendHandoff 0 [], .chkTWrite 0 0, .elem ⟨0, 0, false⟩ [],
    .elemRowWrite 0 none, .elemOneRowWrite 0 none, .attnQkTile 0 []] : List Instr).all Instr.wf = true := by decide +kernel
/-- Each of these breaks one check of its command. -/
theorem test_wellFormed_refuses_5 : ([
    .attnPvTile 0 [(0, 2 ^ 32)], .kvAppend ⟨0, 0, false⟩ [⟨0, 16, false⟩], .ctxCfgWrite 0 (2 ^ 64), .ctxFarcfgWrite 0 (2 ^ 64),
    .lineTransactionComplete 0 0 .poison [⟨8, false, 0⟩], .hbmTemperatureRead [], .hbmTemperatureRead (List.replicate 8 (2 ^ 8)), .calPeriodMsWrite (2 ^ 64),
    .mowerDemandVisit 0 [⟨8, false, 0⟩] [], .mowerDemandVisit 0 [] [2 ^ 3], .scrubLine 0 [(0, ⟨8, false, 0⟩)] [], .scrubLine 0 [] [(16, 0)], .linePatch 0 [2 ^ 3],
    .rekeyLine 0 [⟨8, false, 0⟩] [], .rekeyLine 0 [] [2 ^ 3], .mowCfgWrite 0 (2 ^ 64), .farSlotWrite 0 0 (2 ^ 64),
    .translationCompletion 0 (some (2 ^ 20)) 0 0 false false, .translationCompletion 0 none (2 ^ 64) 0 false false, .translationCompletion 0 none 0 (2 ^ 64) false false,
    .atsInvalidationRequest 0 (some (2 ^ 20)) 0 0, .atsInvalidationRequest 0 none (2 ^ 64) 0, .atsInvalidationRequest 0 none 0 (2 ^ 64),
    .invalidationComplete 0 (some (2 ^ 20)) 0 0, .invalidationComplete 0 none (2 ^ 64) 0, .invalidationComplete 0 none 0 (2 ^ 64), .translationTimeout 0 0 (2 ^ 12),
    .hostCompletionError (.inbound 0 0) (2 ^ 12) 0, .hostCompletionError (.inbound 0 0) 0 (2 ^ 64), .xlateTimeoutMsWrite 0 (2 ^ 64), .queueBaseWrite 0 .pqBase (2 ^ 64),
    .sqTailDoorbell 0 0 (2 ^ 16), .cqHeadDoorbell 0 0 (2 ^ 16)] : List Instr).all (fun i => !i.wf) = true := by decide +kernel
theorem test_wellFormed_admits_5 : ([
    .attnPvTile 0 [], .kvAppend ⟨0, 0, false⟩ [], .ctxCfgWrite 0 0, .ctxFarcfgWrite 0 0, .lineTransactionComplete 0 0 .poison [],
    .hbmTemperatureRead (List.replicate 8 0), .calPeriodMsWrite 0, .mowerDemandVisit 0 [] [], .scrubLine 0 [] [], .linePatch 0 [], .rekeyLine 0 [] [], .mowCfgWrite 0 0,
    .farSlotWrite 0 0 0, .translationCompletion 0 none 0 0 false false, .atsInvalidationRequest 0 none 0 0, .invalidationComplete 0 none 0 0, .translationTimeout 0 0 0,
    .hostCompletionError (.inbound 0 0) 0 0, .xlateTimeoutMsWrite 0 0, .queueBaseWrite 0 .pqBase 0, .sqTailDoorbell 0 0 0, .cqHeadDoorbell 0 0 0] : List Instr).all Instr.wf = true := by decide +kernel
/-- Each of these breaks one check of its command. -/
theorem test_wellFormed_refuses_6 : ([
    .pqTailDoorbell 0 (2 ^ 16), .pcqHeadDoorbell 0 (2 ^ 16), .eqHeadDoorbell 0 (2 ^ 16), .retrainSequenceReceive 0 (2 ^ 9), .capsReceive 0 badM,
    .spdmFragmentReceive 0 badM, .idleMessageReceive 0 badM, .keyReadyReceive 0 badM, .timeMessageReceive 0 badM 0, .portDown 0 [2 ^ 4], .plkCfgWrite 0 (2 ^ 32),
    .writeMover ⟨0, 0, false⟩ [⟨0, 16, false⟩], .push ⟨0, 0, false⟩ [⟨0, 16, false⟩], .writeMessageReceive none badM, .pushMessageReceive none badM,
    .appendMessageReceive none badM, .readReqReceive none badM, .readDataReceive none badM, .pageReqReceive none badM, .ackReceive none badM, .stopReceive none badM,
    .mirrorReceive 0 badM] : List Instr).all (fun i => !i.wf) = true := by decide +kernel
theorem test_wellFormed_admits_6 : ([
    .pqTailDoorbell 0 0, .pcqHeadDoorbell 0 0, .eqHeadDoorbell 0 0, .retrainSequenceReceive 0 0, .capsReceive 0 msg0, .spdmFragmentReceive 0 msg0,
    .idleMessageReceive 0 msg0, .keyReadyReceive 0 msg0, .timeMessageReceive 0 msg0 0, .portDown 0 [], .plkCfgWrite 0 0, .writeMover ⟨0, 0, false⟩ [],
    .push ⟨0, 0, false⟩ [], .writeMessageReceive none msg0, .pushMessageReceive none msg0, .appendMessageReceive none msg0, .readReqReceive none msg0,
    .readDataReceive none msg0, .pageReqReceive none msg0, .ackReceive none msg0, .stopReceive none msg0, .mirrorReceive 0 msg0] : List Instr).all Instr.wf = true := by decide +kernel
/-- Each of these breaks one check of its command. -/
theorem test_wellFormed_refuses_7 : ([
    .mirrorBeatReceive 0 badM, .transitForward 0 0 badM, .devIdWrite (2 ^ 8), .getReport ⟨0, 0⟩ (2 ^ 8) (List.replicate 32 0), .getReport ⟨0, 0⟩ 0 [],
    .getMeasurements ⟨0, 0⟩ [], .keyProg ⟨0, 0⟩ 0 0 0 0 [], .startInterfaceRequest ⟨0, 0⟩ 0 [], .tdiConfigWrite 0 .bar0 (2 ^ 64), .ownerProvision ⟨0, 0⟩ [],
    .coreSelWrite (2 ^ 64), .configurationWrite 0 .bar0 (2 ^ 64), .hostLinkRetrain false (2 ^ 4) 0, .hostLinkRetrain false 0 (2 ^ 6)] : List Instr).all (fun i => !i.wf) = true := by decide +kernel
theorem test_wellFormed_admits_7 : ([
    .mirrorBeatReceive 0 msg0, .transitForward 0 0 msg0, .devIdWrite 0, .getReport ⟨0, 0⟩ 0 (List.replicate 32 0), .getMeasurements ⟨0, 0⟩ (List.replicate 32 0),
    .keyProg ⟨0, 0⟩ 0 0 0 0 (List.replicate 32 0), .startInterfaceRequest ⟨0, 0⟩ 0 (List.replicate 32 0), .tdiConfigWrite 0 .bar0 0,
    .ownerProvision ⟨0, 0⟩ (List.replicate 48 0), .coreSelWrite 0, .configurationWrite 0 .bar0 0, .hostLinkRetrain false 0 0] : List Instr).all Instr.wf = true := by decide +kernel

/-! ### Worked examples and tables of the spec -/

/-- 13_hbm_and_address_map.md, one KV page in paddock 5. -/
theorem test_channel_of_page : (List.range 16).map (fun k => channelOf (0x1E12340000 + 0x800 * k)) =
      [94, 95, 92, 93, 90, 91, 88, 89, 86, 87, 84, 85, 82, 83, 80, 81] ∧ (∀ k < 16, channelOffset (0x1E12340000 + 0x800 * k) = 0x1234000) ∧
    dpaOf 5 (0x2468 * 0x8000) = 0x1E12340000 := by decide +kernel
/-- The same chapter: the first 2 KiB of pages 0x2460 to 0x246F lie on channels j ⊕ 6. -/
theorem test_channel_stride : ∀ j < 16, channelOf (dpaOf 5 ((0x2460 + j) * 0x8000)) = 80 + Nat.xor j 6 := by decide +kernel
/-- 02_core_and_shelf_store.md, R44 and the drawer that streams with a lag of 32, not of 33. -/
theorem test_shelf_banks : bankOf 0 = 0 ∧ bankOf 33 = 0 ∧ bankOf 8192 = 8 ∧ bankOf 8224 = 9 ∧ bankOf (8192 + 33) = bankOf 8192 ∧
    (List.range 512).all (fun s => bankOf (8192 + s) != bankOf (8192 + (s + 480) % 512)) = true := by decide +kernel
/-- 15_far_tier.md, where paddock 3's far pages lie. -/
theorem test_far_pages : ∀ s, s = ((demo.wr F.FAR_PEXT_BASE0 3 128).wr F.FAR_PEXT_SIZE0 3 256).wr F.FAR_PEXT_SIZE1 3 512 →
    s.farMap 3 0x28000 = some (0, 0x800028000) ∧ s.farMap 3 0xFFFFF8000 = some (0, 0x17FFFF8000) ∧ s.farMap 3 0x1000000000 = some (1, 0) ∧
    s.farMap 3 (768 * 0x10000000) = none := by intro s h; subst h; decide +kernel
/-- 14_stored_data_integrity.md, a one-symbol error, the poison mark and an error beyond correction. -/
def zeros64 : List Byte := List.replicate 64 0
theorem test_sector_outcomes : sectorOutcome zeros64 0 = (0, 0) ∧ syndromes (zeros64.set 10 1) 0 = (1, 0x80) ∧ sectorOutcome (zeros64.set 10 1) 0 = (1, 7) ∧
    sectorDecoded (zeros64.set 10 1) 0 = zeros64 ∧ sectorOutcome zeros64 0x5EA55EA5 = (3, 0) ∧ syndromes zeros64 0x5EA45EA5 = (1, 0xE3ED) ∧
    sectorOutcome zeros64 0x5EA45EA5 = (2, 0) := by decide +kernel
/-- 06_number_formats.md, quantising one MXFP4 block: 15.0, -6.3, 2.5, 1.3 and -0.3 under scale mode 0, and E under scale mode 1. -/
theorem test_mxfp4_block : ∀ l, l = [f32 0x41700000, f32 0xC0C9999A, f32 0x40200000, f32 0x3FA66666, f32 0xBE99999A] → mxExp 7 0 l = 1 ∧ mxExp 7 1 l = 2 ∧
    l.map (fun v => e2m1.write false false (v.scale (-1))) = [(7, .sat), (0xD, .plain), (2, .plain), (1, .plain), (0, .flush)] := by
  intro l h; subst h; decide +kernel
/-- 17_command_packets.md, aborting a stuck run: the CQ record of CID 0x012, PHASE 1, status 0x0607 and FLUSH_COUNT 3. -/
theorem test_completion_record : ((completionRecord 1 0x012 0x607 0 3).take 4 = [0x12, 0x80, 0x07, 0x06]) ∧ (completionRecord 1 0x012 0x607 0 (3 * 2 ^ 32)).length = 32 := by
  decide +kernel
/-- 05_sync_cells_and_stiles.md, a reused stile: VE, IN0 and IN1 claim with MASK 0x032, arrive, and the phase completes. -/
def claimed3 : State := ((demo.stileClaim 20 1 4 0x032 0 true).stileClaim 20 1 5 0x032 1 true).stileClaim 20 1 1 0x032 2 false
theorem test_stile_claims : claimed3.rd F.SYN_STILE_MASK 20 1 = 0x032 ∧ claimed3.rd F.SYN_STILE_CLAIMED 20 1 = 0x032 ∧ claimed3.rd F.SYN_STILE_LOCAL 20 1 = 0x032 ∧
    claimed3.rd F.SYN_STILE_SENSE 20 1 = 0 := by decide +kernel
theorem test_stile_completes : ∀ s, s = ((claimed3.stileArrive 20 1 1 2 false).stileArrive 20 1 4 0 true) → s.rd F.SYN_STILE_ARRIVED 20 1 = 0x012 ∧ s.rd F.SYN_STILE_SENSE 20 1 = 0 ∧
    ∀ t, t = s.stileArrive 20 1 5 1 true → t.rd F.SYN_STILE_SENSE 20 1 = 1 ∧ t.rd F.SYN_STILE_MASK 20 1 = 0 ∧ t.rd F.SYN_STILE_CLAIMED 20 1 = 0 ∧
      t.rd F.SYN_STILE_ARRIVED 20 1 = 0 ∧ t.rd F.SYN_STILE_LOCAL 20 1 = 0x032 := by
  intro s h; subst h
  refine ⟨by decide +kernel, by decide +kernel, ?_⟩
  intro t h; subst h; decide +kernel
/-- R137 (05_sync_cells_and_stiles.md): ADD, SET and OR of a cell; R215 (07_matrix_engine.md): CHK_T is clamped to 7 to 18. -/
theorem test_cell_ops : ∀ s, s = demo.wr F.SYN_VAL_VALUE 3 0x0F 7 → (s.signalCell 3 7 0 1 0 0 false).rd F.SYN_VAL_VALUE 3 7 = 0x10 ∧
    (s.signalCell 3 7 1 5 0 0 false).rd F.SYN_VAL_VALUE 3 7 = 5 ∧ (s.signalCell 3 7 2 0xF0 0 0 false).rd F.SYN_VAL_VALUE 3 7 = 0xFF := by
  intro s h; subst h; decide +kernel
/-- R113 (03_schedule_contract.md) and R76 (02_core_and_shelf_store.md): WAIT_DEFAULT_US is 1 to 1,000,000 and CE_LIMIT is never 0. -/
theorem test_clamped_writes : (∃ t, exec (.waitDefaultUsWrite 0 0) demo = .next t ∧ t.rd F.SCH_PCTL_WAIT_DEFAULT_US 0 = 1) ∧
    (∃ t, exec (.waitDefaultUsWrite 0 1048575) demo = .next t ∧ t.rd F.SCH_PCTL_WAIT_DEFAULT_US 0 = 1000000) ∧
    (∃ t, exec (.ceLimitWrite 0 0) demo = .next t ∧ t.rd F.DRW_SHELF_CFG_CE_LIMIT 0 = 1) := by
  refine ⟨⟨_, rfl, ?_⟩, ⟨_, rfl, ?_⟩, ⟨_, rfl, ?_⟩⟩ <;> decide +kernel
/-- An empty queue idles: the clock moves, and nothing else is taken (log entry 2); a command in front is taken and leaves the queue. -/
theorem test_step_takes_front : ∃ t, step { demo with pending := [.refusedClear, .killNDeassert] } = .next t ∧ t.pending = [.killNDeassert] := by
  exact ⟨_, rfl, by decide +kernel⟩

end Tests

end Sys2Proof
end

section
/-! PROOFS. The frame of the operations that leave a paddock's life cycle alone (chapter 01): completions, events, the steps of a
handover and of a release keep PDK_STATE, PDK_QUOTA, the memories and the handovers in progress. -/

namespace Sys2Proof.Machine

/-- PDK_STATE and PDK_QUOTA (fields 0 to 9), the memories and the handovers in progress are the same. -/
structure PdkFrame (s t : State) : Prop where
  rd : ∀ (g : Fld) (i j : Nat), g.id < 10 → t.rd g i j = s.rd g i j
  mem : t.mem = s.mem
  hand : t.hand = s.hand

theorem State.rd_congr {s t : State} (h : t.regs = s.regs) (g : Fld) (i j : Nat) : t.rd g i j = s.rd g i j := by
  unfold State.rd
  rw [h]

namespace PdkFrame

variable {s₀ s t : State}

theorem refl (s : State) : PdkFrame s s := ⟨fun _ _ _ _ => rfl, rfl, rfl⟩

theorem pdkState (h : PdkFrame s t) (p : Nat) : t.pdkState p = s.pdkState p := h.rd _ _ _ (by decide)

theorem role (h : PdkFrame s t) (p : Nat) : t.role p = s.role p := h.rd _ _ _ (by decide)

/-- A change beside the registers, the memories and the handovers. -/
theorem beside (h : PdkFrame s₀ s) (hr : t.regs = s.regs) (hm : t.mem = s.mem) (hh : t.hand = s.hand) : PdkFrame s₀ t :=
  ⟨fun g i j hg => (State.rd_congr hr g i j).trans (h.rd g i j hg), hm.trans h.mem, hh.trans h.hand⟩

theorem wr (h : PdkFrame s₀ s) {f : Fld} {i v j : Nat} (hf : 10 ≤ f.id) : PdkFrame s₀ (s.wr f i v j) :=
  ⟨fun g i' j' hg => (State.rd_wr_fld (by omega)).trans (h.rd g i' j' hg), h.mem, h.hand⟩

theorem bump (h : PdkFrame s₀ s) {f : Fld} {i j n : Nat} (hf : 10 < f.id) : PdkFrame s₀ (s.bump f i j n) :=
  ⟨fun g i' j' hg => (State.rd_bump_fld (by omega) (by omega)).trans (h.rd g i' j' hg),
    (State.bump_mem ..).trans h.mem, (State.bump_hand ..).trans h.hand⟩

theorem ite {c : Prop} [Decidable c] (ha : PdkFrame s₀ s) (hb : PdkFrame s₀ t) : PdkFrame s₀ (if c then s else t) := by
  split <;> assumption

theorem foldl {α : Type} {l : List α} {f : State → α → State} (h : PdkFrame s₀ s)
    (hf : ∀ u x, PdkFrame s₀ u → PdkFrame s₀ (f u x)) : PdkFrame s₀ (l.foldl f s) := by
  induction l generalizing s with
  | nil => exact h
  | cons x l ih => exact ih (hf s x h)

theorem foldl_fst {α β : Type} {r : State × β} {l : List α} {f : State × β → α → State × β} (h : PdkFrame s₀ r.1)
    (hf : ∀ u x, PdkFrame s₀ u.1 → PdkFrame s₀ (f u x).1) : PdkFrame s₀ (l.foldl f r).1 := by
  induction l generalizing r with
  | nil => exact h
  | cons x l ih => exact ih (hf r x h)

theorem loopN {n : Nat} {f : Nat → State → State} (h : PdkFrame s₀ s) (hf : ∀ i u, PdkFrame s₀ u → PdkFrame s₀ (f i u)) :
    PdkFrame s₀ (loopN n f s) := h.foldl (fun u i => hf i u)

/-! ### Completions and events -/

theorem msix (h : PdkFrame s₀ s) (fn v : Nat) : PdkFrame s₀ (s.msix fn v) :=
  h.beside (State.msix_regs ..) (State.msix_mem ..) (State.msix_hand ..)

theorem dropTaken (h : PdkFrame s₀ s) (x : Hdr) : PdkFrame s₀ (s.dropTaken x) := by
  unfold State.dropTaken
  split
  · exact h
  · have ht : ∀ l, PdkFrame s₀ { s with taken := l } := fun l => h.beside rfl rfl rfl
    have hw : ∀ l n, PdkFrame s₀ (({ s with taken := l } : State).wr F.CMQ_SQ_HEAD_OUTSTANDING x.fn.val n x.q.val) :=
      fun l n => (ht l).wr (by decide)
    exact (ht _).ite (((hw ..).wr (by decide)).ite (hw ..))

theorem advanceCq (h : PdkFrame s₀ s) (fn q : Nat) : PdkFrame s₀ (s.advanceCq fn q) := by
  unfold State.advanceCq
  exact ((h.wr (by decide)).wr (by decide)).ite ((h.wr (by decide)).wr (by decide))

theorem complete (h : PdkFrame s₀ s) (x : Hdr) (status result num : Nat) (keep : Bool) :
    PdkFrame s₀ (s.complete x status result num keep) := by
  unfold State.complete
  extract_lets a fn q r b c d e
  have ha : PdkFrame s₀ a := h.dropTaken x
  have hb : PdkFrame s₀ b := ha.beside rfl rfl rfl
  have hd : PdkFrame s₀ d := (hb.advanceCq ..).bump (by decide)
  have he : PdkFrame s₀ e := (hd.bump (by decide)).ite hd
  exact ha.ite (he.ite (he.msix ..))

theorem event (h : PdkFrame s₀ s) (fn code status detail pdk : Nat) : PdkFrame s₀ (s.event fn code status detail pdk) := by
  unfold State.event
  extract_lets a _ lost d t ph b _ c t' e g
  have ha : PdkFrame s₀ a := h.bump (by decide)
  have hc : PdkFrame s₀ c := h.beside rfl rfl rfl
  have he : PdkFrame s₀ e := hc.wr (by decide)
  have hg : PdkFrame s₀ g := (he.wr (by decide)).ite he
  refine h.ite (PdkFrame.ite ?_ (hg.msix ..))
  exact ha.beside rfl rfl rfl

theorem eventBoth (h : PdkFrame s₀ s) (p code status detail : Nat) : PdkFrame s₀ (s.eventBoth p code status detail) :=
  (h.event ..).event ..

theorem start (h : PdkFrame s₀ s) (x : Hdr) (op : Nat) (cmd : Option Instr) (prog : List Nat) :
    PdkFrame s₀ (s.start x op cmd prog) := by
  unfold State.start
  split
  · exact h.beside rfl rfl rfl
  · have ha : ∀ l, PdkFrame s₀ { s with taken := l } := fun l => h.beside rfl rfl rfl
    exact (ha _).ite (((ha _).wr (by decide)).wr (by decide))

/-! ### Drawers, and what ends a handover -/

theorem resetDrawer (h : PdkFrame s₀ s) (c d : Nat) : PdkFrame s₀ (s.resetDrawer c d) := by
  unfold State.resetDrawer
  refine PdkFrame.wr (PdkFrame.wr (PdkFrame.wr (PdkFrame.wr ?_ ?_) ?_) ?_) ?_
  · exact h.beside rfl rfl rfl
  all_goals decide

theorem setDrawer63 (h : PdkFrame s₀ s) (p role : Nat) : PdkFrame s₀ (s.setDrawer63 p role) := by
  refine h.loopN (fun i u hu => ?_)
  have hr := hu.resetDrawer (8 * p + i) 63
  exact (((((hr.wr (by decide)).wr (by decide)).wr (by decide)).wr (by decide)).wr (by decide)).ite
    (((((hr.wr (by decide)).wr (by decide)).wr (by decide)).wr (by decide)).wr (by decide))

theorem endReleases (h : PdkFrame s₀ s) : PdkFrame s₀ s.endReleases := h.foldl (fun _ _ hu => hu.complete ..)

theorem endStop (h : PdkFrame s₀ s) (p : Nat) : PdkFrame s₀ (s.endStop p) := by
  unfold State.endStop
  extract_lets n a _ b
  have ha : PdkFrame s₀ a := h.wr (by decide)
  have hb : PdkFrame s₀ b := ha.beside rfl rfl rfl
  have hc : PdkFrame s₀ (b.wr F.RTP_TDI_STATE_STATE n 0) := hb.wr (by decide)
  refine PdkFrame.ite ?_ ha
  exact hc.beside rfl rfl rfl

/-! ### What a handover stops -/

theorem stopCores (h : PdkFrame s₀ s) (p : Nat) : PdkFrame s₀ (s.stopCores p) := h.beside rfl rfl rfl

theorem stopWalks (h : PdkFrame s₀ s) (p : Nat) : PdkFrame s₀ (s.stopWalks p) := h.beside rfl rfl rfl

theorem endCommands (h : PdkFrame s₀ s) (p : Nat) : PdkFrame s₀ (s.endCommands p) :=
  h.foldl (fun _ _ hu => (hu.dropTaken _).ite ((hu.complete ..).ite ((hu.complete ..).ite hu)))

theorem linkDiscard (h : PdkFrame s₀ s) (p : Nat) : PdkFrame s₀ (s.linkDiscard p) := by
  unfold State.linkDiscard
  extract_lets mine a
  have ha : PdkFrame s₀ a := h.foldl (fun _ _ hu => hu.bump (by decide))
  exact ha.beside rfl rfl rfl

/-- A TDI error of a paddock that is not ACTIVE quiesces nothing (R611). -/
theorem tdiError (h : PdkFrame s₀ s) {n : Nat} (hn : s.pdkState (pdkOf n) ≠ pdkActive) (cause : Nat) :
    PdkFrame s₀ (s.tdiError n cause) := by
  unfold State.tdiError
  extract_lets st a b c p d
  have hc : PdkFrame s c := (((PdkFrame.refl s).wr (by decide)).wr (by decide)).bump (by decide)
  have hd : d = c := if_neg (by rw [hc.pdkState]; exact hn)
  rw [hd]
  have hc₀ : PdkFrame s₀ c := ((h.wr (by decide)).wr (by decide)).bump (by decide)
  exact (hc₀.eventBoth ..).ite h

/-! ### What a handover clears and replaces -/

theorem syncGroup (h : PdkFrame s₀ s) (g : Nat) : PdkFrame s₀ (s.syncGroup g) := (h.wr (by decide)).wr (by decide)

theorem setPort (h : PdkFrame s₀ s) (q : Nat) (x : Port) : PdkFrame s₀ (s.setPort q x) := h.beside rfl rfl rfl

theorem syncViews (h : PdkFrame s₀ s) (q : Nat) : PdkFrame s₀ (s.syncViews q) := by
  refine h.loopN (fun i u hu => PdkFrame.wr (PdkFrame.wr (hu.wr ?_) ?_) (by decide))
  · split <;> decide
  · split <;> decide

theorem linkRelease (h : PdkFrame s₀ s) (p : Nat) : PdkFrame s₀ (s.linkRelease p) := by
  refine h.loopN (fun q u hu => PdkFrame.syncViews (PdkFrame.loopN (PdkFrame.setPort (hu.loopN ?_) ..) ?_) q)
  · exact fun k v hv => (hv.wr (by decide)).ite hv
  · intro i v hv
    have hw : ∀ j, PdkFrame s₀ (v.wr F.PLK_CRED_CRED q 0 j) := fun j => hv.wr (by decide)
    exact (hw _).ite ((hw _).setPort ..)

theorem showMaps (h : PdkFrame s₀ s) (c : Nat) : PdkFrame s₀ (s.showMaps c) := by
  refine PdkFrame.loopN (PdkFrame.wr (h.loopN ?_) (by decide)) ?_
  · exact fun b u hu => (hu.wr (by decide)).wr (by decide)
  · exact fun k u hu => (hu.wr (by decide)).wr (by decide)

theorem syncSpares (h : PdkFrame s₀ s) : PdkFrame s₀ s.syncSpares :=
  ((h.wr (by decide)).wr (by decide)).wr (by decide)

theorem spareEvent (h : PdkFrame s₀ s) (p kind old new : Nat) : PdkFrame s₀ (s.spareEvent p kind old new) := h.event ..

theorem replaceCore (h : PdkFrame s₀ s) (c : Nat) : PdkFrame s₀ (s.replaceCore c).1 := by
  have hphys : 10 ≤ (physFld (coreOff c)).id := by
    have : ∀ k < 8, 10 ≤ (physFld k).id := by decide
    exact this _ (Nat.mod_lt _ (by decide))
  unfold State.replaceCore
  extract_lets old
  split
  · split
    · exact ((h.wr hphys).bump (by decide)).spareEvent ..
    · exact h
  · exact h

theorem replaceProc (h : PdkFrame s₀ s) (p : Nat) : PdkFrame s₀ (s.replaceProc p).1 := by
  unfold State.replaceProc
  extract_lets old
  split
  · split
    · dsimp only
      refine PdkFrame.spareEvent ?_ ..
      exact h.beside rfl rfl rfl
    · exact h
  · exact h

theorem substitute (h : PdkFrame s₀ s) (p : Nat) : PdkFrame s₀ (s.substitute p).1 := by
  unfold State.substitute
  extract_lets r x t
  have hr : PdkFrame s₀ r.1 := PdkFrame.foldl_fst (r := (s, false)) h (fun u i hu => hu.replaceCore (8 * p + i))
  have hx : PdkFrame s₀ x.1 := hr.replaceProc p
  have ht : PdkFrame s₀ t := PdkFrame.syncSpares (hx.wr (by decide))
  exact ht.loopN (fun i u hu => hu.showMaps _)

end PdkFrame

@[simp] theorem State.setDrawer63_mem (s : State) (p role : Nat) : (s.setDrawer63 p role).mem = s.mem := ((PdkFrame.refl s).setDrawer63 ..).mem
@[simp] theorem State.setDrawer63_hand (s : State) (p role : Nat) : (s.setDrawer63 p role).hand = s.hand := ((PdkFrame.refl s).setDrawer63 ..).hand
@[simp] theorem State.endStop_mem (s : State) (p : Nat) : (s.endStop p).mem = s.mem := ((PdkFrame.refl s).endStop ..).mem
@[simp] theorem State.endStop_hand (s : State) (p : Nat) : (s.endStop p).hand = s.hand := ((PdkFrame.refl s).endStop ..).hand
@[simp] theorem State.endReleases_mem (s : State) : s.endReleases.mem = s.mem := (PdkFrame.refl s).endReleases.mem
@[simp] theorem State.endReleases_hand (s : State) : s.endReleases.hand = s.hand := (PdkFrame.refl s).endReleases.hand

end Sys2Proof.Machine
end

section
/-! PROOFS. Assignment, roles, release and handover of paddocks (chapter 01), and what reset leaves. -/

namespace Sys2Proof.Machine

/-- A read of whatever field in another place than the one written. -/
theorem State.rd_wr_elsewhere {s : State} {f g : Fld} {i v j i' j' : Nat} (h : i' ≠ i) : (s.wr f i v j).rd g i' j' = s.rd g i' j' :=
  State.rd_wr_ne (fun e => h (List.cons.inj (List.cons.inj e).2).1)

theorem loopN_succ (n : Nat) (f : Nat → State → State) (s : State) : loopN (n + 1) f s = f n (loopN n f s) := by
  simp [loopN, List.range_succ]

/-- One value written to a run of cores, in turn, is read back at each of them. -/
theorem State.rd_loopN_wr {s : State} {f : Fld} {b v : Nat} : ∀ {n i : Nat}, i < n →
    (loopN n (fun k u => u.wr f (b + k) v) s).rd f (b + i) = v % 2 ^ f.width
  | n + 1, i, hi => by
    rw [loopN_succ]
    rcases Nat.lt_succ_iff_lt_or_eq.1 hi with h | rfl
    · rw [State.rd_wr_inst (by omega)]
      exact rd_loopN_wr h
    · exact State.rd_wr_self

/-- The power of the banks of a paddock's eight cores, set at once, and nothing else. -/
theorem shelfPower_all (s : State) (p v : Nat) :
    OnlyRegs s (loopN 8 (fun i u => u.wr F.DRW_SHELF_CFG_PWR (8 * p + i) v) s) [F.DRW_SHELF_CFG_PWR] ∧
      ∀ i < 8, (loopN 8 (fun i u => u.wr F.DRW_SHELF_CFG_PWR (8 * p + i) v) s).rd F.DRW_SHELF_CFG_PWR (8 * p + i) = v % 4 :=
  ⟨onlyRegs_loopN onlyRegs_refl (fun _ _ hu => onlyRegs_wr hu (List.mem_singleton.2 rfl)), fun _ hi => State.rd_loopN_wr hi⟩

/-! ### Assignment -/

/-- Paddock `p` is ASSIGNED in the group of base `base` with the given role and quota (R27, R28). -/
def State.AssignedAs (s : State) (base log2 role ctxQuotaM1 pool p : Nat) : Prop :=
  s.pdkState p = pdkAssigned ∧ s.role p = role ∧ s.rd F.PDK_STATE_GROUP_BASE p = base ∧ s.rd F.PDK_STATE_GROUP_LOG2 p = log2 ∧
    s.rd F.PDK_QUOTA_CTX_QUOTA_M1 p = ctxQuotaM1 ∧ s.rd F.PDK_QUOTA_HBM_POOL_PAGES p = pool

section
variable {s : State} {p base log2 role ctxQuotaM1 pool : Nat} {e : Nat × Nat × Nat × Nat}

theorem PdkFrame.assignedAs {t : State} (h : PdkFrame s t) : t.AssignedAs base log2 role ctxQuotaM1 pool p ↔ s.AssignedAs base log2 role ctxQuotaM1 pool p := by
  unfold State.AssignedAs
  rw [h.pdkState, h.role, h.rd _ _ _ (by decide), h.rd _ _ _ (by decide), h.rd _ _ _ (by decide), h.rd _ _ _ (by decide)]

theorem State.assignOne_assignedAs (hb : base < 16) (hl : log2 ≤ 4) (hr : role ≤ 2) (hq : ctxQuotaM1 < 2 ^ 16) (hp : pool ≤ 778240) :
    (s.assignOne p base log2 role ctxQuotaM1 pool e).AssignedAs base log2 role ctxQuotaM1 pool p := by
  refine ((PdkFrame.refl _).setDrawer63 p role).assignedAs.2 ?_
  simp (disch := decide) only [State.AssignedAs, State.pdkState, State.role, State.rd_wr_fld, State.rd_wr_self]
  exact ⟨rfl, Nat.mod_eq_of_lt (by change role < 4; omega), Nat.mod_eq_of_lt hb, Nat.mod_eq_of_lt (by change log2 < 16; omega),
    Nat.mod_eq_of_lt hq, Nat.mod_eq_of_lt (by change pool < 1048576; omega)⟩

theorem State.assignOne_mem : (s.assignOne p base log2 role ctxQuotaM1 pool e).mem = s.mem := by
  simp only [State.assignOne, State.setDrawer63_mem, State.wr_mem]

theorem State.assignOne_rd_ne {q : Nat} (hq : q ≠ p) {g : Fld} (hg : g.id < 10) :
    (s.assignOne p base log2 role ctxQuotaM1 pool e).rd g q = s.rd g q := by
  refine (((PdkFrame.refl _).setDrawer63 p role).rd g q 0 hg).trans ?_
  simp only [State.rd_wr_elsewhere hq]

theorem State.assignOne_assignedAs_ne {q : Nat} (hq : q ≠ p) :
    (s.assignOne p base log2 role ctxQuotaM1 pool e).AssignedAs base log2 role ctxQuotaM1 pool q ↔ s.AssignedAs base log2 role ctxQuotaM1 pool q := by
  unfold State.AssignedAs State.pdkState State.role
  simp (disch := decide) only [State.assignOne_rd_ne hq]

end

/-- The members of a group from `base` on, assigned in turn, each with its extent. -/
def State.assignFirst (s : State) (base log2 role ctxQuotaM1 pool : Nat) (ext : List (Nat × Nat × Nat × Nat)) (n : Nat) : State :=
  loopN n (fun k u => u.assignOne (base + k) base log2 role ctxQuotaM1 pool ((ext[k]?).getD (0, 0, 0, 0))) s

section
variable {s : State} {base log2 role ctxQuotaM1 pool : Nat} {ext : List (Nat × Nat × Nat × Nat)}

theorem State.assignFirst_succ (n : Nat) : s.assignFirst base log2 role ctxQuotaM1 pool ext (n + 1) =
    (s.assignFirst base log2 role ctxQuotaM1 pool ext n).assignOne (base + n) base log2 role ctxQuotaM1 pool ((ext[n]?).getD (0, 0, 0, 0)) :=
  loopN_succ ..

theorem State.assignFirst_mem (n : Nat) : (s.assignFirst base log2 role ctxQuotaM1 pool ext n).mem = s.mem := by
  induction n with
  | zero => rfl
  | succ n ih => rw [State.assignFirst_succ, State.assignOne_mem, ih]

theorem State.assignFirst_rd_ne {q : Nat} {g : Fld} (hg : g.id < 10) : ∀ {n : Nat}, (∀ k < n, q ≠ base + k) →
    (s.assignFirst base log2 role ctxQuotaM1 pool ext n).rd g q = s.rd g q
  | 0, _ => rfl
  | n + 1, hq => by
    rw [State.assignFirst_succ, State.assignOne_rd_ne (hq n n.lt_succ_self) hg]
    exact assignFirst_rd_ne hg (fun k hk => hq k (Nat.lt_succ_of_lt hk))

theorem State.assignFirst_assignedAs (hb : base < 16) (hl : log2 ≤ 4) (hr : role ≤ 2) (hq : ctxQuotaM1 < 2 ^ 16) (hp : pool ≤ 778240) :
    ∀ {n k : Nat}, k < n → (s.assignFirst base log2 role ctxQuotaM1 pool ext n).AssignedAs base log2 role ctxQuotaM1 pool (base + k)
  | n + 1, k, hk => by
    rw [State.assignFirst_succ]
    rcases Nat.lt_succ_iff_lt_or_eq.1 hk with h | rfl
    · exact (State.assignOne_assignedAs_ne (by omega)).2 (assignFirst_assignedAs hb hl hr hq hp h)
    · exact State.assignOne_assignedAs hb hl hr hq hp

end

theorem mem_members {b k q : Nat} : q ∈ members b k ↔ ∃ i < 2 ^ k, b + i = q := by
  simp [members]

/-- What PADDOCK_ASSIGN does once it passes its checks. -/
theorem execPaddockAssign_goes {s : State} {h : Hdr} {role log2 ctxQuotaM1 pool : Nat} {ext : List (Nat × Nat × Nat × Nat)}
    (hbusy : s.orderBusy h = false) (hl : log2 ≤ 4) (htest : ∀ p ∈ members h.pdk log2, s.testHolds p = false)
    (hgo : s.goes h opPaddockAssign (s.assignStatus h role log2 ctxQuotaM1 pool ext)) :
    execPaddockAssign h role log2 ctxQuotaM1 pool ext s = .next (((s.start h opPaddockAssign
      (some (.paddockAssign h role log2 ctxQuotaM1 pool ext))).assignFirst h.pdk log2 role ctxQuotaM1 pool ext (2 ^ log2)).complete h 0) := by
  have hany : (members h.pdk (min log2 4)).any (fun p => s.testHolds p) = false := by
    rw [Nat.min_eq_left hl, List.any_eq_false]
    exact fun p hp => by simp [htest p hp]
  unfold execPaddockAssign
  rw [if_neg (by simp [hbusy, hany]), State.checked_goes hgo]
  rfl

theorem execPaddockAssign_busy {s : State} {h : Hdr} {role log2 ctxQuotaM1 pool : Nat} {ext : List (Nat × Nat × Nat × Nat)}
    (hc : s.callStatus h opPaddockAssign = 0) (hbusy : s.orderBusy h = true) :
    execPaddockAssign h role log2 ctxQuotaM1 pool ext s = .next s := if_pos ⟨hc, .inl hbusy⟩

/-- PADDOCK_ASSIGN that passes its checks assigns every member and touches no other paddock and no memory (R14, R27, R28). -/
theorem execPaddockAssign_assigns {s : State} {h : Hdr} {role log2 ctxQuotaM1 pool : Nat} {ext : List (Nat × Nat × Nat × Nat)}
    (hbusy : s.orderBusy h = false) (hl : log2 ≤ 4) (hr : role ≤ 2) (hq : ctxQuotaM1 < 2 ^ 16) (hpool : pool ≤ 778240)
    (htest : ∀ p ∈ members h.pdk log2, s.testHolds p = false) (hfit : h.pdk + 2 ^ log2 ≤ 16)
    (hgo : s.goes h opPaddockAssign (s.assignStatus h role log2 ctxQuotaM1 pool ext)) :
    ∃ t, execPaddockAssign h role log2 ctxQuotaM1 pool ext s = .next t ∧ t.mem = s.mem ∧
      (∀ p ∈ members h.pdk log2, t.AssignedAs h.pdk log2 role ctxQuotaM1 pool p) ∧
      ∀ p, p ∉ members h.pdk log2 → t.pdkState p = s.pdkState p ∧ t.role p = s.role p := by
  have hb : h.pdk < 16 := by have := Nat.two_pow_pos log2; omega
  have hstart := (PdkFrame.refl s).start h opPaddockAssign (some (.paddockAssign h role log2 ctxQuotaM1 pool ext)) []
  refine ⟨_, execPaddockAssign_goes hbusy hl htest hgo, ?_, fun p hp => ?_, fun p hp => ?_⟩
  · rw [State.complete_mem, State.assignFirst_mem, hstart.mem]
  · obtain ⟨k, hk, rfl⟩ := mem_members.1 hp
    exact ((PdkFrame.refl _).complete ..).assignedAs.2 (State.assignFirst_assignedAs hb hl hr hq hpool hk)
  · have hne : ∀ k < 2 ^ log2, p ≠ h.pdk + k := fun k hk e => hp (mem_members.2 ⟨k, hk, e.symm⟩)
    rw [((PdkFrame.refl _).complete ..).pdkState, ((PdkFrame.refl _).complete ..).role]
    exact ⟨(State.assignFirst_rd_ne (by decide) hne).trans (hstart.pdkState p), (State.assignFirst_rd_ne (by decide) hne).trans (hstart.role p)⟩

/-! ### Release -/

theorem State.leaveGroup_pdkState (s : State) (p q : Nat) : (s.leaveGroup p).pdkState q = s.pdkState q := by
  refine (((PdkFrame.refl _).loopN (fun i u hu => hu.wr (by decide))).pdkState q).trans ?_
  simp (disch := decide) only [State.pdkState, State.rd_wr_fld]

@[simp] theorem State.leaveGroup_mem (s : State) (p : Nat) : (s.leaveGroup p).mem = s.mem :=
  ((PdkFrame.refl _).loopN (fun i u hu => hu.wr (by decide))).mem

@[simp] theorem State.leaveGroup_hand (s : State) (p : Nat) : (s.leaveGroup p).hand = s.hand :=
  ((PdkFrame.refl _).loopN (fun i u hu => hu.wr (by decide))).hand

theorem State.wr_pdkState (s : State) (p v q : Nat) :
    (s.wr F.PDK_STATE_STATE p v).pdkState q = if q = p then v % 8 else s.pdkState q := by
  split
  · subst q
    exact State.rd_wr_self
  · exact State.rd_wr_inst ‹_›

@[simp] theorem State.setHand_pdkState (s : State) (p : Nat) (x : Option Hand) (q : Nat) : (s.setHand p x).pdkState q = s.pdkState q := rfl

theorem pdkOf_vfOf (p : Nat) : pdkOf (vfOf p) = p := rfl

/-- Only the paddock itself moves, and only from a state that a tenant holds (R27, R31). -/
theorem State.startHandover_pdkState (s : State) (p q : Nat) (toFree flr : Bool) :
    (s.startHandover p toFree flr false).pdkState q =
      if q = p ∧ s.pdkState q ≠ pdkFree ∧ s.pdkState q ≠ pdkOffline then pdkHandover else s.pdkState q := by
  unfold State.startHandover
  extract_lets st a t b c d _
  by_cases hst : st = pdkHandover
  · have ha : a.pdkState q = s.pdkState q := State.rd_wr_fld (by decide)
    have hsame : (if q = p ∧ s.pdkState q ≠ pdkFree ∧ s.pdkState q ≠ pdkOffline then pdkHandover else s.pdkState q) = s.pdkState q :=
      ite_eq_right_iff.2 (fun hq => by rw [hq.1]; exact hst.symm)
    rw [hsame, if_pos hst]
    split <;> exact ha
  rw [if_neg hst]
  by_cases hidle : st = pdkFree ∨ st = pdkOffline
  · rw [if_pos ⟨hidle, rfl⟩, if_neg]
    rintro ⟨rfl, hfree, hoff⟩
    exact hidle.elim hfree hoff
  · rw [if_neg (fun h => hidle h.1)]
    have ht (r : Nat) : t.pdkState r = if r = p then pdkHandover else s.pdkState r := by
      rw [State.setHand_pdkState, State.wr_pdkState]
      rfl
    have hb : PdkFrame t b := by
      have hw : PdkFrame t (t.wr F.RTP_TDI_STATE_NOT_READY (vfOf p) 1) := (PdkFrame.refl t).wr (by decide)
      refine hw.tdiError ?_ 2
      rw [hw.pdkState, ht, pdkOf_vfOf, if_pos rfl]
      decide
    have hd : PdkFrame t d :=
      (((((hb.endCommands p).stopCores p).stopWalks p).linkDiscard p).wr (by decide)).wr (by decide) |>.wr (by decide)
    clear_value d
    refine (PdkFrame.pdkState (s := t) ?_ q).trans ((ht q).trans ?_)
    · exact hd.beside rfl rfl rfl
    by_cases hq : q = p
    · subst q
      rw [if_pos rfl, if_pos ⟨rfl, fun h => hidle (.inl h), fun h => hidle (.inr h)⟩]
    · rw [if_neg hq, if_neg (fun h => hq h.1)]

/-- What PADDOCK_RELEASE does with one member. -/
def State.releaseOne (s : State) (p : Nat) : State :=
  if s.pdkState p = pdkOffline then s.leaveGroup p else s.startHandover p true false false

theorem State.releaseOne_pdkState (s : State) (p q : Nat) : (s.releaseOne p).pdkState q =
    if q = p ∧ s.pdkState q ≠ pdkFree ∧ s.pdkState q ≠ pdkOffline then pdkHandover else s.pdkState q := by
  unfold State.releaseOne
  split
  · rename_i hoff
    rw [State.leaveGroup_pdkState, if_neg]
    rintro ⟨rfl, -, hne⟩
    exact hne hoff
  · exact State.startHandover_pdkState ..

theorem State.releaseAll_pdkState (l : List Nat) (s : State) (q : Nat) : (l.foldl State.releaseOne s).pdkState q =
    if q ∈ l ∧ s.pdkState q ≠ pdkFree ∧ s.pdkState q ≠ pdkOffline then pdkHandover else s.pdkState q := by
  induction l generalizing s with
  | nil => simp
  | cons p l ih =>
    rw [List.foldl_cons, ih, State.releaseOne_pdkState]
    by_cases hq : q = p ∧ s.pdkState q ≠ pdkFree ∧ s.pdkState q ≠ pdkOffline
    · rw [if_pos hq, ite_self, if_pos ⟨List.mem_cons.2 (.inl hq.1), hq.2⟩]
    · rw [if_neg hq]
      refine if_congr ⟨fun h => ⟨List.mem_cons_of_mem _ h.1, h.2⟩, fun h => ⟨?_, h.2⟩⟩ rfl rfl
      exact (List.mem_cons.1 h.1).resolve_left (fun e => hq ⟨e, h.2⟩)

/-- What PADDOCK_RELEASE does once it passes its checks. -/
theorem execPaddockRelease_goes {s : State} {h : Hdr} {ms : List Nat} (hms : ms = members h.pdk (s.rd F.PDK_STATE_GROUP_LOG2 h.pdk))
    (hbusy : s.orderBusy h = false) (htest : ∀ p ∈ ms, s.testHolds p = false)
    (hgo : s.goes h opPaddockRelease (firstStatus [failIf (s.rd F.PDK_STATE_GROUP_BASE h.pdk != h.pdk) 0x202,
      failIf (ms.all (fun p => s.pdkState p == pdkFree || s.pdkState p == pdkOffline)) 0x301])) :
    execPaddockRelease h s = .next (ms.foldl State.releaseOne (s.start h opPaddockRelease (some (.paddockRelease h))
      [h.pdk, s.rd F.PDK_STATE_GROUP_LOG2 h.pdk])).endReleases := by
  subst hms
  have hany : (members h.pdk (s.rd F.PDK_STATE_GROUP_LOG2 h.pdk)).any (fun p => s.testHolds p) = false := by
    rw [List.any_eq_false]
    exact fun p hp => by simp [htest p hp]
  unfold execPaddockRelease
  extract_lets b k ms idle
  rw [if_neg (by simp [hbusy, ms, b, k, hany]), State.checked_goes hgo]
  rfl

/-- PADDOCK_RELEASE that passes its checks brings every member that a tenant holds into HANDOVER; an OFFLINE one stays so (R27, R29). -/
theorem execPaddockRelease_releases {s : State} {h : Hdr} {ms : List Nat} (hms : ms = members h.pdk (s.rd F.PDK_STATE_GROUP_LOG2 h.pdk))
    (hbusy : s.orderBusy h = false) (htest : ∀ p ∈ ms, s.testHolds p = false)
    (hgo : s.goes h opPaddockRelease (firstStatus [failIf (s.rd F.PDK_STATE_GROUP_BASE h.pdk != h.pdk) 0x202,
      failIf (ms.all (fun p => s.pdkState p == pdkFree || s.pdkState p == pdkOffline)) 0x301])) :
    ∃ t, execPaddockRelease h s = .next t ∧
      ∀ p ∈ ms, (s.pdkState p ≠ pdkFree → s.pdkState p ≠ pdkOffline → t.pdkState p = pdkHandover) ∧
        (s.pdkState p = pdkOffline → t.pdkState p = pdkOffline) := by
  refine ⟨_, execPaddockRelease_goes hms hbusy htest hgo, fun p hp => ?_⟩
  rw [(PdkFrame.refl _).endReleases.pdkState, State.releaseAll_pdkState, ((PdkFrame.refl s).start ..).pdkState]
  exact ⟨fun hfree hoff => if_pos ⟨hp, hfree, hoff⟩, fun hoff => (if_neg fun hh => hh.2.2 hoff).trans hoff⟩

theorem execPaddockRelease_busy {s : State} {h : Hdr} (hc : s.callStatus h opPaddockRelease = 0) (hbusy : s.orderBusy h = true) :
    execPaddockRelease h s = .next s := if_pos ⟨hc, .inl hbusy⟩

/-! ### Roles -/

theorem State.changeRole_role {s : State} {p old role : Nat} (hr : role ≤ 2) : (s.changeRole p old role).role p = role :=
  (((PdkFrame.refl _).setDrawer63 p role).role p).trans (State.rd_wr_self.trans (Nat.mod_eq_of_lt (by change role < 4; omega)))

/-- What PADDOCK_CONFIG does once it passes its checks. -/
theorem execPaddockConfig_goes {s u : State} {h : Hdr} {role p : Nat} (hp : p = h.pdk % 16) (hbusy : s.orderBusy h = false)
    (hgo : s.goes h opPaddockConfig (firstStatus [failIf (decide (2 < role)) 0x201, failIf (s.tdiLocked p) 0x720,
      failIf (s.pdkState p != pdkAssigned && s.pdkState p != pdkQuiesced) 0x301, failIf (!s.roleQuiet p) 0x302]))
    (hu : s.start h opPaddockConfig (some (.paddockConfig h role)) [s.now] = u) :
    execPaddockConfig h role s = .next (if s.role p = role then u.complete h 0 else if role = 2 then
      loopN 8 (fun i u => u.wr F.DRW_SHELF_CFG_PWR (8 * p + i) 1) u else (u.changeRole p (s.role p) role).complete h 0) := by
  subst hp hu
  have hrole := ((PdkFrame.refl s).start h opPaddockConfig (some (.paddockConfig h role)) [s.now]).role (h.pdk % 16)
  unfold execPaddockConfig
  extract_lets p st
  rw [if_neg (by simp [hbusy]), State.checked_goes hgo]
  dsimp only
  rw [hrole]

/-! ### The power of the banks -/

theorem execShelfPowerDownDrained_waits {s : State} {c : Fin 128} (h : s.rd F.DRW_SHELF_CFG_PWR c.val ≠ 1 ∨ s.shelfWrites c.val = true) :
    execShelfPowerDownDrained c s = .next s := if_pos h

/-- The banks of one core go down while those of another are still up (R63). -/
theorem execShelfPowerDownDrained_one {s : State} {c : Fin 128} (hpwr : s.rd F.DRW_SHELF_CFG_PWR c.val = 1) (hw : s.shelfWrites c.val = false)
    (hup : ∃ i < 8, (s.wr F.DRW_SHELF_CFG_PWR c.val 2).rd F.DRW_SHELF_CFG_PWR (8 * corePdk c.val + i) ≠ 2) :
    execShelfPowerDownDrained c s = .next (s.wr F.DRW_SHELF_CFG_PWR c.val 2) := by
  refine (if_neg ?_).trans (if_neg ?_)
  · simp [hpwr, hw]
  · simpa [List.all_eq_true] using hup

/-- With the last core's banks the role changes (R63). -/
theorem execShelfPowerDownDrained_last {s : State} {c : Fin 128} {t : Taken} (hpwr : s.rd F.DRW_SHELF_CFG_PWR c.val = 1)
    (hw : s.shelfWrites c.val = false)
    (hdown : ∀ i < 8, (s.wr F.DRW_SHELF_CFG_PWR c.val 2).rd F.DRW_SHELF_CFG_PWR (8 * corePdk c.val + i) = 2)
    (ht : s.roleCmd (corePdk c.val) = some t) :
    execShelfPowerDownDrained c s =
      .next (((s.wr F.DRW_SHELF_CFG_PWR c.val 2).changeRole (corePdk c.val) (s.role (corePdk c.val)) 2).complete t.h 0) := by
  have hrole : (s.wr F.DRW_SHELF_CFG_PWR c.val 2).role (corePdk c.val) = s.role (corePdk c.val) := State.rd_wr_fld (by decide)
  have hcmd : (s.wr F.DRW_SHELF_CFG_PWR c.val 2).roleCmd (corePdk c.val) = some t := ht
  refine (if_neg ?_).trans ((if_pos ?_).trans ?_)
  · simp [hpwr, hw]
  · simpa [List.all_eq_true] using hdown
  · simp only [hcmd, hrole]

theorem execShelfPowerDownTimeout_none {s : State} {c : Fin 128} (h : s.roleCmd (corePdk c.val) = none) :
    execShelfPowerDownTimeout c s = .next s := by
  unfold execShelfPowerDownTimeout
  simp only [h]

theorem execShelfPowerDownTimeout_early {s : State} {c : Fin 128} {t : Taken} (ht : s.roleCmd (corePdk c.val) = some t)
    (h : s.rd F.DRW_SHELF_CFG_PWR c.val ≠ 1 ∨ s.now ≤ nth t.prog 0 + 100000) : execShelfPowerDownTimeout c s = .next s := by
  unfold execShelfPowerDownTimeout
  simp only [ht]
  exact if_pos h

theorem execShelfPowerDownTimeout_late {s : State} {c : Fin 128} {t : Taken} (ht : s.roleCmd (corePdk c.val) = some t)
    (hpwr : s.rd F.DRW_SHELF_CFG_PWR c.val = 1) (hlate : nth t.prog 0 + 100000 < s.now) :
    execShelfPowerDownTimeout c s =
      .next ((loopN 8 (fun i u => u.wr F.DRW_SHELF_CFG_PWR (8 * corePdk c.val + i) 0) s).complete t.h 0x313) := by
  unfold execShelfPowerDownTimeout
  simp only [ht]
  exact if_neg (by simp [hpwr, hlate])

/-! ### The steps of a handover -/

/-- A handover step does nothing when no handover of the paddock is in progress, or none may run. -/
theorem execHandoverDrainDone_idle {s : State} {p : Fin 16}
    (h : ∀ x, s.handOf p.val = some x → s.pdkState p.val ≠ pdkHandover ∨ s.handoverRuns = false) : execHandoverDrainDone p s = .next s := by
  unfold execHandoverDrainDone
  split
  · rfl
  · rename_i x hx
    exact if_pos ((h x hx).imp_right .inr)

theorem execHandoverZeroiseDone_idle {s : State} {p : Fin 16}
    (h : ∀ x, s.handOf p.val = some x → s.pdkState p.val ≠ pdkHandover ∨ s.handoverRuns = false) (found : List Found) :
    execHandoverZeroiseDone p found s = .next s := by
  unfold execHandoverZeroiseDone
  split
  · rfl
  · rename_i x hx
    exact if_pos ((h x hx).imp_right .inr)

theorem State.handOf_setHand (s : State) (p : Nat) (x : Option Hand) : (s.setHand p x).handOf p = x := tget_tset_self

theorem onlyRegs_setChannels {s₀ s : State} {fs : List Fld} (h : OnlyRegs s₀ s fs)
    (hfs : ∀ f ∈ [F.HBM_CH_STAT_PWR, F.HBM_GSTAT_PWR, F.HBM_GSTAT_DORMANT], f ∈ fs) (g : Nat) (cs : List Nat) (st : Nat) :
    OnlyRegs s₀ (s.setChannels g cs st) fs := by
  have hcs : OnlyRegs s₀ (cs.foldl (fun s c => s.wr F.HBM_CH_STAT_PWR (16 * g + c) st) s) fs :=
    onlyRegs_foldl h (fun _ _ hu => onlyRegs_wr hu (hfs _ (by simp)))
  exact onlyRegs_wr (onlyRegs_wr hcs (hfs _ (by simp))) (hfs _ (by simp))

theorem State.destroyKeys_rd {s : State} {p : Nat} {g : Fld} {i j : Nat} (h0 : g.id ≠ F.MOW_KEYID_KEYID0.id)
    (h1 : g.id ≠ F.MOW_KEYID_KEYID1.id) : (s.destroyKeys p).rd g i j = s.rd g i j := by
  change ((s.wr F.MOW_KEYID_KEYID0 p 0).wr F.MOW_KEYID_KEYID1 p 0).rd g i j = _
  rw [State.rd_wr_fld h1, State.rd_wr_fld h0]

theorem State.newKey_rd {s : State} {p slot : Nat} {g : Fld} {i j : Nat} (h : g.id ≠ (keyIdFld slot).id) :
    (s.newKey p slot).rd g i j = s.rd g i j := by
  refine (State.rd_wr_fld h).trans ?_
  rfl

/-- HANDOVER_DRAIN_DONE in step 1 (R33): no line of the paddock is left, slot 0 has a fresh key, eight more cores are reset, and the
handover is in step 3. -/
theorem execHandoverDrainDone_runs {s : State} {p : Fin 16} {x : Hand} (hx : s.handOf p.val = some x) (hst : s.pdkState p.val = pdkHandover)
    (h1 : x.step = 1) (hruns : s.handoverRuns = true) :
    ∃ t, execHandoverDrainDone p s = .next t ∧ t.handOf p.val = some { x with step := 3 } ∧ t.mem = s.mem ∧ (∀ l ∈ t.net.lines, l.pdk ≠ p.val) ∧
      t.rd F.RST_CORE_COUNT 0 = min (s.rd F.RST_CORE_COUNT 0 + 8) maxCount ∧ t.rd F.MOW_STAT_ACTIVE_SLOT p.val = 0 := by
  unfold execHandoverDrainDone
  simp -zeta only [hx]
  rw [if_neg (by simp [hst, h1, hruns])]
  extract_lets _ a b cs c d e _ f
  have hcount : b.rd F.RST_CORE_COUNT 0 = s.rd F.RST_CORE_COUNT 0 :=
    (State.rd_wr_fld (by decide)).trans ((State.newKey_rd (by decide)).trans (State.destroyKeys_rd (by decide) (by decide)))
  have hslot : b.rd F.MOW_STAT_ACTIVE_SLOT p.val = 0 := State.rd_wr_self
  have hbm : b.mem = s.mem := rfl
  have hbn : b.net = a.net := rfl
  clear_value b
  have hch : OnlyRegs b (c.setChannels p.val cs 0) [F.HBM_CH_STAT_TRAINED, F.HBM_CH_STAT_PWR, F.HBM_GSTAT_PWR, F.HBM_GSTAT_DORMANT] :=
    onlyRegs_setChannels (onlyRegs_foldl onlyRegs_refl (fun _ _ hu => onlyRegs_wr hu (by decide))) (by decide) ..
  have hdm : d.mem = s.mem := by rw [State.bump_mem, hch.1, ← hbm]
  have hdn : d.net = a.net := by rw [State.bump_net, hch.1, ← hbn]
  have hdcount : d.rd F.RST_CORE_COUNT 0 = min (s.rd F.RST_CORE_COUNT 0 + 8) maxCount := by
    rw [State.rd_bump_self rfl (by decide), hch.2 _ _ _ (by decide), hcount]
  have hdslot : d.rd F.MOW_STAT_ACTIVE_SLOT p.val = 0 := by
    rw [State.rd_bump_fld (by decide) (by decide), hch.2 _ _ _ (by decide), hslot]
  clear_value d
  refine ⟨_, rfl, State.handOf_setHand .., hdm, fun l hl => ?_, ?_, ?_⟩
  · have hl' : l ∈ a.net.lines := hdn ▸ hl
    simpa using (List.mem_filter.1 hl').2
  · change (d.mowActivity p.val mowZeroise).rd F.RST_CORE_COUNT 0 = _
    exact (State.rd_wr_fld (by decide)).trans hdcount
  · change (d.mowActivity p.val mowZeroise).rd F.MOW_STAT_ACTIVE_SLOT p.val = _
    exact (State.rd_wr_fld (by decide)).trans hdslot

/-! ### Steps 3 to 6 -/

/-- Step 5 zeroises the rest of the paddock's region (R33). -/
theorem State.stepFive_hbm (s : State) (p : Nat) (toFree : Bool) :
    (s.stepFive p toFree).mem.hbm = mzero s.mem.hbm (dpaOf p localEnd) 0xC00000 := by
  unfold State.stepFive
  extract_lets a b sh
  have hb : b.mem = s.mem := ((PdkFrame.refl _).linkRelease p).mem
  clear_value b
  exact congrArg (fun m : Mems => mzero m.hbm (dpaOf p localEnd) 0xC00000) hb

theorem State.stepSix_mem (s : State) (p : Nat) (x : Hand) (short : Bool) : (s.stepSix p x short).mem = s.mem := by
  simp [State.stepSix, State.mowActivity, State.setHand, apply_ite State.mem]

theorem State.stepSix_handOf (s : State) (p : Nat) (x : Hand) (short : Bool) : (s.stepSix p x short).handOf p = none := by
  have hhand : (s.stepSix p x short).hand = tset none s.hand [p] none := by
    simp [State.stepSix, State.mowActivity, State.setHand, apply_ite State.hand]
  unfold State.handOf
  rw [hhand, tget_tset_self]

/-- Step 6 ends the handover in OFFLINE, FREE or ASSIGNED (R33, R36). -/
theorem State.stepSix_pdkState (s : State) (p : Nat) (x : Hand) (short : Bool) :
    (s.stepSix p x short).pdkState p = pdkOffline ∨ (x.toFree = true ∧ (s.stepSix p x short).pdkState p = pdkFree) ∨
      (x.toFree = false ∧ (s.stepSix p x short).pdkState p = pdkAssigned) := by
  unfold State.stepSix
  extract_lets _ _ _ _ _ _ _ _ _ _ _ off u v t
  rw [((PdkFrame.refl t).endStop p).endReleases.pdkState]
  by_cases hoff : off = true
  · have hv : v.pdkState p = pdkOffline := by
      refine (State.rd_wr_fld (by decide)).trans ((State.wr_pdkState ..).trans (if_pos rfl))
    have ht : t = v.event 0 0x08 0 (detailAt 0x10 (b2n short)) p := if_pos hoff
    exact .inl (by rw [ht, ((PdkFrame.refl v).event ..).pdkState, hv])
  · refine .inr ?_
    have ht : t = if x.toFree then u.wr F.PDK_STATE_STATE p pdkFree
      else (u.setDrawer63 p (u.role p)).wr F.PDK_STATE_STATE p pdkAssigned := if_neg hoff
    rw [ht]
    cases htf : x.toFree with
    | true => exact .inl ⟨rfl, (State.wr_pdkState ..).trans (if_pos rfl)⟩
    | false => exact .inr ⟨rfl, (State.wr_pdkState ..).trans (if_pos rfl)⟩

/-- HANDOVER_ZEROISE_DONE in step 3 (R33): the local region reads as nothing written, and the handover is over. -/
theorem execHandoverZeroiseDone_runs {s : State} {p : Fin 16} {x : Hand} {found : List Found} (hx : s.handOf p.val = some x)
    (hst : s.pdkState p.val = pdkHandover) (h3 : x.step = 3) (hruns : s.handoverRuns = true) :
    ∃ t, execHandoverZeroiseDone p found s = .next t ∧ t.handOf p.val = none ∧
      (∀ a, dpaOf p.val 0 ≤ a → a < dpaOf p.val 0 + localEnd → mget t.mem.hbm a = memDefault) ∧
      (t.pdkState p.val = pdkOffline ∨ (x.toFree = true ∧ t.pdkState p.val = pdkFree) ∨ (x.toFree = false ∧ t.pdkState p.val = pdkAssigned)) := by
  unfold execHandoverZeroiseDone
  simp -zeta only [hx]
  rw [if_neg (by simp [hst, h3, hruns])]
  extract_lets z
  refine ⟨_, rfl, State.stepSix_handOf .., fun a ha hb => ?_, State.stepSix_pdkState ..⟩
  have hz : mget z.mem.hbm a = memDefault := mget_mzero.trans (if_pos ⟨ha, hb⟩)
  rw [State.stepSix_mem, ((PdkFrame.refl _).substitute p.val).mem, State.stepFive_hbm, mget_mzero, hz, ite_self]

/-! ### The statements -/

/-- Settles O4. That no byte is listed and that no time has passed at reset are log entries 6 and 89. -/
theorem resetState : Obligations.ResetState :=
  ⟨State.wf_reset, rfl, rfl, rfl, by decide, by decide, by decide, by decide⟩

/-- Settles O59: each command by its effect once its checks pass, and each step of a handover by what it leaves. That a drain which
times out powers every bank again is log entry 29. -/
theorem paddocks : Obligations.Paddocks := by
  intro s h
  refine ⟨?_, ?_, ?_, ?_, fun p old role hr => State.changeRole_role hr, ?_, ?_⟩
  · exact fun role log2 quota pool ext hc hbusy => ⟨execPaddockAssign_busy hc hbusy, fun hc' => execPaddockRelease_busy hc' hbusy⟩
  · exact fun role log2 quota pool ext hbusy hl hr hq hpool htest hfit hgo => execPaddockAssign_assigns hbusy hl hr hq hpool htest hfit hgo
  · exact fun ms hms hbusy htest hgo => execPaddockRelease_releases hms hbusy htest hgo
  · intro role p hp hbusy hgo u hu
    have hrun := execPaddockConfig_goes hp hbusy hgo hu
    refine ⟨fun he => ?_, fun hne hr => ?_, fun hne hr => ?_⟩
    · exact hrun.trans (by rw [if_pos he])
    · exact hrun.trans (by rw [if_neg hne, if_neg hr])
    · exact ⟨_, hrun.trans (by rw [if_neg hne, if_pos hr]), shelfPower_all u p 1⟩
  · intro c
    refine ⟨execShelfPowerDownDrained_waits, fun hpwr hw => ⟨execShelfPowerDownDrained_one hpwr hw,
      fun t hdown ht => execShelfPowerDownDrained_last hpwr hw hdown ht⟩, execShelfPowerDownTimeout_none, fun t ht =>
      ⟨execShelfPowerDownTimeout_early ht, fun hpwr hlate => ⟨_, execShelfPowerDownTimeout_late ht hpwr hlate, shelfPower_all s (corePdk c.val) 0⟩⟩⟩
  · intro p
    refine ⟨fun hnone => ?_, fun x hx => ⟨fun hidle => ?_, execHandoverDrainDone_runs hx, fun found => execHandoverZeroiseDone_runs hx⟩⟩
    · have hn : ∀ x, s.handOf p.val = some x → s.pdkState p.val ≠ pdkHandover ∨ s.handoverRuns = false := by simp [hnone]
      exact ⟨execHandoverDrainDone_idle hn, execHandoverZeroiseDone_idle hn⟩
    · exact ⟨execHandoverDrainDone_idle fun _ _ => hidle, execHandoverZeroiseDone_idle fun _ _ => hidle⟩

end Sys2Proof.Machine
end

section
/-! PROOFS. Configuration registers: each write stores its fields clamped to their ranges and leaves everything else alone. -/

namespace Sys2Proof.Machine

theorem bitsAt_mod (v lo w : Nat) : bitsAt v lo w % 2 ^ w = bitsAt v lo w := Nat.mod_mod ..

/-- Two fields of a register written in turn: each reads its value, and nothing else differs. -/
theorem wr_wr_stores {s : State} {f g : Fld} {i v w v' w' : Nat} (hfg : f.id ≠ g.id) (hv : v % 2 ^ f.width = v') (hw : w % 2 ^ g.width = w') :
    ((s.wr f i v).wr g i w).rd f i = v' ∧ ((s.wr f i v).wr g i w).rd g i = w' ∧
      OnlyKeys s ((s.wr f i v).wr g i w) [(f, i, 0), (g, i, 0)] :=
  ⟨(State.rd_wr_fld hfg).trans (State.rd_wr_self.trans hv), State.rd_wr_self.trans hw,
    onlyKeys_wr (onlyKeys_wr onlyKeys_refl (by simp)) (by simp)⟩

/-- The order in which places are listed says nothing. -/
theorem OnlyKeys.swap {s t : State} {a b : Fld × Nat × Nat} (h : OnlyKeys s t [a, b]) : OnlyKeys s t [b, a] :=
  ⟨h.1, fun g i j hk => h.2 g i j fun k hk' => hk k (by simpa [or_comm] using hk')⟩

/-! ### One field -/

/-- CE_LIMIT stores 1 for 0 (R76). -/
theorem execCeLimitWrite_sets (s : State) (core : Fin 128) {v : Nat} (hv : v < 16) :
    ∃ t, execCeLimitWrite core v s = .next t ∧ Sets s t F.DRW_SHELF_CFG_CE_LIMIT core.val 0 (max v 1) :=
  ⟨_, rfl, sets_wr (by change max (v % 16) 1 % 16 = _; omega)⟩

/-- WAIT_DEFAULT_US stores 1 to 1,000,000 (R113). -/
theorem execWaitDefaultUsWrite_sets (s : State) (p : Fin 16) {v : Nat} (hv : v < 2 ^ 20) :
    ∃ t, execWaitDefaultUsWrite p v s = .next t ∧ Sets s t F.SCH_PCTL_WAIT_DEFAULT_US p.val 0 (min (max v 1) 1000000) :=
  ⟨_, rfl, sets_wr (by change min (max (v % 2 ^ 20) 1) 1000000 % 2 ^ 20 = _; omega)⟩

/-- CHK_T stores 7 to 18 (R215). -/
theorem execChkTWrite_sets (s : State) (p : Fin 16) {v : Nat} (hv : v < 32) :
    ∃ t, execChkTWrite p v s = .next t ∧ Sets s t F.MXE_PCFG_CHK_T p.val 0 (min (max v 7) 18) :=
  ⟨_, rfl, sets_wr (by change min (max (v % 32) 7) 18 % 32 = _; omega)⟩

/-- XLATE_TIMEOUT_MS stores 1 to 60,000 (R481), which its 16 bits hold. -/
theorem execXlateTimeoutMsWrite_sets (s : State) (fn : Fin 17) (v : Nat) :
    ∃ t, execXlateTimeoutMsWrite fn v s = .next t ∧ Sets s t F.HIF_CFG_XLATE_TIMEOUT_MS fn.val 0 (min (max v 1) 60000) :=
  ⟨_, rfl, sets_wr (by change min (max v 1) 60000 % 65536 = _; omega)⟩

/-- FAR_KV lies between the far pages in use and the quota (R352). -/
theorem execCtxFarcfgWrite_stores (s : State) (p : Fin 16) (v : Nat) :
    ∃ t, execCtxFarcfgWrite p v s = .next t ∧
      t.rd F.CTX_FARCFG_FAR_KV p.val = max (min (bitsAt v 0 24) (min (s.rd F.PDK_QUOTA_FAR_PAGES p.val) 15728640))
        ((s.farUsed p.val).foldl (fun m x => max m (x + 1)) 0) % 2 ^ 24 ∧ OnlyKeys s t [(F.CTX_FARCFG_FAR_KV, p.val, 0)] :=
  ⟨_, rfl, State.rd_wr_self, onlyKeys_wr onlyKeys_refl (by simp)⟩

/-! ### Several fields -/

/-- HOLD_CLOCKS is at least 64, DROOP_MV 600 to 710 (R133). -/
theorem execBudDcfgWrite_stores (s : State) (die : Fin 2) {mv hold : Nat} (hmv : mv < 1024) (hhold : hold < 4096) :
    ∃ t, execBudDcfgWrite die mv hold s = .next t ∧ t.rd F.BUD_DCFG_DROOP_MV die.val = min (max mv 600) 710 ∧
      t.rd F.BUD_DCFG_HOLD_CLOCKS die.val = max hold 64 ∧
      OnlyKeys s t [(F.BUD_DCFG_DROOP_MV, die.val, 0), (F.BUD_DCFG_HOLD_CLOCKS, die.val, 0)] := by
  have hhold' : max (hold % 4096) 64 % 4096 = max hold 64 := by omega
  have hmv' : min (max (mv % 1024) 600) 710 % 1024 = min (max mv 600) 710 := by omega
  obtain ⟨h1, h2, honly⟩ := wr_wr_stores (s := s) (f := F.BUD_DCFG_HOLD_CLOCKS) (g := F.BUD_DCFG_DROOP_MV) (i := die.val) (by decide) hhold' hmv'
  exact ⟨_, rfl, h2, h1, honly.swap⟩

/-- PATCH_CE stores 1 for 0 (R434). -/
theorem execMowCfgWrite_stores (s : State) (g : Fin 16) (v : Nat) :
    ∃ t, execMowCfgWrite g v s = .next t ∧ t.rd F.MOW_CFG_SCRUB_INTERVAL g.val = v % 2 ^ 32 ∧
      t.rd F.MOW_CFG_PATCH_CE g.val = max (bitsAt v 32 4) 1 ∧
      OnlyKeys s t [(F.MOW_CFG_SCRUB_INTERVAL, g.val, 0), (F.MOW_CFG_PATCH_CE, g.val, 0)] := by
  have hce : max (bitsAt v 32 4) 1 % 16 = max (bitsAt v 32 4) 1 := by
    have := bitsAt_mod v 32 4
    omega
  exact ⟨_, rfl, wr_wr_stores (by decide) rfl hce⟩

/-- LANE_FAIL_LOG2 stores the nearer limit of 12 to 24 (R559). -/
theorem execPlkCfgWrite_stores (s : State) (port : Fin 12) (v : Nat) :
    ∃ t, execPlkCfgWrite port v s = .next t ∧ t.rd F.PLK_CFG_ASYM_PS port.val = bitsAt v 16 16 ∧
      t.rd F.PLK_CFG_LANE_FAIL_LOG2 port.val = max 12 (min 24 (bitsAt v 0 5)) ∧
      OnlyKeys s t [(F.PLK_CFG_ASYM_PS, port.val, 0), (F.PLK_CFG_LANE_FAIL_LOG2, port.val, 0)] := by
  have hlane : max 12 (min 24 (bitsAt v 0 5)) % 32 = max 12 (min 24 (bitsAt v 0 5)) := by omega
  exact ⟨_, rfl, wr_wr_stores (by decide) (bitsAt_mod v 16 16) hlane⟩

/-- HIGH_WM is no lower than LOW_WM (R352). -/
theorem execCtxCfgWrite_stores (s : State) (p : Fin 16) (v : Nat) :
    ∃ t, execCtxCfgWrite p v s = .next t ∧ t.rd F.CTX_CFG_LOW_WM p.val = bitsAt v 0 20 ∧
      t.rd F.CTX_CFG_HIGH_WM p.val = max (bitsAt v 0 20) (bitsAt v 20 20) ∧
      t.rd F.CTX_CFG_DEMOTE_EN p.val = bitsAt v 42 1 ∧ t.rd F.CTX_CFG_DROP_EN p.val = bitsAt v 43 1 ∧
      OnlyKeys s t [(F.CTX_CFG_LOW_WM, p.val, 0), (F.CTX_CFG_HIGH_WM, p.val, 0), (F.CTX_CFG_DEMOTE_EN, p.val, 0),
        (F.CTX_CFG_DROP_EN, p.val, 0)] := by
  have hlow : bitsAt v 0 20 % 2 ^ 20 = bitsAt v 0 20 := bitsAt_mod ..
  have hhigh : max (bitsAt v 0 20) (bitsAt v 20 20) % 2 ^ 20 = max (bitsAt v 0 20) (bitsAt v 20 20) := by
    have := bitsAt_mod v 20 20
    omega
  let a := (s.wr F.CTX_CFG_LOW_WM p.val (bitsAt v 0 20)).wr F.CTX_CFG_HIGH_WM p.val (max (bitsAt v 0 20) (bitsAt v 20 20))
  obtain ⟨halow, hahigh, -⟩ : a.rd F.CTX_CFG_LOW_WM p.val = _ ∧ a.rd F.CTX_CFG_HIGH_WM p.val = _ ∧ _ :=
    wr_wr_stores (by decide) hlow hhigh
  obtain ⟨hdemote, hdrop, -⟩ := wr_wr_stores (s := a) (f := F.CTX_CFG_DEMOTE_EN) (g := F.CTX_CFG_DROP_EN) (i := p.val) (by decide)
    (bitsAt_mod v 42 1) (bitsAt_mod v 43 1)
  refine ⟨_, rfl, ?_, ?_, hdemote, hdrop, ?_⟩
  · exact (State.rd_wr_fld (by decide)).trans ((State.rd_wr_fld (by decide)).trans halow)
  · exact (State.rd_wr_fld (by decide)).trans ((State.rd_wr_fld (by decide)).trans hahigh)
  · exact onlyKeys_wr (onlyKeys_wr (onlyKeys_wr (onlyKeys_wr onlyKeys_refl (by simp)) (by simp)) (by simp)) (by simp)

/-- DEV_ID is stored and valid (R592). -/
theorem execDevIdWrite_stores (s : State) {v : Nat} (hv : v < 64) :
    ∃ t, execDevIdWrite v s = .next t ∧ t.rd F.RTE_DCFG_DEV_ID 0 = v ∧ t.rd F.RTE_DCFG_DEV_VALID 0 = 1 ∧
      OnlyKeys s t [(F.RTE_DCFG_DEV_ID, 0, 0), (F.RTE_DCFG_DEV_VALID, 0, 0)] :=
  ⟨_, rfl, wr_wr_stores (by decide) (Nat.mod_eq_of_lt hv) rfl⟩

/-- Settles O6: each write by what its register stores. -/
theorem clampedWrites : Obligations.ClampedWrites := fun s =>
  ⟨fun core _ => execCeLimitWrite_sets s core, fun p _ => execWaitDefaultUsWrite_sets s p, fun p _ => execChkTWrite_sets s p,
    execXlateTimeoutMsWrite_sets s, fun die _ _ => execBudDcfgWrite_stores s die, execMowCfgWrite_stores s, execPlkCfgWrite_stores s,
    execCtxCfgWrite_stores s, execCtxFarcfgWrite_stores s, fun _ => execDevIdWrite_stores s⟩

end Sys2Proof.Machine
end

section
/-! PROOFS. Arrival writes and the patrol of the shelf stores (chapter 02) as untimed events that the budget admitted. -/

namespace Sys2Proof.Machine

/-! ### What events and error records leave in the registers -/

/-- The registers that an event can change: the tail of an event queue, or the count of lost events (R500). -/
def eventFlds : List Fld := [F.CMQ_EQ_TAIL_PHASE, F.CMQ_EQ_TAIL_INDEX, F.CMQ_EQ_LOST_OVF, F.CMQ_EQ_LOST_COUNT]

/-- An event changes no other register. -/
theorem State.event_rd {s : State} {fn code status detail pdk : Nat} {g : Fld} {i j : Nat}
    (hg : ∀ f ∈ eventFlds, g.id ≠ f.id) :
    (s.event fn code status detail pdk).rd g i j = s.rd g i j := by
  have hphase := hg F.CMQ_EQ_TAIL_PHASE (by simp [eventFlds])
  have hindex := hg F.CMQ_EQ_TAIL_INDEX (by simp [eventFlds])
  have hovf := hg F.CMQ_EQ_LOST_OVF (by simp [eventFlds])
  have hcount := hg F.CMQ_EQ_LOST_COUNT (by simp [eventFlds])
  unfold State.event
  extract_lets a _ lost d t ph b _ c t' e u
  have he : e.rd g i j = s.rd g i j := State.rd_wr_fld hindex
  have hu : u.rd g i j = s.rd g i j := (apply_ite (fun x : State => x.rd g i j) ..).trans
    (ite_both ((State.rd_wr_fld hphase).trans he) he)
  split
  · rfl
  split
  · exact State.rd_bump_fld (s := s) hcount hovf
  · exact (State.rd_congr (State.msix_regs ..) g i j).trans hu

/-- The log's own count of masked faults is no register. -/
theorem State.logged_rd (s : State) (l : Tbl (Nat × Nat)) (g : Fld) (i j : Nat) : ({ s with logged := l } : State).rd g i j = s.rd g i j := rfl

/-- An entry of the device error log is an event to function 0 (R671). -/
theorem State.deviceError_rd {s : State} {cls unit addr status pdk : Nat} {masked : Bool} {g : Fld} {i j : Nat}
    (hg : ∀ f ∈ eventFlds, g.id ≠ f.id) :
    (s.deviceError cls masked unit addr status pdk).rd g i j = s.rd g i j := by
  unfold State.deviceError
  rcases tget (0, 0) s.logged [cls, unit] with ⟨t0, n⟩
  dsimp -zeta only
  extract_lets fresh m u _ v
  have hu : u.rd g i j = s.rd g i j := State.logged_rd ..
  have hv : v.rd g i j = s.rd g i j := (apply_ite (fun x : State => x.rd g i j) ..).trans (ite_both (State.logged_rd ..) rfl)
  clear_value u v
  exact (apply_ite (fun x : State => x.rd g i j) ..).trans (ite_both ((State.rd_congr rfl g i j).trans hu) ((State.event_rd hg).trans hv))

/-- A shelf error writes its record (DRW_SHELF_ERR, fields 39 to 47) and the device error log, and no register before them. -/
theorem State.shelfErr_rd {s : State} {c source bank brow codeword row : Nat} {uncorr : Bool} {g : Fld} {i j : Nat} (hg : g.id < 39) :
    (s.shelfErr c source bank brow codeword row uncorr).rd g i j = s.rd g i j := by
  have hwr : ∀ {u : State} {f : Fld} {v : Nat}, 39 ≤ f.id → u.rd g i j = s.rd g i j → (u.wr f c v).rd g i j = s.rd g i j :=
    fun hf hu => (State.rd_wr_fld (by omega)).trans hu
  unfold State.shelfErr
  extract_lets a b d e u
  have ha : a.rd g i j = s.rd g i j := State.deviceError_rd fun f hf =>
    Nat.ne_of_lt (Nat.lt_of_lt_of_le hg ((by decide : ∀ f ∈ eventFlds, 39 ≤ f.id) f hf))
  have hb : b.rd g i j = s.rd g i j := hwr (by decide) (hwr (by decide) ha)
  have hd : d.rd g i j = s.rd g i j := hwr (by decide) (hwr (by decide) hb)
  have he : e.rd g i j = s.rd g i j := hwr (by decide) (hwr (by decide) hd)
  have hu : u.rd g i j = s.rd g i j := hwr (by decide) he
  exact (apply_ite (fun x : State => x.rd g i j) ..).trans (ite_both ha (hwr (by decide) (hwr (by decide) hu)))

@[simp] theorem State.shelfErr_mem (s : State) (c source bank brow codeword row : Nat) (uncorr : Bool) :
    (s.shelfErr c source bank brow codeword row uncorr).mem = s.mem := by
  simp [State.shelfErr, apply_ite State.mem]

/-- A row marked for repair changes DRW_REPAIR_PEND (fields 50 and 51) alone (R59). -/
theorem State.markRow_rd {s : State} {c bank brow : Nat} {g : Fld} {i j : Nat} (hg : g.id < 50) :
    (s.markRow c bank brow).rd g i j = s.rd g i j := by
  have hpend : g.id ≠ F.DRW_REPAIR_PEND_PEND_ROWS.id := Nat.ne_of_lt hg
  have hmask : g.id ≠ F.DRW_REPAIR_PEND_BANK_MASK.id := Nat.ne_of_lt (Nat.lt_succ_of_lt hg)
  exact (apply_ite (fun x : State => x.rd g i j) ..).trans
    (ite_both rfl ((State.rd_wr_fld hmask).trans (State.rd_wr_fld hpend)))

@[simp] theorem State.markRow_mem (s : State) (c bank brow : Nat) : (s.markRow c bank brow).mem = s.mem := by
  simp [State.markRow, apply_ite State.mem]

@[simp] theorem State.trackRow_mem (s : State) (c bank brow : Nat) : (s.trackRow c bank brow).mem = s.mem := by
  simp [State.trackRow, apply_ite State.mem]

/-! ### Untimed events that the budget admitted -/

/-- Event `e` of paddock `p` is taken from the admitted ones. -/
def State.spend (s : State) (p : Nat) (e : Held) : State := s.setAdmitted p (removeFirst (· == e) (s.admittedOf p))

/-- An event that was admitted goes on (R124). -/
theorem State.untimed_admitted {s : State} {p src w : Nat} {tag : List Nat} {go : State → State}
    (h : (s.admittedOf p).contains ⟨src, w, tag⟩ = true) : s.untimed p src w tag go = go (s.spend p ⟨src, w, tag⟩) := if_pos h

/-! ### Arrivals -/

theorem State.arrivalGo_admitted {s : State} {a : Arrival}
    (h : (s.admittedOf (corePdk a.core)).contains ⟨srcStream a.core a.stream, 1, [0, a.core, a.op, a.row]⟩ = true) :
    s.arrivalGo a = (s.spend (corePdk a.core) ⟨srcStream a.core a.stream, 1, [0, a.core, a.op, a.row]⟩).landArrival a :=
  State.untimed_admitted h

/-- The oldest arrival of an idle bank, one of the four oldest of such banks, has its turn (R50). -/
theorem execArrivalWriteCommit_goes {s : State} {core : Fin 128} {bank : Fin 32} {k : Nat} {a : Arrival}
    (hk : ((s.arrivalHeads core.val).filter (fun a => s.idleBank core.val (bankOf a.row))).findIdx? (fun a => bankOf a.row == bank.val) = some k)
    (ha : ((s.arrivalHeads core.val).filter (fun a => s.idleBank core.val (bankOf a.row)))[k]? = some a)
    (hgate : tget false s.sched.gated [core.val] = false) (hturn : s.landedNow core.val + k < 4) :
    execArrivalWriteCommit core bank s = .next (s.arrivalGo a) := by
  unfold execArrivalWriteCommit
  simp only [hk, ha]
  exact if_neg (by simp [hgate, hturn])

/-- An arrival that waited 256 issuing ticks has its turn; without a timed access to its bank the core does not slip (R51). -/
theorem execArrivalWriteForced_goes {s : State} {core : Fin 128} {bank : Fin 32} {a : Arrival}
    (ha : (s.arrivalHeads core.val).find? (fun a => bankOf a.row == bank.val && decide (256 ≤ a.waited)) = some a)
    (hgate : tget false s.sched.gated [core.val] = false) (hturn : s.landedNow core.val < 4)
    (hused : (s.usedBanks core.val).contains bank.val = false) (htimed : s.timedIn core.val bank.val = false) :
    execArrivalWriteForced core bank s = .next (s.arrivalGo a) := by
  have hslip : ¬ (s.timedIn core.val bank.val = true ∧ (tget (0, 0) s.sched.owed [core.val]).1 = 0 ∧ (s.slipOf core.val).isNone = true) := by
    simp [htimed]
  unfold execArrivalWriteForced
  simp only [ha]
  rw [if_neg (by simp [hgate, hturn, hused, -List.contains_eq_mem]), if_neg hslip]

/-! ### The patrol's place in a bank -/

theorem State.patrolOf_setPatrol (s : State) (c b : Nat) (x : Patrol) : (s.setPatrol c b x).patrolOf c b = x := tget_tset_self

theorem State.setPatrol_mem (s : State) (c b : Nat) (x : Patrol) : (s.setPatrol c b x).mem = s.mem := rfl

@[simp] theorem State.syncPatrol_mem (s : State) (c : Nat) : (s.syncPatrol c).mem = s.mem := by simp [State.syncPatrol]

@[simp] theorem State.syncPatrol_patrolOf (s : State) (c c' b : Nat) : (s.syncPatrol c).patrolOf c' b = s.patrolOf c' b := by
  simp [State.syncPatrol, State.patrolOf]

/-- The end of a pass writes DRW_PATROL (fields 52 and 53) alone. -/
theorem State.syncPatrol_rd {s : State} {c : Nat} {g : Fld} {i j : Nat} (hg : g.id < 52) : (s.syncPatrol c).rd g i j = s.rd g i j :=
  (State.rd_wr_fld (Nat.ne_of_lt (Nat.lt_succ_of_lt hg))).trans (State.rd_wr_fld (Nat.ne_of_lt hg))

@[simp] theorem State.patrolStep_mem (s : State) (c b : Nat) : (s.patrolStep c b).mem = s.mem :=
  (apply_ite State.mem ..).trans (ite_both (State.syncPatrol_mem ..) rfl)

theorem State.patrolStep_rd {s : State} {c b : Nat} {g : Fld} {i j : Nat} (hg : g.id < 52) : (s.patrolStep c b).rd g i j = s.rd g i j :=
  (apply_ite (fun x : State => x.rd g i j) ..).trans (ite_both (State.syncPatrol_rd hg) rfl)

/-- The patrol's next row is not its pending write-back. -/
theorem State.patrolStep_fix (s : State) (c b : Nat) : ((s.patrolStep c b).patrolOf c b).fix = (s.patrolOf c b).fix := by
  unfold State.patrolStep
  extract_lets x now
  split
  · rw [State.syncPatrol_patrolOf, State.patrolOf_setPatrol]
  · rw [State.patrolOf_setPatrol]

/-- The state in which a patrol read has used its bank and gone on to the next row. -/
def State.patrolled (s : State) (c b : Nat) : State := (s.useBank c b).patrolStep c b

@[simp] theorem State.patrolled_mem (s : State) (c b : Nat) : (s.patrolled c b).mem = s.mem := State.patrolStep_mem ..

theorem State.patrolled_rd {s : State} {c b : Nat} {g : Fld} {i j : Nat} (hg : g.id < 52) : (s.patrolled c b).rd g i j = s.rd g i j :=
  State.patrolStep_rd hg

theorem State.patrolled_fix (s : State) (c b : Nat) : ((s.patrolled c b).patrolOf c b).fix = (s.patrolOf c b).fix := State.patrolStep_fix ..

@[simp] theorem State.patrolled_rowPoison (s : State) (c b c' row : Nat) : (s.patrolled c b).rowPoison c' row = s.rowPoison c' row := by
  simp [State.rowPoison]

/-! ### What a patrol read finds -/

theorem State.patrolRead_clean (s : State) (c b : Nat) : s.patrolRead c b none = s.patrolled c b := rfl

/-- An uncorrectable error poisons the row and counts (R55). -/
theorem State.patrolRead_uncorrectable {s : State} {c b cw row : Nat} (hrow : s.patrolRow c b (s.patrolOf c b).next = some row)
    (hp : s.rowPoison c row = false) :
    (s.patrolRead c b (some (cw, true))).rowPoison c row = true ∧ (s.patrolRead c b (some (cw, true))).mem.shelf = s.mem.shelf ∧
      (s.patrolRead c b (some (cw, true))).rd F.DRW_SHELF_UE_COUNT c = min (s.rd F.DRW_SHELF_UE_COUNT c + 1) maxCount := by
  have hclean : (some row).any (fun r => (s.patrolled c b).rowPoison c r) = false := by simp [hp]
  unfold State.patrolRead
  simp only [hrow]
  rw [show (s.useBank c b).patrolStep c b = s.patrolled c b from rfl, if_neg (by rw [hclean]; decide), if_pos trivial]
  refine ⟨?_, ?_, ?_⟩
  · simp only [State.rowPoison, State.event_mem, State.shelfErr_mem, State.markRow_mem, State.bump_mem]
    exact tget_tset_self
  · simp
  · rw [State.event_rd (by decide), State.shelfErr_rd (by decide), State.markRow_rd (by decide), State.rd_bump_self rfl (by decide)]
    exact congrArg (fun n => min (n + 1) maxCount) (State.patrolled_rd (by decide))

/-- A corrected error changes no memory and leaves the bank a row to write back (R54, R58). -/
theorem State.patrolRead_corrected {s : State} {c b cw row : Nat} (hrow : s.patrolRow c b (s.patrolOf c b).next = some row)
    (hp : s.rowPoison c row = false) :
    (s.patrolRead c b (some (cw, false))).mem = s.mem ∧ ((s.patrolRead c b (some (cw, false))).patrolOf c b).fix ≠ none := by
  have hclean : (some row).any (fun r => (s.patrolled c b).rowPoison c r) = false := by simp [hp]
  unfold State.patrolRead
  simp only [hrow]
  rw [show (s.useBank c b).patrolStep c b = s.patrolled c b from rfl, if_neg (by rw [hclean]; decide), if_neg (by decide)]
  constructor
  · exact (State.setPatrol_mem ..).trans ((State.shelfErr_mem ..).trans ((State.trackRow_mem ..).trans
      ((State.bump_mem ..).trans (State.patrolled_mem ..))))
  · rw [State.patrolOf_setPatrol]
    exact Option.some_ne_none _

/-! ### The patrol's commands -/

theorem State.patrolOn_gated {s : State} {c : Nat} (h : tget false s.sched.gated [c] = true) : s.patrolOn c = false := by
  simp [State.patrolOn, h]

section Off

variable {s : State} {core : Fin 128} {bank : Fin 32}

theorem execPatrolRead_off (h : s.patrolOn core.val = false) (err : Option (Nat × Bool)) : execPatrolRead core bank err s = .next s :=
  if_neg (by simp [h])

theorem execPatrolForced_off (h : s.patrolOn core.val = false) (err : Option (Nat × Bool)) : execPatrolForced core bank err s = .next s :=
  if_neg (by simp [h])

theorem execPatrolWriteBack_off (h : s.patrolOn core.val = false) : execPatrolWriteBack core bank s = .next s :=
  if_neg (by simp [h])

end Off

/-- A patrol read that was admitted, in an idle bank without arrivals or a pending write-back (R57). -/
theorem execPatrolRead_admitted {s : State} {core : Fin 128} {bank : Fin 32} {err : Option (Nat × Bool)} (hon : s.patrolOn core.val = true)
    (harr : (s.arrivalHeads core.val).any (fun a => bankOf a.row == bank.val) = false) (hidle : s.idleBank core.val bank.val = true)
    (hfix : (s.patrolOf core.val bank.val).fix = none)
    (hadm : (s.admittedOf (corePdk core.val)).contains ⟨srcPatrol (coreOff core.val), 1, [1, core.val, bank.val]⟩ = true) :
    execPatrolRead core bank err s = .next ((s.spend (corePdk core.val) ⟨srcPatrol (coreOff core.val), 1, [1, core.val, bank.val]⟩).patrolRead
      core.val bank.val err) :=
  (if_pos ⟨hon, hidle, hfix, harr⟩).trans (congrArg _ (State.untimed_admitted hadm))

/-- The patrol that waited 16,384 clocks; without a timed access to its bank the core does not slip (R57). -/
theorem execPatrolForced_goes {s : State} {core : Fin 128} {bank : Fin 32} {err : Option (Nat × Bool)} (hon : s.patrolOn core.val = true)
    (hwait : 16384 ≤ (s.patrolOf core.val bank.val).idle) (hused : (s.usedBanks core.val).contains bank.val = false)
    (htimed : s.timedIn core.val bank.val = false) :
    execPatrolForced core bank err s = .next ((s.setPatrol core.val bank.val { s.patrolOf core.val bank.val with idle := 0 }).untimed
      (corePdk core.val) (srcPatrol (coreOff core.val)) 1 [1, core.val, bank.val] (fun s => s.patrolRead core.val bank.val err)) := by
  have hslip : ¬ (s.timedIn core.val bank.val = true ∧ (tget (0, 0) s.sched.owed [core.val]).1 = 0 ∧ (s.slipOf core.val).isNone = true) := by
    simp [htimed]
  refine (if_pos ⟨hon, hwait, hused⟩).trans ?_
  dsimp only
  rw [if_neg hslip]

/-- The write-back leaves nothing to write back, and changes no memory and no register (R58). -/
theorem execPatrolWriteBack_admitted {s : State} {core : Fin 128} {bank : Fin 32} (hon : s.patrolOn core.val = true)
    (harr : (s.arrivalHeads core.val).any (fun a => bankOf a.row == bank.val) = false) (hidle : s.idleBank core.val bank.val = true)
    (hfix : (s.patrolOf core.val bank.val).fix ≠ none)
    (hadm : (s.admittedOf (corePdk core.val)).contains ⟨srcPatrol (coreOff core.val), 1, [2, core.val, bank.val]⟩ = true) :
    ∃ t, execPatrolWriteBack core bank s = .next t ∧ (t.patrolOf core.val bank.val).fix = none ∧ t.mem = s.mem ∧ t.regs = s.regs := by
  have hrun : execPatrolWriteBack core bank s = .next (s.untimed _ _ _ _ _) :=
    if_pos ⟨hon, hidle, Option.isSome_iff_ne_none.2 hfix, harr⟩
  rw [State.untimed_admitted hadm] at hrun
  exact ⟨_, hrun, congrArg Patrol.fix (State.patrolOf_setPatrol ..), rfl, rfl⟩

/-- Settles O25: an arrival lands, and a patrol reads its row, as the untimed event that the budget admitted. -/
theorem shelfRowAccesses : Obligations.ShelfRowAccesses := by
  intro s core bank
  refine ⟨fun k a hk ha hgate hturn hadm => ?_, fun a ha hgate hturn hused htimed hadm => ?_, fun hon harr hidle => ⟨fun err hfix hadm => ?_, ?_⟩,
    fun err hon hwait hused htimed => execPatrolForced_goes hon hwait hused htimed, fun hgate err => ?_⟩
  · exact (execArrivalWriteCommit_goes hk ha hgate hturn).trans (congrArg _ (State.arrivalGo_admitted hadm))
  · exact (execArrivalWriteForced_goes ha hgate hturn hused htimed).trans (congrArg _ (State.arrivalGo_admitted hadm))
  · refine ⟨_, execPatrolRead_admitted hon harr hidle hfix hadm, ?_, ?_, ?_⟩
    · rintro rfl
      rw [State.patrolRead_clean]
      exact ⟨State.patrolled_mem .., (State.patrolled_fix ..).trans hfix, State.patrolled_rd (by decide), State.patrolled_rd (by decide)⟩
    · rintro cw row rfl hrow hp
      exact State.patrolRead_uncorrectable (s := s.spend (corePdk core.val) _) hrow hp
    · rintro cw row rfl hrow hp
      exact State.patrolRead_corrected (s := s.spend (corePdk core.val) _) hrow hp
  · exact fun hfix hadm => execPatrolWriteBack_admitted hon harr hidle hfix hadm
  · have hoff := State.patrolOn_gated hgate
    exact ⟨execPatrolRead_off hoff err, execPatrolForced_off hoff err, execPatrolWriteBack_off hoff⟩

end Sys2Proof.Machine
end

section
/-! PROOFS. Records that are armed again: clearing VALID, WIN0_ERR, HANDOVER_LATE or REFUSED. -/

namespace Sys2Proof.Machine

/-- A command that writes 0 to a field sets that field alone. -/
theorem wr_zero_sets (s : State) (f : Fld) (i : Nat) :
    ∃ t, (.next (s.wr f i 0) : Host.Outcome State Fault Refusal) = .next t ∧ Sets s t f i 0 0 :=
  ⟨_, rfl, sets_wr (Nat.zero_mod _)⟩

/-- Settles O5: each clear is one write of 0, whose frame is `wr_zero_sets`. -/
theorem recordsRearm : Obligations.RecordsRearm := fun s =>
  ⟨fun core => wr_zero_sets s F.SCH_CSLIP0_VALID core, fun core => wr_zero_sets s F.ATN_STALE0_VALID core,
    fun p => wr_zero_sets s F.BUD_REC0_VALID p, fun p => wr_zero_sets s F.CTX_DEFER0_VALID p,
    fun p => wr_zero_sets s F.TBL_REC0_VALID p, fun p => wr_zero_sets s F.HBM_ERR0_VALID p,
    fun p => wr_zero_sets s F.MOW_ERR0_VALID p, fun p => wr_zero_sets s F.FAR_ERR0_VALID p,
    fun p => wr_zero_sets s F.RTE_ERR0_VALID p, fun p => wr_zero_sets s F.PDK_STATE_HANDOVER_LATE p,
    fun fn => wr_zero_sets s F.HIF_ERR0_VALID fn, fun fn => wr_zero_sets s F.HIF_WIN0_CTL_WIN0_ERR fn,
    wr_zero_sets s F.CLK_CFG_REFUSED 0⟩

end Sys2Proof.Machine
end

section
/-! PROOFS. The words of a stream that steer it (chapter 03): NOP, END, WAIT, SIGNAL, the stile words and loops; how a slip ends, and
what a wait that lasts too long does. -/

namespace Sys2Proof.Machine

/-- Steps that each relate a state to the next relate the first to the last. -/
theorem loopN_rel {R : State → State → Prop} {f : Nat → State → State} {s : State} (hrefl : ∀ u, R u u)
    (htrans : ∀ u v w, R u v → R v w → R u w) (hf : ∀ i u, R u (f i u)) : ∀ n, R s (loopN n f s)
  | 0 => hrefl s
  | n + 1 => by
    rw [loopN_succ]
    exact htrans _ _ _ (loopN_rel hrefl htrans hf n) (hf ..)

/-! ### What the end of a slip changes -/

theorem State.slipOf_setSlip (s : State) (c : Nat) (x : Option Slip) : (s.setSlip c x).slipOf c = x := tget_tset_self

/-- Nothing but registers, the waits and the slips differs. -/
structure SlipFrame (s t : State) : Prop where
  eq : t = { s with regs := t.regs, sched := { s.sched with waits := t.sched.waits, slips := t.sched.slips } }

namespace SlipFrame

variable {s t u : State}

theorem refl (s : State) : SlipFrame s s := ⟨rfl⟩

theorem trans (h : SlipFrame s t) (h' : SlipFrame t u) : SlipFrame s u := by
  constructor
  conv_lhs => rw [h'.eq, h.eq]

theorem wr (h : SlipFrame s t) (f : Fld) (i v j : Nat) : SlipFrame s (t.wr f i v j) := h.trans ⟨rfl⟩

theorem ite {c : Prop} [Decidable c] (ht : SlipFrame s t) (hu : SlipFrame s u) : SlipFrame s (if c then t else u) := by
  split <;> assumption

theorem loopN {f : Nat → State → State} (hf : ∀ i u, SlipFrame u (f i u)) (n : Nat) : SlipFrame s (loopN n f s) :=
  loopN_rel refl (fun _ _ _ => trans) hf n

theorem clearWait (s : State) (c st : Nat) : SlipFrame s (s.clearWait c st) := by
  unfold State.clearWait
  extract_lets _ a _ b d e
  have ha : SlipFrame s a := ⟨rfl⟩
  have hb : SlipFrame s b := (ha.wr ..).ite ha
  have hd : SlipFrame s d := (hb.wr ..).wr ..
  have he : SlipFrame s e := (hd.wr ..).wr ..
  exact (he.wr ..).wr ..

theorem mem (h : SlipFrame s t) : t.mem = s.mem := by rw [h.eq]
theorem taken (h : SlipFrame s t) : t.taken = s.taken := by rw [h.eq]
theorem kv (h : SlipFrame s t) : t.kv = s.kv := by rw [h.eq]
theorem out (h : SlipFrame s t) : t.out = s.out := by rw [h.eq]
theorem ends (h : SlipFrame s t) : t.sched.ends = s.sched.ends := by rw [h.eq]
theorem streamOf (h : SlipFrame s t) (c side st : Nat) : t.streamOf c side st = s.streamOf c side st :=
  (congrArg (fun u : State => u.streamOf c side st) h.eq).trans rfl

end SlipFrame

/-- The waits of streams 0 to n − 1 of a core end. -/
def State.clearWaits (s : State) (c n : Nat) : State :=
  loopN n (fun st u => if (tget none u.sched.waits [c, st]).isSome then u.clearWait c st else u) s

theorem State.clearWaits_frame (s : State) (c n : Nat) : SlipFrame s (s.clearWaits c n) :=
  SlipFrame.loopN (fun _ u => (SlipFrame.clearWait u c _).ite (SlipFrame.refl u)) n

theorem State.clearWait_waits (s : State) (c st : Nat) :
    (s.clearWait c st).sched.waits = tset none s.sched.waits [c, st] none := by
  simp [State.clearWait, apply_ite State.sched]

theorem State.clearWaits_waits (s : State) (c : Nat) : ∀ {n st : Nat}, st < n → tget none (s.clearWaits c n).sched.waits [c, st] = none
  | n + 1, st, h => by
    have hstep : s.clearWaits c (n + 1) =
        if (tget none (s.clearWaits c n).sched.waits [c, n]).isSome then (s.clearWaits c n).clearWait c n else s.clearWaits c n :=
      loopN_succ ..
    rw [hstep]
    rcases Nat.lt_succ_iff_lt_or_eq.1 h with hlt | rfl
    · have ih := clearWaits_waits s c hlt
      split
      · rwa [State.clearWait_waits, tget_tset_ne (by simpa using Nat.ne_of_lt hlt)]
      · exact ih
    · split
      · rw [State.clearWait_waits, tget_tset_self]
      · exact Option.not_isSome_iff_eq_none.1 (by assumption)

/-- The end of a slip: the waits end, the record of the slip takes its length, and the core is in none (R90, R95). -/
theorem State.slipDone_some {s : State} {c : Nat} {x : Slip} (h : s.slipOf c = some x) :
    ∃ u, SlipFrame (s.clearWaits c 12) u ∧ u.sched.waits = (s.clearWaits c 12).sched.waits ∧ s.slipDone c = u.setSlip c none := by
  unfold State.slipDone
  rw [h]
  dsimp -zeta only
  extract_lets a b
  have ha : s.clearWaits c 12 = a := rfl
  rw [ha]
  clear_value a
  refine ⟨b, ((SlipFrame.refl a).wr ..).ite (SlipFrame.refl a), ?_, rfl⟩
  exact (apply_ite (fun u : State => u.sched.waits) ..).trans (ite_both rfl rfl)

theorem State.slipDone_none {s : State} {c : Nat} (h : s.slipOf c = none) : s.slipDone c = s := by
  simp [State.slipDone, h]

theorem State.slipDone_frame (s : State) (c : Nat) : SlipFrame s (s.slipDone c) := by
  cases h : s.slipOf c with
  | none =>
    rw [State.slipDone_none h]
    exact SlipFrame.refl s
  | some x =>
    obtain ⟨u, hu, _, hdone⟩ := State.slipDone_some h
    rw [hdone]
    exact ((s.clearWaits_frame c 12).trans hu).trans ⟨rfl⟩

theorem State.slipDone_slipOf (s : State) (c : Nat) : (s.slipDone c).slipOf c = none := by
  cases h : s.slipOf c with
  | none => rw [State.slipDone_none h, h]
  | some x =>
    obtain ⟨u, _, _, hdone⟩ := State.slipDone_some h
    rw [hdone, State.slipOf_setSlip]

theorem State.slipDone_waits {s : State} {c st : Nat} (h : s.slipOf c ≠ none) (hst : st < 12) :
    tget none (s.slipDone c).sched.waits [c, st] = none := by
  obtain ⟨x, hx⟩ := Option.ne_none_iff_exists'.1 h
  obtain ⟨u, _, hwaits, hdone⟩ := State.slipDone_some hx
  have hnone := s.clearWaits_waits c hst
  rw [← hwaits] at hnone
  rw [hdone]
  exact hnone

/-! ### Streams, and an instruction that has issued -/

theorem State.streamOf_setStream (s : State) (c side st : Nat) (x : Stream) : (s.setStream c side st x).streamOf c side st = x :=
  tget_tset_self

theorem State.atEnd_ends (s : State) (c : Nat) (e : EndSig) :
    tget [] (s.atEnd c e).sched.ends [c] = tget [] s.sched.ends [c] ++ [e] := tget_tset_self

section Issued

variable (s : State) (a : At) (r : Run) (ws : List Nat)

theorem State.issued_mem : (s.issued a r ws).mem = s.mem := (s.slipDone_frame a.core.val).mem
theorem State.issued_taken : (s.issued a r ws).taken = s.taken := (s.slipDone_frame a.core.val).taken
theorem State.issued_kv : (s.issued a r ws).kv = s.kv := (s.slipDone_frame a.core.val).kv
theorem State.issued_out : (s.issued a r ws).out = s.out := (s.slipDone_frame a.core.val).out
theorem State.issued_ends : (s.issued a r ws).sched.ends = s.sched.ends := (s.slipDone_frame a.core.val).ends

/-- The stream has moved past its word, and stands in the same loops (R79). -/
theorem State.issued_streamOf : ∃ n, (s.issued a r ws).streamOf a.core.val r.side a.stream.val =
    { s.streamOf a.core.val r.side a.stream.val with
      idx := (s.streamOf a.core.val r.side a.stream.val).idx + wordLen (nth ws 0), last := some n } := by
  rw [← (s.slipDone_frame a.core.val).streamOf]
  exact ⟨_, State.streamOf_setStream ..⟩

theorem State.issued_regs {s : State} {a : At} (h : s.slipOf a.core.val = none) : (s.issued a r ws).regs = s.regs :=
  (congrArg State.regs (State.slipDone_none h)).trans rfl

theorem State.ctxOf_j : (s.ctxOf a r ws).j = (s.streamOf a.core.val r.side a.stream.val).iter :=
  congrArg Stream.iter ((s.slipDone_frame a.core.val).streamOf ..)

end Issued

section Words

variable {s : State} {a : At} {r : Run} {ws : List Nat}

/-- An instruction that issues and has no effect of its own: NOP, WAIT, STILE_WAIT. -/
theorem State.issueAs_idle {op : Nat} (h : s.issues op a r ws) : s.issueAs op a (fun _ u => u) = s.issued a r ws :=
  State.issueAs_issues h

/-- END ends the section of its stream (R110). -/
theorem execEndSection_issues (h : s.issues opcEnd a r ws) : ∃ t, execEndSection a s = .next t ∧ t.regs = (s.issued a r ws).regs ∧
    t.mem = s.mem ∧ t.streamOf a.core.val r.side a.stream.val =
      { (s.issued a r ws).streamOf a.core.val r.side a.stream.val with ended := true } :=
  ⟨_, congrArg Host.Outcome.next (State.issueAs_issues h), rfl, s.issued_mem a r ws, State.streamOf_setStream ..⟩

/-- An instruction whose effect is to queue a signal for the end of its tick (R139). -/
theorem State.issueAs_atEnd {op : Nat} {e : Ctx → EndSig} (h : s.issues op a r ws) :
    ∃ t, s.issueAs op a (fun x u => u.atEnd x.c (e x)) = t ∧ t.regs = (s.issued a r ws).regs ∧ t.mem = s.mem ∧
      tget [] t.sched.ends [a.core.val] = tget [] s.sched.ends [a.core.val] ++ [e (s.ctxOf a r ws)] := by
  refine ⟨_, State.issueAs_issues h, rfl, s.issued_mem a r ws, ?_⟩
  rw [← s.issued_ends a r ws]
  exact State.atEnd_ends ..

/-! ### Loops -/

/-- A word that does not issue takes effect where its stream stands at it (R79, R85). -/
theorem State.atWord_at {op : Nat} {eff : Run → List Nat → State → State} (hrun : s.sideOf (corePdk a.core.val) a.armed = some r)
    (hword : s.wordAt a.core.val r a.stream.val = some ws) (hlive : s.coreLive a.core.val = true)
    (hcause : (s.runsOf (corePdk a.core.val)).cause = none) (hop : wOp (nth ws 0) = op) (hhead : s.headOf a.core.val r.side ≠ none) :
    s.atWord a op eff = eff r ws s := by
  unfold State.atWord
  simp only [hrun, hword]
  exact if_neg (by simp [hlive, hcause, hop, hhead])

end Words

/-- Settles O20: a control word issues as its frame says, and LOOP and ENDLOOP move their stream alone. -/
theorem controlWords : Obligations.ControlWords := by
  intro s a r ws
  refine ⟨fun op _ => ?_, fun h => congrArg Host.Outcome.next (State.issueAs_idle h), fun h => congrArg Host.Outcome.next (State.issueAs_idle h),
    fun h => congrArg Host.Outcome.next (State.issueAs_idle h), execEndSection_issues, fun h => ?_, fun h => ?_,
    fun hrun hword hlive hcause hhead => ⟨fun hop => ?_, fun hop => ?_⟩⟩
  · obtain ⟨n, hn⟩ := s.issued_streamOf a r ws
    exact ⟨(congrArg Stream.idx hn).trans rfl, (congrArg Stream.loops hn).trans rfl, s.issued_mem a r ws, s.issued_taken a r ws, s.issued_kv a r ws,
      s.issued_out a r ws, State.issued_regs r ws⟩
  · obtain ⟨t, ht, hregs, hmem, hends⟩ := State.issueAs_atEnd
      (e := fun x => ⟨0, x.side, x.st, x.pos, fCell x.w, fCond x.w, operandAt x.w x.j⟩) h
    rw [← s.ctxOf_j a r ws]
    exact ⟨t, congrArg Host.Outcome.next ht, hregs, hmem, hends⟩
  · obtain ⟨t, ht, hrest⟩ := State.issueAs_atEnd (e := fun x => ⟨1, x.side, x.st, x.pos, fStile x.w, 0, fMask x.w⟩) h
    exact ⟨t, congrArg Host.Outcome.next ht, hrest⟩
  · refine ⟨_, congrArg Host.Outcome.next (State.atWord_at hrun hword hlive hcause hop hhead), rfl, rfl, ?_⟩
    rintro n rfl y rfl
    exact ⟨fun h0 => (State.streamOf_setStream ..).trans (if_pos h0), fun h0 => (State.streamOf_setStream ..).trans (if_neg h0)⟩
  · refine ⟨_, congrArg Host.Outcome.next (State.atWord_at hrun hword hlive hcause hop hhead), rfl, rfl, ?_⟩
    rintro y l ls rfl hloops
    refine ⟨fun hlt => ?_, fun hle => ?_⟩
    · rw [State.streamOf_setStream, hloops]
      exact if_pos hlt
    · rw [State.streamOf_setStream, hloops]
      exact if_neg (Nat.not_lt.2 hle)

/-! ### Slips and timeouts -/

/-- The pending tick of a core has begun to issue, so that nothing keeps its instructions any more. -/
def State.openTick (s : State) (c : Nat) : State := { s with sched := { s.sched with opened := tset false s.sched.opened [c] true } }

theorem State.openTick_opened (s : State) (c : Nat) : tget false (s.openTick c).sched.opened [c] = true :=
  (tget_tset_self : tget false (tset false s.sched.opened [c] true) [c] = true)

theorem execSlipEnd_ends {s : State} {c : Fin 128} (hlive : s.coreLive c.val = true) (hslip : s.slipOf c.val ≠ none)
    (hblock : s.blockOf c.val = none) (hres : s.unresolved c.val = false) :
    execSlipEnd c s = .next ((s.slipDone c.val).openTick c.val) :=
  if_pos ⟨hlive, Option.isSome_iff_ne_none.2 hslip, Option.isNone_iff_eq_none.2 hblock, hres⟩

/-- The wait that WAIT_TIMEOUT is about has reached its timeout, on the lowest such stream: it is recorded and aborts (R97, R98). -/
theorem execWaitTimeout_expired {s : State} {a : At} {d : Due} (hlive : s.coreLive a.core.val = true)
    (hcause : (s.runsOf (corePdk a.core.val)).cause = none) (hslip : s.slipOf a.core.val ≠ none)
    (hlow : (s.expired a.core.val).any (fun d => decide (d.stream < a.stream.val)) = false)
    (hfind : (s.expired a.core.val).find? (fun d => d.stream == a.stream.val && s.isRunning (corePdk a.core.val) d.run.side == !a.armed) = some d) :
    (wOp d.word = opcWait → execWaitTimeout a s =
      .next ((s.recordWto a.core.val 0 (fCell d.word) (fCond d.word) d.stream (s.posAt a.core.val d.run d.stream)
          (operandAt d.word (s.streamOf a.core.val d.run.side d.stream).iter) (s.rd F.SYN_VAL_VALUE a.core.val (fCell d.word))).timeoutAbort
        a.core.val 2 0x600 d.stream (s.posAt a.core.val d.run d.stream)
          (operandAt d.word (s.streamOf a.core.val d.run.side d.stream).iter) (s.rd F.SYN_VAL_VALUE a.core.val (fCell d.word)))) ∧
    (wOp d.word ≠ opcWait → ∃ x v, execWaitTimeout a s =
      .next ((s.recordWto a.core.val 1 (fStile d.word) 0 d.stream (s.posAt a.core.val d.run d.stream) x v).timeoutAbort
        a.core.val 3 0x600 d.stream (s.posAt a.core.val d.run d.stream) x v)) := by
  have hgo : ¬ (s.coreLive a.core.val = false ∨ (s.runsOf (corePdk a.core.val)).cause.isSome ∨ (s.slipOf a.core.val).isNone ∨
      (s.expired a.core.val).any (fun d => decide (d.stream < a.stream.val)) = true) := by
    simp only [hlive, hcause, hlow, Option.isNone_iff_eq_none, hslip]
    decide
  unfold execWaitTimeout
  dsimp only
  rw [if_neg hgo, hfind]
  exact ⟨fun hw => if_pos hw, fun hw => ⟨_, _, if_neg hw⟩⟩

theorem execWaitTimeout_none {s : State} {a : At} (h : s.expired a.core.val = []) : execWaitTimeout a s = .next s := by
  simp [execWaitTimeout, h]

/-- Settles O21: a slip that nothing holds ends; a wait or an untimed completion that takes too long is recorded and aborts. -/
theorem slipsAndTimeouts : Obligations.SlipsAndTimeouts := by
  intro s
  refine ⟨fun c hlive hslip hblock hres => ?_, fun c hslip => ?_, fun a d hlive hcause hslip hlow hfind =>
    execWaitTimeout_expired hlive hcause hslip hlow hfind, fun a h => execWaitTimeout_none h,
    fun c x hx hlive hcause huntimed => ⟨fun hlate => ?_, fun hearly => ?_⟩⟩
  · exact ⟨_, execSlipEnd_ends hlive hslip hblock hres, s.slipDone_slipOf c.val, (s.slipDone c.val).openTick_opened c.val,
      (s.slipDone_frame c.val).mem,
      (s.slipDone_frame c.val).out, fun st => State.slipDone_waits hslip st.isLt⟩
  · exact if_neg (by simp [hslip])
  · simp only [exec, execSlipTimeout, hx]
    exact if_pos ⟨hlive, Option.isNone_iff_eq_none.2 hcause, huntimed, hlate⟩
  · simp only [exec, execSlipTimeout, hx]
    exact if_neg (fun h => Nat.not_le.2 hearly h.2.2.2)

end Sys2Proof.Machine
end

section
/-! PROOFS. Images are loaded, unloaded and run (chapter 03); a module in recovery does neither (chapter 20). -/

namespace Sys2Proof.Machine

/-- In recovery a command other than the two that stage and activate firmware completes with 0x072A (R595). -/
theorem State.checked_recovery {s : State} {h : Hdr} {op status : Nat} {go : State → State} (hdeaf : s.deaf h = false)
    (hrec : s.trust.recovery = true) (hfatal : s.rd F.HIF_FATAL_FATAL 0 = 0) (hstage : op ≠ 0x71) (hactivate : op ≠ 0x72) :
    s.checked h op status go = s.complete h 0x72A := by
  unfold State.checked
  rw [if_neg (by simp [hdeaf]), if_neg (by simp [hfatal]), if_pos ⟨hrec, hstage, hactivate⟩]

/-! ### Slots -/

theorem State.imageOf_setSlotImage (s : State) (p slot : Nat) (im : Option Image) : (s.setSlotImage p slot im).imageOf p slot = im :=
  tget_tset_self

theorem State.imageOf_setSlotImage_ne (s : State) {p slot p' k : Nat} (im : Option Image) (h : p' ≠ p ∨ k ≠ slot) :
    (s.setSlotImage p slot im).imageOf p' k = s.imageOf p' k :=
  tget_tset_ne (by simpa [imp_iff_not_or] using h)

theorem State.complete_imageOf (s : State) (h : Hdr) (status p slot : Nat) : (s.complete h status).imageOf p slot = s.imageOf p slot := by
  simp [State.imageOf]

/-! ### The commands -/

/-- What SCHEDULE_LOAD does once its checks are passed and its pages are there (R103). -/
theorem execScheduleLoad_goes {s : State} {h : Hdr} {slot image bytes : Nat} {data : List Byte}
    (hgo : s.goes h opLoad (firstStatus [failIf (decide (3 < slot)) 0x201, failIf (s.slotBusy (paddockOf h) slot) 0x605,
      failIf (decide (2 ≤ ptrTag image)) 0x401, s.checkPtr h.fn.val (paddockOf h) image bytes false]))
    (hpages : s.untranslated h [⟨image, bytes, false⟩] ∨ s.translated h [⟨image, bytes, false⟩]) :
    execScheduleLoad h slot image bytes data s = .next (
      let u := s.begun h opLoad (.scheduleLoad h slot image bytes data) [⟨image, bytes, false⟩]
      let st := u.sourceStatus (paddockOf h) image bytes
      if st ≠ 0 then u.complete h st
      else
        let t := u.countRead h.fn.val (paddockOf h) image bytes
        let b := t.ptrRead (paddockOf h) image bytes data
        if b.length ≠ bytes then (t.setSlotImage (paddockOf h) slot none).complete h 0x210 else t.loadInto h slot b) :=
  congrArg Host.Outcome.next ((State.checked_goes hgo).trans (State.gate_begun hpages))

theorem execScheduleUnload_goes {s : State} {h : Hdr} {slot : Nat}
    (hgo : s.goes h 0x12 (firstStatus [failIf (decide (3 < slot)) 0x201, failIf (s.slotBusy (paddockOf h) slot) 0x605,
      failIf ((s.imageOf (paddockOf h) slot).isNone) 0x60A])) :
    execScheduleUnload h slot s = .next ((s.setSlotImage (paddockOf h) slot none).complete h 0) :=
  congrArg Host.Outcome.next (State.checked_goes hgo)

/-- Settles O22: each command passes its checks and does the one thing that its rule names. -/
theorem scheduleImages : Obligations.ScheduleImages := by
  intro s h slot
  refine ⟨?_, fun hgo => ⟨_, execScheduleUnload_goes hgo, rfl, ?_, ?_, fun p k hne => ?_⟩, ?_,
    fun hdeaf hrec hfatal => ⟨?_, fun params => ?_⟩⟩
  · rintro image bytes data hgo hpages u rfl
    have hrun := execScheduleLoad_goes (data := data) hgo hpages
    exact ⟨fun hbad => hrun.trans (congrArg Host.Outcome.next (if_pos hbad)),
      fun hgood => hrun.trans (congrArg Host.Outcome.next (if_neg (not_not.2 hgood)))⟩
  · rw [State.complete_imageOf, State.imageOf_setSlotImage]
  · exact State.complete_mem ..
  · rw [State.complete_imageOf, State.imageOf_setSlotImage_ne _ _ hne]
  · rintro params ps rfl hgo
    exact ⟨_, rfl, congrArg Host.Outcome.next (State.checked_goes hgo), State.start_mem ..⟩
  · exact congrArg Host.Outcome.next (State.checked_recovery hdeaf hrec hfatal (by decide) (by decide))
  · exact congrArg Host.Outcome.next (State.checked_recovery hdeaf hrec hfatal (by decide) (by decide))

end Sys2Proof.Machine
end

section
/-! PROOFS. Heads start, tails start, streams retire, runs complete and aborts end (chapter 03). -/

namespace Sys2Proof.Machine

/-! ### Head start -/

/-- The memories and the head ticks are the same. -/
structure HeadFrame (s t : State) : Prop where
  mem : t.mem = s.mem
  heads : t.sched.heads = s.sched.heads

namespace HeadFrame

variable {s t u : State}

theorem refl (s : State) : HeadFrame s s := ⟨rfl, rfl⟩

theorem trans (h : HeadFrame s t) (h' : HeadFrame t u) : HeadFrame s u := ⟨h'.mem.trans h.mem, h'.heads.trans h.heads⟩

theorem wr (h : HeadFrame s t) (f : Fld) (i v j : Nat) : HeadFrame s (t.wr f i v j) := h.trans ⟨rfl, rfl⟩

theorem ite {c : Prop} [Decidable c] (ht : HeadFrame s t) (hu : HeadFrame s u) : HeadFrame s (if c then t else u) := by
  split <;> assumption

theorem loopN {f : Nat → State → State} (hf : ∀ i u, HeadFrame u (f i u)) (n : Nat) : HeadFrame s (loopN n f s) :=
  loopN_rel refl (fun _ _ _ => trans) hf n

theorem headOf (h : HeadFrame s t) (c side : Nat) : t.headOf c side = s.headOf c side := congrArg (tget none · [c, side]) h.heads

theorem clearCell (s : State) (c n v : Nat) : HeadFrame s (s.clearCell c n v) := ⟨rfl, rfl⟩

theorem clearStile (s : State) (c k : Nat) : HeadFrame s (s.clearStile c k) := ⟨rfl, rfl⟩

theorem headCells (s : State) (c : Nat) (im : Image) : HeadFrame s (s.headCells c im) :=
  (loopN (fun _ u => (clearCell ..).ite (refl u)) 256).trans (loopN (fun _ u => (clearStile ..).ite (refl u)) 8)

theorem resetDrawer (s : State) (c d : Nat) : HeadFrame s (s.resetDrawer c d) := ⟨rfl, rfl⟩

theorem headDrawers (s : State) (c : Nat) (im : Image) : HeadFrame s (s.headDrawers c im) := by
  refine loopN (fun d u => ?_) 63
  have hreset := resetDrawer u c d
  split
  · exact ((refl u).wr ..).ite ((((hreset.wr ..).wr ..).wr ..).wr ..)
  · exact (((hreset.wr ..).wr ..).wr ..).wr ..

theorem warnSide (s : State) (p side w : Nat) : HeadFrame s (s.warnSide p side w) := ⟨rfl, rfl⟩

end HeadFrame

/-- A stream stands at the start of its section; an empty section has retired at once (R110). -/
def State.startStream (s : State) (c : Nat) (r : Run) (st : Nat) : State :=
  let t := s.setStream c r.side st stream0
  if t.wordsOf c r st = [] then t.setRet c r.side st else t

theorem HeadFrame.startStream (s : State) (c : Nat) (r : Run) (st : Nat) : HeadFrame s (s.startStream c r st) := by
  unfold State.startStream
  extract_lets t
  have ht : HeadFrame s t := ⟨rfl, rfl⟩
  have hret : HeadFrame s (t.setRet c r.side st) := ht.trans ⟨rfl, rfl⟩
  exact hret.ite ht

/-- The head of a side of a core stands at a tick. -/
def State.setHead (s : State) (c side tick : Nat) : State :=
  { s with sched := { s.sched with heads := tset none s.sched.heads [c, side] (some tick) } }

theorem State.setHead_headOf (s : State) (c side tick : Nat) : (s.setHead c side tick).headOf c side = some tick :=
  (tget_tset_self : tget none (tset none s.sched.heads [c, side] (some tick)) [c, side] = some tick)

/-- On a core that is marked failed the image aborts (R660). -/
theorem execHeadStart_bad {s : State} {c : Fin 128} {r : Run} {im : Image} (hdue : s.headDue c.val = some r) (him : s.imageOn c.val r = some im)
    (hcause : (s.runsOf (corePdk c.val)).cause = none) (hbad : tget false s.rel.badCores [s.phys c.val] = true) :
    execHeadStart c s = .next (s.abort (corePdk c.val) 0x541) := by
  simp [execHeadStart, hdue, him, hcause, hbad]

/-- The head takes the tick of its core, and no memory changes (R107). -/
theorem execHeadStart_starts {s : State} {c : Fin 128} {r : Run} {im : Image} (hdue : s.headDue c.val = some r)
    (him : s.imageOn c.val r = some im) (hcause : (s.runsOf (corePdk c.val)).cause = none)
    (hgood : tget false s.rel.badCores [s.phys c.val] = false) (hlive : s.coreLive c.val = true) :
    ∃ t, execHeadStart c s = .next t ∧ t.headOf c.val r.side = some (s.tickOf c.val) ∧ t.mem = s.mem := by
  unfold execHeadStart
  extract_lets k
  rw [show s.headDue k = some r from hdue]
  dsimp -zeta only
  rw [show s.imageOn k r = some im from him]
  dsimp -zeta only
  rw [if_neg (by simp [k, hcause]), if_neg (by simp [k, hgood]), if_neg (by simp [k, hlive])]
  extract_lets a b d e
  have ha : a.headOf c.val r.side = some (s.tickOf c.val) := s.setHead_headOf ..
  have hb : HeadFrame a b := ((HeadFrame.refl a).wr ..).ite (HeadFrame.refl a)
  have hd : HeadFrame a d := hb.trans ((HeadFrame.headCells ..).trans (HeadFrame.headDrawers ..))
  have he : HeadFrame a e := (hd.trans (HeadFrame.warnSide ..)).ite hd
  have hend := he.trans (HeadFrame.loopN (fun st u => HeadFrame.startStream u c.val r st) 12)
  exact ⟨_, rfl, (hend.headOf ..).trans ha, hend.mem⟩

/-! ### Tail start -/

/-- A running image is past TAIL_START on a core. -/
def State.markTail (s : State) (c : Nat) : State := { s with sched := { s.sched with tails := tset false s.sched.tails [c] true } }

theorem State.markTail_tails (s : State) (c : Nat) : tget false (s.markTail c).sched.tails [c] = true :=
  (tget_tset_self : tget false (tset false s.sched.tails [c] true) [c] = true)

/-- An operation of a run lies outside what the tail of its image declares (R108). -/
def State.tailUndeclared (s : State) (c side : Nat) (im : Image) : Bool :=
  s.sched.ops.any (fun o => o.core == c && o.side == side &&
    (!hasBit im.tailStreams o.stream || (doneAction o.done == 1 && !hasBit im.tailCells (doneCell o.done)) ||
      o.drawer.any (fun d => !hasBit im.tailDrawers d)))

theorem execTailStart_due {s : State} {c : Fin 128} {r : Run} {im : Image} {hd : Nat} (hrun : (s.runsOf (corePdk c.val)).running = some r)
    (him : s.imageOn c.val r = some im) (hhead : s.headOf c.val r.side = some hd) (hfresh : tget false s.sched.tails [c.val] = false)
    (hdue : hd + im.tailStart ≤ s.tickOf c.val) (hcause : (s.runsOf (corePdk c.val)).cause = none) :
    execTailStart c s = .next (if s.tailUndeclared c.val r.side im then (s.markTail c.val).abort (corePdk c.val) 0x608 else s.markTail c.val) := by
  unfold execTailStart
  simp only [hrun, him, hhead]
  exact if_neg (by simp [hfresh, hcause, hdue])

/-! ### Retirement and completion -/

theorem execStreamRetire_ended {s : State} {a : At} {r : Run} (hrun : s.sideOf (corePdk a.core.val) a.armed = some r)
    (hhead : s.headOf a.core.val r.side ≠ none) (hend : (s.streamOf a.core.val r.side a.stream.val).ended = true) :
    execStreamRetire a s = .next (if (s.streamOf a.core.val r.side a.stream.val).outst = 0 then s.setRet a.core.val r.side a.stream.val else s) := by
  unfold execStreamRetire
  simp only [hrun, Option.isSome_iff_ne_none.2 hhead, hend, true_and]
  split <;> rfl

theorem execRunComplete_running {s : State} {p : Fin 16} {x : Run} (hrun : (s.runsOf p.val).running = some x)
    (hcause : (s.runsOf p.val).cause = none) :
    (s.retiredAll F.SCH_RETIRED_RUN_RET p.val (s.maskOf p.val (some x)) = true →
      ∃ u, u = ((s.forgetSide p.val x.side).promote p.val).endRun x (firstWarning x.tally.warnings) ∧
        execRunComplete p s = .next ((u.armWaiting p.val (u.runsOf p.val).waiting.length).syncPstat p.val)) ∧
    (s.retiredAll F.SCH_RETIRED_RUN_RET p.val (s.maskOf p.val (some x)) = false → execRunComplete p s = .next s) := by
  unfold execRunComplete
  simp only [hrun]
  exact ⟨fun hret => ⟨_, rfl, if_neg (by simp [hcause, hret])⟩, fun hret => if_pos (.inr hret)⟩

/-! ### The end of an abort -/

theorem State.runsOf_setRuns (s : State) (p : Nat) (r : PdkRun) : (s.setRuns p r).runsOf p = r := tget_tset_self

theorem State.runsOf_setRuns_ne (s : State) {p q : Nat} (r : PdkRun) (h : q ≠ p) : (s.setRuns p r).runsOf q = s.runsOf q :=
  tget_tset_ne (by simpa using h)

theorem State.runsOf_congr {s t : State} (h : t.sched.runs = s.sched.runs) (p : Nat) : t.runsOf p = s.runsOf p :=
  congrArg (tget pdkRun0 · [p]) h

theorem State.syncPstat_sched (s : State) (p : Nat) : (s.syncPstat p).sched = s.sched := rfl

theorem loopN_sched {f : Nat → State → State} {s : State} (hf : ∀ i u, (f i u).sched = u.sched) (n : Nat) : (loopN n f s).sched = s.sched :=
  loopN_rel (R := fun u v => v.sched = u.sched) (fun _ => rfl) (fun _ _ _ h h' => h'.trans h) hf n

/-- The armed run becomes the running one (R110). -/
theorem State.promote_runsOf (s : State) (p : Nat) : (s.promote p).runsOf p =
    { s.runsOf p with running := (s.runsOf p).armed, armed := none, overlap := false } := by
  unfold State.promote
  extract_lets r a b
  have hb : b.sched = a.sched := by
    refine loopN_sched (fun i u => ?_) 8
    extract_lets c v
    split <;> rfl
  exact (State.runsOf_congr (congrArg Sched.runs hb) p).trans (State.runsOf_setRuns s p _)

/-- A paddock whose runs have all gone has nothing to promote. -/
theorem State.promote_idle (s : State) (p : Nat) : ((s.setRuns p pdkRun0).promote p).runsOf p = pdkRun0 := by
  rw [State.promote_runsOf, State.runsOf_setRuns]
  rfl

/-- Nothing is armed in a paddock whose runs have all gone. -/
theorem State.armWaiting_idle {s : State} {p : Nat} (h : s.runsOf p = pdkRun0) :
    (((s.armWaiting p (s.runsOf p).waiting.length).syncPstat p).runsOf p).cause = none ∧
      (((s.armWaiting p (s.runsOf p).waiting.length).syncPstat p).runsOf p).running = none := by
  rw [State.runsOf_congr (congrArg Sched.runs (State.syncPstat_sched ..)), h]
  exact ⟨congrArg PdkRun.cause h, congrArg PdkRun.running h⟩

/-- A step that gives up its place leaves a paddock alone in which no run waits (R349). -/
theorem State.unmark_runsOf {s : State} {p : Nat} (h : Hdr) (hwait : (s.runsOf p).waiting = []) : (s.unmark h).runsOf p = s.runsOf p := by
  unfold State.unmark
  by_cases hp : p = paddockOf h
  · subst hp
    rw [State.runsOf_setRuns, hwait, List.filter_nil, ← hwait]
  · exact State.runsOf_setRuns_ne _ _ hp

theorem State.endStep_runsOf (s : State) (y : Step) (p : Nat) : (s.endStep y).runsOf p = s.runsOf p :=
  State.runsOf_congr (congrArg Sched.runs (State.complete_sched ..)) p

theorem State.stepMaybeEnd_runsOf {s : State} {p : Nat} (y : Step) (hwait : (s.runsOf p).waiting = []) :
    (s.stepMaybeEnd y).runsOf p = s.runsOf p := by
  unfold State.stepMaybeEnd
  extract_lets a
  have ha : a.runsOf p = s.runsOf p := (apply_ite (State.runsOf · p) ..).trans (ite_both (State.unmark_runsOf _ hwait) rfl)
  exact (apply_ite (State.runsOf · p) ..).trans (ite_both ((State.endStep_runsOf ..).trans ha) ha)

/-- The end of a run leaves the runs of a paddock alone in which none waits (R110, R349). -/
theorem State.endRun_runsOf {s : State} {p : Nat} (x : Run) (status : Nat) (hwait : (s.runsOf p).waiting = []) :
    (s.endRun x status).runsOf p = s.runsOf p := by
  unfold State.endRun
  split
  · exact (apply_ite (State.runsOf · p) ..).trans
      (ite_both rfl (State.runsOf_congr (congrArg Sched.runs (State.complete_sched ..)) p))
  · split
    · rfl
    · exact State.stepMaybeEnd_runsOf _ hwait

section Abort

variable {s : State} {p : Fin 16} {cause : Nat}

/-- While line transactions of the paddock are in flight the abort goes on (R99). -/
theorem execAbortDrainDone_busy (hcause : (s.runsOf p.val).cause = some cause) (htxn : s.rd F.HBM_GSTAT_TXN p.val ≠ 0) :
    execAbortDrainDone p s = .next s := by
  unfold execAbortDrainDone
  simp only [hcause]
  exact if_pos (.inl htxn)

/-- The abort of a paddock in which no run is armed or waits leaves no cause and no run (R99). -/
theorem execAbortDrainDone_ends (hcause : (s.runsOf p.val).cause = some cause) (htxn : s.rd F.HBM_GSTAT_TXN p.val = 0)
    (hlines : s.net.lines.any (fun l => l.pdk == p.val && decide (l.src < 96)) = false) (harmed : (s.runsOf p.val).armed = none)
    (hwait : (s.runsOf p.val).waiting = []) :
    ∃ t, execAbortDrainDone p s = .next t ∧ (t.runsOf p.val).cause = none ∧ (t.runsOf p.val).running = none := by
  unfold execAbortDrainDone
  simp only [hcause, harmed, hwait, ite_self]
  rw [if_neg (by simp [htxn, hlines])]
  cases (s.runsOf p.val).running with
  | none => exact ⟨_, rfl, State.armWaiting_idle (s.promote_idle p.val)⟩
  | some x =>
    have hidle := (s.forgetSide p.val x.side).promote_idle p.val
    have hwait' := congrArg PdkRun.waiting hidle
    exact ⟨_, rfl, State.armWaiting_idle ((State.endRun_runsOf x cause hwait').trans hidle)⟩

end Abort

/-- Settles O23: each command does what its rule says where its condition holds, and nothing where it does not. -/
theorem runsStartAndEnd : Obligations.RunsStartAndEnd := by
  intro s
  refine ⟨fun c r im hdue him hcause => ⟨execHeadStart_bad hdue him hcause, execHeadStart_starts hdue him hcause⟩, fun c hdue => ?_,
    fun c r im hd hrun him hhead hfresh hdue hcause => ?_, fun a r hrun hhead hend => ?_,
    fun p x hrun hcause => execRunComplete_running hrun hcause,
    fun p cause hcause => ⟨execAbortDrainDone_busy hcause, execAbortDrainDone_ends hcause⟩⟩
  · simp [exec, execHeadStart, hdue]
  · have htail := execTailStart_due hrun him hhead hfresh hdue hcause
    refine ⟨fun hdeclared => ⟨_, htail.trans (congrArg Host.Outcome.next (if_neg (ne_true_of_eq_false hdeclared))), s.markTail_tails c.val, rfl, rfl⟩,
      fun hbad => htail.trans (congrArg Host.Outcome.next (if_pos hbad))⟩
  · have hret := execStreamRetire_ended hrun hhead hend
    exact ⟨fun h0 => hret.trans (congrArg Host.Outcome.next (if_pos h0)), fun h0 => hret.trans (congrArg Host.Outcome.next (if_neg h0))⟩

end Sys2Proof.Machine
end

section
/-! PROOFS. The current budget (chapter 04): held untimed events are admitted, and droop stretches begin, go on and end. -/

namespace Sys2Proof.Machine

/-! ### Untimed events -/

theorem State.heldOf_setHeld (s : State) (p : Nat) (l : List Held) : (s.setHeld p l).heldOf p = l := tget_tset_self

theorem State.admittedOf_setAdmitted (s : State) (p : Nat) (l : List Held) : (s.setAdmitted p l).admittedOf p = l := tget_tset_self

/-- Event `e` of paddock `p` leaves the held ones, is charged, and joins the admitted ones; the cyclic order goes on after its
source (R124). -/
def State.admitHeld (s : State) (p : Nat) (e : Held) : State :=
  let t := (s.setHeld p (removeFirst (· == e) (s.heldOf p))).ucharge p e.weight
  { t with bud := { t.bud with last := tset 0 t.bud.last [p] (e.src + 1) } }.setAdmitted p (s.admittedOf p ++ [e])

theorem State.admitHeld_admittedOf (s : State) (p : Nat) (e : Held) : (s.admitHeld p e).admittedOf p = s.admittedOf p ++ [e] :=
  State.admittedOf_setAdmitted ..

/-- The charge and the admission leave the held events alone. -/
theorem State.admitHeld_heldOf (s : State) (p : Nat) (e : Held) : (s.admitHeld p e).heldOf p = removeFirst (· == e) (s.heldOf p) :=
  calc (s.admitHeld p e).heldOf p
    _ = (s.setHeld p (removeFirst (· == e) (s.heldOf p))).heldOf p := rfl
    _ = removeFirst (· == e) (s.heldOf p) := State.heldOf_setHeld ..

section Admit

variable {s : State} {p : Fin 16} {e : Held}

theorem execUntimedEventAdmit_fits (hnext : s.nextHeld p.val = some e) (hfits : s.ufits p.val e.weight = true) :
    execUntimedEventAdmit p s = .next (s.admitHeld p.val e) := by
  unfold execUntimedEventAdmit
  simp only [hnext]
  exact if_neg (by simp [hfits])

theorem execUntimedEventAdmit_stays (hnext : s.nextHeld p.val = some e) (hfits : s.ufits p.val e.weight = false) :
    execUntimedEventAdmit p s = .next s := by
  unfold execUntimedEventAdmit
  simp only [hnext]
  exact if_pos hfits

theorem execUntimedEventAdmit_empty (hnext : s.nextHeld p.val = none) : execUntimedEventAdmit p s = .next s := by
  unfold execUntimedEventAdmit
  simp only [hnext]

end Admit

/-! ### Droop stretches -/

theorem State.droop_setDroop (s : State) (d : Nat) (x : Option (Nat × Nat)) : tget none (s.setDroop d x).bud.droop [d] = x := tget_tset_self

/-- A stretch whose last trip falls into the present clock lasts, whatever its HOLD_CLOCKS (R129). -/
theorem State.stretch_of_trip_now {s : State} {d c : Nat} (h : tget none s.bud.droop [d] = some (c, s.bud.clock)) :
    s.stretch d = some (c, s.bud.clock) := by
  unfold State.stretch
  simp only [h]
  exact if_pos (Nat.le_add_right ..)

/-- The memories, the budget and the droop registers of the dies (BUD_DCFG, BUD_DSTAT and BUD_DDROOP_EVT, fields 125 to 130) are the
same. -/
structure DroopFrame (s t : State) : Prop where
  mem : t.mem = s.mem
  bud : t.bud = s.bud
  rd : ∀ (g : Fld) (i j : Nat), 125 ≤ g.id → g.id ≤ 130 → t.rd g i j = s.rd g i j

namespace DroopFrame

variable {s t u : State}

theorem refl (s : State) : DroopFrame s s := ⟨rfl, rfl, fun _ _ _ _ _ => rfl⟩

theorem trans (h : DroopFrame s t) (h' : DroopFrame t u) : DroopFrame s u :=
  ⟨h'.mem.trans h.mem, h'.bud.trans h.bud, fun g i j hlo hhi => (h'.rd g i j hlo hhi).trans (h.rd g i j hlo hhi)⟩

theorem ite {c : Prop} [Decidable c] (ht : DroopFrame s t) (hu : DroopFrame s u) : DroopFrame s (if c then t else u) := by
  split <;> assumption

theorem loopN {f : Nat → State → State} (hf : ∀ i u, DroopFrame u (f i u)) (n : Nat) : DroopFrame s (loopN n f s) :=
  loopN_rel refl (fun _ _ _ => trans) hf n

theorem bump (s : State) {f : Fld} (hf : f.id < 125) (i : Nat) : DroopFrame s (s.bump f i) :=
  ⟨State.bump_mem .., State.bump_bud .., fun _ _ _ _ _ => State.rd_bump_fld (by omega) (by omega)⟩

theorem warnOn (s : State) (c w : Nat) : DroopFrame s (s.warnOn c w) := ⟨rfl, rfl, fun _ _ _ _ _ => rfl⟩

/-- The registers of the event queues come after those of the budget. -/
theorem event (s : State) (fn code status detail : Nat) : DroopFrame s (s.event fn code status detail) :=
  ⟨State.event_mem .., State.event_bud .., fun _ _ _ _ hhi => State.event_rd fun f hf =>
    Nat.ne_of_lt (Nat.lt_of_le_of_lt hhi ((by decide : ∀ f ∈ eventFlds, 130 < f.id) f hf))⟩

theorem stretch (h : DroopFrame s t) (d : Nat) : t.stretch d = s.stretch d := by
  unfold State.stretch
  rw [h.bud, h.rd F.BUD_DCFG_HOLD_CLOCKS d 0 (by decide) (by decide)]

end DroopFrame

/-- A stretch of die `d` begins in the present clock and is counted on the die (R129, R130). -/
def State.beginDroop (s : State) (d : Nat) : State :=
  (s.setDroop d (some (s.bud.clock, s.bud.clock))).bump F.BUD_DDROOP_EVT_COUNT d

/-- A stretch is counted for paddock `p`, warns the runs on its eight cores, and is reported to its VF while it is assigned (R130,
R131). -/
def State.tellDroop (p : Nat) (s : State) : State :=
  let t := loopN 8 (fun j u => u.warnOn (8 * p + j) 0x162) (s.bump F.BUD_DROOP_EVT_COUNT p)
  if t.pdkState p = pdkFree ∨ t.pdkState p = pdkOffline then t else t.event (vfOf p) 0x01 0x162 0

theorem State.beginDroop_mem (s : State) (d : Nat) : (s.beginDroop d).mem = s.mem := State.bump_mem ..

theorem State.beginDroop_stretch (s : State) (d : Nat) : (s.beginDroop d).stretch d = some (s.bud.clock, s.bud.clock) := by
  have hbud : (s.beginDroop d).bud = (s.setDroop d (some (s.bud.clock, s.bud.clock))).bud := State.bump_bud ..
  have hclock : (s.beginDroop d).bud.clock = s.bud.clock := (congrArg Bud.clock hbud).trans rfl
  rw [← hclock]
  apply State.stretch_of_trip_now
  rw [hclock, hbud, State.droop_setDroop]

theorem State.beginDroop_count (s : State) (d : Nat) :
    (s.beginDroop d).rd F.BUD_DDROOP_EVT_COUNT d = min (s.rd F.BUD_DDROOP_EVT_COUNT d + 1) maxCount := by
  have hactive : (s.setDroop d (some (s.bud.clock, s.bud.clock))).rd F.BUD_DDROOP_EVT_COUNT d = s.rd F.BUD_DDROOP_EVT_COUNT d :=
    State.rd_wr_fld (by decide)
  rw [← hactive]
  exact State.rd_bump_self rfl (by decide)

theorem State.tellDroop_frame (p : Nat) (s : State) : DroopFrame s (s.tellDroop p) := by
  have hwarned := (DroopFrame.bump s (f := F.BUD_DROOP_EVT_COUNT) (by decide) p).trans
    (DroopFrame.loopN (fun j u => DroopFrame.warnOn u (8 * p + j) 0x162) 8)
  exact hwarned.ite (hwarned.trans (DroopFrame.event ..))

section Trip

variable {s : State} {d : Fin 2}

theorem execDroopTrip_extends {c x : Nat} (h : s.stretch d.val = some (c, x)) :
    execDroopTrip d s = .next (s.setDroop d.val (some (c, s.bud.clock))) := by
  unfold execDroopTrip
  simp only [h]

/-- A first trip begins a stretch, tells the eight paddocks of the die, and sends the event to function 0. -/
theorem execDroopTrip_begins (h : s.stretch d.val = none) :
    execDroopTrip d s = .next ((loopN 8 (fun i u => u.tellDroop (8 * d.val + i)) (s.beginDroop d.val)).event 0 0x01 0x162
      (detailAt 0x10 d.val)) := by
  unfold execDroopTrip
  simp only [h]
  rfl

theorem execDroopStretchEnd_over (hdroop : tget none s.bud.droop [d.val] ≠ none) (hover : s.stretch d.val = none) :
    execDroopStretchEnd d s = .next (s.setDroop d.val none) :=
  if_pos ⟨Option.isSome_iff_ne_none.2 hdroop, Option.isNone_iff_eq_none.2 hover⟩

/-- What a first trip leaves: the stretch that has begun, its count, and the memories. -/
theorem execDroopTrip_first (h : s.stretch d.val = none) :
    ∃ t, execDroopTrip d s = .next t ∧ t.stretch d.val = some (s.bud.clock, s.bud.clock) ∧ t.mem = s.mem ∧
      t.rd F.BUD_DDROOP_EVT_COUNT d.val = min (s.rd F.BUD_DDROOP_EVT_COUNT d.val + 1) maxCount := by
  refine ⟨_, execDroopTrip_begins h, ?_⟩
  have hframe := (DroopFrame.loopN (s := s.beginDroop d.val) (fun i u => u.tellDroop_frame (8 * d.val + i)) 8).trans
    (DroopFrame.event _ 0 0x01 0x162 (detailAt 0x10 d.val))
  exact ⟨(hframe.stretch d.val).trans (s.beginDroop_stretch d.val), hframe.mem.trans (s.beginDroop_mem d.val),
    (hframe.rd _ d.val 0 (by decide) (by decide)).trans (s.beginDroop_count d.val)⟩

end Trip

/-- Settles O24: an event is admitted as `admitHeld` says, a first trip begins a stretch that its reports leave alone, a further one
extends it, and a stretch that has run out ends. -/
theorem currentBudget : Obligations.CurrentBudget := by
  intro s
  refine ⟨fun p e hnext => ⟨fun hfits => ?_, fun hfits => execUntimedEventAdmit_stays hnext hfits⟩,
    fun p hnext => execUntimedEventAdmit_empty hnext, fun d c x h => execDroopTrip_extends h, fun d h => ?_,
    fun d hdroop hover => ⟨_, execDroopStretchEnd_over hdroop hover, s.droop_setDroop d.val none, rfl⟩⟩
  · have hmem : e ∈ (s.admitHeld p.val e).admittedOf p.val := by simp [State.admitHeld_admittedOf]
    exact ⟨_, execUntimedEventAdmit_fits hnext hfits, hmem, s.admitHeld_heldOf p.val e, rfl, rfl⟩
  · obtain ⟨t, hexec, hstretch, hmem, hcount⟩ := execDroopTrip_first h
    exact ⟨t, hexec, by simp [hstretch], hmem, hcount⟩

end Sys2Proof.Machine
end

section
/-! PROOFS. Signals to sync cells, and what a cell overflow records and aborts (chapter 05). -/

namespace Sys2Proof.Machine

/-! ### An abort writes no register -/

theorem State.post_regs (s : State) (port : Option Nat) (owner vl : Nat) (line : Option Nat) (m : Msg) :
    (s.post port owner vl line m).regs = s.regs := by
  cases port with
  | some q => rfl
  | none => cases line <;> rfl

theorem State.sendMsg_regs (s : State) (m : Msg) : (s.sendMsg m).regs = s.regs := by
  unfold State.sendMsg
  dsimp only
  split
  · exact State.post_regs ..
  · rfl

theorem State.discardTimed_regs (s : State) (p : Nat) : (s.discardTimed p).regs = s.regs :=
  List.foldlRecOn (motive := fun u : State => u.regs = s.regs) _ _ rfl fun _ hu _ _ => hu

/-- An abort stops the runs and may send STOP messages; the registers follow when the runs end (R99). -/
theorem State.abortWith_regs (s : State) (p cause : Nat) (fanout : Bool) : (s.abortWith p cause fanout).regs = s.regs := by
  unfold State.abortWith
  extract_lets r keepArmed t
  have ht : t.regs = s.regs := State.discardTimed_regs ..
  clear_value t
  split
  · rfl
  split
  · refine (loopN_rel (R := fun u v : State => v.regs = u.regs) (fun _ => rfl) (fun _ _ _ huv hvw => hvw.trans huv) (fun k u => ?_) 64).trans ht
    split
    · exact State.sendMsg_regs ..
    · rfl
  · exact ht

theorem State.abort_rd (s : State) (p cause : Nat) (g : Fld) (i j : Nat) : (s.abort p cause).rd g i j = s.rd g i j :=
  State.rd_congr (State.abortWith_regs ..) g i j

/-! ### The record of the first error -/

/-- The first cell overflow or stile misuse of a core since schedule load is recorded; a later one is not (R152). -/
def State.recordSync (s : State) (c kind stream target position : Nat) (completion : Bool) : State :=
  if s.rd F.SYN_ERR0_VALID c = 1 then s
  else
    let t := (s.wr F.SYN_ERR0_VALID c 1).wr F.SYN_ERR0_KIND c kind
    let t := (t.wr F.SYN_ERR0_STREAM c stream).wr F.SYN_ERR0_TARGET c target
    let t := (t.wr F.SYN_ERR0_COMPLETION c (b2n completion)).wr F.SYN_ERR0_POSITION c position
    (t.wr F.SYN_ERR1_TICK c (t.tickOf c)).wr F.SYN_ERR2_TIME c t.now

/-- The registers of that record. -/
def synErrFlds : List Fld :=
  [F.SYN_ERR0_VALID, F.SYN_ERR0_KIND, F.SYN_ERR0_STREAM, F.SYN_ERR0_TARGET, F.SYN_ERR0_COMPLETION, F.SYN_ERR0_POSITION, F.SYN_ERR1_TICK,
    F.SYN_ERR2_TIME]

section Record

variable {s : State} {c kind stream target position : Nat} {completion : Bool}

theorem State.synError_eq : s.synError c kind stream target position completion =
    (s.recordSync c kind stream target position completion).abort (corePdk c) (if kind = 0 then 0x630 else 0x631) := rfl

theorem State.recordSync_onlyRegs : OnlyRegs s (s.recordSync c kind stream target position completion) synErrFlds := by
  unfold State.recordSync
  extract_lets a b d
  have ha : OnlyRegs s a synErrFlds := onlyRegs_wr (onlyRegs_wr onlyRegs_refl (by decide)) (by decide)
  have hb : OnlyRegs s b synErrFlds := onlyRegs_wr (onlyRegs_wr ha (by decide)) (by decide)
  have hd : OnlyRegs s d synErrFlds := onlyRegs_wr (onlyRegs_wr hb (by decide)) (by decide)
  exact onlyRegs_ite onlyRegs_refl (onlyRegs_wr (onlyRegs_wr hd (by decide)) (by decide))

theorem State.recordSync_again (h : s.rd F.SYN_ERR0_VALID c = 1) : s.recordSync c kind stream target position completion = s := if_pos h

/-- A first error is recorded with its kind, stream, target and position, as far as they fit their fields. -/
theorem State.recordSync_first (h : s.rd F.SYN_ERR0_VALID c ≠ 1) (hkind : kind < 2 ^ 3) (hstream : stream < 2 ^ 4) (htarget : target < 2 ^ 8)
    (hposition : position < 2 ^ 32) :
    ∃ u, s.recordSync c kind stream target position completion = u ∧ u.rd F.SYN_ERR0_VALID c = 1 ∧ u.rd F.SYN_ERR0_KIND c = kind ∧
      u.rd F.SYN_ERR0_STREAM c = stream ∧ u.rd F.SYN_ERR0_TARGET c = target ∧ u.rd F.SYN_ERR0_POSITION c = position := by
  refine ⟨_, if_neg h, ?_⟩
  simp (disch := decide) only [State.rd_wr_fld, State.rd_wr_self]
  exact ⟨rfl, Nat.mod_eq_of_lt hkind, Nat.mod_eq_of_lt hstream, Nat.mod_eq_of_lt htarget, Nat.mod_eq_of_lt hposition⟩

end Record

/-! ### Signals -/

section Signal

variable {s : State} {c n op x stream position : Nat} {completion : Bool}

theorem signalValue_add_over {v x : Nat} (h : 0xFFFFFFFF < v + x) : signalValue 0 v x = none := if_pos h

theorem signalValue_add_fits {v x : Nat} (h : v + x ≤ 0xFFFFFFFF) : signalValue 0 v x = some (v + x) := if_neg (Nat.not_lt.2 h)

theorem signalValue_set (v x : Nat) : signalValue 1 v x = some x := rfl

theorem signalValue_or {op v x : Nat} (h0 : op ≠ 0) (h1 : op ≠ 1) : signalValue op v x = some (Nat.lor v x) :=
  (if_neg h0).trans (if_neg h1)

/-- A signal that is not applied is a cell overflow: KIND 0, and status 0x0630 (R137, R152). -/
theorem State.signalCell_over (h : signalValue op (s.rd F.SYN_VAL_VALUE c n) x = none) :
    s.signalCell c n op x stream position completion = (s.recordSync c 0 stream n position completion).abort (corePdk c) 0x630 := by
  unfold State.signalCell
  rw [h]
  exact State.synError_eq

/-- Neither the record of an overflow nor the abort touches a cell. -/
theorem State.signalCell_over_value (h : signalValue op (s.rd F.SYN_VAL_VALUE c n) x = none) :
    (s.signalCell c n op x stream position completion).rd F.SYN_VAL_VALUE c n = s.rd F.SYN_VAL_VALUE c n := by
  rw [State.signalCell_over h, State.abort_rd]
  exact State.recordSync_onlyRegs.2 _ _ _ (by decide)

/-- A signal that is applied stores its value, which the cell holds as it is when it has 32 bits (R136). -/
theorem State.signalCell_value {w : Nat} (h : signalValue op (s.rd F.SYN_VAL_VALUE c n) x = some w) (hw : w < 2 ^ 32) :
    (s.signalCell c n op x stream position completion).rd F.SYN_VAL_VALUE c n = w := by
  unfold State.signalCell
  rw [h]
  simp (disch := decide) only [State.rd_wr_fld, State.rd_wr_self]
  exact Nat.mod_eq_of_lt hw

end Signal

/-- Settles O60: an ADD beyond 32 bits gives no value, so that it records and aborts only; every other signal has a value of 32 bits,
which the cell then reads. -/
theorem cellOverflow : Obligations.CellOverflow := by
  rintro s c n op x stream position completion v t rfl rfl
  refine ⟨?_, fun hv hx => ⟨?_, ?_, fun h0 h1 => ?_⟩⟩
  · rintro rfl hover
    have hnone := signalValue_add_over hover
    refine ⟨State.signalCell_over_value hnone, _, State.signalCell_over hnone, State.recordSync_onlyRegs, State.recordSync_again,
      fun hvalid hstream hn hposition => ?_⟩
    obtain ⟨u, rfl, hrecord⟩ := State.recordSync_first (completion := completion) hvalid (by decide : 0 < 2 ^ 3) hstream hn
      (Nat.lt_trans hposition (by decide))
    exact hrecord
  · rintro rfl hfits
    exact State.signalCell_value (signalValue_add_fits hfits) (Nat.lt_succ_of_le hfits)
  · rintro rfl
    exact State.signalCell_value (signalValue_set ..) hx
  · have hor : Nat.lor (s.rd F.SYN_VAL_VALUE c n) x < 2 ^ 32 := Nat.or_lt_two_pow hv hx
    exact ⟨State.signalCell_value (signalValue_or h0 h1) hor, Nat.le_of_lt_succ hor⟩

end Sys2Proof.Machine
end

section
/-! PROOFS. Appends (chapters 07 and 11): the instruction issues, a tile goes to its mover's append buffer, a transfer ends, and a row
arrives from elsewhere. -/

namespace Sys2Proof.Machine

/-! ### The frame of a tile's end -/

/-- The memories, the free values and the counts of tiles are the same. -/
structure TileFrame (s t : State) : Prop where
  mem : t.mem = s.mem
  free : t.free = s.free
  tiles : ∀ c, t.rd F.MXE_TILES_COUNT c = s.rd F.MXE_TILES_COUNT c

namespace TileFrame

variable {s₀ s t : State}

theorem refl (s : State) : TileFrame s s := ⟨rfl, rfl, fun _ => rfl⟩

/-- A change beside the registers, the memories and the free values. -/
theorem beside (h : TileFrame s₀ s) (hr : t.regs = s.regs) (hm : t.mem = s.mem) (hf : t.free = s.free) : TileFrame s₀ t :=
  ⟨hm.trans h.mem, hf.trans h.free, fun c => (State.rd_congr hr ..).trans (h.tiles c)⟩

/-- A change of other registers. -/
theorem onlyRegs {fs : List Fld} (h : TileFrame s₀ s) (ht : OnlyRegs s t fs) (hfs : ∀ f ∈ fs, F.MXE_TILES_COUNT.id ≠ f.id) :
    TileFrame s₀ t :=
  ⟨(congrArg State.mem ht.1).trans h.mem, (congrArg State.free ht.1).trans h.free, fun c => (ht.2 _ _ _ hfs).trans (h.tiles c)⟩

theorem wr {f : Fld} {i v j : Nat} (h : TileFrame s₀ s) (hf : F.MXE_TILES_COUNT.id ≠ f.id) : TileFrame s₀ (s.wr f i v j) :=
  ⟨h.mem, h.free, fun c => (State.rd_wr_fld hf).trans (h.tiles c)⟩

theorem bump {f : Fld} {i j n : Nat} (h : TileFrame s₀ s) (hf : F.MXE_TILES_COUNT.id ≠ f.id) (hovf : F.MXE_TILES_COUNT.id ≠ f.id - 1) :
    TileFrame s₀ (s.bump f i j n) :=
  ⟨(State.bump_mem ..).trans h.mem, (State.bump_free ..).trans h.free, fun c => (State.rd_bump_fld hf hovf).trans (h.tiles c)⟩

theorem ite {c : Prop} [Decidable c] (hs : TileFrame s₀ s) (ht : TileFrame s₀ t) : TileFrame s₀ (if c then s else t) := by
  split <;> assumption

theorem foldl {α : Type} {l : List α} {f : State → α → State} (h : TileFrame s₀ s) (hf : ∀ u x, TileFrame s₀ u → TileFrame s₀ (f u x)) :
    TileFrame s₀ (l.foldl f s) :=
  List.foldlRecOn (motive := TileFrame s₀) _ _ h fun u hu x _ => hf u x hu

/-! ### Aborts and errors -/

theorem sendMsg (h : TileFrame s₀ s) (m : Msg) : TileFrame s₀ (s.sendMsg m) := by
  unfold State.sendMsg
  extract_lets vl
  split
  · rename_i port _
    cases port with
    | some q => exact h.beside rfl rfl rfl
    | none => exact h.beside rfl rfl rfl
  · exact h

theorem discardTimed (h : TileFrame s₀ s) (p : Nat) : TileFrame s₀ (s.discardTimed p) := by
  unfold State.discardTimed
  extract_lets mine gone a keyed
  have ha : TileFrame s₀ a := h.foldl fun _ _ hu => hu.beside rfl rfl rfl
  exact ha.beside rfl rfl rfl

theorem abort (h : TileFrame s₀ s) (p cause : Nat) : TileFrame s₀ (s.abort p cause) := by
  unfold State.abort State.abortWith
  extract_lets r keepArmed a
  have hruns : TileFrame s₀ (s.setRuns p { r with cause := some cause, stopArmed := !keepArmed }) := h.beside rfl rfl rfl
  have ha : TileFrame s₀ a := hruns.discardTimed p
  exact h.ite (TileFrame.ite (ha.foldl fun _ _ hu => (hu.sendMsg _).ite hu) ha)

theorem deviceError (h : TileFrame s₀ s) (cls : Nat) (masked : Bool) (unit addr status pdk : Nat) :
    TileFrame s₀ (s.deviceError cls masked unit addr status pdk) :=
  ⟨(State.deviceError_mem ..).trans h.mem, (State.deviceError_free ..).trans h.free,
    fun c => (State.deviceError_rd (by decide)).trans (h.tiles c)⟩

/-! ### The end of an operation -/

theorem synError (h : TileFrame s₀ s) (c kind stream target position : Nat) (completion : Bool) :
    TileFrame s₀ (s.synError c kind stream target position completion) := by
  rw [State.synError_eq]
  exact (h.onlyRegs State.recordSync_onlyRegs (by decide)).abort ..

theorem signalCell (h : TileFrame s₀ s) (c n op x stream position : Nat) (completion : Bool) :
    TileFrame s₀ (s.signalCell c n op x stream position completion) := by
  unfold State.signalCell
  split
  · exact h.synError ..
  · extract_lets a b
    have ha : TileFrame s₀ a := (h.wr (by decide)).wr (by decide)
    have hb : TileFrame s₀ b := (ha.wr (by decide)).wr (by decide)
    exact (hb.wr (by decide)).wr (by decide)

theorem stileArrive (h : TileFrame s₀ s) (c k stream position : Nat) (completion : Bool) :
    TileFrame s₀ (s.stileArrive c k stream position completion) := by
  unfold State.stileArrive
  extract_lets arrived a _ b d e
  have ha : TileFrame s₀ a := (h.wr (by decide)).wr (by decide)
  have hb : TileFrame s₀ b := ha.beside rfl rfl rfl
  have he : TileFrame s₀ e := ((hb.wr (by decide)).wr (by decide)).wr (by decide)
  exact (h.synError ..).ite (((he.wr (by decide)).wr (by decide)).ite (hb.wr (by decide)))

theorem dropOp (h : TileFrame s₀ s) (o : Op) : TileFrame s₀ (s.dropOp o) := h.beside rfl rfl rfl

theorem completeOp (h : TileFrame s₀ s) (o : Op) : TileFrame s₀ (s.completeOp o) :=
  ((h.dropOp o).signalCell ..).ite (((h.dropOp o).stileArrive ..).ite (h.dropOp o))

/-! ### The checks of a tile -/

theorem tileChecks (h : TileFrame s₀ s) (o : Op) (t : Tile) (r : TileOut) : TileFrame s₀ (s.tileChecks o t r) := by
  unfold State.tileChecks
  extract_lets c fails a b d e
  have ha : TileFrame s₀ a := h.bump (by decide) (by decide)
  have hb : TileFrame s₀ b := ha.bump (by decide) (by decide)
  have he : TileFrame s₀ e := (((hb.wr (by decide)).wr (by decide)).wr (by decide)).wr (by decide)
  clear_value a b e fails
  cases fails with
  | nil => exact ha
  | cons m _ =>
    dsimp -zeta only
    extract_lets ex f g u
    have hg : TileFrame s₀ g := ((he.wr (by decide)).wr (by decide)).wr (by decide)
    have hu : TileFrame s₀ u := hb.ite ((hg.wr (by decide)).wr (by decide))
    exact (hu.deviceError ..).abort ..

theorem syncMxe (h : TileFrame s₀ s) (c : Nat) : TileFrame s₀ (s.syncMxe c) :=
  ((h.wr (by decide)).wr (by decide)).wr (by decide)

end TileFrame

/-! ### The append buffer of a mover -/

theorem State.appBufOf_setAppBuf (s : State) (c m : Nat) (l : List AppTile) : (s.setAppBuf c m l).appBufOf c m = l := tget_tset_self

/-- Without a completion action an operation just ends (R142). -/
theorem State.completeOp_silent {s : State} {o : Op} (h : o.done = 0) : s.completeOp o = s.dropOp o := by
  have hact : doneAction o.done = 0 := by rw [h]; rfl
  unfold State.completeOp State.doneSignal
  rw [if_neg (by simp [hact]), if_neg (by simp [hact])]

/-- Checks that all pass or skip count the skips alone (R213). -/
theorem State.tileChecks_clean {s : State} {o : Op} {t : Tile} {r : TileOut} (h : r.checks.any RowCheck.failed = false) :
    s.tileChecks o t r = s.bump F.MXE_CHK_SKIP_COUNT o.core 0 (r.checks.filter (fun x => x == .skip)).length := by
  have hrow : ∀ m : Nat, ((r.checks[m]?).map RowCheck.failed).getD false = false := fun m => by
    cases hm : r.checks[m]? with
    | none => rfl
    | some x => exact Bool.eq_false_iff.2 (List.any_eq_false.1 h x (List.mem_of_getElem? hm))
  unfold State.tileChecks
  simp [hrow]

/-- Where a checked tile goes (R206, R213): one that fails a row check is discarded, any other joins its mover's append buffer. -/
def State.handedOver (s : State) (c : Nat) (o : Op) (t : Tile) (r : TileOut) : State :=
  if r.checks.any RowCheck.failed then s.dropOp o
  else (s.setAppBuf c (tMover t.word) (s.appBufOf c (tMover t.word) ++
    [⟨r.rows.flatMap (fun l => l.map (fun e => e.hi)), t.poisoned, o.side, o.position⟩])).completeOp o

section HandOver

variable {s : State} {c : Nat} {o : Op} {t : Tile} {r : TileOut}

theorem TileFrame.handedOver (s : State) (c : Nat) (o : Op) (t : Tile) (r : TileOut) : TileFrame s (s.handedOver c o t r) := by
  refine ((TileFrame.refl s).dropOp o).ite (TileFrame.completeOp ?_ o)
  exact (TileFrame.refl s).beside rfl rfl rfl

theorem State.handedOver_appBuf (h : r.checks.any RowCheck.failed = false) (hdone : o.done = 0) :
    ((s.handedOver c o t r).appBufOf c (tMover t.word)).length = (s.appBufOf c (tMover t.word)).length + 1 := by
  unfold State.handedOver
  rw [if_neg (by simp [h]), State.completeOp_silent hdone]
  exact (congrArg List.length (State.appBufOf_setAppBuf ..)).trans List.length_append

end HandOver

/-! ### The commands -/

theorem execKvAppend_issues {s : State} {a : At} {errs : List ShelfErr} {r : Run} {ws : List Nat} (h : s.issues opcAppend a r ws) :
    ∃ t, execKvAppend a errs s = .next t ∧ t.mem = s.mem ∧
      tget 0 t.sched.busy [a.core.val, a.stream.val] = (s.issued a r ws).opTick a.core.val + 3 ∧ t.sched.nextOp = s.sched.nextOp + 1 ∧
      ∃ o ∈ t.sched.ops, o.id = s.sched.nextOp ∧ o.core = a.core.val ∧ o.stream = a.stream.val ∧ o.done = bitsAt (nth ws 0) 56 24 ∧
        ∃ reads, o.kind = .append ⟨reads, [], false, 0⟩ := by
  have hnext : (s.issued a r ws).sched.nextOp = s.sched.nextOp :=
    (congrArg (fun u : State => u.sched.nextOp) (s.slipDone_frame a.core.val).eq :)
  refine ⟨_, congrArg Host.Outcome.next (State.issueAs_issues h), s.issued_mem a r ws, ?_, congrArg (· + 1) hnext,
    _, List.mem_append_right _ (List.mem_singleton_self _), hnext, rfl, rfl, rfl, _, rfl⟩
  dsimp only [State.ctxOf]
  exact tget_tset_self

theorem execKvAppendHandoff_due {s : State} {core : Fin 128} {upsets : List (Nat × Nat)} {o : Op} {t : Tile}
    (hdue : s.handoffDue core.val = some (o, t)) (hlive : s.coreLive core.val = true) :
    execKvAppendHandoff core upsets s = .next ((((({ s with free := s.free + 128 } : State).bump F.MXE_TILES_COUNT core.val).handedOver
      core.val o t (t.compute upsets s.free)).tileChecks o t (t.compute upsets s.free)).syncMxe core.val) := by
  unfold execKvAppendHandoff
  extract_lets c
  simp -zeta only [c, hdue]
  rw [if_neg (by simp [hlive])]
  rfl

/-- The tile handed over is counted, and takes the 128 free values of its row checks (R204, R210; log entry 77). -/
theorem execKvAppendHandoff_hands {s : State} {core : Fin 128} {upsets : List (Nat × Nat)} {o : Op} {t : Tile}
    (hdue : s.handoffDue core.val = some (o, t)) (hlive : s.coreLive core.val = true) :
    ∃ u, execKvAppendHandoff core upsets s = .next u ∧ u.mem = s.mem ∧ s.free + 128 ≤ u.free ∧
      u.rd F.MXE_TILES_COUNT core.val = min (s.rd F.MXE_TILES_COUNT core.val + 1) maxCount ∧
      ((t.compute upsets s.free).checks.any RowCheck.failed = false → o.done = 0 →
        (u.appBufOf core.val (tMover t.word)).length = (s.appBufOf core.val (tMover t.word)).length + 1) := by
  refine ⟨_, execKvAppendHandoff_due hdue hlive, ?_⟩
  generalize t.compute upsets s.free = r
  set counted := ({ s with free := s.free + 128 } : State).bump F.MXE_TILES_COUNT core.val with hcounted
  have hmem : counted.mem = s.mem := State.bump_mem ..
  have hfree : counted.free = s.free + 128 := State.bump_free ..
  have htiles : counted.rd F.MXE_TILES_COUNT core.val = min (s.rd F.MXE_TILES_COUNT core.val + 1) maxCount :=
    State.rd_bump_self rfl (by decide)
  have hbuf : counted.appBufOf core.val (tMover t.word) = s.appBufOf core.val (tMover t.word) :=
    congrArg (fun x : Sched => tget [] x.appBufs [core.val, tMover t.word]) (State.bump_sched ..)
  clear_value counted
  have hframe := ((TileFrame.handedOver counted core.val o t r).tileChecks o t r).syncMxe core.val
  refine ⟨hframe.mem.trans hmem, (hframe.free.trans hfree).ge, (hframe.tiles _).trans htiles, fun hclean hdone => ?_⟩
  rw [State.tileChecks_clean hclean, ← hbuf, ← State.handedOver_appBuf hclean hdone]
  exact congrArg (fun x : Sched => (tget [] x.appBufs [core.val, tMover t.word]).length) (State.bump_sched ..)

/-- The append transfer of a core of which every row has been sent and has ended (R328). -/
def State.appendEnded (s : State) (c : Nat) : Option Op :=
  s.sched.ops.find? (fun o => o.core == c && (match o.kind with
    | .append a => a.sent && a.left == 0
    | _ => false))

theorem execKvAppendComplete_ended {s : State} {core : Fin 128} {o : Op} (h : s.appendEnded core.val = some o) :
    execKvAppendComplete core s = .next (s.completeOp o) := by
  unfold execKvAppendComplete
  extract_lets due
  have hdue : due = some o := h
  rw [hdue]

/-- A received row is answered by what became of it; only the answer of a row that is being written comes later (R336, R337). -/
theorem execAppendMessageReceive_admits {s t u : State} {port : Option (Fin 12)} {m : Msg} {rank r : Nat} (h : s.admits port m 3 rank t)
    (hrow : (t.ucharge m.dstPdk 16).appendRow m.dstPdk (leBytes m.aux 8 ++ m.data.take 8) (mapCtx m.target) (mapGen m.target)
      (mapPos m.target) (m.data.drop 32) (.msg m) srcServer 4 = (u, r)) :
    execAppendMessageReceive port m s =
      .next (if r = 0 then u else u.ackMsg m (if r = 3 then 0x620 else appendWarning r) 0 1) := by
  unfold execAppendMessageReceive
  rw [State.receiveMsg_admits h]
  dsimp only
  rw [hrow]

/-- Settles O29: the append issues, its tile is handed over, the transfer ends, and a received row is answered by its outcome. That a
hand-over takes 128 free values is log entry 77. -/
theorem kvAppends : Obligations.KvAppends := by
  refine fun s => ⟨fun a errs r ws h => execKvAppend_issues h, fun core upsets o t hdue hlive => execKvAppendHandoff_hands hdue hlive,
    fun core o h => execKvAppendComplete_ended h, fun port m rank t h u r hrow => ?_⟩
  have hrun := execAppendMessageReceive_admits h hrow
  refine ⟨fun h0 => ?_, fun h3 => ?_, fun h0 h3 => ?_⟩
  · exact hrun.trans (by rw [if_pos h0])
  · exact hrun.trans (by rw [if_neg (by omega), if_pos h3])
  · exact hrun.trans (by rw [if_neg h0, if_neg h3])

end Sys2Proof.Machine
end

section
/-! PROOFS. Element programs and the view of the working store issue, due rows are written, and rotary tables are loaded (chapters 08
and 09). -/

namespace Sys2Proof.Machine

/-! ### The registers of an instruction that has issued -/

/-- The registers that the end of a slip writes: what the streams waited for, and the length of the recorded slip (R95, R141). -/
def slipFlds : List Fld :=
  [F.SYN_LSIG_WAITERS, F.SYN_WAIT_VALID, F.SYN_WAIT_KIND, F.SYN_WAIT_COND, F.SYN_WAIT_TARGET, F.SYN_WAIT_CLOCKS, F.SYN_WAIT_OPERAND,
    F.SCH_CSLIP0_SLIP_CLOCKS]

section Issue

variable {g : Fld}

theorem State.clearWait_rd (hg : ∀ f ∈ slipFlds, g.id ≠ f.id) (s : State) (c st i j : Nat) : (s.clearWait c st).rd g i j = s.rd g i j := by
  unfold State.clearWait
  extract_lets _ a _ b d e
  have ha : a.rd g i j = s.rd g i j := rfl
  have hb : OnlyRegs a b slipFlds := onlyRegs_ite (onlyRegs_wr onlyRegs_refl (by decide)) onlyRegs_refl
  have hd : OnlyRegs a d slipFlds := onlyRegs_wr (onlyRegs_wr hb (by decide)) (by decide)
  have he : OnlyRegs a e slipFlds := onlyRegs_wr (onlyRegs_wr hd (by decide)) (by decide)
  calc ((e.wr F.SYN_WAIT_CLOCKS c 0 st).wr F.SYN_WAIT_OPERAND c 0 st).rd g i j
    _ = (e.wr F.SYN_WAIT_CLOCKS c 0 st).rd g i j := State.rd_wr_fld (hg _ (by decide))
    _ = e.rd g i j := State.rd_wr_fld (hg _ (by decide))
    _ = a.rd g i j := he.2 g i j hg
    _ = s.rd g i j := ha

theorem State.clearWaits_rd (hg : ∀ f ∈ slipFlds, g.id ≠ f.id) (s : State) (c n i j : Nat) : (s.clearWaits c n).rd g i j = s.rd g i j :=
  loopN_rel (R := fun u v => v.rd g i j = u.rd g i j) (fun _ => rfl) (fun _ _ _ h h' => h'.trans h)
    (fun st u => (apply_ite (State.rd · g i j) ..).trans (ite_both (State.clearWait_rd hg u c st i j) rfl)) n

theorem State.slipDone_rd (hg : ∀ f ∈ slipFlds, g.id ≠ f.id) (s : State) (c i j : Nat) : (s.slipDone c).rd g i j = s.rd g i j := by
  unfold State.slipDone
  split
  · rfl
  · extract_lets a b
    have ha : s.clearWaits c 12 = a := rfl
    have hb : OnlyRegs a b slipFlds := onlyRegs_ite (onlyRegs_wr onlyRegs_refl (by decide)) onlyRegs_refl
    clear_value b a
    calc (b.setSlip c none).rd g i j
      _ = b.rd g i j := State.rd_congr rfl g i j
      _ = a.rd g i j := hb.2 g i j hg
      _ = s.rd g i j := ha ▸ State.clearWaits_rd hg s c 12 i j

variable (s : State) (a : At) (r : Run) (ws : List Nat)

theorem State.issued_rd (hg : ∀ f ∈ slipFlds, g.id ≠ f.id) (i j : Nat) : (s.issued a r ws).rd g i j = s.rd g i j :=
  State.slipDone_rd hg s a.core.val i j

theorem State.issued_ops : (s.issued a r ws).sched.ops = s.sched.ops :=
  (congrArg (fun u : State => u.sched.ops) (s.slipDone_frame a.core.val).eq :)

theorem State.issued_nextOp : (s.issued a r ws).sched.nextOp = s.sched.nextOp :=
  (congrArg (fun u : State => u.sched.nextOp) (s.slipDone_frame a.core.val).eq :)

end Issue

/-! ### ELEM and WS_MODE -/

theorem State.syncVec_mem (s : State) (c : Nat) : (s.syncVec c).mem = s.mem := rfl

theorem State.syncVec_sched (s : State) (c : Nat) : (s.syncVec c).sched = s.sched := rfl

section Words

variable {s : State} {a : At} {r : Run} {ws : List Nat}

/-- A program without groups takes its issue tick, is counted, and leaves no operation behind (R219, R220). -/
theorem execElem_empty {errs : List ShelfErr} (h : s.issues opcElem a r ws) (hg : elemGroups (nth ws 0) (nth ws 1) r.params = 0) :
    ∃ t, execElem a errs s = .next t ∧ t.mem = s.mem ∧ t.sched.ops = s.sched.ops ∧
      tget 0 t.sched.busy [a.core.val, stVE] = (s.issued a r ws).opTick a.core.val + 1 ∧
      t.rd F.VEC_PROGS_COUNT a.core.val = min (s.rd F.VEC_PROGS_COUNT a.core.val + 1) maxCount := by
  refine ⟨_, congrArg Host.Outcome.next ((State.issueAs_issues h).trans (if_pos hg)), ?_, ?_, ?_, ?_⟩
  · exact (State.bump_mem ..).trans (s.issued_mem a r ws)
  · rw [State.bump_sched]
    exact s.issued_ops a r ws
  · rw [State.bump_sched]
    dsimp only [State.ctxOf]
    exact tget_tset_self
  · rw [← s.issued_rd a r ws (g := F.VEC_PROGS_COUNT) (by decide)]
    exact State.rd_bump_self rfl (by decide)

/-- A program of groups becomes an operation and occupies the engine for its cost times its groups (R219, R220). -/
theorem execElem_groups {errs : List ShelfErr} (h : s.issues opcElem a r ws) (hg : elemGroups (nth ws 0) (nth ws 1) r.params ≠ 0) :
    ∃ t, execElem a errs s = .next t ∧ t.mem = s.mem ∧ t.sched.nextOp = s.sched.nextOp + 1 ∧
      tget 0 t.sched.busy [a.core.val, stVE] = (s.issued a r ws).opTick a.core.val +
        groupCost (nth ws 0) ((ws.drop 2).take (elemExt (nth ws 0) - 1)) * elemGroups (nth ws 0) (nth ws 1) r.params := by
  refine ⟨_, congrArg Host.Outcome.next ((State.issueAs_issues h).trans (if_neg hg)), ?_, ?_, ?_⟩ <;>
    dsimp only [State.syncVec_mem, State.syncVec_sched, State.addAct, State.addOp, State.setStream, State.ctxOf]
  · exact s.issued_mem a r ws
  · rw [State.issued_nextOp]
  · exact tget_tset_self

/-- The view of the working store is the low bit of the word, and no other register changes with it (R221). -/
theorem execWsMode_issues (h : s.issues opcWsMode a r ws) : ∃ t, execWsMode a s = .next t ∧ t.mem = s.mem ∧
    t.rd F.VEC_STAT_WS_MODE a.core.val = bitsAt (nth ws 0) 0 1 ∧
    ∀ (g : Fld) (i j : Nat), g.id ≠ F.VEC_STAT_WS_MODE.id → t.rd g i j = (s.issued a r ws).rd g i j := by
  refine ⟨_, congrArg Host.Outcome.next (State.issueAs_issues h), s.issued_mem a r ws, ?_, fun g i j hg => State.rd_wr_fld hg⟩
  exact State.rd_wr_self.trans (Nat.mod_mod ..)

end Words

/-! ### Rows that are due -/

section Rows

variable {s : State} {core : Fin 128} {fault : Option (Nat × Nat × Nat)} {o : Op} {e : Elem}

/-- A due output row is written, or its group struck (R226, R248). -/
theorem execElemRowWrite_row (hlive : s.coreLive core.val = true) (hdue : s.elemDue core.val Elem.rowTick = some (o, e)) :
    execElemRowWrite core fault s = .next (fault.elim (s.elemRow o e) (s.vecStrike o (e.fills e.nextRow.1))) := by
  cases fault <;> simp [execElemRowWrite, hlive, hdue]

/-- With no output row due, a due scale row is written (R241). -/
theorem execElemRowWrite_scale (hlive : s.coreLive core.val = true) (hrow : s.elemDue core.val Elem.rowTick = none)
    (hdue : s.elemDue core.val Elem.sclTick = some (o, e)) : execElemRowWrite core none s = .next (s.elemScl o e) := by
  simp [execElemRowWrite, hlive, hrow, hdue]

theorem execElemRowWrite_none (hrow : s.elemDue core.val Elem.rowTick = none) (hscl : s.elemDue core.val Elem.sclTick = none) :
    execElemRowWrite core fault s = .next s := by
  simp [execElemRowWrite, hrow, hscl]

/-- The due row of a one-row output comes from the last group: its lo bytes as the second row, its hi bytes as any other (R227). -/
theorem execElemOneRowWrite_row (hlive : s.coreLive core.val = true) (hdue : s.elemDue core.val Elem.oneTick = some (o, e)) :
    ∃ cats, execElemOneRowWrite core none s = .next (s.elemWrite o (eDst e.word) e.rows
        (((e.outs[e.groups - 1]?).map (fun x => if e.rows = 1 then x.lo else x.hi)).getD []) (e.poisonAt (e.groups - 1))
        { e with rows := e.rows + 1 } cats) ∧ (e.rows = 1 → cats = []) := by
  unfold execElemOneRowWrite
  extract_lets c
  rw [if_neg (by simp [c, hlive]), show s.elemDue c Elem.oneTick = some (o, e) from hdue]
  exact ⟨_, rfl, fun hlo => if_pos hlo⟩

theorem execElemOneRowWrite_none (hdue : s.elemDue core.val Elem.oneTick = none) : execElemOneRowWrite core fault s = .next s := by
  simp [execElemOneRowWrite, hdue]

end Rows

/-! ### Rotary tables -/

section Begun

variable (s : State) (h : Hdr) (op : Nat) (cmd : Instr) (rs : List HostRange)

theorem State.begun_mem : (s.begun h op cmd rs).mem = s.mem :=
  (apply_ite State.mem ..).trans (ite_both (State.start_mem ..) (State.start_mem ..))

theorem State.begun_rotary : (s.begun h op cmd rs).rotary = s.rotary :=
  (apply_ite State.rotary ..).trans (ite_both (State.start_rotary ..) (State.start_rotary ..))

end Begun

section Counted

variable (s : State) (fn p ptr n : Nat)

theorem State.countRead_mem : (s.countRead fn p ptr n).mem = s.mem := by
  unfold State.countRead
  split <;> simp only [State.bump_mem]

theorem State.countRead_rotary : (s.countRead fn p ptr n).rotary = s.rotary := by
  unfold State.countRead
  split <;> simp only [State.bump_rotary]

end Counted

/-- Entries set in turn at 0, 1, …, n − 1 are read back. -/
theorem tget_foldl_tset {v : Nat → Nat} {t : Tbl Nat} {p k : Nat} : ∀ {n i : Nat}, i < n →
    tget 0 ((List.range n).foldl (fun r i => tset 0 r [p, k, i] (v i)) t) [p, k, i] = v i
  | n + 1, i, hi => by
    rw [List.range_succ, List.foldl_append, List.foldl_cons, List.foldl_nil]
    rcases Nat.lt_succ_iff_lt_or_eq.1 hi with hlt | rfl
    · rw [tget_tset_ne (by simpa using Nat.ne_of_lt hlt)]
      exact tget_foldl_tset hlt
    · exact tget_tset_self

/-- A loaded table holds the 128 steps of its source (R275). -/
theorem State.setRotary_step (s : State) (p k : Nat) (b : List Byte) {i : Nat} (hi : i < 128) :
    (s.setRotary p k b).rotaryStep p k i = fieldAt b (8 * i) 6 := tget_foldl_tset hi

theorem State.setRotary_mem (s : State) (p k : Nat) (b : List Byte) : (s.setRotary p k b).mem = s.mem := rfl

/-- Some entry of a rotary source has a reserved byte that is not zero (R275). -/
def rotaryReserved (b : List Byte) : Bool := (List.range 128).any (fun i => fieldAt b (8 * i + 6) 2 != 0)

theorem rotaryReserved_iff {b : List Byte} : rotaryReserved b = true ↔ ∃ i < 128, fieldAt b (8 * i + 6) 2 ≠ 0 := by
  simp [rotaryReserved]

/-- What ROTARY_TABLE_LOAD does with the bytes of a source that it can read: it loads them all and completes with success, or loads
none and completes with 0x0230 (R275). -/
def State.loadRotary (s : State) (h : Hdr) (table : Nat) (b : List Byte) : State :=
  if rotaryReserved b then s.complete h 0x230 else (s.setRotary (paddockOf h) table b).complete h 0

theorem State.loadRotary_mem (s : State) (h : Hdr) (table : Nat) (b : List Byte) : (s.loadRotary h table b).mem = s.mem :=
  (apply_ite State.mem ..).trans (ite_both (State.complete_mem ..) ((State.complete_mem ..).trans (s.setRotary_mem ..)))

theorem State.loadRotary_reserved {s : State} {h : Hdr} {table : Nat} {b : List Byte} (hb : ∃ i < 128, fieldAt b (8 * i + 6) 2 ≠ 0) :
    (s.loadRotary h table b).rotary = s.rotary := by
  unfold State.loadRotary
  rw [if_pos (rotaryReserved_iff.2 hb), State.complete_rotary]

theorem State.loadRotary_step {s : State} {h : Hdr} {table i : Nat} {b : List Byte} (hb : ∀ i < 128, fieldAt b (8 * i + 6) 2 = 0)
    (hi : i < 128) : (s.loadRotary h table b).rotaryStep (paddockOf h) table i = fieldAt b (8 * i) 6 := by
  have hclean : ¬ rotaryReserved b = true := fun hr => by
    obtain ⟨k, hk, hne⟩ := rotaryReserved_iff.1 hr
    exact hne (hb k hk)
  unfold State.loadRotary State.rotaryStep
  rw [if_neg hclean, State.complete_rotary]
  exact s.setRotary_step (paddockOf h) table b hi

/-- What ROTARY_TABLE_LOAD does once its checks are passed and its pages are there (R275). -/
theorem execRotaryTableLoad_goes {s : State} {h : Hdr} {table src : Nat} {data : List Byte}
    (hgo : s.goes h opRotary (firstStatus [failIf (decide (3 < table)) 0x201, failIf (ptrTag src = 3) 0x401,
      s.checkPtr h.fn.val (paddockOf h) src 1024 false, failIf (s.scheduleBusy (paddockOf h)) 0x330]))
    (hpages : s.untranslated h [⟨src, 1024, false⟩] ∨ s.translated h [⟨src, 1024, false⟩]) :
    execRotaryTableLoad h table src data s = .next (
      let u := s.begun h opRotary (.rotaryTableLoad h table src data) [⟨src, 1024, false⟩]
      let t := u.countRead h.fn.val (paddockOf h) src 1024
      if u.sourceStatus (paddockOf h) src 1024 ≠ 0 then u.complete h (u.sourceStatus (paddockOf h) src 1024)
      else t.loadRotary h table (t.ptrRead (paddockOf h) src 1024 data)) :=
  congrArg Host.Outcome.next ((State.checked_goes hgo).trans (State.gate_begun hpages))

/-- Settles O27: a program issues as its number of groups says, WS_MODE writes the view alone, a due row is written or its group struck,
and a rotary table is loaded whole or not at all. -/
theorem vectorPrograms : Obligations.VectorPrograms := by
  intro s
  refine ⟨?_, fun a r ws h => execWsMode_issues h, fun core hlive => ⟨fun o e hdue => ?_, fun o e hrow hdue => ?_, fun o e hdue hrows => ?_,
    fun o e x hdue hrows hx => ?_, fun hrow hscl f => execElemRowWrite_none hrow hscl, fun hdue f => execElemOneRowWrite_none hdue⟩, ?_⟩
  · rintro a errs r ws h g rfl
    exact ⟨fun hg => execElem_empty h hg, fun hg => execElem_groups h hg⟩
  · exact ⟨execElemRowWrite_row (fault := none) hlive hdue, fun f => execElemRowWrite_row (fault := some f) hlive hdue⟩
  · exact execElemRowWrite_scale hlive hrow hdue
  · obtain ⟨cats, hwrite, _⟩ := execElemOneRowWrite_row hlive hdue
    exact ⟨_, cats, hwrite, fun x hx => by simp [hx, hrows]⟩
  · obtain ⟨cats, hwrite, hcats⟩ := execElemOneRowWrite_row hlive hdue
    refine hwrite.trans ?_
    simp [hx, hrows, hcats hrows]
  · rintro h table src data hgo hpages u rfl
    have hrun := execRotaryTableLoad_goes (data := data) hgo hpages
    refine ⟨fun hbad => hrun.trans (congrArg Host.Outcome.next (if_pos hbad)), ?_⟩
    rintro hgood b rfl
    refine ⟨_, hrun.trans (congrArg Host.Outcome.next (if_neg (not_not.2 hgood))), ?_, fun hb => ?_, fun hb i hi => State.loadRotary_step hb hi⟩
    · rw [State.loadRotary_mem, State.countRead_mem, State.begun_mem]
    · rw [State.loadRotary_reserved hb, State.countRead_rotary, State.begun_rotary]

end Sys2Proof.Machine
end

section
/-! PROOFS. The frame of a pass's stages (chapter 10): what the tiles, the outputs, the lines and the end of a pass leave alone. -/

namespace Sys2Proof.Machine

/-- The memories, and the registers that say whether a pass runs, what it latched and how many passes and blocks were done
(ATN_STAT.BUSY to ATN_BLOCKS, fields 204 to 211), are the same. -/
structure AtnFrame (s t : State) : Prop where
  mem : t.mem = s.mem
  rd : ∀ (g : Fld) (i : Nat), 204 ≤ g.id → g.id ≤ 211 → t.rd g i = s.rd g i

namespace AtnFrame

variable {s₀ s t : State}

theorem refl (s : State) : AtnFrame s s := ⟨rfl, fun _ _ _ _ => rfl⟩

/-- A change beside the registers and the memories. -/
theorem beside (h : AtnFrame s₀ s) (hr : t.regs = s.regs) (hm : t.mem = s.mem) : AtnFrame s₀ t :=
  ⟨hm.trans h.mem, fun g i hlo hhi => (State.rd_congr hr ..).trans (h.rd g i hlo hhi)⟩

/-- A change of other registers. -/
theorem onlyRegs {fs : List Fld} (h : AtnFrame s₀ s) (ht : OnlyRegs s t fs) (hfs : ∀ f ∈ fs, f.id < 204 ∨ 211 < f.id) : AtnFrame s₀ t :=
  ⟨(congrArg State.mem ht.1).trans h.mem, fun g i hlo hhi =>
    (ht.2 g i 0 fun f hf => by have := hfs f hf; omega).trans (h.rd g i hlo hhi)⟩

theorem wr {f : Fld} {i v j : Nat} (h : AtnFrame s₀ s) (hf : f.id < 204 ∨ 211 < f.id := by decide) : AtnFrame s₀ (s.wr f i v j) :=
  ⟨h.mem, fun g i hlo hhi => (State.rd_wr_fld (by omega)).trans (h.rd g i hlo hhi)⟩

theorem bump {f : Fld} {i j n : Nat} (h : AtnFrame s₀ s) (hf : f.id < 204 ∨ 212 < f.id := by decide) : AtnFrame s₀ (s.bump f i j n) :=
  ⟨(State.bump_mem ..).trans h.mem, fun g i hlo hhi => (State.rd_bump_fld (by omega) (by omega)).trans (h.rd g i hlo hhi)⟩

theorem ite {c : Prop} [Decidable c] (hs : AtnFrame s₀ s) (ht : AtnFrame s₀ t) : AtnFrame s₀ (if c then s else t) := by
  split <;> assumption

theorem foldl {α : Type} {l : List α} {f : State → α → State} (h : AtnFrame s₀ s) (hf : ∀ u x, AtnFrame s₀ u → AtnFrame s₀ (f u x)) :
    AtnFrame s₀ (l.foldl f s) :=
  List.foldlRecOn (motive := AtnFrame s₀) _ _ h fun u hu x _ => hf u x hu

/-! ### Aborts and errors -/

theorem abort (h : AtnFrame s₀ s) (p cause : Nat) : AtnFrame s₀ (s.abort p cause) :=
  h.beside (State.abortWith_regs ..) ((TileFrame.refl s).abort p cause).mem

theorem deviceError (h : AtnFrame s₀ s) (cls : Nat) (masked : Bool) (unit addr status pdk : Nat) :
    AtnFrame s₀ (s.deviceError cls masked unit addr status pdk) :=
  ⟨(State.deviceError_mem ..).trans h.mem, fun g i hlo hhi => (State.deviceError_rd fun f hf =>
    Nat.ne_of_lt (Nat.lt_of_le_of_lt hhi ((by decide : ∀ f ∈ eventFlds, 211 < f.id) f hf))).trans (h.rd g i hlo hhi)⟩

/-! ### Tiles -/

theorem tileChecks (h : AtnFrame s₀ s) (o : Op) (t : Tile) (r : TileOut) : AtnFrame s₀ (s.tileChecks o t r) := by
  unfold State.tileChecks
  extract_lets c fails a b d e
  have ha : AtnFrame s₀ a := h.bump
  have hb : AtnFrame s₀ b := ha.bump
  have he : AtnFrame s₀ e := hb.wr.wr.wr.wr
  clear_value a b e fails
  cases fails with
  | nil => exact ha
  | cons m _ =>
    dsimp -zeta only
    extract_lets ex f g u
    have hg : AtnFrame s₀ g := he.wr.wr.wr
    have hu : AtnFrame s₀ u := hb.ite hg.wr.wr
    exact (hu.deviceError ..).abort ..

theorem passTile (h : AtnFrame s₀ s) (o : Op) (w : Nat) (as bs : List (List Fp)) (upsets : List (Nat × Nat)) (poison : Bool) :
    AtnFrame s₀ (s.passTile o w as bs upsets poison).1 := by
  have hfree : AtnFrame s₀ ({ s with free := s.free + 128 } : State) := h.beside rfl rfl
  exact hfree.tileChecks ..

theorem passTiles (h : AtnFrame s₀ s) (o : Op) (w : Nat) (as bs : List (List Fp)) (n base : Nat) (upsets : List (Nat × Nat)) (poison : Bool) :
    AtnFrame s₀ (s.passTiles o w as bs n base upsets poison).1 :=
  List.foldlRecOn (motive := fun r : State × List (List Nat) => AtnFrame s₀ r.1) _ _ h fun _ hr _ _ => hr.passTile ..

/-! ### Outputs and lines -/

theorem setPass (h : AtnFrame s₀ s) (o : Op) (x : Pass) : AtnFrame s₀ (s.setPass o x) := h.beside rfl rfl

theorem countOutputs (h : AtnFrame s₀ s) (p side : Nat) (cs : List NumCat) : AtnFrame s₀ (s.countOutputs p side cs) := by
  refine h.foldl fun u c hu => ?_
  have hruns : ∀ r, AtnFrame s₀ (u.setRuns p r) := fun r => hu.beside rfl rfl
  cases c with
  | plain => exact hu
  | sat => exact (hruns _).bump
  | flush => exact (hruns _).bump
  | nan => exact (hruns _).bump
  | inf => exact (hruns _).bump

/-- Poisoned outputs are not counted (chapter 06, R182). -/
theorem countClean (h : AtnFrame s₀ s) (poison : Bool) (p side : Nat) (cs : List NumCat) :
    AtnFrame s₀ (if poison then s else s.countOutputs p side cs) := h.ite (h.countOutputs ..)

theorem ucharge (h : AtnFrame s₀ s) (p w : Nat) : AtnFrame s₀ (s.ucharge p w) := by
  unfold State.ucharge
  extract_lets l l' _ a n
  have ha : AtnFrame s₀ a := h.beside rfl rfl
  exact ha.wr.wr

theorem addLine (h : AtnFrame s₀ s) (x : Line) : AtnFrame s₀ (s.addLine x) := by
  unfold State.addLine
  extract_lets id x _ a
  have ha : AtnFrame s₀ a := h.beside rfl rfl
  clear_value a
  refine AtnFrame.ite ?_ (ha.ite (AtnFrame.ite ?_ ?_))
  · exact ha.beside rfl rfl
  · exact (ha.ucharge ..).beside rfl rfl
  · exact ha.beside rfl rfl

theorem gradLines (h : AtnFrame s₀ s) (o : Op) (x : Pass) (k : Nat) (bytes : List Byte) : AtnFrame s₀ (s.gradLines o x k bytes) := by
  unfold State.gradLines
  extract_lets p ptr n st u
  exact (h.abort ..).ite ((h.setPass ..).foldl fun v _ hv => hv.addLine ..)

/-! ### The end of an operation -/

theorem synError (h : AtnFrame s₀ s) (c kind stream target position : Nat) (completion : Bool) :
    AtnFrame s₀ (s.synError c kind stream target position completion) := by
  rw [State.synError_eq]
  exact (h.onlyRegs State.recordSync_onlyRegs (by decide)).abort ..

theorem signalCell (h : AtnFrame s₀ s) (c n op x stream position : Nat) (completion : Bool) :
    AtnFrame s₀ (s.signalCell c n op x stream position completion) := by
  unfold State.signalCell
  split
  · exact h.synError ..
  · exact h.wr.wr.wr.wr.wr.wr

theorem stileArrive (h : AtnFrame s₀ s) (c k stream position : Nat) (completion : Bool) :
    AtnFrame s₀ (s.stileArrive c k stream position completion) := by
  unfold State.stileArrive
  extract_lets arrived a _ b d e
  have ha : AtnFrame s₀ a := h.wr.wr
  have hb : AtnFrame s₀ b := ha.beside rfl rfl
  exact (h.synError ..).ite (hb.wr.wr.wr.wr.wr.ite hb.wr)

theorem completeOp (h : AtnFrame s₀ s) (o : Op) : AtnFrame s₀ (s.completeOp o) := by
  have hdrop : AtnFrame s₀ (s.dropOp o) := h.beside rfl rfl
  exact (hdrop.signalCell ..).ite ((hdrop.stileArrive ..).ite hdrop)

theorem syncMxe (h : AtnFrame s₀ s) (c : Nat) : AtnFrame s₀ (s.syncMxe c) := h.wr.wr.wr

theorem syncHeld (h : AtnFrame s₀ s) (p : Nat) : AtnFrame s₀ (s.syncHeld p) := h.wr

/-- What follows the count of a block leaves that count. -/
theorem blockCounted {c : Nat} (h : AtnFrame (s.bump F.ATN_BLOCKS_COUNT c) t) :
    t.mem = s.mem ∧ t.rd F.ATN_BLOCKS_COUNT c = min (s.rd F.ATN_BLOCKS_COUNT c + 1) maxCount :=
  ⟨h.mem.trans (State.bump_mem ..), (h.rd _ c (by decide) (by decide)).trans (State.rd_bump_self rfl (by decide))⟩

end AtnFrame

end Sys2Proof.Machine
end

section
/-! PROOFS. The stages of a pass (chapter 10): the instruction, block fetches, queries, tiles, row statistics, final scaling and the
end, each under the condition that lets it run. -/

namespace Sys2Proof.Machine

/-! ### The instruction -/

/-- ATN_STAT and MXE_STAT show a pass that has begun: the engine is busy, and no block, context or mode is known yet (R280). -/
def State.showBegun (s : State) (c : Nat) : State :=
  ((((s.wr F.ATN_STAT_BUSY c 1).wr F.ATN_STAT_BLOCK c 0).wr F.ATN_STAT_CTX c 0).wr F.ATN_STAT_MODE c 0).syncMxe c

theorem State.showBegun_busy (s : State) (c : Nat) : (s.showBegun c).rd F.ATN_STAT_BUSY c = 1 := by
  have hframe : AtnFrame (s.wr F.ATN_STAT_BUSY c 1) (s.showBegun c) := (AtnFrame.refl _).wr.wr.wr.syncMxe c
  exact (hframe.rd F.ATN_STAT_BUSY c (by decide) (by decide)).trans State.rd_wr_self

theorem State.showBegun_mem (s : State) (c : Nat) : (s.showBegun c).mem = s.mem := rfl

theorem State.showBegun_sched (s : State) (c : Nat) : (s.showBegun c).sched = s.sched := rfl

section Begin

variable {s u : State} {a : At} {r : Run} {ws rows : List Nat}

/-- A descriptor row that cannot be taken is a violation of its drawer or of its row (R279). -/
theorem execAttnPass_refused {k : Nat} (h : s.issues opcPass a r ws)
    (hrow : (s.issued a r ws).takeRows a.core.val (rowField (bitsAt (nth ws 0) 80 16)) 1 = .error k) : execAttnPass a s =
      .next ((s.issued a r ws).violation a.core.val k ((rowField (bitsAt (nth ws 0) 80 16)).drawer.getD 0) a.stream.val
        (s.ctxOf a r ws).pos) := by
  unfold execAttnPass
  rw [State.issueAs_issues h]
  simp only [State.ctxOf, Ctx.w, hrow]

/-- With its descriptor row at hand the pass is added, from the tick in which ME is free, and the engine is busy (R279, R280). -/
theorem execAttnPass_begins (h : s.issues opcPass a r ws)
    (hrow : (s.issued a r ws).takeRows a.core.val (rowField (bitsAt (nth ws 0) 80 16)) 1 = .ok (u, rows)) :
    ∃ t, execAttnPass a s = .next t ∧ t.rd F.ATN_STAT_BUSY a.core.val = 1 ∧ t.mem = u.mem ∧ ∃ o ∈ t.sched.ops, o.core = a.core.val ∧
      o.kind = .pass (pass0 (nth rows 0) (max (u.opTick a.core.val) (tget 0 u.sched.busy [a.core.val, stME]))) := by
  unfold execAttnPass
  rw [State.issueAs_issues h]
  simp only [State.ctxOf, Ctx.w, hrow]
  refine ⟨State.showBegun _ _, rfl, State.showBegun_busy .., (State.showBegun_mem ..).trans rfl, ?_⟩
  rw [State.showBegun_sched]
  exact ⟨_, List.mem_append_right _ (List.mem_singleton_self _), rfl, rfl⟩

end Begin

/-! ### Fetching blocks -/

section Walk

variable {s t : State}

theorem State.legalPage_congr (hmem : t.mem = s.mem) (hfar : ∀ p, t.rd F.CTX_FARCFG_FAR_KV p = s.rd F.CTX_FARCFG_FAR_KV p) (p id : Nat) :
    t.legalPage p id = s.legalPage p id := by
  unfold State.legalPage State.pageUse
  rw [hmem, hfar]

theorem State.walk_congr (hmem : t.mem = s.mem) (hfar : ∀ p, t.rd F.CTX_FARCFG_FAR_KV p = s.rd F.CTX_FARCFG_FAR_KV p) (p i : Nat) :
    ∀ l np, t.walk p l np i = s.walk p l np i
  | 0, _ => rfl
  | l + 1, np => by
    unfold State.walk State.nodeOf State.entry State.hbmRead
    simp only [hmem, legalPage_congr hmem hfar, walk_congr hmem hfar p i l]

/-- A walk reads the memory and FAR_KV alone (R319, R322). -/
theorem State.leaf_congr (hmem : t.mem = s.mem) (hfar : ∀ p, t.rd F.CTX_FARCFG_FAR_KV p = s.rd F.CTX_FARCFG_FAR_KV p) (p : Nat)
    (d : List Byte) (e i : Nat) : t.leaf p d e i = s.leaf p d e i := by
  unfold State.leaf State.leafAddr State.topNode State.leafSeen State.nodeOf State.entry State.hbmRead
  simp only [hmem, legalPage_congr hmem hfar, walk_congr hmem hfar]

end Walk

/-- The tokens of block `k` that the pass covers (R288, R289). -/
def Pass.blockToks (x : Pass) (k : Nat) : List Nat := ((List.range 128).map (fun j => x.tok0 k + j)).filter (fun y => decide (y < x.hi))

theorem Pass.exists_of_mem_blockToks {x : Pass} {k y : Nat} (h : y ∈ x.blockToks k) : ∃ j < 128, x.tok0 k + j = y ∧ y < x.hi := by
  obtain ⟨hy, hhi⟩ := List.mem_filter.1 h
  obtain ⟨j, hj, htok⟩ := List.mem_map.1 hy
  exact ⟨j, List.mem_range.1 hj, htok, of_decide_eq_true hhi⟩

section Tokens

variable {s t : State} (hmem : t.mem = s.mem) (hfar : ∀ p, t.rd F.CTX_FARCFG_FAR_KV p = s.rd F.CTX_FARCFG_FAR_KV p) (p : Nat) (x : Pass)

include hmem hfar

theorem State.passLeaf_congr (tok : Nat) : t.passLeaf p x tok = s.passLeaf p x tok := State.leaf_congr hmem hfar ..

theorem State.tokDropped_congr (tok : Nat) : t.tokDropped p x tok = s.tokDropped p x tok := by
  simp only [State.tokDropped, State.passLeaf_congr hmem hfar]

theorem State.skipBlock_congr (k : Nat) : t.skipBlock p x k = s.skipBlock p x k := by
  simp only [State.skipBlock, State.visible, State.tokDropped_congr hmem hfar]

/-- Where every token of a block is mapped, none stops the fetch (R291). -/
theorem State.find_unmapped {k : Nat}
    (h : ∀ j < 128, x.tok0 k + j < x.hi → x.tok0 k + j < dLength x.ctx → eValid (s.passLeaf p x (x.tok0 k + j)) = true) :
    (x.blockToks k).find? (fun y => decide (y < dLength x.ctx) && !eValid (t.passLeaf p x y) && !t.tokDropped p x y) = none := by
  refine List.find?_eq_none.2 fun y hy => ?_
  obtain ⟨j, hj, rfl, hhi⟩ := Pass.exists_of_mem_blockToks hy
  by_cases hlen : x.tok0 k + j < dLength x.ctx
  · simp [State.passLeaf_congr hmem hfar, h j hj hhi hlen]
  · simp [hlen]

/-- Where no token of a block is dropped, none makes the pass stale (R309). -/
theorem State.find_dropped {k : Nat} (h : ∀ j < 128, s.tokDropped p x (x.tok0 k + j) = false) :
    (x.blockToks k).find? (fun y => t.tokDropped p x y) = none := by
  refine List.find?_eq_none.2 fun y hy => ?_
  obtain ⟨j, hj, rfl, _⟩ := Pass.exists_of_mem_blockToks hy
  simp [State.tokDropped_congr hmem hfar, h j hj]

end Tokens

@[simp] theorem State.setPass_mem (s : State) (o : Op) (x : Pass) : (s.setPass o x).mem = s.mem := rfl
@[simp] theorem State.setPass_rd (s : State) (o : Op) (x : Pass) (g : Fld) (i j : Nat) : (s.setPass o x).rd g i j = s.rd g i j := rfl

theorem State.setPass_sched {s t : State} (h : t.sched = s.sched) (o : Op) (x : Pass) : (t.setPass o x).sched = (s.setPass o x).sched := by
  unfold State.setPass State.setOp
  rw [h]

/-- Of two updates of a pass the later one stands. -/
theorem State.setPass_setPass (s : State) (o : Op) (x y : Pass) : (s.setPass o x).setPass o y = s.setPass o y := by
  unfold State.setPass State.setOp
  simp only [List.map_map]
  refine congrArg (fun l => { s with sched := { s.sched with ops := l } }) (List.map_congr_left fun z _ => ?_)
  by_cases hz : z.id = o.id <;> simp [hz]

/-- A line that a unit hands on changes neither the schedule nor the memories. -/
theorem State.addLine_beside (s : State) (x : Line) : (s.addLine x).sched = s.sched ∧ (s.addLine x).mem = s.mem := by
  refine ⟨?_, ((AtnFrame.refl s).addLine x).mem⟩
  unfold State.addLine State.untimed
  dsimp only
  split_ifs <;> rfl

/-- Nor do the lines of the keys and then of the values of a block. -/
theorem State.addLines_beside {s : State} {js : List Nat} {halves : List Bool} {line : State → Bool → Nat → Line} :
    (halves.foldl (fun u vals => js.foldl (fun v j => v.addLine (line v vals j)) u) s).sched = s.sched ∧
      (halves.foldl (fun u vals => js.foldl (fun v j => v.addLine (line v vals j)) u) s).mem = s.mem := by
  refine List.foldlRecOn (motive := fun u : State => u.sched = s.sched ∧ u.mem = s.mem) _ _ ⟨rfl, rfl⟩ fun u hu vals _ => ?_
  refine List.foldlRecOn (motive := fun v : State => v.sched = s.sched ∧ v.mem = s.mem) _ _ hu fun v hv j _ => ?_
  exact ⟨(v.addLine_beside _).1.trans hv.1, (v.addLine_beside _).2.trans hv.2⟩

section Stage

variable {s : State} {core : Fin 128} {o : Op} {x : Pass}

/-- A block whose slot is free and whose tokens are all mapped is requested: its lines change neither the schedule nor the memory
(R292 to R294). -/
theorem execAttnBlockFetch_fetches {k : Nat} {rest : List Nat} (hpass : s.passOn core.val = some (o, x)) (htodo : x.todo = k :: rest)
    (hseen : x.maskedBlock k = false) (hfree : x.blks.any (fun b => b.slot == x.fetched % aStages x.desc) = false)
    (hfreed : x.slots.any (fun y => y.1 == x.fetched % aStages x.desc && decide (x.clk < y.2)) = false)
    (hmapped : ∀ j < 128, x.tok0 k + j < x.hi → x.tok0 k + j < dLength x.ctx → eValid (s.passLeaf (corePdk core.val) x (x.tok0 k + j)) = true)
    (hvisible : s.skipBlock (corePdk core.val) x k = false)
    (hkept : ∀ j < 128, s.tokDropped (corePdk core.val) x (x.tok0 k + j) = false) :
    ∃ (t : State) (x' : Pass), execAttnBlockFetch core s = .next t ∧ t.sched = (s.setPass o x').sched ∧ t.mem = s.mem ∧
      x'.todo = rest ∧ x'.fetched = x.fetched + 1 ∧ x'.skipped = x.skipped ∧ x'.blks.length = x.blks.length + 1 := by
  unfold execAttnBlockFetch
  extract_lets c p
  simp -zeta only [c, hpass]
  extract_lets gone x₁ u d slot
  have hgone : gone = [] := by simp [gone, htodo, hseen]
  have hx₁ : x₁ = x := by simp [x₁, hgone]
  have hmem : u.mem = s.mem := (State.setPass_mem ..).trans (State.bump_mem ..)
  have hfar : ∀ q, u.rd F.CTX_FARCFG_FAR_KV q = s.rd F.CTX_FARCFG_FAR_KV q := fun q =>
    (State.setPass_rd ..).trans (State.rd_bump_fld (by decide) (by decide))
  have hsched : u.sched = (s.setPass o x).sched :=
    (State.setPass_sched (State.bump_sched ..) o x₁).trans (by rw [hx₁])
  clear_value x₁ u
  subst hx₁
  simp -zeta only [htodo]
  rw [if_neg (by simp [slot, d, hfree, hfreed])]
  extract_lets toks mine bad x₂ x₃ pages a far js b e
  obtain ⟨hbad, hnone⟩ : bad = none ∧ mine.find? (fun y => u.tokDropped p x₁ y) = none :=
    ⟨State.find_unmapped hmem hfar p x₁ hmapped, State.find_dropped hmem hfar p x₁ hkept⟩
  have hx₃ : x₃ = { x₁ with todo := rest } := by simp only [x₃, x₂, hnone]
  have hskip : ¬ u.skipBlock p x₃ k = true := by
    rw [hx₃]
    exact ne_true_of_eq_false ((State.skipBlock_congr hmem hfar p x₁ k).trans hvisible)
  simp -zeta only [hbad]
  rw [if_neg hskip]
  have hstored : ∀ y, (a.setPass o y).sched = (s.setPass o y).sched := fun y =>
    (State.setPass_sched ((State.bump_sched ..).trans hsched) o y).trans (congrArg State.sched (s.setPass_setPass o x₁ y))
  have hsame : a.mem = s.mem := (State.bump_mem ..).trans hmem
  clear_value a
  refine ⟨_, _, rfl, State.addLines_beside.1.trans (hstored _), State.addLines_beside.2.trans hsame, ?_⟩
  simp [hx₃]

/-! ### Queries and tiles -/

/-- The queries are read, rotated and narrowed, one for each row and column of the head (R295). -/
theorem execAttnQueryPrepare_prepares (hpass : s.passOn core.val = some (o, x)) (hdesc : x.desc ≠ []) (hmode : aMode x.desc ≠ 3)
    (hready : x.ready = none) (hclk : 12 + (aQRows x.desc + 1) / 2 ≤ x.clk) : ∃ x' : Pass,
      execAttnQueryPrepare core s = .next ((s.ucharge (corePdk core.val) (aQRows x.desc)).setPass o x') ∧
      x'.ready = some (x.clk + aNr x.desc + 16) ∧ x'.blks = x.blks ∧ x'.todo = x.todo ∧ x'.q.length = aNr x.desc * aHead x.desc := by
  have hgo : ¬ (x.desc = [] ∨ aMode x.desc = 3 ∨ x.ready.isSome = true ∨ x.clk < 12 + (aQRows x.desc + 1) / 2) := by
    simp [hdesc, hmode, hready, hclk]
  unfold execAttnQueryPrepare
  simp only [hpass]
  rw [if_neg hgo]
  exact ⟨_, rfl, rfl, rfl, rfl, by simp [List.length_flatMap]⟩

/-- The score tile takes ME for its ticks, twice as many in a backward pass, and claims 136 clocks later (R296, R303, R305). -/
theorem execAttnQkTile_scores {b : PassBlk} {upsets : List (Nat × Nat)} (hpass : s.passOn core.val = some (o, x)) (hnext : x.qkNext = some b)
    (hholds : s.passHolds o x = true) : ∃ (u : State) (x' : Pass), execAttnQkTile core upsets s = .next (u.setPass o x') ∧ u.mem = s.mem ∧
      x'.meFree = x.clk + (if aMode x.desc = 2 then 2 else 1) * tStream (aQkWord x.desc) ∧ x'.lastClaim = x'.meFree + 136 ∧
      x'.todo = x.todo := by
  unfold execAttnQkTile
  extract_lets c
  simp -zeta only [c, hpass, hnext]
  rw [if_neg (by simp [hholds])]
  extract_lets d w n back dO dRows steps y
  have hscore : AtnFrame s (s.passTile o w (rowsOfBits x.q 128 n) (s.kvBlock core.val x b false).1 upsets
      (x.poison || (s.kvBlock core.val x b false).2)).1 := (AtnFrame.refl s).passTile ..
  have hsteps : steps = (if aMode x.desc = 2 then 2 else 1) * tStream (aQkWord x.desc) := by
    simp only [steps, back, d, w, ite_mul, one_mul]
  refine ⟨_, _, rfl, ?_, congrArg (x.clk + ·) hsteps, rfl, rfl⟩
  rw [apply_ite Prod.fst]
  exact (AtnFrame.ite (hscore.passTile ..) hscore).mem

theorem Pass.mem_setBlk {b b' : PassBlk} (hb : b ∈ x.blks) (hk : b'.k = b.k) : b' ∈ (x.setBlk b').blks :=
  List.mem_map.2 ⟨b, hb, if_pos hk.symm⟩

/-- The statistics of the oldest scored block: its P is ready aNr + 14 clocks later, in a forward pass and in a backward one (R297,
R303). -/
theorem execAttnRowStatistics_reduces {b : PassBlk} (hpass : s.passOn core.val = some (o, x))
    (hnext : x.blks.find? (fun b => b.pAt.isNone && b.qkAt.any (fun t => decide (t ≤ x.clk))) = some b) : ∃ x' : Pass,
      execAttnRowStatistics core s = .next ((s.wr F.ATN_STAT_BLOCK core.val (min b.k 0xFFFF)).setPass o x') ∧
      ∃ b' ∈ x'.blks, b'.k = b.k ∧ b'.pAt = some (x.clk + aNr x.desc + 14) := by
  have hb : b ∈ x.blks := List.mem_of_find?_eq_some hnext
  unfold execAttnRowStatistics
  simp only [hpass, hnext]
  split
  · exact ⟨_, rfl, _, Pass.mem_setBlk hb rfl, rfl, rfl⟩
  · exact ⟨_, rfl, _, Pass.mem_setBlk hb rfl, rfl, rfl⟩

/-- The value tiles of the oldest block count it, and it leaves the pass (R297, R305). -/
theorem execAttnPvTile_forward {b : PassBlk} {upsets : List (Nat × Nat)} (hpass : s.passOn core.val = some (o, x))
    (hnext : x.pvNext = some b) (hmode : aMode x.desc ≠ 2) : ∃ (u : State) (x' : Pass),
      execAttnPvTile core upsets s = .next (u.setPass o x') ∧ u.mem = s.mem ∧ x'.blks = x.blks.drop 1 ∧ x'.done = x.done + 1 ∧
      u.rd F.ATN_BLOCKS_COUNT core.val = min (s.rd F.ATN_BLOCKS_COUNT core.val + 1) maxCount := by
  unfold execAttnPvTile
  extract_lets c
  simp -zeta only [c, hpass, hnext]
  rw [if_neg hmode]
  refine ⟨_, _, rfl, ?_, rfl, rfl, ?_⟩
  · exact ((AtnFrame.refl _).passTiles ..).blockCounted.1
  · exact ((AtnFrame.refl _).passTiles ..).blockCounted.2

/-- In a backward pass the tiles of dV, dK and dQ count the block, and its gradients go out as lines (R303, R304). -/
theorem execAttnPvTile_backward {b : PassBlk} {upsets : List (Nat × Nat)} (hpass : s.passOn core.val = some (o, x))
    (hnext : x.pvNext = some b) (hmode : aMode x.desc = 2) : ∃ t, execAttnPvTile core upsets s = .next t ∧ t.mem = s.mem ∧
      t.rd F.ATN_BLOCKS_COUNT core.val = min (s.rd F.ATN_BLOCKS_COUNT core.val + 1) maxCount := by
  unfold execAttnPvTile
  extract_lets c
  simp -zeta only [c, hpass, hnext]
  rw [if_pos hmode]
  refine ⟨_, rfl, AtnFrame.blockCounted (AtnFrame.gradLines (AtnFrame.setPass (AtnFrame.countClean ?_ ..) ..) ..)⟩
  exact (((AtnFrame.refl _).passTiles ..).passTiles ..).passTiles ..

/-! ### The end of a pass -/

/-- Final scaling forms the rows to be written, the status row among them, and ends the arithmetic of the pass (R299, R301 to R305). -/
theorem execAttnFinalScaling_scales (hpass : s.passOn core.val = some (o, x)) (hdesc : x.desc ≠ []) (hscaled : x.scaled = none)
    (htodo : x.todo = []) (hblks : x.blks = []) (hclaim : x.lastClaim ≤ x.clk) (hmode : aMode x.desc ≠ 3)
    (hready : x.ready.any (fun t => decide (t ≤ x.clk)) = true) : ∃ (u : State) (x' : Pass),
      execAttnFinalScaling core s = .next (u.setPass o x') ∧ u.mem = s.mem ∧
      x'.scaled = some (if aMode x.desc = 0 then x.clk + aNr x.desc + 14 else x.clk) ∧ x'.outs ≠ [] := by
  unfold execAttnFinalScaling
  extract_lets c bytes
  simp -zeta only [c, hpass]
  extract_lets d m n nr waits parts rows y masked elems tail lse body extra cats a u outs ends
  have hgo : ¬ waits = true := by simp [waits, d, m, hdesc, hscaled, htodo, hblks, hclaim, hmode, hready]
  have hends : ends = if aMode x.desc = 0 then x.clk + aNr x.desc + 14 else x.clk := by simp [ends, m, d, nr, y, hmode]
  have ha : AtnFrame s a := (AtnFrame.refl s).bump
  have hu : AtnFrame s u := ha.countClean ..
  rw [if_neg hgo]
  exact ⟨_, _, rfl, hu.mem, congrArg some hends, by simp [outs]⟩

/-- A pass that met a dropped range is counted, named in its run's completion, and recorded when no record stands (R309, R312). -/
def State.noteStale (s : State) (c : Nat) (o : Op) (x : Pass) : State :=
  match x.stale with
  | none => s
  | some (lo, hi) =>
    let s := s.bump F.ATN_STALE_COUNT c
    let s := s.setRuns (corePdk c) ((s.runsOf (corePdk c)).tallyIn o.side (fun t => t.addStale (aCtx x.desc) lo hi))
    if s.rd F.ATN_STALE0_VALID c = 1 then s
    else
      let s := (s.wr F.ATN_STALE0_VALID c 1).wr F.ATN_STALE0_CTX c (aCtx x.desc)
      (s.wr F.ATN_STALE1_STALE_LO c lo).wr F.ATN_STALE1_STALE_HI c hi

theorem AtnFrame.noteStale (s : State) (c : Nat) (o : Op) (x : Pass) : AtnFrame s (s.noteStale c o x) := by
  unfold State.noteStale
  split
  · exact AtnFrame.refl s
  · extract_lets a b
    have ha : AtnFrame s a := (AtnFrame.refl s).bump
    clear_value a
    have hb : AtnFrame s b := ha.beside rfl rfl
    exact hb.ite hb.wr.wr.wr.wr

/-- ATN_STAT shows that the engine is idle, the epoch is released, and the pass is counted (R280, R309). -/
def State.showEnded (s : State) (c : Nat) : State :=
  ((s.wr F.ATN_STAT_BUSY c 0).wr F.ATN_EPOCH_EPOCH c 0).bump F.ATN_PASSES_COUNT c

/-- Once its rows have landed a pass applies its completion action; the engine is idle and the pass is counted (R280, R305, R309). -/
theorem execAttnPassComplete_completes (hpass : s.passOn core.val = some (o, x)) (hscaled : x.scaled ≠ none) (houts : x.outs = [])
    (hlanding : x.landing = 0) (hlines : x.lines = 0) : execAttnPassComplete core s =
      .next (((((s.noteStale core.val o x).showEnded core.val).completeOp o).syncHeld (corePdk core.val)).syncMxe core.val) := by
  unfold execAttnPassComplete
  simp only [hpass]
  rw [if_neg (by simp [Option.isNone_iff_eq_none, hscaled, houts, hlanding, hlines])]
  rfl

/-- What follows the count of a pass leaves it, and leaves the engine idle. -/
theorem AtnFrame.showEnded {t u : State} {c : Nat} (h : AtnFrame s t) (hu : AtnFrame (t.showEnded c) u) : u.rd F.ATN_STAT_BUSY c = 0 ∧
    u.rd F.ATN_EPOCH_EPOCH c = 0 ∧ u.mem = s.mem ∧ u.rd F.ATN_PASSES_COUNT c = min (s.rd F.ATN_PASSES_COUNT c + 1) maxCount := by
  have hbusy : (t.showEnded c).rd F.ATN_STAT_BUSY c = 0 :=
    (State.rd_bump_fld (by decide) (by decide)).trans ((State.rd_wr_fld (by decide)).trans State.rd_wr_self)
  have hepoch : (t.showEnded c).rd F.ATN_EPOCH_EPOCH c = 0 :=
    (State.rd_bump_fld (by decide) (by decide)).trans State.rd_wr_self
  have hcount : (t.showEnded c).rd F.ATN_PASSES_COUNT c = min (s.rd F.ATN_PASSES_COUNT c + 1) maxCount := by
    rw [← h.rd F.ATN_PASSES_COUNT c (by decide) (by decide)]
    refine (State.rd_bump_self rfl (by decide)).trans ?_
    rw [State.rd_wr_fld (by decide), State.rd_wr_fld (by decide)]
  exact ⟨(hu.rd _ c (by decide) (by decide)).trans hbusy, (hu.rd _ c (by decide) (by decide)).trans hepoch,
    (hu.mem.trans (State.bump_mem ..)).trans h.mem, (hu.rd _ c (by decide) (by decide)).trans hcount⟩

end Stage

/-- Without a pass no stage has anything to do. -/
theorem attnStages_noPass {s : State} {core : Fin 128} (h : s.passOn core.val = none) : execAttnBlockFetch core s = .next s ∧
    execAttnQueryPrepare core s = .next s ∧ execAttnRowStatistics core s = .next s ∧ execAttnFinalScaling core s = .next s ∧
    execAttnPassComplete core s = .next s ∧ ∀ u, execAttnQkTile core u s = .next s ∧ execAttnPvTile core u s = .next s := by
  refine ⟨?_, ?_, ?_, ?_, ?_, fun u => ⟨?_, ?_⟩⟩
  · simp only [execAttnBlockFetch, h]
  · simp only [execAttnQueryPrepare, h]
  · simp only [execAttnRowStatistics, h]
  · simp only [execAttnFinalScaling, h]
  · simp only [execAttnPassComplete, h]
  · simp only [execAttnQkTile, h]
  · simp only [execAttnPvTile, h]

/-- Settles O28: each stage of a pass is the lemma of its command above; without a pass every stage leaves the state as it is. -/
theorem attentionPasses : Obligations.AttentionPasses := by
  refine fun s => ⟨fun a r ws h => ⟨fun k hrow => execAttnPass_refused h hrow, fun u rows hrow => execAttnPass_begins h hrow⟩,
    fun core o x hpass => ⟨fun k rest htodo hseen hfree hfreed hmapped hvisible hkept =>
        execAttnBlockFetch_fetches hpass htodo hseen hfree hfreed hmapped hvisible hkept,
      execAttnQueryPrepare_prepares hpass, fun b upsets hnext hholds => execAttnQkTile_scores hpass hnext hholds,
      fun b hnext => execAttnRowStatistics_reduces hpass hnext, fun b upsets hnext hmode => execAttnPvTile_forward hpass hnext hmode,
      fun b upsets hnext hmode => execAttnPvTile_backward hpass hnext hmode, execAttnFinalScaling_scales hpass,
      fun hscaled houts hlanding hlines => ⟨_, execAttnPassComplete_completes hpass hscaled houts hlanding hlines, ?_⟩⟩,
    fun core hpass => attnStages_noPass hpass⟩
  exact (AtnFrame.noteStale s core.val o x).showEnded ((((AtnFrame.refl _).completeOp o).syncHeld _).syncMxe _)

end Sys2Proof.Machine
end

section
/-! PROOFS. Page moves, limbo and automatic demotion (chapter 11, R327, R341 to R343), with the frame of what gives a page another
use. -/

namespace Sys2Proof.Machine

/-! ### What gives a page another use -/

/-- The context store beside its lists in HBM, the far memory, the shelf stores and the working stores are the same. -/
structure PageFrame (s t : State) : Prop where
  kv : t.kv = s.kv
  far : t.mem.far = s.mem.far
  shelf : t.mem.shelf = s.mem.shelf
  ws : t.mem.ws = s.mem.ws

namespace PageFrame

variable {s₀ s t : State}

theorem refl (s : State) : PageFrame s s := ⟨rfl, rfl, rfl, rfl⟩

/-- A change beside the context store and the memories. -/
theorem beside (h : PageFrame s₀ s) (hkv : t.kv = s.kv) (hmem : t.mem = s.mem) : PageFrame s₀ t :=
  ⟨hkv.trans h.kv, (congrArg Mems.far hmem).trans h.far, (congrArg Mems.shelf hmem).trans h.shelf, (congrArg Mems.ws hmem).trans h.ws⟩

theorem wr (h : PageFrame s₀ s) (f : Fld) (i v j : Nat) : PageFrame s₀ (s.wr f i v j) := h.beside rfl rfl

theorem bump (h : PageFrame s₀ s) (f : Fld) (i j n : Nat) : PageFrame s₀ (s.bump f i j n) :=
  h.beside (State.bump_kv ..) (State.bump_mem ..)

theorem ite {c : Prop} [Decidable c] (hs : PageFrame s₀ s) (ht : PageFrame s₀ t) : PageFrame s₀ (if c then s else t) := by
  split <;> assumption

theorem foldl {α : Type} {l : List α} {f : State → α → State} (h : PageFrame s₀ s) (hf : ∀ u x, PageFrame s₀ u → PageFrame s₀ (f u x)) :
    PageFrame s₀ (l.foldl f s) :=
  List.foldlRecOn (motive := PageFrame s₀) _ _ h fun u hu x _ => hf u x hu

theorem addLine (h : PageFrame s₀ s) (x : Line) : PageFrame s₀ (s.addLine x) := by
  unfold State.addLine State.untimed
  extract_lets id x net a e
  have ha : PageFrame s₀ a := h.beside rfl rfl
  clear_value a
  exact ite (ha.beside rfl rfl) (ha.ite (ite (ha.beside rfl rfl) (ha.beside rfl rfl)))

/-- A primary's write goes to its standby as a line (R586). -/
theorem mirrorWrite (h : PageFrame s₀ s) (p : Nat) (far : Bool) (off : Nat) (bytes : List Byte) :
    PageFrame s₀ (s.mirrorWrite p far off bytes) := by
  unfold State.mirrorWrite
  refine h.ite ?_
  cases s.mirrorPort with
  | none => exact h
  | some q =>
    dsimp -zeta only
    extract_lets n m₀ m a net b
    have ha : PageFrame s₀ a := h.bump ..
    have hb : PageFrame s₀ b := ha.beside rfl rfl
    exact hb.addLine _

theorem hbmWrite (h : PageFrame s₀ s) (p a : Nat) (bs : List Byte) : PageFrame s₀ (s.hbmWrite p a bs) := ⟨h.kv, h.far, h.shelf, h.ws⟩

theorem kvPut (h : PageFrame s₀ s) (p off : Nat) (bytes : List Byte) : PageFrame s₀ (s.kvPut p off bytes) :=
  (h.hbmWrite p off bytes).mirrorWrite ..

theorem follow (h : PageFrame s₀ s) (f : Fld) (p : Nat) (was is : Bool) : PageFrame s₀ (s.follow f p was is) :=
  (h.wr ..).ite ((h.wr ..).ite h)

theorem setUse (h : PageFrame s₀ s) (p id v : Nat) : PageFrame s₀ (s.setUse p id v) :=
  ((((h.kvPut ..).follow ..).follow ..).follow ..).ite ((h.kvPut ..).follow ..)

end PageFrame

/-! ### Page moves -/

section Move

variable {s : State} {p : Fin 16} {m : Move}

theorem execPageMoveAppendsDrained_noMove (hmove : s.moveOf p.val = none) : execPageMoveAppendsDrained p s = .next s := by
  simp only [execPageMoveAppendsDrained, hmove]

theorem execPageMoveCopyDone_noMove (hmove : s.moveOf p.val = none) : execPageMoveCopyDone p s = .next s := by
  simp only [execPageMoveCopyDone, hmove]

/-- The rows that were in flight when MOVING was set have ended: the copy starts (R341 step 3). -/
theorem execPageMoveAppendsDrained_drained (hmove : s.moveOf p.val = some m) (hcopying : m.copying = false)
    (hrows : s.kv.rows.any (fun r => m.waits.contains r.id) = false) :
    execPageMoveAppendsDrained p s = .next (s.setMove { m with copying := true }) := by
  simp only [execPageMoveAppendsDrained, hmove]
  exact if_neg (by simp only [hcopying, hrows, Bool.false_eq_true, or_self, not_false_iff])

theorem execPageMoveAppendsDrained_waits (hmove : s.moveOf p.val = some m)
    (hrows : s.kv.rows.any (fun r => m.waits.contains r.id) = true) : execPageMoveAppendsDrained p s = .next s := by
  simp only [execPageMoveAppendsDrained, hmove]
  exact if_pos (.inr hrows)

theorem execPageMoveCopyDone_notCopying (hmove : s.moveOf p.val = some m) (hcopying : m.copying = false) :
    execPageMoveCopyDone p s = .next s := by
  simp only [execPageMoveCopyDone, hmove]
  exact if_pos hcopying

/-- A copy that cannot be made takes MOVING back and frees the target pages (R341, R446). -/
theorem execPageMoveCopyDone_fails {i : Nat} {rest : List Nat} (hmove : s.moveOf p.val = some m) (hcopying : m.copying = true)
    (htodo : m.todo = i :: rest) (hstatus : s.moveStatus p.val m ≠ 0) : execPageMoveCopyDone p s =
      .next ((m.pages.foldl (fun s x => s.setUse p.val x.2.2 1) (s.markMoving p.val (s.desc p.val m.ctx) i false)).endMove m
        (s.moveStatus p.val m)) := by
  simp only [execPageMoveCopyDone, hmove, hcopying, htodo, if_pos hstatus, Bool.true_eq_false, if_false]

/-- A copy that succeeds is followed by the root swap, and the move goes on to its next page or ends (R341 step 5). -/
theorem execPageMoveCopyDone_swaps {i : Nat} {rest : List Nat} {t : State} (hmove : s.moveOf p.val = some m) (hcopying : m.copying = true)
    (htodo : m.todo = i :: rest) (hstatus : s.moveStatus p.val m = 0)
    (hfits : State.fitsLimbo p.val ((m.pages.foldl (fun s x => s.copyPage p.val x.2.1 x.2.2) s).swapMoved m i) = some t) :
    execPageMoveCopyDone p s = .next (
      let m' : Move := { m with todo := rest, moved := m.moved + m.pages.length, pages := [], waits := [] }
      if rest = [] then t.endMove m' 0 else (t.setMove m').beginPage m') := by
  simp only [execPageMoveCopyDone, hmove, hcopying, htodo, hfits, if_neg (not_not.2 hstatus), Bool.true_eq_false, if_false]

end Move

/-! ### Limbo -/

/-- The entries of a paddock's limbo whose tag MIN_HELD exceeds (R327). -/
def State.outlived (s : State) (p : Nat) : List Limbo := (s.limboOf p).filter (fun x => decide (x.tag < s.minHeld p))

theorem State.mem_outlived {s : State} {p : Nat} {x : Limbo} :
    x ∈ s.outlived p ↔ x ∈ s.kv.limbo ∧ x.pdk = p ∧ x.tag < s.minHeld p := by
  simp only [State.outlived, State.limboOf, List.mem_filter, beq_iff_eq, decide_eq_true_eq, and_assoc]

/-- Pages of limbo return to their free lists; a node has none (R327). -/
def State.freeLimbo (s : State) (p : Nat) (l : List Limbo) : State := l.foldl (fun s x => if x.kind = 2 then s else s.setUse p x.id 1) s

theorem State.freeLimbo_frame (s : State) (p : Nat) (l : List Limbo) : PageFrame s (s.freeLimbo p l) :=
  (PageFrame.refl s).foldl fun _ _ hu => hu.ite (hu.setUse ..)

/-- Entries leave a paddock's limbo, and CTX_LIMBO.ENTRIES follows. -/
def State.dropLimbo (s : State) (p : Nat) (l : List Limbo) : State :=
  let t : State := { s with kv := { s.kv with limbo := s.kv.limbo.filter (fun x => !l.contains x) } }
  t.wr F.CTX_LIMBO_ENTRIES p (t.limboOf p).length

theorem State.mem_dropLimbo {s : State} {p : Nat} {l : List Limbo} {x : Limbo} :
    x ∈ (s.dropLimbo p l).kv.limbo ↔ x ∈ s.kv.limbo ∧ x ∉ l := by
  simp [State.dropLimbo]

theorem State.pumpEdits_nil {s : State} {p : Nat} (hedits : s.editsOf p = []) : s.pumpEdits p = s := by
  unfold State.pumpEdits
  rw [hedits]
  rfl

/-- With no edit that waits LIMBO_RECYCLE frees the entries that MIN_HELD has outlived, and does nothing else (R327). -/
theorem execLimboRecycle_frees {s : State} {p : Fin 16} (hedits : s.editsOf p.val = []) : execLimboRecycle p s = .next (
    let u := s.syncHeld p.val
    (u.freeLimbo p.val (u.outlived p.val)).dropLimbo p.val (u.outlived p.val)) := by
  have hkept : ((s.syncHeld p.val).freeLimbo p.val ((s.syncHeld p.val).outlived p.val)).editsOf p.val = [] :=
    (congrArg (fun kv : Kv => tget [] kv.edits [p.val]) (State.freeLimbo_frame ..).kv).trans hedits
  exact congrArg Host.Outcome.next (State.pumpEdits_nil hkept)

/-- What LIMBO_RECYCLE leaves in limbo and in the memories beside HBM (R327). -/
theorem execLimboRecycle_leaves {s : State} {p : Fin 16} (hedits : s.editsOf p.val = []) :
    ∃ t, execLimboRecycle p s = .next t ∧ t.mem.far = s.mem.far ∧ t.mem.shelf = s.mem.shelf ∧ t.mem.ws = s.mem.ws ∧
      (∀ x ∈ t.kv.limbo, x.pdk = p.val → (s.syncHeld p.val).minHeld p.val ≤ x.tag) ∧
      ∀ x ∈ s.kv.limbo, x.pdk ≠ p.val → x ∈ t.kv.limbo := by
  obtain ⟨hkv, hfar, hshelf, hws⟩ := (s.syncHeld p.val).freeLimbo_frame p.val ((s.syncHeld p.val).outlived p.val)
  refine ⟨_, execLimboRecycle_frees hedits, hfar, hshelf, hws, fun x hx hpdk => ?_, fun x hx hpdk => ?_⟩
  · rw [State.mem_dropLimbo, hkv] at hx
    exact Nat.le_of_not_lt fun hlt => hx.2 (State.mem_outlived.2 ⟨hx.1, hpdk, hlt⟩)
  · rw [State.mem_dropLimbo, hkv]
    exact ⟨hx, fun hback => hpdk (State.mem_outlived.1 hback).2.1⟩

/-! ### Automatic demotion -/

/-- The HBM pages that wait in a paddock's limbo. -/
def State.limboPages (s : State) (p : Nat) : Nat := ((s.limboOf p).filter (fun x => x.kind == 0)).length

/-- A paddock enters or leaves automatic demotion (R343). -/
def State.setDemoting (s : State) (p : Nat) (b : Bool) : State := { s with kv := { s.kv with demoting := tset false s.kv.demoting [p] b } }

theorem State.setDemoting_demoting (s : State) (p : Nat) (b : Bool) : tget false (s.setDemoting p b).kv.demoting [p] = b := tget_tset_self

theorem execAutoDemote_off {s : State} {p : Fin 16} (hen : s.rd F.CTX_CFG_DEMOTE_EN p.val = 0) : execAutoDemote p s = .next s :=
  if_pos (.inl hen)

section Demote

variable {s : State} {p : Fin 16} (hen : s.rd F.CTX_CFG_DEMOTE_EN p.val = 1)
  (hlow : s.rd F.CTX_POOL_FREE_PAGES p.val < s.rd F.CTX_CFG_LOW_WM p.val) (hmove : s.moveOf p.val = none) (hedits : s.editsOf p.val = [])
  (hfrozen : s.frozen p.val = false)

include hen hlow hmove hedits hfrozen

/-- Nothing keeps a paddock below LOW_WM from demotion between commands (R343). -/
theorem autoDemote_due : ¬ (s.rd F.CTX_CFG_DEMOTE_EN p.val = 0 ∨
    (tget false s.kv.demoting [p.val] || decide (s.rd F.CTX_POOL_FREE_PAGES p.val < s.rd F.CTX_CFG_LOW_WM p.val)) = false ∨
    (s.moveOf p.val).isSome = true ∨ s.editsOf p.val ≠ [] ∨ s.frozen p.val = true) := by
  simp [hen, hlow, hmove, hedits, hfrozen]

theorem execAutoDemote_stops (hhigh : s.rd F.CTX_CFG_HIGH_WM p.val ≤ s.rd F.CTX_POOL_FREE_PAGES p.val + s.limboPages p.val) :
    execAutoDemote p s = .next (s.setDemoting p.val false) :=
  (if_neg (autoDemote_due hen hlow hmove hedits hfrozen)).trans (if_pos hhigh)

theorem execAutoDemote_demotes {c i : Nat}
    (hhigh : s.rd F.CTX_POOL_FREE_PAGES p.val + s.limboPages p.val < s.rd F.CTX_CFG_HIGH_WM p.val)
    (hvictim : s.victim p.val = some (c, i)) (hlack : s.moveLack p.val (s.desc p.val c) true [i] = 0) :
    execAutoDemote p s = .next ((s.setDemoting p.val true).beginMove none p.val c true [i]) := by
  refine (if_neg (autoDemote_due hen hlow hmove hedits hfrozen)).trans ((if_neg (Nat.not_le_of_lt hhigh)).trans ?_)
  simp only [hvictim]
  exact if_pos hlack

end Demote

/-- Settles O31: a move waits for its rows, then copies and swaps or takes MOVING back; what MIN_HELD has outlived leaves limbo; and
automatic demotion starts a move below LOW_WM and stops at HIGH_WM. -/
theorem pageMoves : Obligations.PageMoves := by
  refine fun s p => ⟨fun hmove => ⟨execPageMoveAppendsDrained_noMove hmove, execPageMoveCopyDone_noMove hmove⟩,
    fun m hmove => ⟨execPageMoveAppendsDrained_drained hmove, execPageMoveAppendsDrained_waits hmove,
      execPageMoveCopyDone_notCopying hmove, fun i rest hcopying htodo => ⟨execPageMoveCopyDone_fails hmove hcopying htodo, ?_⟩⟩,
    execLimboRecycle_leaves, execAutoDemote_off, fun c i hen hlow hmove hedits hfrozen =>
      ⟨fun hhigh => ⟨_, execAutoDemote_stops hen hlow hmove hedits hfrozen hhigh, s.setDemoting_demoting p.val false, rfl, rfl⟩,
        execAutoDemote_demotes hen hlow hmove hedits hfrozen⟩⟩
  rintro t hstatus hfits m' rfl
  have hswap := execPageMoveCopyDone_swaps hmove hcopying htodo hstatus hfits
  exact ⟨fun hlast => hswap.trans (congrArg Host.Outcome.next (if_pos hlast)),
    fun hmore => hswap.trans (congrArg Host.Outcome.next (if_neg hmore))⟩

end Sys2Proof.Machine
end

section
/-! PROOFS. Decode steps (chapter 11, R346 to R349): the command, the turn of the sorting assist, and the runs of the buckets. -/

namespace Sys2Proof.Machine

/-! ### The command -/

/-- A step takes its place: it joins the steps, and its mark the paddock's waiting runs (R346, R349). -/
def State.joinStep (s : State) (y : Step) : State :=
  let t : State := { s with sched := { s.sched with steps := s.sched.steps ++ [y] } }
  let r := t.runsOf (paddockOf y.h)
  t.setRuns (paddockOf y.h) { r with waiting := r.waiting ++ [⟨y.h, 0, y.slot, y.params, some stepMark, tally0⟩] }

theorem State.joinStep_runsOf (s : State) (y : Step) : (s.joinStep y).runsOf (paddockOf y.h) =
    { s.runsOf (paddockOf y.h) with
      waiting := (s.runsOf (paddockOf y.h)).waiting ++ [⟨y.h, 0, y.slot, y.params, some stepMark, tally0⟩] } :=
  State.runsOf_setRuns ..

section Begun

variable (s : State) (h : Hdr) (op : Nat) (cmd : Instr) (rs : List HostRange)

theorem State.begun_out : (s.begun h op cmd rs).out = s.out :=
  (apply_ite State.out ..).trans (ite_both (State.start_out ..) (State.start_out ..))

theorem State.begun_sched : (s.begun h op cmd rs).sched = s.sched :=
  (apply_ite State.sched ..).trans (ite_both (State.start_sched ..) (State.start_sched ..))

end Begun

/-- Some operand of DECODE_STEP lies outside its range (R346). -/
def stepOutOfRange (out outBytes nM1 slot pPages pCount pRow : Nat) : Bool :=
  decide (4096 < nM1 + 1) || decide (3 < slot) || decide (15 < pPages) || decide (15 < pCount) || decide (15 < pRow) ||
    pPages == pCount || pPages == pRow || pCount == pRow || out % 512 != 0 || ptrTag out != 0 ||
    decide (outBytes < 512 * (26 + (nM1 + 1 + 31) / 32))

theorem stepOutOfRange_eq_false {out outBytes nM1 slot pPages pCount pRow : Nat} :
    stepOutOfRange out outBytes nM1 slot pPages pCount pRow = false ↔ nM1 < 4096 ∧ slot ≤ 3 ∧ pPages ≤ 15 ∧ pCount ≤ 15 ∧ pRow ≤ 15 ∧
      pPages ≠ pCount ∧ pPages ≠ pRow ∧ pCount ≠ pRow ∧ out % 512 = 0 ∧ ptrTag out = 0 ∧
      512 * (26 + (nM1 + 1 + 31) / 32) ≤ outBytes := by
  simp only [stepOutOfRange, Bool.or_eq_false_iff, decide_eq_false_iff_not, beq_eq_false_iff_ne, bne_eq_false_iff_eq, Nat.not_lt,
    Nat.succ_le_iff, and_assoc]

/-- DECODE_STEP with operands in range, whose pointers pass and whose pages are there, waits for the assist (R346). -/
theorem execDecodeStep_goes {s : State} {h : Hdr} {list out outBytes nM1 slot pPages pCount pRow : Nat} {params : List Nat}
    {data : List Byte} (hrange : stepOutOfRange out outBytes nM1 slot pPages pCount pRow = false) (hlist : ptrTag list ≠ 3)
    (hgo : s.goes h opStep (firstStatus [s.ptrStatus h.fn.val (paddockOf h) list (8 * (nM1 + 1)) false,
      s.ptrStatus h.fn.val (paddockOf h) out outBytes true, wholeStatus list 64 false]))
    (hpresent : s.untranslated h [⟨list, 8 * (nM1 + 1), false⟩] ∨ s.translated h [⟨list, 8 * (nM1 + 1), false⟩]) :
    execDecodeStep h list out outBytes nM1 slot pPages pCount pRow params data s = .next (
      ((s.begun h opStep (.decodeStep h list out outBytes nM1 slot pPages pCount pRow params data)
        [⟨list, 8 * (nM1 + 1), false⟩]).setPhase h .waiting).joinStep ⟨h, slot, (List.range 16).map (fun k => nth params k % 2 ^ 32),
          pPages, pCount, pRow, list, out, nM1 + 1, false, [], 0, tally0, 0, 0, 0⟩) := by
  have hfirst : ∀ l, firstStatus (failIf (stepOutOfRange out outBytes nM1 slot pPages pCount pRow) 0x240 ::
      failIf (ptrTag list = 3) 0x401 :: l) = firstStatus l := fun l => by
    rw [hrange, decide_eq_false hlist]
    rfl
  refine congrArg Host.Outcome.next ((State.checked_goes ?_).trans (State.gate_begun hpresent))
  exact (hfirst _).symm ▸ hgo

/-! ### The sorting assist -/

/-- A message that is sent changes the queues of the ports and of the die alone (R568). -/
theorem State.sendMsg_onlyNet (s : State) (m : Msg) : ∃ net, s.sendMsg m = { s with net := net } := by
  unfold State.sendMsg
  dsimp only
  split
  · rename_i port _
    cases port <;> exact ⟨_, rfl⟩
  · exact ⟨s.net, rfl⟩

/-- The steps, and the paddock that the assist serves next, are the same. -/
structure StepFrame (s t : State) : Prop where
  steps : t.sched.steps = s.sched.steps
  assist : t.kv.assist = s.kv.assist

namespace StepFrame

variable {s₀ s t : State}

theorem refl (s : State) : StepFrame s s := ⟨rfl, rfl⟩

/-- A change beside the steps and the assist. -/
theorem beside (h : StepFrame s₀ s) (hsteps : t.sched.steps = s.sched.steps) (hassist : t.kv.assist = s.kv.assist) : StepFrame s₀ t :=
  ⟨hsteps.trans h.steps, hassist.trans h.assist⟩

theorem bump (h : StepFrame s₀ s) (f : Fld) (i j n : Nat) : StepFrame s₀ (s.bump f i j n) :=
  h.beside (congrArg Sched.steps (State.bump_sched ..)) (congrArg Kv.assist (State.bump_kv ..))

theorem ite {c : Prop} [Decidable c] (hs : StepFrame s₀ s) (ht : StepFrame s₀ t) : StepFrame s₀ (if c then s else t) := by
  split <;> assumption

theorem foldl {α : Type} {l : List α} {f : State → α → State} (h : StepFrame s₀ s) (hf : ∀ u x, StepFrame s₀ u → StepFrame s₀ (f u x)) :
    StepFrame s₀ (l.foldl f s) :=
  List.foldlRecOn (motive := StepFrame s₀) _ _ h fun u hu x _ => hf u x hu

theorem setPhase (h : StepFrame s₀ s) (x : Hdr) (ph : Phase) : StepFrame s₀ (s.setPhase x ph) := h.beside rfl rfl

theorem complete (h : StepFrame s₀ s) (x : Hdr) (status result num : Nat) (keep : Bool) :
    StepFrame s₀ (s.complete x status result num keep) :=
  h.beside (congrArg Sched.steps (State.complete_sched ..)) (congrArg Kv.assist (State.complete_kv ..))

theorem unmark (h : StepFrame s₀ s) (x : Hdr) : StepFrame s₀ (s.unmark x) := h.beside rfl rfl

theorem countRead (h : StepFrame s₀ s) (fn p ptr n : Nat) : StepFrame s₀ (s.countRead fn p ptr n) := by
  unfold State.countRead
  split
  · exact h.bump ..
  · exact h.bump ..
  · exact h.bump ..
  · exact h

theorem useDesc (h : StepFrame s₀ s) (p c : Nat) : StepFrame s₀ (s.useDesc p c) := by
  unfold State.useDesc
  extract_lets kv a
  have ha : StepFrame s₀ a := h.beside rfl rfl
  exact h.ite ((ha.bump F.CTX_DMISS_COUNT p 0 1).beside rfl rfl)

theorem sendMsg (h : StepFrame s₀ s) (m : Msg) : StepFrame s₀ (s.sendMsg m) := by
  obtain ⟨net, hnet⟩ := s.sendMsg_onlyNet m
  exact hnet ▸ h.beside rfl rfl

theorem ptrWrite (h : StepFrame s₀ s) (fn p ptr : Nat) (bs : List Byte) : StepFrame s₀ (s.ptrWrite fn p ptr bs) := by
  unfold State.ptrWrite
  split
  · have hw : StepFrame s₀ ((s.noteWrite p ptr bs.length).hbmWrite p (ptrAddr ptr) bs) := h.beside rfl rfl
    exact hw.bump ..
  · have he : StepFrame s₀ (s.emit (.hostWrite fn ptr bs)) := h.beside rfl rfl
    exact he.bump ..
  · split
    · extract_lets a
      have ha : StepFrame s₀ a := h.beside rfl rfl
      refine StepFrame.bump ?_ ..
      exact ha.beside rfl rfl
    · exact h
  · exact h.foldl fun _ _ hu => hu.sendMsg _

end StepFrame

theorem State.mem_setStep {s : State} {y z : Step} (hmem : z ∈ (s.setStep y).sched.steps) (hz : z.h = y.h) : z = y := by
  obtain ⟨x, _, rfl⟩ := List.mem_map.1 hmem
  by_cases hx : x.h = y.h
  · exact if_pos hx
  · exact absurd ((congrArg Step.h (if_neg hx)).symm.trans hz) hx

theorem State.mem_dropStep {s : State} {h : Hdr} {z : Step} (hmem : z ∈ (s.dropStep h).sched.steps) : z.h ≠ h := by
  simpa using (List.mem_filter.1 hmem).2

/-- The assist has gone on to paddock `k`, and no step of the command is left that is not sorted. -/
def AssistLeft (k : Nat) (h : Hdr) (t : State) : Prop := t.kv.assist = k ∧ ∀ z ∈ t.sched.steps, z.h = h → z.sorted = true

section Left

variable {s₀ s : State} {y : Step}

/-- A step that is dropped is gone. -/
theorem StepFrame.left_dropStep (hs : StepFrame s₀ s) (h : Hdr) : AssistLeft s₀.kv.assist h (s.dropStep h) :=
  ⟨hs.assist, fun _ hz hh => absurd hh (State.mem_dropStep hz)⟩

theorem StepFrame.left_setStep (hs : StepFrame s₀ s) (hsorted : y.sorted = true) : AssistLeft s₀.kv.assist y.h (s.setStep y) :=
  ⟨hs.assist, fun z hz hh => by rwa [State.mem_setStep hz hh]⟩

/-- A sorted step ends or stays, as its buckets and runs say (R349). -/
theorem StepFrame.left_stepMaybeEnd (hs : StepFrame s₀ s) (hsorted : y.sorted = true) :
    AssistLeft s₀.kv.assist y.h (s.stepMaybeEnd y) := by
  unfold State.stepMaybeEnd State.endStep
  extract_lets a status hi
  have ha : StepFrame s₀ a := (hs.unmark y.h).ite hs
  clear_value a
  split
  · have hend := (StepFrame.refl (a.dropStep y.h)).complete y.h status (y.tally.numSat + y.bucketsRun % 32 * 16 + hi) y.tally.numeric true
    obtain ⟨hassist, hgone⟩ := ha.left_dropStep y.h
    exact ⟨hend.assist.trans hassist, fun z hz => hgone z (hend.steps ▸ hz)⟩
  · exact ha.left_setStep hsorted

end Left

section Assist

variable {s : State} {p : Fin 16} {y : Step} {k : Nat}

theorem execSortingAssistTake_none (hdue : s.assistDue p.val = none) : execSortingAssistTake p s = .next s := by
  simp only [execSortingAssistTake, hdue]

/-- Out of turn the assist takes nothing (R18). -/
theorem execSortingAssistTake_otherTurn (hdue : s.assistDue p.val = some y)
    (hturn : (List.range 16).find? (fun k => (s.assistDue ((s.kv.assist + k) % 16)).isSome) = some k)
    (hother : (s.kv.assist + k) % 16 ≠ p.val) : execSortingAssistTake p s = .next s := by
  simp only [execSortingAssistTake, hdue, hturn, Option.map_some]
  exact if_pos (.inl hother)

/-- In its turn the assist takes the step: a step whose command has ended is dropped, one that is rejected ends, and any other is
sorted (R347, R348). -/
theorem execSortingAssistTake_takes (hdue : s.assistDue p.val = some y) (hfrozen : s.frozen p.val = false)
    (hturn : (List.range 16).find? (fun k => (s.assistDue ((s.kv.assist + k) % 16)).isSome) = some k)
    (hmine : (s.kv.assist + k) % 16 = p.val) :
    ∃ t, execSortingAssistTake p s = .next t ∧ AssistLeft ((p.val + 1) % 16) y.h t := by
  unfold execSortingAssistTake
  extract_lets q turn kv s₁ rowsOf
  rw [show turn = some k from hturn, show s.assistDue q = some y from hdue]
  dsimp -zeta only [Option.map_some]
  rw [if_neg (by simp [hmine, q, hfrozen])]
  have h₁ : StepFrame s₁ s₁ := StepFrame.refl s₁
  cases s₁.findTaken y.h with
  | none => exact ⟨_, rfl, (h₁.unmark y.h).left_dropStep y.h⟩
  | some tk =>
    dsimp -zeta only
    extract_lets data s₂ fail st s₃ b es bad s₄ xs lists start summary body s₅ buckets
    have h₂ : StepFrame s₁ s₂ := h₁.setPhase ..
    have h₃ : StepFrame s₁ s₃ := h₂.countRead ..
    have h₄ : StepFrame s₁ s₄ := h₃.foldl fun _ _ hu => (hu.useDesc ..).ite hu
    have h₅ : StepFrame s₁ s₅ := h₄.ptrWrite ..
    have hfail : ∀ st u, StepFrame s₁ u → AssistLeft ((p.val + 1) % 16) y.h (fail st u) := fun st u hu =>
      hu.left_stepMaybeEnd (y := { y with sorted := true, buckets := [], status := st }) rfl
    clear_value fail s₂ s₃ s₄ s₅
    split
    · exact ⟨_, rfl, hfail _ _ h₂⟩
    split
    · exact ⟨_, rfl, hfail _ _ h₄⟩
    · exact ⟨_, rfl, h₅.left_setStep (y := { y with sorted := true, buckets := buckets }) rfl⟩

end Assist

/-! ### The runs of the buckets -/

theorem execDecodeBucketRun_idle {s : State} {p : Fin 16} (hsteps : s.sched.steps = []) (hdue : s.stepDue p.val = none) :
    execDecodeBucketRun p s = .next s := by
  simp only [execDecodeBucketRun, hsteps, List.find?_nil, hdue]

/-- The run of a step's next bucket, with PAGES, COUNT and ROW in the parameters named for them (R349). -/
def Step.bucketRun (y : Step) (b count row : Nat) : Run :=
  ⟨y.h, 0, y.slot, ((y.params.set y.pPages (2 ^ b)).set y.pCount count).set y.pRow row, some b, tally0⟩

/-- A bucket is taken from a step, which gives up its place with the last one (R349). -/
def State.takeBucket (s : State) (y : Step) (rest : List (Nat × Nat × Nat)) : State :=
  let t := s.setStep { y with buckets := rest, running := y.running + 1 }
  if rest = [] then t.unmark y.h else t

/-- A run is armed, or ends with the status that keeps it from running (R105). -/
def State.armOrEnd (s : State) (p : Nat) (x : Run) : State :=
  if s.runStatus p x.slot x.params ≠ 0 then s.endRun x (s.runStatus p x.slot x.params) else s.armRun p x

theorem execDecodeBucketRun_next {s : State} {p : Fin 16} {y : Step} {b count row : Nat} {rest : List (Nat × Nat × Nat)}
    (hstopped : s.sched.steps.find? (fun y => paddockOf y.h == p.val && y.sorted && nth (s.progOf y.h) 0 == 1 && y.running == 0) = none)
    (hdue : s.stepDue p.val = some y) (hsorted : y.sorted = true) (hbuckets : y.buckets = (b, count, row) :: rest)
    (harmed : (s.runsOf p.val).armed = none) (hcause : (s.runsOf p.val).cause = none) (hfrozen : s.frozen p.val = false) :
    execDecodeBucketRun p s = .next (
      let v := (s.takeBucket y rest).armOrEnd p.val (y.bucketRun b count row)
      (v.armWaiting p.val (v.runsOf p.val).waiting.length).syncPstat p.val) := by
  cases y
  cases hsorted
  cases hbuckets
  simp only [execDecodeBucketRun, hstopped, hdue]
  exact if_neg (by simp [harmed, hcause, hfrozen])

/-- Settles O32: a step joins the waiting runs, the assist takes it in its paddock's turn and leaves it sorted or gone, and the run of
its next bucket is armed or ended. -/
theorem decodeSteps : Obligations.DecodeSteps := by
  refine fun s => ⟨?_, fun p y k hdue hfrozen hturn => ⟨fun hmine => ?_, execSortingAssistTake_otherTurn hdue hturn⟩,
    fun p => execSortingAssistTake_none, ?_, fun p => execDecodeBucketRun_idle⟩
  · rintro h list out outBytes nM1 slot pPages pCount pRow params data hn hslot hpages hcount hrow hpc hpr hcr halign hlocal hroom hlist
      hgo hpresent ps rfl
    refine ⟨_, execDecodeStep_goes (stepOutOfRange_eq_false.2
        ⟨hn, hslot, hpages, hcount, hrow, hpc, hpr, hcr, halign, hlocal, hroom⟩) hlist hgo hpresent,
      State.begun_mem .., State.begun_out .., ?_, ?_⟩
    · exact congrArg (fun c : Sched => c.steps ++ _) (State.begun_sched ..)
    · rw [State.joinStep_runsOf (y := ⟨h, _, _, _, _, _, _, _, _, _, _, _, _, _, _, _⟩)]
      exact congrArg (fun r : PdkRun => r.waiting ++ _) (State.runsOf_congr (congrArg Sched.runs (State.begun_sched ..)) _)
  · obtain ⟨t, htake, hassist, hsorted⟩ := execSortingAssistTake_takes hdue hfrozen hturn hmine
    exact ⟨t, htake, hassist, hsorted⟩
  · rintro p y b count row rest hstopped hdue hsorted hbuckets harmed hcause hfrozen u x rfl rfl
    exact ⟨_, rfl, execDecodeBucketRun_next hstopped hdue hsorted hbuckets harmed hcause hfrozen⟩

end Sys2Proof.Machine
end

section
/-! PROOFS. Tables (chapter 12): the commands of the descriptor store one after another, and a lookup from its issue over the rows that
return to its end. -/

namespace Sys2Proof.Machine

/-! ### Commands that are taken and end -/

theorem Taken.is_self (t : Taken) : t.is t.h = true := by simp [Taken.is]

theorem State.findTaken_none {s : State} {h : Hdr} : s.findTaken h = none ↔ ∀ t ∈ s.taken, t.is h = false := by
  simp [State.findTaken]

/-- A command that was not taken yet joins the taken commands (R493). -/
theorem State.start_taken {s : State} {h : Hdr} (op : Nat) (cmd : Option Instr) (prog : List Nat) (hnew : s.findTaken h = none) :
    (s.start h op cmd prog).taken = s.taken ++ [⟨h, op, cmd, .executing, s.now, [], prog⟩] := by
  unfold State.start
  rw [hnew]
  exact (apply_ite State.taken ..).trans (ite_both rfl rfl)

theorem removeFirst_eq_eraseP {α : Type} (q : α → Bool) : ∀ l : List α, removeFirst q l = l.eraseP q
  | [] => rfl
  | x :: xs => by rw [removeFirst, List.eraseP_cons, removeFirst_eq_eraseP q xs, Bool.cond_eq_ite]

theorem State.dropTaken_taken (s : State) (h : Hdr) : (s.dropTaken h).taken = removeFirst (fun t => t.is h) s.taken := by
  unfold State.dropTaken
  split
  · next hnone =>
    rw [removeFirst_eq_eraseP, List.eraseP_of_forall_not (by simpa using State.findTaken_none.1 hnone)]
  · exact (apply_ite State.taken ..).trans (ite_both rfl ((apply_ite State.taken ..).trans (ite_both rfl rfl)))

/-- A completion takes its command, and no other, from the taken commands (R508). -/
theorem State.complete_taken (s : State) (h : Hdr) (status result num : Nat) (keep : Bool) :
    (s.complete h status result num keep).taken = removeFirst (fun t => t.is h) s.taken := by
  simp only [State.complete, apply_ite State.taken, State.msix_taken, State.bump_taken, State.advanceCq_taken, State.emit_taken,
    State.dropTaken_taken, ite_self]

/-! ### Descriptors -/

theorem State.tableOf_setTable (s : State) (p slot : Nat) (d : List Byte) : (s.setTable p slot d).tableOf p slot = d := tget_tset_self

theorem State.tableOf_setTable_ne (s : State) {p slot p' k : Nat} (d : List Byte) (hne : p' ≠ p ∨ k ≠ slot) :
    (s.setTable p slot d).tableOf p' k = s.tableOf p' k :=
  tget_tset_ne (by simpa [imp_iff_not_or] using hne)

theorem State.setTable_mem (s : State) (p slot : Nat) (d : List Byte) : (s.setTable p slot d).mem = s.mem := rfl

theorem State.tableOf_congr {s t : State} (htables : t.tables = s.tables) (p k : Nat) : t.tableOf p k = s.tableOf p k := by
  unfold State.tableOf
  rw [htables]

theorem State.genHolders_congr {s t : State} (hsched : t.sched = s.sched) (p k gen : Nat) :
    t.genHolders p k gen = s.genHolders p k gen := by
  unfold State.genHolders
  rw [hsched]

/-! ### Table commands that execute -/

/-- A table command of a paddock that executes (R378). -/
def tableCmdOf (p : Nat) : Taken → Bool := fun t => t.ofPdk p && t.phase == .executing && (t.op == opTableDefine || t.op == opTableRetire)

/-- The oldest table command of a paddock that executes (R378). -/
def State.nextTable (s : State) (p : Nat) : Option Taken := s.taken.find? (tableCmdOf p)

theorem tableCmdOf_eq_false {p : Nat} {t : Taken} (ht : t.ofPdk p = true → t.op ≠ opTableDefine ∧ t.op ≠ opTableRetire) :
    tableCmdOf p t = false := by
  cases hp : t.ofPdk p with
  | false => simp [tableCmdOf, hp]
  | true => simp [tableCmdOf, ht hp]

section Step

variable {s : State} {p : Nat} {x : Taken} {h : Hdr} {slot gen flags : Nat}

theorem State.tableStep_idle (hnext : s.nextTable p = none) : s.tableStep p = none := by
  unfold State.nextTable tableCmdOf at hnext
  simp only [State.tableStep, hnext]

/-- TABLE_DEFINE goes on when no lookup holds the generation that follows (R369). -/
theorem State.tableStep_defines {sect elem hash rowsLog2 rows base mult tag : Nat} (hnext : s.nextTable p = some x)
    (hcmd : x.cmd = some (.tableDefine h slot sect elem hash rowsLog2 rows base mult tag))
    (hgen : (tdGen (s.tableOf p slot) + 1) % 256 = gen) (hfree : s.genHolders p slot gen = 0) :
    s.tableStep p =
      some ((s.setTable p slot (tableBytes gen sect elem hash rowsLog2 rows base mult tag)).complete h 0 (gen * 2 ^ 4)) := by
  subst hgen
  unfold State.nextTable tableCmdOf at hnext
  simp only [State.tableStep, hnext, hcmd]
  exact if_neg (not_not.2 hfree)

/-- TABLE_RETIRE that waits first makes the table of its generation invalid and counts the lookups that hold it (R370). -/
theorem State.tableStep_retires (hnext : s.nextTable p = some x) (hcmd : x.cmd = some (.tableRetire h slot gen flags))
    (hwait : hasBit flags 0 = true) (hprog : nth x.prog 1 = 0) (hvalid : tdValid (s.tableOf p slot) = true)
    (hgen : tdGen (s.tableOf p slot) = gen) :
    s.tableStep p = some ((s.setTable p slot (0 :: (s.tableOf p slot).drop 1)).setProg h [s.genHolders p slot gen, 1]) := by
  unfold State.nextTable tableCmdOf at hnext
  simp only [State.tableStep, hnext, hcmd]
  rw [if_pos ⟨hwait, hprog⟩, if_neg (by simp [hvalid, hgen])]
  rfl

/-- A retired table's command completes when no lookup holds its generation (R370). -/
theorem State.tableStep_retired {n : Nat} (hnext : s.nextTable p = some x) (hcmd : x.cmd = some (.tableRetire h slot gen flags))
    (hprog : x.prog = [n, 1]) (hfree : s.genHolders p slot gen = 0) :
    s.tableStep p = some (s.complete h 0 (gen * 2 ^ 4 + n * 2 ^ 16)) := by
  unfold State.nextTable tableCmdOf at hnext
  simp only [State.tableStep, hnext, hcmd, hprog]
  rw [if_neg (fun hmark => Nat.one_ne_zero hmark.2), if_neg (by simp), if_neg (not_not.2 hfree)]
  rfl

end Step

section Pump

variable {s t u : State} {p : Nat}

theorem State.tablePump_idle (hidle : s.tableStep p = none) : ∀ n, s.tablePump p n = s
  | 0 => rfl
  | n + 1 => by rw [State.tablePump, hidle]

theorem State.tablePump_step (hstep : s.tableStep p = some t) (n : Nat) : s.tablePump p (n + 1) = t.tablePump p n := by
  rw [State.tablePump, hstep]

theorem State.tableGo_one (hstep : s.tableStep p = some t) (hidle : t.tableStep p = none) : s.tableGo p = t :=
  (State.tablePump_step hstep _).trans (State.tablePump_idle hidle _)

theorem State.tableGo_two (htaken : s.taken ≠ []) (hstep : s.tableStep p = some t) (hstep' : t.tableStep p = some u)
    (hidle : u.tableStep p = none) : s.tableGo p = u := by
  obtain ⟨n, hn⟩ : ∃ n, 3 * s.taken.length = n + 1 := Nat.exists_eq_succ_of_ne_zero (by simpa using htaken)
  unfold State.tableGo
  rw [State.tablePump_step hstep, hn, State.tablePump_step hstep', State.tablePump_idle hidle]

theorem execTableGenerationRelease_waits {p : Fin 16} (hidle : s.tableStep p.val = none) :
    execTableGenerationRelease p s = .next s :=
  congrArg Host.Outcome.next (State.tablePump_idle hidle _)

theorem execTableGenerationRelease_goes {p : Fin 16} (hstep : s.tableStep p.val = some t) :
    execTableGenerationRelease p s = .next (t.tablePump p.val (3 * s.taken.length)) :=
  congrArg Host.Outcome.next (State.tablePump_step hstep _)

end Pump

/-- Beside the commands `l`, none of them a table command of the paddock, the paddock's table command `x` executes. -/
structure SoleTable (l : List Taken) (p : Nat) (x : Taken) (u : State) : Prop where
  taken : u.taken = l ++ [x]
  other : ∀ t ∈ l, t.is x.h = false
  idle : ∀ t ∈ l, tableCmdOf p t = false
  mine : tableCmdOf p x = true

namespace SoleTable

variable {l : List Taken} {p : Nat} {x : Taken} {u : State}

theorem nextTable (hu : SoleTable l p x u) : u.nextTable p = some x := by
  have hl : l.find? (tableCmdOf p) = none := List.find?_eq_none.2 fun t ht => by simp [hu.idle t ht]
  simp [State.nextTable, hu.taken, List.find?_append, hl, hu.mine]

theorem taken_ne_nil (hu : SoleTable l p x u) : u.taken ≠ [] := by simp [hu.taken]

theorem setTable (hu : SoleTable l p x u) (slot : Nat) (d : List Byte) : SoleTable l p x (u.setTable p slot d) :=
  ⟨hu.taken, hu.other, hu.idle, hu.mine⟩

/-- Numbers kept for a command change that command alone. -/
theorem setProg (hu : SoleTable l p x u) (prog : List Nat) : SoleTable l p { x with prog := prog } (u.setProg x.h prog) := by
  refine ⟨?_, hu.other, hu.idle, hu.mine⟩
  have hkeep : l.map (fun t : Taken => if t.is x.h then { t with prog := prog } else t) = l :=
    (List.map_congr_left fun t ht => if_neg (by simp [hu.other t ht])).trans (List.map_id l)
  simp [State.setProg, hu.taken, hkeep, x.is_self]

theorem complete_taken (hu : SoleTable l p x u) (status result : Nat) : (u.complete x.h status result).taken = l := by
  rw [State.complete_taken, hu.taken, removeFirst_eq_eraseP, List.eraseP_append_right _ (by simpa using hu.other)]
  simp [x.is_self]

/-- After its completion no table command of the paddock is left. -/
theorem complete_idle (hu : SoleTable l p x u) (status result : Nat) : (u.complete x.h status result).tableStep p = none := by
  refine State.tableStep_idle ?_
  rw [State.nextTable, hu.complete_taken]
  exact List.find?_eq_none.2 fun t ht => by simp [hu.idle t ht]

end SoleTable

/-! ### TABLE_DEFINE, TABLE_RETIRE and TABLE_READ -/

section Commands

variable {s : State} {h : Hdr} {slot gen : Nat}

/-- A table command starts as the paddock's only one, when none is under way. -/
theorem State.start_soleTable {op : Nat} (hop : op = opTableDefine ∨ op = opTableRetire) (cmd : Instr) (hnew : s.findTaken h = none)
    (hq : h.q.val ≠ 8) (hfn : h.fn.val = vfOf (paddockOf h))
    (hothers : ∀ t ∈ s.taken, t.ofPdk (paddockOf h) = true → t.op ≠ opTableDefine ∧ t.op ≠ opTableRetire) :
    SoleTable s.taken (paddockOf h) ⟨h, op, some cmd, .executing, s.now, [], []⟩ (s.start h op (some cmd)) :=
  ⟨State.start_taken op (some cmd) [] hnew, State.findTaken_none.1 hnew, fun t ht => tableCmdOf_eq_false (hothers t ht),
    by simp [tableCmdOf, Taken.ofPdk, hq, hfn, hop]⟩

theorem State.start_tableOf (s : State) (h : Hdr) (op : Nat) (cmd : Option Instr) (p k : Nat) :
    (s.start h op cmd).tableOf p k = s.tableOf p k := State.tableOf_congr (State.start_tables ..) p k

theorem State.start_genHolders (s : State) (h : Hdr) (op : Nat) (cmd : Option Instr) (p k gen : Nat) :
    (s.start h op cmd).genHolders p k gen = s.genHolders p k gen := State.genHolders_congr (State.start_sched ..) p k gen

theorem State.complete_tableOf (s : State) (h : Hdr) (status result p k : Nat) :
    (s.complete h status result).tableOf p k = s.tableOf p k := State.tableOf_congr (State.complete_tables ..) p k

/-- TABLE_DEFINE with no table command under way writes its descriptor and completes with the generation (R369). -/
theorem execTableDefine_goes {sect elem hash rowsLog2 rows base mult tag : Nat}
    (hgo : s.goes h opTableDefine
      (firstStatus [failIf (decide (255 < slot)) 0x250, s.tableStatus h sect elem hash rowsLog2 rows base mult]))
    (hnew : s.findTaken h = none) (hq : h.q.val ≠ 8) (hfn : h.fn.val = vfOf (paddockOf h))
    (hothers : ∀ t ∈ s.taken, t.ofPdk (paddockOf h) = true → t.op ≠ opTableDefine ∧ t.op ≠ opTableRetire)
    (hgen : (tdGen (s.tableOf (paddockOf h) slot) + 1) % 256 = gen) (hfree : s.genHolders (paddockOf h) slot gen = 0) :
    execTableDefine h slot sect elem hash rowsLog2 rows base mult tag s =
      .next (((s.start h opTableDefine (some (.tableDefine h slot sect elem hash rowsLog2 rows base mult tag))).setTable (paddockOf h)
        slot (tableBytes gen sect elem hash rowsLog2 rows base mult tag)).complete h 0 (gen * 2 ^ 4)) := by
  have hsole := State.start_soleTable (.inl rfl) (.tableDefine h slot sect elem hash rowsLog2 rows base mult tag) hnew hq hfn hothers
  refine congrArg Host.Outcome.next ((State.checked_goes hgo).trans (State.tableGo_one ?_ ((hsole.setTable ..).complete_idle ..)))
  exact State.tableStep_defines hsole.nextTable rfl (by rwa [State.start_tableOf]) (by rwa [State.start_genHolders])

/-- TABLE_RETIRE with WAIT makes the table invalid, and completes at once when no lookup holds its generation (R370). -/
theorem execTableRetire_goes (hgo : s.goes h opTableRetire (failIf (decide (255 < slot) || decide (255 < gen) || decide (1 < 1)) 0x201))
    (hnew : s.findTaken h = none) (hq : h.q.val ≠ 8) (hfn : h.fn.val = vfOf (paddockOf h))
    (hothers : ∀ t ∈ s.taken, t.ofPdk (paddockOf h) = true → t.op ≠ opTableDefine ∧ t.op ≠ opTableRetire)
    (hvalid : tdValid (s.tableOf (paddockOf h) slot) = true) (hgen : tdGen (s.tableOf (paddockOf h) slot) = gen)
    (hfree : s.genHolders (paddockOf h) slot gen = 0) :
    ∃ u, u.taken = s.taken ∧ u.mem = s.mem ∧
      u.tables = (s.setTable (paddockOf h) slot (0 :: (s.tableOf (paddockOf h) slot).drop 1)).tables ∧
      execTableRetire h slot gen 1 s = .next u := by
  have hsole := State.start_soleTable (.inr rfl) (.tableRetire h slot gen 1) hnew hq hfn hothers
  have hmarked := (hsole.setTable slot (0 :: (s.tableOf (paddockOf h) slot).drop 1)).setProg [0, 1]
  have hretires := State.tableStep_retires hsole.nextTable rfl rfl rfl (by rwa [State.start_tableOf]) (by rwa [State.start_tableOf])
  rw [State.start_tableOf, State.start_genHolders, hfree] at hretires
  have hretired := State.tableStep_retired hmarked.nextTable rfl rfl ((s.start_genHolders h opTableRetire _ _ _ _).trans hfree)
  refine ⟨_, hmarked.complete_taken 0 (gen * 2 ^ 4 + 0 * 2 ^ 16), ?_, ?_, congrArg Host.Outcome.next ((State.checked_goes hgo).trans
    (State.tableGo_two hsole.taken_ne_nil hretires hretired (hmarked.complete_idle ..)))⟩
  · rw [State.complete_mem, State.setProg_mem, State.setTable_mem, State.start_mem]
  · rw [State.complete_tables, State.setProg_tables]
    exact congrArg (tset [] · [paddockOf h, slot] (0 :: (s.tableOf (paddockOf h) slot).drop 1)) (State.start_tables ..)

/-- TABLE_READ writes the 64 bytes of the descriptor as it stands (R378). -/
theorem execTableRead_goes {out : Nat} (hgo : s.goes h opTableRead (firstStatus [failIf (decide (255 < slot)) 0x201,
      s.checkPtr h.fn.val (paddockOf h) out 64 true, s.resourceStatus (paddockOf h) out]))
    (hpages : s.untranslated h [⟨out, 64, true⟩] ∨ s.translated h [⟨out, 64, true⟩]) :
    execTableRead h slot out s = .next (
      let u := s.begun h opTableRead (.tableRead h slot out) [⟨out, 64, true⟩]
      (u.ptrWrite h.fn.val (paddockOf h) out ((u.tableOf (paddockOf h) slot ++ List.replicate 64 0).take 64)).complete h 0) :=
  congrArg Host.Outcome.next ((State.checked_goes hgo).trans (State.gate_begun hpages))

end Commands

/-! ### A lookup issues -/

section Issue

variable {s : State} {a : At} {r : Run} {ws : List Nat}

/-- A lookup in a table that is not valid aborts with 0x0670 (R377). -/
theorem execTableLookup_invalid (h : s.issues opcLookup a r ws)
    (hinvalid : tdValid ((s.issued a r ws).tableOf (corePdk a.core.val) (lSlot (nth ws 0))) = false) :
    execTableLookup a s =
      .next ((s.issued a r ws).tblErr a.core.val 0 (lSlot (nth ws 0)) 0 (s.ctxOf a r ws).pos 0x670) :=
  congrArg Host.Outcome.next ((State.issueAs_issues h).trans (if_pos hinvalid))

/-- A lookup becomes outstanding with its latched descriptor, its request rows and its output slots (R361). -/
def State.addLookup (s : State) (x : Ctx) (d : List Byte) (req rows : List Nat) : State :=
  let t := s.addOp x.c x.side x.st x.pos (bitsAt x.w 0 24) (rowField (lDst x.w)).drawer
    (.lookup ⟨x.w, lSlot x.w, d, req, rows, [], [], [], [], false, false, 0⟩)
  (t.addAct x.c s.sched.nextOp (t.opTick x.c) (t.opTick x.c + 1) 4).syncTbl x.c

theorem State.mem_addLookup (s : State) (x : Ctx) (d : List Byte) (req rows : List Nat) :
    ∃ o ∈ (s.addLookup x d req rows).sched.ops, o.core = x.c ∧
      o.kind = .lookup ⟨x.w, lSlot x.w, d, req, rows, [], [], [], [], false, false, 0⟩ :=
  ⟨_, List.mem_append_right _ (List.mem_singleton_self _), rfl, rfl⟩

/-- A lookup in a valid table that gets its request rows and its output slots is added (R361). -/
theorem execTableLookup_adds {v w : State} {req rows : List Nat} {d : List Byte} (h : s.issues opcLookup a r ws)
    (hd : (s.issued a r ws).tableOf (corePdk a.core.val) (lSlot (nth ws 0)) = d) (hvalid : tdValid d = true)
    (htake : (s.issued a r ws).takeRows a.core.val (rowField (lReq (nth ws 0))) (lReqRows (nth ws 0)) = .ok (v, req))
    (hclaim : v.claimRows a.core.val (rowField (lDst (nth ws 0))) (lookupOut (nth ws 0) d) = .ok (w, rows)) :
    execTableLookup a s = .next (w.addLookup (s.ctxOf a r ws) d req rows) := by
  have hlive : ¬ tdValid ((s.issued a r ws).tableOf (corePdk a.core.val) (lSlot (nth ws 0))) = false := by simp [hd, hvalid]
  refine congrArg Host.Outcome.next ((State.issueAs_issues h).trans ((if_neg hlive).trans ?_))
  dsimp only [State.ctxOf, Ctx.w]
  simp only [htake, hd, hclaim]
  rfl

end Issue

/-! ### A row returns -/

/-- The oldest lookup of a core that has a row arrived, and that row (R363). -/
def State.rowArrived (s : State) (c : Nat) : Option (Op × Lookup × Nat × Nat × List Byte × Bool) :=
  s.sched.ops.findSome? (fun o => match o.kind with
    | .lookup l => if o.core = c then l.arrived.map (fun r => (o, l, r)) else none
    | _ => none)

/-- The lookup with row `k` of bag `b` returned: its bytes and poison are kept, and its parts are no longer waited for. -/
def Lookup.keep (l : Lookup) (b k : Nat) (row : List Byte) (poison : Bool) : Lookup :=
  { l with got := l.got ++ [(b, k, row, poison)], parts := l.parts.filter (fun x => !(x.1 == b && x.2.1 == k)) }

section Return

variable {s : State} {core : Fin 128} {o : Op} {l : Lookup} {b k : Nat} {row : List Byte} {poison : Bool}

/-- What becomes of a row that has arrived: gathered at once, or pooled with the last row of its bag (R363, R364, R365). -/
theorem execTableRowReturn_arrived (harr : s.rowArrived core.val = some (o, l, b, k, row, poison)) :
    execTableRowReturn core s = .next (
      let l' := l.keep b k row poison
      let u := s.setOp o.id (.lookup l')
      if (s.runsOf (corePdk core.val)).cause.isSome then u
      else if lPool l.word = 0 then
        (u.countOutputs (corePdk core.val) o.side (l'.gatherOut row).2).landRows o (l'.slotRows k) (l'.gatherOut row).1
          (poison || l'.reqPoison 0)
      else if (l'.ids.filter (fun i => i.1 == b)).length = (l'.bagRows b).length then
        (u.countOutputs (corePdk core.val) o.side (l'.bagOut b).2.1).landRows o (l'.slotRows b) (l'.bagOut b).1 (l'.bagOut b).2.2
      else u) := by
  unfold execTableRowReturn
  extract_lets c next
  rw [show next = some (o, l, b, k, row, poison) from harr]
  simp only [apply_ite Host.Outcome.next]
  rfl

/-- A lookup of an aborted schedule uses nothing of the row (R375). -/
theorem execTableRowReturn_aborted (harr : s.rowArrived core.val = some (o, l, b, k, row, poison))
    (hcause : (s.runsOf (corePdk core.val)).cause ≠ none) :
    execTableRowReturn core s = .next (s.setOp o.id (.lookup (l.keep b k row poison))) :=
  (execTableRowReturn_arrived harr).trans (congrArg Host.Outcome.next (if_pos (Option.isSome_iff_ne_none.2 hcause)))

variable (hcause : (s.runsOf (corePdk core.val)).cause = none)

include hcause

theorem execTableRowReturn_gathers (harr : s.rowArrived core.val = some (o, l, b, k, row, poison)) (hpool : lPool l.word = 0) :
    execTableRowReturn core s = .next (
      let l' := l.keep b k row poison
      ((s.setOp o.id (.lookup l')).countOutputs (corePdk core.val) o.side (l'.gatherOut row).2).landRows o (l'.slotRows k)
        (l'.gatherOut row).1 (poison || l'.reqPoison 0)) :=
  (execTableRowReturn_arrived harr).trans (congrArg Host.Outcome.next ((if_neg (by simp [hcause])).trans (if_pos hpool)))

theorem execTableRowReturn_pools (harr : s.rowArrived core.val = some (o, l, b, k, row, poison)) (hpool : lPool l.word ≠ 0)
    (hlast : ((l.keep b k row poison).ids.filter (fun i => i.1 == b)).length = ((l.keep b k row poison).bagRows b).length) :
    execTableRowReturn core s = .next (
      let l' := l.keep b k row poison
      ((s.setOp o.id (.lookup l')).countOutputs (corePdk core.val) o.side (l'.bagOut b).2.1).landRows o (l'.slotRows b)
        (l'.bagOut b).1 (l'.bagOut b).2.2) :=
  (execTableRowReturn_arrived harr).trans
    (congrArg Host.Outcome.next ((if_neg (by simp [hcause])).trans ((if_neg hpool).trans (if_pos hlast))))

end Return

/-! ### A lookup ends -/

/-- The registers that the end of a lookup may write beside its count: CHANGED, the record of R373, TBL_CSTAT, and what a completion
action writes at a cell, a stile or the record of their errors (R136, R150, R152). -/
def lookupEndFlds : List Fld :=
  synErrFlds ++ [F.SYN_VAL_VALUE, F.SYN_LSIG_STREAM, F.SYN_LSIG_COMPLETION, F.SYN_LSIG_OP, F.SYN_LSIG_POSITION, F.SYN_LTICK_TICK,
    F.SYN_STILE_LAST_STREAM, F.SYN_STILE_POS_LAST_POSITION, F.SYN_STILE_SENSE, F.SYN_STILE_MASK, F.SYN_STILE_CLAIMED,
    F.SYN_STILE_ARRIVED, F.SYN_STILE_PHASES, F.TBL_CHANGED_OVF, F.TBL_CHANGED_COUNT, F.TBL_REC0_VALID, F.TBL_REC0_KIND,
    F.TBL_REC0_CORE, F.TBL_REC0_SLOT, F.TBL_REC0_GEN, F.TBL_REC0_POSITION, F.TBL_REC1_TIME, F.TBL_CSTAT_OUTSTANDING]

/-- Nothing but those registers, the schedules and the messages on their way differs. -/
structure LookupEndFrame (s t : State) : Prop where
  eq : t = { s with regs := t.regs, sched := t.sched, net := t.net }
  rd : ∀ (g : Fld) (i j : Nat), (∀ f ∈ lookupEndFlds, g.id ≠ f.id) → t.rd g i j = s.rd g i j

namespace LookupEndFrame

variable {s t u : State}

theorem refl (s : State) : LookupEndFrame s s := ⟨rfl, fun _ _ _ _ => rfl⟩

theorem trans (h : LookupEndFrame s t) (h' : LookupEndFrame t u) : LookupEndFrame s u := by
  refine ⟨?_, fun g i j hg => (h'.rd g i j hg).trans (h.rd g i j hg)⟩
  conv_lhs => rw [h'.eq, h.eq]

theorem mem (h : LookupEndFrame s t) : t.mem = s.mem := by rw [h.eq]
theorem tables (h : LookupEndFrame s t) : t.tables = s.tables := by rw [h.eq]

/-- A change of the schedules and the messages alone. -/
theorem beside (h : LookupEndFrame s t) {sched : Sched} {net : Net} : LookupEndFrame s { t with sched := sched, net := net } :=
  h.trans ⟨rfl, fun _ _ _ _ => rfl⟩

theorem wr (h : LookupEndFrame s t) {f : Fld} {i v j : Nat} (hf : f ∈ lookupEndFlds := by decide) : LookupEndFrame s (t.wr f i v j) :=
  h.trans ⟨rfl, fun _ _ _ hg => State.rd_wr_fld (hg f hf)⟩

theorem ite {c : Prop} [Decidable c] (ht : LookupEndFrame s t) (hu : LookupEndFrame s u) : LookupEndFrame s (if c then t else u) := by
  split <;> assumption

theorem foldl {α : Type} {l : List α} {f : State → α → State} (h : LookupEndFrame s t)
    (hf : ∀ v x, LookupEndFrame s v → LookupEndFrame s (f v x)) : LookupEndFrame s (l.foldl f t) :=
  List.foldlRecOn (motive := LookupEndFrame s) _ _ h fun v hv x _ => hf v x hv

theorem sendMsg (h : LookupEndFrame s t) (m : Msg) : LookupEndFrame s (t.sendMsg m) := by
  obtain ⟨net, hnet⟩ := t.sendMsg_onlyNet m
  exact hnet ▸ h.beside

theorem discardTimed (h : LookupEndFrame s t) (p : Nat) : LookupEndFrame s (t.discardTimed p) := by
  unfold State.discardTimed
  extract_lets mine gone a keyed
  have ha : LookupEndFrame s a := h.foldl fun _ _ hu => hu.beside
  exact ha.beside

theorem abort (h : LookupEndFrame s t) (p cause : Nat) : LookupEndFrame s (t.abort p cause) := by
  unfold State.abort State.abortWith
  extract_lets r keepArmed a
  have hruns : LookupEndFrame s (t.setRuns p { r with cause := some cause, stopArmed := !keepArmed }) := h.beside
  have ha : LookupEndFrame s a := hruns.discardTimed p
  exact h.ite (LookupEndFrame.ite (ha.foldl fun _ _ hu => (hu.sendMsg _).ite hu) ha)

theorem synError (h : LookupEndFrame s t) (c kind stream target position : Nat) (completion : Bool) :
    LookupEndFrame s (t.synError c kind stream target position completion) := by
  obtain ⟨heq, hrd⟩ := t.recordSync_onlyRegs (c := c) (kind := kind) (stream := stream) (target := target) (position := position)
    (completion := completion)
  have hrec : LookupEndFrame t (t.recordSync c kind stream target position completion) :=
    ⟨by rw [heq], fun g i j hg => hrd g i j fun f hf => hg f (List.mem_append_left _ hf)⟩
  rw [State.synError_eq]
  exact (h.trans hrec).abort ..

theorem signalCell (h : LookupEndFrame s t) (c n op x stream position : Nat) (completion : Bool) :
    LookupEndFrame s (t.signalCell c n op x stream position completion) := by
  unfold State.signalCell
  split
  · exact h.synError ..
  · exact h.wr.wr.wr.wr.wr.wr

theorem stileArrive (h : LookupEndFrame s t) (c k stream position : Nat) (completion : Bool) :
    LookupEndFrame s (t.stileArrive c k stream position completion) := by
  unfold State.stileArrive
  extract_lets arrived a _ b d e
  have hb : LookupEndFrame s b := h.wr.wr.beside
  exact (h.synError ..).ite (hb.wr.wr.wr.wr.wr.ite hb.wr)

theorem dropOp (h : LookupEndFrame s t) (o : Op) : LookupEndFrame s (t.dropOp o) := h.beside

theorem completeOp (h : LookupEndFrame s t) (o : Op) : LookupEndFrame s (t.completeOp o) :=
  ((h.dropOp o).signalCell ..).ite (((h.dropOp o).stileArrive ..).ite (h.dropOp o))

theorem warnSide (h : LookupEndFrame s t) (p side w : Nat) : LookupEndFrame s (t.warnSide p side w) := h.beside

theorem countChanged (h : LookupEndFrame s t) (p : Nat) : LookupEndFrame s (t.bump F.TBL_CHANGED_COUNT p) := by
  unfold State.bump
  extract_lets n
  exact (LookupEndFrame.wr h.wr).ite h.wr

theorem tblRec (h : LookupEndFrame s t) (o : Op) (l : Lookup) (kind : Nat) : LookupEndFrame s (t.tblRec o l kind) :=
  h.ite h.wr.wr.wr.wr.wr.wr.wr

theorem syncTbl (h : LookupEndFrame s t) (c : Nat) : LookupEndFrame s (t.syncTbl c) := h.wr

end LookupEndFrame

/-- The oldest lookup of a core that has ended (R374). -/
def State.lookupEnded (s : State) (c : Nat) : Option (Op × Lookup) :=
  s.sched.ops.findSome? (fun o => match o.kind with
    | .lookup l => if o.core = c ∧ l.ended = true then some (o, l) else none
    | _ => none)

/-- A lookup that has ended is counted, and what follows the count touches neither it nor a memory or descriptor (R373, R374). -/
theorem execTableLookupComplete_counts {s : State} {core : Fin 128} {o : Op} {l : Lookup} (hend : s.lookupEnded core.val = some (o, l)) :
    ∃ t, execTableLookupComplete core s = .next t ∧ LookupEndFrame (s.bump F.TBL_LOOKUPS_COUNT (corePdk core.val)) t := by
  unfold execTableLookupComplete
  extract_lets c p next
  rw [show next = some (o, l) from hend]
  dsimp -zeta only
  extract_lets changed skipped dropped
  have hcounted := LookupEndFrame.refl (s.bump F.TBL_LOOKUPS_COUNT p)
  have hchanged : LookupEndFrame _ changed := (((hcounted.countChanged p).tblRec o l 0).warnSide p o.side 0x180).ite hcounted
  have hskipped : LookupEndFrame _ skipped := ((hchanged.tblRec o l 1).warnSide p o.side 0x181).ite hchanged
  have hdropped : LookupEndFrame _ dropped := (hskipped.dropOp o).ite (hskipped.completeOp o)
  exact ⟨_, rfl, hdropped.syncTbl c⟩

/-- Settles O33: a table command that is alone runs at once to its completion, one that waits goes on only when its generation is free;
a lookup adds its operation or aborts, its rows land as they return, and its end is counted. -/
theorem tables : Obligations.Tables := by
  refine fun s => ⟨?_, ?_, fun p => ⟨execTableGenerationRelease_waits, fun t => execTableGenerationRelease_goes⟩, ?_, ?_, ?_, ?_⟩
  · rintro h slot sect elem hash rowsLog2 rows base mult tag hgo hnew hq hfn hothers gen rfl hfree
    refine ⟨_, execTableDefine_goes hgo hnew hq hfn hothers rfl hfree, rfl, ?_, ?_, fun p k hne => ?_⟩
    · rw [State.complete_tableOf, State.tableOf_setTable]
    · rw [State.complete_mem, State.setTable_mem, State.start_mem]
    · rw [State.complete_tableOf, State.tableOf_setTable_ne _ _ hne, State.start_tableOf]
  · rintro h slot gen hgo hnew hq hfn hothers hvalid hgen hfree
    obtain ⟨u, htaken, hmem, htables, hrun⟩ := execTableRetire_goes hgo hnew hq hfn hothers hvalid hgen hfree
    have hslot := (State.tableOf_congr htables _ _).trans (State.tableOf_setTable s (paddockOf h) slot _)
    refine ⟨u, hrun, ?_, hslot, hmem, ?_, fun p k hne => ?_⟩
    · rw [hslot]
      rfl
    · rw [State.findTaken, htaken]
      exact hnew
    · exact (State.tableOf_congr htables p k).trans (State.tableOf_setTable_ne _ _ hne)
  · rintro h slot out hgo hpages u rfl
    exact execTableRead_goes hgo hpages
  · rintro a r ws h u rfl
    exact ⟨execTableLookup_invalid h, fun v req w rows hvalid htake hclaim =>
      ⟨_, execTableLookup_adds h rfl hvalid htake hclaim, rfl, rfl, w.mem_addLookup (s.ctxOf a r ws) _ req rows⟩⟩
  · exact fun core o l b k row poison harr => ⟨_, rfl, execTableRowReturn_aborted harr,
      fun hcause => execTableRowReturn_gathers hcause harr, fun hcause => execTableRowReturn_pools hcause harr⟩
  · intro core o l hend
    obtain ⟨t, hrun, hframe⟩ := execTableLookupComplete_counts hend
    refine ⟨t, hrun, hframe.mem.trans (State.bump_mem ..), hframe.tables.trans (State.bump_tables ..), ?_⟩
    exact (hframe.rd _ _ _ (by decide)).trans (State.rd_bump_self rfl (by decide))

end Sys2Proof.Machine
end

section
/-! PROOFS. Settings that come into force later: CAL_PERIOD_MS (chapter 13, R407) and the far slot table (chapter 15, R448); and what a
register reads after a loop that writes its place in one round alone. -/

namespace Sys2Proof.Machine

/-! ### What a change of registers leaves alone -/

section Only

variable {s t : State} {fs : List Fld} (h : OnlyRegs s t fs)
include h

theorem OnlyRegs.mem : t.mem = s.mem := by rw [h.1]
theorem OnlyRegs.msys : t.msys = s.msys := by rw [h.1]
theorem OnlyRegs.out : t.out = s.out := by rw [h.1]

end Only

/-! ### One place of the registers over a loop -/

section Loop

variable {f : Nat → State → State} {s : State} {g : Fld} {i j : Nat}

theorem State.rd_loopN_keep : ∀ {n : Nat}, (∀ m < n, ∀ u : State, (f m u).rd g i j = u.rd g i j) → (loopN n f s).rd g i j = s.rd g i j
  | 0, _ => rfl
  | n + 1, hkeep => by
    rw [loopN_succ, hkeep n (Nat.lt_succ_self n)]
    exact rd_loopN_keep fun m hm => hkeep m (Nat.lt_succ_of_lt hm)

/-- Round `k` alone changes the place: afterwards it holds what that round makes of its first value. -/
theorem State.rd_loopN_round {φ : Nat → Nat} {k : Nat} (hround : ∀ u : State, (f k u).rd g i j = φ (u.rd g i j))
    (hkeep : ∀ m, m ≠ k → ∀ u : State, (f m u).rd g i j = u.rd g i j) : ∀ {n : Nat}, k < n → (loopN n f s).rd g i j = φ (s.rd g i j)
  | n + 1, hk => by
    rw [loopN_succ]
    rcases Nat.lt_succ_iff_lt_or_eq.1 hk with hlt | rfl
    · rw [hkeep n (by omega)]
      exact rd_loopN_round hround hkeep hlt
    · rw [hround, State.rd_loopN_keep fun m hm => hkeep m (by omega)]

end Loop

/-! ### CAL_PERIOD_MS -/

/-- The register holds the clamped period at once; until the next multiple of it the old period goes on (R407). -/
theorem execCalPeriodMsWrite_schedules (s : State) {v : Nat} (hv : v < 512) :
    ∃ t, execCalPeriodMsWrite v s = .next t ∧ t.rd F.HBM_DCFG_CAL_PERIOD_MS 0 = min (max v 8) 256 ∧ t.msys.calOld = s.calMs ∧
      t.msys.calUntil = (s.now / (min (max v 8) 256 * 1000000) + 1) * (min (max v 8) 256 * 1000000) ∧ t.mem = s.mem ∧
      ∀ (g : Fld) (i j : Nat), g.id ≠ F.HBM_DCFG_CAL_PERIOD_MS.id → t.rd g i j = s.rd g i j := by
  have hnow : (s.wr F.HBM_DCFG_CAL_PERIOD_MS 0 (min (max v 8) 256)).now = s.now := State.rd_wr_fld (by decide)
  have hfits : min (max v 8) 256 % 512 = min (max v 8) 256 := by omega
  unfold execCalPeriodMsWrite
  rw [Nat.mod_eq_of_lt hv]
  refine ⟨_, rfl, State.rd_wr_self.trans hfits, rfl, ?_, rfl, fun _ _ _ hg => State.rd_wr_fld hg⟩
  dsimp only
  rw [hnow]

/-! ### The far slot table -/

/-- The table in force is written down before a register of the port changes (R448). -/
def State.keepFarTable (s : State) (port : Nat) : State :=
  { s with msys := { s.msys with farSlots := tset none s.msys.farSlots [port] (some (s.farInForce port)) } }

theorem State.keepFarTable_farSlots (s : State) (port : Nat) :
    (s.keepFarTable port).msys.farSlots = tset none s.msys.farSlots [port] (some (s.farInForce port)) := rfl

theorem State.farInForce_of_kept {s t : State} {port : Nat} (h : t.msys = (s.keepFarTable port).msys) : t.farInForce port = s.farInForce port := by
  rw [State.farInForce, h, State.keepFarTable_farSlots, tget_tset_self]
  rfl

/-- Slot `8 k + j` of a port as byte `j` of its register `k` gives it. -/
def State.setFarSlot (port k v j : Nat) (s : State) : State :=
  (s.wr F.FAR_SLOT_OWNED port (bitsAt v (8 * j + 7) 1) (8 * k + j)).wr F.FAR_SLOT_PADDOCK port (bitsAt v (8 * j) 4) (8 * k + j)

section Slot

variable {port k v j j' : Nat} {s : State}

theorem State.setFarSlot_owned : (s.setFarSlot port k v j).rd F.FAR_SLOT_OWNED port (8 * k + j) = bitsAt v (8 * j + 7) 1 :=
  (State.rd_wr_fld (by decide)).trans (State.rd_wr_self.trans (bitsAt_mod ..))

theorem State.setFarSlot_paddock : (s.setFarSlot port k v j).rd F.FAR_SLOT_PADDOCK port (8 * k + j) = bitsAt v (8 * j) 4 :=
  State.rd_wr_self.trans (bitsAt_mod ..)

theorem State.setFarSlot_other (h : j' ≠ j) (g : Fld) : (s.setFarSlot port k v j').rd g port (8 * k + j) = s.rd g port (8 * k + j) :=
  (State.rd_wr_ne (by simp; omega)).trans (State.rd_wr_ne (by simp; omega))

theorem State.setFarSlots_onlyRegs (n : Nat) : OnlyRegs s (loopN n (State.setFarSlot port k v) s) [F.FAR_SLOT_OWNED, F.FAR_SLOT_PADDOCK] :=
  onlyRegs_loopN onlyRegs_refl fun _ _ hu => onlyRegs_wr (onlyRegs_wr hu (by simp)) (by simp)

/-- All eight slots of register `k`. -/
theorem State.setFarSlots_slot (hj : j < 8) :
    (loopN 8 (State.setFarSlot port k v) s).rd F.FAR_SLOT_OWNED port (8 * k + j) = bitsAt v (8 * j + 7) 1 ∧
      (loopN 8 (State.setFarSlot port k v) s).rd F.FAR_SLOT_PADDOCK port (8 * k + j) = bitsAt v (8 * j) 4 :=
  ⟨State.rd_loopN_round (φ := fun _ => bitsAt v (8 * j + 7) 1) (fun _ => State.setFarSlot_owned) (fun _ hm _ => State.setFarSlot_other hm _) hj,
    State.rd_loopN_round (φ := fun _ => bitsAt v (8 * j) 4) (fun _ => State.setFarSlot_paddock) (fun _ hm _ => State.setFarSlot_other hm _) hj⟩

end Slot

theorem execFarSlotWrite_slots (s : State) (port : Fin 2) (k : Fin 8) (v : Nat) :
    execFarSlotWrite port k.castSucc v s = .next (loopN 8 (State.setFarSlot port.val k.val v) (s.keepFarTable port.val)) :=
  if_neg (Nat.ne_of_lt k.isLt)

/-- A slot register: its eight slots are stored, and the table in force stays (R448). -/
theorem execFarSlotWrite_stores (s : State) (port : Fin 2) (k : Fin 8) (v : Nat) : ∃ t, execFarSlotWrite port k.castSucc v s = .next t ∧
    (∀ j : Fin 8, t.rd F.FAR_SLOT_OWNED port.val (8 * k.val + j.val) = bitsAt v (8 * j.val + 7) 1 ∧
      t.rd F.FAR_SLOT_PADDOCK port.val (8 * k.val + j.val) = bitsAt v (8 * j.val) 4) ∧
    t.farInForce port.val = s.farInForce port.val ∧ t.mem = s.mem ∧
    ∀ (g : Fld) (i j : Nat), g.id ≠ F.FAR_SLOT_OWNED.id → g.id ≠ F.FAR_SLOT_PADDOCK.id → t.rd g i j = s.rd g i j := by
  have honly := State.setFarSlots_onlyRegs (port := port.val) (k := k.val) (v := v) (s := s.keepFarTable port.val) 8
  exact ⟨_, execFarSlotWrite_slots s port k v, fun j => State.setFarSlots_slot j.isLt, State.farInForce_of_kept honly.msys, honly.mem,
    fun g i j howned hpaddock => (honly.2 g i j (by simp [howned, hpaddock])).trans (State.rd_congr rfl g i j)⟩

/-- STRICT: its bit is stored, and the table in force stays (R448). -/
theorem execFarSlotWrite_strict (s : State) (port : Fin 2) (v : Nat) : ∃ t, execFarSlotWrite port 8 v s = .next t ∧
    t.rd F.FAR_PSTATUS_STRICT port.val = v % 2 ∧ t.farInForce port.val = s.farInForce port.val ∧ t.mem = s.mem ∧
    ∀ (g : Fld) (i j : Nat), g.id ≠ F.FAR_PSTATUS_STRICT.id → t.rd g i j = s.rd g i j :=
  ⟨(s.keepFarTable port.val).wr F.FAR_PSTATUS_STRICT port.val v, rfl, State.rd_wr_self, State.farInForce_of_kept rfl, rfl,
    fun _ _ _ hg => State.rd_wr_fld hg⟩

/-- Settles O7: each write stores its register, and what is in force stays written down beside it. -/
theorem scheduledWrites : Obligations.ScheduledWrites := fun s =>
  ⟨fun _ => execCalPeriodMsWrite_schedules s, execFarSlotWrite_stores s, execFarSlotWrite_strict s⟩

end Sys2Proof.Machine
end

section
/-! PROOFS. Line transactions (chapter 13, R387 to R390, R413): their issue while one is free, and what their end does to memory. -/

namespace Sys2Proof.Machine

/-! ### Issue -/

theorem State.emit_out (s : State) (o : Out) : (s.emit o).out = s.out ++ [o] := rfl

/-- A request that issues: it is admitted and in use. -/
def Line.begun (l : Line) : Line := { l with issued := true, admitted := true }

/-- Request `l` of paddock `p` takes a transaction: its charge is spent, TXN counts it, and its source was the last to issue (R390). -/
def State.takeLine (s : State) (p : Nat) (l : Line) : State :=
  let n := s.rd F.HBM_GSTAT_TXN p
  let t := ((s.setAdmitted p ((s.admittedOf p).filter (fun e => e.tag != lineTag l.id))).setLine l.begun).wr F.HBM_GSTAT_TXN p (n + 1)
  let t := t.wr F.HBM_GSTAT_TXN_PEAK p (max (n + 1) (t.rd F.HBM_GSTAT_TXN_PEAK p))
  { t with net := { t.net with lastSrc := tset 0 t.net.lastSrc [p] (l.src + 1) } }

section Take

variable {s : State} {p : Nat} {l : Line}

theorem State.takeLine_mem : (s.takeLine p l).mem = s.mem := rfl
theorem State.takeLine_out : (s.takeLine p l).out = s.out := rfl

theorem State.takeLine_lastSrc : tget 0 (s.takeLine p l).net.lastSrc [p] = l.src + 1 := by
  change tget 0 (tset 0 _ [p] (l.src + 1)) [p] = l.src + 1
  exact tget_tset_self

/-- Twelve bits hold every count of transactions up to the 2,048 of a paddock (R389). -/
theorem State.takeLine_txn (hfree : s.rd F.HBM_GSTAT_TXN p < lineCap) :
    (s.takeLine p l).rd F.HBM_GSTAT_TXN p = s.rd F.HBM_GSTAT_TXN p + 1 := by
  refine (State.rd_wr_fld (by decide)).trans (State.rd_wr_self.trans (Nat.mod_eq_of_lt ?_))
  change _ < 4096
  change _ < 2048 at hfree
  omega

theorem State.takeLine_channelDead (ch : Nat) : (s.takeLine p l).channelDead ch = s.channelDead ch := by
  have hpwr : (s.takeLine p l).rd F.HBM_CH_STAT_PWR ch = s.rd F.HBM_CH_STAT_PWR ch :=
    (State.rd_wr_fld (by decide)).trans (State.rd_wr_fld (by decide))
  rw [State.channelDead, hpwr]
  rfl

end Take

section Issue

variable {s : State} {p : Fin 16} {l : Line}

theorem execLineTransactionIssue_none (hnext : s.nextRequest p.val = none) : execLineTransactionIssue p s = .next s := by
  unfold execLineTransactionIssue
  rw [hnext]

theorem execLineTransactionIssue_full (hnext : s.nextRequest p.val = some l) (hfull : lineCap ≤ s.rd F.HBM_GSTAT_TXN p.val) :
    execLineTransactionIssue p s = .next s := by
  unfold execLineTransactionIssue
  rw [hnext]
  exact if_pos hfull

theorem execLineTransactionIssue_takes (hnext : s.nextRequest p.val = some l) (hfree : s.rd F.HBM_GSTAT_TXN p.val < lineCap) :
    execLineTransactionIssue p s = .next ((s.takeLine p.val l).issueEffect l.begun) := by
  unfold execLineTransactionIssue
  rw [hnext]
  exact if_neg (Nat.not_le.2 hfree)

/-- A host line is sent to the host (R390). -/
theorem execLineTransactionIssue_host (hnext : s.nextRequest p.val = some l) (hfree : s.rd F.HBM_GSTAT_TXN p.val < lineCap)
    (hmsg : l.msg = none) (htag : ptrTag l.ptr = 1) : execLineTransactionIssue p s = .next ((s.takeLine p.val l).emit
      (if l.write = true then .hostWrite (vfOf l.pdk) l.ptr l.data else .hostRead (vfOf l.pdk) l.ptr l.len)) := by
  rw [execLineTransactionIssue_takes hnext hfree]
  simp only [State.issueEffect, Line.begun, hmsg, htag, apply_ite (State.emit _)]

/-- The issue of a line of a live channel does nothing more. -/
theorem execLineTransactionIssue_live (hnext : s.nextRequest p.val = some l) (hfree : s.rd F.HBM_GSTAT_TXN p.val < lineCap)
    (hmsg : l.msg = none) (htag : ptrTag l.ptr = 0) (hlive : s.channelDead (channelOf (dpaOf l.pdk (ptrAddr l.ptr))) = false) :
    execLineTransactionIssue p s = .next (s.takeLine p.val l) := by
  rw [execLineTransactionIssue_takes hnext hfree]
  simp only [State.issueEffect, Line.begun, hmsg, htag, State.takeLine_channelDead, hlive, Bool.false_eq_true, if_false]

end Issue

/-! ### The end of a transaction -/

section Complete

variable {s : State} {p : Fin 16} {idx : Nat} {ret : Fetched} {errs : List SecErr} {l : Line}
  (hl : (s.issuedLines p.val)[idx]? = some l)
include hl

theorem execLineTransactionComplete_stays (hend : l.canEnd = false) : execLineTransactionComplete p idx ret errs s = .next s := by
  unfold execLineTransactionComplete
  rw [hl]
  exact if_pos hend

/-- A transaction that can end does so as its kind asks: a message, a write, a read. -/
theorem execLineTransactionComplete_ends (hend : l.canEnd = true) : execLineTransactionComplete p idx ret errs s =
    .next (if l.msg.isSome then (s.dropLine l).writeDone l
      else if l.write then ((s.lineWrite l).dropLine l).writeDone l
      else ((s.lineRead l ret errs).1.dropLine l).readDone l (s.lineRead l ret errs).2.1 (s.lineRead l ret errs).2.2) := by
  unfold execLineTransactionComplete
  rw [hl]
  dsimp only
  rw [if_neg (by simp [hend])]
  split
  · rfl
  split <;> rfl

theorem execLineTransactionComplete_reads (hend : l.canEnd = true) (hmsg : l.msg = none) (hread : l.write = false) :
    execLineTransactionComplete p idx ret errs s = .next
      (((s.lineRead l ret errs).1.dropLine l).readDone l (s.lineRead l ret errs).2.1 (s.lineRead l ret errs).2.2) := by
  rw [execLineTransactionComplete_ends hl hend]
  simp [hmsg, hread]

end Complete

@[simp] theorem State.dropLine_mem (s : State) (l : Line) : (s.dropLine l).mem = s.mem :=
  (apply_ite State.mem ..).trans (ite_both rfl rfl)

@[simp] theorem State.noteWrite_mem (s : State) (p ptr n : Nat) : (s.noteWrite p ptr n).mem = s.mem := rfl

/-- The acknowledgement of an outbound row ends or fails its operation, and touches no memory (R577). -/
theorem LookupEndFrame.outAck {s₀ s : State} (h : LookupEndFrame s₀ s) (id status : Nat) : LookupEndFrame s₀ (s.outAck id status) := by
  unfold State.outAck
  split
  · exact h
  split
  · extract_lets x t
    have ht : LookupEndFrame s₀ t := (h.abort ..).ite h
    exact ((((ht.dropOp _).ite (ht.completeOp _)).ite ht)).ite ht.beside
  · exact h

theorem State.writeDone_outb_mem {s : State} {l : Line} {id k : Nat} (huse : l.use = .outb id k) : (s.writeDone l).mem = s.mem := by
  rw [State.writeDone, huse]
  exact ((LookupEndFrame.refl s).outAck id l.dead).mem

/-- The end of a sound write to HBM writes its data and nothing else (R388). -/
theorem State.lineWrite_hbm_mem {s : State} {l : Line} (htag : ptrTag l.ptr = 0) (hdead : l.dead = 0) (hpoison : l.poison = false) :
    (s.lineWrite l).mem = (s.hbmWrite l.pdk (ptrAddr l.ptr) l.data).mem := by
  simp [State.lineWrite, htag, hdead, hpoison, State.hbmWrite]

/-- HBM holds the bytes `bs` from `a` on, and elsewhere what it held; no other memory differs. -/
def WritesHbm (s t : State) (a : Nat) (bs : List Byte) : Prop :=
  (∀ k < bs.length, mget t.mem.hbm (a + k) = (bs[k]?).getD 0) ∧
    (∀ x, (x < a ∨ a + bs.length ≤ x) → mget t.mem.hbm x = mget s.mem.hbm x) ∧
    t.mem.far = s.mem.far ∧ t.mem.shelf = s.mem.shelf ∧ t.mem.ws = s.mem.ws

theorem writesHbm_of_mem {s t : State} {p a : Nat} {bs : List Byte} (h : t.mem = (s.hbmWrite p a bs).mem) : WritesHbm s t (dpaOf p a) bs := by
  have hhbm : t.mem.hbm = mwrite s.mem.hbm (dpaOf p a) bs := by rw [h]; rfl
  refine ⟨fun k hk => ?_, fun x hx => ?_, by rw [h]; rfl, by rw [h]; rfl, by rw [h]; rfl⟩
  · rw [hhbm, mget_mwrite, if_pos (by omega), Nat.add_sub_cancel_left]
    rfl
  · rw [hhbm, mget_mwrite, if_neg (by omega)]

theorem execLineTransactionComplete_writes {s : State} {p : Fin 16} {idx id k : Nat} {ret : Fetched} {errs : List SecErr} {l : Line}
    (hl : (s.issuedLines p.val)[idx]? = some l) (hend : l.canEnd = true) (hmsg : l.msg = none) (hwrite : l.write = true)
    (huse : l.use = .outb id k) (hdead : l.dead = 0) (hpoison : l.poison = false) (htag : ptrTag l.ptr = 0) :
    ∃ t, execLineTransactionComplete p idx ret errs s = .next t ∧ WritesHbm s t (dpaOf l.pdk (ptrAddr l.ptr)) l.data := by
  refine ⟨((s.lineWrite l).dropLine l).writeDone l, ?_, writesHbm_of_mem ?_⟩
  · rw [execLineTransactionComplete_ends hl hend]
    simp [hmsg, hwrite]
  · rw [State.writeDone_outb_mem huse, State.dropLine_mem, State.lineWrite_hbm_mem htag hdead hpoison]

/-- Settles O34: a request issues by what its line is, and a transaction ends by what it was for. -/
theorem lineTransactions : Obligations.LineTransactions := by
  refine fun s p => ⟨execLineTransactionIssue_none, fun l hnext hpdk => ⟨execLineTransactionIssue_full hnext, ?_, ?_⟩,
    fun idx ret errs l hl => ⟨execLineTransactionComplete_stays hl, ?_, execLineTransactionComplete_reads hl, ?_⟩⟩
  · intro hfree hmsg htag
    exact ⟨_, execLineTransactionIssue_host hnext hfree hmsg htag, (State.rd_emit ..).trans (State.takeLine_txn hfree),
      (State.emit_mem ..).trans State.takeLine_mem, by rw [State.emit_out, State.takeLine_out, hpdk]⟩
  · exact fun hfree hmsg htag hlive => ⟨_, execLineTransactionIssue_live hnext hfree hmsg htag (hpdk ▸ hlive),
      State.takeLine_txn hfree, State.takeLine_mem, State.takeLine_out, State.takeLine_lastSrc⟩
  · exact fun hend hmsg => (execLineTransactionComplete_ends hl hend).trans
      (congrArg Host.Outcome.next (if_pos (Option.isSome_iff_ne_none.2 hmsg)))
  · exact fun id k hend hmsg hwrite huse hdead hpoison htag =>
      execLineTransactionComplete_writes hl hend hmsg hwrite huse hdead hpoison htag

end Sys2Proof.Machine
end

section
/-! PROOFS. The channels of HBM (chapter 13, R394 to R397, R407): parity errors, calibration windows, temperatures. -/

namespace Sys2Proof.Machine

/-! ### Parity errors -/

/-- The record of the first error of a group (R395, R400). -/
def hbmErrFlds : List Fld :=
  [F.HBM_ERR0_VALID, F.HBM_ERR0_KIND, F.HBM_ERR0_CHANNEL, F.HBM_ERR0_SOURCE, F.HBM_ERR0_CORE, F.HBM_ERR1_DPA, F.HBM_ERR2_TIME]

theorem State.hbmErr_onlyRegs (s : State) (g kind src dpa : Nat) : OnlyRegs s (s.hbmErr g kind src dpa) hbmErrFlds := by
  unfold State.hbmErr
  extract_lets a b c
  have ha : OnlyRegs s a hbmErrFlds := onlyRegs_wr (onlyRegs_wr onlyRegs_refl (by decide)) (by decide)
  have hb : OnlyRegs s b hbmErrFlds := onlyRegs_wr (onlyRegs_wr ha (by decide)) (by decide)
  have hc : OnlyRegs s c hbmErrFlds := onlyRegs_wr hb (by decide)
  exact onlyRegs_ite onlyRegs_refl (onlyRegs_wr (onlyRegs_wr hc (by decide)) (by decide))

/-- The registers that the failure of a channel can change: the retired groups, the state of the paddock, the event queues (R661). -/
def retireFlds : List Fld := eventFlds ++ [F.HIF_SPARES_RETIRED, F.PDK_STATE_STATE]

section Failure

variable {s : State} {g : Fld} {i j : Nat}

theorem State.eventBoth_rd {p code status detail : Nat} (hg : ∀ f ∈ eventFlds, g.id ≠ f.id) :
    (s.eventBoth p code status detail).rd g i j = s.rd g i j :=
  (State.event_rd hg).trans (State.event_rd hg)

@[simp] theorem State.channelFailed_mem (s : State) (ch : Nat) : (s.channelFailed ch).mem = s.mem := by
  simp [State.channelFailed, apply_ite State.mem]

theorem State.channelFailed_rd {ch : Nat} (hg : ∀ f ∈ retireFlds, g.id ≠ f.id) : (s.channelFailed ch).rd g i j = s.rd g i j := by
  have hevent : ∀ f ∈ eventFlds, g.id ≠ f.id := fun f hf => hg f (List.mem_append_left _ hf)
  unfold State.channelFailed
  extract_lets grp a b d
  have hb : b.rd g i j = s.rd g i j := (State.deviceError_rd hevent).trans (State.rd_wr_fld (hg _ (by simp [retireFlds])))
  have hoff : (b.wr F.PDK_STATE_STATE grp pdkOffline).rd g i j = b.rd g i j := State.rd_wr_fld (hg _ (by simp [retireFlds]))
  clear_value b
  split
  · rfl
  split
  · exact (State.event_rd hevent).trans ((State.event_rd hevent).trans (hoff.trans hb))
  split
  · exact (State.event_rd hevent).trans hb
  · exact (State.eventBoth_rd hevent).trans hb

/-- The failures of the last second are no register. -/
theorem State.setRel_rd (s : State) (r : Rel) (g : Fld) (i j : Nat) : ({ s with rel := r } : State).rd g i j = s.rd g i j := rfl

@[simp] theorem State.countFailure_mem (s : State) (ch : Nat) : (s.countFailure ch).mem = s.mem := by
  simp [State.countFailure, apply_ite State.mem]

theorem State.countFailure_rd {ch : Nat} (hg : ∀ f ∈ retireFlds, g.id ≠ f.id) : (s.countFailure ch).rd g i j = s.rd g i j := by
  unfold State.countFailure
  extract_lets l _ a
  have ha : a.rd g i j = s.rd g i j := State.setRel_rd ..
  clear_value a l
  exact (apply_ite (fun x : State => x.rd g i j) ..).trans (ite_both ((State.channelFailed_rd hg).trans ha) ha)

end Failure

theorem State.abort_mem (s : State) (p cause : Nat) : (s.abort p cause).mem = s.mem := ((TileFrame.refl s).abort p cause).mem

section Parity

variable {s : State} {p : Fin 16} {idx : Nat} {wd : Bool} {l : Line}
  (hl : (s.issuedLines p.val)[idx]? = some l) (htag : ptrTag l.ptr = 0) (hmsg : l.msg = none) (hdead : l.dead = 0)
  (hwd : wd = true → l.write = true)
include hl htag hmsg hdead hwd

/-- An error of a line that has been tried less than four times counts a retry of it (R394). -/
theorem execHbmParityReplay_retries (htries : l.tries < 4) : ∃ t, execHbmParityReplay p idx wd s = .next t ∧ t.mem = s.mem ∧
    t.sched = s.sched ∧ t.net = (s.setLine { l with tries := l.tries + 1 }).net ∧
    t.rd F.HBM_PAR_RETRY_COUNT p.val = min (s.rd F.HBM_PAR_RETRY_COUNT p.val + 1) maxCount := by
  have hgoes : ¬ (ptrTag l.ptr ≠ 0 ∨ l.msg.isSome ∨ l.dead ≠ 0 ∨ (wd = true ∧ l.write = false)) := by
    simpa [htag, hmsg, hdead] using hwd
  unfold execHbmParityReplay
  rw [hl]
  dsimp only
  rw [if_neg hgoes, if_pos htries]
  refine ⟨_, rfl, ?_, ?_, ?_, ?_⟩
  · rw [State.deviceError_mem, State.bump_mem, State.bump_mem]
    rfl
  · rw [State.deviceError_sched, State.bump_sched, State.bump_sched]
    rfl
  · rw [State.deviceError_net, State.bump_net, State.bump_net]
  · rw [State.deviceError_rd (by decide), State.rd_bump_fld (by decide) (by decide), State.rd_bump_self rfl (by decide)]
    rfl

/-- An error of a line that has been tried four times counts a failure (R395). -/
theorem execHbmParityReplay_fails (htries : 4 ≤ l.tries) : ∃ t, execHbmParityReplay p idx wd s = .next t ∧ t.mem = s.mem ∧
    t.rd F.HBM_PAR_FAIL_COUNT p.val = min (s.rd F.HBM_PAR_FAIL_COUNT p.val + 1) maxCount := by
  have hgoes : ¬ (ptrTag l.ptr ≠ 0 ∨ l.msg.isSome ∨ l.dead ≠ 0 ∨ (wd = true ∧ l.write = false)) := by
    simpa [htag, hmsg, hdead] using hwd
  unfold execHbmParityReplay
  rw [hl]
  dsimp -zeta only
  rw [if_neg hgoes]
  extract_lets dpa ch _ a b c d
  rw [if_neg (Nat.not_lt.2 htries)]
  have hb : OnlyRegs (a.bump F.HBM_CH_FAIL_COUNT ch) b hbmErrFlds := State.hbmErr_onlyRegs ..
  have hcount : d.rd F.HBM_PAR_FAIL_COUNT p.val = min (s.rd F.HBM_PAR_FAIL_COUNT p.val + 1) maxCount := by
    rw [State.countFailure_rd (by decide), State.deviceError_rd (by decide), State.eventBoth_rd (by decide), hb.2 _ _ _ (by decide),
      State.rd_bump_fld (by decide) (by decide), State.rd_bump_self rfl (by decide)]
    rfl
  have hmem : d.mem = s.mem := by
    rw [State.countFailure_mem, State.deviceError_mem, State.eventBoth_mem, hb.mem, State.bump_mem, State.bump_mem]
    rfl
  clear_value d
  refine ⟨_, rfl, ?_, ?_⟩
  · exact (apply_ite State.mem ..).trans (ite_both ((State.abort_mem ..).trans hmem) hmem)
  · exact (apply_ite (fun u : State => u.rd F.HBM_PAR_FAIL_COUNT p.val) ..).trans (ite_both ((State.abort_rd ..).trans hcount) hcount)

end Parity

/-! ### Calibration and temperature -/

/-- A powered channel at its place in the period notes the time (R396). -/
theorem execCalibrationWindow_opens {s : State} {ch : Fin 256} (hpwr : s.rd F.HBM_CH_STAT_PWR ch.val ≠ 2)
    (hat : s.now % s.calNs = ch.val * s.calNs / 256) :
    ∃ t, execCalibrationWindow ch s = .next t ∧ Sets s t F.HBM_CH_CAL_LAST ch.val 0 (s.now % 2 ^ 64) :=
  ⟨_, if_pos ⟨hpwr, hat⟩, sets_wr rfl⟩

theorem execCalibrationWindow_closed {s : State} {ch : Fin 256} (hat : s.now % s.calNs ≠ ch.val * s.calNs / 256) :
    execCalibrationWindow ch s = .next s :=
  if_neg fun h => hat h.2

/-- Stack `k` takes its temperature: the last one, the highest one, and whether its channels refresh twice as often (R397). -/
def State.takeTemp (temps : List Nat) (k : Nat) (s : State) : State :=
  let t := nth temps k % 256
  let u := (s.wr F.HBM_TEMP_TEMP 0 t k).wr F.HBM_TEMP_MAX_TEMP 0 (max t (s.rd F.HBM_TEMP_MAX_TEMP 0 k)) k
  loopN 32 (fun c u => u.wr F.HBM_CH_STAT_REFRESH_X2 (32 * k + c) (b2n (decide (85 < t)))) u

section Temperature

variable {temps : List Nat} {k m c : Nat} {s : State}

theorem State.setRefresh_rd {b n v : Nat} {u : State} {g : Fld} {i j : Nat} (hg : g.id ≠ F.HBM_CH_STAT_REFRESH_X2.id) :
    (loopN n (fun c u => u.wr F.HBM_CH_STAT_REFRESH_X2 (b + c) v) u).rd g i j = u.rd g i j :=
  State.rd_loopN_keep fun _ _ _ => State.rd_wr_fld hg

theorem State.takeTemp_temp : (s.takeTemp temps k).rd F.HBM_TEMP_TEMP 0 k = nth temps k % 256 :=
  (State.setRefresh_rd (by decide)).trans ((State.rd_wr_fld (by decide)).trans (State.rd_wr_self.trans (Nat.mod_mod ..)))

theorem State.takeTemp_maxTemp :
    (s.takeTemp temps k).rd F.HBM_TEMP_MAX_TEMP 0 k = max (nth temps k % 256) (s.rd F.HBM_TEMP_MAX_TEMP 0 k) % 256 :=
  (State.setRefresh_rd (by decide)).trans State.rd_wr_self

theorem State.takeTemp_refresh (hc : c < 32) :
    (s.takeTemp temps k).rd F.HBM_CH_STAT_REFRESH_X2 (32 * k + c) = if 85 < nth temps k % 256 then 1 else 0 := by
  refine (State.rd_loopN_wr hc).trans ?_
  by_cases hhot : 85 < nth temps k % 256 <;> simp [hhot, b2n, F.HBM_CH_STAT_REFRESH_X2]

/-- The temperatures of the other stacks stay. -/
theorem State.takeTemp_other (hm : m ≠ k) {g : Fld} (hg : g.id ≠ F.HBM_CH_STAT_REFRESH_X2.id) :
    (s.takeTemp temps m).rd g 0 k = s.rd g 0 k := by
  refine (State.setRefresh_rd hg).trans ((State.rd_wr_ne ?_).trans (State.rd_wr_ne ?_)) <;> simp [hm.symm]

/-- The refresh of the other stacks' channels stays. -/
theorem State.takeTemp_otherRefresh (hm : m ≠ k) (hc : c < 32) :
    (s.takeTemp temps m).rd F.HBM_CH_STAT_REFRESH_X2 (32 * k + c) = s.rd F.HBM_CH_STAT_REFRESH_X2 (32 * k + c) := by
  refine (State.rd_loopN_keep fun d hd u => State.rd_wr_inst (by omega)).trans ?_
  exact (State.rd_wr_fld (by decide)).trans (State.rd_wr_fld (by decide))

end Temperature

theorem takeTemps_onlyRegs (temps : List Nat) (s : State) (n : Nat) :
    OnlyRegs s (loopN n (State.takeTemp temps) s) [F.HBM_TEMP_TEMP, F.HBM_TEMP_MAX_TEMP, F.HBM_CH_STAT_REFRESH_X2] :=
  onlyRegs_loopN onlyRegs_refl fun _ _ hu =>
    onlyRegs_loopN (onlyRegs_wr (onlyRegs_wr hu (by simp)) (by simp)) fun _ _ hv => onlyRegs_wr hv (by simp)

theorem takeTemps_stack (temps : List Nat) (s : State) {n k : Nat} (hk : k < n) :
    (loopN n (State.takeTemp temps) s).rd F.HBM_TEMP_TEMP 0 k = nth temps k % 256 ∧
      (loopN n (State.takeTemp temps) s).rd F.HBM_TEMP_MAX_TEMP 0 k = max (nth temps k % 256) (s.rd F.HBM_TEMP_MAX_TEMP 0 k) % 256 ∧
      ∀ c < 32, (loopN n (State.takeTemp temps) s).rd F.HBM_CH_STAT_REFRESH_X2 (32 * k + c) = if 85 < nth temps k % 256 then 1 else 0 :=
  ⟨State.rd_loopN_round (φ := fun _ => nth temps k % 256) (fun _ => State.takeTemp_temp)
      (fun _ hm _ => State.takeTemp_other hm (by decide)) hk,
    State.rd_loopN_round (φ := fun v => max (nth temps k % 256) v % 256) (fun _ => State.takeTemp_maxTemp)
      (fun _ hm _ => State.takeTemp_other hm (by decide)) hk,
    fun _ hc => State.rd_loopN_round (φ := fun _ => if 85 < nth temps k % 256 then 1 else 0) (fun _ => State.takeTemp_refresh hc)
      (fun _ hm _ => State.takeTemp_otherRefresh hm hc) hk⟩

theorem execHbmTemperatureRead_takes (temps : List Nat) (s : State) :
    execHbmTemperatureRead temps s = .next (loopN 8 (State.takeTemp temps) s) := rfl

/-- Settles O35: each error, window and reading by what it counts or notes. -/
theorem hbmChannels : Obligations.HbmChannels := by
  refine fun s => ⟨fun p idx wd l hl htag hmsg hdead hwd => ⟨execHbmParityReplay_retries hl htag hmsg hdead hwd,
    execHbmParityReplay_fails hl htag hmsg hdead hwd⟩, fun ch => ⟨execCalibrationWindow_opens, execCalibrationWindow_closed, rfl⟩, fun temps => ?_⟩
  have honly := takeTemps_onlyRegs temps s 8
  exact ⟨_, execHbmTemperatureRead_takes temps s, honly.mem, honly.out, fun k hk => takeTemps_stack temps s hk⟩

end Sys2Proof.Machine
end

section
/-! PROOFS. Channels are powered down and up, and margins measured (chapter 13, R398 to R406). -/

namespace Sys2Proof.Machine

/-! ### HBM_POWER -/

section Power

variable {s : State} {h : Hdr} {group state mask : Nat}

/-- With nothing in its way the command starts; it completes at once when no channel has to change (R399, R401). -/
theorem execHbmPower_goes (hbusy : s.orderBusy h = false)
    (htest : (List.range 16).any (fun c => hasBit mask c && s.underTest 2 (16 * group + c)) = false)
    (hgo : s.goes h opHbmPower (firstStatus [failIf (decide (15 < group) || mask == 0 || decide (65535 < mask) || !(state == 0 || state == 2)) 0x280,
      failIf (state == 2 && s.tenantUse group) 0x390])) {cs : List Nat} (hcs : cs = s.channelsIn group mask (if state = 2 then 0 else 2)) :
    execHbmPower h group state mask s =
      let t := s.start h opHbmPower (some (.hbmPower h group state mask)) [s.now, cs.foldl (fun m c => m + 2 ^ c) 0, b2n (state == 0), group]
      .next (if cs = [] then t.complete h 0 else t.setChannels group cs (if state = 2 then 1 else 3)) := by
  subst hcs
  unfold execHbmPower
  rw [if_neg (by simp [hbusy, htest]), State.checked_goes hgo]

/-- While another order of executor P executes it waits (R493). -/
theorem execHbmPower_waits (hcall : s.callStatus h opHbmPower = 0) (hbusy : s.orderBusy h = true) :
    execHbmPower h group state mask s = .next s :=
  if_pos ⟨hcall, .inl hbusy⟩

end Power

/-! ### The end of a power change -/

section Powering

variable {s : State} {h : Hdr} {g : List Nat}

theorem execHbmPowerDownDrained_busy (hprog : s.powerProg h false = some g) (hwrites : s.writesTo (nth g 3) (nth g 1) = true) :
    execHbmPowerDownDrained h s = .next s := by
  unfold execHbmPowerDownDrained
  rw [hprog]
  exact if_pos hwrites

theorem execHbmPowerDownDrained_drained (hprog : s.powerProg h false = some g) (hwrites : s.writesTo (nth g 3) (nth g 1) = false) :
    execHbmPowerDownDrained h s = .next ((s.setChannels (nth g 3) (s.channelsIn (nth g 3) (nth g 1) 1) 2).powerDone h 0) := by
  unfold execHbmPowerDownDrained
  rw [hprog]
  exact if_neg (Bool.eq_false_iff.1 hwrites)

theorem execHbmPowerDownTimeout_early (hprog : s.powerProg h false = some g) (hearly : s.now < nth g 0 + 100000) :
    execHbmPowerDownTimeout h s = .next s := by
  unfold execHbmPowerDownTimeout
  rw [hprog]
  exact if_pos hearly

theorem execHbmPowerDownTimeout_late (hprog : s.powerProg h false = some g) (hlate : nth g 0 + 100000 ≤ s.now) :
    execHbmPowerDownTimeout h s =
      .next ((s.setChannels (nth g 3) (s.channelsIn (nth g 3) (nth g 1) 1) 0).complete h 0x313) := by
  unfold execHbmPowerDownTimeout
  rw [hprog]
  exact if_neg (Nat.not_lt.2 hlate)

/-- Channels that are trained and in use again, before their group is zeroised (R401). -/
def State.trainChannels (s : State) (group : Nat) (cs : List Nat) : State :=
  (cs.foldl (fun s c => s.wr F.HBM_CH_STAT_TRAINED (16 * group + c) 1) s).setChannels group cs 0

theorem State.trainChannels_onlyRegs (s : State) (group : Nat) (cs : List Nat) : OnlyRegs s (s.trainChannels group cs)
    [F.HBM_CH_STAT_TRAINED, F.HBM_CH_STAT_PWR, F.HBM_GSTAT_PWR, F.HBM_GSTAT_DORMANT] :=
  onlyRegs_setChannels (onlyRegs_foldl onlyRegs_refl fun _ _ hu => onlyRegs_wr hu (by simp)) (by simp) group cs 0

theorem execHbmPowerUpDone_trains (hprog : s.powerProg h true = some g) : execHbmPowerUpDone h s = .next
    (((s.trainChannels (nth g 3) (s.channelsIn (nth g 3) (nth g 1) 3)).zeroHbm (nth g 3 * groupBytes) groupBytes).powerDone h 0) := by
  unfold execHbmPowerUpDone
  rw [hprog]
  rfl

theorem State.powerDone_mem (s : State) (h : Hdr) (status : Nat) : (s.powerDone h status).mem = s.mem := State.complete_mem ..

/-- The group reads as nothing written, and every other byte as before (R401, R425). -/
theorem execHbmPowerUpDone_zeroes (hprog : s.powerProg h true = some g) : ∃ t, execHbmPowerUpDone h s = .next t ∧
    (∀ a, nth g 3 * groupBytes ≤ a → a < nth g 3 * groupBytes + groupBytes → mget t.mem.hbm a = memDefault) ∧
    (∀ a, (a < nth g 3 * groupBytes ∨ nth g 3 * groupBytes + groupBytes ≤ a) → mget t.mem.hbm a = mget s.mem.hbm a) ∧
    t.mem.far = s.mem.far ∧ t.mem.shelf = s.mem.shelf := by
  refine ⟨_, execHbmPowerUpDone_trains hprog, ?_⟩
  rw [State.powerDone_mem]
  have hmem := (s.trainChannels_onlyRegs (nth g 3) (s.channelsIn (nth g 3) (nth g 1) 3)).mem
  generalize s.trainChannels (nth g 3) (s.channelsIn (nth g 3) (nth g 1) 3) = u at hmem ⊢
  refine ⟨fun a hlo hhi => ?_, fun a hout => ?_, by rw [← hmem]; rfl, by rw [← hmem]; rfl⟩
  · exact mget_mzero.trans (if_pos ⟨hlo, hhi⟩)
  · rw [← hmem]
    exact mget_mzero.trans (if_neg (by omega))

end Powering

/-! ### Margining -/

theorem leBytes_length (v : Nat) : ∀ n, (leBytes v n).length = n
  | 0 => rfl
  | n + 1 => congrArg (· + 1) (leBytes_length (v / 256) n)

theorem execHbmMargin_begins {s : State} {h : Hdr} {ch kind pattern lo hi dwell out : Nat}
    (hgo : s.goes h opHbmMargin (firstStatus [failIf (decide (255 < ch) || decide (4 < kind) || decide (2 < pattern) ||
        decide (signedAt hi 16 < signedAt lo 16) || decide (signedAt lo 16 < -(marginRange kind : Int)) ||
        decide ((marginRange kind : Int) < signedAt hi 16) || dwell == 0 || decide (65536 < dwell) || out % 16 != 0) 0x280,
      failIf (ptrTag out != 1) 0x401, failIf (s.tenantUse (ch / 16)) 0x390, failIf (s.rd F.HBM_CH_STAT_PWR ch != 0) 0x312,
      s.ptrStatus h.fn.val 0 out (16 * (signedAt hi 16 - signedAt lo 16 + 1).toNat) true]))
    (hpages : s.untranslated h [⟨out, 16 * (signedAt hi 16 - signedAt lo 16 + 1).toNat, true⟩] ∨
      s.translated h [⟨out, 16 * (signedAt hi 16 - signedAt lo 16 + 1).toNat, true⟩]) :
    execHbmMargin h ch kind pattern lo hi dwell out s = .next (s.begun h opHbmMargin (.hbmMargin h ch kind pattern lo hi dwell out)
      [⟨out, 16 * (signedAt hi 16 - signedAt lo 16 + 1).toNat, true⟩]) := by
  unfold execHbmMargin
  exact congrArg Host.Outcome.next ((State.checked_goes hgo).trans (State.gate_begun hpages))

/-- The completion writes a record of 16 bytes for each offset measured (R403). -/
theorem execHbmMarginComplete_records {s : State} {h h' : Hdr} {ch kind pattern lo hi dwell out : Nat} {points : List (Nat × Bool)}
    (hcmd : s.runningCmd h = some (.hbmMargin h' ch kind pattern lo hi dwell out)) :
    ∃ (u : State) (bs : List Byte) (r : Nat), execHbmMarginComplete h points s = .next (u.complete h 0 r) ∧
      u = s.ptrWrite h.fn.val 0 out bs ∧ bs.length = 16 * (signedAt hi 16 - signedAt lo 16 + 1).toNat := by
  unfold execHbmMarginComplete
  rw [hcmd]
  refine ⟨_, _, _, rfl, rfl, ?_⟩
  simp [leBytes_length, mul_comm]

/-- Settles O36: a power command by the channels that it changes, a measurement by its start and its records. -/
theorem hbmPowerAndMargin : Obligations.HbmPowerAndMargin := by
  refine fun s h => ⟨fun group state mask hbusy htest hgo cs hcs => ?_, fun _ _ _ => execHbmPower_waits, fun g hprog =>
    ⟨execHbmPowerDownDrained_drained hprog, execHbmPowerDownDrained_busy hprog, execHbmPowerDownTimeout_late hprog,
      execHbmPowerDownTimeout_early hprog⟩, fun _ => execHbmPowerUpDone_zeroes, fun _ _ _ _ _ _ _ => execHbmMargin_begins,
    fun _ _ _ _ _ _ _ _ _ => execHbmMarginComplete_records⟩
  have hrun := execHbmPower_goes hbusy htest hgo hcs
  refine ⟨fun hnone => ?_, fun hsome => hrun.trans (congrArg Host.Outcome.next (if_neg hsome))⟩
  subst hnone
  exact hrun

end Sys2Proof.Machine
end

section
/-! PROOFS. Every step of the block: the command at the front of its queue, or a core clock; no command undoes what was sent, the
queue, or the canonical form of memories and registers (chapters 02, 13, 17 and 21). -/

-- Proofs side by side each take a thread with its stack: together they pass the bound on memory.
set_option Elab.async false

namespace Sys2Proof.Machine

/-- Each command answers a next state and keeps what `Keeps` says, by the lemma of its meaning. -/
theorem exec_keepsOut (s : State) : ∀ i : Instr, KeepsOut s (exec i s)
  | .paddockAssign .. => execPaddockAssign_keeps (Keeps.refl s) ..
  | .paddockConfig .. => execPaddockConfig_keeps (Keeps.refl s) ..
  | .paddockRelease .. => execPaddockRelease_keeps (Keeps.refl s) ..
  | .scheduleLoad .. => execScheduleLoad_keeps (Keeps.refl s) ..
  | .scheduleRun .. => execScheduleRun_keeps (Keeps.refl s) ..
  | .scheduleUnload .. => execScheduleUnload_keeps (Keeps.refl s) ..
  | .rotaryTableLoad .. => execRotaryTableLoad_keeps (Keeps.refl s) ..
  | .ctxCreate .. => execCtxCreate_keeps (Keeps.refl s) ..
  | .ctxDestroy .. => execCtxDestroy_keeps (Keeps.refl s) ..
  | .ctxSet .. => execCtxSet_keeps (Keeps.refl s) ..
  | .ctxRead .. => execCtxRead_keeps (Keeps.refl s) ..
  | .ctxPlace .. => execCtxPlace_keeps (Keeps.refl s) ..
  | .ctxPlaceDrained .. => execCtxPlaceDrained_keeps (Keeps.refl s) ..
  | .kvPoolAdd .. => execKvPoolAdd_keeps (Keeps.refl s) ..
  | .kvPoolRemove .. => execKvPoolRemove_keeps (Keeps.refl s) ..
  | .kvMap .. => execKvMap_keeps (Keeps.refl s) ..
  | .kvUnmap .. => execKvUnmap_keeps (Keeps.refl s) ..
  | .kvDemote .. => execKvDemote_keeps (Keeps.refl s) ..
  | .kvPromote .. => execKvPromote_keeps (Keeps.refl s) ..
  | .kvDrop .. => execKvDrop_keeps (Keeps.refl s) ..
  | .kvScatter .. => execKvScatter_keeps (Keeps.refl s) ..
  | .decodeStep .. => execDecodeStep_keeps (Keeps.refl s) ..
  | .tableDefine .. => execTableDefine_keeps (Keeps.refl s) ..
  | .tableRetire .. => execTableRetire_keeps (Keeps.refl s) ..
  | .tableRead .. => execTableRead_keeps (Keeps.refl s) ..
  | .hbmPower .. => execHbmPower_keeps (Keeps.refl s) ..
  | .hbmPowerDownDrained .. => execHbmPowerDownDrained_keeps (Keeps.refl s) ..
  | .hbmPowerDownTimeout .. => execHbmPowerDownTimeout_keeps (Keeps.refl s) ..
  | .hbmMargin .. => execHbmMargin_keeps (Keeps.refl s) ..
  | .keyRotate .. => execKeyRotate_keeps (Keeps.refl s) ..
  | .memRawWrite .. => execMemRawWrite_keeps (Keeps.refl s) ..
  | .memRawRead .. => execMemRawRead_keeps (Keeps.refl s) ..
  | .hostWindowSet .. => execHostWindowSet_keeps (Keeps.refl s) ..
  | .nopCommand .. => execNopCommand_keeps (Keeps.refl s) ..
  | .quiesce .. => execQuiesce_keeps (Keeps.refl s) ..
  | .quiesceComplete .. => execQuiesceComplete_keeps (Keeps.refl s) ..
  | .quiesceTimeout .. => execQuiesceTimeout_keeps (Keeps.refl s) ..
  | .abort .. => execAbort_keeps (Keeps.refl s) ..
  | .abortComplete .. => execAbortComplete_keeps (Keeps.refl s) ..
  | .copy .. => execCopy_keeps (Keeps.refl s) ..
  | .fill .. => execFill_keeps (Keeps.refl s) ..
  | .copyFillComplete .. => execCopyFillComplete_keeps (Keeps.refl s) ..
  | .tdmWrite .. => execTdmWrite_keeps (Keeps.refl s) ..
  | .portUp .. => execPortUp_keeps (Keeps.refl s) ..
  | .portDownCommand .. => execPortDownCommand_keeps (Keeps.refl s) ..
  | .portIdle .. => execPortIdle_keeps (Keeps.refl s) ..
  | .portRekey .. => execPortRekey_keeps (Keeps.refl s) ..
  | .portTime .. => execPortTime_keeps (Keeps.refl s) ..
  | .portRetireLane .. => execPortRetireLane_keeps (Keeps.refl s) ..
  | .portEncrypt .. => execPortEncrypt_keeps (Keeps.refl s) ..
  | .portWake .. => execPortWake_keeps (Keeps.refl s) ..
  | .linkMargin .. => execLinkMargin_keeps (Keeps.refl s) ..
  | .routeWrite .. => execRouteWrite_keeps (Keeps.refl s) ..
  | .rankWrite .. => execRankWrite_keeps (Keeps.refl s) ..
  | .rankWriteDrainDone .. => execRankWriteDrainDone_keeps (Keeps.refl s) ..
  | .mirrorSet .. => execMirrorSet_keeps (Keeps.refl s) ..
  | .pageServerSet .. => execPageServerSet_keeps (Keeps.refl s) ..
  | .fwStage .. => execFwStage_keeps (Keeps.refl s) ..
  | .fwActivate .. => execFwActivate_keeps (Keeps.refl s) ..
  | .debugChallenge .. => execDebugChallenge_keeps (Keeps.refl s) ..
  | .debugResponse .. => execDebugResponse_keeps (Keeps.refl s) ..
  | .counterRead .. => execCounterRead_keeps (Keeps.refl s) ..
  | .haltDump .. => execHaltDump_keeps (Keeps.refl s) ..
  | .dumpConfig .. => execDumpConfig_keeps (Keeps.refl s) ..
  | .selfTest .. => execSelfTest_keeps (Keeps.refl s) ..
  | .selfTestComplete .. => execSelfTestComplete_keeps (Keeps.refl s) ..
  | .hbmPowerUpDone .. => execHbmPowerUpDone_keeps (Keeps.refl s) ..
  | .hbmMarginComplete .. => execHbmMarginComplete_keeps (Keeps.refl s) ..
  | .linkMarginComplete .. => execLinkMarginComplete_keeps (Keeps.refl s) ..
  | .fwStageComplete .. => execFwStageComplete_keeps (Keeps.refl s) ..
  | .fwActivateRestartDone .. => execFwActivateRestartDone_keeps (Keeps.refl s) ..
  | .registerWrite .. => execRegisterWrite_keeps (Keeps.refl s) ..
  | .wrongWidthAccess .. => execWrongWidthAccess_keeps (Keeps.refl s) ..
  | .reservedOffsetAccess .. => execReservedOffsetAccess_keeps (Keeps.refl s) ..
  | .modulePowerOn .. => execModulePowerOn_keeps (Keeps.refl s) ..
  | .powerOnStageEnd .. => execPowerOnStageEnd_keeps (Keeps.refl s) ..
  | .perstNAssert .. => execPerstNAssert_keeps (Keeps.refl s) ..
  | .perstNDeassert .. => execPerstNDeassert_keeps (Keeps.refl s) ..
  | .pfFlr .. => execPfFlr_keeps (Keeps.refl s) ..
  | .vfFlr .. => execVfFlr_keeps (Keeps.refl s) ..
  | .resetComplete .. => execResetComplete_keeps (Keeps.refl s) ..
  | .pwrgdDeassert .. => execPwrgdDeassert_keeps (Keeps.refl s) ..
  | .inputUndervoltage .. => execInputUndervoltage_keeps (Keeps.refl s) ..
  | .inputFault .. => execInputFault_keeps (Keeps.refl s) ..
  | .killNAssert .. => execKillNAssert_keeps (Keeps.refl s) ..
  | .handoverDrainDone .. => execHandoverDrainDone_keeps (Keeps.refl s) ..
  | .handoverZeroiseDone .. => execHandoverZeroiseDone_keeps (Keeps.refl s) ..
  | .handoverLateClear .. => execHandoverLateClear_keeps (Keeps.refl s) ..
  | .arrivalWriteCommit .. => execArrivalWriteCommit_keeps (Keeps.refl s) ..
  | .arrivalWriteForced .. => execArrivalWriteForced_keeps (Keeps.refl s) ..
  | .patrolRead .. => execPatrolRead_keeps (Keeps.refl s) ..
  | .patrolForced .. => execPatrolForced_keeps (Keeps.refl s) ..
  | .patrolWriteBack .. => execPatrolWriteBack_keeps (Keeps.refl s) ..
  | .shelfPowerDownDrained .. => execShelfPowerDownDrained_keeps (Keeps.refl s) ..
  | .shelfPowerDownTimeout .. => execShelfPowerDownTimeout_keeps (Keeps.refl s) ..
  | .ceLimitWrite .. => execCeLimitWrite_keeps (Keeps.refl s) ..
  | .nop .. => execNop_keeps (Keeps.refl s) ..
  | .endSection .. => execEndSection_keeps (Keeps.refl s) ..
  | .loopOpen .. => execLoopOpen_keeps (Keeps.refl s) ..
  | .loopClose .. => execLoopClose_keeps (Keeps.refl s) ..
  | .waitCell .. => execWaitCell_keeps (Keeps.refl s) ..
  | .slipEnd .. => execSlipEnd_keeps (Keeps.refl s) ..
  | .waitTimeout .. => execWaitTimeout_keeps (Keeps.refl s) ..
  | .slipTimeout .. => execSlipTimeout_keeps (Keeps.refl s) ..
  | .headStart .. => execHeadStart_keeps (Keeps.refl s) ..
  | .tailStart .. => execTailStart_keeps (Keeps.refl s) ..
  | .streamRetire .. => execStreamRetire_keeps (Keeps.refl s) ..
  | .runComplete .. => execRunComplete_keeps (Keeps.refl s) ..
  | .abortDrainDone .. => execAbortDrainDone_keeps (Keeps.refl s) ..
  | .waitDefaultUsWrite .. => execWaitDefaultUsWrite_keeps (Keeps.refl s) ..
  | .schCslip0ValidClear .. => execSchCslip0ValidClear_keeps (Keeps.refl s) ..
  | .untimedEventAdmit .. => execUntimedEventAdmit_keeps (Keeps.refl s) ..
  | .droopTrip .. => execDroopTrip_keeps (Keeps.refl s) ..
  | .droopStretchEnd .. => execDroopStretchEnd_keeps (Keeps.refl s) ..
  | .budRec0ValidClear .. => execBudRec0ValidClear_keeps (Keeps.refl s) ..
  | .budDcfgWrite .. => execBudDcfgWrite_keeps (Keeps.refl s) ..
  | .signal .. => execSignal_keeps (Keeps.refl s) ..
  | .stileArrive .. => execStileArrive_keeps (Keeps.refl s) ..
  | .stileWait .. => execStileWait_keeps (Keeps.refl s) ..
  | .matrixTile .. => execMatrixTile_keeps (Keeps.refl s) ..
  | .tileClaim .. => execTileClaim_keeps (Keeps.refl s) ..
  | .kvAppendHandoff .. => execKvAppendHandoff_keeps (Keeps.refl s) ..
  | .chkTWrite .. => execChkTWrite_keeps (Keeps.refl s) ..
  | .elem .. => execElem_keeps (Keeps.refl s) ..
  | .wsMode .. => execWsMode_keeps (Keeps.refl s) ..
  | .elemRowWrite .. => execElemRowWrite_keeps (Keeps.refl s) ..
  | .elemOneRowWrite .. => execElemOneRowWrite_keeps (Keeps.refl s) ..
  | .attnPass .. => execAttnPass_keeps (Keeps.refl s) ..
  | .attnBlockFetch .. => execAttnBlockFetch_keeps (Keeps.refl s) ..
  | .attnQueryPrepare .. => execAttnQueryPrepare_keeps (Keeps.refl s) ..
  | .attnQkTile .. => execAttnQkTile_keeps (Keeps.refl s) ..
  | .attnRowStatistics .. => execAttnRowStatistics_keeps (Keeps.refl s) ..
  | .attnPvTile .. => execAttnPvTile_keeps (Keeps.refl s) ..
  | .attnFinalScaling .. => execAttnFinalScaling_keeps (Keeps.refl s) ..
  | .attnPassComplete .. => execAttnPassComplete_keeps (Keeps.refl s) ..
  | .atnStale0ValidClear .. => execAtnStale0ValidClear_keeps (Keeps.refl s) ..
  | .kvAppend .. => execKvAppend_keeps (Keeps.refl s) ..
  | .kvAppendComplete .. => execKvAppendComplete_keeps (Keeps.refl s) ..
  | .pageMoveAppendsDrained .. => execPageMoveAppendsDrained_keeps (Keeps.refl s) ..
  | .pageMoveCopyDone .. => execPageMoveCopyDone_keeps (Keeps.refl s) ..
  | .limboRecycle .. => execLimboRecycle_keeps (Keeps.refl s) ..
  | .autoDemote .. => execAutoDemote_keeps (Keeps.refl s) ..
  | .sortingAssistTake .. => execSortingAssistTake_keeps (Keeps.refl s) ..
  | .decodeBucketRun .. => execDecodeBucketRun_keeps (Keeps.refl s) ..
  | .ctxCfgWrite .. => execCtxCfgWrite_keeps (Keeps.refl s) ..
  | .ctxFarcfgWrite .. => execCtxFarcfgWrite_keeps (Keeps.refl s) ..
  | .ctxDefer0ValidClear .. => execCtxDefer0ValidClear_keeps (Keeps.refl s) ..
  | .tableLookup .. => execTableLookup_keeps (Keeps.refl s) ..
  | .tableRowReturn .. => execTableRowReturn_keeps (Keeps.refl s) ..
  | .tableLookupComplete .. => execTableLookupComplete_keeps (Keeps.refl s) ..
  | .tableGenerationRelease .. => execTableGenerationRelease_keeps (Keeps.refl s) ..
  | .tblRec0ValidClear .. => execTblRec0ValidClear_keeps (Keeps.refl s) ..
  | .lineTransactionIssue .. => execLineTransactionIssue_keeps (Keeps.refl s) ..
  | .lineTransactionComplete .. => execLineTransactionComplete_keeps (Keeps.refl s) ..
  | .hbmParityReplay .. => execHbmParityReplay_keeps (Keeps.refl s) ..
  | .calibrationWindow .. => execCalibrationWindow_keeps (Keeps.refl s) ..
  | .hbmRefresh ch => execHbmRefresh_keeps (_ch := ch) (Keeps.refl s)
  | .hbmTemperatureRead .. => execHbmTemperatureRead_keeps (Keeps.refl s) ..
  | .hbmErr0ValidClear .. => execHbmErr0ValidClear_keeps (Keeps.refl s) ..
  | .calPeriodMsWrite .. => execCalPeriodMsWrite_keeps (Keeps.refl s) ..
  | .mowerDemandVisit .. => execMowerDemandVisit_keeps (Keeps.refl s) ..
  | .scrubLine .. => execScrubLine_keeps (Keeps.refl s) ..
  | .linePatch .. => execLinePatch_keeps (Keeps.refl s) ..
  | .rekeyLine .. => execRekeyLine_keeps (Keeps.refl s) ..
  | .rekeyComplete .. => execRekeyComplete_keeps (Keeps.refl s) ..
  | .mowErr0ValidClear .. => execMowErr0ValidClear_keeps (Keeps.refl s) ..
  | .mowCfgWrite .. => execMowCfgWrite_keeps (Keeps.refl s) ..
  | .farRequestIssue .. => execFarRequestIssue_keeps (Keeps.refl s) ..
  | .cxlLinkReplay .. => execCxlLinkReplay_keeps (Keeps.refl s) ..
  | .farLinkLoss .. => execFarLinkLoss_keeps (Keeps.refl s) ..
  | .farLinkReturn .. => execFarLinkReturn_keeps (Keeps.refl s) ..
  | .farErr0ValidClear .. => execFarErr0ValidClear_keeps (Keeps.refl s) ..
  | .farSlotWrite .. => execFarSlotWrite_keeps (Keeps.refl s) ..
  | .win0Apply .. => execWin0Apply_keeps (Keeps.refl s) ..
  | .win0ErrClear .. => execWin0ErrClear_keeps (Keeps.refl s) ..
  | .translationCompletion .. => execTranslationCompletion_keeps (Keeps.refl s) ..
  | .pageRequestGroupResponse .. => execPageRequestGroupResponse_keeps (Keeps.refl s) ..
  | .atsInvalidationRequest .. => execAtsInvalidationRequest_keeps (Keeps.refl s) ..
  | .invalidationComplete .. => execInvalidationComplete_keeps (Keeps.refl s) ..
  | .translationTimeout .. => execTranslationTimeout_keeps (Keeps.refl s) ..
  | .hostCompletionError .. => execHostCompletionError_keeps (Keeps.refl s) ..
  | .tdiBarRequestRefused .. => execTdiBarRequestRefused_keeps (Keeps.refl s) ..
  | .msixUnmask .. => execMsixUnmask_keeps (Keeps.refl s) ..
  | .xlateTimeoutMsWrite .. => execXlateTimeoutMsWrite_keeps (Keeps.refl s) ..
  | .hifErr0ValidClear .. => execHifErr0ValidClear_keeps (Keeps.refl s) ..
  | .sqPairEnable .. => execSqPairEnable_keeps (Keeps.refl s) ..
  | .sqPairDisable .. => execSqPairDisable_keeps (Keeps.refl s) ..
  | .pqEnable .. => execPqEnable_keeps (Keeps.refl s) ..
  | .eqEnable .. => execEqEnable_keeps (Keeps.refl s) ..
  | .queueBaseWrite .. => execQueueBaseWrite_keeps (Keeps.refl s) ..
  | .sqTailDoorbell .. => execSqTailDoorbell_keeps (Keeps.refl s) ..
  | .cqHeadDoorbell .. => execCqHeadDoorbell_keeps (Keeps.refl s) ..
  | .pqTailDoorbell .. => execPqTailDoorbell_keeps (Keeps.refl s) ..
  | .pcqHeadDoorbell .. => execPcqHeadDoorbell_keeps (Keeps.refl s) ..
  | .eqHeadDoorbell .. => execEqHeadDoorbell_keeps (Keeps.refl s) ..
  | .tailwordPoll .. => execTailwordPoll_keeps (Keeps.refl s) ..
  | .packetTake .. => execPacketTake_keeps (Keeps.refl s) ..
  | .fenceRelease .. => execFenceRelease_keeps (Keeps.refl s) ..
  | .trainingStepEnd .. => execTrainingStepEnd_keeps (Keeps.refl s) ..
  | .trainingAbandon .. => execTrainingAbandon_keeps (Keeps.refl s) ..
  | .flitSend .. => execFlitSend_keeps (Keeps.refl s) ..
  | .flitReceive .. => execFlitReceive_keeps (Keeps.refl s) ..
  | .replayWaitTimeout .. => execReplayWaitTimeout_keeps (Keeps.refl s) ..
  | .laneFail .. => execLaneFail_keeps (Keeps.refl s) ..
  | .retrainSequenceReceive .. => execRetrainSequenceReceive_keeps (Keeps.refl s) ..
  | .retrainResume .. => execRetrainResume_keeps (Keeps.refl s) ..
  | .retrainDeadlineMiss .. => execRetrainDeadlineMiss_keeps (Keeps.refl s) ..
  | .spareLaneTestFail .. => execSpareLaneTestFail_keeps (Keeps.refl s) ..
  | .capsReceive .. => execCapsReceive_keeps (Keeps.refl s) ..
  | .spdmFragmentReceive .. => execSpdmFragmentReceive_keeps (Keeps.refl s) ..
  | .idleMessageReceive .. => execIdleMessageReceive_keeps (Keeps.refl s) ..
  | .keyReadyReceive .. => execKeyReadyReceive_keeps (Keeps.refl s) ..
  | .rekeyDue .. => execRekeyDue_keeps (Keeps.refl s) ..
  | .timeMessageSend .. => execTimeMessageSend_keeps (Keeps.refl s) ..
  | .timeMessageReceive .. => execTimeMessageReceive_keeps (Keeps.refl s) ..
  | .timeUnlock .. => execTimeUnlock_keeps (Keeps.refl s) ..
  | .portDown .. => execPortDown_keeps (Keeps.refl s) ..
  | .peerLostTimeout .. => execPeerLostTimeout_keeps (Keeps.refl s) ..
  | .plkCfgWrite .. => execPlkCfgWrite_keeps (Keeps.refl s) ..
  | .fetch .. => execFetch_keeps (Keeps.refl s) ..
  | .recv .. => execRecv_keeps (Keeps.refl s) ..
  | .pageFetch .. => execPageFetch_keeps (Keeps.refl s) ..
  | .writeMover .. => execWriteMover_keeps (Keeps.refl s) ..
  | .push .. => execPush_keeps (Keeps.refl s) ..
  | .writeMessageReceive .. => execWriteMessageReceive_keeps (Keeps.refl s) ..
  | .pushMessageReceive .. => execPushMessageReceive_keeps (Keeps.refl s) ..
  | .appendMessageReceive .. => execAppendMessageReceive_keeps (Keeps.refl s) ..
  | .readReqReceive .. => execReadReqReceive_keeps (Keeps.refl s) ..
  | .readDataReceive .. => execReadDataReceive_keeps (Keeps.refl s) ..
  | .pageReqReceive .. => execPageReqReceive_keeps (Keeps.refl s) ..
  | .ackReceive .. => execAckReceive_keeps (Keeps.refl s) ..
  | .stopReceive .. => execStopReceive_keeps (Keeps.refl s) ..
  | .mirrorReceive .. => execMirrorReceive_keeps (Keeps.refl s) ..
  | .mirrorBeatReceive .. => execMirrorBeatReceive_keeps (Keeps.refl s) ..
  | .mirrorBeatSend .. => execMirrorBeatSend_keeps (Keeps.refl s) ..
  | .mirrorFailover .. => execMirrorFailover_keeps (Keeps.refl s) ..
  | .mirrorBroken .. => execMirrorBroken_keeps (Keeps.refl s) ..
  | .transitForward .. => execTransitForward_keeps (Keeps.refl s) ..
  | .earlyArrivalTimeout .. => execEarlyArrivalTimeout_keeps (Keeps.refl s) ..
  | .receiveComplete .. => execReceiveComplete_keeps (Keeps.refl s) ..
  | .devIdWrite .. => execDevIdWrite_keeps (Keeps.refl s) ..
  | .rteErr0ValidClear .. => execRteErr0ValidClear_keeps (Keeps.refl s) ..
  | .spdmRequest .. => execSpdmRequest_keeps (Keeps.refl s) ..
  | .getReport .. => execGetReport_keeps (Keeps.refl s) ..
  | .getMeasurements .. => execGetMeasurements_keeps (Keeps.refl s) ..
  | .keyExchange .. => execKeyExchange_keeps (Keeps.refl s) ..
  | .endSession .. => execEndSession_keeps (Keeps.refl s) ..
  | .sessionHeartbeatMissed .. => execSessionHeartbeatMissed_keeps (Keeps.refl s) ..
  | .keyProg .. => execKeyProg_keeps (Keeps.refl s) ..
  | .kSetGo .. => execKSetGo_keeps (Keeps.refl s) ..
  | .kSetStop .. => execKSetStop_keeps (Keeps.refl s) ..
  | .ideIntegrityFail .. => execIdeIntegrityFail_keeps (Keeps.refl s) ..
  | .lockInterfaceRequest .. => execLockInterfaceRequest_keeps (Keeps.refl s) ..
  | .getDeviceInterfaceReport .. => execGetDeviceInterfaceReport_keeps (Keeps.refl s) ..
  | .startInterfaceRequest .. => execStartInterfaceRequest_keeps (Keeps.refl s) ..
  | .stopInterfaceRequest .. => execStopInterfaceRequest_keeps (Keeps.refl s) ..
  | .tdiConfigWrite .. => execTdiConfigWrite_keeps (Keeps.refl s) ..
  | .getHealth .. => execGetHealth_keeps (Keeps.refl s) ..
  | .paddockStop .. => execPaddockStop_keeps (Keeps.refl s) ..
  | .moduleKill .. => execModuleKill_keeps (Keeps.refl s) ..
  | .ownerProvision .. => execOwnerProvision_keeps (Keeps.refl s) ..
  | .i3cDynamicAddress x a => execI3cDynamicAddress_keeps (_setdasa := x) (Keeps.refl s) a
  | .cntSnapTake .. => execCntSnapTake_keeps (Keeps.refl s) ..
  | .swardCoreGate .. => execSwardCoreGate_keeps (Keeps.refl s) ..
  | .swardCaptureDone .. => execSwardCaptureDone_keeps (Keeps.refl s) ..
  | .swardWriteDone .. => execSwardWriteDone_keeps (Keeps.refl s) ..
  | .heartbeatMissed .. => execHeartbeatMissed_keeps (Keeps.refl s) ..
  | .coreControlFault .. => execCoreControlFault_keeps (Keeps.refl s) ..
  | .paddockUnitFault .. => execPaddockUnitFault_keeps (Keeps.refl s) ..
  | .deviceFatal .. => execDeviceFatal_keeps (Keeps.refl s) ..
  | .pllLockLoss .. => execPllLockLoss_keeps (Keeps.refl s) ..
  | .serdesPllLoss .. => execSerdesPllLoss_keeps (Keeps.refl s) ..
  | .regulatorFault .. => execRegulatorFault_keeps (Keeps.refl s) ..
  | .thermalTrip .. => execThermalTrip_keeps (Keeps.refl s) ..
  | .coreSelWrite .. => execCoreSelWrite_keeps (Keeps.refl s) ..
  | .corePllRelockDone .. => execCorePllRelockDone_keeps (Keeps.refl s) ..
  | .refusedClear .. => execRefusedClear_keeps (Keeps.refl s) ..
  | .configurationWrite .. => execConfigurationWrite_keeps (Keeps.refl s) ..
  | .hostLinkRetrain .. => execHostLinkRetrain_keeps (Keeps.refl s) ..
  | .killNDeassert .. => execKillNDeassert_keeps (Keeps.refl s) ..
  | .expanderMediaEvent .. => execExpanderMediaEvent_keeps (Keeps.refl s) ..
  | .farRetrainExhausted .. => execFarRetrainExhausted_keeps (Keeps.refl s) ..
  | .debugChallengeExpiry .. => execDebugChallengeExpiry_keeps (Keeps.refl s) ..
  | .debugZeroiseDone .. => execDebugZeroiseDone_keeps (Keeps.refl s) ..

/-- Settles O2, command by command. -/
theorem everyCommandAnswers : Obligations.EveryCommandAnswers := fun i s => exec_keepsOut s i

theorem step_command {s : State} {i : Instr} {rest : List Instr} (h : s.pending = i :: rest) : step s = exec i (s.setPending rest) := by
  unfold step
  rw [h]

theorem step_idle {s : State} (h : s.pending = []) : step s = .next s.clock := by
  unfold step
  rw [h]

/-- Settles O1. That an empty queue lets one core clock pass is log entry 2. -/
theorem stepRunsFront : Obligations.StepRunsFront := ⟨fun _ _ _ => step_command, fun _ => step_idle⟩

/-- Settles O3: a command keeps the form of the state that it is taken from, a clock that of its own. -/
theorem stepKeepsForm : Obligations.StepKeepsForm := by
  intro s hwf
  cases hq : s.pending with
  | nil =>
    obtain ⟨hpending, hsent, hfree, hform⟩ := State.clock_keeps (Keeps.refl s)
    exact ⟨_, step_idle hq, hform hwf, hsent, hfree, hpending.trans hq⟩
  | cons i rest =>
    obtain ⟨t, ht, hpending, hsent, hfree, hform⟩ := exec_keepsOut (s.setPending rest) i
    exact ⟨t, (step_command hq).trans ht, hform hwf, hsent, hfree, hpending⟩

end Sys2Proof.Machine
end

section
/-! PROOFS. Queues are enabled, disabled, given bases and sizes, and rung (chapter 17, R484, R485, R487, R508). -/

-- Proofs side by side each take a thread with its stack: together they pass the bound on memory.
set_option Elab.async false

namespace Sys2Proof.Machine

/-! ### Enabling and disabling -/

section Enable

variable {s : State} {fn k : Nat} {translated : Bool}

/-- The ERR code that the checks of R484 give an SQ pair. -/
def State.pairErr (s : State) (fn k : Nat) (translated : Bool) : Nat :=
  s.enableErr fn
    (s.baseOk fn (s.rd F.CMQ_SQ_BASE_POINTER fn k) (64 * (s.rd F.CMQ_CFG_SQ_SIZE_M1 fn k + 1)) false true &&
      (ptrTag (s.rd F.CMQ_CQ_BASE_POINTER fn k) = 1 &&
        s.baseOk fn (s.rd F.CMQ_CQ_BASE_POINTER fn k) (32 * (s.rd F.CMQ_CFG_CQ_SIZE_M1 fn k + 1)) true false)) translated

theorem State.enablePair_passes (h : s.pairErr fn k translated = 0) : s.enablePair fn k translated =
    (((((s.wr F.CMQ_CFG_EN fn 1 k).wr F.CMQ_CFG_ERR fn 0 k).wr F.CMQ_CFG_IDLE fn 0 k).markEnabled fn).activate fn) := by
  unfold State.pairErr at h
  simp only [State.enablePair, h]

theorem State.enablePair_fails (h : s.pairErr fn k translated ≠ 0) : s.enablePair fn k translated =
    (s.wr F.CMQ_CFG_EN fn 0 k).wr F.CMQ_CFG_ERR fn (s.pairErr fn k translated) k := by
  unfold State.pairErr at h ⊢
  unfold State.enablePair
  dsimp only
  split
  · exact absurd ‹_› h
  · rfl

@[simp] theorem State.markEnabled_rd (s : State) (fn : Nat) (g : Fld) (i j : Nat) : (s.markEnabled fn).rd g i j = s.rd g i j := rfl

theorem State.activate_onlyRegs (s : State) (fn : Nat) : OnlyRegs s (s.activate fn) [F.PDK_STATE_STATE] :=
  onlyRegs_ite (onlyRegs_wr onlyRegs_refl (List.mem_singleton.2 rfl)) onlyRegs_refl

theorem State.activate_rd {g : Fld} {i j : Nat} (hg : g.id ≠ F.PDK_STATE_STATE.id) : (s.activate fn).rd g i j = s.rd g i j :=
  (State.activate_onlyRegs s fn).2 g i j (by simpa using hg)

theorem State.activate_active (hfn : fn ≠ 0) (hst : s.pdkState (pdkOf fn) = pdkAssigned ∨ s.pdkState (pdkOf fn) = pdkQuiesced) :
    (s.activate fn).pdkState (pdkOf fn) = pdkActive := by
  unfold State.activate
  rw [if_pos ⟨hfn, hst⟩, State.wr_pdkState, if_pos rfl]
  rfl

/-- The pair's ERR and EN say whether the enable passed its checks. -/
theorem State.enablePair_err (s : State) (fn k : Nat) (translated : Bool) :
    (s.enablePair fn k translated).rd F.CMQ_CFG_ERR fn k = s.pairErr fn k translated % 8 := by
  by_cases h : s.pairErr fn k translated = 0
  · rw [State.enablePair_passes h, State.activate_rd (by decide), State.markEnabled_rd, State.rd_wr_fld (by decide), State.rd_wr_self, h]
    rfl
  · rw [State.enablePair_fails h]
    exact State.rd_wr_self

theorem State.enablePair_en (s : State) (fn k : Nat) (translated : Bool) :
    (s.enablePair fn k translated).rd F.CMQ_CFG_EN fn k = if s.pairErr fn k translated = 0 then 1 else 0 := by
  by_cases h : s.pairErr fn k translated = 0
  · rw [State.enablePair_passes h, State.activate_rd (by decide), State.markEnabled_rd, State.rd_wr_fld (by decide),
      State.rd_wr_fld (by decide), State.rd_wr_self, if_pos h]
    rfl
  · rw [State.enablePair_fails h, State.rd_wr_fld (by decide), State.rd_wr_self, if_neg h]
    rfl

theorem State.enablePair_beside (s : State) (fn k : Nat) (translated : Bool) :
    (s.enablePair fn k translated).mem = s.mem ∧ (s.enablePair fn k translated).out = s.out := by
  by_cases h : s.pairErr fn k translated = 0
  · rw [State.enablePair_passes h, (State.activate_onlyRegs _ fn).mem, (State.activate_onlyRegs _ fn).out]
    exact ⟨rfl, rfl⟩
  · rw [State.enablePair_fails h]
    exact ⟨rfl, rfl⟩

theorem State.enablePair_onlyKeys (h : s.pairErr fn k translated ≠ 0) :
    OnlyKeys s (s.enablePair fn k translated) [(F.CMQ_CFG_EN, fn, k), (F.CMQ_CFG_ERR, fn, k)] := by
  rw [State.enablePair_fails h]
  exact onlyKeys_wr (onlyKeys_wr onlyKeys_refl (by simp)) (by simp)

theorem State.enablePair_idle (h : s.pairErr fn k translated = 0) : (s.enablePair fn k translated).rd F.CMQ_CFG_IDLE fn k = 0 := by
  rw [State.enablePair_passes h, State.activate_rd (by decide), State.markEnabled_rd, State.rd_wr_self]
  rfl

theorem State.enablePair_active (h : s.pairErr fn k translated = 0) (hfn : fn ≠ 0)
    (hst : s.pdkState (pdkOf fn) = pdkAssigned ∨ s.pdkState (pdkOf fn) = pdkQuiesced) :
    (s.enablePair fn k translated).pdkState (pdkOf fn) = pdkActive := by
  have hkeep : ((((s.wr F.CMQ_CFG_EN fn 1 k).wr F.CMQ_CFG_ERR fn 0 k).wr F.CMQ_CFG_IDLE fn 0 k).markEnabled fn).pdkState (pdkOf fn) =
      s.pdkState (pdkOf fn) := by
    simp (disch := decide) only [State.pdkState, State.markEnabled_rd, State.rd_wr_fld]
  rw [State.enablePair_passes h]
  exact State.activate_active hfn (by rwa [hkeep])

end Enable

/-- SQ_PAIR_DISABLE: no packet is taken from then on, and the pair is idle once nothing is outstanding (R508). -/
theorem execSqPairDisable_open {s : State} {fn : Fin 17} {k : Fin 8} (hopen : s.barClosed fn.val = false) :
    ∃ t, execSqPairDisable fn k s = .next t ∧ t.rd F.CMQ_CFG_EN fn.val k.val = 0 ∧ t.mem = s.mem ∧
      (s.rd F.CMQ_SQ_HEAD_OUTSTANDING fn.val k.val = 0 → t.rd F.CMQ_CFG_IDLE fn.val k.val = 1) ∧
      ∀ (g : Fld) (i j : Nat), g.id ≠ F.CMQ_CFG_EN.id → g.id ≠ F.CMQ_CFG_IDLE.id → t.rd g i j = s.rd g i j := by
  have hrd : ∀ (g : Fld) (i j : Nat), (if fn.val = 0 then s.unhold k.val else s).rd g i j = s.rd g i j :=
    fun g i j => by split <;> rfl
  have hmem : (if fn.val = 0 then s.unhold k.val else s).mem = s.mem := by split <;> rfl
  unfold execSqPairDisable
  rw [if_neg (by simp [hopen])]
  generalize (if fn.val = 0 then s.unhold k.val else s) = u at hrd hmem
  refine ⟨_, rfl, ?_, ?_, fun hidle => ?_, fun g i j hen hidle => ?_⟩
  · split
    · rw [State.rd_wr_fld (by decide), State.rd_wr_self]
      rfl
    · exact State.rd_wr_self
  · split <;> exact hmem
  · rw [if_pos (by rwa [State.rd_wr_fld (by decide), hrd])]
    exact State.rd_wr_self
  · split
    · rw [State.rd_wr_fld hidle, State.rd_wr_fld hen, hrd]
    · rw [State.rd_wr_fld hen, hrd]

theorem queueEnables_closed {s : State} {fn : Fin 17} {k : Fin 8} {tr : Bool} (h : s.barClosed fn.val = true) :
    execSqPairEnable fn k tr s = .next s ∧ execSqPairDisable fn k s = .next s ∧ execPqEnable fn true tr s = .next s ∧
      execEqEnable fn true tr s = .next s :=
  ⟨if_pos h, if_pos h, if_pos h, if_pos h⟩

/-- Settles O9: an enable by the ERR code of its checks, a disable by EN and IDLE. -/
theorem queueEnables : Obligations.QueueEnables := by
  intro s fn k tr
  refine ⟨fun hopen hhold => ?_, fun hopen hhold => ?_, fun hopen hhold => ?_, fun hopen hvf => ?_, fun hopen hvf => ?_, fun hhold => ?_,
    execSqPairDisable_open, queueEnables_closed⟩
  · have hexec : execSqPairEnable fn k tr s = .next (s.enablePair fn.val k.val tr) := by
      unfold execSqPairEnable
      rw [if_neg (by simp [hopen]), if_neg (by simp [hhold])]
    obtain ⟨hmem, hout⟩ := State.enablePair_beside s fn.val k.val tr
    refine ⟨_, hexec, rfl, hmem, hout, fun e he => ?_⟩
    change s.pairErr fn.val k.val tr = e at he
    subst he
    exact ⟨State.enablePair_err .., State.enablePair_en .., State.enablePair_onlyKeys,
      fun h => ⟨State.enablePair_idle h, State.enablePair_active h⟩⟩
  · change execPqEnable fn true tr s = _
    unfold execPqEnable
    rw [if_neg (by simp [hopen]), if_pos rfl, if_neg (by simp [hhold])]
  · change execEqEnable fn true tr s = _
    unfold execEqEnable
    rw [if_neg (by simp [hopen]), if_pos rfl, if_neg (by simp [hhold])]
  · change execPqEnable fn false tr s = _
    unfold execPqEnable
    rw [if_neg (by simp [hopen]), if_neg Bool.false_ne_true, if_neg hvf]
  · change execEqEnable fn false tr s = _
    unfold execEqEnable
    rw [if_neg (by simp [hopen]), if_neg Bool.false_ne_true, if_neg hvf]
  · change execSqPairEnable 0 k tr s = _
    unfold execSqPairEnable
    rw [if_neg (show ¬ s.barClosed (0 : Fin 17).val = true from Bool.false_ne_true), if_pos (show s.holdEnable (0 : Fin 17).val k.val = true from hhold)]

/-! ### Bases and sizes -/

section Bases

variable {s : State} {fn k v i j : Nat} {f : Fld} {reset : State → State}

/-- A field that changes is stored, and its queue is reset (R487). -/
theorem State.setQueueFld_changes (h : s.rd f i j ≠ v % 2 ^ f.width) : s.setQueueFld f i j v reset = reset (s.wr f i v j) := if_neg h

theorem State.resetSq_onlyKeys (h : s.rd f fn k ≠ v % 2 ^ f.width) (hhead : f.id ≠ F.CMQ_SQ_HEAD_INDEX.id) (htail : f.id ≠ F.CMQ_SQ_TAIL_INDEX.id)
    {t : State} (ht : t = s.setQueueFld f fn k v (fun s => s.resetSq fn k)) :
    t.rd f fn k = v % 2 ^ f.width ∧ t.rd F.CMQ_SQ_HEAD_INDEX fn k = 0 ∧ t.rd F.CMQ_SQ_TAIL_INDEX fn k = 0 ∧
      OnlyKeys s t [(f, fn, k), (F.CMQ_SQ_HEAD_INDEX, fn, k), (F.CMQ_SQ_TAIL_INDEX, fn, k)] := by
  rw [ht, State.setQueueFld_changes h]
  refine ⟨?_, ?_, State.rd_wr_self, onlyKeys_wr (onlyKeys_wr (onlyKeys_wr onlyKeys_refl (by simp)) (by simp)) (by simp)⟩
  · rw [State.resetSq, State.rd_wr_fld htail, State.rd_wr_fld hhead, State.rd_wr_self]
  · rw [State.resetSq, State.rd_wr_fld (by decide), State.rd_wr_self]
    rfl

theorem State.resetCq_onlyKeys (h : s.rd f fn k ≠ v % 2 ^ f.width) (hhead : f.id ≠ F.CMQ_CQ_HEAD_INDEX.id) (htail : f.id ≠ F.CMQ_CQ_TAIL_INDEX.id)
    (hphase : f.id ≠ F.CMQ_CQ_TAIL_PHASE.id) {t : State} (ht : t = s.setQueueFld f fn k v (fun s => s.resetCq fn k)) :
    t.rd f fn k = v % 2 ^ f.width ∧ t.rd F.CMQ_CQ_HEAD_INDEX fn k = 0 ∧ t.rd F.CMQ_CQ_TAIL_INDEX fn k = 0 ∧
      t.rd F.CMQ_CQ_TAIL_PHASE fn k = 1 ∧
      OnlyKeys s t [(f, fn, k), (F.CMQ_CQ_HEAD_INDEX, fn, k), (F.CMQ_CQ_TAIL_INDEX, fn, k), (F.CMQ_CQ_TAIL_PHASE, fn, k)] := by
  rw [ht, State.setQueueFld_changes h]
  refine ⟨?_, ?_, ?_, State.rd_wr_self, onlyKeys_wr (onlyKeys_wr (onlyKeys_wr (onlyKeys_wr onlyKeys_refl (by simp)) (by simp)) (by simp)) (by simp)⟩
  · rw [State.resetCq, State.rd_wr_fld hphase, State.rd_wr_fld htail, State.rd_wr_fld hhead, State.rd_wr_self]
  · rw [State.resetCq, State.rd_wr_fld (by decide), State.rd_wr_fld (by decide), State.rd_wr_self]
    rfl
  · rw [State.resetCq, State.rd_wr_fld (by decide), State.rd_wr_self]
    rfl

theorem State.resetPq_onlyKeys (h : s.rd f fn 0 ≠ v % 2 ^ f.width) (hhead : f.id ≠ F.CMQ_PQ_HEAD_INDEX.id) (htail : f.id ≠ F.CMQ_PQ_TAIL_INDEX.id)
    {t : State} (ht : t = s.setQueueFld f fn 0 v (fun s => s.resetPq fn)) :
    t.rd f fn = v % 2 ^ f.width ∧ t.rd F.CMQ_PQ_HEAD_INDEX fn = 0 ∧ t.rd F.CMQ_PQ_TAIL_INDEX fn = 0 ∧
      OnlyKeys s t [(f, fn, 0), (F.CMQ_PQ_HEAD_INDEX, fn, 0), (F.CMQ_PQ_TAIL_INDEX, fn, 0)] := by
  rw [ht, State.setQueueFld_changes h]
  refine ⟨?_, ?_, State.rd_wr_self, onlyKeys_wr (onlyKeys_wr (onlyKeys_wr onlyKeys_refl (by simp)) (by simp)) (by simp)⟩
  · rw [State.resetPq, State.rd_wr_fld htail, State.rd_wr_fld hhead, State.rd_wr_self]
  · rw [State.resetPq, State.rd_wr_fld (by decide), State.rd_wr_self]
    rfl

theorem State.resetEq_onlyKeys (h : s.rd f fn 0 ≠ v % 2 ^ f.width) (hhead : f.id ≠ F.CMQ_EQ_HEAD_INDEX.id) (htail : f.id ≠ F.CMQ_EQ_TAIL_INDEX.id)
    (hphase : f.id ≠ F.CMQ_EQ_TAIL_PHASE.id) {t : State} (ht : t = s.setQueueFld f fn 0 v (fun s => s.resetEq fn)) :
    t.rd f fn = v % 2 ^ f.width ∧ t.rd F.CMQ_EQ_HEAD_INDEX fn = 0 ∧ t.rd F.CMQ_EQ_TAIL_INDEX fn = 0 ∧ t.rd F.CMQ_EQ_TAIL_PHASE fn = 1 ∧
      OnlyKeys s t [(f, fn, 0), (F.CMQ_EQ_HEAD_INDEX, fn, 0), (F.CMQ_EQ_TAIL_INDEX, fn, 0), (F.CMQ_EQ_TAIL_PHASE, fn, 0)] := by
  rw [ht, State.setQueueFld_changes h]
  refine ⟨?_, ?_, ?_, State.rd_wr_self, onlyKeys_wr (onlyKeys_wr (onlyKeys_wr (onlyKeys_wr onlyKeys_refl (by simp)) (by simp)) (by simp)) (by simp)⟩
  · rw [State.resetEq, State.rd_wr_fld hphase, State.rd_wr_fld htail, State.rd_wr_fld hhead, State.rd_wr_self]
  · rw [State.resetEq, State.rd_wr_fld (by decide), State.rd_wr_fld (by decide), State.rd_wr_self]
    rfl
  · rw [State.resetEq, State.rd_wr_fld (by decide), State.rd_wr_self]
    rfl

/-- A size field holds 1 to 4,095. -/
theorem sizeField_mod (v : Nat) : sizeField v % 2 ^ 12 = sizeField v := by
  unfold sizeField
  split <;> omega

/-- What a write of a base or size of pair `k` does while the pair is not enabled. -/
theorem execQueueBaseWrite_pair {fn : Fin 17} {k : Fin 8} (hopen : s.barClosed fn.val = false) (hen : s.rd F.CMQ_CFG_EN fn.val k.val ≠ 1) :
    execQueueBaseWrite fn (.sqBase k) v s = .next (s.setQueueFld F.CMQ_SQ_BASE_POINTER fn.val k.val v (fun s => s.resetSq fn.val k.val)) ∧
    execQueueBaseWrite fn (.cqBase k) v s = .next (s.setQueueFld F.CMQ_CQ_BASE_POINTER fn.val k.val v (fun s => s.resetCq fn.val k.val)) ∧
    execQueueBaseWrite fn (.sqSize k) v s =
      .next (s.setQueueFld F.CMQ_CFG_SQ_SIZE_M1 fn.val k.val (sizeField v) (fun s => s.resetSq fn.val k.val)) ∧
    execQueueBaseWrite fn (.cqSize k) v s =
      .next (s.setQueueFld F.CMQ_CFG_CQ_SIZE_M1 fn.val k.val (sizeField v) (fun s => s.resetCq fn.val k.val)) := by
  simp only [execQueueBaseWrite, hopen, hen, decide_false, Bool.false_eq_true, if_false, and_self]

theorem execQueueBaseWrite_enabled {fn : Fin 17} {k : Fin 8} (hopen : s.barClosed fn.val = false) (hen : s.rd F.CMQ_CFG_EN fn.val k.val = 1) :
    ∀ reg ∈ [QueueReg.sqBase k, .cqBase k, .sqSize k, .cqSize k], execQueueBaseWrite fn reg v s = .next s := by
  simp only [List.forall_mem_cons, execQueueBaseWrite, hopen, hen, decide_true, Bool.false_eq_true, if_true, if_false, List.not_mem_nil,
    false_imp_iff, implies_true, and_self]

theorem execQueueBaseWrite_pq {fn : Fin 17} (hopen : s.barClosed fn.val = false) (hen : s.rd F.CMQ_PQ_CFG_EN fn.val ≠ 1) :
    execQueueBaseWrite fn .pqBase v s = .next (s.setQueueFld F.CMQ_PQ_BASE_POINTER fn.val 0 v (fun s => s.resetPq fn.val)) := by
  simp only [execQueueBaseWrite, hopen, hen, Bool.false_eq_true, if_false]

theorem execQueueBaseWrite_eq {fn : Fin 17} (hopen : s.barClosed fn.val = false) (hen : s.rd F.CMQ_EQ_CFG_EN fn.val ≠ 1) :
    execQueueBaseWrite fn .eqBase v s = .next (s.setQueueFld F.CMQ_EQ_BASE_POINTER fn.val 0 v (fun s => s.resetEq fn.val)) := by
  simp only [execQueueBaseWrite, hopen, hen, Bool.false_eq_true, if_false]

end Bases

theorem State.cqTail_pair (s : State) (fn : Nat) (k : Fin 8) : s.cqTail fn k.val = s.rd F.CMQ_CQ_TAIL_INDEX fn k.val :=
  if_neg (by omega)

theorem State.cqPhase_pair (s : State) (fn : Nat) (k : Fin 8) : s.cqPhase fn k.val = s.rd F.CMQ_CQ_TAIL_PHASE fn k.val :=
  if_neg (by omega)

theorem State.cqEntries_pair (s : State) (fn : Nat) (k : Fin 8) : s.cqEntries fn k.val = s.rd F.CMQ_CFG_CQ_SIZE_M1 fn k.val + 1 :=
  if_neg (by omega)

/-- Settles O10: a write that changes its field by the reset of its queue, one of an enabled pair by nothing at all. -/
theorem queueBases : Obligations.QueueBases := by
  intro s fn v hopen
  refine ⟨fun k hen => ?_, fun k hen => execQueueBaseWrite_enabled hopen hen, fun hen hne => ?_, fun hen hne => ?_⟩
  · obtain ⟨hsqBase, hcqBase, hsqSize, hcqSize⟩ := execQueueBaseWrite_pair (v := v) hopen hen
    refine ⟨fun hne => ⟨_, hsqBase, State.resetSq_onlyKeys hne (by decide) (by decide) rfl⟩, fun hne => ⟨_, hcqBase, ?_⟩,
      fun hne => ⟨_, hsqSize, ?_⟩, fun hne => ⟨_, hcqSize, ?_⟩⟩
    · rw [State.cqTail_pair, State.cqPhase_pair]
      exact State.resetCq_onlyKeys hne (by decide) (by decide) (by decide) rfl
    · have h := State.resetSq_onlyKeys (f := F.CMQ_CFG_SQ_SIZE_M1) (v := sizeField v) (s := s) (fn := fn.val) (k := k.val)
        (by rw [show F.CMQ_CFG_SQ_SIZE_M1.width = 12 from rfl, sizeField_mod]; exact hne) (by decide) (by decide) rfl
      rwa [show F.CMQ_CFG_SQ_SIZE_M1.width = 12 from rfl, sizeField_mod] at h
    · have h := State.resetCq_onlyKeys (f := F.CMQ_CFG_CQ_SIZE_M1) (v := sizeField v) (s := s) (fn := fn.val) (k := k.val)
        (by rw [show F.CMQ_CFG_CQ_SIZE_M1.width = 12 from rfl, sizeField_mod]; exact hne) (by decide) (by decide) (by decide) rfl
      rw [show F.CMQ_CFG_CQ_SIZE_M1.width = 12 from rfl, sizeField_mod] at h
      rw [State.cqTail_pair, State.cqPhase_pair, State.cqEntries_pair, h.1]
      exact ⟨rfl, h.2⟩
  · exact ⟨_, execQueueBaseWrite_pq hopen hen, State.resetPq_onlyKeys hne (by decide) (by decide) rfl⟩
  · exact ⟨_, execQueueBaseWrite_eq hopen hen, State.resetEq_onlyKeys hne (by decide) (by decide) (by decide) rfl⟩

end Sys2Proof.Machine
end

section
/-! PROOFS. Doorbells, and the poll of a tail word (chapter 17, R485). -/

-- Proofs side by side each take a thread with its stack: together they pass the bound on memory.
set_option Elab.async false

namespace Sys2Proof.Machine

section Ring

variable {s : State} {fn : Fin 17} {k : Fin 8} {idx : Nat}

/-- The tail doorbell of an SQ that the tail word rules is ignored; any other moves the tail below the size. -/
theorem execSqTailDoorbell_ignored (hopen : s.barClosed fn.val = false) (htw : s.rd F.CMQ_CFG_TAILWORD fn.val k.val = 1)
    (htag : ptrTag (s.rd F.CMQ_SQ_BASE_POINTER fn.val k.val) = 0) : execSqTailDoorbell fn k idx s = .next s := by
  simp only [execSqTailDoorbell, hopen, htw, htag, Bool.false_eq_true, if_false, and_self, if_true]

theorem execSqTailDoorbell_heard (hopen : s.barClosed fn.val = false)
    (hword : ¬ (s.rd F.CMQ_CFG_TAILWORD fn.val k.val = 1 ∧ ptrTag (s.rd F.CMQ_SQ_BASE_POINTER fn.val k.val) = 0)) :
    execSqTailDoorbell fn k idx s = if s.rd F.CMQ_CFG_SQ_SIZE_M1 fn.val k.val < idx then .next (s.wr F.CMQ_CFG_ERR fn.val errDoorbell k.val)
      else .next (s.wr F.CMQ_SQ_TAIL_INDEX fn.val idx k.val) := by
  simp only [execSqTailDoorbell, hopen, hword, Bool.false_eq_true, if_false]

theorem execCqHeadDoorbell_heard (hopen : s.barClosed fn.val = false) :
    execCqHeadDoorbell fn k idx s =
      if headOk (s.rd F.CMQ_CQ_HEAD_INDEX fn.val k.val) (s.cqTail fn.val k.val) idx (s.cqEntries fn.val k.val) then
        .next (s.wr F.CMQ_CQ_HEAD_INDEX fn.val idx k.val)
      else .next (s.wr F.CMQ_CFG_ERR fn.val errDoorbell k.val) := by
  simp only [execCqHeadDoorbell, hopen, Bool.false_eq_true, if_false]

theorem execPqTailDoorbell_heard (hopen : s.barClosed fn.val = false) :
    execPqTailDoorbell fn idx s = if 8 ≤ idx then .next (s.wr F.CMQ_PQ_CFG_ERR fn.val errDoorbell) else .next (s.wr F.CMQ_PQ_TAIL_INDEX fn.val idx) := by
  simp only [execPqTailDoorbell, hopen, Bool.false_eq_true, if_false]

theorem execPcqHeadDoorbell_heard (hopen : s.barClosed fn.val = false) :
    execPcqHeadDoorbell fn idx s = if headOk (s.rd F.CMQ_PCQ_HEAD_INDEX fn.val) (s.cqTail fn.val 8) idx 8 then
        .next (s.wr F.CMQ_PCQ_HEAD_INDEX fn.val idx)
      else .next (s.wr F.CMQ_PQ_CFG_ERR fn.val errDoorbell) := by
  simp only [execPcqHeadDoorbell, hopen, Bool.false_eq_true, if_false]

theorem execEqHeadDoorbell_heard (hopen : s.barClosed fn.val = false) :
    execEqHeadDoorbell fn idx s =
      if headOk (s.rd F.CMQ_EQ_HEAD_INDEX fn.val) (s.rd F.CMQ_EQ_TAIL_INDEX fn.val) idx (s.eqEntries fn.val) then
        .next (s.wr F.CMQ_EQ_HEAD_INDEX fn.val idx)
      else .next (s.wr F.CMQ_EQ_CFG_ERR fn.val errDoorbell) := by
  simp only [execEqHeadDoorbell, hopen, Bool.false_eq_true, if_false]

/-- A head that the ring accepts lies below its size. -/
theorem lt_of_headOk {head tail new n : Nat} (h : headOk head tail new n = true) : new < n := by
  simp only [headOk, Bool.and_eq_true, decide_eq_true_eq] at h
  exact h.1

/-- The poll stores the low 12 bits of the tail word as the tail, or ERR 5 when they reach the size. -/
theorem execTailwordPoll_polls {v : Nat} (hen : s.rd F.CMQ_CFG_EN fn.val k.val = 1) (htw : s.rd F.CMQ_CFG_TAILWORD fn.val k.val = 1)
    (htag : ptrTag (s.rd F.CMQ_SQ_BASE_POINTER fn.val k.val) = 0) (hvf : fn.val ≠ 0)
    (hv : v = leNat (s.hbmRead (pdkOf fn.val) (ptrAddr (s.rd F.CMQ_TAILWORD_POINTER fn.val k.val)) 8) % 4096) :
    ∃ t, execTailwordPoll fn k s = .next t ∧ t.mem = s.mem ∧
      (v ≤ s.rd F.CMQ_CFG_SQ_SIZE_M1 fn.val k.val → t.rd F.CMQ_SQ_TAIL_INDEX fn.val k.val = v) ∧
      (s.rd F.CMQ_CFG_SQ_SIZE_M1 fn.val k.val < v → t.rd F.CMQ_CFG_ERR fn.val k.val = 5) := by
  have hexec : execTailwordPoll fn k s = if s.rd F.CMQ_CFG_SQ_SIZE_M1 fn.val k.val < v then
      .next ((s.bump F.HBM_RD_LINES_COUNT (pdkOf fn.val)).wr F.CMQ_CFG_ERR fn.val errDoorbell k.val)
      else .next ((s.bump F.HBM_RD_LINES_COUNT (pdkOf fn.val)).wr F.CMQ_SQ_TAIL_INDEX fn.val v k.val) := by
    unfold execTailwordPoll
    rw [if_pos ⟨hen, htw, htag, hvf⟩]
    dsimp only
    rw [State.rd_bump_fld (by decide) (by decide), ← hv]
  by_cases hlt : s.rd F.CMQ_CFG_SQ_SIZE_M1 fn.val k.val < v
  · exact ⟨_, hexec.trans (if_pos hlt), State.bump_mem .., fun hle => absurd hlt (Nat.not_lt.2 hle), fun _ => State.rd_wr_self⟩
  · refine ⟨_, hexec.trans (if_neg hlt), State.bump_mem .., fun _ => State.rd_wr_self.trans (Nat.mod_eq_of_lt ?_), fun h => absurd h hlt⟩
    exact hv ▸ Nat.mod_lt _ (by decide)

end Ring

/-- Settles O11: each doorbell by the one register that it writes. -/
theorem doorbells : Obligations.Doorbells := by
  intro s fn k idx hopen
  refine ⟨fun hword hle hlt => ?_, fun hword hlt => ?_, fun htw htag => execSqTailDoorbell_ignored hopen htw htag, fun hok hlt => ?_,
    fun hok => ?_, fun hlt => ?_, fun hle => ?_, fun hok => ?_, fun hok => ?_, fun hok hlt => ?_, fun hok => ?_,
    fun v hen htw htag hvf hv => execTailwordPoll_polls hen htw htag hvf hv⟩
  · exact ⟨_, (execSqTailDoorbell_heard hopen hword).trans (if_neg (Nat.not_lt.2 hle)), sets_wr (Nat.mod_eq_of_lt hlt)⟩
  · exact ⟨_, (execSqTailDoorbell_heard hopen hword).trans (if_pos hlt), sets_wr rfl⟩
  · exact ⟨_, (execCqHeadDoorbell_heard hopen).trans (if_pos hok), sets_wr (Nat.mod_eq_of_lt hlt)⟩
  · exact ⟨_, (execCqHeadDoorbell_heard hopen).trans (if_neg (by simp [hok])), sets_wr rfl⟩
  · exact ⟨_, (execPqTailDoorbell_heard hopen).trans (if_neg (Nat.not_le.2 hlt)), sets_wr (Nat.mod_eq_of_lt (Nat.lt_trans hlt (by decide)))⟩
  · exact ⟨_, (execPqTailDoorbell_heard hopen).trans (if_pos hle), sets_wr rfl⟩
  · exact ⟨_, (execPcqHeadDoorbell_heard hopen).trans (if_pos hok), sets_wr (Nat.mod_eq_of_lt (Nat.lt_trans (lt_of_headOk hok) (by decide)))⟩
  · exact ⟨_, (execPcqHeadDoorbell_heard hopen).trans (if_neg (by simp [hok])), sets_wr rfl⟩
  · exact ⟨_, (execEqHeadDoorbell_heard hopen).trans (if_pos hok), sets_wr (Nat.mod_eq_of_lt hlt)⟩
  · exact ⟨_, (execEqHeadDoorbell_heard hopen).trans (if_neg (by simp [hok])), sets_wr rfl⟩

end Sys2Proof.Machine
end

section
/-! PROOFS. Completion records and event records (chapter 17, R487, R490, R491, R500). -/

namespace Sys2Proof.Machine

/-! ### Completions -/

/-- An MSI-X message is sent, or its vector is masked and pending (R460). -/
theorem State.msix_out (s : State) (fn v : Nat) : (s.msix fn v).out = s.out ∨ (s.msix fn v).out = s.out ++ [.msix fn v] := by
  unfold State.msix
  split
  · exact .inl rfl
  · exact .inr rfl

/-- A command that stops being outstanding moves its queue's counts only. -/
theorem State.dropTaken_onlyRegs (s : State) (h : Hdr) :
    OnlyRegs { s with taken := (s.dropTaken h).taken } (s.dropTaken h) [F.CMQ_SQ_HEAD_OUTSTANDING, F.CMQ_CFG_IDLE] := by
  have hw : ∀ (l : List Taken) (n : Nat), OnlyRegs { s with taken := l }
      (({ s with taken := l } : State).wr F.CMQ_SQ_HEAD_OUTSTANDING h.fn.val n h.q.val) [F.CMQ_SQ_HEAD_OUTSTANDING, F.CMQ_CFG_IDLE] :=
    fun l n => onlyRegs_wr onlyRegs_refl (by simp)
  unfold State.dropTaken
  split
  · exact onlyRegs_refl
  · dsimp only
    split
    · exact onlyRegs_refl
    · split
      · exact onlyRegs_wr (hw _ _) (by simp)
      · exact hw _ _

theorem State.dropTaken_rd {s : State} {h : Hdr} {g : Fld} {i j : Nat} (hout : g.id ≠ F.CMQ_SQ_HEAD_OUTSTANDING.id)
    (hidle : g.id ≠ F.CMQ_CFG_IDLE.id) : (s.dropTaken h).rd g i j = s.rd g i j :=
  (State.dropTaken_onlyRegs s h).2 g i j (by simp [hout, hidle])

theorem State.quiet_congr {s t : State} (hpins : t.pins = s.pins) (hrst : t.rd F.RST_STATUS_IN_RESET 0 = s.rd F.RST_STATUS_IN_RESET 0)
    (hlast : t.rd F.RST_STATUS_LAST 0 = s.rd F.RST_STATUS_LAST 0) (hpdk : ∀ p, t.pdkState p = s.pdkState p) (fn : Nat) :
    t.quiet fn = s.quiet fn := by
  simp only [State.quiet, hpins, hrst, hlast, hpdk]

@[simp] theorem State.dropTaken_quiet (s : State) (h : Hdr) (fn : Nat) : (s.dropTaken h).quiet fn = s.quiet fn :=
  State.quiet_congr (State.dropTaken_pins s h) (State.dropTaken_rd (by decide) (by decide)) (State.dropTaken_rd (by decide) (by decide))
    (fun p => State.dropTaken_rd (by decide) (by decide)) fn

/-- What has been sent when a command completes: its record at the tail of its queue, then its vector unless NO_IRQ. -/
theorem State.complete_out {s : State} {h : Hdr} {status result num : Nat} {keep : Bool} (hq : s.quiet h.fn.val = false) :
    ∃ l, (s.complete h status result num keep).out = s.out ++ [.completion h.fn.val h.q.val
        ((s.dropTaken h).cqBase h.fn.val h.q.val + 32 * (s.dropTaken h).cqTail h.fn.val h.q.val)
        (completionRecord ((s.dropTaken h).cqPhase h.fn.val h.q.val) h.cid status (resultOf status result keep) num)] ++ l ∧
      (l = [] ∨ ∃ v, l = [.msix h.fn.val v]) ∧ (h.noIrq = true → l = []) := by
  have hdrop : (s.dropTaken h).out = s.out := State.dropTaken_out s h
  unfold State.complete
  extract_lets u fn q r a b c d
  have hd : d.out = s.out ++ [.completion fn q (u.cqBase fn q + 32 * u.cqTail fn q) r] := by
    have hc : c.out = u.out ++ [.completion fn q (u.cqBase fn q + 32 * u.cqTail fn q) r] := by
      rw [State.bump_out, State.advanceCq_out]
      rfl
    have hcd : d.out = c.out := by
      change (if isError status = true then c.bump F.CMQ_FAILED_COUNT fn else c).out = c.out
      split
      · exact State.bump_out ..
      · rfl
    rw [hcd, hc, hdrop]
  rw [if_neg (by rw [State.dropTaken_quiet]; simp [hq])]
  split
  · exact ⟨[], hd.trans (List.append_nil _).symm, .inl rfl, fun _ => rfl⟩
  · rename_i hirq
    rcases State.msix_out d fn (d.cqVector fn q) with h0 | h1
    · exact ⟨[], (h0.trans hd).trans (List.append_nil _).symm, .inl rfl, fun _ => rfl⟩
    · exact ⟨[.msix fn (d.cqVector fn q)], by rw [h1, hd], .inr ⟨_, rfl⟩, fun h => absurd h hirq⟩

theorem resultOf_eq (status result : Nat) (keep : Bool) :
    resultOf status result keep = if isError status = true ∧ status ≠ 0x607 ∧ keep = false then result % 16 else result := by
  simp only [resultOf, Bool.and_eq_true, bne_iff_ne, Bool.not_eq_true', and_assoc]

/-- Settles O12, by the record that `State.complete` sends. -/
theorem completionRecords : Obligations.CompletionRecord := by
  intro s h status result num keep hq
  obtain ⟨l, hout, hvec, hirq⟩ := State.complete_out (status := status) (result := result) (num := num) (keep := keep) hq
  refine ⟨_, l, rfl, ?_, hvec, hirq, State.complete_mem .., State.complete_sched .., State.complete_kv .., State.complete_net ..⟩
  rw [hout, ← resultOf_eq]
  rfl

/-! ### Events -/

section Event

variable {s : State} {fn code status detail pdk : Nat}

theorem State.event_quiet (h : s.quiet fn = true) : s.event fn code status detail pdk = s := if_pos h

/-- Whether the next record of the function's EQ will carry LOST. -/
def State.setLost (s : State) (fn : Nat) (b : Bool) : State :=
  { s with host := { s.host with lostEvent := tset false s.host.lostEvent [fn] b } }

theorem State.setLost_lostEvent (s : State) (fn : Nat) (b : Bool) : tget false (s.setLost fn b).host.lostEvent [fn] = b := tget_tset_self

theorem State.event_dropped (hq : s.quiet fn = false) (hfull : s.rd F.CMQ_EQ_CFG_EN fn = 0 ∨ s.eqHeld fn + 1 ≥ s.eqEntries fn) :
    s.event fn code status detail pdk = (s.bump F.CMQ_EQ_LOST_COUNT fn).setLost fn true := by
  unfold State.event
  rw [if_neg (by simp [hq]), if_pos hfull]
  rfl

/-- The record of an event that has room (R500). -/
def State.eventRec (s : State) (fn code status detail pdk : Nat) : List Byte :=
  eventRecord (s.rd F.CMQ_EQ_TAIL_PHASE fn) (b2n (tget false s.host.lostEvent [fn])) code status s.now
    (if fn = 0 then detail % 2 ^ 120 + pdk % 256 * 2 ^ 120 else detail)

/-- An event that has room goes out at the tail, which moves on, and LOST is told. -/
theorem State.event_sent (hq : s.quiet fn = false) (hroom : ¬ (s.rd F.CMQ_EQ_CFG_EN fn = 0 ∨ s.eqHeld fn + 1 ≥ s.eqEntries fn)) :
    (∃ l, (s.event fn code status detail pdk).out =
      s.out ++ [.event fn (s.rd F.CMQ_EQ_BASE_POINTER fn + 32 * s.rd F.CMQ_EQ_TAIL_INDEX fn) (s.eventRec fn code status detail pdk)] ++ l) ∧
    (s.event fn code status detail pdk).rd F.CMQ_EQ_TAIL_INDEX fn = (s.rd F.CMQ_EQ_TAIL_INDEX fn + 1) % s.eqEntries fn % 4096 ∧
    tget false (s.event fn code status detail pdk).host.lostEvent [fn] = false := by
  have hmsix (u : State) (v : Nat) : (∃ l, (u.msix fn v).out = u.out ++ l) ∧ (u.msix fn v).regs = u.regs ∧
      (u.msix fn v).host.lostEvent = u.host.lostEvent := by
    refine ⟨?_, State.msix_regs .., ?_⟩
    · rcases State.msix_out u fn v with h | h
      · exact ⟨[], by rw [h, List.append_nil]⟩
      · exact ⟨_, h⟩
    · unfold State.msix
      split <;> rfl
  unfold State.event
  rw [if_neg (by simp [hq]), if_neg hroom]
  extract_lets lost d t ph a _ b t' c e
  have he : e.out = a.out ∧ e.rd F.CMQ_EQ_TAIL_INDEX fn = t' % 4096 ∧ e.host = b.host := by
    by_cases ht : t' = 0
    · rw [show e = c.wr F.CMQ_EQ_TAIL_PHASE fn (1 - ph) from if_pos ht]
      exact ⟨rfl, (State.rd_wr_fld (by decide)).trans State.rd_wr_self, rfl⟩
    · rw [show e = c from if_neg ht]
      exact ⟨rfl, State.rd_wr_self, rfl⟩
  obtain ⟨hout, htail, hhost⟩ := he
  obtain ⟨⟨l, hl⟩, hregs, hlost⟩ := hmsix e (e.rd F.CMQ_EQ_CFG_VECTOR fn)
  refine ⟨⟨l, hl.trans (congrArg (· ++ l) hout)⟩, (State.rd_congr hregs ..).trans htail, ?_⟩
  rw [hlost, hhost]
  exact State.setLost_lostEvent a fn false

end Event

/-- Settles O13: an event is kept from a quiet function, dropped, or sent. -/
theorem eventRecords : Obligations.EventRecords := by
  refine fun s fn code status detail pdk => ⟨State.event_quiet, fun hq hfull => ?_, State.event_sent, State.event_mem .., State.event_taken ..,
    State.event_sched .., State.event_kv ..⟩
  rw [State.event_dropped hq hfull]
  exact ⟨State.bump_out .., State.rd_bump_self rfl (by decide), State.setLost_lostEvent ..⟩

end Sys2Proof.Machine
end

section
/-! PROOFS. Packets are taken, fences held and released, and a paddock is stopped (chapter 17, R486, R489, R494, R496 to R499). -/

-- Proofs side by side each take a thread with its stack: together they pass the bound on memory.
set_option Elab.async false

namespace Sys2Proof.Machine

/-! ### The first failing check -/

theorem firstStatus_zero_cons (l : List Nat) : firstStatus (0 :: l) = firstStatus l := rfl

theorem firstStatus_cons_ne {a : Nat} (h : a ≠ 0) (l : List Nat) : firstStatus (a :: l) = a := by
  simp [firstStatus, h]

theorem firstStatus_eq_zero {l : List Nat} : firstStatus l = 0 ↔ ∀ x ∈ l, x = 0 := by
  induction l with
  | nil => simp [firstStatus]
  | cons a l ih =>
    by_cases h : a = 0
    · subst h
      rw [firstStatus_zero_cons, ih]
      simp
    · rw [firstStatus_cons_ne h]
      simp [h]

theorem firstStatus_callStatus (x : Nat) : firstStatus [x, 0] = x := by
  by_cases h : x = 0
  · subst h
    rfl
  · exact firstStatus_cons_ne h _

theorem failIf_false (st : Nat) : failIf false st = 0 := rfl

/-- A command's own checks enter `goes` by their value alone. -/
theorem State.goes_of_status {s : State} {h : Hdr} {op status : Nat} (hgo : s.goes h op 0) (hst : status = 0) : s.goes h op status := by
  rw [hst]
  exact hgo

/-! ### Taking a packet -/

section Take

variable {s : State} {fn : Fin 17} {q : Fin 9} {hdr rest : Fetched}

/-- A ring whose head is at its tail holds nothing. -/
theorem ringHeld_self (i n : Nat) : ringHeld i i n = 0 := by
  rw [ringHeld, Nat.add_sub_cancel_left, Nat.mod_self]

theorem execPacketTake_none (h : s.sqOn fn.val q.val = false ∨ ringHeld (s.sqHead fn.val q.val) (s.sqTail fn.val q.val) (s.sqEntries fn.val q.val) = 0 ∨
    s.cqRoom fn.val q.val = false ∨ s.sqBlocked fn.val q.val = true ∨ s.deaf ⟨fn, q, 0, 0, false⟩ = true) :
    execPacketTake fn q hdr rest s = .next s := if_pos h

/-- A fenced queue is blocked (R494). -/
theorem State.sqBlocked_of_fenced (h : tget false s.host.fenced [fn.val, q.val] = true) : s.sqBlocked fn.val q.val = true := by
  simp [State.sqBlocked, h]

/-- The queue may be taken from: it is enabled, holds something, has room in its CQ, and neither a fence nor silence stops it. -/
structure State.Takes (s : State) (fn : Fin 17) (q : Fin 9) : Prop where
  on : s.sqOn fn.val q.val = true
  held : ringHeld (s.sqHead fn.val q.val) (s.sqTail fn.val q.val) (s.sqEntries fn.val q.val) ≠ 0
  room : s.cqRoom fn.val q.val = true
  free : s.sqBlocked fn.val q.val = false
  heard : s.deaf ⟨fn, q, 0, 0, false⟩ = false

theorem State.Takes.go (h : s.Takes fn q) : ¬ (s.sqOn fn.val q.val = false ∨
    ringHeld (s.sqHead fn.val q.val) (s.sqTail fn.val q.val) (s.sqEntries fn.val q.val) = 0 ∨
    s.cqRoom fn.val q.val = false ∨ s.sqBlocked fn.val q.val = true ∨ s.deaf ⟨fn, q, 0, 0, false⟩ = true) := by
  simp [h.on, h.held, h.room, h.free, h.heard]

theorem execPacketTake_hostError (h : s.Takes fn q) (hread : s.unitRead fn.val q.val (s.sqHead fn.val q.val) hdr = .hostError) :
    execPacketTake fn q hdr rest s = .next (s.badHeader fn q 0x414) := by
  unfold execPacketTake
  dsimp only
  rw [if_neg h.go, hread]

theorem execPacketTake_poison (h : s.Takes fn q) (hread : s.unitRead fn.val q.val (s.sqHead fn.val q.val) hdr = .poison) :
    execPacketTake fn q hdr rest s = .next (s.badHeader fn q 0x532) := by
  unfold execPacketTake
  dsimp only
  rw [if_neg h.go, hread]

variable {x : List Byte}

/-- A fence of queue `k` of function `f` holds, or is lifted (R494). -/
def State.setFenced (s : State) (f k : Nat) (b : Bool) : State :=
  { s with host := { s.host with fenced := tset false s.host.fenced [f, k] b } }

theorem State.setFenced_fenced (s : State) (f k : Nat) (b : Bool) : tget false (s.setFenced f k b).host.fenced [f, k] = b := tget_tset_self

/-- A whole packet is taken, unless its FENCE waits for an earlier command of its queue. -/
theorem execPacketTake_whole (h : s.Takes fn q) (hread : s.unitRead fn.val q.val (s.sqHead fn.val q.val) hdr = .ok x)
    (hwhole : fieldAt (fitBytes 64 x) 1 1 % 8 + 1 ≤ ringHeld (s.sqHead fn.val q.val) (s.sqTail fn.val q.val) (s.sqEntries fn.val q.val)) :
    execPacketTake fn q hdr rest s =
      if hasBit (fieldAt (fitBytes 64 x) 1 1) 3 ∧ s.takenIn fn.val q.val ≠ [] then
        .next (s.setFenced fn.val q.val true)
      else .next (s.takeUnits fn q (fieldAt (fitBytes 64 x) 1 1 % 8 + 1) (fitBytes 64 x) rest) := by
  unfold execPacketTake
  dsimp only
  rw [if_neg h.go, hread]
  exact if_neg (Nat.not_lt.2 hwhole)

end Take

/-- Settles O14: a queue that stops a packet by `execPacketTake_none`, a whole packet by its FENCE. -/
theorem packetTake : Obligations.PacketTake := by
  intro s fn q hdr rest
  refine ⟨fun h => execPacketTake_none ?_, fun h => execPacketTake_none (.inr (.inr (.inr (.inl (State.sqBlocked_of_fenced h))))),
    fun hon hheld hroom hfree hheard => ?_, fun k hne => if_neg hne, fun k hnil => ⟨_, if_pos hnil, State.setFenced_fenced s fn.val k.val false, rfl, rfl, rfl⟩⟩
  · rcases h with hoff | ⟨hempty, -⟩ | hfull | hblocked
    · exact .inl hoff
    · exact .inr (.inl (by rw [hempty, ringHeld_self]))
    · exact .inr (.inr (.inl hfull))
    · exact .inr (.inr (.inr (.inl hblocked)))
  · have htakes : s.Takes fn q := ⟨hon, hheld, hroom, hfree, hheard⟩
    refine ⟨execPacketTake_hostError htakes, execPacketTake_poison htakes, fun x hread hwhole => ⟨fun hfence hwait => ?_, fun hgo => ?_⟩⟩
    · exact ⟨_, (execPacketTake_whole htakes hread hwhole).trans (if_pos ⟨hfence, hwait⟩), State.setFenced_fenced .., rfl, rfl, rfl, rfl⟩
    · refine (execPacketTake_whole htakes hread hwhole).trans (if_neg fun h => ?_)
      exact hgo.elim (fun hno => by simp [hno] at h) h.2

/-! ### NOP, QUIESCE and ABORT -/

section Stop

variable {s : State} {h : Hdr} {us : Nat}

theorem execNopCommand_goes (hgo : s.goes h 0 0) : execNopCommand h s = .next (s.complete h 0) :=
  congrArg Host.Outcome.next (State.checked_goes hgo)

theorem execNopCommand_stops (hheard : s.deaf h = false) (hfatal : s.rd F.HIF_FATAL_FATAL 0 = 0) (hrec : s.trust.recovery = false)
    (hcall : s.callStatus h 0 ≠ 0) : execNopCommand h s = .next (s.complete h (s.callStatus h 0)) := by
  have hst := firstStatus_callStatus (s.callStatus h 0)
  refine congrArg Host.Outcome.next ((State.checked_stops hheard hfatal hrec (by rwa [hst])).trans ?_)
  rw [hst]

/-- The checks of a stopping command pass on a stoppable paddock (R496). -/
theorem State.stopStatus_zero {b : Bool} {st : Nat} (hb : b = false) (hstop : s.stoppable (paddockOf h) = true) :
    firstStatus [failIf b st, failIf (!s.stoppable (paddockOf h)) 0x301] = 0 := by
  rw [hb, hstop]
  rfl

theorem execQuiesce_goes (hus : us ≤ 1000000) (hgo : s.goes h opQuiesce 0) (hstop : s.stoppable (paddockOf h) = true) :
    execQuiesce h us s = .next (if s.pdkState (paddockOf h) = pdkActive then
      (s.clearPairs (vfOf (paddockOf h))).start h opQuiesce (some (.quiesce h us)) [s.now + 1000 * (if us = 0 then 100000 else us), 0]
      else s.complete h 0) :=
  congrArg Host.Outcome.next (State.checked_goes (State.goes_of_status hgo (State.stopStatus_zero (decide_eq_false (Nat.not_lt.2 hus)) hstop)))

theorem execQuiesceComplete_ends (hexec : s.executing h opQuiesce = true)
    (hend : s.takenOf (paddockOf h) = [] ∨ s.pdkState (paddockOf h) = pdkQuiesced) (hcid : h.cid ≠ 4096) :
    execQuiesceComplete h s =
      .next ((if s.pdkState (paddockOf h) = pdkActive then s.wr F.PDK_STATE_STATE (paddockOf h) pdkQuiesced else s).complete h 0
        (nth (s.progOf h) 1 * 16)) := by
  unfold execQuiesceComplete
  dsimp only
  rw [if_pos ⟨hexec, hend⟩, if_neg hcid]

theorem execQuiesceTimeout_aborts (hexec : s.executing h opQuiesce = true) (hcid : h.cid ≠ 4096) (hfirst : nth (s.progOf h) 2 = 0)
    (hlate : nth (s.progOf h) 0 ≤ s.now) (hleft : s.takenOf (paddockOf h) ≠ []) :
    execQuiesceTimeout h s =
      .next ((s.abortScope1 (paddockOf h)).1.setProg h [nth (s.progOf h) 0, (s.abortScope1 (paddockOf h)).2, 1]) :=
  if_pos ⟨hexec, hcid, hfirst, hlate, hleft⟩

theorem execAbort_goes {scope : Nat} (hscope : scope ≤ 1) (hgo : s.goes h opAbort 0) (hstop : s.stoppable (paddockOf h) = true) :
    execAbort h scope s = .next (if scope = 0 then (s.abort (paddockOf h) 0x607).start h opAbort (some (.abort h scope)) [0, 0]
      else (s.abortScope1 (paddockOf h)).1.start h opAbort (some (.abort h scope)) [1, (s.abortScope1 (paddockOf h)).2]) :=
  congrArg Host.Outcome.next (State.checked_goes (State.goes_of_status hgo (State.stopStatus_zero (decide_eq_false (Nat.not_lt.2 hscope)) hstop)))

end Stop

/-- Settles O15: each stopping command by what it does once its checks pass, and by what ends it. -/
theorem stoppingAPaddock : Obligations.StoppingAPaddock := by
  refine fun s h => ⟨execNopCommand_goes, execNopCommand_stops, fun us hus hgo hstop => ⟨fun hactive => ?_, fun hidle => ?_⟩,
    execQuiesceComplete_ends, execQuiesceTimeout_aborts, fun hgo hstop => ⟨execAbort_goes (Nat.zero_le 1) hgo hstop, execAbort_goes le_rfl hgo hstop⟩,
    fun hexec hended => if_pos ⟨hexec, hended⟩⟩
  · exact (execQuiesce_goes hus hgo hstop).trans (congrArg Host.Outcome.next (if_pos hactive))
  · exact (execQuiesce_goes hus hgo hstop).trans (congrArg Host.Outcome.next (if_neg hidle))

end Sys2Proof.Machine
end

section
/-! PROOFS. Host errors, configuration writes and the host link (chapter 16, R449, R455, R471, R478; chapter 20, R608). -/

-- Proofs side by side each take a thread with its stack: together they pass the bound on memory.
set_option Elab.async false

namespace Sys2Proof.Machine

/-- Rounds that each leave the state as it is leave it as it is. -/
theorem loopN_id {f : Nat → State → State} {s : State} : ∀ {n : Nat}, (∀ i < n, f i s = s) → loopN n f s = s
  | 0, _ => rfl
  | n + 1, hf => by
    rw [loopN_succ, loopN_id (fun i hi => hf i (Nat.lt_succ_of_lt hi)), hf n n.lt_succ_self]

/-! ### Host errors -/

/-- The fields of the record of a host error (R481). -/
def hifErrFlds : List Fld := [F.HIF_ERR0_VALID, F.HIF_ERR0_KIND, F.HIF_ERR0_WINDOW, F.HIF_ERR0_STATUS, F.HIF_ERR1_IOVA, F.HIF_ERR2_TIME]

theorem State.hifErr_onlyRegs (s : State) (fn kind window status iova : Nat) : OnlyRegs s (s.hifErr fn kind window status iova) hifErrFlds := by
  unfold State.hifErr
  refine onlyRegs_ite onlyRegs_refl ?_
  refine onlyRegs_wr (onlyRegs_wr (onlyRegs_wr (onlyRegs_wr (onlyRegs_wr (onlyRegs_wr onlyRegs_refl ?_) ?_) ?_) ?_) ?_) ?_ <;>
    simp [hifErrFlds]

/-- A failed host access as it is recorded, counted and reported (R471). -/
def State.hostError (s : State) (fn window status addr : Nat) : State :=
  ((s.hifErr fn 3 window status addr).bump F.HIF_HOST_ERR_COUNT fn).emit (.aer fn false)

section Error

variable {s : State} {fn window status addr : Nat}

theorem State.hostError_mem : (s.hostError fn window status addr).mem = s.mem :=
  (State.bump_mem ..).trans (State.hifErr_onlyRegs ..).mem

theorem State.hostError_sched : (s.hostError fn window status addr).sched = s.sched :=
  (State.bump_sched ..).trans (by rw [(State.hifErr_onlyRegs s fn 3 window status addr).1])

theorem State.hostError_taken : (s.hostError fn window status addr).taken = s.taken :=
  (State.bump_taken ..).trans (by rw [(State.hifErr_onlyRegs s fn 3 window status addr).1])

theorem State.hostError_count : (s.hostError fn window status addr).rd F.HIF_HOST_ERR_COUNT fn = min (s.rd F.HIF_HOST_ERR_COUNT fn + 1) maxCount := by
  refine (State.rd_bump_self rfl (by decide)).trans ?_
  rw [(State.hifErr_onlyRegs s fn 3 window status addr).2 _ _ _ (by decide)]

theorem State.hostError_out : Out.aer fn false ∈ (s.hostError fn window status addr).out :=
  List.mem_append_right _ (List.mem_singleton.2 rfl)

end Error

theorem execHostCompletionError_command {s : State} {window addr cid : Nat} {f : Fin 17} {q : Fin 9} {t : Taken}
    (hfind : s.taken.find? (fun t => t.h.fn == f && t.h.q == q && t.h.cid == cid) = some t) (hcopy : t.op ≠ opCopy) (hfill : t.op ≠ opFill)
    (hdump : t.op ≠ 0x51) :
    execHostCompletionError (.command f q cid) window addr s = .next ((s.hostError f.val window 0x414 addr).complete t.h 0x414) := by
  have htaken : ((((s.hifErr f.val 3 window 0x414 addr).bump F.HIF_HOST_ERR_COUNT f.val).emit (.aer f.val false)).taken).find?
      (fun t => t.h.fn == f && t.h.q == q && t.h.cid == cid) = some t := by
    rw [← hfind]
    exact congrArg (List.find? _) State.hostError_taken
  unfold execHostCompletionError
  dsimp only
  rw [htaken]
  exact congrArg Host.Outcome.next (if_neg (by simp [hcopy, hfill, hdump]))

/-! ### Configuration -/

theorem State.configWrite_item {s : State} {fn v : Nat} {item : CfgItem} (hn : item ≠ .numVfs) (he : item ≠ .vfEnable) :
    s.configWrite fn item v = (s.configItem fn item v).tdiError fn 3 := by
  cases item <;> first | rfl | contradiction

/-- VF Enable that takes no VF away sends no TDI to ERROR. -/
theorem State.configWrite_vfEnable {s : State} {fn v : Nat}
    (hkeep : ∀ i < 16, s.vfExists (i + 1) = true → (s.configItem fn .vfEnable v).vfExists (i + 1) = true) :
    s.configWrite fn .vfEnable v = s.configItem fn .vfEnable v :=
  loopN_id (fun i hi => if_neg (fun h => h.2 (hkeep i hi h.1)))

/-! ### The host link -/

section Link

variable {s : State} {speed width : Nat}

/-- The fields of the host link. -/
def linkFlds : List Fld := [F.HIF_LINK_SPEED, F.HIF_LINK_WIDTH, F.HIF_LINK_FLIT, F.HIF_LINK_LINK_IDE, F.CLK_STAT_LOCK]

theorem State.hostLink_onlyRegs (s : State) (speed width : Nat) : OnlyRegs s (s.hostLink speed width) linkFlds := by
  have h (u : State) (hu : OnlyRegs s u linkFlds) (f : Fld) (v : Nat) (hf : f ∈ linkFlds) : OnlyRegs s (u.wr f 0 v) linkFlds := onlyRegs_wr hu hf
  unfold State.hostLink
  refine onlyRegs_ite ?_ ?_
  all_goals exact h _ (h _ (h _ (h _ onlyRegs_refl _ _ (by simp [linkFlds])) _ _ (by simp [linkFlds])) _ _ (by simp [linkFlds])) _ _ (by simp [linkFlds])

/-- HIF_LINK's speed, width and flit mode do not depend on what follows them. -/
theorem State.hostLink_rd {g : Fld} (hide : g.id ≠ F.HIF_LINK_LINK_IDE.id) (hlock : g.id ≠ F.CLK_STAT_LOCK.id) :
    (s.hostLink speed width).rd g 0 =
      (((s.wr F.HIF_LINK_SPEED 0 speed).wr F.HIF_LINK_WIDTH 0 width).wr F.HIF_LINK_FLIT 0 (b2n (decide (6 ≤ speed)))).rd g 0 := by
  unfold State.hostLink
  dsimp only
  split
  · exact State.rd_wr_fld hide
  · exact State.rd_wr_fld hlock

theorem State.hostLink_speed : (s.hostLink speed width).rd F.HIF_LINK_SPEED 0 = speed % 16 := by
  rw [State.hostLink_rd (by decide) (by decide), State.rd_wr_fld (by decide), State.rd_wr_fld (by decide), State.rd_wr_self]
  rfl

theorem State.hostLink_width : (s.hostLink speed width).rd F.HIF_LINK_WIDTH 0 = width % 32 := by
  rw [State.hostLink_rd (by decide) (by decide), State.rd_wr_fld (by decide), State.rd_wr_self]
  rfl

theorem State.hostLink_flit : (s.hostLink speed width).rd F.HIF_LINK_FLIT 0 = if 6 ≤ speed then 1 else 0 := by
  rw [State.hostLink_rd (by decide) (by decide), State.rd_wr_self]
  by_cases h : 6 ≤ speed
  · rw [if_pos h, decide_eq_true h]
    rfl
  · rw [if_neg h, decide_eq_false h]
    rfl

theorem State.hostLink_down : (s.hostLink 0 width).rd F.HIF_LINK_LINK_IDE 0 = 0 := State.rd_wr_self

theorem execHostLinkRetrain_down : execHostLinkRetrain false speed width s = .next ((s.bump F.HIF_LINK_RETRAIN_COUNT 0).hostLink 0 0) := rfl

end Link

/-- Settles O19: a host error by what `hostError` records, a configuration write by its item, the link by HIF_LINK. -/
theorem hostLinkAndConfiguration : Obligations.HostLinkAndConfiguration := by
  refine fun s => ⟨fun window addr f q cid t => execHostCompletionError_command, fun window addr c cid =>
    ⟨_, rfl, State.hostError_count, State.hostError_mem, State.hostError_sched, State.hostError_out⟩, fun _ _ _ _ => rfl,
    fun fn item v hn he => congrArg Host.Outcome.next (State.configWrite_item hn he),
    fun fn item v hn he => congrArg Host.Outcome.next (State.configWrite_item hn he),
    fun v hkeep => congrArg Host.Outcome.next (State.configWrite_vfEnable hkeep),
    fun speed width hpos hspeed hwidth => ⟨_, rfl, ?_, ?_, State.hostLink_flit, ?_, ?_⟩,
    fun speed width => ⟨_, execHostLinkRetrain_down, State.hostLink_speed, State.hostLink_width, State.hostLink_down, ?_⟩⟩
  · exact State.hostLink_speed.trans (Nat.mod_eq_of_lt (Nat.lt_trans hspeed (by decide)))
  · exact State.hostLink_width.trans (Nat.mod_eq_of_lt hwidth)
  · exact ((State.hostLink_onlyRegs ..).2 _ _ _ (by decide)).trans (State.rd_bump_self rfl (by decide))
  · exact (State.hostLink_onlyRegs ..).mem.trans (State.bump_mem ..)
  · exact (State.hostLink_onlyRegs ..).mem.trans (State.bump_mem ..)

end Sys2Proof.Machine
end

section
/-! PROOFS. A frame of registers: the fields of a list read the same, whatever else an operation does. -/

-- Proofs side by side each take a thread with its stack: together they pass the bound on memory.
set_option Elab.async false

namespace Sys2Proof.Machine

/-- The registers that a completion can change: the queue's record of its commands and the counts of completions (R487, R491). -/
def doneFlds : List Fld := [F.CMQ_SQ_HEAD_OUTSTANDING, F.CMQ_CFG_IDLE, F.CMQ_PCQ_TAIL_INDEX, F.CMQ_PCQ_TAIL_PHASE, F.CMQ_CQ_TAIL_INDEX,
  F.CMQ_CQ_TAIL_PHASE, F.CMQ_DONE_OVF, F.CMQ_DONE_COUNT, F.CMQ_FAILED_OVF, F.CMQ_FAILED_COUNT]

/-- A change of registers after another one. -/
theorem OnlyRegs.andThen {s t u : State} {fs gs : List Fld} (h : OnlyRegs s t fs) (ht : OnlyRegs t u gs) (hsub : gs ⊆ fs) : OnlyRegs s u fs :=
  ⟨ht.1.trans (by rw [h.1]), fun g i j hg => (ht.2 g i j fun f hf => hg f (hsub hf)).trans (h.2 g i j hg)⟩

/-- The fields of `ks` read in `t` as they do in `s`. -/
def SameFlds (ks : List Fld) (s t : State) : Prop := ∀ g ∈ ks, ∀ i j : Nat, t.rd g i j = s.rd g i j

namespace SameFlds

variable {ks fs : List Fld} {s₀ s t : State} {f : Fld} {i j v n : Nat}

theorem refl (s : State) : SameFlds ks s s := fun _ _ _ _ => rfl

theorem trans (h : SameFlds ks s₀ s) (ht : SameFlds ks s t) : SameFlds ks s₀ t := fun g hg i j => (ht g hg i j).trans (h g hg i j)

/-- A change beside the registers. -/
theorem beside (h : SameFlds ks s₀ s) (ht : t.regs = s.regs) : SameFlds ks s₀ t := h.trans fun g _ => State.rd_congr ht g

theorem wr (h : SameFlds ks s₀ s) (hf : ∀ g ∈ ks, g.id ≠ f.id := by decide) : SameFlds ks s₀ (s.wr f i v j) :=
  h.trans fun g hg _ _ => State.rd_wr_fld (hf g hg)

theorem bump (h : SameFlds ks s₀ s) (hf : ∀ g ∈ ks, g.id ≠ f.id ∧ g.id ≠ f.id - 1 := by decide) : SameFlds ks s₀ (s.bump f i j n) :=
  h.trans fun g hg _ _ => State.rd_bump_fld (hf g hg).1 (hf g hg).2

theorem satAdd (h : SameFlds ks s₀ s) (hf : ∀ g ∈ ks, g.id ≠ f.id := by decide) : SameFlds ks s₀ (s.satAdd f i j n) := h.wr hf

theorem onlyRegs (h : SameFlds ks s₀ s) (ht : OnlyRegs s t fs) (hf : ∀ g ∈ ks, ∀ f ∈ fs, g.id ≠ f.id := by decide) : SameFlds ks s₀ t :=
  h.trans fun g hg i j => ht.2 g i j (hf g hg)

theorem ite {c : Prop} [Decidable c] (hs : SameFlds ks s₀ s) (ht : SameFlds ks s₀ t) : SameFlds ks s₀ (if c then s else t) := by
  split <;> assumption

theorem foldl {α : Type} {l : List α} {f : State → α → State} (h : SameFlds ks s₀ s) (hf : ∀ u x, SameFlds ks s₀ u → SameFlds ks s₀ (f u x)) :
    SameFlds ks s₀ (l.foldl f s) :=
  List.foldlRecOn (motive := SameFlds ks s₀) _ _ h fun u hu x _ => hf u x hu

theorem loopN {f : Nat → State → State} (h : SameFlds ks s₀ s) (hf : ∀ k u, SameFlds ks s₀ u → SameFlds ks s₀ (f k u)) :
    SameFlds ks s₀ (loopN n f s) :=
  h.foldl fun u k => hf k u

/-! ### Completions, events and starts -/

theorem event (h : SameFlds ks s₀ s) {fn code status detail pdk : Nat} (hf : ∀ g ∈ ks, ∀ f ∈ eventFlds, g.id ≠ f.id := by decide) :
    SameFlds ks s₀ (s.event fn code status detail pdk) :=
  h.trans fun g hg _ _ => State.event_rd (hf g hg)

theorem eventBoth (h : SameFlds ks s₀ s) {p code status detail : Nat} (hf : ∀ g ∈ ks, ∀ f ∈ eventFlds, g.id ≠ f.id := by decide) :
    SameFlds ks s₀ (s.eventBoth p code status detail) :=
  (h.event hf).event hf

theorem deviceError (h : SameFlds ks s₀ s) {cls unit addr status pdk : Nat} {masked : Bool}
    (hf : ∀ g ∈ ks, ∀ f ∈ eventFlds, g.id ≠ f.id := by decide) : SameFlds ks s₀ (s.deviceError cls masked unit addr status pdk) :=
  h.trans fun g hg _ _ => State.deviceError_rd (hf g hg)

theorem dropTaken (h : SameFlds ks s₀ s) {x : Hdr} (hf : ∀ g ∈ ks, ∀ f ∈ doneFlds, g.id ≠ f.id := by decide) : SameFlds ks s₀ (s.dropTaken x) :=
  h.trans fun g hg _ _ => State.dropTaken_rd (hf g hg F.CMQ_SQ_HEAD_OUTSTANDING (by simp [doneFlds])) (hf g hg F.CMQ_CFG_IDLE (by simp [doneFlds]))

theorem wrDone (h : SameFlds ks s₀ s) (hks : ∀ g ∈ ks, ∀ f ∈ doneFlds, g.id ≠ f.id) (hf : f ∈ doneFlds) : SameFlds ks s₀ (s.wr f i v j) :=
  h.wr fun g hg => hks g hg f hf

theorem advanceCq (h : SameFlds ks s₀ s) {fn q : Nat} (hf : ∀ g ∈ ks, ∀ f ∈ doneFlds, g.id ≠ f.id := by decide) :
    SameFlds ks s₀ (s.advanceCq fn q) := by
  unfold State.advanceCq
  exact ((h.wrDone hf (by simp [doneFlds])).wrDone hf (by simp [doneFlds])).ite ((h.wrDone hf (by simp [doneFlds])).wrDone hf (by simp [doneFlds]))

theorem complete (h : SameFlds ks s₀ s) {x : Hdr} {status result num : Nat} {keep : Bool} (hf : ∀ g ∈ ks, ∀ f ∈ doneFlds, g.id ≠ f.id := by decide) :
    SameFlds ks s₀ (s.complete x status result num keep) := by
  unfold State.complete
  extract_lets a fn q r b c d e
  have ha : SameFlds ks s₀ a := h.dropTaken hf
  have hb : SameFlds ks s₀ b := ha.beside rfl
  have hd : SameFlds ks s₀ d := (hb.advanceCq hf).bump fun g hg => ⟨hf g hg F.CMQ_DONE_COUNT (by simp [doneFlds]), hf g hg F.CMQ_DONE_OVF (by simp [doneFlds])⟩
  have he : SameFlds ks s₀ e :=
    (hd.bump fun g hg => ⟨hf g hg F.CMQ_FAILED_COUNT (by simp [doneFlds]), hf g hg F.CMQ_FAILED_OVF (by simp [doneFlds])⟩).ite hd
  exact ha.ite (he.ite (he.beside (State.msix_regs ..)))

theorem start (h : SameFlds ks s₀ s) {x : Hdr} {op : Nat} {cmd : Option Instr} {prog : List Nat}
    (hf : ∀ g ∈ ks, ∀ f ∈ doneFlds, g.id ≠ f.id := by decide) : SameFlds ks s₀ (s.start x op cmd prog) := by
  unfold State.start
  split
  · exact h.beside rfl
  · have ha : ∀ l, SameFlds ks s₀ { s with taken := l } := fun l => h.beside rfl
    exact (ha _).ite (((ha _).wrDone hf (by simp [doneFlds])).wrDone hf (by simp [doneFlds]))

theorem begun (h : SameFlds ks s₀ s) {x : Hdr} {op : Nat} {cmd : Instr} {rs : List HostRange}
    (hf : ∀ g ∈ ks, ∀ f ∈ doneFlds, g.id ≠ f.id := by decide) : SameFlds ks s₀ (s.begun x op cmd rs) := by
  unfold State.begun
  dsimp only
  split
  · exact h.start hf
  · exact (h.start hf).beside rfl

theorem abort (h : SameFlds ks s₀ s) {p cause : Nat} : SameFlds ks s₀ (s.abort p cause) := h.beside (State.abortWith_regs ..)

end SameFlds

end Sys2Proof.Machine
end

section
/-! PROOFS. The Mower, key rotation and the raw test mode (chapter 14, R415 to R431). -/

-- Proofs side by side each take a thread with its stack: together they pass the bound on memory.
set_option Elab.async false

namespace Sys2Proof.Machine

/-! ### What the Mower's errors leave alone -/

/-- The fields of the Mower's error record (R414, R423). -/
def mowErrFlds : List Fld := [F.MOW_ERR0_VALID, F.MOW_ERR0_KIND, F.MOW_ERR0_CHANNEL, F.MOW_ERR0_SOURCE, F.MOW_ERR0_CORE, F.MOW_ERR0_SYNDROME,
  F.MOW_ERR1_DPA, F.MOW_ERR2_TIME]

theorem State.mowErr_onlyRegs (s : State) (g kind src syndrome dpa : Nat) : OnlyRegs s (s.mowErr g kind src syndrome dpa) mowErrFlds := by
  unfold State.mowErr
  refine onlyRegs_ite onlyRegs_refl ?_
  refine onlyRegs_wr (onlyRegs_wr (onlyRegs_wr (onlyRegs_wr (onlyRegs_wr (onlyRegs_wr (onlyRegs_wr (onlyRegs_wr onlyRegs_refl
    ?_) ?_) ?_) ?_) ?_) ?_) ?_) ?_ <;> simp [mowErrFlds]

/-- The registers of the Mower's own progress (R417, R428, R434). -/
def mowFlds : List Fld := [F.MOW_STAT_ACTIVITY, F.MOW_STAT_SCRUB_LINE, F.MOW_STAT_P, F.MOW_LINES_OVF, F.MOW_LINES_COUNT, F.MOW_PATCHED_OVF,
  F.MOW_PATCHED_COUNT, F.MOW_PATCH_VALID, F.MOW_STAT_ROTATING]

/-- The Mower's progress, the stored bytes and the demand queues are the same. -/
structure MowFrame (s t : State) : Prop where
  flds : SameFlds mowFlds s t
  hbm : t.mem.hbm = s.mem.hbm
  demand : t.msys.demand = s.msys.demand

namespace MowFrame

variable {s₀ s t : State}

theorem refl (s : State) : MowFrame s s := ⟨.refl s, rfl, rfl⟩

theorem poisonSector (h : MowFrame s₀ s) (dpa : Nat) : MowFrame s₀ (s.poisonSector dpa) := ⟨h.flds.beside rfl, h.hbm, h.demand⟩

theorem markLine (h : MowFrame s₀ s) (g l : Nat) : MowFrame s₀ (s.markLine g l) := ⟨h.flds.beside rfl, h.hbm, h.demand⟩

theorem countCe (h : MowFrame s₀ s) (g l : Nat) : MowFrame s₀ (s.countCe g l) := by
  unfold State.countCe
  extract_lets n m a
  have ha : MowFrame s₀ a := ⟨h.flds.beside rfl, h.hbm, h.demand⟩
  split
  · exact h.markLine g l
  split
  · exact ha.markLine g l
  · exact ha

theorem bump (h : MowFrame s₀ s) {f : Fld} {i j n : Nat} (hf : ∀ g ∈ mowFlds, g.id ≠ f.id ∧ g.id ≠ f.id - 1 := by decide) :
    MowFrame s₀ (s.bump f i j n) :=
  ⟨h.flds.bump hf, (congrArg Mems.hbm (State.bump_mem ..)).trans h.hbm, (congrArg MemSys.demand (State.bump_msys ..)).trans h.demand⟩

theorem onlyRegs (h : MowFrame s₀ s) {fs : List Fld} (ht : OnlyRegs s t fs) (hf : ∀ g ∈ mowFlds, ∀ f ∈ fs, g.id ≠ f.id := by decide) :
    MowFrame s₀ t :=
  ⟨h.flds.onlyRegs ht hf, (congrArg Mems.hbm ht.mem).trans h.hbm, (congrArg MemSys.demand ht.msys).trans h.demand⟩

theorem mowErr (h : MowFrame s₀ s) (g kind src syndrome dpa : Nat) : MowFrame s₀ (s.mowErr g kind src syndrome dpa) :=
  h.onlyRegs (State.mowErr_onlyRegs ..)

theorem eventBoth (h : MowFrame s₀ s) (p code status detail : Nat) : MowFrame s₀ (s.eventBoth p code status detail) :=
  ⟨h.flds.eventBoth, (congrArg Mems.hbm (State.eventBoth_mem ..)).trans h.hbm, (congrArg MemSys.demand (State.eventBoth_msys ..)).trans h.demand⟩

theorem deviceError (h : MowFrame s₀ s) (cls : Nat) (masked : Bool) (unit addr status pdk : Nat) :
    MowFrame s₀ (s.deviceError cls masked unit addr status pdk) :=
  ⟨h.flds.deviceError, (congrArg Mems.hbm (State.deviceError_mem ..)).trans h.hbm, (congrArg MemSys.demand (State.deviceError_msys ..)).trans h.demand⟩

theorem foldl {α : Type} {l : List α} {f : State → α → State} (h : MowFrame s₀ s) (hf : ∀ u x, MowFrame s₀ u → MowFrame s₀ (f u x)) :
    MowFrame s₀ (l.foldl f s) :=
  List.foldlRecOn (motive := MowFrame s₀) _ _ h fun u hu x _ => hf u x hu

/-- An error that the Mower meets poisons, marks, counts and reports (R416, R419). -/
theorem mowErrors (h : MowFrame s₀ s) (line : Nat) (errs : List SecErr) (still : Nat → Bool) : MowFrame s₀ (s.mowErrors line errs still) := by
  refine h.foldl fun u e hu => ?_
  dsimp only
  split
  · exact ((((hu.poisonSector _).bump).mowErr ..).eventBoth ..).markLine .. |>.deviceError ..
  split
  · exact hu
  · exact ((hu.bump).countCe ..).deviceError ..

end MowFrame

theorem State.mowErrors_nil (s : State) (line : Nat) (still : Nat → Bool) : s.mowErrors line [] still = s := rfl

/-! ### Visits and scrubs -/

section Visit

variable {s u : State} {g : Fin 16} {l : Nat}

/-- The demand queue of a group. -/
def State.setDemand (s : State) (g : Nat) (q : List (Nat × Bool)) : State :=
  { s with msys := { s.msys with demand := tset [] s.msys.demand [g] q } }

theorem execMowerDemandVisit_visits {errs : List SecErr} {second : List Nat} {x : Bool} {rest : List (Nat × Bool)}
    (hq : tget [] s.msys.demand [g.val] = (l, x) :: rest) (hz : s.mowZeroing g.val = false) (hc : s.mowCopying g.val = false)
    (hadm : ∀ go, s.mowLine g.val 40 [0, g.val, l] go = go u) :
    execMowerDemandVisit g errs second s =
      .next (((u.setDemand g.val rest).mowActivity g.val mowScrub).mowErrors (g.val * groupBytes + 512 * l) errs (fun k => second.contains k)) := by
  simp only [execMowerDemandVisit, hq]
  rw [if_neg (by simp [hz, hc]), hadm]
  rfl

theorem mowerDemandVisit_scrubs {errs : List SecErr} {second : List Nat} {x : Bool} {rest : List (Nat × Bool)}
    (hq : tget [] s.msys.demand [g.val] = (l, x) :: rest) (hz : s.mowZeroing g.val = false) (hc : s.mowCopying g.val = false)
    (hadm : ∀ go, s.mowLine g.val 40 [0, g.val, l] go = go u) :
    ∃ t, execMowerDemandVisit g errs second s = .next t ∧ t.mem.hbm = u.mem.hbm ∧ tget [] t.msys.demand [g.val] = rest ∧
      t.rd F.MOW_STAT_ACTIVITY g.val = mowScrub := by
  have hframe := (MowFrame.refl ((u.setDemand g.val rest).mowActivity g.val mowScrub)).mowErrors (g.val * groupBytes + 512 * l) errs
    (fun k => second.contains k)
  refine ⟨_, execMowerDemandVisit_visits hq hz hc hadm, hframe.hbm, ?_, ?_⟩
  · rw [hframe.demand]
    exact tget_tset_self ..
  · rw [hframe.flds _ (by decide)]
    exact State.rd_wr_self

/-- The sixteen lines of a scrub: one of each channel of the group (R416). -/
def State.scrubRound (s : State) (g n : Nat) (errs : List (Fin 16 × SecErr)) (second : List (Nat × Nat)) : State :=
  loopN 16 (fun c s => s.mowErrors (dpaOfChannelLine g c n) ((errs.filter (fun e => e.1.val == c)).map (fun e => e.2))
    (fun k => second.contains (c, k))) s

theorem State.scrubRound_frame {s₀ : State} (h : MowFrame s₀ s) (n : Nat) (errs : List (Fin 16 × SecErr)) (second : List (Nat × Nat)) :
    MowFrame s₀ (s.scrubRound g n errs second) :=
  h.foldl fun _ _ hu => hu.mowErrors ..

theorem State.scrubRound_nil (n : Nat) (second : List (Nat × Nat)) : s.scrubRound g n [] second = s := loopN_id fun _ _ => rfl

theorem State.passDone_mem (g : Nat) : (s.passDone g).mem = s.mem := rfl

/-- The end of a pass writes its two registers. -/
theorem SameFlds.passDone {ks : List Fld} {s₀ : State} (h : SameFlds ks s₀ s) (g : Nat)
    (hf : ∀ k ∈ ks, k.id ≠ F.MOW_PASS_PASSES.id ∧ k.id ≠ F.MOW_PASS_LAST_PASS_MS.id := by decide) : SameFlds ks s₀ (s.passDone g) := by
  unfold State.passDone
  extract_lets a b
  have hb : SameFlds ks s₀ b := (h.satAdd fun k hk => (hf k hk).1).wr fun k hk => (hf k hk).2
  exact hb.beside rfl

theorem State.passDone_flds (g : Nat) : SameFlds mowFlds s (s.passDone g) := (SameFlds.refl s).passDone g

/-- The pointer of a scrub goes to the next line, or back to 0 with the pass counted (R416, R434). -/
def State.scrubNext (s : State) (g n : Nat) : State :=
  if n + 1 = channelLines then (s.wr F.MOW_STAT_SCRUB_LINE g 0).passDone g else s.wr F.MOW_STAT_SCRUB_LINE g (n + 1)

theorem execScrubLine_scrubs {errs : List (Fin 16 × SecErr)} {second : List (Nat × Nat)} {n : Nat} (hint : s.rd F.MOW_CFG_SCRUB_INTERVAL g.val ≠ 0)
    (hz : s.mowZeroing g.val = false) (hc : s.mowCopying g.val = false) (hd : s.mowDemanded g.val = false) (hr : s.mowRotating g.val = false)
    (hn : n = s.rd F.MOW_STAT_SCRUB_LINE g.val) (hadm : ∀ go, s.mowLine g.val 640 [1, g.val, n] go = go u) :
    execScrubLine g errs second s =
      .next ((((u.mowActivity g.val mowScrub).scrubRound g.val n errs second).bump F.MOW_LINES_COUNT g.val 0 16).scrubNext g.val n) := by
  unfold execScrubLine
  rw [if_neg (by simp [hint, hz, hc, hd, hr])]
  dsimp only
  rw [← hn, hadm]
  rfl

variable {n : Nat}

theorem State.scrubNext_mem : (s.scrubNext g n).mem = s.mem := (apply_ite State.mem ..).trans (ite_self _)

theorem State.scrubNext_lines : (s.scrubNext g n).rd F.MOW_LINES_COUNT g.val = s.rd F.MOW_LINES_COUNT g.val :=
  (apply_ite (fun t : State => t.rd F.MOW_LINES_COUNT g.val) ..).trans
    (ite_both ((State.passDone_flds _ _ (by decide) ..).trans (State.rd_wr_fld (by decide))) (State.rd_wr_fld (by decide)))

theorem State.scrubNext_last (hn : n + 1 = channelLines) : (s.scrubNext g n).rd F.MOW_STAT_SCRUB_LINE g.val = 0 := by
  rw [State.scrubNext, if_pos hn]
  exact (State.passDone_flds _ _ (by decide) ..).trans State.rd_wr_self

theorem State.scrubNext_next (hn : n + 1 < channelLines) : (s.scrubNext g n).rd F.MOW_STAT_SCRUB_LINE g.val = n + 1 := by
  rw [State.scrubNext, if_neg (Nat.ne_of_lt hn)]
  exact State.rd_wr_self.trans (Nat.mod_eq_of_lt (Nat.lt_trans hn (by decide)))

theorem scrubLine_scrubs {errs : List (Fin 16 × SecErr)} {second : List (Nat × Nat)} (hint : s.rd F.MOW_CFG_SCRUB_INTERVAL g.val ≠ 0)
    (hz : s.mowZeroing g.val = false) (hc : s.mowCopying g.val = false) (hd : s.mowDemanded g.val = false) (hr : s.mowRotating g.val = false)
    (hn : n = s.rd F.MOW_STAT_SCRUB_LINE g.val) (hadm : ∀ go, s.mowLine g.val 640 [1, g.val, n] go = go u) :
    ∃ t, execScrubLine g errs second s = .next t ∧ t.mem.hbm = u.mem.hbm ∧ (errs = [] → t.mem = u.mem) ∧
      t.rd F.MOW_LINES_COUNT g.val = min (u.rd F.MOW_LINES_COUNT g.val + 16) maxCount ∧
      (n + 1 = channelLines → t.rd F.MOW_STAT_SCRUB_LINE g.val = 0) ∧ (n + 1 < channelLines → t.rd F.MOW_STAT_SCRUB_LINE g.val = n + 1) := by
  have hframe := State.scrubRound_frame (g := g) (MowFrame.refl (u.mowActivity g.val mowScrub)) n errs second
  refine ⟨_, execScrubLine_scrubs hint hz hc hd hr hn hadm, ?_, ?_, ?_, State.scrubNext_last, State.scrubNext_next⟩
  · rw [State.scrubNext_mem, State.bump_mem]
    exact hframe.hbm
  · rintro rfl
    rw [State.scrubNext_mem, State.bump_mem, State.scrubRound_nil]
    rfl
  · rw [State.scrubNext_lines, State.rd_bump_self rfl (by decide), hframe.flds _ (by decide)]
    exact congrArg (fun c => min (c + 16) maxCount) (State.rd_wr_fld (by decide))

end Visit

/-! ### Patches -/

section Patch

variable {s u : State} {g : Fin 16} {l k : Nat}

/-- A line leaves the marked lines as its copy begins (R422). -/
def State.unmarkLine (s : State) (g l : Nat) : State :=
  { s with msys := { s.msys with marked := tset false s.msys.marked [g, l] false, ces := tset 0 s.msys.ces [g, l] 0 } }

/-- The spare that stood in for the line before has failed (R423). -/
def State.spareFails (s : State) (g ch dpa : Nat) : Option Nat → State
  | some j => ((s.wr F.MOW_PATCH_VALID 0 0 (patchIdx ch j)).wr F.MOW_PATCH_SPARE_FAILED 0 1 (patchIdx ch j)).mowErr g 4 srcMower 0 dpa
  | none => s

/-- Sectors of the copy that do not decode become poison (R422). -/
def State.poisonCopy (s : State) (dpa : Nat) (bad : List Nat) : State := bad.foldl (fun s b => s.poisonSector (dpa + 64 * (b % 8))) s

/-- The spare `k` stands in for the line, which joins the repair list (R422). -/
def State.patchIn (s : State) (g l ch cl k : Nat) : State :=
  ((((s.wr F.MOW_PATCH_VALID 0 1 (patchIdx ch k)).wr F.MOW_PATCH_LINE 0 cl (patchIdx ch k)).wr F.MOW_PATCH_CE 0 0 (patchIdx ch k)).bump
    F.MOW_PATCHED_COUNT g).addRepair g l

theorem execLinePatch_patches {bad : List Nat}
    (hl : (s.msys.marked.find? (fun e => e.1.head? == some g.val)).bind (fun e => e.1[1]?) = some l) (hz : s.mowZeroing g.val = false)
    (hadm : ∀ go, (s.mowActivity g.val mowCopy).mowLine g.val 80 [2, g.val, l] go = go u)
    (hk : (List.range 16).find? (fun k => u.patchFree (channelOf (g.val * groupBytes + 512 * l)) k) = some k) :
    execLinePatch g bad s = .next ((((u.unmarkLine g.val l).spareFails g.val (channelOf (g.val * groupBytes + 512 * l)) (g.val * groupBytes + 512 * l)
      ((u.unmarkLine g.val l).patchOf (channelOf (g.val * groupBytes + 512 * l)) (channelLineOf (g.val * groupBytes + 512 * l)))).poisonCopy
        (g.val * groupBytes + 512 * l) bad).patchIn g.val l (channelOf (g.val * groupBytes + 512 * l)) (channelLineOf (g.val * groupBytes + 512 * l)) k) := by
  have hfree : (List.range 16).find? (fun k => (u.unmarkLine g.val l).patchFree (channelOf (g.val * groupBytes + 512 * l)) k) = some k := hk
  simp only [execLinePatch, hl]
  rw [if_neg (by simp [hz]), hadm]
  refine congrArg Host.Outcome.next ?_
  simp only [State.unmarkLine] at hfree ⊢
  rw [hfree]
  cases State.patchOf _ _ _ <;> rfl

variable {ch cl dpa : Nat}

theorem State.spareFails_onlyRegs (s : State) (g ch dpa : Nat) (o : Option Nat) :
    OnlyRegs s (s.spareFails g ch dpa o) (F.MOW_PATCH_VALID :: F.MOW_PATCH_SPARE_FAILED :: mowErrFlds) := by
  cases o with
  | none => exact onlyRegs_refl
  | some j => exact (onlyRegs_wr (onlyRegs_wr onlyRegs_refl (by simp)) (by simp)).andThen (State.mowErr_onlyRegs ..) (by simp)

theorem State.poisonCopy_frame (s : State) (dpa : Nat) (bad : List Nat) :
    (s.poisonCopy dpa bad).mem.hbm = s.mem.hbm ∧ (s.poisonCopy dpa bad).msys = s.msys ∧ (s.poisonCopy dpa bad).regs = s.regs := by
  refine List.foldlRecOn (motive := fun t : State => t.mem.hbm = s.mem.hbm ∧ t.msys = s.msys ∧ t.regs = s.regs) _ _ ⟨rfl, rfl, rfl⟩ ?_
  exact fun t ht _ _ => ht

theorem State.addRepair_mem (s : State) (g l : Nat) : (s.addRepair g l).mem = s.mem := (apply_ite State.mem ..).trans (ite_self _)

theorem State.addRepair_marked (s : State) (g l : Nat) : (s.addRepair g l).msys.marked = s.msys.marked :=
  (apply_ite (fun t : State => t.msys.marked) ..).trans (ite_self _)

theorem State.addRepair_flds (s : State) (g l : Nat) : SameFlds mowFlds s (s.addRepair g l) :=
  (SameFlds.refl s).ite (((SameFlds.refl s).beside rfl).satAdd)

theorem State.patchIn_mem : (s.patchIn g l ch cl k).mem = s.mem := (State.addRepair_mem ..).trans (State.bump_mem ..)

theorem State.patchIn_marked : (s.patchIn g l ch cl k).msys.marked = s.msys.marked :=
  (State.addRepair_marked ..).trans (congrArg MemSys.marked (State.bump_msys ..))

theorem State.patchIn_valid : (s.patchIn g l ch cl k).rd F.MOW_PATCH_VALID 0 (patchIdx ch k) = 1 := by
  refine (State.addRepair_flds _ _ _ _ (by decide) _ _).trans ((State.rd_bump_fld (by decide) (by decide)).trans ?_)
  exact (State.rd_wr_fld (by decide)).trans ((State.rd_wr_fld (by decide)).trans State.rd_wr_self)

theorem State.patchIn_count : (s.patchIn g l ch cl k).rd F.MOW_PATCHED_COUNT g.val = min (s.rd F.MOW_PATCHED_COUNT g.val + 1) maxCount := by
  refine (State.addRepair_flds _ _ _ _ (by decide) _ _).trans ((State.rd_bump_self rfl (by decide)).trans ?_)
  rw [State.rd_wr_fld (by decide), State.rd_wr_fld (by decide), State.rd_wr_fld (by decide)]

theorem linePatch_patches {bad : List Nat}
    (hl : (s.msys.marked.find? (fun e => e.1.head? == some g.val)).bind (fun e => e.1[1]?) = some l) (hz : s.mowZeroing g.val = false)
    (hadm : ∀ go, (s.mowActivity g.val mowCopy).mowLine g.val 80 [2, g.val, l] go = go u)
    (hk : (List.range 16).find? (fun k => u.patchFree (channelOf (g.val * groupBytes + 512 * l)) k) = some k) :
    ∃ t, execLinePatch g bad s = .next t ∧ t.mem.hbm = u.mem.hbm ∧ tget false t.msys.marked [g.val, l] = false ∧
      t.rd F.MOW_PATCH_VALID 0 (patchIdx (channelOf (g.val * groupBytes + 512 * l)) k) = 1 ∧
      t.rd F.MOW_PATCHED_COUNT g.val = min (u.rd F.MOW_PATCHED_COUNT g.val + 1) maxCount := by
  refine ⟨_, execLinePatch_patches hl hz hadm hk, ?_, ?_, State.patchIn_valid, ?_⟩
  · rw [State.patchIn_mem, (State.poisonCopy_frame ..).1, (State.spareFails_onlyRegs ..).mem]
    rfl
  · rw [State.patchIn_marked, (State.poisonCopy_frame ..).2.1, (State.spareFails_onlyRegs ..).msys]
    exact tget_tset_self (d := false) (v := false) ..
  · rw [State.patchIn_count, State.rd_congr (State.poisonCopy_frame ..).2.2, (State.spareFails_onlyRegs ..).2 _ _ _ (by decide)]
    rfl

end Patch

/-! ### Key rotation -/

section Rekey

variable {s u : State} {g : Fin 16} {l : Nat}

theorem execRekeyLine_rekeys {errs : List SecErr} {second : List Nat} (hl : l = s.rd F.MOW_STAT_P g.val) (hr : s.mowRotating g.val = true)
    (hlt : l < groupLines) (hz : s.mowZeroing g.val = false) (hc : s.mowCopying g.val = false) (hd : s.mowDemanded g.val = false)
    (hadm : ∀ go, s.mowLine g.val 80 [3, g.val, l] go = go u) :
    execRekeyLine g errs second s = .next ((((u.mowActivity g.val mowRekey).mowErrors (g.val * groupBytes + 512 * l) errs
      (fun k => second.contains k)).bump F.MOW_LINES_COUNT g.val).wr F.MOW_STAT_P g.val (l + 1)) := by
  unfold execRekeyLine
  dsimp only
  rw [← hl, if_neg (by simp [hr, hlt, hz, hc, hd]), hadm]

theorem rekeyLine_rekeys {errs : List SecErr} {second : List Nat} (hl : l = s.rd F.MOW_STAT_P g.val) (hr : s.mowRotating g.val = true)
    (hlt : l < groupLines) (hz : s.mowZeroing g.val = false) (hc : s.mowCopying g.val = false) (hd : s.mowDemanded g.val = false)
    (hadm : ∀ go, s.mowLine g.val 80 [3, g.val, l] go = go u) :
    ∃ t, execRekeyLine g errs second s = .next t ∧ t.mem.hbm = u.mem.hbm ∧ t.rd F.MOW_STAT_P g.val = l + 1 ∧
      t.rd F.MOW_LINES_COUNT g.val = min (u.rd F.MOW_LINES_COUNT g.val + 1) maxCount := by
  have hframe := (MowFrame.refl (u.mowActivity g.val mowRekey)).mowErrors (g.val * groupBytes + 512 * l) errs (fun k => second.contains k)
  refine ⟨_, execRekeyLine_rekeys hl hr hlt hz hc hd hadm, ?_, ?_, ?_⟩
  · exact (congrArg Mems.hbm (State.bump_mem ..)).trans hframe.hbm
  · exact State.rd_wr_self.trans (Nat.mod_eq_of_lt (Nat.lt_of_le_of_lt hlt (by decide)))
  · rw [State.rd_wr_fld (by decide), State.rd_bump_self rfl (by decide), hframe.flds _ (by decide)]
    exact congrArg (fun c => min (c + 1) maxCount) (State.rd_wr_fld (by decide))

/-- KEY_ROTATE's new key and the pass from line 0 (R428 step 1). -/
def State.rotate (s : State) (p : Nat) : State :=
  let a := s.newKey p (1 - s.rd F.MOW_STAT_ACTIVE_SLOT p)
  let b : State := { a with msys := { a.msys with passStart := tset 0 a.msys.passStart [p] a.now } }
  ((b.wr F.MOW_STAT_ROTATING p 1).wr F.MOW_STAT_P p 0).mowActivity p mowRekey

variable {p : Nat}

theorem State.rotate_mem : (s.rotate p).mem = s.mem := rfl

theorem State.rotate_keyIds : tget 0 (s.rotate p).msys.keyIds [p] = tget 0 s.msys.keyIds [p] + 1 :=
  tget_tset_self (d := 0) (v := tget 0 s.msys.keyIds [p] + 1)

theorem State.rotate_rotating : (s.rotate p).rd F.MOW_STAT_ROTATING p = 1 :=
  (State.rd_wr_fld (by decide)).trans ((State.rd_wr_fld (by decide)).trans State.rd_wr_self)

theorem State.rotate_pointer : (s.rotate p).rd F.MOW_STAT_P p = 0 := (State.rd_wr_fld (by decide)).trans State.rd_wr_self

theorem State.rotate_activity : (s.rotate p).rd F.MOW_STAT_ACTIVITY p = mowRekey := State.rd_wr_self

theorem execKeyRotate_rotates {h : Hdr} (hgo : s.goes h opKeyRotate (firstStatus [failIf (h.fn.val == 0 && s.tdiLocked (paddockOf h)) 0x720,
      failIf (s.pdkState (paddockOf h) = pdkFree || s.pdkState (paddockOf h) = pdkHandover || s.pdkState (paddockOf h) = pdkOffline) 0x711,
      failIf (s.mowRotating (paddockOf h)) 0x710])) :
    execKeyRotate h s = .next ((s.start h opKeyRotate (some (.keyRotate h)) [s.now, paddockOf h]).rotate (paddockOf h)) :=
  congrArg Host.Outcome.next (State.checked_goes hgo)

/-! ### The end of a rotation -/

/-- What the end of a rotation leaves behind (R428). -/
def rekeyedFlds : List Fld := [F.MOW_STAT_ACTIVE_SLOT, F.MOW_KEYID_KEYID0, F.MOW_KEYID_KEYID1, F.MOW_STAT_ROTATING, F.MOW_ROTATIONS_OVF,
  F.MOW_ROTATIONS_COUNT]

/-- The slots change places and the rotation is counted (R428 steps 3 and 4). -/
def State.swapKeys (s : State) (g old : Nat) : State :=
  (((((s.wr F.MOW_STAT_ACTIVE_SLOT g (1 - old)).wr (keyIdFld old) g 0).wr F.MOW_STAT_ROTATING g 0).wr F.MOW_STAT_P g 0).bump F.MOW_ROTATIONS_COUNT g)

theorem State.swapKeys_mem {g old : Nat} : (s.swapKeys g old).mem = s.mem := State.bump_mem ..

theorem execRekeyComplete_ends (hr : s.mowRotating g.val = true) (hp : s.rd F.MOW_STAT_P g.val = groupLines) :
    ∃ t, execRekeyComplete g s = .next t ∧ SameFlds rekeyedFlds (s.swapKeys g.val (s.rd F.MOW_STAT_ACTIVE_SLOT g.val)) t ∧ t.mem = s.mem := by
  unfold execRekeyComplete
  rw [if_neg (by simp [hr, hp])]
  extract_lets old id a b c
  have hc : SameFlds rekeyedFlds b c := (((SameFlds.refl b).passDone g.val).wr).wr
  have hmem : c.mem = s.mem := (State.wr_mem ..).trans ((State.wr_mem ..).trans ((State.passDone_mem ..).trans State.swapKeys_mem))
  change SameFlds rekeyedFlds (s.swapKeys g.val old) c at hc
  clear_value c
  split
  · exact ⟨_, rfl, hc.complete, (State.complete_mem ..).trans hmem⟩
  · exact ⟨_, rfl, hc, hmem⟩

variable {old : Nat}

theorem State.swapKeys_slot : (s.swapKeys g old).rd F.MOW_STAT_ACTIVE_SLOT g.val = 1 - old := by
  have hkey : F.MOW_STAT_ACTIVE_SLOT.id ≠ (keyIdFld old).id := by
    unfold keyIdFld
    split <;> decide
  refine (State.rd_bump_fld (by decide) (by decide)).trans ((State.rd_wr_fld (by decide)).trans ((State.rd_wr_fld (by decide)).trans ?_))
  exact (State.rd_wr_fld hkey).trans (State.rd_wr_self.trans (Nat.mod_eq_of_lt (Nat.lt_of_le_of_lt (Nat.sub_le 1 old) (by decide))))

theorem State.swapKeys_key : (s.swapKeys g old).rd (keyIdFld old) g.val = 0 := by
  obtain hkey | hkey : keyIdFld old = F.MOW_KEYID_KEYID0 ∨ keyIdFld old = F.MOW_KEYID_KEYID1 := by
    unfold keyIdFld
    split <;> simp
  all_goals
    unfold State.swapKeys
    rw [hkey, State.rd_bump_fld (by decide) (by decide), State.rd_wr_fld (by decide), State.rd_wr_fld (by decide), State.rd_wr_self]
    rfl

theorem State.swapKeys_rotating : (s.swapKeys g old).rd F.MOW_STAT_ROTATING g.val = 0 :=
  (State.rd_bump_fld (by decide) (by decide)).trans ((State.rd_wr_fld (by decide)).trans State.rd_wr_self)

theorem State.swapKeys_count : (s.swapKeys g old).rd F.MOW_ROTATIONS_COUNT g.val = min (s.rd F.MOW_ROTATIONS_COUNT g.val + 1) maxCount := by
  have hkey : F.MOW_ROTATIONS_COUNT.id ≠ (keyIdFld old).id := by
    unfold keyIdFld
    split <;> decide
  refine (State.rd_bump_self rfl (by decide)).trans ?_
  rw [State.rd_wr_fld (by decide), State.rd_wr_fld (by decide), State.rd_wr_fld hkey, State.rd_wr_fld (by decide)]

theorem rekeyComplete_swaps (hr : s.mowRotating g.val = true) (hp : s.rd F.MOW_STAT_P g.val = groupLines) :
    ∃ t, execRekeyComplete g s = .next t ∧ t.mem = s.mem ∧ t.rd F.MOW_STAT_ACTIVE_SLOT g.val = 1 - s.rd F.MOW_STAT_ACTIVE_SLOT g.val ∧
      t.rd (keyIdFld (s.rd F.MOW_STAT_ACTIVE_SLOT g.val)) g.val = 0 ∧ t.rd F.MOW_STAT_ROTATING g.val = 0 ∧
      t.rd F.MOW_ROTATIONS_COUNT g.val = min (s.rd F.MOW_ROTATIONS_COUNT g.val + 1) maxCount := by
  obtain ⟨t, hexec, hflds, hmem⟩ := execRekeyComplete_ends hr hp
  have hkey : keyIdFld (s.rd F.MOW_STAT_ACTIVE_SLOT g.val) ∈ rekeyedFlds := by
    unfold keyIdFld
    split <;> simp [rekeyedFlds]
  exact ⟨t, hexec, hmem, (hflds _ (by simp [rekeyedFlds]) ..).trans (State.swapKeys_slot), (hflds _ hkey ..).trans State.swapKeys_key,
    (hflds _ (by simp [rekeyedFlds]) ..).trans State.swapKeys_rotating, (hflds _ (by simp [rekeyedFlds]) ..).trans State.swapKeys_count⟩

end Rekey

/-! ### Raw test mode -/

section Raw

variable {s : State} {h : Hdr} {ch tline sector check out : Nat}

/-- A test sector's data and check bits. -/
def State.setRaw (s : State) (ch tline sector : Nat) (x : List Byte × Nat) : State :=
  { s with msys := { s.msys with raw := tset none s.msys.raw [ch, tline, sector] (some x) } }

theorem State.rawSector_congr {t : State} (hm : t.msys = s.msys) (hf : t.free = s.free) : t.rawSector ch tline sector = s.rawSector ch tline sector := by
  unfold State.rawSector
  rw [hm, hf]

theorem State.rawSector_setRaw {t : State} {x : List Byte × Nat} (hm : t.msys = (s.setRaw ch tline sector x).msys) :
    t.rawSector ch tline sector = x := by
  unfold State.rawSector
  rw [hm]
  exact congrArg (Option.getD · _) (tget_tset_self (d := none) (v := some x))

theorem execMemRawWrite_stores {data : List Byte} (hgo : s.goes h opMemRawWrite (rawStatus s ch tline sector)) :
    execMemRawWrite h ch tline sector check data s = .next (((s.setRaw ch tline sector ((data ++ List.replicate 64 0).take 64, check % 2 ^ 32)).start h
      opMemRawWrite (some (.memRawWrite h ch tline sector check data))).complete h 0) :=
  congrArg Host.Outcome.next (State.checked_goes hgo)

theorem State.begun_rawSector {op : Nat} {cmd : Instr} {rs : List HostRange} :
    (s.begun h op cmd rs).rawSector ch tline sector = s.rawSector ch tline sector :=
  State.rawSector_congr ((apply_ite State.msys ..).trans (ite_both (State.start_msys ..) (State.start_msys ..)))
    ((apply_ite State.free ..).trans (ite_both (State.start_free ..) (State.start_free ..)))

theorem execMemRawRead_reads (hgo : s.goes h opMemRawRead (firstStatus [rawStatus s ch tline sector, failIf (out % 16 != 0) 0x291,
      failIf (ptrTag out != 1) 0x401, s.ptrStatus h.fn.val 0 out 144 true]))
    (hr : s.untranslated h [⟨out, 144, true⟩] ∨ s.translated h [⟨out, 144, true⟩]) {x : List Byte × Nat} (hx : s.rawSector ch tline sector = x) :
    execMemRawRead h ch tline sector out s =
      .next ((((s.begun h opMemRawRead (.memRawRead h ch tline sector out) [⟨out, 144, true⟩]).tick).ptrWrite h.fn.val 0 out (rawRecord x.1 x.2)).complete h 0
        ((sectorOutcome x.1 x.2).1 * 2 ^ 16 + (sectorOutcome x.1 x.2).2 * 2 ^ 24)) := by
  unfold execMemRawRead
  rw [State.checked_goes hgo, State.gate_begun hr, State.begun_rawSector, hx]

end Raw

/-- Settles O37: each visit by its equation and what the Mower's errors leave alone, the rotation by its two ends. -/
theorem theMower : Obligations.TheMower := by
  refine fun s => ⟨fun g errs second l x rest hq hz hc u hadm => mowerDemandVisit_scrubs hq hz hc hadm,
    fun g errs second hint hz hc hd hr u n hn hadm => scrubLine_scrubs hint hz hc hd hr hn hadm,
    fun g bad l k hl hz u hadm hk => linePatch_patches hl hz hadm hk,
    fun g errs second l hl hr hlt hz hc hd u hadm => rekeyLine_rekeys hl hr hlt hz hc hd hadm,
    fun h hgo => ⟨_, execKeyRotate_rotates hgo, ?_, State.rotate_rotating, State.rotate_pointer, State.rotate_activity, ?_⟩,
    fun g hr hp _ => rekeyComplete_swaps hr hp, fun g hp => if_pos (.inr hp),
    fun h ch tline sector check data hgo => ⟨_, execMemRawWrite_stores hgo, ?_, State.rawSector_setRaw (s := s) ?_⟩,
    fun h ch tline sector out hgo hr x hx => execMemRawRead_reads hgo hr hx⟩
  · exact State.rotate_mem.trans (State.start_mem ..)
  · rw [State.rotate_keyIds, State.start_msys]
  · exact (State.complete_mem ..).trans (State.start_mem ..)
  · exact (State.complete_msys ..).trans (State.start_msys ..)

end Sys2Proof.Machine
end

section
/-! PROOFS. The frame of completions, events, aborts and stops: what they leave alone beside the registers, and which registers. -/

-- Proofs side by side each take a thread with its stack: together they pass the bound on memory.
set_option Elab.async false

namespace Sys2Proof.Machine

/-- No field of `ks` is one of `fs`. -/
abbrev Apart (ks fs : List Fld) : Prop := ∀ g ∈ ks, ∀ f ∈ fs, g.id ≠ f.id

theorem Apart.mono {ks fs gs : List Fld} (h : Apart ks fs) (hsub : gs ⊆ fs) : Apart ks gs := fun g hg f hf => h g hg f (hsub hf)

/-- What the end of commands, operations and messages leaves alone: the memories, the ports, the context store, the memory system, faults,
the root of trust, handovers, dumps, pins and the free values. -/
def State.base (s : State) : Mems × Tbl Port × Kv × MemSys × Rel × Trust × Tbl (Option Hand) × Tbl (Option Dump) × Pins × Nat :=
  (s.mem, s.net.ports, s.kv, s.msys, s.rel, s.trust, s.hand, s.dumps, s.pins, s.free)

/-- The fields of `ks` and what `State.base` names are the same. -/
structure BaseFrame (ks : List Fld) (s t : State) : Prop where
  flds : SameFlds ks s t
  base : t.base = s.base

namespace BaseFrame

variable {ks : List Fld} {s₀ s t : State} {f : Fld} {i j v n : Nat}

theorem refl (s : State) : BaseFrame ks s s := ⟨.refl s, rfl⟩

theorem trans (h : BaseFrame ks s₀ s) (ht : BaseFrame ks s t) : BaseFrame ks s₀ t := ⟨h.flds.trans ht.flds, ht.base.trans h.base⟩

theorem rd (h : BaseFrame ks s t) {g : Fld} (hg : g ∈ ks) (i j : Nat) : t.rd g i j = s.rd g i j := h.flds g hg i j

theorem mem (h : BaseFrame ks s t) : t.mem = s.mem := congrArg (·.1) h.base
theorem ports (h : BaseFrame ks s t) : t.net.ports = s.net.ports := congrArg (·.2.1) h.base
theorem kv (h : BaseFrame ks s t) : t.kv = s.kv := congrArg (·.2.2.1) h.base
theorem msys (h : BaseFrame ks s t) : t.msys = s.msys := congrArg (·.2.2.2.1) h.base
theorem rel (h : BaseFrame ks s t) : t.rel = s.rel := congrArg (·.2.2.2.2.1) h.base
theorem trust (h : BaseFrame ks s t) : t.trust = s.trust := congrArg (·.2.2.2.2.2.1) h.base
theorem hand (h : BaseFrame ks s t) : t.hand = s.hand := congrArg (·.2.2.2.2.2.2.1) h.base
theorem dumps (h : BaseFrame ks s t) : t.dumps = s.dumps := congrArg (·.2.2.2.2.2.2.2.1) h.base
theorem pins (h : BaseFrame ks s t) : t.pins = s.pins := congrArg (·.2.2.2.2.2.2.2.2.1) h.base
theorem free (h : BaseFrame ks s t) : t.free = s.free := congrArg (·.2.2.2.2.2.2.2.2.2) h.base

theorem portOf (h : BaseFrame ks s t) (q : Nat) : t.portOf q = s.portOf q := congrArg (tget port0 · [q]) h.ports

/-- A change beside the registers and the base. -/
theorem beside (h : BaseFrame ks s₀ s) (hr : t.regs = s.regs) (hb : t.base = s.base) : BaseFrame ks s₀ t :=
  ⟨h.flds.beside hr, hb.trans h.base⟩

theorem wr (h : BaseFrame ks s₀ s) (hf : ∀ g ∈ ks, g.id ≠ f.id := by decide) : BaseFrame ks s₀ (s.wr f i v j) := ⟨h.flds.wr hf, h.base⟩

/-- A write of one of the fields `fs`. -/
theorem wrOf {fs : List Fld} (h : BaseFrame ks s₀ s) (hks : Apart ks fs) (hf : f ∈ fs) : BaseFrame ks s₀ (s.wr f i v j) :=
  h.wr fun g hg => hks g hg f hf

theorem onlyRegs {fs : List Fld} (h : BaseFrame ks s₀ s) (ht : OnlyRegs s t fs) (hf : Apart ks fs := by decide) : BaseFrame ks s₀ t :=
  ⟨h.flds.onlyRegs ht hf, (congrArg State.base ht.1).trans h.base⟩

theorem bump (h : BaseFrame ks s₀ s) (hf : ∀ g ∈ ks, g.id ≠ f.id ∧ g.id ≠ f.id - 1 := by decide) : BaseFrame ks s₀ (s.bump f i j n) :=
  ⟨h.flds.bump hf, by simpa [State.base] using h.base⟩

theorem ite {c : Prop} [Decidable c] (hs : BaseFrame ks s₀ s) (ht : BaseFrame ks s₀ t) : BaseFrame ks s₀ (if c then s else t) := by
  split <;> assumption

theorem foldl {α : Type} {l : List α} {f : State → α → State} (h : BaseFrame ks s₀ s) (hf : ∀ u x, BaseFrame ks s₀ u → BaseFrame ks s₀ (f u x)) :
    BaseFrame ks s₀ (l.foldl f s) :=
  List.foldlRecOn (motive := BaseFrame ks s₀) _ _ h fun u hu x _ => hf u x hu

theorem loopN {f : Nat → State → State} (h : BaseFrame ks s₀ s) (hf : ∀ k u, BaseFrame ks s₀ u → BaseFrame ks s₀ (f k u)) :
    BaseFrame ks s₀ (loopN n f s) :=
  h.foldl fun u k => hf k u

/-! ### Completions, events and starts -/

theorem event (h : BaseFrame ks s₀ s) {fn code status detail pdk : Nat} (hf : Apart ks eventFlds := by decide) :
    BaseFrame ks s₀ (s.event fn code status detail pdk) :=
  ⟨h.flds.event hf, by simpa [State.base] using h.base⟩

theorem eventBoth (h : BaseFrame ks s₀ s) {p code status detail : Nat} (hf : Apart ks eventFlds := by decide) :
    BaseFrame ks s₀ (s.eventBoth p code status detail) := (h.event hf).event hf

theorem deviceError (h : BaseFrame ks s₀ s) {cls unit addr status pdk : Nat} {masked : Bool} (hf : Apart ks eventFlds := by decide) :
    BaseFrame ks s₀ (s.deviceError cls masked unit addr status pdk) :=
  ⟨h.flds.deviceError hf, by simpa [State.base] using h.base⟩

theorem complete (h : BaseFrame ks s₀ s) {x : Hdr} {status result num : Nat} {keep : Bool} (hf : Apart ks doneFlds := by decide) :
    BaseFrame ks s₀ (s.complete x status result num keep) :=
  ⟨h.flds.complete hf, by simpa [State.base] using h.base⟩

theorem start (h : BaseFrame ks s₀ s) {x : Hdr} {op : Nat} {cmd : Option Instr} {prog : List Nat} (hf : Apart ks doneFlds := by decide) :
    BaseFrame ks s₀ (s.start x op cmd prog) :=
  ⟨h.flds.start hf, by simpa [State.base] using h.base⟩

/-! ### Messages -/

theorem post (h : BaseFrame ks s₀ s) (port : Option Nat) (owner vl : Nat) (line : Option Nat) (m : Msg) :
    BaseFrame ks s₀ (s.post port owner vl line m) := by
  unfold State.post
  cases port with
  | some q => exact h.beside rfl rfl
  | none =>
    cases line with
    | some id => exact h.beside rfl rfl
    | none => exact h.beside rfl rfl

theorem sendMsg (h : BaseFrame ks s₀ s) (m : Msg) : BaseFrame ks s₀ (s.sendMsg m) := by
  unfold State.sendMsg
  extract_lets vl
  split
  · exact h.post ..
  · exact h

theorem ackMsg (h : BaseFrame ks s₀ s) (m : Msg) (status high aux : Nat) : BaseFrame ks s₀ (s.ackMsg m status high aux) := h.ite (h.sendMsg _)

theorem dropLine (h : BaseFrame ks s₀ s) (l : Line) (hf : ∀ g ∈ ks, g.id ≠ F.HBM_GSTAT_TXN.id := by decide) : BaseFrame ks s₀ (s.dropLine l) := by
  unfold State.dropLine
  extract_lets net a
  have ha : BaseFrame ks s₀ a := h.beside rfl rfl
  exact (ha.wr hf).ite ha

theorem jobRow (h : BaseFrame ks s₀ s) (id : Nat) (hf : ∀ g ∈ ks, g.id ≠ F.CTX_MINHELD_MIN_HELD.id := by decide) :
    BaseFrame ks s₀ (s.jobRow id) := by
  unfold State.jobRow
  split
  · exact h
  · rename_i j _
    extract_lets net a
    have ha : BaseFrame ks s₀ a := h.beside rfl rfl
    exact ite (h.beside rfl rfl) (((ha.ackMsg ..).ite ha).wr hf)

/-! ### Aborts and stops -/

theorem discardTimed (h : BaseFrame ks s₀ s) (p : Nat) : BaseFrame ks s₀ (s.discardTimed p) := by
  unfold State.discardTimed
  extract_lets mine gone a keyed
  have ha : BaseFrame ks s₀ a := h.foldl fun _ _ hu => hu.beside rfl rfl
  exact ha.beside rfl rfl

theorem abortWith (h : BaseFrame ks s₀ s) (p cause : Nat) (fanout : Bool) : BaseFrame ks s₀ (s.abortWith p cause fanout) := by
  unfold State.abortWith
  extract_lets r keepArmed a
  have hruns : BaseFrame ks s₀ (s.setRuns p { r with cause := some cause, stopArmed := !keepArmed }) := h.beside rfl rfl
  have ha : BaseFrame ks s₀ a := hruns.discardTimed p
  exact h.ite (ite (ha.foldl fun _ _ hu => (hu.sendMsg _).ite hu) ha)

theorem abort (h : BaseFrame ks s₀ s) (p cause : Nat) : BaseFrame ks s₀ (s.abort p cause) := h.abortWith p cause true

theorem abortScope1 (h : BaseFrame ks s₀ s) (p cause : Nat) (fanout : Bool) (hf : Apart ks doneFlds := by decide) :
    BaseFrame ks s₀ (s.abortScope1 p cause fanout).1 := by
  unfold State.abortScope1
  extract_lets a ended b r c d
  have ha : BaseFrame ks s₀ a := h.abortWith ..
  have hb : BaseFrame ks s₀ b := ha.foldl fun _ _ hu => hu.complete hf
  have hc : BaseFrame ks s₀ c := hb.beside rfl rfl
  exact hc.beside rfl rfl

/-- The registers that QUIESCE can change: the SQ pairs' enables and PDK_STATE, beside those of a start (R497). -/
def quiesceFlds : List Fld := [F.CMQ_CFG_EN, F.PDK_STATE_STATE] ++ doneFlds

theorem clearPairs (h : BaseFrame ks s₀ s) (fn : Nat) (hf : Apart ks quiesceFlds := by decide) : BaseFrame ks s₀ (s.clearPairs fn) := by
  refine h.loopN fun k u hu => ?_
  have hw : BaseFrame ks s₀ (u.wr F.CMQ_CFG_EN fn 0 k) := hu.wrOf hf (by simp [quiesceFlds])
  exact (hw.wrOf hf (by simp [quiesceFlds, doneFlds])).ite hw

theorem quiesce (h : BaseFrame ks s₀ s) (p : Nat) (hf : Apart ks quiesceFlds := by decide) : BaseFrame ks s₀ (s.quiesce p) := by
  unfold State.quiesce
  extract_lets a
  have ha : BaseFrame ks s₀ a := h.clearPairs _ hf
  exact h.ite ((ha.wrOf hf (by simp [quiesceFlds])).ite (ha.start (hf.mono (List.subset_append_right ..))))

/-- The registers that a TDI's entry into ERROR can change (R611). -/
def tdiFlds : List Fld := [F.RTP_TDI_STATE_STATE, F.RTP_TDI_CAUSE_CAUSE, F.RTP_TDI_ERRORS_OVF, F.RTP_TDI_ERRORS_COUNT] ++ eventFlds ++ quiesceFlds

theorem tdiError (h : BaseFrame ks s₀ s) (n cause : Nat) (hf : Apart ks tdiFlds := by decide) : BaseFrame ks s₀ (s.tdiError n cause) := by
  have hquiesce : Apart ks quiesceFlds := hf.mono (List.subset_append_right ..)
  unfold State.tdiError
  extract_lets st a b c p d
  have hb : BaseFrame ks s₀ b := (h.wrOf hf (by simp [tdiFlds])).wrOf hf (by simp [tdiFlds])
  have hc : BaseFrame ks s₀ c := hb.bump fun g hg => ⟨hf g hg F.RTP_TDI_ERRORS_COUNT (by simp [tdiFlds]), hf g hg F.RTP_TDI_ERRORS_OVF (by simp [tdiFlds])⟩
  have hd : BaseFrame ks s₀ d := ((hc.abortScope1 _ _ _ (hquiesce.mono (List.subset_append_right ..))).quiesce _ hquiesce).ite hc
  exact (hd.eventBoth (hf.mono fun _ hg => List.mem_append_left _ (List.mem_append_right _ hg))).ite h

theorem tdiConfigChanged (h : BaseFrame ks s₀ s) (p : Nat) (hf : Apart ks (F.RTP_TDI_STATE_CFG_GEN :: eventFlds) := by decide) :
    BaseFrame ks s₀ (s.tdiConfigChanged p) := by
  unfold State.tdiConfigChanged
  extract_lets n st g a
  have ha : BaseFrame ks s₀ a := h.wrOf hf (by simp)
  exact (ha.event (hf.mono (by simp))).ite h

/-! ### The end of an operation -/

/-- The registers of signals, stiles and their errors (R140, R150, R152). -/
def synFlds : List Fld := synErrFlds ++ [F.SYN_VAL_VALUE, F.SYN_LSIG_STREAM, F.SYN_LSIG_COMPLETION, F.SYN_LSIG_OP, F.SYN_LSIG_POSITION, F.SYN_LTICK_TICK,
  F.SYN_STILE_LAST_STREAM, F.SYN_STILE_POS_LAST_POSITION, F.SYN_STILE_SENSE, F.SYN_STILE_MASK, F.SYN_STILE_CLAIMED, F.SYN_STILE_ARRIVED,
  F.SYN_STILE_PHASES]

theorem synError (h : BaseFrame ks s₀ s) (c kind stream target position : Nat) (completion : Bool) (hf : Apart ks synFlds := by decide) :
    BaseFrame ks s₀ (s.synError c kind stream target position completion) := by
  rw [State.synError_eq]
  exact (h.onlyRegs State.recordSync_onlyRegs (hf.mono (List.subset_append_left ..))).abort ..

theorem signalCell (h : BaseFrame ks s₀ s) (c n op x stream position : Nat) (completion : Bool) (hf : Apart ks synFlds := by decide) :
    BaseFrame ks s₀ (s.signalCell c n op x stream position completion) := by
  have hw {u : State} {f : Fld} {i v j : Nat} (hu : BaseFrame ks s₀ u) (hin : f ∈ synFlds) : BaseFrame ks s₀ (u.wr f i v j) := hu.wrOf hf hin
  unfold State.signalCell
  split
  · exact h.synError _ _ _ _ _ _ hf
  · extract_lets a b
    have ha : BaseFrame ks s₀ a := hw (hw h (by simp [synFlds])) (by simp [synFlds])
    have hb : BaseFrame ks s₀ b := hw (hw ha (by simp [synFlds])) (by simp [synFlds])
    exact hw (hw hb (by simp [synFlds])) (by simp [synFlds])

theorem stileArrive (h : BaseFrame ks s₀ s) (c k stream position : Nat) (completion : Bool) (hf : Apart ks synFlds := by decide) :
    BaseFrame ks s₀ (s.stileArrive c k stream position completion) := by
  have hw {u : State} {f : Fld} {i v j : Nat} (hu : BaseFrame ks s₀ u) (hin : f ∈ synFlds) : BaseFrame ks s₀ (u.wr f i v j) := hu.wrOf hf hin
  unfold State.stileArrive
  extract_lets arrived a _ b d e
  have ha : BaseFrame ks s₀ a := hw (hw h (by simp [synFlds])) (by simp [synFlds])
  have hb : BaseFrame ks s₀ b := ha.beside rfl rfl
  have he : BaseFrame ks s₀ e := hw (hw (hw hb (by simp [synFlds])) (by simp [synFlds])) (by simp [synFlds])
  exact (h.synError _ _ _ _ _ _ hf).ite ((hw (hw he (by simp [synFlds])) (by simp [synFlds])).ite (hw hb (by simp [synFlds])))

theorem completeOp (h : BaseFrame ks s₀ s) (o : Op) (hf : Apart ks synFlds := by decide) : BaseFrame ks s₀ (s.completeOp o) := by
  have hdrop : BaseFrame ks s₀ (s.dropOp o) := h.beside rfl rfl
  exact (hdrop.signalCell _ _ _ _ _ _ _ hf).ite ((hdrop.stileArrive _ _ _ _ _ hf).ite hdrop)

/-! ### Acknowledgements -/

theorem outAck (h : BaseFrame ks s₀ s) (id status : Nat) (hf : Apart ks synFlds := by decide) : BaseFrame ks s₀ (s.outAck id status) := by
  unfold State.outAck
  split
  · exact h
  · rename_i o _
    split
    · rename_i x _
      extract_lets y a
      have ha : BaseFrame ks s₀ a := (h.abort ..).ite h
      have hdrop : BaseFrame ks s₀ (a.dropOp o) := ha.beside rfl rfl
      have hset : BaseFrame ks s₀ (a.setOp id (.outb y)) := ha.beside rfl rfl
      exact ite (ite (hdrop.ite (ha.completeOp o hf)) ha) hset
    · exact h

theorem fetchAck (h : BaseFrame ks s₀ s) (id status tokens : Nat) (hf : Apart ks synFlds := by decide)
    (htxn : ∀ g ∈ ks, g.id ≠ F.HBM_GSTAT_TXN.id := by decide) : BaseFrame ks s₀ (s.fetchAck id status tokens) := by
  unfold State.fetchAck
  split
  · exact h
  · rename_i o _
    split
    · rename_i f _
      extract_lets p a b g
      have ha : BaseFrame ks s₀ a := by
        dsimp -zeta only [a]
        split
        · exact (h.dropLine _ htxn).ite h
        · exact h
      have hb : BaseFrame ks s₀ b := by
        dsimp -zeta only [b]
        split
        · exact BaseFrame.ite (ha.beside rfl rfl) ha
        · exact ha
      have hset : BaseFrame ks s₀ (b.setOp id (.fetch g)) := hb.beside rfl rfl
      exact (ha.abort ..).ite ((hb.completeOp _ hf).ite hset)
    · exact h

theorem appendAck (h : BaseFrame ks s₀ s) (id status : Nat) : BaseFrame ks s₀ (s.appendAck id status) := by
  unfold State.appendAck
  split
  · exact h
  · rename_i o _
    split
    · rename_i a _
      extract_lets b
      have hwarn : BaseFrame ks s₀ (s.warnSide (corePdk o.core) o.side status) := h.beside rfl rfl
      have hb : BaseFrame ks s₀ b := h.ite ((h.abort ..).ite hwarn)
      have hset : BaseFrame ks s₀ (b.setOp id (.append { a with left := a.left - 1 })) := hb.beside rfl rfl
      exact hset.ite hb
    · exact h

/-- The registers that the loss of a message can change (R550). -/
def lostFlds : List Fld := [F.HBM_GSTAT_TXN, F.CTX_MINHELD_MIN_HELD] ++ synFlds

theorem lostMsg (h : BaseFrame ks s₀ s) (m : Msg) (line : Option Nat) (hf : Apart ks lostFlds := by decide) : BaseFrame ks s₀ (s.lostMsg m line) := by
  have hsyn : Apart ks synFlds := hf.mono (List.subset_append_right ..)
  have htxn : ∀ g ∈ ks, g.id ≠ F.HBM_GSTAT_TXN.id := fun g hg => hf g hg _ (by simp [lostFlds])
  have hmin : ∀ g ∈ ks, g.id ≠ F.CTX_MINHELD_MIN_HELD.id := fun g hg => hf g hg _ (by simp [lostFlds])
  unfold State.lostMsg
  extract_lets a id
  have ha : BaseFrame ks s₀ a := by
    dsimp -zeta only [a]
    split
    · rename_i l _
      dsimp only
      split
      · exact (h.dropLine l htxn).jobRow _ hmin
      · exact h.dropLine l htxn
    · exact h
  clear_value a
  refine ha.ite ?_
  split
  · exact ha
  · rename_i o _
    refine ha.ite ?_
    split
    · exact ha.outAck _ _ hsyn
    · exact ha.fetchAck _ _ _ hsyn htxn
    · exact ha.appendAck _ _
    · exact ha

end BaseFrame

end Sys2Proof.Machine
end

section
/-! PROOFS. Rules about a pod port: its state, its lanes, its views, its flits and its going down (chapter 18). -/

-- Proofs side by side each take a thread with its stack: together they pass the bound on memory.
set_option Elab.async false

namespace Sys2Proof.Machine

/-! ### The state of a port -/

section Port

variable {s t : State} {q q' : Nat} {x : Port}

@[simp] theorem State.portOf_setPort_self : (s.setPort q x).portOf q = x := tget_tset_self

theorem State.portOf_setPort_ne (h : q' ≠ q) : (s.setPort q x).portOf q' = s.portOf q' := tget_tset_ne (by simpa using h)

theorem State.portOf_congr (h : t.net.ports = s.net.ports) (q : Nat) : t.portOf q = s.portOf q := congrArg (tget port0 · [q]) h

@[simp] theorem State.rd_setPort (g : Fld) (i j : Nat) : (s.setPort q x).rd g i j = s.rd g i j := rfl
@[simp] theorem State.setPort_regs : (s.setPort q x).regs = s.regs := rfl
@[simp] theorem State.setPort_mem : (s.setPort q x).mem = s.mem := rfl
@[simp] theorem State.setPort_out : (s.setPort q x).out = s.out := rfl
@[simp] theorem State.portOf_emit (o : Out) (q : Nat) : (s.emit o).portOf q = s.portOf q := rfl
@[simp] theorem State.setPort_portState (q' : Nat) : (s.setPort q x).portState q' = s.portState q' := rfl

theorem OnlyRegs.portOf {fs : List Fld} (h : OnlyRegs s t fs) (q : Nat) : t.portOf q = s.portOf q :=
  State.portOf_congr (by rw [h.1]) q

end Port

/-! ### Views, states and lanes -/

section Lanes

variable {s : State} {q i : Nat}

/-- The paddocks' views of the ports (R559). -/
def viewFlds : List Fld := [F.PLK_PVIEW0_UP, F.PLK_PVIEW1_UP, F.PLK_PVIEW0_SLOTS, F.PLK_PVIEW1_SLOTS, F.PLK_PLANES_LANES]

theorem State.syncViews_onlyRegs (s : State) (q : Nat) : OnlyRegs s (s.syncViews q) viewFlds := by
  refine onlyRegs_loopN onlyRegs_refl fun p u hu => onlyRegs_wr (onlyRegs_wr (onlyRegs_wr hu ?_) ?_) (by simp [viewFlds])
  all_goals split <;> simp [viewFlds]

theorem State.setPortState_onlyRegs (s : State) (q st : Nat) : OnlyRegs s (s.setPortState q st) (F.PLK_STATE_STATE :: viewFlds) :=
  (onlyRegs_wr onlyRegs_refl (by simp)).andThen (State.syncViews_onlyRegs ..) (by simp)

theorem State.portState_setPortState {st : Nat} (hst : st < 8) : (s.setPortState q st).portState q = st :=
  ((State.syncViews_onlyRegs ..).2 _ _ _ (by decide)).trans (State.rd_wr_self.trans (Nat.mod_eq_of_lt hst))

/-- The registers of a port's lanes, with what follows them (R509, R538). -/
def laneFlds : List Fld := [F.PLK_LANE_FAILED, F.PLK_LANE_LOCK, F.PLK_LANE_SPARE, F.PLK_LANE_LOGICAL, F.PLK_STATE_LANES, F.PLK_STATE_LANE_MASK,
  F.PLK_STATE_SPARE_USED] ++ viewFlds

theorem State.syncLanes_onlyRegs (s : State) (q : Nat) :
    OnlyRegs s (s.syncLanes q) ([F.PLK_STATE_LANES, F.PLK_STATE_LANE_MASK, F.PLK_STATE_SPARE_USED] ++ viewFlds) := by
  unfold State.syncLanes
  extract_lets l a
  have ha : OnlyRegs s a ([F.PLK_STATE_LANES, F.PLK_STATE_LANE_MASK, F.PLK_STATE_SPARE_USED] ++ viewFlds) :=
    onlyRegs_wr (onlyRegs_wr onlyRegs_refl (by simp)) (by simp)
  exact (onlyRegs_wr ha (by simp)).andThen (State.syncViews_onlyRegs ..) (List.subset_append_right ..)

theorem onlyRegs_syncLanes {s₀ : State} (h : OnlyRegs s₀ s laneFlds) : OnlyRegs s₀ (s.syncLanes q) laneFlds :=
  h.andThen (State.syncLanes_onlyRegs ..) fun _ hf => List.mem_append.2 ((List.mem_append.1 hf).imp (fun hf => List.mem_of_mem_drop (i := 4) hf) id)

theorem State.laneOff_onlyRegs (s : State) (q i : Nat) : OnlyRegs s (s.laneOff q i) laneFlds := by
  unfold State.laneOff
  extract_lets was a b c
  have hb : OnlyRegs s b laneFlds := onlyRegs_wr (onlyRegs_wr (onlyRegs_wr (onlyRegs_wr onlyRegs_refl (by simp [laneFlds])) (by simp [laneFlds]))
    (by simp [laneFlds])) (by simp [laneFlds])
  have hc : OnlyRegs s c laneFlds := by
    refine onlyRegs_ite hb ?_
    split
    · exact onlyRegs_wr (onlyRegs_wr hb (by simp [laneFlds])) (by simp [laneFlds])
    · exact onlyRegs_foldl hb fun _ _ hu => onlyRegs_wr hu (by simp [laneFlds])
  exact onlyRegs_syncLanes hc

theorem State.lanesFull_onlyRegs (s : State) (q : Nat) : OnlyRegs s (s.lanesFull q) laneFlds :=
  onlyRegs_syncLanes (onlyRegs_loopN onlyRegs_refl fun i u hu => onlyRegs_wr (onlyRegs_wr (onlyRegs_wr (onlyRegs_wr hu (by simp [laneFlds]))
    (by simp [laneFlds])) (by simp [laneFlds])) (by simp [laneFlds]))

theorem State.lanesOff_onlyRegs (s : State) (q : Nat) (keep : Bool) : OnlyRegs s (s.lanesOff q keep) laneFlds := by
  refine onlyRegs_syncLanes (onlyRegs_loopN onlyRegs_refl fun i u hu => ?_)
  have hf : OnlyRegs s (if keep then u else u.wr F.PLK_LANE_FAILED q 0 i) laneFlds := onlyRegs_ite hu (onlyRegs_wr hu (by simp [laneFlds]))
  exact onlyRegs_wr (onlyRegs_wr (onlyRegs_wr hf (by simp [laneFlds])) (by simp [laneFlds])) (by simp [laneFlds])

end Lanes

/-! ### Frames of the port's commands and events -/

namespace BaseFrame

variable {ks : List Fld} {s₀ s : State}

theorem syncViews (h : BaseFrame ks s₀ s) (q : Nat) (hf : Apart ks viewFlds := by decide) : BaseFrame ks s₀ (s.syncViews q) :=
  h.onlyRegs (State.syncViews_onlyRegs ..) hf

theorem setPortState (h : BaseFrame ks s₀ s) (q st : Nat) (hf : Apart ks (F.PLK_STATE_STATE :: viewFlds) := by decide) :
    BaseFrame ks s₀ (s.setPortState q st) :=
  h.onlyRegs (State.setPortState_onlyRegs ..) hf

theorem portDone (h : BaseFrame ks s₀ s) (q action status : Nat) (hf : Apart ks doneFlds := by decide) :
    BaseFrame ks s₀ (s.portDone q action status) :=
  h.foldl fun _ _ hu => hu.complete hf

/-- The registers of a slot table that comes into force, with the views and the command's end (R554). -/
def tableFlds : List Fld := [F.PLK_TDM_SLOT, F.PLK_CFG_STRICT] ++ viewFlds ++ doneFlds

/-- A slot table that comes into force: but for the registers and the pending table nothing changes (R554). -/
theorem applyTable (s : State) (q : Nat) (hf : Apart ks tableFlds := by decide) :
    BaseFrame ks s (s.applyTable q) ∨ BaseFrame ks (s.setPort q { s.portOf q with newSlots := none }) (s.applyTable q) := by
  unfold State.applyTable
  split
  · exact .inl (.refl s)
  · extract_lets x a b
    have hb : BaseFrame ks a b := (BaseFrame.refl a).loopN fun _ _ hu => hu.wrOf hf (by simp [tableFlds])
    have hc : ∀ v, BaseFrame ks a (b.wr F.PLK_CFG_STRICT q v) := fun v => hb.wrOf hf (by simp [tableFlds])
    exact .inr (((hc _).syncViews q (hf.mono fun _ hg => List.mem_append_left _ (List.mem_append_right _ hg))).portDone q 8 0
      (hf.mono (List.subset_append_right ..)))

theorem linkAuthFail (h : BaseFrame ks s₀ s) (q : Nat) (hf : Apart ks eventFlds := by decide) : BaseFrame ks s₀ (s.linkAuthFail q) := h.event hf

theorem portUpEvent (h : BaseFrame ks s₀ s) (q : Nat) (hf : Apart ks eventFlds := by decide) : BaseFrame ks s₀ (s.portUpEvent q) := h.event hf

end BaseFrame

/-! ### Going down -/

section Down

variable {s : State} {q reason tries : Nat}

/-- A port as it is without power or a training: what outlives it is its place in the slot table and its inbox (R550). -/
def Port.cleared (x : Port) : Port := { port0 with slot := x.slot, newSlots := x.newSlots, inbox := x.inbox, timeSeq := x.timeSeq }

/-- The registers that say why and how often a port has gone down (R551). -/
def downFlds : List Fld := [F.PLK_STATE_REASON, F.PLK_DOWN_OVF, F.PLK_DOWN_COUNT]

theorem BaseFrame.countDiscards {ks : List Fld} {s₀ : State} (h : BaseFrame ks s₀ s)
    (hf : ∀ g ∈ ks, g.id ≠ F.PLK_P_DISCARD_COUNT.id ∧ g.id ≠ F.PLK_P_DISCARD_COUNT.id - 1 := by decide) : BaseFrame ks s₀ (s.countDiscards q) :=
  (h.foldl fun _ _ hu => hu.bump hf).foldl fun _ _ hu => hu.bump hf

/-- The port as it stands right after a training has begun (R514). -/
def Port.training (x : Port) (now tries : Nat) : Port :=
  { port0 with step := 1, since := now, tries := tries, slot := x.slot, newSlots := x.newSlots, inbox := x.inbox, goodAt := now, timeSeq := x.timeSeq }

theorem State.startTraining_portOf : (s.startTraining q tries).portOf q = (s.portOf q).training s.now tries := by
  unfold State.startTraining
  extract_lets x p0 a net b c d e
  have hb : b.portOf q = (s.portOf q).training s.now tries := State.portOf_setPort_self (s := s) (q := q) (x := (s.portOf q).training s.now tries)
  have he : e.portOf q = b.portOf q := rfl
  exact (State.portOf_emit ..).trans (((State.setPortState_onlyRegs ..).portOf q).trans (((State.lanesOff_onlyRegs ..).portOf q).trans (he.trans hb)))

theorem State.startTraining_portState : (s.startTraining q tries).portState q = portTraining := by
  unfold State.startTraining
  extract_lets x p0 a net b c d e
  exact (State.rd_emit ..).trans (State.portState_setPortState (by decide))

/-- The registers of a training that begins (R515). -/
def trainFlds : List Fld := [F.PLK_STATE_PEER_VALID, F.PLK_STATE_ENCRYPTED, F.PLK_STATE_KEY_TX, F.PLK_STATE_KEY_RX, F.PLK_KEY_REKEYS,
  F.PLK_KEY_TX_MFLITS, F.PLK_STATE_STATE] ++ laneFlds

theorem State.startTraining_flds {ks : List Fld} (hf : Apart ks trainFlds := by decide) : SameFlds ks s (s.startTraining q tries) := by
  have hlane : Apart ks laneFlds := hf.mono (List.subset_append_right ..)
  have hw {u : State} {f : Fld} {i v j : Nat} (hu : SameFlds ks s u) (hin : f ∈ trainFlds) : SameFlds ks s (u.wr f i v j) :=
    hu.wr fun g hg => hf g hg f hin
  unfold State.startTraining
  extract_lets x p0 a net b c d e
  have hb : SameFlds ks s b := (SameFlds.refl s).beside rfl
  have hc : SameFlds ks s c := hw (hw hb (by simp [trainFlds])) (by simp [trainFlds])
  have he : SameFlds ks s e := hw (hw (hw (hw hc (by simp [trainFlds])) (by simp [trainFlds])) (by simp [trainFlds])) (by simp [trainFlds])
  have hg : SameFlds ks s ((e.lanesOff q false).setPortState q portTraining) :=
    (he.onlyRegs (State.lanesOff_onlyRegs ..) hlane).onlyRegs (State.setPortState_onlyRegs ..)
      (hf.mono fun f hfm => by
        rcases List.mem_cons.1 hfm with rfl | hview
        · simp [trainFlds]
        · exact List.mem_append_right _ (List.mem_append_right _ hview))
  exact hg.beside (State.emit_regs ..)

theorem State.startTraining_mem : (s.startTraining q tries).mem = s.mem := by
  unfold State.startTraining
  extract_lets x p0 a net b c d e
  have he : e.mem = s.mem := rfl
  clear_value e
  exact (State.emit_mem ..).trans ((State.setPortState_onlyRegs ..).mem.trans ((State.lanesOff_onlyRegs ..).mem.trans he))

/-- A table that comes into force leaves the place in it, and the registers that it does not write (R554). -/
theorem State.applyTable_flds {ks : List Fld} (hf : Apart ks BaseFrame.tableFlds := by decide) : SameFlds ks s (s.applyTable q) := by
  rcases BaseFrame.applyTable s q hf with h | h
  · exact h.flds
  · exact (SameFlds.refl s).trans h.flds

theorem State.applyTable_slot : ((s.applyTable q).portOf q).slot = (s.portOf q).slot := by
  rcases BaseFrame.applyTable (ks := []) s q with h | h
  · exact congrArg Port.slot (h.portOf q)
  · rw [h.portOf q, State.portOf_setPort_self]

/-- A port that goes down for another REASON than 1 trains again, with its REASON and its count (R550 to R552). -/
theorem State.goDown_trains (hdown : s.portState q ≠ portDown) (hfailed : s.portState q ≠ portFailed) (hr : reason ≠ 1) :
    ∃ u : State, s.goDown q reason = u.startTraining q 0 ∧ u.rd F.PLK_STATE_REASON q = reason % 2 ^ 4 ∧
      u.rd F.PLK_DOWN_COUNT q = min (s.rd F.PLK_DOWN_COUNT q + 1) maxCount ∧ (u.portOf q).slot = (s.portOf q).slot := by
  unfold State.goDown
  rw [if_neg (by simp [hdown, hfailed])]
  extract_lets lost a x b net c p0 d e f g det k l m o
  have ha : BaseFrame downFlds s a := (BaseFrame.refl s).countDiscards
  have hreason : b.rd F.PLK_STATE_REASON q = reason % 2 ^ 4 := (State.rd_bump_fld (by decide) (by decide)).trans State.rd_wr_self
  have hcount : b.rd F.PLK_DOWN_COUNT q = min (s.rd F.PLK_DOWN_COUNT q + 1) maxCount := by
    rw [State.rd_bump_self rfl (by decide), State.rd_wr_fld (by decide), ha.rd (by simp [downFlds])]
  have hd : SameFlds downFlds b d := (SameFlds.refl b).beside rfl
  have hx : x.slot = (s.portOf q).slot := congrArg Port.slot (ha.portOf q)
  have hslot : (e.portOf q).slot = (s.portOf q).slot := (congrArg Port.slot (State.portOf_setPort_self (s := c) (q := q) (x := x.cleared))).trans hx
  have he : SameFlds downFlds b e := hd.wr.wr
  have hf : SameFlds downFlds b f := ((he.onlyRegs (State.lanesOff_onlyRegs ..)).onlyRegs (State.setPortState_onlyRegs ..)).trans State.applyTable_flds
  have hfslot : (f.portOf q).slot = (e.portOf q).slot :=
    State.applyTable_slot.trans (congrArg Port.slot (((State.setPortState_onlyRegs ..).portOf q).trans ((State.lanesOff_onlyRegs ..).portOf q)))
  clear_value b e f
  have hg : BaseFrame downFlds f g := (BaseFrame.refl f).foldl fun _ _ hu => hu.lostMsg ..
  have hk : BaseFrame downFlds f k := hg.loopN fun _ _ hu => hu.ite hu.event
  have hl : BaseFrame downFlds f l := hk.event
  have hm : BaseFrame downFlds f m := (hl.linkAuthFail q).ite hl
  have ho : BaseFrame downFlds f o := hm.foldl fun _ _ hu => hu.ite (hu.portDone ..)
  exact ⟨o, if_neg hr, ((hf.trans ho.flds) _ (by simp [downFlds]) ..).trans hreason, ((hf.trans ho.flds) _ (by simp [downFlds]) ..).trans hcount,
    (congrArg Port.slot (ho.portOf q)).trans (hfslot.trans hslot)⟩

end Down

end Sys2Proof.Machine
end

section
/-! PROOFS. Flits that go out and come in (chapter 18, R519 to R536, R545). -/

-- Proofs side by side each take a thread with its stack: together they pass the bound on memory.
set_option Elab.async false

namespace Sys2Proof.Machine

/-! ### A flit on the wire -/

/-- What the sending of a flit leaves alone: the memories, what has been sent, the port's slot, and every register but the count of
encrypted flits. -/
structure FlitFrame (q : Nat) (s t : State) : Prop where
  rd : ∀ (g : Fld) (i j : Nat), g.id ≠ F.PLK_KEY_TX_MFLITS.id → t.rd g i j = s.rd g i j
  mem : t.mem = s.mem
  out : t.out = s.out
  slot : (t.portOf q).slot = (s.portOf q).slot

section Wire

variable {s t : State} {q : Nat}

theorem FlitFrame.setPort (x : Port) (hx : x.slot = (s.portOf q).slot) : FlitFrame q s (s.setPort q x) :=
  ⟨fun _ _ _ _ => rfl, rfl, rfl, by rw [State.portOf_setPort_self, hx]⟩

theorem FlitFrame.trans {u : State} (h : FlitFrame q s t) (hu : FlitFrame q t u) : FlitFrame q s u :=
  ⟨fun g i j hg => (hu.rd g i j hg).trans (h.rd g i j hg), hu.mem.trans h.mem, hu.out.trans h.out, hu.slot.trans h.slot⟩

theorem State.sealFlit_frame (s : State) (q hdr : Nat) (payload : List Byte) : FlitFrame q s (s.sealFlit q hdr payload).1 := by
  unfold State.sealFlit
  extract_lets body
  split
  · exact ⟨fun _ _ _ _ => rfl, rfl, rfl, rfl⟩
  · rename_i x _ a _
    have ha : FlitFrame q s a := FlitFrame.setPort _ rfl
    exact ha.trans ⟨fun _ _ _ hg => State.rd_wr_fld hg, rfl, rfl, rfl⟩

theorem State.nextPool_frame (s : State) (q : Nat) : FlitFrame q s (s.nextPool q).1 := FlitFrame.setPort _ rfl

/-- The header of a filler or data flit of the moment (R519). -/
def State.headerOf (s : State) (q kind vl owner : Nat) (payload : List Byte) (seq rpl : Nat) : Nat :=
  let u := (s.nextPool q).1
  let x := u.portOf q
  flitHeader kind vl owner (payload.length / 16) seq ((x.seqWant + 4095) % 4096) (b2n x.nak) x.nakId rpl (u.rd F.PLK_STATE_KEY_TX q)
    (s.nextPool q).2.1 (s.nextPool q).2.2

theorem State.sendFlit_eq (s : State) (q kind vl owner : Nat) (payload : List Byte) (seq rpl : Nat) :
    ∃ w, s.sendFlit q kind vl owner payload seq rpl =
      ((s.nextPool q).1.sealFlit q (s.headerOf q kind vl owner payload seq rpl) payload).1.emit (.link q "flit" w) := ⟨_, rfl⟩

/-- A filler or data flit is one sending on the link. -/
theorem State.sendFlit_sends (s : State) (q kind vl owner : Nat) (payload : List Byte) (seq rpl : Nat) :
    ∃ (u : State) (w : List Nat), FlitFrame q s u ∧ s.sendFlit q kind vl owner payload seq rpl = u.emit (.link q "flit" w) := by
  obtain ⟨w, heq⟩ := s.sendFlit_eq q kind vl owner payload seq rpl
  exact ⟨_, w, (s.nextPool_frame q).trans (State.sealFlit_frame ..), heq⟩

theorem State.sendFlit_slot {kind vl owner : Nat} {payload : List Byte} {seq rpl : Nat} :
    ((s.sendFlit q kind vl owner payload seq rpl).portOf q).slot = (s.portOf q).slot := by
  obtain ⟨u, w, hu, heq⟩ := s.sendFlit_sends q kind vl owner payload seq rpl
  rw [heq, State.portOf_emit, hu.slot]

theorem State.portOf_bump {f : Fld} {i j n : Nat} : (s.bump f i j n).portOf q = s.portOf q := State.portOf_congr (congrArg Net.ports (State.bump_net ..)) q

theorem State.goDown_slot {reason : Nat} (hr : reason ≠ 1) : ((s.goDown q reason).portOf q).slot = (s.portOf q).slot := by
  by_cases h : s.portState q = portDown ∨ s.portState q = portFailed
  · exact congrArg (fun t : State => (t.portOf q).slot) (if_pos h)
  · obtain ⟨u, heq, -, -, hslot⟩ := State.goDown_trains (fun hd => h (.inl hd)) (fun hf => h (.inr hf)) hr
    rw [heq, State.startTraining_portOf]
    exact hslot

end Wire

/-! ### FLIT_SEND -/

section Send

variable {s : State} {q seq : Nat} {t : TxMsg} {offered : Bool} {rest : List Nat} {x : Port}

theorem State.sendReplay_slot : ((s.sendReplay q seq rest).portOf q).slot = (s.portOf q).slot := by
  unfold State.sendReplay
  extract_lets x
  split
  · rw [State.portOf_setPort_self]
  · extract_lets b
    have hb : (b.portOf q).slot = (s.portOf q).slot := by
      refine State.sendFlit_slot.trans ?_
      rw [State.portOf_bump, State.portOf_setPort_self]
    split
    · exact (State.goDown_slot (by decide)).trans hb
    · exact hb

theorem State.sendData_slot : ((s.sendData q t offered).portOf q).slot = (s.portOf q).slot := by
  unfold State.sendData
  extract_lets i owner bytes x pool seq last rpl a net b c d e f
  have ha : (a.portOf q).slot = (s.portOf q).slot := by rw [State.portOf_setPort_self]
  have hb : (b.portOf q).slot = (s.portOf q).slot := ha
  have hc : (c.portOf q).slot = (s.portOf q).slot := by rw [State.portOf_bump, hb]
  have hd : (d.portOf q).slot = (s.portOf q).slot := by
    dsimp only [d]
    split
    · rw [State.portOf_bump, hc]
    · exact hc
  have he : (e.portOf q).slot = (s.portOf q).slot := State.sendFlit_slot.trans hd
  have hf : (f.portOf q).slot = (s.portOf q).slot := he
  clear_value e f
  split
  · split
    · rw [(State.setPortState_onlyRegs ..).portOf, State.portOf_setPort_self, hf]
    · exact hf
  · exact he

/-- What goes out in a flit time once the slot has moved on: a resume or key marker, a replayed flit, a data flit, or a filler (R531). -/
def State.flitGoes (s : State) (q slot : Nat) (x : Port) : State :=
  if x.resume then (s.setPort q { s.portOf q with resume := false }).sendMarker q 1
  else if x.flits % 16384 = 0 then s.sendMarker q 0
  else
    match x.replay with
    | r :: rest => s.sendReplay q r rest
    | [] =>
      match (if s.rd F.PLK_STATE_ENCRYPTED q = 1 ∧ keyLimit ≤ x.txFlits then none else s.pickFlit q slot) with
      | some (t, offered) => s.sendData q t offered
      | none => (s.bump F.PLK_FILL_COUNT q).sendFlit q 0 0 0 [] ((x.seqNext + 4095) % 4096) 0

theorem State.flitGoes_slot {slot : Nat} : ((s.flitGoes q slot x).portOf q).slot = (s.portOf q).slot := by
  unfold State.flitGoes
  split
  · rw [State.sendMarker, State.portOf_emit, State.portOf_setPort_self]
  split
  · rw [State.sendMarker, State.portOf_emit]
  split
  · exact State.sendReplay_slot
  · split
    · exact State.sendData_slot
    · rw [State.sendFlit_slot, State.portOf_bump]

/-- The port in the flit time after a slot. -/
def Port.nextSlot (x : Port) (slot : Nat) : Port := { x with slot := (slot + 1) % 64, flits := x.flits + 1 }

theorem execFlitSend_sends {port : Fin 12} (hon : s.flitsOn port.val = true) :
    ∃ u : State, execFlitSend port s = .next ((u.setPort port.val ((u.portOf port.val).nextSlot (s.portOf port.val).slot)).flitGoes port.val
      (s.portOf port.val).slot (u.portOf port.val)) ∧ ((s.portOf port.val).slot ≠ 0 → u = s) := by
  refine ⟨if (s.portOf port.val).slot = 0 then s.applyTable port.val else s, ?_, fun hslot => if_neg hslot⟩
  unfold execFlitSend
  dsimp only
  rw [if_neg (by simp [hon])]
  generalize (if (s.portOf port.val).slot = 0 then s.applyTable port.val else s) = u
  unfold State.flitGoes Port.nextSlot
  dsimp only
  generalize u.setPort port.val _ = v
  cases (u.portOf port.val).replay with
  | cons r rest => simp only [apply_ite Host.Outcome.next]
  | nil =>
    dsimp only
    cases (if v.rd F.PLK_STATE_ENCRYPTED port.val = 1 ∧ keyLimit ≤ (u.portOf port.val).txFlits then none
      else v.pickFlit port.val (s.portOf port.val).slot) <;> simp only [apply_ite Host.Outcome.next]

theorem execFlitSend_slot {port : Fin 12} (hon : s.flitsOn port.val = true) :
    ∃ t, execFlitSend port s = .next t ∧ (t.portOf port.val).slot = ((s.portOf port.val).slot + 1) % 64 := by
  obtain ⟨u, hexec, -⟩ := execFlitSend_sends hon
  exact ⟨_, hexec, State.flitGoes_slot.trans (congrArg Port.slot State.portOf_setPort_self)⟩

/-- With nothing to send, to replay or to mark, a filler goes out (R531). -/
theorem State.flitGoes_fills {slot : Nat} (hres : x.resume = false) (hmark : x.flits % 16384 ≠ 0) (hrep : x.replay = [])
    (hfill : (s.rd F.PLK_STATE_ENCRYPTED q = 1 ∧ keyLimit ≤ x.txFlits) ∨ s.pickFlit q slot = none) :
    s.flitGoes q slot x = (s.bump F.PLK_FILL_COUNT q).sendFlit q 0 0 0 [] ((x.seqNext + 4095) % 4096) 0 := by
  have hpick : (if s.rd F.PLK_STATE_ENCRYPTED q = 1 ∧ keyLimit ≤ x.txFlits then none else s.pickFlit q slot) = none := by
    rcases hfill with hfull | hnone
    · exact if_pos hfull
    · rw [hnone, ite_self]
  unfold State.flitGoes
  rw [if_neg (by simp [hres]), if_neg hmark, hrep]
  dsimp only
  rw [hpick]

theorem execFlitSend_fills {port : Fin 12} (hx : s.portOf port.val = x) (hon : s.flitsOn port.val = true) (hslot : x.slot ≠ 0)
    (hres : x.resume = false) (hmark : x.flits % 16384 ≠ 0) (hrep : x.replay = []) {u : State}
    (hu : u = s.setPort port.val { x with slot := (x.slot + 1) % 64, flits := x.flits + 1 })
    (hfill : (u.rd F.PLK_STATE_ENCRYPTED port.val = 1 ∧ keyLimit ≤ x.txFlits) ∨ u.pickFlit port.val x.slot = none) :
    ∃ t, execFlitSend port s = .next t ∧ t.mem = s.mem ∧ t.rd F.PLK_FILL_COUNT port.val = min (s.rd F.PLK_FILL_COUNT port.val + 1) maxCount ∧
      ∃ w, t.out = s.out ++ [.link port.val "flit" w] := by
  obtain ⟨v, hexec, hv⟩ := execFlitSend_sends hon
  obtain rfl : v = s := hv (hx ▸ hslot)
  have hturn : v.setPort port.val ((v.portOf port.val).nextSlot (v.portOf port.val).slot) = u := by rw [hx, hu]; rfl
  rw [hturn, hx, State.flitGoes_fills hres hmark hrep hfill] at hexec
  obtain ⟨w, l, hw, hsend⟩ := (u.bump F.PLK_FILL_COUNT port.val).sendFlit_sends port.val 0 0 0 [] ((x.seqNext + 4095) % 4096) 0
  refine ⟨_, hexec, ?_, ?_, l, ?_⟩
  · rw [hsend, State.emit_mem, hw.mem, State.bump_mem, hu, State.setPort_mem]
  · rw [hsend, State.rd_emit, hw.rd _ _ _ (by decide), State.rd_bump_self rfl (by decide), hu, State.rd_setPort]
  · rw [hsend, State.emit_out, hw.out, State.bump_out, hu, State.setPort_out]

end Send

/-! ### FLIT_RECEIVE -/

section Receive

variable {s : State} {port : Fin 12} {header check : Word64} {payload : List Byte} {spoiled : Bool}

theorem execFlitReceive_off {uncorr : Nat} {corr : List (Fin 9 × Nat)} (hidle : s.portState port.val ≠ portIdleCode) (hoff : s.flitsOn port.val = false) :
    execFlitReceive port header payload check uncorr spoiled corr s = .next s := by
  unfold execFlitReceive
  dsimp only
  rw [if_neg hidle, if_pos hoff]

theorem execFlitReceive_passes (hidle : s.portState port.val ≠ portIdleCode) (hon : s.flitsOn port.val = true) (hnak : (s.portOf port.val).nak = false)
    (hspoiled : spoiled = false) (hcheck : s.checkPasses port.val header.toNat payload check.toNat = true) :
    execFlitReceive port header payload check 0 spoiled [] s = .next (s.flitPasses port.val header.toNat payload) := by
  unfold execFlitReceive
  dsimp only
  rw [if_neg hidle, if_neg (by simp [hon]), List.foldl_nil, if_pos rfl, hnak]
  exact if_pos ⟨hspoiled, hcheck⟩

theorem execFlitReceive_fails (hidle : s.portState port.val ≠ portIdleCode) (hon : s.flitsOn port.val = true) (hnak : (s.portOf port.val).nak = false)
    (hbad : spoiled = true ∨ s.checkPasses port.val header.toNat payload check.toNat = false) (hplain : s.rd F.PLK_STATE_ENCRYPTED port.val = 0) :
    execFlitReceive port header payload check 0 spoiled [] s = .next ((s.bump F.PLK_CHECK_FAIL_COUNT port.val).raiseNak port.val) := by
  have hnak' : ((s.bump F.PLK_CHECK_FAIL_COUNT port.val).portOf port.val).nak = false := by rw [State.portOf_bump, hnak]
  have hcheck : ¬ (spoiled = false ∧ s.checkPasses port.val header.toNat payload check.toNat = true) := by rcases hbad with h | h <;> simp [h]
  have henc : ¬ (s.rd F.PLK_STATE_ENCRYPTED port.val = 1 ∧ bitsAt header.toNat 62 2 ≠ 2) := by simp [hplain]
  unfold execFlitReceive
  dsimp only
  rw [if_neg hidle, if_neg (by simp [hon]), List.foldl_nil, if_pos rfl, hnak, if_neg Bool.false_ne_true, if_neg hcheck, if_neg henc,
    decide_eq_false henc]
  unfold State.flitFails
  dsimp only
  rw [hnak', if_neg (by simp)]
  rfl

end Receive

/-- Settles O39: the slot by what a flit time leaves of it, fillers and received flits by their equations. -/
theorem linkFlits : Obligations.LinkFlits := by
  refine fun s port => ⟨fun hoff => if_pos hoff, fun hon _ => execFlitSend_slot hon,
    fun x hx hon hslot hres hmark hrep u hu hfill => execFlitSend_fills hx hon hslot hres hmark hrep hu hfill,
    fun header check payload uncorr spoiled corr hidle => ⟨fun hoff => execFlitReceive_off hidle hoff, ?_⟩, fun hnak hwait => ?_, fun hwait => ?_⟩
  · rintro hon hnak rfl rfl
    refine ⟨fun hspoiled hcheck => execFlitReceive_passes hidle hon hnak hspoiled hcheck, fun hbad hplain =>
      ⟨_, execFlitReceive_fails hidle hon hnak hbad hplain, State.bump_mem .., State.bump_out .., ?_, ?_, State.rd_bump_self rfl (by decide)⟩⟩
    · exact congrArg Port.nak State.portOf_setPort_self
    · refine (congrArg Port.nakId State.portOf_setPort_self).trans ?_
      rw [State.portOf_bump]
  · exact ⟨_, congrArg Host.Outcome.next (if_pos ⟨hnak, hwait⟩), rfl, rfl, congrArg Port.nakWait State.portOf_setPort_self,
      congrArg Port.nakId State.portOf_setPort_self, fun q hq => State.portOf_setPort_ne hq⟩
  · refine congrArg Host.Outcome.next (if_neg fun h => ?_)
    rcases hwait with hnak | hlt
    · exact Bool.false_ne_true (hnak.symm.trans h.1)
    · exact absurd h.2 (Nat.not_le.2 hlt)

end Sys2Proof.Machine
end

section
/-! PROOFS. Lanes that fail, retraining, and ports that go down (chapter 18, R537 to R541, R550 to R552). -/

-- Proofs side by side each take a thread with its stack: together they pass the bound on memory.
set_option Elab.async false

namespace Sys2Proof.Machine

/-! ### The failure of a lane -/

section Lane

variable {s : State} {q i k : Nat}

/-- The lane's own registers when it fails (R538). -/
def State.laneMarked (s : State) (q i : Nat) : State :=
  (((s.wr F.PLK_LANE_FAILED q 1 i).wr F.PLK_LANE_LOCK q 0 i).wr F.PLK_LANE_SPARE q 0 i).wr F.PLK_LANE_LOGICAL q noLane i

theorem State.laneMarked_failed : (s.laneMarked q i).rd F.PLK_LANE_FAILED q i = 1 :=
  (State.rd_wr_fld (by decide)).trans ((State.rd_wr_fld (by decide)).trans ((State.rd_wr_fld (by decide)).trans State.rd_wr_self))

theorem State.laneMarked_logical (j : Nat) : (s.laneMarked q i).logicalOf q j = if j = i then noLane else s.logicalOf q j := by
  split
  · rename_i h
    rw [h]
    exact State.rd_wr_self
  · rename_i h
    exact (State.rd_wr_idx h).trans ((State.rd_wr_fld (by decide)).trans ((State.rd_wr_fld (by decide)).trans (State.rd_wr_fld (by decide))))

/-- A lane that was no active one leaves the active lanes as they are. -/
theorem State.laneMarked_active (h : s.logicalOf q i = noLane) : (s.laneMarked q i).activeLanes q = s.activeLanes q := by
  unfold State.activeLanes
  congr 1
  funext j
  rw [State.laneMarked_logical]
  split
  · rename_i hj
    rw [hj, h]
  · rfl

theorem State.laneMarked_spare_ne {j : Nat} (hj : j ≠ i) :
    (s.laneMarked q i).rd F.PLK_LANE_SPARE q j = s.rd F.PLK_LANE_SPARE q j ∧ (s.laneMarked q i).laneFailed q j = s.laneFailed q j := by
  refine ⟨?_, ?_⟩
  · exact (State.rd_wr_fld (by decide)).trans ((State.rd_wr_idx hj).trans ((State.rd_wr_fld (by decide)).trans (State.rd_wr_fld (by decide))))
  · refine congrArg (fun v => decide (v = 1)) ?_
    exact (State.rd_wr_fld (by decide)).trans ((State.rd_wr_fld (by decide)).trans ((State.rd_wr_fld (by decide)).trans (State.rd_wr_idx hj)))

/-- The spare after the failure of a lane before it is the spare that was. -/
theorem State.laneMarked_spareOf (hspare : s.spareOf q = some k) (hi : i ≠ k) : (s.laneMarked q i).spareOf q = some k := by
  obtain ⟨hk, hmem, hfirst⟩ := List.find?_range_eq_some.1 hspare
  refine List.find?_range_eq_some.2 ⟨?_, hmem, fun j hj => ?_⟩
  · rw [(State.laneMarked_spare_ne (Ne.symm hi)).1, (State.laneMarked_spare_ne (Ne.symm hi)).2]
    exact hk
  · by_cases hji : j = i
    · have hoff : (s.laneMarked q i).rd F.PLK_LANE_SPARE q j = 0 := by
        rw [hji]
        exact (State.rd_wr_fld (by decide)).trans State.rd_wr_self
      simp [hoff]
    · rw [(State.laneMarked_spare_ne hji).1, (State.laneMarked_spare_ne hji).2]
      exact hfirst j hj

theorem State.laneOff_inactive (h : s.logicalOf q i = noLane) : s.laneOff q i = (s.laneMarked q i).syncLanes q := by
  unfold State.laneOff
  exact congrArg (State.syncLanes · q) (if_pos h)

/-- A healthy spare takes the logical lane of the one that failed (R538). -/
def State.spareTakes (s : State) (q k was : Nat) : State := (s.wr F.PLK_LANE_SPARE q 0 k).wr F.PLK_LANE_LOGICAL q was k

theorem State.laneOff_spare (h : s.logicalOf q i ≠ noLane) (hspare : s.spareOf q = some k) (hi : i ≠ k) :
    s.laneOff q i = ((s.laneMarked q i).spareTakes q k (s.logicalOf q i)).syncLanes q := by
  have hs : ((((s.wr F.PLK_LANE_FAILED q 1 i).wr F.PLK_LANE_LOCK q 0 i).wr F.PLK_LANE_SPARE q 0 i).wr F.PLK_LANE_LOGICAL q noLane i).spareOf q = some k :=
    State.laneMarked_spareOf hspare hi
  unfold State.laneOff
  dsimp only
  rw [if_neg h, hs]
  rfl

/-- LANES after the lanes have been looked at again. -/
theorem State.syncLanes_lanes : (s.syncLanes q).rd F.PLK_STATE_LANES q = (s.activeLanes q).length := by
  have hlen : (s.activeLanes q).length < 2 ^ 4 := Nat.lt_of_le_of_lt (List.length_filter_le ..) (by decide)
  unfold State.syncLanes
  refine ((State.syncViews_onlyRegs ..).2 _ _ _ (by decide)).trans ((State.rd_wr_fld (by decide)).trans ((State.rd_wr_fld (by decide)).trans ?_))
  exact State.rd_wr_self.trans (Nat.mod_eq_of_lt hlen)

theorem State.syncLanes_lane {f : Fld} (hf : ∀ g ∈ [F.PLK_STATE_LANES, F.PLK_STATE_LANE_MASK, F.PLK_STATE_SPARE_USED] ++ viewFlds, f.id ≠ g.id := by decide) :
    (s.syncLanes q).rd f q i = s.rd f q i := (State.syncLanes_onlyRegs s q).2 f q i hf

/-- The reads that a lane's event leaves alone. -/
theorem State.laneEvent_rd {f : Fld} {a j : Nat} (hf : ∀ g ∈ eventFlds, f.id ≠ g.id := by decide) : (s.laneEvent q i).rd f a j = s.rd f a j :=
  State.event_rd hf

theorem State.activeLanes_ne_nil (hk : k < 9) (h : s.logicalOf q k ≠ noLane) : (s.activeLanes q).length ≠ 0 := by
  have hin : k ∈ s.activeLanes q := List.mem_filter.2 ⟨List.mem_range.2 hk, by simpa using h⟩
  exact fun h0 => List.ne_nil_of_mem hin (List.length_eq_zero_iff.1 h0)

end Lane

section Fail

variable {s : State} {port : Fin 12} {lane : Fin 9}

theorem execLaneFail_ignored (h : s.laneFailed port.val lane.val = true ∨ s.portState port.val = portDown ∨ s.portState port.val = portFailed) :
    execLaneFail port lane s = .next s := by
  refine congrArg Host.Outcome.next (if_pos ?_)
  rcases h with h | h | h <;> simp [h]

/-- A lane that carries nothing only leaves its failure on record (R537, R538). -/
theorem execLaneFail_inactive (hfailed : s.laneFailed port.val lane.val = false) (hst : s.portState port.val = portSecuring)
    (hlog : s.logicalOf port.val lane.val = noLane) (hact : s.activeLanes port.val ≠ []) :
    execLaneFail port lane s = .next ((s.laneOff port.val lane.val).laneEvent port.val lane.val) := by
  have hlanes : ((s.laneOff port.val lane.val).laneEvent port.val lane.val).rd F.PLK_STATE_LANES port.val ≠ 0 := by
    rw [State.laneEvent_rd, State.laneOff_inactive hlog, State.syncLanes_lanes, State.laneMarked_active hlog]
    exact fun h0 => hact (List.length_eq_zero_iff.1 h0)
  unfold execLaneFail State.failLane
  dsimp only
  rw [if_neg (by simp [hfailed, hst, portSecuring, portDown, portFailed, portTraining]), if_neg hlanes, if_neg (by simp [hlog])]

theorem laneFail_inactive (hfailed : s.laneFailed port.val lane.val = false) (hst : s.portState port.val = portSecuring)
    (hlog : s.logicalOf port.val lane.val = noLane) (hact : s.activeLanes port.val ≠ []) :
    ∃ t, execLaneFail port lane s = .next t ∧ t = (s.laneOff port.val lane.val).laneEvent port.val lane.val ∧
      t.laneFailed port.val lane.val = true ∧ t.logicalOf port.val lane.val = noLane ∧ t.mem = s.mem := by
  refine ⟨_, execLaneFail_inactive hfailed hst hlog hact, rfl, ?_, ?_, ?_⟩
  · refine decide_eq_true ((State.laneEvent_rd).trans ?_)
    rw [State.laneOff_inactive hlog]
    exact (State.syncLanes_lane).trans State.laneMarked_failed
  · refine (State.laneEvent_rd).trans ?_
    rw [State.laneOff_inactive hlog]
    exact (State.syncLanes_lane).trans ((State.laneMarked_logical _).trans (if_pos rfl))
  · exact (State.event_mem ..).trans (State.laneOff_onlyRegs ..).mem

/-- A retrain changes no lane (R539). -/
theorem State.beginRetrain_rd {q : Nat} {f : Fld} {a j : Nat}
    (hf : ∀ g ∈ F.PLK_DEGRADE_COUNT :: F.PLK_DEGRADE_OVF :: F.PLK_STATE_STATE :: viewFlds, f.id ≠ g.id := by decide) :
    (s.beginRetrain q).rd f a j = s.rd f a j := by
  refine (State.rd_emit ..).trans (((State.setPortState_onlyRegs ..).2 f a j fun g hg => hf g (List.mem_cons_of_mem _ (List.mem_cons_of_mem _ hg))).trans ?_)
  exact State.rd_bump_fld (hf _ (by simp)) (hf F.PLK_DEGRADE_OVF (by simp))

theorem State.beginRetrain_portState {q : Nat} : (s.beginRetrain q).portState q = portRetraining :=
  (State.rd_emit ..).trans (State.portState_setPortState (by decide))

theorem State.beginRetrain_count {q : Nat} : (s.beginRetrain q).rd F.PLK_DEGRADE_COUNT q = min (s.rd F.PLK_DEGRADE_COUNT q + 1) maxCount :=
  (State.rd_emit ..).trans (((State.setPortState_onlyRegs ..).2 _ _ _ (by decide)).trans (State.rd_bump_self rfl (by decide)))

theorem execLaneFail_retrains (hfailed : s.laneFailed port.val lane.val = false) (hst : s.portState port.val = portActiveCode)
    (hlog : s.logicalOf port.val lane.val < noLane) (hspare : s.spareOf port.val = some 8) (hlane : lane.val ≠ 8) :
    execLaneFail port lane s = .next (((s.laneOff port.val lane.val).laneEvent port.val lane.val).beginRetrain port.val) := by
  have hoff := State.laneOff_spare (Nat.ne_of_lt hlog) hspare hlane
  have hlanes : ((s.laneOff port.val lane.val).laneEvent port.val lane.val).rd F.PLK_STATE_LANES port.val ≠ 0 := by
    rw [State.laneEvent_rd, hoff, State.syncLanes_lanes]
    refine State.activeLanes_ne_nil (k := 8) (by decide) ?_
    rw [State.logicalOf, State.spareTakes, State.rd_wr_self, Nat.mod_eq_of_lt (Nat.lt_trans hlog (by decide))]
    exact Nat.ne_of_lt hlog
  unfold execLaneFail State.failLane
  dsimp only
  rw [if_neg (by simp [hfailed, hst, portActiveCode, portDown, portFailed, portTraining]), if_neg hlanes,
    if_pos ⟨by simpa using Nat.ne_of_lt hlog, .inl hst⟩]

theorem laneFail_retrains (hfailed : s.laneFailed port.val lane.val = false) (hst : s.portState port.val = portActiveCode)
    (hlog : s.logicalOf port.val lane.val < noLane) (hspare : s.spareOf port.val = some 8) (hlane : lane.val ≠ 8) :
    ∃ t, execLaneFail port lane s = .next t ∧ t.portState port.val = portRetraining ∧ t.laneFailed port.val lane.val = true ∧
      t.logicalOf port.val 8 = s.logicalOf port.val lane.val ∧
      t.rd F.PLK_DEGRADE_COUNT port.val = min (s.rd F.PLK_DEGRADE_COUNT port.val + 1) maxCount := by
  have hoff := State.laneOff_spare (Nat.ne_of_lt hlog) hspare hlane
  refine ⟨_, execLaneFail_retrains hfailed hst hlog hspare hlane, State.beginRetrain_portState, ?_, ?_, ?_⟩
  · refine decide_eq_true ((State.beginRetrain_rd).trans ((State.laneEvent_rd).trans ?_))
    rw [hoff]
    exact (State.syncLanes_lane).trans ((State.rd_wr_fld (by decide)).trans ((State.rd_wr_fld (by decide)).trans State.laneMarked_failed))
  · refine (State.beginRetrain_rd).trans ((State.laneEvent_rd).trans ?_)
    rw [hoff]
    exact (State.syncLanes_lane).trans (State.rd_wr_self.trans (Nat.mod_eq_of_lt (Nat.lt_trans hlog (by decide))))
  · rw [State.beginRetrain_count, State.laneEvent_rd, (State.laneOff_onlyRegs ..).2 _ _ _ (by decide)]

end Fail

/-! ### Retraining and going down -/

section Retrain

variable {s : State} {port : Fin 12}

theorem execRetrainSequenceReceive_confirms {mask : Nat} (hst : s.portState port.val = portActiveCode ∨ s.portState port.val = portRetraining)
    (hall : ∀ i ∈ s.activeLanes port.val, hasBit mask i = true) :
    execRetrainSequenceReceive port mask s = .next (s.setPort port.val { s.portOf port.val with goodAt := s.now }) := by
  have hgone : (s.activeLanes port.val).filter (fun i => !hasBit mask i) = [] := List.filter_eq_nil_iff.2 fun i hi => by simp [hall i hi]
  unfold execRetrainSequenceReceive
  dsimp only
  rw [if_pos hst]
  exact if_pos hgone

/-- The port as both ends resume: every retained flit is to replay (R539). -/
def Port.resumed (x : Port) (now rx : Nat) : Port :=
  { x with resume := true, mapEpoch := (x.mapEpoch + 1) % 256, rxFlits := rx, replay := x.retry.map (fun y => y.seq), replayFirst := true,
           nak := true, nakWait := 0, goodAt := now }

theorem execRetrainResume_resumes {count : Nat} (hst : s.portState port.val = portRetraining) (hin : s.now ≤ (s.portOf port.val).since + 2000) :
    execRetrainResume port count s = .next (((((s.setPort port.val ((s.portOf port.val).resumed s.now
      (if s.rd F.PLK_STATE_ENCRYPTED port.val = 1 then count else (s.portOf port.val).rxFlits))).bump F.PLK_REPLAY_COUNT port.val).setPortState
        port.val portActiveCode).portUpEvent port.val).portDone port.val 5 0) := if_pos ⟨hst, hin⟩

theorem retrainResume_resumes {count : Nat} (hst : s.portState port.val = portRetraining) (hin : s.now ≤ (s.portOf port.val).since + 2000) :
    ∃ t, execRetrainResume port count s = .next t ∧ t.portState port.val = portActiveCode ∧
      (t.portOf port.val).replay = (s.portOf port.val).retry.map (fun y => y.seq) ∧ (t.portOf port.val).resume = true ∧ t.mem = s.mem := by
  refine ⟨_, execRetrainResume_resumes hst hin, ?_⟩
  generalize hx : (s.portOf port.val).resumed s.now _ = x
  generalize hu : (s.setPort port.val x).bump F.PLK_REPLAY_COUNT port.val = u
  have hport : u.portOf port.val = x := by rw [← hu, State.portOf_bump, State.portOf_setPort_self]
  have hmem : u.mem = s.mem := by rw [← hu, State.bump_mem, State.setPort_mem]
  have hframe : BaseFrame [F.PLK_STATE_STATE] (u.setPortState port.val portActiveCode)
      (((u.setPortState port.val portActiveCode).portUpEvent port.val).portDone port.val 5 0) := ((BaseFrame.refl _).portUpEvent _).portDone ..
  refine ⟨(hframe.rd (by simp) ..).trans (State.portState_setPortState (by decide)), ?_, ?_, ?_⟩
  · rw [hframe.portOf, (State.setPortState_onlyRegs ..).portOf, hport, ← hx]
    rfl
  · rw [hframe.portOf, (State.setPortState_onlyRegs ..).portOf, hport, ← hx]
    rfl
  · exact hframe.mem.trans ((State.setPortState_onlyRegs ..).mem.trans hmem)

theorem execPortDown_trains {reasons : List Nat} {r : Nat} (hr : [2, 3, 4, 5].find? (fun r => reasons.contains r) = some r)
    (hdown : s.portState port.val ≠ portDown) (hfailed : s.portState port.val ≠ portFailed) :
    ∃ t, execPortDown port reasons s = .next t ∧ t.portState port.val = portTraining ∧ t.rd F.PLK_STATE_REASON port.val = r ∧
      t.rd F.PLK_DOWN_COUNT port.val = min (s.rd F.PLK_DOWN_COUNT port.val + 1) maxCount ∧ (t.portOf port.val).step = 1 := by
  have hmem : r ∈ [2, 3, 4, 5] := List.mem_of_find?_eq_some hr
  have hrange : r ≠ 1 ∧ r < 2 ^ 4 := (by decide : ∀ r ∈ [2, 3, 4, 5], r ≠ 1 ∧ r < 2 ^ 4) r hmem
  obtain ⟨u, heq, hreason, hcount, -⟩ := State.goDown_trains hdown hfailed hrange.1
  have hexec : execPortDown port reasons s = .next (u.startTraining port.val 0) := by
    unfold execPortDown
    rw [hr, ← heq]
  have hflds : SameFlds downFlds u (u.startTraining port.val 0) := State.startTraining_flds
  refine ⟨_, hexec, State.startTraining_portState, ?_, ?_, ?_⟩
  · rw [hflds _ (by simp [downFlds]), hreason, Nat.mod_eq_of_lt hrange.2]
  · rw [hflds _ (by simp [downFlds]), hcount]
  · rw [State.startTraining_portOf]
    rfl

end Retrain

/-- Settles O40: a lane's failure by what `laneOff` leaves, a retrain and a port's going down by their equations. -/
theorem linkLanesAndDown : Obligations.LinkLanesAndDown := by
  refine fun s port => ⟨fun lane => ⟨fun h => execLaneFail_ignored h, fun hfailed hst hlog hact => laneFail_inactive hfailed hst hlog hact,
      fun hfailed hst hlog hspare hlane _ => laneFail_retrains hfailed hst hlog hspare hlane⟩,
    fun errors k hspare => ⟨fun hst => ?_, fun hst => ?_⟩,
    fun mask => ⟨fun hst hall => execRetrainSequenceReceive_confirms hst hall, fun hact hret => if_neg (by simp [hact, hret])⟩,
    fun count hst hin => retrainResume_resumes hst hin,
    fun part => ⟨fun hst hlate => congrArg Host.Outcome.next (if_pos ⟨hst, hlate⟩), fun hin => congrArg Host.Outcome.next (if_neg fun h => absurd h.2 (Nat.not_lt.2 hin))⟩,
    fun hst => ⟨fun hlate => congrArg Host.Outcome.next (if_pos ⟨hst, hlate⟩), fun hin => congrArg Host.Outcome.next (if_neg fun h => absurd h.2 (Nat.not_le.2 hin))⟩,
    fun reasons r hr hdown hfailed => execPortDown_trains hr hdown hfailed⟩
  · show execSpareLaneTestFail port errors s = _
    unfold execSpareLaneTestFail
    rw [hspare]
    exact congrArg Host.Outcome.next (if_pos hst)
  · show execSpareLaneTestFail port errors s = _
    unfold execSpareLaneTestFail
    rw [hspare]
    exact congrArg Host.Outcome.next (if_neg hst)

end Sys2Proof.Machine
end

section
/-! PROOFS. The training of a port (chapter 18, R512 to R515, R523). -/

-- Proofs side by side each take a thread with its stack: together they pass the bound on memory.
set_option Elab.async false

namespace Sys2Proof.Machine

/-! ### Entering ACTIVE -/

section Active

variable {s : State} {q : Nat}

theorem State.setLock_rd {b : Nat} {v : Bool} {f : Fld} {i j : Nat} (hf : f.id ≠ F.CLK_STAT_LOCK.id := by decide) :
    (s.setLock b v).rd f i j = s.rd f i j := State.rd_wr_fld hf

theorem State.initCredits_step : ((s.initCredits q).portOf q).step = (s.portOf q).step := by rw [State.initCredits, State.portOf_setPort_self]

theorem State.portGoesActive_frame (s : State) (q : Nat) : ∃ u : State,
    BaseFrame [F.PLK_STATE_STATE, F.PLK_STATE_ENCRYPTED] (u.setPortState q portActiveCode) (s.portGoesActive q) ∧ u.regs = (s.setLock 7 true).regs ∧
      u.mem = s.mem ∧ (u.portOf q).step = 0 := by
  refine ⟨_, ((BaseFrame.refl _).portUpEvent q).portDone q 0 0, rfl, rfl, ?_⟩
  rw [State.initCredits_step]
  exact congrArg Port.step (State.portOf_setPort_self (s := s) (q := q) (x := { s.portOf q with step := 0, tries := 0, goodAt := s.now }))

theorem State.portGoesActive_portState : (s.portGoesActive q).portState q = portActiveCode := by
  obtain ⟨u, hu, -, -, -⟩ := s.portGoesActive_frame q
  exact (hu.rd (by simp) ..).trans (State.portState_setPortState (by decide))

theorem State.portGoesActive_encrypted : (s.portGoesActive q).rd F.PLK_STATE_ENCRYPTED q = s.rd F.PLK_STATE_ENCRYPTED q := by
  obtain ⟨u, hu, hregs, -, -⟩ := s.portGoesActive_frame q
  rw [hu.rd (by simp), (State.setPortState_onlyRegs ..).2 _ _ _ (by decide), State.rd_congr hregs, State.setLock_rd]

theorem State.portGoesActive_step : ((s.portGoesActive q).portOf q).step = 0 := by
  obtain ⟨u, hu, -, -, hstep⟩ := s.portGoesActive_frame q
  rw [hu.portOf, (State.setPortState_onlyRegs ..).portOf, hstep]

end Active

/-! ### The end of a step -/

section Step

variable {s v : State} {port : Fin 12} {started since : Nat} {lanes : List (Fin 9)} {x : Port}

/-- A step of a training is over in time: the port is in training, and the step's deadline has not passed (R514). -/
structure StepInTime (s : State) (port : Fin 12) (started since : Nat) (x : Port) : Prop where
  portOf : s.portOf port.val = x
  training : s.portState port.val = portTraining ∨ s.portState port.val = portSecuring
  step : x.step ≠ 0
  start : since = if x.step = 1 then max started x.since else x.since
  begun : since ≤ s.now
  inTime : s.now ≤ since + stepDeadline x.step

/-- What follows a step that leaves a healthy lane (R514). -/
def State.stepLeads (v : State) (q since : Nat) (x : Port) : State :=
  match x.step with
  | 1 => v.setPort q { v.portOf q with step := 2, since := since }
  | 2 => v.setPort q { v.portOf q with step := 3, since := since }
  | 3 =>
    let w := ((List.range 9).filter (fun i => v.laneFailed q i)).foldl (fun s i => s.laneOff q i) (v.lanesFull q)
    ((w.setPort q { w.portOf q with step := 4, since := since }).initCredits q).sendCaps q
  | 4 =>
    if v.rd F.PLK_STATE_PEER_VALID q = 0 then v
    else if v.rd F.PLK_CFG_ENCRYPT_REQUIRED q = 1 ∨ x.peerEncrypt = true then
      (v.setPort q { v.portOf q with step := 5, since := since }).setPortState q portSecuring
    else v.portGoesActive q
  | _ =>
    let w := ((v.closeSession 2 q).openSession 2 q).wr F.PLK_STATE_ENCRYPTED q 1
    (w.setPort q { w.portOf q with txFlits := 0, rxFlits := 0 }).portGoesActive q

/-- What a step's end does in state `v`, when the failed lanes have been noted (R514, R515). -/
def State.stepEnds (v : State) (q since : Nat) (x : Port) : State :=
  if (List.range 9).all (fun i => v.laneFailed q i) then v.abandonTraining q false else v.stepLeads q since x

theorem execTrainingStepEnd_ends (h : StepInTime s port started since x)
    (hv : v = if x.step ≤ 2 then lanes.foldl (fun s i => s.wr F.PLK_LANE_FAILED port.val 1 i.val) s else s) :
    execTrainingStepEnd port started lanes s = .next (v.stepEnds port.val since x) := by
  obtain ⟨hx, hst, hstep, hsince, hbegun, hin⟩ := h
  have hgo : ¬ ((s.portState port.val ≠ portTraining ∧ s.portState port.val ≠ portSecuring) ∨ x.step = 0 ∨ since + stepDeadline x.step < s.now ∨
      s.now < since) := by
    have : ¬ (s.portState port.val ≠ portTraining ∧ s.portState port.val ≠ portSecuring) := by rcases hst with hst | hst <;> simp [hst]
    simp only [this, hstep, false_or]
    omega
  unfold execTrainingStepEnd State.stepEnds State.stepLeads
  dsimp only
  rw [hx, ← hsince, if_neg hgo, ← hv]
  by_cases hall : (List.range 9).all (fun i => v.laneFailed port.val i) = true
  · rw [if_pos hall, if_pos hall]
  · rw [if_neg hall, if_neg hall]
    match hn : x.step with
    | 0 => exact absurd hn hstep
    | 1 => rfl
    | 2 => rfl
    | 3 => rfl
    | 4 => simp only [apply_ite Host.Outcome.next]
    | n + 5 => rfl

/-- The failed lanes that a step notes are the only thing that they change. -/
theorem State.noteLanes_onlyRegs (s : State) (q step : Nat) (lanes : List (Fin 9)) :
    OnlyRegs s (if step ≤ 2 then lanes.foldl (fun s i => s.wr F.PLK_LANE_FAILED q 1 i.val) s else s) [F.PLK_LANE_FAILED] :=
  onlyRegs_ite (onlyRegs_foldl onlyRegs_refl fun _ _ hu => onlyRegs_wr hu (by simp)) onlyRegs_refl

variable {q : Nat}

theorem State.stepEnds_abandons (hall : ∀ i < 9, v.laneFailed q i = true) : v.stepEnds q since x = v.abandonTraining q false :=
  if_pos (List.all_eq_true.2 fun i hi => hall i (List.mem_range.1 hi))

/-- With a healthy lane the step leads on. -/
theorem State.stepEnds_leads (hlane : ∃ i < 9, v.laneFailed q i = false) : v.stepEnds q since x = v.stepLeads q since x := by
  obtain ⟨i, hi, hlane⟩ := hlane
  exact if_neg fun hall => by simp [List.all_eq_true.1 hall i (List.mem_range.2 hi)] at hlane

theorem State.stepLeads_early (hpos : x.step ≠ 0) (hstep : x.step ≤ 2) :
    v.stepLeads q since x = v.setPort q { v.portOf q with step := x.step + 1, since := since } := by
  unfold State.stepLeads
  obtain h | h : x.step = 1 ∨ x.step = 2 := by omega
  all_goals simp only [h]

/-- Step 3 leads to step 4, with CAPS sent (R514, R523). -/
theorem State.stepLeads_caps (hstep : x.step = 3) :
    ((v.stepLeads q since x).portOf q).step = 4 ∧ (v.stepLeads q since x).mem = v.mem := by
  unfold State.stepLeads
  simp only [hstep]
  generalize hw : List.foldl _ (v.lanesFull q) _ = w
  have hlanes : OnlyRegs v w laneFlds :=
    hw ▸ onlyRegs_foldl (State.lanesFull_onlyRegs v q) fun u i hu => hu.andThen (State.laneOff_onlyRegs ..) (List.Subset.refl _)
  exact ⟨State.initCredits_step.trans (congrArg Port.step (State.portOf_setPort_self (s := w) (q := q) (x := { w.portOf q with step := 4, since := since }))),
    hlanes.mem⟩

theorem State.stepLeads_secures (hstep : x.step = 4) (hpeer : v.rd F.PLK_STATE_PEER_VALID q = 1)
    (henc : v.rd F.PLK_CFG_ENCRYPT_REQUIRED q = 1 ∨ x.peerEncrypt = true) :
    v.stepLeads q since x = (v.setPort q { v.portOf q with step := 5, since := since }).setPortState q portSecuring := by
  unfold State.stepLeads
  simp only [hstep]
  rw [if_neg (by simp [hpeer]), if_pos henc]

theorem State.stepLeads_active (hstep : x.step = 4) (hpeer : v.rd F.PLK_STATE_PEER_VALID q = 1)
    (henc : v.rd F.PLK_CFG_ENCRYPT_REQUIRED q ≠ 1) (hpeerEnc : x.peerEncrypt = false) : v.stepLeads q since x = v.portGoesActive q := by
  unfold State.stepLeads
  simp only [hstep]
  rw [if_neg (by simp [hpeer]), if_neg (by simp [henc, hpeerEnc])]

theorem State.stepLeads_secured (hstep : x.step = 5) :
    (v.stepLeads q since x).portState q = portActiveCode ∧ (v.stepLeads q since x).rd F.PLK_STATE_ENCRYPTED q = 1 := by
  unfold State.stepLeads
  simp only [hstep]
  exact ⟨State.portGoesActive_portState, State.portGoesActive_encrypted.trans ((State.rd_setPort ..).trans State.rd_wr_self)⟩

end Step

/-! ### An abandoned training -/

section Abandon

variable {s : State} {q : Nat} {auth : Bool}

theorem State.abandonTraining_again (ht : (s.portOf q).tries < 2) : (s.abandonTraining q auth).portState q = portTraining ∧
    ((s.abandonTraining q auth).portOf q).tries = (s.portOf q).tries + 1 := by
  have heq : s.abandonTraining q auth = s.startTraining q ((s.portOf q).tries + 1) := if_pos (Nat.succ_lt_succ ht)
  rw [heq]
  exact ⟨State.startTraining_portState, congrArg Port.tries State.startTraining_portOf⟩

/-- After the third training the port is FAILED: its REASON tells a failed authentication from a missed deadline (R515). -/
theorem State.abandonTraining_fails (ht : 2 ≤ (s.portOf q).tries) : (s.abandonTraining q auth).portState q = portFailed ∧
    (s.abandonTraining q auth).rd F.PLK_STATE_REASON q = if auth then 4 else 6 := by
  unfold State.abandonTraining
  extract_lets x p0 a b c d
  have hthird : ¬ x.tries + 1 < 3 := Nat.not_lt.2 (Nat.succ_le_succ ht)
  rw [if_neg hthird]
  have hstate : c.portState q = portFailed := State.portState_setPortState (by decide)
  have hreason : c.rd F.PLK_STATE_REASON q = if auth then 4 else 6 := by
    rw [(State.setPortState_onlyRegs ..).2 _ _ _ (by decide), (State.lanesOff_onlyRegs ..).2 _ _ _ (by decide), State.rd_wr_self]
    cases auth <;> rfl
  clear_value c
  have hd : BaseFrame [F.PLK_STATE_STATE, F.PLK_STATE_REASON] c d := ((BaseFrame.refl c).linkAuthFail q).ite (.refl c)
  have hend : ∀ st, BaseFrame [F.PLK_STATE_STATE, F.PLK_STATE_REASON] c (d.portDone q 0 st) := fun st => hd.portDone ..
  exact ⟨((hend _).rd (by simp) ..).trans hstate, ((hend _).rd (by simp) ..).trans hreason⟩

variable {port : Fin 12} {started : Nat} {x : Port}

theorem execTrainingAbandon_late (hx : s.portOf port.val = x) (hst : s.portState port.val = portTraining ∨ s.portState port.val = portSecuring)
    (hstep : 1 < x.step) (hlate : x.since + stepDeadline x.step < s.now) (hauth : x.step = 5 → auth = false) :
    execTrainingAbandon port started auth s = .next (s.abandonTraining port.val false) := by
  have hgo : ¬ ((s.portState port.val ≠ portTraining ∧ s.portState port.val ≠ portSecuring) ∨ x.step = 0) := by
    rcases hst with hst | hst <;> simp [hst] <;> omega
  unfold execTrainingAbandon
  dsimp only
  rw [hx, if_neg hgo, if_neg (fun h => by simp [hauth h.1] at h), if_neg (show ¬ x.step = 1 by omega), if_pos (.inl hlate)]

theorem execTrainingAbandon_auth (hx : s.portOf port.val = x) (hst : s.portState port.val = portTraining ∨ s.portState port.val = portSecuring)
    (hstep : x.step = 5) : execTrainingAbandon port started true s = .next (s.abandonTraining port.val true) := by
  have hgo : ¬ ((s.portState port.val ≠ portTraining ∧ s.portState port.val ≠ portSecuring) ∨ x.step = 0) := by
    rcases hst with hst | hst <;> simp [hst, hstep]
  unfold execTrainingAbandon
  dsimp only
  rw [hx, if_neg hgo, if_pos ⟨hstep, rfl⟩]

end Abandon

/-! ### Messages of a training -/

section Caps

variable {s u : State} {port : Fin 12} {m : Msg}

theorem execCapsReceive_takes (htake : s.takeVl7 port.val m 0x40 = some u) :
    ∃ t, execCapsReceive port m s = .next t ∧ t.rd F.PLK_STATE_PEER_VALID port.val = 1 ∧ (t.portOf port.val).digest = (m.data.drop 6).take 24 ∧
      (t.portOf port.val).peerEncrypt = hasBit (fieldAt m.data 3 1) 0 ∧ t.mem = u.mem := by
  unfold execCapsReceive
  dsimp only
  rw [htake]
  dsimp only
  refine ⟨_, rfl, State.rd_wr_self, ?_, ?_, rfl⟩
  · exact congrArg Port.digest State.portOf_setPort_self
  · exact congrArg Port.peerEncrypt State.portOf_setPort_self

theorem execSpdmFragmentReceive_takes (htake : s.takeVl7 port.val m 0x41 = some u) :
    ∃ t, execSpdmFragmentReceive port m s = .next t ∧ t.regs = u.regs ∧ t.mem = u.mem ∧
      (t.portOf port.val).spdm = (if hasBit (fieldAt m.data 0 1) 0 then [] else (u.portOf port.val).spdm) ++ (m.data.drop 6).take (fieldAt m.data 2 2) := by
  unfold execSpdmFragmentReceive
  dsimp only
  rw [htake]
  dsimp only
  refine ⟨_, rfl, rfl, rfl, ?_⟩
  rw [State.portOf_setPort_self]
  dsimp only
  split <;> simp

end Caps

/-- Settles O41: a step's end by where it leads, an abandoned training by its tries, CAPS and fragments by their equations. -/
theorem linkTraining : Obligations.LinkTraining := by
  refine fun s port => ⟨fun started lanes x since v hx hst hstep hsince hbegun hin hv => ?_,
    fun started auth x hx hst hstep hlate hauth => ⟨fun ht => ?_, fun ht => ?_⟩, fun started x hx hst hstep ht => ?_,
    fun m u htake => execCapsReceive_takes htake, fun m u htake => execSpdmFragmentReceive_takes htake⟩
  · have hends := execTrainingStepEnd_ends ⟨hx, hst, hstep, hsince, hbegun, hin⟩ hv
    have hlanes : OnlyRegs s v [F.PLK_LANE_FAILED] := hv ▸ State.noteLanes_onlyRegs s port.val x.step lanes
    refine ⟨fun hall => hends.trans (congrArg _ (State.stepEnds_abandons hall)), fun hlane => ?_⟩
    rw [State.stepEnds_leads hlane] at hends
    refine ⟨fun h2 => ⟨_, hends, ?_, ?_, ?_, ?_⟩, fun h3 => ⟨_, hends, (State.stepLeads_caps h3).1, (State.stepLeads_caps h3).2.trans hlanes.mem⟩,
      fun h4 hpeer => ⟨fun henc => ⟨_, hends, ?_, ?_⟩, fun henc hpeerEnc => ⟨_, hends, ?_, ?_⟩⟩, fun h5 => ⟨_, hends, State.stepLeads_secured h5⟩⟩
    · rw [State.stepLeads_early hstep h2, State.portOf_setPort_self]
    · rw [State.stepLeads_early hstep h2, State.portOf_setPort_self]
    · rw [State.stepLeads_early hstep h2, State.setPort_regs]
    · rw [State.stepLeads_early hstep h2, State.setPort_mem, hlanes.mem]
    all_goals
      obtain rfl : v = s := hv.trans (if_neg (by omega))
    · rw [State.stepLeads_secures h4 hpeer henc]
      exact State.portState_setPortState (by decide)
    · rw [State.stepLeads_secures h4 hpeer henc, (State.setPortState_onlyRegs ..).portOf, State.portOf_setPort_self]
    · rw [State.stepLeads_active h4 hpeer henc hpeerEnc]
      exact State.portGoesActive_portState
    · rw [State.stepLeads_active h4 hpeer henc hpeerEnc]
      exact State.portGoesActive_step
  · have hagain := State.abandonTraining_again (q := port.val) (auth := false) (hx ▸ ht)
    exact ⟨_, execTrainingAbandon_late hx hst hstep hlate hauth, hagain.1, hagain.2.trans (congrArg (fun y : Port => y.tries + 1) hx)⟩
  · exact ⟨_, execTrainingAbandon_late hx hst hstep hlate hauth, State.abandonTraining_fails (auth := false) (hx ▸ ht)⟩
  · exact ⟨_, execTrainingAbandon_auth hx hst hstep, State.abandonTraining_fails (auth := true) (hx ▸ ht)⟩

end Sys2Proof.Machine
end

section
/-! PROOFS. Idle ports, rekeying and the timebase's messages (chapter 18, R543 to R549, R555). -/

-- Proofs side by side each take a thread with its stack: together they pass the bound on memory.
set_option Elab.async false

namespace Sys2Proof.Machine

section Idle

variable {s u : State} {port : Fin 12} {m : Msg}

theorem execIdleMessageReceive_inactive (htake : s.takeVl7 port.val m 0x43 = some u) (hst : u.portState port.val ≠ portActiveCode) :
    execIdleMessageReceive port m s = .next u := by
  unfold execIdleMessageReceive
  dsimp only
  rw [htake]
  exact if_pos hst

theorem execIdleMessageReceive_request (htake : s.takeVl7 port.val m 0x43 = some u) (hst : u.portState port.val = portActiveCode)
    (hreq : hasBit (fieldAt m.data 0 1) 0 = true) :
    execIdleMessageReceive port m s = .next (u.post (some port.val) 16 7 none (vl7 0x43 (leBytes 2 1))) := by
  unfold execIdleMessageReceive
  dsimp only
  rw [htake]
  dsimp only
  rw [if_neg (not_not.2 hst), if_pos hreq]

theorem execIdleMessageReceive_accepted (htake : s.takeVl7 port.val m 0x43 = some u) (hst : u.portState port.val = portActiveCode)
    (hreq : hasBit (fieldAt m.data 0 1) 0 = false) (hacc : hasBit (fieldAt m.data 0 1) 1 = true) (hidle : (u.portOf port.val).idle = 1) :
    execIdleMessageReceive port m s =
      .next (((u.setPort port.val { u.portOf port.val with idle := 0 }).setPortState port.val portIdleCode).portDone port.val 2 0) := by
  unfold execIdleMessageReceive
  dsimp only
  rw [htake]
  dsimp only
  rw [if_neg (not_not.2 hst), if_neg (by simp [hreq]), if_pos ⟨hacc, hidle⟩]

theorem idleMessageReceive_idles (htake : s.takeVl7 port.val m 0x43 = some u) (hst : u.portState port.val = portActiveCode)
    (hreq : hasBit (fieldAt m.data 0 1) 0 = false) (hacc : hasBit (fieldAt m.data 0 1) 1 = true) (hidle : (u.portOf port.val).idle = 1) :
    ∃ t, execIdleMessageReceive port m s = .next t ∧ t.portState port.val = portIdleCode ∧ (t.portOf port.val).idle = 0 := by
  refine ⟨_, execIdleMessageReceive_accepted htake hst hreq hacc hidle, ?_⟩
  have hend : ∀ w, BaseFrame [F.PLK_STATE_STATE] w (w.portDone port.val 2 0) := fun w => (BaseFrame.refl w).portDone ..
  refine ⟨((hend _).rd (by simp) ..).trans (State.portState_setPortState (by decide)), ?_⟩
  rw [(hend _).portOf, (State.setPortState_onlyRegs ..).portOf, State.portOf_setPort_self]

end Idle

/-! ### Rekeying -/

section Rekey

variable {s u : State} {port : Fin 12} {m : Msg} {q : Nat}

theorem State.startRekey_regs : (s.startRekey q).regs = s.regs := (apply_ite State.regs ..).trans (ite_self _)

theorem State.startRekey_mem : (s.startRekey q).mem = s.mem := (apply_ite State.mem ..).trans (ite_self _)

theorem State.startRekey_rekeying : ((s.startRekey q).portOf q).rekeying = true := by
  unfold State.startRekey
  split
  · assumption
  · rw [State.portOf_setPort_self]

/-- The transmitter uses `slot` from now on, and its count begins again (R544). -/
def State.switchTx (s : State) (q slot : Nat) : State :=
  let a := (s.wr F.PLK_STATE_KEY_TX q slot).wr F.PLK_KEY_REKEYS q (s.rd F.PLK_KEY_REKEYS q + 1)
  (a.setPort q { a.portOf q with txFlits := 0, peerReady := some slot }).wr F.PLK_KEY_TX_MFLITS q 0

/-- A rekey whose receiver has switched before is over (R544). -/
def State.rekeyEnds (s : State) (q slot : Nat) : State :=
  if s.rd F.PLK_STATE_KEY_RX q = slot then (s.setPort q { s.portOf q with rekeying := false, peerReady := none }).portDone q 3 0 else s

theorem execKeyReadyReceive_switches (htake : s.takeVl7 port.val m 0x44 = some u) (henc : u.rd F.PLK_STATE_ENCRYPTED port.val = 1)
    (hslot : fieldAt m.data 0 1 % 2 ≠ u.rd F.PLK_STATE_KEY_TX port.val) :
    execKeyReadyReceive port m s =
      .next (((u.startRekey port.val).switchTx port.val (fieldAt m.data 0 1 % 2)).rekeyEnds port.val (fieldAt m.data 0 1 % 2)) := by
  have hslot' : ¬ fieldAt m.data 0 1 % 2 = (u.startRekey port.val).rd F.PLK_STATE_KEY_TX port.val := by
    rw [State.rd_congr State.startRekey_regs]
    exact hslot
  unfold execKeyReadyReceive
  dsimp only
  rw [htake]
  dsimp only
  rw [if_neg (by simp [henc]), if_neg hslot']
  rfl

theorem State.rekeyEnds_frame (s : State) (q slot : Nat) : SameFlds [F.PLK_STATE_KEY_TX, F.PLK_KEY_TX_MFLITS] s (s.rekeyEnds q slot) ∧
    ((s.rekeyEnds q slot).portOf q).txFlits = (s.portOf q).txFlits := by
  unfold State.rekeyEnds
  split
  · have hend : ∀ w, BaseFrame [F.PLK_STATE_KEY_TX, F.PLK_KEY_TX_MFLITS] w (w.portDone q 3 0) := fun w => (BaseFrame.refl w).portDone ..
    refine ⟨((SameFlds.refl s).beside rfl).trans (hend _).flds, ?_⟩
    rw [(hend _).portOf, State.portOf_setPort_self]
  · exact ⟨.refl s, rfl⟩

theorem keyReadyReceive_switches (htake : s.takeVl7 port.val m 0x44 = some u) (henc : u.rd F.PLK_STATE_ENCRYPTED port.val = 1)
    (hslot : fieldAt m.data 0 1 % 2 ≠ u.rd F.PLK_STATE_KEY_TX port.val) : ∃ t, execKeyReadyReceive port m s = .next t ∧
      t.rd F.PLK_STATE_KEY_TX port.val = fieldAt m.data 0 1 % 2 ∧ (t.portOf port.val).txFlits = 0 ∧ t.rd F.PLK_KEY_TX_MFLITS port.val = 0 := by
  obtain ⟨hflds, htx⟩ := ((u.startRekey port.val).switchTx port.val (fieldAt m.data 0 1 % 2)).rekeyEnds_frame port.val (fieldAt m.data 0 1 % 2)
  refine ⟨_, execKeyReadyReceive_switches htake henc hslot, ?_, ?_, ?_⟩
  · refine (hflds _ (by simp) ..).trans ((State.rd_wr_fld (by decide)).trans ((State.rd_setPort ..).trans ((State.rd_wr_fld (by decide)).trans ?_)))
    exact State.rd_wr_self.trans (Nat.mod_mod _ 2)
  · rw [htx]
    exact congrArg Port.txFlits State.portOf_setPort_self
  · exact (hflds _ (by simp) ..).trans State.rd_wr_self

end Rekey

/-! ### The timebase -/

section Time

variable {s u : State} {port : Fin 12} {m : Msg} {tRx : Nat}

theorem execTimeMessageSend_sends (hact : s.portActive port.val = true) : ∃ t, execTimeMessageSend port s = .next t ∧ t.regs = s.regs ∧ t.mem = s.mem ∧
    (t.portOf port.val).timeSeq = ((s.portOf port.val).timeSeq + 1) % 2 ^ 32 := by
  unfold execTimeMessageSend
  dsimp only
  rw [if_neg (by simp [hact])]
  exact ⟨_, rfl, rfl, rfl, congrArg Port.timeSeq State.portOf_setPort_self⟩

/-- A TIME message's echo and lock are noted whoever is followed (R546). -/
def State.noteTime (s : State) (q : Nat) (m : Msg) (tRx : Nat) : State :=
  s.setPort q { s.portOf q with echo := (fieldAt m.data 6 8, tRx), peerLocked := hasBit (fieldAt m.data 0 1) 0 }

theorem execTimeMessageReceive_notes (htake : s.takeVl7 port.val m 0x42 = some u)
    (h : (u.noteTime port.val m tRx).followed ≠ some port.val ∨ fieldAt m.data 14 8 = 0) :
    execTimeMessageReceive port m tRx s = .next (u.noteTime port.val m tRx) := by
  have hnot : (u.noteTime port.val m tRx).followed ≠ some port.val ∨ (fieldAt m.data 14 8 == 0) = true := h.imp id fun h0 => by simp [h0]
  unfold State.noteTime at hnot ⊢
  simp only [execTimeMessageReceive, htake]
  exact if_pos hnot

/-- The correction of the timebase: one step, or a slew (R547). -/
def State.correctTime (s : State) (offset : Int) : State :=
  let steps := s.net.stepped = false ∧ offset < -1000000
  let ns : Int := offset / 1000
  let a : State := if steps then s.wr F.CNT_TIMEBASE_TIME 0 (s.now + (-ns).toNat) else { s with net := { s.net with slew := -ns } }
  if steps then { a with net := { a.net with stepped := true } } else a

/-- The good messages in a row (R548). -/
def State.countTime (s : State) (q hops : Nat) (good : Prop) [Decidable good] : State :=
  let n := if good then (s.portOf q).goodTimes + 1 else 0
  let a := s.setPort q { s.portOf q with goodTimes := min n 64 }
  if 64 ≤ n then
    let b : State := { a with net := { a.net with stepped := true } }
    (b.wr F.PLK_TIME_LOCKED 0 1).wr F.PLK_TIME_HOPS 0 (hops + 1)
  else a

theorem execTimeMessageReceive_follows {delay offset : Int} (htake : s.takeVl7 port.val m 0x42 = some u)
    (hfol : (u.noteTime port.val m tRx).followed = some port.val) (hfirst : fieldAt m.data 14 8 ≠ 0)
    (hdelay : delay = (((tRx : Int) - fieldAt m.data 14 8) - ((fieldAt m.data 6 8 : Int) - fieldAt m.data 22 8)) * 1000 / 2)
    (hoffset : offset = ((tRx : Int) - fieldAt m.data 6 8) * 1000 - delay - signedAt (u.rd F.PLK_CFG_ASYM_PS port.val) 16) :
    execTimeMessageReceive port m tRx s = .next (((((u.noteTime port.val m tRx).wr F.PLK_DELAY_DELAY_PS port.val (unsignedOf delay 32)).wr
      F.PLK_TIME_OFFSET_PS 0 (unsignedOf offset 32)).correctTime offset).countTime port.val (fieldAt m.data 1 1)
        (hasBit (fieldAt m.data 0 1) 0 = true ∧ -2000 < offset ∧ offset < 2000)) := by
  unfold execTimeMessageReceive
  extract_lets q
  rw [show s.takeVl7 q m 0x42 = some u from htake]
  dsimp -zeta only
  extract_lets x a ofs d steps ns net b net' c y good n e net'' f
  have ha : a = u.noteTime port.val m tRx := rfl
  have hofs : ofs = offset := by rw [hoffset, hdelay]; rfl
  refine (if_neg ?_).trans ?_
  · rintro (h | h)
    · exact h hfol
    · exact hfirst (beq_iff_eq.1 h)
  · have hd : d = ((u.noteTime port.val m tRx).wr F.PLK_DELAY_DELAY_PS port.val (unsignedOf delay 32)).wr F.PLK_TIME_OFFSET_PS 0 (unsignedOf ofs 32) := by
      rw [hdelay]
      rfl
    have hc : c = d.correctTime ofs := rfl
    have hf : (if 64 ≤ n then ((f.wr F.PLK_TIME_LOCKED 0 1).wr F.PLK_TIME_HOPS 0 (fieldAt m.data 1 1 + 1)) else e) =
      c.countTime port.val (fieldAt m.data 1 1) (hasBit (fieldAt m.data 0 1) 0 = true ∧ -2000 < ofs ∧ ofs < 2000) := rfl
    rw [← hofs, ← hd, ← hc, ← hf]
    exact (apply_ite Host.Outcome.next ..).symm

theorem State.correctTime_frame (s : State) (offset : Int) :
    SameFlds [F.PLK_DELAY_DELAY_PS, F.PLK_TIME_OFFSET_PS] s (s.correctTime offset) ∧ (s.correctTime offset).mem = s.mem ∧
      (s.correctTime offset).net.ports = s.net.ports := by
  unfold State.correctTime
  dsimp only
  split
  · exact ⟨((SameFlds.refl s).wr).beside rfl, rfl, rfl⟩
  · exact ⟨(SameFlds.refl s).beside rfl, rfl, rfl⟩

section Count

variable {v : State} {q hops : Nat} {good : Prop} [Decidable good]

theorem State.countTime_flds : SameFlds [F.PLK_DELAY_DELAY_PS, F.PLK_TIME_OFFSET_PS] v (v.countTime q hops good) := by
  unfold State.countTime
  extract_lets n x a net b
  have ha : SameFlds [F.PLK_DELAY_DELAY_PS, F.PLK_TIME_OFFSET_PS] v a := (SameFlds.refl v).beside rfl
  have hb : SameFlds [F.PLK_DELAY_DELAY_PS, F.PLK_TIME_OFFSET_PS] v b := ha.beside rfl
  exact ((hb.wr).wr).ite ha

theorem State.countTime_mem : (v.countTime q hops good).mem = v.mem := (apply_ite State.mem ..).trans (ite_self _)

theorem State.countTime_portOf : (v.countTime q hops good).portOf q =
    { v.portOf q with goodTimes := min (if good then (v.portOf q).goodTimes + 1 else 0) 64 } := by
  unfold State.countTime
  extract_lets n x a net b
  have ha : a.portOf q = { v.portOf q with goodTimes := min n 64 } := State.portOf_setPort_self
  exact (apply_ite (fun t : State => t.portOf q) ..).trans (ite_both ha ha)

end Count

theorem unsignedOf_mod (x : Int) (w : Nat) : unsignedOf x w % 2 ^ w = unsignedOf x w := by
  refine Nat.mod_eq_of_lt ?_
  have hpos : (0 : Int) < 2 ^ w := by positivity
  have hlt : x % 2 ^ w < 2 ^ w := Int.emod_lt_of_pos x hpos
  have hnonneg : 0 ≤ x % 2 ^ w := Int.emod_nonneg x (ne_of_gt hpos)
  unfold unsignedOf
  zify
  rwa [Int.toNat_of_nonneg hnonneg]

theorem timeMessageReceive_follows {delay offset : Int} (htake : s.takeVl7 port.val m 0x42 = some u)
    (hfol : (u.noteTime port.val m tRx).followed = some port.val) (hfirst : fieldAt m.data 14 8 ≠ 0)
    (hdelay : delay = (((tRx : Int) - fieldAt m.data 14 8) - ((fieldAt m.data 6 8 : Int) - fieldAt m.data 22 8)) * 1000 / 2)
    (hoffset : offset = ((tRx : Int) - fieldAt m.data 6 8) * 1000 - delay - signedAt (u.rd F.PLK_CFG_ASYM_PS port.val) 16) :
    ∃ t, execTimeMessageReceive port m tRx s = .next t ∧ t.rd F.PLK_DELAY_DELAY_PS port.val = unsignedOf delay 32 ∧
      t.rd F.PLK_TIME_OFFSET_PS 0 = unsignedOf offset 32 ∧ (t.portOf port.val).echo = (fieldAt m.data 6 8, tRx) ∧ t.mem = u.mem ∧
      ((2000 ≤ offset ∨ offset ≤ -2000) → (t.portOf port.val).goodTimes = 0) := by
  refine ⟨_, execTimeMessageReceive_follows htake hfol hfirst hdelay hoffset, ?_⟩
  generalize hw : ((u.noteTime port.val m tRx).wr F.PLK_DELAY_DELAY_PS port.val (unsignedOf delay 32)).wr F.PLK_TIME_OFFSET_PS 0 (unsignedOf offset 32) = w
  obtain ⟨hflds, hmem, hports⟩ := w.correctTime_frame offset
  have hecho : (w.portOf port.val).echo = (fieldAt m.data 6 8, tRx) := by
    rw [← hw]
    exact congrArg Port.echo (State.portOf_setPort_self (s := u))
  refine ⟨?_, ?_, ?_, ?_, fun hout => ?_⟩
  · rw [State.countTime_flds _ (by simp), hflds _ (by simp), ← hw, State.rd_wr_fld (by decide), State.rd_wr_self]
    exact unsignedOf_mod delay 32
  · rw [State.countTime_flds _ (by simp), hflds _ (by simp), ← hw, State.rd_wr_self]
    exact unsignedOf_mod offset 32
  · rw [State.countTime_portOf, State.portOf_congr hports]
    exact hecho
  · rw [State.countTime_mem, hmem, ← hw]
    rfl
  · rw [State.countTime_portOf, if_neg (by omega)]
    rfl

/-- Without an upstream or a backup the module unlocks (R548). -/
theorem execTimeUnlock_unlocks (hmaster : s.rd F.PLK_TIME_MASTER 0 = 0) (hlocked : s.rd F.PLK_TIME_LOCKED 0 = 1)
    (hup : 12 ≤ s.rd F.PLK_TIME_UPSTREAM 0) (hback : 12 ≤ s.rd F.PLK_TIME_BACKUP 0) :
    ∃ t, execTimeUnlock s = .next t ∧ t.rd F.PLK_TIME_LOCKED 0 = 0 ∧ t.rd F.PLK_TIME_HOPS 0 = 15 ∧ t.mem = s.mem ∧
      t.rd F.PLK_TIME_EVT_COUNT 0 = min (s.rd F.PLK_TIME_EVT_COUNT 0 + 1) maxCount := by
  unfold execTimeUnlock
  extract_lets ok a b
  rw [if_neg (by simp [ok, hmaster, hlocked, hup, hback])]
  have hframe : BaseFrame [F.PLK_TIME_LOCKED, F.PLK_TIME_HOPS, F.PLK_TIME_EVT_OVF, F.PLK_TIME_EVT_COUNT] a (b.event 0 0x43 0 0) :=
    ((BaseFrame.refl a).loopN fun _ _ hu => hu.ite hu.event).event
  refine ⟨_, rfl, ?_, ?_, ?_, ?_⟩
  · rw [hframe.rd (by simp), State.rd_bump_fld (by decide) (by decide), State.rd_wr_fld (by decide), State.rd_wr_self]
    rfl
  · rw [hframe.rd (by simp), State.rd_bump_fld (by decide) (by decide), State.rd_wr_self]
    rfl
  · exact hframe.mem.trans (State.bump_mem ..)
  · rw [hframe.rd (by simp), State.rd_bump_self rfl (by decide), State.rd_wr_fld (by decide), State.rd_wr_fld (by decide)]

end Time

/-- Settles O42: idle and rekey messages by their equations, TIME by what it notes and what following adds. -/
theorem linkKeysAndTime : Obligations.LinkKeysAndTime := by
  refine fun s port => ⟨fun m u htake => ⟨fun hst => execIdleMessageReceive_inactive htake hst,
      fun hst hreq => execIdleMessageReceive_request htake hst hreq, fun hst hreq hacc hidle => idleMessageReceive_idles htake hst hreq hacc hidle⟩,
    fun m u htake => ⟨fun henc => ?_, fun henc hslot => keyReadyReceive_switches htake henc hslot⟩,
    fun hact henc hdue => ⟨_, congrArg Host.Outcome.next (if_pos ⟨hact, henc, hdue⟩), State.startRekey_rekeying, State.startRekey_regs, State.startRekey_mem⟩,
    fun htx hrx => congrArg Host.Outcome.next (if_neg fun h => ?_), fun hact => if_pos hact, fun hact => execTimeMessageSend_sends hact,
    fun m tRx u htake => ⟨fun h => execTimeMessageReceive_notes htake h,
      fun hfol hfirst delay offset hdelay hoffset => timeMessageReceive_follows htake hfol hfirst hdelay hoffset⟩,
    fun h => if_pos (h.imp id .inl), fun hmaster hlocked hup hback => execTimeUnlock_unlocks hmaster hlocked hup hback⟩
  · show execKeyReadyReceive port m s = _
    unfold execKeyReadyReceive
    dsimp only
    rw [htake]
    exact if_pos henc
  · rcases h.2.2 with h | h
    · exact absurd h (Nat.not_le.2 htx)
    · exact absurd h (Nat.not_le.2 hrx)

end Sys2Proof.Machine
end

section
/-! PROOFS. Commands to ports: PORT_CONTROL, TDM_WRITE and LINK_MARGIN (chapter 18, R553 to R557). -/

-- Proofs side by side each take a thread with its stack: together they pass the bound on memory.
set_option Elab.async false

namespace Sys2Proof.Machine

/-! ### PORT_CONTROL -/

section Control

variable {s : State} {h : Hdr} {port : Nat}

theorem State.portControl_goes {bad wrong : Bool} {cmd : Instr} {go : State → State} (hgo : s.portGoes h port bad wrong) :
    s.portControl h port bad wrong cmd go = .next (go (s.portStart h cmd)) :=
  congrArg Host.Outcome.next (State.checked_goes hgo)

theorem State.portStart_mem {cmd : Instr} : (s.portStart h cmd).mem = s.mem := State.start_mem ..

theorem State.portEnd_frame (ks : List Fld) (hf : Apart ks doneFlds := by decide) : BaseFrame ks s (s.portEnd h port) :=
  (BaseFrame.refl s).complete hf

theorem portUp_trains (hgo : s.portGoes h port false ((s.portState port != portDown && s.portState port != portFailed) ||
      s.rd F.RTP_DEV_KILLED 0 == 1)) :
    ∃ t, execPortUp h port s = .next t ∧ t = (s.portStart h (.portUp h port)).startTraining port 0 ∧ t.portState port = portTraining ∧
      (t.portOf port).step = 1 ∧ t.mem = s.mem :=
  have hexec : execPortUp h port s = .next ((s.portStart h (.portUp h port)).startTraining port 0) :=
    State.portControl_goes (cmd := .portUp h port) (go := fun s => s.startTraining port 0) hgo
  ⟨_, hexec, rfl, State.startTraining_portState, congrArg Port.step State.startTraining_portOf,
    State.startTraining_mem.trans State.portStart_mem⟩

theorem portIdle_asks (hgo : s.portGoes h port false (s.portState port != portActiveCode ||
      (List.range 64).any (fun k => decide (s.slotOwner port k < 16)))) :
    ∃ t, execPortIdle h port s = .next t ∧ (t.portOf port).idle = 1 ∧ t.mem = s.mem :=
  ⟨_, State.portControl_goes hgo, congrArg Port.idle State.portOf_setPort_self, State.portStart_mem⟩

theorem portRekey_starts (hgo : s.portGoes h port false (s.portState port != portActiveCode || s.rd F.PLK_STATE_ENCRYPTED port == 0)) :
    ∃ t, execPortRekey h port s = .next t ∧ (t.portOf port).rekeying = true ∧ t.mem = s.mem :=
  ⟨_, State.portControl_goes hgo, State.startRekey_rekeying, State.startRekey_mem.trans State.portStart_mem⟩

theorem execPortRetireLane_fails {lane : Nat} {u : State} (hgo : s.portGoes h port (decide (8 < lane)) (s.portState port != portActiveCode))
    (hu : u = (s.portStart h (.portRetireLane h port lane)).failLane port lane) :
    execPortRetireLane h port lane s = .next (if u.portState port = portActiveCode then u.portEnd h port else u) := by
  rw [hu]
  exact State.portControl_goes hgo

/-- The argument of ENCRYPT is a bit. -/
theorem State.portGoes_field {bad wrong : Bool} (hgo : s.portGoes h port bad wrong) : bad = false := by
  obtain ⟨-, -, -, -, hst⟩ := hgo
  have hfield := firstStatus_eq_zero.1 hst _ (List.mem_cons_self ..)
  cases bad with
  | false => rfl
  | true => simp [failIf] at hfield

theorem portEncrypt_stores {arg : Nat} (hgo : s.portGoes h port (decide (1 < arg)) false) :
    ∃ t, execPortEncrypt h port arg s = .next t ∧ t.rd F.PLK_CFG_ENCRYPT_REQUIRED port = arg ∧ t.mem = s.mem := by
  have harg : arg < 2 ^ 1 := Nat.lt_succ_of_le (Nat.not_lt.1 (of_decide_eq_false (State.portGoes_field hgo)))
  have hend := fun u : State => State.portEnd_frame (s := u) (h := h) (port := port) [F.PLK_CFG_ENCRYPT_REQUIRED]
  exact ⟨_, State.portControl_goes hgo, ((hend _).rd (by simp) ..).trans (State.rd_wr_self.trans (Nat.mod_eq_of_lt harg)),
    (hend _).mem.trans ((State.wr_mem ..).trans State.portStart_mem)⟩

theorem portWake_wakes (hgo : s.portGoes h port false (s.portState port != portIdleCode)) :
    ∃ t, execPortWake h port s = .next t ∧ t.portState port = portActiveCode ∧ t.mem = s.mem := by
  refine ⟨_, State.portControl_goes hgo, ?_⟩
  have hend : ∀ u : State, BaseFrame [F.PLK_STATE_STATE] u ((u.portUpEvent port).portEnd h port) := fun u =>
    ((BaseFrame.refl u).portUpEvent port).trans (State.portEnd_frame _)
  exact ⟨((hend _).rd (by simp) ..).trans (State.portState_setPortState (by decide)),
    (hend _).mem.trans ((State.setPortState_onlyRegs ..).mem.trans State.portStart_mem)⟩

/-! ### The module's time role -/

/-- The fields of the module's role (R546). -/
def timeRoleFlds : List Fld := [F.PLK_TIME_MASTER, F.PLK_TIME_LOCKED, F.PLK_TIME_HOPS]

/-- The end of a command about the module's role, with its duration. -/
def State.timeEnd (s : State) (h : Hdr) : State := s.complete h 0 (s.usSince (nth (s.progOf h) 0) % 2 ^ 32 * 2 ^ 32)

theorem State.timeEnd_frame (s : State) (h : Hdr) : BaseFrame timeRoleFlds s (s.timeEnd h) := (BaseFrame.refl s).complete

theorem execPortTime_master (hgo : s.goes h opPortControl 0) : execPortTime h 0xFF 3 s =
    .next (((((s.portStart h (.portTime h 0xFF 3)).wr F.PLK_TIME_MASTER 0 1).wr F.PLK_TIME_LOCKED 0 1).wr F.PLK_TIME_HOPS 0 0).timeEnd h) :=
  congrArg Host.Outcome.next (State.checked_goes (State.goes_of_status hgo rfl))

theorem portTime_master (hgo : s.goes h opPortControl 0) : ∃ t, execPortTime h 0xFF 3 s = .next t ∧ t.rd F.PLK_TIME_MASTER 0 = 1 ∧
    t.rd F.PLK_TIME_LOCKED 0 = 1 ∧ t.rd F.PLK_TIME_HOPS 0 = 0 ∧ t.mem = s.mem := by
  refine ⟨_, execPortTime_master hgo, ?_, ?_, ?_, (State.timeEnd_frame ..).mem.trans State.portStart_mem⟩ <;>
    rw [(State.timeEnd_frame ..).rd (by simp [timeRoleFlds])]
  · exact (State.rd_wr_fld (by decide)).trans ((State.rd_wr_fld (by decide)).trans State.rd_wr_self)
  · exact (State.rd_wr_fld (by decide)).trans State.rd_wr_self
  · exact State.rd_wr_self

theorem execPortTime_free (hgo : s.goes h opPortControl 0) (hmaster : s.rd F.PLK_TIME_MASTER 0 = 1) : execPortTime h 0xFF 0 s =
    .next ((((s.portStart h (.portTime h 0xFF 0)).timeFree).wr F.PLK_TIME_MASTER 0 0).timeEnd h) := by
  have hstart : (s.portStart h (.portTime h 0xFF 0)).rd F.PLK_TIME_MASTER 0 = 1 :=
    (((BaseFrame.refl s).start : BaseFrame timeRoleFlds s _).rd (by simp [timeRoleFlds]) 0 0).trans hmaster
  have hexec : execPortTime h 0xFF 0 s = .next ((if (s.portStart h (.portTime h 0xFF 0)).rd F.PLK_TIME_MASTER 0 = 1 then
      (s.portStart h (.portTime h 0xFF 0)).timeFree.wr F.PLK_TIME_MASTER 0 0 else s.portStart h (.portTime h 0xFF 0)).timeEnd h) :=
    congrArg Host.Outcome.next (State.checked_goes (State.goes_of_status hgo rfl))
  rw [hexec, if_pos hstart]

theorem portTime_free (hgo : s.goes h opPortControl 0) (hmaster : s.rd F.PLK_TIME_MASTER 0 = 1) :
    ∃ t, execPortTime h 0xFF 0 s = .next t ∧ t.rd F.PLK_TIME_MASTER 0 = 0 ∧ t.rd F.PLK_TIME_LOCKED 0 = 0 := by
  refine ⟨_, execPortTime_free hgo hmaster, ?_, ?_⟩ <;> rw [(State.timeEnd_frame ..).rd (by simp [timeRoleFlds])]
  · exact State.rd_wr_self
  · exact (State.rd_wr_fld (by decide)).trans ((State.rd_wr_fld (by decide)).trans State.rd_wr_self)

theorem execPortTime_port {arg : Nat} (hgo : s.goes h opPortControl 0) (hport : port < 12) (harg : arg < 3) :
    execPortTime h port arg s = .next (((s.portStart h (.portTime h port arg)).setTimeRole port arg).portEnd h port) := by
  have hstatus : failIf (!((port == 0xFF && (arg == 0 || arg == 3)) || (decide (port < 12) && decide (arg < 3)))) 0x803 = 0 := by
    simp [hport, harg, failIf]
  refine congrArg Host.Outcome.next ((State.checked_goes (State.goes_of_status hgo hstatus)).trans ?_)
  exact if_neg (by omega)

end Control

/-! ### TDM_WRITE -/

section Tdm

variable {s : State} {h : Hdr} {port flags transit : Nat} {slots creds : List Nat}

/-- The arguments of a TDM_WRITE with a table and allotments that pass their checks (R554). -/
structure TdmFits (s : State) (port flags transit : Nat) (slots creds : List Nat) : Prop where
  withSlots : hasBit flags 1 = true
  withCreds : hasBit flags 2 = true
  flagBits : flags ≤ 7
  portNo : port ≤ 11
  transitFlits : transit ≤ 4032
  slotsLen : slots.length = 64
  credsLen : creds.length = 80
  allotments : ∀ c ∈ creds, c ≤ 255
  owners : ∀ o ∈ slots, o ≤ 16 ∨ o = 31
  fabric : 2 ≤ (slots.filter (· == 16)).length
  sum : 64 + transit + 8 * creds.foldl (· + ·) 0 ≤ 4096
  reserves : s.portReserves port ≤ transit

/-- Allotments and transit flits are stored (R554). -/
def State.putCreds (s : State) (port transit : Nat) (creds : List Nat) : State :=
  (loopN 80 (fun k s => s.wr F.PLK_CRED_CRED port (nth creds k) k) s).wr F.PLK_TRANSIT_TRANSIT port transit

/-- The credit counts follow the allotments that changed (R528, R554). -/
def State.moveCredits (s : State) (port : Nat) (olds : List Nat) : State :=
  loopN poolCount (fun k s =>
    let a := nth olds k
    let b := s.allotment port k
    let x := s.portOf port
    if a < b then s.setPort port { x with rxCount := tset 0 x.rxCount [k] ((tget 0 x.rxCount [k] + b - a) % 4096) }
    else if b < a then s.setPort port { x with withheld := tset 0 x.withheld [k] (tget 0 x.withheld [k] + a - b) }
    else s) s

/-- A table waits for slot 0 while flits flow, and is in force at once otherwise (R554). -/
def State.putTable (s : State) (port : Nat) (slots : List Nat) (strict : Nat) : State :=
  let u := s.setPort port { s.portOf port with newSlots := some (slots, strict) }
  if u.flitsOn port then u else u.applyTable port

theorem execTdmWrite_goes (hfit : TdmFits s port flags transit slots creds) (hgo : s.goes h opTdmWrite 0) :
    ∃ (olds : List Nat) (told : List Nat), execTdmWrite h port flags transit slots creds s =
      .next (told.foldl (fun s p => s.tdiConfigChanged p) (((((s.start h opTdmWrite (some (.tdmWrite h port flags transit slots creds)) [s.now]).putCreds
        port transit creds).moveCredits port olds).putTable port slots (b2n (hasBit flags 0))))) := by
  obtain ⟨hslots, hcreds, hflags, hport, htransit, hslen, hclen, hcred, hown, hfab, hsum, hres⟩ := hfit
  have hstatus : firstStatus [failIf (decide (11 < port) || decide (7 < flags) || decide (4032 < transit) || (hasBit flags 1 && slots.length != 64) ||
        (hasBit flags 2 && creds.length != 80) || creds.any (fun c => decide (255 < c))) 0x803,
      failIf (slots.any (fun o => !(decide (o ≤ 16) || o == 31)) || decide ((slots.filter (· == 16)).length < 2) ||
        decide (4096 < 64 + transit + 8 * creds.foldl (· + ·) 0)) 0x802,
      failIf (decide (transit < s.portReserves port)) 0x820] = 0 := by
    have hbadCred : creds.any (fun c => decide (255 < c)) = false := List.any_eq_false.2 fun c hc => by simpa using hcred c hc
    have hbadOwner : slots.any (fun o => !(decide (o ≤ 16) || o == 31)) = false := List.any_eq_false.2 fun o ho => by
      rcases hown o ho with ho | ho <;> simp [ho]
    rw [hbadCred, hbadOwner, hslots, hcreds, hslen, hclen]
    simp [firstStatus, failIf, hport, hflags, htransit, Nat.not_lt.2 hfab, Nat.not_lt.2 hsum, Nat.not_lt.2 hres]
  unfold execTdmWrite
  extract_lets withSlots withCreds newSlots newCreds sum strict
  have hnewSlots : newSlots = slots := if_pos hslots
  have hnewCreds : newCreds = creds := if_pos hcreds
  rw [State.checked_goes (State.goes_of_status hgo (by rw [hnewSlots]; exact hnewCreds ▸ hstatus))]
  extract_lets old changed told a olds b c d net e f
  have hc : c = a.putCreds port transit newCreds := rfl
  have hd : d = c.moveCredits port olds := rfl
  have hf : f = d.putTable port newSlots strict := rfl
  refine ⟨olds, told, ?_⟩
  rw [hf, hd, hc, hnewCreds, hnewSlots]

theorem State.flitsOn_congr {t : State} (hst : t.portState port = s.portState port) (hstep : (t.portOf port).step = (s.portOf port).step) :
    t.flitsOn port = s.flitsOn port := by
  unfold State.flitsOn
  rw [hst, hstep]

theorem State.moveCredits_frame (s : State) (port : Nat) (olds : List Nat) : (s.moveCredits port olds).regs = s.regs ∧
    ((s.moveCredits port olds).portOf port).step = (s.portOf port).step := by
  refine List.foldlRecOn (motive := fun t : State => t.regs = s.regs ∧ (t.portOf port).step = (s.portOf port).step) _ _ ⟨rfl, rfl⟩ ?_
  intro u hu k _
  dsimp only
  split
  · exact ⟨hu.1, by rw [State.portOf_setPort_self]; exact hu.2⟩
  split
  · exact ⟨hu.1, by rw [State.portOf_setPort_self]; exact hu.2⟩
  · exact hu

theorem State.putCreds_onlyRegs (s : State) (port transit : Nat) (creds : List Nat) :
    OnlyRegs s (s.putCreds port transit creds) [F.PLK_CRED_CRED, F.PLK_TRANSIT_TRANSIT] :=
  onlyRegs_wr (onlyRegs_loopN onlyRegs_refl fun _ _ hu => onlyRegs_wr hu (by simp)) (by simp)

theorem State.putCreds_cred (hcred : ∀ c ∈ creds, c ≤ 255) (hlen : creds.length = 80) {k : Nat} (hk : k < 80) :
    (s.putCreds port transit creds).rd F.PLK_CRED_CRED port k = nth creds k := by
  have hval : nth creds k ≤ 255 := by
    rw [nth, List.getElem?_eq_getElem (hlen ▸ hk)]
    exact hcred _ (List.getElem_mem _)
  refine (State.rd_wr_fld (by decide)).trans ?_
  refine (State.rd_loopN_round (φ := fun _ => nth creds k) (fun u => ?_) (fun m hm u => State.rd_wr_idx (Ne.symm hm)) hk)
  exact State.rd_wr_self.trans (Nat.mod_eq_of_lt (Nat.lt_succ_of_le hval))

theorem State.flitsOn_setPort {x : Port} (hx : x.step = (s.portOf port).step) : (s.setPort port x).flitsOn port = s.flitsOn port :=
  State.flitsOn_congr rfl (by rw [State.portOf_setPort_self, hx])

/-- While flits flow the table only waits. -/
theorem State.putTable_waits {strict : Nat} (hon : s.flitsOn port = true) :
    s.putTable port slots strict = s.setPort port { s.portOf port with newSlots := some (slots, strict) } :=
  if_pos ((State.flitsOn_setPort (x := { s.portOf port with newSlots := some (slots, strict) }) rfl).trans hon)

theorem State.putTable_applies {strict : Nat} (hoff : s.flitsOn port = false) :
    s.putTable port slots strict = (s.setPort port { s.portOf port with newSlots := some (slots, strict) }).applyTable port :=
  if_neg (Bool.eq_false_iff.1 ((State.flitsOn_setPort (x := { s.portOf port with newSlots := some (slots, strict) }) rfl).trans hoff))

theorem State.putTable_flds {strict : Nat} : SameFlds [F.PLK_CRED_CRED, F.PLK_TRANSIT_TRANSIT] s (s.putTable port slots strict) := by
  have hset : SameFlds [F.PLK_CRED_CRED, F.PLK_TRANSIT_TRANSIT] s (s.setPort port { s.portOf port with newSlots := some (slots, strict) }) :=
    (SameFlds.refl s).beside rfl
  exact hset.ite (hset.trans State.applyTable_flds)

/-- A table of owners that comes into force owns its slots (R554). -/
theorem State.applyTable_slots {strict : Nat} (hnew : (s.portOf port).newSlots = some (slots, strict)) (hown : ∀ o ∈ slots, o ≤ 16 ∨ o = 31)
    (hlen : slots.length = 64) {k : Nat} (hk : k < 64) : (s.applyTable port).slotOwner port k = nth slots k := by
  have hval : nth slots k < 2 ^ 8 := by
    rw [nth, List.getElem?_eq_getElem (hlen ▸ hk)]
    rcases hown _ (List.getElem_mem (hlen ▸ hk)) with ho | ho
    · exact Nat.lt_of_le_of_lt ho (by decide)
    · exact ho ▸ (by decide)
  unfold State.applyTable
  rw [hnew]
  dsimp -zeta only
  extract_lets x a b
  have hb : b.rd F.PLK_TDM_SLOT port k = nth slots k := by
    refine (State.rd_loopN_round (φ := fun _ => nth slots k) (fun u => ?_) (fun m hm u => State.rd_wr_idx (Ne.symm hm)) hk)
    exact State.rd_wr_self.trans (Nat.mod_eq_of_lt hval)
  have hend : BaseFrame [F.PLK_TDM_SLOT] b (((b.wr F.PLK_CFG_STRICT port strict).syncViews port).portDone port 8 0) :=
    (((BaseFrame.refl b).wr).syncViews port).portDone port 8 0
  exact (hend.rd (by simp) ..).trans hb

theorem tdmWrite_stores (hfit : TdmFits s port flags transit slots creds) (hgo : s.goes h opTdmWrite 0) :
    ∃ t, execTdmWrite h port flags transit slots creds s = .next t ∧ (∀ k < 80, t.rd F.PLK_CRED_CRED port k = nth creds k) ∧
      t.rd F.PLK_TRANSIT_TRANSIT port = transit ∧
      (s.flitsOn port = true → (∀ k, t.slotOwner port k = s.slotOwner port k) ∧ (t.portOf port).newSlots = some (slots, b2n (hasBit flags 0))) ∧
      (s.flitsOn port = false → ∀ k < 64, t.slotOwner port k = nth slots k) := by
  obtain ⟨olds, told, hexec⟩ := execTdmWrite_goes hfit hgo
  generalize hu : s.start h opTdmWrite (some (.tdmWrite h port flags transit slots creds)) [s.now] = u at hexec
  generalize hv : (u.putCreds port transit creds).moveCredits port olds = v at hexec
  generalize hw : v.putTable port slots (b2n (hasBit flags 0)) = w at hexec
  have hstart : BaseFrame [F.PLK_TDM_SLOT, F.PLK_STATE_STATE] s u := hu ▸ (BaseFrame.refl s).start
  have hput := u.putCreds_onlyRegs port transit creds
  obtain ⟨hregs, hstep⟩ := hv ▸ (u.putCreds port transit creds).moveCredits_frame port olds
  have htell : BaseFrame [F.PLK_CRED_CRED, F.PLK_TRANSIT_TRANSIT, F.PLK_TDM_SLOT] w (told.foldl (fun s p => s.tdiConfigChanged p) w) :=
    (BaseFrame.refl w).foldl fun _ _ hx => hx.tdiConfigChanged _
  have htable : SameFlds [F.PLK_CRED_CRED, F.PLK_TRANSIT_TRANSIT] v w := hw ▸ State.putTable_flds
  have hflits : v.flitsOn port = s.flitsOn port := by
    refine State.flitsOn_congr ?_ ?_
    · exact (State.rd_congr hregs ..).trans ((hput.2 _ _ _ (by decide)).trans (hstart.rd (by simp) ..))
    · rw [hstep, hput.portOf, hstart.portOf]
  refine ⟨_, hexec, fun k hk => ?_, ?_, fun hon => ⟨fun k => ?_, ?_⟩, fun hoff k hk => ?_⟩
  · rw [htell.rd (by simp), htable _ (by simp), State.rd_congr hregs, State.putCreds_cred hfit.allotments hfit.credsLen hk]
  · rw [htell.rd (by simp), htable _ (by simp), State.rd_congr hregs, State.putCreds, State.rd_wr_self]
    exact Nat.mod_eq_of_lt (Nat.lt_of_le_of_lt hfit.transitFlits (by decide))
  · rw [State.slotOwner, htell.rd (by simp), ← hw, State.putTable_waits (hflits.trans hon), State.rd_setPort, State.rd_congr hregs,
      hput.2 _ _ _ (by decide), hstart.rd (by simp)]
    rfl
  · rw [htell.portOf, ← hw, State.putTable_waits (hflits.trans hon), State.portOf_setPort_self]
  · rw [State.slotOwner, htell.rd (by simp), ← hw, State.putTable_applies (hflits.trans hoff)]
    exact State.applyTable_slots (by rw [State.portOf_setPort_self]) hfit.owners hfit.slotsLen hk

end Tdm

/-! ### LINK_MARGIN -/

/-- The completion writes a record of 16 bytes for each setting (R556). -/
theorem execLinkMarginComplete_records {s : State} {h h' : Hdr} {port lane kind dwell lo hi out : Nat} {points : List (Nat × Bool)}
    (hcmd : s.runningCmd h = some (.linkMargin h' port lane kind dwell lo hi out)) :
    ∃ (bs : List Byte) (r : Nat), execLinkMarginComplete h points s = .next ((s.ptrWrite h.fn.val 0 out bs).complete h 0 r) ∧
      bs.length = 16 * (signedAt hi 16 - signedAt lo 16 + 1).toNat := by
  unfold execLinkMarginComplete
  rw [hcmd]
  refine ⟨_, _, rfl, ?_⟩
  simp [leBytes_length, mul_comm]

/-- Settles O43: each action by its equation, TDM_WRITE by what it stores, LINK_MARGIN by its start and its records. -/
theorem portControl : Obligations.PortControl := fun _ h port =>
  ⟨portUp_trains, fun hgo => State.portControl_goes (cmd := .portDownCommand h port) (go := fun s => (s.goDown port 1).portEnd h port) hgo,
    portIdle_asks, portRekey_starts, fun _ hgo _ hu => execPortRetireLane_fails hgo hu, fun _ hgo => portEncrypt_stores hgo, portWake_wakes,
    fun hgo => ⟨portTime_master hgo, fun hmaster => portTime_free hgo hmaster, fun _ hport harg => execPortTime_port hgo hport harg⟩,
    fun _ _ _ _ hslots hcreds hflags hport htransit hslen hclen hcred hown hfab hsum hres hgo =>
      tdmWrite_stores ⟨hslots, hcreds, hflags, hport, htransit, hslen, hclen, hcred, hown, hfab, hsum, hres⟩ hgo,
    fun _ _ _ _ _ _ hgo hpages => congrArg Host.Outcome.next ((State.checked_goes hgo).trans (State.gate_begun hpages)),
    fun _ _ _ _ _ _ _ _ hcmd => execLinkMarginComplete_records hcmd⟩

end Sys2Proof.Machine
end

section
/-! PROOFS. Lines that a unit hands on (R390), and the mover instructions (chapter 19): FETCH, PAGE_FETCH, WRITE, PUSH and RECV
(R574 to R580). -/

-- Proofs side by side each take a thread with its stack: together they pass the bound on memory.
set_option Elab.async false

namespace Sys2Proof.Machine

/-! ### Lines handed on -/

/-- Whether or when an untimed event takes place, what neither its effect nor the budget changes is unchanged. -/
theorem State.untimed_keeping {α : Type} (get : State → α) (hbud : ∀ (u : State) (b : Bud), get { u with bud := b } = get u)
    (hwr : ∀ (u : State) (f : Fld) (i v : Nat), get (u.wr f i v) = get u) {go : State → State} (hgo : ∀ u, get (go u) = get u)
    (s : State) (p src w : Nat) (tag : List Nat) : get (s.untimed p src w tag go) = get s := by
  have hcharge : get (s.ucharge p w) = get s := (hwr ..).trans ((hwr ..).trans (hbud ..))
  unfold State.untimed
  extract_lets e
  split_ifs
  · exact (hgo _).trans (hbud ..)
  · rfl
  · exact (hgo _).trans ((hbud ..).trans hcharge)
  · exact hbud ..

/-- `n` line transactions have been handed on, and nothing else has happened to the schedule, the memories and the open jobs. -/
structure LinesAdded (n : Nat) (s t : State) : Prop where
  sched : t.sched = s.sched
  mem : t.mem = s.mem
  nextJob : t.net.nextJob = s.net.nextJob
  nextLine : t.net.nextLine = s.net.nextLine + n

namespace LinesAdded

variable {m n : Nat} {s t u : State}

theorem refl (s : State) : LinesAdded 0 s s := ⟨rfl, rfl, rfl, rfl⟩

theorem trans (h : LinesAdded m s t) (h' : LinesAdded n t u) : LinesAdded (m + n) s u :=
  ⟨h'.sched.trans h.sched, h'.mem.trans h.mem, h'.nextJob.trans h.nextJob, by rw [h'.nextLine, h.nextLine, Nat.add_assoc]⟩

theorem addLine (s : State) (x : Line) : LinesAdded 1 s (s.addLine x) where
  sched := (s.addLine_beside x).1
  mem := (s.addLine_beside x).2
  nextJob := by
    unfold State.addLine
    exact State.untimed_keeping (fun u => u.net.nextJob) (fun _ _ => rfl) (fun _ _ _ _ => rfl)
      (go := fun u => u.setLine { x with id := s.net.nextLine, admitted := true }) (fun _ => rfl) ..
  nextLine := by
    unfold State.addLine
    exact State.untimed_keeping (fun u => u.net.nextLine) (fun _ _ => rfl) (fun _ _ _ _ => rfl)
      (go := fun u => u.setLine { x with id := s.net.nextLine, admitted := true }) (fun _ => rfl) ..

/-- One line for each turn of a loop. -/
theorem loopN {f : Nat → State → State} (hf : ∀ k u, LinesAdded 1 u (f k u)) (s : State) : ∀ n, LinesAdded n s (loopN n f s)
  | 0 => refl s
  | n + 1 => by
    rw [loopN_succ]
    exact (loopN hf s n).trans (hf ..)

end LinesAdded

/-! ### A mover issues -/

section Issue

variable {s : State} {a : At} {r : Run} {ws : List Nat}

/-- The pointer entry of a mover whose pointer row is poisoned cannot be read (R574). -/
theorem State.moverPtr_poisoned {u : State} {x : Ctx} (hp : u.rowPoison x.c (mPtrRow x.w) = true) : u.moverPtr x = none := if_pos hp

/-- A mover whose pointer row is poisoned aborts its run with 0x0510 (R574). -/
theorem movers_poisoned (errs : List ShelfErr) (hp : (s.issued a r ws).rowPoison (s.ctxOf a r ws).c (mPtrRow (nth ws 0)) = true) :
    (s.issues opcFetch a r ws → execFetch a s = .next ((s.issued a r ws).abort (s.ctxOf a r ws).p 0x510)) ∧
    (s.issues opcPageFetch a r ws → execPageFetch a s = .next ((s.issued a r ws).abort (s.ctxOf a r ws).p 0x510)) ∧
    (s.issues opcRecv a r ws → execRecv a s = .next ((s.issued a r ws).abort (s.ctxOf a r ws).p 0x510)) ∧
    (s.issues opcPush a r ws → execPush a errs s = .next ((s.issued a r ws).abort (s.ctxOf a r ws).p 0x510)) ∧
    (s.issues opcWrite a r ws → execWriteMover a errs s = .next ((s.issued a r ws).abort (s.ctxOf a r ws).p 0x510)) := by
  have hptr : (s.issued a r ws).moverPtr (s.ctxOf a r ws) = none := State.moverPtr_poisoned hp
  have hptr0 : (s.issued a r ws).moverPtr { s.ctxOf a r ws with j := 0 } = none := State.moverPtr_poisoned hp
  refine ⟨fun h => ?_, fun h => ?_, fun h => ?_, fun h => ?_, fun h => ?_⟩ <;>
    refine congrArg Host.Outcome.next ((State.issueAs_issues h).trans ?_)
  · simp only [hptr]
  · simp only [hptr0]
  · simp only [hptr0]
  · simp only [hptr0]
  · simp only [hptr]

/-! ### FETCH -/

section Fetch

variable {ptr : Nat} (h : s.issues opcFetch a r ws) (hptr : (s.issued a r ws).moverPtr (s.ctxOf a r ws) = some ptr)
include h hptr

/-- A pointer that the run may not read aborts it with the status of the check (R574). -/
theorem execFetch_refused (hst : (s.issued a r ws).checkRunPtr (s.ctxOf a r ws).p ptr (512 * mN (nth ws 0)) false ≠ 0) :
    execFetch a s = .next ((s.issued a r ws).abort (s.ctxOf a r ws).p
      ((s.issued a r ws).checkRunPtr (s.ctxOf a r ws).p ptr (512 * mN (nth ws 0)) false)) := by
  refine congrArg Host.Outcome.next ((State.issueAs_issues h).trans ?_)
  dsimp only
  rw [hptr]
  exact if_pos hst

variable (hst : (s.issued a r ws).checkRunPtr (s.ctxOf a r ws).p ptr (512 * mN (nth ws 0)) false = 0)
include hst

/-- A rank that cannot be reached aborts the run (R562, R563). -/
theorem execFetch_unreachable {st : Nat} (htag : ptrTag ptr = 3)
    (hrank : (s.issued a r ws).rankDest (s.ctxOf a r ws).p (ptrRank ptr) (mB (nth ws 0)) true = .error st) :
    execFetch a s = .next ((s.issued a r ws).abort (s.ctxOf a r ws).p st) := by
  refine congrArg Host.Outcome.next ((State.issueAs_issues h).trans ?_)
  dsimp only
  rw [hptr]
  refine (if_neg (not_not_intro hst)).trans ?_
  rw [if_pos htag, show (s.ctxOf a r ws).w = nth ws 0 from rfl, hrank]
  rfl

/-- A FETCH claims its rows, adds its operation and asks for every line of its source (R576). -/
theorem execFetch_adds {dest : Option Dest} {v : State} {rows : List Nat}
    (hdest : (ptrTag ptr ≠ 3 ∧ dest = none) ∨
      (ptrTag ptr = 3 ∧ ∃ d, dest = some d ∧ (s.issued a r ws).rankDest (s.ctxOf a r ws).p (ptrRank ptr) (mB (nth ws 0)) true = .ok d))
    (hclaim : (s.issued a r ws).claimRows (s.ctxOf a r ws).c (rowField (mRows (nth ws 0))) (mN (nth ws 0)) = .ok (v, rows)) :
    ∃ t, execFetch a s = .next t ∧ LinesAdded (linePieces (ptrAddr ptr) (512 * mN (nth ws 0))).length
      (v.addOp (s.ctxOf a r ws).c (s.ctxOf a r ws).side (s.ctxOf a r ws).st (s.ctxOf a r ws).pos (mDone (nth ws 0))
        (rowField (mRows (nth ws 0))).drawer (.fetch ⟨ptr, rows, [], 0, none, false, dest⟩)) t := by
  have hok : (if ptrTag ptr = 3 then
      ((s.issued a r ws).rankDest (s.ctxOf a r ws).p (ptrRank ptr) (mB (nth ws 0)) true).map some else .ok none) = .ok dest := by
    obtain ⟨htag, rfl⟩ | ⟨htag, d, rfl, hd⟩ := hdest
    · exact if_neg htag
    · rw [if_pos htag, hd]
      rfl
  have hrun : execFetch a s = .next _ := congrArg Host.Outcome.next (State.issueAs_issues h)
  dsimp only at hrun
  rw [hptr] at hrun
  dsimp only at hrun
  rw [show (s.ctxOf a r ws).w = nth ws 0 from rfl, if_neg (not_not_intro hst), hok] at hrun
  dsimp only at hrun
  rw [hclaim] at hrun
  refine ⟨_, hrun, LinesAdded.loopN (fun k u => ?_) _ _⟩
  cases dest with
  | none => exact LinesAdded.addLine ..
  | some d => exact LinesAdded.addLine ..

end Fetch

/-! ### PAGE_FETCH -/

section PageFetch

variable {e : Nat} (h : s.issues opcPageFetch a r ws) (hptr : (s.issued a r ws).moverPtr { s.ctxOf a r ws with j := 0 } = some e)
include h hptr

/-- A server that cannot be reached aborts the run (R562, R563). -/
theorem execPageFetch_unreachable {st : Nat}
    (hrank : (s.issued a r ws).rankDest (s.ctxOf a r ws).p (bitsAt e 58 6) (mB (nth ws 0)) true = .error st) :
    execPageFetch a s = .next ((s.issued a r ws).abort (s.ctxOf a r ws).p st) := by
  refine congrArg Host.Outcome.next ((State.issueAs_issues h).trans ?_)
  dsimp only
  rw [hptr]
  dsimp only
  rw [show (s.ctxOf a r ws).w = nth ws 0 from rfl, hrank]

/-- A PAGE_FETCH claims 64 rows, adds its operation and sends one request (R575). -/
theorem execPageFetch_adds {d : Dest} {v : State} {rows : List Nat}
    (hrank : (s.issued a r ws).rankDest (s.ctxOf a r ws).p (bitsAt e 58 6) (mB (nth ws 0)) true = .ok d)
    (hclaim : (s.issued a r ws).claimRows (s.ctxOf a r ws).c (rowField (mRows (nth ws 0))) 64 = .ok (v, rows)) :
    ∃ t, execPageFetch a s = .next t ∧ LinesAdded 1
      (v.addOp (s.ctxOf a r ws).c (s.ctxOf a r ws).side (s.ctxOf a r ws).st (s.ctxOf a r ws).pos (mDone (nth ws 0))
        (rowField (mRows (nth ws 0))).drawer (.fetch ⟨3 * 2 ^ 62, rows, [], 0, some e, false, some d⟩)) t := by
  have hrun : execPageFetch a s = .next _ := congrArg Host.Outcome.next (State.issueAs_issues h)
  dsimp only at hrun
  rw [hptr] at hrun
  dsimp only at hrun
  rw [show (s.ctxOf a r ws).w = nth ws 0 from rfl, hrank] at hrun
  dsimp only at hrun
  rw [hclaim] at hrun
  exact ⟨_, hrun, LinesAdded.addLine ..⟩

end PageFetch

/-! ### WRITE and PUSH -/

/-- An outbound transfer that starts occupies its stream for its rows' ticks, and changes no memory and no register (R576, R577). -/
theorem State.startOut_busy (u : State) (x : Ctx) (ptr n acks : Nat) (dests : List Dest) (errs : List ShelfErr) :
    tget 0 (u.startOut x ptr n acks dests errs).sched.busy [x.c, x.st] = u.opTick x.c + n :=
  tget_tset_self ..

section Write

variable {errs : List ShelfErr} {ptr : Nat} (h : s.issues opcWrite a r ws)
  (hptr : (s.issued a r ws).moverPtr (s.ctxOf a r ws) = some ptr)
include h hptr

/-- A pointer that the run may not write aborts it with the status of the check (R574). -/
theorem execWriteMover_refused (hst : (s.issued a r ws).checkRunPtr (s.ctxOf a r ws).p ptr (512 * mN (nth ws 0)) true ≠ 0) :
    execWriteMover a errs s = .next ((s.issued a r ws).abort (s.ctxOf a r ws).p
      ((s.issued a r ws).checkRunPtr (s.ctxOf a r ws).p ptr (512 * mN (nth ws 0)) true)) := by
  refine congrArg Host.Outcome.next ((State.issueAs_issues h).trans ?_)
  dsimp only
  rw [hptr]
  exact if_pos hst

variable (hst : (s.issued a r ws).checkRunPtr (s.ctxOf a r ws).p ptr (512 * mN (nth ws 0)) true = 0)
include hst

/-- A local WRITE starts a transfer with an acknowledgement for each piece of a row (R576). -/
theorem execWriteMover_local (htag : ptrTag ptr ≠ 3) : execWriteMover a errs s =
    .next ((s.issued a r ws).startOut (s.ctxOf a r ws) ptr (mN (nth ws 0))
      ((List.range (mN (nth ws 0))).foldl (fun a k => a + (rowPieces ptr k).length) 0) [] errs) := by
  refine congrArg Host.Outcome.next ((State.issueAs_issues h).trans ?_)
  dsimp only
  rw [hptr]
  exact (if_neg (not_not_intro hst)).trans (if_neg htag)

/-- A WRITE to a rank starts a transfer with one acknowledgement for each row (R573, R576). -/
theorem execWriteMover_remote {d : Dest} (htag : ptrTag ptr = 3)
    (hrank : (s.issued a r ws).rankDest (s.ctxOf a r ws).p (ptrRank ptr) (mB (nth ws 0)) false = .ok d) : execWriteMover a errs s =
    .next ((s.issued a r ws).startOut (s.ctxOf a r ws) ptr (mN (nth ws 0)) (mN (nth ws 0)) [d] errs) := by
  refine congrArg Host.Outcome.next ((State.issueAs_issues h).trans ?_)
  dsimp only
  rw [hptr]
  refine (if_neg (not_not_intro hst)).trans ((if_pos htag).trans ?_)
  rw [show (s.ctxOf a r ws).w = nth ws 0 from rfl, hrank]

end Write

section Push

variable {errs : List ShelfErr} {mask : Nat} (h : s.issues opcPush a r ws)
  (hptr : (s.issued a r ws).moverPtr { s.ctxOf a r ws with j := 0 } = some mask)
include h hptr

/-- A PUSH starts a transfer with one acknowledgement for each row and destination (R577). -/
theorem execPush_starts {ds : List Dest} (hranks : (s.issued a r ws).rankDests (s.ctxOf a r ws).p 0 false (ranksOf mask) = .ok ds) :
    execPush a errs s = .next ((s.issued a r ws).startOut (s.ctxOf a r ws) mask (mN (nth ws 0)) (mN (nth ws 0) * ds.length) ds errs) := by
  refine congrArg Host.Outcome.next ((State.issueAs_issues h).trans ?_)
  rw [hptr]
  dsimp only
  rw [hranks]
  rfl

/-- A rank that cannot be reached aborts the run (R562, R563). -/
theorem execPush_unreachable {st : Nat}
    (hranks : (s.issued a r ws).rankDests (s.ctxOf a r ws).p 0 false (ranksOf mask) = .error st) :
    execPush a errs s = .next ((s.issued a r ws).abort (s.ctxOf a r ws).p st) := by
  refine congrArg Host.Outcome.next ((State.issueAs_issues h).trans ?_)
  rw [hptr]
  dsimp only
  rw [hranks]

end Push

/-! ### RECV -/

section Recv

variable {mask : Nat} (h : s.issues opcRecv a r ws) (hptr : (s.issued a r ws).moverPtr { s.ctxOf a r ws with j := 0 } = some mask)
include h hptr

/-- A source that is not VALID aborts the run with 0x0825 (R578). -/
theorem execRecv_notValid
    (hsrc : (ranksOf mask).any (fun k => (s.issued a r ws).rd F.RTE_RANK_VALID (s.ctxOf a r ws).p k == 0) = true) :
    execRecv a s = .next ((s.issued a r ws).abort (s.ctxOf a r ws).p 0x825) := by
  refine congrArg Host.Outcome.next ((State.issueAs_issues h).trans ?_)
  dsimp only
  rw [hptr]
  exact if_pos hsrc

variable (hsrc : (ranksOf mask).any (fun k => (s.issued a r ws).rd F.RTE_RANK_VALID (s.ctxOf a r ws).p k == 0) = false)
include hsrc

/-- A mask that breaks the counts of its mode aborts the run with 0x03A2 (R580). -/
theorem execRecv_badMask (hmask : popBits mask 64 = 0 ∨ (mMode (nth ws 0) ≠ 2 ∧ popBits mask 64 ≠ 1) ∨
      (mMode (nth ws 0) = 2 ∧ 512 < mN (nth ws 0) * popBits mask 64)) :
    execRecv a s = .next ((s.issued a r ws).abort (s.ctxOf a r ws).p 0x3A2) := by
  refine congrArg Host.Outcome.next ((State.issueAs_issues h).trans ?_)
  dsimp only
  rw [hptr]
  exact (if_neg (ne_true_of_eq_false hsrc)).trans (if_pos hmask)

/-- Otherwise the receive is posted, and the early rows that match it land (R578, R579). -/
theorem execRecv_posts {v : State} {rows : List Nat} (hmask : ¬ (popBits mask 64 = 0 ∨ (mMode (nth ws 0) ≠ 2 ∧ popBits mask 64 ≠ 1) ∨
      (mMode (nth ws 0) = 2 ∧ 512 < mN (nth ws 0) * popBits mask 64)))
    (hclaim : (s.issued a r ws).claimRows (s.ctxOf a r ws).c (rowField (mRows (nth ws 0))) (mN (nth ws 0)) = .ok (v, rows)) :
    execRecv a s = .next ((v.addOp (s.ctxOf a r ws).c (s.ctxOf a r ws).side (s.ctxOf a r ws).st (s.ctxOf a r ws).pos (mDone (nth ws 0))
      (rowField (mRows (nth ws 0))).drawer (.recv ⟨mA (nth ws 0), mask, mB (nth ws 0), mMode (nth ws 0), mN (nth ws 0), rows, [], [],
        0, 0⟩)).matchEarly (s.ctxOf a r ws).c) := by
  refine congrArg Host.Outcome.next ((State.issueAs_issues h).trans ?_)
  dsimp only
  rw [hptr]
  refine (if_neg (ne_true_of_eq_false hsrc)).trans ((if_neg hmask).trans ?_)
  rw [show (s.ctxOf a r ws).w = nth ws 0 from rfl, hclaim]

end Recv

end Issue

/-- Settles O44: each clause is the case of its instruction; the lines that a FETCH and a PAGE_FETCH hand on are counted by
`LinesAdded`. -/
theorem moverInstructions : Obligations.MoverInstructions := by
  unfold Obligations.MoverInstructions
  rintro s a r ws u x n rfl rfl rfl
  refine ⟨fun errs hp => movers_poisoned errs hp, fun ptr h hptr => ⟨execFetch_refused h hptr, fun dest v rows hst hdest hclaim => ?_,
    fun st hst htag => execFetch_unreachable h hptr hst htag⟩, fun e h hptr => ⟨fun st => execPageFetch_unreachable h hptr,
    fun d v rows hrank hclaim => ?_⟩, fun errs ptr h hptr => ⟨execWriteMover_refused h hptr, fun hst =>
      ⟨execWriteMover_local h hptr hst, fun d => execWriteMover_remote h hptr hst⟩⟩,
    fun errs mask h hptr => ⟨fun ds => execPush_starts h hptr, fun st => execPush_unreachable h hptr⟩,
    fun ptr acks dests errs => ⟨rfl, rfl, State.startOut_busy ..⟩, fun mask h hptr => ⟨execRecv_notValid h hptr, fun hsrc =>
      ⟨execRecv_badMask h hptr hsrc, fun hmask v rows => execRecv_posts h hptr hsrc hmask⟩⟩⟩
  · obtain ⟨t, ht, hadded⟩ := execFetch_adds h hptr hst hdest hclaim
    exact ⟨t, ht, hadded.mem, hadded.sched, hadded.nextLine⟩
  · obtain ⟨t, ht, hadded⟩ := execPageFetch_adds h hptr hrank hclaim
    exact ⟨t, ht, hadded.mem, hadded.sched, hadded.nextLine⟩

end Sys2Proof.Machine
end

section
/-! PROOFS. Messages of paddocks (R569 to R584) and messages in transit (R564, R565). -/

-- Proofs side by side each take a thread with its stack: together they pass the bound on memory.
set_option Elab.async false

namespace Sys2Proof.Machine

/-! ### A message is taken, admitted or discarded -/

section Receive

variable {s t : State} {port : Option (Fin 12)} {m : Msg} {kind : Nat} {go : Nat → State → State}

/-- A message that is not there does nothing. -/
theorem State.receiveMsg_untaken (h : s.takeMsg port m kind = none) : s.receiveMsg port m kind go = .next s := by
  unfold State.receiveMsg
  rw [h]

/-- One that no entry of the rank table admits is discarded with its status (R569). -/
theorem State.receiveMsg_refused {st : Nat} (h : s.takeMsg port m kind = some t) (hst : t.admitRank m = .error st) :
    s.receiveMsg port m kind go = .next (t.discardMsg m st) := by
  unfold State.receiveMsg
  rw [h]
  dsimp only
  rw [hst]

/-- A message that the rank table decides over does nothing when it is not there, and is discarded when it is not admitted. -/
theorem rankedMessages {cmd : Instr} {k : Nat} (h : (cmd, k) ∈ [(Instr.writeMessageReceive port m, 1), (.pushMessageReceive port m, 2),
      (.readReqReceive port m, 4), (.readDataReceive port m, 6), (.stopReceive port m, 0x10)]) :
    ∃ go, exec cmd s = s.receiveMsg port m k go := by
  simp only [List.mem_cons, Prod.mk.injEq, List.not_mem_nil, or_false] at h
  obtain ⟨rfl, rfl⟩ | ⟨rfl, rfl⟩ | ⟨rfl, rfl⟩ | ⟨rfl, rfl⟩ | ⟨rfl, rfl⟩ := h
  · exact ⟨_, (rfl : _ = execWriteMessageReceive port m s).trans (by unfold execWriteMessageReceive; rfl)⟩
  · exact ⟨_, (rfl : _ = execPushMessageReceive port m s).trans (by unfold execPushMessageReceive; rfl)⟩
  · exact ⟨_, (rfl : _ = execReadReqReceive port m s).trans (by unfold execReadReqReceive; rfl)⟩
  · exact ⟨_, (rfl : _ = execReadDataReceive port m s).trans (by unfold execReadDataReceive; rfl)⟩
  · exact ⟨_, (rfl : _ = execStopReceive port m s).trans (by unfold execStopReceive; rfl)⟩

end Receive

/-! ### Requests and data -/

section Effect

variable {s t : State} {port : Option (Fin 12)} {m : Msg} {rank : Nat}

/-- A request is served once it is known as a job, of which the schedule and the memories see nothing. -/
theorem State.addJob_beside (s : State) (m : Msg) (epoch left status tokens : Nat) :
    (s.addJob m epoch left status tokens).mem = s.mem ∧
      (s.addJob m epoch left status tokens).net.nextJob = s.net.nextJob + 1 ∧
      (s.addJob m epoch left status tokens).net.nextLine = s.net.nextLine := ⟨rfl, rfl, rfl⟩

/-- An admitted WRITE stores its bytes and is acknowledged, or is answered with the status that it breaks (R572, R576). -/
theorem execWriteMessageReceive_admitted (h : s.admits port m 1 rank t) {st : Nat}
    (hst : st = firstStatus [failIf (m.target % 64 != 0 || m.data.length % 64 != 0) 0x290,
      failIf (decide (localEnd < m.target + m.data.length)) 0x400, (t.ucharge m.dstPdk 16).resourceStatus m.dstPdk (ptrAddr m.target)]) :
    execWriteMessageReceive port m s = .next (if st ≠ 0 then (t.ucharge m.dstPdk 16).ackMsg m st
      else ((((t.ucharge m.dstPdk 16).ucharge m.dstPdk 40).ptrWrite (vfOf m.dstPdk) m.dstPdk (ptrAddr m.target) m.data).ackMsg m 0 0 1)) := by
  rw [hst]
  exact State.receiveMsg_admits h

/-- A READ_REQ that breaks a limit is answered with its status. -/
theorem execReadReqReceive_refused (h : s.admits port m 4 rank t) {st : Nat}
    (hst : st = firstStatus [failIf (decide (localEnd < (reqPiece (ptrAddr m.target) m.n).1 + (reqPiece (ptrAddr m.target) m.n).2) ||
      decide (2 ^ 48 ≤ m.target)) 0x400, (t.ucharge m.dstPdk 16).resourceStatus m.dstPdk (ptrAddr m.target)]) (hbad : st ≠ 0) :
    execReadReqReceive port m s = .next ((t.ucharge m.dstPdk 16).ackMsg m st) := by
  rw [hst] at hbad ⊢
  exact (State.receiveMsg_admits h).trans (congrArg Host.Outcome.next (if_pos hbad))

/-- An admitted STOP is counted and aborts the run (R584). -/
theorem execStopReceive_stops (h : s.admits port m 0x10 rank t) : execStopReceive port m s =
    .next (((t.ucharge m.dstPdk 16).bump F.RTE_P_STOP_RX_COUNT m.dstPdk).abortWith m.dstPdk 0x827 false) :=
  State.receiveMsg_admits h

/-- READ_REQ reads its lines through the paddock's own line transactions (R382, R576). -/
theorem execReadReqReceive_reads (h : s.admits port m 4 rank t)
    (hst : firstStatus [failIf (decide (localEnd < (reqPiece (ptrAddr m.target) m.n).1 + (reqPiece (ptrAddr m.target) m.n).2) ||
      decide (2 ^ 48 ≤ m.target)) 0x400, (t.ucharge m.dstPdk 16).resourceStatus m.dstPdk (ptrAddr m.target)] = 0) :
    ∃ u, execReadReqReceive port m s = .next u ∧ LinesAdded (m.n + 1) ((t.ucharge m.dstPdk 16).addJob m 0 (m.n + 1) 0 0) u :=
  ⟨_, (State.receiveMsg_admits h).trans (congrArg Host.Outcome.next (if_neg (not_not_intro hst))),
    LinesAdded.loopN (fun _ _ => LinesAdded.addLine ..) _ _⟩

/-- The data of a FETCH land where its line asked for them, and the line is over (R576). -/
theorem execReadDataReceive_line {o : Op} {f : Fetch} {off len : Nat} {l : Line} (h : s.admits port m 6 rank t)
    (ho : (t.ucharge m.dstPdk 16).findOp m.xid = some o) (hpdk : corePdk o.core = m.dstPdk) (hf : o.kind = .fetch f)
    (hpage : f.page.isSome = false) (hpiece : (linePieces (ptrAddr f.ptr) (512 * f.rows.length))[m.k]? = some (off, len))
    (hl : (t.ucharge m.dstPdk 16).net.lines.find? (fun l => l.use == .fetch o.id (off / 512) (off % 512)) = some l) :
    execReadDataReceive port m s =
      .next (((t.ucharge m.dstPdk 16).dropLine l).fetchPart o.id off (m.data.take len) (hasBit m.flags 0)) := by
  refine (State.receiveMsg_admits h).trans (congrArg Host.Outcome.next ?_)
  dsimp only
  rw [ho]
  refine (if_neg (not_not_intro hpdk)).trans ?_
  rw [hf]
  refine (if_neg (ne_true_of_eq_false hpage)).trans ?_
  rw [hpiece]
  dsimp only [Option.getD_some]
  rw [hl]

/-- The page of a PAGE_FETCH comes row by row (R575). -/
theorem execReadDataReceive_page {o : Op} {f : Fetch} (h : s.admits port m 6 rank t)
    (ho : (t.ucharge m.dstPdk 16).findOp m.xid = some o) (hpdk : corePdk o.core = m.dstPdk) (hf : o.kind = .fetch f)
    (hpage : f.page.isSome = true) : execReadDataReceive port m s =
      .next ((t.ucharge m.dstPdk 16).fetchPart o.id (512 * m.k) (padRow m.data) (hasBit m.flags 0)) := by
  refine (State.receiveMsg_admits h).trans (congrArg Host.Outcome.next ?_)
  dsimp only
  rw [ho]
  refine (if_neg (not_not_intro hpdk)).trans ?_
  rw [hf]
  exact if_pos hpage

/-- Data of an operation that is over are dropped. -/
theorem execReadDataReceive_over (h : s.admits port m 6 rank t) (ho : (t.ucharge m.dstPdk 16).findOp m.xid = none) :
    execReadDataReceive port m s = .next (t.ucharge m.dstPdk 16) := by
  refine (State.receiveMsg_admits h).trans (congrArg Host.Outcome.next ?_)
  dsimp only
  rw [ho]

/-! ### Pushed rows -/

/-- A pushed row that no receive takes waits in the early store, while there is room (R579). -/
theorem execPushMessageReceive_unmatched (h : s.admits port m 2 rank t) (hnone : (t.ucharge m.dstPdk 16).offerPush rank m = none) :
    execPushMessageReceive port m s =
      .next (if 256 ≤ ((t.ucharge m.dstPdk 16).earlyOf (8 * m.dstPdk + bitsAt m.target 0 3)).length then
        (t.ucharge m.dstPdk 16).discardMsg m 0x826
      else (t.ucharge m.dstPdk 16).setEarly (8 * m.dstPdk + bitsAt m.target 0 3)
        ((t.ucharge m.dstPdk 16).earlyOf (8 * m.dstPdk + bitsAt m.target 0 3) ++ [⟨rank, m, (t.ucharge m.dstPdk 16).now⟩])) := by
  refine (State.receiveMsg_admits h).trans (congrArg Host.Outcome.next ?_)
  dsimp only
  rw [hnone]

/-- One that a receive takes lands there (R578). -/
theorem execPushMessageReceive_matched {u : State} (h : s.admits port m 2 rank t)
    (hu : (t.ucharge m.dstPdk 16).offerPush rank m = some u) : execPushMessageReceive port m s = .next u := by
  refine (State.receiveMsg_admits h).trans (congrArg Host.Outcome.next ?_)
  dsimp only
  rw [hu]

/-- The oldest row of an early store waits until its time is up, and is then discarded (R579). -/
theorem execEarlyArrivalTimeout_oldest {c : Fin 128} {e : Early} {l : List Early} (h : s.earlyOf c.val = e :: l) :
    execEarlyArrivalTimeout c s = if s.now ≤ e.since + 1000 * s.rd F.SCH_PCTL_WAIT_DEFAULT_US (corePdk c.val) then .next s
      else .next ((s.setEarly c.val l).discardMsg e.msg 0x826) := by
  unfold execEarlyArrivalTimeout
  dsimp only
  rw [h]

/-! ### Page requests -/

/-- The state in which the server has used the descriptor that a page request names, if the quota holds it (R326, R583). -/
def State.served (s : State) (m : Msg) : State :=
  if s.inQuota m.dstPdk (bitsAt m.target 42 16) then
    (s.useDesc m.dstPdk (bitsAt m.target 42 16)).latchUse m.dstPdk (bitsAt m.target 42 16)
  else s

/-- The descriptor and the map entry that a page request names. -/
def State.servedDesc (s : State) (m : Msg) : List Byte := (s.served m).desc m.dstPdk (bitsAt m.target 42 16)
def State.servedEntry (s : State) (m : Msg) : Nat :=
  (s.served m).leaf m.dstPdk (s.servedDesc m) (bitsAt m.target 30 12 * dHeads (s.servedDesc m) + bitsAt m.target 22 8)
    (bitsAt m.target 0 22)

section PageReq

variable (hroom : (s.net.jobs.filter (fun j => j.pdk == m.dstPdk && j.msg.kind == 5)).length < 64)
  (h : s.admits port m 5 rank t)
include hroom h

/-- A paddock that is no server answers 0x082A (R582). -/
theorem execPageReqReceive_noServer (hoff : (t.ucharge m.dstPdk 16).rd F.RTE_PCFG_PSERVER_EN m.dstPdk = 0 ∨
      (t.ucharge m.dstPdk 16).role m.dstPdk ≠ 2) :
    execPageReqReceive port m s = .next ((t.ucharge m.dstPdk 16).ackMsg m 0x82A) :=
  (if_neg (Nat.not_le.2 hroom)).trans ((State.receiveMsg_admits h).trans (congrArg Host.Outcome.next (if_pos hoff)))

variable (hen : (t.ucharge m.dstPdk 16).rd F.RTE_PCFG_PSERVER_EN m.dstPdk ≠ 0) (hrole : (t.ucharge m.dstPdk 16).role m.dstPdk = 2)
include hen hrole

/-- A page that the server does not know is answered with 0x0828 (R583). -/
theorem execPageReqReceive_unknown (hbad : ((t.ucharge m.dstPdk 16).served m).inQuota m.dstPdk (bitsAt m.target 42 16) = false ∨
      dValid ((t.ucharge m.dstPdk 16).servedDesc m) = false ∨
      dLayers ((t.ucharge m.dstPdk 16).servedDesc m) ≤ bitsAt m.target 30 12 ∨
      dHeads ((t.ucharge m.dstPdk 16).servedDesc m) ≤ bitsAt m.target 22 8 ∨
      (eValid ((t.ucharge m.dstPdk 16).servedEntry m) = false ∧ eDropped ((t.ucharge m.dstPdk 16).servedEntry m) = false)) :
    execPageReqReceive port m s = .next (((t.ucharge m.dstPdk 16).served m).ackMsg m 0x828) := by
  refine (if_neg (Nat.not_le.2 hroom)).trans ((State.receiveMsg_admits h).trans (congrArg Host.Outcome.next ?_))
  refine (if_neg (not_or_intro hen (not_not_intro hrole))).trans (if_pos ?_)
  obtain hq | hv | hl | hh | he := hbad
  · exact .inl (by simp only [State.served] at hq ⊢; simp only [hq, Bool.false_and])
  · exact .inl (by simp only [State.servedDesc, State.served] at hv ⊢; simp only [hv, Bool.and_false, Bool.false_and])
  · exact .inl (by simp only [State.servedDesc, State.served] at hl ⊢; simp only [Nat.not_lt.2 hl, decide_false, Bool.and_false, Bool.false_and])
  · exact .inl (by simp only [State.servedDesc, State.served] at hh ⊢; simp only [Nat.not_lt.2 hh, decide_false, Bool.and_false])
  · exact .inr he

/-- A page that is mapped is read, row by row (R583). -/
theorem execPageReqReceive_reads (hq : ((t.ucharge m.dstPdk 16).served m).inQuota m.dstPdk (bitsAt m.target 42 16) = true)
    (hv : dValid ((t.ucharge m.dstPdk 16).servedDesc m) = true)
    (hl : bitsAt m.target 30 12 < dLayers ((t.ucharge m.dstPdk 16).servedDesc m))
    (hh : bitsAt m.target 22 8 < dHeads ((t.ucharge m.dstPdk 16).servedDesc m))
    (he : eValid ((t.ucharge m.dstPdk 16).servedEntry m) = true) :
    ∃ u status, execPageReqReceive port m s = .next u ∧ LinesAdded 64 (((t.ucharge m.dstPdk 16).served m).addJob m
      (((t.ucharge m.dstPdk 16).served m).rd F.CTX_EPOCH_EPOCH m.dstPdk) 64 status (dTokens ((t.ucharge m.dstPdk 16).servedDesc m))) u := by
  have hknown : ¬ ((((t.ucharge m.dstPdk 16).served m).inQuota m.dstPdk (bitsAt m.target 42 16) &&
      dValid ((t.ucharge m.dstPdk 16).servedDesc m) && decide (bitsAt m.target 30 12 < dLayers ((t.ucharge m.dstPdk 16).servedDesc m)) &&
      decide (bitsAt m.target 22 8 < dHeads ((t.ucharge m.dstPdk 16).servedDesc m))) = false ∨
      (eValid ((t.ucharge m.dstPdk 16).servedEntry m) = false ∧ eDropped ((t.ucharge m.dstPdk 16).servedEntry m) = false)) := by
    simp [hq, hv, hl, hh, he]
  exact ⟨_, _, (if_neg (Nat.not_le.2 hroom)).trans ((State.receiveMsg_admits h).trans (congrArg Host.Outcome.next
    ((if_neg (not_or_intro hen (not_not_intro hrole))).trans ((if_neg hknown).trans (if_pos he))))),
    LinesAdded.loopN (fun _ _ => LinesAdded.addLine ..) _ _⟩

end PageReq

/-! ### Acknowledgements -/

/-- An acknowledgement reaches the operation that it names (R573). -/
theorem execAckReceive_names (hx : isMirrorXid m.xid = false) (h : s.admits port m 7 rank t) :
    execAckReceive port m s = .next (match (t.ucharge m.dstPdk 16).findOp m.xid with
      | none => t.ucharge m.dstPdk 16
      | some o =>
        if corePdk o.core ≠ m.dstPdk then t.ucharge m.dstPdk 16
        else
          match o.kind with
          | .outb _ => (t.ucharge m.dstPdk 16).outAck o.id (bitsAt m.target 0 16)
          | .fetch _ => (t.ucharge m.dstPdk 16).fetchAck o.id (bitsAt m.target 0 16) (bitsAt m.target 32 32)
          | .append _ => (t.ucharge m.dstPdk 16).appendAck o.id (bitsAt m.target 0 16)
          | _ => t.ucharge m.dstPdk 16) :=
  (if_neg (ne_true_of_eq_false hx)).trans (State.receiveMsg_admits h)

/-- The acknowledgement of a mirror message, from the peer (R586). -/
theorem execAckReceive_mirror (hx : isMirrorXid m.xid = true) (ht : s.takeMsg port m 7 = some t)
    (hpeer : t.rd F.RTE_PCFG_PEER_DEV m.dstPdk = m.srcDev) (hst : isError (bitsAt m.target 0 16) = false) :
    execAckReceive port m s = .next (t.mirrorAcked m.dstPdk m.xid) := by
  refine (if_pos hx).trans ?_
  rw [ht]
  exact if_pos ⟨hpeer, hst⟩

end Effect

/-! ### Transit -/

section Transit

variable {s : State} {q : Fin 12} {vl : Fin 8} {m : Msg}

/-- A message that leaves its port changes nothing but the port. -/
theorem State.consume_keeping {α : Type} (get : State → α) (hport : ∀ (u : State) (q : Nat) (x : Port), get (u.setPort q x) = get u)
    (s : State) (q : Nat) (m : Msg) : get (s.consume q m) = get s := by
  have hcredit : ∀ (u : State) (pool : Nat), get (u.returnCredit q pool) = get u := fun u pool => by
    unfold State.returnCredit
    dsimp only
    split_ifs <;> exact hport ..
  unfold State.consume
  dsimp only
  split
  · rfl
  · refine (loopN_rel (R := fun u v => get v = get u) (fun _ => rfl) (fun _ _ _ h h' => h'.trans h) (fun _ _ => hcredit ..) _).trans ?_
    exact (hport ..).trans (hport ..)

@[simp] theorem State.consume_regs (s : State) (q : Nat) (m : Msg) : (s.consume q m).regs = s.regs :=
  State.consume_keeping State.regs (fun _ _ _ => rfl) s q m
@[simp] theorem State.consume_mem (s : State) (q : Nat) (m : Msg) : (s.consume q m).mem = s.mem :=
  State.consume_keeping State.mem (fun _ _ _ => rfl) s q m
@[simp] theorem State.consume_tx (s : State) (q : Nat) (m : Msg) : (s.consume q m).net.tx = s.net.tx :=
  State.consume_keeping (fun u => u.net.tx) (fun _ _ _ => rfl) s q m

/-- A message for this module, or of a closed port or a lane that no transit uses, stays. -/
theorem execTransitForward_stays (h : m.dstDev = s.devId ∨ s.portActive q.val = false ∨ vl.val = 0 ∨ vl.val = 7) :
    execTransitForward q vl m s = .next s := if_pos h

section Leaves

variable (hdev : m.dstDev ≠ s.devId) (hact : s.portActive q.val = true)
include hdev hact

/-- A message with a usable one-hop port goes on as the die's limiter admits it (R125, R564). -/
theorem execTransitForward_onward {z : Nat} (hlo : 1 ≤ vl.val) (hhi : vl.val ≤ 5) (hfwd : s.rd F.RTE_DEST_FORWARD 0 m.dstDev = 1)
    (hz : s.onehop m.dstDev = some z) :
    execTransitForward q vl m s = .next (s.reserve (rsvTransit (z / 6)) 16 (fun s =>
      ((s.consume q.val m).post (some z) 16 6 none m).bump F.RTE_TRANSIT_FWD_COUNT 0)) := by
  have hgoes : ¬ (m.dstDev = s.devId ∨ s.portActive q.val = false ∨ vl.val = 0 ∨ vl.val = 7) := by
    rintro (h | h | h | h)
    · exact hdev h
    · simp [hact] at h
    all_goals omega
  unfold execTransitForward
  rw [if_neg hgoes]
  dsimp only
  rw [if_pos ⟨hhi, hfwd⟩, hz]

/-- One that the limiter holds back waits. -/
theorem execTransitForward_waits {z : Nat} (hlo : 1 ≤ vl.val) (hhi : vl.val ≤ 5) (hfwd : s.rd F.RTE_DEST_FORWARD 0 m.dstDev = 1)
    (hz : s.onehop m.dstDev = some z) (hfull : 4096 < s.uwin (rsvTransit (z / 6)) + 16) :
    execTransitForward q vl m s = .next s := by
  rw [execTransitForward_onward hdev hact hlo hhi hfwd hz]
  have hcap : rsvCap (rsvTransit (z / 6)) = 4096 := if_neg (by unfold rsvTransit; omega)
  exact congrArg Host.Outcome.next (if_pos (by rwa [hcap]))

/-- One that it admits is handed to that port and counted. -/
theorem execTransitForward_forwards {z : Nat} (hlo : 1 ≤ vl.val) (hhi : vl.val ≤ 5) (hfwd : s.rd F.RTE_DEST_FORWARD 0 m.dstDev = 1)
    (hz : s.onehop m.dstDev = some z) (hroom : s.uwin (rsvTransit (z / 6)) + 16 ≤ 4096) :
    ∃ t, execTransitForward q vl m s = .next t ∧ t.mem = s.mem ∧ t.net.tx = s.net.tx ++ [⟨z, 16, 6, m, msgFlits m, none⟩] ∧
      t.rd F.RTE_TRANSIT_FWD_COUNT 0 = min (s.rd F.RTE_TRANSIT_FWD_COUNT 0 + 1) maxCount := by
  have hcap : rsvCap (rsvTransit (z / 6)) = 4096 := if_neg (by unfold rsvTransit; omega)
  refine ⟨_, (execTransitForward_onward hdev hact hlo hhi hfwd hz).trans (congrArg Host.Outcome.next
    (if_neg (by rw [hcap]; omega))), ?_, ?_, ?_⟩
  · exact (State.bump_mem ..).trans (State.consume_mem ..)
  · exact (congrArg Net.tx (State.bump_net ..)).trans (congrArg (· ++ [_]) (State.consume_tx ..))
  · rw [State.rd_bump_self rfl (by decide)]
    exact congrArg (fun n => min (n + 1) maxCount) (State.rd_congr (State.consume_regs ..) ..)

/-- One without a usable port is dropped and counted, and its sender is told (R564). -/
theorem execTransitForward_drops (hno : vl.val = 6 ∨ (1 ≤ vl.val ∧ vl.val ≤ 5 ∧ s.onehop m.dstDev = none)) :
    ∃ t, execTransitForward q vl m s = .next t ∧ t.mem = s.mem ∧
      t.rd F.RTE_TRANSIT_DROP_COUNT 0 = min (s.rd F.RTE_TRANSIT_DROP_COUNT 0 + 1) maxCount := by
  have hgoes : ¬ (m.dstDev = s.devId ∨ s.portActive q.val = false ∨ vl.val = 0 ∨ vl.val = 7) := by
    rintro (h | h | h | h)
    · exact hdev h
    · simp [hact] at h
    all_goals omega
  have hnone : (if vl.val ≤ 5 ∧ s.rd F.RTE_DEST_FORWARD 0 m.dstDev = 1 then s.onehop m.dstDev else none) = none := by
    obtain h | ⟨_, _, h⟩ := hno
    · exact if_neg (by omega)
    · rw [h, ite_self]
  have hcount : ((s.consume q.val m).bump F.RTE_TRANSIT_DROP_COUNT 0).rd F.RTE_TRANSIT_DROP_COUNT 0 =
      min (s.rd F.RTE_TRANSIT_DROP_COUNT 0 + 1) maxCount := by
    rw [State.rd_bump_self rfl (by decide)]
    exact congrArg (fun n => min (n + 1) maxCount) (State.rd_congr (State.consume_regs ..) ..)
  have hmem : ((s.consume q.val m).bump F.RTE_TRANSIT_DROP_COUNT 0).mem = s.mem := (State.bump_mem ..).trans (State.consume_mem ..)
  unfold execTransitForward
  rw [if_neg hgoes]
  extract_lets go
  rw [show go = none from hnone]
  dsimp only
  cases ((s.consume q.val m).bump F.RTE_TRANSIT_DROP_COUNT 0).onehop m.srcDev with
  | none => exact ⟨_, rfl, hmem, hcount⟩
  | some z => exact ⟨_, rfl, hmem, hcount⟩

end Leaves

end Transit

/-- Settles O45: each message has the case lemma of what happens to it; what a request hands on is counted by `LinesAdded`. -/
theorem paddockMessages : Obligations.PaddockMessages := by
  unfold Obligations.PaddockMessages
  refine fun s port m => ⟨fun cmd k hcmd => ?_, ?_, ?_, ?_, ?_, ?_, ?_, ?_, fun t hx ht => execAckReceive_mirror hx ht, ?_, ?_, ?_, ?_⟩
  · obtain ⟨go, hgo⟩ := rankedMessages (s := s) hcmd
    rw [hgo]
    exact ⟨State.receiveMsg_untaken, fun t st => State.receiveMsg_refused⟩
  · rintro rank t v rfl h st hst
    exact ⟨fun hbad => (execWriteMessageReceive_admitted h hst).trans (congrArg Host.Outcome.next (if_pos hbad)),
      fun hgood => (execWriteMessageReceive_admitted h hst).trans (congrArg Host.Outcome.next (if_neg (not_not_intro hgood)))⟩
  · rintro rank t v rfl h c rfl
    exact ⟨fun u => execPushMessageReceive_matched h,
      fun hnone hroom => (execPushMessageReceive_unmatched h hnone).trans (congrArg Host.Outcome.next (if_neg (Nat.not_le.2 hroom))),
      fun hnone hfull => (execPushMessageReceive_unmatched h hnone).trans (congrArg Host.Outcome.next (if_pos hfull))⟩
  · rintro rank t v rfl h st hst
    refine ⟨execReadReqReceive_refused h hst, fun hgood => ?_⟩
    obtain ⟨u, hu, hadded⟩ := execReadReqReceive_reads h (hst.symm.trans hgood)
    exact ⟨u, hu, hadded.mem, hadded.nextJob, hadded.nextLine⟩
  · rintro rank t v rfl h
    exact ⟨execReadDataReceive_over h, fun o f ho hpdk hf => ⟨execReadDataReceive_page h ho hpdk hf,
      fun hpage off len hpiece l hl => execReadDataReceive_line h ho hpdk hf hpage hpiece hl⟩⟩
  · exact fun hfull => if_pos hfull
  · rintro rank t v rfl h hroom
    refine ⟨execPageReqReceive_noServer hroom h, ?_⟩
    rintro hen hrole c w d e rfl rfl rfl rfl
    refine ⟨execPageReqReceive_unknown hroom h hen hrole, fun hq hv hl hh he => ?_⟩
    obtain ⟨u, status, hu, hadded⟩ := execPageReqReceive_reads hroom h hen hrole hq hv hl hh he
    exact ⟨u, hu, hadded.mem, hadded.nextJob, hadded.nextLine⟩
  · rintro rank t v rfl hx h
    rw [show exec (.ackReceive port m) s = _ from execAckReceive_names hx h]
    refine ⟨fun ho => by rw [ho], fun o ho hpdk => ?_⟩
    rw [ho]
    simp only [hpdk, ne_eq, not_true_eq_false, if_false]
    exact ⟨fun f hf => by rw [hf], fun f hf => by rw [hf], fun f hf => by rw [hf]⟩
  · rintro rank t v rfl h
    exact execStopReceive_stops h
  · refine fun c => ⟨fun hnil => ?_, fun e l hl => ?_⟩
    · change execEarlyArrivalTimeout c s = _
      unfold execEarlyArrivalTimeout
      dsimp only
      rw [hnil]
    · exact ⟨fun hwait => (execEarlyArrivalTimeout_oldest hl).trans (if_pos hwait),
        fun hlate => (execEarlyArrivalTimeout_oldest hl).trans (if_neg (Nat.not_le.2 hlate))⟩
  · intro c x hx
    change execReceiveComplete c s = _
    unfold execReceiveComplete
    extract_lets next
    rw [show next = x from hx]
    cases x <;> rfl
  · exact fun q vl => ⟨execTransitForward_stays, fun hdev hact => ⟨fun z hlo hhi hfwd hz =>
      ⟨execTransitForward_waits hdev hact hlo hhi hfwd hz, execTransitForward_forwards hdev hact hlo hhi hfwd hz⟩,
      execTransitForward_drops hdev hact⟩⟩

end Sys2Proof.Machine
end

section
/-! PROOFS. Routes, ranks and the page server (R561, R566, R567, R570, R582, R589). -/

-- Proofs side by side each take a thread with its stack: together they pass the bound on memory.
set_option Elab.async false

namespace Sys2Proof.Machine

/-! ### Routes -/

/-- The fields of an entry of the destination table, but for its paths. -/
def destFlds : List Fld := [F.RTE_DEST_VALID, F.RTE_DEST_FORWARD, F.RTE_DEST_NPATHS_M1, F.RTE_DEST_TRANSIT_FLITS]

/-- An entry that is replaced reads as it was written (R566). -/
theorem State.putDest_rd {s : State} {d flags npaths transit : Nat} {paths : List (Nat × Nat × Nat)} (hflags : flags ≤ 3)
    (hpaths : npaths ≤ 4) (htransit : transit ≤ 4095) :
    (s.putDest d flags npaths transit paths).rd F.RTE_DEST_VALID 0 d = flags % 2 ∧
    (s.putDest d flags npaths transit paths).rd F.RTE_DEST_FORWARD 0 d = flags / 2 ∧
    (s.putDest d flags npaths transit paths).rd F.RTE_DEST_NPATHS_M1 0 d = npaths - 1 ∧
    (s.putDest d flags npaths transit paths).rd F.RTE_DEST_TRANSIT_FLITS 0 d = transit := by
  unfold State.putDest
  extract_lets a b c
  have hloops : SameFlds destFlds b (loopN 12 (fun q u => u.wr F.RTE_TRES_RES 0 (u.portReserves q) q) c) :=
    ((SameFlds.refl b).loopN fun _ _ hu => hu.wr).loopN fun _ _ hu => hu.wr
  have hfwd : flags / 2 % 2 = flags / 2 := Nat.mod_eq_of_lt (by omega)
  refine ⟨(hloops _ (by simp [destFlds]) ..).trans ?_, (hloops _ (by simp [destFlds]) ..).trans ?_,
    (hloops _ (by simp [destFlds]) ..).trans ?_, (hloops _ (by simp [destFlds]) ..).trans ?_⟩
  · rw [State.rd_wr_fld (by decide), State.rd_wr_fld (by decide), State.rd_wr_fld (by decide), State.rd_wr_self]
    exact Nat.mod_mod ..
  · rw [State.rd_wr_fld (by decide), State.rd_wr_fld (by decide), State.rd_wr_self, hfwd]
    exact Nat.mod_eq_of_lt (by change flags / 2 < 2; omega)
  · rw [State.rd_wr_fld (by decide), State.rd_wr_self]
    exact Nat.mod_eq_of_lt (by change npaths - 1 < 4; omega)
  · rw [State.rd_wr_self]
    exact Nat.mod_eq_of_lt (by change transit < 4096; omega)

theorem State.putDest_sched (s : State) (d flags npaths transit : Nat) (paths : List (Nat × Nat × Nat)) :
    (s.putDest d flags npaths transit paths).sched = s.sched := by
  unfold State.putDest
  extract_lets a b c
  refine (loopN_sched (fun _ _ => State.wr_sched ..) 12).trans ((loopN_sched (fun _ _ => State.wr_sched ..) 4).trans ?_)
  simp only [b, a, State.wr_sched]

section Routes

variable {s : State} {h : Hdr} {dev flags npaths transit : Nat} {paths : List (Nat × Nat × Nat)}

/-- The operands that ROUTE_WRITE takes (R566). -/
structure RouteOk (s : State) (dev flags npaths transit : Nat) (paths : List (Nat × Nat × Nat)) : Prop where
  dev_le : dev ≤ 63
  other : dev ≠ s.devId
  flags_le : flags ≤ 3
  one_le : 1 ≤ npaths
  npaths_le : npaths ≤ 4
  length : paths.length = npaths
  transit_le : transit ≤ 4095
  paths : ∀ x ∈ paths, x.1 ≤ 11 ∧ (x.2.1 = 1 ∨ x.2.1 = 2) ∧ x.2.2 ≤ 63 ∧ (hasBit flags 1 = true → x.2.1 = 1)

/-- Whether the transit flits reserved on a port pass its allotment. -/
def State.overbooked (s : State) (dev flags npaths transit : Nat) (paths : List (Nat × Nat × Nat)) : Bool :=
  let t := s.putDest dev flags npaths transit paths
  (List.range 12).any (fun q => decide (t.rd F.PLK_TRANSIT_TRANSIT q < t.portReserves q) && t.portReserves q != 0)

/-- Replacing an entry leaves the allotments alone. -/
theorem State.putDest_transit (s : State) (q : Nat) :
    (s.putDest dev flags npaths transit paths).rd F.PLK_TRANSIT_TRANSIT q = s.rd F.PLK_TRANSIT_TRANSIT q := by
  unfold State.putDest
  extract_lets a b c
  have hsame : SameFlds [F.PLK_TRANSIT_TRANSIT] s (loopN 12 (fun q u => u.wr F.RTE_TRES_RES 0 (u.portReserves q) q) c) :=
    (((((SameFlds.refl s).wr).wr).wr.wr).loopN fun _ _ hu => hu.wr).loopN fun _ _ hu => hu.wr
  exact hsame _ (List.mem_singleton_self _) ..

/-- With operands in order only the reservations can stop ROUTE_WRITE. -/
theorem execRouteWrite_checked (hok : RouteOk s dev flags npaths transit paths) : execRouteWrite h dev flags npaths transit paths s =
    .next (s.checked h opRouteWrite (failIf (s.overbooked dev flags npaths transit paths) 0x820) (fun s =>
      ((s.start h opRouteWrite (some (.routeWrite h dev flags npaths transit paths))).putDest dev flags npaths transit paths).complete h 0)) := by
  obtain ⟨hdev, hother, hflags, hone, hnpaths, hlen, htransit, hpaths⟩ := hok
  have hbad : (decide (63 < dev) || dev == s.devId || decide (3 < flags) || npaths == 0 || decide (4 < npaths) ||
      paths.length != npaths || decide (4095 < transit) ||
      paths.any (fun x => decide (11 < x.1) || !(x.2.1 == 1 || x.2.1 == 2) || decide (63 < x.2.2)) ||
      (hasBit flags 1 && paths.any (fun x => x.2.1 != 1))) = false := by
    have hfields : paths.any (fun x => decide (11 < x.1) || !(x.2.1 == 1 || x.2.1 == 2) || decide (63 < x.2.2)) = false :=
      List.any_eq_false.2 fun x hx => by
        obtain ⟨hport, hhops, hflow, _⟩ := hpaths x hx
        rcases hhops with hhops | hhops <;> simp [hhops, Nat.not_lt.2 hport, Nat.not_lt.2 hflow]
    have hdirect : (hasBit flags 1 && paths.any (fun x => x.2.1 != 1)) = false := by
      refine Bool.and_eq_false_imp.2 fun hbit => List.any_eq_false.2 fun x hx => ?_
      simp [(hpaths x hx).2.2.2 hbit]
    simp only [hfields, hdirect, hlen, Bool.or_eq_false_iff, decide_eq_false_iff_not, beq_eq_false_iff_ne, bne_self_eq_false]
    exact ⟨⟨⟨⟨⟨⟨⟨⟨by omega, hother⟩, by omega⟩, by omega⟩, by omega⟩, trivial⟩, by omega⟩, trivial⟩, trivial⟩
  unfold execRouteWrite
  dsimp only
  rw [hbad, failIf_false, firstStatus_zero_cons]
  unfold State.overbooked
  dsimp only
  cases (List.range 12).any _ <;> rfl

/-- ROUTE_WRITE replaces its entry and completes at once (R566). -/
theorem execRouteWrite_replaces (hok : RouteOk s dev flags npaths transit paths) (hgo : s.goes h opRouteWrite 0)
    (hroom : ∀ q < 12, (s.putDest dev flags npaths transit paths).portReserves q ≤ s.rd F.PLK_TRANSIT_TRANSIT q ∨
      (s.putDest dev flags npaths transit paths).portReserves q = 0) :
    execRouteWrite h dev flags npaths transit paths s = .next (((s.start h opRouteWrite
      (some (.routeWrite h dev flags npaths transit paths))).putDest dev flags npaths transit paths).complete h 0) := by
  have hbook : s.overbooked dev flags npaths transit paths = false := List.any_eq_false.2 fun q hq => by
    rw [State.putDest_transit]
    rcases hroom q (List.mem_range.1 hq) with hle | hzero
    · simp [Nat.not_lt.2 hle]
    · simp [hzero]
  rw [execRouteWrite_checked hok, hbook]
  exact congrArg Host.Outcome.next (State.checked_goes hgo)

/-- One that reserves more than a port's allotment changes nothing (R566). -/
theorem execRouteWrite_overbooked {q : Nat} (hok : RouteOk s dev flags npaths transit paths) (hq : q < 12)
    (hover : s.rd F.PLK_TRANSIT_TRANSIT q < (s.putDest dev flags npaths transit paths).portReserves q) (hdeaf : s.deaf h = false)
    (hfatal : s.rd F.HIF_FATAL_FATAL 0 = 0) (hrec : s.trust.recovery = false) (hcall : s.callStatus h opRouteWrite = 0) :
    execRouteWrite h dev flags npaths transit paths s = .next (s.complete h 0x820) := by
  have hbook : s.overbooked dev flags npaths transit paths = true := List.any_eq_true.2 ⟨q, List.mem_range.2 hq, by
    rw [State.putDest_transit]
    simp [hover, Nat.ne_of_gt (Nat.zero_lt_of_lt hover)]⟩
  have hstatus : firstStatus [s.callStatus h opRouteWrite, failIf true 0x820] = 0x820 := by rw [hcall]; rfl
  rw [execRouteWrite_checked hok, hbook]
  refine congrArg Host.Outcome.next ((State.checked_stops hdeaf hfatal hrec ?_).trans (congrArg (s.complete h) hstatus))
  rw [hstatus]
  decide

end Routes

/-! ### Ranks -/

/-- The fields of an entry of the rank table. -/
def rankFlds : List Fld := [F.RTE_RANK_VALID, F.RTE_RANK_DEV, F.RTE_RANK_PADDOCK, F.RTE_RANK_EPOCH]

/-- Entry `r` of the rank table of paddock `p` is replaced. -/
def State.putRank (s : State) (p r e : Nat) : State :=
  let s := (s.wr F.RTE_RANK_VALID p (bitsAt e 63 1) r).wr F.RTE_RANK_DEV p (rankDev e) r
  (s.wr F.RTE_RANK_PADDOCK p (rankPdk e) r).wr F.RTE_RANK_EPOCH p (bitsAt e 32 16) r

/-- The entries of a RANK_WRITE are put in their places. -/
def State.putRanks (s : State) (p first count : Nat) (entries : List Nat) : State :=
  loopN count (fun k s => s.putRank p (first + k) (nth entries k)) s

/-- The registers of the own rank, when asked. -/
def State.putSelf (s : State) (p flags self epoch : Nat) : State :=
  if hasBit flags 1 then (s.wr F.RTE_PCFG_RANK_SELF p self).wr F.RTE_PCFG_SELF_EPOCH p epoch else s

section Ranks

variable {s : State} {h : Hdr} {p r e first count flags self epoch : Nat} {entries : List Nat}

theorem State.rd_putRank_elsewhere {k : Nat} {g : Fld} (hk : k ≠ r) : (s.putRank p r e).rd g p k = s.rd g p k := by
  have hwr : ∀ (u : State) (f : Fld) (v : Nat), (u.wr f p v r).rd g p k = u.rd g p k := fun u f v =>
    State.rd_wr_ne fun heq => hk (List.cons.inj (List.cons.inj (List.cons.inj heq).2).2).1
  unfold State.putRank
  rw [hwr, hwr, hwr, hwr]

/-- An entry reads as it was written. -/
theorem State.rd_putRank : (s.putRank p r e).rd F.RTE_RANK_VALID p r = bitsAt e 63 1 ∧ (s.putRank p r e).rd F.RTE_RANK_DEV p r = rankDev e ∧
    (s.putRank p r e).rd F.RTE_RANK_PADDOCK p r = rankPdk e ∧ (s.putRank p r e).rd F.RTE_RANK_EPOCH p r = bitsAt e 32 16 := by
  unfold State.putRank
  dsimp only
  refine ⟨?_, ?_, ?_, ?_⟩
  · rw [State.rd_wr_fld (by decide), State.rd_wr_fld (by decide), State.rd_wr_fld (by decide), State.rd_wr_self]
    exact bitsAt_mod e 63 1
  · rw [State.rd_wr_fld (by decide), State.rd_wr_fld (by decide), State.rd_wr_self]
    exact bitsAt_mod e 56 6
  · rw [State.rd_wr_fld (by decide), State.rd_wr_self]
    exact bitsAt_mod e 48 4
  · rw [State.rd_wr_self]
    exact bitsAt_mod e 32 16

/-- Every entry of the run reads as it was given. -/
theorem State.rd_putRanks {g : Fld} {φ : Nat → Nat} (hφ : ∀ (u : State) (r e : Nat), (u.putRank p r e).rd g p r = φ e) {k : Nat}
    (hk : k < count) : (s.putRanks p first count entries).rd g p (first + k) = φ (nth entries k) :=
  State.rd_loopN_round (φ := fun _ => φ (nth entries k)) (fun _ => hφ ..) (fun _ hm _ => State.rd_putRank_elsewhere (by omega)) hk

/-- The entries beside the run keep. -/
theorem State.rd_putRanks_elsewhere {g : Fld} {k : Nat} (hk : k < first ∨ first + count ≤ k) :
    (s.putRanks p first count entries).rd g p k = s.rd g p k :=
  State.rd_loopN_keep fun _ hm _ => State.rd_putRank_elsewhere (by omega)

/-- Ranks are registers of their own. -/
theorem State.putRanks_onlyRegs (s : State) : OnlyRegs s (s.putRanks p first count entries) rankFlds :=
  onlyRegs_loopN onlyRegs_refl fun _ _ hu => onlyRegs_wr (onlyRegs_wr (onlyRegs_wr (onlyRegs_wr hu (by simp [rankFlds]))
    (by simp [rankFlds])) (by simp [rankFlds])) (by simp [rankFlds])

theorem State.putSelf_onlyRegs (s : State) : OnlyRegs s (s.putSelf p flags self epoch) [F.RTE_PCFG_RANK_SELF, F.RTE_PCFG_SELF_EPOCH] :=
  onlyRegs_ite (onlyRegs_wr (onlyRegs_wr onlyRegs_refl (by simp)) (by simp)) onlyRegs_refl

theorem State.rd_putSelf (hbit : hasBit flags 1 = true) (hself : self ≤ 63) (hepoch : epoch ≤ 65535) :
    (s.putSelf p flags self epoch).rd F.RTE_PCFG_RANK_SELF p = self ∧ (s.putSelf p flags self epoch).rd F.RTE_PCFG_SELF_EPOCH p = epoch := by
  unfold State.putSelf
  rw [if_pos hbit, State.rd_wr_fld (by decide), State.rd_wr_self, State.rd_wr_self]
  exact ⟨Nat.mod_eq_of_lt (by change self < 64; omega), Nat.mod_eq_of_lt (by change epoch < 65536; omega)⟩

/-- The VF of a locked paddock is told of a change: no rank, no memory and nothing of the schedule changes (R614). -/
theorem State.tdiConfigChanged_beside (s : State) (p : Nat) : SameFlds (rankFlds ++ [F.RTE_PCFG_RANK_SELF, F.RTE_PCFG_SELF_EPOCH]) s (s.tdiConfigChanged p) ∧
    (s.tdiConfigChanged p).mem = s.mem ∧ (s.tdiConfigChanged p).sched = s.sched := by
  unfold State.tdiConfigChanged
  dsimp only
  split
  · exact ⟨((SameFlds.refl s).wr).event, State.event_mem .., State.event_sched ..⟩
  · exact ⟨SameFlds.refl s, rfl, rfl⟩

section Write

variable (hfirst : first ≤ 63) (hcount : count ≤ 56) (hsum : first + count ≤ 64) (hflags : flags ≤ 3) (hself : self ≤ 63)
  (hepoch : epoch ≤ 65535) (hlen : entries.length = count) (hform : ∀ e ∈ entries, rankEntryOk e = true)
include hfirst hcount hsum hflags hself hepoch hlen hform

/-- With operands in order RANK_WRITE looks at the group of the entries alone (R567). -/
theorem rankWriteStatus : failIf (decide (63 < first) || decide (56 < count) || decide (64 < first + count) || decide (3 < flags) || decide (63 < self) ||
    decide (65535 < epoch) || entries.length != count || entries.any (fun e => !rankEntryOk e)) 0x2C0 = 0 := by
  have hany : entries.any (fun e => !rankEntryOk e) = false := List.any_eq_false.2 fun e he => by simp [hform e he]
  simp only [hany, hlen, Nat.not_lt.2 hfirst, Nat.not_lt.2 hcount, Nat.not_lt.2 hsum, Nat.not_lt.2 hflags, Nat.not_lt.2 hself,
    Nat.not_lt.2 hepoch, decide_false, bne_self_eq_false, Bool.or_false]
  rfl

/-- An entry outside the group ends RANK_WRITE with 0x03A0 (R567). -/
theorem execRankWrite_outside (hout : ∃ e ∈ entries, rankValid e = true ∧ rankDev e = s.devId ∧ s.sameGroup (h.pdk % 16) (rankPdk e) = false)
    (hdeaf : s.deaf h = false) (hfatal : s.rd F.HIF_FATAL_FATAL 0 = 0) (hrec : s.trust.recovery = false)
    (hcall : s.callStatus h opRankWrite = 0) :
    execRankWrite h first count flags self epoch entries s = .next (s.complete h 0x3A0) := by
  have hany : entries.any (fun e => rankValid e && rankDev e == s.devId && !s.sameGroup (h.pdk % 16) (rankPdk e)) = true := by
    obtain ⟨e, he, hv, hd, hg⟩ := hout
    exact List.any_eq_true.2 ⟨e, he, by simp [hv, hd, hg]⟩
  unfold execRankWrite
  dsimp only
  rw [rankWriteStatus hfirst hcount hsum hflags hself hepoch hlen hform, hany, firstStatus_zero_cons]
  have hstatus : firstStatus [s.callStatus h opRankWrite, firstStatus [failIf true 0x3A0]] = 0x3A0 := by rw [hcall]; rfl
  refine congrArg Host.Outcome.next ((State.checked_stops hdeaf hfatal hrec ?_).trans (congrArg (s.complete h) hstatus))
  rw [hstatus]
  decide

/-- Otherwise the entries, and the own rank when asked, change in one clock; without DRAIN it completes at once (R567, R570). -/
theorem execRankWrite_writes (hin : ∀ e ∈ entries, rankValid e = true → rankDev e = s.devId → s.sameGroup (h.pdk % 16) (rankPdk e) = true)
    (hgo : s.goes h opRankWrite 0) : ∃ v : State, v.regs = (s.start h opRankWrite (some (.rankWrite h first count flags self epoch entries))
        [h.pdk % 16, first, count, s.sched.nextOp, s.rankUsers (h.pdk % 16) s.sched.nextOp first count]).regs ∧ v.mem = s.mem ∧ v.sched = s.sched ∧
      ∀ u, u = ((v.putRanks (h.pdk % 16) first count entries).putSelf (h.pdk % 16) flags self epoch).tdiConfigChanged (h.pdk % 16) →
        execRankWrite h first count flags self epoch entries s = .next (if hasBit flags 0 then u else u.complete h 0) := by
  have hany : entries.any (fun e => rankValid e && rankDev e == s.devId && !s.sameGroup (h.pdk % 16) (rankPdk e)) = false :=
    List.any_eq_false.2 fun e he => by
      by_cases hv : rankValid e = true
      · by_cases hd : rankDev e = s.devId
        · simp [hin e he hv hd]
        · simp [hd]
      · simp [hv]
  refine ⟨_, rfl, State.start_mem .., State.start_sched .., fun u hu => ?_⟩
  unfold execRankWrite
  dsimp only
  rw [rankWriteStatus hfirst hcount hsum hflags hself hepoch hlen hform, hany]
  exact congrArg Host.Outcome.next ((State.checked_goes (State.goes_of_status hgo rfl)).trans (by rw [hu]; rfl))

end Write

/-- What RANK_WRITE leaves behind, before it completes. -/
theorem State.rankWrite_result {v u : State} (hu : u = ((v.putRanks p first count entries).putSelf p flags self epoch).tdiConfigChanged p)
    (hself : self ≤ 63) (hepoch : epoch ≤ 65535) :
    (∀ k < count, u.rd F.RTE_RANK_VALID p (first + k) = bitsAt (nth entries k) 63 1 ∧ u.rd F.RTE_RANK_DEV p (first + k) = rankDev (nth entries k) ∧
      u.rd F.RTE_RANK_PADDOCK p (first + k) = rankPdk (nth entries k) ∧ u.rd F.RTE_RANK_EPOCH p (first + k) = bitsAt (nth entries k) 32 16) ∧
    (∀ k, (k < first ∨ first + count ≤ k) → u.rd F.RTE_RANK_VALID p k = v.rd F.RTE_RANK_VALID p k ∧ u.rd F.RTE_RANK_DEV p k = v.rd F.RTE_RANK_DEV p k) ∧
    (hasBit flags 1 = true → u.rd F.RTE_PCFG_RANK_SELF p = self ∧ u.rd F.RTE_PCFG_SELF_EPOCH p = epoch) ∧
    u.mem = v.mem ∧ u.sched = v.sched := by
  obtain ⟨htold, hmem, hsched⟩ := ((v.putRanks p first count entries).putSelf p flags self epoch).tdiConfigChanged_beside p
  rw [← hu] at htold hmem hsched
  have hranks : SameFlds rankFlds (v.putRanks p first count entries) u :=
    ((SameFlds.refl _).onlyRegs (State.putSelf_onlyRegs _)).trans fun g hg => htold g (List.mem_append_left _ hg)
  have hrest : u.mem = v.mem ∧ u.sched = v.sched := by
    have h1 := (State.putRanks_onlyRegs (p := p) (first := first) (count := count) (entries := entries) v).1
    have h2 := (State.putSelf_onlyRegs (p := p) (flags := flags) (self := self) (epoch := epoch) (v.putRanks p first count entries)).1
    constructor
    · rw [hmem, h2, h1]
    · rw [hsched, h2, h1]
  refine ⟨fun k hk => ⟨?_, ?_, ?_, ?_⟩, fun k hk => ⟨?_, ?_⟩, fun hbit => ?_, hrest⟩
  · exact (hranks _ (by simp [rankFlds]) ..).trans (State.rd_putRanks (φ := fun e => bitsAt e 63 1) (fun _ _ _ => State.rd_putRank.1) hk)
  · exact (hranks _ (by simp [rankFlds]) ..).trans (State.rd_putRanks (φ := rankDev) (fun _ _ _ => State.rd_putRank.2.1) hk)
  · exact (hranks _ (by simp [rankFlds]) ..).trans (State.rd_putRanks (φ := rankPdk) (fun _ _ _ => State.rd_putRank.2.2.1) hk)
  · exact (hranks _ (by simp [rankFlds]) ..).trans (State.rd_putRanks (φ := fun e => bitsAt e 32 16) (fun _ _ _ => State.rd_putRank.2.2.2) hk)
  · exact (hranks _ (by simp [rankFlds]) ..).trans (State.rd_putRanks_elsewhere hk)
  · exact (hranks _ (by simp [rankFlds]) ..).trans (State.rd_putRanks_elsewhere hk)
  · rw [htold _ (by simp), htold _ (by simp)]
    exact State.rd_putSelf hbit hself hepoch

/-! ### The drain -/

section Drain

variable {h' : Hdr} {f n next users : Nat} (hcmd : s.runningCmd h = some (.rankWrite h' first count flags self epoch entries))
  (hprog : s.progOf h = [p, f, n, next, users])
include hcmd hprog

/-- The drain goes on while a transfer or an early row of a replaced rank is left, and then completes with the transfers there were
(R570). -/
theorem execRankWriteDrainDone_running : execRankWriteDrainDone h s =
    if 0 < s.rankUsers p next f n ∨
        (List.range 8).any (fun i => (s.earlyOf (8 * p + i)).any (fun e => decide (f ≤ e.rank) && decide (e.rank < f + n))) = true then .next s
    else .next (s.complete h 0 (users % 2 ^ 16 * 2 ^ 16)) := by
  unfold execRankWriteDrainDone
  rw [hcmd]
  dsimp only
  rw [hprog]
  rfl

theorem execRankWriteDrainDone_drained (husers : s.rankUsers p next f n = 0)
    (hearly : ∀ i < 8, ∀ e ∈ s.earlyOf (8 * p + i), e.rank < f ∨ f + n ≤ e.rank) :
    execRankWriteDrainDone h s = .next (s.complete h 0 (users % 2 ^ 16 * 2 ^ 16)) := by
  have hnone : (List.range 8).any (fun i => (s.earlyOf (8 * p + i)).any (fun e => decide (f ≤ e.rank) && decide (e.rank < f + n))) = false :=
    List.any_eq_false.2 fun i hi => ne_true_of_eq_false (List.any_eq_false.2 fun e he => by
      rcases hearly i (List.mem_range.1 hi) e he with hlt | hge
      · simp [Nat.not_le.2 hlt]
      · simp [Nat.not_lt.2 hge])
  rw [execRankWriteDrainDone_running hcmd hprog, if_neg (by rw [husers, hnone]; decide)]

end Drain

end Ranks

/-- Settles O46: a route's entry by its registers (`State.putDest_rd`), the ranks of a run by the loop's one round for each place
(`State.rd_putRanks`). -/
theorem routesAndRanks : Obligations.RoutesAndRanks := by
  unfold Obligations.RoutesAndRanks
  refine fun s h => ⟨fun dev flags npaths transit paths hdev hother hflags hone hnpaths hlen htransit hpaths => ?_,
    fun first count flags self epoch entries hfirst hcount hsum hflags hself hepoch hlen hform => ⟨?_, fun hin hgo => ?_⟩,
    fun h' first count flags self epoch entries p f n next users hcmd hprog => ⟨fun husers => ?_, fun husers hearly => ?_⟩, fun en hgo => ?_⟩
  · have hok : RouteOk s dev flags npaths transit paths := ⟨hdev, hother, hflags, hone, hnpaths, hlen, htransit, hpaths⟩
    refine ⟨fun hroom hgo => ⟨_, execRouteWrite_replaces hok hgo hroom, rfl, ?_⟩,
      fun q hq hover hdeaf hfatal hrec hcall => execRouteWrite_overbooked hok hq hover hdeaf hfatal hrec hcall⟩
    have hdone : ∀ v : State, SameFlds destFlds v (v.complete h 0) := fun v => (SameFlds.refl v).complete
    obtain ⟨hv, hf, hn, ht⟩ := State.putDest_rd (s := s.start h opRouteWrite (some (.routeWrite h dev flags npaths transit paths)))
      (d := dev) (paths := paths) hflags hnpaths htransit
    exact ⟨(hdone _ _ (by simp [destFlds]) ..).trans hv, (hdone _ _ (by simp [destFlds]) ..).trans hf,
      (hdone _ _ (by simp [destFlds]) ..).trans hn, (hdone _ _ (by simp [destFlds]) ..).trans ht,
      (State.complete_sched ..).trans ((State.putDest_sched ..).trans (State.start_sched ..))⟩
  · exact execRankWrite_outside hfirst hcount hsum hflags hself hepoch hlen hform
  · obtain ⟨v, hregs, hmem, hsched, hrun⟩ := execRankWrite_writes hfirst hcount hsum hflags hself hepoch hlen hform hin hgo
    have hstart : SameFlds rankFlds s v := ((SameFlds.refl s).start).beside hregs
    obtain ⟨hput, helse, hself', hmem', hsched'⟩ := State.rankWrite_result (flags := flags) (entries := entries) (v := v) rfl hself hepoch
    refine ⟨_, hrun _ rfl, hput, fun k hk => ?_, hself', hmem'.trans hmem, hsched'.trans hsched⟩
    obtain ⟨hvalid, hdev⟩ := helse k hk
    exact ⟨hvalid.trans (hstart _ (by simp [rankFlds]) ..), hdev.trans (hstart _ (by simp [rankFlds]) ..)⟩
  · exact (execRankWriteDrainDone_running hcmd hprog).trans (if_pos (.inl husers))
  · exact execRankWriteDrainDone_drained hcmd hprog husers hearly
  · have hen : en ≤ 1 := by
      by_contra hbad
      obtain ⟨_, _, _, _, hst⟩ := hgo
      simp [failIf, Nat.not_le.1 hbad] at hst
    refine ⟨_, congrArg Host.Outcome.next (State.checked_goes hgo), rfl, ?_⟩
    have hdone : ∀ v : State, SameFlds [F.RTE_PCFG_PSERVER_EN] v (v.complete h 0) := fun v => (SameFlds.refl v).complete
    rw [hdone _ _ (List.mem_singleton_self _), State.rd_wr_self]
    exact Nat.mod_eq_of_lt (by change en < 2; omega)

end Sys2Proof.Machine
end

section
/-! PROOFS. Mirror pairs (R585 to R589). -/

-- Proofs side by side each take a thread with its stack: together they pass the bound on memory.
set_option Elab.async false

namespace Sys2Proof.Machine

/-! ### MIRROR_SET -/

/-- The part of paddock `p` in the operand of MIRROR_SET. -/
def partOf (part p : Nat) : Nat := bitsAt part (2 * p) 2

/-- Paddock `p` takes its part, fence and peer, and its beats count from now (R585). -/
def State.setMirror (s : State) (peer part fence p : Nat) : State :=
  let s := (s.wr F.RTE_PCFG_PART p (partOf part p)).wr F.RTE_PCFG_FENCE_ON_BREAK p (bitsAt fence p 1)
  let s := if partOf part p = 0 then s else s.wr F.RTE_PCFG_PEER_DEV p peer
  { s with net := { s.net with beatAt := tset 0 s.net.beatAt [p] s.now } }

section Set

variable {s : State} {peer part fence p k : Nat}

/-- The part of another paddock stays. -/
theorem State.rd_setMirror_elsewhere {g : Fld} {j : Nat} (hk : k ≠ p) : (s.setMirror peer part fence p).rd g k j = s.rd g k j := by
  unfold State.setMirror
  extract_lets a b
  have hb : b.rd g k j = s.rd g k j := by
    have ha : a.rd g k j = s.rd g k j := (State.rd_wr_elsewhere hk).trans (State.rd_wr_elsewhere hk)
    simp only [b]
    split
    · exact ha
    · exact (State.rd_wr_elsewhere hk).trans ha
  exact hb

theorem State.rd_setMirror_part : (s.setMirror peer part fence p).rd F.RTE_PCFG_PART p = partOf part p := by
  have hmod : partOf part p % 2 ^ F.RTE_PCFG_PART.width = partOf part p := bitsAt_mod part (2 * p) 2
  unfold State.setMirror
  extract_lets a b
  change b.rd F.RTE_PCFG_PART p = _
  have ha : a.rd F.RTE_PCFG_PART p = partOf part p := (State.rd_wr_fld (by decide)).trans (State.rd_wr_self.trans hmod)
  simp only [b]
  split
  · exact ha
  · exact (State.rd_wr_fld (by decide)).trans ha

theorem State.rd_setMirror_fence : (s.setMirror peer part fence p).rd F.RTE_PCFG_FENCE_ON_BREAK p = bitsAt fence p 1 := by
  have hmod : bitsAt fence p 1 % 2 ^ F.RTE_PCFG_FENCE_ON_BREAK.width = bitsAt fence p 1 := bitsAt_mod fence p 1
  unfold State.setMirror
  extract_lets a b
  change b.rd F.RTE_PCFG_FENCE_ON_BREAK p = _
  have ha : a.rd F.RTE_PCFG_FENCE_ON_BREAK p = bitsAt fence p 1 := State.rd_wr_self.trans hmod
  simp only [b]
  split
  · exact ha
  · exact (State.rd_wr_fld (by decide)).trans ha

/-- A paddock with a part has the peer named; one without keeps its own. -/
theorem State.rd_setMirror_peer (hpeer : peer ≤ 63) : (s.setMirror peer part fence p).rd F.RTE_PCFG_PEER_DEV p =
    if partOf part p = 0 then s.rd F.RTE_PCFG_PEER_DEV p else peer := by
  unfold State.setMirror
  extract_lets a b
  change b.rd F.RTE_PCFG_PEER_DEV p = _
  have ha : a.rd F.RTE_PCFG_PEER_DEV p = s.rd F.RTE_PCFG_PEER_DEV p := (State.rd_wr_fld (by decide)).trans (State.rd_wr_fld (by decide))
  simp only [b]
  split
  · exact ha
  · exact State.rd_wr_self.trans (Nat.mod_eq_of_lt (by change peer < 64; omega))

/-- Beside its registers and its beats nothing of a paddock's part shows. -/
theorem State.setMirror_beside (s : State) (peer part fence p : Nat) : (s.setMirror peer part fence p).mem = s.mem ∧
    (s.setMirror peer part fence p).sched = s.sched ∧ (s.setMirror peer part fence p).net.mirrorPorts = s.net.mirrorPorts := by
  unfold State.setMirror
  dsimp only
  split_ifs <;> exact ⟨rfl, rfl, rfl⟩

/-- The parts of all sixteen paddocks are set. -/
def State.setMirrors (s : State) (peer part fence : Nat) : State := loopN 16 (fun p s => s.setMirror peer part fence p) s

theorem State.setMirrors_beside (s : State) (peer part fence : Nat) : (s.setMirrors peer part fence).mem = s.mem ∧
    (s.setMirrors peer part fence).sched = s.sched ∧ (s.setMirrors peer part fence).net.mirrorPorts = s.net.mirrorPorts :=
  loopN_rel (R := fun u v => v.mem = u.mem ∧ v.sched = u.sched ∧ v.net.mirrorPorts = u.net.mirrorPorts) (fun _ => ⟨rfl, rfl, rfl⟩)
    (fun _ _ _ huv hvw => ⟨hvw.1.trans huv.1, hvw.2.1.trans huv.2.1, hvw.2.2.trans huv.2.2⟩) (fun _ _ => State.setMirror_beside ..) 16

theorem State.rd_setMirrors (hpeer : peer ≤ 63) (hp : p < 16) : (s.setMirrors peer part fence).rd F.RTE_PCFG_PART p = partOf part p ∧
    (s.setMirrors peer part fence).rd F.RTE_PCFG_FENCE_ON_BREAK p = bitsAt fence p 1 ∧
    (s.setMirrors peer part fence).rd F.RTE_PCFG_PEER_DEV p = if partOf part p = 0 then s.rd F.RTE_PCFG_PEER_DEV p else peer :=
  ⟨State.rd_loopN_round (φ := fun _ => partOf part p) (fun _ => State.rd_setMirror_part) (fun _ hm _ => State.rd_setMirror_elsewhere hm.symm) hp,
    State.rd_loopN_round (φ := fun _ => bitsAt fence p 1) (fun _ => State.rd_setMirror_fence) (fun _ hm _ => State.rd_setMirror_elsewhere hm.symm) hp,
    State.rd_loopN_round (φ := fun old => if partOf part p = 0 then old else peer) (fun _ => State.rd_setMirror_peer hpeer)
      (fun _ hm _ => State.rd_setMirror_elsewhere hm.symm) hp⟩

end Set

/-- MIRROR_SET that passes its checks gives every paddock its part, and completes (R585). -/
theorem execMirrorSet_sets {s : State} {h : Hdr} {peer ports part fence : Nat} (hpeer : peer ≤ 63) (hother : peer ≠ s.devId)
    (hports : ports < 2 ^ 12) (hpart : part < 2 ^ 32) (hfence : fence < 2 ^ 16) (hparts : ∀ p < 16, bitsAt part (2 * p) 2 ≠ 3)
    (hnamed : ∀ p < 16, bitsAt part (2 * p) 2 ≠ 0 → s.tdiLocked p = false ∧ s.pdkState p ≠ pdkFree ∧ s.pdkState p ≠ pdkHandover ∧
      s.pdkState p ≠ pdkOffline)
    (hpaths : (∀ p < 16, bitsAt part (2 * p) 2 = 0) ∨
      (ports ≠ 0 ∧ ∀ q < 12, hasBit ports q = true → (s.usablePaths peer).any (fun x => x.1 == q && !x.2) = true))
    (hgo : s.goes h opMirrorSet 0) : ∃ v : State, v.regs = (s.start h opMirrorSet (some (.mirrorSet h peer ports part fence))).regs ∧
      v.mem = s.mem ∧ v.sched = s.sched ∧ v.net.mirrorPorts = ports ∧
      execMirrorSet h peer ports part fence s = .next ((v.setMirrors peer part fence).complete h 0) := by
  unfold execMirrorSet
  extract_lets part' named bad pathOk breaks
  have hmem : ∀ p ∈ named, p < 16 ∧ bitsAt part (2 * p) 2 ≠ 0 := fun p hp => by simpa [named, part'] using hp
  have hbad : bad = false := by
    have hthree : named.any (fun p => part' p == 3) = false := List.any_eq_false.2 fun p hp => by
      simpa using hparts p (hmem p hp).1
    simp only [bad, hthree, Nat.not_lt.2 hpeer, Nat.not_le.2 hports, Nat.not_le.2 hpart, Nat.not_le.2 hfence, decide_false, Bool.or_false,
      Bool.false_or]
    exact beq_eq_false_iff_ne.2 hother
  have hlocked : named.any (fun p => s.tdiLocked p) = false := List.any_eq_false.2 fun p hp => by
    simp [(hnamed p (hmem p hp).1 (hmem p hp).2).1]
  have hbreaks : breaks = false := by
    obtain hnone | ⟨hsome, husable⟩ := hpaths
    · have hnil : named = [] := List.filter_eq_nil_iff.2 fun p hp => by simpa [part'] using hnone p (List.mem_range.1 hp)
      simp only [breaks, hnil]
      rfl
    · have hport : (List.range 12).any (fun q => hasBit ports q && !pathOk q) = false := List.any_eq_false.2 fun q hq => by
        by_cases hbit : hasBit ports q = true
        · simpa [hbit, pathOk] using husable q (List.mem_range.1 hq) hbit
        · simp [hbit]
      have hstate : named.any (fun p => s.pdkState p == pdkFree || s.pdkState p == pdkHandover || s.pdkState p == pdkOffline) = false :=
        List.any_eq_false.2 fun p hp => by
          obtain ⟨_, hfree, hhand, hoff⟩ := hnamed p (hmem p hp).1 (hmem p hp).2
          simp [hfree, hhand, hoff]
      simp only [breaks, hport, hstate, beq_eq_false_iff_ne.2 hsome, Bool.or_false, Bool.and_false]
  have hstatus : firstStatus [failIf bad 0x2C0, failIf (named.any (fun p => s.tdiLocked p)) 0x720, failIf breaks 0x3A1] = 0 := by
    rw [hbad, hlocked, hbreaks]
    rfl
  refine ⟨{ s.start h opMirrorSet (some (.mirrorSet h peer ports part fence)) with
    net := { (s.start h opMirrorSet (some (.mirrorSet h peer ports part fence))).net with mirrorPorts := ports } }, rfl,
    State.start_mem .., State.start_sched .., rfl, ?_⟩
  exact congrArg Host.Outcome.next (State.checked_goes (State.goes_of_status hgo hstatus))

/-! ### Writes and beats -/

section Receive

variable {s t : State} {port : Fin 12} {m : Msg}

theorem execMirrorReceive_untaken (h : s.takeMsg (some port) m 8 = none) : execMirrorReceive port m s = .next s := by
  unfold execMirrorReceive
  rw [h]

/-- A write that comes while its paddock is in HANDOVER is discarded with 0x082B, one from another than the peer with 0x0823 (R586). -/
theorem execMirrorReceive_handover (h : s.takeMsg (some port) m 8 = some t) (hstate : t.pdkState m.dstPdk = pdkHandover) :
    execMirrorReceive port m s = .next (t.discardMsg m 0x82B) := by
  unfold execMirrorReceive
  rw [h]
  exact if_pos hstate

theorem execMirrorReceive_foreign (h : s.takeMsg (some port) m 8 = some t) (hstate : t.pdkState m.dstPdk ≠ pdkHandover)
    (hwrong : t.rd F.RTE_PCFG_PART m.dstPdk ≠ 2 ∨ t.rd F.RTE_PCFG_PEER_DEV m.dstPdk ≠ m.srcDev ∨ m.srcPdk ≠ m.dstPdk) :
    execMirrorReceive port m s = .next (t.discardMsg m 0x823) := by
  unfold execMirrorReceive
  rw [h]
  exact (if_neg hstate).trans (if_pos hwrong)

section Applied

variable (h : s.takeMsg (some port) m 8 = some t) (hstate : t.pdkState m.dstPdk ≠ pdkHandover) (hpart : t.rd F.RTE_PCFG_PART m.dstPdk = 2)
  (hpeer : t.rd F.RTE_PCFG_PEER_DEV m.dstPdk = m.srcDev) (hpdk : m.srcPdk = m.dstPdk)
include h hstate hpart hpeer hpdk

/-- A standby applies the write of its peer under its own keys and acknowledges it. -/
theorem execMirrorReceive_hbm (hflag : hasBit m.flags 0 = false) : execMirrorReceive port m s =
    .next (((t.ucharge m.dstPdk 16).hbmWrite m.dstPdk m.target m.data).ackMsg m 0) := by
  have hright : ¬ (t.rd F.RTE_PCFG_PART m.dstPdk ≠ 2 ∨ t.rd F.RTE_PCFG_PEER_DEV m.dstPdk ≠ m.srcDev ∨ m.srcPdk ≠ m.dstPdk) := by
    simp [hpart, hpeer, hpdk]
  unfold execMirrorReceive
  rw [h]
  refine (if_neg hstate).trans ((if_neg hright).trans ?_)
  dsimp only
  rw [if_neg (ne_true_of_eq_false hflag)]

theorem execMirrorReceive_far {q fpa : Nat} (hflag : hasBit m.flags 0 = true)
    (hmap : (t.ucharge m.dstPdk 16).farMap m.dstPdk m.target = some (q, fpa)) : execMirrorReceive port m s =
    .next (((t.ucharge m.dstPdk 16).farWrite m.dstPdk (farAddr q fpa) m.data).ackMsg m 0) := by
  have hright : ¬ (t.rd F.RTE_PCFG_PART m.dstPdk ≠ 2 ∨ t.rd F.RTE_PCFG_PEER_DEV m.dstPdk ≠ m.srcDev ∨ m.srcPdk ≠ m.dstPdk) := by
    simp [hpart, hpeer, hpdk]
  unfold execMirrorReceive
  rw [h]
  refine (if_neg hstate).trans ((if_neg hright).trans ?_)
  dsimp only
  rw [if_pos hflag, hmap]

end Applied

/-- A beat of the peer notes its time on a standby, and does nothing else (R586). -/
theorem execMirrorBeatReceive_taken (h : s.takeMsg (some port) m 9 = some t) : execMirrorBeatReceive port m s =
    if t.rd F.RTE_PCFG_PART m.dstPdk = 2 ∧ t.rd F.RTE_PCFG_PEER_DEV m.dstPdk = m.srcDev then
      .next { t with net := { t.net with beatAt := tset 0 t.net.beatAt [m.dstPdk] t.now } }
    else .next t := by
  unfold execMirrorBeatReceive
  rw [h]

end Receive

/-! ### Beats sent, failing over and breaking -/

section Pair

variable {s : State} {p : Fin 16}

/-- A primary with a usable designated port sends a beat (R586). -/
theorem execMirrorBeatSend_sends {q : Nat} (hpart : s.rd F.RTE_PCFG_PART p.val = 1) (hport : s.mirrorPort = some q) :
    execMirrorBeatSend p s = .next (s.post (some q) p.val 1 none (s.mkMsg p.val 9 (s.rd F.RTE_PCFG_PEER_DEV p.val) p.val 0 0 0 0
      (tget 0 s.net.mirrorSent [p.val]) [])) := by
  unfold execMirrorBeatSend
  rw [if_neg (not_not_intro hpart), hport]

/-- A standby that has lost its peer has no part any longer, and says so (R587). -/
theorem execMirrorFailover_fails (hpart : s.rd F.RTE_PCFG_PART p.val = 2)
    (hlost : s.mirrorPort = none ∨ tget 0 s.net.beatAt [p.val] + 5000000 ≤ s.now) : execMirrorFailover p s =
    .next ((s.wr F.RTE_PCFG_PART p.val 0).eventBoth p.val 0x48 0 (detailAt 0x10 (s.rd F.RTE_PCFG_PEER_DEV p.val))) :=
  if_pos ⟨hpart, hlost.imp_left Option.isNone_iff_eq_none.2⟩

theorem State.failover_part (s : State) (p d : Nat) : ((s.wr F.RTE_PCFG_PART p 0).eventBoth p 0x48 0 d).rd F.RTE_PCFG_PART p = 0 :=
  (((SameFlds.refl (ks := [F.RTE_PCFG_PART]) (s.wr F.RTE_PCFG_PART p 0)).eventBoth) _ (List.mem_singleton_self _) ..).trans State.rd_wr_self

/-- A standby that hears its peer stays (R587). -/
theorem execMirrorFailover_stays (hport : s.mirrorPort ≠ none) (hbeat : s.now < tget 0 s.net.beatAt [p.val] + 5000000) :
    execMirrorFailover p s = .next s := by
  refine if_neg fun hfail => ?_
  obtain ⟨_, hnone | hlate⟩ := hfail
  · exact hport (Option.isNone_iff_eq_none.1 hnone)
  · omega

/-- A primary that loses its standby waits for no acknowledgement any longer, and has fenced itself if it is told to (R588). -/
theorem execMirrorBroken_breaks (hpart : s.rd F.RTE_PCFG_PART p.val = 1) (hlost : s.mirrorPort = none ∨ s.mirrorWaits p.val = true) {u v : State}
    (hu : u = (if s.rd F.RTE_PCFG_FENCE_ON_BREAK p.val = 1 then ((s.abortScope1 p.val).1).quiesce p.val else s))
    (hv : v = (u.net.mirror.filter (fun x => x.1 == p.val)).foldl (fun s x => s.mirrorAcked x.1 x.2) u) : execMirrorBroken p s =
    .next ((v.wr F.RTE_PCFG_PART p.val 0).eventBoth p.val 0x49 0 (detailAt 0x10 (v.rd F.RTE_PCFG_PEER_DEV p.val))) := by
  subst hv hu
  exact if_pos ⟨hpart, hlost.imp_left Option.isNone_iff_eq_none.2⟩

end Pair

/-- Settles O47: MIRROR_SET by the loop's one round for each paddock (`State.rd_setMirrors`), the rest by the branch that its case takes. -/
theorem mirrorPairs : Obligations.MirrorPairs := by
  unfold Obligations.MirrorPairs
  refine fun s => ⟨fun h peer ports part fence hpeer hother hports hpart hfence hparts hnamed hpaths hgo => ?_,
    fun port m => ⟨execMirrorReceive_untaken, fun t ht => ⟨execMirrorReceive_handover ht, execMirrorReceive_foreign ht, fun hstate hpart hpeer hpdk =>
      ⟨execMirrorReceive_hbm ht hstate hpart hpeer hpdk, fun q fpa => execMirrorReceive_far ht hstate hpart hpeer hpdk⟩⟩,
      fun t ht hpart hpeer => ?_, fun t ht hpart => ?_⟩,
    fun p => ⟨fun hpart => ⟨if_pos hpart, if_neg fun hboth => hpart hboth.1⟩, fun hpart => if_neg fun hboth => hpart hboth.1,
      fun q hpart hport => ⟨_, _, execMirrorBeatSend_sends hpart hport, rfl, rfl, rfl, rfl, rfl, rfl, rfl⟩,
      fun hpart hlost => ⟨_, execMirrorFailover_fails hpart hlost, rfl, State.failover_part .., State.eventBoth_mem ..⟩,
      execMirrorFailover_stays, fun hpart hlost u hu => ⟨_, execMirrorBroken_breaks hpart hlost hu rfl, rfl⟩⟩⟩
  · obtain ⟨v, hregs, hmem, hsched, hnet, hrun⟩ := execMirrorSet_sets hpeer hother hports hpart hfence hparts hnamed hpaths hgo
    obtain ⟨hmem', hsched', hnet'⟩ := v.setMirrors_beside peer part fence
    have hkept : SameFlds [F.RTE_PCFG_PEER_DEV] s v := ((SameFlds.refl s).start).beside hregs
    refine ⟨_, hrun, hmem'.trans hmem, hsched'.trans hsched, hnet'.trans hnet, fun p hp => ?_⟩
    obtain ⟨hp1, hp2, hp3⟩ := State.rd_setMirrors (s := v) (part := part) (fence := fence) hpeer hp
    exact ⟨hp1, hp2, fun hsome => hp3.trans (if_neg hsome),
      fun hnone => hp3.trans ((if_pos hnone).trans (hkept _ (List.mem_singleton_self _) ..))⟩
  · exact ⟨_, (execMirrorBeatReceive_taken ht).trans (if_pos ⟨hpart, hpeer⟩), tget_tset_self .., rfl, rfl⟩
  · exact (execMirrorBeatReceive_taken ht).trans (if_neg fun hboth => hpart hboth.1)

end Sys2Proof.Machine
end

section
/-! PROOFS. SPDM requests, sessions and reports (R598 to R604). -/

-- Proofs side by side each take a thread with its stack: together they pass the bound on memory.
set_option Elab.async false

namespace Sys2Proof.Machine

/-! ### Answers -/

section Answer

variable {s : State} {c : Chan}

theorem State.answer_out (s : State) (c : Chan) (name : String) (fields : List Nat) (data : List Byte) :
    (s.answer c name fields data).out = s.out ++ [.reply c.transport.val name fields data] := rfl

/-- A request inside a session is not answered while the root of trust is down. -/
theorem State.inSession_down {go : State → State} (h : s.rotUp c.transport.val = false) : s.inSession c go = s := if_pos h

/-- A request that binds its session to a function is refused where it cannot be bound (R604). -/
theorem State.bound_refused {n : Nat} {go : State → State} (h : s.heard c) (hb : s.bindTo c n = none) : s.bound c n go = s.refuse c := by
  unfold State.bound
  rw [State.inSession_heard h, hb]

/-! ### SPDM requests -/

variable (hup : s.rotUp c.transport.val = true)
include hup

theorem execSpdmRequest_version {r : List Byte} (hcode : fieldAt r 1 1 ≠ 0x84) (h12 : fieldAt r 0 1 ≠ 0x12) (h13 : fieldAt r 0 1 ≠ 0x13) :
    execSpdmRequest c r s = .next (s.answer c "ERROR VersionMismatch" [] []) :=
  (if_neg (ne_false_of_eq_true hup)).trans (if_pos ⟨hcode, h12, h13⟩)

/-- A request of a version that is spoken is answered, with an error where its option is not offered (R602). -/
theorem execSpdmRequest_spoken {r : List Byte} (hversion : fieldAt r 1 1 = 0x84 ∨ fieldAt r 0 1 = 0x12 ∨ fieldAt r 0 1 = 0x13) :
    execSpdmRequest c r s = if spdmUnsupported.contains (fieldAt r 1 1) then .next (s.answer c "ERROR UnsupportedRequest" [fieldAt r 1 1] [])
      else .next ((s.answer c "SPDM_RESPONSE" [fieldAt r 1 1] (Config.digest useAnswer (leBytes s.free 8 ++ r))).tick) :=
  (if_neg (ne_false_of_eq_true hup)).trans (if_neg fun hbad => by
    obtain ⟨hcode, h12, h13⟩ := hbad
    rcases hversion with h | h | h
    · exact hcode h
    · exact h12 h
    · exact h13 h)

theorem execGetMeasurements_sends (nonce : List Byte) : execGetMeasurements c nonce s = .next (s.answer c "MEASUREMENTS" [7]
    (s.deviceEntries.flatMap spdmBlock ++
      fitBytes 96 (Config.digest useBlocks (s.signKey ++ fitBytes 32 nonce ++ s.deviceEntries.flatMap spdmBlock)))) :=
  if_neg (ne_false_of_eq_true hup)

end Answer

theorem fitBytes_length (n : Nat) (l : List Byte) : (fitBytes n l).length = n := by
  unfold fitBytes
  simp

/-! ### Sessions -/

section Sessions

variable {s : State} {tr slot : Nat}

theorem State.closeSession_none (h : s.sessionOf tr slot = none) : s.closeSession tr slot = s := by
  unfold State.closeSession
  rw [h]

/-- A session that is bound to no function ends: its slot is free and the end is counted (R603). -/
theorem State.closeSession_unbound (h : s.sessionOf tr slot = some ⟨none⟩) :
    s.closeSession tr slot = ((s.setSession tr slot none).bump F.RTP_SESS_END_COUNT 0).syncSessions := by
  unfold State.closeSession
  rw [h]

/-- The fields that a session's count shows in leave a counter as it has counted. -/
theorem State.sessionCounted {f : Fld} (hw : f.width = 48) (hid : 0 < f.id) (hf : f.id ≠ F.RTP_DEV_SESSIONS.id) (x : Option Sess) :
    ((s.setSession tr slot x).bump f 0).syncSessions.rd f 0 = min (s.rd f 0 + 1) maxCount :=
  (State.rd_wr_fld hf).trans (State.rd_bump_self hw hid)

theorem State.sessionStored (f : Fld) (x : Option Sess) : ((s.setSession tr slot x).bump f 0).syncSessions.sessionOf tr slot = x := by
  have htrust : ((s.setSession tr slot x).bump f 0).syncSessions.trust = (s.setSession tr slot x).trust :=
    (State.wr_trust ..).trans (State.bump_trust ..)
  unfold State.sessionOf
  rw [htrust]
  exact tget_tset_self (d := none) (v := x)

theorem State.sessionStored_mem (f : Fld) (x : Option Sess) : ((s.setSession tr slot x).bump f 0).syncSessions.mem = s.mem :=
  (State.wr_mem ..).trans (State.bump_mem ..)

end Sessions

section Exchange

variable {s : State} {tr : Fin 3} {port : Fin 12} (hlink : tr.val ≠ 2) (hup : s.rotUp tr.val = true)
include hlink hup

/-- The slots that KEY_EXCHANGE looks at: 18 of DOE, 2 out of band (R603). -/
theorem keyExchangeSlots : ¬ (s.rotUp tr.val = false ∨ (tr.val = 2 ∧ s.flitsOn port.val = false)) ∧
    (if tr.val = 2 then [port.val] else List.range (sessionSlots tr.val)) = List.range (if tr.val = 0 then 18 else 2) := by
  refine ⟨by simp [hup, hlink], ?_⟩
  rw [if_neg hlink]
  unfold sessionSlots
  split_ifs with h0 h1
  · rfl
  · rfl
  · omega

/-- It takes the first free one, and answers Busy when there is none. -/
theorem execKeyExchange_opens {k : Nat}
    (hk : (List.range (if tr.val = 0 then 18 else 2)).find? (fun k => (s.sessionOf tr.val k).isNone) = some k) :
    execKeyExchange tr port s = .next ((s.openSession tr.val k).emit (.reply tr.val "KEY_EXCHANGE_RSP" [k] [])) := by
  obtain ⟨hserved, hslots⟩ := keyExchangeSlots (port := port) hlink hup
  unfold execKeyExchange
  dsimp only
  rw [if_neg hserved, hslots, hk]

theorem execKeyExchange_busy (hfull : ∀ k < (if tr.val = 0 then 18 else 2), s.sessionOf tr.val k ≠ none) :
    execKeyExchange tr port s = .next (s.emit (.reply tr.val "ERROR Busy" [] [])) := by
  obtain ⟨hserved, hslots⟩ := keyExchangeSlots (port := port) hlink hup
  have hnone : (List.range (if tr.val = 0 then 18 else 2)).find? (fun k => (s.sessionOf tr.val k).isNone) = none :=
    List.find?_eq_none.2 fun k hk => by simpa using hfull k (List.mem_range.1 hk)
  unfold execKeyExchange
  dsimp only
  rw [if_neg hserved, hslots, hnone]

end Exchange

theorem State.openSession_out (s : State) (tr k : Nat) : (s.openSession tr k).out = s.out :=
  (State.wr_out ..).trans (State.bump_out ..)

/-! ### Reports -/

section Report

variable {s : State} {c : Chan} {scope : Nat} {nonce : List Byte} (h : s.heard c)
include h

/-- The report of the device, for a session that no VF holds: with the paddocks for PF 0 and out of band (R599, R604). -/
theorem execGetReport_bound {n : Nat} (hb : s.boundOf c = some (n + 1)) : execGetReport c 0xFF nonce s = .next (s.refuse c) := by
  refine congrArg Host.Outcome.next ((State.inSession_heard h).trans ((if_pos rfl).trans ?_))
  rw [hb]

theorem execGetReport_all (hb : s.boundOf c = some 0 ∨ (s.boundOf c = none ∧ c.transport.val = 1)) : execGetReport c 0xFF nonce s =
    .next (s.sendReport c 0xFF false nonce (s.deviceEntries ++ (List.range 16).map (fun p => (16 + p, true, s.paddockEntry p)))) := by
  refine congrArg Host.Outcome.next ((State.inSession_heard h).trans ((if_pos rfl).trans ?_))
  obtain hb | ⟨hb, htr⟩ := hb
  · rw [hb]
    rfl
  · rw [hb]
    simp [htr]

theorem execGetReport_device (hb : s.boundOf c = none) (htr : c.transport.val ≠ 1) : execGetReport c 0xFF nonce s =
    .next (s.sendReport c 0xFF false nonce s.deviceEntries) := by
  refine congrArg Host.Outcome.next ((State.inSession_heard h).trans ((if_pos rfl).trans ?_))
  rw [hb]
  simp [htr]

/-- A scope that names nothing is refused. -/
theorem execGetReport_noScope (hdev : scope ≠ 0xFF) (hbad : scope = 0 ∨ 16 < scope) : execGetReport c scope nonce s = .next (s.refuse c) :=
  congrArg Host.Outcome.next ((State.inSession_heard h).trans ((if_neg hdev).trans (if_neg (by omega))))

variable (hlo : 1 ≤ scope) (hhi : scope ≤ 16)
include hlo hhi

/-- The report of a VF's TDI (R600, R604). -/
theorem execGetReport_tdi : execGetReport c scope nonce s = .next (if s.notReady scope then s.answerNotReady c scope
    else if c.transport.val ≠ 0 then
      s.sendReport c scope true nonce (s.deviceEntries ++ [(15 + scope, true, s.paddockEntry (pdkOf scope))])
    else match s.bindTo c scope with
      | some t => t.sendReport c scope true nonce (t.deviceEntries ++ [(15 + scope, true, t.paddockEntry (pdkOf scope))])
      | none => s.refuse c) :=
  congrArg Host.Outcome.next ((State.inSession_heard h).trans ((if_neg (by omega)).trans (if_pos ⟨hlo, hhi⟩)))

theorem execGetReport_notReady (hnot : s.notReady scope = true) : execGetReport c scope nonce s = .next (s.answerNotReady c scope) := by
  rw [execGetReport_tdi h hlo hhi, if_pos hnot]

variable (hready : s.notReady scope = false)
include hready

theorem execGetReport_sends {t : State} (ht : (c.transport.val ≠ 0 ∧ t = s) ∨ (c.transport.val = 0 ∧ s.bindTo c scope = some t)) :
    execGetReport c scope nonce s =
      .next (t.sendReport c scope true nonce (t.deviceEntries ++ [(15 + scope, true, t.paddockEntry (pdkOf scope))])) := by
  rw [execGetReport_tdi h hlo hhi, if_neg (ne_true_of_eq_false hready)]
  obtain ⟨htr, rfl⟩ | ⟨htr, hbind⟩ := ht
  · rw [if_pos htr]
  · rw [if_neg (not_not_intro htr), hbind]

theorem execGetReport_unbound (htr : c.transport.val = 0) (hbind : s.bindTo c scope = none) :
    execGetReport c scope nonce s = .next (s.refuse c) := by
  rw [execGetReport_tdi h hlo hhi, if_neg (ne_true_of_eq_false hready), if_neg (not_not_intro htr), hbind]

end Report

/-- Settles O48: requests by their answer, sessions by the slot that they take or free, reports by whom the session is bound to. -/
theorem sessionsAndReports : Obligations.SessionsAndReports := by
  unfold Obligations.SessionsAndReports
  refine fun s c => ⟨fun hdown => ⟨fun r => if_pos hdown, fun n => if_pos hdown,
      fun sc n => congrArg Host.Outcome.next (State.inSession_down hdown), congrArg Host.Outcome.next (State.inSession_down hdown)⟩,
    fun hup => ⟨fun r => execSpdmRequest_version hup, fun r hversion => ⟨fun hbad => ?_, fun hgood => ?_⟩,
      fun nonce => ⟨_, _, execGetMeasurements_sends hup nonce, fitBytes_length .., rfl, rfl, rfl⟩⟩,
    fun hno => congrArg Host.Outcome.next (State.closeSession_none (Option.isSome_eq_false_iff.1 hno |> Option.isNone_iff_eq_none.1)),
    fun hyes => ⟨_, rfl, rfl, fun hfree => ?_⟩, fun tr port hlink hup => ⟨fun k hk => ?_, execKeyExchange_busy hlink hup⟩,
    fun h => ⟨congrArg Host.Outcome.next (State.inSession_heard h), fun nonce => ⟨fun n => execGetReport_bound h, execGetReport_all h,
      execGetReport_device h⟩, fun scope nonce => execGetReport_noScope h, fun scope nonce hlo hhi => ⟨execGetReport_notReady h hlo hhi,
      fun hready t => execGetReport_sends h hlo hhi hready, execGetReport_unbound h hlo hhi⟩⟩,
    fun scope tdi nonce es => ⟨State.rd_bump_self rfl (by decide), State.bump_mem ..⟩⟩
  · exact (execSpdmRequest_spoken hup hversion).trans (if_pos (List.contains_iff_mem.2 hbad))
  · exact ⟨_, _, (execSpdmRequest_spoken hup hversion).trans (if_neg (by simpa using hgood)), rfl, rfl, rfl, rfl⟩
  · obtain ⟨x, hx⟩ := Option.isSome_iff_exists.1 hyes
    obtain ⟨b⟩ := x
    have hb : b = none := by simpa [State.boundOf, hx] using hfree
    subst hb
    rw [State.closeSession_unbound hx]
    refine ⟨?_, State.sessionCounted rfl (by decide) (by decide) none, State.sessionStored_mem ..⟩
    unfold State.established
    rw [State.sessionStored]
    rfl
  · exact ⟨_, execKeyExchange_opens hlink hup hk, State.sessionStored .., State.sessionCounted rfl (by decide) (by decide) (some ⟨none⟩),
      congrArg (· ++ [_]) (State.openSession_out ..), State.sessionStored_mem ..⟩

end Sys2Proof.Machine
end

section
/-! PROOFS. IDE keys (R604, R605), the TDI's entry into ERROR (R611), and the requests of TDISP (R606 to R613). -/

-- Proofs side by side each take a thread with its stack: together they pass the bound on memory.
set_option Elab.async false

namespace Sys2Proof.Machine

/-! ### The TDI's entry into ERROR -/

section TdiError

variable {s : State} {n cause : Nat}

/-- A TDI that is not locked takes no notice of an error. -/
theorem State.tdiError_unlocked (h1 : s.tdiState n ≠ 1) (h2 : s.tdiState n ≠ 2) : s.tdiError n cause = s :=
  if_neg (not_or_intro h1 h2)

/-- One that is locked or runs goes to ERROR with the cause (R611). -/
theorem State.tdiError_locked (h : s.tdiState n = 1 ∨ s.tdiState n = 2) (hcause : cause < 16) :
    (s.tdiError n cause).tdiState n = 3 ∧ (s.tdiError n cause).rd F.RTP_TDI_CAUSE_CAUSE n = cause := by
  unfold State.tdiError
  extract_lets st a b c p d
  rw [if_pos (show st = 1 ∨ st = 2 from h)]
  have hframe : BaseFrame [F.RTP_TDI_STATE_STATE, F.RTP_TDI_CAUSE_CAUSE] b (d.eventBoth p 0x50 0 (detailAt 0x10 cause)) := by
    have hc : BaseFrame [F.RTP_TDI_STATE_STATE, F.RTP_TDI_CAUSE_CAUSE] b c := (BaseFrame.refl b).bump
    exact (((hc.abortScope1 _ _ _).quiesce _).ite hc).eventBoth
  constructor
  · refine (hframe.rd (by simp) ..).trans ?_
    rw [State.rd_wr_fld (by decide), State.rd_wr_self]
    rfl
  · refine (hframe.rd (by simp) ..).trans ?_
    rw [State.rd_wr_self]
    exact Nat.mod_eq_of_lt (lt_of_lt_of_le hcause (by decide))

end TdiError

/-! ### IDE keys -/

/-- The registers that show a stream (R605). -/
def ideFlds : List Fld := [F.HIF_LINK_LINK_IDE, F.RTP_TDI_IDE_RX_SECURE, F.RTP_TDI_IDE_TX_SECURE, F.RTP_TDI_IDE_KEYSET_RX, F.RTP_TDI_IDE_KEYSET_TX]

theorem State.showIde_onlyRegs (s : State) (index : Nat) : OnlyRegs s (s.showIde index) ideFlds := by
  unfold State.showIde
  split_ifs
  · exact onlyRegs_wr onlyRegs_refl (by simp [ideFlds])
  · exact onlyRegs_refl
  · exact onlyRegs_wr (onlyRegs_wr (onlyRegs_wr (onlyRegs_wr onlyRegs_refl (by simp [ideFlds])) (by simp [ideFlds])) (by simp [ideFlds]))
      (by simp [ideFlds])

/-- A key is stored in a set, or taken from it. -/
def State.putKey (s : State) (k : Key) (key : Option (List Byte)) : State :=
  { s with trust := { s.trust with ideKeys := tset none s.trust.ideKeys k key } }

theorem State.putKey_elsewhere {s : State} {k k' : Key} {key : Option (List Byte)} (hk : k' ≠ k) :
    tget none (s.putKey k key).trust.ideKeys k' = tget none s.trust.ideKeys k' := tget_tset_ne hk

/-- A sub-stream uses a key set from now on. -/
def State.useSet (s : State) (index sub dir set : Nat) : State :=
  { s with trust := { s.trust with ideSet := tset 0 s.trust.ideSet [index, sub, dir] (set + 1) } }

/-- A stream has lost its keys and uses none. -/
def State.dropStream (s : State) (index : Nat) : State :=
  { s with trust := { s.trust with
    ideKeys := tclear (fun k => k.head? == some index) s.trust.ideKeys
    ideSet := tclear (fun k => k.head? == some index) s.trust.ideSet } }

section Ide

variable {s t : State} {c : Chan} {index : Fin 18} {sub : Fin 3} {dir set : Fin 2} (h : s.heard c)
  (hb : s.bindTo c (ideFn index.val) = some t)
include h hb

/-- A key that is in use is not written over (R605). -/
theorem execKeyProg_inUse {key : List Byte} (huse : t.ideUse index.val sub.val dir.val = set.val + 1) :
    execKeyProg c index sub dir set key s = .next (t.answer c "KP_ACK" [index.val, 4] []) :=
  congrArg Host.Outcome.next ((State.bound_heard h hb).trans (if_pos huse))

theorem execKeyProg_stores {key : List Byte} (huse : t.ideUse index.val sub.val dir.val ≠ set.val + 1) :
    execKeyProg c index sub dir set key s =
      .next ((t.putKey (ideKey index.val sub.val dir.val set.val) (some key)).answer c "KP_ACK" [index.val, 0] []) :=
  congrArg Host.Outcome.next ((State.bound_heard h hb).trans (if_neg huse))

/-- A set in use is not retired (log entry 40). -/
theorem execKSetStop_inUse (huse : t.ideUse index.val sub.val dir.val = set.val + 1) :
    execKSetStop c index sub dir set s = .next (t.answer c "K_GOSTOP_ACK" [index.val, 4] []) :=
  congrArg Host.Outcome.next ((State.bound_heard h hb).trans (if_pos huse))

theorem execKSetStop_retires (huse : t.ideUse index.val sub.val dir.val ≠ set.val + 1) :
    execKSetStop c index sub dir set s =
      .next ((t.putKey (ideKey index.val sub.val dir.val set.val) none).answer c "K_GOSTOP_ACK" [index.val, 0] []) :=
  congrArg Host.Outcome.next ((State.bound_heard h hb).trans (if_neg huse))

/-- A set that holds no key is not put into use (log entry 40). -/
theorem execKSetGo_empty (hkey : tget none t.trust.ideKeys (ideKey index.val sub.val dir.val set.val) = none) :
    execKSetGo c index sub dir set s = .next (t.answer c "K_GOSTOP_ACK" [index.val, 4] []) :=
  congrArg Host.Outcome.next ((State.bound_heard h hb).trans (if_pos (Option.isNone_iff_eq_none.2 hkey)))

theorem execKSetGo_uses (hkey : tget none t.trust.ideKeys (ideKey index.val sub.val dir.val set.val) ≠ none) :
    execKSetGo c index sub dir set s =
      .next (((t.useSet index.val sub.val dir.val set.val).showIde index.val).answer c "K_GOSTOP_ACK" [index.val, 0] []) :=
  congrArg Host.Outcome.next ((State.bound_heard h hb).trans (if_neg fun hno => hkey (Option.isNone_iff_eq_none.1 hno)))

end Ide

theorem State.useSet_ideUse (s : State) (c : Chan) (index sub dir set : Nat) (name : String) (fields : List Nat) :
    (((s.useSet index sub dir set).showIde index).answer c name fields []).ideUse index sub dir = set + 1 := by
  change ((s.useSet index sub dir set).showIde index).ideUse index sub dir = _
  unfold State.ideUse
  rw [(State.showIde_onlyRegs _ _).1]
  exact tget_tset_self (d := 0) (v := set + 1)

/-- A stream without keys in use is not secure. -/
theorem State.dropStream_insecure (s : State) (index d : Nat) : (s.dropStream index).ideSecure index d = false := by
  have huse : (s.dropStream index).ideUse index 0 d = 0 := by
    unfold State.ideUse State.dropStream
    rw [tget_tclear, if_pos (by simp)]
  refine List.all_eq_false.2 ⟨0, by simp, ?_⟩
  rw [huse]
  decide

section Fail

variable {s : State} {fn : Fin 17}

/-- A stream that is secure loses its keys, counts one failure for its VF and brings its TDI to ERROR (R605, R611). -/
theorem execIdeIntegrityFail_secure (hsec : s.ideSecure (fn.val + 1) 0 = true ∨ s.ideSecure (fn.val + 1) 1 = true) :
    execIdeIntegrityFail fn s = .next (if fn.val = 0 then (s.dropStream (fn.val + 1)).showIde (fn.val + 1)
      else (((s.dropStream (fn.val + 1)).showIde (fn.val + 1)).bump F.RTP_IDE_FAIL_COUNT fn.val).tdiError fn.val 5) := by
  refine if_neg fun hboth => ?_
  obtain ⟨h0, h1⟩ := hboth
  simp [h0, h1] at hsec

/-- The end of a VF's stream: one more failure, and its TDI in ERROR where it was locked. -/
theorem State.streamLost {n : Nat} {u : State} (hu : u = (s.dropStream (n + 1)).showIde (n + 1)) :
    (∀ d, ((u.bump F.RTP_IDE_FAIL_COUNT n).tdiError n 5).ideSecure (n + 1) d = false) ∧
    ((u.bump F.RTP_IDE_FAIL_COUNT n).tdiError n 5).rd F.RTP_IDE_FAIL_COUNT n = min (s.rd F.RTP_IDE_FAIL_COUNT n + 1) maxCount ∧
    ((s.tdiState n = 1 ∨ s.tdiState n = 2) → ((u.bump F.RTP_IDE_FAIL_COUNT n).tdiError n 5).tdiState n = 3 ∧
      ((u.bump F.RTP_IDE_FAIL_COUNT n).tdiError n 5).rd F.RTP_TDI_CAUSE_CAUSE n = 5) ∧
    (s.tdiState n ≠ 1 → s.tdiState n ≠ 2 → ((u.bump F.RTP_IDE_FAIL_COUNT n).tdiError n 5).mem = s.mem ∧
      ((u.bump F.RTP_IDE_FAIL_COUNT n).tdiError n 5).out = s.out ∧ ((u.bump F.RTP_IDE_FAIL_COUNT n).tdiError n 5).tdiState n = s.tdiState n) := by
  have hshow := State.showIde_onlyRegs (s.dropStream (n + 1)) (n + 1)
  rw [← hu] at hshow
  have hkeep : SameFlds [F.RTP_IDE_FAIL_COUNT, F.RTP_TDI_STATE_STATE] s u := 
    ((SameFlds.refl s).beside (t := s.dropStream (n + 1)) rfl).onlyRegs hshow
  have htdi : (u.bump F.RTP_IDE_FAIL_COUNT n).tdiState n = s.tdiState n :=
    (State.rd_bump_fld (by decide) (by decide)).trans (hkeep _ (by simp) ..)
  have herror : BaseFrame [F.RTP_IDE_FAIL_COUNT] (u.bump F.RTP_IDE_FAIL_COUNT n) ((u.bump F.RTP_IDE_FAIL_COUNT n).tdiError n 5) :=
    (BaseFrame.refl _).tdiError n 5
  have htrust : ((u.bump F.RTP_IDE_FAIL_COUNT n).tdiError n 5).trust = (s.dropStream (n + 1)).trust := by
    rw [herror.trust, State.bump_trust, hshow.1]
  refine ⟨fun d => ?_, ?_, fun hlock => ?_, fun h1 h2 => ?_⟩
  · unfold State.ideSecure State.ideUse
    rw [htrust]
    exact State.dropStream_insecure s (n + 1) d
  · rw [herror.rd (by simp), State.rd_bump_self rfl (by decide), hkeep _ (by simp)]
  · exact State.tdiError_locked (by rwa [htdi]) (by decide)
  · rw [State.tdiError_unlocked (by rwa [htdi]) (by rwa [htdi])]
    exact ⟨by rw [State.bump_mem, hshow.1]; rfl, by rw [State.bump_out, hshow.1]; rfl, htdi⟩

end Fail

/-- Settles O49: the keys by what a set holds and which set is in use, the integrity failure by `State.streamLost`. -/
theorem ideKeys : Obligations.IdeKeys := by
  unfold Obligations.IdeKeys
  refine fun s c index sub dir set => ⟨fun h hb => ⟨fun key => congrArg Host.Outcome.next (State.bound_refused h hb),
      congrArg Host.Outcome.next (State.bound_refused h hb), congrArg Host.Outcome.next (State.bound_refused h hb)⟩,
    fun t h hb => ⟨fun huse => ⟨fun key => execKeyProg_inUse h hb huse, execKSetStop_inUse h hb huse⟩,
      fun huse => ⟨fun key => ⟨_, execKeyProg_stores h hb huse, tget_tset_self (d := none) (v := some key),
          fun k hk => State.putKey_elsewhere hk, rfl, rfl, rfl, rfl⟩,
        ⟨_, execKSetStop_retires h hb huse, tget_tset_self (d := none) (v := none), rfl, rfl, rfl, rfl⟩⟩,
      execKSetGo_empty h hb, fun hkey => ⟨_, execKSetGo_uses h hb hkey, State.useSet_ideUse .., ?_⟩⟩,
    fun fn => ⟨fun h0 h1 => if_pos ⟨h0, h1⟩, fun hsec => ?_⟩⟩
  · have hshow := State.showIde_onlyRegs (t.useSet index.val sub.val dir.val set.val) index.val
    refine ⟨?_, ?_, ?_⟩
    · change ((t.useSet index.val sub.val dir.val set.val).showIde index.val).trust.ideKeys = _
      rw [hshow.1]
      rfl
    · exact hshow.mem
    · exact congrArg (· ++ [_]) hshow.out
  · refine ⟨_, execIdeIntegrityFail_secure hsec, ?_⟩
    by_cases hfn : fn.val = 0
    · rw [if_pos hfn]
      refine ⟨fun d => ?_, fun hne => absurd hfn hne⟩
      unfold State.ideSecure State.ideUse
      rw [(State.showIde_onlyRegs _ _).1]
      exact State.dropStream_insecure s (fn.val + 1) d
    · rw [if_neg hfn]
      obtain ⟨hsecure, hcount, hlocked, hunlocked⟩ := State.streamLost (s := s) (n := fn.val) rfl
      exact ⟨hsecure, fun _ => ⟨hcount, hlocked, hunlocked⟩⟩

/-! ### TDISP -/

section Tdisp

variable {s t : State} {c : Chan} {n : Nat} {go : State → State} (h : s.heard c)
include h

/-- A TDISP request outside DOE is refused (R604). -/
theorem State.tdisp_outside (htr : c.transport.val ≠ 0) : s.tdisp c n go = s.refuse c :=
  (State.inSession_heard h).trans (if_pos htr)

variable (htr : c.transport.val = 0)
include htr

/-- It is answered not-ready while its paddock is in HANDOVER (R613). -/
theorem State.tdisp_notReady (hnot : s.notReady n = true) : s.tdisp c n go = s.answerNotReady c n :=
  (State.inSession_heard h).trans ((if_neg (not_not_intro htr)).trans (if_pos hnot))

variable (hready : s.notReady n = false)
include hready

/-- Otherwise it takes its effect over the session bound to its function, and is refused where that cannot be (R604). -/
theorem State.tdisp_bound (hb : s.bindTo c n = some t) : s.tdisp c n go = go t := by
  refine (State.inSession_heard h).trans ((if_neg (not_not_intro htr)).trans ((if_neg (ne_true_of_eq_false hready)).trans ?_))
  rw [hb]

theorem State.tdisp_unbound (hb : s.bindTo c n = none) : s.tdisp c n go = s.refuse c := by
  refine (State.inSession_heard h).trans ((if_neg (not_not_intro htr)).trans ((if_neg (ne_true_of_eq_false hready)).trans ?_))
  rw [hb]

end Tdisp

/-- The four requests of TDISP are requests for the paddock's VF (R606). -/
theorem tdispRequests {s : State} {c : Chan} {p : Fin 16} {cmd : Instr} (h : cmd ∈ [Instr.lockInterfaceRequest c p, .getDeviceInterfaceReport c p,
    .startInterfaceRequest c p [], .stopInterfaceRequest c p]) : ∃ go, exec cmd s = .next (s.tdisp c (vfOf p.val) go) := by
  simp only [List.mem_cons, List.not_mem_nil, or_false] at h
  obtain rfl | rfl | rfl | rfl := h
  · exact ⟨_, (rfl : _ = execLockInterfaceRequest c p s).trans (by unfold execLockInterfaceRequest; rfl)⟩
  · exact ⟨_, (rfl : _ = execGetDeviceInterfaceReport c p s).trans (by unfold execGetDeviceInterfaceReport; rfl)⟩
  · exact ⟨_, (rfl : _ = execStartInterfaceRequest c p [] s).trans (by unfold execStartInterfaceRequest; rfl)⟩
  · exact ⟨_, (rfl : _ = execStopInterfaceRequest c p s).trans (by unfold execStopInterfaceRequest; rfl)⟩

/-- A dump configuration that goes takes only its registers and itself. -/
theorem State.clearDumpCfg_beside (s : State) (p : Nat) : SameFlds [F.RTP_TDI_STATE_STATE, F.RTP_TDI_STATE_CFG_GEN] s (s.clearDumpCfg p) ∧
    (s.clearDumpCfg p).mem = s.mem ∧ (s.clearDumpCfg p).free = s.free ∧ (s.clearDumpCfg p).out = s.out := by
  unfold State.clearDumpCfg
  extract_lets a b
  have ha : SameFlds [F.RTP_TDI_STATE_STATE, F.RTP_TDI_STATE_CFG_GEN] s a := (SameFlds.refl s).beside rfl
  exact ⟨((ha.wr.wr).wr.wr).wr, rfl, rfl, rfl⟩

/-- The TDI of function `n` is locked: CONFIG_LOCKED, CFG_GEN 0, and a dump configuration of PF 0 gone (R607, R647). -/
def State.lockTdi (s : State) (n p : Nat) : State :=
  let s := (s.wr F.RTP_TDI_STATE_STATE n tdiConfigLocked).wr F.RTP_TDI_STATE_CFG_GEN n 0
  if (tget none s.dumpCfgs [p]).any (fun g => g.byPf) then s.clearDumpCfg p else s

theorem State.lockTdi_locks (s : State) (n p : Nat) : (s.lockTdi n p).tdiState n = 1 ∧ (s.lockTdi n p).rd F.RTP_TDI_STATE_CFG_GEN n = 0 ∧
    (s.lockTdi n p).mem = s.mem ∧ (s.lockTdi n p).free = s.free ∧ (s.lockTdi n p).out = s.out := by
  unfold State.lockTdi
  extract_lets a
  have ha : a.tdiState n = 1 ∧ a.rd F.RTP_TDI_STATE_CFG_GEN n = 0 :=
    ⟨(State.rd_wr_fld (by decide)).trans State.rd_wr_self, State.rd_wr_self⟩
  obtain ⟨hflds, hmem, hfree, hout⟩ := a.clearDumpCfg_beside p
  split
  · exact ⟨(hflds _ (by simp) ..).trans ha.1, (hflds _ (by simp) ..).trans ha.2, hmem, hfree, hout⟩
  · exact ⟨ha.1, ha.2, rfl, rfl, rfl⟩

/-- The nonce of a lock is kept for its START (R607, R610). -/
def State.putNonce (s : State) (n : Nat) (nonce : List Byte) : State :=
  { s with trust := { s.trust with nonces := tset [] s.trust.nonces [n] nonce } }

theorem State.putNonce_kept (s : State) (n : Nat) (nonce : List Byte) : tget [] (s.putNonce n nonce).trust.nonces [n] = nonce := tget_tset_self

/-- A TDI that runs has no register changed but its state. -/
theorem State.runTdi_rd (s : State) (n : Nat) (nonce : List Byte) : ((s.putNonce n nonce).wr F.RTP_TDI_STATE_STATE n tdiRun).tdiState n = 2 ∧
    ∀ (g : Fld) (i j : Nat), g.id ≠ F.RTP_TDI_STATE_STATE.id → ((s.putNonce n nonce).wr F.RTP_TDI_STATE_STATE n tdiRun).rd g i j = s.rd g i j :=
  ⟨State.rd_wr_self, fun _ _ _ hg => State.rd_wr_fld hg⟩

section Interface

variable {s t : State} {c : Chan} {p : Fin 16} (h : s.heard c) (htr : c.transport.val = 0) (hready : s.notReady (vfOf p.val) = false)
  (hb : s.bindTo c (vfOf p.val) = some t)
include h htr hready hb

/-- A TDI that cannot be locked answers an error (R607). -/
theorem execLockInterfaceRequest_refused (hlock : t.lockable (vfOf p.val) = false) :
    execLockInterfaceRequest c p s = .next (t.answer c "TDISP_ERROR" [vfOf p.val] []) :=
  congrArg Host.Outcome.next ((State.tdisp_bound h htr hready hb).trans (if_pos hlock))

theorem execLockInterfaceRequest_locks (hlock : t.lockable (vfOf p.val) = true) :
    execLockInterfaceRequest c p s = .next (((t.lockTdi (vfOf p.val) p.val).tick.putNonce (vfOf p.val)
      ((t.lockTdi (vfOf p.val) p.val).random 32).1).answer c "LOCK_INTERFACE_RESPONSE" [vfOf p.val] ((t.lockTdi (vfOf p.val) p.val).random 32).1) :=
  congrArg Host.Outcome.next ((State.tdisp_bound h htr hready hb).trans (if_neg (ne_false_of_eq_true hlock)))

/-- The interface report is sent in CONFIG_LOCKED and RUN only (R609; log entry 41). -/
theorem execGetDeviceInterfaceReport_answers : execGetDeviceInterfaceReport c p s = .next (if t.tdiLocked p.val = false then
      t.answer c "TDISP_ERROR" [vfOf p.val] []
    else t.answer c "DEVICE_INTERFACE_REPORT" [vfOf p.val, 1, (t.cfgOf (vfOf p.val)).bar0, 0x80000]
      ((List.range 64).flatMap (fun r => t.rankRecord p.val r))) :=
  congrArg Host.Outcome.next (State.tdisp_bound h htr hready hb)

/-- Only the nonce of the lock starts the TDI, and once (R610). -/
theorem execStartInterfaceRequest_refused {nonce : List Byte} (hbad : t.tdiState (vfOf p.val) ≠ 1 ∨ tget [] t.trust.nonces [vfOf p.val] ≠ nonce ∨
    nonce = []) : execStartInterfaceRequest c p nonce s = .next (t.answer c "TDISP_ERROR" [vfOf p.val] []) :=
  congrArg Host.Outcome.next ((State.tdisp_bound h htr hready hb).trans (if_pos hbad))

theorem execStartInterfaceRequest_starts {nonce : List Byte} (hlocked : t.tdiState (vfOf p.val) = 1)
    (hnonce : tget [] t.trust.nonces [vfOf p.val] = nonce) (hsome : nonce ≠ []) : execStartInterfaceRequest c p nonce s =
    .next (((t.putNonce (vfOf p.val) []).wr F.RTP_TDI_STATE_STATE (vfOf p.val) tdiRun).answer c "START_INTERFACE_RESPONSE" [vfOf p.val] []) := by
  refine congrArg Host.Outcome.next ((State.tdisp_bound h htr hready hb).trans (if_neg ?_))
  rintro (hst | hother | hnil)
  · exact hst hlocked
  · exact hother hnonce
  · exact hsome hnil

/-- A stop resets the function; it is answered at once where no handover runs (R612). -/
theorem execStopInterfaceRequest_stops {u : State} (hst : t.tdiState (vfOf p.val) ≠ 0)
    (hu : u = { t.vfFlr p.val with trust := { (t.vfFlr p.val).trust with stopping := tset false (t.vfFlr p.val).trust.stopping [vfOf p.val] true } }) :
    execStopInterfaceRequest c p s = .next (if u.notReady (vfOf p.val) then u else u.endStop p.val) := by
  subst hu
  exact congrArg Host.Outcome.next ((State.tdisp_bound h htr hready hb).trans (if_neg hst))

theorem execStopInterfaceRequest_unlocked (hst : t.tdiState (vfOf p.val) = 0) :
    execStopInterfaceRequest c p s = .next (t.answer c "TDISP_ERROR" [vfOf p.val] []) :=
  congrArg Host.Outcome.next ((State.tdisp_bound h htr hready hb).trans (if_pos hst))

end Interface

/-- Settles O50: the frame of TDISP by transport, handover and session, then each request by its own branch. -/
theorem tenantInterfaces : Obligations.TenantInterfaces := by
  unfold Obligations.TenantInterfaces
  rintro s c p n rfl h
  refine ⟨fun htr cmd hcmd => ?_, fun htr hnot cmd hcmd => ?_, fun t htr hready hb => ?_,
    fun htr hready hb => congrArg Host.Outcome.next (State.tdisp_unbound h htr hready hb)⟩
  · obtain ⟨go, hgo⟩ := tdispRequests (s := s) hcmd
    rw [hgo, State.tdisp_outside h htr]
  · obtain ⟨go, hgo⟩ := tdispRequests (s := s) hcmd
    rw [hgo, State.tdisp_notReady h htr hnot]
  · obtain ⟨hstate, hgen, hmem, hfree, hout⟩ := t.lockTdi_locks (vfOf p.val) p.val
    refine ⟨execLockInterfaceRequest_refused h htr hready hb, fun hlock => ⟨_, _, execLockInterfaceRequest_locks h htr hready hb hlock,
        hstate, hgen, by simp [State.random], State.putNonce_kept .., congrArg (· + 1) hfree, hmem, congrArg (· ++ [_]) hout⟩,
      fun hlocked => (execGetDeviceInterfaceReport_answers h htr hready hb).trans (congrArg Host.Outcome.next (if_pos hlocked)),
      fun hlocked => (execGetDeviceInterfaceReport_answers h htr hready hb).trans
        (congrArg Host.Outcome.next (if_neg (ne_false_of_eq_true hlocked))),
      fun nonce => execStartInterfaceRequest_refused h htr hready hb,
      fun nonce hlocked hnonce hsome => ⟨_, execStartInterfaceRequest_starts h htr hready hb hlocked hnonce hsome, (State.runTdi_rd ..).1,
        State.putNonce_kept .., rfl, rfl, (State.runTdi_rd ..).2⟩,
      execStopInterfaceRequest_unlocked h htr hready hb, fun u hst hu => ⟨fun hnot => ?_, fun hends => ?_⟩⟩
    · exact (execStopInterfaceRequest_stops h htr hready hb hst hu).trans (congrArg Host.Outcome.next (if_pos hnot))
    · exact (execStopInterfaceRequest_stops h htr hready hb hst hu).trans (congrArg Host.Outcome.next (if_neg (ne_true_of_eq_false hends)))

end Sys2Proof.Machine
end

section
/-! PROOFS. The frame of sessions, ports and handovers: what their ends leave alone beside the registers, and which registers. -/

-- Proofs side by side each take a thread with its stack: together they pass the bound on memory.
set_option Elab.async false

namespace Sys2Proof.Machine

/-- The root of trust without what sessions, streams and interfaces hold: flash, fuses, measurements and debug (R593 to R625). -/
def State.vault (s : State) : Trust := { s.trust with sessions := [], ideKeys := [], ideSet := [], nonces := [], stopping := [] }

/-- The memories, the record of faults, the root of trust's vault, and the pins. -/
def State.core (s : State) : Mems × Rel × Trust × Pins := (s.mem, s.rel, s.vault, s.pins)

theorem State.emit_core (s : State) (o : Out) : (s.emit o).core = s.core := rfl
theorem State.setPort_core (s : State) (q : Nat) (x : Port) : (s.setPort q x).core = s.core := rfl

theorem OnlyRegs.core {s t : State} {fs : List Fld} (h : OnlyRegs s t fs) : t.core = s.core := by
  rw [h.1]
  rfl

/-- The fields of `ks` and what `State.core` names are the same. -/
structure CoreFrame (ks : List Fld) (s t : State) : Prop where
  flds : SameFlds ks s t
  core : t.core = s.core

theorem BaseFrame.toCore {ks : List Fld} {s t : State} (h : BaseFrame ks s t) : CoreFrame ks s t :=
  ⟨h.flds, by unfold State.core State.vault; rw [h.mem, h.rel, h.trust, h.pins]⟩

namespace CoreFrame

variable {ks : List Fld} {s₀ s t : State} {f : Fld} {i j v n : Nat}

theorem refl (s : State) : CoreFrame ks s s := ⟨.refl s, rfl⟩

theorem trans (h : CoreFrame ks s₀ s) (ht : CoreFrame ks s t) : CoreFrame ks s₀ t := ⟨h.flds.trans ht.flds, ht.core.trans h.core⟩

theorem andBase (h : CoreFrame ks s₀ s) (ht : BaseFrame ks s t) : CoreFrame ks s₀ t := h.trans ht.toCore

theorem rd (h : CoreFrame ks s t) {g : Fld} (hg : g ∈ ks) (i j : Nat) : t.rd g i j = s.rd g i j := h.flds g hg i j

theorem mem (h : CoreFrame ks s t) : t.mem = s.mem := congrArg (·.1) h.core
theorem rel (h : CoreFrame ks s t) : t.rel = s.rel := congrArg (·.2.1) h.core
theorem vault (h : CoreFrame ks s t) : t.vault = s.vault := congrArg (·.2.2.1) h.core
theorem pins (h : CoreFrame ks s t) : t.pins = s.pins := congrArg (·.2.2.2) h.core

/-- A change beside the registers and the core. -/
theorem beside (h : CoreFrame ks s₀ s) (hr : t.regs = s.regs) (hc : t.core = s.core) : CoreFrame ks s₀ t :=
  ⟨h.flds.beside hr, hc.trans h.core⟩

theorem onlyRegs {fs : List Fld} (h : CoreFrame ks s₀ s) (ht : OnlyRegs s t fs) (hf : Apart ks fs := by decide) : CoreFrame ks s₀ t :=
  ⟨h.flds.onlyRegs ht hf, ht.core.trans h.core⟩

/-- A write of one of the fields `fs`. -/
theorem wrOf {fs : List Fld} (h : CoreFrame ks s₀ s) (hks : Apart ks fs) (hf : f ∈ fs) : CoreFrame ks s₀ (s.wr f i v j) :=
  ⟨h.flds.wr fun g hg => hks g hg f hf, h.core⟩

theorem bump (h : CoreFrame ks s₀ s) (hf : ∀ g ∈ ks, g.id ≠ f.id ∧ g.id ≠ f.id - 1 := by decide) : CoreFrame ks s₀ (s.bump f i j n) :=
  h.andBase ((BaseFrame.refl s).bump hf)

theorem ite {c : Prop} [Decidable c] (hs : CoreFrame ks s₀ s) (ht : CoreFrame ks s₀ t) : CoreFrame ks s₀ (if c then s else t) := by
  split <;> assumption

theorem foldl {α : Type} {l : List α} {f : State → α → State} (h : CoreFrame ks s₀ s) (hf : ∀ u x, CoreFrame ks s₀ u → CoreFrame ks s₀ (f u x)) :
    CoreFrame ks s₀ (l.foldl f s) :=
  List.foldlRecOn (motive := CoreFrame ks s₀) _ _ h fun u hu x _ => hf u x hu

theorem loopN {f : Nat → State → State} (h : CoreFrame ks s₀ s) (hf : ∀ k u, CoreFrame ks s₀ u → CoreFrame ks s₀ (f k u)) :
    CoreFrame ks s₀ (loopN n f s) :=
  h.foldl fun u k => hf k u

/-! ### Sessions -/

theorem tdiError (h : CoreFrame ks s₀ s) (n cause : Nat) (hf : Apart ks BaseFrame.tdiFlds := by decide) :
    CoreFrame ks s₀ (s.tdiError n cause) :=
  h.andBase ((BaseFrame.refl s).tdiError n cause hf)

/-- The registers of a session's end (R603, R611). -/
def sessionFlds : List Fld := [F.RTP_SESS_END_COUNT, ovfOf F.RTP_SESS_END_COUNT, F.RTP_DEV_SESSIONS, F.RTP_TDI_STATE_SESSION] ++ BaseFrame.tdiFlds

theorem closeSession (h : CoreFrame ks s₀ s) (tr slot : Nat) (hf : Apart ks sessionFlds := by decide) :
    CoreFrame ks s₀ (s.closeSession tr slot) := by
  unfold State.closeSession
  split
  · exact h
  · rename_i x _
    extract_lets a
    have hstored : CoreFrame ks s₀ (s.setSession tr slot none) := h.beside rfl rfl
    have ha : CoreFrame ks s₀ a :=
      (hstored.bump fun g hg => ⟨hf g hg _ (by simp [sessionFlds]), hf g hg (ovfOf F.RTP_SESS_END_COUNT) (by simp [sessionFlds])⟩).wrOf hf
        (by simp [sessionFlds])
    split
    · exact ha.ite ((ha.wrOf hf (by simp [sessionFlds])).tdiError _ _ (hf.mono (List.subset_append_right ..)))
    · exact ha

theorem endSessions (h : CoreFrame ks s₀ s) (hf : Apart ks sessionFlds := by decide) : CoreFrame ks s₀ s.endSessions := by
  refine h.foldl fun u e hu => ?_
  split
  · exact hu.closeSession _ _ hf
  · exact hu

/-! ### Ports -/

/-- The registers of a port that goes down (R550 to R552). -/
def goDownFlds : List Fld := downFlds ++ trainFlds ++ BaseFrame.tableFlds ++ BaseFrame.lostFlds ++ eventFlds ++
  [F.PLK_P_DISCARD_COUNT, ovfOf F.PLK_P_DISCARD_COUNT]

theorem startTraining (h : CoreFrame ks s₀ s) (q tries : Nat) (hf : Apart ks trainFlds := by decide) :
    CoreFrame ks s₀ (s.startTraining q tries) := by
  have hcore : (s.startTraining q tries).core = s.core := by
    unfold State.startTraining
    extract_lets x p0 a net b c d e
    have he : e.core = s.core := rfl
    clear_value e
    exact (State.emit_core ..).trans ((State.setPortState_onlyRegs ..).core.trans ((State.lanesOff_onlyRegs ..).core.trans he))
  exact h.trans ⟨State.startTraining_flds hf, hcore⟩

theorem goDown (h : CoreFrame ks s₀ s) (q reason : Nat) (hf : Apart ks goDownFlds := by decide) : CoreFrame ks s₀ (s.goDown q reason) := by
  have hdown : Apart ks downFlds := hf.mono fun y hy => by simp [goDownFlds, hy]
  have htrain : Apart ks trainFlds := hf.mono fun y hy => by simp [goDownFlds, hy]
  have htable : Apart ks BaseFrame.tableFlds := hf.mono fun y hy => by simp [goDownFlds, hy]
  have hlost : Apart ks BaseFrame.lostFlds := hf.mono fun y hy => by simp [goDownFlds, hy]
  have hevent : Apart ks eventFlds := hf.mono fun y hy => by simp [goDownFlds, hy]
  have hdone : Apart ks doneFlds := htable.mono fun y hy => by simp [BaseFrame.tableFlds, hy]
  have hlane : Apart ks laneFlds := htrain.mono fun y hy => by simp [trainFlds, hy]
  have hstate : Apart ks (F.PLK_STATE_STATE :: viewFlds) := htrain.mono fun y hy => by
    rcases List.mem_cons.1 hy with rfl | hview
    · simp [trainFlds]
    · simp [trainFlds, laneFlds, hview]
  unfold State.goDown
  extract_lets lost a x b net c p0 d e f g det k l m o
  have ha : CoreFrame ks s₀ a := h.andBase ((BaseFrame.refl s).countDiscards fun y hy =>
    ⟨hf y hy _ (by simp [goDownFlds]), hf y hy (ovfOf F.PLK_P_DISCARD_COUNT) (by simp [goDownFlds])⟩)
  clear_value a
  have hb : CoreFrame ks s₀ b := (ha.wrOf hdown (by simp [downFlds])).bump fun y hy =>
    ⟨hdown y hy _ (by simp [downFlds]), hdown y hy F.PLK_DOWN_OVF (by simp [downFlds])⟩
  clear_value b
  have hd : CoreFrame ks s₀ d := hb.beside rfl rfl
  clear_value d
  have he : CoreFrame ks s₀ e := (hd.wrOf htrain (by simp [trainFlds])).wrOf htrain (by simp [trainFlds])
  clear_value e
  have hoff : CoreFrame ks s₀ ((e.lanesOff q true).setPortState q portDown) :=
    (he.onlyRegs (State.lanesOff_onlyRegs ..) hlane).onlyRegs (State.setPortState_onlyRegs ..) hstate
  have hg : CoreFrame ks s₀ f := by
    rcases BaseFrame.applyTable ((e.lanesOff q true).setPortState q portDown) q htable with hsame | hnew
    · exact hoff.andBase hsame
    · exact (hoff.beside (State.setPort_regs ..) (State.setPort_core ..)).andBase hnew
  clear_value f
  have hm : BaseFrame ks f m := by
    have hk : BaseFrame ks f k := ((BaseFrame.refl f).foldl fun _ _ hu => hu.lostMsg _ _ hlost).loopN fun _ _ hu => hu.ite (hu.event hevent)
    have hl : BaseFrame ks f l := hk.event hevent
    exact (hl.linkAuthFail q hevent).ite hl
  have ho : CoreFrame ks s₀ o := hg.andBase (hm.foldl fun _ _ hu => hu.ite (hu.portDone _ _ _ hdone))
  exact h.ite (ho.ite (ho.startTraining q 0 htrain))

/-- The registers that a cut of every link and key can change (R669, R690). -/
def cutFlds : List Fld := [F.MOW_KEYID_KEYID0, F.MOW_KEYID_KEYID1] ++ goDownFlds

theorem cutLinks (h : CoreFrame ks s₀ s) (hf : Apart ks cutFlds := by decide) : CoreFrame ks s₀ s.cutLinks := by
  refine (h.loopN fun q u hu => hu.goDown q 1 (hf.mono (List.subset_append_right ..))).loopN fun p u hu => ?_
  have hkeys : CoreFrame ks s₀ ((u.wr F.MOW_KEYID_KEYID0 p 0).wr F.MOW_KEYID_KEYID1 p 0) :=
    (hu.wrOf hf (by simp [cutFlds])).wrOf hf (by simp [cutFlds])
  exact hkeys.beside rfl rfl

/-! ### Handovers -/

/-- The registers of a handover that starts (R31). -/
def handFlds : List Fld := [F.PDK_STATE_STATE, F.RTP_TDI_STATE_NOT_READY, F.MOW_STAT_ROTATING, F.MOW_STAT_P, F.MOW_STAT_ACTIVITY,
  F.PLK_P_DISCARD_COUNT, ovfOf F.PLK_P_DISCARD_COUNT] ++ doneFlds ++ BaseFrame.tdiFlds

theorem dropTaken (h : CoreFrame ks s₀ s) (x : Hdr) (hf : Apart ks doneFlds := by decide) : CoreFrame ks s₀ (s.dropTaken x) :=
  h.andBase ⟨(SameFlds.refl s).dropTaken hf, by simp [State.base]⟩

theorem endCommands (h : CoreFrame ks s₀ s) (p : Nat) (hf : Apart ks doneFlds := by decide) : CoreFrame ks s₀ (s.endCommands p) :=
  h.foldl fun u _ hu => (hu.dropTaken _ hf).ite ((hu.andBase ((BaseFrame.refl u).complete hf)).ite
    ((hu.andBase ((BaseFrame.refl u).complete hf)).ite hu))

theorem linkDiscard (h : CoreFrame ks s₀ s) (p : Nat)
    (hf : ∀ g ∈ ks, g.id ≠ F.PLK_P_DISCARD_COUNT.id ∧ g.id ≠ F.PLK_P_DISCARD_COUNT.id - 1 := by decide) : CoreFrame ks s₀ (s.linkDiscard p) := by
  unfold State.linkDiscard
  extract_lets mine a
  have ha : CoreFrame ks s₀ a := h.foldl fun _ _ hu => hu.bump hf
  clear_value a
  exact ha.beside rfl rfl

theorem startHandover (h : CoreFrame ks s₀ s) (p : Nat) (toFree flr force : Bool) (hf : Apart ks handFlds := by decide) :
    CoreFrame ks s₀ (s.startHandover p toFree flr force) := by
  have hdone : Apart ks doneFlds := hf.mono fun y hy => by simp [handFlds, hy]
  have htdi : Apart ks BaseFrame.tdiFlds := hf.mono (List.subset_append_right ..)
  unfold State.startHandover
  extract_lets st a b c d e
  refine ite ?_ (h.ite ?_)
  · have ha : CoreFrame ks s₀ a := h.wrOf hf (by simp [handFlds])
    split
    · exact ha.beside rfl rfl
    · exact ha.beside rfl rfl
  · have hstate : CoreFrame ks s₀ (s.wr F.PDK_STATE_STATE p pdkHandover) := h.wrOf hf (by simp [handFlds])
    have hb : CoreFrame ks s₀ b := hstate.beside rfl rfl
    clear_value b
    have hc : CoreFrame ks s₀ c := (hb.wrOf hf (by simp [handFlds])).tdiError _ _ htdi
    clear_value c
    have hstop : CoreFrame ks s₀ (((c.endCommands p).stopCores p).stopWalks p) := (hc.endCommands p hdone).beside rfl rfl
    have hd : CoreFrame ks s₀ d := hstop.linkDiscard p fun y hy =>
      ⟨hf y hy _ (by simp [handFlds]), hf y hy (ovfOf F.PLK_P_DISCARD_COUNT) (by simp [handFlds])⟩
    clear_value d
    have he : CoreFrame ks s₀ e := ((hd.wrOf hf (by simp [handFlds])).wrOf hf (by simp [handFlds])).wrOf hf (by simp [handFlds])
    clear_value e
    exact he.beside rfl rfl

end CoreFrame

end Sys2Proof.Machine
end

section
/-! PROOFS. Firmware images (R595, R615 to R617) and the out-of-band requests (R618, R619, R710). -/

-- Proofs side by side each take a thread with its stack: together they pass the bound on memory.
set_option Elab.async false

namespace Sys2Proof.Machine

/-! ### FW_STAGE -/

/-- The status of an image that was read (R615, R616). -/
def fwImageStatus (b : List Byte) (bytes minSvn : Nat) : Nat :=
  firstStatus [failIf (!fwLayoutOk b bytes) 0x2D0, failIf (!Config.verifies useFirmware b) 0x721,
    failIf (decide (fieldAt b 0xC 4 < minSvn)) 0x722]

/-- The digest of the part `x` of an image, as FW_STAGE keeps it. -/
def fwPart (b : List Byte) (x : Nat) : Nat :=
  leNat (sha384 (((List.range 4).find? (fun k => (fwComp b k).1 == x)).elim [] (fun k => fwData b k)))

section Image

variable {b : List Byte} {bytes minSvn : Nat}

theorem fwImageStatus_layout (h : fwLayoutOk b bytes = false) : fwImageStatus b bytes minSvn = 0x2D0 := by
  simp [fwImageStatus, firstStatus, failIf, h]

variable (hlayout : fwLayoutOk b bytes = true)
include hlayout

theorem fwImageStatus_signature (h : Config.verifies useFirmware b = false) : fwImageStatus b bytes minSvn = 0x721 := by
  simp [fwImageStatus, firstStatus, failIf, hlayout, h]

variable (hsigned : Config.verifies useFirmware b = true)
include hsigned

theorem fwImageStatus_svn (h : fieldAt b 0xC 4 < minSvn) : fwImageStatus b bytes minSvn = 0x722 := by
  simp [fwImageStatus, firstStatus, failIf, hlayout, hsigned, h]

theorem fwImageStatus_good (h : minSvn ≤ fieldAt b 0xC 4) : fwImageStatus b bytes minSvn = 0 := by
  simp [fwImageStatus, firstStatus, failIf, hlayout, hsigned, Nat.not_lt.2 h]

end Image

section Stage

variable {s : State} {h : Hdr} {image bytes flags : Nat} (hbusy : s.rotBusy h opFwStage = false)
  (hgo : s.goes h opFwStage (s.fwStageStatus h image bytes flags))
include hbusy hgo

/-- DISCARD leaves nothing staged and completes (R616). -/
theorem execFwStage_discards {data : Fetched} (hflag : hasBit flags 0 = true) : execFwStage h image bytes flags data s =
    .next (((s.start h opFwStage (some (.fwStage h image bytes flags data))).unstage).complete h 0) :=
  (if_neg (ne_true_of_eq_false hbusy)).trans (congrArg Host.Outcome.next ((State.checked_goes hgo).trans (if_pos hflag)))

variable (hflag : hasBit flags 0 = false)
include hflag

/-- An image that cannot be read ends the command (R471). -/
theorem execFwStage_unread {data : Fetched} (hdata : data = .hostError ∨ data = .poison)
    (hpages : s.untranslated h [⟨image, bytes, false⟩] ∨ s.translated h [⟨image, bytes, false⟩]) : execFwStage h image bytes flags data s =
    .next (((s.begun h opFwStage (.fwStage h image bytes flags data) [⟨image, bytes, false⟩]).countRead h.fn.val 0 image bytes).hostFailed h image) := by
  refine (if_neg (ne_true_of_eq_false hbusy)).trans (congrArg Host.Outcome.next ((State.checked_goes hgo).trans
    ((if_neg (ne_true_of_eq_false hflag)).trans ((State.gate_begun hpages).trans ?_))))
  obtain rfl | rfl := hdata <;> rfl

/-- One that was read is written to the bank that does not run, or ends the command with the status of its checks (R616). -/
theorem execFwStage_read {b : List Byte} (hpages : s.untranslated h [⟨image, bytes, false⟩] ∨ s.translated h [⟨image, bytes, false⟩]) {u : State}
    (hu : (s.begun h opFwStage (.fwStage h image bytes flags (.ok b)) [⟨image, bytes, false⟩]).countRead h.fn.val 0 image bytes = u) :
    execFwStage h image bytes flags (.ok b) s = .next (if fwImageStatus b bytes u.trust.minSvn ≠ 0 then
        u.complete h (fwImageStatus b bytes u.trust.minSvn)
      else (u.unstage).setProg h [fieldAt b 0xC 4, leNat (sha384 b), fwPart b 2, fwPart b 3, fwPart b 4, fwPart b 5]) := by
  subst hu
  exact (if_neg (ne_true_of_eq_false hbusy)).trans (congrArg Host.Outcome.next ((State.checked_goes hgo).trans
    ((if_neg (ne_true_of_eq_false hflag)).trans (State.gate_begun hpages))))

/-- A check that fails ends it. -/
theorem execFwStage_fails {b : List Byte} (hpages : s.untranslated h [⟨image, bytes, false⟩] ∨ s.translated h [⟨image, bytes, false⟩]) {u : State}
    (hu : (s.begun h opFwStage (.fwStage h image bytes flags (.ok b)) [⟨image, bytes, false⟩]).countRead h.fn.val 0 image bytes = u) {st : Nat}
    (hst : fwImageStatus b bytes u.trust.minSvn = st) (hbad : st ≠ 0) :
    execFwStage h image bytes flags (.ok b) s = .next (u.complete h st) := by
  rw [execFwStage_read hbusy hgo hflag hpages hu, hst, if_pos hbad]

end Stage

/-! ### FW_STAGE_COMPLETE -/

/-- The bank that the record of an FW_STAGE makes, and the state with it staged (R616). -/
def fwBank (g : List Nat) : FwBank :=
  ⟨nth g 0, [leBytes (nth g 2) 48, leBytes (nth g 3) 48, leBytes (nth g 4) 48, leBytes (nth g 5) 48], leBytes (nth g 1) 48⟩

def State.stageBank (s : State) (bank : FwBank) : State :=
  { s with trust := { s.trust with banks := tset ⟨0, [], []⟩ s.trust.banks [s.spareFlash] bank, staged := true } }

def State.stageShown (s : State) (bank : FwBank) : State :=
  ((s.stageBank bank).wr F.RTP_DEV_UPDATE_STAGED 0 1).wr F.RTP_SVN_STAGED_SVN 0 bank.svn

theorem State.stageBank_bankOf (s : State) (bank : FwBank) : tget ⟨0, [], []⟩ (s.stageBank bank).trust.banks [s.spareFlash] = bank :=
  tget_tset_self

section Complete

variable {s : State} {h : Hdr}

theorem execFwStageComplete_stages (hexec : s.executing h opFwStage = true) (hlen : (s.progOf h).length = 6) : execFwStageComplete h s =
    .next (((s.stageShown (fwBank (s.progOf h))).complete h 0 (nth (s.progOf h) 0 * 2 ^ 16)).event 0 0x52 0
      (detailAt 0x10 (nth (s.progOf h) 0 % 2 ^ 32))) :=
  if_neg (not_or_intro (ne_false_of_eq_true hexec) (not_not_intro hlen))

/-- The image is staged in the bank that does not run, with its SVN, and nothing else of the flash changes. -/
theorem State.staged_shows (bank : FwBank) (result detail : Nat) {t : State}
    (ht : t = ((s.stageShown bank).complete h 0 result).event 0 0x52 0 detail) : t.trust.staged = true ∧ (t.bankOf s.spareFlash) = bank ∧
    t.rd F.RTP_DEV_UPDATE_STAGED 0 = 1 ∧ t.rd F.RTP_SVN_STAGED_SVN 0 = bank.svn % 2 ^ 32 ∧ t.trust.active = s.trust.active ∧ t.mem = s.mem := by
  have hframe : BaseFrame [F.RTP_DEV_UPDATE_STAGED, F.RTP_SVN_STAGED_SVN] (s.stageShown bank) t :=
    ht ▸ ((BaseFrame.refl _).complete).event
  have htrust : t.trust = (s.stageBank bank).trust := hframe.trust
  refine ⟨congrArg Trust.staged htrust, ?_, ?_, ?_, (congrArg Trust.active htrust).trans rfl, hframe.mem⟩
  · unfold State.bankOf
    rw [htrust]
    exact s.stageBank_bankOf bank
  · exact (hframe.rd (by simp) ..).trans ((State.rd_wr_fld (by decide)).trans State.rd_wr_self)
  · exact (hframe.rd (by simp) ..).trans State.rd_wr_self

end Complete

/-! ### FW_ACTIVATE -/

/-- The bank marked active changes, and MIN_SVN is raised when COMMIT asks for it (R617). -/
def State.activateBank (s : State) (flags : Nat) : State :=
  let b := s.spareFlash
  let svn := (s.bankOf b).svn
  let raise := hasBit flags 0 && decide (s.trust.minSvn < svn)
  { s with trust := { s.trust with
    active := b
    staged := false
    minSvn := if raise then svn else s.trust.minSvn
    commitsLeft := if raise then s.trust.commitsLeft - 1 else s.trust.commitsLeft } }

/-- Locked interfaces go to ERROR and every session ends before the restart (R617). -/
def State.beforeRestart (s : State) (h : Hdr) (flags : Nat) : State :=
  let s := s.start h opFwActivate (some (.fwActivate h flags)) [s.now]
  let s := loopN 16 (fun p s => if s.tdiState (vfOf p) = tdiConfigLocked then s.tdiError (vfOf p) 4 else s) s
  s.endSessions

section Activate

variable {s : State} {h : Hdr} {flags : Nat}

theorem State.beforeRestart_frame : CoreFrame [F.RTP_DEV_RUN_BANK] s (s.beforeRestart h flags) := by
  unfold State.beforeRestart
  extract_lets a b
  have ha : CoreFrame [F.RTP_DEV_RUN_BANK] s a := (BaseFrame.refl s).start.toCore
  have hb : CoreFrame [F.RTP_DEV_RUN_BANK] s b := ha.loopN fun _ _ hu => (hu.tdiError ..).ite hu
  exact hb.endSessions

theorem execFwActivate_activates (hbusy : s.rotBusy h opFwActivate = false) (hgo : s.goes h opFwActivate (s.fwActivateStatus flags)) :
    execFwActivate h flags s = .next ((s.beforeRestart h flags).activateBank flags) := by
  refine (if_neg (ne_true_of_eq_false hbusy)).trans (congrArg Host.Outcome.next ((State.checked_goes hgo).trans ?_))
  extract_lets a b c
  have hc : s.beforeRestart h flags = c := rfl
  rw [hc]
  clear_value c
  rfl

/-- What ends and restarts does not touch the flash and the fuses: the other bank becomes the active one. -/
theorem State.activateBank_flash {t : State} (ht : t = (s.beforeRestart h flags).activateBank flags) : t.trust.active = s.spareFlash ∧ t.trust.staged = false ∧
    (hasBit flags 0 = false → t.trust.minSvn = s.trust.minSvn ∧ t.trust.commitsLeft = s.trust.commitsLeft) ∧
    (hasBit flags 0 = true → s.trust.minSvn < (s.bankOf s.spareFlash).svn → t.trust.minSvn = (s.bankOf s.spareFlash).svn ∧
      t.trust.commitsLeft = s.trust.commitsLeft - 1) := by
  have hframe := State.beforeRestart_frame (s := s) (h := h) (flags := flags)
  generalize s.beforeRestart h flags = u at ht hframe
  have hspare : u.spareFlash = s.spareFlash := by
    unfold State.spareFlash
    rw [hframe.rd (by simp)]
  have hmin : u.trust.minSvn = s.trust.minSvn :=
    show u.vault.minSvn = s.vault.minSvn from congrArg _ hframe.vault
  have hcommits : u.trust.commitsLeft = s.trust.commitsLeft :=
    show u.vault.commitsLeft = s.vault.commitsLeft from congrArg _ hframe.vault
  have hbanks : u.trust.banks = s.trust.banks :=
    show u.vault.banks = s.vault.banks from congrArg _ hframe.vault
  have hbank : u.bankOf u.spareFlash = s.bankOf s.spareFlash := by
    unfold State.bankOf
    rw [hspare, hbanks]
  subst ht
  unfold State.activateBank
  dsimp only
  rw [hbank, hspare, hmin, hcommits]
  refine ⟨rfl, rfl, fun hflag => ?_, fun hflag hless => ?_⟩
  · simp [hflag]
  · simp [hflag, hless]

theorem State.boot_mem (s : State) (bad : List Nat) : (s.boot bad).mem = s.mem := by
  unfold State.boot
  extract_lets t b run a t' c d e f g
  have ha : a.mem = s.mem := rfl
  clear_value a
  exact ha

/-- The restart boots, completes with the SVN that runs, and tells every tenant: beside what the boot does, no register of it and no memory
changes (R595, R617). -/
theorem execFwActivateRestartDone_boots {bad : List (Fin 2)} (hexec : s.executing h opFwActivate = true) :
    ∃ t, execFwActivateRestartDone h bad s = .next t ∧
      BaseFrame [F.RTP_SVN_RUN_SVN, F.RTP_DEV_RUN_BANK, F.RTP_DEV_FALLBACK] (s.boot (bad.map (fun k => k.val))) t := by
  refine ⟨_, if_neg (ne_false_of_eq_true hexec), ?_⟩
  exact (((BaseFrame.refl _).complete).event).loopN fun _ _ hu => hu.event.ite hu

end Activate

/-- Settles O51: an image by the status of its checks (`fwImageStatus`), the flash by what staging and activating write there. -/
theorem firmware : Obligations.Firmware := by
  unfold Obligations.Firmware
  refine fun s h => ⟨fun image bytes flags data hbusy hgo => ⟨execFwStage_discards hbusy hgo, fun hflag hpages u hu => ⟨fun hdata => ?_,
      fun b hb => ⟨fun hlayout => ?_, fun hlayout hsig => ?_, fun hlayout hsig hsvn => ?_, fun hlayout hsig hsvn => ?_⟩⟩⟩,
    ⟨rfl, (State.rd_wr_fld (by decide)).trans State.rd_wr_self, State.rd_wr_self, rfl⟩, fun hout => if_pos hout, fun hexec hlen => ?_,
    fun flags hbusy hgo => ⟨_, execFwActivate_activates hbusy hgo, State.activateBank_flash rfl⟩, fun bad => ⟨fun hout => if_pos hout, fun hexec u hu => ?_⟩⟩
  · subst hu
    exact execFwStage_unread hbusy hgo hflag hdata hpages
  · subst hb
    exact execFwStage_fails hbusy hgo hflag hpages hu (fwImageStatus_layout hlayout) (by decide)
  · subst hb
    exact execFwStage_fails hbusy hgo hflag hpages hu (fwImageStatus_signature hlayout hsig) (by decide)
  · subst hb
    exact execFwStage_fails hbusy hgo hflag hpages hu (fwImageStatus_svn hlayout hsig hsvn) (by decide)
  · subst hb
    refine ⟨_, (execFwStage_read hbusy hgo hflag hpages hu).trans (congrArg Host.Outcome.next
      (if_neg (not_not_intro (fwImageStatus_good hlayout hsig hsvn)))), rfl, rfl, rfl⟩
  · obtain ⟨hstaged, hbank, hshown, hsvn, hactive, hmem⟩ := State.staged_shows (s := s) (h := h) (fwBank (s.progOf h))
      (nth (s.progOf h) 0 * 2 ^ 16) (detailAt 0x10 (nth (s.progOf h) 0 % 2 ^ 32)) rfl
    exact ⟨_, execFwStageComplete_stages hexec hlen, hstaged, by rw [hbank]; rfl, hshown, hsvn, hactive, hmem⟩
  · subst hu
    obtain ⟨t, ht, hframe⟩ := execFwActivateRestartDone_boots (bad := bad) hexec
    exact ⟨t, ht, hframe.trust, hframe.rd (by simp) .., hframe.rd (by simp) .., hframe.rd (by simp) .., hframe.mem.trans (State.boot_mem ..)⟩

/-! ### Out of band -/

section OutOfBand

variable {s : State} {c : Chan} (h : s.heard c)
include h

/-- A vendor-defined request over another transport is refused (R618). -/
theorem State.outOfBand_elsewhere {go : State → State} (htr : c.transport.val ≠ 1) :
    s.outOfBand c go = s.answer c "ERROR UnsupportedRequest" [] [] :=
  (State.inSession_heard h).trans (if_neg htr)

variable (htr : c.transport.val = 1)
include htr

theorem execPaddockStop_unstoppable {p : Fin 16} {scope : Fin 2} {q : Bool} (hstop : s.stoppable p.val = false) :
    execPaddockStop c p scope q s = .next (s.answer c "PADDOCK_STOP" [0x301] []) :=
  congrArg Host.Outcome.next ((State.outOfBand_heard h htr).trans (if_pos hstop))

/-- A paddock that can be stopped is aborted in the scope asked, and quiesced if asked (R496 to R498, R618). -/
theorem execPaddockStop_stops {p : Fin 16} {scope : Fin 2} {q : Bool} (hstop : s.stoppable p.val = true) {u : State}
    (hu : u = (if scope.val = 0 then s.abort p.val 0x607 else (s.abortScope1 p.val).1)) :
    execPaddockStop c p scope q s = .next ((if q then u.quiesce p.val else u).answer c "PADDOCK_STOP" [0] []) := by
  subst hu
  exact congrArg Host.Outcome.next ((State.outOfBand_heard h htr).trans (if_neg (ne_false_of_eq_true hstop)))

/-- The owner's digest is fused once, and only one of 48 bytes (R619). -/
theorem execOwnerProvision_fuses {value : List Byte} (howner : s.trust.owner = none) (hlen : value.length = 48) :
    execOwnerProvision c value s = .next ((({ s with trust := { s.trust with owner := some value } } : State).wr F.RTP_DEV_OWNER_SET 0 1).answer c
      "OWNER_PROVISION" [0] []) :=
  congrArg Host.Outcome.next ((State.outOfBand_heard h htr).trans (if_neg (by simp [howner, hlen])))

theorem execOwnerProvision_refuses {value : List Byte} (hbad : s.trust.owner ≠ none ∨ value.length ≠ 48) :
    execOwnerProvision c value s = .next (s.answer c "OWNER_PROVISION" [1] []) :=
  congrArg Host.Outcome.next ((State.outOfBand_heard h htr).trans (if_pos (hbad.imp_left Option.isSome_iff_ne_none.2)))

end OutOfBand

theorem State.answer_rd (s : State) (c : Chan) (name : String) (fields : List Nat) (data : List Byte) (g : Fld) (i j : Nat) :
    (s.answer c name fields data).rd g i j = s.rd g i j := rfl

theorem State.kill_killed (s : State) : s.kill.rd F.RTP_DEV_KILLED 0 = 1 := State.rd_wr_self

/-- Settles O53: each request over the frame of out-of-band requests, the dynamic address by the stage of power-on. -/
theorem outOfBand : Obligations.OutOfBand := by
  unfold Obligations.OutOfBand
  refine fun s c => ⟨fun h htr => ⟨congrArg Host.Outcome.next (State.outOfBand_elsewhere h htr),
      congrArg Host.Outcome.next (State.outOfBand_elsewhere h htr)⟩,
    fun h htr => ⟨congrArg Host.Outcome.next (State.outOfBand_heard h htr), fun p scope q => ⟨execPaddockStop_unstoppable h htr,
        fun hstop u => execPaddockStop_stops h htr hstop⟩,
      ⟨_, congrArg Host.Outcome.next (State.outOfBand_heard h htr), rfl, (State.answer_rd ..).trans s.kill_killed⟩, fun value => ⟨fun howner hlen =>
        ⟨_, execOwnerProvision_fuses h htr howner hlen, rfl, (State.answer_rd ..).trans State.rd_wr_self, rfl, rfl⟩, execOwnerProvision_refuses h htr⟩⟩,
    fun x addr => ⟨fun hkept => ?_, fun hpower hstage haddr => ?_⟩⟩
  · exact if_pos (hkept.imp_right (Or.imp_right Option.isSome_iff_ne_none.2))
  · refine ⟨_, if_neg ?_, rfl⟩
    rintro (hoff | hearly | hsome)
    · simp [hpower] at hoff
    · omega
    · simp [haddr] at hsome

end Sys2Proof.Machine
end

section
/-! PROOFS. A reset of the functions (R680 to R682): what it leaves alone beside the registers that it resets. -/

-- Proofs side by side each take a thread with its stack: together they pass the bound on memory.
set_option Elab.async false

namespace Sys2Proof.Machine

/-! ### A reset of registers -/

/-- No register of `ks` is one that the predicate `p` resets. -/
def Lasting (ks : List Fld) (p : Fld → Nat → Nat → Bool) : Prop := ∀ g ∈ ks, ∀ i j, (allFlds[g.id]?).any (fun f => p f i j) = false

theorem SameFlds.resetFlds {ks : List Fld} {s₀ s : State} (h : SameFlds ks s₀ s) {p : Fld → Nat → Nat → Bool} (hp : Lasting ks p) :
    SameFlds ks s₀ (s.resetFlds p) :=
  h.trans fun g hg i j => by
    unfold State.rd State.resetFlds
    rw [tget_tclear]
    exact if_neg (ne_true_of_eq_false (hp g hg i j))

/-- What PERST_N and a PF FLR reset of the registers (R681). -/
def functionReset (perst : Bool) (f : Fld) (i : Nat) (_ : Nat) : Bool :=
  f.lvl == .pfReset || (perst && f.lvl == .perst) || (f.atHandover && i == 0 && (f.blk == .CMQP || f.blk == .CMQF || f.blk == .HIFP))

/-- A field that only a power-on resets, or that a function's reset does not reach. -/
def keptByReset (f : Fld) : Bool := f.lvl != .pfReset && f.lvl != .perst && !f.atHandover

theorem lasting_functionReset {ks : List Fld} (h : ∀ g ∈ ks, (allFlds[g.id]?).all keptByReset = true) (perst : Bool) :
    Lasting ks (functionReset perst) := by
  intro g hg i j
  have hall := h g hg
  cases hf : allFlds[g.id]? with
  | none => rfl
  | some f =>
    rw [hf] at hall
    have hkept : keptByReset f = true := hall
    simp only [keptByReset, Bool.and_eq_true, bne_iff_ne, ne_eq, Bool.not_eq_true'] at hkept
    obtain ⟨⟨hpf, hperst⟩, hhand⟩ := hkept
    simp [functionReset, hpf, hperst, hhand]

/-! ### The reset of the functions -/

/-- The registers that a reset of the functions writes beside those that it resets (R681). -/
def functionFlds : List Fld := [F.RTP_DEV_KILLED] ++ CoreFrame.sessionFlds ++ CoreFrame.handFlds

/-- PF 0's configuration, translations, keys and self-tests are gone (R681). -/
def State.functionsForgotten (s : State) : State :=
  { s with
    host := { s.host with cfg := [], numVfs := 0, vfEnable := false, held := [], xents := [] }
    trust := { s.trust with ideKeys := [], ideSet := [], nonces := [], stopping := [] }
    rel := { s.rel with tests := [] } }

/-- ALERT_N goes high (R670). -/
def State.alertHigh (s : State) : State :=
  if s.pins.alertN then s else ({ s with pins := { s.pins with alertN := true } } : State).emit (.pin "ALERT_N" true)

theorem State.alertHigh_regs (s : State) : s.alertHigh.regs = s.regs := by
  unfold State.alertHigh
  split <;> rfl

theorem State.alertHigh_core (s : State) : s.alertHigh.core = (s.mem, s.rel, s.vault, { s.pins with alertN := true }) := by
  unfold State.alertHigh
  split
  · rename_i halert
    rw [← halert]
    rfl
  · rfl

/-- A paddock goes into a handover that begins anew after the fatal state (R670, R682). -/
def State.handAnew (s : State) (fatal : Prop) [Decidable fatal] (p : Nat) : State :=
  let s := s.startHandover p true false true
  if fatal then s.setHand p (some ⟨true, 1, s.now, false, false, false⟩) else s

/-- The commands, the registers, the sessions and the latches of PF 0 are reset (R681, R682). -/
def State.functionsEnded (s : State) (perst : Bool) : State :=
  ((((s.taken.foldl (fun s t => s.dropTaken t.h) s).resetFlds (functionReset perst)).wr F.RTP_DEV_KILLED 0 0).endSessions).clearFn 0

theorem State.resetFunctions_eq (s : State) (perst : Bool) : s.resetFunctions perst =
    loopN 16 (fun p u => u.handAnew (s.rd F.HIF_FATAL_FATAL 0 = 1) p) (s.functionsEnded perst).functionsForgotten.alertHigh := rfl

theorem CoreFrame.handAnew {ks : List Fld} {s₀ s : State} (h : CoreFrame ks s₀ s) {fatal : Prop} [Decidable fatal] (p : Nat)
    (hf : Apart ks handFlds := by decide) : CoreFrame ks s₀ (s.handAnew fatal p) := by
  unfold State.handAnew
  extract_lets a
  have ha : CoreFrame ks s₀ a := h.startHandover p true false true hf
  clear_value a
  exact ite (ha.beside rfl rfl) ha

section Functions

variable {ks : List Fld} (hf : Apart ks functionFlds) (hlast : ∀ g ∈ ks, (allFlds[g.id]?).all keptByReset = true)
include hf hlast

theorem CoreFrame.functionsEnded (s : State) (perst : Bool) : CoreFrame ks s (s.functionsEnded perst) := by
  have hdone : Apart ks doneFlds := hf.mono fun y hy => by simp [functionFlds, handFlds, hy]
  have hsess : Apart ks sessionFlds := hf.mono fun y hy => by simp [functionFlds, hy]
  have hended : CoreFrame ks s (s.taken.foldl (fun s t => s.dropTaken t.h) s) := (refl s).foldl fun _ _ hu => hu.dropTaken _ hdone
  have hreset : CoreFrame ks s ((s.taken.foldl (fun s t => s.dropTaken t.h) s).resetFlds (functionReset perst)) :=
    ⟨hended.flds.resetFlds (lasting_functionReset hlast perst), hended.core⟩
  exact ((hreset.wrOf hf (by simp [functionFlds])).endSessions hsess).beside rfl rfl

/-- The functions' reset: the memories and the vault stay, no self-test is left, ALERT_N is high. -/
theorem State.resetFunctions_frame (s : State) (perst : Bool) : SameFlds ks s (s.resetFunctions perst) ∧
    (s.resetFunctions perst).core = (s.mem, { s.rel with tests := [] }, s.vault, { s.pins with alertN := true }) := by
  have hhand : Apart ks CoreFrame.handFlds := hf.mono (List.subset_append_right ..)
  have hended := CoreFrame.functionsEnded hf hlast s perst
  rw [State.resetFunctions_eq]
  generalize s.functionsEnded perst = c at hended
  have hloop : CoreFrame ks c.functionsForgotten.alertHigh
      (Machine.loopN 16 (fun p u => u.handAnew (s.rd F.HIF_FATAL_FATAL 0 = 1) p) c.functionsForgotten.alertHigh) :=
    (CoreFrame.refl _).loopN fun p _ hu => hu.handAnew p hhand
  have hforgot : SameFlds ks s c.functionsForgotten := hended.flds.beside rfl
  refine ⟨(hforgot.beside (State.alertHigh_regs _)).trans hloop.flds, (hloop.core.trans (State.alertHigh_core _)).trans ?_⟩
  show (c.mem, { c.rel with tests := [] }, c.vault, { c.pins with alertN := true }) = _
  rw [hended.mem, hended.rel, hended.vault, hended.pins]

end Functions

/-! ### The reset of the device -/

/-- A reset in service leaves the device in reset and not ready, by its level (R680 to R683). -/
def State.inReset (s : State) (lvl : Nat) : State :=
  let s := (s.wr F.RST_STATUS_IN_RESET 0 1).wr F.RST_STATUS_LAST 0 lvl
  (s.wr F.RST_STATUS_READY 0 0).wr F.RST_LAST_TIME_TIME 0 s.now

/-- The time of the reset runs from its start. -/
def State.resetTimed (s : State) (now : Nat) : State := { s with pins := { s.pins with resetSince := now } }

theorem State.deviceReset_inService {s : State} (hst : s.rd F.RST_STATUS_STAGE 0 = 0) (lvl : Nat) :
    s.deviceReset lvl = ((s.inReset lvl).resetFunctions (lvl == 1)).resetTimed ((s.inReset lvl).resetFunctions (lvl == 1)).now :=
  if_neg (Nat.not_lt.2 (Nat.le_of_eq hst))

theorem State.deviceReset_powerOn {s : State} (hst : s.rd F.RST_STATUS_STAGE 0 ≠ 0) (lvl : Nat) :
    s.deviceReset lvl = if lvl = 2 then s.resetFunctions false else s :=
  if_pos (Nat.pos_of_ne_zero hst)

theorem State.resetFunctions_vault (s : State) (perst : Bool) : (s.resetFunctions perst).vault = s.vault :=
  congrArg (·.2.2.1) (State.resetFunctions_frame (ks := []) (by decide) (by decide) s perst).2

theorem State.deviceReset_vault (s : State) (lvl : Nat) : (s.deviceReset lvl).vault = s.vault := by
  by_cases hst : s.rd F.RST_STATUS_STAGE 0 = 0
  · rw [State.deviceReset_inService hst]
    exact (State.resetFunctions_vault ..).trans rfl
  · rw [State.deviceReset_powerOn hst]
    split
    · exact State.resetFunctions_vault ..
    · rfl

end Sys2Proof.Machine
end

section
/-! PROOFS. Field debug (R621 to R625): the challenge, its response, and the opening on a zeroised device. -/

-- Proofs side by side each take a thread with its stack: together they pass the bound on memory.
set_option Elab.async false

namespace Sys2Proof.Machine

theorem BaseFrame.begun {ks : List Fld} {s₀ s : State} (h : BaseFrame ks s₀ s) {x : Hdr} {op : Nat} {cmd : Instr} {rs : List HostRange}
    (hf : Apart ks doneFlds := by decide) : BaseFrame ks s₀ (s.begun x op cmd rs) := by
  unfold State.begun
  dsimp only
  split
  · exact h.start hf
  · exact (h.start hf).beside rfl rfl

/-- Bytes written to host memory go out in one write, whose lines are counted (R455, R466). -/
theorem BaseFrame.ptrWrite_host {ks : List Fld} {s₀ s : State} (h : BaseFrame ks s₀ s) {fn p ptr : Nat} {bs : List Byte} (hptr : ptrTag ptr = 1)
    (hf : ∀ g ∈ ks, g.id ≠ F.HIF_HOST_WR_LINES_COUNT.id ∧ g.id ≠ F.HIF_HOST_WR_LINES_COUNT.id - 1 := by decide) :
    BaseFrame ks s₀ (s.ptrWrite fn p ptr bs) := by
  unfold State.ptrWrite
  rw [hptr]
  have hsent : BaseFrame ks s₀ (s.emit (.hostWrite fn ptr bs)) := h.beside rfl rfl
  exact hsent.bump hf

/-! ### The challenge -/

/-- The status of a DEBUG_CHALLENGE (R622). -/
def State.challengeStatus (s : State) (h : Hdr) (out : Nat) : Nat :=
  firstStatus [failIf (ptrTag out != 1) 0x401, failIf (out % 64 != 0) 0x201, s.checkPtr h.fn.val 0 out 64 true]

/-- A fresh nonce is kept until its expiry. -/
def State.challenged (s : State) (nonce : List Byte) : State :=
  (({ s with trust := { s.trust with challenge := some (nonce, s.now + 600000000000) } } : State).wr F.RTP_DBG_CHALLENGE 0 1)

theorem execDebugChallenge_issues {s : State} {h : Hdr} {out : Nat} (hbusy : s.rotBusy h opDebugChallenge = false)
    (hgo : s.goes h opDebugChallenge (s.challengeStatus h out)) (hpages : s.untranslated h [⟨out, 64, true⟩] ∨ s.translated h [⟨out, 64, true⟩]) {u : State}
    (hu : s.begun h opDebugChallenge (.debugChallenge h out) [⟨out, 64, true⟩] = u) :
    ∃ bs, execDebugChallenge h out s = .next (((u.tick.challenged (u.random 32).1).ptrWrite h.fn.val 0 out bs).complete h 0) := by
  subst hu
  exact ⟨_, (if_neg (ne_true_of_eq_false hbusy)).trans (congrArg Host.Outcome.next ((State.checked_goes hgo).trans (State.gate_begun hpages)))⟩

/-- The challenge is kept with its expiry, and its bytes change no memory of the device (R622). -/
theorem State.challenged_holds {s u : State} {h : Hdr} {out : Nat} {bs nonce : List Byte} (hptr : ptrTag out = 1)
    (hu : BaseFrame [F.CNT_TIMEBASE_TIME] s u) {t : State} (ht : t = ((u.tick.challenged nonce).ptrWrite h.fn.val 0 out bs).complete h 0) :
    t.trust.challenge = some (nonce, s.now + 600000000000) ∧ t.rd F.RTP_DBG_CHALLENGE 0 = 1 ∧ t.free = s.free + 1 ∧ t.mem = s.mem := by
  have hframe : BaseFrame [F.RTP_DBG_CHALLENGE] (u.tick.challenged nonce) t := ht ▸ ((BaseFrame.refl _).ptrWrite_host hptr).complete
  have hnow : u.now = s.now := hu.rd (by simp) 0 0
  refine ⟨?_, (hframe.rd (by simp) ..).trans State.rd_wr_self, hframe.free.trans (congrArg (· + 1) hu.free), hframe.mem.trans hu.mem⟩
  rw [hframe.trust, ← hnow]
  rfl

theorem State.random_length (s : State) (n : Nat) : (s.random n).1.length = n := by
  simp [State.random]

theorem execDebugChallengeExpiry_none {s : State} (hnone : s.trust.challenge = none) : execDebugChallengeExpiry s = .next s := by
  simp [execDebugChallengeExpiry, hnone]

theorem execDebugChallengeExpiry_some {s : State} {nonce : List Byte} {e : Nat} (hsome : s.trust.challenge = some (nonce, e)) :
    execDebugChallengeExpiry s = .next (if e ≤ s.now then s.dropChallenge else s) := by
  simp [execDebugChallengeExpiry, hsome]

/-! ### The response -/

/-- The status of a DEBUG_RESPONSE before its bytes are read (R623). -/
def State.responseStatus (s : State) (h : Hdr) (tokenK tokenO ownerKeys : Nat) : Nat :=
  firstStatus [failIf ([tokenK, tokenO, ownerKeys].any (fun x => ptrTag x != 1)) 0x401,
    failIf ([tokenK, tokenO, ownerKeys].any (fun x => x % 64 != 0)) 0x2D1, s.checkPtr h.fn.val 0 tokenK 4800 false,
    s.checkPtr h.fn.val 0 tokenO 4800 false, s.ptrStatus h.fn.val 0 ownerKeys 2689 false]

/-- The host ranges that it reads. -/
def responseRanges (tokenK tokenO ownerKeys : Nat) : List HostRange :=
  [⟨tokenK, 4800, false⟩, ⟨tokenO, 4800, false⟩, ⟨ownerKeys, 2689, false⟩]

/-- What a DEBUG_RESPONSE does with what it has read (R624). -/
def State.respond (s : State) (h : Hdr) (scope tokenK tokenO ownerKeys : Nat) (k o keys : Fetched) : State :=
  match k, o, keys with
  | .ok k, .ok o, .ok keys =>
    let st := s.debugStatus scope k o keys
    if st ≠ 0 then (s.debugFailed st).complete h st else s.openDebug scope
  | .ok _, .ok _, _ => (s.debugFailed 0x414).hostFailed h ownerKeys
  | .ok _, _, _ => (s.debugFailed 0x414).hostFailed h tokenO
  | _, _, _ => (s.debugFailed 0x414).hostFailed h tokenK

theorem execDebugResponse_responds {s : State} {h : Hdr} {scope tokenK tokenO ownerKeys : Nat} {k o keys : Fetched}
    (hbusy : s.rotBusy h opDebugResponse = false) (hgo : s.goes h opDebugResponse (s.responseStatus h tokenK tokenO ownerKeys))
    (hpages : s.untranslated h (responseRanges tokenK tokenO ownerKeys) ∨ s.translated h (responseRanges tokenK tokenO ownerKeys)) {u : State}
    (hu : s.begun h opDebugResponse (.debugResponse h scope tokenK tokenO ownerKeys k o keys) (responseRanges tokenK tokenO ownerKeys) = u) :
    execDebugResponse h scope tokenK tokenO ownerKeys k o keys s = .next (u.respond h scope tokenK tokenO ownerKeys k o keys) := by
  subst hu
  exact (if_neg (ne_true_of_eq_false hbusy)).trans (congrArg Host.Outcome.next ((State.checked_goes hgo).trans (State.gate_begun hpages)))

section Read

variable {s : State} {h : Hdr} {scope tokenK tokenO ownerKeys : Nat} {a b d : List Byte}

theorem State.respond_fails (hst : s.debugStatus scope a b d ≠ 0) : s.respond h scope tokenK tokenO ownerKeys (.ok a) (.ok b) (.ok d) =
    (s.debugFailed (s.debugStatus scope a b d)).complete h (s.debugStatus scope a b d) := if_pos hst

theorem State.respond_opens (hst : s.debugStatus scope a b d = 0) :
    s.respond h scope tokenK tokenO ownerKeys (.ok a) (.ok b) (.ok d) = s.openDebug scope := if_neg (not_not_intro hst)

end Read

/-- The challenge is consumed, the epoch rises and the scope waits for its opening (R624). -/
def State.debugAccepted (s : State) (scope : Nat) : State :=
  let s' := s.dropChallenge
  { s' with trust := { s'.trust with debugEpoch := s.trust.debugEpoch + 1, opening := some scope } }

theorem State.openDebug_eq (s : State) (scope : Nat) : s.openDebug scope = (((((s.debugAccepted scope).wr F.RTP_DBG_DEBUG_EPOCH 0
    (s.trust.debugEpoch + 1)).wr F.RTP_DBG_SCOPE 0 scope).wr F.RTP_DEV_DEBUG_OPEN 0 1).cutLinks).deviceReset 2 := rfl

/-- The links and the reset that follow touch none of it. -/
theorem State.openDebug_vault (s : State) (scope : Nat) : (s.openDebug scope).vault = (s.debugAccepted scope).vault := by
  rw [State.openDebug_eq, State.deviceReset_vault]
  exact (CoreFrame.cutLinks (ks := []) (.refl _) (by decide)).vault

theorem State.debug_of_vault {s t : State} (h : t.vault = s.vault) : t.trust.debugEpoch = s.trust.debugEpoch ∧
    t.trust.opening = s.trust.opening ∧ t.trust.challenge = s.trust.challenge :=
  ⟨show t.vault.debugEpoch = s.vault.debugEpoch from congrArg Trust.debugEpoch h, show t.vault.opening = s.vault.opening from congrArg Trust.opening h,
    show t.vault.challenge = s.vault.challenge from congrArg Trust.challenge h⟩

/-! ### The opening -/

theorem execDebugZeroiseDone_waits {s : State} (hwait : s.trust.opening = none ∨ ∃ p < 16, s.pdkState p ≠ pdkFree) :
    execDebugZeroiseDone s = .next s := by
  refine if_pos (hwait.imp Option.isNone_iff_eq_none.2 fun ⟨p, hp, hfree⟩ => ?_)
  exact List.any_eq_true.2 ⟨p, List.mem_range.2 hp, bne_iff_ne.2 hfree⟩

/-- The opening is done. -/
def State.openingDone (s : State) : State := { s with trust := { s.trust with opening := none } }

theorem State.openingDone_opening (s : State) : s.openingDone.trust.opening = none := rfl
theorem State.openingDone_regs (s : State) : s.openingDone.regs = s.regs := rfl
theorem State.openingDone_mem (s : State) : s.openingDone.mem = s.mem := rfl

/-- The reserved region of every group is zeroised (R624). -/
def State.zeroReserved (s : State) (n : Nat) : State := loopN n (fun p s => s.zeroHbm (dpaOf p localEnd) (0x600000000 - localEnd)) s

theorem State.zeroReserved_regs (s : State) : ∀ n, (s.zeroReserved n).regs = s.regs
  | 0 => rfl
  | n + 1 => by
    unfold State.zeroReserved
    rw [loopN_succ]
    exact s.zeroReserved_regs n

theorem State.zeroReserved_get (s : State) {p a : Nat} (ha : dpaOf p localEnd ≤ a ∧ a < dpaOf p localEnd + (0x600000000 - localEnd)) :
    ∀ {n : Nat}, p < n → mget (s.zeroReserved n).mem.hbm a = memDefault
  | n + 1, hp => by
    have hstep : mget (s.zeroReserved (n + 1)).mem.hbm a =
        if dpaOf n localEnd ≤ a ∧ a < dpaOf n localEnd + (0x600000000 - localEnd) then memDefault else mget (s.zeroReserved n).mem.hbm a := by
      unfold State.zeroReserved
      rw [loopN_succ]
      exact mget_mzero
    rw [hstep]
    rcases Nat.lt_succ_iff_lt_or_eq.1 hp with hlt | rfl
    · rw [s.zeroReserved_get ha hlt, ite_self]
    · exact if_pos ha

theorem execDebugZeroiseDone_opens {s : State} {scope : Nat} (hopen : s.trust.opening = some scope) (hfree : ∀ p < 16, s.pdkState p = pdkFree) :
    execDebugZeroiseDone s = .next (s.zeroReserved 16).openingDone := by
  refine if_neg (not_or_intro (by simp [hopen]) ?_)
  simpa using hfree

/-- Settles O52: the challenge, its expiry, its response and the opening, each by its own lemma. -/
theorem fieldDebug : Obligations.FieldDebug := by
  unfold Obligations.FieldDebug
  refine fun s h => ⟨fun out hbusy hgo hpages => ?_, execDebugChallengeExpiry_none, fun nonce e hsome => ⟨fun he => ?_, fun he => ?_⟩,
    fun scope tokenK tokenO ownerKeys k o keys hbusy hgo hpages u hu => ?_, execDebugZeroiseDone_waits, fun scope hopen hfree => ?_⟩
  · have hptr : ptrTag out = 1 := by
      have hstatus := firstStatus_eq_zero.1 hgo.2.2.2.2 _ (List.mem_cons_self ..)
      simpa [failIf] using hstatus
    obtain ⟨bs, hexec⟩ := execDebugChallenge_issues hbusy hgo hpages rfl
    exact ⟨_, _, hexec, State.random_length .., State.challenged_holds hptr (BaseFrame.refl s).begun rfl⟩
  · exact (execDebugChallengeExpiry_some hsome).trans (congrArg _ (if_neg (Nat.not_le.2 he)))
  · exact ⟨_, (execDebugChallengeExpiry_some hsome).trans (congrArg _ (if_pos he)), rfl, State.rd_wr_self, onlyRegs_wr onlyRegs_refl (List.mem_singleton_self _)⟩
  · have hexec := execDebugResponse_responds (k := k) (o := o) (keys := keys) hbusy hgo hpages hu
    have htrust : u.trust = s.trust := hu ▸ ((BaseFrame.refl (ks := []) s).begun (by decide)).trust
    refine ⟨fun a b d hk ho hkeys => ⟨fun hst => ?_, fun hst => ?_⟩, fun hk => ?_, fun a hk ho => ?_, fun a b hk ho hkeys => ?_⟩
    · subst hk ho hkeys
      exact hexec.trans (congrArg _ (State.respond_fails hst))
    · subst hk ho hkeys
      obtain ⟨hepoch, hopening, hchallenge⟩ := State.debug_of_vault (u.openDebug_vault scope)
      exact ⟨_, hexec.trans (congrArg _ (State.respond_opens hst)), rfl, hepoch.trans (by rw [← htrust]; rfl), hopening, hchallenge⟩
    · subst hk
      exact hexec
    · subst hk ho
      exact hexec
    · subst hk ho hkeys
      exact hexec
  · refine ⟨_, execDebugZeroiseDone_opens hopen hfree, State.openingDone_opening _, (State.openingDone_regs _).trans (s.zeroReserved_regs 16),
      fun p hp a hlo hhi => ?_⟩
    rw [State.openingDone_mem]
    exact State.zeroReserved_get s ⟨hlo, hhi⟩ hp

end Sys2Proof.Machine
end

section
/-! PROOFS. KILL_N (R619, R709), the core clock (R678), and the fatal causes (R668 to R670, R675, R704, R714). -/

-- Proofs side by side each take a thread with its stack: together they pass the bound on memory.
set_option Elab.async false

namespace Sys2Proof.Machine

/-! ### KILL_N -/

theorem execKillNAssert_ignored {s : State} {ns : Nat} (hout : s.pins.pwrgd = false ∨ s.rd F.RST_STATUS_STAGE 0 = 1 ∨ s.rd F.RST_STATUS_STAGE 0 = 2 ∨
    s.pins.killN = false ∨ ns < 200) : execKillNAssert ns s = .next s :=
  if_pos hout

/-- KILL_N is low and shows its level (R709). -/
def State.killLow (s : State) : State := ({ s with pins := { s.pins with killN := false } } : State).wr F.RST_STATUS_KILL_N_LEVEL 0 1

/-- A low of a microsecond registers; it kills unless a reset is under way (R684, R709). -/
theorem execKillNAssert_registers {s : State} {ns : Nat} (hpwr : s.pins.pwrgd = true) (hone : s.rd F.RST_STATUS_STAGE 0 ≠ 1)
    (htwo : s.rd F.RST_STATUS_STAGE 0 ≠ 2) (hkill : s.pins.killN = true) (hns : 1000 ≤ ns) :
    execKillNAssert ns s = .next (if s.killLow.rd F.RST_STATUS_IN_RESET 0 = 1 then s.killLow else s.killLow.kill) := by
  have hpass : ¬(s.pins.pwrgd = false ∨ s.rd F.RST_STATUS_STAGE 0 = 1 ∨ s.rd F.RST_STATUS_STAGE 0 = 2 ∨ s.pins.killN = false ∨ ns < 200) := by
    simp only [hpwr, hone, htwo, hkill, Bool.true_eq_false, false_or]
    omega
  have hlong : ¬ns < 1000 := Nat.not_lt.2 hns
  refine (if_neg hpass).trans ?_
  simp only [hns, hlong, decide_true, Bool.true_or, if_true, if_false]
  rfl

/-! ### The core clock -/

/-- Whether CORE_SEL may change: every paddock is FREE or OFFLINE (R678). -/
def State.clockIdle (s : State) : Bool := (List.range 16).all (fun p => s.pdkState p == pdkFree || s.pdkState p == pdkOffline)

theorem State.clockIdle_iff {s : State} : s.clockIdle = true ↔ ∀ p < 16, s.pdkState p = pdkFree ∨ s.pdkState p = pdkOffline := by
  simp [State.clockIdle]

theorem execCoreSelWrite_refused {s : State} {v : Nat} (hused : (∃ p < 16, s.pdkState p ≠ pdkFree ∧ s.pdkState p ≠ pdkOffline) ∨ s.rel.tests ≠ []) :
    execCoreSelWrite v s = .next (s.wr F.CLK_CFG_REFUSED 0 1) := by
  refine if_pos (hused.imp_left fun ⟨p, hp, hfree, hoff⟩ => ?_)
  refine Bool.eq_false_iff.2 fun hidle => ?_
  exact (State.clockIdle_iff.1 hidle p hp).elim hfree hoff

/-- Both core PLLs unlock, or lock again. -/
def State.corePlls (s : State) (on : Bool) : State := (s.setLock 0 on).setLock 1 on

theorem State.corePlls_onlyRegs (s : State) (on : Bool) : OnlyRegs s (s.corePlls on) [F.CLK_STAT_LOCK] :=
  onlyRegs_wr (onlyRegs_wr onlyRegs_refl (List.mem_singleton_self _)) (List.mem_singleton_self _)

theorem State.corePlls_lock (s : State) (on : Bool) : hasBit ((s.corePlls on).rd F.CLK_STAT_LOCK 0) 0 = on ∧ hasBit ((s.corePlls on).rd F.CLK_STAT_LOCK 0) 1 = on := by
  have hrd : ∀ (u : State) (b : Nat), (u.setLock b on).rd F.CLK_STAT_LOCK 0 =
      (if on then setBit (u.rd F.CLK_STAT_LOCK 0) b else clrBit (u.rd F.CLK_STAT_LOCK 0) b) % 2 ^ 8 := fun u b => State.rd_wr_self
  unfold State.corePlls
  rw [hrd, hrd]
  generalize s.rd F.CLK_STAT_LOCK 0 = m
  cases on
  · simp only [Bool.false_eq_true, if_false, hasBit, clrBit, beq_iff_eq, beq_eq_false_iff_ne]
    split_ifs <;> omega
  · simp only [if_true, hasBit, setBit, beq_iff_eq]
    split_ifs <;> omega

section Sel

variable {s : State} {v : Nat} (hidle : ∀ p < 16, s.pdkState p = pdkFree ∨ s.pdkState p = pdkOffline) (htests : s.rel.tests = [])
include hidle htests

theorem execCoreSelWrite_same (hsame : v % 4 = s.rd F.CLK_CFG_CORE_SEL 0) : execCoreSelWrite v s = .next s := by
  refine (if_neg (not_or_intro (ne_false_of_eq_true (State.clockIdle_iff.2 hidle)) (not_not_intro htests))).trans (if_pos hsame)

/-- The new selection relocks both core PLLs (R678). -/
theorem execCoreSelWrite_relocks (hother : v % 4 ≠ s.rd F.CLK_CFG_CORE_SEL 0) : execCoreSelWrite v s =
    .next ((((s.wr F.CLK_CFG_CORE_SEL 0 v).wr F.CLK_STAT_RELOCKING 0 1).corePlls false).bump F.CLK_RELOCK_COUNT 0) :=
  (if_neg (not_or_intro (ne_false_of_eq_true (State.clockIdle_iff.2 hidle)) (not_not_intro htests))).trans (if_neg hother)

end Sel

theorem onlyRegs_bump {s t : State} {fs : List Fld} {f : Fld} {i j n : Nat} (h : OnlyRegs s t fs) (hf : f ∈ fs) (hovf : ovfOf f ∈ fs) :
    OnlyRegs s (t.bump f i j n) fs :=
  onlyRegs_ite (onlyRegs_wr (onlyRegs_wr h hf) hovf) (onlyRegs_wr h hf)

/-- The registers of a relock (R678). -/
def relockFlds : List Fld := [F.CLK_CFG_CORE_SEL, F.CLK_STAT_RELOCKING, F.CLK_STAT_LOCK, F.CLK_RELOCK_COUNT, ovfOf F.CLK_RELOCK_COUNT]

/-- A relock starts with the new selection and both PLLs unlocked, and is counted. -/
theorem State.relock_starts (s : State) (v : Nat) {t : State}
    (ht : t = (((s.wr F.CLK_CFG_CORE_SEL 0 v).wr F.CLK_STAT_RELOCKING 0 1).corePlls false).bump F.CLK_RELOCK_COUNT 0) :
    t.rd F.CLK_CFG_CORE_SEL 0 = v % 4 ∧ t.rd F.CLK_STAT_RELOCKING 0 = 1 ∧
      hasBit (t.rd F.CLK_STAT_LOCK 0) 0 = false ∧ hasBit (t.rd F.CLK_STAT_LOCK 0) 1 = false ∧
      t.rd F.CLK_RELOCK_COUNT 0 = min (s.rd F.CLK_RELOCK_COUNT 0 + 1) maxCount ∧ OnlyRegs s t relockFlds := by
  let a := (s.wr F.CLK_CFG_CORE_SEL 0 v).wr F.CLK_STAT_RELOCKING 0 1
  have ha : OnlyRegs s a relockFlds := onlyRegs_wr (onlyRegs_wr onlyRegs_refl (by simp [relockFlds])) (by simp [relockFlds])
  have hplls := a.corePlls_onlyRegs false
  have hlock : t.rd F.CLK_STAT_LOCK 0 = (a.corePlls false).rd F.CLK_STAT_LOCK 0 := ht ▸ State.rd_bump_fld (by decide) (by decide)
  obtain ⟨hzero, hone⟩ := a.corePlls_lock false
  subst ht
  refine ⟨?_, ?_, hlock ▸ hzero, hlock ▸ hone, ?_, ?_⟩
  · rw [State.rd_bump_fld (by decide) (by decide), hplls.2 _ _ _ (by decide)]
    exact (State.rd_wr_fld (by decide)).trans State.rd_wr_self
  · rw [State.rd_bump_fld (by decide) (by decide), hplls.2 _ _ _ (by decide)]
    exact State.rd_wr_self
  · rw [State.rd_bump_self rfl (by decide), hplls.2 _ _ _ (by decide), State.rd_wr_fld (by decide), State.rd_wr_fld (by decide)]
  · exact onlyRegs_bump (ha.andThen hplls (by simp [relockFlds])) (by simp [relockFlds]) (by simp [relockFlds])

/-- The core clock that the selection names (R678). -/
def coreMhz (sel : Nat) : Nat := nth [1900, 1800, 1700, 1600] sel

theorem coreMhz_lt (sel : Nat) : coreMhz sel < 2 ^ 11 := by
  match sel with
  | 0 | 1 | 2 | 3 => decide
  | n + 4 => exact Nat.lt_of_le_of_lt (Nat.le_of_eq (by simp [coreMhz, nth])) (by decide : (0 : Nat) < 2 ^ 11)

theorem execCorePllRelockDone_locks {s : State} (hon : s.rd F.CLK_STAT_RELOCKING 0 ≠ 0) : execCorePllRelockDone s =
    .next (((s.wr F.CLK_STAT_RELOCKING 0 0).wr F.CLK_STAT_CORE_MHZ 0 (coreMhz (s.rd F.CLK_CFG_CORE_SEL 0))).corePlls true) :=
  if_neg hon

/-- The relock is done: both PLLs run at the selected clock. -/
theorem State.relock_done (s : State) {t : State} (ht : t = (((s.wr F.CLK_STAT_RELOCKING 0 0).wr F.CLK_STAT_CORE_MHZ 0
    (coreMhz (s.rd F.CLK_CFG_CORE_SEL 0))).corePlls true)) : t.rd F.CLK_STAT_RELOCKING 0 = 0 ∧
    t.rd F.CLK_STAT_CORE_MHZ 0 = coreMhz (s.rd F.CLK_CFG_CORE_SEL 0) ∧ hasBit (t.rd F.CLK_STAT_LOCK 0) 0 = true ∧
    hasBit (t.rd F.CLK_STAT_LOCK 0) 1 = true ∧ OnlyRegs s t [F.CLK_STAT_RELOCKING, F.CLK_STAT_CORE_MHZ, F.CLK_STAT_LOCK] := by
  have hplls : OnlyRegs _ t _ := ht ▸ State.corePlls_onlyRegs _ true
  have hlock := State.corePlls_lock ((s.wr F.CLK_STAT_RELOCKING 0 0).wr F.CLK_STAT_CORE_MHZ 0 (coreMhz (s.rd F.CLK_CFG_CORE_SEL 0))) true
  rw [← ht] at hlock
  refine ⟨?_, ?_, hlock.1, hlock.2, ?_⟩
  · exact (hplls.2 _ _ _ (by decide)).trans ((State.rd_wr_fld (by decide)).trans State.rd_wr_self)
  · exact (hplls.2 _ _ _ (by decide)).trans (State.rd_wr_self.trans (Nat.mod_eq_of_lt (coreMhz_lt _)))
  · exact (onlyRegs_wr (onlyRegs_wr onlyRegs_refl (by simp)) (by simp)).andThen hplls (by simp)

/-- Settles O58: KILL_N by what its low registers, the core clock by its relock. -/
theorem killAndCoreClock : Obligations.KillAndCoreClock := by
  unfold Obligations.KillAndCoreClock
  refine fun s => ⟨fun ns hout => execKillNAssert_ignored hout, fun ns hpwr hone htwo hkill hns u hu => ?_,
    ⟨_, rfl, rfl, State.rd_wr_self, State.rd_wr_fld (by decide), rfl, rfl⟩, fun v hused => ⟨_, execCoreSelWrite_refused hused, sets_wr rfl⟩,
    fun v hidle htests => ⟨execCoreSelWrite_same hidle htests, fun hother => ⟨_, execCoreSelWrite_relocks hidle htests hother, State.relock_starts s v rfl⟩⟩,
    fun hoff => if_pos hoff, fun hon => ⟨_, execCorePllRelockDone_locks hon, State.relock_done s rfl⟩⟩
  have hexec := execKillNAssert_registers hpwr hone htwo hkill hns
  have hreset : s.killLow.rd F.RST_STATUS_IN_RESET 0 = s.rd F.RST_STATUS_IN_RESET 0 := State.rd_wr_fld (by decide)
  rw [hreset] at hexec
  subst hu
  exact ⟨State.rd_wr_self, fun hin => hexec.trans (congrArg _ (if_pos hin)),
    fun hin => ⟨_, hexec.trans (congrArg _ (if_neg (by rw [hin]; decide))), rfl, State.kill_killed _⟩⟩

/-! ### The fatal state -/

section Fatal

variable {s : State} {cause unit : Nat}

theorem State.enterFatal_stays (hstay : s.rd F.HIF_FATAL_FATAL 0 = 1 ∨ s.pins.pwrgd = false) : s.enterFatal cause unit = s := if_pos hstay

/-- The record of the entry (R668). -/
def State.fatalNoted (s : State) (cause unit : Nat) : State :=
  let s := (s.wr F.HIF_FATAL_FATAL 0 1).satAdd F.HIF_FATAL_ENTRIES 0
  let s := (s.wr F.HIF_FATAL_LAST_CAUSE 0 cause).wr F.HIF_FATAL_UNIT 0 unit
  s.wr F.HIF_FATAL_TIME_TIME 0 s.now

theorem State.fatalNoted_rd (s : State) (cause unit : Nat) : (s.fatalNoted cause unit).rd F.HIF_FATAL_FATAL 0 = 1 ∧
    (s.fatalNoted cause unit).rd F.HIF_FATAL_LAST_CAUSE 0 = cause % 2 ^ 16 ∧ (s.fatalNoted cause unit).rd F.HIF_FATAL_UNIT 0 = unit % 2 ^ 16 ∧
    (s.fatalNoted cause unit).rd F.HIF_FATAL_TIME_TIME 0 = s.now % 2 ^ 64 := by
  unfold State.fatalNoted State.satAdd
  dsimp only
  refine ⟨?_, ?_, ?_, State.rd_wr_self.trans (congrArg (· % 2 ^ 64) ?_)⟩
  · simp (disch := decide) only [State.rd_wr_fld]
    exact State.rd_wr_self
  · simp (disch := decide) only [State.rd_wr_fld]
    exact State.rd_wr_self
  · simp (disch := decide) only [State.rd_wr_fld]
    exact State.rd_wr_self
  · unfold State.now
    simp (disch := decide) only [State.rd_wr_fld]

/-- The end of every command leaves the registers of `ks` and ends the self-tests (R669). -/
theorem State.endAll_flds {ks : List Fld} (s : State) (hf : Apart ks doneFlds := by decide) : SameFlds ks s s.endAll := by
  have hended : SameFlds ks s (s.taken.foldl (fun s t =>
      if t.h.cid = 4096 ∨ s.fatalSilent t.h.fn.val = true then s.dropTaken t.h else s.complete t.h 0xF00) s) :=
    (SameFlds.refl s).foldl fun _ _ hu => (hu.dropTaken hf).ite (hu.complete hf)
  exact hended.beside rfl

theorem State.endAll_pins (s : State) : s.endAll.pins = s.pins := by
  have hended : BaseFrame [] s (s.taken.foldl (fun s t =>
      if t.h.cid = 4096 ∨ s.fatalSilent t.h.fn.val = true then s.dropTaken t.h else s.complete t.h 0xF00) s) :=
    (BaseFrame.refl s).foldl fun u x hu => (hu.trans ⟨(SameFlds.refl u).dropTaken (by decide), by simp [State.base]⟩).ite (hu.complete (by decide))
  exact hended.pins

/-- The fields of PDK_CORES. -/
def physFlds : List Fld := (List.range 8).map physFld

theorem State.defaultCores_onlyRegs (s : State) : OnlyRegs s s.defaultCores physFlds :=
  onlyRegs_loopN onlyRegs_refl fun c _ hu => onlyRegs_wr hu (List.mem_map_of_mem (List.mem_range.2 (Nat.mod_lt c (by decide))))

/-- The fields of the fatal state that an entry writes before everything ends. -/
def fatalFlds : List Fld := [F.HIF_FATAL_FATAL, F.HIF_FATAL_LAST_CAUSE, F.HIF_FATAL_UNIT, F.HIF_FATAL_TIME_TIME]

/-- An entry records its cause and unit once, ends the power-on and the self-tests, and pulls ALERT_N low (R668 to R670). -/
theorem State.enterFatal_enters (hfatal : s.rd F.HIF_FATAL_FATAL 0 = 0) (hpwr : s.pins.pwrgd = true) {t : State} (ht : s.enterFatal cause unit = t) :
    SameFlds fatalFlds (s.fatalNoted cause unit) t ∧ t.rd F.RST_STATUS_STAGE 0 = 0 ∧ t.pins.alertN = false ∧ t.pins.pwrgd = true ∧ t.rel.tests = [] := by
  subst ht
  unfold State.enterFatal
  rw [if_neg (by simp [hfatal, hpwr])]
  extract_lets a b c st d e f g
  have hb : b.wr F.HIF_FATAL_TIME_TIME 0 b.now = s.fatalNoted cause unit := rfl
  have hnoted : (s.fatalNoted cause unit).pins.pwrgd = true := hpwr
  have hc : c = (s.fatalNoted cause unit).endAll.cutLinks := congrArg (fun u => u.endAll.cutLinks) hb
  clear_value c
  generalize s.fatalNoted cause unit = n at hc hnoted
  have hframe : CoreFrame fatalFlds n.endAll c := hc ▸ (CoreFrame.refl _).cutLinks
  have hd : CoreFrame fatalFlds n.endAll d := ((hframe.onlyRegs (State.defaultCores_onlyRegs c)).ite hframe)
  clear_value d
  have he : CoreFrame fatalFlds n.endAll e := hd.onlyRegs (onlyRegs_wr onlyRegs_refl (List.mem_singleton_self _))
  have hstage : e.rd F.RST_STATUS_STAGE 0 = 0 := State.rd_wr_self
  refine ⟨(n.endAll_flds.trans he.flds).beside rfl, hstage, rfl, ?_, ?_⟩
  · exact (congrArg Pins.pwrgd (he.pins.trans n.endAll_pins)).trans hnoted
  · exact congrArg Rel.tests he.rel

end Fatal

/-! ### The causes -/

/-- The loss of the host link's PLL: its lock bit falls and the link is down (R675). -/
theorem execSerdesPllLoss_host (s : State) {t : State} (ht : t = (s.setLock 6 false).hostLink 0 0) : t.rd F.HIF_LINK_SPEED 0 = 0 ∧
    t.rd F.HIF_LINK_WIDTH 0 = 0 ∧ hasBit (t.rd F.CLK_STAT_LOCK 0) 6 = false ∧ t.mem = s.mem := by
  have hlock : t.rd F.CLK_STAT_LOCK 0 = clrBit (s.rd F.CLK_STAT_LOCK 0) 6 % 2 ^ 8 := by
    subst ht
    unfold State.hostLink
    rw [if_pos rfl]
    simp (disch := decide) only [State.rd_wr_fld]
    exact State.rd_wr_self
  have hmem : t.mem = s.mem := ht ▸ (State.hostLink_onlyRegs ..).mem
  refine ⟨ht ▸ State.hostLink_speed, ht ▸ State.hostLink_width, ?_, hmem⟩
  rw [hlock]
  simp only [hasBit, clrBit, beq_iff_eq, beq_eq_false_iff_ne]
  split_ifs <;> omega

theorem execThermalTrip_die {s : State} {sensor : Fin 11} {celsius : Nat} (hdie : sensor.val < 3) :
    execThermalTrip sensor celsius s = if celsius < 110 then .next s else .next (s.enterFatal 0xF03 sensor.val) := by
  simp [execThermalTrip, hdie]

theorem execThermalTrip_stack {s : State} {sensor : Fin 11} {celsius : Nat} (hstack : 3 ≤ sensor.val) :
    execThermalTrip sensor celsius s = if celsius < 100 then .next s else .next (s.enterFatal 0xF03 (sensor.val + 13)) := by
  have hunit : 0x10 + (sensor.val - 3) = sensor.val + 13 := by omega
  simp [execThermalTrip, Nat.not_lt.2 hstack, hunit]

/-- Settles O56: the entry by what it records, each cause by its own equation. -/
theorem fatalCauses : Obligations.FatalCauses := by
  unfold Obligations.FatalCauses
  refine fun s => ⟨fun _ _ hstay => State.enterFatal_stays hstay, fun cause unit t hfatal hpwr ht => ?_, fun _ _ => rfl,
    fun clock => ⟨fun hclock => if_pos hclock, fun hclock hoff => (if_neg hclock).trans (if_neg (ne_true_of_eq_false hoff)),
      fun hclock hon => (if_neg hclock).trans (if_pos hon)⟩,
    fun link => ⟨fun hpod => ?_, fun hfar hhost => ?_, fun hhost => ⟨_, if_pos hhost, execSerdesPllLoss_host s rfl⟩⟩, fun _ => rfl, rfl,
    fun sensor celsius => ⟨fun hdie => ⟨fun hlow => ?_, fun htrip => ?_⟩, fun hstack => ⟨fun hlow => ?_, fun htrip => ?_⟩⟩⟩
  · obtain ⟨hflds, hstage, halert, hon, htests⟩ := State.enterFatal_enters hfatal hpwr ht
    obtain ⟨hone, hcause, hunit, htime⟩ := s.fatalNoted_rd cause unit
    exact ⟨(hflds _ (by simp [fatalFlds]) ..).trans hone, (hflds _ (by simp [fatalFlds]) ..).trans hcause, (hflds _ (by simp [fatalFlds]) ..).trans hunit,
      (hflds _ (by simp [fatalFlds]) ..).trans htime, hstage, halert, hon, htests⟩
  · exact (if_neg (by omega)).trans (if_pos hpod)
  · exact (if_neg (by omega)).trans (if_neg (Nat.not_lt.2 hfar))
  · exact (execThermalTrip_die hdie).trans (if_pos hlow)
  · exact (execThermalTrip_die hdie).trans (if_neg (Nat.not_lt.2 htrip))
  · exact (execThermalTrip_stack hstack).trans (if_pos hlow)
  · exact (execThermalTrip_stack hstack).trans (if_neg (Nat.not_lt.2 htrip))

end Sys2Proof.Machine
end

section
/-! PROOFS. Resets, power-on and power-down (R680 to R691). -/

-- Proofs side by side each take a thread with its stack: together they pass the bound on memory.
set_option Elab.async false

namespace Sys2Proof.Machine

/-! ### A handover that is forced -/

/-- A forced handover begins in every state (R682). -/
theorem State.startHandover_forced_pdkState (s : State) (p q : Nat) (toFree flr : Bool) :
    (s.startHandover p toFree flr true).pdkState q = if q = p then pdkHandover else s.pdkState q := by
  unfold State.startHandover
  extract_lets st a t b c d _
  by_cases hst : st = pdkHandover
  · have ha : a.pdkState q = if q = p then pdkHandover else s.pdkState q := by
      refine (State.rd_wr_fld (by decide)).trans (ite_eq_right_iff.2 fun hq => ?_).symm
      rw [hq]
      exact hst.symm
    rw [if_pos hst]
    split <;> exact ha
  rw [if_neg hst, if_neg (fun hforce => Bool.noConfusion hforce.2)]
  have ht (r : Nat) : t.pdkState r = if r = p then pdkHandover else s.pdkState r := by
    rw [State.setHand_pdkState, State.wr_pdkState]
    rfl
  have hb : PdkFrame t b := by
    have hw : PdkFrame t (t.wr F.RTP_TDI_STATE_NOT_READY (vfOf p) 1) := (PdkFrame.refl t).wr (by decide)
    refine hw.tdiError ?_ 2
    rw [hw.pdkState, ht, pdkOf_vfOf, if_pos rfl]
    decide
  have hd : PdkFrame t d :=
    (((((hb.endCommands p).stopCores p).stopWalks p).linkDiscard p).wr (by decide)).wr (by decide) |>.wr (by decide)
  clear_value d
  exact ((hd.beside rfl rfl rfl).pdkState q).trans (ht q)

theorem State.handAnew_pdkState (s : State) (fatal : Prop) [Decidable fatal] (p q : Nat) :
    (s.handAnew fatal p).pdkState q = if q = p then pdkHandover else s.pdkState q := by
  have hstart := s.startHandover_forced_pdkState p q true false
  unfold State.handAnew
  extract_lets a
  change a.pdkState q = _ at hstart
  clear_value a
  split <;> exact hstart

theorem loopN_handAnew_pdkState {s : State} {fatal : Prop} [Decidable fatal] {p : Nat} :
    ∀ {n : Nat}, p < n → (loopN n (fun p u => u.handAnew fatal p) s).pdkState p = pdkHandover
  | n + 1, hp => by
    rw [loopN_succ, State.handAnew_pdkState]
    rcases Nat.lt_succ_iff_lt_or_eq.1 hp with hlt | rfl
    · rw [if_neg (Nat.ne_of_lt hlt), loopN_handAnew_pdkState hlt]
    · exact if_pos rfl

theorem State.resetFunctions_pdkState (s : State) (perst : Bool) {p : Nat} (hp : p < 16) : (s.resetFunctions perst).pdkState p = pdkHandover := by
  rw [State.resetFunctions_eq]
  exact loopN_handAnew_pdkState hp

/-! ### A reset in service -/

/-- The registers of RST that a reset of the functions leaves alone. -/
def resetKept : List Fld := [F.RST_STATUS_IN_RESET, F.RST_STATUS_READY, F.RST_STATUS_LAST, F.RST_PERST_COUNT, F.RST_PFFLR_COUNT]

/-- A reset has the device in reset, not ready, with every paddock in HANDOVER and no self-test (R680 to R682). -/
theorem State.deviceReset_resets {s : State} (hst : s.rd F.RST_STATUS_STAGE 0 = 0) {lvl : Nat} {t : State} (ht : t = s.deviceReset lvl) :
    t.rd F.RST_STATUS_IN_RESET 0 = 1 ∧ t.rd F.RST_STATUS_READY 0 = 0 ∧ t.rd F.RST_STATUS_LAST 0 = lvl % 2 ^ 4 ∧
      SameFlds [F.RST_PERST_COUNT, F.RST_PFFLR_COUNT] s t ∧ (∀ p < 16, t.pdkState p = pdkHandover) ∧ t.rel.tests = [] ∧ t.pins.perstN = s.pins.perstN := by
  rw [State.deviceReset_inService hst] at ht
  obtain ⟨hflds, hcore⟩ := State.resetFunctions_frame (ks := resetKept) (by decide) (by decide +kernel) (s.inReset lvl) (lvl == 1)
  have hpdk : ∀ p < 16, ((s.inReset lvl).resetFunctions (lvl == 1)).pdkState p = pdkHandover := fun p hp => State.resetFunctions_pdkState _ _ hp
  generalize (s.inReset lvl).resetFunctions (lvl == 1) = u at *
  have hrd : ∀ f ∈ resetKept, t.rd f 0 = (s.inReset lvl).rd f 0 := fun f hf => ht ▸ hflds f hf 0 0
  have hin : (s.inReset lvl).rd F.RST_STATUS_IN_RESET 0 = 1 ∧ (s.inReset lvl).rd F.RST_STATUS_READY 0 = 0 ∧
      (s.inReset lvl).rd F.RST_STATUS_LAST 0 = lvl % 2 ^ 4 := by
    unfold State.inReset
    dsimp only
    refine ⟨?_, ?_, ?_⟩ <;> simp (disch := decide) only [State.rd_wr_fld] <;> exact State.rd_wr_self
  have hcount : SameFlds [F.RST_PERST_COUNT, F.RST_PFFLR_COUNT] s (s.inReset lvl) := by
    unfold State.inReset
    exact ((((SameFlds.refl s).wr).wr).wr).wr
  obtain ⟨hreset, hready, hlast⟩ := hin
  refine ⟨(hrd _ (by simp [resetKept])).trans hreset, (hrd _ (by simp [resetKept])).trans hready, (hrd _ (by simp [resetKept])).trans hlast,
    hcount.trans fun g hg i j => ?_, fun p hp => ?_, ?_, ?_⟩
  · subst ht
    exact hflds g (by simp only [List.mem_cons, List.not_mem_nil, or_false] at hg; rcases hg with rfl | rfl <;> simp [resetKept]) i j
  · subst ht
    exact hpdk p hp
  · subst ht
    exact congrArg (fun x => x.2.1.tests) hcore
  · subst ht
    exact congrArg (fun x => x.2.2.2.perstN) hcore

/-! ### PERST_N and the FLRs -/

section Perst

variable {s : State}

/-- PERST_N is low. -/
def State.perstLow (s : State) : State := { s with pins := { s.pins with perstN := false } }

theorem execPerstNAssert_falls (hhigh : s.pins.perstN = true) (hpwr : s.pins.pwrgd = true) : execPerstNAssert s = .next
    ((if s.perstLow.rd F.RST_STATUS_STAGE 0 = 0 then s.perstLow.bump F.RST_PERST_COUNT 0 else s.perstLow).deviceReset 1) :=
  if_neg (by simp [hhigh, hpwr])

theorem execPerstNAssert_service (hhigh : s.pins.perstN = true) (hpwr : s.pins.pwrgd = true) (hst : s.rd F.RST_STATUS_STAGE 0 = 0) :
    execPerstNAssert s = .next ((s.perstLow.bump F.RST_PERST_COUNT 0).deviceReset 1) := by
  have hlow : s.perstLow.rd F.RST_STATUS_STAGE 0 = 0 := hst
  rw [execPerstNAssert_falls hhigh hpwr, if_pos hlow]

/-- During a power-on PERST_N is noted alone (R684). -/
theorem execPerstNAssert_powerOn (hhigh : s.pins.perstN = true) (hpwr : s.pins.pwrgd = true) (hst : s.rd F.RST_STATUS_STAGE 0 ≠ 0) :
    execPerstNAssert s = .next s.perstLow := by
  have hlow : s.perstLow.rd F.RST_STATUS_STAGE 0 ≠ 0 := hst
  rw [execPerstNAssert_falls hhigh hpwr, if_neg hlow, State.deviceReset_powerOn hlow, if_neg (by decide)]

/-- PERST_N is high, and the time of the reset runs from here (R683). -/
def State.perstHigh (s : State) : State := { s with pins := { s.pins with perstN := true, resetSince := s.now } }

theorem execPerstNDeassert_rises (hlow : s.pins.perstN = false) (hpwr : s.pins.pwrgd = true) : execPerstNDeassert s = .next
    (if 1 ≤ s.rd F.RST_STATUS_STAGE 0 ∧ s.rd F.RST_STATUS_STAGE 0 ≤ 5 then s.perstHigh.wr F.RST_STATUS_EARLY_PERST 0 1 else s.perstHigh) :=
  if_neg (by simp [hlow, hpwr])

/-- A VF FLR is counted, and hands over a paddock that a tenant holds (R27, R31, R456). -/
theorem State.vfFlr_hands (p : Nat) : (s.vfFlr p).rd F.RST_VFFLR_COUNT 0 = min (s.rd F.RST_VFFLR_COUNT 0 + 1) maxCount ∧
    ((s.pdkState p = pdkAssigned ∨ s.pdkState p = pdkActive ∨ s.pdkState p = pdkQuiesced) → (s.vfFlr p).pdkState p = pdkHandover) := by
  unfold State.vfFlr
  extract_lets c a
  have ha : a.rd F.RST_VFFLR_COUNT 0 = min (s.rd F.RST_VFFLR_COUNT 0 + 1) maxCount := State.rd_bump_self rfl (by decide)
  have hstate : a.pdkState p = s.pdkState p := State.rd_bump_fld (by decide) (by decide)
  clear_value a
  refine ⟨((CoreFrame.refl a).startHandover p false true false).rd (List.mem_singleton_self F.RST_VFFLR_COUNT) .. |>.trans ha, fun hheld => ?_⟩
  rw [State.startHandover_pdkState, hstate, if_pos]
  refine ⟨rfl, ?_, ?_⟩ <;> rcases hheld with h | h | h <;> rw [h] <;> decide

end Perst

/-! ### The end of a reset and of power-on -/

section Ready

variable {s : State}

/-- No enable waits for READY. -/
def State.heldDone (s : State) : State := { s with host := { s.host with held := [] } }

theorem State.becomeReady_eq (hkill : s.pins.killN = true) (hheld : s.host.held = []) :
    s.becomeReady = ((s.wr F.RST_STATUS_READY 0 1).wr F.RST_STATUS_IN_RESET 0 0).heldDone := by
  have hsample : ((s.wr F.RST_STATUS_READY 0 1).wr F.RST_STATUS_IN_RESET 0 0).sampleKill = (s.wr F.RST_STATUS_READY 0 1).wr F.RST_STATUS_IN_RESET 0 0 :=
    if_pos hkill
  have hl : ((s.wr F.RST_STATUS_READY 0 1).wr F.RST_STATUS_IN_RESET 0 0).host.held = [] := hheld
  unfold State.becomeReady
  rw [hsample, State.applyHeld, hl]
  rfl

/-- The end of every reset: READY, no longer in reset (R684). -/
theorem State.becomeReady_frame (hkill : s.pins.killN = true) (hheld : s.host.held = []) : s.becomeReady.rd F.RST_STATUS_READY 0 = 1 ∧
    s.becomeReady.rd F.RST_STATUS_IN_RESET 0 = 0 ∧ SameFlds [F.RST_STATUS_STAGE, F.HIF_LINK_WIDTH] s s.becomeReady ∧ s.becomeReady.mem = s.mem := by
  rw [State.becomeReady_eq hkill hheld]
  have hin : ((s.wr F.RST_STATUS_READY 0 1).wr F.RST_STATUS_IN_RESET 0 0).rd F.RST_STATUS_IN_RESET 0 = 0 := State.rd_wr_self
  have hready : ((s.wr F.RST_STATUS_READY 0 1).wr F.RST_STATUS_IN_RESET 0 0).rd F.RST_STATUS_READY 0 = 1 := (State.rd_wr_fld (by decide)).trans State.rd_wr_self
  have hflds : SameFlds [F.RST_STATUS_STAGE, F.HIF_LINK_WIDTH] s ((s.wr F.RST_STATUS_READY 0 1).wr F.RST_STATUS_IN_RESET 0 0) :=
    ((SameFlds.refl s).wr).wr
  exact ⟨hready, hin, hflds.beside rfl, rfl⟩

/-- The registers of the end of a power-on before READY. -/
def State.stagesDone (s : State) : State := ((s.wr F.RST_STATUS_STAGE 0 0).wr F.RST_POWERON_READY_MS 0 (min s.pins.upMs 0xFFFF)).syncSpares

theorem State.stagesDone_onlyRegs (s : State) : OnlyRegs s s.stagesDone
    [F.RST_STATUS_STAGE, F.RST_POWERON_READY_MS, F.HIF_SPARES_CORES_D0, F.HIF_SPARES_CORES_D1, F.HIF_SPARES_CPS] :=
  onlyRegs_wr (onlyRegs_wr (onlyRegs_wr (onlyRegs_wr (onlyRegs_wr onlyRegs_refl (by simp)) (by simp)) (by simp)) (by simp)) (by simp)

theorem State.stagesDone_stage (s : State) : s.stagesDone.rd F.RST_STATUS_STAGE 0 = 0 := by
  unfold State.stagesDone State.syncSpares
  dsimp only
  simp (disch := decide) only [State.rd_wr_fld]
  exact State.rd_wr_self

theorem State.powerOnDone_ready (hkill : s.pins.killN = true) (hheld : s.host.held = []) : s.powerOnDone.rd F.RST_STATUS_READY 0 = 1 ∧
    s.powerOnDone.rd F.RST_STATUS_STAGE 0 = 0 ∧ s.powerOnDone.rd F.RST_STATUS_IN_RESET 0 = 0 ∧ s.powerOnDone.mem = s.mem := by
  have hdone := s.stagesDone_onlyRegs
  obtain ⟨hready, hin, hflds, hmem⟩ := State.becomeReady_frame ((congrArg (·.pins.killN) hdone.1).trans hkill) ((congrArg (·.host.held) hdone.1).trans hheld)
  exact ⟨hready, (hflds _ (by simp) ..).trans s.stagesDone_stage, hin, hmem.trans hdone.mem⟩

/-- The host link of a PERST_N reset, and the time that the reset took (R683). -/
def State.resetTaken (s : State) (speed width : Nat) : State :=
  let u := if s.rd F.RST_STATUS_LAST 0 = 1 then s.hostLink speed width else s
  u.wr F.RST_POWERON_LAST_RESET_MS 0 (min ((u.now - u.pins.resetSince) / 1000000) 0xFFFF)

theorem State.resetTaken_onlyRegs (s : State) (speed width : Nat) : OnlyRegs s (s.resetTaken speed width) (F.RST_POWERON_LAST_RESET_MS :: linkFlds) := by
  have hlink : OnlyRegs s (s.hostLink speed width) (F.RST_POWERON_LAST_RESET_MS :: linkFlds) :=
    onlyRegs_refl.andThen (s.hostLink_onlyRegs speed width) (List.subset_cons_self ..)
  exact onlyRegs_wr (onlyRegs_ite hlink onlyRegs_refl) (List.mem_cons_self ..)

theorem execResetComplete_completes {speed width : Nat} (hin : s.rd F.RST_STATUS_IN_RESET 0 ≠ 0)
    (hlast : s.rd F.RST_STATUS_LAST 0 = 2 ∨ s.rd F.RST_STATUS_LAST 0 = 1 ∧ s.pins.perstN = true) (hst : s.rd F.RST_STATUS_STAGE 0 = 0)
    (hhand : s.noHandover = true) (hfatal : s.rd F.HIF_FATAL_FATAL 0 = 0) (hpwr : s.pins.pwrgd = true) :
    execResetComplete speed width s = .next (s.resetTaken speed width).becomeReady := by
  refine if_neg ?_
  rcases hlast with hlast | ⟨hlast, hperst⟩
  · simp [hin, hlast, hst, hhand, hfatal, hpwr]
  · simp [hin, hlast, hst, hhand, hfatal, hpwr, hperst]

end Ready

end Sys2Proof.Machine
end

section
/-! PROOFS. The stages of power-on (R681, R686) and power-down (R690, R691). -/

-- Proofs side by side each take a thread with its stack: together they pass the bound on memory.
set_option Elab.async false

namespace Sys2Proof.Machine

/-! ### What each stage leaves alone -/

/-- A stage that ends leads to the next one unless it ended in the fatal state (R686). -/
def State.nextStage (s : State) (st : Nat) : State := if s.rd F.HIF_FATAL_FATAL 0 = 1 then s else s.wr F.RST_STATUS_STAGE 0 (st + 1)

theorem State.nextStage_goes {s : State} (hfatal : s.rd F.HIF_FATAL_FATAL 0 = 0) (st : Nat) : s.nextStage st = s.wr F.RST_STATUS_STAGE 0 (st + 1) :=
  if_neg (by rw [hfatal]; decide)

/-- The registers that the boot shows (R595, R596, R598). -/
def bootFlds : List Fld := [F.RTP_DEV_RUN_BANK, F.RTP_DEV_FALLBACK, F.RTP_DEV_OWNER_SET, F.RTP_DEV_UPDATE_STAGED, F.RTP_DEV_LIFECYCLE, F.RTP_SVN_RUN_SVN,
  F.RTP_SVN_STAGED_SVN, F.RTP_MIN_SVN_COMMITS_LEFT, F.RTP_MIN_SVN_MIN_SVN, F.RTP_DBG_DEBUG_EPOCH]

theorem State.boot_flds {ks : List Fld} (s : State) (bad : List Nat) (hf : Apart ks bootFlds := by decide) : SameFlds ks s (s.boot bad) := by
  have hwr : ∀ {u : State} {f : Fld} {v : Nat}, f ∈ bootFlds → SameFlds ks s u → SameFlds ks s (u.wr f 0 v) := fun hmem hu => hu.wr fun g hg => hf g hg _ hmem
  unfold State.boot
  extract_lets t b run u t' a c d e
  have hu : SameFlds ks s u := (SameFlds.refl s).beside rfl
  clear_value u
  have ha : SameFlds ks s a := hwr (by simp [bootFlds]) (hwr (by simp [bootFlds]) hu)
  have hc : SameFlds ks s c := hwr (by simp [bootFlds]) (hwr (by simp [bootFlds]) ha)
  have hd : SameFlds ks s d := hwr (by simp [bootFlds]) (hwr (by simp [bootFlds]) hc)
  have he : SameFlds ks s e := hwr (by simp [bootFlds]) hd
  exact hwr (by simp [bootFlds]) (hwr (by simp [bootFlds]) (hwr (by simp [bootFlds]) he))

/-- The registers of a far port that training writes (R435, R436). -/
def farPortFlds : List Fld := [F.FAR_PSTATUS_STATE, F.FAR_PSTATUS_CAPACITY, F.FAR_PSTATUS_SPEED, F.FAR_PSTATUS_WIDTH]

theorem State.stageEight_onlyRegs (s : State) (found : List Found) : OnlyRegs s (s.stageEight found) farPortFlds := by
  refine onlyRegs_loopN onlyRegs_refl fun port u hu => ?_
  have hdown : OnlyRegs s (u.wr F.FAR_PSTATUS_STATE port 3) farPortFlds := onlyRegs_wr hu (by simp [farPortFlds])
  split
  · exact onlyRegs_ite (onlyRegs_wr (onlyRegs_wr (onlyRegs_wr (onlyRegs_wr hu (by simp [farPortFlds])) (by simp [farPortFlds])) (by simp [farPortFlds]))
      (by simp [farPortFlds])) hdown
  · exact hdown

/-- Stage 9's first keys and handovers, paddock by paddock. -/
def State.firstKey (s : State) (p : Nat) : State :=
  (s.newKey p 0).setHand p (some ⟨true, 1, s.now, false, false, false⟩)

/-- HBM is empty (R686). -/
def State.hbmEmpty (s : State) : State := { s with mem := { s.mem with hbm := [], hbmPoison := [] } }

theorem State.stageNine_eq (s : State) : s.stageNine = loopN 16 (fun p s => s.firstKey p) s.hbmEmpty := rfl

theorem State.firstKey_mem (s : State) (p : Nat) : (s.firstKey p).mem = s.mem := rfl

theorem State.firstKey_fatal (s : State) (p : Nat) : (s.firstKey p).rd F.HIF_FATAL_FATAL 0 = s.rd F.HIF_FATAL_FATAL 0 := by
  have hkey : (s.newKey p 0).rd F.HIF_FATAL_FATAL 0 = s.rd F.HIF_FATAL_FATAL 0 := State.rd_wr_fld (by decide)
  exact hkey

theorem State.firstKey_handOf_self (s : State) (p : Nat) : (s.firstKey p).handOf p ≠ none := by
  unfold State.firstKey
  rw [State.handOf_setHand]
  exact Option.some_ne_none _

theorem State.setHand_handOf_ne {s : State} {p q : Nat} {x : Option Hand} (hne : q ≠ p) : (s.setHand p x).handOf q = s.handOf q := by
  unfold State.handOf State.setHand
  exact tget_tset_ne fun heq => hne (List.cons.inj heq).1

theorem loopN_firstKey_handOf {s : State} {p : Nat} : ∀ {n : Nat}, p < n → (loopN n (fun p s => s.firstKey p) s).handOf p ≠ none
  | n + 1, hp => by
    rw [loopN_succ]
    rcases Nat.lt_succ_iff_lt_or_eq.1 hp with hlt | rfl
    · unfold State.firstKey
      rw [State.setHand_handOf_ne (Nat.ne_of_lt hlt)]
      exact loopN_firstKey_handOf hlt
    · exact State.firstKey_handOf_self _ p

theorem State.stageNine_mem (s : State) : s.stageNine.mem.hbm = [] := by
  have hmem : s.stageNine.mem = s.hbmEmpty.mem := loopN_rel (R := fun u v => v.mem = u.mem) (fun _ => rfl) (fun _ _ _ h h' => h'.trans h) (fun _ _ => State.firstKey_mem ..) 16
  rw [hmem]
  rfl

theorem State.stageNine_fatal (s : State) : s.stageNine.rd F.HIF_FATAL_FATAL 0 = s.rd F.HIF_FATAL_FATAL 0 :=
  loopN_rel (R := fun u v => v.rd F.HIF_FATAL_FATAL 0 = u.rd F.HIF_FATAL_FATAL 0) (fun _ => rfl) (fun _ _ _ h h' => h'.trans h) (fun _ _ => State.firstKey_fatal ..) 16

/-! ### The end of a stage -/

section Stage

variable {s : State} {ms : Nat} {found : List Found} {st : Nat}

theorem execPowerOnStageEnd_waits (hst : s.rd F.RST_STATUS_STAGE 0 = st)
    (hwait : st = 0 ∨ s.pins.pwrgd = false ∨ s.rd F.HIF_FATAL_FATAL 0 = 1 ∨ st = 10 ∧ s.noHandover = false) :
    execPowerOnStageEnd ms found s = .next s := by
  subst hst
  exact if_pos hwait

/-- The time of power-on goes on. -/
def State.powered (s : State) (ms : Nat) : State := { s with pins := { s.pins with upMs := s.pins.upMs + ms } }

section Runs

variable (hpwr : s.pins.pwrgd = true) (hfatal : s.rd F.HIF_FATAL_FATAL 0 = 0)
include hpwr hfatal

theorem State.stageRuns (hone : st ≠ 0) (hhand : st ≠ 10 ∨ s.noHandover = true) :
    ¬(st = 0 ∨ s.pins.pwrgd = false ∨ s.rd F.HIF_FATAL_FATAL 0 = 1 ∨ st = 10 ∧ s.noHandover = false) := by
  simp only [hone, hpwr, hfatal, false_or, Bool.true_eq_false, Nat.zero_ne_one]
  exact fun hten => hhand.elim (· hten.1) fun hnone => Bool.noConfusion (hnone.symm.trans hten.2)

/-- The locks of stage 2, and whether the host's reference clock is there (R675, R686). -/
def State.clocksLocked (s : State) (on : Bool) : State :=
  (({ s with pins := { s.pins with hostRefclk := on } } : State).wr F.CLK_STAT_LOCK 0 0xFF).wr F.CLK_STAT_HOST_REFCLK 0 (b2n on)

/-- The slot that the module finds itself in, at stage 3. -/
def State.slotFound (s : State) (slot : Nat) : State := { s with pins := { s.pins with slotId := slot } }

/-- What the end of each stage does: stages 1, 4 and 5 only lead on. -/
theorem execPowerOnStageEnd_works (hst : s.rd F.RST_STATUS_STAGE 0 = st) (hhand : st ≠ 10 ∨ s.noHandover = true) {u : State} (hu : u = s.powered ms) :
    (st = 1 → execPowerOnStageEnd ms found s = .next (u.nextStage 1)) ∧
    (st = 4 → execPowerOnStageEnd ms found s = .next (u.nextStage 4)) ∧
    (st = 5 → execPowerOnStageEnd ms found s = .next (u.nextStage 5)) ∧
    (st = 2 → execPowerOnStageEnd ms found s = .next ((u.clocksLocked (found.contains .hostRefclk)).nextStage 2)) ∧
    (st = 3 → execPowerOnStageEnd ms found s = .next (((u.slotFound (((found.filterMap Found.slotOf).head?).getD 7)).boot
      (found.filterMap Found.bankOf)).nextStage 3)) ∧
    (st = 6 → execPowerOnStageEnd ms found s = .next ((u.stageSix found).nextStage 6)) ∧
    (st = 7 → execPowerOnStageEnd ms found s = .next ((u.stageSeven found).nextStage 7)) ∧
    (st = 8 → execPowerOnStageEnd ms found s = .next ((u.stageEight found).nextStage 8)) ∧
    (st = 9 → execPowerOnStageEnd ms found s = .next (u.stageNine.nextStage 9)) ∧
    (st = 10 → execPowerOnStageEnd ms found s = .next (if s.pins.perstN then u.nextStage 10 else u.powerOnDone)) ∧
    (st = 11 → execPowerOnStageEnd ms found s = .next (u.hostLink (((found.filterMap Found.linkOf).head?).getD (0, 0)).1
      (((found.filterMap Found.linkOf).head?).getD (0, 0)).2).powerOnDone) := by
  subst hu
  unfold execPowerOnStageEnd
  dsimp only
  rw [hst]
  refine ⟨?_, ?_, ?_, ?_, ?_, ?_, ?_, ?_, ?_, ?_, ?_⟩ <;> (rintro rfl; exact if_neg (State.stageRuns hpwr hfatal (by decide) hhand))

end Runs

end Stage

/-! ### Power-down -/

theorem CoreFrame.farErr {s₀ s : State} (h : CoreFrame [] s₀ s) (p kind port src off : Nat) : CoreFrame [] s₀ (s.farErr p kind port src off) := by
  have hwr : ∀ {u : State} {f : Fld} {v : Nat}, CoreFrame [] s₀ u → CoreFrame [] s₀ (u.wr f p v) :=
    fun {_ f _} hu => hu.wrOf (fs := [f]) (List.forall_mem_nil _) (List.mem_singleton_self f)
  unfold State.farErr
  extract_lets a b c
  exact ite h (hwr (hwr (hwr (hwr (hwr (hwr (hwr h)))))))

theorem CoreFrame.farDown {s₀ s : State} (h : CoreFrame [] s₀ s) (l : Line) : CoreFrame [] s₀ (s.farDown l) := by
  unfold State.farDown
  split
  · exact h
  · extract_lets a b
    have hset : CoreFrame [] s₀ (s.setLine { l with dead := 0x810 }) := h.beside rfl rfl
    have hb : CoreFrame [] s₀ b := (hset.bump (List.forall_mem_nil _)).farErr ..
    exact ite (hb.andBase ((BaseFrame.refl b).abort ..)) hb

theorem CoreFrame.farLoss {s₀ s : State} (h : CoreFrame [] s₀ s) (port : Nat) : CoreFrame [] s₀ (s.farLoss port) := by
  unfold State.farLoss
  extract_lets a x b hit c d e
  have ha : CoreFrame [] s₀ a :=
    (h.wrOf (fs := [F.FAR_PSTATUS_STATE]) (List.forall_mem_nil _) (List.mem_singleton_self _)).bump (List.forall_mem_nil _)
  clear_value a
  have hb : CoreFrame [] s₀ b := ha.beside rfl rfl
  have hc : CoreFrame [] s₀ c := hb.foldl fun _ l hu => hu.farDown l
  have he : CoreFrame [] s₀ e := hc.loopN fun _ u hu => ite (hu.andBase ((BaseFrame.refl u).event (List.forall_mem_nil _))) hu
  exact ite h (he.andBase ((BaseFrame.refl e).event (List.forall_mem_nil _)))

/-- The first `n` cores are gated. -/
def gateCores (n : Nat) (t : Tbl Bool) : Tbl Bool := (List.range n).foldl (fun t c => tset false t [c] true) t

theorem tget_gateCores {t : Tbl Bool} {c : Nat} : ∀ {n : Nat}, c < n → tget false (gateCores n t) [c] = true
  | n + 1, hc => by
    unfold gateCores
    rw [List.range_succ, List.foldl_append, List.foldl_cons, List.foldl_nil]
    rcases Nat.lt_succ_iff_lt_or_eq.1 hc with hlt | rfl
    · exact (tget_tset_ne fun heq => Nat.ne_of_lt hlt (List.cons.inj heq).1).trans (tget_gateCores hlt)
    · exact tget_tset_self

def State.gatedTo (s : State) (g : Tbl Bool) : State := { s with sched := { s.sched with gated := g } }

theorem State.gatedTo_regs (s : State) (g : Tbl Bool) : (s.gatedTo g).regs = s.regs := rfl
theorem State.gatedTo_pins (s : State) (g : Tbl Bool) : (s.gatedTo g).pins = s.pins := rfl
theorem State.gatedTo_gated (s : State) (g : Tbl Bool) : (s.gatedTo g).sched.gated = g := rfl

theorem State.powerStep_eq (s : State) {b : State} (hb : b = (loopN 2 (fun port s => s.farLoss port) s.cutLinks).hostLink 0 0) :
    s.powerStep = b.gatedTo (gateCores 128 b.sched.gated) := by
  subst hb
  rfl

/-- The first step of a power-down gates every core, has the host link down, and leaves the pins alone (R690). -/
theorem State.powerStep_gates (s : State) : s.powerStep.rd F.HIF_LINK_SPEED 0 = 0 ∧ (∀ c < 128, tget false s.powerStep.sched.gated [c] = true) ∧
    s.powerStep.pins = s.pins := by
  have hfar : CoreFrame [] s (loopN 2 (fun port s => s.farLoss port) s.cutLinks) :=
    ((CoreFrame.refl s).cutLinks (List.forall_mem_nil _)).loopN fun port _ hu => hu.farLoss port
  rw [State.powerStep_eq s rfl]
  generalize loopN 2 (fun port s => s.farLoss port) s.cutLinks = b at hfar
  refine ⟨(State.rd_congr (State.gatedTo_regs ..) ..).trans State.hostLink_speed, fun c hc => ?_, ?_⟩
  · rw [State.gatedTo_gated]
    exact tget_gateCores hc
  · exact (State.gatedTo_pins ..).trans ((hfar.onlyRegs (State.hostLink_onlyRegs ..) (List.forall_mem_nil _)).pins)

/-- PWRGD falls, and no command goes on (R690). -/
def State.powerLost (s : State) : State := s.taken.foldl (fun s t => s.dropTaken t.h) ({ s with pins := { s.pins with pwrgd := false } } : State)

theorem State.powerLost_pwrgd (s : State) : s.powerLost.pins.pwrgd = false := by
  have hframe : CoreFrame [] ({ s with pins := { s.pins with pwrgd := false } } : State) s.powerLost :=
    (CoreFrame.refl _).foldl fun _ _ hu => hu.dropTaken _ (List.forall_mem_nil _)
  exact congrArg Pins.pwrgd hframe.pins

theorem execPwrgdDeassert_falls {s : State} (hpwr : s.pins.pwrgd = true) : execPwrgdDeassert s = .next s.powerLost.powerStep :=
  if_neg (ne_false_of_eq_true hpwr)

/-! ### Power-on from nothing -/

/-- What a power-on after 100 ms keeps: the flash, the fuses, the repair list, the queue and what was sent (R680, R681, R690). -/
theorem execModulePowerOn_begins {s : State} {ms : Nat} (hoff : s.pins.pwrgd = false) (hms : 100 ≤ ms) : ∃ t, execModulePowerOn ms s = .next t ∧
    t.regs = State.reset.regs ∧ t.mem = State.reset.mem ∧ t.sched = State.reset.sched ∧
    t.kv = State.reset.kv ∧ t.taken = [] ∧ t.pins.pwrgd = true ∧ t.rd F.RST_STATUS_STAGE 0 = 1 ∧ t.trust.banks = s.trust.banks ∧ t.trust.minSvn = s.trust.minSvn ∧
    t.trust.debugEpoch = s.trust.debugEpoch ∧ t.trust.owner = s.trust.owner ∧ t.msys.repair = s.msys.repair ∧ t.out = s.out ∧ t.pending = s.pending :=
  ⟨_, if_neg (not_or_intro (ne_true_of_eq_false hoff) (Nat.not_lt.2 hms)), rfl, rfl, rfl, rfl, rfl, rfl, rfl, rfl, rfl, rfl, rfl, rfl, rfl, rfl⟩

/-! ### The stages, and what they leave -/

theorem State.powered_fatal {s u : State} {ms : Nat} (hfatal : s.rd F.HIF_FATAL_FATAL 0 = 0) (hu : u = s.powered ms) : u.rd F.HIF_FATAL_FATAL 0 = 0 :=
  (State.rd_congr (t := u) (by rw [hu]; rfl) ..).trans hfatal

section Ends

variable {s u : State} {ms : Nat} {found : List Found} {st : Nat} (hst : s.rd F.RST_STATUS_STAGE 0 = st) (hpwr : s.pins.pwrgd = true)
  (hfatal : s.rd F.HIF_FATAL_FATAL 0 = 0) (hu : u = s.powered ms)
include hst hpwr hfatal hu

theorem execPowerOnStageEnd_idle (hidle : st = 1 ∨ st = 4 ∨ st = 5) :
    ∃ t, execPowerOnStageEnd ms found s = .next t ∧ Sets u t F.RST_STATUS_STAGE 0 0 (st + 1) := by
  have hgoes := State.nextStage_goes (State.powered_fatal hfatal hu)
  obtain ⟨hone, hfour, hfive, -⟩ := execPowerOnStageEnd_works (found := found) hpwr hfatal hst (.inl (by omega)) hu
  rcases hidle with rfl | rfl | rfl
  · exact ⟨_, (hone rfl).trans (congrArg _ (hgoes 1)), sets_wr rfl⟩
  · exact ⟨_, (hfour rfl).trans (congrArg _ (hgoes 4)), sets_wr rfl⟩
  · exact ⟨_, (hfive rfl).trans (congrArg _ (hgoes 5)), sets_wr rfl⟩

theorem execPowerOnStageEnd_clocks (htwo : st = 2) : ∃ t, execPowerOnStageEnd ms found s = .next t ∧ t.rd F.RST_STATUS_STAGE 0 = 3 ∧
    t.rd F.CLK_STAT_LOCK 0 = 0xFF ∧ t.mem = s.mem := by
  obtain ⟨-, -, -, hexec, -⟩ := execPowerOnStageEnd_works (found := found) hpwr hfatal hst (.inl (by omega)) hu
  have hufatal := State.powered_fatal hfatal hu
  have hfatal' : (u.clocksLocked (found.contains .hostRefclk)).rd F.HIF_FATAL_FATAL 0 = 0 :=
    ((State.rd_wr_fld (by decide)).trans (State.rd_wr_fld (by decide))).trans hufatal
  refine ⟨_, (hexec htwo).trans (congrArg _ (State.nextStage_goes hfatal' 2)), State.rd_wr_self, ?_, by rw [hu]; rfl⟩
  exact (State.rd_wr_fld (by decide)).trans ((State.rd_wr_fld (by decide)).trans State.rd_wr_self)

theorem execPowerOnStageEnd_boots (hthree : st = 3) : ∃ v t : State, execPowerOnStageEnd ms found s = .next t ∧
    Sets (v.boot (found.filterMap Found.bankOf)) t F.RST_STATUS_STAGE 0 0 4 ∧ v.mem = s.mem ∧ v.regs = s.regs := by
  obtain ⟨-, -, -, -, hexec, -⟩ := execPowerOnStageEnd_works (found := found) hpwr hfatal hst (.inl (by omega)) hu
  have hufatal := State.powered_fatal hfatal hu
  have hslot : ∀ n, (u.slotFound n).rd F.HIF_FATAL_FATAL 0 = 0 := fun _ => hufatal
  refine ⟨_, _, (hexec hthree).trans (congrArg _ (State.nextStage_goes ?_ 3)), sets_wr rfl, by rw [hu]; rfl, by rw [hu]; rfl⟩
  exact (State.boot_flds (ks := [F.HIF_FATAL_FATAL]) _ _ (by decide) _ (List.mem_singleton_self _) ..).trans (hslot _)

theorem execPowerOnStageEnd_farPorts (height : st = 8) : ∃ t, execPowerOnStageEnd ms found s = .next t ∧ t.rd F.RST_STATUS_STAGE 0 = 9 ∧ t.mem = s.mem := by
  obtain ⟨-, -, -, -, -, -, -, hexec, -⟩ := execPowerOnStageEnd_works (found := found) hpwr hfatal hst (.inl (by omega)) hu
  have hfatal' := ((u.stageEight_onlyRegs found).2 F.HIF_FATAL_FATAL 0 0 (by decide)).trans (State.powered_fatal hfatal hu)
  exact ⟨_, (hexec height).trans (congrArg _ (State.nextStage_goes hfatal' 8)), State.rd_wr_self, (u.stageEight_onlyRegs found).mem.trans (by rw [hu]; rfl)⟩

theorem execPowerOnStageEnd_zeroes (hnine : st = 9) : ∃ t, execPowerOnStageEnd ms found s = .next t ∧ t.rd F.RST_STATUS_STAGE 0 = 10 ∧ t.mem.hbm = [] ∧
    ∀ p < 16, t.handOf p ≠ none := by
  obtain ⟨-, -, -, -, -, -, -, -, hexec, -⟩ := execPowerOnStageEnd_works (found := found) hpwr hfatal hst (.inl (by omega)) hu
  have hfatal' := u.stageNine_fatal.trans (State.powered_fatal hfatal hu)
  have hmem := u.stageNine_mem
  have hhand : ∀ p < 16, u.stageNine.handOf p ≠ none := fun p hp => loopN_firstKey_handOf hp
  generalize u.stageNine = w at *
  exact ⟨_, (hexec hnine).trans (congrArg _ (State.nextStage_goes hfatal' 9)), State.rd_wr_self, hmem, hhand⟩

theorem execPowerOnStageEnd_host (hten : st = 10) (hhand : s.noHandover = true) :
    execPowerOnStageEnd ms found s = .next (if s.pins.perstN then u.wr F.RST_STATUS_STAGE 0 11 else u.powerOnDone) := by
  obtain ⟨-, -, -, -, -, -, -, -, -, hexec, -⟩ := execPowerOnStageEnd_works (found := found) hpwr hfatal hst (.inr hhand) hu
  rw [hexec hten, State.nextStage_goes (State.powered_fatal hfatal hu)]

theorem execPowerOnStageEnd_links (heleven : st = 11) : ∃ t v : State, execPowerOnStageEnd ms found s = .next t ∧ t = v.powerOnDone ∧ v.mem = s.mem := by
  obtain ⟨-, -, -, -, -, -, -, -, -, -, hexec⟩ := execPowerOnStageEnd_works (found := found) hpwr hfatal hst (.inl (by omega)) hu
  exact ⟨_, _, hexec heleven, rfl, (State.hostLink_onlyRegs ..).mem.trans (by rw [hu]; rfl)⟩

end Ends

/-! ### The obligation -/

theorem execPerstNAssert_resets {s : State} (hhigh : s.pins.perstN = true) (hpwr : s.pins.pwrgd = true) (hst : s.rd F.RST_STATUS_STAGE 0 = 0) :
    ∃ t, execPerstNAssert s = .next t ∧ t.pins.perstN = false ∧ t.rd F.RST_STATUS_IN_RESET 0 = 1 ∧ t.rd F.RST_STATUS_READY 0 = 0 ∧
      t.rd F.RST_STATUS_LAST 0 = 1 ∧ t.rd F.RST_PERST_COUNT 0 = min (s.rd F.RST_PERST_COUNT 0 + 1) maxCount ∧ (∀ p < 16, t.pdkState p = pdkHandover) ∧ t.rel.tests = [] := by
  have hstage : (s.perstLow.bump F.RST_PERST_COUNT 0).rd F.RST_STATUS_STAGE 0 = 0 := (State.rd_bump_fld (by decide) (by decide)).trans hst
  have hcount : (s.perstLow.bump F.RST_PERST_COUNT 0).rd F.RST_PERST_COUNT 0 = min (s.rd F.RST_PERST_COUNT 0 + 1) maxCount := State.rd_bump_self rfl (by decide)
  have hlow : (s.perstLow.bump F.RST_PERST_COUNT 0).pins.perstN = false := congrArg Pins.perstN (State.bump_pins ..)
  obtain ⟨hin, hready, hlast, hcounts, hpdk, htests, hperst⟩ := State.deviceReset_resets hstage (lvl := 1) rfl
  exact ⟨_, execPerstNAssert_service hhigh hpwr hst, hperst.trans hlow, hin, hready, hlast, (hcounts _ (by simp) ..).trans hcount, hpdk, htests⟩

theorem execPfFlr_resets {s : State} (hpwr : s.pins.pwrgd = true) (hst : s.rd F.RST_STATUS_STAGE 0 = 0) :
    ∃ t, execPfFlr s = .next t ∧ t.rd F.RST_STATUS_IN_RESET 0 = 1 ∧ t.rd F.RST_STATUS_READY 0 = 0 ∧ t.rd F.RST_STATUS_LAST 0 = 2 ∧
      t.rd F.RST_PFFLR_COUNT 0 = min (s.rd F.RST_PFFLR_COUNT 0 + 1) maxCount ∧ ∀ p < 16, t.pdkState p = pdkHandover := by
  have hstage : (s.bump F.RST_PFFLR_COUNT 0).rd F.RST_STATUS_STAGE 0 = 0 := (State.rd_bump_fld (by decide) (by decide)).trans hst
  have hcount : (s.bump F.RST_PFFLR_COUNT 0).rd F.RST_PFFLR_COUNT 0 = min (s.rd F.RST_PFFLR_COUNT 0 + 1) maxCount := State.rd_bump_self rfl (by decide)
  obtain ⟨hin, hready, hlast, hcounts, hpdk, -, -⟩ := State.deviceReset_resets hstage (lvl := 2) rfl
  exact ⟨_, if_neg (ne_false_of_eq_true hpwr), hin, hready, hlast, (hcounts _ (by simp) ..).trans hcount, hpdk⟩

theorem execPerstNDeassert_starts {s : State} (hlow : s.pins.perstN = false) (hpwr : s.pins.pwrgd = true) :
    ∃ t, execPerstNDeassert s = .next t ∧ t.pins.perstN = true ∧ t.pins.resetSince = s.now ∧ t.mem = s.mem ∧
    (1 ≤ s.rd F.RST_STATUS_STAGE 0 → s.rd F.RST_STATUS_STAGE 0 ≤ 5 → t.rd F.RST_STATUS_EARLY_PERST 0 = 1) ∧
    ((s.rd F.RST_STATUS_STAGE 0 = 0 ∨ 5 < s.rd F.RST_STATUS_STAGE 0) → t.regs = s.regs) := by
  refine ⟨_, execPerstNDeassert_rises hlow hpwr, ?_⟩
  by_cases hearly : 1 ≤ s.rd F.RST_STATUS_STAGE 0 ∧ s.rd F.RST_STATUS_STAGE 0 ≤ 5
  · rw [if_pos hearly]
    exact ⟨rfl, rfl, rfl, fun _ _ => State.rd_wr_self, fun hlate => by omega⟩
  · rw [if_neg hearly]
    exact ⟨rfl, rfl, rfl, fun hlo hhi => absurd ⟨hlo, hhi⟩ hearly, fun _ => rfl⟩

/-- The reset that completes is READY, with the host link of a PERST_N reset (R683, R684). -/
theorem State.resetComplete_ready {s : State} (hkill : s.pins.killN = true) (hheld : s.host.held = []) (speed width : Nat) {t : State}
    (ht : t = (s.resetTaken speed width).becomeReady) : t.rd F.RST_STATUS_READY 0 = 1 ∧ t.rd F.RST_STATUS_IN_RESET 0 = 0 ∧ t.mem = s.mem ∧
      (s.rd F.RST_STATUS_LAST 0 = 1 → t.rd F.HIF_LINK_WIDTH 0 = width % 2 ^ 5) := by
  have htaken := s.resetTaken_onlyRegs speed width
  obtain ⟨hready, hin, hflds, hmem⟩ :=
    State.becomeReady_frame ((congrArg (·.pins.killN) htaken.1).trans hkill) ((congrArg (·.host.held) htaken.1).trans hheld)
  subst ht
  refine ⟨hready, hin, hmem.trans htaken.mem, fun hlast => (hflds _ (by simp) ..).trans ?_⟩
  unfold State.resetTaken
  rw [if_pos hlast]
  exact (State.rd_wr_fld (by decide)).trans State.hostLink_width

/-- Settles O57: power-on by its stages, the resets by what they reset and how they end, power-down by its first step. -/
theorem powerAndResets : Obligations.PowerAndResets := by
  unfold Obligations.PowerAndResets
  refine fun s => ⟨fun _ hon => if_pos hon, fun ms => execModulePowerOn_begins, fun ms found st hst => ⟨execPowerOnStageEnd_waits hst,
      fun hpwr hfatal u hu => ⟨execPowerOnStageEnd_idle hst hpwr hfatal hu, execPowerOnStageEnd_clocks hst hpwr hfatal hu,
        execPowerOnStageEnd_boots hst hpwr hfatal hu, fun hsix hstays => ?_, fun hseven hstays => ?_, execPowerOnStageEnd_farPorts hst hpwr hfatal hu,
        execPowerOnStageEnd_zeroes hst hpwr hfatal hu, fun hten hhand hperst => ?_, fun hten hhand hperst => ?_, execPowerOnStageEnd_links hst hpwr hfatal hu⟩⟩,
    State.powerOnDone_ready, fun hout => if_pos hout, fun hhigh hpwr => ⟨execPerstNAssert_resets hhigh hpwr,
      fun hst => ⟨_, execPerstNAssert_powerOn hhigh hpwr hst, rfl⟩⟩, fun hout => if_pos hout, execPerstNDeassert_starts, fun hoff => if_pos hoff,
    execPfFlr_resets, fun p => ⟨fun hout => if_pos hout, fun hpwr hexists => ⟨_, if_neg ?_, rfl, State.vfFlr_hands p.val⟩⟩,
    fun speed width => ⟨fun hwait => if_pos ?_, fun hin hlast hst hhand hfatal hpwr hkill hheld =>
      ⟨_, execResetComplete_completes hin hlast hst hhand hfatal hpwr, State.resetComplete_ready hkill hheld speed width rfl⟩⟩,
    fun hoff => ⟨if_pos hoff, if_pos hoff⟩, fun hpwr => ⟨?_, ?_⟩⟩
  · obtain ⟨-, -, -, -, -, hexec, -⟩ := execPowerOnStageEnd_works (found := found) hpwr hfatal hst (.inl (by omega)) hu
    exact (hexec hsix).trans (congrArg _ (State.nextStage_goes hstays 6))
  · obtain ⟨-, -, -, -, -, -, hexec, -⟩ := execPowerOnStageEnd_works (found := found) hpwr hfatal hst (.inl (by omega)) hu
    exact (hexec hseven).trans (congrArg _ (State.nextStage_goes hstays 7))
  · exact ⟨_, (execPowerOnStageEnd_host hst hpwr hfatal hu hten hhand).trans (congrArg _ (if_pos hperst)), sets_wr rfl⟩
  · exact ⟨_, (execPowerOnStageEnd_host hst hpwr hfatal hu hten hhand).trans (congrArg _ (if_neg (ne_true_of_eq_false hperst))), rfl⟩
  · exact not_or_intro (ne_false_of_eq_true hpwr) (ne_false_of_eq_true hexists)
  · rcases hwait with hin | hhand | hperst
    · exact .inl hin
    · exact .inr (.inr (.inr (.inl hhand)))
    · exact .inr (.inr (.inr (.inr (.inr (.inr hperst)))))
  · obtain ⟨hspeed, hgated, hpins⟩ := s.powerLost.powerStep_gates
    exact ⟨_, execPwrgdDeassert_falls hpwr, (congrArg Pins.pwrgd hpins).trans s.powerLost_pwrgd, hspeed, hgated⟩
  · obtain ⟨hspeed, hgated, -⟩ := s.powerStep_gates
    exact ⟨_, if_neg (ne_false_of_eq_true hpwr), rfl, hspeed, hgated⟩

end Sys2Proof.Machine
end

section
/-! PROOFS. Detected faults (R658, R660, R662) and self-tests (R665 to R667). -/

-- Proofs side by side each take a thread with its stack: together they pass the bound on memory.
set_option Elab.async false

namespace Sys2Proof.Machine

/-! ### Faults -/

section Power

variable {s : State} (hpwr : s.pins.pwrgd = true)
include hpwr

theorem execCoreControlFault_marks (c : Fin 128) : execCoreControlFault c s =
    .next (((s.markCore (s.phys c.val)).abort (corePdk c.val) 0x541).deviceError 5 false (s.phys c.val) 0 0x541 (corePdk c.val)) :=
  if_neg (ne_false_of_eq_true hpwr)

theorem execPaddockUnitFault_stops (p : Fin 16) :
    execPaddockUnitFault p s = .next ((s.abortScope1 p.val 0x542).1.deviceError 6 false p.val 0 0x542 p.val) :=
  if_neg (ne_false_of_eq_true hpwr)

theorem execHeartbeatMissed_root {k : Fin 21} (hk : k.val = 20) : execHeartbeatMissed k s = .next (s.enterFatal 0xF05 20) :=
  (if_neg (ne_false_of_eq_true hpwr)).trans (if_pos hk)

variable {k : Fin 21} (hk : k.val ≠ 20)
include hk

theorem execHeartbeatMissed_known (hbad : tget false s.rel.badProcs [k.val] = true) : execHeartbeatMissed k s = .next s :=
  (if_neg (ne_false_of_eq_true hpwr)).trans ((if_neg hk).trans (if_pos hbad))

variable (hgood : tget false s.rel.badProcs [k.val] = false)
include hgood

/-- One of processors 18 and 19: the last of them is fatal (R662). -/
theorem execHeartbeatMissed_device (hdev : k.val = 18 ∨ k.val = 19) {u : State}
    (hu : u = ((s.markProc k.val).syncSpares).deviceError 7 false k.val 0 0x540 0xFF) :
    execHeartbeatMissed k s = .next (if tget false s.rel.badProcs [37 - k.val] = true then u.enterFatal 0xF06 k.val else u) := by
  have hrel : u.rel.badProcs = tset false s.rel.badProcs [k.val] true := by
    rw [hu, State.deviceError_rel]
    rfl
  have hother : tget false u.rel.badProcs [37 - k.val] = tget false s.rel.badProcs [37 - k.val] := by
    rw [hrel]
    exact tget_tset_ne fun heq => by
      have hsame : 37 - k.val = k.val := (List.cons.inj heq).1
      omega
  rw [← hother]
  subst hu
  exact (if_neg (ne_false_of_eq_true hpwr)).trans ((if_neg hk).trans ((if_neg (ne_true_of_eq_false hgood)).trans (if_pos hdev)))

/-- A paddock's processor stops its paddock; a spare one is reported (R662). -/
theorem execHeartbeatMissed_paddock (hdev : ¬(k.val = 18 ∨ k.val = 19)) {u : State} (hu : u = (s.markProc k.val).syncSpares) {x : Option Nat}
    (hx : (List.range 16).find? (fun p => u.procOf p == k.val) = x) :
    execHeartbeatMissed k s = .next (x.elim (u.deviceError 7 false k.val 0 0x540 0xFF) (fun p => u.procStop p k.val)) := by
  subst hu
  refine (if_neg (ne_false_of_eq_true hpwr)).trans ((if_neg hk).trans ((if_neg (ne_true_of_eq_false hgood)).trans ((if_neg hdev).trans ?_)))
  rw [hx]
  generalize (s.markProc k.val).syncSpares = u
  cases x with
  | none => rfl
  | some p => exact congrArg Host.Outcome.next (Option.elim_some (u.deviceError 7 false k.val 0 0x540 0xFF) (fun p => u.procStop p k.val) p).symm

end Power

/-! ### Self-tests -/

section Tests

variable {s : State} {h : Hdr}

theorem execSelfTest_runs {kind unit : Nat} (hgo : s.goes h opSelfTest (firstStatus [failIf (!testUnitOk kind unit) 0x2E0, failIf (s.testBusy kind unit) 0x390]))
    {u : State} (hu : u = s.start h opSelfTest (some (.selfTest h kind unit))) :
    execSelfTest h kind unit s = .next { u with rel := { u.rel with tests := u.rel.tests ++ [⟨h, kind, unit, u.now⟩] } } := by
  subst hu
  exact congrArg Host.Outcome.next (State.checked_goes hgo)

/-- The test `y` is over: it leaves what it found, and its command completes with the outcome, the count and the duration (R667). -/
def State.testOver (s : State) (found : List Found) (failing : List Nat) (y : Test) : State :=
  let u := ({ s with rel := { s.rel with tests := removeFirst (· == y) s.rel.tests } } : State).testEnds y.kind y.unit found failing
  let r := testCount y.kind y.unit found failing
  u.complete y.h 0 (b2n r.2 * 2 ^ 16 + min r.1 0xFFFF * 2 ^ 32 + u.usSince y.since % 2 ^ 32 * 2 ^ 64)

theorem execSelfTestComplete_ends {found : List Found} {failing : List Nat} {x : Option Test}
    (hx : s.rel.tests.find? (fun t => t.h.fn == h.fn && t.h.q == h.q && t.h.cid == h.cid) = x) :
    execSelfTestComplete h found failing s = .next (x.elim s (s.testOver found failing)) := by
  unfold execSelfTestComplete
  rw [hx]
  cases x with
  | none => rfl
  | some y => rfl

end Tests

/-- Settles O55: each fault by the branch that its unit takes, each test by what it adds and leaves. -/
theorem detectedFaults : Obligations.DetectedFaults := by
  unfold Obligations.DetectedFaults
  refine fun s => ⟨fun hoff => ⟨fun _ => if_pos hoff, fun _ => if_pos hoff, fun _ => if_pos hoff⟩,
    fun c hpwr => ⟨_, execCoreControlFault_marks hpwr c, ?_, rfl⟩, fun p hpwr => execPaddockUnitFault_stops hpwr p,
    fun k hpwr => ⟨execHeartbeatMissed_root hpwr, execHeartbeatMissed_known hpwr, fun hpdk hgood u hu x => ?_, fun hdev hgood => ?_⟩,
    fun h kind unit hgo => ⟨_, execSelfTest_runs hgo rfl, ?_, ?_, ?_, ?_⟩, fun h found failing x hx => ⟨fun hnone => ?_, fun y hsome u r hu hr => ?_⟩⟩
  · have hframe : BaseFrame [] (s.markCore (s.phys c.val))
        (((s.markCore (s.phys c.val)).abort (corePdk c.val) 0x541).deviceError 5 false (s.phys c.val) 0 0x541 (corePdk c.val)) :=
      ((BaseFrame.refl _).abort ..).deviceError (List.forall_mem_nil _)
    exact congrArg Rel.badCores hframe.rel
  · exact execHeartbeatMissed_paddock hpwr (by omega) hgood (by omega) hu
  · refine ⟨_, execHeartbeatMissed_device hpwr (by omega) hgood hdev rfl, fun u hu => ⟨fun hother => ?_, fun hother => ?_⟩⟩
    · rw [if_pos hother, hu]
    · rw [if_neg (ne_true_of_eq_false hother), hu]
  · have hstart : BaseFrame [F.CNT_TIMEBASE_TIME] s (s.start h opSelfTest (some (.selfTest h kind unit))) := (BaseFrame.refl s).start
    have hnow : (s.start h opSelfTest (some (.selfTest h kind unit))).now = s.now := hstart.rd (List.mem_singleton_self _) 0 0
    rw [← hnow, ← hstart.rel]
  · exact State.start_mem ..
  · exact State.start_sched ..
  · exact State.start_out ..
  · exact (execSelfTestComplete_ends hx).trans (by rw [hnone]; rfl)
  · subst hu hr hsome
    exact execSelfTestComplete_ends hx

end Sys2Proof.Machine
end

section
/-! PROOFS. Counters, dump configurations and Sward dumps (R634 to R650). -/

-- Proofs side by side each take a thread with its stack: together they pass the bound on memory.
set_option Elab.async false

namespace Sys2Proof.Machine

/-! ### Snapshots -/

/-- Counter `k` of a block is copied into the two fields of its snapshot. -/
def State.snapOne (cf of : Fld) (i : Nat) (counter : State → Nat → Nat × Nat) (k : Nat) (s : State) : State :=
  (s.wr cf i (counter s k).1 k).wr of i (counter s k).2 k

/-- A snapshot of `n` counters, none of which is one of the registers that it writes. -/
theorem State.snapAll_copies {s : State} {cf of : Fld} {i : Nat} {counter : State → Nat → Nat × Nat} {fs : List Fld} (hne : cf.id ≠ of.id) (hcf : cf ∈ fs)
    (hof : of ∈ fs) (hsame : ∀ u, OnlyRegs s u fs → ∀ k, counter u k = counter s k) :
    ∀ n, OnlyRegs s (loopN n (State.snapOne cf of i counter) s) fs ∧ ∀ k < n,
      (loopN n (State.snapOne cf of i counter) s).rd cf i k = (counter s k).1 % 2 ^ cf.width ∧
      (loopN n (State.snapOne cf of i counter) s).rd of i k = (counter s k).2 % 2 ^ of.width
  | 0 => ⟨onlyRegs_refl, fun k hk => absurd hk (Nat.not_lt_zero k)⟩
  | n + 1 => by
    obtain ⟨hregs, hcopied⟩ := State.snapAll_copies (s := s) (i := i) hne hcf hof hsame n
    rw [loopN_succ]
    generalize loopN n (State.snapOne cf of i counter) s = u at hregs hcopied
    unfold State.snapOne
    rw [hsame u hregs n]
    refine ⟨onlyRegs_wr (onlyRegs_wr hregs hcf) hof, fun k hk => ?_⟩
    rcases Nat.lt_succ_iff_lt_or_eq.1 hk with hlt | rfl
    · obtain ⟨hcount, hovf⟩ := hcopied k hlt
      rw [State.rd_wr_fld hne, State.rd_wr_idx (Nat.ne_of_lt hlt), State.rd_wr_idx (Nat.ne_of_lt hlt), State.rd_wr_fld (Ne.symm hne)]
      exact ⟨hcount, hovf⟩
    · exact ⟨(State.rd_wr_fld hne).trans State.rd_wr_self, State.rd_wr_self⟩

/-- The registers of a paddock's snapshot, and of the device's. -/
def snapFlds : List Fld := [F.CNT_SNAP_CTL_VALID, F.CNT_SNAP_TIME_TIME, F.CNT_SNAP_TICK_TICK, F.CNT_SNAP_COUNT, F.CNT_SNAP_OVF]
def devSnapFlds : List Fld := [F.CNT_DSNAP_CTL_VALID, F.CNT_DSNAP_TIME_TIME, F.CNT_DSNAP_TICK_TICK, F.CNT_DSNAP_COUNT, F.CNT_DSNAP_OVF]

/-- Neither field of a counter is one of `fs`. -/
abbrev CounterApart (f : Fld) (fs : List Fld) : Prop := ∀ g ∈ fs, f.id ≠ g.id ∧ (ovfOf f).id ≠ g.id

theorem OnlyRegs.ctr {s u : State} {fs : List Fld} (h : OnlyRegs s u fs) {f : Fld} (hf : CounterApart f fs) (i j : Nat) : u.ctr f i j = s.ctr f i j :=
  Prod.ext (h.2 f i j fun g hg => (hf g hg).1) (h.2 (ovfOf f) i j fun g hg => (hf g hg).2)

theorem OnlyRegs.coreSum {s u : State} {fs : List Fld} (h : OnlyRegs s u fs) {f : Fld} (hf : CounterApart f fs) (p j : Nat) :
    u.coreSum f p j = s.coreSum f p j := by
  unfold State.coreSum
  simp only [h.ctr hf]

theorem State.pdkCounter_snap {s u : State} (h : OnlyRegs s u snapFlds) (p k : Nat) : u.pdkCounter p k = s.pdkCounter p k := by
  have hctr : ∀ (f : Fld) (i j : Nat), CounterApart f snapFlds → u.ctr f i j = s.ctr f i j := fun _ i j hf => h.ctr hf i j
  have hsum : ∀ (f : Fld) (p j : Nat), CounterApart f snapFlds → u.coreSum f p j = s.coreSum f p j := fun _ p j hf => h.coreSum hf p j
  unfold State.pdkCounter
  simp (disch := decide) only [hctr, hsum]

theorem State.devCounter_snap {s u : State} (h : OnlyRegs s u devSnapFlds) (k : Nat) : u.devCounter k = s.devCounter k := by
  have hctr : ∀ (f : Fld) (i j : Nat), CounterApart f devSnapFlds → u.ctr f i j = s.ctr f i j := fun _ i j hf => h.ctr hf i j
  unfold State.devCounter
  simp (disch := decide) only [hctr]

/-- The counters of a snapshot of `n`, then its time, its tick and VALID (R635); `fs` are its VALID, TIME, TICK, COUNT and OVF. -/
def State.snapshot (vf tf kf cf of : Fld) (i n : Nat) (counter : State → Nat → Nat × Nat) (tick : State → Nat) (s : State) : State :=
  let u := loopN n (State.snapOne cf of i counter) s
  ((u.wr tf i u.now).wr kf i (tick u)).wr vf i 1

theorem State.snapshot_copies {s t : State} {vf tf kf cf of : Fld} {i n : Nat} {counter : State → Nat → Nat × Nat} {tick : State → Nat}
    (hids : ([vf, tf, kf, cf, of].map Fld.id).Nodup) (htime : ∀ g ∈ [vf, tf, kf, cf, of], F.CNT_TIMEBASE_TIME.id ≠ g.id)
    (hsame : ∀ u, OnlyRegs s u [vf, tf, kf, cf, of] → ∀ k, counter u k = counter s k) (ht : t = s.snapshot vf tf kf cf of i n counter tick) :
    t.rd vf i = 1 % 2 ^ vf.width ∧ t.rd tf i = s.now % 2 ^ tf.width ∧ OnlyRegs s t [vf, tf, kf, cf, of] ∧
      ∀ k < n, t.rd cf i k = (counter s k).1 % 2 ^ cf.width ∧ t.rd of i k = (counter s k).2 % 2 ^ of.width := by
  simp only [List.map_cons, List.map_nil, List.nodup_cons, List.mem_cons, List.not_mem_nil, or_false, not_or] at hids
  obtain ⟨⟨hvt, hvk, hvc, hvo⟩, ⟨htk, htc, hto⟩, ⟨hkc, hko⟩, hco, -⟩ := hids
  obtain ⟨hregs, hcopied⟩ := State.snapAll_copies (s := s) (i := i) hco (by simp) (by simp) hsame n
  unfold State.snapshot at ht
  generalize loopN n (State.snapOne cf of i counter) s = u at *
  have hnow : u.now = s.now := hregs.2 _ _ _ htime
  subst ht
  refine ⟨State.rd_wr_self, ?_, onlyRegs_wr (onlyRegs_wr (onlyRegs_wr hregs (by simp)) (by simp)) (by simp), fun k hk => ?_⟩
  · rw [State.rd_wr_fld (Ne.symm hvt), State.rd_wr_fld htk, State.rd_wr_self, hnow]
  · rw [State.rd_wr_fld (Ne.symm hvc), State.rd_wr_fld (Ne.symm hkc), State.rd_wr_fld (Ne.symm htc), State.rd_wr_fld (Ne.symm hvo),
      State.rd_wr_fld (Ne.symm hko), State.rd_wr_fld (Ne.symm hto)]
    exact hcopied k hk

section Take

variable {s : State} {fn : Fin 17}

theorem execCntSnapTake_paddock (hfn : fn.val ≠ 0) (hopen : s.barClosed fn.val = false) : execCntSnapTake fn s =
    .next (s.snapshot F.CNT_SNAP_CTL_VALID F.CNT_SNAP_TIME_TIME F.CNT_SNAP_TICK_TICK F.CNT_SNAP_COUNT F.CNT_SNAP_OVF (pdkOf fn.val) 32
      (fun s k => s.pdkCounter (pdkOf fn.val) k) (fun s => s.tickOf (8 * pdkOf fn.val))) :=
  (if_neg hfn).trans (if_neg (ne_true_of_eq_false hopen))

theorem execCntSnapTake_device (hfn : fn.val = 0) : execCntSnapTake fn s =
    .next (s.snapshot F.CNT_DSNAP_CTL_VALID F.CNT_DSNAP_TIME_TIME F.CNT_DSNAP_TICK_TICK F.CNT_DSNAP_COUNT F.CNT_DSNAP_OVF 0 8
      (fun s k => s.devCounter k) (fun _ => 0)) :=
  if_pos hfn

end Take

/-! ### COUNTER_READ and DUMP_CONFIG -/

section Commands

variable {s u : State} {h : Hdr}

theorem State.counterBytes_length (s : State) (p set : Nat) : (s.counterBytes p set).length = if set = 0 then 320 else 128 := fitBytes_length ..

theorem execCounterRead_writes {set out n : Nat} (hn : n = if set = 0 then 320 else 128) (hgo : s.goes h opCounterRead
      (firstStatus [failIf (decide (1 < set) || (set == 1 && h.fn.val != 0)) 0x2B0, failIf (ptrTag out != 1) 0x401, failIf (out % 64 != 0) 0x2B0,
        s.checkPtr h.fn.val (paddockOf h) out n true, failIf (h.fn.val == 0 && set == 0 && s.tdiLocked (paddockOf h)) 0x720]))
    (hpages : s.untranslated h [⟨out, n, true⟩] ∨ s.translated h [⟨out, n, true⟩])
    (hu : s.begun h opCounterRead (.counterRead h set out) [⟨out, n, true⟩] = u) : execCounterRead h set out s =
    .next ((u.ptrWrite h.fn.val (paddockOf h) out (u.counterBytes (paddockOf h) set)).complete h 0 ((if set = 0 then 32 else 8) * 2 ^ 16)) := by
  subst hn hu
  exact congrArg Host.Outcome.next ((State.checked_goes hgo).trans (State.gate_begun hpages))

variable {flags buf bytes : Nat} (hgo : s.goes h opDumpConfig
  (firstStatus [failIf (decide (3 < flags) || (hasBit flags 1 && (buf != 0 || bytes != 0))) 0x2B0, failIf (h.fn.val == 0 && s.tdiLocked (paddockOf h)) 0x720,
    failIf (!hasBit flags 1 && !s.bufferOk h.fn.val buf bytes) 0x2B1]))
include hgo

theorem execDumpConfig_clears (hclear : hasBit flags 1 = true) : execDumpConfig h flags buf bytes s =
    .next (((s.start h opDumpConfig (some (.dumpConfig h flags buf bytes))).clearDumpCfg (paddockOf h)).complete h 0) :=
  congrArg Host.Outcome.next ((State.checked_goes hgo).trans (if_pos hclear))

theorem execDumpConfig_stores (hset : hasBit flags 1 = false) {rs : List HostRange} (hrs : rs = if h.fn.val = 0 then [⟨buf, bytes, true⟩] else [])
    (hpages : s.untranslated h rs ∨ s.translated h rs) : execDumpConfig h flags buf bytes s =
    .next (((s.begun h opDumpConfig (.dumpConfig h flags buf bytes) rs).setDumpCfg (paddockOf h) ⟨buf, bytes, hasBit flags 0, h.fn.val == 0⟩).complete h 0) := by
  subst hrs
  exact congrArg Host.Outcome.next ((State.checked_goes hgo).trans ((if_neg (ne_true_of_eq_false hset)).trans (State.gate_begun hpages)))

end Commands

theorem State.setDumpCfg_stores (s : State) (p : Nat) (g : DumpCfg) :
    (s.setDumpCfg p g).dumpCfgOf p = some g ∧ (s.setDumpCfg p g).rd F.SWD_CFG_VALID p = 1 := by
  unfold State.setDumpCfg
  extract_lets a b
  have hb : b.rd F.SWD_CFG_VALID p = 1 := (State.rd_wr_fld (by decide)).trans ((State.rd_wr_fld (by decide)).trans State.rd_wr_self)
  have ha : a.dumpCfgOf p = some g := by
    change tget none (tset none s.dumpCfgs [p] (some g)) [p] = some g
    exact tget_tset_self
  exact ⟨ha, (State.rd_wr_fld (by decide)).trans ((State.rd_wr_fld (by decide)).trans hb)⟩

theorem State.clearDumpCfg_clears (s : State) (p : Nat) : (s.clearDumpCfg p).dumpCfgOf p = none ∧ (s.clearDumpCfg p).rd F.SWD_CFG_VALID p = 0 := by
  unfold State.clearDumpCfg
  extract_lets a b
  have hb : b.rd F.SWD_CFG_VALID p = 0 := (State.rd_wr_fld (by decide)).trans ((State.rd_wr_fld (by decide)).trans State.rd_wr_self)
  have ha : a.dumpCfgOf p = none := by
    change tget none (tset none s.dumpCfgs [p] none) [p] = none
    exact tget_tset_self
  exact ⟨ha, (State.rd_wr_fld (by decide)).trans ((State.rd_wr_fld (by decide)).trans hb)⟩

/-! ### Triggers -/

theorem State.dumpOf_setDump (s : State) (p : Nat) (d : Dump) : (s.setDump p d).dumpOf p = some d := by
  change tget none (tset none s.dumps [p] (some d)) [p] = some d
  exact tget_tset_self

/-- An accepted trigger sets DUMPED and freezes the paddock with its dump (R639, R640). -/
theorem State.dumpTrigger_freezes (s : State) (p : Nat) (d : Dump) : (s.dumpTrigger p d).rd F.PDK_STATE_DUMPED p = 1 ∧
    (s.dumpTrigger p d).rd F.SWD_STAT_STATE p = 1 ∧ (s.dumpTrigger p d).dumpOf p = some d ∧ (s.dumpTrigger p d).mem = s.mem := by
  unfold State.dumpTrigger
  extract_lets a b
  have hdumped : (s.wr F.PDK_STATE_DUMPED p 1).rd F.PDK_STATE_DUMPED p = 1 := State.rd_wr_self
  have ha : a.rd F.PDK_STATE_DUMPED p = 1 ∧ a.dumpOf p = some d := ⟨hdumped, State.dumpOf_setDump ..⟩
  have hmem : a.mem = s.mem := rfl
  clear_value a
  have hb : b.rd F.SWD_STAT_STATE p = 1 := (State.rd_wr_fld (by decide)).trans State.rd_wr_self
  refine ⟨?_, (State.rd_wr_fld (by decide)).trans hb, ha.2, hmem⟩
  exact (State.rd_wr_fld (by decide)).trans ((State.rd_wr_fld (by decide)).trans ((State.rd_wr_fld (by decide)).trans ha.1))

/-- The dump that a HALT_DUMP triggers: of PF 0 into its own buffer, of the VF into the configured one (R638). -/
def State.haltDump (u : State) (h : Hdr) (g : Option DumpCfg) (out bytes : Nat) : Dump :=
  ⟨some h, if h.fn.val = 0 then true else g.any (fun x => x.byPf), if h.fn.val = 0 then out else (g.map (fun x => x.ptr)).getD 0,
    if h.fn.val = 0 then bytes else (g.map (fun x => x.bytes)).getD 0, if h.fn.val = 0 then 1 else 0, u.now, u.pstatWord (paddockOf h), 0xFF, 0, 0, 0, 0,
    [], false, []⟩

theorem State.haltDump_pf (u : State) {h : Hdr} (g : Option DumpCfg) (out bytes : Nat) (hpf : h.fn.val = 0) :
    (u.haltDump h g out bytes).byPf = true ∧ (u.haltDump h g out bytes).ptr = out ∧ (u.haltDump h g out bytes).bytes = bytes ∧
      (u.haltDump h g out bytes).cause = 1 :=
  ⟨if_pos hpf, if_pos hpf, if_pos hpf, if_pos hpf⟩

theorem State.haltDump_vf (u : State) {h : Hdr} {g : Option DumpCfg} (out bytes : Nat) (hvf : h.fn.val ≠ 0) : (u.haltDump h g out bytes).cause = 0 ∧
    ∀ x, g = some x → (u.haltDump h g out bytes).byPf = x.byPf ∧ (u.haltDump h g out bytes).ptr = x.ptr ∧ (u.haltDump h g out bytes).bytes = x.bytes := by
  refine ⟨if_neg hvf, fun x hx => ?_⟩
  subst hx
  exact ⟨if_neg hvf, if_neg hvf, if_neg hvf⟩

theorem execHaltDump_triggers {s : State} {h : Hdr} {out bytes : Nat} {rs : List HostRange} (hrs : rs = if h.fn.val = 0 then [⟨out, bytes, true⟩] else [])
    (hgo : s.goes h opHaltDump
      (firstStatus [failIf (h.fn.val != 0 && (out != 0 || bytes != 0)) 0x2B0, failIf (h.fn.val == 0 && s.tdiLocked (paddockOf h)) 0x720,
        s.dumpStatus (paddockOf h) (h.fn.val == 0 || (s.dumpCfgOf (paddockOf h)).isSome), failIf (h.fn.val == 0 && !s.bufferOk 0 out bytes) 0x2B1]))
    (hpages : s.untranslated h rs ∨ s.translated h rs) {u : State} (hu : s.begun h opHaltDump (.haltDump h out bytes) rs = u) :
    execHaltDump h out bytes s = .next (u.dumpTrigger (paddockOf h) (u.haltDump h (s.dumpCfgOf (paddockOf h)) out bytes)) := by
  subst hrs
  refine (congrArg Host.Outcome.next ((State.checked_goes hgo).trans (State.gate_begun hpages))).trans ?_
  rw [hu]
  by_cases hfn : h.fn.val = 0
  · simp only [State.haltDump, hfn, if_true]
  · simp only [State.haltDump, hfn, if_false]

/-! ### The gating of cores -/

/-- The cut of a core is kept with the dump of its paddock, and the core is gated (R640, R641). -/
def State.coreCut (s : State) (c : Nat) (d : Dump) : State :=
  (s.setDump (corePdk c) { d with cuts := d.cuts ++ [s.cutOf c (d.cuts == [])] }).gatedTo (tset false s.sched.gated [c] true)

theorem execSwardCoreGate_cuts {s : State} {c : Fin 128} {x : Option Dump} (hx : s.dumpOf (corePdk c.val) = x) : execSwardCoreGate c s =
    .next (x.elim s (fun d => if d.captured = true ∨ d.cuts.any (fun y => y.core == coreOff c.val) = true then s else s.coreCut c.val d)) := by
  unfold execSwardCoreGate
  dsimp only
  rw [hx]
  cases x with
  | none => rfl
  | some d => exact (apply_ite Host.Outcome.next _ _ _).symm

/-- Every core of the paddock's dump is cut once. -/
theorem State.coreCut_keeps (s : State) (c : Nat) (d : Dump) : (s.coreCut c d).mem = s.mem ∧ (s.coreCut c d).regs = s.regs ∧
    (s.coreCut c d).dumpOf (corePdk c) = some { d with cuts := d.cuts ++ [s.cutOf c (d.cuts == [])] } ∧ tget false (s.coreCut c d).sched.gated [c] = true := by
  unfold State.coreCut
  refine ⟨rfl, rfl, State.dumpOf_setDump .., ?_⟩
  rw [State.gatedTo_gated]
  exact tget_tset_self

/-! ### The capture -/

/-- Status with which a capture's abort ends the runs (R643). -/
def captureCause (cause : Nat) : Nat := if cause = 4 then 0x606 else if cause = 2 ∨ cause = 3 then 0x600 else 0x607

/-- The image is taken and shown (R642, R643). -/
def State.imageTaken (s : State) (p : Nat) (d : Dump) (image : List Byte) : State :=
  ((s.setDump p { d with captured := true, image := image }).wr F.SWD_STAT_STATE p 2).wr F.SWD_STAT_TOTAL_BYTES p image.length

/-- The paddock is aborted and QUIESCED (R643). -/
def State.captureEnds (s : State) (p cause : Nat) : State :=
  ((((s.abortScope1 p cause false).1).cancelReceives p).clearPairs (vfOf p)).wr F.PDK_STATE_STATE p pdkQuiesced

theorem execSwardCaptureDone_captures {s : State} {p : Fin 16} {x : Option Dump} (hx : s.dumpOf p.val = x) : execSwardCaptureDone p s =
    .next (x.elim s (fun d => if d.captured = true ∨ d.cuts.length < 8 then s
      else (s.imageTaken p.val d (s.dumpImage p.val d)).captureEnds p.val (captureCause d.cause))) := by
  unfold execSwardCaptureDone
  rw [hx]
  cases x with
  | none => rfl
  | some d => exact (apply_ite Host.Outcome.next _ _ _).symm

theorem BaseFrame.cancelReceives {ks : List Fld} {s₀ s : State} (h : BaseFrame ks s₀ s) (p : Nat) : BaseFrame ks s₀ (s.cancelReceives p) := by
  unfold State.cancelReceives
  extract_lets gone a
  have ha : BaseFrame ks s₀ a := h.foldl fun _ _ hu => hu.beside rfl rfl
  exact ha.beside rfl rfl

/-- One pair is cleared; IDLE follows (R497). -/
def State.clearPair (s : State) (fn k : Nat) : State :=
  let s := s.wr F.CMQ_CFG_EN fn 0 k
  if s.rd F.CMQ_SQ_HEAD_OUTSTANDING fn k = 0 then s.wr F.CMQ_CFG_IDLE fn 1 k else s

theorem State.clearPair_en (s : State) (fn k j : Nat) : (s.clearPair fn k).rd F.CMQ_CFG_EN fn j = (s.wr F.CMQ_CFG_EN fn 0 k).rd F.CMQ_CFG_EN fn j := by
  unfold State.clearPair
  extract_lets a
  split
  · exact State.rd_wr_fld (by decide)
  · rfl

/-- EN of every pair of a function is 0 once they are cleared (R497). -/
theorem State.clearPairs_en (s : State) (fn : Nat) {k : Nat} (hk : k < 8) : (s.clearPairs fn).rd F.CMQ_CFG_EN fn k = 0 :=
  State.rd_loopN_round (f := fun k u => u.clearPair fn k) (φ := fun _ => 0) (fun u => (u.clearPair_en fn k k).trans State.rd_wr_self)
    (fun m hm u => (u.clearPair_en fn m k).trans (State.rd_wr_idx (Ne.symm hm))) hk

/-- The registers of a dump that a capture's end leaves alone. -/
theorem State.captureEnds_frame (s : State) (p cause : Nat) : BaseFrame [F.SWD_STAT_STATE, F.SWD_STAT_TOTAL_BYTES] s (s.captureEnds p cause) :=
  ((((BaseFrame.refl s).abortScope1 p cause false).cancelReceives p).clearPairs _).wr

theorem State.captureEnds_quiesces (s : State) (p cause : Nat) : (s.captureEnds p cause).pdkState p = pdkQuiesced ∧
    ∀ k < 8, (s.captureEnds p cause).rd F.CMQ_CFG_EN (vfOf p) k = 0 := by
  unfold State.captureEnds
  generalize ((s.abortScope1 p cause false).1).cancelReceives p = u
  refine ⟨?_, fun k hk => (State.rd_wr_fld (by decide)).trans (u.clearPairs_en _ hk)⟩
  rw [State.wr_pdkState, if_pos rfl]
  rfl

/-- The captured dump: its image is shown, and the paddock is QUIESCED with every pair disabled (R642, R643). -/
theorem State.capture_shows (s : State) (p : Nat) (d : Dump) (image : List Byte) {t : State} (ht : t = (s.imageTaken p d image).captureEnds p (captureCause d.cause)) :
    t.pdkState p = pdkQuiesced ∧ t.rd F.SWD_STAT_STATE p = 2 ∧ t.rd F.SWD_STAT_TOTAL_BYTES p = image.length % 2 ^ 32 ∧
      t.dumpOf p = some { d with captured := true, image := image } ∧ ∀ k < 8, t.rd F.CMQ_CFG_EN (vfOf p) k = 0 := by
  have htaken : (s.imageTaken p d image).rd F.SWD_STAT_STATE p = 2 := (State.rd_wr_fld (by decide)).trans State.rd_wr_self
  have htotal : (s.imageTaken p d image).rd F.SWD_STAT_TOTAL_BYTES p = image.length % 2 ^ 32 := State.rd_wr_self
  have hdump : (s.imageTaken p d image).dumpOf p = some { d with captured := true, image := image } :=
    s.dumpOf_setDump p { d with captured := true, image := image }
  generalize s.imageTaken p d image = u at *
  have hframe := u.captureEnds_frame p (captureCause d.cause)
  obtain ⟨hstate, hen⟩ := u.captureEnds_quiesces p (captureCause d.cause)
  rw [← ht] at hframe hstate hen
  exact ⟨hstate, (hframe.rd (by simp) ..).trans htaken, (hframe.rd (by simp) ..).trans htotal, (congrArg (tget none · [p]) hframe.dumps).trans hdump, hen⟩

/-! ### The write -/

/-- Bytes written through a pointer change no count of dumps and no dump. -/
theorem State.ptrWrite_beside (s : State) (fn p ptr : Nat) (bs : List Byte) :
    SameFlds [F.CNT_D_COUNT] s (s.ptrWrite fn p ptr bs) ∧ (s.ptrWrite fn p ptr bs).dumps = s.dumps := by
  unfold State.ptrWrite
  split
  · have ha : SameFlds [F.CNT_D_COUNT] s ((s.noteWrite p ptr bs.length).hbmWrite p (ptrAddr ptr) bs) := (SameFlds.refl s).beside rfl
    exact ⟨ha.bump, State.bump_dumps ..⟩
  · have ha : SameFlds [F.CNT_D_COUNT] s (s.emit (.hostWrite fn ptr bs)) := (SameFlds.refl s).beside rfl
    exact ⟨ha.bump, State.bump_dumps ..⟩
  · split
    · rename_i port fpa _
      extract_lets a
      have ha : SameFlds [F.CNT_D_COUNT] s (a.emit (.far port fpa true bs)) := (SameFlds.refl s).beside rfl
      exact ⟨ha.bump, State.bump_dumps ..⟩
    · exact ⟨.refl s, rfl⟩
  · have hsent : ∀ (n : Nat) (m : Nat → State → Msg), BaseFrame [F.CNT_D_COUNT] s (loopN n (fun k u => u.sendMsg (m k u)) s) :=
      fun _ _ => (BaseFrame.refl s).loopN fun _ _ hu => hu.sendMsg _
    exact ⟨(hsent ..).flds, (hsent ..).dumps⟩

/-- The records are written unless the write fails, the state of the dump says which, and the dump counts (R644, R645). -/
def State.dumpWritten (s : State) (p : Nat) (d : Dump) (ok : Bool) : State :=
  let fn := if d.byPf then 0 else vfOf p
  let s := if ok then (s.ptrWrite fn p (d.ptr + 128) (d.image.drop 128)).ptrWrite fn p d.ptr (d.image.take 128) else s
  (s.wr F.SWD_STAT_STATE p (if ok then 3 else 4)).bump F.CNT_D_COUNT 0 2

theorem State.dumpWritten_counts (s : State) (p : Nat) (d : Dump) (ok : Bool) : (s.dumpWritten p d ok).rd F.SWD_STAT_STATE p = (if ok then 3 else 4) ∧
    (s.dumpWritten p d ok).rd F.CNT_D_COUNT 0 2 = min (s.rd F.CNT_D_COUNT 0 2 + 1) maxCount := by
  unfold State.dumpWritten
  extract_lets fn a
  have ha : SameFlds [F.CNT_D_COUNT] s a := by
    obtain ⟨hfirst, -⟩ := s.ptrWrite_beside fn p (d.ptr + 128) (d.image.drop 128)
    exact (hfirst.trans (State.ptrWrite_beside ..).1).ite (.refl s)
  clear_value a
  refine ⟨(State.rd_bump_fld (by decide) (by decide)).trans (State.rd_wr_self.trans ?_), ?_⟩
  · cases ok <;> rfl
  · rw [State.rd_bump_self rfl (by decide), State.rd_wr_fld (by decide), ha _ (by simp)]

theorem execSwardWriteDone_none {s : State} {p : Fin 16} {ok : Bool} (hnone : s.dumpOf p.val = none) : execSwardWriteDone p ok s = .next s := by
  simp [execSwardWriteDone, hnone]

theorem execSwardWriteDone_waits {s : State} {p : Fin 16} {ok : Bool} {d : Dump} (hsome : s.dumpOf p.val = some d) (hcap : d.captured = false) :
    execSwardWriteDone p ok s = .next s := by
  simp [execSwardWriteDone, hsome, hcap]

/-- The command of the dump, if one triggered it, completes; the functions are told (R644). -/
theorem execSwardWriteDone_ends {s : State} {p : Fin 16} {ok : Bool} {d : Dump} (hsome : s.dumpOf p.val = some d) (hcap : d.captured = true)
    (hst : s.rd F.SWD_STAT_STATE p.val = 2) : ∃ v, BaseFrame [F.SWD_STAT_STATE, F.CNT_D_COUNT] (s.dumpWritten p.val d ok) v ∧ ∃ st detail,
      execSwardWriteDone p ok s = .next ((v.setDump p.val { d with h := none }).eventBoth p.val 0x58 st detail) := by
  have hrun : ¬(d.captured = false ∨ s.rd F.SWD_STAT_STATE p.val ≠ 2) := by simp [hcap, hst]
  unfold execSwardWriteDone
  rw [hsome]
  refine ⟨_, ?_, _, _, if_neg hrun⟩
  cases d.h with
  | none => exact .refl _
  | some h => exact (BaseFrame.refl _).complete

/-- Settles O54: snapshots by their copies, configurations and dumps by what each step stores. -/
theorem swardAndCounters : Obligations.SwardAndCounters := by
  unfold Obligations.SwardAndCounters
  refine fun s => ⟨fun fn hfn hclosed => (if_neg hfn).trans (if_pos hclosed), fun fn hfn hopen => ⟨_, execCntSnapTake_paddock hfn hopen, ?_⟩,
    fun fn hfn => ⟨_, execCntSnapTake_device hfn, ?_⟩, fun h set out n hn hgo hpages u hu => ⟨execCounterRead_writes hn hgo hpages hu, hn ▸ State.counterBytes_length ..⟩,
    fun h flags buf bytes rs hrs hgo => ⟨execDumpConfig_clears hgo, fun hset => execDumpConfig_stores hgo hset hrs⟩,
    fun p g => ⟨(s.setDumpCfg_stores p g).1, (s.clearDumpCfg_clears p).1, (s.setDumpCfg_stores p g).2, (s.clearDumpCfg_clears p).2⟩,
    fun h out bytes rs hrs hgo hpages => ?_, fun c => ⟨fun hnone => execSwardCoreGate_cuts hnone, fun d hsome => ⟨fun hdone => ?_, fun hcap hcut => ?_⟩⟩,
    fun p => ⟨fun hnone => ⟨execSwardCaptureDone_captures hnone, fun ok => execSwardWriteDone_none hnone⟩, fun d hsome => ⟨fun hfew => ?_, fun hcap hall => ?_,
      fun ok hcap hst => ?_, fun ok hcap => execSwardWriteDone_waits hsome hcap⟩⟩⟩
  · exact State.snapshot_copies (by decide) (by decide) (fun u hu k => State.pdkCounter_snap hu _ k) rfl
  · exact State.snapshot_copies (by decide) (by decide) (fun u hu k => State.devCounter_snap hu k) rfl
  · obtain ⟨hdumped, hstate, hdump, hmem⟩ := (s.begun h opHaltDump (.haltDump h out bytes) rs).dumpTrigger_freezes (paddockOf h)
      ((s.begun h opHaltDump (.haltDump h out bytes) rs).haltDump h (s.dumpCfgOf (paddockOf h)) out bytes)
    exact ⟨_, _, execHaltDump_triggers hrs hgo hpages rfl, rfl, rfl, rfl, rfl, fun hpf => State.haltDump_pf _ _ out bytes hpf,
      fun hvf => State.haltDump_vf _ out bytes hvf, hdumped, hstate, hdump, hmem.trans (State.begun_mem ..)⟩
  · exact (execSwardCoreGate_cuts hsome).trans (congrArg _ (if_pos hdone))
  · obtain ⟨hmem, hregs, hdump, hgated⟩ := s.coreCut_keeps c.val d
    exact ⟨_, (execSwardCoreGate_cuts hsome).trans (congrArg _ (if_neg (by simp [hcap, hcut]))), hmem, hregs, hdump, hgated⟩
  · exact (execSwardCaptureDone_captures hsome).trans (congrArg _ (if_pos (.inr hfew)))
  · exact ⟨_, (execSwardCaptureDone_captures hsome).trans (congrArg _ (if_neg (by simp [hcap, hall]))), State.capture_shows s p.val d _ rfl⟩
  · obtain ⟨v, hframe, st, detail, hexec⟩ := execSwardWriteDone_ends (ok := ok) hsome hcap hst
    obtain ⟨hstate, hcount⟩ := s.dumpWritten_counts p.val d ok
    have hset : SameFlds [F.SWD_STAT_STATE, F.CNT_D_COUNT] v (v.setDump p.val { d with h := none }) := (SameFlds.refl v).beside rfl
    have hdump := v.dumpOf_setDump p.val { d with h := none }
    generalize v.setDump p.val { d with h := none } = w at hset hdump hexec
    have hend : BaseFrame [F.SWD_STAT_STATE, F.CNT_D_COUNT] w (w.eventBoth p.val 0x58 st detail) := (BaseFrame.refl w).eventBoth
    have hflds := (hframe.flds.trans hset).trans hend.flds
    exact ⟨_, hexec, (hflds _ (by simp) ..).trans hstate, (hflds _ (by simp) ..).trans hcount, (congrArg (tget none · [p.val]) hend.dumps).trans hdump⟩

end Sys2Proof.Machine
end
